-- ==== Sys2Proof/Word.lean ====
section
/-! DEFINITION. The word types of the RLN9192 model and the plainest views of a word.
Registers are 32 bits wide (R6), memory is byte-addressed and little-endian (R5). -/

namespace Sys2Proof

/-- A 32-bit register or fabric word (R6). -/
abbrev Word := BitVec 32

/-- One byte of memory or of a frame. -/
abbrev Byte := BitVec 8

/-- A 64-bit quantity: the Tense counter, a counter, a sequence number. -/
abbrev DWord := BitVec 64

end Sys2Proof
end

