-- ==== Sys2Proof/Syntax.lean ====
section
/-! DEFINITION. The commands of the RLN9192: one constructor per row of the command table. Operands that name a
register value, an address or a port are as the spec gives them; operands that stand for what the outside world or a
physical process shows (a frame on a line, a signature's verdict, a self-test result) are facts of the environment. -/

namespace Sys2Proof

/-- A master number (R9). -/
abbrev Master := BitVec 6

/-- A logical protocol engine, or a multidrop controller: 0–47. -/
abbrev Pe := Fin 48

/-- The size of a register access (R6). -/
inductive AccSize where
  | b1 | b2 | b4
  deriving DecidableEq, Repr

/-- How a frame ends on a MAC's line (R217, R225): sound, with a bad FCS, with an alignment error, cut off, or as
fragments that do not reassemble. -/
inductive RxKind where
  | good | fcs | align | cut | reassembly
  deriving DecidableEq, Repr

/-- Why a link goes down (R215): its in-band word or clause 37 result, or its lane's loss of sync or block lock, or of its signal. -/
inductive LaneLoss where
  | word | sync | signal
  deriving DecidableEq, Repr

/-- What reading a stored frame meets: its bytes, bytes that differ from the stored ones, or a poisoned half. -/
inductive ReadFault where
  | clean | corrupt | poison
  deriving DecidableEq, Repr

/-- What reading one ECC word shows (R438). -/
inductive EccKind where
  | clean | single | double
  deriving DecidableEq, Repr

/-- The classes of verification units (R158): public-key, lattice, HMAC. -/
inductive UnitClass where
  | pk | lattice | hmac
  deriving DecidableEq, Repr

/-- Why a multidrop frame fails (R323). -/
inductive MdbErr where
  | arbLost | stuff | form | ack | bit1 | bit0 | crc | pex
  deriving DecidableEq, Repr

/-- Why the host interface is reset (R449). -/
inductive HostLoss where
  | perst | flr | link
  deriving DecidableEq, Repr

/-- What the reads of a host DMA item meet (R457). -/
inductive HostFetch where
  | ok | descErr | bufErr
  deriving DecidableEq, Repr

/-- A boot image in flash, and the verdicts of ML-DSA verifications of its vendor and owner signatures (R77, R78). -/
structure ImgFact where
  bytes : List Byte
  vendorSig : Bool
  ownerSig : Bool
  deriving DecidableEq, Repr

/-- The facts of one start-up (R68–R77): what self-test finds, the straps, the flash images, and the microseconds from
reset release to forwarding. -/
structure BootEnv where
  failBlock : BitVec 4
  failBanks : List (Fin 528)
  /-- banks repaired in place, with the spare rows and columns used -/
  repaired : List (Fin 528 × Fin 5 × Fin 3)
  failEngines : List (Fin 52)
  bootMode : BitVec 2
  /-- the level of `VLT_ERASE_N` at reset release -/
  eraseN : Bool
  mgtAddr : BitVec 2
  /-- key-pool pages whose tag fails at restore (R191) -/
  badPages : List (Fin 256)
  primary : ImgFact
  secondary : ImgFact
  us : BitVec 20
  deriving DecidableEq, Repr

/-- What the scheduler predicts of its actions, in mW (R531): stage 1, one shaping step, the pauses, one cluster step. -/
structure Forecast where
  relief : BitVec 16
  shape : BitVec 16
  pause : BitVec 16
  cluster : BitVec 16
  deriving DecidableEq, Repr

/-- The commands of the block: one constructor per row of the command table, with the facts that the environment
supplies as operands. -/
inductive Instr where
  /-- REGISTER_WRITE: master `m` writes `v` at address `a` -/
  | registerWrite (m : Master) (a : Word) (sz : AccSize) (v : Word)
  /-- CFG_LOCK_WRITE: write of `CFG_LOCK` of the page at `page` -/
  | cfgLockWrite (m : Master) (page : Word) (v : Word)
  /-- SOFT_RST: write of `BLK_CTRL` with `SOFT_RST` set -/
  | softRst (m : Master) (page : Word) (v : Word)
  /-- BLOCK_POWER_REQUEST: write of `BLK_CTRL.PWR` -/
  | blockPowerRequest (m : Master) (page : Word) (pwr : BitVec 2)
  /-- BLOCK_POWER_CHANGE_DONE: the power change in progress completes -/
  | blockPowerChangeDone (page : Word)
  /-- IRQ_FORCE: write of `IRQ_FORCE` -/
  | irqForce (m : Master) (page : Word) (v : Word)
  /-- CNT_SNAP: write of `CNT_CTRL` with `SNAP` set and `CLR_ON_SNAP` = `clr` -/
  | cntSnap (m : Master) (page : Word) (clr : Bool)
  /-- SEC_WPOL_WRITE: write of `SEC.WPOL[t]` -/
  | secWpolWrite (m : Master) (t : Fin 38) (v : Word)
  /-- DENY_COUNT_READ: read of `SEC.DENY_COUNT` -/
  | denyCountRead (m : Master)
  /-- SW_SET: write of `INT.SW_SET` -/
  | swSet (m : Master) (v : Word)
  /-- SW_CLR: write of `INT.SW_CLR` -/
  | swClr (m : Master) (v : Word)
  /-- ROUTE_WRITE: write of `INT.ROUTE[n]` -/
  | routeWrite (m : Master) (n : Fin 1024) (v : Word)
  /-- MASK_WRITE: write of `INT.MASK[k]` -/
  | maskWrite (m : Master) (k : Fin 32) (v : Word)
  /-- HOST_EOI: write of `INT.HOST_EOI[vec]` -/
  | hostEoi (m : Master) (vec : Fin 64)
  /-- POR: power-on reset; `also` holds the other causes of the cycle, bit c - 1 for code c -/
  | por (also : BitVec 8)
  /-- PIN_RESET: `SYS_RESET_N` held low -/
  | pinReset (also : BitVec 8)
  /-- BROWN_CORE: VDD_CORE below its reset threshold -/
  | brownCore (also : BitVec 8)
  /-- BROWN_AON: VDD_AON below its reset threshold -/
  | brownAon (also : BitVec 8)
  /-- LP_OVERLOAD: AON regulator overload -/
  | lpOverload (also : BitVec 8)
  /-- WDT_SSP: SSP watchdog expiry -/
  | wdtSsp (also : BitVec 8)
  /-- LOCKSTEP_MISMATCH: SSP lockstep mismatch -/
  | lockstepMismatch (also : BitVec 8)
  /-- SOFT_RESET: write of `SYS.SOFT_RESET` -/
  | softReset (m : Master) (v : Word)
  /-- THERMAL_TRIP: the thermal trip acts -/
  | thermalTrip (also : BitVec 8)
  /-- THERMAL_HOLD_END: the THERM hold ends -/
  | thermalHoldEnd
  /-- RESET_RELEASE: reset release and the start-up sequence, under the facts `e` -/
  | resetRelease (e : BootEnv)
  /-- AON_CRYSTAL_CONFIRMED: the AON crystal is confirmed -/
  | aonCrystalConfirmed
  /-- PUSH_BOOT: `SYS.CMD` = PUSH_BOOT; the verdicts of ML-DSA verifications of the pushed image's vendor and owner signatures -/
  | pushBoot (m : Master) (vendorSig ownerSig : Bool)
  /-- ENROL: `SYS.CMD` = ENROL; the verdict of an ML-DSA verification of the proof -/
  | enrol (m : Master) (lattice : Bool)
  /-- ERASE: `SYS.CMD` = ERASE -/
  | erase (m : Master)
  /-- DEBUG_UNLOCK: `SYS.CMD` = DEBUG_UNLOCK; the verdict of an ML-DSA verification of the token -/
  | debugUnlock (m : Master) (lattice : Bool)
  /-- DEBUG_LOCK: `SYS.CMD` = DEBUG_LOCK -/
  | debugLock (m : Master)
  /-- VAULT_ERASE_COMPLETE: the vault erase completes -/
  | vaultEraseComplete
  /-- BUNDLE_REGISTER_WRITES: the SSP applies the oldest released bundle, of kind REGISTER_WRITES -/
  | bundleRegisterWrites
  /-- BUNDLE_OWNER_TRANSFER: the oldest released bundle is OWNER_TRANSFER; the verdict of an ML-DSA verification of its proof -/
  | bundleOwnerTransfer (lattice : Bool)
  /-- BUNDLE_VAULT_POLICY: the oldest released bundle is VAULT_POLICY -/
  | bundleVaultPolicy
  /-- BUNDLE_ERASE_VAULT: the oldest released bundle is ERASE_VAULT -/
  | bundleEraseVault
  /-- MAC_RECEIVE: a frame, without FCS, arrives on port `p` -/
  | macReceive (p : Fin 192) (bytes : List Byte) (k : RxKind)
  /-- MAC_CONTROL_RECEIVE: a MAC control frame that is not PAUSE -/
  | macControlReceive (p : Fin 192) (opcode : BitVec 16)
  /-- PAUSE_RECEIVE: a PAUSE frame -/
  | pauseReceive (p : Fin 192) (da : BitVec 48) (quanta : BitVec 16)
  /-- PAUSE_EXPIRY: the received quanta have elapsed -/
  | pauseExpiry (p : Fin 192)
  /-- PAUSE_XOFF_SEND: occupancy above `XOFF_CELLS` -/
  | pauseXoffSend (p : Fin 192)
  /-- PAUSE_REFRESH: half the quanta have elapsed -/
  | pauseRefresh (p : Fin 192)
  /-- PAUSE_XON_SEND: occupancy at or below `XON_CELLS` -/
  | pauseXonSend (p : Fin 192)
  /-- EGRESS_SELECT: egress port `p` selects; `f` is what reading the cells meets -/
  | egressSelect (p : Fin 224) (f : ReadFault)
  /-- MAC_TRANSMIT_END: the last byte leaves port `p` -/
  | macTransmitEnd (p : Fin 192)
  /-- AGEING_HEAD_CHECK: the Tense counter reaches a whole millisecond -/
  | ageingHeadCheck
  /-- GATE_INTERVAL_EXPIRY: the operating gate list entry's interval elapses -/
  | gateIntervalExpiry (p : Fin 224)
  /-- GATE_SWAP_ARM: write of `GATE_CTRL[p]` word 0 with `SWAP` set -/
  | gateSwapArm (m : Master) (p : Fin 224) (v : Word)
  /-- GATE_BANK_SWAP: the armed bank's first cycle starts -/
  | gateBankSwap (p : Fin 224)
  /-- HSR_PASS_THROUGH: a frame received on `p` passes through to its partner -/
  | hsrPassThrough (p : Fin 192) (bytes : List Byte) (k : RxKind)
  /-- TBL_WRITE: `SWC.TBL_CMD` with `OP` WRITE -/
  | tblWrite (m : Master) (v : Word)
  /-- TBL_READ: `SWC.TBL_CMD` with `OP` READ -/
  | tblRead (m : Master) (v : Word)
  /-- FDB_WRITE: `FDB.CMD` with `OP` WRITE -/
  | fdbWrite (m : Master) (v : Word)
  /-- FDB_INSERT: `FDB.CMD` with `OP` INSERT -/
  | fdbInsert (m : Master) (v : Word)
  /-- FDB_DELETE: `FDB.CMD` with `OP` DELETE -/
  | fdbDelete (m : Master) (v : Word)
  /-- FDB_LOOKUP: `FDB.CMD` with `OP` LOOKUP -/
  | fdbLookup (m : Master) (v : Word)
  /-- AGE_PERIOD_WRITE: write of `FDB.AGE_PERIOD` -/
  | agePeriodWrite (m : Master) (v : Word)
  /-- FDB_AGE_SWEEP: the sweep falls due -/
  | fdbAgeSweep
  /-- PURGE_SCAN_COMPLETE: the scan for the oldest purge pair ends -/
  | purgeScanComplete
  /-- WITHDRAWAL_POST: a posting that waits takes a free place -/
  | withdrawalPost
  /-- WITHDRAWAL_SCAN_COMPLETE: the scan for the oldest withdrawal entry ends -/
  | withdrawalScanComplete
  /-- DROP_RING_LOST_READ: read of `SWC.DROP_RING_LOST` -/
  | dropRingLostRead (m : Master)
  /-- SMP_LOST_READ: read of `SWC.SMP_LOST` -/
  | smpLostRead (m : Master)
  /-- GATE_ADMISSION: the frame at the Gate input is checked and admitted -/
  | gateAdmission (f : ReadFault)
  /-- UNIT_TAKES_ENTRY: the oldest waiting entry of a class takes a free unit -/
  | unitTakesEntry (c : UnitClass)
  /-- SIGNATURE_RESULT: a unit gives its result for the entry with this tag; `ok` is the verdict of a lattice unit -/
  | signatureResult (tag : Word) (ok : Bool)
  /-- VERDICT: the verdict stage handles the entry with this tag -/
  | verdict (tag : Word)
  /-- REPLAY_MARK_DURABLE: the mark write of a key is durable -/
  | replayMarkDurable (key : Fin 4096)
  /-- GATE_HOLD_LIMIT_EXPIRY: the oldest record at a Gate entry exceeds `HOLD_LIMIT` -/
  | gateHoldLimitExpiry (chan : BitVec 9)
  /-- CAT_INSTALL: `IMG.CAT_CMD` with `OP` INSTALL -/
  | catInstall (m : Master) (v : Word)
  /-- CAT_ENABLE: `IMG.CAT_CMD` with `OP` ENABLE -/
  | catEnable (m : Master) (v : Word)
  /-- CAT_DISABLE: `IMG.CAT_CMD` with `OP` DISABLE -/
  | catDisable (m : Master) (v : Word)
  /-- CAT_REVOKE: `IMG.CAT_CMD` with `OP` REVOKE -/
  | catRevoke (m : Master) (v : Word)
  /-- CAT_READ: `IMG.CAT_CMD` with `OP` READ -/
  | catRead (m : Master) (v : Word)
  /-- CAT_COMMAND_DURABLE: the CAT command in progress is durable -/
  | catCommandDurable
  /-- SIEVE_WRITE: `IMG.SIEVE_CMD` with `OP` WRITE -/
  | sieveWrite (m : Master) (v : Word)
  /-- SIEVE_READ: `IMG.SIEVE_CMD` with `OP` READ -/
  | sieveRead (m : Master) (v : Word)
  /-- KEY_POOL_WRITE: write of word `w` of the key-pool window -/
  | keyPoolWrite (m : Master) (w : Fin 16384) (v : Word)
  /-- VR_SIZE_WRITE: write of `IMG.VR_SIZE` -/
  | vrSizeWrite (m : Master) (v : Word)
  /-- VR_OVERRUN_READ: read of `IMG.VR_OVERRUN` -/
  | vrOverrunRead (m : Master)
  /-- GATE_CTRL_WRITE: write of `IMG.GATE_CTRL` -/
  | gateCtrlWrite (m : Master) (v : Word)
  /-- SVC_POST: engine `n` posts the service request at `addr` -/
  | svcPost (n : Pe) (addr : Word)
  /-- SERVICE_REQUEST_END: an HMAC lane completes its service request -/
  | serviceRequestEnd (lane : Fin 32)
  /-- SUPPLY_WARNING: the VDD_CORE warning, or the VDD_AON warning when `aon`, asserts -/
  | supplyWarning (aon : Bool)
  /-- SUPPLY_VERIFY_ABANDON: 500 us after the warning -/
  | supplyVerifyAbandon
  /-- SUPPLY_WARNING_CLEAR: the warning clears -/
  | supplyWarningClear (aon : Bool)
  /-- CNT_INCREMENT: `VLT.CNT_CMD` INCREMENT of counter `c` -/
  | cntIncrement (m : Master) (c : BitVec 8)
  /-- CNT_RAISE: `VLT.CNT_CMD` RAISE of counter `c` -/
  | cntRaise (m : Master) (c : BitVec 8)
  /-- CNT_READ: `VLT.CNT_CMD` READ of counter `c` -/
  | cntRead (m : Master) (c : BitVec 8)
  /-- COUNTER_DURABLE: the counter command's value is durable -/
  | counterDurable
  /-- JOURNAL_EXPORT: write of `VLT.EXPORT_COUNT` -/
  | journalExport (m : Master) (v : Word)
  /-- JOURNAL_EXPORT_DONE: the export ends -/
  | journalExportDone
  /-- AUDIT_DROPPED_READ: read of `VLT.AUDIT_DROPPED` -/
  | auditDroppedRead (m : Master)
  /-- LOG_COMPACTION: a full log is compacted -/
  | logCompaction (log : Fin 6)
  /-- JOURNAL_SECOND_END: a journal second ends -/
  | journalSecondEnd
  /-- JOURNAL_ALLOWANCE_ACCRUAL: one second of allowance accrues -/
  | journalAllowanceAccrual
  /-- LINK_UP: the lane reports link up at full duplex; `errs` is the code or block errors met before -/
  | linkUp (p : Fin 192) (speed : BitVec 3) (errs : BitVec 16)
  /-- LINK_DOWN: the link goes down, or a half-duplex report holds it down; `errs` is the code or block errors met before -/
  | linkDown (p : Fin 192) (half : Bool) (why : LaneLoss) (errs : BitVec 16)
  /-- SDS_ENABLE: `SDS.BLK_CTRL.EN` written 1 -/
  | sdsEnable (m : Master) (l : Fin 60)
  /-- AN_RESTART: `SDS.AN_CTRL.AN_RESTART` written 1 -/
  | anRestart (m : Master) (l : Fin 60)
  /-- PRBS_ERR_READ: read of `SDS.PRBS_ERR`; `errs` is the pattern errors that the checker has met since the read before -/
  | prbsErrRead (m : Master) (l : Fin 60) (errs : Word)
  /-- VERIFY_SEND: idle comes, or VERIFY_TIME elapses -/
  | verifySend (p : Fin 192)
  /-- RESPOND_RECEIVE: a respond mPacket -/
  | respondReceive (p : Fin 192)
  /-- VERIFY_RECEIVE: a verify mPacket -/
  | verifyReceive (p : Fin 192)
  /-- LPI_ENTRY: `IDLE_US` pass with no frame waiting -/
  | lpiEntry (p : Fin 192)
  /-- LPI_EXIT: a frame waits and the transmitter leaves LPI -/
  | lpiExit (p : Fin 192)
  /-- LPI_RX: the partner begins or ends LPI -/
  | lpiRx (p : Fin 192) (on : Bool)
  /-- RED_CTRL_WRITE: write of `MAC.RED_CTRL` -/
  | redCtrlWrite (m : Master) (p : Fin 192) (v : Word)
  /-- DUP_ENTRY_EXPIRY: the oldest duplicate entry of a pair reaches its life -/
  | dupEntryExpiry (pair : Fin 16)
  /-- MDIO_READ: `MDIO_CMD` read -/
  | mdioRead (m : Master) (l : Fin 4) (v : Word)
  /-- MDIO_WRITE: `MDIO_CMD` write -/
  | mdioWrite (m : Master) (l : Fin 4) (v : Word)
  /-- MDIO_ADDRESS: `MDIO_CMD` clause 45 address -/
  | mdioAddress (m : Master) (l : Fin 4) (v : Word)
  /-- MDIO_POST_READ_INCREMENT: `MDIO_CMD` clause 45 post-read-increment-address -/
  | mdioPostReadIncrement (m : Master) (l : Fin 4) (v : Word)
  /-- MDIO_FRAME_END: the frame ends; `data` is what the bus carried on a read -/
  | mdioFrameEnd (l : Fin 4) (data : BitVec 16)
  /-- PLK_COMMIT: `PLK.CMD` COMMIT -/
  | plkCommit (m : Master) (n : Fin 16)
  /-- PLK_UNCOMMIT: `PLK.CMD` UNCOMMIT -/
  | plkUncommit (m : Master) (n : Fin 16)
  /-- PLK_START: `PLK.CMD` START -/
  | plkStart (m : Master) (n : Fin 16)
  /-- PLK_STOP: `PLK.CMD` STOP -/
  | plkStop (m : Master) (n : Fin 16)
  /-- REQUEST_MODE: `PLK.CMD` REQUEST_MODE -/
  | requestMode (m : Master) (n : Fin 16) (mode : BitVec 2)
  /-- CYCLE_START: a cycle starts; `gcount` is what the guardian has counted since the cycle start before, in its own microticks -/
  | cycleStart (n : Fin 16) (gcount : Word)
  /-- FETCH_POINT: the fetch point of a slot -/
  | fetchPoint (n : Fin 16) (slot : Fin 64)
  /-- ACTION_POINT: the action point of a slot -/
  | actionPoint (n : Fin 16) (slot : Fin 64)
  /-- PL_TRANSMIT_END: the last CRC character of the frame on the line has left -/
  | plTransmitEnd (n : Fin 16)
  /-- PL_FRAME_RECEIVE: a transmission on channel A or B: its bits from the first falling edge on, the first read at its centre, and the falling edges of its first and second character in local time in microticks (R251) -/
  | plFrameReceive (n : Fin 16) (chB : Bool) (lt lt2 : Word) (bits : List Bool)
  /-- SLOT_END: the end of a slot -/
  | slotEnd (n : Fin 16) (slot : Fin 64)
  /-- NIT_START: the NIT begins -/
  | nitStart (n : Fin 16)
  /-- LISTEN_TIMEOUT: the listen timer expires; `edge` says that the line is active then, or a falling edge arrives -/
  | listenTimeout (n : Fin 16) (edge : Bool)
  /-- ECHO_MISMATCH: the node reads back another bit on a channel -/
  | echoMismatch (n : Fin 16) (chB : Bool)
  /-- GUARDIAN_WINDOW_OPEN: the guardian's window of a slot opens -/
  | guardianWindowOpen (n : Fin 16) (slot : Fin 64)
  /-- GUARDIAN_WINDOW_CLOSE: the guardian's window of a slot closes -/
  | guardianWindowClose (n : Fin 16) (slot : Fin 64)
  /-- COMPARATOR_FIRE: the local time reaches comparator `i`'s instant -/
  | comparatorFire (n : Fin 16) (i : Fin 8)
  /-- MDB_START: `MDB.CMD` START -/
  | mdbStart (m : Master) (n : Pe)
  /-- MDB_STOP: `MDB.CMD` STOP -/
  | mdbStop (m : Master) (n : Pe)
  /-- RECOVER: `MDB.CMD` RECOVER -/
  | recover (m : Master) (n : Pe)
  /-- ABORT: `MDB.CMD` ABORT; mask bit b for buffer b -/
  | abort (m : Master) (n : Pe) (mask : BitVec 3)
  /-- INTEGRATION_COMPLETE: 11 consecutive recessive bits -/
  | integrationComplete (n : Pe)
  /-- RECOVERY_COMPLETE: 128 occurrences of 11 recessive bits -/
  | recoveryComplete (n : Pe)
  /-- TX_BUFFER_LOAD: an empty buffer loads -/
  | txBufferLoad (n : Pe) (b : Fin 3)
  /-- ARBITRATION_START: a start of arbitration -/
  | arbitrationStart (n : Pe)
  /-- MDB_FRAME_SENT: the frame on the bus is sent to the end of EOF; the falling edges seen at RXD after the FDF-to-res transition at TXD, in mtq from it (R314) -/
  | mdbFrameSent (n : Pe) (edges : List (BitVec 7))
  /-- MDB_FRAME_FAILED: the frame on the bus fails; whether in the data phase, whether ISO 11898-1 exempts the error from TEC, and the falling edges seen at RXD as at MDB_FRAME_SENT (none before that transition) -/
  | mdbFrameFailed (n : Pe) (why : MdbErr) (inData exempt : Bool) (edges : List (BitVec 7))
  /-- MDB_LIFE_EXPIRY: `LIFE_MS` has passed since the load of buffer `b` -/
  | mdbLifeExpiry (n : Pe) (b : Fin 3)
  /-- MDB_FRAME_RECEIVE: a frame on the bus ends: its record, ESI, the error a receiver finds if any, whether ISO 11898-1 counts it 8, and how long ago its SOF was sampled, in ns -/
  | mdbFrameReceive (n : Pe) (rec_ : List Byte) (esi : Bool) (err : Option MdbErr) (inData heavy : Bool) (ago : Word)
  /-- RX_FIFO_DRAIN: the FIFO head moves into the receive ring -/
  | rxFifoDrain (n : Pe)
  /-- MDB_MODE_CHANGE: the bus is idle and a pending mode change takes effect -/
  | mdbModeChange (n : Pe)
  /-- MDB_WAKE: the wake pattern on the receive pin -/
  | mdbWake (n : Pe)
  /-- LAST_ERR_READ: read of `MDB.LAST_ERR` -/
  | lastErrRead (m : Master) (n : Pe)
  /-- PTC_NOP: engine `n` issues its next instruction, a NOP -/
  | ptcNop (n : Fin 64)
  /-- PTC_SET: engine `n` issues its next instruction, a SET -/
  | ptcSet (n : Fin 64)
  /-- PTC_MOV: a MOV; `pads` holds the pad levels as sampled (R332) -/
  | ptcMov (n : Fin 64) (pads : BitVec 128)
  /-- PTC_OUT: an OUT -/
  | ptcOut (n : Fin 64)
  /-- PTC_IN: an IN -/
  | ptcIn (n : Fin 64) (pads : BitVec 128)
  /-- PTC_PUSH: a PUSH -/
  | ptcPush (n : Fin 64)
  /-- PTC_PULL: a PULL -/
  | ptcPull (n : Fin 64)
  /-- PTC_WAIT: a WAIT -/
  | ptcWait (n : Fin 64) (pads : BitVec 128)
  /-- PTC_AT: an AT -/
  | ptcAt (n : Fin 64)
  /-- PTC_JMP: a JMP -/
  | ptcJmp (n : Fin 64) (pads : BitVec 128)
  /-- PTC_ILLEGAL: the next instruction of engine `n` is illegal -/
  | ptcIllegal (n : Fin 64)
  /-- PTC_STALL_END: what the stalled instruction waits for arrives -/
  | ptcStallEnd (n : Fin 64) (pads : BitVec 128)
  /-- AT_FIRE: the Tense counter reaches T -/
  | atFire (n : Fin 64) (pads : BitVec 128)
  /-- PACKET_LOAD: the feeder loads an output packet -/
  | packetLoad (n : Fin 64)
  /-- PROG_WRITE: write of `PTC.PROG[i]` -/
  | progWrite (m : Master) (n : Fin 64) (i : Fin 32) (v : Word)
  /-- INJECT: write of `PTC.INJECT` -/
  | inject (m : Master) (n : Fin 64) (v : Word)
  /-- PTC_ABORT: write of `PTC.CTRL` with `ABORT` set -/
  | ptcAbort (m : Master) (n : Fin 64) (v : Word)
  /-- PTC_RESTART: write of `PTC.CTRL` with `RESTART` set -/
  | ptcRestart (m : Master) (n : Fin 64) (v : Word)
  /-- PTC_RUN: write of `PTC.CTRL` that sets or clears `RUN` -/
  | ptcRun (m : Master) (n : Fin 64) (v : Word)
  /-- OWN_WRITE: write of `PTC.OWN[k]` -/
  | ownWrite (m : Master) (n : Fin 64) (k : Fin 4) (v : Word)
  /-- DMA_RECV: engine `n`'s DMA runs its head command, a RECV -/
  | dmaRecv (n : Pe)
  /-- DMA_SEND: the head command, a SEND -/
  | dmaSend (n : Pe)
  /-- DMA_READ: the head command, a READ -/
  | dmaRead (n : Pe)
  /-- DMA_WRITE: the head command, a WRITE -/
  | dmaWrite (n : Pe)
  /-- DMA_CPL_READ: engine `n` reads `DMA_CPL` -/
  | dmaCplRead (n : Pe)
  /-- QH_TX_HEAD_WRITE: engine `n` writes `QH_TX_HEAD[k]` -/
  | qhTxHeadWrite (n : Pe) (k : Fin 8) (v : Word)
  /-- QH_RX_TAIL_WRITE: engine `n` writes `QH_RX_TAIL[k]` -/
  | qhRxTailWrite (n : Pe) (k : Fin 8) (v : Word)
  /-- JOB_NEXT_READ: engine `n` reads `JOB_NEXT` -/
  | jobNextRead (n : Pe)
  /-- JOB_END: engine `n` writes `JOB_END` -/
  | jobEnd (n : Pe) (tag : Word)
  /-- JOB_COMPLETION_RECORD: a job completion record that waits finds room -/
  | jobCompletionRecord
  /-- CRC_DATA: engine `n` writes CRC data of this size -/
  | crcData (n : Pe) (sz : AccSize) (v : Word)
  /-- TNOW_LO_READ: master `m`, or the engine with master number `m`, reads `TNOW_LO` -/
  | tnowLoRead (m : Master)
  /-- TIMER_ARM: engine `n` writes `TMR0_HI` or `TMR1_HI` -/
  | timerArm (n : Pe) (t : Fin 2) (v : Word)
  /-- ENGINE_TIMER_FIRE: an engine timer reaches its compare value -/
  | engineTimerFire (n : Pe) (t : Fin 2)
  /-- ENGINE_WDT_KICK: engine `n` writes `WDT_KICK` -/
  | engineWdtKick (n : Pe) (v : Word)
  /-- ENGINE_WATCHDOG_EXPIRY: engine `n`'s watchdog expires -/
  | engineWatchdogExpiry (n : Pe)
  /-- CKPT_COMMIT: engine `n` writes `CKPT_COMMIT` -/
  | ckptCommit (n : Pe) (v : Word)
  /-- MIG_READY: engine `n` writes `MIG_READY` on slot `k` -/
  | migReady (n : Pe) (k : Fin 8) (len : BitVec 16)
  /-- MIG_DONE: engine `n` writes `MIG_DONE` on slot `k` -/
  | migDone (n : Pe) (k : Fin 8)
  /-- MIGRATION_SWITCH: the quiescent condition of the channel's migration holds -/
  | migrationSwitch (c : BitVec 9)
  /-- MIGRATION_ABANDON: the wait of the channel's migration ends, or a supply warning stands -/
  | migrationAbandon (c : BitVec 9)
  /-- LOAD_PERS: `PLC.CMD` LOAD_PERS; the verdict of the ML-DSA verification of the image -/
  | loadPers (m : Master) (slot : BitVec 5) (sigOk : Bool)
  /-- UNLOAD_PERS: `PLC.CMD` UNLOAD_PERS -/
  | unloadPers (m : Master) (slot : BitVec 5)
  /-- REBALANCE: `PLC.CMD` REBALANCE -/
  | rebalance (m : Master)
  /-- DECLARE_DEAD: `PLC.CMD` DECLARE_DEAD -/
  | declareDead (m : Master) (n : BitVec 6)
  /-- POST_JOB: `PLC.CMD` POST_JOB -/
  | postJob (m : Master) (n : BitVec 6) (cls2 : Bool)
  /-- BIND_WRITE: write of `PLC.BIND[c]` word 0 -/
  | bindWrite (m : Master) (c : BitVec 9) (v : Word)
  /-- PLACEMENT_RECOMPUTE: placement decides -/
  | placementRecompute
  /-- ENGINE_DECLARED_DEAD: steps 1 to 4 of R370; `tcm`: an uncorrectable TCM error declares the engine dead now -/
  | engineDeclaredDead (n : Pe) (tcm : Bool)
  /-- TAKEOVER_COMPLETE: steps 5 and 6 of R370 -/
  | takeoverComplete (n : Pe)
  /-- MGP_WATCHDOG_EXPIRY: the SSP's watchdog on the MGP expires -/
  | mgpWatchdogExpiry
  /-- ADD: core `c` issues its next instruction, an ADD -/
  | h32Add (c : Fin 50)
  /-- SUB: core `c` issues its next instruction, a SUB -/
  | h32Sub (c : Fin 50)
  /-- NEG: core `c` issues its next instruction, a NEG -/
  | h32Neg (c : Fin 50)
  /-- AND: core `c` issues its next instruction, an AND -/
  | h32And (c : Fin 50)
  /-- OR: core `c` issues its next instruction, an OR -/
  | h32Or (c : Fin 50)
  /-- XOR: core `c` issues its next instruction, a XOR -/
  | h32Xor (c : Fin 50)
  /-- ANDN: core `c` issues its next instruction, an ANDN -/
  | h32Andn (c : Fin 50)
  /-- SLT: core `c` issues its next instruction, a SLT -/
  | h32Slt (c : Fin 50)
  /-- SLTU: core `c` issues its next instruction, a SLTU -/
  | h32Sltu (c : Fin 50)
  /-- SLL: core `c` issues its next instruction, a SLL -/
  | h32Sll (c : Fin 50)
  /-- SRL: core `c` issues its next instruction, a SRL -/
  | h32Srl (c : Fin 50)
  /-- SRA: core `c` issues its next instruction, a SRA -/
  | h32Sra (c : Fin 50)
  /-- CLZ: core `c` issues its next instruction, a CLZ -/
  | h32Clz (c : Fin 50)
  /-- SEXTB: core `c` issues its next instruction, a SEXTB -/
  | h32Sextb (c : Fin 50)
  /-- SEXTH: core `c` issues its next instruction, a SEXTH -/
  | h32Sexth (c : Fin 50)
  /-- ADDI: core `c` issues its next instruction, an ADDI -/
  | h32Addi (c : Fin 50)
  /-- ANDI: core `c` issues its next instruction, an ANDI -/
  | h32Andi (c : Fin 50)
  /-- ORI: core `c` issues its next instruction, an ORI -/
  | h32Ori (c : Fin 50)
  /-- XORI: core `c` issues its next instruction, a XORI -/
  | h32Xori (c : Fin 50)
  /-- SLTI: core `c` issues its next instruction, a SLTI -/
  | h32Slti (c : Fin 50)
  /-- SLTIU: core `c` issues its next instruction, a SLTIU -/
  | h32Sltiu (c : Fin 50)
  /-- LUI: core `c` issues its next instruction, a LUI -/
  | h32Lui (c : Fin 50)
  /-- SLLI: core `c` issues its next instruction, a SLLI -/
  | h32Slli (c : Fin 50)
  /-- SRLI: core `c` issues its next instruction, a SRLI -/
  | h32Srli (c : Fin 50)
  /-- SRAI: core `c` issues its next instruction, a SRAI -/
  | h32Srai (c : Fin 50)
  /-- MUL: core `c` issues its next instruction, a MUL -/
  | h32Mul (c : Fin 50)
  /-- MULH: core `c` issues its next instruction, a MULH -/
  | h32Mulh (c : Fin 50)
  /-- MULHU: core `c` issues its next instruction, a MULHU -/
  | h32Mulhu (c : Fin 50)
  /-- DIV: core `c` issues its next instruction, a DIV -/
  | h32Div (c : Fin 50)
  /-- DIVU: core `c` issues its next instruction, a DIVU -/
  | h32Divu (c : Fin 50)
  /-- REM: core `c` issues its next instruction, a REM -/
  | h32Rem (c : Fin 50)
  /-- REMU: core `c` issues its next instruction, a REMU -/
  | h32Remu (c : Fin 50)
  /-- LW: core `c` issues its next instruction, a LW -/
  | h32Lw (c : Fin 50)
  /-- LH: core `c` issues its next instruction, a LH -/
  | h32Lh (c : Fin 50)
  /-- LHU: core `c` issues its next instruction, a LHU -/
  | h32Lhu (c : Fin 50)
  /-- LB: core `c` issues its next instruction, a LB -/
  | h32Lb (c : Fin 50)
  /-- LBU: core `c` issues its next instruction, a LBU -/
  | h32Lbu (c : Fin 50)
  /-- LWPI: core `c` issues its next instruction, a LWPI -/
  | h32Lwpi (c : Fin 50)
  /-- SW: core `c` issues its next instruction, a SW -/
  | h32Sw (c : Fin 50)
  /-- SH: core `c` issues its next instruction, a SH -/
  | h32Sh (c : Fin 50)
  /-- SB: core `c` issues its next instruction, a SB -/
  | h32Sb (c : Fin 50)
  /-- SWPI: core `c` issues its next instruction, a SWPI -/
  | h32Swpi (c : Fin 50)
  /-- FAR_LOAD_DATA: the data of core `c`'s far load arrive -/
  | farLoadData (c : Fin 50)
  /-- BEQ: core `c` issues its next instruction, a BEQ -/
  | h32Beq (c : Fin 50)
  /-- BNE: core `c` issues its next instruction, a BNE -/
  | h32Bne (c : Fin 50)
  /-- BLT: core `c` issues its next instruction, a BLT -/
  | h32Blt (c : Fin 50)
  /-- BGE: core `c` issues its next instruction, a BGE -/
  | h32Bge (c : Fin 50)
  /-- BLTU: core `c` issues its next instruction, a BLTU -/
  | h32Bltu (c : Fin 50)
  /-- BGEU: core `c` issues its next instruction, a BGEU -/
  | h32Bgeu (c : Fin 50)
  /-- JAL: core `c` issues its next instruction, a JAL -/
  | h32Jal (c : Fin 50)
  /-- JALR: core `c` issues its next instruction, a JALR -/
  | h32Jalr (c : Fin 50)
  /-- RPT: core `c` issues its next instruction, a RPT -/
  | h32Rpt (c : Fin 50)
  /-- RPTU: core `c` issues its next instruction, a RPTU -/
  | h32Rptu (c : Fin 50)
  /-- WFE: core `c` issues its next instruction, a WFE -/
  | h32Wfe (c : Fin 50)
  /-- WFET: core `c` issues its next instruction, a WFET -/
  | h32Wfet (c : Fin 50)
  /-- WAITT: core `c` issues its next instruction, a WAITT -/
  | h32Waitt (c : Fin 50)
  /-- WAIT_END: the wait of core `c` ends -/
  | waitEnd (c : Fin 50)
  /-- SEV: core `c` issues its next instruction, a SEV -/
  | h32Sev (c : Fin 50)
  /-- ERET: core `c` issues its next instruction, an ERET -/
  | h32Eret (c : Fin 50)
  /-- ECALL: core `c` issues its next instruction, an ECALL -/
  | h32Ecall (c : Fin 50)
  /-- EBREAK: core `c` issues its next instruction, an EBREAK -/
  | h32Ebreak (c : Fin 50)
  /-- CSRR: core `c` issues its next instruction, a CSRR -/
  | h32Csrr (c : Fin 50)
  /-- CSRW: core `c` issues its next instruction, a CSRW -/
  | h32Csrw (c : Fin 50)
  /-- CSRS: core `c` issues its next instruction, a CSRS -/
  | h32Csrs (c : Fin 50)
  /-- CSRC: core `c` issues its next instruction, a CSRC -/
  | h32Csrc (c : Fin 50)
  /-- EXCEPTION_ENTRY: core `c` takes the exception its next instruction raises; `ecc` is the address of an uncorrectable TCM error met there -/
  | exceptionEntry (c : Fin 50) (ecc : Option Word)
  /-- INTERRUPT_ENTRY: core `c` takes its lowest pending interrupt -/
  | interruptEntry (c : Fin 50)
  /-- STORE_ASYNC: the bus error of core `c`'s oldest failed far store returns -/
  | storeAsync (c : Fin 50)
  /-- CORE_WDT_KICK: core `c` issues its next instruction, a `CSRW` to `WDT_KICK` -/
  | coreWdtKick (c : Fin 50)
  /-- BANK_CTRL_WRITE: write of `BNK.BANK_CTRL[b]` -/
  | bankCtrlWrite (m : Master) (b : Fin 512) (v : Word)
  /-- DRAIN_COMPLETE: the drain of bank `b` is complete -/
  | drainComplete (b : Fin 512)
  /-- ZEROING_COMPLETE: 8,192 rows of bank `b` are zeroed -/
  | zeroingComplete (b : Fin 512)
  /-- BANK_POWER_REQUEST: write of `BANK_CTRL[b].PWR` -/
  | bankPowerRequest (m : Master) (b : Fin 512) (pwr : BitVec 2)
  /-- BANK_WAKE_COMPLETE: bank `b` is available after RETAIN -/
  | bankWakeComplete (b : Fin 512)
  /-- REPLACE: `BNK.CMD` REPLACE -/
  | replace (m : Master) (v : Word)
  /-- SCRUB_BANK: `BNK.CMD` SCRUB_BANK -/
  | scrubBank (m : Master) (v : Word)
  /-- SCRUB_ROW: the scrubber reads a row; what each half shows -/
  | scrubRow (b : Fin 512) (row : Fin 8192) (lo hi : EccKind)
  /-- ECC_WRITEBACK: the oldest corrected half is written back -/
  | eccWriteback
  /-- COLLIDE: both ports write the exchange row at `a` in one cycle -/
  | collide (a : Word) (mA : Master) (bytesA : List Byte) (mB : Master)
  /-- BANK_DENIAL: an access that the bank's kind or power does not permit -/
  | bankDenial (m : Master) (a : Word) (wnr : Bool)
  /-- BNK_DENY_COUNT_READ: read of `BNK.DENY_COUNT` -/
  | bnkDenyCountRead (m : Master)
  /-- PERST_ASSERT: the host interface is reset for `why`; `cut` holds, per ring, the number of descriptors read whose items are in flight -/
  | perstAssert (why : HostLoss) (cut : List (Fin 32 × Nat))
  /-- HOST_TX_DESCRIPTOR: the next enabled transmit ring in rotation is served: the descriptor and the buffer bytes as read from host memory -/
  | hostTxDescriptor (desc buf : List Byte) (f : HostFetch)
  /-- HOST_RX_FRAME: a frame at port 208 is written into receive descriptors, as read from host memory in ring order -/
  | hostRxFrame (descs : List (List Byte)) (f : HostFetch)
  /-- TAIL_WRITE: write of `TAIL` of ring `r`: 0-15 transmit, 16-31 receive -/
  | tailWrite (m : Master) (r : Fin 32) (v : Word)
  /-- RING_ENABLE: write of ring `CTRL` with `EN` set -/
  | ringEnable (m : Master) (r : Fin 32) (v : Word)
  /-- RING_STOP: write of ring `CTRL` with `EN` clear -/
  | ringStop (m : Master) (r : Fin 32) (v : Word)
  /-- MOD_US_EXPIRY: `MOD_US` have passed since the first record -/
  | modUsExpiry (r : Fin 32)
  /-- FIFO_DATA_READ: read of `FIFO_DATA[f]` -/
  | fifoDataRead (m : Master) (f : Fin 64)
  /-- FIFO_FLUSH: write of `FIFO_CFG[f]` with `FLUSH` set -/
  | fifoFlush (m : Master) (f : Fin 64) (v : Word)
  /-- AQ_POST: write of `AQ_POST[a]` -/
  | aqPost (m : Master) (a : Fin 16) (v : Word)
  /-- AQ_READ: read of `AQ_READ[a]` -/
  | aqRead (m : Master) (a : Fin 16)
  /-- AQ_FLUSH: write of `AQ_FLUSH[a]` -/
  | aqFlush (m : Master) (a : Fin 16) (v : Word)
  /-- LOCK_READ: read of `LOCK[k]` -/
  | lockRead (m : Master) (k : Fin 128)
  /-- LOCK_RELEASE: write of `LOCK[k]` -/
  | lockRelease (m : Master) (k : Fin 128) (v : Word)
  /-- FORCE_RELEASE: write of `FORCE_RELEASE` -/
  | forceRelease (m : Master) (v : Word)
  /-- MBX_LOCK_READ: read of the lock of mailbox `k` -/
  | mbxLockRead (m : Master) (k : Fin 64)
  /-- MBX_LOCK_RELEASE: write of the lock of mailbox `k` -/
  | mbxLockRelease (m : Master) (k : Fin 64) (v : Word)
  /-- SEND: write of `SEND` -/
  | mbxSend (m : Master) (k : Fin 64) (v : Word)
  /-- ACK: write of `ACK` -/
  | mbxAck (m : Master) (k : Fin 64) (v : Word)
  /-- MBX_RESET: write of `RESET` -/
  | mbxReset (m : Master) (k : Fin 64) (v : Word)
  /-- REF10M_LOSS: no 10 MHz edge for 1 us -/
  | ref10mLoss
  /-- REF10M_REGAIN: the 10 MHz input returns -/
  | ref10mRegain
  /-- REF_CTRL_WRITE: write of `TNS.REF_CTRL` -/
  | refCtrlWrite (m : Master) (v : Word)
  /-- RATE_WRITE: write of `TNS.RATE[b]` -/
  | rateWrite (m : Master) (b : Fin 4) (v : Word)
  /-- ADJ_SET: `ADJ_CMD[b]` SET -/
  | adjSet (m : Master) (b : Fin 4)
  /-- ADJ_STEP: `ADJ_CMD[b]` STEP -/
  | adjStep (m : Master) (b : Fin 4)
  /-- ADJ_SLEW: `ADJ_CMD[b]` SLEW -/
  | adjSlew (m : Master) (b : Fin 4) (ppm : BitVec 10)
  /-- ADJ_CANCEL: `ADJ_CMD[b]` CANCEL -/
  | adjCancel (m : Master) (b : Fin 4)
  /-- SLEW_COMPLETE: the slew of base `b` adds its last remainder -/
  | slewComplete (b : Fin 4)
  /-- HOLD_LIMIT_EXPIRY: the validity limit of base `b` expires -/
  | holdLimitExpiry (b : Fin 4)
  /-- TNS_SNAP: write of `TNS.SNAP` -/
  | tnsSnap (m : Master) (v : Word)
  /-- TB_NS_READ: read of `TNS.TB_NS[b]` -/
  | tbNsRead (m : Master) (b : Fin 4)
  /-- CAPTURE_EDGE: a filtered transition on capture input `i`, `ph` ns into the TIME cycle -/
  | captureEdge (i : Fin 10) (rising : Bool) (ph : BitVec 2)
  /-- CAP_NS_READ: read of `TNS.CAP_NS[i]` -/
  | capNsRead (m : Master) (i : Fin 10)
  /-- TSR_LOST_READ: read of `TNS.TSR_LOST` -/
  | tsrLostRead (m : Master)
  /-- OUTPUT_ARM: write of `TNS.OUT_CTRL[i]` with `EN` set -/
  | outputArm (m : Master) (i : Fin 8) (v : Word)
  /-- TIMED_OUTPUT_EVENT: the next event of output `i` falls -/
  | timedOutputEvent (i : Fin 8)
  /-- PULSE_END: the pulse of output `i` ends -/
  | pulseEnd (i : Fin 8)
  /-- PPS_OUTPUT_EVENT: the next event of PPS output `j` falls -/
  | ppsOutputEvent (j : Fin 2)
  /-- STATE_REQ_ACTIVE: write of `STATE_REQ` = ACTIVE -/
  | stateReqActive (m : Master)
  /-- STATE_REQ_DOZE: write of `STATE_REQ` = DOZE; the wake sources asserted in its cycle -/
  | stateReqDoze (m : Master) (now : BitVec 14)
  /-- STATE_REQ_RETAIN: write of `STATE_REQ` = RETAIN -/
  | stateReqRetain (m : Master) (now : BitVec 14)
  /-- STATE_REQ_VAULT: write of `STATE_REQ` = VAULT -/
  | stateReqVault (m : Master) (now : BitVec 14)
  /-- QUIESCENCE_COMPLETE: quiescence completes and entry runs; the wake sources that fire in its cycle or during it -/
  | quiescenceComplete (now : BitVec 14)
  /-- QUIESCE_TIMEOUT: `QUIESCE_US` elapse -/
  | quiesceTimeout
  /-- WAKE_SOURCE: wake sources assert -/
  | wakeSource (src : BitVec 14)
  /-- WAKE_COMPLETE: the wake completes; `e` holds the facts of a start-up from VAULT -/
  | wakeComplete (e : BootEnv)
  /-- PAD_RELEASE: write of `PAD_RELEASE` -/
  | padRelease (m : Master) (v : Word)
  /-- PORTGRP_REQ_WRITE: write of `PORTGRP_REQ` -/
  | portgrpReqWrite (m : Master) (v : Word)
  /-- BUDGET_TICK: a whole millisecond: the power estimate and what the scheduler predicts of its actions -/
  | budgetTick (est : BitVec 16) (p : Forecast)
  /-- CLUSTER_STEP_WRITE: write of `CLUSTER_STEP[c]` -/
  | clusterStepWrite (m : Master) (c : Fin 16) (v : Word)
  /-- CLUSTER_STEP_APPLIED: the step change of cluster `c` completes -/
  | clusterStepApplied (c : Fin 16)
  /-- SENSOR_SAMPLE: the sensors are sampled, sensor 0 first, in 1/16 degree -/
  | sensorSample (t : List (BitVec 16))
  /-- RTC_ALARM: the RTC seconds reach the alarm -/
  | rtcAlarm
  /-- RTC_SEC_WRITE: write of `RTC_SEC_LO` -/
  | rtcSecWrite (m : Master) (v : Word)
  /-- MGT_ADDRESS_MATCH: a start and an address on the management interface -/
  | mgtAddressMatch (addr : BitVec 7) (rd : Bool)
  /-- MGT_BYTE: a byte of the transaction; whether a stop follows it -/
  | mgtByte (b : Byte) (stop : Bool)
  /-- RX_DATA_READ: read of `MGT.RX_DATA` -/
  | rxDataRead (m : Master)
  /-- TX_DATA_WRITE: write of `MGT.TX_DATA` -/
  | txDataWrite (m : Master) (v : Word)
  /-- TELEMETRY_SNAPSHOT: a whole second: the snapshot -/
  | telemetrySnapshot
  /-- ATB_SELECT: write of `ATB.SEL0` or `SEL1` -/
  | atbSelect (m : Master) (b : Fin 2) (v : Word)
  /-- ATB_CONNECT: 1 us after a change of select -/
  | atbConnect (b : Fin 2)
  /-- ATB_ENABLEMENT_CHANGE: enablement begins or ends with the policy or the debug scope -/
  | atbEnablementChange
  /-- REFUSED_READ: read of `ATB.REFUSED` -/
  | refusedRead (m : Master)
  /-- TAP_RESET: a TAP reset -/
  | tapReset
  /-- EXTEST: Update-IR with EXTEST -/
  | extest
  /-- IDCODE: Update-IR with IDCODE -/
  | idcode
  /-- SAMPLE_PRELOAD: Update-IR with SAMPLE/PRELOAD -/
  | samplePreload
  /-- EXTEST_PULSE: Update-IR with EXTEST_PULSE -/
  | extestPulse
  /-- EXTEST_TRAIN: Update-IR with EXTEST_TRAIN -/
  | extestTrain
  /-- CLAMP: Update-IR with CLAMP -/
  | clamp
  /-- HIGHZ: Update-IR with HIGHZ -/
  | highz
  /-- DBG_ACCESS: Update-IR with DBG_ACCESS -/
  | dbgAccess
  /-- PROD_TEST: Update-IR with PROD_TEST -/
  | prodTest
  /-- BYPASS: Update-IR with BYPASS or an unlisted code -/
  | bypass (code : BitVec 8)
  /-- PERST_RELEASE: `PERST_N` rises -/
  | perstRelease
  /-- PCIE_LINK_UP: the host link trains and comes up -/
  | pcieLinkUp (width : BitVec 3) (speed : BitVec 2)
  /-- PMIC_EN_DRIVEN_HIGH: the AON domain drives the PMIC outputs high after power-up -/
  | pmicEnDrivenHigh
  /-- RELEASE_RECORD_DURABLE: the RELEASE record of the item is durable -/
  | releaseRecordDurable (tag : Word)
  /-- PLL_LOCK_LOST: a PLL loses lock, numbered as in `CLK.PLL_STATUS` -/
  | pllLockLost (k : Fin 5)
  /-- SENSOR_CALIBRATION: the calibration; the sensors whose calibration fails -/
  | sensorCalibration (bad : BitVec 24)
  /-- STRETCH_MAX_EXPIRY: SCL has been stretched for its limit -/
  | stretchMaxExpiry
  deriving DecidableEq, Repr

end Sys2Proof
end

