-- ==== Sys2Proof/Decode.lean ====
section
/-! DEFINITION. The word decoder that the command table asks for. No row of the table gives its command any bits: the
commands reach the block as bus accesses, frames and events, so no word spells one. -/

namespace Sys2Proof

/-- The command that a word of `nbits` bits spells by the table's bits: no row gives bits.
Log entry 149 (DESIGN CHOICE). -/
def decodeTableWord (_nbits _w : Nat) : Option Instr := none

end Sys2Proof
end

