-- ==== Sys2Proof/Machine/Bits.lean ====
section
/-! DEFINITION. Bit fields, byte order and check codes: the helpers by which register words, wire
fields and records are taken apart and put together. -/

namespace Sys2Proof.Machine

/-- Bits `[hi:lo]` of a number. -/
def nbits (w hi lo : Nat) : Nat := (w >>> lo) % 2 ^ (hi + 1 - lo)

/-- Field `[hi:lo]` of a register word, as a number. -/
def fld (w : Word) (hi lo : Nat) : Nat := nbits w.toNat hi lo

/-- Bit `i` of a register word. -/
def bit (w : Word) (i : Nat) : Bool := w.toNat.testBit i

/-- The word with field `[hi:lo]` set to `v` (taken modulo the field's width). -/
def setFld (w : Word) (hi lo v : Nat) : Word :=
  let m := (2 ^ (hi + 1 - lo) - 1) <<< lo
  (w &&& ~~~ BitVec.ofNat 32 m) ||| BitVec.ofNat 32 ((v % 2 ^ (hi + 1 - lo)) <<< lo)

/-- The word with bit `i` set to `b`. -/
def setBit (w : Word) (i : Nat) (b : Bool) : Word := setFld w i i (if b then 1 else 0)

/-- A number as a register word. -/
def w32 (n : Nat) : Word := BitVec.ofNat 32 n

/-- A number as a byte. -/
def b8 (n : Nat) : Byte := BitVec.ofNat 8 n

/-- A Boolean as a one-bit number. -/
def nb (b : Bool) : Nat := if b then 1 else 0

/-- Bits 31..0 of a 64-bit value. -/
def lo32 (d : DWord) : Word := d.setWidth 32

/-- Bits 63..32 of a 64-bit value. -/
def hi32 (d : DWord) : Word := (d >>> 32).setWidth 32

/-- A 64-bit value from its high and low words. -/
def dword (hi lo : Word) : DWord := hi ++ lo

/-- The bytes of the number `n`, least significant first, `k` of them (R5). -/
def leBytes (k n : Nat) : List Byte :=
  match k with
  | 0 => []
  | k + 1 => b8 n :: leBytes k (n / 256)

/-- The bytes of the number `n`, most significant first, `k` of them (wire order). -/
def beBytes (k n : Nat) : List Byte := (leBytes k n).reverse

/-- The number a little-endian byte list holds. -/
def leNat (l : List Byte) : Nat :=
  match l with
  | [] => 0
  | b :: r => b.toNat + 256 * leNat r

/-- The number a big-endian byte list holds. -/
def beNat (l : List Byte) : Nat := l.foldl (fun a b => a * 256 + b.toNat) 0

/-- `n` bytes from position `o` of a list; positions beyond its end read as 0. -/
def slice (l : List Byte) (o n : Nat) : List Byte :=
  let t := (l.drop o).take n
  t ++ List.replicate (n - t.length) 0

/-- The big-endian number in `n` bytes at position `o`. -/
def beAt (l : List Byte) (o n : Nat) : Nat := beNat (slice l o n)

/-- The little-endian number in `n` bytes at position `o`. -/
def leAt (l : List Byte) (o n : Nat) : Nat := leNat (slice l o n)

/-- The list with the bytes `v` written over it from position `o`. -/
def overlay (l : List Byte) (o : Nat) (v : List Byte) : List Byte :=
  l.take o ++ v ++ l.drop (o + v.length)

/-- A list padded with zero bytes to `n` bytes. -/
def padTo (l : List Byte) (n : Nat) : List Byte := l ++ List.replicate (n - l.length) 0

/-- Rounds `n` up to a multiple of `m`. -/
def roundUp (n m : Nat) : Nat := (n + m - 1) / m * m

/-- Reverses the low `w` bits of a number. -/
def revBits (w n : Nat) : Nat :=
  match w with
  | 0 => 0
  | w + 1 => (n % 2) * 2 ^ w + revBits w (n / 2)

/-- `k` steps of a reflected CRC register of any width with the reflected polynomial `poly`. -/
def crcStep (poly : Nat) (k c : Nat) : Nat :=
  match k with
  | 0 => c
  | k + 1 => crcStep poly k (if c % 2 = 1 then Nat.xor (c / 2) poly else c / 2)

/-- The CRC-32C (Castagnoli) register after a list of bytes. -/
def crc32cReg (c : Nat) (l : List Byte) : Nat :=
  l.foldl (fun a b => crcStep 0x82F63B78 8 (Nat.xor a b.toNat)) c

/-- CRC-32C of a list of bytes (R20): initial value and final inversion all ones. -/
def crc32c (l : List Byte) : Word := w32 (Nat.xor (crc32cReg 0xFFFFFFFF l) 0xFFFFFFFF)

/-- `k` steps of a most-significant-bit-first CRC register of width `w`. -/
def crcMsbStep (w poly : Nat) (k c : Nat) : Nat :=
  match k with
  | 0 => c
  | k + 1 =>
    let c2 := (c * 2) % 2 ^ w
    crcMsbStep w poly k (if c.testBit (w - 1) then Nat.xor c2 poly else c2)

/-- A most-significant-bit-first CRC of width `w ≥ 8` over a list of bytes. -/
def crcMsb (w poly init : Nat) (l : List Byte) : Nat :=
  l.foldl (fun a b => crcMsbStep w poly 8 (Nat.xor a (b.toNat <<< (w - 8)))) init

/-- The number of leading zero bits of a word. -/
def clz32 (w : Word) : Nat := if w.toNat = 0 then 32 else 31 - Nat.log2 w.toNat

end Sys2Proof.Machine
end

