-- ==== Sys2Proof/Machine/SMap.lean ====
section
/-! DEFINITION. Sparse maps: lists of key and value pairs with strictly rising keys.
Registers, counters, per-unit records and memory are held this way, so that a state is plain data. -/

namespace Sys2Proof.Machine

/-- A sparse map: pairs with strictly rising keys (`ssorted`). -/
abbrev SMap (α : Type) := List (Nat × α)

/-- The value at key `k`, if the map lists one. -/
def sfind {α : Type} (m : SMap α) (k : Nat) : Option α :=
  match m with
  | [] => none
  | (k', v) :: r => if k' = k then some v else sfind r k

/-- The value at key `k`, or `d` where the map lists none. -/
def sget {α : Type} (m : SMap α) (k : Nat) (d : α) : α :=
  (sfind m k).getD d

/-- Writes value `v` at key `k`, keeping the keys rising. -/
def sset {α : Type} (m : SMap α) (k : Nat) (v : α) : SMap α :=
  match m with
  | [] => [(k, v)]
  | (k', v') :: r =>
    if k < k' then (k, v) :: (k', v') :: r
    else if k = k' then (k, v) :: r
    else (k', v') :: sset r k v

/-- Removes key `k`. -/
def sdel {α : Type} (m : SMap α) (k : Nat) : SMap α :=
  match m with
  | [] => []
  | (k', v') :: r => if k = k' then r else (k', v') :: sdel r k

/-- Writes `v` at `k` in a map whose unlisted keys read as `d`: writing `d` removes the entry. -/
def ssetD {α : Type} [DecidableEq α] (d : α) (m : SMap α) (k : Nat) (v : α) : SMap α :=
  if v = d then sdel m k else sset m k v

/-- Changes the value at `k` by `f`, taking `d` for an unlisted key. -/
def smod {α : Type} (m : SMap α) (k : Nat) (d : α) (f : α → α) : SMap α :=
  sset m k (f (sget m k d))

/-- Removes every key `k` with `lo ≤ k < hi` for which `p k` holds. -/
def sclear {α : Type} (m : SMap α) (lo hi : Nat) (p : Nat → Bool) : SMap α :=
  m.filter fun e => !(decide (lo ≤ e.1) && decide (e.1 < hi) && p e.1)

/-- Keys strictly rising: the one canonical form of a sparse map. -/
def ssorted {α : Type} (m : SMap α) : Bool :=
  match m with
  | [] => true
  | [_] => true
  | (k, _) :: (k', v') :: r => decide (k < k') && ssorted ((k', v') :: r)

/-- Sorted insertion of a number in a rising list without repeats. -/
def ninsert (l : List Nat) (n : Nat) : List Nat :=
  match l with
  | [] => [n]
  | x :: r => if n < x then n :: x :: r else if n = x then x :: r else x :: ninsert r n

/-- The element at position `n` of a list, or `d` beyond its end. -/
def lget {α : Type} (l : List α) (n : Nat) (d : α) : α := (l[n]?).getD d

/-- Changes the element at position `n` of a list. -/
def lmod {α : Type} (l : List α) (n : Nat) (f : α → α) : List α :=
  match l, n with
  | [], _ => []
  | x :: r, 0 => f x :: r
  | x :: r, n + 1 => x :: lmod r n f

end Sys2Proof.Machine
end

