-- ==== Sys2Proof/Machine/Digest.lean ====
section
/-! DEFINITION. SHA-256 and SHA-512 (FIPS 180-4) and HMAC-SHA-256 (FIPS 198-1), which the Gate and the image checks use
by name (R79, R149, R178). -/

namespace Sys2Proof.Machine

/-- A member of the SHA-2 family: its word, its rounds, and the distances of its four mixing functions; in `small0` and
`small1` the last distance is a shift. -/
structure Sha2 where
  bits : Nat
  rounds : Nat
  big0 : Nat × Nat × Nat
  big1 : Nat × Nat × Nat
  small0 : Nat × Nat × Nat
  small1 : Nat × Nat × Nat
  deriving DecidableEq, Repr

/-- SHA-256. -/
def Sha2.of256 : Sha2 :=
  { bits := 32, rounds := 64, big0 := (2, 13, 22), big1 := (6, 11, 25), small0 := (7, 18, 3), small1 := (17, 19, 10) }

/-- SHA-512. -/
def Sha2.of512 : Sha2 :=
  { bits := 64, rounds := 80, big0 := (28, 34, 39), big1 := (14, 18, 41), small0 := (1, 8, 7), small1 := (19, 61, 6) }

/-- The fractional parts of the cube roots of the first 80 primes, 64 bits of each, in eights. -/
def Sha2.cubeRoots : List Nat :=
  [0x428a2f98d728ae227137449123ef65cdb5c0fbcfec4d3b2fe9b5dba58189dbbc3956c25bf348b53859f111f1b605d019923f82a4af194f9bab1c5ed5da6d8118,
   0xd807aa98a303024212835b0145706fbe243185be4ee4b28c550c7dc3d5ffb4e272be5d74f27b896f80deb1fe3b1696b19bdc06a725c71235c19bf174cf692694,
   0xe49b69c19ef14ad2efbe4786384f25e30fc19dc68b8cd5b5240ca1cc77ac9c652de92c6f592b02754a7484aa6ea6e4835cb0a9dcbd41fbd476f988da831153b5,
   0x983e5152ee66dfaba831c66d2db43210b00327c898fb213fbf597fc7beef0ee4c6e00bf33da88fc2d5a79147930aa72506ca6351e003826f142929670a0e6e70,
   0x27b70a8546d22ffc2e1b21385c26c9264d2c6dfc5ac42aed53380d139d95b3df650a73548baf63de766a0abb3c77b2a881c2c92e47edaee692722c851482353b,
   0xa2bfe8a14cf10364a81a664bbc423001c24b8b70d0f89791c76c51a30654be30d192e819d6ef5218d69906245565a910f40e35855771202a106aa07032bbd1b8,
   0x19a4c116b8d2d0c81e376c085141ab532748774cdf8eeb9934b0bcb5e19b48a8391c0cb3c5c95a634ed8aa4ae3418acb5b9cca4f7763e373682e6ff3d6b2b8a3,
   0x748f82ee5defb2fc78a5636f43172f6084c87814a1f0ab728cc702081a6439ec90befffa23631e28a4506cebde82bde9bef9a3f7b2c67915c67178f2e372532b,
   0xca273eceea26619cd186b8c721c0c207eada7dd6cde0eb1ef57d4f7fee6ed17806f067aa72176fba0a637dc5a2c898a6113f9804bef90dae1b710b35131c471b,
   0x28db77f523047d8432caab7b40c724933c9ebe0a15c9bebc431d67c49c100d4c4cc5d4becb3e42b6597f299cfc657e2a5fcb6fab3ad6faec6c44198c4a475817]

/-- The fractional parts of the square roots of the first eight primes, 64 bits of each. -/
def Sha2.squareRoots : Nat :=
  0x6a09e667f3bcc908bb67ae8584caa73b3c6ef372fe94f82ba54ff53a5f1d36f1510e527fade682d19b05688c2b3e6c1f1f83d9abfb41bd6b5be0cd19137e2179

/-- The first bits of a 64-bit fraction that fill a word. -/
def Sha2.frac (p : Sha2) (x : Nat) : Nat := x % 2 ^ 64 / 2 ^ (64 - p.bits)

/-- The constant of round `t`. -/
def Sha2.roundK (p : Sha2) (t : Nat) : Nat :=
  p.frac (((Sha2.cubeRoots[t / 8]?).getD 0) / 2 ^ (64 * (7 - t % 8)))

/-- The hash value before the first block. -/
def Sha2.start (p : Sha2) : List Nat := (List.range 8).map fun i => p.frac (Sha2.squareRoots / 2 ^ (64 * (7 - i)))

/-- A sum in a word. -/
def Sha2.add (p : Sha2) (x y : Nat) : Nat := (x + y) % 2 ^ p.bits

/-- A word rotated right. -/
def Sha2.rot (p : Sha2) (x n : Nat) : Nat := (x / 2 ^ n + x * 2 ^ (p.bits - n)) % 2 ^ p.bits

/-- Three rotations of a word, added without carry. -/
def Sha2.big (p : Sha2) (d : Nat × Nat × Nat) (x : Nat) : Nat :=
  Nat.xor (p.rot x d.1) (Nat.xor (p.rot x d.2.1) (p.rot x d.2.2))

/-- Two rotations and a shift of a word, added without carry. -/
def Sha2.small (p : Sha2) (d : Nat × Nat × Nat) (x : Nat) : Nat :=
  Nat.xor (p.rot x d.1) (Nat.xor (p.rot x d.2.1) (x / 2 ^ d.2.2))

/-- Round `t`: the eight working words, and the sixteen words of the schedule that begin with this round's, move on. -/
def Sha2.round (p : Sha2) (x : List Nat × List Nat) (t : Nat) : List Nat × List Nat :=
  match x with
  | ([a, b, c, d, e, f, g, h], w) =>
    let choice := Nat.xor g (Nat.land e (Nat.xor f g))
    let most := Nat.lor (Nat.land a b) (Nat.land c (Nat.lor a b))
    let u := (h + p.big p.big1 e + choice + p.roundK t + lget w 0 0) % 2 ^ p.bits
    ([p.add u (p.big p.big0 a + most), a, b, c, p.add d u, e, f, g],
      w.drop 1 ++ [p.add (p.small p.small1 (lget w 14 0) + lget w 9 0) (p.small p.small0 (lget w 1 0) + lget w 0 0)])
  | _ => x

/-- One block. -/
def Sha2.block (p : Sha2) (v : List Nat) (b : List Byte) : List Nat :=
  let w := (List.range 16).map fun i => beAt b (i * (p.bits / 8)) (p.bits / 8)
  List.zipWith p.add v ((List.range p.rounds).foldl p.round (v, w)).1

/-- The blocks of a padded message. -/
def Sha2.blocks (p : Sha2) (m : List Byte) : List Nat :=
  (List.range (m.length / (2 * p.bits))).foldl (fun v i => p.block v (slice m (2 * p.bits * i) (2 * p.bits))) p.start

/-- A message with its padding: a 1 bit, zeros, and its length in bits. -/
def Sha2.pad (p : Sha2) (m : List Byte) : List Byte :=
  let n := 2 * p.bits
  let used := (m.length + 1 + p.bits / 4) % n
  m ++ [0x80] ++ List.replicate ((n - used) % n) 0 ++ beBytes (p.bits / 4) (m.length * 8)

/-- The hash of a message. -/
def Sha2.hash (p : Sha2) (m : List Byte) : List Byte :=
  let v := p.blocks (p.pad m)
  (List.range 8).flatMap fun i => beBytes (p.bits / 8) (lget v i 0)

/-- SHA-256 of a message: 32 bytes. Log entry 148 (DESIGN CHOICE). -/
def sha256 (m : List Byte) : List Byte := Sha2.of256.hash m

/-- SHA-512 of a message: 64 bytes. -/
def sha512 (m : List Byte) : List Byte := Sha2.of512.hash m

/-- HMAC-SHA-256. Log entry 148 (DESIGN CHOICE). -/
def hmac256 (key m : List Byte) : List Byte :=
  let k := padTo (if 64 < key.length then sha256 key else key) 64
  sha256 (k.map (fun x => x ^^^ 0x5C) ++ sha256 (k.map (fun x => x ^^^ 0x36) ++ m))

end Sys2Proof.Machine
end

