-- ==== Sys2Proof/Machine/Curves.lean ====
section
/-! DEFINITION. The public-key signatures that the Gate's units compute: Ed25519 (RFC 8032) and ECDSA P-256 (FIPS 186-5), and
the test of their keys (R149, R152). -/

namespace Sys2Proof.Machine

/-- `b` to the power `e`, whose `n` low bits count, modulo `m`. -/
def powMod (m b e n : Nat) : Nat :=
  match n with
  | 0 => 1
  | n + 1 =>
    let h := powMod m b (e / 2) n
    if e % 2 = 1 then h * h % m * b % m else h * h % m

/-- The inverse modulo an odd prime below 2^256. -/
def invMod (m x : Nat) : Nat := powMod m x (m - 2) 256

/-! Ed25519. -/

/-- The field's prime. -/
def edP : Nat := 2 ^ 255 - 19

/-- The order of the base point. -/
def edL : Nat := 2 ^ 252 + 27742317777372353535851937790883648493

/-- The curve's constant *d*. -/
def edD : Nat := 0x52036cee2b6ffe738cc740797779e89800700a4d4141d8ab75eb4dca135978a3

/-- A square root of -1. -/
def edRoot : Nat := 0x2b8324804fc1df0b2b4d00993dfbd7a72f431806ad2fe478c4ee1b274a0ea0b0

/-- A point as *X*, *Y*, *Z* with x = *X* / *Z* and y = *Y* / *Z*. -/
structure EdPoint where
  X : Nat
  Y : Nat
  Z : Nat
  deriving DecidableEq, Repr

/-- The neutral point. -/
def EdPoint.zero : EdPoint := { X := 0, Y := 1, Z := 1 }

/-- The base point. -/
def EdPoint.base : EdPoint :=
  { X := 0x216936d3cd6e53fec0a4e231fdd6dc5c692cc7609525a7b2c9562d608f25d51a
    Y := 0x6666666666666666666666666666666666666666666666666666666666666658, Z := 1 }

/-- The sum of two points, by the curve's one addition law. -/
def EdPoint.add (p q : EdPoint) : EdPoint :=
  let z := p.Z * q.Z % edP
  let xx := p.X * q.X % edP
  let yy := p.Y * q.Y % edP
  let zz := z * z % edP
  let k := edD * (xx * yy % edP) % edP
  let cross := (p.X * q.Y + p.Y * q.X) % edP
  { X := z * (zz + (edP - k)) % edP * cross % edP
    Y := z * (zz + k) % edP * (yy + xx) % edP
    Z := (zz + (edP - k)) % edP * (zz + k) % edP }

/-- The point with x negated. -/
def EdPoint.neg (p : EdPoint) : EdPoint := { p with X := (edP - p.X) % edP }

/-- A multiple of a point by the `n` low bits of `e`. -/
def EdPoint.mul (p : EdPoint) (e n : Nat) : EdPoint :=
  match n with
  | 0 => EdPoint.zero
  | n + 1 =>
    let h := p.mul (e / 2) n
    let d := h.add h
    if e % 2 = 1 then d.add p else d

/-- The point that 32 bytes encode, where they encode one canonically (RFC 8032 section 5.1.3). -/
def edDecode (b : List Byte) : Option EdPoint :=
  let n := leNat b
  let y := n % 2 ^ 255
  let odd := n / 2 ^ 255 % 2
  let u := (y * y + edP - 1) % edP
  let v := (edD * (y * y % edP) + 1) % edP
  let v3 := v * v % edP * v % edP
  let t := u * v3 % edP * powMod edP (u * v3 % edP * v3 % edP * v % edP) ((edP - 5) / 8) 253 % edP
  let x := if v * (t * t % edP) % edP = u then t else t * edRoot % edP
  if b.length ≠ 32 ∨ edP ≤ y ∨ v * (x * x % edP) % edP ≠ u ∨ (x = 0 ∧ odd = 1) then none
  else some { X := if x % 2 = odd then x else edP - x, Y := y, Z := 1 }

/-- Whether a signature *R* ‖ *S* of a message verifies under a key: [8][S]B = [8]R + [8][k]A (R149). -/
def edVerify (key m sig : List Byte) : Bool :=
  let r := sig.take 32
  let n := leNat (sig.drop 32)
  match edDecode key, edDecode r with
  | some a, some p =>
    let k := leNat (sha512 (r ++ key ++ m)) % edL
    let d := ((EdPoint.base.mul n 256).add (p.add (a.mul k 256)).neg).mul 8 4
    decide (sig.length = 64) && decide (n < edL) && decide (d.X = 0) && decide (d.Y = d.Z)
  | _, _ => false

/-! ECDSA P-256. -/

/-- The field's prime. -/
def ecP : Nat := 2 ^ 256 - 2 ^ 224 + 2 ^ 192 + 2 ^ 96 - 1

/-- The order of the base point. -/
def ecN : Nat := 0xffffffff00000000ffffffffffffffffbce6faada7179e84f3b9cac2fc632551

/-- The curve's constant *b*. -/
def ecB : Nat := 0x5ac635d8aa3a93e7b3ebbd55769886bc651d06b0cc53b0f63bce3c3e27d2604b

/-- The base point. -/
def ecBase : Option (Nat × Nat) :=
  some (0x6b17d1f2e12c4247f8bce6e563a440f277037d812deb33a0f4a13945d898c296,
    0x4fe342e2fe1a7f9b8ee7eb4a7c0f9e162bce33576b315ececbb6406837bf51f5)

/-- The sum of two points; `none` is the point at infinity. -/
def ecAdd (p q : Option (Nat × Nat)) : Option (Nat × Nat) :=
  match p, q with
  | none, _ => q
  | _, none => p
  | some (x, y), some (u, v) =>
    if x = u ∧ (y + v) % ecP = 0 then none
    else
      let k := if x = u then 3 * (x * x + ecP - 1) % ecP * invMod ecP (2 * y % ecP) % ecP
        else (v + ecP - y) % ecP * invMod ecP ((u + ecP - x) % ecP) % ecP
      let w := (k * k + (ecP - x) + (ecP - u)) % ecP
      some (w, (k * (x + ecP - w) + (ecP - y)) % ecP)

/-- A multiple of a point by the `n` low bits of `e`. -/
def ecMul (p : Option (Nat × Nat)) (e n : Nat) : Option (Nat × Nat) :=
  match n with
  | 0 => none
  | n + 1 =>
    let h := ecMul p (e / 2) n
    let d := ecAdd h h
    if e % 2 = 1 then ecAdd d p else d

/-- The point of the curve that a key *X* ‖ *Y* names, if it names one (R152). -/
def ecDecode (key : List Byte) : Option (Nat × Nat) :=
  let x := beAt key 0 32
  let y := beAt key 32 32
  if key.length = 64 ∧ x < ecP ∧ y < ecP ∧ y * y % ecP = (x * x % ecP * x + (ecP - 3) * x + ecB) % ecP then some (x, y) else none

/-- Whether a signature *r* ‖ *s* of a message verifies under a key, with SHA-256 (R149). -/
def ecVerify (key m sig : List Byte) : Bool :=
  let r := beAt sig 0 32
  let t := beAt sig 32 32
  match ecDecode key with
  | some q =>
    let w := invMod ecN t
    let x := ecAdd (ecMul ecBase (beNat (sha256 m) * w % ecN) 256) (ecMul (some q) (r * w % ecN) 256)
    decide (sig.length = 64) && decide (1 ≤ r) && decide (r < ecN) && decide (1 ≤ t) && decide (t < ecN) &&
      match x with
      | some z => decide (z.1 % ecN = r)
      | none => false
  | none => false

/-! The algorithms of R149. -/

/-- Whether a key of an algorithm decodes to a point of its curve, where the algorithm asks for one (R152). -/
def keyDecodes (alg : Nat) (key : List Byte) : Bool :=
  match alg with
  | 2 => (edDecode key).isSome
  | 3 => (ecDecode key).isSome
  | _ => true

/-- Whether a signature of an algorithm verifies (R149); `lattice` is the verdict of an ML-DSA verification.
Log entry 148 (DESIGN CHOICE). -/
def sigVerify (alg : Nat) (key m sig : List Byte) (lattice : Bool) : Bool :=
  match alg with
  | 1 => decide (hmac256 key m = sig)
  | 2 => edVerify key m sig
  | 3 => ecVerify key m sig
  | _ => lattice

end Sys2Proof.Machine
end

