-- ==== Sys2Proof/Machine/Operands.lean ====
section
/-! DEFINITION. The record forms that several families share: the multidrop frame record (R315, R316, R318)
and the Particle output packet (R342). -/

namespace Sys2Proof.Machine

/-- Data length that `DLC` gives (ISO 11898-1): FD frames carry up to 64 bytes. -/
def dlcLen (fdf : Bool) (dlc : Nat) : Nat :=
  if dlc ≤ 8 then dlc
  else if fdf then (if dlc ≤ 12 then 4 * dlc - 24 else if dlc = 13 then 32 else if dlc = 14 then 48 else 64)
  else 8

/-- `IDE` of a frame record. -/
def mdbIde (r : List Byte) : Bool := (beAt r 0 1).testBit 7
/-- `RTR` of a frame record. -/
def mdbRtr (r : List Byte) : Bool := (beAt r 0 1).testBit 6
/-- `ID` of a frame record. -/
def mdbId (r : List Byte) : Nat := beAt r 0 4 % 0x20000000
/-- `FDF` of a frame record. -/
def mdbFdf (r : List Byte) : Bool := (beAt r 4 1).testBit 7
/-- `BRS` of a frame record. -/
def mdbBrs (r : List Byte) : Bool := (beAt r 4 1).testBit 6

/-- Data bytes *L* of a frame record; remote frames carry none (R315). -/
def mdbLen (r : List Byte) : Nat := if mdbRtr r then 0 else dlcLen (mdbFdf r) (beAt r 4 1 % 16)

/-- Whether a record is well formed for a controller whose `CFG.FD_EN` is `fdEn` (R315, R316). -/
def mdbWellFormed (fdEn : Bool) (r : List Byte) : Bool :=
  decide (8 ≤ r.length) && decide (r.length = 8 + mdbLen r) && !((beAt r 0 1).testBit 5) &&
  decide (beAt r 4 1 / 16 % 4 = 0) && decide (beAt r 5 3 = 0) && (fdEn || !(mdbFdf r)) &&
  !(mdbRtr r && mdbFdf r) && (mdbFdf r || !(mdbBrs r)) && (mdbIde r || decide (mdbId r % 0x40000 = 0))

/-- The arbitration key of R318. -/
def mdbKey (r : List Byte) : Nat :=
  let id := mdbId r
  if mdbIde r then
    (id / 0x40000) * 0x200000 + 0x100000 + 0x80000 + (id % 0x40000) * 2 + nb (mdbRtr r && !(mdbFdf r))
  else (id / 0x40000) * 0x200000 + (if mdbFdf r then 0 else nb (mdbRtr r)) * 0x100000

/-! The Particle output packet (R342). -/

/-- `TIMED` of an output packet. -/
def pktTimed (p : List Byte) : Bool := (beAt p 1 1).testBit 0
/-- `TB` of an output packet. -/
def pktTb (p : List Byte) : Bool := (beAt p 1 1).testBit 1
/-- `DATA_LENGTH` of an output packet. -/
def pktLen (p : List Byte) : Nat := beAt p 2 2

/-- Whether an output packet is well formed (R342). -/
def pktWellFormed (p : List Byte) : Bool :=
  decide (16 ≤ p.length) && decide (beAt p 0 1 = 1) && decide (beAt p 1 1 / 4 = 0) && decide (1 ≤ pktLen p) &&
  decide (pktLen p ≤ 224) && decide (beAt p 4 4 = 0) && (pktTimed p || !(pktTb p)) &&
  decide (p.length = 16 + pktLen p) && (pktTimed p || decide (beAt p 8 8 = 0))

/-- The output FIFO words of data bytes: byte `j` of a word in bits `[8j+7:8j]`, the last word padded with zeros (R343). -/
def pktWords (d : List Byte) (fuel : Nat) : List Word :=
  match fuel, d with
  | 0, _ => []
  | _, [] => []
  | fuel + 1, d => w32 (leAt d 0 4) :: pktWords (d.drop 4) fuel

end Sys2Proof.Machine
end

