-- ==== Sys2Proof/Config.lean ====
section
/-! DEFINITION. What the spec leaves to the implementation: the free values. -/

namespace Sys2Proof.Machine

/-- The free values: whatever the spec leaves open is the next of these. Nothing is known of them.
Log entry 9 (DESIGN CHOICE). -/
opaque Config.freeValue : Nat → BitVec 64

/-- The position of the core clock's edge within a TIME cycle, in nanoseconds (R31, R481): left open, it may differ from
cycle to cycle. Log entry 10 (DESIGN CHOICE). -/
opaque Config.corePhase : BitVec 64 → BitVec 2

/-- How far the first edge of a core clock at or after a time lies behind it (R31, R404, R481), a number of half nanoseconds that
its reader takes modulo the clock's period: left open. Log entry 10 (DESIGN CHOICE). -/
opaque Config.coreLag : BitVec 64 → BitVec 8

/-- The place of the 80 MHz protocol clock's edge (R321) in its 12.5 ns, in half nanoseconds of the Tense counter, modulo 25:
left open. Log entry 168 (DESIGN CHOICE). -/
opaque Config.mdbPhase : BitVec 5

/-- The length of the full health record with these contents (R550): left open. Log entry 113 (DESIGN CHOICE). -/
opaque Config.healthLen : List Nat → BitVec 32

/-- The bytes of the full health record with these contents (R550): its layout is left open.
Log entry 113 (DESIGN CHOICE). -/
opaque Config.healthByte : List Nat → Nat → BitVec 8

/-- The maker's JEP106 identity in IDCODE (R554), which the BSDL file states. Log entry 170 (DESIGN CHOICE). -/
opaque Config.jep106 : BitVec 11

end Sys2Proof.Machine
end

