-- ==== Sys2Proof/Machine/RegMap.lean ====
section
/-! DEFINITION. The register map: page bases (R44), the common header (R46) and one name per register of
the register tables, each an address of the system address map (R37). -/

namespace Sys2Proof.Machine.Reg

/-- Base of the SYS page (R44). -/
abbrev SYS : Nat := 0x10000000
/-- Base of the CLK page (R44). -/
abbrev CLK : Nat := 0x10001000
/-- Base of the PWR page (R44). -/
abbrev PWR : Nat := 0x10002000
/-- Base of the TMP page (R44). -/
abbrev TMP : Nat := 0x10003000
/-- Base of the INT page (R44). -/
abbrev INT : Nat := 0x10004000
/-- Base of the SEC page (R44). -/
abbrev SEC : Nat := 0x10008000
/-- Base of the VLT page (R44). -/
abbrev VLT : Nat := 0x10009000
/-- Base of the HIF page (R44). -/
abbrev HIF : Nat := 0x1000A000
/-- Base of the MGT page (R44). -/
abbrev MGT : Nat := 0x1000B000
/-- Base of the ATB page (R44). -/
abbrev ATB : Nat := 0x1000C000
/-- Base of the PLC page (R44). -/
abbrev PLC : Nat := 0x1000D000
/-- Base of the MBX page (R44). -/
abbrev MBX : Nat := 0x10010000
/-- Base of the LCK page (R44). -/
abbrev LCK : Nat := 0x10014000
/-- Base of the FIQ page (R44). -/
abbrev FIQ : Nat := 0x10018000
/-- Base of the BNK page (R44). -/
abbrev BNK : Nat := 0x10020000
/-- Base of the SWC page (R44). -/
abbrev SWC : Nat := 0x10040000
/-- Base of the FDB page (R44). -/
abbrev FDB : Nat := 0x10080000
/-- Base of the IMG page (R44). -/
abbrev IMG : Nat := 0x100C0000
/-- Base of the TNS page (R44). -/
abbrev TNS : Nat := 0x10100000
/-- Base of the MAC page of instance `p` (R44). -/
abbrev MAC (p : Nat) : Nat := 0x10200000 + 0x1000 * p
/-- Base of the SDS page of instance `p` (R44). -/
abbrev SDS (p : Nat) : Nat := 0x10300000 + 0x1000 * p
/-- Base of the MDB page of instance `p` (R44). -/
abbrev MDB (p : Nat) : Nat := 0x10400000 + 0x1000 * p
/-- Base of the PLK page of instance `p` (R44). -/
abbrev PLK (p : Nat) : Nat := 0x10500000 + 0x1000 * p
/-- Base of the PTC page of instance `p` (R44). -/
abbrev PTC (p : Nat) : Nat := 0x10600000 + 0x1000 * p
/-- Base of the PEN page of instance `p` (R44). -/
abbrev PEN (p : Nat) : Nat := 0x10700000 + 0x1000 * p
/-- `BLK_ID` of the page at `b` (R46). -/
abbrev BLK_ID (b : Nat) : Nat := b + 0x0
/-- `BLK_CAPS` of the page at `b` (R46). -/
abbrev BLK_CAPS (b : Nat) : Nat := b + 0x4
/-- `BLK_CTRL` of the page at `b` (R46). -/
abbrev BLK_CTRL (b : Nat) : Nat := b + 0x8
/-- `BLK_STATUS` of the page at `b` (R46). -/
abbrev BLK_STATUS (b : Nat) : Nat := b + 0xC
/-- `IRQ_RAW` of the page at `b` (R46). -/
abbrev IRQ_RAW (b : Nat) : Nat := b + 0x10
/-- `IRQ_ENABLE` of the page at `b` (R46). -/
abbrev IRQ_ENABLE (b : Nat) : Nat := b + 0x14
/-- `IRQ_STATUS` of the page at `b` (R46). -/
abbrev IRQ_STATUS (b : Nat) : Nat := b + 0x18
/-- `IRQ_FORCE` of the page at `b` (R46). -/
abbrev IRQ_FORCE (b : Nat) : Nat := b + 0x1C
/-- `ERR_INFO` of the page at `b` (R46). -/
abbrev ERR_INFO (b : Nat) : Nat := b + 0x20
/-- `ERR_ADDR` of the page at `b` (R46). -/
abbrev ERR_ADDR (b : Nat) : Nat := b + 0x24
/-- `CFG_LOCK` of the page at `b` (R46). -/
abbrev CFG_LOCK (b : Nat) : Nat := b + 0x28
/-- `CNT_CTRL` of the page at `b` (R46). -/
abbrev CNT_CTRL (b : Nat) : Nat := b + 0x30
/-- `CNT_SNAP_TIME_LO` of the page at `b` (R46). -/
abbrev CNT_SNAP_TIME_LO (b : Nat) : Nat := b + 0x34
/-- `CNT_SNAP_TIME_HI` of the page at `b` (R46). -/
abbrev CNT_SNAP_TIME_HI (b : Nat) : Nat := b + 0x38
/-- `CNT_SNAP_SEQ` of the page at `b` (R46). -/
abbrev CNT_SNAP_SEQ (b : Nat) : Nat := b + 0x3C
/-- `SEC.DENY_COUNT` (R56). -/
abbrev SEC_DENY_COUNT : Nat := 0x10008040
/-- `SEC.DENY_LAST_INFO` (R56). -/
abbrev SEC_DENY_LAST_INFO : Nat := 0x10008044
/-- `SEC.DENY_LAST_ADDR` (R56). -/
abbrev SEC_DENY_LAST_ADDR : Nat := 0x10008048
/-- `SEC.WPOL[t]` (R56). -/
abbrev SEC_WPOL (t : Nat) : Nat := 0x10008100 + 4 * t
/-- `INT.PEND[k]` (R59). -/
abbrev INT_PEND (k : Nat) : Nat := 0x10004080 + 4 * k
/-- `INT.MASK[k]` (R59). -/
abbrev INT_MASK (k : Nat) : Nat := 0x10004100 + 4 * k
/-- `INT.SW_SET` (R59). -/
abbrev INT_SW_SET : Nat := 0x10004200
/-- `INT.SW_CLR` (R59). -/
abbrev INT_SW_CLR : Nat := 0x10004204
/-- `INT.MGP_PEND[i]` (R59). -/
abbrev INT_MGP_PEND (i : Nat) : Nat := 0x10004300 + 4 * i
/-- `INT.SSP_PEND[i]` (R59). -/
abbrev INT_SSP_PEND (i : Nat) : Nat := 0x10004308 + 4 * i
/-- `INT.ROUTE[n]` (R59). -/
abbrev INT_ROUTE (n : Nat) : Nat := 0x10005000 + 4 * n
/-- `INT.HOST_EOI[v]` (R59). -/
abbrev INT_HOST_EOI (v : Nat) : Nat := 0x10006000 + 4 * v
/-- `INT.MSI-X table` (R59). -/
abbrev INT_MSI_X_table : Nat := 0x10007000
/-- `INT.MSI-X PBA` (R59). -/
abbrev INT_MSI_X_PBA : Nat := 0x10007800
/-- `SYS.RESET_CAUSE` (R87). -/
abbrev SYS_RESET_CAUSE : Nat := 0x10000040
/-- `SYS.SOFT_RESET` (R87). -/
abbrev SYS_SOFT_RESET : Nat := 0x10000044
/-- `SYS.BOOT_STATUS` (R87). -/
abbrev SYS_BOOT_STATUS : Nat := 0x10000048
/-- `SYS.BOOT_CFG` (R87). -/
abbrev SYS_BOOT_CFG : Nat := 0x1000004C
/-- `SYS.HEALTH` (R87). -/
abbrev SYS_HEALTH : Nat := 0x10000050
/-- `SYS.CMD_ADDR` (R87). -/
abbrev SYS_CMD_ADDR : Nat := 0x10000058
/-- `SYS.CMD_LEN` (R87). -/
abbrev SYS_CMD_LEN : Nat := 0x1000005C
/-- `SYS.CMD` (R87). -/
abbrev SYS_CMD : Nat := 0x10000060
/-- `SYS.CMD_RESULT` (R87). -/
abbrev SYS_CMD_RESULT : Nat := 0x10000064
/-- `SYS.OWNER_STATE` (R87). -/
abbrev SYS_OWNER_STATE : Nat := 0x10000068
/-- `SYS.DEBUG_STATUS` (R87). -/
abbrev SYS_DEBUG_STATUS : Nat := 0x1000006C
/-- `SYS.DEBUG_CHALLENGE_LO` (R87). -/
abbrev SYS_DEBUG_CHALLENGE_LO : Nat := 0x10000070
/-- `SYS.DEBUG_CHALLENGE_HI` (R87). -/
abbrev SYS_DEBUG_CHALLENGE_HI : Nat := 0x10000074
/-- `SYS.DEVICE_ID[0–3]` (R87). -/
abbrev SYS_DEVICE_ID (i : Nat) : Nat := 0x10000080 + 4 * i
/-- `SYS.BOOT_TIME` (R87). -/
abbrev SYS_BOOT_TIME : Nat := 0x10000090
/-- `SYS.BUNDLE_FAIL` (R87). -/
abbrev SYS_BUNDLE_FAIL : Nat := 0x10000094
/-- `SWC.BUF_CELLS` (R139). -/
abbrev SWC_BUF_CELLS : Nat := 0x10040040
/-- `SWC.FREE_CELLS` (R139). -/
abbrev SWC_FREE_CELLS : Nat := 0x10040044
/-- `SWC.FREE_LOW_MARK` (R139). -/
abbrev SWC_FREE_LOW_MARK : Nat := 0x10040048
/-- `SWC.EPOCH` (R139). -/
abbrev SWC_EPOCH : Nat := 0x1004004C
/-- `SWC.ALPHA` (R139). -/
abbrev SWC_ALPHA : Nat := 0x10040050
/-- `SWC.ARB_QUANTUM` (R139). -/
abbrev SWC_ARB_QUANTUM : Nat := 0x10040054
/-- `SWC.AGE_LIMIT[c]` (R139). -/
abbrev SWC_AGE_LIMIT (c : Nat) : Nat := 0x10040060 + 4 * c
/-- `SWC.DROP_RING_BASE` (R139). -/
abbrev SWC_DROP_RING_BASE : Nat := 0x10040080
/-- `SWC.DROP_RING_SIZE` (R139). -/
abbrev SWC_DROP_RING_SIZE : Nat := 0x10040084
/-- `SWC.DROP_RING_HEAD` (R139). -/
abbrev SWC_DROP_RING_HEAD : Nat := 0x10040088
/-- `SWC.DROP_RING_TAIL` (R139). -/
abbrev SWC_DROP_RING_TAIL : Nat := 0x1004008C
/-- `SWC.DROP_RING_MASK` (R139). -/
abbrev SWC_DROP_RING_MASK : Nat := 0x10040090
/-- `SWC.DROP_RING_LOST` (R139). -/
abbrev SWC_DROP_RING_LOST : Nat := 0x10040094
/-- `SWC.SMP_BASE` (R139). -/
abbrev SWC_SMP_BASE : Nat := 0x100400A0
/-- `SWC.SMP_SIZE` (R139). -/
abbrev SWC_SMP_SIZE : Nat := 0x100400A4
/-- `SWC.SMP_HEAD` (R139). -/
abbrev SWC_SMP_HEAD : Nat := 0x100400A8
/-- `SWC.SMP_TAIL` (R139). -/
abbrev SWC_SMP_TAIL : Nat := 0x100400AC
/-- `SWC.SMP_LOST` (R139). -/
abbrev SWC_SMP_LOST : Nat := 0x100400B0
/-- `SWC.PURGE_PENDING` (R139). -/
abbrev SWC_PURGE_PENDING : Nat := 0x100400C0
/-- `SWC.WITHDRAW_PENDING` (R139). -/
abbrev SWC_WITHDRAW_PENDING : Nat := 0x100400C4
/-- `SWC.TBL_CMD` (R139). -/
abbrev SWC_TBL_CMD : Nat := 0x10040100
/-- `SWC.TBL_RESULT` (R139). -/
abbrev SWC_TBL_RESULT : Nat := 0x10040104
/-- `SWC.TBL_STAGE[w]` (R139). -/
abbrev SWC_TBL_STAGE (w : Nat) : Nat := 0x10040140 + 4 * w
/-- `SWC.PORT[p]` (R139). -/
abbrev SWC_PORT (p : Nat) : Nat := 0x10041000 + 32 * p
/-- `SWC.DROP[p][r]` (R139). -/
abbrev SWC_DROP (p r : Nat) : Nat := 0x10044000 + 128 * p + 8 * r
/-- `SWC.OCC[p][c]` (R139). -/
abbrev SWC_OCC (p c : Nat) : Nat := 0x1004B000 + 32 * p + 4 * c
/-- `SWC.WITHDRAWN[p]` (R139). -/
abbrev SWC_WITHDRAWN (p : Nat) : Nat := 0x1004CC00 + 8 * p
/-- `SWC.GLIST[p][k][i]` (R139). -/
abbrev SWC_GLIST (p k i : Nat) : Nat := 0x10050000 + 512 * p + 256 * k + 8 * i
/-- `SWC.GATE_CTRL[p]` (R139). -/
abbrev SWC_GATE_CTRL (p : Nat) : Nat := 0x1006C000 + 32 * p
/-- `FDB.CMD` (R142). -/
abbrev FDB_CMD : Nat := 0x10080040
/-- `FDB.RESULT` (R142). -/
abbrev FDB_RESULT : Nat := 0x10080044
/-- `FDB.STAGE[w]` (R142). -/
abbrev FDB_STAGE (w : Nat) : Nat := 0x10080048 + 4 * w
/-- `FDB.EPOCH` (R142). -/
abbrev FDB_EPOCH : Nat := 0x10080058
/-- `FDB.HASH_SEED` (R142). -/
abbrev FDB_HASH_SEED : Nat := 0x1008005C
/-- `FDB.AGE_PERIOD` (R142). -/
abbrev FDB_AGE_PERIOD : Nat := 0x10080060
/-- `FDB.ENTRIES` (R142). -/
abbrev FDB_ENTRIES : Nat := 0x10080064
/-- `FDB.WIN_SEL` (R142). -/
abbrev FDB_WIN_SEL : Nat := 0x10080068
/-- `FDB.PURGE_PENDING` (R142). -/
abbrev FDB_PURGE_PENDING : Nat := 0x1008006C
/-- `FDB.CNT_LEARNED` (R142). -/
abbrev FDB_CNT_LEARNED : Nat := 0x10080070
/-- `FDB.CNT_LEARN_FULL` (R142). -/
abbrev FDB_CNT_LEARN_FULL : Nat := 0x10080074
/-- `FDB.CNT_AGED_OUT` (R142). -/
abbrev FDB_CNT_AGED_OUT : Nat := 0x10080078
/-- `FDB.CNT_MOVED` (R142). -/
abbrev FDB_CNT_MOVED : Nat := 0x1008007C
/-- `FDB.WIN[j]` (R142). -/
abbrev FDB_WIN (j : Nat) : Nat := 0x10090000 + 16 * j
/-- `IMG.ENV_ETHERTYPE` (R184). -/
abbrev IMG_ENV_ETHERTYPE : Nat := 0x100C0040
/-- `IMG.GATE_CTRL` (R184). -/
abbrev IMG_GATE_CTRL : Nat := 0x100C0044
/-- `IMG.GATE_STATUS` (R184). -/
abbrev IMG_GATE_STATUS : Nat := 0x100C0048
/-- `IMG.PORT_QUOTA` (R184). -/
abbrev IMG_PORT_QUOTA : Nat := 0x100C004C
/-- `IMG.HOLD_LIMIT` (R184). -/
abbrev IMG_HOLD_LIMIT : Nat := 0x100C0050
/-- `IMG.NEXT_TAG` (R184). -/
abbrev IMG_NEXT_TAG : Nat := 0x100C0054
/-- `IMG.REPORT_ETHERTYPE` (R184). -/
abbrev IMG_REPORT_ETHERTYPE : Nat := 0x100C0058
/-- `IMG.REPORT_CTRL` (R184). -/
abbrev IMG_REPORT_CTRL : Nat := 0x100C005C
/-- `IMG.REPORT_SA_LO` (R184). -/
abbrev IMG_REPORT_SA_LO : Nat := 0x100C0060
/-- `IMG.REPORT_SA_HI` (R184). -/
abbrev IMG_REPORT_SA_HI : Nat := 0x100C0064
/-- `IMG.PEND_HIGH_MARK` (R184). -/
abbrev IMG_PEND_HIGH_MARK : Nat := 0x100C0068
/-- `IMG.SVC_LIMIT` (R184). -/
abbrev IMG_SVC_LIMIT : Nat := 0x100C006C
/-- `IMG.PK_BUSY` (R184). -/
abbrev IMG_PK_BUSY : Nat := 0x100C0070
/-- `IMG.LAT_BUSY` (R184). -/
abbrev IMG_LAT_BUSY : Nat := 0x100C0074
/-- `IMG.HMAC_BUSY` (R184). -/
abbrev IMG_HMAC_BUSY : Nat := 0x100C0078
/-- `IMG.VR_BASE` (R184). -/
abbrev IMG_VR_BASE : Nat := 0x100C0080
/-- `IMG.VR_SIZE` (R184). -/
abbrev IMG_VR_SIZE : Nat := 0x100C0084
/-- `IMG.VR_HEAD` (R184). -/
abbrev IMG_VR_HEAD : Nat := 0x100C0088
/-- `IMG.VR_OVERRUN` (R184). -/
abbrev IMG_VR_OVERRUN : Nat := 0x100C008C
/-- `IMG.CAT_CMD` (R184). -/
abbrev IMG_CAT_CMD : Nat := 0x100C0100
/-- `IMG.CAT_RESULT` (R184). -/
abbrev IMG_CAT_RESULT : Nat := 0x100C0104
/-- `IMG.CAT_STAGE[w]` (R184). -/
abbrev IMG_CAT_STAGE (w : Nat) : Nat := 0x100C0140 + 4 * w
/-- `IMG.SIEVE_CMD` (R184). -/
abbrev IMG_SIEVE_CMD : Nat := 0x100C0180
/-- `IMG.SIEVE_RESULT` (R184). -/
abbrev IMG_SIEVE_RESULT : Nat := 0x100C0184
/-- `IMG.SIEVE_STAGE[w]` (R184). -/
abbrev IMG_SIEVE_STAGE (w : Nat) : Nat := 0x100C01C0 + 4 * w
/-- `IMG.KEY_WIN_SEL` (R184). -/
abbrev IMG_KEY_WIN_SEL : Nat := 0x100C0240
/-- `IMG.VERDICT_CNT[v]` (R184). -/
abbrev IMG_VERDICT_CNT (v : Nat) : Nat := 0x100C0400 + 8 * v
/-- `IMG.SIEVE_TOTAL` (R184). -/
abbrev IMG_SIEVE_TOTAL : Nat := 0x100C0500
/-- `IMG.SIEVE_CNT[c]` (R184). -/
abbrev IMG_SIEVE_CNT (c : Nat) : Nat := 0x100C1000 + 4 * c
/-- `IMG.Key-pool window` (R184). -/
abbrev IMG_Key_pool_window : Nat := 0x100F0000
/-- `VLT.STATUS` (R209). -/
abbrev VLT_STATUS : Nat := 0x10009040
/-- `VLT.POLICY` (R209). -/
abbrev VLT_POLICY : Nat := 0x10009044
/-- `VLT.JNL_HEAD` (R209). -/
abbrev VLT_JNL_HEAD : Nat := 0x10009048
/-- `VLT.JNL_PASSES` (R209). -/
abbrev VLT_JNL_PASSES : Nat := 0x1000904C
/-- `VLT.JNL_ALLOW` (R209). -/
abbrev VLT_JNL_ALLOW : Nat := 0x10009050
/-- `VLT.AUDIT_RATE` (R209). -/
abbrev VLT_AUDIT_RATE : Nat := 0x10009054
/-- `VLT.AUDIT_DROPPED` (R209). -/
abbrev VLT_AUDIT_DROPPED : Nat := 0x10009058
/-- `VLT.WEAR[r]` (R209). -/
abbrev VLT_WEAR (r : Nat) : Nat := 0x10009060 + 4 * r
/-- `VLT.CNT_CMD` (R209). -/
abbrev VLT_CNT_CMD : Nat := 0x10009070
/-- `VLT.CNT_RESULT` (R209). -/
abbrev VLT_CNT_RESULT : Nat := 0x10009074
/-- `VLT.CNT_VALUE_LO` (R209). -/
abbrev VLT_CNT_VALUE_LO : Nat := 0x10009078
/-- `VLT.CNT_VALUE_HI` (R209). -/
abbrev VLT_CNT_VALUE_HI : Nat := 0x1000907C
/-- `VLT.CNT_TAG` (R209). -/
abbrev VLT_CNT_TAG : Nat := 0x10009080
/-- `VLT.EXPORT_ADDR` (R209). -/
abbrev VLT_EXPORT_ADDR : Nat := 0x10009090
/-- `VLT.EXPORT_FIRST` (R209). -/
abbrev VLT_EXPORT_FIRST : Nat := 0x10009094
/-- `VLT.EXPORT_COUNT` (R209). -/
abbrev VLT_EXPORT_COUNT : Nat := 0x10009098
/-- `VLT.EXPORT_RESULT` (R209). -/
abbrev VLT_EXPORT_RESULT : Nat := 0x1000909C
/-- `VLT.ID_PUB[0–7]` (R209). -/
abbrev VLT_ID_PUB (i : Nat) : Nat := 0x100090A0 + 4 * i
/-- `MAC.CFG` (R243). -/
abbrev MAC_CFG (p : Nat) : Nat := 0x10200040 + 0x1000 * p
/-- `MAC.MTU` (R243). -/
abbrev MAC_MTU (p : Nat) : Nat := 0x10200044 + 0x1000 * p
/-- `MAC.LINK` (R243). -/
abbrev MAC_LINK (p : Nat) : Nat := 0x10200048 + 0x1000 * p
/-- `MAC.SA_LO` (R243). -/
abbrev MAC_SA_LO (p : Nat) : Nat := 0x1020004C + 0x1000 * p
/-- `MAC.SA_HI` (R243). -/
abbrev MAC_SA_HI (p : Nat) : Nat := 0x10200050 + 0x1000 * p
/-- `MAC.PAUSE_CTRL` (R243). -/
abbrev MAC_PAUSE_CTRL (p : Nat) : Nat := 0x10200054 + 0x1000 * p
/-- `MAC.XOFF_CELLS` (R243). -/
abbrev MAC_XOFF_CELLS (p : Nat) : Nat := 0x10200058 + 0x1000 * p
/-- `MAC.XON_CELLS` (R243). -/
abbrev MAC_XON_CELLS (p : Nat) : Nat := 0x1020005C + 0x1000 * p
/-- `MAC.PAUSE_STATUS` (R243). -/
abbrev MAC_PAUSE_STATUS (p : Nat) : Nat := 0x10200060 + 0x1000 * p
/-- `MAC.PREEMPT_CTRL` (R243). -/
abbrev MAC_PREEMPT_CTRL (p : Nat) : Nat := 0x10200064 + 0x1000 * p
/-- `MAC.PREEMPT_STATUS` (R243). -/
abbrev MAC_PREEMPT_STATUS (p : Nat) : Nat := 0x10200068 + 0x1000 * p
/-- `MAC.EEE_CTRL` (R243). -/
abbrev MAC_EEE_CTRL (p : Nat) : Nat := 0x1020006C + 0x1000 * p
/-- `MAC.TW_SYS` (R243). -/
abbrev MAC_TW_SYS (p : Nat) : Nat := 0x10200070 + 0x1000 * p
/-- `MAC.TS_ING_LAT` (R243). -/
abbrev MAC_TS_ING_LAT (p : Nat) : Nat := 0x10200074 + 0x1000 * p
/-- `MAC.TS_EGR_LAT` (R243). -/
abbrev MAC_TS_EGR_LAT (p : Nat) : Nat := 0x10200078 + 0x1000 * p
/-- `MAC.TS_ASYM` (R243). -/
abbrev MAC_TS_ASYM (p : Nat) : Nat := 0x1020007C + 0x1000 * p
/-- `MAC.RED_CTRL` (R243). -/
abbrev MAC_RED_CTRL (p : Nat) : Nat := 0x10200080 + 0x1000 * p
/-- `MAC.PAIR_SA_LO` (R243). -/
abbrev MAC_PAIR_SA_LO (p : Nat) : Nat := 0x10200084 + 0x1000 * p
/-- `MAC.PAIR_SA_HI` (R243). -/
abbrev MAC_PAIR_SA_HI (p : Nat) : Nat := 0x10200088 + 0x1000 * p
/-- `MAC.PAIR_FORGET_MS` (R243). -/
abbrev MAC_PAIR_FORGET_MS (p : Nat) : Nat := 0x1020008C + 0x1000 * p
/-- `MAC.PAIR_STATUS` (R243). -/
abbrev MAC_PAIR_STATUS (p : Nat) : Nat := 0x10200090 + 0x1000 * p
/-- `MAC.PAIR_IRQ_RAW` (R243). -/
abbrev MAC_PAIR_IRQ_RAW (p : Nat) : Nat := 0x102000A0 + 0x1000 * p
/-- `MAC.PAIR_IRQ_ENABLE` (R243). -/
abbrev MAC_PAIR_IRQ_ENABLE (p : Nat) : Nat := 0x102000A4 + 0x1000 * p
/-- `MAC.PAIR_IRQ_STATUS` (R243). -/
abbrev MAC_PAIR_IRQ_STATUS (p : Nat) : Nat := 0x102000A8 + 0x1000 * p
/-- `MAC.PAIR_IRQ_FORCE` (R243). -/
abbrev MAC_PAIR_IRQ_FORCE (p : Nat) : Nat := 0x102000AC + 0x1000 * p
/-- `MAC.Port counters` (R243). -/
abbrev MAC_Port_counters (p k : Nat) : Nat := 0x10200100 + 0x1000 * p + 8 * k
/-- `MAC.Pair counters` (R243). -/
abbrev MAC_Pair_counters (p k : Nat) : Nat := 0x10200200 + 0x1000 * p + 8 * k
/-- `SDS.MODE` (R246). -/
abbrev SDS_MODE (p : Nat) : Nat := 0x10300040 + 0x1000 * p
/-- `SDS.AN_CTRL` (R246). -/
abbrev SDS_AN_CTRL (p : Nat) : Nat := 0x10300044 + 0x1000 * p
/-- `SDS.STATUS` (R246). -/
abbrev SDS_STATUS (p : Nat) : Nat := 0x10300048 + 0x1000 * p
/-- `SDS.POLARITY` (R246). -/
abbrev SDS_POLARITY (p : Nat) : Nat := 0x1030004C + 0x1000 * p
/-- `SDS.TX_EQ` (R246). -/
abbrev SDS_TX_EQ (p : Nat) : Nat := 0x10300050 + 0x1000 * p
/-- `SDS.LOOPBACK` (R246). -/
abbrev SDS_LOOPBACK (p : Nat) : Nat := 0x10300054 + 0x1000 * p
/-- `SDS.PRBS` (R246). -/
abbrev SDS_PRBS (p : Nat) : Nat := 0x10300058 + 0x1000 * p
/-- `SDS.PRBS_ERR` (R246). -/
abbrev SDS_PRBS_ERR (p : Nat) : Nat := 0x1030005C + 0x1000 * p
/-- `SDS.CODE_ERR` (R246). -/
abbrev SDS_CODE_ERR (p : Nat) : Nat := 0x10300100 + 0x1000 * p
/-- `SDS.LOCK_LOSS` (R246). -/
abbrev SDS_LOCK_LOSS (p : Nat) : Nat := 0x10300108 + 0x1000 * p
/-- `SDS.MDIO_CFG` (R246). -/
abbrev SDS_MDIO_CFG (p : Nat) : Nat := 0x10300200 + 0x1000 * p
/-- `SDS.MDIO_CMD` (R246). -/
abbrev SDS_MDIO_CMD (p : Nat) : Nat := 0x10300204 + 0x1000 * p
/-- `SDS.MDIO_RESULT` (R246). -/
abbrev SDS_MDIO_RESULT (p : Nat) : Nat := 0x10300208 + 0x1000 * p
/-- `SDS.MDIO_IRQ_RAW` (R246). -/
abbrev SDS_MDIO_IRQ_RAW (p : Nat) : Nat := 0x10300210 + 0x1000 * p
/-- `SDS.MDIO_IRQ_ENABLE` (R246). -/
abbrev SDS_MDIO_IRQ_ENABLE (p : Nat) : Nat := 0x10300214 + 0x1000 * p
/-- `SDS.MDIO_IRQ_STATUS` (R246). -/
abbrev SDS_MDIO_IRQ_STATUS (p : Nat) : Nat := 0x10300218 + 0x1000 * p
/-- `SDS.MDIO_IRQ_FORCE` (R246). -/
abbrev SDS_MDIO_IRQ_FORCE (p : Nat) : Nat := 0x1030021C + 0x1000 * p
/-- `PLK.NODE_CFG` (R309). -/
abbrev PLK_NODE_CFG (p : Nat) : Nat := 0x10500040 + 0x1000 * p
/-- `PLK.TIMING` (R309). -/
abbrev PLK_TIMING (p : Nat) : Nat := 0x10500044 + 0x1000 * p
/-- `PLK.WINDOWS` (R309). -/
abbrev PLK_WINDOWS (p : Nat) : Nat := 0x10500048 + 0x1000 * p
/-- `PLK.DELTA` (R309). -/
abbrev PLK_DELTA (p : Nat) : Nat := 0x1050004C + 0x1000 * p
/-- `PLK.SYNC_NODES_LO` (R309). -/
abbrev PLK_SYNC_NODES_LO (p : Nat) : Nat := 0x10500050 + 0x1000 * p
/-- `PLK.SYNC_NODES_HI` (R309). -/
abbrev PLK_SYNC_NODES_HI (p : Nat) : Nat := 0x10500054 + 0x1000 * p
/-- `PLK.COLD_NODES_LO` (R309). -/
abbrev PLK_COLD_NODES_LO (p : Nat) : Nat := 0x10500058 + 0x1000 * p
/-- `PLK.COLD_NODES_HI` (R309). -/
abbrev PLK_COLD_NODES_HI (p : Nat) : Nat := 0x1050005C + 0x1000 * p
/-- `PLK.MODE_CFG[m]` (R309). -/
abbrev PLK_MODE_CFG (p m : Nat) : Nat := 0x10500060 + 0x1000 * p + 4 * m
/-- `PLK.FETCH_NS` (R309). -/
abbrev PLK_FETCH_NS (p : Nat) : Nat := 0x10500070 + 0x1000 * p
/-- `PLK.GUARDED` (R309). -/
abbrev PLK_GUARDED (p : Nat) : Nat := 0x10500074 + 0x1000 * p
/-- `PLK.CMD` (R309). -/
abbrev PLK_CMD (p : Nat) : Nat := 0x10500078 + 0x1000 * p
/-- `PLK.CMD_RESULT` (R309). -/
abbrev PLK_CMD_RESULT (p : Nat) : Nat := 0x1050007C + 0x1000 * p
/-- `PLK.STATUS` (R309). -/
abbrev PLK_STATUS (p : Nat) : Nat := 0x10500080 + 0x1000 * p
/-- `PLK.MEMBERS_LO` (R309). -/
abbrev PLK_MEMBERS_LO (p : Nat) : Nat := 0x10500084 + 0x1000 * p
/-- `PLK.MEMBERS_HI` (R309). -/
abbrev PLK_MEMBERS_HI (p : Nat) : Nat := 0x10500088 + 0x1000 * p
/-- `PLK.CH_STATUS_A` (R309). -/
abbrev PLK_CH_STATUS_A (p : Nat) : Nat := 0x1050008C + 0x1000 * p
/-- `PLK.CH_STATUS_B` (R309). -/
abbrev PLK_CH_STATUS_B (p : Nat) : Nat := 0x10500090 + 0x1000 * p
/-- `PLK.GATE_ENTRY` (R309). -/
abbrev PLK_GATE_ENTRY (p : Nat) : Nat := 0x10500094 + 0x1000 * p
/-- `PLK.RX_CTRL` (R309). -/
abbrev PLK_RX_CTRL (p : Nat) : Nat := 0x10500098 + 0x1000 * p
/-- `PLK.TX_BASE` (R309). -/
abbrev PLK_TX_BASE (p : Nat) : Nat := 0x105000A0 + 0x1000 * p
/-- `PLK.TX_SIZE` (R309). -/
abbrev PLK_TX_SIZE (p : Nat) : Nat := 0x105000A4 + 0x1000 * p
/-- `PLK.TX_HEAD` (R309). -/
abbrev PLK_TX_HEAD (p : Nat) : Nat := 0x105000A8 + 0x1000 * p
/-- `PLK.TX_TAIL` (R309). -/
abbrev PLK_TX_TAIL (p : Nat) : Nat := 0x105000AC + 0x1000 * p
/-- `PLK.RX_BASE` (R309). -/
abbrev PLK_RX_BASE (p : Nat) : Nat := 0x105000B0 + 0x1000 * p
/-- `PLK.RX_SIZE` (R309). -/
abbrev PLK_RX_SIZE (p : Nat) : Nat := 0x105000B4 + 0x1000 * p
/-- `PLK.RX_HEAD` (R309). -/
abbrev PLK_RX_HEAD (p : Nat) : Nat := 0x105000B8 + 0x1000 * p
/-- `PLK.RX_TAIL` (R309). -/
abbrev PLK_RX_TAIL (p : Nat) : Nat := 0x105000BC + 0x1000 * p
/-- `PLK.Node counters` (R309). -/
abbrev PLK_Node_counters (p k : Nat) : Nat := 0x105000C0 + 0x1000 * p + 4 * k
/-- `PLK.CMP[i]` (R309). -/
abbrev PLK_CMP (p i : Nat) : Nat := 0x10500100 + 0x1000 * p + 8 * i
/-- `PLK.CMP_TIME[i]` (R309). -/
abbrev PLK_CMP_TIME (p i : Nat) : Nat := 0x10500104 + 0x1000 * p + 8 * i
/-- `PLK.Channel A counters` (R309). -/
abbrev PLK_Channel_A_counters (p k : Nat) : Nat := 0x10500180 + 0x1000 * p + 4 * k
/-- `PLK.Channel B counters` (R309). -/
abbrev PLK_Channel_B_counters (p k : Nat) : Nat := 0x105001C0 + 0x1000 * p + 4 * k
/-- `PLK.SLOT_EMPTY[s]` (R309). -/
abbrev PLK_SLOT_EMPTY (p s : Nat) : Nat := 0x10500200 + 0x1000 * p + 4 * s
/-- `PLK.SLOT_STATUS[s]` (R309). -/
abbrev PLK_SLOT_STATUS (p s : Nat) : Nat := 0x10500300 + 0x1000 * p + 4 * s
/-- `PLK.GUARD[m][s]` (R309). -/
abbrev PLK_GUARD (p m s : Nat) : Nat := 0x10500400 + 0x1000 * p + 256 * m + 4 * s
/-- `PLK.SCHED[m][s]` (R309). -/
abbrev PLK_SCHED (p m s : Nat) : Nat := 0x10500800 + 0x1000 * p + 512 * m + 8 * s
/-- `MDB.CFG` (R328). -/
abbrev MDB_CFG (p : Nat) : Nat := 0x10400040 + 0x1000 * p
/-- `MDB.ARB_TIMING` (R328). -/
abbrev MDB_ARB_TIMING (p : Nat) : Nat := 0x10400044 + 0x1000 * p
/-- `MDB.DATA_TIMING` (R328). -/
abbrev MDB_DATA_TIMING (p : Nat) : Nat := 0x10400048 + 0x1000 * p
/-- `MDB.DELAY_COMP` (R328). -/
abbrev MDB_DELAY_COMP (p : Nat) : Nat := 0x1040004C + 0x1000 * p
/-- `MDB.GUARDED` (R328). -/
abbrev MDB_GUARDED (p : Nat) : Nat := 0x10400050 + 0x1000 * p
/-- `MDB.CMD` (R328). -/
abbrev MDB_CMD (p : Nat) : Nat := 0x10400054 + 0x1000 * p
/-- `MDB.CMD_RESULT` (R328). -/
abbrev MDB_CMD_RESULT (p : Nat) : Nat := 0x10400058 + 0x1000 * p
/-- `MDB.STATUS` (R328). -/
abbrev MDB_STATUS (p : Nat) : Nat := 0x1040005C + 0x1000 * p
/-- `MDB.ERR_CNT` (R328). -/
abbrev MDB_ERR_CNT (p : Nat) : Nat := 0x10400060 + 0x1000 * p
/-- `MDB.LAST_ERR` (R328). -/
abbrev MDB_LAST_ERR (p : Nat) : Nat := 0x10400064 + 0x1000 * p
/-- `MDB.WAKE_CFG` (R328). -/
abbrev MDB_WAKE_CFG (p : Nat) : Nat := 0x10400068 + 0x1000 * p
/-- `MDB.GATE_ENTRY` (R328). -/
abbrev MDB_GATE_ENTRY (p : Nat) : Nat := 0x1040006C + 0x1000 * p
/-- `MDB.TX_BASE` (R328). -/
abbrev MDB_TX_BASE (p : Nat) : Nat := 0x10400070 + 0x1000 * p
/-- `MDB.TX_SIZE` (R328). -/
abbrev MDB_TX_SIZE (p : Nat) : Nat := 0x10400074 + 0x1000 * p
/-- `MDB.TX_HEAD` (R328). -/
abbrev MDB_TX_HEAD (p : Nat) : Nat := 0x10400078 + 0x1000 * p
/-- `MDB.TX_TAIL` (R328). -/
abbrev MDB_TX_TAIL (p : Nat) : Nat := 0x1040007C + 0x1000 * p
/-- `MDB.RX_BASE` (R328). -/
abbrev MDB_RX_BASE (p : Nat) : Nat := 0x10400080 + 0x1000 * p
/-- `MDB.RX_SIZE` (R328). -/
abbrev MDB_RX_SIZE (p : Nat) : Nat := 0x10400084 + 0x1000 * p
/-- `MDB.RX_HEAD` (R328). -/
abbrev MDB_RX_HEAD (p : Nat) : Nat := 0x10400088 + 0x1000 * p
/-- `MDB.RX_TAIL` (R328). -/
abbrev MDB_RX_TAIL (p : Nat) : Nat := 0x1040008C + 0x1000 * p
/-- `MDB.RX_FIFO_LEVEL` (R328). -/
abbrev MDB_RX_FIFO_LEVEL (p : Nat) : Nat := 0x10400090 + 0x1000 * p
/-- `MDB.Counters` (R328). -/
abbrev MDB_Counters (p k : Nat) : Nat := 0x104000C0 + 0x1000 * p + 4 * k
/-- `MDB.FILTER[f] word 0` (R328). -/
abbrev MDB_FILTER_word_0 (p f : Nat) : Nat := 0x10400100 + 0x1000 * p + 8 * f
/-- `MDB.FILTER[f] word 1` (R328). -/
abbrev MDB_FILTER_word_1 (p f : Nat) : Nat := 0x10400104 + 0x1000 * p + 8 * f
/-- `MDB.TXBUF[b]` (R328). -/
abbrev MDB_TXBUF (p b : Nat) : Nat := 0x10400300 + 0x1000 * p + 4 * b
/-- `PTC.CTRL` (R348). -/
abbrev PTC_CTRL (p : Nat) : Nat := 0x10600040 + 0x1000 * p
/-- `PTC.STATUS` (R348). -/
abbrev PTC_STATUS (p : Nat) : Nat := 0x10600044 + 0x1000 * p
/-- `PTC.SEQ` (R348). -/
abbrev PTC_SEQ (p : Nat) : Nat := 0x10600048 + 0x1000 * p
/-- `PTC.SHIFTER` (R348). -/
abbrev PTC_SHIFTER (p : Nat) : Nat := 0x1060004C + 0x1000 * p
/-- `PTC.PIN_MAP` (R348). -/
abbrev PTC_PIN_MAP (p : Nat) : Nat := 0x10600050 + 0x1000 * p
/-- `PTC.PIN_WIDTH` (R348). -/
abbrev PTC_PIN_WIDTH (p : Nat) : Nat := 0x10600054 + 0x1000 * p
/-- `PTC.PERIOD` (R348). -/
abbrev PTC_PERIOD (p : Nat) : Nat := 0x10600058 + 0x1000 * p
/-- `PTC.T_LO` (R348). -/
abbrev PTC_T_LO (p : Nat) : Nat := 0x1060005C + 0x1000 * p
/-- `PTC.T_HI` (R348). -/
abbrev PTC_T_HI (p : Nat) : Nat := 0x10600060 + 0x1000 * p
/-- `PTC.C0` (R348). -/
abbrev PTC_C0 (p : Nat) : Nat := 0x10600064 + 0x1000 * p
/-- `PTC.C1` (R348). -/
abbrev PTC_C1 (p : Nat) : Nat := 0x10600068 + 0x1000 * p
/-- `PTC.INJECT` (R348). -/
abbrev PTC_INJECT (p : Nat) : Nat := 0x1060006C + 0x1000 * p
/-- `PTC.ABORT_BITS` (R348). -/
abbrev PTC_ABORT_BITS (p : Nat) : Nat := 0x10600070 + 0x1000 * p
/-- `PTC.GUARDED` (R348). -/
abbrev PTC_GUARDED (p : Nat) : Nat := 0x10600074 + 0x1000 * p
/-- `PTC.OUT_Q` (R348). -/
abbrev PTC_OUT_Q (p : Nat) : Nat := 0x10600078 + 0x1000 * p
/-- `PTC.TIME_CFG` (R348). -/
abbrev PTC_TIME_CFG (p : Nat) : Nat := 0x1060007C + 0x1000 * p
/-- `PTC.TX_BASE` (R348). -/
abbrev PTC_TX_BASE (p : Nat) : Nat := 0x10600080 + 0x1000 * p
/-- `PTC.TX_SIZE` (R348). -/
abbrev PTC_TX_SIZE (p : Nat) : Nat := 0x10600084 + 0x1000 * p
/-- `PTC.TX_HEAD` (R348). -/
abbrev PTC_TX_HEAD (p : Nat) : Nat := 0x10600088 + 0x1000 * p
/-- `PTC.TX_TAIL` (R348). -/
abbrev PTC_TX_TAIL (p : Nat) : Nat := 0x1060008C + 0x1000 * p
/-- `PTC.IDLE_WORD` (R348). -/
abbrev PTC_IDLE_WORD (p : Nat) : Nat := 0x10600090 + 0x1000 * p
/-- `PTC.OWN[k]` (R348). -/
abbrev PTC_OWN (p k : Nat) : Nat := 0x106000A0 + 0x1000 * p + 4 * k
/-- `PTC.Counters` (R348). -/
abbrev PTC_Counters (p k : Nat) : Nat := 0x106000C0 + 0x1000 * p + 4 * k
/-- `PTC.PROG[i]` (R348). -/
abbrev PTC_PROG (p i : Nat) : Nat := 0x10600100 + 0x1000 * p + 4 * i
/-- `PEN.MAP` (R375). -/
abbrev PEN_MAP (p : Nat) : Nat := 0x10700040 + 0x1000 * p
/-- `PEN.RUN_CTRL` (R375). -/
abbrev PEN_RUN_CTRL (p : Nat) : Nat := 0x10700044 + 0x1000 * p
/-- `PEN.WDT_CTRL` (R375). -/
abbrev PEN_WDT_CTRL (p : Nat) : Nat := 0x10700048 + 0x1000 * p
/-- `PEN.WDT_STATUS` (R375). -/
abbrev PEN_WDT_STATUS (p : Nat) : Nat := 0x1070004C + 0x1000 * p
/-- `PEN.CKPT` (R375). -/
abbrev PEN_CKPT (p : Nat) : Nat := 0x10700050 + 0x1000 * p
/-- `PEN.DEAD_CAUSE` (R375). -/
abbrev PEN_DEAD_CAUSE (p : Nat) : Nat := 0x10700054 + 0x1000 * p
/-- `PEN.FENCED_LAST` (R375). -/
abbrev PEN_FENCED_LAST (p : Nat) : Nat := 0x10700058 + 0x1000 * p
/-- `PEN.BUSY_CYCLES` (R375). -/
abbrev PEN_BUSY_CYCLES (p : Nat) : Nat := 0x10700100 + 0x1000 * p
/-- `PEN.FENCED_WRITE` (R375). -/
abbrev PEN_FENCED_WRITE (p : Nat) : Nat := 0x10700108 + 0x1000 * p
/-- `PEN.TCM_CORR` (R375). -/
abbrev PEN_TCM_CORR (p : Nat) : Nat := 0x1070010C + 0x1000 * p
/-- `PLC.CMD` (R376). -/
abbrev PLC_CMD : Nat := 0x1000D040
/-- `PLC.CMD_ADDR` (R376). -/
abbrev PLC_CMD_ADDR : Nat := 0x1000D044
/-- `PLC.CMD_LEN` (R376). -/
abbrev PLC_CMD_LEN : Nat := 0x1000D048
/-- `PLC.CMD_RESULT` (R376). -/
abbrev PLC_CMD_RESULT : Nat := 0x1000D04C
/-- `PLC.CMD_TAG` (R376). -/
abbrev PLC_CMD_TAG : Nat := 0x1000D050
/-- `PLC.STATUS` (R376). -/
abbrev PLC_STATUS : Nat := 0x1000D054
/-- `PLC.LOAD_CAP` (R376). -/
abbrev PLC_LOAD_CAP : Nat := 0x1000D058
/-- `PLC.MIG_WAIT_US` (R376). -/
abbrev PLC_MIG_WAIT_US : Nat := 0x1000D05C
/-- `PLC.SWITCH_MIN_BANKS` (R376). -/
abbrev PLC_SWITCH_MIN_BANKS : Nat := 0x1000D060
/-- `PLC.IDLE_OFF_MS` (R376). -/
abbrev PLC_IDLE_OFF_MS : Nat := 0x1000D064
/-- `PLC.ADMIT_LO` (R376). -/
abbrev PLC_ADMIT_LO : Nat := 0x1000D068
/-- `PLC.ADMIT_HI` (R376). -/
abbrev PLC_ADMIT_HI : Nat := 0x1000D06C
/-- `PLC.JOB_CR_BASE` (R376). -/
abbrev PLC_JOB_CR_BASE : Nat := 0x1000D070
/-- `PLC.JOB_CR_SIZE` (R376). -/
abbrev PLC_JOB_CR_SIZE : Nat := 0x1000D074
/-- `PLC.JOB_CR_HEAD` (R376). -/
abbrev PLC_JOB_CR_HEAD : Nat := 0x1000D078
/-- `PLC.JOB_CR_TAIL` (R376). -/
abbrev PLC_JOB_CR_TAIL : Nat := 0x1000D07C
/-- `PLC.PERS_STATUS[s]` (R376). -/
abbrev PLC_PERS_STATUS (s : Nat) : Nat := 0x1000D080 + 4 * s
/-- `PLC.CLUSTER[i]` (R376). -/
abbrev PLC_CLUSTER (i : Nat) : Nat := 0x1000D100 + 4 * i
/-- `PLC.MIG_COUNT` (R376). -/
abbrev PLC_MIG_COUNT : Nat := 0x1000D180
/-- `PLC.MIG_ABANDONED` (R376). -/
abbrev PLC_MIG_ABANDONED : Nat := 0x1000D184
/-- `PLC.MIG_LATE` (R376). -/
abbrev PLC_MIG_LATE : Nat := 0x1000D188
/-- `PLC.BIND_REJECTED` (R376). -/
abbrev PLC_BIND_REJECTED : Nat := 0x1000D18C
/-- `PLC.ENGINE[n]` (R376). -/
abbrev PLC_ENGINE (n : Nat) : Nat := 0x1000D200 + 4 * n
/-- `PLC.BIND[c]` (R376). -/
abbrev PLC_BIND (c : Nat) : Nat := 0x1000D400 + 8 * c
/-- `BNK.STATUS` (R446). -/
abbrev BNK_STATUS : Nat := 0x10020040
/-- `BNK.CMD` (R446). -/
abbrev BNK_CMD : Nat := 0x10020044
/-- `BNK.CMD_RESULT` (R446). -/
abbrev BNK_CMD_RESULT : Nat := 0x10020048
/-- `BNK.SCRUB_PERIOD` (R446). -/
abbrev BNK_SCRUB_PERIOD : Nat := 0x1002004C
/-- `BNK.SCRUB_POS` (R446). -/
abbrev BNK_SCRUB_POS : Nat := 0x10020050
/-- `BNK.SLICE_QUANTUM` (R446). -/
abbrev BNK_SLICE_QUANTUM : Nat := 0x10020054
/-- `BNK.SWITCH_WEIGHT` (R446). -/
abbrev BNK_SWITCH_WEIGHT : Nat := 0x10020058
/-- `BNK.CE_LIMIT` (R446). -/
abbrev BNK_CE_LIMIT : Nat := 0x1002005C
/-- `BNK.DENY_INFO` (R446). -/
abbrev BNK_DENY_INFO : Nat := 0x10020060
/-- `BNK.DENY_ADDR` (R446). -/
abbrev BNK_DENY_ADDR : Nat := 0x10020064
/-- `BNK.DENY_COUNT` (R446). -/
abbrev BNK_DENY_COUNT : Nat := 0x10020068
/-- `BNK.UE_LAST_ADDR` (R446). -/
abbrev BNK_UE_LAST_ADDR : Nat := 0x10020070
/-- `BNK.UE_LAST_INFO` (R446). -/
abbrev BNK_UE_LAST_INFO : Nat := 0x10020074
/-- `BNK.CE_TOTAL` (R446). -/
abbrev BNK_CE_TOTAL : Nat := 0x10020100
/-- `BNK.UE_TOTAL` (R446). -/
abbrev BNK_UE_TOTAL : Nat := 0x10020108
/-- `BNK.SCRUB_PASSES` (R446). -/
abbrev BNK_SCRUB_PASSES : Nat := 0x10020110
/-- `BNK.COLLIDE_TOTAL` (R446). -/
abbrev BNK_COLLIDE_TOTAL : Nat := 0x10020118
/-- `BNK.BANK_CTRL[b]` (R446). -/
abbrev BNK_BANK_CTRL (b : Nat) : Nat := 0x10021000 + 8 * b
/-- `BNK.BANK_STATUS[b]` (R446). -/
abbrev BNK_BANK_STATUS (b : Nat) : Nat := 0x10021004 + 8 * b
/-- `BNK.MAP[b]` (R446). -/
abbrev BNK_MAP (b : Nat) : Nat := 0x10022000 + 4 * b
/-- `BNK.PHYS[p] word 0` (R446). -/
abbrev BNK_PHYS_word_0 (p : Nat) : Nat := 0x10023000 + 8 * p
/-- `BNK.PHYS[p] word 1` (R446). -/
abbrev BNK_PHYS_word_1 (p : Nat) : Nat := 0x10023004 + 8 * p
/-- `BNK.COLLIDE[b]` (R446). -/
abbrev BNK_COLLIDE (b : Nat) : Nat := 0x10025000 + 8 * (b - 496)
/-- `HIF.PCI_ID` (R474). -/
abbrev HIF_PCI_ID : Nat := 0x1000A040
/-- `HIF.SUBSYS` (R474). -/
abbrev HIF_SUBSYS : Nat := 0x1000A044
/-- `HIF.LINK` (R474). -/
abbrev HIF_LINK : Nat := 0x1000A048
/-- `HIF.BAR2_BASE` (R474). -/
abbrev HIF_BAR2_BASE : Nat := 0x1000A04C
/-- `HIF.RX_MAP` (R474). -/
abbrev HIF_RX_MAP : Nat := 0x1000A050
/-- `HIF.TX_FRAMES` (R474). -/
abbrev HIF_TX_FRAMES : Nat := 0x1000A060
/-- `HIF.RX_FRAMES` (R474). -/
abbrev HIF_RX_FRAMES : Nat := 0x1000A068
/-- `HIF.LINK_DOWN_ENDS` (R474). -/
abbrev HIF_LINK_DOWN_ENDS : Nat := 0x1000A070
/-- `HIF.RX_ABANDONED` (R474). -/
abbrev HIF_RX_ABANDONED : Nat := 0x1000A074
/-- `HIF.TXR[r]` (R474). -/
abbrev HIF_TXR (r : Nat) : Nat := 0x1000A400 + 64 * r
/-- `HIF.RXR[r]` (R474). -/
abbrev HIF_RXR (r : Nat) : Nat := 0x1000A800 + 64 * r
/-- `HIF.TXR[r].CTRL` (R474). -/
abbrev HIF_TXR_CTRL (r : Nat) : Nat := 0x1000A400 + 64 * r
/-- `HIF.RXR[r].CTRL` (R474). -/
abbrev HIF_RXR_CTRL (r : Nat) : Nat := 0x1000A800 + 64 * r
/-- `HIF.TXR[r].STATUS` (R474). -/
abbrev HIF_TXR_STATUS (r : Nat) : Nat := 0x1000A404 + 64 * r
/-- `HIF.RXR[r].STATUS` (R474). -/
abbrev HIF_RXR_STATUS (r : Nat) : Nat := 0x1000A804 + 64 * r
/-- `HIF.TXR[r].BASE_LO` (R474). -/
abbrev HIF_TXR_BASE_LO (r : Nat) : Nat := 0x1000A408 + 64 * r
/-- `HIF.RXR[r].BASE_LO` (R474). -/
abbrev HIF_RXR_BASE_LO (r : Nat) : Nat := 0x1000A808 + 64 * r
/-- `HIF.TXR[r].BASE_HI` (R474). -/
abbrev HIF_TXR_BASE_HI (r : Nat) : Nat := 0x1000A40C + 64 * r
/-- `HIF.RXR[r].BASE_HI` (R474). -/
abbrev HIF_RXR_BASE_HI (r : Nat) : Nat := 0x1000A80C + 64 * r
/-- `HIF.TXR[r].SIZE` (R474). -/
abbrev HIF_TXR_SIZE (r : Nat) : Nat := 0x1000A410 + 64 * r
/-- `HIF.RXR[r].SIZE` (R474). -/
abbrev HIF_RXR_SIZE (r : Nat) : Nat := 0x1000A810 + 64 * r
/-- `HIF.TXR[r].TAIL` (R474). -/
abbrev HIF_TXR_TAIL (r : Nat) : Nat := 0x1000A414 + 64 * r
/-- `HIF.RXR[r].TAIL` (R474). -/
abbrev HIF_RXR_TAIL (r : Nat) : Nat := 0x1000A814 + 64 * r
/-- `HIF.TXR[r].HEAD` (R474). -/
abbrev HIF_TXR_HEAD (r : Nat) : Nat := 0x1000A418 + 64 * r
/-- `HIF.RXR[r].HEAD` (R474). -/
abbrev HIF_RXR_HEAD (r : Nat) : Nat := 0x1000A818 + 64 * r
/-- `HIF.TXR[r].CR_BASE_LO` (R474). -/
abbrev HIF_TXR_CR_BASE_LO (r : Nat) : Nat := 0x1000A41C + 64 * r
/-- `HIF.RXR[r].CR_BASE_LO` (R474). -/
abbrev HIF_RXR_CR_BASE_LO (r : Nat) : Nat := 0x1000A81C + 64 * r
/-- `HIF.TXR[r].CR_BASE_HI` (R474). -/
abbrev HIF_TXR_CR_BASE_HI (r : Nat) : Nat := 0x1000A420 + 64 * r
/-- `HIF.RXR[r].CR_BASE_HI` (R474). -/
abbrev HIF_RXR_CR_BASE_HI (r : Nat) : Nat := 0x1000A820 + 64 * r
/-- `HIF.TXR[r].IRQ` (R474). -/
abbrev HIF_TXR_IRQ (r : Nat) : Nat := 0x1000A424 + 64 * r
/-- `HIF.RXR[r].IRQ` (R474). -/
abbrev HIF_RXR_IRQ (r : Nat) : Nat := 0x1000A824 + 64 * r
/-- `HIF.TXR[r].LOST_FIRST` (R474). -/
abbrev HIF_TXR_LOST_FIRST (r : Nat) : Nat := 0x1000A428 + 64 * r
/-- `HIF.RXR[r].LOST_FIRST` (R474). -/
abbrev HIF_RXR_LOST_FIRST (r : Nat) : Nat := 0x1000A828 + 64 * r
/-- `HIF.TXR[r].LOST_COUNT` (R474). -/
abbrev HIF_TXR_LOST_COUNT (r : Nat) : Nat := 0x1000A42C + 64 * r
/-- `HIF.RXR[r].LOST_COUNT` (R474). -/
abbrev HIF_RXR_LOST_COUNT (r : Nat) : Nat := 0x1000A82C + 64 * r
/-- `FIQ.FIFO_CFG[f]` (R476). -/
abbrev FIQ_FIFO_CFG (f : Nat) : Nat := 0x10019000 + 16 * f
/-- `FIQ.FIFO_DATA[f]` (R476). -/
abbrev FIQ_FIFO_DATA (f : Nat) : Nat := 0x10019004 + 16 * f
/-- `FIQ.TAG_LAST[f]` (R476). -/
abbrev FIQ_TAG_LAST (f : Nat) : Nat := 0x10019008 + 16 * f
/-- `FIQ.COUNT[f]` (R476). -/
abbrev FIQ_COUNT (f : Nat) : Nat := 0x1001900C + 16 * f
/-- `FIQ.AQ_POST[a]` (R476). -/
abbrev FIQ_AQ_POST (a : Nat) : Nat := 0x1001A000 + 32 * a
/-- `FIQ.AQ_READ[a]` (R476). -/
abbrev FIQ_AQ_READ (a : Nat) : Nat := 0x1001A004 + 32 * a
/-- `FIQ.AQ_LEVEL[a]` (R476). -/
abbrev FIQ_AQ_LEVEL (a : Nat) : Nat := 0x1001A008 + 32 * a
/-- `FIQ.AQ_FLUSH[a]` (R476). -/
abbrev FIQ_AQ_FLUSH (a : Nat) : Nat := 0x1001A00C + 32 * a
/-- `FIQ.FIFO counters` (R476). -/
abbrev FIQ_FIFO_counters (f : Nat) : Nat := 0x1001C000 + 8 * f
/-- `FIQ.Queue counters` (R476). -/
abbrev FIQ_Queue_counters (a : Nat) : Nat := 0x1001C400 + 8 * a
/-- `LCK.LOCK[k]` (R477). -/
abbrev LCK_LOCK (k : Nat) : Nat := 0x10014100 + 4 * k
/-- `LCK.OWNER[k]` (R477). -/
abbrev LCK_OWNER (k : Nat) : Nat := 0x10014400 + 4 * k
/-- `LCK.FORCE_RELEASE` (R477). -/
abbrev LCK_FORCE_RELEASE : Nat := 0x10014600
/-- `LCK.RELEASED_LAST` (R477). -/
abbrev LCK_RELEASED_LAST : Nat := 0x10014604
/-- `MBX[m].LOCK` (R478). -/
abbrev MBX_LOCK (m : Nat) : Nat := 0x10010400 + 128 * m
/-- `MBX[m].CFG` (R478). -/
abbrev MBX_CFG (m : Nat) : Nat := 0x10010404 + 128 * m
/-- `MBX[m].STATUS` (R478). -/
abbrev MBX_STATUS (m : Nat) : Nat := 0x10010408 + 128 * m
/-- `MBX[m].EVENT` (R478). -/
abbrev MBX_EVENT (m : Nat) : Nat := 0x1001040C + 128 * m
/-- `MBX[m].DATA` (R478). -/
abbrev MBX_DATA (m i : Nat) : Nat := 0x10010410 + 128 * m + 4 * i
/-- `MBX[m].HDR` (R478). -/
abbrev MBX_HDR (m : Nat) : Nat := 0x10010430 + 128 * m
/-- `MBX[m].SEND` (R478). -/
abbrev MBX_SEND (m : Nat) : Nat := 0x10010434 + 128 * m
/-- `MBX[m].ACK` (R478). -/
abbrev MBX_ACK (m : Nat) : Nat := 0x10010438 + 128 * m
/-- `MBX[m].RESET` (R478). -/
abbrev MBX_RESET (m : Nat) : Nat := 0x1001043C + 128 * m
/-- `MBX[m].TAG` (R478). -/
abbrev MBX_TAG (m : Nat) : Nat := 0x10010440 + 128 * m
/-- `MBX[m].LAST_TAG` (R478). -/
abbrev MBX_LAST_TAG (m : Nat) : Nat := 0x10010444 + 128 * m
/-- `TNS.TNOW_LO` (R505). -/
abbrev TNS_TNOW_LO : Nat := 0x10100040
/-- `TNS.TNOW_HI` (R505). -/
abbrev TNS_TNOW_HI : Nat := 0x10100044
/-- `TNS.REF_CTRL` (R505). -/
abbrev TNS_REF_CTRL : Nat := 0x10100048
/-- `TNS.REF_STATUS` (R505). -/
abbrev TNS_REF_STATUS : Nat := 0x1010004C
/-- `TNS.SNAP` (R505). -/
abbrev TNS_SNAP : Nat := 0x10100050
/-- `TNS.SNAP_TNOW_LO` (R505). -/
abbrev TNS_SNAP_TNOW_LO : Nat := 0x10100054
/-- `TNS.SNAP_TNOW_HI` (R505). -/
abbrev TNS_SNAP_TNOW_HI : Nat := 0x10100058
/-- `TNS.TB_CTRL[b]` (R505). -/
abbrev TNS_TB_CTRL (b : Nat) : Nat := 0x10100100 + 0x40 * b
/-- `TNS.TB_SEC_LO[b]` (R505). -/
abbrev TNS_TB_SEC_LO (b : Nat) : Nat := 0x10100104 + 0x40 * b
/-- `TNS.TB_SEC_HI[b]` (R505). -/
abbrev TNS_TB_SEC_HI (b : Nat) : Nat := 0x10100108 + 0x40 * b
/-- `TNS.TB_NS[b]` (R505). -/
abbrev TNS_TB_NS (b : Nat) : Nat := 0x1010010C + 0x40 * b
/-- `TNS.TB_FRAC[b]` (R505). -/
abbrev TNS_TB_FRAC (b : Nat) : Nat := 0x10100110 + 0x40 * b
/-- `TNS.RATE[b]` (R505). -/
abbrev TNS_RATE (b : Nat) : Nat := 0x10100114 + 0x40 * b
/-- `TNS.ARG_SEC_LO[b]` (R505). -/
abbrev TNS_ARG_SEC_LO (b : Nat) : Nat := 0x10100118 + 0x40 * b
/-- `TNS.ARG_SEC_HI[b]` (R505). -/
abbrev TNS_ARG_SEC_HI (b : Nat) : Nat := 0x1010011C + 0x40 * b
/-- `TNS.ARG_NS[b]` (R505). -/
abbrev TNS_ARG_NS (b : Nat) : Nat := 0x10100120 + 0x40 * b
/-- `TNS.ARG_SLEW_NS[b]` (R505). -/
abbrev TNS_ARG_SLEW_NS (b : Nat) : Nat := 0x10100124 + 0x40 * b
/-- `TNS.ADJ_CMD[b]` (R505). -/
abbrev TNS_ADJ_CMD (b : Nat) : Nat := 0x10100128 + 0x40 * b
/-- `TNS.ADJ_STATUS[b]` (R505). -/
abbrev TNS_ADJ_STATUS (b : Nat) : Nat := 0x1010012C + 0x40 * b
/-- `TNS.SNAP_SEC_LO` (R505). -/
abbrev TNS_SNAP_SEC_LO (b : Nat) : Nat := 0x10100130 + 0x40 * b
/-- `TNS.SNAP_SEC_HI` (R505). -/
abbrev TNS_SNAP_SEC_HI (b : Nat) : Nat := 0x10100134 + 0x40 * b
/-- `TNS.SNAP_NS` (R505). -/
abbrev TNS_SNAP_NS (b : Nat) : Nat := 0x10100138 + 0x40 * b
/-- `TNS.SNAP_FRAC` (R505). -/
abbrev TNS_SNAP_FRAC (b : Nat) : Nat := 0x1010013C + 0x40 * b
/-- `TNS.OUT_CTRL[i]` (R505). -/
abbrev TNS_OUT_CTRL (i : Nat) : Nat := 0x10100200 + 32 * i
/-- `TNS.OUT_START_SEC_LO[i]` (R505). -/
abbrev TNS_OUT_START_SEC_LO (i : Nat) : Nat := 0x10100204 + 32 * i
/-- `TNS.OUT_START_SEC_HI[i]` (R505). -/
abbrev TNS_OUT_START_SEC_HI (i : Nat) : Nat := 0x10100208 + 32 * i
/-- `TNS.OUT_START_NS[i]` (R505). -/
abbrev TNS_OUT_START_NS (i : Nat) : Nat := 0x1010020C + 32 * i
/-- `TNS.OUT_PERIOD[i]` (R505). -/
abbrev TNS_OUT_PERIOD (i : Nat) : Nat := 0x10100210 + 32 * i
/-- `TNS.OUT_WIDTH[i]` (R505). -/
abbrev TNS_OUT_WIDTH (i : Nat) : Nat := 0x10100214 + 32 * i
/-- `TNS.OUT_STATUS[i]` (R505). -/
abbrev TNS_OUT_STATUS (i : Nat) : Nat := 0x10100218 + 32 * i
/-- `TNS.PPS_CTRL[j]` (R505). -/
abbrev TNS_PPS_CTRL (j : Nat) : Nat := 0x10100300 + 16 * j
/-- `TNS.PPS_WIDTH[j]` (R505). -/
abbrev TNS_PPS_WIDTH (j : Nat) : Nat := 0x10100304 + 16 * j
/-- `TNS.PPS_OFFSET[j]` (R505). -/
abbrev TNS_PPS_OFFSET (j : Nat) : Nat := 0x10100308 + 16 * j
/-- `TNS.CAP_CTRL[i]` (R505). -/
abbrev TNS_CAP_CTRL (i : Nat) : Nat := 0x10100400 + 32 * i
/-- `TNS.CAP_STATUS[i]` (R505). -/
abbrev TNS_CAP_STATUS (i : Nat) : Nat := 0x10100404 + 32 * i
/-- `TNS.CAP_NS[i]` (R505). -/
abbrev TNS_CAP_NS (i : Nat) : Nat := 0x10100408 + 32 * i
/-- `TNS.CAP_SEC_LO` (R505). -/
abbrev TNS_CAP_SEC_LO (i : Nat) : Nat := 0x1010040C + 32 * i
/-- `TNS.CAP_SEC_HI` (R505). -/
abbrev TNS_CAP_SEC_HI (i : Nat) : Nat := 0x10100410 + 32 * i
/-- `TNS.CAP_FRAC` (R505). -/
abbrev TNS_CAP_FRAC (i : Nat) : Nat := 0x10100414 + 32 * i
/-- `TNS.CAP_TNOW_LO` (R505). -/
abbrev TNS_CAP_TNOW_LO (i : Nat) : Nat := 0x10100418 + 32 * i
/-- `TNS.CAP_TNOW_HI` (R505). -/
abbrev TNS_CAP_TNOW_HI (i : Nat) : Nat := 0x1010041C + 32 * i
/-- `TNS.TSR_BASE` (R505). -/
abbrev TNS_TSR_BASE : Nat := 0x10100600
/-- `TNS.TSR_SIZE` (R505). -/
abbrev TNS_TSR_SIZE : Nat := 0x10100604
/-- `TNS.TSR_HEAD` (R505). -/
abbrev TNS_TSR_HEAD : Nat := 0x10100608
/-- `TNS.TSR_TAIL` (R505). -/
abbrev TNS_TSR_TAIL : Nat := 0x1010060C
/-- `TNS.TSR_LOST` (R505). -/
abbrev TNS_TSR_LOST : Nat := 0x10100610
/-- `TNS.TS_CFG[p]` (R505). -/
abbrev TNS_TS_CFG (p : Nat) : Nat := 0x10100800 + 4 * p
/-- `TNS.TS_PDELAY[p]` (R505). -/
abbrev TNS_TS_PDELAY (p : Nat) : Nat := 0x10100B00 + 4 * p
/-- `TNS.TS_RX_RECORDS` (R505). -/
abbrev TNS_TS_RX_RECORDS : Nat := 0x10100E00
/-- `TNS.TS_TX_RECORDS` (R505). -/
abbrev TNS_TS_TX_RECORDS : Nat := 0x10100E08
/-- `TNS.ONE_STEP_DONE` (R505). -/
abbrev TNS_ONE_STEP_DONE : Nat := 0x10100E10
/-- `TNS.TC_UPDATES` (R505). -/
abbrev TNS_TC_UPDATES : Nat := 0x10100E18
/-- `TNS.TS_NOMOD` (R505). -/
abbrev TNS_TS_NOMOD : Nat := 0x10100E20
/-- `TNS.CAP_LOST[i]` (R505). -/
abbrev TNS_CAP_LOST (i : Nat) : Nat := 0x10100E40 + 4 * i
/-- `PWR.STATE_REQ` (R537). -/
abbrev PWR_STATE_REQ : Nat := 0x10002040
/-- `PWR.STATUS` (R537). -/
abbrev PWR_STATUS : Nat := 0x10002044
/-- `PWR.WAKE_EN_DOZE` (R537). -/
abbrev PWR_WAKE_EN_DOZE : Nat := 0x10002048
/-- `PWR.WAKE_EN_DEEP` (R537). -/
abbrev PWR_WAKE_EN_DEEP : Nat := 0x1000204C
/-- `PWR.WAKE_INFO` (R537). -/
abbrev PWR_WAKE_INFO : Nat := 0x10002050
/-- `PWR.WAKE_PIN_CFG` (R537). -/
abbrev PWR_WAKE_PIN_CFG : Nat := 0x10002054
/-- `PWR.PIO_WAKE_CFG` (R537). -/
abbrev PWR_PIO_WAKE_CFG : Nat := 0x10002058
/-- `PWR.SUPPLY_STATUS` (R537). -/
abbrev PWR_SUPPLY_STATUS : Nat := 0x1000205C
/-- `PWR.PAD_HOLD` (R537). -/
abbrev PWR_PAD_HOLD : Nat := 0x10002060
/-- `PWR.PAD_RELEASE` (R537). -/
abbrev PWR_PAD_RELEASE : Nat := 0x10002064
/-- `PWR.DOM_ON_LO` (R537). -/
abbrev PWR_DOM_ON_LO : Nat := 0x10002068
/-- `PWR.DOM_ON_HI` (R537). -/
abbrev PWR_DOM_ON_HI : Nat := 0x1000206C
/-- `PWR.PORTGRP_REQ` (R537). -/
abbrev PWR_PORTGRP_REQ : Nat := 0x10002070
/-- `PWR.CAP` (R537). -/
abbrev PWR_CAP : Nat := 0x10002074
/-- `PWR.EST` (R537). -/
abbrev PWR_EST : Nat := 0x10002078
/-- `PWR.RESTORE_MARGIN` (R537). -/
abbrev PWR_RESTORE_MARGIN : Nat := 0x1000207C
/-- `PWR.SHAPE_CFG` (R537). -/
abbrev PWR_SHAPE_CFG : Nat := 0x10002080
/-- `PWR.PAUSE_ALLOW[w]` (R537). -/
abbrev PWR_PAUSE_ALLOW (w : Nat) : Nat := 0x10002084 + 4 * w
/-- `PWR.SCHED_STATUS` (R537). -/
abbrev PWR_SCHED_STATUS : Nat := 0x100020A0
/-- `PWR.QUIESCE_US` (R537). -/
abbrev PWR_QUIESCE_US : Nat := 0x100020B0
/-- `PWR.RETAIN_TMAX` (R537). -/
abbrev PWR_RETAIN_TMAX : Nat := 0x100020B4
/-- `PWR.RTC_SEC_LO` (R537). -/
abbrev PWR_RTC_SEC_LO : Nat := 0x100020C0
/-- `PWR.RTC_SEC_HI` (R537). -/
abbrev PWR_RTC_SEC_HI : Nat := 0x100020C4
/-- `PWR.RTC_SUB` (R537). -/
abbrev PWR_RTC_SUB : Nat := 0x100020C8
/-- `PWR.RTC_ALARM_LO` (R537). -/
abbrev PWR_RTC_ALARM_LO : Nat := 0x100020CC
/-- `PWR.RTC_ALARM_HI` (R537). -/
abbrev PWR_RTC_ALARM_HI : Nat := 0x100020D0
/-- `PWR.RES_STATE[s]` (R537). -/
abbrev PWR_RES_STATE (s : Nat) : Nat := 0x10002100 + 8 * s
/-- `PWR.RES_CLUSTER[c][k]` (R537). -/
abbrev PWR_RES_CLUSTER (c k : Nat) : Nat := 0x10002200 + 32 * c + 8 * k
/-- `CLK.PLL_STATUS` (R539). -/
abbrev CLK_PLL_STATUS : Nat := 0x10001040
/-- `CLK.LANE_LOCK` (R539). -/
abbrev CLK_LANE_LOCK : Nat := 0x10001044
/-- `CLK.IDLE_GATE` (R539). -/
abbrev CLK_IDLE_GATE : Nat := 0x10001048
/-- `CLK.CLUSTER_STEP[c]` (R539). -/
abbrev CLK_CLUSTER_STEP (c : Nat) : Nat := 0x10001100 + 4 * c
/-- `CLK.STEP_CHANGES` (R539). -/
abbrev CLK_STEP_CHANGES : Nat := 0x10001180
/-- `CLK.STEP_REFUSED` (R539). -/
abbrev CLK_STEP_REFUSED : Nat := 0x10001188
/-- `TMP.LIMIT` (R540). -/
abbrev TMP_LIMIT : Nat := 0x10003040
/-- `TMP.MAX` (R540). -/
abbrev TMP_MAX : Nat := 0x10003044
/-- `TMP.GAIN` (R540). -/
abbrev TMP_GAIN : Nat := 0x10003048
/-- `TMP.ALARM` (R540). -/
abbrev TMP_ALARM : Nat := 0x1000304C
/-- `TMP.TRIP_STATUS` (R540). -/
abbrev TMP_TRIP_STATUS : Nat := 0x10003050
/-- `TMP.SENSOR[i]` (R540). -/
abbrev TMP_SENSOR (i : Nat) : Nat := 0x10003100 + 4 * i
/-- `MGT.ADDR` (R541). -/
abbrev MGT_ADDR : Nat := 0x1000B040
/-- `MGT.CFG` (R541). -/
abbrev MGT_CFG : Nat := 0x1000B044
/-- `MGT.STATUS` (R541). -/
abbrev MGT_STATUS : Nat := 0x1000B048
/-- `MGT.RX_DATA` (R541). -/
abbrev MGT_RX_DATA : Nat := 0x1000B04C
/-- `MGT.TX_DATA` (R541). -/
abbrev MGT_TX_DATA : Nat := 0x1000B050
/-- `MGT.LEVEL` (R541). -/
abbrev MGT_LEVEL : Nat := 0x1000B054
/-- `MGT.NACKED` (R541). -/
abbrev MGT_NACKED : Nat := 0x1000B058
/-- `SYS.TELEM_BASE` (R550). -/
abbrev SYS_TELEM_BASE : Nat := 0x100000A0
/-- `SYS.TELEM_SEQ` (R550). -/
abbrev SYS_TELEM_SEQ : Nat := 0x100000A4
/-- `ATB.SEL0` (R553). -/
abbrev ATB_SEL0 : Nat := 0x1000C040
/-- `ATB.SEL1` (R553). -/
abbrev ATB_SEL1 : Nat := 0x1000C044
/-- `ATB.STATUS` (R553). -/
abbrev ATB_STATUS : Nat := 0x1000C048
/-- `ATB.REFUSED` (R553). -/
abbrev ATB_REFUSED : Nat := 0x1000C04C

end Sys2Proof.Machine.Reg
end

