-- ==== Sys2Proof/Machine/Pages.lean ====
section
/-! DEFINITION. The register pages: which block a page belongs to (R44), the reset value of every
register the spec gives a value other than zero, and which bits of each register software writes. -/

namespace Sys2Proof.Machine

/-- The blocks that own register pages (R44). -/
inductive Blk where
  | SYS | CLK | PWR | TMP | INT | SEC | VLT | HIF | MGT | ATB | PLC | MBX | LCK | FIQ | BNK | SWC | FDB | IMG | TNS
  | MAC | SDS | MDB | PLK | PTC | PEN
  deriving DecidableEq, Repr

/-- The block type code of `BLK_ID[31:16]` (R44). -/
def blkCode (b : Blk) : Nat :=
  match b with
  | .SYS => 1 | .CLK => 2 | .PWR => 3 | .TMP => 4 | .INT => 5 | .SEC => 6 | .VLT => 7 | .HIF => 8 | .MGT => 9
  | .ATB => 0xA | .PLC => 0xB | .MBX => 0xC | .LCK => 0xD | .FIQ => 0xE | .BNK => 0xF | .SWC => 0x10 | .FDB => 0x11
  | .IMG => 0x12 | .TNS => 0x13 | .MAC => 0x20 | .SDS => 0x21 | .MDB => 0x22 | .PLK => 0x23 | .PTC => 0x24
  | .PEN => 0x25

/-- One block's register space: its block, its number among the block's instances, the address of its header. -/
structure Page where
  blk : Blk
  inst : Nat
  base : Nat
  deriving DecidableEq, Repr

/-- The block whose pages hold an address, if the address lies in a populated register page (R44). -/
def pageOf (a : Nat) : Option Page :=
  if a < 0x10000000 ∨ 0x14000000 ≤ a then none else
  let p := (a - 0x10000000) / 0x1000
  if p = 0 then some ⟨.SYS, 0, Reg.SYS⟩
  else if p = 1 then some ⟨.CLK, 0, Reg.CLK⟩
  else if p = 2 then some ⟨.PWR, 0, Reg.PWR⟩
  else if p = 3 then some ⟨.TMP, 0, Reg.TMP⟩
  else if p < 8 then some ⟨.INT, 0, Reg.INT⟩
  else if p = 8 then some ⟨.SEC, 0, Reg.SEC⟩
  else if p = 9 then some ⟨.VLT, 0, Reg.VLT⟩
  else if p = 0xA then some ⟨.HIF, 0, Reg.HIF⟩
  else if p = 0xB then some ⟨.MGT, 0, Reg.MGT⟩
  else if p = 0xC then some ⟨.ATB, 0, Reg.ATB⟩
  else if p < 0xF then some ⟨.PLC, 0, Reg.PLC⟩
  else if p < 0x10 then none
  else if p < 0x14 then some ⟨.MBX, 0, Reg.MBX⟩
  else if p = 0x14 then some ⟨.LCK, 0, Reg.LCK⟩
  else if p < 0x18 then none
  else if p < 0x20 then some ⟨.FIQ, 0, Reg.FIQ⟩
  else if p < 0x40 then some ⟨.BNK, 0, Reg.BNK⟩
  else if p < 0x80 then some ⟨.SWC, 0, Reg.SWC⟩
  else if p < 0xC0 then some ⟨.FDB, 0, Reg.FDB⟩
  else if p < 0x100 then some ⟨.IMG, 0, Reg.IMG⟩
  else if p = 0x100 then some ⟨.TNS, 0, Reg.TNS⟩
  else if 0x200 ≤ p ∧ p < 0x2C0 then some ⟨.MAC, p - 0x200, Reg.MAC (p - 0x200)⟩
  else if 0x300 ≤ p ∧ p < 0x33C then some ⟨.SDS, p - 0x300, Reg.SDS (p - 0x300)⟩
  else if 0x400 ≤ p ∧ p < 0x430 then some ⟨.MDB, p - 0x400, Reg.MDB (p - 0x400)⟩
  else if 0x500 ≤ p ∧ p < 0x510 then some ⟨.PLK, p - 0x500, Reg.PLK (p - 0x500)⟩
  else if 0x600 ≤ p ∧ p < 0x640 then some ⟨.PTC, p - 0x600, Reg.PTC (p - 0x600)⟩
  else if 0x700 ≤ p ∧ p < 0x734 then some ⟨.PEN, p - 0x700, Reg.PEN (p - 0x700)⟩
  else none

/-- The number of bytes a block instance's pages span (R44). -/
def blkSpan (b : Blk) : Nat :=
  match b with
  | .INT | .MBX => 0x4000
  | .PLC => 0x2000
  | .FIQ => 0x8000
  | .BNK => 0x20000
  | .SWC | .FDB | .IMG => 0x40000
  | _ => 0x1000

/-- `BLK_CAPS` of each block (the block chapters; ATB and others that give none: 0). -/
def blkCaps (b : Blk) (inst : Nat) : Nat :=
  match b with
  | .SYS => 0x104 | .CLK => 0x810 | .PWR => 0x220A0A | .TMP => 0x18 | .INT => 0x04000040 | .SEC => 0x25
  | .VLT => 0x01000400 | .HIF => 0x40001010 | .MGT => 0x1010 | .ATB => 0 | .PLC => 0x302010
  | .MBX => 0x40 | .LCK => 0x80 | .FIQ => 0x400010 | .BNK => 0x02100010 | .SWC => 0x000800E0 | .FDB => 0x00044000
  | .IMG => 0x18200420 | .TNS => 0x04080822 | .MAC => if inst < 176 then 1 else 2
  | .SDS => if inst < 44 then 2 else 0x3C
  | .MDB => 0x34020 | .PLK => 0x44008 | .PTC => 0x20004080 | .PEN => 0x400080

/-- The bits of `IRQ_STATUS` and `IRQ_ENABLE` that a block's chapter gives a meaning; the others are reserved and read as 0
(R8, and each block's interrupt rule). A mailbox page has none. -/
def irqMask (b : Blk) : Nat :=
  match b with
  | .SYS | .PWR => 0x7F | .CLK | .INT | .LCK | .FDB => 7 | .TMP | .ATB => 3 | .SEC | .MGT | .FIQ | .SDS => 0xF
  | .VLT | .MAC => 0x3F | .HIF | .PEN => 0x1F | .PLC | .PTC => 0xFF | .MBX => 0 | .BNK => 0x3FF | .SWC => 0x7FF
  | .IMG => 0xFFF | .TNS => 0xFFFF | .MDB => 0x1FFF | .PLK => 0x00FF3FFF

end Sys2Proof.Machine
end

