-- ==== Sys2Proof/Machine/RegDesc.lean ====
section
/-! DEFINITION. What software may do to each register that has no command of its own: the value it has
at reset and the bits that are RW, RWL, W1C, W1S and SSP-only (the register tables; codes of R7).
A register that is not listed here reads the value hardware keeps in it and ignores writes. -/

namespace Sys2Proof.Machine

/-- Reset value and write masks of one register. `rwl` and `ssp` are subsets of the bits that `rw`, `w1c` or `w1s` names. -/
structure RDesc where
  rst : Nat := 0
  rw : Nat := 0
  w1c : Nat := 0
  w1s : Nat := 0
  rwl : Nat := 0
  ssp : Nat := 0
  deriving DecidableEq, Repr

/-- A read-only register with reset value `v`. -/
def roReg (v : Nat) : RDesc := { rst := v }

/-- An RW register: reset value and writable bits. -/
def rwReg (v m : Nat) : RDesc := { rst := v, rw := m }

/-- An RWL register: writable until the page's `CFG_LOCK` is written (R7). -/
def rwlReg (v m : Nat) : RDesc := { rst := v, rw := m, rwl := m }

/-- An RW register of which only the SSP writes the bits `p` (R54, R55). -/
def sspReg (v m p : Nat) : RDesc := { rst := v, rw := m, ssp := p }

/-- A W1C register. -/
def w1cReg (m : Nat) : RDesc := { w1c := m }

/-- All 32 bits. -/
abbrev m32 : Nat := 0xFFFFFFFF

/-- Whether `off` is element `0 … n-1` of an array at `o` with stride `st`. -/
def inArr (off o st n : Nat) : Bool :=
  decide (o ≤ off) && decide (off < o + st * n) && decide ((off - o) % st = 0)

/-- The index of `off` in an array at `o` with stride `st`. -/
def arrIx (off o st : Nat) : Nat := (off - o) / st

/-- `BLK_CTRL.EN` at reset (R46). -/
def enReset (b : Blk) : Nat :=
  match b with
  | .SYS | .CLK | .PWR | .TMP | .INT | .SEC | .VLT | .MGT | .BNK => 1
  | _ => 0

/-- The common header (R46). `BLK_CTRL` has its own write rule (R47, R48); it is listed for its reset value. -/
def descHdr (b : Blk) (inst off : Nat) : RDesc :=
  if off = 0x000 then roReg (blkCode b * 65536 + inst * 256 + (if b = .SYS then 0xA1 else 1))
  else if off = 0x004 then roReg (blkCaps b inst)
  else if off = 0x008 then rwReg (enReset b) 0xF
  else if off = 0x014 then rwReg 0 (irqMask b)
  else if off = 0x018 then w1cReg (irqMask b)
  else if off = 0x020 then w1cReg 0x80000000
  else if off = 0x028 then { w1s := 1 }
  else if off = 0x030 then rwReg 0 0x2
  else {}

/-- SYS registers (R87, R550). -/
def descSYS (off : Nat) : RDesc :=
  if off = 0x040 then roReg 0x00010001
  else if off = 0x058 then rwReg 0 m32
  else if off = 0x05C then rwReg 0 m32
  else if off = 0x0A0 then rwReg 0 m32
  else {}

/-- SEC registers: the reset write policy of R57. -/
def descSEC (off : Nat) : RDesc :=
  if inArr off 0x100 4 0x26 then
    let t := arrIx off 0x100 4
    if t = 6 ∨ t = 7 ∨ t = 0x12 then roReg 2
    else if t = 1 ∨ t = 2 ∨ t = 4 ∨ t = 9 ∨ t = 0xF ∨ t = 0x25 then sspReg 0xE 0xD 0xD
    else if t = 0xA then sspReg 0xA 0xD 0xD
    else if t = 3 ∨ t = 5 ∨ t = 8 ∨ (0xB ≤ t ∧ t ≤ 0xE) ∨ t = 0x10 ∨ t = 0x11 ∨ t = 0x13 ∨ (0x20 ≤ t ∧ t ≤ 0x24) then
      sspReg 0xF 0xD 0xD
    else {}
  else {}

/-- INT registers (R59, R61); the MSI-X vector control word resets masked, as PCI Express states. Log entry 17 (PRESUMED). -/
def descINT (off : Nat) : RDesc :=
  if inArr off 0x100 4 32 then rwReg 0 m32
  else if inArr off 0x1000 4 1024 then
    let n := arrIx off 0x1000 4
    if (616 ≤ n ∧ n ≤ 631) ∨ n = 653 ∨ n = 654 then rwReg 0x80000003 0x00073F07
    else if n < 768 then rwReg 2 0x00073F07
    else rwReg 0 0x00073F07
  else if inArr off 0x3000 4 256 then
    if off % 16 = 12 then rwReg 1 1 else if off % 16 = 0 then rwReg 0 0xFFFFFFFC else rwReg 0 m32
  else {}

/-- PWR registers (R537). -/
def descPWR (off : Nat) : RDesc :=
  if off = 0x048 then rwReg 0 0x3FFF
  else if off = 0x04C then rwReg 0 0x3FF
  else if off = 0x054 then rwReg 0x5555 0xFFFF
  else if off = 0x058 then rwReg 0 m32
  else if off = 0x068 then roReg 0xFFFFFFFF
  else if off = 0x06C then roReg 3
  else if off = 0x070 then rwReg 0xFF 0xFF
  else if off = 0x074 then rwReg 0xCB20 0xFFFF
  else if off = 0x07C then rwReg 0x3E8 0xFFFF
  else if off = 0x080 then rwReg 0x00100004 0x1F
  else if inArr off 0x084 4 6 then rwReg 0 m32
  else if off = 0x0B0 then rwReg 0x2710 0xFFFF
  else if off = 0x0B4 then rwReg 0x5A 0xFF
  else if off = 0x0C4 then rwReg 0 0xFFFF
  else if off = 0x0CC then rwReg 0 m32
  else if off = 0x0D0 then rwReg 0 0xFFFF
  else {}

/-- CLK registers (R539). -/
def descCLK (off : Nat) : RDesc :=
  if off = 0x048 then rwReg 1 1
  else if inArr off 0x100 4 16 then rwReg 0 0x3
  else {}

/-- TMP registers (R540), with the reset values of the Industrial grade. Log entry 16 (DESIGN CHOICE). -/
def descTMP (off : Nat) : RDesc :=
  if off = 0x040 then rwReg 0x69 0xFF
  else if off = 0x048 then rwReg 0x1F4 0xFFFF
  else if off = 0x04C then rwReg 0x6E 0xFF
  else if off = 0x050 then roReg 1
  else {}

/-- MGT registers (R541). Log entry 15 (DESIGN CHOICE). -/
def descMGT (off : Nat) : RDesc :=
  if off = 0x040 then rwlReg 0x58 0x7F
  else if off = 0x044 then rwReg 0x03E80001 0x03FF0001
  else if off = 0x048 then { w1s := 0x80000000 }
  else {}

/-- SWC registers (R139, R140). Staging words are per master and have their own rule. -/
def descSWC (off : Nat) : RDesc :=
  if off = 0x048 then rwReg 0 0x7FFFF
  else if off = 0x050 then rwReg 0x66666666 m32
  else if off = 0x054 then rwReg 0x400 0x3FFF
  else if inArr off 0x060 4 8 then rwReg 0 0xFFFF
  else if off = 0x080 then rwReg 0 m32
  else if off = 0x084 then rwReg 0 0x1FFFF
  else if off = 0x08C then rwReg 0 0xFFFF
  else if off = 0x090 then rwReg 0 m32
  else if off = 0x0A0 then rwReg 0 m32
  else if off = 0x0A4 then rwReg 0 0x1FFFF
  else if off = 0x0AC then rwReg 0 0xFFFF
  else if inArr off 0x1000 4 (8 * 224) then
    let p := (off - 0x1000) / 32
    match (off - 0x1000) / 4 % 8 with
    | 0 =>
      if p = 209 then sspReg 0x100 0x007FFF17 0x3
      else if p < 192 then sspReg 0x100 0x007FFF1F 0x8 else rwReg 0x100 0x007FFF17
    | 1 => rwReg 0x76543210 0x77777777
    | 2 => rwReg 0 m32
    | 3 => rwReg 0x00400000 0x03FFFFFF
    | 4 => rwReg 0xFF 0xFF
    | 5 => rwReg 0x01010101 m32
    | 6 => rwReg 0x01010101 m32
    | _ => {}
  else if inArr off 0x10000 4 (128 * 224) then
    if off / 4 % 2 = 0 then rwReg 0 0xFF else rwReg 0 m32
  else if inArr off 0x2C000 4 (8 * 224) then
    match (off - 0x2C000) / 4 % 8 with
    | 0 => { rst := 0, rw := 0xC3F3F, w1s := 0x20000 }
    | 1 => rwReg 0x000F4240 m32
    | 2 => rwReg 0 0x3FFFFFFF
    | 3 => rwReg 0 m32
    | 4 => rwReg 0 m32
    | _ => {}
  else {}

/-- FDB registers (R142). -/
def descFDB (off : Nat) : RDesc :=
  if off = 0x05C then rwlReg 0 0xFFF
  else if off = 0x060 then rwReg 0 0xFFFF
  else if off = 0x068 then rwReg 0 0x3
  else {}

/-- IMG registers (R184). -/
def descIMG (off : Nat) : RDesc :=
  if off = 0x040 then rwReg 0x88B5 0xFFFF
  else if off = 0x044 then { w1s := 3 }
  else if off = 0x04C then rwReg 0x200 0xFFF
  else if off = 0x050 then rwReg 0x64 0xFFFF
  else if off = 0x054 then roReg 1
  else if off = 0x058 then rwReg 0x88B6 0xFFFF
  else if off = 0x05C then rwReg 0 0x00070FFF
  else if off = 0x060 then rwReg 0 m32
  else if off = 0x064 then rwReg 0 0xFFFF
  else if off = 0x068 then rwReg 0x600 0xFFF
  else if off = 0x06C then rwReg 8 0x1F
  else if off = 0x080 then rwReg 0 m32
  else if off = 0x084 then rwReg 0 0x1FFFF
  else if inArr off 0x140 4 12 then rwReg 0 m32
  else if inArr off 0x1C0 4 18 then rwReg 0 m32
  else if off = 0x240 then rwReg 0 0xF
  else {}

/-- VLT registers (R209). Log entry 14 (DESIGN CHOICE). -/
def descVLT (off : Nat) : RDesc :=
  if off = 0x050 then roReg 8640000
  else if off = 0x054 then rwReg 0xA 0xFFFF
  else if off = 0x078 then rwReg 0 m32
  else if off = 0x07C then rwReg 0 m32
  else if off = 0x090 then rwReg 0 0xFFFFFFF0
  else if off = 0x094 then rwReg 0 0x1FFFF
  else {}

/-- MAC registers (R243). -/
def descMAC (off : Nat) : RDesc :=
  if off = 0x040 then rwReg 0 0xB
  else if off = 0x044 then rwReg 0x5DC 0x3FFF
  else if off = 0x04C then rwReg 0 m32
  else if off = 0x050 then rwReg 0 0xFFFF
  else if off = 0x054 then rwReg 0xFFFF0002 0xFFFF0007
  else if off = 0x058 then rwReg 0 0x7FFFF
  else if off = 0x05C then rwReg 0 0x7FFFF
  else if off = 0x064 then rwReg 0x030A0002 0x077FFF03
  else if off = 0x06C then rwReg 0x03E80000 0xFFFF0001
  else if off = 0x070 then rwReg 0x00110011 m32
  else if off = 0x074 ∨ off = 0x078 ∨ off = 0x07C then rwReg 0 m32
  else if off = 0x080 then rwReg 0 0xB8FF000F
  else if off = 0x084 then rwReg 0 m32
  else if off = 0x088 then rwReg 0 0xFFFF
  else if off = 0x08C then rwReg 0x190 0xFFFF
  else if off = 0x0A4 then rwReg 0 0x1F
  else if off = 0x0A8 then w1cReg 0x1F
  else {}

/-- SDS registers (R246). Log entry 18 (DESIGN CHOICE). -/
def descSDS (inst off : Nat) : RDesc :=
  if off = 0x040 then rwReg (if inst < 44 then 1 else 0) 0x7
  else if off = 0x044 then rwReg 1 1
  else if off = 0x04C then rwReg 0 3
  else if off = 0x050 then rwReg 0 0xFFFF
  else if off = 0x054 then rwReg 0 3
  else if off = 0x058 then rwReg 0 0xF
  else if 4 ≤ inst then {}
  else if off = 0x200 then rwReg 0x4F 0x1FF
  else if off = 0x214 then rwReg 0 1
  else if off = 0x218 then w1cReg 1
  else {}

/-- BNK registers (R446). Log entry 157 (DESIGN CHOICE). -/
def descBNK (off : Nat) : RDesc :=
  if off = 0x04C then rwReg 0x3C 0x1FFFF
  else if off = 0x054 then rwReg 4 0x3F
  else if off = 0x058 then rwReg 0x10 0x7F
  else if off = 0x05C then rwReg 0x10 0xFFFF
  else if off = 0x060 then w1cReg 0x80000000
  else if inArr off 0x1000 8 512 then
    rwReg (if arrIx off 0x1000 8 < 496 then 0 else 0x07000010) 0x0F3F0312
  else if inArr off 0x2000 4 512 then roReg (arrIx off 0x2000 4)
  else if inArr off 0x3004 8 528 then
    let p := arrIx off 0x3004 8
    roReg (if p < 512 then 0x80000000 + p * 65536 else 0x03FF0000)
  else {}

/-- PLK registers (R309). The fields of R292 are writable only in CONFIG (`plkWrite`). -/
def descPLK (off : Nat) : RDesc :=
  if off = 0x040 then rwlReg 0 0x73F
  else if off = 0x044 then rwlReg 0x0FA000FA 0xFFFF07FF
  else if off = 0x048 then rwlReg 0x01900604 m32
  else if off = 0x04C then rwlReg 0 0x07FF07FF
  else if inArr off 0x050 4 4 then rwlReg 0 m32
  else if inArr off 0x060 4 4 then rwlReg 0 0x007FFFFF
  else if off = 0x070 then rwReg 0x1388 0xFFFF
  else if off = 0x074 then sspReg 0 1 1
  else if off = 0x098 then rwReg 0 1
  else if off = 0x0A0 ∨ off = 0x0B0 then rwReg 0 0xFFFFFF00
  else if off = 0x0A4 ∨ off = 0x0B4 then rwReg 0 0x1FFF
  else if inArr off 0x100 8 8 then rwReg 0 0xFEFFFFFF
  else if inArr off 0x400 4 256 then { rw := m32, rwl := m32, ssp := m32 }
  else if inArr off 0x800 4 512 then
    if off / 4 % 2 = 0 then rwlReg 0 m32 else rwlReg 0 m32
  else {}

/-- MDB registers (R328). The configuration registers have their own write rule (`mdbCfgWrite`). -/
def descMDB (off : Nat) : RDesc :=
  if off = 0x040 then rwReg 0x10 0x17B
  else if off = 0x044 then rwReg 0x008F0F3E 0xFFFF7FFF
  else if off = 0x048 then rwReg 0x771E 0x801FFF1F
  else if off = 0x04C then rwReg 0x00200000 0x007F007F
  else if off = 0x050 then sspReg 0 1 1
  else if off = 0x068 then rwReg 5 0x3F
  else if off = 0x070 ∨ off = 0x080 then rwReg 0 0xFFFFFF80
  else if off = 0x074 ∨ off = 0x084 then rwReg 0 0x1FFF
  else if inArr off 0x100 4 128 then
    if off / 4 % 2 = 0 then rwReg 0 m32 else rwReg 0 0x9FFFFFFF
  else {}

/-- PTC registers (R348). `CTRL`, `T`, `OWN` and the registers of R345 have their own write rules. -/
def descPTC (off : Nat) : RDesc :=
  if off = 0x040 then { rw := 0x001F1F01, w1s := 0 }
  else if off = 0x048 then rwReg 0x1F00 0x1F1F
  else if off = 0x04C then rwReg 0x20020000 0x3F13F303
  else if off = 0x050 then rwReg 0 0x7F7F7F7F
  else if off = 0x054 then rwReg 0 0x73F
  else if off = 0x058 then rwReg 0 m32
  else if off = 0x074 then sspReg 0 1 1
  else if off = 0x07C then rwReg 0 3
  else if off = 0x080 then rwReg 0 0xFFFFFF00
  else if off = 0x084 then rwReg 0 0x1FFF
  else if off = 0x090 then rwReg 0xFFFFFFFF m32
  else if inArr off 0x0A0 4 4 then rwReg 0 m32
  else if inArr off 0x100 4 32 then rwReg 0 0xFFFF
  else {}

/-- HIF registers (R474). Ring registers have their own write rule (`hifWrite`). Log entry 15 (DESIGN CHOICE). -/
def descHIF (off : Nat) : RDesc :=
  if off = 0x040 then roReg 0x91920000
  else if off = 0x044 then rwlReg 0 m32
  else if off = 0x04C then rwReg 0 0x1FF
  else if off = 0x050 then rwReg 0x76543210 m32
  else if inArr off 0x400 4 512 then
    match off / 4 % 16 with
    | 0 => rwReg 0 0xFFFFFF01
    | 2 => rwReg 0 0xFFFFFFE0
    | 3 => rwReg 0 m32
    | 4 => rwReg 0 0x1FFF
    | 5 => rwReg 0 0xFFF
    | 7 => rwReg 0 0xFFFFFFF0
    | 8 => rwReg 0 m32
    | 9 => w1cReg 1
    | _ => {}
  else {}

/-- FIQ registers (R476); every one has its own rule. -/
def descFIQ (off : Nat) : RDesc :=
  if inArr off 0x1004 16 64 then roReg 0xFFFF0000
  else if inArr off 0x1008 16 64 then roReg 0x80000000
  else if inArr off 0x2004 32 16 then roReg 0xFFFF0000
  else {}

/-- MBX registers (R478); `LOCK`, `CFG`, `DATA`, `HDR`, `SEND`, `ACK`, `RESET` and `EVENT` have their own rules. -/
def descMBX (off : Nat) : RDesc :=
  if 0x400 ≤ off ∧ off < 0x2400 then
    match (off - 0x400) % 128 with
    | 4 => rwReg 0 0x3F03
    | 12 => w1cReg 1
    | 0x30 => rwReg 0 0xFF00000F
    | k => if 0x10 ≤ k ∧ k < 0x30 ∧ k % 4 = 0 then rwReg 0 m32 else {}
  else {}

/-- TNS registers (R505). -/
def descTNS (off : Nat) : RDesc :=
  if off = 0x048 then rwReg 0x100 0x101
  else if 0x100 ≤ off ∧ off < 0x200 then
    match off % 0x40 with
    | 0 => { rw := 0xC000FFFF, w1c := 0x30000000, ssp := 0x40000000 }
    | 0x14 => rwReg 0 m32
    | 0x18 => rwReg 0 m32
    | 0x1C => rwReg 0 m32
    | 0x20 => rwReg 0 0x3FFFFFFF
    | 0x24 => rwReg 0 m32
    | _ => {}
  else if 0x200 ≤ off ∧ off < 0x300 then
    match off % 32 with
    | 0 => rwReg 0 0xFB000000
    | 4 => rwReg 0 m32
    | 8 => rwReg 0 m32
    | 0xC => rwReg 0 0x3FFFFFFF
    | 0x10 => rwReg 0 m32
    | 0x14 => rwReg 4 m32
    | 0x18 => w1cReg 0x2
    | _ => {}
  else if 0x300 ≤ off ∧ off < 0x320 then
    match off % 16 with
    | 0 => rwReg 0 0xF0000000
    | 4 => rwReg 0x05F5E100 m32
    | 8 => rwReg 0 m32
    | _ => {}
  else if 0x400 ≤ off ∧ off < 0x540 then
    match off % 32 with
    | 0 => if off < 0x500 then rwReg 0x10000 0xE00300FF else rwReg 0x10000 0xE00000FF
    | 4 => w1cReg 0x100
    | _ => {}
  else if off = 0x600 then rwReg 0 0xFFFFFFE0
  else if off = 0x604 then rwReg 0 0x1FFFF
  else if off = 0x60C then rwReg 0 0xFFFF
  else if inArr off 0x800 4 192 then rwReg 0x00E00000 0xFFE00000
  else if inArr off 0xB00 4 192 then rwReg 0 m32
  else {}

/-- PLC registers (R362, R376). -/
def descPLC (off : Nat) : RDesc :=
  if off = 0x044 ∨ off = 0x048 then rwReg 0 m32
  else if off = 0x058 then rwReg 0x320 0x3FF
  else if off = 0x05C then rwReg 0x3E8 0xFFFF
  else if off = 0x060 then rwReg 0x40 0x3FF
  else if off = 0x064 then rwReg 0x64 0xFFFF
  else if off = 0x068 then rwReg 0xFFFFFFFF m32
  else if off = 0x06C then rwReg 0x0000FFFF 0xFFFF
  else if off = 0x070 then rwReg 0 0xFFFFFFF0
  else if off = 0x074 then rwReg 0 0x1FFFF
  else if off = 0x07C then rwReg 0 0xFFFF
  else if inArr off 0x400 8 512 then rwReg 0 0xFF1F0000
  else {}

/-- PEN registers (R375): `MAP` shows the fixed assignment of R351 at reset. Log entry 157 (DESIGN CHOICE). -/
def descPEN (p off : Nat) : RDesc :=
  if off = 0x040 then
    (if p < 48 then roReg (0x88000000 + p * 0x10000 + p / 3 * 0x100) else roReg 0x483F0000)
  else if off = 0x044 then sspReg 1 1 1
  else if off = 0x048 then rwReg 0x2710 0x8000FFFF
  else {}

/-- The description of the register at offset `off` of a block instance's pages. -/
def regDesc (b : Blk) (inst off : Nat) : RDesc :=
  if off < 0x40 then descHdr b inst off
  else match b with
    | .SYS => descSYS off
    | .CLK => descCLK off
    | .PWR => descPWR off
    | .TMP => descTMP off
    | .INT => descINT off
    | .SEC => descSEC off
    | .VLT => descVLT off
    | .HIF => descHIF off
    | .MGT => descMGT off
    | .ATB => {}
    | .PLC => descPLC off
    | .MBX => descMBX off
    | .LCK => {}
    | .FIQ => descFIQ off
    | .BNK => descBNK off
    | .SWC => descSWC off
    | .FDB => descFDB off
    | .IMG => descIMG off
    | .TNS => descTNS off
    | .MAC => descMAC off
    | .SDS => descSDS inst off
    | .MDB => descMDB off
    | .PLK => descPLK off
    | .PTC => descPTC off
    | .PEN => descPEN inst off

/-- Reset value of a local peripheral register of an engine (R353): the CRC unit's. -/
def engReset (off : Nat) : Nat :=
  if off = 0xF2000 then 0x23
  else if off = 0xF2004 then 0x1EDC6F41
  else if off = 0xF2008 ∨ off = 0xF200C then 0xFFFFFFFF
  else 0

/-- The value a register holds at reset. -/
def regReset (a : Nat) : Nat :=
  match pageOf a with
  | some pg => (regDesc pg.blk pg.inst (a - pg.base)).rst
  | none => if 0x10000000000 ≤ a then engReset (a % 0x100000) else 0

end Sys2Proof.Machine
end

