-- ==== Sys2Proof/Machine/State.lean ====
section
/-! DEFINITION. The state of the RLN9192 as one block: every register, table, queue, buffer, counter and
mode the spec names, as plain data, and the queue of waiting commands. -/

namespace Sys2Proof.Machine

/-- Why a step faults. The spec gives the block no fault that stops it: every access error, refusal and
exception is an effect on the state. The type has no constructor. -/
inductive Fault where
  deriving DecidableEq, Repr

/-- Why a step refuses a command. -/
inductive Refusal where
  /-- raised by `exec`'s arm of a command that has no meaning yet (safe: the machine stops). -/
  | notModelled (mnemonic : String)
  deriving DecidableEq, Repr

/-- The result of the latest register access, as its master sees it. -/
inductive Resp where
  /-- no access yet -/
  | none
  /-- a write was posted or a read returned `v` -/
  | ok (v : Word)
  /-- a bus error; on PCI Express, Completer Abort (R55, R56) -/
  | busErr
  deriving DecidableEq, Repr

/-- What leaves the block: an entry of the output log, newest first. The log is the model's own field. -/
inductive Out where
  /-- an MSI-X message of vector `v` (R60) -/
  | msix (v : Nat) (addrLo addrHi data : Word)
  /-- a frame on the line of MAC port `p`, without FCS -/
  | frame (p : Nat) (bytes : List Byte)
  /-- a frame ended with the inverse FCS on MAC port `p` (R135) -/
  | stomped (p : Nat) (bytes : List Byte)
  /-- a PAUSE frame on the line of MAC port `p`, without FCS (R222, R224) -/
  | pause (p : Nat) (bytes : List Byte)
  /-- a verify mPacket (`true`) or respond mPacket of port `p` (R227) -/
  | mpacket (p : Nat) (verify : Bool)
  /-- a management data frame of MDIO master `m` (R241) -/
  | mdio (m : Nat) (cmd : Word)
  /-- a transmission that begins on Period Link `n`, channel A (`0`) or B (`1`), bit by bit as the driver is to send it (R250) -/
  | plFrame (n ch : Nat) (bits : List Bool)
  /-- a jam of 20 bit times on a Period Link channel (R252) -/
  | plJam (n ch : Nat)
  /-- a frame on multidrop bus `n` -/
  | mdbFrame (n : Nat) (bytes : List Byte)
  /-- the dominant acknowledgement of a frame on multidrop bus `n` -/
  | mdbAck (n : Nat)
  /-- an error flag on multidrop bus `n`, active (dominant) or passive -/
  | mdbErrorFlag (n : Nat) (active : Bool)
  /-- a write of `bytes` to host memory at `addr` (host DMA) -/
  | hostWrite (addr : Nat) (bytes : List Byte)
  /-- a byte sent on the management interface, or `none` for a NACK -/
  | mgt (b : Option Byte)
  /-- a frame delivered to the MGP receive queue of port 210 (R92) -/
  | mgpFrame (src : Nat) (bytes : List Byte)
  deriving DecidableEq, Repr

/-! Start-up and trust (02, 03). -/

/-- One vendor key slot of the fuses (R79). -/
structure FuseSlot where
  hash : BitVec 256
  programmed : Bool
  revoked : Bool
  deriving DecidableEq, Repr

/-- A configuration bundle the Gate has released to the SSP (R83, R85): its item tag, key and INNER bytes. -/
structure Bundle where
  tag : Nat
  keyId : Nat
  bytes : List Byte
  deriving DecidableEq, Repr

/-- How far the bundle at the head of the bundle queue has been applied (R85). -/
structure BundleProg where
  next : Nat
  failed : Option (Nat × Nat)
  /-- the command of record `next - 1` has not ended yet -/
  wait : Bool
  deriving DecidableEq, Repr

/-- Reset, start-up, trust and command state of SYS (R64–R91). -/
structure SysSt where
  /-- a reset of R64 is asserted, or start-up has not yet been released -/
  held : Bool
  /-- how far start-up has brought the pages up: 0 SYS alone, 1 the management blocks, 2 every block -/
  ready : Nat
  /-- AON ticks since the latest reset release (R80) -/
  aonTicks : Nat
  /-- AON nanoseconds at the latest reset release -/
  relAt : Nat
  /-- a SOFT write waits for the end of the bundle being applied (R66) -/
  softPend : Bool
  /-- DEVICE_ID, 16 bytes in wire order (fused) -/
  deviceId : List Byte
  /-- the four vendor key slots (R79) -/
  slots : List FuseSlot
  /-- bundles released to the SSP and not yet ended, oldest first -/
  bundles : List Bundle
  /-- progress in the oldest bundle -/
  prog : Option BundleProg
  /-- the identity key pair has been generated once (R192) -/
  everStarted : Bool
  /-- Tense counter until which an MGP restart keeps placement frozen (R16) -/
  mgpDownTil : DWord
  /-- a THERM hold keeps the PMIC lines low (R535) -/
  thermHold : Bool
  /-- PMIC_EN (R512) -/
  pmicEn : Bool
  /-- PMIC_SRAM_EN (R512) -/
  pmicSramEn : Bool
  /-- lockdown by boundary scan lasts until reset (R555) -/
  scanLock : Bool
  /-- IMAGE_COUNTER of the image that runs (R79) -/
  imageCounter : DWord
  /-- unconfirmed items found at start-up, and the first of their tags (R548) -/
  unconfN : Nat
  unconfFirst : Nat
  /-- key-pool pages whose tag fails at this start-up's restore (R191) -/
  badPages : List Nat
  deriving DecidableEq, Repr

/-- The interrupt controller beside its registers: asserted sources and what reached its target last (R60). -/
structure IntcSt where
  lines : SMap Bool
  reached : SMap Word
  deriving DecidableEq, Repr

/-! The switch core (04). -/

/-- A frame in the switch buffer as the switch core keeps it: what its descriptor records (R97), and what stands beside that. -/
structure Desc where
  /-- `LENGTH`: stored bytes -/
  len : Nat
  trunc : Bool
  imp : Bool
  disp : Nat
  tc : Nat
  src : Nat
  check : Word
  handle : Nat
  verdict : Nat
  engine : Nat
  remadeBy : Nat
  itemTag : Nat
  epoch : Word
  enqUs : Word
  keyId : Nat
  channel : Nat
  rxTime : Word
  /-- 64-bit capture of the arrival, of which `rxTime` is the low word (R238, R495) -/
  rxTense : DWord
  /-- sort key flags byte (R101) -/
  flags : Nat
  /-- the pointer of the head cell (R93) -/
  head : Nat
  /-- a copy of the frame has been dropped (R132) -/
  dropRec : Bool
  /-- sequence numbers the copies carry, by pair (R233) -/
  pairSeq : List (Nat × Nat)
  /-- the pair the frame arrived on (R232) -/
  fromPair : Option Nat
  deriving DecidableEq, Repr

/-- A frame as it is read out of its cells: its descriptor, its bytes, and whether a cell holds an uncorrectable error
(R94, R130). -/
structure Frame extends Desc where
  bytes : List Byte
  poison : Bool
  deriving DecidableEq, Repr

/-- One waiting copy: egress port, class, frame. -/
structure QEnt where
  port : Nat
  cls : Nat
  fid : Nat
  deriving DecidableEq, Repr

/-- A withdrawal list entry: a revoked key, or lockdown (R117). -/
inductive Withdraw where
  | key (keyId : Nat)
  | lockdown
  deriving DecidableEq, Repr

/-- Source arbiter state of one egress port and class (R128). -/
structure ArbSt where
  top : Nat
  deficit : List Nat
  fresh : List Bool
  rr : List Nat
  deriving DecidableEq, Repr

/-- Class scheduler state of one egress port (R127). -/
structure SchedSt where
  turn : Nat
  started : Bool
  deficit : List Nat
  deriving DecidableEq, Repr

/-- Gate list parameters in operation, or latched for an armed swap (R125, R126): cycle and base in nanoseconds of
base `tb`, the composite time from which the list runs, and the classes open until then. -/
structure GateParm where
  cycle : Nat
  base : Nat
  tb : Nat
  start : Nat
  frozen : Nat
  deriving DecidableEq, Repr

/-- An ingress shaper bucket: tokens in sixteen-thousandths of a bit, and when they were last counted (R122). -/
structure Bucket where
  tokens : Nat
  at_ : DWord
  deriving DecidableEq, Repr

/-- A frame that has left its queue and waits at a sink's input (R123 step 6). -/
structure SinkEnt where
  port : Nat
  fid : Nat
  /-- what reading the frame's bytes meets -/
  rf : ReadFault
  deriving DecidableEq, Repr

/-- The switch core (R92–R144). -/
structure SwSt where
  frames : SMap Desc
  /-- the link RAM, by cell pointer: a frame's next cell, or of its last cell the reference count (R95) -/
  link : SMap Nat
  /-- frames taken by the MGP's receive queue, oldest first: ingress port and bytes (R92) -/
  mgpRx : List (Nat × List Byte)
  nextFid : Nat
  queue : List QEnt
  sink : List SinkEnt
  /-- banks that give cells to the switch, ascending (R93) -/
  banks : List Nat
  /-- cells in use per bank -/
  used : SMap Nat
  arb : SMap ArbSt
  sched : SMap SchedSt
  purge : List (Nat × Word)
  withdraw : List Withdraw
  withdrawWait : List Withdraw
  rules : SMap (List Word)
  vlan : SMap Word
  groups : SMap (List Word)
  fdb : SMap (List Word)
  gswap : SMap GateParm
  goper : SMap GateParm
  bucket : SMap Bucket
  sampled : SMap Nat
  /-- Tense counter at the latest AGE_PERIOD write or sweep (R112) -/
  ageFrom : DWord
  deriving DecidableEq, Repr

/-! MACs, pairs, lanes (07). -/

/-- A frame in a MAC transmit buffer: bytes as transmitted, and what its end concerns. -/
structure TxFrame where
  bytes : List Byte
  cls : Nat
  tag : Nat
  pass : Bool
  /-- bytes sent in earlier fragments (R225) -/
  sent : Nat
  preempted : Bool
  /-- Tense counter at the start of the present fragment -/
  start : DWord
  /-- the timestamp record that its end writes, if one is due (R493) -/
  rec_ : List Byte
  deriving DecidableEq, Repr

/-- A control frame that a MAC sends beside the switch's frames: a PAUSE frame (R222), or a verify (`true`) or respond mPacket
(R227). -/
inductive MacCtl where
  | pause (quanta : Nat)
  | mpacket (verify : Bool)
  deriving DecidableEq, Repr

/-- Whether a control frame is a PAUSE frame. -/
def MacCtl.isPause (c : MacCtl) : Bool :=
  match c with
  | .pause _ => true
  | .mpacket _ => false

/-- One MAC beside its registers. -/
structure MacSt where
  /-- the frame in transmission -/
  tx : Option TxFrame
  /-- the preempted frame that waits to resume (R225) -/
  held : Option TxFrame
  /-- verify attempts made, and the Tense counter at the latest (R227) -/
  attempts : Nat
  verifyAt : DWord
  /-- Tense counter from which a received pause counts; none while the frame in progress has not ended (R223) -/
  pauseFrom : Option DWord
  /-- Tense counter at the latest PAUSE frame sent (R224) -/
  xoffFrom : DWord
  /-- Tense counter at the latest LPI entry, and from which a frame may start after LPI (R229) -/
  lpiAt : DWord
  readyAt : DWord
  /-- control frames that wait for the frame in progress, oldest first (R222) -/
  ctl : List MacCtl
  /-- `PREEMPT_CTRL` whose `PREEMPT_EN` and `PREEMPT_MASK` are in operation (R226) -/
  pre : Word
  deriving DecidableEq, Repr

/-- A MAC after reset. -/
def MacSt.init : MacSt :=
  { tx := none, held := none, attempts := 0, verifyAt := 0, pauseFrom := none, xoffFrom := 0, lpiAt := 0, readyAt := 0
    ctl := [], pre := 0 }

/-- A duplicate table entry (R234): source address, sequence number, creation time, directions sent. -/
structure DupEnt where
  sa : Nat
  seq : Nat
  made : DWord
  sentA : Bool
  sentB : Bool
  deriving DecidableEq, Repr

/-- A redundancy pair (R231–R236). -/
structure PairSt where
  /-- the A and the B port while the pair is active (R231) -/
  ports : Option (Nat × Nat)
  seq : Nat
  dups : List DupEnt
  deriving DecidableEq, Repr

/-- A pair that has never been active. -/
def PairSt.init : PairSt := { ports := none, seq := 0, dups := [] }

/-- Ports, pairs and lanes. -/
structure EthSt where
  mac : SMap MacSt
  pair : SMap PairSt
  /-- MDIO commands in flight, by master -/
  mdio : SMap Word
  deriving DecidableEq, Repr

/-! The Imperative Gate (05). -/

/-- A Command Authority Table entry (R151). -/
structure CatEnt where
  state : Nat
  use : Nat
  gen : Nat
  alg : Nat
  tb : Nat
  reqTime : Bool
  tc : Nat
  poolOff : Nat
  keyLen : Nat
  tolMs : Nat
  chanHi : Nat
  chanLo : Nat
  tagValue : Word
  tagMask : Word
  lastSeq : DWord
  window : DWord
  lastGen : Nat
  deriving DecidableEq, Repr

/-- Where a pending entry stands (R158–R160, R196). -/
inductive PPhase where
  | waiting
  | onUnit (u : Nat)
  | result (ok : Bool)
  | markWait
  deriving DecidableEq, Repr

/-- A pending queue entry (R156). -/
structure PEnt where
  tag : Nat
  env : List Byte
  port : Nat
  /-- logical engine that emitted the envelope, 0x3F for none (R169) -/
  engine : Nat
  srcMac : List Byte
  fid : Nat
  phase : PPhase
  deriving DecidableEq, Repr

/-- Where a passed imperative stands (R164, R170). -/
inductive RPhase where
  /-- passed, INNER not yet emitted -/
  | passed
  /-- in the switch or beyond -/
  | switch
  /-- at a controller's Gate entry or in its transmission -/
  | controller
  /-- a bundle with the SSP -/
  | bundle
  deriving DecidableEq, Repr

/-- A released imperative that has not ended (R166). -/
structure REnt where
  tag : Nat
  env : List Byte
  port : Nat
  engine : Nat
  srcMac : List Byte
  phase : RPhase
  /-- journal slot of its RELEASE record, if one was written -/
  slot : Option Nat
  /-- it counts in its key's open SUMMARY record (R204) -/
  sum : Bool
  /-- Tense counter at the release -/
  at_ : DWord
  /-- the envelope's frame, whose cells the Gate holds until the emission has been written (R165) -/
  fid : Option Nat
  deriving DecidableEq, Repr

/-- A record at a controller's Gate entry (R166, R301, R317). -/
structure GEnt where
  tag : Nat
  keyId : Nat
  bytes : List Byte
  check : Word
  /-- Tense counter when the RELEASE record was written, from which the hold limit runs (R166, R301, R319) -/
  at_ : DWord
  /-- `HANDLE` and `VERDICT` of the record (R164) -/
  handle : Nat
  verdict : Nat
  /-- 0 waiting, 1 fetched or loaded in a transmit buffer, 2 in transmission, 3 lost with the controller's buffers -/
  loc : Nat
  /-- an ending that waits for the transmission to end (R319) -/
  pend : Option Nat
  deriving DecidableEq, Repr

/-- An HMAC service request that holds a place (R178). -/
structure SvcReq where
  engine : Nat
  addr : Nat
  lane : Option Nat
  deriving DecidableEq, Repr

/-- The Gate beside its registers. -/
structure GateSt where
  pend : List PEnt
  rel : List REnt
  cat : SMap CatEnt
  pool : SMap Byte
  sieve : SMap (List Word)
  /-- Gate entries of controllers by channel ID -/
  entry : SMap (List GEnt)
  /-- CAT command whose effect is not yet durable: (operation, index) -/
  catBusy : Option (Nat × Nat)
  /-- the revocation scan of the CAT command has ended -/
  catScan : Bool
  /-- items ended REVOKED since the revocation or transfer in progress began (R170, R199) -/
  revN : Nat
  /-- an OWNER record of a transfer waits for its count: the new `GEN` of entry 0 (R155) -/
  ownRec : Option Nat
  svc : List SvcReq
  /-- verdict ring record sequence (R168) -/
  vrSeq : Nat
  vrWrapped : Bool
  /-- unconfirmed releases waiting for the ring to be enabled: (tag, key, target, sequence) (R548) -/
  unconf : List (Nat × Nat × Nat × Nat)
  /-- Tense counter at the supply warning (R173) -/
  warnAt : DWord
  /-- pending entries at the warning, items ended REFUSE_SUPPLY since, and the warning record written (R199) -/
  warnPend : Nat
  warnRefused : Nat
  warnWritten : Bool
  deriving DecidableEq, Repr

/-! The vault (06). -/

/-- An open SUMMARY record of a key (R204). -/
structure SumRec where
  keyId : Nat
  slot : Nat
  released : Nat
  transmitted : Nat
  deriving DecidableEq, Repr

/-- A persisted bundle (R86). -/
structure PBundle where
  counter : DWord
  keyId : Nat
  bytes : List Byte
  deriving DecidableEq, Repr

/-- The full health record (R15, R71, R72, R74, R191): banks repaired with their spare rows and columns, banks and engines
replaced with what replaces them, key-pool pages that failed, and a lockstep mismatch. -/
structure HealthRec where
  lockstep : Bool
  repaired : List (Nat × Nat × Nat)
  banks : List (Nat × Nat)
  engines : List (Nat × Nat)
  pages : List Nat
  /-- physical banks that have become SUSPECT (R443) -/
  suspect : List Nat
  deriving DecidableEq, Repr

/-- A write that waits for the vault (R207): its class 1 to 8, and what it writes (an item's tag, or a key's index). -/
structure VReq where
  cls : Nat
  key : Nat
  deriving DecidableEq, Repr

/-- The vault's contents and the write machine's state (R187–R211). -/
structure VltSt where
  counters : SMap DWord
  /-- replay marks, durable values (R195) -/
  marks : SMap DWord
  /-- replay mark writes not yet durable -/
  markWr : SMap DWord
  /-- CAT entries as the vault image holds them -/
  catImg : SMap CatEnt
  /-- key pool image: what its encrypted pages decrypt to, and their tags (R190) -/
  poolImg : SMap Byte
  tags : SMap (BitVec 128)
  /-- the identity private key (R192) -/
  idPriv : BitVec 256
  /-- the full health record, and the MGP firmware state that the SSP keeps (R187) -/
  health : HealthRec
  fwState : SMap Byte
  /-- writes that wait, in order of request (R207) -/
  waiting : List VReq
  journal : SMap Word
  /-- the journal second reached: (AON RTC is the clock, second) (R200) -/
  jsec : Option (Bool × Nat)
  /-- a TIME record stands for it -/
  jtime : Bool
  /-- the journal clock has changed since, which begins a new second -/
  jsplit : Bool
  /-- the allowance has reached 0 and not yet 864,000 again (R203) -/
  jlow : Bool
  /-- SIEVE records of the present journal second, and those it could not hold (R201) -/
  sieveNow : Nat
  sieveMissed : Nat
  sums : List SumRec
  persisted : List PBundle
  /-- bits [27:0] of the next vault item tag (R542) -/
  tagSeq : Nat
  /-- counter command not yet durable: (counter, value, item tag) -/
  cntBusy : Option (Nat × DWord × Nat)
  /-- export in progress: address, first slot, count -/
  exp : Option (Nat × Nat × Nat)
  /-- erase-in-progress mark (R81) -/
  eraseMark : Bool
  /-- rows written ever, per log (R189) -/
  rows : SMap Nat
  /-- rows written since the latest compaction, per log -/
  fill : SMap Nat
  /-- times each key-pool page was written -/
  pageWr : SMap Nat
  /-- journal passes before the latest erase -/
  jwear : Nat
  deriving DecidableEq, Repr

/-! Shared memory banks (14). -/

/-- The banks beside their registers. -/
structure BnkSt where
  /-- `BANK_CTRL` as it stood before the hand-over in progress, per bank (R430) -/
  old : SMap Word
  /-- poisoned 64-bit halves, by direct-view address / 8, ascending (R440) -/
  poison : List Nat
  /-- halves corrected and not yet written back (R439) -/
  writeback : List Nat
  /-- errors of the present scrub pass per physical bank (R443) -/
  passCe : SMap Nat
  /-- always-on time at which the present scrub pass began, in nanoseconds (R442) -/
  passFrom : Nat
  deriving DecidableEq, Repr

/-! Period Link controllers (08, 09). -/

/-- A frame chosen at a fetch point (R299). `src` is 0 for the Gate entry, 1 for the transmit ring, 2 for a null frame. -/
structure PlTx where
  src : Nat
  slot : Nat
  payload : List Byte
  /-- the tag of the Gate record, when `src` is 0 -/
  gate : Option Nat
  /-- ring index and the 256 bytes of the ring record, when `src` is 1 -/
  idx : Nat
  rec_ : List Byte
  /-- the frame body as sent: header, payload and frame CRC -/
  body : List Byte
  /-- channels on which it was jammed, cut or never started (bit 0 A, bit 1 B) -/
  bad : Nat
  deriving DecidableEq, Repr

/-- The frame taken in a slot of the present cycle: channel (1 A, 2 B), body, receive record index (R265, R305). -/
structure PlTaken where
  slot : Nat
  chan : Nat
  body : List Byte
  rx : Option Nat
  deriving DecidableEq, Repr

/-- An output pin: whether the block drives it, and its level, which a weak pull gives while it does not (R290, R312). -/
structure TxPin where
  driven : Bool
  level : Bool
  deriving DecidableEq, Repr

/-- One channel of a Period Link controller (R250, R251, R290): its output pins, and when in half nanoseconds of the Tense
counter its line last read 0. -/
structure PlkCh where
  txd : TxPin
  txen : TxPin
  last : Nat
  deriving DecidableEq, Repr

/-- A channel after reset: weak pull-up on TXD, weak pull-down on TXEN (R290). -/
def PlkCh.init : PlkCh := { txd := ⟨false, true⟩, txen := ⟨false, false⟩, last := 0 }

/-- One Period Link controller beside its registers. -/
structure PlkSt where
  /-- time of the local cycle start, in half nanoseconds of the Tense counter -/
  t0 : Nat
  /-- the controller is in the NIT of the present cycle -/
  inNit : Bool
  /-- the mode that applies from the next cycle start (R282) -/
  nextMode : Nat
  /-- correction to apply to the present NIT, in microticks (R267) -/
  kappa : Int
  /-- `FETCH_NS` in operation (R309) -/
  fetchNs : Nat
  /-- mode request armed for the next cycle, and the one of the present cycle, with whether it was armed in ACTIVE (R304) -/
  mcNext : Option (Nat × Bool)
  mcNow : Option (Nat × Bool)
  /-- sync deviations of the cycle, in microticks -/
  devs : List Int
  /-- consecutive cycles without a sync frame from another node (R269) -/
  noSync : Nat
  /-- the cycle has been observed from its start (R276) -/
  whole : Bool
  syncSeen : Bool
  badMode : Bool
  /-- membership vector at the cycle's start (R277) -/
  startVec : DWord
  /-- one entry per taken or sent frame of the cycle: node and requested mode (R282) -/
  votes : List (Nat × Option Nat)
  /-- a frame of another member was taken, and one had the own bit set (R279) -/
  sawMember : Bool
  sawOwn : Bool
  /-- consecutive cycles in which the node was missing -/
  missing : Nat
  /-- ages in cycles of the exclusions of the last 1,024 cycles (R280) -/
  excl : List Nat
  /-- consecutive full valid cycles in PASSIVE -/
  rejoin : Nat
  /-- listen timer, in half nanoseconds: its full value, and its deadline while the line is idle (R270, R273) -/
  timer : Option (Nat × Option Nat)
  taken : List PlTaken
  chosen : List PlTx
  onLine : Option PlTx
  /-- ring records returned to the head of the ring (R303) -/
  back : List PlTx
  /-- comparators that fired in this cycle (R307) -/
  fired : List Nat
  /-- the guardian accepted the latest cycle start (R291) -/
  gOk : Bool
  /-- the microticks that its own counter had counted then, and the cycle start it times its windows from -/
  gCount : Nat
  gT0 : Nat
  /-- the mode that sound frames of members carried in place of the node's own (R284) -/
  newMode : Option Nat
  /-- channels A and B -/
  chA : PlkCh
  chB : PlkCh
  deriving DecidableEq, Repr

/-- A Period Link controller after reset. -/
def PlkSt.init : PlkSt :=
  { t0 := 0, inNit := false, nextMode := 0, kappa := 0, fetchNs := 5000, mcNext := none, mcNow := none, devs := []
    noSync := 0, whole := false, syncSeen := false, badMode := false, startVec := 0, votes := []
    sawMember := false, sawOwn := false, missing := 0, excl := [], rejoin := 0, timer := none, taken := []
    chosen := [], onLine := none, back := [], fired := [], gOk := true, gCount := 0, gT0 := 0, newMode := none
    chA := PlkCh.init, chB := PlkCh.init }

/-! Multidrop bus controllers (10). -/

/-- A transmit buffer TB1 or TB2 that holds a ring record; TB0's frame stands in the Gate entry (R317). -/
structure MdbBuf where
  /-- the frame record (R315); empty for TB0 -/
  rec_ : List Byte
  idx : Nat
  /-- `LIFE_MS` and the Tense counter at the load -/
  life : Nat
  at_ : DWord
  /-- load order (R318) -/
  order : Nat
  /-- attempts since load -/
  attempts : Nat
  onBus : Bool
  /-- an ABORTED ending waits for the transmission to end -/
  pend : Bool
  deriving DecidableEq, Repr

/-- A frame in the receive FIFO (R321). -/
structure MdbRx where
  rec_ : List Byte
  time : DWord
  filter : Nat
  flags : Nat
  deriving DecidableEq, Repr

/-- One multidrop controller beside its registers. -/
structure MdbSt where
  tec : Nat
  rec_ : Nat
  /-- TB0, TB1, TB2 -/
  tb0 : Option MdbBuf
  tb1 : Option MdbBuf
  tb2 : Option MdbBuf
  nextOrder : Nat
  fifo : List MdbRx
  /-- a mode change that waits for bus idle (R324) -/
  modePend : Option Nat
  /-- the operating mode in force -/
  mode : Nat
  /-- `MBn_TXD` (R312) -/
  txd : TxPin
  /-- the weak pull-up of `MBn_RXD` (R312) -/
  rxPull : Bool
  /-- in bus integration after a protocol exception (R311) -/
  integ : Bool
  /-- the Tense counter where the frame on the bus began -/
  sof : DWord
  deriving DecidableEq, Repr

/-- A multidrop controller after reset. -/
def MdbSt.init : MdbSt :=
  { tec := 0, rec_ := 0, tb0 := none, tb1 := none, tb2 := none, nextOrder := 0, fifo := [], modePend := none, mode := 0,
    txd := ⟨false, true⟩, rxPull := true, integ := false, sof := 0 }

/-! Particle engines (11). -/

/-- An output packet that still has a word in the output FIFO or in TS (R343, R344). -/
structure PtcPkt where
  /-- the Gate item's tag, for a Gate record -/
  gate : Option Nat
  /-- ring slot, for a ring packet -/
  idx : Nat
  timed : Bool
  /-- start time in Tense counter nanoseconds -/
  start : DWord
  /-- words still in the output FIFO -/
  words : List Word
  /-- data bytes not yet loaded into TS (PKT) -/
  bytes : Nat
  deriving DecidableEq, Repr

/-- An instruction in execution that stalls (R334): its word, whether it was injected, and its partial shift. -/
structure PtcStall where
  word : Nat
  inj : Bool
  /-- 1 WAIT, 2 AT, 3 PUSH or delivery, 4 PULL or load (R348) -/
  why : Nat
  /-- bits moved so far -/
  moved : Nat
  /-- the source of an IN, or the value an OUT has gathered -/
  val : Nat
  /-- a delivery or a load is due before the next bit moves -/
  due : Bool
  deriving DecidableEq, Repr

/-- One Particle engine beside its registers (R333). -/
structure PtcSt where
  /-- the core edge, in half nanoseconds of the CORE copy, before which no instruction issues (R334) -/
  due : Nat
  c0 : Word
  c1 : Word
  rs : Word
  rsN : Nat
  ts : Word
  tsN : Nat
  t : DWord
  pc : Nat
  inj : Option Nat
  stall : Option PtcStall
  /-- AT is armed: STEP and whether T had passed at issue -/
  armed : Option (Bool × Bool)
  ran : Bool
  fault : Bool
  conflict : Bool
  /-- output levels and directions, bit k for pin k -/
  level : Nat
  dir : Nat
  pkts : List PtcPkt
  /-- TS holds a word of the oldest packet -/
  tsHolds : Bool
  deriving DecidableEq, Repr

/-- A Particle engine after reset. -/
def PtcSt.init : PtcSt :=
  { due := 0, c0 := 0, c1 := 0, rs := 0, rsN := 0, ts := 0, tsN := 0, t := 0, pc := 0, inj := none, stall := none, armed := none
    ran := false, fault := false, conflict := false, level := 0, dir := 0, pkts := [], tsHolds := false }

/-! Packing FIFOs, alarm queues, mailboxes, host DMA (15). -/

/-- One packing FIFO (R460–R464): counted words with their tag, and the open packet. -/
structure FiqSt where
  counted : List (Word × Word)
  isOpen : Bool
  data : List (Word × Nat)
  part : List Byte
  /-- the check value's register over the data words of the open packet, as they entered (R463) -/
  check : Nat
  deriving DecidableEq, Repr

/-- A packing FIFO after reset. -/
def FiqSt.init : FiqSt := { counted := [], isOpen := false, data := [], part := [], check := 0xFFFFFFFF }

/-- One DMA ring of the host interface (R451–R459). -/
structure RingSt where
  /-- item count of the ring, 1 to 0x7F_FFFF (R452) -/
  count : Nat
  /-- the phase that records carry now (R456) -/
  ph : Bool
  /-- records since `PEND` was last cleared -/
  recs : Nat
  /-- Tense counter at the first of them -/
  firstAt : DWord
  /-- `EN` was cleared while a frame was in progress -/
  stopping : Bool
  /-- the receive frame in progress: whether its first buffer has been filled, and the bytes still to write (R455) -/
  part : Option (Bool × List Byte)
  deriving DecidableEq, Repr

/-- A DMA ring after reset. -/
def RingSt.init : RingSt := { count := 1, ph := true, recs := 0, firstAt := 0, stopping := false, part := none }

/-- The host interface beside its registers. -/
structure HifSt where
  /-- transmit rings 0–15, receive rings 16–31 -/
  rings : SMap RingSt
  /-- rotating pointer of the transmit rings (R454) -/
  txPtr : Nat
  /-- `PERST_N` is asserted, and the configuration space answers (R69) -/
  perst : Bool
  cfgUp : Bool
  /-- the subsystem IDs that the configuration space presents (R474) -/
  subsys : Word
  deriving DecidableEq, Repr

/-! The Tense unit (16). -/

/-- One time base (R483): its value in units of 2^-48 ns, and the slew in progress (R487). -/
structure TbSt where
  v : Nat
  /-- amount still to add, in 2^-48 ns -/
  slew : Int
  ppm : Nat
  /-- Tense counter at the latest servo update (R488) -/
  servo : DWord
  deriving DecidableEq, Repr

/-- A time base after reset. -/
def TbSt.init : TbSt := { v := 0, slew := 0, ppm := 1, servo := 0 }

/-- A capture record (R497). -/
structure CapRec where
  t : DWord
  sec : DWord
  ns : Nat
  frac : Nat
  rising : Bool
  valid : Bool
  deriving DecidableEq, Repr

/-- One timed output (R499, R500): what `EN` latched, its next event and its pulse. -/
structure OutSt where
  start : Nat
  period : Nat
  width : Nat
  mode : Nat
  /-- composite time of the next event -/
  next : Option Nat
  /-- the next event acts late -/
  late : Bool
  /-- the pin is at NOT `IDLE` -/
  active : Bool
  /-- Tense counter at which the pulse in progress ends -/
  pulse : Option Nat
  deriving DecidableEq, Repr

/-- A timed output after reset. -/
def OutSt.init : OutSt :=
  { start := 0, period := 0, width := 4, mode := 0, next := none, late := false, active := false, pulse := none }

/-- One PPS output (R501): the composite time of the latest event, and the Tense counter at which the pin falls. -/
structure PpsSt where
  last : Option Nat
  fallAt : Nat
  deriving DecidableEq, Repr

/-- A PPS output after reset. -/
def PpsSt.init : PpsSt := { last := none, fallAt := 0 }

/-- The Tense unit, and the clock of the always-on domain. -/
structure TimeSt where
  /-- the Tense counter (R479) -/
  tense : DWord
  /-- the TIME PLL has locked and the TIME domain runs -/
  running : Bool
  /-- nanoseconds from the Tense counter's TIME cycle to the present core edge (R481) -/
  copy : BitVec 2
  tb : SMap TbSt
  caps : SMap (List CapRec)
  tout : SMap OutSt
  pps : SMap PpsSt
  /-- a timestamp record has been lost since the last one written (R493) -/
  tsrLost : Bool
  /-- nanoseconds of always-on time, and what is left of them after whole AON ticks (numerator over 32,768 Hz) -/
  aonNs : Nat
  aonAcc : Nat
  /-- the AON crystal is confirmed, so that the RTC counts (R571) -/
  rtcOn : Bool
  /-- the AON RTC, in ticks of 1/32,768 s (R527) -/
  rtc : Nat
  deriving DecidableEq, Repr

/-! Protocol engines and placement (12). -/

/-- A queue-head slot (R353): state 0 EMPTY, 1 SERVING, 2 LEAVING, 3 ARRIVING. -/
structure QhSlot where
  st : Nat
  ready : Bool
  chan : Nat
  /-- migration slot while LEAVING or ARRIVING -/
  mig : Nat
  deriving DecidableEq, Repr

/-- An EMPTY slot. -/
def QhSlot.init : QhSlot := { st := 0, ready := false, chan := 0x1FF, mig := 0 }

/-- A DMA command (R354). -/
structure DmaCmd where
  w0 : Word
  w1 : Word
  w2 : Word
  w3 : Word
  deriving DecidableEq, Repr

/-- A job (R365). -/
structure Job where
  tag : Nat
  /-- class 2, which `ADMIT` may withhold -/
  cls2 : Bool
  addr : Nat
  /-- the channel its record names, 0x1FF for none -/
  chan : Nat
  deriving DecidableEq, Repr

/-- One logical engine: DMA, queue heads, timers, watchdog, checkpoint and jobs (R350–R373). -/
structure EngSt where
  slots : SMap QhSlot
  dmaQ : List DmaCmd
  /-- waiting completions: tag and status -/
  dmaCpl : List (Nat × Nat)
  dmaOvf : Bool
  /-- armed compare values -/
  tmr0 : Option DWord
  tmr1 : Option DWord
  /-- Tense counter at the latest restart of the watchdog -/
  wdtAt : DWord
  /-- personality slot loaded -/
  pers : Option Nat
  /-- 0 IDLE, 1 RUN, 2 TAKEOVER, 3 LOST (R376) -/
  st : Nat
  /-- steps 1 to 4 of R370 have been carried out for the death in progress -/
  fenced : Bool
  jobs : List Job
  taken : List Job
  /-- a `CKPT_COMMIT` that waits for this many earlier WRITEs (R371) -/
  ckptWait : Option (Word × Nat)
  deriving DecidableEq, Repr

/-- A logical engine after reset. -/
def EngSt.init : EngSt :=
  { slots := [], dmaQ := [], dmaCpl := [], dmaOvf := false, tmr0 := none, tmr1 := none, wdtAt := 0, pers := none
    st := 0, fenced := false, jobs := [], taken := [], ckptWait := none }

/-- A personality in the store (R359, R360). -/
structure Pers where
  flags : Nat
  id : Nat
  version : Nat
  kinds : Nat
  maxCh : Nat
  owner : Bool
  entry : Nat
  restore : Nat
  ctxLen : Nat
  scratch : Nat
  load : Nat
  itcm : List Byte
  dtcm : List Byte
  deriving DecidableEq, Repr

/-- A migration (R366): `switched` once the map points at the target. -/
structure Mig where
  chan : Nat
  src : Nat
  dst : Nat
  srcSlot : Nat
  dstSlot : Nat
  mslot : Nat
  switched : Bool
  at_ : DWord
  deriving DecidableEq, Repr

/-- The placement controller. -/
structure PlcSt where
  pers : SMap Pers
  /-- engine that serves a channel -/
  serve : SMap Nat
  /-- bindings written and not yet in force (word 0), by channel (R362) -/
  wish : SMap Word
  /-- bindings in force (word 0) -/
  bound : SMap Word
  /-- the engine a personality without `MIGRATE` gave a channel first (R362) -/
  stick : SMap Nat
  /-- why a channel is UNSERVED (R362) -/
  why : SMap Nat
  migs : List Mig
  /-- bits [27:0] of the next job tag (R542) -/
  jobSeq : Nat
  /-- completion records that wait for room (R365) -/
  jcr : List (List Byte)
  /-- Tense counter at the latest end of work of each cluster (R364 step 4) -/
  idleAt : SMap DWord
  deriving DecidableEq, Repr

/-! Hertis-32 cores (13). -/

/-- Whether a core issues (R380, R403–R407, R412, R413, R420). -/
inductive RunSt where
  /-- not released, fenced or without power -/
  | off
  | run
  /-- in WFE, WFET or WAITT -/
  | wait
  /-- a far load's data are outstanding (R419) -/
  | far
  /-- stopped by an exception while `EXL` = 1 (R413) -/
  | stopped
  /-- halted for the debugger (R420) -/
  | halted
  deriving DecidableEq, Repr

/-- A result in flight (R381): the cycle at whose start it lands, its destination (a general register, or 32 + a CSR
number), its value, whether it is a divide's, and whether it sets `ASTAT.DZ` (R389). -/
structure Landing where
  at_ : Nat
  dest : Nat
  val : Word
  divide : Bool
  dz : Bool
  deriving DecidableEq, Repr

/-- A wait in progress (R402): 0 WFE, 1 WFET, 2 WAITT. -/
structure CoreWait where
  kind : Nat
  rd : Nat
  target : DWord
  /-- Tense counter at issue -/
  since : DWord
  /-- the target passed while the device was in DOZE (R519) -/
  late : Bool
  deriving DecidableEq, Repr

/-- A repeat in progress (R398): the prefix's address, iterations not yet issued, and RPTU. -/
structure RptSt where
  pc : Word
  left : Nat
  unint : Bool
  deriving DecidableEq, Repr

/-- A far load outstanding (R419): its address and its instruction word. -/
structure FarLoad where
  addr : Word
  word : Word
  deriving DecidableEq, Repr

/-- One Hertis-32 core (R378): general registers, PC, control and status registers, and what is in flight. -/
structure CoreSt where
  run : RunSt
  g : SMap Word
  pc : Word
  /-- the next instruction is a delay slot: the branch's address and the address that issues after the slot (R396) -/
  delay : Option (Word × Word)
  rpt : Option RptSt
  /-- the next fetch is the first after an ERET with `RPTC.VALID` = 1 (R400) -/
  rptFrom : Bool
  /-- core cycles since release -/
  cyc : Nat
  /-- results in flight, in order of issue -/
  land : List Landing
  csr : SMap Word
  /-- `CYCLE_HI` as the latest read of `CYCLE_LO` latched it -/
  cycHi : Word
  wait : Option CoreWait
  far : Option FarLoad
  /-- addresses of far stores whose bus error has not yet been taken (R419) -/
  async : List Word
  /-- Tense counter at the latest restart of the core's watchdog (R416) -/
  wdtAt : DWord
  deriving DecidableEq, Repr

/-- A core before its release. -/
def CoreSt.init : CoreSt :=
  { run := .off, g := [], pc := 0, delay := none, rpt := none, rptFrom := false, cyc := 0, land := [], csr := []
    cycHi := 0, wait := none, far := none, async := [], wdtAt := 0 }

/-! Power, management interface, test access (17, 18). -/

/-- Power-state control beside its registers. -/
structure PwrSt where
  /-- Tense counter, and AON nanoseconds, at which the entry or wake in progress started -/
  at_ : DWord
  /-- AON nanoseconds at the latest entry to RETAIN -/
  sleepAon : Nat
  /-- the transition in progress is a wake -/
  waking : Bool
  /-- sources asserted at the wake in progress, or since the point of no return -/
  src : Nat
  /-- consecutive samples at or above the trip temperature, per sensor (R535) -/
  hot : SMap Nat
  /-- ports whose `FORCE` the scheduler has set (R532) -/
  forced : List Nat
  /-- tenths of a cycle counted toward the next 1,024, per cluster (R527) -/
  cacc : SMap Nat
  /-- bank power to restore at the end of RETAIN, by bank -/
  wasOn : List Nat
  /-- sensors whose calibration has failed, as a mask (R540) -/
  badCal : Nat
  /-- what held pads are latched at, by pad (R526) -/
  pads : SMap TxPin
  deriving DecidableEq, Repr

/-- The management interface beside its registers. -/
structure MgtSt where
  /-- received bytes with their flags as `RX_DATA` shows them -/
  rx : List Word
  tx : List Byte
  /-- SCL is being stretched since this many AON nanoseconds -/
  stretch : Option Nat
  /-- the next received byte is the first after a start -/
  first : Bool
  deriving DecidableEq, Repr

/-- The analog test buses beside their registers, and the test access port. -/
structure TestSt where
  /-- per bus, the Tense counter at the latest disconnection of a changed select (R553) -/
  atb : SMap DWord
  /-- the TAP's instruction code (R554) -/
  ir : Nat
  deriving DecidableEq, Repr

/-! The whole block. -/

/-- The state of the RLN9192. Registers hold what the register tables give; a register that is not listed in `regs`
holds its reset value. -/
structure State where
  /-- the commands that wait, first in first out -/
  pending : List Instr
  /-- registers by address -/
  regs : SMap Word
  /-- live counters by address, and the snapshot copies that software reads (R52, R137) -/
  cnts : SMap DWord
  snaps : SMap DWord
  /-- the next free value (the model's own field) -/
  free : Nat
  /-- shared memory, TCMs and boot ROM -/
  mem : List Host.Cell
  /-- what has left the block, newest first (the model's own field) -/
  outs : List Out
  /-- the result of the latest access -/
  resp : Resp
  intc : IntcSt
  sys : SysSt
  sw : SwSt
  eth : EthSt
  gate : GateSt
  vlt : VltSt
  bnk : BnkSt
  plk : SMap PlkSt
  mdb : SMap MdbSt
  ptc : SMap PtcSt
  fiq : SMap FiqSt
  /-- alarm queues, oldest item first (R465) -/
  aq : SMap (List Word)
  /-- bits [21:0] of the next tag of each mailbox (R470) -/
  mbx : SMap Nat
  hif : HifSt
  time : TimeSt
  eng : SMap EngSt
  plc : PlcSt
  /-- engines 0–47, the SSP (48), the MGP (49) -/
  cores : SMap CoreSt
  pwr : PwrSt
  mgt : MgtSt
  test : TestSt
  deriving DecidableEq, Repr

/-- The machine right after a power-on reset, with the reset still asserted (R64–R67): every register at its reset
value, every table and queue empty, `PHASE` RESET, and start-up not yet released.
Log entries 3, 9, 11, 12, 14, 15 and 156 (DESIGN CHOICE). -/
def State.reset : State :=
  { pending := [], regs := [], cnts := [], snaps := [], free := 0, mem := [], outs := [], resp := .none
    intc := { lines := [], reached := [] }
    sys := { held := true, ready := 0, aonTicks := 0, relAt := 0, softPend := false, deviceId := List.replicate 16 0
             slots := List.replicate 4 { hash := 0, programmed := false, revoked := false }
             bundles := [], prog := none, everStarted := false, mgpDownTil := 0, thermHold := false
             pmicEn := false, pmicSramEn := false, scanLock := false, imageCounter := 0, unconfN := 0, unconfFirst := 0
             badPages := [] }
    sw := { frames := [], link := [], mgpRx := [], nextFid := 0, queue := [], sink := [], banks := [], used := [], arb := [], sched := [], purge := []
            withdraw := [], withdrawWait := [], rules := [], vlan := [], groups := [], fdb := [], gswap := [], goper := []
            bucket := [], sampled := [], ageFrom := 0 }
    eth := { mac := [], pair := [], mdio := [] }
    gate := { pend := [], rel := [], cat := [], pool := [], sieve := [], entry := [], catBusy := none, catScan := false, revN := 0, ownRec := none
              svc := [], vrSeq := 0, vrWrapped := false, unconf := [], warnAt := 0, warnPend := 0, warnRefused := 0
              warnWritten := false }
    vlt := { counters := [], marks := [], markWr := [], catImg := [], poolImg := [], journal := [], jsec := none
             tags := [], idPriv := 0
             health := { lockstep := false, repaired := [], banks := [], engines := [], pages := [], suspect := [] }, fwState := [], waiting := []
             jtime := false, jsplit := false, jlow := false
             sieveNow := 0, sieveMissed := 0, sums := [], persisted := [], tagSeq := 1, cntBusy := none, exp := none
             eraseMark := false, rows := [], fill := [], pageWr := [], jwear := 0 }
    bnk := { old := [], poison := [], writeback := [], passCe := [], passFrom := 0 }
    plk := [], mdb := [], ptc := [], fiq := [], aq := [], mbx := []
    hif := { rings := [], txPtr := 0, perst := false, cfgUp := false, subsys := 0 }
    time := { tense := 0, running := false, copy := 0, tb := [], caps := [], tout := [], pps := [], tsrLost := false, aonNs := 0
              aonAcc := 0, rtcOn := false, rtc := 0 }
    eng := []
    plc := { pers := [], serve := [], wish := [], bound := [], stick := [], why := [], migs := [], jobSeq := 1, jcr := []
             idleAt := [] }
    cores := []
    pwr := { at_ := 0, sleepAon := 0, waking := false, src := 0, hot := [], forced := [], cacc := [], wasOn := [], badCal := 0, pads := [] }
    mgt := { rx := [], tx := [], stretch := none, first := false }
    test := { atb := [], ir := 1 } }

end Sys2Proof.Machine
end

