-- ==== Sys2Proof/Machine/Ops.lean ====
section
/-! DEFINITION. The named operations over registers, counters, memory, interrupts and engine events that
every meaning is written with. -/

namespace Sys2Proof.Machine

open Reg

/-- What the meaning of a command answers. -/
abbrev Res := Host.Outcome State Fault Refusal

/-! Registers. -/

/-- The value a register holds. Log entry 153 (DESIGN CHOICE). -/
def getR (s : State) (a : Nat) : Word := sget s.regs a (w32 (regReset a))

/-- Sets a register. Log entry 153 (DESIGN CHOICE). -/
def setR (s : State) (a : Nat) (v : Word) : State := { s with regs := sset s.regs a v }

/-- Field `[hi:lo]` of a register. -/
def getF (s : State) (a hi lo : Nat) : Nat := fld (getR s a) hi lo

/-- Sets field `[hi:lo]` of a register. -/
def putF (s : State) (a hi lo v : Nat) : State := setR s a (setFld (getR s a) hi lo v)

/-- Bit `i` of a register. -/
def getB (s : State) (a i : Nat) : Bool := bit (getR s a) i

/-- Sets bit `i` of a register. -/
def putB (s : State) (a i : Nat) (b : Bool) : State := setR s a (setBit (getR s a) i b)

/-- The 64-bit value of a register pair, low word first. -/
def getR64 (s : State) (a : Nat) : DWord := dword (getR s (a + 4)) (getR s a)

/-- Sets a register pair, low word first. -/
def setR64 (s : State) (a : Nat) (v : DWord) : State := setR (setR s a (lo32 v)) (a + 4) (hi32 v)

/-- The key of master `m`'s own copy of a register (R113, R481, R498). Log entry 153 (DESIGN CHOICE). -/
def perM (m : Master) (a : Nat) : Nat := (m.toNat + 1) * 0x100000000 + a

/-- The key of a local peripheral register of logical engine `n` (R353). Log entry 153 (DESIGN CHOICE). -/
def engKey (n off : Nat) : Nat := 0x10000000000 + n * 0x100000 + off

/-- Adds 1 to a 32-bit register that saturates (such as `DENY_COUNT`). -/
def satInc (s : State) (a : Nat) : State :=
  if getR s a = 0xFFFFFFFF#32 then s else setR s a (getR s a + 1#32)

/-! Counters: the live value; software reads the snapshot copies (R52, R137). -/

/-- The live value of the counter at an address. -/
def cnt (s : State) (a : Nat) : DWord := sget s.cnts a 0

/-- Adds `n` to a counter; counters wrap modulo their width (R137). -/
def bumpN (s : State) (a n : Nat) : State :=
  { s with cnts := sset s.cnts a (cnt s a + BitVec.ofNat 64 n) }

/-- Adds 1 to a counter. -/
def bump (s : State) (a : Nat) : State := bumpN s a 1

/-- The snapshot copy of a counter. -/
def snapOf (s : State) (a : Nat) : DWord := sget s.snaps a 0

/-- The entries of a sparse map whose key lies in `[lo, hi)`. -/
def srange {α : Type} (m : SMap α) (lo hi : Nat) : SMap α :=
  m.filter fun e => decide (lo ≤ e.1) && decide (e.1 < hi)

/-- Copies every counter of an address range into its snapshot copy, and clears the live ones when `clr` (R52). -/
def snapRange (s : State) (lo hi : Nat) (clr : Bool) : State :=
  { s with
    snaps := (srange s.cnts lo hi).foldl (fun m e => sset m e.1 e.2) (sclear s.snaps lo hi fun _ => true)
    cnts := if clr then sclear s.cnts lo hi (fun _ => true) else s.cnts }

/-! Free values. -/

/-- A value the spec leaves open: the next free value, and the state with the counter advanced.
Log entry 9 (DESIGN CHOICE). -/
def fresh (s : State) : DWord × State := (Config.freeValue s.free, { s with free := s.free + 1 })

/-! Memory. Keys are direct-view addresses for shared memory and system addresses for TCM windows. -/

/-- The memory key of a shared-memory address: the interleaved view is folded onto the direct view (R39). -/
def memKey (a : Nat) : Nat :=
  if a < 0x04000000 then
    let bank := 8 * nbits a 25 20 + nbits a 6 4
    0x04000000 + bank * 0x20000 + nbits a 19 7 * 16 + nbits a 3 0
  else a

/-- The key of byte `off` of the SSP's own TCM. -/
def sspTcm (off : Nat) : Nat := 0x120000000 + off

/-- The key of byte `off` of the MGP's own TCM. -/
def mgpTcm (off : Nat) : Nat := 0x220000000 + off

/-- The key of local address `off` (I-TCM and D-TCM, below 0x3_0000) of physical engine `p` (R43). -/
def tcmKey (p off : Nat) : Nat := 0x08000000 + p * 0x40000 + off

/-- What a byte of memory that nothing has written reads as. Log entry 4 (DESIGN CHOICE). -/
abbrev memDefault : Byte := 0

/-- One byte at a memory key. Log entry 4 (DESIGN CHOICE). -/
def memRead (m : List Host.Cell) (k : Nat) : Byte := sget m k memDefault

/-- Writes one byte at a memory key, keeping the canonical form. -/
def memWrite (m : List Host.Cell) (k : Nat) (b : Byte) : List Host.Cell := ssetD memDefault m k b

/-- The canonical form of memory: addresses strictly rising, no entry equal to what an unlisted address reads as. -/
def Memory.wf (m : List Host.Cell) : Bool := ssorted m && m.all fun e => !(e.2 == memDefault)

/-- One byte at a system address of shared memory. -/
def rdB (s : State) (a : Nat) : Byte := memRead s.mem (memKey a)

/-- Writes one byte at a system address of shared memory. -/
def wrB (s : State) (a : Nat) (b : Byte) : State := { s with mem := memWrite s.mem (memKey a) b }

/-- `n` bytes from a system address. -/
def rdBytes (s : State) (a n : Nat) : List Byte := (List.range n).map fun i => rdB s (a + i)

/-- Writes bytes from a system address upward. -/
def wrBytes (s : State) (a : Nat) (l : List Byte) : State :=
  match l with
  | [] => s
  | b :: r => wrBytes (wrB s a b) (a + 1) r

/-- A little-endian number of `n` bytes at a system address. -/
def rdLE (s : State) (a n : Nat) : Nat := leNat (rdBytes s a n)

/-- Writes a little-endian number of `n` bytes at a system address. -/
def wrLE (s : State) (a n v : Nat) : State := wrBytes s a (leBytes n v)

/-- Whether `n` bytes from `a` lie in shared memory, in one view (R37). -/
def inShared (a n : Nat) : Bool :=
  decide (a + n ≤ 0x04000000) || (decide (0x04000000 ≤ a) && decide (a + n ≤ 0x08000000))

/-- The bank of a shared-memory address (R37, R39). -/
def bankOf (a : Nat) : Nat := (memKey a - 0x04000000) / 0x20000

/-! The output log. -/

/-- Whether a loaded test instruction gives the scan cells every output in the chain (R554, R555).
Log entry 114 (DEDUCED). -/
def scanOwns (s : State) : Bool := [0, 3, 4, 5, 6].contains s.test.ir

/-- Whether an output leaves through pins of the scan chain: all but delivery to the MGP. Log entry 114 (DEDUCED). -/
def throughPins (o : Out) : Bool :=
  match o with
  | .mgpFrame _ _ => false
  | _ => true

/-- Whether an output would leave through pads whose group is held: those of the multidrop buses, the Period Link and MDIO
(R526). Log entry 114 (DEDUCED). -/
def padsShut (s : State) (o : Out) : Bool :=
  match o with
  | .mdbFrame _ _ | .mdbAck _ | .mdbErrorFlag _ _ => getB s PWR_PAD_HOLD 4
  | .plFrame _ _ _ | .plJam _ _ => getB s PWR_PAD_HOLD 5
  | .mdio _ _ => getB s PWR_PAD_HOLD 7
  | _ => false

/-- Records something that leaves the block; while the scan cells own the outputs, or its pads are held, it does not reach the
line (R526, R555). Log entries 11 (DESIGN CHOICE), 114 (DEDUCED). -/
def emit (s : State) (o : Out) : State :=
  if (scanOwns s && throughPins o) || padsShut s o then s else { s with outs := o :: s.outs }

/-- Records the result of a register access. Log entry 11 (DESIGN CHOICE). -/
def answer (s : State) (v : Word) : State := { s with resp := .ok v }

/-- Records a bus error. Log entry 11 (DESIGN CHOICE). -/
def answerErr (s : State) : State := { s with resp := .busErr }

/-! Engine events and interrupts. -/

/-- Raises system or personality event line `l` of logical engine `n` (R353). -/
def raiseEvent (s : State) (n l : Nat) : State :=
  if n < 48 ∧ l < 32 then putB s (engKey n 0xF3000) l true else s

/-- The interrupt sources of a block instance, each with the `IRQ_STATUS` bits that drive it (R59). -/
def pageSources (b : Blk) (inst : Nat) : List (Nat × Nat) :=
  match b with
  | .MAC => [(inst, m32)]
  | .SDS => [(192 + inst, m32)]
  | .MDB => [(256 + inst, m32)]
  | .PLK => [(320 + inst, m32)]
  | .PTC => [(384 + inst, m32)]
  | .PEN => [(448 + inst, m32)]
  | .SWC => (List.range 32).map fun i => (576 + i, 2 ^ i)
  | .FDB => (List.range 8).map fun i => (608 + i, 2 ^ i)
  | .IMG => (List.range 16).map fun i => (616 + i, 2 ^ i)
  | .TNS => (List.range 16).map fun i => (632 + i, 2 ^ i)
  | .SYS => [(648, m32)]
  | .CLK => [(649, m32)]
  | .PWR => [(650, m32)]
  | .TMP => [(651, m32)]
  | .INT => [(652, m32)]
  | .SEC => [(653, m32)]
  | .VLT => [(654, m32)]
  | .HIF => [(655, m32)]
  | .MGT => [(656, m32)]
  | .ATB => [(657, m32)]
  | .PLC => [(658, m32)]
  | .LCK => [(659, m32)]
  | .FIQ => [(660, m32)]
  | .BNK => [(661, m32)]
  | .MBX => []

/-- Whether source `n` is asserted. -/
def lineUp (s : State) (n : Nat) : Bool := sget s.intc.lines n false

/-- The key under which the line of FULL mailbox `m` stands among the sources (R471). -/
def mbxLine (m : Nat) : Nat := 2000 + m

/-- The sources that reach their target, each with its `ROUTE` word (R60); a FULL mailbox reaches the receiver and line
of its `CFG`, whose fields stand where a `ROUTE` word has target and index (R471). -/
def reaching (s : State) : SMap Word :=
  (s.intc.lines.filter fun e => decide (2000 ≤ e.1) || getB s (INT_MASK (e.1 / 32)) (e.1 % 32)).map fun e =>
    (e.1, if 2000 ≤ e.1 then getR s (MBX_CFG (e.1 - 2000)) else getR s (INT_ROUTE e.1))

/-- The target code of a `ROUTE` word: 1 host, 2 MGP, 3 SSP, 4 engine (R59). -/
def routeTarget (r : Word) : Nat := fld r 2 0

/-- The `INDEX` field of a `ROUTE` word. -/
def routeIndex (r : Word) : Nat := fld r 13 8

/-- Whether host vector `v` is asserted by the sources `m` (R60). -/
def vecUp (m : SMap Word) (v : Nat) : Bool := m.any fun e => routeTarget e.2 == 1 && routeIndex e.2 == v

/-- Whether the host link is up (`HIF.LINK[31]`). -/
def linkUp (s : State) : Bool := getB s HIF_LINK 31

/-- A message of vector `v` falls due: it is sent, or its PBA bit holds it while the vector is masked or the
link is down; the second result says that a down link held it (R60, R63). Log entries 17 (PRESUMED), 49 (DEDUCED). -/
def msixDue (s : State) (v : Nat) : State × Bool :=
  let t := INT_MSI_X_table + 16 * v
  let pba := INT_MSI_X_PBA + 4 * (v / 32)
  if getB s (t + 12) 0 then (putB s pba (v % 32) true, false)
  else if linkUp s then
    (emit (putB s pba (v % 32) false) (.msix v (getR s t) (getR s (t + 4)) (getR s (t + 8))), false)
  else (putB s pba (v % 32) true, true)

/-- The host vectors that sources of `m` assert, without repeats. -/
def vecsOf (m : SMap Word) : List Nat :=
  m.foldl (fun l e => if routeTarget e.2 = 1 then ninsert l (routeIndex e.2) else l) []

/-- Gives the targets the edges that the present lines, masks and routes make (R60, R62); the second result
says that a message was held by a down link. Log entry 48 (DEDUCED). -/
def intcEdges (s : State) : State × Bool :=
  let old := s.intc.reached
  let new := reaching s
  let s1 := { s with intc := { s.intc with reached := new } }
  let s2 := (new.filter fun e => decide (sfind old e.1 ≠ some e.2) && routeTarget e.2 == 4).foldl
    (fun t e => raiseEvent t (routeIndex e.2) (24 + fld e.2 18 16)) s1
  let s3 := ((vecsOf old).filter fun v => !(vecUp new v)).foldl
    (fun t v => putB t (INT_MSI_X_PBA + 4 * (v / 32)) (v % 32) false) s2
  ((vecsOf new).filter fun v => !(vecUp old v)).foldl
    (fun t v => let r := msixDue t.1 v; (r.1, t.2 || r.2)) (s3, false)

/-- Whether INT's own interrupt line, source 652, is driven. -/
def intOwnLine (s : State) : Bool := !((getR s (IRQ_STATUS INT) &&& getR s (IRQ_ENABLE INT)) == 0#32)

/-- Delivers what the present lines, masks and routes make, and records a held message in
`INT.IRQ_STATUS` bit 1 (R63). Log entry 48 (DEDUCED). -/
def intcRefresh (s : State) : State :=
  let r := intcEdges s
  if r.2 then
    let t := putB r.1 (IRQ_STATUS INT) 1 true
    (intcEdges { t with intc := { t.intc with lines := ssetD false t.intc.lines 652 (intOwnLine t) } }).1
  else r.1

/-- Sets source `n` to level `b`. -/
def setLine (s : State) (n : Nat) (b : Bool) : State :=
  if lineUp s n = b then s
  else intcRefresh { s with intc := { s.intc with lines := ssetD false s.intc.lines n b } }

/-- Recomputes the interrupt lines of the page at `b` from `IRQ_STATUS` and `IRQ_ENABLE` (R50). -/
def updIrq (s : State) (b : Nat) : State :=
  match pageOf b with
  | none => s
  | some pg =>
    let v := (getR s (IRQ_STATUS b) &&& getR s (IRQ_ENABLE b)).toNat
    (pageSources pg.blk pg.inst).foldl (fun t e => setLine t e.1 (decide (Nat.land v e.2 ≠ 0))) s

/-- An interrupt condition occurs: it sets its bit of `IRQ_STATUS` (R50). -/
def raiseIrq (s : State) (b i : Nat) : State := updIrq (putB s (IRQ_STATUS b) i true) b

/-- A lasting interrupt condition begins or ends: `IRQ_RAW` follows it, and a set bit latches (R50). -/
def setRaw (s : State) (b i : Nat) (v : Bool) : State :=
  let t := putB s (IRQ_RAW b) i v
  if v then raiseIrq t b i else t

/-- Host vectors whose messages wait in the PBA are sent when nothing holds them any more (R60, R63).
Log entry 49 (DEDUCED). -/
def msixRelease (s : State) : State :=
  (List.range 64).foldl (fun t v =>
    if getB t (INT_MSI_X_PBA + 4 * (v / 32)) (v % 32) && vecUp t.intc.reached v then (msixDue t v).1 else t) s

/-! Access errors (R51) and denials (R55, R58). -/

/-- Code NARROW of `ERR_INFO`. -/
abbrev errNarrow : Nat := 1
/-- Code UNMAPPED. -/
abbrev errUnmapped : Nat := 2
/-- Code POWERED_DOWN. -/
abbrev errPoweredDown : Nat := 3
/-- Code DENIED_PAGE. -/
abbrev errDeniedPage : Nat := 4
/-- Code DENIED_FIELD. -/
abbrev errDeniedField : Nat := 5
/-- Code LOCKED. -/
abbrev errLocked : Nat := 6
/-- Code STRIPE_SPLIT. -/
abbrev errStripeSplit : Nat := 7
/-- Code ENGINE_RUNNING. -/
abbrev errEngineRunning : Nat := 8
/-- Code VERDICT_WRITE. -/
abbrev errVerdictWrite : Nat := 9

/-- The `ERR_INFO` word of an access. -/
def errWord (code : Nat) (m : Master) (wnr : Bool) : Word :=
  w32 (0x80000000 + m.toNat * 65536 + code * 256 + nb wnr)

/-- Records an access error in the `ERR_INFO` of the page at `b`: the first one stands, a further one sets `OVF` (R51). -/
def recErr (s : State) (b code : Nat) (m : Master) (a : Nat) (wnr : Bool) : State :=
  if getB s (ERR_INFO b) 31 then
    let t := putB s (ERR_INFO b) 30 true
    if b = SEC then raiseIrq t SEC 2 else t
  else setR (setR s (ERR_INFO b) (errWord code m wnr)) (ERR_ADDR b) (w32 a)

/-- A policy denial: recorded in `SEC.ERR_INFO`, counted in `SEC.DENY_COUNT`, with SEC interrupt bit 0 (R55, R58).
Log entry 26 (DEDUCED). -/
def deny (s : State) (code : Nat) (m : Master) (a : Nat) (wnr : Bool) : State :=
  let t := satInc (recErr s SEC code m a wnr) SEC_DENY_COUNT
  raiseIrq (setR (setR t SEC_DENY_LAST_INFO (errWord code m wnr)) SEC_DENY_LAST_ADDR (w32 a)) SEC 0

/-! Ownership, phase and debug state that several families read. -/

/-- `SYS.BOOT_STATUS.PHASE` (R87). -/
def phase (s : State) : Nat := getF s SYS_BOOT_STATUS 7 0

/-- Sets `PHASE`; a change sets SYS interrupt bit 1 (R88). -/
def setPhase (s : State) (p : Nat) : State :=
  if phase s = p then s else raiseIrq (putF s SYS_BOOT_STATUS 7 0 p) SYS 1

/-- PHASE = RUN. -/
abbrev phRun : Nat := 8
/-- PHASE = WAIT_HOST. -/
abbrev phWaitHost : Nat := 0xE
/-- PHASE = DEGRADED_REFUSED. -/
abbrev phDegraded : Nat := 0xF
/-- PHASE = BOOT_FAILED. -/
abbrev phBootFailed : Nat := 0x10

/-- Whether debug is unlocked (`SYS.DEBUG_STATUS[0]`). -/
def unlocked (s : State) : Bool := getB s SYS_DEBUG_STATUS 0

/-- Whether debug is unlocked with scope bit `i` (R89). -/
def dbgScope (s : State) (i : Nat) : Bool := unlocked s && getB s SYS_DEBUG_STATUS (4 + i)

/-- `SYS.OWNER_STATE`: 0 UNOWNED, 1 OWNED, 2 ERASING (R80). -/
def owner (s : State) : Nat := getF s SYS_OWNER_STATE 1 0

/-- Sets the ownership state; a change sets SYS interrupt bit 2 (R88). -/
def setOwner (s : State) (v : Nat) : State :=
  if owner s = v then s else raiseIrq (putF s SYS_OWNER_STATE 1 0 v) SYS 2

/-- The Tense counter (R479). -/
def tense (s : State) : DWord := s.time.tense

end Sys2Proof.Machine
end

