-- ==== Sys2Proof/Machine/Access.lean ====
section
/-! DEFINITION. Reaching a register page: who may (R41, R54–R56), when the page answers (R49, R69, R519),
and what a plain write does to a register's fields (R7, R51, R55). -/

namespace Sys2Proof.Machine

open Reg

/-- The host. -/
abbrev mHost : Master := 1
/-- The SSP. -/
abbrev mSSP : Master := 2
/-- The MGP. -/
abbrev mMGP : Master := 3
/-- The Imperative Gate (R10). -/
abbrev mGate : Master := 4

/-- The debug master. -/
abbrev mDebug : Master := 7

/-- Whether an offset lies in the common header of the block's first page (R46). -/
def inHeader (off : Nat) : Bool := decide (off < 0x40)

/-- Whether a block instance accepts accesses beyond its header: its power state is ON and start-up has
brought the block up (R49, R69, R74). Log entry 24 (DEDUCED). -/
def blockReady (s : State) (pg : Page) : Bool :=
  decide (getF s (BLK_STATUS pg.base) 3 2 = 0) &&
  match pg.blk with
  | .SYS => true
  | .CLK | .PWR | .TMP | .INT | .SEC | .HIF | .MGT => decide (1 ≤ s.sys.ready)
  | _ => decide (2 ≤ s.sys.ready)

/-- Whether the page answers the master at all in the device state DOZE (R519). -/
def dozeAnswers (s : State) (m : Master) (b : Blk) : Bool :=
  !(decide (getF s PWR_STATUS 1 0 = 1) && decide (m = mHost)) ||
  match b with
  | .SYS | .PWR | .INT | .MBX | .MGT => true
  | _ => false

/-- Whether the page-access policy lets master `m` write the pages of block `b` (R54, R57). -/
def mayWrite (s : State) (m : Master) (b : Blk) : Bool :=
  if m = mSSP then true
  else match b with
    | .SEC | .VLT | .IMG => false
    | _ =>
      let w := getR s (SEC_WPOL (blkCode b))
      if m = mHost then bit w 0 else if m = mMGP then bit w 2 else if m = mDebug then bit w 3 else false

/-- Whether master `m` may read offset `off` of block `b`'s pages (R41, R56); of the VLT page's own registers, only the
SSP and the debug master (R209). -/
def mayRead (m : Master) (b : Blk) (off : Nat) : Bool :=
  if m = mSSP ∨ m = mDebug then true
  else if m = mMGP then
    match b with
    | .VLT => inHeader off
    | _ => true
  else if m = mHost then
    match b with
    | .VLT => inHeader off
    | .IMG => decide (off < 0x30000)
    | _ => true
  else false

/-- Whether the debug master's access port is still closed to register pages (R89, R554). Log entry 27 (DEDUCED). -/
def portClosed (s : State) (m : Master) : Bool := decide (m = mDebug) && !(dbgScope s 0)

/-- How a write ends that met an error: in a bus error, but for the host, whose writes are posted and end as any other
write (R55). Log entry 26 (DEDUCED). -/
def writeErr (m : Master) (s : State) : State := if m = mHost then answer s 0 else answerErr s

/-- A write access of master `m` to the register address `a`: `f` is what the write does where it is let through.
Log entry 26 (DEDUCED). -/
def gatedWrite (m : Master) (a : Nat) (f : State → State) (s : State) : State :=
  match pageOf a with
  | none => writeErr m (recErr s SEC errUnmapped m a true)
  | some pg =>
    if portClosed s m then answer s 0
    else if !(mayWrite s m pg.blk) then writeErr m (deny s errDeniedPage m a true)
    else if !(inHeader (a - pg.base)) && !(blockReady s pg && dozeAnswers s m pg.blk) then
      writeErr m (recErr s pg.base errPoweredDown m a true)
    else answer (f s) 0

/-- A read access of master `m` to the register address `a`: `f` gives the value and what the read does.
Log entry 26 (DEDUCED). -/
def gatedRead (m : Master) (a : Nat) (f : State → State × Word) (s : State) : State :=
  match pageOf a with
  | none => answerErr (recErr s SEC errUnmapped m a false)
  | some pg =>
    if portClosed s m then answer s 0
    else if !(mayRead m pg.blk (a - pg.base)) then answerErr (deny s errDeniedPage m a false)
    else if !(inHeader (a - pg.base)) && !(blockReady s pg && dozeAnswers s m pg.blk) then
      answerErr (recErr s pg.base errPoweredDown m a false)
    else answer (f s).1 (f s).2

/-- The bits that differ between two words, within a mask. -/
def differ (a b : Word) (m : Nat) : Bool := !(((a ^^^ b) &&& w32 m) == 0#32)

/-- A register's new value after a plain write of `v` over `old`, with the bits of `blocked` left alone (R7). -/
def plainValue (d : RDesc) (blocked : Nat) (old v : Word) : Word :=
  let b := w32 blocked
  let rw := w32 d.rw &&& ~~~ b
  let kept := (old &&& ~~~ rw) ||| (v &&& rw)
  (kept &&& ~~~ (v &&& w32 d.w1c &&& ~~~ b)) ||| (v &&& w32 d.w1s &&& ~~~ b)

/-- Whether a write of `v` over `old` would change a protected bit of mask `p` (R51). Log entry 21 (DEDUCED). -/
def touches (d : RDesc) (p : Nat) (old v : Word) : Bool :=
  differ old v (Nat.land p d.rw) ||
  !((v &&& old &&& w32 (Nat.land p d.w1c)) == 0#32) || !((v &&& ~~~ old &&& w32 (Nat.land p d.w1s)) == 0#32)

/-- A plain write to a register described by `d`: SSP-only and locked fields stay, and are recorded where the
written value differs there (R7, R51, R55). Log entry 21 (DEDUCED). -/
def plainWrite (d : RDesc) (m : Master) (pg : Page) (off : Nat) (v : Word) (s : State) : State :=
  let a := pg.base + off
  let old := getR s a
  let sspB := if m = mSSP then 0 else d.ssp
  let lockB := if getB s (CFG_LOCK pg.base) 0 then d.rwl else 0
  let s1 := if touches d sspB old v then deny s errDeniedField m a true else s
  let s2 := if touches d lockB old v then recErr s1 pg.base errLocked m a true else s1
  setR s2 a (plainValue d (Nat.lor sspB lockB) old v)

/-- A write that a register accepts only in some state: refused, it is recorded as DENIED_FIELD when it would
change the register (R51); accepted, it is plain. -/
def stateWrite (okNow : Bool) (m : Master) (pg : Page) (off : Nat) (v : Word) (s : State) : State :=
  let d := regDesc pg.blk pg.inst off
  if okNow then plainWrite d m pg off v s
  else if touches d m32 (getR s (pg.base + off)) v then deny s errDeniedField m (pg.base + off) true
  else s

end Sys2Proof.Machine
end

