-- ==== Sys2Proof/Machine/Wear.lean ====
section
/-! DEFINITION. The vault's logs, their wear, and the health record (R74, R187–R189, R209). -/

namespace Sys2Proof.Machine

open Reg

/-- Rows of each log: 0 counters, 1 replay marks, 2 persisted bundles, 3 CAT, 4 policy and state, 5 health (R187). -/
def logRows (l : Nat) : Nat :=
  match l with
  | 0 => 2048 | 1 => 8192 | 2 => 8192 | 3 => 12288 | 4 => 2048 | _ => 16384

/-- The region of a log, in the order of R187. -/
def logRegion (l : Nat) : Nat := if l < 5 then 2 else 3

/-- Raises `WEAR[r]` to `n` where it is lower, and sets `WEAR_WARN` at 900,000 (R210). Log entry 68 (DEDUCED). -/
def wearTo (s : State) (r n : Nat) : State :=
  if n ≤ (getR s (VLT_WEAR r)).toNat then s
  else
    let s1 := setR s (VLT_WEAR r) (w32 (min 0xFFFFF n))
    if 900000 ≤ n ∧ getB s1 VLT_STATUS 29 = false then raiseIrq (putB s1 VLT_STATUS 29 true) VLT 0 else s1

/-- `n` rows are written to log `l` (R189). Log entry 68 (DEDUCED). -/
def rowsWrite (s : State) (l n : Nat) : State :=
  let k := sget s.vlt.rows l 0 + n
  let s1 := { s with vlt := { s.vlt with rows := sset s.vlt.rows l k, fill := smod s.vlt.fill l 0 fun x => x + n } }
  wearTo s1 (logRegion l) ((k + logRows l - 1) / logRows l)

/-- The health record changes, and one row of its log is written (R74, R189). Log entry 68 (DEDUCED). -/
def healthPut (f : HealthRec → HealthRec) (s : State) : State :=
  rowsWrite { s with vlt := { s.vlt with health := f s.vlt.health } } 5 1

end Sys2Proof.Machine
end

