-- ==== Sys2Proof/Machine/Banks.lean ====
section
/-! DEFINITION. Shared memory banks (14): who reaches a bank, hand-over, bank power, substitution, ECC and
poison, and every access to shared memory over the fabric. -/

namespace Sys2Proof.Machine

open Reg

/-- `KIND` of a `BANK_CTRL` word (R426). -/
def ctrlKind (w : Word) : Nat := fld w 27 24

/-- `ENGINE` of a `BANK_CTRL` word. -/
def ctrlEngine (w : Word) : Nat := fld w 21 16

/-- Kind FREE. -/
abbrev kFree : Nat := 0
/-- Kind SWITCH. -/
abbrev kSwitch : Nat := 1
/-- Kind SCRATCH. -/
abbrev kScratch : Nat := 2
/-- Kind RINGS. -/
abbrev kRings : Nat := 3
/-- Kind HOST. -/
abbrev kHost : Nat := 4
/-- Kind PERS. -/
abbrev kPers : Nat := 5
/-- Kind MGP. -/
abbrev kMgp : Nat := 6
/-- Kind EXCHANGE. -/
abbrev kExchange : Nat := 7

/-- The kind of bank `b`. -/
def bankKind (s : State) (b : Nat) : Nat := ctrlKind (getR s (BNK_BANK_CTRL b))

/-- `STATE` of bank `b`: 0 STABLE, 1 DRAINING, 2 ZEROING, 3 WAKING (R446). -/
def bankState (s : State) (b : Nat) : Nat := getF s (BNK_BANK_STATUS b) 31 30

/-- Actual power of bank `b`: 0 ON, 1 RETAIN, 2 OFF. -/
def bankPwr (s : State) (b : Nat) : Nat := getF s (BNK_BANK_STATUS b) 29 28

/-- Free cells of the switch buffer (R93, R431). -/
def freeCells (s : State) : Nat :=
  s.sw.banks.foldl (fun n b => n + (512 - sget s.sw.used b 0)) 0

/-- `SWC.BUF_CELLS`: cells the switch holds. -/
def bufCells (s : State) : Nat := 512 * s.sw.banks.length

/-- FREE_LOW is raised while `FREE_CELLS` is below its mark (R139, R141). -/
def freeLowCheck (s : State) : State :=
  setRaw s SWC 9 (decide (freeCells s < (getR s SWC_FREE_LOW_MARK).toNat))

/-- Whether the masters of `KIND` include `m` (R426). Engine DMA and the Gate's service reach are judged apart. -/
def kindAdmits (k eng : Nat) (m : Master) (wnr : Bool) : Bool :=
  if k = kSwitch then decide (m = 5) || (decide (m = 4) && !wnr)
  else if k = kScratch then decide (m.toNat = 8 + eng)
  else if k = kRings then decide (m = 1) || decide (m = 3) || decide (m = 4) || decide (m = 5) || decide (m = 6)
  else if k = kHost then decide (m = 1) || decide (m = 3) || decide (m = 6)
  else if k = kMgp then decide (m = 3)
  else false

/-- Whether bank `b` admits master `m` now (R426, R430, R444). -/
def bankAdmits (s : State) (m : Master) (b : Nat) (wnr : Bool) : Bool :=
  decide (bankPwr s b = 0) &&
  if m = mSSP ∨ (m = mDebug ∧ dbgScope s 1 = true) then !(decide (bankState s b = 2))
  else decide (bankState s b = 0) &&
    kindAdmits (bankKind s b) (ctrlEngine (getR s (BNK_BANK_CTRL b))) m wnr

/-- Whether the stripe of an interleaved address belongs to one owner: none of its banks is in a hand-over, and all agree
(R39, R428). -/
def stripeWhole (s : State) (a : Nat) : Bool :=
  let b0 := 8 * nbits a 25 20
  let w := getR s (BNK_BANK_CTRL b0)
  (List.range 8).all fun i =>
    let wi := getR s (BNK_BANK_CTRL (b0 + i))
    (sfind s.bnk.old (b0 + i)).isNone && decide (ctrlKind wi = ctrlKind w) &&
      (decide (ctrlKind w ≠ kScratch) || decide (ctrlEngine wi = ctrlEngine w))

/-- Records a denial of the bank's kind or power (R427): reason 1 = OWNER, 2 = POWER. -/
def bankDeny (s : State) (m : Master) (a : Nat) (wnr : Bool) (reason : Nat) : State :=
  let s1 :=
    if getB s BNK_DENY_INFO 31 then putB s BNK_DENY_INFO 30 true
    else setR (setR s BNK_DENY_INFO (w32 (0x80000000 + m.toNat * 65536 + reason * 256 + nb wnr))) BNK_DENY_ADDR (w32 a)
  raiseIrq (satInc s1 BNK_DENY_COUNT) BNK 5

/-- The outcome of a fabric access. -/
inductive FabStat where
  | ok
  /-- the bank's kind or power refuses it (R427) -/
  | denied
  /-- the address is unmapped or its stripe is split (R38, R39) -/
  | unmapped
  /-- it met a poisoned half (R440, R441) -/
  | poisoned
  deriving DecidableEq, Repr

/-- The banks of the rows that `n` bytes at `a` touch (R39, R425). -/
def bankRows (a n : Nat) : List Nat := (List.range ((a % 16 + max n 1 + 15) / 16)).map fun i => bankOf (a / 16 * 16 + 16 * i)

/-- Judges an access of `n` bytes at `a` by master `m`, recording a refusal; `extra` admits what R426 leaves to
other rules (a channel's ring, an exchange slot, a service buffer). Log entry 146 (DEDUCED). -/
def fabJudge (s : State) (m : Master) (a n : Nat) (wnr extra : Bool) : State × FabStat :=
  if !(inShared a n) then (recErr s SEC errUnmapped m a wnr, .unmapped)
  else if decide (a < 0x04000000) && !(stripeWhole s a && stripeWhole s (a + n - 1)) then
    (recErr s SEC errStripeSplit m a wnr, .unmapped)
  else
    let bs := bankRows a n
    if bs.any fun b => decide (bankPwr s b ≠ 0) then (bankDeny s m a wnr 2, .denied)
    else if (bs.all fun b => bankAdmits s m b wnr) || (extra && bs.all fun b => decide (bankState s b = 0)) then (s, .ok)
    else (bankDeny s m a wnr 1, .denied)

/-- The poisoned halves that `n` bytes at `a` touch. -/
def poisonHit (s : State) (a n : Nat) : Bool :=
  (List.range n).any fun i => s.bnk.poison.contains (memKey (a + i) / 8)

/-- Whether a write of `n` bytes at `a` covers only part of a poisoned half (R441). -/
def poisonPartial (s : State) (a n : Nat) : Bool :=
  (List.range n).any fun i =>
    let h := memKey (a + i) / 8
    s.bnk.poison.contains h && !((List.range 8).all fun j =>
      (List.range n).any fun k => decide (memKey (a + k) = h * 8 + j))

/-- Forgets the poison of every half that a write covers, and the write-backs of every row that it reaches (R439, R441). -/
def coverHalves (s : State) (a n : Nat) : State :=
  let hs := (List.range n).map fun i => memKey (a + i) / 8
  { s with bnk := { s.bnk with
      poison := s.bnk.poison.filter fun h => !(hs.contains h)
      writeback := s.bnk.writeback.filter fun h => !(hs.any fun x => decide (x / 2 = h / 2)) } }

/-- A fabric read of `n` bytes. -/
def fabRead (s : State) (m : Master) (a n : Nat) (extra : Bool) : State × FabStat × List Byte :=
  match fabJudge s m a n false extra with
  | (t, .ok) => if poisonHit t a n then (t, .poisoned, []) else (t, .ok, rdBytes t a n)
  | (t, st) => (t, st, [])

/-- The direct-view address of the cell that a pointer names (R93). -/
def cellAddr (ptr : Nat) : Nat := 0x04000000 + 256 * ptr

/-- Whether byte `a` holds `VERDICT` of a stored frame's descriptor: bits [15:12] of word 2 (R97). -/
def verdictByte (s : State) (a : Nat) : Bool := s.sw.frames.any fun e => decide (memKey a = cellAddr e.2.head + 9)

/-- A write of a master other than 4 to a descriptor's `VERDICT` is discarded, and captured in the SEC page (R27, R58): the
bytes that go on keep the field. -/
def verdictGuard (s : State) (m : Master) (a : Nat) (l : List Byte) : State × List Byte :=
  if m ≠ mGate ∧ ((List.range l.length).any fun i => verdictByte s (a + i)) = true then
    (raiseIrq (recErr s SEC errVerdictWrite m a true) SEC 1,
      ((List.range l.length).zip l).map fun e =>
        if verdictByte s (a + e.1) then (memRead s.mem (memKey (a + e.1)) &&& 0xF0#8) ||| (e.2 &&& 0x0F#8) else e.2)
  else (s, l)

/-- A fabric write of bytes. -/
def fabWrite (s : State) (m : Master) (a : Nat) (l : List Byte) (extra : Bool) : State × FabStat :=
  match fabJudge s m a l.length true extra with
  | (t, .ok) =>
    if poisonPartial t a l.length then (t, .poisoned)
    else
      let g := verdictGuard t m a l
      (wrBytes (coverHalves g.1 a l.length) a g.2, .ok)
  | (t, st) => (t, st)

/-- The memory keys of bank `b`, from and up to (direct view). -/
def bankLo (b : Nat) : Nat := 0x04000000 + b * 0x20000

/-- Zeroes a bank: every byte reads 0 and no half is poisoned (R430). -/
def zeroBank (s : State) (b : Nat) : State :=
  { s with
    mem := sclear s.mem (bankLo b) (bankLo (b + 1)) (fun _ => true)
    bnk := { s.bnk with
      poison := s.bnk.poison.filter fun h => decide (h * 8 < bankLo b ∨ bankLo (b + 1) ≤ h * 8)
      writeback := s.bnk.writeback.filter fun h => decide (h * 8 < bankLo b ∨ bankLo (b + 1) ≤ h * 8) } }

/-- Sets `STATE` of a bank. -/
def putBankState (s : State) (b v : Nat) : State := putF s (BNK_BANK_STATUS b) 31 30 v

/-- Sets the actual power of a bank. -/
def putBankPwr (s : State) (b v : Nat) : State := putF s (BNK_BANK_STATUS b) 29 28 v

/-- Applies a bank's `PWR` once it is STABLE; a SWITCH bank stays ON (R444). -/
def applyBankPwr (s : State) (b : Nat) : State :=
  let want := getF s (BNK_BANK_CTRL b) 9 8
  let have_ := bankPwr s b
  if want = have_ then s
  else if want = 0 then
    if have_ = 1 then putBankState s b 3 else putBankState s b 2
  else if bankKind s b = kSwitch then s
  else if want = 1 then putBankPwr s b 1
  else if want = 2 ∧ bankKind s b = kFree then zeroBank (putBankPwr s b 2) b
  else s

/-- A bank enters STABLE at the end of a hand-over: the new owner is admitted, and a SWITCH bank's cells join
the pool (R430, R432). -/
def bankStable (s : State) (b : Nat) : State :=
  let s1 := putBankState { s with bnk := { s.bnk with old := sdel s.bnk.old b } } b 0
  let s2 :=
    if bankKind s1 b = kSwitch then { s1 with sw := { s1.sw with banks := ninsert s1.sw.banks b } } else s1
  freeLowCheck (applyBankPwr (raiseIrq s2 BNK 0) b)

/-- Starts a hand-over of a STABLE bank whose `KIND` or `ENGINE` changes (R430, R431). -/
def startHandOver (s : State) (b : Nat) (new : Word) : State :=
  let old := getR s (BNK_BANK_CTRL b)
  let s1 := putBankState { setR s (BNK_BANK_CTRL b) new with
    bnk := { s.bnk with old := sset s.bnk.old b old }
    sw := { s.sw with banks := s.sw.banks.filter fun x => decide (x ≠ b) } } b 1
  freeLowCheck s1

/-- A write of `BANK_CTRL[b]` (R430, R444, R446). -/
def bankCtrl (b : Nat) (v : Word) (s : State) : State :=
  let a := BNK_BANK_CTRL b
  let old := getR s a
  let kindBad := decide (7 ≤ fld v 27 24) || decide (496 ≤ b)
  let kind := if kindBad then fld old 27 24 else fld v 27 24
  let eng := if decide (496 ≤ b) then fld old 21 16 else fld v 21 16
  let pwrBad := decide (fld v 9 8 = 3) || decide (496 ≤ b) ||
    (decide (fld v 9 8 ≠ 0) && (decide (bankKind s b = kSwitch) || decide (kind = kSwitch))) ||
    (decide (fld v 9 8 = 2) && decide (bankKind s b ≠ kFree))
  let pwr := if pwrBad then fld old 9 8 else fld v 9 8
  let base := setFld (setFld old 9 8 pwr) 1 1 (fld v 1 1)
  let flags := if 496 ≤ b then base else setFld base 4 4 (fld v 4 4)
  let new := setFld (setFld flags 27 24 kind) 21 16 eng
  let moves := decide (kind ≠ fld old 27 24) || decide (eng ≠ fld old 21 16)
  let st := bankState s b
  if st = 0 then
    if moves then startHandOver s b new
    else applyBankPwr (setR s a new) b
  else if !moves then setR s a new
  else
    match sfind s.bnk.old b with
    | some o =>
      if st = 1 ∧ kind = fld o 27 24 ∧ eng = fld o 21 16 then
        let s1 := putBankState { setR s a new with bnk := { s.bnk with old := sdel s.bnk.old b } } b 0
        let s2 := if kind = kSwitch then { s1 with sw := { s1.sw with banks := ninsert s1.sw.banks b } } else s1
        freeLowCheck (applyBankPwr s2 b)
      else raiseIrq (setR s a flags) BNK 1
    | none => raiseIrq (setR s a flags) BNK 1

/-- Whether the drain of bank `b` is complete: a SWITCH bank's cells have left (R431). -/
def drained (s : State) (b : Nat) : Bool :=
  match sfind s.bnk.old b with
  | some o => decide (ctrlKind o ≠ kSwitch) || decide (sget s.sw.used b 0 = 0)
  | none => false

/-- The drain of a bank completes: it is zeroed if `ZERO` is set, else STABLE (R430). -/
def drainDone (b : Nat) (s : State) : State :=
  if bankState s b = 1 ∧ drained s b = true then
    if getB s (BNK_BANK_CTRL b) 1 then putBankState s b 2 else bankStable s b
  else s

/-- Zeroing completes (R430, R444): after a hand-over the new owner is admitted, after OFF the bank is ON; a `PWR` written
meanwhile takes effect. -/
def zeroingDone (b : Nat) (s : State) : State :=
  if bankState s b = 2 then
    let s1 := zeroBank s b
    if (sfind s.bnk.old b).isSome then bankStable s1 b
    else applyBankPwr (putBankPwr (putBankState s1 b 0) b 0) b
  else s

/-- A bank returning from RETAIN becomes available (R444); a `PWR` written meanwhile takes effect. -/
def bankWakeDone (b : Nat) (s : State) : State :=
  if bankState s b = 3 then applyBankPwr (putBankPwr (putBankState s b 0) b 0) b else s

/-- A write of `PWR` of a bank (R444). -/
def bankPower (b p : Nat) (s : State) : State :=
  bankCtrl b (setFld (getR s (BNK_BANK_CTRL b)) 9 8 p) s

/-- The lowest-numbered free spare (R443). -/
def freeSpare (s : State) : Option Nat :=
  ((List.range 16).map fun i => 512 + i).find? fun p => decide (getF s (BNK_PHYS_word_1 p) 31 30 = 0)

/-- Spares free (`BNK.STATUS[4:0]`). -/
def sparesFree (s : State) : Nat :=
  (((List.range 16).map fun i => 512 + i).filter fun p => decide (getF s (BNK_PHYS_word_1 p) 31 30 = 0)).length

/-- Puts logical bank `b` onto the free spare `p` (R40, R443). -/
def substitute (s : State) (b p : Nat) : State :=
  let o := getF s (BNK_MAP b) 9 0
  let s1 := putF (putF s (BNK_PHYS_word_1 o) 31 30 1) (BNK_PHYS_word_1 o) 25 16 0x3FF
  let s2 := putF (putB s1 (BNK_PHYS_word_1 p) 31 true) (BNK_PHYS_word_1 p) 25 16 b
  putB (zeroBank (putF s2 (BNK_MAP b) 9 0 p) b) (BNK_BANK_STATUS b) 27 false

/-- Spare `p` stands in for bank `b` in service: the health record lists it, and `SYS.HEALTH` counts the spares left (R74). -/
def healthBank (s : State) (b p : Nat) : State :=
  healthPut (fun h => { h with banks := h.banks ++ [(b, p)] }) (putF s SYS_HEALTH 24 20 (sparesFree s))

/-- Ends a `BNK.CMD` with a status (R446). -/
def bnkCmdEnd (s : State) (st : Nat) : State :=
  raiseIrq (setR s BNK_CMD_RESULT (w32 (0x80000000 + st * 0x10000000))) BNK 9

/-- `BNK.CMD` (R442, R443, R446, R586). Each command completes in its own step. Log entry 20 (DEDUCED). -/
def bnkCmd (v : Word) (s : State) : State :=
  let b := fld v 25 16
  let op := fld v 2 0
  if 512 ≤ b then bnkCmdEnd s 4
  else if op = 1 then
    if bankKind s b ≠ kFree ∨ bankState s b ≠ 0 then bnkCmdEnd s 2
    else match freeSpare s with
      | none => bnkCmdEnd s 3
      | some p => bnkCmdEnd (healthBank (substitute s b p) b p) 0
  else if op = 2 then bnkCmdEnd s 0
  else bnkCmdEnd s 4

/-- Marks a logical bank's physical bank SUSPECT (R443): shown in its status and health, interrupt bit 8, and SYS
bit 5 (R88). Log entry 143 (DEDUCED). -/
def markSuspect (s : State) (b : Nat) : State :=
  let p := getF s (BNK_MAP b) 9 0
  if getB s (BNK_PHYS_word_1 p) 29 then s
  else
    let s1 := healthPut (fun h => { h with suspect := h.suspect ++ [p] }) s
    raiseIrq (raiseIrq (putB (putB s1 (BNK_PHYS_word_1 p) 29 true) (BNK_BANK_STATUS b) 27 true) BNK 8) SYS 5

/-- A single-bit error in the half `h` of bank `b` is corrected and counted (R439, R443). -/
def eccCorrect (s : State) (b h : Nat) : State :=
  let p := getF s (BNK_MAP b) 9 0
  let n := sget s.bnk.passCe p 0 + 1
  let s1 := bump (bump s (BNK_PHYS_word_0 p)) BNK_CE_TOTAL
  let s2 := raiseIrq { s1 with bnk := { s1.bnk with
    writeback := s1.bnk.writeback ++ [h], passCe := sset s1.bnk.passCe p n } } BNK 2
  if max 1 (getF s BNK_CE_LIMIT 15 0) ≤ n then markSuspect s2 b else s2

/-- A double-bit error poisons the half `h` of bank `b` (R440, R443). -/
def eccPoison (s : State) (b h : Nat) (reader : Master) : State :=
  if s.bnk.poison.contains h then s
  else
    let p := getF s (BNK_MAP b) 9 0
    let s1 := bump { s with bnk := { s.bnk with poison := ninsert s.bnk.poison h } } BNK_UE_TOTAL
    let s2 := setR (setR s1 BNK_UE_LAST_ADDR (w32 (h * 8))) BNK_UE_LAST_INFO (w32 (0x80000000 + reader.toNat * 65536 + p))
    markSuspect (raiseIrq s2 BNK 3) b

/-- What reading one half shows. Log entry 143 (DEDUCED). -/
def eccHalf (s : State) (b h : Nat) (reader : Master) (k : EccKind) : State :=
  match k with
  | .clean => s
  | .single => eccCorrect s b h
  | .double => eccPoison s b h reader

/-- Whether bank `b` holds a poisoned half (`BANK_STATUS[b].POISON`, R446). Log entry 143 (DEDUCED). -/
def bankPoisoned (s : State) (b : Nat) : Bool :=
  s.bnk.poison.any fun h => decide (bankLo b ≤ h * 8 ∧ h * 8 < bankLo (b + 1))

/-- `SCRUB_PERIOD` as it acts, in seconds (R442, R446). -/
def scrubPeriod (s : State) : Nat :=
  let p := getF s BNK_SCRUB_PERIOD 16 0
  if p = 0 then 60 else min p 86400

/-- Rows of the banks below `b` that a pass reads: those of the banks that are ON (R442). -/
def scrubRows (s : State) (b : Nat) : Nat := 8192 * ((List.range b).filter fun x => decide (bankPwr s x = 0)).length

/-- Rows by which `SCRUB_POS` lags the pace of one pass in `SCRUB_PERIOD` seconds (R438, R442).
Log entry 143 (DEDUCED). -/
def scrubLag (s : State) : Nat :=
  let pos := getR s BNK_SCRUB_POS
  scrubRows s 512 * (s.time.aonNs - s.bnk.passFrom) / (scrubPeriod s * 1000000000) -
    (scrubRows s (fld pos 25 16) + fld pos 12 0)

/-- Whether the scrubber lags its pace by more than 64 rows (R438). -/
def scrubBehind (s : State) : Bool := decide (64 < scrubLag s)

/-- `STATUS.SCRUB_BEHIND` follows the scrubber's lag, and its setting raises interrupt bit 7 (R438, R447). -/
def scrubPace (s : State) : State :=
  let t := putB s BNK_STATUS 31 (scrubBehind s)
  if scrubBehind s && !(getB s BNK_STATUS 31) then raiseIrq t BNK 7 else t

/-- The scrubber reads a row (R438, R442); after the last row of the last bank the pass is complete and the next begins.
Log entry 143 (DEDUCED). -/
def scrubStep (b row : Nat) (lo hi : EccKind) (s : State) : State :=
  if bankPwr s b ≠ 0 then s else
  let h := (bankLo b + row * 16) / 8
  let s1 := eccHalf (eccHalf s b h 0 lo) b (h + 1) 0 hi
  let last := decide (b = 511) && decide (row = 8191)
  let s2 := setR s1 BNK_SCRUB_POS (if last then 0 else
    if row = 8191 then w32 ((b + 1) * 65536) else w32 (b * 65536 + row + 1))
  scrubPace (if last then
    raiseIrq (bump { s2 with bnk := { s2.bnk with passCe := [], passFrom := s2.time.aonNs } } BNK_SCRUB_PASSES) BNK 6
  else s2)

/-- The oldest corrected half is written back (R439): the bytes stand as they read. -/
def writebackStep (s : State) : State :=
  { s with bnk := { s.bnk with writeback := s.bnk.writeback.drop 1 } }

/-- A far store's bus error comes back to the core of master `m` later (R419). -/
def pendAsync (s : State) (m : Master) (a : Nat) : State :=
  if m = mSSP then { s with cores := smod s.cores 48 CoreSt.init fun c => { c with async := c.async ++ [w32 a] } }
  else if m = mMGP then { s with cores := smod s.cores 49 CoreSt.init fun c => { c with async := c.async ++ [w32 a] } }
  else s

/-- `BNK.BANK_CTRL[b]` is written. -/
def execBankCtrlWrite (m : Master) (b : Fin 512) (v : Word) (s : State) : Res :=
  .next (gatedWrite m (BNK_BANK_CTRL b.val) (bankCtrl b.val v) s)

/-- A draining bank's old owner is gone (R431). -/
def execDrainComplete (b : Fin 512) (s : State) : Res := .next (drainDone b.val s)

/-- Zeroing of a bank ends (R430). -/
def execZeroingComplete (b : Fin 512) (s : State) : Res := .next (zeroingDone b.val s)

/-- A bank's power is requested (R444). -/
def execBankPowerRequest (m : Master) (b : Fin 512) (pwr : BitVec 2) (s : State) : Res :=
  .next (gatedWrite m (BNK_BANK_CTRL b.val) (bankPower b.val pwr.toNat) s)

/-- A bank has left RETAIN (R444). -/
def execBankWakeComplete (b : Fin 512) (s : State) : Res := .next (bankWakeDone b.val s)

/-- `BNK.CMD` REPLACE (R443). -/
def execReplace (m : Master) (v : Word) (s : State) : Res :=
  .next (gatedWrite m BNK_CMD (bnkCmd (setFld v 2 0 1)) s)

/-- `BNK.CMD` SCRUB_BANK (R442). -/
def execScrubBank (m : Master) (v : Word) (s : State) : Res :=
  .next (gatedWrite m BNK_CMD (bnkCmd (setFld v 2 0 2)) s)

/-- The scrubber reads a row (R442). -/
def execScrubRow (b : Fin 512) (row : Fin 8192) (lo hi : EccKind) (s : State) : Res :=
  .next (scrubStep b.val row.val lo hi s)

/-- A corrected half is written back (R439). -/
def execEccWriteback (s : State) : Res := .next (writebackStep s)

/-- An access meets the bank's kind and power: refused, it is recorded and counted (R427). -/
def execBankDenial (m : Master) (a : Word) (wnr : Bool) (s : State) : Res :=
  .next (match fabJudge s m a.toNat 1 wnr false with
    | (t, .ok) => answer t 0
    | (t, _) => answerErr t)

/-- `BNK.DENY_COUNT` reads and clears (R446). -/
def execBnkDenyCountRead (m : Master) (s : State) : Res :=
  .next (gatedRead m BNK_DENY_COUNT (fun t => (setR t BNK_DENY_COUNT 0, getR t BNK_DENY_COUNT)) s)

end Sys2Proof.Machine
end

