-- ==== Sys2Proof/Machine/Time.lean ====
section
/-! DEFINITION. The Tense counter and the time bases as they advance (R479–R488): the operations that the
other families call; the commands of the Tense unit stand in `Tns.lean`. -/

namespace Sys2Proof.Machine

open Reg

/-- The Tense counter as a number of nanoseconds. -/
def tenseNs (s : State) : Nat := s.time.tense.toNat

/-- The CORE copy of the Tense counter (R481): the counter with the place of the present core edge in its TIME cycle.
Log entry 10 (DESIGN CHOICE). -/
def coreTense (s : State) : DWord := s.time.tense + s.time.copy.setWidth 64

/-- Units of 2^-48 ns in one nanosecond. -/
abbrev fracOne : Nat := 0x1000000000000

/-- The modulus of a time base: 2^64 seconds, in units of 2^-48 ns (R483). -/
abbrev tbMod : Nat := 0x10000000000000000 * 1000000000 * fracOne

/-- Time base `b`. -/
def tbOf (s : State) (b : Nat) : TbSt := sget s.time.tb b TbSt.init

/-- Changes time base `b`. -/
def tbSet (s : State) (b : Nat) (t : TbSt) : State := { s with time := { s.time with tb := sset s.time.tb b t } }

/-- What base `b` advances in one TIME cycle at its rate, in 2^-48 ns (R484). -/
def tbInc (s : State) (b : Nat) : Nat :=
  Int.toNat (4 * (fracOne : Int) + (getR s (TNS_RATE b)).toInt * 512)

/-- What a slew adds in one TIME cycle, in 2^-48 ns (R484, R487). Log entry 99 (DEDUCED). -/
def slewStep (ppm : Nat) : Nat := 4 * ppm * fracOne / 1000000

/-- How much of the amount `r` a slew with this step has added after `k` TIME cycles: the last cycle takes the exact
remainder (R487). Log entry 99 (DEDUCED). -/
def slewAdded (r : Int) (step k : Nat) : Int :=
  if 0 ≤ r then min r ((k * step : Nat) : Int) else max r (-((k * step : Nat) : Int))

/-- Base `t`, advancing by `inc` in a cycle, after `k` TIME cycles. -/
def tbAfter (t : TbSt) (inc k : Nat) : TbSt :=
  let d := slewAdded t.slew (slewStep t.ppm) k
  { t with v := Int.toNat (((t.v + k * inc : Nat) : Int) + d) % tbMod, slew := t.slew - d }

/-- Whole AON ticks in `n` nanoseconds beyond what is held, and what is left. Log entry 98 (DEDUCED). -/
def aonTicksIn (acc ns : Nat) : Nat × Nat := ((acc + ns * 32768) / 1000000000, (acc + ns * 32768) % 1000000000)

/-- Cluster `c` runs for `ns` nanoseconds at its actual clock step: 1,024 cycles count one (R527). -/
def countCluster (ns : Nat) (s : State) (c : Nat) : State :=
  if getB s (PLC_CLUSTER c) 31 then
    let k := getF s (CLK_CLUSTER_STEP c) 5 4
    let n := sget s.pwr.cacc c 0 + ns * (4 - k)
    let s1 := { s with pwr := { s.pwr with cacc := sset s.pwr.cacc c (n % 10240) } }
    if n < 10240 then s1 else bumpN s1 (PWR_RES_CLUSTER c k) (n / 10240)
  else s

/-- `ns` nanoseconds pass in the always-on domain: its tick count, the RTC and the residency counters advance
(R80, R527). Log entry 98 (DEDUCED). -/
def advanceAon (s : State) (ns : Nat) : State :=
  let p := aonTicksIn s.time.aonAcc ns
  let s1 := { s with
    sys := { s.sys with aonTicks := s.sys.aonTicks + p.1 }
    time := { s.time with
      aonNs := s.time.aonNs + ns
      aonAcc := p.2
      rtc := if s.time.rtcOn then (s.time.rtc + p.1) % (2 ^ 48 * 32768) else s.time.rtc } }
  let cur := getF s1 PWR_STATUS 1 0
  let s2 := if p.1 = 0 then s1 else bumpN s1 (PWR_RES_STATE cur) p.1
  if cur = 0 ∧ s2.time.running then (List.range 16).foldl (countCluster ns) s2 else s2

/-- `k` TIME cycles pass: the Tense counter and the bases advance while the TIME domain runs (R479, R484); where the core edge
then stands in its TIME cycle is open (R481). Log entries 2 (DESIGN CHOICE), 10 (DESIGN CHOICE). -/
def advanceCycles (s : State) (k : Nat) : State :=
  let s1 := advanceAon s (4 * k)
  if s1.time.running then
    let t := s1.time.tense + BitVec.ofNat 64 (4 * k)
    { s1 with time := { s1.time with
        tense := t
        copy := if k = 0 then s1.time.copy else Config.corePhase t
        tb := (List.range 4).foldl (fun m b => sset m b (tbAfter (tbOf s b) (tbInc s b) k)) s1.time.tb } }
  else s1

/-- What passes while no command waits: one TIME cycle. Log entry 2 (DESIGN CHOICE). -/
def idleTick (s : State) : State := advanceCycles s 1

/-- The clock advances until the Tense counter has reached `ns`; a time that has passed changes nothing.
Log entry 8 (DESIGN CHOICE). -/
def advanceNs (s : State) (ns : Nat) : State :=
  if ns ≤ tenseNs s then s else advanceCycles s ((ns - tenseNs s + 3) / 4)

/-- The clock advances to the core edge at which the CORE copy shows `e`; a time that has passed changes nothing (R31, R481).
Log entries 8 (DESIGN CHOICE), 10 (DESIGN CHOICE). -/
def advanceCopy (s : State) (e : Nat) : State :=
  if e ≤ (coreTense s).toNat ∨ s.time.running = false then s
  else
    let s1 := advanceCycles s ((e - tenseNs s) / 4)
    { s1 with time := { s1.time with copy := BitVec.ofNat 2 ((e - tenseNs s) % 4) } }

/-- The clock advances to the first edge of a clock of `k` times 100 MHz at which the CORE copy has reached `t` (R31, R404,
R481): where the edge falls in the clock's period is open. Log entries 8 (DESIGN CHOICE), 10 (DESIGN CHOICE). -/
def advanceCore (s : State) (k t : Nat) : State :=
  if t ≤ (coreTense s).toNat then s
  else advanceCopy s (t + (Config.coreLag (BitVec.ofNat 64 t)).toNat % ((19 + k) / k) / 2)

/-- The clock advances until the Tense counter has reached `h` half nanoseconds. Log entry 8 (DESIGN CHOICE). -/
def advanceHalf (s : State) (h : Nat) : State := advanceNs s ((h + 1) / 2)

/-- The seconds of a base's value. -/
def vSec (v : Nat) : Nat := v / (1000000000 * fracOne)

/-- The nanoseconds of a base's value. -/
def vNs (v : Nat) : Nat := v / fracOne % 1000000000

/-- The visible fraction of a base's value, in 2^-16 ns. -/
def vFrac (v : Nat) : Nat := v / 0x100000000 % 0x10000

/-- The composite value of base `b` (R485). -/
def tbNs (s : State) (b : Nat) : Nat := (tbOf s b).v / fracOne % 0x10000000000000000

/-- The seconds and nanoseconds of base `b` as one number of nanoseconds, not reduced (R125, R485). -/
def tbWide (s : State) (b : Nat) : Nat := (tbOf s b).v / fracOne

/-- Whether base `b` is valid (R488). -/
def tbValid (s : State) (b : Nat) : Bool := getB s (TNS_TB_CTRL b) 31

/-- The value of base `b` at an instant `ph` nanoseconds from the present TIME cycle (R484). -/
def tbAtPhase (s : State) (b : Nat) (ph : Int) : Nat :=
  Int.toNat (((tbOf s b).v : Int) + ph * ((tbInc s b : Nat) : Int) / 4) % tbMod

/-- TIME cycles until base `b` has reached the value `w` in 2^-48 ns, with the slew in progress; the first cycle at
whose start its value is at least `w`. -/
def cyclesTo (s : State) (b w : Nat) : Nat :=
  let t := tbOf s b
  let inc := tbInc s b
  let st := slewStep t.ppm
  let k1 := if st = 0 then 0 else (t.slew.natAbs + st - 1) / st
  let fast := if 0 ≤ t.slew then inc + st else inc - st
  let k := if w ≤ t.v then 0 else (w - t.v + fast - 1) / fast
  if k < k1 then k
  else
    let v1 := Int.toNat (((t.v + k1 * inc : Nat) : Int) + t.slew)
    if w ≤ v1 then k1 else k1 + (w - v1 + inc - 1) / inc

/-- The clock advances until base `b` has reached the composite time `ns`. -/
def advanceTb (s : State) (b ns : Nat) : State := advanceCycles s (cyclesTo s b (ns * fracOne))

/-- `VALID` of base `b` has changed: interrupt bit 13 (R488); one of base 0 changes the journal clock, which begins a new
journal second (R200). -/
def validMoved (s : State) (b : Nat) : State :=
  let s1 := raiseIrq s TNS 13
  if b = 0 then { s1 with vlt := { s1.vlt with jsplit := true } } else s1

/-- `VALID` of base `b` takes a value (R488). -/
def putValid (s : State) (b : Nat) (v : Bool) : State :=
  if tbValid s b = v then s else validMoved (putB s (TNS_TB_CTRL b) 31 v) b

/-- A servo update of base `b` (R486, R487). -/
def servoUpdate (s : State) (b : Nat) : State := tbSet s b { tbOf s b with servo := s.time.tense }

end Sys2Proof.Machine
end

