-- ==== Sys2Proof/Machine/Place.lean ====
section
/-! DEFINITION. Which engine serves a channel and on which queue-head slot, which silicon hosts it, and the
events that its controllers raise (R11, R351, R352, R358). -/

namespace Sys2Proof.Machine

open Reg

/-- Whether R11 assigns channel `c` to an attachment. -/
def chanAssigned (c : Nat) : Bool :=
  decide (c < 192) || (decide (256 ≤ c) && decide (c < 304)) || (decide (320 ≤ c) && decide (c < 336)) ||
  (decide (384 ≤ c) && decide (c < 448))

/-- The kind of channel `c`: 0 MAC, 1 multidrop, 2 Period Link, 3 Particle (R11, R359). -/
def chanKind (c : Nat) : Nat := if c < 192 then 0 else if c < 320 then 1 else if c < 384 then 2 else 3

/-- Whether channel `c` is guarded: the field of its own page (R54, R362). -/
def chanGuarded (s : State) (c : Nat) : Bool :=
  if c < 192 then getB s (SWC_PORT c) 3
  else if c < 320 then getB s (MDB_GUARDED (c - 256)) 0
  else if c < 384 then getB s (PLK_GUARDED (c - 320)) 0
  else getB s (PTC_GUARDED (c - 384)) 0

/-- The state of logical engine `n`. -/
def eng (s : State) (n : Nat) : EngSt := sget s.eng n EngSt.init

/-- Changes the state of logical engine `n`. -/
def engMod (s : State) (n : Nat) (f : EngSt → EngSt) : State := { s with eng := smod s.eng n EngSt.init f }

/-- Queue-head slot `k` of engine `n`. -/
def qhSlot (s : State) (n k : Nat) : QhSlot := sget (eng s n).slots k QhSlot.init

/-- Sets queue-head slot `k` of engine `n`. -/
def qhSet (s : State) (n k : Nat) (q : QhSlot) : State := engMod s n fun e => { e with slots := sset e.slots k q }

/-- The engine that serves channel `c`: 0x3F where none does. -/
def engineOf (s : State) (c : Nat) : Nat := sget s.plc.serve c 0x3F

/-- The slot of engine `n` that holds channel `c` in one of the given states. -/
def slotOf (s : State) (n c : Nat) (sts : List Nat) : Option Nat :=
  (List.range 8).find? fun k => decide ((qhSlot s n k).chan = c) && sts.contains (qhSlot s n k).st

/-- Raises the line of the slot in which channel `c`'s serving engine holds it (R358). -/
def slotEvent (s : State) (c : Nat) : State :=
  let n := engineOf s c
  match slotOf s n c [1, 3] with
  | some k => raiseEvent s n k
  | none => s

/-- Raises event line `l` of the engine that serves channel `c` (R307). -/
def serveEvent (s : State) (c l : Nat) : State := raiseEvent s (engineOf s c) l

/-- The physical engine that hosts logical engine `n` (R352, R375). -/
def physOf (s : State) (n : Nat) : Option Nat :=
  (List.range 52).find? fun p => getB s (PEN_MAP p) 31 && decide (getF s (PEN_MAP p) 21 16 = n)

/-- The logical engine that physical engine `p` hosts, if it hosts one. -/
def logicalOf (s : State) (p : Nat) : Option Nat :=
  if getB s (PEN_MAP p) 31 ∧ getF s (PEN_MAP p) 21 16 < 48 then some (getF s (PEN_MAP p) 21 16) else none

/-- The memory key of local address `off` of logical engine `n`; an engine without silicon uses no window. -/
def engKeyMem (s : State) (n off : Nat) : Option Nat := (physOf s n).map fun p => tcmKey p off

/-- Whether `n` bytes at local address `a` lie in D-TCM (R42). -/
def inDtcm (a n : Nat) : Bool := decide (0x10000 ≤ a) && decide (a + n ≤ 0x30000)

/-- `len` bytes of logical engine `n`'s TCM from local address `a`. -/
def tcmBytes (s : State) (n a len : Nat) : List Byte :=
  match physOf s n with
  | some p => (List.range len).map fun i => memRead s.mem (tcmKey p (a + i))
  | none => List.replicate len 0

/-- Writes bytes at a memory key and above. -/
def memPut (m : List Host.Cell) (k : Nat) (l : List Byte) : List Host.Cell :=
  match l with
  | [] => m
  | b :: r => memPut (memWrite m k b) (k + 1) r

/-- Writes bytes into logical engine `n`'s TCM from local address `a`. -/
def tcmWrite (s : State) (n a : Nat) (l : List Byte) : State :=
  match physOf s n with
  | some p => { s with mem := memPut s.mem (tcmKey p a) l }
  | none => s

/-- Whether an engine's `ADMIT` bit is set (R365, R376). -/
def admits (s : State) (n : Nat) : Bool :=
  if n < 32 then getB s PLC_ADMIT_LO n else getB s PLC_ADMIT_HI (n - 32)

end Sys2Proof.Machine
end

