-- ==== Sys2Proof/Machine/Switch.lean ====
section
/-! DEFINITION. The switch core as far as the queues (04): cells, parsing, sorting, forwarding database,
decision, admission, drops and samples, gate lists, and the table commands. What egress does stands in
`Egress.lean`. -/

namespace Sys2Proof.Machine

open Reg

/-- Word `w` of `SWC.PORT[p]`. -/
def portW (s : State) (p w : Nat) : Word := getR s (SWC_PORT p + 4 * w)

/-! Frames, cells and counts. -/

/-- Cells of a frame of `n` stored bytes (R94). -/
def cellsFor (n : Nat) : Nat := 1 + (n - 224 + 255) / 256


/-- The cells of a frame: `n` of them, along the link RAM from `ptr` (R95). -/
def cellChain (s : State) (n ptr : Nat) : List Nat :=
  match n with
  | 0 => []
  | 1 => [ptr]
  | n + 1 => ptr :: cellChain s n (sget s.sw.link ptr 0)

/-- The cells of a stored frame, head first (R94, R95). Log entry 51 (DEDUCED). -/
def cellsOf (s : State) (d : Desc) : List Nat := cellChain s (cellsFor d.len) d.head

/-- The last cell of a stored frame. -/
def lastCell (s : State) (d : Desc) : Nat := (cellsOf s d).getLastD d.head

/-- The reference count of a stored frame, in the link RAM entry of its last cell (R95). -/
def refsOf (s : State) (d : Desc) : Nat := sget s.sw.link (lastCell s d) 0

/-- Where a frame's bytes lie, in order: the address and the number in each cell (R94). -/
def cellSpans (cells : List Nat) (len : Nat) : List (Nat × Nat) :=
  match cells with
  | [] => []
  | c :: r => (cellAddr c + 32, min 224 len) ::
      (List.range r.length).map fun i => (cellAddr (lget r i 0), min 256 (len - 224 - 256 * i))

/-- A stored frame as its cells hold it (R94, R130). Log entry 51 (DEDUCED). -/
def frameRead (s : State) (d : Desc) : Frame :=
  let l := cellSpans (cellsOf s d) d.len
  { toDesc := d, bytes := l.flatMap fun e => rdBytes s e.1 e.2, poison := l.any fun e => poisonHit s e.1 e.2 }

/-- The frame with number `fid`. -/
def frameOf (s : State) (fid : Nat) : Option Frame := (sfind s.sw.frames fid).map (frameRead s)

/-- The descriptor (R97); `MC` shows whether more than one copy waits. Log entry 63 (DEDUCED). -/
def descriptorBytes (s : State) (d : Desc) : List Byte :=
  let w0 := nb (decide (1 < refsOf s d)) * 0x80000000 + nb d.trunc * 0x40000000 + nb d.imp * 0x20000000 +
    d.disp * 0x2000000 + d.tc * 0x400000 + d.src * 0x4000 + d.len
  let w2 := d.handle * 0x10000 + d.verdict * 0x1000 + d.engine * 0x40 + d.remadeBy
  leBytes 4 w0 ++ leBytes 4 d.check.toNat ++ leBytes 4 w2 ++ leBytes 4 d.itemTag ++ leBytes 4 d.epoch.toNat ++
    leBytes 4 d.enqUs.toNat ++ leBytes 4 (d.keyId * 0x10000 + d.channel) ++ leBytes 4 d.rxTime.toNat

/-- Writes bytes of a frame into a cell. -/
def cellPut (s : State) (a : Nat) (b : List Byte) : State := wrBytes (coverHalves s a b.length) a b

/-- Writes a stored frame's descriptor into its head cell (R97). Log entry 51 (DEDUCED). -/
def descPut (s : State) (d : Desc) : State := cellPut s (cellAddr d.head) (descriptorBytes s d)

/-- Writes a frame's bytes into its cells (R94). Log entry 51 (DEDUCED). -/
def framePut (s : State) (l : List (Nat × Nat)) (b : List Byte) : State :=
  match l with
  | [] => s
  | e :: r => framePut (cellPut s e.1 (b.take e.2)) r (b.drop e.2)

/-- Links a frame's cells, with a reference count in the last one's entry (R95). Log entry 51 (DEDUCED). -/
def linkCells (s : State) (cells : List Nat) (refs : Nat) : State :=
  match cells with
  | [] => s
  | [c] => { s with sw := { s.sw with link := ssetD 0 s.sw.link c refs } }
  | c :: d :: r => linkCells { s with sw := { s.sw with link := ssetD 0 s.sw.link c d } } (d :: r) refs

/-- Changes what the switch keeps of a stored frame, and its descriptor with it. -/
def frameMod (s : State) (fid : Nat) (f : Desc → Desc) : State :=
  match sfind s.sw.frames fid with
  | some x => descPut { s with sw := { s.sw with frames := sset s.sw.frames fid (f x) } } (f x)
  | none => s

/-- Sets the reference count of a stored frame, and `MC` with it (R95, R97). -/
def refsPut (s : State) (fid n : Nat) : State :=
  match sfind s.sw.frames fid with
  | some x => descPut { s with sw := { s.sw with link := ssetD 0 s.sw.link (lastCell s x) n } } x
  | none => s

/-- Cells in use in a bank change: the bank's status shows them (R431, R446). -/
def putUsed (s : State) (b n : Nat) : State :=
  putF { s with sw := { s.sw with used := sset s.sw.used b n } } (BNK_BANK_STATUS b) 9 0 n

/-- Takes `n` cells that are not among `busy` from the banks in turn, the lowest first (R96). Log entry 50 (DEDUCED). -/
def takeCells (s : State) (busy : List Nat) (n : Nat) (banks : List Nat) : Option (State × List Nat) :=
  match banks with
  | [] => if n = 0 then some (s, []) else none
  | b :: r =>
    let k := min (512 - sget s.sw.used b 0) n
    if k = 0 then takeCells s busy n r
    else
      let got := (((List.range 512).map fun i => 512 * b + i).filter fun c => !(busy.contains c)).take k
      (takeCells (putUsed s b (sget s.sw.used b 0 + k)) busy (n - k) r).map fun p => (p.1, got ++ p.2)

/-- Allocates the cells of a frame at stage 3 (R93, R96). Log entry 50 (DEDUCED). -/
def allocCells (s : State) (n : Nat) : Option (State × List Nat) :=
  (takeCells s (s.sw.frames.flatMap fun e => cellsOf s e.2) n s.sw.banks).map fun p => (freeLowCheck p.1, p.2)

/-- Returns cells to their banks (R95, R431). -/
def freeCellsOf (s : State) (l : List Nat) : State :=
  freeLowCheck (l.foldl (fun t c => putUsed t (c / 512) (sget t.sw.used (c / 512) 0 - 1)) s)

/-- One reference to a frame is released: with the last one its cells return (R95). -/
def unref (s : State) (fid : Nat) : State :=
  match sfind s.sw.frames fid with
  | none => s
  | some d =>
    if refsOf s d ≤ 1 then freeCellsOf { s with sw := { s.sw with frames := sdel s.sw.frames fid } } (cellsOf s d)
    else refsPut s fid (refsOf s d - 1)

/-- Occupancy of a queue in cells (R120). -/
def occ (s : State) (p c : Nat) : Nat :=
  s.sw.queue.foldl (fun n e =>
    if e.port = p ∧ e.cls = c then n + (match sfind s.sw.frames e.fid with
      | some d => cellsFor d.len
      | none => 0) else n) 0

/-! Rings in shared memory (R133). -/

/-- Whether the ring whose size, head and tail are given is full. Log entry 94 (DEDUCED). -/
def ringFull (sz hd tl : Nat) : Bool := decide ((hd + 1) % sz = tl % sz)

/-- The drop ring's and the sample ring's levels drive interrupt bits 0 and 2 (R141). -/
def swRingLevels (s : State) : State :=
  let s1 := setRaw s SWC 0 (decide (getF s SWC_DROP_RING_HEAD 15 0 ≠ getF s SWC_DROP_RING_TAIL 15 0))
  setRaw s1 SWC 2 (decide (getF s1 SWC_SMP_HEAD 15 0 ≠ getF s1 SWC_SMP_TAIL 15 0))

/-- The record header of R132. -/
def swRecord (f : Frame) (eg reason cls n : Nat) : List Byte :=
  [b8 f.src, b8 eg, b8 (reason * 16 + cls * 2), b8 f.flags] ++ leBytes 2 f.bytes.length ++ leBytes 2 n ++
    leBytes 4 f.rxTime.toNat ++ leBytes 4 f.itemTag

/-- Writes a record into the drop ring as master 5, or counts it lost (R132). -/
def dropRecord (s : State) (f : Frame) (eg reason cls : Nat) : State :=
  let sz := getF s SWC_DROP_RING_SIZE 16 0
  let hd := getF s SWC_DROP_RING_HEAD 15 0
  if sz = 0 then s
  else if ringFull sz hd (getF s SWC_DROP_RING_TAIL 15 0) then raiseIrq (satInc s SWC_DROP_RING_LOST) SWC 1
  else
    let n := min 112 f.bytes.length
    let w := fabWrite s 5 ((getR s SWC_DROP_RING_BASE).toNat + 128 * hd)
      (swRecord f eg reason cls n ++ slice f.bytes 0 112) false
    swRingLevels (putF w.1 SWC_DROP_RING_HEAD 15 0 ((hd + 1) % sz))

/-- Reason codes of R136. -/
abbrev dropE2E : Nat := 1
/-- ADMIT_THRESHOLD. -/
abbrev dropAdmit : Nat := 2
/-- AGED. -/
abbrev dropAged : Nat := 3
/-- PURGED. -/
abbrev dropPurged : Nat := 4
/-- TRUNC. -/
abbrev dropTrunc : Nat := 5
/-- SIEVE_BLOCK. -/
abbrev dropSieve : Nat := 6
/-- ECC_POISON. -/
abbrev dropPoison : Nat := 7
/-- FCS_BAD. -/
abbrev dropFcs : Nat := 8
/-- RING_STOMP. Log entry 74 (DEDUCED). -/
abbrev dropStomp : Nat := 9
/-- NO_ROUTE. Log entry 53 (DEDUCED). -/
abbrev dropNoRoute : Nat := 10
/-- SHAPED. -/
abbrev dropShaped : Nat := 11

/-- Counts a drop with reason `r` against port `p` (R136), with the interrupt bit of R141. -/
def countDrop (s : State) (p r : Nat) : State :=
  let s1 := bump (bump s (SWC_DROP p r)) (SWC_DROP p 0)
  match r with
  | 1 => raiseIrq s1 SWC 4
  | 6 => raiseIrq s1 SWC 7
  | 7 => raiseIrq s1 SWC 5
  | 9 => raiseIrq s1 SWC 6
  | _ => s1

/-- A frame or copy is dropped: counted against port `p`, and recorded in the drop ring when the mask asks for its
reason and no record has been written for the frame (R132, R136). `eg` is the egress port, 0xFF where there is none. -/
def dropFrame (s : State) (f : Frame) (p r eg cls : Nat) : State :=
  let s1 := countDrop s p r
  if getB s SWC_DROP_RING_MASK r && !f.dropRec then dropRecord s1 f eg r cls else s1

/-- A stored frame's copy is dropped: only the first drop of a frame may write a record (R132). -/
def dropStored (s : State) (fid p r eg cls : Nat) : State :=
  match frameOf s fid with
  | none => s
  | some f => frameMod (dropFrame s f p r eg cls) fid fun f => { f with dropRec := true }

/-! Parsing and the sort key (R100, R101). -/

/-- What the parser reads. `off` is the position after the EtherType. -/
structure Parsed where
  vid : Nat
  pcp : Nat
  dei : Nat
  etype : Nat
  off : Nat
  hsr : Bool
  prp : Bool
  tagged : Bool
  double : Bool
  deriving DecidableEq, Repr

/-- Bytes of 802.1Q tags after the addresses: 0, 4 or 8 (R100). -/
def tagBytes (b : List Byte) : Nat :=
  let t := beAt b 12 2
  if t = 0x8100 ∨ t = 0x88A8 then (if beAt b 16 2 = 0x8100 then 8 else 4) else 0

/-- Whether the frame ends with a PRP trailer whose LSDU size is the number of bytes from `off` to the frame's end.
Log entry 56 (PRESUMED). -/
def hasPrp (b : List Byte) (off : Nat) : Bool :=
  decide (off + 6 ≤ b.length) && decide (beAt b (b.length - 2) 2 = 0x88FB) &&
  decide (beAt b (b.length - 4) 2 % 4096 = b.length - off)

/-- The parser (R100), for a frame that arrived on logical port `p`. -/
def parseFrame (s : State) (p : Nat) (b : List Byte) : Parsed :=
  let tb := tagBytes b
  let tci := beAt b 14 2
  let tagged := decide (tb ≠ 0)
  let w := portW s p 0
  let vid0 := if tagged then tci % 4096 else 0
  let t := beAt b (12 + tb) 2
  let hsr := decide (t = 0x892F)
  let off := if hsr then 20 + tb else 14 + tb
  { vid := if vid0 = 0 then fld w 19 8 else vid0
    pcp := if tagged then tci / 8192 else fld w 22 20
    dei := if tagged then tci / 4096 % 2 else 0
    etype := if hsr then beAt b (18 + tb) 2 else t
    off := off, hsr := hsr, prp := hasPrp b (14 + tb), tagged := tagged, double := decide (tb = 8) }

/-- Byte 17 of the sort key (R101). -/
def keyFlags (q : Parsed) (imp trunc : Bool) (b : List Byte) : Nat :=
  nb imp + nb trunc * 2 + nb q.hsr * 4 + nb q.prp * 8 + nb q.tagged * 16 + nb q.double * 32 +
    nb ((beAt b 0 1).testBit 0) * 64

/-- The 32-byte sort key (R101). -/
def sortKey (q : Parsed) (flags p : Nat) (b : List Byte) : List Byte :=
  slice b 0 12 ++ [b8 q.vid, b8 (q.pcp * 32 + q.dei * 16 + q.vid / 256)] ++ beBytes 2 q.etype ++
    [b8 p, b8 flags] ++ slice b q.off 14

/-! Sorting rules (R102, R103). -/

/-- The number that a list of 32-bit words holds, the first word least significant. -/
def wordsNat (l : List Word) : Nat :=
  match l with
  | [] => 0
  | w :: r => w.toNat + 0x100000000 * wordsNat r

/-- Whether a rule (17 words) matches a key. -/
def ruleMatches (r : List Word) (key : Nat) : Bool :=
  let v := wordsNat (r.take 8)
  let m := wordsNat ((r.drop 8).take 8)
  bit (lget r 16 0) 31 && decide (Nat.land key m = Nat.land v m)

/-- The lowest-numbered matching rule. -/
def findRule (s : State) (key : Nat) : Option (Nat × Word) :=
  (s.sw.rules.find? fun e => ruleMatches e.2 key).map fun e => (e.1, lget e.2 16 0)

/-! The forwarding database (R108). -/

/-- The set of a key (R108). -/
def fdbSet (s : State) (vid mac : Nat) : Nat :=
  let x := Nat.xor (nbits mac 11 0) (Nat.xor (nbits mac 23 12) (Nat.xor (nbits mac 35 24) (nbits mac 47 36)))
  Nat.xor x (Nat.xor (vid % 4096) (getF s FDB_HASH_SEED 11 0))

/-- Entry `i`: four words. -/
def fdbEnt (s : State) (i : Nat) : List Word := sget s.sw.fdb i [0, 0, 0, 0]

/-- Word `w` of an entry. -/
def fdbW (e : List Word) (w : Nat) : Word := lget e w 0

/-- The MAC address of an entry. -/
def fdbMac (e : List Word) : Nat := (fdbW e 0).toNat + 0x100000000 * fld (fdbW e 1) 15 0

/-- The VLAN of an entry. -/
def fdbVid (e : List Word) : Nat := fld (fdbW e 1) 27 16

/-- Whether an entry is in use. -/
def fdbValid (e : List Word) : Bool := bit (fdbW e 2) 31

/-- Stores entry `i`; an entry of zeros is unlisted. -/
def fdbPut (s : State) (i : Nat) (e : List Word) : State :=
  { s with sw := { s.sw with fdb := ssetD [0, 0, 0, 0] s.sw.fdb i e } }

/-- The index of the valid entry that holds a key. -/
def fdbFind (s : State) (vid mac : Nat) : Option Nat :=
  ((List.range 4).map fun w => fdbSet s vid mac * 4 + w).find? fun i =>
    fdbValid (fdbEnt s i) && decide (fdbVid (fdbEnt s i) = vid) && decide (fdbMac (fdbEnt s i) = mac)

/-- The lowest free way of a key's set. -/
def fdbFree (s : State) (vid mac : Nat) : Option Nat :=
  ((List.range 4).map fun w => fdbSet s vid mac * 4 + w).find? fun i => !(fdbValid (fdbEnt s i))

/-- Sets `HIT` of an entry (R108). -/
def fdbHit (s : State) (i : Nat) : State :=
  let e := fdbEnt s i
  fdbPut s i [fdbW e 0, fdbW e 1, setBit (fdbW e 2) 28 true, fdbW e 3]

/-- A commit advances the shared table epoch (R114). -/
def commitEpoch (s : State) : State :=
  let v := getR s SWC_EPOCH + 1#32
  setR (setR s SWC_EPOCH v) FDB_EPOCH v

/-- Learning (R111): `p` is the port to record. Log entry 57 (DEDUCED). -/
def learn (s : State) (p vid mac : Nat) : State :=
  match fdbFind s vid mac with
  | some i =>
    let s1 := fdbHit s i
    let e := fdbEnt s1 i
    if bit (fdbW e 2) 30 ∨ fld (fdbW e 2) 7 0 = p then s1
    else
      let w2 := setFld (fdbW e 2) 7 0 p
      bump (commitEpoch (fdbPut s1 i [fdbW e 0, fdbW e 1, w2, fdbW e 3])) FDB_CNT_MOVED
  | none =>
    match fdbFree s vid mac with
    | some i =>
      let e := [w32 mac, w32 (vid * 65536 + mac / 0x100000000), w32 (0x90000000 + p), 0#32]
      bump (commitEpoch (fdbPut s i e)) FDB_CNT_LEARNED
    | none => raiseIrq (bump s FDB_CNT_LEARN_FULL) FDB 1

/-! Decision (R104–R110, R231, R232). -/

/-- The ports of group `g` as a set: bit `p` for port `p`, reserved ports left out (R107). -/
def groupSet (s : State) (g : Nat) : Nat := wordsNat (sget s.sw.groups g []) % 2 ^ 212

/-- The set that holds port `p` alone; reserved ports hold no place in a set (R92). -/
def onePort (p : Nat) : Nat := if p < 212 then 2 ^ p else 0

/-- The set without port `p`. -/
def lessPort (m p : Nat) : Nat := if m.testBit p then m - 2 ^ p else m

/-- The ports of a set, ascending. -/
def setPorts (m : Nat) : List Nat := (List.range 224).filter fun p => m.testBit p

/-- The active pair that port `p` belongs to: its number and its A and B ports (R231). -/
def pairOf (s : State) (p : Nat) : Option (Nat × Nat × Nat) :=
  s.eth.pair.findSome? fun e =>
    match e.2.ports with
    | some (a, b) => if a = p ∨ b = p then some (e.1, a, b) else none
    | none => none

/-- The ports of the active pair `k`. -/
def pairPorts (s : State) (k : Nat) : Option (Nat × Nat) := (sfind s.eth.pair k).bind fun e => e.ports

/-- Pair exclusion and expansion at stage 7 (R232). -/
def pairAdjust (s : State) (m : Nat) (fromPair : Option Nat) : Nat :=
  let m1 := match fromPair.bind (pairPorts s) with
    | some (a, b) => lessPort (lessPort m a) b
    | none => m
  s.eth.pair.foldl (fun m e =>
    match e.2.ports with
    | some (a, b) => if m.testBit a || m.testBit b then Nat.lor m (Nat.lor (2 ^ a) (2 ^ b)) else m
    | none => m) m1

/-- Whether MAC `p` operates (R588). -/
def macOn (s : State) (p : Nat) : Bool := getB s (BLK_CTRL (MAC p)) 0

/-- `MTU` of MAC port `p`, within its limits (R243). -/
def macMtu (s : State) (p : Nat) : Nat := min 9728 (max 46 (getF s (MAC_MTU p) 13 0))

/-- The MAC ports of a set whose `MTU` + 18 bytes a frame of `n` bytes does not exceed, and the internal ports (R110). -/
def mtuKeep (s : State) (m n : Nat) : Nat :=
  (setPorts m).foldl (fun m p => if p < 192 ∧ macMtu s p + 18 < n then lessPort m p else m) m

/-- A frame that enters the switch. -/
structure Arrival where
  bytes : List Byte
  trunc : Bool
  imp : Bool
  src : Nat
  itemTag : Nat
  remadeBy : Nat
  check : Word
  rxTense : DWord
  fromPair : Option Nat
  /-- egress port and class that the emitter names -/
  direct : Option (Nat × Nat)
  /-- for a frame with PASS: the envelope's key -/
  pass : Option Nat
  deriving DecidableEq, Repr

/-- What stage 7 decides. -/
structure Decision where
  disp : Nat
  tc : Nat
  set : Nat
  handle : Nat
  engine : Nat
  chan : Nat
  shape : Bool
  /-- the frame is dropped here with this reason -/
  drop : Option Nat
  /-- TRUNC is counted (R109, R110) -/
  cut : Bool
  deriving DecidableEq, Repr

/-- The ingress channel of a port (R104). -/
def ingressChan (p : Nat) : Nat := if p < 192 then p else 0x1FF

/-- A decision that drops with NO_ROUTE. -/
def noRoute (disp tc chan : Nat) : Decision :=
  { disp := disp, tc := tc, set := 0, handle := 0xFFFF, engine := 0x3F, chan := chan, shape := false
    drop := some dropNoRoute, cut := false }

/-- Applies R110 to a decision, and finds an empty set. -/
def finishSet (s : State) (d : Decision) (n : Nat) (trunc : Bool) : Decision :=
  let s0 := if trunc then d.set / 2 ^ 192 * 2 ^ 192 else d.set
  let s1 := mtuKeep s s0 n
  let cut := decide (s1 ≠ d.set)
  if s1 = 0 then { d with set := 0, handle := 0xFFFF, drop := some (if cut then dropTrunc else dropNoRoute), cut := cut }
  else { d with set := s1, cut := cut }

/-- The class that the ingress port's `PCP_MAP` gives (R105). -/
def pcpClass (s : State) (p pcp : Nat) : Nat := fld (portW s p 1) (4 * pcp + 2) (4 * pcp)

/-- Forward and mirror: VLAN checks, egress set and pair rules (R106, R109, R110, R232). `rule` is the matching rule. -/
def decideForward (s : State) (a : Arrival) (q : Parsed) (tc : Nat) (rule : Option (Nat × Word)) : State × Decision :=
  let act := match rule with | some r => r.2 | none => 0#32
  let disp := fld act 2 0
  let chan := ingressChan a.src
  let vl := sget s.sw.vlan q.vid 0
  let member := groupSet s (fld vl 9 0)
  if q.vid = 4095 ∨ bit vl 31 = false ∨ member.testBit a.src = false then (s, noRoute disp tc chan)
  else
    let fixed := bit act 11 && decide (disp = 0)
    let hit := if fixed then none else fdbFind s q.vid (beAt a.bytes 0 6)
    let s1 := match hit with | some i => fdbHit s i | none => s
    let m0 := if fixed then onePort (fld act 19 12) else match hit with
      | some i =>
        let w := fdbW (fdbEnt s i) 2
        Nat.land member (if bit w 29 then groupSet s (fld w 25 16) else onePort (fld w 7 0))
      | none => Nat.land member (groupSet s (fld vl 19 10))
    let m1 := lessPort m0 a.src
    let m2 := if disp = 3 then Nat.lor m1 (onePort (fld act 19 12)) else m1
    let handle := if fixed then 0x4000 + (match rule with | some r => r.1 | none => 0) else match hit with
      | some i => i
      | none => 0xFFFF
    let cutT := a.trunc && decide (m2 % 2 ^ 192 ≠ 0)
    let m3 := if a.trunc then m2 / 2 ^ 192 * 2 ^ 192 else m2
    let m4 := mtuKeep s (pairAdjust s m3 a.fromPair) a.bytes.length
    let cut := cutT || decide (m4 ≠ pairAdjust s m3 a.fromPair)
    let d : Decision :=
      { disp := disp, tc := tc, set := m4, handle := if m4 = 0 then 0xFFFF else handle, engine := 0x3F, chan := chan
        shape := !(bit act 30), drop := if m4 = 0 then some (if cut then dropTrunc else dropNoRoute) else none, cut := cut }
    (s1, d)

/-- `HANDLE` of a frame whose egress no FDB entry, `FIXED` rule or emitter named: R98 gives it no value, so it is a
free one above those that R98 gives to entries and rules. Log entry 151 (DESIGN CHOICE). -/
def openHandle (s : State) : State × Nat :=
  let f := fresh s
  (f.2, 0x8000 + f.1.toNat % 0x8000)

/-- The decision that delivers a frame to the Gate (R102, R104). -/
def toGate (s : State) (chan tc : Nat) : State × Decision :=
  let h := openHandle s
  (h.1, { disp := 2, tc := tc, set := 2 ^ 209, handle := h.2, engine := 0x3F, chan := chan, shape := false
          drop := none, cut := false })

/-- Stages 5 to 7 (R102–R110). The two fixed rules act on an engine's DIRECT frame too: R102 leaves out port 209 alone, and
only the host's DIRECT frame skips sorting (R23, R454). Log entry 178 (DEDUCED). -/
def decide7 (s : State) (a : Arrival) (q : Parsed) (key : Nat) : State × Decision :=
  let chan := ingressChan a.src
  let env := decide (q.etype = getF s IMG_ENV_ETHERTYPE 15 0)
  match a.direct with
  | some (p, tc) =>
    if a.src ≠ 209 ∧ (a.imp = true ∨ (a.src ≠ 208 ∧ env = true)) then toGate s chan (pcpClass s a.src q.pcp)
    else
      let d : Decision :=
        { disp := 0, tc := tc, set := onePort p, handle := 0x8000 + p, engine := 0x3F, chan := chan, shape := false
          drop := none, cut := false }
      (s, if a.pass.isSome then (if onePort p = 0 then noRoute 0 tc chan else d) else finishSet s d a.bytes.length a.trunc)
  | none =>
    let tc0 := pcpClass s a.src q.pcp
    if a.imp ∨ env then toGate s chan tc0
    else
      let rule := findRule s key
      let act := match rule with | some r => r.2 | none => 0#32
      let tc := if bit act 3 then fld act 6 4 else tc0
      match fld act 2 0 with
      | 1 =>
        let c := if fld act 28 20 = 0x1FE then chan else fld act 28 20
        let e := engineOf s c
        if 48 ≤ e then (s, noRoute 1 tc c)
        else
          let h := openHandle s
          (h.1, { disp := 1, tc := tc, set := 2 ^ (192 + e / 3), handle := h.2, engine := e, chan := c
                  shape := false, drop := none, cut := false })
      | 2 => toGate s chan tc
      | 4 => (s, noRoute 4 tc chan)
      | _ => decideForward s a q tc rule

/-! Admission (R119–R122). -/

/-- α × 64 of a class (R119). -/
def alphaOf (s : State) (c : Nat) : Nat := 2 ^ (min 9 (fld (getR s SWC_ALPHA) (4 * c + 3) (4 * c)))

/-- The link speed of MAC port `p` in Mb/s, by the code of `MAC.LINK`. -/
def linkMbps (s : State) (p : Nat) : Nat := lget [10, 100, 1000, 2500, 10000] (getF s (MAC_LINK p) 2 0) 10000

/-- The ingress shaper of MAC port `p` in force: rate in sixteenths of a Mb/s, 0 for none, and burst in KiB. While
`FRACTION` is below 16 it is at most that share of the link speed (R122, R532). Log entry 52 (DEDUCED). -/
def shapeParm (s : State) (p : Nat) : Nat × Nat :=
  let w := portW s p 2
  let f := getF s PWR_SHAPE_CFG 20 16
  if f < 16 ∧ getB s (MAC_LINK p) 5 = true then
    let sp := linkMbps s p
    (min (16 * (if fld w 15 0 = 0 then sp else fld w 15 0)) (sp * f), if fld w 31 16 = 0 then 16 else fld w 31 16)
  else (16 * fld w 15 0, fld w 31 16)

/-- The ingress shaper of MAC port `p` meets a frame of `n` bytes (R122): whether enough tokens are there.
Log entry 52 (DEDUCED). -/
def shape (s : State) (p n : Nat) : State × Bool :=
  let q := shapeParm s p
  if 192 ≤ p ∨ q.1 = 0 then (s, true)
  else
    let cap := q.2 * 131072000
    let b := sget s.sw.bucket p { tokens := cap, at_ := s.time.tense }
    let have_ := min cap (b.tokens + (s.time.tense - b.at_).toNat * q.1)
    let need := n * 128000
    let left := if need ≤ have_ then have_ - need else have_
    ({ s with sw := { s.sw with bucket := sset s.sw.bucket p { tokens := left, at_ := s.time.tense } } },
      decide (need ≤ have_))

/-- The tokens that the ingress shaper of port `p` has earned so far are settled, before its rate or burst changes (R122);
a shaper that is off starts full when it is next on. Log entry 52 (DEDUCED). -/
def shapeSettle (s : State) (p : Nat) : State :=
  let q := shapeParm s p
  match sfind s.sw.bucket p with
  | none => s
  | some b =>
    if q.1 = 0 then { s with sw := { s.sw with bucket := sdel s.sw.bucket p } }
    else
      let t := min (q.2 * 131072000) (b.tokens + (s.time.tense - b.at_).toNat * q.1)
      { s with sw := { s.sw with bucket := sset s.sw.bucket p { tokens := t, at_ := s.time.tense } } }

/-- Every ingress shaper is settled. -/
def shapeSettleAll (s : State) : State := (s.sw.bucket.map fun e => e.1).foldl shapeSettle s

/-- Puts one copy of a frame into a queue, or drops the copy (R119, R121). -/
def admitCopy (s : State) (fid p c : Nat) (pass : Bool) : State × Bool :=
  if pass || decide (occ s p c * 64 < freeCells s * alphaOf s c) then
    ({ s with sw := { s.sw with queue := s.sw.queue ++ [⟨p, c, fid⟩] } }, true)
  else (dropStored s fid p dropAdmit p c, false)

/-- Admits a frame's copies in ascending port order; the count of copies that wait. -/
def admitAll (s : State) (fid : Nat) (ports : List Nat) (c : Nat) (pass : Bool) : State × Nat :=
  ports.foldl (fun r p => let t := admitCopy r.1 fid p c pass; (t.1, r.2 + nb t.2)) (s, 0)

/-- Sampling at stage 7 (R131): whether this frame is a sample. Log entry 54 (DEDUCED). -/
def sampleDue (s : State) (p : Nat) : State × Bool :=
  let n := fld (portW s p 3) 15 0
  if n = 0 ∨ 211 ≤ p then (s, false)
  else
    let k := sget s.sw.sampled p 0 + 1
    ({ s with sw := { s.sw with sampled := sset s.sw.sampled p (if n ≤ k then 0 else k) } }, decide (n ≤ k))

/-- The frame as its descriptor records it (R97, R99); `head` is its head cell. -/
def mkFrame (s : State) (a : Arrival) (flags : Nat) (d : Decision) (head : Nat) : Frame :=
  { bytes := a.bytes, len := a.bytes.length, trunc := a.trunc, imp := a.imp, disp := d.disp, tc := d.tc, src := a.src, check := a.check
    handle := d.handle, verdict := nb a.pass.isSome, engine := d.engine, remadeBy := a.remadeBy, itemTag := a.itemTag
    epoch := getR s SWC_EPOCH, enqUs := w32 (tenseNs s / 1000), keyId := (match a.pass with | some k => k | none => 0)
    channel := d.chan, rxTime := lo32 a.rxTense, rxTense := a.rxTense, flags := flags, head := head
    dropRec := false, pairSeq := [], fromPair := a.fromPair, poison := false }

/-- How an arrival fared. -/
inductive Fate where
  /-- at least one copy waits; the frame's number -/
  | queued (fid : Nat)
  /-- nothing waits -/
  | gone
  deriving DecidableEq, Repr

/-- Learning at stage 7 for a frame that was not dropped (R111, R232). Log entry 57 (DEDUCED). -/
def learnFrom (s : State) (a : Arrival) (q : Parsed) (d : Decision) : State :=
  let vl := sget s.sw.vlan q.vid 0
  if a.src < 192 ∧ d.drop = none ∧ bit (portW s a.src 0) 2 = true ∧ bit vl 30 = true then
    let p := match a.fromPair.bind (pairPorts s) with | some (x, _) => x | none => a.src
    learn s p q.vid (beAt a.bytes 6 6)
  else s

/-- A frame enters the buffer in the cells `l`: its descriptor, its bytes and the links of its cells (R94, R95, R97); the
second result is its number. -/
def storeFrame (s : State) (f : Frame) (l : List Nat) : State × Nat :=
  let s1 := { s with sw := { s.sw with frames := sset s.sw.frames s.sw.nextFid f.toDesc, nextFid := s.sw.nextFid + 1 } }
  (descPut (framePut (linkCells s1 l 0) (cellSpans l f.len) f.bytes) f.toDesc, s.sw.nextFid)

/-- A copy left out at stage 7 counts (R110). -/
def countCut (s : State) (src : Nat) (d : Decision) : State :=
  if d.cut && decide (d.drop ≠ some dropTrunc) then countDrop s src dropTrunc else s

/-- What the decision leaves of a stored frame: the ports it goes to, after the drop and the shaper (R110, R113). -/
def dropOrShape (s : State) (fid : Nat) (a : Arrival) (d : Decision) : State × List Nat :=
  match d.drop with
  | some r => (dropStored s fid a.src r 0xFF d.tc, [])
  | none =>
    if d.shape then
      let sh := shape s a.src a.bytes.length
      if sh.2 then (sh.1, setPorts d.set) else (dropStored sh.1 fid a.src dropShaped 0xFF d.tc, [])
    else (s, setPorts d.set)

/-- Admission to the ports, and of the sampled copy; without any, the frame leaves the buffer (R18, R95). -/
def admitEnds (s : State) (fid : Nat) (ports : List Nat) (tc : Nat) (passed sampled : Bool) : State × Fate :=
  let adm := admitAll s fid ports tc passed
  let smp := if sampled then admitCopy adm.1 fid 211 0 false else (adm.1, false)
  let n := adm.2 + nb smp.2
  if n = 0 then (unref smp.1 fid, .gone) else (refsPut smp.1 fid n, .queued fid)

/-- Stages 4 to 8 of a frame whose cells are taken: parsing, decision, learning, sampling and admission (R18). -/
def swStages (s : State) (a : Arrival) (q : Parsed) (flags : Nat) (cells : List Nat) : State × Fate :=
  let r := decide7 s a q (leNat (sortKey q flags a.src a.bytes))
  let sm := sampleDue (learnFrom r.1 a q r.2) a.src
  let st := storeFrame sm.1 (mkFrame r.1 a flags r.2 (cells.headD 0)) cells
  let live := dropOrShape (countCut st.1 a.src r.2) st.2 a r.2
  admitEnds live.1 st.2 live.2 r.2.tc a.pass.isSome sm.2

/-- Stages 3 to 8 for an arrival (R18): cells, parsing, decision, learning, sampling and admission.
Log entry 53 (DEDUCED). -/
def swIngress (s : State) (a : Arrival) : State × Fate :=
  let q := parseFrame s a.src a.bytes
  let flags := keyFlags q a.imp a.trunc a.bytes
  let none7 := noRoute 0 0 (ingressChan a.src)
  if getB s (BLK_CTRL SWC) 0 = false ∨ bit (portW s a.src 0) 0 = false then
    (dropFrame s (mkFrame s a flags none7 0) a.src dropNoRoute 0xFF 0, .gone)
  else
    match allocCells s (cellsFor a.bytes.length) with
    | none => (dropFrame s (mkFrame s a flags none7 0) a.src dropAdmit 0xFF 0, .gone)
    | some (s1, cells) => swStages s1 a q flags cells

/-- An arrival without direct egress, item or verdict. -/
def plainArrival (s : State) (src : Nat) (b : List Byte) : Arrival :=
  { bytes := b, trunc := false, imp := false, src := src, itemTag := 0, remadeBy := 0x3F, check := crc32c b
    rxTense := s.time.tense, fromPair := none, direct := none, pass := none }

/-! Gate lists (R125, R126). -/

/-- Length of gate list bank `k` of port `p`. -/
def glistLen (s : State) (p k : Nat) : Nat :=
  let w := getR s (SWC_GATE_CTRL p)
  min 32 (if k = 0 then fld w 5 0 else fld w 13 8)

/-- The operating bank of port `p`. Log entry 60 (DEDUCED). -/
def glistOper (s : State) (p : Nat) : Nat := nb (getB s (SWC_GATE_CTRL p) 16)

/-- The entry that a time `t` into the cycle falls in, and when in the cycle it ends: the last entry holds (R125). -/
def glistEntry (s : State) (p k len i t acc fuel : Nat) (cycle : Nat) : Nat × Nat :=
  match fuel with
  | 0 => (i, cycle)
  | fuel + 1 =>
    let e := acc + (getR s (SWC_GLIST p k i + 4)).toNat
    if i + 1 = len then (i, cycle)
    else if t < e then (i, min e cycle)
    else glistEntry s p k len (i + 1) t e fuel cycle

/-- Classes open at port `p` at composite time `t` of the list's base, and until when, if the list runs and is not empty. -/
def gateAt (s : State) (p t : Nat) : Option (Nat × Nat) :=
  if bit (portW s p 0) 4 = false then none
  else
    let k := glistOper s p
    let len := glistLen s p k
    match sfind s.sw.goper p with
    | none => none
    | some g =>
      if len = 0 then none
      else if t < g.start then some (g.frozen, g.start)
      else
        let cyc := max 1 g.cycle
        let ph := (t - g.start) % cyc
        let e := glistEntry s p k len 0 ph 0 32 cyc
        some (getF s (SWC_GLIST p k e.1) 7 0, t - ph + e.2)

/-- The composite time of the base that port `p`'s operating list runs on. Log entry 60 (DEDUCED). -/
def gateNow (s : State) (p : Nat) : Nat :=
  match sfind s.sw.goper p with
  | some g => tbWide s g.tb
  | none => 0

/-- Whether class `c`'s gate at port `p` is open (R125). -/
def gateOpen (s : State) (p c : Nat) : Bool :=
  match gateAt s p (gateNow s p) with
  | none => true
  | some (st, _) => st.testBit c

/-- Whether class `c`'s gate stays open from composite time `t` for `d` nanoseconds. -/
def gateHolds (s : State) (p c t d fuel : Nat) : Bool :=
  match fuel with
  | 0 => true
  | fuel + 1 =>
    match gateAt s p t with
    | none => true
    | some (st, e) => st.testBit c && (decide (t + d ≤ e) || gateHolds s p c e (t + d - e) fuel)

/-- The first cycle start `base` + n × `cycle` that is not in the past at `t`. -/
def cycleStart (base cycle t : Nat) : Nat := if t ≤ base then base else base + roundUp (t - base) (max 1 cycle)

/-- Before base `b` moves: the classes open now stay open until its lists restart (R502). Log entry 60 (DEDUCED). -/
def glistFreeze (s : State) (b : Nat) : State :=
  { s with sw := { s.sw with goper := s.sw.goper.map fun e =>
      if e.2.tb = b then (e.1, { e.2 with frozen := match gateAt s e.1 (tbWide s b) with
        | some r => r.1
        | none => 0xFF }) else e } }

/-- After base `b` has moved: its lists restart at their first cycle start that is not in the past (R502).
Log entry 60 (DEDUCED). -/
def glistRestart (s : State) (b : Nat) : State :=
  { s with sw := { s.sw with goper := s.sw.goper.map fun e =>
      if e.2.tb = b then (e.1, { e.2 with start := cycleStart e.2.base e.2.cycle (nsUp s b) }) else e } }
where
  /-- the first nanosecond that is not in the past of base `b` -/
  nsUp (s : State) (b : Nat) : Nat := ((tbOf s b).v + fracOne - 1) / fracOne

/-- A write of word `w` of `GATE_CTRL[p]` (R126, R140): the operating bank's length stays, and a `SWAP` written 1
latches the other bank's parameters. -/
def gateCtrl (m : Master) (p w : Nat) (v : Word) (s : State) : State :=
  let a := SWC_GATE_CTRL p + 4 * w
  let put (x : Word) : State := plainWrite (regDesc .SWC 0 (a - SWC)) m ⟨.SWC, 0, SWC⟩ (a - SWC) x s
  if w ≠ 0 then put v
  else
    let old := getR s a
    let v1 := if glistOper s p = 0 then setFld v 5 0 (fld old 5 0) else setFld v 13 8 (fld old 13 8)
    let s1 := put v1
    if bit v 17 && !(bit old 17) then
      let base := (getR64 s (SWC_GATE_CTRL p + 12)).toNat * 1000000000 + getF s (SWC_GATE_CTRL p + 8) 29 0
      let g : GateParm :=
        { cycle := (getR s (SWC_GATE_CTRL p + 4)).toNat, base := base, tb := fld v1 19 18, start := 0, frozen := 0xFF }
      { s1 with sw := { s1.sw with gswap := sset s1.sw.gswap p g } }
    else s1

/-- A write to a gate list entry: the operating bank's entries stay (R126). -/
def glistWrite (m : Master) (off : Nat) (v : Word) (s : State) : State :=
  let p := (off - 0x10000) / 512
  if (off - 0x10000) / 256 % 2 = glistOper s p then s
  else plainWrite (regDesc .SWC 0 off) m ⟨.SWC, 0, SWC⟩ off v s


/-! Table commands (R113, R114, R139, R142, R143). -/

/-- Staging word `w` of a master's `TBL_STAGE`. -/
def tblStage (s : State) (m : Master) (w : Nat) : Word := getR s (perM m (SWC_TBL_STAGE w))

/-- `TBL_CMD` ends with a status. -/
def tblEnd (s : State) (m : Master) (st : Nat) : State :=
  raiseIrq (setR s (perM m SWC_TBL_RESULT) (w32 (0x80000000 + st * 0x10000000))) SWC 8

/-- `TBL_CMD` WRITE (R113, R139). -/
def tblWriteCmd (m : Master) (v : Word) (s : State) : State :=
  let i := fld v 27 16
  let t := fld v 5 4
  if t = 0 then
    let act := tblStage s m 16 &&& 0xDFFFF87F#32
    if 1024 ≤ i ∨ 5 ≤ fld act 2 0 then tblEnd s m 2
    else
      let ws := (List.range 16).map (tblStage s m) ++ [act]
      tblEnd (commitEpoch { s with sw := { s.sw with rules := sset s.sw.rules i ws } }) m 0
  else if t = 1 then
    tblEnd (commitEpoch { s with sw := { s.sw with vlan := sset s.sw.vlan i (tblStage s m 0 &&& 0xC00FFFFF#32) } }) m 0
  else if t = 2 ∧ i < 1024 then
    tblEnd (commitEpoch { s with sw := { s.sw with groups := sset s.sw.groups i ((List.range 7).map (tblStage s m)) } }) m 0
  else tblEnd s m 2

/-- Copies words into a master's staging from word 0. -/
def stagePut (s : State) (m : Master) (base : Nat) (l : List Word) : State :=
  match l with
  | [] => s
  | w :: r => stagePut (setR s (perM m base) w) m (base + 4) r

/-- `TBL_CMD` READ (R139). -/
def tblReadCmd (m : Master) (v : Word) (s : State) : State :=
  let i := fld v 27 16
  let t := fld v 5 4
  if t = 0 ∧ i < 1024 then
    tblEnd (stagePut s m (SWC_TBL_STAGE 0) (sget s.sw.rules i (List.replicate 17 0))) m 0
  else if t = 1 then tblEnd (stagePut s m (SWC_TBL_STAGE 0) [sget s.sw.vlan i 0]) m 0
  else if t = 2 ∧ i < 1024 then
    tblEnd (stagePut s m (SWC_TBL_STAGE 0) (sget s.sw.groups i (List.replicate 7 0))) m 0
  else tblEnd s m 2

/-- A write of `TBL_CMD`: an unlisted operation ends with FORMAT (R586). Log entries 20 (DEDUCED), 59 (DEDUCED). -/
def tblCmd (m : Master) (v : Word) (s : State) : State :=
  match fld v 2 0 with
  | 1 => tblWriteCmd m v s
  | 2 => tblReadCmd m v s
  | _ => tblEnd s m 2

/-- The staged FDB entry, with reserved bits and `HIT` cleared (R108, R143). -/
def fdbStaged (s : State) (m : Master) : List Word :=
  [getR s (perM m (FDB_STAGE 0)), getR s (perM m (FDB_STAGE 1)) &&& 0x0FFFFFFF#32,
   getR s (perM m (FDB_STAGE 2)) &&& 0xE3FF00FF#32, 0#32]

/-- Whether an entry's content is acceptable (R143). Log entry 58 (DEDUCED). -/
def fdbFormatOk (e : List Word) : Bool :=
  decide (fdbVid e ≠ 0) && decide (fdbVid e ≠ 4095) && (bit (fdbW e 2) 29 || decide (fld (fdbW e 2) 7 0 ≤ 211))

/-- `FDB.CMD` ends with a status and an index. -/
def fdbEnd (s : State) (m : Master) (st i : Nat) : State :=
  raiseIrq (setR s (perM m FDB_RESULT) (w32 (0x80000000 + st * 0x10000000 + i % 16384))) FDB 0

/-- An FDB commit at entry `i`, with `PURGE` recording its pair (R114, R116). -/
def fdbCommit (s : State) (m : Master) (i : Nat) (e : List Word) (purge : Bool) : State :=
  if purge ∧ 16 ≤ s.sw.purge.length then fdbEnd s m 4 i
  else
    let s1 := commitEpoch (fdbPut s i e)
    fdbEnd (if purge then { s1 with sw := { s1.sw with purge := s1.sw.purge ++ [(i, getR s1 SWC_EPOCH)] } } else s1) m 0 i

/-- `FDB.CMD` WRITE. -/
def fdbWriteCmd (m : Master) (v : Word) (s : State) : State :=
  let i := fld v 29 16
  let e := fdbStaged s m
  if !(fdbFormatOk e) || decide (fdbSet s (fdbVid e) (fdbMac e) ≠ i / 4) then fdbEnd s m 5 i
  else fdbCommit s m i e (bit v 8)

/-- `FDB.CMD` INSERT: the way that holds the key keeps its `HIT`. -/
def fdbInsertCmd (m : Master) (v : Word) (s : State) : State :=
  let e := fdbStaged s m
  if !(fdbFormatOk e) then fdbEnd s m 5 (fld v 29 16)
  else match fdbFind s (fdbVid e) (fdbMac e) with
    | some i =>
      let hit := bit (fdbW (fdbEnt s i) 2) 28
      fdbCommit s m i [fdbW e 0, fdbW e 1, setBit (fdbW e 2) 28 hit, 0#32] (bit v 8)
    | none => match fdbFree s (fdbVid e) (fdbMac e) with
      | some i => fdbCommit s m i e (bit v 8)
      | none => fdbEnd s m 2 (fld v 29 16)

/-- `FDB.CMD` DELETE. -/
def fdbDeleteCmd (m : Master) (v : Word) (s : State) : State :=
  let i := fld v 29 16
  let e := fdbEnt s i
  fdbCommit s m i [fdbW e 0, fdbW e 1, setBit (fdbW e 2) 31 false, fdbW e 3] (bit v 8)

/-- `FDB.CMD` LOOKUP. -/
def fdbLookupCmd (m : Master) (v : Word) (s : State) : State :=
  let e := fdbStaged s m
  match fdbFind s (fdbVid e) (fdbMac e) with
  | some i => fdbEnd (stagePut s m (FDB_STAGE 0) (fdbEnt s i)) m 0 i
  | none => fdbEnd s m 3 (fld v 29 16)

/-- A write of `FDB.CMD`: an unlisted operation ends with FORMAT (R586). Log entries 20 (DEDUCED), 59 (DEDUCED). -/
def fdbCmd (m : Master) (v : Word) (s : State) : State :=
  match fld v 2 0 with
  | 1 => fdbWriteCmd m v s
  | 2 => fdbInsertCmd m v s
  | 3 => fdbDeleteCmd m v s
  | 4 => fdbLookupCmd m v s
  | _ => fdbEnd s m 5 (fld v 29 16)

/-- Valid entries of the FDB (`FDB.ENTRIES`). -/
def fdbEntries (s : State) : Nat := (s.sw.fdb.filter fun e => fdbValid e.2).length

/-- A write of `AGE_PERIOD` restarts the sweep period (R112). -/
def agePeriod (m : Master) (v : Word) (s : State) : State :=
  let s1 := plainWrite (regDesc .FDB 0 0x060) m ⟨.FDB, 0, FDB⟩ 0x060 v s
  { s1 with sw := { s1.sw with ageFrom := s1.time.tense } }

/-- One entry in a sweep (R112). -/
def ageEntry (s : State) (i : Nat) : State :=
  let e := fdbEnt s i
  let w := fdbW e 2
  if bit w 31 = false ∨ bit w 30 = true then s
  else if bit w 28 then fdbPut s i [fdbW e 0, fdbW e 1, setBit w 28 false, fdbW e 3]
  else bump (commitEpoch (fdbPut s i [fdbW e 0, fdbW e 1, setBit w 31 false, fdbW e 3])) FDB_CNT_AGED_OUT

/-- A sweep of the FDB (R112): the clock advances to the time it falls due. -/
def ageSweep (s : State) : State :=
  let t := getF s FDB_AGE_PERIOD 15 0
  if t = 0 then s
  else
    let due := s.sw.ageFrom.toNat + t * 1000000000
    let s1 := advanceNs s due
    let s2 := (s1.sw.fdb.map fun e => e.1).foldl ageEntry s1
    raiseIrq { s2 with sw := { s2.sw with ageFrom := BitVec.ofNat 64 due } } FDB 2

/-! The commands. -/


/-- `GATE_CTRL[p]` is written with `SWAP` set (R126). -/
def execGateSwapArm (m : Master) (p : Fin 224) (v : Word) (s : State) : Res :=
  .next (gatedWrite m (SWC_GATE_CTRL p.val) (gateCtrl m p.val 0 (setBit v 17 true)) s)


/-- `TBL_CMD` WRITE (R113). -/
def execTblWrite (m : Master) (v : Word) (s : State) : Res := .next (gatedWrite m SWC_TBL_CMD (tblCmd m (setFld v 2 0 1)) s)

/-- `TBL_CMD` READ (R139). -/
def execTblRead (m : Master) (v : Word) (s : State) : Res := .next (gatedWrite m SWC_TBL_CMD (tblCmd m (setFld v 2 0 2)) s)

/-- `FDB.CMD` WRITE (R143). -/
def execFdbWrite (m : Master) (v : Word) (s : State) : Res := .next (gatedWrite m FDB_CMD (fdbCmd m (setFld v 2 0 1)) s)

/-- `FDB.CMD` INSERT (R143). -/
def execFdbInsert (m : Master) (v : Word) (s : State) : Res := .next (gatedWrite m FDB_CMD (fdbCmd m (setFld v 2 0 2)) s)

/-- `FDB.CMD` DELETE (R143). -/
def execFdbDelete (m : Master) (v : Word) (s : State) : Res := .next (gatedWrite m FDB_CMD (fdbCmd m (setFld v 2 0 3)) s)

/-- `FDB.CMD` LOOKUP (R143). -/
def execFdbLookup (m : Master) (v : Word) (s : State) : Res := .next (gatedWrite m FDB_CMD (fdbCmd m (setFld v 2 0 4)) s)

/-- `FDB.AGE_PERIOD` is written (R112). -/
def execAgePeriodWrite (m : Master) (v : Word) (s : State) : Res := .next (gatedWrite m FDB_AGE_PERIOD (agePeriod m v) s)

/-- A sweep falls due (R112). -/
def execFdbAgeSweep (s : State) : Res := .next (ageSweep s)

/-- `DROP_RING_LOST` reads and clears (R139). -/
def execDropRingLostRead (m : Master) (s : State) : Res :=
  .next (gatedRead m SWC_DROP_RING_LOST (fun t => (setR t SWC_DROP_RING_LOST 0, getR t SWC_DROP_RING_LOST)) s)

/-- `SMP_LOST` reads and clears (R139). -/
def execSmpLostRead (m : Master) (s : State) : Res :=
  .next (gatedRead m SWC_SMP_LOST (fun t => (setR t SWC_SMP_LOST 0, getR t SWC_SMP_LOST)) s)

end Sys2Proof.Machine
end

