-- ==== Sys2Proof/Machine/Vault.lean ====
section
/-! DEFINITION. The vault (06): monotonic counters, replay marks, the journal, its modes, export, logs and wear. -/

namespace Sys2Proof.Machine

open Reg

/-! Compaction (R189). -/

/-- Live rows of a log. Log entry 68 (DEDUCED). -/
def logLive (s : State) (l : Nat) : Nat :=
  match l with
  | 0 => s.vlt.counters.length
  | 1 => s.vlt.marks.length
  | 2 => (s.vlt.persisted.map fun b => (b.bytes.length + 15) / 16 + 1).foldl (fun a b => a + b) 0
  | 3 => (s.vlt.catImg.length * 3 + 1) / 2
  | 4 => 2
  | _ => 1

/-! The write machine (R207). -/

/-- Whether the supply warning holds the Gate and the vault (R173). -/
def supplyHeld (s : State) : Bool := getB s IMG_GATE_STATUS 30

/-- A write of class `c` for `k` is requested: it waits behind those requested before it. -/
def vAsk (s : State) (c k : Nat) : State :=
  if s.vlt.waiting.contains { cls := c, key := k } then s
  else { s with vlt := { s.vlt with waiting := s.vlt.waiting ++ [{ cls := c, key := k }] } }

/-- A write no longer waits: it is durable, or it was discarded. -/
def vGone (s : State) (c k : Nat) : State :=
  { s with vlt := { s.vlt with waiting := s.vlt.waiting.filter fun r => decide (r ≠ { cls := c, key := k }) } }

/-- Whether the write of class `c` for `k` may be the next to be durable: no write of a class served before its own, and
requested before it, still waits, and a supply warning holds classes 4 to 8 (R207). Log entry 158 (DEDUCED). -/
def vMay (s : State) (c k : Nat) : Bool :=
  !(decide (4 ≤ c) && supplyHeld s) &&
  (s.vlt.waiting.takeWhile fun r => decide (r ≠ { cls := c, key := k })).all fun r => decide (c ≤ r.cls)

/-- A full log is compacted: its live rows move to the other half, and its content stands (R189); every other write goes
before, and a supply warning suspends it (R207). Log entries 68 (DEDUCED), 158 (DEDUCED). -/
def compact (l : Nat) (s : State) : State :=
  if sget s.vlt.fill l 0 < logRows l / 2 ∨ supplyHeld s = true ∨ s.vlt.waiting ≠ [] then s
  else
    let n := logLive s l
    let s1 := rowsWrite s l n
    { s1 with vlt := { s1.vlt with fill := sset s1.vlt.fill l n } }

/-! Counters (R193, R194). -/

/-- A monotonic counter. -/
def vaultCounter (s : State) (c : Nat) : DWord := if 4 ≤ c ∧ c < 16 then 0 else sget s.vlt.counters c 0

/-- Sets a counter, which no write lowers (R193). Log entry 43 (DEDUCED). -/
def setCounter (s : State) (c : Nat) (v : DWord) : State :=
  let old := sget s.vlt.counters c 0
  rowsWrite { s with vlt := { s.vlt with counters := sset s.vlt.counters c (if old.toNat ≤ v.toNat then v else old) } } 0 1

/-- Whether the vault is ERASING (R208). -/
def erasing (s : State) : Bool := decide (owner s = 2)

/-- `CNT_CMD` ends with a result. -/
def cntEnd (s : State) (r : Nat) : State :=
  raiseIrq (setR s VLT_CNT_RESULT (w32 (0x80000000 + r * 0x10000000))) VLT 2

/-- Opens the item of an INCREMENT or RAISE (R194, R542). -/
def cntItem (s : State) : State :=
  let n := s.vlt.tagSeq
  setR { s with vlt := { s.vlt with tagSeq := if n = 0x0FFFFFFF then 1 else n + 1 } } VLT_CNT_TAG (w32 (0x40000000 + n))

/-- INCREMENT (`raise` false) or RAISE of counter `c` (R194). Log entry 69 (DEDUCED). -/
def cntChange (raise : Bool) (c : Nat) (s : State) : State :=
  if s.vlt.cntBusy.isSome then cntEnd s 1
  else
    let s1 := cntItem s
    let old := vaultCounter s c
    let v := getR64 s VLT_CNT_VALUE_LO
    if erasing s then cntEnd s1 5
    else if supplyHeld s then cntEnd s1 4
    else if 4 ≤ c ∧ c < 16 then cntEnd s1 6
    else if raise ∧ v.toNat ≤ old.toNat then cntEnd s1 2
    else if raise = false ∧ old = 0xFFFFFFFFFFFFFFFF#64 then cntEnd s1 3
    else
      let s2 := setR s1 VLT_CNT_RESULT 0
      vAsk { s2 with vlt := { s2.vlt with
        cntBusy := some (c, if raise then v else old + 1, (getR s2 VLT_CNT_TAG).toNat) } } 6 0

/-- READ of counter `c` (R194). -/
def cntReadCmd (c : Nat) (s : State) : State :=
  if s.vlt.cntBusy.isSome then cntEnd s 1
  else if erasing s then cntEnd s 5
  else cntEnd (setR64 s VLT_CNT_VALUE_LO (vaultCounter s c)) 0

/-- A write of `CNT_CMD`: an unlisted operation ends with FORMAT and opens no item (R586). Log entry 20 (DEDUCED). -/
def cntCmd (v : Word) (s : State) : State :=
  match fld v 1 0 with
  | 1 => cntChange false (fld v 23 16) s
  | 2 => cntChange true (fld v 23 16) s
  | 3 => cntReadCmd (fld v 23 16) s
  | _ => if s.vlt.cntBusy.isSome then cntEnd s 1 else cntEnd s 6

/-- The counter command's new value is durable (R194, R207). -/
def cntDurable (s : State) : State :=
  match s.vlt.cntBusy with
  | none => s
  | some (c, v, _) =>
    if vMay s 6 0 then cntEnd (setCounter (vGone { s with vlt := { s.vlt with cntBusy := none } } 6 0) c v) 0 else s

/-! The journal (R198–R205). -/

/-- What an erased journal word reads as. Log entry 14 (DESIGN CHOICE). -/
abbrev jErased : Word := 0xFFFFFFFF#32

/-- Word `w` of journal slot `i`. -/
def jWord (s : State) (i w : Nat) : Word := sget s.vlt.journal (4 * i + w) jErased

/-- Sets word `w` of journal slot `i`. -/
def jSet (s : State) (i w : Nat) (v : Word) : State :=
  { s with vlt := { s.vlt with journal := sset s.vlt.journal (4 * i + w) v } }

/-- The journal clock (R200): whether it is the AON RTC, the second, and the millisecond within it. -/
def jClock (s : State) : Bool × Nat × Nat :=
  if tbValid s 0 then
    let v := (tbOf s 0).v
    (false, vSec v, vNs v / 1000000)
  else (true, s.time.rtc / 32768, s.time.rtc % 32768 * 1000 / 32768)

/-- Whether the journal mode in force is AUTO (R205, R206). -/
def jAuto (s : State) : Bool := decide (getF s VLT_STATUS 3 2 = 0)

/-- In AUTO a record consumes one of the allowance; at 0 the journal is to enter SUMMARY (R203). -/
def jSpend (s : State) : State :=
  if jAuto s then
    let al := getF s VLT_JNL_ALLOW 23 0
    let s1 := setR s VLT_JNL_ALLOW (w32 (al - 1))
    if al ≤ 1 then { s1 with vlt := { s1.vlt with jlow := true } } else s1
  else s

/-- Writes a record at the head: words 0–2 and, where it is given, word 3; answers its slot (R198). -/
def jPut (s : State) (type low : Nat) (w1 w2 : Word) (w3 : Option Nat) : State × Nat :=
  let h := getR s VLT_JNL_HEAD
  let slot := fld h 16 0
  let pass := fld h 31 24
  let s1 := jSet (jSet (jSet s slot 0 (w32 (type * 0x10000000 + pass * 0x100000 + low))) slot 1 w1) slot 2 w2
  let s2 := match w3 with | some x => jSet s1 slot 3 (w32 (pass * 0x1000000 + x)) | none => s1
  let wear := s.vlt.jwear + (getR s VLT_JNL_PASSES).toNat + 1
  let last := decide (slot = 131071)
  let s3 := setR s2 VLT_JNL_HEAD (if last then w32 ((pass + 1) % 256 * 0x1000000) else w32 (pass * 0x1000000 + slot + 1))
  let s4 := if last then setR s3 VLT_JNL_PASSES (getR s3 VLT_JNL_PASSES + 1) else s3
  (wearTo (jSpend s4) 1 wear, slot)

/-- Writes word 3 of a record (R199). -/
def jClose (s : State) (slot x : Nat) : State :=
  jSet s slot 3 (w32 (fld (jWord s slot 0) 27 20 * 0x1000000 + x))

/-- Whether the journal should be in SUMMARY mode: the policy, or in AUTO the allowance, from its reaching 0 until its
reaching 864,000 (R203). -/
def jWantSummary (s : State) : Bool :=
  match getF s VLT_POLICY 2 1 with
  | 1 => false
  | 2 => true
  | _ => s.vlt.jlow || decide (getF s VLT_JNL_ALLOW 23 0 = 0)

/-- A journal second ends: SUMMARY records close and a change of mode takes effect (R204, R205).
Log entry 67 (DEDUCED). -/
def jSecondClose (s : State) : State :=
  let s1 := s.vlt.sums.foldl (fun t r => jClose t r.slot (min 4095 r.released * 4096 + min 4095 r.transmitted)) s
  let s2 := { s1 with
    vlt := { s1.vlt with sums := [], sieveNow := 0 }
    gate := { s1.gate with rel := s1.gate.rel.map fun r => { r with sum := false } } }
  let s3 := putF s2 VLT_STATUS 3 2 (getF s2 VLT_POLICY 2 1)
  if jWantSummary s3 = getB s3 VLT_STATUS 28 then s3
  else raiseIrq (putB s3 VLT_STATUS 28 (jWantSummary s3)) VLT 1

/-- Writes the TIME record of the journal second that has been reached (R199, R200). -/
def jTime (s : State) : State :=
  let c := jClock s
  let s1 := (jPut s 2 (nb c.1) (w32 c.2.1) (w32 (c.2.1 / 0x100000000)) (some ((vaultCounter s 2).toNat % 65536))).1
  { s1 with vlt := { s1.vlt with jtime := true } }

/-- The journal comes to the present second: the one before ends, and where it left SIEVE records unwritten, an
AUDIT_SUMMARY opens the new one (R200, R201, R205); during an erase nothing is written (R208).
Log entry 67 (DEDUCED). -/
def jTurn (s : State) : State :=
  let c := jClock s
  if erasing s || (decide (s.vlt.jsec = some (c.1, c.2.1)) && !s.vlt.jsplit) then s
  else
    let s1 := jSecondClose s
    let missed := s1.vlt.sieveMissed
    let s2 := { s1 with vlt := { s1.vlt with
      jsec := some (c.1, c.2.1), jtime := false, jsplit := false, sieveMissed := 0 } }
    if missed = 0 then s2 else (jPut (jTime s2) 8 (c.2.2 * 1024) (w32 missed) 0 (some 0)).1

/-- The journal is about to take a record: the present second is reached, and its TIME record stands (R200).
Log entry 67 (DEDUCED). -/
def jEnter (s : State) : State :=
  let s1 := jTurn s
  if s1.vlt.jtime then s1 else jTime s1

/-- Writes a record that is written whole, in the present second; during an erase nothing is written (R208).
Log entry 67 (DEDUCED). -/
def jRecord (s : State) (type low : Nat) (w1 w2 : Nat) : State :=
  if erasing s then s else (jPut (jEnter s) type low (w32 w1) (w32 w2) (some 0)).1

/-- The `MS` field of word 0. -/
def jMs (s : State) : Nat := (jClock s).2.2 * 1024

/-- A RELEASE record, or in SUMMARY mode the key's open SUMMARY record (R199, R204): its slot where a RELEASE record
was written. -/
def jRelease (s : State) (chan tag key seq : Nat) : State × Option Nat :=
  if erasing s then (s, none)
  else
    let s1 := jEnter s
    if getB s1 VLT_STATUS 28 then
      match s1.vlt.sums.find? fun r => decide (r.keyId = key) with
      | some _ =>
        ({ s1 with vlt := { s1.vlt with sums := s1.vlt.sums.map fun r =>
            if r.keyId = key then { r with released := r.released + 1 } else r } }, none)
      | none =>
        let p := jPut s1 7 (jMs s1) (w32 tag) (w32 (key * 65536)) none
        ({ p.1 with vlt := { p.1.vlt with
            sums := p.1.vlt.sums ++ [{ keyId := key, slot := p.2, released := 1, transmitted := 0 }] } }, none)
    else
      let p := jPut s1 1 (jMs s1 + chan) (w32 tag) (w32 (key * 65536 + seq % 65536)) none
      (p.1, some p.2)

/-- The end of a released imperative: word 3 of its RELEASE record, or its count in the open SUMMARY record (R199, R204). -/
def jReleaseEnd (s : State) (slot : Option Nat) (inSum : Bool) (key code : Nat) (at_ : DWord) : State :=
  if erasing s then s
  else match slot with
    | some i => jClose s i (code * 65536 + min 65535 ((s.time.tense - at_).toNat / 1000000))
    | none =>
      if inSum ∧ code = 0 then
        let t := jTurn s
        { t with vlt := { t.vlt with sums := t.vlt.sums.map fun r =>
            if r.keyId = key then { r with transmitted := r.transmitted + 1 } else r } }
      else s

/-- A SIEVE record, at most `AUDIT_RATE` in a journal second; a block that gets none is counted (R201, R209).
Log entry 67 (DEDUCED). -/
def jSieve (s : State) (chan : Nat) (m : Nat) (rule : Nat) (bytes : Nat) : State :=
  if erasing s then satInc s VLT_AUDIT_DROPPED
  else
    let t := jTurn s
    let n := t.vlt.sieveNow
    if n < getF t VLT_AUDIT_RATE 15 0 then
      let s1 := jRecord t 4 (jMs t + chan) (m * 65536 + rule) bytes
      { s1 with vlt := { s1.vlt with sieveNow := n + 1 } }
    else raiseIrq (satInc { t with vlt := { t.vlt with sieveMissed := t.vlt.sieveMissed + 1 } } VLT_AUDIT_DROPPED) VLT 5

/-- A journal second ends: the clock advances to its end (R204). -/
def jSecondEnd (s : State) : State :=
  let c := jClock s
  if c.1 then
    if s.time.rtcOn then jTurn (advanceCycles s (((32768 - s.time.rtc % 32768) * 1000000000 / 32768 + 4) / 4)) else s
  else jTurn (advanceTb s 0 ((c.2.1 + 1) * 1000000000))

/-- One second of allowance accrues in AUTO mode; at 864,000 the journal is to return to FULL (R203). -/
def jAccrue (s : State) : State :=
  if jAuto s then
    let al := min 8640000 (getF s VLT_JNL_ALLOW 23 0 + 120)
    let s1 := setR s VLT_JNL_ALLOW (w32 al)
    if 864000 ≤ al then { s1 with vlt := { s1.vlt with jlow := false } } else s1
  else s

/-! Replay marks (R195–R197). -/

/-- The durable mark of a key. -/
def markOf (s : State) (k : Nat) : DWord := sget s.vlt.marks k 0

/-- Requests a mark write; during an erase it is discarded (R208). -/
def markWrite (s : State) (k : Nat) (v : DWord) : State :=
  if erasing s then s else vAsk { s with vlt := { s.vlt with markWr := sset s.vlt.markWr k v } } 4 k

/-- Requests a mark write of the supply warning, which goes before every other write (R196, R207). -/
def markSupply (s : State) (k : Nat) (v : DWord) : State :=
  if erasing s then s else vAsk (vGone { s with vlt := { s.vlt with markWr := sset s.vlt.markWr k v } } 4 k) 1 k

/-- A mark write becomes durable. -/
def markStore (s : State) (k : Nat) : State :=
  match sfind s.vlt.markWr k with
  | none => s
  | some v =>
    rowsWrite (vGone (vGone { s with vlt := { s.vlt with marks := sset s.vlt.marks k v, markWr := sdel s.vlt.markWr k } } 1 k) 4 k) 1 1

/-- A mark write ends, in the vault's order of writes: of the supply warning, or of class 4 (R195, R196, R207). -/
def markDurable (s : State) (k : Nat) : State :=
  let c := if s.vlt.waiting.contains { cls := 1, key := k } then 1 else 4
  if vMay s c k then markStore s k else s

/-! Export (R202, R210). -/

/-- The export ends with a result. -/
def expEnd (s : State) (r : Nat) : State :=
  raiseIrq (setR s VLT_EXPORT_RESULT (w32 (0x80000000 + r * 0x10000000))) VLT 3

/-- A write of `EXPORT_COUNT`. -/
def exportCmd (v : Word) (s : State) : State :=
  let n := v.toNat % 0x40000
  if s.vlt.exp.isSome then expEnd s 1
  else if n = 0 ∨ 131072 < n then expEnd s 3
  else
    let s1 := setR s VLT_EXPORT_RESULT 0
    { s1 with vlt := { s1.vlt with exp := some ((getR s VLT_EXPORT_ADDR).toNat, getF s VLT_EXPORT_FIRST 16 0, n) } }

/-- Whether the export may write a record at an address (R210). -/
def exportOk (s : State) (a : Nat) : Bool :=
  let b := bankOf a
  inShared a 16 && (decide (0x04000000 ≤ a) || stripeWhole s a) && decide (bankPwr s b = 0) &&
  (decide (bankKind s b = kRings) || decide (bankKind s b = kHost))

/-- Copies `n` records from slot `i` to address `a`, until one may not be written. Log entry 70 (DESIGN CHOICE). -/
def exportCopy (s : State) (a i n : Nat) : State × Bool :=
  match n with
  | 0 => (s, true)
  | n + 1 =>
    if exportOk s a then
      let j := i % 131072
      exportCopy (wrBytes (coverHalves s a 16) a ((List.range 4).flatMap fun w => leBytes 4 (jWord s j w).toNat)) (a + 16) (i + 1) n
    else (s, false)

/-- The export ends: the records are in memory, or it met memory it may not write. Log entry 70 (DESIGN CHOICE). -/
def exportDone (s : State) : State :=
  match s.vlt.exp with
  | none => s
  | some (a, i, n) =>
    let r := exportCopy { s with vlt := { s.vlt with exp := none } } a i n
    expEnd r.1 (if r.2 then 0 else 2)

/-! Erase (R208). -/

/-- A new identity key pair is generated and its private key is stored; the spec leaves both keys open (R187, R192).
Log entry 71 (DESIGN CHOICE). -/
def newIdentity (s : State) : State :=
  let s1 := (List.range 8).foldl (fun t i => let f := fresh t; setR f.2 (VLT_ID_PUB i) (lo32 f.1)) s
  let a := fresh s1
  let b := fresh a.2
  let c := fresh b.2
  let d := fresh c.2
  rowsWrite { d.2 with vlt := { d.2.vlt with idPriv := (a.1 ++ b.1) ++ (c.1 ++ d.1) } } 4 2

/-- Every row of a log is overwritten with zeros (R189, R208). Log entry 68 (DEDUCED). -/
def logZero (s : State) (l : Nat) : State :=
  let s1 := rowsWrite s l (logRows l)
  { s1 with vlt := { s1.vlt with fill := sset s1.vlt.fill l 0 } }

/-- Every page of the key-pool image is overwritten with zeros (R208). -/
def poolImgZero (s : State) : State :=
  let wr := (List.range 256).foldl (fun m p => smod m p 0 (· + 1)) s.vlt.pageWr
  wearTo { s with vlt := { s.vlt with poolImg := [], tags := [], pageWr := wr } } 0 (wr.foldl (fun n e => max n e.2) 0)

/-- The erase overwrites keys, counters and configuration with zeros and the journal with ones; a new identity key pair
is generated, and the erase mark is cleared last (R81, R192, R208). Log entries 71 (DESIGN CHOICE), 72 (DEDUCED). -/
def vaultWipe (s : State) : State :=
  let wear := s.vlt.jwear + (getR s VLT_JNL_PASSES).toNat + 2
  let s1 := { s with
    vlt := { s.vlt with
      counters := [], marks := [], markWr := [], catImg := [], journal := [], jsec := none, jtime := false, jsplit := false
      sieveNow := 0, sieveMissed := 0, sums := [], persisted := [], cntBusy := none, waiting := [], jwear := wear }
    gate := { s.gate with rel := s.gate.rel.map fun r => { r with slot := none, sum := false } } }
  let s2 := (List.range 5).foldl logZero (poolImgZero (wearTo s1 1 wear))
  let s3 := newIdentity (setR (setR (setR s2 VLT_JNL_HEAD 0) VLT_JNL_PASSES 0) VLT_POLICY 0)
  rowsWrite { s3 with vlt := { s3.vlt with eraseMark := false } } 4 1

/-! The commands. -/

/-- `CNT_CMD` INCREMENT (R194). -/
def execCntIncrement (m : Master) (c : BitVec 8) (s : State) : Res :=
  .next (gatedWrite m VLT_CNT_CMD (cntChange false c.toNat) s)

/-- `CNT_CMD` RAISE (R194). -/
def execCntRaise (m : Master) (c : BitVec 8) (s : State) : Res :=
  .next (gatedWrite m VLT_CNT_CMD (cntChange true c.toNat) s)

/-- `CNT_CMD` READ (R194). -/
def execCntRead (m : Master) (c : BitVec 8) (s : State) : Res := .next (gatedWrite m VLT_CNT_CMD (cntReadCmd c.toNat) s)

/-- A counter's new value is durable (R194). -/
def execCounterDurable (s : State) : Res := .next (cntDurable s)

/-- `EXPORT_COUNT` is written (R202). -/
def execJournalExport (m : Master) (v : Word) (s : State) : Res := .next (gatedWrite m VLT_EXPORT_COUNT (exportCmd v) s)

/-- The journal export ends (R210). -/
def execJournalExportDone (s : State) : Res := .next (exportDone s)

/-- `AUDIT_DROPPED` is read and clears (R209). -/
def execAuditDroppedRead (m : Master) (s : State) : Res :=
  .next (gatedRead m VLT_AUDIT_DROPPED (fun t => (setR t VLT_AUDIT_DROPPED 0, getR t VLT_AUDIT_DROPPED)) s)

/-- A full log is compacted (R189). -/
def execLogCompaction (log : Fin 6) (s : State) : Res := .next (compact log.val s)

/-- A journal second ends (R204). -/
def execJournalSecondEnd (s : State) : Res := .next (jSecondEnd s)

/-- The allowance accrues (R203). -/
def execJournalAllowanceAccrual (s : State) : Res := .next (jAccrue s)

end Sys2Proof.Machine
end

