-- ==== Sys2Proof/Machine/GateOut.lean ====
section
/-! DEFINITION. What leaves the Imperative Gate (05): item ends with their verdict ring record, verdict report and
journal word, the imperative sieve, and the Gate entries of the controllers. -/

namespace Sys2Proof.Machine

open Reg

/-! Outcome codes (R167). -/

/-- DONE. -/
abbrev ocDone : Nat := 0x00
/-- REFUSE_NO_KEY. -/
abbrev ocNoKey : Nat := 0x01
/-- REFUSE_KEY_DISABLED. -/
abbrev ocKeyDisabled : Nat := 0x02
/-- REFUSE_SCOPE. -/
abbrev ocScope : Nat := 0x03
/-- REFUSE_SIG. -/
abbrev ocSig : Nat := 0x04
/-- REFUSE_REPLAY. -/
abbrev ocReplay : Nat := 0x05
/-- REFUSE_STALE. -/
abbrev ocStale : Nat := 0x06
/-- REFUSE_EARLY. -/
abbrev ocEarly : Nat := 0x07
/-- REFUSE_FORMAT. -/
abbrev ocFormat : Nat := 0x08
/-- REFUSE_OVERLOAD. -/
abbrev ocOverload : Nat := 0x09
/-- REFUSE_SUPPLY. -/
abbrev ocSupply : Nat := 0x0A
/-- REFUSE_LOCKDOWN. -/
abbrev ocLockdown : Nat := 0x0B
/-- REVOKED. -/
abbrev ocRevoked : Nat := 0x0C
/-- AGED. -/
abbrev ocAged : Nat := 0x10
/-- ADMIT_THRESHOLD. -/
abbrev ocAdmit : Nat := 0x11
/-- E2E_MISMATCH. -/
abbrev ocE2E : Nat := 0x12
/-- ECC_POISON. -/
abbrev ocPoison : Nat := 0x13
/-- FAILED_UNCONFIRMED. -/
abbrev ocUnconfirmed : Nat := 0x14

/-! The Command Authority Table (R149, R151). -/

/-- An entry after a vault erase: EMPTY, `LAST_GEN` 15 (R155). -/
def CatEnt.empty : CatEnt :=
  { state := 0, use := 0, gen := 0, alg := 0, tb := 0, reqTime := false, tc := 0, poolOff := 0, keyLen := 0, tolMs := 0
    chanHi := 0, chanLo := 0, tagValue := 0, tagMask := 0, lastSeq := 0, window := 0, lastGen := 15 }

/-- Table entry `i`. -/
def catOf (s : State) (i : Nat) : CatEnt := sget s.gate.cat i CatEnt.empty

/-- Sets table entry `i`. -/
def catSet (s : State) (i : Nat) (e : CatEnt) : State := { s with gate := { s.gate with cat := sset s.gate.cat i e } }

/-- The algorithm code of entry `i`. -/
def catAlg (s : State) (i : Nat) : Nat := (catOf s i).alg

/-- Signature bytes of an algorithm (R149); 0 for an invalid code. -/
def sigLen (alg : Nat) : Nat :=
  match alg with
  | 1 => 32 | 2 => 64 | 3 => 64 | 4 => 2420 | 5 => 3309 | _ => 0

/-- A byte of the key pool. -/
def poolByte (s : State) (i : Nat) : Byte := sget s.gate.pool i 0

/-- The key of an entry, in wire order (R153). -/
def catKey (s : State) (e : CatEnt) : List Byte := (List.range e.keyLen).map fun k => poolByte s (e.poolOff * 16 + k)

/-- Whether the Gate is in lockdown: while debug is unlocked, and after boundary scan until the next reset (R91, R555). -/
def lockdown (s : State) : Bool := unlocked s || s.sys.scanLock

/-! Envelope fields (R146). -/

/-- `KEY_ID` of an envelope. -/
def envKey (e : List Byte) : Nat := beAt e 2 2
/-- The table index that `KEY_ID` names. -/
def envIndex (e : List Byte) : Nat := envKey e / 16
/-- The key generation that `KEY_ID` names. -/
def envGen (e : List Byte) : Nat := envKey e % 16
/-- `TARGET_CHANNEL` of an envelope. -/
def envTarget (e : List Byte) : Nat := beAt e 4 2
/-- `INNER_LENGTH` of an envelope. -/
def envInnerLen (e : List Byte) : Nat := beAt e 6 2
/-- `SEQUENCE` of an envelope. -/
def envSeq (e : List Byte) : Nat := beAt e 8 8
/-- `INNER` of an envelope. -/
def envInner (e : List Byte) : List Byte := slice e 32 (envInnerLen e)
/-- `HAS_TIME`. -/
def envHasTime (e : List Byte) : Bool := (beAt e 1 1).testBit 0
/-- `EXPECT_ACK`. -/
def envExpectAck (e : List Byte) : Bool := (beAt e 1 1).testBit 1
/-- Whether the header could be read. -/
def envReadable (e : List Byte) : Bool := decide (32 ≤ e.length)

/-! The verdict ring (R168). -/

/-- Whether a size is a power of two from 64 to 65,536. -/
def vrSizeOk (n : Nat) : Bool := [64, 128, 256, 512, 1024, 2048, 4096, 8192, 16384, 32768, 65536].contains n

/-- Writes one record into the verdict ring. -/
def vrPut (s : State) (tag key chan seq code flags : Nat) : State :=
  let n := getF s IMG_VR_SIZE 16 0
  if !(vrSizeOk n) then s
  else
    let h := getF s IMG_VR_HEAD 15 0
    let rec_ := leBytes 4 tag ++ leBytes 2 key ++ leBytes 2 chan ++ leBytes 4 (seq % 0x100000000) ++
      [b8 code, b8 flags] ++ leBytes 2 s.gate.vrSeq
    let w := fabWrite s 4 ((getR s IMG_VR_BASE).toNat + 16 * h) rec_ false
    let s1 := match w.2 with
      | .ok => raiseIrq (if w.1.gate.vrWrapped && decide (getR w.1 IMG_VR_OVERRUN ≠ 0xFFFFFFFF#32) then
          raiseIrq (satInc w.1 IMG_VR_OVERRUN) IMG 1 else w.1) IMG 0
      | _ => w.1
    let s2 := { s1 with gate := { s1.gate with
      vrSeq := (s1.gate.vrSeq + 1) % 65536, vrWrapped := s1.gate.vrWrapped || decide (h + 1 = n) } }
    setR s2 IMG_VR_HEAD (w32 ((h + 1) % n))

/-! Item ends (R166–R169). -/

/-- What an item's end reports. -/
structure EndInfo where
  tag : Nat
  env : List Byte
  port : Nat
  engine : Nat
  srcMac : List Byte
  released : Bool
  deriving DecidableEq, Repr

/-- The source address of verdict reports (R169). -/
def reportSa (s : State) : List Byte := beBytes 2 (getF s IMG_REPORT_SA_HI 15 0) ++ beBytes 4 (getR s IMG_REPORT_SA_LO).toNat

/-- DEVICE_ID in wire order. -/
def deviceId (s : State) : List Byte := s.sys.deviceId

/-- The verdict report of an item's end (R169). -/
def reportFrame (s : State) (i : EndInfo) (code : Nat) : List Byte :=
  let k := catOf s (envIndex i.env)
  let applied := decide (k.use = 0) && decide (k.gen = envGen i.env) && (decide (k.state ≠ 0) || decide (code = ocRevoked))
  let v := (tbOf s (if applied then k.tb else 0)).v
  let body := [1, b8 (if code = 0 then 0 else 1), b8 code, 0] ++ slice i.env 2 4 ++ slice i.env 8 8 ++ deviceId s ++
    beBytes 8 (vSec v) ++ beBytes 4 (vNs v) ++ beBytes 4 i.tag ++ [0, 0]
  let r := getF s IMG_REPORT_CTRL 11 0
  let e := catOf s r
  let tagged := decide (r ≠ 0) && decide (e.state = 1) && decide (e.use = 2)
  i.srcMac ++ reportSa s ++ beBytes 2 (getF s IMG_REPORT_ETHERTYPE 15 0) ++ body ++
    (if tagged then hmac256 (catKey s e) body ++ List.replicate 16 0 else List.replicate 48 0)

/-- Sends the verdict report, where one is due, to the ingress port of the envelope alone (R169). -/
def sendReport (s : State) (i : EndInfo) (code : Nat) : State :=
  if envReadable i.env && envExpectAck i.env && decide (getF s IMG_REPORT_ETHERTYPE 15 0 ≠ getF s IMG_ENV_ETHERTYPE 15 0) then
    let b := reportFrame s i code
    match swIngress s { plainArrival s 209 b with direct := some (i.port, getF s IMG_REPORT_CTRL 18 16) } with
    | (t, .queued fid) => frameMod t fid fun f => { f with engine := i.engine }
    | (t, .gone) => t
  else s

/-- An item of the Gate ends: its count, ring record and report (R168, R169, R186). -/
def itemEnd (s : State) (i : EndInfo) (code : Nat) : State :=
  let ok := envReadable i.env
  let s1 := if code ≤ 0x0C then bump s (IMG_VERDICT_CNT code) else s
  let s2 := if code = ocOverload then raiseIrq s1 IMG 4 else if code = ocSig then raiseIrq s1 IMG 5 else s1
  let s3 := { s2 with gate := { s2.gate with
    warnRefused := s2.gate.warnRefused + (if code = ocSupply then 1 else 0)
    revN := s2.gate.revN + (if code = ocRevoked then 1 else 0) } }
  let s4 := vrPut s3 i.tag (if ok then envKey i.env else 0) (if ok then envTarget i.env else 0xFFFF)
    (if ok then envSeq i.env else 0) code (nb (decide (code ≠ 0)) + 2 * nb i.released)
  sendReport s4 i code

/-- `GATE_STATUS[11:0]` and the interrupt on `PEND_HIGH_MARK` follow the pending queue (R184, R186). -/
def pendLevel (s : State) : State :=
  let n := s.gate.pend.length
  setRaw (putF s IMG_GATE_STATUS 11 0 n) IMG 3 (decide (getF s IMG_PEND_HIGH_MARK 11 0 < n))

/-- What a pending entry's end reports. -/
def PEnt.info (e : PEnt) : EndInfo :=
  { tag := e.tag, env := e.env, port := e.port, engine := e.engine, srcMac := e.srcMac, released := false }

/-- What a released item's end reports. -/
def REnt.info (e : REnt) : EndInfo :=
  { tag := e.tag, env := e.env, port := e.port, engine := e.engine, srcMac := e.srcMac, released := true }

/-- A pending entry leaves the queue and its item ends (R156, R165). -/
def pendEnd (s : State) (e : PEnt) (code : Nat) : State :=
  let s1 := unref { s with gate := { s.gate with pend := s.gate.pend.filter fun x => decide (x.tag ≠ e.tag) } } e.fid
  itemEnd (pendLevel s1) e.info code

/-- Ends every pending entry that `p` admits, in order of admission. -/
def pendEndAll (s : State) (p : PEnt → Bool) (code : Nat) : State :=
  (s.gate.pend.filter p).foldl (fun t e => pendEnd t e code) s

/-- A released imperative ends (R166): its journal word, then its ring record and report. A later end is discarded (R543). -/
def releasedEnd (s : State) (tag code : Nat) : State :=
  match s.gate.rel.find? fun r => decide (r.tag = tag) with
  | none => s
  | some r =>
    let s0 := vGone { s with gate := { s.gate with rel := s.gate.rel.filter fun x => decide (x.tag ≠ tag) } } 2 tag
    let s1 := match r.fid with | some f => unref s0 f | none => s0
    itemEnd (jReleaseEnd s1 r.slot r.sum (envKey r.env) code r.at_) r.info code

/-- A released imperative's last byte has left (R29). -/
def itemTransmitted (s : State) (tag : Nat) : State := releasedEnd s tag ocDone

/-- A released imperative ends FAILED at an exit. -/
def itemEndExit (s : State) (tag code : Nat) : State := releasedEnd s tag code

/-- Notes where a released imperative stands. -/
def relPhase (s : State) (tag : Nat) (p : RPhase) : State :=
  { s with gate := { s.gate with rel := s.gate.rel.map fun r => if r.tag = tag then { r with phase := p } else r } }

/-! The imperative sieve (R174–R176). -/

/-- Byte `j` of the `VALUE` (`o` = 2) or `MASK` (`o` = 10) of a sieve rule. -/
def sieveByte (r : List Word) (o j : Nat) : Nat := fld (lget r (o + j / 4) 0) (8 * (j % 4) + 7) (8 * (j % 4))

/-- Whether a sieve rule applies to a frame (R174). -/
def sieveMatches (r : List Word) (chan attach : Nat) (b : List Byte) : Bool :=
  let w0 := lget r 0 0
  let w1 := lget r 1 0
  bit w0 31 && bit w0 attach && decide (fld w1 8 0 ≤ chan) && decide (chan ≤ fld w1 24 16) &&
  (List.range 32).all fun j =>
    decide (Nat.land (beAt b (fld w0 7 0 + j) 1) (sieveByte r 10 j) = Nat.land (sieveByte r 2 j) (sieveByte r 10 j))

/-- The lowest-numbered sieve rule that matches. -/
def sieveRule (s : State) (chan attach : Nat) (b : List Byte) : Option (Nat × List Word) :=
  s.gate.sieve.find? fun e => sieveMatches e.2 chan attach b

/-- Judges a frame at a guarded exit: whether it may leave; a block is counted and journalled (R28, R176). -/
def sieveJudge (s : State) (chan attach : Nat) (b : List Byte) (pass : Bool) (src : Nat) : State × Bool :=
  if pass || !(getB s IMG_GATE_CTRL 1) then (s, true)
  else
    match sieveRule s chan attach b with
    | none => (s, true)
    | some (i, r) =>
      let s1 := raiseIrq (bump (bump s (IMG_SIEVE_CNT chan)) IMG_SIEVE_TOTAL) IMG 2
      (jSieve s1 chan src i (leAt b (fld (lget r 0 0) 7 0) 4), false)


/-! Gate entries of controllers (R166, R301, R317, R343). -/

/-- The records at the Gate entry of a channel. -/
def gateEntries (s : State) (chan : Nat) : List GEnt := sget s.gate.entry chan []

/-- Sets the records at the Gate entry of a channel. -/
def gateEntriesPut (s : State) (chan : Nat) (l : List GEnt) : State :=
  { s with gate := { s.gate with entry := ssetD [] s.gate.entry chan l } }


/-- Changes the record with a tag. -/
def gateEntrySet (s : State) (chan tag : Nat) (f : GEnt → GEnt) : State :=
  gateEntriesPut s chan ((gateEntries s chan).map fun g => if g.tag = tag then f g else g)

/-- Moves the records at one place to another. -/
def gateEntryLoc (s : State) (chan frm dest : Nat) : State :=
  gateEntriesPut s chan ((gateEntries s chan).map fun g => if g.loc = frm then { g with loc := dest } else g)

/-- Removes the record with a tag. -/
def gateEntryDrop (s : State) (chan tag : Nat) : State :=
  gateEntriesPut s chan ((gateEntries s chan).filter fun g => decide (g.tag ≠ tag))

/-- The controller lets go of a record that it has fetched and not begun to send: a multidrop controller's transmit buffer
empties; a Period Link controller finds the record gone at the action point. -/
def gateEntryUnload (s : State) (chan : Nat) : State :=
  if chan < 320 then { s with mdb := smod s.mdb (chan - 256) MdbSt.init fun p => { p with tb0 := none } } else s

/-- A record leaves its Gate entry before its transmission has begun: the controller lets go of it, and its item ends; one
in transmission ends so only if the transmission does not succeed (R170 step 4, R301, R319). -/
def gateEntryEnd (s : State) (chan : Nat) (g : GEnt) (code : Nat) : State :=
  if g.loc = 2 then
    gateEntrySet s chan g.tag fun e => { e with pend := match e.pend with | some c => some c | none => some code }
  else
    let s1 := gateEntryDrop s chan g.tag
    releasedEnd (if g.loc = 1 then gateEntryUnload s1 chan else s1) g.tag code

/-- A record whose transmission did not reach a receiver: its item ends where an ending waited for that, and otherwise it
returns to the head of the Gate entry (R303, R319). -/
def gateEntryBack (s : State) (chan tag : Nat) : State :=
  match (gateEntries s chan).find? fun g => decide (g.tag = tag) with
  | none => s
  | some g =>
    let s1 := gateEntryDrop s chan tag
    match g.pend with
    | some c => releasedEnd s1 tag c
    | none => gateEntriesPut s1 chan ({ g with loc := 0 } :: gateEntries s1 chan)

/-- Ends every record at a Gate entry that `p` admits. -/
def gateEntryEndAll (s : State) (p : GEnt → Bool) (code : Nat) : State :=
  s.gate.entry.foldl (fun t e => (e.2.filter p).foldl (fun u g => gateEntryEnd u e.1 g code) t) s

/-- The record of a Gate entry whose hold limit passes next: the first released of those that do not end already. -/
def gateOldest (s : State) (chan : Nat) : Option GEnt :=
  ((gateEntries s chan).filter fun g => g.pend.isNone).foldl (fun o g => match o with
    | none => some g
    | some x => if g.at_.toNat < x.at_.toNat then some g else some x) none

/-- A record at a Gate entry has waited longer than `HOLD_LIMIT` since its RELEASE: the clock advances to that moment, and
its item ends AGED (R166, R301, R319). -/
def gateHold (chan : Nat) (s : State) : State :=
  match gateOldest s chan with
  | none => s
  | some g =>
    let lim := max 1 (getF s IMG_HOLD_LIMIT 15 0) * 1000000
    let s1 := advanceNs s (g.at_.toNat + lim + 1)
    if (s1.time.tense - g.at_).toNat ≤ lim then s1 else gateEntryEnd s1 chan g ocAged

/-- The hold limit of a Gate entry passes (R166). -/
def execGateHoldLimitExpiry (chan : BitVec 9) (s : State) : Res := .next (gateHold chan.toNat s)

end Sys2Proof.Machine
end

