-- ==== Sys2Proof/Machine/Gate.lean ====
section
/-! DEFINITION. The Imperative Gate (05): admission, the verdict, release, the Command Authority Table and its
commands, revocation, lockdown, the sieve commands, the key pool and the HMAC service. -/

namespace Sys2Proof.Machine

open Reg

/-! Admission (R156–R159). -/

/-- Whether a channel ID is one an envelope may name (R12, R146). -/
def targetOk (t : Nat) : Bool := chanAssigned t || decide (t = 0x1FF)

/-- `header_ok` of R159 (R146, R147, R12, R150). -/
def headerOk (e : List Byte) (trunc : Bool) : Bool :=
  envReadable e && !trunc && decide (beAt e 0 1 = 1) && decide (beAt e 1 1 / 4 = 0) && targetOk (envTarget e) &&
  decide (1 ≤ envInnerLen e) && decide (beAt e 28 4 = 0) &&
  (if envHasTime e then decide (beAt e 22 2 ≠ 0) else decide (beAt e 16 8 = 0))

/-- `inner_fits` of R159 (R148). -/
def innerFits (s : State) (e : List Byte) : Bool :=
  let t := envTarget e
  let n := envInnerLen e
  if t < 192 then decide (14 ≤ n) && decide (n ≤ macMtu s t + 18)
  else if t = 0x1FF then decide (16 ≤ n) && decide (n ≤ 6160)
  else if t < 320 then mdbWellFormed (getB s (MDB_CFG (t - 256)) 3) (envInner e)
  else if t < 384 then decide (2 ≤ n) && decide (n ≤ 238) && decide (n % 2 = 0)
  else pktWellFormed (envInner e)

/-- The checks made when an entry is admitted: the outcome of the first that fails (R159). -/
def firstChecks (s : State) (e : List Byte) (trunc : Bool) : Option Nat :=
  let k := catOf s (envIndex e)
  if !(headerOk e trunc) then some ocFormat
  else if lockdown s = true ∧ envTarget e ≠ 0x1FF then some ocLockdown
  else if k.state = 0 ∨ k.use ≠ 0 ∨ k.gen ≠ envGen e then some ocNoKey
  else if k.state = 2 then some ocKeyDisabled
  else if e.length ≠ 32 + envInnerLen e + sigLen k.alg ∨ innerFits s e = false then some ocFormat
  else none

/-- The envelope in a frame (R145). -/
def envelopeOf (s : State) (f : Frame) : List Byte :=
  if f.imp then f.bytes.drop 14
  else
    let q := parseFrame s f.src f.bytes
    let b := f.bytes.drop q.off
    if q.prp then b.take (b.length - 6) else b

/-- The frame at the Gate input becomes an item (R156, R157, R159). -/
def gateItem (s : State) (fid : Nat) (f : Frame) : State :=
  let tag := (getR s IMG_NEXT_TAG).toNat
  let s1 := setR s IMG_NEXT_TAG (w32 (if tag = 0x0FFFFFFF then 1 else tag + 1))
  let e := envelopeOf s f
  let i : EndInfo := { tag := tag, env := e, port := f.src, engine := f.remadeBy, srcMac := slice f.bytes 6 6, released := false }
  let refuse (c : Nat) : State := itemEnd (unref s1 fid) i c
  if supplyHeld s then refuse ocSupply
  else if 2048 ≤ s.gate.pend.length then refuse ocOverload
  else if max 1 (getF s IMG_PORT_QUOTA 11 0) ≤ (s.gate.pend.filter fun x => decide (x.port = f.src)).length then refuse ocOverload
  else if getB s IMG_GATE_CTRL 0 = false then refuse ocOverload
  else match firstChecks s e f.trunc with
    | some c => refuse c
    | none =>
      let p : PEnt := { tag := tag, env := e, port := f.src, engine := f.remadeBy, srcMac := slice f.bytes 6 6, fid := fid
                        phase := .waiting }
      pendLevel { s1 with gate := { s1.gate with pend := s1.gate.pend ++ [p] } }

/-- The frame at the Gate input is checked (R21); a sound one becomes an item. -/
def gateAdmit (rf0 : ReadFault) (s : State) : State :=
  match s.sw.sink.find? fun e => decide (e.port = 209) with
  | none => s
  | some e =>
    let s1 := { s with sw := { s.sw with sink := s.sw.sink.erase e } }
    let rf := if rf0 = .clean then e.rf else rf0
    match frameOf s1 e.fid with
    | none => s1
    | some f =>
      if rf = .poison ∨ f.poison = true then unref (dropStored s1 e.fid 209 dropPoison 209 f.tc) e.fid
      else if rf = .corrupt ∨ crc32c f.bytes ≠ f.check then unref (dropStored s1 e.fid 209 dropE2E 209 f.tc) e.fid
      else gateItem s1 e.fid f

/-! Units (R158). -/

/-- The unit class of an algorithm. -/
def algClass (alg : Nat) : UnitClass := if alg = 1 then .hmac else if alg ≤ 3 then .pk else .lattice

/-- Units of a class. -/
def unitCount (c : UnitClass) : Nat :=
  match c with
  | .pk => 24 | .lattice => 4 | .hmac => 32

/-- The class of a pending entry. -/
def pentClass (s : State) (e : PEnt) : UnitClass := algClass (catAlg s (envIndex e.env))

/-- Whether unit `u` of a class is busy. -/
def unitBusy (s : State) (c : UnitClass) (u : Nat) : Bool :=
  (s.gate.pend.any fun e => decide (e.phase = .onUnit u) && decide (pentClass s e = c)) ||
  (decide (c = .hmac) && s.gate.svc.any fun r => decide (r.lane = some u))

/-- The busy units of a class, as a mask (`PK_BUSY`, `LAT_BUSY`, `HMAC_BUSY`). -/
def unitMask (s : State) (c : UnitClass) : Word :=
  w32 (((List.range (unitCount c)).filter (unitBusy s c)).foldl (fun a u => a + 2 ^ u) 0)

/-- Changes the phase of the pending entry with a tag. Log entry 64 (DEDUCED). -/
def pendPhase (s : State) (tag : Nat) (p : PPhase) : State :=
  { s with gate := { s.gate with pend := s.gate.pend.map fun e => if e.tag = tag then { e with phase := p } else e } }

/-! The HMAC service (R178, R179). -/

/-- Whether the banks of an access are scratch banks of engine `n` (R178, R426). -/
def scratchOf (s : State) (n a len : Nat) : Bool :=
  let ok (b : Nat) : Bool := decide (bankKind s b = kScratch) && decide (ctrlEngine (getR s (BNK_BANK_CTRL b)) = n)
  ok (bankOf a) && ok (bankOf (a + len - 1))

/-- The master of a service access: the Gate in a bank of the engine, and elsewhere the engine itself, whose bank ownership
decides (R178, R426). Log entry 159 (DEDUCED). -/
def svcMaster (s : State) (n a len : Nat) : Master := if scratchOf s n a len then 4 else BitVec.ofNat 6 (8 + n)

/-- The Gate reads a service buffer under the engine's bank ownership (R178). -/
def svcRead (s : State) (n a len : Nat) : State × FabStat × List Byte :=
  fabRead s (svcMaster s n a len) a len (scratchOf s n a len)

/-- The Gate writes a service buffer under the engine's bank ownership (R178). -/
def svcWrite (s : State) (n a : Nat) (b : List Byte) : State × FabStat :=
  fabWrite s (svcMaster s n a b.length) a b (scratchOf s n a b.length)

/-- Whether `len` bytes at `a` lie in a buffer of an outstanding service request of engine `n` (R357). -/
def svcReach (s : State) (n a len : Nat) : Bool :=
  let inside (b l : Nat) : Bool := decide (b ≤ a) && decide (a + len ≤ b + l)
  s.gate.svc.any fun r => decide (r.engine = n) &&
    (inside r.addr 32 || inside (rdLE s (r.addr + 4) 4) (rdLE s (r.addr + 8) 4) ||
      inside (rdLE s (r.addr + 12) 4) (rdLE s (r.addr + 3) 1) || inside (rdLE s (r.addr + 16) 4) (rdLE s (r.addr + 20) 1))

/-- A service request ends: its status is written and the engine's event line 10 is raised (R178, R186). -/
def svcEnd (s : State) (n addr st : Nat) : State :=
  let s1 := (svcWrite s n (addr + 24) (leBytes 4 (0x80000000 + st))).1
  let s2 := raiseEvent s1 n 10
  if 2 ≤ st then raiseIrq s2 IMG 11 else s2

/-- Removes a service request that holds a place, and ends it. -/
def svcFinish (s : State) (r : SvcReq) (st : Nat) : State :=
  svcEnd { s with gate := { s.gate with svc := s.gate.svc.erase r } } r.engine r.addr st

/-- The first format check of a request that fails (R178). -/
def svcFormatOk (b : List Byte) : Bool :=
  let k := leAt b 0 2
  (decide (1 ≤ k) && decide (k < 4096) || decide (k = 0xFFFF) && decide (16 ≤ leAt b 20 1) && decide (leAt b 20 1 ≤ 64)) &&
  decide (1 ≤ leAt b 2 1) && decide (leAt b 2 1 ≤ 2) && decide (4 ≤ leAt b 3 1) && decide (leAt b 3 1 ≤ 32) &&
  decide (1 ≤ leAt b 8 4) && decide (leAt b 8 4 ≤ 65536) && decide (leAt b 21 1 = 0)

/-- Engine `n` posts a request (R178, R179). -/
def svcPost (n addr : Nat) (s : State) : State :=
  let lim := min 16 (max 1 (getF s IMG_SVC_LIMIT 4 0))
  if supplyHeld s then svcEnd s n addr 6
  else if lim ≤ (s.gate.svc.filter fun r => decide (r.engine = n)).length then svcEnd s n addr 7
  else
    let r := svcRead s n addr 32
    if r.2.1 ≠ .ok then svcEnd r.1 n addr 5
    else if addr % 32 ≠ 0 ∨ svcFormatOk r.2.2 = false then svcEnd r.1 n addr 4
    else { r.1 with gate := { r.1.gate with svc := r.1.gate.svc ++ [{ engine := n, addr := addr, lane := none }] } }

/-- Why a request may not take a lane: NO_KEY or SCOPE (R179). -/
def svcRefusal (s : State) (r : SvcReq) : Option Nat :=
  let k := rdLE s r.addr 2
  let c := rdLE s (r.addr + 22) 2
  let e := catOf s k
  if k = 0xFFFF then none
  else if e.state = 0 ∨ e.use ≠ 1 then some 2
  else if c < e.chanLo ∨ e.chanHi < c ∨ engineOf s c ≠ r.engine then some 3
  else none

/-- The oldest waiting service request takes lane `u`, or ends. -/
def svcTake (s : State) (u : Nat) : State :=
  match s.gate.svc.find? fun r => decide (r.lane = none) with
  | none => s
  | some r =>
    match svcRefusal s r with
    | some st => svcFinish s r st
    | none => { s with gate := { s.gate with svc := s.gate.svc.map fun x => if x = r then { x with lane := some u } else x } }

/-- The oldest waiting entry of a class takes the lowest-numbered free unit; a lane with no envelope waiting takes the
oldest service request (R158). Log entries 64 (DEDUCED), 65 (DEDUCED). -/
def unitTake (c : UnitClass) (s : State) : State :=
  match (List.range (unitCount c)).find? fun u => !(unitBusy s c u) with
  | none => s
  | some u =>
    match s.gate.pend.find? fun e => decide (e.phase = .waiting) && decide (pentClass s e = c) with
    | some e => pendPhase s e.tag (.onUnit u)
    | none => if c = .hmac then svcTake s u else s

/-- An HMAC lane gives the result of its service request (R178, R179). -/
def svcDone (lane : Nat) (s : State) : State :=
  match s.gate.svc.find? fun r => decide (r.lane = some lane) with
  | none => s
  | some r =>
    let n := r.engine
    let q := svcRead s n r.addr 32
    if q.2.1 ≠ .ok then svcFinish q.1 r 5 else
    let b := q.2.2
    let key := if leAt b 0 2 = 0xFFFF then svcRead q.1 n (leAt b 16 4) (leAt b 20 1)
      else (q.1, .ok, catKey q.1 (catOf q.1 (leAt b 0 2)))
    let d := svcRead key.1 n (leAt b 4 4) (leAt b 8 4)
    if key.2.1 ≠ .ok ∨ d.2.1 ≠ .ok then svcFinish d.1 r 5 else
    let tag := (hmac256 key.2.2 d.2.2).take (leAt b 3 1)
    if leAt b 2 1 = 1 then
      let w := svcWrite d.1 n (leAt b 12 4) tag
      svcFinish w.1 r (if w.2 = .ok then 0 else 5)
    else
      let w := svcRead d.1 n (leAt b 12 4) (leAt b 3 1)
      svcFinish w.1 r (if w.2.1 ≠ .ok then 5 else if w.2.2 = tag then 0 else 1)

/-- Every outstanding request of engine `n` ends ENGINE_DEAD (R370). -/
def svcEndAll (s : State) (n : Nat) : State :=
  (s.gate.svc.filter fun r => decide (r.engine = n)).foldl (fun t r => svcFinish t r 8) s

/-! The verdict (R159–R162). -/

/-- The signed message *M* of an envelope (R149). -/
def envMessage (s : State) (e : List Byte) : List Byte := deviceId s ++ e.take (32 + envInnerLen e)

/-- A unit gives its result; `ok` is the verdict of a lattice unit (R149, R158).
Log entries 65 (DEDUCED), 148 (DESIGN CHOICE). -/
def sigResult (tag : Nat) (ok : Bool) (s : State) : State :=
  match s.gate.pend.find? fun e => decide (e.tag = tag) with
  | none => s
  | some e =>
    match e.phase with
    | .onUnit _ =>
      let k := catOf s (envIndex e.env)
      let sig := slice e.env (32 + envInnerLen e.env) (sigLen k.alg)
      pendPhase s tag (.result (sigVerify k.alg (catKey s k) (envMessage s e.env) sig ok))
    | _ => s

/-- `replay_ok` (R161). -/
def replayOk (k : CatEnt) (q : Nat) : Bool :=
  let l := k.lastSeq.toNat
  if l < q then true else decide (l - q < 64) && !(k.window.toNat.testBit (l - q))

/-- `replay_record` (R161). -/
def replayRecord (k : CatEnt) (q : Nat) : CatEnt :=
  let l := k.lastSeq.toNat
  if l < q then
    { k with lastSeq := BitVec.ofNat 64 q
             window := if 64 ≤ q - l then 1 else (k.window <<< (q - l)) ||| 1 }
  else { k with window := k.window ||| (1#64 <<< (l - q)) }

/-- `time_check` (R162): the outcome, or `none` where it passes. -/
def timeCheck (s : State) (k : CatEnt) (e : List Byte) : Option Nat :=
  if envHasTime e = false then (if k.reqTime then some ocStale else none)
  else if tbValid s k.tb = false then some ocStale
  else
    let v := (tbOf s k.tb).v
    let now := vSec v * 1000 + vNs v / 1000000
    let frm := beAt e 16 6 * 1000
    if now + k.tolMs < frm then some ocEarly
    else if frm + beAt e 22 2 + k.tolMs ≤ now then some ocStale
    else none

/-- The checks of the verdict stage after a good signature (R159): the outcome of the first that fails. -/
def stageChecks (s : State) (e : List Byte) : Option Nat :=
  let k := catOf s (envIndex e)
  if k.state = 0 ∨ k.gen ≠ envGen e then some ocRevoked
  else if k.state = 2 then some ocKeyDisabled
  else if lockdown s = true ∧ envTarget e ≠ 0x1FF then some ocLockdown
  else if envTarget e < k.chanLo ∨ k.chanHi < envTarget e ∨
      (w32 (beAt e 24 4) &&& k.tagMask) ≠ (k.tagValue &&& k.tagMask) then some ocScope
  else if replayOk k (envSeq e) = false then some ocReplay
  else timeCheck s k e

/-- A PASS: the replay state moves, a new block's mark is written, and the imperative is released (R161, R164, R195). -/
def passEntry (s : State) (e : PEnt) : State :=
  let i := envIndex e.env
  let k := catOf s i
  let k2 := replayRecord k (envSeq e.env)
  let s1 := catSet s i k2
  let s2 := if k2.lastSeq.toNat / 1024 = k.lastSeq.toNat / 1024 then s1 else markWrite s1 i k2.lastSeq
  let s3 := pendLevel { s2 with gate := { s2.gate with pend := s2.gate.pend.filter fun x => decide (x.tag ≠ e.tag) } }
  let j := jRelease s3 (envTarget e.env) e.tag (envKey e.env) (envSeq e.env)
  let sum := decide (j.2 = none) && getB j.1 VLT_STATUS 28
  let r : REnt :=
    { tag := e.tag, env := e.env, port := e.port, engine := e.engine, srcMac := e.srcMac, phase := .passed, slot := j.2
      sum := sum, at_ := tense j.1, fid := some e.fid }
  vAsk { j.1 with gate := { j.1.gate with rel := j.1.gate.rel ++ [r] } } 2 e.tag

/-- The verdict stage handles an entry that has its result and no earlier entry of its key before it (R159, R160, R196). -/
def verdictOf (tag : Nat) (s : State) : State :=
  match s.gate.pend.find? fun e => decide (e.tag = tag) with
  | none => s
  | some e =>
    let i := envIndex e.env
    let first := (s.gate.pend.find? fun x => decide (envIndex x.env = i)).map (·.tag)
    if first ≠ some tag then s
    else match e.phase with
      | .waiting => s
      | .onUnit _ => s
      | .result false => pendEnd s e ocSig
      | _ =>
        match stageChecks s e.env with
        | some c => pendEnd s e c
        | none =>
          if (markOf s i).toNat + 1024 ≤ envSeq e.env then
            pendPhase (markWrite s i (BitVec.ofNat 64 (envSeq e.env))) tag .markWait
          else passEntry s e

/-! Release (R164, R165). -/

/-- Emits INNER toward its target (R164). -/
def emitInner (s : State) (r : REnt) : State :=
  let t := envTarget r.env
  let inner := envInner r.env
  if t = 0x1FF then
    let s1 := relPhase s r.tag .bundle
    { s1 with sys := { s1.sys with bundles := s1.sys.bundles ++ [{ tag := r.tag, keyId := envKey r.env, bytes := inner }] } }
  else if t < 192 then
    let a : Arrival := { plainArrival s 209 inner with
      itemTag := r.tag, direct := some (t, (catOf s (envIndex r.env)).tc), pass := some (envKey r.env) }
    match swIngress (relPhase s r.tag .switch) a with
    | (u, .queued _) => u
    | (u, .gone) => releasedEnd u r.tag ocAdmit
  else
    let s1 := relPhase s r.tag .controller
    gateEntriesPut s1 t (gateEntries s1 t ++
      [{ tag := r.tag, keyId := envKey r.env, bytes := inner, check := crc32c inner, at_ := r.at_, handle := 0xFFFF
         verdict := 1, loc := 0, pend := none }])

/-- The RELEASE record of the oldest passed imperative is durable: its INNER is emitted, and the Gate lets go of the
envelope's cells (R164, R165, R200). -/
def releaseDurable (tag : Nat) (s : State) : State :=
  match s.gate.rel.find? fun r => decide (r.phase = .passed) with
  | none => s
  | some r =>
    if r.tag ≠ tag ∨ vMay s 2 tag = false then s
    else
      let s1 := emitInner (vGone s 2 tag) r
      let s2 := { s1 with gate := { s1.gate with rel := s1.gate.rel.map fun x =>
        if x.tag = tag then { x with fid := none } else x } }
      if (s1.gate.rel.any fun x => decide (x.tag = tag)) then
        match r.fid with
        | some f => unref s2 f
        | none => s2
      else s2

/-! Withdrawal, lockdown, revocation (R117, R170–R172). -/

/-- Posts an entry to the switch's withdrawal list; a full list makes it wait (R117). -/
def withdrawPost (s : State) (w : Withdraw) : State :=
  if s.sw.withdraw.length < 16 then { s with sw := { s.sw with withdraw := s.sw.withdraw ++ [w] } }
  else { s with sw := { s.sw with withdrawWait := s.sw.withdrawWait ++ [w] } }

/-- Imperatives passed and not yet emitted that `p` admits end without emission (R170 step 7, R172). -/
def passedEndAll (s : State) (p : REnt → Bool) (code : Nat) : State :=
  (s.gate.rel.filter fun r => decide (r.phase = .passed) && p r).foldl (fun t r => releasedEnd t r.tag code) s

/-- Lockdown begins (R172). -/
def lockdownBegin (s : State) : State :=
  if getB s IMG_GATE_STATUS 31 then s
  else
    let s1 := raiseIrq (putB s IMG_GATE_STATUS 31 true) IMG 9
    let s2 := passedEndAll s1 (fun r => decide (envTarget r.env ≠ 0x1FF)) ocLockdown
    withdrawPost (gateEntryEndAll s2 (fun _ => true) ocLockdown) .lockdown

/-- Lockdown ends when debug relocks, unless boundary scan holds it (R91, R555). -/
def lockdownEnd (s : State) : State :=
  if lockdown s = true ∨ getB s IMG_GATE_STATUS 31 = false then s
  else raiseIrq (putB s IMG_GATE_STATUS 31 false) IMG 9

/-- Zeroes the live pool bytes of an entry's key (R153, R170). -/
def poolZero (s : State) (e : CatEnt) : State :=
  { s with gate := { s.gate with pool := sclear s.gate.pool (e.poolOff * 16) (e.poolOff * 16 + e.keyLen) (fun _ => true) } }

/-- An entry is revoked or deleted: steps 1 to 4, 6 and 7 of R170. -/
def revokeEntry (s : State) (i : Nat) : State :=
  let k := catOf s i
  let key := i * 16 + k.gen
  let s1 := catSet s i { k with state := 0, lastGen := k.gen }
  let s2 := pendEndAll s1 (fun e => decide (envIndex e.env = i)) ocRevoked
  let s3 := passedEndAll s2 (fun r => decide (envKey r.env = key)) ocRevoked
  let s4 := withdrawPost s3 (.key key)
  poolZero (gateEntryEndAll s4 (fun g => decide (g.keyId = key)) ocRevoked) k

/-- The withdrawal scans are over: a REVOKE in progress writes its journal record, a transfer its OWNER record
(R155, R170, R199). -/
def scansOver (s : State) : State :=
  if !(s.sw.withdraw.isEmpty && s.sw.withdrawWait.isEmpty) then s
  else
    let s1 := match s.gate.catBusy with
      | some (4, i) =>
        if s.gate.catScan then s
        else
          let t := jRecord s 3 (jMs s) (i * 16 + (catOf s i).lastGen) s.gate.revN
          vAsk (raiseIrq { t with gate := { t.gate with catScan := true } } IMG 10) 5 0
      | _ => s
    match s1.gate.ownRec with
    | some g => let t := jRecord s1 9 2 g s1.gate.revN; { t with gate := { t.gate with ownRec := none } }
    | none => s1

/-! Table commands (R152–R155, R185). -/

/-- A staging word of the CAT command. -/
def catStage (s : State) (w : Nat) : Word := getR s (IMG_CAT_STAGE w)

/-- The entry that the staging words spell (R151). -/
def stagedEntry (s : State) : CatEnt :=
  let w0 := catStage s 0
  let w1 := catStage s 1
  let w2 := catStage s 2
  { state := 1, use := fld w0 29 28, gen := fld w0 27 24, alg := fld w0 23 16, tb := fld w0 15 14, reqTime := bit w0 13
    tc := fld w0 12 10, poolOff := fld w1 31 16, keyLen := fld w1 11 0, tolMs := fld w2 31 25, chanHi := fld w2 24 16
    chanLo := fld w2 8 0, tagValue := catStage s 3, tagMask := catStage s 4
    lastSeq := dword (catStage s 6) (catStage s 5), window := 0xFFFFFFFFFFFFFFFF#64, lastGen := fld w0 27 24 }

/-- Items under entry `i` that are pending, or released and not yet transmitted (R151). -/
def catPending (s : State) (i : Nat) : Nat :=
  (s.gate.pend.filter fun e => decide (envIndex e.env = i)).length +
  (s.gate.rel.filter fun r => decide (envIndex r.env = i)).length

/-- The staging words of entry `i` (R151). -/
def catWords (s : State) (i : Nat) : List Word :=
  let e := catOf s i
  [w32 (e.state * 2 ^ 30 + e.use * 2 ^ 28 + e.gen * 2 ^ 24 + e.alg * 2 ^ 16 + e.tb * 2 ^ 14 + nb e.reqTime * 2 ^ 13 + e.tc * 2 ^ 10),
   w32 (e.poolOff * 2 ^ 16 + e.keyLen), w32 (e.tolMs * 2 ^ 25 + e.chanHi * 2 ^ 16 + e.chanLo), e.tagValue, e.tagMask,
   lo32 e.lastSeq, hi32 e.lastSeq, lo32 e.window, hi32 e.window, w32 (e.lastGen * 2 ^ 24 + min 4095 (catPending s i)), 0, 0]

/-- Whether a key length suits an algorithm (R152). -/
def keyLenOk (alg n : Nat) : Bool :=
  match alg with
  | 1 => decide (32 ≤ n) && decide (n ≤ 64)
  | 2 => decide (n = 32)
  | 3 => decide (n = 64)
  | 4 => decide (n = 1312)
  | 5 => decide (n = 1952)
  | _ => false

/-- The rules of R152 that an entry meets by itself. -/
def catFormatOk (s : State) (e : CatEnt) : Bool :=
  keyLenOk e.alg e.keyLen && decide (e.use < 3) && (decide (e.use = 0) || decide (e.alg = 1)) &&
  decide (e.poolOff * 16 + e.keyLen ≤ 0x100000) && keyDecodes e.alg (catKey s e)

/-- Whether pool bytes `[lo, hi)` meet the region of an entry that is not EMPTY. -/
def poolTaken (s : State) (lo hi : Nat) : Bool :=
  s.gate.cat.any fun e => decide (e.2.state ≠ 0) && decide (lo < e.2.poolOff * 16 + e.2.keyLen) && decide (e.2.poolOff * 16 < hi)

/-- A CAT command ends with a status. -/
def catEnd (s : State) (st : Nat) : State :=
  raiseIrq (setR s IMG_CAT_RESULT (w32 (0x80000000 + st * 0x10000000))) IMG 6

/-- A CAT command whose effect becomes durable later (R154); a REVOKE asks for its write when its scan has ended. -/
def catStart (s : State) (op i : Nat) : State :=
  let s1 := setR { s with gate := { s.gate with catBusy := some (op, i), catScan := false } } IMG_CAT_RESULT 0
  if op = 4 then s1 else vAsk s1 5 0

/-- INSTALL (R152, R154). -/
def catInstall (i : Nat) (s : State) : State :=
  let e := stagedEntry s
  let old := catOf s i
  if old.state ≠ 0 then catEnd s 3
  else if e.gen ≠ (old.lastGen + 1) % 16 ∨ catFormatOk s e = false then catEnd s 2
  else if poolTaken s (e.poolOff * 16) (e.poolOff * 16 + e.keyLen) then catEnd s 4
  else catStart (markWrite (catSet s i e) i e.lastSeq) 1 i

/-- A CAT command (R154, R155, R185, R586). Log entry 20 (DEDUCED). -/
def catCmd (v : Word) (s : State) : State :=
  let i := fld v 27 16
  let op := fld v 2 0
  if s.gate.catBusy.isSome then catEnd s 1
  else if op = 5 then
    catEnd (((List.range 12).zip (catWords s i)).foldl (fun t p => setR t (IMG_CAT_STAGE p.1) p.2) s) 0
  else if op = 0 ∨ 5 < op then catEnd s 2
  else if owner s ≠ 1 then catEnd s 6
  else if i = 0 then catEnd s 7
  else if op = 1 then catInstall i s
  else if (catOf s i).state = 0 then catEnd s 5
  else if op = 2 then catStart (catSet s i { catOf s i with state := 1 }) 2 i
  else if op = 3 then catStart (catSet s i { catOf s i with state := 2 }) 3 i
  else scansOver (revokeEntry (catStart { s with gate := { s.gate with revN := 0 } } 4 i) i)

/-- The pages of the key pool that a key's bytes lie in (R190). -/
def poolPages (e : CatEnt) : List Nat :=
  (List.range 256).filter fun p => decide (e.poolOff * 16 / 4096 ≤ p) && decide (p * 4096 < e.poolOff * 16 + e.keyLen)

/-- A page of the pool is rewritten in the vault image, with the bytes of the entries' regions alone and a new tag, whose
value depends on a key that the spec does not give (R153, R189, R190). Log entry 160 (DESIGN CHOICE). -/
def poolPageWrite (s : State) (p : Nat) : State :=
  let n := sget s.vlt.pageWr p 0 + 1
  let img := sclear s.vlt.poolImg (p * 4096) ((p + 1) * 4096) (fun _ => true)
  let held := (srange s.gate.pool (p * 4096) ((p + 1) * 4096)).filter fun e => poolTaken s e.1 (e.1 + 1)
  let a := fresh s
  let b := fresh a.2
  let s1 := { b.2 with vlt := { b.2.vlt with
    poolImg := held.foldl (fun m e => sset m e.1 e.2) img
    tags := sset b.2.vlt.tags p (a.1 ++ b.1), pageWr := sset b.2.vlt.pageWr p n } }
  rowsWrite (wearTo s1 0 n) 4 1

/-- What a CAT command has changed is written to the vault image (R154, R190). -/
def catPersist (s : State) (op i : Nat) : State :=
  let e := catOf s i
  let s1 := rowsWrite { s with vlt := { s.vlt with catImg := sset s.vlt.catImg i e } } 3 2
  let s2 := if op = 1 ∨ op = 4 then (poolPages e).foldl poolPageWrite s1 else s1
  if op = 4 then rowsWrite { s2 with vlt := { s2.vlt with marks := sdel s2.vlt.marks i, markWr := sdel s2.vlt.markWr i } } 1 1
  else if op = 1 then markStore s2 i
  else s2

/-- The command in progress is durable and, for REVOKE, its scan has ended (R154, R170, R207). -/
def catDurable (s : State) : State :=
  match s.gate.catBusy with
  | none => s
  | some (op, i) =>
    if vMay s 5 0 = false ∨ (op = 4 ∧ s.gate.catScan = false) then s
    else
      let s1 := catPersist (vGone s 5 0) op i
      catEnd { s1 with gate := { s1.gate with catBusy := none } } 0

/-! Sieve commands (R177, R185). -/

/-- `SIEVE_CMD` (R177, R185, R586). Log entry 20 (DEDUCED). -/
def sieveCmd (v : Word) (s : State) : State :=
  let i := fld v 23 16
  let fin (t : State) (st : Nat) : State := raiseIrq (setR t IMG_SIEVE_RESULT (w32 (0x80000000 + st * 0x10000000))) IMG 7
  match fld v 1 0 with
  | 1 =>
    let ws := (List.range 18).map fun w => getR s (IMG_SIEVE_STAGE w)
    let w1 := lget ws 1 0
    if fld w1 24 16 < fld w1 8 0 then fin s 2
    else fin { s with gate := { s.gate with sieve := sset s.gate.sieve i ws } } 0
  | 2 =>
    let ws := sget s.gate.sieve i (List.replicate 18 0)
    fin (((List.range 18).zip ws).foldl (fun t p => setR t (IMG_SIEVE_STAGE p.1) p.2) s) 0
  | _ => fin s 2

/-! The key-pool window (R153). -/

/-- Whether a pool byte reads as 0 to every master: it belongs to an HMAC-SHA-256 key. -/
def poolHidden (s : State) (k : Nat) : Bool :=
  s.gate.cat.any fun e => decide (e.2.state ≠ 0) && decide (e.2.alg = 1) && decide (e.2.poolOff * 16 ≤ k) &&
    decide (k < e.2.poolOff * 16 + e.2.keyLen)

/-- The pool address of window word `w`. -/
def poolWin (s : State) (w : Nat) : Nat := getF s IMG_KEY_WIN_SEL 3 0 * 0x10000 + 4 * w

/-- A read of window word `w`. -/
def poolRead (s : State) (w : Nat) : Word :=
  w32 (leNat ((List.range 4).map fun j => if poolHidden s (poolWin s w + j) then 0 else poolByte s (poolWin s w + j)))

/-- A write of window word `w` (R153). -/
def poolWrite (m : Master) (w : Nat) (v : Word) (s : State) : State :=
  let a := poolWin s w
  let bad := (List.range 4).any fun j =>
    poolTaken s (a + j) (a + j + 1) && decide (poolByte s (a + j) ≠ b8 (v.toNat / 2 ^ (8 * j)))
  if bad then recErr s IMG errLocked m (IMG + 0x30000 + 4 * w) true
  else
    let new := (List.range 4).foldl (fun p j => ssetD 0 p (a + j) (b8 (v.toNat / 2 ^ (8 * j)))) s.gate.pool
    { s with gate := { s.gate with pool := new } }

/-! The verdict ring's size (R168, R548). -/

/-- A write of `VR_SIZE` restarts the ring; the first that enables it reports the unconfirmed items (R168, R548). -/
def vrSize (v : Word) (s : State) : State :=
  let s1 := setR (setR s IMG_VR_SIZE (w32 (v.toNat % 0x20000))) IMG_VR_HEAD 0
  let s2 := { s1 with gate := { s1.gate with vrWrapped := false } }
  if vrSizeOk (v.toNat % 0x20000) then
    s2.gate.unconf.foldl (fun t e => vrPut t e.1 e.2.1 e.2.2.1 e.2.2.2 ocUnconfirmed 3)
      { s2 with gate := { s2.gate with unconf := [] } }
  else s2

/-! The supply warning (R173, R196, R545). -/

/-- The marks of the supply warning: every key whose `LAST_SEQ` exceeds its durable mark (R196). -/
def supplyMarks (s : State) : State :=
  (s.gate.cat.filter fun e => decide (e.2.state ≠ 0) && decide ((markOf s e.1).toNat < e.2.lastSeq.toNat)).foldl
    (fun t e => markSupply t e.1 e.2.lastSeq) s

/-- The Gate's part at a warning: steps 1 and 2 of R173, and the service requests that wait (R179).
Log entry 108 (DEDUCED). -/
def gateSupply (s : State) : State :=
  let s1 := raiseIrq (putB s IMG_GATE_STATUS 30 true) IMG 8
  let s2 := { s1 with gate := { s1.gate with
    warnAt := tense s1, warnPend := s1.gate.pend.length, warnRefused := 0, warnWritten := false } }
  let s3 := pendEndAll s2 (fun e => decide (e.phase = .waiting)) ocSupply
  let s4 := (s3.gate.svc.filter fun r => decide (r.lane = none)).foldl (fun t r => svcFinish t r 6) s3
  supplyMarks s4

/-- Writes the warning's SUPPLY record (R199, R545 step 7). -/
def supplyRecord (s : State) : State :=
  if s.gate.warnWritten then s
  else
    let s1 := jRecord s 6 (jMs s + 1) s.gate.warnPend s.gate.warnRefused
    { s1 with gate := { s1.gate with warnWritten := true } }

/-- 500 microseconds after the warning, unfinished verifications are abandoned and the warning's record is written
(R173 steps 4 and 5). -/
def supplyAbandon (s : State) : State :=
  if supplyHeld s = false ∨ s.gate.warnWritten = true then s
  else
    let s1 := advanceNs s (s.gate.warnAt.toNat + 500000)
    supplyRecord (pendEndAll s1 (fun e => match e.phase with | .onUnit _ => true | _ => false) ocSupply)

/-- The warning clears: the record still due, the recovery record, and admission resumes (R173 step 7, R545 step 8b). -/
def gateSupplyClear (s : State) : State :=
  if supplyHeld s = false then s
  else
    let s1 := supplyRecord s
    let s2 := jRecord s1 6 (jMs s1) s1.gate.pend.length s1.gate.warnRefused
    raiseIrq (putB s2 IMG_GATE_STATUS 30 false) IMG 8

/-! The commands. -/

/-- The frame at the Gate input is checked and admitted (R156). -/
def execGateAdmission (f : ReadFault) (s : State) : Res := .next (gateAdmit f s)

/-- A unit takes an entry (R158). -/
def execUnitTakesEntry (c : UnitClass) (s : State) : Res := .next (unitTake c s)

/-- A unit gives its result (R158). -/
def execSignatureResult (tag : Word) (ok : Bool) (s : State) : Res := .next (sigResult tag.toNat ok s)

/-- The verdict stage handles an entry (R159). -/
def execVerdict (tag : Word) (s : State) : Res := .next (verdictOf tag.toNat s)

/-- A replay mark is durable (R195, R196). -/
def execReplayMarkDurable (key : Fin 4096) (s : State) : Res := .next (markDurable s key.val)

/-- A RELEASE record is durable, and INNER is emitted (R200). -/
def execReleaseRecordDurable (tag : Word) (s : State) : Res := .next (releaseDurable tag.toNat s)

/-- CAT INSTALL (R154). -/
def execCatInstall (m : Master) (v : Word) (s : State) : Res := .next (gatedWrite m IMG_CAT_CMD (catCmd (setFld v 2 0 1)) s)

/-- CAT ENABLE (R154). -/
def execCatEnable (m : Master) (v : Word) (s : State) : Res := .next (gatedWrite m IMG_CAT_CMD (catCmd (setFld v 2 0 2)) s)

/-- CAT DISABLE (R154). -/
def execCatDisable (m : Master) (v : Word) (s : State) : Res := .next (gatedWrite m IMG_CAT_CMD (catCmd (setFld v 2 0 3)) s)

/-- CAT REVOKE (R154, R170). -/
def execCatRevoke (m : Master) (v : Word) (s : State) : Res := .next (gatedWrite m IMG_CAT_CMD (catCmd (setFld v 2 0 4)) s)

/-- CAT READ (R154). -/
def execCatRead (m : Master) (v : Word) (s : State) : Res := .next (gatedWrite m IMG_CAT_CMD (catCmd (setFld v 2 0 5)) s)

/-- The CAT command in progress is durable (R154). -/
def execCatCommandDurable (s : State) : Res := .next (catDurable s)

/-- SIEVE WRITE (R177). -/
def execSieveWrite (m : Master) (v : Word) (s : State) : Res := .next (gatedWrite m IMG_SIEVE_CMD (sieveCmd (setFld v 1 0 1)) s)

/-- SIEVE READ (R177). -/
def execSieveRead (m : Master) (v : Word) (s : State) : Res := .next (gatedWrite m IMG_SIEVE_CMD (sieveCmd (setFld v 1 0 2)) s)

/-- A word of the key-pool window is written (R153). -/
def execKeyPoolWrite (m : Master) (w : Fin 16384) (v : Word) (s : State) : Res :=
  .next (gatedWrite m (IMG + 0x30000 + 4 * w.val) (poolWrite m w.val v) s)

/-- `VR_SIZE` is written (R168). -/
def execVrSizeWrite (m : Master) (v : Word) (s : State) : Res := .next (gatedWrite m IMG_VR_SIZE (vrSize v) s)

/-- `VR_OVERRUN` reads and clears (R184). -/
def execVrOverrunRead (m : Master) (s : State) : Res :=
  .next (gatedRead m IMG_VR_OVERRUN (fun t => (setR t IMG_VR_OVERRUN 0, getR t IMG_VR_OVERRUN)) s)

/-- `GATE_CTRL` is written: its bits are set, and only a reset clears them (R184). -/
def execGateCtrlWrite (m : Master) (v : Word) (s : State) : Res :=
  .next (gatedWrite m IMG_GATE_CTRL (fun t => setR t IMG_GATE_CTRL (getR t IMG_GATE_CTRL ||| (v &&& 3))) s)

/-- An engine posts a service request (R178). -/
def execSvcPost (n : Pe) (addr : Word) (s : State) : Res := .next (svcPost n.val addr.toNat s)

/-- A lane completes its service request (R178). -/
def execServiceRequestEnd (lane : Fin 32) (s : State) : Res := .next (svcDone lane.val s)

/-- Unfinished verifications are abandoned (R173). -/
def execSupplyVerifyAbandon (s : State) : Res := .next (supplyAbandon s)

end Sys2Proof.Machine
end

