-- ==== Sys2Proof/Machine/Power.lean ====
section
/-! DEFINITION. Device states (17): requests, quiescence and wake sources (R513–R518, R522). Entry to a state and the
wake from it stand in `Sleep.lean`. -/

namespace Sys2Proof.Machine

open Reg

/-- `PWR.STATUS.CURRENT`: 0 ACTIVE, 1 DOZE, 2 RETAIN, 3 VAULT. -/
def devState (s : State) : Nat := getF s PWR_STATUS 1 0

/-- Whether an entry or a wake is in progress. -/
def pwrBusy (s : State) : Bool := getB s PWR_STATUS 23

/-- Whether an entry is in progress, so that quiescence holds (R517). -/
def quiescing (s : State) : Bool := pwrBusy s && !s.pwr.waking

/-- Whether cores, engines, ports and rings run: the device is ACTIVE (R513, R519). -/
def awake (s : State) : Bool := decide (devState s = 0)

/-- Whether the device accepts from its lines and rings (R517). -/
def accepting (s : State) : Bool := awake s && !(quiescing s)

/-- The wake sources enabled for a device state (R522). -/
def wakeEnabled (s : State) (t : Nat) : Nat :=
  if t = 1 then getF s PWR_WAKE_EN_DOZE 13 0 else getF s PWR_WAKE_EN_DEEP 9 0

/-- Those of the sources `src` that can assert: a pin or a pin class whose edge setting is none does not (R522, R537).
Log entry 106 (DEDUCED). -/
def wakeSeen (s : State) (src : Nat) : Nat :=
  Nat.land src ((List.range 8).foldl (fun a i => a + nb (decide (getF s PWR_WAKE_PIN_CFG (2 * i + 1) (2 * i) ≠ 0)) * 2 ^ i)
    (0x3B00 + nb (decide (getF s PWR_PIO_WAKE_CFG 31 0 ≠ 0)) * 0x400))

/-- Those of the asserted sources `src` that are enabled for device state `t` (R522). -/
def wakeHits (s : State) (src t : Nat) : Nat := Nat.land (wakeSeen s src) (wakeEnabled s t)

/-- Whether a supply warning is asserted. -/
def warned (s : State) : Bool := decide (getF s PWR_SUPPLY_STATUS 1 0 ≠ 0)

/-- Whether an item is open: an imperative, a mailbox message, a job or a vault write (R516, R542). A host DMA item opens
and ends within one command. -/
def itemsOpen (s : State) : Bool :=
  !(s.gate.pend.isEmpty && s.gate.rel.isEmpty) || s.vlt.cntBusy.isSome ||
  ((List.range 64).any fun m => decide (getF s (MBX_STATUS m) 31 30 = 2)) ||
  s.eng.any fun e => !(e.2.jobs.isEmpty && e.2.taken.isEmpty)

/-- Whether a Period Link controller is in RUN (R297). -/
def plkInRun (s : State) : Bool := (List.range 16).any fun n => decide (getF s (PLK_STATUS n) 1 0 = 2)

/-- The first condition of R516 that declines a request for state `t`, whose cycle shows the wake sources `now`. -/
def declineOf (s : State) (t now : Nat) : Option Nat :=
  if warned s then some 1
  else if wakeEnabled s t = 0 then some 2
  else if wakeHits s now t ≠ 0 then some 3
  else if plkInRun s then some 4
  else if t = 2 ∧ (getF s PWR_RETAIN_TMAX 7 0 : Int) * 16 ≤ ((getR s TMP_MAX).setWidth 16).toInt then some 5
  else if t = 3 ∧ itemsOpen s = true then some 6
  else none

/-- A request ends with a result: interrupt bit 0 for OK, bit 1 otherwise (R518). -/
def pwrResult (s : State) (r : Nat) : State := raiseIrq (putF s PWR_STATUS 30 27 r) PWR (if r = 0 then 0 else 1)

/-- A wake begins (R514). -/
def wakeBegin (s : State) (src : Nat) : State :=
  let s1 := putF (putB s PWR_STATUS 23 true) PWR_STATUS 22 21 0
  let deep := decide (2 ≤ devState s)
  { s1 with
    pwr := { s1.pwr with waking := true, src := src, at_ := s1.time.tense }
    sys := { s1.sys with pmicEn := s1.sys.pmicEn || deep, pmicSramEn := s1.sys.pmicSramEn || deep } }

/-- A request starts (R515, R516). -/
def pwrBegin (t now : Nat) (s : State) : State :=
  if t = devState s then pwrResult (putB s PWR_STATUS 31 false) 0
  else if t = 0 then wakeBegin s 0
  else if awake s = false then s
  else match declineOf s t now with
    | some r => pwrResult (putB s PWR_STATUS 31 (decide (r = 3))) r
    | none =>
      let s1 := putB (putF (putB (putB s PWR_STATUS 31 false) PWR_STATUS 23 true) PWR_STATUS 22 21 t) PWR_STATUS 20 false
      { s1 with pwr := { s1.pwr with waking := false, src := 0, at_ := s1.time.tense } }

/-- A write of `STATE_REQ`: it starts, or waits in the one place, replacing what waits there (R515).
Log entry 106 (DEDUCED). -/
def pwrReq (t now : Nat) (s : State) : State :=
  if pwrBusy s then putF (putB s PWR_STATUS 26 true) PWR_STATUS 25 24 t else pwrBegin t now s

/-- The request in progress has ended: the queued one starts (R515). Log entry 106 (DEDUCED). -/
def pwrNext (s : State) : State :=
  let s1 := putF (putB (putB s PWR_STATUS 23 false) PWR_STATUS 20 false) PWR_STATUS 22 21 0
  if getB s1 PWR_STATUS 26 then
    let t := getF s1 PWR_STATUS 25 24
    pwrBegin t 0 (putF (putB s1 PWR_STATUS 26 false) PWR_STATUS 25 24 0)
  else s1

/-- An entry before its point of no return is abandoned with a result (R514, R517, R518). -/
def pwrAbandon (s : State) (r : Nat) : State := if quiescing s then pwrNext (pwrResult s r) else s

/-- `QUIESCE_US` elapse: the clock advances to that moment and the entry is abandoned (R517). -/
def quiesceTimeout (s : State) : State :=
  if quiescing s then
    pwrAbandon (advanceNs s (s.pwr.at_.toNat + max 1 (getF s PWR_QUIESCE_US 15 0) * 1000)) 7
  else s

/-- Wake sources assert (R514, R518, R522). Log entry 106 (DEDUCED). -/
def wakeMask (src : Nat) (s : State) : State :=
  if quiescing s then
    if wakeHits s src (getF s PWR_STATUS 22 21) = 0 then s else pwrAbandon s 8
  else if pwrBusy s = true ∨ awake s = true then s
  else if wakeHits s src (devState s) = 0 then s
  else wakeBegin s (wakeHits s src (devState s))

/-- Wake source `i` asserts. -/
def wakeSource (i : Nat) (s : State) : State := wakeMask (2 ^ i) s

/-! Block power (R46–R49). -/

/-- Blocks with a power domain of their own (R47, R525): the Gate, the Tense unit and the host interface.
Log entry 23 (DEDUCED). -/
def blkHasDomain (b : Blk) : Bool := decide (b = .IMG) || decide (b = .TNS) || decide (b = .HIF)

/-- `BLK_CTRL.PWR` of the page is requested: where it differs from the actual state, a change is in progress (R46, R47). -/
def blkPowerReq (base p : Nat) (s : State) : State :=
  match pageOf base with
  | none => s
  | some pg =>
    if blkHasDomain pg.blk = false ∨ 3 ≤ p then s
    else
      let s1 := putF s (BLK_CTRL base) 3 2 p
      let ch := decide (getF s1 (BLK_STATUS base) 3 2 ≠ p)
      putB (putB s1 (BLK_STATUS base) 4 ch) (BLK_STATUS base) 1 ch

/-! The commands. -/

/-- A request for ACTIVE (R515). -/
def execStateReqActive (m : Master) (s : State) : Res := .next (gatedWrite m PWR_STATE_REQ (pwrReq 0 0) s)

/-- A request for DOZE (R515, R516). -/
def execStateReqDoze (m : Master) (now : BitVec 14) (s : State) : Res :=
  .next (gatedWrite m PWR_STATE_REQ (pwrReq 1 now.toNat) s)

/-- A request for RETAIN (R515, R516). -/
def execStateReqRetain (m : Master) (now : BitVec 14) (s : State) : Res :=
  .next (gatedWrite m PWR_STATE_REQ (pwrReq 2 now.toNat) s)

/-- A request for VAULT (R515, R516). -/
def execStateReqVault (m : Master) (now : BitVec 14) (s : State) : Res :=
  .next (gatedWrite m PWR_STATE_REQ (pwrReq 3 now.toNat) s)

/-- Quiescence takes too long (R517). -/
def execQuiesceTimeout (s : State) : Res := .next (quiesceTimeout s)

/-- Wake sources assert (R522). -/
def execWakeSource (src : BitVec 14) (s : State) : Res := .next (wakeMask src.toNat s)

end Sys2Proof.Machine
end

