-- ==== Sys2Proof/Machine/Egress.lean ====
section
/-! DEFINITION. Egress of the switch core (04): source arbiter, class scheduler, withdrawal and purge lists, ageing, the
internal sinks and the sample ring. What a MAC does with a selected frame stands in `Mac.lean`. -/

namespace Sys2Proof.Machine

open Reg


/-! The source arbiter (R128). -/

/-- The arbiter of a port and class after reset. -/
def ArbSt.init : ArbSt :=
  { top := 0, deficit := List.replicate 14 0, fresh := List.replicate 14 true
    rr := (List.range 14).map fun g => 16 * g + 15 }

/-- The arbiter of port `p`, class `c`. -/
def arbOf (s : State) (p c : Nat) : ArbSt := sget s.sw.arb (8 * p + c) ArbSt.init

/-- The head frame of ingress port `src` in the queue of port `p`, class `c`. -/
def srcHead (s : State) (p c src : Nat) : Option (Nat × Frame) :=
  s.sw.queue.findSome? fun e =>
    if e.port = p ∧ e.cls = c then
      match sfind s.sw.frames e.fid with
      | some d => if d.src = src then some (e.fid, frameRead s d) else none
      | none => none
    else none

/-- The active requesters of group `g`: ingress ports with a frame waiting, and the stored bytes of its head. -/
def activeIn (s : State) (p c g : Nat) : List (Nat × Nat) :=
  (List.range 16).filterMap fun i => (srcHead s p c (16 * g + i)).map fun x => (16 * g + i, x.2.bytes.length)

/-- The active requesters of every group, group 0 first. -/
def activeAll (s : State) (p c : Nat) : List (List (Nat × Nat)) := (List.range 14).map (activeIn s p c)

/-- The next active requester after `r`, counting upward and wrapping within the group. -/
def nextActive (l : List (Nat × Nat)) (r : Nat) : Option (Nat × Nat) :=
  match l.find? fun e => decide (r < e.1) with
  | some e => some e
  | none => l.head?

/-- `ARB_QUANTUM` in operation. -/
def arbQuantum (s : State) : Nat := max 64 (getF s SWC_ARB_QUANTUM 13 0)

/-- Ends the turn of the group at `top`. -/
def ArbSt.pass (a : ArbSt) (clear : Bool) : ArbSt :=
  { a with
    deficit := if clear then lmod a.deficit a.top (fun _ => 0) else a.deficit
    fresh := lmod a.fresh a.top (fun _ => true)
    top := (a.top + 1) % 14 }

/-- The arbiter's choice (R128): the ingress port, and the arbiter after it. -/
def arbPick (q : Nat) (act : List (List (Nat × Nat))) (a : ArbSt) (fuel : Nat) : Option (Nat × ArbSt) :=
  match fuel with
  | 0 => none
  | fuel + 1 =>
    let l := lget act a.top []
    if l.isEmpty then
      arbPick q act (a.pass true) fuel
    else
      let d := lget a.deficit a.top 0 + (if lget a.fresh a.top true then l.length * q else 0)
      let a1 := { a with deficit := lmod a.deficit a.top (fun _ => d), fresh := lmod a.fresh a.top (fun _ => false) }
      match nextActive l (lget a.rr a.top 0) with
      | some (r, n) =>
        if n ≤ d then
          some (r, { a1 with deficit := lmod a1.deficit a.top (fun _ => d - n), rr := lmod a1.rr a.top (fun _ => r) })
        else
          arbPick q act (a1.pass false) fuel
      | none => none

/-- A choice of the arbiter of a class: the frame's number, the frame, and the arbiter after the choice. -/
structure Choice where
  cls : Nat
  fid : Nat
  frame : Frame
  arb : ArbSt
  deriving DecidableEq, Repr

/-- The frame that port `p` would send in class `c`. -/
def classHead (s : State) (p c : Nat) : Option Choice :=
  let act := activeAll s p c
  if act.all List.isEmpty then none
  else match arbPick (arbQuantum s) act (arbOf s p c) 4096 with
    | none => none
    | some (src, a) => (srcHead s p c src).map fun x => { cls := c, fid := x.1, frame := x.2, arb := a }

/-! The class scheduler (R127). -/

/-- The scheduler of a port after reset. -/
def SchedSt.init : SchedSt := { turn := 0, started := false, deficit := List.replicate 8 0 }

/-- The scheduler of port `p`. -/
def schedOf (s : State) (p : Nat) : SchedSt := sget s.sw.sched p SchedSt.init

/-- `WEIGHT` of class `c` at port `p`. -/
def weightOf (s : State) (p c : Nat) : Nat :=
  if c < 4 then fld (portW s p 5) (8 * c + 7) (8 * c) else fld (portW s p 6) (8 * (c - 4) + 7) (8 * (c - 4))

/-- Whether class `c` is strict at port `p`. -/
def strictOf (s : State) (p c : Nat) : Bool := (fld (portW s p 4) 7 0).testBit c

/-- The turn passes; `clear` clears the deficit of the class whose turn ends. -/
def SchedSt.pass (d : SchedSt) (clear : Bool) : SchedSt :=
  { turn := (d.turn + 1) % 8, started := false
    deficit := if clear then lmod d.deficit d.turn (fun _ => 0) else d.deficit }

/-- Deficit round robin among the eligible heads `hs`; `w c` is the weight of a class that takes turns, 0 for one that
takes none. -/
def drrPick (w : Nat → Nat) (hs : List Choice) (d : SchedSt) (fuel : Nat) : Option (Choice × SchedSt) :=
  match fuel with
  | 0 => none
  | fuel + 1 =>
    if w d.turn = 0 then drrPick w hs { d with turn := (d.turn + 1) % 8, started := false } fuel
    else match hs.find? fun h => decide (h.cls = d.turn) with
      | none => drrPick w hs (d.pass true) fuel
      | some h =>
        let have_ := lget d.deficit d.turn 0 + (if d.started then 0 else 256 * w d.turn)
        let n := h.frame.bytes.length
        if n ≤ have_ then some (h, { d with started := true, deficit := lmod d.deficit d.turn (fun _ => have_ - n) })
        else drrPick w hs (SchedSt.pass { d with deficit := lmod d.deficit d.turn (fun _ => have_) } false) fuel

/-- The eligible head of the highest class. -/
def topHead (hs : List Choice) : Option Choice :=
  hs.foldl (fun o h => match o with
    | some x => if x.cls < h.cls then some h else o
    | none => some h) none

/-- The class scheduler's choice among the eligible heads (R127). Log entry 177 (DESIGN CHOICE). -/
def schedPick (s : State) (p : Nat) (hs : List Choice) : Option (Choice × SchedSt) :=
  let d := schedOf s p
  match topHead (hs.filter fun h => strictOf s p h.cls) with
  | some h => some (h, d)
  | none =>
    let w (c : Nat) : Nat := if strictOf s p c then 0 else weightOf s p c
    if hs.any fun h => decide (0 < w h.cls) then drrPick w hs d 4096
    else (topHead hs).map fun h => (h, { d with started := false, deficit := List.replicate 8 0 })

/-! Selection (R123). -/

/-- One copy leaves its queue. -/
def dequeue (s : State) (p c fid : Nat) : State :=
  { s with sw := { s.sw with queue := s.sw.queue.erase ⟨p, c, fid⟩ } }

/-- The outcome of a withdrawal for a frame: the code of the entry posted first that matches it (R117). -/
def withdrawCode (s : State) (f : Frame) : Option Nat :=
  if f.src = 209 ∧ f.verdict = 1 then
    s.sw.withdraw.findSome? fun w =>
      match w with
      | .key k => if f.keyId = k then some ocRevoked else none
      | .lockdown => some ocLockdown
  else none

/-- A class that runs out of eligible frames during its turn has its deficit cleared and passes the turn at once (R127): its
last copy has left the queue, or its gate has closed. Log entry 61 (DEDUCED). -/
def schedSettle (s : State) (p : Nat) : State :=
  let d := schedOf s p
  if d.started && !((s.sw.queue.any fun e => decide (e.port = p) && decide (e.cls = d.turn)) && gateOpen s p d.turn) then
    { s with sw := { s.sw with sched := sset s.sw.sched p (d.pass true) } }
  else s

/-- One copy leaves its queue otherwise than by being sent. -/
def queueDrop (s : State) (p c fid : Nat) : State := schedSettle (dequeue s p c fid) p

/-- A queued copy is withdrawn from port `p` (R117). -/
def withdrawCopy (s : State) (p c fid : Nat) (f : Frame) (code : Nat) : State :=
  let s1 := raiseIrq (bump (queueDrop s p c fid) (SWC_WITHDRAWN p)) SWC 10
  releasedEnd (unref s1 fid) f.itemTag code

/-- Whether the purge list discards a frame (R115, R116). -/
def purged (s : State) (f : Frame) : Bool :=
  s.sw.purge.any fun e => decide (f.handle = e.1) && (f.epoch - e.2).msb

/-- A queued copy is discarded with PURGED. -/
def purgeCopy (s : State) (p c fid : Nat) : State := unref (dropStored (queueDrop s p c fid) fid p dropPurged p c) fid

/-- Whether a copy of class `c` has aged out (R129). -/
def aged (s : State) (c : Nat) (f : Frame) : Bool :=
  let lim := min 65000 (getF s (SWC_AGE_LIMIT c) 15 0)
  decide (lim ≠ 0) && decide (lim * 1000 < (w32 (tenseNs s / 1000) - f.enqUs).toNat)

/-- A queued copy ages out; a Gate-emitted one ends its item AGED (R129, R166). -/
def ageCopy (s : State) (p c fid : Nat) (f : Frame) : State :=
  let s1 := unref (dropStored (queueDrop s p c fid) fid p dropAged p c) fid
  if f.verdict = 1 then releasedEnd s1 f.itemTag ocAged else s1

/-- Steps 4 and 5 of R123 for a copy: `none` where it goes on. -/
def listsAndAge (s : State) (p c fid : Nat) (f : Frame) : Option State :=
  match withdrawCode s f with
  | some code => some (withdrawCopy s p c fid f code)
  | none =>
    if purged s f then some (purgeCopy s p c fid)
    else if aged s c f then some (ageCopy s p c fid f)
    else none

/-- Removes the outer tag, if any. -/
def untag (b : List Byte) : List Byte := if tagBytes b = 0 then b else b.take 12 ++ b.drop 16

/-- Removes an HSR tag. -/
def hsrStrip (b : List Byte) : List Byte := b.take (12 + tagBytes b) ++ b.drop (18 + tagBytes b)

/-- Whether a pair runs HSR: mode 2 of its A port's `RED_CTRL`. -/
def pairHsr (s : State) (k : Nat) : Option Bool := (pairPorts s k).map fun x => decide (getF s (MAC_RED_CTRL x.1) 29 28 = 2)

/-- Bytes `b` of a frame without the tag or trailer of the pair it arrived on (R233). -/
def pairStrip (s : State) (f : Frame) (b : List Byte) : List Byte :=
  match f.fromPair with
  | none => b
  | some k =>
    let m := pairHsr s k
    if f.flags.testBit 2 && decide (m ≠ some false) then hsrStrip b
    else if f.flags.testBit 3 && decide (m ≠ some true) then b.take (b.length - 6)
    else b

/-- The bytes that a frame delivers at an internal egress port (R233): supervision frames keep their tag at port 210.
Log entry 63 (DEDUCED). -/
def delivered (s : State) (p : Nat) (f : Frame) : List Byte :=
  if p = 210 ∧ (parseFrame s f.src f.bytes).etype = 0x88FB then f.bytes else pairStrip s f f.bytes

/-- The descriptor of a frame as its head cell holds it (R97). Log entry 63 (DEDUCED). -/
def headBytes (s : State) (f : Frame) : List Byte := rdBytes s (cellAddr f.head) 32

/-- Bytes that the spec leaves open. -/
def openBytes (s : State) (n : Nat) : State × List Byte :=
  ({ s with free := s.free + n }, (List.range n).map fun i => (Config.freeValue (s.free + i)).setWidth 8)

/-- What an exit finds in a frame it reads: the drop reason, if it may not leave (R21, R130). -/
def exitFault (f : Frame) (rf : ReadFault) : Option Nat :=
  if rf = .poison ∨ f.poison = true then some dropPoison
  else if rf = .corrupt ∨ crc32c f.bytes ≠ f.check then some dropE2E
  else none

/-- A copy that has left its queue is dropped at the exit of port `p`; a released imperative ends with the reason (R166). -/
def exitDrop (s : State) (p c fid : Nat) (f : Frame) (r : Nat) : State :=
  let s1 := unref (dropStored s fid p r p c) fid
  if f.verdict = 1 then itemEndExit s1 f.itemTag (if r = dropPoison then ocPoison else ocE2E) else s1

/-- The sample sink writes a slot (R131). Log entry 55 (DESIGN CHOICE). -/
def sampleWrite (s : State) (f : Frame) : State :=
  let sz := getF s SWC_SMP_SIZE 16 0
  let hd := getF s SWC_SMP_HEAD 15 0
  if sz = 0 then s
  else if ringFull sz hd (getF s SWC_SMP_TAIL 15 0) then raiseIrq (satInc s SWC_SMP_LOST) SWC 3
  else
    let n := min f.bytes.length (max 64 (min 512 (fld (portW s f.src 3) 25 16)))
    let pad := openBytes s (512 - n)
    let rec_ := swRecord f 211 0 f.tc n ++ f.bytes.take n ++ pad.2
    let w := fabWrite pad.1 5 ((getR s SWC_SMP_BASE).toNat + 1024 * hd) rec_ false
    swRingLevels (putF w.1 SWC_SMP_HEAD 15 0 ((hd + 1) % sz))

/-- What the check at step 6 of R123 finds as a copy moves into a sink's input: the sample sink meets uncorrectable errors
alone, and an engine's DMA checks what it receives itself (R21, R131, R356). Log entry 62 (DEDUCED). -/
def sinkFault (p : Nat) (f : Frame) (rf : ReadFault) : Option Nat :=
  if p < 208 then none
  else if p = 211 then (if rf = .poison ∨ f.poison = true then some dropPoison else none)
  else exitFault f rf

/-- A copy moves into the input of an internal sink (R118, R123): the Gate, the engines and the host take it from there; the
MGP's queue holds it (R92); the sample sink writes its slot. Log entry 62 (DEDUCED). -/
def sinkMove (s : State) (p fid : Nat) (f : Frame) (rf : ReadFault) : State :=
  if p = 211 then unref (sampleWrite s f) fid
  else if p = 210 then
    let b := delivered s p f
    unref (emit { s with sw := { s.sw with mgpRx := s.sw.mgpRx ++ [(f.src, b)] } } (.mgpFrame f.src b)) fid
  else { s with sw := { s.sw with sink := s.sw.sink ++ [⟨p, fid, rf⟩] } }

/-- Whether a host receive ring has a descriptor for class `c` (R455). -/
def hostRoom (s : State) (c : Nat) : Bool :=
  let r := fld (getR s HIF_RX_MAP) (4 * c + 3) (4 * c)
  getB s (HIF_RXR_CTRL r) 0 && decide (getF s (HIF_RXR_HEAD r) 11 0 ≠ getF s (HIF_RXR_TAIL r) 11 0)

/-- Whether egress port `p` serves its queues (R139). Log entry 61 (DEDUCED). -/
def egressOn (s : State) (p : Nat) : Bool := getB s (BLK_CTRL SWC) 0 && bit (portW s p 0) 1 && awake s

/-- A frame has been chosen for good: arbiter and scheduler take their new state; a class left without a frame gives up
its turn (R127, R128). Log entry 61 (DEDUCED). -/
def chosen (s : State) (p : Nat) (h : Choice) (d : SchedSt) : State :=
  let s1 := dequeue s p h.cls h.fid
  let out := !(s1.sw.queue.any fun e => decide (e.port = p) && decide (e.cls = h.cls))
  let d1 := if out && d.started && decide (d.turn = h.cls) then d.pass true else d
  { s1 with sw := { s1.sw with arb := sset s1.sw.arb (8 * p + h.cls) h.arb, sched := sset s1.sw.sched p d1 } }

/-- Steps 1 to 5 of R123 at port `p`: the choice among the classes that `ok` admits; frames that the lists or ageing
remove cost the arbiter nothing, and selection repeats. Log entry 61 (DEDUCED). -/
def selectAt (s : State) (p : Nat) (ok : State → Choice → Bool) (fuel : Nat) : State × Option (Choice × SchedSt) :=
  match fuel with
  | 0 => (s, none)
  | fuel + 1 =>
    let hs := ((List.range 8).filterMap (classHead s p)).filter fun h => gateOpen s p h.cls && ok s h
    match schedPick s p hs with
    | none => (s, none)
    | some (h, d) =>
      match listsAndAge s p h.cls h.fid h.frame with
      | some t => selectAt t p ok fuel
      | none => (s, some (h, d))

/-- Selection at an internal port: a copy that the check drops costs the arbiter nothing, and selection repeats; `rf` is what
the first read meets. -/
def sinkTry (p : Nat) (rf : ReadFault) (s : State) (fuel : Nat) : State :=
  match fuel with
  | 0 => s
  | fuel + 1 =>
    let r := selectAt s p (fun t h => decide (p ≠ 208) || hostRoom t h.cls) (s.sw.queue.length + 1)
    match r.2 with
    | none => r.1
    | some (h, d) =>
      match sinkFault p h.frame rf with
      | some x => sinkTry p .clean (exitDrop (queueDrop r.1 p h.cls h.fid) p h.cls h.fid h.frame x) fuel
      | none => sinkMove (chosen r.1 p h d) p h.fid h.frame rf

/-- Egress selection at an internal port (R123). Log entry 62 (DEDUCED). -/
def sinkSelect (p : Nat) (rf : ReadFault) (s : State) : State :=
  if egressOn s p = false ∨ 212 ≤ p then s else sinkTry p rf s (s.sw.queue.length + 1)

/-! Ageing at whole milliseconds, and the scans (R116, R117, R129). -/

/-- The head frames of every queue: per ingress port of a queue, the oldest copy. -/
def headsOf (q : List QEnt) (s : State) (seen : List (Nat × Nat × Nat)) : List QEnt :=
  match q with
  | [] => []
  | e :: r =>
    match frameOf s e.fid with
    | none => headsOf r s seen
    | some f =>
      if seen.contains (e.port, e.cls, f.src) then headsOf r s seen
      else e :: headsOf r s ((e.port, e.cls, f.src) :: seen)

/-- A queued copy meets ageing. -/
def ageEnt (s : State) (e : QEnt) : State :=
  match frameOf s e.fid with
  | some f => if aged s e.cls f then ageCopy s e.port e.cls e.fid f else s
  | none => s

/-- The Tense counter reaches the next whole millisecond: the clock advances to it, and every queue's head is checked. -/
def ageHeads (s : State) : State :=
  let s1 := advanceNs s ((tenseNs s / 1000000 + 1) * 1000000)
  (headsOf s1.sw.queue s1 []).foldl ageEnt s1

/-- The scan for the oldest purge pair ends: every copy it names has gone, and the pair leaves the list (R116). -/
def purgeScan (s : State) : State :=
  match s.sw.purge with
  | [] => s
  | x :: r =>
    let hit (t : State) (e : QEnt) : Bool :=
      match frameOf t e.fid with
      | some f => decide (f.handle = x.1) && (f.epoch - x.2).msb
      | none => false
    let s1 := s.sw.queue.foldl (fun t e => if hit t e then purgeCopy t e.port e.cls e.fid else t) s
    { s1 with sw := { s1.sw with purge := r } }

/-- A posting that waits takes a free place of the withdrawal list (R117). -/
def withdrawTake (s : State) : State :=
  match s.sw.withdrawWait with
  | [] => s
  | w :: r =>
    if 16 ≤ s.sw.withdraw.length then s
    else { s with sw := { s.sw with withdraw := s.sw.withdraw ++ [w], withdrawWait := r } }

/-- The entry in operation at port `p` ends (R125, R127): the clock advances to that instant, and a class whose gate closes
in its turn passes it. -/
def gateInterval (s : State) (p : Nat) : State :=
  match sfind s.sw.goper p, gateAt s p (gateNow s p) with
  | some g, some (_, e) => schedSettle (advanceTb s g.tb e) p
  | _, _ => s

/-- The armed bank's first cycle starts (R126): the clock advances to it. -/
def gateSwap (s : State) (p : Nat) : State :=
  match sfind s.sw.gswap p with
  | none => s
  | some g =>
    let st := cycleStart g.base g.cycle (((tbOf s g.tb).v + fracOne - 1) / fracOne)
    let s1 := advanceTb s g.tb st
    let s2 := { s1 with sw := { s1.sw with
      gswap := sdel s1.sw.gswap p, goper := sset s1.sw.goper p { g with start := st } } }
    schedSettle (putB (putB s2 (SWC_GATE_CTRL p) 17 false) (SWC_GATE_CTRL p) 16 (!(getB s2 (SWC_GATE_CTRL p) 16))) p

/-- The scan for the oldest withdrawal entry ends: every frame it matches has gone, and the entry leaves the list (R117). -/
def withdrawScan (s : State) : State :=
  match s.sw.withdraw with
  | [] => s
  | _ :: r =>
    let one (t : State) (e : QEnt) : State :=
      match frameOf t e.fid with
      | some f =>
        match withdrawCode { t with sw := { t.sw with withdraw := s.sw.withdraw.take 1 } } f with
        | some code => withdrawCopy t e.port e.cls e.fid f code
        | none => t
      | none => t
    let s1 := s.sw.queue.foldl one s
    scansOver { s1 with sw := { s1.sw with withdraw := r } }

/-! The commands. -/

/-- A gate list entry's interval elapses (R125). -/
def execGateIntervalExpiry (p : Fin 224) (s : State) : Res := .next (gateInterval s p.val)

/-- The armed bank starts (R126). -/
def execGateBankSwap (p : Fin 224) (s : State) : Res := .next (gateSwap s p.val)

/-- The Tense counter reaches a whole millisecond (R129). -/
def execAgeingHeadCheck (s : State) : Res := .next (ageHeads s)

/-- The scan for the oldest purge pair ends (R116). -/
def execPurgeScanComplete (s : State) : Res := .next (purgeScan s)

/-- A posting that waits takes a free place (R117). -/
def execWithdrawalPost (s : State) : Res := .next (withdrawTake s)

/-- The scan for the oldest withdrawal entry ends (R117). -/
def execWithdrawalScanComplete (s : State) : Res := .next (withdrawScan s)

end Sys2Proof.Machine
end

