-- ==== Sys2Proof/Machine/Queues.lean ====
section
/-! DEFINITION. Packing FIFOs, alarm queues, locks and mailboxes (15). -/

namespace Sys2Proof.Machine

open Reg

/-! Packing FIFOs (R460–R464). -/

/-- Packing FIFO `f`. -/
def fiq (s : State) (f : Nat) : FiqSt := sget s.fiq f FiqSt.init

/-- Sets packing FIFO `f`. -/
def fiqSet (s : State) (f : Nat) (q : FiqSt) : State := { s with fiq := sset s.fiq f q }

/-- The words stored and reserved, an incomplete packet and an incomplete word included (R463).
Log entry 89 (DEDUCED). -/
def fiqStored (q : FiqSt) : Nat :=
  q.counted.length + nb q.isOpen + q.data.length + nb (!q.part.isEmpty)

/-- The tag of a data word: its valid bytes, and whether it ends a packet (R464). -/
def fiqTag (n : Nat) (eop : Bool) : Word := w32 (n + 256 * nb eop)

/-- The check value's register over words, padding included (R463). -/
def fiqCheck (c : Nat) (l : List (Word × Nat)) : Nat := l.foldl (fun c e => crc32cReg c (leBytes 4 e.1.toNat)) c

/-- What closes of packets counted: those by force, and those whose check value did not match. -/
structure FiqClosed where
  forced : Nat
  bad : Nat
  deriving DecidableEq, Repr

/-- Closes the open packet: the stored words are read back and compared with the check value made on entry; where they match,
the length word takes its reserved place ahead of the data, and every word counts, and otherwise the packet is discarded
(R462, R463). Log entry 145 (DEDUCED). -/
def fiqClose (q : FiqSt) (forced : Bool) : FiqSt × FiqClosed :=
  let n := q.data.foldl (fun a e => a + e.2) 0
  let len := w32 (nb forced * 0x1000000 + q.data.length * 65536 + n)
  let last := q.data.length - 1
  let ws := (q.data.zipIdx).map fun e => (e.1.1, fiqTag e.1.2 (decide (e.2 = last)))
  let ok := decide (fiqCheck 0xFFFFFFFF q.data = q.check)
  ({ q with counted := q.counted ++ (if ok then (len, 0x40000004#32) :: ws else []), isOpen := false, data := [], part := [] },
    ⟨nb forced, nb !ok⟩)

/-- One byte enters; `last` marks the byte that an `EOP` follows (R461, R462). -/
def fiqByte (packet : Bool) (q : FiqSt) (b : Byte) (last : Bool) : FiqSt × FiqClosed :=
  let p := q.part ++ [b]
  let full := decide (p.length = 4) || last
  if packet then
    let q1 := { q with isOpen := true, part := p, check := if q.isOpen then q.check else 0xFFFFFFFF }
    if full then
      let e := (w32 (leNat p), p.length)
      let q2 := { q1 with data := q1.data ++ [e], part := [], check := fiqCheck q1.check [e] }
      if last then fiqClose q2 false
      else if 255 ≤ q2.data.length then fiqClose q2 true
      else (q2, ⟨0, 0⟩)
    else (q1, ⟨0, 0⟩)
  else if full then
    let word := (w32 (leNat p), fiqTag p.length last)
    ({ q with counted := q.counted ++ [word], part := [] }, ⟨0, 0⟩)
  else ({ q with part := p }, ⟨0, 0⟩)

/-- Bytes enter in order. -/
def fiqBytes (packet : Bool) (q : FiqSt) (l : List Byte) (eop : Bool) : FiqSt × FiqClosed :=
  match l with
  | [] => (q, ⟨0, 0⟩)
  | b :: r =>
    let p := fiqByte packet q b (eop && r.isEmpty)
    let t := fiqBytes packet p.1 r eop
    (t.1, ⟨p.2.forced + t.2.forced, p.2.bad + t.2.bad⟩)

/-- `FIFO_CFG.PACKET`. -/
def fiqPacket (s : State) (f : Nat) : Bool := getB s (FIQ_FIFO_CFG f) 0

/-- Whether a write of `n` bytes fits: the words stored and reserved do not exceed 256 (R463).
Log entry 89 (DEDUCED). -/
def fiqFits (s : State) (f n : Nat) : Bool :=
  decide (fiqStored (fiqBytes (fiqPacket s f) (fiq s f) (List.replicate n 0) false).1 ≤ 256)

/-- `COUNT[8:0]`. -/
def fiqCount (s : State) (f : Nat) : Nat := (fiq s f).counted.length

/-- Whether the FIFO counts a word. -/
def fiqNonEmpty (s : State) (f : Nat) : Bool := decide (0 < fiqCount s f)

/-- A write of bytes by PUSH or delivery; `none` where it does not fit (R461–R463). A rise of `COUNT` raises the line of the
channel's slot (R358). Log entries 90 (DEDUCED), 145 (DEDUCED). -/
def fiqPush (s : State) (f : Nat) (l : List Byte) (eop : Bool) : Option State :=
  if fiqFits s f l.length then
    let q := fiq s f
    let r := fiqBytes (fiqPacket s f) q l eop
    let s1 := fiqSet s f r.1
    let s2 := if r.2.forced = 0 then s1 else raiseIrq (bumpN s1 (FIQ_FIFO_counters f + 4) r.2.forced) FIQ 1
    let s3 := if r.2.bad = 0 then s2 else raiseIrq (bumpN s2 (FIQ_FIFO_counters f) r.2.bad) FIQ 0
    some (if q.counted.length < r.1.counted.length then slotEvent s3 (384 + f) else s3)
  else none

/-- A read of `FIFO_DATA`: the oldest counted word, or the idle item (R464). Log entry 145 (DEDUCED). -/
def fiqPop (s : State) (f : Nat) : State × Word :=
  let q := fiq s f
  match q.counted with
  | [] => (setR s (FIQ_TAG_LAST f) 0x80000000#32, 0xFFFF0000#32)
  | (w, t) :: r => (setR (fiqSet s f { q with counted := r }) (FIQ_TAG_LAST f) t, w)

/-- `COUNT[f]` as it reads. -/
def fiqCountRead (s : State) (f : Nat) : Word := w32 (fiqStored (fiq s f) * 65536 + fiqCount s f)

/-- A write of `FIFO_CFG[f]`: `FLUSH` first, then `PACKET`, which changes only while nothing is stored (R464). -/
def fiqCfg (f : Nat) (m : Master) (v : Word) (s : State) : State :=
  let s1 := if bit v 1 then fiqSet s f FiqSt.init else s
  if bit v 0 = fiqPacket s1 f then s1
  else if fiqStored (fiq s1 f) = 0 then putB s1 (FIQ_FIFO_CFG f) 0 (bit v 0)
  else recErr s1 FIQ errLocked m (FIQ_FIFO_CFG f) true

/-! Alarm queues (R465, R466). -/

/-- The items of alarm queue `a`, oldest first. -/
def aqItems (s : State) (a : Nat) : List Word := sget s.aq a []

/-- Priority of an item. -/
def aqPri (w : Word) : Nat := fld w 31 28

/-- Sets the items; source 304 + `a` asserts while the queue is not empty. -/
def aqSet (s : State) (a : Nat) (l : List Word) : State :=
  setLine { s with aq := sset s.aq a l } (304 + a) (!l.isEmpty)

/-- The lowest priority held. -/
def aqLow (l : List Word) : Nat := l.foldl (fun n w => min n (aqPri w)) 15

/-- The highest priority held. -/
def aqHigh (l : List Word) : Nat := l.foldl (fun n w => max n (aqPri w)) 0

/-- Removes the oldest item of priority `p`. -/
def aqDrop (l : List Word) (p : Nat) : List Word := l.eraseP fun w => decide (aqPri w = p)

/-- A post (R465, R466). -/
def aqPost (a : Nat) (v : Word) (s : State) : State :=
  let l := aqItems s a
  if v = 0xFFFF0000#32 then raiseIrq (bump s (FIQ_Queue_counters a + 4)) FIQ 3
  else if l.length < 256 then aqSet s a (l ++ [v])
  else
    let s1 := raiseIrq (bump s (FIQ_Queue_counters a)) FIQ 2
    if aqLow l < aqPri v then aqSet s1 a (aqDrop l (aqLow l) ++ [v]) else s1

/-- A read: the oldest item of highest priority (R465). -/
def aqRead (a : Nat) (s : State) : State × Word :=
  let l := aqItems s a
  match l.find? fun w => decide (aqPri w = aqHigh l) with
  | none => (s, 0xFFFF0000#32)
  | some w => (aqSet s a (aqDrop l (aqHigh l)), w)

/-- `AQ_LEVEL[a]` as it reads. -/
def aqLevel (s : State) (a : Nat) : Word :=
  let l := aqItems s a
  w32 (aqHigh l * 65536 + l.length)

/-! Locks (R467, R468). -/

/-- The outcome of a lock read: the new owner and the value read. Log entry 90 (DEDUCED). -/
def lockTake (owner : Nat) (m : Master) : Nat × Nat := if owner = 0 then (m.toNat, 0) else (owner, owner)

/-- A read of `LOCK[k]`. -/
def lockRead (k : Nat) (m : Master) (s : State) : State × Word :=
  let t := lockTake (getF s (LCK_OWNER k) 5 0) m
  (putF s (LCK_OWNER k) 5 0 t.1, w32 t.2)

/-- A write of `LOCK[k]`. -/
def lockWrite (k : Nat) (m : Master) (v : Word) (s : State) : State :=
  if getF s (LCK_OWNER k) 5 0 = m.toNat then (if v = 0 then putF s (LCK_OWNER k) 5 0 0 else s)
  else raiseIrq s LCK 2

/-- Frees lock `k`, which is held: recorded in `RELEASED_LAST`, with interrupt bit `i`. -/
def lockFree (k i : Nat) (s : State) : State :=
  raiseIrq (putF (setR s LCK_RELEASED_LAST (w32 (getF s (LCK_OWNER k) 5 0 * 65536 + k))) (LCK_OWNER k) 5 0 0) LCK i

/-- A write of `FORCE_RELEASE` (R468). Log entry 93 (DEDUCED). -/
def lockForce (m : Master) (v : Word) (s : State) : State :=
  if m = mSSP then
    let k := fld v 6 0
    if getF s (LCK_OWNER k) 5 0 = 0 then s else lockFree k 0 s
  else if fld v 6 0 = 0 then s
  else deny s errDeniedField m LCK_FORCE_RELEASE true

/-! Mailboxes (R469–R472). -/

/-- State of mailbox `k`: 0 EMPTY, 1 FILLING, 2 FULL. -/
def mbxState (s : State) (k : Nat) : Nat := getF s (MBX_STATUS k) 31 30

/-- Lock owner of mailbox `k`. -/
def mbxOwner (s : State) (k : Nat) : Nat := getF s (MBX_STATUS k) 21 16

/-- The receiver's master number, 0 for none (R469). -/
def mbxReceiver (s : State) (k : Nat) : Nat :=
  match getF s (MBX_CFG k) 1 0 with
  | 1 => 1
  | 2 => 3
  | 3 => 2
  | _ => 0

/-- Sets the state and the owner. -/
def mbxPut (s : State) (k st own : Nat) : State := putF (putF s (MBX_STATUS k) 31 30 st) (MBX_STATUS k) 21 16 own

/-- A read of a mailbox's lock: a free lock of an EMPTY mailbox takes it to FILLING (R469, R470). -/
def mbxLockRead (k : Nat) (m : Master) (s : State) : State × Word :=
  let t := lockTake (mbxOwner s k) m
  let st := if mbxOwner s k = 0 ∧ mbxState s k = 0 then 1 else mbxState s k
  (mbxPut s k st t.1, w32 t.2)

/-- A mailbox whose lock is freed while FILLING is EMPTY, without a message (R470). Log entry 91 (DEDUCED). -/
def mbxUnlock (s : State) (k : Nat) : State := mbxPut s k (if mbxState s k = 1 then 0 else mbxState s k) 0

/-- A write of a mailbox's lock. -/
def mbxLockWrite (k : Nat) (m : Master) (v : Word) (s : State) : State :=
  if mbxOwner s k = m.toNat then (if v = 0 then mbxUnlock s k else s) else raiseIrq s LCK 2

/-- A message ends with a code: the mailbox is EMPTY, its lock free, and `EVENT.EMPTIED` set (R470). -/
def mbxEnd (s : State) (k code : Nat) : State :=
  let s1 := setR (putF s (MBX_STATUS k) 7 0 code) (MBX_LAST_TAG k) (getR s (MBX_TAG k))
  setR s1 (MBX_TAG k) 0

/-- The mailbox leaves FULL or FILLING: EMPTY, lock free, receiver's line released, `EMPTIED` set. -/
def mbxEmptied (s : State) (k : Nat) : State :=
  setLine (putB (setLine (mbxPut s k 0 0) (mbxLine k) false) (MBX_EVENT k) 0 true) (512 + k) true

/-- A write of `SEND` (R470, R471). Log entry 90 (DEDUCED). -/
def mbxSend (k : Nat) (m : Master) (v : Word) (s : State) : State :=
  if bit v 0 = true ∧ mbxState s k = 1 ∧ mbxOwner s k = m.toNat then
    let n := sget s.mbx k 1
    let s1 := { s with mbx := sset s.mbx k (if n = 0x3FFFFF then 1 else n + 1) }
    let s2 := setR s1 (MBX_TAG k) (w32 (0x20000000 + k * 0x400000 + n))
    let s3 := putF s2 (MBX_STATUS k) 31 30 2
    let s4 := if mbxReceiver s3 k = 1 ∧ getF s3 (BLK_STATUS HIF) 3 2 ≠ 0 then blkPowerReq HIF 0 s3 else s3
    wakeSource 13 (setLine s4 (mbxLine k) true)
  else s

/-- A write of `ACK` (R470). Log entry 92 (DEDUCED). -/
def mbxAck (k : Nat) (m : Master) (v : Word) (s : State) : State :=
  let code := fld v 7 0
  if mbxState s k = 2 ∧ mbxReceiver s k = m.toNat ∧ m ≠ 0 ∧ (code = 0 ∨ 0x80 ≤ code) then mbxEmptied (mbxEnd s k code) k
  else s

/-- A write of `RESET` (R470, R472). Log entries 91 (DEDUCED), 93 (DEDUCED). -/
def mbxResetCmd (k : Nat) (m : Master) (v : Word) (s : State) : State :=
  if bit v 0 then
    if m = mSSP then mbxEmptied (if mbxState s k = 2 then mbxEnd s k 0x90 else s) k
    else deny s errDeniedField m (MBX_RESET k) true
  else s

/-- A write of `CFG`, `HDR` or `DATA`: accepted under `okNow`, else recorded with code LOCKED where it differs (R51, R469). -/
def mbxPlain (okNow : Bool) (m : Master) (a msk : Nat) (v : Word) (s : State) : State :=
  if okNow then setR s a (v &&& w32 msk)
  else if (v &&& w32 msk) = getR s a then s
  else recErr s MBX errLocked m a true

/-- A write of `CFG` of mailbox `k`. -/
def mbxCfg (k : Nat) (m : Master) (v : Word) (s : State) : State :=
  mbxPlain (decide (mbxState s k = 0) && decide (mbxOwner s k = 0)) m (MBX_CFG k) 0x3F03 v s

/-- A write of `HDR` of mailbox `k`. -/
def mbxHdr (k : Nat) (m : Master) (v : Word) (s : State) : State :=
  mbxPlain (decide (mbxOwner s k = m.toNat)) m (MBX_HDR k) 0xFF00000F v s

/-- A write of `DATA[i]` of mailbox `k`. -/
def mbxData (k i : Nat) (m : Master) (v : Word) (s : State) : State :=
  mbxPlain (decide (mbxOwner s k = m.toNat)) m (MBX_DATA k i) m32 v s

/-- A write of `EVENT`: bit 0 clears `EMPTIED` (R471). -/
def mbxEvent (k : Nat) (v : Word) (s : State) : State :=
  if bit v 0 then setLine (putB s (MBX_EVENT k) 0 false) (512 + k) false else s

/-- Every lock and mailbox lock that master `m` holds is freed, each recorded (R449, R468). -/
def freeLocksOf (m : Master) (s : State) : State :=
  let s1 := (List.range 128).foldl (fun t k => if getF t (LCK_OWNER k) 5 0 = m.toNat then lockFree k 1 t else t) s
  (List.range 64).foldl (fun t k =>
    if mbxOwner t k = m.toNat then
      raiseIrq (setR (mbxUnlock t k) LCK_RELEASED_LAST (w32 (m.toNat * 65536 + k))) LCK 1
    else t) s1

/-! The commands. -/

/-- `FIFO_DATA[f]` is read. -/
def execFifoDataRead (m : Master) (f : Fin 64) (s : State) : Res :=
  .next (gatedRead m (FIQ_FIFO_DATA f.val) (fun t => fiqPop t f.val) s)

/-- `FIFO_CFG[f]` is written with `FLUSH` set. -/
def execFifoFlush (m : Master) (f : Fin 64) (v : Word) (s : State) : Res :=
  .next (gatedWrite m (FIQ_FIFO_CFG f.val) (fiqCfg f.val m (setBit v 1 true)) s)

/-- `AQ_POST[a]` is written. -/
def execAqPost (m : Master) (a : Fin 16) (v : Word) (s : State) : Res :=
  .next (gatedWrite m (FIQ_AQ_POST a.val) (aqPost a.val v) s)

/-- `AQ_READ[a]` is read. -/
def execAqRead (m : Master) (a : Fin 16) (s : State) : Res :=
  .next (gatedRead m (FIQ_AQ_READ a.val) (aqRead a.val) s)

/-- `AQ_FLUSH[a]` is written. -/
def execAqFlush (m : Master) (a : Fin 16) (v : Word) (s : State) : Res :=
  .next (gatedWrite m (FIQ_AQ_FLUSH a.val) (fun t => if bit v 0 then aqSet t a.val [] else t) s)

/-- `LOCK[k]` is read. -/
def execLockRead (m : Master) (k : Fin 128) (s : State) : Res :=
  .next (gatedRead m (LCK_LOCK k.val) (lockRead k.val m) s)

/-- `LOCK[k]` is written. -/
def execLockRelease (m : Master) (k : Fin 128) (v : Word) (s : State) : Res :=
  .next (gatedWrite m (LCK_LOCK k.val) (lockWrite k.val m v) s)

/-- `FORCE_RELEASE` is written. -/
def execForceRelease (m : Master) (v : Word) (s : State) : Res :=
  .next (gatedWrite m LCK_FORCE_RELEASE (lockForce m v) s)

/-- A mailbox's lock is read. -/
def execMbxLockRead (m : Master) (k : Fin 64) (s : State) : Res :=
  .next (gatedRead m (MBX_LOCK k.val) (mbxLockRead k.val m) s)

/-- A mailbox's lock is written. -/
def execMbxLockRelease (m : Master) (k : Fin 64) (v : Word) (s : State) : Res :=
  .next (gatedWrite m (MBX_LOCK k.val) (mbxLockWrite k.val m v) s)

/-- `SEND` is written. -/
def execMbxSend (m : Master) (k : Fin 64) (v : Word) (s : State) : Res :=
  .next (gatedWrite m (MBX_SEND k.val) (mbxSend k.val m v) s)

/-- `ACK` is written. -/
def execMbxAck (m : Master) (k : Fin 64) (v : Word) (s : State) : Res :=
  .next (gatedWrite m (MBX_ACK k.val) (mbxAck k.val m v) s)

/-- `RESET` is written. -/
def execMbxReset (m : Master) (k : Fin 64) (v : Word) (s : State) : Res :=
  .next (gatedWrite m (MBX_RESET k.val) (mbxResetCmd k.val m v) s)

end Sys2Proof.Machine
end

