-- ==== Sys2Proof/Machine/Host.lean ====
section
/-! DEFINITION. The host interface (15): PCI Express link and resets, the DMA rings, their completion records and
interrupts. -/

namespace Sys2Proof.Machine

open Reg

/-- The host DMA engine's master number (R9). -/
abbrev mDma : Master := 6

/-- The registers of ring `r`: transmit rings 0–15, receive rings 16–31 (R474). -/
def ringBase (r : Nat) : Nat := if r < 16 then HIF_TXR r else HIF_RXR (r - 16)

/-- `CTRL` of a ring. -/
def rgCTRL (r : Nat) : Nat := ringBase r
/-- `STATUS` of a ring. -/
def rgSTATUS (r : Nat) : Nat := ringBase r + 0x04
/-- `SIZE` of a ring. -/
def rgSIZE (r : Nat) : Nat := ringBase r + 0x10
/-- `TAIL` of a ring. Log entry 94 (DEDUCED). -/
def rgTAIL (r : Nat) : Nat := ringBase r + 0x14
/-- `HEAD` of a ring. -/
def rgHEAD (r : Nat) : Nat := ringBase r + 0x18
/-- `CR_BASE_LO` of a ring. -/
def rgCRBASE (r : Nat) : Nat := ringBase r + 0x1C
/-- `IRQ` of a ring. -/
def rgIRQ (r : Nat) : Nat := ringBase r + 0x24
/-- `LOST_FIRST` of a ring. -/
def rgLOSTFIRST (r : Nat) : Nat := ringBase r + 0x28
/-- `LOST_COUNT` of a ring. -/
def rgLOSTCOUNT (r : Nat) : Nat := ringBase r + 0x2C

/-- Ring `r` beside its registers. -/
def ringSt (s : State) (r : Nat) : RingSt := sget s.hif.rings r RingSt.init

/-- Changes ring `r`. -/
def ringMod (s : State) (r : Nat) (f : RingSt → RingSt) : State :=
  { s with hif := { s.hif with rings := smod s.hif.rings r RingSt.init f } }

/-- Whether the rings can move anything: the block operates and the link is up. -/
def hifOn (s : State) : Bool :=
  getB s (BLK_CTRL HIF) 0 && decide (getF s (BLK_STATUS HIF) 3 2 = 0) && linkUp s

/-- Descriptors that a ring holds. Log entry 94 (DEDUCED). -/
def ringSize (s : State) (r : Nat) : Nat := getF s (rgSIZE r) 12 0

/-- Whether a ring has a descriptor to read (R451). -/
def ringHas (s : State) (r : Nat) : Bool :=
  decide (ringSize s r ≠ 0) && decide (getF s (rgHEAD r) 11 0 ≠ getF s (rgTAIL r) 11 0)

/-- Sets `IRQ.PEND` of a ring, and its source, 352 + `r` (R459). Log entry 96 (DEDUCED). -/
def ringPend (s : State) (r : Nat) (b : Bool) : State := setLine (putB s (rgIRQ r) 0 b) (352 + r) b

/-- The tag of a ring's next item (R452). -/
def ringTag (s : State) (r : Nat) : Nat :=
  0x10000000 + (r % 16) * 0x1000000 + (r / 16) * 0x800000 + (ringSt s r).count

/-- A descriptor has been read: it is an item, `HEAD` moves past it and the ring's count advances (R451, R452). -/
def ringRead (s : State) (r : Nat) : State :=
  let s1 := putF s (rgHEAD r) 11 0 ((getF s (rgHEAD r) 11 0 + 1) % max 1 (ringSize s r))
  ringMod s1 r fun x => { x with count := if x.count = 0x7FFFFF then 1 else x.count + 1 }

/-- What a completion record says of an item. -/
structure Completion where
  slot : Nat
  tag : Nat
  cookie : Nat
  irq : Bool
  eof : Bool
  sof : Bool
  reason : Nat
  moved : Nat
  deriving DecidableEq, Repr

/-- The word at offset 8 of a completion record. -/
def complWord (ph : Bool) (c : Completion) : Word :=
  w32 (nb ph * 0x80000000 + nb (decide (c.reason ≠ 0)) * 0x40000000 + nb c.eof * 0x20000000 + nb c.sof * 0x10000000 +
    c.reason * 65536 + c.moved % 65536)

/-- Writes a completion record: bytes 0–7 and 12–15 first, then the word at 8 (R455, R456), and judges the ring's
interrupt (R459). -/
def ringComplete (s : State) (r : Nat) (c : Completion) : State :=
  let x := ringSt s r
  let a := (getR64 s (rgCRBASE r)).toNat + 16 * c.slot
  let s1 := emit (emit (emit s (.hostWrite a (leBytes 4 c.tag ++ leBytes 4 c.cookie)))
    (.hostWrite (a + 12) (leBytes 4 (tenseNs s)))) (.hostWrite (a + 8) (leBytes 4 (complWord x.ph c).toNat))
  let s2 := ringMod s1 r fun x =>
    { x with ph := if c.slot + 1 = ringSize s r then !x.ph else x.ph, recs := x.recs + 1
             firstAt := if x.recs = 0 then s.time.tense else x.firstAt }
  if c.irq || decide (getF s (rgCTRL r) 15 8 ≤ x.recs + 1) then ringPend s2 r true else s2

/-- A descriptor fetch fails: the ring halts (R457). -/
def ringHalt (s : State) (r : Nat) : State :=
  raiseIrq (putB (putB (putB s (rgSTATUS r) 31 true) (rgSTATUS r) 0 false) (rgCTRL r) 0 false) HIF 2

/-! Transmit (R454). -/

/-- Whether a transmit descriptor is well formed (R452, R457). -/
def txDescOk (d : List Byte) : Bool :=
  let len := leAt d 8 2
  decide (14 ≤ len) && decide (len ≤ 9746) && decide (leAt d 10 1 < 8) && decide (leAt d 12 1 < 8) &&
  decide (leAt d 13 3 = 0) && decide (leAt d 20 12 = 0) && (!((leAt d 10 1).testBit 0) || decide (leAt d 11 1 ≤ 210))

/-- The transmit ring that is served next (R454). -/
def txNext (s : State) : Option Nat :=
  ((List.range 16).map fun i => (s.hif.txPtr + i) % 16).find? fun r => getB s (rgCTRL r) 0 && ringHas s r

/-- The frame of a transmit descriptor: the bytes read, or the reason of failure. Log entry 176 (DEDUCED). -/
def txBuffer (s : State) (d buf : List Byte) (f : HostFetch) : State × (List Byte ⊕ Nat) :=
  let len := leAt d 8 2
  if (leAt d 10 1).testBit 2 then
    let m := fabRead s mDma (leAt d 0 4) len false
    match m.2.1 with
    | .ok => (m.1, .inl m.2.2)
    | .poisoned => (raiseIrq m.1 HIF 1, .inr 2)
    | _ => (m.1, .inr 5)
  else if f = .bufErr then (raiseIrq s HIF 1, .inr 2)
  else (s, .inl (slice buf 0 len))

/-- A transmit descriptor is read as an item of ring `r` and its frame passes into port 208. -/
def txItem (s : State) (r : Nat) (d buf : List Byte) (f : HostFetch) : State :=
  let tag := ringTag s r
  let c : Completion :=
    { slot := getF s (rgHEAD r) 11 0, tag := tag, cookie := leAt d 16 4, irq := (leAt d 10 1).testBit 1
      eof := true, sof := true, reason := 0, moved := 0 }
  let s0 := ringRead s r
  let s1 : State := { s0 with hif := { s0.hif with txPtr := (r + 1) % 16 } }
  if !(txDescOk d) then ringComplete s1 r { c with reason := 1 }
  else
    let b := txBuffer s1 d buf f
    match b.2 with
    | .inr reason => ringComplete b.1 r { c with reason := reason }
    | .inl bytes =>
      let a : Arrival :=
        { plainArrival b.1 208 bytes with
          itemTag := tag
          direct := if (leAt d 10 1).testBit 0 then some (leAt d 11 1, leAt d 12 1) else none }
      ringComplete (bump (swIngress b.1 a).1 HIF_TX_FRAMES) r { c with moved := bytes.length }

/-- The device reads the next transmit descriptor (R454). -/
def hostTx (desc buf : List Byte) (f : HostFetch) (s : State) : State :=
  if hifOn s = false ∨ accepting s = false then s
  else match txNext s with
    | none => s
    | some r => if f = .descErr then ringHalt s r else txItem s r (slice desc 0 32) buf f

/-! Receive (R455). -/

/-- Whether a receive descriptor is well formed (R452, R457). -/
def rxDescOk (d : List Byte) : Bool :=
  let len := leAt d 8 2
  decide (64 ≤ len) && decide (len ≤ 16384) && decide (len % 64 = 0) && decide (leAt d 10 1 % 2 = 0) &&
  decide (leAt d 10 1 < 8) && decide (leAt d 11 5 = 0) && decide (leAt d 20 12 = 0)

/-- Writes bytes into a receive buffer: host memory, or shared memory with `ONCHIP` (R453). Log entry 176 (DEDUCED). -/
def rxBuffer (s : State) (d bytes : List Byte) : State × Nat :=
  if (leAt d 10 1).testBit 2 then
    let m := fabWrite s mDma (leAt d 0 4) bytes false
    (m.1, match m.2 with | .ok => 0 | .poisoned => 2 | _ => 5)
  else (emit s (.hostWrite (leAt d 0 8) bytes), 0)

/-- The receive frame of ring `r` continues into one descriptor. -/
def rxItem (s : State) (r : Nat) (d : List Byte) (started : Bool) (rest : List Byte) : State × Bool × List Byte :=
  let c : Completion :=
    { slot := getF s (rgHEAD r) 11 0, tag := ringTag s r, cookie := leAt d 16 4, irq := (leAt d 10 1).testBit 1
      eof := false, sof := false, reason := 0, moved := 0 }
  let s1 := ringRead s r
  if !(rxDescOk d) then (ringComplete s1 r { c with reason := 1 }, started, rest)
  else
    let n := min (leAt d 8 2) rest.length
    let w := rxBuffer s1 d (rest.take n)
    if w.2 ≠ 0 then (ringComplete w.1 r { c with reason := w.2 }, started, rest)
    else
      (ringComplete w.1 r { c with eof := decide (n = rest.length), sof := !started, moved := n }, true, rest.drop n)

/-- The receive frame of ring `r` goes into the descriptors that the device reads, while the ring has any. -/
def rxFill (s : State) (r : Nat) (descs : List (List Byte)) (started : Bool) (rest : List Byte) :
    State × Bool × List Byte :=
  match descs with
  | [] => (s, started, rest)
  | d :: more =>
    if rest = [] ∨ ringHas s r = false then (s, started, rest)
    else
      let x := rxItem s r (slice d 0 32) started rest
      rxFill x.1 r more x.2.1 x.2.2

/-- A stopping ring stops once its frame in progress has ended (R458). -/
def ringStopped (s : State) (r : Nat) : State :=
  if (ringSt s r).stopping then putB (ringMod s r fun x => { x with stopping := false }) (rgSTATUS r) 0 false else s

/-- The frame at the host's input is written to its ring (R455). -/
def hostRx (descs : List (List Byte)) (f : HostFetch) (s : State) : State :=
  match s.sw.sink.find? fun e => decide (e.port = 208) with
  | none => s
  | some e =>
    match frameOf s e.fid with
    | none => s
    | some fr =>
      let r := 16 + fld (getR s HIF_RX_MAP) (4 * fr.tc + 3) (4 * fr.tc)
      let gone : State := { s with sw := { s.sw with sink := s.sw.sink.erase e } }
      if hifOn s = false ∨ awake s = false ∨ (getB s (rgCTRL r) 0 || (ringSt s r).stopping) = false then s
      else match exitFault fr e.rf with
        | some why => exitDrop gone 208 fr.tc e.fid fr why
        | none =>
          let from_ := match (ringSt s r).part with
            | some p => p
            | none => (false, headBytes s fr ++ delivered s 208 fr)
          let x := rxFill s r descs from_.1 from_.2
          if x.2.2 = [] then
            let s1 := ringMod x.1 r fun y => { y with part := none }
            let s2 : State := { s1 with sw := { s1.sw with sink := s1.sw.sink.erase e } }
            ringStopped (unref (bump s2 HIF_RX_FRAMES) e.fid) r
          else
            let s1 := ringMod x.1 r fun y => { y with part := if x.2.1 then some (true, x.2.2) else none }
            if f = .descErr ∧ ringHas s1 r = true then ringHalt s1 r else s1

/-! Ring registers (R458, R459, R474). -/

/-- Clears `EN`: a receive ring with a frame in progress stops after it (R458). Log entry 95 (DEDUCED). -/
def ringOff (s : State) (r : Nat) : State :=
  if (ringSt s r).part.isSome then ringMod s r fun x => { x with stopping := true }
  else putB s (rgSTATUS r) 0 false

/-- Sets `EN`: `HALTED` clears and `PHASE` starts at 1 (R456, R474). Log entry 95 (DEDUCED). -/
def ringOn (s : State) (r : Nat) : State :=
  let s1 := putB (putB s (rgSTATUS r) 31 false) (rgSTATUS r) 0 true
  ringMod s1 r fun x => { x with ph := true, stopping := false }

/-- The ring and the offset within it of a HIF page offset. -/
def ringOfOff (off : Nat) : Option (Nat × Nat) :=
  if 0x400 ≤ off ∧ off < 0x800 then some ((off - 0x400) / 64, off % 64)
  else if 0x800 ≤ off ∧ off < 0xC00 then some (16 + (off - 0x800) / 64, off % 64)
  else none

/-- A write to a register of the HIF page beyond the header (R474). Log entry 21 (DEDUCED). -/
def hifWrite (m : Master) (off : Nat) (v : Word) (s : State) : State :=
  let plain := plainWrite (regDesc .HIF 0 off) m ⟨.HIF, 0, HIF⟩ off v
  match ringOfOff off with
  | none => plain s
  | some (r, o) =>
    let en := getB s (rgCTRL r) 0
    if o = 0 then
      let s1 := plain s
      if en = bit v 0 then s1 else if bit v 0 then ringOn s1 r else ringOff s1 r
    else if o = 0x08 ∨ o = 0x0C ∨ o = 0x10 ∨ o = 0x1C ∨ o = 0x20 then
      if !en then plain s
      else if touches (regDesc .HIF 0 off) m32 (getR s (HIF + off)) v then recErr s HIF errLocked m (HIF + off) true
      else s
    else if o = 0x24 then
      if bit v 0 && getB s (rgIRQ r) 0 then ringPend (ringMod s r fun x => { x with recs := 0 }) r false else s
    else plain s

/-- `MOD_US` elapse for ring `r` since its first record: the clock advances to that moment (R459).
Log entry 96 (DEDUCED). -/
def modExpiry (r : Nat) (s : State) : State :=
  let x := ringSt s r
  if x.recs = 0 ∨ getB s (rgIRQ r) 0 = true then s
  else ringPend (advanceNs s (x.firstAt.toNat + getF s (rgCTRL r) 31 16 * 1000)) r true

/-! The link and the host interface's resets (R69, R449). -/

/-- `LINK.UP` takes a value; a change sets interrupt bit 0 (R475). -/
def linkPut (w : Word) (s : State) : State :=
  let ch := decide (getB s HIF_LINK 31 ≠ bit w 31)
  let s1 := setR s HIF_LINK w
  if ch then raiseIrq s1 HIF 0 else s1

/-- Items of ring `r` in flight end LINK_DOWN: `n` descriptors that had been read, as far as the ring holds them. -/
def ringLost (s : State) (r n : Nat) : State :=
  let sz := max 1 (ringSize s r)
  let k := if getB s (rgCTRL r) 0 then min n ((getF s (rgTAIL r) 11 0 + sz - getF s (rgHEAD r) 11 0) % sz) else 0
  if k = 0 then s
  else
    let s1 := setR (setR s (rgLOSTFIRST r) (w32 (ringTag s r))) (rgLOSTCOUNT r) (w32 k)
    bumpN ((List.range k).foldl (fun t _ => ringRead t r) s1) HIF_LINK_DOWN_ENDS k

/-- A ring is disabled by the loss of the host interface; a receive frame in progress is abandoned (R449, R458). -/
def ringKill (s : State) (r : Nat) : State :=
  let s1 := putB (putB s (rgCTRL r) 0 false) (rgSTATUS r) 0 false
  if (ringSt s r).part.isSome then
    let s2 := bump (ringMod s1 r fun x => { x with part := none, stopping := false }) HIF_RX_ABANDONED
    match s2.sw.sink.find? fun e => decide (e.port = 208) && (match frameOf s2 e.fid with
        | some f => decide (16 + fld (getR s2 HIF_RX_MAP) (4 * f.tc + 3) (4 * f.tc) = r)
        | none => false) with
    | some e => unref { s2 with sw := { s2.sw with sink := s2.sw.sink.erase e } } e.fid
    | none => s2
  else ringMod s1 r fun x => { x with stopping := false }

/-- What R449 does to the rings, the items in flight and the host's locks. Log entry 97 (DEDUCED). -/
def hostDown (cut : List (Nat × Nat)) (s : State) : State :=
  let s1 := cut.foldl (fun t e => ringLost t e.1 e.2) s
  freeLocksOf mHost ((List.range 32).foldl ringKill s1)

/-- `PERST_N` asserts, a Function Level Reset arrives, or the link is lost. Log entry 97 (DEDUCED). -/
def hostLoss (why : HostLoss) (cut : List (Nat × Nat)) (s : State) : State :=
  let s1 := hostDown cut s
  match why with
  | .perst => raiseIrq (linkPut 0 { s1 with hif := { s1.hif with perst := true, cfgUp := false } }) HIF 3
  | .flr => raiseIrq s1 HIF 3
  | .link => linkPut 0 s1

/-- `PERST_N` releases: the configuration space comes to answer, with the subsystem IDs as they stand (R69, R474).
Log entry 97 (DEDUCED). -/
def perstUp (s : State) : State :=
  if s.hif.perst then
    { s with hif := { s.hif with perst := false, cfgUp := !s.sys.held, subsys := getR s HIF_SUBSYS } }
  else s

/-- The link trains to a width and a speed (R448, R474); what it held back is sent (R63). -/
def linkTrain (width speed : Nat) (s : State) : State :=
  if s.hif.cfgUp = false ∨ (width ≠ 1 ∧ width ≠ 2 ∧ width ≠ 4) ∨ speed = 0 then s
  else msixRelease (linkPut (w32 (0x80000000 + width * 0x100000 + speed * 0x10000)) s)

/-! The commands. -/

/-- The host interface is reset or loses its link (R449). -/
def execPerstAssert (why : HostLoss) (cut : List (Fin 32 × Nat)) (s : State) : Res :=
  .next (hostLoss why (cut.map fun e => (e.1.val, e.2)) s)

/-- `PERST_N` releases (R69). -/
def execPerstRelease (s : State) : Res := .next (perstUp s)

/-- The link trains (R448). -/
def execPcieLinkUp (width : BitVec 3) (speed : BitVec 2) (s : State) : Res :=
  .next (linkTrain width.toNat speed.toNat s)

/-- A transmit descriptor is read (R454). -/
def execHostTxDescriptor (desc buf : List Byte) (f : HostFetch) (s : State) : Res := .next (hostTx desc buf f s)

/-- A receive frame is written (R455). -/
def execHostRxFrame (descs : List (List Byte)) (f : HostFetch) (s : State) : Res := .next (hostRx descs f s)

/-- `TAIL` of ring `r` is written (R451). -/
def execTailWrite (m : Master) (r : Fin 32) (v : Word) (s : State) : Res :=
  .next (gatedWrite m (rgTAIL r.val) (hifWrite m (rgTAIL r.val - HIF) v) s)

/-- `CTRL` of ring `r` is written with `EN` set (R456). -/
def execRingEnable (m : Master) (r : Fin 32) (v : Word) (s : State) : Res :=
  .next (gatedWrite m (rgCTRL r.val) (hifWrite m (rgCTRL r.val - HIF) (setBit v 0 true)) s)

/-- `CTRL` of ring `r` is written with `EN` clear (R458). -/
def execRingStop (m : Master) (r : Fin 32) (v : Word) (s : State) : Res :=
  .next (gatedWrite m (rgCTRL r.val) (hifWrite m (rgCTRL r.val - HIF) (setBit v 0 false)) s)

/-- `MOD_US` elapse (R459). -/
def execModUsExpiry (r : Fin 32) (s : State) : Res := .next (modExpiry r.val s)

end Sys2Proof.Machine
end

