-- ==== Sys2Proof/Machine/Mdb.lean ====
section
/-! DEFINITION. The multidrop bus controllers (10). -/

namespace Sys2Proof.Machine

open Reg

/-- Controller `n` beside its registers. -/
def mdb (s : State) (n : Nat) : MdbSt := sget s.mdb n MdbSt.init

/-- Changes controller `n`. -/
def mdbMod (s : State) (n : Nat) (f : MdbSt → MdbSt) : State := { s with mdb := smod s.mdb n MdbSt.init f }

/-- `STATUS.CSTATE`: 0 CONFIG, 1 INTEGRATING, 2 RUN, 3 BUS_OFF, 4 RECOVERING. -/
def mdbC (s : State) (n : Nat) : Nat := getF s (MDB_STATUS n) 2 0

/-- Sets `CSTATE`. -/
def mdbSetC (s : State) (n c : Nat) : State := putF s (MDB_STATUS n) 2 0 c

/-- Transmit buffer `b`. -/
def mdbTb (p : MdbSt) (b : Nat) : Option MdbBuf := if b = 0 then p.tb0 else if b = 1 then p.tb1 else p.tb2

/-- Sets transmit buffer `b`. -/
def mdbSetTb (s : State) (n b : Nat) (v : Option MdbBuf) : State :=
  mdbMod s n fun p => if b = 0 then { p with tb0 := v } else if b = 1 then { p with tb1 := v } else { p with tb2 := v }

/-- The Gate record that TB0 holds (R317). -/
def mdbGate (s : State) (n : Nat) : Option GEnt :=
  (sget s.gate.entry (256 + n) []).find? fun g => decide (g.loc = 1 ∨ g.loc = 2)

/-- Whether buffer `b` is loaded; TB0 is while the Gate entry holds its record. -/
def mdbLoaded (s : State) (n b : Nat) : Bool :=
  if b = 0 then (mdbGate s n).isSome else (mdbTb (mdb s n) b).isSome

/-- The frame record in buffer `b`. -/
def mdbRec (s : State) (n b : Nat) : List Byte :=
  if b = 0 then ((mdbGate s n).map (·.bytes)).getD [] else ((mdbTb (mdb s n) b).map (·.rec_)).getD []

/-- `FSTATE`, by the counters: 0 error-active, 1 error-passive, 2 bus-off (R323). -/
def mdbFault (s : State) (n : Nat) : Nat :=
  let p := mdb s n
  if 255 < p.tec then 2 else if 128 ≤ p.tec ∨ 128 ≤ p.rec_ then 1 else 0

/-- The pins of controller `n`: in CONFIG both hold their weak pull-up; outside it TXD is driven, at `level`, recessive being
true (R312). Log entry 165 (DEDUCED). -/
def mdbPins (s : State) (n : Nat) (level : Bool) : State :=
  let d := decide (mdbC s n ≠ 0)
  mdbMod s n fun p => { p with txd := ⟨d, !d || level⟩, rxPull := !d }

/-- Brings `STATUS.FSTATE` and the error warning in line with the counters (R311, R323, R329). -/
def mdbErrShow (s : State) (n : Nat) : State :=
  let p := mdb s n
  let f := mdbFault s n
  let w := decide (96 ≤ p.tec) || decide (96 ≤ p.rec_)
  let s1 := if getF s (MDB_STATUS n) 5 4 = f then s else raiseIrq (putF s (MDB_STATUS n) 5 4 f) (MDB n) 4
  if getB s1 (MDB_STATUS n) 24 = w then s1 else raiseIrq (putB s1 (MDB_STATUS n) 24 w) (MDB n) 3

/-- Ends a command with status `st`. -/
def mdbCmdEnd (s : State) (n st : Nat) : State :=
  raiseIrq (setR s (MDB_CMD_RESULT n) (w32 (0x80000000 + st * 0x10000000))) (MDB n) 10

/-- The ranges of R313 and R314. -/
def mdbTimingOk (s : State) (n : Nat) : Bool :=
  let a := getR s (MDB_ARB_TIMING n)
  let d := getR s (MDB_DATA_TIMING n)
  let ap := fld a 31 23 + 1
  let a1 := fld a 7 0 + 1
  let a2 := fld a 14 8 + 1
  let aj := fld a 22 16 + 1
  let dp := fld d 20 16 + 1
  let d1 := fld d 4 0 + 1
  let d2 := fld d 11 8 + 1
  let dj := fld d 15 12 + 1
  let ab := ap * (1 + a1 + a2)
  let db := dp * (1 + d1 + d2)
  decide (2 ≤ a1) && decide (aj ≤ a2) && decide (8 ≤ 1 + a1 + a2) && decide (80 ≤ ab) &&
  (!(getB s (MDB_CFG n) 3) ||
    (decide (dj ≤ d2) && decide (5 ≤ 1 + d1 + d2) && decide (10 ≤ db) && decide (db ≤ ab))) &&
  !(bit d 31 && decide (2 < dp))

/-- START (R313, R323). -/
def mdbStartCmd (n : Nat) (s : State) : State :=
  if mdbC s n ≠ 0 ∨ getB s (BLK_CTRL (MDB n)) 0 = false then mdbCmdEnd s n 3
  else if !(mdbTimingOk s n) then mdbCmdEnd s n 2
  else
    let s1 := mdbMod (mdbPins (mdbSetC s n 1) n true) n fun p => { p with
      tec := 0, rec_ := 0, mode := getF s (MDB_CFG n) 1 0, modePend := none, integ := false }
    mdbCmdEnd (mdbErrShow s1 n) n 0

/-- The buffer whose frame is on the bus. -/
def mdbOnBus (s : State) (n : Nat) : Option Nat :=
  [0, 1, 2].find? fun b => match mdbTb (mdb s n) b with
    | some t => t.onBus
    | none => false

/-- Takes buffer `b` off the bus, its frame staying in the buffer; TXD returns to the recessive level (R312). -/
def mdbOff (s : State) (n b : Nat) : State :=
  let s1 := mdbPins (mdbSetTb s n b ((mdbTb (mdb s n) b).map fun t => { t with onBus := false })) n true
  let s2 := if b = 0 then gateEntryLoc s1 (256 + n) 2 1 else s1
  putB s2 (MDB_STATUS n) 8 false

/-- Writes `STATUS` of the ring record in slot `idx` (R320). -/
def mdbStatus (s : State) (n idx st : Nat) : State :=
  (fabWrite s 5 ((getR s (MDB_TX_BASE n)).toNat + 128 * idx + 12) (leBytes 4 (0x80000000 + st)) true).1

/-- A ring frame ends ABORTED (R319). Log entry 85 (DEDUCED). -/
def mdbAborted (s : State) (n b : Nat) (t : MdbBuf) : State :=
  bump (mdbStatus (mdbSetTb s n b none) n t.idx 4) (MDB_Counters n 15)

/-- An ABORTED ending falls due: it waits while the frame is on the bus (R319). Log entry 85 (DEDUCED). -/
def mdbEndDue (s : State) (n b : Nat) : State :=
  match mdbTb (mdb s n) b with
  | some t => if t.onBus then mdbSetTb s n b (some { t with pend := true }) else mdbAborted s n b t
  | none => s

/-- The endings that waited for a transmission which did not succeed (R319). -/
def mdbPending (s : State) (n b : Nat) : State :=
  if b = 0 then
    match mdbGate s n with
    | some g => match g.pend with
      | some code => itemEndExit (mdbSetTb (gateEntryDrop s (256 + n) g.tag) n 0 none) g.tag code
      | none => s
    | none => s
  else match mdbTb (mdb s n) b with
    | some t => if t.pend then mdbAborted s n b t else s
    | none => s

/-- A frame on the bus is cut and stays in its buffer. -/
def mdbCut (s : State) (n : Nat) : State :=
  match mdbOnBus s n with
  | some b => mdbPending (mdbOff s n b) n b
  | none => s

/-- STOP, or `EN` written 0 (R323). -/
def mdbStop (n : Nat) (s : State) : State :=
  mdbErrShow (mdbMod (mdbPins (mdbSetC (mdbCut s n) n 0) n true) n fun p => { p with modePend := none, integ := false }) n

/-- The STOP command. -/
def mdbStopCmd (n : Nat) (s : State) : State :=
  if mdbC s n = 0 then mdbCmdEnd s n 3 else mdbCmdEnd (mdbStop n s) n 0

/-- RECOVER, which the host, the MGP and the SSP alone write (R323). Log entry 166 (DEDUCED). -/
def mdbRecover (m : Master) (n : Nat) (s : State) : State :=
  if m = mDebug then deny s errDeniedField m (MDB_CMD n) true
  else if mdbC s n = 3 then mdbCmdEnd (mdbSetC s n 4) n 0 else mdbCmdEnd s n 3

/-- ABORT: mask bits 1 and 2 for TB1 and TB2; bit 0 is ignored (R319). Log entry 85 (DEDUCED). -/
def mdbAbort (n mask : Nat) (s : State) : State :=
  let s1 := if mask.testBit 1 then mdbEndDue s n 1 else s
  let s2 := if mask.testBit 2 then mdbEndDue s1 n 2 else s1
  mdbCmdEnd s2 n 0

/-- A write of `MDB.CMD` (R328). Each command completes in its own step. Log entry 20 (DEDUCED). -/
def mdbCmd (m : Master) (n : Nat) (v : Word) (s : State) : State :=
  match fld v 2 0 with
  | 1 => mdbStartCmd n s
  | 2 => mdbStopCmd n s
  | 3 => mdbRecover m n s
  | 4 => mdbAbort n (fld v 10 8) s
  | _ => mdbCmdEnd s n 3

/-- Whether the register at `off` accepts writes only in CONFIG (R328). -/
def mdbCfgOff (off : Nat) : Bool :=
  (decide (0x040 ≤ off) && decide (off < 0x050)) || decide (off = 0x068) || (decide (0x100 ≤ off) && decide (off < 0x300))

/-- A write of a configuration register (R324, R328). -/
def mdbCfgWrite (m : Master) (pg : Page) (off : Nat) (v : Word) (s : State) : State :=
  let n := pg.inst
  let d := regDesc .MDB n off
  let old := getR s (pg.base + off)
  let new := plainValue d 0 old v
  if mdbC s n = 0 then
    let s1 := plainWrite d m pg off v s
    if off = 0x040 then mdbMod s1 n fun p => { p with mode := fld new 1 0 } else s1
  else if off = 0x040 ∧ mdbC s n = 2 ∧ fld new 31 2 = fld old 31 2 ∧ fld new 1 0 ≤ 1 ∧ fld old 1 0 ≤ 1 then
    mdbMod (setR s (pg.base + off) new) n fun p => { p with
      modePend := if fld new 1 0 = p.mode then none else some (fld new 1 0) }
  else if new = old then s
  else recErr s pg.base errLocked m (pg.base + off) true

/-- `SOFT_RST` (R323): as STOP, buffers and FIFO emptied; the released imperatives that TB0 and the Gate entry held are
offered no more and end at their hold limit. -/
def mdbSoft (n : Nat) (s : State) : State :=
  let s1 := mdbStop n s
  let s2 := gateEntryLoc (gateEntryLoc s1 (256 + n) 1 3) (256 + n) 0 3
  { s2 with mdb := sdel s2.mdb n }

/-- Eleven consecutive recessive bits end integration (R323), and the bus integration after a protocol exception (R311). -/
def mdbIntegrated (n : Nat) (s : State) : State :=
  if mdbC s n = 1 then mdbSetC s n 2 else mdbMod s n fun p => { p with integ := false }

/-- Recovery ends (R323). Log entry 84 (PRESUMED). -/
def mdbRecovered (n : Nat) (s : State) : State :=
  if mdbC s n = 4 then
    raiseIrq (mdbErrShow (mdbMod (mdbSetC s n 2) n fun p => { p with tec := 0, rec_ := 0 }) n) (MDB n) 6
  else s

/-- Bus-off (R323): TXD recessive, the frame on the bus cut. Log entry 84 (PRESUMED). -/
def mdbBusOff (s : State) (n : Nat) : State :=
  raiseIrq (mdbErrShow (mdbSetC (mdbCut (bump s (MDB_Counters n 5)) n) n 3) n) (MDB n) 5

/-! Loading (R317). -/

/-- The sieve's judgement of a frame record, while `GUARDED` is 1. -/
def mdbSieve (s : State) (n : Nat) (r : List Byte) : State × Bool :=
  if getB s (MDB_GUARDED n) 0 then sieveJudge s (256 + n) 25 r false (8 + engineOf s (256 + n)) else (s, true)

/-- Counts and raises. -/
def mdbNote (s : State) (n k i : Nat) : State := raiseIrq (bump s (MDB_Counters n k)) (MDB n) i

/-- A freshly loaded buffer. -/
def mdbBuf (s : State) (n : Nat) (r : List Byte) (idx life : Nat) : MdbBuf :=
  { rec_ := r, idx := idx, life := life, at_ := tense s, order := (mdb s n).nextOrder, attempts := 0, onBus := false, pend := false }

/-- Loads TB0 from the Gate entry, passing over records that fail the exit check. -/
def mdbLoadGate (s : State) (n fuel : Nat) : State :=
  match fuel with
  | 0 => s
  | fuel + 1 =>
    match (sget s.gate.entry (256 + n) []).find? fun g => decide (g.loc = 0) with
    | none => s
    | some g =>
      if crc32c g.bytes ≠ g.check then
        mdbLoadGate (itemEndExit (mdbNote (gateEntryDrop s (256 + n) g.tag) n 12 8) g.tag 0x12) n fuel
      else
        let s1 := gateEntrySet s (256 + n) g.tag fun e => { e with loc := 1 }
        mdbMod (mdbSetTb s1 n 0 (some (mdbBuf s1 n [] 0 0))) n fun p => { p with nextOrder := p.nextOrder + 1 }

/-- Loads TB1 or TB2 from the ring tail, passing over records that end (R317, R320). -/
def mdbLoadRing (s : State) (n b fuel : Nat) : State :=
  match fuel with
  | 0 => s
  | fuel + 1 =>
    let sz := getF s (MDB_TX_SIZE n) 12 0
    let tl := getF s (MDB_TX_TAIL n) 11 0
    if sz = 0 ∨ tl = getF s (MDB_TX_HEAD n) 11 0 then s
    else
      let r := fabRead s 5 ((getR s (MDB_TX_BASE n)).toNat + 128 * tl) 128 true
      let s1 := putF r.1 (MDB_TX_TAIL n) 11 0 ((tl + 1) % sz)
      let slot := r.2.2
      let fr := slice slot 16 (8 + mdbLen (slice slot 16 8))
      if r.2.1 ≠ .ok ∨ (crc32c (slot.take 8 ++ fr)).toNat ≠ leAt slot 8 4 then
        mdbLoadRing (mdbNote (mdbStatus s1 n tl 1) n 12 8) n b fuel
      else if !(mdbWellFormed (getB s (MDB_CFG n) 3) fr) then
        mdbLoadRing (bump (mdbStatus s1 n tl 3) (MDB_Counters n 14)) n b fuel
      else
        let j := mdbSieve s1 n fr
        if j.2 then
          mdbMod (mdbSetTb j.1 n b (some (mdbBuf j.1 n fr tl (leAt slot 4 2)))) n fun p => { p with nextOrder := p.nextOrder + 1 }
        else mdbLoadRing (mdbNote (mdbStatus j.1 n tl 2) n 13 9) n b fuel

/-- An empty buffer loads, in an enabled controller (R46, R317). -/
def mdbLoad (n b : Nat) (s : State) : State :=
  if getB s (BLK_CTRL (MDB n)) 0 = false ∨ mdbLoaded s n b = true then s
  else if b = 0 then mdbLoadGate s n ((sget s.gate.entry (256 + n) []).length)
  else mdbLoadRing s n b (getF s (MDB_TX_SIZE n) 12 0)

/-! On the bus (R318, R319, R323). -/

/-- Whether buffer `b` contends: it is loaded, and `FD_EN` is 1 where it holds an FD frame (R311, R318). -/
def mdbContends (s : State) (n b : Nat) : Bool :=
  mdbLoaded s n b && (getB s (MDB_CFG n) 3 || !(mdbFdf (mdbRec s n b)))

/-- The better of two contenders (R318). -/
def mdbBetter (s : State) (n : Nat) (x : Option Nat) (b : Nat) : Option Nat :=
  if !(mdbContends s n b) then x
  else match x with
    | none => some b
    | some a =>
      if getB s (MDB_CFG n) 5 then
        if a = 0 then some a
        else if ((mdbTb (mdb s n) b).map (·.order)).getD 0 < ((mdbTb (mdb s n) a).map (·.order)).getD 0 then some b else some a
      else if mdbKey (mdbRec s n b) < mdbKey (mdbRec s n a) then some b else some a

/-- A start of arbitration (R318): the chosen frame contends, and its SOF drives TXD dominant, but in LOOPBACK (R312, R324). -/
def mdbArbitrate (n : Nat) (s : State) : State :=
  let md := (mdb s n).mode
  if mdbC s n ≠ 2 ∨ (md ≠ 0 ∧ md ≠ 3) ∨ (mdb s n).integ = true ∨ (mdbOnBus s n).isSome = true then s
  else match [0, 1, 2].foldl (mdbBetter s n) none with
    | none => s
    | some b =>
      let s1 := mdbSetTb s n b ((mdbTb (mdb s n) b).map fun t => { t with onBus := true, attempts := min 65535 (t.attempts + 1) })
      let s2 := if b = 0 then gateEntryLoc s1 (256 + n) 1 2 else s1
      mdbMod (mdbPins (putB s2 (MDB_STATUS n) 8 true) n (decide (md = 3))) n fun p => { p with sof := tense s }

/-- The filter that decides a frame (R322): `none` matches nothing. -/
def mdbFilter (s : State) (n : Nat) (r : List Byte) : Option Nat :=
  (List.range 64).find? fun f =>
    let w0 := getR s (MDB_FILTER_word_0 n f)
    let w1 := getR s (MDB_FILTER_word_1 n f)
    bit w0 31 && (!(bit w1 31) || (bit w0 29 == mdbIde r)) &&
      decide (Nat.land (Nat.xor (mdbId r) (fld w0 28 0)) (fld w1 28 0) = 0)

/-- Interrupt bit 1: receive FIFO not empty. -/
def mdbFifoShow (s : State) (n : Nat) : State := setRaw s (MDB n) 1 (decide ((mdb s n).fifo ≠ []))

/-- Moves the FIFO head into the receive ring when the ring has room (R320, R321). -/
def mdbDrain (n : Nat) (s : State) : State :=
  let sz := getF s (MDB_RX_SIZE n) 12 0
  let hd := getF s (MDB_RX_HEAD n) 11 0
  match (mdb s n).fifo with
  | [] => s
  | x :: rest =>
    if sz = 0 ∨ (hd + 1) % sz = getF s (MDB_RX_TAIL n) 11 0 then s
    else
      let h := leBytes 8 x.time.toNat ++ [b8 x.filter, b8 x.flags, 0, 0]
      let slot := h ++ leBytes 4 (crc32c (h ++ x.rec_)).toNat ++ x.rec_
      let r := fabWrite s 5 ((getR s (MDB_RX_BASE n)).toNat + 128 * hd) slot true
      mdbFifoShow (mdbMod (putF r.1 (MDB_RX_HEAD n) 11 0 ((hd + 1) % sz)) n fun p => { p with fifo := rest }) n

/-- A valid frame meets the filters and the FIFO (R321, R322). -/
def mdbAccept (s : State) (n : Nat) (r : List Byte) (time : DWord) (flags : Nat) : State :=
  let f := mdbFilter s n r
  let rejects := match f with
    | some k => getB s (MDB_FILTER_word_0 n k) 30
    | none => getB s (MDB_CFG n) 6
  if rejects then bump s (MDB_Counters n 2)
  else
    let s1 := if 32 ≤ (mdb s n).fifo.length then mdbDrain n s else s
    if 32 ≤ (mdb s1 n).fifo.length then mdbNote s1 n 3 2
    else
      let x : MdbRx := { rec_ := r, time := time, filter := f.getD 64, flags := flags }
      mdbFifoShow (mdbMod (bump s1 (MDB_Counters n 1)) n fun p => { p with fifo := p.fifo ++ [x] }) n

/-- Delay compensation of a frame sent with BRS (R314): `LOOP_DELAY` is the first edge at RXD that is no earlier than
`EDGE_MASK`. Log entry 167 (DEDUCED). -/
def mdbLoop (s : State) (n : Nat) (r : List Byte) (edges : List (BitVec 7)) : State :=
  if getB s (MDB_DATA_TIMING n) 31 && mdbFdf r && mdbBrs r then
    match edges.find? fun e => decide (getF s (MDB_DELAY_COMP n) 6 0 ≤ e.toNat) with
    | none => s
    | some d =>
      let s1 := putF s (MDB_STATUS n) 22 16 d.toNat
      if 127 < d.toNat + getF s (MDB_DELAY_COMP n) 22 16 ∧ getB s (MDB_STATUS n) 23 = false then
        raiseIrq (putB s1 (MDB_STATUS n) 23 true) (MDB n) 12
      else s1
  else s

/-- `RX_TIME` of a frame whose SOF was sampled at `h` half nanoseconds of the CORE copy: the copy at the edge of the 80 MHz
protocol clock there (R321). Log entry 168 (DESIGN CHOICE). -/
def mdbTime (h : Nat) : DWord :=
  BitVec.ofNat 64 ((h - (h + 25 - Config.mdbPhase.toNat % 25) % 25) / 2)

/-- Half nanoseconds from the start of a nominal bit to its sample point (R313). -/
def mdbSampleAt (s : State) (n : Nat) : Nat :=
  let a := getR s (MDB_ARB_TIMING n)
  25 * (fld a 31 23 + 1) * (fld a 7 0 + 2)

/-- The frame on the bus is sent (R319). In LOOPBACK it is received too, and TXD showed none of it (R324). -/
def mdbSent (n : Nat) (edges : List (BitVec 7)) (s : State) : State :=
  match mdbOnBus s n with
  | none => s
  | some b =>
    let r := mdbRec s n b
    let loop := decide ((mdb s n).mode = 3)
    let s1 := mdbErrShow (mdbMod s n fun p => { p with tec := p.tec - 1 }) n
    let s2 := mdbLoop (mdbNote s1 n 0 0) n r edges
    let s3 := if loop then mdbAccept s2 n r (mdbTime (2 * (mdb s n).sof.toNat + mdbSampleAt s n)) 2 else emit s2 (.mdbFrame n r)
    let s4 := mdbPins (putB s3 (MDB_STATUS n) 8 false) n true
    if b = 0 then
      match mdbGate s n with
      | some g => itemTransmitted (mdbSetTb (gateEntryDrop s4 (256 + n) g.tag) n 0 none) g.tag
      | none => mdbSetTb s4 n 0 none
    else
      let idx := ((mdbTb (mdb s n) b).map (·.idx)).getD 0
      mdbStatus (mdbSetTb s4 n b none) n idx 0

/-- Code of `LAST_ERR` and counter of each error (R328). -/
def mdbErrCode (e : MdbErr) : Nat × Nat :=
  match e with
  | .arbLost => (0, 4) | .stuff => (1, 6) | .form => (2, 7) | .ack => (3, 8) | .bit1 => (4, 9) | .bit0 => (5, 9)
  | .crc => (6, 10) | .pex => (7, 11)

/-- A recessive res bit after FDF (R311): the protocol exception, or a form error while `PEX_EN` is 0. -/
def mdbPexOr (s : State) (n : Nat) (e : MdbErr) : MdbErr :=
  if e = .pex ∧ getB s (MDB_CFG n) 4 = false then .form else e

/-- The error flag that a node in NORMAL operation sends (R311, R324). -/
def mdbFlag (s : State) (n : Nat) : State :=
  if (mdb s n).mode = 0 then emit s (.mdbErrorFlag n (decide (mdbFault s n = 0))) else s

/-- Records an error in `LAST_ERR` and counts it; a protocol exception starts bus integration (R311).
Log entry 84 (PRESUMED). -/
def mdbErr (s : State) (n : Nat) (e : MdbErr) (inData : Bool) : State :=
  let c := mdbErrCode e
  let s1 := bump s (MDB_Counters n c.2)
  let s2 := if c.1 = 0 then s1 else setR s1 (MDB_LAST_ERR n) (w32 (nb inData * 16 + c.1))
  if e = .pex then mdbMod (raiseIrq s2 (MDB n) 7) n fun p => { p with integ := true } else s2

/-- The frame on the bus loses arbitration or meets an error (R319, R323). -/
def mdbFailed (n : Nat) (why0 : MdbErr) (inData exempt : Bool) (edges : List (BitVec 7)) (s : State) : State :=
  match mdbOnBus s n with
  | none => s
  | some b =>
    let why := mdbPexOr s n why0
    let still := decide (why = .arbLost ∨ why = .pex)
    let s0 := mdbLoop s n (mdbRec s n b) edges
    let s1 := mdbErr (if still then s0 else mdbFlag s0 n) n why inData
    let tec := (mdb s n).tec + (if still || exempt then 0 else 8)
    let s2 := mdbErrShow (mdbMod s1 n fun p => { p with tec := tec }) n
    if 255 < tec then mdbBusOff s2 n else mdbPending (mdbOff s2 n b) n b

/-- `LIFE_MS` has passed since the load (R319). -/
def mdbLife (n b : Nat) (s : State) : State :=
  match (if b = 0 then none else mdbTb (mdb s n) b) with
  | some t =>
    if t.life = 0 then s else mdbEndDue (advanceNs s (t.at_.toNat + t.life * 1000000)) n b
  | none => s

/-- A frame on the bus ends at this receiver (R311, R321, R324): a valid one is acknowledged in NORMAL and in RESTRICTED.
Log entry 152 (PRESUMED). -/
def mdbReceive (n : Nat) (r : List Byte) (esi : Bool) (err : Option MdbErr) (inData heavy : Bool) (ago : Word) (s : State) : State :=
  let md := (mdb s n).mode
  if mdbC s n ≠ 2 ∨ md = 3 ∨ (mdb s n).integ = true ∨ (mdbOnBus s n).isSome = true then s else
  let e : Option MdbErr := if mdbFdf r && !(getB s (MDB_CFG n) 3) then some .pex else err
  let counts := decide (md = 0)
  match e.map (mdbPexOr s n) with
  | some .pex => mdbErr s n .pex inData
  | some .arbLost => s
  | some x =>
    let s1 := mdbErr (mdbFlag s n) n x inData
    if counts then mdbErrShow (mdbMod s1 n fun p => { p with rec_ := p.rec_ + (if heavy then 8 else 1) }) n else s1
  | none =>
    if !(mdbWellFormed true r) then s
    else
      let big := decide (127 < (mdb s n).rec_)
      let fv := fresh s
      let s1 := if counts && big then fv.2 else s
      let rec2 := if big then 119 + fv.1.toNat % 9 else (mdb s n).rec_ - 1
      let s2 := if counts then mdbErrShow (mdbMod s1 n fun p => { p with rec_ := rec2 }) n else s1
      let s3 := if md ≤ 1 then emit s2 (.mdbAck n) else s2
      mdbAccept s3 n r (mdbTime (2 * ((coreTense s).toNat - ago.toNat))) (nb esi)

/-- A pending mode change takes effect at bus idle (R324). -/
def mdbModeDone (n : Nat) (s : State) : State :=
  match (mdb s n).modePend with
  | some md => if mdbC s n = 2 ∧ (mdbOnBus s n).isNone = true then mdbMod s n fun p => { p with mode := md, modePend := none } else s
  | none => s

/-- The wake detector sees its pattern in DOZE (R326). -/
def mdbWoken (n : Nat) (s : State) : State :=
  if getB s (MDB_CFG n) 8 && decide (getF s PWR_STATUS 1 0 = 1) then wakeSource 11 (raiseIrq s (MDB n) 11) else s

/-- `STATUS` as it reads: the buffers loaded are shown live. -/
def mdbStatusRead (s : State) (n : Nat) : Word :=
  setFld (getR s (MDB_STATUS n)) 12 10 (nb (mdbLoaded s n 0) + 2 * nb (mdbLoaded s n 1) + 4 * nb (mdbLoaded s n 2))

/-- `ERR_CNT` as it reads. -/
def mdbErrCnt (s : State) (n : Nat) : Word :=
  let p := mdb s n
  w32 (nb (decide (128 ≤ p.rec_)) * 0x80000000 + p.rec_ % 128 * 0x1000000 + p.tec % 256)

/-- `TXBUF[b]` as it reads. -/
def mdbTxbuf (s : State) (n b : Nat) : Word :=
  if mdbLoaded s n b then
    match mdbTb (mdb s n) b with
    | some t => w32 (0x80000000 + nb t.onBus * 0x40000000 + t.attempts)
    | none => 0x80000000
  else 0

/-! The commands. -/

/-- `MDB.CMD` START (R313). -/
def execMdbStart (m : Master) (n : Pe) (s : State) : Res := .next (gatedWrite m (MDB_CMD n.val) (mdbStartCmd n.val) s)

/-- `MDB.CMD` STOP (R323). -/
def execMdbStop (m : Master) (n : Pe) (s : State) : Res := .next (gatedWrite m (MDB_CMD n.val) (mdbStopCmd n.val) s)

/-- `MDB.CMD` RECOVER (R323). -/
def execRecover (m : Master) (n : Pe) (s : State) : Res := .next (gatedWrite m (MDB_CMD n.val) (mdbRecover m n.val) s)

/-- `MDB.CMD` ABORT (R319). -/
def execAbort (m : Master) (n : Pe) (mask : BitVec 3) (s : State) : Res :=
  .next (gatedWrite m (MDB_CMD n.val) (mdbAbort n.val mask.toNat) s)

/-- Integration completes (R323). -/
def execIntegrationComplete (n : Pe) (s : State) : Res := .next (mdbIntegrated n.val s)

/-- Recovery completes (R323). -/
def execRecoveryComplete (n : Pe) (s : State) : Res := .next (mdbRecovered n.val s)

/-- A buffer loads (R317). -/
def execTxBufferLoad (n : Pe) (b : Fin 3) (s : State) : Res := .next (mdbLoad n.val b.val s)

/-- Arbitration starts (R318). -/
def execArbitrationStart (n : Pe) (s : State) : Res := .next (mdbArbitrate n.val s)

/-- A frame is sent (R319). -/
def execMdbFrameSent (n : Pe) (edges : List (BitVec 7)) (s : State) : Res := .next (mdbSent n.val edges s)

/-- A frame loses arbitration or meets an error (R319). -/
def execMdbFrameFailed (n : Pe) (why : MdbErr) (inData exempt : Bool) (edges : List (BitVec 7)) (s : State) : Res :=
  .next (mdbFailed n.val why inData exempt edges s)

/-- A ring frame's life expires (R319). -/
def execMdbLifeExpiry (n : Pe) (b : Fin 3) (s : State) : Res := .next (mdbLife n.val b.val s)

/-- A frame is received (R321). -/
def execMdbFrameReceive (n : Pe) (rec_ : List Byte) (esi : Bool) (err : Option MdbErr) (inData heavy : Bool) (ago : Word)
    (s : State) : Res := .next (mdbReceive n.val rec_ esi err inData heavy ago s)

/-- The FIFO head drains (R321). -/
def execRxFifoDrain (n : Pe) (s : State) : Res := .next (mdbDrain n.val s)

/-- A mode change takes effect (R324). -/
def execMdbModeChange (n : Pe) (s : State) : Res := .next (mdbModeDone n.val s)

/-- The wake detector fires (R326). -/
def execMdbWake (n : Pe) (s : State) : Res := .next (mdbWoken n.val s)

/-- `MDB.LAST_ERR` reads and clears (R328). -/
def execLastErrRead (m : Master) (n : Pe) (s : State) : Res :=
  .next (gatedRead m (MDB_LAST_ERR n.val) (fun t => (setR t (MDB_LAST_ERR n.val) 0, getR t (MDB_LAST_ERR n.val))) s)

end Sys2Proof.Machine
end

