-- ==== Sys2Proof/Machine/Plk.lean ====
section
/-! DEFINITION. The Period Link protocol and controllers (08, 09). -/

namespace Sys2Proof.Machine

open Reg

/-- Controller `n` beside its registers. -/
def plk (s : State) (n : Nat) : PlkSt := sget s.plk n PlkSt.init

/-- Changes controller `n`. -/
def plkMod (s : State) (n : Nat) (f : PlkSt → PlkSt) : State := { s with plk := smod s.plk n PlkSt.init f }

/-- `STATUS.CSTATE`: 0 CONFIG, 1 READY, 2 RUN (R297). -/
def plkC (s : State) (n : Nat) : Nat := getF s (PLK_STATUS n) 1 0

/-- `STATUS.PSTATE`: 0 OFF, 1 LISTEN, 2 INTEGRATE, 3 COLDSTART, 4 ACTIVE, 5 PASSIVE (R270). -/
def plkP (s : State) (n : Nat) : Nat := getF s (PLK_STATUS n) 6 4

/-- The current mode. -/
def plkMode (s : State) (n : Nat) : Nat := getF s (PLK_STATUS n) 9 8

/-- The cycle counter. -/
def plkCycle (s : State) (n : Nat) : Nat := getF s (PLK_STATUS n) 31 16

/-- The node's ID. -/
def plkId (s : State) (n : Nat) : Nat := getF s (PLK_NODE_CFG n) 5 0

/-- The bit time in nanoseconds (R248). -/
def plkBit (s : State) (n : Nat) : Nat := if getB s (PLK_NODE_CFG n) 8 then 40 else 100

/-- The macrotick in nanoseconds (R258). -/
def plkTmt (s : State) (n : Nat) : Nat := getF s (PLK_TIMING n) 10 0

/-- The cycle length in macroticks. -/
def plkLen (s : State) (n : Nat) : Nat := getF s (PLK_TIMING n) 31 16

/-- Slots and NIT start of mode `m` (R259). -/
def plkN (s : State) (n m : Nat) : Nat := getF s (PLK_MODE_CFG n m) 22 16
/-- Start of the NIT of mode `m`. -/
def plkE (s : State) (n m : Nat) : Nat := getF s (PLK_MODE_CFG n m) 15 0

/-- Start of slot `k` of mode `m`; slot `N` starts at the NIT (R259, R261). -/
def plkStart (s : State) (n m k : Nat) : Nat :=
  if k < plkN s n m then getF s (PLK_SCHED n m k) 31 16 else plkE s n m

/-- Action point offset of a slot. -/
def plkAct (s : State) (n m k : Nat) : Nat := getF s (PLK_SCHED n m k) 15 0

/-- Owner of a slot. -/
def plkOwner (s : State) (n m k : Nat) : Nat := getF s (PLK_SCHED n m k + 4) 29 24

/-- Largest payload of a slot. -/
def plkPmax (s : State) (n m k : Nat) : Nat := getF s (PLK_SCHED n m k + 4) 23 16

/-- Bit `k` of the 64-bit node map at register `a`. -/
def nodeBit (s : State) (a k : Nat) : Bool := (getR64 s a).toNat.testBit k

/-- Duration of a transmission with `p` payload bytes, in macroticks (R261). -/
def plkDur (s : State) (n p : Nat) : Nat :=
  let t := (10 * (22 + p) + 2) * plkBit s n
  (t + plkTmt s n - 1) / plkTmt s n

/-- Whether channel A (`false`) or B is enabled. -/
def plkChanOn (s : State) (n : Nat) (b : Bool) : Bool := getB s (PLK_NODE_CFG n) (if b then 10 else 9)

/-- Channel status register of a channel. -/
def plkCh (n : Nat) (b : Bool) : Nat := if b then PLK_CH_STATUS_B n else PLK_CH_STATUS_A n

/-- Channel counter `k`. -/
def plkChCnt (n : Nat) (b : Bool) (k : Nat) : Nat :=
  if b then PLK_Channel_B_counters n k else PLK_Channel_A_counters n k

/-- The first owned slot of node `id` in mode `m` (R266). -/
def plkFirst (s : State) (n m id : Nat) : Option Nat :=
  (List.range (plkN s n m)).find? fun k => decide (plkOwner s n m k = id)

/-- Whether the guardian's copy names a slot of mode `m` (R287). -/
def plkOwns (s : State) (n m : Nat) : Bool :=
  (List.range 64).any fun k => decide (getF s (PLK_GUARD n m k) 15 0 ≠ 0)

/-- Half nanoseconds of `k` macroticks. Log entry 81 (DEDUCED). -/
def plkHalf (s : State) (n k : Nat) : Nat := 2 * plkTmt s n * k

/-- Advances the clock to the local instant of macrotick `k` of the present cycle. Log entry 81 (DEDUCED). -/
def plkAt (s : State) (n k : Nat) : State := advanceHalf s ((plk s n).t0 + plkHalf s n k)

/-- Changes the protocol state; a change sets interrupt bit 0, and the node's own membership bit is 1 exactly
in ACTIVE (R276, R310). -/
def plkSetP (s : State) (n p : Nat) : State :=
  if plkP s n = p then s
  else
    let id := plkId s n
    let s1 := putF s (PLK_STATUS n) 6 4 p
    let a := if 32 ≤ id then PLK_MEMBERS_HI n else PLK_MEMBERS_LO n
    raiseIrq (putB s1 a (id % 32) (decide (p = 4) && decide (id ≠ 0))) (PLK n) 0

/-- Raises or clears SLOT_REASSIGNED (R286, R287). -/
def plkReassigned (s : State) (n : Nat) (v : Bool) : State :=
  let s1 := putB s (PLK_STATUS n) 10 v
  if v && !(getB s (PLK_STATUS n) 10) then raiseIrq s1 (PLK n) 1 else s1

/-- Counts a node counter and raises an interrupt bit. -/
def plkNote (s : State) (n k i : Nat) : State := raiseIrq (bump s (PLK_Node_counters n k)) (PLK n) i

/-! Parameters and commands (R292–R297). -/

/-- Check 1 of R295. Log entry 83 (DEDUCED). -/
def plkParamOk (s : State) (n : Nat) : Bool :=
  let t := plkTmt s n
  let c := plkLen s n
  let pr := getF s (PLK_WINDOWS n) 7 0
  let g := getF s (PLK_WINDOWS n) 15 8
  let sy := (getR64 s (PLK_SYNC_NODES_LO n)).toNat
  let co := (getR64 s (PLK_COLD_NODES_LO n)).toNat
  let cnt1 := ((List.range 64).filter fun k => sy.testBit k).length
  decide (100 ≤ t) && decide (t ≤ 1000) && decide (t % 25 = 0) && decide (1 ≤ c) &&
  decide (250000 ≤ c * t) && decide (c * t ≤ 64000000) && decide (1 ≤ pr) && decide (pr < g) &&
  decide (1 ≤ getF s (PLK_WINDOWS n) 31 16) && decide (getF s (PLK_DELTA n) 10 0 ≤ 2000) &&
  decide (getF s (PLK_DELTA n) 26 16 ≤ 2000) && decide (1 ≤ plkId s n) && decide (sy % 2 = 0) &&
  decide (co % 2 = 0) && decide (1 ≤ cnt1) && decide (cnt1 ≤ 16) && decide (Nat.land co sy = co) &&
  (plkChanOn s n false || plkChanOn s n true)

/-- Whether slot `k` of mode `m` meets R261. -/
def plkSlotOk (s : State) (n m k : Nat) : Bool :=
  let st := plkStart s n m k
  let nx := plkStart s n m (k + 1)
  let g := getF s (PLK_WINDOWS n) 15 8
  let w1 := getR s (PLK_SCHED n m k + 4)
  (decide (k ≠ 0) || decide (st = 0)) && decide (st < nx) && decide (g ≤ plkAct s n m k) &&
  decide (plkPmax s n m k ≤ 238) && decide (fld w1 31 30 = 0) && decide (fld w1 15 0 = 0) &&
  decide (plkAct s n m k + plkDur s n (plkPmax s n m k) + g ≤ nx - st)

/-- Whether mode `m` as a whole meets R259 and R261. Log entry 83 (DEDUCED). -/
def plkModeOk (s : State) (n m : Nat) : Bool :=
  let c := plkLen s n
  let e := plkE s n m
  let co := (getR64 s (PLK_COLD_NODES_LO n)).toNat
  decide (e ≤ c) && decide (getF s (PLK_WINDOWS n) 7 0 + 16 ≤ c - e) && decide (4000 ≤ (c - e) * plkTmt s n) &&
  (decide (m ≠ 0) || (List.range 64).all fun k => !(co.testBit k) || (plkFirst s n 0 k).isSome)

/-- The first mode and slot that break R261 (check 2 of R295). Log entry 83 (DEDUCED). -/
def plkSchedBad (s : State) (n : Nat) : Option (Nat × Nat) :=
  (List.range 4).foldl (fun r m => match r with
    | some x => some x
    | none =>
      if plkN s n m = 0 ∨ 64 < plkN s n m then some (m, 0)
      else match (List.range (plkN s n m)).find? fun k => !(plkSlotOk s n m k) with
        | some k => some (m, k)
        | none => if plkModeOk s n m then none else some (m, 0)) none

/-- The guardian entry that R295 asks for. -/
def plkGuardWant (s : State) (n m k : Nat) : Word :=
  if k < plkN s n m ∧ plkOwner s n m k = plkId s n then
    let g := getF s (PLK_WINDOWS n) 15 8
    let a := plkStart s n m k + plkAct s n m k
    w32 ((a - g) * 65536 + (a + plkDur s n (plkPmax s n m k) + g))
  else 0

/-- The first guardian entry that disagrees with the schedule (check 3 of R295). Log entry 83 (DEDUCED). -/
def plkGuardBad (s : State) (n : Nat) : Option (Nat × Nat) :=
  ((List.range 256).map fun i => (i / 64, i % 64)).find? fun e =>
    decide (getR s (PLK_GUARD n e.1 e.2) ≠ plkGuardWant s n e.1 e.2)

/-- Ends a command with status `st`, failing mode and slot (R309). -/
def plkCmdEnd (s : State) (n st m k : Nat) : State :=
  raiseIrq (setR s (PLK_CMD_RESULT n) (w32 (0x80000000 + st * 0x10000000 + m * 0x1000000 + k * 0x10000))) (PLK n) 10

/-- COMMIT (R295). Log entry 83 (DEDUCED). -/
def plkCommit (n : Nat) (s : State) : State :=
  if plkC s n ≠ 0 then plkCmdEnd s n 5 0 0
  else if !(plkParamOk s n) then plkCmdEnd s n 2 0 0
  else match plkSchedBad s n with
    | some e => plkCmdEnd s n 3 e.1 e.2
    | none => match plkGuardBad s n with
      | some e => plkCmdEnd s n 4 e.1 e.2
      | none => plkCmdEnd (putF s (PLK_STATUS n) 1 0 1) n 0 0 0

/-- UNCOMMIT (R297). -/
def plkUncommit (n : Nat) (s : State) : State :=
  if plkC s n = 1 then plkCmdEnd (putF s (PLK_STATUS n) 1 0 0) n 0 0 0 else plkCmdEnd s n 5 0 0

/-- Length of slot 0 of mode 0, in macroticks (R261). Log entry 81 (DEDUCED). -/
def plkL0 (s : State) (n : Nat) : Nat := plkStart s n 0 1

/-- Full and back-off listen timers in macroticks (R270, R273). -/
def plkBackoff (s : State) (n : Nat) : Nat := getF s (PLK_WINDOWS n) 31 16 + plkId s n * plkL0 s n
/-- The full listen time. -/
def plkFull (s : State) (n : Nat) : Nat := plkLen s n + plkBackoff s n

/-- Enters LISTEN; a cold-start node's timer of `t` macroticks starts after `bits` idle bit times, and a mode-change request
lapses with its cycle (R270, R273, R304). -/
def plkListen (s : State) (n t bits : Nat) : State :=
  let d := plkHalf s n t
  let tm := if nodeBit s (PLK_COLD_NODES_LO n) (plkId s n) then
    some (d, some (2 * tenseNs s + 2 * bits * plkBit s n + d)) else none
  plkMod (putB (plkSetP s n 1) (PLK_STATUS n) 11 false) n fun p => { p with
    timer := tm, taken := [], fired := [], inNit := false, whole := false, mcNext := none, mcNow := none }

/-- The line has been active: a running listen timer restarts when the line is next idle (R273). -/
def plkActivity (s : State) (n : Nat) : State :=
  plkMod s n fun p => { p with timer := p.timer.map fun t => (t.1, some (2 * tenseNs s + 22 * plkBit s n + t.1)) }

/-- Sets bit `i` of both channels' status. -/
def plkChBoth (s : State) (n i : Nat) (v : Bool) : State :=
  putB (putB s (plkCh n false) i (v && plkChanOn s n false)) (plkCh n true) i (v && plkChanOn s n true)

/-- Changes channel B (`true`) or A beside its registers. -/
def plkChMod (s : State) (n : Nat) (b : Bool) (f : PlkCh → PlkCh) : State :=
  plkMod s n fun p => if b then { p with chB := f p.chB } else { p with chA := f p.chA }

/-- A channel's driver is enabled or disabled, as `CH_STATUS` and the pin show (R290, R309). -/
def plkTxen (s : State) (n : Nat) (b v : Bool) : State :=
  plkChMod (putB s (plkCh n b) 2 v) n b fun c => { c with txen := { c.txen with level := v } }

/-- Both drivers are disabled. -/
def plkOff (s : State) (n : Nat) : State := plkTxen (plkTxen s n false false) n true false

/-- The pins of the enabled channels are driven, from START to STOP, with TXD at 1; otherwise they keep the reset state
(R290, R297). -/
def plkPins (s : State) (n : Nat) (on : Bool) : State :=
  let put (b : Bool) (c : PlkCh) : PlkCh :=
    if on && plkChanOn s n b then { c with txd := ⟨true, true⟩, txen := ⟨true, false⟩ } else { PlkCh.init with last := c.last }
  plkMod s n fun p => { p with chA := put false p.chA, chB := put true p.chB }

/-- A channel's line has read 0 until the half nanosecond `t` (R250). -/
def plkHeardTo (s : State) (n : Nat) (b : Bool) (t : Nat) : State := plkChMod s n b fun c => { c with last := max c.last t }

/-- START (R297): pins driven, protocol state LISTEN (R270, R288). -/
def plkStartCmd (n : Nat) (s : State) : State :=
  if plkC s n = 1 ∧ getB s (BLK_CTRL (PLK n)) 0 = true then
    let s0 := if plkMode s n = 0 then s else raiseIrq s (PLK n) 2
    let s1 := putF s0 (PLK_STATUS n) 31 2 0
    let s2 := setR (setR (putF s1 (PLK_STATUS n) 1 0 2) (PLK_MEMBERS_LO n) 0) (PLK_MEMBERS_HI n) 0
    let s3 := plkMod s2 n fun p => { PlkSt.init with
      back := p.back, chosen := [], fetchNs := max 2000 (getF s (PLK_FETCH_NS n) 15 0) }
    plkCmdEnd (plkListen (plkChBoth (plkPins s3 n true) n 0 true) n (plkFull s n) 0) n 0 0 0
  else plkCmdEnd s n 5 0 0

/-- A frame that reached no receiver returns to the head of its source (R303). -/
def plkReturn (s : State) (n : Nat) (t : PlTx) : State :=
  if t.src = 0 then
    match t.gate with
    | some tag => gateEntryBack (bump s (PLK_Node_counters n 14)) (320 + n) tag
    | none => s
  else if t.src = 1 then
    let sz := getF s (PLK_TX_SIZE n) 12 0
    let s1 := bump s (PLK_Node_counters n 14)
    if (t.idx + 1) % sz = getF s (PLK_TX_TAIL n) 11 0 ∧ (plk s n).back = [] ∧ t.idx ≠ getF s (PLK_TX_HEAD n) 11 0 then putF s1 (PLK_TX_TAIL n) 11 0 t.idx
    else plkMod s1 n fun p => { p with back := t :: p.back }
  else s

/-- Whatever was chosen, or is on the line, returns to its source: the frame on the line to the very head (R303). -/
def plkReturnAll (s : State) (n : Nat) : State :=
  let p := plk s n
  (p.onLine.toList ++ p.chosen).foldr (fun t u => plkReturn u n t) (plkMod s n fun p => { p with onLine := none, chosen := [] })

/-- Drivers off, whatever was chosen or on the line returned (R297, R303). -/
def plkQuiet (s : State) (n : Nat) : State := plkChBoth (plkOff (plkReturnAll s n) n) n 3 false

/-- STOP, or `EN` written 0 in RUN (R297). -/
def plkStop (n : Nat) (s : State) : State :=
  let s1 := plkChBoth (plkSetP (plkPins (plkQuiet s n) n false) n 0) n 0 false
  let s2 := putB (putF s1 (PLK_STATUS n) 1 0 1) (PLK_STATUS n) 11 false
  plkMod s2 n fun p => { p with timer := none, mcNext := none, mcNow := none }

/-- The STOP command. -/
def plkStopCmd (n : Nat) (s : State) : State :=
  if plkC s n = 2 then plkCmdEnd (plkStop n s) n 0 0 0 else plkCmdEnd s n 5 0 0

/-- A mode-change request is armed for the next cycle (R304). -/
def plkArm (n mode : Nat) (s : State) : State :=
  plkMod (putB s (PLK_STATUS n) 11 true) n fun p => { p with mcNext := some (mode, decide (plkP s n = 4)) }

/-- The request that the frames of a node in ACTIVE carry: one that was armed in ACTIVE (R281, R304). -/
def plkMc (s : State) (n : Nat) (r : Option (Nat × Bool)) : Option Nat :=
  match r with
  | some (m, true) => if plkP s n = 4 then some m else none
  | _ => none

/-- The REQUEST_MODE command. -/
def plkRequest (n mode : Nat) (s : State) : State :=
  if plkC s n = 2 then plkCmdEnd (plkArm n mode s) n 0 0 0 else plkCmdEnd s n 5 0 0

/-- A write of `PLK.CMD` (R309). Each command completes in its own step. Log entry 20 (DEDUCED). -/
def plkCmd (n : Nat) (v : Word) (s : State) : State :=
  match fld v 2 0 with
  | 1 => plkCommit n s
  | 2 => plkUncommit n s
  | 3 => plkStartCmd n s
  | 4 => plkStopCmd n s
  | 5 => plkRequest n (fld v 5 4) s
  | _ => plkCmdEnd s n 5 0 0

/-- Whether the register at offset `off` is one of R292, writable only in CONFIG. -/
def plkParamOff (off : Nat) : Bool :=
  (decide (0x040 ≤ off) && decide (off < 0x070)) || (decide (0x400 ≤ off) && decide (off < 0x1000))

/-- A write of a parameter or table register (R292). -/
def plkParamWrite (m : Master) (pg : Page) (off : Nat) (v : Word) (s : State) : State :=
  let d := regDesc .PLK pg.inst off
  if plkC s pg.inst = 0 then plainWrite d m pg off v s
  else if touches d m32 (getR s (pg.base + off)) v then recErr s pg.base errLocked m (pg.base + off) true
  else s

/-- `SOFT_RST` of a controller (R297): as STOP, then CONFIG. -/
def plkSoft (n : Nat) (s : State) : State :=
  let s1 := if plkC s n = 2 then plkStop n s else s
  { s1 with plk := sdel s1.plk n }

/-! Frames (R253–R257, R264). -/

/-- `HCRC` (R255). -/
def plkCrc8 (l : List Byte) : Nat := Nat.xor (crcMsb 8 0x2F 0xFF l) 0xFF

/-- The header of R254. -/
def plkHeader (type sync startup sender mode slot cycle : Nat) (mc : Option Nat) (len : Nat) (members : DWord) : List Byte :=
  let h := [b8 (16 + type), b8 (sync * 128 + startup * 64 + sender), b8 (mode * 64 + slot)] ++ beBytes 2 cycle ++
    [b8 (match mc with | some x => 128 + x * 32 | none => 0), b8 len]
  h ++ [b8 (plkCrc8 h)] ++ beBytes 8 members.toNat

/-- The header the node sends in slot `k` of mode `m` and cycle `c` (R254, R256, R266, R281). -/
def plkOwnHeader (s : State) (n m k c : Nat) (mc : Option Nat) (t : PlTx) : List Byte :=
  let id := plkId s n
  let leader := decide (plkP s n = 3) && decide (c ≤ 3)
  let sync := nodeBit s (PLK_SYNC_NODES_LO n) id && decide (plkFirst s n m id = some k)
  plkHeader (if leader then 1 else if t.src = 2 then 2 else 0) (nb sync) (nb (nodeBit s (PLK_COLD_NODES_LO n) id)) id m k c
    mc t.payload.length (getR64 s (PLK_MEMBERS_LO n))

/-- A frame body: header, payload, frame CRC (R253, R255). -/
def plkBody (h payload : List Byte) : List Byte := h ++ payload ++ beBytes 4 (crc32c (h ++ payload)).toNat

/-- A character: start bit, data bits least significant first, stop bit (R249). -/
def plkChar (b : Byte) : List Bool := false :: (List.range 8).map (fun i => b.toNat.testBit i) ++ [true]

/-- A transmission bit by bit: the lead bit, two preamble characters, the body and the trail bit (R249, R250). -/
def plkWire (body : List Byte) : List Bool :=
  true :: ([0x55#8, 0x55#8] ++ body).flatMap plkChar ++ [true]

/-- The byte whose bits are `l`, the least significant first. -/
def bitsByte (l : List Bool) : Byte := b8 (l.foldr (fun b n => 2 * n + nb b) 0)

/-- The characters that a receiver reads from its bits, up to a bit at 1 in place of a start bit, and whether a stop bit read 0
(R251). -/
def plkChars (bits : List Bool) (fuel : Nat) : List Byte × Bool :=
  match fuel, bits with
  | fuel + 1, false :: r =>
    if r.length < 9 then ([], false)
    else if (r.drop 8).headD true = false then ([], true)
    else
      let t := plkChars (r.drop 9) fuel
      (bitsByte (r.take 8) :: t.1, t.2)
  | _, _ => ([], false)

/-- What a receiver makes of the bits of a transmission whose first two characters begin at `lt` and `lt2`: whether its
characters are sound as far as its length goes, its frame start, and its body (R251). -/
def plkHear (s : State) (n : Nat) (lt lt2 : Nat) (bits : List Bool) : Bool × Nat × List Byte :=
  let r := plkChars bits bits.length
  let body := r.1.drop 2
  let a := decide (r.1.head? = some 0x55#8)
  let b := decide ((r.1.drop 1).head? = some 0x55#8)
  ((a || b) && (!r.2 || decide (20 + beAt body 6 1 ≤ body.length)), if a then lt else lt2 - 4 * plkBit s n, body)

/-- Bit times from the first falling edge to the end of the last bit at 0. -/
def lowBits (bits : List Bool) : Nat := (bits.reverse.dropWhile id).length

/-- The outcome of judging a transmission: 0 VALID, 1 CODING_ERROR, 2 HEADER_CRC_ERROR, 3 CRC_ERROR,
4 TIMING_ERROR, 5 CONTENT_ERROR (R264, R309). -/
abbrev PlOut := Nat

/-- The slot in which a result falls, if it is not in the NIT (R263); times in half nanoseconds. -/
def plkSlotOf (s : State) (n m : Nat) (res : Int) : Option Nat :=
  (List.range (plkN s n m)).find? fun k =>
    decide (Int.ofNat (plkHalf s n (plkStart s n m k)) ≤ res) && decide (res < Int.ofNat (plkHalf s n (plkStart s n m (k + 1))))

/-- The content checks of R264 for a frame of slot `k` and mode `m`; `cyc` is the receiver's cycle counter, if it has one. -/
def plkContentOk (s : State) (n m k : Nat) (cyc : Option Nat) (h : List Byte) : Bool :=
  let type := beAt h 0 1 % 16
  let b1 := beAt h 1 1
  let b2 := beAt h 2 1
  let sync := b1.testBit 7
  let startup := b1.testBit 6
  let sender := b1 % 64
  let cycle := beAt h 3 2
  let len := beAt h 6 1
  let syncOk := nodeBit s (PLK_SYNC_NODES_LO n) sender && decide (plkFirst s n m sender = some k)
  decide (type ≤ 2) && (decide (type ≠ 2) || decide (len = 0)) &&
  (decide (type ≠ 1) || (startup && decide (cycle ≤ 3))) &&
  decide (b2 % 64 = k) && decide (b2 / 64 = m) && decide (k < plkN s n m) &&
  decide (sender = plkOwner s n m k) && decide (sender ≠ 0) && decide (sender ≠ plkId s n) &&
  (match cyc with | some c => decide (cycle = c) | none => true) &&
  decide (len ≤ plkPmax s n m k) && (!sync || syncOk) &&
  (startup == nodeBit s (PLK_COLD_NODES_LO n) sender) &&
  decide (beAt h 5 1 % 32 = 0) && decide (beAt h 15 1 % 2 = 0)

/-- Whether both CRCs of a body are sound, its length field legal. -/
def plkCrcOk (body : List Byte) : Bool :=
  let len := beAt body 6 1
  decide (plkCrc8 (body.take 7) = beAt body 7 1) &&
    decide ((crc32c (body.take (16 + len))).toNat = beAt body (16 + len) 4)

/-- Judges one transmission on one channel (R264): the outcome, the slot and the deviation in half nanoseconds. -/
def plkJudge (s : State) (n : Nat) (charsOk : Bool) (res : Int) (body : List Byte) : PlOut × Nat × Int :=
  let len := beAt body 6 1
  if !charsOk || decide (body.length < 16) then (1, 0, 0)
  else if plkCrc8 (body.take 7) ≠ beAt body 7 1 then (2, 0, 0)
  else if beAt body 0 1 / 16 ≠ 1 ∨ 238 < len ∨ len % 2 = 1 then (5, 0, 0)
  else if body.length < 20 + len then (1, 0, 0)
  else if (crc32c (body.take (16 + len))).toNat ≠ beAt body (16 + len) 4 then (3, 0, 0)
  else if plkP s n = 1 then
    let b2 := beAt body 2 1
    if plkContentOk s n (b2 / 64) (b2 % 64) none body then (0, b2 % 64, 0) else (5, 0, 0)
  else
    let m := plkMode s n
    match plkSlotOf s n m res with
    | none => (4, 0, 0)
    | some k =>
      let d := res - Int.ofNat (plkHalf s n (plkStart s n m k + plkAct s n m k))
      if plkHalf s n (getF s (PLK_WINDOWS n) 7 0) < d.natAbs then (4, k, d)
      else if plkContentOk s n m k (some (plkCycle s n)) body then (0, k, d) else (5, k, d)

/-- Channel counter of each failing outcome (R309). -/
def plkOutCnt (o : PlOut) : Nat :=
  if o = 1 then 0 else if o = 2 then 1 else if o = 3 then 2 else if o = 5 then 3 else if o = 4 then 4 else 7

/-! Receive (R265, R266, R275, R305, R306). -/

/-- The receive record of R305. -/
def plkRxRecord (slot chan : Nat) (body : List Byte) (diff : Bool) (time : Nat) : List Byte :=
  let b1 := beAt body 1 1
  let type := beAt body 0 1 % 16
  let mc := beAt body 5 1
  let len := beAt body 6 1
  let h := [b8 (slot + chan * 64), b8 (b1 % 64 + (beAt body 2 1 / 64) * 64)] ++ leBytes 2 (beAt body 3 2) ++
    [b8 len, b8 (b1 / 128 + (b1 / 64 % 2) * 2 + nb (decide (type = 2)) * 4 + (mc / 128) * 8 + (mc / 32 % 4) * 16 + nb diff * 64),
      0, 0] ++ leBytes 4 time
  let payload := slice body 16 len
  h ++ leBytes 4 (crc32c (h ++ payload)).toNat ++ payload

/-- Writes a receive record, or counts RX_OVERFLOW (R305, R306). -/
def plkRxWrite (s : State) (n : Nat) (rec_ : List Byte) : State × Option Nat :=
  let sz := getF s (PLK_RX_SIZE n) 12 0
  let hd := getF s (PLK_RX_HEAD n) 11 0
  if sz = 0 ∨ (hd + 1) % sz = getF s (PLK_RX_TAIL n) 11 0 then (plkNote s n 6 9, none)
  else
    let r := fabWrite s 5 ((getR s (PLK_RX_BASE n)).toNat + 256 * hd) rec_ true
    (putF r.1 (PLK_RX_HEAD n) 11 0 ((hd + 1) % sz), some hd)

/-- Takes a valid frame (R265): counts, membership votes, sync deviation, receive record. `t` is its frame start. -/
def plkTake (s : State) (n k : Nat) (b : Bool) (dev : Option Int) (t : Nat) (body : List Byte) : State :=
  let b1 := beAt body 1 1
  let sender := b1 % 64
  let mc := beAt body 5 1
  let chan := if b then 2 else 1
  let mems := beAt body 8 8
  let s1 := bump (bump s (plkChCnt n b 8)) (PLK_Node_counters n 12)
  let s2 := setR s1 (PLK_SLOT_STATUS n k) (w32 (0x80000000 + chan * 0x20000000 + sender * 0x10000 + beAt body 3 2))
  let isNull := decide (beAt body 0 1 % 16 = 2)
  let r := if isNull && !(getB s2 (PLK_RX_CTRL n) 0) then (s2, none)
    else plkRxWrite s2 n (plkRxRecord k chan body false (t / 2))
  plkMod r.1 n fun p => { p with
    taken := { slot := k, chan := chan, body := body, rx := r.2 } :: p.taken
    votes := (sender, if mc.testBit 7 then some (mc / 32 % 4) else none) :: p.votes
    devs := match dev with | some d => if b1.testBit 7 then p.devs ++ [d.tdiv 5] else p.devs | none => p.devs
    syncSeen := p.syncSeen || b1.testBit 7
    sawMember := p.sawMember || (p.startVec.toNat.testBit sender && decide (sender ≠ plkId s n))
    sawOwn := p.sawOwn || (p.startVec.toNat.testBit sender && decide (sender ≠ plkId s n) && mems.testBit (plkId s n)) }

/-- A second valid copy of a taken frame (R265): a different body counts CHANNEL_DIFF and marks the record. -/
def plkSecond (s : State) (n k : Nat) (t : PlTaken) (body : List Byte) : State :=
  if t.body = body then s
  else
    let s1 := putB (bump s (PLK_Node_counters n 5)) (PLK_SLOT_STATUS n k) 28 true
    match t.rx with
    | none => s1
    | some i =>
      let a := (getR s1 (PLK_RX_BASE n)).toNat + 256 * i
      (fabWrite s1 5 a (plkRxRecord k t.chan t.body true (rdLE s1 (a + 8) 4)) true).1

/-- A node adopts a frame's mode, cycle and local time and enters INTEGRATE (R274, R275); `t` is the frame start. -/
def plkAdopt (s : State) (n : Nat) (b : Bool) (t : Nat) (body : List Byte) : State :=
  let b2 := beAt body 2 1
  let m := b2 / 64
  let k := b2 % 64
  let del := 2 * (if b then getF s (PLK_DELTA n) 26 16 else getF s (PLK_DELTA n) 10 0)
  let s1 := if plkMode s n = m then s else raiseIrq (putF s (PLK_STATUS n) 9 8 m) (PLK n) 2
  let s2 := putF (plkSetP (plkQuiet s1 n) n 2) (PLK_STATUS n) 31 16 (beAt body 3 2)
  plkMod s2 n fun p => { p with
    t0 := t - del - plkHalf s n (plkStart s n m k + plkAct s n m k)
    inNit := false, nextMode := m, kappa := 0, timer := none, devs := [], whole := false, syncSeen := false
    badMode := false, votes := [], sawMember := false, sawOwn := false, missing := 0, rejoin := 0, noSync := 0
    taken := [], fired := [] }

/-- A sound frame of a member that carries another mode, and would be valid in it, tells a node that is not in that mode of
it, and whether it counts the node as a member (R279, R284). Log entry 163 (DEDUCED). -/
def plkOtherMode (s : State) (n : Nat) (body : List Byte) : State :=
  let b2 := beAt body 2 1
  let sender := beAt body 1 1 % 64
  if b2 / 64 ≠ plkMode s n ∧ plkContentOk s n (b2 / 64) (b2 % 64) (some (plkCycle s n)) body = true ∧
      (plk s n).startVec.toNat.testBit sender = true then
    plkMod s n fun p => { p with
      newMode := some (b2 / 64), sawMember := true
      sawOwn := p.sawOwn || (beAt body 8 8).testBit (plkId s n) }
  else s

/-- A transmission that a receiver takes as one: its start edge follows at least 11 bit times at 1 (R250). It judges it
(R264, R265): `lt` is the frame start in local microticks, in which LISTEN counts from the first edge alone. -/
def plkJudged (n : Nat) (b charsOk : Bool) (lt : Int) (start : Nat) (body : List Byte) (s0 : State) : State :=
  let len := beAt body 6 1
  let st := plkP s0 n
  let del : Int := 2 * (if b then getF s0 (PLK_DELTA n) 26 16 else getF s0 (PLK_DELTA n) 10 0)
  let j := plkJudge s0 n charsOk (5 * lt - del) body
  let o := j.1
  let s1 := putF (bump s0 (plkChCnt n b (plkOutCnt o))) (plkCh n b) 7 4 o
  let crcs := charsOk && decide (20 + len ≤ body.length) && plkCrcOk body
  let differs := crcs && (decide (beAt body 2 1 / 64 ≠ plkMode s0 n) || decide (beAt body 3 2 ≠ plkCycle s0 n))
  let s2 := plkMod s1 n fun p => { p with badMode := p.badMode || differs }
  let type := beAt body 0 1 % 16
  let sender := beAt body 1 1 % 64
  if st = 1 then
    if o = 0 ∧ (type = 1 ∨ (beAt body 1 1).testBit 7 = true) then plkTake (plkAdopt s2 n b start body) n j.2.1 b none start body
    else plkActivity s2 n
  else if o ≠ 0 then (if o = 5 ∧ crcs = true then plkOtherMode s2 n body else s2)
  else match (plk s2 n).taken.find? fun t => decide (t.slot = j.2.1) with
    | some t => if t.chan = (if b then 2 else 1) then s2 else plkSecond s2 n j.2.1 t body
    | none =>
      if st = 3 ∧ type = 1 ∧ sender < plkId s0 n then
        plkTake (plkAdopt s2 n b start body) n j.2.1 b none start body
      else plkTake s2 n j.2.1 b (some j.2.2) start body

/-- A transmission reaches a channel bit by bit (R250, R251): the clock advances to its end, and the receiver judges it if
its start edge could be one. -/
def plkReceive (n : Nat) (b : Bool) (lt lt2 : Nat) (bits : List Bool) (s : State) : State :=
  if plkC s n ≠ 2 ∨ plkP s n = 0 ∨ plkChanOn s n b = false then s else
  let h := plkHear s n lt lt2 bits
  let dur := 20 * (22 + beAt h.2.2 6 1) * plkBit s n
  let p := plk s n
  let edge := if plkP s n = 1 then 2 * tenseNs s - dur else p.t0 + 5 * lt
  let start := (Int.ofNat edge + 5 * (Int.ofNat h.2.1 - Int.ofNat lt)).toNat
  let s0 := if plkP s n = 1 then s else advanceHalf s (start + dur)
  let c := if b then p.chB else p.chA
  let s1 := plkHeardTo s0 n b (edge + 2 * lowBits bits * plkBit s n)
  if edge < c.last + 22 * plkBit s n then plkActivity s1 n
  else plkJudged n b h.1 (Int.ofNat h.2.1) start h.2.2 s1

/-- The end of a slot owned by another node (R265, R277). -/
def plkSlotEnd (n k : Nat) (s : State) : State :=
  let m := plkMode s n
  if plkC s n ≠ 2 ∨ plkP s n < 2 ∨ plkN s n m ≤ k then s else
  let s0 := plkAt s n (plkStart s n m (k + 1))
  let o := plkOwner s n m k
  if o = 0 ∨ o = plkId s n then s0
  else
    let took := (plk s n).taken.any fun t => decide (t.slot = k)
    let a := if 32 ≤ o then PLK_MEMBERS_HI n else PLK_MEMBERS_LO n
    let s1 := putB s0 a (o % 32) took
    if took then s1 else putB (bump s1 (PLK_SLOT_EMPTY n k)) (PLK_SLOT_STATUS n k) 31 false

/-! The NIT and the cycle start (R258, R267–R270, R276–R284, R291). -/

/-- Inserts in ascending order. -/
def intInsert (l : List Int) (x : Int) : List Int :=
  match l with
  | [] => [x]
  | y :: r => if x ≤ y then x :: y :: r else y :: intInsert r x

/-- The correction of R267 from the deviations of a cycle. Log entry 82 (DEDUCED). -/
def plkCorrection (d : List Int) : Int :=
  let n := d.length
  let k := if n ≤ 2 then 0 else if n ≤ 7 then 1 else 2
  let l := d.foldl intInsert []
  (lget l k 0 + lget l (n - 1 - k) 0).tdiv 2

/-- The members of the present cycle (R277): nodes set at its start, and the node itself in ACTIVE. -/
def plkMembers (s : State) (n : Nat) : List Nat :=
  (List.range 64).filter fun k => decide (k ≠ 0) &&
    (if k = plkId s n then decide (plkP s n = 4) else (plk s n).startVec.toNat.testBit k)

/-- The mode that every member requested in every frame of the cycle, if they all did (R282). -/
def plkAgreed (s : State) (n : Nat) : Option Nat :=
  let mem := plkMembers s n
  let p := plk s n
  let vs := p.votes.filter fun v => mem.contains v.1
  match vs with
  | (_, some m) :: _ =>
    if decide (m ≠ plkMode s n) && (vs.all fun v => decide (v.2 = some m)) && (mem.all fun k => vs.any fun v => decide (v.1 = k))
    then some m else none
  | _ => none

/-- Whether a member requested another mode in this cycle (R281, R283). -/
def plkRequested (s : State) (n : Nat) : Bool :=
  let mem := plkMembers s n
  (plk s n).votes.any fun v => mem.contains v.1 && v.2.isSome && decide (v.2 ≠ some (plkMode s n))

/-- Whether the cycle was full valid (R276). -/
def plkFullValid (s : State) (n : Nat) (cancelled : Bool) : Bool :=
  let p := plk s n
  p.whole && p.syncSeen && !p.badMode && !cancelled

/-- The start of the NIT (R267). -/
def plkNit (n : Nat) (s : State) : State :=
  let st := plkP s n
  if plkC s n ≠ 2 ∨ st < 2 ∨ (plk s n).inNit = true then s else
  let s0 := plkAt s n (plkE s n (plkMode s n))
  let p := plk s n
  let s1 := if p.devs = [] then bump s0 (PLK_Node_counters n 1) else s0
  let kap := if p.devs = [] then 0 else plkCorrection p.devs
  let agreed := if st = 3 then none else plkAgreed s n
  let cancelled := decide (st ≠ 3) && plkRequested s n && agreed.isNone
  let s2 := if cancelled then plkNote s1 n 4 3 else s1
  let noSync := if p.syncSeen then 0 else p.noSync + 1
  let full := plkFullValid s n cancelled
  let miss := if st = 4 ∧ p.sawMember = true ∧ p.sawOwn = false then p.missing + 1 else 0
  let s3 := plkMod s2 n fun p => { p with
    inNit := true, kappa := kap, nextMode := agreed.getD (plkMode s n), noSync := noSync, missing := miss
    rejoin := if st = 5 ∧ full = true then p.rejoin + 1 else 0 }
  let sync := nodeBit s (PLK_SYNC_NODES_LO n) (plkId s n)
  if sync = false ∧ st ≠ 3 ∧ 16 ≤ noSync then plkListen (plkQuiet (plkNote s3 n 2 5) n) n (plkFull s n) 0
  else if st = 2 then
    if p.whole = false then s3
    else if full then
      if plkOwns s n (plkMode s n) then plkSetP s3 n 4 else plkReassigned (plkSetP s3 n 5) n true
    else plkListen s3 n (plkFull s n) 0
  else if st = 4 then
    if miss = 2 then
      plkMod (plkSetP (plkQuiet (plkNote s3 n 3 4) n) n 5) n fun q =>
        { q with excl := 0 :: q.excl, missing := 0, rejoin := 0, nextMode := if agreed.isSome then q.nextMode else p.newMode.getD q.nextMode }
    else s3
  else if st = 5 then
    let e := p.excl.length
    let w := min 64 (2 ^ (e - 1))
    if w ≤ (plk s3 n).rejoin ∧ plkOwns s n (plkMode s n) = true then plkSetP s3 n 4
    else plkMod s3 n fun q => { q with nextMode := if agreed.isSome then q.nextMode else p.newMode.getD q.nextMode }
  else s3

/-- A mode change takes effect at the cycle start (R270, R282, R287). -/
def plkModeApply (s : State) (n m : Nat) : State :=
  if m = plkMode s n then s
  else
    let s1 := raiseIrq (putF s (PLK_STATUS n) 9 8 m) (PLK n) 2
    let st := plkP s n
    if st = 4 ∧ plkOwns s n m = false then plkReassigned (plkSetP s1 n 5) n true
    else if st = 5 then
      if plkOwns s n m then plkMod (plkReassigned s1 n false) n fun p => { p with rejoin := 0 }
      else plkReassigned s1 n true
    else s1

/-- `SLOT_STATUS` shows whether a frame was taken in the slot in the latest cycle (R309). -/
def plkSlotsOver (s : State) (n : Nat) : State :=
  (List.range 64).foldl (fun t k =>
    if (plk s n).taken.any fun x => decide (x.slot = k) then t else putB t (PLK_SLOT_STATUS n k) 31 false) s

/-- A new cycle starts (R258, R268, R272, R291, R304). -/
def plkCycleStart (n : Nat) (gcount : Word) (s : State) : State :=
  if plkC s n ≠ 2 ∨ plkP s n < 2 then s else
  let p := plk s n
  let t0 := (Int.ofNat (p.t0 + plkHalf s n (plkLen s n)) + 5 * p.kappa).toNat
  let s0 := advanceHalf s t0
  let c := plkCycle s n
  let s1 := if plkP s n = 3 ∧ c = 3 then plkSetP (plkSlotsOver s0 n) n 4 else plkSlotsOver s0 n
  let ok := decide (plkHalf s n (plkLen s n - getF s (PLK_WINDOWS n) 7 0) ≤ 5 * gcount.toNat)
  let s2 := if ok then s1 else plkNote s1 n 10 13
  let s3 := putB (putF s2 (PLK_STATUS n) 31 16 (c + 1)) (PLK_STATUS n) 11 p.mcNext.isSome
  let s4 := plkModeApply s3 n p.nextMode
  plkMod s4 n fun q => { q with
    t0 := t0, inNit := false, kappa := 0, mcNow := p.mcNext, mcNext := none, devs := [], whole := true
    syncSeen := false, badMode := false, votes := [], sawMember := false, sawOwn := false
    startVec := getR64 s4 (PLK_MEMBERS_LO n), excl := (q.excl.map fun a => a + 1).filter fun a => decide (a < 1024)
    taken := [], fired := [], fetchNs := max 2000 (getF s (PLK_FETCH_NS n) 15 0), gOk := ok, gCount := gcount.toNat
    gT0 := if ok then t0 else q.gT0, newMode := none }

/-! Transmit (R262, R272, R285, R286, R299–R303). -/

/-- The oldest record of the Gate entry that fits becomes the slot's frame, or ends (R299, R301, R302). -/
def plkFromGate (s : State) (n k pmax : Nat) : State × Option PlTx :=
  match ((gateEntries s (320 + n)).take 4).find? fun g => decide (g.loc = 0) && decide (g.bytes.length ≤ pmax) with
  | none => (s, none)
  | some g =>
    let t : PlTx := { src := 0, slot := k, payload := g.bytes, gate := some g.tag, idx := 0, rec_ := [], body := [], bad := 0 }
    if crc32c g.bytes ≠ g.check then (itemEndExit (plkNote (gateEntryDrop s (320 + n) g.tag) n 8 11) g.tag ocE2E, none)
    else (gateEntrySet s (320 + n) g.tag fun e => { e with loc := 1 }, some t)

/-- Writes the `STATUS` word of a ring record (R300). -/
def plkStatus (s : State) (n idx st : Nat) : State :=
  (fabWrite s 5 ((getR s (PLK_TX_BASE n)).toNat + 256 * idx + 12) (leBytes 4 (0x80000000 + st)) true).1

/-- The next ring record: one that was returned, else the record at the tail. -/
def plkTail (s : State) (n : Nat) : Option (Nat × Option (List Byte) × Bool) × State :=
  match (plk s n).back with
  | t :: _ => (some (t.idx, some t.rec_, true), s)
  | [] =>
    let sz := getF s (PLK_TX_SIZE n) 12 0
    let tl := getF s (PLK_TX_TAIL n) 11 0
    if sz = 0 ∨ tl = getF s (PLK_TX_HEAD n) 11 0 then (none, s)
    else
      let r := fabRead s 5 ((getR s (PLK_TX_BASE n)).toNat + 256 * tl) 256 true
      (some (tl, if r.2.1 = .ok then some r.2.2 else none, false), r.1)

/-- Consumes the record that `plkTail` gave. -/
def plkConsume (s : State) (n : Nat) (back : Bool) : State :=
  if back then plkMod s n fun p => { p with back := p.back.drop 1 }
  else putF s (PLK_TX_TAIL n) 11 0 ((getF s (PLK_TX_TAIL n) 11 0 + 1) % getF s (PLK_TX_SIZE n) 12 0)

/-- Looks at ring records for slot `k` of mode `m`, at most `fuel` of them (R300, R302). -/
def plkFromRing (s : State) (n m k : Nat) (view : Option Nat → PlTx → List Byte) (fuel : Nat) : State × Option PlTx :=
  match fuel with
  | 0 => (s, none)
  | fuel + 1 =>
    match plkTail s n with
    | (none, s1) => (s1, none)
    | (some (idx, none, back), s1) =>
      (plkNote (plkStatus (plkConsume s1 n back) n idx 1) n 8 11, none)
    | (some (idx, some rec_, back), s1) =>
      let any := (leAt rec_ 4 1).testBit 6
      let slot := leAt rec_ 4 1 % 64
      let len := leAt rec_ 5 1
      let named := decide (slot < plkN s n m) && decide (plkOwner s n m slot = plkId s n)
      if len % 2 = 1 ∨ 238 < len ∨ (any = false ∧ (named = false ∨ plkPmax s n m slot < len)) then
        plkFromRing (bump (plkStatus (plkConsume s1 n back) n idx 3) (PLK_Node_counters n 13)) n m k view fuel
      else if any = true ∧ plkPmax s n m k < len then (s1, none)
      else if any = false ∧ slot ≠ k then (s1, none)
      else
        let s2 := plkConsume s1 n back
        let t : PlTx := { src := 1, slot := k, payload := slice rec_ 16 len, gate := none, idx := idx, rec_ := rec_, body := [], bad := 0 }
        if (crc32c (rec_.take 8 ++ slice rec_ 16 len)).toNat ≠ leAt rec_ 8 4 then
          (plkNote (plkStatus s2 n idx 1) n 8 11, none)
        else
          let req := if (leAt rec_ 6 1).testBit 0 then some (leAt rec_ 6 1 / 2 % 4) else none
          let j := if getB s2 (PLK_GUARDED n) 0 then sieveJudge s2 (320 + n) 26 (view req t) false (8 + engineOf s2 (320 + n)) else (s2, true)
          if j.2 then (match req with | some x => plkArm n x j.1 | none => j.1, some t)
          else (plkNote (plkStatus j.1 n idx 2) n 9 12, none)

/-- The null frame, if the sieve lets it pass (R302). -/
def plkNull (s : State) (n k : Nat) (view : Option Nat → PlTx → List Byte) : State × Option PlTx :=
  let t : PlTx := { src := 2, slot := k, payload := [], gate := none, idx := 0, rec_ := [], body := [], bad := 0 }
  let j := if getB s (PLK_GUARDED n) 0 then sieveJudge s (320 + n) 26 (view none t) false (8 + engineOf s (320 + n)) else (s, true)
  if j.2 then (bump j.1 (PLK_Node_counters n 7), some t) else (plkNote j.1 n 9 12, none)

/-- The sieve's view of a frame of slot `k` in mode `m` and cycle `c`: its header as it will be sent, as far as the fetch point
knows it, and its payload (R302). A record of the next cycle that requests a mode carries the request itself (R304); `MEMBERS` is
as it stands at the fetch point. Log entry 164 (DEDUCED). -/
def plkView (s : State) (n m k c : Nat) (req : Option Nat) (t : PlTx) : List Byte :=
  let p := plk s n
  let mc := if p.inNit then (match req with | some x => some (x, decide (plkP s n = 4)) | none => p.mcNext) else p.mcNow
  plkOwnHeader s n m k c (plkMc s n mc) t ++ t.payload

/-- Chooses the frame of slot `k` in mode `m` and cycle `c` (R299). -/
def plkChoose (s : State) (n m k c : Nat) : State × Option PlTx :=
  let view := plkView s n m k c
  match plkFromGate s n k (plkPmax s n m k) with
  | (s1, some t) => (s1, some t)
  | (s1, none) => match plkFromRing s1 n m k view 4 with
    | (s2, some t) => (s2, some t)
    | (s2, none) => plkNull s2 n k view

/-- The fetch point of slot `k` (R299). -/
def plkFetch (n k : Nat) (s : State) : State :=
  let p := plk s n
  let m := if p.inNit then p.nextMode else plkMode s n
  let st := plkP s n
  if plkC s n ≠ 2 ∨ (st ≠ 3 ∧ st ≠ 4) ∨ plkN s n m ≤ k ∨ plkOwner s n m k ≠ plkId s n ∨
      p.chosen.any (fun t => decide (t.slot = k)) = true then s
  else
    let base : Int := if p.inNit then Int.ofNat (p.t0 + plkHalf s n (plkLen s n)) + 5 * p.kappa else Int.ofNat p.t0
    let due := base + Int.ofNat (plkHalf s n (plkStart s n m k + plkAct s n m k)) - Int.ofNat (2 * p.fetchNs)
    let s0 := advanceHalf s due.toNat
    let c := if p.inNit then (plkCycle s n + 1) % 65536 else plkCycle s n
    match plkChoose s0 n m k c with
    | (s1, some t) => plkMod s1 n fun q => { q with chosen := q.chosen ++ [t] }
    | (s1, none) => s1

/-- The channels on which a frame still goes well. -/
def plkGood (s : State) (n : Nat) (t : PlTx) : Bool :=
  (plkChanOn s n false && !(t.bad.testBit 0)) || (plkChanOn s n true && !(t.bad.testBit 1))

/-- A transmission starts on one channel under the guardian (R285, R286). -/
def plkDrive (s : State) (n : Nat) (b : Bool) (t : PlTx) : State × PlTx :=
  if !(plkChanOn s n b) then (s, t)
  else if getB s (plkCh n b) 3 then
    (emit (putB (plkTxen s n b true) (plkCh n b) 0 false) (.plFrame n (nb b) (plkWire t.body)), t)
  else
    (raiseIrq (bump s (plkChCnt n b 6)) (PLK n) 6, { t with bad := Nat.lor t.bad (if b then 2 else 1) })

/-- Ends what is on the line: drivers off, lines idle; both lines have been active until now (R250). -/
def plkRelease (s : State) (n : Nat) : State :=
  let s1 := plkHeardTo (plkHeardTo (plkChBoth (plkOff s n) n 0 true) n false (2 * tenseNs s)) n true (2 * tenseNs s)
  plkMod s1 n fun p => { p with onLine := none }

/-- Starts the transmission of a chosen frame on both channels, one bit time before its frame start at `act`: the clock
advances to that, and on through the lead bit (R250, R262, R299). -/
def plkTransmit (s : State) (n act : Nat) (t0 : PlTx) : State :=
  let s0 := advanceHalf s (act - 2 * plkBit s n)
  let m := plkMode s n
  let t := { t0 with
    body := plkBody (plkOwnHeader s0 n m t0.slot (plkCycle s n) (plkMc s n (plk s n).mcNow) t0) t0.payload }
  let a := plkDrive s0 n false t
  let b := plkDrive a.1 n true a.2
  let s1 := advanceHalf b.1 act
  if plkGood s n b.2 then
    let s2 := match t0.gate with
      | some tag => gateEntrySet s1 (320 + n) tag fun e => { e with loc := 2 }
      | none => s1
    plkMod s2 n fun p => { p with onLine := some b.2 }
  else plkReturn s1 n b.2

/-- Whether the record that a chosen frame came from still stands: a Gate record may have been removed since the fetch point
(R170, R301). -/
def plkStands (s : State) (n : Nat) (t : PlTx) : Bool :=
  match t.gate with
  | some tag => (gateEntries s (320 + n)).any fun g => decide (g.tag = tag)
  | none => true

/-- The action point of slot `k` (R262). A slot whose Gate record has been removed carries a null frame (R256).
Log entry 164 (DEDUCED). -/
def plkAction (n k : Nat) (s : State) : State :=
  let m := plkMode s n
  let st := plkP s n
  if plkC s n ≠ 2 ∨ (st ≠ 3 ∧ st ≠ 4) ∨ (plk s n).onLine.isSome = true then s
  else match (plk s n).chosen.find? fun t => decide (t.slot = k) with
    | none => s
    | some t =>
      let act := (plk s n).t0 + plkHalf s n (plkStart s n m k + plkAct s n m k)
      let s0 := plkMod s n fun p => { p with chosen := p.chosen.filter fun u => decide (u.slot ≠ k) }
      if plkStands s n t then plkTransmit s0 n act t
      else match plkNull s0 n k (plkView s0 n m k (plkCycle s n)) with
        | (s1, some u) => plkTransmit s1 n act u
        | (s1, none) => s1

/-- A frame whose last CRC character has left was sent, where it went well on one channel (R29, R266, R303). -/
def plkSent (s : State) (n : Nat) (t : PlTx) : State :=
  if plkGood s n t then
    let s2 := plkMod (bump s (PLK_Node_counters n 11)) n fun p => { p with
      votes := (plkId s n, plkMc s n p.mcNow) :: p.votes
      devs := if (beAt t.body 1 1).testBit 7 then p.devs ++ [0] else p.devs }
    if t.src = 0 then match t.gate with
      | some tag => itemTransmitted (gateEntryDrop s2 (320 + n) tag) tag
      | none => s2
    else if t.src = 1 then plkStatus s2 n t.idx 0
    else s2
  else plkReturn s n t

/-- The frame on the line ends (R303): the clock advances to the end of its last character, and on through the trail bit, after
which the drivers are disabled (R250). -/
def plkEnd (n : Nat) (s : State) : State :=
  match (plk s n).onLine with
  | none => s
  | some t =>
    let m := plkMode s n
    let start := plkStart s n m t.slot + plkAct s n m t.slot
    let fin := (plk s n).t0 + plkHalf s n start + 20 * (22 + t.payload.length) * plkBit s n
    let s1 := plkSent (advanceHalf s fin) n t
    plkRelease (advanceHalf s1 (fin + 2 * plkBit s n)) n

/-- The listen timer expires: the node becomes leader (R272); its first window opens if the guardian's table names the slot
(R285, R287). A falling edge at that instant, or an active line, wins: the timer waits for an idle line (R273, R289). -/
def plkTimeout (n : Nat) (edge : Bool) (s : State) : State :=
  match (plk s n).timer with
  | some (full, some due) =>
    if plkC s n ≠ 2 ∨ plkP s n ≠ 1 then s
    else if edge then plkMod (advanceHalf s due) n fun p => { p with timer := some (full, none) }
    else
      let id := plkId s n
      let f := (plkFirst s n 0 id).getD 0
      let s0 := advanceHalf s due
      let s1 := putF (plkSetP (if plkMode s n = 0 then s0 else raiseIrq s0 (PLK n) 2) n 3) (PLK_STATUS n) 31 16 0
      let s2 := putF s1 (PLK_STATUS n) 9 8 0
      let act := due + 2 * plkBit s n
      let t0 := act - plkHalf s n (plkStart s n 0 f + plkAct s n 0 f)
      let s3 := plkMod s2 n fun p => { p with
        t0 := t0
        inNit := false, nextMode := 0, kappa := 0, timer := none, devs := [], whole := false, syncSeen := false
        badMode := false, votes := [], sawMember := false, sawOwn := false, missing := 0, rejoin := 0, noSync := 0
        startVec := getR64 s2 (PLK_MEMBERS_LO n), taken := [], chosen := [], fired := [], gOk := true, gT0 := t0, newMode := none }
      let s4 := plkChBoth s3 n 3 (decide (getF s (PLK_GUARD n 0 f) 15 0 ≠ 0))
      match plkChoose s4 n 0 f 0 with
      | (s5, some t) => plkTransmit s5 n act t
      | (s5, none) => s5
  | _ => s

/-- A transmitting node reads back another bit (R252, R273): in COLDSTART a collision, whose jam both channels send. -/
def plkEcho (n : Nat) (b : Bool) (s : State) : State :=
  match (plk s n).onLine with
  | none => s
  | some t =>
    let bitv := if b then 2 else 1
    if plkChanOn s n b = false ∨ Nat.land t.bad bitv ≠ 0 then s
    else if plkP s n = 3 then
      let s1 := [false, true].foldl (fun u c =>
        if plkChanOn u n c && !(t.bad.testBit (nb c)) then emit u (.plJam n (nb c)) else u) s
      let s2 := plkRelease (plkReturnAll (plkNote s1 n 0 7) n) n
      plkListen (plkChBoth s2 n 3 false) n (plkBackoff s n) 31
    else
      let s1 := emit (raiseIrq (bump s (plkChCnt n b 5)) (PLK n) 8) (.plJam n (nb b))
      let t2 := { t with bad := Nat.lor t.bad bitv }
      let s2 := plkTxen s1 n b false
      if plkGood s n t2 then plkMod s2 n fun p => { p with onLine := some t2 }
      else plkReturn (plkRelease s2 n) n t2

/-- Advances the clock to macrotick `k` as the guardian counts it from the cycle start it accepted (R285, R291). -/
def plkGuardAt (s : State) (n k : Nat) : State := advanceHalf s ((plk s n).gT0 + plkHalf s n k)

/-- The guardian's window of slot `k` opens (R285, R291, R294). -/
def plkOpen (n k : Nat) (s : State) : State :=
  let g := getR s (PLK_GUARD n (plkMode s n) k)
  let st := plkP s n
  if plkC s n ≠ 2 ∨ (st ≠ 3 ∧ st ≠ 4) ∨ (plk s n).gOk = false ∨ fld g 15 0 = 0 then s
  else plkChBoth (plkGuardAt s n (fld g 31 16)) n 3 true

/-- A transmission still running on a channel is cut (R286). -/
def plkCut (s : State) (n : Nat) (b : Bool) (t : PlTx) : State × PlTx :=
  let bitv := if b then 2 else 1
  if plkChanOn s n b = false ∨ Nat.land t.bad bitv ≠ 0 then (s, t)
  else (plkTxen (raiseIrq (bump s (plkChCnt n b 6)) (PLK n) 6) n b false, { t with bad := Nat.lor t.bad bitv })

/-- The guardian's window of slot `k` ends (R286). -/
def plkClose (n k : Nat) (s : State) : State :=
  let g := getR s (PLK_GUARD n (plkMode s n) k)
  if plkC s n ≠ 2 ∨ (getB s (plkCh n false) 3 = false ∧ getB s (plkCh n true) 3 = false) ∨ fld g 15 0 = 0 then s
  else
    let s1 := plkChBoth (plkGuardAt s n (fld g 15 0)) n 3 false
    match (plk s n).onLine with
    | none => s1
    | some t =>
      let a := plkCut s1 n false t
      let c := plkCut a.1 n true a.2
      plkReturn (plkRelease c.1 n) n c.2

/-- Comparator `i` reaches its instant (R307). -/
def plkCompare (n i : Nat) (s : State) : State :=
  let w := getR s (PLK_CMP n i)
  let m := plkMode s n
  let at_ := plkStart s n m (fld w 21 16) + fld w 15 0
  if plkC s n ≠ 2 ∨ plkP s n < 2 ∨ bit w 31 = false ∨ (bit w 25 = false ∧ fld w 23 22 ≠ m) ∨
      plkN s n m ≤ fld w 21 16 ∨ plkLen s n ≤ at_ ∨ (plk s n).fired.contains i = true then s
  else
    let s1 := plkMod (plkAt s n at_) n fun p => { p with fired := i :: p.fired }
    let s2 := setR s1 (PLK_CMP_TIME n i) (lo32 (tense s1))
    let s3 := if bit w 30 then raiseIrq s2 (PLK n) (16 + i) else s2
    if bit w 29 then serveEvent s3 (320 + n) (24 + fld w 28 26) else s3

/-- When the next cycle's first fetch point falls, in half nanoseconds, if the node owns a slot of that cycle's mode (R299). -/
def plkNextFetch (s : State) (n : Nat) : Option Int :=
  let p := plk s n
  (plkFirst s n p.nextMode (plkId s n)).map fun k =>
    Int.ofNat (p.t0 + plkHalf s n (plkLen s n + plkStart s n p.nextMode k + plkAct s n p.nextMode k)) + 5 * p.kappa -
      Int.ofNat (2 * p.fetchNs)

/-- Whether placement may change the engine that serves the controller now (R298): within the NIT, at least `FETCH_NS`
before the next cycle's first fetch point. -/
def plkMayMove (s : State) (n : Nat) : Bool :=
  let p := plk s n
  decide (plkC s n ≠ 2) || (p.inNit && match plkNextFetch s n with
    | some t => decide (Int.ofNat (2 * tenseNs s + 2 * p.fetchNs) ≤ t)
    | none => true)

/-! The commands. -/

/-- `PLK.CMD` COMMIT (R295). -/
def execPlkCommit (m : Master) (n : Fin 16) (s : State) : Res := .next (gatedWrite m (PLK_CMD n.val) (plkCommit n.val) s)

/-- `PLK.CMD` UNCOMMIT (R297). -/
def execPlkUncommit (m : Master) (n : Fin 16) (s : State) : Res := .next (gatedWrite m (PLK_CMD n.val) (plkUncommit n.val) s)

/-- `PLK.CMD` START (R297). -/
def execPlkStart (m : Master) (n : Fin 16) (s : State) : Res := .next (gatedWrite m (PLK_CMD n.val) (plkStartCmd n.val) s)

/-- `PLK.CMD` STOP (R297). -/
def execPlkStop (m : Master) (n : Fin 16) (s : State) : Res := .next (gatedWrite m (PLK_CMD n.val) (plkStopCmd n.val) s)

/-- `PLK.CMD` REQUEST_MODE (R304). -/
def execRequestMode (m : Master) (n : Fin 16) (mode : BitVec 2) (s : State) : Res :=
  .next (gatedWrite m (PLK_CMD n.val) (plkRequest n.val mode.toNat) s)

/-- A cycle starts (R258). -/
def execCycleStart (n : Fin 16) (gcount : Word) (s : State) : Res := .next (plkCycleStart n.val gcount s)

/-- A fetch point (R299). -/
def execFetchPoint (n : Fin 16) (slot : Fin 64) (s : State) : Res := .next (plkFetch n.val slot.val s)

/-- An action point (R262). -/
def execActionPoint (n : Fin 16) (slot : Fin 64) (s : State) : Res := .next (plkAction n.val slot.val s)

/-- A frame's last CRC character leaves (R303). -/
def execPlTransmitEnd (n : Fin 16) (s : State) : Res := .next (plkEnd n.val s)

/-- A transmission is received (R264). -/
def execPlFrameReceive (n : Fin 16) (chB : Bool) (lt lt2 : Word) (bits : List Bool) (s : State) : Res :=
  .next (plkReceive n.val chB lt.toNat lt2.toNat bits s)

/-- A slot ends (R277). -/
def execSlotEnd (n : Fin 16) (slot : Fin 64) (s : State) : Res := .next (plkSlotEnd n.val slot.val s)

/-- The NIT starts (R267). -/
def execNitStart (n : Fin 16) (s : State) : Res := .next (plkNit n.val s)

/-- The listen timer expires (R272). -/
def execListenTimeout (n : Fin 16) (edge : Bool) (s : State) : Res := .next (plkTimeout n.val edge s)

/-- An echo mismatch (R252). -/
def execEchoMismatch (n : Fin 16) (chB : Bool) (s : State) : Res := .next (plkEcho n.val chB s)

/-- A guardian window opens (R285). -/
def execGuardianWindowOpen (n : Fin 16) (slot : Fin 64) (s : State) : Res := .next (plkOpen n.val slot.val s)

/-- A guardian window closes (R286). -/
def execGuardianWindowClose (n : Fin 16) (slot : Fin 64) (s : State) : Res := .next (plkClose n.val slot.val s)

/-- A comparator fires (R307). -/
def execComparatorFire (n : Fin 16) (i : Fin 8) (s : State) : Res := .next (plkCompare n.val i.val s)

end Sys2Proof.Machine
end

