-- ==== Sys2Proof/Machine/Ptc.lean ====
section
/-! DEFINITION. The Particle engines (11): the pin machine, its output feeder and its registers. -/

namespace Sys2Proof.Machine

open Reg

/-- Engine `n` beside its registers. -/
def ptc (s : State) (n : Nat) : PtcSt := sget s.ptc n PtcSt.init

/-- Changes engine `n`. -/
def ptcMod (s : State) (n : Nat) (f : PtcSt → PtcSt) : State := { s with ptc := smod s.ptc n PtcSt.init f }

/-- Whether the engine is enabled (R589). -/
def ptcEn (s : State) (n : Nat) : Bool := getB s (BLK_CTRL (PTC n)) 0

/-- Whether the engine runs: `EN` and `RUN` are both 1 (R589). Log entry 150 (DEDUCED). -/
def ptcRuns (s : State) (n : Nat) : Bool := ptcEn s n && getB s (PTC_CTRL n) 0

/-- Counts and raises (R348, R349). -/
def ptcNote (s : State) (n k i : Nat) : State := raiseIrq (bump s (PTC_Counters n k)) (PTC n) i

/-- A limit field: 0 and values above 32 act as 32 (R348). -/
def ptcLim (v : Nat) : Nat := if v = 0 ∨ 32 < v then 32 else v

/-- `TS_LIMIT` in force. -/
def ptcTsLim (s : State) (n : Nat) : Nat := ptcLim (getF s (PTC_SHIFTER n) 29 24)

/-- Whether TS is used up (R336). -/
def ptcUsed (s : State) (n : Nat) : Bool := decide (ptcTsLim s n ≤ (ptc s n).tsN)

/-! Packets (R343, R344). -/

/-- Words in the output FIFO. -/
def ptcWords (s : State) (n : Nat) : Nat := ((ptc s n).pkts.map fun p => p.words.length).sum

/-- PKT: data bytes of the current packet not yet loaded into TS (R335). -/
def ptcPkt (s : State) (n : Nat) : Nat :=
  match (ptc s n).pkts with
  | p :: _ => p.bytes
  | [] => 0

/-- Writes `STATUS` of a transmit ring slot (R344). -/
def ptcRingStatus (s : State) (n idx st : Nat) : State :=
  (fabWrite s 5 ((getR s (PTC_TX_BASE n)).toNat + 256 * idx + 12) (leBytes 4 (0x80000000 + st)) true).1

/-- The oldest packet is sent if TS holds its last word (R344). Log entry 88 (DEDUCED). -/
def ptcSent (s : State) (n : Nat) : State :=
  match (ptc s n).pkts with
  | p :: r =>
    if (ptc s n).tsHolds = true ∧ p.words = [] then
      let s1 := ptcNote (ptcMod s n fun q => { q with pkts := r, tsHolds := false }) n 0 3
      match p.gate with
      | some tag => itemTransmitted s1 tag
      | none => ptcRingStatus s1 n p.idx 0
    else s
  | [] => s

/-- TS is replaced or cleared: a last word it holds is sent, and TS holds no packet's word (R344). -/
def ptcTsGone (s : State) (n : Nat) : State := ptcMod (ptcSent s n) n fun q => { q with tsHolds := false }

/-- TS takes a value that belongs to no packet. -/
def ptcTsPut (s : State) (n : Nat) (v : Word) : State := ptcMod (ptcTsGone s n) n fun q => { q with ts := v, tsN := 0 }

/-- TS takes the next word of the output FIFO (R338), if one waits. -/
def ptcLoadTs (s : State) (n : Nat) : Option State :=
  if ptcWords s n = 0 then none
  else
    let s1 := ptcTsGone s n
    match (ptc s1 n).pkts with
    | p :: r =>
      match p.words with
      | w :: ws => some (ptcMod s1 n fun q => { q with
          ts := w, tsN := 0, tsHolds := true, pkts := { p with words := ws, bytes := p.bytes - 4 } :: r })
      | [] => none
    | [] => none

/-! Pins (R330–R332). -/

/-- Whether the engine owns pin `p`. -/
def ptcOwns (s : State) (n p : Nat) : Bool := getB s (PTC_OWN n (p % 128 / 32)) (p % 32)

/-- The sample of pin `p`: 0 for a pin the engine does not own (R331, R332). Log entry 86 (DEDUCED). -/
def ptcPin (s : State) (n : Nat) (pads : Nat) (p : Nat) : Bool := ptcOwns s n (p % 128) && pads.testBit (p % 128)

/-- The 32 pins from a base (R332). Log entry 86 (DEDUCED). -/
def ptcGroup (s : State) (n pads base : Nat) : Nat :=
  (List.range 32).foldl (fun v i => v + nb (ptcPin s n pads (base + i)) * 2 ^ i) 0

/-- A number with bit `i` set to `b`. -/
def natBit (v i : Nat) (b : Bool) : Nat := if v.testBit i then (if b then v else v - 2 ^ i) else if b then v + 2 ^ i else v

/-- Drives `count` pins from `base`, levels or directions; pins not owned stay (R331). -/
def ptcDrive (s : State) (n base count v : Nat) (dirs : Bool) : State :=
  let own := (List.range count).filter fun i => ptcOwns s n ((base + i) % 128)
  let f := fun x => own.foldl (fun l i => natBit l ((base + i) % 128) (v.testBit i)) x
  ptcMod s n fun q => if dirs then { q with dir := f q.dir } else { q with level := f q.level }

/-! Instruction words (R335). -/

/-- Whether an instruction word is illegal (R335, R346). -/
def ptcBad (w : Nat) (injected : Bool) : Bool :=
  let a := nbits w 11 4
  let hi := nbits w 11 9
  match nbits w 15 12 with
  | 0 => decide (a ≠ 0)
  | 1 => decide (hi = 3 ∨ 5 ≤ hi)
  | 2 => decide (hi = 3)
  | 3 => decide (hi = 7)
  | 4 => decide (hi = 7)
  | 5 => decide (2 ≤ nbits w 11 10) || decide (nbits w 6 4 ≠ 0)
  | 6 => decide (nbits w 9 4 ≠ 0)
  | 7 =>
    let src := nbits w 10 9
    decide (src = 3) || (decide (src ≠ 0) && (decide (nbits w 11 11 = 0) || decide (nbits w 8 4 ≠ 0)))
  | 8 => injected || decide (nbits w 11 10 = 3) || decide (nbits w 8 4 ≠ 0) || decide (nbits w 3 0 ≠ 0)
  | 9 => false
  | _ => true

/-- The instruction that issues next: an injected one first (R346), else the one at PC. -/
def ptcNext (s : State) (n : Nat) : Option (Nat × Bool) :=
  let p := ptc s n
  if !(ptcEn s n) ∨ p.stall.isSome = true then none
  else match p.inj with
    | some w => if ptcRuns s n = true ∧ p.armed.isSome = true then none else some (w, true)
    | none => if ptcRuns s n = true ∧ p.armed.isNone = true then some ((getR s (PTC_PROG n p.pc)).toNat % 65536, false) else none

/-- PC after an instruction that neither jumps nor writes PC (R334). -/
def ptcAdvance (s : State) (n : Nat) (injected : Bool) : State :=
  if injected then s
  else ptcMod s n fun q => { q with
    pc := if q.pc = getF s (PTC_SEQ n) 12 8 then getF s (PTC_SEQ n) 4 0 else (q.pc + 1) % 32 }

/-- Writes PC. -/
def ptcSetPc (s : State) (n v : Nat) : State := ptcMod s n fun q => { q with pc := v % 32 }

/-- The instruction stalls (R334). -/
def ptcStallAt (s : State) (n : Nat) (st : PtcStall) : State := ptcMod s n fun q => { q with stall := some st }

/-- A destination takes a value: MOV and OUT share the operation. `dst` is 0 pins, 1 C0, 2 C1, 3 directions,
4 RS, 5 TS, 6 PC, 7 none. The second result says that PC was written. -/
def ptcPut (s : State) (n dst v : Nat) : State × Bool :=
  let base := getF s (PTC_PIN_MAP n) 6 0
  let count := min 32 (getF s (PTC_PIN_WIDTH n) 5 0)
  if dst = 0 then (ptcDrive s n base count v false, false)
  else if dst = 1 then (ptcMod s n fun q => { q with c0 := w32 v }, false)
  else if dst = 2 then (ptcMod s n fun q => { q with c1 := w32 v }, false)
  else if dst = 3 then (ptcDrive s n base count v true, false)
  else if dst = 4 then (ptcMod s n fun q => { q with rs := w32 v, rsN := 0 }, false)
  else if dst = 5 then (ptcTsPut s n (w32 v), false)
  else if dst = 6 then (ptcSetPc s n v, true)
  else (s, false)

/-- Ends an instruction: the PC advances unless it was written. -/
def ptcDone (s : State) (n : Nat) (injected wrotePc : Bool) : State :=
  let s1 := ptcMod s n fun q => { q with stall := none }
  if wrotePc then s1 else ptcAdvance s1 n injected

/-! Shifting (R336, R339). -/

/-- IN takes `k` bits into RS (R336). -/
def ptcInBits (s : State) (n v k : Nat) : State :=
  ptcMod s n fun q => { q with
    rs := if getB s (PTC_SHIFTER n) 0 then (if 32 ≤ k then w32 v else q.rs <<< k ||| w32 v) else q.rs ||| w32 (v <<< q.rsN)
    rsN := min 32 (q.rsN + k) }

/-- The delivery width. -/
def ptcWidth (s : State) (n : Nat) : Nat := if getB s (PTC_SHIFTER n) 9 then 16 else 8

/-- Delivers RS to the packing FIFO and clears it; `none` when the FIFO is full (R337). -/
def ptcDeliver (s : State) (n w : Nat) (eop : Bool) : Option State :=
  (fiqPush s n (leBytes (w / 8) (ptc s n).rs.toNat) eop).map fun t => ptcMod t n fun q => { q with rs := 0, rsN := 0 }

/-- IN of `cnt` bits from its sampled source, from where its partial shift stands (R336, R339). -/
def ptcInRun (s : State) (n cnt : Nat) (st : PtcStall) (fuel : Nat) : State :=
  match fuel with
  | 0 => s
  | fuel + 1 =>
    let w := ptcWidth s n
    match (if st.due then ptcDeliver s n w false else some s) with
    | none => ptcStallAt s n { st with why := 3 }
    | some s1 =>
      let r := cnt - st.moved
      let f := (ptc s1 n).rsN
      let auto := getB s (PTC_SHIFTER n) 8 && decide (f < w) && decide (w ≤ f + r) && decide (r ≠ 0)
      let k := if auto then w - f else r
      if r = 0 then ptcDone s1 n st.inj false
      else
        let sh := if getB s (PTC_SHIFTER n) 0 then cnt - st.moved - k else st.moved
        let s2 := ptcInBits s1 n (st.val / 2 ^ sh % 2 ^ k) k
        ptcInRun s2 n cnt { st with moved := st.moved + k, due := auto } fuel

/-- OUT gives out `k` bits of TS (R336): the bits, first bit at bit 0 in order 0 and at the top in order 1. -/
def ptcGive (s : State) (n k : Nat) : State × Nat :=
  let q := ptc s n
  let v := if getB s (PTC_SHIFTER n) 1 then q.ts.toNat / 2 ^ (32 - k) else q.ts.toNat % 2 ^ k
  let s1 := ptcMod s n fun q => { q with
    ts := if getB s (PTC_SHIFTER n) 1 then q.ts <<< k else q.ts >>> k, tsN := min 32 (q.tsN + k) }
  (if ptcUsed s1 n then ptcSent s1 n else s1, v)

/-- OUT's destination codes as those of `ptcPut`. -/
def ptcOutDst (d : Nat) : Nat := if d = 3 then 7 else if d = 4 then 3 else if d = 5 then 4 else d

/-- OUT of `cnt` bits, from where its partial shift stands (R336, R339). -/
def ptcOutRun (s : State) (n cnt dst : Nat) (st : PtcStall) (fuel : Nat) : State :=
  match fuel with
  | 0 => s
  | fuel + 1 =>
    match (if st.due then ptcLoadTs s n else some s) with
    | none => ptcStallAt s n { st with why := 4 }
    | some s1 =>
      let r := cnt - st.moved
      let left := ptcTsLim s1 n - (ptc s1 n).tsN
      let more := getB s (PTC_SHIFTER n) 20 && decide (left < r)
      let k := if more then left else r
      let g := if k = 0 then (s1, 0) else ptcGive s1 n k
      let val := if getB s (PTC_SHIFTER n) 1 then st.val * 2 ^ k + g.2 else st.val + g.2 * 2 ^ st.moved
      if more then ptcOutRun g.1 n cnt dst { st with moved := st.moved + k, val := val, due := true } fuel
      else
        let p := ptcPut g.1 n (ptcOutDst dst) val
        ptcDone p.1 n st.inj p.2

/-! Instructions (R335–R340). -/

/-- A count field: 0 stands for 32. -/
def ptcCount (w : Nat) : Nat := if nbits w 8 4 = 0 then 32 else nbits w 8 4

/-- A fresh execution record of an instruction. -/
def ptcFresh (w : Nat) (inj : Bool) (val : Nat) : PtcStall := { word := w, inj := inj, why := 0, moved := 0, val := val, due := false }

/-- SET. -/
def ptcSet (s : State) (n w : Nat) (inj : Bool) : State :=
  let v := nbits w 8 4
  let base := getF s (PTC_PIN_MAP n) 14 8
  let count := min 5 (getF s (PTC_PIN_WIDTH n) 10 8)
  let s1 := match nbits w 11 9 with
    | 0 => ptcDrive s n base count v false
    | 1 => ptcMod s n fun q => { q with c0 := w32 v }
    | 2 => ptcMod s n fun q => { q with c1 := w32 v }
    | _ => ptcDrive s n base count v true
  ptcDone s1 n inj false

/-- The value a MOV reads. -/
def ptcMovSrc (s : State) (n pads src : Nat) : Nat :=
  let q := ptc s n
  match src with
  | 0 => ptcGroup s n pads (getF s (PTC_PIN_MAP n) 22 16)
  | 1 => q.c0.toNat
  | 2 => q.c1.toNat
  | 3 => 0
  | 4 => q.rs.toNat
  | 5 => q.ts.toNat
  | 6 => ptcPkt s n
  | _ => (coreTense s).toNat % 2 ^ 32

/-- The operation of a MOV. -/
def ptcMovOp (op v : Nat) : Nat :=
  match op with
  | 0 => v
  | 1 => 0xFFFFFFFF - v
  | 2 => revBits 32 v
  | _ => beNat (leBytes 4 v)

/-- MOV's destination codes as those of `ptcPut`. -/
def ptcMovDst (d : Nat) : Nat := if d = 6 then 3 else if d = 7 then 6 else d

/-- MOV. -/
def ptcMov (s : State) (n pads w : Nat) (inj : Bool) : State :=
  let p := ptcPut s n (ptcMovDst (nbits w 11 9)) (ptcMovOp (nbits w 8 7) (ptcMovSrc s n pads (nbits w 6 4)))
  ptcDone p.1 n inj p.2

/-- The value an IN reads. -/
def ptcInSrc (s : State) (n pads src : Nat) : Nat :=
  let q := ptc s n
  match src with
  | 0 => ptcGroup s n pads (getF s (PTC_PIN_MAP n) 22 16)
  | 1 => q.c0.toNat
  | 2 => q.c1.toNat
  | 3 => 0
  | 4 => 0xFFFFFFFF
  | 5 => q.ts.toNat
  | _ => (coreTense s).toNat % 2 ^ 32

/-- PUSH (R337). -/
def ptcPush (s : State) (n : Nat) (st : PtcStall) : State :=
  let w := st.word
  let eop := w.testBit 9
  let q := ptc s n
  if w.testBit 7 = true ∧ q.rsN < ptcLim (getF s (PTC_SHIFTER n) 17 12) then ptcDone s n st.inj false
  else match ptcDeliver s n (if w.testBit 10 then 16 else 8) eop with
    | some t => ptcDone (if eop then bump t (PTC_Counters n 1) else t) n st.inj false
    | none =>
      if w.testBit 8 then
        ptcDone (ptcNote (ptcMod s n fun q => { q with rs := 0, rsN := 0 }) n 2 2) n st.inj false
      else ptcStallAt s n { st with why := 3 }

/-- PULL (R338). -/
def ptcPull (s : State) (n : Nat) (st : PtcStall) : State :=
  let w := st.word
  if w.testBit 11 && !(ptcUsed s n) then ptcDone s n st.inj false
  else match ptcLoadTs s n with
    | some t => ptcDone t n st.inj false
    | none =>
      if w.testBit 10 then
        ptcDone (bump (ptcTsPut s n (getR s (PTC_IDLE_WORD n))) (PTC_Counters n 7)) n st.inj false
      else ptcStallAt s n { st with why := 4 }

/-- WAIT: stalls until its condition holds (R335). -/
def ptcWait (s : State) (n pads : Nat) (st : PtcStall) : State :=
  let w := st.word
  let ok := match nbits w 10 9 with
    | 0 => ptcPin s n pads (getF s (PTC_PIN_MAP n) 22 16 + nbits w 8 4) == w.testBit 11
    | 1 => decide (ptcWords s n ≠ 0)
    | _ => fiqFits s n 2
  if ok then ptcDone s n st.inj false else ptcStallAt s n { st with why := 1 }

/-- The core edge at which the engine stands, in half nanoseconds: where its last instruction left it due, or later. -/
def ptcNow (s : State) (n : Nat) : Nat := max (ptc s n).due (2 * (coreTense s).toNat)

/-- AT: fixes T and stalls the next instruction until T (R340, R341). -/
def ptcAt (s : State) (n : Nat) (st : PtcStall) : State :=
  let w := st.word
  let q := ptc s n
  match nbits w 11 10, q.pkts with
  | 1, [] => ptcStallAt s n { st with why := 2 }
  | base, pk =>
    let t : DWord := match base, pk with
      | 1, p :: _ => p.start
      | 2, _ => coreTense s + BitVec.ofNat 64 q.c0.toNat
      | _, _ => q.t
    let counts := match base, pk with
      | 0, _ => true
      | 1, p :: _ => p.timed
      | _, _ => false
    let late := counts && decide (t ≤ coreTense s)
    let s1 := if late then ptcNote s n 3 1 else s
    ptcDone (ptcMod s1 n fun q => { q with t := t, armed := some (w.testBit 9, late) }) n st.inj false

/-- JMP. -/
def ptcJmp (s : State) (n pads w : Nat) (inj : Bool) : State :=
  let q := ptc s n
  let test := ptcPin s n pads (getF s (PTC_PIN_MAP n) 30 24)
  let s1 := match nbits w 11 9 with
    | 1 => ptcMod s n fun q => { q with c0 := q.c0 - 1 }
    | 2 => ptcMod s n fun q => { q with c1 := q.c1 - 1 }
    | _ => s
  let taken := match nbits w 11 9 with
    | 0 => true
    | 1 => decide ((ptc s1 n).c0 ≠ 0)
    | 2 => decide ((ptc s1 n).c1 ≠ 0)
    | 3 => decide (q.c0 = q.c1)
    | 4 => !test
    | 5 => test
    | 6 => ptcUsed s n
    | _ => decide (ptcPkt s n ≠ 0)
  if taken then ptcDone (ptcSetPc s1 n (nbits w 8 4)) n inj true else ptcDone s1 n inj false

/-- An illegal instruction does not execute: `RUN` clears, `FAULT` is set (R335). -/
def ptcFault (s : State) (n : Nat) : State :=
  raiseIrq (putB (ptcMod s n fun q => { q with fault := true, stall := none }) (PTC_CTRL n) 0 false) (PTC n) 0

/-- What a legal instruction does in its cycle, or does not because it stalls. -/
def ptcOp (s : State) (n pads : Nat) (st : PtcStall) : State :=
  let w := st.word
  match nbits w 15 12 with
  | 0 => ptcDone s n st.inj false
  | 1 => ptcSet s n w st.inj
  | 2 => ptcMov s n pads w st.inj
  | 3 => ptcOutRun s n (ptcCount w) (nbits w 11 9) st 40
  | 4 => ptcInRun s n (ptcCount w) st 40
  | 5 => ptcPush s n st
  | 6 => ptcPull s n st
  | 7 => ptcWait s n pads st
  | 8 => ptcAt s n st
  | _ => ptcJmp s n pads w st.inj

/-- An instruction that has completed in the present cycle takes `DELAY` cycles more before the next one issues; AT takes none
(R334, R340). -/
def ptcPace (s : State) (n : Nat) (w : Nat) : State :=
  if (ptc s n).stall.isSome then s
  else ptcMod s n fun q => { q with due := ptcNow s n + 5 * (1 + nbits w 3 0) }

/-- Executes a legal instruction that is in execution: its first cycle, or another try of a stalled one. -/
def ptcExec (s : State) (n pads : Nat) (st : PtcStall) : State := ptcPace (ptcOp s n pads st) n st.word

/-- The class of a word: its opcode, or 10 for an illegal instruction. -/
def ptcClass (w : Nat) (inj : Bool) : Nat := if ptcBad w inj then 10 else nbits w 15 12

/-- Issues a fetched instruction. Log entry 87 (DEDUCED). -/
def ptcIssue (s : State) (n pads w : Nat) (inj : Bool) : State :=
  let s1 := if inj then ptcMod s n fun q => { q with inj := none } else s
  if ptcBad w inj then ptcFault s1 n
  else
    let val := if nbits w 15 12 = 4 then ptcInSrc s n pads (nbits w 11 9) % 2 ^ ptcCount w else 0
    ptcExec s1 n pads (ptcFresh w inj val)

/-- The clock advances to the core edge at which the engine's next instruction issues (R334). -/
def ptcTurn (s : State) (n : Nat) : State := advanceCopy s ((ptc s n).due / 2)

/-- Engine `n` issues its next instruction, when the cycles of the last one are over, if it is of class `cls` (R334).
Log entry 87 (DEDUCED). -/
def ptcStep (n pads cls : Nat) (s : State) : State :=
  match ptcNext s n with
  | some (w, inj) => if ptcClass w inj = cls then ptcIssue (ptcTurn s n) n pads w inj else s
  | none => s

/-- What a stalled instruction waits for may have arrived: it tries again (R334). -/
def ptcRetry (n pads : Nat) (s : State) : State :=
  match (ptc s n).stall with
  | none => s
  | some st => if ptcRuns s n || (ptcEn s n && st.inj) then ptcExec (ptcMod s n fun q => { q with stall := none }) n pads st else s

/-- The CORE copy reaches T: the instruction after AT issues in the first core cycle that sees it so, and no earlier than the
cycle after AT, and `STEP` moves T on (R31, R340, R341). Log entry 87 (DEDUCED). -/
def ptcAtFire (n pads : Nat) (s : State) : State :=
  let q := ptc s n
  match q.armed with
  | none => s
  | some (step, late) =>
    if ptcRuns s n = false then s
    else
      let s0 := if late = true ∨ q.t.toNat ≤ q.due / 2 then ptcTurn s n else advanceCore s 4 q.t.toNat
      let s1 := ptcMod s0 n fun q => { q with
        armed := none, t := if step then q.t + BitVec.ofNat 64 (getR s (PTC_PERIOD n)).toNat else q.t }
      match ptcNext s1 n with
      | some (w, inj) => ptcIssue s1 n pads w inj
      | none => s1

/-! The output feeder (R343). -/

/-- The start time of a packet on the Tense counter (R343). -/
def ptcStart (s : State) (n : Nat) (p : List Byte) : DWord :=
  let t := beAt p 8 8
  if pktTb p then
    let b := getF s (PTC_TIME_CFG n) 1 0
    tense s + (BitVec.ofNat 64 t - BitVec.ofNat 64 (tbNs s b))
  else BitVec.ofNat 64 t

/-- A packet that passed its checks enters the output FIFO. -/
def ptcEnter (s : State) (n : Nat) (gate : Option Nat) (idx : Nat) (p : List Byte) : State :=
  let d := slice p 16 (pktLen p)
  let k : PtcPkt := { gate := gate, idx := idx, timed := pktTimed p, start := ptcStart s n p, words := pktWords d 64, bytes := pktLen p }
  ptcMod s n fun q => { q with pkts := q.pkts ++ [k] }

/-- Whether a packet must wait for its time base or for room. -/
def ptcWaits (s : State) (n : Nat) (p : List Byte) : Bool :=
  (pktTb p && !(tbValid s (getF s (PTC_TIME_CFG n) 1 0))) || decide (64 < ptcWords s n + (pktLen p + 3) / 4)

/-- Loads the ring slot at `TX_TAIL` (R343, R344). Log entry 88 (DEDUCED). -/
def ptcLoadRing (s : State) (n : Nat) : State :=
  let sz := getF s (PTC_TX_SIZE n) 12 0
  let tl := getF s (PTC_TX_TAIL n) 11 0
  if sz = 0 ∨ tl = getF s (PTC_TX_HEAD n) 11 0 then s
  else
    let r := fabRead s 5 ((getR s (PTC_TX_BASE n)).toNat + 256 * tl) 256 true
    let slot := r.2.2
    let p := slice slot 16 (16 + min 224 (beAt slot 18 2))
    let eat := fun u => putF u (PTC_TX_TAIL n) 11 0 ((tl + 1) % sz)
    if r.2.1 ≠ .ok then ptcNote (ptcRingStatus (eat r.1) n tl 1) n 4 4
    else if pktWellFormed p && ptcWaits r.1 n p then r.1
    else if (crc32c (slot.take 8 ++ p)).toNat ≠ leAt slot 8 4 then ptcNote (ptcRingStatus (eat r.1) n tl 1) n 4 4
    else
      let j := if getB r.1 (PTC_GUARDED n) 0 then sieveJudge r.1 (384 + n) 27 p false (8 + engineOf r.1 (384 + n)) else (r.1, true)
      if j.2 = false then ptcNote (ptcRingStatus (eat j.1) n tl 2) n 5 5
      else if pktWellFormed p = false ∨ beAt slot 18 2 ≠ pktLen p then bump (ptcRingStatus (eat j.1) n tl 3) (PTC_Counters n 6)
      else ptcEnter (eat j.1) n none tl p

/-- The feeder loads a packet: the oldest Gate record, else the ring slot at the tail (R343). -/
def ptcFeed (n : Nat) (s : State) : State :=
  if !(ptcEn s n) then s
  else match (sget s.gate.entry (384 + n) []) with
    | [] => ptcLoadRing s n
    | g :: _ =>
      if pktTb g.bytes && !(tbValid s (getF s (PTC_TIME_CFG n) 1 0)) then ptcLoadRing s n
      else if ptcWaits s n g.bytes then s
      else
        let s1 := gateEntryDrop s (384 + n) g.tag
        if crc32c g.bytes ≠ g.check then itemEndExit (ptcNote s1 n 4 4) g.tag 0x12
        else ptcEnter s1 n (some g.tag) 0 g.bytes

/-! Registers (R330, R345, R346, R348, R589). -/

/-- Whether a write of master `m` reaches a register of R345: while `GUARDED` is 1, the SSP's alone. -/
def ptcLets (s : State) (m : Master) (n : Nat) : Bool := decide (m = mSSP) || !(getB s (PTC_GUARDED n) 0)

/-- A write to a register of R345. -/
def ptcGuarded (m : Master) (n off : Nat) (changed : Bool) (f : State → State) (s : State) : State :=
  if ptcLets s m n then f s else if changed then deny s errDeniedField m (PTC n + off) true else s

/-- ABORT (R346). -/
def ptcAbortNow (n : Nat) (s : State) : State :=
  let q := ptc s n
  let bits := match q.stall with
    | some st => st.moved
    | none => 0
  let s1 := setR s (PTC_ABORT_BITS n) (w32 bits)
  let s2 := ptcTsGone s1 n
  raiseIrq (ptcMod s2 n fun q => { q with
    stall := none, armed := none, rs := 0, rsN := 0, ts := 0, tsN := 0, pc := getF s (PTC_CTRL n) 20 16 }) (PTC n) 7

/-- RESTART (R346). -/
def ptcRestartNow (n : Nat) (s : State) : State :=
  ptcMod (ptcTsGone s n) n fun q => { q with
    stall := none, armed := none, c0 := 0, c1 := 0, rs := 0, rsN := 0, ts := 0, tsN := 0, t := 0, fault := false
    pc := getF s (PTC_CTRL n) 12 8 }

/-- The engine starts for the first time at `START_PC` (R348, R589). -/
def ptcFirst (n : Nat) (s : State) : State :=
  if ptcRuns s n = true ∧ (ptc s n).ran = false then
    ptcMod s n fun q => { q with ran := true, pc := getF s (PTC_CTRL n) 12 8 }
  else s

/-- A write of `PTC.CTRL` (R345, R346, R348). -/
def ptcCtrl (m : Master) (n : Nat) (v : Word) (s : State) : State :=
  let d := regDesc .PTC n 0x040
  let changed := bit v 30 || bit v 29 || differ (getR s (PTC_CTRL n)) v d.rw
  ptcGuarded m n 0x040 changed (fun t =>
    let t1 := setR t (PTC_CTRL n) (plainValue d 0 (getR t (PTC_CTRL n)) v)
    let t2 := if bit v 30 then ptcAbortNow n t1 else t1
    ptcFirst n (if bit v 29 then ptcRestartNow n t2 else t2)) s

/-- A write of a plain register of R345. -/
def ptcPlain (m : Master) (n off : Nat) (v : Word) (s : State) : State :=
  let d := regDesc .PTC n off
  ptcGuarded m n off (differ (getR s (PTC n + off)) v d.rw) (fun t => setR t (PTC n + off) (plainValue d 0 (getR t (PTC n + off)) v)) s

/-- A write of `SHIFTER`: a lower `TS_LIMIT` may use TS up (R336, R344). -/
def ptcShifter (m : Master) (n : Nat) (v : Word) (s : State) : State :=
  let t := ptcPlain m n 0x04C v s
  if ptcUsed t n then ptcSent t n else t

/-- A write of `INJECT`: discarded while the slot is full (R346). -/
def ptcInject (m : Master) (n : Nat) (v : Word) (s : State) : State :=
  ptcGuarded m n 0x06C true (fun t => if (ptc t n).inj.isSome then t else ptcMod t n fun q => { q with inj := some (v.toNat % 65536) }) s

/-- A write of `T_LO` or `T_HI`: accepted only while `RUN` = 0 (R348). -/
def ptcT (m : Master) (n : Nat) (hi : Bool) (v : Word) (s : State) : State :=
  let old := (ptc s n).t
  let new := if hi then dword v (lo32 old) else dword (hi32 old) v
  if getB s (PTC_CTRL n) 0 then
    if new = old then s else recErr s (PTC n) errLocked m (if hi then PTC_T_HI n else PTC_T_LO n) true
  else ptcMod s n fun q => { q with t := new }

/-- Whether another engine owns pin `p` (R330). -/
def ptcTaken (s : State) (n p : Nat) : Bool := (List.range 64).any fun i => decide (i ≠ n) && ptcOwns s i p

/-- A write of `OWN[k]` (R330, R331). -/
def ptcOwn (m : Master) (n k : Nat) (v : Word) (s : State) : State :=
  let old := getR s (PTC_OWN n k)
  ptcGuarded m n (0x0A0 + 4 * k) (decide (old ≠ v)) (fun t =>
    if getB t (PTC_CTRL n) 0 then if old = v then t else recErr t (PTC n) errLocked m (PTC_OWN n k) true
    else
      let refused := (List.range 32).filter fun j => bit v j && ptcTaken t n (32 * k + j)
      let new := refused.foldl (fun w j => setBit w j false) v
      let gone := (List.range 32).filter fun j => bit old j && !(bit new j)
      let drop := fun x => gone.foldl (fun l j => natBit l (32 * k + j) false) x
      let t1 := ptcMod (setR t (PTC_OWN n k) new) n fun q => { q with
        conflict := decide (refused ≠ []), level := drop q.level, dir := drop q.dir }
      if refused = [] then t1 else raiseIrq t1 (PTC n) 6) s

/-- `STATUS` as it reads (R348). -/
def ptcStatus (s : State) (n : Nat) : Word :=
  let q := ptc s n
  let why := match q.stall, q.armed with
    | some st, _ => st.why
    | none, some _ => 2
    | none, none => 0
  w32 (nb q.inj.isSome * 2 ^ 31 + nb (decide (why ≠ 0)) * 2 ^ 30 + why * 2 ^ 27 + nb q.conflict * 2 ^ 26 + nb q.fault * 2 ^ 25 +
    q.pc * 2 ^ 16 + q.rsN * 2 ^ 8 + q.tsN)

/-- `OUT_Q` as it reads. -/
def ptcOutQ (s : State) (n : Nat) : Word :=
  w32 (min 4 (sget s.gate.entry (384 + n) []).length * 2 ^ 24 + ptcPkt s n * 2 ^ 16 + ptcWords s n)

/-- `SOFT_RST`: the engine's functional state resets; the released imperatives in its output FIFO are lost with it and end AGED,
as R323 states for a controller's soft reset (R25). Log entry 22 (DEDUCED). -/
def ptcSoft (n : Nat) (s : State) : State :=
  let s1 := (ptc s n).pkts.foldl (fun t p => match p.gate with
    | some tag => releasedEnd t tag ocAged
    | none => t) s
  { s1 with ptc := sdel s1.ptc n }

/-- The ATs whose time passed in DOZE report themselves late (R341, R519). -/
def ptcAtLate (s : State) : State :=
  s.ptc.foldl (fun t e => match e.2.armed with
    | some (step, false) =>
      if e.2.due < 2 * e.2.t.toNat ∧ e.2.t ≤ coreTense s then
        ptcMod (ptcNote t e.1 3 1) e.1 fun q => { q with armed := some (step, true) }
      else t
    | _ => t) s

/-! The commands. -/

/-- NOP (R335). -/
def execPtcNop (n : Fin 64) (s : State) : Res := .next (ptcStep n.val 0 0 s)
/-- SET (R335). -/
def execPtcSet (n : Fin 64) (s : State) : Res := .next (ptcStep n.val 0 1 s)
/-- MOV (R335). -/
def execPtcMov (n : Fin 64) (pads : BitVec 128) (s : State) : Res := .next (ptcStep n.val pads.toNat 2 s)
/-- OUT (R336). -/
def execPtcOut (n : Fin 64) (s : State) : Res := .next (ptcStep n.val 0 3 s)
/-- IN (R336). -/
def execPtcIn (n : Fin 64) (pads : BitVec 128) (s : State) : Res := .next (ptcStep n.val pads.toNat 4 s)
/-- PUSH (R337). -/
def execPtcPush (n : Fin 64) (s : State) : Res := .next (ptcStep n.val 0 5 s)
/-- PULL (R338). -/
def execPtcPull (n : Fin 64) (s : State) : Res := .next (ptcStep n.val 0 6 s)
/-- WAIT (R335). -/
def execPtcWait (n : Fin 64) (pads : BitVec 128) (s : State) : Res := .next (ptcStep n.val pads.toNat 7 s)
/-- AT (R340). -/
def execPtcAt (n : Fin 64) (s : State) : Res := .next (ptcStep n.val 0 8 s)
/-- JMP (R335). -/
def execPtcJmp (n : Fin 64) (pads : BitVec 128) (s : State) : Res := .next (ptcStep n.val pads.toNat 9 s)
/-- An illegal instruction (R335). -/
def execPtcIllegal (n : Fin 64) (s : State) : Res := .next (ptcStep n.val 0 10 s)
/-- A stall ends (R334). -/
def execPtcStallEnd (n : Fin 64) (pads : BitVec 128) (s : State) : Res := .next (ptcRetry n.val pads.toNat s)
/-- AT fires (R341). -/
def execAtFire (n : Fin 64) (pads : BitVec 128) (s : State) : Res := .next (ptcAtFire n.val pads.toNat s)
/-- The feeder loads (R343). -/
def execPacketLoad (n : Fin 64) (s : State) : Res := .next (ptcFeed n.val s)
/-- `PROG[i]` is written (R346). -/
def execProgWrite (m : Master) (n : Fin 64) (i : Fin 32) (v : Word) (s : State) : Res :=
  .next (gatedWrite m (PTC_PROG n.val i.val) (ptcPlain m n.val (0x100 + 4 * i.val) v) s)
/-- `INJECT` is written (R346). -/
def execInject (m : Master) (n : Fin 64) (v : Word) (s : State) : Res :=
  .next (gatedWrite m (PTC_INJECT n.val) (ptcInject m n.val v) s)
/-- `CTRL.ABORT` is written (R346). -/
def execPtcAbort (m : Master) (n : Fin 64) (v : Word) (s : State) : Res :=
  .next (gatedWrite m (PTC_CTRL n.val) (ptcCtrl m n.val (setBit v 30 true)) s)
/-- `CTRL.RESTART` is written (R346). -/
def execPtcRestart (m : Master) (n : Fin 64) (v : Word) (s : State) : Res :=
  .next (gatedWrite m (PTC_CTRL n.val) (ptcCtrl m n.val (setBit v 29 true)) s)
/-- `CTRL.RUN` is written (R346). -/
def execPtcRun (m : Master) (n : Fin 64) (v : Word) (s : State) : Res :=
  .next (gatedWrite m (PTC_CTRL n.val) (ptcCtrl m n.val (setFld v 30 29 0)) s)
/-- `OWN[k]` is written (R330). -/
def execOwnWrite (m : Master) (n : Fin 64) (k : Fin 4) (v : Word) (s : State) : Res :=
  .next (gatedWrite m (PTC_OWN n.val k.val) (ptcOwn m n.val k.val v) s)

end Sys2Proof.Machine
end

