-- ==== Sys2Proof/Machine/Tns.lean ====
section
/-! DEFINITION. The Tense unit's commands (R479–R506): reference, time bases, snapshots, captures, timed
outputs, PPS outputs and the timestamp ring. -/

namespace Sys2Proof.Machine

open Reg

/-- Timed output `i`. -/
def toutOf (s : State) (i : Nat) : OutSt := sget s.time.tout i OutSt.init

/-- Sets timed output `i`. -/
def toutSet (s : State) (i : Nat) (o : OutSt) : State :=
  { s with time := { s.time with tout := sset s.time.tout i o } }

/-- PPS output `j`. -/
def ppsOf (s : State) (j : Nat) : PpsSt := sget s.time.pps j PpsSt.init

/-- Sets PPS output `j`. -/
def ppsSet (s : State) (j : Nat) (o : PpsSt) : State :=
  { s with time := { s.time with pps := sset s.time.pps j o } }

/-- The first nanosecond that is not in the past of a base's value. -/
def nowUp (v : Nat) : Nat := (v + fracOne - 1) / fracOne

/-! The reference (R482). -/

/-- The state of the TIME PLL after its source or its input changes: locked to 10 MHz, on REF, or in holdover. -/
def refFollow (s : State) : State :=
  let src := getB s TNS_REF_CTRL 0
  let present := getB s TNS_REF_STATUS 1
  if !src then putB (putB s TNS_REF_STATUS 2 false) TNS_REF_STATUS 3 false
  else if present then putB (putB s TNS_REF_STATUS 2 true) TNS_REF_STATUS 3 false
  else putB (putB s TNS_REF_STATUS 2 false) TNS_REF_STATUS 3 (getB s TNS_REF_CTRL 8)

/-- The 10 MHz input is lost. Log entry 100 (DEDUCED). -/
def refLoss (s : State) : State :=
  if getB s TNS_REF_STATUS 1 then raiseIrq (refFollow (putB s TNS_REF_STATUS 1 false)) TNS 14 else s

/-- The 10 MHz input returns. A PLL that fell back to REF stays there until its source is written; one in holdover
follows the input again. Log entry 100 (DEDUCED). -/
def refRegain (s : State) : State :=
  if getB s TNS_REF_STATUS 1 then s
  else
    let s1 := putB s TNS_REF_STATUS 1 true
    raiseIrq (if getB s TNS_REF_STATUS 3 then s1 else refFollow s1) TNS 14

/-- A write of `REF_CTRL`. Log entry 100 (DEDUCED). -/
def refCtrl (m : Master) (v : Word) (s : State) : State :=
  refFollow (plainWrite (regDesc .TNS 0 0x048) m ⟨.TNS, 0, TNS⟩ 0x048 v s)

/-! Time bases (R486–R490). -/

/-- Whether `PROTECT` keeps master `m` from base `b` (R489). -/
def tbProtected (s : State) (m : Master) (b : Nat) : Bool :=
  getB s (TNS_TB_CTRL b) 30 && !(decide (m = mSSP) || decide (m = mMGP))

/-- A write that `PROTECT` may discard and record (R489). -/
def tbGuarded (m : Master) (b a : Nat) (f : State → State) (s : State) : State :=
  if tbProtected s m b then deny s errDeniedField m a true else f s

/-- Outputs with `GATE_VALID` on a base that is not valid rest at `IDLE` (R500). -/
def outputsRest (s : State) : State :=
  (List.range 8).foldl (fun t i =>
    let c := getR t (TNS_OUT_CTRL i)
    if bit c 28 && !(tbValid t (fld c 30 29)) then
      toutSet t i { toutOf t i with active := false, pulse := none }
    else t) s

/-- `VALID` of a base changes, by software or hardware (R488). -/
def changeValid (s : State) (b : Nat) (v : Bool) : State := outputsRest (putValid s b v)

/-- No base is valid any longer (R488). Log entry 105 (DEDUCED). -/
def tbsInvalid (s : State) : State := (List.range 4).foldl (fun t b => changeValid t b false) s

/-- A write of `TB_CTRL[b]`: `PROTECT` is SSP only, and `VALID` is guarded by it (R488, R489). -/
def tbCtrl (m : Master) (b : Nat) (v : Word) (s : State) : State :=
  let a := TNS_TB_CTRL b
  let p := tbProtected s m b
  let d : RDesc := { rw := 0xC000FFFF, w1c := 0x30000000, ssp := 0x40000000 + (if p then 0x80000000 else 0) }
  let old := tbValid s b
  let s1 := plainWrite d m ⟨.TNS, 0, TNS⟩ (a - TNS) v s
  outputsRest (if tbValid s1 b = old then s1 else validMoved s1 b)

/-- A write of `RATE[b]` (R486). -/
def tbRate (b : Nat) (v : Word) (s : State) : State := servoUpdate (setR s (TNS_RATE b) v) b

/-- The first event time of a periodic output that is not in the past at the value `v` (R500). -/
def firstEvent (start period v : Nat) : Nat :=
  let c := nowUp v
  if c ≤ start then start else start + roundUp (c - start) period

/-- One edge of timed output `i` (R499): with `GATE_VALID` and a base that is not valid, no edge is made (R500).
Log entry 101 (DEDUCED). -/
def outEdge (s : State) (i : Nat) : State :=
  let c := getR s (TNS_OUT_CTRL i)
  let o := toutOf s i
  if bit c 28 && !(tbValid s (fld c 30 29)) then s
  else match o.mode with
    | 0 => toutSet s i { o with active := true }
    | 1 => toutSet s i { o with active := !o.active }
    | _ => toutSet s i { o with active := true, pulse := some (tenseNs s + o.width) }

/-- The next event of timed output `i` is made (R499). Log entry 101 (DEDUCED). -/
def outEvent (s : State) (i : Nat) : State :=
  match (toutOf s i).next with
  | none => s
  | some e =>
    let s1 := outEdge s i
    let o := toutOf s1 i
    let s2 := toutSet s1 i { o with next := if o.period = 0 then none else some (e + o.period), late := false }
    raiseIrq (if o.late then putB s2 (TNS_OUT_STATUS i) 1 true else s2) TNS 12

/-- An output on a base that has moved takes its next event anew (R502). -/
def outMoved (s : State) (b i : Nat) : State :=
  let c := getR s (TNS_OUT_CTRL i)
  let o := toutOf s i
  if bit c 31 && decide (fld c 30 29 = b) then
    match o.next with
    | none => s
    | some e =>
      if o.period ≠ 0 then toutSet s i { o with next := some (firstEvent o.start o.period (tbOf s b).v) }
      else if e * fracOne < (tbOf s b).v then outEvent (toutSet s i { o with late := true }) i
      else s
  else s

/-- A PPS output on a base that has moved takes its next event anew (R502). -/
def ppsMoved (s : State) (b j : Nat) : State :=
  if getF s (TNS_PPS_CTRL j) 30 29 = b then ppsSet s j { ppsOf s j with last := none } else s

/-- SET or STEP gives base `b` the value `v` (R487, R502): gate lists on it restart. -/
def tbMove (s : State) (b v : Nat) : State :=
  let s0 := glistFreeze s b
  let s1 := tbSet s0 b { v := v % tbMod, slew := 0, ppm := (tbOf s b).ppm, servo := s.time.tense }
  let s2 := (List.range 8).foldl (fun t i => outMoved t b i) s1
  let s3 := (List.range 2).foldl (fun t j => ppsMoved t b j) s2
  raiseIrq (putB (glistRestart s3 b) (TNS_TB_CTRL b) 29 true) TNS 15

/-- `ADJ_CMD` ends with FORMAT (R487). -/
def adjFormat (s : State) (b : Nat) : State := putB s (TNS_ADJ_STATUS b) 30 true

/-- `ADJ_CMD` is accepted: FORMAT of the last command clears. -/
def adjClear (s : State) (b : Nat) : State := putB s (TNS_ADJ_STATUS b) 30 false

/-- SET (R487). -/
def adjSet (s : State) (b : Nat) : State :=
  let ns := getF s (TNS_ARG_NS b) 29 0
  if 999999999 < ns then adjFormat s b
  else tbMove (adjClear s b) b (((getR64 s (TNS_ARG_SEC_LO b)).toNat * 1000000000 + ns) * fracOne)

/-- STEP: adds `ARG_SEC` × 10^9 + `ARG_NS` nanoseconds, `ARG_SEC` signed (R487). -/
def adjStep (s : State) (b : Nat) : State :=
  let ns := getF s (TNS_ARG_NS b) 29 0
  if 999999999 < ns then adjFormat s b
  else
    let off : Int := ((getR64 s (TNS_ARG_SEC_LO b)).toInt * 1000000000 + (ns : Int)) * (fracOne : Int)
    tbMove (adjClear s b) b (Int.toNat ((((tbOf s b).v : Int) + off) % (tbMod : Int)))

/-- SLEW: `SLEW_PPM` of 0 acts as 1 and one above 1,000 as 1,000 (R487). -/
def adjSlew (s : State) (b ppm : Nat) : State :=
  let amount := (getR s (TNS_ARG_SLEW_NS b)).toInt * (fracOne : Int)
  tbSet (adjClear s b) b { tbOf s b with slew := amount, ppm := max 1 (min 1000 ppm), servo := s.time.tense }

/-- CANCEL: the amount already added stays (R487). -/
def adjCancel (s : State) (b : Nat) : State :=
  tbSet (adjClear s b) b { tbOf s b with slew := 0, servo := s.time.tense }

/-- A write of `ADJ_CMD[b]` (R487); an op code that the table does not list ends with FORMAT (R586).
Log entry 20 (DEDUCED). -/
def adjCmd (b : Nat) (v : Word) (s : State) : State :=
  match fld v 2 0 with
  | 1 => adjSet s b
  | 2 => adjStep s b
  | 3 => adjSlew s b (fld v 25 16)
  | 4 => adjCancel s b
  | _ => adjFormat s b

/-- `ADJ_STATUS[b]` as it reads: slew active and the amount still to add, in whole nanoseconds. -/
def adjStatus (s : State) (b : Nat) : Word :=
  let r := (tbOf s b).slew
  setFld (setBit (getR s (TNS_ADJ_STATUS b)) 31 (decide (r ≠ 0))) 29 0 (r.natAbs / fracOne)

/-- `SNAP` (R490). -/
def tnsSnap (s : State) : State :=
  (List.range 4).foldl (fun t b =>
    let v := (tbOf s b).v
    setR (setR (setR64 t (TNS_SNAP_SEC_LO b) (BitVec.ofNat 64 (vSec v))) (TNS_SNAP_NS b) (w32 (vNs v)))
      (TNS_SNAP_FRAC b) (w32 (vFrac v))) (setR64 s TNS_SNAP_TNOW_LO s.time.tense)

/-- A read of `TNOW_LO` latches `TNOW_HI` for the reading master (R481). -/
def tnowRead (m : Master) (s : State) : State × Word :=
  let t := coreTense s
  (setR s (perM m TNS_TNOW_HI) (hi32 t), lo32 t)

/-- A read of `TB_NS[b]` latches seconds and fraction for the reading master (R490). -/
def tbNsRead (m : Master) (b : Nat) (s : State) : State × Word :=
  let v := (tbOf s b).v
  let d := BitVec.ofNat 64 (vSec v)
  let s1 := setR (setR s (perM m (TNS_TB_SEC_LO b)) (lo32 d)) (perM m (TNS_TB_SEC_HI b)) (hi32 d)
  (setR s1 (perM m (TNS_TB_FRAC b)) (w32 (vFrac v)), w32 (vNs v))

/-- The validity limit of base `b` expires (R488). Log entry 102 (DEDUCED). -/
def holdExpiry (s : State) (b : Nat) : State :=
  let lim := getF s (TNS_TB_CTRL b) 15 0
  if lim = 0 ∨ tbValid s b = false then s
  else
    let s1 := advanceNs s ((tbOf s b).servo.toNat + lim * 1000000000)
    putB (changeValid s1 b false) (TNS_TB_CTRL b) 28 true

/-! Captures (R497, R498). -/

/-- The records that capture unit `i` holds. -/
def capsOf (s : State) (i : Nat) : List CapRec := sget s.time.caps i []

/-- Sets the records of capture unit `i`. -/
def capsSet (s : State) (i : Nat) (l : List CapRec) : State :=
  { s with time := { s.time with caps := sset s.time.caps i l } }

/-- Whether capture unit `i` takes this edge: units 8 and 9 take rising edges only (R497, R505). -/
def capTakes (s : State) (i : Nat) (rising : Bool) : Bool :=
  getB s (BLK_CTRL TNS) 0 && getB s (TNS_CAP_CTRL i) 31 &&
  (if 8 ≤ i then rising else if rising then getB s (TNS_CAP_CTRL i) 16 else getB s (TNS_CAP_CTRL i) 17)

/-- A filtered transition, `ph` nanoseconds into the present TIME cycle (R480, R497). -/
def captureEdge (s : State) (i : Nat) (rising : Bool) (ph : Nat) : State :=
  if !(capTakes s i rising) then s
  else if 4 ≤ (capsOf s i).length then bump (putB s (TNS_CAP_STATUS i) 8 true) (TNS_CAP_LOST i)
  else
    let b := getF s (TNS_CAP_CTRL i) 30 29
    let v := tbAtPhase s b ph
    let r : CapRec :=
      { t := s.time.tense + BitVec.ofNat 64 ph, sec := BitVec.ofNat 64 (vSec v), ns := vNs v, frac := vFrac v
        rising := rising, valid := tbValid s b }
    raiseIrq (capsSet s i (capsOf s i ++ [r])) TNS (2 + i)

/-- A read of `CAP_NS[i]` (R498). -/
def capNsRead (m : Master) (i : Nat) (s : State) : State × Word :=
  let put (t : State) (sec : DWord) (frac : Nat) (tn : DWord) : State :=
    let t1 := setR (setR t (perM m (TNS_CAP_SEC_LO i)) (lo32 sec)) (perM m (TNS_CAP_SEC_HI i)) (hi32 sec)
    let t2 := setR t1 (perM m (TNS_CAP_FRAC i)) (w32 frac)
    setR (setR t2 (perM m (TNS_CAP_TNOW_LO i)) (lo32 tn)) (perM m (TNS_CAP_TNOW_HI i)) (hi32 tn)
  match capsOf s i with
  | [] => (put s 0 0 0, 0x3FFFFFFF#32)
  | r :: l =>
    (put (capsSet s i l) r.sec r.frac r.t, w32 (nb r.rising * 0x80000000 + nb r.valid * 0x40000000 + r.ns))

/-! Timed outputs (R499, R500). -/

/-- `EN` rises: the output is armed with its registers as they stand (R500). -/
def outArm (s : State) (i : Nat) : State :=
  let c := getR s (TNS_OUT_CTRL i)
  let v := (tbOf s (fld c 30 29)).v
  let start := (getR64 s (TNS_OUT_START_SEC_LO i)).toNat * 1000000000 + getF s (TNS_OUT_START_NS i) 29 0
  let p0 := (getR s (TNS_OUT_PERIOD i)).toNat
  let p := if p0 = 0 then 0 else max 16 p0
  let w0 := (getR s (TNS_OUT_WIDTH i)).toNat
  let w := if p = 0 then max 4 w0 else max 4 (min w0 (p - 4))
  toutSet s i
    { start := start, period := p, width := w, mode := fld c 25 24
      next := some (if p = 0 then start else firstEvent start p v)
      late := decide (p = 0) && decide (start * fracOne < v), active := false, pulse := none }

/-- A write of `OUT_CTRL[i]` (R500): a reserved `MODE` leaves the field. -/
def outCtrl (m : Master) (i : Nat) (v : Word) (s : State) : State :=
  let a := TNS_OUT_CTRL i
  let old := getR s a
  let v1 := if fld v 25 24 = 3 then setFld v 25 24 (fld old 25 24) else v
  let s1 := plainWrite (regDesc .TNS 0 (a - TNS)) m ⟨.TNS, 0, TNS⟩ (a - TNS) v1 s
  let s2 :=
    if bit v1 31 && !(bit old 31) then outArm s1 i
    else if bit v1 31 then s1
    else toutSet s1 i { toutOf s1 i with next := none, late := false, active := false, pulse := none }
  outputsRest s2

/-- `OUT_CTRL[i]` as it reads. -/
def outCtrlRead (s : State) (i : Nat) : Word := setBit (getR s (TNS_OUT_CTRL i)) 26 (toutOf s i).next.isSome

/-- The level of pin TNS_OUT`i` (R499, R500). -/
def outLevel (s : State) (i : Nat) : Bool :=
  getB s (BLK_CTRL TNS) 0 && ((getB s (TNS_OUT_CTRL i) 27) != (toutOf s i).active)

/-- `OUT_STATUS[i]` as it reads. -/
def outStatusRead (s : State) (i : Nat) : Word := setBit (getR s (TNS_OUT_STATUS i)) 0 (outLevel s i)

/-- A timed output's event falls (R499); a late one acts in the next TIME cycle (R500). Log entry 103 (DEDUCED). -/
def timedOutputEvent (s : State) (i : Nat) : State :=
  if getB s (BLK_CTRL TNS) 0 && getB s (TNS_OUT_CTRL i) 31 then
    match (toutOf s i).next with
    | none => s
    | some e =>
      let b := getF s (TNS_OUT_CTRL i) 30 29
      outEvent (if (toutOf s i).late then advanceCycles s 1 else advanceTb s b e) i
  else s

/-- A pulse ends (R499). Log entry 103 (DEDUCED). -/
def pulseEnd (s : State) (i : Nat) : State :=
  match (toutOf s i).pulse with
  | none => s
  | some t =>
    let s1 := advanceNs s t
    toutSet s1 i { toutOf s1 i with active := false, pulse := none }

/-- `PPS_OFFSET`, clamped (R501). -/
def ppsOffset (s : State) (j : Nat) : Int := max (-500000000) (min 500000000 (getR s (TNS_PPS_OFFSET j)).toInt)

/-- The composite time of PPS output `j`'s next event (R501). -/
def ppsNext (s : State) (j : Nat) : Nat :=
  let c : Int := (nowUp (tbOf s (getF s (TNS_PPS_CTRL j) 30 29)).v : Int)
  let off := ppsOffset s j
  let e := ((c - off + 999999999) / 1000000000) * 1000000000 + off
  let e1 := Int.toNat (if e < 0 then e + 1000000000 else e)
  match (ppsOf s j).last with
  | some l => if e1 ≤ l then e1 + 1000000000 else e1
  | none => e1

/-- A PPS output's event falls (R501). Log entries 101 (DEDUCED), 103 (DEDUCED). -/
def ppsEvent (s : State) (j : Nat) : State :=
  if getB s (BLK_CTRL TNS) 0 && getB s (TNS_PPS_CTRL j) 31 then
    let b := getF s (TNS_PPS_CTRL j) 30 29
    let e := ppsNext s j
    let s1 := advanceTb s b e
    let w := max 100 (min 999999999 (getR s1 (TNS_PPS_WIDTH j)).toNat)
    if getB s1 (TNS_PPS_CTRL j) 28 && !(tbValid s1 b) then ppsSet s1 j { ppsOf s1 j with last := some e }
    else ppsSet s1 j { last := some e, fallAt := tenseNs s1 + w }
  else s

/-- The level of pin TNS_PPS_OUT`j` (R501). -/
def ppsLevel (s : State) (j : Nat) : Bool :=
  let c := getR s (TNS_PPS_CTRL j)
  getB s (BLK_CTRL TNS) 0 && bit c 31 && decide (tenseNs s < (ppsOf s j).fallAt) &&
    !(bit c 28 && !(tbValid s (fld c 30 29)))

/-! The timestamp ring (R493). -/

/-- Interrupt bit 0 stands while the ring is not empty (R493, R506). -/
def tsrLevel (s : State) : State :=
  setRaw s TNS 0 (decide (getF s TNS_TSR_HEAD 15 0 ≠ getF s TNS_TSR_TAIL 15 0))

/-- A timestamp record, but for its `LOST` flag, goes into the ring as master 5, or is lost (R493).
Log entry 104 (DEDUCED). -/
def tsrPush (s : State) (rec_ : List Byte) : State :=
  let sz := getF s TNS_TSR_SIZE 16 0
  let hd := getF s TNS_TSR_HEAD 15 0
  if sz = 0 then s
  else if (hd + 1) % sz = getF s TNS_TSR_TAIL 15 0 then
    raiseIrq (satInc { s with time := { s.time with tsrLost := true } } TNS_TSR_LOST) TNS 1
  else
    let f := beAt rec_ 3 1 + nb s.time.tsrLost * 8
    let w := fabWrite s 5 ((getR s TNS_TSR_BASE).toNat + 32 * hd) (overlay rec_ 3 [b8 f]) false
    tsrLevel (putF { w.1 with time := { w.1.time with tsrLost := false } } TNS_TSR_HEAD 15 0 ((hd + 1) % sz))

/-! Block reset and wake (R48, R503). -/

/-- What a reset of the TNS block does beside its registers: each base reads the Tense counter, and captures and
outputs are empty, and the PLL follows the source at its reset value (R482, R483). Log entry 105 (DEDUCED). -/
def tnsSoft (s : State) : State :=
  refFollow { s with time := { s.time with
      tb := (List.range 4).map fun b => (b, { TbSt.init with v := tenseNs s * fracOne, servo := s.time.tense })
      caps := [], tout := [], pps := [], tsrLost := false } }

/-- Output `i` after a wake from RETAIN: a periodic output's next event is the first that is not in the past, and a one-event
output whose time passed is late (R500, R503). Log entry 102 (DEDUCED). -/
def outWoken (s : State) (i : Nat) : State :=
  let o := toutOf s i
  let v := (tbOf s (getF s (TNS_OUT_CTRL i) 30 29)).v
  match o.next with
  | none => s
  | some e =>
    if o.period = 0 then toutSet s i { o with late := decide (e * fracOne < v) }
    else toutSet s i { o with next := some (firstEvent o.start o.period v) }

/-- The unit resumes at a wake from RETAIN after `ns` nanoseconds on the AON clock (R503). Log entry 102 (DEDUCED). -/
def tnsWake (s : State) (ns : Nat) : State :=
  let k := ns / 4
  let s1 := { s with time := { s.time with
      running := true, tense := s.time.tense + BitVec.ofNat 64 (4 * k), caps := []
      tb := (List.range 4).foldl (fun m b => sset m b (tbAfter (tbOf s b) (tbInc s b) k)) s.time.tb
      tout := s.time.tout.map fun e => (e.1, { e.2 with active := false, pulse := none })
      pps := s.time.pps.map fun e => (e.1, { e.2 with fallAt := 0 }) } }
  (List.range 4).foldl (fun t b =>
    if tbValid t b then putB (changeValid t b false) (TNS_TB_CTRL b) 28 true else t) ((List.range 8).foldl outWoken s1)

/-! The commands. -/

/-- The 10 MHz reference is lost (R482). -/
def execRef10mLoss (s : State) : Res := .next (refLoss s)

/-- The 10 MHz reference returns (R482). -/
def execRef10mRegain (s : State) : Res := .next (refRegain s)

/-- `REF_CTRL` is written (R482). -/
def execRefCtrlWrite (m : Master) (v : Word) (s : State) : Res := .next (gatedWrite m TNS_REF_CTRL (refCtrl m v) s)

/-- `RATE[b]` is written (R486, R489). -/
def execRateWrite (m : Master) (b : Fin 4) (v : Word) (s : State) : Res :=
  .next (gatedWrite m (TNS_RATE b.val) (tbGuarded m b.val (TNS_RATE b.val) (tbRate b.val v)) s)

/-- `ADJ_CMD` SET (R487). -/
def execAdjSet (m : Master) (b : Fin 4) (s : State) : Res :=
  .next (gatedWrite m (TNS_ADJ_CMD b.val) (tbGuarded m b.val (TNS_ADJ_CMD b.val) fun t => adjSet t b.val) s)

/-- `ADJ_CMD` STEP (R487). -/
def execAdjStep (m : Master) (b : Fin 4) (s : State) : Res :=
  .next (gatedWrite m (TNS_ADJ_CMD b.val) (tbGuarded m b.val (TNS_ADJ_CMD b.val) fun t => adjStep t b.val) s)

/-- `ADJ_CMD` SLEW with `SLEW_PPM` (R487). -/
def execAdjSlew (m : Master) (b : Fin 4) (ppm : BitVec 10) (s : State) : Res :=
  .next (gatedWrite m (TNS_ADJ_CMD b.val)
    (tbGuarded m b.val (TNS_ADJ_CMD b.val) fun t => adjSlew t b.val ppm.toNat) s)

/-- `ADJ_CMD` CANCEL (R487). -/
def execAdjCancel (m : Master) (b : Fin 4) (s : State) : Res :=
  .next (gatedWrite m (TNS_ADJ_CMD b.val) (tbGuarded m b.val (TNS_ADJ_CMD b.val) fun t => adjCancel t b.val) s)

/-- A slew adds its last remainder (R487): the clock advances until it has. -/
def execSlewComplete (b : Fin 4) (s : State) : Res :=
  let t := tbOf s b.val
  let st := slewStep t.ppm
  .next (if st = 0 then s else advanceCycles s ((t.slew.natAbs + st - 1) / st))

/-- `HOLD_LIMIT` expires (R488). -/
def execHoldLimitExpiry (b : Fin 4) (s : State) : Res := .next (holdExpiry s b.val)

/-- `SNAP` is written (R490). -/
def execTnsSnap (m : Master) (v : Word) (s : State) : Res :=
  .next (gatedWrite m TNS_SNAP (fun t => if bit v 0 then tnsSnap t else t) s)

/-- `TB_NS[b]` is read (R490). -/
def execTbNsRead (m : Master) (b : Fin 4) (s : State) : Res :=
  .next (gatedRead m (TNS_TB_NS b.val) (tbNsRead m b.val) s)

/-- A filtered transition on a capture or PPS input (R497). -/
def execCaptureEdge (i : Fin 10) (rising : Bool) (ph : BitVec 2) (s : State) : Res :=
  .next (captureEdge s i.val rising ph.toNat)

/-- `CAP_NS[i]` is read (R498). -/
def execCapNsRead (m : Master) (i : Fin 10) (s : State) : Res :=
  .next (gatedRead m (TNS_CAP_NS i.val) (capNsRead m i.val) s)

/-- `TSR_LOST` is read and clears (R505). -/
def execTsrLostRead (m : Master) (s : State) : Res :=
  .next (gatedRead m TNS_TSR_LOST (fun t => (setR t TNS_TSR_LOST 0, getR t TNS_TSR_LOST)) s)

/-- `OUT_CTRL[i]` is written with `EN` set (R500). -/
def execOutputArm (m : Master) (i : Fin 8) (v : Word) (s : State) : Res :=
  .next (gatedWrite m (TNS_OUT_CTRL i.val) (outCtrl m i.val (setBit v 31 true)) s)

/-- A timed output's event falls (R499). -/
def execTimedOutputEvent (i : Fin 8) (s : State) : Res := .next (timedOutputEvent s i.val)

/-- A timed output's pulse ends (R499). -/
def execPulseEnd (i : Fin 8) (s : State) : Res := .next (pulseEnd s i.val)

/-- A PPS output's event falls (R501). -/
def execPpsOutputEvent (j : Fin 2) (s : State) : Res := .next (ppsEvent s j.val)

end Sys2Proof.Machine
end

