-- ==== Sys2Proof/Machine/Pads.lean ====
section
/-! DEFINITION. The output pads that the blocks drive, and how they are latched while their group is held (R526, R564). -/

namespace Sys2Proof.Machine

open Reg

/-- The pad group of output pad `k`, in the numbering of this model: PIO0 to PIO127, then MBn_TXD from 128, the pins A_TXD,
A_TXEN, B_TXD and B_TXEN of each PLn from 176, TNS_OUT from 240 and TNS_PPS_OUT from 248 (R526, R564). -/
def padGroup (k : Nat) : Nat := if k < 128 then k / 32 else if k < 176 then 4 else if k < 240 then 5 else 6

/-- How pin PIO`k` stands: as its owner drives it, else at its weak pull-down (R331, R564). -/
def pioPad (s : State) (k : Nat) : TxPin :=
  match (List.range 64).find? fun n => ptcOwns s n k && (ptc s n).dir.testBit k with
  | some n => ⟨true, (ptc s n).level.testBit k⟩
  | none => ⟨false, false⟩

/-- One of the four output pins of a Period Link controller. -/
def plkPad (p : PlkSt) (i : Nat) : TxPin :=
  match i with
  | 0 => p.chA.txd
  | 1 => p.chA.txen
  | 2 => p.chB.txd
  | _ => p.chB.txen

/-- How the block behind pad `k` drives it (R290, R312, R331, R500). -/
def padLive (s : State) (k : Nat) : TxPin :=
  if k < 128 then pioPad s k
  else if k < 176 then (mdb s (k - 128)).txd
  else if k < 240 then plkPad (plk s ((k - 176) / 4)) (k % 4)
  else if k < 248 then ⟨getB s (BLK_CTRL TNS) 0, outLevel s (k - 240)⟩
  else ⟨getB s (BLK_CTRL TNS) 0, ppsLevel s (k - 248)⟩

/-- Pad `k` as it stands: latched while its group is held (R526). -/
def padAt (s : State) (k : Nat) : TxPin :=
  if getB s PWR_PAD_HOLD (padGroup k) then sget s.pwr.pads k ⟨false, false⟩ else padLive s k

/-- `OUT_STATUS[i]` as it reads: bit 0 is the level of the pin, which its hold keeps (R505, R526). -/
def outPinRead (s : State) (i : Nat) : Word := setBit (outStatusRead s i) 0 (padAt s (240 + i)).level

/-- What pad `k` is latched at once the groups of the mask `gs` are held (R526). -/
def padLatch (s : State) (gs k : Nat) : TxPin :=
  if gs.testBit (padGroup k) then padAt s k else sget s.pwr.pads k ⟨false, false⟩

/-- The groups of the mask `gs` are held: their pads are latched as they stand (R526). -/
def padsHold (gs : Nat) (s : State) : State :=
  let l := (List.range 250).map fun k => (k, padLatch s gs k)
  let s1 := { s with pwr := { s.pwr with pads := l } }
  raiseIrq (setR s1 PWR_PAD_HOLD (getR s PWR_PAD_HOLD ||| w32 gs)) PWR 5

end Sys2Proof.Machine
end

