-- ==== Sys2Proof/Machine/TestPort.lean ====
section
/-! DEFINITION. The analog test buses (R553) and the test access port (R554, R555). -/

namespace Sys2Proof.Machine

open Reg

/-! Analog test buses. -/

/-- Whether the policy or the debug scope enables the buses (R553). -/
def atbWanted (s : State) : Bool := getB s VLT_POLICY 3 || dbgScope s 3

/-- Whether the buses are enabled, as `STATUS` shows it. -/
def atbOn (s : State) : Bool := getB s ATB_STATUS 31

/-- `SEL0` or `SEL1`. -/
def atbSel (b : Nat) : Nat := ATB_SEL0 + 4 * b

/-- Shows node `n` on bus `b`. -/
def atbShow (s : State) (b n : Nat) : State := putF s ATB_STATUS (8 * b + 5) (8 * b) n

/-- Enablement follows the policy and the debug scope: it begins with the stored selects, and both buses disconnect
where it ends (R553). -/
def atbFollow (s : State) : State :=
  if atbWanted s = atbOn s then s
  else
    let s1 := raiseIrq (putB s ATB_STATUS 31 (atbWanted s)) ATB 1
    let s2 := { s1 with test := { s1.test with atb := [] } }
    if atbWanted s then atbShow (atbShow s2 0 (getF s2 ATB_SEL0 5 0)) 1 (getF s2 ATB_SEL1 5 0)
    else atbShow (atbShow s2 0 0) 1 0

/-- A select is written: it is stored; while enabled, a change disconnects the old node (R553). -/
def atbSelect (b : Nat) (v : Word) (s : State) : State :=
  let new := w32 (fld v 5 0)
  let same := decide (getR s (atbSel b) = new)
  let s1 := setR s (atbSel b) new
  if atbOn s then
    if same then s1
    else atbShow { s1 with test := { s1.test with atb := sset s1.test.atb b s1.time.tense } } b 0
  else raiseIrq (satInc s1 ATB_REFUSED) ATB 0

/-- One microsecond after a change of select the new node connects (R553): the clock advances to it. -/
def atbConnect (b : Nat) (s : State) : State :=
  match sfind s.test.atb b with
  | none => s
  | some t =>
    let s1 := advanceNs s (t.toNat + 1000)
    atbShow { s1 with test := { s1.test with atb := sdel s1.test.atb b } } b (getF s1 (atbSel b) 5 0)

/-- `SEL0` or `SEL1` is written. -/
def execAtbSelect (m : Master) (b : Fin 2) (v : Word) (s : State) : Res :=
  .next (gatedWrite m (atbSel b.val) (atbSelect b.val v) s)

/-- A new node connects. -/
def execAtbConnect (b : Fin 2) (s : State) : Res := .next (atbConnect b.val s)

/-- Enablement begins or ends. -/
def execAtbEnablementChange (s : State) : Res := .next (atbFollow s)

/-- `ATB.REFUSED` reads and clears. -/
def execRefusedRead (m : Master) (s : State) : Res :=
  .next (gatedRead m ATB_REFUSED (fun t => (setR t ATB_REFUSED 0, getR t ATB_REFUSED)) s)

/-! The test access port. -/

/-- Update-IR loads instruction `code`. Log entry 154 (DESIGN CHOICE). -/
def tapLoad (code : Nat) (s : State) : State := { s with test := { s.test with ir := code } }

/-- Update-IR with an output-controlling instruction: the first after a reset locks the Gate down and is journalled
(R555). -/
def tapDrive (code : Nat) (s : State) : State :=
  if s.sys.scanLock then tapLoad code s
  else
    let s1 := { s with sys := { s.sys with scanLock := true } }
    tapLoad code (lockdownBegin (jRecord s1 5 (jMs s1 + 1) 0 0))

/-- IDCODE (R554): stepping A1, 0x9192, the maker's JEP106 identity as the BSDL file states it, and 1.
Log entry 170 (DESIGN CHOICE). -/
def idcode : Word := 0x1#4 ++ (0x9192#16 ++ (Config.jep106 ++ 1#1))

/-- What the data register that the TAP instruction selects captures, where R554 or IEEE 1149.1 gives it: the code after
IDCODE, 0 after BYPASS and what acts as it. -/
def tapCapture (s : State) : Option Word :=
  if s.test.ir = 1 then some idcode
  else if [0, 2, 3, 4, 5, 6, 0x10].contains s.test.ir then none else some 0

/-- The codes that R554 lists. -/
def tapListed (code : Nat) : Bool := [0, 1, 2, 3, 4, 5, 6, 0x10, 0x20].contains code

/-- A TAP reset selects IDCODE (R554). -/
def execTapReset (s : State) : Res := .next { s with test := { s.test with ir := 1 } }

/-- EXTEST (R554, R555). -/
def execExtest (s : State) : Res := .next (tapDrive 0 s)

/-- IDCODE (R554). -/
def execIdcode (s : State) : Res := .next (tapLoad 1 s)

/-- SAMPLE/PRELOAD (R554). -/
def execSamplePreload (s : State) : Res := .next (tapLoad 2 s)

/-- EXTEST_PULSE (R554, R555). -/
def execExtestPulse (s : State) : Res := .next (tapDrive 3 s)

/-- EXTEST_TRAIN (R554, R555). -/
def execExtestTrain (s : State) : Res := .next (tapDrive 4 s)

/-- CLAMP (R554, R555). -/
def execClamp (s : State) : Res := .next (tapDrive 5 s)

/-- HIGHZ (R554, R555). -/
def execHighz (s : State) : Res := .next (tapDrive 6 s)

/-- DBG_ACCESS: the access port of master 7 (R554). -/
def execDbgAccess (s : State) : Res := .next (tapLoad 0x10 s)

/-- PROD_TEST acts as BYPASS on shipped parts (R554). -/
def execProdTest (s : State) : Res := .next (tapLoad 0x20 s)

/-- BYPASS, or a code that R554 does not list and that acts as BYPASS. -/
def execBypass (code : BitVec 8) (s : State) : Res :=
  .next (if tapListed code.toNat then s else tapLoad code.toNat s)

end Sys2Proof.Machine
end

