-- ==== Sys2Proof/Machine/Pairs.lean ====
section
/-! DEFINITION. Redundancy pairs (R231–R236): which pairs are active, their duplicate tables, and the HSR tag and PRP
trailer that a MAC inserts. -/

namespace Sys2Proof.Machine

open Reg

/-- `RED_CTRL` of port `p`. -/
def redW (s : State) (p : Nat) : Word := getR s (MAC_RED_CTRL p)

/-- Whether port `p` offers itself to a pair: `RED_CTRL.EN`, which acts while the MAC runs (R231, R588). -/
def redOn (s : State) (p : Nat) : Bool := macOn s p && bit (redW s p) 31

/-- Whether port `p` offers itself to pair `k` with role `b` (B when true). -/
def redOffers (s : State) (p k : Nat) (b : Bool) : Bool :=
  let w := redW s p
  redOn s p && decide (fld w 3 0 = k) && (bit w 27 == b)

/-- Whether the page of port `p` is an A port's, which alone holds a pair's registers (R231, R243).
Log entry 162 (DEDUCED). -/
def redPage (s : State) (p : Nat) : Bool := !(bit (redW s p) 27)

/-- The two ports that form pair `k`, if it is active (R231). -/
def pairFormed (s : State) (k : Nat) : Option (Nat × Nat) :=
  match (List.range 192).filter fun p => redOn s p && decide (fld (redW s p) 3 0 = k) with
  | [x, y] =>
    let a := if redOffers s x k false then x else y
    let b := if redOffers s x k false then y else x
    let wa := redW s a
    let wb := redW s b
    if redOffers s a k false && redOffers s b k true && decide (fld wa 23 16 = b) && decide (fld wb 23 16 = a) &&
        decide (fld wa 29 28 = fld wb 29 28) && (decide (fld wa 29 28 = 1) || decide (fld wa 29 28 = 2)) then some (a, b)
    else none
  | _ => none

/-- Pair `k`. -/
def pairSt (s : State) (k : Nat) : PairSt := sget s.eth.pair k PairSt.init

/-- Changes pair `k`. -/
def pairMod (s : State) (k : Nat) (f : PairSt → PairSt) : State :=
  { s with eth := { s.eth with pair := smod s.eth.pair k PairSt.init f } }

/-- The interrupt line of pair `k` follows the status and enables of the port that offers itself as its A port (R245). -/
def updPairLine (s : State) (k : Nat) : State :=
  setLine s (336 + k) ((List.range 192).any fun p =>
    redOffers s p k false && decide ((getR s (MAC_PAIR_IRQ_STATUS p) &&& getR s (MAC_PAIR_IRQ_ENABLE p)) ≠ 0))

/-- The line of the pair that a port names. -/
def updPairOf (s : State) (p : Nat) : State := updPairLine s (fld (redW s p) 3 0)

/-- A pair interrupt condition at the A port `a`. -/
def raisePairIrq (s : State) (a i : Nat) : State := updPairOf (putB s (MAC_PAIR_IRQ_STATUS a) i true) a

/-- A counter of the pair whose A port is `a` (R243). -/
def pairCount (s : State) (a k : Nat) : State := bump s (MAC_Pair_counters a k)

/-- Pair `k` takes the ports that form it now; a change shows in the A ports' pages and clears the duplicate table. -/
def pairSettle (s : State) (k : Nat) : State :=
  let old := (pairSt s k).ports
  let new := pairFormed s k
  if old = new then s
  else
    let s1 := match old with
      | some (a, _) => raisePairIrq (putB s (MAC_PAIR_STATUS a) 0 false) a 0
      | none => s
    let s2 := pairMod s1 k fun q => { q with ports := new, dups := [] }
    match new with
    | some (a, _) => raisePairIrq (putB s2 (MAC_PAIR_STATUS a) 0 true) a 0
    | none => s2

/-- `MISMATCH` of a port follows whether it offers itself and is not paired; in an A port's page its setting is an interrupt
condition (R231, R245). -/
def pairMismatch (s : State) (p : Nat) : State :=
  let v := redOn s p && (pairOf s p).isNone
  let s1 := putB s (MAC_PAIR_STATUS p) 1 v
  if v && !(getB s (MAC_PAIR_STATUS p) 1) && redPage s p then raisePairIrq s1 p 0 else s1

/-- The pairs form anew, and their lines follow. -/
def redSettle (s : State) : State :=
  let s1 := (List.range 192).foldl pairMismatch ((List.range 16).foldl pairSettle s)
  (List.range 16).foldl updPairLine s1

/-- A write of `RED_CTRL` (R231): a pair that the port belongs to ends at once with its duplicate table; then the pairs
form anew. -/
def redCtrl (m : Master) (p : Nat) (v : Word) (s : State) : State :=
  let s1 := match pairOf s p with
    | some (k, a, _) =>
      pairMod (raisePairIrq (putB s (MAC_PAIR_STATUS a) 0 false) a 0) k fun q => { q with ports := none, dups := [] }
    | none => s
  redSettle (plainWrite (regDesc .MAC p 0x080) m ⟨.MAC, p, MAC p⟩ 0x080 v s1)

/-- `PAIR_SA` of the pair whose A port is `a`. -/
def pairSa (s : State) (a : Nat) : Nat := getF s (MAC_PAIR_SA_HI a) 15 0 * 0x100000000 + (getR s (MAC_PAIR_SA_LO a)).toNat

/-- The life of a duplicate entry in nanoseconds. -/
def dupLife (s : State) (a : Nat) : Nat := max 1 (getF s (MAC_PAIR_FORGET_MS a) 15 0) * 1000000

/-- The live entries of pair `k` (R234). -/
def dupLive (s : State) (k a : Nat) : List DupEnt :=
  (pairSt s k).dups.filter fun e => decide ((tense s - e.made).toNat < dupLife s a)

/-- The live entry of a source address and sequence number. -/
def dupFind (s : State) (k a sa seq : Nat) : Option DupEnt :=
  (dupLive s k a).find? fun e => decide (e.sa = sa) && decide (e.seq = seq)

/-- A first copy creates its entry; a full table evicts the oldest (R234). -/
def dupAdd (s : State) (k a sa seq : Nat) : State :=
  let l := dupLive s k a
  let full := decide (2048 ≤ l.length)
  let e : DupEnt := { sa := sa, seq := seq, made := tense s, sentA := false, sentB := false }
  let s1 := pairMod s k fun q => { q with dups := (if full then l.drop 1 else l) ++ [e] }
  if full then raisePairIrq (pairCount s1 a 5) a 2 else s1

/-- The entry records that the frame has been sent toward the B port (`toB`), or toward the A port (R236). -/
def dupSent (s : State) (k sa seq : Nat) (toB : Bool) : State :=
  pairMod s k fun q => { q with dups := q.dups.map fun e =>
    if e.sa = sa ∧ e.seq = seq then { e with sentA := e.sentA || !toB, sentB := e.sentB || toB } else e }

/-- The oldest duplicate entry of a pair reaches its life: the clock advances to that moment (R234). -/
def dupExpire (k : Nat) (s : State) : State :=
  match (pairSt s k).ports, (pairSt s k).dups with
  | some (a, _), e :: _ =>
    let s1 := advanceNs s (e.made.toNat + dupLife s a)
    pairMod s1 k fun q => { q with dups := dupLive s1 k a }
  | _, _ => s

/-- `PAIR_STATUS` as it reads. -/
def pairStatusRead (s : State) (p : Nat) : Word :=
  match pairOf s p with
  | some (k, a, _) => if a = p then setFld (getR s (MAC_PAIR_STATUS p)) 27 16 (dupLive s k a).length else getR s (MAC_PAIR_STATUS p)
  | none => getR s (MAC_PAIR_STATUS p)

/-- Whether offset `off` of a MAC page is a register or counter that only an A port's page holds (R243). -/
def pairReg (off : Nat) : Bool :=
  (decide (0x084 ≤ off) && decide (off < 0x090)) || (decide (0x0A0 ≤ off) && decide (off < 0x0B0)) ||
  (decide (0x200 ≤ off) && decide (off < 0x248))

/-! Tags and trailers on the way out (R220, R233). -/

/-- The outer tag removed under `UNTAG_PVID`. -/
def txUntag (s : State) (p : Nat) (b : List Byte) : List Byte :=
  if getB s (MAC_CFG p) 3 ∧ tagBytes b ≠ 0 ∧ beAt b 14 2 % 4096 = fld (portW s p 0) 19 8 then untag b else b

/-- A frame with an HSR tag of sequence number `seq` after its 802.1Q tags. Log entry 56 (PRESUMED). -/
def hsrInsert (b : List Byte) (seq : Nat) : List Byte :=
  let o := 12 + tagBytes b
  b.take o ++ [0x89#8, 0x2F#8] ++ beBytes 2 ((b.length - o - 2 + 6) % 4096) ++ beBytes 2 seq ++ b.drop o

/-- A frame, padded, with a PRP trailer of LAN `lan` and sequence number `seq` at its end. Log entry 56 (PRESUMED). -/
def prpInsert (b : List Byte) (lan seq : Nat) : List Byte :=
  let c := padTo b 54
  c ++ beBytes 2 seq ++ beBytes 2 (lan * 4096 + (c.length + 6 - (14 + tagBytes c)) % 4096) ++ [0x88#8, 0xFB#8]

/-- The bytes of a frame as port `p` sends them, with sequence number `seq` where it inserts one (R220). -/
def txShape (s : State) (p : Nat) (f : Frame) (seq : Nat) : List Byte :=
  let b := txUntag s p f.bytes
  let c := match pairOf s p with
    | some (k, a, _) =>
      if f.fromPair = some k then b
      else
        let x := pairStrip s f b
        if pairHsr s k = some true then hsrInsert x seq else prpInsert x (if a = p then 0xA else 0xB) seq
    | none => pairStrip s f b
  padTo c 60

/-- The sequence number that a copy of a frame carries on port `p`: the one that the pair's first copy took, or the pair's
next (R233). -/
def txSeq (s : State) (p fid : Nat) (f : Frame) : State × Nat :=
  match pairOf s p with
  | none => (s, 0)
  | some (k, _, _) =>
    if f.fromPair = some k then (s, 0)
    else match f.pairSeq.find? fun e => decide (e.1 = k) with
      | some e => (s, e.2)
      | none =>
        let n := (pairSt s k).seq
        (frameMod (pairMod s k fun q => { q with seq := (n + 1) % 65536 }) fid fun g => { g with pairSeq := (k, n) :: g.pairSeq }, n)

/-- `RED_CTRL` is written (R231). -/
def execRedCtrlWrite (m : Master) (p : Fin 192) (v : Word) (s : State) : Res :=
  .next (gatedWrite m (MAC_RED_CTRL p.val) (redCtrl m p.val v) s)

/-- The oldest duplicate entry of a pair expires (R234). -/
def execDupEntryExpiry (pair : Fin 16) (s : State) : Res := .next (dupExpire pair.val s)

end Sys2Proof.Machine
end

