-- ==== Sys2Proof/Machine/Ptp.lean ====
section
/-! DEFINITION. PTP event frames at the MAC ports (R491–R496): recognition, timestamps, timestamp records, one-step Sync
and the transparent clock. -/

namespace Sys2Proof.Machine

open Reg

/-- A PTP event message in a frame: where its PTP header stands, its encapsulation (0 L2, 1 UDP4, 2 UDP6) and its
messageType. -/
structure PtpMsg where
  off : Nat
  enc : Nat
  type : Nat
  deriving DecidableEq, Repr

/-- The position after the EtherType of a frame, past its tags, and that EtherType (R100). -/
def etherAt (b : List Byte) : Nat × Nat :=
  let tb := tagBytes b
  if beAt b (12 + tb) 2 = 0x892F then (20 + tb, beAt b (18 + tb) 2) else (14 + tb, beAt b (12 + tb) 2)

/-- The PTP header's place for the encapsulations that `w` (`TS_CFG`) enables. -/
def ptpPlace (w : Word) (b : List Byte) : Option (Nat × Nat) :=
  let e := etherAt b
  let o := e.1
  if e.2 = 0x88F7 ∧ bit w 23 = true then some (o, 0)
  else if e.2 = 0x0800 ∧ bit w 22 = true ∧ beAt b o 1 % 16 = 5 ∧ beAt b (o + 9) 1 = 17 ∧ beAt b (o + 6) 2 % 0x4000 = 0 ∧
      beAt b (o + 22) 2 = 319 then some (o + 28, 1)
  else if e.2 = 0x86DD ∧ bit w 21 = true ∧ beAt b (o + 6) 1 = 17 ∧ beAt b (o + 42) 2 = 319 then some (o + 48, 2)
  else none

/-- The event message that a frame at port `p` carries, if the port gives it PTP treatment (R491). -/
def ptpMsg (s : State) (p : Nat) (b : List Byte) : Option PtpMsg :=
  let w := getR s (TNS_TS_CFG p)
  if bit w 31 = false ∨ getB s (BLK_CTRL TNS) 0 = false then none
  else match ptpPlace w b with
    | none => none
    | some (o, enc) =>
      if o + 34 ≤ b.length ∧ beAt b (o + 1) 1 % 16 = 2 ∧ beAt b o 1 % 16 ≤ 3 then
        some { off := o, enc := enc, type := beAt b o 1 % 16 }
      else none

/-- The speed code of port `p`. -/
def macSpeed (s : State) (p : Nat) : Nat := getF s (MAC_LINK p) 2 0

/-- A bit time of port `p` in tenths of a nanosecond. -/
def bitTenths (s : State) (p : Nat) : Nat := lget [1000, 100, 10, 4, 1] (macSpeed s p) 1

/-- The nanoseconds that `n` bytes take on port `p`. -/
def bytesNs (s : State) (p n : Nat) : Nat := (8 * n * bitTenths s p + 9) / 10

/-- The lane of a port (R212). -/
def laneOf (p : Nat) : Nat := if p < 176 then p / 4 else p - 132

/-- The Tense counter moved by `ps` picoseconds, to 1 ns: which neighbour a fraction goes to is left open (R238).
Log entry 79 (DESIGN CHOICE). -/
def stampNs (s : State) (ps : Int) : State × DWord :=
  let x : Int := (tenseNs s : Int) * 1000 + ps
  let q := x / 1000
  if x % 1000 = 0 then (s, BitVec.ofInt 64 q)
  else
    let f := fresh s
    (f.2, BitVec.ofInt 64 (q + (f.1.toNat % 2 : Nat)))

/-- The timestamp of a received frame's first byte at port `p` (R238). -/
def rxStamp (s : State) (p : Nat) : State × DWord := stampNs s (-((getR s (MAC_TS_ING_LAT p)).toInt))

/-- The timestamp of a transmitted frame at port `p`, whose delimiter begins `ph` picoseconds from now (R238). -/
def txStamp (s : State) (p ph : Nat) : State × DWord := stampNs s ((ph : Int) + (getR s (MAC_TS_EGR_LAT p)).toInt)

/-- Picoseconds in units of 2^-16 ns, rounded to the nearest. -/
def psUnits (ps : Int) : Int := (ps * 131072 + 1000) / 2000

/-- A Tense timestamp in base `b`, in 2^-48 ns (R484). Log entry 79 (DESIGN CHOICE). -/
def stampIn (s : State) (b : Nat) (t : DWord) : Nat := tbAtPhase s b ((t - tense s).toInt)

/-- Whether the port's `TS_ASYM` is taken from the timestamp of a message (R492). -/
def asymTaken (m : PtpMsg) (tx : Bool) : Bool :=
  if tx then decide (m.type = 1) || decide (m.type = 2) else decide (m.type = 0) || decide (m.type = 3)

/-- The port's time base. -/
def ptpBase (s : State) (p : Nat) : Nat := getF s (TNS_TS_CFG p) 30 29

/-- The timestamp of a message in the port's base, as 2^-48 ns: with the asymmetry taken off, rounded to 2^-16 ns (R492). -/
def ptpValue (s : State) (p : Nat) (m : PtpMsg) (tx : Bool) (t : DWord) : Nat :=
  let v := stampIn s (ptpBase s p) t
  if asymTaken m tx then
    let x : Int := (v : Int) - (getR s (MAC_TS_ASYM p)).toInt * (fracOne : Int) / 1000
    Int.toNat (((x + 0x80000000) / 0x100000000 * 0x100000000) % (tbMod : Int))
  else v

/-- The timestamp record of a message, but for `LOST` (R493). -/
def ptpRecord (s : State) (p : Nat) (b : List Byte) (m : PtpMsg) (tx oneStep : Bool) (t : DWord) : List Byte :=
  let bs := ptpBase s p
  let v := ptpValue s p m tx t
  let two := (beAt b (m.off + 6) 1).testBit 1
  [b8 p, b8 (nb tx * 128 + bs * 16 + m.type), b8 (beAt b (m.off + 4) 1),
   b8 (nb oneStep + 2 * nb two + 4 * nb (asymTaken m tx) + 16 * nb (!(tbValid s bs)))] ++
  leBytes 2 (beAt b (m.off + 30) 2) ++ slice b (m.off + 20) 10 ++ leBytes 6 (vSec v) ++ leBytes 2 (vFrac v) ++
  leBytes 4 (vNs v) ++ leBytes 4 (lo32 t).toNat

/-- A received event message produces a record (R493). -/
def ptpReceive (s : State) (p : Nat) (b : List Byte) (t : DWord) : State :=
  match ptpMsg s p b with
  | none => s
  | some m =>
    if getB s (TNS_TS_CFG p) 28 then tsrPush (bump s TNS_TS_RX_RECORDS) (ptpRecord s p b m false false t) else s

/-- What the transparent clock adds to correctionField in 2^-16 ns, if it acts (R495): `f` arrived on MAC `src`.
Log entry 78 (DEDUCED). -/
def tcAdds (s : State) (p src : Nat) (m : PtpMsg) (rxTime : Word) (t : DWord) : Option Int :=
  let res : Int := ((lo32 t - rxTime).toNat * tbInc s (ptpBase s p) * 2 / 4 / 0x100000000 + 1) / 2
  let ingAsym := psUnits (getR s (MAC_TS_ASYM src)).toInt
  match getF s (TNS_TS_CFG p) 25 24, m.type with
  | 1, 0 => some (res + ingAsym)
  | 1, 1 => some (res - psUnits (getR s (MAC_TS_ASYM p)).toInt)
  | 1, _ => some res
  | 2, 0 => some (res + psUnits ((getR s (TNS_TS_PDELAY src)).toNat : Int) + ingAsym)
  | _, _ => none

/-- Adds to correctionField (header offsets 8–15). -/
def addCorrection (b : List Byte) (m : PtpMsg) (d : Int) : List Byte :=
  overlay b (m.off + 8) (beBytes 8 (BitVec.ofNat 64 (beAt b (m.off + 8) 8) + BitVec.ofInt 64 d).toNat)

/-- A changed UDP4 frame carries UDP checksum 0 (R496). -/
def clearUdp (b : List Byte) (m : PtpMsg) : List Byte := if m.enc = 1 then overlay b (m.off - 2) [0, 0] else b

/-- The egress treatment of a frame whose delimiter begins at port `p` `ph` picoseconds from now: its bytes as sent, and the record that its end writes
(R492–R496). Log entry 78 (DEDUCED). -/
def ptpTransmit (s : State) (p src : Nat) (rxTime : Word) (b : List Byte) (ph : Nat) : State × List Byte × List Byte :=
  match ptpMsg s p b with
  | none => (s, b, [])
  | some m =>
    let st := txStamp s p ph
    let s1 := st.1
    let t := st.2
    let own := decide (192 ≤ src) && decide (src ≤ 210)
    let wantOne := getB s (TNS_TS_CFG p) 26 && decide (m.type = 0) && !((beAt b (m.off + 6) 1).testBit 1) && own
    let tc := if src < 192 then tcAdds s p src m rxTime t else none
    let rec_ (one : Bool) : List Byte := if getB s (TNS_TS_CFG p) 27 && own then ptpRecord s p b m true one t else []
    if m.enc = 2 then (if wantOne || tc.isSome then bump s1 TNS_TS_NOMOD else s1, b, rec_ false)
    else if wantOne then
      let v := stampIn s (ptpBase s p) t
      let b1 := overlay b (m.off + 34) (beBytes 6 (vSec v) ++ beBytes 4 (vNs v))
      (bump s1 TNS_ONE_STEP_DONE, clearUdp (addCorrection b1 m (vFrac v)) m, rec_ true)
    else match tc with
      | some d => (bump s1 TNS_TC_UPDATES, clearUdp (addCorrection b m d) m, rec_ false)
      | none => (s1, b, rec_ false)

/-- The record of a transmitted event message is written at the frame's end (R493). -/
def ptpSent (s : State) (rec_ : List Byte) : State :=
  if rec_.isEmpty then s else tsrPush (bump s TNS_TS_TX_RECORDS) rec_

end Sys2Proof.Machine
end

