-- ==== Sys2Proof/Machine/Mac.lean ====
section
/-! DEFINITION. The Ethernet MACs (07): links and lanes, reception, egress selection and transmission, PAUSE, preemption,
Energy-Efficient Ethernet, HSR pass-through and MDIO. -/

namespace Sys2Proof.Machine

open Reg

/-- MAC `p` beside its registers. -/
def mac (s : State) (p : Nat) : MacSt := sget s.eth.mac p MacSt.init

/-- Changes MAC `p`. -/
def macMod (s : State) (p : Nat) (f : MacSt → MacSt) : State :=
  { s with eth := { s.eth with mac := smod s.eth.mac p MacSt.init f } }

/-- Counter `k` of port `p` (R243). -/
def macCount (s : State) (p k n : Nat) : State := bumpN s (MAC_Port_counters p k) n

/-- Whether the link of port `p` is up (R215). -/
def macUp (s : State) (p : Nat) : Bool := getB s (MAC_LINK p) 5

/-- The ports of a lane (R212). -/
def lanePorts (l : Nat) : List Nat := if l < 44 then [4 * l, 4 * l + 1, 4 * l + 2, 4 * l + 3] else [l + 132]

/-- The operating mode of a lane (R214). Log entry 76 (DEDUCED). -/
def laneMode (s : State) (l : Nat) : Nat := getF s (SDS_STATUS l) 10 8

/-- Whether a lane offers a mode (R213, R246). -/
def laneOffers (l m : Nat) : Bool := if l < 44 then decide (m = 1) else decide (2 ≤ m) && decide (m ≤ 5)

/-! Links and lanes (R213–R215). -/

/-- A change of `LINK.UP` (R244). -/
def putLink (s : State) (p : Nat) (up : Bool) : State :=
  if macUp s p = up then s else raiseIrq (putB s (MAC_LINK p) 5 up) (MAC p) 0

/-- The verify state of port `p`: 0 DISABLED, 1 INITIAL, 2 VERIFYING, 3 SUCCEEDED, 4 FAILED (R227). -/
def verifyState (s : State) (p : Nat) : Nat := getF s (MAC_PREEMPT_STATUS p) 2 0

/-- Sets the verify state. -/
def verifyPut (s : State) (p v : Nat) : State :=
  if verifyState s p = v then s else raiseIrq (putF s (MAC_PREEMPT_STATUS p) 2 0 v) (MAC p) 3

/-- `PREEMPT_EN` in operation: it acts while the MAC runs, and a change takes effect between frames (R226, R588). -/
def preemptEn (s : State) (p : Nat) : Bool := macOn s p && bit (mac s p).pre 0

/-- The first and second rows of R227: DISABLED while preemption is off or the link down, and out of it otherwise. -/
def verifySettle (s : State) (p : Nat) : State :=
  if preemptEn s p = false ∨ macUp s p = false then verifyPut s p 0
  else if verifyState s p = 0 then verifyPut s p (if getB s (MAC_PREEMPT_CTRL p) 1 then 1 else 3)
  else s

/-- Between frames, `PREEMPT_EN` and `PREEMPT_MASK` as written come into operation (R226). -/
def preemptSync (s : State) (p : Nat) : State :=
  if (mac s p).tx.isSome || (mac s p).held.isSome then s
  else verifySettle (macMod s p fun q => { q with pre := getR s (MAC_PREEMPT_CTRL p) }) p

/-- A write of `PREEMPT_CTRL`: a change of `VERIFY_EN` in FAILED or SUCCEEDED starts anew (R227). -/
def preemptCtrl (m : Master) (p : Nat) (v : Word) (s : State) : State :=
  let old := getB s (MAC_PREEMPT_CTRL p) 1
  let s1 := plainWrite (regDesc .MAC p 0x064) m ⟨.MAC, p, MAC p⟩ 0x064 v s
  let s2 := if getB s1 (MAC_PREEMPT_CTRL p) 1 ≠ old ∧ 3 ≤ verifyState s1 p then verifyPut s1 p 0 else s1
  verifySettle (preemptSync s2 p) p

/-- Whether preemption is active (R225, R226). -/
def preemptActive (s : State) (p : Nat) : Bool :=
  decide (verifyState s p = 3) && preemptEn s p && decide (macSpeed s p ≠ 0) &&
  match pairOf s p with
  | some (k, _, _) => decide (pairHsr s k ≠ some true)
  | none => true

/-- `PREEMPT_STATUS` as it reads. -/
def preemptStatus (s : State) (p : Nat) : Word := setBit (getR s (MAC_PREEMPT_STATUS p)) 3 (preemptActive s p)

/-! Energy-Efficient Ethernet (R228–R230). -/

/-- Whether the port's mode and speed admit LPI (R228). -/
def lpiCapable (s : State) (p : Nat) : Bool :=
  (decide (p < 176) || decide (laneMode s (laneOf p) = 2)) && (decide (macSpeed s p = 1) || decide (macSpeed s p = 2))

/-- Whether EEE is in use at the port (R228, R588). -/
def lpiUse (s : State) (p : Nat) : Bool :=
  macOn s p && macUp s p && lpiCapable s p && getB s (MAC_EEE_CTRL p) 0 && (pairOf s p).isNone && !(bit (portW s p 0) 4)

/-- A change of `LPI_TX`. -/
def putLpi (s : State) (p : Nat) (v : Bool) : State :=
  if getB s (MAC_LINK p) 6 = v then s
  else
    let s1 := raiseIrq (putB s (MAC_LINK p) 6 v) (MAC p) 4
    if v then macMod (macCount s1 p 14 1) p fun q => { q with lpiAt := s1.time.tense }
    else macCount s1 p 15 ((tense s - (mac s p).lpiAt).toNat / 1000)

/-- The wake time of the port in microseconds, at least the standard's minimum (R229). -/
def wakeUs (s : State) (p : Nat) : Nat := max (if macSpeed s p = 1 then 30 else 17) (getF s (MAC_TW_SYS p) 15 0)

/-- The transmitter leaves LPI: what it sends next starts `TX_US` later (R229). -/
def lpiOut (s : State) (p : Nat) : State :=
  macMod (putLpi s p false) p fun q => { q with readyAt := s.time.tense + BitVec.ofNat 64 (wakeUs s p * 1000) }

/-- After a change of what LPI depends on: in DOZE a running port that admits LPI is in it, whatever `EEE_CTRL` holds (R230);
in every state a port leaves LPI where it is not available to it (R228). -/
def lpiSettle (s : State) (p : Nat) : State :=
  let may := if devState s = 1 then macOn s p && macUp s p && lpiCapable s p else lpiUse s p
  if devState s = 1 && may then putLpi s p true
  else if getB s (MAC_LINK p) 6 && !may then lpiOut s p
  else s

/-! Lanes and links (R213–R215, R247). -/

/-- The speed of a port whose lane runs mode `m` and whose in-band word names `w`. -/
def speedFor (m w : Nat) : Nat := if m = 3 then 2 else if m = 4 then 3 else if m = 5 then 4 else min 2 w

/-- A change of a status bit of a lane, with its interrupt bit (R247). -/
def laneBit (s : State) (l i irq : Nat) (v : Bool) : State :=
  if getB s (SDS_STATUS l) i = v then s else raiseIrq (putB s (SDS_STATUS l) i v) (SDS l) irq

/-- A link comes up or goes down, or its speed changes: what depends on it follows (R122, R227, R228). -/
def linkSettle (s : State) (p : Nat) : State := lpiSettle (verifySettle s p) p

/-- The link of a port is down: a running MAC counts it, the pair it belongs to reports it, and neither side signals LPI
(R215, R243, R245, R588). Log entry 76 (DEDUCED). -/
def portDown (s : State) (p : Nat) : State :=
  if macUp s p then
    let s1 := putLink (shapeSettle s p) p false
    let s2 := if macOn s p then macCount s1 p 17 1 else s1
    let s3 := if getB s2 (MAC_LINK p) 7 then raiseIrq (putB s2 (MAC_LINK p) 7 false) (MAC p) 4 else s2
    let s4 := match pairOf s3 p with
      | some (_, a, _) => raisePairIrq s3 a 3
      | none => s3
    linkSettle s4 p
  else s

/-- The lane reports link up at full duplex with a speed word (R215). -/
def linkUpAt (p w : Nat) (s : State) : State :=
  let l := laneOf p
  let m := laneMode s l
  if getB s (BLK_CTRL (SDS l)) 0 = false ∨ m = 0 then s
  else
    let s1 := laneBit (laneBit (shapeSettle s p) l 0 0 true) l 1 1 true
    let s2 := putB s1 (SDS_STATUS l) 3 true
    let s3 := if m = 1 then putB s2 (SDS_STATUS l) (4 + p % 4) true else s2
    let s4 := if m = 3 ∧ getB s3 (SDS_AN_CTRL l) 0 = true then laneBit s3 l 2 2 true else s3
    let s5 := putF (putB s4 (MAC_LINK p) 4 false) (MAC_LINK p) 2 0 (speedFor m w)
    linkSettle (putLink s5 p true) p

/-- A lane loses sync or block lock, and with its signal the clock recovery too: the loss counts, and the links of all its
ports are down (R215, R246, R247). -/
def laneLost (l : Nat) (signal : Bool) (s : State) : State :=
  let s1 := if getB s (SDS_STATUS l) 1 then bump (laneBit s l 1 1 false) (SDS_LOCK_LOSS l) else s
  let s2 := if signal then putB (laneBit s1 l 0 0 false) (SDS_STATUS l) 3 false else s1
  (lanePorts l).foldl portDown (putF s2 (SDS_STATUS l) 7 4 0)

/-- The link goes down (R215): the in-band word or clause 37 result says so, at half duplex perhaps, which holds the port
down; or the lane has lost sync, block lock or its signal. Where no word exists, only the lane can end the link. -/
def linkDownAt (p : Nat) (half : Bool) (why : LaneLoss) (s : State) : State :=
  let l := laneOf p
  let m := laneMode s l
  if m = 0 then s
  else if why = .word ∧ m ≤ 3 then
    let s1 := portDown s p
    let s2 := if half && !(getB s1 (MAC_LINK p) 4) then raiseIrq (putB s1 (MAC_LINK p) 4 true) (MAC p) 5 else s1
    if m = 1 then putB s2 (SDS_STATUS l) (4 + p % 4) false else s2
  else laneLost l (decide (why = .signal)) s

/-- Code or block errors that an enabled lane has met count (R246). -/
def codeErrs (l n : Nat) (s : State) : State := if getB s (BLK_CTRL (SDS l)) 0 then bumpN s (SDS_CODE_ERR l) n else s

/-- Pattern errors that the checker has met count up to the register's limit, and set interrupt bit 3 (R246, R247). -/
def prbsErrs (l n : Nat) (s : State) : State :=
  if getB s (BLK_CTRL (SDS l)) 0 && getB s (SDS_PRBS l) 1 && decide (n ≠ 0) then
    raiseIrq (setR s (SDS_PRBS_ERR l) (w32 (min 0xFFFFFFFF ((getR s (SDS_PRBS_ERR l)).toNat + n)))) (SDS l) 3
  else s

/-- `EN` of a lane rises: the written mode applies, with its default equaliser settings, which the spec does not give
(R214, R246). Log entry 18 (DESIGN CHOICE). -/
def laneStart (l : Nat) (s : State) : State :=
  let w := getF s (SDS_MODE l) 2 0
  let f := fresh s
  setR (putF f.2 (SDS_STATUS l) 10 8 (if laneOffers l w then w else 0)) (SDS_TX_EQ l) (w32 (f.1.toNat % 65536))

/-- `EN` of a lane falls: it carries nothing, its status falls, and its ports' links are down.
Log entry 76 (DEDUCED). -/
def laneStop (l : Nat) (s : State) : State :=
  let s1 := laneBit (laneBit ((lanePorts l).foldl portDown s) l 1 1 false) l 0 0 false
  setR s1 (SDS_STATUS l) 0

/-- A write of `SDS.BLK_CTRL.EN`. -/
def laneEn (l : Nat) (v : Bool) (s : State) : State :=
  if getB s (BLK_CTRL (SDS l)) 0 = v then s
  else if v then laneStart l (putB s (BLK_CTRL (SDS l)) 0 true)
  else laneStop l (putB s (BLK_CTRL (SDS l)) 0 false)

/-- `EN` of a MAC has changed: its controls begin or cease to act (R588). -/
def macEnSettle (p : Nat) (s : State) : State := linkSettle (preemptSync (redSettle s) p) p

/-- The loopback of a port's lane: 0 none, 1 near-end, 2 far-end (R246). -/
def loopOf (s : State) (p : Nat) : Nat := if getF s (SDS_LOOPBACK (laneOf p)) 1 0 = 3 then 0 else getF s (SDS_LOOPBACK (laneOf p)) 1 0

/-- Whether a port's lane carries traffic: it generates no pattern (R246). -/
def carries (s : State) (p : Nat) : Bool := !(getB s (SDS_PRBS (laneOf p)) 0)

/-- What a port sends leaves at the line, unless its lane is looped or generates a pattern (R246).
Log entry 76 (DEDUCED). -/
def lineOut (s : State) (p : Nat) (o : Out) : State := if carries s p && decide (loopOf s p = 0) then emit s o else s

/-- A write of `AN_CTRL`: `AN_RESTART` clears what negotiation had found (R246). -/
def anCtrl (l : Nat) (v : Word) (s : State) : State :=
  let s1 := putB s (SDS_AN_CTRL l) 0 (bit v 0)
  if bit v 1 then putB s1 (SDS_STATUS l) 2 false else s1

/-! PAUSE (R222–R224). -/

/-- A quantum of 512 bit times, times `n`, in nanoseconds. -/
def quantaNs (s : State) (p n : Nat) : Nat := bytesNs s p (64 * n)

/-- Whether the partner has paused the port. -/
def paused (s : State) (p : Nat) : Bool := getB s (MAC_PAUSE_STATUS p) 0

/-- The paused state of the port changes (R244). -/
def putPaused (s : State) (p q : Nat) : State :=
  let v := decide (q ≠ 0)
  let s1 := putF (putB s (MAC_PAUSE_STATUS p) 0 v) (MAC_PAUSE_STATUS p) 31 16 q
  if paused s p = v then s1 else raiseIrq s1 (MAC p) 2

/-- The port's own source address (R243). -/
def macSa (s : State) (p : Nat) : Nat := getF s (MAC_SA_HI p) 15 0 * 0x100000000 + (getR s (MAC_SA_LO p)).toNat

/-- A received PAUSE frame (R223): its quanta count from the end of the frame in progress. -/
def pauseRx (p da q : Nat) (s : State) : State :=
  let s1 := macCount s p 5 1
  if (da = 0x0180C2000001 ∨ da = macSa s p) ∧ getB s (MAC_PAUSE_CTRL p) 0 = true then
    macMod (putPaused s1 p q) p fun x =>
      { x with pauseFrom := if x.tx.isSome || x.held.isSome then none else some s.time.tense }
  else s1

/-- The quanta that remain of a received pause, as `PAUSE_STATUS` shows them: a part of one counts whole.
Log entry 75 (DEDUCED). -/
def pauseLeft (s : State) (p : Nat) : Nat :=
  let q := getF s (MAC_PAUSE_STATUS p) 31 16
  match (mac s p).pauseFrom with
  | some t => q - (tense s - t).toNat * 10 / (512 * bitTenths s p)
  | none => q

/-- The received quanta have elapsed: the clock advances to that moment. -/
def pauseEnd (p : Nat) (s : State) : State :=
  match (mac s p).pauseFrom with
  | some t =>
    if paused s p then
      putPaused (advanceNs s (t.toNat + quantaNs s p (getF s (MAC_PAUSE_STATUS p) 31 16))) p 0
    else s
  | none => s

/-- Ingress occupancy of port `p`: the cells of all its frames that wait in any queue (R224). -/
def ingressCells (s : State) (p : Nat) : Nat :=
  s.sw.frames.foldl (fun n e =>
    if e.2.src = p ∧ (s.sw.queue.any fun q => decide (q.fid = e.1)) = true then n + cellsFor e.2.len else n) 0

/-- Whether the port may send PAUSE frames (R221, R224, R246, R588). Log entry 75 (DEDUCED). -/
def pauseMay (s : State) (p : Nat) : Bool :=
  macOn s p && getB s (MAC_CFG p) 1 && macUp s p && getB s (MAC_PAUSE_CTRL p) 1 && awake s && carries s p

/-- Whether the occupancy is above `XOFF_CELLS`, or `FORCE` says so. Log entry 75 (DEDUCED). -/
def aboveXoff (s : State) (p : Nat) : Bool :=
  let x := getF s (MAC_XOFF_CELLS p) 18 0
  getB s (MAC_PAUSE_CTRL p) 2 || (decide (x ≠ 0) && decide (x < ingressCells s p))

/-- Whether the occupancy stays above `XON_CELLS`, or `FORCE` says so. -/
def aboveXon (s : State) (p : Nat) : Bool :=
  let x := getF s (MAC_XOFF_CELLS p) 18 0
  let n := getF s (MAC_XON_CELLS p) 18 0
  getB s (MAC_PAUSE_CTRL p) 2 || (decide (x ≠ 0) && decide ((if x ≤ n then x - 1 else n) < ingressCells s p))

/-- A PAUSE frame of the port, without FCS (R222). -/
def pauseBytes (s : State) (p q : Nat) : List Byte :=
  beBytes 6 0x0180C2000001 ++ beBytes 6 (macSa s p) ++ beBytes 4 0x88080001 ++ beBytes 2 q ++ List.replicate 42 0

/-- Whether the partner's, or with a looped lane the port's own, respond mPacket ends the verification (R227). -/
def respondRx (p : Nat) (s : State) : State :=
  if preemptEn s p = false then macCount s p 6 1
  else if verifyState s p = 2 then verifyPut s p 3 else s

/-- A control frame leaves the port now; the next frame follows it after the gap between frames (R220, R222, R227). What a
near-end loopback returns is received. Log entry 76 (DEDUCED). -/
def ctlOut (s : State) (p : Nat) (c : MacCtl) : State :=
  let near := carries s p && decide (loopOf s p = 1)
  let s1 := match c with
    | .pause q => macCount (lineOut s p (.pause p (pauseBytes s p q))) p 10 1
    | .mpacket v => lineOut s p (.mpacket p v)
  let s2 := macMod s1 p fun x =>
    { x with
      readyAt := s.time.tense + BitVec.ofNat 64 (bytesNs s p 84)
      xoffFrom := match c with | .pause _ => s.time.tense | .mpacket _ => x.xoffFrom }
  if near then
    match c with
    | .pause q => pauseRx p 0x0180C2000001 q s2
    | .mpacket true => if verifyState s2 p = 0 then s2 else respondRx p s2
    | .mpacket false => respondRx p s2
  else s2

/-- Bytes of the frame in transmission that this fragment has sent when it may end: at least 64 (R225). A fragment begins with
8 bytes of preamble and delimiter. Log entry 80 (DEDUCED). -/
def preemptPoint (s : State) (p : Nat) (t : TxFrame) : Nat :=
  max 64 ((tense s - t.start).toNat * 10 / (8 * bitTenths s p) - 8)

/-- Whether class `c` is preemptable at port `p`. -/
def preemptable (s : State) (p c : Nat) : Bool := (fld (mac s p).pre 15 8).testBit c

/-- Whether the frame in transmission can be preempted at its next point (R225). -/
def mayPreempt (s : State) (p : Nat) (t : TxFrame) : Bool :=
  preemptActive s p && preemptable s p t.cls && decide (t.sent + preemptPoint s p t + 64 ≤ t.bytes.length + 4)

/-- The frame in transmission is preempted at its next point: the clock advances to the end of its fragment, with its check
and the gap after it (R220, R225). -/
def preemptNow (s : State) (p : Nat) (t : TxFrame) : State :=
  let k := preemptPoint s p t
  let s1 := advanceNs s (t.start.toNat + bytesNs s p (8 + k + 4 + 12))
  macMod (if t.preempted then s1 else macCount s1 p 12 1) p fun q =>
    { q with tx := none, held := some { t with sent := t.sent + k, preempted := true } }

/-- A control frame is to be sent: it interrupts a preemptable frame, and waits for another in progress (R222, R225).
A PAUSE frame replaces one that waits. -/
def ctlSend (s : State) (p : Nat) (c : MacCtl) : State :=
  let s0 := if getB s (MAC_LINK p) 6 then lpiOut s p else s
  let go (t : State) : State := ctlOut (advanceNs t (mac t p).readyAt.toNat) p c
  match (mac s0 p).tx with
  | none => go s0
  | some t =>
    if mayPreempt s0 p t then go (preemptNow s0 p t)
    else macMod s0 p fun x => { x with ctl := (x.ctl.filter fun y => !(decide (y.isPause = true) && c.isPause)) ++ [c] }

/-- The control frames that have waited for the frame in progress leave, in order; a PAUSE frame that may no longer be sent
does not. -/
def ctlFlush (s : State) (p : Nat) : State :=
  (mac s p).ctl.foldl (fun t c =>
      if c.isPause && !(pauseMay t p) then t else ctlOut (advanceNs t (mac t p).readyAt.toNat) p c)
    (macMod s p fun x => { x with ctl := [] })

/-- Decides to send a PAUSE frame (R224). -/
def pauseSend (s : State) (p q : Nat) : State :=
  let v := decide (q ≠ 0)
  let s2 := putB s (MAC_PAUSE_STATUS p) 1 v
  ctlSend (if getB s (MAC_PAUSE_STATUS p) 1 = v then s2 else raiseIrq s2 (MAC p) 2) p (.pause q)

/-- `PAUSE_CTRL.QUANTA`. -/
def pauseQuanta (s : State) (p : Nat) : Nat := getF s (MAC_PAUSE_CTRL p) 31 16

/-- The occupancy exceeds `XOFF_CELLS` (R224). Log entry 75 (DEDUCED). -/
def pauseXoff (p : Nat) (s : State) : State :=
  if pauseMay s p && aboveXoff s p && !(getB s (MAC_PAUSE_STATUS p) 1) then pauseSend s p (pauseQuanta s p) else s

/-- Half the quanta have elapsed: the clock advances to that moment (R224). -/
def pauseRefresh (p : Nat) (s : State) : State :=
  if pauseMay s p && aboveXon s p && getB s (MAC_PAUSE_STATUS p) 1 && !((mac s p).ctl.any MacCtl.isPause) then
    let q := pauseQuanta s p
    pauseSend (advanceNs s ((mac s p).xoffFrom.toNat + quantaNs s p q / 2)) p q
  else s

/-- The occupancy has fallen to `XON_CELLS` (R224). -/
def pauseXon (p : Nat) (s : State) : State :=
  if pauseMay s p && !(aboveXon s p) && getB s (MAC_PAUSE_STATUS p) 1 then pauseSend s p 0 else s

/-! Reception (R217–R219, R234, R236). -/

/-- Whether the line of port `p` reaches the MAC: it runs, its link is up, and it does not ignore what it hears; the
second says that an ignored frame counts. -/
def rxOpen (s : State) (p : Nat) : Bool × Bool :=
  if macOn s p = false ∨ macUp s p = false ∨ carries s p = false then (false, false)
  else if getB s (MAC_CFG p) 0 && accepting s then (true, false)
  else (false, true)

/-- What a MAC does with something that reaches its receiver (R219, R517). -/
def rxMeets (p : Nat) (f : State → State) (s : State) : State :=
  match rxOpen s p with
  | (true, _) => f s
  | (false, true) => macCount s p 7 1
  | (false, false) => s

/-- What a MAC does with something from its line, which a near-end loopback cuts off (R246). -/
def rxGate (p : Nat) (f : State → State) (s : State) : State := if loopOf s p = 1 then s else rxMeets p f s

/-- A frame from the line, which a far-end loopback sends back too (R246). Log entry 76 (DEDUCED). -/
def rxLine (p : Nat) (b : List Byte) (f : State → State) (s : State) : State :=
  rxGate p f (if loopOf s p = 2 ∧ carries s p = true ∧ macUp s p = true then emit s (.frame p b) else s)

/-- A MAC control frame other than PAUSE (R218). -/
def ctrlOther (p op : Nat) (s : State) : State :=
  if op = 3 ∧ preemptEn s p = true then s else macCount s p 6 1

/-- A frame that fails reception (R217): dropped with FCS_BAD. Log entry 74 (DEDUCED). -/
def rxBad (s : State) (p : Nat) (a : Arrival) (k : RxKind) (short : Bool) : State :=
  let fcs := decide (k = .fcs) || decide (k = .cut)
  let s1 := if fcs then raiseIrq (macCount s p 2 1) (MAC p) 1 else s
  let s2 := if short then macCount s1 p 3 1 else s1
  let q := parseFrame s p a.bytes
  dropFrame s2 (mkFrame s a (keyFlags q false a.trunc a.bytes) (noRoute 0 0 p) 0) p dropFcs 0xFF 0

/-- The tag's or trailer's sequence number. -/
def pairSeqOf (hsr : Bool) (b : List Byte) : Nat :=
  if hsr then beAt b (16 + tagBytes b) 2 else beAt b (b.length - 6) 2

/-- Whether a frame's destination is a unicast address that the FDB maps to a port outside the pair (R236). -/
def mapsOutside (s : State) (q : Parsed) (b : List Byte) (a c : Nat) : Bool :=
  let da := beAt b 0 6
  !((beAt b 0 1).testBit 0) &&
  match fdbFind s q.vid da with
  | some i =>
    let w := fdbW (fdbEnt s i) 2
    !(bit w 29) && decide (fld w 7 0 ≠ a) && decide (fld w 7 0 ≠ c)
  | none => false

/-- Whether R134 lets a frame of class `c` pass through to port `x` now. -/
def passOpen (s : State) (p x c n : Nat) : Bool :=
  decide (macSpeed s p = macSpeed s x) && macOn s x && macUp s x && getB s (MAC_CFG x) 1 && (mac s x).tx.isNone &&
  (mac s x).held.isNone && decide ((mac s x).readyAt ≤ s.time.tense) && !(paused s x) && !(getB s (MAC_LINK x) 6) &&
  carries s x && gateOpen s x c && decide (64 ≤ n + 4)

/-- Whether an HSR frame continues round the ring to the partner (R236), its duplicate entry being `e`.
Log entry 77 (DEDUCED). -/
def ringGoes (s : State) (q : Parsed) (b : List Byte) (p a c : Nat) (e : Option DupEnt) : Bool :=
  decide (beAt b 0 6 ≠ pairSa s a) && decide (beAt b 6 6 ≠ pairSa s a) && !(mapsOutside s q b a c) &&
  match e with
  | some e => if p = a then !e.sentB else !e.sentA
  | none => true

/-- Bytes of a frame of `n` that the ring FIFO holds before transmission starts at port `x`: 64, and on a guarded port as
many as the sieve's rules for it look at (R134, R176). -/
def passWait (s : State) (x n : Nat) : Nat :=
  if bit (portW s x 0) 3 && getB s IMG_GATE_CTRL 1 then
    s.gate.sieve.foldl (fun k e =>
      let w0 := lget e.2 0 0
      let w1 := lget e.2 1 0
      if bit w0 31 && bit w0 24 && decide (fld w1 8 0 ≤ x) && decide (x ≤ fld w1 24 16) then max k (min n (fld w0 7 0 + 32)) else k) 64
  else 64

/-- A frame passes through the ring FIFO from `p` to `x` (R134, R135): the result says that it left or was blocked there,
and not stomped. Log entry 77 (DEDUCED). -/
def passThrough (s : State) (p x a : Nat) (ar : Arrival) (full : List Byte) (bad : Bool) : State :=
  let q := parseFrame s p ar.bytes
  let cls := pcpClass s p q.pcp
  let fr := mkFrame s ar (keyFlags q false ar.trunc ar.bytes) (noRoute 0 cls p) 0
  let j := if bit (portW s x 0) 3 then sieveJudge s x 24 full false 5 else (s, true)
  if !j.2 then dropFrame j.1 fr x dropSieve x cls
  else
    let n := passWait s x (full.length + 4)
    let s1 := macMod (pairCount j.1 a 6) x fun y =>
      { y with readyAt := s.time.tense + BitVec.ofNat 64 (bytesNs s x (n + 8 + full.length + 4 + 12)) }
    if bad || ar.trunc then
      raisePairIrq (pairCount (dropFrame (lineOut s1 x (.stomped x full)) fr x dropStomp x cls) a 8) a 4
    else
      let t := ptpTransmit s1 x p (lo32 ar.rxTense) full (8 * (n + 7) * bitTenths s x * 100)
      macCount (macCount (lineOut t.1 x (.frame x t.2.1)) x 8 1) x 9 (full.length + 4)

/-- A tagged frame of an active pair is judged against the duplicate table and delivered (R234), and continues round an
HSR ring (R236). `pair` is the pair and its ports. Log entry 77 (DEDUCED). -/
def pairReceive (s : State) (p : Nat) (ar : Arrival) (full : List Byte) (pair : Nat × Nat × Nat) : State :=
  let k := pair.1
  let a := pair.2.1
  let c := pair.2.2
  let hsr := decide (pairHsr s k = some true)
  let q := parseFrame s p full
  let seq := pairSeqOf hsr full
  let sa := beAt full 6 6
  let lan := beAt full (full.length - 4) 2 / 4096
  let s0 := if !hsr && decide (lan ≠ (if p = a then 0xA else 0xB)) then
      raisePairIrq (pairCount s a (if p = a then 3 else 4)) a 1 else s
  if hsr && decide (sa = pairSa s a) then pairCount s0 a 7
  else
    let e := dupFind s0 k a sa seq
    let go := hsr && ringGoes s0 q full p a c e
    let x := if p = a then c else a
    let s1 := if e.isSome then pairCount s0 a 2
      else pairCount (dupAdd s0 k a sa seq) a (if p = a then 0 else 1)
    let s2 := if go then dupSent s1 k sa seq (decide (p = a)) else s1
    let cls := pcpClass s p q.pcp
    let s3 := if go then
        (if passOpen s2 p x cls full.length then passThrough s2 p x a ar full false
         else (swIngress s2 { ar with direct := some (x, cls) }).1)
      else s2
    if e.isSome then s3 else (swIngress s3 ar).1

/-- A frame received on port `p`, without its FCS (R217). Log entry 73 (PRESUMED). -/
def macRx (p : Nat) (b : List Byte) (k : RxKind) (s : State) : State :=
  if k = .reassembly then macCount s p 13 1
  else
    let lim := macMtu s p + 18
    let st := rxStamp s p
    let stored := b.take lim
    let pr := pairOf s p
    let ar : Arrival := { plainArrival s p stored with
      trunc := decide (lim < b.length), rxTense := st.2, fromPair := pr.map fun x => x.1 }
    let short := decide (b.length + 4 < 64)
    let bad := decide (k ≠ .good) || short
    let q := parseFrame s p b
    let hsr := match pr with
      | some (n, _, _) => decide (pairHsr s n = some true) && q.hsr
      | none => false
    let s1 := st.1
    let ring : Option (Nat × Nat) := match pr with
      | some (n, a, c) =>
        let x := if p = a then c else a
        if hsr && (bad || ar.trunc) && ringGoes s q b p a c (dupFind s n a (beAt b 6 6) (pairSeqOf true b)) &&
          passOpen s p x (pcpClass s p q.pcp) b.length then some (x, a) else none
      | none => none
    match ring with
    | some (x, a) =>
      let s2 := if k = .fcs ∨ k = .cut then raiseIrq (macCount s1 p 2 1) (MAC p) 1 else s1
      let s3 := if bad then s2 else macCount (macCount (macCount s2 p 0 1) p 1 (b.length + 4)) p 4 1
      let s4 := match pr with
        | some (n, _, _) => dupSent s3 n (beAt b 6 6) (pairSeqOf true b) (decide (p = a))
        | none => s3
      passThrough s4 p x a ar b true
    | none =>
      if bad then rxBad s1 p ar k short
      else
        let s2 := macCount (macCount s1 p 0 1) p 1 (b.length + 4)
        if beAt b 12 2 = 0x8808 then
          (if beAt b 14 2 = 1 then pauseRx p (beAt b 0 6) (beAt b 16 2) s2 else ctrlOther p (beAt b 14 2) s2)
        else
          let s3 := ptpReceive (if ar.trunc then macCount s2 p 4 1 else s2) p b st.2
          match pr with
          | some x =>
            let tagged := if pairHsr s x.1 = some true then q.hsr else q.prp
            let own := hsr && decide (beAt b 6 6 = pairSa s x.2.1)
            if tagged && (!ar.trunc || own) then pairReceive s3 p ar b x else (swIngress s3 ar).1
          | none => (swIngress s3 ar).1

/-! Egress and transmission (R123, R220, R221, R225). -/

/-- Whether a frame of class `c` that takes `n` bytes on the line would finish before its gate closes (R125). -/
def finishes (s : State) (p c n : Nat) : Bool := gateHolds s p c (gateNow s p) (bytesNs s p (n + 24)) 64

/-- Master number of a frame's source, for the sieve's record (R176). Log entry 66 (DEDUCED). -/
def sourceMaster (f : Frame) : Nat :=
  if f.remadeBy < 48 then 8 + f.remadeBy else if f.src = 208 then 6 else if f.src = 209 then 4 else if f.src = 210 then 3 else 5

/-- Steps 1 to 7 of R123 at MAC port `p`, among the classes that `cls` admits: the frame as sent, and the state after its
move into the transmit buffer. Frames dropped on the way cost the arbiter nothing. -/
def macPick (s : State) (p : Nat) (cls : Nat → Bool) (rf : ReadFault) (fuel : Nat) : State × Option (Frame × Nat × List Byte) :=
  match fuel with
  | 0 => (s, none)
  | fuel + 1 =>
    let ok (t : State) (h : Choice) : Bool := cls h.cls && finishes t p h.cls (txShape t p h.frame 0).length
    let r := selectAt s p ok (s.sw.queue.length + 1)
    match r.2 with
    | none => (r.1, none)
    | some (h, d) =>
      let f := h.frame
      match exitFault f rf with
      | some why => macPick (exitDrop (dequeue r.1 p h.cls h.fid) p h.cls h.fid f why) p cls .clean fuel
      | none =>
        let q := txSeq r.1 p h.fid f
        let b := txShape q.1 p f q.2
        let j := if bit (portW q.1 p 0) 3 then sieveJudge q.1 p 24 b (decide (f.verdict = 1)) (sourceMaster f) else (q.1, true)
        if j.2 then (unref (chosen j.1 p h d) h.fid, some (f, h.cls, b))
        else
          macPick (unref (dropStored (dequeue j.1 p h.cls h.fid) h.fid p dropSieve p h.cls) h.fid) p cls .clean fuel

/-- A frame's transmission begins with its preamble; its timestamp is that of its delimiter, seven byte times later
(R220, R238, R496). -/
def macStart (s : State) (p : Nat) (f : Frame) (c : Nat) (b : List Byte) : State :=
  let s0 := advanceNs s (mac s p).readyAt.toNat
  let t := ptpTransmit s0 p f.src f.rxTime b (8 * 7 * bitTenths s p * 100)
  let x : TxFrame :=
    { bytes := t.2.1, cls := c, tag := f.itemTag, pass := decide (f.verdict = 1), sent := 0, preempted := false
      start := tense t.1, rec_ := t.2.2 }
  macMod t.1 p fun q => { q with tx := some x }

/-- Whether the port may start frames (R221, R223, R229, R588). -/
def txReady (s : State) (p : Nat) : Bool :=
  egressOn s p && macOn s p && getB s (MAC_CFG p) 1 && macUp s p && !(paused s p) && !(getB s (MAC_LINK p) 6) &&
  carries s p

/-- The preempted frame goes on with its next fragment (R225). -/
def macResume (s : State) (p : Nat) (h : TxFrame) : State :=
  let s1 := advanceNs s (mac s p).readyAt.toNat
  macMod (macCount s1 p 11 1) p fun q => { q with tx := some { h with start := s1.time.tense }, held := none }

/-- Egress selection at MAC port `p` (R123): an idle port starts the frame that R123 gives; an express frame interrupts a
preemptable one, which resumes when no express frame is eligible (R225), and is sent to its end though the port starts no
further frame (R221, R588). Log entry 80 (DEDUCED). -/
def macSelect (p : Nat) (rf : ReadFault) (s : State) : State :=
  let m := mac s p
  let n := s.sw.queue.length + 1
  let express (c : Nat) : Bool := !(preemptable s p c)
  match m.tx, m.held with
  | some t, _ =>
    if txReady s p && mayPreempt s p t then
      match macPick s p express rf n with
      | (s1, none) => s1
      | (s1, some (f, c, b)) => macStart (preemptNow s1 p t) p f c b
    else s
  | none, some h =>
    if txReady s p then
      match macPick s p express rf n with
      | (s1, some (f, c, b)) => macStart s1 p f c b
      | (s1, none) => macResume s1 p h
    else macResume s p h
  | none, none =>
    if txReady s p then
      match macPick s p (fun _ => true) rf n with
      | (s1, some (f, c, b)) => macStart s1 p f c b
      | (s1, none) => s1
    else s

/-- Egress selection at any port. -/
def egressSelect (p : Nat) (rf : ReadFault) (s : State) : State :=
  if p < 192 then macSelect p rf s else sinkSelect p rf s

/-- The last byte of the frame in transmission leaves port `p`: the clock advances to that moment (R29, R221). The gap between
frames follows (R220), control frames that waited leave, and a change of preemption comes into operation (R226).
Log entries 73 (PRESUMED), 80 (DEDUCED). -/
def macTxEnd (p : Nat) (s : State) : State :=
  match (mac s p).tx with
  | none => s
  | some t =>
    let n := t.bytes.length + 4
    let s1 := advanceNs s (t.start.toNat + bytesNs s p (8 + n - t.sent))
    let s2 := macCount (macCount (lineOut s1 p (.frame p t.bytes)) p 8 1) p 9 n
    let s3 := macMod s2 p fun q =>
      { q with
        tx := none
        readyAt := s1.time.tense + BitVec.ofNat 64 (bytesNs s p 12)
        pauseFrom := if paused s2 p && q.pauseFrom.isNone && q.held.isNone then some s2.time.tense else q.pauseFrom }
    let s4 := ptpSent s3 t.rec_
    let s5 := ctlFlush (if t.pass then itemTransmitted s4 t.tag else s4) p
    let s6 := preemptSync s5 p
    if carries s p && decide (loopOf s p = 1) then rxMeets p (macRx p t.bytes .good) s6 else s6

/-! Preemption verification (R227). -/

/-- Idle comes in INITIAL, or VERIFY_TIME elapses in VERIFYING: the clock advances to that moment. -/
def verifySend (p : Nat) (s : State) : State :=
  let m := mac s p
  let lim := max 1 (getF s (MAC_PREEMPT_CTRL p) 26 24)
  let mark (n : Nat) (t : State) : State := macMod t p fun q => { q with attempts := n, verifyAt := t.time.tense }
  if macOn s p = false ∨ macUp s p = false then s
  else match verifyState s p with
    | 1 =>
      if m.tx.isSome || m.held.isSome then s
      else verifyPut (mark 1 (ctlSend s p (.mpacket true))) p 2
    | 2 =>
      let s1 := advanceNs s (m.verifyAt.toNat + max 1 (getF s (MAC_PREEMPT_CTRL p) 22 16) * 1000000)
      if m.attempts < lim then mark (m.attempts + 1) (ctlSend s1 p (.mpacket true))
      else verifyPut (macCount s1 p 16 1) p 4
    | _ => s

/-- A verify mPacket arrives: it is answered in every state but DISABLED. -/
def verifyRx (p : Nat) (s : State) : State :=
  if preemptEn s p = false then macCount s p 6 1
  else if verifyState s p = 0 then s else ctlSend s p (.mpacket false)

/-! Entry to and exit from LPI (R229, R230). -/

/-- Whether any frame waits for port `p`. -/
def waitsFor (s : State) (p : Nat) : Bool := s.sw.queue.any fun e => decide (e.port = p)

/-- `IDLE_US` pass in which no frame waits: the clock advances by them, and the transmitter enters LPI (R229). -/
def lpiEnter (p : Nat) (s : State) : State :=
  let m := mac s p
  if lpiUse s p && awake s && !(waitsFor s p) && m.tx.isNone && m.held.isNone && !(getB s (MAC_LINK p) 6) then
    putLpi (advanceNs s (tenseNs s + getF s (MAC_EEE_CTRL p) 31 16 * 1000)) p true
  else s

/-- A frame waits: the transmitter leaves LPI, and the frame may start `TX_US` later (R229). -/
def lpiLeave (p : Nat) (s : State) : State :=
  if getB s (MAC_LINK p) 6 && awake s && waitsFor s p then lpiOut s p else s

/-- The partner begins or ends LPI; its exit is a wake source in DOZE (R229, R522). -/
def lpiPartner (p : Nat) (on : Bool) (s : State) : State :=
  if macOn s p = false ∨ macUp s p = false ∨ getB s (MAC_LINK p) 7 = on then s
  else
    let s1 := raiseIrq (putB s (MAC_LINK p) 7 on) (MAC p) 4
    if !on && lpiCapable s p then wakeSource 12 s1 else s1

/-- In DOZE, the ports whose mode and speed admit LPI stay in it (R230); after it, those stay at which EEE is in use and no
frame waits, and the others leave it (R229). -/
def lpiFollow (s : State) : State := (List.range 192).foldl lpiSettle s

/-! MDIO (R240, R241). -/

/-- The interrupt line of MDIO master `l`. -/
def updMdio (s : State) (l : Nat) : State :=
  setLine s (252 + l) (decide ((getR s (SDS_MDIO_IRQ_STATUS l) &&& getR s (SDS_MDIO_IRQ_ENABLE l)) ≠ 0))

/-- A write of `MDIO_CMD`. -/
def mdioCmd (l : Nat) (v : Word) (s : State) : State :=
  if getB s (SDS_MDIO_RESULT l) 30 = true ∨ 2 ≤ fld v 31 30 then s
  else
    let s1 := putB (putB s (SDS_MDIO_RESULT l) 31 false) (SDS_MDIO_RESULT l) 30 true
    emit { s1 with eth := { s1.eth with mdio := sset s1.eth.mdio l v } } (.mdio l v)

/-- Whether an MDIO frame reads: clause 22 OP 0b10, clause 45 OP 0b11 or 0b10. -/
def mdioReads (v : Word) : Bool := if fld v 31 30 = 0 then decide (fld v 29 28 = 2) else decide (2 ≤ fld v 29 28)

/-- The frame in progress ends. Log entry 154 (DESIGN CHOICE). -/
def mdioEnd (l : Nat) (data : BitVec 16) (s : State) : State :=
  match sfind s.eth.mdio l with
  | none => s
  | some v =>
    let s1 := { s with eth := { s.eth with mdio := sdel s.eth.mdio l } }
    let s2 := putB (putB s1 (SDS_MDIO_RESULT l) 30 false) (SDS_MDIO_RESULT l) 31 true
    let s3 := if mdioReads v then putF s2 (SDS_MDIO_RESULT l) 15 0 data.toNat else s2
    updMdio (putB s3 (SDS_MDIO_IRQ_STATUS l) 0 true) l

/-! The commands. -/

/-- A frame arrives on a MAC's line (R217). -/
def execMacReceive (p : Fin 192) (bytes : List Byte) (k : RxKind) (s : State) : Res :=
  .next (rxLine p.val bytes (macRx p.val bytes k) s)

/-- A MAC control frame that is not PAUSE arrives (R218). -/
def execMacControlReceive (p : Fin 192) (opcode : BitVec 16) (s : State) : Res :=
  .next (rxGate p.val (fun t => ctrlOther p.val opcode.toNat (macCount (macCount t p.val 0 1) p.val 1 64)) s)

/-- A PAUSE frame arrives (R223). -/
def execPauseReceive (p : Fin 192) (da : BitVec 48) (quanta : BitVec 16) (s : State) : Res :=
  .next (rxGate p.val (fun t => pauseRx p.val da.toNat quanta.toNat (macCount (macCount t p.val 0 1) p.val 1 64)) s)

/-- The received quanta have elapsed (R223). -/
def execPauseExpiry (p : Fin 192) (s : State) : Res := .next (pauseEnd p.val s)

/-- Occupancy above `XOFF_CELLS` (R224). -/
def execPauseXoffSend (p : Fin 192) (s : State) : Res := .next (pauseXoff p.val s)

/-- Half the quanta have elapsed (R224). -/
def execPauseRefresh (p : Fin 192) (s : State) : Res := .next (pauseRefresh p.val s)

/-- Occupancy at `XON_CELLS` (R224). -/
def execPauseXonSend (p : Fin 192) (s : State) : Res := .next (pauseXon p.val s)

/-- An egress port selects (R123). -/
def execEgressSelect (p : Fin 224) (f : ReadFault) (s : State) : Res := .next (egressSelect p.val f s)

/-- The last byte leaves a port (R221). -/
def execMacTransmitEnd (p : Fin 192) (s : State) : Res := .next (macTxEnd p.val s)

/-- A frame on an HSR port, which passes through where R134 and R236 let it. -/
def execHsrPassThrough (p : Fin 192) (bytes : List Byte) (k : RxKind) (s : State) : Res :=
  .next (rxLine p.val bytes (macRx p.val bytes k) s)

/-- The lane reports link up (R215). -/
def execLinkUp (p : Fin 192) (speed : BitVec 3) (errs : BitVec 16) (s : State) : Res :=
  .next (linkUpAt p.val speed.toNat (codeErrs (laneOf p.val) errs.toNat s))

/-- The link goes down (R215). -/
def execLinkDown (p : Fin 192) (half : Bool) (why : LaneLoss) (errs : BitVec 16) (s : State) : Res :=
  .next (linkDownAt p.val half why (codeErrs (laneOf p.val) errs.toNat s))

/-- `SDS.BLK_CTRL.EN` is set (R214). -/
def execSdsEnable (m : Master) (l : Fin 60) (s : State) : Res := .next (gatedWrite m (BLK_CTRL (SDS l.val)) (laneEn l.val true) s)

/-- `AN_RESTART` is written (R246). -/
def execAnRestart (m : Master) (l : Fin 60) (s : State) : Res :=
  .next (gatedWrite m (SDS_AN_CTRL l.val) (fun t => anCtrl l.val (setBit (getR t (SDS_AN_CTRL l.val)) 1 true) t) s)

/-- `PRBS_ERR` is read: it shows the pattern errors met up to then, and clears (R246). -/
def execPrbsErrRead (m : Master) (l : Fin 60) (errs : Word) (s : State) : Res :=
  .next (gatedRead m (SDS_PRBS_ERR l.val) (fun t =>
    let u := prbsErrs l.val errs.toNat t
    (setR u (SDS_PRBS_ERR l.val) 0, getR u (SDS_PRBS_ERR l.val))) s)

/-- A verify mPacket falls due (R227). -/
def execVerifySend (p : Fin 192) (s : State) : Res := .next (verifySend p.val s)

/-- A respond mPacket arrives (R227). -/
def execRespondReceive (p : Fin 192) (s : State) : Res := .next (rxGate p.val (respondRx p.val) s)

/-- A verify mPacket arrives (R227). -/
def execVerifyReceive (p : Fin 192) (s : State) : Res := .next (rxGate p.val (verifyRx p.val) s)

/-- The transmitter enters LPI (R229). -/
def execLpiEntry (p : Fin 192) (s : State) : Res := .next (lpiEnter p.val s)

/-- The transmitter leaves LPI (R229). -/
def execLpiExit (p : Fin 192) (s : State) : Res := .next (lpiLeave p.val s)

/-- The partner's LPI begins or ends (R229). -/
def execLpiRx (p : Fin 192) (on : Bool) (s : State) : Res := .next (lpiPartner p.val on s)

/-- The frame's clause and operation bits for an MDIO row: clause 22 or 45 as the word says. -/
def mdioWord (v : Word) (c22 c45 : Nat) : Word := setFld v 29 28 (if fld v 31 30 = 0 then c22 else c45)

/-- `MDIO_CMD` read (R241). -/
def execMdioRead (m : Master) (l : Fin 4) (v : Word) (s : State) : Res :=
  .next (gatedWrite m (SDS_MDIO_CMD l.val) (mdioCmd l.val (mdioWord v 2 3)) s)

/-- `MDIO_CMD` write (R241). -/
def execMdioWrite (m : Master) (l : Fin 4) (v : Word) (s : State) : Res :=
  .next (gatedWrite m (SDS_MDIO_CMD l.val) (mdioCmd l.val (mdioWord v 1 1)) s)

/-- `MDIO_CMD` clause 45 address (R241). -/
def execMdioAddress (m : Master) (l : Fin 4) (v : Word) (s : State) : Res :=
  .next (gatedWrite m (SDS_MDIO_CMD l.val) (mdioCmd l.val (mdioWord (setFld v 31 30 1) 0 0)) s)

/-- `MDIO_CMD` clause 45 post-read-increment-address (R241). -/
def execMdioPostReadIncrement (m : Master) (l : Fin 4) (v : Word) (s : State) : Res :=
  .next (gatedWrite m (SDS_MDIO_CMD l.val) (mdioCmd l.val (mdioWord (setFld v 31 30 1) 2 2)) s)

/-- The MDIO frame ends (R241). -/
def execMdioFrameEnd (l : Fin 4) (data : BitVec 16) (s : State) : Res := .next (mdioEnd l.val data s)

end Sys2Proof.Machine
end

