-- ==== Sys2Proof/Machine/Cores.lean ====
section
/-! DEFINITION. The Hertis-32 cores as the rest of the block sees them (13): how a core is released and stopped, its
registers and what they hold at reset. What the instructions do stands in `Hertis.lean`. -/

namespace Sys2Proof.Machine

open Reg

/-- The SSP's core. -/
abbrev sspCore : Nat := 48
/-- The MGP's core. -/
abbrev mgpCore : Nat := 49

/-- Core `c`: engines 0–47, the SSP and the MGP. -/
def coreOf (s : State) (c : Nat) : CoreSt := sget s.cores c CoreSt.init

/-- Sets core `c`. -/
def coreSet (s : State) (c : Nat) (x : CoreSt) : State := { s with cores := sset s.cores c x }

/-- Changes core `c`. -/
def coreMod (s : State) (c : Nat) (f : CoreSt → CoreSt) : State := coreSet s c (f (coreOf s c))

/-- Number of the CSR `STATUS`. -/
abbrev csrSTATUS : Nat := 0x000
/-- Number of the CSR `EPC`. -/
abbrev csrEPC : Nat := 0x002
/-- Number of the CSR `ECAUSE`. -/
abbrev csrECAUSE : Nat := 0x003
/-- Number of the CSR `EADDR`. -/
abbrev csrEADDR : Nat := 0x004
/-- Number of the CSR `EVEC`. -/
abbrev csrEVEC : Nat := 0x005
/-- Number of the CSR `RPTC`. -/
abbrev csrRPTC : Nat := 0x006
/-- Number of the CSR `ASTAT`. -/
abbrev csrASTAT : Nat := 0x007
/-- Number of the CSR `IMASK0`. -/
abbrev csrIMASK0 : Nat := 0x008
/-- Number of the CSR `IMASK1`. -/
abbrev csrIMASK1 : Nat := 0x009

/-- The reset value of a CSR that holds a value: `STATUS` is 8 on the SSP and the MGP (R415). -/
def csrReset (c n : Nat) : Word := if n = csrSTATUS ∧ 48 ≤ c then 8 else 0

/-- A CSR as it is held. -/
def csrHeld (c : Nat) (x : CoreSt) (n : Nat) : Word := sget x.csr n (csrReset c n)

/-- Sets a CSR. -/
def csrSet (x : CoreSt) (n : Nat) (v : Word) : CoreSt := { x with csr := sset x.csr n v }

/-- General register `r`: g0 reads as 0 (R378). -/
def greg (x : CoreSt) (r : Nat) : Word := if r = 0 then 0 else sget x.g r 0

/-- Sets general register `r`: a write to g0 is discarded (R378). -/
def gset (x : CoreSt) (r : Nat) (v : Word) : CoreSt := if r = 0 then x else { x with g := sset x.g r v }

/-- A core released at `pc`: general registers 0, every CSR at its reset value (R379). -/
def coreFresh (s : State) (pc : Nat) : CoreSt := { CoreSt.init with run := .run, pc := w32 pc, wdtAt := s.time.tense }

/-- Releases the core of logical engine `n` at `pc`, with `v` in g1 and its number in g2 (R379). -/
def coreStart (s : State) (n pc v : Nat) : State := coreSet s n (gset (gset (coreFresh s pc) 1 (w32 v)) 2 (w32 n))

/-- Core `n` stops and its results land nowhere (R370, R421). -/
def coreStop (s : State) (n : Nat) : State := coreMod s n fun x => { x with run := .off, land := [], wait := none, far := none }

/-- Releases the SSP or the MGP at `pc` (R379). Log entry 150 (DEDUCED). -/
def coreBoot (s : State) (c pc : Nat) : State := coreSet s c (coreFresh s pc)

end Sys2Proof.Machine
end

