-- ==== Sys2Proof/Machine/Engine.lean ====
section
/-! DEFINITION. Protocol engines (12): the DMA, queue heads, jobs, CRC unit, timers, watchdog, checkpoints,
death and takeover. -/

namespace Sys2Proof.Machine

open Reg

/-- Master number of logical engine `n` (R9). -/
def engMaster (n : Nat) : Master := BitVec.ofNat 6 (8 + n)

/-- Cluster port of engine `n` (R351). -/
def engPort (n : Nat) : Nat := 192 + n / 3

/-- Whether engine `n`'s DMA and peripherals work: it is neither dead nor LOST. Log entry 129 (DEDUCED). -/
def engAlive (s : State) (n : Nat) : Bool := decide ((eng s n).st < 2)

/-! Rings of a channel (R353, R357). -/

/-- A ring of a channel: registers of its base, size, head and tail, and its slot size in bytes. -/
structure ChanRing where
  base : Nat
  size : Nat
  head : Nat
  tail : Nat
  slot : Nat
  deriving DecidableEq, Repr

/-- The transmit ring of channel `c`. -/
def txRing (c : Nat) : Option ChanRing :=
  match chanKind c with
  | 1 => let n := c - 256; some ⟨MDB_TX_BASE n, MDB_TX_SIZE n, MDB_TX_HEAD n, MDB_TX_TAIL n, 128⟩
  | 2 => let n := c - 320; some ⟨PLK_TX_BASE n, PLK_TX_SIZE n, PLK_TX_HEAD n, PLK_TX_TAIL n, 256⟩
  | 3 => let n := c - 384; some ⟨PTC_TX_BASE n, PTC_TX_SIZE n, PTC_TX_HEAD n, PTC_TX_TAIL n, 256⟩
  | _ => none

/-- The receive ring of channel `c`. -/
def rxRing (c : Nat) : Option ChanRing :=
  match chanKind c with
  | 1 => let n := c - 256; some ⟨MDB_RX_BASE n, MDB_RX_SIZE n, MDB_RX_HEAD n, MDB_RX_TAIL n, 128⟩
  | 2 => let n := c - 320; some ⟨PLK_RX_BASE n, PLK_RX_SIZE n, PLK_RX_HEAD n, PLK_RX_TAIL n, 256⟩
  | _ => none

/-- Whether `n` bytes at `a` lie in the region of `len` bytes at `base`. -/
def within (a n base len : Nat) : Bool := decide (base ≤ a) && decide (a + n ≤ base + len)

/-- Whether an access lies in a ring. -/
def inRing (s : State) (r : Option ChanRing) (a n : Nat) : Bool :=
  match r with
  | some r => within a n (getR s r.base).toNat ((getR s r.size).toNat % 8192 * r.slot)
  | none => false

/-- Address of migration slot `k` (R368). -/
def migAddr (k : Nat) : Nat := 0x07F80000 + k * 0x8000

/-- What R357 lets the DMA of engine `n` reach beside its scratch banks. -/
def dmaReach (s : State) (n a len : Nat) (wr : Bool) : Bool :=
  ((List.range 8).any fun k =>
    let q := qhSlot s n k
    decide (q.st ≠ 0) && (inRing s (txRing q.chan) a len || inRing s (rxRing q.chan) a len ||
      (decide (2 ≤ q.st) && within a len (migAddr q.mig) 0x8000))) ||
  within a len (0x07E00000 + n * 0x8000) 0x8000 || svcReach s n a len ||
  (!wr && (eng s n).taken.any fun j => within a len j.addr 32)

/-! Completions (R355). -/

/-- A DMA command completes: event line 9. -/
def dmaDone (s : State) (n tag st : Nat) : State :=
  raiseEvent (engMod s n fun e => { e with dmaCpl := e.dmaCpl ++ [(tag, st)] }) n 9

/-- The tag of a command. -/
def dmaTag (c : DmaCmd) : Nat := fld c.w0 23 16

/-- Whether a command is well formed as far as its words tell (R354, R356). Log entry 137 (DEDUCED). -/
def dmaFormatOk (c : DmaCmd) : Bool :=
  let op := fld c.w0 31 28
  let fmt := fld c.w0 27 24
  let len := fld c.w0 15 0
  let l := c.w1.toNat
  match op with
  | 1 => decide (fmt = 0) && decide (0x10000 ≤ l) && decide (l < 0x30000)
  | 2 => decide (fmt = 0) && decide (14 ≤ len) && decide (len ≤ 9746) && inDtcm l len
  | 3 => decide (fmt ≤ 1) && decide (1 ≤ len) && inDtcm l len
  | 4 => decide (fmt ≤ 1) && decide (1 ≤ len) && inDtcm l len && (decide (fmt = 0) || decide (16 ≤ len))
  | _ => false

/-- Commands at the head of the queue that are not well formed end FORMAT, while completions have room (R354, R355).
Log entry 137 (DEDUCED). -/
def dmaSettle (s : State) (n fuel : Nat) : State :=
  match fuel with
  | 0 => s
  | fuel + 1 =>
    match (eng s n).dmaQ with
    | c :: rest =>
      if dmaFormatOk c = false ∧ (eng s n).dmaCpl.length < 8 then
        dmaSettle (dmaDone (engMod s n fun e => { e with dmaQ := rest }) n (dmaTag c) 4) n fuel
      else s
    | [] => s

/-- A write of `DMA_CMD3` pushes a command (R353, R355). -/
def dmaPush (s : State) (n : Nat) (w3 : Word) : State :=
  let c : DmaCmd :=
    { w0 := getR s (engKey n 0xF0000), w1 := getR s (engKey n 0xF0004), w2 := getR s (engKey n 0xF0008), w3 := w3 }
  if !(engAlive s n) then s
  else if 8 ≤ (eng s n).dmaQ.length then engMod s n fun e => { e with dmaOvf := true }
  else dmaSettle (engMod s n fun e => { e with dmaQ := e.dmaQ ++ [c] }) n 9

/-- The head command ends with a status. -/
def dmaEnd (s : State) (n : Nat) (c : DmaCmd) (st : Nat) : State :=
  dmaSettle (dmaDone (engMod s n fun e => { e with dmaQ := e.dmaQ.drop 1 }) n (dmaTag c) st) n 9

/-! The operations (R356). -/

/-- Whether a frame is held for a migration target (R366). -/
def frameHeld (s : State) (n : Nat) (f : Frame) : Bool := (slotOf s n f.channel [3]).isSome

/-- The head frame that waits for engine `n` at its cluster port's sink. -/
def dmaHead (s : State) (n : Nat) : Option (SinkEnt × Frame) :=
  s.sw.sink.findSome? fun e =>
    if e.port = engPort n then
      match frameOf s e.fid with
      | some f => if f.engine = n ∧ frameHeld s n f = false then some (e, f) else none
      | none => none
    else none

/-- The frames that wait for engine `n` at its cluster port, in queue or sink, held ones left out (`IN_LEVEL`).
Log entry 136 (DEDUCED). -/
def inLevel (s : State) (n : Nat) : Nat :=
  let ok (fid : Nat) : Bool := match frameOf s fid with
    | some f => decide (f.engine = n) && !(frameHeld s n f)
    | none => false
  (s.sw.sink.filter fun e => decide (e.port = engPort n) && ok e.fid).length +
    (s.sw.queue.filter fun e => decide (e.port = engPort n) && ok e.fid).length

/-- A sink entry leaves. -/
def sinkDrop (s : State) (e : SinkEnt) : State :=
  unref { s with sw := { s.sw with sink := s.sw.sink.erase e } } e.fid

/-- RECV. Log entry 136 (DEDUCED). -/
def dmaRecv (s : State) (n : Nat) (c : DmaCmd) : State :=
  match dmaHead s n with
  | none => s
  | some (e, f) =>
    let bytes := headBytes s f ++ delivered s (engPort n) f
    if fld c.w0 15 0 < bytes.length then dmaEnd s n c 3
    else match exitFault f e.rf with
      | some r =>
        let s1 := { s with sw := { s.sw with sink := s.sw.sink.erase e } }
        dmaEnd (exitDrop s1 (engPort n) f.tc e.fid f r) n c (if r = dropPoison then 5 else 1)
      | none =>
        if inDtcm c.w1.toNat bytes.length then dmaEnd (tcmWrite (sinkDrop s e) n c.w1.toNat bytes) n c 0
        else dmaEnd s n c 4

/-- SEND. -/
def dmaSend (s : State) (n : Nat) (c : DmaCmd) : State :=
  let b := tcmBytes s n c.w1.toNat (fld c.w0 15 0)
  let a : Arrival :=
    { plainArrival s (engPort n) b with
      imp := bit c.w2 31, itemTag := c.w3.toNat, remadeBy := n
      direct := if bit c.w2 30 then some (fld c.w2 29 22, fld c.w2 21 19) else none }
  dmaEnd (swIngress s a).1 n c 0

/-- The status of a fabric access. -/
def dmaStat (f : FabStat) : Nat :=
  match f with
  | .ok => 0
  | .poisoned => 5
  | _ => 2

/-- The channel of engine `n` whose receive ring holds an address. -/
def ringChan (s : State) (n a : Nat) : Option Nat :=
  ((List.range 8).find? fun k => decide ((qhSlot s n k).st ≠ 0) && inRing s (rxRing (qhSlot s n k).chan) a 16).map
    fun k => (qhSlot s n k).chan

/-- The length of a receive record from its header, as the controller's chapter defines it (R305, R321). -/
def recordLen (c : Nat) (r : List Byte) : Nat :=
  if chanKind c = 1 then 24 + mdbLen (slice r 16 8) else 16 + beAt r 4 1

/-- READ. -/
def dmaRead (s : State) (n : Nat) (c : DmaCmd) : State :=
  let a := c.w2.toNat
  let m := engMaster n
  let len := fld c.w0 15 0
  if fld c.w0 27 24 = 0 then
    let r := fabRead s m a len (dmaReach s n a len false)
    match r.2.1 with
    | .ok => dmaEnd (tcmWrite r.1 n c.w1.toNat r.2.2) n c 0
    | st => dmaEnd r.1 n c (dmaStat st)
  else
    match ringChan s n a with
    | none => dmaEnd s n c 2
    | some ch =>
      let h := fabRead s m a 24 true
      let len2 := recordLen ch h.2.2
      let r := fabRead h.1 m a len2 (dmaReach s n a len2 false)
      match r.2.1 with
      | .ok =>
        if (crc32c (r.2.2.take 12 ++ r.2.2.drop 16)).toNat ≠ leAt r.2.2 12 4 then
          let s1 := if chanKind ch = 1 then mdbNote r.1 (ch - 256) 12 8 else plkNote r.1 (ch - 320) 8 11
          dmaEnd s1 n c 1
        else if inDtcm c.w1.toNat len2 then dmaEnd (tcmWrite r.1 n c.w1.toNat r.2.2) n c 0
        else dmaEnd r.1 n c 4
      | st => dmaEnd r.1 n c (dmaStat st)

/-- Accepts a checkpoint commit (R371). Log entry 139 (DEDUCED). -/
def ckptAccept (s : State) (n : Nat) (v : Word) : State :=
  match physOf s n with
  | none => s
  | some p =>
    if 16384 < fld v 14 0 then s
    else
      let seq := (getF s (PEN_CKPT p) 14 0 + 1) % 0x8000
      setR s (PEN_CKPT p) (w32 (0x80000000 + nb (bit v 31) * 0x40000000 + fld v 14 0 * 0x8000 + seq))

/-- One WRITE has completed: a commit that waits for it comes nearer (R371). -/
def ckptStep (s : State) (n : Nat) : State :=
  match (eng s n).ckptWait with
  | some (v, k) =>
    if k ≤ 1 then ckptAccept (engMod s n fun e => { e with ckptWait := none }) n v
    else engMod s n fun e => { e with ckptWait := some (v, k - 1) }
  | none => s

/-- `CKPT_COMMIT` (R371). Log entry 139 (DEDUCED). -/
def ckptCommit (s : State) (n : Nat) (v : Word) : State :=
  let k := ((eng s n).dmaQ.filter fun c => decide (fld c.w0 31 28 = 4)).length
  if !(engAlive s n) then s
  else if k = 0 then ckptAccept s n v
  else engMod s n fun e => { e with ckptWait := some (v, k) }

/-- WRITE: with `FMT` 1 it stamps the record's check value (R356). -/
def dmaWrite (s : State) (n : Nat) (c : DmaCmd) : State :=
  let a := c.w2.toNat
  let len := fld c.w0 15 0
  let b := tcmBytes s n c.w1.toNat len
  let bytes := if fld c.w0 27 24 = 0 then b
    else overlay b 8 (leBytes 4 (crc32c (b.take 8 ++ b.drop 16)).toNat ++ [0, 0, 0, 0])
  let r := fabWrite s (engMaster n) a bytes (dmaReach s n a len true)
  ckptStep (dmaEnd r.1 n c (dmaStat r.2)) n

/-- The index of the first of `n` bytes from `a` that lies in the row at memory key `lo`. -/
def rowFrom (a n lo : Nat) : Option Nat := (List.range n).find? fun k => decide (memKey (a + k) / 16 * 16 = lo)

/-- COLLIDE meets the engine's WRITE: its bytes of the row are discarded, and the command ends MEMORY (R434). -/
def dmaCollide (s : State) (n lo : Nat) : State :=
  match (eng s n).dmaQ with
  | [] => s
  | c :: _ =>
    let a := c.w2.toNat
    let len := fld c.w0 15 0
    if fld c.w0 31 28 ≠ 4 ∨ 8 ≤ (eng s n).dmaCpl.length then s
    else match rowFrom a len lo with
      | none => s
      | some k =>
        let b := tcmBytes s n c.w1.toNat len
        let e := k + 16 - memKey (a + k) % 16
        let r1 := fabWrite s (engMaster n) a (b.take k) (dmaReach s n a len true)
        let r2 := fabWrite r1.1 (engMaster n) (a + e) (b.drop e) (dmaReach s n a len true)
        ckptStep (dmaEnd r2.1 n c 2) n

/-- The outcome of COLLIDE at port B's master: an engine's DMA command ends MEMORY, a core's far store raises STORE_ASYNC
later (R434). -/
def collideEnd (s : State) (m : Master) (a lo : Nat) : State :=
  if 8 ≤ m.toNat ∧ m.toNat < 56 then dmaCollide s (m.toNat - 8) lo else pendAsync s m a

/-- Both ports of an exchange bank write one row: port A lands whole, port B is discarded with COLLIDE (R434). -/
def collideStep (a : Nat) (mA : Master) (bytesA : List Byte) (mB : Master) (s : State) : State :=
  let b := bankOf a
  if !(inShared a 1) || decide (b < 496) then s else
  let lo := memKey a / 16 * 16
  let l := bytesA.take (lo + 16 - memKey a)
  let s1 := if poisonPartial s a l.length then s else wrBytes (coverHalves s a l.length) a l
  let s2 := bump (bump s1 (BNK_COLLIDE b)) BNK_COLLIDE_TOTAL
  let _ := mA
  collideEnd (raiseIrq s2 BNK 4) mB a lo

/-- Whether an engine's DMA may start an operation: no SEND or WRITE starts while the device quiesces, and nothing runs
outside ACTIVE (R517, R519). -/
def dmaMayRun (s : State) (op : Nat) : Bool := awake s && (decide (op = 1 ∨ op = 3) || accepting s)

/-- The DMA of engine `n` executes its head command, if the command is of operation `op` and a completion has room. -/
def dmaRun (s : State) (n op : Nat) : State :=
  match (eng s n).dmaQ with
  | [] => s
  | c :: _ =>
    if engAlive s n = false ∨ 8 ≤ (eng s n).dmaCpl.length ∨ fld c.w0 31 28 ≠ op ∨ dmaMayRun s op = false then s
    else match op with
      | 1 => dmaRecv s n c
      | 2 => dmaSend s n c
      | 3 => dmaRead s n c
      | _ => dmaWrite s n c

/-- A read of `DMA_CPL` (R353). -/
def dmaCplRead (n : Nat) (s : State) : State × Word :=
  match (eng s n).dmaCpl with
  | [] => (s, 0)
  | (t, st) :: rest =>
    (dmaSettle (engMod s n fun e => { e with dmaCpl := rest }) n 9, w32 (0x80000000 + t * 65536 + st))

/-- A read of `DMA_LEVEL` (R353). -/
def dmaLevel (n : Nat) (s : State) : State × Word :=
  let e := eng s n
  (engMod s n fun e => { e with dmaOvf := false },
    w32 (nb e.dmaOvf * 0x8000 + e.dmaCpl.length * 0x100 + e.dmaQ.length))

/-! Jobs (R365). -/

/-- Writes one record into the job completion ring, if it has room (R365). -/
def jcrPut (s : State) (r : List Byte) : Option State :=
  let sz := getF s PLC_JOB_CR_SIZE 16 0
  let hd := getF s PLC_JOB_CR_HEAD 15 0
  if ringFull sz hd (getF s PLC_JOB_CR_TAIL 15 0) then none
  else
    let w := fabWrite s 5 ((getR s PLC_JOB_CR_BASE).toNat + 16 * hd) r false
    some (raiseIrq (putF w.1 PLC_JOB_CR_HEAD 15 0 ((hd + 1) % sz)) PLC 6)

/-- The completion record of a job's end; where the ring is full it waits, and with no ring it is not written. -/
def jobRecord (s : State) (n tag outcome reason : Nat) : State :=
  let r := leBytes 4 tag ++ [b8 outcome, b8 reason, b8 n, 0] ++ leBytes 8 (tenseNs s)
  if getF s PLC_JOB_CR_SIZE 16 0 = 0 then s
  else
    let wait : State := { s with plc := { s.plc with jcr := s.plc.jcr ++ [r] } }
    if s.plc.jcr ≠ [] then wait
    else match jcrPut s r with
      | some t => t
      | none => wait

/-- A read of `JOB_NEXT`: class 0 first, class 2 only while `ADMIT` is set (R365). -/
def jobNext (n : Nat) (s : State) : State × Word :=
  let js := (eng s n).jobs
  let j := match js.find? fun j => !j.cls2 with
    | some j => some j
    | none => if admits s n then js.head? else none
  match j with
  | none => (s, 0)
  | some j => (engMod s n fun e => { e with jobs := e.jobs.erase j, taken := e.taken ++ [j] }, w32 j.addr)

/-- A write of `JOB_END`: a tag that the engine has not taken is ignored (R365). Log entry 138 (DEDUCED). -/
def jobEnd (s : State) (n : Nat) (tag : Word) : State :=
  let code := getF s (engKey n 0xF1408) 7 0
  match (eng s n).taken.find? fun j => decide (j.tag = tag.toNat) with
  | none => s
  | some j =>
    if code ≠ 0 ∧ code < 0x80 then s
    else jobRecord (engMod s n fun e => { e with taken := e.taken.erase j }) n j.tag (if code = 0 then 0 else 1) code

/-- A completion record that waits finds room (R365). -/
def jobRecordRetry (s : State) : State :=
  match s.plc.jcr with
  | [] => s
  | r :: rest =>
    match jcrPut s r with
    | some t => { t with plc := { t.plc with jcr := rest } }
    | none => s

/-- Ends every job of a list FAILED with a reason. -/
def jobsFail (s : State) (n reason : Nat) (l : List Job) : State :=
  l.foldl (fun t j => jobRecord t n j.tag 1 reason) s

/-! The CRC unit (R353). -/

/-- Width of the CRC unit's polynomial in bits. Log entry 140 (DEDUCED). -/
def crcWidth (s : State) (n : Nat) : Nat :=
  match getF s (engKey n 0xF2000) 5 4 with
  | 0 => 8
  | 1 => 16
  | _ => 32

/-- `CRC_STATE` after absorbing bytes: the remainder is held most significant bit first, and `REFIN` reflects each
byte as it enters. Log entry 140 (DEDUCED). -/
def crcAbsorb (s : State) (n : Nat) (l : List Byte) : State :=
  let w := crcWidth s n
  let poly := (getR s (engKey n 0xF2004)).toNat % 2 ^ w
  let refin := getB s (engKey n 0xF2000) 0
  let b := if refin then l.map fun x => b8 (revBits 8 x.toNat) else l
  setR s (engKey n 0xF2008) (w32 (crcMsb w poly ((getR s (engKey n 0xF2008)).toNat % 2 ^ w) b))

/-- `CRC_RESULT` (R353). Log entry 140 (DEDUCED). -/
def crcResult (s : State) (n : Nat) : Word :=
  let w := crcWidth s n
  let v := (getR s (engKey n 0xF2008)).toNat % 2 ^ w
  let r := if getB s (engKey n 0xF2000) 1 then revBits w v else v
  w32 (Nat.xor r ((getR s (engKey n 0xF200C)).toNat % 2 ^ w))

/-! Events, timers and the watchdog (R353, R358, R369). -/

/-- The lines whose condition holds now (R358). -/
def eventLive (s : State) (n : Nat) : Word :=
  let slotUp (k : Nat) : Bool :=
    let q := qhSlot s n k
    decide (q.st = 1 ∨ q.st = 3) &&
    (match rxRing q.chan with
      | some r => decide (getF s r.head 11 0 ≠ getF s r.tail 11 0)
      | none => decide (chanKind q.chan = 3) && fiqNonEmpty s (q.chan - 384))
  let e := eng s n
  let v := (List.range 8).foldl (fun v k => v + nb (slotUp k) * 2 ^ k) 0
  let jobUp := (e.jobs.any fun j => !j.cls2) || (decide (e.jobs ≠ []) && admits s n)
  w32 (v + nb (decide (inLevel s n ≠ 0)) * 0x100 + nb (decide (e.dmaCpl ≠ [])) * 0x200 + nb jobUp * 0x800)

/-- `EV_PEND` as it reads: a condition that persists sets its bit again (R358). -/
def evPend (s : State) (n : Nat) : Word := getR s (engKey n 0xF3000) ||| eventLive s n

/-- A read of an engine's `TNOW_LO` (R481). -/
def engTnow (n : Nat) (s : State) : State × Word :=
  (setR s (engKey n 0xF3010) (hi32 (coreTense s)), lo32 (coreTense s))

/-- A write of `TMR0_HI` or `TMR1_HI` arms the timer (R353). -/
def timerArm (s : State) (n t : Nat) (v : Word) : State :=
  let off := if t = 0 then 0xF3014 else 0xF301C
  let s1 := setR s (engKey n (off + 4)) v
  let d := dword v (getR s1 (engKey n off))
  engMod s1 n fun e => if t = 0 then { e with tmr0 := some d } else { e with tmr1 := some d }

/-- An engine timer fires: the clock advances to its compare value (R353). -/
def timerFire (s : State) (n t : Nat) : State :=
  match (if t = 0 then (eng s n).tmr0 else (eng s n).tmr1) with
  | none => s
  | some d =>
    let s1 := engMod (advanceCore s 4 d.toNat) n fun e => if t = 0 then { e with tmr0 := none } else { e with tmr1 := none }
    raiseEvent s1 n (14 + t)

/-- Restarts engine `n`'s watchdog. Log entry 179 (DEDUCED). -/
def engKick (s : State) (n : Nat) : State := engMod s n fun e => { e with wdtAt := s.time.tense }

/-- `WDT_CTRL` of physical engine `p` has been written, where `EN` was `was`: the watchdog counts from its enabling (R369).
Log entry 179 (DEDUCED). -/
def wdtEnable (was : Bool) (p : Nat) (s : State) : State :=
  match logicalOf s p with
  | some n => if getB s (PEN_WDT_CTRL p) 31 && !was then engKick s n else s
  | none => s

/-- The instant at which engine `n`'s watchdog expires. -/
def wdtDue (s : State) (n p : Nat) : Nat :=
  (eng s n).wdtAt.toNat + max 1 (getF s (PEN_WDT_CTRL p) 15 0) * 1000

/-- Declares logical engine `n` dead (R369, R370 step 1). -/
def declareDead (s : State) (n cause : Nat) : State :=
  match physOf s n with
  | none => s
  | some p =>
    if 2 ≤ (eng s n).st then s
    else
      let s1 := engMod (putF s (PEN_DEAD_CAUSE p) 3 0 cause) n fun e =>
        { e with st := 2, fenced := false, dmaQ := [], ckptWait := none }
      raiseIrq (raiseIrq s1 (PEN p) 1) PLC 3

/-- The watchdog of engine `n` expires: the clock advances to its end (R369). -/
def engWdtExpiry (s : State) (n : Nat) : State :=
  match physOf s n with
  | none => s
  | some p =>
    if getB s (PEN_WDT_CTRL p) 31 = false ∨ engAlive s n = false then s
    else
      let s1 := putB (advanceNs s (wdtDue s n p)) (PEN_WDT_STATUS p) 31 true
      declareDead (raiseIrq s1 (PEN p) 0) n 1

/-- `WDT_STATUS` of physical engine `p` as it reads. -/
def wdtStatus (s : State) (p : Nat) : Word :=
  let left := match logicalOf s p with
    | some n => if getB s (PEN_WDT_CTRL p) 31 then (wdtDue s n p - tenseNs s) / 1000 else 0
    | none => 0
  setFld (getR s (PEN_WDT_STATUS p)) 15 0 (min 0xFFFF left)

/-! Migration: what its two engines write (R366). -/

/-- Finds the migration of a channel. -/
def migOf (s : State) (c : Nat) : Option Mig := s.plc.migs.find? fun m => decide (m.chan = c)

/-- A slot changed: its own line and line 13 (R358). -/
def slotChanged (s : State) (n k : Nat) : State := raiseEvent (raiseEvent s n k) n 13

/-- The source hands channel `c` over: its slot becomes EMPTY, the target sees `CTX_READY`, and jobs that name the
channel move to the target (R366). -/
def handOver (s : State) (g : Mig) : State :=
  let js := (eng s g.src).taken.filter fun j => decide (j.chan = g.chan)
  let s1 := engMod (qhSet s g.src g.srcSlot QhSlot.init) g.src fun e =>
    { e with taken := e.taken.filter fun j => decide (j.chan ≠ g.chan) }
  let s2 := engMod s1 g.dst fun e => { e with taken := e.taken ++ js }
  let q := qhSlot s2 g.dst g.dstSlot
  slotChanged (raiseEvent (qhSet s2 g.dst g.dstSlot { q with ready := true }) g.src g.srcSlot) g.dst g.dstSlot

/-- `QH_CTRL` with `MIG_READY` on slot `k` of engine `n`. -/
def migReady (s : State) (n k : Nat) : State :=
  let q := qhSlot s n k
  if q.st ≠ 2 then s
  else match migOf s q.chan with
    | some g => if g.src = n ∧ g.switched = true then handOver s g else s
    | none => s

/-- `QH_CTRL` with `MIG_DONE` on slot `k` of engine `n`: the slot becomes SERVING and held frames are released (R366, R367). -/
def migDone (s : State) (n k : Nat) : State :=
  let q := qhSlot s n k
  if q.st ≠ 3 ∨ q.ready = false then s
  else match migOf s q.chan with
    | none => s
    | some g =>
      let s1 := qhSet s n k { st := 1, ready := false, chan := q.chan, mig := 0 }
      let s2 := { s1 with plc := { s1.plc with migs := s1.plc.migs.erase g } }
      let s3 := bump s2 PLC_MIG_COUNT
      let s4 := if 50000 < (s.time.tense - g.at_).toNat then bump s3 PLC_MIG_LATE else s3
      raiseIrq (raiseEvent s4 n k) PLC 1

/-! Death and takeover (R370–R374). -/

/-- Whether the Gate holds for a supply warning (R173). -/
def supplyHold (s : State) : Bool := getB s IMG_GATE_STATUS 30

/-- The lowest-numbered free spare (R370). -/
def freeSpareEngine (s : State) : Option Nat :=
  (List.range 52).find? fun p =>
    getB s (PEN_MAP p) 30 && !(getB s (PEN_MAP p) 31) && !(getB s (PEN_MAP p) 29) && !(getB s (PEN_MAP p) 28)

/-- Spare `q` replaces physical engine `p` in service: the health record lists it, and `SYS.HEALTH` counts it (R74). -/
def healthEngine (s : State) (p q : Nat) : State :=
  let free := ((List.range 52).filter fun x =>
    getB s (PEN_MAP x) 30 && !(getB s (PEN_MAP x) 31) && !(getB s (PEN_MAP x) 29) && !(getB s (PEN_MAP x) 28)).length
  healthPut (fun h => { h with engines := h.engines ++ [(p, q)] })
    (putF (putF s SYS_HEALTH 27 25 (min 4 free)) SYS_HEALTH 11 8 (min 15 (getF s SYS_HEALTH 11 8 + 1)))

/-- The migrations that a LOST engine takes part in: one that has not switched is abandoned; one that has goes on where its
source is LOST, and ends where its target is, and the source's slot becomes EMPTY (R366, R373, R374).
Log entry 169 (DEDUCED). -/
def migsLost (s : State) (n : Nat) : State :=
  (s.plc.migs.filter fun g => decide (g.dst = n) || (decide (g.src = n) && !g.switched)).foldl (fun t g =>
    let t1 := { t with plc := { t.plc with migs := t.plc.migs.erase g } }
    if g.switched then
      if (qhSlot t1 g.src g.srcSlot).st = 2 then raiseEvent (qhSet t1 g.src g.srcSlot QhSlot.init) g.src g.srcSlot else t1
    else raiseIrq (bump t1 PLC_MIG_ABANDONED) PLC 2) s

/-- The engine becomes LOST (R373): its pinned channels are UNSERVED with `WHY` 4 and its queued jobs end ENGINE_LOST. -/
def engLost (s : State) (n : Nat) : State :=
  let chans := (s.plc.serve.filter fun e => decide (e.2 = n)).map fun e => e.1
  let pinned (c : Nat) : Bool := bit (sget s.plc.bound c 0) 30 || (sfind s.plc.stick c).isSome
  let js := (eng s n).jobs
  let s0 := migsLost s n
  let s1 := engMod s0 n fun e => { e with st := 3, jobs := [], slots := [] }
  let s2 := { s1 with plc := { s1.plc with
    serve := s1.plc.serve.filter fun e => decide (e.2 ≠ n)
    why := chans.foldl (fun m c => if pinned c then sset m c 4 else m) s1.plc.why } }
  raiseIrq (jobsFail s2 n 0x31 js) PLC 5

/-- Steps 2 to 4 of R370: items and service requests end, the engine is fenced, and a spare joins.
Log entry 144 (DEDUCED). -/
def engFence (s : State) (n : Nat) : State :=
  match physOf s n with
  | none => s
  | some p =>
    if (eng s n).st ≠ 2 ∨ (eng s n).fenced = true then s
    else
      let js := (eng s n).taken
      let s1 := svcEndAll (jobsFail (engMod s n fun e => { e with taken := [], fenced := true }) n 0x30 js) n
      let s2 := (s1.plc.migs.filter fun g => g.switched && decide (g.src = n)).foldl
        (fun t g => if (qhSlot t n g.srcSlot).st = 2 then handOver t g else t) s1
      let m := getR s2 (PEN_MAP p)
      let s3 := coreStop (putB (setR s2 (PEN_MAP p) (setFld (setFld (setBit m 31 false) 28 27 3) 21 16 0x3F)) (PEN_RUN_CTRL p) 0 true) n
      match freeSpareEngine s3 with
      | none => engLost s3 n
      | some q =>
        let s4 := setR s3 (PEN_MAP q) (setFld (setFld (setBit (getR s3 (PEN_MAP q)) 31 true) 21 16 n) 11 8 (n / 3))
        healthEngine (setR s4 (PEN_CKPT q) (getR s (PEN_CKPT p))) p q

/-- Loads a personality into the TCMs of logical engine `n`: I-TCM, D-TCM and zeros (R361). -/
def loadTcm (s : State) (n : Nat) (x : Pers) : State :=
  match physOf s n with
  | none => s
  | some p =>
    let m1 := sclear s.mem (tcmKey p 0) (tcmKey p 0x30000) (fun _ => true)
    { s with mem := memPut (memPut m1 (tcmKey p 0) x.itcm) (tcmKey p 0x10000) x.dtcm }

/-- Releases the silicon of engine `n` from reset. Log entry 150 (DEDUCED). -/
def releaseEngine (s : State) (n pc v : Nat) : State :=
  match physOf s n with
  | none => s
  | some p => engKick (coreStart (putB (putB s (PEN_RUN_CTRL p) 0 false) (PEN_MAP p) 27 false) n pc v) n

/-- Steps 5 and 6 of R370: the spare is loaded and released at `RESTORE`; while a supply warning stands, no spare is
released (R374). -/
def takeoverComplete (s : State) (n : Nat) : State :=
  match physOf s n, (eng s n).pers.bind fun k => sfind s.plc.pers k with
  | some p, some x =>
    if (eng s n).st ≠ 2 ∨ (eng s n).fenced = false ∨ supplyHold s = true then s
    else
      let ck := getR s (PEN_CKPT p)
      let s1 := engMod (loadTcm s n x) n fun e =>
        { EngSt.init with st := 1, pers := e.pers, slots := e.slots, jobs := e.jobs }
      let s2 := releaseEngine s1 n x.restore (if bit ck 31 then fld ck 29 15 else 0)
      raiseIrq (raiseIrq (raiseIrq (putB s2 SYS_HEALTH 2 true) (PEN p) 4) PLC 4) SYS 5
  | some p, none =>
    if (eng s n).st ≠ 2 ∨ (eng s n).fenced = false ∨ supplyHold s = true then s
    else
      let s1 := engMod s n fun e => { EngSt.init with slots := e.slots, jobs := e.jobs }
      raiseIrq (raiseIrq (raiseIrq (putB s1 SYS_HEALTH 2 true) (PEN p) 4) PLC 4) SYS 5
  | _, _ => s

/-! The commands. -/

/-- Two ports write one exchange row (R434). -/
def execCollide (a : Word) (mA : Master) (bytesA : List Byte) (mB : Master) (s : State) : Res :=
  .next (collideStep a.toNat mA bytesA mB s)

/-- The head DMA command, a RECV, runs (R356). -/
def execDmaRecv (n : Pe) (s : State) : Res := .next (dmaRun s n.val 1)

/-- The head DMA command, a SEND, runs (R356). -/
def execDmaSend (n : Pe) (s : State) : Res := .next (dmaRun s n.val 2)

/-- The head DMA command, a READ, runs (R356). -/
def execDmaRead (n : Pe) (s : State) : Res := .next (dmaRun s n.val 3)

/-- The head DMA command, a WRITE, runs (R356). -/
def execDmaWrite (n : Pe) (s : State) : Res := .next (dmaRun s n.val 4)

/-- What a read of one of engine `n`'s local registers answers. -/
def locAnswer (r : State × Word) : Res := .next (answer r.1 r.2)

/-- `DMA_CPL` is read (R353). -/
def execDmaCplRead (n : Pe) (s : State) : Res := locAnswer (dmaCplRead n.val s)

/-- `QH_TX_HEAD[k]` is written through to the controller (R353). -/
def qhTxHead (s : State) (n k : Nat) (v : Word) : State :=
  let q := qhSlot s n k
  match (if q.st = 0 then none else txRing q.chan) with
  | some r => putF s r.head 11 0 (fld v 11 0)
  | none => s

/-- `QH_RX_TAIL[k]` is written through to the controller (R353). -/
def qhRxTail (s : State) (n k : Nat) (v : Word) : State :=
  let q := qhSlot s n k
  match (if q.st = 0 then none else rxRing q.chan) with
  | some r => putF s r.tail 11 0 (fld v 11 0)
  | none => s

/-- `QH_TX_HEAD[k]` of engine `n` is written (R353). -/
def execQhTxHeadWrite (n : Pe) (k : Fin 8) (v : Word) (s : State) : Res := .next (qhTxHead s n.val k.val v)

/-- `QH_RX_TAIL[k]` of engine `n` is written (R353). -/
def execQhRxTailWrite (n : Pe) (k : Fin 8) (v : Word) (s : State) : Res := .next (qhRxTail s n.val k.val v)

/-- `JOB_NEXT` is read (R365). -/
def execJobNextRead (n : Pe) (s : State) : Res := locAnswer (jobNext n.val s)

/-- `JOB_END` is written (R365). -/
def execJobEnd (n : Pe) (tag : Word) (s : State) : Res := .next (jobEnd s n.val tag)

/-- A job completion record that waits is written (R365). -/
def execJobCompletionRecord (s : State) : Res := .next (jobRecordRetry s)

/-- Bytes a CRC data write absorbs (R353). -/
def crcData (s : State) (n : Nat) (sz : AccSize) (v : Word) : State :=
  crcAbsorb s n (leBytes (match sz with | .b1 => 1 | .b2 => 2 | _ => 4) v.toNat)

/-- `CRC_DATA8`, `CRC_DATA16` or `CRC_DATA32` is written, as `sz` says (R353). -/
def execCrcData (n : Pe) (sz : AccSize) (v : Word) (s : State) : Res := .next (crcData s n.val sz v)

/-- `TNOW_LO` is read: by an engine in its local map, by another master in the TNS page (R481). -/
def execTnowLoRead (m : Master) (s : State) : Res :=
  if 8 ≤ m.toNat ∧ m.toNat < 56 then locAnswer (engTnow (m.toNat - 8) s)
  else .next (gatedRead m TNS_TNOW_LO (tnowRead m) s)

/-- An engine timer is armed (R353). -/
def execTimerArm (n : Pe) (t : Fin 2) (v : Word) (s : State) : Res := .next (timerArm s n.val t.val v)

/-- An engine timer fires (R353). -/
def execEngineTimerFire (n : Pe) (t : Fin 2) (s : State) : Res := .next (timerFire s n.val t.val)

/-- An engine's `WDT_KICK` is written; other values are ignored (R353). -/
def execEngineWdtKick (n : Pe) (v : Word) (s : State) : Res :=
  .next (if v = 0x5A5A#32 then engKick s n.val else s)

/-- An engine's watchdog expires (R369). -/
def execEngineWatchdogExpiry (n : Pe) (s : State) : Res := .next (engWdtExpiry s n.val)

/-- `CKPT_COMMIT` is written (R371). -/
def execCkptCommit (n : Pe) (v : Word) (s : State) : Res := .next (ckptCommit s n.val v)

/-- `MIG_READY` is written on slot `k` (R366). -/
def execMigReady (n : Pe) (k : Fin 8) (len : BitVec 16) (s : State) : Res :=
  .next (setR (migReady s n.val k.val) (engKey n.val (0xF102C + 64 * k.val)) (w32 (len.toNat * 65536 + 1)))

/-- `MIG_DONE` is written on slot `k` (R366). -/
def execMigDone (n : Pe) (k : Fin 8) (s : State) : Res := .next (migDone s n.val k.val)

/-- An engine that has been declared dead, or that now meets an uncorrectable TCM error, is fenced (R369, R370). -/
def execEngineDeclaredDead (n : Pe) (tcm : Bool) (s : State) : Res :=
  .next (engFence (if tcm then declareDead s n.val 2 else s) n.val)

/-- A takeover completes (R370). -/
def execTakeoverComplete (n : Pe) (s : State) : Res := .next (takeoverComplete s n.val)

end Sys2Proof.Machine
end

