-- ==== Sys2Proof/Machine/Placement.lean ====
section
/-! DEFINITION. The placement controller (12): personality images, bindings, where channels are served,
migration, and `PLC.CMD`. -/

namespace Sys2Proof.Machine

open Reg

/-- Whether placement is frozen by an MGP restart (R16). -/
def plcFrozen (s : State) : Bool := decide (s.time.tense < s.sys.mgpDownTil)

/-- `PLC.CMD` ends with a status (R376). -/
def plcEnd (s : State) (st : Nat) : State :=
  raiseIrq (setR s PLC_CMD_RESULT (w32 (0x80000000 + st * 0x4000000))) PLC 0

/-! Personality images (R359, R360). -/

/-- The length of an image that follows its header, signature left out. -/
def persBody (h : List Byte) : Nat := 64 + leAt h 32 4 + leAt h 36 4 + (if leAt h 19 1 = 1 then 1952 else 0)

/-- The length of an image's signature: ML-DSA-65 for a vendor, the owner root key's algorithm for the owner. -/
def persSigLen (s : State) (h : List Byte) : Nat :=
  if leAt h 19 1 = 1 then 3309 else sigLen (catAlg s 0)

/-- Check 1 of R360. -/
def persFormatOk (s : State) (b : List Byte) : Bool :=
  let u (o n : Nat) : Nat := leAt b o n
  decide (64 ≤ b.length) && decide (u 0 4 = 0x4E524C50) && decide (u 4 2 = 1) && decide (u 6 2 < 4) &&
  decide (1 ≤ u 16 1) && decide (u 16 1 < 16) && decide (1 ≤ u 17 1) && decide (u 17 1 ≤ 8) &&
  (decide (u 18 1 = 0) || decide (16 ≤ u 18 1)) &&
  (decide (u 19 1 = 1 ∧ u 20 1 ≤ 3) || decide (u 19 1 = 2 ∧ u 20 1 = 0)) && decide (u 21 3 = 0) &&
  decide (4 ≤ u 32 4) && decide (u 32 4 ≤ 65536) && decide (u 32 4 % 4 = 0) && decide (u 36 4 ≤ 131072) &&
  decide (u 40 4 % 4 = 0) && decide (u 40 4 < u 32 4) && decide (u 44 4 % 4 = 0) && decide (u 44 4 < u 32 4) &&
  decide (u 48 4 ≤ 32768) && decide (u 52 2 ≤ 64) && decide (1 ≤ u 54 2) && decide (u 54 2 ≤ 1000) &&
  decide (u 56 8 = 0) && (decide (u 19 1 = 2 ∧ owner s ≠ 1) || decide (b.length = persBody b + persSigLen s b))

/-- Check 2 of R360: the signer stands. -/
def persSignerOk (s : State) (b : List Byte) : Bool :=
  if leAt b 19 1 = 1 then
    match s.sys.slots[leAt b 20 1]? with
    | some x =>
      x.programmed && !x.revoked &&
      decide (beNat (sha256 (slice b (persBody b - 1952) 1952)) = x.hash.toNat)
    | none => false
  else decide (owner s = 1)

/-- The personality that an image describes. -/
def persOf (b : List Byte) : Pers :=
  { flags := leAt b 6 2, id := leAt b 8 4, version := leAt b 12 4, kinds := leAt b 16 1, maxCh := leAt b 17 1
    owner := decide (leAt b 19 1 = 2), entry := leAt b 40 4, restore := leAt b 44 4, ctxLen := leAt b 48 4
    scratch := leAt b 52 2, load := leAt b 54 2, itcm := slice b 64 (leAt b 32 4)
    dtcm := slice b (64 + leAt b 32 4) (leAt b 36 4) }

/-- Check 3 of R360: the signature covers every byte before it; `lattice` is the verdict of an ML-DSA verification.
Log entry 148 (DESIGN CHOICE). -/
def persSigOk (s : State) (b : List Byte) (lattice : Bool) : Bool :=
  if leAt b 19 1 = 1 then lattice
  else sigVerify (catAlg s 0) (catKey s (catOf s 0)) (b.take (persBody b)) (b.drop (persBody b)) lattice

/-- The result of the checks of R360 on an image for slot `slot`. -/
def persCheck (s : State) (b : List Byte) (slot : Nat) (lattice : Bool) : Nat :=
  if !(persFormatOk s b) then 2
  else if !(persSignerOk s b) then 3
  else if !(persSigOk s b lattice) then 4
  else if getB s VLT_POLICY 0 && decide (leAt b 19 1 ≠ 2) then 5
  else if leAt b 18 1 ≠ 0 ∧ leAt b 24 8 < (vaultCounter s (leAt b 18 1)).toNat then 6
  else if (sfind s.plc.pers slot).isSome then 7
  else 0

/-- Puts an accepted image into the store. -/
def persStore (s : State) (slot : Nat) (b : List Byte) : State :=
  { s with plc := { s.plc with pers := sset s.plc.pers slot (persOf b) } }

/-- LOAD_PERS (R360). -/
def plcLoadPers (slot : Nat) (sigOk : Bool) (s : State) : State :=
  let r := fabRead s mSSP (getR s PLC_CMD_ADDR).toNat (getR s PLC_CMD_LEN).toNat true
  match r.2.1 with
  | .ok =>
    let st := persCheck r.1 r.2.2 slot sigOk
    plcEnd (if st = 0 then persStore r.1 slot r.2.2 else r.1) st
  | _ => plcEnd r.1 2

/-- Whether a binding names a personality slot, as it is written or as it is in force. -/
def persNamed (s : State) (slot : Nat) : Bool :=
  ((List.range 448).any fun c => getB s (PLC_BIND c) 31 && decide (getF s (PLC_BIND c) 20 16 = slot)) ||
    s.plc.bound.any fun e => bit e.2 31 && decide (fld e.2 20 16 = slot)

/-- UNLOAD_PERS (R376). -/
def plcUnload (slot : Nat) (s : State) : State :=
  if persNamed s slot then plcEnd s 8
  else plcEnd { s with plc := { s.plc with pers := sdel s.plc.pers slot } } 0

/-! Placement (R363, R364). -/

/-- What an engine carries in a placement: its personality, its channels and their load. -/
structure Carry where
  pers : Option Nat
  chans : Nat
  load : Nat
  deriving DecidableEq, Repr

/-- An engine that carries nothing. -/
def Carry.none : Carry := { pers := Option.none, chans := 0, load := 0 }

/-- The channels that have a binding in force. -/
def boundChans (s : State) : List (Nat × Word) := s.plc.bound.filter fun e => bit e.2 31

/-- The personality slot of a binding word. -/
def bindPers (w : Word) : Nat := fld w 20 16

/-- The engine a binding is pinned to, by its own word or by a personality without `MIGRATE` (R362). -/
def bindPin (s : State) (c : Nat) (w : Word) : Option Nat :=
  if bit w 30 then some (fld w 29 24) else sfind s.plc.stick c

/-- Whether a binding is class-0 work (R364 step 2). -/
def bindClass0 (s : State) (c : Nat) (w : Word) : Bool :=
  decide (chanKind c = 2) || (match sfind s.plc.pers (bindPers w) with | some x => x.flags.testBit 0 | none => false)

/-- What engine `n` carries in the present placement. -/
def carryNow (s : State) (n : Nat) : Carry :=
  let cs := (s.plc.serve.filter fun e => decide (e.2 = n)).map fun e => e.1
  let load := match (eng s n).pers.bind fun k => sfind s.plc.pers k with | some x => x.load | none => 0
  if cs = [] then Carry.none else { pers := (eng s n).pers, chans := cs.length, load := cs.length * load }

/-- The present placement, by engine. -/
def placeNow (s : State) : SMap Carry := (List.range 48).map fun n => (n, carryNow s n)

/-- Whether engine `n` can take a channel of personality `k` (R363). -/
def placeFits (s : State) (m : SMap Carry) (n k : Nat) (x : Pers) : Bool :=
  let e := sget m n Carry.none
  decide ((eng s n).st ≠ 3) && (decide (e.chans = 0) || decide (e.pers = some k)) && decide (e.chans < x.maxCh) &&
  decide (e.chans < 8) && decide (e.load + x.load ≤ max 100 (min 1000 (getF s PLC_LOAD_CAP 9 0)))

/-- Whether cluster `i` is powered. -/
def clusterOn (s : State) (i : Nat) : Bool := getB s (PLC_CLUSTER i) 31

/-- Whether cluster `i` is open in a placement: powered, or serving a channel. -/
def clusterOpen (s : State) (m : SMap Carry) (i : Nat) : Bool :=
  clusterOn s i || (List.range 3).any fun j => decide ((sget m (3 * i + j) Carry.none).chans ≠ 0)

/-- The engine of a list with the lowest load, the lowest number first among equals. -/
def leastLoad (m : SMap Carry) (l : List Nat) : Option Nat :=
  l.foldl (fun b n => match b with
    | none => some n
    | some x => if (sget m n Carry.none).load < (sget m x Carry.none).load then some n else some x) none

/-- The engine that placement gives a binding (R364), or why it finds none (R362). -/
def placePick (s : State) (m : SMap Carry) (c : Nat) (w : Word) : Nat ⊕ Nat :=
  match sfind s.plc.pers (bindPers w) with
  | none => .inr 1
  | some x =>
    if x.kinds.testBit (chanKind c) = false then .inr 2
    else
      let k := bindPers w
      match bindPin s c w with
      | some n =>
        if 48 ≤ n then .inr 3
        else if (eng s n).st = 3 then .inr 4
        else if placeFits s m n k x then .inl n else .inr 5
      | none =>
        let all := (List.range 48).filter fun n => placeFits s m n k x
        let pick := if bindClass0 s c w then
            (match all.find? fun n => clusterOpen s m (n / 3) with | some n => some n | none => all.head?)
          else
            (match leastLoad m (all.filter fun n => clusterOn s (n / 3)) with | some n => some n | none => leastLoad m all)
        match pick with
        | some n => .inl n
        | none => .inr 3

/-- The order of R364: pinned, class 0, the rest. Log entry 141 (DESIGN CHOICE). -/
def placeOrder (s : State) (l : List (Nat × Word)) : List (Nat × Word) :=
  let pin := l.filter fun e => (bindPin s e.1 e.2).isSome
  let rest := l.filter fun e => (bindPin s e.1 e.2).isNone
  pin ++ (rest.filter fun e => bindClass0 s e.1 e.2) ++ (rest.filter fun e => !(bindClass0 s e.1 e.2))

/-- A placement with one channel more on engine `n`. -/
def carryAdd (s : State) (m : SMap Carry) (n : Nat) (w : Word) : SMap Carry :=
  let e := sget m n Carry.none
  let load := match sfind s.plc.pers (bindPers w) with | some x => x.load | none => 0
  sset m n { pers := some (bindPers w), chans := e.chans + 1, load := e.load + load }

/-- A placement of every binding from nothing: engine by channel, and what each engine then carries.
Log entry 141 (DESIGN CHOICE). -/
def placeFresh (s : State) : SMap Nat × SMap Carry :=
  (placeOrder s (boundChans s)).foldl (fun a e =>
    match placePick s a.2 e.1 e.2 with
    | .inl n => (sset a.1 e.1 n, carryAdd s a.2 n e.2)
    | .inr _ => a) ([], [])

/-! Clock steps (R32, R34, R533). -/

/-- Migrations in progress that touch cluster `i`. -/
def migsIn (s : State) (i : Nat) : Nat :=
  (s.plc.migs.filter fun g => decide (g.src / 3 = i) || decide (g.dst / 3 = i)).length

/-- Whether cluster `c` carries a class-0 binding. -/
def clusterClass0 (s : State) (c : Nat) : Bool :=
  s.plc.serve.any fun e => decide (e.2 / 3 = c) && bindClass0 s e.1 (sget s.plc.bound e.1 0)

/-- The step `v` is requested for cluster `c`; it is `PENDING` until it applies. -/
def stepPut (c v : Nat) (s : State) : State :=
  let s1 := putF s (CLK_CLUSTER_STEP c) 1 0 (v % 4)
  putB s1 (CLK_CLUSTER_STEP c) 9 (decide (getF s1 (CLK_CLUSTER_STEP c) 5 4 ≠ v % 4))

/-- A write of `CLUSTER_STEP[c]` (R533). -/
def stepWrite (c v : Nat) (s : State) : State :=
  if v % 4 ≠ 0 ∧ clusterClass0 s c = true then raiseIrq (bump s CLK_STEP_REFUSED) CLK 1 else stepPut c v s

/-- Whether a migration defers the step change of cluster `c` (R34, R533). -/
def stepDeferred (s : State) (c : Nat) : Bool := decide (migsIn s c ≠ 0)

/-- A requested step takes effect (R533). One below 400 MHz that waited while a class-0 binding came to the cluster is discarded
like the write that requested it (R32, R536). -/
def stepApply (c : Nat) (s : State) : State :=
  let want := getF s (CLK_CLUSTER_STEP c) 1 0
  if want = getF s (CLK_CLUSTER_STEP c) 5 4 ∨ stepDeferred s c = true then s
  else if want ≠ 0 ∧ clusterClass0 s c = true then
    stepPut c (getF s (CLK_CLUSTER_STEP c) 5 4) (raiseIrq (bump s CLK_STEP_REFUSED) CLK 1)
  else raiseIrq (bump (putB (putF s (CLK_CLUSTER_STEP c) 5 4 want) (CLK_CLUSTER_STEP c) 9 false) CLK_STEP_CHANGES) CLK 2

/-- Cluster `c` runs at 400 MHz before a class-0 binding comes to it (R32, R34), unless a migration defers the change. -/
def stepRestore (c : Nat) (s : State) : State := stepApply c (stepPut c 0 s)

/-- Whether cluster `c` runs at 400 MHz. -/
def stepFull (s : State) (c : Nat) : Bool := decide (getF s (CLK_CLUSTER_STEP c) 5 4 = 0)

/-! Where the channels are served. -/

/-- The quiescent condition of a channel, under which alone placement changes the engine that serves it (R105, R298, R325, R344,
R366). -/
def chanQuiet (s : State) (c : Nat) : Bool :=
  match chanKind c with
  | 0 =>
    let n := engineOf s c
    let ok (fid : Nat) : Bool := match frameOf s fid with
      | some f => decide (f.channel = c) && decide (f.engine = n)
      | none => false
    !((s.sw.sink.any fun e => ok e.fid) || (s.sw.queue.any fun e => decide (e.port = engPort n) && ok e.fid))
  | 1 => decide ((mdb s (c - 256)).fifo = [])
  | 2 => plkMayMove s (c - 320)
  | _ =>
    let n := c - 384
    decide (getF s (PTC_TX_HEAD n) 11 0 = getF s (PTC_TX_TAIL n) 11 0) && decide (sget s.gate.entry c [] = [])

/-- Gives engine `n` a personality and starts it (R361), with its cluster powered. -/
def engLoad (s : State) (n k : Nat) : State :=
  match sfind s.plc.pers k with
  | none => s
  | some x =>
    let s1 := putB s (PLC_CLUSTER (n / 3)) 31 true
    let s2 := engMod (loadTcm (coreStop s1 n) n x) n fun e => { e with pers := some k, st := 1 }
    releaseEngine s2 n x.entry 0

/-- Puts channel `c` on engine `n` in its lowest EMPTY slot (R363). -/
def serveSlot (s : State) (c n k : Nat) : State :=
  let s1 := if (eng s n).pers = some k ∧ (eng s n).st = 1 then s
    else if (carryNow s n).chans = 0 ∧ (eng s n).st < 2 then engLoad s n k else s
  match (List.range 8).find? fun j => decide ((qhSlot s1 n j).st = 0) with
  | none => s1
  | some j =>
    let s2 := qhSet s1 n j { st := 1, ready := false, chan := c, mig := 0 }
    let mig := match sfind s.plc.pers k with | some x => x.flags.testBit 1 | none => false
    let s3 := { s2 with plc := { s2.plc with
      serve := sset s2.plc.serve c n, why := sdel s2.plc.why c
      stick := if mig then s2.plc.stick else sset s2.plc.stick c n } }
    raiseEvent s3 n j

/-- Puts channel `c` on engine `n`. Class-0 work comes to a cluster at 400 MHz only (R32): where a migration defers that step, the
channel waits for the next decision. -/
def serveOn (s : State) (c n k : Nat) : State :=
  if bindClass0 s c (sget s.plc.bound c 0) then
    let s1 := stepRestore (n / 3) s
    if stepFull s1 (n / 3) then serveSlot s1 c n k else s1
  else serveSlot s c n k

/-- Takes channel `c` off its engine. -/
def unserve (s : State) (c : Nat) : State :=
  let n := engineOf s c
  let s1 := match slotOf s n c [1, 2, 3] with
    | some k => raiseEvent (qhSet s n k QhSlot.init) n k
    | none => s
  { s1 with plc := { s1.plc with serve := sdel s1.plc.serve c } }

/-- A binding write takes effect. One that takes the channel off its engine waits for the channel's quiescent condition
(R298, R325, R344). -/
def bindTake (t : State) (c : Nat) (w : Word) : State :=
  let old := sget t.plc.bound c 0
  let same := bit old 31 && bit w 31 && decide (bindPers old = bindPers w)
  let pinMoves := bit w 30 && decide (engineOf t c ≠ fld w 29 24)
  let mv := match sfind t.plc.pers (bindPers w) with | some x => x.flags.testBit 1 | none => false
  let stays := same && (!pinMoves || mv)
  if !stays && (sfind t.plc.serve c).isSome && !(chanQuiet t c) then t
  else
    let t1 := if stays then t else unserve t c
    { t1 with plc := { t1.plc with
      wish := sdel t1.plc.wish c, bound := sset t1.plc.bound c w
      stick := if same then t1.plc.stick else sdel t1.plc.stick c, why := sdel t1.plc.why c } }

/-- Bindings written since the last decision take effect, but for channels that migrate (R362). -/
def bindApply (s : State) : State :=
  (s.plc.wish.filter fun e => (migOf s e.1).isNone).foldl (fun t e => bindTake t e.1 e.2) s

/-- Whether placement may give channel `c` an engine now: a Period Link channel's engine changes within the NIT only (R298). -/
def mayServe (s : State) (c : Nat) : Bool := decide (chanKind c ≠ 2) || chanQuiet s c

/-- Places every binding that no engine serves (R364 steps 1 to 3). -/
def placeMissing (s : State) : State :=
  (placeOrder s ((boundChans s).filter fun e => (sfind s.plc.serve e.1).isNone && mayServe s e.1)).foldl (fun t e =>
    match placePick t (placeNow t) e.1 e.2 with
    | .inl n => serveOn t e.1 n (bindPers e.2)
    | .inr w => { t with plc := { t.plc with why := sset t.plc.why e.1 w } }) s

/-- Requests the migration of channel `c` to engine `n`, within the limits of R368; a class-0 binding's target cluster is first
restored to 400 MHz (R34). -/
def migRequest (s : State) (c n : Nat) : State :=
  let src := engineOf s c
  if (migOf s c).isSome ∨ 4 ≤ s.plc.migs.length ∨ migsIn s (src / 3) ≠ 0 ∨ migsIn s (n / 3) ≠ 0 ∨ 48 ≤ src ∨ src = n then s
  else
    let g : Mig := { chan := c, src := src, dst := n, srcSlot := (slotOf s src c [1]).getD 0, dstSlot := 0, mslot := 0
                     switched := false, at_ := s.time.tense }
    let s1 := if bindClass0 s c (sget s.plc.bound c 0) then stepRestore (n / 3) s else s
    { s1 with plc := { s1.plc with migs := s1.plc.migs ++ [g] } }

/-- Moves channels where a fresh placement differs by more than 100 thousandths on some engine, and pinned channels that
stand elsewhere (R364). -/
def placeBalance (s : State) : State :=
  let fresh := placeFresh s
  let now := placeNow s
  let far := (List.range 48).any fun n =>
    let a := (sget now n Carry.none).load
    let b := (sget fresh.2 n Carry.none).load
    decide (a + 100 < b) || decide (b + 100 < a)
  (boundChans s).foldl (fun t e =>
    let mv := match sfind t.plc.pers (bindPers e.2) with | some x => x.flags.testBit 1 | none => false
    match sfind fresh.1 e.1, sfind t.plc.serve e.1 with
    | some n, some o =>
      if mv && decide (n ≠ o) && (far || bit e.2 30) &&
          (decide ((eng t n).pers = some (bindPers e.2)) || decide ((carryNow t n).chans = 0)) then
        migRequest (if (eng t n).pers = some (bindPers e.2) ∧ (eng t n).st = 1 then t else engLoad t n (bindPers e.2)) e.1 n
      else t
    | _, _ => t) s

/-- Whether a cluster serves a channel or has work of a job. -/
def clusterBusy (s : State) (i : Nat) : Bool :=
  (List.range 3).any fun j =>
    let n := 3 * i + j
    decide ((carryNow s n).chans ≠ 0) || decide ((eng s n).jobs ≠ []) || decide ((eng s n).taken ≠ [])

/-- Step 4 of R364: a cluster that has been idle for `IDLE_OFF_MS` is powered off. -/
def clusterIdle (s : State) (i : Nat) : State :=
  if clusterBusy s i ∨ clusterOn s i = false then
    { s with plc := { s.plc with idleAt := sdel s.plc.idleAt i } }
  else
    let at_ := sget s.plc.idleAt i s.time.tense
    let ms := getF s PLC_IDLE_OFF_MS 15 0
    let s1 := { s with plc := { s.plc with idleAt := sset s.plc.idleAt i at_ } }
    if ms ≠ 0 ∧ ms * 1000000 ≤ (s.time.tense - at_).toNat then
      (List.range 3).foldl (fun t j => engMod (coreStop t (3 * i + j)) (3 * i + j) fun e =>
        if e.st = 1 then { e with st := 0, pers := none } else e) (putB s1 (PLC_CLUSTER i) 31 false)
    else s1

/-- Whether bank `b` is STABLE and ON with kind `k`. -/
def bankIs (s : State) (k b : Nat) : Bool :=
  decide (bankKind s b = k) && decide (bankState s b = 0) && decide (bankPwr s b = 0)

/-- Writes `KIND` and `ENGINE` of a bank, as placement does. -/
def bankGive (s : State) (b k e : Nat) : State :=
  bankCtrl b (setFld (setFld (getR s (BNK_BANK_CTRL b)) 27 24 k) 21 16 e) s

/-- The scratch banks of engine `n`, those on their way included. -/
def engScratch (s : State) (n : Nat) : List Nat :=
  (List.range 496).filter fun b => decide (bankKind s b = kScratch) && decide (ctrlEngine (getR s (BNK_BANK_CTRL b)) = n)

/-- Gives engine `n` scratch banks until it has `want` (R364 step 5): FREE banks first, then banks of the switch beyond
`SWITCH_MIN_BANKS`. -/
def scratchGrow (s : State) (n want fuel : Nat) : State :=
  match fuel with
  | 0 => s
  | fuel + 1 =>
    if want ≤ (engScratch s n).length then s
    else match (List.range 496).find? (bankIs s kFree) with
      | some b => scratchGrow (bankGive s b kScratch n) n want fuel
      | none =>
        if s.sw.banks.length ≤ getF s PLC_SWITCH_MIN_BANKS 9 0 then s
        else match s.sw.banks.head? with
          | some b => scratchGrow (bankGive s b kScratch n) n want fuel
          | none => s

/-- Steps 5 and 6 of R364. -/
def placeBanks (s : State) : State :=
  let s1 := (List.range 48).foldl (fun t n =>
    let want := match (eng t n).pers.bind fun k => sfind t.plc.pers k with
      | some x => if (eng t n).st = 1 then x.scratch else 0
      | none => 0
    let t1 := ((engScratch t n).drop want).foldl (fun u b => bankGive u b kFree 0) t
    scratchGrow t1 n want 64) s
  ((List.range 496).filter (bankIs s1 kFree)).foldl (fun t b => bankGive t b kSwitch 0) s1

/-- Placement decides (R364); while it is frozen it does not (R16). -/
def placeRecompute (s : State) : State :=
  if plcFrozen s then s
  else
    let s1 := placeBalance (placeMissing (bindApply s))
    placeBanks ((List.range 16).foldl clusterIdle s1)

/-! Migration (R366–R368). -/

/-- The lowest migration slot that no migration uses. -/
def freeMigSlot (s : State) : Nat :=
  ((List.range 16).find? fun k => !(s.plc.migs.any fun g => g.switched && decide (g.mslot = k))).getD 0

/-- The end of a migration's wait for its quiescent condition (R366). -/
def migWaitEnd (s : State) (g : Mig) : Nat := g.at_.toNat + max 1 (getF s PLC_MIG_WAIT_US 15 0) * 1000

/-- The switch of a migration, when its quiescent condition holds within its wait and no supply warning stands (R366, R374). -/
def migSwitch (s : State) (c : Nat) : State :=
  match migOf s c with
  | none => s
  | some g =>
    if g.switched = true ∨ chanQuiet s c = false ∨ supplyHold s = true ∨ migWaitEnd s g < tenseNs s then s
    else match (List.range 8).find? fun j => decide ((qhSlot s g.dst j).st = 0) with
      | none => s
      | some j =>
        let k := freeMigSlot s
        let g2 := { g with dstSlot := j, mslot := k, switched := true, at_ := s.time.tense }
        let s1 := { s with plc := { s.plc with
          migs := s.plc.migs.map fun x => if x = g then g2 else x, serve := sset s.plc.serve c g.dst } }
        let s2 := qhSet s1 g.src g.srcSlot { st := 2, ready := false, chan := c, mig := k }
        let s3 := qhSet s2 g.dst j { st := 3, ready := false, chan := c, mig := k }
        slotChanged (slotChanged s3 g.src g.srcSlot) g.dst j

/-- A migration that has not switched is abandoned: at once under a supply warning, else when its wait ends (R366). -/
def migAbandon (s : State) (c : Nat) : State :=
  match migOf s c with
  | none => s
  | some g =>
    if g.switched then s
    else
      let s1 := if supplyHold s then s else advanceNs s (migWaitEnd s g)
      raiseIrq (bump { s1 with plc := { s1.plc with migs := s1.plc.migs.erase g } } PLC_MIG_ABANDONED) PLC 2

/-! Jobs and bindings (R362, R365). -/

/-- POST_JOB (R365). -/
def plcPostJob (n : Nat) (cls2 : Bool) (s : State) : State :=
  let a := (getR s PLC_CMD_ADDR).toNat
  if 48 ≤ n ∨ a % 32 ≠ 0 ∨ inShared a 32 = false ∨ bankKind s (bankOf a) ≠ kRings then plcEnd s 2
  else if (eng s n).st = 3 then plcEnd s 0xA
  else if 16 ≤ (eng s n).jobs.length then plcEnd s 9
  else
    let seq := s.plc.jobSeq
    let tag := 0x30000000 + seq
    let s1 := wrLE s a 4 tag
    let j : Job := { tag := tag, cls2 := cls2, addr := a, chan := rdLE s (a + 4) 2 % 512 }
    let s2 := { s1 with plc := { s1.plc with jobSeq := if seq = 0x0FFFFFFF then 1 else seq + 1 } }
    plcEnd (engMod (setR s2 PLC_CMD_TAG (w32 tag)) n fun e => { e with jobs := e.jobs ++ [j] }) 0

/-- DECLARE_DEAD: MGP only (R369, R376). -/
def plcDeclareDead (m : Master) (n : Nat) (s : State) : State :=
  if m ≠ mSSP ∧ m ≠ mMGP then deny s errDeniedField m PLC_CMD true
  else if 48 ≤ n then plcEnd s 2
  else plcEnd (declareDead s n 3) 0

/-- A write of `PLC.CMD`: an unlisted operation ends with FORMAT (R586). Log entry 20 (DEDUCED). -/
def plcCmd (m : Master) (v : Word) (sigOk : Bool) (s : State) : State :=
  match fld v 2 0 with
  | 1 => plcLoadPers (fld v 12 8) sigOk s
  | 2 => plcUnload (fld v 12 8) s
  | 3 => plcEnd (placeRecompute s) 0
  | 4 => plcDeclareDead m (fld v 21 16) s
  | 5 => plcPostJob (fld v 21 16) (bit v 24) s
  | _ => plcEnd s 2

/-- A write of word 0 of `PLC.BIND[c]` (R362). Log entry 175 (DESIGN CHOICE). -/
def bindWrite (m : Master) (c : Nat) (v : Word) (s : State) : State :=
  if chanAssigned c then
    let off := PLC_BIND c - PLC
    let s1 := plainWrite (regDesc .PLC 0 off) m ⟨.PLC, 0, PLC⟩ off v s
    { s1 with plc := { s1.plc with wish := sset s1.plc.wish c (getR s1 (PLC_BIND c)) } }
  else raiseIrq (bump s PLC_BIND_REJECTED) PLC 7

/-- Word 0 of `PLC.BIND[c]` as it reads. -/
def bindWord0 (s : State) (c : Nat) : Word := setBit (getR s (PLC_BIND c)) 15 (chanAssigned c && chanGuarded s c)

/-- Word 1 of `PLC.BIND[c]` as it reads (R362). -/
def bindWord1 (s : State) (c : Nat) : Word :=
  match sfind s.plc.serve c with
  | some n =>
    let k := (slotOf s n c [1, 3]).getD 0
    w32 ((if (migOf s c).isSome then 2 else 1) * 0x40000000 + n * 0x1000000 + k * 0x200000)
  | none => if bit (sget s.plc.bound c 0) 31 then w32 (0xFF000000 + sget s.plc.why c 0 * 65536) else 0x3F000000#32

/-- `PLC.PERS_STATUS[k]` as it reads. -/
def persStatus (s : State) (k : Nat) : Word :=
  match sfind s.plc.pers k with
  | some x =>
    let n := ((List.range 48).filter fun n => decide ((eng s n).pers = some k)).length
    w32 (0x80000000 + nb x.owner * 0x40000000 + n * 0x1000000 + x.id % 65536)
  | none => 0

/-- `PLC.CLUSTER[i]` as it reads. -/
def clusterStatus (s : State) (i : Nat) : Word :=
  let ns := (List.range 3).map fun j => 3 * i + j
  let chans := ns.foldl (fun k n => k + (carryNow s n).chans) 0
  let c0 := s.plc.serve.any fun e => decide (e.2 / 3 = i) && bindClass0 s e.1 (sget s.plc.bound e.1 0)
  setFld (setBit (setFld (getR s (PLC_CLUSTER i)) 30 29 (getF s (CLK_CLUSTER_STEP i) 5 4)) 28 c0) 7 0 chans

/-- `PLC.ENGINE[n]` as it reads. -/
def engineStatus (s : State) (n : Nat) : Word :=
  let e := eng s n
  let c := carryNow s n
  w32 (e.st * 0x40000000 + (match e.pers with | some k => k | none => 0) * 0x1000000 + c.chans * 0x100000 + c.load)

/-- `PLC.STATUS` as it reads. -/
def plcStatus (s : State) : Word :=
  let spares := ((List.range 52).filter fun p =>
    getB s (PEN_MAP p) 30 && !(getB s (PEN_MAP p) 31) && !(getB s (PEN_MAP p) 29) && !(getB s (PEN_MAP p) 28)).length
  w32 (nb (plcFrozen s) * 0x80000000 + s.plc.migs.length * 65536 + spares)

/-! The commands. -/

/-- The switch of a migration (R366). -/
def execMigrationSwitch (c : BitVec 9) (s : State) : Res := .next (migSwitch s c.toNat)

/-- A migration is abandoned (R366). -/
def execMigrationAbandon (c : BitVec 9) (s : State) : Res := .next (migAbandon s c.toNat)

/-- `PLC.CMD` LOAD_PERS (R360). -/
def execLoadPers (m : Master) (slot : BitVec 5) (sigOk : Bool) (s : State) : Res :=
  .next (gatedWrite m PLC_CMD (plcLoadPers slot.toNat sigOk) s)

/-- `PLC.CMD` UNLOAD_PERS (R376). -/
def execUnloadPers (m : Master) (slot : BitVec 5) (s : State) : Res := .next (gatedWrite m PLC_CMD (plcUnload slot.toNat) s)

/-- `PLC.CMD` REBALANCE (R364). -/
def execRebalance (m : Master) (s : State) : Res := .next (gatedWrite m PLC_CMD (fun t => plcEnd (placeRecompute t) 0) s)

/-- `PLC.CMD` DECLARE_DEAD (R369). -/
def execDeclareDead (m : Master) (n : BitVec 6) (s : State) : Res :=
  .next (gatedWrite m PLC_CMD (plcDeclareDead m n.toNat) s)

/-- `PLC.CMD` POST_JOB (R365). -/
def execPostJob (m : Master) (n : BitVec 6) (cls2 : Bool) (s : State) : Res :=
  .next (gatedWrite m PLC_CMD (plcPostJob n.toNat cls2) s)

/-- `PLC.BIND[c]` word 0 is written (R362). -/
def execBindWrite (m : Master) (c : BitVec 9) (v : Word) (s : State) : Res :=
  .next (gatedWrite m (PLC_BIND c.toNat) (bindWrite m c.toNat v) s)

/-- Placement decides (R364). -/
def execPlacementRecompute (s : State) : Res := .next (placeRecompute s)

end Sys2Proof.Machine
end

