-- ==== Sys2Proof/Machine/Thermal.lean ====
section
/-! DEFINITION. The thermal budget, sensors, cluster clock steps, power domains and pads, the AON clock and the
management interface (17). -/

namespace Sys2Proof.Machine

open Reg

/-! Power domains (R525). -/

/-- The ports of port group `g` (R216). -/
def groupPorts (g : Nat) : List Nat := (List.range 24).map fun i => 24 * g + i

/-- Whether every MAC and lane of group `g` has `EN` = 0 (R525). -/
def groupIdle (s : State) (g : Nat) : Bool :=
  (groupPorts g).all fun p => !(getB s (BLK_CTRL (MAC p)) 0) && !(getB s (BLK_CTRL (SDS (laneOf p))) 0)

/-- Every register, counter and snapshot of a page returns to its reset value, but for those that `keep` names (R48). -/
def clearPage (s : State) (base span : Nat) (keep : Nat → Bool) : State :=
  { s with
    regs := sclear s.regs base (base + span) (fun k => !(keep k))
    cnts := sclear s.cnts base (base + span) (fun _ => true)
    snaps := sclear s.snaps base (base + span) (fun _ => true) }

/-- The blocks of a port group lose or regain power: a block whose domain turns on is reset (R48, R49). -/
def groupPower (s : State) (g : Nat) (on : Bool) : State :=
  let s1 := putB s PWR_DOM_ON_LO (20 + g) on
  (groupPorts g).foldl (fun t p =>
    if on then
      let t1 := clearPage (clearPage t (MAC p) 0x1000 fun _ => false) (SDS (laneOf p)) 0x1000 fun _ => false
      updIrq (updIrq { t1 with eth := { t1.eth with mac := sdel t1.eth.mac p } } (MAC p)) (SDS (laneOf p))
    else putF (putF t (BLK_STATUS (MAC p)) 3 2 2) (BLK_STATUS (SDS (laneOf p))) 3 2 2) s1

/-- Requests for port groups take effect: one that turns a group off waits until its condition holds (R525). -/
def groupSettle (s : State) : State :=
  (List.range 8).foldl (fun t g =>
    let want := getB t PWR_PORTGRP_REQ g
    let have_ := getB t PWR_DOM_ON_LO (20 + g)
    if want = have_ then t
    else if want then groupPower t g true
    else if groupIdle t g then groupPower t g false else t) s

/-- Whether slice `k` of the memory fabric is powered (R424, R525). -/
def sliceOn (s : State) (k : Nat) : Bool :=
  ((List.range 128).any fun i => decide (bankPwr s (128 * k + i) ≠ 2)) ||
  ((List.range 4).any fun i =>
    getB s (BNK_PHYS_word_1 (512 + 4 * k + i)) 31 && decide (getF s (BNK_PHYS_word_1 (512 + 4 * k + i)) 31 30 = 2)) ||
  (List.range 16).any fun i =>
    let p := 512 + i
    decide (getF s (BNK_PHYS_word_1 p) 31 30 = 2) && decide (getF s (BNK_PHYS_word_1 p) 25 16 / 128 = k)

/-- Whether power domain `d` is on (R525). -/
def domOn (s : State) (d : Nat) : Bool :=
  if d = 33 then true
  else if 2 ≤ devState s then false
  else if d < 16 then getB s (PLC_CLUSTER d) 31
  else if d < 20 then sliceOn s (d - 16)
  else if d < 28 then getB s PWR_DOM_ON_LO d
  else if d = 28 then decide (getF s (BLK_STATUS IMG) 3 2 = 0)
  else if d = 29 then decide (getF s (BLK_STATUS TNS) 3 2 = 0)
  else if d = 30 then decide (getF s (BLK_STATUS HIF) 3 2 = 0)
  else true

/-- `PWR.DOM_ON` as it reads, as a number of 34 bits. -/
def domMask (s : State) : Nat := (List.range 34).foldl (fun a d => a + nb (domOn s d) * 2 ^ d) 0

/-! Pads (R526). -/

/-- Pad groups release: those that are held and whose domain is on; that of group 6 is the Tense unit's (R526).
Log entry 23 (DEDUCED). -/
def padRelease (v : Nat) (s : State) : State :=
  if devState s < 2 then
    let w := w32 (v % 1024)
    setR s PWR_PAD_HOLD (getR s PWR_PAD_HOLD &&& ~~~ (if domOn s 29 then w else setBit w 6 false))
  else s

/-! The budget (R530–R532). -/

/-- Sets `ADMIT_LO` and `ADMIT_HI`; engines whose bit changes see line 12 (R358, R376). Log entry 142 (DEDUCED). -/
def admitPut (lo hi : Word) (s : State) : State :=
  let old := (getR s PLC_ADMIT_LO).toNat + 0x100000000 * (getR s PLC_ADMIT_HI).toNat
  let s1 := setR (setR s PLC_ADMIT_LO lo) PLC_ADMIT_HI hi
  let new := lo.toNat + 0x100000000 * hi.toNat
  (List.range 48).foldl (fun t n => if old.testBit n = new.testBit n then t else raiseEvent t n 12) s1

/-- Whether every ADMIT bit is set. -/
def admitAllSet (s : State) : Bool := decide (getR s PLC_ADMIT_LO = 0xFFFFFFFF#32) && decide (getF s PLC_ADMIT_HI 15 0 = 0xFFFF)

/-- Whether every ADMIT bit is clear. -/
def admitNone (s : State) : Bool := decide (getR s PLC_ADMIT_LO = 0#32) && decide (getF s PLC_ADMIT_HI 15 0 = 0)

/-- Sets `SHAPE_CFG.FRACTION`; what the shapers have earned at the rates before stands (R122). -/
def putFraction (s : State) (v : Nat) : State := putF (shapeSettleAll s) PWR_SHAPE_CFG 20 16 v

/-- `SHAPE_CFG.FRACTION`. -/
def fraction (s : State) : Nat := getF s PWR_SHAPE_CFG 20 16

/-- `SHAPE_MIN` in operation: 0 acts as 1. -/
def shapeMin (s : State) : Nat := max 1 (min 16 (getF s PWR_SHAPE_CFG 4 0))

/-- The ports whose `PAUSE_ALLOW` bit is 1 and which are not yet forced. -/
def pausePorts (s : State) : List Nat :=
  (List.range 192).filter fun p => getB s (PWR_PAUSE_ALLOW (p / 32)) (p % 32) && !(getB s (MAC_PAUSE_CTRL p) 2)

/-- Stage 1 of R531. -/
def shedAdmit (p : Forecast) (s : State) (excess : Int) : State × Int :=
  if excess ≤ 0 ∨ admitNone s = true then (s, excess) else (admitPut 0 0 s, excess - p.relief.toNat)

/-- The shaping steps of stage 2. -/
def shedShape (p : Forecast) (s : State) (excess : Int) (fuel : Nat) : State × Int :=
  match fuel with
  | 0 => (s, excess)
  | fuel + 1 =>
    if excess ≤ 0 ∨ fraction s ≤ shapeMin s then (s, excess)
    else shedShape p (putFraction s (fraction s - 1)) (excess - p.shape.toNat) fuel

/-- The pauses of stage 2. Log entry 110 (DESIGN CHOICE). -/
def shedPause (p : Forecast) (s : State) (excess : Int) : State × Int :=
  let ps := pausePorts s
  if excess ≤ 0 ∨ ps = [] then (s, excess)
  else
    let s1 := ps.foldl (fun t q => putB t (MAC_PAUSE_CTRL q) 2 true) s
    ({ s1 with pwr := { s1.pwr with forced := s1.pwr.forced ++ ps } }, excess - p.pause.toNat)

/-- The cluster that stage 3 steps down next: the highest-numbered powered one above 100 MHz without class-0 work.
Log entry 110 (DESIGN CHOICE). -/
def shedTarget (s : State) : Option Nat :=
  (List.range 16).reverse.find? fun c =>
    clusterOn s c && !(clusterClass0 s c) && decide (getF s (CLK_CLUSTER_STEP c) 1 0 < 3)

/-- Stage 3 of R531. Log entry 110 (DESIGN CHOICE). -/
def shedClusters (p : Forecast) (s : State) (excess : Int) (fuel : Nat) : State :=
  match fuel with
  | 0 => s
  | fuel + 1 =>
    if excess ≤ 0 then s
    else match shedTarget s with
      | none => s
      | some c => shedClusters p (stepWrite c (getF s (CLK_CLUSTER_STEP c) 1 0 + 1) s) (excess - p.cluster.toNat) fuel

/-- `shed` (R531). Log entry 110 (DESIGN CHOICE). -/
def shed (p : Forecast) (excess : Int) (s : State) : State :=
  let a := shedAdmit p s excess
  let b := shedShape p a.1 a.2 16
  let c := shedPause p b.1 b.2
  shedClusters p c.1 c.2 48

/-- The lowest-numbered stepped-down cluster. -/
def steppedDown (s : State) : Option Nat := (List.range 16).find? fun c => decide (getF s (CLK_CLUSTER_STEP c) 1 0 ≠ 0)

/-- `restore_one` (R532), where the room under the budget is `room`. Log entry 110 (DESIGN CHOICE). -/
def restoreOne (p : Forecast) (room : Int) (s : State) : State :=
  let may (x : BitVec 16) : Bool := decide ((getF s PWR_RESTORE_MARGIN 15 0 : Int) + x.toNat ≤ room)
  match steppedDown s with
  | some c => if may p.cluster then stepWrite c (getF s (CLK_CLUSTER_STEP c) 1 0 - 1) s else s
  | none =>
    if s.pwr.forced ≠ [] then
      if may p.pause then
        let s1 := s.pwr.forced.foldl (fun t q => putB t (MAC_PAUSE_CTRL q) 2 false) s
        { s1 with pwr := { s1.pwr with forced := [] } }
      else s
    else if fraction s < 16 then
      if may p.shape then putFraction s (fraction s + 1) else s
    else if admitAllSet s = false then
      if may p.relief then admitPut 0xFFFFFFFF 0xFFFF s else s
    else s

/-- The deepest stage in force (R531). -/
def schedStage (s : State) : Nat :=
  if (steppedDown s).isSome then 3
  else if fraction s < 16 ∨ s.pwr.forced ≠ [] then 2
  else if admitAllSet s then 0 else 1

/-- `TMP.MAX` in whole degrees. Log entry 109 (DEDUCED). -/
def maxC (s : State) : Int := ((getR s TMP_MAX).setWidth 16).toInt / 16

/-- One tick of the scheduler, at the next whole millisecond: it takes the estimate, sheds or restores (R530).
Log entry 110 (DESIGN CHOICE). -/
def budgetTick (est : Nat) (p : Forecast) (s : State) : State :=
  if awake s = false ∨ plcFrozen s = true ∨ s.time.running = false then s
  else
    let s1 := setR (advanceNs s ((tenseNs s / 1000000 + 1) * 1000000)) PWR_EST (w32 est)
    let cap : Int := (max 15000 (min 52000 (getF s1 PWR_CAP 15 0)) : Nat)
    let tcap : Int := (est : Int) + (getF s1 TMP_GAIN 15 0 : Int) * ((getF s1 TMP_LIMIT 7 0 : Int) - maxC s1 - 2)
    let excess : Int := (est : Int) - min cap tcap
    let s2 := if 0 < excess then raiseIrq (shed p excess s1) PWR 4
      else if (getF s1 PWR_RESTORE_MARGIN 15 0 : Int) ≤ -excess then restoreOne p (-excess) s1
      else s1
    setR s2 PWR_SCHED_STATUS (w32 (nb (decide (0 < excess)) * 0x80000000 + schedStage s2))

/-! Sensors (R528, R535, R540). -/

/-- The trip temperature of 127.0 °C in sixteenths of a degree. -/
abbrev tripTemp : Int := 2032

/-- One sensor takes a reading: one whose calibration has failed stays invalid. -/
def sensorTake (s : State) (i : Nat) (t : BitVec 16) : State :=
  if s.pwr.badCal.testBit i then { s with pwr := { s.pwr with hot := sset s.pwr.hot i 0 } }
  else
    let s1 := setR s (TMP_SENSOR i) (w32 (0x80000000 + t.toNat))
    { s1 with pwr := { s1.pwr with hot := sset s1.pwr.hot i (if tripTemp ≤ t.toInt then sget s1.pwr.hot i 0 + 1 else 0) } }

/-- The readings of a list go to the sensors in order. -/
def sensorsTake (s : State) (i : Nat) (l : List (BitVec 16)) : State :=
  match l with
  | [] => s
  | t :: r => if i < 24 then sensorsTake (sensorTake s i t) (i + 1) r else s

/-- The sensor with the highest valid reading, the lowest number among equals. Log entry 109 (DEDUCED). -/
def hottest (s : State) : Option Nat :=
  (List.range 24).foldl (fun b i =>
    if getB s (TMP_SENSOR i) 31 then
      match b with
      | none => some i
      | some j =>
        if ((getR s (TMP_SENSOR j)).setWidth 16).toInt < ((getR s (TMP_SENSOR i)).setWidth 16).toInt then some i else some j
    else b) none

/-- `TMP.MAX` and the alarm follow the sensors (R540). Log entry 109 (DEDUCED). -/
def tmpMax (s : State) : State :=
  let s1 := match hottest s with
    | some i => setR s TMP_MAX (w32 (i * 65536 + fld (getR s (TMP_SENSOR i)) 15 0))
    | none => s
  setRaw s1 TMP 0 (decide ((getF s1 TMP_ALARM 7 0 : Int) * 16 ≤ ((getR s1 TMP_MAX).setWidth 16).toInt))

/-- The sensors are sampled, 10 µs after the sample before (R528). -/
def sensorSample (l : List (BitVec 16)) (s : State) : State := tmpMax (sensorsTake (advanceCycles s 2500) 0 l)

/-- Calibration runs: the sensors of the mask fail it (R534, R540). -/
def calibrate (bad : Nat) (s : State) : State :=
  let s1 := { s with pwr := { s.pwr with badCal := bad } }
  let lost := (List.range 24).any fun i => bad.testBit i && getB s (TMP_SENSOR i) 31
  let s2 := (List.range 24).foldl (fun t i => if bad.testBit i then putB t (TMP_SENSOR i) 31 false else t) s1
  tmpMax (if lost then raiseIrq s2 TMP 1 else s2)

/-- Whether the thermal trip acts: a sensor was at or above 127.0 °C in two consecutive samples (R535). -/
def tripDue (s : State) : Bool := s.pwr.hot.any fun e => decide (2 ≤ e.2)

/-- A PLL loses lock (R539). -/
def pllLost (k : Nat) (s : State) : State :=
  if getB s CLK_PLL_STATUS k then
    let s1 := raiseIrq (putB s CLK_PLL_STATUS k false) CLK 0
    if k = 3 then putB s1 TNS_REF_STATUS 0 false else s1
  else s

/-! The AON clock (R537). -/

/-- The seconds of the AON RTC. -/
def rtcSec (s : State) : Nat := s.time.rtc / 32768

/-- The alarm's seconds. Log entry 111 (DEDUCED). -/
def rtcAlarmSec (s : State) : Nat := getF s PWR_RTC_ALARM_HI 15 0 * 0x100000000 + (getR s PWR_RTC_ALARM_LO).toNat

/-- A write of `RTC_SEC_LO`: it sets the seconds and clears the ticks within the second. -/
def rtcSecLo (v : Word) (s : State) : State :=
  { s with time := { s.time with rtc := (rtcSec s / 0x100000000 * 0x100000000 + v.toNat) * 32768 } }

/-- A write of `RTC_SEC_HI`: bits [47:32] of the seconds. -/
def rtcSecHi (v : Word) (s : State) : State :=
  { s with time := { s.time with
    rtc := (fld v 15 0 * 0x100000000 + rtcSec s % 0x100000000) * 32768 + s.time.rtc % 32768 } }

/-- The clock advances until the seconds equal the alarm's: interrupt bit 6, and a wake source (R522, R537).
Log entry 111 (DEDUCED). -/
def rtcAlarm (s : State) : State :=
  if s.time.rtcOn = false ∨ rtcAlarmSec s < rtcSec s then s
  else
    let ticks := rtcAlarmSec s * 32768 - s.time.rtc
    let s1 := advanceCycles s ((ticks * 1000000000 / 32768 + 7) / 4 * (if ticks = 0 then 0 else 1))
    wakeSource 9 (raiseIrq s1 PWR 6)

/-! The management interface (R524, R541). -/

/-- Whether the target serves its address. Log entry 112 (DEDUCED). -/
def mgtOn (s : State) : Bool := getB s (BLK_CTRL MGT) 0 && getB s MGT_CFG 0

/-- The receive condition drives interrupt bit 0 (R541). -/
def mgtRaw (s : State) : State := setRaw s MGT 0 (!s.mgt.rx.isEmpty)

/-- A transaction with the target's address (R524): it is always acknowledged, and wakes the device. -/
def mgtMatch (addr : Nat) (rd : Bool) (s : State) : State :=
  if mgtOn s = false ∨ addr ≠ getF s MGT_ADDR 6 0 then s
  else
    let s1 := putF s MGT_STATUS 1 0 (2 + nb rd)
    let s2 := { s1 with mgt := { s1.mgt with first := true, stretch := if devState s1 = 1 then some s1.time.aonNs else none } }
    let s3 := wakeSource 8 s2
    if s3.pwr.waking && pwrBusy s3 && !(pwrBusy s2) then raiseIrq s3 MGT 2 else s3

/-- A byte is not acknowledged. Log entry 112 (DEDUCED). -/
def mgtNack (s : State) : State :=
  raiseIrq (bump (emit { s with mgt := { s.mgt with stretch := none } } (.mgt none)) MGT_NACKED) MGT 3

/-- SCL is held, from now if it is not held yet. -/
def mgtStretch (s : State) : State :=
  { s with mgt := { s.mgt with stretch := match s.mgt.stretch with | some t => some t | none => some s.time.aonNs } }

/-- The transaction ends with a stop. -/
def mgtStop (stop : Bool) (s : State) : State := if stop then putB s MGT_STATUS 1 false else s

/-- A byte of the transaction in progress (R524, R541). Log entry 154 (DESIGN CHOICE). -/
def mgtByte (b : Byte) (stop : Bool) (s : State) : State :=
  if getB s MGT_STATUS 1 = false then s
  else if devState s = 1 then mgtStretch s
  else if getB s MGT_STATUS 31 = false ∨ awake s = false then mgtStop stop (mgtNack s)
  else if getB s MGT_STATUS 0 then
    match s.mgt.tx with
    | [] => raiseIrq (mgtStretch s) MGT 1
    | x :: r => mgtStop stop (emit { s with mgt := { s.mgt with tx := r, stretch := none } } (.mgt (some x)))
  else if 16 ≤ s.mgt.rx.length then mgtStretch s
  else
    let w := w32 (0x80000000 + nb stop * 0x200 + nb s.mgt.first * 0x100 + b.toNat)
    mgtStop stop (mgtRaw { s with mgt := { s.mgt with rx := s.mgt.rx ++ [w], first := false, stretch := none } })

/-- SCL has been held for `STRETCH_MAX`: the clock advances to that moment and the byte is not acknowledged (R541). -/
def mgtStretchEnd (s : State) : State :=
  match s.mgt.stretch with
  | none => s
  | some t =>
    let due := t + max 1 (getF s MGT_CFG 25 16) * 1000
    mgtNack (if due ≤ s.time.aonNs then s else advanceCycles s ((due - s.time.aonNs + 3) / 4))

/-- A read of `RX_DATA` (R541). -/
def mgtRead (s : State) : State × Word :=
  match s.mgt.rx with
  | [] => (s, 0)
  | w :: r => (mgtRaw { s with mgt := { s.mgt with rx := r } }, w)

/-- A write of `TX_DATA` (R541). Log entry 112 (DEDUCED). -/
def mgtWrite (v : Word) (s : State) : State :=
  if 16 ≤ s.mgt.tx.length then s else { s with mgt := { s.mgt with tx := s.mgt.tx ++ [v.setWidth 8] } }

/-- `MGT.LEVEL` as it reads. -/
def mgtLevel (s : State) : Word := w32 (s.mgt.tx.length * 65536 + s.mgt.rx.length)

/-! The commands. -/

/-- `PAD_RELEASE` is written (R526). -/
def execPadRelease (m : Master) (v : Word) (s : State) : Res := .next (gatedWrite m PWR_PAD_RELEASE (padRelease (fld v 9 0)) s)

/-- `PORTGRP_REQ` is written (R525). -/
def execPortgrpReqWrite (m : Master) (v : Word) (s : State) : Res :=
  .next (gatedWrite m PWR_PORTGRP_REQ (fun t => groupSettle (putF t PWR_PORTGRP_REQ 7 0 (fld v 7 0))) s)

/-- The scheduler's tick (R530). -/
def execBudgetTick (est : BitVec 16) (p : Forecast) (s : State) : Res := .next (budgetTick est.toNat p s)

/-- `CLUSTER_STEP[c]` is written (R533). -/
def execClusterStepWrite (m : Master) (c : Fin 16) (v : Word) (s : State) : Res :=
  .next (gatedWrite m (CLK_CLUSTER_STEP c.val) (stepWrite c.val (fld v 1 0)) s)

/-- A step change takes effect (R533). -/
def execClusterStepApplied (c : Fin 16) (s : State) : Res := .next (stepApply c.val s)

/-- The sensors are sampled (R528). -/
def execSensorSample (t : List (BitVec 16)) (s : State) : Res := .next (sensorSample t s)

/-- Calibration (R534). -/
def execSensorCalibration (bad : BitVec 24) (s : State) : Res := .next (calibrate bad.toNat s)

/-- The RTC alarm (R537). -/
def execRtcAlarm (s : State) : Res := .next (rtcAlarm s)

/-- `RTC_SEC_LO` is written (R537). -/
def execRtcSecWrite (m : Master) (v : Word) (s : State) : Res := .next (gatedWrite m PWR_RTC_SEC_LO (rtcSecLo v) s)

/-- A PLL loses lock (R539). -/
def execPllLockLost (k : Fin 5) (s : State) : Res := .next (pllLost k.val s)

/-- A transaction addresses the management target (R524). -/
def execMgtAddressMatch (addr : BitVec 7) (rd : Bool) (s : State) : Res := .next (mgtMatch addr.toNat rd s)

/-- A byte of a management transaction (R541). -/
def execMgtByte (b : Byte) (stop : Bool) (s : State) : Res := .next (mgtByte b stop s)

/-- `RX_DATA` is read (R541). -/
def execRxDataRead (m : Master) (s : State) : Res := .next (gatedRead m MGT_RX_DATA mgtRead s)

/-- `TX_DATA` is written (R541). -/
def execTxDataWrite (m : Master) (v : Word) (s : State) : Res := .next (gatedWrite m MGT_TX_DATA (mgtWrite v) s)

/-- SCL has been held too long (R541). -/
def execStretchMaxExpiry (s : State) : Res := .next (mgtStretchEnd s)

end Sys2Proof.Machine
end

