-- ==== Sys2Proof/Machine/Header.lean ====
section
/-! DEFINITION. The common header of every page (R46–R53): block control, soft reset, power, interrupts, access errors,
locks and counter snapshots. -/

namespace Sys2Proof.Machine

open Reg

/-- Every block instance (R44). -/
def allPages : List Page :=
  [⟨.SYS, 0, SYS⟩, ⟨.CLK, 0, CLK⟩, ⟨.PWR, 0, PWR⟩, ⟨.TMP, 0, TMP⟩, ⟨.INT, 0, INT⟩, ⟨.SEC, 0, SEC⟩, ⟨.VLT, 0, VLT⟩,
    ⟨.HIF, 0, HIF⟩, ⟨.MGT, 0, MGT⟩, ⟨.ATB, 0, ATB⟩, ⟨.PLC, 0, PLC⟩, ⟨.MBX, 0, MBX⟩, ⟨.LCK, 0, LCK⟩, ⟨.FIQ, 0, FIQ⟩,
    ⟨.BNK, 0, BNK⟩, ⟨.SWC, 0, SWC⟩, ⟨.FDB, 0, FDB⟩, ⟨.IMG, 0, IMG⟩, ⟨.TNS, 0, TNS⟩] ++
  (List.range 192).map (fun p => ⟨.MAC, p, MAC p⟩) ++ (List.range 60).map (fun l => ⟨.SDS, l, SDS l⟩) ++
  (List.range 48).map (fun n => ⟨.MDB, n, MDB n⟩) ++ (List.range 16).map (fun n => ⟨.PLK, n, PLK n⟩) ++
  (List.range 64).map (fun n => ⟨.PTC, n, PTC n⟩) ++ (List.range 52).map (fun p => ⟨.PEN, p, PEN p⟩)

/-! Counters and their snapshots (R52, R137). -/

/-- The counter registers of a block: offset and length in bytes of each run, and whether its counters have 64 bits. -/
def cntRegions (b : Blk) : List (Nat × Nat × Bool) :=
  match b with
  | .CLK => [(0x180, 8, true), (0x188, 4, false)]
  | .PWR => [(0x100, 32, true), (0x200, 512, true)]
  | .HIF => [(0x060, 16, true), (0x070, 8, false)]
  | .MGT => [(0x058, 4, false)]
  | .PLC => [(0x180, 16, false)]
  | .FIQ => [(0x4000, 512, false), (0x4400, 128, false)]
  | .BNK => [(0x100, 32, true), (0x5000, 128, true)]
  | .SWC => [(0x4000, 28672, true), (0xCC00, 1792, true)]
  | .FDB => [(0x070, 16, false)]
  | .IMG => [(0x400, 104, true), (0x500, 8, true), (0x1000, 1792, false)]
  | .TNS => [(0xE00, 32, true), (0xE20, 4, false), (0xE40, 40, false)]
  | .MAC => [(0x100, 144, true), (0x200, 72, true)]
  | .SDS => [(0x100, 16, true)]
  | .PLK => [(0x0C0, 64, false), (0x180, 128, false), (0x200, 256, false)]
  | .MDB => [(0x0C0, 64, false)]
  | .PTC => [(0x0C0, 32, false)]
  | .PEN => [(0x100, 8, true), (0x108, 8, false)]
  | _ => []

/-- The counter of which the register at `off` shows a word: its offset, and whether it is the high word. A bank's
`CE` count stands in `PHYS[p]` word 0 (R446). -/
def cntWord (b : Blk) (off : Nat) : Option (Nat × Bool) :=
  if b = .BNK ∧ 0x3000 ≤ off ∧ off < 0x4080 ∧ off % 8 = 0 then some (off, false)
  else
    ((cntRegions b).find? fun r => decide (r.1 ≤ off) && decide (off < r.1 + r.2.1)).map fun r =>
      if r.2.2 then (off - off % 8, decide (off % 8 = 4)) else (off, false)

/-- Whether software may clear a block's counters: residency counters are never cleared (R527). -/
def cntClears (b : Blk) : Bool := !(decide (b = .PWR))

/-- One page's counters are copied at the Tense counter value `t` (R52). -/
def snapPage (t : DWord) (s : State) (pg : Page) : State :=
  let b := pg.base
  let s1 := snapRange s b (b + blkSpan pg.blk) (getB s (CNT_CTRL b) 1 && cntClears pg.blk)
  let s2 := setR64 s1 (CNT_SNAP_TIME_LO b) t
  setR (putB s2 (CNT_CTRL b) 8 true) (CNT_SNAP_SEQ b) (getR s2 (CNT_SNAP_SEQ b) + 1)

/-- `SNAP`: the page's counters; through SYS, those of every page in the same cycle (R52). -/
def snapCmd (pg : Page) (s : State) : State :=
  if pg.blk = .SYS then allPages.foldl (snapPage s.time.tense) s else snapPage s.time.tense s pg

/-- A write of `CNT_CTRL`. -/
def cntCtrl (pg : Page) (v : Word) (s : State) : State :=
  let s1 := putB s (CNT_CTRL pg.base) 1 (bit v 1)
  if bit v 0 then snapCmd pg s1 else s1

/-! Interrupt registers (R50). -/

/-- Interrupt bits of the page are set or cleared, and its lines follow; mailbox pages have none (R478). -/
def irqPut (pg : Page) (v : Word) (s : State) : State :=
  if pg.blk = .MBX then s else updIrq (setR s (IRQ_STATUS pg.base) v) pg.base

/-- A write of `IRQ_STATUS`: a condition that persists sets its bit again. -/
def irqClear (pg : Page) (v : Word) (s : State) : State :=
  irqPut pg ((getR s (IRQ_STATUS pg.base) &&& ~~~ v) ||| getR s (IRQ_RAW pg.base)) s

/-- A write of `IRQ_FORCE`: reserved bits stay 0 (R8, R50). -/
def irqForce (pg : Page) (v : Word) (s : State) : State :=
  irqPut pg (getR s (IRQ_STATUS pg.base) ||| (v &&& w32 (irqMask pg.blk))) s

/-- A write of `IRQ_ENABLE`: reserved bits stay 0 (R8). -/
def irqEnable (pg : Page) (v : Word) (s : State) : State :=
  if pg.blk = .MBX then s else updIrq (setR s (IRQ_ENABLE pg.base) (v &&& w32 (irqMask pg.blk))) pg.base

/-- A write of `ERR_INFO`: a 1 in bit 31 clears `VALID` and `OVF`. -/
def errClear (pg : Page) (v : Word) (s : State) : State :=
  if bit v 31 then setFld (getR s (ERR_INFO pg.base)) 31 30 0 |> setR s (ERR_INFO pg.base) else s

/-- A write of `CFG_LOCK`: a 1 in bit 0 locks the page, as `BLK_CTRL.LOCKED` shows. -/
def cfgLock (pg : Page) (v : Word) (s : State) : State :=
  if bit v 0 then putB (putB s (CFG_LOCK pg.base) 0 true) (BLK_CTRL pg.base) 31 true else s

/-! Soft reset (R48). -/

/-- The registers of a block that show what is not the block's own functional state: the start-up and the owner (SYS), the
clocks, supplies and temperatures of the device, the vault, the Gate's tag counter and the conditions of lockdown and supply,
the banks, the silicon's assignment, the host link, the network reference, and `SEC.WPOL`, which `SEC.CFG_LOCK` holds (R57).
Log entry 22 (DEDUCED). -/
def showsDevice (b : Blk) (off : Nat) : Bool :=
  match b with
  | .SYS => [0x040, 0x048, 0x04C, 0x050, 0x064, 0x068, 0x06C, 0x070, 0x074, 0x080, 0x084, 0x088, 0x08C, 0x090].contains off
  | .CLK => decide (off = 0x040)
  | .PWR => [0x044, 0x050, 0x05C, 0x060, 0x068, 0x06C].contains off || decide (0x100 ≤ off ∧ off < 0x400)
  | .TMP => decide (off = 0x044) || decide (off = 0x050) || decide (0x100 ≤ off ∧ off < 0x160)
  | .VLT => decide (0x040 ≤ off ∧ off < 0x054) || decide (0x060 ≤ off ∧ off < 0x070) || decide (0x0A0 ≤ off)
  | .IMG => decide (off = 0x048) || decide (off = 0x054)
  | .BNK => decide (0x1000 ≤ off)
  | .PEN => decide (off = 0x040) || decide (off = 0x050) || decide (off = 0x054)
  | .MAC => decide (off = 0x048)
  | .HIF => decide (off = 0x048)
  | .SEC => decide (0x100 ≤ off)
  | .PLC => decide (0x100 ≤ off ∧ off < 0x140)
  | .TNS => decide (off = 0x04C)
  | _ => false

/-- Whether a soft reset leaves the register at offset `off` of a page: `BLK_CTRL`, `BLK_STATUS`, `CFG_LOCK`, every RWL
register, and what shows a state that is not the block's own (R48). Log entry 22 (DEDUCED). -/
def softKeeps (pg : Page) (off : Nat) : Bool :=
  decide (off = 0x008) || decide (off = 0x00C) || decide (off = 0x028) ||
  decide ((regDesc pg.blk pg.inst off).rwl ≠ 0) || showsDevice pg.blk off

/-- The released imperatives whose frames stand in the switch buffer end AGED, as R323 states for a controller's soft
reset (R25). Log entry 22 (DEDUCED). -/
def switchItems (s : State) : State :=
  s.sw.frames.foldl (fun t e => if e.2.itemTag = 0 then t else releasedEnd t e.2.itemTag ocAged) s

/-- Every frame in the switch buffer is discarded with its copies; the banks stay. -/
def switchEmpty (s : State) : State :=
  { s with sw := { s.sw with
    frames := [], queue := [], sink := [], used := [], arb := [], sched := [], purge := [], rules := [], vlan := []
    groups := [], gswap := [], goper := [], bucket := [], sampled := [] } }

/-- The functional state of a block beside its registers returns to its reset state. Log entry 22 (DEDUCED). -/
def softState (pg : Page) (s : State) : State :=
  match pg.blk with
  | .INT => intcRefresh (msixRelease ((List.range 256).foldl (fun t i => setLine t (768 + i) false) s))
  | .HIF => (List.range 32).foldl (fun t r => setLine t (352 + r) false) { s with hif := { s.hif with rings := [], txPtr := 0 } }
  | .MGT => { s with mgt := { rx := [], tx := [], stretch := none, first := false } }
  | .ATB => atbFollow { s with test := { s.test with atb := [] } }
  | .PLC => { s with plc := { s.plc with wish := s.plc.bound.map fun e => (e.1, setBit e.2 31 false) } }
  | .MBX => (List.range 64).foldl (fun t k => setLine (setLine t (mbxLine k) false) (512 + k) false) { s with mbx := [] }
  | .FIQ => (List.range 16).foldl (fun t a => setLine t (304 + a) false) { s with fiq := [], aq := [] }
  | .SWC => switchEmpty s
  | .FDB => { s with sw := { s.sw with fdb := [], purge := [], ageFrom := s.time.tense } }
  | .TNS => tnsSoft s
  | .MAC => linkSettle { s with eth := { s.eth with mac := sdel s.eth.mac pg.inst } } pg.inst
  | .SDS => if getB s (BLK_CTRL pg.base) 0 then laneStart pg.inst s else s
  | .IMG => { s with gate := { s.gate with sieve := [], vrWrapped := false, vrSeq := 0 } }
  | .PWR => groupSettle s
  | _ => s

/-- The frames that a MAC is sending, or holds preempted, are lost with it: the released imperatives among them end AGED
(R25, R323). Log entry 22 (DEDUCED). -/
def macItems (p : Nat) (s : State) : State :=
  let x := mac s p
  (x.tx.toList ++ x.held.toList).foldl (fun t f => if f.tag = 0 then t else releasedEnd t f.tag ocAged) s

/-- What a soft reset ends before the registers are cleared. Log entry 22 (DEDUCED). -/
def softEnds (pg : Page) (s : State) : State :=
  match pg.blk with
  | .MBX => (List.range 64).foldl (fun t k => if mbxState t k = 2 then mbxEnd t k 0x90 else t) s
  | .MAC => macItems pg.inst (redCtrl mSSP pg.inst 0 s)
  | .SWC => switchItems s
  | .IMG => pendEndAll s (fun _ => true) ocOverload
  | .SDS => laneStop pg.inst s
  | .TNS => tbsInvalid s
  | .PLK => plkSoft pg.inst s
  | .MDB => mdbSoft pg.inst s
  | .PTC => ptcSoft pg.inst s
  | _ => s

/-- `SOFT_RST`: functional state, counters and interrupt registers return to their reset values (R48).
Log entry 22 (DEDUCED). -/
def softReset (pg : Page) (s : State) : State :=
  let b := pg.base
  let s1 := softEnds pg s
  let s2 :=
    { s1 with
      regs := sclear s1.regs b (b + blkSpan pg.blk) (fun k => !(softKeeps pg (k - b)))
      cnts := if cntClears pg.blk then sclear s1.cnts b (b + blkSpan pg.blk) (fun _ => true) else s1.cnts
      snaps := if cntClears pg.blk then sclear s1.snaps b (b + blkSpan pg.blk) (fun _ => true) else s1.snaps }
  updIrq (softState pg s2) b

/-! `BLK_CTRL` (R46, R47). -/

/-- `EN` takes a value, and the block starts or stops. -/
def enWrite (pg : Page) (v : Bool) (s : State) : State :=
  if getB s (BLK_CTRL pg.base) 0 = v then s
  else
    let on := putB s (BLK_CTRL pg.base) 0 v
    match pg.blk with
    | .SDS => groupSettle (laneEn pg.inst v s)
    | .MAC => macEnSettle pg.inst (groupSettle on)
    | .PLK => if v then on else if plkC s pg.inst = 2 then plkStop pg.inst on else on
    | .MDB => if v then on else mdbStop pg.inst on
    | .PTC => ptcFirst pg.inst on
    | _ => on

/-- A write of `BLK_CTRL`: the soft reset first, then the power change, then `EN` (R47). -/
def blkCtrl (pg : Page) (v : Word) (s : State) : State :=
  let s1 := if bit v 1 then softReset pg s else s
  enWrite pg (bit v 0) (blkPowerReq pg.base (fld v 3 2) s1)

/-- What a completed power change does beside the block itself: with its domain down, HIF loses its link and the pads of the
Tense unit are held (R526); a Tense unit that comes from OFF has no valid base. Log entry 23 (DEDUCED). -/
def powerEnds (b : Blk) (old new : Nat) (s : State) : State :=
  match b with
  | .HIF => if old = 0 then hostLoss .link [] s else s
  | .TNS =>
    if new ≠ 0 then padsHold 0x40 s else if old = 2 then tbsInvalid s else s
  | _ => s

/-- The power change in progress completes (R46, R49): from OFF to ON the block resets in the sense of R7. -/
def powerDone (pg : Page) (s : State) : State :=
  let b := pg.base
  if getB s (BLK_STATUS b) 4 then
    let old := getF s (BLK_STATUS b) 3 2
    let new := getF s (BLK_CTRL b) 3 2
    let s0 := powerEnds pg.blk old new s
    let s1 := putB (putB (putF s0 (BLK_STATUS b) 3 2 new) (BLK_STATUS b) 4 false) (BLK_STATUS b) 1 false
    if old = 2 ∧ new = 0 then updIrq (softState pg (clearPage s1 b (blkSpan pg.blk) fun _ => false)) b else s1
  else s

/-- `BLK_STATUS` as it reads: `READY` is live. -/
def blkStatus (s : State) (pg : Page) : Word := setBit (getR s (BLK_STATUS pg.base)) 0 (blockReady s pg)

/-- A write to the common header. -/
def hdrWrite (pg : Page) (off : Nat) (v : Word) (s : State) : State :=
  match off with
  | 0x008 => blkCtrl pg v s
  | 0x014 => irqEnable pg v s
  | 0x018 => irqClear pg v s
  | 0x01C => irqForce pg v s
  | 0x020 => errClear pg v s
  | 0x028 => cfgLock pg v s
  | 0x030 => cntCtrl pg v s
  | _ => s

/-- A read of the common header. Log entry 19 (DEDUCED). -/
def hdrRead (pg : Page) (off : Nat) (s : State) : Word :=
  if off = 0x00C then blkStatus s pg else if off = 0x01C then 0 else getR s (pg.base + off)

/-- A command on a header register of the page at `a`: `f` is what the write does. -/
def onHeader (m : Master) (a off : Nat) (f : Page → State → State) (s : State) : State :=
  match pageOf a with
  | some pg => gatedWrite m (pg.base + off) (f pg) s
  | none => gatedWrite m a id s

/-! The commands. -/

/-- `CFG_LOCK` is written (R46, R48). -/
def execCfgLockWrite (m : Master) (page : Word) (v : Word) (s : State) : Res :=
  .next (onHeader m page.toNat 0x028 (fun pg => cfgLock pg v) s)

/-- `BLK_CTRL` is written with `SOFT_RST` set (R47, R48). -/
def execSoftRst (m : Master) (page : Word) (v : Word) (s : State) : Res :=
  .next (onHeader m page.toNat 0x008 (fun pg => blkCtrl pg (setBit v 1 true)) s)

/-- `BLK_CTRL.PWR` is written (R47). -/
def execBlockPowerRequest (m : Master) (page : Word) (pwr : BitVec 2) (s : State) : Res :=
  .next (onHeader m page.toNat 0x008 (fun pg => blkPowerReq pg.base pwr.toNat) s)

/-- A power change completes (R46). -/
def execBlockPowerChangeDone (page : Word) (s : State) : Res :=
  .next (match pageOf page.toNat with
    | some pg => powerDone pg s
    | none => s)

/-- `IRQ_FORCE` is written (R50). -/
def execIrqForce (m : Master) (page : Word) (v : Word) (s : State) : Res :=
  .next (onHeader m page.toNat 0x01C (fun pg => irqForce pg v) s)

/-- `CNT_CTRL` is written with `SNAP` set (R52). -/
def execCntSnap (m : Master) (page : Word) (clr : Bool) (s : State) : Res :=
  .next (onHeader m page.toNat 0x030 (fun pg => cntCtrl pg (w32 (1 + 2 * nb clr))) s)

/-! The policy and the interrupt controller (R55–R63). -/

/-- A write of `SEC.WPOL[t]`; a change by the SSP after `SEC.CFG_LOCK` sets SEC interrupt bit 3 (R57).
Log entry 25 (DEDUCED). -/
def wpolWrite (m : Master) (t : Nat) (v : Word) (s : State) : State :=
  let off := 0x100 + 4 * t
  let s1 := plainWrite (regDesc .SEC 0 off) m ⟨.SEC, 0, SEC⟩ off v s
  if getB s (CFG_LOCK SEC) 0 && decide (getR s1 (SEC_WPOL t) ≠ getR s (SEC_WPOL t)) then raiseIrq s1 SEC 3 else s1

/-- A write of `SW_SET` (`b`) or `SW_CLR` (R59, R63). -/
def swSource (b : Bool) (v : Word) (s : State) : State :=
  let n := fld v 9 0
  if n < 768 then raiseIrq s INT 2 else setLine s n b

/-- What lines, masks and routes make is delivered anew after a write (R62). -/
def routeWrite (m : Master) (n : Nat) (v : Word) (s : State) : State :=
  let a := INT_ROUTE n
  let old := getR s a
  let v1 := if 5 ≤ fld v 2 0 then setFld v 2 0 (fld old 2 0) else v
  let new := (old &&& ~~~ 0x00073F07#32) ||| (v1 &&& 0x00073F07#32)
  if bit old 31 && decide (m ≠ mSSP) then
    if new = old then s else raiseIrq (deny s errDeniedField m a true) INT 0
  else intcRefresh (setR s a new)

/-- A write of `MASK[k]`. -/
def maskWrite (k : Nat) (v : Word) (s : State) : State := intcRefresh (setR s (INT_MASK k) v)

/-- A write of `HOST_EOI[v]`: the message is sent again if the vector is still asserted (R60). -/
def hostEoi (v : Nat) (s : State) : State :=
  if vecUp s.intc.reached v then
    let r := msixDue s v
    if r.2 then raiseIrq r.1 INT 1 else r.1
  else s

/-- A write to the MSI-X table: an unmasked vector whose message waits is served. Log entry 17 (PRESUMED). -/
def msixTable (m : Master) (off : Nat) (v : Word) (s : State) : State :=
  msixRelease (plainWrite (regDesc .INT 0 off) m ⟨.INT, 0, INT⟩ off v s)

/-- The 32 interrupt lines of core target `t` from line `base` up, as `MGP_PEND` and `SSP_PEND` show them. -/
def linesOf (s : State) (t base : Nat) : Word :=
  s.intc.reached.foldl (fun w e =>
    let i := routeIndex e.2
    if routeTarget e.2 = t ∧ base ≤ i ∧ i < base + 32 then setBit w (i - base) true else w) 0#32

/-- `PEND[k]` as it reads. -/
def pendWord (s : State) (k : Nat) : Word :=
  s.intc.lines.foldl (fun w e => if e.1 / 32 = k ∧ e.2 then setBit w (e.1 % 32) true else w) 0#32

/-- `SEC.WPOL[t]` is written. -/
def execSecWpolWrite (m : Master) (t : Fin 38) (v : Word) (s : State) : Res :=
  .next (gatedWrite m (SEC_WPOL t.val) (wpolWrite m t.val v) s)

/-- `SEC.DENY_COUNT` reads and clears (R56). -/
def execDenyCountRead (m : Master) (s : State) : Res :=
  .next (gatedRead m SEC_DENY_COUNT (fun t => (setR t SEC_DENY_COUNT 0, getR t SEC_DENY_COUNT)) s)

/-- `SW_SET` is written. -/
def execSwSet (m : Master) (v : Word) (s : State) : Res := .next (gatedWrite m INT_SW_SET (swSource true v) s)

/-- `SW_CLR` is written. -/
def execSwClr (m : Master) (v : Word) (s : State) : Res := .next (gatedWrite m INT_SW_CLR (swSource false v) s)

/-- `ROUTE[n]` is written (R61, R62). -/
def execRouteWrite (m : Master) (n : Fin 1024) (v : Word) (s : State) : Res :=
  .next (gatedWrite m (INT_ROUTE n.val) (routeWrite m n.val v) s)

/-- `MASK[k]` is written (R62). -/
def execMaskWrite (m : Master) (k : Fin 32) (v : Word) (s : State) : Res :=
  .next (gatedWrite m (INT_MASK k.val) (maskWrite k.val v) s)

/-- `HOST_EOI[v]` is written. -/
def execHostEoi (m : Master) (vec : Fin 64) (s : State) : Res :=
  .next (gatedWrite m (INT_HOST_EOI vec.val) (hostEoi vec.val) s)

end Sys2Proof.Machine
end

