-- ==== Sys2Proof/Machine/Bus.lean ====
section
/-! DEFINITION. What a register access does in each block's pages: the rules of the block chapters' register tables. -/

namespace Sys2Proof.Machine

open Reg

/-! Writes. -/

/-- A write that falls under no rule of its own. -/
def plainPage (m : Master) (pg : Page) (off : Nat) (v : Word) (s : State) : State :=
  plainWrite (regDesc pg.blk pg.inst off) m pg off v s

/-- Whether `off` is the register at `o`, `o + st`, … of an array of `n`. -/
abbrev isArr (off o st n : Nat) : Bool := inArr off o st n

/-- CLK (R533, R539). -/
def wrCLK (m : Master) (pg : Page) (off : Nat) (v : Word) (s : State) : State :=
  if isArr off 0x100 4 16 then stepWrite (arrIx off 0x100 4) (fld v 1 0) s else plainPage m pg off v s

/-- PWR (R537): the wake sources asserted in the cycle of a `STATE_REQ` write are not given here, and left open.
Log entry 29 (DEDUCED). -/
def wrPWR (m : Master) (pg : Page) (off : Nat) (v : Word) (s : State) : State :=
  if off = 0x040 then
    let f := fresh s
    pwrReq (fld v 1 0) (f.1.toNat % 0x4000) f.2
  else if off = 0x064 then padRelease (fld v 9 0) s
  else if off = 0x070 then groupSettle (putF s PWR_PORTGRP_REQ 7 0 (fld v 7 0))
  else if off = 0x0C0 then rtcSecLo v s
  else if off = 0x0C4 then rtcSecHi v s
  else plainPage m pg off v s

/-- INT (R59–R63). -/
def wrINT (m : Master) (pg : Page) (off : Nat) (v : Word) (s : State) : State :=
  if isArr off 0x100 4 32 then maskWrite (arrIx off 0x100 4) v s
  else if off = 0x200 then swSource true v s
  else if off = 0x204 then swSource false v s
  else if isArr off 0x1000 4 1024 then routeWrite m (arrIx off 0x1000 4) v s
  else if isArr off 0x2000 4 64 then hostEoi (arrIx off 0x2000 4) s
  else if isArr off 0x3000 4 256 then msixTable m off v s
  else plainPage m pg off v s

/-- SEC (R56, R57). -/
def wrSEC (m : Master) (pg : Page) (off : Nat) (v : Word) (s : State) : State :=
  if isArr off 0x100 4 38 then wpolWrite m (arrIx off 0x100 4) v s else plainPage m pg off v s

/-- VLT (R209). -/
def wrVLT (m : Master) (pg : Page) (off : Nat) (v : Word) (s : State) : State :=
  if off = 0x070 then cntCmd v s else if off = 0x098 then exportCmd v s else plainPage m pg off v s

/-- MGT (R541). -/
def wrMGT (m : Master) (pg : Page) (off : Nat) (v : Word) (s : State) : State :=
  if off = 0x050 then mgtWrite v s else plainPage m pg off v s

/-- ATB (R553). -/
def wrATB (m : Master) (pg : Page) (off : Nat) (v : Word) (s : State) : State :=
  if off = 0x040 then atbSelect 0 v s else if off = 0x044 then atbSelect 1 v s else plainPage m pg off v s

/-- PLC (R362, R376). Whether the signature of an image that `CMD` names verifies is not given here, and left open.
Log entries 28 (DEDUCED), 142 (DEDUCED). -/
def wrPLC (m : Master) (pg : Page) (off : Nat) (v : Word) (s : State) : State :=
  if off = 0x040 then
    let f := fresh s
    plcCmd m v (f.1.getLsbD 0) f.2
  else if off = 0x068 ∨ off = 0x06C then
    let new := if off = 0x06C then v &&& 0xFFFF#32 else v
    if m = mSSP ∨ m = mMGP then
      if off = 0x068 then admitPut new (getR s PLC_ADMIT_HI) s else admitPut (getR s PLC_ADMIT_LO) new s
    else if new = getR s (PLC + off) then s
    else deny s errDeniedField m (PLC + off) true
  else if off = 0x07C then jobRecordRetry (plainPage m pg off v s)
  else if isArr off 0x400 8 512 then bindWrite m (arrIx off 0x400 8) v s
  else plainPage m pg off v s

/-- MBX (R469–R472). -/
def wrMBX (m : Master) (_pg : Page) (off : Nat) (v : Word) (s : State) : State :=
  if 0x400 ≤ off ∧ off < 0x2400 then
    let k := (off - 0x400) / 128
    let o := (off - 0x400) % 128
    if o = 0 then mbxLockWrite k m v s
    else if o = 4 then mbxCfg k m v s
    else if o = 0x0C then mbxEvent k v s
    else if 0x10 ≤ o ∧ o < 0x30 ∧ o % 4 = 0 then mbxData k ((o - 0x10) / 4) m v s
    else if o = 0x30 then mbxHdr k m v s
    else if o = 0x34 then mbxSend k m v s
    else if o = 0x38 then mbxAck k m v s
    else if o = 0x3C then mbxResetCmd k m v s
    else s
  else s

/-- LCK (R467, R468). -/
def wrLCK (m : Master) (_pg : Page) (off : Nat) (v : Word) (s : State) : State :=
  if isArr off 0x100 4 128 then lockWrite (arrIx off 0x100 4) m v s
  else if off = 0x600 then lockForce m v s
  else s

/-- FIQ (R464–R466, R476). -/
def wrFIQ (m : Master) (_pg : Page) (off : Nat) (v : Word) (s : State) : State :=
  if isArr off 0x1000 16 64 then fiqCfg (arrIx off 0x1000 16) m v s
  else if isArr off 0x2000 32 16 then aqPost (arrIx off 0x2000 32) v s
  else if isArr off 0x200C 32 16 then (if bit v 0 then aqSet s (arrIx off 0x200C 32) [] else s)
  else s

/-- BNK (R443–R446). -/
def wrBNK (m : Master) (pg : Page) (off : Nat) (v : Word) (s : State) : State :=
  if off = 0x044 then bnkCmd v s
  else if off = 0x060 then
    if bit v 31 then setR s BNK_DENY_INFO (setFld (getR s BNK_DENY_INFO) 31 30 0) else s
  else if isArr off 0x1000 8 512 then bankCtrl (arrIx off 0x1000 8) v s
  else plainPage m pg off v s

/-- SWC (R139, R140). -/
def wrSWC (m : Master) (pg : Page) (off : Nat) (v : Word) (s : State) : State :=
  if off = 0x08C ∨ off = 0x0AC then swRingLevels (plainPage m pg off v s)
  else if off = 0x048 then freeLowCheck (plainPage m pg off v s)
  else if 0x1000 ≤ off ∧ off < 0x2C00 ∧ off % 32 = 8 then plainPage m pg off v (shapeSettle s ((off - 0x1000) / 32))
  else if 0x1000 ≤ off ∧ off < 0x2800 ∧ off % 32 = 0 then lpiSettle (plainPage m pg off v s) ((off - 0x1000) / 32)
  else if off = 0x100 then tblCmd m v s
  else if isArr off 0x140 4 17 then setR s (perM m (SWC + off)) v
  else if isArr off 0x10000 4 28672 then glistWrite m off v s
  else if isArr off 0x2C000 4 1792 then gateCtrl m ((off - 0x2C000) / 32) ((off - 0x2C000) / 4 % 8) v s
  else plainPage m pg off v s

/-- FDB (R142). -/
def wrFDB (m : Master) (pg : Page) (off : Nat) (v : Word) (s : State) : State :=
  if off = 0x040 then fdbCmd m v s
  else if isArr off 0x048 4 4 then setR s (perM m (FDB + off)) v
  else if off = 0x05C then (if fdbEntries s = 0 then plainPage m pg off v s else s)
  else if off = 0x060 then agePeriod m v s
  else plainPage m pg off v s

/-- IMG (R184). -/
def wrIMG (m : Master) (pg : Page) (off : Nat) (v : Word) (s : State) : State :=
  if off = 0x044 then setR s IMG_GATE_CTRL (getR s IMG_GATE_CTRL ||| (v &&& 3))
  else if off = 0x068 then pendLevel (plainPage m pg off v s)
  else if off = 0x084 then vrSize v s
  else if off = 0x100 then catCmd v s
  else if off = 0x180 then sieveCmd v s
  else if isArr off 0x30000 4 16384 then poolWrite m (arrIx off 0x30000 4) v s
  else plainPage m pg off v s

/-- TNS (R481–R505). -/
def wrTNS (m : Master) (pg : Page) (off : Nat) (v : Word) (s : State) : State :=
  let a := TNS + off
  if off = 0x048 then refCtrl m v s
  else if off = 0x050 then (if bit v 0 then tnsSnap s else s)
  else if 0x100 ≤ off ∧ off < 0x200 then
    let b := (off - 0x100) / 0x40
    let o := off % 0x40
    if o = 0 then tbCtrl m b v s
    else if o = 0x14 then tbGuarded m b a (tbRate b v) s
    else if o = 0x28 then tbGuarded m b a (adjCmd b v) s
    else if 0x18 ≤ o ∧ o < 0x28 then
      if tbProtected s m b && !(touches (regDesc .TNS 0 off) m32 (getR s a) v) then s
      else tbGuarded m b a (plainPage m pg off v) s
    else s
  else if isArr off 0x200 32 8 then outCtrl m (arrIx off 0x200 32) v s
  else if off = 0x60C then tsrLevel (plainPage m pg off v s)
  else plainPage m pg off v s

/-- MAC (R227, R231, R243, R245). -/
def wrMAC (m : Master) (pg : Page) (off : Nat) (v : Word) (s : State) : State :=
  let p := pg.inst
  if off = 0x064 then preemptCtrl m p v s
  else if off = 0x06C then lpiSettle (plainPage m pg off v s) p
  else if off = 0x080 then redCtrl m p v s
  else if pairReg off && !(redPage s p) then s
  else if off = 0x0A4 ∨ off = 0x0A8 then updPairOf (plainPage m pg off v s) p
  else if off = 0x0AC then updPairOf (setR s (MAC_PAIR_IRQ_STATUS p) (getR s (MAC_PAIR_IRQ_STATUS p) ||| (v &&& 0x1F#32))) p
  else plainPage m pg off v s

/-- SDS (R241, R246): lanes 0–3 carry the MDIO masters. -/
def wrSDS (m : Master) (pg : Page) (off : Nat) (v : Word) (s : State) : State :=
  let l := pg.inst
  if off = 0x044 then anCtrl l v s
  else if 4 ≤ l then plainPage m pg off v s
  else if off = 0x204 then mdioCmd l v s
  else if off = 0x214 ∨ off = 0x218 then updMdio (plainPage m pg off v s) l
  else if off = 0x21C then updMdio (setR s (SDS_MDIO_IRQ_STATUS l) (getR s (SDS_MDIO_IRQ_STATUS l) ||| (v &&& 1#32))) l
  else plainPage m pg off v s

/-- MDB (R324, R328). -/
def wrMDB (m : Master) (pg : Page) (off : Nat) (v : Word) (s : State) : State :=
  if off = 0x054 then mdbCmd m pg.inst v s
  else if mdbCfgOff off then mdbCfgWrite m pg off v s
  else plainPage m pg off v s

/-- PLK (R292, R309). -/
def wrPLK (m : Master) (pg : Page) (off : Nat) (v : Word) (s : State) : State :=
  if off = 0x078 then plkCmd pg.inst v s
  else if plkParamOff off then plkParamWrite m pg off v s
  else plainPage m pg off v s

/-- PTC (R345, R348). -/
def wrPTC (m : Master) (pg : Page) (off : Nat) (v : Word) (s : State) : State :=
  let n := pg.inst
  if off = 0x040 then ptcCtrl m n v s
  else if off = 0x04C then ptcShifter m n v s
  else if off = 0x048 ∨ off = 0x050 ∨ off = 0x054 ∨ off = 0x058 ∨ off = 0x07C ∨ off = 0x090 ∨
      isArr off 0x100 4 32 then ptcPlain m n off v s
  else if off = 0x05C then ptcT m n false v s
  else if off = 0x060 then ptcT m n true v s
  else if off = 0x06C then ptcInject m n v s
  else if isArr off 0x0A0 4 4 then ptcOwn m n (arrIx off 0x0A0 4) v s
  else plainPage m pg off v s

/-- `RUN_CTRL.HOLD` of physical engine `p` takes a value: its engine stops, or starts at its entry point (R361, R375). -/
def engHold (p : Nat) (s : State) : State :=
  let h := getB s (PEN_RUN_CTRL p) 0
  if getB s (PEN_MAP p) 27 = h then s
  else
    let s1 := putB s (PEN_MAP p) 27 h
    match logicalOf s p with
    | none => s1
    | some n =>
      if h then coreStop s1 n
      else match (eng s n).pers.bind fun k => sfind s.plc.pers k with
        | some x => engKick (coreStart s1 n x.entry 0) n
        | none => s1

/-- PEN (R375). -/
def wrPEN (m : Master) (pg : Page) (off : Nat) (v : Word) (s : State) : State :=
  if off = 0x044 then engHold pg.inst (plainPage m pg off v s)
  else if off = 0x048 then wdtEnable (getB s (PEN_WDT_CTRL pg.inst) 31) pg.inst (plainPage m pg off v s)
  else plainPage m pg off v s

/-- A write that the policy lets through to offset `off` of a block's pages; `SYS.CMD` and `SYS.SOFT_RESET` act elsewhere.
Log entry 155 (DEDUCED). -/
def pageWrite (m : Master) (pg : Page) (off : Nat) (v : Word) (s : State) : State :=
  if inHeader off then hdrWrite pg off v s
  else match pg.blk with
    | .SYS | .TMP => plainPage m pg off v s
    | .CLK => wrCLK m pg off v s
    | .PWR => wrPWR m pg off v s
    | .INT => wrINT m pg off v s
    | .SEC => wrSEC m pg off v s
    | .VLT => wrVLT m pg off v s
    | .HIF => hifWrite m off v s
    | .MGT => wrMGT m pg off v s
    | .ATB => wrATB m pg off v s
    | .PLC => wrPLC m pg off v s
    | .MBX => wrMBX m pg off v s
    | .LCK => wrLCK m pg off v s
    | .FIQ => wrFIQ m pg off v s
    | .BNK => wrBNK m pg off v s
    | .SWC => wrSWC m pg off v s
    | .FDB => wrFDB m pg off v s
    | .IMG => wrIMG m pg off v s
    | .TNS => wrTNS m pg off v s
    | .MAC => wrMAC m pg off v s
    | .SDS => wrSDS m pg off v s
    | .MDB => wrMDB m pg off v s
    | .PLK => wrPLK m pg off v s
    | .PTC => wrPTC m pg off v s
    | .PEN => wrPEN m pg off v s

/-! Reads. -/

/-- A register that a read clears. -/
def readClear (a : Nat) (s : State) : State × Word := (setR s a 0, getR s a)

/-- Word `i` of `DEVICE_ID`: wire bytes, most significant byte first (R87). -/
def deviceWord (s : State) (i : Nat) : Word := w32 (beAt s.sys.deviceId (4 * i) 4)

/-- `CLK.LANE_LOCK` as it reads: a lane PLL runs while a lane of its group is enabled (R539). -/
def laneLock (s : State) : Word :=
  (List.range 15).foldl (fun w k =>
    setBit w k ((List.range 4).any fun i => getB s (BLK_CTRL (SDS (4 * k + i))) 0 && decide (devState s ≤ 1))) 0#32

/-- SYS. -/
def rdSYS (off : Nat) (s : State) : Word :=
  if isArr off 0x080 4 4 then deviceWord s (arrIx off 0x080 4) else getR s (SYS + off)

/-- CLK. -/
def rdCLK (off : Nat) (s : State) : Word :=
  if off = 0x044 then laneLock s
  else if isArr off 0x100 4 16 then
    setBit (getR s (CLK + off)) 8 (clusterClass0 s (arrIx off 0x100 4))
  else getR s (CLK + off)

/-- PWR. -/
def rdPWR (off : Nat) (s : State) : Word :=
  if off = 0x068 then w32 (domMask s)
  else if off = 0x06C then w32 (domMask s / 0x100000000)
  else if off = 0x0C0 then w32 (rtcSec s)
  else if off = 0x0C4 then w32 (rtcSec s / 0x100000000)
  else if off = 0x0C8 then w32 (s.time.rtc % 32768)
  else getR s (PWR + off)

/-- INT. -/
def rdINT (off : Nat) (s : State) : Word :=
  if isArr off 0x080 4 32 then pendWord s (arrIx off 0x080 4)
  else if isArr off 0x300 4 2 then linesOf s 2 (32 * arrIx off 0x300 4)
  else if isArr off 0x308 4 2 then linesOf s 3 (32 * arrIx off 0x308 4)
  else getR s (INT + off)

/-- MGT. -/
def rdMGT (off : Nat) (s : State) : State × Word :=
  if off = 0x04C then mgtRead s else if off = 0x054 then (s, mgtLevel s) else (s, getR s (MGT + off))

/-- PLC. -/
def rdPLC (off : Nat) (s : State) : Word :=
  if off = 0x054 then plcStatus s
  else if isArr off 0x080 4 32 then persStatus s (arrIx off 0x080 4)
  else if isArr off 0x100 4 16 then clusterStatus s (arrIx off 0x100 4)
  else if isArr off 0x200 4 48 then engineStatus s (arrIx off 0x200 4)
  else if isArr off 0x400 8 512 then bindWord0 s (arrIx off 0x400 8)
  else if isArr off 0x404 8 512 then bindWord1 s (arrIx off 0x404 8)
  else getR s (PLC + off)

/-- MBX. -/
def rdMBX (m : Master) (off : Nat) (s : State) : State × Word :=
  if 0x400 ≤ off ∧ off < 0x2400 ∧ (off - 0x400) % 128 = 0 then mbxLockRead ((off - 0x400) / 128) m s
  else (s, getR s (MBX + off))

/-- LCK. -/
def rdLCK (m : Master) (off : Nat) (s : State) : State × Word :=
  if isArr off 0x100 4 128 then lockRead (arrIx off 0x100 4) m s else (s, getR s (LCK + off))

/-- FIQ. -/
def rdFIQ (off : Nat) (s : State) : State × Word :=
  if isArr off 0x1004 16 64 then fiqPop s (arrIx off 0x1004 16)
  else if isArr off 0x100C 16 64 then (s, fiqCountRead s (arrIx off 0x100C 16))
  else if isArr off 0x2004 32 16 then aqRead (arrIx off 0x2004 32) s
  else if isArr off 0x2008 32 16 then (s, aqLevel s (arrIx off 0x2008 32))
  else (s, getR s (FIQ + off))

/-- BNK (R438, R446): the counts, the scrubber's lag and `POISON` as they stand. -/
def rdBNK (off : Nat) (s : State) : State × Word :=
  if off = 0x040 then
    (s, setFld (setFld (setFld (getR s BNK_STATUS) 31 31 (nb (scrubBehind s))) 25 16
      ((List.range 512).filter fun b => decide (bankKind s b = kSwitch)).length) 4 0 (sparesFree s))
  else if isArr off 0x1004 8 512 then
    (s, setFld (getR s (BNK + off)) 26 26 (nb (bankPoisoned s (arrIx off 0x1004 8))))
  else if off = 0x068 then readClear BNK_DENY_COUNT s
  else (s, getR s (BNK + off))

/-- SWC. -/
def rdSWC (m : Master) (off : Nat) (s : State) : State × Word :=
  if off = 0x040 then (s, w32 (bufCells s))
  else if off = 0x044 then (s, w32 (freeCells s))
  else if off = 0x094 ∨ off = 0x0B0 then readClear (SWC + off) s
  else if off = 0x0C0 then (s, w32 s.sw.purge.length)
  else if off = 0x0C4 then (s, w32 s.sw.withdraw.length)
  else if off = 0x104 ∨ isArr off 0x140 4 17 then (s, getR s (perM m (SWC + off)))
  else if isArr off 0xB000 4 1792 then (s, w32 (occ s ((off - 0xB000) / 32) ((off - 0xB000) / 4 % 8)))
  else (s, getR s (SWC + off))

/-- FDB. -/
def rdFDB (m : Master) (off : Nat) (s : State) : Word :=
  if off = 0x044 ∨ isArr off 0x048 4 4 then getR s (perM m (FDB + off))
  else if off = 0x058 then getR s SWC_EPOCH
  else if off = 0x064 then w32 (fdbEntries s)
  else if off = 0x06C then w32 s.sw.purge.length
  else if 0x10000 ≤ off ∧ off < 0x20000 then
    fdbW (fdbEnt s (4096 * getF s FDB_WIN_SEL 1 0 + (off - 0x10000) / 16)) (off / 4 % 4)
  else getR s (FDB + off)

/-- IMG. -/
def rdIMG (off : Nat) (s : State) : State × Word :=
  if off = 0x070 then (s, unitMask s .pk)
  else if off = 0x074 then (s, unitMask s .lattice)
  else if off = 0x078 then (s, unitMask s .hmac)
  else if off = 0x08C then readClear IMG_VR_OVERRUN s
  else if isArr off 0x30000 4 16384 then (s, poolRead s (arrIx off 0x30000 4))
  else (s, getR s (IMG + off))

/-- TNS. -/
def rdTNS (m : Master) (off : Nat) (s : State) : State × Word :=
  if off = 0x040 then tnowRead m s
  else if off = 0x044 then (s, getR s (perM m (TNS + off)))
  else if 0x100 ≤ off ∧ off < 0x200 then
    let b := (off - 0x100) / 0x40
    let o := off % 0x40
    if o = 0x0C then tbNsRead m b s
    else if o = 0x04 ∨ o = 0x08 ∨ o = 0x10 then (s, getR s (perM m (TNS + off)))
    else if o = 0x2C then (s, adjStatus s b)
    else (s, getR s (TNS + off))
  else if isArr off 0x200 32 8 then (s, outCtrlRead s (arrIx off 0x200 32))
  else if isArr off 0x218 32 8 then (s, outPinRead s (arrIx off 0x218 32))
  else if 0x400 ≤ off ∧ off < 0x540 then
    let i := (off - 0x400) / 32
    let o := off % 32
    if o = 4 then (s, setFld (getR s (TNS + off)) 2 0 (capsOf s i).length)
    else if o = 8 then capNsRead m i s
    else if 0x0C ≤ o then (s, getR s (perM m (TNS + off)))
    else (s, getR s (TNS + off))
  else if off = 0x610 then readClear TNS_TSR_LOST s
  else (s, getR s (TNS + off))

/-- MAC: the pair registers stand in the A port's page alone (R243). -/
def rdMAC (pg : Page) (off : Nat) (s : State) : Word :=
  let p := pg.inst
  if off = 0x068 then preemptStatus s p
  else if off = 0x060 then setFld (getR s (MAC_PAUSE_STATUS p)) 31 16 (pauseLeft s p)
  else if off = 0x090 then pairStatusRead s p
  else if pairReg off && !(redPage s p) then 0
  else getR s (pg.base + off)

/-- SDS. -/
def rdSDS (pg : Page) (off : Nat) (s : State) : State × Word :=
  if off = 0x05C then readClear (pg.base + off) s else (s, getR s (pg.base + off))

/-- MDB. -/
def rdMDB (pg : Page) (off : Nat) (s : State) : State × Word :=
  let n := pg.inst
  if off = 0x05C then (s, mdbStatusRead s n)
  else if off = 0x060 then (s, mdbErrCnt s n)
  else if off = 0x064 then readClear (pg.base + off) s
  else if off = 0x06C then (s, w32 (min 4 (gateEntries s (256 + n)).length))
  else if off = 0x090 then (s, w32 (mdb s n).fifo.length)
  else if isArr off 0x300 4 3 then (s, mdbTxbuf s n (arrIx off 0x300 4))
  else (s, getR s (pg.base + off))

/-- PLK. -/
def rdPLK (pg : Page) (off : Nat) (s : State) : Word :=
  if off = 0x094 then w32 (min 4 (gateEntries s (320 + pg.inst)).length) else getR s (pg.base + off)

/-- PTC. -/
def rdPTC (pg : Page) (off : Nat) (s : State) : Word :=
  let n := pg.inst
  if off = 0x044 then ptcStatus s n
  else if off = 0x05C then lo32 (ptc s n).t
  else if off = 0x060 then hi32 (ptc s n).t
  else if off = 0x064 then (ptc s n).c0
  else if off = 0x068 then (ptc s n).c1
  else if off = 0x078 then ptcOutQ s n
  else getR s (pg.base + off)

/-- PEN. -/
def rdPEN (pg : Page) (off : Nat) (s : State) : Word :=
  if off = 0x04C then wdtStatus s pg.inst else getR s (pg.base + off)

/-- What a read that the policy lets through gives, and does, at offset `off` of a block's pages.
Log entry 155 (DEDUCED). -/
def pageRead (m : Master) (pg : Page) (off : Nat) (s : State) : State × Word :=
  match cntWord pg.blk off with
  | some (o, high) =>
    (s, if pg.blk = .MAC ∧ pairReg o = true ∧ redPage s pg.inst = false then 0
      else if high then hi32 (snapOf s (pg.base + o)) else lo32 (snapOf s (pg.base + o)))
  | none =>
    if inHeader off then (s, hdrRead pg off s)
    else match pg.blk with
      | .SYS => (s, rdSYS off s)
      | .CLK => (s, rdCLK off s)
      | .PWR => (s, rdPWR off s)
      | .INT => (s, rdINT off s)
      | .SEC => if off = 0x040 then readClear SEC_DENY_COUNT s else (s, getR s (SEC + off))
      | .VLT => if off = 0x058 then readClear VLT_AUDIT_DROPPED s else (s, getR s (VLT + off))
      | .ATB => if off = 0x04C then readClear ATB_REFUSED s else (s, getR s (ATB + off))
      | .TMP | .HIF => (s, getR s (pg.base + off))
      | .MGT => rdMGT off s
      | .PLC => (s, rdPLC off s)
      | .MBX => rdMBX m off s
      | .LCK => rdLCK m off s
      | .FIQ => rdFIQ off s
      | .BNK => rdBNK off s
      | .SWC => rdSWC m off s
      | .FDB => (s, rdFDB m off s)
      | .IMG => rdIMG off s
      | .TNS => rdTNS m off s
      | .MAC => (s, rdMAC pg off s)
      | .SDS => rdSDS pg off s
      | .MDB => rdMDB pg off s
      | .PLK => (s, rdPLK pg off s)
      | .PTC => (s, rdPTC pg off s)
      | .PEN => (s, rdPEN pg off s)

end Sys2Proof.Machine
end

