-- ==== Sys2Proof/Machine/Reset.lean ====
section
/-! DEFINITION. The resets of R64: which cause is recorded, what a reset clears and what it keeps (R64–R67, R535), and
the power-up events of the always-on domain (R512, R571). -/

namespace Sys2Proof.Machine

open Reg

/-- Cause codes of R64. -/
abbrev rcPor : Nat := 1
/-- PIN. -/
abbrev rcPin : Nat := 2
/-- BROWN_CORE. -/
abbrev rcBrownCore : Nat := 3
/-- BROWN_AON. -/
abbrev rcBrownAon : Nat := 4
/-- LP_OVERLOAD. -/
abbrev rcLpOverload : Nat := 5
/-- WDT_SSP. -/
abbrev rcWdtSsp : Nat := 6
/-- SOFT. -/
abbrev rcSoft : Nat := 7
/-- THERM. -/
abbrev rcTherm : Nat := 8

/-- The order in which `CAUSE` records simultaneous causes (R65). -/
def causeOrder : List Nat := [rcPor, rcBrownAon, rcLpOverload, rcBrownCore, rcTherm, rcWdtSsp, rcPin, rcSoft]

/-- The cause that `CAUSE` records of a mask of causes, bit c - 1 for code c (R65). -/
def causeOf (mask : Nat) : Nat := (causeOrder.find? fun c => mask.testBit (c - 1)).getD 0

/-- Whether a cause also clears the always-on domain (R67). Log entry 46 (DEDUCED). -/
def clearsAon (c : Nat) : Bool := decide (c = rcPor) || decide (c = rcBrownAon) || decide (c = rcLpOverload)

/-- Copies the registers at the addresses `l` from `s` into `t`. -/
def copyRegs (s t : State) (l : List Nat) : State :=
  l.foldl (fun u a => match sfind s.regs a with
    | none => u
    | some v => setR u a v) t

/-- Registers that show what the vault holds (R67, R209). -/
def vaultRegs : List Nat :=
  [VLT_POLICY, VLT_JNL_HEAD, VLT_JNL_PASSES, VLT_JNL_ALLOW, SYS_OWNER_STATE]
  ++ (List.range 4).map VLT_WEAR ++ (List.range 8).map VLT_ID_PUB

/-- The wake configuration and the RTC alarm, in the always-on domain (R67, R522, R537). -/
def aonRegs : List Nat :=
  [PWR_WAKE_EN_DOZE, PWR_WAKE_EN_DEEP, PWR_WAKE_PIN_CFG, PWR_PIO_WAKE_CFG, PWR_RTC_ALARM_LO, PWR_RTC_ALARM_HI]

/-- The vault's contents as a reset leaves them: writes that were not durable are lost (R67). Log entry 46 (DEDUCED). -/
def vaultKept (v : VltSt) : VltSt :=
  { v with
    markWr := [], waiting := [], jsec := none, jtime := false, jsplit := false, jlow := false, sieveNow := 0
    sieveMissed := 0, sums := [], tagSeq := 1, cntBusy := none, exp := none }

/-- The state with everything but the vault, the fuses, the pins and, where `aon` holds, the always-on domain at its
reset value, and memory cleared (R67). Log entries 5 (DEDUCED), 46 (DEDUCED), 47 (DEDUCED). -/
def wiped (aon : Bool) (s : State) : State :=
  let r := State.reset
  let s1 := { r with
    pending := s.pending, outs := s.outs, free := s.free, resp := s.resp
    vlt := vaultKept s.vlt
    sys := { r.sys with deviceId := s.sys.deviceId, slots := s.sys.slots, everStarted := s.sys.everStarted }
    hif := { r.hif with perst := s.hif.perst, subsys := s.hif.subsys }
    time := { r.time with aonNs := s.time.aonNs }
    bnk := { r.bnk with passFrom := s.time.aonNs }
    test := { r.test with ir := s.test.ir } }
  let s2 := copyRegs s s1 vaultRegs
  if aon then
    let s3 := { s2 with
      time := { s2.time with aonAcc := s.time.aonAcc, rtcOn := s.time.rtcOn, rtc := s.time.rtc }
      cnts := srange s.cnts (PWR_RES_STATE 0) (PWR_RES_STATE 4) }
    copyRegs s s3 aonRegs
  else s2

/-- The `RESET_CAUSE` word after a reset with a mask of causes (R65, R67). -/
def resetCauseWord (s : State) (mask : Nat) : Word :=
  let c := causeOf mask
  let prev := if c = rcPor then 0 else getF s SYS_RESET_CAUSE 7 0
  w32 (mask % 256 * 65536 + prev * 256 + c)

/-- A reset is asserted for the causes of a mask; a cause that arises while one is in progress is ignored
(R64–R67, R512, R535). `lock` says that the cause is a lockstep mismatch. -/
def resetAssert (mask : Nat) (lock : Bool) (s : State) : State :=
  if s.sys.held then s
  else
    let c := causeOf mask
    let hold := mask.testBit (rcTherm - 1) && !(decide (c = rcPor))
    let s1 := wiped (!(clearsAon c)) s
    let s2 := setR s1 SYS_RESET_CAUSE (resetCauseWord s mask)
    let s3 := putB (putB s2 SYS_HEALTH 3 lock) TMP_TRIP_STATUS 1 (decide (c = rcTherm))
    let up := !(decide (c = rcPor)) && !hold
    { s3 with sys := { s3.sys with thermHold := hold, pmicEn := up, pmicSramEn := up } }

/-- A cause of code `c`, with the other causes of its cycle. -/
def resetCause (c : Nat) (also : BitVec 8) (lock : Bool) (s : State) : State :=
  resetAssert (Nat.lor also.toNat (2 ^ (c - 1))) lock s

/-- A write of `SOFT_RESET`: only 0xA5A resets, and it waits for the end of a bundle being applied (R64, R66). -/
def softResetWrite (v : Word) (s : State) : State :=
  if v = 0x00000A5A#32 then
    if s.sys.prog.isSome then { s with sys := { s.sys with softPend := true } } else resetCause rcSoft 0 false s
  else s

/-- The THERM hold ends after 1 s of always-on time: both PMIC lines rise (R535). -/
def thermHoldEnd (s : State) : State :=
  if s.sys.thermHold then
    let s1 := advanceCycles s 250000000
    { s1 with sys := { s1.sys with thermHold := false, pmicEn := true, pmicSramEn := true } }
  else s

/-- At power-up the always-on domain drives both PMIC lines high (R512, R571). -/
def pmicUp (s : State) : State :=
  if s.sys.held && !s.sys.thermHold then { s with sys := { s.sys with pmicEn := true, pmicSramEn := true } } else s

/-- The AON crystal is confirmed: from then on the RTC counts (R571). -/
def aonConfirmed (s : State) : State := { s with time := { s.time with rtcOn := true } }

/-- The level of FLASH_RESET_N: low during any reset, high from reset release on (R564). -/
def flashResetN (s : State) : Bool := !s.sys.held

/-! The commands. -/

/-- POR. -/
def execPor (also : BitVec 8) (s : State) : Res := .next (resetCause rcPor also false s)

/-- PIN. -/
def execPinReset (also : BitVec 8) (s : State) : Res := .next (resetCause rcPin also false s)

/-- Whether the core rail is meant to be on: it is off in RETAIN and VAULT until a wake raises PMIC_EN (R507, R512, R520).
Log entry 108 (DEDUCED). -/
def coreRail (s : State) : Bool := decide (devState s < 2) || s.sys.pmicEn

/-- BROWN_CORE: a fall of VDD_CORE that PMIC_EN has asked for is none (R64, R520). Log entry 108 (DEDUCED). -/
def execBrownCore (also : BitVec 8) (s : State) : Res :=
  .next (if coreRail s then resetCause rcBrownCore also false s else s)

/-- BROWN_AON. -/
def execBrownAon (also : BitVec 8) (s : State) : Res := .next (resetCause rcBrownAon also false s)

/-- LP_OVERLOAD: the regulator's low-power mode is that of RETAIN and VAULT (R511). -/
def execLpOverload (also : BitVec 8) (s : State) : Res :=
  .next (if devState s = 2 ∨ devState s = 3 then resetCause rcLpOverload also false s else s)

/-- WDT_SSP by the watchdog: the clock advances to 200 ms after its last restart (R416). -/
def execWdtSsp (also : BitVec 8) (s : State) : Res :=
  let x := coreOf s sspCore
  .next (resetCause rcWdtSsp also false (if x.run = .off then s else advanceNs s (x.wdtAt.toNat + 200000000)))

/-- WDT_SSP by a lockstep mismatch (R15). -/
def execLockstepMismatch (also : BitVec 8) (s : State) : Res := .next (resetCause rcWdtSsp also true s)

/-- `SOFT_RESET` is written. -/
def execSoftReset (m : Master) (v : Word) (s : State) : Res := .next (gatedWrite m SYS_SOFT_RESET (softResetWrite v) s)

/-- The thermal trip acts where a sensor has reached it twice (R535). -/
def execThermalTrip (also : BitVec 8) (s : State) : Res :=
  .next (if tripDue s then resetCause rcTherm also false s else s)

/-- The THERM hold ends. -/
def execThermalHoldEnd (s : State) : Res := .next (thermHoldEnd s)

/-- The PMIC outputs are driven high. -/
def execPmicEnDrivenHigh (s : State) : Res := .next (pmicUp s)

/-- The AON crystal is confirmed. -/
def execAonCrystalConfirmed (s : State) : Res := .next (aonConfirmed s)

end Sys2Proof.Machine
end

