-- ==== Sys2Proof/Machine/Boot.lean ====
section
/-! DEFINITION. Start-up (R68–R79, R587): self-test and repair, the boot image and its checks, opening the vault, persisted
bundles, and the steps to forwarding. -/

namespace Sys2Proof.Machine

open Reg

/-! Bundles as bytes (R83). -/

/-- `KIND` of a bundle. -/
def bunKind (b : List Byte) : Nat := beAt b 1 1
/-- `RECORD_COUNT` of a bundle. -/
def bunCount (b : List Byte) : Nat := beAt b 2 2
/-- `PERSIST` of a bundle. -/
def bunPersist (b : List Byte) : Bool := (beAt b 4 1).testBit 0
/-- `BUNDLE_COUNTER` of a bundle. -/
def bunCounter (b : List Byte) : Nat := beAt b 8 8
/-- `ADDRESS` of record `i`. -/
def recAddr (b : List Byte) (i : Nat) : Nat := beAt b (16 + 12 * i) 4
/-- `MASK` of record `i`. -/
def recMask (b : List Byte) (i : Nat) : Word := w32 (beAt b (20 + 12 * i) 4)
/-- `VALUE` of record `i`. -/
def recValue (b : List Byte) (i : Nat) : Word := w32 (beAt b (24 + 12 * i) 4)

/-- What the SSP reads in the register at `a`, without the read's effect. -/
def regPeek (s : State) (a : Nat) : Word :=
  match pageOf a with
  | some pg => (pageRead mSSP pg (a - pg.base) s).2
  | none => 0

/-- The SSP sets the bits of `mask` in the register at `a` to those of `val` (R85). -/
def recApply (a : Nat) (mask val : Word) (s : State) : State :=
  match pageOf a with
  | some pg =>
    let v := (regPeek s a &&& ~~~ mask) ||| (val &&& mask)
    { gatedWrite mSSP a (pageWrite mSSP pg (a - pg.base) v) s with resp := s.resp }
  | none => s

/-- Whether a record addresses a page's `CFG_LOCK`. Log entry 36 (DEDUCED). -/
def recLocks (b : List Byte) (i : Nat) : Bool :=
  match pageOf (recAddr b i) with
  | some pg => decide (recAddr b i = pg.base + 0x28)
  | none => false

/-- Commands in progress in the vault, the Gate and the journal export end; during start-up nothing else waits. -/
def settleCmds (s : State) : State :=
  let s1 := { s with sw := { s.sw with withdraw := [], withdrawWait := [] } }
  exportDone (cntDurable (catDurable (scansOver s1)))

/-- Applies the records of a bundle at start-up that lock a page (`locks`), or those that do not (R86).
Log entry 36 (DEDUCED). -/
def bunAtStart (locks : Bool) (b : List Byte) (s : State) : State :=
  (List.range (bunCount b)).foldl (fun t i =>
    if recLocks b i = locks then settleCmds (recApply (recAddr b i) (recMask b i) (recValue b i) t) else t) s

/-! Self-test and repair (R71–R73). -/

/-- Physical banks that repair does not save. -/
def badBanks (e : BootEnv) : List Nat := e.failBanks.foldl (fun l b => ninsert l b.val) []

/-- Physical engines that fail logic BIST. -/
def badEngines (e : BootEnv) : List Nat := e.failEngines.foldl (fun l p => ninsert l p.val) []

/-- Banks to be replaced: failing banks among 0–511. -/
def banksNeeded (e : BootEnv) : List Nat := (badBanks e).filter fun b => decide (b < 512)

/-- Spare banks that pass, ascending. -/
def banksSpare (e : BootEnv) : List Nat :=
  ((List.range 16).map fun i => 512 + i).filter fun b => !((badBanks e).contains b)

/-- Engines to be replaced: failing engines that host a logical engine at reset. -/
def enginesNeeded (e : BootEnv) : List Nat := (badEngines e).filter fun p => decide (p < 48)

/-- Spare engines that pass, ascending. -/
def enginesSpare (e : BootEnv) : List Nat := [48, 49, 50, 51].filter fun p => !((badEngines e).contains p)

/-- Whether the spares do not suffice (R73). -/
def sparesExhausted (e : BootEnv) : Bool :=
  decide ((banksSpare e).length < (banksNeeded e).length) || decide ((enginesSpare e).length < (enginesNeeded e).length)

/-- Fixed logic that fails, as `FAIL_BLOCK` names it; 0 for none. A failing block is named also where the spares are
exhausted at the same time, which the spec leaves open. Log entry 173 (DESIGN CHOICE). -/
def failedBlock (e : BootEnv) : Nat := if e.failBlock.toNat < 8 then e.failBlock.toNat else 0

/-- Banks repaired in place. -/
def repairedBanks (e : BootEnv) : List (Nat × Nat × Nat) :=
  (e.repaired.map fun x => (x.1.val, x.2.1.val, x.2.2.val)).filter fun x => !((badBanks e).contains x.1)

/-- Repair, then substitution of spare banks and engines (R71, R72). -/
def bistRepair (e : BootEnv) (s : State) : State :=
  let s1 := (repairedBanks e).foldl (fun t x =>
    putF (putF t (BNK_PHYS_word_1 x.1) 6 4 x.2.2) (BNK_PHYS_word_1 x.1) 2 0 x.2.1) s
  let s2 := (badBanks e).foldl (fun t b => putF t (BNK_PHYS_word_1 b) 31 30 1) s1
  let s3 := ((banksNeeded e).zip (banksSpare e)).foldl (fun t x => substitute t x.1 x.2) s2
  let s4 := (badEngines e).foldl (fun t p =>
    putF (putF (putB (putB t (PEN_MAP p) 31 false) (PEN_MAP p) 29 true) (PEN_MAP p) 21 16 0x3F) (PEN_DEAD_CAUSE p) 3 0 4) s3
  ((enginesNeeded e).zip (enginesSpare e)).foldl (fun t x =>
    putF (putF (putB t (PEN_MAP x.2) 31 true) (PEN_MAP x.2) 21 16 x.1) (PEN_MAP x.2) 11 8 (x.1 / 3)) s4

/-- The full health record as step 9 writes it: every bank repaired or replaced and every engine replaced, and a lockstep
mismatch (R15, R74). -/
def healthStart (e : BootEnv) (s : State) : State :=
  healthPut (fun _ => {
    lockstep := getB s SYS_HEALTH 3, repaired := repairedBanks e, banks := (banksNeeded e).zip (banksSpare e)
    engines := (enginesNeeded e).zip (enginesSpare e), pages := [], suspect := [] }) s

/-- `SYS.HEALTH` as step 9 writes it: the failing block, and whether start-up ends here. -/
def healthWord (e : BootEnv) (s : State) (fail : Nat) : Word :=
  let eng := (enginesNeeded e).length
  w32 (((enginesSpare e).length - eng) * 2 ^ 25 + ((banksSpare e).length - (banksNeeded e).length) * 2 ^ 20 +
    min 255 (repairedBanks e).length * 2 ^ 12 + min 15 eng * 2 ^ 8 + fail * 2 ^ 4 + nb (getB s SYS_HEALTH 3) * 8 +
    nb (decide (fail ≠ 0)) * 2 + 1)

/-- Start-up ends in DEGRADED_REFUSED (R74). Log entry 31 (DEDUCED). -/
def degraded (s : State) : State := setPhase s phDegraded

/-! The boot image (R77–R79). -/

/-- Sections of an image. -/
def imgSections (b : List Byte) : Nat := leAt b 6 2

/-- The offset of section entry `i`. -/
def secAt (i : Nat) : Nat := 1984 + 48 * i

/-- `TYPE` of section `i`. -/
def secType (b : List Byte) (i : Nat) : Nat := leAt b (secAt i) 1

/-- The bytes of section `i`. -/
def secBytes (b : List Byte) (i : Nat) : List Byte := slice b (leAt b (secAt i + 4) 4) (leAt b (secAt i + 8) 4)

/-- The sections of a type, in table order. -/
def secsOf (b : List Byte) (ty : Nat) : List (List Byte) :=
  ((List.range (imgSections b)).filter fun i => decide (secType b i = ty)).map (secBytes b)

/-- Check 1 of R78. -/
def imgFormatOk (b : List Byte) : Bool :=
  let n := imgSections b
  let len := leAt b 8 4
  decide (leAt b 0 4 = 0x4E524C42) && decide (leAt b 4 2 = 1) && decide (1 ≤ n) && decide (n ≤ 32) &&
  decide (len ≤ 0x1000000) && decide (len ≤ b.length) && decide (secAt n + 3309 ≤ len) &&
  (List.range n).all fun i => decide (leAt b (secAt i + 4) 4 + leAt b (secAt i + 8) 4 ≤ len)

/-- Whether a vendor key belongs to a fuse slot that is programmed and not revoked (R79). -/
def vendorKeyOk (s : State) (slot : Nat) (key : List Byte) : Bool :=
  match s.sys.slots[slot]? with
  | some x => x.programmed && !x.revoked && decide (beNat (sha256 key) = x.hash.toNat)
  | none => false

/-- Check 4 of R78. -/
def imgSectionsOk (b : List Byte) : Bool :=
  decide ((secsOf b 1).length = 1) && decide ((secsOf b 2).length = 1) &&
  (List.range (imgSections b)).all fun i => decide (sha256 (secBytes b i) = slice b (secAt i + 16) 32)

/-- `IMAGE_COUNTER` of an image. -/
def imgCounter (b : List Byte) : Nat := leAt b 16 8

/-- Check 6 of R78: the owner signature covers what the vendor signature covers and that signature itself (R77).
Log entry 148 (DESIGN CHOICE). -/
def imgOwnerOk (s : State) (i : ImgFact) : Bool :=
  let n := secAt (imgSections i.bytes) + 3309
  let k := catOf s 0
  !(decide (owner s = 1) && getB s VLT_POLICY 0) || ((leAt i.bytes 12 4).testBit 0 &&
    decide (n + sigLen k.alg ≤ i.bytes.length) &&
    sigVerify k.alg (catKey s k) (i.bytes.take n) (slice i.bytes n (sigLen k.alg)) i.ownerSig)

/-- Checks 1 to 3 of R78. -/
def imgSigned (s : State) (i : ImgFact) : Bool :=
  imgFormatOk i.bytes && vendorKeyOk s (leAt i.bytes 24 1) (slice i.bytes 32 1952) && i.vendorSig

/-! Opening the vault (step 11). -/

/-- Journal slots that hold a RELEASE or SUMMARY record whose word 3 was not written, oldest first (R546, R204). -/
def openRecords (s : State) : List Nat :=
  let h := getF s VLT_JNL_HEAD 16 0
  let open_ := (s.vlt.journal.filter fun e => decide (e.1 % 4 = 0) &&
    (decide (fld e.2 31 28 = 1) || decide (fld e.2 31 28 = 7)) &&
    decide (fld (jWord s (e.1 / 4) 3) 31 24 ≠ fld e.2 27 20)).map fun e => e.1 / 4
  (open_.filter fun i => decide (h ≤ i)) ++ open_.filter fun i => decide (i < h)

/-- Closes one open record and notes the unconfirmed item it stands for (R546, R548). -/
def closeOpen (s : State) (i : Nat) : State :=
  let w1 := (jWord s i 1).toNat
  let w2 := jWord s i 2
  let sum := decide (fld (jWord s i 0) 31 28 = 7)
  let s1 := jClose s i (if sum then 0xFFF000 else 0x14FFFF)
  let e := if sum then (w1, fld w2 31 16, 0xFFFF, 0) else (w1, fld w2 31 16, fld (jWord s i 0) 8 0, fld w2 15 0)
  { s1 with
    gate := { s1.gate with unconf := s1.gate.unconf ++ [e] }
    sys := { s1.sys with
      unconfN := s1.sys.unconfN + 1
      unconfFirst := if s1.sys.unconfN = 0 then w1 else s1.sys.unconfFirst } }

/-- The unconfirmed releases of the present pass and the pass before it (R546). -/
def findUnconfirmed (s : State) : State := (openRecords s).foldl closeOpen s

/-- Restores one Command Authority Table entry (R191, R197). -/
def catRestore (bad : List Nat) (s : State) (x : Nat × CatEnt) : State :=
  let e := x.2
  if e.state = 0 then catSet s x.1 e
  else
    let seq := markOf s x.1 + 1024
    let st := if (poolPages e).any fun p => bad.contains p then 2 else e.state
    let s1 := catSet s x.1 { e with state := st, lastSeq := seq, window := 0xFFFFFFFFFFFFFFFF#64 }
    rowsWrite { s1 with vlt := { s1.vlt with marks := sset s1.vlt.marks x.1 seq } } 1 1

/-- The table, the pool and the marks are restored (R191, R197). -/
def vaultRestore (bad : List Nat) (s : State) : State :=
  let s1 := s.vlt.catImg.foldl (catRestore bad) s
  let pool := s1.vlt.poolImg.filter fun e => !(bad.contains (e.1 / 4096))
  let s2 := { s1 with gate := { s1.gate with pool := pool } }
  if bad = [] then s2
  else raiseIrq (putB (healthPut (fun h => { h with pages := bad }) s2) VLT_STATUS 27 true) VLT 4

/-- The identity key pair of the first start-up ever, whose keys the spec leaves open (R192).
Log entry 71 (DESIGN CHOICE). -/
def identityFirst (s : State) : State :=
  if s.sys.everStarted then s else newIdentity { s with sys := { s.sys with everStarted := true } }

/-- Step 11 of R68: the vault is opened once; an erase in progress restores nothing and writes nothing (R80, R208).
Log entry 37 (DEDUCED). -/
def vaultOpen (bad : List Nat) (s : State) : State :=
  if getB s VLT_STATUS 31 then s
  else
    let warn := (List.range 4).any fun r => decide (900000 ≤ (getR s (VLT_WEAR r)).toNat)
    let s0 := putB (putB (putF s VLT_STATUS 3 2 (getF s VLT_POLICY 2 1)) VLT_STATUS 31 true) VLT_STATUS 29 warn
    let s1 := if warn then raiseIrq s0 VLT 0 else s0
    if s.vlt.eraseMark then putB s1 VLT_STATUS 30 true
    else
      let s2 := vaultRestore bad (identityFirst s1)
      let s3 := setCounter s2 2 (vaultCounter s2 2 + 1)
      let s4 := atbFollow (findUnconfirmed s3)
      jRecord s4 0xA (getF s4 SYS_RESET_CAUSE 7 0) (getR s4 SYS_HEALTH).toNat 0

/-! Loading (steps 10 and 11). -/

/-- An image fails a check: the detail that `BOOT_STATUS` shows is open (R77, R87). Log entry 32 (DESIGN CHOICE). -/
def imgFails (s : State) : State :=
  let f := fresh s
  putF f.2 SYS_BOOT_STATUS 31 16 (f.1.toNat % 65536)

/-- An image from source `src` is checked and loaded (R76–R78); the result says whether it passed.
Log entry 33 (DESIGN CHOICE). -/
def imgLoad (src : Nat) (bad : List Nat) (i : ImgFact) (s : State) : State × Bool :=
  let s1 := putF s SYS_BOOT_STATUS 9 8 src
  if !(imgSigned s1 i) then (imgFails s1, false)
  else
    let s2 := setPhase s1 4
    if !(imgSectionsOk i.bytes) then (imgFails s2, false)
    else
      let s3 := vaultOpen bad (setPhase s2 5)
      if imgCounter i.bytes < (vaultCounter s3 0).toNat then (imgFails s3, false)
      else if !(imgOwnerOk s3 i) then (imgFails s3, false)
      else (s3, true)

/-- Personality sections go to the store's slots from 0 upward where they pass R360; whether their signatures verify
is not among the facts, and left open. Log entry 35 (DEDUCED). -/
def persAtStart (b : List Byte) (s : State) : State :=
  (secsOf b 3).foldl (fun t x =>
    let f := fresh t
    match (List.range 32).find? fun k => (sfind f.2.plc.pers k).isNone with
    | some slot => if persCheck f.2 x slot (f.1.getLsbD 0) = 0 then persStore f.2 slot x else f.2
    | none => f.2) s

/-! Steps 12 to 16. -/

/-- The MGP starts in its ROM, at an address the spec does not give (R16, R68). Log entry 34 (DESIGN CHOICE). -/
def mgpStart (s : State) : State :=
  let f := fresh s
  coreBoot f.2 mgpCore (lo32 f.1).toNat

/-- The bundles of step 12: the persisted ones in counter order, then the image's (R68, R86). Log entry 35 (DEDUCED). -/
def startBundles (b : List Byte) (s : State) : List (List Byte) :=
  (s.vlt.persisted.map fun x => x.bytes) ++ (secsOf b 4).filter fun x => decide (bunKind x = 1)

/-- Applies one bundle of step 12: the records of REGISTER_WRITES, or the word of a persisted VAULT_POLICY (R86). -/
def bunStart (locks : Bool) (x : List Byte) (s : State) : State :=
  if bunKind x = 1 then bunAtStart locks x s
  else if bunKind x = 3 ∧ locks = false ∧ erasing s = false then rowsWrite (setR s VLT_POLICY (w32 (beAt x 16 4))) 4 1
  else s

/-- Step 12. -/
def stepConfigure (b : List Byte) (s : State) : State :=
  (startBundles b s).foldl (fun t x => bunStart false x t) (mgpStart s)

/-- What R57 and the persisted bundles give `SEC.WPOL[0x01].HOST` (R70). -/
def persistHost (s : State) : Bool :=
  s.vlt.persisted.foldl (fun v x =>
    if bunKind x.bytes = 1 then
      (List.range (bunCount x.bytes)).foldl (fun v i =>
        if recAddr x.bytes i = SEC_WPOL 1 ∧ bit (recMask x.bytes i) 0 = true then bit (recValue x.bytes i) 0 else v) v
    else v) false

/-- Hand-overs that placement starts at step 13 complete. -/
def banksSettle (s : State) : State :=
  (List.range 496).foldl (fun t b => if bankState t b = 0 then t else zeroingDone b (drainDone b t)) s

/-- Whether a page's block is powered. Log entry 24 (DEDUCED). -/
def pageOn (s : State) (pg : Page) : Bool := decide (getF s (BLK_STATUS pg.base) 3 2 = 0)

/-- Step 15 sets `BLK_CTRL.EN` of a block's pages (R68, R588, R589). -/
def enAll (l : List Page) (s : State) : State := l.foldl (fun t pg => enWrite pg true t) s

/-- Blocks that step 15 enables. -/
def enPages : List Page :=
  allPages.filter fun pg => match pg.blk with
    | .MAC | .MDB | .PLK | .PTC => true
    | _ => false

/-- Step 15: the Gate and the sieve, MACs and controllers, cluster and device ports, the SYS policy and the locks (R70). With
the vault ERASING, of which R70 does not speak, `HOST` stays 1. Log entry 171 (DESIGN CHOICE). -/
def stepEnable (b : List Byte) (s : State) : State :=
  let s1 := setR s IMG_GATE_CTRL 3
  let s2 := enAll enPages s1
  let s3 := (List.range 20).foldl (fun t i => putF t (SWC_PORT (192 + i)) 1 0 3) s2
  let s4 := putB s3 (SEC_WPOL 1) 0 (if owner s3 = 1 then persistHost s3 else true)
  let s5 := cfgLock ⟨.SEC, 0, SEC⟩ 1 s4
  (startBundles b s5).foldl (fun t x => bunStart true x t) s5

/-- Step 16: forwarding begins; counter 0 rises to `IMAGE_COUNTER` (R79, R587). -/
def stepForward (b : List Byte) (s : State) : State :=
  let s1 := enWrite ⟨.SWC, 0, SWC⟩ true s
  let s2 := setPhase (setR s1 SYS_BOOT_TIME (w32 ((s1.time.aonNs - s1.sys.relAt) / 1000))) phRun
  let c := BitVec.ofNat 64 (imgCounter b)
  let s3 := { s2 with sys := { s2.sys with imageCounter := c } }
  if erasing s3 = false ∧ (vaultCounter s3 0).toNat < c.toNat then setCounter s3 0 c else s3

/-- Steps 12 to 16 with an image that passed, taking `ns` nanoseconds more. Log entry 30 (DEDUCED). -/
def bootRun (b : List Byte) (ns : Nat) (s : State) : State :=
  let s1 := persAtStart b { s with sys := { s.sys with ready := 2 } }
  let s2 := stepConfigure b s1
  let s3 := banksSettle (placeRecompute (setPhase s2 6))
  let s4 := stepEnable b (setPhase s3 7)
  stepForward b (advanceCycles s4 (ns / 4))

/-- WAIT_HOST: shared memory banks 0–127 are the host's (R77). -/
def waitHost (s : State) : State :=
  let s1 := (List.range 128).foldl (fun t b => putF t (BNK_BANK_CTRL b) 27 24 kHost) s
  setPhase s1 phWaitHost

/-- WAIT_HOST ends: the banks are FREE again, for placement to give. -/
def waitHostEnd (s : State) : State :=
  (List.range 128).foldl (fun t b => putF t (BNK_BANK_CTRL b) 27 24 kFree) s

/-- The boot sources that follow each other for a strap value: 0 primary, 1 secondary, 2 host (R75). -/
def bootSources (mode : Nat) : List Nat :=
  match mode with
  | 1 => [2]
  | 2 => [0, 1, 2]
  | _ => [0, 1]

/-- The image that the flash holds for a source. -/
def bootImg (e : BootEnv) (src : Nat) : ImgFact := if src = 0 then e.primary else e.secondary

/-- Steps 5 and 6, beside self-test: images in flash are put to checks 1 to 3 in turn; the sources that remain begin with
the first that passes (R68, R76, R78). Log entry 32 (DESIGN CHOICE). -/
def bootEarly (e : BootEnv) (l : List Nat) (s : State) : State × List Nat :=
  match l with
  | [] => (s, [])
  | 2 :: r => (s, 2 :: r)
  | src :: r =>
    let s1 := putF s SYS_BOOT_STATUS 9 8 src
    if imgSigned s1 (bootImg e src) then (s1, src :: r) else bootEarly e r (imgFails s1)

/-- The sources in turn from step 10 (R76, R77). Log entries 30 (DEDUCED), 32 (DESIGN CHOICE). -/
def bootFrom (e : BootEnv) (ns : Nat) (l : List Nat) (s : State) : State :=
  match l with
  | [] => setPhase (advanceCycles s (ns / 4)) phBootFailed
  | 2 :: _ => waitHost (advanceCycles s (ns / 4))
  | src :: r =>
    let x := imgLoad src s.sys.badPages (bootImg e src) s
    if x.2 then bootRun (bootImg e src).bytes ns x.1 else bootFrom e ns r x.1

/-! The sequence. -/

/-- A new debug challenge, from the entropy source (R90). Log entry 13 (DESIGN CHOICE). -/
def newChallenge (s : State) : State :=
  let f := fresh s
  setR64 f.2 SYS_DEBUG_CHALLENGE_LO f.1

/-- The straps that reset release latches (R75, R541). Log entry 15 (DESIGN CHOICE). -/
def latchStraps (e : BootEnv) (s : State) : State :=
  setR (setR s SYS_BOOT_CFG (w32 (nb e.eraseN * 4 + e.bootMode.toNat))) MGT_ADDR (w32 (0x58 + e.mgtAddr.toNat))

/-- Steps 1 to 3: the SSP runs from ROM, the PLLs lock, and the SYS page answers (R68–R70). -/
def startRom (s : State) : State :=
  let s1 := { s with sys := { s.sys with
    held := false, ready := 1, aonTicks := 0, relAt := s.time.aonNs, pmicEn := true, pmicSramEn := true } }
  let s2 := putB (newChallenge (setPhase s1 1)) (SEC_WPOL 1) 0 true
  let s3 := advanceCycles (coreBoot s2 sspCore 0x09000000) 125000
  let up := !s3.hif.perst
  let s4 := putB (setR s3 CLK_PLL_STATUS (w32 (15 + 16 * nb up))) TNS_REF_STATUS 0 true
  { s4 with time := { s4.time with running := true }, hif := { s4.hif with cfgUp := up } }

/-- Start-up under the facts `e` (R68, R73–R77). Log entries 31 (DEDUCED), 154 (DESIGN CHOICE). -/
def startUp (e : BootEnv) (s : State) : State :=
  let s1 := startRom s
  let ns := e.us.toNat * 1000 - 500000
  if failedBlock e = 1 then
    degraded (putB (putF (advanceCycles s1 (ns / 4)) SYS_HEALTH 7 4 1) SYS_HEALTH 1 true)
  else
    let early := bootEarly e (bootSources (getF s1 SYS_BOOT_CFG 1 0)) (setPhase s1 2)
    let s2 := { early.1 with sys := { early.1.sys with badPages := e.badPages.map fun p => p.val } }
    let fail := if failedBlock e ≠ 0 then failedBlock e else if sparesExhausted e then 8 else 0
    let s3 := bistRepair e (setPhase s2 3)
    let s4 := healthStart e (setR s3 SYS_HEALTH (healthWord e s3 fail))
    if fail ≠ 0 then degraded (advanceCycles s4 (ns / 4)) else bootFrom e ns early.2 s4

/-- Whether reset release can come: no THERM hold, the rails are enabled, and after a thermal trip the junction has
cooled (R535, R571). -/
def releaseDue (s : State) : Bool :=
  s.sys.held && !s.sys.thermHold && s.sys.pmicEn && s.sys.pmicSramEn &&
  (!(getB s TMP_TRIP_STATUS 1) || decide (((getR s TMP_MAX).setWidth 16).toInt < 1840))

/-- Reset release. Log entries 30 (DEDUCED), 150 (DEDUCED). -/
def resetRelease (e : BootEnv) (s : State) : State := if releaseDue s then startUp e (latchStraps e s) else s

/-! Pushing an image (R77). -/

/-- `CMD_RESULT` takes a final code, and SYS interrupt bit 0 is set (R87, R88). -/
def sysCmdEnd (s : State) (r : Nat) : State := raiseIrq (setR s SYS_CMD_RESULT (w32 r)) SYS 0

/-- Whether a `SYS.CMD` is in progress (R87). -/
def sysCmdBusy (s : State) : Bool := decide (getF s SYS_CMD_RESULT 3 0 = 1)

/-- The bytes of a command's argument, as the SSP reads them from shared memory. -/
def cmdArg (s : State) : List Byte :=
  let a := (getR s SYS_CMD_ADDR).toNat
  let n := (getR s SYS_CMD_LEN).toNat
  if inShared a n then rdBytes s a n else []

/-- PUSH_BOOT: the pushed image passes the checks and start-up goes on within 250 ms, in a time the spec leaves open; or the
device waits again (R77). Log entry 45 (DESIGN CHOICE). -/
def pushBoot (vendorSig ownerSig : Bool) (s : State) : State :=
  if phase s = phWaitHost then
    let i : ImgFact := { bytes := cmdArg s, vendorSig := vendorSig, ownerSig := ownerSig }
    let x := imgLoad 2 s.sys.badPages i s
    if x.2 then
      let f := fresh x.1
      sysCmdEnd (bootRun i.bytes (f.1.toNat % 250000000) (waitHostEnd f.2)) 2
    else sysCmdEnd (setPhase x.1 phWaitHost) 3
  else sysCmdEnd s 3

/-! The commands. -/

/-- Reset release and start-up. -/
def execResetRelease (e : BootEnv) (s : State) : Res := .next (resetRelease e s)

end Sys2Proof.Machine
end

