-- ==== Sys2Proof/Machine/Trust.lean ====
section
/-! DEFINITION. Ownership, debug unlock and the commands of `SYS.CMD` (R80–R82, R87–R91), and signed configuration bundles
(R83–R86). -/

namespace Sys2Proof.Machine

open Reg

/-! `SYS.CMD` (R87). -/

/-- A command is ignored while another is in progress. Log entry 20 (DEDUCED). -/
def sysCmd (f : State → State) (s : State) : State := if sysCmdBusy s then s else f s

/-- The SSP changes `SEC.WPOL[0x01].HOST` (R70). Log entry 25 (DEDUCED). -/
def sysPolicyHost (v : Bool) (s : State) : State :=
  wpolWrite mSSP 1 (setBit (getR s (SEC_WPOL 1)) 0 v) s

/-! Erase (R80, R81, R208). -/

/-- The erase starts: the mark is written, the keys can no longer be used, and vault writes that wait are discarded but
those of classes 1 to 3 (R80, R81, R208). Log entry 37 (DEDUCED). -/
def eraseStart (s : State) : State :=
  let s1 := match s.vlt.cntBusy with
    | some _ => cntEnd { s with vlt := { s.vlt with cntBusy := none } } 5
    | none => s
  let s2 := match s1.gate.catBusy with
    | some _ => catEnd { s1 with gate := { s1.gate with catBusy := none, catScan := false } } 6
    | none => s1
  let s3 := { s2 with
    vlt := { s2.vlt with
      markWr := s2.vlt.markWr.filter fun e => s2.vlt.waiting.contains { cls := 1, key := e.1 }
      waiting := s2.vlt.waiting.filter fun r => decide (r.cls ≤ 3), eraseMark := true }
    gate := { s2.gate with ownRec := none, cat := [], pool := [] } }
  setOwner (putB (rowsWrite s3 4 1) VLT_STATUS 30 true) 2

/-- `SYS.CMD` = ERASE (R80). Where its condition fails it ends REJECTED, which the table of R80 does not say.
Log entry 161 (DESIGN CHOICE). -/
def eraseCmd (s : State) : State :=
  if owner s = 1 ∧ getB s SYS_BOOT_CFG 2 = false ∧ s.sys.aonTicks ≤ 327680 then
    eraseStart (setR s SYS_CMD_RESULT 1)
  else sysCmdEnd s 3

/-- The erase is complete: the vault is UNOWNED and empty (R80, R81, R70); it runs after every write of classes 1 to 3
that waited for it (R208). Log entry 37 (DEDUCED). -/
def eraseDone (s : State) : State :=
  if erasing s && s.vlt.waiting.isEmpty then
    let s1 := vaultWipe s
    let s2 := { s1 with
      gate := { s1.gate with cat := [], pool := [] }
      sys := { s1.sys with everStarted := true } }
    let s3 := setOwner (putB s2 VLT_STATUS 30 false) 0
    let s4 := atbFollow (sysPolicyHost true s3)
    if sysCmdBusy s4 then sysCmdEnd s4 2 else s4
  else s

/-! Enrolment and transfer (R80, R82, R155). -/

/-- The algorithm code of an enrolment record. -/
def enrAlg (r : List Byte) : Nat := beAt r 0 1

/-- The key length of an enrolment record. -/
def enrKeyLen (r : List Byte) : Nat := beAt r 2 2

/-- Whether an enrolment record is valid (R82); `lattice` is the verdict of an ML-DSA verification of its proof.
Log entry 148 (DESIGN CHOICE). -/
def enrOk (r : List Byte) (lattice : Bool) (s : State) : Bool :=
  let n := 4 + enrKeyLen r
  let key := slice r 4 (enrKeyLen r)
  decide (2 ≤ enrAlg r) && keyLenOk (enrAlg r) (enrKeyLen r) && decide (r.length = n + sigLen (enrAlg r)) &&
  keyDecodes (enrAlg r) key && sigVerify (enrAlg r) key (deviceId s ++ r.take n) (slice r n (sigLen (enrAlg r))) lattice

/-- Entry 0 is written from an enrolment record (R155); the key takes the pool's first bytes.
Log entry 38 (DESIGN CHOICE). -/
def entry0Write (r : List Byte) (s : State) : State :=
  let old := catOf s 0
  let g := (old.lastGen + 1) % 16
  let e : CatEnt :=
    { state := 1, use := 0, gen := g, alg := enrAlg r, tb := 0, reqTime := false, tc := 7, poolOff := 0, keyLen := enrKeyLen r
      tolMs := 0, chanHi := 0x1FF, chanLo := 0x1FF, tagValue := 0, tagMask := 0, lastSeq := 0
      window := 0xFFFFFFFFFFFFFFFF#64, lastGen := g }
  let s1 := catSet (poolZero s old) 0 e
  let key := slice r 4 (enrKeyLen r)
  let pool := ((List.range key.length).zip key).foldl (fun p x => ssetD 0 p x.1 x.2) s1.gate.pool
  catPersist (markWrite { s1 with gate := { s1.gate with pool := pool } } 0 0) 1 0

/-- `SYS.CMD` = ENROL (R80, R82). With the vault OWNED, ERASING or not yet open it ends REJECTED, which the table of R80
does not say. Log entry 161 (DESIGN CHOICE). -/
def enrol (lattice : Bool) (s : State) : State :=
  let r := cmdArg s
  if owner s = 0 ∧ getB s VLT_STATUS 31 = true ∧ enrOk r lattice s = true then
    let s1 := rowsWrite (setR (entry0Write r s) VLT_POLICY 0) 4 1
    let s2 := setOwner s1 1
    let s3 := jRecord s2 9 1 (catOf s2 0).gen 0
    sysCmdEnd (atbFollow (sysPolicyHost false s3)) 2
  else sysCmdEnd s 3

/-! Debug unlock (R89–R91). -/

/-- Failed unlock attempts. Log entry 39 (DEDUCED). -/
def debugFails (s : State) : Nat := getF s SYS_DEBUG_STATUS 11 8

/-- Whether an unlock token is accepted (R89); `lattice` is the verdict of an ML-DSA verification of its signature.
Log entries 40 (DEDUCED), 148 (DESIGN CHOICE). -/
def tokenOk (t : List Byte) (lattice : Bool) (s : State) : Bool :=
  let alg := beAt t 1 1
  let slot := beAt t 4 1
  let own := owner s
  decide (beAt t 0 1 = 1) && decide (beAt t 5 3 = 0) &&
  decide (beAt t 8 8 = (getR64 s SYS_DEBUG_CHALLENGE_LO).toNat) && decide (slice t 16 16 = s.sys.deviceId) &&
  if own = 1 then
    decide (slot = 0) && decide (alg = catAlg s 0) && decide (t.length = 32 + sigLen alg) &&
      sigVerify alg (catKey s (catOf s 0)) (t.take 32) (t.drop 32) lattice
  else decide (own = 0) && decide (alg = 5) && decide (t.length = 5293) && vendorKeyOk s slot (slice t 32 1952) && lattice

/-- The unlock is granted with a scope: it is counted, journalled, and the Gate goes into lockdown (R90, R91, R193). -/
def debugGrant (scope : Nat) (s : State) : State :=
  let s1 := putB (putF s SYS_DEBUG_STATUS 7 4 scope) SYS_DEBUG_STATUS 0 true
  let s2 := setCounter s1 3 (vaultCounter s1 3 + 1)
  let s3 := jRecord s2 5 (jMs s2 + 1) scope 0
  atbFollow (raiseIrq (lockdownBegin s3) SYS 3)

/-- `SYS.CMD` = DEBUG_UNLOCK. After 8 refused tokens every further one is refused; each command draws a new challenge.
Log entry 39 (DEDUCED). -/
def debugUnlock (lattice : Bool) (s : State) : State :=
  let t := cmdArg s
  if debugFails s < 8 ∧ tokenOk t lattice s = true then
    sysCmdEnd (newChallenge (debugGrant (beAt t 2 2 % 16) s)) 2
  else sysCmdEnd (newChallenge (putF s SYS_DEBUG_STATUS 11 8 (min 8 (debugFails s + 1)))) 3

/-- `SYS.CMD` = DEBUG_LOCK (R91); with debug locked already it changes nothing and ends DONE, a result that the spec does not
give. Log entries 44 (DEDUCED), 174 (DESIGN CHOICE). -/
def debugLock (s : State) : State :=
  if unlocked s then
    let scope := getF s SYS_DEBUG_STATUS 7 4
    let s1 := putB (putF s SYS_DEBUG_STATUS 7 4 0) SYS_DEBUG_STATUS 0 false
    let s2 := jRecord s1 5 (jMs s1) scope 0
    sysCmdEnd (atbFollow (raiseIrq (lockdownEnd s2) SYS 3)) 2
  else sysCmdEnd s 2

/-! Bundles: the checks (R83, R84, R86). -/

/-- Outcome BUNDLE_FORMAT. -/
abbrev ocBunFormat : Nat := 0x20
/-- Outcome BUNDLE_ROLLBACK. -/
abbrev ocBunRollback : Nat := 0x21
/-- Outcome BUNDLE_ADDRESS. -/
abbrev ocBunAddress : Nat := 0x22
/-- Outcome BUNDLE_NO_ROOM. -/
abbrev ocBunNoRoom : Nat := 0x23
/-- Outcome BUNDLE_COMMAND. -/
abbrev ocBunCommand : Nat := 0x24

/-- Whether a policy word is one that R206 admits: no reserved bit, and a listed mode. Log entry 41 (DEDUCED). -/
def policyOk (v : Nat) : Bool := decide (v < 16) && decide (v / 2 % 4 ≠ 3)

/-- Whether the header is valid, the length matches the kind (R84), and the policy word or the transfer's record is valid
(R82, R206). OWNER_TRANSFER and ERASE_VAULT under another entry than 0, or with the vault not OWNED, fail here: R83 and R80
do not accept them, and R84 names no reason for it. Log entry 172 (DESIGN CHOICE). -/
def bunFormatOk (x : Bundle) (lattice : Bool) (s : State) : Bool :=
  let b := x.bytes
  let n := bunCount b
  decide (16 ≤ b.length) && decide (beAt b 0 1 = 1) && decide (beAt b 4 1 < 2) && decide (beAt b 5 3 = 0) &&
  match bunKind b with
  | 1 => decide (1 ≤ n) && decide (n ≤ 512) && decide (b.length = 16 + 12 * n)
  | 2 =>
    decide (n = 0) && decide (x.keyId / 16 = 0) && decide (owner s = 1) &&
    decide (b.length = 20 + enrKeyLen (b.drop 16) + sigLen (enrAlg (b.drop 16))) && enrOk (b.drop 16) lattice s
  | 3 => decide (n = 0) && decide (b.length = 20) && policyOk (beAt b 16 4)
  | 4 => decide (n = 0) && decide (x.keyId / 16 = 0) && decide (owner s = 1) && decide (b.length = 16)
  | _ => false

/-- Whether a register may be addressed by a record at all (R84). Log entry 42 (DEDUCED). -/
def recMayAddress (a : Nat) : Bool :=
  decide (a % 4 = 0) && decide (0x10000000 ≤ a) && decide (a < 0x14000000) &&
  !([SYS_SOFT_RESET, SYS_CMD, SYS_CMD_ADDR, SYS_CMD_LEN].contains a) &&
  match pageOf a with
  | some pg => !(decide (pg.blk = .VLT))
  | none => false

/-- Whether a record addresses an RWL field of a locked page (R86). Log entry 36 (DEDUCED). -/
def recLocked (b : List Byte) (i : Nat) (s : State) : Bool :=
  match pageOf (recAddr b i) with
  | some pg =>
    getB s (CFG_LOCK pg.base) 0 &&
    !((recMask b i &&& w32 (regDesc pg.blk pg.inst (recAddr b i - pg.base)).rwl) == 0#32)
  | none => false

/-- Whether every record may be applied (R84, R86). Log entry 42 (DEDUCED). -/
def bunAddressOk (b : List Byte) (s : State) : Bool :=
  (List.range (bunCount b)).all fun i => recMayAddress (recAddr b i) && (bunPersist b || !(recLocked b i s))

/-- Bytes of the persisted store that a bundle takes (R84). -/
def bunRoom (b : List Byte) : Nat := 16 * (1 + (b.length + 15) / 16)

/-- Bytes of the persisted store in use. -/
def storeUsed (s : State) : Nat := s.vlt.persisted.foldl (fun n x => n + bunRoom x.bytes) 0

/-- The reason for which a bundle fails before any part of it is applied (R84). Log entry 41 (DEDUCED). -/
def bunRefusal (x : Bundle) (lattice : Bool) (s : State) : Option Nat :=
  let b := x.bytes
  if !(bunFormatOk x lattice s) then some ocBunFormat
  else if bunCounter b ≤ (vaultCounter s 1).toNat then some ocBunRollback
  else if bunKind b = 1 ∧ bunAddressOk b s = false then some ocBunAddress
  else if bunPersist b = true ∧ 65536 < storeUsed s + bunRoom b then some ocBunNoRoom
  else none

/-! Bundles: applying them (R85). -/

/-- The result register of a command register, if `a` is one (R85). -/
def cmdResultOf (a : Nat) : Option Nat :=
  if a = IMG_CAT_CMD then some IMG_CAT_RESULT
  else if a = IMG_SIEVE_CMD then some IMG_SIEVE_RESULT
  else if a = VLT_CNT_CMD then some VLT_CNT_RESULT
  else if a = VLT_EXPORT_COUNT then some VLT_EXPORT_RESULT
  else if a = SWC_TBL_CMD then some (perM mSSP SWC_TBL_RESULT)
  else if a = FDB_CMD then some (perM mSSP FDB_RESULT)
  else if a = BNK_CMD then some BNK_CMD_RESULT
  else if a = PLC_CMD then some PLC_CMD_RESULT
  else match pageOf a with
    | some ⟨.PLK, n, _⟩ => if a = PLK_CMD n then some (PLK_CMD_RESULT n) else none
    | some ⟨.MDB, n, _⟩ => if a = MDB_CMD n then some (MDB_CMD_RESULT n) else none
    | _ => none

/-- Whether a command of the register at `a` has not set `DONE` yet. -/
def cmdRuns (a : Nat) (s : State) : Bool :=
  if a = IMG_CAT_CMD then s.gate.catBusy.isSome
  else if a = VLT_CNT_CMD then s.vlt.cntBusy.isSome
  else if a = VLT_EXPORT_COUNT then s.vlt.exp.isSome
  else false

/-- Whether a result register shows a status other than OK. -/
def cmdFailed (a : Nat) (s : State) : Bool :=
  match cmdResultOf a with
  | some r => decide (getF s r 30 (if r = PLC_CMD_RESULT then 26 else 28) ≠ 0)
  | none => false

/-- The bits [31:16] of the result register of the command register at `a`. -/
def cmdResultHigh (a : Nat) (s : State) : Nat :=
  match cmdResultOf a with
  | some r => getF s r 31 16
  | none => 0

/-- Sets the progress of the oldest bundle. -/
def bunProg (p : Option BundleProg) (s : State) : State := { s with sys := { s.sys with prog := p } }

/-- One act of the SSP on a REGISTER_WRITES bundle: it notes the status of a command that has ended, or applies the next
record; it waits while a command runs (R85, R86). -/
def bunAct (b : List Byte) (p : BundleProg) (s : State) : State × BundleProg :=
  if p.wait then
    let a := recAddr b (p.next - 1)
    if cmdRuns a s then (s, p)
    else if cmdFailed a s && p.failed.isNone then
      (s, { p with wait := false, failed := some (p.next - 1, cmdResultHigh a s) })
    else (s, { p with wait := false })
  else if bunCount b ≤ p.next then (s, p)
  else
    let a := recAddr b p.next
    if recLocked b p.next s then (s, { p with next := p.next + 1 })
    else if (cmdResultOf a).isSome then
      if cmdRuns a s then (s, p)
      else (recApply a (recMask b p.next) (recValue b p.next) s, { p with next := p.next + 1, wait := true })
    else (recApply a (recMask b p.next) (recValue b p.next) s, { p with next := p.next + 1 })

/-- As many acts as the bundle allows. -/
def bunActs (b : List Byte) (fuel : Nat) (p : BundleProg) (s : State) : State × BundleProg :=
  match fuel with
  | 0 => (s, p)
  | fuel + 1 => let r := bunAct b p s; bunActs b fuel r.2 r.1

/-- The oldest bundle's item ends; a SOFT write that waited for it takes effect (R66). -/
def bunEnd (tag code : Nat) (s : State) : State :=
  let s1 := releasedEnd { s with sys := { s.sys with bundles := s.sys.bundles.drop 1, prog := none } } tag code
  if s1.sys.softPend then resetCause rcSoft 0 false { s1 with sys := { s1.sys with softPend := false } } else s1

/-- A bundle is fully applied: counter 1 is set (R85). -/
def bunCount1 (b : List Byte) (s : State) : State := setCounter s 1 (BitVec.ofNat 64 (bunCounter b))

/-- A PERSIST bundle is stored (R84, R86). Log entry 36 (DEDUCED). -/
def bunStore (x : Bundle) (s : State) : State :=
  if bunPersist x.bytes then
    let p : PBundle := { counter := BitVec.ofNat 64 (bunCounter x.bytes), keyId := x.keyId, bytes := x.bytes }
    rowsWrite { s with vlt := { s.vlt with persisted := s.vlt.persisted ++ [p] } } 2 (1 + (x.bytes.length + 15) / 16)
  else s

/-- A REGISTER_WRITES bundle ends: DONE, or BUNDLE_COMMAND where a command failed (R85). -/
def bunFinish (x : Bundle) (p : BundleProg) (s : State) : State :=
  let s1 := bunStore x (bunCount1 x.bytes s)
  match p.failed with
  | none => bunEnd x.tag ocDone s1
  | some f =>
    bunEnd x.tag ocBunCommand (raiseIrq (setR s1 SYS_BUNDLE_FAIL (w32 (f.1 * 65536 + f.2))) SYS 6)

/-- Whether no write of the vault's classes before `c` waits and no supply warning holds class `c` (R207). -/
def vFree (s : State) (c : Nat) : Bool := vMay s c 0x100000000

/-- The SSP works on the oldest bundle where its kind is one of `kinds`: refused, or handled by `f`. During an erase nothing
of it can become durable, and its item ends REVOKED with the key that released it (R81, R208).
Log entry 37 (DEDUCED). -/
def bunHandle (kinds : Nat → Bool) (lattice : Bool) (f : Bundle → State → State) (s : State) : State :=
  match s.sys.bundles with
  | [] => s
  | x :: _ =>
    if !(kinds (bunKind x.bytes)) || s.sys.held || !(awake s) then s
    else if erasing s then bunEnd x.tag ocRevoked s
    else if s.sys.prog.isSome then f x s
    else match bunRefusal x lattice s with
      | some c => bunEnd x.tag c s
      | none => f x s

/-- REGISTER_WRITES: the records are applied as far as their commands allow; the end waits while a supply warning holds
vault writes (R85, R207). -/
def bunWrites (x : Bundle) (s : State) : State :=
  let p := s.sys.prog.getD { next := 0, failed := none, wait := false }
  let r := bunActs x.bytes (2 * bunCount x.bytes + 1) p (bunProg (some p) s)
  if bunCount x.bytes ≤ r.2.next ∧ r.2.wait = false ∧ vFree r.1 6 = true then bunFinish x r.2 r.1
  else bunProg (some r.2) r.1

/-- OWNER_TRANSFER: entry 0 is replaced, every other entry deleted (R80, R155). Log entry 41 (DEDUCED). -/
def bunTransfer (x : Bundle) (s : State) : State :=
  if vFree s 5 = false then s
  else
    let s1 := { s with gate := { s.gate with revN := 0 } }
    let gone := (s1.gate.cat.filter fun e => decide (e.1 ≠ 0) && decide (e.2.state ≠ 0)).map fun e => e.1
    let s2 := gone.foldl (fun t i => catPersist (revokeEntry t i) 4 i) s1
    let s3 := entry0Write (x.bytes.drop 16) s2
    let s4 := { s3 with gate := { s3.gate with ownRec := some (catOf s3 0).gen } }
    bunEnd x.tag ocDone (bunCount1 x.bytes (scansOver s4))

/-- VAULT_POLICY: the policy word is set, after the journal has come to the present second, in which the mode in force
stands (R205, R206). -/
def bunPolicy (x : Bundle) (s : State) : State :=
  if vFree s 6 = false then s
  else
    let s1 := rowsWrite (setR (jTurn s) VLT_POLICY (w32 (beAt x.bytes 16 4))) 4 1
    bunEnd x.tag ocDone (bunStore x (bunCount1 x.bytes (atbFollow s1)))

/-- ERASE_VAULT: the item ends DONE, then the erase starts (R80). -/
def bunErase (x : Bundle) (s : State) : State :=
  if vFree s 6 = false then s
  else
    let s1 := bunEnd x.tag ocDone (bunCount1 x.bytes s)
    if s1.sys.held then s1 else eraseStart s1

/-! The commands. -/

/-- `SYS.CMD` = PUSH_BOOT (R77). -/
def execPushBoot (m : Master) (vendorSig ownerSig : Bool) (s : State) : Res :=
  .next (gatedWrite m SYS_CMD (sysCmd (pushBoot vendorSig ownerSig)) s)

/-- `SYS.CMD` = ENROL (R82). -/
def execEnrol (m : Master) (lattice : Bool) (s : State) : Res := .next (gatedWrite m SYS_CMD (sysCmd (enrol lattice)) s)

/-- `SYS.CMD` = ERASE (R80). -/
def execErase (m : Master) (s : State) : Res := .next (gatedWrite m SYS_CMD (sysCmd eraseCmd) s)

/-- `SYS.CMD` = DEBUG_UNLOCK (R89). -/
def execDebugUnlock (m : Master) (lattice : Bool) (s : State) : Res := .next (gatedWrite m SYS_CMD (sysCmd (debugUnlock lattice)) s)

/-- `SYS.CMD` = DEBUG_LOCK (R91). -/
def execDebugLock (m : Master) (s : State) : Res := .next (gatedWrite m SYS_CMD (sysCmd debugLock) s)

/-- The vault erase completes (R80, R81). -/
def execVaultEraseComplete (s : State) : Res := .next (eraseDone s)

/-- The oldest bundle is REGISTER_WRITES, or of no listed kind. -/
def execBundleRegisterWrites (s : State) : Res :=
  .next (bunHandle (fun k => !(decide (2 ≤ k ∧ k ≤ 4))) false bunWrites s)

/-- The oldest bundle is OWNER_TRANSFER. -/
def execBundleOwnerTransfer (lattice : Bool) (s : State) : Res :=
  .next (bunHandle (fun k => decide (k = 2)) lattice bunTransfer s)

/-- The oldest bundle is VAULT_POLICY. -/
def execBundleVaultPolicy (s : State) : Res := .next (bunHandle (fun k => decide (k = 3)) false bunPolicy s)

/-- The oldest bundle is ERASE_VAULT. -/
def execBundleEraseVault (s : State) : Res := .next (bunHandle (fun k => decide (k = 4)) false bunErase s)

end Sys2Proof.Machine
end

