-- ==== Sys2Proof/Machine/Sys.lean ====
section
/-! DEFINITION. One access of a master to the system address map (R6, R37–R41): what a store and a load reach, and the
command REGISTER_WRITE. -/

namespace Sys2Proof.Machine

open Reg

/-- `SYS.CMD` written as a plain register: what the signatures and keys of its command show is not given here, and left
open; an unlisted code ends REJECTED (R87, R586). Log entry 28 (DEDUCED). -/
def sysCmdWrite (v : Word) (s : State) : State :=
  let f := fresh s
  let a := f.1.getLsbD 0
  let b := f.1.getLsbD 1
  sysCmd (fun t => match fld v 3 0 with
    | 1 => pushBoot a b t
    | 2 => enrol a t
    | 3 => eraseCmd t
    | 4 => debugUnlock a t
    | 5 => debugLock t
    | _ => sysCmdEnd t 3) f.2

/-- What a write that the policy lets through does at a register address. -/
def regStore (m : Master) (a : Nat) (v : Word) (s : State) : State :=
  if a = SYS_CMD then sysCmdWrite v s
  else if a = SYS_SOFT_RESET then softResetWrite v s
  else match pageOf a with
    | some pg => pageWrite m pg (a - pg.base) v s
    | none => s

/-- Parts of the address map (R37). -/
inductive Region where
  | shared
  /-- a populated byte of physical engine `p`'s TCM window -/
  | tcm (p : Nat)
  | rom
  | page
  /-- the own-TCM range -/
  | own
  | nothing
  deriving DecidableEq, Repr

/-- The part of the map that `n` bytes from `a` lie in; register pages are told apart by their first byte. -/
def regionOf (a n : Nat) : Region :=
  if inShared a n then .shared
  else if 0x08000000 ≤ a ∧ a < 0x08D00000 then
    if (a - 0x08000000) % 0x40000 + n ≤ 0x30000 then .tcm ((a - 0x08000000) / 0x40000) else .nothing
  else if 0x09000000 ≤ a ∧ a + n ≤ 0x09040000 then .rom
  else if 0x10000000 ≤ a ∧ a < 0x14000000 then .page
  else if 0x20000000 ≤ a ∧ a + n ≤ 0x20100000 then .own
  else .nothing

/-- Whether a master reaches shared memory at all (R41). -/
def reachesShared (m : Master) : Bool := decide (1 ≤ m.toNat) && decide (m.toNat ≤ 55)

/-- The memory key of a master's own TCM at an address of the own range, where it has one there (R37).
Log entry 116 (DEDUCED). -/
def ownKey (m : Master) (a n : Nat) : Option Nat :=
  if m = mSSP ∧ a + n ≤ 0x20080000 then some (sspTcm (a - 0x20000000))
  else if m = mMGP then some (mgpTcm (a - 0x20000000))
  else none

/-- How an access ends that met an error: in a bus error, but for a host write, which is posted (R55). -/
def busErr (m : Master) (wnr : Bool) (s : State) : State := if wnr then writeErr m s else answerErr s

/-- An unmapped access: a bus error, recorded (R38). -/
def busUnmapped (m : Master) (a : Nat) (wnr : Bool) (s : State) : State := busErr m wnr (recErr s SEC errUnmapped m a wnr)

/-- A forbidden access to a mapped address: a bus error and a policy denial (R41). -/
def busDenied (m : Master) (a : Nat) (wnr : Bool) (s : State) : State := busErr m wnr (deny s errDeniedPage m a wnr)

/-- Whether an access of a master ends at the debug master's access port before unlock (R41, R89, R554). -/
def portStops (m : Master) (r : Region) (s : State) : Bool :=
  decide (m = mDebug) && !(match r with
    | .shared => dbgScope s 1
    | _ => dbgScope s 0)

/-- A narrow or unaligned register access: an access that the policy forbids is a denial whatever its width (R41); any other
is a bus error, recorded as NARROW in the page, also where the block has no power (R6, R51). Log entry 116 (DEDUCED). -/
def busNarrow (m : Master) (a : Nat) (wnr : Bool) (s : State) : State :=
  match pageOf a with
  | some pg =>
    if (if wnr then mayWrite s m pg.blk else mayRead m pg.blk (a - pg.base)) then busErr m wnr (recErr s pg.base errNarrow m a wnr)
    else busDenied m a wnr s
  | none => busUnmapped m a wnr s

/-- A store of bytes by a master; `resp` tells whether it met a bus error. Log entry 116 (DEDUCED). -/
def busStore (m : Master) (a : Nat) (l : List Byte) (s : State) : State :=
  let n := l.length
  let r := regionOf a n
  if portStops m r s then answer s 0
  else match r with
    | .shared =>
      if reachesShared m then
        match fabWrite s m a l false with
        | (t, .ok) => answer t 0
        | (t, _) => writeErr m t
      else busDenied m a true s
    | .tcm p =>
      if m = mSSP then
        if getB s (PEN_MAP p) 27 then answer { s with mem := memPut s.mem a l } 0
        else answerErr (recErr s SEC errEngineRunning m a true)
      else busDenied m a true s
    | .rom => busDenied m a true s
    | .page =>
      if n = 4 ∧ a % 4 = 0 then gatedWrite m a (regStore m a (w32 (leNat l))) s else busNarrow m a true s
    | .own =>
      match ownKey m a n with
      | some k => answer { s with mem := memPut s.mem k l } 0
      | none => if m = mSSP then busUnmapped m a true s else busDenied m a true s
    | .nothing => busUnmapped m a true s

/-- Bytes at consecutive memory keys. -/
def memBytes (s : State) (k n : Nat) : List Byte := (List.range n).map fun i => memRead s.mem (k + i)

/-- A load of `n` bytes by a master; `resp` holds the value, or says that it met a bus error. -/
def busLoad (m : Master) (a n : Nat) (s : State) : State :=
  let r := regionOf a n
  if portStops m r s then answer s 0
  else match r with
    | .shared =>
      if reachesShared m then
        match fabRead s m a n false with
        | (t, .ok, l) => answer t (w32 (leNat l))
        | (t, _, _) => answerErr t
      else busDenied m a false s
    | .tcm _ => if m = mSSP then answer s (w32 (leNat (memBytes s a n))) else busDenied m a false s
    | .rom => if m = mSSP ∨ m = mMGP then answer s (w32 (leNat (memBytes s a n))) else busDenied m a false s
    | .page =>
      if n = 4 ∧ a % 4 = 0 then
        gatedRead m a (fun t => match pageOf a with
          | some pg => pageRead m pg (a - pg.base) t
          | none => (t, 0)) s
      else busNarrow m a false s
    | .own =>
      match ownKey m a n with
      | some k => answer s (w32 (leNat (memBytes s k n)))
      | none => if m = mSSP then busUnmapped m a false s else busDenied m a false s
    | .nothing => busUnmapped m a false s

/-- The number of bytes of an access size. -/
def accBytes (z : AccSize) : Nat :=
  match z with
  | .b1 => 1
  | .b2 => 2
  | .b4 => 4

/-- A write of a master at a system address (R6, R7, R41, R55). -/
def execRegisterWrite (m : Master) (a : Word) (sz : AccSize) (v : Word) (s : State) : Res :=
  .next (busStore m a.toNat (leBytes (accBytes sz) v.toNat) s)

end Sys2Proof.Machine
end

