-- ==== Sys2Proof/Machine/HertisCore.lean ====
section
/-! DEFINITION. How a Hertis-32 core issues (13): instruction words and what they name, control and status registers,
results in flight, what a next instruction raises, entry to a handler, and the local map of an engine. -/

namespace Sys2Proof.Machine

open Reg

/-! Instruction words (R385, R386, R391, R394, R395, R397, R402, R408). -/

/-- The instructions. -/
inductive HOp where
  | add | sub | neg | and | or | xor | andn | slt | sltu | sll | srl | sra | clz | sextb | sexth
  | addi | andi | ori | xori | slti | sltiu | lui | slli | srli | srai
  | mul | mulh | mulhu | div | divu | rem | remu
  | lw | lh | lhu | lb | lbu | lwpi | sw | sh | sb | swpi
  | beq | bne | blt | bge | bltu | bgeu | jal | jalr
  | rpt | rptu | wfe | wfet | waitt | sev | eret | ecall | ebreak
  | csrr | csrw | csrs | csrc
  deriving DecidableEq, Repr

/-- Field `[25:21]` of a word. -/
def fRd (w : Word) : Nat := fld w 25 21
/-- Field `[20:16]` of a word. -/
def fRs1 (w : Word) : Nat := fld w 20 16
/-- Field `[15:11]` of a word. -/
def fRs2 (w : Word) : Nat := fld w 15 11
/-- The 16-bit immediate, sign-extended. -/
def fImm (w : Word) : Word := (w.setWidth 16).signExtend 32
/-- The 16-bit immediate, zero-extended. -/
def fImmZ (w : Word) : Word := (w.setWidth 16).setWidth 32
/-- 4 times the sign-extended 26-bit offset. -/
def fOff26 (w : Word) : Word := (w.setWidth 26).signExtend 32 <<< 2
/-- The CSR number. -/
def fCsr (w : Word) : Nat := fld w 11 0
/-- The line of a SEV. -/
def fLine (w : Word) : Nat := fld w 8 6

/-- Format R with bits `[10:6]` 0. Log entry 118 (DEDUCED). -/
def opR (w : Word) (l : List HOp) : Option HOp := if fld w 10 6 = 0 then l[fld w 5 0]? else none

/-- The integer operations of opcode 0x00. -/
def aluOps : List HOp :=
  [.add, .sub, .neg, .and, .or, .xor, .andn, .slt, .sltu, .sll, .srl, .sra, .clz, .sextb, .sexth]

/-- The instructions of opcode 0x31. Log entry 118 (DEDUCED). -/
def sysOp (w : Word) : Option HOp :=
  if fld w 5 0 = 3 then (if fld w 10 9 = 0 then some .sev else none)
  else opR w [.wfe, .wfet, .waitt, .sev, .eret, .ecall, .ebreak]

/-- A repeat prefix. -/
def rptOp (w : Word) (o : HOp) : Option HOp :=
  if fld w 25 21 = 0 ∧ fld w 14 12 = 0 ∧ (if bit w 15 then fld w 11 0 = 0 else fld w 20 16 = 0) then some o else none

/-- The instruction a word is, if it is one (R385). Log entry 118 (DEDUCED). -/
def opOf (w : Word) : Option HOp :=
  match fld w 31 26 with
  | 0x00 =>
    match opR w aluOps with
    | some o => if (o = .neg ∨ o = .clz ∨ o = .sextb ∨ o = .sexth) ∧ fRs2 w ≠ 0 then none else some o
    | none => none
  | 0x01 => some .addi
  | 0x02 => some .andi
  | 0x03 => some .ori
  | 0x04 => some .xori
  | 0x05 => some .slti
  | 0x06 => some .sltiu
  | 0x07 => if fRs1 w = 0 then some .lui else none
  | 0x08 => if fld w 15 7 = 0 then [HOp.slli, .srli, .srai][fld w 6 5]? else none
  | 0x09 => opR w [.mul, .mulh, .mulhu]
  | 0x0A => opR w [.div, .divu, .rem, .remu]
  | 0x10 => some .lw
  | 0x11 => some .lh
  | 0x12 => some .lhu
  | 0x13 => some .lb
  | 0x14 => some .lbu
  | 0x15 => some .lwpi
  | 0x18 => some .sw
  | 0x19 => some .sh
  | 0x1A => some .sb
  | 0x1B => some .swpi
  | 0x20 => some .beq
  | 0x21 => some .bne
  | 0x22 => some .blt
  | 0x23 => some .bge
  | 0x24 => some .bltu
  | 0x25 => some .bgeu
  | 0x28 => some .jal
  | 0x29 => some .jalr
  | 0x2C => rptOp w .rpt
  | 0x2D => rptOp w .rptu
  | 0x30 =>
    if fld w 13 12 ≠ 0 then none
    else match fld w 15 14 with
      | 0 => if fRs1 w = 0 then some .csrr else none
      | 1 => some .csrw
      | 2 => some .csrs
      | _ => some .csrc
  | 0x31 => sysOp w
  | _ => none

/-- The control transfers with a delay slot (R396). -/
def transfers (o : HOp) : Bool := [HOp.beq, .bne, .blt, .bge, .bltu, .bgeu, .jal, .jalr].contains o

/-- What may not stand in a delay slot (R396). -/
def noSlot (o : HOp) : Bool := transfers o || [HOp.eret, .ecall, .ebreak, .rpt, .rptu].contains o

/-- What may not stand behind a prefix (R399). -/
def noRepeat (o : HOp) : Bool := noSlot o || [HOp.wfe, .wfet, .waitt, .csrw, .csrs, .csrc].contains o

/-- Bytes that a load or store moves; 0 for any other instruction (R391). -/
def memSize (o : HOp) : Nat :=
  match o with
  | .lw | .lwpi | .sw | .swpi => 4
  | .lh | .lhu | .sh => 2
  | .lb | .lbu | .sb => 1
  | _ => 0

/-- Whether a load or store is a store. -/
def isStore (o : HOp) : Bool := [HOp.sw, .sh, .sb, .swpi].contains o

/-- Whether an instruction writes its base register after the access. -/
def postInc (o : HOp) : Bool := decide (o = .lwpi) || decide (o = .swpi)

/-! Control and status registers (R415). -/

/-- How a CSR is accessed: the bits that software writes, or read-only. -/
inductive CsrAcc where
  | rw (mask : Nat)
  | ro
  | wo
  deriving DecidableEq, Repr

/-- Whether core `c` is the SSP's or the MGP's. -/
def priv (c : Nat) : Bool := decide (48 ≤ c)

/-- The CSRs of core `c`. -/
def csrAcc (c n : Nat) : Option CsrAcc :=
  if n = csrSTATUS then some (.rw (if priv c then 0x1F else 0x07))
  else if n = csrEPC ∨ n = csrEADDR ∨ n = csrIMASK0 ∨ (0x030 ≤ n ∧ n ≤ 0x033) then some (.rw m32)
  else if n = csrECAUSE then some (.rw 0xE00000FF)
  else if n = csrEVEC then some (.rw 0xFFFFFFFC)
  else if n = csrRPTC then some (.rw 0xC0001FFF)
  else if n = csrASTAT then some (.rw 3)
  else if n = csrIMASK1 then some (.rw (if priv c then m32 else 0))
  else if n = 0x00A ∨ n = 0x00B ∨ n = 0x010 ∨ n = 0x011 ∨ n = 0x020 then some .ro
  else if priv c = false then none
  else if 0x100 ≤ n ∧ n < 0x108 then some (.rw 0xFFFFF000)
  else if 0x108 ≤ n ∧ n < 0x110 then some (.rw 0xFFFFF00F)
  else if n = 0x130 then some .ro
  else if n = 0x140 then some .wo
  else none

/-- The interrupt target of the SSP or the MGP (R59). -/
def coreTarget (c : Nat) : Nat := if c = sspCore then 3 else 2

/-- The sources of core `c` pending among lines `base` to `base` + 31, before its mask. Log entry 132 (DEDUCED). -/
def coreLines (s : State) (c base : Nat) : Word :=
  if priv c then linesOf s (coreTarget c) base else if base = 0 then evPend s c else 0

/-- What a CSR reads as. Log entries 132 (DEDUCED), 134 (DEDUCED). -/
def csrValue (s : State) (c : Nat) (x : CoreSt) (n : Nat) : Word :=
  if n = 0x00A then (if priv c then coreLines s c 0 else coreLines s c 0 &&& csrHeld c x csrIMASK0)
  else if n = 0x00B then coreLines s c 32
  else if n = 0x010 then w32 x.cyc
  else if n = 0x011 then x.cycHi
  else if n = 0x020 then
    if priv c then w32 ((c - 46) * 0x1000000 + 0x3F0001) else w32 (0x1000000 + c * 0x10000 + 1)
  else if n = 0x130 then w32 (nb (decide (c = sspCore)))
  else csrHeld c x n

/-- Bit `i` of `STATUS`. -/
def statB (c : Nat) (x : CoreSt) (i : Nat) : Bool := bit (csrHeld c x csrSTATUS) i

/-- Whether the core is in TASK mode. -/
def inTask (c : Nat) (x : CoreSt) : Bool := priv c && !(statB c x 3)

/-! Results in flight (R381–R384, R389). -/

/-- Puts a result in flight: in order of landing, then of issue. -/
def landPut (l : List Landing) (r : Landing) : List Landing :=
  match l with
  | [] => [r]
  | y :: t => if r.at_ < y.at_ then r :: y :: t else y :: landPut t r

/-- One result lands, among those that land with it: a set of `ASTAT.DZ` outlasts a write of `ASTAT` in its cycle (R421).
Log entry 121 (DEDUCED). -/
def landOne (c : Nat) (all : List Landing) (x : CoreSt) (r : Landing) : CoreSt :=
  let y := if r.dest < 32 then gset x r.dest r.val
    else if r.dest = 32 + csrASTAT ∧ (all.any fun z => z.dz && decide (z.at_ = r.at_)) = true then
      csrSet x csrASTAT (setBit r.val 0 true)
    else csrSet x (r.dest - 32) r.val
  if r.dz then csrSet y csrASTAT (setBit (csrHeld c y csrASTAT) 0 true) else y

/-- Every result that lands up to cycle `t`. -/
def landTo (c : Nat) (x : CoreSt) (t : Nat) : CoreSt :=
  let now := x.land.filter fun r => decide (r.at_ ≤ t)
  { now.foldl (landOne c now) x with land := x.land.filter fun r => decide (t < r.at_) }

/-- A result of the instruction that issues now, `d` cycles away. -/
def flies (x : CoreSt) (d dest : Nat) (v : Word) : CoreSt :=
  { x with land := landPut x.land { at_ := x.cyc + d, dest := dest, val := v, divide := false, dz := false } }

/-- `ASTAT.LATE` is set: a write of `ASTAT` that lands in the next cycle does not clear it (R404, R421).
Log entry 121 (DEDUCED). -/
def setLate (c : Nat) (x : CoreSt) : CoreSt :=
  let y := csrSet x csrASTAT (setBit (csrHeld c x csrASTAT) 1 true)
  { y with land := y.land.map fun r =>
      if r.dest = 32 + csrASTAT ∧ r.at_ = x.cyc + 1 then { r with val := setBit r.val 1 true } else r }

/-! Where a core runs. -/

/-- Whether core `c` can issue now: the device is ACTIVE, and an engine has silicon and has not been declared dead
(R370, R421, R519). Log entry 129 (DEDUCED). -/
def coreUp (s : State) (c : Nat) : Bool :=
  awake s && (priv c || ((physOf s c).isSome && engAlive s c))

/-- The master number of core `c` on the fabric. -/
def coreMaster (c : Nat) : Master := if c = sspCore then mSSP else mMGP

/-- Multiples of 100 MHz of the core's clock (R377, R527). -/
def coreClock (s : State) (c : Nat) : Nat := if priv c then 4 else 4 - getF s (CLK_CLUSTER_STEP (c / 3)) 5 4

/-- A cycle that an engine spends outside its wait instructions counts (R375). Log entry 131 (DEDUCED). -/
def busyCycle (o : HOp) (s : State) (c : Nat) : State :=
  if priv c ∨ [HOp.wfe, .wfet, .waitt].contains o then s
  else match physOf s c with
    | some p => bump s (PEN_BUSY_CYCLES p)
    | none => s

/-- Whether a TASK access of a core to an address is permitted: bit 2 `X`, 1 `W`, 0 `R` (R418). -/
def mpuOk (c : Nat) (x : CoreSt) (a k : Nat) : Bool :=
  let pg := a / 4096
  match (List.range 8).find? fun i =>
    bit (csrHeld c x (0x108 + i)) 3 && decide (fld (csrHeld c x (0x100 + i)) 31 12 ≤ pg) &&
      decide (pg ≤ fld (csrHeld c x (0x108 + i)) 31 12) with
  | some i => bit (csrHeld c x (0x108 + i)) k
  | none => false

/-- What the core at hand raises: a code and the value of `EADDR` (R409). -/
abbrev Raise := Nat × Word

/-- Code ILLEGAL_INSN. -/
abbrev exIllegal : Nat := 1
/-- Code FETCH. -/
abbrev exFetch : Nat := 2
/-- Code LOAD_ERR. -/
abbrev exLoad : Nat := 3
/-- Code STORE_ERR. -/
abbrev exStore : Nat := 4
/-- Code MISALIGNED. -/
abbrev exAlign : Nat := 5
/-- Code ECALL. -/
abbrev exEcall : Nat := 6
/-- Code EBREAK. -/
abbrev exEbreak : Nat := 7
/-- Code PRIV. -/
abbrev exPriv : Nat := 8
/-- Code PROT. -/
abbrev exProt : Nat := 9
/-- Code STORE_ASYNC. -/
abbrev exAsync : Nat := 0xA
/-- Code TCM_ECC. -/
abbrev exEcc : Nat := 0xB

/-- Whether an address lies in boot ROM. -/
def inRom (a : Nat) : Bool := decide (0x09000000 ≤ a) && decide (a < 0x09040000)

/-- The word that core `c` fetches at an address, or what the fetch raises (R377, R418). Log entry 117 (DEDUCED). -/
def fetchWord (s : State) (c : Nat) (x : CoreSt) (pc : Word) : Raise ⊕ Word :=
  let a := pc.toNat / 4 * 4
  if priv c then
    match (match ownKey (coreMaster c) a 4 with
        | some k => if regionOf a 4 = .own then some k else none
        | none => none), inRom a with
    | some k, _ => if inTask c x && !(mpuOk c x a 2) then .inl (exProt, pc) else .inr (w32 (leNat (memBytes s k 4)))
    | none, true => if inTask c x && !(mpuOk c x a 2) then .inl (exProt, pc) else .inr (w32 (leNat (memBytes s a 4)))
    | none, false => .inl (exFetch, pc)
  else if a < 0x10000 then .inr (w32 (leNat (tcmBytes s c a 4)))
  else .inl (exFetch, pc)

/-! What the next instruction raises. -/

/-- The address of a load or store. -/
def memAddr (o : HOp) (x : CoreSt) (w : Word) : Word := if postInc o then greg x (fRs1 w) else greg x (fRs1 w) + fImm w

/-- Whether an address lies on an engine's local peripherals (R42). Log entry 130 (DEDUCED). -/
def inPeriph (a : Nat) : Bool := decide (0xF0000 ≤ a) && decide (a < 0xF4000)

/-- What a load or store raises at issue (R393, R418). Log entry 119 (DEDUCED). -/
def memRaise (s : State) (c : Nat) (x : CoreSt) (o : HOp) (w : Word) : Option Raise :=
  let _ := s
  let a := memAddr o x w
  let n := memSize o
  if n = 0 then none
  else if a.toNat % n ≠ 0 then some (exAlign, a)
  else if priv c then (if inTask c x && !(mpuOk c x a.toNat (nb (isStore o))) then some (exProt, a) else none)
  else if inDtcm a.toNat n || (inPeriph a.toNat && decide (n = 4)) then none
  else some (if isStore o then exStore else exLoad, a)

/-- Whether a CSR instruction writes: CSRS and CSRC of g0 write nothing to a read-only register (R408).
Log entry 120 (DEDUCED). -/
def csrWrites (c : Nat) (o : HOp) (w : Word) : Bool :=
  decide (o = .csrw) || ((decide (o = .csrs) || decide (o = .csrc)) &&
    !(decide (fRs1 w = 0) && decide (csrAcc c (fCsr w) = some .ro)))

/-- Whether an instruction is a CSR access. -/
def isCsr (o : HOp) : Bool := [HOp.csrr, .csrw, .csrs, .csrc].contains o

/-- Whether the instruction is illegal where it stands (R392, R395, R396, R399, R406, R408, R415).
Log entry 119 (DEDUCED). -/
def illegal (s : State) (c : Nat) (x : CoreSt) (o : HOp) (w : Word) : Bool :=
  (x.delay.isSome && noSlot o) ||
  ((decide (o = .lwpi) || decide (o = .swpi)) && decide (fRs1 w = 0)) ||
  (decide (o = .lwpi) && decide (fRd w = fRs1 w)) ||
  (decide (o = .jalr) && decide (fRd w ≠ 0) && decide (fRd w = fRs1 w)) ||
  (decide (o = .sev) && priv c) ||
  (isCsr o && (match csrAcc c (fCsr w) with
    | none => true
    | some .ro => csrWrites c o w
    | some _ => false)) ||
  ((decide (o = .rpt) || decide (o = .rptu)) && (match fetchWord s c x (x.pc + 4) with
    | .inr v => (match opOf v with
      | some o2 => noRepeat o2
      | none => false)
    | .inl _ => false))

/-- Whether the instruction is privileged (R417). Log entry 119 (DEDUCED). -/
def privileged (c : Nat) (o : HOp) (w : Word) : Bool :=
  decide (o = .eret) || (isCsr o && (decide (0x100 ≤ fCsr w) ||
    (csrWrites c o w && !(decide (fCsr w = csrASTAT) || (decide (0x030 ≤ fCsr w) && decide (fCsr w ≤ 0x033))))))

/-- Whether EBREAK halts the core for the debugger (R89, R90, R420). Log entry 135 (DEDUCED). -/
def haltsFor (s : State) (c : Nat) : Bool := decide (c ≠ sspCore) && dbgScope s 2

/-- What the instruction raises, if it raises anything (R409).
Log entries 117 (DEDUCED), 119 (DEDUCED), 122 (DEDUCED), 133 (DEDUCED). -/
def raises (s : State) (c : Nat) (x : CoreSt) (o : HOp) (w : Word) : Option Raise :=
  if illegal s c x o w then some (exIllegal, w)
  else if inTask c x && privileged c o w then some (exPriv, w)
  else match o with
    | .eret => if statB c x 2 then none else some (exIllegal, w)
    | .ecall => some (exEcall, 0)
    | .ebreak => if haltsFor s c then none else some (exEbreak, 0)
    | _ => memRaise s c x o w

/-! Interrupts and entry to a handler (R410–R413). -/

/-- The lowest line of a word. -/
def lowestLine (w : Word) : Option Nat := (List.range 32).find? fun i => bit w i

/-- The line whose interrupt would be taken at this boundary, if interrupts are open. -/
def pendingLine (s : State) (c : Nat) (x : CoreSt) : Option Nat :=
  if statB c x 0 = true ∧ statB c x 2 = false then
    match lowestLine (coreLines s c 0 &&& csrHeld c x csrIMASK0) with
    | some i => some i
    | none =>
      if priv c then (lowestLine (coreLines s c 32 &&& csrHeld c x csrIMASK1)).map fun i => 32 + i else none
  else none

/-- The interrupt that is taken before the next instruction: never between a control transfer and its delay slot, nor
during RPTU (R401, R410). -/
def interruptDue (s : State) (c : Nat) (x : CoreSt) : Option Nat :=
  if x.delay.isSome ∨ (match x.rpt with
      | some r => r.unint
      | none => false) = true then none
  else pendingLine s c x

/-- `STATUS` after entry. -/
def entryStatus (c : Nat) (v : Word) : Word :=
  let v1 := setBit (setBit (setBit v 1 (bit v 0)) 0 false) 2 true
  if priv c then setBit (setBit v1 4 (bit v 3)) 3 true else v1

/-- `EPC` at entry: the branch of a delay slot, the prefix of a repeat, or the instruction itself. -/
def entryEpc (x : CoreSt) : Word :=
  match x.delay, x.rpt with
  | some d, _ => d.1
  | none, some r => r.pc
  | none, none => x.pc

/-- The core enters its handler with the cause given: every result in flight lands first (R412).
Log entries 123 (DEDUCED), 126 (DEDUCED). -/
def enter (c : Nat) (x : CoreSt) (cause : Word) (eaddr : Option Word) : CoreSt :=
  let last := x.land.foldl (fun m r => max m r.at_) (x.cyc + 2)
  let y := landTo c x last
  let y1 := csrSet (csrSet y csrEPC (entryEpc x)) csrECAUSE cause
  let y2 := csrSet y1 csrSTATUS (entryStatus c (csrHeld c y1 csrSTATUS))
  let y3 := match eaddr with
    | some a => csrSet y2 csrEADDR a
    | none => y2
  let y4 := match x.rpt with
    | some r => csrSet y3 csrRPTC (w32 (0x80000000 + nb r.unint * 0x40000000 + r.left))
    | none => y3
  { y4 with run := .run, pc := csrHeld c y csrEVEC, delay := none, rpt := none, rptFrom := false, wait := none, far := none
            cyc := last }

/-- Entry for an exception; while `EXL` = 1 the core stops (R413). Log entry 123 (DEDUCED). -/
def takeException (c : Nat) (x : CoreSt) (r : Raise) : CoreSt :=
  if statB c x 2 then { x with run := .stopped }
  else enter c x (w32 (nb x.delay.isSome * 0x40000000 + nb x.rpt.isSome * 0x20000000 + r.1)) (some r.2)

/-! Issue (R380). -/

/-- The instruction is done: the next one issues in the next cycle, from the slot's target, the same address of a repeat,
or the next address. Log entry 131 (DEDUCED). -/
def retire (x : CoreSt) : CoreSt :=
  let y := { x with cyc := x.cyc + 1, rptFrom := false }
  match x.delay, x.rpt with
  | some d, _ => { y with pc := d.2, delay := none }
  | none, some r =>
    if r.left ≤ 1 then { y with pc := x.pc + 4, rpt := none } else { y with rpt := some { r with left := r.left - 1 } }
  | none, none => { y with pc := x.pc + 4 }

/-- A fetch from boot ROM stalls issue for its latency, which is left open (R419). Log entry 127 (DESIGN CHOICE). -/
def romStall (c : Nat) (x : CoreSt) (s : State) : CoreSt × State :=
  if priv c && inRom x.pc.toNat then
    let f := fresh s
    ({ x with cyc := x.cyc + f.1.toNat % 65536 }, f.2)
  else (x, s)

/-- The core at the boundary before its next instruction, with the results of its cycle landed; `none` where it issues
nothing, or an interrupt comes first (R411). Log entry 122 (DEDUCED). -/
def atBoundary (s : State) (c : Nat) : Option (CoreSt × State) :=
  let x := coreOf s c
  if x.run = .run ∧ coreUp s c = true then
    let p := romStall c x s
    let y := landTo c p.1 p.1.cyc
    match interruptDue s c y with
    | some _ => none
    | none => some (y, p.2)
  else none

/-- Core `c` issues its next instruction, which is an `o`: what it raises is taken, else `body` gives what the instruction
does with its word, the core and the rest of the block. -/
def issue (o : HOp) (c : Nat) (body : Word → CoreSt → State → State) (s : State) : State :=
  match atBoundary s c with
  | none => s
  | some (x, t) =>
    match fetchWord t c x x.pc with
    | .inl _ => s
    | .inr w =>
      if opOf w = some o then
        match raises t c x o w with
        | some r => coreSet t c (takeException c x r)
        | none => body w x (busyCycle o t c)
      else s

/-- A register result at distance `d`. -/
def giveReg (c d : Nat) (v : Word) (w : Word) (x : CoreSt) (s : State) : State :=
  coreSet s c (retire (flies x d (fRd w) v))

/-- An operation on two registers (R386). -/
def issueR (o : HOp) (c : Nat) (f : Word → Word → Word) (s : State) : State :=
  issue o c (fun w x t => giveReg c 1 (f (greg x (fRs1 w)) (greg x (fRs2 w))) w x t) s

/-- An operation on a register and the instruction word's immediate. -/
def issueI (o : HOp) (c : Nat) (f : Word → Word → Word) (s : State) : State :=
  issue o c (fun w x t => giveReg c 1 (f (greg x (fRs1 w)) w) w x t) s

/-- A multiply: distance 3 (R381). -/
def issueM (o : HOp) (c : Nat) (f : Word → Word → Word) (s : State) : State :=
  issue o c (fun w x t => giveReg c 3 (f (greg x (fRs1 w)) (greg x (fRs2 w))) w x t) s

/-- A divide: distance 20; an earlier one in flight is abandoned (R382). -/
def issueD (o : HOp) (c : Nat) (f : Word → Word → Word) (s : State) : State :=
  issue o c (fun w x t =>
    let a := greg x (fRs1 w)
    let b := greg x (fRs2 w)
    let kept := x.land.filter fun r => !r.divide
    let r : Landing := { at_ := x.cyc + 20, dest := fRd w, val := f a b, divide := true, dz := decide (b = 0) }
    coreSet t c (retire { x with land := landPut kept r })) s

/-! The local map of an engine (R42, R353). -/

/-- Slot and register of a queue-head offset. -/
def qhReg (a : Nat) : Option (Nat × Nat) :=
  if 0xF1000 ≤ a ∧ a < 0xF1200 then some ((a - 0xF1000) / 64, (a - 0xF1000) % 64) else none

/-- What a ring pointer or base of a slot reads as. -/
def ringReg (s : State) (r : Option ChanRing) (f : ChanRing → Nat) (msk : Nat) : Word :=
  match r with
  | some x => getR s (f x) &&& w32 msk
  | none => 0

/-- A load from a queue-head register. -/
def qhLoad (n k off : Nat) (s : State) : State × Word :=
  let q := qhSlot s n k
  let tx := if q.st = 0 then none else txRing q.chan
  let rx := if q.st = 0 then none else rxRing q.chan
  let fifo : Option Nat := if q.st ≠ 0 ∧ chanKind q.chan = 3 then some (q.chan - 384) else none
  match off with
  | 0x00 => (s, w32 (q.st * 0x40000000 + nb q.ready * 0x20000000 + q.chan))
  | 0x04 => (s, ringReg s tx ChanRing.head 0xFFF)
  | 0x08 => (s, ringReg s tx ChanRing.tail 0xFFF)
  | 0x0C => (s, ringReg s rx ChanRing.head 0xFFF)
  | 0x10 => (s, ringReg s rx ChanRing.tail 0xFFF)
  | 0x14 => (s, ringReg s tx ChanRing.base m32)
  | 0x18 => (s, ringReg s rx ChanRing.base m32)
  | 0x1C => (s, ringReg s rx ChanRing.size 0x1FFF <<< 16 ||| ringReg s tx ChanRing.size 0x1FFF)
  | 0x20 => match fifo with
    | some f => fiqPop s f
    | none => (s, 0xFFFF0000#32)
  | 0x24 => match fifo with
    | some f => (s, getR s (FIQ_TAG_LAST f))
    | none => (s, 0)
  | 0x28 => match fifo with
    | some f => (s, fiqCountRead s f)
    | none => (s, 0)
  | 0x30 => (s, if 2 ≤ q.st then w32 (migAddr q.mig) else 0)
  | _ => (s, 0)

/-- `SELF`. -/
def selfReg (s : State) (n : Nat) : Word :=
  w32 (nb (admits s n) * 0x80000000 + getF s (CLK_CLUSTER_STEP (n / 3)) 5 4 * 0x10000000 + n * 0x10000 + n / 3 * 0x100)

/-- A load from a local peripheral register; it takes its effect in its issue cycle (R384). Offsets not listed read 0.
Log entry 130 (DEDUCED). -/
def periphLoad (n a : Nat) (s : State) : State × Word :=
  match qhReg a with
  | some (k, off) => qhLoad n k off s
  | none =>
    match a with
    | 0xF0000 | 0xF0004 | 0xF0008 | 0xF1408 | 0xF2000 | 0xF2004 | 0xF2008 | 0xF200C | 0xF3008 | 0xF3010 | 0xF3014 |
      0xF3018 | 0xF301C | 0xF3020 => (s, getR s (engKey n a))
    | 0xF0010 => dmaCplRead n s
    | 0xF0014 => dmaLevel n s
    | 0xF1200 => (s, w32 (inLevel s n))
    | 0xF1400 => jobNext n s
    | 0xF1804 => (s, w32 (s.gate.svc.filter fun r => decide (r.engine = n)).length)
    | 0xF201C => (s, crcResult s n)
    | 0xF3000 => (s, evPend s n)
    | 0xF300C => engTnow n s
    | 0xF3028 => (s, selfReg s n)
    | _ => (s, 0)

/-- A store to a queue-head register. -/
def qhStore (n k off : Nat) (v : Word) (s : State) : State :=
  match off with
  | 0x04 => qhTxHead s n k v
  | 0x10 => qhRxTail s n k v
  | 0x2C =>
    let s1 := setR (if bit v 0 then migReady s n k else s) (engKey n (0xF102C + 64 * k)) v
    if bit v 1 then migDone s1 n k else s1
  | _ => s

/-- A store to a local peripheral register. Log entry 130 (DEDUCED). -/
def periphStore (n a : Nat) (v : Word) (s : State) : State :=
  match qhReg a with
  | some (k, off) => qhStore n k off v s
  | none =>
    match a with
    | 0xF0000 | 0xF0004 | 0xF0008 | 0xF2004 | 0xF2008 | 0xF200C | 0xF3008 | 0xF3014 | 0xF301C => setR s (engKey n a) v
    | 0xF1408 => setR s (engKey n a) (v &&& 0xFF#32)
    | 0xF2000 => setR s (engKey n a) (v &&& 0x33#32)
    | 0xF000C => dmaPush s n v
    | 0xF1404 => jobEnd s n v
    | 0xF1800 => svcPost n v.toNat s
    | 0xF2010 => crcData s n .b1 v
    | 0xF2014 => crcData s n .b2 v
    | 0xF2018 => crcData s n .b4 v
    | 0xF3004 => setR s (engKey n 0xF3000) (getR s (engKey n 0xF3000) &&& ~~~ v)
    | 0xF3018 => timerArm s n 0 v
    | 0xF3020 => timerArm s n 1 v
    | 0xF3024 => if v = 0x5A5A#32 then engKick s n else s
    | 0xF302C => ckptCommit s n v
    | _ => s

/-! Loads and stores (R391–R393, R419). -/

/-- A loaded value, extended as the instruction says. -/
def loadExt (o : HOp) (v : Word) : Word :=
  match o with
  | .lh => (v.setWidth 16).signExtend 32
  | .lhu => (v.setWidth 16).setWidth 32
  | .lb => (v.setWidth 8).signExtend 32
  | .lbu => (v.setWidth 8).setWidth 32
  | _ => v

/-- The key of an access of the SSP or the MGP to its own TCM. -/
def nearKey (c a n : Nat) : Option Nat := if regionOf a n = .own then ownKey (coreMaster c) a n else none

/-- The new base of a post-increment form flies, with distance 1. -/
def baseFlies (o : HOp) (w : Word) (x : CoreSt) : CoreSt :=
  if postInc o then flies x 1 (fRs1 w) (greg x (fRs1 w) + fImm w) else x

/-- A load: near loads have distance 3, a far load stops issue (R419). -/
def issueL (o : HOp) (c : Nat) (s : State) : State :=
  issue o c (fun w x t =>
    let a := memAddr o x w
    let n := memSize o
    let fin (u : State) (v : Word) : State := coreSet u c (retire (flies (baseFlies o w x) 3 (fRd w) (loadExt o v)))
    if priv c then
      match nearKey c a.toNat n with
      | some k => fin t (w32 (leNat (memBytes t k n)))
      | none => coreSet t c { x with run := .far, far := some { addr := a, word := w } }
    else if inDtcm a.toNat n then fin t (w32 (leNat (tcmBytes t c a.toNat n)))
    else
      let r := periphLoad c a.toNat t
      fin r.1 r.2) s

/-- A posted far store: a bus error comes back later (R419). Log entry 124 (DEDUCED). -/
def farStore (c : Nat) (a : Word) (l : List Byte) (s : State) : State :=
  let t := busStore (coreMaster c) a.toNat l s
  match t.resp with
  | .busErr => coreMod { t with resp := s.resp } c fun x => { x with async := x.async ++ [a] }
  | _ => { t with resp := s.resp }

/-- A store: it lands in its issue cycle (R384). -/
def issueS (o : HOp) (c : Nat) (s : State) : State :=
  issue o c (fun w x t =>
    let a := memAddr o x w
    let n := memSize o
    let v := greg x (fRd w)
    let l := leBytes n v.toNat
    let u := coreSet t c (retire (baseFlies o w x))
    if priv c then
      match nearKey c a.toNat n with
      | some k => { u with mem := memPut u.mem k l }
      | none => farStore c a l u
    else if inDtcm a.toNat n then tcmWrite u c a.toNat l
    else periphStore c a.toNat v u) s

/-- The data of a far load arrive, after a time that is left open: they land before the next instruction issues; a bus
error raises LOAD_ERR at the load (R419). Log entry 127 (DESIGN CHOICE). -/
def farData (c : Nat) (s : State) : State :=
  let x := coreOf s c
  match x.far with
  | none => s
  | some f =>
    if x.run ≠ .far ∨ coreUp s c = false then s
    else
      let o := (opOf f.word).getD .lw
      let t := busLoad (coreMaster c) f.addr.toNat (memSize o) s
      let u := fresh { t with resp := s.resp }
      let y := { x with run := .run, far := none }
      match t.resp with
      | .busErr => coreSet { t with resp := s.resp } c (takeException c y (exLoad, f.addr))
      | .none => s
      | .ok v =>
        let cyc := x.cyc + 1 + u.1.toNat % 65536
        let r : Landing := { at_ := cyc, dest := fRd f.word, val := loadExt o v, divide := false, dz := false }
        let z := baseFlies o f.word y
        coreSet u.2 c { retire { z with land := landPut z.land r } with cyc := cyc }

/-! Branches, jumps and repeats (R394–R401). -/

/-- A control transfer issues: its delay slot is next, and then `target`. -/
def transfer (x : CoreSt) (target : Word) : CoreSt := { retire x with delay := some (x.pc, target) }

/-- A compare-and-branch. -/
def issueB (o : HOp) (c : Nat) (f : Word → Word → Bool) (s : State) : State :=
  issue o c (fun w x t =>
    let taken := f (greg x (fRd w)) (greg x (fRs1 w))
    coreSet t c (transfer x (if taken then x.pc + (fImm w <<< 2) else x.pc + 8))) s

/-- The count of a prefix: from `RPTC` at the first fetch after an ERET with `VALID` = 1 (R398, R400). -/
def rptCount (c : Nat) (x : CoreSt) (w : Word) : Nat :=
  if x.rptFrom && bit (csrHeld c x csrRPTC) 31 then min 4096 (fld (csrHeld c x csrRPTC) 12 0)
  else if bit w 15 then min 4096 (greg x (fRs1 w)).toNat
  else fld w 11 0

/-- A repeat prefix. -/
def issueP (o : HOp) (c : Nat) (s : State) : State :=
  issue o c (fun w x t =>
    let n := rptCount c x w
    let y := if x.rptFrom && bit (csrHeld c x csrRPTC) 31 then
        csrSet x csrRPTC (setBit (csrHeld c x csrRPTC) 31 false) else x
    let z := retire y
    coreSet t c (if n = 0 then { z with pc := x.pc + 8 }
      else { z with rpt := some { pc := x.pc, left := n, unint := decide (o = .rptu) } })) s

/-! Waits (R402–R407). -/

/-- The wake condition (R403). -/
def wakeCond (s : State) (c : Nat) (x : CoreSt) : Bool :=
  if priv c then
    decide (coreLines s c 0 &&& csrHeld c x csrIMASK0 ≠ 0) || decide (coreLines s c 32 &&& csrHeld c x csrIMASK1 ≠ 0)
  else decide (evPend s c &&& getR s (engKey c 0xF3008) ≠ 0)

/-- The core begins to wait; the wait instruction stays the next one. -/
def waitBegin (c kind : Nat) (target : DWord) (w : Word) (x : CoreSt) (s : State) : State :=
  coreSet s c { x with run := .wait, wait := some { kind := kind, rd := fRd w, target := target, since := s.time.tense, late := false } }

/-- The cycles that core `c` has waited. -/
def waited (s : State) (c : Nat) (q : CoreWait) : Nat := (s.time.tense - q.since).toNat * coreClock s c / 10

/-- A wait ends now: its cycles have passed, `LATE` is set where its time passed in DOZE, and WFET writes what ended it.
Log entry 128 (DEDUCED). -/
def waitDone (s : State) (c : Nat) (x : CoreSt) (q : CoreWait) : State :=
  let cond := wakeCond s c (landTo c x (x.cyc + waited s c q))
  let time := decide (q.target ≤ coreTense s)
  let y := { landTo c x (x.cyc + waited s c q) with cyc := x.cyc + waited s c q, run := .run, wait := none }
  let z := if q.late then setLate c y else y
  coreSet s c (retire (if q.kind = 1 then flies z 1 q.rd (w32 (nb cond + 2 * nb time)) else z))

/-- The wait of core `c` ends: its wake condition holds, or the clock advances to its time. Log entry 128 (DEDUCED). -/
def waitOver (c : Nat) (s : State) : State :=
  let x := coreOf s c
  match x.wait with
  | none => s
  | some q =>
    if x.run ≠ .wait ∨ coreUp s c = false then s
    else if q.kind ≠ 2 ∧ wakeCond s c (landTo c x (x.cyc + waited s c q)) = true then waitDone s c x q
    else if q.kind = 0 then s
    else waitDone (advanceCore s (coreClock s c) q.target.toNat) c x q

/-! CSR access (R408). -/

/-- A CSR instruction: `f` gives what is written of the old value and rs1. Log entry 120 (DEDUCED). -/
def issueC (o : HOp) (c : Nat) (f : Word → Word → Word) (s : State) : State :=
  issue o c (fun w x t =>
    let n := fCsr w
    let old := if n = 0x140 then 0 else csrValue t c x n
    let new := f old (greg x (fRs1 w))
    let x1 := if n = 0x010 then { x with cycHi := w32 (x.cyc / 0x100000000) } else x
    let x2 := flies x1 1 (fRd w) old
    let x3 := if csrWrites c o w then
        match csrAcc c n with
        | some (.rw m) => flies x2 3 (32 + n) (new &&& w32 m)
        | some .wo => if new = 0x5A5A#32 then { x2 with wdtAt := t.time.tense } else x2
        | _ => x2
      else x2
    coreSet t c (retire x3)) s

end Sys2Proof.Machine
end

