-- ==== Sys2Proof/Machine/Hertis.lean ====
section
/-! DEFINITION. The Hertis-32 instructions (13), each as core `c` issues it, and the entries to handlers. -/

namespace Sys2Proof.Machine

/-! Integer operations (R386–R390). -/

/-- ADD: the sum (R386, R387). -/
def execH32Add (c : Fin 50) (s : State) : Res := .next (issueR .add c.val (fun a b => a + b) s)

/-- SUB: the difference (R386, R387). -/
def execH32Sub (c : Fin 50) (s : State) : Res := .next (issueR .sub c.val (fun a b => a - b) s)

/-- NEG: 0 less rs1 (R386, R387). -/
def execH32Neg (c : Fin 50) (s : State) : Res := .next (issueR .neg c.val (fun a _ => 0 - a) s)

/-- AND: bitwise and (R386). -/
def execH32And (c : Fin 50) (s : State) : Res := .next (issueR .and c.val (fun a b => a &&& b) s)

/-- OR: bitwise or (R386). -/
def execH32Or (c : Fin 50) (s : State) : Res := .next (issueR .or c.val (fun a b => a ||| b) s)

/-- XOR: bitwise exclusive or (R386). -/
def execH32Xor (c : Fin 50) (s : State) : Res := .next (issueR .xor c.val (fun a b => a ^^^ b) s)

/-- ANDN: rs1 and the complement of rs2 (R386). -/
def execH32Andn (c : Fin 50) (s : State) : Res := .next (issueR .andn c.val (fun a b => a &&& ~~~ b) s)

/-- SLT: signed comparison (R386). -/
def execH32Slt (c : Fin 50) (s : State) : Res := .next (issueR .slt c.val (fun a b => w32 (nb (a.slt b))) s)

/-- SLTU: unsigned comparison (R386). -/
def execH32Sltu (c : Fin 50) (s : State) : Res := .next (issueR .sltu c.val (fun a b => w32 (nb (a.ult b))) s)

/-- SLL: left shift by rs2[5:0] (R386, R390). -/
def execH32Sll (c : Fin 50) (s : State) : Res := .next (issueR .sll c.val (fun a b => a <<< fld b 5 0) s)

/-- SRL: right shift, zero fill (R386, R390). -/
def execH32Srl (c : Fin 50) (s : State) : Res := .next (issueR .srl c.val (fun a b => a >>> fld b 5 0) s)

/-- SRA: right shift, sign fill (R386, R390). -/
def execH32Sra (c : Fin 50) (s : State) : Res := .next (issueR .sra c.val (fun a b => a.sshiftRight (fld b 5 0)) s)

/-- CLZ: leading zero bits (R386). -/
def execH32Clz (c : Fin 50) (s : State) : Res := .next (issueR .clz c.val (fun a _ => w32 (clz32 a)) s)

/-- SEXTB: the low byte, sign-extended (R386). -/
def execH32Sextb (c : Fin 50) (s : State) : Res := .next (issueR .sextb c.val (fun a _ => (a.setWidth 8).signExtend 32) s)

/-- SEXTH: the low halfword, sign-extended (R386). -/
def execH32Sexth (c : Fin 50) (s : State) : Res := .next (issueR .sexth c.val (fun a _ => (a.setWidth 16).signExtend 32) s)

/-- ADDI: the sum with the sign-extended immediate (R386). -/
def execH32Addi (c : Fin 50) (s : State) : Res := .next (issueI .addi c.val (fun a w => a + fImm w) s)

/-- ANDI: and with the zero-extended immediate (R386). -/
def execH32Andi (c : Fin 50) (s : State) : Res := .next (issueI .andi c.val (fun a w => a &&& fImmZ w) s)

/-- ORI: or with the zero-extended immediate (R386). -/
def execH32Ori (c : Fin 50) (s : State) : Res := .next (issueI .ori c.val (fun a w => a ||| fImmZ w) s)

/-- XORI: exclusive or with the zero-extended immediate (R386). -/
def execH32Xori (c : Fin 50) (s : State) : Res := .next (issueI .xori c.val (fun a w => a ^^^ fImmZ w) s)

/-- SLTI: signed comparison with the sign-extended immediate (R386). -/
def execH32Slti (c : Fin 50) (s : State) : Res := .next (issueI .slti c.val (fun a w => w32 (nb (a.slt (fImm w)))) s)

/-- SLTIU: unsigned comparison with the sign-extended immediate (R386). -/
def execH32Sltiu (c : Fin 50) (s : State) : Res := .next (issueI .sltiu c.val (fun a w => w32 (nb (a.ult (fImm w)))) s)

/-- LUI: the immediate in the high halfword (R386). -/
def execH32Lui (c : Fin 50) (s : State) : Res := .next (issueI .lui c.val (fun _ w => w <<< 16) s)

/-- SLLI: left shift by imm[4:0] (R386). -/
def execH32Slli (c : Fin 50) (s : State) : Res := .next (issueI .slli c.val (fun a w => a <<< fld w 4 0) s)

/-- SRLI: right shift, zero fill (R386). -/
def execH32Srli (c : Fin 50) (s : State) : Res := .next (issueI .srli c.val (fun a w => a >>> fld w 4 0) s)

/-- SRAI: right shift, sign fill (R386). -/
def execH32Srai (c : Fin 50) (s : State) : Res := .next (issueI .srai c.val (fun a w => a.sshiftRight (fld w 4 0)) s)

/-- MUL: bits [31:0] of the product (R386). -/
def execH32Mul (c : Fin 50) (s : State) : Res := 
  .next (issueM .mul c.val (fun a b => a * b) s)

/-- MULH: bits [63:32] of the signed product (R386). -/
def execH32Mulh (c : Fin 50) (s : State) : Res := 
  .next (issueM .mulh c.val (fun a b => ((a.signExtend 64 * b.signExtend 64) >>> 32).setWidth 32) s)

/-- MULHU: bits [63:32] of the unsigned product (R386). -/
def execH32Mulhu (c : Fin 50) (s : State) : Res := 
  .next (issueM .mulhu c.val (fun a b => ((a.setWidth 64 * b.setWidth 64) >>> 32).setWidth 32) s)

/-- DIV: signed quotient, truncated toward zero; by 0 it is all ones (R386, R388, R389). -/
def execH32Div (c : Fin 50) (s : State) : Res := 
  .next (issueD .div c.val (fun a b => if b = 0 then 0xFFFFFFFF#32 else a.sdiv b) s)

/-- DIVU: unsigned quotient; by 0 it is all ones (R386, R389). -/
def execH32Divu (c : Fin 50) (s : State) : Res := 
  .next (issueD .divu c.val (fun a b => if b = 0 then 0xFFFFFFFF#32 else a / b) s)

/-- REM: signed remainder with the sign of rs1; by 0 it is the dividend (R386, R388, R389). -/
def execH32Rem (c : Fin 50) (s : State) : Res := 
  .next (issueD .rem c.val (fun a b => if b = 0 then a else a.srem b) s)

/-- REMU: unsigned remainder; by 0 it is the dividend (R386, R389). -/
def execH32Remu (c : Fin 50) (s : State) : Res := 
  .next (issueD .remu c.val (fun a b => if b = 0 then a else a % b) s)

/-! Loads and stores (R391–R393, R419). -/

/-- LW: loads a word. -/
def execH32Lw (c : Fin 50) (s : State) : Res := .next (issueL .lw c.val s)

/-- LH: loads a halfword, sign-extended. -/
def execH32Lh (c : Fin 50) (s : State) : Res := .next (issueL .lh c.val s)

/-- LHU: loads a halfword, zero-extended. -/
def execH32Lhu (c : Fin 50) (s : State) : Res := .next (issueL .lhu c.val s)

/-- LB: loads a byte, sign-extended. -/
def execH32Lb (c : Fin 50) (s : State) : Res := .next (issueL .lb c.val s)

/-- LBU: loads a byte, zero-extended. -/
def execH32Lbu (c : Fin 50) (s : State) : Res := .next (issueL .lbu c.val s)

/-- LWPI: loads a word, with post-increment (R392). -/
def execH32Lwpi (c : Fin 50) (s : State) : Res := .next (issueL .lwpi c.val s)

/-- SW: stores a word. -/
def execH32Sw (c : Fin 50) (s : State) : Res := .next (issueS .sw c.val s)

/-- SH: stores a halfword. -/
def execH32Sh (c : Fin 50) (s : State) : Res := .next (issueS .sh c.val s)

/-- SB: stores a byte. -/
def execH32Sb (c : Fin 50) (s : State) : Res := .next (issueS .sb c.val s)

/-- SWPI: stores a word, with post-increment (R392). -/
def execH32Swpi (c : Fin 50) (s : State) : Res := .next (issueS .swpi c.val s)

/-- The data of a far load arrive. -/
def execFarLoadData (c : Fin 50) (s : State) : Res := .next (farData c.val s)

/-! Branches and jumps (R394–R396). -/

/-- BEQ: taken when equal. -/
def execH32Beq (c : Fin 50) (s : State) : Res := .next (issueB .beq c.val (fun a b => decide (a = b)) s)

/-- BNE: taken when not equal. -/
def execH32Bne (c : Fin 50) (s : State) : Res := .next (issueB .bne c.val (fun a b => decide (a ≠ b)) s)

/-- BLT: taken when less, signed. -/
def execH32Blt (c : Fin 50) (s : State) : Res := .next (issueB .blt c.val (fun a b => a.slt b) s)

/-- BGE: taken when greater or equal, signed. -/
def execH32Bge (c : Fin 50) (s : State) : Res := .next (issueB .bge c.val (fun a b => !(a.slt b)) s)

/-- BLTU: taken when less, unsigned. -/
def execH32Bltu (c : Fin 50) (s : State) : Res := .next (issueB .bltu c.val (fun a b => a.ult b) s)

/-- BGEU: taken when greater or equal, unsigned. -/
def execH32Bgeu (c : Fin 50) (s : State) : Res := .next (issueB .bgeu c.val (fun a b => !(a.ult b)) s)

/-- JAL: the link goes to g31. -/
def execH32Jal (c : Fin 50) (s : State) : Res :=
  .next (issue .jal c.val (fun w x t =>
    coreSet t c.val (transfer (flies x 1 31 (x.pc + 8)) (x.pc + fOff26 w))) s)

/-- JALR: the link goes to rd, after rs1 has been read; bits [1:0] of the target are taken as 0. -/
def execH32Jalr (c : Fin 50) (s : State) : Res :=
  .next (issue .jalr c.val (fun w x t =>
    coreSet t c.val (transfer (flies x 1 (fRd w) (x.pc + 8)) ((greg x (fRs1 w) + fImm w) &&& 0xFFFFFFFC#32))) s)

/-! Repeat prefixes (R397–R401). -/

/-- RPT: interruptible between iterations. -/
def execH32Rpt (c : Fin 50) (s : State) : Res := .next (issueP .rpt c.val s)

/-- RPTU: defers interrupts until its last iteration has issued. -/
def execH32Rptu (c : Fin 50) (s : State) : Res := .next (issueP .rptu c.val s)

/-! Waits and events (R402–R407). -/

/-- WFE: one cycle where the wake condition already holds, else the core waits. -/
def execH32Wfe (c : Fin 50) (s : State) : Res :=
  .next (issue .wfe c.val (fun w x t =>
    if wakeCond t c.val x then coreSet t c.val (retire x) else waitBegin c.val 0 0 w x t) s)

/-- WFET: rd tells what ended it; a time already reached sets `ASTAT.LATE`. -/
def execH32Wfet (c : Fin 50) (s : State) : Res :=
  .next (issue .wfet c.val (fun w x t =>
    let target := dword (greg x (fRs2 w)) (greg x (fRs1 w))
    let time := decide (target ≤ coreTense t)
    let cond := wakeCond t c.val x
    if cond || time then
      let y := if time then setLate c.val x else x
      giveReg c.val 1 (w32 (nb cond + 2 * nb time)) w y t
    else waitBegin c.val 1 target w x t) s)

/-- WAITT: a time already reached sets `ASTAT.LATE`. -/
def execH32Waitt (c : Fin 50) (s : State) : Res :=
  .next (issue .waitt c.val (fun w x t =>
    let target := dword (greg x (fRs2 w)) (greg x (fRs1 w))
    if target ≤ coreTense t then coreSet t c.val (retire (setLate c.val x)) else waitBegin c.val 2 target w x t) s)

/-- The wait of core `c` ends. -/
def execWaitEnd (c : Fin 50) (s : State) : Res := .next (waitOver c.val s)

/-- SEV: sets event line 16 + `LINE` of the target, unless that is above 47, is the issuing engine, or is in TAKEOVER or
LOST (R406). -/
def execH32Sev (c : Fin 50) (s : State) : Res :=
  .next (issue .sev c.val (fun w x t =>
    let n := fld (greg x (fRs1 w)) 5 0
    let u := coreSet t c.val (retire x)
    if 47 < n ∨ n = c.val ∨ engAlive u n = false then u else raiseEvent u n (16 + fLine w)) s)

/-- ERET: at once, with no delay slot (R414). Log entry 133 (DEDUCED). -/
def execH32Eret (c : Fin 50) (s : State) : Res :=
  .next (issue .eret c.val (fun _ x t =>
    let v := csrHeld c.val x csrSTATUS
    let v1 := setBit (setBit v 0 (bit v 1)) 2 false
    let v2 := if priv c.val then setBit v1 3 (bit v 4) else v1
    let y := { csrSet x csrSTATUS v2 with pc := csrHeld c.val x csrEPC &&& 0xFFFFFFFC#32, cyc := x.cyc + 1, rptFrom := true }
    coreSet t c.val y) s)

/-- ECALL raises ECALL (R409, R417). -/
def execH32Ecall (c : Fin 50) (s : State) : Res := .next (issue .ecall c.val (fun _ _ t => t) s)

/-- EBREAK: raises EBREAK, or halts the core for the debugger (R420). -/
def execH32Ebreak (c : Fin 50) (s : State) : Res :=
  .next (issue .ebreak c.val (fun _ x t => coreSet t c.val { x with run := .halted }) s)

/-! CSR access (R408). -/

/-- CSRR: reads. -/
def execH32Csrr (c : Fin 50) (s : State) : Res := .next (issueC .csrr c.val (fun a _ => a) s)

/-- CSRW: writes rs1. -/
def execH32Csrw (c : Fin 50) (s : State) : Res := .next (issueC .csrw c.val (fun _ b => b) s)

/-- CSRS: sets the bits of rs1. -/
def execH32Csrs (c : Fin 50) (s : State) : Res := .next (issueC .csrs c.val (fun a b => a ||| b) s)

/-- CSRC: clears the bits of rs1. -/
def execH32Csrc (c : Fin 50) (s : State) : Res := .next (issueC .csrc c.val (fun a b => a &&& ~~~ b) s)

/-! Entries to handlers (R409–R413, R419). -/

/-- The next instruction raises an exception and the core enters its handler, or stops where `EXL` is already set; an
uncorrectable TCM error at `ecc` raises TCM_ECC on the SSP and the MGP, and no exception on an engine. -/
def execExceptionEntry (c : Fin 50) (ecc : Option Word) (s : State) : Res :=
  .next (match atBoundary s c.val with
    | none => s
    | some (x, t) =>
      match ecc, priv c.val with
      | some a, true => coreSet t c.val (takeException c.val x (exEcc, a))
      | _, _ =>
        match fetchWord t c.val x x.pc with
        | .inl r => coreSet t c.val (takeException c.val x r)
        | .inr w =>
          match opOf w with
          | none => coreSet t c.val (takeException c.val x (exIllegal, w))
          | some o =>
            match raises t c.val x o w with
            | some r => coreSet t c.val (takeException c.val x r)
            | none => s)

/-- The lowest pending line is taken at an instruction boundary; it ends a wait, whose instruction `EPC` then names
(R407, R411). Log entry 125 (DEDUCED). -/
def execInterruptEntry (c : Fin 50) (s : State) : Res :=
  let x := coreOf s c.val
  .next (if coreUp s c.val = false then s
    else match x.run, x.wait with
      | .run, _ =>
        let y := landTo c.val x x.cyc
        match interruptDue s c.val y with
        | some i => coreSet s c.val (enter c.val y (w32 (0x80000000 + i)) none)
        | none => s
      | .wait, some q =>
        let n := x.cyc + waited s c.val q
        let y := { landTo c.val x n with cyc := n, delay := none }
        match pendingLine s c.val y with
        | some i => coreSet s c.val (enter c.val y (w32 (0x80000000 + i)) none)
        | none => s
      | _, _ => s)

/-- The bus error of the oldest failed far store returns, and raises STORE_ASYNC at this boundary.
Log entry 124 (DEDUCED). -/
def execStoreAsync (c : Fin 50) (s : State) : Res :=
  let x := coreOf s c.val
  .next (match x.async with
    | [] => s
    | a :: rest =>
      if x.run = .run ∧ coreUp s c.val = true then
        coreSet s c.val (takeException c.val (landTo c.val { x with async := rest } x.cyc) (exAsync, a))
      else s)

/-- The next instruction is a CSRW of 0x5A5A to `WDT_KICK`: it restarts the core's watchdog (R416). -/
def execCoreWdtKick (c : Fin 50) (s : State) : Res :=
  .next (issue .csrw c.val (fun w x t =>
    if fCsr w = 0x140 ∧ greg x (fRs1 w) = 0x5A5A#32 then
      coreSet t c.val (retire { flies x 1 (fRd w) 0 with wdtAt := t.time.tense })
    else s) s)

end Sys2Proof.Machine
end

