-- ==== Sys2Proof/Machine/Sleep.lean ====
section
/-! DEFINITION. Entry to DOZE, RETAIN and VAULT and the wake from them (R517–R521), the supply warnings (R509, R545) and
the restart of the MGP (R16). -/

namespace Sys2Proof.Machine

open Reg

/-! Entry (R518–R520). -/

/-- Whether the conditions of quiescence hold (R517 step 4); a supply warning in the same cycle wins (R536). -/
def quiesced (s : State) : Bool :=
  quiescing s && s.sw.frames.isEmpty && s.gate.pend.isEmpty && !(warned s)

/-- DOZE is entered: three PLLs stop and the ports that admit it go into LPI (R519, R230). -/
def enterDoze (s : State) : State := lpiFollow (putF (putF s CLK_PLL_STATUS 2 0 0) PWR_STATUS 1 0 1)

/-- Banks that RETAIN turns off: `KEEP` = 0 and not OFF already (R444). -/
def banksOff (s : State) : List Nat :=
  (List.range 512).filter fun b => !(getB s (BNK_BANK_CTRL b) 4) && decide (bankPwr s b ≠ 2)

/-- The core rail falls: pads are held, the PLLs stop, the link is down and `READY` is cleared (R520, R524, R526). -/
def railFalls (s : State) : State :=
  let s1 := padsHold 0x3FF s
  let s2 := putB (putB (setR s1 CLK_PLL_STATUS 0) TNS_REF_STATUS 0 false) MGT_STATUS 31 false
  let s3 := hostLoss .link [] s2
  { s3 with
    hif := { s3.hif with cfgUp := false }
    time := { s3.time with running := false }
    sys := { s3.sys with pmicEn := false }
    pwr := { s3.pwr with sleepAon := s3.time.aonNs } }

/-- RETAIN is entered: banks with `KEEP` = 0 turn OFF (R520). -/
def enterRetain (s : State) : State :=
  let l := banksOff s
  let s1 := l.foldl (fun t b => putBankPwr (zeroBank t b) b 2) s
  railFalls { s1 with pwr := { s1.pwr with wasOn := l } }

/-- VAULT is entered: `PMIC_SRAM_EN` falls too (R512, R513). -/
def enterVault (s : State) : State :=
  let s1 := railFalls s
  { s1 with sys := { s1.sys with pmicSramEn := false } }

/-- Quiescence completes, the point of no return is passed, and entry runs to its end; the wake sources `now` that fire in
that cycle or during it wake the device as soon as the target is reached (R518, R536). -/
def quiesceDone (now : Nat) (s : State) : State :=
  if quiesced s then
    let t := getF s PWR_STATUS 22 21
    let s1 := match t with
      | 1 => enterDoze s
      | 2 => enterRetain s
      | _ => enterVault s
    wakeMask now (pwrNext (pwrResult (putF s1 PWR_STATUS 1 0 t) 0))
  else s

/-! Wake (R519–R521). -/

/-- ACTIVE is reached: `WAKE_INFO` records the sources, or a request for ACTIVE ends; a queued request starts. -/
def wakeEnds (vault : Bool) (src : Nat) (s : State) : State :=
  let s1 := putF (setR s PWR_WAKE_INFO (w32 (nb vault * 0x80000000 + src))) PWR_STATUS 1 0 0
  let s2 := { s1 with pwr := { s1.pwr with waking := false, src := 0 } }
  pwrNext (if src = 0 then pwrResult s2 0 else s2)

/-- Cores whose `WAITT` time passed in DOZE report themselves late when they go on (R519). -/
def waitsLate (s : State) : State :=
  { s with cores := s.cores.map fun e =>
      match e.2.wait with
      | some w => if w.kind = 2 ∧ w.target ≤ coreTense s then (e.1, { e.2 with wait := some { w with late := true } }) else e
      | none => e }

/-- The wake from DOZE, after at most 40 microseconds. Log entry 107 (DEDUCED). -/
def wakeDoze (us : Nat) (s : State) : State :=
  let s1 := ptcAtLate (waitsLate (advanceCycles s (min us 40 * 250)))
  lpiFollow (wakeEnds false s1.pwr.src (putF s1 CLK_PLL_STATUS 2 0 7))

/-- The interval that the Tense unit measures for a sleep of `ns` nanoseconds: within one AON tick of it (R503).
Log entry 107 (DEDUCED). -/
def measured (s : State) (ns : Nat) : Nat × State :=
  let f := fresh s
  (ns - 30518 + f.1.toNat % 61037, f.2)

/-- The wake from RETAIN, after at most 8 ms: the Tense counter resumes, and banks that were off are zeroed.
Log entry 107 (DEDUCED). -/
def wakeRetain (us : Nat) (s : State) : State :=
  let s1 := advanceCycles s (min us 8000 * 250)
  let r := measured s1 (s1.time.aonNs - s1.pwr.sleepAon)
  let up := !s1.hif.perst
  let s2 := tnsWake (putB (setR r.2 CLK_PLL_STATUS (w32 (15 + 16 * nb up))) TNS_REF_STATUS 0 true) r.1
  let s3 := s2.pwr.wasOn.foldl (fun t b => putBankPwr t b (getF t (BNK_BANK_CTRL b) 9 8)) s2
  wakeEnds false s3.pwr.src { s3 with
    bnk := { s3.bnk with passFrom := s3.bnk.passFrom + (s3.time.aonNs - s3.pwr.sleepAon) }
    hif := { s3.hif with cfgUp := up }
    pwr := { s3.pwr with wasOn := [] } }

/-- Registers that a wake from VAULT leaves: the reset's cause and straps, and the always-on domain's pads and supplies
(R521, R526). -/
def vaultWakeRegs : List Nat :=
  [SYS_RESET_CAUSE, SYS_BOOT_CFG, MGT_ADDR, TMP_TRIP_STATUS, PWR_PAD_HOLD, PWR_SUPPLY_STATUS]

/-- The wake from VAULT: start-up from step 1, which is no reset of R64 (R521); its time counts toward VAULT (R527).
Log entry 107 (DEDUCED). -/
def wakeVault (e : BootEnv) (s : State) : State :=
  let s1 := putB (copyRegs s (wiped true s) vaultWakeRegs) SYS_HEALTH 3 (getB s SYS_HEALTH 3)
  let s2 := { s1 with pwr := { s1.pwr with pads := s.pwr.pads } }
  wakeEnds true s.pwr.src (startUp e (putF s2 PWR_STATUS 1 0 3))

/-- The wake in progress completes; `e` holds its duration, and the facts of a start-up from VAULT. -/
def wakeDone (e : BootEnv) (s : State) : State :=
  if pwrBusy s && s.pwr.waking then
    match devState s with
    | 1 => wakeDoze e.us.toNat s
    | 2 => wakeRetain e.us.toNat s
    | 3 => wakeVault e s
    | _ => s
  else s

/-! Supply warnings (R509, R545). -/

/-- Migrations that have not switched are abandoned at once (R35, R374). -/
def migsDrop (s : State) : State :=
  (s.plc.migs.filter fun g => !g.switched).foldl (fun t g =>
    raiseIrq (bump { t with plc := { t.plc with migs := t.plc.migs.erase g } } PLC_MIG_ABANDONED) PLC 2) s

/-- A supply warning asserts: the first starts the sequence, and a second starts nothing new (R545). Before reset release,
and on VDD_CORE while its rail is off, there is none. Log entry 108 (DEDUCED). -/
def supplyWarn (aon : Bool) (s : State) : State :=
  let i := nb aon
  if s.sys.held || getB s PWR_SUPPLY_STATUS i || (!aon && decide (2 ≤ devState s)) then s
  else
    let s1 := raiseIrq (putB s PWR_SUPPLY_STATUS i true) PWR (2 + i)
    if supplyHeld s1 then s1 else pwrAbandon (migsDrop (gateSupply s1)) 1

/-- A supply warning clears; with the last one the sequence ends (R545 step 8b). -/
def supplyOver (aon : Bool) (s : State) : State :=
  let i := nb aon
  if getB s PWR_SUPPLY_STATUS i then
    let s1 := raiseIrq (putB s PWR_SUPPLY_STATUS i false) PWR (2 + i)
    if warned s1 then s1 else gateSupplyClear s1
  else s

/-! The MGP's restart (R16, R374, R468). -/

/-- The SSP restarts the MGP from ROM: placement is frozen for an open time of at most 20 ms, and the MGP's locks are freed
(R16). Log entry 115 (DEDUCED). -/
def mgpRestart (s : State) : State :=
  if s.sys.held then s
  else
    let f := fresh (mgpStart (freeLocksOf mMGP (migsDrop s)))
    { f.2 with sys := { f.2.sys with mgpDownTil := f.2.time.tense + BitVec.ofNat 64 (f.1.toNat % 20000001) } }

/-! The commands. -/

/-- Quiescence completes and entry runs. -/
def execQuiescenceComplete (now : BitVec 14) (s : State) : Res := .next (quiesceDone now.toNat s)

/-- The wake completes. -/
def execWakeComplete (e : BootEnv) (s : State) : Res := .next (wakeDone e s)

/-- A supply warning asserts. -/
def execSupplyWarning (aon : Bool) (s : State) : Res := .next (supplyWarn aon s)

/-- A supply warning clears. -/
def execSupplyWarningClear (aon : Bool) (s : State) : Res := .next (supplyOver aon s)

/-- The SSP's watchdog on the MGP expires: the clock advances to its end. The SSP's firmware sets its period, which is left
open within 1 to 100 ms (R416). Log entry 115 (DEDUCED). -/
def execMgpWatchdogExpiry (s : State) : Res :=
  let f := fresh s
  .next (mgpRestart (advanceNs f.2 ((coreOf s mgpCore).wdtAt.toNat + (1 + f.1.toNat % 100) * 1000000)))

end Sys2Proof.Machine
end

