-- ==== Sys2Proof/Machine/Telemetry.lean ====
section
/-! DEFINITION. The telemetry snapshot that the MGP writes every second (R534, R550). -/

namespace Sys2Proof.Machine

open Reg

/-- The snapshot counters of one run of a page's counter registers, as they read. -/
def cntRun (s : State) (base : Nat) (r : Nat × Nat × Bool) : List Byte :=
  if r.2.2 then (List.range (r.2.1 / 8)).flatMap fun i => leBytes 8 (snapOf s (base + r.1 + 8 * i)).toNat
  else (List.range (r.2.1 / 4)).flatMap fun i => leBytes 4 ((snapOf s (base + r.1 + 4 * i)).toNat % 0x100000000)

/-- The corrected-error counts of the physical banks (R446). -/
def ceRun (s : State) : List Byte :=
  (List.range 528).flatMap fun p => leBytes 4 ((snapOf s (BNK_PHYS_word_0 p)).toNat % 0x100000000)

/-- The counters of a page in register order. -/
def pageCounters (s : State) (pg : Page) : List Byte :=
  match pg.blk, cntRegions pg.blk with
  | .BNK, a :: r => cntRun s pg.base a ++ ceRun s ++ r.flatMap (cntRun s pg.base)
  | _, l => l.flatMap (cntRun s pg.base)

/-- The section of a page that has counters: an 8-byte entry and the counters (R550). -/
def pageSection (s : State) (pg : Page) : List Byte :=
  let b := pageCounters s pg
  if b.isEmpty then [] else leBytes 4 pg.base ++ leBytes 4 b.length ++ b

/-- The identity public key in wire order (R209). -/
def idPubBytes (s : State) : List Byte := (List.range 8).flatMap fun i => beBytes 4 (getR s (VLT_ID_PUB i)).toNat

/-- What the full health record holds (R73, R74, R191, R443), as one list of numbers. -/
def healthNumbers (h : HealthRec) : List Nat :=
  let pairs (l : List (Nat × Nat)) : List Nat := l.length :: l.flatMap fun e => [e.1, e.2]
  [nb h.lockstep, h.repaired.length] ++ (h.repaired.flatMap fun e => [e.1, e.2.1, e.2.2]) ++ pairs h.banks ++
    pairs h.engines ++ (h.pages.length :: h.pages) ++ (h.suspect.length :: h.suspect)

/-- The full health record in bytes, at most `room`: a layout and a length that the spec leaves open, of what the record holds
(R550). Log entry 113 (DESIGN CHOICE). -/
def healthRecord (room : Nat) (s : State) : List Byte :=
  let l := healthNumbers s.vlt.health
  (List.range ((Config.healthLen l).toNat % (room + 1))).map (Config.healthByte l)

/-- The 64-byte header of the snapshot with sequence number `seq` over the bytes that follow it (R550). -/
def telemHeader (s : State) (seq : Nat) (body : List Byte) : List Byte :=
  let tb := (tbOf s 0).v
  let flags := nb (tbValid s 0) + 2 * nb (getB s VLT_STATUS 28) + 4 * getF s PWR_STATUS 1 0
  leBytes 4 0x4E524C54 ++ leBytes 4 seq ++ leBytes 8 (getR64 s (CNT_SNAP_TIME_LO SYS)).toNat ++ leBytes 8 (vSec tb) ++
  leBytes 4 (vNs tb) ++ [b8 flags, b8 (getF s SYS_RESET_CAUSE 7 0), 0, 0] ++ leBytes 4 (getR s SYS_HEALTH).toNat ++
  leBytes 4 s.sys.unconfN ++ leBytes 4 s.sys.unconfFirst ++ leBytes 4 (64 + body.length) ++
  leBytes 4 (getR s PWR_EST).toNat ++ leBytes 2 (getF s TMP_MAX 15 0) ++ [0, 0] ++ leBytes 4 (crc32c body).toNat ++ [0, 0, 0, 0]

/-- Writes bytes to shared memory as the MGP, row by row; the result says whether all of them landed. -/
def mgpCopy (s : State) (a : Nat) (l : List Byte) (fuel : Nat) : State × Bool :=
  match fuel with
  | 0 => (s, true)
  | fuel + 1 =>
    match l with
    | [] => (s, true)
    | _ =>
      match fabWrite s mMGP a (l.take 16) false with
      | (t, .ok) => mgpCopy t (a + 16) (l.drop 16) fuel
      | (t, _) => (t, false)

/-- The MGP copies the snapshot to its area and then writes `TELEM_SEQ` (R550). -/
def telemCopy (s : State) : State :=
  let base := (getR s SYS_TELEM_BASE).toNat
  if base = 0 then s
  else
    let seq := ((getR s SYS_TELEM_SEQ).toNat + 1) % 0x100000000
    let body := idPubBytes s ++ allPages.flatMap (pageSection s)
    let full := body ++ healthRecord (262144 - 64 - body.length) s
    let r := mgpCopy s (base + seq % 2 * 0x40000) (telemHeader s seq full ++ full) 16384
    if r.2 then raiseIrq (setR r.1 SYS_TELEM_SEQ (w32 seq)) SYS 4 else r.1

/-- The next whole second of the Tense counter: the snapshot, and its copy (R534, R550). While the MGP restarts it does
nothing (R16). Log entry 113 (DESIGN CHOICE). -/
def telemSnapshot (s : State) : State :=
  if decide (phase s = phRun) && awake s then
    let s1 := advanceNs s ((tenseNs s / 1000000000 + 1) * 1000000000)
    if plcFrozen s1 then s1 else telemCopy (cntCtrl ⟨.SYS, 0, SYS⟩ 1 s1)
  else s

/-- A whole second. -/
def execTelemetrySnapshot (s : State) : Res := .next (telemSnapshot s)

end Sys2Proof.Machine
end

