-- ==== Sys2Proof/Machine/Dispatch.lean ====
section
/-! DEFINITION. What each command does: one arm per row of the command table. -/

namespace Sys2Proof.Machine

def exec (i : Instr) (s : State) : Host.Outcome State Fault Refusal :=
  match i with
  | .registerWrite m a sz v => Sys2Proof.Machine.execRegisterWrite m a sz v s
  | .cfgLockWrite m page v => Sys2Proof.Machine.execCfgLockWrite m page v s
  | .softRst m page v => Sys2Proof.Machine.execSoftRst m page v s
  | .blockPowerRequest m page pwr => Sys2Proof.Machine.execBlockPowerRequest m page pwr s
  | .blockPowerChangeDone page => Sys2Proof.Machine.execBlockPowerChangeDone page s
  | .irqForce m page v => Sys2Proof.Machine.execIrqForce m page v s
  | .cntSnap m page clr => Sys2Proof.Machine.execCntSnap m page clr s
  | .secWpolWrite m t v => Sys2Proof.Machine.execSecWpolWrite m t v s
  | .denyCountRead m => Sys2Proof.Machine.execDenyCountRead m s
  | .swSet m v => Sys2Proof.Machine.execSwSet m v s
  | .swClr m v => Sys2Proof.Machine.execSwClr m v s
  | .routeWrite m n v => Sys2Proof.Machine.execRouteWrite m n v s
  | .maskWrite m k v => Sys2Proof.Machine.execMaskWrite m k v s
  | .hostEoi m vec => Sys2Proof.Machine.execHostEoi m vec s
  | .por also => Sys2Proof.Machine.execPor also s
  | .pinReset also => Sys2Proof.Machine.execPinReset also s
  | .brownCore also => Sys2Proof.Machine.execBrownCore also s
  | .brownAon also => Sys2Proof.Machine.execBrownAon also s
  | .lpOverload also => Sys2Proof.Machine.execLpOverload also s
  | .wdtSsp also => Sys2Proof.Machine.execWdtSsp also s
  | .lockstepMismatch also => Sys2Proof.Machine.execLockstepMismatch also s
  | .softReset m v => Sys2Proof.Machine.execSoftReset m v s
  | .thermalTrip also => Sys2Proof.Machine.execThermalTrip also s
  | .thermalHoldEnd => Sys2Proof.Machine.execThermalHoldEnd s
  | .resetRelease e => Sys2Proof.Machine.execResetRelease e s
  | .aonCrystalConfirmed => Sys2Proof.Machine.execAonCrystalConfirmed s
  | .pushBoot m vendorSig ownerSig => Sys2Proof.Machine.execPushBoot m vendorSig ownerSig s
  | .enrol m lattice => Sys2Proof.Machine.execEnrol m lattice s
  | .erase m => Sys2Proof.Machine.execErase m s
  | .debugUnlock m lattice => Sys2Proof.Machine.execDebugUnlock m lattice s
  | .debugLock m => Sys2Proof.Machine.execDebugLock m s
  | .vaultEraseComplete => Sys2Proof.Machine.execVaultEraseComplete s
  | .bundleRegisterWrites => Sys2Proof.Machine.execBundleRegisterWrites s
  | .bundleOwnerTransfer lattice => Sys2Proof.Machine.execBundleOwnerTransfer lattice s
  | .bundleVaultPolicy => Sys2Proof.Machine.execBundleVaultPolicy s
  | .bundleEraseVault => Sys2Proof.Machine.execBundleEraseVault s
  | .macReceive p bytes k => Sys2Proof.Machine.execMacReceive p bytes k s
  | .macControlReceive p opcode => Sys2Proof.Machine.execMacControlReceive p opcode s
  | .pauseReceive p da quanta => Sys2Proof.Machine.execPauseReceive p da quanta s
  | .pauseExpiry p => Sys2Proof.Machine.execPauseExpiry p s
  | .pauseXoffSend p => Sys2Proof.Machine.execPauseXoffSend p s
  | .pauseRefresh p => Sys2Proof.Machine.execPauseRefresh p s
  | .pauseXonSend p => Sys2Proof.Machine.execPauseXonSend p s
  | .egressSelect p f => Sys2Proof.Machine.execEgressSelect p f s
  | .macTransmitEnd p => Sys2Proof.Machine.execMacTransmitEnd p s
  | .ageingHeadCheck => Sys2Proof.Machine.execAgeingHeadCheck s
  | .gateIntervalExpiry p => Sys2Proof.Machine.execGateIntervalExpiry p s
  | .gateSwapArm m p v => Sys2Proof.Machine.execGateSwapArm m p v s
  | .gateBankSwap p => Sys2Proof.Machine.execGateBankSwap p s
  | .hsrPassThrough p bytes k => Sys2Proof.Machine.execHsrPassThrough p bytes k s
  | .tblWrite m v => Sys2Proof.Machine.execTblWrite m v s
  | .tblRead m v => Sys2Proof.Machine.execTblRead m v s
  | .fdbWrite m v => Sys2Proof.Machine.execFdbWrite m v s
  | .fdbInsert m v => Sys2Proof.Machine.execFdbInsert m v s
  | .fdbDelete m v => Sys2Proof.Machine.execFdbDelete m v s
  | .fdbLookup m v => Sys2Proof.Machine.execFdbLookup m v s
  | .agePeriodWrite m v => Sys2Proof.Machine.execAgePeriodWrite m v s
  | .fdbAgeSweep => Sys2Proof.Machine.execFdbAgeSweep s
  | .purgeScanComplete => Sys2Proof.Machine.execPurgeScanComplete s
  | .withdrawalPost => Sys2Proof.Machine.execWithdrawalPost s
  | .withdrawalScanComplete => Sys2Proof.Machine.execWithdrawalScanComplete s
  | .dropRingLostRead m => Sys2Proof.Machine.execDropRingLostRead m s
  | .smpLostRead m => Sys2Proof.Machine.execSmpLostRead m s
  | .gateAdmission f => Sys2Proof.Machine.execGateAdmission f s
  | .unitTakesEntry c => Sys2Proof.Machine.execUnitTakesEntry c s
  | .signatureResult tag ok => Sys2Proof.Machine.execSignatureResult tag ok s
  | .verdict tag => Sys2Proof.Machine.execVerdict tag s
  | .replayMarkDurable key => Sys2Proof.Machine.execReplayMarkDurable key s
  | .gateHoldLimitExpiry chan => Sys2Proof.Machine.execGateHoldLimitExpiry chan s
  | .catInstall m v => Sys2Proof.Machine.execCatInstall m v s
  | .catEnable m v => Sys2Proof.Machine.execCatEnable m v s
  | .catDisable m v => Sys2Proof.Machine.execCatDisable m v s
  | .catRevoke m v => Sys2Proof.Machine.execCatRevoke m v s
  | .catRead m v => Sys2Proof.Machine.execCatRead m v s
  | .catCommandDurable => Sys2Proof.Machine.execCatCommandDurable s
  | .sieveWrite m v => Sys2Proof.Machine.execSieveWrite m v s
  | .sieveRead m v => Sys2Proof.Machine.execSieveRead m v s
  | .keyPoolWrite m w v => Sys2Proof.Machine.execKeyPoolWrite m w v s
  | .vrSizeWrite m v => Sys2Proof.Machine.execVrSizeWrite m v s
  | .vrOverrunRead m => Sys2Proof.Machine.execVrOverrunRead m s
  | .gateCtrlWrite m v => Sys2Proof.Machine.execGateCtrlWrite m v s
  | .svcPost n addr => Sys2Proof.Machine.execSvcPost n addr s
  | .serviceRequestEnd lane => Sys2Proof.Machine.execServiceRequestEnd lane s
  | .supplyWarning aon => Sys2Proof.Machine.execSupplyWarning aon s
  | .supplyVerifyAbandon => Sys2Proof.Machine.execSupplyVerifyAbandon s
  | .supplyWarningClear aon => Sys2Proof.Machine.execSupplyWarningClear aon s
  | .cntIncrement m c => Sys2Proof.Machine.execCntIncrement m c s
  | .cntRaise m c => Sys2Proof.Machine.execCntRaise m c s
  | .cntRead m c => Sys2Proof.Machine.execCntRead m c s
  | .counterDurable => Sys2Proof.Machine.execCounterDurable s
  | .journalExport m v => Sys2Proof.Machine.execJournalExport m v s
  | .journalExportDone => Sys2Proof.Machine.execJournalExportDone s
  | .auditDroppedRead m => Sys2Proof.Machine.execAuditDroppedRead m s
  | .logCompaction log => Sys2Proof.Machine.execLogCompaction log s
  | .journalSecondEnd => Sys2Proof.Machine.execJournalSecondEnd s
  | .journalAllowanceAccrual => Sys2Proof.Machine.execJournalAllowanceAccrual s
  | .linkUp p speed errs => Sys2Proof.Machine.execLinkUp p speed errs s
  | .linkDown p half why errs => Sys2Proof.Machine.execLinkDown p half why errs s
  | .sdsEnable m l => Sys2Proof.Machine.execSdsEnable m l s
  | .anRestart m l => Sys2Proof.Machine.execAnRestart m l s
  | .prbsErrRead m l errs => Sys2Proof.Machine.execPrbsErrRead m l errs s
  | .verifySend p => Sys2Proof.Machine.execVerifySend p s
  | .respondReceive p => Sys2Proof.Machine.execRespondReceive p s
  | .verifyReceive p => Sys2Proof.Machine.execVerifyReceive p s
  | .lpiEntry p => Sys2Proof.Machine.execLpiEntry p s
  | .lpiExit p => Sys2Proof.Machine.execLpiExit p s
  | .lpiRx p on => Sys2Proof.Machine.execLpiRx p on s
  | .redCtrlWrite m p v => Sys2Proof.Machine.execRedCtrlWrite m p v s
  | .dupEntryExpiry pair => Sys2Proof.Machine.execDupEntryExpiry pair s
  | .mdioRead m l v => Sys2Proof.Machine.execMdioRead m l v s
  | .mdioWrite m l v => Sys2Proof.Machine.execMdioWrite m l v s
  | .mdioAddress m l v => Sys2Proof.Machine.execMdioAddress m l v s
  | .mdioPostReadIncrement m l v => Sys2Proof.Machine.execMdioPostReadIncrement m l v s
  | .mdioFrameEnd l data => Sys2Proof.Machine.execMdioFrameEnd l data s
  | .plkCommit m n => Sys2Proof.Machine.execPlkCommit m n s
  | .plkUncommit m n => Sys2Proof.Machine.execPlkUncommit m n s
  | .plkStart m n => Sys2Proof.Machine.execPlkStart m n s
  | .plkStop m n => Sys2Proof.Machine.execPlkStop m n s
  | .requestMode m n mode => Sys2Proof.Machine.execRequestMode m n mode s
  | .cycleStart n gcount => Sys2Proof.Machine.execCycleStart n gcount s
  | .fetchPoint n slot => Sys2Proof.Machine.execFetchPoint n slot s
  | .actionPoint n slot => Sys2Proof.Machine.execActionPoint n slot s
  | .plTransmitEnd n => Sys2Proof.Machine.execPlTransmitEnd n s
  | .plFrameReceive n chB lt lt2 bits => Sys2Proof.Machine.execPlFrameReceive n chB lt lt2 bits s
  | .slotEnd n slot => Sys2Proof.Machine.execSlotEnd n slot s
  | .nitStart n => Sys2Proof.Machine.execNitStart n s
  | .listenTimeout n edge => Sys2Proof.Machine.execListenTimeout n edge s
  | .echoMismatch n chB => Sys2Proof.Machine.execEchoMismatch n chB s
  | .guardianWindowOpen n slot => Sys2Proof.Machine.execGuardianWindowOpen n slot s
  | .guardianWindowClose n slot => Sys2Proof.Machine.execGuardianWindowClose n slot s
  | .comparatorFire n k => Sys2Proof.Machine.execComparatorFire n k s
  | .mdbStart m n => Sys2Proof.Machine.execMdbStart m n s
  | .mdbStop m n => Sys2Proof.Machine.execMdbStop m n s
  | .recover m n => Sys2Proof.Machine.execRecover m n s
  | .abort m n mask => Sys2Proof.Machine.execAbort m n mask s
  | .integrationComplete n => Sys2Proof.Machine.execIntegrationComplete n s
  | .recoveryComplete n => Sys2Proof.Machine.execRecoveryComplete n s
  | .txBufferLoad n b => Sys2Proof.Machine.execTxBufferLoad n b s
  | .arbitrationStart n => Sys2Proof.Machine.execArbitrationStart n s
  | .mdbFrameSent n edges => Sys2Proof.Machine.execMdbFrameSent n edges s
  | .mdbFrameFailed n why inData exempt edges => Sys2Proof.Machine.execMdbFrameFailed n why inData exempt edges s
  | .mdbLifeExpiry n b => Sys2Proof.Machine.execMdbLifeExpiry n b s
  | .mdbFrameReceive n rec_ esi err inData heavy ago => Sys2Proof.Machine.execMdbFrameReceive n rec_ esi err inData heavy ago s
  | .rxFifoDrain n => Sys2Proof.Machine.execRxFifoDrain n s
  | .mdbModeChange n => Sys2Proof.Machine.execMdbModeChange n s
  | .mdbWake n => Sys2Proof.Machine.execMdbWake n s
  | .lastErrRead m n => Sys2Proof.Machine.execLastErrRead m n s
  | .ptcNop n => Sys2Proof.Machine.execPtcNop n s
  | .ptcSet n => Sys2Proof.Machine.execPtcSet n s
  | .ptcMov n pads => Sys2Proof.Machine.execPtcMov n pads s
  | .ptcOut n => Sys2Proof.Machine.execPtcOut n s
  | .ptcIn n pads => Sys2Proof.Machine.execPtcIn n pads s
  | .ptcPush n => Sys2Proof.Machine.execPtcPush n s
  | .ptcPull n => Sys2Proof.Machine.execPtcPull n s
  | .ptcWait n pads => Sys2Proof.Machine.execPtcWait n pads s
  | .ptcAt n => Sys2Proof.Machine.execPtcAt n s
  | .ptcJmp n pads => Sys2Proof.Machine.execPtcJmp n pads s
  | .ptcIllegal n => Sys2Proof.Machine.execPtcIllegal n s
  | .ptcStallEnd n pads => Sys2Proof.Machine.execPtcStallEnd n pads s
  | .atFire n pads => Sys2Proof.Machine.execAtFire n pads s
  | .packetLoad n => Sys2Proof.Machine.execPacketLoad n s
  | .progWrite m n k v => Sys2Proof.Machine.execProgWrite m n k v s
  | .inject m n v => Sys2Proof.Machine.execInject m n v s
  | .ptcAbort m n v => Sys2Proof.Machine.execPtcAbort m n v s
  | .ptcRestart m n v => Sys2Proof.Machine.execPtcRestart m n v s
  | .ptcRun m n v => Sys2Proof.Machine.execPtcRun m n v s
  | .ownWrite m n k v => Sys2Proof.Machine.execOwnWrite m n k v s
  | .dmaRecv n => Sys2Proof.Machine.execDmaRecv n s
  | .dmaSend n => Sys2Proof.Machine.execDmaSend n s
  | .dmaRead n => Sys2Proof.Machine.execDmaRead n s
  | .dmaWrite n => Sys2Proof.Machine.execDmaWrite n s
  | .dmaCplRead n => Sys2Proof.Machine.execDmaCplRead n s
  | .qhTxHeadWrite n k v => Sys2Proof.Machine.execQhTxHeadWrite n k v s
  | .qhRxTailWrite n k v => Sys2Proof.Machine.execQhRxTailWrite n k v s
  | .jobNextRead n => Sys2Proof.Machine.execJobNextRead n s
  | .jobEnd n tag => Sys2Proof.Machine.execJobEnd n tag s
  | .jobCompletionRecord => Sys2Proof.Machine.execJobCompletionRecord s
  | .crcData n sz v => Sys2Proof.Machine.execCrcData n sz v s
  | .tnowLoRead m => Sys2Proof.Machine.execTnowLoRead m s
  | .timerArm n t v => Sys2Proof.Machine.execTimerArm n t v s
  | .engineTimerFire n t => Sys2Proof.Machine.execEngineTimerFire n t s
  | .engineWdtKick n v => Sys2Proof.Machine.execEngineWdtKick n v s
  | .engineWatchdogExpiry n => Sys2Proof.Machine.execEngineWatchdogExpiry n s
  | .ckptCommit n v => Sys2Proof.Machine.execCkptCommit n v s
  | .migReady n k len => Sys2Proof.Machine.execMigReady n k len s
  | .migDone n k => Sys2Proof.Machine.execMigDone n k s
  | .migrationSwitch c => Sys2Proof.Machine.execMigrationSwitch c s
  | .migrationAbandon c => Sys2Proof.Machine.execMigrationAbandon c s
  | .loadPers m slot sigOk => Sys2Proof.Machine.execLoadPers m slot sigOk s
  | .unloadPers m slot => Sys2Proof.Machine.execUnloadPers m slot s
  | .rebalance m => Sys2Proof.Machine.execRebalance m s
  | .declareDead m n => Sys2Proof.Machine.execDeclareDead m n s
  | .postJob m n cls2 => Sys2Proof.Machine.execPostJob m n cls2 s
  | .bindWrite m c v => Sys2Proof.Machine.execBindWrite m c v s
  | .placementRecompute => Sys2Proof.Machine.execPlacementRecompute s
  | .engineDeclaredDead n tcm => Sys2Proof.Machine.execEngineDeclaredDead n tcm s
  | .takeoverComplete n => Sys2Proof.Machine.execTakeoverComplete n s
  | .mgpWatchdogExpiry => Sys2Proof.Machine.execMgpWatchdogExpiry s
  | .h32Add c => Sys2Proof.Machine.execH32Add c s
  | .h32Sub c => Sys2Proof.Machine.execH32Sub c s
  | .h32Neg c => Sys2Proof.Machine.execH32Neg c s
  | .h32And c => Sys2Proof.Machine.execH32And c s
  | .h32Or c => Sys2Proof.Machine.execH32Or c s
  | .h32Xor c => Sys2Proof.Machine.execH32Xor c s
  | .h32Andn c => Sys2Proof.Machine.execH32Andn c s
  | .h32Slt c => Sys2Proof.Machine.execH32Slt c s
  | .h32Sltu c => Sys2Proof.Machine.execH32Sltu c s
  | .h32Sll c => Sys2Proof.Machine.execH32Sll c s
  | .h32Srl c => Sys2Proof.Machine.execH32Srl c s
  | .h32Sra c => Sys2Proof.Machine.execH32Sra c s
  | .h32Clz c => Sys2Proof.Machine.execH32Clz c s
  | .h32Sextb c => Sys2Proof.Machine.execH32Sextb c s
  | .h32Sexth c => Sys2Proof.Machine.execH32Sexth c s
  | .h32Addi c => Sys2Proof.Machine.execH32Addi c s
  | .h32Andi c => Sys2Proof.Machine.execH32Andi c s
  | .h32Ori c => Sys2Proof.Machine.execH32Ori c s
  | .h32Xori c => Sys2Proof.Machine.execH32Xori c s
  | .h32Slti c => Sys2Proof.Machine.execH32Slti c s
  | .h32Sltiu c => Sys2Proof.Machine.execH32Sltiu c s
  | .h32Lui c => Sys2Proof.Machine.execH32Lui c s
  | .h32Slli c => Sys2Proof.Machine.execH32Slli c s
  | .h32Srli c => Sys2Proof.Machine.execH32Srli c s
  | .h32Srai c => Sys2Proof.Machine.execH32Srai c s
  | .h32Mul c => Sys2Proof.Machine.execH32Mul c s
  | .h32Mulh c => Sys2Proof.Machine.execH32Mulh c s
  | .h32Mulhu c => Sys2Proof.Machine.execH32Mulhu c s
  | .h32Div c => Sys2Proof.Machine.execH32Div c s
  | .h32Divu c => Sys2Proof.Machine.execH32Divu c s
  | .h32Rem c => Sys2Proof.Machine.execH32Rem c s
  | .h32Remu c => Sys2Proof.Machine.execH32Remu c s
  | .h32Lw c => Sys2Proof.Machine.execH32Lw c s
  | .h32Lh c => Sys2Proof.Machine.execH32Lh c s
  | .h32Lhu c => Sys2Proof.Machine.execH32Lhu c s
  | .h32Lb c => Sys2Proof.Machine.execH32Lb c s
  | .h32Lbu c => Sys2Proof.Machine.execH32Lbu c s
  | .h32Lwpi c => Sys2Proof.Machine.execH32Lwpi c s
  | .h32Sw c => Sys2Proof.Machine.execH32Sw c s
  | .h32Sh c => Sys2Proof.Machine.execH32Sh c s
  | .h32Sb c => Sys2Proof.Machine.execH32Sb c s
  | .h32Swpi c => Sys2Proof.Machine.execH32Swpi c s
  | .farLoadData c => Sys2Proof.Machine.execFarLoadData c s
  | .h32Beq c => Sys2Proof.Machine.execH32Beq c s
  | .h32Bne c => Sys2Proof.Machine.execH32Bne c s
  | .h32Blt c => Sys2Proof.Machine.execH32Blt c s
  | .h32Bge c => Sys2Proof.Machine.execH32Bge c s
  | .h32Bltu c => Sys2Proof.Machine.execH32Bltu c s
  | .h32Bgeu c => Sys2Proof.Machine.execH32Bgeu c s
  | .h32Jal c => Sys2Proof.Machine.execH32Jal c s
  | .h32Jalr c => Sys2Proof.Machine.execH32Jalr c s
  | .h32Rpt c => Sys2Proof.Machine.execH32Rpt c s
  | .h32Rptu c => Sys2Proof.Machine.execH32Rptu c s
  | .h32Wfe c => Sys2Proof.Machine.execH32Wfe c s
  | .h32Wfet c => Sys2Proof.Machine.execH32Wfet c s
  | .h32Waitt c => Sys2Proof.Machine.execH32Waitt c s
  | .waitEnd c => Sys2Proof.Machine.execWaitEnd c s
  | .h32Sev c => Sys2Proof.Machine.execH32Sev c s
  | .h32Eret c => Sys2Proof.Machine.execH32Eret c s
  | .h32Ecall c => Sys2Proof.Machine.execH32Ecall c s
  | .h32Ebreak c => Sys2Proof.Machine.execH32Ebreak c s
  | .h32Csrr c => Sys2Proof.Machine.execH32Csrr c s
  | .h32Csrw c => Sys2Proof.Machine.execH32Csrw c s
  | .h32Csrs c => Sys2Proof.Machine.execH32Csrs c s
  | .h32Csrc c => Sys2Proof.Machine.execH32Csrc c s
  | .exceptionEntry c ecc => Sys2Proof.Machine.execExceptionEntry c ecc s
  | .interruptEntry c => Sys2Proof.Machine.execInterruptEntry c s
  | .storeAsync c => Sys2Proof.Machine.execStoreAsync c s
  | .coreWdtKick c => Sys2Proof.Machine.execCoreWdtKick c s
  | .bankCtrlWrite m b v => Sys2Proof.Machine.execBankCtrlWrite m b v s
  | .drainComplete b => Sys2Proof.Machine.execDrainComplete b s
  | .zeroingComplete b => Sys2Proof.Machine.execZeroingComplete b s
  | .bankPowerRequest m b pwr => Sys2Proof.Machine.execBankPowerRequest m b pwr s
  | .bankWakeComplete b => Sys2Proof.Machine.execBankWakeComplete b s
  | .replace m v => Sys2Proof.Machine.execReplace m v s
  | .scrubBank m v => Sys2Proof.Machine.execScrubBank m v s
  | .scrubRow b row lo hi => Sys2Proof.Machine.execScrubRow b row lo hi s
  | .eccWriteback => Sys2Proof.Machine.execEccWriteback s
  | .collide a mA bytesA mB => Sys2Proof.Machine.execCollide a mA bytesA mB s
  | .bankDenial m a wnr => Sys2Proof.Machine.execBankDenial m a wnr s
  | .bnkDenyCountRead m => Sys2Proof.Machine.execBnkDenyCountRead m s
  | .perstAssert why cut => Sys2Proof.Machine.execPerstAssert why cut s
  | .hostTxDescriptor desc buf f => Sys2Proof.Machine.execHostTxDescriptor desc buf f s
  | .hostRxFrame descs f => Sys2Proof.Machine.execHostRxFrame descs f s
  | .tailWrite m r v => Sys2Proof.Machine.execTailWrite m r v s
  | .ringEnable m r v => Sys2Proof.Machine.execRingEnable m r v s
  | .ringStop m r v => Sys2Proof.Machine.execRingStop m r v s
  | .modUsExpiry r => Sys2Proof.Machine.execModUsExpiry r s
  | .fifoDataRead m f => Sys2Proof.Machine.execFifoDataRead m f s
  | .fifoFlush m f v => Sys2Proof.Machine.execFifoFlush m f v s
  | .aqPost m a v => Sys2Proof.Machine.execAqPost m a v s
  | .aqRead m a => Sys2Proof.Machine.execAqRead m a s
  | .aqFlush m a v => Sys2Proof.Machine.execAqFlush m a v s
  | .lockRead m k => Sys2Proof.Machine.execLockRead m k s
  | .lockRelease m k v => Sys2Proof.Machine.execLockRelease m k v s
  | .forceRelease m v => Sys2Proof.Machine.execForceRelease m v s
  | .mbxLockRead m k => Sys2Proof.Machine.execMbxLockRead m k s
  | .mbxLockRelease m k v => Sys2Proof.Machine.execMbxLockRelease m k v s
  | .mbxSend m k v => Sys2Proof.Machine.execMbxSend m k v s
  | .mbxAck m k v => Sys2Proof.Machine.execMbxAck m k v s
  | .mbxReset m k v => Sys2Proof.Machine.execMbxReset m k v s
  | .ref10mLoss => Sys2Proof.Machine.execRef10mLoss s
  | .ref10mRegain => Sys2Proof.Machine.execRef10mRegain s
  | .refCtrlWrite m v => Sys2Proof.Machine.execRefCtrlWrite m v s
  | .rateWrite m b v => Sys2Proof.Machine.execRateWrite m b v s
  | .adjSet m b => Sys2Proof.Machine.execAdjSet m b s
  | .adjStep m b => Sys2Proof.Machine.execAdjStep m b s
  | .adjSlew m b ppm => Sys2Proof.Machine.execAdjSlew m b ppm s
  | .adjCancel m b => Sys2Proof.Machine.execAdjCancel m b s
  | .slewComplete b => Sys2Proof.Machine.execSlewComplete b s
  | .holdLimitExpiry b => Sys2Proof.Machine.execHoldLimitExpiry b s
  | .tnsSnap m v => Sys2Proof.Machine.execTnsSnap m v s
  | .tbNsRead m b => Sys2Proof.Machine.execTbNsRead m b s
  | .captureEdge k rising ph => Sys2Proof.Machine.execCaptureEdge k rising ph s
  | .capNsRead m k => Sys2Proof.Machine.execCapNsRead m k s
  | .tsrLostRead m => Sys2Proof.Machine.execTsrLostRead m s
  | .outputArm m k v => Sys2Proof.Machine.execOutputArm m k v s
  | .timedOutputEvent k => Sys2Proof.Machine.execTimedOutputEvent k s
  | .pulseEnd k => Sys2Proof.Machine.execPulseEnd k s
  | .ppsOutputEvent j => Sys2Proof.Machine.execPpsOutputEvent j s
  | .stateReqActive m => Sys2Proof.Machine.execStateReqActive m s
  | .stateReqDoze m now => Sys2Proof.Machine.execStateReqDoze m now s
  | .stateReqRetain m now => Sys2Proof.Machine.execStateReqRetain m now s
  | .stateReqVault m now => Sys2Proof.Machine.execStateReqVault m now s
  | .quiescenceComplete now => Sys2Proof.Machine.execQuiescenceComplete now s
  | .quiesceTimeout => Sys2Proof.Machine.execQuiesceTimeout s
  | .wakeSource src => Sys2Proof.Machine.execWakeSource src s
  | .wakeComplete e => Sys2Proof.Machine.execWakeComplete e s
  | .padRelease m v => Sys2Proof.Machine.execPadRelease m v s
  | .portgrpReqWrite m v => Sys2Proof.Machine.execPortgrpReqWrite m v s
  | .budgetTick est p => Sys2Proof.Machine.execBudgetTick est p s
  | .clusterStepWrite m c v => Sys2Proof.Machine.execClusterStepWrite m c v s
  | .clusterStepApplied c => Sys2Proof.Machine.execClusterStepApplied c s
  | .sensorSample t => Sys2Proof.Machine.execSensorSample t s
  | .rtcAlarm => Sys2Proof.Machine.execRtcAlarm s
  | .rtcSecWrite m v => Sys2Proof.Machine.execRtcSecWrite m v s
  | .mgtAddressMatch addr rd => Sys2Proof.Machine.execMgtAddressMatch addr rd s
  | .mgtByte b stop => Sys2Proof.Machine.execMgtByte b stop s
  | .rxDataRead m => Sys2Proof.Machine.execRxDataRead m s
  | .txDataWrite m v => Sys2Proof.Machine.execTxDataWrite m v s
  | .telemetrySnapshot => Sys2Proof.Machine.execTelemetrySnapshot s
  | .atbSelect m b v => Sys2Proof.Machine.execAtbSelect m b v s
  | .atbConnect b => Sys2Proof.Machine.execAtbConnect b s
  | .atbEnablementChange => Sys2Proof.Machine.execAtbEnablementChange s
  | .refusedRead m => Sys2Proof.Machine.execRefusedRead m s
  | .tapReset => Sys2Proof.Machine.execTapReset s
  | .extest => Sys2Proof.Machine.execExtest s
  | .idcode => Sys2Proof.Machine.execIdcode s
  | .samplePreload => Sys2Proof.Machine.execSamplePreload s
  | .extestPulse => Sys2Proof.Machine.execExtestPulse s
  | .extestTrain => Sys2Proof.Machine.execExtestTrain s
  | .clamp => Sys2Proof.Machine.execClamp s
  | .highz => Sys2Proof.Machine.execHighz s
  | .dbgAccess => Sys2Proof.Machine.execDbgAccess s
  | .prodTest => Sys2Proof.Machine.execProdTest s
  | .bypass code => Sys2Proof.Machine.execBypass code s
  | .perstRelease => Sys2Proof.Machine.execPerstRelease s
  | .pcieLinkUp width speed => Sys2Proof.Machine.execPcieLinkUp width speed s
  | .pmicEnDrivenHigh => Sys2Proof.Machine.execPmicEnDrivenHigh s
  | .releaseRecordDurable tag => Sys2Proof.Machine.execReleaseRecordDurable tag s
  | .pllLockLost k => Sys2Proof.Machine.execPllLockLost k s
  | .sensorCalibration bad => Sys2Proof.Machine.execSensorCalibration bad s
  | .stretchMaxExpiry => Sys2Proof.Machine.execStretchMaxExpiry s

end Sys2Proof.Machine
end

