-- ==== Sys2Proof/Machine/Step.lean ====
section
/-! DEFINITION. One step: the command at the front of the queue acts, with the rest of the queue left; with none waiting, one
TIME cycle passes. -/

namespace Sys2Proof.Machine

/-- One step of the block. Log entries 1 (DESIGN CHOICE), 2 (DESIGN CHOICE). -/
def step (s : State) : Host.Outcome State Fault Refusal :=
  match s.pending with
  | [] => .next (idleTick s)
  | c :: rest => exec c { s with pending := rest }

/-- The state with the command that a word spells put at the front of the queue.
Log entries 1 (DESIGN CHOICE), 11 (DESIGN CHOICE). Log entries 1 (DESIGN CHOICE), 149 (DESIGN CHOICE). -/
def State.withFetchWord (s : State) (nbits w : Nat) : State :=
  match decodeTableWord nbits w with
  | some c => { s with pending := c :: s.pending }
  | none => s

end Sys2Proof.Machine
end

