-- ==== Sys2Proof/Machine/Arrive.lean ====
section
/-! DEFINITION. How the commands of one cycle come to stand in the queue (R7, R10, R53): the lower master first. -/

namespace Sys2Proof.Machine

/-- The master that sends a command, for the accesses of a master to a register. -/
def masterOf (c : Instr) : Option Master :=
  match c with
  | .registerWrite m _ _ _ | .cfgLockWrite m _ _ | .softRst m _ _ | .blockPowerRequest m _ _ | .irqForce m _ _
  | .cntSnap m _ _ | .secWpolWrite m _ _ | .denyCountRead m | .swSet m _ | .swClr m _ | .routeWrite m _ _
  | .maskWrite m _ _ | .hostEoi m _ | .softReset m _ | .pushBoot m _ _ | .enrol m _ | .erase m | .debugUnlock m _
  | .debugLock m | .gateSwapArm m _ _ | .tblWrite m _ | .tblRead m _ | .fdbWrite m _ | .fdbInsert m _
  | .fdbDelete m _ | .fdbLookup m _ | .agePeriodWrite m _ | .dropRingLostRead m | .smpLostRead m | .catInstall m _
  | .catEnable m _ | .catDisable m _ | .catRevoke m _ | .catRead m _ | .sieveWrite m _ | .sieveRead m _
  | .keyPoolWrite m _ _ | .vrSizeWrite m _ | .vrOverrunRead m | .gateCtrlWrite m _ | .cntIncrement m _
  | .cntRaise m _ | .cntRead m _ | .journalExport m _ | .auditDroppedRead m | .sdsEnable m _ | .anRestart m _
  | .prbsErrRead m _ _ | .redCtrlWrite m _ _ | .mdioRead m _ _ | .mdioWrite m _ _ | .mdioAddress m _ _
  | .mdioPostReadIncrement m _ _ | .plkCommit m _ | .plkUncommit m _ | .plkStart m _ | .plkStop m _
  | .requestMode m _ _ | .mdbStart m _ | .mdbStop m _ | .recover m _ | .abort m _ _ | .lastErrRead m _
  | .progWrite m _ _ _ | .inject m _ _ | .ptcAbort m _ _ | .ptcRestart m _ _ | .ptcRun m _ _ | .ownWrite m _ _ _
  | .tnowLoRead m | .loadPers m _ _ | .unloadPers m _ | .rebalance m | .declareDead m _ | .postJob m _ _
  | .bindWrite m _ _ | .bankCtrlWrite m _ _ | .bankPowerRequest m _ _ | .replace m _ | .scrubBank m _
  | .bankDenial m _ _ | .bnkDenyCountRead m | .tailWrite m _ _ | .ringEnable m _ _ | .ringStop m _ _
  | .fifoDataRead m _ | .fifoFlush m _ _ | .aqPost m _ _ | .aqRead m _ | .aqFlush m _ _ | .lockRead m _
  | .lockRelease m _ _ | .forceRelease m _ | .mbxLockRead m _ | .mbxLockRelease m _ _ | .mbxSend m _ _
  | .mbxAck m _ _ | .mbxReset m _ _ | .refCtrlWrite m _ | .rateWrite m _ _ | .adjSet m _ | .adjStep m _
  | .adjSlew m _ _ | .adjCancel m _ | .tnsSnap m _ | .tbNsRead m _ | .capNsRead m _ | .tsrLostRead m
  | .outputArm m _ _ | .stateReqActive m | .stateReqDoze m _ | .stateReqRetain m _ | .stateReqVault m _
  | .padRelease m _ | .portgrpReqWrite m _ | .clusterStepWrite m _ _ | .rtcSecWrite m _ | .rxDataRead m
  | .txDataWrite m _ | .atbSelect m _ _ | .refusedRead m => some m
  | _ => none

/-- Where the rules on same-cycle events put a command: what they say comes first has the lower number (R65, R138, R183, R242,
R289, R308, R327, R347, R374, R445, R473, R504, R536, R556). Accesses of masters stand at 100. What hardware does by itself
stands behind them, so that a bit that software clears and hardware sets in one cycle ends set (R7).
Log entry 1 (DESIGN CHOICE). -/
def tieClass (c : Instr) : Nat :=
  match c with
  | .por _ => 0 | .brownAon _ => 1 | .lpOverload _ => 2 | .brownCore _ => 3 | .thermalTrip _ => 4
  | .wdtSsp _ | .lockstepMismatch _ => 5 | .pinReset _ => 6
  | .hostTxDescriptor .. => 9
  | .supplyWarning _ | .perstAssert .. | .linkDown .. | .atbEnablementChange => 10
  | .egressSelect .. => 11
  | .catRevoke .. | .catDisable .. | .debugUnlock .. | .extest | .extestPulse | .extestTrain | .clamp | .highz
  | .redCtrlWrite .. | .plkStop .. => 20
  | .capNsRead .. => 28
  | .macReceive .. | .hsrPassThrough .. | .gateAdmission _ | .unitTakesEntry _ | .signatureResult .. | .verdict _
  | .fetchPoint .. | .cycleStart .. | .captureEdge .. | .budgetTick .. | .hostRxFrame .. | .jobNextRead _
  | .ptcNop _ | .ptcSet _ | .ptcMov .. | .ptcOut _ | .ptcIn .. | .ptcPush _ | .ptcPull _ | .ptcWait .. | .ptcAt _
  | .ptcJmp .. | .ptcIllegal _ | .ptcStallEnd .. | .atFire .. | .packetLoad _ => 30
  | .aqRead .. => 39
  | .lockRelease .. | .mbxLockRelease .. => 40
  | .bindWrite .. => 41
  | .placementRecompute => 42
  | .inject .. | .replace .. | .mbxReset .. | .clusterStepWrite .. => 200
  | .ownWrite .. => 210
  | .dmaRecv _ | .dmaSend _ | .dmaRead _ | .dmaWrite _ | .ckptCommit .. => 250
  | .engineDeclaredDead .. => 260
  | .echoMismatch .. | .storeAsync _ => 290
  | .wakeSource _ | .mdbWake _ | .rtcAlarm => 310
  | .gateHoldLimitExpiry _ | .holdLimitExpiry _ | .mdbLifeExpiry .. | .guardianWindowClose .. | .listenTimeout .. => 320
  | c => if (masterOf c).isSome then 100 else 300

/-- The place of a frame among the frames of its cycle: ascending ingress port (R120), but a pair's A copy before its B copy
(R234). -/
def tieFrame (s : State) (p : Nat) : Nat :=
  match pairOf s p with
  | some (_, a, b) => if p = b then 2 * max a b + 1 else 2 * p
  | none => 2 * p

/-- The place of a command within its class: the lower master first (R10), or what its own rule says. -/
def tieSub (s : State) (c : Instr) : Nat :=
  match c with
  | .macReceive p _ _ | .hsrPassThrough p _ _ => tieFrame s p.val
  | .plFrameReceive _ chB _ _ _ => nb chB
  | .engineDeclaredDead n _ => n.val
  | .ownWrite m n _ _ => 64 * n.val + m.toNat
  | c => match masterOf c with
    | some m => m.toNat
    | none => 0

/-- The place of a command among those of its cycle. -/
def tieRank (s : State) (c : Instr) : Nat := 65536 * tieClass c + tieSub s c

/-- Puts a command among commands of its cycle behind every one of its own rank or a lower one. -/
def tieInsert (s : State) (l : List Instr) (c : Instr) : List Instr :=
  match l with
  | [] => [c]
  | x :: r => if tieRank s c < tieRank s x then c :: x :: r else x :: tieInsert s r c

/-- The commands of one cycle in the order in which they act (R10, R53). Log entry 1 (DESIGN CHOICE). -/
def tieOrder (s : State) (l : List Instr) : List Instr := l.foldl (tieInsert s) []

/-- The commands `l` reach the block in one cycle: they stand behind those that wait, in the order of the tie rule (R10, R53).
Log entry 1 (DESIGN CHOICE). -/
def arrive (l : List Instr) (s : State) : State := { s with pending := s.pending ++ tieOrder s l }

end Sys2Proof.Machine
end

