-- ==== Sys2Proof/Safety.lean ====
section
/-! DEFINITION. What counts as a safe run, in the terms that statements use: the parts of the state and which of them two
states share, who may reach a register, and the invariant of memory. -/

namespace Sys2Proof.Machine

open Reg

/-- The parts of the state, but for the queue: one per field of `State`. -/
inductive Part where
  /-- registers -/
  | regs
  /-- live counters -/
  | cnts
  /-- snapshot copies -/
  | snaps
  /-- the free values used -/
  | free
  /-- memory -/
  | mem
  /-- the output log -/
  | outs
  /-- the result of the latest access -/
  | resp
  /-- interrupt lines -/
  | intc
  /-- the SSP and system state -/
  | sys
  /-- the switch core -/
  | sw
  /-- Ethernet ports -/
  | eth
  /-- the Gate -/
  | gate
  /-- the vault -/
  | vlt
  /-- memory banks -/
  | bnk
  /-- Period Link controllers -/
  | plk
  /-- multidrop controllers -/
  | mdb
  /-- Particle engines -/
  | ptc
  /-- packing FIFOs -/
  | fiq
  /-- alarm queues -/
  | aq
  /-- mailbox tags -/
  | mbx
  /-- the host interface -/
  | hif
  /-- time -/
  | time
  /-- protocol engines -/
  | eng
  /-- placement -/
  | plc
  /-- Hertis-32 cores -/
  | cores
  /-- power control -/
  | pwr
  /-- the management interface -/
  | mgt
  /-- test access -/
  | test
  /-- the vault's counters, in so far as they fall -/
  | falls
  deriving DecidableEq, Repr

/-- Every field. -/
def allParts : List Part :=
  [.regs, .cnts, .snaps, .free, .mem, .outs, .resp, .intc, .sys, .sw, .eth, .gate, .vlt, .bnk,
    .plk, .mdb, .ptc, .fiq, .aq, .mbx, .hif, .time, .eng, .plc, .cores, .pwr, .mgt, .test]

/-- Whether two states agree on a part; for `falls`, that no counter of the vault is lower in the second. -/
def Part.same (p : Part) (s t : State) : Prop :=
  match p with
  | .regs => t.regs = s.regs
  | .cnts => t.cnts = s.cnts
  | .snaps => t.snaps = s.snaps
  | .free => t.free = s.free
  | .mem => t.mem = s.mem
  | .outs => t.outs = s.outs
  | .resp => t.resp = s.resp
  | .intc => t.intc = s.intc
  | .sys => t.sys = s.sys
  | .sw => t.sw = s.sw
  | .eth => t.eth = s.eth
  | .gate => t.gate = s.gate
  | .vlt => t.vlt = s.vlt
  | .bnk => t.bnk = s.bnk
  | .plk => t.plk = s.plk
  | .mdb => t.mdb = s.mdb
  | .ptc => t.ptc = s.ptc
  | .fiq => t.fiq = s.fiq
  | .aq => t.aq = s.aq
  | .mbx => t.mbx = s.mbx
  | .hif => t.hif = s.hif
  | .time => t.time = s.time
  | .eng => t.eng = s.eng
  | .plc => t.plc = s.plc
  | .cores => t.cores = s.cores
  | .pwr => t.pwr = s.pwr
  | .mgt => t.mgt = s.mgt
  | .test => t.test = s.test
  | .falls => ∀ c, (vaultCounter s c).toNat ≤ (vaultCounter t c).toNat

/-- At most the parts listed differ from `s` to `t`; the queue does not. -/
def Only (l : List Part) (s t : State) : Prop := t.pending = s.pending ∧ ∀ p, p ∉ l → p.same s t

/-- The invariant of memory: it is in its canonical form. -/
def MemoryOk (s : State) : Prop := Memory.wf s.mem = true

/-- Whether a write of master `m` to the register at `a` is let through: the page is there, is the master's to write, and
answers (R41, R49, R55). -/
def writeOpen (s : State) (m : Master) (a : Nat) : Bool :=
  match pageOf a with
  | none => false
  | some pg => !(portClosed s m) && mayWrite s m pg.blk &&
      (inHeader (a - pg.base) || (blockReady s pg && dozeAnswers s m pg.blk))

/-- Whether a read of master `m` of the register at `a` is let through (R41, R49, R56). -/
def readOpen (s : State) (m : Master) (a : Nat) : Bool :=
  match pageOf a with
  | none => false
  | some pg => !(portClosed s m) && mayRead m pg.blk (a - pg.base) &&
      (inHeader (a - pg.base) || (blockReady s pg && dozeAnswers s m pg.blk))

/-- Master `m` may write the register at `a` now. -/
abbrev MayWrite (s : State) (m : Master) (a : Nat) : Prop := writeOpen s m a = true

/-- Master `m` may read the register at `a` now. -/
abbrev MayRead (s : State) (m : Master) (a : Nat) : Prop := readOpen s m a = true

/-- Command `c` completes at `s`: it answers a next state, and `P` holds of it. -/
def Ends (c : Instr) (s : State) (P : State → Prop) : Prop := ∃ t, exec c s = .next t ∧ P t

/-- The state `t` that a reset of cause `c` leaves, together with the other causes `also` of its cycle: it is held, the
causes are recorded in the order of R65, memory is empty, and the vault's contents and the fuses stand (R64-R67). -/
def ResetBy (c : Nat) (also : BitVec 8) (s t : State) : Prop :=
  let mask := Nat.lor also.toNat (2 ^ (c - 1))
  t.sys.held = true ∧ getF t SYS_RESET_CAUSE 7 0 = causeOf mask ∧
  getF t SYS_RESET_CAUSE 15 8 = (if causeOf mask = rcPor then 0 else getF s SYS_RESET_CAUSE 7 0) ∧
  getF t SYS_RESET_CAUSE 23 16 = mask ∧ t.mem = [] ∧ t.vlt.counters = s.vlt.counters ∧
  t.vlt.journal = s.vlt.journal ∧ t.sys.deviceId = s.sys.deviceId ∧ t.sys.slots = s.sys.slots

/-- The state from which the instruction after AT issues: the first core cycle in which the CORE copy has reached T, or the one
after AT where T had passed; `STEP` has moved T on (R31, R340, R341). -/
def ptcFired (s : State) (n : Nat) (step late : Bool) : State :=
  let q := ptc s n
  let s0 := if late = true ∨ q.t.toNat ≤ q.due / 2 then ptcTurn s n else advanceCore s 4 q.t.toNat
  ptcMod s0 n fun q => { q with
    armed := none, t := if step then q.t + BitVec.ofNat 64 (getR s (PTC_PERIOD n)).toNat else q.t }

/-- The state after steps 2 and 3 of R370: jobs, service requests and migrations of the dead engine `n` on silicon `p`
have ended, and the silicon is fenced and gives up its number. -/
def fenced (s : State) (n p : Nat) : State :=
  let js := (eng s n).taken
  let s1 := svcEndAll (jobsFail (engMod s n fun e => { e with taken := [], fenced := true }) n 0x30 js) n
  let s2 := (s1.plc.migs.filter fun g => g.switched && decide (g.src = n)).foldl
    (fun t g => if (qhSlot t n g.srcSlot).st = 2 then handOver t g else t) s1
  let m := getR s2 (PEN_MAP p)
  coreStop (putB (setR s2 (PEN_MAP p) (setFld (setFld (setBit m 31 false) 28 27 3) 21 16 0x3F)) (PEN_RUN_CTRL p) 0 true) n

/-- The receive ring that the host's frame `fr` goes to (R455). -/
def rxRingOf (s : State) (fr : Frame) : Nat := 16 + fld (getR s HIF_RX_MAP) (4 * fr.tc + 3) (4 * fr.tc)

/-- Whether a receive ring takes its frame now: the interface is on, the device is ACTIVE and the ring is enabled or
still has a frame in progress. -/
def rxRun (s : State) (fr : Frame) : Bool :=
  hifOn s && awake s && (getB s (rgCTRL (rxRingOf s fr)) 0 || (ringSt s (rxRingOf s fr)).stopping)

/-- Core `c` is about to issue the word `w`, an `o` that raises nothing; `x` is the core with the results of its cycle
landed, `t` the block (R380, R381). -/
abbrev Issues (s : State) (c : Nat) (o : HOp) (w : Word) (x : CoreSt) (t : State) : Prop :=
  atBoundary s c = some (x, t) ∧ fetchWord t c x x.pc = .inr w ∧ opOf w = some o ∧ raises t c x o w = none

/-- The core at the boundary where `r` is raised by its next word, an `o`. -/
abbrev Trips (s : State) (c : Nat) (o : HOp) (w : Word) (x : CoreSt) (t : State) (r : Raise) : Prop :=
  atBoundary s c = some (x, t) ∧ fetchWord t c x x.pc = .inr w ∧ opOf w = some o ∧ raises t c x o w = some r

/-- The result `v` of an instruction for its register, `d` cycles away, and the next instruction in the next cycle. -/
abbrev gives (c d : Nat) (v w : Word) (x : CoreSt) (t : State) : State := coreSet t c (retire (flies x d (fRd w) v))

/-- Core `c` as it stands when its wait `q` is cut short: the cycles have passed and what was due has landed (R407). -/
abbrev cutWait (s : State) (c : Nat) (q : CoreWait) : CoreSt :=
  let x := coreOf s c
  let n := x.cyc + waited s c q
  { landTo c x n with cyc := n, delay := none }

/-- The parts that a command may change. -/
def touched (c : Instr) : List Part :=
  match c with
  | .registerWrite .. | .softRst .. | .blockPowerChangeDone .. | .por .. | .pinReset .. | .brownCore .. |
    .brownAon .. | .lpOverload .. | .wdtSsp .. | .lockstepMismatch .. | .softReset .. | .thermalTrip .. |
    .resetRelease .. | .pushBoot .. | .bundleRegisterWrites | .bundleOwnerTransfer .. | .bundleVaultPolicy |
    .bundleEraseVault | .h32Sw .. | .h32Sh .. | .h32Sb .. | .h32Swpi .. | .wakeComplete .. =>
    allParts
  | .cfgLockWrite .. | .blockPowerRequest .. | .irqForce .. | .secWpolWrite .. | .denyCountRead .. | .swSet .. |
    .swClr .. | .routeWrite .. | .maskWrite .. | .hostEoi .. | .dropRingLostRead .. | .smpLostRead .. |
    .vrOverrunRead .. | .gateCtrlWrite .. | .cntRead .. | .auditDroppedRead .. | .anRestart .. | .prbsErrRead .. |
    .plkCommit .. | .plkUncommit .. | .recover .. | .lastErrRead .. | .progWrite .. | .tnowLoRead .. |
    .bankDenial .. | .bnkDenyCountRead .. | .lockRead .. | .lockRelease .. | .forceRelease .. | .mbxLockRead .. |
    .mbxLockRelease .. | .mbxAck .. | .mbxReset .. | .refCtrlWrite .. | .tnsSnap .. | .tbNsRead .. |
    .tsrLostRead .. | .padRelease .. | .refusedRead .. =>
    [.regs, .outs, .resp, .intc]
  | .cntSnap .. =>
    [.regs, .cnts, .snaps, .outs, .resp, .intc]
  | .thermalHoldEnd | .slewComplete .. | .pulseEnd .. | .ppsOutputEvent .. =>
    [.cnts, .sys, .time, .pwr]
  | .aonCrystalConfirmed =>
    [.time]
  | .enrol .. =>
    [.regs, .free, .outs, .resp, .intc, .gate, .vlt, .test]
  | .erase .. =>
    [.regs, .outs, .resp, .intc, .gate, .vlt]
  | .debugUnlock .. =>
    [.regs, .cnts, .free, .mem, .outs, .resp, .intc, .sw, .gate, .vlt, .bnk, .mdb, .test]
  | .debugLock .. =>
    [.regs, .outs, .resp, .intc, .gate, .vlt, .test]
  | .vaultEraseComplete =>
    [.regs, .free, .outs, .intc, .sys, .gate, .vlt, .test, .falls]
  | .macReceive .. | .hsrPassThrough .. =>
    [.regs, .cnts, .free, .mem, .outs, .intc, .sw, .eth, .gate, .vlt, .bnk, .time]
  | .macControlReceive .. =>
    [.cnts]
  | .pauseReceive .. | .lpiExit .. =>
    [.regs, .cnts, .outs, .intc, .eth]
  | .pauseExpiry .. | .modUsExpiry .. | .timedOutputEvent .. | .quiesceTimeout | .sensorSample .. | .rtcAlarm =>
    [.regs, .cnts, .outs, .intc, .sys, .time, .pwr]
  | .pauseXoffSend .. | .pauseRefresh .. | .pauseXonSend .. | .verifySend .. | .verifyReceive .. | .lpiEntry .. =>
    [.regs, .cnts, .outs, .intc, .sys, .eth, .time, .pwr]
  | .egressSelect .. | .macTransmitEnd .. =>
    [.regs, .cnts, .free, .mem, .outs, .intc, .sys, .sw, .eth, .gate, .vlt, .bnk, .time, .pwr]
  | .ageingHeadCheck | .supplyVerifyAbandon =>
    [.regs, .cnts, .free, .mem, .outs, .intc, .sys, .sw, .gate, .vlt, .bnk, .time, .pwr]
  | .gateIntervalExpiry .. =>
    [.cnts, .sys, .sw, .time, .pwr]
  | .gateSwapArm .. | .tblWrite .. | .tblRead .. | .fdbWrite .. | .fdbInsert .. | .fdbDelete .. | .fdbLookup .. |
    .agePeriodWrite .. =>
    [.regs, .outs, .resp, .intc, .sw]
  | .gateBankSwap .. =>
    [.regs, .cnts, .sys, .sw, .time, .pwr]
  | .fdbAgeSweep | .budgetTick .. =>
    [.regs, .cnts, .outs, .intc, .sys, .sw, .time, .pwr]
  | .purgeScanComplete =>
    [.regs, .cnts, .mem, .outs, .intc, .sw, .bnk]
  | .withdrawalPost =>
    [.sw]
  | .withdrawalScanComplete | .verdict .. =>
    [.regs, .cnts, .free, .mem, .outs, .intc, .sw, .gate, .vlt, .bnk]
  | .gateAdmission .. =>
    [.regs, .cnts, .free, .mem, .outs, .intc, .sw, .gate, .bnk]
  | .unitTakesEntry .. | .svcPost .. | .serviceRequestEnd .. =>
    [.regs, .mem, .outs, .intc, .gate, .bnk]
  | .signatureResult .. =>
    [.gate]
  | .replayMarkDurable .. | .counterDurable | .logCompaction .. =>
    [.regs, .outs, .intc, .vlt]
  | .gateHoldLimitExpiry .. =>
    [.regs, .cnts, .free, .mem, .outs, .intc, .sys, .sw, .gate, .vlt, .bnk, .mdb, .time, .pwr]
  | .catInstall .. | .catEnable .. | .catDisable .. | .catRevoke .. | .catRead .. | .mdbStop .. =>
    [.regs, .cnts, .free, .mem, .outs, .resp, .intc, .sw, .gate, .vlt, .bnk, .mdb]
  | .catCommandDurable =>
    [.regs, .free, .outs, .intc, .gate, .vlt]
  | .sieveWrite .. | .sieveRead .. | .keyPoolWrite .. =>
    [.regs, .outs, .resp, .intc, .gate]
  | .vrSizeWrite .. =>
    [.regs, .mem, .outs, .resp, .intc, .gate, .bnk]
  | .supplyWarning .. =>
    [.regs, .cnts, .free, .mem, .outs, .intc, .sys, .sw, .gate, .vlt, .bnk, .plc, .pwr]
  | .supplyWarningClear .. =>
    [.regs, .outs, .intc, .gate, .vlt]
  | .cntIncrement .. | .cntRaise .. | .journalExport .. =>
    [.regs, .outs, .resp, .intc, .vlt]
  | .journalExportDone =>
    [.regs, .mem, .outs, .intc, .vlt, .bnk]
  | .journalSecondEnd =>
    [.regs, .cnts, .outs, .intc, .sys, .gate, .vlt, .time, .pwr]
  | .journalAllowanceAccrual =>
    [.regs, .vlt]
  | .linkUp .. | .linkDown .. =>
    [.regs, .cnts, .outs, .intc, .sw, .eth]
  | .sdsEnable .. =>
    [.regs, .cnts, .free, .outs, .resp, .intc, .sw, .eth]
  | .respondReceive .. | .clusterStepApplied .. =>
    [.regs, .cnts, .outs, .intc]
  | .lpiRx .. | .mdbWake .. | .wakeSource .. =>
    [.regs, .outs, .intc, .sys, .pwr]
  | .redCtrlWrite .. | .mdioRead .. | .mdioWrite .. | .mdioAddress .. | .mdioPostReadIncrement .. =>
    [.regs, .outs, .resp, .intc, .eth]
  | .dupEntryExpiry .. =>
    [.cnts, .sys, .eth, .time, .pwr]
  | .mdioFrameEnd .. =>
    [.regs, .outs, .intc, .eth]
  | .plkStart .. =>
    [.regs, .outs, .resp, .intc, .sw, .plk]
  | .plkStop .. =>
    [.regs, .cnts, .free, .mem, .outs, .resp, .intc, .sw, .gate, .vlt, .bnk, .plk]
  | .requestMode .. =>
    [.regs, .outs, .resp, .intc, .plk]
  | .cycleStart .. | .comparatorFire .. =>
    [.regs, .cnts, .outs, .intc, .sys, .plk, .time, .pwr]
  | .fetchPoint .. | .actionPoint .. | .plTransmitEnd .. | .plFrameReceive .. | .nitStart .. | .listenTimeout .. |
    .guardianWindowClose .. =>
    [.regs, .cnts, .free, .mem, .outs, .intc, .sys, .sw, .gate, .vlt, .bnk, .plk, .time, .pwr]
  | .slotEnd .. | .guardianWindowOpen .. =>
    [.regs, .cnts, .sys, .time, .pwr]
  | .echoMismatch .. =>
    [.regs, .cnts, .free, .mem, .outs, .intc, .sw, .gate, .vlt, .bnk, .plk]
  | .mdbStart .. =>
    [.regs, .outs, .resp, .intc, .mdb]
  | .abort .. =>
    [.regs, .cnts, .mem, .outs, .resp, .intc, .bnk, .mdb]
  | .integrationComplete .. =>
    [.regs, .mdb]
  | .recoveryComplete .. =>
    [.regs, .outs, .intc, .mdb]
  | .txBufferLoad .. | .mdbFrameSent .. | .mdbFrameFailed .. =>
    [.regs, .cnts, .free, .mem, .outs, .intc, .sw, .gate, .vlt, .bnk, .mdb]
  | .arbitrationStart .. =>
    [.regs, .gate, .mdb]
  | .mdbLifeExpiry .. =>
    [.regs, .cnts, .mem, .outs, .intc, .sys, .bnk, .mdb, .time, .pwr]
  | .mdbFrameReceive .. =>
    [.regs, .cnts, .free, .mem, .outs, .intc, .bnk, .mdb]
  | .rxFifoDrain .. =>
    [.regs, .mem, .outs, .intc, .bnk, .mdb]
  | .mdbModeChange .. =>
    [.mdb]
  | .ptcNop .. | .ptcSet .. | .ptcMov .. | .ptcOut .. | .ptcIn .. | .ptcPush .. | .ptcPull .. | .ptcWait .. |
    .ptcAt .. | .ptcJmp .. | .ptcIllegal .. | .atFire .. =>
    [.regs, .cnts, .free, .mem, .outs, .intc, .sys, .sw, .gate, .vlt, .bnk, .ptc, .fiq, .time, .pwr]
  | .ptcStallEnd .. =>
    [.regs, .cnts, .free, .mem, .outs, .intc, .sw, .gate, .vlt, .bnk, .ptc, .fiq]
  | .packetLoad .. =>
    [.regs, .cnts, .free, .mem, .outs, .intc, .sw, .gate, .vlt, .bnk, .ptc]
  | .inject .. | .ownWrite .. =>
    [.regs, .outs, .resp, .intc, .ptc]
  | .ptcAbort .. | .ptcRestart .. | .ptcRun .. =>
    [.regs, .cnts, .free, .mem, .outs, .resp, .intc, .sw, .gate, .vlt, .bnk, .ptc]
  | .dmaRecv .. | .dmaSend .. | .dmaRead .. | .dmaWrite .. =>
    [.regs, .cnts, .free, .mem, .outs, .intc, .sw, .gate, .vlt, .bnk, .eng]
  | .dmaCplRead .. =>
    [.regs, .resp, .eng]
  | .qhTxHeadWrite .. | .qhRxTailWrite .. | .crcData .. =>
    [.regs]
  | .jobNextRead .. =>
    [.resp, .eng]
  | .jobEnd .. =>
    [.regs, .mem, .outs, .intc, .bnk, .eng, .plc]
  | .jobCompletionRecord =>
    [.regs, .mem, .outs, .intc, .bnk, .plc]
  | .timerArm .. | .ckptCommit .. | .migReady .. =>
    [.regs, .eng]
  | .engineTimerFire .. =>
    [.regs, .cnts, .sys, .time, .eng, .pwr]
  | .engineWdtKick .. =>
    [.eng]
  | .engineWatchdogExpiry .. =>
    [.regs, .cnts, .outs, .intc, .sys, .time, .eng, .pwr]
  | .migDone .. =>
    [.regs, .cnts, .outs, .intc, .eng, .plc]
  | .migrationSwitch .. =>
    [.regs, .eng, .plc]
  | .migrationAbandon .. =>
    [.regs, .cnts, .outs, .intc, .sys, .time, .plc, .pwr]
  | .loadPers .. | .unloadPers .. =>
    [.regs, .outs, .resp, .intc, .plc]
  | .rebalance .. =>
    [.regs, .cnts, .free, .mem, .outs, .resp, .intc, .sw, .bnk, .eng, .plc, .cores]
  | .declareDead .. =>
    [.regs, .outs, .resp, .intc, .eng]
  | .postJob .. =>
    [.regs, .mem, .outs, .resp, .intc, .eng, .plc]
  | .bindWrite .. =>
    [.regs, .cnts, .outs, .resp, .intc, .plc]
  | .placementRecompute =>
    [.regs, .cnts, .free, .mem, .outs, .intc, .sw, .bnk, .eng, .plc, .cores]
  | .engineDeclaredDead .. =>
    [.regs, .cnts, .mem, .outs, .intc, .gate, .vlt, .bnk, .eng, .plc, .cores]
  | .takeoverComplete .. =>
    [.regs, .mem, .outs, .intc, .eng, .cores]
  | .mgpWatchdogExpiry =>
    [.regs, .cnts, .free, .outs, .intc, .sys, .time, .plc, .cores, .pwr]
  | .h32Add .. | .h32Sub .. | .h32Neg .. | .h32And .. | .h32Or .. | .h32Xor .. | .h32Andn .. | .h32Slt .. |
    .h32Sltu .. | .h32Sll .. | .h32Srl .. | .h32Sra .. | .h32Clz .. | .h32Sextb .. | .h32Sexth .. | .h32Addi .. |
    .h32Andi .. | .h32Ori .. | .h32Xori .. | .h32Slti .. | .h32Sltiu .. | .h32Lui .. | .h32Slli .. | .h32Srli .. |
    .h32Srai .. | .h32Mul .. | .h32Mulh .. | .h32Mulhu .. | .h32Div .. | .h32Divu .. | .h32Rem .. | .h32Remu .. |
    .h32Beq .. | .h32Bne .. | .h32Blt .. | .h32Bge .. | .h32Bltu .. | .h32Bgeu .. | .h32Jal .. | .h32Jalr .. |
    .h32Rpt .. | .h32Rptu .. | .h32Wfe .. | .h32Wfet .. | .h32Waitt .. | .h32Eret .. | .h32Ecall .. |
    .h32Ebreak .. | .h32Csrr .. | .h32Csrw .. | .h32Csrs .. | .h32Csrc .. | .coreWdtKick .. =>
    [.cnts, .free, .cores]
  | .h32Lw .. | .h32Lh .. | .h32Lhu .. | .h32Lb .. | .h32Lbu .. | .h32Lwpi .. =>
    [.regs, .cnts, .free, .fiq, .eng, .cores]
  | .farLoadData .. =>
    [.regs, .free, .outs, .resp, .intc, .fiq, .aq, .time, .cores, .mgt]
  | .waitEnd .. =>
    [.cnts, .sys, .time, .cores, .pwr]
  | .h32Sev .. =>
    [.regs, .cnts, .free, .cores]
  | .exceptionEntry .. =>
    [.free, .cores]
  | .interruptEntry .. | .storeAsync .. =>
    [.cores]
  | .bankCtrlWrite .. | .bankPowerRequest .. =>
    [.regs, .mem, .outs, .resp, .intc, .sw, .bnk]
  | .drainComplete .. | .zeroingComplete .. =>
    [.regs, .mem, .outs, .intc, .sw, .bnk]
  | .bankWakeComplete .. =>
    [.regs, .mem, .bnk]
  | .replace .. | .scrubBank .. =>
    [.regs, .mem, .outs, .resp, .intc, .vlt, .bnk]
  | .scrubRow .. =>
    [.regs, .cnts, .outs, .intc, .vlt, .bnk]
  | .eccWriteback =>
    [.bnk]
  | .collide .. =>
    [.regs, .cnts, .mem, .outs, .intc, .bnk, .eng, .cores]
  | .perstAssert .. =>
    [.regs, .cnts, .mem, .outs, .intc, .sw, .bnk, .hif]
  | .hostTxDescriptor .. =>
    [.regs, .cnts, .free, .mem, .outs, .intc, .sw, .bnk, .hif]
  | .hostRxFrame .. =>
    [.regs, .cnts, .free, .mem, .outs, .intc, .sw, .gate, .vlt, .bnk, .hif]
  | .tailWrite .. | .ringEnable .. | .ringStop .. =>
    [.regs, .outs, .resp, .intc, .hif]
  | .fifoDataRead .. | .fifoFlush .. =>
    [.regs, .outs, .resp, .intc, .fiq]
  | .aqPost .. =>
    [.regs, .cnts, .outs, .resp, .intc, .aq]
  | .aqRead .. | .aqFlush .. =>
    [.regs, .outs, .resp, .intc, .aq]
  | .mbxSend .. =>
    [.regs, .outs, .resp, .intc, .sys, .mbx, .pwr]
  | .ref10mLoss | .ref10mRegain | .pcieLinkUp .. | .pllLockLost .. =>
    [.regs, .outs, .intc]
  | .rateWrite .. | .adjSlew .. | .adjCancel .. | .capNsRead .. | .outputArm .. | .rtcSecWrite .. =>
    [.regs, .outs, .resp, .intc, .time]
  | .adjSet .. | .adjStep .. =>
    [.regs, .outs, .resp, .intc, .sw, .time]
  | .holdLimitExpiry .. =>
    [.regs, .cnts, .outs, .intc, .sys, .vlt, .time, .pwr]
  | .captureEdge .. =>
    [.regs, .cnts, .outs, .intc, .time]
  | .stateReqActive .. | .stateReqDoze .. | .stateReqRetain .. | .stateReqVault .. =>
    [.regs, .outs, .resp, .intc, .sys, .pwr]
  | .quiescenceComplete .. =>
    [.regs, .cnts, .mem, .outs, .intc, .sys, .sw, .eth, .bnk, .hif, .time, .pwr]
  | .portgrpReqWrite .. =>
    [.regs, .cnts, .snaps, .outs, .resp, .intc, .eth]
  | .clusterStepWrite .. =>
    [.regs, .cnts, .outs, .resp, .intc]
  | .mgtAddressMatch .. =>
    [.regs, .outs, .intc, .sys, .pwr, .mgt]
  | .mgtByte .. =>
    [.regs, .cnts, .outs, .intc, .mgt]
  | .rxDataRead .. | .txDataWrite .. =>
    [.regs, .outs, .resp, .intc, .mgt]
  | .telemetrySnapshot =>
    [.regs, .cnts, .snaps, .mem, .outs, .intc, .sys, .bnk, .time, .pwr]
  | .atbSelect .. =>
    [.regs, .outs, .resp, .intc, .test]
  | .atbConnect .. =>
    [.regs, .cnts, .sys, .time, .pwr, .test]
  | .atbEnablementChange =>
    [.regs, .outs, .intc, .test]
  | .tapReset | .idcode | .samplePreload | .dbgAccess | .prodTest | .bypass .. =>
    [.test]
  | .extest | .extestPulse | .extestTrain | .clamp | .highz =>
    [.regs, .cnts, .free, .mem, .outs, .intc, .sys, .sw, .gate, .vlt, .bnk, .mdb, .test]
  | .perstRelease =>
    [.hif]
  | .pmicEnDrivenHigh =>
    [.sys]
  | .releaseRecordDurable .. =>
    [.regs, .cnts, .free, .mem, .outs, .intc, .sys, .sw, .gate, .vlt, .bnk]
  | .sensorCalibration .. =>
    [.regs, .outs, .intc, .pwr]
  | .stretchMaxExpiry =>
    [.regs, .cnts, .outs, .intc, .sys, .time, .pwr, .mgt]

/-- The address of a header register of the page at `page`. -/
def hdrAddr (page : Word) (off : Nat) : Nat :=
  match pageOf page.toNat with
  | some pg => pg.base + off
  | none => page.toNat

/-- The master and the register of a command that writes a register of its own row. -/
def writeOf (c : Instr) : Option (Master × Nat) :=
  match c with
  | .cfgLockWrite m page _ => some (m, hdrAddr page 0x028)
  | .softRst m page _ => some (m, hdrAddr page 0x008)
  | .blockPowerRequest m page _ => some (m, hdrAddr page 0x008)
  | .irqForce m page _ => some (m, hdrAddr page 0x01C)
  | .cntSnap m page _ => some (m, hdrAddr page 0x030)
  | .secWpolWrite m t _ => some (m, SEC_WPOL t.val)
  | .swSet m _ => some (m, INT_SW_SET)
  | .swClr m _ => some (m, INT_SW_CLR)
  | .routeWrite m n _ => some (m, INT_ROUTE n.val)
  | .maskWrite m k _ => some (m, INT_MASK k.val)
  | .hostEoi m vec => some (m, INT_HOST_EOI vec.val)
  | .softReset m _ => some (m, SYS_SOFT_RESET)
  | .pushBoot m _ _ => some (m, SYS_CMD)
  | .enrol m _ => some (m, SYS_CMD)
  | .erase m => some (m, SYS_CMD)
  | .debugUnlock m _ => some (m, SYS_CMD)
  | .debugLock m => some (m, SYS_CMD)
  | .gateSwapArm m p _ => some (m, SWC_GATE_CTRL p.val)
  | .tblWrite m _ => some (m, SWC_TBL_CMD)
  | .tblRead m _ => some (m, SWC_TBL_CMD)
  | .fdbWrite m _ => some (m, FDB_CMD)
  | .fdbInsert m _ => some (m, FDB_CMD)
  | .fdbDelete m _ => some (m, FDB_CMD)
  | .fdbLookup m _ => some (m, FDB_CMD)
  | .agePeriodWrite m _ => some (m, FDB_AGE_PERIOD)
  | .catInstall m _ => some (m, IMG_CAT_CMD)
  | .catEnable m _ => some (m, IMG_CAT_CMD)
  | .catDisable m _ => some (m, IMG_CAT_CMD)
  | .catRevoke m _ => some (m, IMG_CAT_CMD)
  | .catRead m _ => some (m, IMG_CAT_CMD)
  | .sieveWrite m _ => some (m, IMG_SIEVE_CMD)
  | .sieveRead m _ => some (m, IMG_SIEVE_CMD)
  | .keyPoolWrite m w _ => some (m, IMG + 0x30000 + 4 * w.val)
  | .vrSizeWrite m _ => some (m, IMG_VR_SIZE)
  | .gateCtrlWrite m _ => some (m, IMG_GATE_CTRL)
  | .cntIncrement m _ => some (m, VLT_CNT_CMD)
  | .cntRaise m _ => some (m, VLT_CNT_CMD)
  | .cntRead m _ => some (m, VLT_CNT_CMD)
  | .journalExport m _ => some (m, VLT_EXPORT_COUNT)
  | .sdsEnable m l => some (m, BLK_CTRL (SDS l.val))
  | .anRestart m l => some (m, SDS_AN_CTRL l.val)
  | .redCtrlWrite m p _ => some (m, MAC_RED_CTRL p.val)
  | .mdioRead m l _ => some (m, SDS_MDIO_CMD l.val)
  | .mdioWrite m l _ => some (m, SDS_MDIO_CMD l.val)
  | .mdioAddress m l _ => some (m, SDS_MDIO_CMD l.val)
  | .mdioPostReadIncrement m l _ => some (m, SDS_MDIO_CMD l.val)
  | .plkCommit m n => some (m, PLK_CMD n.val)
  | .plkUncommit m n => some (m, PLK_CMD n.val)
  | .plkStart m n => some (m, PLK_CMD n.val)
  | .plkStop m n => some (m, PLK_CMD n.val)
  | .requestMode m n _ => some (m, PLK_CMD n.val)
  | .mdbStart m n => some (m, MDB_CMD n.val)
  | .mdbStop m n => some (m, MDB_CMD n.val)
  | .recover m n => some (m, MDB_CMD n.val)
  | .abort m n _ => some (m, MDB_CMD n.val)
  | .progWrite m n i _ => some (m, PTC_PROG n.val i.val)
  | .inject m n _ => some (m, PTC_INJECT n.val)
  | .ptcAbort m n _ => some (m, PTC_CTRL n.val)
  | .ptcRestart m n _ => some (m, PTC_CTRL n.val)
  | .ptcRun m n _ => some (m, PTC_CTRL n.val)
  | .ownWrite m n k _ => some (m, PTC_OWN n.val k.val)
  | .loadPers m _ _ => some (m, PLC_CMD)
  | .unloadPers m _ => some (m, PLC_CMD)
  | .rebalance m => some (m, PLC_CMD)
  | .declareDead m _ => some (m, PLC_CMD)
  | .postJob m _ _ => some (m, PLC_CMD)
  | .bindWrite m c _ => some (m, PLC_BIND c.toNat)
  | .bankCtrlWrite m b _ => some (m, BNK_BANK_CTRL b.val)
  | .bankPowerRequest m b _ => some (m, BNK_BANK_CTRL b.val)
  | .replace m _ => some (m, BNK_CMD)
  | .scrubBank m _ => some (m, BNK_CMD)
  | .tailWrite m r _ => some (m, rgTAIL r.val)
  | .ringEnable m r _ => some (m, rgCTRL r.val)
  | .ringStop m r _ => some (m, rgCTRL r.val)
  | .fifoFlush m f _ => some (m, FIQ_FIFO_CFG f.val)
  | .aqPost m a _ => some (m, FIQ_AQ_POST a.val)
  | .aqFlush m a _ => some (m, FIQ_AQ_FLUSH a.val)
  | .lockRelease m k _ => some (m, LCK_LOCK k.val)
  | .forceRelease m _ => some (m, LCK_FORCE_RELEASE)
  | .mbxLockRelease m k _ => some (m, MBX_LOCK k.val)
  | .mbxSend m k _ => some (m, MBX_SEND k.val)
  | .mbxAck m k _ => some (m, MBX_ACK k.val)
  | .mbxReset m k _ => some (m, MBX_RESET k.val)
  | .refCtrlWrite m _ => some (m, TNS_REF_CTRL)
  | .rateWrite m b _ => some (m, TNS_RATE b.val)
  | .adjSet m b => some (m, TNS_ADJ_CMD b.val)
  | .adjStep m b => some (m, TNS_ADJ_CMD b.val)
  | .adjSlew m b _ => some (m, TNS_ADJ_CMD b.val)
  | .adjCancel m b => some (m, TNS_ADJ_CMD b.val)
  | .tnsSnap m _ => some (m, TNS_SNAP)
  | .outputArm m i _ => some (m, TNS_OUT_CTRL i.val)
  | .stateReqActive m => some (m, PWR_STATE_REQ)
  | .stateReqDoze m _ => some (m, PWR_STATE_REQ)
  | .stateReqRetain m _ => some (m, PWR_STATE_REQ)
  | .stateReqVault m _ => some (m, PWR_STATE_REQ)
  | .padRelease m _ => some (m, PWR_PAD_RELEASE)
  | .portgrpReqWrite m _ => some (m, PWR_PORTGRP_REQ)
  | .clusterStepWrite m c _ => some (m, CLK_CLUSTER_STEP c.val)
  | .rtcSecWrite m _ => some (m, PWR_RTC_SEC_LO)
  | .txDataWrite m _ => some (m, MGT_TX_DATA)
  | .atbSelect m b _ => some (m, atbSel b.val)
  | _ => none

/-- The master and the register of a command that reads a register of its own row. -/
def readOf (c : Instr) : Option (Master × Nat) :=
  match c with
  | .denyCountRead m => some (m, SEC_DENY_COUNT)
  | .dropRingLostRead m => some (m, SWC_DROP_RING_LOST)
  | .smpLostRead m => some (m, SWC_SMP_LOST)
  | .vrOverrunRead m => some (m, IMG_VR_OVERRUN)
  | .auditDroppedRead m => some (m, VLT_AUDIT_DROPPED)
  | .prbsErrRead m l _ => some (m, SDS_PRBS_ERR l.val)
  | .lastErrRead m n => some (m, MDB_LAST_ERR n.val)
  | .bnkDenyCountRead m => some (m, BNK_DENY_COUNT)
  | .fifoDataRead m f => some (m, FIQ_FIFO_DATA f.val)
  | .aqRead m a => some (m, FIQ_AQ_READ a.val)
  | .lockRead m k => some (m, LCK_LOCK k.val)
  | .mbxLockRead m k => some (m, MBX_LOCK k.val)
  | .tbNsRead m b => some (m, TNS_TB_NS b.val)
  | .capNsRead m i => some (m, TNS_CAP_NS i.val)
  | .tsrLostRead m => some (m, TNS_TSR_LOST)
  | .rxDataRead m => some (m, MGT_RX_DATA)
  | .refusedRead m => some (m, ATB_REFUSED)
  | _ => none

/-- Whether an access of the register at `a` that is turned away may write the register at `k`: the error records of the
SEC page and of the page addressed, and what an interrupt sets (R38, R49, R51, R55, R58). -/
def errReg (a k : Nat) : Bool :=
  [SEC_DENY_COUNT, SEC_DENY_LAST_INFO, SEC_DENY_LAST_ADDR, ERR_INFO SEC, ERR_ADDR SEC, IRQ_STATUS SEC, IRQ_STATUS INT,
    INT_MSI_X_PBA, INT_MSI_X_PBA + 4].contains k ||
  (match pageOf a with
  | some pg => decide (k = ERR_INFO pg.base) || decide (k = ERR_ADDR pg.base)
  | none => false)

/-- The access, a write where `w` holds, is turned away: what it left are an error record and an interrupt, and the answer is a
bus error, unless the port of the external debugger is closed, which answers 0, or it is a posted write of the host's, which
no error answers (R55). Registers from 2^40 on are the engines' own: an interrupt may raise an event there. -/
def TurnedAway (m : Master) (a : Nat) (w : Bool) (s t : State) : Prop :=
  t.resp = (if (pageOf a).isSome && portClosed s m || (w && decide (m = mHost)) then .ok 0 else .busErr) ∧
  Only [.regs, .outs, .resp, .intc] s t ∧
  ∀ k, k < 0x10000000000 → errReg a k = false → getR t k = getR s k

/-- Whether a command works on the bundle `x`, by its kind, and the verdict of the ML-DSA verification that it brings. -/
def bunWorks (c : Instr) (x : Bundle) : Option Bool :=
  match c with
  | .bundleRegisterWrites => if 2 ≤ bunKind x.bytes ∧ bunKind x.bytes ≤ 4 then none else some false
  | .bundleOwnerTransfer v => if bunKind x.bytes = 2 then some v else none
  | .bundleVaultPolicy => if bunKind x.bytes = 3 then some false else none
  | .bundleEraseVault => if bunKind x.bytes = 4 then some false else none
  | _ => none

/-- The first of the reset causes of one cycle, one bit per cause, in the order of R65, as `CAUSE` codes it. -/
def firstCause (mask : Nat) : Nat :=
  if mask.testBit 0 then 1 else if mask.testBit 3 then 4 else if mask.testBit 4 then 5 else if mask.testBit 2 then 3
  else if mask.testBit 7 then 8 else if mask.testBit 5 then 6 else if mask.testBit 1 then 2 else if mask.testBit 6 then 7
  else 0

/-- The causes of a reset recorded at `t` are those of `mask`, one bit per cause. -/
def CausesAre (mask : BitVec 8) (t : State) : Prop :=
  getF t SYS_RESET_CAUSE 7 0 = firstCause mask.toNat ∧ getF t SYS_RESET_CAUSE 23 16 = mask.toNat

/-- `a` shifted left by `n` places, by its value: 0 where all its bits leave. -/
def shiftsLeft (a : Word) (n : Nat) : Word := if n < 32 then BitVec.ofNat 32 (a.toNat * 2 ^ n) else 0

/-- `a` shifted right by `n` places with zeros, by its value. -/
def shiftsRight (a : Word) (n : Nat) : Word := if n < 32 then BitVec.ofNat 32 (a.toNat / 2 ^ n) else 0

/-- `a` shifted right by `n` places with its sign: the quotient by 2^n, rounded down, of its signed value. -/
def shiftsSigned (a : Word) (n : Nat) : Word :=
  if n < 32 then BitVec.ofInt 32 (a.toInt / 2 ^ n) else if a.getLsbD 31 then 0xFFFFFFFF else 0

/-- The result `v` of a divide or remainder, 20 cycles away, in place of one still in flight, and the next instruction in
the next cycle. -/
abbrev divides (c : Nat) (v w : Word) (x : CoreSt) (t : State) : State :=
  let r : Landing := { at_ := x.cyc + 20, dest := fRd w, val := v, divide := true, dz := false }
  coreSet t c (retire { x with land := landPut (x.land.filter fun r => !r.divide) r })

/-- A run of `n` steps from `s` that never stops. -/
def RunsOn (n : Nat) (s : State) : Prop :=
  match n with
  | 0 => True
  | n + 1 => ∃ t, step s = .next t ∧ RunsOn n t

end Sys2Proof.Machine
end

