-- ==== Sys2Proof/Certificates/Slice0/Obligations.lean ====
section
/-! DEFINITION. The statements about the model, one proposition per obligation. -/

open Sys2Proof Sys2Proof.Machine Sys2Proof.Machine.Reg

/-- A full-word write to a plain register takes the written bits where they are writable (the thresholds of TMP
stand for every such page) and nothing else changes; CFG_LOCK locks the page, as BLK_CTRL shows; SOFT_RST of LCK
frees every lock and leaves memory and every other part alone; a block's power change runs where the requested state
differs, and its end shows the new state and, with the Tense unit down, holds its pads; IRQ_FORCE sets the interrupt
bits written that the block has; SNAP copies the page's counters with the Tense value and counts the copy. -/
def Obligations.CommonHeaderCommands : Prop :=
  (∀ (m : Master) (off : Nat) (v : Word) (s : State),
     MayWrite s m (TMP + off) → off % 4 = 0 → 0x40 ≤ off → off < 0x1000 → getB s (CFG_LOCK TMP) 0 = false →
     (regDesc .TMP 0 off).ssp = 0 →
       exec (.registerWrite m (w32 (TMP + off)) .b4 v) s = .next
         (answer (setR s (TMP + off) (plainValue (regDesc .TMP 0 off) 0 (getR s (TMP + off)) v)) 0)) ∧
  (∀ (m : Master) (page v : Word) (pg : Page) (s : State),
     pageOf page.toNat = some pg → MayWrite s m (CFG_LOCK pg.base) → bit v 0 = true →
       exec (.cfgLockWrite m page v) s = .next (answer (putB (putB s (CFG_LOCK pg.base) 0 true) (BLK_CTRL pg.base) 31 true) 0)) ∧
  (∀ (m : Master) (page v : Word) (s : State),
     pageOf page.toNat = some ⟨.LCK, 0, LCK⟩ → MayWrite s m (BLK_CTRL LCK) → bit v 0 = getB s (BLK_CTRL LCK) 0
     →
       Ends (.softRst m page v) s fun t =>
         Only [.regs, .cnts, .snaps, .outs, .resp, .intc] s t ∧ ∀ k : Fin 128, getF t (LCK_OWNER k.val) 5 0 = 0) ∧
  (∀ (m : Master) (page : Word) (p : BitVec 2) (pg : Page) (s : State),
     pageOf page.toNat = some pg → MayWrite s m (BLK_CTRL pg.base) → blkHasDomain pg.blk = true → p.toNat < 3 →
       exec (.blockPowerRequest m page p) s = .next
         (let ch := decide (getF s (BLK_STATUS pg.base) 3 2 ≠ p.toNat)
          answer (putB (putB (putF s (BLK_CTRL pg.base) 3 2 p.toNat) (BLK_STATUS pg.base) 4 ch) (BLK_STATUS pg.base) 1 ch) 0)) ∧
  (∀ (page : Word) (pg : Page) (s : State),
     pageOf page.toNat = some pg → getB s (BLK_STATUS pg.base) 4 = true → pg.blk ≠ .HIF → getF s (BLK_CTRL
     pg.base) 3 2 ≠ 0 →
       exec (.blockPowerChangeDone page) s = .next
         (putB (putB (putF (if pg.blk = .TNS then padsHold 0x40 s else s) (BLK_STATUS pg.base) 3 2
           (getF s (BLK_CTRL pg.base) 3 2)) (BLK_STATUS pg.base) 4 false) (BLK_STATUS pg.base) 1 false)) ∧
  (∀ (m : Master) (page v : Word) (pg : Page) (s : State),
     pageOf page.toNat = some pg → MayWrite s m (IRQ_FORCE pg.base) → pg.blk ≠ .MBX →
       exec (.irqForce m page v) s = .next
         (answer (updIrq (setR s (IRQ_STATUS pg.base)
           (getR s (IRQ_STATUS pg.base) ||| (v &&& w32 (irqMask pg.blk)))) pg.base) 0)) ∧
  (∀ (m : Master) (page : Word) (clr : Bool) (pg : Page) (s : State),
     pageOf page.toNat = some pg → MayWrite s m (CNT_CTRL pg.base) → pg.blk ≠ .SYS →
       Ends (.cntSnap m page clr) s fun t =>
         Only [.regs, .cnts, .snaps, .resp] s t ∧ getR64 t (CNT_SNAP_TIME_LO pg.base) = s.time.tense ∧
         getR t (CNT_SNAP_SEQ pg.base) = getR s (CNT_SNAP_SEQ pg.base) + 1 ∧
         t.snaps = (snapRange s pg.base (pg.base + blkSpan pg.blk) false).snaps ∧
         t.cnts = (snapRange s pg.base (pg.base + blkSpan pg.blk) (clr && cntClears pg.blk)).cnts)

/-- The SSP's write of WPOL takes the written policy bits; a read of DENY_COUNT returns and clears it; a software
source of 768 to 1023 follows SW_SET and SW_CLR; an unlocked ROUTE word and every MASK word take the written value,
and the lines are delivered anew; a host vector still asserted is sent again at HOST_EOI. Nothing else changes but
what interrupt delivery itself does. -/
def Obligations.PolicyAndInterruptCommands : Prop :=
  (∀ (t : Fin 38) (v : Word) (s : State),
     MayWrite s mSSP (SEC_WPOL t.val) → getB s (CFG_LOCK SEC) 0 = false →
       exec (.secWpolWrite mSSP t v) s = .next
         (answer (setR s (SEC_WPOL t.val) (plainValue (regDesc .SEC 0 (0x100 + 4 * t.val)) 0 (getR s (SEC_WPOL t.val)) v)) 0)) ∧
  (∀ (m : Master) (s : State),
     MayRead s m SEC_DENY_COUNT →
       exec (.denyCountRead m) s = .next (answer (setR s SEC_DENY_COUNT 0) (getR s SEC_DENY_COUNT))) ∧
  (∀ (m : Master) (v : Word) (s : State),
     MayWrite s m INT_SW_SET → 768 ≤ fld v 9 0 →
       exec (.swSet m v) s = .next (answer (setLine s (fld v 9 0) true) 0)) ∧
  (∀ (m : Master) (v : Word) (s : State),
     MayWrite s m INT_SW_CLR → 768 ≤ fld v 9 0 →
       exec (.swClr m v) s = .next (answer (setLine s (fld v 9 0) false) 0)) ∧
  (∀ (m : Master) (n : Fin 1024) (v : Word) (s : State),
     MayWrite s m (INT_ROUTE n.val) → getB s (INT_ROUTE n.val) 31 = false ∨ m = mSSP → fld v 2 0 < 5 →
       exec (.routeWrite m n v) s = .next (answer (intcRefresh (setR s (INT_ROUTE n.val)
         ((getR s (INT_ROUTE n.val) &&& ~~~ 0x00073F07#32) ||| (v &&& 0x00073F07#32)))) 0)) ∧
  (∀ (m : Master) (k : Fin 32) (v : Word) (s : State),
     MayWrite s m (INT_MASK k.val) →
       exec (.maskWrite m k v) s = .next (answer (intcRefresh (setR s (INT_MASK k.val) v)) 0)) ∧
  (∀ (m : Master) (v : Fin 64) (s : State),
     MayWrite s m (INT_HOST_EOI v.val) → vecUp s.intc.reached v.val = true → getB s (INT_MSI_X_table + 16 *
     v.val + 12) 0 = false → linkUp s = true →
       exec (.hostEoi m v) s = .next (answer (emit (putB s (INT_MSI_X_PBA + 4 * (v.val / 32)) (v.val % 32) false)
         (.msix v.val (getR s (INT_MSI_X_table + 16 * v.val)) (getR s (INT_MSI_X_table + 16 * v.val + 4))
           (getR s (INT_MSI_X_table + 16 * v.val + 8)))) 0))

/-- Outside a reset, each cause asserts reset: CAUSE is the first of the cycle's causes in the order of the spec,
PREV the cause before it, ACCUM the causes together; memory is empty (the model's choice, log entry on memory); the
vault's counters and journal, the device identity and the fuses stand. BROWN_CORE needs the core's rail on,
LP_OVERLOAD needs RETAIN or VAULT, THERM two samples at the trip, SOFT the value 0xA5A, and waits for the end of a
bundle. The THERM hold ends with the rails on; at power-up the rails are enabled; the crystal starts the RTC. -/
def Obligations.ResetCommands : Prop :=
  (∀ (also : BitVec 8) (s : State),
     s.sys.held = false →
       Ends (.por also) s fun t => ResetBy 1 also s t ∧ t.sys.pmicEn = false) ∧
  (∀ (also : BitVec 8) (s : State), s.sys.held = false → Ends (.pinReset also) s fun t => ResetBy 2 also s t) ∧
  (∀ (also : BitVec 8) (s : State),
     s.sys.held = false → coreRail s = true →
       Ends (.brownCore also) s fun t => ResetBy 3 also s t) ∧
  (∀ (also : BitVec 8) (s : State), s.sys.held = false → Ends (.brownAon also) s fun t => ResetBy 4 also s t) ∧
  (∀ (also : BitVec 8) (s : State),
     s.sys.held = false → devState s = 2 ∨ devState s = 3 →
       Ends (.lpOverload also) s fun t => ResetBy 5 also s t) ∧
  (∀ (also : BitVec 8) (s : State), s.sys.held = false → Ends (.wdtSsp also) s fun t => ResetBy 6 also s t) ∧
  (∀ (also : BitVec 8) (s : State),
     s.sys.held = false →
       Ends (.lockstepMismatch also) s fun t => ResetBy 6 also s t ∧ getB t SYS_HEALTH 3 = true) ∧
  (∀ (m : Master) (s : State),
     MayWrite s m SYS_SOFT_RESET → s.sys.held = false → s.sys.prog = none →
       Ends (.softReset m 0x00000A5A#32) s fun t => ResetBy 7 0 s t) ∧
  (∀ (m : Master) (p : BundleProg) (s : State),
     MayWrite s m SYS_SOFT_RESET → s.sys.prog = some p →
       exec (.softReset m 0x00000A5A#32) s = .next (answer { s with sys := { s.sys with softPend := true } } 0)) ∧
  (∀ (also : BitVec 8) (s : State),
     s.sys.held = false → tripDue s = true →
       Ends (.thermalTrip also) s fun t => ResetBy 8 also s t ∧ t.sys.pmicEn = false) ∧
  (∀ (s : State),
     s.sys.thermHold = true →
       Ends .thermalHoldEnd s fun t =>
         Only [.cnts, .sys, .time, .pwr] s t ∧ t.sys.thermHold = false ∧ t.sys.pmicEn = true ∧ t.sys.pmicSramEn = true ∧
         t.time.aonNs = s.time.aonNs + 1000000000) ∧
  (∀ (s : State),
     s.sys.held = true → s.sys.thermHold = false →
       exec .pmicEnDrivenHigh s = .next { s with sys := { s.sys with pmicEn := true, pmicSramEn := true } }) ∧
  (∀ (s : State), exec .aonCrystalConfirmed s = .next { s with time := { s.time with rtcOn := true } })

/-- Reset release with the straps at host boot, sound logic and enough spares ends in WAIT_HOST; with a failing
block or too few spares it ends in DEGRADED_REFUSED. In WAIT_HOST a pushed image that passes every check is run:
PHASE is RUN and CMD_RESULT is 2; one that fails leaves the device waiting with CMD_RESULT 3; outside WAIT_HOST
PUSH_BOOT ends with CMD_RESULT 3 and changes nothing else but what the end itself writes. -/
def Obligations.StartUpCommands : Prop :=
  (∀ (e : BootEnv) (s : State),
     releaseDue s = true → e.bootMode = 1 → failedBlock e = 0 → sparesExhausted e = false →
       Ends (.resetRelease e) s fun t => phase t = phWaitHost ∧ getF t SYS_BOOT_CFG 1 0 = 1) ∧
  (∀ (e : BootEnv) (s : State),
     releaseDue s = true → failedBlock e ≠ 0 ∨ sparesExhausted e = true →
       Ends (.resetRelease e) s fun t => phase t = phDegraded) ∧
  (∀ (m : Master) (vendorSig ownerSig : Bool) (s : State),
     MayWrite s m SYS_CMD → sysCmdBusy s = false → phase s = phWaitHost → (imgLoad 2 s.sys.badPages ⟨cmdArg s,
     vendorSig, ownerSig⟩ s).2 = true →
       Ends (.pushBoot m vendorSig ownerSig) s fun t => phase t = phRun ∧ getR t SYS_CMD_RESULT = 2) ∧
  (∀ (m : Master) (vendorSig ownerSig : Bool) (s : State),
     MayWrite s m SYS_CMD → sysCmdBusy s = false → phase s = phWaitHost → (imgLoad 2 s.sys.badPages ⟨cmdArg s,
     vendorSig, ownerSig⟩ s).2 = false →
       Ends (.pushBoot m vendorSig ownerSig) s fun t => phase t = phWaitHost ∧ getR t SYS_CMD_RESULT = 3) ∧
  (∀ (m : Master) (vendorSig ownerSig : Bool) (s : State),
     MayWrite s m SYS_CMD → sysCmdBusy s = false → phase s ≠ phWaitHost →
       exec (.pushBoot m vendorSig ownerSig) s = .next (answer (sysCmdEnd s 3) 0))

/-- While no SYS.CMD is in progress: ENROL of an UNOWNED device with its vault open and a valid record writes entry
0, clears the policy, makes the device OWNED and takes the host's right to SYS; with an invalid record it ends with
CMD_RESULT 3. ERASE of an OWNED device in its first ten seconds with the strap high starts the erase and leaves
CMD_RESULT BUSY; the erase, once no vault write waits, ends with the vault wiped, the table and the key pool empty.
A valid token within eight failures grants its scope, any other is counted, and every attempt draws a new challenge;
DEBUG_LOCK of an unlocked device takes the scope back. The states are those of the named operations. -/
def Obligations.OwnershipAndDebugCommands : Prop :=
  (∀ (m : Master) (lattice : Bool) (s : State),
     MayWrite s m SYS_CMD → sysCmdBusy s = false → owner s = 0 → getB s VLT_STATUS 31 = true → enrOk (cmdArg s)
     lattice s = true →
       exec (.enrol m lattice) s = .next
         (let owned := setOwner (rowsWrite (setR (entry0Write (cmdArg s) s) VLT_POLICY 0) 4 1) 1
          let noted := jRecord owned 9 1 (catOf owned 0).gen 0
          answer (sysCmdEnd (atbFollow (sysPolicyHost false noted)) 2) 0)) ∧
  (∀ (m : Master) (lattice : Bool) (s : State),
     MayWrite s m SYS_CMD → sysCmdBusy s = false → enrOk (cmdArg s) lattice s = false →
       exec (.enrol m lattice) s = .next (answer (sysCmdEnd s 3) 0)) ∧
  (∀ (m : Master) (s : State),
     MayWrite s m SYS_CMD → sysCmdBusy s = false → owner s = 1 → getB s SYS_BOOT_CFG 2 = false → s.sys.aonTicks
     ≤ 327680 →
       exec (.erase m) s = .next (answer (eraseStart (setR s SYS_CMD_RESULT 1)) 0)) ∧
  (∀ (s : State),
     owner s = 2 → s.vlt.waiting = [] →
       Ends .vaultEraseComplete s fun t =>
         Only [.regs, .free, .outs, .intc, .sys, .gate, .vlt, .test, .falls] s t ∧ t.gate.cat = [] ∧ t.gate.pool = [] ∧
         t.vlt.counters = [] ∧ t.vlt.marks = [] ∧ t.vlt.catImg = [] ∧ t.vlt.poolImg = [] ∧ t.vlt.persisted = [] ∧
         t.vlt.journal = [] ∧ t.vlt.eraseMark = false) ∧
  (∀ (m : Master) (lattice : Bool) (s : State),
     MayWrite s m SYS_CMD → sysCmdBusy s = false → debugFails s < 8 → tokenOk (cmdArg s) lattice s = true →
       exec (.debugUnlock m lattice) s = .next
         (answer (sysCmdEnd (newChallenge (debugGrant (beAt (cmdArg s) 2 2 % 16) s)) 2) 0)) ∧
  (∀ (m : Master) (lattice : Bool) (s : State),
     MayWrite s m SYS_CMD → sysCmdBusy s = false → tokenOk (cmdArg s) lattice s = false ∨ 8 ≤ debugFails s →
       exec (.debugUnlock m lattice) s = .next
         (answer (sysCmdEnd (newChallenge (putF s SYS_DEBUG_STATUS 11 8 (min 8 (debugFails s + 1)))) 3) 0)) ∧
  (∀ (m : Master) (s : State),
     MayWrite s m SYS_CMD → sysCmdBusy s = false → unlocked s = true →
       exec (.debugLock m) s = .next
         (let closed := putB (putF s SYS_DEBUG_STATUS 7 4 0) SYS_DEBUG_STATUS 0 false
          answer (sysCmdEnd (atbFollow (raiseIrq
            (lockdownEnd (jRecord closed 5 (jMs closed) (getF s SYS_DEBUG_STATUS 7 4) 0)) SYS 3)) 2) 0))

/-- The device is out of reset and awake, and the oldest bundle is of the command's kind. A bundle not yet begun
that a check refuses ends with that reason, and during an erase every bundle ends REVOKED, and nothing else happens.
Otherwise REGISTER_WRITES acts on its records as far as they and their commands allow, and ends once all are done
and the vault takes its writes; where the vault may take its write, OWNER_TRANSFER deletes every other entry,
replaces entry 0, sets counter 1 and ends DONE; VAULT_POLICY sets the policy word and counter 1, stores the bundle
if it is PERSIST and ends DONE; ERASE_VAULT sets counter 1, ends DONE and starts the erase. -/
def Obligations.BundleCommands : Prop :=
  (∀ (x : Bundle) (r : List Bundle) (s : State),
     s.sys.bundles = x :: r → ¬ (2 ≤ bunKind x.bytes ∧ bunKind x.bytes ≤ 4) → s.sys.held = false → awake s =
     true → erasing s = false → s.sys.prog.isSome = true ∨ bunRefusal x false s = none →
       exec .bundleRegisterWrites s = .next
         (let p := s.sys.prog.getD ⟨0, none, false⟩
          let done := bunActs x.bytes (2 * bunCount x.bytes + 1) p (bunProg (some p) s)
          if bunCount x.bytes ≤ done.2.next ∧ done.2.wait = false ∧ vFree done.1 6 = true then bunFinish x done.2 done.1
          else bunProg (some done.2) done.1)) ∧
  (∀ (lattice : Bool) (x : Bundle) (r : List Bundle) (s : State),
     s.sys.bundles = x :: r → bunKind x.bytes = 2 → s.sys.held = false → awake s = true → erasing s = false →
     s.sys.prog.isSome = true ∨ bunRefusal x lattice s = none → vFree s 5 = true →
       exec (.bundleOwnerTransfer lattice) s = .next
         (let s1 : State := { s with gate := { s.gate with revN := 0 } }
          let gone := (s1.gate.cat.filter fun e => decide (e.1 ≠ 0) && decide (e.2.state ≠ 0)).map fun e => e.1
          let s3 := entry0Write (x.bytes.drop 16) (gone.foldl (fun t i => catPersist (revokeEntry t i) 4 i) s1)
          let s4 : State := { s3 with gate := { s3.gate with ownRec := some (catOf s3 0).gen } }
          bunEnd x.tag ocDone (bunCount1 x.bytes (scansOver s4)))) ∧
  (∀ (x : Bundle) (r : List Bundle) (s : State),
     s.sys.bundles = x :: r → bunKind x.bytes = 3 → s.sys.held = false → awake s = true → erasing s = false →
     s.sys.prog.isSome = true ∨ bunRefusal x false s = none → vFree s 6 = true →
       exec .bundleVaultPolicy s = .next (bunEnd x.tag ocDone (bunStore x
         (bunCount1 x.bytes (atbFollow (rowsWrite (setR (jTurn s) VLT_POLICY (w32 (beAt x.bytes 16 4))) 4 1)))))) ∧
  (∀ (x : Bundle) (r : List Bundle) (s : State),
     s.sys.bundles = x :: r → bunKind x.bytes = 4 → s.sys.held = false → awake s = true → erasing s = false →
     s.sys.prog.isSome = true ∨ bunRefusal x false s = none → vFree s 6 = true →
       exec .bundleEraseVault s = .next
         (let u := bunEnd x.tag ocDone (bunCount1 x.bytes s)
          if u.sys.held then u else eraseStart u)) ∧
  (∀ (c : Instr) (lattice : Bool) (x : Bundle) (r : List Bundle) (code : Nat) (s : State),
     bunWorks c x = some lattice → s.sys.bundles = x :: r → s.sys.held = false → awake s = true → erasing s =
     false → s.sys.prog = none → bunRefusal x lattice s = some code →
       exec c s = .next (bunEnd x.tag code s)) ∧
  (∀ (c : Instr) (lattice : Bool) (x : Bundle) (r : List Bundle) (s : State),
     bunWorks c x = some lattice → s.sys.bundles = x :: r → s.sys.held = false → awake s = true → erasing s =
     true →
       exec c s = .next (bunEnd x.tag ocRevoked s))

/-- The clock reaches the end of the interval in operation; a gate control written with SWAP latches the other
bank's parameters; the armed bank starts at its cycle start and becomes the operating one; a table write commits the
staged words and advances the epoch, a read copies the entry to the staging registers, and one outside the tables
ends with FORMAT. -/
def Obligations.GateListsAndTables : Prop :=
  (∀ (p : Fin 224) (g : GateParm) (x : Nat × Nat) (s : State),
     sfind s.sw.goper p.val = some g → gateAt s p.val (gateNow s p.val) = some x →
       exec (.gateIntervalExpiry p) s = .next (schedSettle (advanceTb s g.tb x.2) p.val)) ∧
  (∀ (m : Master) (p : Fin 224) (v : Word) (s : State),
     MayWrite s m (SWC_GATE_CTRL p.val) → getB s (SWC_GATE_CTRL p.val) 17 = false →
       Ends (.gateSwapArm m p v) s fun t =>
         Only [.regs, .outs, .intc, .resp, .sw] s t ∧
         sfind t.sw.gswap p.val = some
           { cycle := (getR s (SWC_GATE_CTRL p.val + 4)).toNat
             base := (getR64 s (SWC_GATE_CTRL p.val + 12)).toNat * 1000000000 + getF s (SWC_GATE_CTRL p.val + 8) 29 0
             tb := fld v 19 18, start := 0, frozen := 0xFF }) ∧
  (∀ (p : Fin 224) (g : GateParm) (s : State),
     sfind s.sw.gswap p.val = some g →
       exec (.gateBankSwap p) s = .next
         (let st := cycleStart g.base g.cycle (((tbOf s g.tb).v + fracOne - 1) / fracOne)
          let s1 := advanceTb s g.tb st
          let s2 := { s1 with sw := { s1.sw with gswap := sdel s1.sw.gswap p.val, goper := sset s1.sw.goper p.val { g with start := st } } }
          schedSettle (putB (putB s2 (SWC_GATE_CTRL p.val) 17 false) (SWC_GATE_CTRL p.val) 16
            (!(getB s2 (SWC_GATE_CTRL p.val) 16))) p.val)) ∧
  (∀ (m : Master) (v : Word) (s : State),
     MayWrite s m SWC_TBL_CMD → fld v 5 4 = 0 → fld v 27 16 < 1024 → fld (tblStage s m 16) 2 0 < 5 →
       exec (.tblWrite m v) s = .next
         (let ws := (List.range 16).map (tblStage s m) ++ [tblStage s m 16 &&& 0xDFFFF87F#32]
          answer (tblEnd (commitEpoch { s with sw := { s.sw with rules := sset s.sw.rules (fld v 27 16) ws } }) m 0) 0)) ∧
  (∀ (m : Master) (v : Word) (s : State),
     MayWrite s m SWC_TBL_CMD → fld v 5 4 = 1 →
       exec (.tblWrite m v) s = .next
         (let w := tblStage s m 0 &&& 0xC00FFFFF#32
          answer (tblEnd (commitEpoch { s with sw := { s.sw with vlan := sset s.sw.vlan (fld v 27 16) w } }) m 0) 0)) ∧
  (∀ (m : Master) (v : Word) (s : State),
     MayWrite s m SWC_TBL_CMD → fld v 5 4 = 2 → fld v 27 16 < 1024 →
       exec (.tblWrite m v) s = .next
         (let ws := (List.range 7).map (tblStage s m)
          answer (tblEnd (commitEpoch { s with sw := { s.sw with groups := sset s.sw.groups (fld v 27 16) ws } }) m 0) 0)) ∧
  (∀ (m : Master) (v : Word) (s : State),
     MayWrite s m SWC_TBL_CMD → fld v 5 4 ≠ 1 → 1024 ≤ fld v 27 16 ∨ fld v 5 4 = 3 →
       exec (.tblWrite m v) s = .next (answer (tblEnd s m 2) 0)) ∧
  (∀ (m : Master) (v : Word) (s : State),
     MayWrite s m SWC_TBL_CMD → fld v 5 4 = 0 → fld v 27 16 < 1024 →
       exec (.tblRead m v) s = .next
         (answer (tblEnd (stagePut s m (SWC_TBL_STAGE 0) (sget s.sw.rules (fld v 27 16) (List.replicate 17 0))) m 0) 0)) ∧
  (∀ (m : Master) (v : Word) (s : State),
     MayWrite s m SWC_TBL_CMD → fld v 5 4 = 1 →
       exec (.tblRead m v) s = .next (answer (tblEnd (stagePut s m (SWC_TBL_STAGE 0) [sget s.sw.vlan (fld v 27 16) 0]) m 0) 0)) ∧
  (∀ (m : Master) (v : Word) (s : State),
     MayWrite s m SWC_TBL_CMD → fld v 5 4 = 2 → fld v 27 16 < 1024 →
       exec (.tblRead m v) s = .next
         (answer (tblEnd (stagePut s m (SWC_TBL_STAGE 0) (sget s.sw.groups (fld v 27 16) (List.replicate 7 0))) m 0) 0))

/-- A write needs an acceptable entry in the set its key maps to; an insert takes the way that holds its key,
keeping HIT, else a free way, else ends with its status; a delete clears the entry's VALID bit; a look-up copies the
entry found; a new age period restarts the sweep; a due sweep meets every stored entry. -/
def Obligations.ForwardingDatabase : Prop :=
  (∀ (m : Master) (v : Word) (s : State),
     MayWrite s m FDB_CMD → fdbFormatOk (fdbStaged s m) = true → fdbSet s (fdbVid (fdbStaged s m)) (fdbMac
     (fdbStaged s m)) = fld v 29 16 / 4 →
       exec (.fdbWrite m v) s = .next (answer (fdbCommit s m (fld v 29 16) (fdbStaged s m) (bit v 8)) 0)) ∧
  (∀ (m : Master) (v : Word) (s : State),
     MayWrite s m FDB_CMD → fdbFormatOk (fdbStaged s m) = false ∨ fdbSet s (fdbVid (fdbStaged s m)) (fdbMac
     (fdbStaged s m)) ≠ fld v 29 16 / 4 →
       exec (.fdbWrite m v) s = .next (answer (fdbEnd s m 5 (fld v 29 16)) 0)) ∧
  (∀ (m : Master) (v : Word) (i : Nat) (s : State),
     MayWrite s m FDB_CMD → fdbFormatOk (fdbStaged s m) = true → fdbFind s (fdbVid (fdbStaged s m)) (fdbMac
     (fdbStaged s m)) = some i →
       exec (.fdbInsert m v) s = .next
         (let e := fdbStaged s m
          answer (fdbCommit s m i [fdbW e 0, fdbW e 1, setBit (fdbW e 2) 28 (bit (fdbW (fdbEnt s i) 2) 28), 0#32] (bit v 8)) 0)) ∧
  (∀ (m : Master) (v : Word) (i : Nat) (s : State),
     MayWrite s m FDB_CMD → fdbFormatOk (fdbStaged s m) = true → fdbFind s (fdbVid (fdbStaged s m)) (fdbMac
     (fdbStaged s m)) = none → fdbFree s (fdbVid (fdbStaged s m)) (fdbMac (fdbStaged s m)) = some i →
       exec (.fdbInsert m v) s = .next (answer (fdbCommit s m i (fdbStaged s m) (bit v 8)) 0)) ∧
  (∀ (m : Master) (v : Word) (s : State),
     MayWrite s m FDB_CMD →
       exec (.fdbDelete m v) s = .next
         (let e := fdbEnt s (fld v 29 16)
          answer (fdbCommit s m (fld v 29 16) [fdbW e 0, fdbW e 1, setBit (fdbW e 2) 31 false, fdbW e 3] (bit v 8)) 0)) ∧
  (∀ (m : Master) (v : Word) (i : Nat) (s : State),
     MayWrite s m FDB_CMD → fdbFind s (fdbVid (fdbStaged s m)) (fdbMac (fdbStaged s m)) = some i →
       exec (.fdbLookup m v) s = .next (answer (fdbEnd (stagePut s m (FDB_STAGE 0) (fdbEnt s i)) m 0 i) 0)) ∧
  (∀ (m : Master) (v : Word) (s : State),
     MayWrite s m FDB_CMD → fdbFind s (fdbVid (fdbStaged s m)) (fdbMac (fdbStaged s m)) = none →
       exec (.fdbLookup m v) s = .next (answer (fdbEnd s m 3 (fld v 29 16)) 0)) ∧
  (∀ (m : Master) (v : Word) (s : State),
     MayWrite s m FDB_AGE_PERIOD →
       Ends (.agePeriodWrite m v) s fun t =>
         Only [.regs, .outs, .intc, .resp, .sw] s t ∧ t.sw = { s.sw with ageFrom := s.time.tense }) ∧
  (∀ (s : State),
     getF s FDB_AGE_PERIOD 15 0 ≠ 0 →
       exec .fdbAgeSweep s = .next
         (let due := s.sw.ageFrom.toNat + getF s FDB_AGE_PERIOD 15 0 * 1000000000
          let s1 := advanceNs s due
          let s2 := (s1.sw.fdb.map fun e => e.1).foldl ageEntry s1
          raiseIrq { s2 with sw := { s2.sw with ageFrom := BitVec.ofNat 64 due } } FDB 2))

/-- At a whole millisecond every queue's head meets its age limit; a purge or a withdrawal scan removes every copy
its oldest entry names and the entry with it; a waiting posting takes a free place; the counts of records lost clear
as they are read. -/
def Obligations.RemovalFromQueues : Prop :=
  (∀ (s : State),
       exec .ageingHeadCheck s = .next
         (let s1 := advanceNs s ((tenseNs s / 1000000 + 1) * 1000000)
          (headsOf s1.sw.queue s1 []).foldl ageEnt s1)) ∧
  (∀ (x : Nat × Word) (l : List (Nat × Word)) (s : State),
     s.sw.purge = x :: l →
       exec .purgeScanComplete s = .next
         (let hit (t : State) (e : QEnt) : Bool :=
            match frameOf t e.fid with
            | some f => decide (f.handle = x.1) && (f.epoch - x.2).msb
            | none => false
          let s1 := s.sw.queue.foldl (fun t e => if hit t e then purgeCopy t e.port e.cls e.fid else t) s
          { s1 with sw := { s1.sw with purge := l } })) ∧
  (∀ (w : Withdraw) (l : List Withdraw) (s : State),
     s.sw.withdrawWait = w :: l → s.sw.withdraw.length < 16 →
       exec .withdrawalPost s = .next
         { s with sw := { s.sw with withdraw := s.sw.withdraw ++ [w], withdrawWait := l } }) ∧
  (∀ (s : State), 16 ≤ s.sw.withdraw.length → exec .withdrawalPost s = .next s) ∧
  (∀ (w : Withdraw) (l : List Withdraw) (s : State),
     s.sw.withdraw = w :: l →
       exec .withdrawalScanComplete s = .next
         (let one (t : State) (e : QEnt) : State :=
            match frameOf t e.fid with
            | some f =>
              match withdrawCode { t with sw := { t.sw with withdraw := [w] } } f with
              | some code => withdrawCopy t e.port e.cls e.fid f code
              | none => t
            | none => t
          let s1 := s.sw.queue.foldl one s
          scansOver { s1 with sw := { s1.sw with withdraw := l } })) ∧
  (∀ (m : Master) (s : State),
     MayRead s m SWC_DROP_RING_LOST →
       exec (.dropRingLostRead m) s = .next (answer (setR s SWC_DROP_RING_LOST 0) (getR s SWC_DROP_RING_LOST))) ∧
  (∀ (m : Master) (s : State),
     MayRead s m SWC_SMP_LOST →
       exec (.smpLostRead m) s = .next (answer (setR s SWC_SMP_LOST 0) (getR s SWC_SMP_LOST)))

/-- The frame at the Gate's input is discarded where its read shows poison or corruption and becomes an item
otherwise; a free unit of the class takes the oldest waiting entry; a unit's result over DEVICE_ID and the signed
bytes is recorded: HMAC-SHA-256, Ed25519 and P-256 are computed, the lattice algorithms' outcome is the command's
operand; the verdict stage ends an entry with a bad signature or a failed check, waits for the replay mark where the
sequence number leaves the marked range, and releases it otherwise; a replay mark and a RELEASE record become
durable in the order of the vault's writes, and the oldest passed imperative is emitted once its record is; a record
held too long ends AGED; a supply warning abandons the verifications in progress. -/
def Obligations.GateAdmissionToRelease : Prop :=
  (∀ (e : SinkEnt) (f : Frame) (s : State),
     s.sw.sink.find? (fun x => decide (x.port = 209)) = some e → frameOf s e.fid = some f → e.rf = .clean →
     f.poison = false → crc32c f.bytes = f.check →
       exec (.gateAdmission .clean) s = .next (gateItem { s with sw := { s.sw with sink := s.sw.sink.erase e } } e.fid f)) ∧
  (∀ (rf : ReadFault) (e : SinkEnt) (f : Frame) (s : State),
     s.sw.sink.find? (fun x => decide (x.port = 209)) = some e → frameOf s e.fid = some f → (if rf = .clean
     then e.rf else rf) = .poison ∨ f.poison = true →
       exec (.gateAdmission rf) s = .next
         (let s1 := { s with sw := { s.sw with sink := s.sw.sink.erase e } }
          unref (dropStored s1 e.fid 209 dropPoison 209 f.tc) e.fid)) ∧
  (∀ (rf : ReadFault) (e : SinkEnt) (f : Frame) (s : State),
     s.sw.sink.find? (fun x => decide (x.port = 209)) = some e → frameOf s e.fid = some f → (if rf = .clean
     then e.rf else rf) ≠ .poison → f.poison = false → (if rf = .clean then e.rf else rf) = .corrupt ∨ crc32c
     f.bytes ≠ f.check →
       exec (.gateAdmission rf) s = .next
         (let s1 := { s with sw := { s.sw with sink := s.sw.sink.erase e } }
          unref (dropStored s1 e.fid 209 dropE2E 209 f.tc) e.fid)) ∧
  (∀ (c : UnitClass) (u : Nat) (e : PEnt) (s : State),
     (List.range (unitCount c)).find? (fun u => !(unitBusy s c u)) = some u → s.gate.pend.find? (fun e =>
     decide (e.phase = .waiting) && decide (pentClass s e = c)) = some e →
       exec (.unitTakesEntry c) s = .next (pendPhase s e.tag (.onUnit u))) ∧
  (∀ (tag : Word) (ok : Bool) (e : PEnt) (u : Nat) (s : State),
     s.gate.pend.find? (fun x => decide (x.tag = tag.toNat)) = some e → e.phase = .onUnit u →
       exec (.signatureResult tag ok) s = .next
         (let k := catOf s (envIndex e.env)
          let sig := slice e.env (32 + envInnerLen e.env) (sigLen k.alg)
          let m := deviceId s ++ e.env.take (32 + envInnerLen e.env)
          pendPhase s tag.toNat (.result (match k.alg with
            | 1 => decide (hmac256 (catKey s k) m = sig)
            | 2 => edVerify (catKey s k) m sig
            | 3 => ecVerify (catKey s k) m sig
            | _ => ok)))) ∧
  (∀ (tag : Word) (e : PEnt) (s : State),
     s.gate.pend.find? (fun x => decide (x.tag = tag.toNat)) = some e → (s.gate.pend.find? (fun x => decide
     (envIndex x.env = envIndex e.env))).map (·.tag) = some tag.toNat → e.phase = .result false →
       exec (.verdict tag) s = .next (pendEnd s e ocSig)) ∧
  (∀ (tag : Word) (e : PEnt) (c : Nat) (s : State),
     s.gate.pend.find? (fun x => decide (x.tag = tag.toNat)) = some e → (s.gate.pend.find? (fun x => decide
     (envIndex x.env = envIndex e.env))).map (·.tag) = some tag.toNat → e.phase = .result true → stageChecks s
     e.env = some c →
       exec (.verdict tag) s = .next (pendEnd s e c)) ∧
  (∀ (tag : Word) (e : PEnt) (s : State),
     s.gate.pend.find? (fun x => decide (x.tag = tag.toNat)) = some e → (s.gate.pend.find? (fun x => decide
     (envIndex x.env = envIndex e.env))).map (·.tag) = some tag.toNat → e.phase = .result true → stageChecks s
     e.env = none → (markOf s (envIndex e.env)).toNat + 1024 ≤ envSeq e.env →
       exec (.verdict tag) s = .next
         (pendPhase (markWrite s (envIndex e.env) (BitVec.ofNat 64 (envSeq e.env))) tag.toNat .markWait)) ∧
  (∀ (tag : Word) (e : PEnt) (s : State),
     s.gate.pend.find? (fun x => decide (x.tag = tag.toNat)) = some e → (s.gate.pend.find? (fun x => decide
     (envIndex x.env = envIndex e.env))).map (·.tag) = some tag.toNat → e.phase = .result true → stageChecks s
     e.env = none → envSeq e.env < (markOf s (envIndex e.env)).toNat + 1024 →
       exec (.verdict tag) s = .next (passEntry s e)) ∧
  (∀ (k : Fin 4096) (v : DWord) (s : State),
     sfind s.vlt.markWr k.val = some v → vMay s (if s.vlt.waiting.contains { cls := 1, key := k.val } then 1
     else 4) k.val = true →
       exec (.replayMarkDurable k) s = .next
         (rowsWrite (vGone (vGone { s with vlt := { s.vlt with
           marks := sset s.vlt.marks k.val v, markWr := sdel s.vlt.markWr k.val } } 1 k.val) 4 k.val) 1 1)) ∧
  (∀ (k : Fin 4096) (s : State),
     vMay s (if s.vlt.waiting.contains { cls := 1, key := k.val } then 1 else 4) k.val = false →
       exec (.replayMarkDurable k) s = .next s) ∧
  (∀ (r : REnt) (tag : Word) (s : State),
     s.gate.rel.find? (fun r => decide (r.phase = .passed)) = some r → r.tag = tag.toNat → vMay s 2 tag.toNat =
     true →
       exec (.releaseRecordDurable tag) s = .next
         (let s1 := emitInner (vGone s 2 tag.toNat) r
          let s2 := { s1 with gate := { s1.gate with rel := s1.gate.rel.map fun x => if x.tag = tag.toNat then { x with fid := none } else x } }
          if s1.gate.rel.any fun x => decide (x.tag = tag.toNat) then
            match r.fid with
            | some f => unref s2 f
            | none => s2
          else s2)) ∧
  (∀ (c : BitVec 9) (g : GEnt) (s : State),
     gateOldest s c.toNat = some g →
       exec (.gateHoldLimitExpiry c) s = .next
         (let lim := max 1 (getF s IMG_HOLD_LIMIT 15 0) * 1000000
          let s1 := advanceNs s (g.at_.toNat + lim + 1)
          if (s1.time.tense - g.at_).toNat ≤ lim then s1 else gateEntryEnd s1 c.toNat g ocAged)) ∧
  (∀ (s : State),
     supplyHeld s = true → s.gate.warnWritten = false →
       exec .supplyVerifyAbandon s = .next
         (let s1 := advanceNs s (s.gate.warnAt.toNat + 500000)
          supplyRecord (pendEndAll s1 (fun e => match e.phase with | .onUnit _ => true | _ => false) ocSupply)))

/-- In the OWNED state an install of an acceptable entry with the next generation into an EMPTY place whose key
bytes nothing else holds starts, as do an enable, a disable and a revoke of an entry that is not EMPTY; a read
copies the entry to the staging words; while a command is in progress another ends BUSY, and the refusals end with
their codes; the command in progress ends once it is durable. -/
def Obligations.CommandAuthorityTable : Prop :=
  (∀ (m : Master) (v : Word) (s : State),
     MayWrite s m IMG_CAT_CMD → s.gate.catBusy = none → owner s = 1 → fld v 27 16 ≠ 0 → (catOf s (fld v 27
     16)).state = 0 → (stagedEntry s).gen = ((catOf s (fld v 27 16)).lastGen + 1) % 16 → catFormatOk s
     (stagedEntry s) = true → poolTaken s ((stagedEntry s).poolOff * 16) ((stagedEntry s).poolOff * 16 +
     (stagedEntry s).keyLen) = false →
       exec (.catInstall m v) s = .next
         (let i := fld v 27 16
          answer (catStart (markWrite (catSet s i (stagedEntry s)) i (stagedEntry s).lastSeq) 1 i) 0)) ∧
  (∀ (m : Master) (v : Word) (s : State),
     MayWrite s m IMG_CAT_CMD → s.gate.catBusy = none → owner s = 1 → fld v 27 16 ≠ 0 → (catOf s (fld v 27
     16)).state = 0 → (stagedEntry s).gen ≠ ((catOf s (fld v 27 16)).lastGen + 1) % 16 ∨ catFormatOk s
     (stagedEntry s) = false →
       exec (.catInstall m v) s = .next (answer (catEnd s 2) 0)) ∧
  (∀ (m : Master) (v : Word) (s : State),
     MayWrite s m IMG_CAT_CMD → s.gate.catBusy.isSome = true →
       exec (.catInstall m v) s = .next (answer (catEnd s 1) 0)) ∧
  (∀ (m : Master) (v : Word) (s : State),
     MayWrite s m IMG_CAT_CMD → s.gate.catBusy = none → owner s = 1 → fld v 27 16 ≠ 0 → (catOf s (fld v 27
     16)).state ≠ 0 →
       exec (.catEnable m v) s = .next
         (let i := fld v 27 16
          answer (catStart (catSet s i { catOf s i with state := 1 }) 2 i) 0)) ∧
  (∀ (m : Master) (v : Word) (s : State),
     MayWrite s m IMG_CAT_CMD → s.gate.catBusy = none → owner s ≠ 1 →
       exec (.catEnable m v) s = .next (answer (catEnd s 6) 0)) ∧
  (∀ (m : Master) (v : Word) (s : State),
     MayWrite s m IMG_CAT_CMD → s.gate.catBusy = none → owner s = 1 → fld v 27 16 ≠ 0 → (catOf s (fld v 27
     16)).state ≠ 0 →
       exec (.catDisable m v) s = .next
         (let i := fld v 27 16
          answer (catStart (catSet s i { catOf s i with state := 2 }) 3 i) 0)) ∧
  (∀ (m : Master) (v : Word) (s : State),
     MayWrite s m IMG_CAT_CMD → s.gate.catBusy = none → owner s = 1 → fld v 27 16 ≠ 0 → (catOf s (fld v 27
     16)).state ≠ 0 →
       exec (.catRevoke m v) s = .next
         (let i := fld v 27 16
          answer (scansOver (revokeEntry (catStart { s with gate := { s.gate with revN := 0 } } 4 i) i)) 0)) ∧
  (∀ (m : Master) (v : Word) (s : State),
     MayWrite s m IMG_CAT_CMD → s.gate.catBusy = none →
       exec (.catRead m v) s = .next
         (answer (catEnd (((List.range 12).zip (catWords s (fld v 27 16))).foldl (fun t p => setR t (IMG_CAT_STAGE p.1) p.2) s) 0) 0)) ∧
  (∀ (op i : Nat) (s : State),
     s.gate.catBusy = some (op, i) → vMay s 5 0 = true → op ≠ 4 ∨ s.gate.catScan = true →
       exec .catCommandDurable s = .next
         (let s1 := catPersist (vGone s 5 0) op i
          catEnd { s1 with gate := { s1.gate with catBusy := none } } 0)) ∧
  (∀ (op i : Nat) (s : State),
     s.gate.catBusy = some (op, i) → vMay s 5 0 = false ∨ (op = 4 ∧ s.gate.catScan = false) →
       exec .catCommandDurable s = .next s)

/-- A sieve command stores an acceptable rule or copies one out; a write to the key window changes its bytes unless
they belong to an installed key; a new ring size restarts the ring; the gate's control bits set; a service request
with a sound descriptor waits for a lane, and a lane's end gives its tag or its check. -/
def Obligations.GateSieveKeysAndService : Prop :=
  (∀ (m : Master) (v : Word) (s : State),
     MayWrite s m IMG_SIEVE_CMD → fld (getR s (IMG_SIEVE_STAGE 1)) 8 0 ≤ fld (getR s (IMG_SIEVE_STAGE 1)) 24 16
     →
       exec (.sieveWrite m v) s = .next
         (let ws := (List.range 18).map fun w => getR s (IMG_SIEVE_STAGE w)
          let s1 := { s with gate := { s.gate with sieve := sset s.gate.sieve (fld v 23 16) ws } }
          answer (raiseIrq (setR s1 IMG_SIEVE_RESULT 0x80000000) IMG 7) 0)) ∧
  (∀ (m : Master) (v : Word) (s : State),
     MayWrite s m IMG_SIEVE_CMD → fld (getR s (IMG_SIEVE_STAGE 1)) 24 16 < fld (getR s (IMG_SIEVE_STAGE 1)) 8 0
     →
       exec (.sieveWrite m v) s = .next (answer (raiseIrq (setR s IMG_SIEVE_RESULT 0xA0000000) IMG 7) 0)) ∧
  (∀ (m : Master) (v : Word) (s : State),
     MayWrite s m IMG_SIEVE_CMD →
       exec (.sieveRead m v) s = .next
         (let ws := sget s.gate.sieve (fld v 23 16) (List.replicate 18 0)
          let s1 := ((List.range 18).zip ws).foldl (fun t p => setR t (IMG_SIEVE_STAGE p.1) p.2) s
          answer (raiseIrq (setR s1 IMG_SIEVE_RESULT 0x80000000) IMG 7) 0)) ∧
  (∀ (m : Master) (w : Fin 16384) (v : Word) (s : State),
     MayWrite s m (IMG + 0x30000 + 4 * w.val) → (∀ j < 4, poolTaken s (poolWin s w.val + j) (poolWin s w.val +
     j + 1) = false) →
       exec (.keyPoolWrite m w v) s = .next
         (let new := (List.range 4).foldl (fun p j => ssetD 0 p (poolWin s w.val + j) (b8 (v.toNat / 2 ^ (8 * j)))) s.gate.pool
          answer { s with gate := { s.gate with pool := new } } 0)) ∧
  (∀ (m : Master) (w : Fin 16384) (v : Word) (j : Nat) (s : State),
     MayWrite s m (IMG + 0x30000 + 4 * w.val) → j < 4 → poolTaken s (poolWin s w.val + j) (poolWin s w.val + j
     + 1) = true → poolByte s (poolWin s w.val + j) ≠ b8 (v.toNat / 2 ^ (8 * j)) →
       exec (.keyPoolWrite m w v) s = .next (answer (recErr s IMG errLocked m (IMG + 0x30000 + 4 * w.val) true) 0)) ∧
  (∀ (m : Master) (v : Word) (s : State),
     MayWrite s m IMG_VR_SIZE → vrSizeOk (v.toNat % 0x20000) = false →
       exec (.vrSizeWrite m v) s = .next
         (let s1 := setR (setR s IMG_VR_SIZE (w32 (v.toNat % 0x20000))) IMG_VR_HEAD 0
          answer { s1 with gate := { s1.gate with vrWrapped := false } } 0)) ∧
  (∀ (m : Master) (v : Word) (s : State),
     MayWrite s m IMG_VR_SIZE → vrSizeOk (v.toNat % 0x20000) = true →
       exec (.vrSizeWrite m v) s = .next
         (let s1 := setR (setR s IMG_VR_SIZE (w32 (v.toNat % 0x20000))) IMG_VR_HEAD 0
          answer (s.gate.unconf.foldl (fun t e => vrPut t e.1 e.2.1 e.2.2.1 e.2.2.2 ocUnconfirmed 3)
            { s1 with gate := { s1.gate with vrWrapped := false, unconf := [] } }) 0)) ∧
  (∀ (m : Master) (s : State),
     MayRead s m IMG_VR_OVERRUN →
       exec (.vrOverrunRead m) s = .next (answer (setR s IMG_VR_OVERRUN 0) (getR s IMG_VR_OVERRUN))) ∧
  (∀ (m : Master) (v : Word) (s : State),
     MayWrite s m IMG_GATE_CTRL →
       exec (.gateCtrlWrite m v) s = .next (answer (setR s IMG_GATE_CTRL (getR s IMG_GATE_CTRL ||| (v &&& 3))) 0)) ∧
  (∀ (n : Pe) (a : Word) (b : List Byte) (s t : State),
     supplyHeld s = false → (s.gate.svc.filter fun r => decide (r.engine = n.val)).length < min 16 (max 1 (getF
     s IMG_SVC_LIMIT 4 0)) → svcRead s n.val a.toNat 32 = (t, .ok, b) → a.toNat % 32 = 0 → svcFormatOk b = true
     →
       exec (.svcPost n a) s = .next
         { t with gate := { t.gate with svc := t.gate.svc ++ [{ engine := n.val, addr := a.toNat, lane := none }] } }) ∧
  (∀ (n : Pe) (a : Word) (s : State),
     supplyHeld s = true →
       exec (.svcPost n a) s = .next (svcEnd s n.val a.toNat 6)) ∧
  (∀ (lane : Fin 32) (r : SvcReq) (b key d : List Byte) (s t1 t2 t3 t4 : State),
     s.gate.svc.find? (fun r => decide (r.lane = some lane.val)) = some r → svcRead s r.engine r.addr 32 = (t1,
     .ok, b) → leAt b 0 2 = 0xFFFF → svcRead t1 r.engine (leAt b 16 4) (leAt b 20 1) = (t2, .ok, key) → svcRead
     t2 r.engine (leAt b 4 4) (leAt b 8 4) = (t3, .ok, d) → leAt b 2 1 = 1 → svcWrite t3 r.engine (leAt b 12 4)
     ((hmac256 key d).take (leAt b 3 1)) = (t4, .ok) →
       exec (.serviceRequestEnd lane) s = .next (svcFinish t4 r 0)) ∧
  (∀ (lane : Fin 32) (r : SvcReq) (b key d w : List Byte) (s t1 t2 t3 t4 : State),
     s.gate.svc.find? (fun r => decide (r.lane = some lane.val)) = some r → svcRead s r.engine r.addr 32 = (t1,
     .ok, b) → leAt b 0 2 = 0xFFFF → svcRead t1 r.engine (leAt b 16 4) (leAt b 20 1) = (t2, .ok, key) → svcRead
     t2 r.engine (leAt b 4 4) (leAt b 8 4) = (t3, .ok, d) → leAt b 2 1 ≠ 1 → svcRead t3 r.engine (leAt b 12 4)
     (leAt b 3 1) = (t4, .ok, w) →
       exec (.serviceRequestEnd lane) s = .next
         (svcFinish t4 r (if w = (hmac256 key d).take (leAt b 3 1) then 0 else 1)))

/-- An increment or a raise opens an item and starts, unless the vault is busy, erasing, under a supply warning, the
counter does not exist or may not move so; a read answers the counter, unless the vault is busy or erasing; the
write of a counter command's value takes its turn among the vault's writes, and the value is durable when it ends.
-/
def Obligations.VaultCounters : Prop :=
  (∀ (m : Master) (c : BitVec 8) (s : State),
     MayWrite s m VLT_CNT_CMD → s.vlt.cntBusy = none → erasing s = false → supplyHeld s = false → c.toNat < 4 ∨
     16 ≤ c.toNat → vaultCounter s c.toNat ≠ 0xFFFFFFFFFFFFFFFF →
       exec (.cntIncrement m c) s = .next
         (let s2 := setR (cntItem s) VLT_CNT_RESULT 0
          answer (vAsk { s2 with vlt := { s2.vlt with
            cntBusy := some (c.toNat, vaultCounter s c.toNat + 1, (getR s2 VLT_CNT_TAG).toNat) } } 6 0) 0)) ∧
  (∀ (m : Master) (c : BitVec 8) (s : State),
     MayWrite s m VLT_CNT_CMD → s.vlt.cntBusy = none → erasing s = false → supplyHeld s = false → c.toNat < 4 ∨
     16 ≤ c.toNat → vaultCounter s c.toNat = 0xFFFFFFFFFFFFFFFF →
       exec (.cntIncrement m c) s = .next (answer (cntEnd (cntItem s) 3) 0)) ∧
  (∀ (m : Master) (c : BitVec 8) (s : State),
     MayWrite s m VLT_CNT_CMD → s.vlt.cntBusy = none → erasing s = false → supplyHeld s = false → 4 ≤ c.toNat →
     c.toNat < 16 →
       exec (.cntIncrement m c) s = .next (answer (cntEnd (cntItem s) 6) 0)) ∧
  (∀ (m : Master) (c : BitVec 8) (s : State),
     MayWrite s m VLT_CNT_CMD → s.vlt.cntBusy.isSome = true →
       exec (.cntIncrement m c) s = .next (answer (cntEnd s 1) 0)) ∧
  (∀ (m : Master) (c : BitVec 8) (s : State),
     MayWrite s m VLT_CNT_CMD → s.vlt.cntBusy = none → erasing s = true ∨ supplyHeld s = true →
       exec (.cntIncrement m c) s = .next (answer (cntEnd (cntItem s) (if erasing s then 5 else 4)) 0)) ∧
  (∀ (m : Master) (c : BitVec 8) (s : State),
     MayWrite s m VLT_CNT_CMD → s.vlt.cntBusy = none → erasing s = false → supplyHeld s = false → c.toNat < 4 ∨
     16 ≤ c.toNat → (vaultCounter s c.toNat).toNat < (getR64 s VLT_CNT_VALUE_LO).toNat →
       exec (.cntRaise m c) s = .next
         (let s2 := setR (cntItem s) VLT_CNT_RESULT 0
          answer (vAsk { s2 with vlt := { s2.vlt with
            cntBusy := some (c.toNat, getR64 s VLT_CNT_VALUE_LO, (getR s2 VLT_CNT_TAG).toNat) } } 6 0) 0)) ∧
  (∀ (m : Master) (c : BitVec 8) (s : State),
     MayWrite s m VLT_CNT_CMD → s.vlt.cntBusy = none → erasing s = false → supplyHeld s = false → c.toNat < 4 ∨
     16 ≤ c.toNat → (getR64 s VLT_CNT_VALUE_LO).toNat ≤ (vaultCounter s c.toNat).toNat →
       exec (.cntRaise m c) s = .next (answer (cntEnd (cntItem s) 2) 0)) ∧
  (∀ (m : Master) (c : BitVec 8) (s : State),
     MayWrite s m VLT_CNT_CMD → s.vlt.cntBusy = none → erasing s = false →
       exec (.cntRead m c) s = .next (answer (cntEnd (setR64 s VLT_CNT_VALUE_LO (vaultCounter s c.toNat)) 0) 0)) ∧
  (∀ (m : Master) (c : BitVec 8) (s : State),
     MayWrite s m VLT_CNT_CMD → s.vlt.cntBusy = none → erasing s = true →
       exec (.cntRead m c) s = .next (answer (cntEnd s 5) 0)) ∧
  (∀ (x : Nat × DWord × Nat) (s : State),
     s.vlt.cntBusy = some x → vMay s 6 0 = true →
       exec .counterDurable s = .next
         (cntEnd (setCounter (vGone { s with vlt := { s.vlt with cntBusy := none } } 6 0) x.1 x.2.1) 0)) ∧
  (∀ (s : State), vMay s 6 0 = false → exec .counterDurable s = .next s)

/-- An export of an acceptable count starts and one of none or of more than the journal holds is refused; the export
ends with the records copied, or with a memory error; the dropped count clears as it is read; a log half full is
compacted when no write waits and the supply is sound; the journal second ends by base 0 where it is valid and by
the always-on clock otherwise; the allowance accrues while AUTO is in operation up to its maximum, and from a tenth
of it the scarcity is over. -/
def Obligations.VaultJournalAndLogs : Prop :=
  (∀ (m : Master) (v : Word) (s : State),
     MayWrite s m VLT_EXPORT_COUNT → s.vlt.exp = none → v.toNat % 0x40000 ≠ 0 → v.toNat % 0x40000 ≤ 131072 →
       exec (.journalExport m v) s = .next
         (let s1 := setR s VLT_EXPORT_RESULT 0
          let x := ((getR s VLT_EXPORT_ADDR).toNat, getF s VLT_EXPORT_FIRST 16 0, v.toNat % 0x40000)
          answer { s1 with vlt := { s1.vlt with exp := some x } } 0)) ∧
  (∀ (m : Master) (v : Word) (s : State),
     MayWrite s m VLT_EXPORT_COUNT → s.vlt.exp = none → v.toNat % 0x40000 = 0 ∨ 131072 < v.toNat % 0x40000 →
       exec (.journalExport m v) s = .next (answer (expEnd s 3) 0)) ∧
  (∀ (a i n : Nat) (s : State),
     s.vlt.exp = some (a, i, n) →
       exec .journalExportDone s = .next
         (let r := exportCopy { s with vlt := { s.vlt with exp := none } } a i n
          expEnd r.1 (if r.2 then 0 else 2))) ∧
  (∀ (m : Master) (s : State),
     MayRead s m VLT_AUDIT_DROPPED →
       exec (.auditDroppedRead m) s = .next (answer (setR s VLT_AUDIT_DROPPED 0) (getR s VLT_AUDIT_DROPPED))) ∧
  (∀ (l : Fin 6) (s : State),
     logRows l.val / 2 ≤ sget s.vlt.fill l.val 0 → supplyHeld s = false → s.vlt.waiting = [] →
       exec (.logCompaction l) s = .next
         (let s1 := rowsWrite s l.val (logLive s l.val)
          { s1 with vlt := { s1.vlt with fill := sset s1.vlt.fill l.val (logLive s l.val) } })) ∧
  (∀ (l : Fin 6) (s : State),
     sget s.vlt.fill l.val 0 < logRows l.val / 2 ∨ supplyHeld s = true ∨ s.vlt.waiting ≠ [] →
       exec (.logCompaction l) s = .next s) ∧
  (∀ (s : State),
     (jClock s).1 = false →
       exec .journalSecondEnd s = .next (jTurn (advanceTb s 0 (((jClock s).2.1 + 1) * 1000000000)))) ∧
  (∀ (s : State),
     (jClock s).1 = true →
       exec .journalSecondEnd s = .next (if s.time.rtcOn then
         jTurn (advanceCycles s (((32768 - s.time.rtc % 32768) * 1000000000 / 32768 + 4) / 4)) else s)) ∧
  (∀ (s : State),
     getF s VLT_STATUS 3 2 = 0 →
       exec .journalAllowanceAccrual s = .next
         (let al := min 8640000 (getF s VLT_JNL_ALLOW 23 0 + 120)
          let s1 := setR s VLT_JNL_ALLOW (w32 al)
          if 864000 ≤ al then { s1 with vlt := { s1.vlt with jlow := false } } else s1)) ∧
  (∀ (s : State), getF s VLT_STATUS 3 2 ≠ 0 → exec .journalAllowanceAccrual s = .next s)

/-- A write of a port's redundancy control first ends the pair it belongs to, with its duplicate table, and then the
pairs form anew, the mismatches show and the pairs' interrupt lines follow; an entry of a pair's duplicate table
leaves it when its life has passed. -/
def Obligations.RedundancyPairs : Prop :=
  (∀ (m : Master) (p : Fin 192) (v : Word) (s : State),
     MayWrite s m (MAC_RED_CTRL p.val) → pairOf s p.val = none →
       exec (.redCtrlWrite m p v) s = .next
         (let s2 := plainWrite (regDesc .MAC p.val 0x080) m ⟨.MAC, p.val, MAC p.val⟩ 0x080 v s
          answer (redSettle s2) 0)) ∧
  (∀ (m : Master) (p : Fin 192) (v : Word) (k a b : Nat) (s : State),
     MayWrite s m (MAC_RED_CTRL p.val) → pairOf s p.val = some (k, a, b) →
       exec (.redCtrlWrite m p v) s = .next
         (let s1 := pairMod (raisePairIrq (putB s (MAC_PAIR_STATUS a) 0 false) a 0) k fun q => { q with ports := none, dups := [] }
          let s2 := plainWrite (regDesc .MAC p.val 0x080) m ⟨.MAC, p.val, MAC p.val⟩ 0x080 v s1
          answer (redSettle s2) 0)) ∧
  (∀ (k : Fin 16) (a b : Nat) (e : DupEnt) (l : List DupEnt) (s : State),
     (pairSt s k.val).ports = some (a, b) → (pairSt s k.val).dups = e :: l →
       exec (.dupEntryExpiry k) s = .next
         (let s1 := advanceNs s (e.made.toNat + dupLife s a)
          pairMod s1 k.val fun q => { q with dups := dupLive s1 k.val a }))

/-- A near-end loopback cuts the line off and a far-end one sends what arrives back; a port that ignores its line
counts the frame; otherwise the frame is received: a good one of a port outside any pair is counted and enters the
switch, one with a bad check sequence is dropped with its code, and a reassembly error counts; a tagged frame of an
HSR port is judged as a pair's; control frames other than PAUSE count as unknown; a PAUSE frame that names the port
and is honoured pauses it until its quanta have elapsed, and any other only counts; above and below its limits the
port sends PAUSE frames. -/
def Obligations.MacReceptionAndPause : Prop :=
  (∀ (p : Fin 192) (b : List Byte) (k : RxKind) (s : State),
     loopOf s p.val = 0 → (rxOpen s p.val).1 = true →
       exec (.macReceive p b k) s = .next (macRx p.val b k s)) ∧
  (∀ (p : Fin 192) (b : List Byte) (k : RxKind) (s : State),
     loopOf s p.val = 0 → rxOpen s p.val = (false, true) →
       exec (.macReceive p b k) s = .next (bumpN s (MAC_Port_counters p.val 7) 1)) ∧
  (∀ (p : Fin 192) (b : List Byte) (k : RxKind) (s : State),
     loopOf s p.val = 1 →
       exec (.macReceive p b k) s = .next s) ∧
  (∀ (p : Fin 192) (b : List Byte) (k : RxKind) (s : State),
     loopOf s p.val = 2 → carries s p.val = true → macUp s p.val = true →
       exec (.macReceive p b k) s = .next (rxMeets p.val (macRx p.val b k) (emit s (.frame p.val b)))) ∧
  (∀ (p : Fin 192) (b : List Byte) (s : State),
     loopOf s p.val = 0 → (rxOpen s p.val).1 = true → pairOf s p.val = none → 60 ≤ b.length → b.length ≤ macMtu
     s p.val + 18 → beAt b 12 2 ≠ 0x8808 →
       exec (.macReceive p b .good) s = .next
         (let st := rxStamp s p.val
          let s2 := macCount (macCount st.1 p.val 0 1) p.val 1 (b.length + 4)
          (swIngress (ptpReceive s2 p.val b st.2) { plainArrival s p.val b with rxTense := st.2 }).1)) ∧
  (∀ (p : Fin 192) (b : List Byte) (s : State),
     loopOf s p.val = 0 → (rxOpen s p.val).1 = true → pairOf s p.val = none → 60 ≤ b.length → b.length ≤ macMtu
     s p.val + 18 →
       exec (.macReceive p b .fcs) s = .next
         (let s1 := (rxStamp s p.val).1
          let ar := { plainArrival s p.val b with rxTense := (rxStamp s p.val).2 }
          let s2 := raiseIrq (macCount s1 p.val 2 1) (MAC p.val) 1
          dropFrame s2 (mkFrame s1 ar (keyFlags (parseFrame s1 p.val b) false false b) (noRoute 0 0 p.val) 0) p.val dropFcs 0xFF 0)) ∧
  (∀ (p : Fin 192) (b : List Byte) (s : State),
     loopOf s p.val = 0 → (rxOpen s p.val).1 = true →
       exec (.macReceive p b .reassembly) s = .next (bumpN s (MAC_Port_counters p.val 13) 1)) ∧
  (∀ (p : Fin 192) (b : List Byte) (x : Nat × Nat × Nat) (s : State),
     loopOf s p.val = 0 → (rxOpen s p.val).1 = true → pairOf s p.val = some x → pairHsr s x.1 = some true →
     (parseFrame s p.val b).hsr = true → 60 ≤ b.length → b.length ≤ macMtu s p.val + 18 → beAt b 12 2 ≠ 0x8808
     →
       exec (.hsrPassThrough p b .good) s = .next
         (let st := rxStamp s p.val
          let s2 := macCount (macCount st.1 p.val 0 1) p.val 1 (b.length + 4)
          pairReceive (ptpReceive s2 p.val b st.2) p.val { plainArrival s p.val b with rxTense := st.2, fromPair := some x.1 } b x)) ∧
  (∀ (p : Fin 192) (b : List Byte) (k : RxKind) (s : State),
     loopOf s p.val = 0 → (rxOpen s p.val).1 = true →
       exec (.hsrPassThrough p b k) s = .next (macRx p.val b k s)) ∧
  (∀ (p : Fin 192) (op : BitVec 16) (s : State),
     loopOf s p.val ≠ 1 → (rxOpen s p.val).1 = true →
       exec (.macControlReceive p op) s = .next
         (let s1 := bumpN (bumpN s (MAC_Port_counters p.val 0) 1) (MAC_Port_counters p.val 1) 64
          if op.toNat = 3 ∧ preemptEn s1 p.val = true then s1 else bumpN s1 (MAC_Port_counters p.val 6) 1)) ∧
  (∀ (p : Fin 192) (da : BitVec 48) (q : BitVec 16) (s : State),
     loopOf s p.val ≠ 1 → (rxOpen s p.val).1 = true → da = 0x0180C2000001 ∨ da.toNat = macSa s p.val → getB s
     (MAC_PAUSE_CTRL p.val) 0 = true →
       exec (.pauseReceive p da q) s = .next
         (let s1 := bumpN (bumpN (bumpN s (MAC_Port_counters p.val 0) 1) (MAC_Port_counters p.val 1) 64) (MAC_Port_counters p.val 5) 1
          macMod (putPaused s1 p.val q.toNat) p.val fun x =>
            { x with pauseFrom := if x.tx.isSome || x.held.isSome then none else some s.time.tense })) ∧
  (∀ (p : Fin 192) (da : BitVec 48) (q : BitVec 16) (s : State),
     loopOf s p.val ≠ 1 → (rxOpen s p.val).1 = true → (da ≠ 0x0180C2000001 ∧ da.toNat ≠ macSa s p.val) ∨ getB s
     (MAC_PAUSE_CTRL p.val) 0 = false →
       exec (.pauseReceive p da q) s = .next
         (bumpN (bumpN (bumpN s (MAC_Port_counters p.val 0) 1) (MAC_Port_counters p.val 1) 64) (MAC_Port_counters p.val 5) 1)) ∧
  (∀ (p : Fin 192) (t : BitVec 64) (s : State),
     (mac s p.val).pauseFrom = some t → paused s p.val = true →
       exec (.pauseExpiry p) s = .next
         (putPaused (advanceNs s (t.toNat + quantaNs s p.val (getF s (MAC_PAUSE_STATUS p.val) 31 16))) p.val 0)) ∧
  (∀ (p : Fin 192) (s : State),
     pauseMay s p.val = true → aboveXoff s p.val = true → getB s (MAC_PAUSE_STATUS p.val) 1 = false →
       exec (.pauseXoffSend p) s = .next (pauseSend s p.val (getF s (MAC_PAUSE_CTRL p.val) 31 16))) ∧
  (∀ (p : Fin 192) (s : State),
     pauseMay s p.val = true → aboveXon s p.val = true → getB s (MAC_PAUSE_STATUS p.val) 1 = true → (mac s
     p.val).ctl.any MacCtl.isPause = false →
       exec (.pauseRefresh p) s = .next
         (let q := getF s (MAC_PAUSE_CTRL p.val) 31 16
          pauseSend (advanceNs s ((mac s p.val).xoffFrom.toNat + quantaNs s p.val q / 2)) p.val q)) ∧
  (∀ (p : Fin 192) (s : State),
     pauseMay s p.val = true → aboveXon s p.val = false → getB s (MAC_PAUSE_STATUS p.val) 1 = true →
       exec (.pauseXonSend p) s = .next (pauseSend s p.val 0)) ∧
  (∀ (p : Fin 192) (q : Nat) (s : State),
     pauseMay s p.val = true → aboveXoff s p.val = true → getB s (MAC_PAUSE_STATUS p.val) 1 = false → (mac s
     p.val).tx = none → getB s (MAC_LINK p.val) 6 = false → getF s (MAC_PAUSE_CTRL p.val) 31 16 = q + 1 →
       exec (.pauseXoffSend p) s = .next
         (ctlOut (advanceNs (raiseIrq (putB s (MAC_PAUSE_STATUS p.val) 1 true) (MAC p.val) 2) (mac s p.val).readyAt.toNat)
           p.val (.pause (q + 1))))

/-- An idle MAC that may send starts the frame that selection gives; one that may not, or whose frame in progress
may not be preempted, starts none; a preempted frame goes on when no express frame is eligible and where the port
may start no further frame, and an express frame interrupts one that may be; an internal port takes its choice in
turn; the last byte's end counts the frame, begins the gap and the pause that waited for it, ends its item, lets
waiting control frames go and a change of preemption apply, and a near-end loopback receives the frame; verification
sends its mPackets, and a respond or a verify mPacket is taken as the state says. -/
def Obligations.MacTransmission : Prop :=
  (∀ (p : Fin 224) (f : ReadFault) (fr : Frame) (c : Nat) (b : List Byte) (s t : State),
     p.val < 192 → txReady s p.val = true → (mac s p.val).tx = none → (mac s p.val).held = none → macPick s
     p.val (fun _ => true) f (s.sw.queue.length + 1) = (t, some (fr, c, b)) →
       exec (.egressSelect p f) s = .next (macStart t p.val fr c b)) ∧
  (∀ (p : Fin 224) (f : ReadFault) (s t : State),
     p.val < 192 → txReady s p.val = true → (mac s p.val).tx = none → (mac s p.val).held = none → macPick s
     p.val (fun _ => true) f (s.sw.queue.length + 1) = (t, none) →
       exec (.egressSelect p f) s = .next t) ∧
  (∀ (p : Fin 224) (f : ReadFault) (s : State),
     p.val < 192 → txReady s p.val = false → (mac s p.val).held = none ∨ (mac s p.val).tx.isSome = true →
       exec (.egressSelect p f) s = .next s) ∧
  (∀ (p : Fin 224) (f : ReadFault) (x : TxFrame) (s t : State) (o : Option (Frame × Nat × List Byte)),
     p.val < 192 → txReady s p.val = true → (mac s p.val).tx = none → (mac s p.val).held = some x → macPick s
     p.val (fun c => !(preemptable s p.val c)) f (s.sw.queue.length + 1) = (t, o) →
       exec (.egressSelect p f) s = .next (match o with
         | some (fr, c, b) => macStart t p.val fr c b
         | none => macResume t p.val x)) ∧
  (∀ (p : Fin 224) (f : ReadFault) (x : TxFrame) (s : State),
     p.val < 192 → txReady s p.val = false → (mac s p.val).tx = none → (mac s p.val).held = some x →
       exec (.egressSelect p f) s = .next (macResume s p.val x)) ∧
  (∀ (p : Fin 224) (f : ReadFault) (x : TxFrame) (s t : State) (o : Option (Frame × Nat × List Byte)),
     p.val < 192 → txReady s p.val = true → (mac s p.val).tx = some x → macPick s p.val (fun c => !(preemptable
     s p.val c)) f (s.sw.queue.length + 1) = (t, o) →
       exec (.egressSelect p f) s = .next (if mayPreempt s p.val x then
           match o with
           | some (fr, c, b) => macStart (preemptNow t p.val x) p.val fr c b
           | none => t
         else s)) ∧
  (∀ (p : Fin 224) (f : ReadFault) (s : State),
     192 ≤ p.val → p.val < 212 → egressOn s p.val = true →
       exec (.egressSelect p f) s = .next (sinkTry p.val f s (s.sw.queue.length + 1))) ∧
  (∀ (p : Fin 192) (x : TxFrame) (s : State),
     (mac s p.val).tx = some x →
       exec (.macTransmitEnd p) s = .next
         (let n := x.bytes.length + 4
          let s1 := advanceNs s (x.start.toNat + bytesNs s p.val (8 + n - x.sent))
          let s2 := macCount (macCount (lineOut s1 p.val (.frame p.val x.bytes)) p.val 8 1) p.val 9 n
          let s3 := macMod s2 p.val fun q =>
            { q with
              tx := none
              readyAt := s1.time.tense + BitVec.ofNat 64 (bytesNs s p.val 12)
              pauseFrom := if paused s2 p.val && q.pauseFrom.isNone && q.held.isNone then some s2.time.tense else q.pauseFrom }
          let s4 := ptpSent s3 x.rec_
          let s5 := ctlFlush (if x.pass then itemTransmitted s4 x.tag else s4) p.val
          let s6 := preemptSync s5 p.val
          if carries s p.val && decide (loopOf s p.val = 1) then rxMeets p.val (macRx p.val x.bytes .good) s6 else s6)) ∧
  (∀ (p : Fin 192) (s : State),
     macOn s p.val = true → macUp s p.val = true → verifyState s p.val = 1 → (mac s p.val).tx = none → (mac s
     p.val).held = none →
       exec (.verifySend p) s = .next
         (let u := ctlSend s p.val (.mpacket true)
          verifyPut (macMod u p.val fun q => { q with attempts := 1, verifyAt := u.time.tense }) p.val 2)) ∧
  (∀ (p : Fin 192) (s : State),
     macOn s p.val = true → macUp s p.val = true → verifyState s p.val = 2 → (mac s p.val).attempts < max 1
     (getF s (MAC_PREEMPT_CTRL p.val) 26 24) →
       exec (.verifySend p) s = .next
         (let s1 := advanceNs s ((mac s p.val).verifyAt.toNat + max 1 (getF s (MAC_PREEMPT_CTRL p.val) 22 16) * 1000000)
          let u := ctlSend s1 p.val (.mpacket true)
          macMod u p.val fun q => { q with attempts := (mac s p.val).attempts + 1, verifyAt := u.time.tense })) ∧
  (∀ (p : Fin 192) (s : State),
     macOn s p.val = true → macUp s p.val = true → verifyState s p.val = 2 → max 1 (getF s (MAC_PREEMPT_CTRL
     p.val) 26 24) ≤ (mac s p.val).attempts →
       exec (.verifySend p) s = .next
         (verifyPut (macCount (advanceNs s ((mac s p.val).verifyAt.toNat + max 1 (getF s (MAC_PREEMPT_CTRL p.val) 22 16) * 1000000))
           p.val 16 1) p.val 4)) ∧
  (∀ (p : Fin 192) (s : State),
     loopOf s p.val ≠ 1 → (rxOpen s p.val).1 = true → preemptEn s p.val = true →
       exec (.respondReceive p) s = .next (if verifyState s p.val = 2 then
         raiseIrq (putF s (MAC_PREEMPT_STATUS p.val) 2 0 3) (MAC p.val) 3 else s)) ∧
  (∀ (p : Fin 192) (s : State),
     loopOf s p.val ≠ 1 → (rxOpen s p.val).1 = true → preemptEn s p.val = false →
       exec (.respondReceive p) s = .next (bumpN s (MAC_Port_counters p.val 6) 1)) ∧
  (∀ (p : Fin 192) (s : State),
     loopOf s p.val ≠ 1 → (rxOpen s p.val).1 = true →
       exec (.verifyReceive p) s = .next
         (if preemptEn s p.val = false then bumpN s (MAC_Port_counters p.val 6) 1
          else if verifyState s p.val = 0 then s else ctlSend s p.val (.mpacket false)))

/-- A running lane that reports link up brings its port up; the in-band word ends its port's link in the modes that
have one, and a lane that loses its sync or signal ends those of all its ports; enabling a lane applies its written
mode; a restart of negotiation clears what it found; the pattern error count takes in the errors met and clears as
it is read; a port that stayed idle enters LPI, a waiting frame ends it, and the partner's LPI shows, its end being
a wake source where the port admits LPI; a MDIO word starts a frame of its kind while none is in progress, whose end
completes it. -/
def Obligations.LinksLanesAndMdio : Prop :=
  (∀ (p : Fin 192) (w : BitVec 3) (n : BitVec 16) (s : State),
     getB s (BLK_CTRL (SDS (laneOf p.val))) 0 = true → laneMode s (laneOf p.val) ≠ 0 →
       Ends (.linkUp p w n) s fun t =>
         Only [.regs, .cnts, .outs, .intc, .sw, .eth] s t ∧ macUp t p.val = true) ∧
  (∀ (p : Fin 192) (w : BitVec 3) (n : BitVec 16) (s : State),
     getB s (BLK_CTRL (SDS (laneOf p.val))) 0 = false →
       exec (.linkUp p w n) s = .next s) ∧
  (∀ (p : Fin 192) (half : Bool) (n : BitVec 16) (s : State),
     laneMode s (laneOf p.val) ≠ 0 → laneMode s (laneOf p.val) ≤ 3 →
       Ends (.linkDown p half .word n) s fun t =>
         Only [.regs, .cnts, .outs, .intc, .sw, .eth] s t ∧ macUp t p.val = false) ∧
  (∀ (p q : Fin 192) (half : Bool) (why : LaneLoss) (n : BitVec 16) (s : State),
     laneMode s (laneOf p.val) ≠ 0 → why ≠ .word → q.val ∈ lanePorts (laneOf p.val) →
       Ends (.linkDown p half why n) s fun t =>
         Only [.regs, .cnts, .outs, .intc, .sw, .eth] s t ∧ macUp t q.val = false) ∧
  (∀ (p : Fin 192) (half : Bool) (why : LaneLoss) (n : BitVec 16) (s : State),
     laneMode s (laneOf p.val) = 0 →
       exec (.linkDown p half why n) s = .next (codeErrs (laneOf p.val) n.toNat s)) ∧
  (∀ (m : Master) (l : Fin 60) (s : State),
     MayWrite s m (BLK_CTRL (SDS l.val)) → getB s (BLK_CTRL (SDS l.val)) 0 = false →
       exec (.sdsEnable m l) s = .next
         (let s1 := putB s (BLK_CTRL (SDS l.val)) 0 true
          let w := getF s1 (SDS_MODE l.val) 2 0
          answer (setR (putF (fresh s1).2 (SDS_STATUS l.val) 10 8 (if laneOffers l.val w then w else 0)) (SDS_TX_EQ l.val)
            (w32 ((fresh s1).1.toNat % 65536))) 0)) ∧
  (∀ (m : Master) (l : Fin 60) (s : State),
     MayWrite s m (SDS_AN_CTRL l.val) →
       exec (.anRestart m l) s = .next
         (answer (putB (putB s (SDS_AN_CTRL l.val) 0 (bit (getR s (SDS_AN_CTRL l.val)) 0)) (SDS_STATUS l.val) 2 false) 0)) ∧
  (∀ (m : Master) (l : Fin 60) (n : Word) (s : State),
     MayRead s m (SDS_PRBS_ERR l.val) →
       exec (.prbsErrRead m l n) s = .next
         (let u := if getB s (BLK_CTRL (SDS l.val)) 0 && getB s (SDS_PRBS l.val) 1 && decide (n.toNat ≠ 0) then
              raiseIrq (setR s (SDS_PRBS_ERR l.val) (w32 (min 0xFFFFFFFF ((getR s (SDS_PRBS_ERR l.val)).toNat + n.toNat)))) (SDS l.val) 3
            else s
          answer (setR u (SDS_PRBS_ERR l.val) 0) (getR u (SDS_PRBS_ERR l.val)))) ∧
  (∀ (p : Fin 192) (s : State),
     lpiUse s p.val = true → devState s = 0 → waitsFor s p.val = false → (mac s p.val).tx = none → (mac s
     p.val).held = none → getB s (MAC_LINK p.val) 6 = false →
       exec (.lpiEntry p) s = .next
         (putLpi (advanceNs s (tenseNs s + getF s (MAC_EEE_CTRL p.val) 31 16 * 1000)) p.val true)) ∧
  (∀ (p : Fin 192) (s : State),
     getB s (MAC_LINK p.val) 6 = true → devState s = 0 → waitsFor s p.val = true →
       exec (.lpiExit p) s = .next
         (macMod (putLpi s p.val false) p.val fun q => { q with readyAt := s.time.tense + BitVec.ofNat 64 (wakeUs s p.val * 1000) })) ∧
  (∀ (p : Fin 192) (on : Bool) (s : State),
     macOn s p.val = true → macUp s p.val = true → getB s (MAC_LINK p.val) 7 ≠ on →
       exec (.lpiRx p on) s = .next
         (let s1 := raiseIrq (putB s (MAC_LINK p.val) 7 on) (MAC p.val) 4
          if !on && lpiCapable s p.val then wakeSource 12 s1 else s1)) ∧
  (∀ (m : Master) (l : Fin 4) (v : Word) (s : State),
     MayWrite s m (SDS_MDIO_CMD l.val) → getB s (SDS_MDIO_RESULT l.val) 30 = false → fld v 31 30 < 2 →
       exec (.mdioRead m l v) s = .next
         (let w := setFld v 29 28 (if fld v 31 30 = 0 then 2 else 3)
          let s1 := putB (putB s (SDS_MDIO_RESULT l.val) 31 false) (SDS_MDIO_RESULT l.val) 30 true
          answer (emit { s1 with eth := { s1.eth with mdio := sset s1.eth.mdio l.val w } } (.mdio l.val w)) 0)) ∧
  (∀ (m : Master) (l : Fin 4) (v : Word) (s : State),
     MayWrite s m (SDS_MDIO_CMD l.val) → getB s (SDS_MDIO_RESULT l.val) 30 = false → fld v 31 30 < 2 →
       exec (.mdioWrite m l v) s = .next
         (let w := setFld v 29 28 (if fld v 31 30 = 0 then 1 else 1)
          let s1 := putB (putB s (SDS_MDIO_RESULT l.val) 31 false) (SDS_MDIO_RESULT l.val) 30 true
          answer (emit { s1 with eth := { s1.eth with mdio := sset s1.eth.mdio l.val w } } (.mdio l.val w)) 0)) ∧
  (∀ (m : Master) (l : Fin 4) (v : Word) (s : State),
     MayWrite s m (SDS_MDIO_CMD l.val) → getB s (SDS_MDIO_RESULT l.val) 30 = false →
       exec (.mdioAddress m l v) s = .next
         (let w := setFld (setFld v 31 30 1) 29 28 0
          let s1 := putB (putB s (SDS_MDIO_RESULT l.val) 31 false) (SDS_MDIO_RESULT l.val) 30 true
          answer (emit { s1 with eth := { s1.eth with mdio := sset s1.eth.mdio l.val w } } (.mdio l.val w)) 0)) ∧
  (∀ (m : Master) (l : Fin 4) (v : Word) (s : State),
     MayWrite s m (SDS_MDIO_CMD l.val) → getB s (SDS_MDIO_RESULT l.val) 30 = false →
       exec (.mdioPostReadIncrement m l v) s = .next
         (let w := setFld (setFld v 31 30 1) 29 28 2
          let s1 := putB (putB s (SDS_MDIO_RESULT l.val) 31 false) (SDS_MDIO_RESULT l.val) 30 true
          answer (emit { s1 with eth := { s1.eth with mdio := sset s1.eth.mdio l.val w } } (.mdio l.val w)) 0)) ∧
  (∀ (l : Fin 4) (data : BitVec 16) (v : Word) (s : State),
     sfind s.eth.mdio l.val = some v →
       exec (.mdioFrameEnd l data) s = .next
         (let s1 := { s with eth := { s.eth with mdio := sdel s.eth.mdio l.val } }
          let s2 := putB (putB s1 (SDS_MDIO_RESULT l.val) 30 false) (SDS_MDIO_RESULT l.val) 31 true
          let s3 := if mdioReads v then putF s2 (SDS_MDIO_RESULT l.val) 15 0 data.toNat else s2
          updMdio (putB s3 (SDS_MDIO_IRQ_STATUS l.val) 0 true) l.val))

/-- A commit in CONFIG of parameters, schedule and guardian entries that pass makes the controller READY, and the
first check that fails ends it with its code; an uncommit in READY makes it CONFIG; a start in READY begins to
listen; a stop in RUN ends in READY; a mode request in RUN is armed; outside its state each ends with the state
error. -/
def Obligations.PeriodLinkCommands : Prop :=
  (∀ (m : Master) (n : Fin 16) (s : State),
     MayWrite s m (PLK_CMD n.val) → plkC s n.val = 0 → plkParamOk s n.val = true → plkSchedBad s n.val = none →
     plkGuardBad s n.val = none →
       exec (.plkCommit m n) s = .next (answer (plkCmdEnd (putF s (PLK_STATUS n.val) 1 0 1) n.val 0 0 0) 0)) ∧
  (∀ (m : Master) (n : Fin 16) (s : State),
     MayWrite s m (PLK_CMD n.val) → plkC s n.val = 0 → plkParamOk s n.val = false →
       exec (.plkCommit m n) s = .next (answer (plkCmdEnd s n.val 2 0 0) 0)) ∧
  (∀ (m : Master) (n : Fin 16) (e : Nat × Nat) (s : State),
     MayWrite s m (PLK_CMD n.val) → plkC s n.val = 0 → plkParamOk s n.val = true → plkSchedBad s n.val = some e
     →
       exec (.plkCommit m n) s = .next (answer (plkCmdEnd s n.val 3 e.1 e.2) 0)) ∧
  (∀ (m : Master) (n : Fin 16) (e : Nat × Nat) (s : State),
     MayWrite s m (PLK_CMD n.val) → plkC s n.val = 0 → plkParamOk s n.val = true → plkSchedBad s n.val = none →
     plkGuardBad s n.val = some e →
       exec (.plkCommit m n) s = .next (answer (plkCmdEnd s n.val 4 e.1 e.2) 0)) ∧
  (∀ (m : Master) (n : Fin 16) (s : State),
     MayWrite s m (PLK_CMD n.val) → plkC s n.val ≠ 0 →
       exec (.plkCommit m n) s = .next (answer (plkCmdEnd s n.val 5 0 0) 0)) ∧
  (∀ (m : Master) (n : Fin 16) (s : State),
     MayWrite s m (PLK_CMD n.val) → plkC s n.val = 1 →
       exec (.plkUncommit m n) s = .next (answer (plkCmdEnd (putF s (PLK_STATUS n.val) 1 0 0) n.val 0 0 0) 0)) ∧
  (∀ (m : Master) (n : Fin 16) (s : State),
     MayWrite s m (PLK_CMD n.val) → plkC s n.val ≠ 1 →
       exec (.plkUncommit m n) s = .next (answer (plkCmdEnd s n.val 5 0 0) 0)) ∧
  (∀ (m : Master) (n : Fin 16) (s : State),
     MayWrite s m (PLK_CMD n.val) → plkC s n.val = 1 → getB s (BLK_CTRL (PLK n.val)) 0 = true →
       exec (.plkStart m n) s = .next
         (let s0 := if plkMode s n.val = 0 then s else raiseIrq s (PLK n.val) 2
          let s1 := putF s0 (PLK_STATUS n.val) 31 2 0
          let s2 := setR (setR (putF s1 (PLK_STATUS n.val) 1 0 2) (PLK_MEMBERS_LO n.val) 0) (PLK_MEMBERS_HI n.val) 0
          let s3 := plkMod s2 n.val fun p => { PlkSt.init with
            back := p.back, chosen := [], fetchNs := max 2000 (getF s (PLK_FETCH_NS n.val) 15 0) }
          answer (plkCmdEnd (plkListen (plkChBoth (plkPins s3 n.val true) n.val 0 true) n.val (plkFull s n.val) 0) n.val 0 0 0) 0)) ∧
  (∀ (m : Master) (n : Fin 16) (s : State),
     MayWrite s m (PLK_CMD n.val) → plkC s n.val ≠ 1 ∨ getB s (BLK_CTRL (PLK n.val)) 0 = false →
       exec (.plkStart m n) s = .next (answer (plkCmdEnd s n.val 5 0 0) 0)) ∧
  (∀ (m : Master) (n : Fin 16) (s : State),
     MayWrite s m (PLK_CMD n.val) → plkC s n.val = 2 →
       exec (.plkStop m n) s = .next
         (let s1 := plkChBoth (plkSetP (plkPins (plkQuiet s n.val) n.val false) n.val 0) n.val 0 false
          let s2 := putB (putF s1 (PLK_STATUS n.val) 1 0 1) (PLK_STATUS n.val) 11 false
          let s3 := plkMod s2 n.val fun p => { p with timer := none, mcNext := none, mcNow := none }
          answer (plkCmdEnd s3 n.val 0 0 0) 0)) ∧
  (∀ (m : Master) (n : Fin 16) (s : State),
     MayWrite s m (PLK_CMD n.val) → plkC s n.val ≠ 2 →
       exec (.plkStop m n) s = .next (answer (plkCmdEnd s n.val 5 0 0) 0)) ∧
  (∀ (m : Master) (n : Fin 16) (mode : BitVec 2) (s : State),
     MayWrite s m (PLK_CMD n.val) → plkC s n.val = 2 →
       exec (.requestMode m n mode) s = .next
         (let s1 := plkMod (putB s (PLK_STATUS n.val) 11 true) n.val fun p =>
            { p with mcNext := some (mode.toNat, decide (plkP s n.val = 4)) }
          answer (plkCmdEnd s1 n.val 0 0 0) 0)) ∧
  (∀ (m : Master) (n : Fin 16) (mode : BitVec 2) (s : State),
     MayWrite s m (PLK_CMD n.val) → plkC s n.val ≠ 2 →
       exec (.requestMode m n mode) s = .next (answer (plkCmdEnd s n.val 5 0 0) 0))

/-- A cycle starts a cycle's length after the one before, corrected; a fetch point chooses the slot's frame; an
action point puts it on the line, or a null frame where its Gate record is gone, and its end counts it and ends its
item; a slot of another node shows whether its frame came; the NIT computes the correction; a transmission too soon
after the last is activity alone, and another is judged, a failing outcome being counted and a valid first frame
taken; the timer of a cold-start node makes it leader unless an edge comes first; an echo mismatch jams, and a
collision in COLDSTART ends in LISTEN; the guardian's windows open and close, a frame still running being cut; a
comparator fires once in a cycle. -/
def Obligations.PeriodLinkCycle : Prop :=
  (∀ (n : Fin 16) (g : Word) (s : State),
     plkC s n.val = 2 → 2 ≤ plkP s n.val →
       exec (.cycleStart n g) s = .next
         (let p := plk s n.val
          let t0 := (Int.ofNat (p.t0 + plkHalf s n.val (plkLen s n.val)) + 5 * p.kappa).toNat
          let s0 := plkSlotsOver (advanceHalf s t0) n.val
          let s1 := if plkP s n.val = 3 ∧ plkCycle s n.val = 3 then plkSetP s0 n.val 4 else s0
          let ok := decide (plkHalf s n.val (plkLen s n.val - getF s (PLK_WINDOWS n.val) 7 0) ≤ 5 * g.toNat)
          let s2 := if ok then s1 else plkNote s1 n.val 10 13
          let s3 := putB (putF s2 (PLK_STATUS n.val) 31 16 (plkCycle s n.val + 1)) (PLK_STATUS n.val) 11 p.mcNext.isSome
          let s4 := plkModeApply s3 n.val p.nextMode
          plkMod s4 n.val fun q => { q with
            t0 := t0, inNit := false, kappa := 0, mcNow := p.mcNext, mcNext := none, devs := [], whole := true
            syncSeen := false, badMode := false, votes := [], sawMember := false, sawOwn := false
            startVec := getR64 s4 (PLK_MEMBERS_LO n.val), excl := (q.excl.map fun a => a + 1).filter fun a => decide (a < 1024)
            taken := [], fired := [], fetchNs := max 2000 (getF s (PLK_FETCH_NS n.val) 15 0), gOk := ok, gCount := g.toNat
            gT0 := if ok then t0 else q.gT0, newMode := none })) ∧
  (∀ (n : Fin 16) (k : Fin 64) (s : State),
     plkC s n.val = 2 → plkP s n.val = 4 → (plk s n.val).inNit = false → k.val < plkN s n.val (plkMode s n.val)
     → plkOwner s n.val (plkMode s n.val) k.val = plkId s n.val → (plk s n.val).chosen.any (fun t => decide
     (t.slot = k.val)) = false →
       exec (.fetchPoint n k) s = .next
         (let start := plkHalf s n.val (plkStart s n.val (plkMode s n.val) k.val + plkAct s n.val (plkMode s n.val) k.val)
          let due := Int.ofNat (plk s n.val).t0 + Int.ofNat start - Int.ofNat (2 * (plk s n.val).fetchNs)
          match plkChoose (advanceHalf s due.toNat) n.val (plkMode s n.val) k.val (plkCycle s n.val) with
          | (t, some x) => plkMod t n.val fun q => { q with chosen := q.chosen ++ [x] }
          | (t, none) => t)) ∧
  (∀ (n : Fin 16) (k : Fin 64) (s : State),
     plkC s n.val = 2 → plkP s n.val = 4 → (plk s n.val).inNit = true → k.val < plkN s n.val (plk s
     n.val).nextMode → plkOwner s n.val (plk s n.val).nextMode k.val = plkId s n.val → (plk s n.val).chosen.any
     (fun t => decide (t.slot = k.val)) = false →
       exec (.fetchPoint n k) s = .next
         (let p := plk s n.val
          let start := plkHalf s n.val (plkStart s n.val p.nextMode k.val + plkAct s n.val p.nextMode k.val)
          let next := Int.ofNat (p.t0 + plkHalf s n.val (plkLen s n.val)) + 5 * p.kappa
          let due := next + Int.ofNat start - Int.ofNat (2 * p.fetchNs)
          match plkChoose (advanceHalf s due.toNat) n.val p.nextMode k.val ((plkCycle s n.val + 1) % 65536) with
          | (t, some x) => plkMod t n.val fun q => { q with chosen := q.chosen ++ [x] }
          | (t, none) => t)) ∧
  (∀ (n : Fin 16) (k : Fin 64) (x : PlTx) (s : State),
     plkC s n.val = 2 → plkP s n.val = 4 → (plk s n.val).onLine = none → (plk s n.val).chosen.find? (fun t =>
     decide (t.slot = k.val)) = some x → plkStands s n.val x = true →
       exec (.actionPoint n k) s = .next
         (let act := (plk s n.val).t0 + plkHalf s n.val (plkStart s n.val (plkMode s n.val) k.val + plkAct s n.val (plkMode s n.val) k.val)
          plkTransmit (plkMod s n.val fun p => { p with chosen := p.chosen.filter fun u => decide (u.slot ≠ k.val) }) n.val act x)) ∧
  (∀ (n : Fin 16) (k : Fin 64) (x : PlTx) (s : State),
     plkC s n.val = 2 → plkP s n.val = 4 → (plk s n.val).onLine = none → (plk s n.val).chosen.find? (fun t =>
     decide (t.slot = k.val)) = some x → plkStands s n.val x = false →
       exec (.actionPoint n k) s = .next
         (let act := (plk s n.val).t0 + plkHalf s n.val (plkStart s n.val (plkMode s n.val) k.val + plkAct s n.val (plkMode s n.val) k.val)
          let s0 := plkMod s n.val fun p => { p with chosen := p.chosen.filter fun u => decide (u.slot ≠ k.val) }
          match plkNull s0 n.val k.val (plkView s0 n.val (plkMode s n.val) k.val (plkCycle s n.val)) with
          | (t, some u) => plkTransmit t n.val act u
          | (t, none) => t)) ∧
  (∀ (n : Fin 16) (x : PlTx) (s : State),
     (plk s n.val).onLine = some x →
       exec (.plTransmitEnd n) s = .next
         (let start := plkStart s n.val (plkMode s n.val) x.slot + plkAct s n.val (plkMode s n.val) x.slot
          let fin := (plk s n.val).t0 + plkHalf s n.val start + 20 * (22 + x.payload.length) * plkBit s n.val
          plkRelease (advanceHalf (plkSent (advanceHalf s fin) n.val x) (fin + 2 * plkBit s n.val)) n.val)) ∧
  (∀ (n : Nat) (x : PlTx) (s : State),
     plkGood s n x = true →
       plkSent s n x =
         (let s2 := plkMod (bump s (PLK_Node_counters n 11)) n fun p => { p with
            votes := (plkId s n, plkMc s n p.mcNow) :: p.votes
            devs := if (beAt x.body 1 1).testBit 7 then p.devs ++ [0] else p.devs }
          if x.src = 0 then match x.gate with
            | some tag => itemTransmitted (gateEntryDrop s2 (320 + n) tag) tag
            | none => s2
          else if x.src = 1 then plkStatus s2 n x.idx 0
          else s2)) ∧
  (∀ (n : Fin 16) (b : Bool) (lt lt2 : Word) (bits : List Bool) (s : State),
     plkC s n.val ≠ 2 ∨ plkP s n.val = 0 ∨ plkChanOn s n.val b = false →
       exec (.plFrameReceive n b lt lt2 bits) s = .next s) ∧
  (∀ (n : Fin 16) (b : Bool) (lt lt2 : Word) (bits : List Bool) (s : State),
     plkC s n.val = 2 → plkP s n.val = 1 → plkChanOn s n.val b = true →
       exec (.plFrameReceive n b lt lt2 bits) s = .next
         (let h := plkHear s n.val lt.toNat lt2.toNat bits
          let edge := 2 * tenseNs s - 20 * (22 + beAt h.2.2 6 1) * plkBit s n.val
          let start := (Int.ofNat edge + 5 * (Int.ofNat h.2.1 - Int.ofNat lt.toNat)).toNat
          let s1 := plkHeardTo s n.val b (edge + 2 * lowBits bits * plkBit s n.val)
          if edge < (if b then (plk s n.val).chB else (plk s n.val).chA).last + 22 * plkBit s n.val then plkActivity s1 n.val
          else plkJudged n.val b h.1 (Int.ofNat h.2.1) start h.2.2 s1)) ∧
  (∀ (n : Fin 16) (b : Bool) (lt lt2 : Word) (bits : List Bool) (s : State),
     plkC s n.val = 2 → 2 ≤ plkP s n.val → plkChanOn s n.val b = true →
       exec (.plFrameReceive n b lt lt2 bits) s = .next
         (let h := plkHear s n.val lt.toNat lt2.toNat bits
          let edge := (plk s n.val).t0 + 5 * lt.toNat
          let start := (Int.ofNat edge + 5 * (Int.ofNat h.2.1 - Int.ofNat lt.toNat)).toNat
          let s0 := advanceHalf s (start + 20 * (22 + beAt h.2.2 6 1) * plkBit s n.val)
          let s1 := plkHeardTo s0 n.val b (edge + 2 * lowBits bits * plkBit s n.val)
          if edge < (if b then (plk s n.val).chB else (plk s n.val).chA).last + 22 * plkBit s n.val then plkActivity s1 n.val
          else plkJudged n.val b h.1 (Int.ofNat h.2.1) start h.2.2 s1)) ∧
  (∀ (n : Nat) (b ok : Bool) (lt : Int) (start : Nat) (body : List Byte) (s : State) (o : Nat),
     plkP s n = 4 → (plkJudge s n ok (5 * lt - 2 * (if b then getF s (PLK_DELTA n) 26 16 else getF s (PLK_DELTA
     n) 10 0)) body).1 = o → o ≠ 0 → o ≠ 5 →
       plkJudged n b ok lt start body s =
         (let s1 := putF (bump s (plkChCnt n b (plkOutCnt o))) (plkCh n b) 7 4 o
          let differs := ok && decide (20 + beAt body 6 1 ≤ body.length) && plkCrcOk body &&
            (decide (beAt body 2 1 / 64 ≠ plkMode s n) || decide (beAt body 3 2 ≠ plkCycle s n))
          plkMod s1 n fun p => { p with badMode := p.badMode || differs })) ∧
  (∀ (n : Nat) (b : Bool) (lt : Int) (start : Nat) (body : List Byte) (s : State) (k : Nat) (d : Int),
     plkP s n = 4 → plkJudge s n true (5 * lt - 2 * (if b then getF s (PLK_DELTA n) 26 16 else getF s
     (PLK_DELTA n) 10 0)) body = (0, k, d) → (plk s n).taken.find? (fun t => decide (t.slot = k)) = none →
       plkJudged n b true lt start body s =
         (let s1 := putF (bump s (plkChCnt n b 7)) (plkCh n b) 7 4 0
          let differs := decide (20 + beAt body 6 1 ≤ body.length) && plkCrcOk body &&
            (decide (beAt body 2 1 / 64 ≠ plkMode s n) || decide (beAt body 3 2 ≠ plkCycle s n))
          plkTake (plkMod s1 n fun p => { p with badMode := p.badMode || differs }) n k b (some d) start body)) ∧
  (∀ (n : Fin 16) (k : Fin 64) (s : State),
     plkC s n.val = 2 → 2 ≤ plkP s n.val → k.val < plkN s n.val (plkMode s n.val) → plkOwner s n.val (plkMode s
     n.val) k.val ≠ 0 → plkOwner s n.val (plkMode s n.val) k.val ≠ plkId s n.val →
       exec (.slotEnd n k) s = .next
         (let o := plkOwner s n.val (plkMode s n.val) k.val
          let took := (plk s n.val).taken.any fun t => decide (t.slot = k.val)
          let s1 := putB (plkAt s n.val (plkStart s n.val (plkMode s n.val) (k.val + 1)))
            (if 32 ≤ o then PLK_MEMBERS_HI n.val else PLK_MEMBERS_LO n.val) (o % 32) took
          if took then s1 else putB (bump s1 (PLK_SLOT_EMPTY n.val k.val)) (PLK_SLOT_STATUS n.val k.val) 31 false)) ∧
  (∀ (n : Fin 16) (k : Fin 64) (s : State),
     plkC s n.val = 2 → 2 ≤ plkP s n.val → k.val < plkN s n.val (plkMode s n.val) → plkOwner s n.val (plkMode s
     n.val) k.val = 0 ∨ plkOwner s n.val (plkMode s n.val) k.val = plkId s n.val →
       exec (.slotEnd n k) s = .next (plkAt s n.val (plkStart s n.val (plkMode s n.val) (k.val + 1)))) ∧
  (∀ (n : Fin 16) (s : State),
     plkC s n.val = 2 → plkP s n.val = 4 → (plk s n.val).inNit = false → (plk s n.val).devs ≠ [] → plkRequested
     s n.val = false → (plk s n.val).sawMember = false → nodeBit s (PLK_SYNC_NODES_LO n.val) (plkId s n.val) =
     true →
       exec (.nitStart n) s = .next
         (plkMod (plkAt s n.val (plkE s n.val (plkMode s n.val))) n.val fun p => { p with
            inNit := true, kappa := plkCorrection (plk s n.val).devs, nextMode := (plkAgreed s n.val).getD (plkMode s n.val)
            noSync := if (plk s n.val).syncSeen then 0 else (plk s n.val).noSync + 1, missing := 0, rejoin := 0 })) ∧
  (∀ (n : Fin 16) (d due : Nat) (s : State),
     (plk s n.val).timer = some (d, some due) → plkC s n.val = 2 → plkP s n.val = 1 →
       exec (.listenTimeout n false) s = .next
         (let f := (plkFirst s n.val 0 (plkId s n.val)).getD 0
          let s0 := advanceHalf s due
          let s1 := plkSetP (if plkMode s n.val = 0 then s0 else raiseIrq s0 (PLK n.val) 2) n.val 3
          let s2 := putF (putF s1 (PLK_STATUS n.val) 31 16 0) (PLK_STATUS n.val) 9 8 0
          let act := due + 2 * plkBit s n.val
          let t0 := act - plkHalf s n.val (plkStart s n.val 0 f + plkAct s n.val 0 f)
          let s3 := plkMod s2 n.val fun p => { p with
            t0 := t0, inNit := false, nextMode := 0, kappa := 0, timer := none, devs := [], whole := false, syncSeen := false
            badMode := false, votes := [], sawMember := false, sawOwn := false, missing := 0, rejoin := 0, noSync := 0
            startVec := getR64 s2 (PLK_MEMBERS_LO n.val), taken := [], chosen := [], fired := [], gOk := true, gT0 := t0
            newMode := none }
          match plkChoose (plkChBoth s3 n.val 3 (decide (getF s (PLK_GUARD n.val 0 f) 15 0 ≠ 0))) n.val 0 f 0 with
          | (s4, some t) => plkTransmit s4 n.val act t
          | (s4, none) => s4)) ∧
  (∀ (n : Fin 16) (d due : Nat) (s : State),
     (plk s n.val).timer = some (d, some due) → plkC s n.val = 2 → plkP s n.val = 1 →
       exec (.listenTimeout n true) s = .next (plkMod (advanceHalf s due) n.val fun p => { p with timer := some (d, none) })) ∧
  (∀ (n : Fin 16) (b : Bool) (x : PlTx) (s : State),
     (plk s n.val).onLine = some x → plkChanOn s n.val b = true → Nat.land x.bad (if b then 2 else 1) = 0 →
     plkP s n.val ≠ 3 →
       exec (.echoMismatch n b) s = .next
         (let s1 := emit (raiseIrq (bump s (plkChCnt n.val b 5)) (PLK n.val) 8) (.plJam n.val (nb b))
          let t2 := { x with bad := Nat.lor x.bad (if b then 2 else 1) }
          let s2 := plkTxen s1 n.val b false
          if plkGood s n.val t2 then plkMod s2 n.val fun p => { p with onLine := some t2 }
          else plkReturn (plkRelease s2 n.val) n.val t2)) ∧
  (∀ (n : Fin 16) (b : Bool) (x : PlTx) (s : State),
     (plk s n.val).onLine = some x → plkChanOn s n.val b = true → Nat.land x.bad (if b then 2 else 1) = 0 →
     plkP s n.val = 3 →
       exec (.echoMismatch n b) s = .next
         (let s1 := [false, true].foldl (fun u c =>
            if plkChanOn u n.val c && !(x.bad.testBit (nb c)) then emit u (.plJam n.val (nb c)) else u) s
          let s2 := plkRelease (plkReturnAll (plkNote s1 n.val 0 7) n.val) n.val
          plkListen (plkChBoth s2 n.val 3 false) n.val (plkBackoff s n.val) 31)) ∧
  (∀ (n : Fin 16) (k : Fin 64) (s : State),
     plkC s n.val = 2 → plkP s n.val = 3 ∨ plkP s n.val = 4 → (plk s n.val).gOk = true → getF s (PLK_GUARD
     n.val (plkMode s n.val) k.val) 15 0 ≠ 0 →
       exec (.guardianWindowOpen n k) s = .next
         (plkChBoth (plkGuardAt s n.val (getF s (PLK_GUARD n.val (plkMode s n.val) k.val) 31 16)) n.val 3 true)) ∧
  (∀ (n : Fin 16) (k : Fin 64) (s : State),
     (plk s n.val).gOk = false →
       exec (.guardianWindowOpen n k) s = .next s) ∧
  (∀ (n : Fin 16) (k : Fin 64) (s : State),
     plkC s n.val = 2 → getB s (plkCh n.val false) 3 = true ∨ getB s (plkCh n.val true) 3 = true → getF s
     (PLK_GUARD n.val (plkMode s n.val) k.val) 15 0 ≠ 0 → (plk s n.val).onLine = none →
       exec (.guardianWindowClose n k) s = .next
         (plkChBoth (plkGuardAt s n.val (getF s (PLK_GUARD n.val (plkMode s n.val) k.val) 15 0)) n.val 3 false)) ∧
  (∀ (n : Fin 16) (k : Fin 64) (x : PlTx) (s : State),
     plkC s n.val = 2 → getB s (plkCh n.val false) 3 = true ∨ getB s (plkCh n.val true) 3 = true → getF s
     (PLK_GUARD n.val (plkMode s n.val) k.val) 15 0 ≠ 0 → (plk s n.val).onLine = some x →
       exec (.guardianWindowClose n k) s = .next
         (let s1 := plkChBoth (plkGuardAt s n.val (getF s (PLK_GUARD n.val (plkMode s n.val) k.val) 15 0)) n.val 3 false
          let a := plkCut s1 n.val false x
          let c := plkCut a.1 n.val true a.2
          plkReturn (plkRelease c.1 n.val) n.val c.2)) ∧
  (∀ (n : Fin 16) (i : Fin 8) (s : State),
     plkC s n.val = 2 → 2 ≤ plkP s n.val → bit (getR s (PLK_CMP n.val i.val)) 31 = true → bit (getR s (PLK_CMP
     n.val i.val)) 25 = true ∨ fld (getR s (PLK_CMP n.val i.val)) 23 22 = plkMode s n.val → fld (getR s
     (PLK_CMP n.val i.val)) 21 16 < plkN s n.val (plkMode s n.val) → plkStart s n.val (plkMode s n.val) (fld
     (getR s (PLK_CMP n.val i.val)) 21 16) + fld (getR s (PLK_CMP n.val i.val)) 15 0 < plkLen s n.val → (plk s
     n.val).fired.contains i.val = false →
       exec (.comparatorFire n i) s = .next
         (let w := getR s (PLK_CMP n.val i.val)
          let s1 := plkMod (plkAt s n.val (plkStart s n.val (plkMode s n.val) (fld w 21 16) + fld w 15 0)) n.val fun p =>
            { p with fired := i.val :: p.fired }
          let s2 := setR s1 (PLK_CMP_TIME n.val i.val) (lo32 (tense s1))
          let s3 := if bit w 30 then raiseIrq s2 (PLK n.val) (16 + i.val) else s2
          if bit w 29 then serveEvent s3 (320 + n.val) (24 + fld w 28 26) else s3))

/-- A start in CONFIG with legal timing begins integration with the error counters cleared, and one with illegal
timing or in another state is refused; a stop returns to CONFIG; a recover in BUS_OFF begins recovery; an abort ends
the ring buffers it names; integration and recovery end in RUN, recovery with cleared counters; a mode change takes
effect while the bus is idle; a wake pattern in DOZE wakes; the last error clears as it is read. -/
def Obligations.MultidropCommands : Prop :=
  (∀ (m : Master) (n : Pe) (s : State),
     MayWrite s m (MDB_CMD n.val) → mdbC s n.val = 0 → getB s (BLK_CTRL (MDB n.val)) 0 = true → mdbTimingOk s
     n.val = true →
       exec (.mdbStart m n) s = .next
         (let s1 := mdbMod (mdbPins (mdbSetC s n.val 1) n.val true) n.val fun p => { p with
            tec := 0, rec_ := 0, mode := getF s (MDB_CFG n.val) 1 0, modePend := none, integ := false }
          answer (mdbCmdEnd (mdbErrShow s1 n.val) n.val 0) 0)) ∧
  (∀ (m : Master) (n : Pe) (s : State),
     MayWrite s m (MDB_CMD n.val) → mdbC s n.val = 0 → getB s (BLK_CTRL (MDB n.val)) 0 = true → mdbTimingOk s
     n.val = false →
       exec (.mdbStart m n) s = .next (answer (mdbCmdEnd s n.val 2) 0)) ∧
  (∀ (m : Master) (n : Pe) (s : State),
     MayWrite s m (MDB_CMD n.val) → mdbC s n.val ≠ 0 ∨ getB s (BLK_CTRL (MDB n.val)) 0 = false →
       exec (.mdbStart m n) s = .next (answer (mdbCmdEnd s n.val 3) 0)) ∧
  (∀ (m : Master) (n : Pe) (s : State),
     MayWrite s m (MDB_CMD n.val) → mdbC s n.val ≠ 0 →
       exec (.mdbStop m n) s = .next
         (let s1 := mdbMod (mdbPins (mdbSetC (mdbCut s n.val) n.val 0) n.val true) n.val fun p =>
            { p with modePend := none, integ := false }
          answer (mdbCmdEnd (mdbErrShow s1 n.val) n.val 0) 0)) ∧
  (∀ (n : Pe) (c : Nat) (level : Bool) (s : State),
     c < 8 →
       (mdb (mdbPins (mdbSetC s n.val c) n.val level) n.val).txd = ⟨decide (c ≠ 0), decide (c = 0) || level⟩ ∧
         (mdb (mdbPins (mdbSetC s n.val c) n.val level) n.val).rxPull = decide (c = 0)) ∧
  (∀ (m : Master) (n : Pe) (s : State),
     MayWrite s m (MDB_CMD n.val) → mdbC s n.val = 0 →
       exec (.mdbStop m n) s = .next (answer (mdbCmdEnd s n.val 3) 0)) ∧
  (∀ (m : Master) (n : Pe) (s : State),
     MayWrite s m (MDB_CMD n.val) → m ≠ mDebug →
       exec (.recover m n) s = .next (answer (if mdbC s n.val = 3 then
         mdbCmdEnd (putF s (MDB_STATUS n.val) 2 0 4) n.val 0 else mdbCmdEnd s n.val 3) 0)) ∧
  (∀ (n : Pe) (s : State),
     MayWrite s mDebug (MDB_CMD n.val) →
       exec (.recover mDebug n) s = .next (answer (deny s errDeniedField mDebug (MDB_CMD n.val) true) 0)) ∧
  (∀ (m : Master) (n : Pe) (mask : BitVec 3) (s : State),
     MayWrite s m (MDB_CMD n.val) →
       exec (.abort m n mask) s = .next
         (let s1 := if mask.toNat.testBit 1 then mdbEndDue s n.val 1 else s
          let s2 := if mask.toNat.testBit 2 then mdbEndDue s1 n.val 2 else s1
          answer (mdbCmdEnd s2 n.val 0) 0)) ∧
  (∀ (n : Pe) (s : State),
     mdbC s n.val = 1 →
       exec (.integrationComplete n) s = .next (putF s (MDB_STATUS n.val) 2 0 2)) ∧
  (∀ (n : Pe) (s : State),
     mdbC s n.val ≠ 1 →
       exec (.integrationComplete n) s = .next (mdbMod s n.val fun p => { p with integ := false })) ∧
  (∀ (n : Pe) (s : State),
     mdbC s n.val = 4 →
       exec (.recoveryComplete n) s = .next
         (raiseIrq (mdbErrShow (mdbMod (putF s (MDB_STATUS n.val) 2 0 2) n.val fun p => { p with tec := 0, rec_ := 0 }) n.val) (MDB n.val) 6)) ∧
  (∀ (n : Pe) (md : Nat) (s : State),
     (mdb s n.val).modePend = some md → mdbC s n.val = 2 → mdbOnBus s n.val = none →
       exec (.mdbModeChange n) s = .next (mdbMod s n.val fun p => { p with mode := md, modePend := none })) ∧
  (∀ (n : Pe) (s : State),
     getB s (MDB_CFG n.val) 8 = true → devState s = 1 →
       exec (.mdbWake n) s = .next (wakeSource 11 (raiseIrq s (MDB n.val) 11))) ∧
  (∀ (n : Pe) (s : State), devState s ≠ 1 → exec (.mdbWake n) s = .next s) ∧
  (∀ (m : Master) (n : Pe) (s : State),
     MayRead s m (MDB_LAST_ERR n.val) →
       exec (.lastErrRead m n) s = .next (answer (setR s (MDB_LAST_ERR n.val) 0) (getR s (MDB_LAST_ERR n.val))))

/-- An empty buffer of an enabled controller takes the oldest sound record of the Gate entry or of the ring;
arbitration puts the best loaded frame on the bus; a frame sent counts, leaves its buffer and ends, and is received
where the controller loops; one that fails counts its error and stays, or takes the controller to bus-off; a ring
frame whose life passed ends; a received frame without error meets the filters, acknowledged in NORMAL and
RESTRICTED; an error counts, by eight where it was heavy, and a protocol exception begins bus integration; the
FIFO's head moves to the receive ring. -/
def Obligations.MultidropFrames : Prop :=
  (∀ (n : Pe) (g : GEnt) (s : State),
     getB s (BLK_CTRL (MDB n.val)) 0 = true → mdbLoaded s n.val 0 = false → (sget s.gate.entry (256 + n.val)
     []).find? (fun g => decide (g.loc = 0)) = some g → crc32c g.bytes = g.check →
       exec (.txBufferLoad n 0) s = .next
         (let s1 := gateEntrySet s (256 + n.val) g.tag fun e => { e with loc := 1 }
          mdbMod (mdbSetTb s1 n.val 0 (some (mdbBuf s1 n.val [] 0 0))) n.val fun p => { p with nextOrder := p.nextOrder + 1 })) ∧
  (∀ (n : Pe) (b : Fin 3) (s : State),
     getB s (BLK_CTRL (MDB n.val)) 0 = true → b.val ≠ 0 → mdbLoaded s n.val b.val = false →
       exec (.txBufferLoad n b) s = .next (mdbLoadRing s n.val b.val (getF s (MDB_TX_SIZE n.val) 12 0))) ∧
  (∀ (n : Pe) (b : Fin 3) (s : State),
     getB s (BLK_CTRL (MDB n.val)) 0 = false ∨ mdbLoaded s n.val b.val = true →
       exec (.txBufferLoad n b) s = .next s) ∧
  (∀ (n : Pe) (b : Nat) (s : State),
     mdbC s n.val = 2 → (mdb s n.val).mode = 0 ∨ (mdb s n.val).mode = 3 → (mdb s n.val).integ = false →
     mdbOnBus s n.val = none → [0, 1, 2].foldl (mdbBetter s n.val) none = some b →
       exec (.arbitrationStart n) s = .next
         (let s1 := mdbSetTb s n.val b ((mdbTb (mdb s n.val) b).map fun t => { t with onBus := true, attempts := min 65535 (t.attempts + 1) })
          let s2 := if b = 0 then gateEntryLoc s1 (256 + n.val) 1 2 else s1
          mdbMod (mdbPins (putB s2 (MDB_STATUS n.val) 8 true) n.val (decide ((mdb s n.val).mode = 3))) n.val fun p => { p with sof := tense s })) ∧
  (∀ (n : Pe) (s : State),
     mdbC s n.val ≠ 2 ∨ (mdb s n.val).mode = 1 ∨ (mdb s n.val).mode = 2 ∨ (mdb s n.val).integ = true ∨
     (mdbOnBus s n.val).isSome = true ∨ [0, 1, 2].foldl (mdbBetter s n.val) none = none →
       exec (.arbitrationStart n) s = .next s) ∧
  (∀ (n : Pe) (d : List (BitVec 7)) (b : Nat) (t : MdbBuf) (s : State),
     mdbOnBus s n.val = some b → b ≠ 0 → mdbTb (mdb s n.val) b = some t → (mdb s n.val).mode ≠ 3 →
       exec (.mdbFrameSent n d) s = .next
         (let s1 := mdbErrShow (mdbMod s n.val fun p => { p with tec := p.tec - 1 }) n.val
          let s2 := mdbLoop (mdbNote s1 n.val 0 0) n.val t.rec_ d
          let s4 := mdbPins (putB (emit s2 (.mdbFrame n.val t.rec_)) (MDB_STATUS n.val) 8 false) n.val true
          mdbStatus (mdbSetTb s4 n.val b none) n.val t.idx 0)) ∧
  (∀ (n : Pe) (d : List (BitVec 7)) (b : Nat) (t : MdbBuf) (s : State),
     mdbOnBus s n.val = some b → b ≠ 0 → mdbTb (mdb s n.val) b = some t → (mdb s n.val).mode = 3 →
       exec (.mdbFrameSent n d) s = .next
         (let s1 := mdbErrShow (mdbMod s n.val fun p => { p with tec := p.tec - 1 }) n.val
          let s2 := mdbLoop (mdbNote s1 n.val 0 0) n.val t.rec_ d
          let s3 := mdbAccept s2 n.val t.rec_ (mdbTime (2 * (mdb s n.val).sof.toNat + mdbSampleAt s n.val)) 2
          mdbStatus (mdbSetTb (mdbPins (putB s3 (MDB_STATUS n.val) 8 false) n.val true) n.val b none) n.val t.idx 0)) ∧
  (∀ (n : Pe) (d : List (BitVec 7)) (g : GEnt) (s : State),
     mdbOnBus s n.val = some 0 → mdbGate s n.val = some g → (mdb s n.val).mode ≠ 3 →
       Ends (.mdbFrameSent n d) s fun t => ∃ u, Only [.regs, .cnts, .outs, .intc, .mdb] s u ∧
         t = itemTransmitted (mdbSetTb (gateEntryDrop u (256 + n.val) g.tag) n.val 0 none) g.tag) ∧
  (∀ (n : Pe) (why : MdbErr) (inData : Bool) (d : List (BitVec 7)) (b : Nat) (s : State),
     mdbOnBus s n.val = some b → why ≠ .arbLost → why ≠ .pex → (mdb s n.val).tec + 8 ≤ 255 →
       exec (.mdbFrameFailed n why inData false d) s = .next
         (let s1 := mdbErr (mdbFlag (mdbLoop s n.val (mdbRec s n.val b) d) n.val) n.val why inData
          let s2 := mdbErrShow (mdbMod s1 n.val fun p => { p with tec := (mdb s n.val).tec + 8 }) n.val
          mdbPending (mdbOff s2 n.val b) n.val b)) ∧
  (∀ (n : Pe) (why : MdbErr) (inData : Bool) (d : List (BitVec 7)) (b : Nat) (s : State),
     mdbOnBus s n.val = some b → why ≠ .arbLost → why ≠ .pex → 255 < (mdb s n.val).tec + 8 →
       exec (.mdbFrameFailed n why inData false d) s = .next
         (let s1 := mdbErr (mdbFlag (mdbLoop s n.val (mdbRec s n.val b) d) n.val) n.val why inData
          mdbBusOff (mdbErrShow (mdbMod s1 n.val fun p => { p with tec := (mdb s n.val).tec + 8 }) n.val) n.val)) ∧
  (∀ (n : Pe) (why : MdbErr) (inData : Bool) (d : List (BitVec 7)) (b : Nat) (s : State),
     mdbOnBus s n.val = some b → why ≠ .arbLost → why ≠ .pex → (mdb s n.val).tec ≤ 255 →
       exec (.mdbFrameFailed n why inData true d) s = .next
         (let s1 := mdbErr (mdbFlag (mdbLoop s n.val (mdbRec s n.val b) d) n.val) n.val why inData
          let s2 := mdbErrShow (mdbMod s1 n.val fun p => { p with tec := (mdb s n.val).tec }) n.val
          mdbPending (mdbOff s2 n.val b) n.val b)) ∧
  (∀ (n : Pe) (inData exempt : Bool) (d : List (BitVec 7)) (b : Nat) (s : State),
     mdbOnBus s n.val = some b → (mdb s n.val).tec ≤ 255 →
       exec (.mdbFrameFailed n .arbLost inData exempt d) s = .next
         (let s1 := bump (mdbLoop s n.val (mdbRec s n.val b) d) (MDB_Counters n.val 4)
          mdbPending (mdbOff (mdbErrShow (mdbMod s1 n.val fun p => { p with tec := (mdb s n.val).tec }) n.val) n.val b) n.val b)) ∧
  (∀ (n : Pe) (inData exempt : Bool) (d : List (BitVec 7)) (b : Nat) (s : State),
     mdbOnBus s n.val = some b → (mdb s n.val).tec ≤ 255 → getB s (MDB_CFG n.val) 4 = true →
       exec (.mdbFrameFailed n .pex inData exempt d) s = .next
         (let s1 := mdbErr (mdbLoop s n.val (mdbRec s n.val b) d) n.val .pex inData
          mdbPending (mdbOff (mdbErrShow (mdbMod s1 n.val fun p => { p with tec := (mdb s n.val).tec }) n.val) n.val b) n.val b)) ∧
  (∀ (n : Pe) (b : Fin 3) (t : MdbBuf) (s : State),
     b.val ≠ 0 → mdbTb (mdb s n.val) b.val = some t → t.life ≠ 0 →
       exec (.mdbLifeExpiry n b) s = .next
         (mdbEndDue (advanceNs s (t.at_.toNat + t.life * 1000000)) n.val b.val)) ∧
  (∀ (n : Pe) (r : List Byte) (esi inData heavy : Bool) (ago : Word) (s : State),
     mdbC s n.val = 2 → (mdb s n.val).mode = 0 → (mdb s n.val).integ = false → mdbOnBus s n.val = none → mdbFdf
     r = false ∨ getB s (MDB_CFG n.val) 3 = true → mdbWellFormed true r = true → (mdb s n.val).rec_ ≤ 127 →
       exec (.mdbFrameReceive n r esi none inData heavy ago) s = .next
         (let s2 := mdbErrShow (mdbMod s n.val fun p => { p with rec_ := (mdb s n.val).rec_ - 1 }) n.val
          mdbAccept (emit s2 (.mdbAck n.val)) n.val r (mdbTime (2 * ((coreTense s).toNat - ago.toNat))) (nb esi))) ∧
  (∀ (n : Pe) (r : List Byte) (esi inData heavy : Bool) (ago : Word) (s : State),
     mdbC s n.val = 2 → (mdb s n.val).mode = 0 → (mdb s n.val).integ = false → mdbOnBus s n.val = none → mdbFdf
     r = false ∨ getB s (MDB_CFG n.val) 3 = true → mdbWellFormed true r = true → 127 < (mdb s n.val).rec_ →
       exec (.mdbFrameReceive n r esi none inData heavy ago) s = .next
         (let f := fresh s
          let s2 := mdbErrShow (mdbMod f.2 n.val fun p => { p with rec_ := 119 + f.1.toNat % 9 }) n.val
          mdbAccept (emit s2 (.mdbAck n.val)) n.val r (mdbTime (2 * ((coreTense s).toNat - ago.toNat))) (nb esi))) ∧
  (∀ (n : Pe) (r : List Byte) (esi inData heavy : Bool) (ago : Word) (s : State),
     mdbC s n.val = 2 → (mdb s n.val).mode = 1 ∨ (mdb s n.val).mode = 2 → (mdb s n.val).integ = false →
     mdbOnBus s n.val = none → mdbFdf r = false ∨ getB s (MDB_CFG n.val) 3 = true → mdbWellFormed true r = true
     →
       exec (.mdbFrameReceive n r esi none inData heavy ago) s = .next
         (let s3 := if (mdb s n.val).mode = 1 then emit s (.mdbAck n.val) else s
          mdbAccept s3 n.val r (mdbTime (2 * ((coreTense s).toNat - ago.toNat))) (nb esi))) ∧
  (∀ (n : Pe) (r : List Byte) (esi inData heavy : Bool) (e : MdbErr) (ago : Word) (s : State),
     mdbC s n.val = 2 → (mdb s n.val).mode = 0 → (mdb s n.val).integ = false → mdbOnBus s n.val = none → mdbFdf
     r = false ∨ getB s (MDB_CFG n.val) 3 = true → e ≠ .arbLost → e ≠ .pex →
       exec (.mdbFrameReceive n r esi (some e) inData heavy ago) s = .next
         (let s1 := mdbErr (emit s (.mdbErrorFlag n.val (decide (mdbFault s n.val = 0)))) n.val e inData
          mdbErrShow (mdbMod s1 n.val fun p => { p with rec_ := p.rec_ + (if heavy then 8 else 1) }) n.val)) ∧
  (∀ (n : Pe) (r : List Byte) (esi inData heavy : Bool) (e : MdbErr) (ago : Word) (s : State),
     mdbC s n.val = 2 → (mdb s n.val).mode = 1 ∨ (mdb s n.val).mode = 2 → (mdb s n.val).integ = false →
     mdbOnBus s n.val = none → mdbFdf r = false ∨ getB s (MDB_CFG n.val) 3 = true → e ≠ .arbLost → e ≠ .pex →
       exec (.mdbFrameReceive n r esi (some e) inData heavy ago) s = .next (mdbErr s n.val e inData)) ∧
  (∀ (n : Pe) (r : List Byte) (esi inData heavy : Bool) (ago : Word) (o : Option MdbErr) (s : State),
     mdbC s n.val = 2 → (mdb s n.val).mode ≠ 3 → (mdb s n.val).integ = false → mdbOnBus s n.val = none → mdbFdf
     r = true → getB s (MDB_CFG n.val) 3 = false → getB s (MDB_CFG n.val) 4 = true →
       exec (.mdbFrameReceive n r esi o inData heavy ago) s = .next (mdbErr s n.val .pex inData)) ∧
  (∀ (n : Pe) (x : MdbRx) (l : List MdbRx) (s : State),
     (mdb s n.val).fifo = x :: l → getF s (MDB_RX_SIZE n.val) 12 0 ≠ 0 → (getF s (MDB_RX_HEAD n.val) 11 0 + 1)
     % getF s (MDB_RX_SIZE n.val) 12 0 ≠ getF s (MDB_RX_TAIL n.val) 11 0 →
       exec (.rxFifoDrain n) s = .next
         (let hd := getF s (MDB_RX_HEAD n.val) 11 0
          let h := leBytes 8 x.time.toNat ++ [b8 x.filter, b8 x.flags, 0, 0]
          let slot := h ++ leBytes 4 (crc32c (h ++ x.rec_)).toNat ++ x.rec_
          let r := fabWrite s 5 ((getR s (MDB_RX_BASE n.val)).toNat + 128 * hd) slot true
          let s1 := putF r.1 (MDB_RX_HEAD n.val) 11 0 ((hd + 1) % getF s (MDB_RX_SIZE n.val) 12 0)
          mdbFifoShow (mdbMod s1 n.val fun p => { p with fifo := l }) n.val))

/-- The injected instruction, or the one at PC, issues in its turn, and the next one may issue DELAY cycles after
it. NOP only advances PC; SET writes its five bits to its destination; MOV writes the operated source; OUT gives out
bits of TS and IN takes bits into RS when no delivery or load falls in between, and OUT stalls when a load finds no
word; PUSH delivers RS or is skipped, drops it or stalls; PULL loads TS, takes the idle word or stalls; WAIT stalls
until its condition holds; AT fixes T, counts a late one and arms the next instruction; JMP changes PC when its
condition holds; an illegal word sets FAULT and clears RUN. -/
def Obligations.ParticleInstructions : Prop :=
  (∀ (n : Fin 64) (w : Nat) (inj : Bool) (s : State),
     ptcNext s n.val = some (w, inj) → ptcBad w inj = false → nbits w 15 12 = 0 →
       exec (.ptcNop n) s = .next
         (let u := ptcTurn s n.val
          let s1 := if inj then ptcMod u n.val fun q => { q with inj := none } else u
          ptcPace (ptcDone s1 n.val inj false) n.val w)) ∧
  (∀ (n : Fin 64) (w : Nat) (inj : Bool) (s : State),
     ptcNext s n.val = some (w, inj) → ptcBad w inj = false → nbits w 15 12 = 1 → nbits w 11 9 = 0 →
       exec (.ptcSet n) s = .next
         (let u := ptcTurn s n.val
          let s1 := if inj then ptcMod u n.val fun q => { q with inj := none } else u
          ptcPace (ptcDone (ptcDrive s1 n.val (getF s1 (PTC_PIN_MAP n.val) 14 8) (min 5 (getF s1 (PTC_PIN_WIDTH n.val) 10 8)) (nbits w 8 4) false) n.val inj false) n.val w)) ∧
  (∀ (n : Fin 64) (w : Nat) (inj : Bool) (s : State),
     ptcNext s n.val = some (w, inj) → ptcBad w inj = false → nbits w 15 12 = 1 → nbits w 11 9 = 1 →
       exec (.ptcSet n) s = .next
         (let u := ptcTurn s n.val
          let s1 := if inj then ptcMod u n.val fun q => { q with inj := none } else u
          ptcPace (ptcDone (ptcMod s1 n.val fun q => { q with c0 := w32 (nbits w 8 4) }) n.val inj false) n.val w)) ∧
  (∀ (n : Fin 64) (w : Nat) (inj : Bool) (s : State),
     ptcNext s n.val = some (w, inj) → ptcBad w inj = false → nbits w 15 12 = 1 → nbits w 11 9 = 2 →
       exec (.ptcSet n) s = .next
         (let u := ptcTurn s n.val
          let s1 := if inj then ptcMod u n.val fun q => { q with inj := none } else u
          ptcPace (ptcDone (ptcMod s1 n.val fun q => { q with c1 := w32 (nbits w 8 4) }) n.val inj false) n.val w)) ∧
  (∀ (n : Fin 64) (w : Nat) (inj : Bool) (s : State),
     ptcNext s n.val = some (w, inj) → ptcBad w inj = false → nbits w 15 12 = 1 → nbits w 11 9 = 4 →
       exec (.ptcSet n) s = .next
         (let u := ptcTurn s n.val
          let s1 := if inj then ptcMod u n.val fun q => { q with inj := none } else u
          ptcPace (ptcDone (ptcDrive s1 n.val (getF s1 (PTC_PIN_MAP n.val) 14 8) (min 5 (getF s1 (PTC_PIN_WIDTH n.val) 10 8)) (nbits w 8 4) true) n.val inj false) n.val w)) ∧
  (∀ (n : Fin 64) (pads : BitVec 128) (w : Nat) (inj : Bool) (s : State),
     ptcNext s n.val = some (w, inj) → ptcBad w inj = false → nbits w 15 12 = 2 →
       exec (.ptcMov n pads) s = .next
         (let u := ptcTurn s n.val
          let s1 := if inj then ptcMod u n.val fun q => { q with inj := none } else u
          let p := ptcPut s1 n.val (ptcMovDst (nbits w 11 9)) (ptcMovOp (nbits w 8 7) (ptcMovSrc s1 n.val pads.toNat (nbits w 6 4)))
          ptcPace (ptcDone p.1 n.val inj p.2) n.val w)) ∧
  (∀ (n : Fin 64) (w : Nat) (inj : Bool) (s : State),
     ptcNext s n.val = some (w, inj) → ptcBad w inj = false → nbits w 15 12 = 3 → getB s (PTC_SHIFTER n.val) 20
     = false ∨ ptcCount w ≤ ptcTsLim s n.val - (ptc s n.val).tsN →
       exec (.ptcOut n) s = .next
         (let u := ptcTurn s n.val
          let s1 := if inj then ptcMod u n.val fun q => { q with inj := none } else u
          let g := ptcGive s1 n.val (ptcCount w)
          let p := ptcPut g.1 n.val (ptcOutDst (nbits w 11 9)) g.2
          ptcPace (ptcDone p.1 n.val inj p.2) n.val w)) ∧
  (∀ (n : Fin 64) (w : Nat) (inj : Bool) (s : State),
     ptcNext s n.val = some (w, inj) → ptcBad w inj = false → nbits w 15 12 = 3 → getB s (PTC_SHIFTER n.val) 20
     = true → ptcUsed s n.val = true → ptcWords s n.val = 0 →
       exec (.ptcOut n) s = .next
         (let u := ptcTurn s n.val
          let s1 := if inj then ptcMod u n.val fun q => { q with inj := none } else u
          ptcStallAt s1 n.val { ptcFresh w inj 0 with why := 4, due := true })) ∧
  (∀ (n : Fin 64) (pads : BitVec 128) (w : Nat) (inj : Bool) (s : State),
     ptcNext s n.val = some (w, inj) → ptcBad w inj = false → nbits w 15 12 = 4 → getB s (PTC_SHIFTER n.val) 8
     = false ∨ ptcWidth s n.val ≤ (ptc s n.val).rsN ∨ (ptc s n.val).rsN + ptcCount w < ptcWidth s n.val →
       exec (.ptcIn n pads) s = .next
         (let u := ptcTurn s n.val
          let s1 := if inj then ptcMod u n.val fun q => { q with inj := none } else u
          ptcPace (ptcDone (ptcInBits s1 n.val (ptcInSrc u n.val pads.toNat (nbits w 11 9) % 2 ^ ptcCount w) (ptcCount w)) n.val inj false) n.val w)) ∧
  (∀ (n : Fin 64) (w : Nat) (inj : Bool) (s : State),
     ptcNext s n.val = some (w, inj) → ptcBad w inj = false → nbits w 15 12 = 5 → w.testBit 7 = true → (ptc s
     n.val).rsN < ptcLim (getF s (PTC_SHIFTER n.val) 17 12) →
       exec (.ptcPush n) s = .next
         (let u := ptcTurn s n.val
          let s1 := if inj then ptcMod u n.val fun q => { q with inj := none } else u
          ptcPace (ptcDone s1 n.val inj false) n.val w)) ∧
  (∀ (n : Fin 64) (w : Nat) (inj : Bool) (t : State) (s : State),
     ptcNext s n.val = some (w, inj) → ptcBad w inj = false → nbits w 15 12 = 5 → w.testBit 7 = false ∨ ptcLim
     (getF s (PTC_SHIFTER n.val) 17 12) ≤ (ptc s n.val).rsN → ptcDeliver (if inj then ptcMod (ptcTurn s n.val)
     n.val fun q => { q with inj := none } else ptcTurn s n.val) n.val (if w.testBit 10 then 16 else 8)
     (w.testBit 9) = some t →
       exec (.ptcPush n) s = .next
         (let u := ptcTurn s n.val
          let s1 := if inj then ptcMod u n.val fun q => { q with inj := none } else u
          ptcPace (ptcDone (if w.testBit 9 then bump t (PTC_Counters n.val 1) else t) n.val inj false) n.val w)) ∧
  (∀ (n : Fin 64) (w : Nat) (inj : Bool) (s : State),
     ptcNext s n.val = some (w, inj) → ptcBad w inj = false → nbits w 15 12 = 5 → w.testBit 7 = false ∨ ptcLim
     (getF s (PTC_SHIFTER n.val) 17 12) ≤ (ptc s n.val).rsN → ptcDeliver (if inj then ptcMod (ptcTurn s n.val)
     n.val fun q => { q with inj := none } else ptcTurn s n.val) n.val (if w.testBit 10 then 16 else 8)
     (w.testBit 9) = none → w.testBit 8 = true →
       exec (.ptcPush n) s = .next
         (let u := ptcTurn s n.val
          let s1 := if inj then ptcMod u n.val fun q => { q with inj := none } else u
          ptcPace (ptcDone (ptcNote (ptcMod s1 n.val fun q => { q with rs := 0, rsN := 0 }) n.val 2 2) n.val inj false) n.val w)) ∧
  (∀ (n : Fin 64) (w : Nat) (inj : Bool) (s : State),
     ptcNext s n.val = some (w, inj) → ptcBad w inj = false → nbits w 15 12 = 5 → w.testBit 7 = false ∨ ptcLim
     (getF s (PTC_SHIFTER n.val) 17 12) ≤ (ptc s n.val).rsN → ptcDeliver (if inj then ptcMod (ptcTurn s n.val)
     n.val fun q => { q with inj := none } else ptcTurn s n.val) n.val (if w.testBit 10 then 16 else 8)
     (w.testBit 9) = none → w.testBit 8 = false →
       exec (.ptcPush n) s = .next
         (let u := ptcTurn s n.val
          let s1 := if inj then ptcMod u n.val fun q => { q with inj := none } else u
          ptcStallAt s1 n.val { ptcFresh w inj 0 with why := 3 })) ∧
  (∀ (n : Fin 64) (w : Nat) (inj : Bool) (s : State),
     ptcNext s n.val = some (w, inj) → ptcBad w inj = false → nbits w 15 12 = 6 → w.testBit 11 = true → ptcUsed
     s n.val = false →
       exec (.ptcPull n) s = .next
         (let u := ptcTurn s n.val
          let s1 := if inj then ptcMod u n.val fun q => { q with inj := none } else u
          ptcPace (ptcDone s1 n.val inj false) n.val w)) ∧
  (∀ (n : Fin 64) (w : Nat) (inj : Bool) (t : State) (s : State),
     ptcNext s n.val = some (w, inj) → ptcBad w inj = false → nbits w 15 12 = 6 → w.testBit 11 = false ∨
     ptcUsed s n.val = true → ptcLoadTs (if inj then ptcMod (ptcTurn s n.val) n.val fun q => { q with inj :=
     none } else ptcTurn s n.val) n.val = some t →
       exec (.ptcPull n) s = .next
         (let u := ptcTurn s n.val
          let s1 := if inj then ptcMod u n.val fun q => { q with inj := none } else u
          ptcPace (ptcDone t n.val inj false) n.val w)) ∧
  (∀ (n : Fin 64) (w : Nat) (inj : Bool) (s : State),
     ptcNext s n.val = some (w, inj) → ptcBad w inj = false → nbits w 15 12 = 6 → w.testBit 11 = false ∨
     ptcUsed s n.val = true → ptcWords s n.val = 0 → w.testBit 10 = true →
       exec (.ptcPull n) s = .next
         (let u := ptcTurn s n.val
          let s1 := if inj then ptcMod u n.val fun q => { q with inj := none } else u
          ptcPace (ptcDone (bump (ptcTsPut s1 n.val (getR s1 (PTC_IDLE_WORD n.val))) (PTC_Counters n.val 7)) n.val inj false) n.val w)) ∧
  (∀ (n : Fin 64) (w : Nat) (inj : Bool) (s : State),
     ptcNext s n.val = some (w, inj) → ptcBad w inj = false → nbits w 15 12 = 6 → w.testBit 11 = false ∨
     ptcUsed s n.val = true → ptcWords s n.val = 0 → w.testBit 10 = false →
       exec (.ptcPull n) s = .next
         (let u := ptcTurn s n.val
          let s1 := if inj then ptcMod u n.val fun q => { q with inj := none } else u
          ptcStallAt s1 n.val { ptcFresh w inj 0 with why := 4 })) ∧
  (∀ (n : Fin 64) (pads : BitVec 128) (w : Nat) (inj : Bool) (s : State),
     ptcNext s n.val = some (w, inj) → ptcBad w inj = false → nbits w 15 12 = 7 → nbits w 10 9 = 0 → ptcPin s
     n.val pads.toNat (getF s (PTC_PIN_MAP n.val) 22 16 + nbits w 8 4) = w.testBit 11 →
       exec (.ptcWait n pads) s = .next
         (let u := ptcTurn s n.val
          let s1 := if inj then ptcMod u n.val fun q => { q with inj := none } else u
          ptcPace (ptcDone s1 n.val inj false) n.val w)) ∧
  (∀ (n : Fin 64) (pads : BitVec 128) (w : Nat) (inj : Bool) (s : State),
     ptcNext s n.val = some (w, inj) → ptcBad w inj = false → nbits w 15 12 = 7 → nbits w 10 9 = 0 → ptcPin s
     n.val pads.toNat (getF s (PTC_PIN_MAP n.val) 22 16 + nbits w 8 4) ≠ w.testBit 11 →
       exec (.ptcWait n pads) s = .next
         (let u := ptcTurn s n.val
          let s1 := if inj then ptcMod u n.val fun q => { q with inj := none } else u
          ptcStallAt s1 n.val { ptcFresh w inj 0 with why := 1 })) ∧
  (∀ (n : Fin 64) (pads : BitVec 128) (w : Nat) (inj : Bool) (s : State),
     ptcNext s n.val = some (w, inj) → ptcBad w inj = false → nbits w 15 12 = 7 → nbits w 10 9 = 1 →
       exec (.ptcWait n pads) s = .next
         (let u := ptcTurn s n.val
          let s1 := if inj then ptcMod u n.val fun q => { q with inj := none } else u
          ptcPace (if ptcWords s n.val ≠ 0 then ptcDone s1 n.val inj false else ptcStallAt s1 n.val { ptcFresh w inj 0 with why := 1 }) n.val w)) ∧
  (∀ (n : Fin 64) (pads : BitVec 128) (w : Nat) (inj : Bool) (s : State),
     ptcNext s n.val = some (w, inj) → ptcBad w inj = false → nbits w 15 12 = 7 → nbits w 10 9 = 2 →
       exec (.ptcWait n pads) s = .next
         (let u := ptcTurn s n.val
          let s1 := if inj then ptcMod u n.val fun q => { q with inj := none } else u
          ptcPace (if fiqFits s n.val 2 then ptcDone s1 n.val inj false else ptcStallAt s1 n.val { ptcFresh w inj 0 with why := 1 }) n.val w)) ∧
  (∀ (n : Fin 64) (w : Nat) (inj : Bool) (s : State),
     ptcNext s n.val = some (w, inj) → ptcBad w inj = false → nbits w 15 12 = 8 → nbits w 11 10 = 0 →
       exec (.ptcAt n) s = .next
         (let u := ptcTurn s n.val
          let s1 := if inj then ptcMod u n.val fun q => { q with inj := none } else u
          let late := decide ((ptc s n.val).t ≤ coreTense u)
          let s2 := if late then ptcNote s1 n.val 3 1 else s1
          ptcPace (ptcDone (ptcMod s2 n.val fun q => { q with t := (ptc s n.val).t, armed := some (w.testBit 9, late) }) n.val inj false) n.val w)) ∧
  (∀ (n : Fin 64) (w : Nat) (inj : Bool) (k : PtcPkt) (r : List PtcPkt) (s : State),
     ptcNext s n.val = some (w, inj) → ptcBad w inj = false → nbits w 15 12 = 8 → nbits w 11 10 = 1 → (ptc s
     n.val).pkts = k :: r →
       exec (.ptcAt n) s = .next
         (let u := ptcTurn s n.val
          let s1 := if inj then ptcMod u n.val fun q => { q with inj := none } else u
          let late := k.timed && decide (k.start ≤ coreTense u)
          let s2 := if late then ptcNote s1 n.val 3 1 else s1
          ptcPace (ptcDone (ptcMod s2 n.val fun q => { q with t := k.start, armed := some (w.testBit 9, late) }) n.val inj false) n.val w)) ∧
  (∀ (n : Fin 64) (w : Nat) (inj : Bool) (s : State),
     ptcNext s n.val = some (w, inj) → ptcBad w inj = false → nbits w 15 12 = 8 → nbits w 11 10 = 1 → (ptc s
     n.val).pkts = [] →
       exec (.ptcAt n) s = .next
         (let u := ptcTurn s n.val
          let s1 := if inj then ptcMod u n.val fun q => { q with inj := none } else u
          ptcStallAt s1 n.val { ptcFresh w inj 0 with why := 2 })) ∧
  (∀ (n : Fin 64) (w : Nat) (inj : Bool) (s : State),
     ptcNext s n.val = some (w, inj) → ptcBad w inj = false → nbits w 15 12 = 8 → nbits w 11 10 = 2 →
       exec (.ptcAt n) s = .next
         (let u := ptcTurn s n.val
          let s1 := if inj then ptcMod u n.val fun q => { q with inj := none } else u
          ptcPace (ptcDone (ptcMod s1 n.val fun q => { q with t := coreTense u + BitVec.ofNat 64 (ptc s n.val).c0.toNat, armed := some (w.testBit 9, false) }) n.val inj false) n.val w)) ∧
  (∀ (n : Fin 64) (pads : BitVec 128) (w : Nat) (inj : Bool) (s : State),
     ptcNext s n.val = some (w, inj) → ptcBad w inj = false → nbits w 15 12 = 9 → nbits w 11 9 = 0 →
       exec (.ptcJmp n pads) s = .next
         (let u := ptcTurn s n.val
          let s1 := if inj then ptcMod u n.val fun q => { q with inj := none } else u
          ptcPace (ptcDone (ptcSetPc s1 n.val (nbits w 8 4)) n.val inj true) n.val w)) ∧
  (∀ (n : Fin 64) (pads : BitVec 128) (w : Nat) (inj : Bool) (s : State),
     ptcNext s n.val = some (w, inj) → ptcBad w inj = false → nbits w 15 12 = 9 → nbits w 11 9 = 3 →
       exec (.ptcJmp n pads) s = .next
         (let u := ptcTurn s n.val
          let s1 := if inj then ptcMod u n.val fun q => { q with inj := none } else u
          ptcPace (if (ptc s n.val).c0 = (ptc s n.val).c1 then ptcDone (ptcSetPc s1 n.val (nbits w 8 4)) n.val inj true else ptcDone s1 n.val inj false) n.val w)) ∧
  (∀ (n : Fin 64) (pads : BitVec 128) (w : Nat) (inj : Bool) (s : State),
     ptcNext s n.val = some (w, inj) → ptcBad w inj = false → nbits w 15 12 = 9 → nbits w 11 9 = 4 →
       exec (.ptcJmp n pads) s = .next
         (let u := ptcTurn s n.val
          let s1 := if inj then ptcMod u n.val fun q => { q with inj := none } else u
          ptcPace (if ptcPin s n.val pads.toNat (getF s (PTC_PIN_MAP n.val) 30 24) = false then ptcDone (ptcSetPc s1 n.val (nbits w 8 4)) n.val inj true else ptcDone s1 n.val inj false) n.val w)) ∧
  (∀ (n : Fin 64) (pads : BitVec 128) (w : Nat) (inj : Bool) (s : State),
     ptcNext s n.val = some (w, inj) → ptcBad w inj = false → nbits w 15 12 = 9 → nbits w 11 9 = 5 →
       exec (.ptcJmp n pads) s = .next
         (let u := ptcTurn s n.val
          let s1 := if inj then ptcMod u n.val fun q => { q with inj := none } else u
          ptcPace (if ptcPin s n.val pads.toNat (getF s (PTC_PIN_MAP n.val) 30 24) = true then ptcDone (ptcSetPc s1 n.val (nbits w 8 4)) n.val inj true else ptcDone s1 n.val inj false) n.val w)) ∧
  (∀ (n : Fin 64) (pads : BitVec 128) (w : Nat) (inj : Bool) (s : State),
     ptcNext s n.val = some (w, inj) → ptcBad w inj = false → nbits w 15 12 = 9 → nbits w 11 9 = 6 →
       exec (.ptcJmp n pads) s = .next
         (let u := ptcTurn s n.val
          let s1 := if inj then ptcMod u n.val fun q => { q with inj := none } else u
          ptcPace (if ptcUsed s n.val = true then ptcDone (ptcSetPc s1 n.val (nbits w 8 4)) n.val inj true else ptcDone s1 n.val inj false) n.val w)) ∧
  (∀ (n : Fin 64) (pads : BitVec 128) (w : Nat) (inj : Bool) (s : State),
     ptcNext s n.val = some (w, inj) → ptcBad w inj = false → nbits w 15 12 = 9 → nbits w 11 9 = 7 →
       exec (.ptcJmp n pads) s = .next
         (let u := ptcTurn s n.val
          let s1 := if inj then ptcMod u n.val fun q => { q with inj := none } else u
          ptcPace (if ptcPkt s n.val ≠ 0 then ptcDone (ptcSetPc s1 n.val (nbits w 8 4)) n.val inj true else ptcDone s1 n.val inj false) n.val w)) ∧
  (∀ (n : Fin 64) (pads : BitVec 128) (w : Nat) (inj : Bool) (s : State),
     ptcNext s n.val = some (w, inj) → ptcBad w inj = false → nbits w 15 12 = 9 → nbits w 11 9 = 1 →
       exec (.ptcJmp n pads) s = .next
         (let u := ptcTurn s n.val
          let s1 := if inj then ptcMod u n.val fun q => { q with inj := none } else u
          let s2 := ptcMod s1 n.val fun q => { q with c0 := q.c0 - 1 }
          ptcPace (if (ptc s n.val).c0 ≠ 1 then ptcDone (ptcSetPc s2 n.val (nbits w 8 4)) n.val inj true else ptcDone s2 n.val inj false) n.val w)) ∧
  (∀ (n : Fin 64) (pads : BitVec 128) (w : Nat) (inj : Bool) (s : State),
     ptcNext s n.val = some (w, inj) → ptcBad w inj = false → nbits w 15 12 = 9 → nbits w 11 9 = 2 →
       exec (.ptcJmp n pads) s = .next
         (let u := ptcTurn s n.val
          let s1 := if inj then ptcMod u n.val fun q => { q with inj := none } else u
          let s2 := ptcMod s1 n.val fun q => { q with c1 := q.c1 - 1 }
          ptcPace (if (ptc s n.val).c1 ≠ 1 then ptcDone (ptcSetPc s2 n.val (nbits w 8 4)) n.val inj true else ptcDone s2 n.val inj false) n.val w)) ∧
  (∀ (n : Fin 64) (w : Nat) (inj : Bool) (s : State),
     ptcNext s n.val = some (w, inj) → ptcBad w inj = true →
       exec (.ptcIllegal n) s = .next
         (let u := ptcTurn s n.val
          let s1 := if inj then ptcMod u n.val fun q => { q with inj := none } else u
          raiseIrq (putB (ptcMod s1 n.val fun q => { q with fault := true, stall := none }) (PTC_CTRL n.val) 0 false) (PTC n.val) 0))

/-- A stalled instruction of a running engine executes again from where it stands; at T the armed engine runs its
next instruction and STEP adds PERIOD to T; the feeder queues a sound Gate record and refuses a damaged one with
code 0x12; while GUARDED is 1 only the SSP changes PROG, INJECT, CTRL and OWN; an injected word waits in its slot
while the slot is free; ABORT, RESTART and RUN change the engine as CTRL says; pins that another engine owns are not
given. Nothing else changes but the lines and counters named. -/
def Obligations.ParticleControl : Prop :=
  (∀ (n : Fin 64) (pads : BitVec 128) (st : PtcStall) (s : State),
     (ptc s n.val).stall = some st → ptcRuns s n.val = true →
       exec (.ptcStallEnd n pads) s = .next (ptcExec (ptcMod s n.val fun q => { q with stall := none }) n.val pads.toNat st)) ∧
  (∀ (n : Fin 64) (pads : BitVec 128) (s : State),
     (ptc s n.val).stall = none →
       exec (.ptcStallEnd n pads) s = .next s) ∧
  (∀ (n : Fin 64) (pads : BitVec 128) (step late inj : Bool) (w : Nat) (s : State),
     (ptc s n.val).armed = some (step, late) → ptcRuns s n.val = true → ptcNext (ptcFired s n.val step late)
     n.val = some (w, inj) →
       exec (.atFire n pads) s = .next (ptcIssue (ptcFired s n.val step late) n.val pads.toNat w inj)) ∧
  (∀ (n : Fin 64) (pads : BitVec 128) (s : State),
     (ptc s n.val).armed = none ∨ ptcRuns s n.val = false →
       exec (.atFire n pads) s = .next s) ∧
  (∀ (n : Fin 64) (g : GEnt) (r : List GEnt) (s : State),
     ptcEn s n.val = true → sget s.gate.entry (384 + n.val) [] = g :: r → ptcWaits s n.val g.bytes = false →
     crc32c g.bytes = g.check →
       exec (.packetLoad n) s = .next (ptcEnter (gateEntryDrop s (384 + n.val) g.tag) n.val (some g.tag) 0 g.bytes)) ∧
  (∀ (n : Fin 64) (g : GEnt) (r : List GEnt) (s : State),
     ptcEn s n.val = true → sget s.gate.entry (384 + n.val) [] = g :: r → ptcWaits s n.val g.bytes = false →
     crc32c g.bytes ≠ g.check →
       exec (.packetLoad n) s = .next (itemEndExit (ptcNote (gateEntryDrop s (384 + n.val) g.tag) n.val 4 4) g.tag 0x12)) ∧
  (∀ (n : Fin 64) (s : State), ptcEn s n.val = false → exec (.packetLoad n) s = .next s) ∧
  (∀ (n : Fin 64) (s : State),
     sget s.gate.entry (384 + n.val) [] = [] → getF s (PTC_TX_TAIL n.val) 11 0 = getF s (PTC_TX_HEAD n.val) 11
     0 →
       exec (.packetLoad n) s = .next s) ∧
  (∀ (m : Master) (n : Fin 64) (i : Fin 32) (v : Word) (s : State),
     MayWrite s m (PTC_PROG n.val i.val) → m = mSSP ∨ getB s (PTC_GUARDED n.val) 0 = false →
       exec (.progWrite m n i v) s = .next (answer (setR s (PTC n.val + (0x100 + 4 * i.val))
         (plainValue (regDesc .PTC n.val (0x100 + 4 * i.val)) 0 (getR s (PTC n.val + (0x100 + 4 * i.val))) v)) 0)) ∧
  (∀ (m : Master) (n : Fin 64) (i : Fin 32) (v : Word) (s : State),
     MayWrite s m (PTC_PROG n.val i.val) → m ≠ mSSP → getB s (PTC_GUARDED n.val) 0 = true → differ (getR s (PTC
     n.val + (0x100 + 4 * i.val))) v (regDesc .PTC n.val (0x100 + 4 * i.val)).rw = true →
       exec (.progWrite m n i v) s = .next (answer (deny s errDeniedField m (PTC n.val + (0x100 + 4 * i.val)) true) 0)) ∧
  (∀ (m : Master) (n : Fin 64) (v : Word) (s : State),
     MayWrite s m (PTC_INJECT n.val) → m = mSSP ∨ getB s (PTC_GUARDED n.val) 0 = false →
       exec (.inject m n v) s = .next (answer (if (ptc s n.val).inj.isSome then s
         else ptcMod s n.val fun q => { q with inj := some (v.toNat % 65536) }) 0)) ∧
  (∀ (m : Master) (n : Fin 64) (v : Word) (s : State),
     MayWrite s m (PTC_INJECT n.val) → m ≠ mSSP → getB s (PTC_GUARDED n.val) 0 = true →
       exec (.inject m n v) s = .next (answer (deny s errDeniedField m (PTC n.val + 0x06C) true) 0)) ∧
  (∀ (m : Master) (n : Fin 64) (v : Word) (s : State),
     MayWrite s m (PTC_CTRL n.val) → m = mSSP ∨ getB s (PTC_GUARDED n.val) 0 = false → bit v 29 = false →
       exec (.ptcAbort m n v) s = .next (answer (ptcFirst n.val (ptcAbortNow n.val (setR s (PTC_CTRL n.val)
         (plainValue (regDesc .PTC n.val 0x040) 0 (getR s (PTC_CTRL n.val)) (setBit v 30 true))))) 0)) ∧
  (∀ (m : Master) (n : Fin 64) (v : Word) (s : State),
     MayWrite s m (PTC_CTRL n.val) → m = mSSP ∨ getB s (PTC_GUARDED n.val) 0 = false → (ptc s n.val).ran = true
     → bit v 29 = false →
       Ends (.ptcAbort m n v) s fun t =>
         (ptc t n.val).stall = none ∧ (ptc t n.val).armed = none ∧ (ptc t n.val).rs = 0 ∧ (ptc t n.val).rsN = 0 ∧
         (ptc t n.val).ts = 0 ∧ (ptc t n.val).tsN = 0) ∧
  (∀ (m : Master) (n : Fin 64) (v : Word) (s : State),
     MayWrite s m (PTC_CTRL n.val) → m = mSSP ∨ getB s (PTC_GUARDED n.val) 0 = false → bit v 30 = false →
       exec (.ptcRestart m n v) s = .next (answer (ptcFirst n.val (ptcRestartNow n.val (setR s (PTC_CTRL n.val)
         (plainValue (regDesc .PTC n.val 0x040) 0 (getR s (PTC_CTRL n.val)) (setBit v 29 true))))) 0)) ∧
  (∀ (m : Master) (n : Fin 64) (v : Word) (s : State),
     MayWrite s m (PTC_CTRL n.val) → m ≠ mSSP → getB s (PTC_GUARDED n.val) 0 = true →
       (exec (.ptcRestart m n v) s = .next (answer (deny s errDeniedField m (PTC n.val + 0x040) true) 0) ∧
        exec (.ptcAbort m n v) s = .next (answer (deny s errDeniedField m (PTC n.val + 0x040) true) 0))) ∧
  (∀ (m : Master) (n : Fin 64) (v : Word) (s : State),
     MayWrite s m (PTC_CTRL n.val) → m = mSSP ∨ getB s (PTC_GUARDED n.val) 0 = false →
       exec (.ptcRun m n v) s = .next (answer (ptcFirst n.val (setR s (PTC_CTRL n.val)
         (plainValue (regDesc .PTC n.val 0x040) 0 (getR s (PTC_CTRL n.val)) (setFld v 30 29 0)))) 0)) ∧
  (∀ (m : Master) (n : Fin 64) (k : Fin 4) (v : Word) (s : State),
     MayWrite s m (PTC_OWN n.val k.val) → m = mSSP ∨ getB s (PTC_GUARDED n.val) 0 = false → getB s (PTC_CTRL
     n.val) 0 = false → (∀ j < 32, (bit v j && ptcTaken s n.val (32 * k.val + j)) = false) →
       Ends (.ownWrite m n k v) s fun t =>
         getR t (PTC_OWN n.val k.val) = v ∧ (ptc t n.val).conflict = false ∧ Only [.regs, .ptc, .resp] s t) ∧
  (∀ (m : Master) (n : Fin 64) (k : Fin 4) (v : Word) (s : State),
     MayWrite s m (PTC_OWN n.val k.val) → m = mSSP ∨ getB s (PTC_GUARDED n.val) 0 = false → getB s (PTC_CTRL
     n.val) 0 = true → getR s (PTC_OWN n.val k.val) ≠ v →
       exec (.ownWrite m n k v) s = .next (answer (recErr s (PTC n.val) errLocked m (PTC_OWN n.val k.val) true) 0))

/-- The head command of the queue executes when its engine is alive, a completion has room and the device state lets
it start, and otherwise nothing changes. RECV delivers the descriptor and the bytes of the oldest frame for the
engine to D-TCM, or ends with 3 when they are longer than LENGTH, or with 1 or 5 when the frame may not leave, which
is then dropped; SEND puts the frame into the switch; READ and WRITE move bytes and end with the status of the
fabric, and FMT 1 of WRITE stamps the check value. A read of DMA_CPL takes the oldest completion. Nothing else
changes. -/
def Obligations.EngineDma : Prop :=
  (∀ (n : Pe) (c : DmaCmd) (r : List DmaCmd) (s : State),
     (eng s n.val).dmaQ = c :: r → engAlive s n.val = true → (eng s n.val).dmaCpl.length < 8 → fld c.w0 31 28 =
     1 → dmaMayRun s 1 = true → dmaHead s n.val = none →
       exec (.dmaRecv n) s = .next (s)) ∧
  (∀ (n : Pe) (c : DmaCmd) (r : List DmaCmd) (e : SinkEnt) (f : Frame) (s : State),
     (eng s n.val).dmaQ = c :: r → engAlive s n.val = true → (eng s n.val).dmaCpl.length < 8 → fld c.w0 31 28 =
     1 → dmaMayRun s 1 = true → dmaHead s n.val = some (e, f) → fld c.w0 15 0 < (headBytes s f ++ delivered s
     (engPort n.val) f).length →
       exec (.dmaRecv n) s = .next (dmaEnd s n.val c 3)) ∧
  (∀ (n : Pe) (c : DmaCmd) (r : List DmaCmd) (e : SinkEnt) (f : Frame) (s : State),
     (eng s n.val).dmaQ = c :: r → engAlive s n.val = true → (eng s n.val).dmaCpl.length < 8 → fld c.w0 31 28 =
     1 → dmaMayRun s 1 = true → dmaHead s n.val = some (e, f) → (headBytes s f ++ delivered s (engPort n.val)
     f).length ≤ fld c.w0 15 0 → exitFault f e.rf = none → inDtcm c.w1.toNat (headBytes s f ++ delivered s
     (engPort n.val) f).length = true →
       exec (.dmaRecv n) s = .next (dmaEnd (tcmWrite (sinkDrop s e) n.val c.w1.toNat (headBytes s f ++ delivered s (engPort n.val) f)) n.val c 0)) ∧
  (∀ (n : Pe) (c : DmaCmd) (r : List DmaCmd) (e : SinkEnt) (f : Frame) (s : State),
     (eng s n.val).dmaQ = c :: r → engAlive s n.val = true → (eng s n.val).dmaCpl.length < 8 → fld c.w0 31 28 =
     1 → dmaMayRun s 1 = true → dmaHead s n.val = some (e, f) → (headBytes s f ++ delivered s (engPort n.val)
     f).length ≤ fld c.w0 15 0 → exitFault f e.rf = none → inDtcm c.w1.toNat (headBytes s f ++ delivered s
     (engPort n.val) f).length = false →
       exec (.dmaRecv n) s = .next (dmaEnd s n.val c 4)) ∧
  (∀ (n : Pe) (c : DmaCmd) (r : List DmaCmd) (e : SinkEnt) (f : Frame) (q : Nat) (s : State),
     (eng s n.val).dmaQ = c :: r → engAlive s n.val = true → (eng s n.val).dmaCpl.length < 8 → fld c.w0 31 28 =
     1 → dmaMayRun s 1 = true → dmaHead s n.val = some (e, f) → (headBytes s f ++ delivered s (engPort n.val)
     f).length ≤ fld c.w0 15 0 → exitFault f e.rf = some q →
       exec (.dmaRecv n) s = .next (
          let s1 := { s with sw := { s.sw with sink := s.sw.sink.erase e } }
          dmaEnd (exitDrop s1 (engPort n.val) f.tc e.fid f q) n.val c (if q = dropPoison then 5 else 1))) ∧
  (∀ (n : Pe) (c : DmaCmd) (r : List DmaCmd) (s : State),
     (eng s n.val).dmaQ = c :: r → engAlive s n.val = true → (eng s n.val).dmaCpl.length < 8 → fld c.w0 31 28 =
     2 → dmaMayRun s 2 = true →
       exec (.dmaSend n) s = .next (
          let a : Arrival := { plainArrival s (engPort n.val) (tcmBytes s n.val c.w1.toNat (fld c.w0 15 0)) with
            imp := bit c.w2 31, itemTag := c.w3.toNat, remadeBy := n.val
            direct := if bit c.w2 30 then some (fld c.w2 29 22, fld c.w2 21 19) else none }
          dmaEnd (swIngress s a).1 n.val c 0)) ∧
  (∀ (n : Pe) (c : DmaCmd) (r : List DmaCmd) (s : State),
     (eng s n.val).dmaQ = c :: r → engAlive s n.val = true → (eng s n.val).dmaCpl.length < 8 → fld c.w0 31 28 =
     3 → dmaMayRun s 3 = true → fld c.w0 27 24 = 0 → (fabRead s (engMaster n.val) c.w2.toNat (fld c.w0 15 0)
     (dmaReach s n.val c.w2.toNat (fld c.w0 15 0) false)).2.1 = .ok →
       exec (.dmaRead n) s = .next (dmaEnd (tcmWrite (fabRead s (engMaster n.val) c.w2.toNat (fld c.w0 15 0) (dmaReach s n.val c.w2.toNat (fld c.w0 15 0) false)).1 n.val c.w1.toNat (fabRead s (engMaster n.val) c.w2.toNat (fld c.w0 15 0) (dmaReach s n.val c.w2.toNat (fld c.w0 15 0) false)).2.2) n.val c 0)) ∧
  (∀ (n : Pe) (c : DmaCmd) (r : List DmaCmd) (q : FabStat) (s : State),
     (eng s n.val).dmaQ = c :: r → engAlive s n.val = true → (eng s n.val).dmaCpl.length < 8 → fld c.w0 31 28 =
     3 → dmaMayRun s 3 = true → fld c.w0 27 24 = 0 → (fabRead s (engMaster n.val) c.w2.toNat (fld c.w0 15 0)
     (dmaReach s n.val c.w2.toNat (fld c.w0 15 0) false)).2.1 = q → q ≠ .ok →
       exec (.dmaRead n) s = .next (dmaEnd (fabRead s (engMaster n.val) c.w2.toNat (fld c.w0 15 0) (dmaReach s n.val c.w2.toNat (fld c.w0 15 0) false)).1 n.val c (dmaStat q))) ∧
  (∀ (n : Pe) (c : DmaCmd) (r : List DmaCmd) (s : State),
     (eng s n.val).dmaQ = c :: r → engAlive s n.val = true → (eng s n.val).dmaCpl.length < 8 → fld c.w0 31 28 =
     3 → dmaMayRun s 3 = true → fld c.w0 27 24 ≠ 0 → ringChan s n.val c.w2.toNat = none →
       exec (.dmaRead n) s = .next (dmaEnd s n.val c 2)) ∧
  (∀ (n : Pe) (c : DmaCmd) (r : List DmaCmd) (ch : Nat) (x y : State) (q : FabStat) (u v : List Byte) (s :
     State),
     (eng s n.val).dmaQ = c :: r → engAlive s n.val = true → (eng s n.val).dmaCpl.length < 8 → fld c.w0 31 28 =
     3 → dmaMayRun s 3 = true → fld c.w0 27 24 ≠ 0 → ringChan s n.val c.w2.toNat = some ch → fabRead s
     (engMaster n.val) c.w2.toNat 24 true = (x, q, u) → fabRead x (engMaster n.val) c.w2.toNat (recordLen ch u)
     (dmaReach s n.val c.w2.toNat (recordLen ch u) false) = (y, .ok, v) → (crc32c (v.take 12 ++ v.drop
     16)).toNat = leAt v 12 4 → inDtcm c.w1.toNat (recordLen ch u) = true →
       exec (.dmaRead n) s = .next (dmaEnd (tcmWrite y n.val c.w1.toNat v) n.val c 0)) ∧
  (∀ (n : Pe) (c : DmaCmd) (r : List DmaCmd) (ch : Nat) (x y : State) (q : FabStat) (u v : List Byte) (s :
     State),
     (eng s n.val).dmaQ = c :: r → engAlive s n.val = true → (eng s n.val).dmaCpl.length < 8 → fld c.w0 31 28 =
     3 → dmaMayRun s 3 = true → fld c.w0 27 24 ≠ 0 → ringChan s n.val c.w2.toNat = some ch → fabRead s
     (engMaster n.val) c.w2.toNat 24 true = (x, q, u) → fabRead x (engMaster n.val) c.w2.toNat (recordLen ch u)
     (dmaReach s n.val c.w2.toNat (recordLen ch u) false) = (y, .ok, v) → (crc32c (v.take 12 ++ v.drop
     16)).toNat ≠ leAt v 12 4 →
       exec (.dmaRead n) s = .next (dmaEnd (if chanKind ch = 1 then mdbNote y (ch - 256) 12 8 else plkNote y (ch - 320) 8 11) n.val c 1)) ∧
  (∀ (n : Pe) (c : DmaCmd) (r : List DmaCmd) (s : State),
     (eng s n.val).dmaQ = c :: r → engAlive s n.val = true → (eng s n.val).dmaCpl.length < 8 → fld c.w0 31 28 =
     4 → dmaMayRun s 4 = true → fld c.w0 27 24 = 0 →
       exec (.dmaWrite n) s = .next (
          let r := fabWrite s (engMaster n.val) c.w2.toNat (tcmBytes s n.val c.w1.toNat (fld c.w0 15 0)) (dmaReach s n.val c.w2.toNat (fld c.w0 15 0) true)
          ckptStep (dmaEnd r.1 n.val c (dmaStat r.2)) n.val)) ∧
  (∀ (n : Pe) (c : DmaCmd) (r : List DmaCmd) (s : State),
     (eng s n.val).dmaQ = c :: r → engAlive s n.val = true → (eng s n.val).dmaCpl.length < 8 → fld c.w0 31 28 =
     4 → dmaMayRun s 4 = true → fld c.w0 27 24 ≠ 0 →
       exec (.dmaWrite n) s = .next (
          let r := fabWrite s (engMaster n.val) c.w2.toNat (let b := tcmBytes s n.val c.w1.toNat (fld c.w0 15 0)
            overlay b 8 (leBytes 4 (crc32c (b.take 8 ++ b.drop 16)).toNat ++ [0, 0, 0, 0])) (dmaReach s n.val c.w2.toNat (fld c.w0 15 0) true)
          ckptStep (dmaEnd r.1 n.val c (dmaStat r.2)) n.val)) ∧
  (∀ (n : Pe) (s : State),
     (∀ c ∈ (eng s n.val).dmaQ.head?, engAlive s n.val = false ∨ 8 ≤ (eng s n.val).dmaCpl.length ∨ fld c.w0 31
     28 ≠ 1 ∨ dmaMayRun s 1 = false) →
       exec (.dmaRecv n) s = .next s) ∧
  (∀ (n : Pe) (s : State),
     (∀ c ∈ (eng s n.val).dmaQ.head?, engAlive s n.val = false ∨ 8 ≤ (eng s n.val).dmaCpl.length ∨ fld c.w0 31
     28 ≠ 2 ∨ dmaMayRun s 2 = false) →
       exec (.dmaSend n) s = .next s) ∧
  (∀ (n : Pe) (s : State),
     (∀ c ∈ (eng s n.val).dmaQ.head?, engAlive s n.val = false ∨ 8 ≤ (eng s n.val).dmaCpl.length ∨ fld c.w0 31
     28 ≠ 3 ∨ dmaMayRun s 3 = false) →
       exec (.dmaRead n) s = .next s) ∧
  (∀ (n : Pe) (s : State),
     (∀ c ∈ (eng s n.val).dmaQ.head?, engAlive s n.val = false ∨ 8 ≤ (eng s n.val).dmaCpl.length ∨ fld c.w0 31
     28 ≠ 4 ∨ dmaMayRun s 4 = false) →
       exec (.dmaWrite n) s = .next s) ∧
  (∀ (n : Pe) (s : State), (eng s n.val).dmaCpl = [] → exec (.dmaCplRead n) s = .next (answer s 0)) ∧
  (∀ (n : Pe) (g k : Nat) (r : List (Nat × Nat)) (s : State),
     (eng s n.val).dmaCpl = (g, k) :: r →
       exec (.dmaCplRead n) s = .next
         (answer (dmaSettle (engMod s n.val fun e => { e with dmaCpl := r }) n.val 9) (w32 (0x80000000 + g * 65536 + k))))

/-- QH_TX_HEAD and QH_RX_TAIL write through to the ring of the channel the slot holds, and nowhere for an EMPTY
slot; JOB_NEXT takes the oldest class-0 job, else the oldest job while ADMIT is set; JOB_END ends a taken job; a
completion record that waits is written when the ring has room; a CRC data write absorbs 1, 2 or 4 bytes; TNOW_LO
latches TNOW_HI; a timer is armed by its HI half and fires its line; the watchdog restarts on 0x5A5A and its expiry
declares the engine dead. Nothing else changes. -/
def Obligations.EngineLocalRegisters : Prop :=
  (∀ (n : Pe) (k : Fin 8) (v : Word) (r : ChanRing) (s : State),
     (qhSlot s n.val k.val).st ≠ 0 → txRing (qhSlot s n.val k.val).chan = some r →
       exec (.qhTxHeadWrite n k v) s = .next (putF s r.head 11 0 (fld v 11 0))) ∧
  (∀ (n : Pe) (k : Fin 8) (v : Word) (s : State),
     (qhSlot s n.val k.val).st = 0 ∨ txRing (qhSlot s n.val k.val).chan = none →
       exec (.qhTxHeadWrite n k v) s = .next s) ∧
  (∀ (n : Pe) (k : Fin 8) (v : Word) (r : ChanRing) (s : State),
     (qhSlot s n.val k.val).st ≠ 0 → rxRing (qhSlot s n.val k.val).chan = some r →
       exec (.qhRxTailWrite n k v) s = .next (putF s r.tail 11 0 (fld v 11 0))) ∧
  (∀ (n : Pe) (k : Fin 8) (v : Word) (s : State),
     (qhSlot s n.val k.val).st = 0 ∨ rxRing (qhSlot s n.val k.val).chan = none →
       exec (.qhRxTailWrite n k v) s = .next s) ∧
  (∀ (n : Pe) (j : Job) (s : State),
     (eng s n.val).jobs.find? (fun j => !j.cls2) = some j →
       exec (.jobNextRead n) s = .next
         (answer (engMod s n.val fun e => { e with jobs := e.jobs.erase j, taken := e.taken ++ [j] }) (w32 j.addr))) ∧
  (∀ (n : Pe) (j : Job) (r : List Job) (s : State),
     (eng s n.val).jobs.find? (fun j => !j.cls2) = none → (eng s n.val).jobs = j :: r → admits s n.val = true →
       exec (.jobNextRead n) s = .next
         (answer (engMod s n.val fun e => { e with jobs := e.jobs.erase j, taken := e.taken ++ [j] }) (w32 j.addr))) ∧
  (∀ (n : Pe) (s : State),
     (eng s n.val).jobs.find? (fun j => !j.cls2) = none → (eng s n.val).jobs = [] ∨ admits s n.val = false →
       exec (.jobNextRead n) s = .next (answer s 0)) ∧
  (∀ (n : Pe) (v : Word) (j : Job) (s : State),
     (eng s n.val).taken.find? (fun j => decide (j.tag = v.toNat)) = some j → getF s (engKey n.val 0xF1408) 7 0
     = 0 ∨ 0x80 ≤ getF s (engKey n.val 0xF1408) 7 0 →
       exec (.jobEnd n v) s = .next
         (let code := getF s (engKey n.val 0xF1408) 7 0
          jobRecord (engMod s n.val fun e => { e with taken := e.taken.erase j }) n.val j.tag (if code = 0 then 0 else 1) code)) ∧
  (∀ (n : Pe) (v : Word) (s : State),
     (eng s n.val).taken.find? (fun j => decide (j.tag = v.toNat)) = none →
       exec (.jobEnd n v) s = .next s) ∧
  (∀ (l : List Byte) (r : List (List Byte)) (t s : State),
     s.plc.jcr = l :: r → jcrPut s l = some t →
       exec .jobCompletionRecord s = .next { t with plc := { t.plc with jcr := r } }) ∧
  (∀ (s : State), (∀ l ∈ s.plc.jcr.head?, jcrPut s l = none) → exec .jobCompletionRecord s = .next s) ∧
  (∀ (n : Pe) (sz : AccSize) (v : Word) (s : State),
       exec (.crcData n sz v) s = .next
         (let w := crcWidth s n.val
          let l := leBytes (match sz with | .b1 => 1 | .b2 => 2 | _ => 4) v.toNat
          let b := if getB s (engKey n.val 0xF2000) 0 then l.map fun x => b8 (revBits 8 x.toNat) else l
          setR s (engKey n.val 0xF2008) (w32 (crcMsb w ((getR s (engKey n.val 0xF2004)).toNat % 2 ^ w)
            ((getR s (engKey n.val 0xF2008)).toNat % 2 ^ w) b)))) ∧
  (∀ (m : Master) (s : State),
     8 ≤ m.toNat → m.toNat < 56 →
       exec (.tnowLoRead m) s = .next
         (answer (setR s (engKey (m.toNat - 8) 0xF3010) (hi32 (coreTense s))) (lo32 (coreTense s)))) ∧
  (∀ (m : Master) (s : State),
     MayRead s m TNS_TNOW_LO → ¬(8 ≤ m.toNat ∧ m.toNat < 56) →
       exec (.tnowLoRead m) s = .next (answer (setR s (perM m TNS_TNOW_HI) (hi32 (coreTense s))) (lo32 (coreTense s)))) ∧
  (∀ (n : Pe) (t : Fin 2) (v : Word) (s : State),
       exec (.timerArm n t v) s = .next
         (let off := if t.val = 0 then 0xF3014 else 0xF301C
          let s1 := setR s (engKey n.val (off + 4)) v
          let d := dword v (getR s1 (engKey n.val off))
          engMod s1 n.val fun e => if t.val = 0 then { e with tmr0 := some d } else { e with tmr1 := some d })) ∧
  (∀ (n : Pe) (t : Fin 2) (d : DWord) (s : State),
     (if t.val = 0 then (eng s n.val).tmr0 else (eng s n.val).tmr1) = some d →
       exec (.engineTimerFire n t) s = .next
         (raiseEvent (engMod (advanceCore s 4 d.toNat) n.val fun e =>
           if t.val = 0 then { e with tmr0 := none } else { e with tmr1 := none }) n.val (14 + t.val))) ∧
  (∀ (n : Pe) (t : Fin 2) (s : State),
     (if t.val = 0 then (eng s n.val).tmr0 else (eng s n.val).tmr1) = none →
       exec (.engineTimerFire n t) s = .next s) ∧
  (∀ (n : Pe) (v : Word) (s : State),
       exec (.engineWdtKick n v) s = .next (if v = 0x5A5A#32 then engMod s n.val fun e => { e with wdtAt := s.time.tense } else s)) ∧
  (∀ (n : Pe) (p : Nat) (s : State),
     physOf s n.val = some p → getB s (PEN_WDT_CTRL p) 31 = true → engAlive s n.val = true →
       exec (.engineWatchdogExpiry n) s = .next
         (declareDead (raiseIrq (putB (advanceNs s (wdtDue s n.val p)) (PEN_WDT_STATUS p) 31 true) (PEN p) 0) n.val 1)) ∧
  (∀ (n : Pe) (p : Nat) (s : State),
     physOf s n.val = some p → getB s (PEN_WDT_CTRL p) 31 = false ∨ engAlive s n.val = false →
       exec (.engineWatchdogExpiry n) s = .next s)

/-- A commit is accepted at once when no WRITE is queued, and otherwise when the WRITEs queued before it have
completed; MIG_READY hands the channel to the target; MIG_DONE makes the slot SERVING, ends the migration and counts
it; the switch gives the source LEAVING and the target ARRIVING; a migration that has not switched is abandoned; a
dead engine is fenced once; a takeover loads the personality and starts it at RESTORE with the checkpoint's length
in g1. -/
def Obligations.MigrationAndTakeover : Prop :=
  (∀ (n : Pe) (v : Word) (s : State),
     engAlive s n.val = true → (eng s n.val).dmaQ.filter (fun c => decide (fld c.w0 31 28 = 4)) = [] →
       exec (.ckptCommit n v) s = .next (ckptAccept s n.val v)) ∧
  (∀ (n : Pe) (v : Word) (s : State),
     engAlive s n.val = true → (eng s n.val).dmaQ.filter (fun c => decide (fld c.w0 31 28 = 4)) ≠ [] →
       exec (.ckptCommit n v) s = .next (engMod s n.val fun e =>
         { e with ckptWait := some (v, ((eng s n.val).dmaQ.filter fun c => decide (fld c.w0 31 28 = 4)).length) })) ∧
  (∀ (n : Pe) (v : Word) (p : Nat) (s : State),
     engAlive s n.val = true → (eng s n.val).dmaQ.filter (fun c => decide (fld c.w0 31 28 = 4)) = [] → physOf s
     n.val = some p → fld v 14 0 ≤ 16384 →
       exec (.ckptCommit n v) s = .next (setR s (PEN_CKPT p)
         (w32 (0x80000000 + nb (bit v 31) * 0x40000000 + fld v 14 0 * 0x8000 + (getF s (PEN_CKPT p) 14 0 + 1) % 0x8000)))) ∧
  (∀ (n : Pe) (k : Fin 8) (len : BitVec 16) (g : Mig) (s : State),
     (qhSlot s n.val k.val).st = 2 → migOf s (qhSlot s n.val k.val).chan = some g → g.src = n.val → g.switched
     = true →
       exec (.migReady n k len) s = .next
         (setR (handOver s g) (engKey n.val (0xF102C + 64 * k.val)) (w32 (len.toNat * 65536 + 1)))) ∧
  (∀ (n : Pe) (k : Fin 8) (len : BitVec 16) (s : State),
     (qhSlot s n.val k.val).st ≠ 2 →
       exec (.migReady n k len) s = .next (setR s (engKey n.val (0xF102C + 64 * k.val)) (w32 (len.toNat * 65536 + 1)))) ∧
  (∀ (n : Pe) (k : Fin 8) (g : Mig) (s : State),
     (qhSlot s n.val k.val).st = 3 → (qhSlot s n.val k.val).ready = true → migOf s (qhSlot s n.val k.val).chan
     = some g →
       exec (.migDone n k) s = .next
         (let s1 := qhSet s n.val k.val { st := 1, ready := false, chan := (qhSlot s n.val k.val).chan, mig := 0 }
          let s3 := bump { s1 with plc := { s1.plc with migs := s1.plc.migs.erase g } } PLC_MIG_COUNT
          let s4 := if 50000 < (s.time.tense - g.at_).toNat then bump s3 PLC_MIG_LATE else s3
          raiseIrq (raiseEvent s4 n.val k.val) PLC 1)) ∧
  (∀ (n : Pe) (k : Fin 8) (s : State),
     (qhSlot s n.val k.val).st ≠ 3 ∨ (qhSlot s n.val k.val).ready = false →
       exec (.migDone n k) s = .next s) ∧
  (∀ (c : BitVec 9) (g : Mig) (j : Nat) (s : State),
     migOf s c.toNat = some g → g.switched = false → chanQuiet s c.toNat = true → supplyHold s = false → ¬
     migWaitEnd s g < tenseNs s → (List.range 8).find? (fun j => decide ((qhSlot s g.dst j).st = 0)) = some j →
       exec (.migrationSwitch c) s = .next
         (let k := freeMigSlot s
          let g2 := { g with dstSlot := j, mslot := k, switched := true, at_ := s.time.tense }
          let s1 := { s with plc := { s.plc with
            migs := s.plc.migs.map fun x => if x = g then g2 else x, serve := sset s.plc.serve c.toNat g.dst } }
          let s2 := qhSet s1 g.src g.srcSlot { st := 2, ready := false, chan := c.toNat, mig := k }
          let s3 := qhSet s2 g.dst j { st := 3, ready := false, chan := c.toNat, mig := k }
          slotChanged (slotChanged s3 g.src g.srcSlot) g.dst j)) ∧
  (∀ (c : BitVec 9) (g : Mig) (s : State),
     migOf s c.toNat = some g → g.switched = true ∨ chanQuiet s c.toNat = false ∨ supplyHold s = true ∨
     migWaitEnd s g < tenseNs s →
       exec (.migrationSwitch c) s = .next s) ∧
  (∀ (c : BitVec 9) (g : Mig) (s : State),
     migOf s c.toNat = some g → g.switched = false →
       exec (.migrationAbandon c) s = .next
         (let s1 := if supplyHold s then s else advanceNs s (migWaitEnd s g)
          raiseIrq (bump { s1 with plc := { s1.plc with migs := s1.plc.migs.erase g } } PLC_MIG_ABANDONED) PLC 2)) ∧
  (∀ (c : BitVec 9) (g : Mig) (s : State),
     migOf s c.toNat = some g → g.switched = true →
       exec (.migrationAbandon c) s = .next s) ∧
  (∀ (c : BitVec 9) (s : State),
     migOf s c.toNat = none →
       (exec (.migrationSwitch c) s = .next s ∧ exec (.migrationAbandon c) s = .next s)) ∧
  (∀ (n : Pe) (p q : Nat) (s : State),
     physOf s n.val = some p → (eng s n.val).st = 2 → (eng s n.val).fenced = false → freeSpareEngine (fenced s
     n.val p) = some q →
       exec (.engineDeclaredDead n false) s = .next
         (healthEngine (setR (setR (fenced s n.val p) (PEN_MAP q) (setFld (setFld (setBit (getR (fenced s n.val p) (PEN_MAP q)) 31 true) 21 16 n.val)
           11 8 (n.val / 3))) (PEN_CKPT q) (getR s (PEN_CKPT p))) p q)) ∧
  (∀ (n : Pe) (p : Nat) (s : State),
     physOf s n.val = some p → (eng s n.val).st = 2 → (eng s n.val).fenced = false → freeSpareEngine (fenced s
     n.val p) = none →
       exec (.engineDeclaredDead n false) s = .next (engLost (fenced s n.val p) n.val)) ∧
  (∀ (n : Pe) (s : State),
     (eng s n.val).st ≠ 2 ∨ (eng s n.val).fenced = true →
       exec (.engineDeclaredDead n false) s = .next s) ∧
  (∀ (n : Pe) (s : State), exec (.engineDeclaredDead n true) s = .next (engFence (declareDead s n.val 2) n.val)) ∧
  (∀ (n : Pe) (p : Nat) (x : Pers) (s : State),
     physOf s n.val = some p → ((eng s n.val).pers.bind fun k => sfind s.plc.pers k) = some x → (eng s
     n.val).st = 2 → (eng s n.val).fenced = true → supplyHold s = false →
       exec (.takeoverComplete n) s = .next
         (let ck := getR s (PEN_CKPT p)
          let s1 := engMod (loadTcm s n.val x) n.val fun e =>
            { EngSt.init with st := 1, pers := e.pers, slots := e.slots, jobs := e.jobs }
          let s2 := releaseEngine s1 n.val x.restore (if bit ck 31 then fld ck 29 15 else 0)
          raiseIrq (raiseIrq (raiseIrq (putB s2 SYS_HEALTH 2 true) (PEN p) 4) PLC 4) SYS 5)) ∧
  (∀ (n : Pe) (p : Nat) (s : State),
     physOf s n.val = some p → ((eng s n.val).pers.bind fun k => sfind s.plc.pers k) = none → (eng s n.val).st
     = 2 → (eng s n.val).fenced = true → supplyHold s = false →
       exec (.takeoverComplete n) s = .next
         (let s1 := engMod s n.val fun e => { EngSt.init with slots := e.slots, jobs := e.jobs }
          raiseIrq (raiseIrq (raiseIrq (putB s1 SYS_HEALTH 2 true) (PEN p) 4) PLC 4) SYS 5)) ∧
  (∀ (n : Pe) (s : State),
     physOf s n.val = none ∨ (eng s n.val).st ≠ 2 ∨ (eng s n.val).fenced = false ∨ supplyHold s = true →
       exec (.takeoverComplete n) s = .next s)

/-- LOAD_PERS ends with the first check of R360 that fails, in their order, and stores an image that passes all;
UNLOAD_PERS refuses a slot that a binding names; REBALANCE and a decision place channels unless placement is frozen;
DECLARE_DEAD is the SSP's and MGP's; POST_JOB gives the job the next tag and queues it behind the engine's others; a
binding write to an unassigned channel is counted and refused, and otherwise waits for the next decision. Nothing
else changes. -/
def Obligations.PlacementCommands : Prop :=
  (∀ (m : Master) (k : BitVec 5) (ok : Bool) (s : State),
     MayWrite s m PLC_CMD → (fabRead s mSSP (getR s PLC_CMD_ADDR).toNat (getR s PLC_CMD_LEN).toNat true).2.1 ≠
     .ok →
       exec (.loadPers m k ok) s = .next
         (answer (plcEnd (fabRead s mSSP (getR s PLC_CMD_ADDR).toNat (getR s PLC_CMD_LEN).toNat true).1 2) 0)) ∧
  (∀ (m : Master) (k : BitVec 5) (ok : Bool) (s u : State) (b : List Byte),
     MayWrite s m PLC_CMD → fabRead s mSSP (getR s PLC_CMD_ADDR).toNat (getR s PLC_CMD_LEN).toNat true = (u,
     .ok, b) → persCheck u b k.toNat ok ≠ 0 →
       exec (.loadPers m k ok) s = .next (answer (plcEnd u (persCheck u b k.toNat ok)) 0)) ∧
  (∀ (m : Master) (k : BitVec 5) (ok : Bool) (s u : State) (b : List Byte),
     MayWrite s m PLC_CMD → fabRead s mSSP (getR s PLC_CMD_ADDR).toNat (getR s PLC_CMD_LEN).toNat true = (u,
     .ok, b) → persCheck u b k.toNat ok = 0 →
       exec (.loadPers m k ok) s = .next
         (answer (plcEnd { u with plc := { u.plc with pers := sset u.plc.pers k.toNat (persOf b) } } 0) 0)) ∧
  (∀ (m : Master) (k : BitVec 5) (s : State),
     MayWrite s m PLC_CMD → persNamed s k.toNat = false →
       exec (.unloadPers m k) s = .next
         (answer (plcEnd { s with plc := { s.plc with pers := sdel s.plc.pers k.toNat } } 0) 0)) ∧
  (∀ (m : Master) (k : BitVec 5) (s : State),
     MayWrite s m PLC_CMD → persNamed s k.toNat = true →
       exec (.unloadPers m k) s = .next (answer (plcEnd s 8) 0)) ∧
  (∀ (m : Master) (s : State),
     MayWrite s m PLC_CMD → plcFrozen s = false →
       exec (.rebalance m) s = .next
         (answer (plcEnd (placeBanks ((List.range 16).foldl clusterIdle (placeBalance (placeMissing (bindApply s))))) 0) 0)) ∧
  (∀ (m : Master) (s : State),
     MayWrite s m PLC_CMD → plcFrozen s = true →
       exec (.rebalance m) s = .next (answer (plcEnd s 0) 0)) ∧
  (∀ (s : State),
       exec .placementRecompute s = .next (if plcFrozen s then s
         else placeBanks ((List.range 16).foldl clusterIdle (placeBalance (placeMissing (bindApply s)))))) ∧
  (∀ (m : Master) (n : BitVec 6) (s : State),
     MayWrite s m PLC_CMD → m ≠ mSSP → m ≠ mMGP →
       exec (.declareDead m n) s = .next (answer (deny s errDeniedField m PLC_CMD true) 0)) ∧
  (∀ (m : Master) (n : BitVec 6) (s : State),
     MayWrite s m PLC_CMD → m = mSSP ∨ m = mMGP → n.toNat < 48 →
       exec (.declareDead m n) s = .next (answer (plcEnd (Machine.declareDead s n.toNat 3) 0) 0)) ∧
  (∀ (m : Master) (n : BitVec 6) (s : State),
     MayWrite s m PLC_CMD → m = mSSP ∨ m = mMGP → 48 ≤ n.toNat →
       exec (.declareDead m n) s = .next (answer (plcEnd s 2) 0)) ∧
  (∀ (m : Master) (n : BitVec 6) (c2 : Bool) (s : State),
     MayWrite s m PLC_CMD → n.toNat < 48 → (getR s PLC_CMD_ADDR).toNat % 32 = 0 → inShared (getR s
     PLC_CMD_ADDR).toNat 32 = true → bankKind s (bankOf (getR s PLC_CMD_ADDR).toNat) = kRings → (eng s
     n.toNat).st ≠ 3 → (eng s n.toNat).jobs.length < 16 →
       exec (.postJob m n c2) s = .next (answer
         (let a := (getR s PLC_CMD_ADDR).toNat
          let tag := 0x30000000 + s.plc.jobSeq
          let s1 := wrLE s a 4 tag
          let j : Job := { tag := tag, cls2 := c2, addr := a, chan := rdLE s (a + 4) 2 % 512 }
          let s2 := { s1 with plc := { s1.plc with jobSeq := if s.plc.jobSeq = 0x0FFFFFFF then 1 else s.plc.jobSeq + 1 } }
          plcEnd (engMod (setR s2 PLC_CMD_TAG (w32 tag)) n.toNat fun e => { e with jobs := e.jobs ++ [j] }) 0) 0)) ∧
  (∀ (m : Master) (n : BitVec 6) (c2 : Bool) (s : State),
     MayWrite s m PLC_CMD → 48 ≤ n.toNat ∨ (getR s PLC_CMD_ADDR).toNat % 32 ≠ 0 ∨ inShared (getR s
     PLC_CMD_ADDR).toNat 32 = false ∨ bankKind s (bankOf (getR s PLC_CMD_ADDR).toNat) ≠ kRings →
       exec (.postJob m n c2) s = .next (answer (plcEnd s 2) 0)) ∧
  (∀ (m : Master) (n : BitVec 6) (c2 : Bool) (s : State),
     MayWrite s m PLC_CMD → ¬(48 ≤ n.toNat ∨ (getR s PLC_CMD_ADDR).toNat % 32 ≠ 0 ∨ inShared (getR s
     PLC_CMD_ADDR).toNat 32 = false ∨ bankKind s (bankOf (getR s PLC_CMD_ADDR).toNat) ≠ kRings) → (eng s
     n.toNat).st = 3 ∨ 16 ≤ (eng s n.toNat).jobs.length →
       exec (.postJob m n c2) s = .next (answer (plcEnd s (if (eng s n.toNat).st = 3 then 0xA else 9)) 0)) ∧
  (∀ (m : Master) (c : BitVec 9) (v : Word) (s : State),
     MayWrite s m (PLC_BIND c.toNat) → chanAssigned c.toNat = false →
       exec (.bindWrite m c v) s = .next (answer (raiseIrq (bump s PLC_BIND_REJECTED) PLC 7) 0)) ∧
  (∀ (m : Master) (c : BitVec 9) (v : Word) (s : State),
     MayWrite s m (PLC_BIND c.toNat) → chanAssigned c.toNat = true →
       exec (.bindWrite m c v) s = .next (answer
         (let s1 := plainWrite (regDesc .PLC 0 (PLC_BIND c.toNat - PLC)) m ⟨.PLC, 0, PLC⟩ (PLC_BIND c.toNat - PLC) v s
          { s1 with plc := { s1.plc with wish := sset s1.plc.wish c.toNat (getR s1 (PLC_BIND c.toNat)) } }) 0))

/-- Where a core issues one of the 25 integer operations and nothing is raised, its register takes the result in the
next cycle: the sum, difference, negation, logic, comparison, shift by six or five bits, leading zeros or sign
extension of rs1 and rs2 or the immediate. It retires: the next instruction issues in the next cycle, an engine
counts a busy cycle, and nothing else changes. -/
def Obligations.CoreIntegerInstructions : Prop :=
  (∀ (c : Fin 50) (w : Word) (x : CoreSt) (t s : State),
     Issues s c.val .add w x t →
       exec (.h32Add c) s = .next (gives c.val 1 (greg x (fRs1 w) + greg x (fRs2 w)) w x (busyCycle .add t c.val))) ∧
  (∀ (c : Fin 50) (w : Word) (x : CoreSt) (t s : State),
     Issues s c.val .sub w x t →
       exec (.h32Sub c) s = .next (gives c.val 1 (greg x (fRs1 w) - greg x (fRs2 w)) w x (busyCycle .sub t c.val))) ∧
  (∀ (c : Fin 50) (w : Word) (x : CoreSt) (t s : State),
     Issues s c.val .neg w x t →
       exec (.h32Neg c) s = .next (gives c.val 1 (0 - greg x (fRs1 w)) w x (busyCycle .neg t c.val))) ∧
  (∀ (c : Fin 50) (w : Word) (x : CoreSt) (t s : State),
     Issues s c.val .and w x t →
       exec (.h32And c) s = .next (gives c.val 1 (greg x (fRs1 w) &&& greg x (fRs2 w)) w x (busyCycle .and t c.val))) ∧
  (∀ (c : Fin 50) (w : Word) (x : CoreSt) (t s : State),
     Issues s c.val .or w x t →
       exec (.h32Or c) s = .next (gives c.val 1 (greg x (fRs1 w) ||| greg x (fRs2 w)) w x (busyCycle .or t c.val))) ∧
  (∀ (c : Fin 50) (w : Word) (x : CoreSt) (t s : State),
     Issues s c.val .xor w x t →
       exec (.h32Xor c) s = .next (gives c.val 1 (greg x (fRs1 w) ^^^ greg x (fRs2 w)) w x (busyCycle .xor t c.val))) ∧
  (∀ (c : Fin 50) (w : Word) (x : CoreSt) (t s : State),
     Issues s c.val .andn w x t →
       exec (.h32Andn c) s = .next (gives c.val 1 (greg x (fRs1 w) &&& ~~~ greg x (fRs2 w)) w x (busyCycle .andn t c.val))) ∧
  (∀ (c : Fin 50) (w : Word) (x : CoreSt) (t s : State),
     Issues s c.val .slt w x t →
       exec (.h32Slt c) s = .next (gives c.val 1 (w32 (nb ((greg x (fRs1 w)).slt (greg x (fRs2 w))))) w x (busyCycle .slt t c.val))) ∧
  (∀ (c : Fin 50) (w : Word) (x : CoreSt) (t s : State),
     Issues s c.val .sltu w x t →
       exec (.h32Sltu c) s = .next (gives c.val 1 (w32 (nb ((greg x (fRs1 w)).ult (greg x (fRs2 w))))) w x (busyCycle .sltu t c.val))) ∧
  (∀ (c : Fin 50) (w : Word) (x : CoreSt) (t s : State),
     Issues s c.val .sll w x t →
       exec (.h32Sll c) s = .next (gives c.val 1 (greg x (fRs1 w) <<< fld (greg x (fRs2 w)) 5 0) w x (busyCycle .sll t c.val))) ∧
  (∀ (c : Fin 50) (w : Word) (x : CoreSt) (t s : State),
     Issues s c.val .srl w x t →
       exec (.h32Srl c) s = .next (gives c.val 1 (greg x (fRs1 w) >>> fld (greg x (fRs2 w)) 5 0) w x (busyCycle .srl t c.val))) ∧
  (∀ (c : Fin 50) (w : Word) (x : CoreSt) (t s : State),
     Issues s c.val .sra w x t →
       exec (.h32Sra c) s = .next (gives c.val 1 ((greg x (fRs1 w)).sshiftRight (fld (greg x (fRs2 w)) 5 0)) w x (busyCycle .sra t c.val))) ∧
  (∀ (c : Fin 50) (w : Word) (x : CoreSt) (t s : State),
     Issues s c.val .clz w x t →
       exec (.h32Clz c) s = .next (gives c.val 1 (w32 (clz32 (greg x (fRs1 w)))) w x (busyCycle .clz t c.val))) ∧
  (∀ (c : Fin 50) (w : Word) (x : CoreSt) (t s : State),
     Issues s c.val .sextb w x t →
       exec (.h32Sextb c) s = .next (gives c.val 1 (((greg x (fRs1 w)).setWidth 8).signExtend 32) w x (busyCycle .sextb t c.val))) ∧
  (∀ (c : Fin 50) (w : Word) (x : CoreSt) (t s : State),
     Issues s c.val .sexth w x t →
       exec (.h32Sexth c) s = .next (gives c.val 1 (((greg x (fRs1 w)).setWidth 16).signExtend 32) w x (busyCycle .sexth t c.val))) ∧
  (∀ (c : Fin 50) (w : Word) (x : CoreSt) (t s : State),
     Issues s c.val .addi w x t →
       exec (.h32Addi c) s = .next (gives c.val 1 (greg x (fRs1 w) + fImm w) w x (busyCycle .addi t c.val))) ∧
  (∀ (c : Fin 50) (w : Word) (x : CoreSt) (t s : State),
     Issues s c.val .andi w x t →
       exec (.h32Andi c) s = .next (gives c.val 1 (greg x (fRs1 w) &&& fImmZ w) w x (busyCycle .andi t c.val))) ∧
  (∀ (c : Fin 50) (w : Word) (x : CoreSt) (t s : State),
     Issues s c.val .ori w x t →
       exec (.h32Ori c) s = .next (gives c.val 1 (greg x (fRs1 w) ||| fImmZ w) w x (busyCycle .ori t c.val))) ∧
  (∀ (c : Fin 50) (w : Word) (x : CoreSt) (t s : State),
     Issues s c.val .xori w x t →
       exec (.h32Xori c) s = .next (gives c.val 1 (greg x (fRs1 w) ^^^ fImmZ w) w x (busyCycle .xori t c.val))) ∧
  (∀ (c : Fin 50) (w : Word) (x : CoreSt) (t s : State),
     Issues s c.val .slti w x t →
       exec (.h32Slti c) s = .next (gives c.val 1 (w32 (nb ((greg x (fRs1 w)).slt (fImm w)))) w x (busyCycle .slti t c.val))) ∧
  (∀ (c : Fin 50) (w : Word) (x : CoreSt) (t s : State),
     Issues s c.val .sltiu w x t →
       exec (.h32Sltiu c) s = .next (gives c.val 1 (w32 (nb ((greg x (fRs1 w)).ult (fImm w)))) w x (busyCycle .sltiu t c.val))) ∧
  (∀ (c : Fin 50) (w : Word) (x : CoreSt) (t s : State),
     Issues s c.val .lui w x t →
       exec (.h32Lui c) s = .next (gives c.val 1 (w <<< 16) w x (busyCycle .lui t c.val))) ∧
  (∀ (c : Fin 50) (w : Word) (x : CoreSt) (t s : State),
     Issues s c.val .slli w x t →
       exec (.h32Slli c) s = .next (gives c.val 1 (greg x (fRs1 w) <<< fld w 4 0) w x (busyCycle .slli t c.val))) ∧
  (∀ (c : Fin 50) (w : Word) (x : CoreSt) (t s : State),
     Issues s c.val .srli w x t →
       exec (.h32Srli c) s = .next (gives c.val 1 (greg x (fRs1 w) >>> fld w 4 0) w x (busyCycle .srli t c.val))) ∧
  (∀ (c : Fin 50) (w : Word) (x : CoreSt) (t s : State),
     Issues s c.val .srai w x t →
       exec (.h32Srai c) s = .next (gives c.val 1 ((greg x (fRs1 w)).sshiftRight (fld w 4 0)) w x (busyCycle .srai t c.val)))

/-- A multiply gives its half of the signed or unsigned product three cycles away; a divide or remainder gives its
result twenty cycles away, all ones or the dividend where rs2 is 0, which also sets ASTAT.DZ, and abandons an
earlier divide in flight. It retires: the next instruction issues in the next cycle, an engine counts a busy cycle,
and nothing else changes. -/
def Obligations.CoreMultiplyAndDivide : Prop :=
  (∀ (c : Fin 50) (w : Word) (x : CoreSt) (t s : State),
     Issues s c.val .mul w x t →
       exec (.h32Mul c) s = .next (gives c.val 3 (greg x (fRs1 w) * greg x (fRs2 w)) w x (busyCycle .mul t c.val))) ∧
  (∀ (c : Fin 50) (w : Word) (x : CoreSt) (t s : State),
     Issues s c.val .mulh w x t →
       exec (.h32Mulh c) s = .next (gives c.val 3 ((((greg x (fRs1 w)).signExtend 64 * (greg x (fRs2 w)).signExtend 64) >>> 32).setWidth 32) w x (busyCycle .mulh t c.val))) ∧
  (∀ (c : Fin 50) (w : Word) (x : CoreSt) (t s : State),
     Issues s c.val .mulhu w x t →
       exec (.h32Mulhu c) s = .next (gives c.val 3 ((((greg x (fRs1 w)).setWidth 64 * (greg x (fRs2 w)).setWidth 64) >>> 32).setWidth 32) w x (busyCycle .mulhu t c.val))) ∧
  (∀ (c : Fin 50) (w : Word) (x : CoreSt) (t s : State),
     Issues s c.val .div w x t →
       exec (.h32Div c) s = .next
         ((let r : Landing :=
            { at_ := x.cyc + 20, dest := fRd w, val := if greg x (fRs2 w) = 0 then 0xFFFFFFFF#32 else (greg x (fRs1 w)).sdiv (greg x (fRs2 w))
              divide := true, dz := decide (greg x (fRs2 w) = 0) }
          coreSet (busyCycle .div t c.val) c.val (retire { x with land := landPut (x.land.filter fun r => !r.divide) r })))) ∧
  (∀ (c : Fin 50) (w : Word) (x : CoreSt) (t s : State),
     Issues s c.val .divu w x t →
       exec (.h32Divu c) s = .next
         ((let r : Landing :=
            { at_ := x.cyc + 20, dest := fRd w, val := if greg x (fRs2 w) = 0 then 0xFFFFFFFF#32 else greg x (fRs1 w) / greg x (fRs2 w)
              divide := true, dz := decide (greg x (fRs2 w) = 0) }
          coreSet (busyCycle .divu t c.val) c.val (retire { x with land := landPut (x.land.filter fun r => !r.divide) r })))) ∧
  (∀ (c : Fin 50) (w : Word) (x : CoreSt) (t s : State),
     Issues s c.val .rem w x t →
       exec (.h32Rem c) s = .next
         ((let r : Landing :=
            { at_ := x.cyc + 20, dest := fRd w, val := if greg x (fRs2 w) = 0 then greg x (fRs1 w) else (greg x (fRs1 w)).srem (greg x (fRs2 w))
              divide := true, dz := decide (greg x (fRs2 w) = 0) }
          coreSet (busyCycle .rem t c.val) c.val (retire { x with land := landPut (x.land.filter fun r => !r.divide) r })))) ∧
  (∀ (c : Fin 50) (w : Word) (x : CoreSt) (t s : State),
     Issues s c.val .remu w x t →
       exec (.h32Remu c) s = .next
         ((let r : Landing :=
            { at_ := x.cyc + 20, dest := fRd w, val := if greg x (fRs2 w) = 0 then greg x (fRs1 w) else greg x (fRs1 w) % greg x (fRs2 w)
              divide := true, dz := decide (greg x (fRs2 w) = 0) }
          coreSet (busyCycle .remu t c.val) c.val (retire { x with land := landPut (x.land.filter fun r => !r.divide) r }))))

/-- A load of an engine takes its bytes from D-TCM or a local peripheral register, a load of the SSP or MGP from its
own TCM, and the value, extended as the instruction says, lands three cycles away; LWPI also adds the immediate to
its base. Any other load stops issue until its data arrive: they land before the next instruction, or a bus error
raises LOAD_ERR. It retires: the next instruction issues in the next cycle, an engine counts a busy cycle, and
nothing else changes. -/
def Obligations.CoreLoads : Prop :=
  (∀ (c : Fin 50) (w : Word) (x : CoreSt) (t s : State),
     Issues s c.val .lw w x t → c.val < 48 → inDtcm (greg x (fRs1 w) + fImm w).toNat 4 = true →
       exec (.h32Lw c) s = .next (coreSet (busyCycle .lw t c.val) c.val (retire (flies x 3 (fRd w) ((w32 (leNat (tcmBytes (busyCycle .lw t c.val) c.val (greg x (fRs1 w) + fImm w).toNat 4)))))))) ∧
  (∀ (c : Fin 50) (w : Word) (x : CoreSt) (t s : State),
     Issues s c.val .lw w x t → c.val < 48 → inDtcm (greg x (fRs1 w) + fImm w).toNat 4 = false →
       exec (.h32Lw c) s = .next (
         (let r := periphLoad c.val (greg x (fRs1 w) + fImm w).toNat (busyCycle .lw t c.val)
          coreSet r.1 c.val (retire (flies x 3 (fRd w) r.2))))) ∧
  (∀ (c : Fin 50) (w : Word) (k : Nat) (x : CoreSt) (t s : State),
     Issues s c.val .lw w x t → 48 ≤ c.val → nearKey c.val (greg x (fRs1 w) + fImm w).toNat 4 = some k →
       exec (.h32Lw c) s = .next (coreSet (t) c.val (retire (flies x 3 (fRd w) ((w32 (leNat (memBytes t k 4)))))))) ∧
  (∀ (c : Fin 50) (w : Word) (x : CoreSt) (t s : State),
     Issues s c.val .lw w x t → 48 ≤ c.val → nearKey c.val (greg x (fRs1 w) + fImm w).toNat 4 = none →
       exec (.h32Lw c) s = .next (coreSet t c.val { x with run := .far, far := some { addr := (greg x (fRs1 w) + fImm w), word := w } })) ∧
  (∀ (c : Fin 50) (w : Word) (x : CoreSt) (t s : State),
     Issues s c.val .lh w x t → c.val < 48 → inDtcm (greg x (fRs1 w) + fImm w).toNat 2 = true →
       exec (.h32Lh c) s = .next (coreSet (busyCycle .lh t c.val) c.val (retire (flies x 3 (fRd w) (((w32 (leNat (tcmBytes (busyCycle .lh t c.val) c.val (greg x (fRs1 w) + fImm w).toNat 2))).setWidth 16).signExtend 32))))) ∧
  (∀ (c : Fin 50) (w : Word) (k : Nat) (x : CoreSt) (t s : State),
     Issues s c.val .lh w x t → 48 ≤ c.val → nearKey c.val (greg x (fRs1 w) + fImm w).toNat 2 = some k →
       exec (.h32Lh c) s = .next (coreSet (t) c.val (retire (flies x 3 (fRd w) (((w32 (leNat (memBytes t k 2))).setWidth 16).signExtend 32))))) ∧
  (∀ (c : Fin 50) (w : Word) (x : CoreSt) (t s : State),
     Issues s c.val .lh w x t → 48 ≤ c.val → nearKey c.val (greg x (fRs1 w) + fImm w).toNat 2 = none →
       exec (.h32Lh c) s = .next (coreSet t c.val { x with run := .far, far := some { addr := (greg x (fRs1 w) + fImm w), word := w } })) ∧
  (∀ (c : Fin 50) (w : Word) (x : CoreSt) (t s : State),
     Issues s c.val .lhu w x t → c.val < 48 → inDtcm (greg x (fRs1 w) + fImm w).toNat 2 = true →
       exec (.h32Lhu c) s = .next (coreSet (busyCycle .lhu t c.val) c.val (retire (flies x 3 (fRd w) (((w32 (leNat (tcmBytes (busyCycle .lhu t c.val) c.val (greg x (fRs1 w) + fImm w).toNat 2))).setWidth 16).setWidth 32))))) ∧
  (∀ (c : Fin 50) (w : Word) (k : Nat) (x : CoreSt) (t s : State),
     Issues s c.val .lhu w x t → 48 ≤ c.val → nearKey c.val (greg x (fRs1 w) + fImm w).toNat 2 = some k →
       exec (.h32Lhu c) s = .next (coreSet (t) c.val (retire (flies x 3 (fRd w) (((w32 (leNat (memBytes t k 2))).setWidth 16).setWidth 32))))) ∧
  (∀ (c : Fin 50) (w : Word) (x : CoreSt) (t s : State),
     Issues s c.val .lhu w x t → 48 ≤ c.val → nearKey c.val (greg x (fRs1 w) + fImm w).toNat 2 = none →
       exec (.h32Lhu c) s = .next (coreSet t c.val { x with run := .far, far := some { addr := (greg x (fRs1 w) + fImm w), word := w } })) ∧
  (∀ (c : Fin 50) (w : Word) (x : CoreSt) (t s : State),
     Issues s c.val .lb w x t → c.val < 48 → inDtcm (greg x (fRs1 w) + fImm w).toNat 1 = true →
       exec (.h32Lb c) s = .next (coreSet (busyCycle .lb t c.val) c.val (retire (flies x 3 (fRd w) (((w32 (leNat (tcmBytes (busyCycle .lb t c.val) c.val (greg x (fRs1 w) + fImm w).toNat 1))).setWidth 8).signExtend 32))))) ∧
  (∀ (c : Fin 50) (w : Word) (k : Nat) (x : CoreSt) (t s : State),
     Issues s c.val .lb w x t → 48 ≤ c.val → nearKey c.val (greg x (fRs1 w) + fImm w).toNat 1 = some k →
       exec (.h32Lb c) s = .next (coreSet (t) c.val (retire (flies x 3 (fRd w) (((w32 (leNat (memBytes t k 1))).setWidth 8).signExtend 32))))) ∧
  (∀ (c : Fin 50) (w : Word) (x : CoreSt) (t s : State),
     Issues s c.val .lb w x t → 48 ≤ c.val → nearKey c.val (greg x (fRs1 w) + fImm w).toNat 1 = none →
       exec (.h32Lb c) s = .next (coreSet t c.val { x with run := .far, far := some { addr := (greg x (fRs1 w) + fImm w), word := w } })) ∧
  (∀ (c : Fin 50) (w : Word) (x : CoreSt) (t s : State),
     Issues s c.val .lbu w x t → c.val < 48 → inDtcm (greg x (fRs1 w) + fImm w).toNat 1 = true →
       exec (.h32Lbu c) s = .next (coreSet (busyCycle .lbu t c.val) c.val (retire (flies x 3 (fRd w) (((w32 (leNat (tcmBytes (busyCycle .lbu t c.val) c.val (greg x (fRs1 w) + fImm w).toNat 1))).setWidth 8).setWidth 32))))) ∧
  (∀ (c : Fin 50) (w : Word) (k : Nat) (x : CoreSt) (t s : State),
     Issues s c.val .lbu w x t → 48 ≤ c.val → nearKey c.val (greg x (fRs1 w) + fImm w).toNat 1 = some k →
       exec (.h32Lbu c) s = .next (coreSet (t) c.val (retire (flies x 3 (fRd w) (((w32 (leNat (memBytes t k 1))).setWidth 8).setWidth 32))))) ∧
  (∀ (c : Fin 50) (w : Word) (x : CoreSt) (t s : State),
     Issues s c.val .lbu w x t → 48 ≤ c.val → nearKey c.val (greg x (fRs1 w) + fImm w).toNat 1 = none →
       exec (.h32Lbu c) s = .next (coreSet t c.val { x with run := .far, far := some { addr := (greg x (fRs1 w) + fImm w), word := w } })) ∧
  (∀ (c : Fin 50) (w : Word) (x : CoreSt) (t s : State),
     Issues s c.val .lwpi w x t → c.val < 48 → inDtcm (greg x (fRs1 w)).toNat 4 = true →
       exec (.h32Lwpi c) s = .next (coreSet (busyCycle .lwpi t c.val) c.val (retire (flies (flies x 1 (fRs1 w) (greg x (fRs1 w) + fImm w)) 3 (fRd w) ((w32 (leNat (tcmBytes (busyCycle .lwpi t c.val) c.val (greg x (fRs1 w)).toNat 4)))))))) ∧
  (∀ (c : Fin 50) (w : Word) (x : CoreSt) (t s : State),
     Issues s c.val .lwpi w x t → c.val < 48 → inDtcm (greg x (fRs1 w)).toNat 4 = false →
       exec (.h32Lwpi c) s = .next (
         (let r := periphLoad c.val (greg x (fRs1 w)).toNat (busyCycle .lwpi t c.val)
          coreSet r.1 c.val (retire (flies (flies x 1 (fRs1 w) (greg x (fRs1 w) + fImm w)) 3 (fRd w) r.2))))) ∧
  (∀ (c : Fin 50) (w : Word) (k : Nat) (x : CoreSt) (t s : State),
     Issues s c.val .lwpi w x t → 48 ≤ c.val → nearKey c.val (greg x (fRs1 w)).toNat 4 = some k →
       exec (.h32Lwpi c) s = .next (coreSet (t) c.val (retire (flies (flies x 1 (fRs1 w) (greg x (fRs1 w) + fImm w)) 3 (fRd w) ((w32 (leNat (memBytes t k 4)))))))) ∧
  (∀ (c : Fin 50) (w : Word) (x : CoreSt) (t s : State),
     Issues s c.val .lwpi w x t → 48 ≤ c.val → nearKey c.val (greg x (fRs1 w)).toNat 4 = none →
       exec (.h32Lwpi c) s = .next (coreSet t c.val { x with run := .far, far := some { addr := (greg x (fRs1 w)), word := w } })) ∧
  (∀ (c : Fin 50) (f : FarLoad) (v : Word) (s : State),
     (coreOf s c.val).far = some f → (coreOf s c.val).run = .far → coreUp s c.val = true → (busLoad (coreMaster
     c.val) f.addr.toNat (memSize ((opOf f.word).getD .lw)) s).resp = .ok v →
       exec (.farLoadData c) s = .next
         (let o := (opOf f.word).getD .lw
          let t := busLoad (coreMaster c.val) f.addr.toNat (memSize o) s
          let u := fresh { t with resp := s.resp }
          let cyc := (coreOf s c.val).cyc + 1 + u.1.toNat % 65536
          let r : Landing := { at_ := cyc, dest := fRd f.word, val := loadExt o v, divide := false, dz := false }
          let z := baseFlies o f.word { coreOf s c.val with run := .run, far := none }
          coreSet u.2 c.val { retire { z with land := landPut z.land r } with cyc := cyc })) ∧
  (∀ (c : Fin 50) (f : FarLoad) (s : State),
     (coreOf s c.val).far = some f → (coreOf s c.val).run = .far → coreUp s c.val = true → (busLoad (coreMaster
     c.val) f.addr.toNat (memSize ((opOf f.word).getD .lw)) s).resp = .busErr →
       exec (.farLoadData c) s = .next
         (let t := busLoad (coreMaster c.val) f.addr.toNat (memSize ((opOf f.word).getD .lw)) s
          coreSet { t with resp := s.resp } c.val
            (takeException c.val { coreOf s c.val with run := .run, far := none } (exLoad, f.addr)))) ∧
  (∀ (c : Fin 50) (s : State),
     (coreOf s c.val).far = none ∨ (coreOf s c.val).run ≠ .far ∨ coreUp s c.val = false →
       exec (.farLoadData c) s = .next s)

/-- A store of an engine writes D-TCM or a local peripheral register, a store of the SSP or MGP its own TCM, in its
issue cycle; SWPI also adds the immediate to its base. Any other store is posted, and its bus error comes back
later. It retires: the next instruction issues in the next cycle, an engine counts a busy cycle, and nothing else
changes. -/
def Obligations.CoreStores : Prop :=
  (∀ (c : Fin 50) (w : Word) (x : CoreSt) (t s : State),
     Issues s c.val .sw w x t → c.val < 48 → inDtcm (greg x (fRs1 w) + fImm w).toNat 4 = true →
       exec (.h32Sw c) s = .next (tcmWrite (coreSet (busyCycle .sw t c.val) c.val (retire x)) c.val (greg x (fRs1 w) + fImm w).toNat (leBytes 4 (greg x (fRd w)).toNat))) ∧
  (∀ (c : Fin 50) (w : Word) (x : CoreSt) (t s : State),
     Issues s c.val .sw w x t → c.val < 48 → inDtcm (greg x (fRs1 w) + fImm w).toNat 4 = false →
       exec (.h32Sw c) s = .next (periphStore c.val (greg x (fRs1 w) + fImm w).toNat (greg x (fRd w)) (coreSet (busyCycle .sw t c.val) c.val (retire x)))) ∧
  (∀ (c : Fin 50) (w : Word) (k : Nat) (x : CoreSt) (t s : State),
     Issues s c.val .sw w x t → 48 ≤ c.val → nearKey c.val (greg x (fRs1 w) + fImm w).toNat 4 = some k →
       exec (.h32Sw c) s = .next ({ coreSet t c.val (retire x) with mem := memPut t.mem k (leBytes 4 (greg x (fRd w)).toNat) })) ∧
  (∀ (c : Fin 50) (w : Word) (x : CoreSt) (t s : State),
     Issues s c.val .sw w x t → 48 ≤ c.val → nearKey c.val (greg x (fRs1 w) + fImm w).toNat 4 = none →
       exec (.h32Sw c) s = .next (farStore c.val (greg x (fRs1 w) + fImm w) (leBytes 4 (greg x (fRd w)).toNat) (coreSet t c.val (retire x)))) ∧
  (∀ (c : Fin 50) (w : Word) (x : CoreSt) (t s : State),
     Issues s c.val .sh w x t → c.val < 48 → inDtcm (greg x (fRs1 w) + fImm w).toNat 2 = true →
       exec (.h32Sh c) s = .next (tcmWrite (coreSet (busyCycle .sh t c.val) c.val (retire x)) c.val (greg x (fRs1 w) + fImm w).toNat (leBytes 2 (greg x (fRd w)).toNat))) ∧
  (∀ (c : Fin 50) (w : Word) (k : Nat) (x : CoreSt) (t s : State),
     Issues s c.val .sh w x t → 48 ≤ c.val → nearKey c.val (greg x (fRs1 w) + fImm w).toNat 2 = some k →
       exec (.h32Sh c) s = .next ({ coreSet t c.val (retire x) with mem := memPut t.mem k (leBytes 2 (greg x (fRd w)).toNat) })) ∧
  (∀ (c : Fin 50) (w : Word) (x : CoreSt) (t s : State),
     Issues s c.val .sh w x t → 48 ≤ c.val → nearKey c.val (greg x (fRs1 w) + fImm w).toNat 2 = none →
       exec (.h32Sh c) s = .next (farStore c.val (greg x (fRs1 w) + fImm w) (leBytes 2 (greg x (fRd w)).toNat) (coreSet t c.val (retire x)))) ∧
  (∀ (c : Fin 50) (w : Word) (x : CoreSt) (t s : State),
     Issues s c.val .sb w x t → c.val < 48 → inDtcm (greg x (fRs1 w) + fImm w).toNat 1 = true →
       exec (.h32Sb c) s = .next (tcmWrite (coreSet (busyCycle .sb t c.val) c.val (retire x)) c.val (greg x (fRs1 w) + fImm w).toNat (leBytes 1 (greg x (fRd w)).toNat))) ∧
  (∀ (c : Fin 50) (w : Word) (k : Nat) (x : CoreSt) (t s : State),
     Issues s c.val .sb w x t → 48 ≤ c.val → nearKey c.val (greg x (fRs1 w) + fImm w).toNat 1 = some k →
       exec (.h32Sb c) s = .next ({ coreSet t c.val (retire x) with mem := memPut t.mem k (leBytes 1 (greg x (fRd w)).toNat) })) ∧
  (∀ (c : Fin 50) (w : Word) (x : CoreSt) (t s : State),
     Issues s c.val .sb w x t → 48 ≤ c.val → nearKey c.val (greg x (fRs1 w) + fImm w).toNat 1 = none →
       exec (.h32Sb c) s = .next (farStore c.val (greg x (fRs1 w) + fImm w) (leBytes 1 (greg x (fRd w)).toNat) (coreSet t c.val (retire x)))) ∧
  (∀ (c : Fin 50) (w : Word) (x : CoreSt) (t s : State),
     Issues s c.val .swpi w x t → c.val < 48 → inDtcm (greg x (fRs1 w)).toNat 4 = true →
       exec (.h32Swpi c) s = .next (tcmWrite (coreSet (busyCycle .swpi t c.val) c.val (retire (flies x 1 (fRs1 w) (greg x (fRs1 w) + fImm w)))) c.val (greg x (fRs1 w)).toNat (leBytes 4 (greg x (fRd w)).toNat))) ∧
  (∀ (c : Fin 50) (w : Word) (x : CoreSt) (t s : State),
     Issues s c.val .swpi w x t → c.val < 48 → inDtcm (greg x (fRs1 w)).toNat 4 = false →
       exec (.h32Swpi c) s = .next (periphStore c.val (greg x (fRs1 w)).toNat (greg x (fRd w)) (coreSet (busyCycle .swpi t c.val) c.val (retire (flies x 1 (fRs1 w) (greg x (fRs1 w) + fImm w)))))) ∧
  (∀ (c : Fin 50) (w : Word) (k : Nat) (x : CoreSt) (t s : State),
     Issues s c.val .swpi w x t → 48 ≤ c.val → nearKey c.val (greg x (fRs1 w)).toNat 4 = some k →
       exec (.h32Swpi c) s = .next ({ coreSet t c.val (retire (flies x 1 (fRs1 w) (greg x (fRs1 w) + fImm w))) with mem := memPut t.mem k (leBytes 4 (greg x (fRd w)).toNat) })) ∧
  (∀ (c : Fin 50) (w : Word) (x : CoreSt) (t s : State),
     Issues s c.val .swpi w x t → 48 ≤ c.val → nearKey c.val (greg x (fRs1 w)).toNat 4 = none →
       exec (.h32Swpi c) s = .next (farStore c.val (greg x (fRs1 w)) (leBytes 4 (greg x (fRd w)).toNat) (coreSet t c.val (retire (flies x 1 (fRs1 w) (greg x (fRs1 w) + fImm w))))))

/-- A branch or jump issues its delay slot next and then its target, or the instruction behind the slot where a
branch is not taken; a jump gives pc + 8 to its link register; a repeat prefix repeats the next instruction as often
as its count says and skips it for 0; the count comes from RPTC at the first fetch after an ERET with VALID set. It
retires: the next instruction issues in the next cycle, an engine counts a busy cycle, and nothing else changes. -/
def Obligations.CoreBranchesAndRepeats : Prop :=
  (∀ (c : Fin 50) (w : Word) (x : CoreSt) (t s : State),
     Issues s c.val .beq w x t → greg x (fRd w) = greg x (fRs1 w) →
       exec (.h32Beq c) s = .next (coreSet (busyCycle .beq t c.val) c.val (transfer x (x.pc + (fImm w <<< 2))))) ∧
  (∀ (c : Fin 50) (w : Word) (x : CoreSt) (t s : State),
     Issues s c.val .beq w x t → ¬(greg x (fRd w) = greg x (fRs1 w)) →
       exec (.h32Beq c) s = .next (coreSet (busyCycle .beq t c.val) c.val (transfer x (x.pc + 8)))) ∧
  (∀ (c : Fin 50) (w : Word) (x : CoreSt) (t s : State),
     Issues s c.val .bne w x t → greg x (fRd w) ≠ greg x (fRs1 w) →
       exec (.h32Bne c) s = .next (coreSet (busyCycle .bne t c.val) c.val (transfer x (x.pc + (fImm w <<< 2))))) ∧
  (∀ (c : Fin 50) (w : Word) (x : CoreSt) (t s : State),
     Issues s c.val .bne w x t → ¬(greg x (fRd w) ≠ greg x (fRs1 w)) →
       exec (.h32Bne c) s = .next (coreSet (busyCycle .bne t c.val) c.val (transfer x (x.pc + 8)))) ∧
  (∀ (c : Fin 50) (w : Word) (x : CoreSt) (t s : State),
     Issues s c.val .blt w x t → (greg x (fRd w)).slt (greg x (fRs1 w)) = true →
       exec (.h32Blt c) s = .next (coreSet (busyCycle .blt t c.val) c.val (transfer x (x.pc + (fImm w <<< 2))))) ∧
  (∀ (c : Fin 50) (w : Word) (x : CoreSt) (t s : State),
     Issues s c.val .blt w x t → ¬((greg x (fRd w)).slt (greg x (fRs1 w)) = true) →
       exec (.h32Blt c) s = .next (coreSet (busyCycle .blt t c.val) c.val (transfer x (x.pc + 8)))) ∧
  (∀ (c : Fin 50) (w : Word) (x : CoreSt) (t s : State),
     Issues s c.val .bge w x t → (greg x (fRd w)).slt (greg x (fRs1 w)) = false →
       exec (.h32Bge c) s = .next (coreSet (busyCycle .bge t c.val) c.val (transfer x (x.pc + (fImm w <<< 2))))) ∧
  (∀ (c : Fin 50) (w : Word) (x : CoreSt) (t s : State),
     Issues s c.val .bge w x t → ¬((greg x (fRd w)).slt (greg x (fRs1 w)) = false) →
       exec (.h32Bge c) s = .next (coreSet (busyCycle .bge t c.val) c.val (transfer x (x.pc + 8)))) ∧
  (∀ (c : Fin 50) (w : Word) (x : CoreSt) (t s : State),
     Issues s c.val .bltu w x t → (greg x (fRd w)).ult (greg x (fRs1 w)) = true →
       exec (.h32Bltu c) s = .next (coreSet (busyCycle .bltu t c.val) c.val (transfer x (x.pc + (fImm w <<< 2))))) ∧
  (∀ (c : Fin 50) (w : Word) (x : CoreSt) (t s : State),
     Issues s c.val .bltu w x t → ¬((greg x (fRd w)).ult (greg x (fRs1 w)) = true) →
       exec (.h32Bltu c) s = .next (coreSet (busyCycle .bltu t c.val) c.val (transfer x (x.pc + 8)))) ∧
  (∀ (c : Fin 50) (w : Word) (x : CoreSt) (t s : State),
     Issues s c.val .bgeu w x t → (greg x (fRd w)).ult (greg x (fRs1 w)) = false →
       exec (.h32Bgeu c) s = .next (coreSet (busyCycle .bgeu t c.val) c.val (transfer x (x.pc + (fImm w <<< 2))))) ∧
  (∀ (c : Fin 50) (w : Word) (x : CoreSt) (t s : State),
     Issues s c.val .bgeu w x t → ¬((greg x (fRd w)).ult (greg x (fRs1 w)) = false) →
       exec (.h32Bgeu c) s = .next (coreSet (busyCycle .bgeu t c.val) c.val (transfer x (x.pc + 8)))) ∧
  (∀ (c : Fin 50) (w : Word) (x : CoreSt) (t s : State),
     Issues s c.val .jal w x t →
       exec (.h32Jal c) s = .next (coreSet (busyCycle .jal t c.val) c.val (transfer (flies x 1 31 (x.pc + 8)) (x.pc + ((w.setWidth 26).signExtend 32 <<< 2))))) ∧
  (∀ (c : Fin 50) (w : Word) (x : CoreSt) (t s : State),
     Issues s c.val .jalr w x t →
       exec (.h32Jalr c) s = .next (coreSet (busyCycle .jalr t c.val) c.val (transfer (flies x 1 (fRd w) (x.pc + 8)) ((greg x (fRs1 w) + fImm w) &&& 0xFFFFFFFC#32)))) ∧
  (∀ (c : Fin 50) (w : Word) (x : CoreSt) (t s : State),
     Issues s c.val .rpt w x t → x.rptFrom = false → bit w 15 = false →
       exec (.h32Rpt c) s = .next (
         (let n := fld w 11 0
          let z := retire x
          coreSet (busyCycle .rpt t c.val) c.val (if n = 0 then { z with pc := x.pc + 8 }
            else { z with rpt := some { pc := x.pc, left := n, unint := false } })))) ∧
  (∀ (c : Fin 50) (w : Word) (x : CoreSt) (t s : State),
     Issues s c.val .rpt w x t → x.rptFrom = false → bit w 15 = true →
       exec (.h32Rpt c) s = .next (
         (let n := min 4096 (greg x (fRs1 w)).toNat
          let z := retire x
          coreSet (busyCycle .rpt t c.val) c.val (if n = 0 then { z with pc := x.pc + 8 }
            else { z with rpt := some { pc := x.pc, left := n, unint := false } })))) ∧
  (∀ (c : Fin 50) (w : Word) (x : CoreSt) (t s : State),
     Issues s c.val .rpt w x t → x.rptFrom = true → bit (csrHeld c.val x csrRPTC) 31 = true →
       exec (.h32Rpt c) s = .next (
         (let n := min 4096 (fld (csrHeld c.val x csrRPTC) 12 0)
          let z := retire (csrSet x csrRPTC (setBit (csrHeld c.val x csrRPTC) 31 false))
          coreSet (busyCycle .rpt t c.val) c.val (if n = 0 then { z with pc := x.pc + 8 }
            else { z with rpt := some { pc := x.pc, left := n, unint := false } })))) ∧
  (∀ (c : Fin 50) (w : Word) (x : CoreSt) (t s : State),
     Issues s c.val .rptu w x t → x.rptFrom = false → bit w 15 = false →
       exec (.h32Rptu c) s = .next (
         (let n := fld w 11 0
          let z := retire x
          coreSet (busyCycle .rptu t c.val) c.val (if n = 0 then { z with pc := x.pc + 8 }
            else { z with rpt := some { pc := x.pc, left := n, unint := true } })))) ∧
  (∀ (c : Fin 50) (w : Word) (x : CoreSt) (t s : State),
     Issues s c.val .rptu w x t → x.rptFrom = false → bit w 15 = true →
       exec (.h32Rptu c) s = .next (
         (let n := min 4096 (greg x (fRs1 w)).toNat
          let z := retire x
          coreSet (busyCycle .rptu t c.val) c.val (if n = 0 then { z with pc := x.pc + 8 }
            else { z with rpt := some { pc := x.pc, left := n, unint := true } })))) ∧
  (∀ (c : Fin 50) (w : Word) (x : CoreSt) (t s : State),
     Issues s c.val .rptu w x t → x.rptFrom = true → bit (csrHeld c.val x csrRPTC) 31 = true →
       exec (.h32Rptu c) s = .next (
         (let n := min 4096 (fld (csrHeld c.val x csrRPTC) 12 0)
          let z := retire (csrSet x csrRPTC (setBit (csrHeld c.val x csrRPTC) 31 false))
          coreSet (busyCycle .rptu t c.val) c.val (if n = 0 then { z with pc := x.pc + 8 }
            else { z with rpt := some { pc := x.pc, left := n, unint := true } }))))

/-- WFE, WFET and WAITT take one cycle where their condition holds or their time has passed, which sets ASTAT.LATE,
and otherwise the core waits; a wait ends when its condition holds or the clock has reached its time; SEV raises
line 16 + LINE of another engine that is alive. It retires: the next instruction issues in the next cycle, an engine
counts a busy cycle, and nothing else changes. -/
def Obligations.CoreWaitsAndEvents : Prop :=
  (∀ (c : Fin 50) (w : Word) (x : CoreSt) (t s : State),
     Issues s c.val .wfe w x t → wakeCond t c.val x = true →
       exec (.h32Wfe c) s = .next (coreSet t c.val (retire x))) ∧
  (∀ (c : Fin 50) (w : Word) (x : CoreSt) (t s : State),
     Issues s c.val .wfe w x t → wakeCond t c.val x = false →
       exec (.h32Wfe c) s = .next (coreSet t c.val { x with run := .wait, wait := some { kind := 0, rd := fRd w, target := 0, since := t.time.tense, late := false } })) ∧
  (∀ (c : Fin 50) (w : Word) (x : CoreSt) (t s : State),
     Issues s c.val .wfet w x t → dword (greg x (fRs2 w)) (greg x (fRs1 w)) ≤ coreTense t →
       exec (.h32Wfet c) s = .next (gives c.val 1 (w32 (nb (wakeCond t c.val x) + 2)) w (setLate c.val x) t)) ∧
  (∀ (c : Fin 50) (w : Word) (x : CoreSt) (t s : State),
     Issues s c.val .wfet w x t → wakeCond t c.val x = true → ¬(dword (greg x (fRs2 w)) (greg x (fRs1 w)) ≤
     coreTense t) →
       exec (.h32Wfet c) s = .next (gives c.val 1 1 w x t)) ∧
  (∀ (c : Fin 50) (w : Word) (x : CoreSt) (t s : State),
     Issues s c.val .wfet w x t → wakeCond t c.val x = false → ¬(dword (greg x (fRs2 w)) (greg x (fRs1 w)) ≤
     coreTense t) →
       exec (.h32Wfet c) s = .next (coreSet t c.val { x with run := .wait, wait := some { kind := 1, rd := fRd w, target := dword (greg x (fRs2 w)) (greg x (fRs1 w)), since := t.time.tense, late := false } })) ∧
  (∀ (c : Fin 50) (w : Word) (x : CoreSt) (t s : State),
     Issues s c.val .waitt w x t → dword (greg x (fRs2 w)) (greg x (fRs1 w)) ≤ coreTense t →
       exec (.h32Waitt c) s = .next (coreSet t c.val (retire (setLate c.val x)))) ∧
  (∀ (c : Fin 50) (w : Word) (x : CoreSt) (t s : State),
     Issues s c.val .waitt w x t → ¬(dword (greg x (fRs2 w)) (greg x (fRs1 w)) ≤ coreTense t) →
       exec (.h32Waitt c) s = .next (coreSet t c.val { x with run := .wait, wait := some { kind := 2, rd := fRd w, target := dword (greg x (fRs2 w)) (greg x (fRs1 w)), since := t.time.tense, late := false } })) ∧
  (∀ (c : Fin 50) (q : CoreWait) (s : State),
     (coreOf s c.val).wait = some q → (coreOf s c.val).run = .wait → coreUp s c.val = true → q.kind ≠ 2 →
     wakeCond s c.val (landTo c.val (coreOf s c.val) ((coreOf s c.val).cyc + waited s c.val q)) = true →
       exec (.waitEnd c) s = .next (waitDone s c.val (coreOf s c.val) q)) ∧
  (∀ (c : Fin 50) (q : CoreWait) (s : State),
     (coreOf s c.val).wait = some q → (coreOf s c.val).run = .wait → coreUp s c.val = true → q.kind ≠ 0 →
     q.kind = 2 ∨ wakeCond s c.val (landTo c.val (coreOf s c.val) ((coreOf s c.val).cyc + waited s c.val q)) =
     false →
       exec (.waitEnd c) s = .next (waitDone (advanceCore s (coreClock s c.val) q.target.toNat) c.val (coreOf s c.val) q)) ∧
  (∀ (c : Fin 50) (q : CoreWait) (s : State),
     (coreOf s c.val).wait = some q → (coreOf s c.val).run = .wait → q.kind = 0 → wakeCond s c.val (landTo
     c.val (coreOf s c.val) ((coreOf s c.val).cyc + waited s c.val q)) = false →
       exec (.waitEnd c) s = .next s) ∧
  (∀ (c : Fin 50) (s : State), (coreOf s c.val).wait = none → exec (.waitEnd c) s = .next s) ∧
  (∀ (c : Fin 50) (w : Word) (x : CoreSt) (t s : State),
     Issues s c.val .sev w x t → fld (greg x (fRs1 w)) 5 0 ≤ 47 → fld (greg x (fRs1 w)) 5 0 ≠ c.val → engAlive
     t (fld (greg x (fRs1 w)) 5 0) = true →
       exec (.h32Sev c) s = .next (raiseEvent (coreSet (busyCycle .sev t c.val) c.val (retire x)) (fld (greg x (fRs1 w)) 5 0) (16 + fld w 8 6))) ∧
  (∀ (c : Fin 50) (w : Word) (x : CoreSt) (t s : State),
     Issues s c.val .sev w x t → 47 < fld (greg x (fRs1 w)) 5 0 ∨ fld (greg x (fRs1 w)) 5 0 = c.val ∨ engAlive
     t (fld (greg x (fRs1 w)) 5 0) = false →
       exec (.h32Sev c) s = .next (coreSet (busyCycle .sev t c.val) c.val (retire x)))

/-- CSRR, CSRW, CSRS and CSRC give the old value in the next cycle and write the writable bits of the new one three
cycles away; a read of CYCLE_LO latches CYCLE_HI; 0x5A5A written to WDT_KICK restarts the watchdog; ERET restores
STATUS and goes to EPC at once. It retires: the next instruction issues in the next cycle, an engine counts a busy
cycle, and nothing else changes. -/
def Obligations.CoreControlRegisters : Prop :=
  (∀ (c : Fin 50) (w : Word) (x : CoreSt) (t s : State),
     Issues s c.val .csrr w x t → fCsr w ≠ 0x140 → fCsr w ≠ 0x010 →
       exec (.h32Csrr c) s = .next (gives c.val 1 (csrValue (busyCycle .csrr t c.val) c.val x (fCsr w)) w x (busyCycle .csrr t c.val))) ∧
  (∀ (c : Fin 50) (w : Word) (x : CoreSt) (t s : State),
     Issues s c.val .csrr w x t → fCsr w = 0x010 →
       exec (.h32Csrr c) s = .next (gives c.val 1 (w32 x.cyc) w { x with cycHi := w32 (x.cyc / 0x100000000) } (busyCycle .csrr t c.val))) ∧
  (∀ (c : Fin 50) (w : Word) (k : Nat) (x : CoreSt) (t s : State),
     Issues s c.val .csrw w x t → fCsr w ≠ 0x140 → fCsr w ≠ 0x010 → csrAcc c.val (fCsr w) = some (.rw k) →
       exec (.h32Csrw c) s = .next (coreSet (busyCycle .csrw t c.val) c.val (retire (flies (flies x 1 (fRd w) (csrValue (busyCycle .csrw t c.val) c.val x (fCsr w))) 3 (32 + fCsr w) ((greg x (fRs1 w)) &&& w32 k))))) ∧
  (∀ (c : Fin 50) (w : Word) (k : Nat) (x : CoreSt) (t s : State),
     Issues s c.val .csrs w x t → fCsr w ≠ 0x140 → fCsr w ≠ 0x010 → csrAcc c.val (fCsr w) = some (.rw k) →
       exec (.h32Csrs c) s = .next (coreSet (busyCycle .csrs t c.val) c.val (retire (flies (flies x 1 (fRd w) (csrValue (busyCycle .csrs t c.val) c.val x (fCsr w))) 3 (32 + fCsr w) ((csrValue (busyCycle .csrs t c.val) c.val x (fCsr w) ||| greg x (fRs1 w)) &&& w32 k))))) ∧
  (∀ (c : Fin 50) (w : Word) (k : Nat) (x : CoreSt) (t s : State),
     Issues s c.val .csrc w x t → fCsr w ≠ 0x140 → fCsr w ≠ 0x010 → csrAcc c.val (fCsr w) = some (.rw k) →
       exec (.h32Csrc c) s = .next (coreSet (busyCycle .csrc t c.val) c.val (retire (flies (flies x 1 (fRd w) (csrValue (busyCycle .csrc t c.val) c.val x (fCsr w))) 3 (32 + fCsr w) ((csrValue (busyCycle .csrc t c.val) c.val x (fCsr w) &&& ~~~ greg x (fRs1 w)) &&& w32 k))))) ∧
  (∀ (c : Fin 50) (w : Word) (x : CoreSt) (t s : State),
     Issues s c.val .csrw w x t → fCsr w = 0x140 → greg x (fRs1 w) = 0x5A5A#32 →
       exec (.coreWdtKick c) s = .next (coreSet (busyCycle .csrw t c.val) c.val
         (retire { flies x 1 (fRd w) 0 with wdtAt := (busyCycle .csrw t c.val).time.tense }))) ∧
  (∀ (c : Fin 50) (w : Word) (x : CoreSt) (t s : State),
     Issues s c.val .eret w x t → c.val < 48 →
       exec (.h32Eret c) s = .next (let v := csrHeld c.val x csrSTATUS
         coreSet (busyCycle .eret t c.val) c.val { csrSet x csrSTATUS (setBit (setBit v 0 (bit v 1)) 2 false) with
           pc := csrHeld c.val x csrEPC &&& 0xFFFFFFFC#32, cyc := x.cyc + 1, rptFrom := true })) ∧
  (∀ (c : Fin 50) (w : Word) (x : CoreSt) (t s : State),
     Issues s c.val .eret w x t → 48 ≤ c.val →
       exec (.h32Eret c) s = .next (let v := csrHeld c.val x csrSTATUS
         let v1 := setBit (setBit v 0 (bit v 1)) 2 false
         coreSet t c.val { csrSet x csrSTATUS (setBit v1 3 (bit v 4)) with
           pc := csrHeld c.val x csrEPC &&& 0xFFFFFFFC#32, cyc := x.cyc + 1, rptFrom := true }))

/-- ECALL and EBREAK raise their codes, and EBREAK halts a core that may be debugged; every instruction that raises
something takes that exception; EXCEPTION_ENTRY takes what the next instruction raises, a fetch that fails, a word
that is no instruction, or TCM_ECC on the SSP and MGP; an interrupt takes the lowest pending line at a boundary or
out of a wait; the bus error of a posted store raises STORE_ASYNC; while EXL is set an exception stops the core. -/
def Obligations.CoreExceptions : Prop :=
  (∀ (c : Fin 50) (o : HOp) (i : Instr) (w : Word) (x : CoreSt) (t : State) (r : Raise) (s : State),
     (o, i) ∈ ([(.add, .h32Add c), (.sub, .h32Sub c), (.neg, .h32Neg c), (.and, .h32And c), (.or, .h32Or c),
     (.xor,     .h32Xor c), (.andn, .h32Andn c), (.slt, .h32Slt c), (.sltu, .h32Sltu c), (.sll, .h32Sll c),
     (.srl,     .h32Srl c), (.sra, .h32Sra c), (.clz, .h32Clz c), (.sextb, .h32Sextb c), (.sexth, .h32Sexth c),
     (.addi, .h32Addi c), (.andi, .h32Andi c), (.ori, .h32Ori c), (.xori, .h32Xori c), (.slti, .h32Slti     c),
     (.sltiu, .h32Sltiu c), (.lui, .h32Lui c), (.slli, .h32Slli c), (.srli, .h32Srli c), (.srai,     .h32Srai
     c), (.mul, .h32Mul c), (.mulh, .h32Mulh c), (.mulhu, .h32Mulhu c), (.div, .h32Div c),     (.divu, .h32Divu
     c), (.rem, .h32Rem c), (.remu, .h32Remu c), (.lw, .h32Lw c), (.lh, .h32Lh c),     (.lhu, .h32Lhu c), (.lb,
     .h32Lb c), (.lbu, .h32Lbu c), (.lwpi, .h32Lwpi c), (.sw, .h32Sw c), (.sh,     .h32Sh c), (.sb, .h32Sb c),
     (.swpi, .h32Swpi c), (.beq, .h32Beq c), (.bne, .h32Bne c), (.blt,     .h32Blt c), (.bge, .h32Bge c),
     (.bltu, .h32Bltu c), (.bgeu, .h32Bgeu c), (.jal, .h32Jal c), (.jalr,     .h32Jalr c), (.rpt, .h32Rpt c),
     (.rptu, .h32Rptu c), (.wfe, .h32Wfe c), (.wfet, .h32Wfet c),     (.waitt, .h32Waitt c), (.sev, .h32Sev c),
     (.eret, .h32Eret c), (.ecall, .h32Ecall c), (.ebreak,     .h32Ebreak c), (.csrr, .h32Csrr c), (.csrw,
     .h32Csrw c), (.csrs, .h32Csrs c), (.csrc, .h32Csrc c)] : List (HOp × Instr)) → Trips s c.val o w x t r →
       (exec i s = .next (coreSet t c.val (takeException c.val x r)) ∧
        exec (.exceptionEntry c none) s = .next (coreSet t c.val (takeException c.val x r)))) ∧
  (∀ (c : Fin 50) (o : HOp) (i : Instr) (s : State),
     (o, i) ∈ ([(.add, .h32Add c), (.sub, .h32Sub c), (.neg, .h32Neg c), (.and, .h32And c), (.or, .h32Or c),
     (.xor,     .h32Xor c), (.andn, .h32Andn c), (.slt, .h32Slt c), (.sltu, .h32Sltu c), (.sll, .h32Sll c),
     (.srl,     .h32Srl c), (.sra, .h32Sra c), (.clz, .h32Clz c), (.sextb, .h32Sextb c), (.sexth, .h32Sexth c),
     (.addi, .h32Addi c), (.andi, .h32Andi c), (.ori, .h32Ori c), (.xori, .h32Xori c), (.slti, .h32Slti     c),
     (.sltiu, .h32Sltiu c), (.lui, .h32Lui c), (.slli, .h32Slli c), (.srli, .h32Srli c), (.srai,     .h32Srai
     c), (.mul, .h32Mul c), (.mulh, .h32Mulh c), (.mulhu, .h32Mulhu c), (.div, .h32Div c),     (.divu, .h32Divu
     c), (.rem, .h32Rem c), (.remu, .h32Remu c), (.lw, .h32Lw c), (.lh, .h32Lh c),     (.lhu, .h32Lhu c), (.lb,
     .h32Lb c), (.lbu, .h32Lbu c), (.lwpi, .h32Lwpi c), (.sw, .h32Sw c), (.sh,     .h32Sh c), (.sb, .h32Sb c),
     (.swpi, .h32Swpi c), (.beq, .h32Beq c), (.bne, .h32Bne c), (.blt,     .h32Blt c), (.bge, .h32Bge c),
     (.bltu, .h32Bltu c), (.bgeu, .h32Bgeu c), (.jal, .h32Jal c), (.jalr,     .h32Jalr c), (.rpt, .h32Rpt c),
     (.rptu, .h32Rptu c), (.wfe, .h32Wfe c), (.wfet, .h32Wfet c),     (.waitt, .h32Waitt c), (.sev, .h32Sev c),
     (.eret, .h32Eret c), (.ecall, .h32Ecall c), (.ebreak,     .h32Ebreak c), (.csrr, .h32Csrr c), (.csrw,
     .h32Csrw c), (.csrs, .h32Csrs c), (.csrc, .h32Csrc c)] : List (HOp × Instr)) → atBoundary s c.val = none →
       (exec i s = .next s ∧ exec (.exceptionEntry c none) s = .next s)) ∧
  (∀ (c : Fin 50) (w : Word) (x : CoreSt) (t s : State),
     atBoundary s c.val = some (x, t) → fetchWord t c.val x x.pc = .inr w → opOf w = some .ecall → x.delay =
     none →
       exec (.h32Ecall c) s = .next (coreSet t c.val (takeException c.val x (exEcall, 0)))) ∧
  (∀ (c : Fin 50) (w : Word) (x : CoreSt) (t s : State),
     atBoundary s c.val = some (x, t) → fetchWord t c.val x x.pc = .inr w → opOf w = some .ebreak → x.delay =
     none → haltsFor t c.val = false →
       exec (.h32Ebreak c) s = .next (coreSet t c.val (takeException c.val x (exEbreak, 0)))) ∧
  (∀ (c : Fin 50) (w : Word) (x : CoreSt) (t s : State),
     Issues s c.val .ebreak w x t →
       exec (.h32Ebreak c) s = .next (coreSet (busyCycle .ebreak t c.val) c.val { x with run := .halted })) ∧
  (∀ (c : Fin 50) (r : Raise) (x : CoreSt) (t s : State),
     atBoundary s c.val = some (x, t) → fetchWord t c.val x x.pc = .inl r →
       exec (.exceptionEntry c none) s = .next (coreSet t c.val (takeException c.val x r))) ∧
  (∀ (c : Fin 50) (w : Word) (x : CoreSt) (t s : State),
     atBoundary s c.val = some (x, t) → fetchWord t c.val x x.pc = .inr w → opOf w = none →
       exec (.exceptionEntry c none) s = .next (coreSet t c.val (takeException c.val x (exIllegal, w)))) ∧
  (∀ (c : Fin 50) (a : Word) (x : CoreSt) (t s : State),
     48 ≤ c.val → atBoundary s c.val = some (x, t) →
       exec (.exceptionEntry c (some a)) s = .next (coreSet t c.val (takeException c.val x (exEcc, a)))) ∧
  (∀ (c : Fin 50) (r : Raise) (x : CoreSt),
     statB c.val x 2 = false → x.land = [] → x.rpt = none → x.delay = none →
       (let y := takeException c.val x r
        y.pc = csrHeld c.val x csrEVEC ∧ csrHeld c.val y csrEPC = x.pc ∧ csrHeld c.val y csrECAUSE = w32 r.1 ∧
        csrHeld c.val y csrEADDR = r.2 ∧ csrHeld c.val y csrSTATUS = entryStatus c.val (csrHeld c.val x csrSTATUS) ∧
        y.g = x.g ∧ y.run = .run ∧ y.cyc = x.cyc + 2)) ∧
  (∀ (c : Fin 50) (r : Raise) (x : CoreSt),
     statB c.val x 2 = true →
       takeException c.val x r = { x with run := .stopped }) ∧
  (∀ (c : Fin 50) (i : Nat) (s : State),
     coreUp s c.val = true → (coreOf s c.val).run = .run → interruptDue s c.val (landTo c.val (coreOf s c.val)
     (coreOf s c.val).cyc) = some i →
       exec (.interruptEntry c) s = .next (coreSet s c.val
         (enter c.val (landTo c.val (coreOf s c.val) (coreOf s c.val).cyc) (w32 (0x80000000 + i)) none))) ∧
  (∀ (c : Fin 50) (q : CoreWait) (i : Nat) (s : State),
     coreUp s c.val = true → (coreOf s c.val).run = .wait → (coreOf s c.val).wait = some q → pendingLine s
     c.val (cutWait s c.val q) = some i →
       exec (.interruptEntry c) s = .next (coreSet s c.val (enter c.val (cutWait s c.val q) (w32 (0x80000000 + i)) none))) ∧
  (∀ (c : Fin 50) (s : State),
     (coreOf s c.val).run = .run → interruptDue s c.val (landTo c.val (coreOf s c.val) (coreOf s c.val).cyc) =
     none →
       exec (.interruptEntry c) s = .next s) ∧
  (∀ (c : Fin 50) (a : Word) (r : List Word) (s : State),
     (coreOf s c.val).async = a :: r → (coreOf s c.val).run = .run → coreUp s c.val = true →
       exec (.storeAsync c) s = .next (coreSet s c.val
         (takeException c.val (landTo c.val { coreOf s c.val with async := r } (coreOf s c.val).cyc) (exAsync, a)))) ∧
  (∀ (c : Fin 50) (s : State),
     (coreOf s c.val).async = [] ∨ (coreOf s c.val).run ≠ .run ∨ coreUp s c.val = false →
       exec (.storeAsync c) s = .next s)

/-- A new KIND or ENGINE of a STABLE bank starts a hand-over, and one that arrives in between and does not restore
the old owner leaves both as they are and raises interrupt 1; fixed banks keep theirs; the drain ends when the
switch's cells have left, then the bank is zeroed if ZERO is set and becomes STABLE otherwise; a power request acts
on a STABLE bank; a bank that returns from RETAIN becomes available. Nothing else changes. -/
def Obligations.BankHandOver : Prop :=
  (∀ (m : Master) (b : Fin 512) (v : Word) (s : State),
     MayWrite s m (BNK_BANK_CTRL b.val) → b.val < 496 → fld v 27 24 < 7 → fld v 9 8 = 0 → bankState s b.val = 0
     → fld v 27 24 ≠ getF s (BNK_BANK_CTRL b.val) 27 24 ∨ fld v 21 16 ≠ getF s (BNK_BANK_CTRL b.val) 21 16 →
       exec (.bankCtrlWrite m b v) s = .next (answer (startHandOver s b.val (setFld (setFld (setFld (setFld (setFld
         (getR s (BNK_BANK_CTRL b.val)) 9 8 0) 1 1 (fld v 1 1)) 4 4 (fld v 4 4)) 27 24 (fld v 27 24)) 21 16 (fld v 21 16))) 0)) ∧
  (∀ (m : Master) (b : Fin 512) (v : Word) (s : State),
     MayWrite s m (BNK_BANK_CTRL b.val) → b.val < 496 → fld v 27 24 < 7 → fld v 9 8 = 0 → bankState s b.val = 0
     → fld v 27 24 = getF s (BNK_BANK_CTRL b.val) 27 24 → fld v 21 16 = getF s (BNK_BANK_CTRL b.val) 21 16 →
       exec (.bankCtrlWrite m b v) s = .next (answer (applyBankPwr (setR s (BNK_BANK_CTRL b.val) (setFld (setFld (setFld (setFld (setFld
         (getR s (BNK_BANK_CTRL b.val)) 9 8 0) 1 1 (fld v 1 1)) 4 4 (fld v 4 4)) 27 24 (fld v 27 24)) 21 16 (fld v 21 16))) b.val) 0)) ∧
  (∀ (m : Master) (b : Fin 512) (v : Word) (s : State),
     MayWrite s m (BNK_BANK_CTRL b.val) → 496 ≤ b.val → bankState s b.val = 0 →
       Ends (.bankCtrlWrite m b v) s fun t =>
         getF t (BNK_BANK_CTRL b.val) 27 24 = getF s (BNK_BANK_CTRL b.val) 27 24 ∧
         getF t (BNK_BANK_CTRL b.val) 21 16 = getF s (BNK_BANK_CTRL b.val) 21 16 ∧ t.sw = s.sw) ∧
  (∀ (m : Master) (b : Fin 512) (v o : Word) (s : State),
     MayWrite s m (BNK_BANK_CTRL b.val) → b.val < 496 → fld v 27 24 < 7 → fld v 9 8 = 0 → bankState s b.val ≠ 0
     → sfind s.bnk.old b.val = some o → fld v 27 24 ≠ getF s (BNK_BANK_CTRL b.val) 27 24 → fld v 27 24 ≠ fld o
     27 24 →
       exec (.bankCtrlWrite m b v) s = .next (answer (raiseIrq (setR s (BNK_BANK_CTRL b.val) (setFld (setFld (setFld
         (getR s (BNK_BANK_CTRL b.val)) 9 8 0) 1 1 (fld v 1 1)) 4 4 (fld v 4 4))) BNK 1) 0)) ∧
  (∀ (b : Fin 512) (s : State),
     bankState s b.val = 1 → drained s b.val = true →
       exec (.drainComplete b) s = .next
         (if getB s (BNK_BANK_CTRL b.val) 1 then putBankState s b.val 2 else bankStable s b.val)) ∧
  (∀ (b : Fin 512) (s : State),
     bankState s b.val ≠ 1 ∨ drained s b.val = false →
       exec (.drainComplete b) s = .next s) ∧
  (∀ (b : Fin 512) (s : State),
     bankState s b.val = 2 →
       exec (.zeroingComplete b) s = .next
         (if (sfind s.bnk.old b.val).isSome then bankStable (zeroBank s b.val) b.val
          else applyBankPwr (putBankPwr (putBankState (zeroBank s b.val) b.val 0) b.val 0) b.val)) ∧
  (∀ (b : Fin 512) (s : State), bankState s b.val ≠ 2 → exec (.zeroingComplete b) s = .next s) ∧
  (∀ (b : Fin 512) (s : State) (a : Nat),
     bankState s b.val = 2 → bankLo b.val ≤ a → a < bankLo (b.val + 1) →
       Ends (.zeroingComplete b) s fun t => memRead t.mem a = 0) ∧
  (∀ (m : Master) (b : Fin 512) (q : BitVec 2) (s : State),
     MayWrite s m (BNK_BANK_CTRL b.val) →
       exec (.bankPowerRequest m b q) s = .next
         (answer (bankCtrl b.val (setFld (getR s (BNK_BANK_CTRL b.val)) 9 8 q.toNat) s) 0)) ∧
  (∀ (m : Master) (b : Fin 512) (s : State),
     MayWrite s m (BNK_BANK_CTRL b.val) → b.val < 496 → bankState s b.val = 0 → bankPwr s b.val = 0 → bankKind
     s b.val ≠ kSwitch → getF s (BNK_BANK_CTRL b.val) 27 24 < 7 →
       Ends (.bankPowerRequest m b 1) s fun t => bankPwr t b.val = 1 ∧ bankState t b.val = 0 ∧ Only [.regs, .resp] s t) ∧
  (∀ (b : Fin 512) (s : State),
       exec (.bankWakeComplete b) s = .next
         (if bankState s b.val = 3 then applyBankPwr (putBankPwr (putBankState s b.val 0) b.val 0) b.val else s))

/-- REPLACE puts a FREE and STABLE bank on the lowest free spare, which the health record then lists, and otherwise
reports why not; SCRUB_BANK completes; a scrubbed row corrects or poisons its halves, moves SCRUB_POS on and is held
to the scrubber's pace; the oldest write-back ends; of two writes to one exchange row port A lands, unless it would
cover a poisoned half in part, and port B is counted and its master told; an access that a bank does not admit is
recorded; DENY_COUNT clears as it is read. Nothing else changes. -/
def Obligations.BankErrorsAndRepair : Prop :=
  (∀ (m : Master) (v : Word) (p : Nat) (s : State),
     MayWrite s m BNK_CMD → fld v 25 16 < 512 → bankKind s (fld v 25 16) = kFree → bankState s (fld v 25 16) =
     0 → freeSpare s = some p →
       exec (.replace m v) s = .next (answer (bnkCmdEnd (healthBank (substitute s (fld v 25 16) p) (fld v 25 16) p) 0) 0)) ∧
  (∀ (m : Master) (v : Word) (s : State),
     MayWrite s m BNK_CMD → fld v 25 16 < 512 → bankKind s (fld v 25 16) ≠ kFree ∨ bankState s (fld v 25 16) ≠
     0 →
       exec (.replace m v) s = .next (answer (bnkCmdEnd s 2) 0)) ∧
  (∀ (m : Master) (v : Word) (s : State),
     MayWrite s m BNK_CMD → fld v 25 16 < 512 → bankKind s (fld v 25 16) = kFree → bankState s (fld v 25 16) =
     0 → freeSpare s = none →
       exec (.replace m v) s = .next (answer (bnkCmdEnd s 3) 0)) ∧
  (∀ (m : Master) (v : Word) (s : State),
     MayWrite s m BNK_CMD →
       exec (.scrubBank m v) s = .next (answer (bnkCmdEnd s (if fld v 25 16 < 512 then 0 else 4)) 0)) ∧
  (∀ (m : Master) (v : Word) (s : State),
     MayWrite s m BNK_CMD → 512 ≤ fld v 25 16 →
       exec (.replace m v) s = .next (answer (bnkCmdEnd s 4) 0)) ∧
  (∀ (b : Fin 512) (row : Fin 8192) (lo hi : EccKind) (s : State),
     bankPwr s b.val = 0 → ¬(b.val = 511 ∧ row.val = 8191) →
       exec (.scrubRow b row lo hi) s = .next
         (let h := (bankLo b.val + row.val * 16) / 8
          scrubPace (setR (eccHalf (eccHalf s b.val h 0 lo) b.val (h + 1) 0 hi) BNK_SCRUB_POS
            (if row.val = 8191 then w32 ((b.val + 1) * 65536) else w32 (b.val * 65536 + row.val + 1))))) ∧
  (∀ (b : Fin 512) (row : Fin 8192) (s : State),
     bankPwr s b.val = 0 → ¬(b.val = 511 ∧ row.val = 8191) →
       exec (.scrubRow b row .clean .clean) s = .next (scrubPace (setR s BNK_SCRUB_POS
         (if row.val = 8191 then w32 ((b.val + 1) * 65536) else w32 (b.val * 65536 + row.val + 1))))) ∧
  (∀ (b : Fin 512) (row : Fin 8192) (s : State),
     bankPwr s b.val = 0 → ¬(b.val = 511 ∧ row.val = 8191) →
       exec (.scrubRow b row .single .double) s = .next
         (let h := (bankLo b.val + row.val * 16) / 8
          scrubPace (setR (eccPoison (eccCorrect s b.val h) b.val (h + 1) 0) BNK_SCRUB_POS
            (if row.val = 8191 then w32 ((b.val + 1) * 65536) else w32 (b.val * 65536 + row.val + 1))))) ∧
  (∀ (lo hi : EccKind) (s : State),
     bankPwr s 511 = 0 →
       exec (.scrubRow 511 8191 lo hi) s = .next
         (let h := (bankLo 511 + 8191 * 16) / 8
          let s1 := setR (eccHalf (eccHalf s 511 h 0 lo) 511 (h + 1) 0 hi) BNK_SCRUB_POS 0
          scrubPace (raiseIrq (bump { s1 with bnk := { s1.bnk with passCe := [], passFrom := s1.time.aonNs } } BNK_SCRUB_PASSES) BNK 6))) ∧
  (∀ (b : Fin 512) (row : Fin 8192) (lo hi : EccKind) (s : State),
     bankPwr s b.val = 0 → ¬(b.val = 511 ∧ row.val = 8191) →
       Ends (.scrubRow b row lo hi) s fun t =>
         let h := (bankLo b.val + row.val * 16) / 8
         let u := setR (eccHalf (eccHalf s b.val h 0 lo) b.val (h + 1) 0 hi) BNK_SCRUB_POS
            (if row.val = 8191 then w32 ((b.val + 1) * 65536) else w32 (b.val * 65536 + row.val + 1))
         getB t BNK_STATUS 31 = decide (64 < scrubLag u)) ∧
  (∀ (b : Fin 512) (row : Fin 8192) (lo hi : EccKind) (s : State),
     bankPwr s b.val ≠ 0 →
       exec (.scrubRow b row lo hi) s = .next s) ∧
  (∀ (s : State),
       exec .eccWriteback s = .next { s with bnk := { s.bnk with writeback := s.bnk.writeback.drop 1 } }) ∧
  (∀ (a : Word) (mA mB : Master) (l : List Byte) (s : State),
     inShared a.toNat 1 = true → 496 ≤ bankOf a.toNat →
       exec (.collide a mA l mB) s = .next
         (let lo := memKey a.toNat / 16 * 16
          let l1 := l.take (lo + 16 - memKey a.toNat)
          let s1 := if poisonPartial s a.toNat l1.length then s else wrBytes (coverHalves s a.toNat l1.length) a.toNat l1
          collideEnd (raiseIrq (bump (bump s1 (BNK_COLLIDE (bankOf a.toNat))) BNK_COLLIDE_TOTAL) BNK 4) mB a.toNat lo)) ∧
  (∀ (a : Word) (mA mB : Master) (l : List Byte) (s : State),
     inShared a.toNat 1 = false ∨ bankOf a.toNat < 496 →
       exec (.collide a mA l mB) s = .next s) ∧
  (∀ (m : Master) (a : Word) (w : Bool) (u : State) (q : FabStat) (s : State),
     fabJudge s m a.toNat 1 w false = (u, q) → q ≠ .ok →
       exec (.bankDenial m a w) s = .next (answerErr u)) ∧
  (∀ (m : Master) (a : Word) (w : Bool) (u : State) (s : State),
     fabJudge s m a.toNat 1 w false = (u, .ok) →
       exec (.bankDenial m a w) s = .next (answer u 0)) ∧
  (∀ (m : Master) (s : State),
     MayRead s m BNK_DENY_COUNT →
       exec (.bnkDenyCountRead m) s = .next (answer (setR s BNK_DENY_COUNT 0) (getR s BNK_DENY_COUNT)))

/-- A transmit descriptor is read as the next item of the ring served next, and a fetch that fails halts the ring; a
well-formed descriptor's frame enters at port 208 and its completion is written; a receive frame goes to the ring of
its class as far as descriptors last; nothing moves while the interface is off; TAIL is taken, EN sets PHASE to 1
and clears HALTED, clearing EN stops the ring after a frame in progress, and MOD_US ends with the ring's line.
Nothing else changes. -/
def Obligations.HostRings : Prop :=
  (∀ (d buf : List Byte) (f : HostFetch) (r : Nat) (s : State),
     hifOn s = true → accepting s = true → txNext s = some r → f ≠ .descErr →
       exec (.hostTxDescriptor d buf f) s = .next (txItem s r (slice d 0 32) buf f)) ∧
  (∀ (d buf : List Byte) (f : HostFetch) (r : Nat) (s : State),
     hifOn s = true → accepting s = true → txNext s = some r → f = .ok → txDescOk (slice d 0 32) = true → (leAt
     (slice d 0 32) 10 1).testBit 2 = false →
       exec (.hostTxDescriptor d buf f) s = .next
         (let e := slice d 0 32
          let c : Completion :=
            { slot := getF s (rgHEAD r) 11 0, tag := ringTag s r, cookie := leAt e 16 4, irq := (leAt e 10 1).testBit 1
              eof := true, sof := true, reason := 0, moved := 0 }
          let s0 := ringRead s r
          let s1 : State := { s0 with hif := { s0.hif with txPtr := (r + 1) % 16 } }
          let b := slice buf 0 (leAt e 8 2)
          let a : Arrival :=
            { plainArrival s1 208 b with
              itemTag := ringTag s r
              direct := if (leAt e 10 1).testBit 0 then some (leAt e 11 1, leAt e 12 1) else none }
          ringComplete (bump (swIngress s1 a).1 HIF_TX_FRAMES) r { c with moved := b.length })) ∧
  (∀ (d buf : List Byte) (f : HostFetch) (r : Nat) (s : State),
     hifOn s = true → accepting s = true → txNext s = some r → f ≠ .descErr → txDescOk (slice d 0 32) = false →
       exec (.hostTxDescriptor d buf f) s = .next
         (let e := slice d 0 32
          let s0 := ringRead s r
          ringComplete { s0 with hif := { s0.hif with txPtr := (r + 1) % 16 } } r
            { slot := getF s (rgHEAD r) 11 0, tag := ringTag s r, cookie := leAt e 16 4, irq := (leAt e 10 1).testBit 1
              eof := true, sof := true, reason := 1, moved := 0 })) ∧
  (∀ (d buf : List Byte) (r : Nat) (s : State),
     hifOn s = true → accepting s = true → txNext s = some r →
       exec (.hostTxDescriptor d buf .descErr) s = .next
         (raiseIrq (putB (putB (putB s (rgSTATUS r) 31 true) (rgSTATUS r) 0 false) (rgCTRL r) 0 false) HIF 2)) ∧
  (∀ (d buf : List Byte) (f : HostFetch) (s : State),
     hifOn s = false ∨ accepting s = false ∨ txNext s = none →
       exec (.hostTxDescriptor d buf f) s = .next s) ∧
  (∀ (l : List (List Byte)) (f : HostFetch) (s : State),
     (s.sw.sink.find? fun e => decide (e.port = 208)) = none →
       exec (.hostRxFrame l f) s = .next s) ∧
  (∀ (l : List (List Byte)) (f : HostFetch) (e : SinkEnt) (fr : Frame) (q : Nat) (s : State),
     (s.sw.sink.find? fun e => decide (e.port = 208)) = some e → frameOf s e.fid = some fr → rxRun s fr = true
     → exitFault fr e.rf = some q →
       exec (.hostRxFrame l f) s = .next
         (exitDrop { s with sw := { s.sw with sink := s.sw.sink.erase e } } 208 fr.tc e.fid fr q)) ∧
  (∀ (l : List (List Byte)) (f : HostFetch) (e : SinkEnt) (fr : Frame) (x : State × Bool × List Byte) (s :
     State),
     (s.sw.sink.find? fun e => decide (e.port = 208)) = some e → frameOf s e.fid = some fr → rxRun s fr = true
     → exitFault fr e.rf = none → (ringSt s (rxRingOf s fr)).part = none → rxFill s (rxRingOf s fr) l false
     (headBytes s fr ++ delivered s 208 fr) = x → x.2.2 = [] →
       exec (.hostRxFrame l f) s = .next
         (let s1 := ringMod x.1 (rxRingOf s fr) fun y => { y with part := none }
          let s2 : State := { s1 with sw := { s1.sw with sink := s1.sw.sink.erase e } }
          ringStopped (unref (bump s2 HIF_RX_FRAMES) e.fid) (rxRingOf s fr))) ∧
  (∀ (l : List (List Byte)) (f : HostFetch) (e : SinkEnt) (fr : Frame) (x : State × Bool × List Byte) (s :
     State),
     (s.sw.sink.find? fun e => decide (e.port = 208)) = some e → frameOf s e.fid = some fr → rxRun s fr = true
     → exitFault fr e.rf = none → (ringSt s (rxRingOf s fr)).part = none → rxFill s (rxRingOf s fr) l false
     (headBytes s fr ++ delivered s 208 fr) = x → x.2.2 ≠ [] →
       exec (.hostRxFrame l f) s = .next
         (let s1 := ringMod x.1 (rxRingOf s fr) fun y => { y with part := if x.2.1 then some (true, x.2.2) else none }
          if f = .descErr ∧ ringHas s1 (rxRingOf s fr) = true then ringHalt s1 (rxRingOf s fr) else s1)) ∧
  (∀ (l : List (List Byte)) (f : HostFetch) (e : SinkEnt) (fr : Frame) (s : State),
     (s.sw.sink.find? fun e => decide (e.port = 208)) = some e → frameOf s e.fid = some fr → rxRun s fr = false
     →
       exec (.hostRxFrame l f) s = .next s) ∧
  (∀ (m : Master) (r : Fin 32) (v : Word) (s : State),
     MayWrite s m (rgTAIL r.val) →
       Ends (.tailWrite m r v) s fun t =>
         getF t (rgTAIL r.val) 11 0 = fld v 11 0 ∧ (∀ a, a ≠ rgTAIL r.val → getR t a = getR s a) ∧ Only [.regs, .resp] s t) ∧
  (∀ (m : Master) (r : Fin 32) (v : Word) (s : State),
     MayWrite s m (rgCTRL r.val) → getB s (rgCTRL r.val) 0 = false →
       Ends (.ringEnable m r v) s fun t =>
         getB t (rgCTRL r.val) 0 = true ∧ getB t (rgSTATUS r.val) 0 = true ∧ getB t (rgSTATUS r.val) 31 = false ∧
         (ringSt t r.val).ph = true ∧ (ringSt t r.val).count = (ringSt s r.val).count ∧ Only [.regs, .hif, .resp] s t) ∧
  (∀ (m : Master) (r : Fin 32) (v : Word) (s : State),
     MayWrite s m (rgCTRL r.val) → getB s (rgCTRL r.val) 0 = true → (ringSt s r.val).part = none →
       Ends (.ringStop m r v) s fun t =>
         getB t (rgCTRL r.val) 0 = false ∧ getB t (rgSTATUS r.val) 0 = false ∧ t.hif = s.hif ∧ Only [.regs, .resp] s t) ∧
  (∀ (m : Master) (r : Fin 32) (v : Word) (s : State),
     MayWrite s m (rgCTRL r.val) → getB s (rgCTRL r.val) 0 = true → (ringSt s r.val).part ≠ none →
       Ends (.ringStop m r v) s fun t =>
         getB t (rgCTRL r.val) 0 = false ∧ getR t (rgSTATUS r.val) = getR s (rgSTATUS r.val) ∧ (ringSt t r.val).stopping = true ∧
         Only [.regs, .hif, .resp] s t) ∧
  (∀ (r : Fin 32) (s : State),
     (ringSt s r.val).recs ≠ 0 → getB s (rgIRQ r.val) 0 = false →
       exec (.modUsExpiry r) s = .next (ringPend
         (advanceNs s ((ringSt s r.val).firstAt.toNat + getF s (rgCTRL r.val) 31 16 * 1000)) r.val true)) ∧
  (∀ (r : Fin 32) (s : State),
     (ringSt s r.val).recs = 0 ∨ getB s (rgIRQ r.val) 0 = true →
       exec (.modUsExpiry r) s = .next s)

/-- PERST_N, a Function Level Reset and the loss of the link end the items in flight, disable every ring, abandon a
frame in progress and free the host's locks; PERST_N also takes the configuration space and the link down; its
release brings the configuration space back with the subsystem IDs as they stand; a link that trains to a width and
a speed comes up and sends what it held back. Nothing else changes. -/
def Obligations.HostLinkAndResets : Prop :=
  (∀ (cut : List (Fin 32 × Nat)) (s : State),
       (let down := freeLocksOf mHost ((List.range 32).foldl ringKill ((cut.map fun e => (e.1.val, e.2)).foldl (fun t e => ringLost t e.1 e.2) s))
        exec (.perstAssert .perst cut) s = .next
          (raiseIrq (linkPut 0 { down with hif := { down.hif with perst := true, cfgUp := false } }) HIF 3) ∧
        exec (.perstAssert .flr cut) s = .next (raiseIrq down HIF 3) ∧
        exec (.perstAssert .link cut) s = .next (linkPut 0 down))) ∧
  (∀ (r : Fin 32) (k : Nat) (s : State),
     getB s (rgCTRL r.val) 0 = true → 0 < k → k ≤ (getF s (rgTAIL r.val) 11 0 + ringSize s r.val - getF s
     (rgHEAD r.val) 11 0) % ringSize s r.val → ringSize s r.val ≠ 0 →
       exec (.perstAssert .link [(r, k)]) s = .next (linkPut 0 (freeLocksOf mHost ((List.range 32).foldl ringKill
         (bumpN ((List.range k).foldl (fun t _ => ringRead t r.val)
           (setR (setR s (rgLOSTFIRST r.val) (w32 (ringTag s r.val))) (rgLOSTCOUNT r.val) (w32 k))) HIF_LINK_DOWN_ENDS k))))) ∧
  (∀ (s : State),
       exec .perstRelease s = .next (if s.hif.perst then
         { s with hif := { s.hif with perst := false, cfgUp := !s.sys.held, subsys := getR s HIF_SUBSYS } } else s)) ∧
  (∀ (w : BitVec 3) (v : BitVec 2) (s : State),
     s.hif.cfgUp = true → w = 1 ∨ w = 2 ∨ w = 4 → v ≠ 0 →
       exec (.pcieLinkUp w v) s = .next
         (msixRelease (linkPut (w32 (0x80000000 + w.toNat * 0x100000 + v.toNat * 0x10000)) s))) ∧
  (∀ (w : BitVec 3) (v : BitVec 2) (s : State),
     s.hif.cfgUp = false ∨ (w ≠ 1 ∧ w ≠ 2 ∧ w ≠ 4) ∨ v = 0 →
       exec (.pcieLinkUp w v) s = .next s)

/-- The loss and the return of the 10 MHz input set REF_STATUS and raise a line once; a PLL in REF after a fallback
waits for its source to be written; SET and STEP move a base and restart what hangs on it, or end with FORMAT above
999,999,999 ns; SLEW clamps its rate and CANCEL ends it; PROTECT keeps all but the SSP and MGP from a base; SNAP
copies all four bases in one TIME cycle; a read of TB_NS latches seconds and fraction for its master; a validity
limit ends VALID and marks it. Nothing else changes. -/
def Obligations.TimeBases : Prop :=
  (∀ (s : State),
     getB s TNS_REF_STATUS 1 = true →
       exec .ref10mLoss s = .next (raiseIrq (refFollow (putB s TNS_REF_STATUS 1 false)) TNS 14)) ∧
  (∀ (s : State), getB s TNS_REF_STATUS 1 = false → exec .ref10mLoss s = .next s) ∧
  (∀ (s : State),
     getB s TNS_REF_STATUS 1 = true → getB s TNS_REF_CTRL 0 = true →
       exec .ref10mLoss s = .next (raiseIrq
         (putB (putB (putB s TNS_REF_STATUS 1 false) TNS_REF_STATUS 2 false) TNS_REF_STATUS 3 (getB s TNS_REF_CTRL 8)) TNS 14)) ∧
  (∀ (s : State),
     getB s TNS_REF_STATUS 1 = false →
       exec .ref10mRegain s = .next
         (let s1 := putB s TNS_REF_STATUS 1 true
          raiseIrq (if getB s TNS_REF_STATUS 3 then s1 else refFollow s1) TNS 14)) ∧
  (∀ (s : State), getB s TNS_REF_STATUS 1 = true → exec .ref10mRegain s = .next s) ∧
  (∀ (m : Master) (v : Word) (s : State),
     MayWrite s m TNS_REF_CTRL →
       exec (.refCtrlWrite m v) s = .next
         (answer (refFollow (plainWrite (regDesc .TNS 0 0x048) m ⟨.TNS, 0, TNS⟩ 0x048 v s)) 0)) ∧
  (∀ (m : Master) (b : Fin 4) (v : Word) (s : State),
     MayWrite s m (TNS_RATE b.val) → tbProtected s m b.val = false →
       exec (.rateWrite m b v) s = .next (answer (servoUpdate (setR s (TNS_RATE b.val) v) b.val) 0)) ∧
  (∀ (m : Master) (b : Fin 4) (v : Word) (ppm : BitVec 10) (s : State),
     MayWrite s m (TNS_RATE b.val) → MayWrite s m (TNS_ADJ_CMD b.val) → tbProtected s m b.val = true →
       (exec (.rateWrite m b v) s = .next (answer (deny s errDeniedField m (TNS_RATE b.val) true) 0) ∧
        exec (.adjSet m b) s = .next (answer (deny s errDeniedField m (TNS_ADJ_CMD b.val) true) 0) ∧
        exec (.adjStep m b) s = .next (answer (deny s errDeniedField m (TNS_ADJ_CMD b.val) true) 0) ∧
        exec (.adjSlew m b ppm) s = .next (answer (deny s errDeniedField m (TNS_ADJ_CMD b.val) true) 0) ∧
        exec (.adjCancel m b) s = .next (answer (deny s errDeniedField m (TNS_ADJ_CMD b.val) true) 0))) ∧
  (∀ (m : Master) (b : Fin 4) (s : State),
     MayWrite s m (TNS_ADJ_CMD b.val) → tbProtected s m b.val = false → getF s (TNS_ARG_NS b.val) 29 0 ≤
     999999999 →
       exec (.adjSet m b) s = .next (answer (tbMove (putB s (TNS_ADJ_STATUS b.val) 30 false) b.val
         (((getR64 s (TNS_ARG_SEC_LO b.val)).toNat * 1000000000 + getF s (TNS_ARG_NS b.val) 29 0) * fracOne)) 0)) ∧
  (∀ (m : Master) (b : Fin 4) (s : State),
     MayWrite s m (TNS_ADJ_CMD b.val) → tbProtected s m b.val = false → getF s (TNS_ARG_NS b.val) 29 0 ≤
     999999999 →
       exec (.adjStep m b) s = .next (answer (tbMove (putB s (TNS_ADJ_STATUS b.val) 30 false) b.val
         (Int.toNat ((((tbOf s b.val).v : Int) + ((getR64 s (TNS_ARG_SEC_LO b.val)).toInt * 1000000000 +
           (getF s (TNS_ARG_NS b.val) 29 0 : Int)) * (fracOne : Int)) % (tbMod : Int)))) 0)) ∧
  (∀ (m : Master) (b : Fin 4) (s : State),
     MayWrite s m (TNS_ADJ_CMD b.val) → tbProtected s m b.val = false → 999999999 < getF s (TNS_ARG_NS b.val)
     29 0 →
       (exec (.adjSet m b) s = .next (answer (putB s (TNS_ADJ_STATUS b.val) 30 true) 0) ∧
        exec (.adjStep m b) s = .next (answer (putB s (TNS_ADJ_STATUS b.val) 30 true) 0))) ∧
  (∀ (m : Master) (b : Fin 4) (ppm : BitVec 10) (s : State),
     MayWrite s m (TNS_ADJ_CMD b.val) → tbProtected s m b.val = false →
       exec (.adjSlew m b ppm) s = .next (answer (tbSet (putB s (TNS_ADJ_STATUS b.val) 30 false) b.val
         { tbOf s b.val with
           slew := (getR s (TNS_ARG_SLEW_NS b.val)).toInt * (fracOne : Int), ppm := max 1 (min 1000 ppm.toNat), servo := s.time.tense }) 0)) ∧
  (∀ (m : Master) (b : Fin 4) (s : State),
     MayWrite s m (TNS_ADJ_CMD b.val) → tbProtected s m b.val = false →
       exec (.adjCancel m b) s = .next (answer (tbSet (putB s (TNS_ADJ_STATUS b.val) 30 false) b.val
         { tbOf s b.val with slew := 0, servo := s.time.tense }) 0)) ∧
  (∀ (b : Fin 4) (s : State),
     slewStep (tbOf s b.val).ppm ≠ 0 →
       exec (.slewComplete b) s = .next (advanceCycles s
         (((tbOf s b.val).slew.natAbs + slewStep (tbOf s b.val).ppm - 1) / slewStep (tbOf s b.val).ppm))) ∧
  (∀ (b : Fin 4) (s : State), slewStep (tbOf s b.val).ppm = 0 → exec (.slewComplete b) s = .next s) ∧
  (∀ (b : Fin 4) (s : State),
     getF s (TNS_TB_CTRL b.val) 15 0 ≠ 0 → tbValid s b.val = true →
       exec (.holdLimitExpiry b) s = .next (putB (changeValid
         (advanceNs s ((tbOf s b.val).servo.toNat + getF s (TNS_TB_CTRL b.val) 15 0 * 1000000000)) b.val false) (TNS_TB_CTRL b.val) 28 true)) ∧
  (∀ (b : Fin 4) (s : State),
     getF s (TNS_TB_CTRL b.val) 15 0 = 0 ∨ tbValid s b.val = false →
       exec (.holdLimitExpiry b) s = .next s) ∧
  (∀ (m : Master) (v : Word) (s : State),
     MayWrite s m TNS_SNAP →
       exec (.tnsSnap m v) s = .next (answer (if bit v 0 then
         (List.range 4).foldl (fun t b => setR (setR (setR64 t (TNS_SNAP_SEC_LO b) (BitVec.ofNat 64 (vSec (tbOf s b).v)))
           (TNS_SNAP_NS b) (w32 (vNs (tbOf s b).v))) (TNS_SNAP_FRAC b) (w32 (vFrac (tbOf s b).v)))
           (setR64 s TNS_SNAP_TNOW_LO s.time.tense) else s) 0)) ∧
  (∀ (m : Master) (b : Fin 4) (s : State),
     MayRead s m (TNS_TB_NS b.val) →
       exec (.tbNsRead m b) s = .next (answer
         (setR (setR (setR s (perM m (TNS_TB_SEC_LO b.val)) (lo32 (BitVec.ofNat 64 (vSec (tbOf s b.val).v))))
           (perM m (TNS_TB_SEC_HI b.val)) (hi32 (BitVec.ofNat 64 (vSec (tbOf s b.val).v)))) (perM m (TNS_TB_FRAC b.val))
           (w32 (vFrac (tbOf s b.val).v))) (w32 (vNs (tbOf s b.val).v))))

/-- A filtered transition that its unit takes is recorded with the Tense counter and its base, or counted lost when
the unit holds four; a read of CAP_NS latches and takes the oldest record; TSR_LOST clears as it is read; an output
is armed by EN, its events act at their time and a late one in the next TIME cycle, pulses end; a PPS output pulses
once a second. Nothing else changes. -/
def Obligations.CapturesAndOutputs : Prop :=
  (∀ (i : Fin 10) (up : Bool) (ph : BitVec 2) (s : State),
     capTakes s i.val up = true → (capsOf s i.val).length < 4 →
       exec (.captureEdge i up ph) s = .next
         (let b := getF s (TNS_CAP_CTRL i.val) 30 29
          let v := tbAtPhase s b ph.toNat
          let r : CapRec :=
            { t := s.time.tense + BitVec.ofNat 64 ph.toNat, sec := BitVec.ofNat 64 (vSec v), ns := vNs v, frac := vFrac v
              rising := up, valid := tbValid s b }
          raiseIrq (capsSet s i.val (capsOf s i.val ++ [r])) TNS (2 + i.val))) ∧
  (∀ (i : Fin 10) (up : Bool) (ph : BitVec 2) (s : State),
     capTakes s i.val up = true → 4 ≤ (capsOf s i.val).length →
       exec (.captureEdge i up ph) s = .next (bump (putB s (TNS_CAP_STATUS i.val) 8 true) (TNS_CAP_LOST i.val))) ∧
  (∀ (i : Fin 10) (up : Bool) (ph : BitVec 2) (s : State),
     capTakes s i.val up = false →
       exec (.captureEdge i up ph) s = .next s) ∧
  (∀ (m : Master) (i : Fin 10) (r : CapRec) (l : List CapRec) (s : State),
     MayRead s m (TNS_CAP_NS i.val) → capsOf s i.val = r :: l →
       Ends (.capNsRead m i) s fun t =>
         t.resp = .ok (w32 (nb r.rising * 0x80000000 + nb r.valid * 0x40000000 + r.ns)) ∧ capsOf t i.val = l ∧
         getR t (perM m (TNS_CAP_TNOW_HI i.val)) = hi32 r.t ∧ Only [.regs, .time, .resp] s t) ∧
  (∀ (m : Master) (i : Fin 10) (s : State),
     MayRead s m (TNS_CAP_NS i.val) → capsOf s i.val = [] →
       Ends (.capNsRead m i) s fun t => t.resp = .ok 0x3FFFFFFF#32 ∧ Only [.regs, .resp] s t) ∧
  (∀ (m : Master) (s : State),
     MayRead s m TNS_TSR_LOST →
       exec (.tsrLostRead m) s = .next (answer (setR s TNS_TSR_LOST 0) (getR s TNS_TSR_LOST))) ∧
  (∀ (m : Master) (i : Fin 8) (v : Word) (s : State),
     MayWrite s m (TNS_OUT_CTRL i.val) → fld v 25 24 ≠ 3 → getB s (TNS_OUT_CTRL i.val) 31 = false →
       exec (.outputArm m i v) s = .next (answer (outputsRest (outArm (plainWrite (regDesc .TNS 0 (TNS_OUT_CTRL i.val - TNS)) m
         ⟨.TNS, 0, TNS⟩ (TNS_OUT_CTRL i.val - TNS) (setBit v 31 true) s) i.val)) 0)) ∧
  (∀ (m : Master) (i : Fin 8) (v : Word) (s : State),
     MayWrite s m (TNS_OUT_CTRL i.val) → fld v 25 24 = 3 → getB s (TNS_OUT_CTRL i.val) 31 = false →
       exec (.outputArm m i v) s = .next (answer (outputsRest (outArm (plainWrite (regDesc .TNS 0 (TNS_OUT_CTRL i.val - TNS)) m
         ⟨.TNS, 0, TNS⟩ (TNS_OUT_CTRL i.val - TNS) (setFld (setBit v 31 true) 25 24 (getF s (TNS_OUT_CTRL i.val) 25 24)) s) i.val)) 0)) ∧
  (∀ (m : Master) (i : Fin 8) (v : Word) (s : State),
     MayWrite s m (TNS_OUT_CTRL i.val) → fld v 25 24 ≠ 3 → getB s (TNS_OUT_CTRL i.val) 31 = true →
       exec (.outputArm m i v) s = .next (answer (outputsRest (plainWrite (regDesc .TNS 0 (TNS_OUT_CTRL i.val - TNS)) m
         ⟨.TNS, 0, TNS⟩ (TNS_OUT_CTRL i.val - TNS) (setBit v 31 true) s)) 0)) ∧
  (∀ (i : Fin 8) (e : Nat) (s : State),
     getB s (BLK_CTRL TNS) 0 = true → getB s (TNS_OUT_CTRL i.val) 31 = true → (toutOf s i.val).next = some e →
       exec (.timedOutputEvent i) s = .next (outEvent (if (toutOf s i.val).late then advanceCycles s 1
         else advanceTb s (getF s (TNS_OUT_CTRL i.val) 30 29) e) i.val)) ∧
  (∀ (i : Fin 8) (s : State),
     getB s (BLK_CTRL TNS) 0 = false ∨ getB s (TNS_OUT_CTRL i.val) 31 = false ∨ (toutOf s i.val).next = none →
       exec (.timedOutputEvent i) s = .next s) ∧
  (∀ (i : Fin 8) (w : Nat) (s : State),
     (toutOf s i.val).pulse = some w →
       exec (.pulseEnd i) s = .next
         (toutSet (advanceNs s w) i.val { toutOf (advanceNs s w) i.val with active := false, pulse := none })) ∧
  (∀ (i : Fin 8) (s : State), (toutOf s i.val).pulse = none → exec (.pulseEnd i) s = .next s) ∧
  (∀ (j : Fin 2) (s : State),
     getB s (BLK_CTRL TNS) 0 = true → getB s (TNS_PPS_CTRL j.val) 31 = true →
       exec (.ppsOutputEvent j) s = .next
         (let b := getF s (TNS_PPS_CTRL j.val) 30 29
          let s1 := advanceTb s b (ppsNext s j.val)
          if getB s1 (TNS_PPS_CTRL j.val) 28 && !(tbValid s1 b) then
            ppsSet s1 j.val { ppsOf s1 j.val with last := some (ppsNext s j.val) }
          else ppsSet s1 j.val
            { last := some (ppsNext s j.val)
              fallAt := tenseNs s1 + max 100 (min 999999999 (getR s1 (TNS_PPS_WIDTH j.val)).toNat) })) ∧
  (∀ (j : Fin 2) (s : State),
     getB s (BLK_CTRL TNS) 0 = false ∨ getB s (TNS_PPS_CTRL j.val) 31 = false →
       exec (.ppsOutputEvent j) s = .next s)

/-- A request for DOZE, RETAIN or VAULT that nothing declines starts quiescence for that state, and one for ACTIVE
from a sleep starts the wake; while one is in progress a further request waits in the one place; entry runs when
quiescence holds, is abandoned with a result at its time-out, an enabled wake source that can assert starts the wake
of a sleeping device and abandons a quiescence, any other does nothing, and the wake's end is that of the state
slept in. Pads are released while their domains are on, and a port-group request settles. -/
def Obligations.DeviceStateCommands : Prop :=
  (∀ (m : Master) (s : State),
     MayWrite s m PWR_STATE_REQ → pwrBusy s = false → devState s ≠ 0 →
       exec (.stateReqActive m) s = .next (answer (wakeBegin s 0) 0)) ∧
  (∀ (m : Master) (s : State),
     MayWrite s m PWR_STATE_REQ → pwrBusy s = true →
       exec (.stateReqActive m) s = .next (answer (putF (putB s PWR_STATUS 26 true) PWR_STATUS 25 24 0) 0)) ∧
  (∀ (m : Master) (now : BitVec 14) (s : State),
     MayWrite s m PWR_STATE_REQ → pwrBusy s = false → devState s = 0 → declineOf s 1 now.toNat = none →
       exec (.stateReqDoze m now) s = .next
         (let s1 := putB (putF (putB (putB s PWR_STATUS 31 false) PWR_STATUS 23 true) PWR_STATUS 22 21 1) PWR_STATUS 20 false
          answer { s1 with pwr := { s1.pwr with waking := false, src := 0, at_ := s1.time.tense } } 0)) ∧
  (∀ (m : Master) (now : BitVec 14) (s : State),
     MayWrite s m PWR_STATE_REQ → pwrBusy s = false → devState s = 0 → declineOf s 2 now.toNat = none →
       exec (.stateReqRetain m now) s = .next
         (let s1 := putB (putF (putB (putB s PWR_STATUS 31 false) PWR_STATUS 23 true) PWR_STATUS 22 21 2) PWR_STATUS 20 false
          answer { s1 with pwr := { s1.pwr with waking := false, src := 0, at_ := s1.time.tense } } 0)) ∧
  (∀ (m : Master) (now : BitVec 14) (s : State),
     MayWrite s m PWR_STATE_REQ → pwrBusy s = false → devState s = 0 → declineOf s 3 now.toNat = none →
       exec (.stateReqVault m now) s = .next
         (let s1 := putB (putF (putB (putB s PWR_STATUS 31 false) PWR_STATUS 23 true) PWR_STATUS 22 21 3) PWR_STATUS 20 false
          answer { s1 with pwr := { s1.pwr with waking := false, src := 0, at_ := s1.time.tense } } 0)) ∧
  (∀ (now : BitVec 14) (s : State),
     quiesced s = true →
       exec (.quiescenceComplete now) s = .next
         (let entered := match getF s PWR_STATUS 22 21 with
            | 1 => enterDoze s
            | 2 => enterRetain s
            | _ => enterVault s
          wakeMask now.toNat (pwrNext (pwrResult (putF entered PWR_STATUS 1 0 (getF s PWR_STATUS 22 21)) 0)))) ∧
  (∀ (s : State),
     quiescing s = true →
       exec .quiesceTimeout s = .next
         (pwrNext (pwrResult (advanceNs s (s.pwr.at_.toNat + max 1 (getF s PWR_QUIESCE_US 15 0) * 1000)) 7))) ∧
  (∀ (src : BitVec 14) (s : State),
     devState s ≠ 0 → pwrBusy s = false → wakeHits s src.toNat (devState s) ≠ 0 →
       exec (.wakeSource src) s = .next (wakeBegin s (wakeHits s src.toNat (devState s)))) ∧
  (∀ (src : BitVec 14) (s : State),
     quiescing s = true → wakeHits s src.toNat (getF s PWR_STATUS 22 21) ≠ 0 →
       exec (.wakeSource src) s = .next (pwrAbandon s 8)) ∧
  (∀ (src : BitVec 14) (s : State),
     wakeHits s src.toNat (if quiescing s then getF s PWR_STATUS 22 21 else devState s) = 0 →
       exec (.wakeSource src) s = .next s) ∧
  (∀ (e : BootEnv) (s : State),
     pwrBusy s = true → s.pwr.waking = true → devState s = 1 →
       exec (.wakeComplete e) s = .next
         (let s1 := ptcAtLate (waitsLate (advanceCycles s (min e.us.toNat 40 * 250)))
          lpiFollow (wakeEnds false s1.pwr.src (putF s1 CLK_PLL_STATUS 2 0 7)))) ∧
  (∀ (e : BootEnv) (s : State),
     pwrBusy s = true → s.pwr.waking = true → devState s = 2 →
       exec (.wakeComplete e) s = .next (wakeRetain e.us.toNat s)) ∧
  (∀ (e : BootEnv) (s : State),
     pwrBusy s = true → s.pwr.waking = true → devState s = 3 →
       exec (.wakeComplete e) s = .next (wakeVault e s)) ∧
  (∀ (m : Master) (v : Word) (s : State),
     MayWrite s m PWR_PAD_RELEASE → devState s < 2 →
       exec (.padRelease m v) s = .next
         (answer (setR s PWR_PAD_HOLD (getR s PWR_PAD_HOLD &&&
           ~~~ (if domOn s 29 then w32 (fld v 9 0) else setBit (w32 (fld v 9 0)) 6 false))) 0)) ∧
  (∀ (m : Master) (v : Word) (s : State),
     MayWrite s m PWR_PORTGRP_REQ →
       exec (.portgrpReqWrite m v) s = .next (answer (groupSettle (putF s PWR_PORTGRP_REQ 7 0 (fld v 7 0))) 0))

/-- The first supply warning starts the sequence of the Gate and the vault and abandons an entry, and with the last
one gone the sequence ends; the scheduler's tick stores the estimate and sheds or restores; a step change of a
cluster that carries no class-0 work is taken and later applied with its interrupt, and one that finds class-0 work
is refused and counted; each sample fills every sensor that has not failed calibration, and calibration invalidates
those that fail; a PLL that loses lock reports it; the RTC alarm raises its interrupt and its wake source at its
time; the watchdog on the MGP frees its locks and restarts it, with placement frozen for an open time of at most 20
ms. -/
def Obligations.SupplyThermalAndClockCommands : Prop :=
  (∀ (aon : Bool) (s : State),
     s.sys.held = false → getB s PWR_SUPPLY_STATUS (nb aon) = false → aon = true ∨ devState s < 2 → supplyHeld
     s = false →
       exec (.supplyWarning aon) s = .next
         (pwrAbandon (migsDrop (gateSupply (raiseIrq (putB s PWR_SUPPLY_STATUS (nb aon) true) PWR (2 + nb aon)))) 1)) ∧
  (∀ (aon : Bool) (s : State),
     getR s PWR_SUPPLY_STATUS = w32 (1 + nb aon) →
       exec (.supplyWarningClear aon) s = .next
         (gateSupplyClear (raiseIrq (putB s PWR_SUPPLY_STATUS (nb aon) false) PWR (2 + nb aon)))) ∧
  (∀ (s : State),
     s.sys.held = false →
       exec .mgpWatchdogExpiry s = .next
         (let s1 := advanceNs (fresh s).2 ((coreOf s mgpCore).wdtAt.toNat + (1 + (fresh s).1.toNat % 100) * 1000000)
          let f := fresh (mgpStart (freeLocksOf mMGP (migsDrop s1)))
          { f.2 with sys := { f.2.sys with mgpDownTil := f.2.time.tense + BitVec.ofNat 64 (f.1.toNat % 20000001) } })) ∧
  (∀ (est : BitVec 16) (p : Forecast) (s : State),
     awake s = true → plcFrozen s = false → s.time.running = true →
       exec (.budgetTick est p) s = .next
         (let s1 := setR (advanceNs s ((tenseNs s / 1000000 + 1) * 1000000)) PWR_EST (w32 est.toNat)
          let cap : Int := (max 15000 (min 52000 (getF s1 PWR_CAP 15 0)) : Nat)
          let tcap : Int := (est.toNat : Int) + (getF s1 TMP_GAIN 15 0 : Int) * ((getF s1 TMP_LIMIT 7 0 : Int) - maxC s1 - 2)
          let excess : Int := (est.toNat : Int) - min cap tcap
          let s2 := if 0 < excess then raiseIrq (shed p excess s1) PWR 4
            else if (getF s1 PWR_RESTORE_MARGIN 15 0 : Int) ≤ -excess then restoreOne p (-excess) s1
            else s1
          setR s2 PWR_SCHED_STATUS (w32 (nb (decide (0 < excess)) * 0x80000000 + schedStage s2)))) ∧
  (∀ (m : Master) (c : Fin 16) (v : Word) (s : State),
     MayWrite s m (CLK_CLUSTER_STEP c.val) → fld v 1 0 = 0 ∨ clusterClass0 s c.val = false →
       exec (.clusterStepWrite m c v) s = .next
         (let s1 := putF s (CLK_CLUSTER_STEP c.val) 1 0 (fld v 1 0)
          answer (putB s1 (CLK_CLUSTER_STEP c.val) 9 (decide (getF s1 (CLK_CLUSTER_STEP c.val) 5 4 ≠ fld v 1 0))) 0)) ∧
  (∀ (m : Master) (c : Fin 16) (v : Word) (s : State),
     MayWrite s m (CLK_CLUSTER_STEP c.val) → fld v 1 0 ≠ 0 → clusterClass0 s c.val = true →
       exec (.clusterStepWrite m c v) s = .next (answer (raiseIrq (bump s CLK_STEP_REFUSED) CLK 1) 0)) ∧
  (∀ (c : Fin 16) (s : State),
     getF s (CLK_CLUSTER_STEP c.val) 1 0 ≠ getF s (CLK_CLUSTER_STEP c.val) 5 4 → stepDeferred s c.val = false →
     getF s (CLK_CLUSTER_STEP c.val) 1 0 = 0 ∨ clusterClass0 s c.val = false →
       exec (.clusterStepApplied c) s = .next
         (raiseIrq (bump (putB (putF s (CLK_CLUSTER_STEP c.val) 5 4 (getF s (CLK_CLUSTER_STEP c.val) 1 0))
           (CLK_CLUSTER_STEP c.val) 9 false) CLK_STEP_CHANGES) CLK 2)) ∧
  (∀ (c : Fin 16) (s : State),
     getF s (CLK_CLUSTER_STEP c.val) 1 0 ≠ getF s (CLK_CLUSTER_STEP c.val) 5 4 → stepDeferred s c.val = false →
     getF s (CLK_CLUSTER_STEP c.val) 1 0 ≠ 0 → clusterClass0 s c.val = true →
       exec (.clusterStepApplied c) s = .next
         (stepPut c.val (getF s (CLK_CLUSTER_STEP c.val) 5 4) (raiseIrq (bump s CLK_STEP_REFUSED) CLK 1))) ∧
  (∀ (c : Fin 16) (s : State),
     getF s (CLK_CLUSTER_STEP c.val) 1 0 = getF s (CLK_CLUSTER_STEP c.val) 5 4 ∨ stepDeferred s c.val = true →
       exec (.clusterStepApplied c) s = .next s) ∧
  (∀ (l : List (BitVec 16)) (s : State),
     l.length = 24 → s.pwr.badCal = 0 →
       Ends (.sensorSample l) s fun t =>
         Only [.regs, .cnts, .outs, .intc, .sys, .time, .pwr] s t ∧
         ∀ i : Fin 24, getR t (TMP_SENSOR i.val) = w32 (0x80000000 + (l[i.val]?.getD 0).toNat)) ∧
  (∀ (bad : BitVec 24) (s : State),
       Ends (.sensorCalibration bad) s fun t =>
         Only [.regs, .outs, .intc, .pwr] s t ∧ t.pwr.badCal = bad.toNat ∧
         ∀ i : Fin 24, bad.toNat.testBit i.val = true → getB t (TMP_SENSOR i.val) 31 = false) ∧
  (∀ (k : Fin 5) (s : State),
     getB s CLK_PLL_STATUS k.val = true →
       exec (.pllLockLost k) s = .next
         (let s1 := raiseIrq (putB s CLK_PLL_STATUS k.val false) CLK 0
          if k.val = 3 then putB s1 TNS_REF_STATUS 0 false else s1)) ∧
  (∀ (s : State),
     s.time.rtcOn = true → rtcSec s ≤ rtcAlarmSec s →
       exec .rtcAlarm s = .next
         (let ticks := rtcAlarmSec s * 32768 - s.time.rtc
          wakeSource 9 (raiseIrq (advanceCycles s ((ticks * 1000000000 / 32768 + 7) / 4 * (if ticks = 0 then 0 else 1))) PWR 6))) ∧
  (∀ (m : Master) (v : Word) (s : State),
     MayWrite s m PWR_RTC_SEC_LO →
       exec (.rtcSecWrite m v) s = .next
         (answer { s with time := { s.time with rtc := (rtcSec s / 0x100000000 * 0x100000000 + v.toNat) * 32768 } } 0))

/-- The target answers its own address whatever the device's state; a received byte enters the receive queue with
its first and stop marks while the device is ready, a full queue stretches, an unready device refuses the byte; a
read takes the oldest byte to transmit or stretches with the interrupt; the queues' registers take and give bytes; a
stretch ends unacknowledged at its maximum. -/
def Obligations.ManagementPort : Prop :=
  (∀ (rd : Bool) (a : BitVec 7) (s : State),
     mgtOn s = true → a.toNat = getF s MGT_ADDR 6 0 → devState s = 0 → pwrBusy s = false →
       exec (.mgtAddressMatch a rd) s = .next
         (let s1 := putF s MGT_STATUS 1 0 (2 + nb rd)
          { s1 with mgt := { s1.mgt with first := true, stretch := none } })) ∧
  (∀ (rd : Bool) (a : BitVec 7) (s : State),
     mgtOn s = true → a.toNat = getF s MGT_ADDR 6 0 → devState s = 1 → pwrBusy s = false → wakeHits s (2 ^ 8) 1
     ≠ 0 →
       exec (.mgtAddressMatch a rd) s = .next
         (let s1 := putF s MGT_STATUS 1 0 (2 + nb rd)
          let s2 := { s1 with mgt := { s1.mgt with first := true, stretch := some s1.time.aonNs } }
          raiseIrq (wakeBegin s2 (wakeHits s (2 ^ 8) 1)) MGT 2)) ∧
  (∀ (rd : Bool) (a : BitVec 7) (s : State),
     mgtOn s = false ∨ a.toNat ≠ getF s MGT_ADDR 6 0 →
       exec (.mgtAddressMatch a rd) s = .next s) ∧
  (∀ (b : Byte) (stop : Bool) (s : State),
     getB s MGT_STATUS 1 = true → getB s MGT_STATUS 0 = false → getB s MGT_STATUS 31 = true → devState s = 0 →
     s.mgt.rx.length < 16 →
       exec (.mgtByte b stop) s = .next
         (mgtStop stop (mgtRaw { s with mgt := { s.mgt with
            rx := s.mgt.rx ++ [w32 (0x80000000 + nb stop * 0x200 + nb s.mgt.first * 0x100 + b.toNat)], first := false, stretch := none } }))) ∧
  (∀ (b : Byte) (stop : Bool) (s : State),
     getB s MGT_STATUS 1 = true → getB s MGT_STATUS 0 = false → getB s MGT_STATUS 31 = true → devState s = 0 →
     16 ≤ s.mgt.rx.length →
       exec (.mgtByte b stop) s = .next (mgtStretch s)) ∧
  (∀ (b : Byte) (stop : Bool) (s : State),
     getB s MGT_STATUS 1 = true → devState s ≠ 1 → getB s MGT_STATUS 31 = false →
       exec (.mgtByte b stop) s = .next (mgtStop stop (mgtNack s))) ∧
  (∀ (b x : Byte) (l : List Byte) (stop : Bool) (s : State),
     getB s MGT_STATUS 1 = true → getB s MGT_STATUS 0 = true → getB s MGT_STATUS 31 = true → devState s = 0 →
     s.mgt.tx = x :: l →
       exec (.mgtByte b stop) s = .next
         (mgtStop stop (emit { s with mgt := { s.mgt with tx := l, stretch := none } } (.mgt (some x))))) ∧
  (∀ (b : Byte) (stop : Bool) (s : State),
     getB s MGT_STATUS 1 = true → getB s MGT_STATUS 0 = true → getB s MGT_STATUS 31 = true → devState s = 0 →
     s.mgt.tx = [] →
       exec (.mgtByte b stop) s = .next (raiseIrq (mgtStretch s) MGT 1)) ∧
  (∀ (m : Master) (w : Word) (l : List Word) (s : State),
     MayRead s m MGT_RX_DATA → s.mgt.rx = w :: l →
       exec (.rxDataRead m) s = .next (answer (mgtRaw { s with mgt := { s.mgt with rx := l } }) w)) ∧
  (∀ (m : Master) (s : State),
     MayRead s m MGT_RX_DATA → s.mgt.rx = [] →
       exec (.rxDataRead m) s = .next (answer s 0)) ∧
  (∀ (m : Master) (v : Word) (s : State),
     MayWrite s m MGT_TX_DATA → s.mgt.tx.length < 16 →
       exec (.txDataWrite m v) s = .next (answer { s with mgt := { s.mgt with tx := s.mgt.tx ++ [v.setWidth 8] } } 0)) ∧
  (∀ (t : Nat) (s : State),
     s.mgt.stretch = some t → s.time.aonNs < t + max 1 (getF s MGT_CFG 25 16) * 1000 →
       exec .stretchMaxExpiry s = .next
         (mgtNack (advanceCycles s ((t + max 1 (getF s MGT_CFG 25 16) * 1000 - s.time.aonNs + 3) / 4))))

/-- At a whole second the counters' snapshot is taken and copied; a select is stored while the buses are refused and
counted, and while they are enabled disconnects its node, which the new one follows a microsecond later; enablement
begins with the stored selects and ends with both buses disconnected; the refusals' count clears as it is read;
Update-IR loads its instruction, and the first output-controlling one after a reset locks the Gate down and is
journalled. -/
def Obligations.TelemetryAndTest : Prop :=
  (∀ (s : State),
     phase s = phRun → devState s = 0 → plcFrozen (advanceNs s ((tenseNs s / 1000000000 + 1) * 1000000000)) =
     false →
       exec .telemetrySnapshot s = .next
         (telemCopy (cntCtrl ⟨.SYS, 0, SYS⟩ 1 (advanceNs s ((tenseNs s / 1000000000 + 1) * 1000000000))))) ∧
  (∀ (m : Master) (b : Fin 2) (v : Word) (s : State),
     MayWrite s m (atbSel b.val) → getB s ATB_STATUS 31 = false →
       exec (.atbSelect m b v) s = .next
         (answer (raiseIrq (satInc (setR s (ATB_SEL0 + 4 * b.val) (w32 (fld v 5 0))) ATB_REFUSED) ATB 0) 0)) ∧
  (∀ (m : Master) (b : Fin 2) (v : Word) (s : State),
     MayWrite s m (atbSel b.val) → getB s ATB_STATUS 31 = true → getR s (ATB_SEL0 + 4 * b.val) ≠ w32 (fld v 5
     0) →
       exec (.atbSelect m b v) s = .next
         (let s1 := setR s (ATB_SEL0 + 4 * b.val) (w32 (fld v 5 0))
          answer (putF { s1 with test := { s1.test with atb := sset s1.test.atb b.val s1.time.tense } } ATB_STATUS
            (8 * b.val + 5) (8 * b.val) 0) 0)) ∧
  (∀ (b : Fin 2) (t : BitVec 64) (s : State),
     sfind s.test.atb b.val = some t →
       exec (.atbConnect b) s = .next
         (let s1 := advanceNs s (t.toNat + 1000)
          putF { s1 with test := { s1.test with atb := sdel s1.test.atb b.val } } ATB_STATUS (8 * b.val + 5) (8 * b.val)
            (getF s1 (ATB_SEL0 + 4 * b.val) 5 0))) ∧
  (∀ (s : State),
     getB s VLT_POLICY 3 = true ∨ dbgScope s 3 = true → getB s ATB_STATUS 31 = false →
       exec .atbEnablementChange s = .next
         (let s1 := raiseIrq (putB s ATB_STATUS 31 true) ATB 1
          let s2 := { s1 with test := { s1.test with atb := [] } }
          let s3 := putF s2 ATB_STATUS 5 0 (getF s2 ATB_SEL0 5 0)
          putF s3 ATB_STATUS 13 8 (getF s2 ATB_SEL1 5 0))) ∧
  (∀ (s : State),
     getB s VLT_POLICY 3 = false → dbgScope s 3 = false → getB s ATB_STATUS 31 = true →
       exec .atbEnablementChange s = .next
         (let s1 := raiseIrq (putB s ATB_STATUS 31 false) ATB 1
          putF (putF { s1 with test := { s1.test with atb := [] } } ATB_STATUS 5 0 0) ATB_STATUS 13 8 0)) ∧
  (∀ (m : Master) (s : State),
     MayRead s m ATB_REFUSED →
       exec (.refusedRead m) s = .next (answer (setR s ATB_REFUSED 0) (getR s ATB_REFUSED))) ∧
  (∀ (s : State), exec .tapReset s = .next { s with test := { s.test with ir := 1 } }) ∧
  (∀ (s : State), exec .idcode s = .next { s with test := { s.test with ir := 1 } }) ∧
  (∀ (s : State), exec .samplePreload s = .next { s with test := { s.test with ir := 2 } }) ∧
  (∀ (s : State), exec .dbgAccess s = .next { s with test := { s.test with ir := 0x10 } }) ∧
  (∀ (s : State), exec .prodTest s = .next { s with test := { s.test with ir := 0x20 } }) ∧
  (∀ (code : BitVec 8) (s : State),
     tapListed code.toNat = false →
       exec (.bypass code) s = .next { s with test := { s.test with ir := code.toNat } }) ∧
  (∀ (s : State),
     s.sys.scanLock = false →
       exec .extest s = .next
         (let s1 := { s with sys := { s.sys with scanLock := true } }
          tapLoad 0 (lockdownBegin (jRecord s1 5 (jMs s1 + 1) 0 0)))) ∧
  (∀ (s : State), s.sys.scanLock = true → exec .extest s = .next { s with test := { s.test with ir := 0 } }) ∧
  (∀ (s : State),
     s.sys.scanLock = false →
       exec .extestPulse s = .next
         (let s1 := { s with sys := { s.sys with scanLock := true } }
          tapLoad 3 (lockdownBegin (jRecord s1 5 (jMs s1 + 1) 0 0)))) ∧
  (∀ (s : State),
     s.sys.scanLock = false →
       exec .extestTrain s = .next
         (let s1 := { s with sys := { s.sys with scanLock := true } }
          tapLoad 4 (lockdownBegin (jRecord s1 5 (jMs s1 + 1) 0 0)))) ∧
  (∀ (s : State),
     s.sys.scanLock = false →
       exec .clamp s = .next
         (let s1 := { s with sys := { s.sys with scanLock := true } }
          tapLoad 5 (lockdownBegin (jRecord s1 5 (jMs s1 + 1) 0 0)))) ∧
  (∀ (s : State),
     s.sys.scanLock = false →
       exec .highz s = .next
         (let s1 := { s with sys := { s.sys with scanLock := true } }
          tapLoad 6 (lockdownBegin (jRecord s1 5 (jMs s1 + 1) 0 0))))

/-- A read of FIFO_DATA returns the oldest counted word and keeps its tag, or the idle item where no word counts;
FLUSH empties the FIFO and PACKET then takes the written bit; a post goes behind the items of its queue, and of a
full queue it displaces the oldest item of the lowest priority if its own is higher; a read takes the oldest item of
the highest priority; a flush empties the queue. Nothing else changes but the result of the access and, with the
queues, source 304 + a. -/
def Obligations.FifosAndAlarmQueues : Prop :=
  (∀ (m : Master) (f : Fin 64) (w t : Word) (r : List (Word × Word)) (s : State),
     MayRead s m (FIQ_FIFO_DATA f.val) → (fiq s f.val).counted = (w, t) :: r →
       exec (.fifoDataRead m f) s =
         .next (answer (setR (fiqSet s f.val { fiq s f.val with counted := r }) (FIQ_TAG_LAST f.val) t) w)) ∧
  (∀ (m : Master) (f : Fin 64) (s : State),
     MayRead s m (FIQ_FIFO_DATA f.val) → (fiq s f.val).counted = [] →
       exec (.fifoDataRead m f) s = .next (answer (setR s (FIQ_TAG_LAST f.val) 0x80000000#32) 0xFFFF0000#32)) ∧
  (∀ (m : Master) (f : Fin 64) (v : Word) (s : State),
     MayWrite s m (FIQ_FIFO_CFG f.val) →
       exec (.fifoFlush m f v) s = .next (answer
         (if bit v 0 = fiqPacket s f.val then fiqSet s f.val FiqSt.init
           else putB (fiqSet s f.val FiqSt.init) (FIQ_FIFO_CFG f.val) 0 (bit v 0)) 0)) ∧
  (∀ (m : Master) (a : Fin 16) (v : Word) (s : State),
     MayWrite s m (FIQ_AQ_POST a.val) → v ≠ 0xFFFF0000#32 → (aqItems s a.val).length < 256 →
       exec (.aqPost m a v) s = .next (answer (aqSet s a.val (aqItems s a.val ++ [v])) 0)) ∧
  (∀ (m : Master) (a : Fin 16) (v : Word) (s : State),
     MayWrite s m (FIQ_AQ_POST a.val) → v ≠ 0xFFFF0000#32 → (aqItems s a.val).length = 256 → aqLow (aqItems s
     a.val) < aqPri v →
       exec (.aqPost m a v) s = .next (answer (aqSet (raiseIrq (bump s (FIQ_Queue_counters a.val)) FIQ 2) a.val
         (aqDrop (aqItems s a.val) (aqLow (aqItems s a.val)) ++ [v])) 0)) ∧
  (∀ (m : Master) (a : Fin 16) (s : State),
     MayRead s m (FIQ_AQ_READ a.val) → aqItems s a.val ≠ [] →
       ∃ w, (aqItems s a.val).find? (fun x => decide (aqPri x = aqHigh (aqItems s a.val))) = some w ∧
         exec (.aqRead m a) s = .next (answer (aqSet s a.val (aqDrop (aqItems s a.val) (aqHigh (aqItems s a.val)))) w)) ∧
  (∀ (m : Master) (a : Fin 16) (v : Word) (s : State),
     MayWrite s m (FIQ_AQ_FLUSH a.val) → bit v 0 = true →
       exec (.aqFlush m a v) s = .next (answer (aqSet s a.val []) 0))

/-- A read of a free lock returns 0 and gives it to the reading master, a read of a held one returns the owner; the
owner's write of 0 frees it; FORCE_RELEASE by the SSP frees a held lock and records it; a mailbox lock read takes an
EMPTY mailbox to FILLING; SEND by the owner of a FILLING mailbox makes it FULL with the next tag; ACK by the
receiver and RESET by the SSP make it EMPTY and free. Nothing else changes but the lines and registers named. -/
def Obligations.LocksAndMailboxes : Prop :=
  (∀ (m : Master) (k : Fin 128) (s : State),
     MayRead s m (LCK_LOCK k.val) → getF s (LCK_OWNER k.val) 5 0 = 0 →
       exec (.lockRead m k) s = .next (answer (putF s (LCK_OWNER k.val) 5 0 m.toNat) 0)) ∧
  (∀ (m : Master) (k : Fin 128) (s : State),
     MayRead s m (LCK_LOCK k.val) → getF s (LCK_OWNER k.val) 5 0 ≠ 0 →
       Ends (.lockRead m k) s fun t =>
         t.resp = .ok (w32 (getF s (LCK_OWNER k.val) 5 0)) ∧ getF t (LCK_OWNER k.val) 5 0 = getF s (LCK_OWNER k.val) 5 0) ∧
  (∀ (m : Master) (k : Fin 128) (s : State),
     MayWrite s m (LCK_LOCK k.val) → getF s (LCK_OWNER k.val) 5 0 = m.toNat →
       exec (.lockRelease m k 0) s = .next (answer (putF s (LCK_OWNER k.val) 5 0 0) 0)) ∧
  (∀ (v : Word) (s : State),
     MayWrite s mSSP LCK_FORCE_RELEASE → getF s (LCK_OWNER (fld v 6 0)) 5 0 ≠ 0 →
       exec (.forceRelease mSSP v) s = .next (answer
         (raiseIrq (putF (setR s LCK_RELEASED_LAST (w32 (getF s (LCK_OWNER (fld v 6 0)) 5 0 * 65536 + fld v 6 0)))
           (LCK_OWNER (fld v 6 0)) 5 0 0) LCK 0) 0)) ∧
  (∀ (m : Master) (k : Fin 64) (s : State),
     MayRead s m (MBX_LOCK k.val) → mbxOwner s k.val = 0 → mbxState s k.val = 0 →
       exec (.mbxLockRead m k) s = .next (answer (mbxPut s k.val 1 m.toNat) 0)) ∧
  (∀ (m : Master) (k : Fin 64) (s : State),
     MayWrite s m (MBX_LOCK k.val) → mbxOwner s k.val = m.toNat → mbxState s k.val = 1 →
       exec (.mbxLockRelease m k 0) s = .next (answer (mbxPut s k.val 0 0) 0)) ∧
  (∀ (m : Master) (k : Fin 64) (v : Word) (s : State),
     MayWrite s m (MBX_SEND k.val) → bit v 0 = true → mbxState s k.val = 1 → mbxOwner s k.val = m.toNat →
       exec (.mbxSend m k v) s = .next
         (let n := sget s.mbx k.val 1
          let full := putF (setR { s with mbx := sset s.mbx k.val (if n = 0x3FFFFF then 1 else n + 1) } (MBX_TAG k.val)
            (w32 (0x20000000 + k.val * 0x400000 + n))) (MBX_STATUS k.val) 31 30 2
          let hostUp := if mbxReceiver full k.val = 1 ∧ getF full (BLK_STATUS HIF) 3 2 ≠ 0 then blkPowerReq HIF 0 full else full
          answer (wakeSource 13 (setLine hostUp (mbxLine k.val) true)) 0)) ∧
  (∀ (m : Master) (k : Fin 64) (v : Word) (s : State),
     MayWrite s m (MBX_ACK k.val) → mbxState s k.val = 2 → mbxReceiver s k.val = m.toNat → m ≠ 0 → fld v 7 0 =
     0 ∨ 0x80 ≤ fld v 7 0 →
       exec (.mbxAck m k v) s = .next (answer (mbxEmptied (mbxEnd s k.val (fld v 7 0)) k.val) 0)) ∧
  (∀ (k : Fin 64) (v : Word) (s : State),
     MayWrite s mSSP (MBX_RESET k.val) → bit v 0 = true → mbxState s k.val = 2 →
       exec (.mbxReset mSSP k v) s = .next (answer (mbxEmptied (mbxEnd s k.val 0x90) k.val) 0))

/-- Where commands wait, a step is the effect of the first of them on the state with the rest of the queue. Where
none waits, one TIME cycle of 4 ns passes. Of two writes of registers, or two reads of locks, that reach the block
in one cycle, in whatever order they are told, the lower master's stands first, behind what waits already (R10,
R53). The queue and the idle tick are the model's own choice (log entries 1 and 2). -/
def Obligations.StepTakesTheFront : Prop :=
  (∀ (c : Instr) (l : List Instr) (s : State), s.pending = c :: l → step s = exec c { s with pending := l }) ∧
  (∀ (s : State),
     s.pending = [] →
       step s = .next (advanceCycles s 1) ∧ (advanceCycles s 1).time.aonNs = s.time.aonNs + 4) ∧
  (∀ (m n : Master) (a b : Word) (p q : AccSize) (v w : Word) (s : State),
     m.toNat < n.toNat →
       (arrive [.registerWrite m a p v, .registerWrite n b q w] s).pending =
           s.pending ++ [.registerWrite m a p v, .registerWrite n b q w] ∧
         (arrive [.registerWrite n b q w, .registerWrite m a p v] s).pending =
           s.pending ++ [.registerWrite m a p v, .registerWrite n b q w]) ∧
  (∀ (m n : Master) (j k : Fin 128) (s : State),
     m.toNat < n.toNat →
       (arrive [.lockRead m j, .lockRead n k] s).pending = s.pending ++ [.lockRead m j, .lockRead n k] ∧
         (arrive [.lockRead n k, .lockRead m j] s).pending = s.pending ++ [.lockRead m j, .lockRead n k])

/-- POR is asserted and recorded alone; no command waits, memory is in its canonical form and lists nothing, no core
runs; the identification registers read as their rules give them; interrupt sources 616-631, 653 and 654 are routed
to the SSP and closed to others, every other hardware source to the MGP, every software source nowhere. That POR is
still asserted in State.reset, and that memory reads 0x00, are the model's choices (log entries 3 and 4). -/
def Obligations.ResetState : Prop :=
  (    MemoryOk State.reset ∧ State.reset.mem = [] ∧ State.reset.pending = [] ∧ State.reset.sys.held = true ∧
         getR State.reset SYS_RESET_CAUSE = 0x00010001 ∧ getF State.reset (BLK_ID SYS) 7 0 = 0xA1 ∧
         getR State.reset (BLK_CAPS SYS) = 0x00000104 ∧ getR State.reset (BLK_CAPS INT) = 0x04000040 ∧
         getR State.reset (BLK_CAPS FDB) = 0x00044000 ∧ getR State.reset (BLK_CAPS SWC) = 0x000800E0 ∧
         getR State.reset (BLK_CAPS FIQ) = 0x00400010 ∧ getR State.reset (BLK_CAPS LCK) = 0x00000080) ∧
  (∀ (c : Fin 50), (coreOf State.reset c.val).run = .off ∧ ∀ r, greg (coreOf State.reset c.val) r = 0) ∧
  (∀ (n : Fin 1024),
     (616 ≤ n.val ∧ n.val ≤ 631) ∨ n.val = 653 ∨ n.val = 654 →
       routeTarget (getR State.reset (INT_ROUTE n.val)) = 3 ∧ getB State.reset (INT_ROUTE n.val) 31 = true) ∧
  (∀ (n : Fin 1024),
     ¬((616 ≤ n.val ∧ n.val ≤ 631) ∨ n.val = 653 ∨ n.val = 654) → n.val < 768 →
       routeTarget (getR State.reset (INT_ROUTE n.val)) = 2 ∧ getB State.reset (INT_ROUTE n.val) 31 = false) ∧
  (∀ (n : Fin 1024),
     768 ≤ n.val →
       routeTarget (getR State.reset (INT_ROUTE n.val)) = 0 ∧ getB State.reset (INT_ROUTE n.val) 31 = false)

/-- Where a command answers a next state, the queue is as it was, and so is every part of the state that the table
`touched` does not list for it; the vault's counters do not fall, unless the command is the end of a vault erase. -/
def Obligations.FramesOfCommands : Prop :=
  ∀ (c : Instr) (s t : State), exec c s = .next t → Only (touched c) s t

/-- Where the master of a command that writes or reads a register may not reach it now (an unmapped page, a page
that is not its own, a block that is off or asleep), the command answers a bus error, or 0 to a debugger whose port
is closed and 0 to a write of the host's, which is posted (R55); beside the error records, the SEC interrupt and
what that interrupt delivers, no register changes, and no other part of the state. -/
def Obligations.RefusedAccesses : Prop :=
  (∀ (c : Instr) (m : Master) (a : Nat) (s : State),
     writeOf c = some (m, a) → writeOpen s m a = false →
       Ends c s (TurnedAway m a true s)) ∧
  (∀ (c : Instr) (m : Master) (a : Nat) (s : State),
     readOf c = some (m, a) → readOpen s m a = false →
       Ends c s (TurnedAway m a false s))

/-- From every state whose memory is in canonical form (addresses strictly rising, no byte listed that equals what
an unlisted address reads as), a step, of whatever command or of none, leads to a state whose memory is in canonical
form; the fuses and the device identity are as they were, and the record of what left the device has only grown. -/
def Obligations.MemoryStaysCanonical : Prop :=
  ∀ (s t : State),
    MemoryOk s → step s = .next t →
      MemoryOk t ∧ t.sys.deviceId = s.sys.deviceId ∧ t.sys.slots = s.sys.slots ∧ s.outs <:+ t.outs

/-- Over every step, of whatever command or of none, each of the vault's counters is at least what it was, unless
the step ends an erase of the vault, which only an ERASING vault can do and which sets every counter to 0. -/
def Obligations.VaultCountersNeverFall : Prop :=
  ∀ (s t : State) (i : Nat),
    step s = .next t →
      (vaultCounter s i).toNat ≤ (vaultCounter t i).toNat ∨
        (s.pending.head? = some .vaultEraseComplete ∧ owner s = 2 ∧ vaultCounter t i = 0)

/-- Every command answers a next state from every state, so from every state, with whatever commands waiting, a run
of any length goes on: every step answers a next state, and none a fault or a refusal. -/
def Obligations.TheBlockNeverStops : Prop :=
  (∀ (c : Instr) (s : State), ∃ t, exec c s = .next t) ∧
  (∀ (n : Nat) (s : State), RunsOn n s)

/-- Each reset cause, with any others of its cycle, records in CAUSE the first of them in the order POR, BROWN_AON,
LP_OVERLOAD, BROWN_CORE, THERM, WDT_SSP, PIN, SOFT, and in ALSO every one of them; a cause that arises while a reset
is in progress changes neither. -/
def Obligations.ResetCauseOrder : Prop :=
  (∀ (also : BitVec 8) (s : State), s.sys.held = false → Ends (.por also) s (CausesAre (also ||| 1))) ∧
  (∀ (also : BitVec 8) (s : State), s.sys.held = false → Ends (.pinReset also) s (CausesAre (also ||| 2))) ∧
  (∀ (also : BitVec 8) (s : State),
     s.sys.held = false → coreRail s = true →
       Ends (.brownCore also) s (CausesAre (also ||| 4))) ∧
  (∀ (also : BitVec 8) (s : State), s.sys.held = false → Ends (.brownAon also) s (CausesAre (also ||| 8))) ∧
  (∀ (also : BitVec 8) (s : State),
     s.sys.held = false → devState s = 2 ∨ devState s = 3 →
       Ends (.lpOverload also) s (CausesAre (also ||| 16))) ∧
  (∀ (also : BitVec 8) (s : State), s.sys.held = false → Ends (.wdtSsp also) s (CausesAre (also ||| 32))) ∧
  (∀ (also : BitVec 8) (s : State),
     s.sys.held = false →
       Ends (.lockstepMismatch also) s (CausesAre (also ||| 32))) ∧
  (∀ (also : BitVec 8) (s : State),
     s.sys.held = false → tripDue s = true →
       Ends (.thermalTrip also) s (CausesAre (also ||| 128))) ∧
  (∀ (m : Master) (s : State),
     MayWrite s m SYS_SOFT_RESET → s.sys.held = false → s.sys.prog = none →
       Ends (.softReset m 0xA5A) s (CausesAre 64)) ∧
  (∀ (c : Instr) (also : BitVec 8) (m : Master) (v : Word) (s : State),
     s.sys.held = true → c ∈ [.por also, .pinReset also, .brownCore also, .brownAon also, .lpOverload also,
     .wdtSsp also, .lockstepMismatch also, .thermalTrip also, .softReset m v] →
       Ends c s fun t => getR t SYS_RESET_CAUSE = getR s SYS_RESET_CAUSE ∧ t.sys.held = true)

/-- SLL, SRL and SRA shift rs1 by the low six bits of rs2; an amount of 32 to 63 gives 0, and for SRA 0xFFFF_FFFF
where bit 31 of rs1 is 1; an rs2 of 64 shifts by 0. SLLI, SRLI and SRAI shift by the five bits of the word that hold
their amount. -/
def Obligations.ShiftAmounts : Prop :=
  (∀ (c : Fin 50) (w : Word) (x : CoreSt) (t s : State),
     Issues s c.val .sll w x t →
       exec (.h32Sll c) s = .next
         (gives c.val 1 (shiftsLeft (greg x (fRs1 w)) ((greg x (fRs2 w)).toNat % 64)) w x (busyCycle .sll t c.val))) ∧
  (∀ (c : Fin 50) (w : Word) (x : CoreSt) (t s : State),
     Issues s c.val .srl w x t →
       exec (.h32Srl c) s = .next
         (gives c.val 1 (shiftsRight (greg x (fRs1 w)) ((greg x (fRs2 w)).toNat % 64)) w x (busyCycle .srl t c.val))) ∧
  (∀ (c : Fin 50) (w : Word) (x : CoreSt) (t s : State),
     Issues s c.val .sra w x t →
       exec (.h32Sra c) s = .next
         (gives c.val 1 (shiftsSigned (greg x (fRs1 w)) ((greg x (fRs2 w)).toNat % 64)) w x (busyCycle .sra t c.val))) ∧
  (∀ (c : Fin 50) (w : Word) (x : CoreSt) (t s : State),
     Issues s c.val .slli w x t →
       exec (.h32Slli c) s = .next
         (gives c.val 1 (shiftsLeft (greg x (fRs1 w)) (w.toNat % 32)) w x (busyCycle .slli t c.val))) ∧
  (∀ (c : Fin 50) (w : Word) (x : CoreSt) (t s : State),
     Issues s c.val .srli w x t →
       exec (.h32Srli c) s = .next
         (gives c.val 1 (shiftsRight (greg x (fRs1 w)) (w.toNat % 32)) w x (busyCycle .srli t c.val))) ∧
  (∀ (c : Fin 50) (w : Word) (x : CoreSt) (t s : State),
     Issues s c.val .srai w x t →
       exec (.h32Srai c) s = .next
         (gives c.val 1 (shiftsSigned (greg x (fRs1 w)) (w.toNat % 32)) w x (busyCycle .srai t c.val)))

/-- ADD and SUB give the low 32 bits of the exact sum and difference; NEG of 0x8000_0000 gives 0x8000_0000; DIV of
0x8000_0000 by -1 puts 0x8000_0000 in flight, and REM of the same operands 0. -/
def Obligations.ArithmeticCorners : Prop :=
  (∀ (c : Fin 50) (w : Word) (x : CoreSt) (t s : State),
     Issues s c.val .neg w x t → greg x (fRs1 w) = 0x80000000 →
       exec (.h32Neg c) s = .next (gives c.val 1 0x80000000 w x (busyCycle .neg t c.val))) ∧
  (∀ (c : Fin 50) (w : Word) (x : CoreSt) (t s : State),
     Issues s c.val .add w x t →
       exec (.h32Add c) s = .next
         (gives c.val 1 (BitVec.ofNat 32 ((greg x (fRs1 w)).toNat + (greg x (fRs2 w)).toNat)) w x (busyCycle .add t c.val))) ∧
  (∀ (c : Fin 50) (w : Word) (x : CoreSt) (t s : State),
     Issues s c.val .sub w x t →
       exec (.h32Sub c) s = .next
         (gives c.val 1 (BitVec.ofInt 32 ((greg x (fRs1 w)).toInt - (greg x (fRs2 w)).toInt)) w x (busyCycle .sub t c.val))) ∧
  (∀ (c : Fin 50) (w : Word) (x : CoreSt) (t s : State),
     Issues s c.val .div w x t → greg x (fRs1 w) = 0x80000000 → greg x (fRs2 w) = 0xFFFFFFFF →
       exec (.h32Div c) s = .next (divides c.val 0x80000000 w x (busyCycle .div t c.val))) ∧
  (∀ (c : Fin 50) (w : Word) (x : CoreSt) (t s : State),
     Issues s c.val .rem w x t → greg x (fRs1 w) = 0x80000000 → greg x (fRs2 w) = 0xFFFFFFFF →
       exec (.h32Rem c) s = .next (divides c.val 0 w x (busyCycle .rem t c.val)))

/-- Of two results in flight for one general register, the one that lands later stands when both have landed,
whichever was issued first; where both land in the same cycle, that of the later-issued instruction stands. -/
def Obligations.ResultsOnOneRegister : Prop :=
  ∀ (c : Nat) (x : CoreSt) (d j p q n : Nat) (v w : Word),
    0 < d ∧ d < 32 → (∀ r ∈ x.land, r.dest ≠ d) → x.cyc + p ≤ n ∧ x.cyc + j + q ≤ n →
      greg (landTo c (flies { flies x p d v with cyc := x.cyc + j } q d w) n) d = (if x.cyc + p ≤ x.cyc + j + q then w else v)

/-- A read of a free lock takes it for the reading master and returns 0; a read of a held lock returns the owner's
number and changes nothing of it; of several reads of a free lock in one cycle, in the order of R10, the first
reader takes it and reads 0 and each other reads that master's number. -/
def Obligations.LockReads : Prop :=
  (∀ (m : Master) (k : Fin 128) (s : State),
     MayRead s m (LCK_LOCK k.val) → getF s (LCK_OWNER k.val) 5 0 = 0 →
       Ends (.lockRead m k) s fun t => t.resp = .ok 0 ∧ getF t (LCK_OWNER k.val) 5 0 = m.toNat) ∧
  (∀ (m : Master) (k : Fin 128) (s : State),
     MayRead s m (LCK_LOCK k.val) → getF s (LCK_OWNER k.val) 5 0 ≠ 0 →
       Ends (.lockRead m k) s fun t =>
         t.resp = .ok (w32 (getF s (LCK_OWNER k.val) 5 0)) ∧ getF t (LCK_OWNER k.val) 5 0 = getF s (LCK_OWNER k.val) 5 0) ∧
  (∀ (m n : Master) (k : Fin 128) (s : State),
     MayRead s m (LCK_LOCK k.val) → MayRead s n (LCK_LOCK k.val) → getF s (LCK_OWNER k.val) 5 0 = 0 → 0 <
     m.toNat ∧ m.toNat < n.toNat →
       Ends (.lockRead m k) s fun t => t.resp = .ok 0 ∧
         Ends (.lockRead n k) t fun u => u.resp = .ok (w32 m.toNat) ∧ getF u (LCK_OWNER k.val) 5 0 = m.toNat)
end

