-- ==== Sys2Proof/Laws/Memory.lean ====
section
/-! SUPPORT. Sparse maps and memory: a read after a write, and every memory operation keeps the canonical form. -/

namespace Sys2Proof.Laws

open Sys2Proof.Machine

/-- Every key of the map is above `k`. -/
def Above {α : Type} (k : Nat) (m : SMap α) : Prop := ∀ e ∈ m, k < e.1

/-- Sorted, said by recursion on the tail. -/
theorem ssorted_cons {α : Type} (e : Nat × α) (m : SMap α) : ssorted (e :: m) = true ↔ Above e.1 m ∧ ssorted m = true := by
  induction m generalizing e with
  | nil => simp [ssorted, Above]
  | cons f r ih =>
    obtain ⟨k, v⟩ := e
    obtain ⟨k', v'⟩ := f
    simp only [ssorted, Bool.and_eq_true, decide_eq_true_eq]
    constructor
    · rintro ⟨h1, h2⟩
      refine ⟨?_, h2⟩
      intro x hx
      rcases List.mem_cons.1 hx with rfl | hx
      · exact h1
      · exact Nat.lt_trans h1 (((ih (k', v')).1 h2).1 x hx)
    · rintro ⟨h1, h2⟩
      exact ⟨h1 (k', v') List.mem_cons_self, h2⟩

theorem above_sset {α : Type} (k j : Nat) (v : α) (m : SMap α) (h : Above k m) (hj : k < j) : Above k (sset m j v) := by
  induction m with
  | nil => intro e he; simp only [sset, List.mem_singleton] at he; subst he; exact hj
  | cons f r ih =>
    have hr : Above k r := fun e he => h e (List.mem_cons_of_mem _ he)
    have hf := h f List.mem_cons_self
    intro e he
    simp only [sset] at he
    split at he
    · rcases List.mem_cons.1 he with rfl | he
      · exact hj
      · exact h e he
    · split at he
      · rcases List.mem_cons.1 he with rfl | he
        · exact hj
        · exact hr e he
      · rcases List.mem_cons.1 he with rfl | he
        · exact hf
        · exact ih hr e he

theorem ssorted_sset {α : Type} (m : SMap α) (k : Nat) (v : α) (h : ssorted m = true) : ssorted (sset m k v) = true := by
  induction m with
  | nil => simp [sset, ssorted]
  | cons f r ih =>
    obtain ⟨k', v'⟩ := f
    have h2 := (ssorted_cons _ _).1 h
    simp only [sset]
    split
    · rename_i hlt
      refine (ssorted_cons _ _).2 ⟨?_, h⟩
      intro x hx
      rcases List.mem_cons.1 hx with rfl | hx
      · exact hlt
      · exact Nat.lt_trans hlt (h2.1 x hx)
    · split
      · rename_i he; subst he
        exact (ssorted_cons _ _).2 ⟨h2.1, h2.2⟩
      · rename_i h1 h3
        refine (ssorted_cons _ _).2 ⟨?_, ih h2.2⟩
        exact above_sset _ _ _ _ h2.1 (by simp only [] at *; omega)

theorem mem_sset {α : Type} (m : SMap α) (k : Nat) (v : α) (e : Nat × α) (h : e ∈ sset m k v) : e = (k, v) ∨ e ∈ m := by
  induction m with
  | nil => simp [sset] at h; exact Or.inl h
  | cons f r ih =>
    simp only [sset] at h
    split at h
    · rcases List.mem_cons.1 h with rfl | h
      · exact Or.inl rfl
      · exact Or.inr h
    · split at h
      · rcases List.mem_cons.1 h with rfl | h
        · exact Or.inl rfl
        · exact Or.inr (List.mem_cons_of_mem _ h)
      · rcases List.mem_cons.1 h with rfl | h
        · exact Or.inr List.mem_cons_self
        · rcases ih h with h | h
          · exact Or.inl h
          · exact Or.inr (List.mem_cons_of_mem _ h)

theorem mem_sdel {α : Type} (m : SMap α) (k : Nat) (e : Nat × α) (h : e ∈ sdel m k) : e ∈ m := by
  induction m with
  | nil => simp [sdel] at h
  | cons f r ih =>
    simp only [sdel] at h
    split at h
    · exact List.mem_cons_of_mem _ h
    · rcases List.mem_cons.1 h with rfl | h
      · exact List.mem_cons_self
      · exact List.mem_cons_of_mem _ (ih h)

theorem ssorted_sdel {α : Type} (m : SMap α) (k : Nat) (h : ssorted m = true) : ssorted (sdel m k) = true := by
  induction m with
  | nil => simp [sdel, ssorted]
  | cons f r ih =>
    have h2 := (ssorted_cons _ _).1 h
    simp only [sdel]
    split
    · exact h2.2
    · exact (ssorted_cons _ _).2 ⟨fun e he => h2.1 e (mem_sdel _ _ _ he), ih h2.2⟩

theorem ssorted_filter {α : Type} (m : SMap α) (p : Nat × α → Bool) (h : ssorted m = true) : ssorted (m.filter p) = true := by
  induction m with
  | nil => simp [ssorted]
  | cons f r ih =>
    have h2 := (ssorted_cons _ _).1 h
    rw [List.filter_cons]
    split
    · exact (ssorted_cons _ _).2 ⟨fun e he => h2.1 e (List.mem_filter.1 he).1, ih h2.2⟩
    · exact ih h2.2

/-! What a map lists after an update. -/

theorem sfind_sset {α : Type} (m : SMap α) (k j : Nat) (v : α) (h : ssorted m = true) :
    sfind (sset m k v) j = if j = k then some v else sfind m j := by
  induction m with
  | nil => simp only [sset, sfind]; split <;> split <;> simp_all
  | cons f r ih =>
    obtain ⟨k', v'⟩ := f
    have h2 := (ssorted_cons _ _).1 h
    simp only [sset]
    split
    · rename_i hlt
      simp only [sfind]
      by_cases hjk : j = k
      · subst hjk; simp
      · simp [hjk, Ne.symm hjk]
    · split
      · rename_i he; subst he
        simp only [sfind]
        by_cases hjk : j = k
        · subst hjk; simp
        · simp [hjk, Ne.symm hjk]
      · rename_i h1 h3
        simp only [sfind, ih h2.2]
        by_cases hj : k' = j
        · subst hj; simp [Ne.symm h3]
        · simp [hj]

/-- A read at any key after a write. -/
theorem sget_sset_ne {α : Type} (m : SMap α) (k j : Nat) (v d : α) (hj : j ≠ k) : sget (sset m k v) j d = sget m j d := by
  unfold sget
  congr 1
  induction m with
  | nil => simp [sset, sfind, Ne.symm hj]
  | cons f r ih =>
    obtain ⟨k', v'⟩ := f
    simp only [sset]
    split
    · simp [sfind, Ne.symm hj]
    · split
      · rename_i he; subst he; simp [sfind, Ne.symm hj]
      · simp only [sfind, ih]

/-- A read at the key just written. -/
theorem sget_sset_eq {α : Type} (m : SMap α) (k : Nat) (v d : α) : sget (sset m k v) k d = v := by
  unfold sget
  induction m with
  | nil => simp [sset, sfind]
  | cons f r ih =>
    obtain ⟨k', v'⟩ := f
    simp only [sset]
    split
    · simp [sfind]
    · split
      · rename_i he; subst he; simp [sfind]
      · rename_i h1 h3; simp only [sfind]; rw [if_neg (Ne.symm h3)]; exact ih

theorem sget_sset {α : Type} (m : SMap α) (k j : Nat) (v d : α) :
    sget (sset m k v) j d = if j = k then v else sget m j d := by
  by_cases h : j = k
  · subst h; simp [sget_sset_eq]
  · simp [h, sget_sset_ne _ _ _ _ _ h]

/-! Memory. -/

theorem wf_iff (m : List Host.Cell) : Memory.wf m = true ↔ ssorted m = true ∧ ∀ e ∈ m, e.2 ≠ memDefault := by
  simp [Memory.wf]

theorem wf_nil : Memory.wf [] = true := by decide

theorem memWrite_wf (m : List Host.Cell) (k : Nat) (b : Byte) (h : Memory.wf m = true) : Memory.wf (memWrite m k b) = true := by
  rw [wf_iff] at *
  unfold memWrite ssetD
  split
  · exact ⟨ssorted_sdel _ _ h.1, fun e he => h.2 e (mem_sdel _ _ _ he)⟩
  · rename_i hb
    refine ⟨ssorted_sset _ _ _ h.1, fun e he => ?_⟩
    rcases mem_sset _ _ _ _ he with rfl | he
    · exact hb
    · exact h.2 e he

theorem sclear_wf (m : List Host.Cell) (lo hi : Nat) (p : Nat → Bool) (h : Memory.wf m = true) :
    Memory.wf (sclear m lo hi p) = true := by
  rw [wf_iff] at *
  exact ⟨ssorted_filter _ _ h.1, fun e he => h.2 e (List.mem_filter.1 he).1⟩

theorem memPut_wf (l : List Byte) (m : List Host.Cell) (k : Nat) (h : Memory.wf m = true) : Memory.wf (memPut m k l) = true := by
  induction l generalizing m k with
  | nil => exact h
  | cons b r ih => exact ih _ _ (memWrite_wf _ _ _ h)

theorem sfind_sdel_ne {α : Type} (m : SMap α) (k j : Nat) (hj : j ≠ k) : sfind (sdel m k) j = sfind m j := by
  induction m with
  | nil => simp [sdel]
  | cons f r ih =>
    obtain ⟨k', v'⟩ := f
    simp only [sdel]
    split
    · rename_i he; subst he; simp [sfind, Ne.symm hj]
    · simp only [sfind, ih]

theorem sfind_above {α : Type} (m : SMap α) (k : Nat) (h : Above k m) : sfind m k = none := by
  induction m with
  | nil => rfl
  | cons f r ih =>
    obtain ⟨k', v'⟩ := f
    have hf := h (k', v') List.mem_cons_self
    have hne : k' ≠ k := fun he => absurd (he ▸ hf) (Nat.lt_irrefl _)
    simp only [sfind, if_neg hne]
    exact ih fun e he => h e (List.mem_cons_of_mem _ he)

theorem sfind_sdel_eq {α : Type} (m : SMap α) (k : Nat) (h : ssorted m = true) : sfind (sdel m k) k = none := by
  induction m with
  | nil => simp [sdel, sfind]
  | cons f r ih =>
    obtain ⟨k', v'⟩ := f
    have h2 := (ssorted_cons _ _).1 h
    simp only [sdel]
    split
    · rename_i he; subst he; exact sfind_above _ _ h2.1
    · rename_i he; simp only [sfind]; rw [if_neg (Ne.symm he)]; exact ih h2.2

/-- A byte written is the byte read, and every other byte stays. -/
theorem memRead_memWrite (m : List Host.Cell) (k j : Nat) (b : Byte) (h : Memory.wf m = true) :
    memRead (memWrite m k b) j = if j = k then b else memRead m j := by
  have hs := ((wf_iff m).1 h).1
  unfold memRead memWrite ssetD
  split
  · rename_i hb
    by_cases hj : j = k
    · subst hj; simp [sget, sfind_sdel_eq _ _ hs, hb]
    · simp [sget, sfind_sdel_ne _ _ _ hj, hj]
  · exact sget_sset _ _ _ _ _

/-- Bytes below and above those written stay. -/
theorem memRead_memPut_out (l : List Byte) (m : List Host.Cell) (k j : Nat) (h : Memory.wf m = true)
    (hj : j < k ∨ k + l.length ≤ j) : memRead (memPut m k l) j = memRead m j := by
  induction l generalizing m k with
  | nil => rfl
  | cons b r ih =>
    simp only [List.length_cons] at hj
    show memRead (memPut (memWrite m k b) (k + 1) r) j = _
    rw [ih _ _ (memWrite_wf _ _ _ h) (by omega), memRead_memWrite _ _ _ _ h, if_neg (by omega)]

/-- Each byte written is the byte read. -/
theorem memRead_memPut_in (l : List Byte) (m : List Host.Cell) (k i : Nat) (h : Memory.wf m = true) (hi : i < l.length) :
    memRead (memPut m k l) (k + i) = l[i] := by
  induction l generalizing m k i with
  | nil => simp at hi
  | cons b r ih =>
    show memRead (memPut (memWrite m k b) (k + 1) r) (k + i) = _
    have hw := memWrite_wf m k b h
    cases i with
    | zero => rw [memRead_memPut_out _ _ _ _ hw (by omega), memRead_memWrite _ _ _ _ h]; simp
    | succ i =>
      have := ih (memWrite m k b) (k + 1) i hw (by simpa using hi)
      rw [show k + (i + 1) = k + 1 + i by omega, this]; simp

end Sys2Proof.Laws
end

