-- ==== Sys2Proof/Laws/Keeps.lean ====
section
/-! SUPPORT. What an operation of the block keeps and which parts of the state it may change: memory's canonical
    form, the
queue, DEVICE_ID and the fuses, the output log as far as it is written, the free values as far as they are used,
    and every
part that it is not allowed. One lemma per operation stands in the files beside this one; here stand the relation
    and the
rules that put such lemmas together. -/

namespace Sys2Proof.Laws

open Sys2Proof Sys2Proof.Machine

/-- From `z` to `t` at most the parts `m` change, and what every operation keeps is kept. -/
structure Keeps (m : List Part) (z t : State) : Prop where
  wf : Memory.wf z.mem = true → Memory.wf t.mem = true
  pending : t.pending = z.pending
  deviceId : t.sys.deviceId = z.sys.deviceId
  slots : t.sys.slots = z.sys.slots
  grows : z.free ≤ t.free
  log : z.outs <:+ t.outs
  regs : Part.regs ∈ m ∨ t.regs = z.regs
  cnts : Part.cnts ∈ m ∨ t.cnts = z.cnts
  snaps : Part.snaps ∈ m ∨ t.snaps = z.snaps
  free : Part.free ∈ m ∨ t.free = z.free
  mem : Part.mem ∈ m ∨ t.mem = z.mem
  outs : Part.outs ∈ m ∨ t.outs = z.outs
  resp : Part.resp ∈ m ∨ t.resp = z.resp
  intc : Part.intc ∈ m ∨ t.intc = z.intc
  sys : Part.sys ∈ m ∨ t.sys = z.sys
  sw : Part.sw ∈ m ∨ t.sw = z.sw
  eth : Part.eth ∈ m ∨ t.eth = z.eth
  gate : Part.gate ∈ m ∨ t.gate = z.gate
  vlt : Part.vlt ∈ m ∨ t.vlt = z.vlt
  bnk : Part.bnk ∈ m ∨ t.bnk = z.bnk
  plk : Part.plk ∈ m ∨ t.plk = z.plk
  mdb : Part.mdb ∈ m ∨ t.mdb = z.mdb
  ptc : Part.ptc ∈ m ∨ t.ptc = z.ptc
  fiq : Part.fiq ∈ m ∨ t.fiq = z.fiq
  aq : Part.aq ∈ m ∨ t.aq = z.aq
  mbx : Part.mbx ∈ m ∨ t.mbx = z.mbx
  hif : Part.hif ∈ m ∨ t.hif = z.hif
  time : Part.time ∈ m ∨ t.time = z.time
  eng : Part.eng ∈ m ∨ t.eng = z.eng
  plc : Part.plc ∈ m ∨ t.plc = z.plc
  cores : Part.cores ∈ m ∨ t.cores = z.cores
  pwr : Part.pwr ∈ m ∨ t.pwr = z.pwr
  mgt : Part.mgt ∈ m ∨ t.mgt = z.mgt
  test : Part.test ∈ m ∨ t.test = z.test
  falls : Part.falls ∈ m ∨ ∀ c, (vaultCounter z c).toNat ≤ (vaultCounter t c).toNat

namespace Keeps

theorem refl (m : List Part) (s : State) : Keeps m s s where
  wf := id
  pending := rfl
  deviceId := rfl
  slots := rfl
  grows := Nat.le_refl _
  log := List.suffix_refl _
  regs := .inr rfl
  cnts := .inr rfl
  snaps := .inr rfl
  free := .inr rfl
  mem := .inr rfl
  outs := .inr rfl
  resp := .inr rfl
  intc := .inr rfl
  sys := .inr rfl
  sw := .inr rfl
  eth := .inr rfl
  gate := .inr rfl
  vlt := .inr rfl
  bnk := .inr rfl
  plk := .inr rfl
  mdb := .inr rfl
  ptc := .inr rfl
  fiq := .inr rfl
  aq := .inr rfl
  mbx := .inr rfl
  hif := .inr rfl
  time := .inr rfl
  eng := .inr rfl
  plc := .inr rfl
  cores := .inr rfl
  pwr := .inr rfl
  mgt := .inr rfl
  test := .inr rfl
  falls := .inr fun _ => Nat.le_refl _

/-- The parts not listed are the same. -/
theorem only {m : List Part} {s t : State} (h : Keeps m s t) : Only m s t := by
  refine ⟨h.pending, fun p hp => ?_⟩
  cases p
  · exact h.regs.resolve_left hp
  · exact h.cnts.resolve_left hp
  · exact h.snaps.resolve_left hp
  · exact h.free.resolve_left hp
  · exact h.mem.resolve_left hp
  · exact h.outs.resolve_left hp
  · exact h.resp.resolve_left hp
  · exact h.intc.resolve_left hp
  · exact h.sys.resolve_left hp
  · exact h.sw.resolve_left hp
  · exact h.eth.resolve_left hp
  · exact h.gate.resolve_left hp
  · exact h.vlt.resolve_left hp
  · exact h.bnk.resolve_left hp
  · exact h.plk.resolve_left hp
  · exact h.mdb.resolve_left hp
  · exact h.ptc.resolve_left hp
  · exact h.fiq.resolve_left hp
  · exact h.aq.resolve_left hp
  · exact h.mbx.resolve_left hp
  · exact h.hif.resolve_left hp
  · exact h.time.resolve_left hp
  · exact h.eng.resolve_left hp
  · exact h.plc.resolve_left hp
  · exact h.cores.resolve_left hp
  · exact h.pwr.resolve_left hp
  · exact h.mgt.resolve_left hp
  · exact h.test.resolve_left hp
  · exact h.falls.resolve_left hp

/-- A longer list allows more. -/
theorem mono {m n : List Part} {s t : State} (h : Keeps m s t) (hm : ∀ p ∈ m, p ∈ n) : Keeps n s t where
  wf := h.wf
  pending := h.pending
  deviceId := h.deviceId
  slots := h.slots
  grows := h.grows
  log := h.log
  regs := h.regs.imp (hm _) id
  cnts := h.cnts.imp (hm _) id
  snaps := h.snaps.imp (hm _) id
  free := h.free.imp (hm _) id
  mem := h.mem.imp (hm _) id
  outs := h.outs.imp (hm _) id
  resp := h.resp.imp (hm _) id
  intc := h.intc.imp (hm _) id
  sys := h.sys.imp (hm _) id
  sw := h.sw.imp (hm _) id
  eth := h.eth.imp (hm _) id
  gate := h.gate.imp (hm _) id
  vlt := h.vlt.imp (hm _) id
  bnk := h.bnk.imp (hm _) id
  plk := h.plk.imp (hm _) id
  mdb := h.mdb.imp (hm _) id
  ptc := h.ptc.imp (hm _) id
  fiq := h.fiq.imp (hm _) id
  aq := h.aq.imp (hm _) id
  mbx := h.mbx.imp (hm _) id
  hif := h.hif.imp (hm _) id
  time := h.time.imp (hm _) id
  eng := h.eng.imp (hm _) id
  plc := h.plc.imp (hm _) id
  cores := h.cores.imp (hm _) id
  pwr := h.pwr.imp (hm _) id
  mgt := h.mgt.imp (hm _) id
  test := h.test.imp (hm _) id
  falls := h.falls.imp (hm _) id

theorem used {m : List Part} {z s : State} {n : Nat} (h_free : Part.free ∈ m) (h : Keeps m z s) :
    Keeps m z { s with free := s.free + n } :=
  { h with grows := Nat.le_trans h.grows (Nat.le_add_right _ _), free := .inl h_free }

theorem logged {m : List Part} {z s : State} {o : Out} (h_outs : Part.outs ∈ m) (h : Keeps m z s) :
    Keeps m z { s with outs := o :: s.outs } :=
  { h with log := h.log.trans (List.suffix_cons _ _), outs := .inl h_outs }

/-- Memory changes in a way that keeps its form. -/
theorem memory {m : List Part} {z s : State} {l : List Host.Cell} (h_mem : Part.mem ∈ m)
    (hl : Memory.wf s.mem = true → Memory.wf l = true) (h : Keeps m z s) : Keeps m z { s with mem := l } :=
  { h with wf := fun w => hl (h.wf w), mem := .inl h_mem }

/-- A run of bytes is written. -/
theorem put {m : List Part} {z s : State} {k : Nat} {l : List Byte} (h_mem : Part.mem ∈ m) (h : Keeps m z s) :
    Keeps m z { s with mem := memPut s.mem k l } :=
  memory h_mem (memPut_wf _ _ _) h

theorem ite {m : List Part} {z a b : State} {c : Prop} [Decidable c] (ha : c → Keeps m z a) (hb : ¬c → Keeps m z b) :
    Keeps m z (if c then a else b) := by
  split
  · exact ha ‹_›
  · exact hb ‹_›

theorem foldl {α : Type} {m : List Part} {z : State} {f : State → α → State} {l : List α} {s : State}
    (hf : ∀ t x, Keeps m z t → Keeps m z (f t x)) (h : Keeps m z s) : Keeps m z (l.foldl f s) := by
  induction l generalizing s with
  | nil => exact h
  | cons x r ih => exact ih (hf _ _ h)

theorem foldr {α : Type} {m : List Part} {z : State} {f : α → State → State} {l : List α} {s : State}
    (hf : ∀ t x, Keeps m z t → Keeps m z (f x t)) (h : Keeps m z s) : Keeps m z (l.foldr f s) := by
  induction l with
  | nil => exact h
  | cons x r ih => exact hf _ _ ih

theorem someIf {m : List Part} {z s t : State} {c : Prop} [Decidable c] {a : Option State}
    (h : (if c then a else some s) = some t) (ha : a = some t → Keeps m z t) (hs : Keeps m z s) : Keeps m z t := by
  split at h
  · exact ha h
  · simp only [Option.some.injEq] at h; subst h; exact hs

theorem foldlFst {α β : Type} {m : List Part} {z : State} {f : State × β → α → State × β} {l : List α} {p : State × β}
    (hf : ∀ t x, Keeps m z t.1 → Keeps m z (f t x).1) (h : Keeps m z p.1) : Keeps m z (l.foldl f p).1 := by
  induction l generalizing p with
  | nil => exact h
  | cons x r ih => exact ih (hf _ _ h)

theorem iteFst {α : Type} {m : List Part} {z : State} {a b : State × α} {c : Prop} [Decidable c]
    (ha : c → Keeps m z a.1) (hb : ¬c → Keeps m z b.1) : Keeps m z (if c then a else b).1 := by
  split
  · exact ha ‹_›
  · exact hb ‹_›

theorem ofFst {α : Type} {m : List Part} {z t : State} {x : α} {p : State × α} (h : p = (t, x)) (hp : Keeps m z p.1) :
    Keeps m z t := by
  subst h; exact hp

theorem ofSnd {α : Type} {m : List Part} {z t : State} {x : α} {p : α × State} (h : p = (x, t)) (hp : Keeps m z p.2) :
    Keeps m z t := by
  subst h; exact hp

/-! A state with some of its fields replaced: each lemma's name lists them. -/

theorem lit_regs {m : List Part} {z s : State} {x_regs : SMap Word} (h_regs : Part.regs ∈ m) :
    Keeps m z (State.mk s.pending x_regs s.cnts s.snaps s.free s.mem s.outs s.resp s.intc s.sys s.sw s.eth s.gate
        s.vlt s.bnk s.plk s.mdb s.ptc s.fiq s.aq s.mbx s.hif s.time s.eng s.plc s.cores s.pwr s.mgt s.test) = Keeps m
        z s :=
  propext ⟨fun h => { h with
      regs := .inl h_regs }, fun h => { h with
      regs := .inl h_regs }⟩

theorem lit_cnts {m : List Part} {z s : State} {x_cnts : SMap DWord} (h_cnts : Part.cnts ∈ m) :
    Keeps m z (State.mk s.pending s.regs x_cnts s.snaps s.free s.mem s.outs s.resp s.intc s.sys s.sw s.eth s.gate
        s.vlt s.bnk s.plk s.mdb s.ptc s.fiq s.aq s.mbx s.hif s.time s.eng s.plc s.cores s.pwr s.mgt s.test) = Keeps m
        z s :=
  propext ⟨fun h => { h with
      cnts := .inl h_cnts }, fun h => { h with
      cnts := .inl h_cnts }⟩

theorem lit_snaps {m : List Part} {z s : State} {x_snaps : SMap DWord} (h_snaps : Part.snaps ∈ m) :
    Keeps m z (State.mk s.pending s.regs s.cnts x_snaps s.free s.mem s.outs s.resp s.intc s.sys s.sw s.eth s.gate
        s.vlt s.bnk s.plk s.mdb s.ptc s.fiq s.aq s.mbx s.hif s.time s.eng s.plc s.cores s.pwr s.mgt s.test) = Keeps m
        z s :=
  propext ⟨fun h => { h with
      snaps := .inl h_snaps }, fun h => { h with
      snaps := .inl h_snaps }⟩

theorem lit_resp {m : List Part} {z s : State} {x_resp : Resp} (h_resp : Part.resp ∈ m) :
    Keeps m z (State.mk s.pending s.regs s.cnts s.snaps s.free s.mem s.outs x_resp s.intc s.sys s.sw s.eth s.gate
        s.vlt s.bnk s.plk s.mdb s.ptc s.fiq s.aq s.mbx s.hif s.time s.eng s.plc s.cores s.pwr s.mgt s.test) = Keeps m
        z s :=
  propext ⟨fun h => { h with
      resp := .inl h_resp }, fun h => { h with
      resp := .inl h_resp }⟩

theorem lit_intc {m : List Part} {z s : State} {x_intc : IntcSt} (h_intc : Part.intc ∈ m) :
    Keeps m z (State.mk s.pending s.regs s.cnts s.snaps s.free s.mem s.outs s.resp x_intc s.sys s.sw s.eth s.gate
        s.vlt s.bnk s.plk s.mdb s.ptc s.fiq s.aq s.mbx s.hif s.time s.eng s.plc s.cores s.pwr s.mgt s.test) = Keeps m
        z s :=
  propext ⟨fun h => { h with
      intc := .inl h_intc }, fun h => { h with
      intc := .inl h_intc }⟩

theorem lit_sys {m : List Part} {z s : State}  {y_held : Bool} {y_ready : Nat} {y_aonTicks : Nat} {y_relAt : Nat}
    {y_softPend : Bool} {y_bundles : List Bundle} {y_prog : Option BundleProg} {y_everStarted : Bool} {y_mgpDownTil :
    DWord} {y_thermHold : Bool} {y_pmicEn : Bool} {y_pmicSramEn : Bool} {y_scanLock : Bool} {y_imageCounter : DWord}
    {y_unconfN : Nat} {y_unconfFirst : Nat} {y_badPages : List Nat} (h_sys : Part.sys ∈ m) :
    Keeps m z (State.mk s.pending s.regs s.cnts s.snaps s.free s.mem s.outs s.resp s.intc (SysSt.mk y_held y_ready
        y_aonTicks y_relAt y_softPend s.sys.deviceId s.sys.slots y_bundles y_prog y_everStarted y_mgpDownTil
        y_thermHold y_pmicEn y_pmicSramEn y_scanLock y_imageCounter y_unconfN y_unconfFirst y_badPages) s.sw s.eth
        s.gate s.vlt s.bnk s.plk s.mdb s.ptc s.fiq s.aq s.mbx s.hif s.time s.eng s.plc s.cores s.pwr s.mgt s.test) =
        Keeps m z s :=
  propext ⟨fun h => { h with
      sys := .inl h_sys }, fun h => { h with
      sys := .inl h_sys }⟩

theorem lit_sw {m : List Part} {z s : State} {x_sw : SwSt} (h_sw : Part.sw ∈ m) :
    Keeps m z (State.mk s.pending s.regs s.cnts s.snaps s.free s.mem s.outs s.resp s.intc s.sys x_sw s.eth s.gate
        s.vlt s.bnk s.plk s.mdb s.ptc s.fiq s.aq s.mbx s.hif s.time s.eng s.plc s.cores s.pwr s.mgt s.test) = Keeps m
        z s :=
  propext ⟨fun h => { h with
      sw := .inl h_sw }, fun h => { h with
      sw := .inl h_sw }⟩

theorem lit_eth {m : List Part} {z s : State} {x_eth : EthSt} (h_eth : Part.eth ∈ m) :
    Keeps m z (State.mk s.pending s.regs s.cnts s.snaps s.free s.mem s.outs s.resp s.intc s.sys s.sw x_eth s.gate
        s.vlt s.bnk s.plk s.mdb s.ptc s.fiq s.aq s.mbx s.hif s.time s.eng s.plc s.cores s.pwr s.mgt s.test) = Keeps m
        z s :=
  propext ⟨fun h => { h with
      eth := .inl h_eth }, fun h => { h with
      eth := .inl h_eth }⟩

theorem lit_gate {m : List Part} {z s : State} {x_gate : GateSt} (h_gate : Part.gate ∈ m) :
    Keeps m z (State.mk s.pending s.regs s.cnts s.snaps s.free s.mem s.outs s.resp s.intc s.sys s.sw s.eth x_gate
        s.vlt s.bnk s.plk s.mdb s.ptc s.fiq s.aq s.mbx s.hif s.time s.eng s.plc s.cores s.pwr s.mgt s.test) = Keeps m
        z s :=
  propext ⟨fun h => { h with
      gate := .inl h_gate }, fun h => { h with
      gate := .inl h_gate }⟩

theorem lit_vlt {m : List Part} {z s : State}  {w_marks : SMap DWord} {w_markWr : SMap DWord} {w_catImg : SMap
    CatEnt} {w_poolImg : SMap Byte} {w_tags : SMap (BitVec 128)} {w_idPriv : BitVec 256} {w_health : HealthRec}
    {w_fwState : SMap Byte} {w_waiting : List VReq} {w_journal : SMap Word} {w_jsec : Option (Bool × Nat)} {w_jtime :
    Bool} {w_jsplit : Bool} {w_jlow : Bool} {w_sieveNow : Nat} {w_sieveMissed : Nat} {w_sums : List SumRec}
    {w_persisted : List PBundle} {w_tagSeq : Nat} {w_cntBusy : Option (Nat × DWord × Nat)} {w_exp : Option (Nat × Nat
    × Nat)} {w_eraseMark : Bool} {w_rows : SMap Nat} {w_fill : SMap Nat} {w_pageWr : SMap Nat} {w_jwear : Nat} (h_vlt
    : Part.vlt ∈ m) :
    Keeps m z (State.mk s.pending s.regs s.cnts s.snaps s.free s.mem s.outs s.resp s.intc s.sys s.sw s.eth s.gate
        (VltSt.mk s.vlt.counters w_marks w_markWr w_catImg w_poolImg w_tags w_idPriv w_health w_fwState w_waiting
        w_journal w_jsec w_jtime w_jsplit w_jlow w_sieveNow w_sieveMissed w_sums w_persisted w_tagSeq w_cntBusy w_exp
        w_eraseMark w_rows w_fill w_pageWr w_jwear) s.bnk s.plk s.mdb s.ptc s.fiq s.aq s.mbx s.hif s.time s.eng s.plc
        s.cores s.pwr s.mgt s.test) = Keeps m z s :=
  propext ⟨fun h => { h with
      vlt := .inl h_vlt }, fun h => { h with
      vlt := .inl h_vlt }⟩

theorem lit_bnk {m : List Part} {z s : State} {x_bnk : BnkSt} (h_bnk : Part.bnk ∈ m) :
    Keeps m z (State.mk s.pending s.regs s.cnts s.snaps s.free s.mem s.outs s.resp s.intc s.sys s.sw s.eth s.gate
        s.vlt x_bnk s.plk s.mdb s.ptc s.fiq s.aq s.mbx s.hif s.time s.eng s.plc s.cores s.pwr s.mgt s.test) = Keeps m
        z s :=
  propext ⟨fun h => { h with
      bnk := .inl h_bnk }, fun h => { h with
      bnk := .inl h_bnk }⟩

theorem lit_plk {m : List Part} {z s : State} {x_plk : SMap PlkSt} (h_plk : Part.plk ∈ m) :
    Keeps m z (State.mk s.pending s.regs s.cnts s.snaps s.free s.mem s.outs s.resp s.intc s.sys s.sw s.eth s.gate
        s.vlt s.bnk x_plk s.mdb s.ptc s.fiq s.aq s.mbx s.hif s.time s.eng s.plc s.cores s.pwr s.mgt s.test) = Keeps m
        z s :=
  propext ⟨fun h => { h with
      plk := .inl h_plk }, fun h => { h with
      plk := .inl h_plk }⟩

theorem lit_mdb {m : List Part} {z s : State} {x_mdb : SMap MdbSt} (h_mdb : Part.mdb ∈ m) :
    Keeps m z (State.mk s.pending s.regs s.cnts s.snaps s.free s.mem s.outs s.resp s.intc s.sys s.sw s.eth s.gate
        s.vlt s.bnk s.plk x_mdb s.ptc s.fiq s.aq s.mbx s.hif s.time s.eng s.plc s.cores s.pwr s.mgt s.test) = Keeps m
        z s :=
  propext ⟨fun h => { h with
      mdb := .inl h_mdb }, fun h => { h with
      mdb := .inl h_mdb }⟩

theorem lit_ptc {m : List Part} {z s : State} {x_ptc : SMap PtcSt} (h_ptc : Part.ptc ∈ m) :
    Keeps m z (State.mk s.pending s.regs s.cnts s.snaps s.free s.mem s.outs s.resp s.intc s.sys s.sw s.eth s.gate
        s.vlt s.bnk s.plk s.mdb x_ptc s.fiq s.aq s.mbx s.hif s.time s.eng s.plc s.cores s.pwr s.mgt s.test) = Keeps m
        z s :=
  propext ⟨fun h => { h with
      ptc := .inl h_ptc }, fun h => { h with
      ptc := .inl h_ptc }⟩

theorem lit_fiq {m : List Part} {z s : State} {x_fiq : SMap FiqSt} (h_fiq : Part.fiq ∈ m) :
    Keeps m z (State.mk s.pending s.regs s.cnts s.snaps s.free s.mem s.outs s.resp s.intc s.sys s.sw s.eth s.gate
        s.vlt s.bnk s.plk s.mdb s.ptc x_fiq s.aq s.mbx s.hif s.time s.eng s.plc s.cores s.pwr s.mgt s.test) = Keeps m
        z s :=
  propext ⟨fun h => { h with
      fiq := .inl h_fiq }, fun h => { h with
      fiq := .inl h_fiq }⟩

theorem lit_aq {m : List Part} {z s : State} {x_aq : SMap (List Word)} (h_aq : Part.aq ∈ m) :
    Keeps m z (State.mk s.pending s.regs s.cnts s.snaps s.free s.mem s.outs s.resp s.intc s.sys s.sw s.eth s.gate
        s.vlt s.bnk s.plk s.mdb s.ptc s.fiq x_aq s.mbx s.hif s.time s.eng s.plc s.cores s.pwr s.mgt s.test) = Keeps m
        z s :=
  propext ⟨fun h => { h with
      aq := .inl h_aq }, fun h => { h with
      aq := .inl h_aq }⟩

theorem lit_mbx {m : List Part} {z s : State} {x_mbx : SMap Nat} (h_mbx : Part.mbx ∈ m) :
    Keeps m z (State.mk s.pending s.regs s.cnts s.snaps s.free s.mem s.outs s.resp s.intc s.sys s.sw s.eth s.gate
        s.vlt s.bnk s.plk s.mdb s.ptc s.fiq s.aq x_mbx s.hif s.time s.eng s.plc s.cores s.pwr s.mgt s.test) = Keeps m
        z s :=
  propext ⟨fun h => { h with
      mbx := .inl h_mbx }, fun h => { h with
      mbx := .inl h_mbx }⟩

theorem lit_hif {m : List Part} {z s : State} {x_hif : HifSt} (h_hif : Part.hif ∈ m) :
    Keeps m z (State.mk s.pending s.regs s.cnts s.snaps s.free s.mem s.outs s.resp s.intc s.sys s.sw s.eth s.gate
        s.vlt s.bnk s.plk s.mdb s.ptc s.fiq s.aq s.mbx x_hif s.time s.eng s.plc s.cores s.pwr s.mgt s.test) = Keeps m
        z s :=
  propext ⟨fun h => { h with
      hif := .inl h_hif }, fun h => { h with
      hif := .inl h_hif }⟩

theorem lit_time {m : List Part} {z s : State} {x_time : TimeSt} (h_time : Part.time ∈ m) :
    Keeps m z (State.mk s.pending s.regs s.cnts s.snaps s.free s.mem s.outs s.resp s.intc s.sys s.sw s.eth s.gate
        s.vlt s.bnk s.plk s.mdb s.ptc s.fiq s.aq s.mbx s.hif x_time s.eng s.plc s.cores s.pwr s.mgt s.test) = Keeps m
        z s :=
  propext ⟨fun h => { h with
      time := .inl h_time }, fun h => { h with
      time := .inl h_time }⟩

theorem lit_eng {m : List Part} {z s : State} {x_eng : SMap EngSt} (h_eng : Part.eng ∈ m) :
    Keeps m z (State.mk s.pending s.regs s.cnts s.snaps s.free s.mem s.outs s.resp s.intc s.sys s.sw s.eth s.gate
        s.vlt s.bnk s.plk s.mdb s.ptc s.fiq s.aq s.mbx s.hif s.time x_eng s.plc s.cores s.pwr s.mgt s.test) = Keeps m
        z s :=
  propext ⟨fun h => { h with
      eng := .inl h_eng }, fun h => { h with
      eng := .inl h_eng }⟩

theorem lit_plc {m : List Part} {z s : State} {x_plc : PlcSt} (h_plc : Part.plc ∈ m) :
    Keeps m z (State.mk s.pending s.regs s.cnts s.snaps s.free s.mem s.outs s.resp s.intc s.sys s.sw s.eth s.gate
        s.vlt s.bnk s.plk s.mdb s.ptc s.fiq s.aq s.mbx s.hif s.time s.eng x_plc s.cores s.pwr s.mgt s.test) = Keeps m
        z s :=
  propext ⟨fun h => { h with
      plc := .inl h_plc }, fun h => { h with
      plc := .inl h_plc }⟩

theorem lit_cores {m : List Part} {z s : State} {x_cores : SMap CoreSt} (h_cores : Part.cores ∈ m) :
    Keeps m z (State.mk s.pending s.regs s.cnts s.snaps s.free s.mem s.outs s.resp s.intc s.sys s.sw s.eth s.gate
        s.vlt s.bnk s.plk s.mdb s.ptc s.fiq s.aq s.mbx s.hif s.time s.eng s.plc x_cores s.pwr s.mgt s.test) = Keeps m
        z s :=
  propext ⟨fun h => { h with
      cores := .inl h_cores }, fun h => { h with
      cores := .inl h_cores }⟩

theorem lit_pwr {m : List Part} {z s : State} {x_pwr : PwrSt} (h_pwr : Part.pwr ∈ m) :
    Keeps m z (State.mk s.pending s.regs s.cnts s.snaps s.free s.mem s.outs s.resp s.intc s.sys s.sw s.eth s.gate
        s.vlt s.bnk s.plk s.mdb s.ptc s.fiq s.aq s.mbx s.hif s.time s.eng s.plc s.cores x_pwr s.mgt s.test) = Keeps m
        z s :=
  propext ⟨fun h => { h with
      pwr := .inl h_pwr }, fun h => { h with
      pwr := .inl h_pwr }⟩

theorem lit_mgt {m : List Part} {z s : State} {x_mgt : MgtSt} (h_mgt : Part.mgt ∈ m) :
    Keeps m z (State.mk s.pending s.regs s.cnts s.snaps s.free s.mem s.outs s.resp s.intc s.sys s.sw s.eth s.gate
        s.vlt s.bnk s.plk s.mdb s.ptc s.fiq s.aq s.mbx s.hif s.time s.eng s.plc s.cores s.pwr x_mgt s.test) = Keeps m
        z s :=
  propext ⟨fun h => { h with
      mgt := .inl h_mgt }, fun h => { h with
      mgt := .inl h_mgt }⟩

theorem lit_test {m : List Part} {z s : State} {x_test : TestSt} (h_test : Part.test ∈ m) :
    Keeps m z (State.mk s.pending s.regs s.cnts s.snaps s.free s.mem s.outs s.resp s.intc s.sys s.sw s.eth s.gate
        s.vlt s.bnk s.plk s.mdb s.ptc s.fiq s.aq s.mbx s.hif s.time s.eng s.plc s.cores s.pwr s.mgt x_test) = Keeps m
        z s :=
  propext ⟨fun h => { h with
      test := .inl h_test }, fun h => { h with
      test := .inl h_test }⟩

theorem lit_cnts_snaps {m : List Part} {z s : State} {x_cnts : SMap DWord} {x_snaps : SMap DWord} (h_cnts :
    Part.cnts ∈ m) (h_snaps : Part.snaps ∈ m) :
    Keeps m z (State.mk s.pending s.regs x_cnts x_snaps s.free s.mem s.outs s.resp s.intc s.sys s.sw s.eth s.gate
        s.vlt s.bnk s.plk s.mdb s.ptc s.fiq s.aq s.mbx s.hif s.time s.eng s.plc s.cores s.pwr s.mgt s.test) = Keeps m
        z s :=
  propext ⟨fun h => { h with
      cnts := .inl h_cnts
      snaps := .inl h_snaps }, fun h => { h with
      cnts := .inl h_cnts
      snaps := .inl h_snaps }⟩

theorem lit_cnts_time {m : List Part} {z s : State} {x_cnts : SMap DWord} {x_time : TimeSt} (h_cnts : Part.cnts ∈
    m) (h_time : Part.time ∈ m) :
    Keeps m z (State.mk s.pending s.regs x_cnts s.snaps s.free s.mem s.outs s.resp s.intc s.sys s.sw s.eth s.gate
        s.vlt s.bnk s.plk s.mdb s.ptc s.fiq s.aq s.mbx s.hif x_time s.eng s.plc s.cores s.pwr s.mgt s.test) = Keeps m
        z s :=
  propext ⟨fun h => { h with
      cnts := .inl h_cnts
      time := .inl h_time }, fun h => { h with
      cnts := .inl h_cnts
      time := .inl h_time }⟩

theorem lit_sys_gate {m : List Part} {z s : State} {x_gate : GateSt} {y_held : Bool} {y_ready : Nat} {y_aonTicks :
    Nat} {y_relAt : Nat} {y_softPend : Bool} {y_bundles : List Bundle} {y_prog : Option BundleProg} {y_everStarted :
    Bool} {y_mgpDownTil : DWord} {y_thermHold : Bool} {y_pmicEn : Bool} {y_pmicSramEn : Bool} {y_scanLock : Bool}
    {y_imageCounter : DWord} {y_unconfN : Nat} {y_unconfFirst : Nat} {y_badPages : List Nat} (h_sys : Part.sys ∈ m)
    (h_gate : Part.gate ∈ m) :
    Keeps m z (State.mk s.pending s.regs s.cnts s.snaps s.free s.mem s.outs s.resp s.intc (SysSt.mk y_held y_ready
        y_aonTicks y_relAt y_softPend s.sys.deviceId s.sys.slots y_bundles y_prog y_everStarted y_mgpDownTil
        y_thermHold y_pmicEn y_pmicSramEn y_scanLock y_imageCounter y_unconfN y_unconfFirst y_badPages) s.sw s.eth
        x_gate s.vlt s.bnk s.plk s.mdb s.ptc s.fiq s.aq s.mbx s.hif s.time s.eng s.plc s.cores s.pwr s.mgt s.test) =
        Keeps m z s :=
  propext ⟨fun h => { h with
      sys := .inl h_sys
      gate := .inl h_gate }, fun h => { h with
      sys := .inl h_sys
      gate := .inl h_gate }⟩

theorem lit_sys_time {m : List Part} {z s : State} {x_time : TimeSt} {y_held : Bool} {y_ready : Nat} {y_aonTicks :
    Nat} {y_relAt : Nat} {y_softPend : Bool} {y_bundles : List Bundle} {y_prog : Option BundleProg} {y_everStarted :
    Bool} {y_mgpDownTil : DWord} {y_thermHold : Bool} {y_pmicEn : Bool} {y_pmicSramEn : Bool} {y_scanLock : Bool}
    {y_imageCounter : DWord} {y_unconfN : Nat} {y_unconfFirst : Nat} {y_badPages : List Nat} (h_sys : Part.sys ∈ m)
    (h_time : Part.time ∈ m) :
    Keeps m z (State.mk s.pending s.regs s.cnts s.snaps s.free s.mem s.outs s.resp s.intc (SysSt.mk y_held y_ready
        y_aonTicks y_relAt y_softPend s.sys.deviceId s.sys.slots y_bundles y_prog y_everStarted y_mgpDownTil
        y_thermHold y_pmicEn y_pmicSramEn y_scanLock y_imageCounter y_unconfN y_unconfFirst y_badPages) s.sw s.eth
        s.gate s.vlt s.bnk s.plk s.mdb s.ptc s.fiq s.aq s.mbx s.hif x_time s.eng s.plc s.cores s.pwr s.mgt s.test) =
        Keeps m z s :=
  propext ⟨fun h => { h with
      sys := .inl h_sys
      time := .inl h_time }, fun h => { h with
      sys := .inl h_sys
      time := .inl h_time }⟩

theorem lit_sys_pwr {m : List Part} {z s : State} {x_pwr : PwrSt} {y_held : Bool} {y_ready : Nat} {y_aonTicks :
    Nat} {y_relAt : Nat} {y_softPend : Bool} {y_bundles : List Bundle} {y_prog : Option BundleProg} {y_everStarted :
    Bool} {y_mgpDownTil : DWord} {y_thermHold : Bool} {y_pmicEn : Bool} {y_pmicSramEn : Bool} {y_scanLock : Bool}
    {y_imageCounter : DWord} {y_unconfN : Nat} {y_unconfFirst : Nat} {y_badPages : List Nat} (h_sys : Part.sys ∈ m)
    (h_pwr : Part.pwr ∈ m) :
    Keeps m z (State.mk s.pending s.regs s.cnts s.snaps s.free s.mem s.outs s.resp s.intc (SysSt.mk y_held y_ready
        y_aonTicks y_relAt y_softPend s.sys.deviceId s.sys.slots y_bundles y_prog y_everStarted y_mgpDownTil
        y_thermHold y_pmicEn y_pmicSramEn y_scanLock y_imageCounter y_unconfN y_unconfFirst y_badPages) s.sw s.eth
        s.gate s.vlt s.bnk s.plk s.mdb s.ptc s.fiq s.aq s.mbx s.hif s.time s.eng s.plc s.cores x_pwr s.mgt s.test) =
        Keeps m z s :=
  propext ⟨fun h => { h with
      sys := .inl h_sys
      pwr := .inl h_pwr }, fun h => { h with
      sys := .inl h_sys
      pwr := .inl h_pwr }⟩

theorem lit_sw_bnk {m : List Part} {z s : State} {x_sw : SwSt} {x_bnk : BnkSt} (h_sw : Part.sw ∈ m) (h_bnk :
    Part.bnk ∈ m) :
    Keeps m z (State.mk s.pending s.regs s.cnts s.snaps s.free s.mem s.outs s.resp s.intc s.sys x_sw s.eth s.gate
        s.vlt x_bnk s.plk s.mdb s.ptc s.fiq s.aq s.mbx s.hif s.time s.eng s.plc s.cores s.pwr s.mgt s.test) = Keeps m
        z s :=
  propext ⟨fun h => { h with
      sw := .inl h_sw
      bnk := .inl h_bnk }, fun h => { h with
      sw := .inl h_sw
      bnk := .inl h_bnk }⟩

theorem lit_gate_vlt {m : List Part} {z s : State} {x_gate : GateSt} {w_marks : SMap DWord} {w_markWr : SMap
    DWord} {w_catImg : SMap CatEnt} {w_poolImg : SMap Byte} {w_tags : SMap (BitVec 128)} {w_idPriv : BitVec 256}
    {w_health : HealthRec} {w_fwState : SMap Byte} {w_waiting : List VReq} {w_journal : SMap Word} {w_jsec : Option
    (Bool × Nat)} {w_jtime : Bool} {w_jsplit : Bool} {w_jlow : Bool} {w_sieveNow : Nat} {w_sieveMissed : Nat} {w_sums
    : List SumRec} {w_persisted : List PBundle} {w_tagSeq : Nat} {w_cntBusy : Option (Nat × DWord × Nat)} {w_exp :
    Option (Nat × Nat × Nat)} {w_eraseMark : Bool} {w_rows : SMap Nat} {w_fill : SMap Nat} {w_pageWr : SMap Nat}
    {w_jwear : Nat} (h_gate : Part.gate ∈ m) (h_vlt : Part.vlt ∈ m) :
    Keeps m z (State.mk s.pending s.regs s.cnts s.snaps s.free s.mem s.outs s.resp s.intc s.sys s.sw s.eth x_gate
        (VltSt.mk s.vlt.counters w_marks w_markWr w_catImg w_poolImg w_tags w_idPriv w_health w_fwState w_waiting
        w_journal w_jsec w_jtime w_jsplit w_jlow w_sieveNow w_sieveMissed w_sums w_persisted w_tagSeq w_cntBusy w_exp
        w_eraseMark w_rows w_fill w_pageWr w_jwear) s.bnk s.plk s.mdb s.ptc s.fiq s.aq s.mbx s.hif s.time s.eng s.plc
        s.cores s.pwr s.mgt s.test) = Keeps m z s :=
  propext ⟨fun h => { h with
      gate := .inl h_gate
      vlt := .inl h_vlt }, fun h => { h with
      gate := .inl h_gate
      vlt := .inl h_vlt }⟩

theorem lit_fiq_aq {m : List Part} {z s : State} {x_fiq : SMap FiqSt} {x_aq : SMap (List Word)} (h_fiq : Part.fiq
    ∈ m) (h_aq : Part.aq ∈ m) :
    Keeps m z (State.mk s.pending s.regs s.cnts s.snaps s.free s.mem s.outs s.resp s.intc s.sys s.sw s.eth s.gate
        s.vlt s.bnk s.plk s.mdb s.ptc x_fiq x_aq s.mbx s.hif s.time s.eng s.plc s.cores s.pwr s.mgt s.test) = Keeps m
        z s :=
  propext ⟨fun h => { h with
      fiq := .inl h_fiq
      aq := .inl h_aq }, fun h => { h with
      fiq := .inl h_fiq
      aq := .inl h_aq }⟩

theorem lit_hif_time {m : List Part} {z s : State} {x_hif : HifSt} {x_time : TimeSt} (h_hif : Part.hif ∈ m)
    (h_time : Part.time ∈ m) :
    Keeps m z (State.mk s.pending s.regs s.cnts s.snaps s.free s.mem s.outs s.resp s.intc s.sys s.sw s.eth s.gate
        s.vlt s.bnk s.plk s.mdb s.ptc s.fiq s.aq s.mbx x_hif x_time s.eng s.plc s.cores s.pwr s.mgt s.test) = Keeps m
        z s :=
  propext ⟨fun h => { h with
      hif := .inl h_hif
      time := .inl h_time }, fun h => { h with
      hif := .inl h_hif
      time := .inl h_time }⟩

theorem lit_regs_cnts_snaps {m : List Part} {z s : State} {x_regs : SMap Word} {x_cnts : SMap DWord} {x_snaps :
    SMap DWord} (h_regs : Part.regs ∈ m) (h_cnts : Part.cnts ∈ m) (h_snaps : Part.snaps ∈ m) :
    Keeps m z (State.mk s.pending x_regs x_cnts x_snaps s.free s.mem s.outs s.resp s.intc s.sys s.sw s.eth s.gate
        s.vlt s.bnk s.plk s.mdb s.ptc s.fiq s.aq s.mbx s.hif s.time s.eng s.plc s.cores s.pwr s.mgt s.test) = Keeps m
        z s :=
  propext ⟨fun h => { h with
      regs := .inl h_regs
      cnts := .inl h_cnts
      snaps := .inl h_snaps }, fun h => { h with
      regs := .inl h_regs
      cnts := .inl h_cnts
      snaps := .inl h_snaps }⟩

theorem lit_bnk_hif_pwr {m : List Part} {z s : State} {x_bnk : BnkSt} {x_hif : HifSt} {x_pwr : PwrSt} (h_bnk :
    Part.bnk ∈ m) (h_hif : Part.hif ∈ m) (h_pwr : Part.pwr ∈ m) :
    Keeps m z (State.mk s.pending s.regs s.cnts s.snaps s.free s.mem s.outs s.resp s.intc s.sys s.sw s.eth s.gate
        s.vlt x_bnk s.plk s.mdb s.ptc s.fiq s.aq s.mbx x_hif s.time s.eng s.plc s.cores x_pwr s.mgt s.test) = Keeps m
        z s :=
  propext ⟨fun h => { h with
      bnk := .inl h_bnk
      hif := .inl h_hif
      pwr := .inl h_pwr }, fun h => { h with
      bnk := .inl h_bnk
      hif := .inl h_hif
      pwr := .inl h_pwr }⟩

theorem lit_sys_hif_time_pwr {m : List Part} {z s : State} {x_hif : HifSt} {x_time : TimeSt} {x_pwr : PwrSt}
    {y_held : Bool} {y_ready : Nat} {y_aonTicks : Nat} {y_relAt : Nat} {y_softPend : Bool} {y_bundles : List Bundle}
    {y_prog : Option BundleProg} {y_everStarted : Bool} {y_mgpDownTil : DWord} {y_thermHold : Bool} {y_pmicEn : Bool}
    {y_pmicSramEn : Bool} {y_scanLock : Bool} {y_imageCounter : DWord} {y_unconfN : Nat} {y_unconfFirst : Nat}
    {y_badPages : List Nat} (h_sys : Part.sys ∈ m) (h_hif : Part.hif ∈ m) (h_time : Part.time ∈ m) (h_pwr : Part.pwr ∈
    m) :
    Keeps m z (State.mk s.pending s.regs s.cnts s.snaps s.free s.mem s.outs s.resp s.intc (SysSt.mk y_held y_ready
        y_aonTicks y_relAt y_softPend s.sys.deviceId s.sys.slots y_bundles y_prog y_everStarted y_mgpDownTil
        y_thermHold y_pmicEn y_pmicSramEn y_scanLock y_imageCounter y_unconfN y_unconfFirst y_badPages) s.sw s.eth
        s.gate s.vlt s.bnk s.plk s.mdb s.ptc s.fiq s.aq s.mbx x_hif x_time s.eng s.plc s.cores x_pwr s.mgt s.test) =
        Keeps m z s :=
  propext ⟨fun h => { h with
      sys := .inl h_sys
      hif := .inl h_hif
      time := .inl h_time
      pwr := .inl h_pwr }, fun h => { h with
      sys := .inl h_sys
      hif := .inl h_hif
      time := .inl h_time
      pwr := .inl h_pwr }⟩

end Keeps

end Sys2Proof.Laws
end

