-- ==== Sys2Proof/Laws/KeepsOps.lean ====
section
/-! SUPPORT. What the operations of `Machine/Ops.lean` keep. -/

namespace Sys2Proof.Laws.K

open Sys2Proof Sys2Proof.Machine Sys2Proof.Laws

theorem setR {pset : List Part} {z0 : State} {s : State} {a : Nat} {v : Word} (h_regs : Part.regs ∈ pset) (hk :
    Keeps pset z0 s) : Keeps pset z0 (Machine.setR s a v) := by
  unfold Machine.setR
  repeat' (first
    | with_reducible first
      | assumption
    | dsimp only | simp only [Keeps.lit_regs h_regs])

theorem putF {pset : List Part} {z0 : State} {s : State} {a : Nat} {hi : Nat} {lo : Nat} {v : Nat} (h_regs :
    Part.regs ∈ pset) (hk : Keeps pset z0 s) : Keeps pset z0 (Machine.putF s a hi lo v) := by
  unfold Machine.putF
  repeat' (first
    | with_reducible first
      | assumption | apply K.setR h_regs)

theorem putB {pset : List Part} {z0 : State} {s : State} {a : Nat} {i : Nat} {b : Bool} (h_regs : Part.regs ∈
    pset) (hk : Keeps pset z0 s) : Keeps pset z0 (Machine.putB s a i b) := by
  unfold Machine.putB
  repeat' (first
    | with_reducible first
      | assumption | apply K.setR h_regs)

theorem setR64 {pset : List Part} {z0 : State} {s : State} {a : Nat} {v : DWord} (h_regs : Part.regs ∈ pset) (hk :
    Keeps pset z0 s) : Keeps pset z0 (Machine.setR64 s a v) := by
  unfold Machine.setR64
  repeat' (first
    | with_reducible first
      | assumption | apply K.setR h_regs)

theorem satInc {pset : List Part} {z0 : State} {s : State} {a : Nat} (h_regs : Part.regs ∈ pset) (hk : Keeps pset
    z0 s) : Keeps pset z0 (Machine.satInc s a) := by
  unfold Machine.satInc
  repeat' (first
    | with_reducible first
      | assumption | apply K.setR h_regs | refine Keeps.ite (fun _ => ?_) (fun _ => ?_)
    | split)

theorem bumpN {pset : List Part} {z0 : State} {s : State} {a : Nat} {n : Nat} (h_cnts : Part.cnts ∈ pset) (hk :
    Keeps pset z0 s) : Keeps pset z0 (Machine.bumpN s a n) := by
  unfold Machine.bumpN
  repeat' (first
    | with_reducible first
      | assumption
    | dsimp only | simp only [Keeps.lit_cnts h_cnts])

theorem bump {pset : List Part} {z0 : State} {s : State} {a : Nat} (h_cnts : Part.cnts ∈ pset) (hk : Keeps pset z0
    s) : Keeps pset z0 (Machine.bump s a) := by
  unfold Machine.bump
  repeat' (first
    | with_reducible first
      | assumption | apply K.bumpN h_cnts)

theorem snapRange {pset : List Part} {z0 : State} {s : State} {lo : Nat} {hi : Nat} {clr : Bool} (h_cnts :
    Part.cnts ∈ pset) (h_snaps : Part.snaps ∈ pset) (hk : Keeps pset z0 s) : Keeps pset z0 (Machine.snapRange s lo hi
    clr) := by
  unfold Machine.snapRange
  repeat' (first
    | with_reducible first
      | assumption | refine Keeps.ite (fun _ => ?_) (fun _ => ?_) | refine Keeps.foldl (fun _ _ _ => ?_) ?_
      | refine Keeps.foldlFst (fun _ _ _ => ?_) ?_
    | intro _ _ | dsimp only | split | simp only [Keeps.lit_cnts_snaps h_cnts h_snaps])

theorem fresh {pset : List Part} {z0 s : State} (h_free : Part.free ∈ pset) (hk : Keeps pset z0 s) :
    Keeps pset z0 (Machine.fresh s).2 :=
  Keeps.used h_free hk

theorem wrB {pset : List Part} {z0 s : State} {a : Nat} {b : Byte} (h_mem : Part.mem ∈ pset) (hk : Keeps pset z0 s) :
    Keeps pset z0 (Machine.wrB s a b) :=
  Keeps.memory h_mem (memWrite_wf _ _ _) hk

theorem wrBytes {pset : List Part} {z0 s : State} {a : Nat} {l : List Byte} (h_mem : Part.mem ∈ pset) (hk : Keeps
    pset z0 s) :
    Keeps pset z0 (Machine.wrBytes s a l) := by
  induction l generalizing s a with
  | nil => exact hk
  | cons b r ih => exact ih (K.wrB h_mem hk)

theorem wrLE {pset : List Part} {z0 : State} {s : State} {a : Nat} {n : Nat} {v : Nat} (h_mem : Part.mem ∈ pset)
    (hk : Keeps pset z0 s) : Keeps pset z0 (Machine.wrLE s a n v) := by
  unfold Machine.wrLE
  repeat' (first
    | with_reducible first
      | assumption | apply K.wrBytes h_mem)

theorem emit {pset : List Part} {z0 s : State} {o : Out} (h_outs : Part.outs ∈ pset) (hk : Keeps pset z0 s) :
    Keeps pset z0 (Machine.emit s o) :=
  Keeps.ite (fun _ => hk) (fun _ => Keeps.logged h_outs hk)

theorem answer {pset : List Part} {z0 : State} {s : State} {v : Word} (h_resp : Part.resp ∈ pset) (hk : Keeps pset
    z0 s) : Keeps pset z0 (Machine.answer s v) := by
  unfold Machine.answer
  repeat' (first
    | with_reducible first
      | assumption
    | dsimp only | simp only [Keeps.lit_resp h_resp])

theorem answerErr {pset : List Part} {z0 : State} {s : State} (h_resp : Part.resp ∈ pset) (hk : Keeps pset z0 s) :
    Keeps pset z0 (Machine.answerErr s) := by
  unfold Machine.answerErr
  repeat' (first
    | with_reducible first
      | assumption | apply K.busErr h_resp
    | dsimp only | simp only [Keeps.lit_resp h_resp])

theorem raiseEvent {pset : List Part} {z0 : State} {s : State} {n : Nat} {l : Nat} (h_regs : Part.regs ∈ pset) (hk
    : Keeps pset z0 s) : Keeps pset z0 (Machine.raiseEvent s n l) := by
  unfold Machine.raiseEvent
  repeat' (first
    | with_reducible first
      | assumption | apply K.putB h_regs | refine Keeps.ite (fun _ => ?_) (fun _ => ?_)
    | split)

theorem msixDue {pset : List Part} {z0 : State} {s : State} {v : Nat} (h_regs : Part.regs ∈ pset) (h_outs :
    Part.outs ∈ pset) (hk : Keeps pset z0 s) : Keeps pset z0 (Machine.msixDue s v).1 := by
  unfold Machine.msixDue
  repeat' (first
    | with_reducible first
      | assumption | apply K.putB h_regs | apply K.emit h_outs | refine Keeps.ite (fun _ => ?_) (fun _ => ?_)
      | refine Keeps.iteFst (fun _ => ?_) (fun _ => ?_)
    | dsimp only | split)

theorem intcEdges {pset : List Part} {z0 : State} {s : State} (h_regs : Part.regs ∈ pset) (h_outs : Part.outs ∈
    pset) (h_intc : Part.intc ∈ pset) (hk : Keeps pset z0 s) : Keeps pset z0 (Machine.intcEdges s).1 := by
  unfold Machine.intcEdges
  repeat' (first
    | with_reducible first
      | assumption | apply K.putB h_regs | apply K.raiseEvent h_regs | apply K.msixDue h_regs h_outs
      | refine Keeps.foldl (fun _ _ _ => ?_) ?_ | refine Keeps.foldlFst (fun _ _ _ => ?_) ?_
    | intro _ _ | dsimp only | simp only [Keeps.lit_intc h_intc])

theorem intcRefresh {pset : List Part} {z0 : State} {s : State} (h_regs : Part.regs ∈ pset) (h_outs : Part.outs ∈
    pset) (h_intc : Part.intc ∈ pset) (hk : Keeps pset z0 s) : Keeps pset z0 (Machine.intcRefresh s) := by
  unfold Machine.intcRefresh
  repeat' (first
    | with_reducible first
      | assumption | apply K.putB h_regs | apply K.intcEdges h_regs h_outs h_intc
      | refine Keeps.ite (fun _ => ?_) (fun _ => ?_)
    | dsimp only | split | simp only [Keeps.lit_intc h_intc])

theorem setLine {pset : List Part} {z0 : State} {s : State} {n : Nat} {b : Bool} (h_regs : Part.regs ∈ pset)
    (h_outs : Part.outs ∈ pset) (h_intc : Part.intc ∈ pset) (hk : Keeps pset z0 s) : Keeps pset z0 (Machine.setLine s
    n b) := by
  unfold Machine.setLine
  repeat' (first
    | with_reducible first
      | assumption | apply K.intcRefresh h_regs h_outs h_intc | refine Keeps.ite (fun _ => ?_) (fun _ => ?_)
    | dsimp only | split | simp only [Keeps.lit_intc h_intc])

theorem updIrq {pset : List Part} {z0 : State} {s : State} {b : Nat} (h_regs : Part.regs ∈ pset) (h_outs :
    Part.outs ∈ pset) (h_intc : Part.intc ∈ pset) (hk : Keeps pset z0 s) : Keeps pset z0 (Machine.updIrq s b) := by
  unfold Machine.updIrq
  repeat' (first
    | with_reducible first
      | assumption | apply K.setLine h_regs h_outs h_intc | refine Keeps.foldl (fun _ _ _ => ?_) ?_
      | refine Keeps.foldlFst (fun _ _ _ => ?_) ?_
    | intro _ _ | dsimp only | split)

theorem raiseIrq {pset : List Part} {z0 : State} {s : State} {b : Nat} {i : Nat} (h_regs : Part.regs ∈ pset)
    (h_outs : Part.outs ∈ pset) (h_intc : Part.intc ∈ pset) (hk : Keeps pset z0 s) : Keeps pset z0 (Machine.raiseIrq s
    b i) := by
  unfold Machine.raiseIrq
  repeat' (first
    | with_reducible first
      | assumption | apply K.putB h_regs | apply K.updIrq h_regs h_outs h_intc)

theorem setRaw {pset : List Part} {z0 : State} {s : State} {b : Nat} {i : Nat} {v : Bool} (h_regs : Part.regs ∈
    pset) (h_outs : Part.outs ∈ pset) (h_intc : Part.intc ∈ pset) (hk : Keeps pset z0 s) : Keeps pset z0
    (Machine.setRaw s b i v) := by
  unfold Machine.setRaw
  repeat' (first
    | with_reducible first
      | assumption | apply K.putB h_regs | apply K.raiseIrq h_regs h_outs h_intc
      | refine Keeps.ite (fun _ => ?_) (fun _ => ?_)
    | dsimp only | split)

theorem msixRelease {pset : List Part} {z0 : State} {s : State} (h_regs : Part.regs ∈ pset) (h_outs : Part.outs ∈
    pset) (hk : Keeps pset z0 s) : Keeps pset z0 (Machine.msixRelease s) := by
  unfold Machine.msixRelease
  repeat' (first
    | with_reducible first
      | assumption | apply K.msixDue h_regs h_outs | refine Keeps.ite (fun _ => ?_) (fun _ => ?_)
      | refine Keeps.foldl (fun _ _ _ => ?_) ?_ | refine Keeps.foldlFst (fun _ _ _ => ?_) ?_
    | intro _ _ | dsimp only | split)

theorem recErr {pset : List Part} {z0 : State} {s : State} {b : Nat} {code : Nat} {m : Master} {a : Nat} {wnr :
    Bool} (h_regs : Part.regs ∈ pset) (h_outs : Part.outs ∈ pset) (h_intc : Part.intc ∈ pset) (hk : Keeps pset z0 s) :
    Keeps pset z0 (Machine.recErr s b code m a wnr) := by
  unfold Machine.recErr
  repeat' (first
    | with_reducible first
      | assumption | apply K.setR h_regs | apply K.putB h_regs | apply K.raiseIrq h_regs h_outs h_intc
      | refine Keeps.ite (fun _ => ?_) (fun _ => ?_)
    | dsimp only | split)

theorem deny {pset : List Part} {z0 : State} {s : State} {code : Nat} {m : Master} {a : Nat} {wnr : Bool} (h_regs
    : Part.regs ∈ pset) (h_outs : Part.outs ∈ pset) (h_intc : Part.intc ∈ pset) (hk : Keeps pset z0 s) : Keeps pset z0
    (Machine.deny s code m a wnr) := by
  unfold Machine.deny
  repeat' (first
    | with_reducible first
      | assumption | apply K.setR h_regs | apply K.satInc h_regs | apply K.raiseIrq h_regs h_outs h_intc
      | apply K.recErr h_regs h_outs h_intc
    | dsimp only)

theorem setPhase {pset : List Part} {z0 : State} {s : State} {p : Nat} (h_regs : Part.regs ∈ pset) (h_outs :
    Part.outs ∈ pset) (h_intc : Part.intc ∈ pset) (hk : Keeps pset z0 s) : Keeps pset z0 (Machine.setPhase s p) := by
  unfold Machine.setPhase
  repeat' (first
    | with_reducible first
      | assumption | apply K.putF h_regs | apply K.raiseIrq h_regs h_outs h_intc
      | refine Keeps.ite (fun _ => ?_) (fun _ => ?_)
    | split)

theorem setOwner {pset : List Part} {z0 : State} {s : State} {v : Nat} (h_regs : Part.regs ∈ pset) (h_outs :
    Part.outs ∈ pset) (h_intc : Part.intc ∈ pset) (hk : Keeps pset z0 s) : Keeps pset z0 (Machine.setOwner s v) := by
  unfold Machine.setOwner
  repeat' (first
    | with_reducible first
      | assumption | apply K.putF h_regs | apply K.raiseIrq h_regs h_outs h_intc
      | refine Keeps.ite (fun _ => ?_) (fun _ => ?_)
    | split)

end Sys2Proof.Laws.K
end

