-- ==== Sys2Proof/Laws/KeepsAccess.lean ====
section
/-! SUPPORT. What the operations of `Machine/Access.lean` keep. -/

namespace Sys2Proof.Laws.K

open Sys2Proof Sys2Proof.Machine Sys2Proof.Laws

theorem writeErr {pset : List Part} {z0 : State} {m : Master} {s : State} (h_resp : Part.resp ∈ pset) (hk : Keeps
    pset z0 s) : Keeps pset z0 (Machine.writeErr m s) := by
  unfold Machine.writeErr
  repeat' (first
    | with_reducible first
      | assumption | apply K.answer h_resp | apply K.answerErr h_resp | refine Keeps.ite (fun _ => ?_) (fun _ => ?_)
    | split)

theorem gatedWrite {pset : List Part} {z0 : State} {m : Master} {a : Nat} {f : State → State} {s : State} (h_regs
    : Part.regs ∈ pset) (h_outs : Part.outs ∈ pset) (h_resp : Part.resp ∈ pset) (h_intc : Part.intc ∈ pset) (h_f : ∀
    u0, Keeps pset z0 u0 → Keeps pset z0 (f u0)) (hk : Keeps pset z0 s) : Keeps pset z0 (Machine.gatedWrite m a f s)
    := by
  unfold Machine.gatedWrite
  repeat' (first
    | with_reducible first
      | assumption | apply h_f | apply K.answer h_resp | apply K.recErr h_regs h_outs h_intc
      | apply K.deny h_regs h_outs h_intc | apply K.writeErr h_resp | refine Keeps.ite (fun _ => ?_) (fun _ => ?_)
    | dsimp only | split)

theorem gatedRead {pset : List Part} {z0 : State} {m : Master} {a : Nat} {f : State → State × Word} {s : State}
    (h_regs : Part.regs ∈ pset) (h_outs : Part.outs ∈ pset) (h_resp : Part.resp ∈ pset) (h_intc : Part.intc ∈ pset)
    (h_f : ∀ u0, Keeps pset z0 u0 → Keeps pset z0 (f u0).1) (hk : Keeps pset z0 s) : Keeps pset z0 (Machine.gatedRead
    m a f s) := by
  unfold Machine.gatedRead
  repeat' (first
    | with_reducible first
      | assumption | apply h_f | apply K.answer h_resp | apply K.answerErr h_resp
      | apply K.recErr h_regs h_outs h_intc | apply K.deny h_regs h_outs h_intc
      | refine Keeps.ite (fun _ => ?_) (fun _ => ?_)
    | dsimp only | split)

theorem plainWrite {pset : List Part} {z0 : State} {d : RDesc} {m : Master} {pg : Page} {off : Nat} {v : Word} {s
    : State} (h_regs : Part.regs ∈ pset) (h_outs : Part.outs ∈ pset) (h_intc : Part.intc ∈ pset) (hk : Keeps pset z0
    s) : Keeps pset z0 (Machine.plainWrite d m pg off v s) := by
  unfold Machine.plainWrite
  repeat' (first
    | with_reducible first
      | assumption | apply K.setR h_regs | apply K.recErr h_regs h_outs h_intc | apply K.deny h_regs h_outs h_intc
      | refine Keeps.ite (fun _ => ?_) (fun _ => ?_)
    | dsimp only | split)

theorem stateWrite {pset : List Part} {z0 : State} {okNow : Bool} {m : Master} {pg : Page} {off : Nat} {v : Word}
    {s : State} (h_regs : Part.regs ∈ pset) (h_outs : Part.outs ∈ pset) (h_intc : Part.intc ∈ pset) (hk : Keeps pset
    z0 s) : Keeps pset z0 (Machine.stateWrite okNow m pg off v s) := by
  unfold Machine.stateWrite
  repeat' (first
    | with_reducible first
      | assumption | apply K.deny h_regs h_outs h_intc | apply K.plainWrite h_regs h_outs h_intc
      | refine Keeps.ite (fun _ => ?_) (fun _ => ?_)
    | dsimp only | split)

end Sys2Proof.Laws.K
end

