-- ==== Sys2Proof/Laws/State.lean ====
section
/-! SUPPORT. What the primitive updates leave alone: one lemma for each field and update. -/

namespace Sys2Proof.Laws

open Sys2Proof Sys2Proof.Machine

/-! `setR`. -/

@[simp] theorem setR_pending (s : State) (a : Nat) (v : Word) : (setR s a v).pending = s.pending := rfl
@[simp] theorem setR_cnts (s : State) (a : Nat) (v : Word) : (setR s a v).cnts = s.cnts := rfl
@[simp] theorem setR_snaps (s : State) (a : Nat) (v : Word) : (setR s a v).snaps = s.snaps := rfl
@[simp] theorem setR_free (s : State) (a : Nat) (v : Word) : (setR s a v).free = s.free := rfl
@[simp] theorem setR_mem (s : State) (a : Nat) (v : Word) : (setR s a v).mem = s.mem := rfl
@[simp] theorem setR_outs (s : State) (a : Nat) (v : Word) : (setR s a v).outs = s.outs := rfl
@[simp] theorem setR_resp (s : State) (a : Nat) (v : Word) : (setR s a v).resp = s.resp := rfl
@[simp] theorem setR_intc (s : State) (a : Nat) (v : Word) : (setR s a v).intc = s.intc := rfl
@[simp] theorem setR_sys (s : State) (a : Nat) (v : Word) : (setR s a v).sys = s.sys := rfl
@[simp] theorem setR_sw (s : State) (a : Nat) (v : Word) : (setR s a v).sw = s.sw := rfl
@[simp] theorem setR_eth (s : State) (a : Nat) (v : Word) : (setR s a v).eth = s.eth := rfl
@[simp] theorem setR_gate (s : State) (a : Nat) (v : Word) : (setR s a v).gate = s.gate := rfl
@[simp] theorem setR_vlt (s : State) (a : Nat) (v : Word) : (setR s a v).vlt = s.vlt := rfl
@[simp] theorem setR_bnk (s : State) (a : Nat) (v : Word) : (setR s a v).bnk = s.bnk := rfl
@[simp] theorem setR_plk (s : State) (a : Nat) (v : Word) : (setR s a v).plk = s.plk := rfl
@[simp] theorem setR_mdb (s : State) (a : Nat) (v : Word) : (setR s a v).mdb = s.mdb := rfl
@[simp] theorem setR_ptc (s : State) (a : Nat) (v : Word) : (setR s a v).ptc = s.ptc := rfl
@[simp] theorem setR_fiq (s : State) (a : Nat) (v : Word) : (setR s a v).fiq = s.fiq := rfl
@[simp] theorem setR_aq (s : State) (a : Nat) (v : Word) : (setR s a v).aq = s.aq := rfl
@[simp] theorem setR_mbx (s : State) (a : Nat) (v : Word) : (setR s a v).mbx = s.mbx := rfl
@[simp] theorem setR_hif (s : State) (a : Nat) (v : Word) : (setR s a v).hif = s.hif := rfl
@[simp] theorem setR_time (s : State) (a : Nat) (v : Word) : (setR s a v).time = s.time := rfl
@[simp] theorem setR_eng (s : State) (a : Nat) (v : Word) : (setR s a v).eng = s.eng := rfl
@[simp] theorem setR_plc (s : State) (a : Nat) (v : Word) : (setR s a v).plc = s.plc := rfl
@[simp] theorem setR_cores (s : State) (a : Nat) (v : Word) : (setR s a v).cores = s.cores := rfl
@[simp] theorem setR_pwr (s : State) (a : Nat) (v : Word) : (setR s a v).pwr = s.pwr := rfl
@[simp] theorem setR_mgt (s : State) (a : Nat) (v : Word) : (setR s a v).mgt = s.mgt := rfl
@[simp] theorem setR_test (s : State) (a : Nat) (v : Word) : (setR s a v).test = s.test := rfl

/-! `putB`. -/

@[simp] theorem putB_pending (s : State) (a i : Nat) (b : Bool) : (putB s a i b).pending = s.pending := rfl
@[simp] theorem putB_cnts (s : State) (a i : Nat) (b : Bool) : (putB s a i b).cnts = s.cnts := rfl
@[simp] theorem putB_snaps (s : State) (a i : Nat) (b : Bool) : (putB s a i b).snaps = s.snaps := rfl
@[simp] theorem putB_free (s : State) (a i : Nat) (b : Bool) : (putB s a i b).free = s.free := rfl
@[simp] theorem putB_mem (s : State) (a i : Nat) (b : Bool) : (putB s a i b).mem = s.mem := rfl
@[simp] theorem putB_outs (s : State) (a i : Nat) (b : Bool) : (putB s a i b).outs = s.outs := rfl
@[simp] theorem putB_resp (s : State) (a i : Nat) (b : Bool) : (putB s a i b).resp = s.resp := rfl
@[simp] theorem putB_intc (s : State) (a i : Nat) (b : Bool) : (putB s a i b).intc = s.intc := rfl
@[simp] theorem putB_sys (s : State) (a i : Nat) (b : Bool) : (putB s a i b).sys = s.sys := rfl
@[simp] theorem putB_sw (s : State) (a i : Nat) (b : Bool) : (putB s a i b).sw = s.sw := rfl
@[simp] theorem putB_eth (s : State) (a i : Nat) (b : Bool) : (putB s a i b).eth = s.eth := rfl
@[simp] theorem putB_gate (s : State) (a i : Nat) (b : Bool) : (putB s a i b).gate = s.gate := rfl
@[simp] theorem putB_vlt (s : State) (a i : Nat) (b : Bool) : (putB s a i b).vlt = s.vlt := rfl
@[simp] theorem putB_bnk (s : State) (a i : Nat) (b : Bool) : (putB s a i b).bnk = s.bnk := rfl
@[simp] theorem putB_plk (s : State) (a i : Nat) (b : Bool) : (putB s a i b).plk = s.plk := rfl
@[simp] theorem putB_mdb (s : State) (a i : Nat) (b : Bool) : (putB s a i b).mdb = s.mdb := rfl
@[simp] theorem putB_ptc (s : State) (a i : Nat) (b : Bool) : (putB s a i b).ptc = s.ptc := rfl
@[simp] theorem putB_fiq (s : State) (a i : Nat) (b : Bool) : (putB s a i b).fiq = s.fiq := rfl
@[simp] theorem putB_aq (s : State) (a i : Nat) (b : Bool) : (putB s a i b).aq = s.aq := rfl
@[simp] theorem putB_mbx (s : State) (a i : Nat) (b : Bool) : (putB s a i b).mbx = s.mbx := rfl
@[simp] theorem putB_hif (s : State) (a i : Nat) (b : Bool) : (putB s a i b).hif = s.hif := rfl
@[simp] theorem putB_time (s : State) (a i : Nat) (b : Bool) : (putB s a i b).time = s.time := rfl
@[simp] theorem putB_eng (s : State) (a i : Nat) (b : Bool) : (putB s a i b).eng = s.eng := rfl
@[simp] theorem putB_plc (s : State) (a i : Nat) (b : Bool) : (putB s a i b).plc = s.plc := rfl
@[simp] theorem putB_cores (s : State) (a i : Nat) (b : Bool) : (putB s a i b).cores = s.cores := rfl
@[simp] theorem putB_pwr (s : State) (a i : Nat) (b : Bool) : (putB s a i b).pwr = s.pwr := rfl
@[simp] theorem putB_mgt (s : State) (a i : Nat) (b : Bool) : (putB s a i b).mgt = s.mgt := rfl
@[simp] theorem putB_test (s : State) (a i : Nat) (b : Bool) : (putB s a i b).test = s.test := rfl

/-! `putF`. -/

@[simp] theorem putF_pending (s : State) (a hi lo v : Nat) : (putF s a hi lo v).pending = s.pending := rfl
@[simp] theorem putF_cnts (s : State) (a hi lo v : Nat) : (putF s a hi lo v).cnts = s.cnts := rfl
@[simp] theorem putF_snaps (s : State) (a hi lo v : Nat) : (putF s a hi lo v).snaps = s.snaps := rfl
@[simp] theorem putF_free (s : State) (a hi lo v : Nat) : (putF s a hi lo v).free = s.free := rfl
@[simp] theorem putF_mem (s : State) (a hi lo v : Nat) : (putF s a hi lo v).mem = s.mem := rfl
@[simp] theorem putF_outs (s : State) (a hi lo v : Nat) : (putF s a hi lo v).outs = s.outs := rfl
@[simp] theorem putF_resp (s : State) (a hi lo v : Nat) : (putF s a hi lo v).resp = s.resp := rfl
@[simp] theorem putF_intc (s : State) (a hi lo v : Nat) : (putF s a hi lo v).intc = s.intc := rfl
@[simp] theorem putF_sys (s : State) (a hi lo v : Nat) : (putF s a hi lo v).sys = s.sys := rfl
@[simp] theorem putF_sw (s : State) (a hi lo v : Nat) : (putF s a hi lo v).sw = s.sw := rfl
@[simp] theorem putF_eth (s : State) (a hi lo v : Nat) : (putF s a hi lo v).eth = s.eth := rfl
@[simp] theorem putF_gate (s : State) (a hi lo v : Nat) : (putF s a hi lo v).gate = s.gate := rfl
@[simp] theorem putF_vlt (s : State) (a hi lo v : Nat) : (putF s a hi lo v).vlt = s.vlt := rfl
@[simp] theorem putF_bnk (s : State) (a hi lo v : Nat) : (putF s a hi lo v).bnk = s.bnk := rfl
@[simp] theorem putF_plk (s : State) (a hi lo v : Nat) : (putF s a hi lo v).plk = s.plk := rfl
@[simp] theorem putF_mdb (s : State) (a hi lo v : Nat) : (putF s a hi lo v).mdb = s.mdb := rfl
@[simp] theorem putF_ptc (s : State) (a hi lo v : Nat) : (putF s a hi lo v).ptc = s.ptc := rfl
@[simp] theorem putF_fiq (s : State) (a hi lo v : Nat) : (putF s a hi lo v).fiq = s.fiq := rfl
@[simp] theorem putF_aq (s : State) (a hi lo v : Nat) : (putF s a hi lo v).aq = s.aq := rfl
@[simp] theorem putF_mbx (s : State) (a hi lo v : Nat) : (putF s a hi lo v).mbx = s.mbx := rfl
@[simp] theorem putF_hif (s : State) (a hi lo v : Nat) : (putF s a hi lo v).hif = s.hif := rfl
@[simp] theorem putF_time (s : State) (a hi lo v : Nat) : (putF s a hi lo v).time = s.time := rfl
@[simp] theorem putF_eng (s : State) (a hi lo v : Nat) : (putF s a hi lo v).eng = s.eng := rfl
@[simp] theorem putF_plc (s : State) (a hi lo v : Nat) : (putF s a hi lo v).plc = s.plc := rfl
@[simp] theorem putF_cores (s : State) (a hi lo v : Nat) : (putF s a hi lo v).cores = s.cores := rfl
@[simp] theorem putF_pwr (s : State) (a hi lo v : Nat) : (putF s a hi lo v).pwr = s.pwr := rfl
@[simp] theorem putF_mgt (s : State) (a hi lo v : Nat) : (putF s a hi lo v).mgt = s.mgt := rfl
@[simp] theorem putF_test (s : State) (a hi lo v : Nat) : (putF s a hi lo v).test = s.test := rfl

/-! `bumpN`. -/

@[simp] theorem bumpN_pending (s : State) (a n : Nat) : (bumpN s a n).pending = s.pending := rfl
@[simp] theorem bumpN_regs (s : State) (a n : Nat) : (bumpN s a n).regs = s.regs := rfl
@[simp] theorem bumpN_snaps (s : State) (a n : Nat) : (bumpN s a n).snaps = s.snaps := rfl
@[simp] theorem bumpN_free (s : State) (a n : Nat) : (bumpN s a n).free = s.free := rfl
@[simp] theorem bumpN_mem (s : State) (a n : Nat) : (bumpN s a n).mem = s.mem := rfl
@[simp] theorem bumpN_outs (s : State) (a n : Nat) : (bumpN s a n).outs = s.outs := rfl
@[simp] theorem bumpN_resp (s : State) (a n : Nat) : (bumpN s a n).resp = s.resp := rfl
@[simp] theorem bumpN_intc (s : State) (a n : Nat) : (bumpN s a n).intc = s.intc := rfl
@[simp] theorem bumpN_sys (s : State) (a n : Nat) : (bumpN s a n).sys = s.sys := rfl
@[simp] theorem bumpN_sw (s : State) (a n : Nat) : (bumpN s a n).sw = s.sw := rfl
@[simp] theorem bumpN_eth (s : State) (a n : Nat) : (bumpN s a n).eth = s.eth := rfl
@[simp] theorem bumpN_gate (s : State) (a n : Nat) : (bumpN s a n).gate = s.gate := rfl
@[simp] theorem bumpN_vlt (s : State) (a n : Nat) : (bumpN s a n).vlt = s.vlt := rfl
@[simp] theorem bumpN_bnk (s : State) (a n : Nat) : (bumpN s a n).bnk = s.bnk := rfl
@[simp] theorem bumpN_plk (s : State) (a n : Nat) : (bumpN s a n).plk = s.plk := rfl
@[simp] theorem bumpN_mdb (s : State) (a n : Nat) : (bumpN s a n).mdb = s.mdb := rfl
@[simp] theorem bumpN_ptc (s : State) (a n : Nat) : (bumpN s a n).ptc = s.ptc := rfl
@[simp] theorem bumpN_fiq (s : State) (a n : Nat) : (bumpN s a n).fiq = s.fiq := rfl
@[simp] theorem bumpN_aq (s : State) (a n : Nat) : (bumpN s a n).aq = s.aq := rfl
@[simp] theorem bumpN_mbx (s : State) (a n : Nat) : (bumpN s a n).mbx = s.mbx := rfl
@[simp] theorem bumpN_hif (s : State) (a n : Nat) : (bumpN s a n).hif = s.hif := rfl
@[simp] theorem bumpN_time (s : State) (a n : Nat) : (bumpN s a n).time = s.time := rfl
@[simp] theorem bumpN_eng (s : State) (a n : Nat) : (bumpN s a n).eng = s.eng := rfl
@[simp] theorem bumpN_plc (s : State) (a n : Nat) : (bumpN s a n).plc = s.plc := rfl
@[simp] theorem bumpN_cores (s : State) (a n : Nat) : (bumpN s a n).cores = s.cores := rfl
@[simp] theorem bumpN_pwr (s : State) (a n : Nat) : (bumpN s a n).pwr = s.pwr := rfl
@[simp] theorem bumpN_mgt (s : State) (a n : Nat) : (bumpN s a n).mgt = s.mgt := rfl
@[simp] theorem bumpN_test (s : State) (a n : Nat) : (bumpN s a n).test = s.test := rfl

/-! `answer`. -/

@[simp] theorem answer_pending (s : State) (v : Word) : (answer s v).pending = s.pending := rfl
@[simp] theorem answer_regs (s : State) (v : Word) : (answer s v).regs = s.regs := rfl
@[simp] theorem answer_cnts (s : State) (v : Word) : (answer s v).cnts = s.cnts := rfl
@[simp] theorem answer_snaps (s : State) (v : Word) : (answer s v).snaps = s.snaps := rfl
@[simp] theorem answer_free (s : State) (v : Word) : (answer s v).free = s.free := rfl
@[simp] theorem answer_mem (s : State) (v : Word) : (answer s v).mem = s.mem := rfl
@[simp] theorem answer_outs (s : State) (v : Word) : (answer s v).outs = s.outs := rfl
@[simp] theorem answer_intc (s : State) (v : Word) : (answer s v).intc = s.intc := rfl
@[simp] theorem answer_sys (s : State) (v : Word) : (answer s v).sys = s.sys := rfl
@[simp] theorem answer_sw (s : State) (v : Word) : (answer s v).sw = s.sw := rfl
@[simp] theorem answer_eth (s : State) (v : Word) : (answer s v).eth = s.eth := rfl
@[simp] theorem answer_gate (s : State) (v : Word) : (answer s v).gate = s.gate := rfl
@[simp] theorem answer_vlt (s : State) (v : Word) : (answer s v).vlt = s.vlt := rfl
@[simp] theorem answer_bnk (s : State) (v : Word) : (answer s v).bnk = s.bnk := rfl
@[simp] theorem answer_plk (s : State) (v : Word) : (answer s v).plk = s.plk := rfl
@[simp] theorem answer_mdb (s : State) (v : Word) : (answer s v).mdb = s.mdb := rfl
@[simp] theorem answer_ptc (s : State) (v : Word) : (answer s v).ptc = s.ptc := rfl
@[simp] theorem answer_fiq (s : State) (v : Word) : (answer s v).fiq = s.fiq := rfl
@[simp] theorem answer_aq (s : State) (v : Word) : (answer s v).aq = s.aq := rfl
@[simp] theorem answer_mbx (s : State) (v : Word) : (answer s v).mbx = s.mbx := rfl
@[simp] theorem answer_hif (s : State) (v : Word) : (answer s v).hif = s.hif := rfl
@[simp] theorem answer_time (s : State) (v : Word) : (answer s v).time = s.time := rfl
@[simp] theorem answer_eng (s : State) (v : Word) : (answer s v).eng = s.eng := rfl
@[simp] theorem answer_plc (s : State) (v : Word) : (answer s v).plc = s.plc := rfl
@[simp] theorem answer_cores (s : State) (v : Word) : (answer s v).cores = s.cores := rfl
@[simp] theorem answer_pwr (s : State) (v : Word) : (answer s v).pwr = s.pwr := rfl
@[simp] theorem answer_mgt (s : State) (v : Word) : (answer s v).mgt = s.mgt := rfl
@[simp] theorem answer_test (s : State) (v : Word) : (answer s v).test = s.test := rfl

/-! `answerErr`. -/

@[simp] theorem answerErr_pending (s : State) : (answerErr s).pending = s.pending := rfl
@[simp] theorem answerErr_regs (s : State) : (answerErr s).regs = s.regs := rfl
@[simp] theorem answerErr_cnts (s : State) : (answerErr s).cnts = s.cnts := rfl
@[simp] theorem answerErr_snaps (s : State) : (answerErr s).snaps = s.snaps := rfl
@[simp] theorem answerErr_free (s : State) : (answerErr s).free = s.free := rfl
@[simp] theorem answerErr_mem (s : State) : (answerErr s).mem = s.mem := rfl
@[simp] theorem answerErr_outs (s : State) : (answerErr s).outs = s.outs := rfl
@[simp] theorem answerErr_intc (s : State) : (answerErr s).intc = s.intc := rfl
@[simp] theorem answerErr_sys (s : State) : (answerErr s).sys = s.sys := rfl
@[simp] theorem answerErr_sw (s : State) : (answerErr s).sw = s.sw := rfl
@[simp] theorem answerErr_eth (s : State) : (answerErr s).eth = s.eth := rfl
@[simp] theorem answerErr_gate (s : State) : (answerErr s).gate = s.gate := rfl
@[simp] theorem answerErr_vlt (s : State) : (answerErr s).vlt = s.vlt := rfl
@[simp] theorem answerErr_bnk (s : State) : (answerErr s).bnk = s.bnk := rfl
@[simp] theorem answerErr_plk (s : State) : (answerErr s).plk = s.plk := rfl
@[simp] theorem answerErr_mdb (s : State) : (answerErr s).mdb = s.mdb := rfl
@[simp] theorem answerErr_ptc (s : State) : (answerErr s).ptc = s.ptc := rfl
@[simp] theorem answerErr_fiq (s : State) : (answerErr s).fiq = s.fiq := rfl
@[simp] theorem answerErr_aq (s : State) : (answerErr s).aq = s.aq := rfl
@[simp] theorem answerErr_mbx (s : State) : (answerErr s).mbx = s.mbx := rfl
@[simp] theorem answerErr_hif (s : State) : (answerErr s).hif = s.hif := rfl
@[simp] theorem answerErr_time (s : State) : (answerErr s).time = s.time := rfl
@[simp] theorem answerErr_eng (s : State) : (answerErr s).eng = s.eng := rfl
@[simp] theorem answerErr_plc (s : State) : (answerErr s).plc = s.plc := rfl
@[simp] theorem answerErr_cores (s : State) : (answerErr s).cores = s.cores := rfl
@[simp] theorem answerErr_pwr (s : State) : (answerErr s).pwr = s.pwr := rfl
@[simp] theorem answerErr_mgt (s : State) : (answerErr s).mgt = s.mgt := rfl
@[simp] theorem answerErr_test (s : State) : (answerErr s).test = s.test := rfl

/-! `wrB`. -/

@[simp] theorem wrB_pending (s : State) (a : Nat) (b : Byte) : (wrB s a b).pending = s.pending := rfl
@[simp] theorem wrB_regs (s : State) (a : Nat) (b : Byte) : (wrB s a b).regs = s.regs := rfl
@[simp] theorem wrB_cnts (s : State) (a : Nat) (b : Byte) : (wrB s a b).cnts = s.cnts := rfl
@[simp] theorem wrB_snaps (s : State) (a : Nat) (b : Byte) : (wrB s a b).snaps = s.snaps := rfl
@[simp] theorem wrB_free (s : State) (a : Nat) (b : Byte) : (wrB s a b).free = s.free := rfl
@[simp] theorem wrB_outs (s : State) (a : Nat) (b : Byte) : (wrB s a b).outs = s.outs := rfl
@[simp] theorem wrB_resp (s : State) (a : Nat) (b : Byte) : (wrB s a b).resp = s.resp := rfl
@[simp] theorem wrB_intc (s : State) (a : Nat) (b : Byte) : (wrB s a b).intc = s.intc := rfl
@[simp] theorem wrB_sys (s : State) (a : Nat) (b : Byte) : (wrB s a b).sys = s.sys := rfl
@[simp] theorem wrB_sw (s : State) (a : Nat) (b : Byte) : (wrB s a b).sw = s.sw := rfl
@[simp] theorem wrB_eth (s : State) (a : Nat) (b : Byte) : (wrB s a b).eth = s.eth := rfl
@[simp] theorem wrB_gate (s : State) (a : Nat) (b : Byte) : (wrB s a b).gate = s.gate := rfl
@[simp] theorem wrB_vlt (s : State) (a : Nat) (b : Byte) : (wrB s a b).vlt = s.vlt := rfl
@[simp] theorem wrB_bnk (s : State) (a : Nat) (b : Byte) : (wrB s a b).bnk = s.bnk := rfl
@[simp] theorem wrB_plk (s : State) (a : Nat) (b : Byte) : (wrB s a b).plk = s.plk := rfl
@[simp] theorem wrB_mdb (s : State) (a : Nat) (b : Byte) : (wrB s a b).mdb = s.mdb := rfl
@[simp] theorem wrB_ptc (s : State) (a : Nat) (b : Byte) : (wrB s a b).ptc = s.ptc := rfl
@[simp] theorem wrB_fiq (s : State) (a : Nat) (b : Byte) : (wrB s a b).fiq = s.fiq := rfl
@[simp] theorem wrB_aq (s : State) (a : Nat) (b : Byte) : (wrB s a b).aq = s.aq := rfl
@[simp] theorem wrB_mbx (s : State) (a : Nat) (b : Byte) : (wrB s a b).mbx = s.mbx := rfl
@[simp] theorem wrB_hif (s : State) (a : Nat) (b : Byte) : (wrB s a b).hif = s.hif := rfl
@[simp] theorem wrB_time (s : State) (a : Nat) (b : Byte) : (wrB s a b).time = s.time := rfl
@[simp] theorem wrB_eng (s : State) (a : Nat) (b : Byte) : (wrB s a b).eng = s.eng := rfl
@[simp] theorem wrB_plc (s : State) (a : Nat) (b : Byte) : (wrB s a b).plc = s.plc := rfl
@[simp] theorem wrB_cores (s : State) (a : Nat) (b : Byte) : (wrB s a b).cores = s.cores := rfl
@[simp] theorem wrB_pwr (s : State) (a : Nat) (b : Byte) : (wrB s a b).pwr = s.pwr := rfl
@[simp] theorem wrB_mgt (s : State) (a : Nat) (b : Byte) : (wrB s a b).mgt = s.mgt := rfl
@[simp] theorem wrB_test (s : State) (a : Nat) (b : Byte) : (wrB s a b).test = s.test := rfl

/-! `tbSet`. -/

@[simp] theorem tbSet_pending (s : State) (b : Nat) (t : TbSt) : (tbSet s b t).pending = s.pending := rfl
@[simp] theorem tbSet_regs (s : State) (b : Nat) (t : TbSt) : (tbSet s b t).regs = s.regs := rfl
@[simp] theorem tbSet_cnts (s : State) (b : Nat) (t : TbSt) : (tbSet s b t).cnts = s.cnts := rfl
@[simp] theorem tbSet_snaps (s : State) (b : Nat) (t : TbSt) : (tbSet s b t).snaps = s.snaps := rfl
@[simp] theorem tbSet_free (s : State) (b : Nat) (t : TbSt) : (tbSet s b t).free = s.free := rfl
@[simp] theorem tbSet_mem (s : State) (b : Nat) (t : TbSt) : (tbSet s b t).mem = s.mem := rfl
@[simp] theorem tbSet_outs (s : State) (b : Nat) (t : TbSt) : (tbSet s b t).outs = s.outs := rfl
@[simp] theorem tbSet_resp (s : State) (b : Nat) (t : TbSt) : (tbSet s b t).resp = s.resp := rfl
@[simp] theorem tbSet_intc (s : State) (b : Nat) (t : TbSt) : (tbSet s b t).intc = s.intc := rfl
@[simp] theorem tbSet_sys (s : State) (b : Nat) (t : TbSt) : (tbSet s b t).sys = s.sys := rfl
@[simp] theorem tbSet_sw (s : State) (b : Nat) (t : TbSt) : (tbSet s b t).sw = s.sw := rfl
@[simp] theorem tbSet_eth (s : State) (b : Nat) (t : TbSt) : (tbSet s b t).eth = s.eth := rfl
@[simp] theorem tbSet_gate (s : State) (b : Nat) (t : TbSt) : (tbSet s b t).gate = s.gate := rfl
@[simp] theorem tbSet_vlt (s : State) (b : Nat) (t : TbSt) : (tbSet s b t).vlt = s.vlt := rfl
@[simp] theorem tbSet_bnk (s : State) (b : Nat) (t : TbSt) : (tbSet s b t).bnk = s.bnk := rfl
@[simp] theorem tbSet_plk (s : State) (b : Nat) (t : TbSt) : (tbSet s b t).plk = s.plk := rfl
@[simp] theorem tbSet_mdb (s : State) (b : Nat) (t : TbSt) : (tbSet s b t).mdb = s.mdb := rfl
@[simp] theorem tbSet_ptc (s : State) (b : Nat) (t : TbSt) : (tbSet s b t).ptc = s.ptc := rfl
@[simp] theorem tbSet_fiq (s : State) (b : Nat) (t : TbSt) : (tbSet s b t).fiq = s.fiq := rfl
@[simp] theorem tbSet_aq (s : State) (b : Nat) (t : TbSt) : (tbSet s b t).aq = s.aq := rfl
@[simp] theorem tbSet_mbx (s : State) (b : Nat) (t : TbSt) : (tbSet s b t).mbx = s.mbx := rfl
@[simp] theorem tbSet_hif (s : State) (b : Nat) (t : TbSt) : (tbSet s b t).hif = s.hif := rfl
@[simp] theorem tbSet_eng (s : State) (b : Nat) (t : TbSt) : (tbSet s b t).eng = s.eng := rfl
@[simp] theorem tbSet_plc (s : State) (b : Nat) (t : TbSt) : (tbSet s b t).plc = s.plc := rfl
@[simp] theorem tbSet_cores (s : State) (b : Nat) (t : TbSt) : (tbSet s b t).cores = s.cores := rfl
@[simp] theorem tbSet_pwr (s : State) (b : Nat) (t : TbSt) : (tbSet s b t).pwr = s.pwr := rfl
@[simp] theorem tbSet_mgt (s : State) (b : Nat) (t : TbSt) : (tbSet s b t).mgt = s.mgt := rfl
@[simp] theorem tbSet_test (s : State) (b : Nat) (t : TbSt) : (tbSet s b t).test = s.test := rfl

/-! `engMod`. -/

@[simp] theorem engMod_pending (s : State) (n : Nat) (f : EngSt → EngSt) : (engMod s n f).pending = s.pending := rfl
@[simp] theorem engMod_regs (s : State) (n : Nat) (f : EngSt → EngSt) : (engMod s n f).regs = s.regs := rfl
@[simp] theorem engMod_cnts (s : State) (n : Nat) (f : EngSt → EngSt) : (engMod s n f).cnts = s.cnts := rfl
@[simp] theorem engMod_snaps (s : State) (n : Nat) (f : EngSt → EngSt) : (engMod s n f).snaps = s.snaps := rfl
@[simp] theorem engMod_free (s : State) (n : Nat) (f : EngSt → EngSt) : (engMod s n f).free = s.free := rfl
@[simp] theorem engMod_mem (s : State) (n : Nat) (f : EngSt → EngSt) : (engMod s n f).mem = s.mem := rfl
@[simp] theorem engMod_outs (s : State) (n : Nat) (f : EngSt → EngSt) : (engMod s n f).outs = s.outs := rfl
@[simp] theorem engMod_resp (s : State) (n : Nat) (f : EngSt → EngSt) : (engMod s n f).resp = s.resp := rfl
@[simp] theorem engMod_intc (s : State) (n : Nat) (f : EngSt → EngSt) : (engMod s n f).intc = s.intc := rfl
@[simp] theorem engMod_sys (s : State) (n : Nat) (f : EngSt → EngSt) : (engMod s n f).sys = s.sys := rfl
@[simp] theorem engMod_sw (s : State) (n : Nat) (f : EngSt → EngSt) : (engMod s n f).sw = s.sw := rfl
@[simp] theorem engMod_eth (s : State) (n : Nat) (f : EngSt → EngSt) : (engMod s n f).eth = s.eth := rfl
@[simp] theorem engMod_gate (s : State) (n : Nat) (f : EngSt → EngSt) : (engMod s n f).gate = s.gate := rfl
@[simp] theorem engMod_vlt (s : State) (n : Nat) (f : EngSt → EngSt) : (engMod s n f).vlt = s.vlt := rfl
@[simp] theorem engMod_bnk (s : State) (n : Nat) (f : EngSt → EngSt) : (engMod s n f).bnk = s.bnk := rfl
@[simp] theorem engMod_plk (s : State) (n : Nat) (f : EngSt → EngSt) : (engMod s n f).plk = s.plk := rfl
@[simp] theorem engMod_mdb (s : State) (n : Nat) (f : EngSt → EngSt) : (engMod s n f).mdb = s.mdb := rfl
@[simp] theorem engMod_ptc (s : State) (n : Nat) (f : EngSt → EngSt) : (engMod s n f).ptc = s.ptc := rfl
@[simp] theorem engMod_fiq (s : State) (n : Nat) (f : EngSt → EngSt) : (engMod s n f).fiq = s.fiq := rfl
@[simp] theorem engMod_aq (s : State) (n : Nat) (f : EngSt → EngSt) : (engMod s n f).aq = s.aq := rfl
@[simp] theorem engMod_mbx (s : State) (n : Nat) (f : EngSt → EngSt) : (engMod s n f).mbx = s.mbx := rfl
@[simp] theorem engMod_hif (s : State) (n : Nat) (f : EngSt → EngSt) : (engMod s n f).hif = s.hif := rfl
@[simp] theorem engMod_time (s : State) (n : Nat) (f : EngSt → EngSt) : (engMod s n f).time = s.time := rfl
@[simp] theorem engMod_plc (s : State) (n : Nat) (f : EngSt → EngSt) : (engMod s n f).plc = s.plc := rfl
@[simp] theorem engMod_cores (s : State) (n : Nat) (f : EngSt → EngSt) : (engMod s n f).cores = s.cores := rfl
@[simp] theorem engMod_pwr (s : State) (n : Nat) (f : EngSt → EngSt) : (engMod s n f).pwr = s.pwr := rfl
@[simp] theorem engMod_mgt (s : State) (n : Nat) (f : EngSt → EngSt) : (engMod s n f).mgt = s.mgt := rfl
@[simp] theorem engMod_test (s : State) (n : Nat) (f : EngSt → EngSt) : (engMod s n f).test = s.test := rfl

/-! `fiqSet`. -/

@[simp] theorem fiqSet_pending (s : State) (f : Nat) (q : FiqSt) : (fiqSet s f q).pending = s.pending := rfl
@[simp] theorem fiqSet_regs (s : State) (f : Nat) (q : FiqSt) : (fiqSet s f q).regs = s.regs := rfl
@[simp] theorem fiqSet_cnts (s : State) (f : Nat) (q : FiqSt) : (fiqSet s f q).cnts = s.cnts := rfl
@[simp] theorem fiqSet_snaps (s : State) (f : Nat) (q : FiqSt) : (fiqSet s f q).snaps = s.snaps := rfl
@[simp] theorem fiqSet_free (s : State) (f : Nat) (q : FiqSt) : (fiqSet s f q).free = s.free := rfl
@[simp] theorem fiqSet_mem (s : State) (f : Nat) (q : FiqSt) : (fiqSet s f q).mem = s.mem := rfl
@[simp] theorem fiqSet_outs (s : State) (f : Nat) (q : FiqSt) : (fiqSet s f q).outs = s.outs := rfl
@[simp] theorem fiqSet_resp (s : State) (f : Nat) (q : FiqSt) : (fiqSet s f q).resp = s.resp := rfl
@[simp] theorem fiqSet_intc (s : State) (f : Nat) (q : FiqSt) : (fiqSet s f q).intc = s.intc := rfl
@[simp] theorem fiqSet_sys (s : State) (f : Nat) (q : FiqSt) : (fiqSet s f q).sys = s.sys := rfl
@[simp] theorem fiqSet_sw (s : State) (f : Nat) (q : FiqSt) : (fiqSet s f q).sw = s.sw := rfl
@[simp] theorem fiqSet_eth (s : State) (f : Nat) (q : FiqSt) : (fiqSet s f q).eth = s.eth := rfl
@[simp] theorem fiqSet_gate (s : State) (f : Nat) (q : FiqSt) : (fiqSet s f q).gate = s.gate := rfl
@[simp] theorem fiqSet_vlt (s : State) (f : Nat) (q : FiqSt) : (fiqSet s f q).vlt = s.vlt := rfl
@[simp] theorem fiqSet_bnk (s : State) (f : Nat) (q : FiqSt) : (fiqSet s f q).bnk = s.bnk := rfl
@[simp] theorem fiqSet_plk (s : State) (f : Nat) (q : FiqSt) : (fiqSet s f q).plk = s.plk := rfl
@[simp] theorem fiqSet_mdb (s : State) (f : Nat) (q : FiqSt) : (fiqSet s f q).mdb = s.mdb := rfl
@[simp] theorem fiqSet_ptc (s : State) (f : Nat) (q : FiqSt) : (fiqSet s f q).ptc = s.ptc := rfl
@[simp] theorem fiqSet_aq (s : State) (f : Nat) (q : FiqSt) : (fiqSet s f q).aq = s.aq := rfl
@[simp] theorem fiqSet_mbx (s : State) (f : Nat) (q : FiqSt) : (fiqSet s f q).mbx = s.mbx := rfl
@[simp] theorem fiqSet_hif (s : State) (f : Nat) (q : FiqSt) : (fiqSet s f q).hif = s.hif := rfl
@[simp] theorem fiqSet_time (s : State) (f : Nat) (q : FiqSt) : (fiqSet s f q).time = s.time := rfl
@[simp] theorem fiqSet_eng (s : State) (f : Nat) (q : FiqSt) : (fiqSet s f q).eng = s.eng := rfl
@[simp] theorem fiqSet_plc (s : State) (f : Nat) (q : FiqSt) : (fiqSet s f q).plc = s.plc := rfl
@[simp] theorem fiqSet_cores (s : State) (f : Nat) (q : FiqSt) : (fiqSet s f q).cores = s.cores := rfl
@[simp] theorem fiqSet_pwr (s : State) (f : Nat) (q : FiqSt) : (fiqSet s f q).pwr = s.pwr := rfl
@[simp] theorem fiqSet_mgt (s : State) (f : Nat) (q : FiqSt) : (fiqSet s f q).mgt = s.mgt := rfl
@[simp] theorem fiqSet_test (s : State) (f : Nat) (q : FiqSt) : (fiqSet s f q).test = s.test := rfl

/-! `coreSet`. -/

@[simp] theorem coreSet_pending (s : State) (c : Nat) (x : CoreSt) : (coreSet s c x).pending = s.pending := rfl
@[simp] theorem coreSet_regs (s : State) (c : Nat) (x : CoreSt) : (coreSet s c x).regs = s.regs := rfl
@[simp] theorem coreSet_cnts (s : State) (c : Nat) (x : CoreSt) : (coreSet s c x).cnts = s.cnts := rfl
@[simp] theorem coreSet_snaps (s : State) (c : Nat) (x : CoreSt) : (coreSet s c x).snaps = s.snaps := rfl
@[simp] theorem coreSet_free (s : State) (c : Nat) (x : CoreSt) : (coreSet s c x).free = s.free := rfl
@[simp] theorem coreSet_mem (s : State) (c : Nat) (x : CoreSt) : (coreSet s c x).mem = s.mem := rfl
@[simp] theorem coreSet_outs (s : State) (c : Nat) (x : CoreSt) : (coreSet s c x).outs = s.outs := rfl
@[simp] theorem coreSet_resp (s : State) (c : Nat) (x : CoreSt) : (coreSet s c x).resp = s.resp := rfl
@[simp] theorem coreSet_intc (s : State) (c : Nat) (x : CoreSt) : (coreSet s c x).intc = s.intc := rfl
@[simp] theorem coreSet_sys (s : State) (c : Nat) (x : CoreSt) : (coreSet s c x).sys = s.sys := rfl
@[simp] theorem coreSet_sw (s : State) (c : Nat) (x : CoreSt) : (coreSet s c x).sw = s.sw := rfl
@[simp] theorem coreSet_eth (s : State) (c : Nat) (x : CoreSt) : (coreSet s c x).eth = s.eth := rfl
@[simp] theorem coreSet_gate (s : State) (c : Nat) (x : CoreSt) : (coreSet s c x).gate = s.gate := rfl
@[simp] theorem coreSet_vlt (s : State) (c : Nat) (x : CoreSt) : (coreSet s c x).vlt = s.vlt := rfl
@[simp] theorem coreSet_bnk (s : State) (c : Nat) (x : CoreSt) : (coreSet s c x).bnk = s.bnk := rfl
@[simp] theorem coreSet_plk (s : State) (c : Nat) (x : CoreSt) : (coreSet s c x).plk = s.plk := rfl
@[simp] theorem coreSet_mdb (s : State) (c : Nat) (x : CoreSt) : (coreSet s c x).mdb = s.mdb := rfl
@[simp] theorem coreSet_ptc (s : State) (c : Nat) (x : CoreSt) : (coreSet s c x).ptc = s.ptc := rfl
@[simp] theorem coreSet_fiq (s : State) (c : Nat) (x : CoreSt) : (coreSet s c x).fiq = s.fiq := rfl
@[simp] theorem coreSet_aq (s : State) (c : Nat) (x : CoreSt) : (coreSet s c x).aq = s.aq := rfl
@[simp] theorem coreSet_mbx (s : State) (c : Nat) (x : CoreSt) : (coreSet s c x).mbx = s.mbx := rfl
@[simp] theorem coreSet_hif (s : State) (c : Nat) (x : CoreSt) : (coreSet s c x).hif = s.hif := rfl
@[simp] theorem coreSet_time (s : State) (c : Nat) (x : CoreSt) : (coreSet s c x).time = s.time := rfl
@[simp] theorem coreSet_eng (s : State) (c : Nat) (x : CoreSt) : (coreSet s c x).eng = s.eng := rfl
@[simp] theorem coreSet_plc (s : State) (c : Nat) (x : CoreSt) : (coreSet s c x).plc = s.plc := rfl
@[simp] theorem coreSet_pwr (s : State) (c : Nat) (x : CoreSt) : (coreSet s c x).pwr = s.pwr := rfl
@[simp] theorem coreSet_mgt (s : State) (c : Nat) (x : CoreSt) : (coreSet s c x).mgt = s.mgt := rfl
@[simp] theorem coreSet_test (s : State) (c : Nat) (x : CoreSt) : (coreSet s c x).test = s.test := rfl

/-! Replacing another field leaves the registers. -/

@[simp] theorem getR_with_pending (s : State) (x : List Instr) (a : Nat) : getR { s with pending := x } a = getR s a := rfl
@[simp] theorem getR_with_cnts (s : State) (x : SMap DWord) (a : Nat) : getR { s with cnts := x } a = getR s a := rfl
@[simp] theorem getR_with_snaps (s : State) (x : SMap DWord) (a : Nat) : getR { s with snaps := x } a = getR s a := rfl
@[simp] theorem getR_with_free (s : State) (x : Nat) (a : Nat) : getR { s with free := x } a = getR s a := rfl
@[simp] theorem getR_with_mem (s : State) (x : List Host.Cell) (a : Nat) : getR { s with mem := x } a = getR s a := rfl
@[simp] theorem getR_with_outs (s : State) (x : List Out) (a : Nat) : getR { s with outs := x } a = getR s a := rfl
@[simp] theorem getR_with_resp (s : State) (x : Resp) (a : Nat) : getR { s with resp := x } a = getR s a := rfl
@[simp] theorem getR_with_intc (s : State) (x : IntcSt) (a : Nat) : getR { s with intc := x } a = getR s a := rfl
@[simp] theorem getR_with_sys (s : State) (x : SysSt) (a : Nat) : getR { s with sys := x } a = getR s a := rfl
@[simp] theorem getR_with_sw (s : State) (x : SwSt) (a : Nat) : getR { s with sw := x } a = getR s a := rfl
@[simp] theorem getR_with_eth (s : State) (x : EthSt) (a : Nat) : getR { s with eth := x } a = getR s a := rfl
@[simp] theorem getR_with_gate (s : State) (x : GateSt) (a : Nat) : getR { s with gate := x } a = getR s a := rfl
@[simp] theorem getR_with_vlt (s : State) (x : VltSt) (a : Nat) : getR { s with vlt := x } a = getR s a := rfl
@[simp] theorem getR_with_bnk (s : State) (x : BnkSt) (a : Nat) : getR { s with bnk := x } a = getR s a := rfl
@[simp] theorem getR_with_plk (s : State) (x : SMap PlkSt) (a : Nat) : getR { s with plk := x } a = getR s a := rfl
@[simp] theorem getR_with_mdb (s : State) (x : SMap MdbSt) (a : Nat) : getR { s with mdb := x } a = getR s a := rfl
@[simp] theorem getR_with_ptc (s : State) (x : SMap PtcSt) (a : Nat) : getR { s with ptc := x } a = getR s a := rfl
@[simp] theorem getR_with_fiq (s : State) (x : SMap FiqSt) (a : Nat) : getR { s with fiq := x } a = getR s a := rfl
@[simp] theorem getR_with_aq (s : State) (x : SMap (List Word)) (a : Nat) : getR { s with aq := x } a = getR s a := rfl
@[simp] theorem getR_with_mbx (s : State) (x : SMap Nat) (a : Nat) : getR { s with mbx := x } a = getR s a := rfl
@[simp] theorem getR_with_hif (s : State) (x : HifSt) (a : Nat) : getR { s with hif := x } a = getR s a := rfl
@[simp] theorem getR_with_time (s : State) (x : TimeSt) (a : Nat) : getR { s with time := x } a = getR s a := rfl
@[simp] theorem getR_with_eng (s : State) (x : SMap EngSt) (a : Nat) : getR { s with eng := x } a = getR s a := rfl
@[simp] theorem getR_with_plc (s : State) (x : PlcSt) (a : Nat) : getR { s with plc := x } a = getR s a := rfl
@[simp] theorem getR_with_cores (s : State) (x : SMap CoreSt) (a : Nat) : getR { s with cores := x } a = getR s a := rfl
@[simp] theorem getR_with_pwr (s : State) (x : PwrSt) (a : Nat) : getR { s with pwr := x } a = getR s a := rfl
@[simp] theorem getR_with_mgt (s : State) (x : MgtSt) (a : Nat) : getR { s with mgt := x } a = getR s a := rfl
@[simp] theorem getR_with_test (s : State) (x : TestSt) (a : Nat) : getR { s with test := x } a = getR s a := rfl

/-! What the primitive updates write. -/

@[simp] theorem answer_resp (s : State) (v : Word) : (answer s v).resp = .ok v := rfl
@[simp] theorem answerErr_resp (s : State) : (answerErr s).resp = .busErr := rfl
@[simp] theorem getR_answer (s : State) (v : Word) (a : Nat) : getR (answer s v) a = getR s a := rfl
@[simp] theorem getR_answerErr (s : State) (a : Nat) : getR (answerErr s) a = getR s a := rfl
@[simp] theorem getR_bumpN (s : State) (k n a : Nat) : getR (bumpN s k n) a = getR s a := rfl
@[simp] theorem getR_wrB (s : State) (k : Nat) (b : Byte) (a : Nat) : getR (wrB s k b) a = getR s a := rfl
@[simp] theorem getR_tbSet (s : State) (b : Nat) (t : TbSt) (a : Nat) : getR (tbSet s b t) a = getR s a := rfl
@[simp] theorem getR_engMod (s : State) (n : Nat) (f : EngSt → EngSt) (a : Nat) : getR (engMod s n f) a = getR s a := rfl
@[simp] theorem getR_fiqSet (s : State) (f : Nat) (q : FiqSt) (a : Nat) : getR (fiqSet s f q) a = getR s a := rfl
@[simp] theorem getR_coreSet (s : State) (c : Nat) (x : CoreSt) (a : Nat) : getR (coreSet s c x) a = getR s a := rfl

end Sys2Proof.Laws
end

