-- ==== Sys2Proof/Laws/Shared.lean ====
section
/-! SUPPORT. What the shared operations do: accesses that are let through, registers written and read back, fields of
words, and the registers that interrupts leave alone. -/

namespace Sys2Proof.Laws

open Sys2Proof Sys2Proof.Machine Sys2Proof.Machine.Reg

/-! Accesses that are let through. -/

theorem gatedWrite_open {m : Master} {a : Nat} {f : State → State} {s : State} (h : MayWrite s m a) :
    gatedWrite m a f s = answer (f s) 0 := by
  unfold MayWrite writeOpen at h
  unfold gatedWrite
  split at h
  · cases h
  · rename_i pg hp
    try simp only [hp]
    simp only [Bool.and_eq_true, Bool.or_eq_true, Bool.not_eq_true'] at h
    simp only [h.1.1, h.1.2, Bool.not_true, Bool.false_eq_true, if_false]
    split
    · rename_i hc
      simp only [Bool.and_eq_true, Bool.not_eq_true'] at hc
      rcases h.2 with h1 | h1
      · rw [h1] at hc; cases hc.1
      · simp only [h1.1, h1.2] at hc; cases hc.2
    · rfl

theorem gatedRead_open {m : Master} {a : Nat} {f : State → State × Word} {s : State} (h : MayRead s m a) :
    gatedRead m a f s = answer (f s).1 (f s).2 := by
  unfold MayRead readOpen at h
  unfold gatedRead
  split at h
  · cases h
  · rename_i pg hp
    try simp only [hp]
    simp only [Bool.and_eq_true, Bool.or_eq_true, Bool.not_eq_true'] at h
    simp only [h.1.1, h.1.2, Bool.not_true, Bool.false_eq_true, if_false]
    split
    · rename_i hc
      simp only [Bool.and_eq_true, Bool.not_eq_true'] at hc
      rcases h.2 with h1 | h1
      · rw [h1] at hc; cases hc.1
      · simp only [h1.1, h1.2] at hc; cases hc.2
    · rfl

theorem onHeader_open {m : Master} {a off : Nat} {f : Page → State → State} {s : State} {pg : Page}
    (hp : pageOf a = some pg) (h : MayWrite s m (pg.base + off)) :
    onHeader m a off f s = answer (f pg s) 0 := by
  unfold onHeader
  simp only [hp]
  exact gatedWrite_open h

/-! Sparse maps and registers. -/

theorem find_sset {α : Type} (l : SMap α) (k j : Nat) (v : α) :
    sfind (sset l k v) j = if j = k then some v else sfind l j := by
  induction l with
  | nil => simp only [sset, sfind]; grind
  | cons x r ih =>
    obtain ⟨k', v'⟩ := x
    simp only [sset]
    split
    · simp only [sfind]; grind
    · split
      · simp only [sfind]; grind
      · simp only [sfind, ih]; grind

theorem getR_setR (s : State) (a b : Nat) (v : Word) : getR (setR s a v) b = if b = a then v else getR s b := by
  unfold getR setR sget
  dsimp only
  rw [find_sset]
  split <;> rfl

theorem getR_setR_same (s : State) (a : Nat) (v : Word) : getR (setR s a v) a = v := by
  rw [getR_setR, if_pos rfl]

theorem getR_setR_ne {s : State} {a b : Nat} {v : Word} (h : b ≠ a) : getR (setR s a v) b = getR s b := by
  rw [getR_setR, if_neg h]

theorem getR_putB_ne {s : State} {a b i : Nat} {x : Bool} (h : b ≠ a) : getR (putB s a i x) b = getR s b :=
  getR_setR_ne h

theorem getR_putF_ne {s : State} {a b hi lo v : Nat} (h : b ≠ a) : getR (putF s a hi lo v) b = getR s b :=
  getR_setR_ne h

theorem getR_putB_same (s : State) (a i : Nat) (x : Bool) : getR (putB s a i x) a = setBit (getR s a) i x :=
  getR_setR_same _ _ _

theorem getR_putF_same (s : State) (a hi lo v : Nat) : getR (putF s a hi lo v) a = setFld (getR s a) hi lo v :=
  getR_setR_same _ _ _

/-- A state with the same registers reads the same. -/
theorem getR_congr {s t : State} (h : t.regs = s.regs) (a : Nat) : getR t a = getR s a := by
  unfold getR; rw [h]

theorem find_sclear {α : Type} {m : SMap α} {lo hi k : Nat} {p : Nat → Bool} (hp : p k = false) :
    sfind (sclear m lo hi p) k = sfind m k := by
  unfold sclear
  induction m with
  | nil => rfl
  | cons x r ih => obtain ⟨k', v⟩ := x; simp only [List.filter_cons]; grind [sfind]

theorem find_sclear_gone {α : Type} {m : SMap α} {lo hi k : Nat} {p : Nat → Bool} (h1 : lo ≤ k) (h2 : k < hi)
    (hp : p k = true) : sfind (sclear m lo hi p) k = none := by
  unfold sclear
  induction m with
  | nil => rfl
  | cons x r ih => obtain ⟨k', v⟩ := x; simp only [List.filter_cons]; grind [sfind]

/-! Pages and byte order. -/

set_option maxRecDepth 4000 in
theorem pageOf_MAC (p : Fin 192) : pageOf (MAC p.val) = some ⟨.MAC, p.val, MAC p.val⟩ := by
  revert p; decide

set_option maxRecDepth 4000 in
theorem pageOf_SDS (p : Fin 60) : pageOf (SDS p.val) = some ⟨.SDS, p.val, SDS p.val⟩ := by
  revert p; decide

set_option maxRecDepth 4000 in
theorem pageOf_MDB (p : Fin 48) : pageOf (MDB p.val) = some ⟨.MDB, p.val, MDB p.val⟩ := by
  revert p; decide

set_option maxRecDepth 4000 in
theorem pageOf_PLK (p : Fin 16) : pageOf (PLK p.val) = some ⟨.PLK, p.val, PLK p.val⟩ := by
  revert p; decide

set_option maxRecDepth 4000 in
theorem pageOf_PTC (p : Fin 64) : pageOf (PTC p.val) = some ⟨.PTC, p.val, PTC p.val⟩ := by
  revert p; decide

set_option maxRecDepth 4000 in
theorem pageOf_PEN (p : Fin 52) : pageOf (PEN p.val) = some ⟨.PEN, p.val, PEN p.val⟩ := by
  revert p; decide

/-- A block's base lies in its own pages. -/
theorem pageOf_base {a : Nat} {pg : Page} (h : pageOf a = some pg) : pageOf pg.base = some pg := by
  unfold pageOf at h
  by_cases c : a < 0x10000000 ∨ 0x14000000 ≤ a
  · rw [if_pos c] at h; cases h
  rw [if_neg c] at h
  dsimp only at h
  clear c
  generalize (a - 0x10000000) / 0x1000 = p at h
  by_cases c : p = 0
  · rw [if_pos c] at h; cases h; rfl
  rw [if_neg c] at h
  clear c
  by_cases c : p = 1
  · rw [if_pos c] at h; cases h; rfl
  rw [if_neg c] at h
  clear c
  by_cases c : p = 2
  · rw [if_pos c] at h; cases h; rfl
  rw [if_neg c] at h
  clear c
  by_cases c : p = 3
  · rw [if_pos c] at h; cases h; rfl
  rw [if_neg c] at h
  clear c
  by_cases c : p < 8
  · rw [if_pos c] at h; cases h; rfl
  rw [if_neg c] at h
  clear c
  by_cases c : p = 8
  · rw [if_pos c] at h; cases h; rfl
  rw [if_neg c] at h
  clear c
  by_cases c : p = 9
  · rw [if_pos c] at h; cases h; rfl
  rw [if_neg c] at h
  clear c
  by_cases c : p = 0xA
  · rw [if_pos c] at h; cases h; rfl
  rw [if_neg c] at h
  clear c
  by_cases c : p = 0xB
  · rw [if_pos c] at h; cases h; rfl
  rw [if_neg c] at h
  clear c
  by_cases c : p = 0xC
  · rw [if_pos c] at h; cases h; rfl
  rw [if_neg c] at h
  clear c
  by_cases c : p < 0xF
  · rw [if_pos c] at h; cases h; rfl
  rw [if_neg c] at h
  clear c
  by_cases c : p < 0x10
  · rw [if_pos c] at h; cases h
  rw [if_neg c] at h
  clear c
  by_cases c : p < 0x14
  · rw [if_pos c] at h; cases h; rfl
  rw [if_neg c] at h
  clear c
  by_cases c : p = 0x14
  · rw [if_pos c] at h; cases h; rfl
  rw [if_neg c] at h
  clear c
  by_cases c : p < 0x18
  · rw [if_pos c] at h; cases h
  rw [if_neg c] at h
  clear c
  by_cases c : p < 0x20
  · rw [if_pos c] at h; cases h; rfl
  rw [if_neg c] at h
  clear c
  by_cases c : p < 0x40
  · rw [if_pos c] at h; cases h; rfl
  rw [if_neg c] at h
  clear c
  by_cases c : p < 0x80
  · rw [if_pos c] at h; cases h; rfl
  rw [if_neg c] at h
  clear c
  by_cases c : p < 0xC0
  · rw [if_pos c] at h; cases h; rfl
  rw [if_neg c] at h
  clear c
  by_cases c : p < 0x100
  · rw [if_pos c] at h; cases h; rfl
  rw [if_neg c] at h
  clear c
  by_cases c : p = 0x100
  · rw [if_pos c] at h; cases h; rfl
  rw [if_neg c] at h
  clear c
  by_cases c : 0x200 ≤ p ∧ p < 0x2C0
  · rw [if_pos c] at h; cases h; exact pageOf_MAC ⟨_, by omega⟩
  rw [if_neg c] at h
  clear c
  by_cases c : 0x300 ≤ p ∧ p < 0x33C
  · rw [if_pos c] at h; cases h; exact pageOf_SDS ⟨_, by omega⟩
  rw [if_neg c] at h
  clear c
  by_cases c : 0x400 ≤ p ∧ p < 0x430
  · rw [if_pos c] at h; cases h; exact pageOf_MDB ⟨_, by omega⟩
  rw [if_neg c] at h
  clear c
  by_cases c : 0x500 ≤ p ∧ p < 0x510
  · rw [if_pos c] at h; cases h; exact pageOf_PLK ⟨_, by omega⟩
  rw [if_neg c] at h
  clear c
  by_cases c : 0x600 ≤ p ∧ p < 0x640
  · rw [if_pos c] at h; cases h; exact pageOf_PTC ⟨_, by omega⟩
  rw [if_neg c] at h
  clear c
  by_cases c : 0x700 ≤ p ∧ p < 0x734
  · rw [if_pos c] at h; cases h; exact pageOf_PEN ⟨_, by omega⟩
  rw [if_neg c] at h
  clear c
  cases h

theorem leNat_leBytes (k n : Nat) : leNat (leBytes k n) = n % 256 ^ k := by
  induction k generalizing n with
  | zero => simp [leBytes, leNat, Nat.mod_one]
  | succ k ih =>
    have h : (b8 n).toNat = n % 256 := by unfold b8; rw [BitVec.toNat_ofNat]
    simp only [leBytes, leNat, ih, h]
    rw [Nat.pow_succ, Nat.mul_comm (256 ^ k), Nat.mod_mul]

theorem leNat_leBytes4 (v : Word) : w32 (leNat (leBytes 4 v.toNat)) = v := by
  rw [leNat_leBytes, Nat.mod_eq_of_lt (show v.toNat < 256 ^ 4 from v.isLt)]
  unfold w32
  simp

theorem dword_hi_lo (d : DWord) : dword (hi32 d) (lo32 d) = d := by
  unfold dword hi32 lo32
  ext i hi
  simp only [BitVec.getElem_append, BitVec.getElem_setWidth]
  grind

/-! Fields of words. -/

theorem testBit_setFld (w : Word) {hi lo v i : Nat} (hh : hi < 32) :
    (setFld w hi lo v).toNat.testBit i =
      if lo ≤ i ∧ i ≤ hi then v.testBit (i - lo) else w.toNat.testBit i := by
  unfold setFld
  simp only [BitVec.toNat_or, BitVec.toNat_and, BitVec.toNat_not, BitVec.toNat_ofNat, Nat.testBit_or, Nat.testBit_and]
  by_cases h32 : i < 32
  · rw [Nat.sub_sub, Nat.add_comm 1, Nat.testBit_two_pow_sub_succ (Nat.mod_lt _ (by decide))]
    simp only [Nat.testBit_mod_two_pow, Nat.testBit_shiftLeft, h32, decide_true, Bool.true_and,
      Nat.testBit_two_pow_sub_one]
    by_cases h1 : lo ≤ i <;> by_cases h2 : i ≤ hi
    · have h3 : i - lo < hi + 1 - lo := by omega
      simp [h1, h2, h3]
    · have h3 : ¬ i - lo < hi + 1 - lo := by omega
      simp [h1, h2, h3]
    · simp [h1]
    · simp [h1]
  · have hw : w.toNat.testBit i = false := Nat.testBit_lt_two_pow (Nat.lt_of_lt_of_le w.isLt (Nat.pow_le_pow_right (by decide) (by omega)))
    simp only [hw, Bool.false_and, Nat.testBit_mod_two_pow, h32, decide_false, Bool.false_or]
    split
    · omega
    · rfl

theorem bit_setBit_same {w : Word} {i : Nat} {b : Bool} (h : i < 32) : bit (setBit w i b) i = b := by
  unfold bit setBit
  rw [testBit_setFld w h, if_pos ⟨Nat.le_refl _, Nat.le_refl _⟩]
  cases b <;> simp

theorem bit_setBit_ne {w : Word} {i j : Nat} {b : Bool} (h : i < 32) (hj : j ≠ i) : bit (setBit w i b) j = bit w j := by
  unfold bit setBit
  rw [testBit_setFld w h, if_neg (by omega)]

theorem bit_setFld_ne {w : Word} {hi lo v j : Nat} (h : hi < 32) (hj : j < lo ∨ hi < j) :
    bit (setFld w hi lo v) j = bit w j := by
  unfold bit
  rw [testBit_setFld w h, if_neg (by omega)]

theorem testBit_fld (w : Word) (hi lo i : Nat) :
    (fld w hi lo).testBit i = (decide (i < hi + 1 - lo) && w.toNat.testBit (lo + i)) := by
  unfold fld nbits
  rw [Nat.testBit_mod_two_pow, Nat.testBit_shiftRight]

theorem fld_setFld_same {w : Word} {hi lo v : Nat} (h : hi < 32) :
    fld (setFld w hi lo v) hi lo = v % 2 ^ (hi + 1 - lo) := by
  refine Nat.eq_of_testBit_eq fun i => ?_
  rw [testBit_fld, testBit_setFld w h, Nat.testBit_mod_two_pow]
  by_cases hi' : i < hi + 1 - lo
  · rw [if_pos (by omega)]; simp [hi']
  · simp [hi']

theorem fld_setFld_ne {w : Word} {hi lo v hi' lo' : Nat} (h : hi < 32) (hd : hi' < lo ∨ hi < lo') :
    fld (setFld w hi lo v) hi' lo' = fld w hi' lo' := by
  refine Nat.eq_of_testBit_eq fun i => ?_
  rw [testBit_fld, testBit_fld, testBit_setFld w h]
  by_cases hi1 : i < hi' + 1 - lo'
  · rw [if_neg (by omega)]
  · simp [hi1]

theorem fld_setBit_ne {w : Word} {i hi lo : Nat} {b : Bool} (h : i < 32) (hd : hi < i ∨ i < lo) :
    fld (setBit w i b) hi lo = fld w hi lo :=
  fld_setFld_ne h hd

/-! Registers that interrupt delivery leaves alone: all but INT's pending bits, `INT.IRQ_STATUS` and the engines' events. -/

/-- Register `a` is none of those that interrupt delivery writes. -/
abbrev Still (a : Nat) : Prop :=
  a < 0x10000000000 ∧ a ≠ IRQ_STATUS INT ∧ a ≠ INT_MSI_X_PBA ∧ a ≠ INT_MSI_X_PBA + 4

theorem foldl_keeps {α β : Type} {P : β → Prop} {f : β → α → β} {l : List α} {b : β} (h : P b)
    (hf : ∀ b x, x ∈ l → P b → P (f b x)) : P (l.foldl f b) := by
  induction l generalizing b with
  | nil => exact h
  | cons x r ih =>
    exact ih (hf _ _ List.mem_cons_self h) fun b y hy => hf b y (List.mem_cons_of_mem _ hy)

theorem mem_ninsert {l : List Nat} {n x : Nat} (h : x ∈ ninsert l n) : x = n ∨ x ∈ l := by
  induction l with
  | nil => simp only [ninsert, List.mem_singleton] at h; exact .inl h
  | cons y r ih => simp only [ninsert] at h; grind

theorem fld_lt (w : Word) (hi lo : Nat) : fld w hi lo < 2 ^ (hi + 1 - lo) :=
  Nat.mod_lt _ (Nat.pow_pos (by decide))

theorem vecsOf_lt {m : SMap Word} {v : Nat} (h : v ∈ vecsOf m) : v < 64 := by
  have hall : ∀ w ∈ vecsOf m, w < 64 := by
    unfold vecsOf
    refine foldl_keeps (P := fun l => ∀ w ∈ l, w < 64) (by simp) fun l e _ hl => ?_
    split
    · intro w hw
      rcases mem_ninsert hw with rfl | hw
      · exact fld_lt _ 13 8
      · exact hl w hw
    · exact hl
  exact hall v h

theorem regs_emit (s : State) (o : Out) : (emit s o).regs = s.regs := by
  unfold emit; split <;> rfl

theorem getR_emit (s : State) (o : Out) (a : Nat) : getR (emit s o) a = getR s a := getR_congr (regs_emit s o) a

theorem getR_raiseEvent {a : Nat} (h : a < 0x10000000000) (s : State) (n l : Nat) :
    getR (raiseEvent s n l) a = getR s a := by
  unfold raiseEvent
  split
  · refine getR_putB_ne ?_
    unfold engKey
    omega
  · rfl

theorem pba_ne {a v : Nat} (h : Still a) (hv : v < 64) : a ≠ INT_MSI_X_PBA + 4 * (v / 32) := by
  obtain ⟨_, _, h1, h2⟩ := h
  have : v / 32 = 0 ∨ v / 32 = 1 := by omega
  rcases this with e | e <;> rw [e]
  · exact h1
  · exact h2

theorem getR_msixDue {a v : Nat} (h : Still a) (hv : v < 64) (s : State) : getR (msixDue s v).1 a = getR s a := by
  unfold msixDue
  dsimp only
  split
  · exact getR_putB_ne (pba_ne h hv)
  · split
    · rw [getR_emit]; exact getR_putB_ne (pba_ne h hv)
    · exact getR_putB_ne (pba_ne h hv)

theorem getR_intcEdges {a : Nat} (h : Still a) (s : State) : getR (intcEdges s).1 a = getR s a := by
  unfold intcEdges
  dsimp only
  refine foldl_keeps (P := fun t : State × Bool => getR t.1 a = getR s a) ?_ fun t v hv ht => ?_
  · refine foldl_keeps (P := fun t : State => getR t a = getR s a) ?_ fun t v hv ht => ?_
    · refine foldl_keeps (P := fun t : State => getR t a = getR s a) rfl fun t e _ ht => ?_
      exact (getR_raiseEvent h.1 _ _ _).trans ht
    · exact (getR_putB_ne (pba_ne h (vecsOf_lt (List.mem_filter.1 hv).1))).trans ht
  · exact (getR_msixDue h (vecsOf_lt (List.mem_filter.1 hv).1) _).trans ht

theorem getR_intcRefresh {a : Nat} (h : Still a) (s : State) : getR (intcRefresh s) a = getR s a := by
  unfold intcRefresh
  dsimp only
  split
  · rw [getR_intcEdges h]
    exact (getR_putB_ne h.2.1).trans (getR_intcEdges h s)
  · exact getR_intcEdges h s

theorem getR_setLine {a : Nat} (h : Still a) (s : State) (n : Nat) (b : Bool) : getR (setLine s n b) a = getR s a := by
  unfold setLine
  split
  · rfl
  · rw [getR_intcRefresh h]; rfl

theorem getR_updIrq {a : Nat} (h : Still a) (s : State) (b : Nat) : getR (updIrq s b) a = getR s a := by
  unfold updIrq
  split
  · rfl
  · exact foldl_keeps (P := fun t : State => getR t a = getR s a) rfl fun t e _ ht => (getR_setLine h _ _ _).trans ht

/-- An interrupt condition leaves every other register alone. -/
theorem getR_raiseIrq {a b : Nat} (h : Still a) (hb : a ≠ IRQ_STATUS b) (s : State) (i : Nat) :
    getR (raiseIrq s b i) a = getR s a := by
  unfold raiseIrq
  rw [getR_updIrq h]
  exact getR_putB_ne hb

/-- An interrupt condition sets its bit of `IRQ_STATUS`. -/
theorem getB_raiseIrq {b i : Nat} (h : Still (IRQ_STATUS b)) (hi : i < 32) (s : State) :
    getB (raiseIrq s b i) (IRQ_STATUS b) i = true := by
  unfold getB raiseIrq
  rw [getR_updIrq h, getR_putB_same]
  exact bit_setBit_same hi

/-- A register with an ordinary address: none of a common header's, none of INT's, none of an engine's own. -/
abbrev Plain (a : Nat) : Prop := a < 0x10000000000 ∧ 0x40 ≤ a % 0x1000 ∧ (a < 0x10004000 ∨ 0x10008000 ≤ a)

theorem Plain.still {a : Nat} (h : Plain a) : Still a := by
  obtain ⟨h1, h2, h3⟩ := h
  refine ⟨h1, ?_, ?_, ?_⟩
  · simp only [IRQ_STATUS, INT]; omega
  · simp only [INT_MSI_X_PBA]; omega
  · simp only [INT_MSI_X_PBA]; omega

/-- An interrupt condition of a page leaves ordinary registers alone. -/
theorem Plain.raiseIrq {a b : Nat} (h : Plain a) (hb : b % 0x1000 = 0) (s : State) (i : Nat) :
    getR (raiseIrq s b i) a = getR s a :=
  getR_raiseIrq h.still (by unfold IRQ_STATUS; have := h.2.1; omega) s i

end Sys2Proof.Laws
end

