-- ==== Sys2Proof/Laws/Access.lean ====
section
/-! SUPPORT. What a plain write leaves in a register whose bits are free to every master. -/

namespace Sys2Proof.Laws

open Sys2Proof Sys2Proof.Machine Sys2Proof.Machine.Reg

theorem touches_zero (d : RDesc) (old v : Word) : touches d 0 old v = false := by
  have hz : ∀ n : Nat, Nat.land 0 n = 0 := fun n => Nat.zero_and n
  unfold touches differ
  simp only [hz]
  have h0 : w32 0 = 0#32 := rfl
  simp only [h0, BitVec.and_zero, beq_self_eq_true, Bool.not_true, Bool.or_self]

/-- A plain write to an RW register: its writable bits take the value, the others stay. -/
theorem plainWrite_rw {rst mask : Nat} {m : Master} {pg : Page} {off : Nat} {v : Word} {s : State} :
    plainWrite (rwReg rst mask) m pg off v s =
      setR s (pg.base + off) ((getR s (pg.base + off) &&& ~~~ w32 mask) ||| (v &&& w32 mask)) := by
  have h1 : (rwReg rst mask).ssp = 0 := rfl
  have h2 : (rwReg rst mask).rwl = 0 := rfl
  have h3 : (rwReg rst mask).rw = mask := rfl
  have h4 : (rwReg rst mask).w1c = 0 := rfl
  have h5 : (rwReg rst mask).w1s = 0 := rfl
  have h0 : w32 0 = 0#32 := rfl
  have hl : Nat.lor 0 0 = 0 := rfl
  unfold plainWrite plainValue
  simp only [h1, h2, h3, h4, h5, ite_self, touches_zero, Bool.false_eq_true, if_false, h0, hl]
  congr 1
  simp only [BitVec.and_zero, BitVec.zero_and, BitVec.or_zero, BitVec.not_zero, BitVec.and_allOnes, show ~~~(0#32) = BitVec.allOnes 32 from rfl]

theorem getLsb_w32 (n i : Nat) : (w32 n).getLsbD i = (decide (i < 32) && n.testBit i) := by
  unfold w32
  exact BitVec.getLsbD_ofNat ..

/-- A bit after the write. -/
theorem bit_kept {old v : Word} {mask i : Nat} (hi : i < 32) :
    bit ((old &&& ~~~ w32 mask) ||| (v &&& w32 mask)) i = if mask.testBit i then bit v i else bit old i := by
  show BitVec.getLsbD _ i = if mask.testBit i then BitVec.getLsbD v i else BitVec.getLsbD old i
  simp only [BitVec.getLsbD_or, BitVec.getLsbD_and, BitVec.getLsbD_not, getLsb_w32, hi, decide_true, Bool.true_and]
  cases mask.testBit i <;> simp

/-- A field after the write that lies within the mask. -/
theorem fld_kept {old v : Word} {mask hi lo : Nat} (hh : hi < 32) (hm : ∀ i, lo ≤ i → i ≤ hi → mask.testBit i = true) :
    fld ((old &&& ~~~ w32 mask) ||| (v &&& w32 mask)) hi lo = fld v hi lo := by
  apply Nat.eq_of_testBit_eq
  intro i
  rw [testBit_fld, testBit_fld]
  by_cases h : i < hi + 1 - lo
  · have hb := bit_kept (old := old) (v := v) (mask := mask) (i := lo + i) (by omega)
    unfold bit at hb
    rw [hm _ (by omega) (by omega), if_pos rfl] at hb
    simp only [hb]
  · simp only [h, decide_false, Bool.false_and, Bool.and_false]

end Sys2Proof.Laws
end

