-- ==== Sys2Proof/Laws/KeepsWear.lean ====
section
/-! SUPPORT. What the operations of `Machine/Wear.lean` keep. -/

namespace Sys2Proof.Laws.K

open Sys2Proof Sys2Proof.Machine Sys2Proof.Laws

theorem wearTo {pset : List Part} {z0 : State} {s : State} {r : Nat} {n : Nat} (h_regs : Part.regs ∈ pset) (h_outs
    : Part.outs ∈ pset) (h_intc : Part.intc ∈ pset) (hk : Keeps pset z0 s) : Keeps pset z0 (Machine.wearTo s r n) :=
    by
  unfold Machine.wearTo
  repeat' (first
    | with_reducible first
      | assumption | apply K.setR h_regs | apply K.putB h_regs | apply K.raiseIrq h_regs h_outs h_intc
      | refine Keeps.ite (fun _ => ?_) (fun _ => ?_)
    | dsimp only | split)

theorem rowsWrite {pset : List Part} {z0 : State} {s : State} {l : Nat} {n : Nat} (h_regs : Part.regs ∈ pset)
    (h_outs : Part.outs ∈ pset) (h_intc : Part.intc ∈ pset) (h_vlt : Part.vlt ∈ pset) (hk : Keeps pset z0 s) : Keeps
    pset z0 (Machine.rowsWrite s l n) := by
  unfold Machine.rowsWrite
  repeat' (first
    | with_reducible first
      | assumption | apply K.wearTo h_regs h_outs h_intc
    | intro _ _ | dsimp only | simp only [Keeps.lit_vlt h_vlt])

theorem healthPut {pset : List Part} {z0 : State} {f : HealthRec → HealthRec} {s : State} (h_regs : Part.regs ∈
    pset) (h_outs : Part.outs ∈ pset) (h_intc : Part.intc ∈ pset) (h_vlt : Part.vlt ∈ pset) (hk : Keeps pset z0 s) :
    Keeps pset z0 (Machine.healthPut f s) := by
  unfold Machine.healthPut
  repeat' (first
    | with_reducible first
      | assumption | apply K.rowsWrite h_regs h_outs h_intc h_vlt
    | dsimp only | simp only [Keeps.lit_vlt h_vlt])

end Sys2Proof.Laws.K
end

