-- ==== Sys2Proof/Laws/KeepsBanks.lean ====
section
/-! SUPPORT. What the operations of `Machine/Banks.lean` keep. -/

namespace Sys2Proof.Laws.K

open Sys2Proof Sys2Proof.Machine Sys2Proof.Laws

theorem freeLowCheck {pset : List Part} {z0 : State} {s : State} (h_regs : Part.regs ∈ pset) (h_outs : Part.outs ∈
    pset) (h_intc : Part.intc ∈ pset) (hk : Keeps pset z0 s) : Keeps pset z0 (Machine.freeLowCheck s) := by
  unfold Machine.freeLowCheck
  repeat' (first
    | with_reducible first
      | assumption | apply K.setRaw h_regs h_outs h_intc)

theorem bankDeny {pset : List Part} {z0 : State} {s : State} {m : Master} {a : Nat} {wnr : Bool} {reason : Nat}
    (h_regs : Part.regs ∈ pset) (h_outs : Part.outs ∈ pset) (h_intc : Part.intc ∈ pset) (hk : Keeps pset z0 s) : Keeps
    pset z0 (Machine.bankDeny s m a wnr reason) := by
  unfold Machine.bankDeny
  repeat' (first
    | with_reducible first
      | assumption | apply K.setR h_regs | apply K.putB h_regs | apply K.satInc h_regs
      | apply K.raiseIrq h_regs h_outs h_intc | refine Keeps.ite (fun _ => ?_) (fun _ => ?_)
    | dsimp only | split)

theorem fabJudge {pset : List Part} {z0 : State} {s : State} {m : Master} {a : Nat} {n : Nat} {wnr : Bool} {extra
    : Bool} (h_regs : Part.regs ∈ pset) (h_outs : Part.outs ∈ pset) (h_intc : Part.intc ∈ pset) (hk : Keeps pset z0 s)
    : Keeps pset z0 (Machine.fabJudge s m a n wnr extra).1 := by
  unfold Machine.fabJudge
  repeat' (first
    | with_reducible first
      | assumption | apply K.recErr h_regs h_outs h_intc | apply K.bankDeny h_regs h_outs h_intc
      | refine Keeps.ite (fun _ => ?_) (fun _ => ?_) | refine Keeps.iteFst (fun _ => ?_) (fun _ => ?_)
    | intro _ _ | dsimp only | split)

theorem coverHalves {pset : List Part} {z0 : State} {s : State} {a : Nat} {n : Nat} (h_bnk : Part.bnk ∈ pset) (hk
    : Keeps pset z0 s) : Keeps pset z0 (Machine.coverHalves s a n) := by
  unfold Machine.coverHalves
  repeat' (first
    | with_reducible first
      | assumption
    | intro _ _ | dsimp only | simp only [Keeps.lit_bnk h_bnk])

theorem fabRead {pset : List Part} {z0 : State} {s : State} {m : Master} {a : Nat} {n : Nat} {extra : Bool}
    (h_regs : Part.regs ∈ pset) (h_outs : Part.outs ∈ pset) (h_intc : Part.intc ∈ pset) (hk : Keeps pset z0 s) : Keeps
    pset z0 (Machine.fabRead s m a n extra).1 := by
  unfold Machine.fabRead
  repeat' (first
    | with_reducible first
      | assumption | apply K.fabJudge h_regs h_outs h_intc | refine Keeps.ite (fun _ => ?_) (fun _ => ?_)
      | refine Keeps.iteFst (fun _ => ?_) (fun _ => ?_)
    | dsimp only | split | refine Keeps.ofFst (by with_reducible assumption) ?_
    | refine Keeps.ofSnd (by with_reducible assumption) ?_)

theorem verdictGuard {pset : List Part} {z0 : State} {s : State} {m : Master} {a : Nat} {l : List Byte} (h_regs :
    Part.regs ∈ pset) (h_outs : Part.outs ∈ pset) (h_intc : Part.intc ∈ pset) (hk : Keeps pset z0 s) : Keeps pset z0
    (Machine.verdictGuard s m a l).1 := by
  unfold Machine.verdictGuard
  repeat' (first
    | with_reducible first
      | assumption | apply K.raiseIrq h_regs h_outs h_intc | apply K.recErr h_regs h_outs h_intc
      | refine Keeps.ite (fun _ => ?_) (fun _ => ?_) | refine Keeps.iteFst (fun _ => ?_) (fun _ => ?_)
    | intro _ _ | dsimp only | split)

theorem fabWrite {pset : List Part} {z0 : State} {s : State} {m : Master} {a : Nat} {l : List Byte} {extra : Bool}
    (h_regs : Part.regs ∈ pset) (h_mem : Part.mem ∈ pset) (h_outs : Part.outs ∈ pset) (h_intc : Part.intc ∈ pset)
    (h_bnk : Part.bnk ∈ pset) (hk : Keeps pset z0 s) : Keeps pset z0 (Machine.fabWrite s m a l extra).1 := by
  unfold Machine.fabWrite
  repeat' (first
    | with_reducible first
      | assumption | apply K.wrBytes h_mem | apply K.fabJudge h_regs h_outs h_intc | apply K.coverHalves h_bnk
      | apply K.verdictGuard h_regs h_outs h_intc | refine Keeps.ite (fun _ => ?_) (fun _ => ?_)
      | refine Keeps.iteFst (fun _ => ?_) (fun _ => ?_)
    | dsimp only | split | refine Keeps.ofFst (by with_reducible assumption) ?_
    | refine Keeps.ofSnd (by with_reducible assumption) ?_)

theorem zeroBank {pset : List Part} {z0 s : State} {b : Nat} (h_mem : Part.mem ∈ pset) (h_bnk : Part.bnk ∈ pset)
    (hk : Keeps pset z0 s) : Keeps pset z0 (Machine.zeroBank s b) :=
  have h := Keeps.memory (l := sclear s.mem (bankLo b) (bankLo (b + 1)) fun _ => true) h_mem
    (fun w => sclear_wf _ _ _ (fun _ => true) w) hk
  { h with bnk := .inl h_bnk }

theorem putBankState {pset : List Part} {z0 : State} {s : State} {b : Nat} {v : Nat} (h_regs : Part.regs ∈ pset)
    (hk : Keeps pset z0 s) : Keeps pset z0 (Machine.putBankState s b v) := by
  unfold Machine.putBankState
  repeat' (first
    | with_reducible first
      | assumption | apply K.putF h_regs)

theorem putBankPwr {pset : List Part} {z0 : State} {s : State} {b : Nat} {v : Nat} (h_regs : Part.regs ∈ pset) (hk
    : Keeps pset z0 s) : Keeps pset z0 (Machine.putBankPwr s b v) := by
  unfold Machine.putBankPwr
  repeat' (first
    | with_reducible first
      | assumption | apply K.putF h_regs)

theorem applyBankPwr {pset : List Part} {z0 : State} {s : State} {b : Nat} (h_regs : Part.regs ∈ pset) (h_mem :
    Part.mem ∈ pset) (h_bnk : Part.bnk ∈ pset) (hk : Keeps pset z0 s) : Keeps pset z0 (Machine.applyBankPwr s b) := by
  unfold Machine.applyBankPwr
  repeat' (first
    | with_reducible first
      | assumption | apply K.zeroBank h_mem h_bnk | apply K.putBankState h_regs | apply K.putBankPwr h_regs
      | refine Keeps.ite (fun _ => ?_) (fun _ => ?_)
    | dsimp only | split)

theorem bankStable {pset : List Part} {z0 : State} {s : State} {b : Nat} (h_regs : Part.regs ∈ pset) (h_mem :
    Part.mem ∈ pset) (h_outs : Part.outs ∈ pset) (h_intc : Part.intc ∈ pset) (h_sw : Part.sw ∈ pset) (h_bnk : Part.bnk
    ∈ pset) (hk : Keeps pset z0 s) : Keeps pset z0 (Machine.bankStable s b) := by
  unfold Machine.bankStable
  repeat' (first
    | with_reducible first
      | assumption | apply K.raiseIrq h_regs h_outs h_intc | apply K.freeLowCheck h_regs h_outs h_intc
      | apply K.putBankState h_regs | apply K.applyBankPwr h_regs h_mem h_bnk
      | refine Keeps.ite (fun _ => ?_) (fun _ => ?_)
    | dsimp only | split | simp only [Keeps.lit_sw h_sw] | simp only [Keeps.lit_bnk h_bnk])

theorem startHandOver {pset : List Part} {z0 : State} {s : State} {b : Nat} {new : Word} (h_regs : Part.regs ∈
    pset) (h_outs : Part.outs ∈ pset) (h_intc : Part.intc ∈ pset) (h_sw : Part.sw ∈ pset) (h_bnk : Part.bnk ∈ pset)
    (hk : Keeps pset z0 s) : Keeps pset z0 (Machine.startHandOver s b new) := by
  unfold Machine.startHandOver
  repeat' (first
    | with_reducible first
      | assumption | apply K.setR h_regs | apply K.freeLowCheck h_regs h_outs h_intc | apply K.putBankState h_regs
    | intro _ _ | dsimp only | simp only [Keeps.lit_sw_bnk h_sw h_bnk])

theorem bankCtrl {pset : List Part} {z0 : State} {b : Nat} {v : Word} {s : State} (h_regs : Part.regs ∈ pset)
    (h_mem : Part.mem ∈ pset) (h_outs : Part.outs ∈ pset) (h_intc : Part.intc ∈ pset) (h_sw : Part.sw ∈ pset) (h_bnk :
    Part.bnk ∈ pset) (hk : Keeps pset z0 s) : Keeps pset z0 (Machine.bankCtrl b v s) := by
  unfold Machine.bankCtrl
  repeat' (first
    | with_reducible first
      | assumption | apply K.setR h_regs | apply K.raiseIrq h_regs h_outs h_intc
      | apply K.freeLowCheck h_regs h_outs h_intc | apply K.putBankState h_regs
      | apply K.applyBankPwr h_regs h_mem h_bnk | apply K.startHandOver h_regs h_outs h_intc h_sw h_bnk
      | refine Keeps.ite (fun _ => ?_) (fun _ => ?_)
    | dsimp only | split | simp only [Keeps.lit_sw h_sw] | simp only [Keeps.lit_bnk h_bnk])

theorem drainDone {pset : List Part} {z0 : State} {b : Nat} {s : State} (h_regs : Part.regs ∈ pset) (h_mem :
    Part.mem ∈ pset) (h_outs : Part.outs ∈ pset) (h_intc : Part.intc ∈ pset) (h_sw : Part.sw ∈ pset) (h_bnk : Part.bnk
    ∈ pset) (hk : Keeps pset z0 s) : Keeps pset z0 (Machine.drainDone b s) := by
  unfold Machine.drainDone
  repeat' (first
    | with_reducible first
      | assumption | apply K.putBankState h_regs | apply K.bankStable h_regs h_mem h_outs h_intc h_sw h_bnk
      | refine Keeps.ite (fun _ => ?_) (fun _ => ?_)
    | split)

theorem zeroingDone {pset : List Part} {z0 : State} {b : Nat} {s : State} (h_regs : Part.regs ∈ pset) (h_mem :
    Part.mem ∈ pset) (h_outs : Part.outs ∈ pset) (h_intc : Part.intc ∈ pset) (h_sw : Part.sw ∈ pset) (h_bnk : Part.bnk
    ∈ pset) (hk : Keeps pset z0 s) : Keeps pset z0 (Machine.zeroingDone b s) := by
  unfold Machine.zeroingDone
  repeat' (first
    | with_reducible first
      | assumption | apply K.zeroBank h_mem h_bnk | apply K.putBankState h_regs | apply K.putBankPwr h_regs
      | apply K.applyBankPwr h_regs h_mem h_bnk | apply K.bankStable h_regs h_mem h_outs h_intc h_sw h_bnk
      | refine Keeps.ite (fun _ => ?_) (fun _ => ?_)
    | dsimp only | split)

theorem bankWakeDone {pset : List Part} {z0 : State} {b : Nat} {s : State} (h_regs : Part.regs ∈ pset) (h_mem :
    Part.mem ∈ pset) (h_bnk : Part.bnk ∈ pset) (hk : Keeps pset z0 s) : Keeps pset z0 (Machine.bankWakeDone b s) := by
  unfold Machine.bankWakeDone
  repeat' (first
    | with_reducible first
      | assumption | apply K.putBankState h_regs | apply K.putBankPwr h_regs | apply K.applyBankPwr h_regs h_mem h_bnk
      | refine Keeps.ite (fun _ => ?_) (fun _ => ?_)
    | split)

theorem bankPower {pset : List Part} {z0 : State} {b : Nat} {p : Nat} {s : State} (h_regs : Part.regs ∈ pset)
    (h_mem : Part.mem ∈ pset) (h_outs : Part.outs ∈ pset) (h_intc : Part.intc ∈ pset) (h_sw : Part.sw ∈ pset) (h_bnk :
    Part.bnk ∈ pset) (hk : Keeps pset z0 s) : Keeps pset z0 (Machine.bankPower b p s) := by
  unfold Machine.bankPower
  repeat' (first
    | with_reducible first
      | assumption | apply K.bankCtrl h_regs h_mem h_outs h_intc h_sw h_bnk)

theorem substitute {pset : List Part} {z0 : State} {s : State} {b : Nat} {p : Nat} (h_regs : Part.regs ∈ pset)
    (h_mem : Part.mem ∈ pset) (h_bnk : Part.bnk ∈ pset) (hk : Keeps pset z0 s) : Keeps pset z0 (Machine.substitute s b
    p) := by
  unfold Machine.substitute
  repeat' (first
    | with_reducible first
      | assumption | apply K.putF h_regs | apply K.putB h_regs | apply K.zeroBank h_mem h_bnk
    | dsimp only)

theorem healthBank {pset : List Part} {z0 : State} {s : State} {b : Nat} {p : Nat} (h_regs : Part.regs ∈ pset)
    (h_outs : Part.outs ∈ pset) (h_intc : Part.intc ∈ pset) (h_vlt : Part.vlt ∈ pset) (hk : Keeps pset z0 s) : Keeps
    pset z0 (Machine.healthBank s b p) := by
  unfold Machine.healthBank
  repeat' (first
    | with_reducible first
      | assumption | apply K.putF h_regs | apply K.healthPut h_regs h_outs h_intc h_vlt
    | intro _ _ | dsimp only)

theorem bnkCmdEnd {pset : List Part} {z0 : State} {s : State} {st : Nat} (h_regs : Part.regs ∈ pset) (h_outs :
    Part.outs ∈ pset) (h_intc : Part.intc ∈ pset) (hk : Keeps pset z0 s) : Keeps pset z0 (Machine.bnkCmdEnd s st) :=
    by
  unfold Machine.bnkCmdEnd
  repeat' (first
    | with_reducible first
      | assumption | apply K.setR h_regs | apply K.raiseIrq h_regs h_outs h_intc)

theorem bnkCmd {pset : List Part} {z0 : State} {v : Word} {s : State} (h_regs : Part.regs ∈ pset) (h_mem :
    Part.mem ∈ pset) (h_outs : Part.outs ∈ pset) (h_intc : Part.intc ∈ pset) (h_vlt : Part.vlt ∈ pset) (h_bnk :
    Part.bnk ∈ pset) (hk : Keeps pset z0 s) : Keeps pset z0 (Machine.bnkCmd v s) := by
  unfold Machine.bnkCmd
  repeat' (first
    | with_reducible first
      | assumption | apply K.substitute h_regs h_mem h_bnk | apply K.healthBank h_regs h_outs h_intc h_vlt
      | apply K.bnkCmdEnd h_regs h_outs h_intc | refine Keeps.ite (fun _ => ?_) (fun _ => ?_)
    | dsimp only | split)

theorem markSuspect {pset : List Part} {z0 : State} {s : State} {b : Nat} (h_regs : Part.regs ∈ pset) (h_outs :
    Part.outs ∈ pset) (h_intc : Part.intc ∈ pset) (h_vlt : Part.vlt ∈ pset) (hk : Keeps pset z0 s) : Keeps pset z0
    (Machine.markSuspect s b) := by
  unfold Machine.markSuspect
  repeat' (first
    | with_reducible first
      | assumption | apply K.putB h_regs | apply K.raiseIrq h_regs h_outs h_intc
      | apply K.healthPut h_regs h_outs h_intc h_vlt | refine Keeps.ite (fun _ => ?_) (fun _ => ?_)
    | intro _ _ | dsimp only | split)

theorem eccCorrect {pset : List Part} {z0 : State} {s : State} {b : Nat} {h : Nat} (h_regs : Part.regs ∈ pset)
    (h_cnts : Part.cnts ∈ pset) (h_outs : Part.outs ∈ pset) (h_intc : Part.intc ∈ pset) (h_vlt : Part.vlt ∈ pset)
    (h_bnk : Part.bnk ∈ pset) (hk : Keeps pset z0 s) : Keeps pset z0 (Machine.eccCorrect s b h) := by
  unfold Machine.eccCorrect
  repeat' (first
    | with_reducible first
      | assumption | apply K.bump h_cnts | apply K.raiseIrq h_regs h_outs h_intc
      | apply K.markSuspect h_regs h_outs h_intc h_vlt | refine Keeps.ite (fun _ => ?_) (fun _ => ?_)
    | dsimp only | split | simp only [Keeps.lit_bnk h_bnk])

theorem eccPoison {pset : List Part} {z0 : State} {s : State} {b : Nat} {h : Nat} {reader : Master} (h_regs :
    Part.regs ∈ pset) (h_cnts : Part.cnts ∈ pset) (h_outs : Part.outs ∈ pset) (h_intc : Part.intc ∈ pset) (h_vlt :
    Part.vlt ∈ pset) (h_bnk : Part.bnk ∈ pset) (hk : Keeps pset z0 s) : Keeps pset z0 (Machine.eccPoison s b h reader)
    := by
  unfold Machine.eccPoison
  repeat' (first
    | with_reducible first
      | assumption | apply K.setR h_regs | apply K.bump h_cnts | apply K.raiseIrq h_regs h_outs h_intc
      | apply K.markSuspect h_regs h_outs h_intc h_vlt | refine Keeps.ite (fun _ => ?_) (fun _ => ?_)
    | dsimp only | split | simp only [Keeps.lit_bnk h_bnk])

theorem eccHalf {pset : List Part} {z0 : State} {s : State} {b : Nat} {h : Nat} {reader : Master} {k : EccKind}
    (h_regs : Part.regs ∈ pset) (h_cnts : Part.cnts ∈ pset) (h_outs : Part.outs ∈ pset) (h_intc : Part.intc ∈ pset)
    (h_vlt : Part.vlt ∈ pset) (h_bnk : Part.bnk ∈ pset) (hk : Keeps pset z0 s) : Keeps pset z0 (Machine.eccHalf s b h
    reader k) := by
  unfold Machine.eccHalf
  repeat' (first
    | with_reducible first
      | assumption | apply K.eccCorrect h_regs h_cnts h_outs h_intc h_vlt h_bnk
      | apply K.eccPoison h_regs h_cnts h_outs h_intc h_vlt h_bnk
    | dsimp only | split)

theorem scrubPace {pset : List Part} {z0 : State} {s : State} (h_regs : Part.regs ∈ pset) (h_outs : Part.outs ∈
    pset) (h_intc : Part.intc ∈ pset) (hk : Keeps pset z0 s) : Keeps pset z0 (Machine.scrubPace s) := by
  unfold Machine.scrubPace
  repeat' (first
    | with_reducible first
      | assumption | apply K.putB h_regs | apply K.raiseIrq h_regs h_outs h_intc
      | refine Keeps.ite (fun _ => ?_) (fun _ => ?_)
    | dsimp only | split)

theorem scrubStep {pset : List Part} {z0 : State} {b : Nat} {row : Nat} {lo : EccKind} {hi : EccKind} {s : State}
    (h_regs : Part.regs ∈ pset) (h_cnts : Part.cnts ∈ pset) (h_outs : Part.outs ∈ pset) (h_intc : Part.intc ∈ pset)
    (h_vlt : Part.vlt ∈ pset) (h_bnk : Part.bnk ∈ pset) (hk : Keeps pset z0 s) : Keeps pset z0 (Machine.scrubStep b
    row lo hi s) := by
  unfold Machine.scrubStep
  repeat' (first
    | with_reducible first
      | assumption | apply K.setR h_regs | apply K.bump h_cnts | apply K.raiseIrq h_regs h_outs h_intc
      | apply K.eccHalf h_regs h_cnts h_outs h_intc h_vlt h_bnk | apply K.scrubPace h_regs h_outs h_intc
      | refine Keeps.ite (fun _ => ?_) (fun _ => ?_)
    | dsimp only | split | simp only [Keeps.lit_bnk h_bnk])

theorem writebackStep {pset : List Part} {z0 : State} {s : State} (h_bnk : Part.bnk ∈ pset) (hk : Keeps pset z0 s)
    : Keeps pset z0 (Machine.writebackStep s) := by
  unfold Machine.writebackStep
  repeat' (first
    | with_reducible first
      | assumption
    | dsimp only | simp only [Keeps.lit_bnk h_bnk])

theorem pendAsync {pset : List Part} {z0 : State} {s : State} {m : Master} {a : Nat} (h_cores : Part.cores ∈ pset)
    (hk : Keeps pset z0 s) : Keeps pset z0 (Machine.pendAsync s m a) := by
  unfold Machine.pendAsync
  repeat' (first
    | with_reducible first
      | assumption | refine Keeps.ite (fun _ => ?_) (fun _ => ?_)
    | intro _ _ | dsimp only | split | simp only [Keeps.lit_cores h_cores])

end Sys2Proof.Laws.K
end

