-- ==== Sys2Proof/Laws/Banks.lean ====
section
/-! SUPPORT. What bank control leaves: a fixed bank's owner, a zeroed bank's bytes, a bank in RETAIN, the scrubber's
flag. -/

namespace Sys2Proof.Laws

open Sys2Proof Sys2Proof.Machine Sys2Proof.Machine.Reg

variable {s : State} {b : Nat} {v : Word}

theorem ctrl_ne_status {c : Nat} (hb : b < 512) (hc : c < 512) : BNK_BANK_CTRL c ≠ BNK_BANK_STATUS b := by
  unfold BNK_BANK_CTRL BNK_BANK_STATUS
  omega

theorem getR_zeroedBank (a : Nat) : getR (zeroBank s b) a = getR s a := rfl

theorem ctrl_applyBankPwr (hb : b < 512) : getR (applyBankPwr s b) (BNK_BANK_CTRL b) = getR s (BNK_BANK_CTRL b) := by
  have h : ∀ (t : State) (hi lo x : Nat), getR (putF t (BNK_BANK_STATUS b) hi lo x) (BNK_BANK_CTRL b) = getR t (BNK_BANK_CTRL b) :=
    fun t hi lo x => getR_putF_ne (ctrl_ne_status hb hb)
  unfold applyBankPwr putBankState putBankPwr
  dsimp only
  repeat' split
  all_goals first | rfl | exact h _ _ _ _ | (rw [getR_zeroedBank]; exact h _ _ _ _)

theorem sw_applyBankPwr : (applyBankPwr s b).sw = s.sw := by
  unfold applyBankPwr
  dsimp only
  repeat' split
  all_goals rfl

theorem fixed_bank (hb : 496 ≤ b) (hs : bankState s b = 0) (h512 : b < 512) :
    let t := answer (bankCtrl b v s) 0
    getF t (BNK_BANK_CTRL b) 27 24 = getF s (BNK_BANK_CTRL b) 27 24 ∧
      getF t (BNK_BANK_CTRL b) 21 16 = getF s (BNK_BANK_CTRL b) 21 16 ∧ t.sw = s.sw := by
  unfold bankCtrl
  simp only [hb, hs, decide_true, Bool.or_true, Bool.true_or, if_true, ne_eq, not_true_eq_false, decide_false, Bool.or_self,
    Bool.false_eq_true, if_false]
  refine ⟨?_, ?_, sw_applyBankPwr⟩
  · show fld (getR (applyBankPwr _ b) (BNK_BANK_CTRL b)) 27 24 = _
    rw [ctrl_applyBankPwr h512, getR_setR_same, fld_setFld_ne (by decide) (by decide), fld_setFld_same (by decide)]
    exact Nat.mod_eq_of_lt (fld_lt _ 27 24)
  · show fld (getR (applyBankPwr _ b) (BNK_BANK_CTRL b)) 21 16 = _
    rw [ctrl_applyBankPwr h512, getR_setR_same, fld_setFld_same (by decide)]
    exact Nat.mod_eq_of_lt (fld_lt _ 21 16)

theorem read_sclear {m : List Host.Cell} {lo hi a : Nat} (h1 : lo ≤ a) (h2 : a < hi) :
    memRead (sclear m lo hi fun _ => true) a = 0 := by
  unfold memRead
  unfold sget
  rw [find_sclear_gone h1 h2 rfl]
  rfl

theorem mem_applyBankPwr :
    (applyBankPwr s b).mem = s.mem ∨ (applyBankPwr s b).mem = sclear s.mem (bankLo b) (bankLo (b + 1)) fun _ => true := by
  unfold applyBankPwr
  dsimp only
  repeat' split
  all_goals first | exact .inl rfl | exact .inr rfl

theorem zeroed_reads {a : Nat} (hs : bankState s b = 2) (h1 : bankLo b ≤ a) (h2 : a < bankLo (b + 1)) :
    memRead (zeroingDone b s).mem a = 0 := by
  have h0 : memRead (zeroBank s b).mem a = 0 := read_sclear h1 h2
  unfold zeroingDone
  rw [if_pos hs]
  dsimp only
  split
  · generalize zeroBank s b = u at h0
    have hk : ∀ x : State, (Machine.freeLowCheck x).mem = x.mem := fun x =>
      (Keeps.only (m := [.regs, .outs, .intc]) (K.freeLowCheck (by decide) (by decide) (by decide) (Keeps.refl _ _))).2 .mem (by decide)
    have hr : ∀ x : State, (raiseIrq x BNK 0).mem = x.mem := fun x =>
      (Keeps.only (m := [.regs, .outs, .intc]) (K.raiseIrq (by decide) (by decide) (by decide) (Keeps.refl _ _))).2 .mem (by decide)
    unfold bankStable
    dsimp only
    rw [hk]
    split
    all_goals
      rcases mem_applyBankPwr (s := raiseIrq _ BNK 0) (b := b) with h | h
      · rw [h, hr]; exact h0
      · rw [h]; exact read_sclear h1 h2
  · rcases mem_applyBankPwr (s := putBankPwr (putBankState (zeroBank s b) b 0) b 0) (b := b) with h | h
    · rw [h]; exact h0
    · rw [h]; exact read_sclear h1 h2

theorem power_retain (hb : b < 496) (hs : bankState s b = 0) (hp : bankPwr s b = 0) (hk : bankKind s b ≠ kSwitch)
    (h7 : getF s (BNK_BANK_CTRL b) 27 24 < 7) :
    let t := answer (bankPower b 1 s) 0
    bankPwr t b = 1 ∧ bankState t b = 0 ∧ Only [.regs, .resp] s t := by
  have e1 : fld (setFld (getR s (BNK_BANK_CTRL b)) 9 8 1) 27 24 = fld (getR s (BNK_BANK_CTRL b)) 27 24 :=
    fld_setFld_ne (by decide) (by decide)
  have e2 : fld (setFld (getR s (BNK_BANK_CTRL b)) 9 8 1) 21 16 = fld (getR s (BNK_BANK_CTRL b)) 21 16 :=
    fld_setFld_ne (by decide) (by decide)
  have e3 : fld (setFld (getR s (BNK_BANK_CTRL b)) 9 8 1) 9 8 = 1 :=
    (fld_setFld_same (by decide)).trans (by decide)
  have h7 : fld (getR s (BNK_BANK_CTRL b)) 27 24 < 7 := h7
  have d1 : decide (7 ≤ fld (getR s (BNK_BANK_CTRL b)) 27 24) = false := decide_eq_false (by omega)
  have d3 : decide (bankKind s b = kSwitch) = false := decide_eq_false hk
  have d4 : decide (fld (getR s (BNK_BANK_CTRL b)) 27 24 = kSwitch) = false := d3
  have n1 : ¬(496 ≤ b) := by omega
  have hne : BNK_BANK_STATUS b ≠ BNK_BANK_CTRL b := fun h => ctrl_ne_status (b := b) (c := b) (by omega) (by omega) h.symm
  unfold bankPower bankCtrl
  simp only [e1, e2, e3, d1, d3, d4, n1, hs, Nat.reduceEqDiff, decide_false, Bool.or_self, Bool.and_false, Bool.false_and,
    Bool.false_eq_true, if_false, if_true, ne_eq, not_true_eq_false]
  unfold applyBankPwr
  generalize hw : setR s (BNK_BANK_CTRL b) _ = u
  have w1 : getF u (BNK_BANK_CTRL b) 9 8 = 1 := by
    rw [← hw]
    unfold getF
    rw [getR_setR_same]
    simp (disch := decide) only [fld_setFld_ne, fld_setFld_same]
    all_goals rfl
  have w5 : bankKind u b ≠ kSwitch := by
    rw [← hw]
    unfold bankKind ctrlKind
    rw [getR_setR_same, fld_setFld_ne (by decide) (by decide), fld_setFld_same (by decide),
      Nat.mod_eq_of_lt (fld_lt _ 27 24)]
    exact hk
  have w2 : getR u (BNK_BANK_STATUS b) = getR s (BNK_BANK_STATUS b) := by rw [← hw, getR_setR_ne hne]
  have w3 : bankPwr u b = 0 := by unfold bankPwr getF; rw [w2]; exact hp
  have w4 : bankState u b = 0 := by unfold bankState getF; rw [w2]; exact hs
  simp only [w1, w3, w5, Nat.one_ne_zero, if_false, if_true]
  refine ⟨?_, ?_, ?_⟩
  · show fld (getR (putF u (BNK_BANK_STATUS b) 29 28 1) (BNK_BANK_STATUS b)) 29 28 = 1
    rw [getR_putF_same, fld_setFld_same (by decide)]
    all_goals rfl
  · show fld (getR (putF u (BNK_BANK_STATUS b) 29 28 1) (BNK_BANK_STATUS b)) 31 30 = 0
    rw [getR_putF_same, fld_setFld_ne (by decide) (by decide)]
    exact w4
  · refine Keeps.only ?_
    rw [← hw]
    repeat' (first | exact Keeps.refl _ _ | apply K.answer | apply K.putBankPwr | apply K.setR | decide)

/-- `STATUS.SCRUB_BEHIND` follows the scrubber's lag. -/
theorem scrubPace_behind (s : State) : getB (scrubPace s) BNK_STATUS 31 = decide (64 < scrubLag s) := by
  have h : getB (putB s BNK_STATUS 31 (scrubBehind s)) BNK_STATUS 31 = decide (64 < scrubLag s) := by
    unfold getB
    rw [getR_putB_same]
    exact bit_setBit_same (by decide)
  unfold scrubPace
  dsimp only
  split
  · unfold getB at h ⊢
    rw [Plain.raiseIrq (by decide) (by decide)]
    exact h
  · exact h

end Sys2Proof.Laws
end

