-- ==== Sys2Proof/Laws/KeepsTime.lean ====
section
/-! SUPPORT. What the operations of `Machine/Time.lean` keep. -/

namespace Sys2Proof.Laws.K

open Sys2Proof Sys2Proof.Machine Sys2Proof.Laws

theorem tbSet {pset : List Part} {z0 : State} {s : State} {b : Nat} {t : TbSt} (h_time : Part.time ∈ pset) (hk :
    Keeps pset z0 s) : Keeps pset z0 (Machine.tbSet s b t) := by
  unfold Machine.tbSet
  repeat' (first
    | with_reducible first
      | assumption
    | dsimp only | simp only [Keeps.lit_time h_time])

theorem countCluster {pset : List Part} {z0 : State} {ns : Nat} {s : State} {c : Nat} (h_cnts : Part.cnts ∈ pset)
    (h_pwr : Part.pwr ∈ pset) (hk : Keeps pset z0 s) : Keeps pset z0 (Machine.countCluster ns s c) := by
  unfold Machine.countCluster
  repeat' (first
    | with_reducible first
      | assumption | apply K.bumpN h_cnts | refine Keeps.ite (fun _ => ?_) (fun _ => ?_)
    | dsimp only | split | simp only [Keeps.lit_pwr h_pwr])

theorem advanceAon {pset : List Part} {z0 : State} {s : State} {ns : Nat} (h_cnts : Part.cnts ∈ pset) (h_sys :
    Part.sys ∈ pset) (h_time : Part.time ∈ pset) (h_pwr : Part.pwr ∈ pset) (hk : Keeps pset z0 s) : Keeps pset z0
    (Machine.advanceAon s ns) := by
  unfold Machine.advanceAon
  repeat' (first
    | with_reducible first
      | assumption | apply K.bumpN h_cnts | apply K.countCluster h_cnts h_pwr
      | refine Keeps.ite (fun _ => ?_) (fun _ => ?_) | refine Keeps.foldl (fun _ _ _ => ?_) ?_
      | refine Keeps.foldlFst (fun _ _ _ => ?_) ?_
    | dsimp only | split | simp only [Keeps.lit_sys_time h_sys h_time])

theorem advanceCycles {pset : List Part} {z0 : State} {s : State} {k : Nat} (h_cnts : Part.cnts ∈ pset) (h_sys :
    Part.sys ∈ pset) (h_time : Part.time ∈ pset) (h_pwr : Part.pwr ∈ pset) (hk : Keeps pset z0 s) : Keeps pset z0
    (Machine.advanceCycles s k) := by
  unfold Machine.advanceCycles
  repeat' (first
    | with_reducible first
      | assumption | apply K.advanceAon h_cnts h_sys h_time h_pwr | refine Keeps.ite (fun _ => ?_) (fun _ => ?_)
      | refine Keeps.foldl (fun _ _ _ => ?_) ?_
    | intro _ _ | dsimp only | split | simp only [Keeps.lit_time h_time])

theorem idleTick {pset : List Part} {z0 : State} {s : State} (h_cnts : Part.cnts ∈ pset) (h_sys : Part.sys ∈ pset)
    (h_time : Part.time ∈ pset) (h_pwr : Part.pwr ∈ pset) (hk : Keeps pset z0 s) : Keeps pset z0 (Machine.idleTick s)
    := by
  unfold Machine.idleTick
  repeat' (first
    | with_reducible first
      | assumption | apply K.advanceCycles h_cnts h_sys h_time h_pwr)

theorem advanceNs {pset : List Part} {z0 : State} {s : State} {ns : Nat} (h_cnts : Part.cnts ∈ pset) (h_sys :
    Part.sys ∈ pset) (h_time : Part.time ∈ pset) (h_pwr : Part.pwr ∈ pset) (hk : Keeps pset z0 s) : Keeps pset z0
    (Machine.advanceNs s ns) := by
  unfold Machine.advanceNs
  repeat' (first
    | with_reducible first
      | assumption | apply K.advanceCycles h_cnts h_sys h_time h_pwr | refine Keeps.ite (fun _ => ?_) (fun _ => ?_)
    | split)

theorem advanceCopy {pset : List Part} {z0 : State} {s : State} {e : Nat} (h_cnts : Part.cnts ∈ pset) (h_sys :
    Part.sys ∈ pset) (h_time : Part.time ∈ pset) (h_pwr : Part.pwr ∈ pset) (hk : Keeps pset z0 s) : Keeps pset z0
    (Machine.advanceCopy s e) := by
  unfold Machine.advanceCopy
  repeat' (first
    | with_reducible first
      | assumption | apply K.advanceCycles h_cnts h_sys h_time h_pwr | refine Keeps.ite (fun _ => ?_) (fun _ => ?_)
    | dsimp only | split | simp only [Keeps.lit_time h_time])

theorem advanceCore {pset : List Part} {z0 : State} {s : State} {k : Nat} {t : Nat} (h_cnts : Part.cnts ∈ pset)
    (h_sys : Part.sys ∈ pset) (h_time : Part.time ∈ pset) (h_pwr : Part.pwr ∈ pset) (hk : Keeps pset z0 s) : Keeps
    pset z0 (Machine.advanceCore s k t) := by
  unfold Machine.advanceCore
  repeat' (first
    | with_reducible first
      | assumption | apply K.advanceCopy h_cnts h_sys h_time h_pwr | refine Keeps.ite (fun _ => ?_) (fun _ => ?_)
    | split)

theorem advanceHalf {pset : List Part} {z0 : State} {s : State} {h : Nat} (h_cnts : Part.cnts ∈ pset) (h_sys :
    Part.sys ∈ pset) (h_time : Part.time ∈ pset) (h_pwr : Part.pwr ∈ pset) (hk : Keeps pset z0 s) : Keeps pset z0
    (Machine.advanceHalf s h) := by
  unfold Machine.advanceHalf
  repeat' (first
    | with_reducible first
      | assumption | apply K.advanceNs h_cnts h_sys h_time h_pwr)

theorem advanceTb {pset : List Part} {z0 : State} {s : State} {b : Nat} {ns : Nat} (h_cnts : Part.cnts ∈ pset)
    (h_sys : Part.sys ∈ pset) (h_time : Part.time ∈ pset) (h_pwr : Part.pwr ∈ pset) (hk : Keeps pset z0 s) : Keeps
    pset z0 (Machine.advanceTb s b ns) := by
  unfold Machine.advanceTb
  repeat' (first
    | with_reducible first
      | assumption | apply K.advanceCycles h_cnts h_sys h_time h_pwr)

theorem validMoved {pset : List Part} {z0 : State} {s : State} {b : Nat} (h_regs : Part.regs ∈ pset) (h_outs :
    Part.outs ∈ pset) (h_intc : Part.intc ∈ pset) (h_vlt : Part.vlt ∈ pset) (hk : Keeps pset z0 s) : Keeps pset z0
    (Machine.validMoved s b) := by
  unfold Machine.validMoved
  repeat' (first
    | with_reducible first
      | assumption | apply K.raiseIrq h_regs h_outs h_intc | refine Keeps.ite (fun _ => ?_) (fun _ => ?_)
    | dsimp only | split | simp only [Keeps.lit_vlt h_vlt])

theorem putValid {pset : List Part} {z0 : State} {s : State} {b : Nat} {v : Bool} (h_regs : Part.regs ∈ pset)
    (h_outs : Part.outs ∈ pset) (h_intc : Part.intc ∈ pset) (h_vlt : Part.vlt ∈ pset) (hk : Keeps pset z0 s) : Keeps
    pset z0 (Machine.putValid s b v) := by
  unfold Machine.putValid
  repeat' (first
    | with_reducible first
      | assumption | apply K.putB h_regs | apply K.validMoved h_regs h_outs h_intc h_vlt
      | refine Keeps.ite (fun _ => ?_) (fun _ => ?_)
    | split)

theorem servoUpdate {pset : List Part} {z0 : State} {s : State} {b : Nat} (h_time : Part.time ∈ pset) (hk : Keeps
    pset z0 s) : Keeps pset z0 (Machine.servoUpdate s b) := by
  unfold Machine.servoUpdate
  repeat' (first
    | with_reducible first
      | assumption | apply K.tbSet h_time
    | dsimp only)

end Sys2Proof.Laws.K
end

