-- ==== Sys2Proof/Laws/KeepsPlace.lean ====
section
/-! SUPPORT. What the operations of `Machine/Place.lean` keep. -/

namespace Sys2Proof.Laws.K

open Sys2Proof Sys2Proof.Machine Sys2Proof.Laws

theorem engMod {pset : List Part} {z0 : State} {s : State} {n : Nat} {f : EngSt → EngSt} (h_eng : Part.eng ∈ pset)
    (hk : Keeps pset z0 s) : Keeps pset z0 (Machine.engMod s n f) := by
  unfold Machine.engMod
  repeat' (first
    | with_reducible first
      | assumption
    | dsimp only | simp only [Keeps.lit_eng h_eng])

theorem qhSet {pset : List Part} {z0 : State} {s : State} {n : Nat} {k : Nat} {q : QhSlot} (h_eng : Part.eng ∈
    pset) (hk : Keeps pset z0 s) : Keeps pset z0 (Machine.qhSet s n k q) := by
  unfold Machine.qhSet
  repeat' (first
    | with_reducible first
      | assumption | apply K.engMod h_eng
    | intro _ _ | dsimp only)

theorem slotEvent {pset : List Part} {z0 : State} {s : State} {c : Nat} (h_regs : Part.regs ∈ pset) (hk : Keeps
    pset z0 s) : Keeps pset z0 (Machine.slotEvent s c) := by
  unfold Machine.slotEvent
  repeat' (first
    | with_reducible first
      | assumption | apply K.raiseEvent h_regs
    | dsimp only | split)

theorem serveEvent {pset : List Part} {z0 : State} {s : State} {c : Nat} {l : Nat} (h_regs : Part.regs ∈ pset) (hk
    : Keeps pset z0 s) : Keeps pset z0 (Machine.serveEvent s c l) := by
  unfold Machine.serveEvent
  repeat' (first
    | with_reducible first
      | assumption | apply K.raiseEvent h_regs)

theorem tcmWrite {pset : List Part} {z0 : State} {s : State} {n : Nat} {a : Nat} {l : List Byte} (h_mem : Part.mem
    ∈ pset) (hk : Keeps pset z0 s) : Keeps pset z0 (Machine.tcmWrite s n a l) := by
  unfold Machine.tcmWrite
  repeat' (first
    | with_reducible first
      | assumption
    | dsimp only | split | refine Keeps.put h_mem ?_)

end Sys2Proof.Laws.K
end

