-- ==== Sys2Proof/Laws/KeepsSwitch.lean ====
section
/-! SUPPORT. What the operations of `Machine/Switch.lean` keep. -/

namespace Sys2Proof.Laws.K

open Sys2Proof Sys2Proof.Machine Sys2Proof.Laws

theorem cellPut {pset : List Part} {z0 : State} {s : State} {a : Nat} {b : List Byte} (h_mem : Part.mem ∈ pset)
    (h_bnk : Part.bnk ∈ pset) (hk : Keeps pset z0 s) : Keeps pset z0 (Machine.cellPut s a b) := by
  unfold Machine.cellPut
  repeat' (first
    | with_reducible first
      | assumption | apply K.wrBytes h_mem | apply K.coverHalves h_bnk)

theorem descPut {pset : List Part} {z0 : State} {s : State} {d : Desc} (h_mem : Part.mem ∈ pset) (h_bnk : Part.bnk
    ∈ pset) (hk : Keeps pset z0 s) : Keeps pset z0 (Machine.descPut s d) := by
  unfold Machine.descPut
  repeat' (first
    | with_reducible first
      | assumption | apply K.cellPut h_mem h_bnk)

theorem framePut {pset : List Part} {z0 : State} {s : State} {l : List (Nat × Nat)} {b : List Byte} (h_mem :
    Part.mem ∈ pset) (h_bnk : Part.bnk ∈ pset) (hk : Keeps pset z0 s) : Keeps pset z0 (Machine.framePut s l b) := by
  induction l generalizing s b with
  | nil =>
    unfold Machine.framePut
    repeat' (first
      | with_reducible first
        | assumption | apply K.cellPut h_mem h_bnk
      | dsimp only | split)
  | cons _ _ ih =>
    unfold Machine.framePut
    repeat' (first
      | with_reducible first
        | assumption | apply ih | apply K.cellPut h_mem h_bnk
      | dsimp only | split)

theorem linkCells {pset : List Part} {z0 : State} {s : State} {cells : List Nat} {refs : Nat} (h_sw : Part.sw ∈ pset)
    (hk : Keeps pset z0 s) : Keeps pset z0 (Machine.linkCells s cells refs) := by
  induction cells generalizing s with
  | nil => exact hk
  | cons c t ih =>
    cases t with
    | nil => simp only [Machine.linkCells]; simp only [Keeps.lit_sw h_sw]; exact hk
    | cons d r => simp only [Machine.linkCells]; refine ih ?_; simp only [Keeps.lit_sw h_sw]; exact hk

theorem frameMod {pset : List Part} {z0 : State} {s : State} {fid : Nat} {f : Desc → Desc} (h_mem : Part.mem ∈
    pset) (h_sw : Part.sw ∈ pset) (h_bnk : Part.bnk ∈ pset) (hk : Keeps pset z0 s) : Keeps pset z0 (Machine.frameMod s
    fid f) := by
  unfold Machine.frameMod
  repeat' (first
    | with_reducible first
      | assumption | apply K.descPut h_mem h_bnk
    | dsimp only | split | simp only [Keeps.lit_sw h_sw])

theorem refsPut {pset : List Part} {z0 : State} {s : State} {fid : Nat} {n : Nat} (h_mem : Part.mem ∈ pset) (h_sw
    : Part.sw ∈ pset) (h_bnk : Part.bnk ∈ pset) (hk : Keeps pset z0 s) : Keeps pset z0 (Machine.refsPut s fid n) := by
  unfold Machine.refsPut
  repeat' (first
    | with_reducible first
      | assumption | apply K.descPut h_mem h_bnk
    | dsimp only | split | simp only [Keeps.lit_sw h_sw])

theorem putUsed {pset : List Part} {z0 : State} {s : State} {b : Nat} {n : Nat} (h_regs : Part.regs ∈ pset) (h_sw
    : Part.sw ∈ pset) (hk : Keeps pset z0 s) : Keeps pset z0 (Machine.putUsed s b n) := by
  unfold Machine.putUsed
  repeat' (first
    | with_reducible first
      | assumption | apply K.putF h_regs
    | dsimp only | simp only [Keeps.lit_sw h_sw])

theorem takeCells {pset : List Part} {z0 t0 : State} {x : List Nat} {s : State} {busy : List Nat} {n : Nat}
    {banks : List Nat} (h_regs : Part.regs ∈ pset) (h_sw : Part.sw ∈ pset) (he : Machine.takeCells s busy n banks
        = some (t0, x)) (hk : Keeps pset z0 s) :
    Keeps pset z0 t0 := by
  induction banks generalizing s n x with
  | nil => simp only [Machine.takeCells] at he; split at he <;> cases he; exact hk
  | cons b r ih =>
    simp only [Machine.takeCells] at he
    split at he
    · exact ih he hk
    · simp only [Option.map_eq_some_iff, Prod.mk.injEq] at he
      obtain ⟨p, hp, h1, _⟩ := he
      subst h1
      exact ih hp (K.putUsed h_regs h_sw hk)

theorem allocCells {pset : List Part} {z0 t0 : State} {x : List Nat} {s : State} {n : Nat} (h_regs : Part.regs ∈
    pset) (h_outs : Part.outs ∈ pset) (h_intc : Part.intc ∈ pset) (h_sw : Part.sw ∈ pset)
    (he : Machine.allocCells s n = some (t0, x)) (hk : Keeps pset z0 s) : Keeps pset z0 t0 := by
  unfold Machine.allocCells at he
  simp only [Option.map_eq_some_iff, Prod.mk.injEq] at he
  obtain ⟨p, hp, h1, _⟩ := he
  subst h1
  exact K.freeLowCheck h_regs h_outs h_intc (K.takeCells h_regs h_sw hp hk)

theorem freeCellsOf {pset : List Part} {z0 : State} {s : State} {l : List Nat} (h_regs : Part.regs ∈ pset) (h_outs
    : Part.outs ∈ pset) (h_intc : Part.intc ∈ pset) (h_sw : Part.sw ∈ pset) (hk : Keeps pset z0 s) : Keeps pset z0
    (Machine.freeCellsOf s l) := by
  unfold Machine.freeCellsOf
  repeat' (first
    | with_reducible first
      | assumption | apply K.freeLowCheck h_regs h_outs h_intc | apply K.putUsed h_regs h_sw
      | refine Keeps.foldl (fun _ _ _ => ?_) ?_
    | intro _ _)

theorem unref {pset : List Part} {z0 : State} {s : State} {fid : Nat} (h_regs : Part.regs ∈ pset) (h_mem :
    Part.mem ∈ pset) (h_outs : Part.outs ∈ pset) (h_intc : Part.intc ∈ pset) (h_sw : Part.sw ∈ pset) (h_bnk : Part.bnk
    ∈ pset) (hk : Keeps pset z0 s) : Keeps pset z0 (Machine.unref s fid) := by
  unfold Machine.unref
  repeat' (first
    | with_reducible first
      | assumption | apply K.refsPut h_mem h_sw h_bnk | apply K.freeCellsOf h_regs h_outs h_intc h_sw
      | refine Keeps.ite (fun _ => ?_) (fun _ => ?_)
    | dsimp only | split | simp only [Keeps.lit_sw h_sw])

theorem swRingLevels {pset : List Part} {z0 : State} {s : State} (h_regs : Part.regs ∈ pset) (h_outs : Part.outs ∈
    pset) (h_intc : Part.intc ∈ pset) (hk : Keeps pset z0 s) : Keeps pset z0 (Machine.swRingLevels s) := by
  unfold Machine.swRingLevels
  repeat' (first
    | with_reducible first
      | assumption | apply K.setRaw h_regs h_outs h_intc
    | dsimp only)

theorem dropRecord {pset : List Part} {z0 : State} {s : State} {f : Frame} {eg : Nat} {reason : Nat} {cls : Nat}
    (h_regs : Part.regs ∈ pset) (h_mem : Part.mem ∈ pset) (h_outs : Part.outs ∈ pset) (h_intc : Part.intc ∈ pset)
    (h_bnk : Part.bnk ∈ pset) (hk : Keeps pset z0 s) : Keeps pset z0 (Machine.dropRecord s f eg reason cls) := by
  unfold Machine.dropRecord
  repeat' (first
    | with_reducible first
      | assumption | apply K.putF h_regs | apply K.satInc h_regs | apply K.raiseIrq h_regs h_outs h_intc
      | apply K.fabWrite h_regs h_mem h_outs h_intc h_bnk | apply K.swRingLevels h_regs h_outs h_intc
      | refine Keeps.ite (fun _ => ?_) (fun _ => ?_)
    | dsimp only | split)

theorem countDrop {pset : List Part} {z0 : State} {s : State} {p : Nat} {r : Nat} (h_regs : Part.regs ∈ pset)
    (h_cnts : Part.cnts ∈ pset) (h_outs : Part.outs ∈ pset) (h_intc : Part.intc ∈ pset) (hk : Keeps pset z0 s) : Keeps
    pset z0 (Machine.countDrop s p r) := by
  unfold Machine.countDrop
  repeat' (first
    | with_reducible first
      | assumption | apply K.bump h_cnts | apply K.raiseIrq h_regs h_outs h_intc
    | dsimp only | split)

theorem dropFrame {pset : List Part} {z0 : State} {s : State} {f : Frame} {p : Nat} {r : Nat} {eg : Nat} {cls :
    Nat} (h_regs : Part.regs ∈ pset) (h_cnts : Part.cnts ∈ pset) (h_mem : Part.mem ∈ pset) (h_outs : Part.outs ∈ pset)
    (h_intc : Part.intc ∈ pset) (h_bnk : Part.bnk ∈ pset) (hk : Keeps pset z0 s) : Keeps pset z0 (Machine.dropFrame s
    f p r eg cls) := by
  unfold Machine.dropFrame
  repeat' (first
    | with_reducible first
      | assumption | apply K.dropRecord h_regs h_mem h_outs h_intc h_bnk
      | apply K.countDrop h_regs h_cnts h_outs h_intc | refine Keeps.ite (fun _ => ?_) (fun _ => ?_)
    | dsimp only | split)

theorem dropStored {pset : List Part} {z0 : State} {s : State} {fid : Nat} {p : Nat} {r : Nat} {eg : Nat} {cls :
    Nat} (h_regs : Part.regs ∈ pset) (h_cnts : Part.cnts ∈ pset) (h_mem : Part.mem ∈ pset) (h_outs : Part.outs ∈ pset)
    (h_intc : Part.intc ∈ pset) (h_sw : Part.sw ∈ pset) (h_bnk : Part.bnk ∈ pset) (hk : Keeps pset z0 s) : Keeps pset
    z0 (Machine.dropStored s fid p r eg cls) := by
  unfold Machine.dropStored
  repeat' (first
    | with_reducible first
      | assumption | apply K.frameMod h_mem h_sw h_bnk | apply K.dropFrame h_regs h_cnts h_mem h_outs h_intc h_bnk
    | intro _ _ | dsimp only | split)

theorem fdbPut {pset : List Part} {z0 : State} {s : State} {i : Nat} {e : List Word} (h_sw : Part.sw ∈ pset) (hk :
    Keeps pset z0 s) : Keeps pset z0 (Machine.fdbPut s i e) := by
  unfold Machine.fdbPut
  repeat' (first
    | with_reducible first
      | assumption
    | dsimp only | simp only [Keeps.lit_sw h_sw])

theorem fdbHit {pset : List Part} {z0 : State} {s : State} {i : Nat} (h_sw : Part.sw ∈ pset) (hk : Keeps pset z0
    s) : Keeps pset z0 (Machine.fdbHit s i) := by
  unfold Machine.fdbHit
  repeat' (first
    | with_reducible first
      | assumption | apply K.fdbPut h_sw
    | dsimp only)

theorem commitEpoch {pset : List Part} {z0 : State} {s : State} (h_regs : Part.regs ∈ pset) (hk : Keeps pset z0 s)
    : Keeps pset z0 (Machine.commitEpoch s) := by
  unfold Machine.commitEpoch
  repeat' (first
    | with_reducible first
      | assumption | apply K.setR h_regs
    | dsimp only)

theorem learn {pset : List Part} {z0 : State} {s : State} {p : Nat} {vid : Nat} {mac : Nat} (h_regs : Part.regs ∈
    pset) (h_cnts : Part.cnts ∈ pset) (h_outs : Part.outs ∈ pset) (h_intc : Part.intc ∈ pset) (h_sw : Part.sw ∈ pset)
    (hk : Keeps pset z0 s) : Keeps pset z0 (Machine.learn s p vid mac) := by
  unfold Machine.learn
  repeat' (first
    | with_reducible first
      | assumption | apply K.bump h_cnts | apply K.raiseIrq h_regs h_outs h_intc | apply K.fdbPut h_sw
      | apply K.fdbHit h_sw | apply K.commitEpoch h_regs | refine Keeps.ite (fun _ => ?_) (fun _ => ?_)
    | dsimp only | split)

theorem decideForward {pset : List Part} {z0 : State} {s : State} {a : Arrival} {q : Parsed} {tc : Nat} {rule :
    Option (Nat × Word)} (h_sw : Part.sw ∈ pset) (hk : Keeps pset z0 s) : Keeps pset z0 (Machine.decideForward s a q
    tc rule).1 := by
  unfold Machine.decideForward
  repeat' (first
    | with_reducible first
      | assumption | apply K.fdbHit h_sw | apply K.shape h_sw | refine Keeps.ite (fun _ => ?_) (fun _ => ?_)
      | refine Keeps.iteFst (fun _ => ?_) (fun _ => ?_)
    | dsimp only | split)

theorem openHandle {pset : List Part} {z0 : State} {s : State} (h_free : Part.free ∈ pset) (hk : Keeps pset z0 s)
    : Keeps pset z0 (Machine.openHandle s).1 := by
  unfold Machine.openHandle
  repeat' (first
    | with_reducible first
      | assumption | apply K.fresh h_free
    | dsimp only)

theorem toGate {pset : List Part} {z0 : State} {s : State} {chan : Nat} {tc : Nat} (h_free : Part.free ∈ pset)
    (h_sw : Part.sw ∈ pset) (hk : Keeps pset z0 s) : Keeps pset z0 (Machine.toGate s chan tc).1 := by
  unfold Machine.toGate
  repeat' (first
    | with_reducible first
      | assumption | apply K.openHandle h_free | apply K.shape h_sw
    | dsimp only)

theorem decide7 {pset : List Part} {z0 : State} {s : State} {a : Arrival} {q : Parsed} {key : Nat} (h_free :
    Part.free ∈ pset) (h_sw : Part.sw ∈ pset) (hk : Keeps pset z0 s) : Keeps pset z0 (Machine.decide7 s a q key).1 :=
    by
  unfold Machine.decide7
  repeat' (first
    | with_reducible first
      | assumption | apply K.decideForward h_sw | apply K.openHandle h_free | apply K.toGate h_free h_sw
      | apply K.shape h_sw | refine Keeps.ite (fun _ => ?_) (fun _ => ?_)
      | refine Keeps.iteFst (fun _ => ?_) (fun _ => ?_)
    | dsimp only | split | refine Keeps.ofFst (by with_reducible assumption) ?_
    | refine Keeps.ofSnd (by with_reducible assumption) ?_)

theorem shape {pset : List Part} {z0 : State} {s : State} {p : Nat} {n : Nat} (h_sw : Part.sw ∈ pset) (hk : Keeps
    pset z0 s) : Keeps pset z0 (Machine.shape s p n).1 := by
  unfold Machine.shape
  repeat' (first
    | with_reducible first
      | assumption | refine Keeps.ite (fun _ => ?_) (fun _ => ?_) | refine Keeps.iteFst (fun _ => ?_) (fun _ => ?_)
    | dsimp only | split | simp only [Keeps.lit_sw h_sw])

theorem shapeSettle {pset : List Part} {z0 : State} {s : State} {p : Nat} (h_sw : Part.sw ∈ pset) (hk : Keeps pset
    z0 s) : Keeps pset z0 (Machine.shapeSettle s p) := by
  unfold Machine.shapeSettle
  repeat' (first
    | with_reducible first
      | assumption | refine Keeps.ite (fun _ => ?_) (fun _ => ?_)
    | dsimp only | split | simp only [Keeps.lit_sw h_sw])

theorem shapeSettleAll {pset : List Part} {z0 : State} {s : State} (h_sw : Part.sw ∈ pset) (hk : Keeps pset z0 s)
    : Keeps pset z0 (Machine.shapeSettleAll s) := by
  unfold Machine.shapeSettleAll
  repeat' (first
    | with_reducible first
      | assumption | apply K.shapeSettle h_sw | refine Keeps.foldl (fun _ _ _ => ?_) ?_
      | refine Keeps.foldlFst (fun _ _ _ => ?_) ?_
    | intro _ _ | dsimp only)

theorem admitCopy {pset : List Part} {z0 : State} {s : State} {fid : Nat} {p : Nat} {c : Nat} {pass : Bool}
    (h_regs : Part.regs ∈ pset) (h_cnts : Part.cnts ∈ pset) (h_mem : Part.mem ∈ pset) (h_outs : Part.outs ∈ pset)
    (h_intc : Part.intc ∈ pset) (h_sw : Part.sw ∈ pset) (h_bnk : Part.bnk ∈ pset) (hk : Keeps pset z0 s) : Keeps pset
    z0 (Machine.admitCopy s fid p c pass).1 := by
  unfold Machine.admitCopy
  repeat' (first
    | with_reducible first
      | assumption | apply K.dropStored h_regs h_cnts h_mem h_outs h_intc h_sw h_bnk
      | refine Keeps.ite (fun _ => ?_) (fun _ => ?_) | refine Keeps.iteFst (fun _ => ?_) (fun _ => ?_)
    | dsimp only | split | simp only [Keeps.lit_sw h_sw])

theorem admitAll {pset : List Part} {z0 : State} {s : State} {fid : Nat} {ports : List Nat} {c : Nat} {pass :
    Bool} (h_regs : Part.regs ∈ pset) (h_cnts : Part.cnts ∈ pset) (h_mem : Part.mem ∈ pset) (h_outs : Part.outs ∈
    pset) (h_intc : Part.intc ∈ pset) (h_sw : Part.sw ∈ pset) (h_bnk : Part.bnk ∈ pset) (hk : Keeps pset z0 s) : Keeps
    pset z0 (Machine.admitAll s fid ports c pass).1 := by
  unfold Machine.admitAll
  repeat' (first
    | with_reducible first
      | assumption | apply K.admitCopy h_regs h_cnts h_mem h_outs h_intc h_sw h_bnk
      | refine Keeps.foldl (fun _ _ _ => ?_) ?_ | refine Keeps.foldlFst (fun _ _ _ => ?_) ?_
    | intro _ _ | dsimp only)

theorem sampleDue {pset : List Part} {z0 : State} {s : State} {p : Nat} (h_sw : Part.sw ∈ pset) (hk : Keeps pset
    z0 s) : Keeps pset z0 (Machine.sampleDue s p).1 := by
  unfold Machine.sampleDue
  repeat' (first
    | with_reducible first
      | assumption | refine Keeps.ite (fun _ => ?_) (fun _ => ?_) | refine Keeps.iteFst (fun _ => ?_) (fun _ => ?_)
    | dsimp only | split | simp only [Keeps.lit_sw h_sw])

theorem learnFrom {pset : List Part} {z0 : State} {s : State} {a : Arrival} {q : Parsed} {d : Decision} (h_regs :
    Part.regs ∈ pset) (h_cnts : Part.cnts ∈ pset) (h_outs : Part.outs ∈ pset) (h_intc : Part.intc ∈ pset) (h_sw :
    Part.sw ∈ pset) (hk : Keeps pset z0 s) : Keeps pset z0 (Machine.learnFrom s a q d) := by
  unfold Machine.learnFrom
  repeat' (first
    | with_reducible first
      | assumption | apply K.learn h_regs h_cnts h_outs h_intc h_sw | refine Keeps.ite (fun _ => ?_) (fun _ => ?_)
    | dsimp only | split | refine Keeps.ofFst (by with_reducible assumption) ?_
    | refine Keeps.ofSnd (by with_reducible assumption) ?_)

theorem storeFrame {pset : List Part} {z0 : State} {s : State} {f : Frame} {l : List Nat} (h_mem : Part.mem ∈
    pset) (h_sw : Part.sw ∈ pset) (h_bnk : Part.bnk ∈ pset) (hk : Keeps pset z0 s) : Keeps pset z0 (Machine.storeFrame
    s f l).1 := by
  unfold Machine.storeFrame
  repeat' (first
    | with_reducible first
      | assumption | apply K.descPut h_mem h_bnk | apply K.framePut h_mem h_bnk | apply K.linkCells h_sw
    | dsimp only | simp only [Keeps.lit_sw h_sw])

theorem countCut {pset : List Part} {z0 : State} {s : State} {src : Nat} {d : Decision} (h_regs : Part.regs ∈
    pset) (h_cnts : Part.cnts ∈ pset) (h_outs : Part.outs ∈ pset) (h_intc : Part.intc ∈ pset) (hk : Keeps pset z0 s) :
    Keeps pset z0 (Machine.countCut s src d) := by
  unfold Machine.countCut
  repeat' (first
    | with_reducible first
      | assumption | apply K.countDrop h_regs h_cnts h_outs h_intc | refine Keeps.ite (fun _ => ?_) (fun _ => ?_)
    | split)

theorem dropOrShape {pset : List Part} {z0 : State} {s : State} {fid : Nat} {a : Arrival} {d : Decision} (h_regs :
    Part.regs ∈ pset) (h_cnts : Part.cnts ∈ pset) (h_mem : Part.mem ∈ pset) (h_outs : Part.outs ∈ pset) (h_intc :
    Part.intc ∈ pset) (h_sw : Part.sw ∈ pset) (h_bnk : Part.bnk ∈ pset) (hk : Keeps pset z0 s) : Keeps pset z0
    (Machine.dropOrShape s fid a d).1 := by
  unfold Machine.dropOrShape
  repeat' (first
    | with_reducible first
      | assumption | apply K.dropStored h_regs h_cnts h_mem h_outs h_intc h_sw h_bnk | apply K.shape h_sw
      | refine Keeps.ite (fun _ => ?_) (fun _ => ?_) | refine Keeps.iteFst (fun _ => ?_) (fun _ => ?_)
    | dsimp only | split)

theorem admitEnds {pset : List Part} {z0 : State} {s : State} {fid : Nat} {ports : List Nat} {tc : Nat} {passed :
    Bool} {sampled : Bool} (h_regs : Part.regs ∈ pset) (h_cnts : Part.cnts ∈ pset) (h_mem : Part.mem ∈ pset) (h_outs :
    Part.outs ∈ pset) (h_intc : Part.intc ∈ pset) (h_sw : Part.sw ∈ pset) (h_bnk : Part.bnk ∈ pset) (hk : Keeps pset
    z0 s) : Keeps pset z0 (Machine.admitEnds s fid ports tc passed sampled).1 := by
  unfold Machine.admitEnds
  repeat' (first
    | with_reducible first
      | assumption | apply K.refsPut h_mem h_sw h_bnk | apply K.unref h_regs h_mem h_outs h_intc h_sw h_bnk
      | apply K.admitCopy h_regs h_cnts h_mem h_outs h_intc h_sw h_bnk
      | apply K.admitAll h_regs h_cnts h_mem h_outs h_intc h_sw h_bnk | refine Keeps.ite (fun _ => ?_) (fun _ => ?_)
      | refine Keeps.iteFst (fun _ => ?_) (fun _ => ?_)
    | dsimp only | split)

theorem swStages {pset : List Part} {z0 : State} {s : State} {a : Arrival} {q : Parsed} {flags : Nat} {cells :
    List Nat} (h_regs : Part.regs ∈ pset) (h_cnts : Part.cnts ∈ pset) (h_free : Part.free ∈ pset) (h_mem : Part.mem ∈
    pset) (h_outs : Part.outs ∈ pset) (h_intc : Part.intc ∈ pset) (h_sw : Part.sw ∈ pset) (h_bnk : Part.bnk ∈ pset)
    (hk : Keeps pset z0 s) : Keeps pset z0 (Machine.swStages s a q flags cells).1 := by
  unfold Machine.swStages
  repeat' (first
    | with_reducible first
      | assumption | apply K.decide7 h_free h_sw | apply K.sampleDue h_sw
      | apply K.learnFrom h_regs h_cnts h_outs h_intc h_sw | apply K.storeFrame h_mem h_sw h_bnk
      | apply K.countCut h_regs h_cnts h_outs h_intc
      | apply K.dropOrShape h_regs h_cnts h_mem h_outs h_intc h_sw h_bnk
      | apply K.admitEnds h_regs h_cnts h_mem h_outs h_intc h_sw h_bnk
    | dsimp only)

theorem swIngress {pset : List Part} {z0 : State} {s : State} {a : Arrival} (h_regs : Part.regs ∈ pset) (h_cnts :
    Part.cnts ∈ pset) (h_free : Part.free ∈ pset) (h_mem : Part.mem ∈ pset) (h_outs : Part.outs ∈ pset) (h_intc :
    Part.intc ∈ pset) (h_sw : Part.sw ∈ pset) (h_bnk : Part.bnk ∈ pset) (hk : Keeps pset z0 s) : Keeps pset z0
    (Machine.swIngress s a).1 := by
  unfold Machine.swIngress
  repeat' (first
    | with_reducible first
      | assumption | apply K.dropFrame h_regs h_cnts h_mem h_outs h_intc h_bnk
      | apply K.swStages h_regs h_cnts h_free h_mem h_outs h_intc h_sw h_bnk
      | refine K.allocCells h_regs h_outs h_intc h_sw (by assumption) ?_
      | refine Keeps.ite (fun _ => ?_) (fun _ => ?_) | refine Keeps.iteFst (fun _ => ?_) (fun _ => ?_)
      | refine Keeps.foldl (fun _ _ _ => ?_) ?_ | refine Keeps.foldr (fun _ _ _ => ?_) ?_
      | refine Keeps.foldlFst (fun _ _ _ => ?_) ?_
    | intro _ _ | dsimp only | split | refine Keeps.ofFst (by with_reducible assumption) ?_
    | refine Keeps.ofSnd (by with_reducible assumption) ?_
    | refine Keeps.someIf (by with_reducible assumption) (fun _ => ?_) ?_ | simp only [id_eq])

theorem glistFreeze {pset : List Part} {z0 : State} {s : State} {b : Nat} (h_sw : Part.sw ∈ pset) (hk : Keeps pset
    z0 s) : Keeps pset z0 (Machine.glistFreeze s b) := by
  unfold Machine.glistFreeze
  repeat' (first
    | with_reducible first
      | assumption | refine Keeps.ite (fun _ => ?_) (fun _ => ?_)
    | intro _ _ | dsimp only | split | simp only [Keeps.lit_sw h_sw])

theorem glistRestart {pset : List Part} {z0 : State} {s : State} {b : Nat} (h_sw : Part.sw ∈ pset) (hk : Keeps
    pset z0 s) : Keeps pset z0 (Machine.glistRestart s b) := by
  unfold Machine.glistRestart
  repeat' (first
    | with_reducible first
      | assumption | refine Keeps.ite (fun _ => ?_) (fun _ => ?_)
    | intro _ _ | dsimp only | split | simp only [Keeps.lit_sw h_sw])

theorem gateCtrl {pset : List Part} {z0 : State} {m : Master} {p : Nat} {w : Nat} {v : Word} {s : State} (h_regs :
    Part.regs ∈ pset) (h_outs : Part.outs ∈ pset) (h_intc : Part.intc ∈ pset) (h_sw : Part.sw ∈ pset) (hk : Keeps pset
    z0 s) : Keeps pset z0 (Machine.gateCtrl m p w v s) := by
  unfold Machine.gateCtrl
  repeat' (first
    | with_reducible first
      | assumption | apply K.plainWrite h_regs h_outs h_intc | refine Keeps.ite (fun _ => ?_) (fun _ => ?_)
    | dsimp only | split | simp only [Keeps.lit_sw h_sw])

theorem glistWrite {pset : List Part} {z0 : State} {m : Master} {off : Nat} {v : Word} {s : State} (h_regs :
    Part.regs ∈ pset) (h_outs : Part.outs ∈ pset) (h_intc : Part.intc ∈ pset) (hk : Keeps pset z0 s) : Keeps pset z0
    (Machine.glistWrite m off v s) := by
  unfold Machine.glistWrite
  repeat' (first
    | with_reducible first
      | assumption | apply K.plainWrite h_regs h_outs h_intc | refine Keeps.ite (fun _ => ?_) (fun _ => ?_)
    | dsimp only | split)

theorem tblEnd {pset : List Part} {z0 : State} {s : State} {m : Master} {st : Nat} (h_regs : Part.regs ∈ pset)
    (h_outs : Part.outs ∈ pset) (h_intc : Part.intc ∈ pset) (hk : Keeps pset z0 s) : Keeps pset z0 (Machine.tblEnd s m
    st) := by
  unfold Machine.tblEnd
  repeat' (first
    | with_reducible first
      | assumption | apply K.setR h_regs | apply K.raiseIrq h_regs h_outs h_intc)

theorem tblWriteCmd {pset : List Part} {z0 : State} {m : Master} {v : Word} {s : State} (h_regs : Part.regs ∈
    pset) (h_outs : Part.outs ∈ pset) (h_intc : Part.intc ∈ pset) (h_sw : Part.sw ∈ pset) (hk : Keeps pset z0 s) :
    Keeps pset z0 (Machine.tblWriteCmd m v s) := by
  unfold Machine.tblWriteCmd
  repeat' (first
    | with_reducible first
      | assumption | apply K.commitEpoch h_regs | apply K.tblEnd h_regs h_outs h_intc
      | refine Keeps.ite (fun _ => ?_) (fun _ => ?_)
    | dsimp only | split | simp only [Keeps.lit_sw h_sw])

theorem stagePut {pset : List Part} {z0 : State} {s : State} {m : Master} {base : Nat} {l : List Word} (h_regs :
    Part.regs ∈ pset) (hk : Keeps pset z0 s) : Keeps pset z0 (Machine.stagePut s m base l) := by
  induction l generalizing s m base with
  | nil =>
    unfold Machine.stagePut
    repeat' (first
      | with_reducible first
        | assumption | apply K.setR h_regs
      | dsimp only | split)
  | cons _ _ ih =>
    unfold Machine.stagePut
    repeat' (first
      | with_reducible first
        | assumption | apply ih | apply K.setR h_regs
      | dsimp only | split)

theorem tblReadCmd {pset : List Part} {z0 : State} {m : Master} {v : Word} {s : State} (h_regs : Part.regs ∈ pset)
    (h_outs : Part.outs ∈ pset) (h_intc : Part.intc ∈ pset) (hk : Keeps pset z0 s) : Keeps pset z0 (Machine.tblReadCmd
    m v s) := by
  unfold Machine.tblReadCmd
  repeat' (first
    | with_reducible first
      | assumption | apply K.tblEnd h_regs h_outs h_intc | apply K.stagePut h_regs
      | refine Keeps.ite (fun _ => ?_) (fun _ => ?_)
    | dsimp only | split)

theorem tblCmd {pset : List Part} {z0 : State} {m : Master} {v : Word} {s : State} (h_regs : Part.regs ∈ pset)
    (h_outs : Part.outs ∈ pset) (h_intc : Part.intc ∈ pset) (h_sw : Part.sw ∈ pset) (hk : Keeps pset z0 s) : Keeps
    pset z0 (Machine.tblCmd m v s) := by
  unfold Machine.tblCmd
  repeat' (first
    | with_reducible first
      | assumption | apply K.tblEnd h_regs h_outs h_intc | apply K.tblWriteCmd h_regs h_outs h_intc h_sw
      | apply K.tblReadCmd h_regs h_outs h_intc
    | dsimp only | split)

theorem fdbEnd {pset : List Part} {z0 : State} {s : State} {m : Master} {st : Nat} {i : Nat} (h_regs : Part.regs ∈
    pset) (h_outs : Part.outs ∈ pset) (h_intc : Part.intc ∈ pset) (hk : Keeps pset z0 s) : Keeps pset z0
    (Machine.fdbEnd s m st i) := by
  unfold Machine.fdbEnd
  repeat' (first
    | with_reducible first
      | assumption | apply K.setR h_regs | apply K.raiseIrq h_regs h_outs h_intc)

theorem fdbCommit {pset : List Part} {z0 : State} {s : State} {m : Master} {i : Nat} {e : List Word} {purge :
    Bool} (h_regs : Part.regs ∈ pset) (h_outs : Part.outs ∈ pset) (h_intc : Part.intc ∈ pset) (h_sw : Part.sw ∈ pset)
    (hk : Keeps pset z0 s) : Keeps pset z0 (Machine.fdbCommit s m i e purge) := by
  unfold Machine.fdbCommit
  repeat' (first
    | with_reducible first
      | assumption | apply K.fdbPut h_sw | apply K.commitEpoch h_regs | apply K.fdbEnd h_regs h_outs h_intc
      | refine Keeps.ite (fun _ => ?_) (fun _ => ?_)
    | dsimp only | split | simp only [Keeps.lit_sw h_sw])

theorem fdbWriteCmd {pset : List Part} {z0 : State} {m : Master} {v : Word} {s : State} (h_regs : Part.regs ∈
    pset) (h_outs : Part.outs ∈ pset) (h_intc : Part.intc ∈ pset) (h_sw : Part.sw ∈ pset) (hk : Keeps pset z0 s) :
    Keeps pset z0 (Machine.fdbWriteCmd m v s) := by
  unfold Machine.fdbWriteCmd
  repeat' (first
    | with_reducible first
      | assumption | apply K.fdbEnd h_regs h_outs h_intc | apply K.fdbCommit h_regs h_outs h_intc h_sw
      | refine Keeps.ite (fun _ => ?_) (fun _ => ?_)
    | dsimp only | split)

theorem fdbInsertCmd {pset : List Part} {z0 : State} {m : Master} {v : Word} {s : State} (h_regs : Part.regs ∈
    pset) (h_outs : Part.outs ∈ pset) (h_intc : Part.intc ∈ pset) (h_sw : Part.sw ∈ pset) (hk : Keeps pset z0 s) :
    Keeps pset z0 (Machine.fdbInsertCmd m v s) := by
  unfold Machine.fdbInsertCmd
  repeat' (first
    | with_reducible first
      | assumption | apply K.fdbEnd h_regs h_outs h_intc | apply K.fdbCommit h_regs h_outs h_intc h_sw
      | refine Keeps.ite (fun _ => ?_) (fun _ => ?_)
    | dsimp only | split)

theorem fdbDeleteCmd {pset : List Part} {z0 : State} {m : Master} {v : Word} {s : State} (h_regs : Part.regs ∈
    pset) (h_outs : Part.outs ∈ pset) (h_intc : Part.intc ∈ pset) (h_sw : Part.sw ∈ pset) (hk : Keeps pset z0 s) :
    Keeps pset z0 (Machine.fdbDeleteCmd m v s) := by
  unfold Machine.fdbDeleteCmd
  repeat' (first
    | with_reducible first
      | assumption | apply K.fdbCommit h_regs h_outs h_intc h_sw
    | dsimp only)

theorem fdbLookupCmd {pset : List Part} {z0 : State} {m : Master} {v : Word} {s : State} (h_regs : Part.regs ∈
    pset) (h_outs : Part.outs ∈ pset) (h_intc : Part.intc ∈ pset) (hk : Keeps pset z0 s) : Keeps pset z0
    (Machine.fdbLookupCmd m v s) := by
  unfold Machine.fdbLookupCmd
  repeat' (first
    | with_reducible first
      | assumption | apply K.stagePut h_regs | apply K.fdbEnd h_regs h_outs h_intc
    | dsimp only | split)

theorem fdbCmd {pset : List Part} {z0 : State} {m : Master} {v : Word} {s : State} (h_regs : Part.regs ∈ pset)
    (h_outs : Part.outs ∈ pset) (h_intc : Part.intc ∈ pset) (h_sw : Part.sw ∈ pset) (hk : Keeps pset z0 s) : Keeps
    pset z0 (Machine.fdbCmd m v s) := by
  unfold Machine.fdbCmd
  repeat' (first
    | with_reducible first
      | assumption | apply K.fdbEnd h_regs h_outs h_intc | apply K.fdbWriteCmd h_regs h_outs h_intc h_sw
      | apply K.fdbInsertCmd h_regs h_outs h_intc h_sw | apply K.fdbDeleteCmd h_regs h_outs h_intc h_sw
      | apply K.fdbLookupCmd h_regs h_outs h_intc
    | dsimp only | split)

theorem agePeriod {pset : List Part} {z0 : State} {m : Master} {v : Word} {s : State} (h_regs : Part.regs ∈ pset)
    (h_outs : Part.outs ∈ pset) (h_intc : Part.intc ∈ pset) (h_sw : Part.sw ∈ pset) (hk : Keeps pset z0 s) : Keeps
    pset z0 (Machine.agePeriod m v s) := by
  unfold Machine.agePeriod
  repeat' (first
    | with_reducible first
      | assumption | apply K.plainWrite h_regs h_outs h_intc
    | dsimp only | simp only [Keeps.lit_sw h_sw])

theorem ageEntry {pset : List Part} {z0 : State} {s : State} {i : Nat} (h_regs : Part.regs ∈ pset) (h_cnts :
    Part.cnts ∈ pset) (h_sw : Part.sw ∈ pset) (hk : Keeps pset z0 s) : Keeps pset z0 (Machine.ageEntry s i) := by
  unfold Machine.ageEntry
  repeat' (first
    | with_reducible first
      | assumption | apply K.bump h_cnts | apply K.fdbPut h_sw | apply K.commitEpoch h_regs
      | refine Keeps.ite (fun _ => ?_) (fun _ => ?_)
    | dsimp only | split)

theorem ageSweep {pset : List Part} {z0 : State} {s : State} (h_regs : Part.regs ∈ pset) (h_cnts : Part.cnts ∈
    pset) (h_outs : Part.outs ∈ pset) (h_intc : Part.intc ∈ pset) (h_sys : Part.sys ∈ pset) (h_sw : Part.sw ∈ pset)
    (h_time : Part.time ∈ pset) (h_pwr : Part.pwr ∈ pset) (hk : Keeps pset z0 s) : Keeps pset z0 (Machine.ageSweep s)
    := by
  unfold Machine.ageSweep
  repeat' (first
    | with_reducible first
      | assumption | apply K.raiseIrq h_regs h_outs h_intc | apply K.advanceNs h_cnts h_sys h_time h_pwr
      | apply K.ageEntry h_regs h_cnts h_sw | refine Keeps.ite (fun _ => ?_) (fun _ => ?_)
      | refine Keeps.foldl (fun _ _ _ => ?_) ?_ | refine Keeps.foldlFst (fun _ _ _ => ?_) ?_
    | intro _ _ | dsimp only | split | simp only [Keeps.lit_sw h_sw])

end Sys2Proof.Laws.K
end

