-- ==== Sys2Proof/Laws/KeepsVault.lean ====
section
/-! SUPPORT. What the operations of `Machine/Vault.lean` keep. -/

namespace Sys2Proof.Laws.K

open Sys2Proof Sys2Proof.Machine Sys2Proof.Laws

theorem vAsk {pset : List Part} {z0 : State} {s : State} {c : Nat} {k : Nat} (h_vlt : Part.vlt ∈ pset) (hk : Keeps
    pset z0 s) : Keeps pset z0 (Machine.vAsk s c k) := by
  unfold Machine.vAsk
  repeat' (first
    | with_reducible first
      | assumption | refine Keeps.ite (fun _ => ?_) (fun _ => ?_)
    | dsimp only | split | simp only [Keeps.lit_vlt h_vlt])

theorem vGone {pset : List Part} {z0 : State} {s : State} {c : Nat} {k : Nat} (h_vlt : Part.vlt ∈ pset) (hk :
    Keeps pset z0 s) : Keeps pset z0 (Machine.vGone s c k) := by
  unfold Machine.vGone
  repeat' (first
    | with_reducible first
      | assumption
    | intro _ _ | dsimp only | simp only [Keeps.lit_vlt h_vlt])

theorem compact {pset : List Part} {z0 : State} {l : Nat} {s : State} (h_regs : Part.regs ∈ pset) (h_outs :
    Part.outs ∈ pset) (h_intc : Part.intc ∈ pset) (h_vlt : Part.vlt ∈ pset) (hk : Keeps pset z0 s) : Keeps pset z0
    (Machine.compact l s) := by
  unfold Machine.compact
  repeat' (first
    | with_reducible first
      | assumption | apply K.rowsWrite h_regs h_outs h_intc h_vlt | refine Keeps.ite (fun _ => ?_) (fun _ => ?_)
    | dsimp only | split | simp only [Keeps.lit_vlt h_vlt])

theorem setCounter {pset : List Part} {z0 : State} {s : State} {c : Nat} {v : DWord} (h_regs : Part.regs ∈ pset)
    (h_outs : Part.outs ∈ pset) (h_intc : Part.intc ∈ pset) (h_vlt : Part.vlt ∈ pset) (hk : Keeps pset z0 s) :
    Keeps pset z0 (Machine.setCounter s c v) := by
  unfold Machine.setCounter
  refine K.rowsWrite h_regs h_outs h_intc h_vlt ?_
  refine { hk with vlt := .inl h_vlt, falls := hk.falls.imp id fun h i => Nat.le_trans (h i) ?_ }
  unfold vaultCounter
  dsimp only
  split
  · exact Nat.le_refl _
  · rw [sget_sset]
    split
    · next e => subst e; split <;> omega
    · exact Nat.le_refl _

theorem cntEnd {pset : List Part} {z0 : State} {s : State} {r : Nat} (h_regs : Part.regs ∈ pset) (h_outs :
    Part.outs ∈ pset) (h_intc : Part.intc ∈ pset) (hk : Keeps pset z0 s) : Keeps pset z0 (Machine.cntEnd s r) := by
  unfold Machine.cntEnd
  repeat' (first
    | with_reducible first
      | assumption | apply K.setR h_regs | apply K.raiseIrq h_regs h_outs h_intc)

theorem cntItem {pset : List Part} {z0 : State} {s : State} (h_regs : Part.regs ∈ pset) (h_vlt : Part.vlt ∈ pset)
    (hk : Keeps pset z0 s) : Keeps pset z0 (Machine.cntItem s) := by
  unfold Machine.cntItem
  repeat' (first
    | with_reducible first
      | assumption | apply K.setR h_regs | refine Keeps.ite (fun _ => ?_) (fun _ => ?_)
    | dsimp only | split | simp only [Keeps.lit_vlt h_vlt])

theorem cntChange {pset : List Part} {z0 : State} {raise : Bool} {c : Nat} {s : State} (h_regs : Part.regs ∈ pset)
    (h_outs : Part.outs ∈ pset) (h_intc : Part.intc ∈ pset) (h_vlt : Part.vlt ∈ pset) (hk : Keeps pset z0 s) : Keeps
    pset z0 (Machine.cntChange raise c s) := by
  unfold Machine.cntChange
  repeat' (first
    | with_reducible first
      | assumption | apply K.setR h_regs | apply K.vAsk h_vlt | apply K.cntEnd h_regs h_outs h_intc
      | apply K.cntItem h_regs h_vlt | refine Keeps.ite (fun _ => ?_) (fun _ => ?_)
    | dsimp only | split | simp only [Keeps.lit_vlt h_vlt])

theorem cntReadCmd {pset : List Part} {z0 : State} {c : Nat} {s : State} (h_regs : Part.regs ∈ pset) (h_outs :
    Part.outs ∈ pset) (h_intc : Part.intc ∈ pset) (hk : Keeps pset z0 s) : Keeps pset z0 (Machine.cntReadCmd c s) :=
    by
  unfold Machine.cntReadCmd
  repeat' (first
    | with_reducible first
      | assumption | apply K.setR64 h_regs | apply K.cntEnd h_regs h_outs h_intc
      | refine Keeps.ite (fun _ => ?_) (fun _ => ?_)
    | split)

theorem cntCmd {pset : List Part} {z0 : State} {v : Word} {s : State} (h_regs : Part.regs ∈ pset) (h_outs :
    Part.outs ∈ pset) (h_intc : Part.intc ∈ pset) (h_vlt : Part.vlt ∈ pset) (hk : Keeps pset z0 s) : Keeps pset z0
    (Machine.cntCmd v s) := by
  unfold Machine.cntCmd
  repeat' (first
    | with_reducible first
      | assumption | apply K.cntEnd h_regs h_outs h_intc | apply K.cntChange h_regs h_outs h_intc h_vlt
      | apply K.cntReadCmd h_regs h_outs h_intc | refine Keeps.ite (fun _ => ?_) (fun _ => ?_)
    | dsimp only | split)

theorem cntDurable {pset : List Part} {z0 : State} {s : State} (h_regs : Part.regs ∈ pset) (h_outs : Part.outs ∈
    pset) (h_intc : Part.intc ∈ pset) (h_vlt : Part.vlt ∈ pset) (hk : Keeps pset z0 s) : Keeps pset z0
    (Machine.cntDurable s) := by
  unfold Machine.cntDurable
  repeat' (first
    | with_reducible first
      | assumption | apply K.vGone h_vlt | apply K.setCounter h_regs h_outs h_intc h_vlt
      | apply K.cntEnd h_regs h_outs h_intc | refine Keeps.ite (fun _ => ?_) (fun _ => ?_)
    | dsimp only | split | refine Keeps.ofFst (by with_reducible assumption) ?_
    | refine Keeps.ofSnd (by with_reducible assumption) ?_ | simp only [Keeps.lit_vlt h_vlt])

theorem jSet {pset : List Part} {z0 : State} {s : State} {i : Nat} {w : Nat} {v : Word} (h_vlt : Part.vlt ∈ pset)
    (hk : Keeps pset z0 s) : Keeps pset z0 (Machine.jSet s i w v) := by
  unfold Machine.jSet
  repeat' (first
    | with_reducible first
      | assumption
    | dsimp only | simp only [Keeps.lit_vlt h_vlt])

theorem jSpend {pset : List Part} {z0 : State} {s : State} (h_regs : Part.regs ∈ pset) (h_vlt : Part.vlt ∈ pset)
    (hk : Keeps pset z0 s) : Keeps pset z0 (Machine.jSpend s) := by
  unfold Machine.jSpend
  repeat' (first
    | with_reducible first
      | assumption | apply K.setR h_regs | refine Keeps.ite (fun _ => ?_) (fun _ => ?_)
    | dsimp only | split | simp only [Keeps.lit_vlt h_vlt])

theorem jPut {pset : List Part} {z0 : State} {s : State} {type : Nat} {low : Nat} {w1 : Word} {w2 : Word} {w3 :
    Option Nat} (h_regs : Part.regs ∈ pset) (h_outs : Part.outs ∈ pset) (h_intc : Part.intc ∈ pset) (h_vlt : Part.vlt
    ∈ pset) (hk : Keeps pset z0 s) : Keeps pset z0 (Machine.jPut s type low w1 w2 w3).1 := by
  unfold Machine.jPut
  repeat' (first
    | with_reducible first
      | assumption | apply K.setR h_regs | apply K.wearTo h_regs h_outs h_intc | apply K.jSet h_vlt
      | apply K.jSpend h_regs h_vlt | refine Keeps.ite (fun _ => ?_) (fun _ => ?_)
      | refine Keeps.iteFst (fun _ => ?_) (fun _ => ?_)
    | dsimp only | split)

theorem jClose {pset : List Part} {z0 : State} {s : State} {slot : Nat} {x : Nat} (h_vlt : Part.vlt ∈ pset) (hk :
    Keeps pset z0 s) : Keeps pset z0 (Machine.jClose s slot x) := by
  unfold Machine.jClose
  repeat' (first
    | with_reducible first
      | assumption | apply K.jSet h_vlt)

theorem jSecondClose {pset : List Part} {z0 : State} {s : State} (h_regs : Part.regs ∈ pset) (h_outs : Part.outs ∈
    pset) (h_intc : Part.intc ∈ pset) (h_gate : Part.gate ∈ pset) (h_vlt : Part.vlt ∈ pset) (hk : Keeps pset z0 s) :
    Keeps pset z0 (Machine.jSecondClose s) := by
  unfold Machine.jSecondClose
  repeat' (first
    | with_reducible first
      | assumption | apply K.putF h_regs | apply K.putB h_regs | apply K.raiseIrq h_regs h_outs h_intc
      | apply K.jClose h_vlt | refine Keeps.ite (fun _ => ?_) (fun _ => ?_) | refine Keeps.foldl (fun _ _ _ => ?_) ?_
    | intro _ _ | dsimp only | split | simp only [Keeps.lit_gate_vlt h_gate h_vlt])

theorem jTime {pset : List Part} {z0 : State} {s : State} (h_regs : Part.regs ∈ pset) (h_outs : Part.outs ∈ pset)
    (h_intc : Part.intc ∈ pset) (h_vlt : Part.vlt ∈ pset) (hk : Keeps pset z0 s) : Keeps pset z0 (Machine.jTime s) :=
    by
  unfold Machine.jTime
  repeat' (first
    | with_reducible first
      | assumption | apply K.jPut h_regs h_outs h_intc h_vlt
    | dsimp only | simp only [Keeps.lit_vlt h_vlt])

theorem jTurn {pset : List Part} {z0 : State} {s : State} (h_regs : Part.regs ∈ pset) (h_outs : Part.outs ∈ pset)
    (h_intc : Part.intc ∈ pset) (h_gate : Part.gate ∈ pset) (h_vlt : Part.vlt ∈ pset) (hk : Keeps pset z0 s) : Keeps
    pset z0 (Machine.jTurn s) := by
  unfold Machine.jTurn
  repeat' (first
    | with_reducible first
      | assumption | apply K.jPut h_regs h_outs h_intc h_vlt | apply K.jSecondClose h_regs h_outs h_intc h_gate h_vlt
      | apply K.jTime h_regs h_outs h_intc h_vlt | refine Keeps.ite (fun _ => ?_) (fun _ => ?_)
    | dsimp only | split | simp only [Keeps.lit_vlt h_vlt])

theorem jEnter {pset : List Part} {z0 : State} {s : State} (h_regs : Part.regs ∈ pset) (h_outs : Part.outs ∈ pset)
    (h_intc : Part.intc ∈ pset) (h_gate : Part.gate ∈ pset) (h_vlt : Part.vlt ∈ pset) (hk : Keeps pset z0 s) : Keeps
    pset z0 (Machine.jEnter s) := by
  unfold Machine.jEnter
  repeat' (first
    | with_reducible first
      | assumption | apply K.jTime h_regs h_outs h_intc h_vlt | apply K.jTurn h_regs h_outs h_intc h_gate h_vlt
      | refine Keeps.ite (fun _ => ?_) (fun _ => ?_)
    | dsimp only | split)

theorem jRecord {pset : List Part} {z0 : State} {s : State} {type : Nat} {low : Nat} {w1 : Nat} {w2 : Nat} (h_regs
    : Part.regs ∈ pset) (h_outs : Part.outs ∈ pset) (h_intc : Part.intc ∈ pset) (h_gate : Part.gate ∈ pset) (h_vlt :
    Part.vlt ∈ pset) (hk : Keeps pset z0 s) : Keeps pset z0 (Machine.jRecord s type low w1 w2) := by
  unfold Machine.jRecord
  repeat' (first
    | with_reducible first
      | assumption | apply K.jPut h_regs h_outs h_intc h_vlt | apply K.jEnter h_regs h_outs h_intc h_gate h_vlt
      | refine Keeps.ite (fun _ => ?_) (fun _ => ?_)
    | dsimp only | split)

theorem jRelease {pset : List Part} {z0 : State} {s : State} {chan : Nat} {tag : Nat} {key : Nat} {seq : Nat}
    (h_regs : Part.regs ∈ pset) (h_outs : Part.outs ∈ pset) (h_intc : Part.intc ∈ pset) (h_gate : Part.gate ∈ pset)
    (h_vlt : Part.vlt ∈ pset) (hk : Keeps pset z0 s) : Keeps pset z0 (Machine.jRelease s chan tag key seq).1 := by
  unfold Machine.jRelease
  repeat' (first
    | with_reducible first
      | assumption | apply K.jPut h_regs h_outs h_intc h_vlt | apply K.jEnter h_regs h_outs h_intc h_gate h_vlt
      | refine Keeps.ite (fun _ => ?_) (fun _ => ?_) | refine Keeps.iteFst (fun _ => ?_) (fun _ => ?_)
    | intro _ _ | dsimp only | split | simp only [Keeps.lit_vlt h_vlt])

theorem jReleaseEnd {pset : List Part} {z0 : State} {s : State} {slot : Option Nat} {inSum : Bool} {key : Nat}
    {code : Nat} {at_ : DWord} (h_regs : Part.regs ∈ pset) (h_outs : Part.outs ∈ pset) (h_intc : Part.intc ∈ pset)
    (h_gate : Part.gate ∈ pset) (h_vlt : Part.vlt ∈ pset) (hk : Keeps pset z0 s) : Keeps pset z0 (Machine.jReleaseEnd
    s slot inSum key code at_) := by
  unfold Machine.jReleaseEnd
  repeat' (first
    | with_reducible first
      | assumption | apply K.jClose h_vlt | apply K.jTurn h_regs h_outs h_intc h_gate h_vlt
      | refine Keeps.ite (fun _ => ?_) (fun _ => ?_)
    | intro _ _ | dsimp only | split | simp only [Keeps.lit_vlt h_vlt])

theorem jSieve {pset : List Part} {z0 : State} {s : State} {chan : Nat} {m : Nat} {rule : Nat} {bytes : Nat}
    (h_regs : Part.regs ∈ pset) (h_outs : Part.outs ∈ pset) (h_intc : Part.intc ∈ pset) (h_gate : Part.gate ∈ pset)
    (h_vlt : Part.vlt ∈ pset) (hk : Keeps pset z0 s) : Keeps pset z0 (Machine.jSieve s chan m rule bytes) := by
  unfold Machine.jSieve
  repeat' (first
    | with_reducible first
      | assumption | apply K.satInc h_regs | apply K.raiseIrq h_regs h_outs h_intc
      | apply K.jTurn h_regs h_outs h_intc h_gate h_vlt | apply K.jRecord h_regs h_outs h_intc h_gate h_vlt
      | refine Keeps.ite (fun _ => ?_) (fun _ => ?_)
    | dsimp only | split | simp only [Keeps.lit_vlt h_vlt])

theorem jSecondEnd {pset : List Part} {z0 : State} {s : State} (h_regs : Part.regs ∈ pset) (h_cnts : Part.cnts ∈
    pset) (h_outs : Part.outs ∈ pset) (h_intc : Part.intc ∈ pset) (h_sys : Part.sys ∈ pset) (h_gate : Part.gate ∈
    pset) (h_vlt : Part.vlt ∈ pset) (h_time : Part.time ∈ pset) (h_pwr : Part.pwr ∈ pset) (hk : Keeps pset z0 s) :
    Keeps pset z0 (Machine.jSecondEnd s) := by
  unfold Machine.jSecondEnd
  repeat' (first
    | with_reducible first
      | assumption | apply K.advanceCycles h_cnts h_sys h_time h_pwr | apply K.advanceTb h_cnts h_sys h_time h_pwr
      | apply K.jTurn h_regs h_outs h_intc h_gate h_vlt | refine Keeps.ite (fun _ => ?_) (fun _ => ?_)
    | dsimp only | split)

theorem jAccrue {pset : List Part} {z0 : State} {s : State} (h_regs : Part.regs ∈ pset) (h_vlt : Part.vlt ∈ pset)
    (hk : Keeps pset z0 s) : Keeps pset z0 (Machine.jAccrue s) := by
  unfold Machine.jAccrue
  repeat' (first
    | with_reducible first
      | assumption | apply K.setR h_regs | refine Keeps.ite (fun _ => ?_) (fun _ => ?_)
    | dsimp only | split | simp only [Keeps.lit_vlt h_vlt])

theorem markWrite {pset : List Part} {z0 : State} {s : State} {k : Nat} {v : DWord} (h_vlt : Part.vlt ∈ pset) (hk
    : Keeps pset z0 s) : Keeps pset z0 (Machine.markWrite s k v) := by
  unfold Machine.markWrite
  repeat' (first
    | with_reducible first
      | assumption | apply K.vAsk h_vlt | refine Keeps.ite (fun _ => ?_) (fun _ => ?_)
    | dsimp only | split | simp only [Keeps.lit_vlt h_vlt])

theorem markSupply {pset : List Part} {z0 : State} {s : State} {k : Nat} {v : DWord} (h_vlt : Part.vlt ∈ pset) (hk
    : Keeps pset z0 s) : Keeps pset z0 (Machine.markSupply s k v) := by
  unfold Machine.markSupply
  repeat' (first
    | with_reducible first
      | assumption | apply K.vAsk h_vlt | apply K.vGone h_vlt | refine Keeps.ite (fun _ => ?_) (fun _ => ?_)
    | dsimp only | split | simp only [Keeps.lit_vlt h_vlt])

theorem markStore {pset : List Part} {z0 : State} {s : State} {k : Nat} (h_regs : Part.regs ∈ pset) (h_outs :
    Part.outs ∈ pset) (h_intc : Part.intc ∈ pset) (h_vlt : Part.vlt ∈ pset) (hk : Keeps pset z0 s) : Keeps pset z0
    (Machine.markStore s k) := by
  unfold Machine.markStore
  repeat' (first
    | with_reducible first
      | assumption | apply K.rowsWrite h_regs h_outs h_intc h_vlt | apply K.vGone h_vlt
    | dsimp only | split | simp only [Keeps.lit_vlt h_vlt])

theorem markDurable {pset : List Part} {z0 : State} {s : State} {k : Nat} (h_regs : Part.regs ∈ pset) (h_outs :
    Part.outs ∈ pset) (h_intc : Part.intc ∈ pset) (h_vlt : Part.vlt ∈ pset) (hk : Keeps pset z0 s) : Keeps pset z0
    (Machine.markDurable s k) := by
  unfold Machine.markDurable
  repeat' (first
    | with_reducible first
      | assumption | apply K.markStore h_regs h_outs h_intc h_vlt | refine Keeps.ite (fun _ => ?_) (fun _ => ?_)
    | dsimp only | split)

theorem expEnd {pset : List Part} {z0 : State} {s : State} {r : Nat} (h_regs : Part.regs ∈ pset) (h_outs :
    Part.outs ∈ pset) (h_intc : Part.intc ∈ pset) (hk : Keeps pset z0 s) : Keeps pset z0 (Machine.expEnd s r) := by
  unfold Machine.expEnd
  repeat' (first
    | with_reducible first
      | assumption | apply K.setR h_regs | apply K.raiseIrq h_regs h_outs h_intc)

theorem exportCmd {pset : List Part} {z0 : State} {v : Word} {s : State} (h_regs : Part.regs ∈ pset) (h_outs :
    Part.outs ∈ pset) (h_intc : Part.intc ∈ pset) (h_vlt : Part.vlt ∈ pset) (hk : Keeps pset z0 s) : Keeps pset z0
    (Machine.exportCmd v s) := by
  unfold Machine.exportCmd
  repeat' (first
    | with_reducible first
      | assumption | apply K.setR h_regs | apply K.expEnd h_regs h_outs h_intc
      | refine Keeps.ite (fun _ => ?_) (fun _ => ?_)
    | dsimp only | split | simp only [Keeps.lit_vlt h_vlt])

theorem exportCopy {pset : List Part} {z0 : State} {s : State} {a : Nat} {i : Nat} {n : Nat} (h_mem : Part.mem ∈
    pset) (h_bnk : Part.bnk ∈ pset) (hk : Keeps pset z0 s) : Keeps pset z0 (Machine.exportCopy s a i n).1 := by
  induction n generalizing s a i with
  | zero =>
    unfold Machine.exportCopy
    repeat' (first
      | with_reducible first
        | assumption | apply K.wrBytes h_mem | apply K.coverHalves h_bnk
        | refine Keeps.ite (fun _ => ?_) (fun _ => ?_) | refine Keeps.iteFst (fun _ => ?_) (fun _ => ?_)
      | intro _ _ | dsimp only | split)
  | succ _ ih =>
    unfold Machine.exportCopy
    repeat' (first
      | with_reducible first
        | assumption | apply ih | apply K.wrBytes h_mem | apply K.coverHalves h_bnk
        | refine Keeps.ite (fun _ => ?_) (fun _ => ?_) | refine Keeps.iteFst (fun _ => ?_) (fun _ => ?_)
      | intro _ _ | dsimp only | split)

theorem exportDone {pset : List Part} {z0 : State} {s : State} (h_regs : Part.regs ∈ pset) (h_mem : Part.mem ∈
    pset) (h_outs : Part.outs ∈ pset) (h_intc : Part.intc ∈ pset) (h_vlt : Part.vlt ∈ pset) (h_bnk : Part.bnk ∈ pset)
    (hk : Keeps pset z0 s) : Keeps pset z0 (Machine.exportDone s) := by
  unfold Machine.exportDone
  repeat' (first
    | with_reducible first
      | assumption | apply K.expEnd h_regs h_outs h_intc | apply K.exportCopy h_mem h_bnk
      | refine Keeps.ite (fun _ => ?_) (fun _ => ?_)
    | dsimp only | split | refine Keeps.ofFst (by with_reducible assumption) ?_
    | refine Keeps.ofSnd (by with_reducible assumption) ?_ | simp only [Keeps.lit_vlt h_vlt])

theorem newIdentity {pset : List Part} {z0 : State} {s : State} (h_regs : Part.regs ∈ pset) (h_free : Part.free ∈
    pset) (h_outs : Part.outs ∈ pset) (h_intc : Part.intc ∈ pset) (h_vlt : Part.vlt ∈ pset) (hk : Keeps pset z0 s) :
    Keeps pset z0 (Machine.newIdentity s) := by
  unfold Machine.newIdentity
  repeat' (first
    | with_reducible first
      | assumption | apply K.setR h_regs | apply K.fresh h_free | apply K.rowsWrite h_regs h_outs h_intc h_vlt
      | refine Keeps.foldl (fun _ _ _ => ?_) ?_ | refine Keeps.foldlFst (fun _ _ _ => ?_) ?_
    | intro _ _ | dsimp only | simp only [Keeps.lit_vlt h_vlt])

theorem logZero {pset : List Part} {z0 : State} {s : State} {l : Nat} (h_regs : Part.regs ∈ pset) (h_outs :
    Part.outs ∈ pset) (h_intc : Part.intc ∈ pset) (h_vlt : Part.vlt ∈ pset) (hk : Keeps pset z0 s) : Keeps pset z0
    (Machine.logZero s l) := by
  unfold Machine.logZero
  repeat' (first
    | with_reducible first
      | assumption | apply K.rowsWrite h_regs h_outs h_intc h_vlt
    | dsimp only | simp only [Keeps.lit_vlt h_vlt])

theorem poolImgZero {pset : List Part} {z0 : State} {s : State} (h_regs : Part.regs ∈ pset) (h_outs : Part.outs ∈
    pset) (h_intc : Part.intc ∈ pset) (h_vlt : Part.vlt ∈ pset) (hk : Keeps pset z0 s) : Keeps pset z0
    (Machine.poolImgZero s) := by
  unfold Machine.poolImgZero
  repeat' (first
    | with_reducible first
      | assumption | apply K.wearTo h_regs h_outs h_intc | refine Keeps.foldl (fun _ _ _ => ?_) ?_
    | intro _ _ | dsimp only | simp only [Keeps.lit_vlt h_vlt])

theorem vaultWipe {pset : List Part} {z0 : State} {s : State} (h_regs : Part.regs ∈ pset) (h_free : Part.free ∈
    pset) (h_outs : Part.outs ∈ pset) (h_intc : Part.intc ∈ pset) (h_gate : Part.gate ∈ pset) (h_vlt : Part.vlt ∈
    pset) (h_falls : Part.falls ∈ pset) (hk : Keeps pset z0 s) :
    Keeps pset z0 (Machine.vaultWipe s) := by
  unfold Machine.vaultWipe
  dsimp only
  refine K.rowsWrite h_regs h_outs h_intc h_vlt ?_
  have h : ∀ t : State, Keeps pset z0 t → Keeps pset z0 { t with vlt := { t.vlt with eraseMark := false } } :=
    fun _ h => { h with vlt := .inl h_vlt }
  refine h _ (K.newIdentity h_regs h_free h_outs h_intc h_vlt (K.setR h_regs (K.setR h_regs (K.setR h_regs ?_))))
  refine Keeps.foldl (fun _ _ h => K.logZero h_regs h_outs h_intc h_vlt h) (K.poolImgZero h_regs h_outs h_intc
      h_vlt (K.wearTo h_regs h_outs h_intc ?_))
  exact { hk with vlt := .inl h_vlt, gate := .inl h_gate, falls := .inl h_falls }

end Sys2Proof.Laws.K
end

