-- ==== Sys2Proof/Laws/KeepsGateOut.lean ====
section
/-! SUPPORT. What the operations of `Machine/GateOut.lean` keep. -/

namespace Sys2Proof.Laws.K

open Sys2Proof Sys2Proof.Machine Sys2Proof.Laws

theorem catSet {pset : List Part} {z0 : State} {s : State} {i : Nat} {e : CatEnt} (h_gate : Part.gate ∈ pset) (hk
    : Keeps pset z0 s) : Keeps pset z0 (Machine.catSet s i e) := by
  unfold Machine.catSet
  repeat' (first
    | with_reducible first
      | assumption
    | dsimp only | simp only [Keeps.lit_gate h_gate])

theorem vrPut {pset : List Part} {z0 : State} {s : State} {tag : Nat} {key : Nat} {chan : Nat} {seq : Nat} {code :
    Nat} {flags : Nat} (h_regs : Part.regs ∈ pset) (h_mem : Part.mem ∈ pset) (h_outs : Part.outs ∈ pset) (h_intc :
    Part.intc ∈ pset) (h_gate : Part.gate ∈ pset) (h_bnk : Part.bnk ∈ pset) (hk : Keeps pset z0 s) : Keeps pset z0
    (Machine.vrPut s tag key chan seq code flags) := by
  unfold Machine.vrPut
  repeat' (first
    | with_reducible first
      | assumption | apply K.setR h_regs | apply K.satInc h_regs | apply K.raiseIrq h_regs h_outs h_intc
      | apply K.fabWrite h_regs h_mem h_outs h_intc h_bnk | refine Keeps.ite (fun _ => ?_) (fun _ => ?_)
    | dsimp only | split | simp only [Keeps.lit_gate h_gate])

theorem sendReport {pset : List Part} {z0 : State} {s : State} {i : EndInfo} {code : Nat} (h_regs : Part.regs ∈
    pset) (h_cnts : Part.cnts ∈ pset) (h_free : Part.free ∈ pset) (h_mem : Part.mem ∈ pset) (h_outs : Part.outs ∈
    pset) (h_intc : Part.intc ∈ pset) (h_sw : Part.sw ∈ pset) (h_bnk : Part.bnk ∈ pset) (hk : Keeps pset z0 s) : Keeps
    pset z0 (Machine.sendReport s i code) := by
  unfold Machine.sendReport
  repeat' (first
    | with_reducible first
      | assumption | apply K.frameMod h_mem h_sw h_bnk
      | apply K.swIngress h_regs h_cnts h_free h_mem h_outs h_intc h_sw h_bnk
      | refine Keeps.ite (fun _ => ?_) (fun _ => ?_)
    | intro _ _ | dsimp only | split | refine Keeps.ofFst (by with_reducible assumption) ?_
    | refine Keeps.ofSnd (by with_reducible assumption) ?_)

theorem itemEnd {pset : List Part} {z0 : State} {s : State} {i : EndInfo} {code : Nat} (h_regs : Part.regs ∈ pset)
    (h_cnts : Part.cnts ∈ pset) (h_free : Part.free ∈ pset) (h_mem : Part.mem ∈ pset) (h_outs : Part.outs ∈ pset)
    (h_intc : Part.intc ∈ pset) (h_sw : Part.sw ∈ pset) (h_gate : Part.gate ∈ pset) (h_bnk : Part.bnk ∈ pset) (hk :
    Keeps pset z0 s) : Keeps pset z0 (Machine.itemEnd s i code) := by
  unfold Machine.itemEnd
  repeat' (first
    | with_reducible first
      | assumption | apply K.bump h_cnts | apply K.raiseIrq h_regs h_outs h_intc
      | apply K.vrPut h_regs h_mem h_outs h_intc h_gate h_bnk
      | apply K.sendReport h_regs h_cnts h_free h_mem h_outs h_intc h_sw h_bnk
      | refine Keeps.ite (fun _ => ?_) (fun _ => ?_)
    | dsimp only | split | simp only [Keeps.lit_gate h_gate])

theorem pendLevel {pset : List Part} {z0 : State} {s : State} (h_regs : Part.regs ∈ pset) (h_outs : Part.outs ∈
    pset) (h_intc : Part.intc ∈ pset) (hk : Keeps pset z0 s) : Keeps pset z0 (Machine.pendLevel s) := by
  unfold Machine.pendLevel
  repeat' (first
    | with_reducible first
      | assumption | apply K.putF h_regs | apply K.setRaw h_regs h_outs h_intc
    | dsimp only)

theorem pendEnd {pset : List Part} {z0 : State} {s : State} {e : PEnt} {code : Nat} (h_regs : Part.regs ∈ pset)
    (h_cnts : Part.cnts ∈ pset) (h_free : Part.free ∈ pset) (h_mem : Part.mem ∈ pset) (h_outs : Part.outs ∈ pset)
    (h_intc : Part.intc ∈ pset) (h_sw : Part.sw ∈ pset) (h_gate : Part.gate ∈ pset) (h_bnk : Part.bnk ∈ pset) (hk :
    Keeps pset z0 s) : Keeps pset z0 (Machine.pendEnd s e code) := by
  unfold Machine.pendEnd
  repeat' (first
    | with_reducible first
      | assumption | apply K.unref h_regs h_mem h_outs h_intc h_sw h_bnk
      | apply K.itemEnd h_regs h_cnts h_free h_mem h_outs h_intc h_sw h_gate h_bnk
      | apply K.pendLevel h_regs h_outs h_intc
    | intro _ _ | dsimp only | simp only [Keeps.lit_gate h_gate])

theorem pendEndAll {pset : List Part} {z0 : State} {s : State} {p : PEnt → Bool} {code : Nat} (h_regs : Part.regs
    ∈ pset) (h_cnts : Part.cnts ∈ pset) (h_free : Part.free ∈ pset) (h_mem : Part.mem ∈ pset) (h_outs : Part.outs ∈
    pset) (h_intc : Part.intc ∈ pset) (h_sw : Part.sw ∈ pset) (h_gate : Part.gate ∈ pset) (h_bnk : Part.bnk ∈ pset)
    (hk : Keeps pset z0 s) : Keeps pset z0 (Machine.pendEndAll s p code) := by
  unfold Machine.pendEndAll
  repeat' (first
    | with_reducible first
      | assumption | apply K.pendEnd h_regs h_cnts h_free h_mem h_outs h_intc h_sw h_gate h_bnk
      | refine Keeps.foldl (fun _ _ _ => ?_) ?_
    | intro _ _)

theorem releasedEnd {pset : List Part} {z0 : State} {s : State} {tag : Nat} {code : Nat} (h_regs : Part.regs ∈
    pset) (h_cnts : Part.cnts ∈ pset) (h_free : Part.free ∈ pset) (h_mem : Part.mem ∈ pset) (h_outs : Part.outs ∈
    pset) (h_intc : Part.intc ∈ pset) (h_sw : Part.sw ∈ pset) (h_gate : Part.gate ∈ pset) (h_vlt : Part.vlt ∈ pset)
    (h_bnk : Part.bnk ∈ pset) (hk : Keeps pset z0 s) : Keeps pset z0 (Machine.releasedEnd s tag code) := by
  unfold Machine.releasedEnd
  repeat' (first
    | with_reducible first
      | assumption | apply K.unref h_regs h_mem h_outs h_intc h_sw h_bnk | apply K.vGone h_vlt
      | apply K.jReleaseEnd h_regs h_outs h_intc h_gate h_vlt
      | apply K.itemEnd h_regs h_cnts h_free h_mem h_outs h_intc h_sw h_gate h_bnk
    | intro _ _ | dsimp only | split | simp only [Keeps.lit_gate h_gate])

theorem itemTransmitted {pset : List Part} {z0 : State} {s : State} {tag : Nat} (h_regs : Part.regs ∈ pset)
    (h_cnts : Part.cnts ∈ pset) (h_free : Part.free ∈ pset) (h_mem : Part.mem ∈ pset) (h_outs : Part.outs ∈ pset)
    (h_intc : Part.intc ∈ pset) (h_sw : Part.sw ∈ pset) (h_gate : Part.gate ∈ pset) (h_vlt : Part.vlt ∈ pset) (h_bnk :
    Part.bnk ∈ pset) (hk : Keeps pset z0 s) : Keeps pset z0 (Machine.itemTransmitted s tag) := by
  unfold Machine.itemTransmitted
  repeat' (first
    | with_reducible first
      | assumption | apply K.releasedEnd h_regs h_cnts h_free h_mem h_outs h_intc h_sw h_gate h_vlt h_bnk)

theorem itemEndExit {pset : List Part} {z0 : State} {s : State} {tag : Nat} {code : Nat} (h_regs : Part.regs ∈
    pset) (h_cnts : Part.cnts ∈ pset) (h_free : Part.free ∈ pset) (h_mem : Part.mem ∈ pset) (h_outs : Part.outs ∈
    pset) (h_intc : Part.intc ∈ pset) (h_sw : Part.sw ∈ pset) (h_gate : Part.gate ∈ pset) (h_vlt : Part.vlt ∈ pset)
    (h_bnk : Part.bnk ∈ pset) (hk : Keeps pset z0 s) : Keeps pset z0 (Machine.itemEndExit s tag code) := by
  unfold Machine.itemEndExit
  repeat' (first
    | with_reducible first
      | assumption | apply K.releasedEnd h_regs h_cnts h_free h_mem h_outs h_intc h_sw h_gate h_vlt h_bnk)

theorem relPhase {pset : List Part} {z0 : State} {s : State} {tag : Nat} {p : RPhase} (h_gate : Part.gate ∈ pset)
    (hk : Keeps pset z0 s) : Keeps pset z0 (Machine.relPhase s tag p) := by
  unfold Machine.relPhase
  repeat' (first
    | with_reducible first
      | assumption | refine Keeps.ite (fun _ => ?_) (fun _ => ?_)
    | intro _ _ | dsimp only | split | simp only [Keeps.lit_gate h_gate])

theorem sieveJudge {pset : List Part} {z0 : State} {s : State} {chan : Nat} {attach : Nat} {b : List Byte} {pass :
    Bool} {src : Nat} (h_regs : Part.regs ∈ pset) (h_cnts : Part.cnts ∈ pset) (h_outs : Part.outs ∈ pset) (h_intc :
    Part.intc ∈ pset) (h_gate : Part.gate ∈ pset) (h_vlt : Part.vlt ∈ pset) (hk : Keeps pset z0 s) : Keeps pset z0
    (Machine.sieveJudge s chan attach b pass src).1 := by
  unfold Machine.sieveJudge
  repeat' (first
    | with_reducible first
      | assumption | apply K.bump h_cnts | apply K.raiseIrq h_regs h_outs h_intc
      | apply K.jSieve h_regs h_outs h_intc h_gate h_vlt | refine Keeps.ite (fun _ => ?_) (fun _ => ?_)
      | refine Keeps.iteFst (fun _ => ?_) (fun _ => ?_)
    | dsimp only | split | refine Keeps.ofFst (by with_reducible assumption) ?_
    | refine Keeps.ofSnd (by with_reducible assumption) ?_)

theorem gateEntriesPut {pset : List Part} {z0 : State} {s : State} {chan : Nat} {l : List GEnt} (h_gate :
    Part.gate ∈ pset) (hk : Keeps pset z0 s) : Keeps pset z0 (Machine.gateEntriesPut s chan l) := by
  unfold Machine.gateEntriesPut
  repeat' (first
    | with_reducible first
      | assumption
    | dsimp only | simp only [Keeps.lit_gate h_gate])

theorem gateEntrySet {pset : List Part} {z0 : State} {s : State} {chan : Nat} {tag : Nat} {f : GEnt → GEnt}
    (h_gate : Part.gate ∈ pset) (hk : Keeps pset z0 s) : Keeps pset z0 (Machine.gateEntrySet s chan tag f) := by
  unfold Machine.gateEntrySet
  repeat' (first
    | with_reducible first
      | assumption | apply K.gateEntriesPut h_gate | refine Keeps.ite (fun _ => ?_) (fun _ => ?_)
    | intro _ _ | split)

theorem gateEntryLoc {pset : List Part} {z0 : State} {s : State} {chan : Nat} {frm : Nat} {dest : Nat} (h_gate :
    Part.gate ∈ pset) (hk : Keeps pset z0 s) : Keeps pset z0 (Machine.gateEntryLoc s chan frm dest) := by
  unfold Machine.gateEntryLoc
  repeat' (first
    | with_reducible first
      | assumption | apply K.gateEntriesPut h_gate | refine Keeps.ite (fun _ => ?_) (fun _ => ?_)
    | intro _ _ | dsimp only | split)

theorem gateEntryDrop {pset : List Part} {z0 : State} {s : State} {chan : Nat} {tag : Nat} (h_gate : Part.gate ∈
    pset) (hk : Keeps pset z0 s) : Keeps pset z0 (Machine.gateEntryDrop s chan tag) := by
  unfold Machine.gateEntryDrop
  repeat' (first
    | with_reducible first
      | assumption | apply K.gateEntriesPut h_gate
    | intro _ _)

theorem gateEntryUnload {pset : List Part} {z0 : State} {s : State} {chan : Nat} (h_mdb : Part.mdb ∈ pset) (hk :
    Keeps pset z0 s) : Keeps pset z0 (Machine.gateEntryUnload s chan) := by
  unfold Machine.gateEntryUnload
  repeat' (first
    | with_reducible first
      | assumption | refine Keeps.ite (fun _ => ?_) (fun _ => ?_)
    | intro _ _ | dsimp only | split | simp only [Keeps.lit_mdb h_mdb])

theorem gateEntryEnd {pset : List Part} {z0 : State} {s : State} {chan : Nat} {g : GEnt} {code : Nat} (h_regs :
    Part.regs ∈ pset) (h_cnts : Part.cnts ∈ pset) (h_free : Part.free ∈ pset) (h_mem : Part.mem ∈ pset) (h_outs :
    Part.outs ∈ pset) (h_intc : Part.intc ∈ pset) (h_sw : Part.sw ∈ pset) (h_gate : Part.gate ∈ pset) (h_vlt :
    Part.vlt ∈ pset) (h_bnk : Part.bnk ∈ pset) (h_mdb : Part.mdb ∈ pset) (hk : Keeps pset z0 s) : Keeps pset z0
    (Machine.gateEntryEnd s chan g code) := by
  unfold Machine.gateEntryEnd
  repeat' (first
    | with_reducible first
      | assumption | apply K.releasedEnd h_regs h_cnts h_free h_mem h_outs h_intc h_sw h_gate h_vlt h_bnk
      | apply K.gateEntrySet h_gate | apply K.gateEntryDrop h_gate | apply K.gateEntryUnload h_mdb
      | refine Keeps.ite (fun _ => ?_) (fun _ => ?_)
    | intro _ _ | dsimp only | split)

theorem gateEntryBack {pset : List Part} {z0 : State} {s : State} {chan : Nat} {tag : Nat} (h_regs : Part.regs ∈
    pset) (h_cnts : Part.cnts ∈ pset) (h_free : Part.free ∈ pset) (h_mem : Part.mem ∈ pset) (h_outs : Part.outs ∈
    pset) (h_intc : Part.intc ∈ pset) (h_sw : Part.sw ∈ pset) (h_gate : Part.gate ∈ pset) (h_vlt : Part.vlt ∈ pset)
    (h_bnk : Part.bnk ∈ pset) (hk : Keeps pset z0 s) : Keeps pset z0 (Machine.gateEntryBack s chan tag) := by
  unfold Machine.gateEntryBack
  repeat' (first
    | with_reducible first
      | assumption | apply K.releasedEnd h_regs h_cnts h_free h_mem h_outs h_intc h_sw h_gate h_vlt h_bnk
      | apply K.gateEntriesPut h_gate | apply K.gateEntryDrop h_gate
    | intro _ _ | dsimp only | split)

theorem gateEntryEndAll {pset : List Part} {z0 : State} {s : State} {p : GEnt → Bool} {code : Nat} (h_regs :
    Part.regs ∈ pset) (h_cnts : Part.cnts ∈ pset) (h_free : Part.free ∈ pset) (h_mem : Part.mem ∈ pset) (h_outs :
    Part.outs ∈ pset) (h_intc : Part.intc ∈ pset) (h_sw : Part.sw ∈ pset) (h_gate : Part.gate ∈ pset) (h_vlt :
    Part.vlt ∈ pset) (h_bnk : Part.bnk ∈ pset) (h_mdb : Part.mdb ∈ pset) (hk : Keeps pset z0 s) : Keeps pset z0
    (Machine.gateEntryEndAll s p code) := by
  unfold Machine.gateEntryEndAll
  repeat' (first
    | with_reducible first
      | assumption | apply K.gateEntryEnd h_regs h_cnts h_free h_mem h_outs h_intc h_sw h_gate h_vlt h_bnk h_mdb
      | refine Keeps.foldl (fun _ _ _ => ?_) ?_ | refine Keeps.foldlFst (fun _ _ _ => ?_) ?_
    | intro _ _ | dsimp only)

theorem gateHold {pset : List Part} {z0 : State} {chan : Nat} {s : State} (h_regs : Part.regs ∈ pset) (h_cnts :
    Part.cnts ∈ pset) (h_free : Part.free ∈ pset) (h_mem : Part.mem ∈ pset) (h_outs : Part.outs ∈ pset) (h_intc :
    Part.intc ∈ pset) (h_sys : Part.sys ∈ pset) (h_sw : Part.sw ∈ pset) (h_gate : Part.gate ∈ pset) (h_vlt : Part.vlt
    ∈ pset) (h_bnk : Part.bnk ∈ pset) (h_mdb : Part.mdb ∈ pset) (h_time : Part.time ∈ pset) (h_pwr : Part.pwr ∈ pset)
    (hk : Keeps pset z0 s) : Keeps pset z0 (Machine.gateHold chan s) := by
  unfold Machine.gateHold
  repeat' (first
    | with_reducible first
      | assumption | apply K.advanceNs h_cnts h_sys h_time h_pwr
      | apply K.gateEntryEnd h_regs h_cnts h_free h_mem h_outs h_intc h_sw h_gate h_vlt h_bnk h_mdb
      | refine Keeps.ite (fun _ => ?_) (fun _ => ?_)
    | dsimp only | split)

end Sys2Proof.Laws.K
end

