-- ==== Sys2Proof/Laws/KeepsGate.lean ====
section
/-! SUPPORT. What the operations of `Machine/Gate.lean` keep. -/

namespace Sys2Proof.Laws.K

open Sys2Proof Sys2Proof.Machine Sys2Proof.Laws

theorem gateItem {pset : List Part} {z0 : State} {s : State} {fid : Nat} {f : Frame} (h_regs : Part.regs ∈ pset)
    (h_cnts : Part.cnts ∈ pset) (h_free : Part.free ∈ pset) (h_mem : Part.mem ∈ pset) (h_outs : Part.outs ∈ pset)
    (h_intc : Part.intc ∈ pset) (h_sw : Part.sw ∈ pset) (h_gate : Part.gate ∈ pset) (h_bnk : Part.bnk ∈ pset) (hk :
    Keeps pset z0 s) : Keeps pset z0 (Machine.gateItem s fid f) := by
  unfold Machine.gateItem
  repeat' (first
    | with_reducible first
      | assumption | apply K.setR h_regs | apply K.unref h_regs h_mem h_outs h_intc h_sw h_bnk
      | apply K.itemEnd h_regs h_cnts h_free h_mem h_outs h_intc h_sw h_gate h_bnk
      | apply K.pendLevel h_regs h_outs h_intc | refine Keeps.ite (fun _ => ?_) (fun _ => ?_)
    | intro _ _ | dsimp only | split | simp only [Keeps.lit_gate h_gate])

theorem gateAdmit {pset : List Part} {z0 : State} {rf0 : ReadFault} {s : State} (h_regs : Part.regs ∈ pset)
    (h_cnts : Part.cnts ∈ pset) (h_free : Part.free ∈ pset) (h_mem : Part.mem ∈ pset) (h_outs : Part.outs ∈ pset)
    (h_intc : Part.intc ∈ pset) (h_sw : Part.sw ∈ pset) (h_gate : Part.gate ∈ pset) (h_bnk : Part.bnk ∈ pset) (hk :
    Keeps pset z0 s) : Keeps pset z0 (Machine.gateAdmit rf0 s) := by
  unfold Machine.gateAdmit
  repeat' (first
    | with_reducible first
      | assumption | apply K.unref h_regs h_mem h_outs h_intc h_sw h_bnk
      | apply K.dropStored h_regs h_cnts h_mem h_outs h_intc h_sw h_bnk
      | apply K.gateItem h_regs h_cnts h_free h_mem h_outs h_intc h_sw h_gate h_bnk
      | refine Keeps.ite (fun _ => ?_) (fun _ => ?_)
    | intro _ _ | dsimp only | split | simp only [Keeps.lit_sw h_sw])

theorem pendPhase {pset : List Part} {z0 : State} {s : State} {tag : Nat} {p : PPhase} (h_gate : Part.gate ∈ pset)
    (hk : Keeps pset z0 s) : Keeps pset z0 (Machine.pendPhase s tag p) := by
  unfold Machine.pendPhase
  repeat' (first
    | with_reducible first
      | assumption | refine Keeps.ite (fun _ => ?_) (fun _ => ?_)
    | intro _ _ | dsimp only | split | simp only [Keeps.lit_gate h_gate])

theorem svcRead {pset : List Part} {z0 : State} {s : State} {n : Nat} {a : Nat} {len : Nat} (h_regs : Part.regs ∈
    pset) (h_outs : Part.outs ∈ pset) (h_intc : Part.intc ∈ pset) (hk : Keeps pset z0 s) : Keeps pset z0
    (Machine.svcRead s n a len).1 := by
  unfold Machine.svcRead
  repeat' (first
    | with_reducible first
      | assumption | apply K.fabRead h_regs h_outs h_intc
    | dsimp only)

theorem svcWrite {pset : List Part} {z0 : State} {s : State} {n : Nat} {a : Nat} {b : List Byte} (h_regs :
    Part.regs ∈ pset) (h_mem : Part.mem ∈ pset) (h_outs : Part.outs ∈ pset) (h_intc : Part.intc ∈ pset) (h_bnk :
    Part.bnk ∈ pset) (hk : Keeps pset z0 s) : Keeps pset z0 (Machine.svcWrite s n a b).1 := by
  unfold Machine.svcWrite
  repeat' (first
    | with_reducible first
      | assumption | apply K.fabWrite h_regs h_mem h_outs h_intc h_bnk
    | dsimp only)

theorem svcEnd {pset : List Part} {z0 : State} {s : State} {n : Nat} {addr : Nat} {st : Nat} (h_regs : Part.regs ∈
    pset) (h_mem : Part.mem ∈ pset) (h_outs : Part.outs ∈ pset) (h_intc : Part.intc ∈ pset) (h_bnk : Part.bnk ∈ pset)
    (hk : Keeps pset z0 s) : Keeps pset z0 (Machine.svcEnd s n addr st) := by
  unfold Machine.svcEnd
  repeat' (first
    | with_reducible first
      | assumption | apply K.raiseEvent h_regs | apply K.raiseIrq h_regs h_outs h_intc
      | apply K.svcWrite h_regs h_mem h_outs h_intc h_bnk | refine Keeps.ite (fun _ => ?_) (fun _ => ?_)
    | dsimp only | split)

theorem svcFinish {pset : List Part} {z0 : State} {s : State} {r : SvcReq} {st : Nat} (h_regs : Part.regs ∈ pset)
    (h_mem : Part.mem ∈ pset) (h_outs : Part.outs ∈ pset) (h_intc : Part.intc ∈ pset) (h_gate : Part.gate ∈ pset)
    (h_bnk : Part.bnk ∈ pset) (hk : Keeps pset z0 s) : Keeps pset z0 (Machine.svcFinish s r st) := by
  unfold Machine.svcFinish
  repeat' (first
    | with_reducible first
      | assumption | apply K.svcEnd h_regs h_mem h_outs h_intc h_bnk
    | dsimp only | simp only [Keeps.lit_gate h_gate])

theorem svcPost {pset : List Part} {z0 : State} {n : Nat} {addr : Nat} {s : State} (h_regs : Part.regs ∈ pset)
    (h_mem : Part.mem ∈ pset) (h_outs : Part.outs ∈ pset) (h_intc : Part.intc ∈ pset) (h_gate : Part.gate ∈ pset)
    (h_bnk : Part.bnk ∈ pset) (hk : Keeps pset z0 s) : Keeps pset z0 (Machine.svcPost n addr s) := by
  unfold Machine.svcPost
  repeat' (first
    | with_reducible first
      | assumption | apply K.svcRead h_regs h_outs h_intc | apply K.svcEnd h_regs h_mem h_outs h_intc h_bnk
      | refine Keeps.ite (fun _ => ?_) (fun _ => ?_)
    | intro _ _ | dsimp only | split | simp only [Keeps.lit_gate h_gate])

theorem svcTake {pset : List Part} {z0 : State} {s : State} {u : Nat} (h_regs : Part.regs ∈ pset) (h_mem :
    Part.mem ∈ pset) (h_outs : Part.outs ∈ pset) (h_intc : Part.intc ∈ pset) (h_gate : Part.gate ∈ pset) (h_bnk :
    Part.bnk ∈ pset) (hk : Keeps pset z0 s) : Keeps pset z0 (Machine.svcTake s u) := by
  unfold Machine.svcTake
  repeat' (first
    | with_reducible first
      | assumption | apply K.svcFinish h_regs h_mem h_outs h_intc h_gate h_bnk
      | refine Keeps.ite (fun _ => ?_) (fun _ => ?_)
    | intro _ _ | dsimp only | split | simp only [Keeps.lit_gate h_gate])

theorem unitTake {pset : List Part} {z0 : State} {c : UnitClass} {s : State} (h_regs : Part.regs ∈ pset) (h_mem :
    Part.mem ∈ pset) (h_outs : Part.outs ∈ pset) (h_intc : Part.intc ∈ pset) (h_gate : Part.gate ∈ pset) (h_bnk :
    Part.bnk ∈ pset) (hk : Keeps pset z0 s) : Keeps pset z0 (Machine.unitTake c s) := by
  unfold Machine.unitTake
  repeat' (first
    | with_reducible first
      | assumption | apply K.pendPhase h_gate | apply K.svcTake h_regs h_mem h_outs h_intc h_gate h_bnk
      | refine Keeps.ite (fun _ => ?_) (fun _ => ?_)
    | intro _ _ | dsimp only | split)

theorem svcDone {pset : List Part} {z0 : State} {lane : Nat} {s : State} (h_regs : Part.regs ∈ pset) (h_mem :
    Part.mem ∈ pset) (h_outs : Part.outs ∈ pset) (h_intc : Part.intc ∈ pset) (h_gate : Part.gate ∈ pset) (h_bnk :
    Part.bnk ∈ pset) (hk : Keeps pset z0 s) : Keeps pset z0 (Machine.svcDone lane s) := by
  unfold Machine.svcDone
  repeat' (first
    | with_reducible first
      | assumption | apply K.svcRead h_regs h_outs h_intc | apply K.svcWrite h_regs h_mem h_outs h_intc h_bnk
      | apply K.svcFinish h_regs h_mem h_outs h_intc h_gate h_bnk | refine Keeps.ite (fun _ => ?_) (fun _ => ?_)
    | intro _ _ | dsimp only | split)

theorem svcEndAll {pset : List Part} {z0 : State} {s : State} {n : Nat} (h_regs : Part.regs ∈ pset) (h_mem :
    Part.mem ∈ pset) (h_outs : Part.outs ∈ pset) (h_intc : Part.intc ∈ pset) (h_gate : Part.gate ∈ pset) (h_bnk :
    Part.bnk ∈ pset) (hk : Keeps pset z0 s) : Keeps pset z0 (Machine.svcEndAll s n) := by
  unfold Machine.svcEndAll
  repeat' (first
    | with_reducible first
      | assumption | apply K.svcFinish h_regs h_mem h_outs h_intc h_gate h_bnk
      | refine Keeps.foldl (fun _ _ _ => ?_) ?_
    | intro _ _)

theorem sigResult {pset : List Part} {z0 : State} {tag : Nat} {ok : Bool} {s : State} (h_gate : Part.gate ∈ pset)
    (hk : Keeps pset z0 s) : Keeps pset z0 (Machine.sigResult tag ok s) := by
  unfold Machine.sigResult
  repeat' (first
    | with_reducible first
      | assumption | apply K.pendPhase h_gate
    | intro _ _ | dsimp only | split)

theorem passEntry {pset : List Part} {z0 : State} {s : State} {e : PEnt} (h_regs : Part.regs ∈ pset) (h_outs :
    Part.outs ∈ pset) (h_intc : Part.intc ∈ pset) (h_gate : Part.gate ∈ pset) (h_vlt : Part.vlt ∈ pset) (hk : Keeps
    pset z0 s) : Keeps pset z0 (Machine.passEntry s e) := by
  unfold Machine.passEntry
  repeat' (first
    | with_reducible first
      | assumption | apply K.vAsk h_vlt | apply K.jRelease h_regs h_outs h_intc h_gate h_vlt | apply K.markWrite h_vlt
      | apply K.catSet h_gate | apply K.pendLevel h_regs h_outs h_intc | refine Keeps.ite (fun _ => ?_) (fun _ => ?_)
    | intro _ _ | dsimp only | split | simp only [Keeps.lit_gate h_gate])

theorem verdictOf {pset : List Part} {z0 : State} {tag : Nat} {s : State} (h_regs : Part.regs ∈ pset) (h_cnts :
    Part.cnts ∈ pset) (h_free : Part.free ∈ pset) (h_mem : Part.mem ∈ pset) (h_outs : Part.outs ∈ pset) (h_intc :
    Part.intc ∈ pset) (h_sw : Part.sw ∈ pset) (h_gate : Part.gate ∈ pset) (h_vlt : Part.vlt ∈ pset) (h_bnk : Part.bnk
    ∈ pset) (hk : Keeps pset z0 s) : Keeps pset z0 (Machine.verdictOf tag s) := by
  unfold Machine.verdictOf
  repeat' (first
    | with_reducible first
      | assumption | apply K.markWrite h_vlt
      | apply K.pendEnd h_regs h_cnts h_free h_mem h_outs h_intc h_sw h_gate h_bnk | apply K.pendPhase h_gate
      | apply K.passEntry h_regs h_outs h_intc h_gate h_vlt | refine Keeps.ite (fun _ => ?_) (fun _ => ?_)
    | intro _ _ | dsimp only | split)

theorem emitInner {pset : List Part} {z0 : State} {s : State} {r : REnt} (h_regs : Part.regs ∈ pset) (h_cnts :
    Part.cnts ∈ pset) (h_free : Part.free ∈ pset) (h_mem : Part.mem ∈ pset) (h_outs : Part.outs ∈ pset) (h_intc :
    Part.intc ∈ pset) (h_sys : Part.sys ∈ pset) (h_sw : Part.sw ∈ pset) (h_gate : Part.gate ∈ pset) (h_vlt : Part.vlt
    ∈ pset) (h_bnk : Part.bnk ∈ pset) (hk : Keeps pset z0 s) : Keeps pset z0 (Machine.emitInner s r) := by
  unfold Machine.emitInner
  repeat' (first
    | with_reducible first
      | assumption | apply K.swIngress h_regs h_cnts h_free h_mem h_outs h_intc h_sw h_bnk
      | apply K.releasedEnd h_regs h_cnts h_free h_mem h_outs h_intc h_sw h_gate h_vlt h_bnk | apply K.relPhase h_gate
      | apply K.gateEntriesPut h_gate | refine Keeps.ite (fun _ => ?_) (fun _ => ?_)
    | dsimp only | split | refine Keeps.ofFst (by with_reducible assumption) ?_
    | refine Keeps.ofSnd (by with_reducible assumption) ?_ | simp only [Keeps.lit_sys h_sys])

theorem releaseDurable {pset : List Part} {z0 : State} {tag : Nat} {s : State} (h_regs : Part.regs ∈ pset) (h_cnts
    : Part.cnts ∈ pset) (h_free : Part.free ∈ pset) (h_mem : Part.mem ∈ pset) (h_outs : Part.outs ∈ pset) (h_intc :
    Part.intc ∈ pset) (h_sys : Part.sys ∈ pset) (h_sw : Part.sw ∈ pset) (h_gate : Part.gate ∈ pset) (h_vlt : Part.vlt
    ∈ pset) (h_bnk : Part.bnk ∈ pset) (hk : Keeps pset z0 s) : Keeps pset z0 (Machine.releaseDurable tag s) := by
  unfold Machine.releaseDurable
  repeat' (first
    | with_reducible first
      | assumption | apply K.unref h_regs h_mem h_outs h_intc h_sw h_bnk | apply K.vGone h_vlt
      | apply K.emitInner h_regs h_cnts h_free h_mem h_outs h_intc h_sys h_sw h_gate h_vlt h_bnk
      | refine Keeps.ite (fun _ => ?_) (fun _ => ?_)
    | intro _ _ | dsimp only | split | simp only [Keeps.lit_gate h_gate])

theorem withdrawPost {pset : List Part} {z0 : State} {s : State} {w : Withdraw} (h_sw : Part.sw ∈ pset) (hk :
    Keeps pset z0 s) : Keeps pset z0 (Machine.withdrawPost s w) := by
  unfold Machine.withdrawPost
  repeat' (first
    | with_reducible first
      | assumption | refine Keeps.ite (fun _ => ?_) (fun _ => ?_)
    | dsimp only | split | simp only [Keeps.lit_sw h_sw])

theorem passedEndAll {pset : List Part} {z0 : State} {s : State} {p : REnt → Bool} {code : Nat} (h_regs :
    Part.regs ∈ pset) (h_cnts : Part.cnts ∈ pset) (h_free : Part.free ∈ pset) (h_mem : Part.mem ∈ pset) (h_outs :
    Part.outs ∈ pset) (h_intc : Part.intc ∈ pset) (h_sw : Part.sw ∈ pset) (h_gate : Part.gate ∈ pset) (h_vlt :
    Part.vlt ∈ pset) (h_bnk : Part.bnk ∈ pset) (hk : Keeps pset z0 s) : Keeps pset z0 (Machine.passedEndAll s p code)
    := by
  unfold Machine.passedEndAll
  repeat' (first
    | with_reducible first
      | assumption | apply K.releasedEnd h_regs h_cnts h_free h_mem h_outs h_intc h_sw h_gate h_vlt h_bnk
      | refine Keeps.foldl (fun _ _ _ => ?_) ?_
    | intro _ _)

theorem lockdownBegin {pset : List Part} {z0 : State} {s : State} (h_regs : Part.regs ∈ pset) (h_cnts : Part.cnts
    ∈ pset) (h_free : Part.free ∈ pset) (h_mem : Part.mem ∈ pset) (h_outs : Part.outs ∈ pset) (h_intc : Part.intc ∈
    pset) (h_sw : Part.sw ∈ pset) (h_gate : Part.gate ∈ pset) (h_vlt : Part.vlt ∈ pset) (h_bnk : Part.bnk ∈ pset)
    (h_mdb : Part.mdb ∈ pset) (hk : Keeps pset z0 s) : Keeps pset z0 (Machine.lockdownBegin s) := by
  unfold Machine.lockdownBegin
  repeat' (first
    | with_reducible first
      | assumption | apply K.putB h_regs | apply K.raiseIrq h_regs h_outs h_intc
      | apply K.gateEntryEndAll h_regs h_cnts h_free h_mem h_outs h_intc h_sw h_gate h_vlt h_bnk h_mdb
      | apply K.withdrawPost h_sw
      | apply K.passedEndAll h_regs h_cnts h_free h_mem h_outs h_intc h_sw h_gate h_vlt h_bnk
      | refine Keeps.ite (fun _ => ?_) (fun _ => ?_)
    | intro _ _ | dsimp only | split)

theorem lockdownEnd {pset : List Part} {z0 : State} {s : State} (h_regs : Part.regs ∈ pset) (h_outs : Part.outs ∈
    pset) (h_intc : Part.intc ∈ pset) (hk : Keeps pset z0 s) : Keeps pset z0 (Machine.lockdownEnd s) := by
  unfold Machine.lockdownEnd
  repeat' (first
    | with_reducible first
      | assumption | apply K.putB h_regs | apply K.raiseIrq h_regs h_outs h_intc
      | refine Keeps.ite (fun _ => ?_) (fun _ => ?_)
    | split)

theorem poolZero {pset : List Part} {z0 : State} {s : State} {e : CatEnt} (h_gate : Part.gate ∈ pset) (hk : Keeps
    pset z0 s) : Keeps pset z0 (Machine.poolZero s e) := by
  unfold Machine.poolZero
  repeat' (first
    | with_reducible first
      | assumption
    | intro _ _ | dsimp only | simp only [Keeps.lit_gate h_gate])

theorem revokeEntry {pset : List Part} {z0 : State} {s : State} {i : Nat} (h_regs : Part.regs ∈ pset) (h_cnts :
    Part.cnts ∈ pset) (h_free : Part.free ∈ pset) (h_mem : Part.mem ∈ pset) (h_outs : Part.outs ∈ pset) (h_intc :
    Part.intc ∈ pset) (h_sw : Part.sw ∈ pset) (h_gate : Part.gate ∈ pset) (h_vlt : Part.vlt ∈ pset) (h_bnk : Part.bnk
    ∈ pset) (h_mdb : Part.mdb ∈ pset) (hk : Keeps pset z0 s) : Keeps pset z0 (Machine.revokeEntry s i) := by
  unfold Machine.revokeEntry
  repeat' (first
    | with_reducible first
      | assumption | apply K.catSet h_gate
      | apply K.pendEndAll h_regs h_cnts h_free h_mem h_outs h_intc h_sw h_gate h_bnk
      | apply K.gateEntryEndAll h_regs h_cnts h_free h_mem h_outs h_intc h_sw h_gate h_vlt h_bnk h_mdb
      | apply K.withdrawPost h_sw
      | apply K.passedEndAll h_regs h_cnts h_free h_mem h_outs h_intc h_sw h_gate h_vlt h_bnk
      | apply K.poolZero h_gate
    | intro _ _ | dsimp only)

theorem scansOver {pset : List Part} {z0 : State} {s : State} (h_regs : Part.regs ∈ pset) (h_outs : Part.outs ∈
    pset) (h_intc : Part.intc ∈ pset) (h_gate : Part.gate ∈ pset) (h_vlt : Part.vlt ∈ pset) (hk : Keeps pset z0 s) :
    Keeps pset z0 (Machine.scansOver s) := by
  unfold Machine.scansOver
  repeat' (first
    | with_reducible first
      | assumption | apply K.raiseIrq h_regs h_outs h_intc | apply K.vAsk h_vlt
      | apply K.jRecord h_regs h_outs h_intc h_gate h_vlt | refine Keeps.ite (fun _ => ?_) (fun _ => ?_)
    | dsimp only | split | refine Keeps.ofFst (by with_reducible assumption) ?_
    | refine Keeps.ofSnd (by with_reducible assumption) ?_ | simp only [Keeps.lit_gate h_gate])

theorem catEnd {pset : List Part} {z0 : State} {s : State} {st : Nat} (h_regs : Part.regs ∈ pset) (h_outs :
    Part.outs ∈ pset) (h_intc : Part.intc ∈ pset) (hk : Keeps pset z0 s) : Keeps pset z0 (Machine.catEnd s st) := by
  unfold Machine.catEnd
  repeat' (first
    | with_reducible first
      | assumption | apply K.setR h_regs | apply K.raiseIrq h_regs h_outs h_intc)

theorem catStart {pset : List Part} {z0 : State} {s : State} {op : Nat} {i : Nat} (h_regs : Part.regs ∈ pset)
    (h_gate : Part.gate ∈ pset) (h_vlt : Part.vlt ∈ pset) (hk : Keeps pset z0 s) : Keeps pset z0 (Machine.catStart s
    op i) := by
  unfold Machine.catStart
  repeat' (first
    | with_reducible first
      | assumption | apply K.setR h_regs | apply K.vAsk h_vlt | refine Keeps.ite (fun _ => ?_) (fun _ => ?_)
    | dsimp only | split | simp only [Keeps.lit_gate h_gate])

theorem catInstall {pset : List Part} {z0 : State} {i : Nat} {s : State} (h_regs : Part.regs ∈ pset) (h_outs :
    Part.outs ∈ pset) (h_intc : Part.intc ∈ pset) (h_gate : Part.gate ∈ pset) (h_vlt : Part.vlt ∈ pset) (hk : Keeps
    pset z0 s) : Keeps pset z0 (Machine.catInstall i s) := by
  unfold Machine.catInstall
  repeat' (first
    | with_reducible first
      | assumption | apply K.markWrite h_vlt | apply K.catSet h_gate | apply K.catEnd h_regs h_outs h_intc
      | apply K.catStart h_regs h_gate h_vlt | refine Keeps.ite (fun _ => ?_) (fun _ => ?_)
    | dsimp only | split)

theorem catCmd {pset : List Part} {z0 : State} {v : Word} {s : State} (h_regs : Part.regs ∈ pset) (h_cnts :
    Part.cnts ∈ pset) (h_free : Part.free ∈ pset) (h_mem : Part.mem ∈ pset) (h_outs : Part.outs ∈ pset) (h_intc :
    Part.intc ∈ pset) (h_sw : Part.sw ∈ pset) (h_gate : Part.gate ∈ pset) (h_vlt : Part.vlt ∈ pset) (h_bnk : Part.bnk
    ∈ pset) (h_mdb : Part.mdb ∈ pset) (hk : Keeps pset z0 s) : Keeps pset z0 (Machine.catCmd v s) := by
  unfold Machine.catCmd
  repeat' (first
    | with_reducible first
      | assumption | apply K.setR h_regs | apply K.catSet h_gate
      | apply K.revokeEntry h_regs h_cnts h_free h_mem h_outs h_intc h_sw h_gate h_vlt h_bnk h_mdb
      | apply K.scansOver h_regs h_outs h_intc h_gate h_vlt | apply K.catEnd h_regs h_outs h_intc
      | apply K.catStart h_regs h_gate h_vlt | apply K.catInstall h_regs h_outs h_intc h_gate h_vlt
      | refine Keeps.ite (fun _ => ?_) (fun _ => ?_) | refine Keeps.foldl (fun _ _ _ => ?_) ?_
      | refine Keeps.foldlFst (fun _ _ _ => ?_) ?_
    | intro _ _ | dsimp only | split | simp only [Keeps.lit_gate h_gate])

theorem poolPageWrite {pset : List Part} {z0 : State} {s : State} {p : Nat} (h_regs : Part.regs ∈ pset) (h_free :
    Part.free ∈ pset) (h_outs : Part.outs ∈ pset) (h_intc : Part.intc ∈ pset) (h_vlt : Part.vlt ∈ pset) (hk : Keeps
    pset z0 s) : Keeps pset z0 (Machine.poolPageWrite s p) := by
  unfold Machine.poolPageWrite
  repeat' (first
    | with_reducible first
      | assumption | apply K.fresh h_free | apply K.wearTo h_regs h_outs h_intc
      | apply K.rowsWrite h_regs h_outs h_intc h_vlt | refine Keeps.foldl (fun _ _ _ => ?_) ?_
      | refine Keeps.foldlFst (fun _ _ _ => ?_) ?_
    | intro _ _ | dsimp only | simp only [Keeps.lit_vlt h_vlt])

theorem catPersist {pset : List Part} {z0 : State} {s : State} {op : Nat} {i : Nat} (h_regs : Part.regs ∈ pset)
    (h_free : Part.free ∈ pset) (h_outs : Part.outs ∈ pset) (h_intc : Part.intc ∈ pset) (h_vlt : Part.vlt ∈ pset) (hk
    : Keeps pset z0 s) : Keeps pset z0 (Machine.catPersist s op i) := by
  unfold Machine.catPersist
  repeat' (first
    | with_reducible first
      | assumption | apply K.rowsWrite h_regs h_outs h_intc h_vlt | apply K.markStore h_regs h_outs h_intc h_vlt
      | apply K.poolPageWrite h_regs h_free h_outs h_intc h_vlt | refine Keeps.ite (fun _ => ?_) (fun _ => ?_)
      | refine Keeps.foldl (fun _ _ _ => ?_) ?_
    | dsimp only | split | simp only [Keeps.lit_vlt h_vlt])

theorem catDurable {pset : List Part} {z0 : State} {s : State} (h_regs : Part.regs ∈ pset) (h_free : Part.free ∈
    pset) (h_outs : Part.outs ∈ pset) (h_intc : Part.intc ∈ pset) (h_gate : Part.gate ∈ pset) (h_vlt : Part.vlt ∈
    pset) (hk : Keeps pset z0 s) : Keeps pset z0 (Machine.catDurable s) := by
  unfold Machine.catDurable
  repeat' (first
    | with_reducible first
      | assumption | apply K.vGone h_vlt | apply K.catEnd h_regs h_outs h_intc
      | apply K.catPersist h_regs h_free h_outs h_intc h_vlt | refine Keeps.ite (fun _ => ?_) (fun _ => ?_)
    | dsimp only | split | refine Keeps.ofFst (by with_reducible assumption) ?_
    | refine Keeps.ofSnd (by with_reducible assumption) ?_ | simp only [Keeps.lit_gate h_gate])

theorem sieveCmd {pset : List Part} {z0 : State} {v : Word} {s : State} (h_regs : Part.regs ∈ pset) (h_outs :
    Part.outs ∈ pset) (h_intc : Part.intc ∈ pset) (h_gate : Part.gate ∈ pset) (hk : Keeps pset z0 s) : Keeps pset z0
    (Machine.sieveCmd v s) := by
  unfold Machine.sieveCmd
  repeat' (first
    | with_reducible first
      | assumption | apply K.setR h_regs | apply K.raiseIrq h_regs h_outs h_intc
      | refine Keeps.ite (fun _ => ?_) (fun _ => ?_) | refine Keeps.foldl (fun _ _ _ => ?_) ?_
      | refine Keeps.foldlFst (fun _ _ _ => ?_) ?_
    | intro _ _ | dsimp only | split | simp only [Keeps.lit_gate h_gate])

theorem poolWrite {pset : List Part} {z0 : State} {m : Master} {w : Nat} {v : Word} {s : State} (h_regs :
    Part.regs ∈ pset) (h_outs : Part.outs ∈ pset) (h_intc : Part.intc ∈ pset) (h_gate : Part.gate ∈ pset) (hk : Keeps
    pset z0 s) : Keeps pset z0 (Machine.poolWrite m w v s) := by
  unfold Machine.poolWrite
  repeat' (first
    | with_reducible first
      | assumption | apply K.recErr h_regs h_outs h_intc | refine Keeps.ite (fun _ => ?_) (fun _ => ?_)
      | refine Keeps.foldl (fun _ _ _ => ?_) ?_
    | intro _ _ | dsimp only | split | simp only [Keeps.lit_gate h_gate])

theorem vrSize {pset : List Part} {z0 : State} {v : Word} {s : State} (h_regs : Part.regs ∈ pset) (h_mem :
    Part.mem ∈ pset) (h_outs : Part.outs ∈ pset) (h_intc : Part.intc ∈ pset) (h_gate : Part.gate ∈ pset) (h_bnk :
    Part.bnk ∈ pset) (hk : Keeps pset z0 s) : Keeps pset z0 (Machine.vrSize v s) := by
  unfold Machine.vrSize
  repeat' (first
    | with_reducible first
      | assumption | apply K.setR h_regs | apply K.vrPut h_regs h_mem h_outs h_intc h_gate h_bnk
      | refine Keeps.ite (fun _ => ?_) (fun _ => ?_) | refine Keeps.foldl (fun _ _ _ => ?_) ?_
      | refine Keeps.foldlFst (fun _ _ _ => ?_) ?_
    | intro _ _ | dsimp only | split | simp only [Keeps.lit_gate h_gate])

theorem supplyMarks {pset : List Part} {z0 : State} {s : State} (h_vlt : Part.vlt ∈ pset) (hk : Keeps pset z0 s) :
    Keeps pset z0 (Machine.supplyMarks s) := by
  unfold Machine.supplyMarks
  repeat' (first
    | with_reducible first
      | assumption | apply K.markSupply h_vlt | refine Keeps.foldl (fun _ _ _ => ?_) ?_
      | refine Keeps.foldlFst (fun _ _ _ => ?_) ?_
    | intro _ _ | dsimp only)

theorem gateSupply {pset : List Part} {z0 : State} {s : State} (h_regs : Part.regs ∈ pset) (h_cnts : Part.cnts ∈
    pset) (h_free : Part.free ∈ pset) (h_mem : Part.mem ∈ pset) (h_outs : Part.outs ∈ pset) (h_intc : Part.intc ∈
    pset) (h_sw : Part.sw ∈ pset) (h_gate : Part.gate ∈ pset) (h_vlt : Part.vlt ∈ pset) (h_bnk : Part.bnk ∈ pset) (hk
    : Keeps pset z0 s) : Keeps pset z0 (Machine.gateSupply s) := by
  unfold Machine.gateSupply
  repeat' (first
    | with_reducible first
      | assumption | apply K.putB h_regs | apply K.raiseIrq h_regs h_outs h_intc
      | apply K.pendEndAll h_regs h_cnts h_free h_mem h_outs h_intc h_sw h_gate h_bnk
      | apply K.svcFinish h_regs h_mem h_outs h_intc h_gate h_bnk | apply K.supplyMarks h_vlt
      | refine Keeps.foldl (fun _ _ _ => ?_) ?_
    | intro _ _ | dsimp only | simp only [Keeps.lit_gate h_gate])

theorem supplyRecord {pset : List Part} {z0 : State} {s : State} (h_regs : Part.regs ∈ pset) (h_outs : Part.outs ∈
    pset) (h_intc : Part.intc ∈ pset) (h_gate : Part.gate ∈ pset) (h_vlt : Part.vlt ∈ pset) (hk : Keeps pset z0 s) :
    Keeps pset z0 (Machine.supplyRecord s) := by
  unfold Machine.supplyRecord
  repeat' (first
    | with_reducible first
      | assumption | apply K.jRecord h_regs h_outs h_intc h_gate h_vlt | refine Keeps.ite (fun _ => ?_) (fun _ => ?_)
    | dsimp only | split | simp only [Keeps.lit_gate h_gate])

theorem supplyAbandon {pset : List Part} {z0 : State} {s : State} (h_regs : Part.regs ∈ pset) (h_cnts : Part.cnts
    ∈ pset) (h_free : Part.free ∈ pset) (h_mem : Part.mem ∈ pset) (h_outs : Part.outs ∈ pset) (h_intc : Part.intc ∈
    pset) (h_sys : Part.sys ∈ pset) (h_sw : Part.sw ∈ pset) (h_gate : Part.gate ∈ pset) (h_vlt : Part.vlt ∈ pset)
    (h_bnk : Part.bnk ∈ pset) (h_time : Part.time ∈ pset) (h_pwr : Part.pwr ∈ pset) (hk : Keeps pset z0 s) : Keeps
    pset z0 (Machine.supplyAbandon s) := by
  unfold Machine.supplyAbandon
  repeat' (first
    | with_reducible first
      | assumption | apply K.advanceNs h_cnts h_sys h_time h_pwr
      | apply K.pendEndAll h_regs h_cnts h_free h_mem h_outs h_intc h_sw h_gate h_bnk
      | apply K.supplyRecord h_regs h_outs h_intc h_gate h_vlt | refine Keeps.ite (fun _ => ?_) (fun _ => ?_)
    | intro _ _ | dsimp only | split)

theorem gateSupplyClear {pset : List Part} {z0 : State} {s : State} (h_regs : Part.regs ∈ pset) (h_outs :
    Part.outs ∈ pset) (h_intc : Part.intc ∈ pset) (h_gate : Part.gate ∈ pset) (h_vlt : Part.vlt ∈ pset) (hk : Keeps
    pset z0 s) : Keeps pset z0 (Machine.gateSupplyClear s) := by
  unfold Machine.gateSupplyClear
  repeat' (first
    | with_reducible first
      | assumption | apply K.putB h_regs | apply K.raiseIrq h_regs h_outs h_intc
      | apply K.jRecord h_regs h_outs h_intc h_gate h_vlt | apply K.supplyRecord h_regs h_outs h_intc h_gate h_vlt
      | refine Keeps.ite (fun _ => ?_) (fun _ => ?_)
    | dsimp only | split)

end Sys2Proof.Laws.K
end

