-- ==== Sys2Proof/Laws/KeepsTestPort.lean ====
section
/-! SUPPORT. What the operations of `Machine/TestPort.lean` keep. -/

namespace Sys2Proof.Laws.K

open Sys2Proof Sys2Proof.Machine Sys2Proof.Laws

theorem atbShow {pset : List Part} {z0 : State} {s : State} {b : Nat} {n : Nat} (h_regs : Part.regs ∈ pset) (hk :
    Keeps pset z0 s) : Keeps pset z0 (Machine.atbShow s b n) := by
  unfold Machine.atbShow
  repeat' (first
    | with_reducible first
      | assumption | apply K.putF h_regs)

theorem atbFollow {pset : List Part} {z0 : State} {s : State} (h_regs : Part.regs ∈ pset) (h_outs : Part.outs ∈
    pset) (h_intc : Part.intc ∈ pset) (h_test : Part.test ∈ pset) (hk : Keeps pset z0 s) : Keeps pset z0
    (Machine.atbFollow s) := by
  unfold Machine.atbFollow
  repeat' (first
    | with_reducible first
      | assumption | apply K.putB h_regs | apply K.raiseIrq h_regs h_outs h_intc | apply K.atbShow h_regs
      | refine Keeps.ite (fun _ => ?_) (fun _ => ?_)
    | dsimp only | split | simp only [Keeps.lit_test h_test])

theorem atbSelect {pset : List Part} {z0 : State} {b : Nat} {v : Word} {s : State} (h_regs : Part.regs ∈ pset)
    (h_outs : Part.outs ∈ pset) (h_intc : Part.intc ∈ pset) (h_test : Part.test ∈ pset) (hk : Keeps pset z0 s) : Keeps
    pset z0 (Machine.atbSelect b v s) := by
  unfold Machine.atbSelect
  repeat' (first
    | with_reducible first
      | assumption | apply K.setR h_regs | apply K.satInc h_regs | apply K.raiseIrq h_regs h_outs h_intc
      | apply K.atbShow h_regs | refine Keeps.ite (fun _ => ?_) (fun _ => ?_)
    | dsimp only | split | simp only [Keeps.lit_test h_test])

theorem atbConnect {pset : List Part} {z0 : State} {b : Nat} {s : State} (h_regs : Part.regs ∈ pset) (h_cnts :
    Part.cnts ∈ pset) (h_sys : Part.sys ∈ pset) (h_time : Part.time ∈ pset) (h_pwr : Part.pwr ∈ pset) (h_test :
    Part.test ∈ pset) (hk : Keeps pset z0 s) : Keeps pset z0 (Machine.atbConnect b s) := by
  unfold Machine.atbConnect
  repeat' (first
    | with_reducible first
      | assumption | apply K.advanceNs h_cnts h_sys h_time h_pwr | apply K.atbShow h_regs
    | dsimp only | split | simp only [Keeps.lit_test h_test])

theorem tapLoad {pset : List Part} {z0 : State} {code : Nat} {s : State} (h_test : Part.test ∈ pset) (hk : Keeps
    pset z0 s) : Keeps pset z0 (Machine.tapLoad code s) := by
  unfold Machine.tapLoad
  repeat' (first
    | with_reducible first
      | assumption
    | dsimp only | simp only [Keeps.lit_test h_test])

theorem tapDrive {pset : List Part} {z0 : State} {code : Nat} {s : State} (h_regs : Part.regs ∈ pset) (h_cnts :
    Part.cnts ∈ pset) (h_free : Part.free ∈ pset) (h_mem : Part.mem ∈ pset) (h_outs : Part.outs ∈ pset) (h_intc :
    Part.intc ∈ pset) (h_sys : Part.sys ∈ pset) (h_sw : Part.sw ∈ pset) (h_gate : Part.gate ∈ pset) (h_vlt : Part.vlt
    ∈ pset) (h_bnk : Part.bnk ∈ pset) (h_mdb : Part.mdb ∈ pset) (h_test : Part.test ∈ pset) (hk : Keeps pset z0 s) :
    Keeps pset z0 (Machine.tapDrive code s) := by
  unfold Machine.tapDrive
  repeat' (first
    | with_reducible first
      | assumption | apply K.jRecord h_regs h_outs h_intc h_gate h_vlt
      | apply K.lockdownBegin h_regs h_cnts h_free h_mem h_outs h_intc h_sw h_gate h_vlt h_bnk h_mdb
      | apply K.tapLoad h_test | refine Keeps.ite (fun _ => ?_) (fun _ => ?_)
    | dsimp only | split | simp only [Keeps.lit_sys h_sys])

end Sys2Proof.Laws.K
end

