-- ==== Sys2Proof/Laws/KeepsTns.lean ====
section
/-! SUPPORT. What the operations of `Machine/Tns.lean` keep. -/

namespace Sys2Proof.Laws.K

open Sys2Proof Sys2Proof.Machine Sys2Proof.Laws

theorem toutSet {pset : List Part} {z0 : State} {s : State} {i : Nat} {o : OutSt} (h_time : Part.time ∈ pset) (hk
    : Keeps pset z0 s) : Keeps pset z0 (Machine.toutSet s i o) := by
  unfold Machine.toutSet
  repeat' (first
    | with_reducible first
      | assumption
    | dsimp only | simp only [Keeps.lit_time h_time])

theorem ppsSet {pset : List Part} {z0 : State} {s : State} {j : Nat} {o : PpsSt} (h_time : Part.time ∈ pset) (hk :
    Keeps pset z0 s) : Keeps pset z0 (Machine.ppsSet s j o) := by
  unfold Machine.ppsSet
  repeat' (first
    | with_reducible first
      | assumption
    | dsimp only | simp only [Keeps.lit_time h_time])

theorem refFollow {pset : List Part} {z0 : State} {s : State} (h_regs : Part.regs ∈ pset) (hk : Keeps pset z0 s) :
    Keeps pset z0 (Machine.refFollow s) := by
  unfold Machine.refFollow
  repeat' (first
    | with_reducible first
      | assumption | apply K.putB h_regs | refine Keeps.ite (fun _ => ?_) (fun _ => ?_)
    | dsimp only | split)

theorem refLoss {pset : List Part} {z0 : State} {s : State} (h_regs : Part.regs ∈ pset) (h_outs : Part.outs ∈
    pset) (h_intc : Part.intc ∈ pset) (hk : Keeps pset z0 s) : Keeps pset z0 (Machine.refLoss s) := by
  unfold Machine.refLoss
  repeat' (first
    | with_reducible first
      | assumption | apply K.putB h_regs | apply K.raiseIrq h_regs h_outs h_intc | apply K.refFollow h_regs
      | refine Keeps.ite (fun _ => ?_) (fun _ => ?_)
    | split)

theorem refRegain {pset : List Part} {z0 : State} {s : State} (h_regs : Part.regs ∈ pset) (h_outs : Part.outs ∈
    pset) (h_intc : Part.intc ∈ pset) (hk : Keeps pset z0 s) : Keeps pset z0 (Machine.refRegain s) := by
  unfold Machine.refRegain
  repeat' (first
    | with_reducible first
      | assumption | apply K.putB h_regs | apply K.raiseIrq h_regs h_outs h_intc | apply K.refFollow h_regs
      | refine Keeps.ite (fun _ => ?_) (fun _ => ?_)
    | dsimp only | split)

theorem refCtrl {pset : List Part} {z0 : State} {m : Master} {v : Word} {s : State} (h_regs : Part.regs ∈ pset)
    (h_outs : Part.outs ∈ pset) (h_intc : Part.intc ∈ pset) (hk : Keeps pset z0 s) : Keeps pset z0 (Machine.refCtrl m
    v s) := by
  unfold Machine.refCtrl
  repeat' (first
    | with_reducible first
      | assumption | apply K.plainWrite h_regs h_outs h_intc | apply K.refFollow h_regs)

theorem tbGuarded {pset : List Part} {z0 : State} {m : Master} {b : Nat} {a : Nat} {f : State → State} {s : State}
    (h_regs : Part.regs ∈ pset) (h_outs : Part.outs ∈ pset) (h_intc : Part.intc ∈ pset) (h_f : ∀ u0, Keeps pset z0 u0
    → Keeps pset z0 (f u0)) (hk : Keeps pset z0 s) : Keeps pset z0 (Machine.tbGuarded m b a f s) := by
  unfold Machine.tbGuarded
  repeat' (first
    | with_reducible first
      | assumption | apply h_f | apply K.deny h_regs h_outs h_intc | refine Keeps.ite (fun _ => ?_) (fun _ => ?_)
    | split)

theorem outputsRest {pset : List Part} {z0 : State} {s : State} (h_time : Part.time ∈ pset) (hk : Keeps pset z0 s)
    : Keeps pset z0 (Machine.outputsRest s) := by
  unfold Machine.outputsRest
  repeat' (first
    | with_reducible first
      | assumption | apply K.toutSet h_time | refine Keeps.ite (fun _ => ?_) (fun _ => ?_)
      | refine Keeps.foldl (fun _ _ _ => ?_) ?_
    | intro _ _ | dsimp only | split)

theorem changeValid {pset : List Part} {z0 : State} {s : State} {b : Nat} {v : Bool} (h_regs : Part.regs ∈ pset)
    (h_outs : Part.outs ∈ pset) (h_intc : Part.intc ∈ pset) (h_vlt : Part.vlt ∈ pset) (h_time : Part.time ∈ pset) (hk
    : Keeps pset z0 s) : Keeps pset z0 (Machine.changeValid s b v) := by
  unfold Machine.changeValid
  repeat' (first
    | with_reducible first
      | assumption | apply K.putValid h_regs h_outs h_intc h_vlt | apply K.outputsRest h_time)

theorem tbsInvalid {pset : List Part} {z0 : State} {s : State} (h_regs : Part.regs ∈ pset) (h_outs : Part.outs ∈
    pset) (h_intc : Part.intc ∈ pset) (h_vlt : Part.vlt ∈ pset) (h_time : Part.time ∈ pset) (hk : Keeps pset z0 s) :
    Keeps pset z0 (Machine.tbsInvalid s) := by
  unfold Machine.tbsInvalid
  repeat' (first
    | with_reducible first
      | assumption | apply K.changeValid h_regs h_outs h_intc h_vlt h_time | refine Keeps.foldl (fun _ _ _ => ?_) ?_
    | intro _ _)

theorem tbCtrl {pset : List Part} {z0 : State} {m : Master} {b : Nat} {v : Word} {s : State} (h_regs : Part.regs ∈
    pset) (h_outs : Part.outs ∈ pset) (h_intc : Part.intc ∈ pset) (h_vlt : Part.vlt ∈ pset) (h_time : Part.time ∈
    pset) (hk : Keeps pset z0 s) : Keeps pset z0 (Machine.tbCtrl m b v s) := by
  unfold Machine.tbCtrl
  repeat' (first
    | with_reducible first
      | assumption | apply K.plainWrite h_regs h_outs h_intc | apply K.validMoved h_regs h_outs h_intc h_vlt
      | apply K.outputsRest h_time | refine Keeps.ite (fun _ => ?_) (fun _ => ?_)
    | dsimp only | split)

theorem tbRate {pset : List Part} {z0 : State} {b : Nat} {v : Word} {s : State} (h_regs : Part.regs ∈ pset)
    (h_time : Part.time ∈ pset) (hk : Keeps pset z0 s) : Keeps pset z0 (Machine.tbRate b v s) := by
  unfold Machine.tbRate
  repeat' (first
    | with_reducible first
      | assumption | apply K.setR h_regs | apply K.servoUpdate h_time)

theorem outEdge {pset : List Part} {z0 : State} {s : State} {i : Nat} (h_time : Part.time ∈ pset) (hk : Keeps pset
    z0 s) : Keeps pset z0 (Machine.outEdge s i) := by
  unfold Machine.outEdge
  repeat' (first
    | with_reducible first
      | assumption | apply K.toutSet h_time | refine Keeps.ite (fun _ => ?_) (fun _ => ?_)
    | dsimp only | split)

theorem outEvent {pset : List Part} {z0 : State} {s : State} {i : Nat} (h_regs : Part.regs ∈ pset) (h_outs :
    Part.outs ∈ pset) (h_intc : Part.intc ∈ pset) (h_time : Part.time ∈ pset) (hk : Keeps pset z0 s) : Keeps pset z0
    (Machine.outEvent s i) := by
  unfold Machine.outEvent
  repeat' (first
    | with_reducible first
      | assumption | apply K.putB h_regs | apply K.raiseIrq h_regs h_outs h_intc | apply K.toutSet h_time
      | apply K.outEdge h_time | refine Keeps.ite (fun _ => ?_) (fun _ => ?_)
    | dsimp only | split)

theorem outMoved {pset : List Part} {z0 : State} {s : State} {b : Nat} {i : Nat} (h_regs : Part.regs ∈ pset)
    (h_outs : Part.outs ∈ pset) (h_intc : Part.intc ∈ pset) (h_time : Part.time ∈ pset) (hk : Keeps pset z0 s) : Keeps
    pset z0 (Machine.outMoved s b i) := by
  unfold Machine.outMoved
  repeat' (first
    | with_reducible first
      | assumption | apply K.toutSet h_time | apply K.outEvent h_regs h_outs h_intc h_time
      | refine Keeps.ite (fun _ => ?_) (fun _ => ?_)
    | dsimp only | split)

theorem ppsMoved {pset : List Part} {z0 : State} {s : State} {b : Nat} {j : Nat} (h_time : Part.time ∈ pset) (hk :
    Keeps pset z0 s) : Keeps pset z0 (Machine.ppsMoved s b j) := by
  unfold Machine.ppsMoved
  repeat' (first
    | with_reducible first
      | assumption | apply K.ppsSet h_time | refine Keeps.ite (fun _ => ?_) (fun _ => ?_)
    | dsimp only | split)

theorem tbMove {pset : List Part} {z0 : State} {s : State} {b : Nat} {v : Nat} (h_regs : Part.regs ∈ pset) (h_outs
    : Part.outs ∈ pset) (h_intc : Part.intc ∈ pset) (h_sw : Part.sw ∈ pset) (h_time : Part.time ∈ pset) (hk : Keeps
    pset z0 s) : Keeps pset z0 (Machine.tbMove s b v) := by
  unfold Machine.tbMove
  repeat' (first
    | with_reducible first
      | assumption | apply K.putB h_regs | apply K.raiseIrq h_regs h_outs h_intc | apply K.tbSet h_time
      | apply K.glistFreeze h_sw | apply K.glistRestart h_sw | apply K.outMoved h_regs h_outs h_intc h_time
      | apply K.ppsMoved h_time | refine Keeps.foldl (fun _ _ _ => ?_) ?_
    | intro _ _ | dsimp only)

theorem adjFormat {pset : List Part} {z0 : State} {s : State} {b : Nat} (h_regs : Part.regs ∈ pset) (hk : Keeps
    pset z0 s) : Keeps pset z0 (Machine.adjFormat s b) := by
  unfold Machine.adjFormat
  repeat' (first
    | with_reducible first
      | assumption | apply K.putB h_regs)

theorem adjClear {pset : List Part} {z0 : State} {s : State} {b : Nat} (h_regs : Part.regs ∈ pset) (hk : Keeps
    pset z0 s) : Keeps pset z0 (Machine.adjClear s b) := by
  unfold Machine.adjClear
  repeat' (first
    | with_reducible first
      | assumption | apply K.putB h_regs)

theorem adjSet {pset : List Part} {z0 : State} {s : State} {b : Nat} (h_regs : Part.regs ∈ pset) (h_outs :
    Part.outs ∈ pset) (h_intc : Part.intc ∈ pset) (h_sw : Part.sw ∈ pset) (h_time : Part.time ∈ pset) (hk : Keeps pset
    z0 s) : Keeps pset z0 (Machine.adjSet s b) := by
  unfold Machine.adjSet
  repeat' (first
    | with_reducible first
      | assumption | apply K.tbMove h_regs h_outs h_intc h_sw h_time | apply K.adjFormat h_regs
      | apply K.adjClear h_regs | refine Keeps.ite (fun _ => ?_) (fun _ => ?_)
    | dsimp only | split)

theorem adjStep {pset : List Part} {z0 : State} {s : State} {b : Nat} (h_regs : Part.regs ∈ pset) (h_outs :
    Part.outs ∈ pset) (h_intc : Part.intc ∈ pset) (h_sw : Part.sw ∈ pset) (h_time : Part.time ∈ pset) (hk : Keeps pset
    z0 s) : Keeps pset z0 (Machine.adjStep s b) := by
  unfold Machine.adjStep
  repeat' (first
    | with_reducible first
      | assumption | apply K.tbMove h_regs h_outs h_intc h_sw h_time | apply K.adjFormat h_regs
      | apply K.adjClear h_regs | refine Keeps.ite (fun _ => ?_) (fun _ => ?_)
    | dsimp only | split)

theorem adjSlew {pset : List Part} {z0 : State} {s : State} {b : Nat} {ppm : Nat} (h_regs : Part.regs ∈ pset)
    (h_time : Part.time ∈ pset) (hk : Keeps pset z0 s) : Keeps pset z0 (Machine.adjSlew s b ppm) := by
  unfold Machine.adjSlew
  repeat' (first
    | with_reducible first
      | assumption | apply K.tbSet h_time | apply K.adjClear h_regs
    | dsimp only)

theorem adjCancel {pset : List Part} {z0 : State} {s : State} {b : Nat} (h_regs : Part.regs ∈ pset) (h_time :
    Part.time ∈ pset) (hk : Keeps pset z0 s) : Keeps pset z0 (Machine.adjCancel s b) := by
  unfold Machine.adjCancel
  repeat' (first
    | with_reducible first
      | assumption | apply K.tbSet h_time | apply K.adjClear h_regs
    | dsimp only)

theorem adjCmd {pset : List Part} {z0 : State} {b : Nat} {v : Word} {s : State} (h_regs : Part.regs ∈ pset)
    (h_outs : Part.outs ∈ pset) (h_intc : Part.intc ∈ pset) (h_sw : Part.sw ∈ pset) (h_time : Part.time ∈ pset) (hk :
    Keeps pset z0 s) : Keeps pset z0 (Machine.adjCmd b v s) := by
  unfold Machine.adjCmd
  repeat' (first
    | with_reducible first
      | assumption | apply K.adjFormat h_regs | apply K.adjSet h_regs h_outs h_intc h_sw h_time
      | apply K.adjStep h_regs h_outs h_intc h_sw h_time | apply K.adjSlew h_regs h_time
      | apply K.adjCancel h_regs h_time
    | dsimp only | split)

theorem tnsSnap {pset : List Part} {z0 : State} {s : State} (h_regs : Part.regs ∈ pset) (hk : Keeps pset z0 s) :
    Keeps pset z0 (Machine.tnsSnap s) := by
  unfold Machine.tnsSnap
  repeat' (first
    | with_reducible first
      | assumption | apply K.setR h_regs | apply K.setR64 h_regs | refine Keeps.foldl (fun _ _ _ => ?_) ?_
    | intro _ _ | dsimp only)

theorem tnowRead {pset : List Part} {z0 : State} {m : Master} {s : State} (h_regs : Part.regs ∈ pset) (hk : Keeps
    pset z0 s) : Keeps pset z0 (Machine.tnowRead m s).1 := by
  unfold Machine.tnowRead
  repeat' (first
    | with_reducible first
      | assumption | apply K.setR h_regs
    | dsimp only)

theorem tbNsRead {pset : List Part} {z0 : State} {m : Master} {b : Nat} {s : State} (h_regs : Part.regs ∈ pset)
    (hk : Keeps pset z0 s) : Keeps pset z0 (Machine.tbNsRead m b s).1 := by
  unfold Machine.tbNsRead
  repeat' (first
    | with_reducible first
      | assumption | apply K.setR h_regs
    | dsimp only)

theorem holdExpiry {pset : List Part} {z0 : State} {s : State} {b : Nat} (h_regs : Part.regs ∈ pset) (h_cnts :
    Part.cnts ∈ pset) (h_outs : Part.outs ∈ pset) (h_intc : Part.intc ∈ pset) (h_sys : Part.sys ∈ pset) (h_vlt :
    Part.vlt ∈ pset) (h_time : Part.time ∈ pset) (h_pwr : Part.pwr ∈ pset) (hk : Keeps pset z0 s) : Keeps pset z0
    (Machine.holdExpiry s b) := by
  unfold Machine.holdExpiry
  repeat' (first
    | with_reducible first
      | assumption | apply K.putB h_regs | apply K.advanceNs h_cnts h_sys h_time h_pwr
      | apply K.changeValid h_regs h_outs h_intc h_vlt h_time | refine Keeps.ite (fun _ => ?_) (fun _ => ?_)
    | dsimp only | split)

theorem capsSet {pset : List Part} {z0 : State} {s : State} {i : Nat} {l : List CapRec} (h_time : Part.time ∈
    pset) (hk : Keeps pset z0 s) : Keeps pset z0 (Machine.capsSet s i l) := by
  unfold Machine.capsSet
  repeat' (first
    | with_reducible first
      | assumption
    | dsimp only | simp only [Keeps.lit_time h_time])

theorem captureEdge {pset : List Part} {z0 : State} {s : State} {i : Nat} {rising : Bool} {ph : Nat} (h_regs :
    Part.regs ∈ pset) (h_cnts : Part.cnts ∈ pset) (h_outs : Part.outs ∈ pset) (h_intc : Part.intc ∈ pset) (h_time :
    Part.time ∈ pset) (hk : Keeps pset z0 s) : Keeps pset z0 (Machine.captureEdge s i rising ph) := by
  unfold Machine.captureEdge
  repeat' (first
    | with_reducible first
      | assumption | apply K.putB h_regs | apply K.bump h_cnts | apply K.raiseIrq h_regs h_outs h_intc
      | apply K.capsSet h_time | refine Keeps.ite (fun _ => ?_) (fun _ => ?_)
    | dsimp only | split)

theorem capNsRead {pset : List Part} {z0 : State} {m : Master} {i : Nat} {s : State} (h_regs : Part.regs ∈ pset)
    (h_time : Part.time ∈ pset) (hk : Keeps pset z0 s) : Keeps pset z0 (Machine.capNsRead m i s).1 := by
  unfold Machine.capNsRead
  repeat' (first
    | with_reducible first
      | assumption | apply K.setR h_regs | apply K.capsSet h_time
    | dsimp only | split)

theorem outArm {pset : List Part} {z0 : State} {s : State} {i : Nat} (h_time : Part.time ∈ pset) (hk : Keeps pset
    z0 s) : Keeps pset z0 (Machine.outArm s i) := by
  unfold Machine.outArm
  repeat' (first
    | with_reducible first
      | assumption | apply K.toutSet h_time | refine Keeps.ite (fun _ => ?_) (fun _ => ?_)
    | dsimp only | split)

theorem outCtrl {pset : List Part} {z0 : State} {m : Master} {i : Nat} {v : Word} {s : State} (h_regs : Part.regs
    ∈ pset) (h_outs : Part.outs ∈ pset) (h_intc : Part.intc ∈ pset) (h_time : Part.time ∈ pset) (hk : Keeps pset z0 s)
    : Keeps pset z0 (Machine.outCtrl m i v s) := by
  unfold Machine.outCtrl
  repeat' (first
    | with_reducible first
      | assumption | apply K.plainWrite h_regs h_outs h_intc | apply K.toutSet h_time | apply K.outputsRest h_time
      | apply K.outArm h_time | refine Keeps.ite (fun _ => ?_) (fun _ => ?_)
    | dsimp only | split)

theorem timedOutputEvent {pset : List Part} {z0 : State} {s : State} {i : Nat} (h_regs : Part.regs ∈ pset) (h_cnts
    : Part.cnts ∈ pset) (h_outs : Part.outs ∈ pset) (h_intc : Part.intc ∈ pset) (h_sys : Part.sys ∈ pset) (h_time :
    Part.time ∈ pset) (h_pwr : Part.pwr ∈ pset) (hk : Keeps pset z0 s) : Keeps pset z0 (Machine.timedOutputEvent s i)
    := by
  unfold Machine.timedOutputEvent
  repeat' (first
    | with_reducible first
      | assumption | apply K.advanceCycles h_cnts h_sys h_time h_pwr | apply K.advanceTb h_cnts h_sys h_time h_pwr
      | apply K.outEvent h_regs h_outs h_intc h_time | refine Keeps.ite (fun _ => ?_) (fun _ => ?_)
    | dsimp only | split)

theorem pulseEnd {pset : List Part} {z0 : State} {s : State} {i : Nat} (h_cnts : Part.cnts ∈ pset) (h_sys :
    Part.sys ∈ pset) (h_time : Part.time ∈ pset) (h_pwr : Part.pwr ∈ pset) (hk : Keeps pset z0 s) : Keeps pset z0
    (Machine.pulseEnd s i) := by
  unfold Machine.pulseEnd
  repeat' (first
    | with_reducible first
      | assumption | apply K.advanceNs h_cnts h_sys h_time h_pwr | apply K.toutSet h_time
    | dsimp only | split)

theorem ppsEvent {pset : List Part} {z0 : State} {s : State} {j : Nat} (h_cnts : Part.cnts ∈ pset) (h_sys :
    Part.sys ∈ pset) (h_time : Part.time ∈ pset) (h_pwr : Part.pwr ∈ pset) (hk : Keeps pset z0 s) : Keeps pset z0
    (Machine.ppsEvent s j) := by
  unfold Machine.ppsEvent
  repeat' (first
    | with_reducible first
      | assumption | apply K.advanceTb h_cnts h_sys h_time h_pwr | apply K.ppsSet h_time
      | refine Keeps.ite (fun _ => ?_) (fun _ => ?_)
    | dsimp only | split)

theorem tsrLevel {pset : List Part} {z0 : State} {s : State} (h_regs : Part.regs ∈ pset) (h_outs : Part.outs ∈
    pset) (h_intc : Part.intc ∈ pset) (hk : Keeps pset z0 s) : Keeps pset z0 (Machine.tsrLevel s) := by
  unfold Machine.tsrLevel
  repeat' (first
    | with_reducible first
      | assumption | apply K.setRaw h_regs h_outs h_intc)

theorem tsrPush {pset : List Part} {z0 : State} {s : State} {rec_ : List Byte} (h_regs : Part.regs ∈ pset) (h_mem
    : Part.mem ∈ pset) (h_outs : Part.outs ∈ pset) (h_intc : Part.intc ∈ pset) (h_bnk : Part.bnk ∈ pset) (h_time :
    Part.time ∈ pset) (hk : Keeps pset z0 s) : Keeps pset z0 (Machine.tsrPush s rec_) := by
  unfold Machine.tsrPush
  repeat' (first
    | with_reducible first
      | assumption | apply K.putF h_regs | apply K.satInc h_regs | apply K.raiseIrq h_regs h_outs h_intc
      | apply K.fabWrite h_regs h_mem h_outs h_intc h_bnk | apply K.tsrLevel h_regs h_outs h_intc
      | refine Keeps.ite (fun _ => ?_) (fun _ => ?_)
    | dsimp only | split | simp only [Keeps.lit_time h_time])

theorem tnsSoft {pset : List Part} {z0 : State} {s : State} (h_regs : Part.regs ∈ pset) (h_time : Part.time ∈
    pset) (hk : Keeps pset z0 s) : Keeps pset z0 (Machine.tnsSoft s) := by
  unfold Machine.tnsSoft
  repeat' (first
    | with_reducible first
      | assumption | apply K.refFollow h_regs
    | intro _ _ | dsimp only | simp only [Keeps.lit_time h_time])

theorem outWoken {pset : List Part} {z0 : State} {s : State} {i : Nat} (h_time : Part.time ∈ pset) (hk : Keeps
    pset z0 s) : Keeps pset z0 (Machine.outWoken s i) := by
  unfold Machine.outWoken
  repeat' (first
    | with_reducible first
      | assumption | apply K.toutSet h_time | refine Keeps.ite (fun _ => ?_) (fun _ => ?_)
    | dsimp only | split)

theorem tnsWake {pset : List Part} {z0 : State} {s : State} {ns : Nat} (h_regs : Part.regs ∈ pset) (h_outs :
    Part.outs ∈ pset) (h_intc : Part.intc ∈ pset) (h_vlt : Part.vlt ∈ pset) (h_time : Part.time ∈ pset) (hk : Keeps
    pset z0 s) : Keeps pset z0 (Machine.tnsWake s ns) := by
  unfold Machine.tnsWake
  repeat' (first
    | with_reducible first
      | assumption | apply K.putB h_regs | apply K.changeValid h_regs h_outs h_intc h_vlt h_time
      | apply K.outWoken h_time | refine Keeps.ite (fun _ => ?_) (fun _ => ?_)
      | refine Keeps.foldl (fun _ _ _ => ?_) ?_ | refine Keeps.foldlFst (fun _ _ _ => ?_) ?_
    | intro _ _ | dsimp only | split | simp only [Keeps.lit_time h_time])

end Sys2Proof.Laws.K
end

