-- ==== Sys2Proof/Laws/KeepsPower.lean ====
section
/-! SUPPORT. What the operations of `Machine/Power.lean` keep. -/

namespace Sys2Proof.Laws.K

open Sys2Proof Sys2Proof.Machine Sys2Proof.Laws

theorem pwrResult {pset : List Part} {z0 : State} {s : State} {r : Nat} (h_regs : Part.regs ∈ pset) (h_outs :
    Part.outs ∈ pset) (h_intc : Part.intc ∈ pset) (hk : Keeps pset z0 s) : Keeps pset z0 (Machine.pwrResult s r) := by
  unfold Machine.pwrResult
  repeat' (first
    | with_reducible first
      | assumption | apply K.putF h_regs | apply K.raiseIrq h_regs h_outs h_intc
      | refine Keeps.ite (fun _ => ?_) (fun _ => ?_)
    | split)

theorem wakeBegin {pset : List Part} {z0 : State} {s : State} {src : Nat} (h_regs : Part.regs ∈ pset) (h_sys :
    Part.sys ∈ pset) (h_pwr : Part.pwr ∈ pset) (hk : Keeps pset z0 s) : Keeps pset z0 (Machine.wakeBegin s src) := by
  unfold Machine.wakeBegin
  repeat' (first
    | with_reducible first
      | assumption | apply K.putF h_regs | apply K.putB h_regs
    | dsimp only | simp only [Keeps.lit_sys_pwr h_sys h_pwr])

theorem pwrBegin {pset : List Part} {z0 : State} {t : Nat} {now : Nat} {s : State} (h_regs : Part.regs ∈ pset)
    (h_outs : Part.outs ∈ pset) (h_intc : Part.intc ∈ pset) (h_sys : Part.sys ∈ pset) (h_pwr : Part.pwr ∈ pset) (hk :
    Keeps pset z0 s) : Keeps pset z0 (Machine.pwrBegin t now s) := by
  unfold Machine.pwrBegin
  repeat' (first
    | with_reducible first
      | assumption | apply K.putF h_regs | apply K.putB h_regs | apply K.pwrResult h_regs h_outs h_intc
      | apply K.wakeBegin h_regs h_sys h_pwr | refine Keeps.ite (fun _ => ?_) (fun _ => ?_)
    | dsimp only | split | simp only [Keeps.lit_pwr h_pwr])

theorem pwrReq {pset : List Part} {z0 : State} {t : Nat} {now : Nat} {s : State} (h_regs : Part.regs ∈ pset)
    (h_outs : Part.outs ∈ pset) (h_intc : Part.intc ∈ pset) (h_sys : Part.sys ∈ pset) (h_pwr : Part.pwr ∈ pset) (hk :
    Keeps pset z0 s) : Keeps pset z0 (Machine.pwrReq t now s) := by
  unfold Machine.pwrReq
  repeat' (first
    | with_reducible first
      | assumption | apply K.putF h_regs | apply K.putB h_regs | apply K.pwrBegin h_regs h_outs h_intc h_sys h_pwr
      | refine Keeps.ite (fun _ => ?_) (fun _ => ?_)
    | split)

theorem pwrNext {pset : List Part} {z0 : State} {s : State} (h_regs : Part.regs ∈ pset) (h_outs : Part.outs ∈
    pset) (h_intc : Part.intc ∈ pset) (h_sys : Part.sys ∈ pset) (h_pwr : Part.pwr ∈ pset) (hk : Keeps pset z0 s) :
    Keeps pset z0 (Machine.pwrNext s) := by
  unfold Machine.pwrNext
  repeat' (first
    | with_reducible first
      | assumption | apply K.putF h_regs | apply K.putB h_regs | apply K.pwrBegin h_regs h_outs h_intc h_sys h_pwr
      | refine Keeps.ite (fun _ => ?_) (fun _ => ?_)
    | dsimp only | split)

theorem pwrAbandon {pset : List Part} {z0 : State} {s : State} {r : Nat} (h_regs : Part.regs ∈ pset) (h_outs :
    Part.outs ∈ pset) (h_intc : Part.intc ∈ pset) (h_sys : Part.sys ∈ pset) (h_pwr : Part.pwr ∈ pset) (hk : Keeps pset
    z0 s) : Keeps pset z0 (Machine.pwrAbandon s r) := by
  unfold Machine.pwrAbandon
  repeat' (first
    | with_reducible first
      | assumption | apply K.pwrResult h_regs h_outs h_intc | apply K.pwrNext h_regs h_outs h_intc h_sys h_pwr
      | refine Keeps.ite (fun _ => ?_) (fun _ => ?_)
    | split)

theorem quiesceTimeout {pset : List Part} {z0 : State} {s : State} (h_regs : Part.regs ∈ pset) (h_cnts : Part.cnts
    ∈ pset) (h_outs : Part.outs ∈ pset) (h_intc : Part.intc ∈ pset) (h_sys : Part.sys ∈ pset) (h_time : Part.time ∈
    pset) (h_pwr : Part.pwr ∈ pset) (hk : Keeps pset z0 s) : Keeps pset z0 (Machine.quiesceTimeout s) := by
  unfold Machine.quiesceTimeout
  repeat' (first
    | with_reducible first
      | assumption | apply K.advanceNs h_cnts h_sys h_time h_pwr | apply K.pwrAbandon h_regs h_outs h_intc h_sys h_pwr
      | refine Keeps.ite (fun _ => ?_) (fun _ => ?_)
    | split)

theorem wakeMask {pset : List Part} {z0 : State} {src : Nat} {s : State} (h_regs : Part.regs ∈ pset) (h_outs :
    Part.outs ∈ pset) (h_intc : Part.intc ∈ pset) (h_sys : Part.sys ∈ pset) (h_pwr : Part.pwr ∈ pset) (hk : Keeps pset
    z0 s) : Keeps pset z0 (Machine.wakeMask src s) := by
  unfold Machine.wakeMask
  repeat' (first
    | with_reducible first
      | assumption | apply K.wakeBegin h_regs h_sys h_pwr | apply K.pwrAbandon h_regs h_outs h_intc h_sys h_pwr
      | refine Keeps.ite (fun _ => ?_) (fun _ => ?_)
    | split)

theorem wakeSource {pset : List Part} {z0 : State} {i : Nat} {s : State} (h_regs : Part.regs ∈ pset) (h_outs :
    Part.outs ∈ pset) (h_intc : Part.intc ∈ pset) (h_sys : Part.sys ∈ pset) (h_pwr : Part.pwr ∈ pset) (hk : Keeps pset
    z0 s) : Keeps pset z0 (Machine.wakeSource i s) := by
  unfold Machine.wakeSource
  repeat' (first
    | with_reducible first
      | assumption | apply K.wakeMask h_regs h_outs h_intc h_sys h_pwr)

theorem blkPowerReq {pset : List Part} {z0 : State} {base : Nat} {p : Nat} {s : State} (h_regs : Part.regs ∈ pset)
    (hk : Keeps pset z0 s) : Keeps pset z0 (Machine.blkPowerReq base p s) := by
  unfold Machine.blkPowerReq
  repeat' (first
    | with_reducible first
      | assumption | apply K.putF h_regs | apply K.putB h_regs | refine Keeps.ite (fun _ => ?_) (fun _ => ?_)
    | dsimp only | split)

end Sys2Proof.Laws.K
end

