-- ==== Sys2Proof/Laws/KeepsMdb.lean ====
section
/-! SUPPORT. What the operations of `Machine/Mdb.lean` keep. -/

namespace Sys2Proof.Laws.K

open Sys2Proof Sys2Proof.Machine Sys2Proof.Laws

theorem mdbMod {pset : List Part} {z0 : State} {s : State} {n : Nat} {f : MdbSt → MdbSt} (h_mdb : Part.mdb ∈ pset)
    (hk : Keeps pset z0 s) : Keeps pset z0 (Machine.mdbMod s n f) := by
  unfold Machine.mdbMod
  repeat' (first
    | with_reducible first
      | assumption
    | dsimp only | simp only [Keeps.lit_mdb h_mdb])

theorem mdbSetC {pset : List Part} {z0 : State} {s : State} {n : Nat} {c : Nat} (h_regs : Part.regs ∈ pset) (hk :
    Keeps pset z0 s) : Keeps pset z0 (Machine.mdbSetC s n c) := by
  unfold Machine.mdbSetC
  repeat' (first
    | with_reducible first
      | assumption | apply K.putF h_regs)

theorem mdbSetTb {pset : List Part} {z0 : State} {s : State} {n : Nat} {b : Nat} {v : Option MdbBuf} (h_mdb :
    Part.mdb ∈ pset) (hk : Keeps pset z0 s) : Keeps pset z0 (Machine.mdbSetTb s n b v) := by
  unfold Machine.mdbSetTb
  repeat' (first
    | with_reducible first
      | assumption | apply K.mdbMod h_mdb | refine Keeps.ite (fun _ => ?_) (fun _ => ?_)
    | intro _ _ | dsimp only | split)

theorem mdbPins {pset : List Part} {z0 : State} {s : State} {n : Nat} {level : Bool} (h_mdb : Part.mdb ∈ pset) (hk
    : Keeps pset z0 s) : Keeps pset z0 (Machine.mdbPins s n level) := by
  unfold Machine.mdbPins
  repeat' (first
    | with_reducible first
      | assumption | apply K.mdbMod h_mdb
    | intro _ _ | dsimp only)

theorem mdbErrShow {pset : List Part} {z0 : State} {s : State} {n : Nat} (h_regs : Part.regs ∈ pset) (h_outs :
    Part.outs ∈ pset) (h_intc : Part.intc ∈ pset) (hk : Keeps pset z0 s) : Keeps pset z0 (Machine.mdbErrShow s n) :=
    by
  unfold Machine.mdbErrShow
  repeat' (first
    | with_reducible first
      | assumption | apply K.putF h_regs | apply K.putB h_regs | apply K.raiseIrq h_regs h_outs h_intc
      | refine Keeps.ite (fun _ => ?_) (fun _ => ?_)
    | dsimp only | split)

theorem mdbCmdEnd {pset : List Part} {z0 : State} {s : State} {n : Nat} {st : Nat} (h_regs : Part.regs ∈ pset)
    (h_outs : Part.outs ∈ pset) (h_intc : Part.intc ∈ pset) (hk : Keeps pset z0 s) : Keeps pset z0 (Machine.mdbCmdEnd
    s n st) := by
  unfold Machine.mdbCmdEnd
  repeat' (first
    | with_reducible first
      | assumption | apply K.setR h_regs | apply K.raiseIrq h_regs h_outs h_intc)

theorem mdbStartCmd {pset : List Part} {z0 : State} {n : Nat} {s : State} (h_regs : Part.regs ∈ pset) (h_outs :
    Part.outs ∈ pset) (h_intc : Part.intc ∈ pset) (h_mdb : Part.mdb ∈ pset) (hk : Keeps pset z0 s) : Keeps pset z0
    (Machine.mdbStartCmd n s) := by
  unfold Machine.mdbStartCmd
  repeat' (first
    | with_reducible first
      | assumption | apply K.mdbMod h_mdb | apply K.mdbSetC h_regs | apply K.mdbPins h_mdb
      | apply K.mdbErrShow h_regs h_outs h_intc | apply K.mdbCmdEnd h_regs h_outs h_intc
      | refine Keeps.ite (fun _ => ?_) (fun _ => ?_)
    | intro _ _ | dsimp only | split)

theorem mdbOff {pset : List Part} {z0 : State} {s : State} {n : Nat} {b : Nat} (h_regs : Part.regs ∈ pset) (h_gate
    : Part.gate ∈ pset) (h_mdb : Part.mdb ∈ pset) (hk : Keeps pset z0 s) : Keeps pset z0 (Machine.mdbOff s n b) := by
  unfold Machine.mdbOff
  repeat' (first
    | with_reducible first
      | assumption | apply K.putB h_regs | apply K.gateEntryLoc h_gate | apply K.mdbSetTb h_mdb
      | apply K.mdbPins h_mdb | refine Keeps.ite (fun _ => ?_) (fun _ => ?_)
    | intro _ _ | dsimp only | split)

theorem mdbStatus {pset : List Part} {z0 : State} {s : State} {n : Nat} {idx : Nat} {st : Nat} (h_regs : Part.regs
    ∈ pset) (h_mem : Part.mem ∈ pset) (h_outs : Part.outs ∈ pset) (h_intc : Part.intc ∈ pset) (h_bnk : Part.bnk ∈
    pset) (hk : Keeps pset z0 s) : Keeps pset z0 (Machine.mdbStatus s n idx st) := by
  unfold Machine.mdbStatus
  repeat' (first
    | with_reducible first
      | assumption | apply K.fabWrite h_regs h_mem h_outs h_intc h_bnk
    | dsimp only)

theorem mdbAborted {pset : List Part} {z0 : State} {s : State} {n : Nat} {b : Nat} {t : MdbBuf} (h_regs :
    Part.regs ∈ pset) (h_cnts : Part.cnts ∈ pset) (h_mem : Part.mem ∈ pset) (h_outs : Part.outs ∈ pset) (h_intc :
    Part.intc ∈ pset) (h_bnk : Part.bnk ∈ pset) (h_mdb : Part.mdb ∈ pset) (hk : Keeps pset z0 s) : Keeps pset z0
    (Machine.mdbAborted s n b t) := by
  unfold Machine.mdbAborted
  repeat' (first
    | with_reducible first
      | assumption | apply K.bump h_cnts | apply K.mdbSetTb h_mdb | apply K.mdbStatus h_regs h_mem h_outs h_intc h_bnk
      | refine Keeps.ite (fun _ => ?_) (fun _ => ?_) | refine Keeps.iteFst (fun _ => ?_) (fun _ => ?_)
      | refine Keeps.foldl (fun _ _ _ => ?_) ?_ | refine Keeps.foldr (fun _ _ _ => ?_) ?_
      | refine Keeps.foldlFst (fun _ _ _ => ?_) ?_
    | intro _ _ | dsimp only | split | refine Keeps.ofFst (by with_reducible assumption) ?_
    | refine Keeps.ofSnd (by with_reducible assumption) ?_
    | refine Keeps.someIf (by with_reducible assumption) (fun _ => ?_) ?_ | simp only [id_eq])

theorem mdbEndDue {pset : List Part} {z0 : State} {s : State} {n : Nat} {b : Nat} (h_regs : Part.regs ∈ pset)
    (h_cnts : Part.cnts ∈ pset) (h_mem : Part.mem ∈ pset) (h_outs : Part.outs ∈ pset) (h_intc : Part.intc ∈ pset)
    (h_bnk : Part.bnk ∈ pset) (h_mdb : Part.mdb ∈ pset) (hk : Keeps pset z0 s) : Keeps pset z0 (Machine.mdbEndDue s n
    b) := by
  unfold Machine.mdbEndDue
  repeat' (first
    | with_reducible first
      | assumption | apply K.mdbSetTb h_mdb | apply K.mdbAborted h_regs h_cnts h_mem h_outs h_intc h_bnk h_mdb
      | refine Keeps.ite (fun _ => ?_) (fun _ => ?_)
    | dsimp only | split)

theorem mdbPending {pset : List Part} {z0 : State} {s : State} {n : Nat} {b : Nat} (h_regs : Part.regs ∈ pset)
    (h_cnts : Part.cnts ∈ pset) (h_free : Part.free ∈ pset) (h_mem : Part.mem ∈ pset) (h_outs : Part.outs ∈ pset)
    (h_intc : Part.intc ∈ pset) (h_sw : Part.sw ∈ pset) (h_gate : Part.gate ∈ pset) (h_vlt : Part.vlt ∈ pset) (h_bnk :
    Part.bnk ∈ pset) (h_mdb : Part.mdb ∈ pset) (hk : Keeps pset z0 s) : Keeps pset z0 (Machine.mdbPending s n b) := by
  unfold Machine.mdbPending
  repeat' (first
    | with_reducible first
      | assumption | apply K.itemEndExit h_regs h_cnts h_free h_mem h_outs h_intc h_sw h_gate h_vlt h_bnk
      | apply K.gateEntryDrop h_gate | apply K.mdbSetTb h_mdb
      | apply K.mdbAborted h_regs h_cnts h_mem h_outs h_intc h_bnk h_mdb
      | refine Keeps.ite (fun _ => ?_) (fun _ => ?_)
    | dsimp only | split)

theorem mdbCut {pset : List Part} {z0 : State} {s : State} {n : Nat} (h_regs : Part.regs ∈ pset) (h_cnts :
    Part.cnts ∈ pset) (h_free : Part.free ∈ pset) (h_mem : Part.mem ∈ pset) (h_outs : Part.outs ∈ pset) (h_intc :
    Part.intc ∈ pset) (h_sw : Part.sw ∈ pset) (h_gate : Part.gate ∈ pset) (h_vlt : Part.vlt ∈ pset) (h_bnk : Part.bnk
    ∈ pset) (h_mdb : Part.mdb ∈ pset) (hk : Keeps pset z0 s) : Keeps pset z0 (Machine.mdbCut s n) := by
  unfold Machine.mdbCut
  repeat' (first
    | with_reducible first
      | assumption | apply K.mdbOff h_regs h_gate h_mdb
      | apply K.mdbPending h_regs h_cnts h_free h_mem h_outs h_intc h_sw h_gate h_vlt h_bnk h_mdb
    | dsimp only | split)

theorem mdbStop {pset : List Part} {z0 : State} {n : Nat} {s : State} (h_regs : Part.regs ∈ pset) (h_cnts :
    Part.cnts ∈ pset) (h_free : Part.free ∈ pset) (h_mem : Part.mem ∈ pset) (h_outs : Part.outs ∈ pset) (h_intc :
    Part.intc ∈ pset) (h_sw : Part.sw ∈ pset) (h_gate : Part.gate ∈ pset) (h_vlt : Part.vlt ∈ pset) (h_bnk : Part.bnk
    ∈ pset) (h_mdb : Part.mdb ∈ pset) (hk : Keeps pset z0 s) : Keeps pset z0 (Machine.mdbStop n s) := by
  unfold Machine.mdbStop
  repeat' (first
    | with_reducible first
      | assumption | apply K.mdbMod h_mdb | apply K.mdbSetC h_regs | apply K.mdbPins h_mdb
      | apply K.mdbErrShow h_regs h_outs h_intc
      | apply K.mdbCut h_regs h_cnts h_free h_mem h_outs h_intc h_sw h_gate h_vlt h_bnk h_mdb
    | intro _ _ | dsimp only)

theorem mdbStopCmd {pset : List Part} {z0 : State} {n : Nat} {s : State} (h_regs : Part.regs ∈ pset) (h_cnts :
    Part.cnts ∈ pset) (h_free : Part.free ∈ pset) (h_mem : Part.mem ∈ pset) (h_outs : Part.outs ∈ pset) (h_intc :
    Part.intc ∈ pset) (h_sw : Part.sw ∈ pset) (h_gate : Part.gate ∈ pset) (h_vlt : Part.vlt ∈ pset) (h_bnk : Part.bnk
    ∈ pset) (h_mdb : Part.mdb ∈ pset) (hk : Keeps pset z0 s) : Keeps pset z0 (Machine.mdbStopCmd n s) := by
  unfold Machine.mdbStopCmd
  repeat' (first
    | with_reducible first
      | assumption | apply K.mdbCmdEnd h_regs h_outs h_intc
      | apply K.mdbStop h_regs h_cnts h_free h_mem h_outs h_intc h_sw h_gate h_vlt h_bnk h_mdb
      | refine Keeps.ite (fun _ => ?_) (fun _ => ?_)
    | split)

theorem mdbRecover {pset : List Part} {z0 : State} {m : Master} {n : Nat} {s : State} (h_regs : Part.regs ∈ pset)
    (h_outs : Part.outs ∈ pset) (h_intc : Part.intc ∈ pset) (hk : Keeps pset z0 s) : Keeps pset z0 (Machine.mdbRecover
    m n s) := by
  unfold Machine.mdbRecover
  repeat' (first
    | with_reducible first
      | assumption | apply K.deny h_regs h_outs h_intc | apply K.mdbSetC h_regs
      | apply K.mdbCmdEnd h_regs h_outs h_intc | refine Keeps.ite (fun _ => ?_) (fun _ => ?_)
    | split)

theorem mdbAbort {pset : List Part} {z0 : State} {n : Nat} {mask : Nat} {s : State} (h_regs : Part.regs ∈ pset)
    (h_cnts : Part.cnts ∈ pset) (h_mem : Part.mem ∈ pset) (h_outs : Part.outs ∈ pset) (h_intc : Part.intc ∈ pset)
    (h_bnk : Part.bnk ∈ pset) (h_mdb : Part.mdb ∈ pset) (hk : Keeps pset z0 s) : Keeps pset z0 (Machine.mdbAbort n
    mask s) := by
  unfold Machine.mdbAbort
  repeat' (first
    | with_reducible first
      | assumption | apply K.mdbCmdEnd h_regs h_outs h_intc
      | apply K.mdbEndDue h_regs h_cnts h_mem h_outs h_intc h_bnk h_mdb | refine Keeps.ite (fun _ => ?_) (fun _ => ?_)
    | dsimp only | split)

theorem mdbCmd {pset : List Part} {z0 : State} {m : Master} {n : Nat} {v : Word} {s : State} (h_regs : Part.regs ∈
    pset) (h_cnts : Part.cnts ∈ pset) (h_free : Part.free ∈ pset) (h_mem : Part.mem ∈ pset) (h_outs : Part.outs ∈
    pset) (h_intc : Part.intc ∈ pset) (h_sw : Part.sw ∈ pset) (h_gate : Part.gate ∈ pset) (h_vlt : Part.vlt ∈ pset)
    (h_bnk : Part.bnk ∈ pset) (h_mdb : Part.mdb ∈ pset) (hk : Keeps pset z0 s) : Keeps pset z0 (Machine.mdbCmd m n v
    s) := by
  unfold Machine.mdbCmd
  repeat' (first
    | with_reducible first
      | assumption | apply K.mdbCmdEnd h_regs h_outs h_intc | apply K.mdbStartCmd h_regs h_outs h_intc h_mdb
      | apply K.mdbStopCmd h_regs h_cnts h_free h_mem h_outs h_intc h_sw h_gate h_vlt h_bnk h_mdb
      | apply K.mdbRecover h_regs h_outs h_intc | apply K.mdbAbort h_regs h_cnts h_mem h_outs h_intc h_bnk h_mdb
    | dsimp only | split)

theorem mdbCfgWrite {pset : List Part} {z0 : State} {m : Master} {pg : Page} {off : Nat} {v : Word} {s : State}
    (h_regs : Part.regs ∈ pset) (h_outs : Part.outs ∈ pset) (h_intc : Part.intc ∈ pset) (h_mdb : Part.mdb ∈ pset) (hk
    : Keeps pset z0 s) : Keeps pset z0 (Machine.mdbCfgWrite m pg off v s) := by
  unfold Machine.mdbCfgWrite
  repeat' (first
    | with_reducible first
      | assumption | apply K.setR h_regs | apply K.recErr h_regs h_outs h_intc
      | apply K.plainWrite h_regs h_outs h_intc | apply K.mdbMod h_mdb | refine Keeps.ite (fun _ => ?_) (fun _ => ?_)
    | intro _ _ | dsimp only | split)

theorem mdbSoft {pset : List Part} {z0 : State} {n : Nat} {s : State} (h_regs : Part.regs ∈ pset) (h_cnts :
    Part.cnts ∈ pset) (h_free : Part.free ∈ pset) (h_mem : Part.mem ∈ pset) (h_outs : Part.outs ∈ pset) (h_intc :
    Part.intc ∈ pset) (h_sw : Part.sw ∈ pset) (h_gate : Part.gate ∈ pset) (h_vlt : Part.vlt ∈ pset) (h_bnk : Part.bnk
    ∈ pset) (h_mdb : Part.mdb ∈ pset) (hk : Keeps pset z0 s) : Keeps pset z0 (Machine.mdbSoft n s) := by
  unfold Machine.mdbSoft
  repeat' (first
    | with_reducible first
      | assumption | apply K.gateEntryLoc h_gate
      | apply K.mdbStop h_regs h_cnts h_free h_mem h_outs h_intc h_sw h_gate h_vlt h_bnk h_mdb
    | dsimp only | simp only [Keeps.lit_mdb h_mdb])

theorem mdbIntegrated {pset : List Part} {z0 : State} {n : Nat} {s : State} (h_regs : Part.regs ∈ pset) (h_mdb :
    Part.mdb ∈ pset) (hk : Keeps pset z0 s) : Keeps pset z0 (Machine.mdbIntegrated n s) := by
  unfold Machine.mdbIntegrated
  repeat' (first
    | with_reducible first
      | assumption | apply K.mdbMod h_mdb | apply K.mdbSetC h_regs | refine Keeps.ite (fun _ => ?_) (fun _ => ?_)
    | intro _ _ | dsimp only | split)

theorem mdbRecovered {pset : List Part} {z0 : State} {n : Nat} {s : State} (h_regs : Part.regs ∈ pset) (h_outs :
    Part.outs ∈ pset) (h_intc : Part.intc ∈ pset) (h_mdb : Part.mdb ∈ pset) (hk : Keeps pset z0 s) : Keeps pset z0
    (Machine.mdbRecovered n s) := by
  unfold Machine.mdbRecovered
  repeat' (first
    | with_reducible first
      | assumption | apply K.raiseIrq h_regs h_outs h_intc | apply K.mdbMod h_mdb | apply K.mdbSetC h_regs
      | apply K.mdbErrShow h_regs h_outs h_intc | refine Keeps.ite (fun _ => ?_) (fun _ => ?_)
    | intro _ _ | dsimp only | split)

theorem mdbBusOff {pset : List Part} {z0 : State} {s : State} {n : Nat} (h_regs : Part.regs ∈ pset) (h_cnts :
    Part.cnts ∈ pset) (h_free : Part.free ∈ pset) (h_mem : Part.mem ∈ pset) (h_outs : Part.outs ∈ pset) (h_intc :
    Part.intc ∈ pset) (h_sw : Part.sw ∈ pset) (h_gate : Part.gate ∈ pset) (h_vlt : Part.vlt ∈ pset) (h_bnk : Part.bnk
    ∈ pset) (h_mdb : Part.mdb ∈ pset) (hk : Keeps pset z0 s) : Keeps pset z0 (Machine.mdbBusOff s n) := by
  unfold Machine.mdbBusOff
  repeat' (first
    | with_reducible first
      | assumption | apply K.bump h_cnts | apply K.raiseIrq h_regs h_outs h_intc | apply K.mdbSetC h_regs
      | apply K.mdbErrShow h_regs h_outs h_intc
      | apply K.mdbCut h_regs h_cnts h_free h_mem h_outs h_intc h_sw h_gate h_vlt h_bnk h_mdb)

theorem mdbSieve {pset : List Part} {z0 : State} {s : State} {n : Nat} {r : List Byte} (h_regs : Part.regs ∈ pset)
    (h_cnts : Part.cnts ∈ pset) (h_outs : Part.outs ∈ pset) (h_intc : Part.intc ∈ pset) (h_gate : Part.gate ∈ pset)
    (h_vlt : Part.vlt ∈ pset) (hk : Keeps pset z0 s) : Keeps pset z0 (Machine.mdbSieve s n r).1 := by
  unfold Machine.mdbSieve
  repeat' (first
    | with_reducible first
      | assumption | apply K.sieveJudge h_regs h_cnts h_outs h_intc h_gate h_vlt
      | refine Keeps.ite (fun _ => ?_) (fun _ => ?_) | refine Keeps.iteFst (fun _ => ?_) (fun _ => ?_)
    | dsimp only | split)

theorem mdbNote {pset : List Part} {z0 : State} {s : State} {n : Nat} {k : Nat} {i : Nat} (h_regs : Part.regs ∈
    pset) (h_cnts : Part.cnts ∈ pset) (h_outs : Part.outs ∈ pset) (h_intc : Part.intc ∈ pset) (hk : Keeps pset z0 s) :
    Keeps pset z0 (Machine.mdbNote s n k i) := by
  unfold Machine.mdbNote
  repeat' (first
    | with_reducible first
      | assumption | apply K.bump h_cnts | apply K.raiseIrq h_regs h_outs h_intc)

theorem mdbLoadGate {pset : List Part} {z0 : State} {s : State} {n : Nat} {fuel : Nat} (h_regs : Part.regs ∈ pset)
    (h_cnts : Part.cnts ∈ pset) (h_free : Part.free ∈ pset) (h_mem : Part.mem ∈ pset) (h_outs : Part.outs ∈ pset)
    (h_intc : Part.intc ∈ pset) (h_sw : Part.sw ∈ pset) (h_gate : Part.gate ∈ pset) (h_vlt : Part.vlt ∈ pset) (h_bnk :
    Part.bnk ∈ pset) (h_mdb : Part.mdb ∈ pset) (hk : Keeps pset z0 s) : Keeps pset z0 (Machine.mdbLoadGate s n fuel)
    := by
  induction fuel generalizing s n with
  | zero =>
    unfold Machine.mdbLoadGate
    repeat' (first
      | with_reducible first
        | assumption | apply K.itemEndExit h_regs h_cnts h_free h_mem h_outs h_intc h_sw h_gate h_vlt h_bnk
        | apply K.gateEntrySet h_gate | apply K.gateEntryDrop h_gate | apply K.mdbMod h_mdb | apply K.mdbSetTb h_mdb
        | apply K.mdbNote h_regs h_cnts h_outs h_intc | refine Keeps.ite (fun _ => ?_) (fun _ => ?_)
      | intro _ _ | dsimp only | split)
  | succ _ ih =>
    unfold Machine.mdbLoadGate
    repeat' (first
      | with_reducible first
        | assumption | apply ih | apply K.itemEndExit h_regs h_cnts h_free h_mem h_outs h_intc h_sw h_gate h_vlt h_bnk
        | apply K.gateEntrySet h_gate | apply K.gateEntryDrop h_gate | apply K.mdbMod h_mdb | apply K.mdbSetTb h_mdb
        | apply K.mdbNote h_regs h_cnts h_outs h_intc | refine Keeps.ite (fun _ => ?_) (fun _ => ?_)
      | intro _ _ | dsimp only | split)

theorem mdbLoadRing {pset : List Part} {z0 : State} {s : State} {n : Nat} {b : Nat} {fuel : Nat} (h_regs :
    Part.regs ∈ pset) (h_cnts : Part.cnts ∈ pset) (h_mem : Part.mem ∈ pset) (h_outs : Part.outs ∈ pset) (h_intc :
    Part.intc ∈ pset) (h_gate : Part.gate ∈ pset) (h_vlt : Part.vlt ∈ pset) (h_bnk : Part.bnk ∈ pset) (h_mdb :
    Part.mdb ∈ pset) (hk : Keeps pset z0 s) : Keeps pset z0 (Machine.mdbLoadRing s n b fuel) := by
  induction fuel generalizing s n b with
  | zero =>
    unfold Machine.mdbLoadRing
    repeat' (first
      | with_reducible first
        | assumption | apply K.putF h_regs | apply K.bump h_cnts | apply K.fabRead h_regs h_outs h_intc
        | apply K.mdbMod h_mdb | apply K.mdbSetTb h_mdb | apply K.mdbStatus h_regs h_mem h_outs h_intc h_bnk
        | apply K.mdbSieve h_regs h_cnts h_outs h_intc h_gate h_vlt | apply K.mdbNote h_regs h_cnts h_outs h_intc
        | refine Keeps.ite (fun _ => ?_) (fun _ => ?_)
      | intro _ _ | dsimp only | split)
  | succ _ ih =>
    unfold Machine.mdbLoadRing
    repeat' (first
      | with_reducible first
        | assumption | apply ih | apply K.putF h_regs | apply K.bump h_cnts | apply K.fabRead h_regs h_outs h_intc
        | apply K.mdbMod h_mdb | apply K.mdbSetTb h_mdb | apply K.mdbStatus h_regs h_mem h_outs h_intc h_bnk
        | apply K.mdbSieve h_regs h_cnts h_outs h_intc h_gate h_vlt | apply K.mdbNote h_regs h_cnts h_outs h_intc
        | refine Keeps.ite (fun _ => ?_) (fun _ => ?_)
      | intro _ _ | dsimp only | split)

theorem mdbLoad {pset : List Part} {z0 : State} {n : Nat} {b : Nat} {s : State} (h_regs : Part.regs ∈ pset)
    (h_cnts : Part.cnts ∈ pset) (h_free : Part.free ∈ pset) (h_mem : Part.mem ∈ pset) (h_outs : Part.outs ∈ pset)
    (h_intc : Part.intc ∈ pset) (h_sw : Part.sw ∈ pset) (h_gate : Part.gate ∈ pset) (h_vlt : Part.vlt ∈ pset) (h_bnk :
    Part.bnk ∈ pset) (h_mdb : Part.mdb ∈ pset) (hk : Keeps pset z0 s) : Keeps pset z0 (Machine.mdbLoad n b s) := by
  unfold Machine.mdbLoad
  repeat' (first
    | with_reducible first
      | assumption | apply K.mdbLoadGate h_regs h_cnts h_free h_mem h_outs h_intc h_sw h_gate h_vlt h_bnk h_mdb
      | apply K.mdbLoadRing h_regs h_cnts h_mem h_outs h_intc h_gate h_vlt h_bnk h_mdb
      | refine Keeps.ite (fun _ => ?_) (fun _ => ?_)
    | split)

theorem mdbArbitrate {pset : List Part} {z0 : State} {n : Nat} {s : State} (h_regs : Part.regs ∈ pset) (h_gate :
    Part.gate ∈ pset) (h_mdb : Part.mdb ∈ pset) (hk : Keeps pset z0 s) : Keeps pset z0 (Machine.mdbArbitrate n s) :=
    by
  unfold Machine.mdbArbitrate
  repeat' (first
    | with_reducible first
      | assumption | apply K.putB h_regs | apply K.gateEntryLoc h_gate | apply K.mdbMod h_mdb | apply K.mdbSetTb h_mdb
      | apply K.mdbPins h_mdb | refine Keeps.ite (fun _ => ?_) (fun _ => ?_) | refine Keeps.foldl (fun _ _ _ => ?_) ?_
    | intro _ _ | dsimp only | split)

theorem mdbFifoShow {pset : List Part} {z0 : State} {s : State} {n : Nat} (h_regs : Part.regs ∈ pset) (h_outs :
    Part.outs ∈ pset) (h_intc : Part.intc ∈ pset) (hk : Keeps pset z0 s) : Keeps pset z0 (Machine.mdbFifoShow s n) :=
    by
  unfold Machine.mdbFifoShow
  repeat' (first
    | with_reducible first
      | assumption | apply K.setRaw h_regs h_outs h_intc)

theorem mdbDrain {pset : List Part} {z0 : State} {n : Nat} {s : State} (h_regs : Part.regs ∈ pset) (h_mem :
    Part.mem ∈ pset) (h_outs : Part.outs ∈ pset) (h_intc : Part.intc ∈ pset) (h_bnk : Part.bnk ∈ pset) (h_mdb :
    Part.mdb ∈ pset) (hk : Keeps pset z0 s) : Keeps pset z0 (Machine.mdbDrain n s) := by
  unfold Machine.mdbDrain
  repeat' (first
    | with_reducible first
      | assumption | apply K.putF h_regs | apply K.fabWrite h_regs h_mem h_outs h_intc h_bnk | apply K.mdbMod h_mdb
      | apply K.mdbFifoShow h_regs h_outs h_intc | refine Keeps.ite (fun _ => ?_) (fun _ => ?_)
    | intro _ _ | dsimp only | split)

theorem mdbAccept {pset : List Part} {z0 : State} {s : State} {n : Nat} {r : List Byte} {time : DWord} {flags :
    Nat} (h_regs : Part.regs ∈ pset) (h_cnts : Part.cnts ∈ pset) (h_mem : Part.mem ∈ pset) (h_outs : Part.outs ∈ pset)
    (h_intc : Part.intc ∈ pset) (h_bnk : Part.bnk ∈ pset) (h_mdb : Part.mdb ∈ pset) (hk : Keeps pset z0 s) : Keeps
    pset z0 (Machine.mdbAccept s n r time flags) := by
  unfold Machine.mdbAccept
  repeat' (first
    | with_reducible first
      | assumption | apply K.bump h_cnts | apply K.mdbMod h_mdb | apply K.mdbNote h_regs h_cnts h_outs h_intc
      | apply K.mdbFifoShow h_regs h_outs h_intc | apply K.mdbDrain h_regs h_mem h_outs h_intc h_bnk h_mdb
      | refine Keeps.ite (fun _ => ?_) (fun _ => ?_)
    | intro _ _ | dsimp only | split)

theorem mdbLoop {pset : List Part} {z0 : State} {s : State} {n : Nat} {r : List Byte} {edges : List (BitVec 7)}
    (h_regs : Part.regs ∈ pset) (h_outs : Part.outs ∈ pset) (h_intc : Part.intc ∈ pset) (hk : Keeps pset z0 s) : Keeps
    pset z0 (Machine.mdbLoop s n r edges) := by
  unfold Machine.mdbLoop
  repeat' (first
    | with_reducible first
      | assumption | apply K.putF h_regs | apply K.putB h_regs | apply K.raiseIrq h_regs h_outs h_intc
      | refine Keeps.ite (fun _ => ?_) (fun _ => ?_)
    | intro _ _ | dsimp only | split)

theorem mdbSent {pset : List Part} {z0 : State} {n : Nat} {edges : List (BitVec 7)} {s : State} (h_regs :
    Part.regs ∈ pset) (h_cnts : Part.cnts ∈ pset) (h_free : Part.free ∈ pset) (h_mem : Part.mem ∈ pset) (h_outs :
    Part.outs ∈ pset) (h_intc : Part.intc ∈ pset) (h_sw : Part.sw ∈ pset) (h_gate : Part.gate ∈ pset) (h_vlt :
    Part.vlt ∈ pset) (h_bnk : Part.bnk ∈ pset) (h_mdb : Part.mdb ∈ pset) (hk : Keeps pset z0 s) : Keeps pset z0
    (Machine.mdbSent n edges s) := by
  unfold Machine.mdbSent
  repeat' (first
    | with_reducible first
      | assumption | apply K.putB h_regs | apply K.emit h_outs
      | apply K.itemTransmitted h_regs h_cnts h_free h_mem h_outs h_intc h_sw h_gate h_vlt h_bnk
      | apply K.gateEntryDrop h_gate | apply K.mdbMod h_mdb | apply K.mdbSetTb h_mdb | apply K.mdbPins h_mdb
      | apply K.mdbErrShow h_regs h_outs h_intc | apply K.mdbStatus h_regs h_mem h_outs h_intc h_bnk
      | apply K.mdbNote h_regs h_cnts h_outs h_intc | apply K.mdbAccept h_regs h_cnts h_mem h_outs h_intc h_bnk h_mdb
      | apply K.mdbLoop h_regs h_outs h_intc | refine Keeps.ite (fun _ => ?_) (fun _ => ?_)
    | intro _ _ | dsimp only | split)

theorem mdbFlag {pset : List Part} {z0 : State} {s : State} {n : Nat} (h_outs : Part.outs ∈ pset) (hk : Keeps pset
    z0 s) : Keeps pset z0 (Machine.mdbFlag s n) := by
  unfold Machine.mdbFlag
  repeat' (first
    | with_reducible first
      | assumption | apply K.emit h_outs | refine Keeps.ite (fun _ => ?_) (fun _ => ?_)
    | split)

theorem mdbErr {pset : List Part} {z0 : State} {s : State} {n : Nat} {e : MdbErr} {inData : Bool} (h_regs :
    Part.regs ∈ pset) (h_cnts : Part.cnts ∈ pset) (h_outs : Part.outs ∈ pset) (h_intc : Part.intc ∈ pset) (h_mdb :
    Part.mdb ∈ pset) (hk : Keeps pset z0 s) : Keeps pset z0 (Machine.mdbErr s n e inData) := by
  unfold Machine.mdbErr
  repeat' (first
    | with_reducible first
      | assumption | apply K.setR h_regs | apply K.bump h_cnts | apply K.raiseIrq h_regs h_outs h_intc
      | apply K.mdbMod h_mdb | refine Keeps.ite (fun _ => ?_) (fun _ => ?_)
    | intro _ _ | dsimp only | split)

theorem mdbFailed {pset : List Part} {z0 : State} {n : Nat} {why0 : MdbErr} {inData : Bool} {exempt : Bool} {edges
    : List (BitVec 7)} {s : State} (h_regs : Part.regs ∈ pset) (h_cnts : Part.cnts ∈ pset) (h_free : Part.free ∈ pset)
    (h_mem : Part.mem ∈ pset) (h_outs : Part.outs ∈ pset) (h_intc : Part.intc ∈ pset) (h_sw : Part.sw ∈ pset) (h_gate
    : Part.gate ∈ pset) (h_vlt : Part.vlt ∈ pset) (h_bnk : Part.bnk ∈ pset) (h_mdb : Part.mdb ∈ pset) (hk : Keeps pset
    z0 s) : Keeps pset z0 (Machine.mdbFailed n why0 inData exempt edges s) := by
  unfold Machine.mdbFailed
  repeat' (first
    | with_reducible first
      | assumption | apply K.mdbMod h_mdb | apply K.mdbErrShow h_regs h_outs h_intc
      | apply K.mdbOff h_regs h_gate h_mdb
      | apply K.mdbPending h_regs h_cnts h_free h_mem h_outs h_intc h_sw h_gate h_vlt h_bnk h_mdb
      | apply K.mdbBusOff h_regs h_cnts h_free h_mem h_outs h_intc h_sw h_gate h_vlt h_bnk h_mdb
      | apply K.mdbLoop h_regs h_outs h_intc | apply K.mdbFlag h_outs
      | apply K.mdbErr h_regs h_cnts h_outs h_intc h_mdb | refine Keeps.ite (fun _ => ?_) (fun _ => ?_)
    | intro _ _ | dsimp only | split)

theorem mdbLife {pset : List Part} {z0 : State} {n : Nat} {b : Nat} {s : State} (h_regs : Part.regs ∈ pset)
    (h_cnts : Part.cnts ∈ pset) (h_mem : Part.mem ∈ pset) (h_outs : Part.outs ∈ pset) (h_intc : Part.intc ∈ pset)
    (h_sys : Part.sys ∈ pset) (h_bnk : Part.bnk ∈ pset) (h_mdb : Part.mdb ∈ pset) (h_time : Part.time ∈ pset) (h_pwr :
    Part.pwr ∈ pset) (hk : Keeps pset z0 s) : Keeps pset z0 (Machine.mdbLife n b s) := by
  unfold Machine.mdbLife
  repeat' (first
    | with_reducible first
      | assumption | apply K.advanceNs h_cnts h_sys h_time h_pwr
      | apply K.mdbEndDue h_regs h_cnts h_mem h_outs h_intc h_bnk h_mdb | refine Keeps.ite (fun _ => ?_) (fun _ => ?_)
    | dsimp only | split)

theorem mdbReceive {pset : List Part} {z0 : State} {n : Nat} {r : List Byte} {esi : Bool} {err : Option MdbErr}
    {inData : Bool} {heavy : Bool} {ago : Word} {s : State} (h_regs : Part.regs ∈ pset) (h_cnts : Part.cnts ∈ pset)
    (h_free : Part.free ∈ pset) (h_mem : Part.mem ∈ pset) (h_outs : Part.outs ∈ pset) (h_intc : Part.intc ∈ pset)
    (h_bnk : Part.bnk ∈ pset) (h_mdb : Part.mdb ∈ pset) (hk : Keeps pset z0 s) : Keeps pset z0 (Machine.mdbReceive n r
    esi err inData heavy ago s) := by
  unfold Machine.mdbReceive
  repeat' (first
    | with_reducible first
      | assumption | apply K.fresh h_free | apply K.emit h_outs | apply K.mdbMod h_mdb
      | apply K.mdbErrShow h_regs h_outs h_intc | apply K.mdbAccept h_regs h_cnts h_mem h_outs h_intc h_bnk h_mdb
      | apply K.mdbFlag h_outs | apply K.mdbErr h_regs h_cnts h_outs h_intc h_mdb
      | refine Keeps.ite (fun _ => ?_) (fun _ => ?_)
    | intro _ _ | dsimp only | split)

theorem mdbModeDone {pset : List Part} {z0 : State} {n : Nat} {s : State} (h_mdb : Part.mdb ∈ pset) (hk : Keeps
    pset z0 s) : Keeps pset z0 (Machine.mdbModeDone n s) := by
  unfold Machine.mdbModeDone
  repeat' (first
    | with_reducible first
      | assumption | apply K.mdbMod h_mdb | refine Keeps.ite (fun _ => ?_) (fun _ => ?_)
    | intro _ _ | dsimp only | split)

theorem mdbWoken {pset : List Part} {z0 : State} {n : Nat} {s : State} (h_regs : Part.regs ∈ pset) (h_outs :
    Part.outs ∈ pset) (h_intc : Part.intc ∈ pset) (h_sys : Part.sys ∈ pset) (h_pwr : Part.pwr ∈ pset) (hk : Keeps pset
    z0 s) : Keeps pset z0 (Machine.mdbWoken n s) := by
  unfold Machine.mdbWoken
  repeat' (first
    | with_reducible first
      | assumption | apply K.raiseIrq h_regs h_outs h_intc | apply K.wakeSource h_regs h_outs h_intc h_sys h_pwr
      | refine Keeps.ite (fun _ => ?_) (fun _ => ?_)
    | split)

end Sys2Proof.Laws.K
end

