-- ==== Sys2Proof/Laws/KeepsPlk.lean ====
section
/-! SUPPORT. What the operations of `Machine/Plk.lean` keep. -/

namespace Sys2Proof.Laws.K

open Sys2Proof Sys2Proof.Machine Sys2Proof.Laws

theorem plkMod {pset : List Part} {z0 : State} {s : State} {n : Nat} {f : PlkSt → PlkSt} (h_plk : Part.plk ∈ pset)
    (hk : Keeps pset z0 s) : Keeps pset z0 (Machine.plkMod s n f) := by
  unfold Machine.plkMod
  repeat' (first
    | with_reducible first
      | assumption
    | dsimp only | simp only [Keeps.lit_plk h_plk])

theorem plkAt {pset : List Part} {z0 : State} {s : State} {n : Nat} {k : Nat} (h_cnts : Part.cnts ∈ pset) (h_sys :
    Part.sys ∈ pset) (h_time : Part.time ∈ pset) (h_pwr : Part.pwr ∈ pset) (hk : Keeps pset z0 s) : Keeps pset z0
    (Machine.plkAt s n k) := by
  unfold Machine.plkAt
  repeat' (first
    | with_reducible first
      | assumption | apply K.advanceHalf h_cnts h_sys h_time h_pwr)

theorem plkSetP {pset : List Part} {z0 : State} {s : State} {n : Nat} {p : Nat} (h_regs : Part.regs ∈ pset)
    (h_outs : Part.outs ∈ pset) (h_intc : Part.intc ∈ pset) (hk : Keeps pset z0 s) : Keeps pset z0 (Machine.plkSetP s
    n p) := by
  unfold Machine.plkSetP
  repeat' (first
    | with_reducible first
      | assumption | apply K.putF h_regs | apply K.putB h_regs | apply K.raiseIrq h_regs h_outs h_intc
      | refine Keeps.ite (fun _ => ?_) (fun _ => ?_)
    | dsimp only | split | simp only [id_eq])

theorem plkReassigned {pset : List Part} {z0 : State} {s : State} {n : Nat} {v : Bool} (h_regs : Part.regs ∈ pset)
    (h_outs : Part.outs ∈ pset) (h_intc : Part.intc ∈ pset) (hk : Keeps pset z0 s) : Keeps pset z0
    (Machine.plkReassigned s n v) := by
  unfold Machine.plkReassigned
  repeat' (first
    | with_reducible first
      | assumption | apply K.putB h_regs | apply K.raiseIrq h_regs h_outs h_intc
      | refine Keeps.ite (fun _ => ?_) (fun _ => ?_)
    | dsimp only | split)

theorem plkNote {pset : List Part} {z0 : State} {s : State} {n : Nat} {k : Nat} {i : Nat} (h_regs : Part.regs ∈
    pset) (h_cnts : Part.cnts ∈ pset) (h_outs : Part.outs ∈ pset) (h_intc : Part.intc ∈ pset) (hk : Keeps pset z0 s) :
    Keeps pset z0 (Machine.plkNote s n k i) := by
  unfold Machine.plkNote
  repeat' (first
    | with_reducible first
      | assumption | apply K.bump h_cnts | apply K.raiseIrq h_regs h_outs h_intc)

theorem plkCmdEnd {pset : List Part} {z0 : State} {s : State} {n : Nat} {st : Nat} {m : Nat} {k : Nat} (h_regs :
    Part.regs ∈ pset) (h_outs : Part.outs ∈ pset) (h_intc : Part.intc ∈ pset) (hk : Keeps pset z0 s) : Keeps pset z0
    (Machine.plkCmdEnd s n st m k) := by
  unfold Machine.plkCmdEnd
  repeat' (first
    | with_reducible first
      | assumption | apply K.setR h_regs | apply K.raiseIrq h_regs h_outs h_intc)

theorem plkCommit {pset : List Part} {z0 : State} {n : Nat} {s : State} (h_regs : Part.regs ∈ pset) (h_outs :
    Part.outs ∈ pset) (h_intc : Part.intc ∈ pset) (hk : Keeps pset z0 s) : Keeps pset z0 (Machine.plkCommit n s) := by
  unfold Machine.plkCommit
  repeat' (first
    | with_reducible first
      | assumption | apply K.putF h_regs | apply K.plkCmdEnd h_regs h_outs h_intc
      | refine Keeps.ite (fun _ => ?_) (fun _ => ?_)
    | dsimp only | split)

theorem plkUncommit {pset : List Part} {z0 : State} {n : Nat} {s : State} (h_regs : Part.regs ∈ pset) (h_outs :
    Part.outs ∈ pset) (h_intc : Part.intc ∈ pset) (hk : Keeps pset z0 s) : Keeps pset z0 (Machine.plkUncommit n s) :=
    by
  unfold Machine.plkUncommit
  repeat' (first
    | with_reducible first
      | assumption | apply K.putF h_regs | apply K.plkCmdEnd h_regs h_outs h_intc
      | refine Keeps.ite (fun _ => ?_) (fun _ => ?_)
    | split)

theorem plkListen {pset : List Part} {z0 : State} {s : State} {n : Nat} {t : Nat} {bits : Nat} (h_regs : Part.regs
    ∈ pset) (h_outs : Part.outs ∈ pset) (h_intc : Part.intc ∈ pset) (h_plk : Part.plk ∈ pset) (hk : Keeps pset z0 s) :
    Keeps pset z0 (Machine.plkListen s n t bits) := by
  unfold Machine.plkListen
  repeat' (first
    | with_reducible first
      | assumption | apply K.putB h_regs | apply K.plkMod h_plk | apply K.plkSetP h_regs h_outs h_intc
      | refine Keeps.ite (fun _ => ?_) (fun _ => ?_)
    | intro _ _ | dsimp only | split)

theorem plkActivity {pset : List Part} {z0 : State} {s : State} {n : Nat} (h_plk : Part.plk ∈ pset) (hk : Keeps
    pset z0 s) : Keeps pset z0 (Machine.plkActivity s n) := by
  unfold Machine.plkActivity
  repeat' (first
    | with_reducible first
      | assumption | apply K.plkMod h_plk
    | intro _ _ | dsimp only)

theorem plkChBoth {pset : List Part} {z0 : State} {s : State} {n : Nat} {i : Nat} {v : Bool} (h_regs : Part.regs ∈
    pset) (hk : Keeps pset z0 s) : Keeps pset z0 (Machine.plkChBoth s n i v) := by
  unfold Machine.plkChBoth
  repeat' (first
    | with_reducible first
      | assumption | apply K.putB h_regs)

theorem plkChMod {pset : List Part} {z0 : State} {s : State} {n : Nat} {b : Bool} {f : PlkCh → PlkCh} (h_plk :
    Part.plk ∈ pset) (hk : Keeps pset z0 s) : Keeps pset z0 (Machine.plkChMod s n b f) := by
  unfold Machine.plkChMod
  repeat' (first
    | with_reducible first
      | assumption | apply K.plkMod h_plk | refine Keeps.ite (fun _ => ?_) (fun _ => ?_)
    | intro _ _ | dsimp only | split)

theorem plkTxen {pset : List Part} {z0 : State} {s : State} {n : Nat} {b : Bool} {v : Bool} (h_regs : Part.regs ∈
    pset) (h_plk : Part.plk ∈ pset) (hk : Keeps pset z0 s) : Keeps pset z0 (Machine.plkTxen s n b v) := by
  unfold Machine.plkTxen
  repeat' (first
    | with_reducible first
      | assumption | apply K.putB h_regs | apply K.plkChMod h_plk
    | intro _ _ | dsimp only)

theorem plkOff {pset : List Part} {z0 : State} {s : State} {n : Nat} (h_regs : Part.regs ∈ pset) (h_plk : Part.plk
    ∈ pset) (hk : Keeps pset z0 s) : Keeps pset z0 (Machine.plkOff s n) := by
  unfold Machine.plkOff
  repeat' (first
    | with_reducible first
      | assumption | apply K.plkTxen h_regs h_plk)

theorem plkPins {pset : List Part} {z0 : State} {s : State} {n : Nat} {on : Bool} (h_plk : Part.plk ∈ pset) (hk :
    Keeps pset z0 s) : Keeps pset z0 (Machine.plkPins s n on) := by
  unfold Machine.plkPins
  repeat' (first
    | with_reducible first
      | assumption | apply K.plkMod h_plk | refine Keeps.ite (fun _ => ?_) (fun _ => ?_)
    | intro _ _ | dsimp only | split)

theorem plkHeardTo {pset : List Part} {z0 : State} {s : State} {n : Nat} {b : Bool} {t : Nat} (h_plk : Part.plk ∈
    pset) (hk : Keeps pset z0 s) : Keeps pset z0 (Machine.plkHeardTo s n b t) := by
  unfold Machine.plkHeardTo
  repeat' (first
    | with_reducible first
      | assumption | apply K.plkChMod h_plk
    | intro _ _ | dsimp only)

theorem plkStartCmd {pset : List Part} {z0 : State} {n : Nat} {s : State} (h_regs : Part.regs ∈ pset) (h_outs :
    Part.outs ∈ pset) (h_intc : Part.intc ∈ pset) (h_sw : Part.sw ∈ pset) (h_plk : Part.plk ∈ pset) (hk : Keeps pset
    z0 s) : Keeps pset z0 (Machine.plkStartCmd n s) := by
  unfold Machine.plkStartCmd
  repeat' (first
    | with_reducible first
      | assumption | apply K.setR h_regs | apply K.putF h_regs | apply K.raiseIrq h_regs h_outs h_intc
      | apply K.plkMod h_plk | apply K.plkCmdEnd h_regs h_outs h_intc | apply K.plkListen h_regs h_outs h_intc h_plk
      | apply K.plkChBoth h_regs | apply K.plkPins h_plk | apply K.chosen h_sw
      | refine Keeps.ite (fun _ => ?_) (fun _ => ?_)
    | intro _ _ | dsimp only | split)

theorem plkReturn {pset : List Part} {z0 : State} {s : State} {n : Nat} {t : PlTx} (h_regs : Part.regs ∈ pset)
    (h_cnts : Part.cnts ∈ pset) (h_free : Part.free ∈ pset) (h_mem : Part.mem ∈ pset) (h_outs : Part.outs ∈ pset)
    (h_intc : Part.intc ∈ pset) (h_sw : Part.sw ∈ pset) (h_gate : Part.gate ∈ pset) (h_vlt : Part.vlt ∈ pset) (h_bnk :
    Part.bnk ∈ pset) (h_plk : Part.plk ∈ pset) (hk : Keeps pset z0 s) : Keeps pset z0 (Machine.plkReturn s n t) := by
  unfold Machine.plkReturn
  repeat' (first
    | with_reducible first
      | assumption | apply K.putF h_regs | apply K.bump h_cnts
      | apply K.gateEntryBack h_regs h_cnts h_free h_mem h_outs h_intc h_sw h_gate h_vlt h_bnk | apply K.plkMod h_plk
      | refine Keeps.ite (fun _ => ?_) (fun _ => ?_)
    | intro _ _ | dsimp only | split)

theorem plkReturnAll {pset : List Part} {z0 : State} {s : State} {n : Nat} (h_regs : Part.regs ∈ pset) (h_cnts :
    Part.cnts ∈ pset) (h_free : Part.free ∈ pset) (h_mem : Part.mem ∈ pset) (h_outs : Part.outs ∈ pset) (h_intc :
    Part.intc ∈ pset) (h_sw : Part.sw ∈ pset) (h_gate : Part.gate ∈ pset) (h_vlt : Part.vlt ∈ pset) (h_bnk : Part.bnk
    ∈ pset) (h_plk : Part.plk ∈ pset) (hk : Keeps pset z0 s) : Keeps pset z0 (Machine.plkReturnAll s n) := by
  unfold Machine.plkReturnAll
  repeat' (first
    | with_reducible first
      | assumption | apply K.plkMod h_plk
      | apply K.plkReturn h_regs h_cnts h_free h_mem h_outs h_intc h_sw h_gate h_vlt h_bnk h_plk | apply K.chosen h_sw
      | refine Keeps.foldr (fun _ _ _ => ?_) ?_
    | intro _ _ | dsimp only)

theorem plkQuiet {pset : List Part} {z0 : State} {s : State} {n : Nat} (h_regs : Part.regs ∈ pset) (h_cnts :
    Part.cnts ∈ pset) (h_free : Part.free ∈ pset) (h_mem : Part.mem ∈ pset) (h_outs : Part.outs ∈ pset) (h_intc :
    Part.intc ∈ pset) (h_sw : Part.sw ∈ pset) (h_gate : Part.gate ∈ pset) (h_vlt : Part.vlt ∈ pset) (h_bnk : Part.bnk
    ∈ pset) (h_plk : Part.plk ∈ pset) (hk : Keeps pset z0 s) : Keeps pset z0 (Machine.plkQuiet s n) := by
  unfold Machine.plkQuiet
  repeat' (first
    | with_reducible first
      | assumption | apply K.plkChBoth h_regs | apply K.plkOff h_regs h_plk
      | apply K.plkReturnAll h_regs h_cnts h_free h_mem h_outs h_intc h_sw h_gate h_vlt h_bnk h_plk)

theorem plkStop {pset : List Part} {z0 : State} {n : Nat} {s : State} (h_regs : Part.regs ∈ pset) (h_cnts :
    Part.cnts ∈ pset) (h_free : Part.free ∈ pset) (h_mem : Part.mem ∈ pset) (h_outs : Part.outs ∈ pset) (h_intc :
    Part.intc ∈ pset) (h_sw : Part.sw ∈ pset) (h_gate : Part.gate ∈ pset) (h_vlt : Part.vlt ∈ pset) (h_bnk : Part.bnk
    ∈ pset) (h_plk : Part.plk ∈ pset) (hk : Keeps pset z0 s) : Keeps pset z0 (Machine.plkStop n s) := by
  unfold Machine.plkStop
  repeat' (first
    | with_reducible first
      | assumption | apply K.putF h_regs | apply K.putB h_regs | apply K.plkMod h_plk
      | apply K.plkSetP h_regs h_outs h_intc | apply K.plkChBoth h_regs | apply K.plkPins h_plk
      | apply K.plkQuiet h_regs h_cnts h_free h_mem h_outs h_intc h_sw h_gate h_vlt h_bnk h_plk
    | intro _ _ | dsimp only)

theorem plkStopCmd {pset : List Part} {z0 : State} {n : Nat} {s : State} (h_regs : Part.regs ∈ pset) (h_cnts :
    Part.cnts ∈ pset) (h_free : Part.free ∈ pset) (h_mem : Part.mem ∈ pset) (h_outs : Part.outs ∈ pset) (h_intc :
    Part.intc ∈ pset) (h_sw : Part.sw ∈ pset) (h_gate : Part.gate ∈ pset) (h_vlt : Part.vlt ∈ pset) (h_bnk : Part.bnk
    ∈ pset) (h_plk : Part.plk ∈ pset) (hk : Keeps pset z0 s) : Keeps pset z0 (Machine.plkStopCmd n s) := by
  unfold Machine.plkStopCmd
  repeat' (first
    | with_reducible first
      | assumption | apply K.plkCmdEnd h_regs h_outs h_intc
      | apply K.plkStop h_regs h_cnts h_free h_mem h_outs h_intc h_sw h_gate h_vlt h_bnk h_plk
      | refine Keeps.ite (fun _ => ?_) (fun _ => ?_)
    | split)

theorem plkArm {pset : List Part} {z0 : State} {n : Nat} {mode : Nat} {s : State} (h_regs : Part.regs ∈ pset)
    (h_plk : Part.plk ∈ pset) (hk : Keeps pset z0 s) : Keeps pset z0 (Machine.plkArm n mode s) := by
  unfold Machine.plkArm
  repeat' (first
    | with_reducible first
      | assumption | apply K.putB h_regs | apply K.plkMod h_plk
    | intro _ _ | dsimp only)

theorem plkRequest {pset : List Part} {z0 : State} {n : Nat} {mode : Nat} {s : State} (h_regs : Part.regs ∈ pset)
    (h_outs : Part.outs ∈ pset) (h_intc : Part.intc ∈ pset) (h_plk : Part.plk ∈ pset) (hk : Keeps pset z0 s) : Keeps
    pset z0 (Machine.plkRequest n mode s) := by
  unfold Machine.plkRequest
  repeat' (first
    | with_reducible first
      | assumption | apply K.plkCmdEnd h_regs h_outs h_intc | apply K.plkArm h_regs h_plk
      | refine Keeps.ite (fun _ => ?_) (fun _ => ?_)
    | split)

theorem plkCmd {pset : List Part} {z0 : State} {n : Nat} {v : Word} {s : State} (h_regs : Part.regs ∈ pset)
    (h_cnts : Part.cnts ∈ pset) (h_free : Part.free ∈ pset) (h_mem : Part.mem ∈ pset) (h_outs : Part.outs ∈ pset)
    (h_intc : Part.intc ∈ pset) (h_sw : Part.sw ∈ pset) (h_gate : Part.gate ∈ pset) (h_vlt : Part.vlt ∈ pset) (h_bnk :
    Part.bnk ∈ pset) (h_plk : Part.plk ∈ pset) (hk : Keeps pset z0 s) : Keeps pset z0 (Machine.plkCmd n v s) := by
  unfold Machine.plkCmd
  repeat' (first
    | with_reducible first
      | assumption | apply K.plkCmdEnd h_regs h_outs h_intc | apply K.plkCommit h_regs h_outs h_intc
      | apply K.plkUncommit h_regs h_outs h_intc | apply K.plkStartCmd h_regs h_outs h_intc h_sw h_plk
      | apply K.plkStopCmd h_regs h_cnts h_free h_mem h_outs h_intc h_sw h_gate h_vlt h_bnk h_plk
      | apply K.plkRequest h_regs h_outs h_intc h_plk
    | dsimp only | split)

theorem plkParamWrite {pset : List Part} {z0 : State} {m : Master} {pg : Page} {off : Nat} {v : Word} {s : State}
    (h_regs : Part.regs ∈ pset) (h_outs : Part.outs ∈ pset) (h_intc : Part.intc ∈ pset) (hk : Keeps pset z0 s) : Keeps
    pset z0 (Machine.plkParamWrite m pg off v s) := by
  unfold Machine.plkParamWrite
  repeat' (first
    | with_reducible first
      | assumption | apply K.recErr h_regs h_outs h_intc | apply K.plainWrite h_regs h_outs h_intc
      | refine Keeps.ite (fun _ => ?_) (fun _ => ?_)
    | dsimp only | split)

theorem plkSoft {pset : List Part} {z0 : State} {n : Nat} {s : State} (h_regs : Part.regs ∈ pset) (h_cnts :
    Part.cnts ∈ pset) (h_free : Part.free ∈ pset) (h_mem : Part.mem ∈ pset) (h_outs : Part.outs ∈ pset) (h_intc :
    Part.intc ∈ pset) (h_sw : Part.sw ∈ pset) (h_gate : Part.gate ∈ pset) (h_vlt : Part.vlt ∈ pset) (h_bnk : Part.bnk
    ∈ pset) (h_plk : Part.plk ∈ pset) (hk : Keeps pset z0 s) : Keeps pset z0 (Machine.plkSoft n s) := by
  unfold Machine.plkSoft
  repeat' (first
    | with_reducible first
      | assumption | apply K.plkStop h_regs h_cnts h_free h_mem h_outs h_intc h_sw h_gate h_vlt h_bnk h_plk
      | refine Keeps.ite (fun _ => ?_) (fun _ => ?_)
    | dsimp only | split | simp only [Keeps.lit_plk h_plk])

theorem plkRxWrite {pset : List Part} {z0 : State} {s : State} {n : Nat} {rec_ : List Byte} (h_regs : Part.regs ∈
    pset) (h_cnts : Part.cnts ∈ pset) (h_mem : Part.mem ∈ pset) (h_outs : Part.outs ∈ pset) (h_intc : Part.intc ∈
    pset) (h_bnk : Part.bnk ∈ pset) (hk : Keeps pset z0 s) : Keeps pset z0 (Machine.plkRxWrite s n rec_).1 := by
  unfold Machine.plkRxWrite
  repeat' (first
    | with_reducible first
      | assumption | apply K.putF h_regs | apply K.fabWrite h_regs h_mem h_outs h_intc h_bnk
      | apply K.plkNote h_regs h_cnts h_outs h_intc | refine Keeps.ite (fun _ => ?_) (fun _ => ?_)
      | refine Keeps.iteFst (fun _ => ?_) (fun _ => ?_)
    | dsimp only | split)

theorem plkTake {pset : List Part} {z0 : State} {s : State} {n : Nat} {k : Nat} {b : Bool} {dev : Option Int} {t :
    Nat} {body : List Byte} (h_regs : Part.regs ∈ pset) (h_cnts : Part.cnts ∈ pset) (h_mem : Part.mem ∈ pset) (h_outs
    : Part.outs ∈ pset) (h_intc : Part.intc ∈ pset) (h_bnk : Part.bnk ∈ pset) (h_plk : Part.plk ∈ pset) (hk : Keeps
    pset z0 s) : Keeps pset z0 (Machine.plkTake s n k b dev t body) := by
  unfold Machine.plkTake
  repeat' (first
    | with_reducible first
      | assumption | apply K.setR h_regs | apply K.bump h_cnts | apply K.plkMod h_plk
      | apply K.plkRxWrite h_regs h_cnts h_mem h_outs h_intc h_bnk | refine Keeps.ite (fun _ => ?_) (fun _ => ?_)
    | intro _ _ | dsimp only | split | refine Keeps.ofFst (by with_reducible assumption) ?_
    | refine Keeps.ofSnd (by with_reducible assumption) ?_)

theorem plkSecond {pset : List Part} {z0 : State} {s : State} {n : Nat} {k : Nat} {t : PlTaken} {body : List Byte}
    (h_regs : Part.regs ∈ pset) (h_cnts : Part.cnts ∈ pset) (h_mem : Part.mem ∈ pset) (h_outs : Part.outs ∈ pset)
    (h_intc : Part.intc ∈ pset) (h_bnk : Part.bnk ∈ pset) (hk : Keeps pset z0 s) : Keeps pset z0 (Machine.plkSecond s
    n k t body) := by
  unfold Machine.plkSecond
  repeat' (first
    | with_reducible first
      | assumption | apply K.putB h_regs | apply K.bump h_cnts | apply K.fabWrite h_regs h_mem h_outs h_intc h_bnk
      | refine Keeps.ite (fun _ => ?_) (fun _ => ?_)
    | dsimp only | split)

theorem plkAdopt {pset : List Part} {z0 : State} {s : State} {n : Nat} {b : Bool} {t : Nat} {body : List Byte}
    (h_regs : Part.regs ∈ pset) (h_cnts : Part.cnts ∈ pset) (h_free : Part.free ∈ pset) (h_mem : Part.mem ∈ pset)
    (h_outs : Part.outs ∈ pset) (h_intc : Part.intc ∈ pset) (h_sw : Part.sw ∈ pset) (h_gate : Part.gate ∈ pset) (h_vlt
    : Part.vlt ∈ pset) (h_bnk : Part.bnk ∈ pset) (h_plk : Part.plk ∈ pset) (hk : Keeps pset z0 s) : Keeps pset z0
    (Machine.plkAdopt s n b t body) := by
  unfold Machine.plkAdopt
  repeat' (first
    | with_reducible first
      | assumption | apply K.putF h_regs | apply K.raiseIrq h_regs h_outs h_intc | apply K.plkMod h_plk
      | apply K.plkSetP h_regs h_outs h_intc
      | apply K.plkQuiet h_regs h_cnts h_free h_mem h_outs h_intc h_sw h_gate h_vlt h_bnk h_plk
      | refine Keeps.ite (fun _ => ?_) (fun _ => ?_)
    | intro _ _ | dsimp only | split)

theorem plkOtherMode {pset : List Part} {z0 : State} {s : State} {n : Nat} {body : List Byte} (h_plk : Part.plk ∈
    pset) (hk : Keeps pset z0 s) : Keeps pset z0 (Machine.plkOtherMode s n body) := by
  unfold Machine.plkOtherMode
  repeat' (first
    | with_reducible first
      | assumption | apply K.plkMod h_plk | refine Keeps.ite (fun _ => ?_) (fun _ => ?_)
    | intro _ _ | dsimp only | split)

theorem plkJudged {pset : List Part} {z0 : State} {n : Nat} {b : Bool} {charsOk : Bool} {lt : Int} {start : Nat}
    {body : List Byte} {s0 : State} (h_regs : Part.regs ∈ pset) (h_cnts : Part.cnts ∈ pset) (h_free : Part.free ∈
    pset) (h_mem : Part.mem ∈ pset) (h_outs : Part.outs ∈ pset) (h_intc : Part.intc ∈ pset) (h_sw : Part.sw ∈ pset)
    (h_gate : Part.gate ∈ pset) (h_vlt : Part.vlt ∈ pset) (h_bnk : Part.bnk ∈ pset) (h_plk : Part.plk ∈ pset) (hk :
    Keeps pset z0 s0) : Keeps pset z0 (Machine.plkJudged n b charsOk lt start body s0) := by
  unfold Machine.plkJudged
  repeat' (first
    | with_reducible first
      | assumption | apply K.putF h_regs | apply K.bump h_cnts | apply K.plkMod h_plk | apply K.plkActivity h_plk
      | apply K.plkTake h_regs h_cnts h_mem h_outs h_intc h_bnk h_plk
      | apply K.plkSecond h_regs h_cnts h_mem h_outs h_intc h_bnk
      | apply K.plkAdopt h_regs h_cnts h_free h_mem h_outs h_intc h_sw h_gate h_vlt h_bnk h_plk
      | apply K.plkOtherMode h_plk | refine Keeps.ite (fun _ => ?_) (fun _ => ?_)
    | intro _ _ | dsimp only | split)

theorem plkReceive {pset : List Part} {z0 : State} {n : Nat} {b : Bool} {lt : Nat} {lt2 : Nat} {bits : List Bool}
    {s : State} (h_regs : Part.regs ∈ pset) (h_cnts : Part.cnts ∈ pset) (h_free : Part.free ∈ pset) (h_mem : Part.mem
    ∈ pset) (h_outs : Part.outs ∈ pset) (h_intc : Part.intc ∈ pset) (h_sys : Part.sys ∈ pset) (h_sw : Part.sw ∈ pset)
    (h_gate : Part.gate ∈ pset) (h_vlt : Part.vlt ∈ pset) (h_bnk : Part.bnk ∈ pset) (h_plk : Part.plk ∈ pset) (h_time
    : Part.time ∈ pset) (h_pwr : Part.pwr ∈ pset) (hk : Keeps pset z0 s) : Keeps pset z0 (Machine.plkReceive n b lt
    lt2 bits s) := by
  unfold Machine.plkReceive
  repeat' (first
    | with_reducible first
      | assumption | apply K.advanceHalf h_cnts h_sys h_time h_pwr | apply K.plkActivity h_plk
      | apply K.plkHeardTo h_plk
      | apply K.plkJudged h_regs h_cnts h_free h_mem h_outs h_intc h_sw h_gate h_vlt h_bnk h_plk
      | refine Keeps.ite (fun _ => ?_) (fun _ => ?_)
    | dsimp only | split)

theorem plkSlotEnd {pset : List Part} {z0 : State} {n : Nat} {k : Nat} {s : State} (h_regs : Part.regs ∈ pset)
    (h_cnts : Part.cnts ∈ pset) (h_sys : Part.sys ∈ pset) (h_time : Part.time ∈ pset) (h_pwr : Part.pwr ∈ pset) (hk :
    Keeps pset z0 s) : Keeps pset z0 (Machine.plkSlotEnd n k s) := by
  unfold Machine.plkSlotEnd
  repeat' (first
    | with_reducible first
      | assumption | apply K.putB h_regs | apply K.bump h_cnts | apply K.plkAt h_cnts h_sys h_time h_pwr
      | refine Keeps.ite (fun _ => ?_) (fun _ => ?_)
    | intro _ _ | dsimp only | split)

theorem plkNit {pset : List Part} {z0 : State} {n : Nat} {s : State} (h_regs : Part.regs ∈ pset) (h_cnts :
    Part.cnts ∈ pset) (h_free : Part.free ∈ pset) (h_mem : Part.mem ∈ pset) (h_outs : Part.outs ∈ pset) (h_intc :
    Part.intc ∈ pset) (h_sys : Part.sys ∈ pset) (h_sw : Part.sw ∈ pset) (h_gate : Part.gate ∈ pset) (h_vlt : Part.vlt
    ∈ pset) (h_bnk : Part.bnk ∈ pset) (h_plk : Part.plk ∈ pset) (h_time : Part.time ∈ pset) (h_pwr : Part.pwr ∈ pset)
    (hk : Keeps pset z0 s) : Keeps pset z0 (Machine.plkNit n s) := by
  unfold Machine.plkNit
  repeat' (first
    | with_reducible first
      | assumption | apply K.bump h_cnts | apply K.plkMod h_plk | apply K.plkAt h_cnts h_sys h_time h_pwr
      | apply K.plkSetP h_regs h_outs h_intc | apply K.plkReassigned h_regs h_outs h_intc
      | apply K.plkNote h_regs h_cnts h_outs h_intc | apply K.plkListen h_regs h_outs h_intc h_plk
      | apply K.plkQuiet h_regs h_cnts h_free h_mem h_outs h_intc h_sw h_gate h_vlt h_bnk h_plk
      | refine Keeps.ite (fun _ => ?_) (fun _ => ?_)
    | intro _ _ | dsimp only | split)

theorem plkModeApply {pset : List Part} {z0 : State} {s : State} {n : Nat} {m : Nat} (h_regs : Part.regs ∈ pset)
    (h_outs : Part.outs ∈ pset) (h_intc : Part.intc ∈ pset) (h_plk : Part.plk ∈ pset) (hk : Keeps pset z0 s) : Keeps
    pset z0 (Machine.plkModeApply s n m) := by
  unfold Machine.plkModeApply
  repeat' (first
    | with_reducible first
      | assumption | apply K.putF h_regs | apply K.raiseIrq h_regs h_outs h_intc | apply K.plkMod h_plk
      | apply K.plkSetP h_regs h_outs h_intc | apply K.plkReassigned h_regs h_outs h_intc
      | refine Keeps.ite (fun _ => ?_) (fun _ => ?_)
    | intro _ _ | dsimp only | split)

theorem plkSlotsOver {pset : List Part} {z0 : State} {s : State} {n : Nat} (h_regs : Part.regs ∈ pset) (hk : Keeps
    pset z0 s) : Keeps pset z0 (Machine.plkSlotsOver s n) := by
  unfold Machine.plkSlotsOver
  repeat' (first
    | with_reducible first
      | assumption | apply K.putB h_regs | refine Keeps.ite (fun _ => ?_) (fun _ => ?_)
      | refine Keeps.foldl (fun _ _ _ => ?_) ?_
    | intro _ _ | split)

theorem plkCycleStart {pset : List Part} {z0 : State} {n : Nat} {gcount : Word} {s : State} (h_regs : Part.regs ∈
    pset) (h_cnts : Part.cnts ∈ pset) (h_outs : Part.outs ∈ pset) (h_intc : Part.intc ∈ pset) (h_sys : Part.sys ∈
    pset) (h_plk : Part.plk ∈ pset) (h_time : Part.time ∈ pset) (h_pwr : Part.pwr ∈ pset) (hk : Keeps pset z0 s) :
    Keeps pset z0 (Machine.plkCycleStart n gcount s) := by
  unfold Machine.plkCycleStart
  repeat' (first
    | with_reducible first
      | assumption | apply K.putF h_regs | apply K.putB h_regs | apply K.advanceHalf h_cnts h_sys h_time h_pwr
      | apply K.plkMod h_plk | apply K.plkSetP h_regs h_outs h_intc | apply K.plkNote h_regs h_cnts h_outs h_intc
      | apply K.plkModeApply h_regs h_outs h_intc h_plk | apply K.plkSlotsOver h_regs
      | refine Keeps.ite (fun _ => ?_) (fun _ => ?_)
    | intro _ _ | dsimp only | split)

theorem plkFromGate {pset : List Part} {z0 : State} {s : State} {n : Nat} {k : Nat} {pmax : Nat} (h_regs :
    Part.regs ∈ pset) (h_cnts : Part.cnts ∈ pset) (h_free : Part.free ∈ pset) (h_mem : Part.mem ∈ pset) (h_outs :
    Part.outs ∈ pset) (h_intc : Part.intc ∈ pset) (h_sw : Part.sw ∈ pset) (h_gate : Part.gate ∈ pset) (h_vlt :
    Part.vlt ∈ pset) (h_bnk : Part.bnk ∈ pset) (hk : Keeps pset z0 s) : Keeps pset z0 (Machine.plkFromGate s n k
    pmax).1 := by
  unfold Machine.plkFromGate
  repeat' (first
    | with_reducible first
      | assumption | apply K.itemEndExit h_regs h_cnts h_free h_mem h_outs h_intc h_sw h_gate h_vlt h_bnk
      | apply K.gateEntrySet h_gate | apply K.gateEntryDrop h_gate | apply K.plkNote h_regs h_cnts h_outs h_intc
      | refine Keeps.ite (fun _ => ?_) (fun _ => ?_) | refine Keeps.iteFst (fun _ => ?_) (fun _ => ?_)
    | intro _ _ | dsimp only | split)

theorem plkStatus {pset : List Part} {z0 : State} {s : State} {n : Nat} {idx : Nat} {st : Nat} (h_regs : Part.regs
    ∈ pset) (h_mem : Part.mem ∈ pset) (h_outs : Part.outs ∈ pset) (h_intc : Part.intc ∈ pset) (h_bnk : Part.bnk ∈
    pset) (hk : Keeps pset z0 s) : Keeps pset z0 (Machine.plkStatus s n idx st) := by
  unfold Machine.plkStatus
  repeat' (first
    | with_reducible first
      | assumption | apply K.fabWrite h_regs h_mem h_outs h_intc h_bnk
    | dsimp only)

theorem plkTail {pset : List Part} {z0 : State} {s : State} {n : Nat} (h_regs : Part.regs ∈ pset) (h_outs :
    Part.outs ∈ pset) (h_intc : Part.intc ∈ pset) (hk : Keeps pset z0 s) : Keeps pset z0 (Machine.plkTail s n).2 := by
  unfold Machine.plkTail
  repeat' (first
    | with_reducible first
      | assumption | apply K.fabRead h_regs h_outs h_intc | refine Keeps.ite (fun _ => ?_) (fun _ => ?_)
      | refine Keeps.iteFst (fun _ => ?_) (fun _ => ?_)
    | dsimp only | split)

theorem plkConsume {pset : List Part} {z0 : State} {s : State} {n : Nat} {back : Bool} (h_regs : Part.regs ∈ pset)
    (h_plk : Part.plk ∈ pset) (hk : Keeps pset z0 s) : Keeps pset z0 (Machine.plkConsume s n back) := by
  unfold Machine.plkConsume
  repeat' (first
    | with_reducible first
      | assumption | apply K.putF h_regs | apply K.plkMod h_plk | refine Keeps.ite (fun _ => ?_) (fun _ => ?_)
    | intro _ _ | dsimp only | split)

theorem plkFromRing {pset : List Part} {z0 : State} {s : State} {n : Nat} {m : Nat} {k : Nat} {view : Option Nat →
    PlTx → List Byte} {fuel : Nat} (h_regs : Part.regs ∈ pset) (h_cnts : Part.cnts ∈ pset) (h_mem : Part.mem ∈ pset)
    (h_outs : Part.outs ∈ pset) (h_intc : Part.intc ∈ pset) (h_gate : Part.gate ∈ pset) (h_vlt : Part.vlt ∈ pset)
    (h_bnk : Part.bnk ∈ pset) (h_plk : Part.plk ∈ pset) (hk : Keeps pset z0 s) : Keeps pset z0 (Machine.plkFromRing s
    n m k view fuel).1 := by
  induction fuel generalizing s n m k with
  | zero =>
    unfold Machine.plkFromRing
    repeat' (first
      | with_reducible first
        | assumption | apply K.bump h_cnts | apply K.sieveJudge h_regs h_cnts h_outs h_intc h_gate h_vlt
        | apply K.plkNote h_regs h_cnts h_outs h_intc | apply K.plkArm h_regs h_plk
        | apply K.plkStatus h_regs h_mem h_outs h_intc h_bnk | apply K.plkTail h_regs h_outs h_intc
        | apply K.plkConsume h_regs h_plk | refine Keeps.ite (fun _ => ?_) (fun _ => ?_)
        | refine Keeps.iteFst (fun _ => ?_) (fun _ => ?_)
      | dsimp only | split | refine Keeps.ofFst (by with_reducible assumption) ?_
      | refine Keeps.ofSnd (by with_reducible assumption) ?_)
  | succ _ ih =>
    unfold Machine.plkFromRing
    repeat' (first
      | with_reducible first
        | assumption | apply ih | apply K.bump h_cnts | apply K.sieveJudge h_regs h_cnts h_outs h_intc h_gate h_vlt
        | apply K.plkNote h_regs h_cnts h_outs h_intc | apply K.plkArm h_regs h_plk
        | apply K.plkStatus h_regs h_mem h_outs h_intc h_bnk | apply K.plkTail h_regs h_outs h_intc
        | apply K.plkConsume h_regs h_plk | refine Keeps.ite (fun _ => ?_) (fun _ => ?_)
        | refine Keeps.iteFst (fun _ => ?_) (fun _ => ?_)
      | dsimp only | split | refine Keeps.ofFst (by with_reducible assumption) ?_
      | refine Keeps.ofSnd (by with_reducible assumption) ?_)

theorem plkNull {pset : List Part} {z0 : State} {s : State} {n : Nat} {k : Nat} {view : Option Nat → PlTx → List
    Byte} (h_regs : Part.regs ∈ pset) (h_cnts : Part.cnts ∈ pset) (h_outs : Part.outs ∈ pset) (h_intc : Part.intc ∈
    pset) (h_gate : Part.gate ∈ pset) (h_vlt : Part.vlt ∈ pset) (hk : Keeps pset z0 s) : Keeps pset z0
    (Machine.plkNull s n k view).1 := by
  unfold Machine.plkNull
  repeat' (first
    | with_reducible first
      | assumption | apply K.bump h_cnts | apply K.sieveJudge h_regs h_cnts h_outs h_intc h_gate h_vlt
      | apply K.plkNote h_regs h_cnts h_outs h_intc | refine Keeps.ite (fun _ => ?_) (fun _ => ?_)
      | refine Keeps.iteFst (fun _ => ?_) (fun _ => ?_)
    | dsimp only | split)

theorem plkChoose {pset : List Part} {z0 : State} {s : State} {n : Nat} {m : Nat} {k : Nat} {c : Nat} (h_regs :
    Part.regs ∈ pset) (h_cnts : Part.cnts ∈ pset) (h_free : Part.free ∈ pset) (h_mem : Part.mem ∈ pset) (h_outs :
    Part.outs ∈ pset) (h_intc : Part.intc ∈ pset) (h_sw : Part.sw ∈ pset) (h_gate : Part.gate ∈ pset) (h_vlt :
    Part.vlt ∈ pset) (h_bnk : Part.bnk ∈ pset) (h_plk : Part.plk ∈ pset) (hk : Keeps pset z0 s) : Keeps pset z0
    (Machine.plkChoose s n m k c).1 := by
  unfold Machine.plkChoose
  repeat' (first
    | with_reducible first
      | assumption | apply K.plkFromGate h_regs h_cnts h_free h_mem h_outs h_intc h_sw h_gate h_vlt h_bnk
      | apply K.plkFromRing h_regs h_cnts h_mem h_outs h_intc h_gate h_vlt h_bnk h_plk
      | apply K.plkNull h_regs h_cnts h_outs h_intc h_gate h_vlt
    | dsimp only | split | refine Keeps.ofFst (by with_reducible assumption) ?_
    | refine Keeps.ofSnd (by with_reducible assumption) ?_)

theorem plkFetch {pset : List Part} {z0 : State} {n : Nat} {k : Nat} {s : State} (h_regs : Part.regs ∈ pset)
    (h_cnts : Part.cnts ∈ pset) (h_free : Part.free ∈ pset) (h_mem : Part.mem ∈ pset) (h_outs : Part.outs ∈ pset)
    (h_intc : Part.intc ∈ pset) (h_sys : Part.sys ∈ pset) (h_sw : Part.sw ∈ pset) (h_gate : Part.gate ∈ pset) (h_vlt :
    Part.vlt ∈ pset) (h_bnk : Part.bnk ∈ pset) (h_plk : Part.plk ∈ pset) (h_time : Part.time ∈ pset) (h_pwr : Part.pwr
    ∈ pset) (hk : Keeps pset z0 s) : Keeps pset z0 (Machine.plkFetch n k s) := by
  unfold Machine.plkFetch
  repeat' (first
    | with_reducible first
      | assumption | apply K.advanceHalf h_cnts h_sys h_time h_pwr | apply K.plkMod h_plk
      | apply K.plkChoose h_regs h_cnts h_free h_mem h_outs h_intc h_sw h_gate h_vlt h_bnk h_plk | apply K.chosen h_sw
      | refine Keeps.ite (fun _ => ?_) (fun _ => ?_)
    | intro _ _ | dsimp only | split | refine Keeps.ofFst (by with_reducible assumption) ?_
    | refine Keeps.ofSnd (by with_reducible assumption) ?_)

theorem plkDrive {pset : List Part} {z0 : State} {s : State} {n : Nat} {b : Bool} {t : PlTx} (h_regs : Part.regs ∈
    pset) (h_cnts : Part.cnts ∈ pset) (h_outs : Part.outs ∈ pset) (h_intc : Part.intc ∈ pset) (h_plk : Part.plk ∈
    pset) (hk : Keeps pset z0 s) : Keeps pset z0 (Machine.plkDrive s n b t).1 := by
  unfold Machine.plkDrive
  repeat' (first
    | with_reducible first
      | assumption | apply K.putB h_regs | apply K.bump h_cnts | apply K.emit h_outs
      | apply K.raiseIrq h_regs h_outs h_intc | apply K.plkTxen h_regs h_plk
      | refine Keeps.ite (fun _ => ?_) (fun _ => ?_) | refine Keeps.iteFst (fun _ => ?_) (fun _ => ?_)
    | dsimp only | split)

theorem plkRelease {pset : List Part} {z0 : State} {s : State} {n : Nat} (h_regs : Part.regs ∈ pset) (h_plk :
    Part.plk ∈ pset) (hk : Keeps pset z0 s) : Keeps pset z0 (Machine.plkRelease s n) := by
  unfold Machine.plkRelease
  repeat' (first
    | with_reducible first
      | assumption | apply K.plkMod h_plk | apply K.plkChBoth h_regs | apply K.plkOff h_regs h_plk
      | apply K.plkHeardTo h_plk
    | intro _ _ | dsimp only)

theorem plkTransmit {pset : List Part} {z0 : State} {s : State} {n : Nat} {act : Nat} {t0 : PlTx} (h_regs :
    Part.regs ∈ pset) (h_cnts : Part.cnts ∈ pset) (h_free : Part.free ∈ pset) (h_mem : Part.mem ∈ pset) (h_outs :
    Part.outs ∈ pset) (h_intc : Part.intc ∈ pset) (h_sys : Part.sys ∈ pset) (h_sw : Part.sw ∈ pset) (h_gate :
    Part.gate ∈ pset) (h_vlt : Part.vlt ∈ pset) (h_bnk : Part.bnk ∈ pset) (h_plk : Part.plk ∈ pset) (h_time :
    Part.time ∈ pset) (h_pwr : Part.pwr ∈ pset) (hk : Keeps pset z0 s) : Keeps pset z0 (Machine.plkTransmit s n act
    t0) := by
  unfold Machine.plkTransmit
  repeat' (first
    | with_reducible first
      | assumption | apply K.advanceHalf h_cnts h_sys h_time h_pwr | apply K.gateEntrySet h_gate
      | apply K.plkMod h_plk
      | apply K.plkReturn h_regs h_cnts h_free h_mem h_outs h_intc h_sw h_gate h_vlt h_bnk h_plk
      | apply K.plkDrive h_regs h_cnts h_outs h_intc h_plk | refine Keeps.ite (fun _ => ?_) (fun _ => ?_)
    | intro _ _ | dsimp only | split)

theorem plkAction {pset : List Part} {z0 : State} {n : Nat} {k : Nat} {s : State} (h_regs : Part.regs ∈ pset)
    (h_cnts : Part.cnts ∈ pset) (h_free : Part.free ∈ pset) (h_mem : Part.mem ∈ pset) (h_outs : Part.outs ∈ pset)
    (h_intc : Part.intc ∈ pset) (h_sys : Part.sys ∈ pset) (h_sw : Part.sw ∈ pset) (h_gate : Part.gate ∈ pset) (h_vlt :
    Part.vlt ∈ pset) (h_bnk : Part.bnk ∈ pset) (h_plk : Part.plk ∈ pset) (h_time : Part.time ∈ pset) (h_pwr : Part.pwr
    ∈ pset) (hk : Keeps pset z0 s) : Keeps pset z0 (Machine.plkAction n k s) := by
  unfold Machine.plkAction
  repeat' (first
    | with_reducible first
      | assumption | apply K.plkMod h_plk | apply K.plkNull h_regs h_cnts h_outs h_intc h_gate h_vlt
      | apply K.plkTransmit h_regs h_cnts h_free h_mem h_outs h_intc h_sys h_sw h_gate h_vlt h_bnk h_plk h_time h_pwr
      | apply K.chosen h_sw | refine Keeps.ite (fun _ => ?_) (fun _ => ?_)
    | intro _ _ | dsimp only | split | refine Keeps.ofFst (by with_reducible assumption) ?_
    | refine Keeps.ofSnd (by with_reducible assumption) ?_)

theorem plkSent {pset : List Part} {z0 : State} {s : State} {n : Nat} {t : PlTx} (h_regs : Part.regs ∈ pset)
    (h_cnts : Part.cnts ∈ pset) (h_free : Part.free ∈ pset) (h_mem : Part.mem ∈ pset) (h_outs : Part.outs ∈ pset)
    (h_intc : Part.intc ∈ pset) (h_sw : Part.sw ∈ pset) (h_gate : Part.gate ∈ pset) (h_vlt : Part.vlt ∈ pset) (h_bnk :
    Part.bnk ∈ pset) (h_plk : Part.plk ∈ pset) (hk : Keeps pset z0 s) : Keeps pset z0 (Machine.plkSent s n t) := by
  unfold Machine.plkSent
  repeat' (first
    | with_reducible first
      | assumption | apply K.bump h_cnts
      | apply K.itemTransmitted h_regs h_cnts h_free h_mem h_outs h_intc h_sw h_gate h_vlt h_bnk
      | apply K.gateEntryDrop h_gate | apply K.plkMod h_plk
      | apply K.plkReturn h_regs h_cnts h_free h_mem h_outs h_intc h_sw h_gate h_vlt h_bnk h_plk
      | apply K.plkStatus h_regs h_mem h_outs h_intc h_bnk | refine Keeps.ite (fun _ => ?_) (fun _ => ?_)
    | intro _ _ | dsimp only | split)

theorem plkEnd {pset : List Part} {z0 : State} {n : Nat} {s : State} (h_regs : Part.regs ∈ pset) (h_cnts :
    Part.cnts ∈ pset) (h_free : Part.free ∈ pset) (h_mem : Part.mem ∈ pset) (h_outs : Part.outs ∈ pset) (h_intc :
    Part.intc ∈ pset) (h_sys : Part.sys ∈ pset) (h_sw : Part.sw ∈ pset) (h_gate : Part.gate ∈ pset) (h_vlt : Part.vlt
    ∈ pset) (h_bnk : Part.bnk ∈ pset) (h_plk : Part.plk ∈ pset) (h_time : Part.time ∈ pset) (h_pwr : Part.pwr ∈ pset)
    (hk : Keeps pset z0 s) : Keeps pset z0 (Machine.plkEnd n s) := by
  unfold Machine.plkEnd
  repeat' (first
    | with_reducible first
      | assumption | apply K.advanceHalf h_cnts h_sys h_time h_pwr | apply K.plkRelease h_regs h_plk
      | apply K.plkSent h_regs h_cnts h_free h_mem h_outs h_intc h_sw h_gate h_vlt h_bnk h_plk
    | dsimp only | split)

theorem plkTimeout {pset : List Part} {z0 : State} {n : Nat} {edge : Bool} {s : State} (h_regs : Part.regs ∈ pset)
    (h_cnts : Part.cnts ∈ pset) (h_free : Part.free ∈ pset) (h_mem : Part.mem ∈ pset) (h_outs : Part.outs ∈ pset)
    (h_intc : Part.intc ∈ pset) (h_sys : Part.sys ∈ pset) (h_sw : Part.sw ∈ pset) (h_gate : Part.gate ∈ pset) (h_vlt :
    Part.vlt ∈ pset) (h_bnk : Part.bnk ∈ pset) (h_plk : Part.plk ∈ pset) (h_time : Part.time ∈ pset) (h_pwr : Part.pwr
    ∈ pset) (hk : Keeps pset z0 s) : Keeps pset z0 (Machine.plkTimeout n edge s) := by
  unfold Machine.plkTimeout
  repeat' (first
    | with_reducible first
      | assumption | apply K.putF h_regs | apply K.raiseIrq h_regs h_outs h_intc
      | apply K.advanceHalf h_cnts h_sys h_time h_pwr | apply K.plkMod h_plk | apply K.plkSetP h_regs h_outs h_intc
      | apply K.plkChBoth h_regs
      | apply K.plkChoose h_regs h_cnts h_free h_mem h_outs h_intc h_sw h_gate h_vlt h_bnk h_plk
      | apply K.plkTransmit h_regs h_cnts h_free h_mem h_outs h_intc h_sys h_sw h_gate h_vlt h_bnk h_plk h_time h_pwr
      | apply K.chosen h_sw | refine Keeps.ite (fun _ => ?_) (fun _ => ?_)
    | intro _ _ | dsimp only | split | refine Keeps.ofFst (by with_reducible assumption) ?_
    | refine Keeps.ofSnd (by with_reducible assumption) ?_ | simp only [id_eq])

theorem plkEcho {pset : List Part} {z0 : State} {n : Nat} {b : Bool} {s : State} (h_regs : Part.regs ∈ pset)
    (h_cnts : Part.cnts ∈ pset) (h_free : Part.free ∈ pset) (h_mem : Part.mem ∈ pset) (h_outs : Part.outs ∈ pset)
    (h_intc : Part.intc ∈ pset) (h_sw : Part.sw ∈ pset) (h_gate : Part.gate ∈ pset) (h_vlt : Part.vlt ∈ pset) (h_bnk :
    Part.bnk ∈ pset) (h_plk : Part.plk ∈ pset) (hk : Keeps pset z0 s) : Keeps pset z0 (Machine.plkEcho n b s) := by
  unfold Machine.plkEcho
  repeat' (first
    | with_reducible first
      | assumption | apply K.bump h_cnts | apply K.emit h_outs | apply K.raiseIrq h_regs h_outs h_intc
      | apply K.plkMod h_plk | apply K.plkNote h_regs h_cnts h_outs h_intc
      | apply K.plkListen h_regs h_outs h_intc h_plk | apply K.plkChBoth h_regs | apply K.plkTxen h_regs h_plk
      | apply K.plkReturn h_regs h_cnts h_free h_mem h_outs h_intc h_sw h_gate h_vlt h_bnk h_plk
      | apply K.plkReturnAll h_regs h_cnts h_free h_mem h_outs h_intc h_sw h_gate h_vlt h_bnk h_plk
      | apply K.plkRelease h_regs h_plk | refine Keeps.ite (fun _ => ?_) (fun _ => ?_)
      | refine Keeps.foldl (fun _ _ _ => ?_) ?_
    | intro _ _ | dsimp only | split)

theorem plkGuardAt {pset : List Part} {z0 : State} {s : State} {n : Nat} {k : Nat} (h_cnts : Part.cnts ∈ pset)
    (h_sys : Part.sys ∈ pset) (h_time : Part.time ∈ pset) (h_pwr : Part.pwr ∈ pset) (hk : Keeps pset z0 s) : Keeps
    pset z0 (Machine.plkGuardAt s n k) := by
  unfold Machine.plkGuardAt
  repeat' (first
    | with_reducible first
      | assumption | apply K.advanceHalf h_cnts h_sys h_time h_pwr)

theorem plkOpen {pset : List Part} {z0 : State} {n : Nat} {k : Nat} {s : State} (h_regs : Part.regs ∈ pset)
    (h_cnts : Part.cnts ∈ pset) (h_sys : Part.sys ∈ pset) (h_time : Part.time ∈ pset) (h_pwr : Part.pwr ∈ pset) (hk :
    Keeps pset z0 s) : Keeps pset z0 (Machine.plkOpen n k s) := by
  unfold Machine.plkOpen
  repeat' (first
    | with_reducible first
      | assumption | apply K.plkChBoth h_regs | apply K.plkGuardAt h_cnts h_sys h_time h_pwr
      | refine Keeps.ite (fun _ => ?_) (fun _ => ?_)
    | dsimp only | split)

theorem plkCut {pset : List Part} {z0 : State} {s : State} {n : Nat} {b : Bool} {t : PlTx} (h_regs : Part.regs ∈
    pset) (h_cnts : Part.cnts ∈ pset) (h_outs : Part.outs ∈ pset) (h_intc : Part.intc ∈ pset) (h_plk : Part.plk ∈
    pset) (hk : Keeps pset z0 s) : Keeps pset z0 (Machine.plkCut s n b t).1 := by
  unfold Machine.plkCut
  repeat' (first
    | with_reducible first
      | assumption | apply K.bump h_cnts | apply K.raiseIrq h_regs h_outs h_intc | apply K.plkTxen h_regs h_plk
      | refine Keeps.ite (fun _ => ?_) (fun _ => ?_) | refine Keeps.iteFst (fun _ => ?_) (fun _ => ?_)
    | dsimp only | split)

theorem plkClose {pset : List Part} {z0 : State} {n : Nat} {k : Nat} {s : State} (h_regs : Part.regs ∈ pset)
    (h_cnts : Part.cnts ∈ pset) (h_free : Part.free ∈ pset) (h_mem : Part.mem ∈ pset) (h_outs : Part.outs ∈ pset)
    (h_intc : Part.intc ∈ pset) (h_sys : Part.sys ∈ pset) (h_sw : Part.sw ∈ pset) (h_gate : Part.gate ∈ pset) (h_vlt :
    Part.vlt ∈ pset) (h_bnk : Part.bnk ∈ pset) (h_plk : Part.plk ∈ pset) (h_time : Part.time ∈ pset) (h_pwr : Part.pwr
    ∈ pset) (hk : Keeps pset z0 s) : Keeps pset z0 (Machine.plkClose n k s) := by
  unfold Machine.plkClose
  repeat' (first
    | with_reducible first
      | assumption | apply K.plkChBoth h_regs
      | apply K.plkReturn h_regs h_cnts h_free h_mem h_outs h_intc h_sw h_gate h_vlt h_bnk h_plk
      | apply K.plkRelease h_regs h_plk | apply K.plkGuardAt h_cnts h_sys h_time h_pwr
      | apply K.plkCut h_regs h_cnts h_outs h_intc h_plk | refine Keeps.ite (fun _ => ?_) (fun _ => ?_)
    | dsimp only | split)

theorem plkCompare {pset : List Part} {z0 : State} {n : Nat} {i : Nat} {s : State} (h_regs : Part.regs ∈ pset)
    (h_cnts : Part.cnts ∈ pset) (h_outs : Part.outs ∈ pset) (h_intc : Part.intc ∈ pset) (h_sys : Part.sys ∈ pset)
    (h_plk : Part.plk ∈ pset) (h_time : Part.time ∈ pset) (h_pwr : Part.pwr ∈ pset) (hk : Keeps pset z0 s) : Keeps
    pset z0 (Machine.plkCompare n i s) := by
  unfold Machine.plkCompare
  repeat' (first
    | with_reducible first
      | assumption | apply K.setR h_regs | apply K.raiseIrq h_regs h_outs h_intc | apply K.serveEvent h_regs
      | apply K.plkMod h_plk | apply K.plkAt h_cnts h_sys h_time h_pwr | refine Keeps.ite (fun _ => ?_) (fun _ => ?_)
    | intro _ _ | dsimp only | split)

end Sys2Proof.Laws.K
end

