-- ==== Sys2Proof/Laws/KeepsQueues.lean ====
section
/-! SUPPORT. What the operations of `Machine/Queues.lean` keep. -/

namespace Sys2Proof.Laws.K

open Sys2Proof Sys2Proof.Machine Sys2Proof.Laws

theorem fiqSet {pset : List Part} {z0 : State} {s : State} {f : Nat} {q : FiqSt} (h_fiq : Part.fiq ∈ pset) (hk :
    Keeps pset z0 s) : Keeps pset z0 (Machine.fiqSet s f q) := by
  unfold Machine.fiqSet
  repeat' (first
    | with_reducible first
      | assumption
    | dsimp only | simp only [Keeps.lit_fiq h_fiq])

theorem fiqPush {pset : List Part} {z0 t0 : State} {s : State} {f : Nat} {l : List Byte} {eop : Bool} (h_regs :
    Part.regs ∈ pset) (h_cnts : Part.cnts ∈ pset) (h_outs : Part.outs ∈ pset) (h_intc : Part.intc ∈ pset) (h_fiq :
    Part.fiq ∈ pset) (he : Machine.fiqPush s f l eop = some t0) (hk : Keeps pset z0 s) : Keeps pset z0 t0 := by
  unfold Machine.fiqPush at he
  try dsimp only at he
  repeat' split at he
  all_goals (first | (simp only [Option.some.injEq] at he; subst he) | exact absurd he (by simp) | skip)
  all_goals
    repeat' (first
      | with_reducible first
        | assumption | apply K.bumpN h_cnts | apply K.raiseIrq h_regs h_outs h_intc | apply K.slotEvent h_regs
        | apply K.fiqSet h_fiq | refine Keeps.ite (fun _ => ?_) (fun _ => ?_)
      | dsimp only | split)

theorem fiqPop {pset : List Part} {z0 : State} {s : State} {f : Nat} (h_regs : Part.regs ∈ pset) (h_fiq : Part.fiq
    ∈ pset) (hk : Keeps pset z0 s) : Keeps pset z0 (Machine.fiqPop s f).1 := by
  unfold Machine.fiqPop
  repeat' (first
    | with_reducible first
      | assumption | apply K.setR h_regs | apply K.fiqSet h_fiq
    | dsimp only | split | refine Keeps.ofFst (by with_reducible assumption) ?_
    | refine Keeps.ofSnd (by with_reducible assumption) ?_)

theorem fiqCfg {pset : List Part} {z0 : State} {f : Nat} {m : Master} {v : Word} {s : State} (h_regs : Part.regs ∈
    pset) (h_outs : Part.outs ∈ pset) (h_intc : Part.intc ∈ pset) (h_fiq : Part.fiq ∈ pset) (hk : Keeps pset z0 s) :
    Keeps pset z0 (Machine.fiqCfg f m v s) := by
  unfold Machine.fiqCfg
  repeat' (first
    | with_reducible first
      | assumption | apply K.putB h_regs | apply K.recErr h_regs h_outs h_intc | apply K.fiqSet h_fiq
      | refine Keeps.ite (fun _ => ?_) (fun _ => ?_)
    | dsimp only | split)

theorem aqSet {pset : List Part} {z0 : State} {s : State} {a : Nat} {l : List Word} (h_regs : Part.regs ∈ pset)
    (h_outs : Part.outs ∈ pset) (h_intc : Part.intc ∈ pset) (h_aq : Part.aq ∈ pset) (hk : Keeps pset z0 s) : Keeps
    pset z0 (Machine.aqSet s a l) := by
  unfold Machine.aqSet
  repeat' (first
    | with_reducible first
      | assumption | apply K.setLine h_regs h_outs h_intc
    | dsimp only | simp only [Keeps.lit_aq h_aq])

theorem aqPost {pset : List Part} {z0 : State} {a : Nat} {v : Word} {s : State} (h_regs : Part.regs ∈ pset)
    (h_cnts : Part.cnts ∈ pset) (h_outs : Part.outs ∈ pset) (h_intc : Part.intc ∈ pset) (h_aq : Part.aq ∈ pset) (hk :
    Keeps pset z0 s) : Keeps pset z0 (Machine.aqPost a v s) := by
  unfold Machine.aqPost
  repeat' (first
    | with_reducible first
      | assumption | apply K.bump h_cnts | apply K.raiseIrq h_regs h_outs h_intc
      | apply K.aqSet h_regs h_outs h_intc h_aq | refine Keeps.ite (fun _ => ?_) (fun _ => ?_)
    | dsimp only | split)

theorem aqRead {pset : List Part} {z0 : State} {a : Nat} {s : State} (h_regs : Part.regs ∈ pset) (h_outs :
    Part.outs ∈ pset) (h_intc : Part.intc ∈ pset) (h_aq : Part.aq ∈ pset) (hk : Keeps pset z0 s) : Keeps pset z0
    (Machine.aqRead a s).1 := by
  unfold Machine.aqRead
  repeat' (first
    | with_reducible first
      | assumption | apply K.aqSet h_regs h_outs h_intc h_aq
    | intro _ _ | dsimp only | split)

theorem lockRead {pset : List Part} {z0 : State} {k : Nat} {m : Master} {s : State} (h_regs : Part.regs ∈ pset)
    (hk : Keeps pset z0 s) : Keeps pset z0 (Machine.lockRead k m s).1 := by
  unfold Machine.lockRead
  repeat' (first
    | with_reducible first
      | assumption | apply K.putF h_regs
    | dsimp only)

theorem lockWrite {pset : List Part} {z0 : State} {k : Nat} {m : Master} {v : Word} {s : State} (h_regs :
    Part.regs ∈ pset) (h_outs : Part.outs ∈ pset) (h_intc : Part.intc ∈ pset) (hk : Keeps pset z0 s) : Keeps pset z0
    (Machine.lockWrite k m v s) := by
  unfold Machine.lockWrite
  repeat' (first
    | with_reducible first
      | assumption | apply K.putF h_regs | apply K.raiseIrq h_regs h_outs h_intc
      | refine Keeps.ite (fun _ => ?_) (fun _ => ?_)
    | split)

theorem lockFree {pset : List Part} {z0 : State} {k : Nat} {i : Nat} {s : State} (h_regs : Part.regs ∈ pset)
    (h_outs : Part.outs ∈ pset) (h_intc : Part.intc ∈ pset) (hk : Keeps pset z0 s) : Keeps pset z0 (Machine.lockFree k
    i s) := by
  unfold Machine.lockFree
  repeat' (first
    | with_reducible first
      | assumption | apply K.setR h_regs | apply K.putF h_regs | apply K.raiseIrq h_regs h_outs h_intc)

theorem lockForce {pset : List Part} {z0 : State} {m : Master} {v : Word} {s : State} (h_regs : Part.regs ∈ pset)
    (h_outs : Part.outs ∈ pset) (h_intc : Part.intc ∈ pset) (hk : Keeps pset z0 s) : Keeps pset z0 (Machine.lockForce
    m v s) := by
  unfold Machine.lockForce
  repeat' (first
    | with_reducible first
      | assumption | apply K.deny h_regs h_outs h_intc | apply K.lockFree h_regs h_outs h_intc
      | refine Keeps.ite (fun _ => ?_) (fun _ => ?_)
    | dsimp only | split)

theorem mbxPut {pset : List Part} {z0 : State} {s : State} {k : Nat} {st : Nat} {own : Nat} (h_regs : Part.regs ∈
    pset) (hk : Keeps pset z0 s) : Keeps pset z0 (Machine.mbxPut s k st own) := by
  unfold Machine.mbxPut
  repeat' (first
    | with_reducible first
      | assumption | apply K.putF h_regs)

theorem mbxLockRead {pset : List Part} {z0 : State} {k : Nat} {m : Master} {s : State} (h_regs : Part.regs ∈ pset)
    (hk : Keeps pset z0 s) : Keeps pset z0 (Machine.mbxLockRead k m s).1 := by
  unfold Machine.mbxLockRead
  repeat' (first
    | with_reducible first
      | assumption | apply K.mbxPut h_regs | refine Keeps.ite (fun _ => ?_) (fun _ => ?_)
      | refine Keeps.iteFst (fun _ => ?_) (fun _ => ?_)
    | dsimp only | split)

theorem mbxUnlock {pset : List Part} {z0 : State} {s : State} {k : Nat} (h_regs : Part.regs ∈ pset) (hk : Keeps
    pset z0 s) : Keeps pset z0 (Machine.mbxUnlock s k) := by
  unfold Machine.mbxUnlock
  repeat' (first
    | with_reducible first
      | assumption | apply K.mbxPut h_regs | refine Keeps.ite (fun _ => ?_) (fun _ => ?_)
    | split)

theorem mbxLockWrite {pset : List Part} {z0 : State} {k : Nat} {m : Master} {v : Word} {s : State} (h_regs :
    Part.regs ∈ pset) (h_outs : Part.outs ∈ pset) (h_intc : Part.intc ∈ pset) (hk : Keeps pset z0 s) : Keeps pset z0
    (Machine.mbxLockWrite k m v s) := by
  unfold Machine.mbxLockWrite
  repeat' (first
    | with_reducible first
      | assumption | apply K.raiseIrq h_regs h_outs h_intc | apply K.mbxUnlock h_regs
      | refine Keeps.ite (fun _ => ?_) (fun _ => ?_)
    | split)

theorem mbxEnd {pset : List Part} {z0 : State} {s : State} {k : Nat} {code : Nat} (h_regs : Part.regs ∈ pset) (hk
    : Keeps pset z0 s) : Keeps pset z0 (Machine.mbxEnd s k code) := by
  unfold Machine.mbxEnd
  repeat' (first
    | with_reducible first
      | assumption | apply K.setR h_regs | apply K.putF h_regs
    | dsimp only)

theorem mbxEmptied {pset : List Part} {z0 : State} {s : State} {k : Nat} (h_regs : Part.regs ∈ pset) (h_outs :
    Part.outs ∈ pset) (h_intc : Part.intc ∈ pset) (hk : Keeps pset z0 s) : Keeps pset z0 (Machine.mbxEmptied s k) :=
    by
  unfold Machine.mbxEmptied
  repeat' (first
    | with_reducible first
      | assumption | apply K.putB h_regs | apply K.setLine h_regs h_outs h_intc | apply K.mbxPut h_regs)

theorem mbxSend {pset : List Part} {z0 : State} {k : Nat} {m : Master} {v : Word} {s : State} (h_regs : Part.regs
    ∈ pset) (h_outs : Part.outs ∈ pset) (h_intc : Part.intc ∈ pset) (h_sys : Part.sys ∈ pset) (h_mbx : Part.mbx ∈
    pset) (h_pwr : Part.pwr ∈ pset) (hk : Keeps pset z0 s) : Keeps pset z0 (Machine.mbxSend k m v s) := by
  unfold Machine.mbxSend
  repeat' (first
    | with_reducible first
      | assumption | apply K.setR h_regs | apply K.putF h_regs | apply K.setLine h_regs h_outs h_intc
      | apply K.wakeSource h_regs h_outs h_intc h_sys h_pwr | apply K.blkPowerReq h_regs
      | refine Keeps.ite (fun _ => ?_) (fun _ => ?_)
    | dsimp only | split | simp only [Keeps.lit_mbx h_mbx])

theorem mbxAck {pset : List Part} {z0 : State} {k : Nat} {m : Master} {v : Word} {s : State} (h_regs : Part.regs ∈
    pset) (h_outs : Part.outs ∈ pset) (h_intc : Part.intc ∈ pset) (hk : Keeps pset z0 s) : Keeps pset z0
    (Machine.mbxAck k m v s) := by
  unfold Machine.mbxAck
  repeat' (first
    | with_reducible first
      | assumption | apply K.mbxEnd h_regs | apply K.mbxEmptied h_regs h_outs h_intc
      | refine Keeps.ite (fun _ => ?_) (fun _ => ?_)
    | dsimp only | split)

theorem mbxResetCmd {pset : List Part} {z0 : State} {k : Nat} {m : Master} {v : Word} {s : State} (h_regs :
    Part.regs ∈ pset) (h_outs : Part.outs ∈ pset) (h_intc : Part.intc ∈ pset) (hk : Keeps pset z0 s) : Keeps pset z0
    (Machine.mbxResetCmd k m v s) := by
  unfold Machine.mbxResetCmd
  repeat' (first
    | with_reducible first
      | assumption | apply K.deny h_regs h_outs h_intc | apply K.mbxEnd h_regs
      | apply K.mbxEmptied h_regs h_outs h_intc | refine Keeps.ite (fun _ => ?_) (fun _ => ?_)
    | split)

theorem mbxPlain {pset : List Part} {z0 : State} {okNow : Bool} {m : Master} {a : Nat} {msk : Nat} {v : Word} {s :
    State} (h_regs : Part.regs ∈ pset) (h_outs : Part.outs ∈ pset) (h_intc : Part.intc ∈ pset) (hk : Keeps pset z0 s)
    : Keeps pset z0 (Machine.mbxPlain okNow m a msk v s) := by
  unfold Machine.mbxPlain
  repeat' (first
    | with_reducible first
      | assumption | apply K.setR h_regs | apply K.recErr h_regs h_outs h_intc
      | refine Keeps.ite (fun _ => ?_) (fun _ => ?_)
    | split)

theorem mbxCfg {pset : List Part} {z0 : State} {k : Nat} {m : Master} {v : Word} {s : State} (h_regs : Part.regs ∈
    pset) (h_outs : Part.outs ∈ pset) (h_intc : Part.intc ∈ pset) (hk : Keeps pset z0 s) : Keeps pset z0
    (Machine.mbxCfg k m v s) := by
  unfold Machine.mbxCfg
  repeat' (first
    | with_reducible first
      | assumption | apply K.mbxPlain h_regs h_outs h_intc)

theorem mbxHdr {pset : List Part} {z0 : State} {k : Nat} {m : Master} {v : Word} {s : State} (h_regs : Part.regs ∈
    pset) (h_outs : Part.outs ∈ pset) (h_intc : Part.intc ∈ pset) (hk : Keeps pset z0 s) : Keeps pset z0
    (Machine.mbxHdr k m v s) := by
  unfold Machine.mbxHdr
  repeat' (first
    | with_reducible first
      | assumption | apply K.mbxPlain h_regs h_outs h_intc)

theorem mbxData {pset : List Part} {z0 : State} {k : Nat} {i : Nat} {m : Master} {v : Word} {s : State} (h_regs :
    Part.regs ∈ pset) (h_outs : Part.outs ∈ pset) (h_intc : Part.intc ∈ pset) (hk : Keeps pset z0 s) : Keeps pset z0
    (Machine.mbxData k i m v s) := by
  unfold Machine.mbxData
  repeat' (first
    | with_reducible first
      | assumption | apply K.mbxPlain h_regs h_outs h_intc)

theorem mbxEvent {pset : List Part} {z0 : State} {k : Nat} {v : Word} {s : State} (h_regs : Part.regs ∈ pset)
    (h_outs : Part.outs ∈ pset) (h_intc : Part.intc ∈ pset) (hk : Keeps pset z0 s) : Keeps pset z0 (Machine.mbxEvent k
    v s) := by
  unfold Machine.mbxEvent
  repeat' (first
    | with_reducible first
      | assumption | apply K.putB h_regs | apply K.setLine h_regs h_outs h_intc
      | refine Keeps.ite (fun _ => ?_) (fun _ => ?_)
    | split)

theorem freeLocksOf {pset : List Part} {z0 : State} {m : Master} {s : State} (h_regs : Part.regs ∈ pset) (h_outs :
    Part.outs ∈ pset) (h_intc : Part.intc ∈ pset) (hk : Keeps pset z0 s) : Keeps pset z0 (Machine.freeLocksOf m s) :=
    by
  unfold Machine.freeLocksOf
  repeat' (first
    | with_reducible first
      | assumption | apply K.setR h_regs | apply K.raiseIrq h_regs h_outs h_intc
      | apply K.lockFree h_regs h_outs h_intc | apply K.mbxUnlock h_regs
      | refine Keeps.ite (fun _ => ?_) (fun _ => ?_) | refine Keeps.foldl (fun _ _ _ => ?_) ?_
    | intro _ _ | dsimp only | split)

end Sys2Proof.Laws.K
end

