-- ==== Sys2Proof/Laws/KeepsPtc.lean ====
section
/-! SUPPORT. What the operations of `Machine/Ptc.lean` keep. -/

namespace Sys2Proof.Laws.K

open Sys2Proof Sys2Proof.Machine Sys2Proof.Laws

theorem ptcMod {pset : List Part} {z0 : State} {s : State} {n : Nat} {f : PtcSt → PtcSt} (h_ptc : Part.ptc ∈ pset)
    (hk : Keeps pset z0 s) : Keeps pset z0 (Machine.ptcMod s n f) := by
  unfold Machine.ptcMod
  repeat' (first
    | with_reducible first
      | assumption
    | dsimp only | simp only [Keeps.lit_ptc h_ptc])

theorem ptcNote {pset : List Part} {z0 : State} {s : State} {n : Nat} {k : Nat} {i : Nat} (h_regs : Part.regs ∈
    pset) (h_cnts : Part.cnts ∈ pset) (h_outs : Part.outs ∈ pset) (h_intc : Part.intc ∈ pset) (hk : Keeps pset z0 s) :
    Keeps pset z0 (Machine.ptcNote s n k i) := by
  unfold Machine.ptcNote
  repeat' (first
    | with_reducible first
      | assumption | apply K.bump h_cnts | apply K.raiseIrq h_regs h_outs h_intc)

theorem ptcRingStatus {pset : List Part} {z0 : State} {s : State} {n : Nat} {idx : Nat} {st : Nat} (h_regs :
    Part.regs ∈ pset) (h_mem : Part.mem ∈ pset) (h_outs : Part.outs ∈ pset) (h_intc : Part.intc ∈ pset) (h_bnk :
    Part.bnk ∈ pset) (hk : Keeps pset z0 s) : Keeps pset z0 (Machine.ptcRingStatus s n idx st) := by
  unfold Machine.ptcRingStatus
  repeat' (first
    | with_reducible first
      | assumption | apply K.fabWrite h_regs h_mem h_outs h_intc h_bnk
    | dsimp only)

theorem ptcSent {pset : List Part} {z0 : State} {s : State} {n : Nat} (h_regs : Part.regs ∈ pset) (h_cnts :
    Part.cnts ∈ pset) (h_free : Part.free ∈ pset) (h_mem : Part.mem ∈ pset) (h_outs : Part.outs ∈ pset) (h_intc :
    Part.intc ∈ pset) (h_sw : Part.sw ∈ pset) (h_gate : Part.gate ∈ pset) (h_vlt : Part.vlt ∈ pset) (h_bnk : Part.bnk
    ∈ pset) (h_ptc : Part.ptc ∈ pset) (hk : Keeps pset z0 s) : Keeps pset z0 (Machine.ptcSent s n) := by
  unfold Machine.ptcSent
  repeat' (first
    | with_reducible first
      | assumption | apply K.itemTransmitted h_regs h_cnts h_free h_mem h_outs h_intc h_sw h_gate h_vlt h_bnk
      | apply K.ptcMod h_ptc | apply K.ptcNote h_regs h_cnts h_outs h_intc
      | apply K.ptcRingStatus h_regs h_mem h_outs h_intc h_bnk | refine Keeps.ite (fun _ => ?_) (fun _ => ?_)
    | intro _ _ | dsimp only | split)

theorem ptcTsGone {pset : List Part} {z0 : State} {s : State} {n : Nat} (h_regs : Part.regs ∈ pset) (h_cnts :
    Part.cnts ∈ pset) (h_free : Part.free ∈ pset) (h_mem : Part.mem ∈ pset) (h_outs : Part.outs ∈ pset) (h_intc :
    Part.intc ∈ pset) (h_sw : Part.sw ∈ pset) (h_gate : Part.gate ∈ pset) (h_vlt : Part.vlt ∈ pset) (h_bnk : Part.bnk
    ∈ pset) (h_ptc : Part.ptc ∈ pset) (hk : Keeps pset z0 s) : Keeps pset z0 (Machine.ptcTsGone s n) := by
  unfold Machine.ptcTsGone
  repeat' (first
    | with_reducible first
      | assumption | apply K.ptcMod h_ptc
      | apply K.ptcSent h_regs h_cnts h_free h_mem h_outs h_intc h_sw h_gate h_vlt h_bnk h_ptc
    | intro _ _ | dsimp only)

theorem ptcTsPut {pset : List Part} {z0 : State} {s : State} {n : Nat} {v : Word} (h_regs : Part.regs ∈ pset)
    (h_cnts : Part.cnts ∈ pset) (h_free : Part.free ∈ pset) (h_mem : Part.mem ∈ pset) (h_outs : Part.outs ∈ pset)
    (h_intc : Part.intc ∈ pset) (h_sw : Part.sw ∈ pset) (h_gate : Part.gate ∈ pset) (h_vlt : Part.vlt ∈ pset) (h_bnk :
    Part.bnk ∈ pset) (h_ptc : Part.ptc ∈ pset) (hk : Keeps pset z0 s) : Keeps pset z0 (Machine.ptcTsPut s n v) := by
  unfold Machine.ptcTsPut
  repeat' (first
    | with_reducible first
      | assumption | apply K.ptcMod h_ptc
      | apply K.ptcTsGone h_regs h_cnts h_free h_mem h_outs h_intc h_sw h_gate h_vlt h_bnk h_ptc
    | intro _ _ | dsimp only)

theorem ptcLoadTs {pset : List Part} {z0 t0 : State} {s : State} {n : Nat} (h_regs : Part.regs ∈ pset) (h_cnts :
    Part.cnts ∈ pset) (h_free : Part.free ∈ pset) (h_mem : Part.mem ∈ pset) (h_outs : Part.outs ∈ pset) (h_intc :
    Part.intc ∈ pset) (h_sw : Part.sw ∈ pset) (h_gate : Part.gate ∈ pset) (h_vlt : Part.vlt ∈ pset) (h_bnk : Part.bnk
    ∈ pset) (h_ptc : Part.ptc ∈ pset) (he : Machine.ptcLoadTs s n = some t0) (hk : Keeps pset z0 s) : Keeps pset z0 t0
    := by
  unfold Machine.ptcLoadTs at he
  try dsimp only at he
  repeat' split at he
  all_goals (first | (simp only [Option.some.injEq] at he; subst he) | exact absurd he (by simp) | skip)
  all_goals
    repeat' (first
      | with_reducible first
        | assumption | apply K.ptcMod h_ptc
        | apply K.ptcTsGone h_regs h_cnts h_free h_mem h_outs h_intc h_sw h_gate h_vlt h_bnk h_ptc
        | refine Keeps.ite (fun _ => ?_) (fun _ => ?_)
      | intro _ _ | dsimp only | split)

theorem ptcDrive {pset : List Part} {z0 : State} {s : State} {n : Nat} {base : Nat} {count : Nat} {v : Nat} {dirs
    : Bool} (h_ptc : Part.ptc ∈ pset) (hk : Keeps pset z0 s) : Keeps pset z0 (Machine.ptcDrive s n base count v dirs)
    := by
  unfold Machine.ptcDrive
  repeat' (first
    | with_reducible first
      | assumption | apply K.ptcMod h_ptc | refine Keeps.ite (fun _ => ?_) (fun _ => ?_)
      | refine Keeps.foldl (fun _ _ _ => ?_) ?_
    | intro _ _ | dsimp only | split)

theorem ptcAdvance {pset : List Part} {z0 : State} {s : State} {n : Nat} {injected : Bool} (h_ptc : Part.ptc ∈
    pset) (hk : Keeps pset z0 s) : Keeps pset z0 (Machine.ptcAdvance s n injected) := by
  unfold Machine.ptcAdvance
  repeat' (first
    | with_reducible first
      | assumption | apply K.ptcMod h_ptc | refine Keeps.ite (fun _ => ?_) (fun _ => ?_)
    | intro _ _ | dsimp only | split)

theorem ptcSetPc {pset : List Part} {z0 : State} {s : State} {n : Nat} {v : Nat} (h_ptc : Part.ptc ∈ pset) (hk :
    Keeps pset z0 s) : Keeps pset z0 (Machine.ptcSetPc s n v) := by
  unfold Machine.ptcSetPc
  repeat' (first
    | with_reducible first
      | assumption | apply K.ptcMod h_ptc
    | intro _ _ | dsimp only)

theorem ptcStallAt {pset : List Part} {z0 : State} {s : State} {n : Nat} {st : PtcStall} (h_ptc : Part.ptc ∈ pset)
    (hk : Keeps pset z0 s) : Keeps pset z0 (Machine.ptcStallAt s n st) := by
  unfold Machine.ptcStallAt
  repeat' (first
    | with_reducible first
      | assumption | apply K.ptcMod h_ptc
    | intro _ _ | dsimp only)

theorem ptcPut {pset : List Part} {z0 : State} {s : State} {n : Nat} {dst : Nat} {v : Nat} (h_regs : Part.regs ∈
    pset) (h_cnts : Part.cnts ∈ pset) (h_free : Part.free ∈ pset) (h_mem : Part.mem ∈ pset) (h_outs : Part.outs ∈
    pset) (h_intc : Part.intc ∈ pset) (h_sw : Part.sw ∈ pset) (h_gate : Part.gate ∈ pset) (h_vlt : Part.vlt ∈ pset)
    (h_bnk : Part.bnk ∈ pset) (h_ptc : Part.ptc ∈ pset) (hk : Keeps pset z0 s) : Keeps pset z0 (Machine.ptcPut s n dst
    v).1 := by
  unfold Machine.ptcPut
  repeat' (first
    | with_reducible first
      | assumption | apply K.ptcMod h_ptc
      | apply K.ptcTsPut h_regs h_cnts h_free h_mem h_outs h_intc h_sw h_gate h_vlt h_bnk h_ptc
      | apply K.ptcDrive h_ptc | apply K.ptcSetPc h_ptc | refine Keeps.ite (fun _ => ?_) (fun _ => ?_)
      | refine Keeps.iteFst (fun _ => ?_) (fun _ => ?_)
    | intro _ _ | dsimp only | split)

theorem ptcDone {pset : List Part} {z0 : State} {s : State} {n : Nat} {injected : Bool} {wrotePc : Bool} (h_ptc :
    Part.ptc ∈ pset) (hk : Keeps pset z0 s) : Keeps pset z0 (Machine.ptcDone s n injected wrotePc) := by
  unfold Machine.ptcDone
  repeat' (first
    | with_reducible first
      | assumption | apply K.ptcMod h_ptc | apply K.ptcAdvance h_ptc | refine Keeps.ite (fun _ => ?_) (fun _ => ?_)
    | intro _ _ | dsimp only | split)

theorem ptcInBits {pset : List Part} {z0 : State} {s : State} {n : Nat} {v : Nat} {k : Nat} (h_ptc : Part.ptc ∈
    pset) (hk : Keeps pset z0 s) : Keeps pset z0 (Machine.ptcInBits s n v k) := by
  unfold Machine.ptcInBits
  repeat' (first
    | with_reducible first
      | assumption | apply K.ptcMod h_ptc | refine Keeps.ite (fun _ => ?_) (fun _ => ?_)
    | intro _ _ | dsimp only | split)

theorem ptcDeliver {pset : List Part} {z0 t0 s : State} {n w : Nat} {eop : Bool} (h_regs : Part.regs ∈ pset)
    (h_cnts : Part.cnts ∈ pset) (h_outs : Part.outs ∈ pset) (h_intc : Part.intc ∈ pset) (h_ptc : Part.ptc ∈ pset)
    (h_fiq : Part.fiq ∈ pset)
    (he : Machine.ptcDeliver s n w eop = some t0) (hk : Keeps pset z0 s) : Keeps pset z0 t0 := by
  unfold Machine.ptcDeliver at he
  simp only [Option.map_eq_some_iff] at he
  obtain ⟨p, hp, h1⟩ := he
  subst h1
  exact K.ptcMod h_ptc (K.fiqPush h_regs h_cnts h_outs h_intc h_fiq hp hk)

theorem ptcInRun {pset : List Part} {z0 : State} {s : State} {n : Nat} {cnt : Nat} {st : PtcStall} {fuel : Nat}
    (h_regs : Part.regs ∈ pset) (h_cnts : Part.cnts ∈ pset) (h_outs : Part.outs ∈ pset) (h_intc : Part.intc ∈ pset)
    (h_ptc : Part.ptc ∈ pset) (h_fiq : Part.fiq ∈ pset) (hk : Keeps pset z0 s) : Keeps pset z0 (Machine.ptcInRun s n
    cnt st fuel) := by
  induction fuel generalizing s n cnt st with
  | zero =>
    unfold Machine.ptcInRun
    repeat' (first
      | with_reducible first
        | assumption | apply K.ptcStallAt h_ptc | apply K.ptcDone h_ptc | apply K.ptcInBits h_ptc
        | refine K.ptcDeliver h_regs h_cnts h_outs h_intc h_ptc h_fiq (by assumption) ?_
        | refine Keeps.ite (fun _ => ?_) (fun _ => ?_)
      | dsimp only | split | refine Keeps.someIf (by with_reducible assumption) (fun _ => ?_) ?_)
  | succ _ ih =>
    unfold Machine.ptcInRun
    repeat' (first
      | with_reducible first
        | assumption | apply ih | apply K.ptcStallAt h_ptc | apply K.ptcDone h_ptc | apply K.ptcInBits h_ptc
        | refine K.ptcDeliver h_regs h_cnts h_outs h_intc h_ptc h_fiq (by assumption) ?_
        | refine Keeps.ite (fun _ => ?_) (fun _ => ?_)
      | dsimp only | split | refine Keeps.someIf (by with_reducible assumption) (fun _ => ?_) ?_)

theorem ptcGive {pset : List Part} {z0 : State} {s : State} {n : Nat} {k : Nat} (h_regs : Part.regs ∈ pset)
    (h_cnts : Part.cnts ∈ pset) (h_free : Part.free ∈ pset) (h_mem : Part.mem ∈ pset) (h_outs : Part.outs ∈ pset)
    (h_intc : Part.intc ∈ pset) (h_sw : Part.sw ∈ pset) (h_gate : Part.gate ∈ pset) (h_vlt : Part.vlt ∈ pset) (h_bnk :
    Part.bnk ∈ pset) (h_ptc : Part.ptc ∈ pset) (hk : Keeps pset z0 s) : Keeps pset z0 (Machine.ptcGive s n k).1 := by
  unfold Machine.ptcGive
  repeat' (first
    | with_reducible first
      | assumption | apply K.ptcMod h_ptc
      | apply K.ptcSent h_regs h_cnts h_free h_mem h_outs h_intc h_sw h_gate h_vlt h_bnk h_ptc
      | refine Keeps.ite (fun _ => ?_) (fun _ => ?_) | refine Keeps.iteFst (fun _ => ?_) (fun _ => ?_)
    | intro _ _ | dsimp only | split)

theorem ptcOutRun {pset : List Part} {z0 : State} {s : State} {n : Nat} {cnt : Nat} {dst : Nat} {st : PtcStall}
    {fuel : Nat} (h_regs : Part.regs ∈ pset) (h_cnts : Part.cnts ∈ pset) (h_free : Part.free ∈ pset) (h_mem : Part.mem
    ∈ pset) (h_outs : Part.outs ∈ pset) (h_intc : Part.intc ∈ pset) (h_sw : Part.sw ∈ pset) (h_gate : Part.gate ∈
    pset) (h_vlt : Part.vlt ∈ pset) (h_bnk : Part.bnk ∈ pset) (h_ptc : Part.ptc ∈ pset) (hk : Keeps pset z0 s) : Keeps
    pset z0 (Machine.ptcOutRun s n cnt dst st fuel) := by
  induction fuel generalizing s n cnt dst st with
  | zero =>
    unfold Machine.ptcOutRun
    repeat' (first
      | with_reducible first
        | assumption | apply K.ptcStallAt h_ptc
        | apply K.ptcPut h_regs h_cnts h_free h_mem h_outs h_intc h_sw h_gate h_vlt h_bnk h_ptc
        | apply K.ptcDone h_ptc
        | apply K.ptcGive h_regs h_cnts h_free h_mem h_outs h_intc h_sw h_gate h_vlt h_bnk h_ptc
        | refine K.ptcLoadTs h_regs h_cnts h_free h_mem h_outs h_intc h_sw h_gate h_vlt h_bnk h_ptc (by assumption) ?_
        | refine Keeps.ite (fun _ => ?_) (fun _ => ?_)
      | dsimp only | split | refine Keeps.someIf (by with_reducible assumption) (fun _ => ?_) ?_)
  | succ _ ih =>
    unfold Machine.ptcOutRun
    repeat' (first
      | with_reducible first
        | assumption | apply ih | apply K.ptcStallAt h_ptc
        | apply K.ptcPut h_regs h_cnts h_free h_mem h_outs h_intc h_sw h_gate h_vlt h_bnk h_ptc
        | apply K.ptcDone h_ptc
        | apply K.ptcGive h_regs h_cnts h_free h_mem h_outs h_intc h_sw h_gate h_vlt h_bnk h_ptc
        | refine K.ptcLoadTs h_regs h_cnts h_free h_mem h_outs h_intc h_sw h_gate h_vlt h_bnk h_ptc (by assumption) ?_
        | refine Keeps.ite (fun _ => ?_) (fun _ => ?_)
      | dsimp only | split | refine Keeps.someIf (by with_reducible assumption) (fun _ => ?_) ?_)

theorem ptcSet {pset : List Part} {z0 : State} {s : State} {n : Nat} {w : Nat} {inj : Bool} (h_ptc : Part.ptc ∈
    pset) (hk : Keeps pset z0 s) : Keeps pset z0 (Machine.ptcSet s n w inj) := by
  unfold Machine.ptcSet
  repeat' (first
    | with_reducible first
      | assumption | apply K.ptcMod h_ptc | apply K.ptcDrive h_ptc | apply K.ptcDone h_ptc
    | intro _ _ | dsimp only | split)

theorem ptcMov {pset : List Part} {z0 : State} {s : State} {n : Nat} {pads : Nat} {w : Nat} {inj : Bool} (h_regs :
    Part.regs ∈ pset) (h_cnts : Part.cnts ∈ pset) (h_free : Part.free ∈ pset) (h_mem : Part.mem ∈ pset) (h_outs :
    Part.outs ∈ pset) (h_intc : Part.intc ∈ pset) (h_sw : Part.sw ∈ pset) (h_gate : Part.gate ∈ pset) (h_vlt :
    Part.vlt ∈ pset) (h_bnk : Part.bnk ∈ pset) (h_ptc : Part.ptc ∈ pset) (hk : Keeps pset z0 s) : Keeps pset z0
    (Machine.ptcMov s n pads w inj) := by
  unfold Machine.ptcMov
  repeat' (first
    | with_reducible first
      | assumption | apply K.ptcPut h_regs h_cnts h_free h_mem h_outs h_intc h_sw h_gate h_vlt h_bnk h_ptc
      | apply K.ptcDone h_ptc
    | dsimp only)

theorem ptcPush {pset : List Part} {z0 : State} {s : State} {n : Nat} {st : PtcStall} (h_regs : Part.regs ∈ pset)
    (h_cnts : Part.cnts ∈ pset) (h_outs : Part.outs ∈ pset) (h_intc : Part.intc ∈ pset) (h_ptc : Part.ptc ∈ pset)
    (h_fiq : Part.fiq ∈ pset) (hk : Keeps pset z0 s) : Keeps pset z0 (Machine.ptcPush s n st) := by
  unfold Machine.ptcPush
  repeat' (first
    | with_reducible first
      | assumption | apply K.bump h_cnts | apply K.ptcMod h_ptc | apply K.ptcNote h_regs h_cnts h_outs h_intc
      | apply K.ptcStallAt h_ptc | apply K.ptcDone h_ptc
      | refine K.ptcDeliver h_regs h_cnts h_outs h_intc h_ptc h_fiq (by assumption) ?_
      | refine Keeps.ite (fun _ => ?_) (fun _ => ?_)
    | intro _ _ | dsimp only | split)

theorem ptcPull {pset : List Part} {z0 : State} {s : State} {n : Nat} {st : PtcStall} (h_regs : Part.regs ∈ pset)
    (h_cnts : Part.cnts ∈ pset) (h_free : Part.free ∈ pset) (h_mem : Part.mem ∈ pset) (h_outs : Part.outs ∈ pset)
    (h_intc : Part.intc ∈ pset) (h_sw : Part.sw ∈ pset) (h_gate : Part.gate ∈ pset) (h_vlt : Part.vlt ∈ pset) (h_bnk :
    Part.bnk ∈ pset) (h_ptc : Part.ptc ∈ pset) (hk : Keeps pset z0 s) : Keeps pset z0 (Machine.ptcPull s n st) := by
  unfold Machine.ptcPull
  repeat' (first
    | with_reducible first
      | assumption | apply K.bump h_cnts
      | apply K.ptcTsPut h_regs h_cnts h_free h_mem h_outs h_intc h_sw h_gate h_vlt h_bnk h_ptc
      | apply K.ptcStallAt h_ptc | apply K.ptcDone h_ptc
      | refine K.ptcLoadTs h_regs h_cnts h_free h_mem h_outs h_intc h_sw h_gate h_vlt h_bnk h_ptc (by assumption) ?_
      | refine Keeps.ite (fun _ => ?_) (fun _ => ?_)
    | dsimp only | split)

theorem ptcWait {pset : List Part} {z0 : State} {s : State} {n : Nat} {pads : Nat} {st : PtcStall} (h_ptc :
    Part.ptc ∈ pset) (hk : Keeps pset z0 s) : Keeps pset z0 (Machine.ptcWait s n pads st) := by
  unfold Machine.ptcWait
  repeat' (first
    | with_reducible first
      | assumption | apply K.ptcStallAt h_ptc | apply K.ptcDone h_ptc | refine Keeps.ite (fun _ => ?_) (fun _ => ?_)
    | dsimp only | split)

theorem ptcAt {pset : List Part} {z0 : State} {s : State} {n : Nat} {st : PtcStall} (h_regs : Part.regs ∈ pset)
    (h_cnts : Part.cnts ∈ pset) (h_outs : Part.outs ∈ pset) (h_intc : Part.intc ∈ pset) (h_ptc : Part.ptc ∈ pset) (hk
    : Keeps pset z0 s) : Keeps pset z0 (Machine.ptcAt s n st) := by
  unfold Machine.ptcAt
  repeat' (first
    | with_reducible first
      | assumption | apply K.ptcMod h_ptc | apply K.ptcNote h_regs h_cnts h_outs h_intc | apply K.ptcStallAt h_ptc
      | apply K.ptcDone h_ptc | refine Keeps.ite (fun _ => ?_) (fun _ => ?_)
    | intro _ _ | dsimp only | split)

theorem ptcJmp {pset : List Part} {z0 : State} {s : State} {n : Nat} {pads : Nat} {w : Nat} {inj : Bool} (h_ptc :
    Part.ptc ∈ pset) (hk : Keeps pset z0 s) : Keeps pset z0 (Machine.ptcJmp s n pads w inj) := by
  unfold Machine.ptcJmp
  repeat' (first
    | with_reducible first
      | assumption | apply K.ptcMod h_ptc | apply K.ptcSetPc h_ptc | apply K.ptcDone h_ptc
      | refine Keeps.ite (fun _ => ?_) (fun _ => ?_)
    | intro _ _ | dsimp only | split)

theorem ptcFault {pset : List Part} {z0 : State} {s : State} {n : Nat} (h_regs : Part.regs ∈ pset) (h_outs :
    Part.outs ∈ pset) (h_intc : Part.intc ∈ pset) (h_ptc : Part.ptc ∈ pset) (hk : Keeps pset z0 s) : Keeps pset z0
    (Machine.ptcFault s n) := by
  unfold Machine.ptcFault
  repeat' (first
    | with_reducible first
      | assumption | apply K.putB h_regs | apply K.raiseIrq h_regs h_outs h_intc | apply K.ptcMod h_ptc
    | intro _ _ | dsimp only)

theorem ptcOp {pset : List Part} {z0 : State} {s : State} {n : Nat} {pads : Nat} {st : PtcStall} (h_regs :
    Part.regs ∈ pset) (h_cnts : Part.cnts ∈ pset) (h_free : Part.free ∈ pset) (h_mem : Part.mem ∈ pset) (h_outs :
    Part.outs ∈ pset) (h_intc : Part.intc ∈ pset) (h_sw : Part.sw ∈ pset) (h_gate : Part.gate ∈ pset) (h_vlt :
    Part.vlt ∈ pset) (h_bnk : Part.bnk ∈ pset) (h_ptc : Part.ptc ∈ pset) (h_fiq : Part.fiq ∈ pset) (hk : Keeps pset z0
    s) : Keeps pset z0 (Machine.ptcOp s n pads st) := by
  unfold Machine.ptcOp
  repeat' (first
    | with_reducible first
      | assumption | apply K.ptcDone h_ptc | apply K.ptcInRun h_regs h_cnts h_outs h_intc h_ptc h_fiq
      | apply K.ptcOutRun h_regs h_cnts h_free h_mem h_outs h_intc h_sw h_gate h_vlt h_bnk h_ptc
      | apply K.ptcSet h_ptc | apply K.ptcMov h_regs h_cnts h_free h_mem h_outs h_intc h_sw h_gate h_vlt h_bnk h_ptc
      | apply K.ptcPush h_regs h_cnts h_outs h_intc h_ptc h_fiq
      | apply K.ptcPull h_regs h_cnts h_free h_mem h_outs h_intc h_sw h_gate h_vlt h_bnk h_ptc | apply K.ptcWait h_ptc
      | apply K.ptcAt h_regs h_cnts h_outs h_intc h_ptc | apply K.ptcJmp h_ptc
    | dsimp only | split)

theorem ptcPace {pset : List Part} {z0 : State} {s : State} {n : Nat} {w : Nat} (h_ptc : Part.ptc ∈ pset) (hk :
    Keeps pset z0 s) : Keeps pset z0 (Machine.ptcPace s n w) := by
  unfold Machine.ptcPace
  repeat' (first
    | with_reducible first
      | assumption | apply K.ptcMod h_ptc | refine Keeps.ite (fun _ => ?_) (fun _ => ?_)
    | intro _ _ | dsimp only | split)

theorem ptcExec {pset : List Part} {z0 : State} {s : State} {n : Nat} {pads : Nat} {st : PtcStall} (h_regs :
    Part.regs ∈ pset) (h_cnts : Part.cnts ∈ pset) (h_free : Part.free ∈ pset) (h_mem : Part.mem ∈ pset) (h_outs :
    Part.outs ∈ pset) (h_intc : Part.intc ∈ pset) (h_sw : Part.sw ∈ pset) (h_gate : Part.gate ∈ pset) (h_vlt :
    Part.vlt ∈ pset) (h_bnk : Part.bnk ∈ pset) (h_ptc : Part.ptc ∈ pset) (h_fiq : Part.fiq ∈ pset) (hk : Keeps pset z0
    s) : Keeps pset z0 (Machine.ptcExec s n pads st) := by
  unfold Machine.ptcExec
  repeat' (first
    | with_reducible first
      | assumption | apply K.ptcOp h_regs h_cnts h_free h_mem h_outs h_intc h_sw h_gate h_vlt h_bnk h_ptc h_fiq
      | apply K.ptcPace h_ptc)

theorem ptcIssue {pset : List Part} {z0 : State} {s : State} {n : Nat} {pads : Nat} {w : Nat} {inj : Bool} (h_regs
    : Part.regs ∈ pset) (h_cnts : Part.cnts ∈ pset) (h_free : Part.free ∈ pset) (h_mem : Part.mem ∈ pset) (h_outs :
    Part.outs ∈ pset) (h_intc : Part.intc ∈ pset) (h_sw : Part.sw ∈ pset) (h_gate : Part.gate ∈ pset) (h_vlt :
    Part.vlt ∈ pset) (h_bnk : Part.bnk ∈ pset) (h_ptc : Part.ptc ∈ pset) (h_fiq : Part.fiq ∈ pset) (hk : Keeps pset z0
    s) : Keeps pset z0 (Machine.ptcIssue s n pads w inj) := by
  unfold Machine.ptcIssue
  repeat' (first
    | with_reducible first
      | assumption | apply K.ptcMod h_ptc | apply K.ptcFault h_regs h_outs h_intc h_ptc
      | apply K.ptcExec h_regs h_cnts h_free h_mem h_outs h_intc h_sw h_gate h_vlt h_bnk h_ptc h_fiq
      | refine Keeps.ite (fun _ => ?_) (fun _ => ?_)
    | intro _ _ | dsimp only | split)

theorem ptcTurn {pset : List Part} {z0 : State} {s : State} {n : Nat} (h_cnts : Part.cnts ∈ pset) (h_sys :
    Part.sys ∈ pset) (h_time : Part.time ∈ pset) (h_pwr : Part.pwr ∈ pset) (hk : Keeps pset z0 s) : Keeps pset z0
    (Machine.ptcTurn s n) := by
  unfold Machine.ptcTurn
  repeat' (first
    | with_reducible first
      | assumption | apply K.advanceCopy h_cnts h_sys h_time h_pwr)

theorem ptcStep {pset : List Part} {z0 : State} {n : Nat} {pads : Nat} {cls : Nat} {s : State} (h_regs : Part.regs
    ∈ pset) (h_cnts : Part.cnts ∈ pset) (h_free : Part.free ∈ pset) (h_mem : Part.mem ∈ pset) (h_outs : Part.outs ∈
    pset) (h_intc : Part.intc ∈ pset) (h_sys : Part.sys ∈ pset) (h_sw : Part.sw ∈ pset) (h_gate : Part.gate ∈ pset)
    (h_vlt : Part.vlt ∈ pset) (h_bnk : Part.bnk ∈ pset) (h_ptc : Part.ptc ∈ pset) (h_fiq : Part.fiq ∈ pset) (h_time :
    Part.time ∈ pset) (h_pwr : Part.pwr ∈ pset) (hk : Keeps pset z0 s) : Keeps pset z0 (Machine.ptcStep n pads cls s)
    := by
  unfold Machine.ptcStep
  repeat' (first
    | with_reducible first
      | assumption | apply K.ptcIssue h_regs h_cnts h_free h_mem h_outs h_intc h_sw h_gate h_vlt h_bnk h_ptc h_fiq
      | apply K.ptcTurn h_cnts h_sys h_time h_pwr | refine Keeps.ite (fun _ => ?_) (fun _ => ?_)
    | dsimp only | split | refine Keeps.ofFst (by with_reducible assumption) ?_
    | refine Keeps.ofSnd (by with_reducible assumption) ?_)

theorem ptcRetry {pset : List Part} {z0 : State} {n : Nat} {pads : Nat} {s : State} (h_regs : Part.regs ∈ pset)
    (h_cnts : Part.cnts ∈ pset) (h_free : Part.free ∈ pset) (h_mem : Part.mem ∈ pset) (h_outs : Part.outs ∈ pset)
    (h_intc : Part.intc ∈ pset) (h_sw : Part.sw ∈ pset) (h_gate : Part.gate ∈ pset) (h_vlt : Part.vlt ∈ pset) (h_bnk :
    Part.bnk ∈ pset) (h_ptc : Part.ptc ∈ pset) (h_fiq : Part.fiq ∈ pset) (hk : Keeps pset z0 s) : Keeps pset z0
    (Machine.ptcRetry n pads s) := by
  unfold Machine.ptcRetry
  repeat' (first
    | with_reducible first
      | assumption | apply K.ptcMod h_ptc
      | apply K.ptcExec h_regs h_cnts h_free h_mem h_outs h_intc h_sw h_gate h_vlt h_bnk h_ptc h_fiq
      | refine Keeps.ite (fun _ => ?_) (fun _ => ?_)
    | intro _ _ | dsimp only | split | refine Keeps.ofFst (by with_reducible assumption) ?_
    | refine Keeps.ofSnd (by with_reducible assumption) ?_)

theorem ptcAtFire {pset : List Part} {z0 : State} {n : Nat} {pads : Nat} {s : State} (h_regs : Part.regs ∈ pset)
    (h_cnts : Part.cnts ∈ pset) (h_free : Part.free ∈ pset) (h_mem : Part.mem ∈ pset) (h_outs : Part.outs ∈ pset)
    (h_intc : Part.intc ∈ pset) (h_sys : Part.sys ∈ pset) (h_sw : Part.sw ∈ pset) (h_gate : Part.gate ∈ pset) (h_vlt :
    Part.vlt ∈ pset) (h_bnk : Part.bnk ∈ pset) (h_ptc : Part.ptc ∈ pset) (h_fiq : Part.fiq ∈ pset) (h_time : Part.time
    ∈ pset) (h_pwr : Part.pwr ∈ pset) (hk : Keeps pset z0 s) : Keeps pset z0 (Machine.ptcAtFire n pads s) := by
  unfold Machine.ptcAtFire
  repeat' (first
    | with_reducible first
      | assumption | apply K.advanceCore h_cnts h_sys h_time h_pwr | apply K.ptcMod h_ptc
      | apply K.ptcIssue h_regs h_cnts h_free h_mem h_outs h_intc h_sw h_gate h_vlt h_bnk h_ptc h_fiq
      | apply K.ptcTurn h_cnts h_sys h_time h_pwr | refine Keeps.ite (fun _ => ?_) (fun _ => ?_)
    | intro _ _ | dsimp only | split | refine Keeps.ofFst (by with_reducible assumption) ?_
    | refine Keeps.ofSnd (by with_reducible assumption) ?_)

theorem ptcEnter {pset : List Part} {z0 : State} {s : State} {n : Nat} {gate : Option Nat} {idx : Nat} {p : List
    Byte} (h_ptc : Part.ptc ∈ pset) (hk : Keeps pset z0 s) : Keeps pset z0 (Machine.ptcEnter s n gate idx p) := by
  unfold Machine.ptcEnter
  repeat' (first
    | with_reducible first
      | assumption | apply K.ptcMod h_ptc
    | intro _ _ | dsimp only)

theorem ptcLoadRing {pset : List Part} {z0 : State} {s : State} {n : Nat} (h_regs : Part.regs ∈ pset) (h_cnts :
    Part.cnts ∈ pset) (h_mem : Part.mem ∈ pset) (h_outs : Part.outs ∈ pset) (h_intc : Part.intc ∈ pset) (h_gate :
    Part.gate ∈ pset) (h_vlt : Part.vlt ∈ pset) (h_bnk : Part.bnk ∈ pset) (h_ptc : Part.ptc ∈ pset) (hk : Keeps pset
    z0 s) : Keeps pset z0 (Machine.ptcLoadRing s n) := by
  unfold Machine.ptcLoadRing
  repeat' (first
    | with_reducible first
      | assumption | apply K.putF h_regs | apply K.bump h_cnts | apply K.fabRead h_regs h_outs h_intc
      | apply K.sieveJudge h_regs h_cnts h_outs h_intc h_gate h_vlt | apply K.ptcNote h_regs h_cnts h_outs h_intc
      | apply K.ptcRingStatus h_regs h_mem h_outs h_intc h_bnk | apply K.ptcEnter h_ptc
      | refine Keeps.ite (fun _ => ?_) (fun _ => ?_)
    | intro _ _ | dsimp only | split)

theorem ptcFeed {pset : List Part} {z0 : State} {n : Nat} {s : State} (h_regs : Part.regs ∈ pset) (h_cnts :
    Part.cnts ∈ pset) (h_free : Part.free ∈ pset) (h_mem : Part.mem ∈ pset) (h_outs : Part.outs ∈ pset) (h_intc :
    Part.intc ∈ pset) (h_sw : Part.sw ∈ pset) (h_gate : Part.gate ∈ pset) (h_vlt : Part.vlt ∈ pset) (h_bnk : Part.bnk
    ∈ pset) (h_ptc : Part.ptc ∈ pset) (hk : Keeps pset z0 s) : Keeps pset z0 (Machine.ptcFeed n s) := by
  unfold Machine.ptcFeed
  repeat' (first
    | with_reducible first
      | assumption | apply K.itemEndExit h_regs h_cnts h_free h_mem h_outs h_intc h_sw h_gate h_vlt h_bnk
      | apply K.gateEntryDrop h_gate | apply K.ptcNote h_regs h_cnts h_outs h_intc | apply K.ptcEnter h_ptc
      | apply K.ptcLoadRing h_regs h_cnts h_mem h_outs h_intc h_gate h_vlt h_bnk h_ptc
      | refine Keeps.ite (fun _ => ?_) (fun _ => ?_)
    | dsimp only | split)

theorem ptcGuarded {pset : List Part} {z0 : State} {m : Master} {n : Nat} {off : Nat} {changed : Bool} {f : State
    → State} {s : State} (h_regs : Part.regs ∈ pset) (h_outs : Part.outs ∈ pset) (h_intc : Part.intc ∈ pset) (h_f : ∀
    u0, Keeps pset z0 u0 → Keeps pset z0 (f u0)) (hk : Keeps pset z0 s) : Keeps pset z0 (Machine.ptcGuarded m n off
    changed f s) := by
  unfold Machine.ptcGuarded
  repeat' (first
    | with_reducible first
      | assumption | apply h_f | apply K.deny h_regs h_outs h_intc | refine Keeps.ite (fun _ => ?_) (fun _ => ?_)
    | split)

theorem ptcAbortNow {pset : List Part} {z0 : State} {n : Nat} {s : State} (h_regs : Part.regs ∈ pset) (h_cnts :
    Part.cnts ∈ pset) (h_free : Part.free ∈ pset) (h_mem : Part.mem ∈ pset) (h_outs : Part.outs ∈ pset) (h_intc :
    Part.intc ∈ pset) (h_sw : Part.sw ∈ pset) (h_gate : Part.gate ∈ pset) (h_vlt : Part.vlt ∈ pset) (h_bnk : Part.bnk
    ∈ pset) (h_ptc : Part.ptc ∈ pset) (hk : Keeps pset z0 s) : Keeps pset z0 (Machine.ptcAbortNow n s) := by
  unfold Machine.ptcAbortNow
  repeat' (first
    | with_reducible first
      | assumption | apply K.setR h_regs | apply K.raiseIrq h_regs h_outs h_intc | apply K.ptcMod h_ptc
      | apply K.ptcTsGone h_regs h_cnts h_free h_mem h_outs h_intc h_sw h_gate h_vlt h_bnk h_ptc
    | intro _ _ | dsimp only | split)

theorem ptcRestartNow {pset : List Part} {z0 : State} {n : Nat} {s : State} (h_regs : Part.regs ∈ pset) (h_cnts :
    Part.cnts ∈ pset) (h_free : Part.free ∈ pset) (h_mem : Part.mem ∈ pset) (h_outs : Part.outs ∈ pset) (h_intc :
    Part.intc ∈ pset) (h_sw : Part.sw ∈ pset) (h_gate : Part.gate ∈ pset) (h_vlt : Part.vlt ∈ pset) (h_bnk : Part.bnk
    ∈ pset) (h_ptc : Part.ptc ∈ pset) (hk : Keeps pset z0 s) : Keeps pset z0 (Machine.ptcRestartNow n s) := by
  unfold Machine.ptcRestartNow
  repeat' (first
    | with_reducible first
      | assumption | apply K.ptcMod h_ptc
      | apply K.ptcTsGone h_regs h_cnts h_free h_mem h_outs h_intc h_sw h_gate h_vlt h_bnk h_ptc
    | intro _ _ | dsimp only)

theorem ptcFirst {pset : List Part} {z0 : State} {n : Nat} {s : State} (h_ptc : Part.ptc ∈ pset) (hk : Keeps pset
    z0 s) : Keeps pset z0 (Machine.ptcFirst n s) := by
  unfold Machine.ptcFirst
  repeat' (first
    | with_reducible first
      | assumption | apply K.ptcMod h_ptc | refine Keeps.ite (fun _ => ?_) (fun _ => ?_)
    | intro _ _ | dsimp only | split)

theorem ptcCtrl {pset : List Part} {z0 : State} {m : Master} {n : Nat} {v : Word} {s : State} (h_regs : Part.regs
    ∈ pset) (h_cnts : Part.cnts ∈ pset) (h_free : Part.free ∈ pset) (h_mem : Part.mem ∈ pset) (h_outs : Part.outs ∈
    pset) (h_intc : Part.intc ∈ pset) (h_sw : Part.sw ∈ pset) (h_gate : Part.gate ∈ pset) (h_vlt : Part.vlt ∈ pset)
    (h_bnk : Part.bnk ∈ pset) (h_ptc : Part.ptc ∈ pset) (hk : Keeps pset z0 s) : Keeps pset z0 (Machine.ptcCtrl m n v
    s) := by
  unfold Machine.ptcCtrl
  repeat' (first
    | with_reducible first
      | assumption | apply K.setR h_regs | apply K.ptcGuarded h_regs h_outs h_intc
      | apply K.ptcAbortNow h_regs h_cnts h_free h_mem h_outs h_intc h_sw h_gate h_vlt h_bnk h_ptc
      | apply K.ptcRestartNow h_regs h_cnts h_free h_mem h_outs h_intc h_sw h_gate h_vlt h_bnk h_ptc
      | apply K.ptcFirst h_ptc | refine Keeps.ite (fun _ => ?_) (fun _ => ?_)
    | intro _ _ | dsimp only | split)

theorem ptcPlain {pset : List Part} {z0 : State} {m : Master} {n : Nat} {off : Nat} {v : Word} {s : State} (h_regs
    : Part.regs ∈ pset) (h_outs : Part.outs ∈ pset) (h_intc : Part.intc ∈ pset) (hk : Keeps pset z0 s) : Keeps pset z0
    (Machine.ptcPlain m n off v s) := by
  unfold Machine.ptcPlain
  repeat' (first
    | with_reducible first
      | assumption | apply K.setR h_regs | apply K.ptcGuarded h_regs h_outs h_intc
    | intro _ _ | dsimp only)

theorem ptcShifter {pset : List Part} {z0 : State} {m : Master} {n : Nat} {v : Word} {s : State} (h_regs :
    Part.regs ∈ pset) (h_cnts : Part.cnts ∈ pset) (h_free : Part.free ∈ pset) (h_mem : Part.mem ∈ pset) (h_outs :
    Part.outs ∈ pset) (h_intc : Part.intc ∈ pset) (h_sw : Part.sw ∈ pset) (h_gate : Part.gate ∈ pset) (h_vlt :
    Part.vlt ∈ pset) (h_bnk : Part.bnk ∈ pset) (h_ptc : Part.ptc ∈ pset) (hk : Keeps pset z0 s) : Keeps pset z0
    (Machine.ptcShifter m n v s) := by
  unfold Machine.ptcShifter
  repeat' (first
    | with_reducible first
      | assumption | apply K.ptcSent h_regs h_cnts h_free h_mem h_outs h_intc h_sw h_gate h_vlt h_bnk h_ptc
      | apply K.ptcPlain h_regs h_outs h_intc | refine Keeps.ite (fun _ => ?_) (fun _ => ?_)
    | dsimp only | split)

theorem ptcInject {pset : List Part} {z0 : State} {m : Master} {n : Nat} {v : Word} {s : State} (h_regs :
    Part.regs ∈ pset) (h_outs : Part.outs ∈ pset) (h_intc : Part.intc ∈ pset) (h_ptc : Part.ptc ∈ pset) (hk : Keeps
    pset z0 s) : Keeps pset z0 (Machine.ptcInject m n v s) := by
  unfold Machine.ptcInject
  repeat' (first
    | with_reducible first
      | assumption | apply K.ptcMod h_ptc | apply K.ptcGuarded h_regs h_outs h_intc
      | refine Keeps.ite (fun _ => ?_) (fun _ => ?_)
    | intro _ _ | dsimp only | split)

theorem ptcT {pset : List Part} {z0 : State} {m : Master} {n : Nat} {hi : Bool} {v : Word} {s : State} (h_regs :
    Part.regs ∈ pset) (h_outs : Part.outs ∈ pset) (h_intc : Part.intc ∈ pset) (h_ptc : Part.ptc ∈ pset) (hk : Keeps
    pset z0 s) : Keeps pset z0 (Machine.ptcT m n hi v s) := by
  unfold Machine.ptcT
  repeat' (first
    | with_reducible first
      | assumption | apply K.recErr h_regs h_outs h_intc | apply K.ptcMod h_ptc
      | refine Keeps.ite (fun _ => ?_) (fun _ => ?_)
    | intro _ _ | dsimp only | split)

theorem ptcOwn {pset : List Part} {z0 : State} {m : Master} {n : Nat} {k : Nat} {v : Word} {s : State} (h_regs :
    Part.regs ∈ pset) (h_outs : Part.outs ∈ pset) (h_intc : Part.intc ∈ pset) (h_ptc : Part.ptc ∈ pset) (hk : Keeps
    pset z0 s) : Keeps pset z0 (Machine.ptcOwn m n k v s) := by
  unfold Machine.ptcOwn
  repeat' (first
    | with_reducible first
      | assumption | apply K.setR h_regs | apply K.raiseIrq h_regs h_outs h_intc | apply K.recErr h_regs h_outs h_intc
      | apply K.ptcMod h_ptc | apply K.ptcGuarded h_regs h_outs h_intc | refine Keeps.ite (fun _ => ?_) (fun _ => ?_)
      | refine Keeps.foldl (fun _ _ _ => ?_) ?_
    | intro _ _ | dsimp only | split)

theorem ptcSoft {pset : List Part} {z0 : State} {n : Nat} {s : State} (h_regs : Part.regs ∈ pset) (h_cnts :
    Part.cnts ∈ pset) (h_free : Part.free ∈ pset) (h_mem : Part.mem ∈ pset) (h_outs : Part.outs ∈ pset) (h_intc :
    Part.intc ∈ pset) (h_sw : Part.sw ∈ pset) (h_gate : Part.gate ∈ pset) (h_vlt : Part.vlt ∈ pset) (h_bnk : Part.bnk
    ∈ pset) (h_ptc : Part.ptc ∈ pset) (hk : Keeps pset z0 s) : Keeps pset z0 (Machine.ptcSoft n s) := by
  unfold Machine.ptcSoft
  repeat' (first
    | with_reducible first
      | assumption | apply K.releasedEnd h_regs h_cnts h_free h_mem h_outs h_intc h_sw h_gate h_vlt h_bnk
      | refine Keeps.foldl (fun _ _ _ => ?_) ?_
    | intro _ _ | dsimp only | split | simp only [Keeps.lit_ptc h_ptc])

theorem ptcAtLate {pset : List Part} {z0 : State} {s : State} (h_regs : Part.regs ∈ pset) (h_cnts : Part.cnts ∈
    pset) (h_outs : Part.outs ∈ pset) (h_intc : Part.intc ∈ pset) (h_ptc : Part.ptc ∈ pset) (hk : Keeps pset z0 s) :
    Keeps pset z0 (Machine.ptcAtLate s) := by
  unfold Machine.ptcAtLate
  repeat' (first
    | with_reducible first
      | assumption | apply K.ptcMod h_ptc | apply K.ptcNote h_regs h_cnts h_outs h_intc
      | refine Keeps.ite (fun _ => ?_) (fun _ => ?_) | refine Keeps.foldl (fun _ _ _ => ?_) ?_
      | refine Keeps.foldlFst (fun _ _ _ => ?_) ?_
    | intro _ _ | dsimp only | split | refine Keeps.ofFst (by with_reducible assumption) ?_
    | refine Keeps.ofSnd (by with_reducible assumption) ?_)

end Sys2Proof.Laws.K
end

