-- ==== Sys2Proof/Laws/KeepsPads.lean ====
section
/-! SUPPORT. What the operations of `Machine/Pads.lean` keep. -/

namespace Sys2Proof.Laws.K

open Sys2Proof Sys2Proof.Machine Sys2Proof.Laws

theorem padsHold {pset : List Part} {z0 : State} {gs : Nat} {s : State} (h_regs : Part.regs ∈ pset) (h_outs :
    Part.outs ∈ pset) (h_intc : Part.intc ∈ pset) (h_pwr : Part.pwr ∈ pset) (hk : Keeps pset z0 s) : Keeps pset z0
    (Machine.padsHold gs s) := by
  unfold Machine.padsHold
  repeat' (first
    | with_reducible first
      | assumption | apply K.setR h_regs | apply K.raiseIrq h_regs h_outs h_intc
    | intro _ _ | dsimp only | simp only [Keeps.lit_pwr h_pwr])

end Sys2Proof.Laws.K
end

