-- ==== Sys2Proof/Laws/KeepsCores.lean ====
section
/-! SUPPORT. What the operations of `Machine/Cores.lean` keep. -/

namespace Sys2Proof.Laws.K

open Sys2Proof Sys2Proof.Machine Sys2Proof.Laws

theorem coreSet {pset : List Part} {z0 : State} {s : State} {c : Nat} {x : CoreSt} (h_cores : Part.cores ∈ pset)
    (hk : Keeps pset z0 s) : Keeps pset z0 (Machine.coreSet s c x) := by
  unfold Machine.coreSet
  repeat' (first
    | with_reducible first
      | assumption
    | dsimp only | simp only [Keeps.lit_cores h_cores])

theorem coreMod {pset : List Part} {z0 : State} {s : State} {c : Nat} {f : CoreSt → CoreSt} (h_cores : Part.cores
    ∈ pset) (hk : Keeps pset z0 s) : Keeps pset z0 (Machine.coreMod s c f) := by
  unfold Machine.coreMod
  repeat' (first
    | with_reducible first
      | assumption | apply K.coreSet h_cores)

theorem coreStart {pset : List Part} {z0 : State} {s : State} {n : Nat} {pc : Nat} {v : Nat} (h_cores : Part.cores
    ∈ pset) (hk : Keeps pset z0 s) : Keeps pset z0 (Machine.coreStart s n pc v) := by
  unfold Machine.coreStart
  repeat' (first
    | with_reducible first
      | assumption | apply K.coreSet h_cores)

theorem coreStop {pset : List Part} {z0 : State} {s : State} {n : Nat} (h_cores : Part.cores ∈ pset) (hk : Keeps
    pset z0 s) : Keeps pset z0 (Machine.coreStop s n) := by
  unfold Machine.coreStop
  repeat' (first
    | with_reducible first
      | assumption | apply K.coreMod h_cores
    | intro _ _ | dsimp only)

theorem coreBoot {pset : List Part} {z0 : State} {s : State} {c : Nat} {pc : Nat} (h_cores : Part.cores ∈ pset)
    (hk : Keeps pset z0 s) : Keeps pset z0 (Machine.coreBoot s c pc) := by
  unfold Machine.coreBoot
  repeat' (first
    | with_reducible first
      | assumption | apply K.coreSet h_cores)

end Sys2Proof.Laws.K
end

