-- ==== Sys2Proof/Laws/KeepsEgress.lean ====
section
/-! SUPPORT. What the operations of `Machine/Egress.lean` keep. -/

namespace Sys2Proof.Laws.K

open Sys2Proof Sys2Proof.Machine Sys2Proof.Laws

theorem dequeue {pset : List Part} {z0 : State} {s : State} {p : Nat} {c : Nat} {fid : Nat} (h_sw : Part.sw ∈
    pset) (hk : Keeps pset z0 s) : Keeps pset z0 (Machine.dequeue s p c fid) := by
  unfold Machine.dequeue
  repeat' (first
    | with_reducible first
      | assumption
    | dsimp only | simp only [Keeps.lit_sw h_sw])

theorem schedSettle {pset : List Part} {z0 : State} {s : State} {p : Nat} (h_sw : Part.sw ∈ pset) (hk : Keeps pset
    z0 s) : Keeps pset z0 (Machine.schedSettle s p) := by
  unfold Machine.schedSettle
  repeat' (first
    | with_reducible first
      | assumption | refine Keeps.ite (fun _ => ?_) (fun _ => ?_)
    | intro _ _ | dsimp only | split | simp only [Keeps.lit_sw h_sw])

theorem queueDrop {pset : List Part} {z0 : State} {s : State} {p : Nat} {c : Nat} {fid : Nat} (h_sw : Part.sw ∈
    pset) (hk : Keeps pset z0 s) : Keeps pset z0 (Machine.queueDrop s p c fid) := by
  unfold Machine.queueDrop
  repeat' (first
    | with_reducible first
      | assumption | apply K.dequeue h_sw | apply K.schedSettle h_sw)

theorem withdrawCopy {pset : List Part} {z0 : State} {s : State} {p : Nat} {c : Nat} {fid : Nat} {f : Frame} {code
    : Nat} (h_regs : Part.regs ∈ pset) (h_cnts : Part.cnts ∈ pset) (h_free : Part.free ∈ pset) (h_mem : Part.mem ∈
    pset) (h_outs : Part.outs ∈ pset) (h_intc : Part.intc ∈ pset) (h_sw : Part.sw ∈ pset) (h_gate : Part.gate ∈ pset)
    (h_vlt : Part.vlt ∈ pset) (h_bnk : Part.bnk ∈ pset) (hk : Keeps pset z0 s) : Keeps pset z0 (Machine.withdrawCopy s
    p c fid f code) := by
  unfold Machine.withdrawCopy
  repeat' (first
    | with_reducible first
      | assumption | apply K.bump h_cnts | apply K.raiseIrq h_regs h_outs h_intc
      | apply K.unref h_regs h_mem h_outs h_intc h_sw h_bnk
      | apply K.releasedEnd h_regs h_cnts h_free h_mem h_outs h_intc h_sw h_gate h_vlt h_bnk | apply K.queueDrop h_sw
    | dsimp only)

theorem purgeCopy {pset : List Part} {z0 : State} {s : State} {p : Nat} {c : Nat} {fid : Nat} (h_regs : Part.regs
    ∈ pset) (h_cnts : Part.cnts ∈ pset) (h_mem : Part.mem ∈ pset) (h_outs : Part.outs ∈ pset) (h_intc : Part.intc ∈
    pset) (h_sw : Part.sw ∈ pset) (h_bnk : Part.bnk ∈ pset) (hk : Keeps pset z0 s) : Keeps pset z0 (Machine.purgeCopy
    s p c fid) := by
  unfold Machine.purgeCopy
  repeat' (first
    | with_reducible first
      | assumption | apply K.unref h_regs h_mem h_outs h_intc h_sw h_bnk
      | apply K.dropStored h_regs h_cnts h_mem h_outs h_intc h_sw h_bnk | apply K.queueDrop h_sw)

theorem ageCopy {pset : List Part} {z0 : State} {s : State} {p : Nat} {c : Nat} {fid : Nat} {f : Frame} (h_regs :
    Part.regs ∈ pset) (h_cnts : Part.cnts ∈ pset) (h_free : Part.free ∈ pset) (h_mem : Part.mem ∈ pset) (h_outs :
    Part.outs ∈ pset) (h_intc : Part.intc ∈ pset) (h_sw : Part.sw ∈ pset) (h_gate : Part.gate ∈ pset) (h_vlt :
    Part.vlt ∈ pset) (h_bnk : Part.bnk ∈ pset) (hk : Keeps pset z0 s) : Keeps pset z0 (Machine.ageCopy s p c fid f) :=
    by
  unfold Machine.ageCopy
  repeat' (first
    | with_reducible first
      | assumption | apply K.unref h_regs h_mem h_outs h_intc h_sw h_bnk
      | apply K.dropStored h_regs h_cnts h_mem h_outs h_intc h_sw h_bnk
      | apply K.releasedEnd h_regs h_cnts h_free h_mem h_outs h_intc h_sw h_gate h_vlt h_bnk | apply K.queueDrop h_sw
      | refine Keeps.ite (fun _ => ?_) (fun _ => ?_)
    | dsimp only | split)

theorem listsAndAge {pset : List Part} {z0 t0 : State} {s : State} {p : Nat} {c : Nat} {fid : Nat} {f : Frame}
    (h_regs : Part.regs ∈ pset) (h_cnts : Part.cnts ∈ pset) (h_free : Part.free ∈ pset) (h_mem : Part.mem ∈ pset)
    (h_outs : Part.outs ∈ pset) (h_intc : Part.intc ∈ pset) (h_sw : Part.sw ∈ pset) (h_gate : Part.gate ∈ pset) (h_vlt
    : Part.vlt ∈ pset) (h_bnk : Part.bnk ∈ pset) (he : Machine.listsAndAge s p c fid f = some t0) (hk : Keeps pset z0
    s) : Keeps pset z0 t0 := by
  unfold Machine.listsAndAge at he
  try dsimp only at he
  repeat' split at he
  all_goals (first | (simp only [Option.some.injEq] at he; subst he) | exact absurd he (by simp) | skip)
  all_goals
    repeat' (first
      | with_reducible first
        | assumption | apply K.withdrawCopy h_regs h_cnts h_free h_mem h_outs h_intc h_sw h_gate h_vlt h_bnk
        | apply K.purgeCopy h_regs h_cnts h_mem h_outs h_intc h_sw h_bnk
        | apply K.ageCopy h_regs h_cnts h_free h_mem h_outs h_intc h_sw h_gate h_vlt h_bnk
        | refine Keeps.ite (fun _ => ?_) (fun _ => ?_)
      | dsimp only | split)

theorem openBytes {pset : List Part} {z0 s : State} {n : Nat} (h_free : Part.free ∈ pset) (hk : Keeps pset z0 s) :
    Keeps pset z0 (Machine.openBytes s n).1 :=
  Keeps.used h_free hk

theorem exitDrop {pset : List Part} {z0 : State} {s : State} {p : Nat} {c : Nat} {fid : Nat} {f : Frame} {r : Nat}
    (h_regs : Part.regs ∈ pset) (h_cnts : Part.cnts ∈ pset) (h_free : Part.free ∈ pset) (h_mem : Part.mem ∈ pset)
    (h_outs : Part.outs ∈ pset) (h_intc : Part.intc ∈ pset) (h_sw : Part.sw ∈ pset) (h_gate : Part.gate ∈ pset) (h_vlt
    : Part.vlt ∈ pset) (h_bnk : Part.bnk ∈ pset) (hk : Keeps pset z0 s) : Keeps pset z0 (Machine.exitDrop s p c fid f
    r) := by
  unfold Machine.exitDrop
  repeat' (first
    | with_reducible first
      | assumption | apply K.unref h_regs h_mem h_outs h_intc h_sw h_bnk
      | apply K.dropStored h_regs h_cnts h_mem h_outs h_intc h_sw h_bnk
      | apply K.itemEndExit h_regs h_cnts h_free h_mem h_outs h_intc h_sw h_gate h_vlt h_bnk
      | refine Keeps.ite (fun _ => ?_) (fun _ => ?_)
    | dsimp only | split)

theorem sampleWrite {pset : List Part} {z0 : State} {s : State} {f : Frame} (h_regs : Part.regs ∈ pset) (h_free :
    Part.free ∈ pset) (h_mem : Part.mem ∈ pset) (h_outs : Part.outs ∈ pset) (h_intc : Part.intc ∈ pset) (h_bnk :
    Part.bnk ∈ pset) (hk : Keeps pset z0 s) : Keeps pset z0 (Machine.sampleWrite s f) := by
  unfold Machine.sampleWrite
  repeat' (first
    | with_reducible first
      | assumption | apply K.putF h_regs | apply K.satInc h_regs | apply K.raiseIrq h_regs h_outs h_intc
      | apply K.fabWrite h_regs h_mem h_outs h_intc h_bnk | apply K.swRingLevels h_regs h_outs h_intc
      | apply K.openBytes h_free | refine Keeps.ite (fun _ => ?_) (fun _ => ?_)
    | dsimp only | split)

theorem sinkMove {pset : List Part} {z0 : State} {s : State} {p : Nat} {fid : Nat} {f : Frame} {rf : ReadFault}
    (h_regs : Part.regs ∈ pset) (h_free : Part.free ∈ pset) (h_mem : Part.mem ∈ pset) (h_outs : Part.outs ∈ pset)
    (h_intc : Part.intc ∈ pset) (h_sw : Part.sw ∈ pset) (h_bnk : Part.bnk ∈ pset) (hk : Keeps pset z0 s) : Keeps pset
    z0 (Machine.sinkMove s p fid f rf) := by
  unfold Machine.sinkMove
  repeat' (first
    | with_reducible first
      | assumption | apply K.emit h_outs | apply K.unref h_regs h_mem h_outs h_intc h_sw h_bnk
      | apply K.sampleWrite h_regs h_free h_mem h_outs h_intc h_bnk | refine Keeps.ite (fun _ => ?_) (fun _ => ?_)
    | dsimp only | split | simp only [Keeps.lit_sw h_sw])

theorem chosen {pset : List Part} {z0 : State} {s : State} {p : Nat} {h : Choice} {d : SchedSt} (h_sw : Part.sw ∈
    pset) (hk : Keeps pset z0 s) : Keeps pset z0 (Machine.chosen s p h d) := by
  unfold Machine.chosen
  repeat' (first
    | with_reducible first
      | assumption | apply K.dequeue h_sw | refine Keeps.ite (fun _ => ?_) (fun _ => ?_)
    | intro _ _ | dsimp only | split | simp only [Keeps.lit_sw h_sw])

theorem selectAt {pset : List Part} {z0 : State} {s : State} {p : Nat} {ok : State → Choice → Bool} {fuel : Nat}
    (h_regs : Part.regs ∈ pset) (h_cnts : Part.cnts ∈ pset) (h_free : Part.free ∈ pset) (h_mem : Part.mem ∈ pset)
    (h_outs : Part.outs ∈ pset) (h_intc : Part.intc ∈ pset) (h_sw : Part.sw ∈ pset) (h_gate : Part.gate ∈ pset) (h_vlt
    : Part.vlt ∈ pset) (h_bnk : Part.bnk ∈ pset) (hk : Keeps pset z0 s) : Keeps pset z0 (Machine.selectAt s p ok
    fuel).1 := by
  induction fuel generalizing s p with
  | zero =>
    unfold Machine.selectAt
    repeat' (first
      | with_reducible first
        | assumption
        | refine K.listsAndAge h_regs h_cnts h_free h_mem h_outs h_intc h_sw h_gate h_vlt h_bnk (by assumption) ?_
      | intro _ _ | dsimp only | split | refine Keeps.ofFst (by with_reducible assumption) ?_
      | refine Keeps.ofSnd (by with_reducible assumption) ?_)
  | succ _ ih =>
    unfold Machine.selectAt
    repeat' (first
      | with_reducible first
        | assumption | apply ih
        | refine K.listsAndAge h_regs h_cnts h_free h_mem h_outs h_intc h_sw h_gate h_vlt h_bnk (by assumption) ?_
      | intro _ _ | dsimp only | split | refine Keeps.ofFst (by with_reducible assumption) ?_
      | refine Keeps.ofSnd (by with_reducible assumption) ?_)

theorem sinkTry {pset : List Part} {z0 : State} {p : Nat} {rf : ReadFault} {s : State} {fuel : Nat} (h_regs :
    Part.regs ∈ pset) (h_cnts : Part.cnts ∈ pset) (h_free : Part.free ∈ pset) (h_mem : Part.mem ∈ pset) (h_outs :
    Part.outs ∈ pset) (h_intc : Part.intc ∈ pset) (h_sw : Part.sw ∈ pset) (h_gate : Part.gate ∈ pset) (h_vlt :
    Part.vlt ∈ pset) (h_bnk : Part.bnk ∈ pset) (hk : Keeps pset z0 s) : Keeps pset z0 (Machine.sinkTry p rf s fuel) :=
    by
  induction fuel generalizing p rf s with
  | zero =>
    unfold Machine.sinkTry
    repeat' (first
      | with_reducible first
        | assumption | apply K.queueDrop h_sw
        | apply K.exitDrop h_regs h_cnts h_free h_mem h_outs h_intc h_sw h_gate h_vlt h_bnk
        | apply K.sinkMove h_regs h_free h_mem h_outs h_intc h_sw h_bnk | apply K.chosen h_sw
        | apply K.selectAt h_regs h_cnts h_free h_mem h_outs h_intc h_sw h_gate h_vlt h_bnk
      | intro _ _ | dsimp only | split | refine Keeps.ofFst (by with_reducible assumption) ?_
      | refine Keeps.ofSnd (by with_reducible assumption) ?_)
  | succ _ ih =>
    unfold Machine.sinkTry
    repeat' (first
      | with_reducible first
        | assumption | apply ih | apply K.queueDrop h_sw
        | apply K.exitDrop h_regs h_cnts h_free h_mem h_outs h_intc h_sw h_gate h_vlt h_bnk
        | apply K.sinkMove h_regs h_free h_mem h_outs h_intc h_sw h_bnk | apply K.chosen h_sw
        | apply K.selectAt h_regs h_cnts h_free h_mem h_outs h_intc h_sw h_gate h_vlt h_bnk
      | intro _ _ | dsimp only | split | refine Keeps.ofFst (by with_reducible assumption) ?_
      | refine Keeps.ofSnd (by with_reducible assumption) ?_)

theorem sinkSelect {pset : List Part} {z0 : State} {p : Nat} {rf : ReadFault} {s : State} (h_regs : Part.regs ∈
    pset) (h_cnts : Part.cnts ∈ pset) (h_free : Part.free ∈ pset) (h_mem : Part.mem ∈ pset) (h_outs : Part.outs ∈
    pset) (h_intc : Part.intc ∈ pset) (h_sw : Part.sw ∈ pset) (h_gate : Part.gate ∈ pset) (h_vlt : Part.vlt ∈ pset)
    (h_bnk : Part.bnk ∈ pset) (hk : Keeps pset z0 s) : Keeps pset z0 (Machine.sinkSelect p rf s) := by
  unfold Machine.sinkSelect
  repeat' (first
    | with_reducible first
      | assumption | apply K.sinkTry h_regs h_cnts h_free h_mem h_outs h_intc h_sw h_gate h_vlt h_bnk
      | refine Keeps.ite (fun _ => ?_) (fun _ => ?_)
    | split)

theorem ageEnt {pset : List Part} {z0 : State} {s : State} {e : QEnt} (h_regs : Part.regs ∈ pset) (h_cnts :
    Part.cnts ∈ pset) (h_free : Part.free ∈ pset) (h_mem : Part.mem ∈ pset) (h_outs : Part.outs ∈ pset) (h_intc :
    Part.intc ∈ pset) (h_sw : Part.sw ∈ pset) (h_gate : Part.gate ∈ pset) (h_vlt : Part.vlt ∈ pset) (h_bnk : Part.bnk
    ∈ pset) (hk : Keeps pset z0 s) : Keeps pset z0 (Machine.ageEnt s e) := by
  unfold Machine.ageEnt
  repeat' (first
    | with_reducible first
      | assumption | apply K.ageCopy h_regs h_cnts h_free h_mem h_outs h_intc h_sw h_gate h_vlt h_bnk
      | refine Keeps.ite (fun _ => ?_) (fun _ => ?_)
    | dsimp only | split)

theorem ageHeads {pset : List Part} {z0 : State} {s : State} (h_regs : Part.regs ∈ pset) (h_cnts : Part.cnts ∈
    pset) (h_free : Part.free ∈ pset) (h_mem : Part.mem ∈ pset) (h_outs : Part.outs ∈ pset) (h_intc : Part.intc ∈
    pset) (h_sys : Part.sys ∈ pset) (h_sw : Part.sw ∈ pset) (h_gate : Part.gate ∈ pset) (h_vlt : Part.vlt ∈ pset)
    (h_bnk : Part.bnk ∈ pset) (h_time : Part.time ∈ pset) (h_pwr : Part.pwr ∈ pset) (hk : Keeps pset z0 s) : Keeps
    pset z0 (Machine.ageHeads s) := by
  unfold Machine.ageHeads
  repeat' (first
    | with_reducible first
      | assumption | apply K.advanceNs h_cnts h_sys h_time h_pwr
      | apply K.ageEnt h_regs h_cnts h_free h_mem h_outs h_intc h_sw h_gate h_vlt h_bnk
      | refine Keeps.foldl (fun _ _ _ => ?_) ?_
    | dsimp only)

theorem purgeScan {pset : List Part} {z0 : State} {s : State} (h_regs : Part.regs ∈ pset) (h_cnts : Part.cnts ∈
    pset) (h_mem : Part.mem ∈ pset) (h_outs : Part.outs ∈ pset) (h_intc : Part.intc ∈ pset) (h_sw : Part.sw ∈ pset)
    (h_bnk : Part.bnk ∈ pset) (hk : Keeps pset z0 s) : Keeps pset z0 (Machine.purgeScan s) := by
  unfold Machine.purgeScan
  repeat' (first
    | with_reducible first
      | assumption | apply K.purgeCopy h_regs h_cnts h_mem h_outs h_intc h_sw h_bnk
      | refine Keeps.ite (fun _ => ?_) (fun _ => ?_) | refine Keeps.foldl (fun _ _ _ => ?_) ?_
      | refine Keeps.foldlFst (fun _ _ _ => ?_) ?_
    | intro _ _ | dsimp only | split | simp only [Keeps.lit_sw h_sw])

theorem withdrawTake {pset : List Part} {z0 : State} {s : State} (h_sw : Part.sw ∈ pset) (hk : Keeps pset z0 s) :
    Keeps pset z0 (Machine.withdrawTake s) := by
  unfold Machine.withdrawTake
  repeat' (first
    | with_reducible first
      | assumption | refine Keeps.ite (fun _ => ?_) (fun _ => ?_)
    | dsimp only | split | simp only [Keeps.lit_sw h_sw])

theorem gateInterval {pset : List Part} {z0 : State} {s : State} {p : Nat} (h_cnts : Part.cnts ∈ pset) (h_sys :
    Part.sys ∈ pset) (h_sw : Part.sw ∈ pset) (h_time : Part.time ∈ pset) (h_pwr : Part.pwr ∈ pset) (hk : Keeps pset z0
    s) : Keeps pset z0 (Machine.gateInterval s p) := by
  unfold Machine.gateInterval
  repeat' (first
    | with_reducible first
      | assumption | apply K.advanceTb h_cnts h_sys h_time h_pwr | apply K.schedSettle h_sw
    | dsimp only | split)

theorem gateSwap {pset : List Part} {z0 : State} {s : State} {p : Nat} (h_regs : Part.regs ∈ pset) (h_cnts :
    Part.cnts ∈ pset) (h_sys : Part.sys ∈ pset) (h_sw : Part.sw ∈ pset) (h_time : Part.time ∈ pset) (h_pwr : Part.pwr
    ∈ pset) (hk : Keeps pset z0 s) : Keeps pset z0 (Machine.gateSwap s p) := by
  unfold Machine.gateSwap
  repeat' (first
    | with_reducible first
      | assumption | apply K.putB h_regs | apply K.advanceTb h_cnts h_sys h_time h_pwr | apply K.schedSettle h_sw
    | dsimp only | split | simp only [Keeps.lit_sw h_sw])

theorem withdrawScan {pset : List Part} {z0 : State} {s : State} (h_regs : Part.regs ∈ pset) (h_cnts : Part.cnts ∈
    pset) (h_free : Part.free ∈ pset) (h_mem : Part.mem ∈ pset) (h_outs : Part.outs ∈ pset) (h_intc : Part.intc ∈
    pset) (h_sw : Part.sw ∈ pset) (h_gate : Part.gate ∈ pset) (h_vlt : Part.vlt ∈ pset) (h_bnk : Part.bnk ∈ pset) (hk
    : Keeps pset z0 s) : Keeps pset z0 (Machine.withdrawScan s) := by
  unfold Machine.withdrawScan
  repeat' (first
    | with_reducible first
      | assumption | apply K.scansOver h_regs h_outs h_intc h_gate h_vlt
      | apply K.withdrawCopy h_regs h_cnts h_free h_mem h_outs h_intc h_sw h_gate h_vlt h_bnk
      | refine Keeps.foldl (fun _ _ _ => ?_) ?_
    | dsimp only | split | simp only [Keeps.lit_sw h_sw])

end Sys2Proof.Laws.K
end

