-- ==== Sys2Proof/Laws/KeepsEngine.lean ====
section
/-! SUPPORT. What the operations of `Machine/Engine.lean` keep. -/

namespace Sys2Proof.Laws.K

open Sys2Proof Sys2Proof.Machine Sys2Proof.Laws

theorem dmaDone {pset : List Part} {z0 : State} {s : State} {n : Nat} {tag : Nat} {st : Nat} (h_regs : Part.regs ∈
    pset) (h_eng : Part.eng ∈ pset) (hk : Keeps pset z0 s) : Keeps pset z0 (Machine.dmaDone s n tag st) := by
  unfold Machine.dmaDone
  repeat' (first
    | with_reducible first
      | assumption | apply K.raiseEvent h_regs | apply K.engMod h_eng
    | intro _ _ | dsimp only)

theorem dmaSettle {pset : List Part} {z0 : State} {s : State} {n : Nat} {fuel : Nat} (h_regs : Part.regs ∈ pset)
    (h_eng : Part.eng ∈ pset) (hk : Keeps pset z0 s) : Keeps pset z0 (Machine.dmaSettle s n fuel) := by
  induction fuel generalizing s n with
  | zero =>
    unfold Machine.dmaSettle
    repeat' (first
      | with_reducible first
        | assumption | apply K.engMod h_eng | apply K.dmaDone h_regs h_eng
        | refine Keeps.ite (fun _ => ?_) (fun _ => ?_)
      | intro _ _ | dsimp only | split)
  | succ _ ih =>
    unfold Machine.dmaSettle
    repeat' (first
      | with_reducible first
        | assumption | apply ih | apply K.engMod h_eng | apply K.dmaDone h_regs h_eng
        | refine Keeps.ite (fun _ => ?_) (fun _ => ?_)
      | intro _ _ | dsimp only | split)

theorem dmaPush {pset : List Part} {z0 : State} {s : State} {n : Nat} {w3 : Word} (h_regs : Part.regs ∈ pset)
    (h_eng : Part.eng ∈ pset) (hk : Keeps pset z0 s) : Keeps pset z0 (Machine.dmaPush s n w3) := by
  unfold Machine.dmaPush
  repeat' (first
    | with_reducible first
      | assumption | apply K.engMod h_eng | apply K.dmaSettle h_regs h_eng
      | refine Keeps.ite (fun _ => ?_) (fun _ => ?_)
    | intro _ _ | dsimp only | split)

theorem dmaEnd {pset : List Part} {z0 : State} {s : State} {n : Nat} {c : DmaCmd} {st : Nat} (h_regs : Part.regs ∈
    pset) (h_eng : Part.eng ∈ pset) (hk : Keeps pset z0 s) : Keeps pset z0 (Machine.dmaEnd s n c st) := by
  unfold Machine.dmaEnd
  repeat' (first
    | with_reducible first
      | assumption | apply K.engMod h_eng | apply K.dmaDone h_regs h_eng | apply K.dmaSettle h_regs h_eng
    | intro _ _ | dsimp only)

theorem sinkDrop {pset : List Part} {z0 : State} {s : State} {e : SinkEnt} (h_regs : Part.regs ∈ pset) (h_mem :
    Part.mem ∈ pset) (h_outs : Part.outs ∈ pset) (h_intc : Part.intc ∈ pset) (h_sw : Part.sw ∈ pset) (h_bnk : Part.bnk
    ∈ pset) (hk : Keeps pset z0 s) : Keeps pset z0 (Machine.sinkDrop s e) := by
  unfold Machine.sinkDrop
  repeat' (first
    | with_reducible first
      | assumption | apply K.unref h_regs h_mem h_outs h_intc h_sw h_bnk
    | dsimp only | simp only [Keeps.lit_sw h_sw])

theorem dmaRecv {pset : List Part} {z0 : State} {s : State} {n : Nat} {c : DmaCmd} (h_regs : Part.regs ∈ pset)
    (h_cnts : Part.cnts ∈ pset) (h_free : Part.free ∈ pset) (h_mem : Part.mem ∈ pset) (h_outs : Part.outs ∈ pset)
    (h_intc : Part.intc ∈ pset) (h_sw : Part.sw ∈ pset) (h_gate : Part.gate ∈ pset) (h_vlt : Part.vlt ∈ pset) (h_bnk :
    Part.bnk ∈ pset) (h_eng : Part.eng ∈ pset) (hk : Keeps pset z0 s) : Keeps pset z0 (Machine.dmaRecv s n c) := by
  unfold Machine.dmaRecv
  repeat' (first
    | with_reducible first
      | assumption | apply K.tcmWrite h_mem
      | apply K.exitDrop h_regs h_cnts h_free h_mem h_outs h_intc h_sw h_gate h_vlt h_bnk
      | apply K.dmaEnd h_regs h_eng | apply K.sinkDrop h_regs h_mem h_outs h_intc h_sw h_bnk
      | refine Keeps.ite (fun _ => ?_) (fun _ => ?_)
    | dsimp only | split | refine Keeps.ofFst (by with_reducible assumption) ?_
    | refine Keeps.ofSnd (by with_reducible assumption) ?_ | simp only [Keeps.lit_sw h_sw])

theorem dmaSend {pset : List Part} {z0 : State} {s : State} {n : Nat} {c : DmaCmd} (h_regs : Part.regs ∈ pset)
    (h_cnts : Part.cnts ∈ pset) (h_free : Part.free ∈ pset) (h_mem : Part.mem ∈ pset) (h_outs : Part.outs ∈ pset)
    (h_intc : Part.intc ∈ pset) (h_sw : Part.sw ∈ pset) (h_bnk : Part.bnk ∈ pset) (h_eng : Part.eng ∈ pset) (hk :
    Keeps pset z0 s) : Keeps pset z0 (Machine.dmaSend s n c) := by
  unfold Machine.dmaSend
  repeat' (first
    | with_reducible first
      | assumption | apply K.swIngress h_regs h_cnts h_free h_mem h_outs h_intc h_sw h_bnk
      | apply K.dmaEnd h_regs h_eng | refine Keeps.ite (fun _ => ?_) (fun _ => ?_)
    | dsimp only | split)

theorem dmaRead {pset : List Part} {z0 : State} {s : State} {n : Nat} {c : DmaCmd} (h_regs : Part.regs ∈ pset)
    (h_cnts : Part.cnts ∈ pset) (h_mem : Part.mem ∈ pset) (h_outs : Part.outs ∈ pset) (h_intc : Part.intc ∈ pset)
    (h_eng : Part.eng ∈ pset) (hk : Keeps pset z0 s) : Keeps pset z0 (Machine.dmaRead s n c) := by
  unfold Machine.dmaRead
  repeat' (first
    | with_reducible first
      | assumption | apply K.fabRead h_regs h_outs h_intc | apply K.tcmWrite h_mem
      | apply K.mdbNote h_regs h_cnts h_outs h_intc | apply K.plkNote h_regs h_cnts h_outs h_intc
      | apply K.dmaEnd h_regs h_eng | refine Keeps.ite (fun _ => ?_) (fun _ => ?_)
    | dsimp only | split)

theorem ckptAccept {pset : List Part} {z0 : State} {s : State} {n : Nat} {v : Word} (h_regs : Part.regs ∈ pset)
    (hk : Keeps pset z0 s) : Keeps pset z0 (Machine.ckptAccept s n v) := by
  unfold Machine.ckptAccept
  repeat' (first
    | with_reducible first
      | assumption | apply K.setR h_regs | refine Keeps.ite (fun _ => ?_) (fun _ => ?_)
    | dsimp only | split)

theorem ckptStep {pset : List Part} {z0 : State} {s : State} {n : Nat} (h_regs : Part.regs ∈ pset) (h_eng :
    Part.eng ∈ pset) (hk : Keeps pset z0 s) : Keeps pset z0 (Machine.ckptStep s n) := by
  unfold Machine.ckptStep
  repeat' (first
    | with_reducible first
      | assumption | apply K.engMod h_eng | apply K.ckptAccept h_regs | refine Keeps.ite (fun _ => ?_) (fun _ => ?_)
    | intro _ _ | dsimp only | split | refine Keeps.ofFst (by with_reducible assumption) ?_
    | refine Keeps.ofSnd (by with_reducible assumption) ?_)

theorem ckptCommit {pset : List Part} {z0 : State} {s : State} {n : Nat} {v : Word} (h_regs : Part.regs ∈ pset)
    (h_eng : Part.eng ∈ pset) (hk : Keeps pset z0 s) : Keeps pset z0 (Machine.ckptCommit s n v) := by
  unfold Machine.ckptCommit
  repeat' (first
    | with_reducible first
      | assumption | apply K.engMod h_eng | apply K.ckptAccept h_regs | refine Keeps.ite (fun _ => ?_) (fun _ => ?_)
    | intro _ _ | dsimp only | split)

theorem dmaWrite {pset : List Part} {z0 : State} {s : State} {n : Nat} {c : DmaCmd} (h_regs : Part.regs ∈ pset)
    (h_mem : Part.mem ∈ pset) (h_outs : Part.outs ∈ pset) (h_intc : Part.intc ∈ pset) (h_bnk : Part.bnk ∈ pset) (h_eng
    : Part.eng ∈ pset) (hk : Keeps pset z0 s) : Keeps pset z0 (Machine.dmaWrite s n c) := by
  unfold Machine.dmaWrite
  repeat' (first
    | with_reducible first
      | assumption | apply K.fabWrite h_regs h_mem h_outs h_intc h_bnk | apply K.dmaEnd h_regs h_eng
      | apply K.ckptStep h_regs h_eng | refine Keeps.ite (fun _ => ?_) (fun _ => ?_)
    | dsimp only | split)

theorem dmaCollide {pset : List Part} {z0 : State} {s : State} {n : Nat} {lo : Nat} (h_regs : Part.regs ∈ pset)
    (h_mem : Part.mem ∈ pset) (h_outs : Part.outs ∈ pset) (h_intc : Part.intc ∈ pset) (h_bnk : Part.bnk ∈ pset) (h_eng
    : Part.eng ∈ pset) (hk : Keeps pset z0 s) : Keeps pset z0 (Machine.dmaCollide s n lo) := by
  unfold Machine.dmaCollide
  repeat' (first
    | with_reducible first
      | assumption | apply K.fabWrite h_regs h_mem h_outs h_intc h_bnk | apply K.dmaEnd h_regs h_eng
      | apply K.ckptStep h_regs h_eng | refine Keeps.ite (fun _ => ?_) (fun _ => ?_)
    | dsimp only | split)

theorem collideEnd {pset : List Part} {z0 : State} {s : State} {m : Master} {a : Nat} {lo : Nat} (h_regs :
    Part.regs ∈ pset) (h_mem : Part.mem ∈ pset) (h_outs : Part.outs ∈ pset) (h_intc : Part.intc ∈ pset) (h_bnk :
    Part.bnk ∈ pset) (h_eng : Part.eng ∈ pset) (h_cores : Part.cores ∈ pset) (hk : Keeps pset z0 s) : Keeps pset z0
    (Machine.collideEnd s m a lo) := by
  unfold Machine.collideEnd
  repeat' (first
    | with_reducible first
      | assumption | apply K.pendAsync h_cores | apply K.dmaCollide h_regs h_mem h_outs h_intc h_bnk h_eng
      | refine Keeps.ite (fun _ => ?_) (fun _ => ?_)
    | split)

theorem collideStep {pset : List Part} {z0 : State} {a : Nat} {mA : Master} {bytesA : List Byte} {mB : Master} {s
    : State} (h_regs : Part.regs ∈ pset) (h_cnts : Part.cnts ∈ pset) (h_mem : Part.mem ∈ pset) (h_outs : Part.outs ∈
    pset) (h_intc : Part.intc ∈ pset) (h_bnk : Part.bnk ∈ pset) (h_eng : Part.eng ∈ pset) (h_cores : Part.cores ∈
    pset) (hk : Keeps pset z0 s) : Keeps pset z0 (Machine.collideStep a mA bytesA mB s) := by
  unfold Machine.collideStep
  repeat' (first
    | with_reducible first
      | assumption | apply K.bump h_cnts | apply K.wrBytes h_mem | apply K.raiseIrq h_regs h_outs h_intc
      | apply K.coverHalves h_bnk | apply K.collideEnd h_regs h_mem h_outs h_intc h_bnk h_eng h_cores
      | refine Keeps.ite (fun _ => ?_) (fun _ => ?_)
    | dsimp only | split)

theorem dmaRun {pset : List Part} {z0 : State} {s : State} {n : Nat} {op : Nat} (h_regs : Part.regs ∈ pset)
    (h_cnts : Part.cnts ∈ pset) (h_free : Part.free ∈ pset) (h_mem : Part.mem ∈ pset) (h_outs : Part.outs ∈ pset)
    (h_intc : Part.intc ∈ pset) (h_sw : Part.sw ∈ pset) (h_gate : Part.gate ∈ pset) (h_vlt : Part.vlt ∈ pset) (h_bnk :
    Part.bnk ∈ pset) (h_eng : Part.eng ∈ pset) (hk : Keeps pset z0 s) : Keeps pset z0 (Machine.dmaRun s n op) := by
  unfold Machine.dmaRun
  repeat' (first
    | with_reducible first
      | assumption | apply K.dmaRecv h_regs h_cnts h_free h_mem h_outs h_intc h_sw h_gate h_vlt h_bnk h_eng
      | apply K.dmaSend h_regs h_cnts h_free h_mem h_outs h_intc h_sw h_bnk h_eng
      | apply K.dmaRead h_regs h_cnts h_mem h_outs h_intc h_eng
      | apply K.dmaWrite h_regs h_mem h_outs h_intc h_bnk h_eng | refine Keeps.ite (fun _ => ?_) (fun _ => ?_)
    | dsimp only | split)

theorem dmaCplRead {pset : List Part} {z0 : State} {n : Nat} {s : State} (h_regs : Part.regs ∈ pset) (h_eng :
    Part.eng ∈ pset) (hk : Keeps pset z0 s) : Keeps pset z0 (Machine.dmaCplRead n s).1 := by
  unfold Machine.dmaCplRead
  repeat' (first
    | with_reducible first
      | assumption | apply K.engMod h_eng | apply K.dmaSettle h_regs h_eng
    | intro _ _ | dsimp only | split | refine Keeps.ofFst (by with_reducible assumption) ?_
    | refine Keeps.ofSnd (by with_reducible assumption) ?_)

theorem dmaLevel {pset : List Part} {z0 : State} {n : Nat} {s : State} (h_eng : Part.eng ∈ pset) (hk : Keeps pset
    z0 s) : Keeps pset z0 (Machine.dmaLevel n s).1 := by
  unfold Machine.dmaLevel
  repeat' (first
    | with_reducible first
      | assumption | apply K.engMod h_eng
    | intro _ _ | dsimp only)

theorem jcrPut {pset : List Part} {z0 t0 : State} {s : State} {r : List Byte} (h_regs : Part.regs ∈ pset) (h_mem :
    Part.mem ∈ pset) (h_outs : Part.outs ∈ pset) (h_intc : Part.intc ∈ pset) (h_bnk : Part.bnk ∈ pset) (he :
    Machine.jcrPut s r = some t0) (hk : Keeps pset z0 s) : Keeps pset z0 t0 := by
  unfold Machine.jcrPut at he
  try dsimp only at he
  repeat' split at he
  all_goals (first | (simp only [Option.some.injEq] at he; subst he) | exact absurd he (by simp) | skip)
  all_goals
    repeat' (first
      | with_reducible first
        | assumption | apply K.putF h_regs | apply K.raiseIrq h_regs h_outs h_intc
        | apply K.fabWrite h_regs h_mem h_outs h_intc h_bnk | refine Keeps.ite (fun _ => ?_) (fun _ => ?_)
      | dsimp only | split)

theorem jobRecord {pset : List Part} {z0 : State} {s : State} {n : Nat} {tag : Nat} {outcome : Nat} {reason : Nat}
    (h_regs : Part.regs ∈ pset) (h_mem : Part.mem ∈ pset) (h_outs : Part.outs ∈ pset) (h_intc : Part.intc ∈ pset)
    (h_bnk : Part.bnk ∈ pset) (h_plc : Part.plc ∈ pset) (hk : Keeps pset z0 s) : Keeps pset z0 (Machine.jobRecord s n
    tag outcome reason) := by
  unfold Machine.jobRecord
  repeat' (first
    | with_reducible first
      | assumption | refine K.jcrPut h_regs h_mem h_outs h_intc h_bnk (by assumption) ?_
      | refine Keeps.ite (fun _ => ?_) (fun _ => ?_)
    | dsimp only | split | simp only [Keeps.lit_plc h_plc])

theorem jobNext {pset : List Part} {z0 : State} {n : Nat} {s : State} (h_eng : Part.eng ∈ pset) (hk : Keeps pset
    z0 s) : Keeps pset z0 (Machine.jobNext n s).1 := by
  unfold Machine.jobNext
  repeat' (first
    | with_reducible first
      | assumption | apply K.engMod h_eng | refine Keeps.ite (fun _ => ?_) (fun _ => ?_)
      | refine Keeps.iteFst (fun _ => ?_) (fun _ => ?_)
    | intro _ _ | dsimp only | split)

theorem jobEnd {pset : List Part} {z0 : State} {s : State} {n : Nat} {tag : Word} (h_regs : Part.regs ∈ pset)
    (h_mem : Part.mem ∈ pset) (h_outs : Part.outs ∈ pset) (h_intc : Part.intc ∈ pset) (h_bnk : Part.bnk ∈ pset) (h_eng
    : Part.eng ∈ pset) (h_plc : Part.plc ∈ pset) (hk : Keeps pset z0 s) : Keeps pset z0 (Machine.jobEnd s n tag) := by
  unfold Machine.jobEnd
  repeat' (first
    | with_reducible first
      | assumption | apply K.engMod h_eng | apply K.jobRecord h_regs h_mem h_outs h_intc h_bnk h_plc
      | refine Keeps.ite (fun _ => ?_) (fun _ => ?_)
    | intro _ _ | dsimp only | split)

theorem jobRecordRetry {pset : List Part} {z0 : State} {s : State} (h_regs : Part.regs ∈ pset) (h_mem : Part.mem ∈
    pset) (h_outs : Part.outs ∈ pset) (h_intc : Part.intc ∈ pset) (h_bnk : Part.bnk ∈ pset) (h_plc : Part.plc ∈ pset)
    (hk : Keeps pset z0 s) : Keeps pset z0 (Machine.jobRecordRetry s) := by
  unfold Machine.jobRecordRetry
  repeat' (first
    | with_reducible first
      | assumption | refine K.jcrPut h_regs h_mem h_outs h_intc h_bnk (by assumption) ?_
    | dsimp only | split | simp only [Keeps.lit_plc h_plc])

theorem jobsFail {pset : List Part} {z0 : State} {s : State} {n : Nat} {reason : Nat} {l : List Job} (h_regs :
    Part.regs ∈ pset) (h_mem : Part.mem ∈ pset) (h_outs : Part.outs ∈ pset) (h_intc : Part.intc ∈ pset) (h_bnk :
    Part.bnk ∈ pset) (h_plc : Part.plc ∈ pset) (hk : Keeps pset z0 s) : Keeps pset z0 (Machine.jobsFail s n reason l)
    := by
  unfold Machine.jobsFail
  repeat' (first
    | with_reducible first
      | assumption | apply K.jobRecord h_regs h_mem h_outs h_intc h_bnk h_plc
      | refine Keeps.foldl (fun _ _ _ => ?_) ?_
    | intro _ _)

theorem crcAbsorb {pset : List Part} {z0 : State} {s : State} {n : Nat} {l : List Byte} (h_regs : Part.regs ∈
    pset) (hk : Keeps pset z0 s) : Keeps pset z0 (Machine.crcAbsorb s n l) := by
  unfold Machine.crcAbsorb
  repeat' (first
    | with_reducible first
      | assumption | apply K.setR h_regs | refine Keeps.ite (fun _ => ?_) (fun _ => ?_)
    | intro _ _ | dsimp only | split)

theorem engTnow {pset : List Part} {z0 : State} {n : Nat} {s : State} (h_regs : Part.regs ∈ pset) (hk : Keeps pset
    z0 s) : Keeps pset z0 (Machine.engTnow n s).1 := by
  unfold Machine.engTnow
  repeat' (first
    | with_reducible first
      | assumption | apply K.setR h_regs
    | dsimp only)

theorem timerArm {pset : List Part} {z0 : State} {s : State} {n : Nat} {t : Nat} {v : Word} (h_regs : Part.regs ∈
    pset) (h_eng : Part.eng ∈ pset) (hk : Keeps pset z0 s) : Keeps pset z0 (Machine.timerArm s n t v) := by
  unfold Machine.timerArm
  repeat' (first
    | with_reducible first
      | assumption | apply K.setR h_regs | apply K.engMod h_eng | refine Keeps.ite (fun _ => ?_) (fun _ => ?_)
    | intro _ _ | dsimp only | split)

theorem timerFire {pset : List Part} {z0 : State} {s : State} {n : Nat} {t : Nat} (h_regs : Part.regs ∈ pset)
    (h_cnts : Part.cnts ∈ pset) (h_sys : Part.sys ∈ pset) (h_time : Part.time ∈ pset) (h_eng : Part.eng ∈ pset) (h_pwr
    : Part.pwr ∈ pset) (hk : Keeps pset z0 s) : Keeps pset z0 (Machine.timerFire s n t) := by
  unfold Machine.timerFire
  repeat' (first
    | with_reducible first
      | assumption | apply K.raiseEvent h_regs | apply K.advanceCore h_cnts h_sys h_time h_pwr | apply K.engMod h_eng
      | refine Keeps.ite (fun _ => ?_) (fun _ => ?_)
    | intro _ _ | dsimp only | split)

theorem engKick {pset : List Part} {z0 : State} {s : State} {n : Nat} (h_eng : Part.eng ∈ pset) (hk : Keeps pset
    z0 s) : Keeps pset z0 (Machine.engKick s n) := by
  unfold Machine.engKick
  repeat' (first
    | with_reducible first
      | assumption | apply K.engMod h_eng
    | intro _ _ | dsimp only)

theorem wdtEnable {pset : List Part} {z0 : State} {was : Bool} {p : Nat} {s : State} (h_eng : Part.eng ∈ pset) (hk
    : Keeps pset z0 s) : Keeps pset z0 (Machine.wdtEnable was p s) := by
  unfold Machine.wdtEnable
  repeat' (first
    | with_reducible first
      | assumption | apply K.engKick h_eng | refine Keeps.ite (fun _ => ?_) (fun _ => ?_)
    | dsimp only | split)

theorem declareDead {pset : List Part} {z0 : State} {s : State} {n : Nat} {cause : Nat} (h_regs : Part.regs ∈
    pset) (h_outs : Part.outs ∈ pset) (h_intc : Part.intc ∈ pset) (h_eng : Part.eng ∈ pset) (hk : Keeps pset z0 s) :
    Keeps pset z0 (Machine.declareDead s n cause) := by
  unfold Machine.declareDead
  repeat' (first
    | with_reducible first
      | assumption | apply K.putF h_regs | apply K.raiseIrq h_regs h_outs h_intc | apply K.engMod h_eng
      | refine Keeps.ite (fun _ => ?_) (fun _ => ?_)
    | intro _ _ | dsimp only | split)

theorem engWdtExpiry {pset : List Part} {z0 : State} {s : State} {n : Nat} (h_regs : Part.regs ∈ pset) (h_cnts :
    Part.cnts ∈ pset) (h_outs : Part.outs ∈ pset) (h_intc : Part.intc ∈ pset) (h_sys : Part.sys ∈ pset) (h_time :
    Part.time ∈ pset) (h_eng : Part.eng ∈ pset) (h_pwr : Part.pwr ∈ pset) (hk : Keeps pset z0 s) : Keeps pset z0
    (Machine.engWdtExpiry s n) := by
  unfold Machine.engWdtExpiry
  repeat' (first
    | with_reducible first
      | assumption | apply K.putB h_regs | apply K.raiseIrq h_regs h_outs h_intc
      | apply K.advanceNs h_cnts h_sys h_time h_pwr | apply K.declareDead h_regs h_outs h_intc h_eng
      | refine Keeps.ite (fun _ => ?_) (fun _ => ?_)
    | dsimp only | split)

theorem slotChanged {pset : List Part} {z0 : State} {s : State} {n : Nat} {k : Nat} (h_regs : Part.regs ∈ pset)
    (hk : Keeps pset z0 s) : Keeps pset z0 (Machine.slotChanged s n k) := by
  unfold Machine.slotChanged
  repeat' (first
    | with_reducible first
      | assumption | apply K.raiseEvent h_regs)

theorem handOver {pset : List Part} {z0 : State} {s : State} {g : Mig} (h_regs : Part.regs ∈ pset) (h_eng :
    Part.eng ∈ pset) (hk : Keeps pset z0 s) : Keeps pset z0 (Machine.handOver s g) := by
  unfold Machine.handOver
  repeat' (first
    | with_reducible first
      | assumption | apply K.raiseEvent h_regs | apply K.engMod h_eng | apply K.qhSet h_eng
      | apply K.slotChanged h_regs
    | intro _ _ | dsimp only)

theorem migReady {pset : List Part} {z0 : State} {s : State} {n : Nat} {k : Nat} (h_regs : Part.regs ∈ pset)
    (h_eng : Part.eng ∈ pset) (hk : Keeps pset z0 s) : Keeps pset z0 (Machine.migReady s n k) := by
  unfold Machine.migReady
  repeat' (first
    | with_reducible first
      | assumption | apply K.handOver h_regs h_eng | refine Keeps.ite (fun _ => ?_) (fun _ => ?_)
    | dsimp only | split)

theorem migDone {pset : List Part} {z0 : State} {s : State} {n : Nat} {k : Nat} (h_regs : Part.regs ∈ pset)
    (h_cnts : Part.cnts ∈ pset) (h_outs : Part.outs ∈ pset) (h_intc : Part.intc ∈ pset) (h_eng : Part.eng ∈ pset)
    (h_plc : Part.plc ∈ pset) (hk : Keeps pset z0 s) : Keeps pset z0 (Machine.migDone s n k) := by
  unfold Machine.migDone
  repeat' (first
    | with_reducible first
      | assumption | apply K.bump h_cnts | apply K.raiseEvent h_regs | apply K.raiseIrq h_regs h_outs h_intc
      | apply K.qhSet h_eng | refine Keeps.ite (fun _ => ?_) (fun _ => ?_)
    | dsimp only | split | simp only [Keeps.lit_plc h_plc])

theorem healthEngine {pset : List Part} {z0 : State} {s : State} {p : Nat} {q : Nat} (h_regs : Part.regs ∈ pset)
    (h_outs : Part.outs ∈ pset) (h_intc : Part.intc ∈ pset) (h_vlt : Part.vlt ∈ pset) (hk : Keeps pset z0 s) : Keeps
    pset z0 (Machine.healthEngine s p q) := by
  unfold Machine.healthEngine
  repeat' (first
    | with_reducible first
      | assumption | apply K.putF h_regs | apply K.healthPut h_regs h_outs h_intc h_vlt
    | intro _ _ | dsimp only)

theorem migsLost {pset : List Part} {z0 : State} {s : State} {n : Nat} (h_regs : Part.regs ∈ pset) (h_cnts :
    Part.cnts ∈ pset) (h_outs : Part.outs ∈ pset) (h_intc : Part.intc ∈ pset) (h_eng : Part.eng ∈ pset) (h_plc :
    Part.plc ∈ pset) (hk : Keeps pset z0 s) : Keeps pset z0 (Machine.migsLost s n) := by
  unfold Machine.migsLost
  repeat' (first
    | with_reducible first
      | assumption | apply K.bump h_cnts | apply K.raiseEvent h_regs | apply K.raiseIrq h_regs h_outs h_intc
      | apply K.qhSet h_eng | refine Keeps.ite (fun _ => ?_) (fun _ => ?_) | refine Keeps.foldl (fun _ _ _ => ?_) ?_
    | intro _ _ | dsimp only | split | simp only [Keeps.lit_plc h_plc])

theorem engLost {pset : List Part} {z0 : State} {s : State} {n : Nat} (h_regs : Part.regs ∈ pset) (h_cnts :
    Part.cnts ∈ pset) (h_mem : Part.mem ∈ pset) (h_outs : Part.outs ∈ pset) (h_intc : Part.intc ∈ pset) (h_bnk :
    Part.bnk ∈ pset) (h_eng : Part.eng ∈ pset) (h_plc : Part.plc ∈ pset) (hk : Keeps pset z0 s) : Keeps pset z0
    (Machine.engLost s n) := by
  unfold Machine.engLost
  repeat' (first
    | with_reducible first
      | assumption | apply K.raiseIrq h_regs h_outs h_intc | apply K.engMod h_eng
      | apply K.jobsFail h_regs h_mem h_outs h_intc h_bnk h_plc
      | apply K.migsLost h_regs h_cnts h_outs h_intc h_eng h_plc | refine Keeps.ite (fun _ => ?_) (fun _ => ?_)
      | refine Keeps.foldl (fun _ _ _ => ?_) ?_ | refine Keeps.foldlFst (fun _ _ _ => ?_) ?_
    | intro _ _ | dsimp only | split | simp only [Keeps.lit_plc h_plc])

theorem engFence {pset : List Part} {z0 : State} {s : State} {n : Nat} (h_regs : Part.regs ∈ pset) (h_cnts :
    Part.cnts ∈ pset) (h_mem : Part.mem ∈ pset) (h_outs : Part.outs ∈ pset) (h_intc : Part.intc ∈ pset) (h_gate :
    Part.gate ∈ pset) (h_vlt : Part.vlt ∈ pset) (h_bnk : Part.bnk ∈ pset) (h_eng : Part.eng ∈ pset) (h_plc : Part.plc
    ∈ pset) (h_cores : Part.cores ∈ pset) (hk : Keeps pset z0 s) : Keeps pset z0 (Machine.engFence s n) := by
  unfold Machine.engFence
  repeat' (first
    | with_reducible first
      | assumption | apply K.setR h_regs | apply K.putB h_regs | apply K.engMod h_eng
      | apply K.svcEndAll h_regs h_mem h_outs h_intc h_gate h_bnk | apply K.coreStop h_cores
      | apply K.jobsFail h_regs h_mem h_outs h_intc h_bnk h_plc | apply K.handOver h_regs h_eng
      | apply K.healthEngine h_regs h_outs h_intc h_vlt
      | apply K.engLost h_regs h_cnts h_mem h_outs h_intc h_bnk h_eng h_plc
      | refine Keeps.ite (fun _ => ?_) (fun _ => ?_) | refine Keeps.foldl (fun _ _ _ => ?_) ?_
    | intro _ _ | dsimp only | split)

theorem loadTcm {pset : List Part} {z0 s : State} {n : Nat} {x : Pers} (h_mem : Part.mem ∈ pset) (hk : Keeps pset
    z0 s) :
    Keeps pset z0 (Machine.loadTcm s n x) := by
  unfold Machine.loadTcm
  split
  · exact hk
  · exact Keeps.memory h_mem
      (fun w => memPut_wf _ _ _ (memPut_wf _ _ _ (sclear_wf _ _ _ (fun _ => true) w))) hk

theorem releaseEngine {pset : List Part} {z0 : State} {s : State} {n : Nat} {pc : Nat} {v : Nat} (h_regs :
    Part.regs ∈ pset) (h_eng : Part.eng ∈ pset) (h_cores : Part.cores ∈ pset) (hk : Keeps pset z0 s) : Keeps pset z0
    (Machine.releaseEngine s n pc v) := by
  unfold Machine.releaseEngine
  repeat' (first
    | with_reducible first
      | assumption | apply K.putB h_regs | apply K.coreStart h_cores | apply K.engKick h_eng
    | dsimp only | split)

theorem takeoverComplete {pset : List Part} {z0 : State} {s : State} {n : Nat} (h_regs : Part.regs ∈ pset) (h_mem
    : Part.mem ∈ pset) (h_outs : Part.outs ∈ pset) (h_intc : Part.intc ∈ pset) (h_eng : Part.eng ∈ pset) (h_cores :
    Part.cores ∈ pset) (hk : Keeps pset z0 s) : Keeps pset z0 (Machine.takeoverComplete s n) := by
  unfold Machine.takeoverComplete
  repeat' (first
    | with_reducible first
      | assumption | apply K.putB h_regs | apply K.raiseIrq h_regs h_outs h_intc | apply K.engMod h_eng
      | apply K.loadTcm h_mem | apply K.releaseEngine h_regs h_eng h_cores
      | refine Keeps.ite (fun _ => ?_) (fun _ => ?_)
    | intro _ _ | dsimp only | split)

theorem qhTxHead {pset : List Part} {z0 : State} {s : State} {n : Nat} {k : Nat} {v : Word} (h_regs : Part.regs ∈
    pset) (hk : Keeps pset z0 s) : Keeps pset z0 (Machine.qhTxHead s n k v) := by
  unfold Machine.qhTxHead
  repeat' (first
    | with_reducible first
      | assumption | apply K.putF h_regs | refine Keeps.ite (fun _ => ?_) (fun _ => ?_)
    | dsimp only | split)

theorem qhRxTail {pset : List Part} {z0 : State} {s : State} {n : Nat} {k : Nat} {v : Word} (h_regs : Part.regs ∈
    pset) (hk : Keeps pset z0 s) : Keeps pset z0 (Machine.qhRxTail s n k v) := by
  unfold Machine.qhRxTail
  repeat' (first
    | with_reducible first
      | assumption | apply K.putF h_regs | refine Keeps.ite (fun _ => ?_) (fun _ => ?_)
    | dsimp only | split)

theorem crcData {pset : List Part} {z0 : State} {s : State} {n : Nat} {sz : AccSize} {v : Word} (h_regs :
    Part.regs ∈ pset) (hk : Keeps pset z0 s) : Keeps pset z0 (Machine.crcData s n sz v) := by
  unfold Machine.crcData
  repeat' (first
    | with_reducible first
      | assumption | apply K.crcAbsorb h_regs
    | dsimp only | split)

end Sys2Proof.Laws.K
end

