-- ==== Sys2Proof/Laws/KeepsPlacement.lean ====
section
/-! SUPPORT. What the operations of `Machine/Placement.lean` keep. -/

namespace Sys2Proof.Laws.K

open Sys2Proof Sys2Proof.Machine Sys2Proof.Laws

theorem plcEnd {pset : List Part} {z0 : State} {s : State} {st : Nat} (h_regs : Part.regs ∈ pset) (h_outs :
    Part.outs ∈ pset) (h_intc : Part.intc ∈ pset) (hk : Keeps pset z0 s) : Keeps pset z0 (Machine.plcEnd s st) := by
  unfold Machine.plcEnd
  repeat' (first
    | with_reducible first
      | assumption | apply K.setR h_regs | apply K.raiseIrq h_regs h_outs h_intc)

theorem persStore {pset : List Part} {z0 : State} {s : State} {slot : Nat} {b : List Byte} (h_plc : Part.plc ∈
    pset) (hk : Keeps pset z0 s) : Keeps pset z0 (Machine.persStore s slot b) := by
  unfold Machine.persStore
  repeat' (first
    | with_reducible first
      | assumption
    | dsimp only | simp only [Keeps.lit_plc h_plc])

theorem plcLoadPers {pset : List Part} {z0 : State} {slot : Nat} {sigOk : Bool} {s : State} (h_regs : Part.regs ∈
    pset) (h_outs : Part.outs ∈ pset) (h_intc : Part.intc ∈ pset) (h_plc : Part.plc ∈ pset) (hk : Keeps pset z0 s) :
    Keeps pset z0 (Machine.plcLoadPers slot sigOk s) := by
  unfold Machine.plcLoadPers
  repeat' (first
    | with_reducible first
      | assumption | apply K.fabRead h_regs h_outs h_intc | apply K.plcEnd h_regs h_outs h_intc
      | apply K.persStore h_plc | refine Keeps.ite (fun _ => ?_) (fun _ => ?_)
    | dsimp only | split)

theorem plcUnload {pset : List Part} {z0 : State} {slot : Nat} {s : State} (h_regs : Part.regs ∈ pset) (h_outs :
    Part.outs ∈ pset) (h_intc : Part.intc ∈ pset) (h_plc : Part.plc ∈ pset) (hk : Keeps pset z0 s) : Keeps pset z0
    (Machine.plcUnload slot s) := by
  unfold Machine.plcUnload
  repeat' (first
    | with_reducible first
      | assumption | apply K.plcEnd h_regs h_outs h_intc | refine Keeps.ite (fun _ => ?_) (fun _ => ?_)
    | dsimp only | split | simp only [Keeps.lit_plc h_plc])

theorem stepPut {pset : List Part} {z0 : State} {c : Nat} {v : Nat} {s : State} (h_regs : Part.regs ∈ pset) (hk :
    Keeps pset z0 s) : Keeps pset z0 (Machine.stepPut c v s) := by
  unfold Machine.stepPut
  repeat' (first
    | with_reducible first
      | assumption | apply K.putF h_regs | apply K.putB h_regs
    | dsimp only)

theorem stepWrite {pset : List Part} {z0 : State} {c : Nat} {v : Nat} {s : State} (h_regs : Part.regs ∈ pset)
    (h_cnts : Part.cnts ∈ pset) (h_outs : Part.outs ∈ pset) (h_intc : Part.intc ∈ pset) (hk : Keeps pset z0 s) : Keeps
    pset z0 (Machine.stepWrite c v s) := by
  unfold Machine.stepWrite
  repeat' (first
    | with_reducible first
      | assumption | apply K.bump h_cnts | apply K.raiseIrq h_regs h_outs h_intc | apply K.stepPut h_regs
      | refine Keeps.ite (fun _ => ?_) (fun _ => ?_)
    | split)

theorem stepApply {pset : List Part} {z0 : State} {c : Nat} {s : State} (h_regs : Part.regs ∈ pset) (h_cnts :
    Part.cnts ∈ pset) (h_outs : Part.outs ∈ pset) (h_intc : Part.intc ∈ pset) (hk : Keeps pset z0 s) : Keeps pset z0
    (Machine.stepApply c s) := by
  unfold Machine.stepApply
  repeat' (first
    | with_reducible first
      | assumption | apply K.putF h_regs | apply K.putB h_regs | apply K.bump h_cnts
      | apply K.raiseIrq h_regs h_outs h_intc | apply K.stepPut h_regs | refine Keeps.ite (fun _ => ?_) (fun _ => ?_)
    | dsimp only | split)

theorem stepRestore {pset : List Part} {z0 : State} {c : Nat} {s : State} (h_regs : Part.regs ∈ pset) (h_cnts :
    Part.cnts ∈ pset) (h_outs : Part.outs ∈ pset) (h_intc : Part.intc ∈ pset) (hk : Keeps pset z0 s) : Keeps pset z0
    (Machine.stepRestore c s) := by
  unfold Machine.stepRestore
  repeat' (first
    | with_reducible first
      | assumption | apply K.stepPut h_regs | apply K.stepApply h_regs h_cnts h_outs h_intc)

theorem engLoad {pset : List Part} {z0 : State} {s : State} {n : Nat} {k : Nat} (h_regs : Part.regs ∈ pset) (h_mem
    : Part.mem ∈ pset) (h_eng : Part.eng ∈ pset) (h_cores : Part.cores ∈ pset) (hk : Keeps pset z0 s) : Keeps pset z0
    (Machine.engLoad s n k) := by
  unfold Machine.engLoad
  repeat' (first
    | with_reducible first
      | assumption | apply K.putB h_regs | apply K.engMod h_eng | apply K.coreStop h_cores | apply K.loadTcm h_mem
      | apply K.releaseEngine h_regs h_eng h_cores
    | intro _ _ | dsimp only | split)

theorem serveSlot {pset : List Part} {z0 : State} {s : State} {c : Nat} {n : Nat} {k : Nat} (h_regs : Part.regs ∈
    pset) (h_mem : Part.mem ∈ pset) (h_eng : Part.eng ∈ pset) (h_plc : Part.plc ∈ pset) (h_cores : Part.cores ∈ pset)
    (hk : Keeps pset z0 s) : Keeps pset z0 (Machine.serveSlot s c n k) := by
  unfold Machine.serveSlot
  repeat' (first
    | with_reducible first
      | assumption | apply K.raiseEvent h_regs | apply K.qhSet h_eng | apply K.engLoad h_regs h_mem h_eng h_cores
      | refine Keeps.ite (fun _ => ?_) (fun _ => ?_)
    | intro _ _ | dsimp only | split | simp only [Keeps.lit_plc h_plc])

theorem serveOn {pset : List Part} {z0 : State} {s : State} {c : Nat} {n : Nat} {k : Nat} (h_regs : Part.regs ∈
    pset) (h_cnts : Part.cnts ∈ pset) (h_mem : Part.mem ∈ pset) (h_outs : Part.outs ∈ pset) (h_intc : Part.intc ∈
    pset) (h_eng : Part.eng ∈ pset) (h_plc : Part.plc ∈ pset) (h_cores : Part.cores ∈ pset) (hk : Keeps pset z0 s) :
    Keeps pset z0 (Machine.serveOn s c n k) := by
  unfold Machine.serveOn
  repeat' (first
    | with_reducible first
      | assumption | apply K.stepRestore h_regs h_cnts h_outs h_intc
      | apply K.serveSlot h_regs h_mem h_eng h_plc h_cores | refine Keeps.ite (fun _ => ?_) (fun _ => ?_)
    | dsimp only | split)

theorem unserve {pset : List Part} {z0 : State} {s : State} {c : Nat} (h_regs : Part.regs ∈ pset) (h_eng :
    Part.eng ∈ pset) (h_plc : Part.plc ∈ pset) (hk : Keeps pset z0 s) : Keeps pset z0 (Machine.unserve s c) := by
  unfold Machine.unserve
  repeat' (first
    | with_reducible first
      | assumption | apply K.raiseEvent h_regs | apply K.qhSet h_eng
    | dsimp only | split | simp only [Keeps.lit_plc h_plc])

theorem bindTake {pset : List Part} {z0 : State} {t : State} {c : Nat} {w : Word} (h_regs : Part.regs ∈ pset)
    (h_eng : Part.eng ∈ pset) (h_plc : Part.plc ∈ pset) (hk : Keeps pset z0 t) : Keeps pset z0 (Machine.bindTake t c
    w) := by
  unfold Machine.bindTake
  repeat' (first
    | with_reducible first
      | assumption | apply K.unserve h_regs h_eng h_plc | refine Keeps.ite (fun _ => ?_) (fun _ => ?_)
    | dsimp only | split | simp only [Keeps.lit_plc h_plc])

theorem bindApply {pset : List Part} {z0 : State} {s : State} (h_regs : Part.regs ∈ pset) (h_eng : Part.eng ∈
    pset) (h_plc : Part.plc ∈ pset) (hk : Keeps pset z0 s) : Keeps pset z0 (Machine.bindApply s) := by
  unfold Machine.bindApply
  repeat' (first
    | with_reducible first
      | assumption | apply K.bindTake h_regs h_eng h_plc | refine Keeps.foldl (fun _ _ _ => ?_) ?_
      | refine Keeps.foldlFst (fun _ _ _ => ?_) ?_
    | intro _ _ | dsimp only)

theorem placeMissing {pset : List Part} {z0 : State} {s : State} (h_regs : Part.regs ∈ pset) (h_cnts : Part.cnts ∈
    pset) (h_mem : Part.mem ∈ pset) (h_outs : Part.outs ∈ pset) (h_intc : Part.intc ∈ pset) (h_eng : Part.eng ∈ pset)
    (h_plc : Part.plc ∈ pset) (h_cores : Part.cores ∈ pset) (hk : Keeps pset z0 s) : Keeps pset z0
    (Machine.placeMissing s) := by
  unfold Machine.placeMissing
  repeat' (first
    | with_reducible first
      | assumption | apply K.serveOn h_regs h_cnts h_mem h_outs h_intc h_eng h_plc h_cores
      | refine Keeps.foldl (fun _ _ _ => ?_) ?_ | refine Keeps.foldlFst (fun _ _ _ => ?_) ?_
    | intro _ _ | dsimp only | split | simp only [Keeps.lit_plc h_plc])

theorem migRequest {pset : List Part} {z0 : State} {s : State} {c : Nat} {n : Nat} (h_regs : Part.regs ∈ pset)
    (h_cnts : Part.cnts ∈ pset) (h_outs : Part.outs ∈ pset) (h_intc : Part.intc ∈ pset) (h_plc : Part.plc ∈ pset) (hk
    : Keeps pset z0 s) : Keeps pset z0 (Machine.migRequest s c n) := by
  unfold Machine.migRequest
  repeat' (first
    | with_reducible first
      | assumption | apply K.stepRestore h_regs h_cnts h_outs h_intc | refine Keeps.ite (fun _ => ?_) (fun _ => ?_)
    | dsimp only | split | simp only [Keeps.lit_plc h_plc])

theorem placeBalance {pset : List Part} {z0 : State} {s : State} (h_regs : Part.regs ∈ pset) (h_cnts : Part.cnts ∈
    pset) (h_free : Part.free ∈ pset) (h_mem : Part.mem ∈ pset) (h_outs : Part.outs ∈ pset) (h_intc : Part.intc ∈
    pset) (h_eng : Part.eng ∈ pset) (h_plc : Part.plc ∈ pset) (h_cores : Part.cores ∈ pset) (hk : Keeps pset z0 s) :
    Keeps pset z0 (Machine.placeBalance s) := by
  unfold Machine.placeBalance
  repeat' (first
    | with_reducible first
      | assumption | apply K.fresh h_free | apply K.engLoad h_regs h_mem h_eng h_cores
      | apply K.migRequest h_regs h_cnts h_outs h_intc h_plc | refine Keeps.ite (fun _ => ?_) (fun _ => ?_)
      | refine Keeps.foldl (fun _ _ _ => ?_) ?_ | refine Keeps.foldlFst (fun _ _ _ => ?_) ?_
    | intro _ _ | dsimp only | split)

theorem clusterIdle {pset : List Part} {z0 : State} {s : State} {i : Nat} (h_regs : Part.regs ∈ pset) (h_eng :
    Part.eng ∈ pset) (h_plc : Part.plc ∈ pset) (h_cores : Part.cores ∈ pset) (hk : Keeps pset z0 s) : Keeps pset z0
    (Machine.clusterIdle s i) := by
  unfold Machine.clusterIdle
  repeat' (first
    | with_reducible first
      | assumption | apply K.putB h_regs | apply K.engMod h_eng | apply K.coreStop h_cores
      | refine Keeps.ite (fun _ => ?_) (fun _ => ?_) | refine Keeps.foldl (fun _ _ _ => ?_) ?_
    | intro _ _ | dsimp only | split | simp only [Keeps.lit_plc h_plc])

theorem bankGive {pset : List Part} {z0 : State} {s : State} {b : Nat} {k : Nat} {e : Nat} (h_regs : Part.regs ∈
    pset) (h_mem : Part.mem ∈ pset) (h_outs : Part.outs ∈ pset) (h_intc : Part.intc ∈ pset) (h_sw : Part.sw ∈ pset)
    (h_bnk : Part.bnk ∈ pset) (hk : Keeps pset z0 s) : Keeps pset z0 (Machine.bankGive s b k e) := by
  unfold Machine.bankGive
  repeat' (first
    | with_reducible first
      | assumption | apply K.bankCtrl h_regs h_mem h_outs h_intc h_sw h_bnk)

theorem scratchGrow {pset : List Part} {z0 : State} {s : State} {n : Nat} {want : Nat} {fuel : Nat} (h_regs :
    Part.regs ∈ pset) (h_mem : Part.mem ∈ pset) (h_outs : Part.outs ∈ pset) (h_intc : Part.intc ∈ pset) (h_sw :
    Part.sw ∈ pset) (h_bnk : Part.bnk ∈ pset) (hk : Keeps pset z0 s) : Keeps pset z0 (Machine.scratchGrow s n want
    fuel) := by
  induction fuel generalizing s n want with
  | zero =>
    unfold Machine.scratchGrow
    repeat' (first
      | with_reducible first
        | assumption | apply K.bankGive h_regs h_mem h_outs h_intc h_sw h_bnk
        | refine Keeps.ite (fun _ => ?_) (fun _ => ?_)
      | dsimp only | split)
  | succ _ ih =>
    unfold Machine.scratchGrow
    repeat' (first
      | with_reducible first
        | assumption | apply ih | apply K.bankGive h_regs h_mem h_outs h_intc h_sw h_bnk
        | refine Keeps.ite (fun _ => ?_) (fun _ => ?_)
      | dsimp only | split)

theorem placeBanks {pset : List Part} {z0 : State} {s : State} (h_regs : Part.regs ∈ pset) (h_mem : Part.mem ∈
    pset) (h_outs : Part.outs ∈ pset) (h_intc : Part.intc ∈ pset) (h_sw : Part.sw ∈ pset) (h_bnk : Part.bnk ∈ pset)
    (hk : Keeps pset z0 s) : Keeps pset z0 (Machine.placeBanks s) := by
  unfold Machine.placeBanks
  repeat' (first
    | with_reducible first
      | assumption | apply K.bankGive h_regs h_mem h_outs h_intc h_sw h_bnk
      | apply K.scratchGrow h_regs h_mem h_outs h_intc h_sw h_bnk | refine Keeps.ite (fun _ => ?_) (fun _ => ?_)
      | refine Keeps.foldl (fun _ _ _ => ?_) ?_
    | intro _ _ | dsimp only | split)

theorem placeRecompute {pset : List Part} {z0 : State} {s : State} (h_regs : Part.regs ∈ pset) (h_cnts : Part.cnts
    ∈ pset) (h_free : Part.free ∈ pset) (h_mem : Part.mem ∈ pset) (h_outs : Part.outs ∈ pset) (h_intc : Part.intc ∈
    pset) (h_sw : Part.sw ∈ pset) (h_bnk : Part.bnk ∈ pset) (h_eng : Part.eng ∈ pset) (h_plc : Part.plc ∈ pset)
    (h_cores : Part.cores ∈ pset) (hk : Keeps pset z0 s) : Keeps pset z0 (Machine.placeRecompute s) := by
  unfold Machine.placeRecompute
  repeat' (first
    | with_reducible first
      | assumption | apply K.bindApply h_regs h_eng h_plc
      | apply K.placeMissing h_regs h_cnts h_mem h_outs h_intc h_eng h_plc h_cores
      | apply K.placeBalance h_regs h_cnts h_free h_mem h_outs h_intc h_eng h_plc h_cores
      | apply K.clusterIdle h_regs h_eng h_plc h_cores | apply K.placeBanks h_regs h_mem h_outs h_intc h_sw h_bnk
      | refine Keeps.ite (fun _ => ?_) (fun _ => ?_) | refine Keeps.foldl (fun _ _ _ => ?_) ?_
    | dsimp only | split)

theorem migSwitch {pset : List Part} {z0 : State} {s : State} {c : Nat} (h_regs : Part.regs ∈ pset) (h_eng :
    Part.eng ∈ pset) (h_plc : Part.plc ∈ pset) (hk : Keeps pset z0 s) : Keeps pset z0 (Machine.migSwitch s c) := by
  unfold Machine.migSwitch
  repeat' (first
    | with_reducible first
      | assumption | apply K.qhSet h_eng | apply K.slotChanged h_regs | refine Keeps.ite (fun _ => ?_) (fun _ => ?_)
    | intro _ _ | dsimp only | split | simp only [Keeps.lit_plc h_plc])

theorem migAbandon {pset : List Part} {z0 : State} {s : State} {c : Nat} (h_regs : Part.regs ∈ pset) (h_cnts :
    Part.cnts ∈ pset) (h_outs : Part.outs ∈ pset) (h_intc : Part.intc ∈ pset) (h_sys : Part.sys ∈ pset) (h_time :
    Part.time ∈ pset) (h_plc : Part.plc ∈ pset) (h_pwr : Part.pwr ∈ pset) (hk : Keeps pset z0 s) : Keeps pset z0
    (Machine.migAbandon s c) := by
  unfold Machine.migAbandon
  repeat' (first
    | with_reducible first
      | assumption | apply K.bump h_cnts | apply K.raiseIrq h_regs h_outs h_intc
      | apply K.advanceNs h_cnts h_sys h_time h_pwr | refine Keeps.ite (fun _ => ?_) (fun _ => ?_)
    | dsimp only | split | simp only [Keeps.lit_plc h_plc])

theorem plcPostJob {pset : List Part} {z0 : State} {n : Nat} {cls2 : Bool} {s : State} (h_regs : Part.regs ∈ pset)
    (h_mem : Part.mem ∈ pset) (h_outs : Part.outs ∈ pset) (h_intc : Part.intc ∈ pset) (h_eng : Part.eng ∈ pset) (h_plc
    : Part.plc ∈ pset) (hk : Keeps pset z0 s) : Keeps pset z0 (Machine.plcPostJob n cls2 s) := by
  unfold Machine.plcPostJob
  repeat' (first
    | with_reducible first
      | assumption | apply K.setR h_regs | apply K.wrLE h_mem | apply K.engMod h_eng
      | apply K.plcEnd h_regs h_outs h_intc | refine Keeps.ite (fun _ => ?_) (fun _ => ?_)
    | intro _ _ | dsimp only | split | simp only [Keeps.lit_plc h_plc])

theorem plcDeclareDead {pset : List Part} {z0 : State} {m : Master} {n : Nat} {s : State} (h_regs : Part.regs ∈
    pset) (h_outs : Part.outs ∈ pset) (h_intc : Part.intc ∈ pset) (h_eng : Part.eng ∈ pset) (hk : Keeps pset z0 s) :
    Keeps pset z0 (Machine.plcDeclareDead m n s) := by
  unfold Machine.plcDeclareDead
  repeat' (first
    | with_reducible first
      | assumption | apply K.deny h_regs h_outs h_intc | apply K.declareDead h_regs h_outs h_intc h_eng
      | apply K.plcEnd h_regs h_outs h_intc | refine Keeps.ite (fun _ => ?_) (fun _ => ?_)
    | split)

theorem plcCmd {pset : List Part} {z0 : State} {m : Master} {v : Word} {sigOk : Bool} {s : State} (h_regs :
    Part.regs ∈ pset) (h_cnts : Part.cnts ∈ pset) (h_free : Part.free ∈ pset) (h_mem : Part.mem ∈ pset) (h_outs :
    Part.outs ∈ pset) (h_intc : Part.intc ∈ pset) (h_sw : Part.sw ∈ pset) (h_bnk : Part.bnk ∈ pset) (h_eng : Part.eng
    ∈ pset) (h_plc : Part.plc ∈ pset) (h_cores : Part.cores ∈ pset) (hk : Keeps pset z0 s) : Keeps pset z0
    (Machine.plcCmd m v sigOk s) := by
  unfold Machine.plcCmd
  repeat' (first
    | with_reducible first
      | assumption | apply K.plcEnd h_regs h_outs h_intc | apply K.plcLoadPers h_regs h_outs h_intc h_plc
      | apply K.plcUnload h_regs h_outs h_intc h_plc
      | apply K.placeRecompute h_regs h_cnts h_free h_mem h_outs h_intc h_sw h_bnk h_eng h_plc h_cores
      | apply K.plcPostJob h_regs h_mem h_outs h_intc h_eng h_plc | apply K.plcDeclareDead h_regs h_outs h_intc h_eng
    | dsimp only | split)

theorem bindWrite {pset : List Part} {z0 : State} {m : Master} {c : Nat} {v : Word} {s : State} (h_regs :
    Part.regs ∈ pset) (h_cnts : Part.cnts ∈ pset) (h_outs : Part.outs ∈ pset) (h_intc : Part.intc ∈ pset) (h_plc :
    Part.plc ∈ pset) (hk : Keeps pset z0 s) : Keeps pset z0 (Machine.bindWrite m c v s) := by
  unfold Machine.bindWrite
  repeat' (first
    | with_reducible first
      | assumption | apply K.bump h_cnts | apply K.raiseIrq h_regs h_outs h_intc
      | apply K.plainWrite h_regs h_outs h_intc | refine Keeps.ite (fun _ => ?_) (fun _ => ?_)
    | dsimp only | split | simp only [Keeps.lit_plc h_plc])

end Sys2Proof.Laws.K
end

