-- ==== Sys2Proof/Laws/KeepsPairs.lean ====
section
/-! SUPPORT. What the operations of `Machine/Pairs.lean` keep. -/

namespace Sys2Proof.Laws.K

open Sys2Proof Sys2Proof.Machine Sys2Proof.Laws

theorem pairMod {pset : List Part} {z0 : State} {s : State} {k : Nat} {f : PairSt → PairSt} (h_eth : Part.eth ∈
    pset) (hk : Keeps pset z0 s) : Keeps pset z0 (Machine.pairMod s k f) := by
  unfold Machine.pairMod
  repeat' (first
    | with_reducible first
      | assumption
    | dsimp only | simp only [Keeps.lit_eth h_eth])

theorem updPairLine {pset : List Part} {z0 : State} {s : State} {k : Nat} (h_regs : Part.regs ∈ pset) (h_outs :
    Part.outs ∈ pset) (h_intc : Part.intc ∈ pset) (hk : Keeps pset z0 s) : Keeps pset z0 (Machine.updPairLine s k) :=
    by
  unfold Machine.updPairLine
  repeat' (first
    | with_reducible first
      | assumption | apply K.setLine h_regs h_outs h_intc
    | intro _ _)

theorem updPairOf {pset : List Part} {z0 : State} {s : State} {p : Nat} (h_regs : Part.regs ∈ pset) (h_outs :
    Part.outs ∈ pset) (h_intc : Part.intc ∈ pset) (hk : Keeps pset z0 s) : Keeps pset z0 (Machine.updPairOf s p) := by
  unfold Machine.updPairOf
  repeat' (first
    | with_reducible first
      | assumption | apply K.updPairLine h_regs h_outs h_intc)

theorem raisePairIrq {pset : List Part} {z0 : State} {s : State} {a : Nat} {i : Nat} (h_regs : Part.regs ∈ pset)
    (h_outs : Part.outs ∈ pset) (h_intc : Part.intc ∈ pset) (hk : Keeps pset z0 s) : Keeps pset z0
    (Machine.raisePairIrq s a i) := by
  unfold Machine.raisePairIrq
  repeat' (first
    | with_reducible first
      | assumption | apply K.putB h_regs | apply K.updPairOf h_regs h_outs h_intc)

theorem pairCount {pset : List Part} {z0 : State} {s : State} {a : Nat} {k : Nat} (h_cnts : Part.cnts ∈ pset) (hk
    : Keeps pset z0 s) : Keeps pset z0 (Machine.pairCount s a k) := by
  unfold Machine.pairCount
  repeat' (first
    | with_reducible first
      | assumption | apply K.bump h_cnts)

theorem pairSettle {pset : List Part} {z0 : State} {s : State} {k : Nat} (h_regs : Part.regs ∈ pset) (h_outs :
    Part.outs ∈ pset) (h_intc : Part.intc ∈ pset) (h_eth : Part.eth ∈ pset) (hk : Keeps pset z0 s) : Keeps pset z0
    (Machine.pairSettle s k) := by
  unfold Machine.pairSettle
  repeat' (first
    | with_reducible first
      | assumption | apply K.putB h_regs | apply K.pairMod h_eth | apply K.raisePairIrq h_regs h_outs h_intc
      | refine Keeps.ite (fun _ => ?_) (fun _ => ?_)
    | intro _ _ | dsimp only | split | refine Keeps.ofFst (by with_reducible assumption) ?_
    | refine Keeps.ofSnd (by with_reducible assumption) ?_)

theorem pairMismatch {pset : List Part} {z0 : State} {s : State} {p : Nat} (h_regs : Part.regs ∈ pset) (h_outs :
    Part.outs ∈ pset) (h_intc : Part.intc ∈ pset) (hk : Keeps pset z0 s) : Keeps pset z0 (Machine.pairMismatch s p) :=
    by
  unfold Machine.pairMismatch
  repeat' (first
    | with_reducible first
      | assumption | apply K.putB h_regs | apply K.raisePairIrq h_regs h_outs h_intc
      | refine Keeps.ite (fun _ => ?_) (fun _ => ?_)
    | dsimp only | split)

theorem redSettle {pset : List Part} {z0 : State} {s : State} (h_regs : Part.regs ∈ pset) (h_outs : Part.outs ∈
    pset) (h_intc : Part.intc ∈ pset) (h_eth : Part.eth ∈ pset) (hk : Keeps pset z0 s) : Keeps pset z0
    (Machine.redSettle s) := by
  unfold Machine.redSettle
  repeat' (first
    | with_reducible first
      | assumption | apply K.updPairLine h_regs h_outs h_intc | apply K.pairSettle h_regs h_outs h_intc h_eth
      | apply K.pairMismatch h_regs h_outs h_intc | refine Keeps.foldl (fun _ _ _ => ?_) ?_
    | dsimp only | split)

theorem redCtrl {pset : List Part} {z0 : State} {m : Master} {p : Nat} {v : Word} {s : State} (h_regs : Part.regs
    ∈ pset) (h_outs : Part.outs ∈ pset) (h_intc : Part.intc ∈ pset) (h_eth : Part.eth ∈ pset) (hk : Keeps pset z0 s) :
    Keeps pset z0 (Machine.redCtrl m p v s) := by
  unfold Machine.redCtrl
  repeat' (first
    | with_reducible first
      | assumption | apply K.putB h_regs | apply K.plainWrite h_regs h_outs h_intc | apply K.pairMod h_eth
      | apply K.raisePairIrq h_regs h_outs h_intc | apply K.redSettle h_regs h_outs h_intc h_eth
    | intro _ _ | dsimp only | split | refine Keeps.ofFst (by with_reducible assumption) ?_
    | refine Keeps.ofSnd (by with_reducible assumption) ?_)

theorem dupAdd {pset : List Part} {z0 : State} {s : State} {k : Nat} {a : Nat} {sa : Nat} {seq : Nat} (h_regs :
    Part.regs ∈ pset) (h_cnts : Part.cnts ∈ pset) (h_outs : Part.outs ∈ pset) (h_intc : Part.intc ∈ pset) (h_eth :
    Part.eth ∈ pset) (hk : Keeps pset z0 s) : Keeps pset z0 (Machine.dupAdd s k a sa seq) := by
  unfold Machine.dupAdd
  repeat' (first
    | with_reducible first
      | assumption | apply K.pairMod h_eth | apply K.raisePairIrq h_regs h_outs h_intc | apply K.pairCount h_cnts
      | refine Keeps.ite (fun _ => ?_) (fun _ => ?_)
    | intro _ _ | dsimp only | split)

theorem dupSent {pset : List Part} {z0 : State} {s : State} {k : Nat} {sa : Nat} {seq : Nat} {toB : Bool} (h_eth :
    Part.eth ∈ pset) (hk : Keeps pset z0 s) : Keeps pset z0 (Machine.dupSent s k sa seq toB) := by
  unfold Machine.dupSent
  repeat' (first
    | with_reducible first
      | assumption | apply K.pairMod h_eth | refine Keeps.ite (fun _ => ?_) (fun _ => ?_)
    | intro _ _ | dsimp only | split)

theorem dupExpire {pset : List Part} {z0 : State} {k : Nat} {s : State} (h_cnts : Part.cnts ∈ pset) (h_sys :
    Part.sys ∈ pset) (h_eth : Part.eth ∈ pset) (h_time : Part.time ∈ pset) (h_pwr : Part.pwr ∈ pset) (hk : Keeps pset
    z0 s) : Keeps pset z0 (Machine.dupExpire k s) := by
  unfold Machine.dupExpire
  repeat' (first
    | with_reducible first
      | assumption | apply K.advanceNs h_cnts h_sys h_time h_pwr | apply K.pairMod h_eth
    | intro _ _ | dsimp only | split | refine Keeps.ofFst (by with_reducible assumption) ?_
    | refine Keeps.ofSnd (by with_reducible assumption) ?_)

theorem txSeq {pset : List Part} {z0 : State} {s : State} {p : Nat} {fid : Nat} {f : Frame} (h_mem : Part.mem ∈
    pset) (h_sw : Part.sw ∈ pset) (h_eth : Part.eth ∈ pset) (h_bnk : Part.bnk ∈ pset) (hk : Keeps pset z0 s) : Keeps
    pset z0 (Machine.txSeq s p fid f).1 := by
  unfold Machine.txSeq
  repeat' (first
    | with_reducible first
      | assumption | apply K.frameMod h_mem h_sw h_bnk | apply K.pairMod h_eth
      | refine Keeps.ite (fun _ => ?_) (fun _ => ?_) | refine Keeps.iteFst (fun _ => ?_) (fun _ => ?_)
    | intro _ _ | dsimp only | split | refine Keeps.ofFst (by with_reducible assumption) ?_
    | refine Keeps.ofSnd (by with_reducible assumption) ?_)

end Sys2Proof.Laws.K
end

