-- ==== Sys2Proof/Laws/KeepsPtp.lean ====
section
/-! SUPPORT. What the operations of `Machine/Ptp.lean` keep. -/

namespace Sys2Proof.Laws.K

open Sys2Proof Sys2Proof.Machine Sys2Proof.Laws

theorem stampNs {pset : List Part} {z0 : State} {s : State} {ps : Int} (h_free : Part.free ∈ pset) (hk : Keeps
    pset z0 s) : Keeps pset z0 (Machine.stampNs s ps).1 := by
  unfold Machine.stampNs
  repeat' (first
    | with_reducible first
      | assumption | apply K.fresh h_free | refine Keeps.ite (fun _ => ?_) (fun _ => ?_)
      | refine Keeps.iteFst (fun _ => ?_) (fun _ => ?_)
    | dsimp only | split)

theorem rxStamp {pset : List Part} {z0 : State} {s : State} {p : Nat} (h_free : Part.free ∈ pset) (hk : Keeps pset
    z0 s) : Keeps pset z0 (Machine.rxStamp s p).1 := by
  unfold Machine.rxStamp
  repeat' (first
    | with_reducible first
      | assumption | apply K.stampNs h_free
    | dsimp only)

theorem txStamp {pset : List Part} {z0 : State} {s : State} {p : Nat} {ph : Nat} (h_free : Part.free ∈ pset) (hk :
    Keeps pset z0 s) : Keeps pset z0 (Machine.txStamp s p ph).1 := by
  unfold Machine.txStamp
  repeat' (first
    | with_reducible first
      | assumption | apply K.stampNs h_free
    | dsimp only)

theorem ptpReceive {pset : List Part} {z0 : State} {s : State} {p : Nat} {b : List Byte} {t : DWord} (h_regs :
    Part.regs ∈ pset) (h_cnts : Part.cnts ∈ pset) (h_mem : Part.mem ∈ pset) (h_outs : Part.outs ∈ pset) (h_intc :
    Part.intc ∈ pset) (h_bnk : Part.bnk ∈ pset) (h_time : Part.time ∈ pset) (hk : Keeps pset z0 s) : Keeps pset z0
    (Machine.ptpReceive s p b t) := by
  unfold Machine.ptpReceive
  repeat' (first
    | with_reducible first
      | assumption | apply K.bump h_cnts | apply K.tsrPush h_regs h_mem h_outs h_intc h_bnk h_time
      | refine Keeps.ite (fun _ => ?_) (fun _ => ?_)
    | dsimp only | split)

theorem ptpTransmit {pset : List Part} {z0 : State} {s : State} {p : Nat} {src : Nat} {rxTime : Word} {b : List
    Byte} {ph : Nat} (h_cnts : Part.cnts ∈ pset) (h_free : Part.free ∈ pset) (hk : Keeps pset z0 s) : Keeps pset z0
    (Machine.ptpTransmit s p src rxTime b ph).1 := by
  unfold Machine.ptpTransmit
  repeat' (first
    | with_reducible first
      | assumption | apply K.bump h_cnts | apply K.txStamp h_free | refine Keeps.ite (fun _ => ?_) (fun _ => ?_)
      | refine Keeps.iteFst (fun _ => ?_) (fun _ => ?_)
    | dsimp only | split)

theorem ptpSent {pset : List Part} {z0 : State} {s : State} {rec_ : List Byte} (h_regs : Part.regs ∈ pset) (h_cnts
    : Part.cnts ∈ pset) (h_mem : Part.mem ∈ pset) (h_outs : Part.outs ∈ pset) (h_intc : Part.intc ∈ pset) (h_bnk :
    Part.bnk ∈ pset) (h_time : Part.time ∈ pset) (hk : Keeps pset z0 s) : Keeps pset z0 (Machine.ptpSent s rec_) := by
  unfold Machine.ptpSent
  repeat' (first
    | with_reducible first
      | assumption | apply K.bump h_cnts | apply K.tsrPush h_regs h_mem h_outs h_intc h_bnk h_time
      | refine Keeps.ite (fun _ => ?_) (fun _ => ?_)
    | split)

end Sys2Proof.Laws.K
end

