-- ==== Sys2Proof/Laws/KeepsMac.lean ====
section
/-! SUPPORT. What the operations of `Machine/Mac.lean` keep. -/

namespace Sys2Proof.Laws.K

open Sys2Proof Sys2Proof.Machine Sys2Proof.Laws

theorem macMod {pset : List Part} {z0 : State} {s : State} {p : Nat} {f : MacSt → MacSt} (h_eth : Part.eth ∈ pset)
    (hk : Keeps pset z0 s) : Keeps pset z0 (Machine.macMod s p f) := by
  unfold Machine.macMod
  repeat' (first
    | with_reducible first
      | assumption
    | dsimp only | simp only [Keeps.lit_eth h_eth])

theorem macCount {pset : List Part} {z0 : State} {s : State} {p : Nat} {k : Nat} {n : Nat} (h_cnts : Part.cnts ∈
    pset) (hk : Keeps pset z0 s) : Keeps pset z0 (Machine.macCount s p k n) := by
  unfold Machine.macCount
  repeat' (first
    | with_reducible first
      | assumption | apply K.bumpN h_cnts)

theorem putLink {pset : List Part} {z0 : State} {s : State} {p : Nat} {up : Bool} (h_regs : Part.regs ∈ pset)
    (h_outs : Part.outs ∈ pset) (h_intc : Part.intc ∈ pset) (hk : Keeps pset z0 s) : Keeps pset z0 (Machine.putLink s
    p up) := by
  unfold Machine.putLink
  repeat' (first
    | with_reducible first
      | assumption | apply K.putB h_regs | apply K.raiseIrq h_regs h_outs h_intc
      | refine Keeps.ite (fun _ => ?_) (fun _ => ?_)
    | split)

theorem verifyPut {pset : List Part} {z0 : State} {s : State} {p : Nat} {v : Nat} (h_regs : Part.regs ∈ pset)
    (h_outs : Part.outs ∈ pset) (h_intc : Part.intc ∈ pset) (hk : Keeps pset z0 s) : Keeps pset z0 (Machine.verifyPut
    s p v) := by
  unfold Machine.verifyPut
  repeat' (first
    | with_reducible first
      | assumption | apply K.putF h_regs | apply K.raiseIrq h_regs h_outs h_intc
      | refine Keeps.ite (fun _ => ?_) (fun _ => ?_)
    | split)

theorem verifySettle {pset : List Part} {z0 : State} {s : State} {p : Nat} (h_regs : Part.regs ∈ pset) (h_outs :
    Part.outs ∈ pset) (h_intc : Part.intc ∈ pset) (hk : Keeps pset z0 s) : Keeps pset z0 (Machine.verifySettle s p) :=
    by
  unfold Machine.verifySettle
  repeat' (first
    | with_reducible first
      | assumption | apply K.verifyPut h_regs h_outs h_intc | refine Keeps.ite (fun _ => ?_) (fun _ => ?_)
    | split)

theorem preemptSync {pset : List Part} {z0 : State} {s : State} {p : Nat} (h_regs : Part.regs ∈ pset) (h_outs :
    Part.outs ∈ pset) (h_intc : Part.intc ∈ pset) (h_eth : Part.eth ∈ pset) (hk : Keeps pset z0 s) : Keeps pset z0
    (Machine.preemptSync s p) := by
  unfold Machine.preemptSync
  repeat' (first
    | with_reducible first
      | assumption | apply K.macMod h_eth | apply K.verifySettle h_regs h_outs h_intc
      | refine Keeps.ite (fun _ => ?_) (fun _ => ?_)
    | intro _ _ | dsimp only | split)

theorem preemptCtrl {pset : List Part} {z0 : State} {m : Master} {p : Nat} {v : Word} {s : State} (h_regs :
    Part.regs ∈ pset) (h_outs : Part.outs ∈ pset) (h_intc : Part.intc ∈ pset) (h_eth : Part.eth ∈ pset) (hk : Keeps
    pset z0 s) : Keeps pset z0 (Machine.preemptCtrl m p v s) := by
  unfold Machine.preemptCtrl
  repeat' (first
    | with_reducible first
      | assumption | apply K.plainWrite h_regs h_outs h_intc | apply K.verifyPut h_regs h_outs h_intc
      | apply K.verifySettle h_regs h_outs h_intc | apply K.preemptSync h_regs h_outs h_intc h_eth
      | refine Keeps.ite (fun _ => ?_) (fun _ => ?_)
    | dsimp only | split)

theorem putLpi {pset : List Part} {z0 : State} {s : State} {p : Nat} {v : Bool} (h_regs : Part.regs ∈ pset)
    (h_cnts : Part.cnts ∈ pset) (h_outs : Part.outs ∈ pset) (h_intc : Part.intc ∈ pset) (h_eth : Part.eth ∈ pset) (hk
    : Keeps pset z0 s) : Keeps pset z0 (Machine.putLpi s p v) := by
  unfold Machine.putLpi
  repeat' (first
    | with_reducible first
      | assumption | apply K.putB h_regs | apply K.raiseIrq h_regs h_outs h_intc | apply K.macMod h_eth
      | apply K.macCount h_cnts | refine Keeps.ite (fun _ => ?_) (fun _ => ?_)
    | intro _ _ | dsimp only | split)

theorem lpiOut {pset : List Part} {z0 : State} {s : State} {p : Nat} (h_regs : Part.regs ∈ pset) (h_cnts :
    Part.cnts ∈ pset) (h_outs : Part.outs ∈ pset) (h_intc : Part.intc ∈ pset) (h_eth : Part.eth ∈ pset) (hk : Keeps
    pset z0 s) : Keeps pset z0 (Machine.lpiOut s p) := by
  unfold Machine.lpiOut
  repeat' (first
    | with_reducible first
      | assumption | apply K.macMod h_eth | apply K.putLpi h_regs h_cnts h_outs h_intc h_eth
    | intro _ _ | dsimp only)

theorem lpiSettle {pset : List Part} {z0 : State} {s : State} {p : Nat} (h_regs : Part.regs ∈ pset) (h_cnts :
    Part.cnts ∈ pset) (h_outs : Part.outs ∈ pset) (h_intc : Part.intc ∈ pset) (h_eth : Part.eth ∈ pset) (hk : Keeps
    pset z0 s) : Keeps pset z0 (Machine.lpiSettle s p) := by
  unfold Machine.lpiSettle
  repeat' (first
    | with_reducible first
      | assumption | apply K.putLpi h_regs h_cnts h_outs h_intc h_eth
      | apply K.lpiOut h_regs h_cnts h_outs h_intc h_eth | refine Keeps.ite (fun _ => ?_) (fun _ => ?_)
    | dsimp only | split)

theorem laneBit {pset : List Part} {z0 : State} {s : State} {l : Nat} {i : Nat} {irq : Nat} {v : Bool} (h_regs :
    Part.regs ∈ pset) (h_outs : Part.outs ∈ pset) (h_intc : Part.intc ∈ pset) (hk : Keeps pset z0 s) : Keeps pset z0
    (Machine.laneBit s l i irq v) := by
  unfold Machine.laneBit
  repeat' (first
    | with_reducible first
      | assumption | apply K.putB h_regs | apply K.raiseIrq h_regs h_outs h_intc
      | refine Keeps.ite (fun _ => ?_) (fun _ => ?_)
    | split)

theorem linkSettle {pset : List Part} {z0 : State} {s : State} {p : Nat} (h_regs : Part.regs ∈ pset) (h_cnts :
    Part.cnts ∈ pset) (h_outs : Part.outs ∈ pset) (h_intc : Part.intc ∈ pset) (h_eth : Part.eth ∈ pset) (hk : Keeps
    pset z0 s) : Keeps pset z0 (Machine.linkSettle s p) := by
  unfold Machine.linkSettle
  repeat' (first
    | with_reducible first
      | assumption | apply K.verifySettle h_regs h_outs h_intc | apply K.lpiSettle h_regs h_cnts h_outs h_intc h_eth)

theorem portDown {pset : List Part} {z0 : State} {s : State} {p : Nat} (h_regs : Part.regs ∈ pset) (h_cnts :
    Part.cnts ∈ pset) (h_outs : Part.outs ∈ pset) (h_intc : Part.intc ∈ pset) (h_sw : Part.sw ∈ pset) (h_eth :
    Part.eth ∈ pset) (hk : Keeps pset z0 s) : Keeps pset z0 (Machine.portDown s p) := by
  unfold Machine.portDown
  repeat' (first
    | with_reducible first
      | assumption | apply K.putB h_regs | apply K.raiseIrq h_regs h_outs h_intc | apply K.shapeSettle h_sw
      | apply K.raisePairIrq h_regs h_outs h_intc | apply K.macCount h_cnts | apply K.putLink h_regs h_outs h_intc
      | apply K.linkSettle h_regs h_cnts h_outs h_intc h_eth | refine Keeps.ite (fun _ => ?_) (fun _ => ?_)
    | dsimp only | split | refine Keeps.ofFst (by with_reducible assumption) ?_
    | refine Keeps.ofSnd (by with_reducible assumption) ?_)

theorem linkUpAt {pset : List Part} {z0 : State} {p : Nat} {w : Nat} {s : State} (h_regs : Part.regs ∈ pset)
    (h_cnts : Part.cnts ∈ pset) (h_outs : Part.outs ∈ pset) (h_intc : Part.intc ∈ pset) (h_sw : Part.sw ∈ pset) (h_eth
    : Part.eth ∈ pset) (hk : Keeps pset z0 s) : Keeps pset z0 (Machine.linkUpAt p w s) := by
  unfold Machine.linkUpAt
  repeat' (first
    | with_reducible first
      | assumption | apply K.putF h_regs | apply K.putB h_regs | apply K.shapeSettle h_sw
      | apply K.putLink h_regs h_outs h_intc | apply K.laneBit h_regs h_outs h_intc
      | apply K.linkSettle h_regs h_cnts h_outs h_intc h_eth | refine Keeps.ite (fun _ => ?_) (fun _ => ?_)
    | dsimp only | split)

theorem laneLost {pset : List Part} {z0 : State} {l : Nat} {signal : Bool} {s : State} (h_regs : Part.regs ∈ pset)
    (h_cnts : Part.cnts ∈ pset) (h_outs : Part.outs ∈ pset) (h_intc : Part.intc ∈ pset) (h_sw : Part.sw ∈ pset) (h_eth
    : Part.eth ∈ pset) (hk : Keeps pset z0 s) : Keeps pset z0 (Machine.laneLost l signal s) := by
  unfold Machine.laneLost
  repeat' (first
    | with_reducible first
      | assumption | apply K.putF h_regs | apply K.putB h_regs | apply K.bump h_cnts
      | apply K.laneBit h_regs h_outs h_intc | apply K.portDown h_regs h_cnts h_outs h_intc h_sw h_eth
      | refine Keeps.ite (fun _ => ?_) (fun _ => ?_) | refine Keeps.foldl (fun _ _ _ => ?_) ?_
    | dsimp only | split)

theorem linkDownAt {pset : List Part} {z0 : State} {p : Nat} {half : Bool} {why : LaneLoss} {s : State} (h_regs :
    Part.regs ∈ pset) (h_cnts : Part.cnts ∈ pset) (h_outs : Part.outs ∈ pset) (h_intc : Part.intc ∈ pset) (h_sw :
    Part.sw ∈ pset) (h_eth : Part.eth ∈ pset) (hk : Keeps pset z0 s) : Keeps pset z0 (Machine.linkDownAt p half why s)
    := by
  unfold Machine.linkDownAt
  repeat' (first
    | with_reducible first
      | assumption | apply K.putB h_regs | apply K.raiseIrq h_regs h_outs h_intc
      | apply K.portDown h_regs h_cnts h_outs h_intc h_sw h_eth
      | apply K.laneLost h_regs h_cnts h_outs h_intc h_sw h_eth | refine Keeps.ite (fun _ => ?_) (fun _ => ?_)
    | dsimp only | split)

theorem codeErrs {pset : List Part} {z0 : State} {l : Nat} {n : Nat} {s : State} (h_cnts : Part.cnts ∈ pset) (hk :
    Keeps pset z0 s) : Keeps pset z0 (Machine.codeErrs l n s) := by
  unfold Machine.codeErrs
  repeat' (first
    | with_reducible first
      | assumption | apply K.bumpN h_cnts | refine Keeps.ite (fun _ => ?_) (fun _ => ?_)
    | split)

theorem prbsErrs {pset : List Part} {z0 : State} {l : Nat} {n : Nat} {s : State} (h_regs : Part.regs ∈ pset)
    (h_outs : Part.outs ∈ pset) (h_intc : Part.intc ∈ pset) (hk : Keeps pset z0 s) : Keeps pset z0 (Machine.prbsErrs l
    n s) := by
  unfold Machine.prbsErrs
  repeat' (first
    | with_reducible first
      | assumption | apply K.setR h_regs | apply K.raiseIrq h_regs h_outs h_intc
      | refine Keeps.ite (fun _ => ?_) (fun _ => ?_)
    | split)

theorem laneStart {pset : List Part} {z0 : State} {l : Nat} {s : State} (h_regs : Part.regs ∈ pset) (h_free :
    Part.free ∈ pset) (hk : Keeps pset z0 s) : Keeps pset z0 (Machine.laneStart l s) := by
  unfold Machine.laneStart
  repeat' (first
    | with_reducible first
      | assumption | apply K.setR h_regs | apply K.putF h_regs | apply K.fresh h_free
      | refine Keeps.ite (fun _ => ?_) (fun _ => ?_)
    | dsimp only | split)

theorem laneStop {pset : List Part} {z0 : State} {l : Nat} {s : State} (h_regs : Part.regs ∈ pset) (h_cnts :
    Part.cnts ∈ pset) (h_outs : Part.outs ∈ pset) (h_intc : Part.intc ∈ pset) (h_sw : Part.sw ∈ pset) (h_eth :
    Part.eth ∈ pset) (hk : Keeps pset z0 s) : Keeps pset z0 (Machine.laneStop l s) := by
  unfold Machine.laneStop
  repeat' (first
    | with_reducible first
      | assumption | apply K.setR h_regs | apply K.laneBit h_regs h_outs h_intc
      | apply K.portDown h_regs h_cnts h_outs h_intc h_sw h_eth | refine Keeps.foldl (fun _ _ _ => ?_) ?_
    | dsimp only)

theorem laneEn {pset : List Part} {z0 : State} {l : Nat} {v : Bool} {s : State} (h_regs : Part.regs ∈ pset)
    (h_cnts : Part.cnts ∈ pset) (h_free : Part.free ∈ pset) (h_outs : Part.outs ∈ pset) (h_intc : Part.intc ∈ pset)
    (h_sw : Part.sw ∈ pset) (h_eth : Part.eth ∈ pset) (hk : Keeps pset z0 s) : Keeps pset z0 (Machine.laneEn l v s) :=
    by
  unfold Machine.laneEn
  repeat' (first
    | with_reducible first
      | assumption | apply K.putB h_regs | apply K.laneStart h_regs h_free
      | apply K.laneStop h_regs h_cnts h_outs h_intc h_sw h_eth | refine Keeps.ite (fun _ => ?_) (fun _ => ?_)
    | split)

theorem macEnSettle {pset : List Part} {z0 : State} {p : Nat} {s : State} (h_regs : Part.regs ∈ pset) (h_cnts :
    Part.cnts ∈ pset) (h_outs : Part.outs ∈ pset) (h_intc : Part.intc ∈ pset) (h_eth : Part.eth ∈ pset) (hk : Keeps
    pset z0 s) : Keeps pset z0 (Machine.macEnSettle p s) := by
  unfold Machine.macEnSettle
  repeat' (first
    | with_reducible first
      | assumption | apply K.redSettle h_regs h_outs h_intc h_eth | apply K.preemptSync h_regs h_outs h_intc h_eth
      | apply K.linkSettle h_regs h_cnts h_outs h_intc h_eth)

theorem lineOut {pset : List Part} {z0 : State} {s : State} {p : Nat} {o : Out} (h_outs : Part.outs ∈ pset) (hk :
    Keeps pset z0 s) : Keeps pset z0 (Machine.lineOut s p o) := by
  unfold Machine.lineOut
  repeat' (first
    | with_reducible first
      | assumption | apply K.emit h_outs | refine Keeps.ite (fun _ => ?_) (fun _ => ?_)
    | split)

theorem anCtrl {pset : List Part} {z0 : State} {l : Nat} {v : Word} {s : State} (h_regs : Part.regs ∈ pset) (hk :
    Keeps pset z0 s) : Keeps pset z0 (Machine.anCtrl l v s) := by
  unfold Machine.anCtrl
  repeat' (first
    | with_reducible first
      | assumption | apply K.putB h_regs | refine Keeps.ite (fun _ => ?_) (fun _ => ?_)
    | dsimp only | split)

theorem putPaused {pset : List Part} {z0 : State} {s : State} {p : Nat} {q : Nat} (h_regs : Part.regs ∈ pset)
    (h_outs : Part.outs ∈ pset) (h_intc : Part.intc ∈ pset) (hk : Keeps pset z0 s) : Keeps pset z0 (Machine.putPaused
    s p q) := by
  unfold Machine.putPaused
  repeat' (first
    | with_reducible first
      | assumption | apply K.putF h_regs | apply K.putB h_regs | apply K.raiseIrq h_regs h_outs h_intc
      | refine Keeps.ite (fun _ => ?_) (fun _ => ?_)
    | dsimp only | split)

theorem pauseRx {pset : List Part} {z0 : State} {p : Nat} {da : Nat} {q : Nat} {s : State} (h_regs : Part.regs ∈
    pset) (h_cnts : Part.cnts ∈ pset) (h_outs : Part.outs ∈ pset) (h_intc : Part.intc ∈ pset) (h_eth : Part.eth ∈
    pset) (hk : Keeps pset z0 s) : Keeps pset z0 (Machine.pauseRx p da q s) := by
  unfold Machine.pauseRx
  repeat' (first
    | with_reducible first
      | assumption | apply K.macMod h_eth | apply K.macCount h_cnts | apply K.putPaused h_regs h_outs h_intc
      | refine Keeps.ite (fun _ => ?_) (fun _ => ?_)
    | intro _ _ | dsimp only | split | refine Keeps.someIf (by with_reducible assumption) (fun _ => ?_) ?_)

theorem pauseEnd {pset : List Part} {z0 : State} {p : Nat} {s : State} (h_regs : Part.regs ∈ pset) (h_cnts :
    Part.cnts ∈ pset) (h_outs : Part.outs ∈ pset) (h_intc : Part.intc ∈ pset) (h_sys : Part.sys ∈ pset) (h_time :
    Part.time ∈ pset) (h_pwr : Part.pwr ∈ pset) (hk : Keeps pset z0 s) : Keeps pset z0 (Machine.pauseEnd p s) := by
  unfold Machine.pauseEnd
  repeat' (first
    | with_reducible first
      | assumption | apply K.advanceNs h_cnts h_sys h_time h_pwr | apply K.putPaused h_regs h_outs h_intc
      | refine Keeps.ite (fun _ => ?_) (fun _ => ?_)
    | dsimp only | split)

theorem respondRx {pset : List Part} {z0 : State} {p : Nat} {s : State} (h_regs : Part.regs ∈ pset) (h_cnts :
    Part.cnts ∈ pset) (h_outs : Part.outs ∈ pset) (h_intc : Part.intc ∈ pset) (hk : Keeps pset z0 s) : Keeps pset z0
    (Machine.respondRx p s) := by
  unfold Machine.respondRx
  repeat' (first
    | with_reducible first
      | assumption | apply K.macCount h_cnts | apply K.verifyPut h_regs h_outs h_intc
      | refine Keeps.ite (fun _ => ?_) (fun _ => ?_)
    | split)

theorem ctlOut {pset : List Part} {z0 : State} {s : State} {p : Nat} {c : MacCtl} (h_regs : Part.regs ∈ pset)
    (h_cnts : Part.cnts ∈ pset) (h_outs : Part.outs ∈ pset) (h_intc : Part.intc ∈ pset) (h_eth : Part.eth ∈ pset) (hk
    : Keeps pset z0 s) : Keeps pset z0 (Machine.ctlOut s p c) := by
  unfold Machine.ctlOut
  repeat' (first
    | with_reducible first
      | assumption | apply K.macMod h_eth | apply K.macCount h_cnts | apply K.lineOut h_outs
      | apply K.pauseRx h_regs h_cnts h_outs h_intc h_eth | apply K.respondRx h_regs h_cnts h_outs h_intc
      | refine Keeps.ite (fun _ => ?_) (fun _ => ?_)
    | intro _ _ | dsimp only | split)

theorem preemptNow {pset : List Part} {z0 : State} {s : State} {p : Nat} {t : TxFrame} (h_cnts : Part.cnts ∈ pset)
    (h_sys : Part.sys ∈ pset) (h_eth : Part.eth ∈ pset) (h_time : Part.time ∈ pset) (h_pwr : Part.pwr ∈ pset) (hk :
    Keeps pset z0 s) : Keeps pset z0 (Machine.preemptNow s p t) := by
  unfold Machine.preemptNow
  repeat' (first
    | with_reducible first
      | assumption | apply K.advanceNs h_cnts h_sys h_time h_pwr | apply K.macMod h_eth | apply K.macCount h_cnts
      | refine Keeps.ite (fun _ => ?_) (fun _ => ?_)
    | intro _ _ | dsimp only | split)

theorem ctlSend {pset : List Part} {z0 : State} {s : State} {p : Nat} {c : MacCtl} (h_regs : Part.regs ∈ pset)
    (h_cnts : Part.cnts ∈ pset) (h_outs : Part.outs ∈ pset) (h_intc : Part.intc ∈ pset) (h_sys : Part.sys ∈ pset)
    (h_eth : Part.eth ∈ pset) (h_time : Part.time ∈ pset) (h_pwr : Part.pwr ∈ pset) (hk : Keeps pset z0 s) : Keeps
    pset z0 (Machine.ctlSend s p c) := by
  unfold Machine.ctlSend
  repeat' (first
    | with_reducible first
      | assumption | apply K.advanceNs h_cnts h_sys h_time h_pwr | apply K.macMod h_eth
      | apply K.lpiOut h_regs h_cnts h_outs h_intc h_eth | apply K.ctlOut h_regs h_cnts h_outs h_intc h_eth
      | apply K.preemptNow h_cnts h_sys h_eth h_time h_pwr | refine Keeps.ite (fun _ => ?_) (fun _ => ?_)
    | intro _ _ | dsimp only | split)

theorem ctlFlush {pset : List Part} {z0 : State} {s : State} {p : Nat} (h_regs : Part.regs ∈ pset) (h_cnts :
    Part.cnts ∈ pset) (h_outs : Part.outs ∈ pset) (h_intc : Part.intc ∈ pset) (h_sys : Part.sys ∈ pset) (h_eth :
    Part.eth ∈ pset) (h_time : Part.time ∈ pset) (h_pwr : Part.pwr ∈ pset) (hk : Keeps pset z0 s) : Keeps pset z0
    (Machine.ctlFlush s p) := by
  unfold Machine.ctlFlush
  repeat' (first
    | with_reducible first
      | assumption | apply K.advanceNs h_cnts h_sys h_time h_pwr | apply K.macMod h_eth
      | apply K.ctlOut h_regs h_cnts h_outs h_intc h_eth | refine Keeps.ite (fun _ => ?_) (fun _ => ?_)
      | refine Keeps.foldl (fun _ _ _ => ?_) ?_
    | intro _ _ | dsimp only | split)

theorem pauseSend {pset : List Part} {z0 : State} {s : State} {p : Nat} {q : Nat} (h_regs : Part.regs ∈ pset)
    (h_cnts : Part.cnts ∈ pset) (h_outs : Part.outs ∈ pset) (h_intc : Part.intc ∈ pset) (h_sys : Part.sys ∈ pset)
    (h_eth : Part.eth ∈ pset) (h_time : Part.time ∈ pset) (h_pwr : Part.pwr ∈ pset) (hk : Keeps pset z0 s) : Keeps
    pset z0 (Machine.pauseSend s p q) := by
  unfold Machine.pauseSend
  repeat' (first
    | with_reducible first
      | assumption | apply K.putB h_regs | apply K.raiseIrq h_regs h_outs h_intc
      | apply K.ctlSend h_regs h_cnts h_outs h_intc h_sys h_eth h_time h_pwr
      | refine Keeps.ite (fun _ => ?_) (fun _ => ?_)
    | dsimp only | split)

theorem pauseXoff {pset : List Part} {z0 : State} {p : Nat} {s : State} (h_regs : Part.regs ∈ pset) (h_cnts :
    Part.cnts ∈ pset) (h_outs : Part.outs ∈ pset) (h_intc : Part.intc ∈ pset) (h_sys : Part.sys ∈ pset) (h_eth :
    Part.eth ∈ pset) (h_time : Part.time ∈ pset) (h_pwr : Part.pwr ∈ pset) (hk : Keeps pset z0 s) : Keeps pset z0
    (Machine.pauseXoff p s) := by
  unfold Machine.pauseXoff
  repeat' (first
    | with_reducible first
      | assumption | apply K.pauseSend h_regs h_cnts h_outs h_intc h_sys h_eth h_time h_pwr
      | refine Keeps.ite (fun _ => ?_) (fun _ => ?_)
    | split)

theorem pauseRefresh {pset : List Part} {z0 : State} {p : Nat} {s : State} (h_regs : Part.regs ∈ pset) (h_cnts :
    Part.cnts ∈ pset) (h_outs : Part.outs ∈ pset) (h_intc : Part.intc ∈ pset) (h_sys : Part.sys ∈ pset) (h_eth :
    Part.eth ∈ pset) (h_time : Part.time ∈ pset) (h_pwr : Part.pwr ∈ pset) (hk : Keeps pset z0 s) : Keeps pset z0
    (Machine.pauseRefresh p s) := by
  unfold Machine.pauseRefresh
  repeat' (first
    | with_reducible first
      | assumption | apply K.advanceNs h_cnts h_sys h_time h_pwr
      | apply K.pauseSend h_regs h_cnts h_outs h_intc h_sys h_eth h_time h_pwr
      | refine Keeps.ite (fun _ => ?_) (fun _ => ?_)
    | dsimp only | split)

theorem pauseXon {pset : List Part} {z0 : State} {p : Nat} {s : State} (h_regs : Part.regs ∈ pset) (h_cnts :
    Part.cnts ∈ pset) (h_outs : Part.outs ∈ pset) (h_intc : Part.intc ∈ pset) (h_sys : Part.sys ∈ pset) (h_eth :
    Part.eth ∈ pset) (h_time : Part.time ∈ pset) (h_pwr : Part.pwr ∈ pset) (hk : Keeps pset z0 s) : Keeps pset z0
    (Machine.pauseXon p s) := by
  unfold Machine.pauseXon
  repeat' (first
    | with_reducible first
      | assumption | apply K.pauseSend h_regs h_cnts h_outs h_intc h_sys h_eth h_time h_pwr
      | refine Keeps.ite (fun _ => ?_) (fun _ => ?_)
    | split)

theorem rxMeets {pset : List Part} {z0 : State} {p : Nat} {f : State → State} {s : State} (h_cnts : Part.cnts ∈
    pset) (h_f : ∀ u0, Keeps pset z0 u0 → Keeps pset z0 (f u0)) (hk : Keeps pset z0 s) : Keeps pset z0
    (Machine.rxMeets p f s) := by
  unfold Machine.rxMeets
  repeat' (first
    | with_reducible first
      | assumption | apply h_f | apply K.macCount h_cnts
    | dsimp only | split | refine Keeps.ofFst (by with_reducible assumption) ?_
    | refine Keeps.ofSnd (by with_reducible assumption) ?_)

theorem rxGate {pset : List Part} {z0 : State} {p : Nat} {f : State → State} {s : State} (h_cnts : Part.cnts ∈
    pset) (h_f : ∀ u0, Keeps pset z0 u0 → Keeps pset z0 (f u0)) (hk : Keeps pset z0 s) : Keeps pset z0 (Machine.rxGate
    p f s) := by
  unfold Machine.rxGate
  repeat' (first
    | with_reducible first
      | assumption | apply h_f | apply K.rxMeets h_cnts | refine Keeps.ite (fun _ => ?_) (fun _ => ?_)
    | intro _ _ | dsimp only | split)

theorem rxLine {pset : List Part} {z0 : State} {p : Nat} {b : List Byte} {f : State → State} {s : State} (h_cnts :
    Part.cnts ∈ pset) (h_outs : Part.outs ∈ pset) (h_f : ∀ u0, Keeps pset z0 u0 → Keeps pset z0 (f u0)) (hk : Keeps
    pset z0 s) : Keeps pset z0 (Machine.rxLine p b f s) := by
  unfold Machine.rxLine
  repeat' (first
    | with_reducible first
      | assumption | apply h_f | apply K.emit h_outs | apply K.rxGate h_cnts
      | refine Keeps.ite (fun _ => ?_) (fun _ => ?_)
    | intro _ _ | dsimp only | split)

theorem ctrlOther {pset : List Part} {z0 : State} {p : Nat} {op : Nat} {s : State} (h_cnts : Part.cnts ∈ pset) (hk
    : Keeps pset z0 s) : Keeps pset z0 (Machine.ctrlOther p op s) := by
  unfold Machine.ctrlOther
  repeat' (first
    | with_reducible first
      | assumption | apply K.macCount h_cnts | refine Keeps.ite (fun _ => ?_) (fun _ => ?_)
    | split)

theorem rxBad {pset : List Part} {z0 : State} {s : State} {p : Nat} {a : Arrival} {k : RxKind} {short : Bool}
    (h_regs : Part.regs ∈ pset) (h_cnts : Part.cnts ∈ pset) (h_mem : Part.mem ∈ pset) (h_outs : Part.outs ∈ pset)
    (h_intc : Part.intc ∈ pset) (h_bnk : Part.bnk ∈ pset) (hk : Keeps pset z0 s) : Keeps pset z0 (Machine.rxBad s p a
    k short) := by
  unfold Machine.rxBad
  repeat' (first
    | with_reducible first
      | assumption | apply K.raiseIrq h_regs h_outs h_intc | apply K.dropFrame h_regs h_cnts h_mem h_outs h_intc h_bnk
      | apply K.macCount h_cnts | refine Keeps.ite (fun _ => ?_) (fun _ => ?_)
    | dsimp only | split)

theorem passThrough {pset : List Part} {z0 : State} {s : State} {p : Nat} {x : Nat} {a : Nat} {ar : Arrival} {full
    : List Byte} {bad : Bool} (h_regs : Part.regs ∈ pset) (h_cnts : Part.cnts ∈ pset) (h_free : Part.free ∈ pset)
    (h_mem : Part.mem ∈ pset) (h_outs : Part.outs ∈ pset) (h_intc : Part.intc ∈ pset) (h_eth : Part.eth ∈ pset)
    (h_gate : Part.gate ∈ pset) (h_vlt : Part.vlt ∈ pset) (h_bnk : Part.bnk ∈ pset) (hk : Keeps pset z0 s) : Keeps
    pset z0 (Machine.passThrough s p x a ar full bad) := by
  unfold Machine.passThrough
  repeat' (first
    | with_reducible first
      | assumption | apply K.dropFrame h_regs h_cnts h_mem h_outs h_intc h_bnk
      | apply K.sieveJudge h_regs h_cnts h_outs h_intc h_gate h_vlt | apply K.raisePairIrq h_regs h_outs h_intc
      | apply K.pairCount h_cnts | apply K.ptpTransmit h_cnts h_free | apply K.macMod h_eth | apply K.macCount h_cnts
      | apply K.lineOut h_outs | refine Keeps.ite (fun _ => ?_) (fun _ => ?_)
    | intro _ _ | dsimp only | split)

theorem pairReceive {pset : List Part} {z0 : State} {s : State} {p : Nat} {ar : Arrival} {full : List Byte} {pair
    : Nat × Nat × Nat} (h_regs : Part.regs ∈ pset) (h_cnts : Part.cnts ∈ pset) (h_free : Part.free ∈ pset) (h_mem :
    Part.mem ∈ pset) (h_outs : Part.outs ∈ pset) (h_intc : Part.intc ∈ pset) (h_sw : Part.sw ∈ pset) (h_eth : Part.eth
    ∈ pset) (h_gate : Part.gate ∈ pset) (h_vlt : Part.vlt ∈ pset) (h_bnk : Part.bnk ∈ pset) (hk : Keeps pset z0 s) :
    Keeps pset z0 (Machine.pairReceive s p ar full pair) := by
  unfold Machine.pairReceive
  repeat' (first
    | with_reducible first
      | assumption | apply K.swIngress h_regs h_cnts h_free h_mem h_outs h_intc h_sw h_bnk
      | apply K.raisePairIrq h_regs h_outs h_intc | apply K.pairCount h_cnts
      | apply K.dupAdd h_regs h_cnts h_outs h_intc h_eth | apply K.dupSent h_eth
      | apply K.passThrough h_regs h_cnts h_free h_mem h_outs h_intc h_eth h_gate h_vlt h_bnk
      | refine Keeps.ite (fun _ => ?_) (fun _ => ?_)
    | dsimp only | split)

theorem macRx {pset : List Part} {z0 : State} {p : Nat} {b : List Byte} {k : RxKind} {s : State} (h_regs :
    Part.regs ∈ pset) (h_cnts : Part.cnts ∈ pset) (h_free : Part.free ∈ pset) (h_mem : Part.mem ∈ pset) (h_outs :
    Part.outs ∈ pset) (h_intc : Part.intc ∈ pset) (h_sw : Part.sw ∈ pset) (h_eth : Part.eth ∈ pset) (h_gate :
    Part.gate ∈ pset) (h_vlt : Part.vlt ∈ pset) (h_bnk : Part.bnk ∈ pset) (h_time : Part.time ∈ pset) (hk : Keeps pset
    z0 s) : Keeps pset z0 (Machine.macRx p b k s) := by
  unfold Machine.macRx
  repeat' (first
    | with_reducible first
      | assumption | apply K.raiseIrq h_regs h_outs h_intc
      | apply K.swIngress h_regs h_cnts h_free h_mem h_outs h_intc h_sw h_bnk | apply K.dupSent h_eth
      | apply K.rxStamp h_free | apply K.ptpReceive h_regs h_cnts h_mem h_outs h_intc h_bnk h_time
      | apply K.macCount h_cnts | apply K.pauseRx h_regs h_cnts h_outs h_intc h_eth | apply K.ctrlOther h_cnts
      | apply K.rxBad h_regs h_cnts h_mem h_outs h_intc h_bnk
      | apply K.passThrough h_regs h_cnts h_free h_mem h_outs h_intc h_eth h_gate h_vlt h_bnk
      | apply K.pairReceive h_regs h_cnts h_free h_mem h_outs h_intc h_sw h_eth h_gate h_vlt h_bnk
      | refine Keeps.ite (fun _ => ?_) (fun _ => ?_)
    | intro _ _ | dsimp only | split | refine Keeps.ofFst (by with_reducible assumption) ?_
    | refine Keeps.ofSnd (by with_reducible assumption) ?_)

theorem macPick {pset : List Part} {z0 : State} {s : State} {p : Nat} {cls : Nat → Bool} {rf : ReadFault} {fuel :
    Nat} (h_regs : Part.regs ∈ pset) (h_cnts : Part.cnts ∈ pset) (h_free : Part.free ∈ pset) (h_mem : Part.mem ∈ pset)
    (h_outs : Part.outs ∈ pset) (h_intc : Part.intc ∈ pset) (h_sw : Part.sw ∈ pset) (h_eth : Part.eth ∈ pset) (h_gate
    : Part.gate ∈ pset) (h_vlt : Part.vlt ∈ pset) (h_bnk : Part.bnk ∈ pset) (hk : Keeps pset z0 s) : Keeps pset z0
    (Machine.macPick s p cls rf fuel).1 := by
  induction fuel generalizing s p rf with
  | zero =>
    unfold Machine.macPick
    repeat' (first
      | with_reducible first
        | assumption | apply K.unref h_regs h_mem h_outs h_intc h_sw h_bnk
        | apply K.dropStored h_regs h_cnts h_mem h_outs h_intc h_sw h_bnk
        | apply K.sieveJudge h_regs h_cnts h_outs h_intc h_gate h_vlt | apply K.dequeue h_sw
        | apply K.exitDrop h_regs h_cnts h_free h_mem h_outs h_intc h_sw h_gate h_vlt h_bnk | apply K.chosen h_sw
        | apply K.selectAt h_regs h_cnts h_free h_mem h_outs h_intc h_sw h_gate h_vlt h_bnk
        | apply K.txSeq h_mem h_sw h_eth h_bnk | refine Keeps.ite (fun _ => ?_) (fun _ => ?_)
        | refine Keeps.iteFst (fun _ => ?_) (fun _ => ?_)
      | dsimp only | split | refine Keeps.ofFst (by with_reducible assumption) ?_
      | refine Keeps.ofSnd (by with_reducible assumption) ?_)
  | succ _ ih =>
    unfold Machine.macPick
    repeat' (first
      | with_reducible first
        | assumption | apply ih | apply K.unref h_regs h_mem h_outs h_intc h_sw h_bnk
        | apply K.dropStored h_regs h_cnts h_mem h_outs h_intc h_sw h_bnk
        | apply K.sieveJudge h_regs h_cnts h_outs h_intc h_gate h_vlt | apply K.dequeue h_sw
        | apply K.exitDrop h_regs h_cnts h_free h_mem h_outs h_intc h_sw h_gate h_vlt h_bnk | apply K.chosen h_sw
        | apply K.selectAt h_regs h_cnts h_free h_mem h_outs h_intc h_sw h_gate h_vlt h_bnk
        | apply K.txSeq h_mem h_sw h_eth h_bnk | refine Keeps.ite (fun _ => ?_) (fun _ => ?_)
        | refine Keeps.iteFst (fun _ => ?_) (fun _ => ?_)
      | dsimp only | split | refine Keeps.ofFst (by with_reducible assumption) ?_
      | refine Keeps.ofSnd (by with_reducible assumption) ?_)

theorem macStart {pset : List Part} {z0 : State} {s : State} {p : Nat} {f : Frame} {c : Nat} {b : List Byte}
    (h_cnts : Part.cnts ∈ pset) (h_free : Part.free ∈ pset) (h_sys : Part.sys ∈ pset) (h_eth : Part.eth ∈ pset)
    (h_time : Part.time ∈ pset) (h_pwr : Part.pwr ∈ pset) (hk : Keeps pset z0 s) : Keeps pset z0 (Machine.macStart s p
    f c b) := by
  unfold Machine.macStart
  repeat' (first
    | with_reducible first
      | assumption | apply K.advanceNs h_cnts h_sys h_time h_pwr | apply K.ptpTransmit h_cnts h_free
      | apply K.macMod h_eth
    | intro _ _ | dsimp only)

theorem macResume {pset : List Part} {z0 : State} {s : State} {p : Nat} {h : TxFrame} (h_cnts : Part.cnts ∈ pset)
    (h_sys : Part.sys ∈ pset) (h_eth : Part.eth ∈ pset) (h_time : Part.time ∈ pset) (h_pwr : Part.pwr ∈ pset) (hk :
    Keeps pset z0 s) : Keeps pset z0 (Machine.macResume s p h) := by
  unfold Machine.macResume
  repeat' (first
    | with_reducible first
      | assumption | apply K.advanceNs h_cnts h_sys h_time h_pwr | apply K.macMod h_eth | apply K.macCount h_cnts
    | intro _ _ | dsimp only)

theorem macSelect {pset : List Part} {z0 : State} {p : Nat} {rf : ReadFault} {s : State} (h_regs : Part.regs ∈
    pset) (h_cnts : Part.cnts ∈ pset) (h_free : Part.free ∈ pset) (h_mem : Part.mem ∈ pset) (h_outs : Part.outs ∈
    pset) (h_intc : Part.intc ∈ pset) (h_sys : Part.sys ∈ pset) (h_sw : Part.sw ∈ pset) (h_eth : Part.eth ∈ pset)
    (h_gate : Part.gate ∈ pset) (h_vlt : Part.vlt ∈ pset) (h_bnk : Part.bnk ∈ pset) (h_time : Part.time ∈ pset) (h_pwr
    : Part.pwr ∈ pset) (hk : Keeps pset z0 s) : Keeps pset z0 (Machine.macSelect p rf s) := by
  unfold Machine.macSelect
  repeat' (first
    | with_reducible first
      | assumption | apply K.preemptNow h_cnts h_sys h_eth h_time h_pwr
      | apply K.macPick h_regs h_cnts h_free h_mem h_outs h_intc h_sw h_eth h_gate h_vlt h_bnk
      | apply K.macStart h_cnts h_free h_sys h_eth h_time h_pwr | apply K.macResume h_cnts h_sys h_eth h_time h_pwr
      | refine Keeps.ite (fun _ => ?_) (fun _ => ?_)
    | intro _ _ | dsimp only | split | refine Keeps.ofFst (by with_reducible assumption) ?_
    | refine Keeps.ofSnd (by with_reducible assumption) ?_)

theorem egressSelect {pset : List Part} {z0 : State} {p : Nat} {rf : ReadFault} {s : State} (h_regs : Part.regs ∈
    pset) (h_cnts : Part.cnts ∈ pset) (h_free : Part.free ∈ pset) (h_mem : Part.mem ∈ pset) (h_outs : Part.outs ∈
    pset) (h_intc : Part.intc ∈ pset) (h_sys : Part.sys ∈ pset) (h_sw : Part.sw ∈ pset) (h_eth : Part.eth ∈ pset)
    (h_gate : Part.gate ∈ pset) (h_vlt : Part.vlt ∈ pset) (h_bnk : Part.bnk ∈ pset) (h_time : Part.time ∈ pset) (h_pwr
    : Part.pwr ∈ pset) (hk : Keeps pset z0 s) : Keeps pset z0 (Machine.egressSelect p rf s) := by
  unfold Machine.egressSelect
  repeat' (first
    | with_reducible first
      | assumption | apply K.sinkSelect h_regs h_cnts h_free h_mem h_outs h_intc h_sw h_gate h_vlt h_bnk
      | apply K.macSelect h_regs h_cnts h_free h_mem h_outs h_intc h_sys h_sw h_eth h_gate h_vlt h_bnk h_time h_pwr
      | refine Keeps.ite (fun _ => ?_) (fun _ => ?_)
    | split)

theorem macTxEnd {pset : List Part} {z0 : State} {p : Nat} {s : State} (h_regs : Part.regs ∈ pset) (h_cnts :
    Part.cnts ∈ pset) (h_free : Part.free ∈ pset) (h_mem : Part.mem ∈ pset) (h_outs : Part.outs ∈ pset) (h_intc :
    Part.intc ∈ pset) (h_sys : Part.sys ∈ pset) (h_sw : Part.sw ∈ pset) (h_eth : Part.eth ∈ pset) (h_gate : Part.gate
    ∈ pset) (h_vlt : Part.vlt ∈ pset) (h_bnk : Part.bnk ∈ pset) (h_time : Part.time ∈ pset) (h_pwr : Part.pwr ∈ pset)
    (hk : Keeps pset z0 s) : Keeps pset z0 (Machine.macTxEnd p s) := by
  unfold Machine.macTxEnd
  repeat' (first
    | with_reducible first
      | assumption | apply K.advanceNs h_cnts h_sys h_time h_pwr
      | apply K.itemTransmitted h_regs h_cnts h_free h_mem h_outs h_intc h_sw h_gate h_vlt h_bnk
      | apply K.ptpSent h_regs h_cnts h_mem h_outs h_intc h_bnk h_time | apply K.macMod h_eth
      | apply K.macCount h_cnts | apply K.preemptSync h_regs h_outs h_intc h_eth | apply K.lineOut h_outs
      | apply K.ctlFlush h_regs h_cnts h_outs h_intc h_sys h_eth h_time h_pwr | apply K.rxMeets h_cnts
      | apply K.macRx h_regs h_cnts h_free h_mem h_outs h_intc h_sw h_eth h_gate h_vlt h_bnk h_time
      | refine Keeps.ite (fun _ => ?_) (fun _ => ?_)
    | intro _ _ | dsimp only | split)

theorem verifySend {pset : List Part} {z0 : State} {p : Nat} {s : State} (h_regs : Part.regs ∈ pset) (h_cnts :
    Part.cnts ∈ pset) (h_outs : Part.outs ∈ pset) (h_intc : Part.intc ∈ pset) (h_sys : Part.sys ∈ pset) (h_eth :
    Part.eth ∈ pset) (h_time : Part.time ∈ pset) (h_pwr : Part.pwr ∈ pset) (hk : Keeps pset z0 s) : Keeps pset z0
    (Machine.verifySend p s) := by
  unfold Machine.verifySend
  repeat' (first
    | with_reducible first
      | assumption | apply K.advanceNs h_cnts h_sys h_time h_pwr | apply K.macMod h_eth | apply K.macCount h_cnts
      | apply K.verifyPut h_regs h_outs h_intc | apply K.ctlSend h_regs h_cnts h_outs h_intc h_sys h_eth h_time h_pwr
      | refine Keeps.ite (fun _ => ?_) (fun _ => ?_)
    | intro _ _ | dsimp only | split)

theorem verifyRx {pset : List Part} {z0 : State} {p : Nat} {s : State} (h_regs : Part.regs ∈ pset) (h_cnts :
    Part.cnts ∈ pset) (h_outs : Part.outs ∈ pset) (h_intc : Part.intc ∈ pset) (h_sys : Part.sys ∈ pset) (h_eth :
    Part.eth ∈ pset) (h_time : Part.time ∈ pset) (h_pwr : Part.pwr ∈ pset) (hk : Keeps pset z0 s) : Keeps pset z0
    (Machine.verifyRx p s) := by
  unfold Machine.verifyRx
  repeat' (first
    | with_reducible first
      | assumption | apply K.macCount h_cnts | apply K.ctlSend h_regs h_cnts h_outs h_intc h_sys h_eth h_time h_pwr
      | refine Keeps.ite (fun _ => ?_) (fun _ => ?_)
    | split)

theorem lpiEnter {pset : List Part} {z0 : State} {p : Nat} {s : State} (h_regs : Part.regs ∈ pset) (h_cnts :
    Part.cnts ∈ pset) (h_outs : Part.outs ∈ pset) (h_intc : Part.intc ∈ pset) (h_sys : Part.sys ∈ pset) (h_eth :
    Part.eth ∈ pset) (h_time : Part.time ∈ pset) (h_pwr : Part.pwr ∈ pset) (hk : Keeps pset z0 s) : Keeps pset z0
    (Machine.lpiEnter p s) := by
  unfold Machine.lpiEnter
  repeat' (first
    | with_reducible first
      | assumption | apply K.advanceNs h_cnts h_sys h_time h_pwr | apply K.putLpi h_regs h_cnts h_outs h_intc h_eth
      | refine Keeps.ite (fun _ => ?_) (fun _ => ?_)
    | dsimp only | split)

theorem lpiLeave {pset : List Part} {z0 : State} {p : Nat} {s : State} (h_regs : Part.regs ∈ pset) (h_cnts :
    Part.cnts ∈ pset) (h_outs : Part.outs ∈ pset) (h_intc : Part.intc ∈ pset) (h_eth : Part.eth ∈ pset) (hk : Keeps
    pset z0 s) : Keeps pset z0 (Machine.lpiLeave p s) := by
  unfold Machine.lpiLeave
  repeat' (first
    | with_reducible first
      | assumption | apply K.lpiOut h_regs h_cnts h_outs h_intc h_eth | refine Keeps.ite (fun _ => ?_) (fun _ => ?_)
    | split)

theorem lpiPartner {pset : List Part} {z0 : State} {p : Nat} {on : Bool} {s : State} (h_regs : Part.regs ∈ pset)
    (h_outs : Part.outs ∈ pset) (h_intc : Part.intc ∈ pset) (h_sys : Part.sys ∈ pset) (h_pwr : Part.pwr ∈ pset) (hk :
    Keeps pset z0 s) : Keeps pset z0 (Machine.lpiPartner p on s) := by
  unfold Machine.lpiPartner
  repeat' (first
    | with_reducible first
      | assumption | apply K.putB h_regs | apply K.raiseIrq h_regs h_outs h_intc
      | apply K.wakeSource h_regs h_outs h_intc h_sys h_pwr | refine Keeps.ite (fun _ => ?_) (fun _ => ?_)
    | dsimp only | split)

theorem lpiFollow {pset : List Part} {z0 : State} {s : State} (h_regs : Part.regs ∈ pset) (h_cnts : Part.cnts ∈
    pset) (h_outs : Part.outs ∈ pset) (h_intc : Part.intc ∈ pset) (h_eth : Part.eth ∈ pset) (hk : Keeps pset z0 s) :
    Keeps pset z0 (Machine.lpiFollow s) := by
  unfold Machine.lpiFollow
  repeat' (first
    | with_reducible first
      | assumption | apply K.lpiSettle h_regs h_cnts h_outs h_intc h_eth | refine Keeps.foldl (fun _ _ _ => ?_) ?_)

theorem updMdio {pset : List Part} {z0 : State} {s : State} {l : Nat} (h_regs : Part.regs ∈ pset) (h_outs :
    Part.outs ∈ pset) (h_intc : Part.intc ∈ pset) (hk : Keeps pset z0 s) : Keeps pset z0 (Machine.updMdio s l) := by
  unfold Machine.updMdio
  repeat' (first
    | with_reducible first
      | assumption | apply K.setLine h_regs h_outs h_intc)

theorem mdioCmd {pset : List Part} {z0 : State} {l : Nat} {v : Word} {s : State} (h_regs : Part.regs ∈ pset)
    (h_outs : Part.outs ∈ pset) (h_eth : Part.eth ∈ pset) (hk : Keeps pset z0 s) : Keeps pset z0 (Machine.mdioCmd l v
    s) := by
  unfold Machine.mdioCmd
  repeat' (first
    | with_reducible first
      | assumption | apply K.putB h_regs | apply K.emit h_outs | refine Keeps.ite (fun _ => ?_) (fun _ => ?_)
    | dsimp only | split | simp only [Keeps.lit_eth h_eth])

theorem mdioEnd {pset : List Part} {z0 : State} {l : Nat} {data : BitVec 16} {s : State} (h_regs : Part.regs ∈
    pset) (h_outs : Part.outs ∈ pset) (h_intc : Part.intc ∈ pset) (h_eth : Part.eth ∈ pset) (hk : Keeps pset z0 s) :
    Keeps pset z0 (Machine.mdioEnd l data s) := by
  unfold Machine.mdioEnd
  repeat' (first
    | with_reducible first
      | assumption | apply K.putF h_regs | apply K.putB h_regs | apply K.updMdio h_regs h_outs h_intc
      | refine Keeps.ite (fun _ => ?_) (fun _ => ?_)
    | dsimp only | split | simp only [Keeps.lit_eth h_eth])

end Sys2Proof.Laws.K
end

