-- ==== Sys2Proof/Laws/KeepsThermal.lean ====
section
/-! SUPPORT. What the operations of `Machine/Thermal.lean` keep. -/

namespace Sys2Proof.Laws.K

open Sys2Proof Sys2Proof.Machine Sys2Proof.Laws

theorem clearPage {pset : List Part} {z0 : State} {s : State} {base : Nat} {span : Nat} {keep : Nat → Bool}
    (h_regs : Part.regs ∈ pset) (h_cnts : Part.cnts ∈ pset) (h_snaps : Part.snaps ∈ pset) (hk : Keeps pset z0 s) :
    Keeps pset z0 (Machine.clearPage s base span keep) := by
  unfold Machine.clearPage
  repeat' (first
    | with_reducible first
      | assumption
    | intro _ _ | dsimp only | simp only [Keeps.lit_regs_cnts_snaps h_regs h_cnts h_snaps])

theorem groupPower {pset : List Part} {z0 : State} {s : State} {g : Nat} {on : Bool} (h_regs : Part.regs ∈ pset)
    (h_cnts : Part.cnts ∈ pset) (h_snaps : Part.snaps ∈ pset) (h_outs : Part.outs ∈ pset) (h_intc : Part.intc ∈ pset)
    (h_eth : Part.eth ∈ pset) (hk : Keeps pset z0 s) : Keeps pset z0 (Machine.groupPower s g on) := by
  unfold Machine.groupPower
  repeat' (first
    | with_reducible first
      | assumption | apply K.putF h_regs | apply K.putB h_regs | apply K.updIrq h_regs h_outs h_intc
      | apply K.clearPage h_regs h_cnts h_snaps | refine Keeps.ite (fun _ => ?_) (fun _ => ?_)
      | refine Keeps.foldl (fun _ _ _ => ?_) ?_
    | intro _ _ | dsimp only | split | simp only [Keeps.lit_eth h_eth])

theorem groupSettle {pset : List Part} {z0 : State} {s : State} (h_regs : Part.regs ∈ pset) (h_cnts : Part.cnts ∈
    pset) (h_snaps : Part.snaps ∈ pset) (h_outs : Part.outs ∈ pset) (h_intc : Part.intc ∈ pset) (h_eth : Part.eth ∈
    pset) (hk : Keeps pset z0 s) : Keeps pset z0 (Machine.groupSettle s) := by
  unfold Machine.groupSettle
  repeat' (first
    | with_reducible first
      | assumption | apply K.groupPower h_regs h_cnts h_snaps h_outs h_intc h_eth
      | refine Keeps.ite (fun _ => ?_) (fun _ => ?_) | refine Keeps.foldl (fun _ _ _ => ?_) ?_
    | intro _ _ | dsimp only | split)

theorem padRelease {pset : List Part} {z0 : State} {v : Nat} {s : State} (h_regs : Part.regs ∈ pset) (hk : Keeps
    pset z0 s) : Keeps pset z0 (Machine.padRelease v s) := by
  unfold Machine.padRelease
  repeat' (first
    | with_reducible first
      | assumption | apply K.setR h_regs | refine Keeps.ite (fun _ => ?_) (fun _ => ?_)
    | dsimp only | split)

theorem admitPut {pset : List Part} {z0 : State} {lo : Word} {hi : Word} {s : State} (h_regs : Part.regs ∈ pset)
    (hk : Keeps pset z0 s) : Keeps pset z0 (Machine.admitPut lo hi s) := by
  unfold Machine.admitPut
  repeat' (first
    | with_reducible first
      | assumption | apply K.setR h_regs | apply K.raiseEvent h_regs | refine Keeps.ite (fun _ => ?_) (fun _ => ?_)
      | refine Keeps.foldl (fun _ _ _ => ?_) ?_
    | intro _ _ | dsimp only | split)

theorem putFraction {pset : List Part} {z0 : State} {s : State} {v : Nat} (h_regs : Part.regs ∈ pset) (h_sw :
    Part.sw ∈ pset) (hk : Keeps pset z0 s) : Keeps pset z0 (Machine.putFraction s v) := by
  unfold Machine.putFraction
  repeat' (first
    | with_reducible first
      | assumption | apply K.putF h_regs | apply K.shapeSettleAll h_sw)

theorem shedAdmit {pset : List Part} {z0 : State} {p : Forecast} {s : State} {excess : Int} (h_regs : Part.regs ∈
    pset) (hk : Keeps pset z0 s) : Keeps pset z0 (Machine.shedAdmit p s excess).1 := by
  unfold Machine.shedAdmit
  repeat' (first
    | with_reducible first
      | assumption | apply K.admitPut h_regs | refine Keeps.ite (fun _ => ?_) (fun _ => ?_)
      | refine Keeps.iteFst (fun _ => ?_) (fun _ => ?_)
    | dsimp only | split)

theorem shedShape {pset : List Part} {z0 : State} {p : Forecast} {s : State} {excess : Int} {fuel : Nat} (h_regs :
    Part.regs ∈ pset) (h_sw : Part.sw ∈ pset) (hk : Keeps pset z0 s) : Keeps pset z0 (Machine.shedShape p s excess
    fuel).1 := by
  induction fuel generalizing p s excess with
  | zero =>
    unfold Machine.shedShape
    repeat' (first
      | with_reducible first
        | assumption | apply K.shape h_sw | apply K.putFraction h_regs h_sw
        | refine Keeps.ite (fun _ => ?_) (fun _ => ?_) | refine Keeps.iteFst (fun _ => ?_) (fun _ => ?_)
      | dsimp only | split)
  | succ _ ih =>
    unfold Machine.shedShape
    repeat' (first
      | with_reducible first
        | assumption | apply ih | apply K.shape h_sw | apply K.putFraction h_regs h_sw
        | refine Keeps.ite (fun _ => ?_) (fun _ => ?_) | refine Keeps.iteFst (fun _ => ?_) (fun _ => ?_)
      | dsimp only | split)

theorem shedPause {pset : List Part} {z0 : State} {p : Forecast} {s : State} {excess : Int} (h_regs : Part.regs ∈
    pset) (h_pwr : Part.pwr ∈ pset) (hk : Keeps pset z0 s) : Keeps pset z0 (Machine.shedPause p s excess).1 := by
  unfold Machine.shedPause
  repeat' (first
    | with_reducible first
      | assumption | apply K.putB h_regs | refine Keeps.ite (fun _ => ?_) (fun _ => ?_)
      | refine Keeps.iteFst (fun _ => ?_) (fun _ => ?_) | refine Keeps.foldl (fun _ _ _ => ?_) ?_
      | refine Keeps.foldlFst (fun _ _ _ => ?_) ?_
    | intro _ _ | dsimp only | split | simp only [Keeps.lit_pwr h_pwr])

theorem shedClusters {pset : List Part} {z0 : State} {p : Forecast} {s : State} {excess : Int} {fuel : Nat}
    (h_regs : Part.regs ∈ pset) (h_cnts : Part.cnts ∈ pset) (h_outs : Part.outs ∈ pset) (h_intc : Part.intc ∈ pset)
    (hk : Keeps pset z0 s) : Keeps pset z0 (Machine.shedClusters p s excess fuel) := by
  induction fuel generalizing p s excess with
  | zero =>
    unfold Machine.shedClusters
    repeat' (first
      | with_reducible first
        | assumption | apply K.stepWrite h_regs h_cnts h_outs h_intc | refine Keeps.ite (fun _ => ?_) (fun _ => ?_)
      | dsimp only | split)
  | succ _ ih =>
    unfold Machine.shedClusters
    repeat' (first
      | with_reducible first
        | assumption | apply ih | apply K.stepWrite h_regs h_cnts h_outs h_intc
        | refine Keeps.ite (fun _ => ?_) (fun _ => ?_)
      | dsimp only | split)

theorem shed {pset : List Part} {z0 : State} {p : Forecast} {excess : Int} {s : State} (h_regs : Part.regs ∈ pset)
    (h_cnts : Part.cnts ∈ pset) (h_outs : Part.outs ∈ pset) (h_intc : Part.intc ∈ pset) (h_sw : Part.sw ∈ pset) (h_pwr
    : Part.pwr ∈ pset) (hk : Keeps pset z0 s) : Keeps pset z0 (Machine.shed p excess s) := by
  unfold Machine.shed
  repeat' (first
    | with_reducible first
      | assumption | apply K.shedAdmit h_regs | apply K.shedShape h_regs h_sw | apply K.shedPause h_regs h_pwr
      | apply K.shedClusters h_regs h_cnts h_outs h_intc
    | dsimp only)

theorem restoreOne {pset : List Part} {z0 : State} {p : Forecast} {room : Int} {s : State} (h_regs : Part.regs ∈
    pset) (h_cnts : Part.cnts ∈ pset) (h_outs : Part.outs ∈ pset) (h_intc : Part.intc ∈ pset) (h_sw : Part.sw ∈ pset)
    (h_pwr : Part.pwr ∈ pset) (hk : Keeps pset z0 s) : Keeps pset z0 (Machine.restoreOne p room s) := by
  unfold Machine.restoreOne
  repeat' (first
    | with_reducible first
      | assumption | apply K.putB h_regs | apply K.shape h_sw | apply K.stepWrite h_regs h_cnts h_outs h_intc
      | apply K.admitPut h_regs | apply K.putFraction h_regs h_sw | refine Keeps.ite (fun _ => ?_) (fun _ => ?_)
      | refine Keeps.foldl (fun _ _ _ => ?_) ?_
    | intro _ _ | dsimp only | split | simp only [Keeps.lit_pwr h_pwr])

theorem budgetTick {pset : List Part} {z0 : State} {est : Nat} {p : Forecast} {s : State} (h_regs : Part.regs ∈
    pset) (h_cnts : Part.cnts ∈ pset) (h_outs : Part.outs ∈ pset) (h_intc : Part.intc ∈ pset) (h_sys : Part.sys ∈
    pset) (h_sw : Part.sw ∈ pset) (h_time : Part.time ∈ pset) (h_pwr : Part.pwr ∈ pset) (hk : Keeps pset z0 s) : Keeps
    pset z0 (Machine.budgetTick est p s) := by
  unfold Machine.budgetTick
  repeat' (first
    | with_reducible first
      | assumption | apply K.setR h_regs | apply K.raiseIrq h_regs h_outs h_intc
      | apply K.advanceNs h_cnts h_sys h_time h_pwr | apply K.shed h_regs h_cnts h_outs h_intc h_sw h_pwr
      | apply K.restoreOne h_regs h_cnts h_outs h_intc h_sw h_pwr | refine Keeps.ite (fun _ => ?_) (fun _ => ?_)
    | dsimp only | split)

theorem sensorTake {pset : List Part} {z0 : State} {s : State} {i : Nat} {t : BitVec 16} (h_regs : Part.regs ∈
    pset) (h_pwr : Part.pwr ∈ pset) (hk : Keeps pset z0 s) : Keeps pset z0 (Machine.sensorTake s i t) := by
  unfold Machine.sensorTake
  repeat' (first
    | with_reducible first
      | assumption | apply K.setR h_regs | refine Keeps.ite (fun _ => ?_) (fun _ => ?_)
    | dsimp only | split | simp only [Keeps.lit_pwr h_pwr])

theorem sensorsTake {pset : List Part} {z0 : State} {s : State} {i : Nat} {l : List (BitVec 16)} (h_regs :
    Part.regs ∈ pset) (h_pwr : Part.pwr ∈ pset) (hk : Keeps pset z0 s) : Keeps pset z0 (Machine.sensorsTake s i l) :=
    by
  induction l generalizing s i with
  | nil =>
    unfold Machine.sensorsTake
    repeat' (first
      | with_reducible first
        | assumption | apply K.sensorTake h_regs h_pwr | refine Keeps.ite (fun _ => ?_) (fun _ => ?_)
      | dsimp only | split)
  | cons _ _ ih =>
    unfold Machine.sensorsTake
    repeat' (first
      | with_reducible first
        | assumption | apply ih | apply K.sensorTake h_regs h_pwr | refine Keeps.ite (fun _ => ?_) (fun _ => ?_)
      | dsimp only | split)

theorem tmpMax {pset : List Part} {z0 : State} {s : State} (h_regs : Part.regs ∈ pset) (h_outs : Part.outs ∈ pset)
    (h_intc : Part.intc ∈ pset) (hk : Keeps pset z0 s) : Keeps pset z0 (Machine.tmpMax s) := by
  unfold Machine.tmpMax
  repeat' (first
    | with_reducible first
      | assumption | apply K.setR h_regs | apply K.setRaw h_regs h_outs h_intc
    | dsimp only | split)

theorem sensorSample {pset : List Part} {z0 : State} {l : List (BitVec 16)} {s : State} (h_regs : Part.regs ∈
    pset) (h_cnts : Part.cnts ∈ pset) (h_outs : Part.outs ∈ pset) (h_intc : Part.intc ∈ pset) (h_sys : Part.sys ∈
    pset) (h_time : Part.time ∈ pset) (h_pwr : Part.pwr ∈ pset) (hk : Keeps pset z0 s) : Keeps pset z0
    (Machine.sensorSample l s) := by
  unfold Machine.sensorSample
  repeat' (first
    | with_reducible first
      | assumption | apply K.advanceCycles h_cnts h_sys h_time h_pwr | apply K.sensorsTake h_regs h_pwr
      | apply K.tmpMax h_regs h_outs h_intc)

theorem calibrate {pset : List Part} {z0 : State} {bad : Nat} {s : State} (h_regs : Part.regs ∈ pset) (h_outs :
    Part.outs ∈ pset) (h_intc : Part.intc ∈ pset) (h_pwr : Part.pwr ∈ pset) (hk : Keeps pset z0 s) : Keeps pset z0
    (Machine.calibrate bad s) := by
  unfold Machine.calibrate
  repeat' (first
    | with_reducible first
      | assumption | apply K.putB h_regs | apply K.raiseIrq h_regs h_outs h_intc | apply K.tmpMax h_regs h_outs h_intc
      | refine Keeps.ite (fun _ => ?_) (fun _ => ?_) | refine Keeps.foldl (fun _ _ _ => ?_) ?_
    | intro _ _ | dsimp only | split | simp only [Keeps.lit_pwr h_pwr])

theorem pllLost {pset : List Part} {z0 : State} {k : Nat} {s : State} (h_regs : Part.regs ∈ pset) (h_outs :
    Part.outs ∈ pset) (h_intc : Part.intc ∈ pset) (hk : Keeps pset z0 s) : Keeps pset z0 (Machine.pllLost k s) := by
  unfold Machine.pllLost
  repeat' (first
    | with_reducible first
      | assumption | apply K.putB h_regs | apply K.raiseIrq h_regs h_outs h_intc
      | refine Keeps.ite (fun _ => ?_) (fun _ => ?_)
    | dsimp only | split)

theorem rtcSecLo {pset : List Part} {z0 : State} {v : Word} {s : State} (h_time : Part.time ∈ pset) (hk : Keeps
    pset z0 s) : Keeps pset z0 (Machine.rtcSecLo v s) := by
  unfold Machine.rtcSecLo
  repeat' (first
    | with_reducible first
      | assumption
    | dsimp only | simp only [Keeps.lit_time h_time])

theorem rtcSecHi {pset : List Part} {z0 : State} {v : Word} {s : State} (h_time : Part.time ∈ pset) (hk : Keeps
    pset z0 s) : Keeps pset z0 (Machine.rtcSecHi v s) := by
  unfold Machine.rtcSecHi
  repeat' (first
    | with_reducible first
      | assumption
    | dsimp only | simp only [Keeps.lit_time h_time])

theorem rtcAlarm {pset : List Part} {z0 : State} {s : State} (h_regs : Part.regs ∈ pset) (h_cnts : Part.cnts ∈
    pset) (h_outs : Part.outs ∈ pset) (h_intc : Part.intc ∈ pset) (h_sys : Part.sys ∈ pset) (h_time : Part.time ∈
    pset) (h_pwr : Part.pwr ∈ pset) (hk : Keeps pset z0 s) : Keeps pset z0 (Machine.rtcAlarm s) := by
  unfold Machine.rtcAlarm
  repeat' (first
    | with_reducible first
      | assumption | apply K.raiseIrq h_regs h_outs h_intc | apply K.advanceCycles h_cnts h_sys h_time h_pwr
      | apply K.wakeSource h_regs h_outs h_intc h_sys h_pwr | refine Keeps.ite (fun _ => ?_) (fun _ => ?_)
    | dsimp only | split)

theorem mgtRaw {pset : List Part} {z0 : State} {s : State} (h_regs : Part.regs ∈ pset) (h_outs : Part.outs ∈ pset)
    (h_intc : Part.intc ∈ pset) (hk : Keeps pset z0 s) : Keeps pset z0 (Machine.mgtRaw s) := by
  unfold Machine.mgtRaw
  repeat' (first
    | with_reducible first
      | assumption | apply K.setRaw h_regs h_outs h_intc)

theorem mgtMatch {pset : List Part} {z0 : State} {addr : Nat} {rd : Bool} {s : State} (h_regs : Part.regs ∈ pset)
    (h_outs : Part.outs ∈ pset) (h_intc : Part.intc ∈ pset) (h_sys : Part.sys ∈ pset) (h_pwr : Part.pwr ∈ pset) (h_mgt
    : Part.mgt ∈ pset) (hk : Keeps pset z0 s) : Keeps pset z0 (Machine.mgtMatch addr rd s) := by
  unfold Machine.mgtMatch
  repeat' (first
    | with_reducible first
      | assumption | apply K.putF h_regs | apply K.raiseIrq h_regs h_outs h_intc
      | apply K.wakeSource h_regs h_outs h_intc h_sys h_pwr | refine Keeps.ite (fun _ => ?_) (fun _ => ?_)
    | dsimp only | split | simp only [Keeps.lit_mgt h_mgt])

theorem mgtNack {pset : List Part} {z0 : State} {s : State} (h_regs : Part.regs ∈ pset) (h_cnts : Part.cnts ∈
    pset) (h_outs : Part.outs ∈ pset) (h_intc : Part.intc ∈ pset) (h_mgt : Part.mgt ∈ pset) (hk : Keeps pset z0 s) :
    Keeps pset z0 (Machine.mgtNack s) := by
  unfold Machine.mgtNack
  repeat' (first
    | with_reducible first
      | assumption | apply K.bump h_cnts | apply K.emit h_outs | apply K.raiseIrq h_regs h_outs h_intc
    | dsimp only | simp only [Keeps.lit_mgt h_mgt])

theorem mgtStretch {pset : List Part} {z0 : State} {s : State} (h_mgt : Part.mgt ∈ pset) (hk : Keeps pset z0 s) :
    Keeps pset z0 (Machine.mgtStretch s) := by
  unfold Machine.mgtStretch
  repeat' (first
    | with_reducible first
      | assumption
    | dsimp only | split | simp only [Keeps.lit_mgt h_mgt])

theorem mgtStop {pset : List Part} {z0 : State} {stop : Bool} {s : State} (h_regs : Part.regs ∈ pset) (hk : Keeps
    pset z0 s) : Keeps pset z0 (Machine.mgtStop stop s) := by
  unfold Machine.mgtStop
  repeat' (first
    | with_reducible first
      | assumption | apply K.putB h_regs | refine Keeps.ite (fun _ => ?_) (fun _ => ?_)
    | split)

theorem mgtByte {pset : List Part} {z0 : State} {b : Byte} {stop : Bool} {s : State} (h_regs : Part.regs ∈ pset)
    (h_cnts : Part.cnts ∈ pset) (h_outs : Part.outs ∈ pset) (h_intc : Part.intc ∈ pset) (h_mgt : Part.mgt ∈ pset) (hk
    : Keeps pset z0 s) : Keeps pset z0 (Machine.mgtByte b stop s) := by
  unfold Machine.mgtByte
  repeat' (first
    | with_reducible first
      | assumption | apply K.emit h_outs | apply K.raiseIrq h_regs h_outs h_intc | apply K.mgtRaw h_regs h_outs h_intc
      | apply K.mgtNack h_regs h_cnts h_outs h_intc h_mgt | apply K.mgtStretch h_mgt | apply K.mgtStop h_regs
      | refine Keeps.ite (fun _ => ?_) (fun _ => ?_)
    | dsimp only | split | simp only [Keeps.lit_mgt h_mgt])

theorem mgtStretchEnd {pset : List Part} {z0 : State} {s : State} (h_regs : Part.regs ∈ pset) (h_cnts : Part.cnts
    ∈ pset) (h_outs : Part.outs ∈ pset) (h_intc : Part.intc ∈ pset) (h_sys : Part.sys ∈ pset) (h_time : Part.time ∈
    pset) (h_pwr : Part.pwr ∈ pset) (h_mgt : Part.mgt ∈ pset) (hk : Keeps pset z0 s) : Keeps pset z0
    (Machine.mgtStretchEnd s) := by
  unfold Machine.mgtStretchEnd
  repeat' (first
    | with_reducible first
      | assumption | apply K.advanceCycles h_cnts h_sys h_time h_pwr
      | apply K.mgtNack h_regs h_cnts h_outs h_intc h_mgt | refine Keeps.ite (fun _ => ?_) (fun _ => ?_)
    | dsimp only | split)

theorem mgtRead {pset : List Part} {z0 : State} {s : State} (h_regs : Part.regs ∈ pset) (h_outs : Part.outs ∈
    pset) (h_intc : Part.intc ∈ pset) (h_mgt : Part.mgt ∈ pset) (hk : Keeps pset z0 s) : Keeps pset z0
    (Machine.mgtRead s).1 := by
  unfold Machine.mgtRead
  repeat' (first
    | with_reducible first
      | assumption | apply K.mgtRaw h_regs h_outs h_intc
    | dsimp only | split | simp only [Keeps.lit_mgt h_mgt])

theorem mgtWrite {pset : List Part} {z0 : State} {v : Word} {s : State} (h_mgt : Part.mgt ∈ pset) (hk : Keeps pset
    z0 s) : Keeps pset z0 (Machine.mgtWrite v s) := by
  unfold Machine.mgtWrite
  repeat' (first
    | with_reducible first
      | assumption | refine Keeps.ite (fun _ => ?_) (fun _ => ?_)
    | dsimp only | split | simp only [Keeps.lit_mgt h_mgt])

end Sys2Proof.Laws.K
end

