-- ==== Sys2Proof/Laws/KeepsHost.lean ====
section
/-! SUPPORT. What the operations of `Machine/Host.lean` keep. -/

namespace Sys2Proof.Laws.K

open Sys2Proof Sys2Proof.Machine Sys2Proof.Laws

theorem ringMod {pset : List Part} {z0 : State} {s : State} {r : Nat} {f : RingSt → RingSt} (h_hif : Part.hif ∈
    pset) (hk : Keeps pset z0 s) : Keeps pset z0 (Machine.ringMod s r f) := by
  unfold Machine.ringMod
  repeat' (first
    | with_reducible first
      | assumption | refine Keeps.ite (fun _ => ?_) (fun _ => ?_)
    | dsimp only | split | simp only [Keeps.lit_hif h_hif])

theorem ringPend {pset : List Part} {z0 : State} {s : State} {r : Nat} {b : Bool} (h_regs : Part.regs ∈ pset)
    (h_outs : Part.outs ∈ pset) (h_intc : Part.intc ∈ pset) (hk : Keeps pset z0 s) : Keeps pset z0 (Machine.ringPend s
    r b) := by
  unfold Machine.ringPend
  repeat' (first
    | with_reducible first
      | assumption | apply K.putB h_regs | apply K.setLine h_regs h_outs h_intc)

theorem ringRead {pset : List Part} {z0 : State} {s : State} {r : Nat} (h_regs : Part.regs ∈ pset) (h_hif :
    Part.hif ∈ pset) (hk : Keeps pset z0 s) : Keeps pset z0 (Machine.ringRead s r) := by
  unfold Machine.ringRead
  repeat' (first
    | with_reducible first
      | assumption | apply K.putF h_regs | apply K.ringMod h_hif | refine Keeps.ite (fun _ => ?_) (fun _ => ?_)
    | intro _ _ | dsimp only | split)

theorem ringComplete {pset : List Part} {z0 : State} {s : State} {r : Nat} {c : Completion} (h_regs : Part.regs ∈
    pset) (h_outs : Part.outs ∈ pset) (h_intc : Part.intc ∈ pset) (h_hif : Part.hif ∈ pset) (hk : Keeps pset z0 s) :
    Keeps pset z0 (Machine.ringComplete s r c) := by
  unfold Machine.ringComplete
  repeat' (first
    | with_reducible first
      | assumption | apply K.emit h_outs | apply K.ringMod h_hif | apply K.ringPend h_regs h_outs h_intc
      | refine Keeps.ite (fun _ => ?_) (fun _ => ?_)
    | intro _ _ | dsimp only | split)

theorem ringHalt {pset : List Part} {z0 : State} {s : State} {r : Nat} (h_regs : Part.regs ∈ pset) (h_outs :
    Part.outs ∈ pset) (h_intc : Part.intc ∈ pset) (hk : Keeps pset z0 s) : Keeps pset z0 (Machine.ringHalt s r) := by
  unfold Machine.ringHalt
  repeat' (first
    | with_reducible first
      | assumption | apply K.putB h_regs | apply K.raiseIrq h_regs h_outs h_intc)

theorem txBuffer {pset : List Part} {z0 : State} {s : State} {d : List Byte} {buf : List Byte} {f : HostFetch}
    (h_regs : Part.regs ∈ pset) (h_outs : Part.outs ∈ pset) (h_intc : Part.intc ∈ pset) (hk : Keeps pset z0 s) : Keeps
    pset z0 (Machine.txBuffer s d buf f).1 := by
  unfold Machine.txBuffer
  repeat' (first
    | with_reducible first
      | assumption | apply K.raiseIrq h_regs h_outs h_intc | apply K.fabRead h_regs h_outs h_intc
      | refine Keeps.ite (fun _ => ?_) (fun _ => ?_) | refine Keeps.iteFst (fun _ => ?_) (fun _ => ?_)
    | dsimp only | split)

theorem txItem {pset : List Part} {z0 : State} {s : State} {r : Nat} {d : List Byte} {buf : List Byte} {f :
    HostFetch} (h_regs : Part.regs ∈ pset) (h_cnts : Part.cnts ∈ pset) (h_free : Part.free ∈ pset) (h_mem : Part.mem ∈
    pset) (h_outs : Part.outs ∈ pset) (h_intc : Part.intc ∈ pset) (h_sw : Part.sw ∈ pset) (h_bnk : Part.bnk ∈ pset)
    (h_hif : Part.hif ∈ pset) (hk : Keeps pset z0 s) : Keeps pset z0 (Machine.txItem s r d buf f) := by
  unfold Machine.txItem
  repeat' (first
    | with_reducible first
      | assumption | apply K.bump h_cnts | apply K.swIngress h_regs h_cnts h_free h_mem h_outs h_intc h_sw h_bnk
      | apply K.ringRead h_regs h_hif | apply K.ringComplete h_regs h_outs h_intc h_hif
      | apply K.txBuffer h_regs h_outs h_intc | refine Keeps.ite (fun _ => ?_) (fun _ => ?_)
    | dsimp only | split | simp only [Keeps.lit_hif h_hif])

theorem hostTx {pset : List Part} {z0 : State} {desc : List Byte} {buf : List Byte} {f : HostFetch} {s : State}
    (h_regs : Part.regs ∈ pset) (h_cnts : Part.cnts ∈ pset) (h_free : Part.free ∈ pset) (h_mem : Part.mem ∈ pset)
    (h_outs : Part.outs ∈ pset) (h_intc : Part.intc ∈ pset) (h_sw : Part.sw ∈ pset) (h_bnk : Part.bnk ∈ pset) (h_hif :
    Part.hif ∈ pset) (hk : Keeps pset z0 s) : Keeps pset z0 (Machine.hostTx desc buf f s) := by
  unfold Machine.hostTx
  repeat' (first
    | with_reducible first
      | assumption | apply K.ringHalt h_regs h_outs h_intc
      | apply K.txItem h_regs h_cnts h_free h_mem h_outs h_intc h_sw h_bnk h_hif
      | refine Keeps.ite (fun _ => ?_) (fun _ => ?_)
    | dsimp only | split)

theorem rxBuffer {pset : List Part} {z0 : State} {s : State} {d : List Byte} {bytes : List Byte} (h_regs :
    Part.regs ∈ pset) (h_mem : Part.mem ∈ pset) (h_outs : Part.outs ∈ pset) (h_intc : Part.intc ∈ pset) (h_bnk :
    Part.bnk ∈ pset) (hk : Keeps pset z0 s) : Keeps pset z0 (Machine.rxBuffer s d bytes).1 := by
  unfold Machine.rxBuffer
  repeat' (first
    | with_reducible first
      | assumption | apply K.emit h_outs | apply K.fabWrite h_regs h_mem h_outs h_intc h_bnk
      | refine Keeps.ite (fun _ => ?_) (fun _ => ?_) | refine Keeps.iteFst (fun _ => ?_) (fun _ => ?_)
    | dsimp only | split)

theorem rxItem {pset : List Part} {z0 : State} {s : State} {r : Nat} {d : List Byte} {started : Bool} {rest : List
    Byte} (h_regs : Part.regs ∈ pset) (h_mem : Part.mem ∈ pset) (h_outs : Part.outs ∈ pset) (h_intc : Part.intc ∈
    pset) (h_bnk : Part.bnk ∈ pset) (h_hif : Part.hif ∈ pset) (hk : Keeps pset z0 s) : Keeps pset z0 (Machine.rxItem s
    r d started rest).1 := by
  unfold Machine.rxItem
  repeat' (first
    | with_reducible first
      | assumption | apply K.ringRead h_regs h_hif | apply K.ringComplete h_regs h_outs h_intc h_hif
      | apply K.rxBuffer h_regs h_mem h_outs h_intc h_bnk | refine Keeps.ite (fun _ => ?_) (fun _ => ?_)
      | refine Keeps.iteFst (fun _ => ?_) (fun _ => ?_)
    | dsimp only | split)

theorem rxFill {pset : List Part} {z0 : State} {s : State} {r : Nat} {descs : List (List Byte)} {started : Bool}
    {rest : List Byte} (h_regs : Part.regs ∈ pset) (h_mem : Part.mem ∈ pset) (h_outs : Part.outs ∈ pset) (h_intc :
    Part.intc ∈ pset) (h_bnk : Part.bnk ∈ pset) (h_hif : Part.hif ∈ pset) (hk : Keeps pset z0 s) : Keeps pset z0
    (Machine.rxFill s r descs started rest).1 := by
  induction descs generalizing s r started rest with
  | nil =>
    unfold Machine.rxFill
    repeat' (first
      | with_reducible first
        | assumption | apply K.rxItem h_regs h_mem h_outs h_intc h_bnk h_hif
        | refine Keeps.ite (fun _ => ?_) (fun _ => ?_) | refine Keeps.iteFst (fun _ => ?_) (fun _ => ?_)
      | dsimp only | split)
  | cons _ _ ih =>
    unfold Machine.rxFill
    repeat' (first
      | with_reducible first
        | assumption | apply ih | apply K.rxItem h_regs h_mem h_outs h_intc h_bnk h_hif
        | refine Keeps.ite (fun _ => ?_) (fun _ => ?_) | refine Keeps.iteFst (fun _ => ?_) (fun _ => ?_)
      | dsimp only | split)

theorem ringStopped {pset : List Part} {z0 : State} {s : State} {r : Nat} (h_regs : Part.regs ∈ pset) (h_hif :
    Part.hif ∈ pset) (hk : Keeps pset z0 s) : Keeps pset z0 (Machine.ringStopped s r) := by
  unfold Machine.ringStopped
  repeat' (first
    | with_reducible first
      | assumption | apply K.putB h_regs | apply K.ringMod h_hif | refine Keeps.ite (fun _ => ?_) (fun _ => ?_)
    | intro _ _ | dsimp only | split)

theorem hostRx {pset : List Part} {z0 : State} {descs : List (List Byte)} {f : HostFetch} {s : State} (h_regs :
    Part.regs ∈ pset) (h_cnts : Part.cnts ∈ pset) (h_free : Part.free ∈ pset) (h_mem : Part.mem ∈ pset) (h_outs :
    Part.outs ∈ pset) (h_intc : Part.intc ∈ pset) (h_sw : Part.sw ∈ pset) (h_gate : Part.gate ∈ pset) (h_vlt :
    Part.vlt ∈ pset) (h_bnk : Part.bnk ∈ pset) (h_hif : Part.hif ∈ pset) (hk : Keeps pset z0 s) : Keeps pset z0
    (Machine.hostRx descs f s) := by
  unfold Machine.hostRx
  repeat' (first
    | with_reducible first
      | assumption | apply K.bump h_cnts | apply K.unref h_regs h_mem h_outs h_intc h_sw h_bnk
      | apply K.exitDrop h_regs h_cnts h_free h_mem h_outs h_intc h_sw h_gate h_vlt h_bnk | apply K.ringMod h_hif
      | apply K.ringHalt h_regs h_outs h_intc | apply K.rxFill h_regs h_mem h_outs h_intc h_bnk h_hif
      | apply K.ringStopped h_regs h_hif | refine Keeps.ite (fun _ => ?_) (fun _ => ?_)
    | intro _ _ | dsimp only | split | refine Keeps.ofFst (by with_reducible assumption) ?_
    | refine Keeps.ofSnd (by with_reducible assumption) ?_ | simp only [Keeps.lit_sw h_sw])

theorem ringOff {pset : List Part} {z0 : State} {s : State} {r : Nat} (h_regs : Part.regs ∈ pset) (h_hif :
    Part.hif ∈ pset) (hk : Keeps pset z0 s) : Keeps pset z0 (Machine.ringOff s r) := by
  unfold Machine.ringOff
  repeat' (first
    | with_reducible first
      | assumption | apply K.putB h_regs | apply K.ringMod h_hif | refine Keeps.ite (fun _ => ?_) (fun _ => ?_)
    | intro _ _ | dsimp only | split)

theorem ringOn {pset : List Part} {z0 : State} {s : State} {r : Nat} (h_regs : Part.regs ∈ pset) (h_hif : Part.hif
    ∈ pset) (hk : Keeps pset z0 s) : Keeps pset z0 (Machine.ringOn s r) := by
  unfold Machine.ringOn
  repeat' (first
    | with_reducible first
      | assumption | apply K.putB h_regs | apply K.ringMod h_hif
    | intro _ _ | dsimp only)

theorem hifWrite {pset : List Part} {z0 : State} {m : Master} {off : Nat} {v : Word} {s : State} (h_regs :
    Part.regs ∈ pset) (h_outs : Part.outs ∈ pset) (h_intc : Part.intc ∈ pset) (h_hif : Part.hif ∈ pset) (hk : Keeps
    pset z0 s) : Keeps pset z0 (Machine.hifWrite m off v s) := by
  unfold Machine.hifWrite
  repeat' (first
    | with_reducible first
      | assumption | apply K.recErr h_regs h_outs h_intc | apply K.plainWrite h_regs h_outs h_intc
      | apply K.ringMod h_hif | apply K.ringPend h_regs h_outs h_intc | apply K.ringOff h_regs h_hif
      | apply K.ringOn h_regs h_hif | refine Keeps.ite (fun _ => ?_) (fun _ => ?_)
    | intro _ _ | dsimp only | split | refine Keeps.ofFst (by with_reducible assumption) ?_
    | refine Keeps.ofSnd (by with_reducible assumption) ?_)

theorem modExpiry {pset : List Part} {z0 : State} {r : Nat} {s : State} (h_regs : Part.regs ∈ pset) (h_cnts :
    Part.cnts ∈ pset) (h_outs : Part.outs ∈ pset) (h_intc : Part.intc ∈ pset) (h_sys : Part.sys ∈ pset) (h_time :
    Part.time ∈ pset) (h_pwr : Part.pwr ∈ pset) (hk : Keeps pset z0 s) : Keeps pset z0 (Machine.modExpiry r s) := by
  unfold Machine.modExpiry
  repeat' (first
    | with_reducible first
      | assumption | apply K.advanceNs h_cnts h_sys h_time h_pwr | apply K.ringPend h_regs h_outs h_intc
      | refine Keeps.ite (fun _ => ?_) (fun _ => ?_)
    | dsimp only | split)

theorem linkPut {pset : List Part} {z0 : State} {w : Word} {s : State} (h_regs : Part.regs ∈ pset) (h_outs :
    Part.outs ∈ pset) (h_intc : Part.intc ∈ pset) (hk : Keeps pset z0 s) : Keeps pset z0 (Machine.linkPut w s) := by
  unfold Machine.linkPut
  repeat' (first
    | with_reducible first
      | assumption | apply K.setR h_regs | apply K.raiseIrq h_regs h_outs h_intc
      | refine Keeps.ite (fun _ => ?_) (fun _ => ?_)
    | dsimp only | split)

theorem ringLost {pset : List Part} {z0 : State} {s : State} {r : Nat} {n : Nat} (h_regs : Part.regs ∈ pset)
    (h_cnts : Part.cnts ∈ pset) (h_hif : Part.hif ∈ pset) (hk : Keeps pset z0 s) : Keeps pset z0 (Machine.ringLost s r
    n) := by
  unfold Machine.ringLost
  repeat' (first
    | with_reducible first
      | assumption | apply K.setR h_regs | apply K.bumpN h_cnts | apply K.ringRead h_regs h_hif
      | refine Keeps.ite (fun _ => ?_) (fun _ => ?_) | refine Keeps.foldl (fun _ _ _ => ?_) ?_
    | intro _ _ | dsimp only | split)

theorem ringKill {pset : List Part} {z0 : State} {s : State} {r : Nat} (h_regs : Part.regs ∈ pset) (h_cnts :
    Part.cnts ∈ pset) (h_mem : Part.mem ∈ pset) (h_outs : Part.outs ∈ pset) (h_intc : Part.intc ∈ pset) (h_sw :
    Part.sw ∈ pset) (h_bnk : Part.bnk ∈ pset) (h_hif : Part.hif ∈ pset) (hk : Keeps pset z0 s) : Keeps pset z0
    (Machine.ringKill s r) := by
  unfold Machine.ringKill
  repeat' (first
    | with_reducible first
      | assumption | apply K.putB h_regs | apply K.bump h_cnts | apply K.unref h_regs h_mem h_outs h_intc h_sw h_bnk
      | apply K.ringMod h_hif | refine Keeps.ite (fun _ => ?_) (fun _ => ?_)
    | intro _ _ | dsimp only | split | simp only [Keeps.lit_sw h_sw])

theorem hostDown {pset : List Part} {z0 : State} {cut : List (Nat × Nat)} {s : State} (h_regs : Part.regs ∈ pset)
    (h_cnts : Part.cnts ∈ pset) (h_mem : Part.mem ∈ pset) (h_outs : Part.outs ∈ pset) (h_intc : Part.intc ∈ pset)
    (h_sw : Part.sw ∈ pset) (h_bnk : Part.bnk ∈ pset) (h_hif : Part.hif ∈ pset) (hk : Keeps pset z0 s) : Keeps pset z0
    (Machine.hostDown cut s) := by
  unfold Machine.hostDown
  repeat' (first
    | with_reducible first
      | assumption | apply K.freeLocksOf h_regs h_outs h_intc | apply K.ringLost h_regs h_cnts h_hif
      | apply K.ringKill h_regs h_cnts h_mem h_outs h_intc h_sw h_bnk h_hif | refine Keeps.foldl (fun _ _ _ => ?_) ?_
      | refine Keeps.foldlFst (fun _ _ _ => ?_) ?_
    | intro _ _ | dsimp only)

theorem hostLoss {pset : List Part} {z0 : State} {why : HostLoss} {cut : List (Nat × Nat)} {s : State} (h_regs :
    Part.regs ∈ pset) (h_cnts : Part.cnts ∈ pset) (h_mem : Part.mem ∈ pset) (h_outs : Part.outs ∈ pset) (h_intc :
    Part.intc ∈ pset) (h_sw : Part.sw ∈ pset) (h_bnk : Part.bnk ∈ pset) (h_hif : Part.hif ∈ pset) (hk : Keeps pset z0
    s) : Keeps pset z0 (Machine.hostLoss why cut s) := by
  unfold Machine.hostLoss
  repeat' (first
    | with_reducible first
      | assumption | apply K.raiseIrq h_regs h_outs h_intc | apply K.linkPut h_regs h_outs h_intc
      | apply K.hostDown h_regs h_cnts h_mem h_outs h_intc h_sw h_bnk h_hif
      | refine Keeps.ite (fun _ => ?_) (fun _ => ?_)
    | dsimp only | split | simp only [Keeps.lit_hif h_hif])

theorem perstUp {pset : List Part} {z0 : State} {s : State} (h_hif : Part.hif ∈ pset) (hk : Keeps pset z0 s) :
    Keeps pset z0 (Machine.perstUp s) := by
  unfold Machine.perstUp
  repeat' (first
    | with_reducible first
      | assumption | refine Keeps.ite (fun _ => ?_) (fun _ => ?_)
    | dsimp only | split | simp only [Keeps.lit_hif h_hif])

theorem linkTrain {pset : List Part} {z0 : State} {width : Nat} {speed : Nat} {s : State} (h_regs : Part.regs ∈
    pset) (h_outs : Part.outs ∈ pset) (h_intc : Part.intc ∈ pset) (hk : Keeps pset z0 s) : Keeps pset z0
    (Machine.linkTrain width speed s) := by
  unfold Machine.linkTrain
  repeat' (first
    | with_reducible first
      | assumption | apply K.msixRelease h_regs h_outs | apply K.linkPut h_regs h_outs h_intc
      | refine Keeps.ite (fun _ => ?_) (fun _ => ?_)
    | split)

end Sys2Proof.Laws.K
end

