-- ==== Sys2Proof/Laws/KeepsHeader.lean ====
section
/-! SUPPORT. What the operations of `Machine/Header.lean` keep. -/

namespace Sys2Proof.Laws.K

open Sys2Proof Sys2Proof.Machine Sys2Proof.Laws

theorem snapPage {pset : List Part} {z0 : State} {t : DWord} {s : State} {pg : Page} (h_regs : Part.regs ∈ pset)
    (h_cnts : Part.cnts ∈ pset) (h_snaps : Part.snaps ∈ pset) (hk : Keeps pset z0 s) : Keeps pset z0 (Machine.snapPage
    t s pg) := by
  unfold Machine.snapPage
  repeat' (first
    | with_reducible first
      | assumption | apply K.setR h_regs | apply K.putB h_regs | apply K.setR64 h_regs
      | apply K.snapRange h_cnts h_snaps
    | dsimp only)

theorem snapCmd {pset : List Part} {z0 : State} {pg : Page} {s : State} (h_regs : Part.regs ∈ pset) (h_cnts :
    Part.cnts ∈ pset) (h_snaps : Part.snaps ∈ pset) (hk : Keeps pset z0 s) : Keeps pset z0 (Machine.snapCmd pg s) :=
    by
  unfold Machine.snapCmd
  repeat' (first
    | with_reducible first
      | assumption | apply K.snapPage h_regs h_cnts h_snaps | refine Keeps.ite (fun _ => ?_) (fun _ => ?_)
      | refine Keeps.foldl (fun _ _ _ => ?_) ?_
    | split)

theorem cntCtrl {pset : List Part} {z0 : State} {pg : Page} {v : Word} {s : State} (h_regs : Part.regs ∈ pset)
    (h_cnts : Part.cnts ∈ pset) (h_snaps : Part.snaps ∈ pset) (hk : Keeps pset z0 s) : Keeps pset z0 (Machine.cntCtrl
    pg v s) := by
  unfold Machine.cntCtrl
  repeat' (first
    | with_reducible first
      | assumption | apply K.putB h_regs | apply K.snapCmd h_regs h_cnts h_snaps
      | refine Keeps.ite (fun _ => ?_) (fun _ => ?_)
    | dsimp only | split)

theorem irqPut {pset : List Part} {z0 : State} {pg : Page} {v : Word} {s : State} (h_regs : Part.regs ∈ pset)
    (h_outs : Part.outs ∈ pset) (h_intc : Part.intc ∈ pset) (hk : Keeps pset z0 s) : Keeps pset z0 (Machine.irqPut pg
    v s) := by
  unfold Machine.irqPut
  repeat' (first
    | with_reducible first
      | assumption | apply K.setR h_regs | apply K.updIrq h_regs h_outs h_intc
      | refine Keeps.ite (fun _ => ?_) (fun _ => ?_)
    | split)

theorem irqClear {pset : List Part} {z0 : State} {pg : Page} {v : Word} {s : State} (h_regs : Part.regs ∈ pset)
    (h_outs : Part.outs ∈ pset) (h_intc : Part.intc ∈ pset) (hk : Keeps pset z0 s) : Keeps pset z0 (Machine.irqClear
    pg v s) := by
  unfold Machine.irqClear
  repeat' (first
    | with_reducible first
      | assumption | apply K.irqPut h_regs h_outs h_intc)

theorem irqForce {pset : List Part} {z0 : State} {pg : Page} {v : Word} {s : State} (h_regs : Part.regs ∈ pset)
    (h_outs : Part.outs ∈ pset) (h_intc : Part.intc ∈ pset) (hk : Keeps pset z0 s) : Keeps pset z0 (Machine.irqForce
    pg v s) := by
  unfold Machine.irqForce
  repeat' (first
    | with_reducible first
      | assumption | apply K.irqPut h_regs h_outs h_intc)

theorem irqEnable {pset : List Part} {z0 : State} {pg : Page} {v : Word} {s : State} (h_regs : Part.regs ∈ pset)
    (h_outs : Part.outs ∈ pset) (h_intc : Part.intc ∈ pset) (hk : Keeps pset z0 s) : Keeps pset z0 (Machine.irqEnable
    pg v s) := by
  unfold Machine.irqEnable
  repeat' (first
    | with_reducible first
      | assumption | apply K.setR h_regs | apply K.updIrq h_regs h_outs h_intc
      | refine Keeps.ite (fun _ => ?_) (fun _ => ?_)
    | split)

theorem errClear {pset : List Part} {z0 : State} {pg : Page} {v : Word} {s : State} (h_regs : Part.regs ∈ pset)
    (hk : Keeps pset z0 s) : Keeps pset z0 (Machine.errClear pg v s) := by
  unfold Machine.errClear
  repeat' (first
    | with_reducible first
      | assumption | apply K.setR h_regs | refine Keeps.ite (fun _ => ?_) (fun _ => ?_)
    | split)

theorem cfgLock {pset : List Part} {z0 : State} {pg : Page} {v : Word} {s : State} (h_regs : Part.regs ∈ pset) (hk
    : Keeps pset z0 s) : Keeps pset z0 (Machine.cfgLock pg v s) := by
  unfold Machine.cfgLock
  repeat' (first
    | with_reducible first
      | assumption | apply K.putB h_regs | refine Keeps.ite (fun _ => ?_) (fun _ => ?_)
    | split)

theorem switchItems {pset : List Part} {z0 : State} {s : State} (h_regs : Part.regs ∈ pset) (h_cnts : Part.cnts ∈
    pset) (h_free : Part.free ∈ pset) (h_mem : Part.mem ∈ pset) (h_outs : Part.outs ∈ pset) (h_intc : Part.intc ∈
    pset) (h_sw : Part.sw ∈ pset) (h_gate : Part.gate ∈ pset) (h_vlt : Part.vlt ∈ pset) (h_bnk : Part.bnk ∈ pset) (hk
    : Keeps pset z0 s) : Keeps pset z0 (Machine.switchItems s) := by
  unfold Machine.switchItems
  repeat' (first
    | with_reducible first
      | assumption | apply K.releasedEnd h_regs h_cnts h_free h_mem h_outs h_intc h_sw h_gate h_vlt h_bnk
      | refine Keeps.ite (fun _ => ?_) (fun _ => ?_) | refine Keeps.foldl (fun _ _ _ => ?_) ?_
    | intro _ _ | split)

theorem switchEmpty {pset : List Part} {z0 : State} {s : State} (h_sw : Part.sw ∈ pset) (hk : Keeps pset z0 s) :
    Keeps pset z0 (Machine.switchEmpty s) := by
  unfold Machine.switchEmpty
  repeat' (first
    | with_reducible first
      | assumption
    | dsimp only | simp only [Keeps.lit_sw h_sw])

theorem softState {pset : List Part} {z0 : State} {pg : Page} {s : State} (h_regs : Part.regs ∈ pset) (h_cnts :
    Part.cnts ∈ pset) (h_snaps : Part.snaps ∈ pset) (h_free : Part.free ∈ pset) (h_outs : Part.outs ∈ pset) (h_intc :
    Part.intc ∈ pset) (h_sw : Part.sw ∈ pset) (h_eth : Part.eth ∈ pset) (h_gate : Part.gate ∈ pset) (h_fiq : Part.fiq
    ∈ pset) (h_aq : Part.aq ∈ pset) (h_mbx : Part.mbx ∈ pset) (h_hif : Part.hif ∈ pset) (h_time : Part.time ∈ pset)
    (h_plc : Part.plc ∈ pset) (h_mgt : Part.mgt ∈ pset) (h_test : Part.test ∈ pset) (hk : Keeps pset z0 s) : Keeps
    pset z0 (Machine.softState pg s) := by
  unfold Machine.softState
  repeat' (first
    | with_reducible first
      | assumption | apply K.intcRefresh h_regs h_outs h_intc | apply K.setLine h_regs h_outs h_intc
      | apply K.msixRelease h_regs h_outs | apply K.atbFollow h_regs h_outs h_intc h_test
      | apply K.tnsSoft h_regs h_time | apply K.linkSettle h_regs h_cnts h_outs h_intc h_eth
      | apply K.laneStart h_regs h_free | apply K.groupSettle h_regs h_cnts h_snaps h_outs h_intc h_eth
      | apply K.switchEmpty h_sw | refine Keeps.ite (fun _ => ?_) (fun _ => ?_)
      | refine Keeps.foldl (fun _ _ _ => ?_) ?_ | refine Keeps.foldlFst (fun _ _ _ => ?_) ?_
    | intro _ _ | dsimp only | split | simp only [Keeps.lit_sw h_sw] | simp only [Keeps.lit_eth h_eth]
    | simp only [Keeps.lit_gate h_gate] | simp only [Keeps.lit_mbx h_mbx] | simp only [Keeps.lit_hif h_hif]
    | simp only [Keeps.lit_plc h_plc] | simp only [Keeps.lit_mgt h_mgt] | simp only [Keeps.lit_test h_test]
    | simp only [Keeps.lit_fiq_aq h_fiq h_aq])

theorem macItems {pset : List Part} {z0 : State} {p : Nat} {s : State} (h_regs : Part.regs ∈ pset) (h_cnts :
    Part.cnts ∈ pset) (h_free : Part.free ∈ pset) (h_mem : Part.mem ∈ pset) (h_outs : Part.outs ∈ pset) (h_intc :
    Part.intc ∈ pset) (h_sw : Part.sw ∈ pset) (h_gate : Part.gate ∈ pset) (h_vlt : Part.vlt ∈ pset) (h_bnk : Part.bnk
    ∈ pset) (hk : Keeps pset z0 s) : Keeps pset z0 (Machine.macItems p s) := by
  unfold Machine.macItems
  repeat' (first
    | with_reducible first
      | assumption | apply K.releasedEnd h_regs h_cnts h_free h_mem h_outs h_intc h_sw h_gate h_vlt h_bnk
      | refine Keeps.ite (fun _ => ?_) (fun _ => ?_) | refine Keeps.foldl (fun _ _ _ => ?_) ?_
    | intro _ _ | dsimp only | split)

theorem softEnds {pset : List Part} {z0 : State} {pg : Page} {s : State} (h_regs : Part.regs ∈ pset) (h_cnts :
    Part.cnts ∈ pset) (h_free : Part.free ∈ pset) (h_mem : Part.mem ∈ pset) (h_outs : Part.outs ∈ pset) (h_intc :
    Part.intc ∈ pset) (h_sw : Part.sw ∈ pset) (h_eth : Part.eth ∈ pset) (h_gate : Part.gate ∈ pset) (h_vlt : Part.vlt
    ∈ pset) (h_bnk : Part.bnk ∈ pset) (h_plk : Part.plk ∈ pset) (h_mdb : Part.mdb ∈ pset) (h_ptc : Part.ptc ∈ pset)
    (h_time : Part.time ∈ pset) (hk : Keeps pset z0 s) : Keeps pset z0 (Machine.softEnds pg s) := by
  unfold Machine.softEnds
  repeat' (first
    | with_reducible first
      | assumption | apply K.pendEndAll h_regs h_cnts h_free h_mem h_outs h_intc h_sw h_gate h_bnk
      | apply K.tbsInvalid h_regs h_outs h_intc h_vlt h_time
      | apply K.mdbSoft h_regs h_cnts h_free h_mem h_outs h_intc h_sw h_gate h_vlt h_bnk h_mdb
      | apply K.plkSoft h_regs h_cnts h_free h_mem h_outs h_intc h_sw h_gate h_vlt h_bnk h_plk | apply K.mbxEnd h_regs
      | apply K.ptcSoft h_regs h_cnts h_free h_mem h_outs h_intc h_sw h_gate h_vlt h_bnk h_ptc
      | apply K.redCtrl h_regs h_outs h_intc h_eth | apply K.laneStop h_regs h_cnts h_outs h_intc h_sw h_eth
      | apply K.switchItems h_regs h_cnts h_free h_mem h_outs h_intc h_sw h_gate h_vlt h_bnk
      | apply K.macItems h_regs h_cnts h_free h_mem h_outs h_intc h_sw h_gate h_vlt h_bnk
      | refine Keeps.ite (fun _ => ?_) (fun _ => ?_) | refine Keeps.foldl (fun _ _ _ => ?_) ?_
    | intro _ _ | dsimp only | split)

theorem softReset {pset : List Part} {z0 : State} {pg : Page} {s : State} (h_all : ∀ p : Part, p ≠ .falls → p ∈
    pset) (hk : Keeps pset z0 s) : Keeps pset z0 (Machine.softReset pg s) := by
  unfold Machine.softReset
  repeat' (first
    | with_reducible first
      | assumption | apply K.updIrq (h_all _ (by decide)) (h_all _ (by decide)) (h_all _ (by decide))
      | apply K.softState (h_all _ (by decide)) (h_all _ (by decide)) (h_all _ (by decide)) (h_all _ (by decide))
          (h_all _ (by decide)) (h_all _ (by decide)) (h_all _ (by decide)) (h_all _ (by decide)) (h_all _ (by
          decide)) (h_all _ (by decide)) (h_all _ (by decide)) (h_all _ (by decide)) (h_all _ (by decide)) (h_all _
          (by decide)) (h_all _ (by decide)) (h_all _ (by decide)) (h_all _ (by decide))
      | apply K.softEnds (h_all _ (by decide)) (h_all _ (by decide)) (h_all _ (by decide)) (h_all _ (by decide))
          (h_all _ (by decide)) (h_all _ (by decide)) (h_all _ (by decide)) (h_all _ (by decide)) (h_all _ (by
          decide)) (h_all _ (by decide)) (h_all _ (by decide)) (h_all _ (by decide)) (h_all _ (by decide)) (h_all _
          (by decide)) (h_all _ (by decide))
      | refine Keeps.ite (fun _ => ?_) (fun _ => ?_)
    | intro _ _ | dsimp only | split
    | simp only [Keeps.lit_regs_cnts_snaps (h_all _ (by decide)) (h_all _ (by decide)) (h_all _ (by decide))])

theorem enWrite {pset : List Part} {z0 : State} {pg : Page} {v : Bool} {s : State} (h_regs : Part.regs ∈ pset)
    (h_cnts : Part.cnts ∈ pset) (h_snaps : Part.snaps ∈ pset) (h_free : Part.free ∈ pset) (h_mem : Part.mem ∈ pset)
    (h_outs : Part.outs ∈ pset) (h_intc : Part.intc ∈ pset) (h_sw : Part.sw ∈ pset) (h_eth : Part.eth ∈ pset) (h_gate
    : Part.gate ∈ pset) (h_vlt : Part.vlt ∈ pset) (h_bnk : Part.bnk ∈ pset) (h_plk : Part.plk ∈ pset) (h_mdb :
    Part.mdb ∈ pset) (h_ptc : Part.ptc ∈ pset) (hk : Keeps pset z0 s) : Keeps pset z0 (Machine.enWrite pg v s) := by
  unfold Machine.enWrite
  repeat' (first
    | with_reducible first
      | assumption | apply K.putB h_regs
      | apply K.mdbStop h_regs h_cnts h_free h_mem h_outs h_intc h_sw h_gate h_vlt h_bnk h_mdb
      | apply K.plkStop h_regs h_cnts h_free h_mem h_outs h_intc h_sw h_gate h_vlt h_bnk h_plk
      | apply K.ptcFirst h_ptc | apply K.laneEn h_regs h_cnts h_free h_outs h_intc h_sw h_eth
      | apply K.macEnSettle h_regs h_cnts h_outs h_intc h_eth
      | apply K.groupSettle h_regs h_cnts h_snaps h_outs h_intc h_eth | refine Keeps.ite (fun _ => ?_) (fun _ => ?_)
    | dsimp only | split)

theorem blkCtrl {pset : List Part} {z0 : State} {pg : Page} {v : Word} {s : State} (h_all : ∀ p : Part, p ≠ .falls
    → p ∈ pset) (hk : Keeps pset z0 s) : Keeps pset z0 (Machine.blkCtrl pg v s) := by
  unfold Machine.blkCtrl
  repeat' (first
    | with_reducible first
      | assumption | apply K.blkPowerReq (h_all _ (by decide)) | apply K.softReset h_all
      | apply K.enWrite (h_all _ (by decide)) (h_all _ (by decide)) (h_all _ (by decide)) (h_all _ (by decide))
          (h_all _ (by decide)) (h_all _ (by decide)) (h_all _ (by decide)) (h_all _ (by decide)) (h_all _ (by
          decide)) (h_all _ (by decide)) (h_all _ (by decide)) (h_all _ (by decide)) (h_all _ (by decide)) (h_all _
          (by decide)) (h_all _ (by decide))
      | refine Keeps.ite (fun _ => ?_) (fun _ => ?_)
    | dsimp only | split)

theorem powerEnds {pset : List Part} {z0 : State} {b : Blk} {old : Nat} {new : Nat} {s : State} (h_regs :
    Part.regs ∈ pset) (h_cnts : Part.cnts ∈ pset) (h_mem : Part.mem ∈ pset) (h_outs : Part.outs ∈ pset) (h_intc :
    Part.intc ∈ pset) (h_sw : Part.sw ∈ pset) (h_vlt : Part.vlt ∈ pset) (h_bnk : Part.bnk ∈ pset) (h_hif : Part.hif ∈
    pset) (h_time : Part.time ∈ pset) (h_pwr : Part.pwr ∈ pset) (hk : Keeps pset z0 s) : Keeps pset z0
    (Machine.powerEnds b old new s) := by
  unfold Machine.powerEnds
  repeat' (first
    | with_reducible first
      | assumption | apply K.tbsInvalid h_regs h_outs h_intc h_vlt h_time
      | apply K.padsHold h_regs h_outs h_intc h_pwr
      | apply K.hostLoss h_regs h_cnts h_mem h_outs h_intc h_sw h_bnk h_hif
      | refine Keeps.ite (fun _ => ?_) (fun _ => ?_)
    | dsimp only | split)

theorem powerDone {pset : List Part} {z0 : State} {pg : Page} {s : State} (h_all : ∀ p : Part, p ≠ .falls → p ∈
    pset) (hk : Keeps pset z0 s) : Keeps pset z0 (Machine.powerDone pg s) := by
  unfold Machine.powerDone
  repeat' (first
    | with_reducible first
      | assumption | apply K.putF (h_all _ (by decide)) | apply K.putB (h_all _ (by decide))
      | apply K.updIrq (h_all _ (by decide)) (h_all _ (by decide)) (h_all _ (by decide))
      | apply K.clearPage (h_all _ (by decide)) (h_all _ (by decide)) (h_all _ (by decide))
      | apply K.softState (h_all _ (by decide)) (h_all _ (by decide)) (h_all _ (by decide)) (h_all _ (by decide))
          (h_all _ (by decide)) (h_all _ (by decide)) (h_all _ (by decide)) (h_all _ (by decide)) (h_all _ (by
          decide)) (h_all _ (by decide)) (h_all _ (by decide)) (h_all _ (by decide)) (h_all _ (by decide)) (h_all _
          (by decide)) (h_all _ (by decide)) (h_all _ (by decide)) (h_all _ (by decide))
      | apply K.powerEnds (h_all _ (by decide)) (h_all _ (by decide)) (h_all _ (by decide)) (h_all _ (by decide))
          (h_all _ (by decide)) (h_all _ (by decide)) (h_all _ (by decide)) (h_all _ (by decide)) (h_all _ (by
          decide)) (h_all _ (by decide)) (h_all _ (by decide))
      | refine Keeps.ite (fun _ => ?_) (fun _ => ?_)
    | intro _ _ | dsimp only | split)

theorem hdrWrite {pset : List Part} {z0 : State} {pg : Page} {off : Nat} {v : Word} {s : State} (h_all : ∀ p :
    Part, p ≠ .falls → p ∈ pset) (hk : Keeps pset z0 s) : Keeps pset z0 (Machine.hdrWrite pg off v s) := by
  unfold Machine.hdrWrite
  repeat' (first
    | with_reducible first
      | assumption | apply K.cntCtrl (h_all _ (by decide)) (h_all _ (by decide)) (h_all _ (by decide))
      | apply K.irqClear (h_all _ (by decide)) (h_all _ (by decide)) (h_all _ (by decide))
      | apply K.irqForce (h_all _ (by decide)) (h_all _ (by decide)) (h_all _ (by decide))
      | apply K.irqEnable (h_all _ (by decide)) (h_all _ (by decide)) (h_all _ (by decide))
      | apply K.errClear (h_all _ (by decide)) | apply K.cfgLock (h_all _ (by decide)) | apply K.blkCtrl h_all
    | dsimp only | split)

theorem onHeader {pset : List Part} {z0 : State} {m : Master} {a : Nat} {off : Nat} {f : Page → State → State} {s
    : State} (h_regs : Part.regs ∈ pset) (h_outs : Part.outs ∈ pset) (h_resp : Part.resp ∈ pset) (h_intc : Part.intc ∈
    pset) (h_f : ∀ u0 u1, Keeps pset z0 u1 → Keeps pset z0 (f u0 u1)) (hk : Keeps pset z0 s) : Keeps pset z0
    (Machine.onHeader m a off f s) := by
  unfold Machine.onHeader
  repeat' (first
    | with_reducible first
      | assumption | apply h_f | apply K.gatedWrite h_regs h_outs h_resp h_intc
    | intro _ _ | dsimp only | split | simp only [id_eq])

theorem wpolWrite {pset : List Part} {z0 : State} {m : Master} {t : Nat} {v : Word} {s : State} (h_regs :
    Part.regs ∈ pset) (h_outs : Part.outs ∈ pset) (h_intc : Part.intc ∈ pset) (hk : Keeps pset z0 s) : Keeps pset z0
    (Machine.wpolWrite m t v s) := by
  unfold Machine.wpolWrite
  repeat' (first
    | with_reducible first
      | assumption | apply K.raiseIrq h_regs h_outs h_intc | apply K.plainWrite h_regs h_outs h_intc
      | refine Keeps.ite (fun _ => ?_) (fun _ => ?_)
    | dsimp only | split)

theorem swSource {pset : List Part} {z0 : State} {b : Bool} {v : Word} {s : State} (h_regs : Part.regs ∈ pset)
    (h_outs : Part.outs ∈ pset) (h_intc : Part.intc ∈ pset) (hk : Keeps pset z0 s) : Keeps pset z0 (Machine.swSource b
    v s) := by
  unfold Machine.swSource
  repeat' (first
    | with_reducible first
      | assumption | apply K.setLine h_regs h_outs h_intc | apply K.raiseIrq h_regs h_outs h_intc
      | refine Keeps.ite (fun _ => ?_) (fun _ => ?_)
    | dsimp only | split)

theorem routeWrite {pset : List Part} {z0 : State} {m : Master} {n : Nat} {v : Word} {s : State} (h_regs :
    Part.regs ∈ pset) (h_outs : Part.outs ∈ pset) (h_intc : Part.intc ∈ pset) (hk : Keeps pset z0 s) : Keeps pset z0
    (Machine.routeWrite m n v s) := by
  unfold Machine.routeWrite
  repeat' (first
    | with_reducible first
      | assumption | apply K.setR h_regs | apply K.intcRefresh h_regs h_outs h_intc
      | apply K.raiseIrq h_regs h_outs h_intc | apply K.deny h_regs h_outs h_intc
      | refine Keeps.ite (fun _ => ?_) (fun _ => ?_)
    | dsimp only | split)

theorem maskWrite {pset : List Part} {z0 : State} {k : Nat} {v : Word} {s : State} (h_regs : Part.regs ∈ pset)
    (h_outs : Part.outs ∈ pset) (h_intc : Part.intc ∈ pset) (hk : Keeps pset z0 s) : Keeps pset z0 (Machine.maskWrite
    k v s) := by
  unfold Machine.maskWrite
  repeat' (first
    | with_reducible first
      | assumption | apply K.setR h_regs | apply K.intcRefresh h_regs h_outs h_intc)

theorem hostEoi {pset : List Part} {z0 : State} {v : Nat} {s : State} (h_regs : Part.regs ∈ pset) (h_outs :
    Part.outs ∈ pset) (h_intc : Part.intc ∈ pset) (hk : Keeps pset z0 s) : Keeps pset z0 (Machine.hostEoi v s) := by
  unfold Machine.hostEoi
  repeat' (first
    | with_reducible first
      | assumption | apply K.msixDue h_regs h_outs | apply K.raiseIrq h_regs h_outs h_intc
      | refine Keeps.ite (fun _ => ?_) (fun _ => ?_)
    | dsimp only | split)

theorem msixTable {pset : List Part} {z0 : State} {m : Master} {off : Nat} {v : Word} {s : State} (h_regs :
    Part.regs ∈ pset) (h_outs : Part.outs ∈ pset) (h_intc : Part.intc ∈ pset) (hk : Keeps pset z0 s) : Keeps pset z0
    (Machine.msixTable m off v s) := by
  unfold Machine.msixTable
  repeat' (first
    | with_reducible first
      | assumption | apply K.msixRelease h_regs h_outs | apply K.plainWrite h_regs h_outs h_intc)

end Sys2Proof.Laws.K
end

