-- ==== Sys2Proof/Laws/KeepsBus.lean ====
section
/-! SUPPORT. What the operations of `Machine/Bus.lean` keep. -/

namespace Sys2Proof.Laws.K

open Sys2Proof Sys2Proof.Machine Sys2Proof.Laws

theorem plainPage {pset : List Part} {z0 : State} {m : Master} {pg : Page} {off : Nat} {v : Word} {s : State}
    (h_regs : Part.regs ∈ pset) (h_outs : Part.outs ∈ pset) (h_intc : Part.intc ∈ pset) (hk : Keeps pset z0 s) : Keeps
    pset z0 (Machine.plainPage m pg off v s) := by
  unfold Machine.plainPage
  repeat' (first
    | with_reducible first
      | assumption | apply K.plainWrite h_regs h_outs h_intc)

theorem wrCLK {pset : List Part} {z0 : State} {m : Master} {pg : Page} {off : Nat} {v : Word} {s : State} (h_regs
    : Part.regs ∈ pset) (h_cnts : Part.cnts ∈ pset) (h_outs : Part.outs ∈ pset) (h_intc : Part.intc ∈ pset) (hk :
    Keeps pset z0 s) : Keeps pset z0 (Machine.wrCLK m pg off v s) := by
  unfold Machine.wrCLK
  repeat' (first
    | with_reducible first
      | assumption | apply K.stepWrite h_regs h_cnts h_outs h_intc | apply K.plainPage h_regs h_outs h_intc
      | refine Keeps.ite (fun _ => ?_) (fun _ => ?_)
    | split)

theorem wrPWR {pset : List Part} {z0 : State} {m : Master} {pg : Page} {off : Nat} {v : Word} {s : State} (h_regs
    : Part.regs ∈ pset) (h_cnts : Part.cnts ∈ pset) (h_snaps : Part.snaps ∈ pset) (h_free : Part.free ∈ pset) (h_outs
    : Part.outs ∈ pset) (h_intc : Part.intc ∈ pset) (h_sys : Part.sys ∈ pset) (h_eth : Part.eth ∈ pset) (h_time :
    Part.time ∈ pset) (h_pwr : Part.pwr ∈ pset) (hk : Keeps pset z0 s) : Keeps pset z0 (Machine.wrPWR m pg off v s) :=
    by
  unfold Machine.wrPWR
  repeat' (first
    | with_reducible first
      | assumption | apply K.putF h_regs | apply K.fresh h_free | apply K.pwrReq h_regs h_outs h_intc h_sys h_pwr
      | apply K.groupSettle h_regs h_cnts h_snaps h_outs h_intc h_eth | apply K.padRelease h_regs
      | apply K.rtcSecLo h_time | apply K.rtcSecHi h_time | apply K.plainPage h_regs h_outs h_intc
      | refine Keeps.ite (fun _ => ?_) (fun _ => ?_)
    | dsimp only | split)

theorem wrINT {pset : List Part} {z0 : State} {m : Master} {pg : Page} {off : Nat} {v : Word} {s : State} (h_regs
    : Part.regs ∈ pset) (h_outs : Part.outs ∈ pset) (h_intc : Part.intc ∈ pset) (hk : Keeps pset z0 s) : Keeps pset z0
    (Machine.wrINT m pg off v s) := by
  unfold Machine.wrINT
  repeat' (first
    | with_reducible first
      | assumption | apply K.swSource h_regs h_outs h_intc | apply K.routeWrite h_regs h_outs h_intc
      | apply K.maskWrite h_regs h_outs h_intc | apply K.hostEoi h_regs h_outs h_intc
      | apply K.msixTable h_regs h_outs h_intc | apply K.plainPage h_regs h_outs h_intc
      | refine Keeps.ite (fun _ => ?_) (fun _ => ?_)
    | split)

theorem wrSEC {pset : List Part} {z0 : State} {m : Master} {pg : Page} {off : Nat} {v : Word} {s : State} (h_regs
    : Part.regs ∈ pset) (h_outs : Part.outs ∈ pset) (h_intc : Part.intc ∈ pset) (hk : Keeps pset z0 s) : Keeps pset z0
    (Machine.wrSEC m pg off v s) := by
  unfold Machine.wrSEC
  repeat' (first
    | with_reducible first
      | assumption | apply K.wpolWrite h_regs h_outs h_intc | apply K.plainPage h_regs h_outs h_intc
      | refine Keeps.ite (fun _ => ?_) (fun _ => ?_)
    | split)

theorem wrVLT {pset : List Part} {z0 : State} {m : Master} {pg : Page} {off : Nat} {v : Word} {s : State} (h_regs
    : Part.regs ∈ pset) (h_outs : Part.outs ∈ pset) (h_intc : Part.intc ∈ pset) (h_vlt : Part.vlt ∈ pset) (hk : Keeps
    pset z0 s) : Keeps pset z0 (Machine.wrVLT m pg off v s) := by
  unfold Machine.wrVLT
  repeat' (first
    | with_reducible first
      | assumption | apply K.cntCmd h_regs h_outs h_intc h_vlt | apply K.exportCmd h_regs h_outs h_intc h_vlt
      | apply K.plainPage h_regs h_outs h_intc | refine Keeps.ite (fun _ => ?_) (fun _ => ?_)
    | split)

theorem wrMGT {pset : List Part} {z0 : State} {m : Master} {pg : Page} {off : Nat} {v : Word} {s : State} (h_regs
    : Part.regs ∈ pset) (h_outs : Part.outs ∈ pset) (h_intc : Part.intc ∈ pset) (h_mgt : Part.mgt ∈ pset) (hk : Keeps
    pset z0 s) : Keeps pset z0 (Machine.wrMGT m pg off v s) := by
  unfold Machine.wrMGT
  repeat' (first
    | with_reducible first
      | assumption | apply K.mgtWrite h_mgt | apply K.plainPage h_regs h_outs h_intc
      | refine Keeps.ite (fun _ => ?_) (fun _ => ?_)
    | split)

theorem wrATB {pset : List Part} {z0 : State} {m : Master} {pg : Page} {off : Nat} {v : Word} {s : State} (h_regs
    : Part.regs ∈ pset) (h_outs : Part.outs ∈ pset) (h_intc : Part.intc ∈ pset) (h_test : Part.test ∈ pset) (hk :
    Keeps pset z0 s) : Keeps pset z0 (Machine.wrATB m pg off v s) := by
  unfold Machine.wrATB
  repeat' (first
    | with_reducible first
      | assumption | apply K.atbSelect h_regs h_outs h_intc h_test | apply K.plainPage h_regs h_outs h_intc
      | refine Keeps.ite (fun _ => ?_) (fun _ => ?_)
    | split)

theorem wrPLC {pset : List Part} {z0 : State} {m : Master} {pg : Page} {off : Nat} {v : Word} {s : State} (h_regs
    : Part.regs ∈ pset) (h_cnts : Part.cnts ∈ pset) (h_free : Part.free ∈ pset) (h_mem : Part.mem ∈ pset) (h_outs :
    Part.outs ∈ pset) (h_intc : Part.intc ∈ pset) (h_sw : Part.sw ∈ pset) (h_bnk : Part.bnk ∈ pset) (h_eng : Part.eng
    ∈ pset) (h_plc : Part.plc ∈ pset) (h_cores : Part.cores ∈ pset) (hk : Keeps pset z0 s) : Keeps pset z0
    (Machine.wrPLC m pg off v s) := by
  unfold Machine.wrPLC
  repeat' (first
    | with_reducible first
      | assumption | apply K.fresh h_free | apply K.deny h_regs h_outs h_intc
      | apply K.jobRecordRetry h_regs h_mem h_outs h_intc h_bnk h_plc
      | apply K.plcCmd h_regs h_cnts h_free h_mem h_outs h_intc h_sw h_bnk h_eng h_plc h_cores
      | apply K.bindWrite h_regs h_cnts h_outs h_intc h_plc | apply K.admitPut h_regs
      | apply K.plainPage h_regs h_outs h_intc | refine Keeps.ite (fun _ => ?_) (fun _ => ?_)
    | dsimp only | split)

theorem wrMBX {pset : List Part} {z0 : State} {m : Master} {_pg : Page} {off : Nat} {v : Word} {s : State} (h_regs
    : Part.regs ∈ pset) (h_outs : Part.outs ∈ pset) (h_intc : Part.intc ∈ pset) (h_sys : Part.sys ∈ pset) (h_mbx :
    Part.mbx ∈ pset) (h_pwr : Part.pwr ∈ pset) (hk : Keeps pset z0 s) : Keeps pset z0 (Machine.wrMBX m _pg off v s) :=
    by
  unfold Machine.wrMBX
  repeat' (first
    | with_reducible first
      | assumption | apply K.mbxLockWrite h_regs h_outs h_intc
      | apply K.mbxSend h_regs h_outs h_intc h_sys h_mbx h_pwr | apply K.mbxAck h_regs h_outs h_intc
      | apply K.mbxResetCmd h_regs h_outs h_intc | apply K.mbxCfg h_regs h_outs h_intc
      | apply K.mbxHdr h_regs h_outs h_intc | apply K.mbxData h_regs h_outs h_intc
      | apply K.mbxEvent h_regs h_outs h_intc | refine Keeps.ite (fun _ => ?_) (fun _ => ?_)
    | dsimp only | split)

theorem wrLCK {pset : List Part} {z0 : State} {m : Master} {_pg : Page} {off : Nat} {v : Word} {s : State} (h_regs
    : Part.regs ∈ pset) (h_outs : Part.outs ∈ pset) (h_intc : Part.intc ∈ pset) (hk : Keeps pset z0 s) : Keeps pset z0
    (Machine.wrLCK m _pg off v s) := by
  unfold Machine.wrLCK
  repeat' (first
    | with_reducible first
      | assumption | apply K.lockWrite h_regs h_outs h_intc | apply K.lockForce h_regs h_outs h_intc
      | refine Keeps.ite (fun _ => ?_) (fun _ => ?_)
    | split)

theorem wrFIQ {pset : List Part} {z0 : State} {m : Master} {_pg : Page} {off : Nat} {v : Word} {s : State} (h_regs
    : Part.regs ∈ pset) (h_cnts : Part.cnts ∈ pset) (h_outs : Part.outs ∈ pset) (h_intc : Part.intc ∈ pset) (h_fiq :
    Part.fiq ∈ pset) (h_aq : Part.aq ∈ pset) (hk : Keeps pset z0 s) : Keeps pset z0 (Machine.wrFIQ m _pg off v s) :=
    by
  unfold Machine.wrFIQ
  repeat' (first
    | with_reducible first
      | assumption | apply K.fiqCfg h_regs h_outs h_intc h_fiq | apply K.aqSet h_regs h_outs h_intc h_aq
      | apply K.aqPost h_regs h_cnts h_outs h_intc h_aq | refine Keeps.ite (fun _ => ?_) (fun _ => ?_)
    | split)

theorem wrBNK {pset : List Part} {z0 : State} {m : Master} {pg : Page} {off : Nat} {v : Word} {s : State} (h_regs
    : Part.regs ∈ pset) (h_mem : Part.mem ∈ pset) (h_outs : Part.outs ∈ pset) (h_intc : Part.intc ∈ pset) (h_sw :
    Part.sw ∈ pset) (h_vlt : Part.vlt ∈ pset) (h_bnk : Part.bnk ∈ pset) (hk : Keeps pset z0 s) : Keeps pset z0
    (Machine.wrBNK m pg off v s) := by
  unfold Machine.wrBNK
  repeat' (first
    | with_reducible first
      | assumption | apply K.setR h_regs | apply K.bankCtrl h_regs h_mem h_outs h_intc h_sw h_bnk
      | apply K.bnkCmd h_regs h_mem h_outs h_intc h_vlt h_bnk | apply K.plainPage h_regs h_outs h_intc
      | refine Keeps.ite (fun _ => ?_) (fun _ => ?_)
    | split)

theorem wrSWC {pset : List Part} {z0 : State} {m : Master} {pg : Page} {off : Nat} {v : Word} {s : State} (h_regs
    : Part.regs ∈ pset) (h_cnts : Part.cnts ∈ pset) (h_outs : Part.outs ∈ pset) (h_intc : Part.intc ∈ pset) (h_sw :
    Part.sw ∈ pset) (h_eth : Part.eth ∈ pset) (hk : Keeps pset z0 s) : Keeps pset z0 (Machine.wrSWC m pg off v s) :=
    by
  unfold Machine.wrSWC
  repeat' (first
    | with_reducible first
      | assumption | apply K.setR h_regs | apply K.freeLowCheck h_regs h_outs h_intc
      | apply K.swRingLevels h_regs h_outs h_intc | apply K.shapeSettle h_sw
      | apply K.gateCtrl h_regs h_outs h_intc h_sw | apply K.glistWrite h_regs h_outs h_intc
      | apply K.tblCmd h_regs h_outs h_intc h_sw | apply K.lpiSettle h_regs h_cnts h_outs h_intc h_eth
      | apply K.plainPage h_regs h_outs h_intc | refine Keeps.ite (fun _ => ?_) (fun _ => ?_)
    | split)

theorem wrFDB {pset : List Part} {z0 : State} {m : Master} {pg : Page} {off : Nat} {v : Word} {s : State} (h_regs
    : Part.regs ∈ pset) (h_outs : Part.outs ∈ pset) (h_intc : Part.intc ∈ pset) (h_sw : Part.sw ∈ pset) (hk : Keeps
    pset z0 s) : Keeps pset z0 (Machine.wrFDB m pg off v s) := by
  unfold Machine.wrFDB
  repeat' (first
    | with_reducible first
      | assumption | apply K.setR h_regs | apply K.fdbCmd h_regs h_outs h_intc h_sw
      | apply K.agePeriod h_regs h_outs h_intc h_sw | apply K.plainPage h_regs h_outs h_intc
      | refine Keeps.ite (fun _ => ?_) (fun _ => ?_)
    | split)

theorem wrIMG {pset : List Part} {z0 : State} {m : Master} {pg : Page} {off : Nat} {v : Word} {s : State} (h_regs
    : Part.regs ∈ pset) (h_cnts : Part.cnts ∈ pset) (h_free : Part.free ∈ pset) (h_mem : Part.mem ∈ pset) (h_outs :
    Part.outs ∈ pset) (h_intc : Part.intc ∈ pset) (h_sw : Part.sw ∈ pset) (h_gate : Part.gate ∈ pset) (h_vlt :
    Part.vlt ∈ pset) (h_bnk : Part.bnk ∈ pset) (h_mdb : Part.mdb ∈ pset) (hk : Keeps pset z0 s) : Keeps pset z0
    (Machine.wrIMG m pg off v s) := by
  unfold Machine.wrIMG
  repeat' (first
    | with_reducible first
      | assumption | apply K.setR h_regs | apply K.pendLevel h_regs h_outs h_intc
      | apply K.catCmd h_regs h_cnts h_free h_mem h_outs h_intc h_sw h_gate h_vlt h_bnk h_mdb
      | apply K.sieveCmd h_regs h_outs h_intc h_gate | apply K.poolWrite h_regs h_outs h_intc h_gate
      | apply K.vrSize h_regs h_mem h_outs h_intc h_gate h_bnk | apply K.plainPage h_regs h_outs h_intc
      | refine Keeps.ite (fun _ => ?_) (fun _ => ?_)
    | split)

theorem wrTNS {pset : List Part} {z0 : State} {m : Master} {pg : Page} {off : Nat} {v : Word} {s : State} (h_regs
    : Part.regs ∈ pset) (h_outs : Part.outs ∈ pset) (h_intc : Part.intc ∈ pset) (h_sw : Part.sw ∈ pset) (h_vlt :
    Part.vlt ∈ pset) (h_time : Part.time ∈ pset) (hk : Keeps pset z0 s) : Keeps pset z0 (Machine.wrTNS m pg off v s)
    := by
  unfold Machine.wrTNS
  repeat' (first
    | with_reducible first
      | assumption | apply K.refCtrl h_regs h_outs h_intc | apply K.tbGuarded h_regs h_outs h_intc
      | apply K.tbCtrl h_regs h_outs h_intc h_vlt h_time | apply K.tbRate h_regs h_time
      | apply K.adjCmd h_regs h_outs h_intc h_sw h_time | apply K.tnsSnap h_regs
      | apply K.outCtrl h_regs h_outs h_intc h_time | apply K.tsrLevel h_regs h_outs h_intc
      | apply K.plainPage h_regs h_outs h_intc | refine Keeps.ite (fun _ => ?_) (fun _ => ?_)
    | intro _ _ | dsimp only | split)

theorem wrMAC {pset : List Part} {z0 : State} {m : Master} {pg : Page} {off : Nat} {v : Word} {s : State} (h_regs
    : Part.regs ∈ pset) (h_cnts : Part.cnts ∈ pset) (h_outs : Part.outs ∈ pset) (h_intc : Part.intc ∈ pset) (h_eth :
    Part.eth ∈ pset) (hk : Keeps pset z0 s) : Keeps pset z0 (Machine.wrMAC m pg off v s) := by
  unfold Machine.wrMAC
  repeat' (first
    | with_reducible first
      | assumption | apply K.setR h_regs | apply K.updPairOf h_regs h_outs h_intc
      | apply K.redCtrl h_regs h_outs h_intc h_eth | apply K.preemptCtrl h_regs h_outs h_intc h_eth
      | apply K.lpiSettle h_regs h_cnts h_outs h_intc h_eth | apply K.plainPage h_regs h_outs h_intc
      | refine Keeps.ite (fun _ => ?_) (fun _ => ?_)
    | dsimp only | split)

theorem wrSDS {pset : List Part} {z0 : State} {m : Master} {pg : Page} {off : Nat} {v : Word} {s : State} (h_regs
    : Part.regs ∈ pset) (h_outs : Part.outs ∈ pset) (h_intc : Part.intc ∈ pset) (h_eth : Part.eth ∈ pset) (hk : Keeps
    pset z0 s) : Keeps pset z0 (Machine.wrSDS m pg off v s) := by
  unfold Machine.wrSDS
  repeat' (first
    | with_reducible first
      | assumption | apply K.setR h_regs | apply K.anCtrl h_regs | apply K.updMdio h_regs h_outs h_intc
      | apply K.mdioCmd h_regs h_outs h_eth | apply K.plainPage h_regs h_outs h_intc
      | refine Keeps.ite (fun _ => ?_) (fun _ => ?_)
    | dsimp only | split)

theorem wrMDB {pset : List Part} {z0 : State} {m : Master} {pg : Page} {off : Nat} {v : Word} {s : State} (h_regs
    : Part.regs ∈ pset) (h_cnts : Part.cnts ∈ pset) (h_free : Part.free ∈ pset) (h_mem : Part.mem ∈ pset) (h_outs :
    Part.outs ∈ pset) (h_intc : Part.intc ∈ pset) (h_sw : Part.sw ∈ pset) (h_gate : Part.gate ∈ pset) (h_vlt :
    Part.vlt ∈ pset) (h_bnk : Part.bnk ∈ pset) (h_mdb : Part.mdb ∈ pset) (hk : Keeps pset z0 s) : Keeps pset z0
    (Machine.wrMDB m pg off v s) := by
  unfold Machine.wrMDB
  repeat' (first
    | with_reducible first
      | assumption | apply K.mdbCmd h_regs h_cnts h_free h_mem h_outs h_intc h_sw h_gate h_vlt h_bnk h_mdb
      | apply K.mdbCfgWrite h_regs h_outs h_intc h_mdb | apply K.plainPage h_regs h_outs h_intc
      | refine Keeps.ite (fun _ => ?_) (fun _ => ?_)
    | split)

theorem wrPLK {pset : List Part} {z0 : State} {m : Master} {pg : Page} {off : Nat} {v : Word} {s : State} (h_regs
    : Part.regs ∈ pset) (h_cnts : Part.cnts ∈ pset) (h_free : Part.free ∈ pset) (h_mem : Part.mem ∈ pset) (h_outs :
    Part.outs ∈ pset) (h_intc : Part.intc ∈ pset) (h_sw : Part.sw ∈ pset) (h_gate : Part.gate ∈ pset) (h_vlt :
    Part.vlt ∈ pset) (h_bnk : Part.bnk ∈ pset) (h_plk : Part.plk ∈ pset) (hk : Keeps pset z0 s) : Keeps pset z0
    (Machine.wrPLK m pg off v s) := by
  unfold Machine.wrPLK
  repeat' (first
    | with_reducible first
      | assumption | apply K.plkCmd h_regs h_cnts h_free h_mem h_outs h_intc h_sw h_gate h_vlt h_bnk h_plk
      | apply K.plkParamWrite h_regs h_outs h_intc | apply K.plainPage h_regs h_outs h_intc
      | refine Keeps.ite (fun _ => ?_) (fun _ => ?_)
    | split)

theorem wrPTC {pset : List Part} {z0 : State} {m : Master} {pg : Page} {off : Nat} {v : Word} {s : State} (h_regs
    : Part.regs ∈ pset) (h_cnts : Part.cnts ∈ pset) (h_free : Part.free ∈ pset) (h_mem : Part.mem ∈ pset) (h_outs :
    Part.outs ∈ pset) (h_intc : Part.intc ∈ pset) (h_sw : Part.sw ∈ pset) (h_gate : Part.gate ∈ pset) (h_vlt :
    Part.vlt ∈ pset) (h_bnk : Part.bnk ∈ pset) (h_ptc : Part.ptc ∈ pset) (hk : Keeps pset z0 s) : Keeps pset z0
    (Machine.wrPTC m pg off v s) := by
  unfold Machine.wrPTC
  repeat' (first
    | with_reducible first
      | assumption | apply K.ptcCtrl h_regs h_cnts h_free h_mem h_outs h_intc h_sw h_gate h_vlt h_bnk h_ptc
      | apply K.ptcPlain h_regs h_outs h_intc
      | apply K.ptcShifter h_regs h_cnts h_free h_mem h_outs h_intc h_sw h_gate h_vlt h_bnk h_ptc
      | apply K.ptcInject h_regs h_outs h_intc h_ptc | apply K.ptcT h_regs h_outs h_intc h_ptc
      | apply K.ptcOwn h_regs h_outs h_intc h_ptc | apply K.plainPage h_regs h_outs h_intc
      | refine Keeps.ite (fun _ => ?_) (fun _ => ?_)
    | dsimp only | split)

theorem engHold {pset : List Part} {z0 : State} {p : Nat} {s : State} (h_regs : Part.regs ∈ pset) (h_eng :
    Part.eng ∈ pset) (h_cores : Part.cores ∈ pset) (hk : Keeps pset z0 s) : Keeps pset z0 (Machine.engHold p s) := by
  unfold Machine.engHold
  repeat' (first
    | with_reducible first
      | assumption | apply K.putB h_regs | apply K.coreStart h_cores | apply K.coreStop h_cores
      | apply K.engKick h_eng | refine Keeps.ite (fun _ => ?_) (fun _ => ?_)
    | intro _ _ | dsimp only | split)

theorem wrPEN {pset : List Part} {z0 : State} {m : Master} {pg : Page} {off : Nat} {v : Word} {s : State} (h_regs
    : Part.regs ∈ pset) (h_outs : Part.outs ∈ pset) (h_intc : Part.intc ∈ pset) (h_eng : Part.eng ∈ pset) (h_cores :
    Part.cores ∈ pset) (hk : Keeps pset z0 s) : Keeps pset z0 (Machine.wrPEN m pg off v s) := by
  unfold Machine.wrPEN
  repeat' (first
    | with_reducible first
      | assumption | apply K.wdtEnable h_eng | apply K.plainPage h_regs h_outs h_intc
      | apply K.engHold h_regs h_eng h_cores | refine Keeps.ite (fun _ => ?_) (fun _ => ?_)
    | split)

theorem pageWrite {pset : List Part} {z0 : State} {m : Master} {pg : Page} {off : Nat} {v : Word} {s : State}
    (h_all : ∀ p : Part, p ≠ .falls → p ∈ pset) (hk : Keeps pset z0 s) : Keeps pset z0 (Machine.pageWrite m pg off v
    s) := by
  unfold Machine.pageWrite
  repeat' (first
    | with_reducible first
      | assumption
      | apply K.hifWrite (h_all _ (by decide)) (h_all _ (by decide)) (h_all _ (by decide)) (h_all _ (by decide))
      | apply K.hdrWrite h_all | apply K.plainPage (h_all _ (by decide)) (h_all _ (by decide)) (h_all _ (by decide))
      | apply K.wrCLK (h_all _ (by decide)) (h_all _ (by decide)) (h_all _ (by decide)) (h_all _ (by decide))
      | apply K.wrPWR (h_all _ (by decide)) (h_all _ (by decide)) (h_all _ (by decide)) (h_all _ (by decide))
          (h_all _ (by decide)) (h_all _ (by decide)) (h_all _ (by decide)) (h_all _ (by decide)) (h_all _ (by
          decide)) (h_all _ (by decide))
      | apply K.wrINT (h_all _ (by decide)) (h_all _ (by decide)) (h_all _ (by decide))
      | apply K.wrSEC (h_all _ (by decide)) (h_all _ (by decide)) (h_all _ (by decide))
      | apply K.wrVLT (h_all _ (by decide)) (h_all _ (by decide)) (h_all _ (by decide)) (h_all _ (by decide))
      | apply K.wrMGT (h_all _ (by decide)) (h_all _ (by decide)) (h_all _ (by decide)) (h_all _ (by decide))
      | apply K.wrATB (h_all _ (by decide)) (h_all _ (by decide)) (h_all _ (by decide)) (h_all _ (by decide))
      | apply K.wrPLC (h_all _ (by decide)) (h_all _ (by decide)) (h_all _ (by decide)) (h_all _ (by decide))
          (h_all _ (by decide)) (h_all _ (by decide)) (h_all _ (by decide)) (h_all _ (by decide)) (h_all _ (by
          decide)) (h_all _ (by decide)) (h_all _ (by decide))
      | apply K.wrMBX (h_all _ (by decide)) (h_all _ (by decide)) (h_all _ (by decide)) (h_all _ (by decide))
          (h_all _ (by decide)) (h_all _ (by decide))
      | apply K.wrLCK (h_all _ (by decide)) (h_all _ (by decide)) (h_all _ (by decide))
      | apply K.wrFIQ (h_all _ (by decide)) (h_all _ (by decide)) (h_all _ (by decide)) (h_all _ (by decide))
          (h_all _ (by decide)) (h_all _ (by decide))
      | apply K.wrBNK (h_all _ (by decide)) (h_all _ (by decide)) (h_all _ (by decide)) (h_all _ (by decide))
          (h_all _ (by decide)) (h_all _ (by decide)) (h_all _ (by decide))
      | apply K.wrSWC (h_all _ (by decide)) (h_all _ (by decide)) (h_all _ (by decide)) (h_all _ (by decide))
          (h_all _ (by decide)) (h_all _ (by decide))
      | apply K.wrFDB (h_all _ (by decide)) (h_all _ (by decide)) (h_all _ (by decide)) (h_all _ (by decide))
      | apply K.wrIMG (h_all _ (by decide)) (h_all _ (by decide)) (h_all _ (by decide)) (h_all _ (by decide))
          (h_all _ (by decide)) (h_all _ (by decide)) (h_all _ (by decide)) (h_all _ (by decide)) (h_all _ (by
          decide)) (h_all _ (by decide)) (h_all _ (by decide))
      | apply K.wrTNS (h_all _ (by decide)) (h_all _ (by decide)) (h_all _ (by decide)) (h_all _ (by decide))
          (h_all _ (by decide)) (h_all _ (by decide))
      | apply K.wrMAC (h_all _ (by decide)) (h_all _ (by decide)) (h_all _ (by decide)) (h_all _ (by decide))
          (h_all _ (by decide))
      | apply K.wrSDS (h_all _ (by decide)) (h_all _ (by decide)) (h_all _ (by decide)) (h_all _ (by decide))
      | apply K.wrMDB (h_all _ (by decide)) (h_all _ (by decide)) (h_all _ (by decide)) (h_all _ (by decide))
          (h_all _ (by decide)) (h_all _ (by decide)) (h_all _ (by decide)) (h_all _ (by decide)) (h_all _ (by
          decide)) (h_all _ (by decide)) (h_all _ (by decide))
      | apply K.wrPLK (h_all _ (by decide)) (h_all _ (by decide)) (h_all _ (by decide)) (h_all _ (by decide))
          (h_all _ (by decide)) (h_all _ (by decide)) (h_all _ (by decide)) (h_all _ (by decide)) (h_all _ (by
          decide)) (h_all _ (by decide)) (h_all _ (by decide))
      | apply K.wrPTC (h_all _ (by decide)) (h_all _ (by decide)) (h_all _ (by decide)) (h_all _ (by decide))
          (h_all _ (by decide)) (h_all _ (by decide)) (h_all _ (by decide)) (h_all _ (by decide)) (h_all _ (by
          decide)) (h_all _ (by decide)) (h_all _ (by decide))
      | apply K.wrPEN (h_all _ (by decide)) (h_all _ (by decide)) (h_all _ (by decide)) (h_all _ (by decide))
          (h_all _ (by decide))
      | refine Keeps.ite (fun _ => ?_) (fun _ => ?_)
    | dsimp only | split)

theorem readClear {pset : List Part} {z0 : State} {a : Nat} {s : State} (h_regs : Part.regs ∈ pset) (hk : Keeps
    pset z0 s) : Keeps pset z0 (Machine.readClear a s).1 := by
  unfold Machine.readClear
  repeat' (first
    | with_reducible first
      | assumption | apply K.setR h_regs
    | dsimp only)

theorem rdMGT {pset : List Part} {z0 : State} {off : Nat} {s : State} (h_regs : Part.regs ∈ pset) (h_outs :
    Part.outs ∈ pset) (h_intc : Part.intc ∈ pset) (h_mgt : Part.mgt ∈ pset) (hk : Keeps pset z0 s) : Keeps pset z0
    (Machine.rdMGT off s).1 := by
  unfold Machine.rdMGT
  repeat' (first
    | with_reducible first
      | assumption | apply K.mgtRead h_regs h_outs h_intc h_mgt | refine Keeps.ite (fun _ => ?_) (fun _ => ?_)
      | refine Keeps.iteFst (fun _ => ?_) (fun _ => ?_)
    | dsimp only | split)

theorem rdMBX {pset : List Part} {z0 : State} {m : Master} {off : Nat} {s : State} (h_regs : Part.regs ∈ pset) (hk
    : Keeps pset z0 s) : Keeps pset z0 (Machine.rdMBX m off s).1 := by
  unfold Machine.rdMBX
  repeat' (first
    | with_reducible first
      | assumption | apply K.mbxLockRead h_regs | refine Keeps.ite (fun _ => ?_) (fun _ => ?_)
      | refine Keeps.iteFst (fun _ => ?_) (fun _ => ?_)
    | dsimp only | split)

theorem rdLCK {pset : List Part} {z0 : State} {m : Master} {off : Nat} {s : State} (h_regs : Part.regs ∈ pset) (hk
    : Keeps pset z0 s) : Keeps pset z0 (Machine.rdLCK m off s).1 := by
  unfold Machine.rdLCK
  repeat' (first
    | with_reducible first
      | assumption | apply K.lockRead h_regs | refine Keeps.ite (fun _ => ?_) (fun _ => ?_)
      | refine Keeps.iteFst (fun _ => ?_) (fun _ => ?_)
    | dsimp only | split)

theorem rdFIQ {pset : List Part} {z0 : State} {off : Nat} {s : State} (h_regs : Part.regs ∈ pset) (h_outs :
    Part.outs ∈ pset) (h_intc : Part.intc ∈ pset) (h_fiq : Part.fiq ∈ pset) (h_aq : Part.aq ∈ pset) (hk : Keeps pset
    z0 s) : Keeps pset z0 (Machine.rdFIQ off s).1 := by
  unfold Machine.rdFIQ
  repeat' (first
    | with_reducible first
      | assumption | apply K.fiqPop h_regs h_fiq | apply K.aqRead h_regs h_outs h_intc h_aq
      | refine Keeps.ite (fun _ => ?_) (fun _ => ?_) | refine Keeps.iteFst (fun _ => ?_) (fun _ => ?_)
    | dsimp only | split)

theorem rdBNK {pset : List Part} {z0 : State} {off : Nat} {s : State} (h_regs : Part.regs ∈ pset) (hk : Keeps pset
    z0 s) : Keeps pset z0 (Machine.rdBNK off s).1 := by
  unfold Machine.rdBNK
  repeat' (first
    | with_reducible first
      | assumption | apply K.readClear h_regs | refine Keeps.ite (fun _ => ?_) (fun _ => ?_)
      | refine Keeps.iteFst (fun _ => ?_) (fun _ => ?_)
    | intro _ _ | dsimp only | split)

theorem rdSWC {pset : List Part} {z0 : State} {m : Master} {off : Nat} {s : State} (h_regs : Part.regs ∈ pset) (hk
    : Keeps pset z0 s) : Keeps pset z0 (Machine.rdSWC m off s).1 := by
  unfold Machine.rdSWC
  repeat' (first
    | with_reducible first
      | assumption | apply K.readClear h_regs | refine Keeps.ite (fun _ => ?_) (fun _ => ?_)
      | refine Keeps.iteFst (fun _ => ?_) (fun _ => ?_)
    | dsimp only | split)

theorem rdIMG {pset : List Part} {z0 : State} {off : Nat} {s : State} (h_regs : Part.regs ∈ pset) (hk : Keeps pset
    z0 s) : Keeps pset z0 (Machine.rdIMG off s).1 := by
  unfold Machine.rdIMG
  repeat' (first
    | with_reducible first
      | assumption | apply K.readClear h_regs | refine Keeps.ite (fun _ => ?_) (fun _ => ?_)
      | refine Keeps.iteFst (fun _ => ?_) (fun _ => ?_)
    | dsimp only | split)

theorem rdTNS {pset : List Part} {z0 : State} {m : Master} {off : Nat} {s : State} (h_regs : Part.regs ∈ pset)
    (h_time : Part.time ∈ pset) (hk : Keeps pset z0 s) : Keeps pset z0 (Machine.rdTNS m off s).1 := by
  unfold Machine.rdTNS
  repeat' (first
    | with_reducible first
      | assumption | apply K.tnowRead h_regs | apply K.tbNsRead h_regs | apply K.capNsRead h_regs h_time
      | apply K.readClear h_regs | refine Keeps.ite (fun _ => ?_) (fun _ => ?_)
      | refine Keeps.iteFst (fun _ => ?_) (fun _ => ?_)
    | dsimp only | split)

theorem rdSDS {pset : List Part} {z0 : State} {pg : Page} {off : Nat} {s : State} (h_regs : Part.regs ∈ pset) (hk
    : Keeps pset z0 s) : Keeps pset z0 (Machine.rdSDS pg off s).1 := by
  unfold Machine.rdSDS
  repeat' (first
    | with_reducible first
      | assumption | apply K.readClear h_regs | refine Keeps.ite (fun _ => ?_) (fun _ => ?_)
      | refine Keeps.iteFst (fun _ => ?_) (fun _ => ?_)
    | dsimp only | split)

theorem rdMDB {pset : List Part} {z0 : State} {pg : Page} {off : Nat} {s : State} (h_regs : Part.regs ∈ pset) (hk
    : Keeps pset z0 s) : Keeps pset z0 (Machine.rdMDB pg off s).1 := by
  unfold Machine.rdMDB
  repeat' (first
    | with_reducible first
      | assumption | apply K.readClear h_regs | refine Keeps.ite (fun _ => ?_) (fun _ => ?_)
      | refine Keeps.iteFst (fun _ => ?_) (fun _ => ?_)
    | dsimp only | split)

theorem pageRead {pset : List Part} {z0 : State} {m : Master} {pg : Page} {off : Nat} {s : State} (h_regs :
    Part.regs ∈ pset) (h_outs : Part.outs ∈ pset) (h_intc : Part.intc ∈ pset) (h_fiq : Part.fiq ∈ pset) (h_aq :
    Part.aq ∈ pset) (h_time : Part.time ∈ pset) (h_mgt : Part.mgt ∈ pset) (hk : Keeps pset z0 s) : Keeps pset z0
    (Machine.pageRead m pg off s).1 := by
  unfold Machine.pageRead
  repeat' (first
    | with_reducible first
      | assumption | apply K.readClear h_regs | apply K.rdMGT h_regs h_outs h_intc h_mgt | apply K.rdMBX h_regs
      | apply K.rdLCK h_regs | apply K.rdFIQ h_regs h_outs h_intc h_fiq h_aq | apply K.rdBNK h_regs
      | apply K.rdSWC h_regs | apply K.rdIMG h_regs | apply K.rdTNS h_regs h_time | apply K.rdSDS h_regs
      | apply K.rdMDB h_regs | refine Keeps.ite (fun _ => ?_) (fun _ => ?_)
      | refine Keeps.iteFst (fun _ => ?_) (fun _ => ?_)
    | dsimp only | split | refine Keeps.ofFst (by with_reducible assumption) ?_
    | refine Keeps.ofSnd (by with_reducible assumption) ?_)

end Sys2Proof.Laws.K
end

