-- ==== Sys2Proof/Laws/KeepsReset.lean ====
section
/-! SUPPORT. What the operations of `Machine/Reset.lean` keep. -/

namespace Sys2Proof.Laws.K

open Sys2Proof Sys2Proof.Machine Sys2Proof.Laws

theorem copyRegs {pset : List Part} {z0 : State} {s : State} {t : State} {l : List Nat} (h_regs : Part.regs ∈
    pset) (hk : Keeps pset z0 t) : Keeps pset z0 (Machine.copyRegs s t l) := by
  unfold Machine.copyRegs
  repeat' (first
    | with_reducible first
      | assumption | apply K.setR h_regs | refine Keeps.foldl (fun _ _ _ => ?_) ?_
    | intro _ _ | dsimp only | split)

theorem wiped {pset : List Part} {z0 : State} {aon : Bool} {s : State} (h_all : ∀ p : Part, p ≠ .falls → p ∈ pset)
    (hk : Keeps pset z0 s) :
    Keeps pset z0 (Machine.wiped aon s) := by
  have hall : ∀ {r : State}, Memory.wf r.mem = true → r.pending = s.pending → r.sys.deviceId = s.sys.deviceId →
      r.sys.slots = s.sys.slots → r.vlt.counters = s.vlt.counters → r.free = s.free → r.outs = s.outs → Keeps pset
          z0 r := fun h1 h2 h3 h4 h7 h5 h6 =>
    {
      wf := fun _ => h1
      pending := h2.trans hk.pending
      deviceId := h3.trans hk.deviceId
      slots := h4.trans hk.slots
      grows := h5 ▸ hk.grows
      log := h6 ▸ hk.log
      regs := .inl (h_all _ (by decide))
      cnts := .inl (h_all _ (by decide))
      snaps := .inl (h_all _ (by decide))
      free := .inl (h_all _ (by decide))
      mem := .inl (h_all _ (by decide))
      outs := .inl (h_all _ (by decide))
      resp := .inl (h_all _ (by decide))
      intc := .inl (h_all _ (by decide))
      sys := .inl (h_all _ (by decide))
      sw := .inl (h_all _ (by decide))
      eth := .inl (h_all _ (by decide))
      gate := .inl (h_all _ (by decide))
      vlt := .inl (h_all _ (by decide))
      bnk := .inl (h_all _ (by decide))
      plk := .inl (h_all _ (by decide))
      mdb := .inl (h_all _ (by decide))
      ptc := .inl (h_all _ (by decide))
      fiq := .inl (h_all _ (by decide))
      aq := .inl (h_all _ (by decide))
      mbx := .inl (h_all _ (by decide))
      hif := .inl (h_all _ (by decide))
      time := .inl (h_all _ (by decide))
      eng := .inl (h_all _ (by decide))
      plc := .inl (h_all _ (by decide))
      cores := .inl (h_all _ (by decide))
      pwr := .inl (h_all _ (by decide))
      mgt := .inl (h_all _ (by decide))
      test := .inl (h_all _ (by decide))
      falls := hk.falls.imp id fun h c => by unfold vaultCounter at h ⊢; rw [h7]; exact h c
    }
  unfold Machine.wiped
  dsimp only
  split
  · refine K.copyRegs (h_all _ (by decide)) ?_
    simp only [Keeps.lit_cnts_time (h_all _ (by decide)) (h_all _ (by decide))]
    refine K.copyRegs (h_all _ (by decide)) ?_
    exact hall rfl rfl rfl rfl rfl rfl rfl
  · refine K.copyRegs (h_all _ (by decide)) ?_
    exact hall rfl rfl rfl rfl rfl rfl rfl

theorem resetAssert {pset : List Part} {z0 : State} {mask : Nat} {lock : Bool} {s : State} (h_all : ∀ p : Part, p
    ≠ .falls → p ∈ pset) (hk : Keeps pset z0 s) : Keeps pset z0 (Machine.resetAssert mask lock s) := by
  unfold Machine.resetAssert
  repeat' (first
    | with_reducible first
      | assumption | apply K.setR (h_all _ (by decide)) | apply K.putB (h_all _ (by decide)) | apply K.wiped h_all
      | refine Keeps.ite (fun _ => ?_) (fun _ => ?_)
    | dsimp only | split | simp only [Keeps.lit_sys (h_all _ (by decide))])

theorem resetCause {pset : List Part} {z0 : State} {c : Nat} {also : BitVec 8} {lock : Bool} {s : State} (h_all :
    ∀ p : Part, p ≠ .falls → p ∈ pset) (hk : Keeps pset z0 s) : Keeps pset z0 (Machine.resetCause c also lock s) := by
  unfold Machine.resetCause
  repeat' (first
    | with_reducible first
      | assumption | apply K.resetAssert h_all)

theorem softResetWrite {pset : List Part} {z0 : State} {v : Word} {s : State} (h_all : ∀ p : Part, p ≠ .falls → p
    ∈ pset) (hk : Keeps pset z0 s) : Keeps pset z0 (Machine.softResetWrite v s) := by
  unfold Machine.softResetWrite
  repeat' (first
    | with_reducible first
      | assumption | apply K.resetCause h_all | refine Keeps.ite (fun _ => ?_) (fun _ => ?_)
    | dsimp only | split | simp only [Keeps.lit_sys (h_all _ (by decide))])

theorem thermHoldEnd {pset : List Part} {z0 : State} {s : State} (h_cnts : Part.cnts ∈ pset) (h_sys : Part.sys ∈
    pset) (h_time : Part.time ∈ pset) (h_pwr : Part.pwr ∈ pset) (hk : Keeps pset z0 s) : Keeps pset z0
    (Machine.thermHoldEnd s) := by
  unfold Machine.thermHoldEnd
  repeat' (first
    | with_reducible first
      | assumption | apply K.advanceCycles h_cnts h_sys h_time h_pwr | refine Keeps.ite (fun _ => ?_) (fun _ => ?_)
    | dsimp only | split | simp only [Keeps.lit_sys h_sys])

theorem pmicUp {pset : List Part} {z0 : State} {s : State} (h_sys : Part.sys ∈ pset) (hk : Keeps pset z0 s) :
    Keeps pset z0 (Machine.pmicUp s) := by
  unfold Machine.pmicUp
  repeat' (first
    | with_reducible first
      | assumption | refine Keeps.ite (fun _ => ?_) (fun _ => ?_)
    | dsimp only | split | simp only [Keeps.lit_sys h_sys])

theorem aonConfirmed {pset : List Part} {z0 : State} {s : State} (h_time : Part.time ∈ pset) (hk : Keeps pset z0
    s) : Keeps pset z0 (Machine.aonConfirmed s) := by
  unfold Machine.aonConfirmed
  repeat' (first
    | with_reducible first
      | assumption
    | dsimp only | simp only [Keeps.lit_time h_time])

end Sys2Proof.Laws.K
end

