-- ==== Sys2Proof/Laws/KeepsBoot.lean ====
section
/-! SUPPORT. What the operations of `Machine/Boot.lean` keep. -/

namespace Sys2Proof.Laws.K

open Sys2Proof Sys2Proof.Machine Sys2Proof.Laws

theorem recApply {pset : List Part} {z0 : State} {a : Nat} {mask : Word} {val : Word} {s : State} (h_all : ∀ p :
    Part, p ≠ .falls → p ∈ pset) (hk : Keeps pset z0 s) : Keeps pset z0 (Machine.recApply a mask val s) := by
  unfold Machine.recApply
  repeat' (first
    | with_reducible first
      | assumption
      | apply K.gatedWrite (h_all _ (by decide)) (h_all _ (by decide)) (h_all _ (by decide)) (h_all _ (by decide))
      | apply K.pageWrite h_all
    | intro _ _ | dsimp only | split | refine Keeps.ofFst (by with_reducible assumption) ?_
    | refine Keeps.ofSnd (by with_reducible assumption) ?_ | simp only [Keeps.lit_resp (h_all _ (by decide))])

theorem settleCmds {pset : List Part} {z0 : State} {s : State} (h_regs : Part.regs ∈ pset) (h_free : Part.free ∈
    pset) (h_mem : Part.mem ∈ pset) (h_outs : Part.outs ∈ pset) (h_intc : Part.intc ∈ pset) (h_sw : Part.sw ∈ pset)
    (h_gate : Part.gate ∈ pset) (h_vlt : Part.vlt ∈ pset) (h_bnk : Part.bnk ∈ pset) (hk : Keeps pset z0 s) : Keeps
    pset z0 (Machine.settleCmds s) := by
  unfold Machine.settleCmds
  repeat' (first
    | with_reducible first
      | assumption | apply K.cntDurable h_regs h_outs h_intc h_vlt
      | apply K.exportDone h_regs h_mem h_outs h_intc h_vlt h_bnk
      | apply K.scansOver h_regs h_outs h_intc h_gate h_vlt
      | apply K.catDurable h_regs h_free h_outs h_intc h_gate h_vlt
    | dsimp only | simp only [Keeps.lit_sw h_sw])

theorem bunAtStart {pset : List Part} {z0 : State} {locks : Bool} {b : List Byte} {s : State} (h_all : ∀ p : Part,
    p ≠ .falls → p ∈ pset) (hk : Keeps pset z0 s) : Keeps pset z0 (Machine.bunAtStart locks b s) := by
  unfold Machine.bunAtStart
  repeat' (first
    | with_reducible first
      | assumption | apply K.recApply h_all
      | apply K.settleCmds (h_all _ (by decide)) (h_all _ (by decide)) (h_all _ (by decide)) (h_all _ (by decide))
          (h_all _ (by decide)) (h_all _ (by decide)) (h_all _ (by decide)) (h_all _ (by decide)) (h_all _ (by
          decide))
      | refine Keeps.ite (fun _ => ?_) (fun _ => ?_) | refine Keeps.foldl (fun _ _ _ => ?_) ?_
    | intro _ _ | split)

theorem bistRepair {pset : List Part} {z0 : State} {e : BootEnv} {s : State} (h_regs : Part.regs ∈ pset) (h_mem :
    Part.mem ∈ pset) (h_bnk : Part.bnk ∈ pset) (hk : Keeps pset z0 s) : Keeps pset z0 (Machine.bistRepair e s) := by
  unfold Machine.bistRepair
  repeat' (first
    | with_reducible first
      | assumption | apply K.putF h_regs | apply K.putB h_regs | apply K.substitute h_regs h_mem h_bnk
      | refine Keeps.foldl (fun _ _ _ => ?_) ?_ | refine Keeps.foldlFst (fun _ _ _ => ?_) ?_
    | intro _ _ | dsimp only)

theorem healthStart {pset : List Part} {z0 : State} {e : BootEnv} {s : State} (h_regs : Part.regs ∈ pset) (h_outs
    : Part.outs ∈ pset) (h_intc : Part.intc ∈ pset) (h_vlt : Part.vlt ∈ pset) (hk : Keeps pset z0 s) : Keeps pset z0
    (Machine.healthStart e s) := by
  unfold Machine.healthStart
  repeat' (first
    | with_reducible first
      | assumption | apply K.healthPut h_regs h_outs h_intc h_vlt
    | intro _ _)

theorem degraded {pset : List Part} {z0 : State} {s : State} (h_regs : Part.regs ∈ pset) (h_outs : Part.outs ∈
    pset) (h_intc : Part.intc ∈ pset) (hk : Keeps pset z0 s) : Keeps pset z0 (Machine.degraded s) := by
  unfold Machine.degraded
  repeat' (first
    | with_reducible first
      | assumption | apply K.setPhase h_regs h_outs h_intc)

theorem closeOpen {pset : List Part} {z0 : State} {s : State} {i : Nat} (h_sys : Part.sys ∈ pset) (h_gate :
    Part.gate ∈ pset) (h_vlt : Part.vlt ∈ pset) (hk : Keeps pset z0 s) : Keeps pset z0 (Machine.closeOpen s i) := by
  unfold Machine.closeOpen
  repeat' (first
    | with_reducible first
      | assumption | apply K.jClose h_vlt | refine Keeps.ite (fun _ => ?_) (fun _ => ?_)
    | dsimp only | split | simp only [Keeps.lit_sys_gate h_sys h_gate])

theorem findUnconfirmed {pset : List Part} {z0 : State} {s : State} (h_sys : Part.sys ∈ pset) (h_gate : Part.gate
    ∈ pset) (h_vlt : Part.vlt ∈ pset) (hk : Keeps pset z0 s) : Keeps pset z0 (Machine.findUnconfirmed s) := by
  unfold Machine.findUnconfirmed
  repeat' (first
    | with_reducible first
      | assumption | apply K.closeOpen h_sys h_gate h_vlt | refine Keeps.foldl (fun _ _ _ => ?_) ?_)

theorem catRestore {pset : List Part} {z0 : State} {bad : List Nat} {s : State} {x : Nat × CatEnt} (h_regs :
    Part.regs ∈ pset) (h_outs : Part.outs ∈ pset) (h_intc : Part.intc ∈ pset) (h_gate : Part.gate ∈ pset) (h_vlt :
    Part.vlt ∈ pset) (hk : Keeps pset z0 s) : Keeps pset z0 (Machine.catRestore bad s x) := by
  unfold Machine.catRestore
  repeat' (first
    | with_reducible first
      | assumption | apply K.rowsWrite h_regs h_outs h_intc h_vlt | apply K.catSet h_gate
      | refine Keeps.ite (fun _ => ?_) (fun _ => ?_)
    | intro _ _ | dsimp only | split | simp only [Keeps.lit_vlt h_vlt])

theorem vaultRestore {pset : List Part} {z0 : State} {bad : List Nat} {s : State} (h_regs : Part.regs ∈ pset)
    (h_outs : Part.outs ∈ pset) (h_intc : Part.intc ∈ pset) (h_gate : Part.gate ∈ pset) (h_vlt : Part.vlt ∈ pset) (hk
    : Keeps pset z0 s) : Keeps pset z0 (Machine.vaultRestore bad s) := by
  unfold Machine.vaultRestore
  repeat' (first
    | with_reducible first
      | assumption | apply K.putB h_regs | apply K.raiseIrq h_regs h_outs h_intc
      | apply K.healthPut h_regs h_outs h_intc h_vlt | apply K.catRestore h_regs h_outs h_intc h_gate h_vlt
      | refine Keeps.ite (fun _ => ?_) (fun _ => ?_) | refine Keeps.foldl (fun _ _ _ => ?_) ?_
      | refine Keeps.foldlFst (fun _ _ _ => ?_) ?_
    | intro _ _ | dsimp only | split | simp only [Keeps.lit_gate h_gate])

theorem identityFirst {pset : List Part} {z0 : State} {s : State} (h_regs : Part.regs ∈ pset) (h_free : Part.free
    ∈ pset) (h_outs : Part.outs ∈ pset) (h_intc : Part.intc ∈ pset) (h_sys : Part.sys ∈ pset) (h_vlt : Part.vlt ∈
    pset) (hk : Keeps pset z0 s) : Keeps pset z0 (Machine.identityFirst s) := by
  unfold Machine.identityFirst
  repeat' (first
    | with_reducible first
      | assumption | apply K.newIdentity h_regs h_free h_outs h_intc h_vlt
      | refine Keeps.ite (fun _ => ?_) (fun _ => ?_)
    | dsimp only | split | simp only [Keeps.lit_sys h_sys])

theorem vaultOpen {pset : List Part} {z0 : State} {bad : List Nat} {s : State} (h_regs : Part.regs ∈ pset) (h_free
    : Part.free ∈ pset) (h_outs : Part.outs ∈ pset) (h_intc : Part.intc ∈ pset) (h_sys : Part.sys ∈ pset) (h_gate :
    Part.gate ∈ pset) (h_vlt : Part.vlt ∈ pset) (h_test : Part.test ∈ pset) (hk : Keeps pset z0 s) : Keeps pset z0
    (Machine.vaultOpen bad s) := by
  unfold Machine.vaultOpen
  repeat' (first
    | with_reducible first
      | assumption | apply K.putF h_regs | apply K.putB h_regs | apply K.raiseIrq h_regs h_outs h_intc
      | apply K.setCounter h_regs h_outs h_intc h_vlt | apply K.jRecord h_regs h_outs h_intc h_gate h_vlt
      | apply K.atbFollow h_regs h_outs h_intc h_test | apply K.findUnconfirmed h_sys h_gate h_vlt
      | apply K.vaultRestore h_regs h_outs h_intc h_gate h_vlt
      | apply K.identityFirst h_regs h_free h_outs h_intc h_sys h_vlt | refine Keeps.ite (fun _ => ?_) (fun _ => ?_)
    | intro _ _ | dsimp only | split)

theorem imgFails {pset : List Part} {z0 : State} {s : State} (h_regs : Part.regs ∈ pset) (h_free : Part.free ∈
    pset) (hk : Keeps pset z0 s) : Keeps pset z0 (Machine.imgFails s) := by
  unfold Machine.imgFails
  repeat' (first
    | with_reducible first
      | assumption | apply K.putF h_regs | apply K.fresh h_free
    | dsimp only)

theorem imgLoad {pset : List Part} {z0 : State} {src : Nat} {bad : List Nat} {i : ImgFact} {s : State} (h_regs :
    Part.regs ∈ pset) (h_free : Part.free ∈ pset) (h_outs : Part.outs ∈ pset) (h_intc : Part.intc ∈ pset) (h_sys :
    Part.sys ∈ pset) (h_gate : Part.gate ∈ pset) (h_vlt : Part.vlt ∈ pset) (h_test : Part.test ∈ pset) (hk : Keeps
    pset z0 s) : Keeps pset z0 (Machine.imgLoad src bad i s).1 := by
  unfold Machine.imgLoad
  repeat' (first
    | with_reducible first
      | assumption | apply K.putF h_regs | apply K.setPhase h_regs h_outs h_intc
      | apply K.vaultOpen h_regs h_free h_outs h_intc h_sys h_gate h_vlt h_test | apply K.imgFails h_regs h_free
      | refine Keeps.ite (fun _ => ?_) (fun _ => ?_) | refine Keeps.iteFst (fun _ => ?_) (fun _ => ?_)
    | dsimp only | split)

theorem persAtStart {pset : List Part} {z0 : State} {b : List Byte} {s : State} (h_free : Part.free ∈ pset) (h_plc
    : Part.plc ∈ pset) (hk : Keeps pset z0 s) : Keeps pset z0 (Machine.persAtStart b s) := by
  unfold Machine.persAtStart
  repeat' (first
    | with_reducible first
      | assumption | apply K.fresh h_free | apply K.persStore h_plc | refine Keeps.ite (fun _ => ?_) (fun _ => ?_)
      | refine Keeps.foldl (fun _ _ _ => ?_) ?_ | refine Keeps.foldlFst (fun _ _ _ => ?_) ?_
    | intro _ _ | dsimp only | split)

theorem mgpStart {pset : List Part} {z0 : State} {s : State} (h_free : Part.free ∈ pset) (h_cores : Part.cores ∈
    pset) (hk : Keeps pset z0 s) : Keeps pset z0 (Machine.mgpStart s) := by
  unfold Machine.mgpStart
  repeat' (first
    | with_reducible first
      | assumption | apply K.fresh h_free | apply K.coreBoot h_cores
    | dsimp only)

theorem bunStart {pset : List Part} {z0 : State} {locks : Bool} {x : List Byte} {s : State} (h_all : ∀ p : Part, p
    ≠ .falls → p ∈ pset) (hk : Keeps pset z0 s) : Keeps pset z0 (Machine.bunStart locks x s) := by
  unfold Machine.bunStart
  repeat' (first
    | with_reducible first
      | assumption | apply K.setR (h_all _ (by decide))
      | apply K.rowsWrite (h_all _ (by decide)) (h_all _ (by decide)) (h_all _ (by decide)) (h_all _ (by decide))
      | apply K.bunAtStart h_all | refine Keeps.ite (fun _ => ?_) (fun _ => ?_)
    | split)

theorem stepConfigure {pset : List Part} {z0 : State} {b : List Byte} {s : State} (h_all : ∀ p : Part, p ≠ .falls
    → p ∈ pset) (hk : Keeps pset z0 s) : Keeps pset z0 (Machine.stepConfigure b s) := by
  unfold Machine.stepConfigure
  repeat' (first
    | with_reducible first
      | assumption | apply K.mgpStart (h_all _ (by decide)) (h_all _ (by decide)) | apply K.bunStart h_all
      | refine Keeps.foldl (fun _ _ _ => ?_) ?_
    | intro _ _)

theorem banksSettle {pset : List Part} {z0 : State} {s : State} (h_regs : Part.regs ∈ pset) (h_mem : Part.mem ∈
    pset) (h_outs : Part.outs ∈ pset) (h_intc : Part.intc ∈ pset) (h_sw : Part.sw ∈ pset) (h_bnk : Part.bnk ∈ pset)
    (hk : Keeps pset z0 s) : Keeps pset z0 (Machine.banksSettle s) := by
  unfold Machine.banksSettle
  repeat' (first
    | with_reducible first
      | assumption | apply K.drainDone h_regs h_mem h_outs h_intc h_sw h_bnk
      | apply K.zeroingDone h_regs h_mem h_outs h_intc h_sw h_bnk | refine Keeps.ite (fun _ => ?_) (fun _ => ?_)
      | refine Keeps.foldl (fun _ _ _ => ?_) ?_
    | intro _ _ | split)

theorem enAll {pset : List Part} {z0 : State} {l : List Page} {s : State} (h_regs : Part.regs ∈ pset) (h_cnts :
    Part.cnts ∈ pset) (h_snaps : Part.snaps ∈ pset) (h_free : Part.free ∈ pset) (h_mem : Part.mem ∈ pset) (h_outs :
    Part.outs ∈ pset) (h_intc : Part.intc ∈ pset) (h_sw : Part.sw ∈ pset) (h_eth : Part.eth ∈ pset) (h_gate :
    Part.gate ∈ pset) (h_vlt : Part.vlt ∈ pset) (h_bnk : Part.bnk ∈ pset) (h_plk : Part.plk ∈ pset) (h_mdb : Part.mdb
    ∈ pset) (h_ptc : Part.ptc ∈ pset) (hk : Keeps pset z0 s) : Keeps pset z0 (Machine.enAll l s) := by
  unfold Machine.enAll
  repeat' (first
    | with_reducible first
      | assumption
      | apply K.enWrite h_regs h_cnts h_snaps h_free h_mem h_outs h_intc h_sw h_eth h_gate h_vlt h_bnk h_plk h_mdb
          h_ptc
      | refine Keeps.foldl (fun _ _ _ => ?_) ?_
    | intro _ _)

theorem stepEnable {pset : List Part} {z0 : State} {b : List Byte} {s : State} (h_all : ∀ p : Part, p ≠ .falls → p
    ∈ pset) (hk : Keeps pset z0 s) : Keeps pset z0 (Machine.stepEnable b s) := by
  unfold Machine.stepEnable
  repeat' (first
    | with_reducible first
      | assumption | apply K.setR (h_all _ (by decide)) | apply K.putF (h_all _ (by decide))
      | apply K.putB (h_all _ (by decide)) | apply K.cfgLock (h_all _ (by decide)) | apply K.bunStart h_all
      | apply K.enAll (h_all _ (by decide)) (h_all _ (by decide)) (h_all _ (by decide)) (h_all _ (by decide))
          (h_all _ (by decide)) (h_all _ (by decide)) (h_all _ (by decide)) (h_all _ (by decide)) (h_all _ (by
          decide)) (h_all _ (by decide)) (h_all _ (by decide)) (h_all _ (by decide)) (h_all _ (by decide)) (h_all _
          (by decide)) (h_all _ (by decide))
      | refine Keeps.ite (fun _ => ?_) (fun _ => ?_) | refine Keeps.foldl (fun _ _ _ => ?_) ?_
    | intro _ _ | dsimp only | split)

theorem stepForward {pset : List Part} {z0 : State} {b : List Byte} {s : State} (h_regs : Part.regs ∈ pset)
    (h_cnts : Part.cnts ∈ pset) (h_snaps : Part.snaps ∈ pset) (h_free : Part.free ∈ pset) (h_mem : Part.mem ∈ pset)
    (h_outs : Part.outs ∈ pset) (h_intc : Part.intc ∈ pset) (h_sys : Part.sys ∈ pset) (h_sw : Part.sw ∈ pset) (h_eth :
    Part.eth ∈ pset) (h_gate : Part.gate ∈ pset) (h_vlt : Part.vlt ∈ pset) (h_bnk : Part.bnk ∈ pset) (h_plk : Part.plk
    ∈ pset) (h_mdb : Part.mdb ∈ pset) (h_ptc : Part.ptc ∈ pset) (hk : Keeps pset z0 s) : Keeps pset z0
    (Machine.stepForward b s) := by
  unfold Machine.stepForward
  repeat' (first
    | with_reducible first
      | assumption | apply K.setR h_regs | apply K.setPhase h_regs h_outs h_intc
      | apply K.setCounter h_regs h_outs h_intc h_vlt
      | apply K.enWrite h_regs h_cnts h_snaps h_free h_mem h_outs h_intc h_sw h_eth h_gate h_vlt h_bnk h_plk h_mdb
          h_ptc
      | refine Keeps.ite (fun _ => ?_) (fun _ => ?_)
    | dsimp only | split | simp only [Keeps.lit_sys h_sys])

theorem bootRun {pset : List Part} {z0 : State} {b : List Byte} {ns : Nat} {s : State} (h_all : ∀ p : Part, p ≠
    .falls → p ∈ pset) (hk : Keeps pset z0 s) : Keeps pset z0 (Machine.bootRun b ns s) := by
  unfold Machine.bootRun
  repeat' (first
    | with_reducible first
      | assumption | apply K.setPhase (h_all _ (by decide)) (h_all _ (by decide)) (h_all _ (by decide))
      | apply K.advanceCycles (h_all _ (by decide)) (h_all _ (by decide)) (h_all _ (by decide)) (h_all _ (by decide))
      | apply K.placeRecompute (h_all _ (by decide)) (h_all _ (by decide)) (h_all _ (by decide)) (h_all _ (by
          decide)) (h_all _ (by decide)) (h_all _ (by decide)) (h_all _ (by decide)) (h_all _ (by decide)) (h_all _
          (by decide)) (h_all _ (by decide)) (h_all _ (by decide))
      | apply K.persAtStart (h_all _ (by decide)) (h_all _ (by decide)) | apply K.stepConfigure h_all
      | apply K.banksSettle (h_all _ (by decide)) (h_all _ (by decide)) (h_all _ (by decide)) (h_all _ (by
          decide)) (h_all _ (by decide)) (h_all _ (by decide))
      | apply K.stepEnable h_all
      | apply K.stepForward (h_all _ (by decide)) (h_all _ (by decide)) (h_all _ (by decide)) (h_all _ (by
          decide)) (h_all _ (by decide)) (h_all _ (by decide)) (h_all _ (by decide)) (h_all _ (by decide)) (h_all _
          (by decide)) (h_all _ (by decide)) (h_all _ (by decide)) (h_all _ (by decide)) (h_all _ (by decide)) (h_all
          _ (by decide)) (h_all _ (by decide)) (h_all _ (by decide))
    | dsimp only | simp only [Keeps.lit_sys (h_all _ (by decide))])

theorem waitHost {pset : List Part} {z0 : State} {s : State} (h_regs : Part.regs ∈ pset) (h_outs : Part.outs ∈
    pset) (h_intc : Part.intc ∈ pset) (hk : Keeps pset z0 s) : Keeps pset z0 (Machine.waitHost s) := by
  unfold Machine.waitHost
  repeat' (first
    | with_reducible first
      | assumption | apply K.putF h_regs | apply K.setPhase h_regs h_outs h_intc
      | refine Keeps.foldl (fun _ _ _ => ?_) ?_
    | intro _ _ | dsimp only)

theorem waitHostEnd {pset : List Part} {z0 : State} {s : State} (h_regs : Part.regs ∈ pset) (hk : Keeps pset z0 s)
    : Keeps pset z0 (Machine.waitHostEnd s) := by
  unfold Machine.waitHostEnd
  repeat' (first
    | with_reducible first
      | assumption | apply K.putF h_regs | refine Keeps.foldl (fun _ _ _ => ?_) ?_
    | intro _ _)

theorem bootEarly {pset : List Part} {z0 : State} {e : BootEnv} {l : List Nat} {s : State} (h_regs : Part.regs ∈
    pset) (h_free : Part.free ∈ pset)
    (hk : Keeps pset z0 s) : Keeps pset z0 (Machine.bootEarly e l s).1 := by
  induction l generalizing s with
  | nil => exact hk
  | cons x r ih =>
    unfold Machine.bootEarly
    split
    · exact hk
    · exact hk
    · rename_i he
      cases he
      refine Keeps.iteFst (fun _ => K.putF h_regs hk) (fun _ => ?_)
      exact ih (K.imgFails h_regs h_free (K.putF h_regs hk))

theorem bootFrom {pset : List Part} {z0 : State} {e : BootEnv} {ns : Nat} {l : List Nat} {s : State} (h_all : ∀ p
    : Part, p ≠ .falls → p ∈ pset)
    (hk : Keeps pset z0 s) : Keeps pset z0 (Machine.bootFrom e ns l s) := by
  induction l generalizing s with
  | nil => exact K.setPhase (h_all _ (by decide)) (h_all _ (by decide)) (h_all _ (by decide)) (K.advanceCycles
      (h_all _ (by decide)) (h_all _ (by decide)) (h_all _ (by decide)) (h_all _ (by decide)) hk)
  | cons x r ih =>
    unfold Machine.bootFrom
    split
    · exact K.setPhase (h_all _ (by decide)) (h_all _ (by decide)) (h_all _ (by decide)) (K.advanceCycles (h_all _
        (by decide)) (h_all _ (by decide)) (h_all _ (by decide)) (h_all _ (by decide)) hk)
    · exact K.waitHost (h_all _ (by decide)) (h_all _ (by decide)) (h_all _ (by decide)) (K.advanceCycles (h_all _
        (by decide)) (h_all _ (by decide)) (h_all _ (by decide)) (h_all _ (by decide)) hk)
    · rename_i he
      cases he
      refine Keeps.ite (fun _ => ?_) (fun _ => ?_)
      · exact K.bootRun h_all (K.imgLoad (h_all _ (by decide)) (h_all _ (by decide)) (h_all _ (by decide)) (h_all
          _ (by decide)) (h_all _ (by decide)) (h_all _ (by decide)) (h_all _ (by decide)) (h_all _ (by decide)) hk)
      · exact ih (K.imgLoad (h_all _ (by decide)) (h_all _ (by decide)) (h_all _ (by decide)) (h_all _ (by
          decide)) (h_all _ (by decide)) (h_all _ (by decide)) (h_all _ (by decide)) (h_all _ (by decide)) hk)

theorem newChallenge {pset : List Part} {z0 : State} {s : State} (h_regs : Part.regs ∈ pset) (h_free : Part.free ∈
    pset) (hk : Keeps pset z0 s) : Keeps pset z0 (Machine.newChallenge s) := by
  unfold Machine.newChallenge
  repeat' (first
    | with_reducible first
      | assumption | apply K.setR64 h_regs | apply K.fresh h_free
    | dsimp only)

theorem latchStraps {pset : List Part} {z0 : State} {e : BootEnv} {s : State} (h_regs : Part.regs ∈ pset) (hk :
    Keeps pset z0 s) : Keeps pset z0 (Machine.latchStraps e s) := by
  unfold Machine.latchStraps
  repeat' (first
    | with_reducible first
      | assumption | apply K.setR h_regs)

theorem startRom {pset : List Part} {z0 : State} {s : State} (h_regs : Part.regs ∈ pset) (h_cnts : Part.cnts ∈
    pset) (h_free : Part.free ∈ pset) (h_outs : Part.outs ∈ pset) (h_intc : Part.intc ∈ pset) (h_sys : Part.sys ∈
    pset) (h_hif : Part.hif ∈ pset) (h_time : Part.time ∈ pset) (h_cores : Part.cores ∈ pset) (h_pwr : Part.pwr ∈
    pset) (hk : Keeps pset z0 s) : Keeps pset z0 (Machine.startRom s) := by
  unfold Machine.startRom
  repeat' (first
    | with_reducible first
      | assumption | apply K.setR h_regs | apply K.putB h_regs | apply K.setPhase h_regs h_outs h_intc
      | apply K.advanceCycles h_cnts h_sys h_time h_pwr | apply K.coreBoot h_cores
      | apply K.newChallenge h_regs h_free | refine Keeps.ite (fun _ => ?_) (fun _ => ?_)
    | dsimp only | split | simp only [Keeps.lit_sys h_sys] | simp only [Keeps.lit_hif_time h_hif h_time])

theorem startUp {pset : List Part} {z0 : State} {e : BootEnv} {s : State} (h_all : ∀ p : Part, p ≠ .falls → p ∈
    pset) (hk : Keeps pset z0 s) : Keeps pset z0 (Machine.startUp e s) := by
  unfold Machine.startUp
  repeat' (first
    | with_reducible first
      | assumption | apply K.setR (h_all _ (by decide)) | apply K.putF (h_all _ (by decide))
      | apply K.putB (h_all _ (by decide))
      | apply K.setPhase (h_all _ (by decide)) (h_all _ (by decide)) (h_all _ (by decide))
      | apply K.advanceCycles (h_all _ (by decide)) (h_all _ (by decide)) (h_all _ (by decide)) (h_all _ (by decide))
      | apply K.bistRepair (h_all _ (by decide)) (h_all _ (by decide)) (h_all _ (by decide))
      | apply K.healthStart (h_all _ (by decide)) (h_all _ (by decide)) (h_all _ (by decide)) (h_all _ (by decide))
      | apply K.degraded (h_all _ (by decide)) (h_all _ (by decide)) (h_all _ (by decide))
      | apply K.bootEarly (h_all _ (by decide)) (h_all _ (by decide)) | apply K.bootFrom h_all
      | apply K.startRom (h_all _ (by decide)) (h_all _ (by decide)) (h_all _ (by decide)) (h_all _ (by decide))
          (h_all _ (by decide)) (h_all _ (by decide)) (h_all _ (by decide)) (h_all _ (by decide)) (h_all _ (by
          decide)) (h_all _ (by decide))
      | refine Keeps.ite (fun _ => ?_) (fun _ => ?_)
    | intro _ _ | dsimp only | split | simp only [Keeps.lit_sys (h_all _ (by decide))])

theorem resetRelease {pset : List Part} {z0 : State} {e : BootEnv} {s : State} (h_all : ∀ p : Part, p ≠ .falls → p
    ∈ pset) (hk : Keeps pset z0 s) : Keeps pset z0 (Machine.resetRelease e s) := by
  unfold Machine.resetRelease
  repeat' (first
    | with_reducible first
      | assumption | apply K.latchStraps (h_all _ (by decide)) | apply K.startUp h_all
      | refine Keeps.ite (fun _ => ?_) (fun _ => ?_)
    | split)

theorem sysCmdEnd {pset : List Part} {z0 : State} {s : State} {r : Nat} (h_regs : Part.regs ∈ pset) (h_outs :
    Part.outs ∈ pset) (h_intc : Part.intc ∈ pset) (hk : Keeps pset z0 s) : Keeps pset z0 (Machine.sysCmdEnd s r) := by
  unfold Machine.sysCmdEnd
  repeat' (first
    | with_reducible first
      | assumption | apply K.setR h_regs | apply K.raiseIrq h_regs h_outs h_intc)

theorem pushBoot {pset : List Part} {z0 : State} {vendorSig : Bool} {ownerSig : Bool} {s : State} (h_all : ∀ p :
    Part, p ≠ .falls → p ∈ pset) (hk : Keeps pset z0 s) : Keeps pset z0 (Machine.pushBoot vendorSig ownerSig s) := by
  unfold Machine.pushBoot
  repeat' (first
    | with_reducible first
      | assumption | apply K.fresh (h_all _ (by decide))
      | apply K.setPhase (h_all _ (by decide)) (h_all _ (by decide)) (h_all _ (by decide))
      | apply K.imgLoad (h_all _ (by decide)) (h_all _ (by decide)) (h_all _ (by decide)) (h_all _ (by decide))
          (h_all _ (by decide)) (h_all _ (by decide)) (h_all _ (by decide)) (h_all _ (by decide))
      | apply K.bootRun h_all | apply K.waitHostEnd (h_all _ (by decide))
      | apply K.sysCmdEnd (h_all _ (by decide)) (h_all _ (by decide)) (h_all _ (by decide))
      | refine Keeps.ite (fun _ => ?_) (fun _ => ?_)
    | dsimp only | split)

end Sys2Proof.Laws.K
end

