-- ==== Sys2Proof/Laws/KeepsTrust.lean ====
section
/-! SUPPORT. What the operations of `Machine/Trust.lean` keep. -/

namespace Sys2Proof.Laws.K

open Sys2Proof Sys2Proof.Machine Sys2Proof.Laws

theorem sysCmd {pset : List Part} {z0 : State} {f : State → State} {s : State} (h_f : ∀ u0, Keeps pset z0 u0 →
    Keeps pset z0 (f u0)) (hk : Keeps pset z0 s) : Keeps pset z0 (Machine.sysCmd f s) := by
  unfold Machine.sysCmd
  repeat' (first
    | with_reducible first
      | assumption | apply h_f | refine Keeps.ite (fun _ => ?_) (fun _ => ?_)
    | split)

theorem sysPolicyHost {pset : List Part} {z0 : State} {v : Bool} {s : State} (h_regs : Part.regs ∈ pset) (h_outs :
    Part.outs ∈ pset) (h_intc : Part.intc ∈ pset) (hk : Keeps pset z0 s) : Keeps pset z0 (Machine.sysPolicyHost v s)
    := by
  unfold Machine.sysPolicyHost
  repeat' (first
    | with_reducible first
      | assumption | apply K.wpolWrite h_regs h_outs h_intc)

theorem eraseStart {pset : List Part} {z0 : State} {s : State} (h_regs : Part.regs ∈ pset) (h_outs : Part.outs ∈
    pset) (h_intc : Part.intc ∈ pset) (h_gate : Part.gate ∈ pset) (h_vlt : Part.vlt ∈ pset) (hk : Keeps pset z0 s) :
    Keeps pset z0 (Machine.eraseStart s) := by
  unfold Machine.eraseStart
  repeat' (first
    | with_reducible first
      | assumption | apply K.putB h_regs | apply K.setOwner h_regs h_outs h_intc
      | apply K.rowsWrite h_regs h_outs h_intc h_vlt | apply K.cntEnd h_regs h_outs h_intc
      | apply K.catEnd h_regs h_outs h_intc
    | intro _ _ | dsimp only | split | simp only [Keeps.lit_gate h_gate] | simp only [Keeps.lit_vlt h_vlt]
    | simp only [Keeps.lit_gate_vlt h_gate h_vlt])

theorem eraseCmd {pset : List Part} {z0 : State} {s : State} (h_regs : Part.regs ∈ pset) (h_outs : Part.outs ∈
    pset) (h_intc : Part.intc ∈ pset) (h_gate : Part.gate ∈ pset) (h_vlt : Part.vlt ∈ pset) (hk : Keeps pset z0 s) :
    Keeps pset z0 (Machine.eraseCmd s) := by
  unfold Machine.eraseCmd
  repeat' (first
    | with_reducible first
      | assumption | apply K.setR h_regs | apply K.sysCmdEnd h_regs h_outs h_intc
      | apply K.eraseStart h_regs h_outs h_intc h_gate h_vlt | refine Keeps.ite (fun _ => ?_) (fun _ => ?_)
    | split)

theorem eraseDone {pset : List Part} {z0 : State} {s : State} (h_regs : Part.regs ∈ pset) (h_free : Part.free ∈
    pset) (h_outs : Part.outs ∈ pset) (h_intc : Part.intc ∈ pset) (h_sys : Part.sys ∈ pset) (h_gate : Part.gate ∈
    pset) (h_vlt : Part.vlt ∈ pset) (h_test : Part.test ∈ pset) (h_falls : Part.falls ∈ pset) (hk : Keeps pset z0 s) :
    Keeps pset z0 (Machine.eraseDone s) := by
  unfold Machine.eraseDone
  repeat' (first
    | with_reducible first
      | assumption | apply K.putB h_regs | apply K.setOwner h_regs h_outs h_intc
      | apply K.vaultWipe h_regs h_free h_outs h_intc h_gate h_vlt h_falls
      | apply K.atbFollow h_regs h_outs h_intc h_test | apply K.sysCmdEnd h_regs h_outs h_intc
      | apply K.sysPolicyHost h_regs h_outs h_intc | refine Keeps.ite (fun _ => ?_) (fun _ => ?_)
    | dsimp only | split | simp only [Keeps.lit_sys_gate h_sys h_gate])

theorem entry0Write {pset : List Part} {z0 : State} {r : List Byte} {s : State} (h_regs : Part.regs ∈ pset)
    (h_free : Part.free ∈ pset) (h_outs : Part.outs ∈ pset) (h_intc : Part.intc ∈ pset) (h_gate : Part.gate ∈ pset)
    (h_vlt : Part.vlt ∈ pset) (hk : Keeps pset z0 s) : Keeps pset z0 (Machine.entry0Write r s) := by
  unfold Machine.entry0Write
  repeat' (first
    | with_reducible first
      | assumption | apply K.markWrite h_vlt | apply K.catSet h_gate | apply K.poolZero h_gate
      | apply K.catPersist h_regs h_free h_outs h_intc h_vlt | refine Keeps.foldl (fun _ _ _ => ?_) ?_
      | refine Keeps.foldlFst (fun _ _ _ => ?_) ?_
    | intro _ _ | dsimp only | simp only [Keeps.lit_gate h_gate])

theorem enrol {pset : List Part} {z0 : State} {lattice : Bool} {s : State} (h_regs : Part.regs ∈ pset) (h_free :
    Part.free ∈ pset) (h_outs : Part.outs ∈ pset) (h_intc : Part.intc ∈ pset) (h_gate : Part.gate ∈ pset) (h_vlt :
    Part.vlt ∈ pset) (h_test : Part.test ∈ pset) (hk : Keeps pset z0 s) : Keeps pset z0 (Machine.enrol lattice s) :=
    by
  unfold Machine.enrol
  repeat' (first
    | with_reducible first
      | assumption | apply K.setR h_regs | apply K.setOwner h_regs h_outs h_intc
      | apply K.rowsWrite h_regs h_outs h_intc h_vlt | apply K.jRecord h_regs h_outs h_intc h_gate h_vlt
      | apply K.atbFollow h_regs h_outs h_intc h_test | apply K.sysCmdEnd h_regs h_outs h_intc
      | apply K.sysPolicyHost h_regs h_outs h_intc | apply K.entry0Write h_regs h_free h_outs h_intc h_gate h_vlt
      | refine Keeps.ite (fun _ => ?_) (fun _ => ?_)
    | dsimp only | split)

theorem debugGrant {pset : List Part} {z0 : State} {scope : Nat} {s : State} (h_regs : Part.regs ∈ pset) (h_cnts :
    Part.cnts ∈ pset) (h_free : Part.free ∈ pset) (h_mem : Part.mem ∈ pset) (h_outs : Part.outs ∈ pset) (h_intc :
    Part.intc ∈ pset) (h_sw : Part.sw ∈ pset) (h_gate : Part.gate ∈ pset) (h_vlt : Part.vlt ∈ pset) (h_bnk : Part.bnk
    ∈ pset) (h_mdb : Part.mdb ∈ pset) (h_test : Part.test ∈ pset) (hk : Keeps pset z0 s) : Keeps pset z0
    (Machine.debugGrant scope s) := by
  unfold Machine.debugGrant
  repeat' (first
    | with_reducible first
      | assumption | apply K.putF h_regs | apply K.putB h_regs | apply K.raiseIrq h_regs h_outs h_intc
      | apply K.setCounter h_regs h_outs h_intc h_vlt | apply K.jRecord h_regs h_outs h_intc h_gate h_vlt
      | apply K.lockdownBegin h_regs h_cnts h_free h_mem h_outs h_intc h_sw h_gate h_vlt h_bnk h_mdb
      | apply K.atbFollow h_regs h_outs h_intc h_test
    | dsimp only)

theorem debugUnlock {pset : List Part} {z0 : State} {lattice : Bool} {s : State} (h_regs : Part.regs ∈ pset)
    (h_cnts : Part.cnts ∈ pset) (h_free : Part.free ∈ pset) (h_mem : Part.mem ∈ pset) (h_outs : Part.outs ∈ pset)
    (h_intc : Part.intc ∈ pset) (h_sw : Part.sw ∈ pset) (h_gate : Part.gate ∈ pset) (h_vlt : Part.vlt ∈ pset) (h_bnk :
    Part.bnk ∈ pset) (h_mdb : Part.mdb ∈ pset) (h_test : Part.test ∈ pset) (hk : Keeps pset z0 s) : Keeps pset z0
    (Machine.debugUnlock lattice s) := by
  unfold Machine.debugUnlock
  repeat' (first
    | with_reducible first
      | assumption | apply K.putF h_regs | apply K.newChallenge h_regs h_free | apply K.sysCmdEnd h_regs h_outs h_intc
      | apply K.debugGrant h_regs h_cnts h_free h_mem h_outs h_intc h_sw h_gate h_vlt h_bnk h_mdb h_test
      | refine Keeps.ite (fun _ => ?_) (fun _ => ?_)
    | dsimp only | split)

theorem debugLock {pset : List Part} {z0 : State} {s : State} (h_regs : Part.regs ∈ pset) (h_outs : Part.outs ∈
    pset) (h_intc : Part.intc ∈ pset) (h_gate : Part.gate ∈ pset) (h_vlt : Part.vlt ∈ pset) (h_test : Part.test ∈
    pset) (hk : Keeps pset z0 s) : Keeps pset z0 (Machine.debugLock s) := by
  unfold Machine.debugLock
  repeat' (first
    | with_reducible first
      | assumption | apply K.putF h_regs | apply K.putB h_regs | apply K.raiseIrq h_regs h_outs h_intc
      | apply K.jRecord h_regs h_outs h_intc h_gate h_vlt | apply K.lockdownEnd h_regs h_outs h_intc
      | apply K.atbFollow h_regs h_outs h_intc h_test | apply K.sysCmdEnd h_regs h_outs h_intc
      | refine Keeps.ite (fun _ => ?_) (fun _ => ?_)
    | dsimp only | split)

theorem bunProg {pset : List Part} {z0 : State} {p : Option BundleProg} {s : State} (h_sys : Part.sys ∈ pset) (hk
    : Keeps pset z0 s) : Keeps pset z0 (Machine.bunProg p s) := by
  unfold Machine.bunProg
  repeat' (first
    | with_reducible first
      | assumption
    | dsimp only | simp only [Keeps.lit_sys h_sys])

theorem bunAct {pset : List Part} {z0 : State} {b : List Byte} {p : BundleProg} {s : State} (h_all : ∀ p : Part, p
    ≠ .falls → p ∈ pset) (hk : Keeps pset z0 s) : Keeps pset z0 (Machine.bunAct b p s).1 := by
  unfold Machine.bunAct
  repeat' (first
    | with_reducible first
      | assumption | apply K.recApply h_all | refine Keeps.ite (fun _ => ?_) (fun _ => ?_)
      | refine Keeps.iteFst (fun _ => ?_) (fun _ => ?_)
    | dsimp only | split)

theorem bunActs {pset : List Part} {z0 : State} {b : List Byte} {fuel : Nat} {p : BundleProg} {s : State} (h_all :
    ∀ p : Part, p ≠ .falls → p ∈ pset) (hk : Keeps pset z0 s) : Keeps pset z0 (Machine.bunActs b fuel p s).1 := by
  induction fuel generalizing b p s with
  | zero =>
    unfold Machine.bunActs
    repeat' (first
      | with_reducible first
        | assumption | apply K.bunAct h_all
      | dsimp only | split)
  | succ _ ih =>
    unfold Machine.bunActs
    repeat' (first
      | with_reducible first
        | assumption | apply ih | apply K.bunAct h_all
      | dsimp only | split)

theorem bunEnd {pset : List Part} {z0 : State} {tag : Nat} {code : Nat} {s : State} (h_all : ∀ p : Part, p ≠
    .falls → p ∈ pset) (hk : Keeps pset z0 s) : Keeps pset z0 (Machine.bunEnd tag code s) := by
  unfold Machine.bunEnd
  repeat' (first
    | with_reducible first
      | assumption
      | apply K.releasedEnd (h_all _ (by decide)) (h_all _ (by decide)) (h_all _ (by decide)) (h_all _ (by
          decide)) (h_all _ (by decide)) (h_all _ (by decide)) (h_all _ (by decide)) (h_all _ (by decide)) (h_all _
          (by decide)) (h_all _ (by decide))
      | apply K.resetCause h_all | refine Keeps.ite (fun _ => ?_) (fun _ => ?_)
    | dsimp only | split | simp only [Keeps.lit_sys (h_all _ (by decide))])

theorem bunCount1 {pset : List Part} {z0 : State} {b : List Byte} {s : State} (h_regs : Part.regs ∈ pset) (h_outs
    : Part.outs ∈ pset) (h_intc : Part.intc ∈ pset) (h_vlt : Part.vlt ∈ pset) (hk : Keeps pset z0 s) : Keeps pset z0
    (Machine.bunCount1 b s) := by
  unfold Machine.bunCount1
  repeat' (first
    | with_reducible first
      | assumption | apply K.setCounter h_regs h_outs h_intc h_vlt)

theorem bunStore {pset : List Part} {z0 : State} {x : Bundle} {s : State} (h_regs : Part.regs ∈ pset) (h_outs :
    Part.outs ∈ pset) (h_intc : Part.intc ∈ pset) (h_vlt : Part.vlt ∈ pset) (hk : Keeps pset z0 s) : Keeps pset z0
    (Machine.bunStore x s) := by
  unfold Machine.bunStore
  repeat' (first
    | with_reducible first
      | assumption | apply K.rowsWrite h_regs h_outs h_intc h_vlt | refine Keeps.ite (fun _ => ?_) (fun _ => ?_)
    | dsimp only | split | simp only [Keeps.lit_vlt h_vlt])

theorem bunFinish {pset : List Part} {z0 : State} {x : Bundle} {p : BundleProg} {s : State} (h_all : ∀ p : Part, p
    ≠ .falls → p ∈ pset) (hk : Keeps pset z0 s) : Keeps pset z0 (Machine.bunFinish x p s) := by
  unfold Machine.bunFinish
  repeat' (first
    | with_reducible first
      | assumption | apply K.setR (h_all _ (by decide))
      | apply K.raiseIrq (h_all _ (by decide)) (h_all _ (by decide)) (h_all _ (by decide)) | apply K.bunEnd h_all
      | apply K.bunCount1 (h_all _ (by decide)) (h_all _ (by decide)) (h_all _ (by decide)) (h_all _ (by decide))
      | apply K.bunStore (h_all _ (by decide)) (h_all _ (by decide)) (h_all _ (by decide)) (h_all _ (by decide))
    | dsimp only | split)

theorem bunHandle {pset : List Part} {z0 : State} {kinds : Nat → Bool} {lattice : Bool} {f : Bundle → State →
    State} {s : State} (h_all : ∀ p : Part, p ≠ .falls → p ∈ pset) (h_f : ∀ u0 u1, Keeps pset z0 u1 → Keeps pset z0 (f
    u0 u1)) (hk : Keeps pset z0 s) : Keeps pset z0 (Machine.bunHandle kinds lattice f s) := by
  unfold Machine.bunHandle
  repeat' (first
    | with_reducible first
      | assumption | apply h_f | apply K.bunEnd h_all | refine Keeps.ite (fun _ => ?_) (fun _ => ?_)
    | dsimp only | split)

theorem bunWrites {pset : List Part} {z0 : State} {x : Bundle} {s : State} (h_all : ∀ p : Part, p ≠ .falls → p ∈
    pset) (hk : Keeps pset z0 s) : Keeps pset z0 (Machine.bunWrites x s) := by
  unfold Machine.bunWrites
  repeat' (first
    | with_reducible first
      | assumption | apply K.bunProg (h_all _ (by decide)) | apply K.bunActs h_all | apply K.bunFinish h_all
      | refine Keeps.ite (fun _ => ?_) (fun _ => ?_)
    | dsimp only | split)

theorem bunTransfer {pset : List Part} {z0 : State} {x : Bundle} {s : State} (h_all : ∀ p : Part, p ≠ .falls → p ∈
    pset) (hk : Keeps pset z0 s) : Keeps pset z0 (Machine.bunTransfer x s) := by
  unfold Machine.bunTransfer
  repeat' (first
    | with_reducible first
      | assumption
      | apply K.revokeEntry (h_all _ (by decide)) (h_all _ (by decide)) (h_all _ (by decide)) (h_all _ (by
          decide)) (h_all _ (by decide)) (h_all _ (by decide)) (h_all _ (by decide)) (h_all _ (by decide)) (h_all _
          (by decide)) (h_all _ (by decide)) (h_all _ (by decide))
      | apply K.scansOver (h_all _ (by decide)) (h_all _ (by decide)) (h_all _ (by decide)) (h_all _ (by decide))
          (h_all _ (by decide))
      | apply K.catPersist (h_all _ (by decide)) (h_all _ (by decide)) (h_all _ (by decide)) (h_all _ (by decide))
          (h_all _ (by decide))
      | apply K.entry0Write (h_all _ (by decide)) (h_all _ (by decide)) (h_all _ (by decide)) (h_all _ (by
          decide)) (h_all _ (by decide)) (h_all _ (by decide))
      | apply K.bunEnd h_all
      | apply K.bunCount1 (h_all _ (by decide)) (h_all _ (by decide)) (h_all _ (by decide)) (h_all _ (by decide))
      | refine Keeps.ite (fun _ => ?_) (fun _ => ?_) | refine Keeps.foldl (fun _ _ _ => ?_) ?_
      | refine Keeps.foldlFst (fun _ _ _ => ?_) ?_
    | intro _ _ | dsimp only | split | simp only [Keeps.lit_gate (h_all _ (by decide))])

theorem bunPolicy {pset : List Part} {z0 : State} {x : Bundle} {s : State} (h_all : ∀ p : Part, p ≠ .falls → p ∈
    pset) (hk : Keeps pset z0 s) : Keeps pset z0 (Machine.bunPolicy x s) := by
  unfold Machine.bunPolicy
  repeat' (first
    | with_reducible first
      | assumption | apply K.setR (h_all _ (by decide))
      | apply K.rowsWrite (h_all _ (by decide)) (h_all _ (by decide)) (h_all _ (by decide)) (h_all _ (by decide))
      | apply K.jTurn (h_all _ (by decide)) (h_all _ (by decide)) (h_all _ (by decide)) (h_all _ (by decide))
          (h_all _ (by decide))
      | apply K.atbFollow (h_all _ (by decide)) (h_all _ (by decide)) (h_all _ (by decide)) (h_all _ (by decide))
      | apply K.bunEnd h_all
      | apply K.bunCount1 (h_all _ (by decide)) (h_all _ (by decide)) (h_all _ (by decide)) (h_all _ (by decide))
      | apply K.bunStore (h_all _ (by decide)) (h_all _ (by decide)) (h_all _ (by decide)) (h_all _ (by decide))
      | refine Keeps.ite (fun _ => ?_) (fun _ => ?_)
    | dsimp only | split)

theorem bunErase {pset : List Part} {z0 : State} {x : Bundle} {s : State} (h_all : ∀ p : Part, p ≠ .falls → p ∈
    pset) (hk : Keeps pset z0 s) : Keeps pset z0 (Machine.bunErase x s) := by
  unfold Machine.bunErase
  repeat' (first
    | with_reducible first
      | assumption
      | apply K.eraseStart (h_all _ (by decide)) (h_all _ (by decide)) (h_all _ (by decide)) (h_all _ (by decide))
          (h_all _ (by decide))
      | apply K.bunEnd h_all
      | apply K.bunCount1 (h_all _ (by decide)) (h_all _ (by decide)) (h_all _ (by decide)) (h_all _ (by decide))
      | refine Keeps.ite (fun _ => ?_) (fun _ => ?_)
    | dsimp only | split)

end Sys2Proof.Laws.K
end

