-- ==== Sys2Proof/Laws/Time.lean ====
section
/-! SUPPORT. What the passing of time changes, and what a reset leaves. -/

namespace Sys2Proof.Laws

open Sys2Proof Sys2Proof.Machine Sys2Proof.Machine.Reg

/-! Time. -/

/-- Time passing in the always-on domain changes of the system state its ticks alone, and of time what counts there. -/
theorem advanceAon_parts (s : State) (ns : Nat) :
    (advanceAon s ns).sys = { s.sys with aonTicks := s.sys.aonTicks + (aonTicksIn s.time.aonAcc ns).1 } ∧
    (advanceAon s ns).time = { s.time with
      aonNs := s.time.aonNs + ns
      aonAcc := (aonTicksIn s.time.aonAcc ns).2
      rtc := if s.time.rtcOn then (s.time.rtc + (aonTicksIn s.time.aonAcc ns).1) % (2 ^ 48 * 32768) else s.time.rtc } := by
  unfold advanceAon
  dsimp only
  generalize aonTicksIn s.time.aonAcc ns = p
  have hc : ∀ u : State, ((List.range 16).foldl (countCluster ns) u).sys = u.sys ∧
      ((List.range 16).foldl (countCluster ns) u).time = u.time := by
    intro u
    have h := Keeps.foldl (m := [.cnts, .pwr]) (l := List.range 16) (f := countCluster ns) (s := u)
      (fun t x ht => K.countCluster (by decide) (by decide) ht) (Keeps.refl _ u)
    exact ⟨h.sys.resolve_left (by decide), h.time.resolve_left (by decide)⟩
  have hb : ∀ (u : State) (a n : Nat) (c : Prop) [Decidable c],
      (if c then u else bumpN u a n).sys = u.sys ∧ (if c then u else bumpN u a n).time = u.time := by
    intro u a n c _
    split <;> exact ⟨rfl, rfl⟩
  have hi : ∀ (u : State) (c : Prop) [Decidable c],
      (if c then (List.range 16).foldl (countCluster ns) u else u).sys = u.sys ∧
      (if c then (List.range 16).foldl (countCluster ns) u else u).time = u.time := by
    intro u c _
    split
    · exact hc u
    · exact ⟨rfl, rfl⟩
  exact ⟨(hi _ _).1.trans (hb _ _ _ _).1, (hi _ _).2.trans (hb _ _ _ _).2⟩

theorem held_advanceCycles (s : State) (k : Nat) : (advanceCycles s k).sys.held = s.sys.held := by
  unfold advanceCycles
  dsimp only
  split
  · rw [show ∀ x : TimeSt, ({ advanceAon s (4 * k) with time := x } : State).sys = (advanceAon s (4 * k)).sys from fun _ => rfl,
      (advanceAon_parts s (4 * k)).1]
  · rw [(advanceAon_parts s (4 * k)).1]

theorem held_advanceNs (s : State) (n : Nat) : (advanceNs s n).sys.held = s.sys.held := by
  unfold advanceNs
  split
  · rfl
  · exact held_advanceCycles _ _

theorem aonNs_advanceCycles (s : State) (k : Nat) : (advanceCycles s k).time.aonNs = s.time.aonNs + 4 * k := by
  unfold advanceCycles
  dsimp only
  split
  · show (advanceAon s (4 * k)).time.aonNs = _
    rw [(advanceAon_parts s (4 * k)).2]
  · rw [(advanceAon_parts s (4 * k)).2]

/-- While the TIME domain runs, the Tense counter counts four nanoseconds a cycle. -/
theorem tense_advanceCycles {s : State} (h : s.time.running = true) (k : Nat) :
    (advanceCycles s k).time.tense = s.time.tense + BitVec.ofNat 64 (4 * k) := by
  have h1 := (advanceAon_parts s (4 * k)).2
  unfold advanceCycles
  dsimp only
  rw [if_pos (by rw [h1]; exact h)]
  show (advanceAon s (4 * k)).time.tense + _ = _
  rw [h1]

/-- Registers stand while time passes. -/
theorem getR_advanceCycles (s : State) (k a : Nat) : getR (advanceCycles s k) a = getR s a :=
  getR_congr ((K.advanceCycles (pset := [.cnts, .sys, .time, .pwr]) (by decide) (by decide) (by decide) (by decide)
    (Keeps.refl _ s)).regs.resolve_left (by decide)) a

theorem getR_advanceNs (s : State) (n a : Nat) : getR (advanceNs s n) a = getR s a := by
  unfold advanceNs
  split
  · rfl
  · exact getR_advanceCycles _ _ _

/-- Time passing changes of the power state the clusters' fractions of a count alone. -/
theorem pwr_advanceAon (s : State) (ns : Nat) : ∃ c, (advanceAon s ns).pwr = { s.pwr with cacc := c } := by
  have hc : ∀ (l : List Nat) (u : State), ∃ c, (l.foldl (countCluster ns) u).pwr = { u.pwr with cacc := c } := by
    intro l
    induction l with
    | nil => exact fun u => ⟨_, rfl⟩
    | cons x r ih =>
      intro u
      obtain ⟨c, hx⟩ := ih (countCluster ns u x)
      rw [List.foldl_cons, hx]
      unfold countCluster
      split
      · dsimp only
        split
        · exact ⟨_, rfl⟩
        · exact ⟨_, rfl⟩
      · exact ⟨_, rfl⟩
  have hb : ∀ (u : State) (a n : Nat) (c : Prop) [Decidable c], (if c then u else bumpN u a n).pwr = u.pwr := by
    intro u a n c _
    split <;> rfl
  have hi : ∀ (u : State) (p : PwrSt) (_ : u.pwr = p) (c : Prop) [Decidable c],
      ∃ x, (if c then (List.range 16).foldl (countCluster ns) u else u).pwr = { p with cacc := x } := by
    intro u p hp c _
    subst hp
    split
    · exact hc _ u
    · exact ⟨_, rfl⟩
  unfold advanceAon
  dsimp only
  generalize aonTicksIn s.time.aonAcc ns = p
  exact hi _ _ (hb _ _ _ _) _

theorem pwr_advanceCycles (s : State) (k : Nat) : ∃ c, (advanceCycles s k).pwr = { s.pwr with cacc := c } := by
  unfold advanceCycles
  dsimp only
  split
  · exact pwr_advanceAon s (4 * k)
  · exact pwr_advanceAon s (4 * k)

theorem pwr_advanceNs (s : State) (n : Nat) : ∃ c, (advanceNs s n).pwr = { s.pwr with cacc := c } := by
  unfold advanceNs
  split
  · exact ⟨_, rfl⟩
  · exact pwr_advanceCycles _ _

/-! Reset. -/

theorem getR_copyRegs_ne {s t : State} {l : List Nat} {a : Nat} (h : a ∉ l) : getR (copyRegs s t l) a = getR t a := by
  unfold copyRegs
  refine foldl_keeps (P := fun u : State => getR u a = getR t a) rfl fun u x hx hu => ?_
  split
  · exact hu
  · refine (getR_setR_ne ?_).trans hu
    rintro rfl
    exact h hx

/-- What a reset keeps beside registers. -/
theorem wiped_parts (aon : Bool) (s : State) :
    (wiped aon s).sys.held = true ∧ (wiped aon s).mem = [] ∧ (wiped aon s).vlt = vaultKept s.vlt ∧
    (wiped aon s).sys.deviceId = s.sys.deviceId ∧ (wiped aon s).sys.slots = s.sys.slots := by
  have hc : ∀ (u t : State) (l : List Nat), (copyRegs u t l).sys = t.sys ∧ (copyRegs u t l).mem = t.mem ∧
      (copyRegs u t l).vlt = t.vlt := by
    intro u t l
    have h := K.copyRegs (pset := [.regs]) (s := u) (l := l) (by decide) (Keeps.refl _ t)
    exact ⟨h.sys.resolve_left (by decide), h.mem.resolve_left (by decide), h.vlt.resolve_left (by decide)⟩
  unfold wiped
  dsimp only
  split
  · refine ⟨?_, ?_, ?_, ?_, ?_⟩
    · rw [(hc _ _ _).1]; show (copyRegs _ _ _).sys.held = _; rw [(hc _ _ _).1]; rfl
    · rw [(hc _ _ _).2.1]; show (copyRegs _ _ _).mem = _; rw [(hc _ _ _).2.1]; rfl
    · rw [(hc _ _ _).2.2]; show (copyRegs _ _ _).vlt = _; rw [(hc _ _ _).2.2]
    · rw [(hc _ _ _).1]; show (copyRegs _ _ _).sys.deviceId = _; rw [(hc _ _ _).1]
    · rw [(hc _ _ _).1]; show (copyRegs _ _ _).sys.slots = _; rw [(hc _ _ _).1]
  · refine ⟨?_, ?_, ?_, ?_, ?_⟩
    · rw [(hc _ _ _).1]; rfl
    · rw [(hc _ _ _).2.1]; rfl
    · rw [(hc _ _ _).2.2]
    · rw [(hc _ _ _).1]
    · rw [(hc _ _ _).1]

theorem fld_w32 {n hi lo : Nat} (h : hi < 32) : fld (w32 n) hi lo = n / 2 ^ lo % 2 ^ (hi + 1 - lo) := by
  unfold fld nbits w32
  rw [BitVec.toNat_ofNat, Nat.shiftRight_eq_div_pow]
  refine Nat.eq_of_testBit_eq fun i => ?_
  simp only [Nat.testBit_mod_two_pow, Nat.testBit_div_two_pow]
  by_cases hi' : i < hi + 1 - lo
  · have : i + lo < 32 := by omega
    simp [this]
  · simp [hi']

theorem causeOf_lt (m : Nat) : causeOf m < 9 := by
  have h : ∀ x ∈ causeOrder, x < 9 := by decide
  unfold causeOf
  cases hf : causeOrder.find? fun c => m.testBit (c - 1) with
  | none => decide
  | some x => exact h x (List.mem_of_find?_eq_some hf)

/-- A reset of cause `c`, outside a reset. -/
theorem reset_by {c : Nat} {also : BitVec 8} {lock : Bool} {s : State} (hc : 2 ^ (c - 1) < 256) (h : s.sys.held = false) :
    ResetBy c also s (resetCause c also lock s) := by
  unfold ResetBy resetCause resetAssert
  rw [h]
  simp only [Bool.false_eq_true, if_false]
  generalize hm : Nat.lor also.toNat (2 ^ (c - 1)) = mask
  have hlt : mask < 256 := by
    rw [← hm]
    exact Nat.or_lt_two_pow (n := 8) also.isLt hc
  have hcl := causeOf_lt mask
  obtain ⟨h1, h2, h3, h4, h5⟩ := wiped_parts (!(clearsAon (causeOf mask))) s
  have hw : ∀ (u : State) (x : SysSt), getR { (putB (putB (setR u SYS_RESET_CAUSE (resetCauseWord s mask)) SYS_HEALTH 3 lock)
      TMP_TRIP_STATUS 1 (decide (causeOf mask = rcTherm))) with sys := x } SYS_RESET_CAUSE = resetCauseWord s mask := by
    intro u x
    refine (getR_congr (s := putB (putB (setR u SYS_RESET_CAUSE (resetCauseWord s mask)) SYS_HEALTH 3 lock)
      TMP_TRIP_STATUS 1 (decide (causeOf mask = rcTherm))) rfl _).trans ?_
    rw [getR_putB_ne (by decide), getR_putB_ne (by decide), getR_setR_same]
  have hprev : (if causeOf mask = rcPor then 0 else getF s SYS_RESET_CAUSE 7 0) < 256 := by
    split
    · decide
    · exact fld_lt _ 7 0
  refine ⟨h1, ?_, ?_, ?_, h2, ?_, ?_, h4, h5⟩
  · unfold getF; rw [hw]; unfold resetCauseWord; rw [fld_w32 (by decide)]
    generalize (if causeOf mask = rcPor then 0 else getF s SYS_RESET_CAUSE 7 0) = prev at hprev ⊢
    simp only [Nat.pow_zero, Nat.div_one]
    omega
  · unfold getF; rw [hw]; unfold resetCauseWord; rw [fld_w32 (by decide)]
    show _ = if causeOf mask = rcPor then 0 else getF s SYS_RESET_CAUSE 7 0
    generalize (if causeOf mask = rcPor then 0 else getF s SYS_RESET_CAUSE 7 0) = prev at hprev ⊢
    omega
  · unfold getF; rw [hw]; unfold resetCauseWord; rw [fld_w32 (by decide)]
    generalize (if causeOf mask = rcPor then 0 else getF s SYS_RESET_CAUSE 7 0) = prev at hprev ⊢
    omega
  · show (wiped _ s).vlt.counters = _; rw [h3]; rfl
  · show (wiped _ s).vlt.journal = _; rw [h3]; rfl

theorem causeOf_por {m : Nat} (h : m.testBit 0 = true) : causeOf m = rcPor := by
  unfold causeOf causeOrder
  simp [h]

/-- A power-on reset takes the rails down. -/
theorem resetAssert_por {also : BitVec 8} {s : State} (h : s.sys.held = false) :
    ResetBy 1 also s (resetAssert (Nat.lor also.toNat (2 ^ (rcPor - 1))) false s) ∧
    (resetAssert (Nat.lor also.toNat (2 ^ (rcPor - 1))) false s).sys.pmicEn = false := by
  refine ⟨reset_by (c := 1) (lock := false) (by decide) h, ?_⟩
  have hb : (Nat.lor also.toNat (2 ^ (rcPor - 1))).testBit 0 = true := by
    show (also.toNat ||| 1).testBit 0 = true
    rw [Nat.testBit_or]; simp
  unfold resetAssert
  rw [h, causeOf_por hb]
  rfl

/-- The wake sources that count depend on four registers. -/
theorem wakeHits_congr {s u : State}
    (h : ∀ a ∈ [PWR_WAKE_PIN_CFG, PWR_PIO_WAKE_CFG, PWR_WAKE_EN_DOZE, PWR_WAKE_EN_DEEP], getR u a = getR s a) (src t : Nat) :
    wakeHits u src t = wakeHits s src t := by
  simp only [List.forall_mem_cons, List.forall_mem_nil] at h
  obtain ⟨h1, h2, h3, h4, _⟩ := h
  unfold wakeHits wakeSeen wakeEnabled getF
  rw [h1, h2, h3, h4]

end Sys2Proof.Laws
end

