-- ==== Sys2Proof/Laws/Boot.lean ====
section
/-! SUPPORT. Registers that start-up and the commands of the SSP leave alone, and the phase and result that they set. -/

namespace Sys2Proof.Laws

open Sys2Proof Sys2Proof.Machine Sys2Proof.Machine.Reg

/-! Start-up. -/

theorem getR_setPhase {a : Nat} (h : Still a) (h2 : a ≠ SYS_BOOT_STATUS ∧ a ≠ IRQ_STATUS SYS) (s : State) (p : Nat) :
    getR (setPhase s p) a = getR s a := by
  unfold setPhase
  split
  · rfl
  · rw [getR_raiseIrq h h2.2]; exact getR_putF_ne h2.1

theorem phase_setPhase (s : State) {p : Nat} (h : p < 256) : phase (setPhase s p) = p := by
  unfold setPhase
  split
  · assumption
  · unfold phase getF
    rw [getR_raiseIrq ⟨by decide, by decide, by decide, by decide⟩ (by decide), getR_putF_same, fld_setFld_same (by decide)]
    exact Nat.mod_eq_of_lt h

theorem getR_sysCmdEnd {a : Nat} (h : Still a) (h1 : a ≠ SYS_CMD_RESULT) (h2 : a ≠ IRQ_STATUS SYS) (s : State) (r : Nat) :
    getR (sysCmdEnd s r) a = getR s a := by
  unfold sysCmdEnd
  rw [getR_raiseIrq h h2]
  exact getR_setR_ne h1

theorem sysCmdEnd_result (s : State) (r : Nat) : getR (sysCmdEnd s r) SYS_CMD_RESULT = w32 r := by
  unfold sysCmdEnd
  rw [getR_raiseIrq ⟨by decide, by decide, by decide, by decide⟩ (by decide), getR_setR_same]

theorem getR_wearTo {a : Nat} (h : Still a) (h1 : a < VLT ∨ VLT + 0x1000 ≤ a) (s : State) {r n : Nat} (hr : r < 4) :
    getR (wearTo s r n) a = getR s a := by
  unfold wearTo
  have hw : a ≠ VLT_WEAR r := by simp only [VLT_WEAR]; simp only [VLT] at h1; omega
  have hs : a ≠ VLT_STATUS := by simp only [VLT_STATUS]; simp only [VLT] at h1; omega
  have hi : a ≠ IRQ_STATUS VLT := by simp only [IRQ_STATUS, VLT]; simp only [VLT] at h1; omega
  split
  · rfl
  · dsimp only
    split
    · rw [getR_raiseIrq h hi, getR_putB_ne hs, getR_setR_ne hw]
    · exact getR_setR_ne hw

theorem getR_setCounter {a : Nat} (h : Still a) (h1 : a < VLT ∨ VLT + 0x1000 ≤ a) (s : State) (c : Nat) (v : DWord) :
    getR (setCounter s c v) a = getR s a := by
  unfold setCounter rowsWrite
  dsimp only
  rw [getR_wearTo h h1 _ (by decide)]
  rfl

theorem getR_rowsWrite {a : Nat} (h : Still a) (h1 : a < VLT ∨ VLT + 0x1000 ≤ a) (s : State) {l : Nat} (n : Nat)
    (hl : logRegion l < 4) : getR (rowsWrite s l n) a = getR s a := by
  unfold rowsWrite
  dsimp only
  rw [getR_wearTo h h1 _ hl]
  rfl

theorem getR_healthStart {a : Nat} (h : Still a) (h1 : a < VLT ∨ VLT + 0x1000 ≤ a) (e : BootEnv) (s : State) :
    getR (healthStart e s) a = getR s a := by
  unfold healthStart healthPut
  rw [getR_rowsWrite h h1 _ _ (by decide)]
  rfl

theorem getR_zeroBank (s : State) (b a : Nat) : getR (zeroBank s b) a = getR s a := rfl

/-- Repair and substitution write the pages of BNK and PEN. -/
theorem getR_bistRepair {a : Nat} (h1 : a < BNK ∨ BNK + 0x20000 ≤ a) (h2 : a < BNK) (e : BootEnv) (s : State) :
    getR (bistRepair e s) a = getR s a := by
  have hb : ∀ x, a ≠ BNK_PHYS_word_1 x := fun x => by simp only [BNK_PHYS_word_1]; simp only [BNK] at h2; omega
  have hm : ∀ x, a ≠ BNK_MAP x := fun x => by simp only [BNK_MAP]; simp only [BNK] at h2; omega
  have hs : ∀ x, a ≠ BNK_BANK_STATUS x := fun x => by simp only [BNK_BANK_STATUS]; simp only [BNK] at h2; omega
  have hp : ∀ x, a ≠ PEN_MAP x := fun x => by simp only [PEN_MAP]; simp only [BNK] at h2; omega
  have hd : ∀ x, a ≠ PEN_DEAD_CAUSE x := fun x => by simp only [PEN_DEAD_CAUSE]; simp only [BNK] at h2; omega
  unfold bistRepair
  dsimp only
  refine foldl_keeps (P := fun u : State => getR u a = getR s a) ?_ fun t x _ ht => ?_
  · refine foldl_keeps (P := fun u : State => getR u a = getR s a) ?_ fun t x _ ht => ?_
    · refine foldl_keeps (P := fun u : State => getR u a = getR s a) ?_ fun t x _ ht => ?_
      · refine foldl_keeps (P := fun u : State => getR u a = getR s a) ?_ fun t x _ ht => ?_
        · refine foldl_keeps (P := fun u : State => getR u a = getR s a) rfl fun t x _ ht => ?_
          rw [getR_putF_ne (hb _), getR_putF_ne (hb _)]; exact ht
        · rw [getR_putF_ne (hb _)]; exact ht
      · unfold substitute
        dsimp only
        rw [getR_putB_ne (hs _), getR_zeroBank, getR_putF_ne (hm _), getR_putF_ne (hb _), getR_putB_ne (hb _),
          getR_putF_ne (hb _), getR_putF_ne (hb _)]
        exact ht
    · rw [getR_putF_ne (hd _), getR_putF_ne (hp _), getR_putB_ne (hp _), getR_putB_ne (hp _)]; exact ht
  · rw [getR_putF_ne (hp _), getR_putF_ne (hp _), getR_putB_ne (hp _)]; exact ht

theorem getR_startRom_cfg (s : State) : getR (startRom s) SYS_BOOT_CFG = getR s SYS_BOOT_CFG := by
  unfold startRom newChallenge coreBoot
  dsimp only
  rw [show ∀ (t : State) (x : TimeSt) (y : HifSt), getR { t with time := x, hif := y } SYS_BOOT_CFG = getR t SYS_BOOT_CFG
    from fun _ _ _ => rfl]
  rw [getR_putB_ne (by decide), getR_setR_ne (by decide), getR_advanceCycles, getR_coreSet, getR_putB_ne (by decide)]
  unfold setR64
  rw [getR_setR_ne (by decide), getR_setR_ne (by decide)]
  show getR (setPhase _ 1) SYS_BOOT_CFG = _
  rw [getR_setPhase (by decide) (by decide)]
  rfl

theorem bootFrom_host (e : BootEnv) (ns : Nat) (r : List Nat) (s : State) :
    bootFrom e ns (2 :: r) s = waitHost (advanceCycles s (ns / 4)) := by
  unfold bootFrom
  rfl

/-- Start-up with the straps at host boot waits for the host, and `BOOT_CFG` stands. -/
theorem startUp_host {e : BootEnv} {s : State} (h2 : getF (startRom s) SYS_BOOT_CFG 1 0 = 1) (h3 : failedBlock e = 0)
    (h4 : sparesExhausted e = false) :
    ∃ v n, startUp e s = waitHost (advanceCycles v n) ∧ getR v SYS_BOOT_CFG = getR s SYS_BOOT_CFG := by
  unfold startUp
  dsimp only
  generalize e.us.toNat * 1000 - 500000 = ns
  rw [if_neg (by rw [h3]; decide), h2, h3, h4]
  have hv : getR (setPhase (startRom s) 2) SYS_BOOT_CFG = getR s SYS_BOOT_CFG := by
    rw [getR_setPhase (by decide) (by decide), getR_startRom_cfg]
  generalize setPhase (startRom s) 2 = v at hv
  rw [if_neg (by simp)]
  refine ⟨_, _, bootFrom_host _ _ _ _, ?_⟩
  rw [getR_healthStart (by decide) (by decide), getR_setR_ne (by decide), getR_bistRepair (by decide) (by decide),
    getR_setPhase (by decide) (by decide)]
  exact hv

theorem vlt_wearTo (s : State) (r n : Nat) : (wearTo s r n).vlt = s.vlt :=
  (K.wearTo (pset := [.regs, .outs, .intc]) (by decide) (by decide) (by decide) (Keeps.refl _ s)).vlt.resolve_left (by decide)

/-- What a vault holds that has been wiped. -/
structure Wiped (v : VltSt) : Prop where
  counters : v.counters = []
  marks : v.marks = []
  catImg : v.catImg = []
  poolImg : v.poolImg = []
  tags : v.tags = []
  persisted : v.persisted = []
  journal : v.journal = []
  eraseMark : v.eraseMark = false

theorem Wiped.rows {s : State} (h : Wiped s.vlt) (l n : Nat) : Wiped (rowsWrite s l n).vlt := by
  unfold rowsWrite
  dsimp only
  rw [vlt_wearTo]
  exact ⟨h.1, h.2, h.3, h.4, h.5, h.6, h.7, h.8⟩

/-- The same but for the erase mark, which is cleared last. -/
structure Emptied (v : VltSt) : Prop where
  counters : v.counters = []
  marks : v.marks = []
  catImg : v.catImg = []
  poolImg : v.poolImg = []
  tags : v.tags = []
  persisted : v.persisted = []
  journal : v.journal = []

theorem Emptied.rows {s : State} (h : Emptied s.vlt) (l n : Nat) : Emptied (rowsWrite s l n).vlt := by
  unfold rowsWrite
  dsimp only
  rw [vlt_wearTo]
  exact ⟨h.1, h.2, h.3, h.4, h.5, h.6, h.7⟩

theorem Emptied.mark {v : VltSt} (h : Emptied v) : Wiped { v with eraseMark := false } :=
  ⟨h.1, h.2, h.3, h.4, h.5, h.6, h.7, rfl⟩

theorem Emptied.logZero {s : State} (h : Emptied s.vlt) (l : Nat) : Emptied (Machine.logZero s l).vlt := by
  have hr := h.rows l (logRows l)
  unfold Machine.logZero
  exact ⟨hr.1, hr.2, hr.3, hr.4, hr.5, hr.6, hr.7⟩

theorem Emptied.newIdentity {s : State} (h : Emptied s.vlt) : Emptied (Machine.newIdentity s).vlt := by
  unfold Machine.newIdentity
  dsimp only
  refine Emptied.rows ?_ _ _
  have e : Emptied ((List.range 8).foldl (fun t i => let f := fresh t; setR f.2 (VLT_ID_PUB i) (lo32 f.1)) s).vlt :=
    foldl_keeps (P := fun t : State => Emptied t.vlt) h fun t i _ ht => ht
  exact ⟨e.1, e.2, e.3, e.4, e.5, e.6, e.7⟩

theorem Emptied.pool {s : State} (h1 : s.vlt.counters = []) (h2 : s.vlt.marks = []) (h3 : s.vlt.catImg = [])
    (h4 : s.vlt.persisted = []) (h5 : s.vlt.journal = []) : Emptied (poolImgZero s).vlt := by
  unfold poolImgZero
  dsimp only
  generalize List.foldl _ s.vlt.pageWr _ = wr
  rw [vlt_wearTo]
  exact ⟨h1, h2, h3, rfl, rfl, h4, h5⟩

theorem Emptied.zeros {s : State} (h : Emptied s.vlt) (l : List Nat) : Emptied (l.foldl Machine.logZero s).vlt :=
  foldl_keeps (P := fun u : State => Emptied u.vlt) h fun _ x _ hu => hu.logZero x

theorem wiped_vault (s : State) : Wiped (vaultWipe s).vlt := by
  unfold vaultWipe
  extract_lets wear g v s1 s2 s3 w
  have h1 : Emptied (poolImgZero (wearTo s1 1 wear)).vlt := by
    apply Emptied.pool <;> rw [vlt_wearTo]
  have h2 : Emptied s2.vlt := Emptied.zeros h1 _
  clear_value s2
  have e : ∀ (u : State) (a : Nat) (x : Word), (setR u a x).vlt = u.vlt := fun _ _ _ => rfl
  have h3 : Emptied s3.vlt := Emptied.newIdentity (by rw [e, e, e]; exact h2)
  clear_value s3
  exact Wiped.rows (Emptied.mark h3) 4 1

/-- A command that works on a bundle hands it to the meaning of its kind. -/
theorem bunWorks_handle {c : Instr} {x : Bundle} {v : Bool} (h : bunWorks c x = some v) (s : State) :
    ∃ k f, exec c s = .next (bunHandle k v f s) ∧ k (bunKind x.bytes) = true := by
  cases c <;> simp only [bunWorks, reduceCtorEq] at h
  · split at h
    · cases h
    · rename_i hk
      cases h
      exact ⟨_, _, rfl, by simp only [decide_eq_false hk, Bool.not_false]⟩
  all_goals
    split at h
    · rename_i hk
      cases h
      exact ⟨_, _, rfl, decide_eq_true hk⟩
    · cases h

theorem erase_tail {x : State} (hv : Wiped x.vlt) :
    ∃ y : State, (y.gate.cat = [] ∧ y.gate.pool = [] ∧ Wiped y.vlt) ∧ Keeps [.regs, .outs, .intc, .test] y
      (let s2 := { x with gate := { x.gate with cat := [], pool := [] }, sys := { x.sys with everStarted := true } }
       let s3 := setOwner (putB s2 VLT_STATUS 30 false) 0
       let s4 := atbFollow (sysPolicyHost true s3)
       if sysCmdBusy s4 then sysCmdEnd s4 2 else s4) := by
  refine ⟨{ x with gate := { x.gate with cat := [], pool := [] }, sys := { x.sys with everStarted := true } }, ⟨rfl, rfl, hv⟩, ?_⟩
  have hk : ∀ y : State, Keeps [.regs, .outs, .intc, .test] y (atbFollow (sysPolicyHost true (setOwner (putB y VLT_STATUS 30 false) 0))) :=
    fun y => K.atbFollow (by decide) (by decide) (by decide) (by decide) (K.sysPolicyHost (by decide) (by decide) (by decide)
      (K.setOwner (by decide) (by decide) (by decide) (K.putB (by decide) (Keeps.refl _ _))))
  exact Keeps.ite (fun _ => K.sysCmdEnd (by decide) (by decide) (by decide) (hk _)) (fun _ => hk _)

/-- The end of an erase: beside registers and what follows them, the state is one whose vault, table and pool are empty. -/
theorem eraseDone_empty {s : State} (h : (erasing s && s.vlt.waiting.isEmpty) = true) :
    ∃ y : State, (y.gate.cat = [] ∧ y.gate.pool = [] ∧ Wiped y.vlt) ∧ Keeps [.regs, .outs, .intc, .test] y (eraseDone s) := by
  unfold eraseDone
  rw [if_pos h]
  exact erase_tail (wiped_vault s)

/-- Step 16 ends in RUN. -/
theorem phase_stepForward (b : List Byte) (s : State) : phase (stepForward b s) = phRun := by
  unfold stepForward
  dsimp only
  have h : ∀ (t : State) (x : SysSt), phase { setPhase t phRun with sys := x } = phRun := fun t x =>
    phase_setPhase t (by decide)
  split
  · show getF (setCounter _ _ _) SYS_BOOT_STATUS 7 0 = _
    unfold getF
    rw [getR_setCounter (by decide) (by decide)]
    exact h _ _
  · exact h _ _

end Sys2Proof.Laws
end

