-- ==== Sys2Proof/Laws/Eng.lean ====
section
/-! SUPPORT. When the DMA of an engine executes its head command. -/

namespace Sys2Proof.Laws

open Sys2Proof Sys2Proof.Machine Sys2Proof.Machine.Reg

variable {s : State} {n op : Nat} {c : DmaCmd} {r : List DmaCmd}

theorem dma_starts (h2 : engAlive s n = true) (h3 : (eng s n).dmaCpl.length < 8) (h4 : fld c.w0 31 28 = op)
    (h5 : dmaMayRun s op = true) :
    ¬(engAlive s n = false ∨ 8 ≤ (eng s n).dmaCpl.length ∨ fld c.w0 31 28 ≠ op ∨ dmaMayRun s op = false) := by
  rintro (h | h | h | h)
  · rw [h2] at h; cases h
  · omega
  · exact h h4
  · rw [h5] at h; cases h

theorem dmaRun_recv (h1 : (eng s n).dmaQ = c :: r) (h2 : engAlive s n = true) (h3 : (eng s n).dmaCpl.length < 8)
    (h4 : fld c.w0 31 28 = 1) (h5 : dmaMayRun s 1 = true) : dmaRun s n 1 = dmaRecv s n c := by
  unfold dmaRun
  rw [h1]
  dsimp only
  rw [if_neg (dma_starts h2 h3 h4 h5)]
  rfl

theorem dmaRun_send (h1 : (eng s n).dmaQ = c :: r) (h2 : engAlive s n = true) (h3 : (eng s n).dmaCpl.length < 8)
    (h4 : fld c.w0 31 28 = 2) (h5 : dmaMayRun s 2 = true) : dmaRun s n 2 = dmaSend s n c := by
  unfold dmaRun
  rw [h1]
  dsimp only
  rw [if_neg (dma_starts h2 h3 h4 h5)]
  rfl

theorem dmaRun_read (h1 : (eng s n).dmaQ = c :: r) (h2 : engAlive s n = true) (h3 : (eng s n).dmaCpl.length < 8)
    (h4 : fld c.w0 31 28 = 3) (h5 : dmaMayRun s 3 = true) : dmaRun s n 3 = dmaRead s n c := by
  unfold dmaRun
  rw [h1]
  dsimp only
  rw [if_neg (dma_starts h2 h3 h4 h5)]
  rfl

theorem dmaRun_write (h1 : (eng s n).dmaQ = c :: r) (h2 : engAlive s n = true) (h3 : (eng s n).dmaCpl.length < 8)
    (h4 : fld c.w0 31 28 = 4) (h5 : dmaMayRun s 4 = true) : dmaRun s n 4 = dmaWrite s n c := by
  unfold dmaRun
  rw [h1]
  dsimp only
  rw [if_neg (dma_starts h2 h3 h4 h5)]
  rfl

theorem dmaRun_idle (h : ∀ c ∈ (eng s n).dmaQ.head?, engAlive s n = false ∨ 8 ≤ (eng s n).dmaCpl.length ∨
    fld c.w0 31 28 ≠ op ∨ dmaMayRun s op = false) : dmaRun s n op = s := by
  unfold dmaRun
  cases e : (eng s n).dmaQ with
  | nil => rfl
  | cons c r =>
    dsimp only
    rw [if_pos (h c (by rw [e]; rfl))]

end Sys2Proof.Laws
end

