-- ==== Sys2Proof/Laws/Frames.lean ====
section
/-! SUPPORT. A stored frame is read from its cells: what its bytes depend on. -/

namespace Sys2Proof.Laws

open Sys2Proof Sys2Proof.Machine

variable {s t : State}

/-- A chain of cells follows the link memory alone. -/
theorem cellChain_congr (h : t.sw.link = s.sw.link) (n ptr : Nat) : cellChain t n ptr = cellChain s n ptr := by
  induction n generalizing ptr with
  | zero => rfl
  | succ n ih =>
    cases n with
    | zero => rfl
    | succ n => simp only [cellChain, h, ih]

/-- A frame is the same where memory, its marks of poison and the descriptors and links of the switch are. -/
theorem frameOf_congr (hm : t.mem = s.mem) (hp : t.bnk.poison = s.bnk.poison) (hf : t.sw.frames = s.sw.frames)
    (hl : t.sw.link = s.sw.link) (fid : Nat) : frameOf t fid = frameOf s fid := by
  have hr : frameRead t = frameRead s := by
    funext d
    unfold frameRead cellsOf rdBytes rdB poisonHit
    simp only [cellChain_congr hl, hm, hp]
  unfold frameOf
  rw [hf, hr]

end Sys2Proof.Laws
end

