-- ==== Sys2Proof/Laws/Host.lean ====
section
/-! SUPPORT. What the writes to a host ring's registers leave. -/

namespace Sys2Proof.Laws

open Sys2Proof Sys2Proof.Machine Sys2Proof.Machine.Reg

variable {s : State} {m : Master} {r : Nat} {v : Word}

theorem ring_offs : ∀ r < 32, ringOfOff (rgTAIL r - HIF) = some (r, 0x14) ∧ ringOfOff (rgCTRL r - HIF) = some (r, 0) ∧
    regDesc .HIF 0 (rgTAIL r - HIF) = rwReg 0 0xFFF ∧ regDesc .HIF 0 (rgCTRL r - HIF) = rwReg 0 0xFFFFFF01 ∧
    HIF + (rgTAIL r - HIF) = rgTAIL r ∧ HIF + (rgCTRL r - HIF) = rgCTRL r := by decide

theorem hif_tail_at {off : Nat} (h1 : ringOfOff off = some (r, 0x14)) (h3 : regDesc .HIF 0 off = rwReg 0 0xFFF) :
    hifWrite m off v s = setR s (HIF + off) ((getR s (HIF + off) &&& ~~~ w32 0xFFF) ||| (v &&& w32 0xFFF)) := by
  unfold hifWrite
  simp only [h1, h3, plainWrite_rw, Nat.reduceEqDiff, if_false, or_self]

theorem hif_tail (hr : r < 32) : hifWrite m (rgTAIL r - HIF) v s =
    setR s (rgTAIL r) ((getR s (rgTAIL r) &&& ~~~ w32 0xFFF) ||| (v &&& w32 0xFFF)) := by
  obtain ⟨h1, _, h3, _, h5, _⟩ := ring_offs r hr
  rw [hif_tail_at h1 h3, h5]

theorem tail_write (hr : r < 32) :
    let t := answer (hifWrite m (rgTAIL r - HIF) v s) 0
    getF t (rgTAIL r) 11 0 = fld v 11 0 ∧ (∀ a, a ≠ rgTAIL r → getR t a = getR s a) ∧ Only [.regs, .resp] s t := by
  rw [hif_tail hr]
  refine ⟨?_, ?_, ?_⟩
  · show fld (getR (setR s (rgTAIL r) _) (rgTAIL r)) 11 0 = _
    rw [getR_setR_same]
    exact fld_kept (by decide) (fun i _ h => (show ∀ i < 12, Nat.testBit 0xFFF i = true by decide) i (Nat.lt_succ_of_le h))
  · intro a ha
    exact getR_setR_ne ha
  · refine Keeps.only ?_
    repeat' (first | with_reducible exact Keeps.refl _ _ | with_reducible apply K.answer | with_reducible apply K.setR | decide)

/-- `CTRL` after a write. -/
def ringCtrl (s : State) (r : Nat) (v : Word) : State :=
  setR s (rgCTRL r) ((getR s (rgCTRL r) &&& ~~~ w32 0xFFFFFF01) ||| (v &&& w32 0xFFFFFF01))

theorem hif_ctrl_at {off : Nat} (h2 : ringOfOff off = some (r, 0)) (h4 : regDesc .HIF 0 off = rwReg 0 0xFFFFFF01)
    (h6 : HIF + off = rgCTRL r) : hifWrite m off v s =
      if getB s (rgCTRL r) 0 = bit v 0 then ringCtrl s r v
      else if bit v 0 then ringOn (ringCtrl s r v) r else ringOff (ringCtrl s r v) r := by
  unfold hifWrite ringCtrl
  simp only [h2, h4, plainWrite_rw, h6, if_true]

theorem hif_ctrl (hr : r < 32) : hifWrite m (rgCTRL r - HIF) v s =
    if getB s (rgCTRL r) 0 = bit v 0 then ringCtrl s r v
    else if bit v 0 then ringOn (ringCtrl s r v) r else ringOff (ringCtrl s r v) r := by
  obtain ⟨_, h2, _, h4, _, h6⟩ := ring_offs r hr
  exact hif_ctrl_at h2 h4 h6

theorem ctrl_en : getB (ringCtrl s r v) (rgCTRL r) 0 = bit v 0 := by
  unfold ringCtrl getB
  rw [getR_setR_same, bit_kept (by decide)]
  rfl

theorem status_ctrl : rgSTATUS r ≠ rgCTRL r := by
  unfold rgSTATUS rgCTRL
  omega

theorem getR_ringMod (f : RingSt → RingSt) (a : Nat) : getR (ringMod s r f) a = getR s a := rfl

theorem ringSt_ringMod (f : RingSt → RingSt) : ringSt (ringMod s r f) r = f (ringSt s r) := by
  show sget (sset s.hif.rings r (f (sget s.hif.rings r RingSt.init))) r RingSt.init = _
  rw [sget_sset_eq]
  rfl

theorem ring_enable (hr : r < 32) (h0 : getB s (rgCTRL r) 0 = false) :
    let t := answer (hifWrite m (rgCTRL r - HIF) (setBit v 0 true) s) 0
    getB t (rgCTRL r) 0 = true ∧ getB t (rgSTATUS r) 0 = true ∧ getB t (rgSTATUS r) 31 = false ∧
      (ringSt t r).ph = true ∧ (ringSt t r).count = (ringSt s r).count ∧ Only [.regs, .hif, .resp] s t := by
  have hb : bit (setBit v 0 true) 0 = true := bit_setBit_same (by decide)
  rw [hif_ctrl hr, h0, hb, if_neg (by decide), if_pos rfl]
  generalize hv : setBit v 0 true = w at hb
  have hc : getB (ringCtrl s r w) (rgCTRL r) 0 = true := ctrl_en.trans hb
  have hg : ∀ (u : State) (a i : Nat), getB (answer u 0) a i = getB u a i := fun _ _ _ => rfl
  have hi : ∀ u : State, ringSt (answer u 0) r = ringSt u r := fun _ => rfl
  unfold ringOn
  dsimp only
  simp only [hg, hi, ringSt_ringMod]
  refine ⟨?_, ?_, ?_, trivial, ?_, ?_⟩
  · unfold getB at hc ⊢
    rw [getR_ringMod, getR_putB_ne (fun h => status_ctrl h.symm), getR_putB_ne (fun h => status_ctrl h.symm)]
    exact hc
  · unfold getB
    rw [getR_ringMod, getR_putB_same, bit_setBit_same (by decide)]
  · unfold getB
    rw [getR_ringMod, getR_putB_same, bit_setBit_ne (by decide) (by decide), getR_putB_same, bit_setBit_same (by decide)]
  · rfl
  · refine Keeps.only ?_
    unfold ringCtrl
    repeat' (first | with_reducible exact Keeps.refl _ _ | with_reducible apply K.answer | with_reducible apply K.ringMod | with_reducible apply K.putB | with_reducible apply K.setR | decide)

theorem ring_stop (hr : r < 32) (h0 : getB s (rgCTRL r) 0 = true) (hp : (ringSt s r).part = none) :
    let t := answer (hifWrite m (rgCTRL r - HIF) (setBit v 0 false) s) 0
    getB t (rgCTRL r) 0 = false ∧ getB t (rgSTATUS r) 0 = false ∧ t.hif = s.hif ∧ Only [.regs, .resp] s t := by
  have hb : bit (setBit v 0 false) 0 = false := bit_setBit_same (by decide)
  rw [hif_ctrl hr, h0, hb, if_neg (by decide), if_neg (by decide)]
  generalize hv : setBit v 0 false = w at hb
  have hc : getB (ringCtrl s r w) (rgCTRL r) 0 = false := ctrl_en.trans hb
  have hs : ringSt (ringCtrl s r w) r = ringSt s r := rfl
  unfold ringOff
  rw [hs, hp, if_neg (by decide)]
  refine ⟨?_, ?_, rfl, ?_⟩
  · show bit (getR (putB (ringCtrl s r w) (rgSTATUS r) 0 false) (rgCTRL r)) 0 = false
    rw [getR_putB_ne (fun h => status_ctrl h.symm)]
    exact hc
  · show bit (getR (putB (ringCtrl s r w) (rgSTATUS r) 0 false) (rgSTATUS r)) 0 = false
    rw [getR_putB_same, bit_setBit_same (by decide)]
  · refine Keeps.only ?_
    unfold ringCtrl
    repeat' (first | with_reducible exact Keeps.refl _ _ | with_reducible apply K.answer | with_reducible apply K.ringMod | with_reducible apply K.putB | with_reducible apply K.setR | decide)

theorem ring_stop_later (hr : r < 32) (h0 : getB s (rgCTRL r) 0 = true) (hp : (ringSt s r).part ≠ none) :
    let t := answer (hifWrite m (rgCTRL r - HIF) (setBit v 0 false) s) 0
    getB t (rgCTRL r) 0 = false ∧ getR t (rgSTATUS r) = getR s (rgSTATUS r) ∧ (ringSt t r).stopping = true ∧
      Only [.regs, .hif, .resp] s t := by
  have hb : bit (setBit v 0 false) 0 = false := bit_setBit_same (by decide)
  rw [hif_ctrl hr, h0, hb, if_neg (by decide), if_neg (by decide)]
  generalize hv : setBit v 0 false = w at hb
  have hc : getB (ringCtrl s r w) (rgCTRL r) 0 = false := ctrl_en.trans hb
  have hs : ringSt (ringCtrl s r w) r = ringSt s r := rfl
  have hq : (ringSt s r).part.isSome = true := by
    cases h : (ringSt s r).part with
    | none => exact absurd h hp
    | some x => rfl
  unfold ringOff
  rw [hs, hq, if_pos rfl]
  refine ⟨hc, ?_, ?_, ?_⟩
  · show getR (ringCtrl s r w) (rgSTATUS r) = _
    exact getR_setR_ne status_ctrl
  · show (ringSt (ringMod (ringCtrl s r w) r _) r).stopping = true
    rw [ringSt_ringMod]
  · refine Keeps.only ?_
    unfold ringCtrl
    repeat' (first | with_reducible exact Keeps.refl _ _ | with_reducible apply K.answer | with_reducible apply K.ringMod | with_reducible apply K.putB | with_reducible apply K.setR | decide)

end Sys2Proof.Laws
end

