-- ==== Sys2Proof/Laws/KeepsSys.lean ====
section
/-! SUPPORT. What the operations of `Machine/Sys.lean` keep. -/

namespace Sys2Proof.Laws.K

open Sys2Proof Sys2Proof.Machine Sys2Proof.Laws

theorem sysCmdWrite {pset : List Part} {z0 : State} {v : Word} {s : State} (h_all : ∀ p : Part, p ≠ .falls → p ∈
    pset) (hk : Keeps pset z0 s) : Keeps pset z0 (Machine.sysCmdWrite v s) := by
  unfold Machine.sysCmdWrite
  repeat' (first
    | with_reducible first
      | assumption | apply K.fresh (h_all _ (by decide))
      | apply K.sysCmdEnd (h_all _ (by decide)) (h_all _ (by decide)) (h_all _ (by decide)) | apply K.pushBoot h_all
      | apply K.sysCmd
      | apply K.eraseCmd (h_all _ (by decide)) (h_all _ (by decide)) (h_all _ (by decide)) (h_all _ (by decide))
          (h_all _ (by decide))
      | apply K.enrol (h_all _ (by decide)) (h_all _ (by decide)) (h_all _ (by decide)) (h_all _ (by decide))
          (h_all _ (by decide)) (h_all _ (by decide)) (h_all _ (by decide))
      | apply K.debugUnlock (h_all _ (by decide)) (h_all _ (by decide)) (h_all _ (by decide)) (h_all _ (by
          decide)) (h_all _ (by decide)) (h_all _ (by decide)) (h_all _ (by decide)) (h_all _ (by decide)) (h_all _
          (by decide)) (h_all _ (by decide)) (h_all _ (by decide)) (h_all _ (by decide))
      | apply K.debugLock (h_all _ (by decide)) (h_all _ (by decide)) (h_all _ (by decide)) (h_all _ (by decide))
          (h_all _ (by decide)) (h_all _ (by decide))
    | intro _ _ | dsimp only | split)

theorem regStore {pset : List Part} {z0 : State} {m : Master} {a : Nat} {v : Word} {s : State} (h_all : ∀ p :
    Part, p ≠ .falls → p ∈ pset) (hk : Keeps pset z0 s) : Keeps pset z0 (Machine.regStore m a v s) := by
  unfold Machine.regStore
  repeat' (first
    | with_reducible first
      | assumption | apply K.pageWrite h_all | apply K.softResetWrite h_all | apply K.sysCmdWrite h_all
      | refine Keeps.ite (fun _ => ?_) (fun _ => ?_)
    | dsimp only | split)

theorem busErr {pset : List Part} {z0 : State} {m : Master} {wnr : Bool} {s : State} (h_resp : Part.resp ∈ pset)
    (hk : Keeps pset z0 s) : Keeps pset z0 (Machine.busErr m wnr s) := by
  unfold Machine.busErr
  repeat' (first
    | with_reducible first
      | assumption | apply K.answerErr h_resp | apply K.writeErr h_resp | refine Keeps.ite (fun _ => ?_) (fun _ => ?_)
    | split)

theorem busUnmapped {pset : List Part} {z0 : State} {m : Master} {a : Nat} {wnr : Bool} {s : State} (h_regs :
    Part.regs ∈ pset) (h_outs : Part.outs ∈ pset) (h_resp : Part.resp ∈ pset) (h_intc : Part.intc ∈ pset) (hk : Keeps
    pset z0 s) : Keeps pset z0 (Machine.busUnmapped m a wnr s) := by
  unfold Machine.busUnmapped
  repeat' (first
    | with_reducible first
      | assumption | apply K.recErr h_regs h_outs h_intc | apply K.busErr h_resp)

theorem busDenied {pset : List Part} {z0 : State} {m : Master} {a : Nat} {wnr : Bool} {s : State} (h_regs :
    Part.regs ∈ pset) (h_outs : Part.outs ∈ pset) (h_resp : Part.resp ∈ pset) (h_intc : Part.intc ∈ pset) (hk : Keeps
    pset z0 s) : Keeps pset z0 (Machine.busDenied m a wnr s) := by
  unfold Machine.busDenied
  repeat' (first
    | with_reducible first
      | assumption | apply K.deny h_regs h_outs h_intc | apply K.busErr h_resp)

theorem busNarrow {pset : List Part} {z0 : State} {m : Master} {a : Nat} {wnr : Bool} {s : State} (h_regs :
    Part.regs ∈ pset) (h_outs : Part.outs ∈ pset) (h_resp : Part.resp ∈ pset) (h_intc : Part.intc ∈ pset) (hk : Keeps
    pset z0 s) : Keeps pset z0 (Machine.busNarrow m a wnr s) := by
  unfold Machine.busNarrow
  repeat' (first
    | with_reducible first
      | assumption | apply K.recErr h_regs h_outs h_intc | apply K.busErr h_resp
      | apply K.busUnmapped h_regs h_outs h_resp h_intc | apply K.busDenied h_regs h_outs h_resp h_intc
      | refine Keeps.ite (fun _ => ?_) (fun _ => ?_)
    | dsimp only | split)

theorem busStore {pset : List Part} {z0 : State} {m : Master} {a : Nat} {l : List Byte} {s : State} (h_all : ∀ p :
    Part, p ≠ .falls → p ∈ pset) (hk : Keeps pset z0 s) : Keeps pset z0 (Machine.busStore m a l s) := by
  unfold Machine.busStore
  repeat' (first
    | with_reducible first
      | assumption | apply K.answer (h_all _ (by decide)) | apply K.answerErr (h_all _ (by decide))
      | apply K.recErr (h_all _ (by decide)) (h_all _ (by decide)) (h_all _ (by decide))
      | apply K.writeErr (h_all _ (by decide))
      | apply K.gatedWrite (h_all _ (by decide)) (h_all _ (by decide)) (h_all _ (by decide)) (h_all _ (by decide))
      | apply K.fabWrite (h_all _ (by decide)) (h_all _ (by decide)) (h_all _ (by decide)) (h_all _ (by decide))
          (h_all _ (by decide))
      | apply K.regStore h_all
      | apply K.busUnmapped (h_all _ (by decide)) (h_all _ (by decide)) (h_all _ (by decide)) (h_all _ (by decide))
      | apply K.busDenied (h_all _ (by decide)) (h_all _ (by decide)) (h_all _ (by decide)) (h_all _ (by decide))
      | apply K.busNarrow (h_all _ (by decide)) (h_all _ (by decide)) (h_all _ (by decide)) (h_all _ (by decide))
      | refine Keeps.ite (fun _ => ?_) (fun _ => ?_)
    | intro _ _ | dsimp only | split | refine Keeps.ofFst (by with_reducible assumption) ?_
    | refine Keeps.ofSnd (by with_reducible assumption) ?_ | refine Keeps.put (h_all _ (by decide)) ?_)

theorem busLoad {pset : List Part} {z0 : State} {m : Master} {a : Nat} {n : Nat} {s : State} (h_regs : Part.regs ∈
    pset) (h_outs : Part.outs ∈ pset) (h_resp : Part.resp ∈ pset) (h_intc : Part.intc ∈ pset) (h_fiq : Part.fiq ∈
    pset) (h_aq : Part.aq ∈ pset) (h_time : Part.time ∈ pset) (h_mgt : Part.mgt ∈ pset) (hk : Keeps pset z0 s) : Keeps
    pset z0 (Machine.busLoad m a n s) := by
  unfold Machine.busLoad
  repeat' (first
    | with_reducible first
      | assumption | apply K.answer h_resp | apply K.answerErr h_resp | apply K.gatedRead h_regs h_outs h_resp h_intc
      | apply K.fabRead h_regs h_outs h_intc | apply K.pageRead h_regs h_outs h_intc h_fiq h_aq h_time h_mgt
      | apply K.busUnmapped h_regs h_outs h_resp h_intc | apply K.busDenied h_regs h_outs h_resp h_intc
      | apply K.busNarrow h_regs h_outs h_resp h_intc | refine Keeps.ite (fun _ => ?_) (fun _ => ?_)
    | intro _ _ | dsimp only | split | refine Keeps.ofFst (by with_reducible assumption) ?_
    | refine Keeps.ofSnd (by with_reducible assumption) ?_)

end Sys2Proof.Laws.K
end

