-- ==== Sys2Proof/Laws/KeepsHertisCore.lean ====
section
/-! SUPPORT. What the operations of `Machine/HertisCore.lean` keep. -/

namespace Sys2Proof.Laws.K

open Sys2Proof Sys2Proof.Machine Sys2Proof.Laws

theorem busyCycle {pset : List Part} {z0 : State} {o : HOp} {s : State} {c : Nat} (h_cnts : Part.cnts ∈ pset) (hk
    : Keeps pset z0 s) : Keeps pset z0 (Machine.busyCycle o s c) := by
  unfold Machine.busyCycle
  repeat' (first
    | with_reducible first
      | assumption | apply K.bump h_cnts | refine Keeps.ite (fun _ => ?_) (fun _ => ?_)
    | dsimp only | split)

theorem romStall {pset : List Part} {z0 : State} {c : Nat} {x : CoreSt} {s : State} (h_free : Part.free ∈ pset)
    (hk : Keeps pset z0 s) : Keeps pset z0 (Machine.romStall c x s).2 := by
  unfold Machine.romStall
  repeat' (first
    | with_reducible first
      | assumption | apply K.fresh h_free | refine Keeps.ite (fun _ => ?_) (fun _ => ?_)
      | refine Keeps.iteFst (fun _ => ?_) (fun _ => ?_)
    | dsimp only | split)

theorem atBoundary {pset : List Part} {z0 t0 : State} {x : CoreSt} {s : State} {c : Nat} (h_free : Part.free ∈ pset)
    (he : Machine.atBoundary s c = some (x, t0)) (hk : Keeps pset z0 s) : Keeps pset z0 t0 := by
  unfold Machine.atBoundary at he
  dsimp only at he
  split at he
  · split at he <;> cases he
    exact K.romStall h_free hk
  · cases he

theorem issue {pset : List Part} {z0 : State} {o : HOp} {c : Nat} {body : Word → CoreSt → State → State} {s :
    State} (h_cnts : Part.cnts ∈ pset) (h_free : Part.free ∈ pset) (h_cores : Part.cores ∈ pset) (h_body : ∀ u0 u1 u2,
    Keeps pset z0 u2 → Keeps pset z0 (body u0 u1 u2)) (hk : Keeps pset z0 s) : Keeps pset z0 (Machine.issue o c body
    s) := by
  unfold Machine.issue
  repeat' (first
    | with_reducible first
      | assumption | apply h_body | apply K.coreSet h_cores | apply K.busyCycle h_cnts
      | refine K.atBoundary h_free (by assumption) ?_ | refine Keeps.ite (fun _ => ?_) (fun _ => ?_)
    | dsimp only | split | refine Keeps.ofFst (by with_reducible assumption) ?_
    | refine Keeps.ofSnd (by with_reducible assumption) ?_)

theorem giveReg {pset : List Part} {z0 : State} {c : Nat} {d : Nat} {v : Word} {w : Word} {x : CoreSt} {s : State}
    (h_cores : Part.cores ∈ pset) (hk : Keeps pset z0 s) : Keeps pset z0 (Machine.giveReg c d v w x s) := by
  unfold Machine.giveReg
  repeat' (first
    | with_reducible first
      | assumption | apply K.coreSet h_cores)

theorem issueR {pset : List Part} {z0 : State} {o : HOp} {c : Nat} {f : Word → Word → Word} {s : State} (h_cnts :
    Part.cnts ∈ pset) (h_free : Part.free ∈ pset) (h_cores : Part.cores ∈ pset) (hk : Keeps pset z0 s) : Keeps pset z0
    (Machine.issueR o c f s) := by
  unfold Machine.issueR
  repeat' (first
    | with_reducible first
      | assumption | apply K.issue h_cnts h_free h_cores | apply K.giveReg h_cores
    | intro _ _ | dsimp only)

theorem issueI {pset : List Part} {z0 : State} {o : HOp} {c : Nat} {f : Word → Word → Word} {s : State} (h_cnts :
    Part.cnts ∈ pset) (h_free : Part.free ∈ pset) (h_cores : Part.cores ∈ pset) (hk : Keeps pset z0 s) : Keeps pset z0
    (Machine.issueI o c f s) := by
  unfold Machine.issueI
  repeat' (first
    | with_reducible first
      | assumption | apply K.issue h_cnts h_free h_cores | apply K.giveReg h_cores
    | intro _ _ | dsimp only)

theorem issueM {pset : List Part} {z0 : State} {o : HOp} {c : Nat} {f : Word → Word → Word} {s : State} (h_cnts :
    Part.cnts ∈ pset) (h_free : Part.free ∈ pset) (h_cores : Part.cores ∈ pset) (hk : Keeps pset z0 s) : Keeps pset z0
    (Machine.issueM o c f s) := by
  unfold Machine.issueM
  repeat' (first
    | with_reducible first
      | assumption | apply K.issue h_cnts h_free h_cores | apply K.giveReg h_cores
    | intro _ _ | dsimp only)

theorem issueD {pset : List Part} {z0 : State} {o : HOp} {c : Nat} {f : Word → Word → Word} {s : State} (h_cnts :
    Part.cnts ∈ pset) (h_free : Part.free ∈ pset) (h_cores : Part.cores ∈ pset) (hk : Keeps pset z0 s) : Keeps pset z0
    (Machine.issueD o c f s) := by
  unfold Machine.issueD
  repeat' (first
    | with_reducible first
      | assumption | apply K.coreSet h_cores | apply K.issue h_cnts h_free h_cores
    | intro _ _ | dsimp only)

theorem qhLoad {pset : List Part} {z0 : State} {n : Nat} {k : Nat} {off : Nat} {s : State} (h_regs : Part.regs ∈
    pset) (h_fiq : Part.fiq ∈ pset) (hk : Keeps pset z0 s) : Keeps pset z0 (Machine.qhLoad n k off s).1 := by
  unfold Machine.qhLoad
  repeat' (first
    | with_reducible first
      | assumption | apply K.fiqPop h_regs h_fiq | refine Keeps.ite (fun _ => ?_) (fun _ => ?_)
      | refine Keeps.iteFst (fun _ => ?_) (fun _ => ?_)
    | dsimp only | split)

theorem periphLoad {pset : List Part} {z0 : State} {n : Nat} {a : Nat} {s : State} (h_regs : Part.regs ∈ pset)
    (h_fiq : Part.fiq ∈ pset) (h_eng : Part.eng ∈ pset) (hk : Keeps pset z0 s) : Keeps pset z0 (Machine.periphLoad n a
    s).1 := by
  unfold Machine.periphLoad
  repeat' (first
    | with_reducible first
      | assumption | apply K.dmaCplRead h_regs h_eng | apply K.dmaLevel h_eng | apply K.jobNext h_eng
      | apply K.engTnow h_regs | apply K.qhLoad h_regs h_fiq
    | intro _ _ | dsimp only | split | refine Keeps.ofFst (by with_reducible assumption) ?_
    | refine Keeps.ofSnd (by with_reducible assumption) ?_)

theorem qhStore {pset : List Part} {z0 : State} {n : Nat} {k : Nat} {off : Nat} {v : Word} {s : State} (h_regs :
    Part.regs ∈ pset) (h_cnts : Part.cnts ∈ pset) (h_outs : Part.outs ∈ pset) (h_intc : Part.intc ∈ pset) (h_eng :
    Part.eng ∈ pset) (h_plc : Part.plc ∈ pset) (hk : Keeps pset z0 s) : Keeps pset z0 (Machine.qhStore n k off v s) :=
    by
  unfold Machine.qhStore
  repeat' (first
    | with_reducible first
      | assumption | apply K.setR h_regs | apply K.migReady h_regs h_eng
      | apply K.migDone h_regs h_cnts h_outs h_intc h_eng h_plc | apply K.qhTxHead h_regs | apply K.qhRxTail h_regs
      | refine Keeps.ite (fun _ => ?_) (fun _ => ?_)
    | dsimp only | split)

theorem periphStore {pset : List Part} {z0 : State} {n : Nat} {a : Nat} {v : Word} {s : State} (h_regs : Part.regs
    ∈ pset) (h_cnts : Part.cnts ∈ pset) (h_mem : Part.mem ∈ pset) (h_outs : Part.outs ∈ pset) (h_intc : Part.intc ∈
    pset) (h_gate : Part.gate ∈ pset) (h_bnk : Part.bnk ∈ pset) (h_eng : Part.eng ∈ pset) (h_plc : Part.plc ∈ pset)
    (hk : Keeps pset z0 s) : Keeps pset z0 (Machine.periphStore n a v s) := by
  unfold Machine.periphStore
  repeat' (first
    | with_reducible first
      | assumption | apply K.setR h_regs | apply K.svcPost h_regs h_mem h_outs h_intc h_gate h_bnk
      | apply K.dmaPush h_regs h_eng | apply K.ckptCommit h_regs h_eng
      | apply K.jobEnd h_regs h_mem h_outs h_intc h_bnk h_eng h_plc | apply K.timerArm h_regs h_eng
      | apply K.engKick h_eng | apply K.crcData h_regs | apply K.qhStore h_regs h_cnts h_outs h_intc h_eng h_plc
      | refine Keeps.ite (fun _ => ?_) (fun _ => ?_)
    | dsimp only | split | refine Keeps.ofFst (by with_reducible assumption) ?_
    | refine Keeps.ofSnd (by with_reducible assumption) ?_)

theorem issueL {pset : List Part} {z0 : State} {o : HOp} {c : Nat} {s : State} (h_regs : Part.regs ∈ pset) (h_cnts
    : Part.cnts ∈ pset) (h_free : Part.free ∈ pset) (h_fiq : Part.fiq ∈ pset) (h_eng : Part.eng ∈ pset) (h_cores :
    Part.cores ∈ pset) (hk : Keeps pset z0 s) : Keeps pset z0 (Machine.issueL o c s) := by
  unfold Machine.issueL
  repeat' (first
    | with_reducible first
      | assumption | apply K.coreSet h_cores | apply K.issue h_cnts h_free h_cores
      | apply K.periphLoad h_regs h_fiq h_eng | refine Keeps.ite (fun _ => ?_) (fun _ => ?_)
    | intro _ _ | dsimp only | split)

theorem farStore {pset : List Part} {z0 : State} {c : Nat} {a : Word} {l : List Byte} {s : State} (h_all : ∀ p :
    Part, p ≠ .falls → p ∈ pset) (hk : Keeps pset z0 s) : Keeps pset z0 (Machine.farStore c a l s) := by
  unfold Machine.farStore
  repeat' (first
    | with_reducible first
      | assumption | apply K.coreMod (h_all _ (by decide)) | apply K.busErr (h_all _ (by decide))
      | apply K.busStore h_all
    | intro _ _ | dsimp only | split | simp only [Keeps.lit_resp (h_all _ (by decide))])

theorem issueS {pset : List Part} {z0 : State} {o : HOp} {c : Nat} {s : State} (h_all : ∀ p : Part, p ≠ .falls → p
    ∈ pset) (hk : Keeps pset z0 s) : Keeps pset z0 (Machine.issueS o c s) := by
  unfold Machine.issueS
  repeat' (first
    | with_reducible first
      | assumption | apply K.tcmWrite (h_all _ (by decide)) | apply K.coreSet (h_all _ (by decide))
      | apply K.issue (h_all _ (by decide)) (h_all _ (by decide)) (h_all _ (by decide))
      | apply K.periphStore (h_all _ (by decide)) (h_all _ (by decide)) (h_all _ (by decide)) (h_all _ (by
          decide)) (h_all _ (by decide)) (h_all _ (by decide)) (h_all _ (by decide)) (h_all _ (by decide)) (h_all _
          (by decide))
      | apply K.farStore h_all | refine Keeps.ite (fun _ => ?_) (fun _ => ?_)
    | intro _ _ | dsimp only | split | refine Keeps.put (h_all _ (by decide)) ?_)

theorem farData {pset : List Part} {z0 : State} {c : Nat} {s : State} (h_regs : Part.regs ∈ pset) (h_free :
    Part.free ∈ pset) (h_outs : Part.outs ∈ pset) (h_resp : Part.resp ∈ pset) (h_intc : Part.intc ∈ pset) (h_fiq :
    Part.fiq ∈ pset) (h_aq : Part.aq ∈ pset) (h_time : Part.time ∈ pset) (h_cores : Part.cores ∈ pset) (h_mgt :
    Part.mgt ∈ pset) (hk : Keeps pset z0 s) : Keeps pset z0 (Machine.farData c s) := by
  unfold Machine.farData
  repeat' (first
    | with_reducible first
      | assumption | apply K.fresh h_free | apply K.coreSet h_cores | apply K.busErr h_resp
      | apply K.busLoad h_regs h_outs h_resp h_intc h_fiq h_aq h_time h_mgt
      | refine Keeps.ite (fun _ => ?_) (fun _ => ?_)
    | dsimp only | split | simp only [Keeps.lit_resp h_resp])

theorem issueB {pset : List Part} {z0 : State} {o : HOp} {c : Nat} {f : Word → Word → Bool} {s : State} (h_cnts :
    Part.cnts ∈ pset) (h_free : Part.free ∈ pset) (h_cores : Part.cores ∈ pset) (hk : Keeps pset z0 s) : Keeps pset z0
    (Machine.issueB o c f s) := by
  unfold Machine.issueB
  repeat' (first
    | with_reducible first
      | assumption | apply K.coreSet h_cores | apply K.issue h_cnts h_free h_cores
      | refine Keeps.ite (fun _ => ?_) (fun _ => ?_)
    | intro _ _ | dsimp only | split)

theorem issueP {pset : List Part} {z0 : State} {o : HOp} {c : Nat} {s : State} (h_cnts : Part.cnts ∈ pset) (h_free
    : Part.free ∈ pset) (h_cores : Part.cores ∈ pset) (hk : Keeps pset z0 s) : Keeps pset z0 (Machine.issueP o c s) :=
    by
  unfold Machine.issueP
  repeat' (first
    | with_reducible first
      | assumption | apply K.coreSet h_cores | apply K.issue h_cnts h_free h_cores
      | refine Keeps.ite (fun _ => ?_) (fun _ => ?_)
    | intro _ _ | dsimp only | split)

theorem waitBegin {pset : List Part} {z0 : State} {c : Nat} {kind : Nat} {target : DWord} {w : Word} {x : CoreSt}
    {s : State} (h_cores : Part.cores ∈ pset) (hk : Keeps pset z0 s) : Keeps pset z0 (Machine.waitBegin c kind target
    w x s) := by
  unfold Machine.waitBegin
  repeat' (first
    | with_reducible first
      | assumption | apply K.coreSet h_cores
    | dsimp only)

theorem waitDone {pset : List Part} {z0 : State} {s : State} {c : Nat} {x : CoreSt} {q : CoreWait} (h_cores :
    Part.cores ∈ pset) (hk : Keeps pset z0 s) : Keeps pset z0 (Machine.waitDone s c x q) := by
  unfold Machine.waitDone
  repeat' (first
    | with_reducible first
      | assumption | apply K.coreSet h_cores | refine Keeps.ite (fun _ => ?_) (fun _ => ?_)
    | dsimp only | split)

theorem waitOver {pset : List Part} {z0 : State} {c : Nat} {s : State} (h_cnts : Part.cnts ∈ pset) (h_sys :
    Part.sys ∈ pset) (h_time : Part.time ∈ pset) (h_cores : Part.cores ∈ pset) (h_pwr : Part.pwr ∈ pset) (hk : Keeps
    pset z0 s) : Keeps pset z0 (Machine.waitOver c s) := by
  unfold Machine.waitOver
  repeat' (first
    | with_reducible first
      | assumption | apply K.advanceCore h_cnts h_sys h_time h_pwr | apply K.waitDone h_cores
      | refine Keeps.ite (fun _ => ?_) (fun _ => ?_)
    | dsimp only | split)

theorem issueC {pset : List Part} {z0 : State} {o : HOp} {c : Nat} {f : Word → Word → Word} {s : State} (h_cnts :
    Part.cnts ∈ pset) (h_free : Part.free ∈ pset) (h_cores : Part.cores ∈ pset) (hk : Keeps pset z0 s) : Keeps pset z0
    (Machine.issueC o c f s) := by
  unfold Machine.issueC
  repeat' (first
    | with_reducible first
      | assumption | apply K.coreSet h_cores | apply K.issue h_cnts h_free h_cores
      | refine Keeps.ite (fun _ => ?_) (fun _ => ?_)
    | intro _ _ | dsimp only | split | refine Keeps.ofFst (by with_reducible assumption) ?_
    | refine Keeps.ofSnd (by with_reducible assumption) ?_)

end Sys2Proof.Laws.K
end

