-- ==== Sys2Proof/Laws/Issue.lean ====
section
/-! SUPPORT. How a Hertis-32 core issues: its next instruction, what that raises, and entry to a handler. -/

namespace Sys2Proof.Laws

open Sys2Proof Sys2Proof.Machine Sys2Proof.Machine.Reg

variable {s t : State} {c : Nat} {o : HOp} {w : Word} {x : CoreSt} {r : Raise} {body : Word → CoreSt → State → State}

/-- The next instruction issues. -/
theorem issue_go (h : Issues s c o w x t) : issue o c body s = body w x (busyCycle o t c) := by
  obtain ⟨h1, h2, h3, h4⟩ := h
  unfold issue
  simp only [h1, h2, h3, h4, if_true]

/-- What the next instruction raises is taken. -/
theorem issue_trip (h : Trips s c o w x t r) : issue o c body s = coreSet t c (takeException c x r) := by
  obtain ⟨h1, h2, h3, h4⟩ := h
  unfold issue
  simp only [h1, h2, h3, h4, if_true]

/-- A core that issues nothing. -/
theorem issue_none (h : atBoundary s c = none) : issue o c body s = s := by
  unfold issue
  simp only [h]

theorem not_priv (h : c < 48) : priv c = false := decide_eq_false (by omega)

theorem is_priv (h : 48 ≤ c) : priv c = true := decide_eq_true h

theorem busy_priv (h : 48 ≤ c) : busyCycle o t c = t := by
  unfold busyCycle
  rw [if_pos (.inl (is_priv h))]

theorem busy_wait (h : [HOp.wfe, .wfet, .waitt].contains o = true) : busyCycle o t c = t := by
  unfold busyCycle
  rw [if_pos (.inr h)]

theorem alive_busy (n : Nat) (y : CoreSt) : engAlive (coreSet (busyCycle o t c) c y) n = engAlive t n := by
  unfold busyCycle
  split
  · rfl
  · split <;> rfl

theorem raises_ecall (h : x.delay = none) : raises t c x .ecall w = some (exEcall, 0) := by
  have hi : illegal t c x .ecall w = false := by
    unfold illegal
    simp [h, isCsr]
  have hp : privileged c .ecall w = false := by
    unfold privileged
    simp [isCsr]
  unfold raises
  simp only [hi, hp, Bool.and_false, Bool.false_eq_true, if_false]

theorem raises_ebreak (h : x.delay = none) (hd : haltsFor t c = false) : raises t c x .ebreak w = some (exEbreak, 0) := by
  have hi : illegal t c x .ebreak w = false := by
    unfold illegal
    simp [h, isCsr]
  have hp : privileged c .ebreak w = false := by
    unfold privileged
    simp [isCsr]
  unfold raises
  simp only [hi, hp, hd, Bool.and_false, Bool.false_eq_true, if_false]

theorem csr_set (y : CoreSt) (n k : Nat) (v : Word) : csrHeld c (csrSet y n v) k = if k = n then v else csrHeld c y k := by
  unfold csrHeld csrSet
  dsimp only
  rw [sget_sset]

theorem landTo_nothing (h : x.land = []) (n : Nat) : landTo c x n = x := by
  unfold landTo
  simp only [h, List.filter_nil, List.foldl_nil]
  rw [← h]

theorem entry_plain (h1 : statB c x 2 = false) (h2 : x.land = []) (h3 : x.rpt = none) (h4 : x.delay = none) :
    let y := takeException c x r
    y.pc = csrHeld c x csrEVEC ∧ csrHeld c y csrEPC = x.pc ∧ csrHeld c y csrECAUSE = w32 r.1 ∧
      csrHeld c y csrEADDR = r.2 ∧ csrHeld c y csrSTATUS = entryStatus c (csrHeld c x csrSTATUS) ∧
      y.g = x.g ∧ y.run = .run ∧ y.cyc = x.cyc + 2 := by
  have he : entryEpc x = x.pc := by
    unfold entryEpc
    simp only [h3, h4]
  have hh : ∀ (y : CoreSt) (a : RunSt) (b : Word) (d : Option (Word × Word)) (e : Option RptSt) (f : Bool) (g : Option CoreWait)
      (i : Option FarLoad) (j k : Nat),
      csrHeld c { y with run := a, pc := b, delay := d, rpt := e, rptFrom := f, wait := g, far := i, cyc := j } k =
        csrHeld c y k := fun _ _ _ _ _ _ _ _ _ _ => rfl
  unfold takeException
  rw [if_neg (by rw [h1]; decide)]
  unfold enter
  simp only [h2, h3, h4, List.foldl_nil, landTo_nothing h2, he, Option.isSome_none]
  refine ⟨trivial, ?_, ?_, ?_, ?_, rfl, trivial, trivial⟩
  all_goals
    rw [hh]
    simp only [csr_set]
    simp only [if_true, nb, Nat.zero_mul, Nat.zero_add, show csrSTATUS ≠ csrECAUSE from by decide,
      show csrSTATUS ≠ csrEPC from by decide, Bool.false_eq_true, if_false]
    try rfl

end Sys2Proof.Laws
end

