-- ==== Sys2Proof/Laws/KeepsSleep.lean ====
section
/-! SUPPORT. What the operations of `Machine/Sleep.lean` keep. -/

namespace Sys2Proof.Laws.K

open Sys2Proof Sys2Proof.Machine Sys2Proof.Laws

theorem enterDoze {pset : List Part} {z0 : State} {s : State} (h_regs : Part.regs ∈ pset) (h_cnts : Part.cnts ∈
    pset) (h_outs : Part.outs ∈ pset) (h_intc : Part.intc ∈ pset) (h_eth : Part.eth ∈ pset) (hk : Keeps pset z0 s) :
    Keeps pset z0 (Machine.enterDoze s) := by
  unfold Machine.enterDoze
  repeat' (first
    | with_reducible first
      | assumption | apply K.putF h_regs | apply K.lpiFollow h_regs h_cnts h_outs h_intc h_eth)

theorem railFalls {pset : List Part} {z0 : State} {s : State} (h_regs : Part.regs ∈ pset) (h_cnts : Part.cnts ∈
    pset) (h_mem : Part.mem ∈ pset) (h_outs : Part.outs ∈ pset) (h_intc : Part.intc ∈ pset) (h_sys : Part.sys ∈ pset)
    (h_sw : Part.sw ∈ pset) (h_bnk : Part.bnk ∈ pset) (h_hif : Part.hif ∈ pset) (h_time : Part.time ∈ pset) (h_pwr :
    Part.pwr ∈ pset) (hk : Keeps pset z0 s) : Keeps pset z0 (Machine.railFalls s) := by
  unfold Machine.railFalls
  repeat' (first
    | with_reducible first
      | assumption | apply K.setR h_regs | apply K.putB h_regs | apply K.padsHold h_regs h_outs h_intc h_pwr
      | apply K.hostLoss h_regs h_cnts h_mem h_outs h_intc h_sw h_bnk h_hif
      | refine Keeps.ite (fun _ => ?_) (fun _ => ?_)
    | dsimp only | split | simp only [Keeps.lit_sys_hif_time_pwr h_sys h_hif h_time h_pwr])

theorem enterRetain {pset : List Part} {z0 : State} {s : State} (h_regs : Part.regs ∈ pset) (h_cnts : Part.cnts ∈
    pset) (h_mem : Part.mem ∈ pset) (h_outs : Part.outs ∈ pset) (h_intc : Part.intc ∈ pset) (h_sys : Part.sys ∈ pset)
    (h_sw : Part.sw ∈ pset) (h_bnk : Part.bnk ∈ pset) (h_hif : Part.hif ∈ pset) (h_time : Part.time ∈ pset) (h_pwr :
    Part.pwr ∈ pset) (hk : Keeps pset z0 s) : Keeps pset z0 (Machine.enterRetain s) := by
  unfold Machine.enterRetain
  repeat' (first
    | with_reducible first
      | assumption | apply K.zeroBank h_mem h_bnk | apply K.putBankPwr h_regs
      | apply K.railFalls h_regs h_cnts h_mem h_outs h_intc h_sys h_sw h_bnk h_hif h_time h_pwr
      | refine Keeps.foldl (fun _ _ _ => ?_) ?_
    | intro _ _ | dsimp only | simp only [Keeps.lit_pwr h_pwr])

theorem enterVault {pset : List Part} {z0 : State} {s : State} (h_regs : Part.regs ∈ pset) (h_cnts : Part.cnts ∈
    pset) (h_mem : Part.mem ∈ pset) (h_outs : Part.outs ∈ pset) (h_intc : Part.intc ∈ pset) (h_sys : Part.sys ∈ pset)
    (h_sw : Part.sw ∈ pset) (h_bnk : Part.bnk ∈ pset) (h_hif : Part.hif ∈ pset) (h_time : Part.time ∈ pset) (h_pwr :
    Part.pwr ∈ pset) (hk : Keeps pset z0 s) : Keeps pset z0 (Machine.enterVault s) := by
  unfold Machine.enterVault
  repeat' (first
    | with_reducible first
      | assumption | apply K.railFalls h_regs h_cnts h_mem h_outs h_intc h_sys h_sw h_bnk h_hif h_time h_pwr
    | dsimp only | simp only [Keeps.lit_sys h_sys])

theorem quiesceDone {pset : List Part} {z0 : State} {now : Nat} {s : State} (h_regs : Part.regs ∈ pset) (h_cnts :
    Part.cnts ∈ pset) (h_mem : Part.mem ∈ pset) (h_outs : Part.outs ∈ pset) (h_intc : Part.intc ∈ pset) (h_sys :
    Part.sys ∈ pset) (h_sw : Part.sw ∈ pset) (h_eth : Part.eth ∈ pset) (h_bnk : Part.bnk ∈ pset) (h_hif : Part.hif ∈
    pset) (h_time : Part.time ∈ pset) (h_pwr : Part.pwr ∈ pset) (hk : Keeps pset z0 s) : Keeps pset z0
    (Machine.quiesceDone now s) := by
  unfold Machine.quiesceDone
  repeat' (first
    | with_reducible first
      | assumption | apply K.putF h_regs | apply K.pwrResult h_regs h_outs h_intc
      | apply K.pwrNext h_regs h_outs h_intc h_sys h_pwr | apply K.wakeMask h_regs h_outs h_intc h_sys h_pwr
      | apply K.enterDoze h_regs h_cnts h_outs h_intc h_eth
      | apply K.enterRetain h_regs h_cnts h_mem h_outs h_intc h_sys h_sw h_bnk h_hif h_time h_pwr
      | apply K.enterVault h_regs h_cnts h_mem h_outs h_intc h_sys h_sw h_bnk h_hif h_time h_pwr
      | refine Keeps.ite (fun _ => ?_) (fun _ => ?_)
    | dsimp only | split)

theorem wakeEnds {pset : List Part} {z0 : State} {vault : Bool} {src : Nat} {s : State} (h_regs : Part.regs ∈
    pset) (h_outs : Part.outs ∈ pset) (h_intc : Part.intc ∈ pset) (h_sys : Part.sys ∈ pset) (h_pwr : Part.pwr ∈ pset)
    (hk : Keeps pset z0 s) : Keeps pset z0 (Machine.wakeEnds vault src s) := by
  unfold Machine.wakeEnds
  repeat' (first
    | with_reducible first
      | assumption | apply K.setR h_regs | apply K.putF h_regs | apply K.pwrResult h_regs h_outs h_intc
      | apply K.pwrNext h_regs h_outs h_intc h_sys h_pwr | refine Keeps.ite (fun _ => ?_) (fun _ => ?_)
    | dsimp only | split | simp only [Keeps.lit_pwr h_pwr])

theorem waitsLate {pset : List Part} {z0 : State} {s : State} (h_cores : Part.cores ∈ pset) (hk : Keeps pset z0 s)
    : Keeps pset z0 (Machine.waitsLate s) := by
  unfold Machine.waitsLate
  repeat' (first
    | with_reducible first
      | assumption | refine Keeps.ite (fun _ => ?_) (fun _ => ?_)
    | intro _ _ | dsimp only | split | simp only [Keeps.lit_cores h_cores])

theorem wakeDoze {pset : List Part} {z0 : State} {us : Nat} {s : State} (h_regs : Part.regs ∈ pset) (h_cnts :
    Part.cnts ∈ pset) (h_outs : Part.outs ∈ pset) (h_intc : Part.intc ∈ pset) (h_sys : Part.sys ∈ pset) (h_eth :
    Part.eth ∈ pset) (h_ptc : Part.ptc ∈ pset) (h_time : Part.time ∈ pset) (h_cores : Part.cores ∈ pset) (h_pwr :
    Part.pwr ∈ pset) (hk : Keeps pset z0 s) : Keeps pset z0 (Machine.wakeDoze us s) := by
  unfold Machine.wakeDoze
  repeat' (first
    | with_reducible first
      | assumption | apply K.putF h_regs | apply K.advanceCycles h_cnts h_sys h_time h_pwr
      | apply K.ptcAtLate h_regs h_cnts h_outs h_intc h_ptc | apply K.lpiFollow h_regs h_cnts h_outs h_intc h_eth
      | apply K.wakeEnds h_regs h_outs h_intc h_sys h_pwr | apply K.waitsLate h_cores
    | dsimp only)

theorem measured {pset : List Part} {z0 : State} {s : State} {ns : Nat} (h_free : Part.free ∈ pset) (hk : Keeps
    pset z0 s) : Keeps pset z0 (Machine.measured s ns).2 := by
  unfold Machine.measured
  repeat' (first
    | with_reducible first
      | assumption | apply K.fresh h_free
    | dsimp only)

theorem wakeRetain {pset : List Part} {z0 : State} {us : Nat} {s : State} (h_regs : Part.regs ∈ pset) (h_cnts :
    Part.cnts ∈ pset) (h_free : Part.free ∈ pset) (h_outs : Part.outs ∈ pset) (h_intc : Part.intc ∈ pset) (h_sys :
    Part.sys ∈ pset) (h_vlt : Part.vlt ∈ pset) (h_bnk : Part.bnk ∈ pset) (h_hif : Part.hif ∈ pset) (h_time : Part.time
    ∈ pset) (h_pwr : Part.pwr ∈ pset) (hk : Keeps pset z0 s) : Keeps pset z0 (Machine.wakeRetain us s) := by
  unfold Machine.wakeRetain
  repeat' (first
    | with_reducible first
      | assumption | apply K.setR h_regs | apply K.putB h_regs | apply K.putBankPwr h_regs
      | apply K.advanceCycles h_cnts h_sys h_time h_pwr | apply K.tnsWake h_regs h_outs h_intc h_vlt h_time
      | apply K.wakeEnds h_regs h_outs h_intc h_sys h_pwr | apply K.measured h_free
      | refine Keeps.ite (fun _ => ?_) (fun _ => ?_) | refine Keeps.foldl (fun _ _ _ => ?_) ?_
      | refine Keeps.foldlFst (fun _ _ _ => ?_) ?_
    | intro _ _ | dsimp only | split | simp only [Keeps.lit_bnk_hif_pwr h_bnk h_hif h_pwr])

theorem wakeVault {pset : List Part} {z0 : State} {e : BootEnv} {s : State} (h_all : ∀ p : Part, p ≠ .falls → p ∈
    pset) (hk : Keeps pset z0 s) : Keeps pset z0 (Machine.wakeVault e s) := by
  unfold Machine.wakeVault
  repeat' (first
    | with_reducible first
      | assumption | apply K.putF (h_all _ (by decide)) | apply K.putB (h_all _ (by decide))
      | apply K.copyRegs (h_all _ (by decide)) | apply K.wiped h_all | apply K.startUp h_all
      | apply K.wakeEnds (h_all _ (by decide)) (h_all _ (by decide)) (h_all _ (by decide)) (h_all _ (by decide))
          (h_all _ (by decide))
    | dsimp only | simp only [Keeps.lit_pwr (h_all _ (by decide))])

theorem wakeDone {pset : List Part} {z0 : State} {e : BootEnv} {s : State} (h_all : ∀ p : Part, p ≠ .falls → p ∈
    pset) (hk : Keeps pset z0 s) : Keeps pset z0 (Machine.wakeDone e s) := by
  unfold Machine.wakeDone
  repeat' (first
    | with_reducible first
      | assumption
      | apply K.wakeDoze (h_all _ (by decide)) (h_all _ (by decide)) (h_all _ (by decide)) (h_all _ (by decide))
          (h_all _ (by decide)) (h_all _ (by decide)) (h_all _ (by decide)) (h_all _ (by decide)) (h_all _ (by
          decide)) (h_all _ (by decide))
      | apply K.wakeRetain (h_all _ (by decide)) (h_all _ (by decide)) (h_all _ (by decide)) (h_all _ (by decide))
          (h_all _ (by decide)) (h_all _ (by decide)) (h_all _ (by decide)) (h_all _ (by decide)) (h_all _ (by
          decide)) (h_all _ (by decide)) (h_all _ (by decide))
      | apply K.wakeVault h_all | refine Keeps.ite (fun _ => ?_) (fun _ => ?_)
    | dsimp only | split)

theorem migsDrop {pset : List Part} {z0 : State} {s : State} (h_regs : Part.regs ∈ pset) (h_cnts : Part.cnts ∈
    pset) (h_outs : Part.outs ∈ pset) (h_intc : Part.intc ∈ pset) (h_plc : Part.plc ∈ pset) (hk : Keeps pset z0 s) :
    Keeps pset z0 (Machine.migsDrop s) := by
  unfold Machine.migsDrop
  repeat' (first
    | with_reducible first
      | assumption | apply K.bump h_cnts | apply K.raiseIrq h_regs h_outs h_intc
      | refine Keeps.foldl (fun _ _ _ => ?_) ?_
    | intro _ _ | dsimp only | simp only [Keeps.lit_plc h_plc])

theorem supplyWarn {pset : List Part} {z0 : State} {aon : Bool} {s : State} (h_regs : Part.regs ∈ pset) (h_cnts :
    Part.cnts ∈ pset) (h_free : Part.free ∈ pset) (h_mem : Part.mem ∈ pset) (h_outs : Part.outs ∈ pset) (h_intc :
    Part.intc ∈ pset) (h_sys : Part.sys ∈ pset) (h_sw : Part.sw ∈ pset) (h_gate : Part.gate ∈ pset) (h_vlt : Part.vlt
    ∈ pset) (h_bnk : Part.bnk ∈ pset) (h_plc : Part.plc ∈ pset) (h_pwr : Part.pwr ∈ pset) (hk : Keeps pset z0 s) :
    Keeps pset z0 (Machine.supplyWarn aon s) := by
  unfold Machine.supplyWarn
  repeat' (first
    | with_reducible first
      | assumption | apply K.putB h_regs | apply K.raiseIrq h_regs h_outs h_intc
      | apply K.gateSupply h_regs h_cnts h_free h_mem h_outs h_intc h_sw h_gate h_vlt h_bnk
      | apply K.pwrAbandon h_regs h_outs h_intc h_sys h_pwr | apply K.migsDrop h_regs h_cnts h_outs h_intc h_plc
      | refine Keeps.ite (fun _ => ?_) (fun _ => ?_)
    | dsimp only | split)

theorem supplyOver {pset : List Part} {z0 : State} {aon : Bool} {s : State} (h_regs : Part.regs ∈ pset) (h_outs :
    Part.outs ∈ pset) (h_intc : Part.intc ∈ pset) (h_gate : Part.gate ∈ pset) (h_vlt : Part.vlt ∈ pset) (hk : Keeps
    pset z0 s) : Keeps pset z0 (Machine.supplyOver aon s) := by
  unfold Machine.supplyOver
  repeat' (first
    | with_reducible first
      | assumption | apply K.putB h_regs | apply K.raiseIrq h_regs h_outs h_intc
      | apply K.gateSupplyClear h_regs h_outs h_intc h_gate h_vlt | refine Keeps.ite (fun _ => ?_) (fun _ => ?_)
    | dsimp only | split)

theorem mgpRestart {pset : List Part} {z0 : State} {s : State} (h_regs : Part.regs ∈ pset) (h_cnts : Part.cnts ∈
    pset) (h_free : Part.free ∈ pset) (h_outs : Part.outs ∈ pset) (h_intc : Part.intc ∈ pset) (h_sys : Part.sys ∈
    pset) (h_plc : Part.plc ∈ pset) (h_cores : Part.cores ∈ pset) (hk : Keeps pset z0 s) : Keeps pset z0
    (Machine.mgpRestart s) := by
  unfold Machine.mgpRestart
  repeat' (first
    | with_reducible first
      | assumption | apply K.fresh h_free | apply K.freeLocksOf h_regs h_outs h_intc | apply K.mgpStart h_free h_cores
      | apply K.migsDrop h_regs h_cnts h_outs h_intc h_plc | refine Keeps.ite (fun _ => ?_) (fun _ => ?_)
    | dsimp only | split | simp only [Keeps.lit_sys h_sys])

end Sys2Proof.Laws.K
end

