-- ==== Sys2Proof/Laws/KeepsTelemetry.lean ====
section
/-! SUPPORT. What the operations of `Machine/Telemetry.lean` keep. -/

namespace Sys2Proof.Laws.K

open Sys2Proof Sys2Proof.Machine Sys2Proof.Laws

theorem mgpCopy {pset : List Part} {z0 : State} {s : State} {a : Nat} {l : List Byte} {fuel : Nat} (h_regs :
    Part.regs ∈ pset) (h_mem : Part.mem ∈ pset) (h_outs : Part.outs ∈ pset) (h_intc : Part.intc ∈ pset) (h_bnk :
    Part.bnk ∈ pset) (hk : Keeps pset z0 s) : Keeps pset z0 (Machine.mgpCopy s a l fuel).1 := by
  induction fuel generalizing s a l with
  | zero =>
    unfold Machine.mgpCopy
    repeat' (first
      | with_reducible first
        | assumption | apply K.fabWrite h_regs h_mem h_outs h_intc h_bnk
      | dsimp only | split | refine Keeps.ofFst (by with_reducible assumption) ?_
      | refine Keeps.ofSnd (by with_reducible assumption) ?_)
  | succ _ ih =>
    unfold Machine.mgpCopy
    repeat' (first
      | with_reducible first
        | assumption | apply ih | apply K.fabWrite h_regs h_mem h_outs h_intc h_bnk
      | dsimp only | split | refine Keeps.ofFst (by with_reducible assumption) ?_
      | refine Keeps.ofSnd (by with_reducible assumption) ?_)

theorem telemCopy {pset : List Part} {z0 : State} {s : State} (h_regs : Part.regs ∈ pset) (h_mem : Part.mem ∈
    pset) (h_outs : Part.outs ∈ pset) (h_intc : Part.intc ∈ pset) (h_bnk : Part.bnk ∈ pset) (hk : Keeps pset z0 s) :
    Keeps pset z0 (Machine.telemCopy s) := by
  unfold Machine.telemCopy
  repeat' (first
    | with_reducible first
      | assumption | apply K.setR h_regs | apply K.raiseIrq h_regs h_outs h_intc
      | apply K.mgpCopy h_regs h_mem h_outs h_intc h_bnk | refine Keeps.ite (fun _ => ?_) (fun _ => ?_)
    | dsimp only | split)

theorem telemSnapshot {pset : List Part} {z0 : State} {s : State} (h_regs : Part.regs ∈ pset) (h_cnts : Part.cnts
    ∈ pset) (h_snaps : Part.snaps ∈ pset) (h_mem : Part.mem ∈ pset) (h_outs : Part.outs ∈ pset) (h_intc : Part.intc ∈
    pset) (h_sys : Part.sys ∈ pset) (h_bnk : Part.bnk ∈ pset) (h_time : Part.time ∈ pset) (h_pwr : Part.pwr ∈ pset)
    (hk : Keeps pset z0 s) : Keeps pset z0 (Machine.telemSnapshot s) := by
  unfold Machine.telemSnapshot
  repeat' (first
    | with_reducible first
      | assumption | apply K.advanceNs h_cnts h_sys h_time h_pwr | apply K.cntCtrl h_regs h_cnts h_snaps
      | apply K.telemCopy h_regs h_mem h_outs h_intc h_bnk | refine Keeps.ite (fun _ => ?_) (fun _ => ?_)
    | dsimp only | split)

end Sys2Proof.Laws.K
end

