-- ==== Sys2Proof/Laws/KeepsCommands.lean ====
section
/-! SUPPORT. What each command keeps and which parts it may change. -/

namespace Sys2Proof.Laws.K

open Sys2Proof Sys2Proof.Machine Sys2Proof.Laws

theorem execRegisterWrite {pset : List Part} {z0 t0 : State} {m : Master} {a : Word} {sz : AccSize} {v : Word} {s
    : State} (h_all : ∀ p : Part, p ≠ .falls → p ∈ pset) (hk : Keeps pset z0 s) (he : Machine.execRegisterWrite m a sz
    v s = .next t0) : Keeps pset z0 t0 := by
  unfold Machine.execRegisterWrite at he
  cases he
  all_goals
    repeat' (first
      | with_reducible first
        | assumption | apply K.busStore h_all)

theorem execCfgLockWrite {pset : List Part} {z0 t0 : State} {m : Master} {page : Word} {v : Word} {s : State}
    (h_regs : Part.regs ∈ pset) (h_outs : Part.outs ∈ pset) (h_resp : Part.resp ∈ pset) (h_intc : Part.intc ∈ pset)
    (hk : Keeps pset z0 s) (he : Machine.execCfgLockWrite m page v s = .next t0) : Keeps pset z0 t0 := by
  unfold Machine.execCfgLockWrite at he
  cases he
  all_goals
    repeat' (first
      | with_reducible first
        | assumption | apply K.cfgLock h_regs | apply K.onHeader h_regs h_outs h_resp h_intc
      | intro _ _ | dsimp only)

theorem execSoftRst {pset : List Part} {z0 t0 : State} {m : Master} {page : Word} {v : Word} {s : State} (h_all :
    ∀ p : Part, p ≠ .falls → p ∈ pset) (hk : Keeps pset z0 s) (he : Machine.execSoftRst m page v s = .next t0) : Keeps
    pset z0 t0 := by
  unfold Machine.execSoftRst at he
  cases he
  all_goals
    repeat' (first
      | with_reducible first
        | assumption | apply K.blkCtrl h_all
        | apply K.onHeader (h_all _ (by decide)) (h_all _ (by decide)) (h_all _ (by decide)) (h_all _ (by decide))
      | intro _ _ | dsimp only)

theorem execBlockPowerRequest {pset : List Part} {z0 t0 : State} {m : Master} {page : Word} {pwr : BitVec 2} {s :
    State} (h_regs : Part.regs ∈ pset) (h_outs : Part.outs ∈ pset) (h_resp : Part.resp ∈ pset) (h_intc : Part.intc ∈
    pset) (hk : Keeps pset z0 s) (he : Machine.execBlockPowerRequest m page pwr s = .next t0) : Keeps pset z0 t0 := by
  unfold Machine.execBlockPowerRequest at he
  cases he
  all_goals
    repeat' (first
      | with_reducible first
        | assumption | apply K.blkPowerReq h_regs | apply K.onHeader h_regs h_outs h_resp h_intc
      | intro _ _ | dsimp only)

theorem execBlockPowerChangeDone {pset : List Part} {z0 t0 : State} {page : Word} {s : State} (h_all : ∀ p : Part,
    p ≠ .falls → p ∈ pset) (hk : Keeps pset z0 s) (he : Machine.execBlockPowerChangeDone page s = .next t0) : Keeps
    pset z0 t0 := by
  unfold Machine.execBlockPowerChangeDone at he
  cases he
  all_goals
    repeat' (first
      | with_reducible first
        | assumption | apply K.powerDone h_all
      | dsimp only | split)

theorem execIrqForce {pset : List Part} {z0 t0 : State} {m : Master} {page : Word} {v : Word} {s : State} (h_regs
    : Part.regs ∈ pset) (h_outs : Part.outs ∈ pset) (h_resp : Part.resp ∈ pset) (h_intc : Part.intc ∈ pset) (hk :
    Keeps pset z0 s) (he : Machine.execIrqForce m page v s = .next t0) : Keeps pset z0 t0 := by
  unfold Machine.execIrqForce at he
  cases he
  all_goals
    repeat' (first
      | with_reducible first
        | assumption | apply K.irqForce h_regs h_outs h_intc | apply K.onHeader h_regs h_outs h_resp h_intc
      | intro _ _ | dsimp only)

theorem execCntSnap {pset : List Part} {z0 t0 : State} {m : Master} {page : Word} {clr : Bool} {s : State} (h_regs
    : Part.regs ∈ pset) (h_cnts : Part.cnts ∈ pset) (h_snaps : Part.snaps ∈ pset) (h_outs : Part.outs ∈ pset) (h_resp
    : Part.resp ∈ pset) (h_intc : Part.intc ∈ pset) (hk : Keeps pset z0 s) (he : Machine.execCntSnap m page clr s =
    .next t0) : Keeps pset z0 t0 := by
  unfold Machine.execCntSnap at he
  cases he
  all_goals
    repeat' (first
      | with_reducible first
        | assumption | apply K.cntCtrl h_regs h_cnts h_snaps | apply K.onHeader h_regs h_outs h_resp h_intc
      | intro _ _ | dsimp only)

theorem execSecWpolWrite {pset : List Part} {z0 t0 : State} {m : Master} {t : Fin 38} {v : Word} {s : State}
    (h_regs : Part.regs ∈ pset) (h_outs : Part.outs ∈ pset) (h_resp : Part.resp ∈ pset) (h_intc : Part.intc ∈ pset)
    (hk : Keeps pset z0 s) (he : Machine.execSecWpolWrite m t v s = .next t0) : Keeps pset z0 t0 := by
  unfold Machine.execSecWpolWrite at he
  cases he
  all_goals
    repeat' (first
      | with_reducible first
        | assumption | apply K.gatedWrite h_regs h_outs h_resp h_intc | apply K.wpolWrite h_regs h_outs h_intc
      | intro _ _ | dsimp only)

theorem execDenyCountRead {pset : List Part} {z0 t0 : State} {m : Master} {s : State} (h_regs : Part.regs ∈ pset)
    (h_outs : Part.outs ∈ pset) (h_resp : Part.resp ∈ pset) (h_intc : Part.intc ∈ pset) (hk : Keeps pset z0 s) (he :
    Machine.execDenyCountRead m s = .next t0) : Keeps pset z0 t0 := by
  unfold Machine.execDenyCountRead at he
  cases he
  all_goals
    repeat' (first
      | with_reducible first
        | assumption | apply K.setR h_regs | apply K.gatedRead h_regs h_outs h_resp h_intc
      | intro _ _ | dsimp only)

theorem execSwSet {pset : List Part} {z0 t0 : State} {m : Master} {v : Word} {s : State} (h_regs : Part.regs ∈
    pset) (h_outs : Part.outs ∈ pset) (h_resp : Part.resp ∈ pset) (h_intc : Part.intc ∈ pset) (hk : Keeps pset z0 s)
    (he : Machine.execSwSet m v s = .next t0) : Keeps pset z0 t0 := by
  unfold Machine.execSwSet at he
  cases he
  all_goals
    repeat' (first
      | with_reducible first
        | assumption | apply K.gatedWrite h_regs h_outs h_resp h_intc | apply K.swSource h_regs h_outs h_intc
      | intro _ _ | dsimp only)

theorem execSwClr {pset : List Part} {z0 t0 : State} {m : Master} {v : Word} {s : State} (h_regs : Part.regs ∈
    pset) (h_outs : Part.outs ∈ pset) (h_resp : Part.resp ∈ pset) (h_intc : Part.intc ∈ pset) (hk : Keeps pset z0 s)
    (he : Machine.execSwClr m v s = .next t0) : Keeps pset z0 t0 := by
  unfold Machine.execSwClr at he
  cases he
  all_goals
    repeat' (first
      | with_reducible first
        | assumption | apply K.gatedWrite h_regs h_outs h_resp h_intc | apply K.swSource h_regs h_outs h_intc
      | intro _ _ | dsimp only)

theorem execRouteWrite {pset : List Part} {z0 t0 : State} {m : Master} {n : Fin 1024} {v : Word} {s : State}
    (h_regs : Part.regs ∈ pset) (h_outs : Part.outs ∈ pset) (h_resp : Part.resp ∈ pset) (h_intc : Part.intc ∈ pset)
    (hk : Keeps pset z0 s) (he : Machine.execRouteWrite m n v s = .next t0) : Keeps pset z0 t0 := by
  unfold Machine.execRouteWrite at he
  cases he
  all_goals
    repeat' (first
      | with_reducible first
        | assumption | apply K.gatedWrite h_regs h_outs h_resp h_intc | apply K.routeWrite h_regs h_outs h_intc
      | intro _ _ | dsimp only)

theorem execMaskWrite {pset : List Part} {z0 t0 : State} {m : Master} {k : Fin 32} {v : Word} {s : State} (h_regs
    : Part.regs ∈ pset) (h_outs : Part.outs ∈ pset) (h_resp : Part.resp ∈ pset) (h_intc : Part.intc ∈ pset) (hk :
    Keeps pset z0 s) (he : Machine.execMaskWrite m k v s = .next t0) : Keeps pset z0 t0 := by
  unfold Machine.execMaskWrite at he
  cases he
  all_goals
    repeat' (first
      | with_reducible first
        | assumption | apply K.gatedWrite h_regs h_outs h_resp h_intc | apply K.maskWrite h_regs h_outs h_intc
      | intro _ _ | dsimp only)

theorem execHostEoi {pset : List Part} {z0 t0 : State} {m : Master} {vec : Fin 64} {s : State} (h_regs : Part.regs
    ∈ pset) (h_outs : Part.outs ∈ pset) (h_resp : Part.resp ∈ pset) (h_intc : Part.intc ∈ pset) (hk : Keeps pset z0 s)
    (he : Machine.execHostEoi m vec s = .next t0) : Keeps pset z0 t0 := by
  unfold Machine.execHostEoi at he
  cases he
  all_goals
    repeat' (first
      | with_reducible first
        | assumption | apply K.gatedWrite h_regs h_outs h_resp h_intc | apply K.hostEoi h_regs h_outs h_intc
      | intro _ _ | dsimp only)

theorem execPor {pset : List Part} {z0 t0 : State} {also : BitVec 8} {s : State} (h_all : ∀ p : Part, p ≠ .falls →
    p ∈ pset) (hk : Keeps pset z0 s) (he : Machine.execPor also s = .next t0) : Keeps pset z0 t0 := by
  unfold Machine.execPor at he
  cases he
  all_goals
    repeat' (first
      | with_reducible first
        | assumption | apply K.resetCause h_all)

theorem execPinReset {pset : List Part} {z0 t0 : State} {also : BitVec 8} {s : State} (h_all : ∀ p : Part, p ≠
    .falls → p ∈ pset) (hk : Keeps pset z0 s) (he : Machine.execPinReset also s = .next t0) : Keeps pset z0 t0 := by
  unfold Machine.execPinReset at he
  cases he
  all_goals
    repeat' (first
      | with_reducible first
        | assumption | apply K.resetCause h_all)

theorem execBrownCore {pset : List Part} {z0 t0 : State} {also : BitVec 8} {s : State} (h_all : ∀ p : Part, p ≠
    .falls → p ∈ pset) (hk : Keeps pset z0 s) (he : Machine.execBrownCore also s = .next t0) : Keeps pset z0 t0 := by
  unfold Machine.execBrownCore at he
  cases he
  all_goals
    repeat' (first
      | with_reducible first
        | assumption | apply K.resetCause h_all | refine Keeps.ite (fun _ => ?_) (fun _ => ?_)
      | split)

theorem execBrownAon {pset : List Part} {z0 t0 : State} {also : BitVec 8} {s : State} (h_all : ∀ p : Part, p ≠
    .falls → p ∈ pset) (hk : Keeps pset z0 s) (he : Machine.execBrownAon also s = .next t0) : Keeps pset z0 t0 := by
  unfold Machine.execBrownAon at he
  cases he
  all_goals
    repeat' (first
      | with_reducible first
        | assumption | apply K.resetCause h_all)

theorem execLpOverload {pset : List Part} {z0 t0 : State} {also : BitVec 8} {s : State} (h_all : ∀ p : Part, p ≠
    .falls → p ∈ pset) (hk : Keeps pset z0 s) (he : Machine.execLpOverload also s = .next t0) : Keeps pset z0 t0 := by
  unfold Machine.execLpOverload at he
  cases he
  all_goals
    repeat' (first
      | with_reducible first
        | assumption | apply K.resetCause h_all | refine Keeps.ite (fun _ => ?_) (fun _ => ?_)
      | split)

theorem execWdtSsp {pset : List Part} {z0 t0 : State} {also : BitVec 8} {s : State} (h_all : ∀ p : Part, p ≠
    .falls → p ∈ pset) (hk : Keeps pset z0 s) (he : Machine.execWdtSsp also s = .next t0) : Keeps pset z0 t0 := by
  unfold Machine.execWdtSsp at he
  cases he
  all_goals
    repeat' (first
      | with_reducible first
        | assumption
        | apply K.advanceNs (h_all _ (by decide)) (h_all _ (by decide)) (h_all _ (by decide)) (h_all _ (by decide))
        | apply K.resetCause h_all | refine Keeps.ite (fun _ => ?_) (fun _ => ?_)
      | dsimp only | split)

theorem execLockstepMismatch {pset : List Part} {z0 t0 : State} {also : BitVec 8} {s : State} (h_all : ∀ p : Part,
    p ≠ .falls → p ∈ pset) (hk : Keeps pset z0 s) (he : Machine.execLockstepMismatch also s = .next t0) : Keeps pset
    z0 t0 := by
  unfold Machine.execLockstepMismatch at he
  cases he
  all_goals
    repeat' (first
      | with_reducible first
        | assumption | apply K.resetCause h_all)

theorem execSoftReset {pset : List Part} {z0 t0 : State} {m : Master} {v : Word} {s : State} (h_all : ∀ p : Part,
    p ≠ .falls → p ∈ pset) (hk : Keeps pset z0 s) (he : Machine.execSoftReset m v s = .next t0) : Keeps pset z0 t0 :=
    by
  unfold Machine.execSoftReset at he
  cases he
  all_goals
    repeat' (first
      | with_reducible first
        | assumption
        | apply K.gatedWrite (h_all _ (by decide)) (h_all _ (by decide)) (h_all _ (by decide)) (h_all _ (by decide))
        | apply K.softResetWrite h_all
      | intro _ _ | dsimp only)

theorem execThermalTrip {pset : List Part} {z0 t0 : State} {also : BitVec 8} {s : State} (h_all : ∀ p : Part, p ≠
    .falls → p ∈ pset) (hk : Keeps pset z0 s) (he : Machine.execThermalTrip also s = .next t0) : Keeps pset z0 t0 :=
    by
  unfold Machine.execThermalTrip at he
  cases he
  all_goals
    repeat' (first
      | with_reducible first
        | assumption | apply K.resetCause h_all | refine Keeps.ite (fun _ => ?_) (fun _ => ?_)
      | split)

theorem execThermalHoldEnd {pset : List Part} {z0 t0 : State} {s : State} (h_cnts : Part.cnts ∈ pset) (h_sys :
    Part.sys ∈ pset) (h_time : Part.time ∈ pset) (h_pwr : Part.pwr ∈ pset) (hk : Keeps pset z0 s) (he :
    Machine.execThermalHoldEnd s = .next t0) : Keeps pset z0 t0 := by
  unfold Machine.execThermalHoldEnd at he
  cases he
  all_goals
    repeat' (first
      | with_reducible first
        | assumption | apply K.thermHoldEnd h_cnts h_sys h_time h_pwr)

theorem execResetRelease {pset : List Part} {z0 t0 : State} {e : BootEnv} {s : State} (h_all : ∀ p : Part, p ≠
    .falls → p ∈ pset) (hk : Keeps pset z0 s) (he : Machine.execResetRelease e s = .next t0) : Keeps pset z0 t0 := by
  unfold Machine.execResetRelease at he
  cases he
  all_goals
    repeat' (first
      | with_reducible first
        | assumption | apply K.resetRelease h_all)

theorem execAonCrystalConfirmed {pset : List Part} {z0 t0 : State} {s : State} (h_time : Part.time ∈ pset) (hk :
    Keeps pset z0 s) (he : Machine.execAonCrystalConfirmed s = .next t0) : Keeps pset z0 t0 := by
  unfold Machine.execAonCrystalConfirmed at he
  cases he
  all_goals
    repeat' (first
      | with_reducible first
        | assumption | apply K.aonConfirmed h_time)

theorem execPushBoot {pset : List Part} {z0 t0 : State} {m : Master} {vendorSig : Bool} {ownerSig : Bool} {s :
    State} (h_all : ∀ p : Part, p ≠ .falls → p ∈ pset) (hk : Keeps pset z0 s) (he : Machine.execPushBoot m vendorSig
    ownerSig s = .next t0) : Keeps pset z0 t0 := by
  unfold Machine.execPushBoot at he
  cases he
  all_goals
    repeat' (first
      | with_reducible first
        | assumption
        | apply K.gatedWrite (h_all _ (by decide)) (h_all _ (by decide)) (h_all _ (by decide)) (h_all _ (by decide))
        | apply K.pushBoot h_all | apply K.sysCmd
      | intro _ _ | dsimp only)

theorem execEnrol {pset : List Part} {z0 t0 : State} {m : Master} {lattice : Bool} {s : State} (h_regs : Part.regs
    ∈ pset) (h_free : Part.free ∈ pset) (h_outs : Part.outs ∈ pset) (h_resp : Part.resp ∈ pset) (h_intc : Part.intc ∈
    pset) (h_gate : Part.gate ∈ pset) (h_vlt : Part.vlt ∈ pset) (h_test : Part.test ∈ pset) (hk : Keeps pset z0 s) (he
    : Machine.execEnrol m lattice s = .next t0) : Keeps pset z0 t0 := by
  unfold Machine.execEnrol at he
  cases he
  all_goals
    repeat' (first
      | with_reducible first
        | assumption | apply K.gatedWrite h_regs h_outs h_resp h_intc | apply K.sysCmd
        | apply K.enrol h_regs h_free h_outs h_intc h_gate h_vlt h_test
      | intro _ _ | dsimp only)

theorem execErase {pset : List Part} {z0 t0 : State} {m : Master} {s : State} (h_regs : Part.regs ∈ pset) (h_outs
    : Part.outs ∈ pset) (h_resp : Part.resp ∈ pset) (h_intc : Part.intc ∈ pset) (h_gate : Part.gate ∈ pset) (h_vlt :
    Part.vlt ∈ pset) (hk : Keeps pset z0 s) (he : Machine.execErase m s = .next t0) : Keeps pset z0 t0 := by
  unfold Machine.execErase at he
  cases he
  all_goals
    repeat' (first
      | with_reducible first
        | assumption | apply K.gatedWrite h_regs h_outs h_resp h_intc | apply K.sysCmd
        | apply K.eraseCmd h_regs h_outs h_intc h_gate h_vlt
      | intro _ _ | dsimp only)

theorem execDebugUnlock {pset : List Part} {z0 t0 : State} {m : Master} {lattice : Bool} {s : State} (h_regs :
    Part.regs ∈ pset) (h_cnts : Part.cnts ∈ pset) (h_free : Part.free ∈ pset) (h_mem : Part.mem ∈ pset) (h_outs :
    Part.outs ∈ pset) (h_resp : Part.resp ∈ pset) (h_intc : Part.intc ∈ pset) (h_sw : Part.sw ∈ pset) (h_gate :
    Part.gate ∈ pset) (h_vlt : Part.vlt ∈ pset) (h_bnk : Part.bnk ∈ pset) (h_mdb : Part.mdb ∈ pset) (h_test :
    Part.test ∈ pset) (hk : Keeps pset z0 s) (he : Machine.execDebugUnlock m lattice s = .next t0) : Keeps pset z0 t0
    := by
  unfold Machine.execDebugUnlock at he
  cases he
  all_goals
    repeat' (first
      | with_reducible first
        | assumption | apply K.gatedWrite h_regs h_outs h_resp h_intc | apply K.sysCmd
        | apply K.debugUnlock h_regs h_cnts h_free h_mem h_outs h_intc h_sw h_gate h_vlt h_bnk h_mdb h_test
      | intro _ _ | dsimp only)

theorem execDebugLock {pset : List Part} {z0 t0 : State} {m : Master} {s : State} (h_regs : Part.regs ∈ pset)
    (h_outs : Part.outs ∈ pset) (h_resp : Part.resp ∈ pset) (h_intc : Part.intc ∈ pset) (h_gate : Part.gate ∈ pset)
    (h_vlt : Part.vlt ∈ pset) (h_test : Part.test ∈ pset) (hk : Keeps pset z0 s) (he : Machine.execDebugLock m s =
    .next t0) : Keeps pset z0 t0 := by
  unfold Machine.execDebugLock at he
  cases he
  all_goals
    repeat' (first
      | with_reducible first
        | assumption | apply K.gatedWrite h_regs h_outs h_resp h_intc | apply K.sysCmd
        | apply K.debugLock h_regs h_outs h_intc h_gate h_vlt h_test
      | intro _ _ | dsimp only)

theorem execVaultEraseComplete {pset : List Part} {z0 t0 : State} {s : State} (h_regs : Part.regs ∈ pset) (h_free
    : Part.free ∈ pset) (h_outs : Part.outs ∈ pset) (h_intc : Part.intc ∈ pset) (h_sys : Part.sys ∈ pset) (h_gate :
    Part.gate ∈ pset) (h_vlt : Part.vlt ∈ pset) (h_test : Part.test ∈ pset) (h_falls : Part.falls ∈ pset) (hk : Keeps
    pset z0 s) (he : Machine.execVaultEraseComplete s = .next t0) : Keeps pset z0 t0 := by
  unfold Machine.execVaultEraseComplete at he
  cases he
  all_goals
    repeat' (first
      | with_reducible first
        | assumption | apply K.eraseDone h_regs h_free h_outs h_intc h_sys h_gate h_vlt h_test h_falls)

theorem execBundleRegisterWrites {pset : List Part} {z0 t0 : State} {s : State} (h_all : ∀ p : Part, p ≠ .falls →
    p ∈ pset) (hk : Keeps pset z0 s) (he : Machine.execBundleRegisterWrites s = .next t0) : Keeps pset z0 t0 := by
  unfold Machine.execBundleRegisterWrites at he
  cases he
  all_goals
    repeat' (first
      | with_reducible first
        | assumption | apply K.bunHandle h_all | apply K.bunWrites h_all
      | intro _ _ | dsimp only)

theorem execBundleOwnerTransfer {pset : List Part} {z0 t0 : State} {lattice : Bool} {s : State} (h_all : ∀ p :
    Part, p ≠ .falls → p ∈ pset) (hk : Keeps pset z0 s) (he : Machine.execBundleOwnerTransfer lattice s = .next t0) :
    Keeps pset z0 t0 := by
  unfold Machine.execBundleOwnerTransfer at he
  cases he
  all_goals
    repeat' (first
      | with_reducible first
        | assumption | apply K.bunHandle h_all | apply K.bunTransfer h_all
      | intro _ _ | dsimp only)

theorem execBundleVaultPolicy {pset : List Part} {z0 t0 : State} {s : State} (h_all : ∀ p : Part, p ≠ .falls → p ∈
    pset) (hk : Keeps pset z0 s) (he : Machine.execBundleVaultPolicy s = .next t0) : Keeps pset z0 t0 := by
  unfold Machine.execBundleVaultPolicy at he
  cases he
  all_goals
    repeat' (first
      | with_reducible first
        | assumption | apply K.bunHandle h_all | apply K.bunPolicy h_all
      | intro _ _ | dsimp only)

theorem execBundleEraseVault {pset : List Part} {z0 t0 : State} {s : State} (h_all : ∀ p : Part, p ≠ .falls → p ∈
    pset) (hk : Keeps pset z0 s) (he : Machine.execBundleEraseVault s = .next t0) : Keeps pset z0 t0 := by
  unfold Machine.execBundleEraseVault at he
  cases he
  all_goals
    repeat' (first
      | with_reducible first
        | assumption | apply K.bunHandle h_all | apply K.bunErase h_all
      | intro _ _ | dsimp only)

theorem execMacReceive {pset : List Part} {z0 t0 : State} {p : Fin 192} {bytes : List Byte} {k : RxKind} {s :
    State} (h_regs : Part.regs ∈ pset) (h_cnts : Part.cnts ∈ pset) (h_free : Part.free ∈ pset) (h_mem : Part.mem ∈
    pset) (h_outs : Part.outs ∈ pset) (h_intc : Part.intc ∈ pset) (h_sw : Part.sw ∈ pset) (h_eth : Part.eth ∈ pset)
    (h_gate : Part.gate ∈ pset) (h_vlt : Part.vlt ∈ pset) (h_bnk : Part.bnk ∈ pset) (h_time : Part.time ∈ pset) (hk :
    Keeps pset z0 s) (he : Machine.execMacReceive p bytes k s = .next t0) : Keeps pset z0 t0 := by
  unfold Machine.execMacReceive at he
  cases he
  all_goals
    repeat' (first
      | with_reducible first
        | assumption | apply K.rxLine h_cnts h_outs
        | apply K.macRx h_regs h_cnts h_free h_mem h_outs h_intc h_sw h_eth h_gate h_vlt h_bnk h_time
      | intro _ _ | dsimp only)

theorem execMacControlReceive {pset : List Part} {z0 t0 : State} {p : Fin 192} {opcode : BitVec 16} {s : State}
    (h_cnts : Part.cnts ∈ pset) (hk : Keeps pset z0 s) (he : Machine.execMacControlReceive p opcode s = .next t0) :
    Keeps pset z0 t0 := by
  unfold Machine.execMacControlReceive at he
  cases he
  all_goals
    repeat' (first
      | with_reducible first
        | assumption | apply K.macCount h_cnts | apply K.rxGate h_cnts | apply K.ctrlOther h_cnts
      | intro _ _ | dsimp only)

theorem execPauseReceive {pset : List Part} {z0 t0 : State} {p : Fin 192} {da : BitVec 48} {quanta : BitVec 16} {s
    : State} (h_regs : Part.regs ∈ pset) (h_cnts : Part.cnts ∈ pset) (h_outs : Part.outs ∈ pset) (h_intc : Part.intc ∈
    pset) (h_eth : Part.eth ∈ pset) (hk : Keeps pset z0 s) (he : Machine.execPauseReceive p da quanta s = .next t0) :
    Keeps pset z0 t0 := by
  unfold Machine.execPauseReceive at he
  cases he
  all_goals
    repeat' (first
      | with_reducible first
        | assumption | apply K.macCount h_cnts | apply K.pauseRx h_regs h_cnts h_outs h_intc h_eth
        | apply K.rxGate h_cnts
      | intro _ _ | dsimp only)

theorem execPauseExpiry {pset : List Part} {z0 t0 : State} {p : Fin 192} {s : State} (h_regs : Part.regs ∈ pset)
    (h_cnts : Part.cnts ∈ pset) (h_outs : Part.outs ∈ pset) (h_intc : Part.intc ∈ pset) (h_sys : Part.sys ∈ pset)
    (h_time : Part.time ∈ pset) (h_pwr : Part.pwr ∈ pset) (hk : Keeps pset z0 s) (he : Machine.execPauseExpiry p s =
    .next t0) : Keeps pset z0 t0 := by
  unfold Machine.execPauseExpiry at he
  cases he
  all_goals
    repeat' (first
      | with_reducible first
        | assumption | apply K.pauseEnd h_regs h_cnts h_outs h_intc h_sys h_time h_pwr)

theorem execPauseXoffSend {pset : List Part} {z0 t0 : State} {p : Fin 192} {s : State} (h_regs : Part.regs ∈ pset)
    (h_cnts : Part.cnts ∈ pset) (h_outs : Part.outs ∈ pset) (h_intc : Part.intc ∈ pset) (h_sys : Part.sys ∈ pset)
    (h_eth : Part.eth ∈ pset) (h_time : Part.time ∈ pset) (h_pwr : Part.pwr ∈ pset) (hk : Keeps pset z0 s) (he :
    Machine.execPauseXoffSend p s = .next t0) : Keeps pset z0 t0 := by
  unfold Machine.execPauseXoffSend at he
  cases he
  all_goals
    repeat' (first
      | with_reducible first
        | assumption | apply K.pauseXoff h_regs h_cnts h_outs h_intc h_sys h_eth h_time h_pwr)

theorem execPauseRefresh {pset : List Part} {z0 t0 : State} {p : Fin 192} {s : State} (h_regs : Part.regs ∈ pset)
    (h_cnts : Part.cnts ∈ pset) (h_outs : Part.outs ∈ pset) (h_intc : Part.intc ∈ pset) (h_sys : Part.sys ∈ pset)
    (h_eth : Part.eth ∈ pset) (h_time : Part.time ∈ pset) (h_pwr : Part.pwr ∈ pset) (hk : Keeps pset z0 s) (he :
    Machine.execPauseRefresh p s = .next t0) : Keeps pset z0 t0 := by
  unfold Machine.execPauseRefresh at he
  cases he
  all_goals
    repeat' (first
      | with_reducible first
        | assumption | apply K.pauseRefresh h_regs h_cnts h_outs h_intc h_sys h_eth h_time h_pwr)

theorem execPauseXonSend {pset : List Part} {z0 t0 : State} {p : Fin 192} {s : State} (h_regs : Part.regs ∈ pset)
    (h_cnts : Part.cnts ∈ pset) (h_outs : Part.outs ∈ pset) (h_intc : Part.intc ∈ pset) (h_sys : Part.sys ∈ pset)
    (h_eth : Part.eth ∈ pset) (h_time : Part.time ∈ pset) (h_pwr : Part.pwr ∈ pset) (hk : Keeps pset z0 s) (he :
    Machine.execPauseXonSend p s = .next t0) : Keeps pset z0 t0 := by
  unfold Machine.execPauseXonSend at he
  cases he
  all_goals
    repeat' (first
      | with_reducible first
        | assumption | apply K.pauseXon h_regs h_cnts h_outs h_intc h_sys h_eth h_time h_pwr)

theorem execEgressSelect {pset : List Part} {z0 t0 : State} {p : Fin 224} {f : ReadFault} {s : State} (h_regs :
    Part.regs ∈ pset) (h_cnts : Part.cnts ∈ pset) (h_free : Part.free ∈ pset) (h_mem : Part.mem ∈ pset) (h_outs :
    Part.outs ∈ pset) (h_intc : Part.intc ∈ pset) (h_sys : Part.sys ∈ pset) (h_sw : Part.sw ∈ pset) (h_eth : Part.eth
    ∈ pset) (h_gate : Part.gate ∈ pset) (h_vlt : Part.vlt ∈ pset) (h_bnk : Part.bnk ∈ pset) (h_time : Part.time ∈
    pset) (h_pwr : Part.pwr ∈ pset) (hk : Keeps pset z0 s) (he : Machine.execEgressSelect p f s = .next t0) : Keeps
    pset z0 t0 := by
  unfold Machine.execEgressSelect at he
  cases he
  all_goals
    repeat' (first
      | with_reducible first
        | assumption
        | apply K.egressSelect h_regs h_cnts h_free h_mem h_outs h_intc h_sys h_sw h_eth h_gate h_vlt h_bnk h_time
            h_pwr)

theorem execMacTransmitEnd {pset : List Part} {z0 t0 : State} {p : Fin 192} {s : State} (h_regs : Part.regs ∈
    pset) (h_cnts : Part.cnts ∈ pset) (h_free : Part.free ∈ pset) (h_mem : Part.mem ∈ pset) (h_outs : Part.outs ∈
    pset) (h_intc : Part.intc ∈ pset) (h_sys : Part.sys ∈ pset) (h_sw : Part.sw ∈ pset) (h_eth : Part.eth ∈ pset)
    (h_gate : Part.gate ∈ pset) (h_vlt : Part.vlt ∈ pset) (h_bnk : Part.bnk ∈ pset) (h_time : Part.time ∈ pset) (h_pwr
    : Part.pwr ∈ pset) (hk : Keeps pset z0 s) (he : Machine.execMacTransmitEnd p s = .next t0) : Keeps pset z0 t0 :=
    by
  unfold Machine.execMacTransmitEnd at he
  cases he
  all_goals
    repeat' (first
      | with_reducible first
        | assumption
        | apply K.macTxEnd h_regs h_cnts h_free h_mem h_outs h_intc h_sys h_sw h_eth h_gate h_vlt h_bnk h_time h_pwr)

theorem execAgeingHeadCheck {pset : List Part} {z0 t0 : State} {s : State} (h_regs : Part.regs ∈ pset) (h_cnts :
    Part.cnts ∈ pset) (h_free : Part.free ∈ pset) (h_mem : Part.mem ∈ pset) (h_outs : Part.outs ∈ pset) (h_intc :
    Part.intc ∈ pset) (h_sys : Part.sys ∈ pset) (h_sw : Part.sw ∈ pset) (h_gate : Part.gate ∈ pset) (h_vlt : Part.vlt
    ∈ pset) (h_bnk : Part.bnk ∈ pset) (h_time : Part.time ∈ pset) (h_pwr : Part.pwr ∈ pset) (hk : Keeps pset z0 s) (he
    : Machine.execAgeingHeadCheck s = .next t0) : Keeps pset z0 t0 := by
  unfold Machine.execAgeingHeadCheck at he
  cases he
  all_goals
    repeat' (first
      | with_reducible first
        | assumption
        | apply K.ageHeads h_regs h_cnts h_free h_mem h_outs h_intc h_sys h_sw h_gate h_vlt h_bnk h_time h_pwr)

theorem execGateIntervalExpiry {pset : List Part} {z0 t0 : State} {p : Fin 224} {s : State} (h_cnts : Part.cnts ∈
    pset) (h_sys : Part.sys ∈ pset) (h_sw : Part.sw ∈ pset) (h_time : Part.time ∈ pset) (h_pwr : Part.pwr ∈ pset) (hk
    : Keeps pset z0 s) (he : Machine.execGateIntervalExpiry p s = .next t0) : Keeps pset z0 t0 := by
  unfold Machine.execGateIntervalExpiry at he
  cases he
  all_goals
    repeat' (first
      | with_reducible first
        | assumption | apply K.gateInterval h_cnts h_sys h_sw h_time h_pwr)

theorem execGateSwapArm {pset : List Part} {z0 t0 : State} {m : Master} {p : Fin 224} {v : Word} {s : State}
    (h_regs : Part.regs ∈ pset) (h_outs : Part.outs ∈ pset) (h_resp : Part.resp ∈ pset) (h_intc : Part.intc ∈ pset)
    (h_sw : Part.sw ∈ pset) (hk : Keeps pset z0 s) (he : Machine.execGateSwapArm m p v s = .next t0) : Keeps pset z0
    t0 := by
  unfold Machine.execGateSwapArm at he
  cases he
  all_goals
    repeat' (first
      | with_reducible first
        | assumption | apply K.gatedWrite h_regs h_outs h_resp h_intc | apply K.gateCtrl h_regs h_outs h_intc h_sw
      | intro _ _ | dsimp only)

theorem execGateBankSwap {pset : List Part} {z0 t0 : State} {p : Fin 224} {s : State} (h_regs : Part.regs ∈ pset)
    (h_cnts : Part.cnts ∈ pset) (h_sys : Part.sys ∈ pset) (h_sw : Part.sw ∈ pset) (h_time : Part.time ∈ pset) (h_pwr :
    Part.pwr ∈ pset) (hk : Keeps pset z0 s) (he : Machine.execGateBankSwap p s = .next t0) : Keeps pset z0 t0 := by
  unfold Machine.execGateBankSwap at he
  cases he
  all_goals
    repeat' (first
      | with_reducible first
        | assumption | apply K.gateSwap h_regs h_cnts h_sys h_sw h_time h_pwr)

theorem execHsrPassThrough {pset : List Part} {z0 t0 : State} {p : Fin 192} {bytes : List Byte} {k : RxKind} {s :
    State} (h_regs : Part.regs ∈ pset) (h_cnts : Part.cnts ∈ pset) (h_free : Part.free ∈ pset) (h_mem : Part.mem ∈
    pset) (h_outs : Part.outs ∈ pset) (h_intc : Part.intc ∈ pset) (h_sw : Part.sw ∈ pset) (h_eth : Part.eth ∈ pset)
    (h_gate : Part.gate ∈ pset) (h_vlt : Part.vlt ∈ pset) (h_bnk : Part.bnk ∈ pset) (h_time : Part.time ∈ pset) (hk :
    Keeps pset z0 s) (he : Machine.execHsrPassThrough p bytes k s = .next t0) : Keeps pset z0 t0 := by
  unfold Machine.execHsrPassThrough at he
  cases he
  all_goals
    repeat' (first
      | with_reducible first
        | assumption | apply K.rxLine h_cnts h_outs
        | apply K.macRx h_regs h_cnts h_free h_mem h_outs h_intc h_sw h_eth h_gate h_vlt h_bnk h_time
      | intro _ _ | dsimp only)

theorem execTblWrite {pset : List Part} {z0 t0 : State} {m : Master} {v : Word} {s : State} (h_regs : Part.regs ∈
    pset) (h_outs : Part.outs ∈ pset) (h_resp : Part.resp ∈ pset) (h_intc : Part.intc ∈ pset) (h_sw : Part.sw ∈ pset)
    (hk : Keeps pset z0 s) (he : Machine.execTblWrite m v s = .next t0) : Keeps pset z0 t0 := by
  unfold Machine.execTblWrite at he
  cases he
  all_goals
    repeat' (first
      | with_reducible first
        | assumption | apply K.gatedWrite h_regs h_outs h_resp h_intc | apply K.tblCmd h_regs h_outs h_intc h_sw
      | intro _ _ | dsimp only)

theorem execTblRead {pset : List Part} {z0 t0 : State} {m : Master} {v : Word} {s : State} (h_regs : Part.regs ∈
    pset) (h_outs : Part.outs ∈ pset) (h_resp : Part.resp ∈ pset) (h_intc : Part.intc ∈ pset) (h_sw : Part.sw ∈ pset)
    (hk : Keeps pset z0 s) (he : Machine.execTblRead m v s = .next t0) : Keeps pset z0 t0 := by
  unfold Machine.execTblRead at he
  cases he
  all_goals
    repeat' (first
      | with_reducible first
        | assumption | apply K.gatedWrite h_regs h_outs h_resp h_intc | apply K.tblCmd h_regs h_outs h_intc h_sw
      | intro _ _ | dsimp only)

theorem execFdbWrite {pset : List Part} {z0 t0 : State} {m : Master} {v : Word} {s : State} (h_regs : Part.regs ∈
    pset) (h_outs : Part.outs ∈ pset) (h_resp : Part.resp ∈ pset) (h_intc : Part.intc ∈ pset) (h_sw : Part.sw ∈ pset)
    (hk : Keeps pset z0 s) (he : Machine.execFdbWrite m v s = .next t0) : Keeps pset z0 t0 := by
  unfold Machine.execFdbWrite at he
  cases he
  all_goals
    repeat' (first
      | with_reducible first
        | assumption | apply K.gatedWrite h_regs h_outs h_resp h_intc | apply K.fdbCmd h_regs h_outs h_intc h_sw
      | intro _ _ | dsimp only)

theorem execFdbInsert {pset : List Part} {z0 t0 : State} {m : Master} {v : Word} {s : State} (h_regs : Part.regs ∈
    pset) (h_outs : Part.outs ∈ pset) (h_resp : Part.resp ∈ pset) (h_intc : Part.intc ∈ pset) (h_sw : Part.sw ∈ pset)
    (hk : Keeps pset z0 s) (he : Machine.execFdbInsert m v s = .next t0) : Keeps pset z0 t0 := by
  unfold Machine.execFdbInsert at he
  cases he
  all_goals
    repeat' (first
      | with_reducible first
        | assumption | apply K.gatedWrite h_regs h_outs h_resp h_intc | apply K.fdbCmd h_regs h_outs h_intc h_sw
      | intro _ _ | dsimp only)

theorem execFdbDelete {pset : List Part} {z0 t0 : State} {m : Master} {v : Word} {s : State} (h_regs : Part.regs ∈
    pset) (h_outs : Part.outs ∈ pset) (h_resp : Part.resp ∈ pset) (h_intc : Part.intc ∈ pset) (h_sw : Part.sw ∈ pset)
    (hk : Keeps pset z0 s) (he : Machine.execFdbDelete m v s = .next t0) : Keeps pset z0 t0 := by
  unfold Machine.execFdbDelete at he
  cases he
  all_goals
    repeat' (first
      | with_reducible first
        | assumption | apply K.gatedWrite h_regs h_outs h_resp h_intc | apply K.fdbCmd h_regs h_outs h_intc h_sw
      | intro _ _ | dsimp only)

theorem execFdbLookup {pset : List Part} {z0 t0 : State} {m : Master} {v : Word} {s : State} (h_regs : Part.regs ∈
    pset) (h_outs : Part.outs ∈ pset) (h_resp : Part.resp ∈ pset) (h_intc : Part.intc ∈ pset) (h_sw : Part.sw ∈ pset)
    (hk : Keeps pset z0 s) (he : Machine.execFdbLookup m v s = .next t0) : Keeps pset z0 t0 := by
  unfold Machine.execFdbLookup at he
  cases he
  all_goals
    repeat' (first
      | with_reducible first
        | assumption | apply K.gatedWrite h_regs h_outs h_resp h_intc | apply K.fdbCmd h_regs h_outs h_intc h_sw
      | intro _ _ | dsimp only)

theorem execAgePeriodWrite {pset : List Part} {z0 t0 : State} {m : Master} {v : Word} {s : State} (h_regs :
    Part.regs ∈ pset) (h_outs : Part.outs ∈ pset) (h_resp : Part.resp ∈ pset) (h_intc : Part.intc ∈ pset) (h_sw :
    Part.sw ∈ pset) (hk : Keeps pset z0 s) (he : Machine.execAgePeriodWrite m v s = .next t0) : Keeps pset z0 t0 := by
  unfold Machine.execAgePeriodWrite at he
  cases he
  all_goals
    repeat' (first
      | with_reducible first
        | assumption | apply K.gatedWrite h_regs h_outs h_resp h_intc | apply K.agePeriod h_regs h_outs h_intc h_sw
      | intro _ _ | dsimp only)

theorem execFdbAgeSweep {pset : List Part} {z0 t0 : State} {s : State} (h_regs : Part.regs ∈ pset) (h_cnts :
    Part.cnts ∈ pset) (h_outs : Part.outs ∈ pset) (h_intc : Part.intc ∈ pset) (h_sys : Part.sys ∈ pset) (h_sw :
    Part.sw ∈ pset) (h_time : Part.time ∈ pset) (h_pwr : Part.pwr ∈ pset) (hk : Keeps pset z0 s) (he :
    Machine.execFdbAgeSweep s = .next t0) : Keeps pset z0 t0 := by
  unfold Machine.execFdbAgeSweep at he
  cases he
  all_goals
    repeat' (first
      | with_reducible first
        | assumption | apply K.ageSweep h_regs h_cnts h_outs h_intc h_sys h_sw h_time h_pwr)

theorem execPurgeScanComplete {pset : List Part} {z0 t0 : State} {s : State} (h_regs : Part.regs ∈ pset) (h_cnts :
    Part.cnts ∈ pset) (h_mem : Part.mem ∈ pset) (h_outs : Part.outs ∈ pset) (h_intc : Part.intc ∈ pset) (h_sw :
    Part.sw ∈ pset) (h_bnk : Part.bnk ∈ pset) (hk : Keeps pset z0 s) (he : Machine.execPurgeScanComplete s = .next t0)
    : Keeps pset z0 t0 := by
  unfold Machine.execPurgeScanComplete at he
  cases he
  all_goals
    repeat' (first
      | with_reducible first
        | assumption | apply K.purgeScan h_regs h_cnts h_mem h_outs h_intc h_sw h_bnk)

theorem execWithdrawalPost {pset : List Part} {z0 t0 : State} {s : State} (h_sw : Part.sw ∈ pset) (hk : Keeps pset
    z0 s) (he : Machine.execWithdrawalPost s = .next t0) : Keeps pset z0 t0 := by
  unfold Machine.execWithdrawalPost at he
  cases he
  all_goals
    repeat' (first
      | with_reducible first
        | assumption | apply K.withdrawTake h_sw
      | dsimp only)

theorem execWithdrawalScanComplete {pset : List Part} {z0 t0 : State} {s : State} (h_regs : Part.regs ∈ pset)
    (h_cnts : Part.cnts ∈ pset) (h_free : Part.free ∈ pset) (h_mem : Part.mem ∈ pset) (h_outs : Part.outs ∈ pset)
    (h_intc : Part.intc ∈ pset) (h_sw : Part.sw ∈ pset) (h_gate : Part.gate ∈ pset) (h_vlt : Part.vlt ∈ pset) (h_bnk :
    Part.bnk ∈ pset) (hk : Keeps pset z0 s) (he : Machine.execWithdrawalScanComplete s = .next t0) : Keeps pset z0 t0
    := by
  unfold Machine.execWithdrawalScanComplete at he
  cases he
  all_goals
    repeat' (first
      | with_reducible first
        | assumption | apply K.withdrawScan h_regs h_cnts h_free h_mem h_outs h_intc h_sw h_gate h_vlt h_bnk
      | dsimp only)

theorem execDropRingLostRead {pset : List Part} {z0 t0 : State} {m : Master} {s : State} (h_regs : Part.regs ∈
    pset) (h_outs : Part.outs ∈ pset) (h_resp : Part.resp ∈ pset) (h_intc : Part.intc ∈ pset) (hk : Keeps pset z0 s)
    (he : Machine.execDropRingLostRead m s = .next t0) : Keeps pset z0 t0 := by
  unfold Machine.execDropRingLostRead at he
  cases he
  all_goals
    repeat' (first
      | with_reducible first
        | assumption | apply K.setR h_regs | apply K.gatedRead h_regs h_outs h_resp h_intc
      | intro _ _ | dsimp only)

theorem execSmpLostRead {pset : List Part} {z0 t0 : State} {m : Master} {s : State} (h_regs : Part.regs ∈ pset)
    (h_outs : Part.outs ∈ pset) (h_resp : Part.resp ∈ pset) (h_intc : Part.intc ∈ pset) (hk : Keeps pset z0 s) (he :
    Machine.execSmpLostRead m s = .next t0) : Keeps pset z0 t0 := by
  unfold Machine.execSmpLostRead at he
  cases he
  all_goals
    repeat' (first
      | with_reducible first
        | assumption | apply K.setR h_regs | apply K.gatedRead h_regs h_outs h_resp h_intc
      | intro _ _ | dsimp only)

theorem execGateAdmission {pset : List Part} {z0 t0 : State} {f : ReadFault} {s : State} (h_regs : Part.regs ∈
    pset) (h_cnts : Part.cnts ∈ pset) (h_free : Part.free ∈ pset) (h_mem : Part.mem ∈ pset) (h_outs : Part.outs ∈
    pset) (h_intc : Part.intc ∈ pset) (h_sw : Part.sw ∈ pset) (h_gate : Part.gate ∈ pset) (h_bnk : Part.bnk ∈ pset)
    (hk : Keeps pset z0 s) (he : Machine.execGateAdmission f s = .next t0) : Keeps pset z0 t0 := by
  unfold Machine.execGateAdmission at he
  cases he
  all_goals
    repeat' (first
      | with_reducible first
        | assumption | apply K.gateAdmit h_regs h_cnts h_free h_mem h_outs h_intc h_sw h_gate h_bnk)

theorem execUnitTakesEntry {pset : List Part} {z0 t0 : State} {c : UnitClass} {s : State} (h_regs : Part.regs ∈
    pset) (h_mem : Part.mem ∈ pset) (h_outs : Part.outs ∈ pset) (h_intc : Part.intc ∈ pset) (h_gate : Part.gate ∈
    pset) (h_bnk : Part.bnk ∈ pset) (hk : Keeps pset z0 s) (he : Machine.execUnitTakesEntry c s = .next t0) : Keeps
    pset z0 t0 := by
  unfold Machine.execUnitTakesEntry at he
  cases he
  all_goals
    repeat' (first
      | with_reducible first
        | assumption | apply K.unitTake h_regs h_mem h_outs h_intc h_gate h_bnk)

theorem execSignatureResult {pset : List Part} {z0 t0 : State} {tag : Word} {ok : Bool} {s : State} (h_gate :
    Part.gate ∈ pset) (hk : Keeps pset z0 s) (he : Machine.execSignatureResult tag ok s = .next t0) : Keeps pset z0 t0
    := by
  unfold Machine.execSignatureResult at he
  cases he
  all_goals
    repeat' (first
      | with_reducible first
        | assumption | apply K.sigResult h_gate)

theorem execVerdict {pset : List Part} {z0 t0 : State} {tag : Word} {s : State} (h_regs : Part.regs ∈ pset)
    (h_cnts : Part.cnts ∈ pset) (h_free : Part.free ∈ pset) (h_mem : Part.mem ∈ pset) (h_outs : Part.outs ∈ pset)
    (h_intc : Part.intc ∈ pset) (h_sw : Part.sw ∈ pset) (h_gate : Part.gate ∈ pset) (h_vlt : Part.vlt ∈ pset) (h_bnk :
    Part.bnk ∈ pset) (hk : Keeps pset z0 s) (he : Machine.execVerdict tag s = .next t0) : Keeps pset z0 t0 := by
  unfold Machine.execVerdict at he
  cases he
  all_goals
    repeat' (first
      | with_reducible first
        | assumption | apply K.verdictOf h_regs h_cnts h_free h_mem h_outs h_intc h_sw h_gate h_vlt h_bnk)

theorem execReplayMarkDurable {pset : List Part} {z0 t0 : State} {key : Fin 4096} {s : State} (h_regs : Part.regs
    ∈ pset) (h_outs : Part.outs ∈ pset) (h_intc : Part.intc ∈ pset) (h_vlt : Part.vlt ∈ pset) (hk : Keeps pset z0 s)
    (he : Machine.execReplayMarkDurable key s = .next t0) : Keeps pset z0 t0 := by
  unfold Machine.execReplayMarkDurable at he
  cases he
  all_goals
    repeat' (first
      | with_reducible first
        | assumption | apply K.markDurable h_regs h_outs h_intc h_vlt)

theorem execGateHoldLimitExpiry {pset : List Part} {z0 t0 : State} {chan : BitVec 9} {s : State} (h_regs :
    Part.regs ∈ pset) (h_cnts : Part.cnts ∈ pset) (h_free : Part.free ∈ pset) (h_mem : Part.mem ∈ pset) (h_outs :
    Part.outs ∈ pset) (h_intc : Part.intc ∈ pset) (h_sys : Part.sys ∈ pset) (h_sw : Part.sw ∈ pset) (h_gate :
    Part.gate ∈ pset) (h_vlt : Part.vlt ∈ pset) (h_bnk : Part.bnk ∈ pset) (h_mdb : Part.mdb ∈ pset) (h_time :
    Part.time ∈ pset) (h_pwr : Part.pwr ∈ pset) (hk : Keeps pset z0 s) (he : Machine.execGateHoldLimitExpiry chan s =
    .next t0) : Keeps pset z0 t0 := by
  unfold Machine.execGateHoldLimitExpiry at he
  cases he
  all_goals
    repeat' (first
      | with_reducible first
        | assumption
        | apply K.gateHold h_regs h_cnts h_free h_mem h_outs h_intc h_sys h_sw h_gate h_vlt h_bnk h_mdb h_time h_pwr)

theorem execCatInstall {pset : List Part} {z0 t0 : State} {m : Master} {v : Word} {s : State} (h_regs : Part.regs
    ∈ pset) (h_cnts : Part.cnts ∈ pset) (h_free : Part.free ∈ pset) (h_mem : Part.mem ∈ pset) (h_outs : Part.outs ∈
    pset) (h_resp : Part.resp ∈ pset) (h_intc : Part.intc ∈ pset) (h_sw : Part.sw ∈ pset) (h_gate : Part.gate ∈ pset)
    (h_vlt : Part.vlt ∈ pset) (h_bnk : Part.bnk ∈ pset) (h_mdb : Part.mdb ∈ pset) (hk : Keeps pset z0 s) (he :
    Machine.execCatInstall m v s = .next t0) : Keeps pset z0 t0 := by
  unfold Machine.execCatInstall at he
  cases he
  all_goals
    repeat' (first
      | with_reducible first
        | assumption | apply K.gatedWrite h_regs h_outs h_resp h_intc
        | apply K.catCmd h_regs h_cnts h_free h_mem h_outs h_intc h_sw h_gate h_vlt h_bnk h_mdb
      | intro _ _ | dsimp only)

theorem execCatEnable {pset : List Part} {z0 t0 : State} {m : Master} {v : Word} {s : State} (h_regs : Part.regs ∈
    pset) (h_cnts : Part.cnts ∈ pset) (h_free : Part.free ∈ pset) (h_mem : Part.mem ∈ pset) (h_outs : Part.outs ∈
    pset) (h_resp : Part.resp ∈ pset) (h_intc : Part.intc ∈ pset) (h_sw : Part.sw ∈ pset) (h_gate : Part.gate ∈ pset)
    (h_vlt : Part.vlt ∈ pset) (h_bnk : Part.bnk ∈ pset) (h_mdb : Part.mdb ∈ pset) (hk : Keeps pset z0 s) (he :
    Machine.execCatEnable m v s = .next t0) : Keeps pset z0 t0 := by
  unfold Machine.execCatEnable at he
  cases he
  all_goals
    repeat' (first
      | with_reducible first
        | assumption | apply K.gatedWrite h_regs h_outs h_resp h_intc
        | apply K.catCmd h_regs h_cnts h_free h_mem h_outs h_intc h_sw h_gate h_vlt h_bnk h_mdb
      | intro _ _ | dsimp only)

theorem execCatDisable {pset : List Part} {z0 t0 : State} {m : Master} {v : Word} {s : State} (h_regs : Part.regs
    ∈ pset) (h_cnts : Part.cnts ∈ pset) (h_free : Part.free ∈ pset) (h_mem : Part.mem ∈ pset) (h_outs : Part.outs ∈
    pset) (h_resp : Part.resp ∈ pset) (h_intc : Part.intc ∈ pset) (h_sw : Part.sw ∈ pset) (h_gate : Part.gate ∈ pset)
    (h_vlt : Part.vlt ∈ pset) (h_bnk : Part.bnk ∈ pset) (h_mdb : Part.mdb ∈ pset) (hk : Keeps pset z0 s) (he :
    Machine.execCatDisable m v s = .next t0) : Keeps pset z0 t0 := by
  unfold Machine.execCatDisable at he
  cases he
  all_goals
    repeat' (first
      | with_reducible first
        | assumption | apply K.gatedWrite h_regs h_outs h_resp h_intc
        | apply K.catCmd h_regs h_cnts h_free h_mem h_outs h_intc h_sw h_gate h_vlt h_bnk h_mdb
      | intro _ _ | dsimp only)

theorem execCatRevoke {pset : List Part} {z0 t0 : State} {m : Master} {v : Word} {s : State} (h_regs : Part.regs ∈
    pset) (h_cnts : Part.cnts ∈ pset) (h_free : Part.free ∈ pset) (h_mem : Part.mem ∈ pset) (h_outs : Part.outs ∈
    pset) (h_resp : Part.resp ∈ pset) (h_intc : Part.intc ∈ pset) (h_sw : Part.sw ∈ pset) (h_gate : Part.gate ∈ pset)
    (h_vlt : Part.vlt ∈ pset) (h_bnk : Part.bnk ∈ pset) (h_mdb : Part.mdb ∈ pset) (hk : Keeps pset z0 s) (he :
    Machine.execCatRevoke m v s = .next t0) : Keeps pset z0 t0 := by
  unfold Machine.execCatRevoke at he
  cases he
  all_goals
    repeat' (first
      | with_reducible first
        | assumption | apply K.gatedWrite h_regs h_outs h_resp h_intc
        | apply K.catCmd h_regs h_cnts h_free h_mem h_outs h_intc h_sw h_gate h_vlt h_bnk h_mdb
      | intro _ _ | dsimp only)

theorem execCatRead {pset : List Part} {z0 t0 : State} {m : Master} {v : Word} {s : State} (h_regs : Part.regs ∈
    pset) (h_cnts : Part.cnts ∈ pset) (h_free : Part.free ∈ pset) (h_mem : Part.mem ∈ pset) (h_outs : Part.outs ∈
    pset) (h_resp : Part.resp ∈ pset) (h_intc : Part.intc ∈ pset) (h_sw : Part.sw ∈ pset) (h_gate : Part.gate ∈ pset)
    (h_vlt : Part.vlt ∈ pset) (h_bnk : Part.bnk ∈ pset) (h_mdb : Part.mdb ∈ pset) (hk : Keeps pset z0 s) (he :
    Machine.execCatRead m v s = .next t0) : Keeps pset z0 t0 := by
  unfold Machine.execCatRead at he
  cases he
  all_goals
    repeat' (first
      | with_reducible first
        | assumption | apply K.gatedWrite h_regs h_outs h_resp h_intc
        | apply K.catCmd h_regs h_cnts h_free h_mem h_outs h_intc h_sw h_gate h_vlt h_bnk h_mdb
      | intro _ _ | dsimp only)

theorem execCatCommandDurable {pset : List Part} {z0 t0 : State} {s : State} (h_regs : Part.regs ∈ pset) (h_free :
    Part.free ∈ pset) (h_outs : Part.outs ∈ pset) (h_intc : Part.intc ∈ pset) (h_gate : Part.gate ∈ pset) (h_vlt :
    Part.vlt ∈ pset) (hk : Keeps pset z0 s) (he : Machine.execCatCommandDurable s = .next t0) : Keeps pset z0 t0 := by
  unfold Machine.execCatCommandDurable at he
  cases he
  all_goals
    repeat' (first
      | with_reducible first
        | assumption | apply K.catDurable h_regs h_free h_outs h_intc h_gate h_vlt)

theorem execSieveWrite {pset : List Part} {z0 t0 : State} {m : Master} {v : Word} {s : State} (h_regs : Part.regs
    ∈ pset) (h_outs : Part.outs ∈ pset) (h_resp : Part.resp ∈ pset) (h_intc : Part.intc ∈ pset) (h_gate : Part.gate ∈
    pset) (hk : Keeps pset z0 s) (he : Machine.execSieveWrite m v s = .next t0) : Keeps pset z0 t0 := by
  unfold Machine.execSieveWrite at he
  cases he
  all_goals
    repeat' (first
      | with_reducible first
        | assumption | apply K.gatedWrite h_regs h_outs h_resp h_intc | apply K.sieveCmd h_regs h_outs h_intc h_gate
      | intro _ _ | dsimp only)

theorem execSieveRead {pset : List Part} {z0 t0 : State} {m : Master} {v : Word} {s : State} (h_regs : Part.regs ∈
    pset) (h_outs : Part.outs ∈ pset) (h_resp : Part.resp ∈ pset) (h_intc : Part.intc ∈ pset) (h_gate : Part.gate ∈
    pset) (hk : Keeps pset z0 s) (he : Machine.execSieveRead m v s = .next t0) : Keeps pset z0 t0 := by
  unfold Machine.execSieveRead at he
  cases he
  all_goals
    repeat' (first
      | with_reducible first
        | assumption | apply K.gatedWrite h_regs h_outs h_resp h_intc | apply K.sieveCmd h_regs h_outs h_intc h_gate
      | intro _ _ | dsimp only)

theorem execKeyPoolWrite {pset : List Part} {z0 t0 : State} {m : Master} {w : Fin 16384} {v : Word} {s : State}
    (h_regs : Part.regs ∈ pset) (h_outs : Part.outs ∈ pset) (h_resp : Part.resp ∈ pset) (h_intc : Part.intc ∈ pset)
    (h_gate : Part.gate ∈ pset) (hk : Keeps pset z0 s) (he : Machine.execKeyPoolWrite m w v s = .next t0) : Keeps pset
    z0 t0 := by
  unfold Machine.execKeyPoolWrite at he
  cases he
  all_goals
    repeat' (first
      | with_reducible first
        | assumption | apply K.gatedWrite h_regs h_outs h_resp h_intc
        | apply K.poolWrite h_regs h_outs h_intc h_gate
      | intro _ _ | dsimp only)

theorem execVrSizeWrite {pset : List Part} {z0 t0 : State} {m : Master} {v : Word} {s : State} (h_regs : Part.regs
    ∈ pset) (h_mem : Part.mem ∈ pset) (h_outs : Part.outs ∈ pset) (h_resp : Part.resp ∈ pset) (h_intc : Part.intc ∈
    pset) (h_gate : Part.gate ∈ pset) (h_bnk : Part.bnk ∈ pset) (hk : Keeps pset z0 s) (he : Machine.execVrSizeWrite m
    v s = .next t0) : Keeps pset z0 t0 := by
  unfold Machine.execVrSizeWrite at he
  cases he
  all_goals
    repeat' (first
      | with_reducible first
        | assumption | apply K.gatedWrite h_regs h_outs h_resp h_intc
        | apply K.vrSize h_regs h_mem h_outs h_intc h_gate h_bnk
      | intro _ _ | dsimp only)

theorem execVrOverrunRead {pset : List Part} {z0 t0 : State} {m : Master} {s : State} (h_regs : Part.regs ∈ pset)
    (h_outs : Part.outs ∈ pset) (h_resp : Part.resp ∈ pset) (h_intc : Part.intc ∈ pset) (hk : Keeps pset z0 s) (he :
    Machine.execVrOverrunRead m s = .next t0) : Keeps pset z0 t0 := by
  unfold Machine.execVrOverrunRead at he
  cases he
  all_goals
    repeat' (first
      | with_reducible first
        | assumption | apply K.setR h_regs | apply K.gatedRead h_regs h_outs h_resp h_intc
      | intro _ _ | dsimp only)

theorem execGateCtrlWrite {pset : List Part} {z0 t0 : State} {m : Master} {v : Word} {s : State} (h_regs :
    Part.regs ∈ pset) (h_outs : Part.outs ∈ pset) (h_resp : Part.resp ∈ pset) (h_intc : Part.intc ∈ pset) (hk : Keeps
    pset z0 s) (he : Machine.execGateCtrlWrite m v s = .next t0) : Keeps pset z0 t0 := by
  unfold Machine.execGateCtrlWrite at he
  cases he
  all_goals
    repeat' (first
      | with_reducible first
        | assumption | apply K.setR h_regs | apply K.gatedWrite h_regs h_outs h_resp h_intc
      | intro _ _ | dsimp only)

theorem execSvcPost {pset : List Part} {z0 t0 : State} {n : Pe} {addr : Word} {s : State} (h_regs : Part.regs ∈
    pset) (h_mem : Part.mem ∈ pset) (h_outs : Part.outs ∈ pset) (h_intc : Part.intc ∈ pset) (h_gate : Part.gate ∈
    pset) (h_bnk : Part.bnk ∈ pset) (hk : Keeps pset z0 s) (he : Machine.execSvcPost n addr s = .next t0) : Keeps pset
    z0 t0 := by
  unfold Machine.execSvcPost at he
  cases he
  all_goals
    repeat' (first
      | with_reducible first
        | assumption | apply K.svcPost h_regs h_mem h_outs h_intc h_gate h_bnk)

theorem execServiceRequestEnd {pset : List Part} {z0 t0 : State} {lane : Fin 32} {s : State} (h_regs : Part.regs ∈
    pset) (h_mem : Part.mem ∈ pset) (h_outs : Part.outs ∈ pset) (h_intc : Part.intc ∈ pset) (h_gate : Part.gate ∈
    pset) (h_bnk : Part.bnk ∈ pset) (hk : Keeps pset z0 s) (he : Machine.execServiceRequestEnd lane s = .next t0) :
    Keeps pset z0 t0 := by
  unfold Machine.execServiceRequestEnd at he
  cases he
  all_goals
    repeat' (first
      | with_reducible first
        | assumption | apply K.svcDone h_regs h_mem h_outs h_intc h_gate h_bnk)

theorem execSupplyWarning {pset : List Part} {z0 t0 : State} {aon : Bool} {s : State} (h_regs : Part.regs ∈ pset)
    (h_cnts : Part.cnts ∈ pset) (h_free : Part.free ∈ pset) (h_mem : Part.mem ∈ pset) (h_outs : Part.outs ∈ pset)
    (h_intc : Part.intc ∈ pset) (h_sys : Part.sys ∈ pset) (h_sw : Part.sw ∈ pset) (h_gate : Part.gate ∈ pset) (h_vlt :
    Part.vlt ∈ pset) (h_bnk : Part.bnk ∈ pset) (h_plc : Part.plc ∈ pset) (h_pwr : Part.pwr ∈ pset) (hk : Keeps pset z0
    s) (he : Machine.execSupplyWarning aon s = .next t0) : Keeps pset z0 t0 := by
  unfold Machine.execSupplyWarning at he
  cases he
  all_goals
    repeat' (first
      | with_reducible first
        | assumption
        | apply K.supplyWarn h_regs h_cnts h_free h_mem h_outs h_intc h_sys h_sw h_gate h_vlt h_bnk h_plc h_pwr)

theorem execSupplyVerifyAbandon {pset : List Part} {z0 t0 : State} {s : State} (h_regs : Part.regs ∈ pset) (h_cnts
    : Part.cnts ∈ pset) (h_free : Part.free ∈ pset) (h_mem : Part.mem ∈ pset) (h_outs : Part.outs ∈ pset) (h_intc :
    Part.intc ∈ pset) (h_sys : Part.sys ∈ pset) (h_sw : Part.sw ∈ pset) (h_gate : Part.gate ∈ pset) (h_vlt : Part.vlt
    ∈ pset) (h_bnk : Part.bnk ∈ pset) (h_time : Part.time ∈ pset) (h_pwr : Part.pwr ∈ pset) (hk : Keeps pset z0 s) (he
    : Machine.execSupplyVerifyAbandon s = .next t0) : Keeps pset z0 t0 := by
  unfold Machine.execSupplyVerifyAbandon at he
  cases he
  all_goals
    repeat' (first
      | with_reducible first
        | assumption
        | apply K.supplyAbandon h_regs h_cnts h_free h_mem h_outs h_intc h_sys h_sw h_gate h_vlt h_bnk h_time h_pwr)

theorem execSupplyWarningClear {pset : List Part} {z0 t0 : State} {aon : Bool} {s : State} (h_regs : Part.regs ∈
    pset) (h_outs : Part.outs ∈ pset) (h_intc : Part.intc ∈ pset) (h_gate : Part.gate ∈ pset) (h_vlt : Part.vlt ∈
    pset) (hk : Keeps pset z0 s) (he : Machine.execSupplyWarningClear aon s = .next t0) : Keeps pset z0 t0 := by
  unfold Machine.execSupplyWarningClear at he
  cases he
  all_goals
    repeat' (first
      | with_reducible first
        | assumption | apply K.supplyOver h_regs h_outs h_intc h_gate h_vlt)

theorem execCntIncrement {pset : List Part} {z0 t0 : State} {m : Master} {c : BitVec 8} {s : State} (h_regs :
    Part.regs ∈ pset) (h_outs : Part.outs ∈ pset) (h_resp : Part.resp ∈ pset) (h_intc : Part.intc ∈ pset) (h_vlt :
    Part.vlt ∈ pset) (hk : Keeps pset z0 s) (he : Machine.execCntIncrement m c s = .next t0) : Keeps pset z0 t0 := by
  unfold Machine.execCntIncrement at he
  cases he
  all_goals
    repeat' (first
      | with_reducible first
        | assumption | apply K.gatedWrite h_regs h_outs h_resp h_intc | apply K.cntChange h_regs h_outs h_intc h_vlt
      | intro _ _ | dsimp only)

theorem execCntRaise {pset : List Part} {z0 t0 : State} {m : Master} {c : BitVec 8} {s : State} (h_regs :
    Part.regs ∈ pset) (h_outs : Part.outs ∈ pset) (h_resp : Part.resp ∈ pset) (h_intc : Part.intc ∈ pset) (h_vlt :
    Part.vlt ∈ pset) (hk : Keeps pset z0 s) (he : Machine.execCntRaise m c s = .next t0) : Keeps pset z0 t0 := by
  unfold Machine.execCntRaise at he
  cases he
  all_goals
    repeat' (first
      | with_reducible first
        | assumption | apply K.gatedWrite h_regs h_outs h_resp h_intc | apply K.cntChange h_regs h_outs h_intc h_vlt
      | intro _ _ | dsimp only)

theorem execCntRead {pset : List Part} {z0 t0 : State} {m : Master} {c : BitVec 8} {s : State} (h_regs : Part.regs
    ∈ pset) (h_outs : Part.outs ∈ pset) (h_resp : Part.resp ∈ pset) (h_intc : Part.intc ∈ pset) (hk : Keeps pset z0 s)
    (he : Machine.execCntRead m c s = .next t0) : Keeps pset z0 t0 := by
  unfold Machine.execCntRead at he
  cases he
  all_goals
    repeat' (first
      | with_reducible first
        | assumption | apply K.gatedWrite h_regs h_outs h_resp h_intc | apply K.cntReadCmd h_regs h_outs h_intc
      | intro _ _ | dsimp only)

theorem execCounterDurable {pset : List Part} {z0 t0 : State} {s : State} (h_regs : Part.regs ∈ pset) (h_outs :
    Part.outs ∈ pset) (h_intc : Part.intc ∈ pset) (h_vlt : Part.vlt ∈ pset) (hk : Keeps pset z0 s) (he :
    Machine.execCounterDurable s = .next t0) : Keeps pset z0 t0 := by
  unfold Machine.execCounterDurable at he
  cases he
  all_goals
    repeat' (first
      | with_reducible first
        | assumption | apply K.cntDurable h_regs h_outs h_intc h_vlt)

theorem execJournalExport {pset : List Part} {z0 t0 : State} {m : Master} {v : Word} {s : State} (h_regs :
    Part.regs ∈ pset) (h_outs : Part.outs ∈ pset) (h_resp : Part.resp ∈ pset) (h_intc : Part.intc ∈ pset) (h_vlt :
    Part.vlt ∈ pset) (hk : Keeps pset z0 s) (he : Machine.execJournalExport m v s = .next t0) : Keeps pset z0 t0 := by
  unfold Machine.execJournalExport at he
  cases he
  all_goals
    repeat' (first
      | with_reducible first
        | assumption | apply K.gatedWrite h_regs h_outs h_resp h_intc | apply K.exportCmd h_regs h_outs h_intc h_vlt
      | intro _ _ | dsimp only)

theorem execJournalExportDone {pset : List Part} {z0 t0 : State} {s : State} (h_regs : Part.regs ∈ pset) (h_mem :
    Part.mem ∈ pset) (h_outs : Part.outs ∈ pset) (h_intc : Part.intc ∈ pset) (h_vlt : Part.vlt ∈ pset) (h_bnk :
    Part.bnk ∈ pset) (hk : Keeps pset z0 s) (he : Machine.execJournalExportDone s = .next t0) : Keeps pset z0 t0 := by
  unfold Machine.execJournalExportDone at he
  cases he
  all_goals
    repeat' (first
      | with_reducible first
        | assumption | apply K.exportDone h_regs h_mem h_outs h_intc h_vlt h_bnk)

theorem execAuditDroppedRead {pset : List Part} {z0 t0 : State} {m : Master} {s : State} (h_regs : Part.regs ∈
    pset) (h_outs : Part.outs ∈ pset) (h_resp : Part.resp ∈ pset) (h_intc : Part.intc ∈ pset) (hk : Keeps pset z0 s)
    (he : Machine.execAuditDroppedRead m s = .next t0) : Keeps pset z0 t0 := by
  unfold Machine.execAuditDroppedRead at he
  cases he
  all_goals
    repeat' (first
      | with_reducible first
        | assumption | apply K.setR h_regs | apply K.gatedRead h_regs h_outs h_resp h_intc
      | intro _ _ | dsimp only)

theorem execLogCompaction {pset : List Part} {z0 t0 : State} {log : Fin 6} {s : State} (h_regs : Part.regs ∈ pset)
    (h_outs : Part.outs ∈ pset) (h_intc : Part.intc ∈ pset) (h_vlt : Part.vlt ∈ pset) (hk : Keeps pset z0 s) (he :
    Machine.execLogCompaction log s = .next t0) : Keeps pset z0 t0 := by
  unfold Machine.execLogCompaction at he
  cases he
  all_goals
    repeat' (first
      | with_reducible first
        | assumption | apply K.compact h_regs h_outs h_intc h_vlt)

theorem execJournalSecondEnd {pset : List Part} {z0 t0 : State} {s : State} (h_regs : Part.regs ∈ pset) (h_cnts :
    Part.cnts ∈ pset) (h_outs : Part.outs ∈ pset) (h_intc : Part.intc ∈ pset) (h_sys : Part.sys ∈ pset) (h_gate :
    Part.gate ∈ pset) (h_vlt : Part.vlt ∈ pset) (h_time : Part.time ∈ pset) (h_pwr : Part.pwr ∈ pset) (hk : Keeps pset
    z0 s) (he : Machine.execJournalSecondEnd s = .next t0) : Keeps pset z0 t0 := by
  unfold Machine.execJournalSecondEnd at he
  cases he
  all_goals
    repeat' (first
      | with_reducible first
        | assumption | apply K.jSecondEnd h_regs h_cnts h_outs h_intc h_sys h_gate h_vlt h_time h_pwr)

theorem execJournalAllowanceAccrual {pset : List Part} {z0 t0 : State} {s : State} (h_regs : Part.regs ∈ pset)
    (h_vlt : Part.vlt ∈ pset) (hk : Keeps pset z0 s) (he : Machine.execJournalAllowanceAccrual s = .next t0) : Keeps
    pset z0 t0 := by
  unfold Machine.execJournalAllowanceAccrual at he
  cases he
  all_goals
    repeat' (first
      | with_reducible first
        | assumption | apply K.jAccrue h_regs h_vlt)

theorem execLinkUp {pset : List Part} {z0 t0 : State} {p : Fin 192} {speed : BitVec 3} {errs : BitVec 16} {s :
    State} (h_regs : Part.regs ∈ pset) (h_cnts : Part.cnts ∈ pset) (h_outs : Part.outs ∈ pset) (h_intc : Part.intc ∈
    pset) (h_sw : Part.sw ∈ pset) (h_eth : Part.eth ∈ pset) (hk : Keeps pset z0 s) (he : Machine.execLinkUp p speed
    errs s = .next t0) : Keeps pset z0 t0 := by
  unfold Machine.execLinkUp at he
  cases he
  all_goals
    repeat' (first
      | with_reducible first
        | assumption | apply K.linkUpAt h_regs h_cnts h_outs h_intc h_sw h_eth | apply K.codeErrs h_cnts)

theorem execLinkDown {pset : List Part} {z0 t0 : State} {p : Fin 192} {half : Bool} {why : LaneLoss} {errs :
    BitVec 16} {s : State} (h_regs : Part.regs ∈ pset) (h_cnts : Part.cnts ∈ pset) (h_outs : Part.outs ∈ pset) (h_intc
    : Part.intc ∈ pset) (h_sw : Part.sw ∈ pset) (h_eth : Part.eth ∈ pset) (hk : Keeps pset z0 s) (he :
    Machine.execLinkDown p half why errs s = .next t0) : Keeps pset z0 t0 := by
  unfold Machine.execLinkDown at he
  cases he
  all_goals
    repeat' (first
      | with_reducible first
        | assumption | apply K.linkDownAt h_regs h_cnts h_outs h_intc h_sw h_eth | apply K.codeErrs h_cnts)

theorem execSdsEnable {pset : List Part} {z0 t0 : State} {m : Master} {l : Fin 60} {s : State} (h_regs : Part.regs
    ∈ pset) (h_cnts : Part.cnts ∈ pset) (h_free : Part.free ∈ pset) (h_outs : Part.outs ∈ pset) (h_resp : Part.resp ∈
    pset) (h_intc : Part.intc ∈ pset) (h_sw : Part.sw ∈ pset) (h_eth : Part.eth ∈ pset) (hk : Keeps pset z0 s) (he :
    Machine.execSdsEnable m l s = .next t0) : Keeps pset z0 t0 := by
  unfold Machine.execSdsEnable at he
  cases he
  all_goals
    repeat' (first
      | with_reducible first
        | assumption | apply K.gatedWrite h_regs h_outs h_resp h_intc
        | apply K.laneEn h_regs h_cnts h_free h_outs h_intc h_sw h_eth
      | intro _ _ | dsimp only)

theorem execAnRestart {pset : List Part} {z0 t0 : State} {m : Master} {l : Fin 60} {s : State} (h_regs : Part.regs
    ∈ pset) (h_outs : Part.outs ∈ pset) (h_resp : Part.resp ∈ pset) (h_intc : Part.intc ∈ pset) (hk : Keeps pset z0 s)
    (he : Machine.execAnRestart m l s = .next t0) : Keeps pset z0 t0 := by
  unfold Machine.execAnRestart at he
  cases he
  all_goals
    repeat' (first
      | with_reducible first
        | assumption | apply K.gatedWrite h_regs h_outs h_resp h_intc | apply K.anCtrl h_regs
      | intro _ _ | dsimp only)

theorem execPrbsErrRead {pset : List Part} {z0 t0 : State} {m : Master} {l : Fin 60} {errs : Word} {s : State}
    (h_regs : Part.regs ∈ pset) (h_outs : Part.outs ∈ pset) (h_resp : Part.resp ∈ pset) (h_intc : Part.intc ∈ pset)
    (hk : Keeps pset z0 s) (he : Machine.execPrbsErrRead m l errs s = .next t0) : Keeps pset z0 t0 := by
  unfold Machine.execPrbsErrRead at he
  cases he
  all_goals
    repeat' (first
      | with_reducible first
        | assumption | apply K.setR h_regs | apply K.gatedRead h_regs h_outs h_resp h_intc
        | apply K.prbsErrs h_regs h_outs h_intc
      | intro _ _ | dsimp only)

theorem execVerifySend {pset : List Part} {z0 t0 : State} {p : Fin 192} {s : State} (h_regs : Part.regs ∈ pset)
    (h_cnts : Part.cnts ∈ pset) (h_outs : Part.outs ∈ pset) (h_intc : Part.intc ∈ pset) (h_sys : Part.sys ∈ pset)
    (h_eth : Part.eth ∈ pset) (h_time : Part.time ∈ pset) (h_pwr : Part.pwr ∈ pset) (hk : Keeps pset z0 s) (he :
    Machine.execVerifySend p s = .next t0) : Keeps pset z0 t0 := by
  unfold Machine.execVerifySend at he
  cases he
  all_goals
    repeat' (first
      | with_reducible first
        | assumption | apply K.verifySend h_regs h_cnts h_outs h_intc h_sys h_eth h_time h_pwr)

theorem execRespondReceive {pset : List Part} {z0 t0 : State} {p : Fin 192} {s : State} (h_regs : Part.regs ∈
    pset) (h_cnts : Part.cnts ∈ pset) (h_outs : Part.outs ∈ pset) (h_intc : Part.intc ∈ pset) (hk : Keeps pset z0 s)
    (he : Machine.execRespondReceive p s = .next t0) : Keeps pset z0 t0 := by
  unfold Machine.execRespondReceive at he
  cases he
  all_goals
    repeat' (first
      | with_reducible first
        | assumption | apply K.respondRx h_regs h_cnts h_outs h_intc | apply K.rxGate h_cnts
      | intro _ _ | dsimp only)

theorem execVerifyReceive {pset : List Part} {z0 t0 : State} {p : Fin 192} {s : State} (h_regs : Part.regs ∈ pset)
    (h_cnts : Part.cnts ∈ pset) (h_outs : Part.outs ∈ pset) (h_intc : Part.intc ∈ pset) (h_sys : Part.sys ∈ pset)
    (h_eth : Part.eth ∈ pset) (h_time : Part.time ∈ pset) (h_pwr : Part.pwr ∈ pset) (hk : Keeps pset z0 s) (he :
    Machine.execVerifyReceive p s = .next t0) : Keeps pset z0 t0 := by
  unfold Machine.execVerifyReceive at he
  cases he
  all_goals
    repeat' (first
      | with_reducible first
        | assumption | apply K.rxGate h_cnts | apply K.verifyRx h_regs h_cnts h_outs h_intc h_sys h_eth h_time h_pwr
      | intro _ _ | dsimp only)

theorem execLpiEntry {pset : List Part} {z0 t0 : State} {p : Fin 192} {s : State} (h_regs : Part.regs ∈ pset)
    (h_cnts : Part.cnts ∈ pset) (h_outs : Part.outs ∈ pset) (h_intc : Part.intc ∈ pset) (h_sys : Part.sys ∈ pset)
    (h_eth : Part.eth ∈ pset) (h_time : Part.time ∈ pset) (h_pwr : Part.pwr ∈ pset) (hk : Keeps pset z0 s) (he :
    Machine.execLpiEntry p s = .next t0) : Keeps pset z0 t0 := by
  unfold Machine.execLpiEntry at he
  cases he
  all_goals
    repeat' (first
      | with_reducible first
        | assumption | apply K.lpiEnter h_regs h_cnts h_outs h_intc h_sys h_eth h_time h_pwr)

theorem execLpiExit {pset : List Part} {z0 t0 : State} {p : Fin 192} {s : State} (h_regs : Part.regs ∈ pset)
    (h_cnts : Part.cnts ∈ pset) (h_outs : Part.outs ∈ pset) (h_intc : Part.intc ∈ pset) (h_eth : Part.eth ∈ pset) (hk
    : Keeps pset z0 s) (he : Machine.execLpiExit p s = .next t0) : Keeps pset z0 t0 := by
  unfold Machine.execLpiExit at he
  cases he
  all_goals
    repeat' (first
      | with_reducible first
        | assumption | apply K.lpiLeave h_regs h_cnts h_outs h_intc h_eth)

theorem execLpiRx {pset : List Part} {z0 t0 : State} {p : Fin 192} {on : Bool} {s : State} (h_regs : Part.regs ∈
    pset) (h_outs : Part.outs ∈ pset) (h_intc : Part.intc ∈ pset) (h_sys : Part.sys ∈ pset) (h_pwr : Part.pwr ∈ pset)
    (hk : Keeps pset z0 s) (he : Machine.execLpiRx p on s = .next t0) : Keeps pset z0 t0 := by
  unfold Machine.execLpiRx at he
  cases he
  all_goals
    repeat' (first
      | with_reducible first
        | assumption | apply K.lpiPartner h_regs h_outs h_intc h_sys h_pwr)

theorem execRedCtrlWrite {pset : List Part} {z0 t0 : State} {m : Master} {p : Fin 192} {v : Word} {s : State}
    (h_regs : Part.regs ∈ pset) (h_outs : Part.outs ∈ pset) (h_resp : Part.resp ∈ pset) (h_intc : Part.intc ∈ pset)
    (h_eth : Part.eth ∈ pset) (hk : Keeps pset z0 s) (he : Machine.execRedCtrlWrite m p v s = .next t0) : Keeps pset
    z0 t0 := by
  unfold Machine.execRedCtrlWrite at he
  cases he
  all_goals
    repeat' (first
      | with_reducible first
        | assumption | apply K.gatedWrite h_regs h_outs h_resp h_intc | apply K.redCtrl h_regs h_outs h_intc h_eth
      | intro _ _ | dsimp only)

theorem execDupEntryExpiry {pset : List Part} {z0 t0 : State} {pair : Fin 16} {s : State} (h_cnts : Part.cnts ∈
    pset) (h_sys : Part.sys ∈ pset) (h_eth : Part.eth ∈ pset) (h_time : Part.time ∈ pset) (h_pwr : Part.pwr ∈ pset)
    (hk : Keeps pset z0 s) (he : Machine.execDupEntryExpiry pair s = .next t0) : Keeps pset z0 t0 := by
  unfold Machine.execDupEntryExpiry at he
  cases he
  all_goals
    repeat' (first
      | with_reducible first
        | assumption | apply K.dupExpire h_cnts h_sys h_eth h_time h_pwr)

theorem execMdioRead {pset : List Part} {z0 t0 : State} {m : Master} {l : Fin 4} {v : Word} {s : State} (h_regs :
    Part.regs ∈ pset) (h_outs : Part.outs ∈ pset) (h_resp : Part.resp ∈ pset) (h_intc : Part.intc ∈ pset) (h_eth :
    Part.eth ∈ pset) (hk : Keeps pset z0 s) (he : Machine.execMdioRead m l v s = .next t0) : Keeps pset z0 t0 := by
  unfold Machine.execMdioRead at he
  cases he
  all_goals
    repeat' (first
      | with_reducible first
        | assumption | apply K.gatedWrite h_regs h_outs h_resp h_intc | apply K.mdioCmd h_regs h_outs h_eth
      | intro _ _ | dsimp only)

theorem execMdioWrite {pset : List Part} {z0 t0 : State} {m : Master} {l : Fin 4} {v : Word} {s : State} (h_regs :
    Part.regs ∈ pset) (h_outs : Part.outs ∈ pset) (h_resp : Part.resp ∈ pset) (h_intc : Part.intc ∈ pset) (h_eth :
    Part.eth ∈ pset) (hk : Keeps pset z0 s) (he : Machine.execMdioWrite m l v s = .next t0) : Keeps pset z0 t0 := by
  unfold Machine.execMdioWrite at he
  cases he
  all_goals
    repeat' (first
      | with_reducible first
        | assumption | apply K.gatedWrite h_regs h_outs h_resp h_intc | apply K.mdioCmd h_regs h_outs h_eth
      | intro _ _ | dsimp only)

theorem execMdioAddress {pset : List Part} {z0 t0 : State} {m : Master} {l : Fin 4} {v : Word} {s : State} (h_regs
    : Part.regs ∈ pset) (h_outs : Part.outs ∈ pset) (h_resp : Part.resp ∈ pset) (h_intc : Part.intc ∈ pset) (h_eth :
    Part.eth ∈ pset) (hk : Keeps pset z0 s) (he : Machine.execMdioAddress m l v s = .next t0) : Keeps pset z0 t0 := by
  unfold Machine.execMdioAddress at he
  cases he
  all_goals
    repeat' (first
      | with_reducible first
        | assumption | apply K.gatedWrite h_regs h_outs h_resp h_intc | apply K.mdioCmd h_regs h_outs h_eth
      | intro _ _ | dsimp only)

theorem execMdioPostReadIncrement {pset : List Part} {z0 t0 : State} {m : Master} {l : Fin 4} {v : Word} {s :
    State} (h_regs : Part.regs ∈ pset) (h_outs : Part.outs ∈ pset) (h_resp : Part.resp ∈ pset) (h_intc : Part.intc ∈
    pset) (h_eth : Part.eth ∈ pset) (hk : Keeps pset z0 s) (he : Machine.execMdioPostReadIncrement m l v s = .next t0)
    : Keeps pset z0 t0 := by
  unfold Machine.execMdioPostReadIncrement at he
  cases he
  all_goals
    repeat' (first
      | with_reducible first
        | assumption | apply K.gatedWrite h_regs h_outs h_resp h_intc | apply K.mdioCmd h_regs h_outs h_eth
      | intro _ _ | dsimp only)

theorem execMdioFrameEnd {pset : List Part} {z0 t0 : State} {l : Fin 4} {data : BitVec 16} {s : State} (h_regs :
    Part.regs ∈ pset) (h_outs : Part.outs ∈ pset) (h_intc : Part.intc ∈ pset) (h_eth : Part.eth ∈ pset) (hk : Keeps
    pset z0 s) (he : Machine.execMdioFrameEnd l data s = .next t0) : Keeps pset z0 t0 := by
  unfold Machine.execMdioFrameEnd at he
  cases he
  all_goals
    repeat' (first
      | with_reducible first
        | assumption | apply K.mdioEnd h_regs h_outs h_intc h_eth)

theorem execPlkCommit {pset : List Part} {z0 t0 : State} {m : Master} {n : Fin 16} {s : State} (h_regs : Part.regs
    ∈ pset) (h_outs : Part.outs ∈ pset) (h_resp : Part.resp ∈ pset) (h_intc : Part.intc ∈ pset) (hk : Keeps pset z0 s)
    (he : Machine.execPlkCommit m n s = .next t0) : Keeps pset z0 t0 := by
  unfold Machine.execPlkCommit at he
  cases he
  all_goals
    repeat' (first
      | with_reducible first
        | assumption | apply K.gatedWrite h_regs h_outs h_resp h_intc | apply K.plkCommit h_regs h_outs h_intc
      | intro _ _ | dsimp only)

theorem execPlkUncommit {pset : List Part} {z0 t0 : State} {m : Master} {n : Fin 16} {s : State} (h_regs :
    Part.regs ∈ pset) (h_outs : Part.outs ∈ pset) (h_resp : Part.resp ∈ pset) (h_intc : Part.intc ∈ pset) (hk : Keeps
    pset z0 s) (he : Machine.execPlkUncommit m n s = .next t0) : Keeps pset z0 t0 := by
  unfold Machine.execPlkUncommit at he
  cases he
  all_goals
    repeat' (first
      | with_reducible first
        | assumption | apply K.gatedWrite h_regs h_outs h_resp h_intc | apply K.plkUncommit h_regs h_outs h_intc
      | intro _ _ | dsimp only)

theorem execPlkStart {pset : List Part} {z0 t0 : State} {m : Master} {n : Fin 16} {s : State} (h_regs : Part.regs
    ∈ pset) (h_outs : Part.outs ∈ pset) (h_resp : Part.resp ∈ pset) (h_intc : Part.intc ∈ pset) (h_sw : Part.sw ∈
    pset) (h_plk : Part.plk ∈ pset) (hk : Keeps pset z0 s) (he : Machine.execPlkStart m n s = .next t0) : Keeps pset
    z0 t0 := by
  unfold Machine.execPlkStart at he
  cases he
  all_goals
    repeat' (first
      | with_reducible first
        | assumption | apply K.gatedWrite h_regs h_outs h_resp h_intc
        | apply K.plkStartCmd h_regs h_outs h_intc h_sw h_plk
      | intro _ _ | dsimp only)

theorem execPlkStop {pset : List Part} {z0 t0 : State} {m : Master} {n : Fin 16} {s : State} (h_regs : Part.regs ∈
    pset) (h_cnts : Part.cnts ∈ pset) (h_free : Part.free ∈ pset) (h_mem : Part.mem ∈ pset) (h_outs : Part.outs ∈
    pset) (h_resp : Part.resp ∈ pset) (h_intc : Part.intc ∈ pset) (h_sw : Part.sw ∈ pset) (h_gate : Part.gate ∈ pset)
    (h_vlt : Part.vlt ∈ pset) (h_bnk : Part.bnk ∈ pset) (h_plk : Part.plk ∈ pset) (hk : Keeps pset z0 s) (he :
    Machine.execPlkStop m n s = .next t0) : Keeps pset z0 t0 := by
  unfold Machine.execPlkStop at he
  cases he
  all_goals
    repeat' (first
      | with_reducible first
        | assumption | apply K.gatedWrite h_regs h_outs h_resp h_intc
        | apply K.plkStopCmd h_regs h_cnts h_free h_mem h_outs h_intc h_sw h_gate h_vlt h_bnk h_plk
      | intro _ _ | dsimp only)

theorem execRequestMode {pset : List Part} {z0 t0 : State} {m : Master} {n : Fin 16} {mode : BitVec 2} {s : State}
    (h_regs : Part.regs ∈ pset) (h_outs : Part.outs ∈ pset) (h_resp : Part.resp ∈ pset) (h_intc : Part.intc ∈ pset)
    (h_plk : Part.plk ∈ pset) (hk : Keeps pset z0 s) (he : Machine.execRequestMode m n mode s = .next t0) : Keeps pset
    z0 t0 := by
  unfold Machine.execRequestMode at he
  cases he
  all_goals
    repeat' (first
      | with_reducible first
        | assumption | apply K.gatedWrite h_regs h_outs h_resp h_intc
        | apply K.plkRequest h_regs h_outs h_intc h_plk
      | intro _ _ | dsimp only)

theorem execCycleStart {pset : List Part} {z0 t0 : State} {n : Fin 16} {gcount : Word} {s : State} (h_regs :
    Part.regs ∈ pset) (h_cnts : Part.cnts ∈ pset) (h_outs : Part.outs ∈ pset) (h_intc : Part.intc ∈ pset) (h_sys :
    Part.sys ∈ pset) (h_plk : Part.plk ∈ pset) (h_time : Part.time ∈ pset) (h_pwr : Part.pwr ∈ pset) (hk : Keeps pset
    z0 s) (he : Machine.execCycleStart n gcount s = .next t0) : Keeps pset z0 t0 := by
  unfold Machine.execCycleStart at he
  cases he
  all_goals
    repeat' (first
      | with_reducible first
        | assumption | apply K.plkCycleStart h_regs h_cnts h_outs h_intc h_sys h_plk h_time h_pwr)

theorem execFetchPoint {pset : List Part} {z0 t0 : State} {n : Fin 16} {slot : Fin 64} {s : State} (h_regs :
    Part.regs ∈ pset) (h_cnts : Part.cnts ∈ pset) (h_free : Part.free ∈ pset) (h_mem : Part.mem ∈ pset) (h_outs :
    Part.outs ∈ pset) (h_intc : Part.intc ∈ pset) (h_sys : Part.sys ∈ pset) (h_sw : Part.sw ∈ pset) (h_gate :
    Part.gate ∈ pset) (h_vlt : Part.vlt ∈ pset) (h_bnk : Part.bnk ∈ pset) (h_plk : Part.plk ∈ pset) (h_time :
    Part.time ∈ pset) (h_pwr : Part.pwr ∈ pset) (hk : Keeps pset z0 s) (he : Machine.execFetchPoint n slot s = .next
    t0) : Keeps pset z0 t0 := by
  unfold Machine.execFetchPoint at he
  cases he
  all_goals
    repeat' (first
      | with_reducible first
        | assumption
        | apply K.plkFetch h_regs h_cnts h_free h_mem h_outs h_intc h_sys h_sw h_gate h_vlt h_bnk h_plk h_time h_pwr)

theorem execActionPoint {pset : List Part} {z0 t0 : State} {n : Fin 16} {slot : Fin 64} {s : State} (h_regs :
    Part.regs ∈ pset) (h_cnts : Part.cnts ∈ pset) (h_free : Part.free ∈ pset) (h_mem : Part.mem ∈ pset) (h_outs :
    Part.outs ∈ pset) (h_intc : Part.intc ∈ pset) (h_sys : Part.sys ∈ pset) (h_sw : Part.sw ∈ pset) (h_gate :
    Part.gate ∈ pset) (h_vlt : Part.vlt ∈ pset) (h_bnk : Part.bnk ∈ pset) (h_plk : Part.plk ∈ pset) (h_time :
    Part.time ∈ pset) (h_pwr : Part.pwr ∈ pset) (hk : Keeps pset z0 s) (he : Machine.execActionPoint n slot s = .next
    t0) : Keeps pset z0 t0 := by
  unfold Machine.execActionPoint at he
  cases he
  all_goals
    repeat' (first
      | with_reducible first
        | assumption
        | apply K.plkAction h_regs h_cnts h_free h_mem h_outs h_intc h_sys h_sw h_gate h_vlt h_bnk h_plk h_time h_pwr)

theorem execPlTransmitEnd {pset : List Part} {z0 t0 : State} {n : Fin 16} {s : State} (h_regs : Part.regs ∈ pset)
    (h_cnts : Part.cnts ∈ pset) (h_free : Part.free ∈ pset) (h_mem : Part.mem ∈ pset) (h_outs : Part.outs ∈ pset)
    (h_intc : Part.intc ∈ pset) (h_sys : Part.sys ∈ pset) (h_sw : Part.sw ∈ pset) (h_gate : Part.gate ∈ pset) (h_vlt :
    Part.vlt ∈ pset) (h_bnk : Part.bnk ∈ pset) (h_plk : Part.plk ∈ pset) (h_time : Part.time ∈ pset) (h_pwr : Part.pwr
    ∈ pset) (hk : Keeps pset z0 s) (he : Machine.execPlTransmitEnd n s = .next t0) : Keeps pset z0 t0 := by
  unfold Machine.execPlTransmitEnd at he
  cases he
  all_goals
    repeat' (first
      | with_reducible first
        | assumption
        | apply K.plkEnd h_regs h_cnts h_free h_mem h_outs h_intc h_sys h_sw h_gate h_vlt h_bnk h_plk h_time h_pwr)

theorem execPlFrameReceive {pset : List Part} {z0 t0 : State} {n : Fin 16} {chB : Bool} {lt : Word} {lt2 : Word}
    {bits : List Bool} {s : State} (h_regs : Part.regs ∈ pset) (h_cnts : Part.cnts ∈ pset) (h_free : Part.free ∈ pset)
    (h_mem : Part.mem ∈ pset) (h_outs : Part.outs ∈ pset) (h_intc : Part.intc ∈ pset) (h_sys : Part.sys ∈ pset) (h_sw
    : Part.sw ∈ pset) (h_gate : Part.gate ∈ pset) (h_vlt : Part.vlt ∈ pset) (h_bnk : Part.bnk ∈ pset) (h_plk :
    Part.plk ∈ pset) (h_time : Part.time ∈ pset) (h_pwr : Part.pwr ∈ pset) (hk : Keeps pset z0 s) (he :
    Machine.execPlFrameReceive n chB lt lt2 bits s = .next t0) : Keeps pset z0 t0 := by
  unfold Machine.execPlFrameReceive at he
  cases he
  all_goals
    repeat' (first
      | with_reducible first
        | assumption
        | apply K.plkReceive h_regs h_cnts h_free h_mem h_outs h_intc h_sys h_sw h_gate h_vlt h_bnk h_plk h_time
            h_pwr)

theorem execSlotEnd {pset : List Part} {z0 t0 : State} {n : Fin 16} {slot : Fin 64} {s : State} (h_regs :
    Part.regs ∈ pset) (h_cnts : Part.cnts ∈ pset) (h_sys : Part.sys ∈ pset) (h_time : Part.time ∈ pset) (h_pwr :
    Part.pwr ∈ pset) (hk : Keeps pset z0 s) (he : Machine.execSlotEnd n slot s = .next t0) : Keeps pset z0 t0 := by
  unfold Machine.execSlotEnd at he
  cases he
  all_goals
    repeat' (first
      | with_reducible first
        | assumption | apply K.plkSlotEnd h_regs h_cnts h_sys h_time h_pwr)

theorem execNitStart {pset : List Part} {z0 t0 : State} {n : Fin 16} {s : State} (h_regs : Part.regs ∈ pset)
    (h_cnts : Part.cnts ∈ pset) (h_free : Part.free ∈ pset) (h_mem : Part.mem ∈ pset) (h_outs : Part.outs ∈ pset)
    (h_intc : Part.intc ∈ pset) (h_sys : Part.sys ∈ pset) (h_sw : Part.sw ∈ pset) (h_gate : Part.gate ∈ pset) (h_vlt :
    Part.vlt ∈ pset) (h_bnk : Part.bnk ∈ pset) (h_plk : Part.plk ∈ pset) (h_time : Part.time ∈ pset) (h_pwr : Part.pwr
    ∈ pset) (hk : Keeps pset z0 s) (he : Machine.execNitStart n s = .next t0) : Keeps pset z0 t0 := by
  unfold Machine.execNitStart at he
  cases he
  all_goals
    repeat' (first
      | with_reducible first
        | assumption
        | apply K.plkNit h_regs h_cnts h_free h_mem h_outs h_intc h_sys h_sw h_gate h_vlt h_bnk h_plk h_time h_pwr)

theorem execListenTimeout {pset : List Part} {z0 t0 : State} {n : Fin 16} {edge : Bool} {s : State} (h_regs :
    Part.regs ∈ pset) (h_cnts : Part.cnts ∈ pset) (h_free : Part.free ∈ pset) (h_mem : Part.mem ∈ pset) (h_outs :
    Part.outs ∈ pset) (h_intc : Part.intc ∈ pset) (h_sys : Part.sys ∈ pset) (h_sw : Part.sw ∈ pset) (h_gate :
    Part.gate ∈ pset) (h_vlt : Part.vlt ∈ pset) (h_bnk : Part.bnk ∈ pset) (h_plk : Part.plk ∈ pset) (h_time :
    Part.time ∈ pset) (h_pwr : Part.pwr ∈ pset) (hk : Keeps pset z0 s) (he : Machine.execListenTimeout n edge s =
    .next t0) : Keeps pset z0 t0 := by
  unfold Machine.execListenTimeout at he
  cases he
  all_goals
    repeat' (first
      | with_reducible first
        | assumption
        | apply K.plkTimeout h_regs h_cnts h_free h_mem h_outs h_intc h_sys h_sw h_gate h_vlt h_bnk h_plk h_time
            h_pwr)

theorem execEchoMismatch {pset : List Part} {z0 t0 : State} {n : Fin 16} {chB : Bool} {s : State} (h_regs :
    Part.regs ∈ pset) (h_cnts : Part.cnts ∈ pset) (h_free : Part.free ∈ pset) (h_mem : Part.mem ∈ pset) (h_outs :
    Part.outs ∈ pset) (h_intc : Part.intc ∈ pset) (h_sw : Part.sw ∈ pset) (h_gate : Part.gate ∈ pset) (h_vlt :
    Part.vlt ∈ pset) (h_bnk : Part.bnk ∈ pset) (h_plk : Part.plk ∈ pset) (hk : Keeps pset z0 s) (he :
    Machine.execEchoMismatch n chB s = .next t0) : Keeps pset z0 t0 := by
  unfold Machine.execEchoMismatch at he
  cases he
  all_goals
    repeat' (first
      | with_reducible first
        | assumption | apply K.plkEcho h_regs h_cnts h_free h_mem h_outs h_intc h_sw h_gate h_vlt h_bnk h_plk)

theorem execGuardianWindowOpen {pset : List Part} {z0 t0 : State} {n : Fin 16} {slot : Fin 64} {s : State} (h_regs
    : Part.regs ∈ pset) (h_cnts : Part.cnts ∈ pset) (h_sys : Part.sys ∈ pset) (h_time : Part.time ∈ pset) (h_pwr :
    Part.pwr ∈ pset) (hk : Keeps pset z0 s) (he : Machine.execGuardianWindowOpen n slot s = .next t0) : Keeps pset z0
    t0 := by
  unfold Machine.execGuardianWindowOpen at he
  cases he
  all_goals
    repeat' (first
      | with_reducible first
        | assumption | apply K.plkOpen h_regs h_cnts h_sys h_time h_pwr)

theorem execGuardianWindowClose {pset : List Part} {z0 t0 : State} {n : Fin 16} {slot : Fin 64} {s : State}
    (h_regs : Part.regs ∈ pset) (h_cnts : Part.cnts ∈ pset) (h_free : Part.free ∈ pset) (h_mem : Part.mem ∈ pset)
    (h_outs : Part.outs ∈ pset) (h_intc : Part.intc ∈ pset) (h_sys : Part.sys ∈ pset) (h_sw : Part.sw ∈ pset) (h_gate
    : Part.gate ∈ pset) (h_vlt : Part.vlt ∈ pset) (h_bnk : Part.bnk ∈ pset) (h_plk : Part.plk ∈ pset) (h_time :
    Part.time ∈ pset) (h_pwr : Part.pwr ∈ pset) (hk : Keeps pset z0 s) (he : Machine.execGuardianWindowClose n slot s
    = .next t0) : Keeps pset z0 t0 := by
  unfold Machine.execGuardianWindowClose at he
  cases he
  all_goals
    repeat' (first
      | with_reducible first
        | assumption
        | apply K.plkClose h_regs h_cnts h_free h_mem h_outs h_intc h_sys h_sw h_gate h_vlt h_bnk h_plk h_time h_pwr)

theorem execComparatorFire {pset : List Part} {z0 t0 : State} {n : Fin 16} {i : Fin 8} {s : State} (h_regs :
    Part.regs ∈ pset) (h_cnts : Part.cnts ∈ pset) (h_outs : Part.outs ∈ pset) (h_intc : Part.intc ∈ pset) (h_sys :
    Part.sys ∈ pset) (h_plk : Part.plk ∈ pset) (h_time : Part.time ∈ pset) (h_pwr : Part.pwr ∈ pset) (hk : Keeps pset
    z0 s) (he : Machine.execComparatorFire n i s = .next t0) : Keeps pset z0 t0 := by
  unfold Machine.execComparatorFire at he
  cases he
  all_goals
    repeat' (first
      | with_reducible first
        | assumption | apply K.plkCompare h_regs h_cnts h_outs h_intc h_sys h_plk h_time h_pwr)

theorem execMdbStart {pset : List Part} {z0 t0 : State} {m : Master} {n : Pe} {s : State} (h_regs : Part.regs ∈
    pset) (h_outs : Part.outs ∈ pset) (h_resp : Part.resp ∈ pset) (h_intc : Part.intc ∈ pset) (h_mdb : Part.mdb ∈
    pset) (hk : Keeps pset z0 s) (he : Machine.execMdbStart m n s = .next t0) : Keeps pset z0 t0 := by
  unfold Machine.execMdbStart at he
  cases he
  all_goals
    repeat' (first
      | with_reducible first
        | assumption | apply K.gatedWrite h_regs h_outs h_resp h_intc
        | apply K.mdbStartCmd h_regs h_outs h_intc h_mdb
      | intro _ _ | dsimp only)

theorem execMdbStop {pset : List Part} {z0 t0 : State} {m : Master} {n : Pe} {s : State} (h_regs : Part.regs ∈
    pset) (h_cnts : Part.cnts ∈ pset) (h_free : Part.free ∈ pset) (h_mem : Part.mem ∈ pset) (h_outs : Part.outs ∈
    pset) (h_resp : Part.resp ∈ pset) (h_intc : Part.intc ∈ pset) (h_sw : Part.sw ∈ pset) (h_gate : Part.gate ∈ pset)
    (h_vlt : Part.vlt ∈ pset) (h_bnk : Part.bnk ∈ pset) (h_mdb : Part.mdb ∈ pset) (hk : Keeps pset z0 s) (he :
    Machine.execMdbStop m n s = .next t0) : Keeps pset z0 t0 := by
  unfold Machine.execMdbStop at he
  cases he
  all_goals
    repeat' (first
      | with_reducible first
        | assumption | apply K.gatedWrite h_regs h_outs h_resp h_intc
        | apply K.mdbStopCmd h_regs h_cnts h_free h_mem h_outs h_intc h_sw h_gate h_vlt h_bnk h_mdb
      | intro _ _ | dsimp only)

theorem execRecover {pset : List Part} {z0 t0 : State} {m : Master} {n : Pe} {s : State} (h_regs : Part.regs ∈
    pset) (h_outs : Part.outs ∈ pset) (h_resp : Part.resp ∈ pset) (h_intc : Part.intc ∈ pset) (hk : Keeps pset z0 s)
    (he : Machine.execRecover m n s = .next t0) : Keeps pset z0 t0 := by
  unfold Machine.execRecover at he
  cases he
  all_goals
    repeat' (first
      | with_reducible first
        | assumption | apply K.gatedWrite h_regs h_outs h_resp h_intc | apply K.mdbRecover h_regs h_outs h_intc
      | intro _ _ | dsimp only)

theorem execAbort {pset : List Part} {z0 t0 : State} {m : Master} {n : Pe} {mask : BitVec 3} {s : State} (h_regs :
    Part.regs ∈ pset) (h_cnts : Part.cnts ∈ pset) (h_mem : Part.mem ∈ pset) (h_outs : Part.outs ∈ pset) (h_resp :
    Part.resp ∈ pset) (h_intc : Part.intc ∈ pset) (h_bnk : Part.bnk ∈ pset) (h_mdb : Part.mdb ∈ pset) (hk : Keeps pset
    z0 s) (he : Machine.execAbort m n mask s = .next t0) : Keeps pset z0 t0 := by
  unfold Machine.execAbort at he
  cases he
  all_goals
    repeat' (first
      | with_reducible first
        | assumption | apply K.gatedWrite h_regs h_outs h_resp h_intc
        | apply K.mdbAbort h_regs h_cnts h_mem h_outs h_intc h_bnk h_mdb
      | intro _ _ | dsimp only)

theorem execIntegrationComplete {pset : List Part} {z0 t0 : State} {n : Pe} {s : State} (h_regs : Part.regs ∈
    pset) (h_mdb : Part.mdb ∈ pset) (hk : Keeps pset z0 s) (he : Machine.execIntegrationComplete n s = .next t0) :
    Keeps pset z0 t0 := by
  unfold Machine.execIntegrationComplete at he
  cases he
  all_goals
    repeat' (first
      | with_reducible first
        | assumption | apply K.mdbIntegrated h_regs h_mdb)

theorem execRecoveryComplete {pset : List Part} {z0 t0 : State} {n : Pe} {s : State} (h_regs : Part.regs ∈ pset)
    (h_outs : Part.outs ∈ pset) (h_intc : Part.intc ∈ pset) (h_mdb : Part.mdb ∈ pset) (hk : Keeps pset z0 s) (he :
    Machine.execRecoveryComplete n s = .next t0) : Keeps pset z0 t0 := by
  unfold Machine.execRecoveryComplete at he
  cases he
  all_goals
    repeat' (first
      | with_reducible first
        | assumption | apply K.mdbRecovered h_regs h_outs h_intc h_mdb)

theorem execTxBufferLoad {pset : List Part} {z0 t0 : State} {n : Pe} {b : Fin 3} {s : State} (h_regs : Part.regs ∈
    pset) (h_cnts : Part.cnts ∈ pset) (h_free : Part.free ∈ pset) (h_mem : Part.mem ∈ pset) (h_outs : Part.outs ∈
    pset) (h_intc : Part.intc ∈ pset) (h_sw : Part.sw ∈ pset) (h_gate : Part.gate ∈ pset) (h_vlt : Part.vlt ∈ pset)
    (h_bnk : Part.bnk ∈ pset) (h_mdb : Part.mdb ∈ pset) (hk : Keeps pset z0 s) (he : Machine.execTxBufferLoad n b s =
    .next t0) : Keeps pset z0 t0 := by
  unfold Machine.execTxBufferLoad at he
  cases he
  all_goals
    repeat' (first
      | with_reducible first
        | assumption | apply K.mdbLoad h_regs h_cnts h_free h_mem h_outs h_intc h_sw h_gate h_vlt h_bnk h_mdb)

theorem execArbitrationStart {pset : List Part} {z0 t0 : State} {n : Pe} {s : State} (h_regs : Part.regs ∈ pset)
    (h_gate : Part.gate ∈ pset) (h_mdb : Part.mdb ∈ pset) (hk : Keeps pset z0 s) (he : Machine.execArbitrationStart n
    s = .next t0) : Keeps pset z0 t0 := by
  unfold Machine.execArbitrationStart at he
  cases he
  all_goals
    repeat' (first
      | with_reducible first
        | assumption | apply K.mdbArbitrate h_regs h_gate h_mdb)

theorem execMdbFrameSent {pset : List Part} {z0 t0 : State} {n : Pe} {edges : List (BitVec 7)} {s : State} (h_regs
    : Part.regs ∈ pset) (h_cnts : Part.cnts ∈ pset) (h_free : Part.free ∈ pset) (h_mem : Part.mem ∈ pset) (h_outs :
    Part.outs ∈ pset) (h_intc : Part.intc ∈ pset) (h_sw : Part.sw ∈ pset) (h_gate : Part.gate ∈ pset) (h_vlt :
    Part.vlt ∈ pset) (h_bnk : Part.bnk ∈ pset) (h_mdb : Part.mdb ∈ pset) (hk : Keeps pset z0 s) (he :
    Machine.execMdbFrameSent n edges s = .next t0) : Keeps pset z0 t0 := by
  unfold Machine.execMdbFrameSent at he
  cases he
  all_goals
    repeat' (first
      | with_reducible first
        | assumption | apply K.mdbSent h_regs h_cnts h_free h_mem h_outs h_intc h_sw h_gate h_vlt h_bnk h_mdb)

theorem execMdbFrameFailed {pset : List Part} {z0 t0 : State} {n : Pe} {why : MdbErr} {inData : Bool} {exempt :
    Bool} {edges : List (BitVec 7)} {s : State} (h_regs : Part.regs ∈ pset) (h_cnts : Part.cnts ∈ pset) (h_free :
    Part.free ∈ pset) (h_mem : Part.mem ∈ pset) (h_outs : Part.outs ∈ pset) (h_intc : Part.intc ∈ pset) (h_sw :
    Part.sw ∈ pset) (h_gate : Part.gate ∈ pset) (h_vlt : Part.vlt ∈ pset) (h_bnk : Part.bnk ∈ pset) (h_mdb : Part.mdb
    ∈ pset) (hk : Keeps pset z0 s) (he : Machine.execMdbFrameFailed n why inData exempt edges s = .next t0) : Keeps
    pset z0 t0 := by
  unfold Machine.execMdbFrameFailed at he
  cases he
  all_goals
    repeat' (first
      | with_reducible first
        | assumption | apply K.mdbFailed h_regs h_cnts h_free h_mem h_outs h_intc h_sw h_gate h_vlt h_bnk h_mdb)

theorem execMdbLifeExpiry {pset : List Part} {z0 t0 : State} {n : Pe} {b : Fin 3} {s : State} (h_regs : Part.regs
    ∈ pset) (h_cnts : Part.cnts ∈ pset) (h_mem : Part.mem ∈ pset) (h_outs : Part.outs ∈ pset) (h_intc : Part.intc ∈
    pset) (h_sys : Part.sys ∈ pset) (h_bnk : Part.bnk ∈ pset) (h_mdb : Part.mdb ∈ pset) (h_time : Part.time ∈ pset)
    (h_pwr : Part.pwr ∈ pset) (hk : Keeps pset z0 s) (he : Machine.execMdbLifeExpiry n b s = .next t0) : Keeps pset z0
    t0 := by
  unfold Machine.execMdbLifeExpiry at he
  cases he
  all_goals
    repeat' (first
      | with_reducible first
        | assumption | apply K.mdbLife h_regs h_cnts h_mem h_outs h_intc h_sys h_bnk h_mdb h_time h_pwr)

theorem execMdbFrameReceive {pset : List Part} {z0 t0 : State} {n : Pe} {rec_ : List Byte} {esi : Bool} {err :
    Option MdbErr} {inData : Bool} {heavy : Bool} {ago : Word} {s : State} (h_regs : Part.regs ∈ pset) (h_cnts :
    Part.cnts ∈ pset) (h_free : Part.free ∈ pset) (h_mem : Part.mem ∈ pset) (h_outs : Part.outs ∈ pset) (h_intc :
    Part.intc ∈ pset) (h_bnk : Part.bnk ∈ pset) (h_mdb : Part.mdb ∈ pset) (hk : Keeps pset z0 s) (he :
    Machine.execMdbFrameReceive n rec_ esi err inData heavy ago s = .next t0) : Keeps pset z0 t0 := by
  unfold Machine.execMdbFrameReceive at he
  cases he
  all_goals
    repeat' (first
      | with_reducible first
        | assumption | apply K.mdbReceive h_regs h_cnts h_free h_mem h_outs h_intc h_bnk h_mdb)

theorem execRxFifoDrain {pset : List Part} {z0 t0 : State} {n : Pe} {s : State} (h_regs : Part.regs ∈ pset) (h_mem
    : Part.mem ∈ pset) (h_outs : Part.outs ∈ pset) (h_intc : Part.intc ∈ pset) (h_bnk : Part.bnk ∈ pset) (h_mdb :
    Part.mdb ∈ pset) (hk : Keeps pset z0 s) (he : Machine.execRxFifoDrain n s = .next t0) : Keeps pset z0 t0 := by
  unfold Machine.execRxFifoDrain at he
  cases he
  all_goals
    repeat' (first
      | with_reducible first
        | assumption | apply K.mdbDrain h_regs h_mem h_outs h_intc h_bnk h_mdb)

theorem execMdbModeChange {pset : List Part} {z0 t0 : State} {n : Pe} {s : State} (h_mdb : Part.mdb ∈ pset) (hk :
    Keeps pset z0 s) (he : Machine.execMdbModeChange n s = .next t0) : Keeps pset z0 t0 := by
  unfold Machine.execMdbModeChange at he
  cases he
  all_goals
    repeat' (first
      | with_reducible first
        | assumption | apply K.mdbModeDone h_mdb)

theorem execMdbWake {pset : List Part} {z0 t0 : State} {n : Pe} {s : State} (h_regs : Part.regs ∈ pset) (h_outs :
    Part.outs ∈ pset) (h_intc : Part.intc ∈ pset) (h_sys : Part.sys ∈ pset) (h_pwr : Part.pwr ∈ pset) (hk : Keeps pset
    z0 s) (he : Machine.execMdbWake n s = .next t0) : Keeps pset z0 t0 := by
  unfold Machine.execMdbWake at he
  cases he
  all_goals
    repeat' (first
      | with_reducible first
        | assumption | apply K.mdbWoken h_regs h_outs h_intc h_sys h_pwr)

theorem execLastErrRead {pset : List Part} {z0 t0 : State} {m : Master} {n : Pe} {s : State} (h_regs : Part.regs ∈
    pset) (h_outs : Part.outs ∈ pset) (h_resp : Part.resp ∈ pset) (h_intc : Part.intc ∈ pset) (hk : Keeps pset z0 s)
    (he : Machine.execLastErrRead m n s = .next t0) : Keeps pset z0 t0 := by
  unfold Machine.execLastErrRead at he
  cases he
  all_goals
    repeat' (first
      | with_reducible first
        | assumption | apply K.setR h_regs | apply K.gatedRead h_regs h_outs h_resp h_intc
      | intro _ _ | dsimp only)

theorem execPtcNop {pset : List Part} {z0 t0 : State} {n : Fin 64} {s : State} (h_regs : Part.regs ∈ pset) (h_cnts
    : Part.cnts ∈ pset) (h_free : Part.free ∈ pset) (h_mem : Part.mem ∈ pset) (h_outs : Part.outs ∈ pset) (h_intc :
    Part.intc ∈ pset) (h_sys : Part.sys ∈ pset) (h_sw : Part.sw ∈ pset) (h_gate : Part.gate ∈ pset) (h_vlt : Part.vlt
    ∈ pset) (h_bnk : Part.bnk ∈ pset) (h_ptc : Part.ptc ∈ pset) (h_fiq : Part.fiq ∈ pset) (h_time : Part.time ∈ pset)
    (h_pwr : Part.pwr ∈ pset) (hk : Keeps pset z0 s) (he : Machine.execPtcNop n s = .next t0) : Keeps pset z0 t0 := by
  unfold Machine.execPtcNop at he
  cases he
  all_goals
    repeat' (first
      | with_reducible first
        | assumption
        | apply K.ptcStep h_regs h_cnts h_free h_mem h_outs h_intc h_sys h_sw h_gate h_vlt h_bnk h_ptc h_fiq
            h_time h_pwr)

theorem execPtcSet {pset : List Part} {z0 t0 : State} {n : Fin 64} {s : State} (h_regs : Part.regs ∈ pset) (h_cnts
    : Part.cnts ∈ pset) (h_free : Part.free ∈ pset) (h_mem : Part.mem ∈ pset) (h_outs : Part.outs ∈ pset) (h_intc :
    Part.intc ∈ pset) (h_sys : Part.sys ∈ pset) (h_sw : Part.sw ∈ pset) (h_gate : Part.gate ∈ pset) (h_vlt : Part.vlt
    ∈ pset) (h_bnk : Part.bnk ∈ pset) (h_ptc : Part.ptc ∈ pset) (h_fiq : Part.fiq ∈ pset) (h_time : Part.time ∈ pset)
    (h_pwr : Part.pwr ∈ pset) (hk : Keeps pset z0 s) (he : Machine.execPtcSet n s = .next t0) : Keeps pset z0 t0 := by
  unfold Machine.execPtcSet at he
  cases he
  all_goals
    repeat' (first
      | with_reducible first
        | assumption
        | apply K.ptcStep h_regs h_cnts h_free h_mem h_outs h_intc h_sys h_sw h_gate h_vlt h_bnk h_ptc h_fiq
            h_time h_pwr)

theorem execPtcMov {pset : List Part} {z0 t0 : State} {n : Fin 64} {pads : BitVec 128} {s : State} (h_regs :
    Part.regs ∈ pset) (h_cnts : Part.cnts ∈ pset) (h_free : Part.free ∈ pset) (h_mem : Part.mem ∈ pset) (h_outs :
    Part.outs ∈ pset) (h_intc : Part.intc ∈ pset) (h_sys : Part.sys ∈ pset) (h_sw : Part.sw ∈ pset) (h_gate :
    Part.gate ∈ pset) (h_vlt : Part.vlt ∈ pset) (h_bnk : Part.bnk ∈ pset) (h_ptc : Part.ptc ∈ pset) (h_fiq : Part.fiq
    ∈ pset) (h_time : Part.time ∈ pset) (h_pwr : Part.pwr ∈ pset) (hk : Keeps pset z0 s) (he : Machine.execPtcMov n
    pads s = .next t0) : Keeps pset z0 t0 := by
  unfold Machine.execPtcMov at he
  cases he
  all_goals
    repeat' (first
      | with_reducible first
        | assumption
        | apply K.ptcStep h_regs h_cnts h_free h_mem h_outs h_intc h_sys h_sw h_gate h_vlt h_bnk h_ptc h_fiq
            h_time h_pwr)

theorem execPtcOut {pset : List Part} {z0 t0 : State} {n : Fin 64} {s : State} (h_regs : Part.regs ∈ pset) (h_cnts
    : Part.cnts ∈ pset) (h_free : Part.free ∈ pset) (h_mem : Part.mem ∈ pset) (h_outs : Part.outs ∈ pset) (h_intc :
    Part.intc ∈ pset) (h_sys : Part.sys ∈ pset) (h_sw : Part.sw ∈ pset) (h_gate : Part.gate ∈ pset) (h_vlt : Part.vlt
    ∈ pset) (h_bnk : Part.bnk ∈ pset) (h_ptc : Part.ptc ∈ pset) (h_fiq : Part.fiq ∈ pset) (h_time : Part.time ∈ pset)
    (h_pwr : Part.pwr ∈ pset) (hk : Keeps pset z0 s) (he : Machine.execPtcOut n s = .next t0) : Keeps pset z0 t0 := by
  unfold Machine.execPtcOut at he
  cases he
  all_goals
    repeat' (first
      | with_reducible first
        | assumption
        | apply K.ptcStep h_regs h_cnts h_free h_mem h_outs h_intc h_sys h_sw h_gate h_vlt h_bnk h_ptc h_fiq
            h_time h_pwr)

theorem execPtcIn {pset : List Part} {z0 t0 : State} {n : Fin 64} {pads : BitVec 128} {s : State} (h_regs :
    Part.regs ∈ pset) (h_cnts : Part.cnts ∈ pset) (h_free : Part.free ∈ pset) (h_mem : Part.mem ∈ pset) (h_outs :
    Part.outs ∈ pset) (h_intc : Part.intc ∈ pset) (h_sys : Part.sys ∈ pset) (h_sw : Part.sw ∈ pset) (h_gate :
    Part.gate ∈ pset) (h_vlt : Part.vlt ∈ pset) (h_bnk : Part.bnk ∈ pset) (h_ptc : Part.ptc ∈ pset) (h_fiq : Part.fiq
    ∈ pset) (h_time : Part.time ∈ pset) (h_pwr : Part.pwr ∈ pset) (hk : Keeps pset z0 s) (he : Machine.execPtcIn n
    pads s = .next t0) : Keeps pset z0 t0 := by
  unfold Machine.execPtcIn at he
  cases he
  all_goals
    repeat' (first
      | with_reducible first
        | assumption
        | apply K.ptcStep h_regs h_cnts h_free h_mem h_outs h_intc h_sys h_sw h_gate h_vlt h_bnk h_ptc h_fiq
            h_time h_pwr)

theorem execPtcPush {pset : List Part} {z0 t0 : State} {n : Fin 64} {s : State} (h_regs : Part.regs ∈ pset)
    (h_cnts : Part.cnts ∈ pset) (h_free : Part.free ∈ pset) (h_mem : Part.mem ∈ pset) (h_outs : Part.outs ∈ pset)
    (h_intc : Part.intc ∈ pset) (h_sys : Part.sys ∈ pset) (h_sw : Part.sw ∈ pset) (h_gate : Part.gate ∈ pset) (h_vlt :
    Part.vlt ∈ pset) (h_bnk : Part.bnk ∈ pset) (h_ptc : Part.ptc ∈ pset) (h_fiq : Part.fiq ∈ pset) (h_time : Part.time
    ∈ pset) (h_pwr : Part.pwr ∈ pset) (hk : Keeps pset z0 s) (he : Machine.execPtcPush n s = .next t0) : Keeps pset z0
    t0 := by
  unfold Machine.execPtcPush at he
  cases he
  all_goals
    repeat' (first
      | with_reducible first
        | assumption
        | apply K.ptcStep h_regs h_cnts h_free h_mem h_outs h_intc h_sys h_sw h_gate h_vlt h_bnk h_ptc h_fiq
            h_time h_pwr)

theorem execPtcPull {pset : List Part} {z0 t0 : State} {n : Fin 64} {s : State} (h_regs : Part.regs ∈ pset)
    (h_cnts : Part.cnts ∈ pset) (h_free : Part.free ∈ pset) (h_mem : Part.mem ∈ pset) (h_outs : Part.outs ∈ pset)
    (h_intc : Part.intc ∈ pset) (h_sys : Part.sys ∈ pset) (h_sw : Part.sw ∈ pset) (h_gate : Part.gate ∈ pset) (h_vlt :
    Part.vlt ∈ pset) (h_bnk : Part.bnk ∈ pset) (h_ptc : Part.ptc ∈ pset) (h_fiq : Part.fiq ∈ pset) (h_time : Part.time
    ∈ pset) (h_pwr : Part.pwr ∈ pset) (hk : Keeps pset z0 s) (he : Machine.execPtcPull n s = .next t0) : Keeps pset z0
    t0 := by
  unfold Machine.execPtcPull at he
  cases he
  all_goals
    repeat' (first
      | with_reducible first
        | assumption
        | apply K.ptcStep h_regs h_cnts h_free h_mem h_outs h_intc h_sys h_sw h_gate h_vlt h_bnk h_ptc h_fiq
            h_time h_pwr)

theorem execPtcWait {pset : List Part} {z0 t0 : State} {n : Fin 64} {pads : BitVec 128} {s : State} (h_regs :
    Part.regs ∈ pset) (h_cnts : Part.cnts ∈ pset) (h_free : Part.free ∈ pset) (h_mem : Part.mem ∈ pset) (h_outs :
    Part.outs ∈ pset) (h_intc : Part.intc ∈ pset) (h_sys : Part.sys ∈ pset) (h_sw : Part.sw ∈ pset) (h_gate :
    Part.gate ∈ pset) (h_vlt : Part.vlt ∈ pset) (h_bnk : Part.bnk ∈ pset) (h_ptc : Part.ptc ∈ pset) (h_fiq : Part.fiq
    ∈ pset) (h_time : Part.time ∈ pset) (h_pwr : Part.pwr ∈ pset) (hk : Keeps pset z0 s) (he : Machine.execPtcWait n
    pads s = .next t0) : Keeps pset z0 t0 := by
  unfold Machine.execPtcWait at he
  cases he
  all_goals
    repeat' (first
      | with_reducible first
        | assumption
        | apply K.ptcStep h_regs h_cnts h_free h_mem h_outs h_intc h_sys h_sw h_gate h_vlt h_bnk h_ptc h_fiq
            h_time h_pwr)

theorem execPtcAt {pset : List Part} {z0 t0 : State} {n : Fin 64} {s : State} (h_regs : Part.regs ∈ pset) (h_cnts
    : Part.cnts ∈ pset) (h_free : Part.free ∈ pset) (h_mem : Part.mem ∈ pset) (h_outs : Part.outs ∈ pset) (h_intc :
    Part.intc ∈ pset) (h_sys : Part.sys ∈ pset) (h_sw : Part.sw ∈ pset) (h_gate : Part.gate ∈ pset) (h_vlt : Part.vlt
    ∈ pset) (h_bnk : Part.bnk ∈ pset) (h_ptc : Part.ptc ∈ pset) (h_fiq : Part.fiq ∈ pset) (h_time : Part.time ∈ pset)
    (h_pwr : Part.pwr ∈ pset) (hk : Keeps pset z0 s) (he : Machine.execPtcAt n s = .next t0) : Keeps pset z0 t0 := by
  unfold Machine.execPtcAt at he
  cases he
  all_goals
    repeat' (first
      | with_reducible first
        | assumption
        | apply K.ptcStep h_regs h_cnts h_free h_mem h_outs h_intc h_sys h_sw h_gate h_vlt h_bnk h_ptc h_fiq
            h_time h_pwr)

theorem execPtcJmp {pset : List Part} {z0 t0 : State} {n : Fin 64} {pads : BitVec 128} {s : State} (h_regs :
    Part.regs ∈ pset) (h_cnts : Part.cnts ∈ pset) (h_free : Part.free ∈ pset) (h_mem : Part.mem ∈ pset) (h_outs :
    Part.outs ∈ pset) (h_intc : Part.intc ∈ pset) (h_sys : Part.sys ∈ pset) (h_sw : Part.sw ∈ pset) (h_gate :
    Part.gate ∈ pset) (h_vlt : Part.vlt ∈ pset) (h_bnk : Part.bnk ∈ pset) (h_ptc : Part.ptc ∈ pset) (h_fiq : Part.fiq
    ∈ pset) (h_time : Part.time ∈ pset) (h_pwr : Part.pwr ∈ pset) (hk : Keeps pset z0 s) (he : Machine.execPtcJmp n
    pads s = .next t0) : Keeps pset z0 t0 := by
  unfold Machine.execPtcJmp at he
  cases he
  all_goals
    repeat' (first
      | with_reducible first
        | assumption
        | apply K.ptcStep h_regs h_cnts h_free h_mem h_outs h_intc h_sys h_sw h_gate h_vlt h_bnk h_ptc h_fiq
            h_time h_pwr)

theorem execPtcIllegal {pset : List Part} {z0 t0 : State} {n : Fin 64} {s : State} (h_regs : Part.regs ∈ pset)
    (h_cnts : Part.cnts ∈ pset) (h_free : Part.free ∈ pset) (h_mem : Part.mem ∈ pset) (h_outs : Part.outs ∈ pset)
    (h_intc : Part.intc ∈ pset) (h_sys : Part.sys ∈ pset) (h_sw : Part.sw ∈ pset) (h_gate : Part.gate ∈ pset) (h_vlt :
    Part.vlt ∈ pset) (h_bnk : Part.bnk ∈ pset) (h_ptc : Part.ptc ∈ pset) (h_fiq : Part.fiq ∈ pset) (h_time : Part.time
    ∈ pset) (h_pwr : Part.pwr ∈ pset) (hk : Keeps pset z0 s) (he : Machine.execPtcIllegal n s = .next t0) : Keeps pset
    z0 t0 := by
  unfold Machine.execPtcIllegal at he
  cases he
  all_goals
    repeat' (first
      | with_reducible first
        | assumption
        | apply K.ptcStep h_regs h_cnts h_free h_mem h_outs h_intc h_sys h_sw h_gate h_vlt h_bnk h_ptc h_fiq
            h_time h_pwr)

theorem execPtcStallEnd {pset : List Part} {z0 t0 : State} {n : Fin 64} {pads : BitVec 128} {s : State} (h_regs :
    Part.regs ∈ pset) (h_cnts : Part.cnts ∈ pset) (h_free : Part.free ∈ pset) (h_mem : Part.mem ∈ pset) (h_outs :
    Part.outs ∈ pset) (h_intc : Part.intc ∈ pset) (h_sw : Part.sw ∈ pset) (h_gate : Part.gate ∈ pset) (h_vlt :
    Part.vlt ∈ pset) (h_bnk : Part.bnk ∈ pset) (h_ptc : Part.ptc ∈ pset) (h_fiq : Part.fiq ∈ pset) (hk : Keeps pset z0
    s) (he : Machine.execPtcStallEnd n pads s = .next t0) : Keeps pset z0 t0 := by
  unfold Machine.execPtcStallEnd at he
  cases he
  all_goals
    repeat' (first
      | with_reducible first
        | assumption | apply K.ptcRetry h_regs h_cnts h_free h_mem h_outs h_intc h_sw h_gate h_vlt h_bnk h_ptc h_fiq)

theorem execAtFire {pset : List Part} {z0 t0 : State} {n : Fin 64} {pads : BitVec 128} {s : State} (h_regs :
    Part.regs ∈ pset) (h_cnts : Part.cnts ∈ pset) (h_free : Part.free ∈ pset) (h_mem : Part.mem ∈ pset) (h_outs :
    Part.outs ∈ pset) (h_intc : Part.intc ∈ pset) (h_sys : Part.sys ∈ pset) (h_sw : Part.sw ∈ pset) (h_gate :
    Part.gate ∈ pset) (h_vlt : Part.vlt ∈ pset) (h_bnk : Part.bnk ∈ pset) (h_ptc : Part.ptc ∈ pset) (h_fiq : Part.fiq
    ∈ pset) (h_time : Part.time ∈ pset) (h_pwr : Part.pwr ∈ pset) (hk : Keeps pset z0 s) (he : Machine.execAtFire n
    pads s = .next t0) : Keeps pset z0 t0 := by
  unfold Machine.execAtFire at he
  cases he
  all_goals
    repeat' (first
      | with_reducible first
        | assumption
        | apply K.ptcAtFire h_regs h_cnts h_free h_mem h_outs h_intc h_sys h_sw h_gate h_vlt h_bnk h_ptc h_fiq
            h_time h_pwr)

theorem execPacketLoad {pset : List Part} {z0 t0 : State} {n : Fin 64} {s : State} (h_regs : Part.regs ∈ pset)
    (h_cnts : Part.cnts ∈ pset) (h_free : Part.free ∈ pset) (h_mem : Part.mem ∈ pset) (h_outs : Part.outs ∈ pset)
    (h_intc : Part.intc ∈ pset) (h_sw : Part.sw ∈ pset) (h_gate : Part.gate ∈ pset) (h_vlt : Part.vlt ∈ pset) (h_bnk :
    Part.bnk ∈ pset) (h_ptc : Part.ptc ∈ pset) (hk : Keeps pset z0 s) (he : Machine.execPacketLoad n s = .next t0) :
    Keeps pset z0 t0 := by
  unfold Machine.execPacketLoad at he
  cases he
  all_goals
    repeat' (first
      | with_reducible first
        | assumption | apply K.ptcFeed h_regs h_cnts h_free h_mem h_outs h_intc h_sw h_gate h_vlt h_bnk h_ptc)

theorem execProgWrite {pset : List Part} {z0 t0 : State} {m : Master} {n : Fin 64} {i : Fin 32} {v : Word} {s :
    State} (h_regs : Part.regs ∈ pset) (h_outs : Part.outs ∈ pset) (h_resp : Part.resp ∈ pset) (h_intc : Part.intc ∈
    pset) (hk : Keeps pset z0 s) (he : Machine.execProgWrite m n i v s = .next t0) : Keeps pset z0 t0 := by
  unfold Machine.execProgWrite at he
  cases he
  all_goals
    repeat' (first
      | with_reducible first
        | assumption | apply K.gatedWrite h_regs h_outs h_resp h_intc | apply K.ptcPlain h_regs h_outs h_intc
      | intro _ _ | dsimp only)

theorem execInject {pset : List Part} {z0 t0 : State} {m : Master} {n : Fin 64} {v : Word} {s : State} (h_regs :
    Part.regs ∈ pset) (h_outs : Part.outs ∈ pset) (h_resp : Part.resp ∈ pset) (h_intc : Part.intc ∈ pset) (h_ptc :
    Part.ptc ∈ pset) (hk : Keeps pset z0 s) (he : Machine.execInject m n v s = .next t0) : Keeps pset z0 t0 := by
  unfold Machine.execInject at he
  cases he
  all_goals
    repeat' (first
      | with_reducible first
        | assumption | apply K.gatedWrite h_regs h_outs h_resp h_intc | apply K.ptcInject h_regs h_outs h_intc h_ptc
      | intro _ _ | dsimp only)

theorem execPtcAbort {pset : List Part} {z0 t0 : State} {m : Master} {n : Fin 64} {v : Word} {s : State} (h_regs :
    Part.regs ∈ pset) (h_cnts : Part.cnts ∈ pset) (h_free : Part.free ∈ pset) (h_mem : Part.mem ∈ pset) (h_outs :
    Part.outs ∈ pset) (h_resp : Part.resp ∈ pset) (h_intc : Part.intc ∈ pset) (h_sw : Part.sw ∈ pset) (h_gate :
    Part.gate ∈ pset) (h_vlt : Part.vlt ∈ pset) (h_bnk : Part.bnk ∈ pset) (h_ptc : Part.ptc ∈ pset) (hk : Keeps pset
    z0 s) (he : Machine.execPtcAbort m n v s = .next t0) : Keeps pset z0 t0 := by
  unfold Machine.execPtcAbort at he
  cases he
  all_goals
    repeat' (first
      | with_reducible first
        | assumption | apply K.gatedWrite h_regs h_outs h_resp h_intc
        | apply K.ptcCtrl h_regs h_cnts h_free h_mem h_outs h_intc h_sw h_gate h_vlt h_bnk h_ptc
      | intro _ _ | dsimp only)

theorem execPtcRestart {pset : List Part} {z0 t0 : State} {m : Master} {n : Fin 64} {v : Word} {s : State} (h_regs
    : Part.regs ∈ pset) (h_cnts : Part.cnts ∈ pset) (h_free : Part.free ∈ pset) (h_mem : Part.mem ∈ pset) (h_outs :
    Part.outs ∈ pset) (h_resp : Part.resp ∈ pset) (h_intc : Part.intc ∈ pset) (h_sw : Part.sw ∈ pset) (h_gate :
    Part.gate ∈ pset) (h_vlt : Part.vlt ∈ pset) (h_bnk : Part.bnk ∈ pset) (h_ptc : Part.ptc ∈ pset) (hk : Keeps pset
    z0 s) (he : Machine.execPtcRestart m n v s = .next t0) : Keeps pset z0 t0 := by
  unfold Machine.execPtcRestart at he
  cases he
  all_goals
    repeat' (first
      | with_reducible first
        | assumption | apply K.gatedWrite h_regs h_outs h_resp h_intc
        | apply K.ptcCtrl h_regs h_cnts h_free h_mem h_outs h_intc h_sw h_gate h_vlt h_bnk h_ptc
      | intro _ _ | dsimp only)

theorem execPtcRun {pset : List Part} {z0 t0 : State} {m : Master} {n : Fin 64} {v : Word} {s : State} (h_regs :
    Part.regs ∈ pset) (h_cnts : Part.cnts ∈ pset) (h_free : Part.free ∈ pset) (h_mem : Part.mem ∈ pset) (h_outs :
    Part.outs ∈ pset) (h_resp : Part.resp ∈ pset) (h_intc : Part.intc ∈ pset) (h_sw : Part.sw ∈ pset) (h_gate :
    Part.gate ∈ pset) (h_vlt : Part.vlt ∈ pset) (h_bnk : Part.bnk ∈ pset) (h_ptc : Part.ptc ∈ pset) (hk : Keeps pset
    z0 s) (he : Machine.execPtcRun m n v s = .next t0) : Keeps pset z0 t0 := by
  unfold Machine.execPtcRun at he
  cases he
  all_goals
    repeat' (first
      | with_reducible first
        | assumption | apply K.gatedWrite h_regs h_outs h_resp h_intc
        | apply K.ptcCtrl h_regs h_cnts h_free h_mem h_outs h_intc h_sw h_gate h_vlt h_bnk h_ptc
      | intro _ _ | dsimp only)

theorem execOwnWrite {pset : List Part} {z0 t0 : State} {m : Master} {n : Fin 64} {k : Fin 4} {v : Word} {s :
    State} (h_regs : Part.regs ∈ pset) (h_outs : Part.outs ∈ pset) (h_resp : Part.resp ∈ pset) (h_intc : Part.intc ∈
    pset) (h_ptc : Part.ptc ∈ pset) (hk : Keeps pset z0 s) (he : Machine.execOwnWrite m n k v s = .next t0) : Keeps
    pset z0 t0 := by
  unfold Machine.execOwnWrite at he
  cases he
  all_goals
    repeat' (first
      | with_reducible first
        | assumption | apply K.gatedWrite h_regs h_outs h_resp h_intc | apply K.ptcOwn h_regs h_outs h_intc h_ptc
      | intro _ _ | dsimp only)

theorem execDmaRecv {pset : List Part} {z0 t0 : State} {n : Pe} {s : State} (h_regs : Part.regs ∈ pset) (h_cnts :
    Part.cnts ∈ pset) (h_free : Part.free ∈ pset) (h_mem : Part.mem ∈ pset) (h_outs : Part.outs ∈ pset) (h_intc :
    Part.intc ∈ pset) (h_sw : Part.sw ∈ pset) (h_gate : Part.gate ∈ pset) (h_vlt : Part.vlt ∈ pset) (h_bnk : Part.bnk
    ∈ pset) (h_eng : Part.eng ∈ pset) (hk : Keeps pset z0 s) (he : Machine.execDmaRecv n s = .next t0) : Keeps pset z0
    t0 := by
  unfold Machine.execDmaRecv at he
  cases he
  all_goals
    repeat' (first
      | with_reducible first
        | assumption | apply K.dmaRun h_regs h_cnts h_free h_mem h_outs h_intc h_sw h_gate h_vlt h_bnk h_eng)

theorem execDmaSend {pset : List Part} {z0 t0 : State} {n : Pe} {s : State} (h_regs : Part.regs ∈ pset) (h_cnts :
    Part.cnts ∈ pset) (h_free : Part.free ∈ pset) (h_mem : Part.mem ∈ pset) (h_outs : Part.outs ∈ pset) (h_intc :
    Part.intc ∈ pset) (h_sw : Part.sw ∈ pset) (h_gate : Part.gate ∈ pset) (h_vlt : Part.vlt ∈ pset) (h_bnk : Part.bnk
    ∈ pset) (h_eng : Part.eng ∈ pset) (hk : Keeps pset z0 s) (he : Machine.execDmaSend n s = .next t0) : Keeps pset z0
    t0 := by
  unfold Machine.execDmaSend at he
  cases he
  all_goals
    repeat' (first
      | with_reducible first
        | assumption | apply K.dmaRun h_regs h_cnts h_free h_mem h_outs h_intc h_sw h_gate h_vlt h_bnk h_eng)

theorem execDmaRead {pset : List Part} {z0 t0 : State} {n : Pe} {s : State} (h_regs : Part.regs ∈ pset) (h_cnts :
    Part.cnts ∈ pset) (h_free : Part.free ∈ pset) (h_mem : Part.mem ∈ pset) (h_outs : Part.outs ∈ pset) (h_intc :
    Part.intc ∈ pset) (h_sw : Part.sw ∈ pset) (h_gate : Part.gate ∈ pset) (h_vlt : Part.vlt ∈ pset) (h_bnk : Part.bnk
    ∈ pset) (h_eng : Part.eng ∈ pset) (hk : Keeps pset z0 s) (he : Machine.execDmaRead n s = .next t0) : Keeps pset z0
    t0 := by
  unfold Machine.execDmaRead at he
  cases he
  all_goals
    repeat' (first
      | with_reducible first
        | assumption | apply K.dmaRun h_regs h_cnts h_free h_mem h_outs h_intc h_sw h_gate h_vlt h_bnk h_eng)

theorem execDmaWrite {pset : List Part} {z0 t0 : State} {n : Pe} {s : State} (h_regs : Part.regs ∈ pset) (h_cnts :
    Part.cnts ∈ pset) (h_free : Part.free ∈ pset) (h_mem : Part.mem ∈ pset) (h_outs : Part.outs ∈ pset) (h_intc :
    Part.intc ∈ pset) (h_sw : Part.sw ∈ pset) (h_gate : Part.gate ∈ pset) (h_vlt : Part.vlt ∈ pset) (h_bnk : Part.bnk
    ∈ pset) (h_eng : Part.eng ∈ pset) (hk : Keeps pset z0 s) (he : Machine.execDmaWrite n s = .next t0) : Keeps pset
    z0 t0 := by
  unfold Machine.execDmaWrite at he
  cases he
  all_goals
    repeat' (first
      | with_reducible first
        | assumption | apply K.dmaRun h_regs h_cnts h_free h_mem h_outs h_intc h_sw h_gate h_vlt h_bnk h_eng)

theorem execDmaCplRead {pset : List Part} {z0 t0 : State} {n : Pe} {s : State} (h_regs : Part.regs ∈ pset) (h_resp
    : Part.resp ∈ pset) (h_eng : Part.eng ∈ pset) (hk : Keeps pset z0 s) (he : Machine.execDmaCplRead n s = .next t0)
    : Keeps pset z0 t0 := by
  unfold Machine.execDmaCplRead Machine.locAnswer at he
  cases he
  all_goals
    repeat' (first
      | with_reducible first
        | assumption | apply K.answer h_resp | apply K.dmaCplRead h_regs h_eng)

theorem execQhTxHeadWrite {pset : List Part} {z0 t0 : State} {n : Pe} {k : Fin 8} {v : Word} {s : State} (h_regs :
    Part.regs ∈ pset) (hk : Keeps pset z0 s) (he : Machine.execQhTxHeadWrite n k v s = .next t0) : Keeps pset z0 t0 :=
    by
  unfold Machine.execQhTxHeadWrite at he
  cases he
  all_goals
    repeat' (first
      | with_reducible first
        | assumption | apply K.qhTxHead h_regs)

theorem execQhRxTailWrite {pset : List Part} {z0 t0 : State} {n : Pe} {k : Fin 8} {v : Word} {s : State} (h_regs :
    Part.regs ∈ pset) (hk : Keeps pset z0 s) (he : Machine.execQhRxTailWrite n k v s = .next t0) : Keeps pset z0 t0 :=
    by
  unfold Machine.execQhRxTailWrite at he
  cases he
  all_goals
    repeat' (first
      | with_reducible first
        | assumption | apply K.qhRxTail h_regs)

theorem execJobNextRead {pset : List Part} {z0 t0 : State} {n : Pe} {s : State} (h_resp : Part.resp ∈ pset) (h_eng
    : Part.eng ∈ pset) (hk : Keeps pset z0 s) (he : Machine.execJobNextRead n s = .next t0) : Keeps pset z0 t0 := by
  unfold Machine.execJobNextRead Machine.locAnswer at he
  cases he
  all_goals
    repeat' (first
      | with_reducible first
        | assumption | apply K.answer h_resp | apply K.jobNext h_eng)

theorem execJobEnd {pset : List Part} {z0 t0 : State} {n : Pe} {tag : Word} {s : State} (h_regs : Part.regs ∈
    pset) (h_mem : Part.mem ∈ pset) (h_outs : Part.outs ∈ pset) (h_intc : Part.intc ∈ pset) (h_bnk : Part.bnk ∈ pset)
    (h_eng : Part.eng ∈ pset) (h_plc : Part.plc ∈ pset) (hk : Keeps pset z0 s) (he : Machine.execJobEnd n tag s =
    .next t0) : Keeps pset z0 t0 := by
  unfold Machine.execJobEnd at he
  cases he
  all_goals
    repeat' (first
      | with_reducible first
        | assumption | apply K.jobEnd h_regs h_mem h_outs h_intc h_bnk h_eng h_plc)

theorem execJobCompletionRecord {pset : List Part} {z0 t0 : State} {s : State} (h_regs : Part.regs ∈ pset) (h_mem
    : Part.mem ∈ pset) (h_outs : Part.outs ∈ pset) (h_intc : Part.intc ∈ pset) (h_bnk : Part.bnk ∈ pset) (h_plc :
    Part.plc ∈ pset) (hk : Keeps pset z0 s) (he : Machine.execJobCompletionRecord s = .next t0) : Keeps pset z0 t0 :=
    by
  unfold Machine.execJobCompletionRecord at he
  cases he
  all_goals
    repeat' (first
      | with_reducible first
        | assumption | apply K.jobRecordRetry h_regs h_mem h_outs h_intc h_bnk h_plc)

theorem execCrcData {pset : List Part} {z0 t0 : State} {n : Pe} {sz : AccSize} {v : Word} {s : State} (h_regs :
    Part.regs ∈ pset) (hk : Keeps pset z0 s) (he : Machine.execCrcData n sz v s = .next t0) : Keeps pset z0 t0 := by
  unfold Machine.execCrcData at he
  cases he
  all_goals
    repeat' (first
      | with_reducible first
        | assumption | apply K.crcData h_regs)

theorem execTnowLoRead {pset : List Part} {z0 t0 : State} {m : Master} {s : State} (h_regs : Part.regs ∈ pset)
    (h_outs : Part.outs ∈ pset) (h_resp : Part.resp ∈ pset) (h_intc : Part.intc ∈ pset) (hk : Keeps pset z0 s) (he :
    Machine.execTnowLoRead m s = .next t0) : Keeps pset z0 t0 := by
  unfold Machine.execTnowLoRead Machine.locAnswer at he
  repeat' split at he
  all_goals cases he
  all_goals
    repeat' (first
      | with_reducible first
        | assumption | apply K.answer h_resp | apply K.gatedRead h_regs h_outs h_resp h_intc
        | apply K.tnowRead h_regs | apply K.engTnow h_regs | refine Keeps.ite (fun _ => ?_) (fun _ => ?_)
      | intro _ _ | dsimp only | split)

theorem execTimerArm {pset : List Part} {z0 t0 : State} {n : Pe} {t : Fin 2} {v : Word} {s : State} (h_regs :
    Part.regs ∈ pset) (h_eng : Part.eng ∈ pset) (hk : Keeps pset z0 s) (he : Machine.execTimerArm n t v s = .next t0)
    : Keeps pset z0 t0 := by
  unfold Machine.execTimerArm at he
  cases he
  all_goals
    repeat' (first
      | with_reducible first
        | assumption | apply K.timerArm h_regs h_eng)

theorem execEngineTimerFire {pset : List Part} {z0 t0 : State} {n : Pe} {t : Fin 2} {s : State} (h_regs :
    Part.regs ∈ pset) (h_cnts : Part.cnts ∈ pset) (h_sys : Part.sys ∈ pset) (h_time : Part.time ∈ pset) (h_eng :
    Part.eng ∈ pset) (h_pwr : Part.pwr ∈ pset) (hk : Keeps pset z0 s) (he : Machine.execEngineTimerFire n t s = .next
    t0) : Keeps pset z0 t0 := by
  unfold Machine.execEngineTimerFire at he
  cases he
  all_goals
    repeat' (first
      | with_reducible first
        | assumption | apply K.timerFire h_regs h_cnts h_sys h_time h_eng h_pwr)

theorem execEngineWdtKick {pset : List Part} {z0 t0 : State} {n : Pe} {v : Word} {s : State} (h_eng : Part.eng ∈
    pset) (hk : Keeps pset z0 s) (he : Machine.execEngineWdtKick n v s = .next t0) : Keeps pset z0 t0 := by
  unfold Machine.execEngineWdtKick at he
  cases he
  all_goals
    repeat' (first
      | with_reducible first
        | assumption | apply K.engKick h_eng | refine Keeps.ite (fun _ => ?_) (fun _ => ?_)
      | split)

theorem execEngineWatchdogExpiry {pset : List Part} {z0 t0 : State} {n : Pe} {s : State} (h_regs : Part.regs ∈
    pset) (h_cnts : Part.cnts ∈ pset) (h_outs : Part.outs ∈ pset) (h_intc : Part.intc ∈ pset) (h_sys : Part.sys ∈
    pset) (h_time : Part.time ∈ pset) (h_eng : Part.eng ∈ pset) (h_pwr : Part.pwr ∈ pset) (hk : Keeps pset z0 s) (he :
    Machine.execEngineWatchdogExpiry n s = .next t0) : Keeps pset z0 t0 := by
  unfold Machine.execEngineWatchdogExpiry at he
  cases he
  all_goals
    repeat' (first
      | with_reducible first
        | assumption | apply K.engWdtExpiry h_regs h_cnts h_outs h_intc h_sys h_time h_eng h_pwr)

theorem execCkptCommit {pset : List Part} {z0 t0 : State} {n : Pe} {v : Word} {s : State} (h_regs : Part.regs ∈
    pset) (h_eng : Part.eng ∈ pset) (hk : Keeps pset z0 s) (he : Machine.execCkptCommit n v s = .next t0) : Keeps pset
    z0 t0 := by
  unfold Machine.execCkptCommit at he
  cases he
  all_goals
    repeat' (first
      | with_reducible first
        | assumption | apply K.ckptCommit h_regs h_eng)

theorem execMigReady {pset : List Part} {z0 t0 : State} {n : Pe} {k : Fin 8} {len : BitVec 16} {s : State} (h_regs
    : Part.regs ∈ pset) (h_eng : Part.eng ∈ pset) (hk : Keeps pset z0 s) (he : Machine.execMigReady n k len s = .next
    t0) : Keeps pset z0 t0 := by
  unfold Machine.execMigReady at he
  cases he
  all_goals
    repeat' (first
      | with_reducible first
        | assumption | apply K.setR h_regs | apply K.migReady h_regs h_eng)

theorem execMigDone {pset : List Part} {z0 t0 : State} {n : Pe} {k : Fin 8} {s : State} (h_regs : Part.regs ∈
    pset) (h_cnts : Part.cnts ∈ pset) (h_outs : Part.outs ∈ pset) (h_intc : Part.intc ∈ pset) (h_eng : Part.eng ∈
    pset) (h_plc : Part.plc ∈ pset) (hk : Keeps pset z0 s) (he : Machine.execMigDone n k s = .next t0) : Keeps pset z0
    t0 := by
  unfold Machine.execMigDone at he
  cases he
  all_goals
    repeat' (first
      | with_reducible first
        | assumption | apply K.migDone h_regs h_cnts h_outs h_intc h_eng h_plc)

theorem execMigrationSwitch {pset : List Part} {z0 t0 : State} {c : BitVec 9} {s : State} (h_regs : Part.regs ∈
    pset) (h_eng : Part.eng ∈ pset) (h_plc : Part.plc ∈ pset) (hk : Keeps pset z0 s) (he : Machine.execMigrationSwitch
    c s = .next t0) : Keeps pset z0 t0 := by
  unfold Machine.execMigrationSwitch at he
  cases he
  all_goals
    repeat' (first
      | with_reducible first
        | assumption | apply K.migSwitch h_regs h_eng h_plc)

theorem execMigrationAbandon {pset : List Part} {z0 t0 : State} {c : BitVec 9} {s : State} (h_regs : Part.regs ∈
    pset) (h_cnts : Part.cnts ∈ pset) (h_outs : Part.outs ∈ pset) (h_intc : Part.intc ∈ pset) (h_sys : Part.sys ∈
    pset) (h_time : Part.time ∈ pset) (h_plc : Part.plc ∈ pset) (h_pwr : Part.pwr ∈ pset) (hk : Keeps pset z0 s) (he :
    Machine.execMigrationAbandon c s = .next t0) : Keeps pset z0 t0 := by
  unfold Machine.execMigrationAbandon at he
  cases he
  all_goals
    repeat' (first
      | with_reducible first
        | assumption | apply K.migAbandon h_regs h_cnts h_outs h_intc h_sys h_time h_plc h_pwr)

theorem execLoadPers {pset : List Part} {z0 t0 : State} {m : Master} {slot : BitVec 5} {sigOk : Bool} {s : State}
    (h_regs : Part.regs ∈ pset) (h_outs : Part.outs ∈ pset) (h_resp : Part.resp ∈ pset) (h_intc : Part.intc ∈ pset)
    (h_plc : Part.plc ∈ pset) (hk : Keeps pset z0 s) (he : Machine.execLoadPers m slot sigOk s = .next t0) : Keeps
    pset z0 t0 := by
  unfold Machine.execLoadPers at he
  cases he
  all_goals
    repeat' (first
      | with_reducible first
        | assumption | apply K.gatedWrite h_regs h_outs h_resp h_intc
        | apply K.plcLoadPers h_regs h_outs h_intc h_plc
      | intro _ _ | dsimp only)

theorem execUnloadPers {pset : List Part} {z0 t0 : State} {m : Master} {slot : BitVec 5} {s : State} (h_regs :
    Part.regs ∈ pset) (h_outs : Part.outs ∈ pset) (h_resp : Part.resp ∈ pset) (h_intc : Part.intc ∈ pset) (h_plc :
    Part.plc ∈ pset) (hk : Keeps pset z0 s) (he : Machine.execUnloadPers m slot s = .next t0) : Keeps pset z0 t0 := by
  unfold Machine.execUnloadPers at he
  cases he
  all_goals
    repeat' (first
      | with_reducible first
        | assumption | apply K.gatedWrite h_regs h_outs h_resp h_intc | apply K.plcUnload h_regs h_outs h_intc h_plc
      | intro _ _ | dsimp only)

theorem execRebalance {pset : List Part} {z0 t0 : State} {m : Master} {s : State} (h_regs : Part.regs ∈ pset)
    (h_cnts : Part.cnts ∈ pset) (h_free : Part.free ∈ pset) (h_mem : Part.mem ∈ pset) (h_outs : Part.outs ∈ pset)
    (h_resp : Part.resp ∈ pset) (h_intc : Part.intc ∈ pset) (h_sw : Part.sw ∈ pset) (h_bnk : Part.bnk ∈ pset) (h_eng :
    Part.eng ∈ pset) (h_plc : Part.plc ∈ pset) (h_cores : Part.cores ∈ pset) (hk : Keeps pset z0 s) (he :
    Machine.execRebalance m s = .next t0) : Keeps pset z0 t0 := by
  unfold Machine.execRebalance at he
  cases he
  all_goals
    repeat' (first
      | with_reducible first
        | assumption | apply K.gatedWrite h_regs h_outs h_resp h_intc | apply K.plcEnd h_regs h_outs h_intc
        | apply K.placeRecompute h_regs h_cnts h_free h_mem h_outs h_intc h_sw h_bnk h_eng h_plc h_cores
      | intro _ _ | dsimp only)

theorem execDeclareDead {pset : List Part} {z0 t0 : State} {m : Master} {n : BitVec 6} {s : State} (h_regs :
    Part.regs ∈ pset) (h_outs : Part.outs ∈ pset) (h_resp : Part.resp ∈ pset) (h_intc : Part.intc ∈ pset) (h_eng :
    Part.eng ∈ pset) (hk : Keeps pset z0 s) (he : Machine.execDeclareDead m n s = .next t0) : Keeps pset z0 t0 := by
  unfold Machine.execDeclareDead at he
  cases he
  all_goals
    repeat' (first
      | with_reducible first
        | assumption | apply K.gatedWrite h_regs h_outs h_resp h_intc
        | apply K.plcDeclareDead h_regs h_outs h_intc h_eng
      | intro _ _ | dsimp only)

theorem execPostJob {pset : List Part} {z0 t0 : State} {m : Master} {n : BitVec 6} {cls2 : Bool} {s : State}
    (h_regs : Part.regs ∈ pset) (h_mem : Part.mem ∈ pset) (h_outs : Part.outs ∈ pset) (h_resp : Part.resp ∈ pset)
    (h_intc : Part.intc ∈ pset) (h_eng : Part.eng ∈ pset) (h_plc : Part.plc ∈ pset) (hk : Keeps pset z0 s) (he :
    Machine.execPostJob m n cls2 s = .next t0) : Keeps pset z0 t0 := by
  unfold Machine.execPostJob at he
  cases he
  all_goals
    repeat' (first
      | with_reducible first
        | assumption | apply K.gatedWrite h_regs h_outs h_resp h_intc
        | apply K.plcPostJob h_regs h_mem h_outs h_intc h_eng h_plc
      | intro _ _ | dsimp only)

theorem execBindWrite {pset : List Part} {z0 t0 : State} {m : Master} {c : BitVec 9} {v : Word} {s : State}
    (h_regs : Part.regs ∈ pset) (h_cnts : Part.cnts ∈ pset) (h_outs : Part.outs ∈ pset) (h_resp : Part.resp ∈ pset)
    (h_intc : Part.intc ∈ pset) (h_plc : Part.plc ∈ pset) (hk : Keeps pset z0 s) (he : Machine.execBindWrite m c v s =
    .next t0) : Keeps pset z0 t0 := by
  unfold Machine.execBindWrite at he
  cases he
  all_goals
    repeat' (first
      | with_reducible first
        | assumption | apply K.gatedWrite h_regs h_outs h_resp h_intc
        | apply K.bindWrite h_regs h_cnts h_outs h_intc h_plc
      | intro _ _ | dsimp only)

theorem execPlacementRecompute {pset : List Part} {z0 t0 : State} {s : State} (h_regs : Part.regs ∈ pset) (h_cnts
    : Part.cnts ∈ pset) (h_free : Part.free ∈ pset) (h_mem : Part.mem ∈ pset) (h_outs : Part.outs ∈ pset) (h_intc :
    Part.intc ∈ pset) (h_sw : Part.sw ∈ pset) (h_bnk : Part.bnk ∈ pset) (h_eng : Part.eng ∈ pset) (h_plc : Part.plc ∈
    pset) (h_cores : Part.cores ∈ pset) (hk : Keeps pset z0 s) (he : Machine.execPlacementRecompute s = .next t0) :
    Keeps pset z0 t0 := by
  unfold Machine.execPlacementRecompute at he
  cases he
  all_goals
    repeat' (first
      | with_reducible first
        | assumption
        | apply K.placeRecompute h_regs h_cnts h_free h_mem h_outs h_intc h_sw h_bnk h_eng h_plc h_cores)

theorem execEngineDeclaredDead {pset : List Part} {z0 t0 : State} {n : Pe} {tcm : Bool} {s : State} (h_regs :
    Part.regs ∈ pset) (h_cnts : Part.cnts ∈ pset) (h_mem : Part.mem ∈ pset) (h_outs : Part.outs ∈ pset) (h_intc :
    Part.intc ∈ pset) (h_gate : Part.gate ∈ pset) (h_vlt : Part.vlt ∈ pset) (h_bnk : Part.bnk ∈ pset) (h_eng :
    Part.eng ∈ pset) (h_plc : Part.plc ∈ pset) (h_cores : Part.cores ∈ pset) (hk : Keeps pset z0 s) (he :
    Machine.execEngineDeclaredDead n tcm s = .next t0) : Keeps pset z0 t0 := by
  unfold Machine.execEngineDeclaredDead at he
  cases he
  all_goals
    repeat' (first
      | with_reducible first
        | assumption | apply K.declareDead h_regs h_outs h_intc h_eng
        | apply K.engFence h_regs h_cnts h_mem h_outs h_intc h_gate h_vlt h_bnk h_eng h_plc h_cores
        | refine Keeps.ite (fun _ => ?_) (fun _ => ?_)
      | split)

theorem execTakeoverComplete {pset : List Part} {z0 t0 : State} {n : Pe} {s : State} (h_regs : Part.regs ∈ pset)
    (h_mem : Part.mem ∈ pset) (h_outs : Part.outs ∈ pset) (h_intc : Part.intc ∈ pset) (h_eng : Part.eng ∈ pset)
    (h_cores : Part.cores ∈ pset) (hk : Keeps pset z0 s) (he : Machine.execTakeoverComplete n s = .next t0) : Keeps
    pset z0 t0 := by
  unfold Machine.execTakeoverComplete at he
  cases he
  all_goals
    repeat' (first
      | with_reducible first
        | assumption | apply K.takeoverComplete h_regs h_mem h_outs h_intc h_eng h_cores)

theorem execMgpWatchdogExpiry {pset : List Part} {z0 t0 : State} {s : State} (h_regs : Part.regs ∈ pset) (h_cnts :
    Part.cnts ∈ pset) (h_free : Part.free ∈ pset) (h_outs : Part.outs ∈ pset) (h_intc : Part.intc ∈ pset) (h_sys :
    Part.sys ∈ pset) (h_time : Part.time ∈ pset) (h_plc : Part.plc ∈ pset) (h_cores : Part.cores ∈ pset) (h_pwr :
    Part.pwr ∈ pset) (hk : Keeps pset z0 s) (he : Machine.execMgpWatchdogExpiry s = .next t0) : Keeps pset z0 t0 := by
  unfold Machine.execMgpWatchdogExpiry at he
  cases he
  all_goals
    repeat' (first
      | with_reducible first
        | assumption | apply K.fresh h_free | apply K.advanceNs h_cnts h_sys h_time h_pwr
        | apply K.mgpRestart h_regs h_cnts h_free h_outs h_intc h_sys h_plc h_cores
      | dsimp only)

theorem execH32Add {pset : List Part} {z0 t0 : State} {c : Fin 50} {s : State} (h_cnts : Part.cnts ∈ pset) (h_free
    : Part.free ∈ pset) (h_cores : Part.cores ∈ pset) (hk : Keeps pset z0 s) (he : Machine.execH32Add c s = .next t0)
    : Keeps pset z0 t0 := by
  unfold Machine.execH32Add at he
  cases he
  all_goals
    repeat' (first
      | with_reducible first
        | assumption | apply K.issueR h_cnts h_free h_cores
      | intro _ _)

theorem execH32Sub {pset : List Part} {z0 t0 : State} {c : Fin 50} {s : State} (h_cnts : Part.cnts ∈ pset) (h_free
    : Part.free ∈ pset) (h_cores : Part.cores ∈ pset) (hk : Keeps pset z0 s) (he : Machine.execH32Sub c s = .next t0)
    : Keeps pset z0 t0 := by
  unfold Machine.execH32Sub at he
  cases he
  all_goals
    repeat' (first
      | with_reducible first
        | assumption | apply K.issueR h_cnts h_free h_cores
      | intro _ _)

theorem execH32Neg {pset : List Part} {z0 t0 : State} {c : Fin 50} {s : State} (h_cnts : Part.cnts ∈ pset) (h_free
    : Part.free ∈ pset) (h_cores : Part.cores ∈ pset) (hk : Keeps pset z0 s) (he : Machine.execH32Neg c s = .next t0)
    : Keeps pset z0 t0 := by
  unfold Machine.execH32Neg at he
  cases he
  all_goals
    repeat' (first
      | with_reducible first
        | assumption | apply K.issueR h_cnts h_free h_cores
      | intro _ _)

theorem execH32And {pset : List Part} {z0 t0 : State} {c : Fin 50} {s : State} (h_cnts : Part.cnts ∈ pset) (h_free
    : Part.free ∈ pset) (h_cores : Part.cores ∈ pset) (hk : Keeps pset z0 s) (he : Machine.execH32And c s = .next t0)
    : Keeps pset z0 t0 := by
  unfold Machine.execH32And at he
  cases he
  all_goals
    repeat' (first
      | with_reducible first
        | assumption | apply K.issueR h_cnts h_free h_cores
      | intro _ _)

theorem execH32Or {pset : List Part} {z0 t0 : State} {c : Fin 50} {s : State} (h_cnts : Part.cnts ∈ pset) (h_free
    : Part.free ∈ pset) (h_cores : Part.cores ∈ pset) (hk : Keeps pset z0 s) (he : Machine.execH32Or c s = .next t0) :
    Keeps pset z0 t0 := by
  unfold Machine.execH32Or at he
  cases he
  all_goals
    repeat' (first
      | with_reducible first
        | assumption | apply K.issueR h_cnts h_free h_cores
      | intro _ _)

theorem execH32Xor {pset : List Part} {z0 t0 : State} {c : Fin 50} {s : State} (h_cnts : Part.cnts ∈ pset) (h_free
    : Part.free ∈ pset) (h_cores : Part.cores ∈ pset) (hk : Keeps pset z0 s) (he : Machine.execH32Xor c s = .next t0)
    : Keeps pset z0 t0 := by
  unfold Machine.execH32Xor at he
  cases he
  all_goals
    repeat' (first
      | with_reducible first
        | assumption | apply K.issueR h_cnts h_free h_cores
      | intro _ _)

theorem execH32Andn {pset : List Part} {z0 t0 : State} {c : Fin 50} {s : State} (h_cnts : Part.cnts ∈ pset)
    (h_free : Part.free ∈ pset) (h_cores : Part.cores ∈ pset) (hk : Keeps pset z0 s) (he : Machine.execH32Andn c s =
    .next t0) : Keeps pset z0 t0 := by
  unfold Machine.execH32Andn at he
  cases he
  all_goals
    repeat' (first
      | with_reducible first
        | assumption | apply K.issueR h_cnts h_free h_cores
      | intro _ _)

theorem execH32Slt {pset : List Part} {z0 t0 : State} {c : Fin 50} {s : State} (h_cnts : Part.cnts ∈ pset) (h_free
    : Part.free ∈ pset) (h_cores : Part.cores ∈ pset) (hk : Keeps pset z0 s) (he : Machine.execH32Slt c s = .next t0)
    : Keeps pset z0 t0 := by
  unfold Machine.execH32Slt at he
  cases he
  all_goals
    repeat' (first
      | with_reducible first
        | assumption | apply K.issueR h_cnts h_free h_cores
      | intro _ _)

theorem execH32Sltu {pset : List Part} {z0 t0 : State} {c : Fin 50} {s : State} (h_cnts : Part.cnts ∈ pset)
    (h_free : Part.free ∈ pset) (h_cores : Part.cores ∈ pset) (hk : Keeps pset z0 s) (he : Machine.execH32Sltu c s =
    .next t0) : Keeps pset z0 t0 := by
  unfold Machine.execH32Sltu at he
  cases he
  all_goals
    repeat' (first
      | with_reducible first
        | assumption | apply K.issueR h_cnts h_free h_cores
      | intro _ _)

theorem execH32Sll {pset : List Part} {z0 t0 : State} {c : Fin 50} {s : State} (h_cnts : Part.cnts ∈ pset) (h_free
    : Part.free ∈ pset) (h_cores : Part.cores ∈ pset) (hk : Keeps pset z0 s) (he : Machine.execH32Sll c s = .next t0)
    : Keeps pset z0 t0 := by
  unfold Machine.execH32Sll at he
  cases he
  all_goals
    repeat' (first
      | with_reducible first
        | assumption | apply K.issueR h_cnts h_free h_cores
      | intro _ _)

theorem execH32Srl {pset : List Part} {z0 t0 : State} {c : Fin 50} {s : State} (h_cnts : Part.cnts ∈ pset) (h_free
    : Part.free ∈ pset) (h_cores : Part.cores ∈ pset) (hk : Keeps pset z0 s) (he : Machine.execH32Srl c s = .next t0)
    : Keeps pset z0 t0 := by
  unfold Machine.execH32Srl at he
  cases he
  all_goals
    repeat' (first
      | with_reducible first
        | assumption | apply K.issueR h_cnts h_free h_cores
      | intro _ _)

theorem execH32Sra {pset : List Part} {z0 t0 : State} {c : Fin 50} {s : State} (h_cnts : Part.cnts ∈ pset) (h_free
    : Part.free ∈ pset) (h_cores : Part.cores ∈ pset) (hk : Keeps pset z0 s) (he : Machine.execH32Sra c s = .next t0)
    : Keeps pset z0 t0 := by
  unfold Machine.execH32Sra at he
  cases he
  all_goals
    repeat' (first
      | with_reducible first
        | assumption | apply K.issueR h_cnts h_free h_cores
      | intro _ _)

theorem execH32Clz {pset : List Part} {z0 t0 : State} {c : Fin 50} {s : State} (h_cnts : Part.cnts ∈ pset) (h_free
    : Part.free ∈ pset) (h_cores : Part.cores ∈ pset) (hk : Keeps pset z0 s) (he : Machine.execH32Clz c s = .next t0)
    : Keeps pset z0 t0 := by
  unfold Machine.execH32Clz at he
  cases he
  all_goals
    repeat' (first
      | with_reducible first
        | assumption | apply K.issueR h_cnts h_free h_cores
      | intro _ _)

theorem execH32Sextb {pset : List Part} {z0 t0 : State} {c : Fin 50} {s : State} (h_cnts : Part.cnts ∈ pset)
    (h_free : Part.free ∈ pset) (h_cores : Part.cores ∈ pset) (hk : Keeps pset z0 s) (he : Machine.execH32Sextb c s =
    .next t0) : Keeps pset z0 t0 := by
  unfold Machine.execH32Sextb at he
  cases he
  all_goals
    repeat' (first
      | with_reducible first
        | assumption | apply K.issueR h_cnts h_free h_cores
      | intro _ _)

theorem execH32Sexth {pset : List Part} {z0 t0 : State} {c : Fin 50} {s : State} (h_cnts : Part.cnts ∈ pset)
    (h_free : Part.free ∈ pset) (h_cores : Part.cores ∈ pset) (hk : Keeps pset z0 s) (he : Machine.execH32Sexth c s =
    .next t0) : Keeps pset z0 t0 := by
  unfold Machine.execH32Sexth at he
  cases he
  all_goals
    repeat' (first
      | with_reducible first
        | assumption | apply K.issueR h_cnts h_free h_cores
      | intro _ _)

theorem execH32Addi {pset : List Part} {z0 t0 : State} {c : Fin 50} {s : State} (h_cnts : Part.cnts ∈ pset)
    (h_free : Part.free ∈ pset) (h_cores : Part.cores ∈ pset) (hk : Keeps pset z0 s) (he : Machine.execH32Addi c s =
    .next t0) : Keeps pset z0 t0 := by
  unfold Machine.execH32Addi at he
  cases he
  all_goals
    repeat' (first
      | with_reducible first
        | assumption | apply K.issueI h_cnts h_free h_cores
      | intro _ _)

theorem execH32Andi {pset : List Part} {z0 t0 : State} {c : Fin 50} {s : State} (h_cnts : Part.cnts ∈ pset)
    (h_free : Part.free ∈ pset) (h_cores : Part.cores ∈ pset) (hk : Keeps pset z0 s) (he : Machine.execH32Andi c s =
    .next t0) : Keeps pset z0 t0 := by
  unfold Machine.execH32Andi at he
  cases he
  all_goals
    repeat' (first
      | with_reducible first
        | assumption | apply K.issueI h_cnts h_free h_cores
      | intro _ _)

theorem execH32Ori {pset : List Part} {z0 t0 : State} {c : Fin 50} {s : State} (h_cnts : Part.cnts ∈ pset) (h_free
    : Part.free ∈ pset) (h_cores : Part.cores ∈ pset) (hk : Keeps pset z0 s) (he : Machine.execH32Ori c s = .next t0)
    : Keeps pset z0 t0 := by
  unfold Machine.execH32Ori at he
  cases he
  all_goals
    repeat' (first
      | with_reducible first
        | assumption | apply K.issueI h_cnts h_free h_cores
      | intro _ _)

theorem execH32Xori {pset : List Part} {z0 t0 : State} {c : Fin 50} {s : State} (h_cnts : Part.cnts ∈ pset)
    (h_free : Part.free ∈ pset) (h_cores : Part.cores ∈ pset) (hk : Keeps pset z0 s) (he : Machine.execH32Xori c s =
    .next t0) : Keeps pset z0 t0 := by
  unfold Machine.execH32Xori at he
  cases he
  all_goals
    repeat' (first
      | with_reducible first
        | assumption | apply K.issueI h_cnts h_free h_cores
      | intro _ _)

theorem execH32Slti {pset : List Part} {z0 t0 : State} {c : Fin 50} {s : State} (h_cnts : Part.cnts ∈ pset)
    (h_free : Part.free ∈ pset) (h_cores : Part.cores ∈ pset) (hk : Keeps pset z0 s) (he : Machine.execH32Slti c s =
    .next t0) : Keeps pset z0 t0 := by
  unfold Machine.execH32Slti at he
  cases he
  all_goals
    repeat' (first
      | with_reducible first
        | assumption | apply K.issueI h_cnts h_free h_cores
      | intro _ _)

theorem execH32Sltiu {pset : List Part} {z0 t0 : State} {c : Fin 50} {s : State} (h_cnts : Part.cnts ∈ pset)
    (h_free : Part.free ∈ pset) (h_cores : Part.cores ∈ pset) (hk : Keeps pset z0 s) (he : Machine.execH32Sltiu c s =
    .next t0) : Keeps pset z0 t0 := by
  unfold Machine.execH32Sltiu at he
  cases he
  all_goals
    repeat' (first
      | with_reducible first
        | assumption | apply K.issueI h_cnts h_free h_cores
      | intro _ _)

theorem execH32Lui {pset : List Part} {z0 t0 : State} {c : Fin 50} {s : State} (h_cnts : Part.cnts ∈ pset) (h_free
    : Part.free ∈ pset) (h_cores : Part.cores ∈ pset) (hk : Keeps pset z0 s) (he : Machine.execH32Lui c s = .next t0)
    : Keeps pset z0 t0 := by
  unfold Machine.execH32Lui at he
  cases he
  all_goals
    repeat' (first
      | with_reducible first
        | assumption | apply K.issueI h_cnts h_free h_cores
      | intro _ _)

theorem execH32Slli {pset : List Part} {z0 t0 : State} {c : Fin 50} {s : State} (h_cnts : Part.cnts ∈ pset)
    (h_free : Part.free ∈ pset) (h_cores : Part.cores ∈ pset) (hk : Keeps pset z0 s) (he : Machine.execH32Slli c s =
    .next t0) : Keeps pset z0 t0 := by
  unfold Machine.execH32Slli at he
  cases he
  all_goals
    repeat' (first
      | with_reducible first
        | assumption | apply K.issueI h_cnts h_free h_cores
      | intro _ _)

theorem execH32Srli {pset : List Part} {z0 t0 : State} {c : Fin 50} {s : State} (h_cnts : Part.cnts ∈ pset)
    (h_free : Part.free ∈ pset) (h_cores : Part.cores ∈ pset) (hk : Keeps pset z0 s) (he : Machine.execH32Srli c s =
    .next t0) : Keeps pset z0 t0 := by
  unfold Machine.execH32Srli at he
  cases he
  all_goals
    repeat' (first
      | with_reducible first
        | assumption | apply K.issueI h_cnts h_free h_cores
      | intro _ _)

theorem execH32Srai {pset : List Part} {z0 t0 : State} {c : Fin 50} {s : State} (h_cnts : Part.cnts ∈ pset)
    (h_free : Part.free ∈ pset) (h_cores : Part.cores ∈ pset) (hk : Keeps pset z0 s) (he : Machine.execH32Srai c s =
    .next t0) : Keeps pset z0 t0 := by
  unfold Machine.execH32Srai at he
  cases he
  all_goals
    repeat' (first
      | with_reducible first
        | assumption | apply K.issueI h_cnts h_free h_cores
      | intro _ _)

theorem execH32Mul {pset : List Part} {z0 t0 : State} {c : Fin 50} {s : State} (h_cnts : Part.cnts ∈ pset) (h_free
    : Part.free ∈ pset) (h_cores : Part.cores ∈ pset) (hk : Keeps pset z0 s) (he : Machine.execH32Mul c s = .next t0)
    : Keeps pset z0 t0 := by
  unfold Machine.execH32Mul at he
  cases he
  all_goals
    repeat' (first
      | with_reducible first
        | assumption | apply K.issueM h_cnts h_free h_cores
      | intro _ _)

theorem execH32Mulh {pset : List Part} {z0 t0 : State} {c : Fin 50} {s : State} (h_cnts : Part.cnts ∈ pset)
    (h_free : Part.free ∈ pset) (h_cores : Part.cores ∈ pset) (hk : Keeps pset z0 s) (he : Machine.execH32Mulh c s =
    .next t0) : Keeps pset z0 t0 := by
  unfold Machine.execH32Mulh at he
  cases he
  all_goals
    repeat' (first
      | with_reducible first
        | assumption | apply K.issueM h_cnts h_free h_cores
      | intro _ _)

theorem execH32Mulhu {pset : List Part} {z0 t0 : State} {c : Fin 50} {s : State} (h_cnts : Part.cnts ∈ pset)
    (h_free : Part.free ∈ pset) (h_cores : Part.cores ∈ pset) (hk : Keeps pset z0 s) (he : Machine.execH32Mulhu c s =
    .next t0) : Keeps pset z0 t0 := by
  unfold Machine.execH32Mulhu at he
  cases he
  all_goals
    repeat' (first
      | with_reducible first
        | assumption | apply K.issueM h_cnts h_free h_cores
      | intro _ _)

theorem execH32Div {pset : List Part} {z0 t0 : State} {c : Fin 50} {s : State} (h_cnts : Part.cnts ∈ pset) (h_free
    : Part.free ∈ pset) (h_cores : Part.cores ∈ pset) (hk : Keeps pset z0 s) (he : Machine.execH32Div c s = .next t0)
    : Keeps pset z0 t0 := by
  unfold Machine.execH32Div at he
  cases he
  all_goals
    repeat' (first
      | with_reducible first
        | assumption | apply K.issueD h_cnts h_free h_cores | refine Keeps.ite (fun _ => ?_) (fun _ => ?_)
      | intro _ _ | split)

theorem execH32Divu {pset : List Part} {z0 t0 : State} {c : Fin 50} {s : State} (h_cnts : Part.cnts ∈ pset)
    (h_free : Part.free ∈ pset) (h_cores : Part.cores ∈ pset) (hk : Keeps pset z0 s) (he : Machine.execH32Divu c s =
    .next t0) : Keeps pset z0 t0 := by
  unfold Machine.execH32Divu at he
  cases he
  all_goals
    repeat' (first
      | with_reducible first
        | assumption | apply K.issueD h_cnts h_free h_cores | refine Keeps.ite (fun _ => ?_) (fun _ => ?_)
      | intro _ _ | split)

theorem execH32Rem {pset : List Part} {z0 t0 : State} {c : Fin 50} {s : State} (h_cnts : Part.cnts ∈ pset) (h_free
    : Part.free ∈ pset) (h_cores : Part.cores ∈ pset) (hk : Keeps pset z0 s) (he : Machine.execH32Rem c s = .next t0)
    : Keeps pset z0 t0 := by
  unfold Machine.execH32Rem at he
  cases he
  all_goals
    repeat' (first
      | with_reducible first
        | assumption | apply K.issueD h_cnts h_free h_cores | refine Keeps.ite (fun _ => ?_) (fun _ => ?_)
      | intro _ _ | split)

theorem execH32Remu {pset : List Part} {z0 t0 : State} {c : Fin 50} {s : State} (h_cnts : Part.cnts ∈ pset)
    (h_free : Part.free ∈ pset) (h_cores : Part.cores ∈ pset) (hk : Keeps pset z0 s) (he : Machine.execH32Remu c s =
    .next t0) : Keeps pset z0 t0 := by
  unfold Machine.execH32Remu at he
  cases he
  all_goals
    repeat' (first
      | with_reducible first
        | assumption | apply K.issueD h_cnts h_free h_cores | refine Keeps.ite (fun _ => ?_) (fun _ => ?_)
      | intro _ _ | split)

theorem execH32Lw {pset : List Part} {z0 t0 : State} {c : Fin 50} {s : State} (h_regs : Part.regs ∈ pset) (h_cnts
    : Part.cnts ∈ pset) (h_free : Part.free ∈ pset) (h_fiq : Part.fiq ∈ pset) (h_eng : Part.eng ∈ pset) (h_cores :
    Part.cores ∈ pset) (hk : Keeps pset z0 s) (he : Machine.execH32Lw c s = .next t0) : Keeps pset z0 t0 := by
  unfold Machine.execH32Lw at he
  cases he
  all_goals
    repeat' (first
      | with_reducible first
        | assumption | apply K.issueL h_regs h_cnts h_free h_fiq h_eng h_cores)

theorem execH32Lh {pset : List Part} {z0 t0 : State} {c : Fin 50} {s : State} (h_regs : Part.regs ∈ pset) (h_cnts
    : Part.cnts ∈ pset) (h_free : Part.free ∈ pset) (h_fiq : Part.fiq ∈ pset) (h_eng : Part.eng ∈ pset) (h_cores :
    Part.cores ∈ pset) (hk : Keeps pset z0 s) (he : Machine.execH32Lh c s = .next t0) : Keeps pset z0 t0 := by
  unfold Machine.execH32Lh at he
  cases he
  all_goals
    repeat' (first
      | with_reducible first
        | assumption | apply K.issueL h_regs h_cnts h_free h_fiq h_eng h_cores)

theorem execH32Lhu {pset : List Part} {z0 t0 : State} {c : Fin 50} {s : State} (h_regs : Part.regs ∈ pset) (h_cnts
    : Part.cnts ∈ pset) (h_free : Part.free ∈ pset) (h_fiq : Part.fiq ∈ pset) (h_eng : Part.eng ∈ pset) (h_cores :
    Part.cores ∈ pset) (hk : Keeps pset z0 s) (he : Machine.execH32Lhu c s = .next t0) : Keeps pset z0 t0 := by
  unfold Machine.execH32Lhu at he
  cases he
  all_goals
    repeat' (first
      | with_reducible first
        | assumption | apply K.issueL h_regs h_cnts h_free h_fiq h_eng h_cores)

theorem execH32Lb {pset : List Part} {z0 t0 : State} {c : Fin 50} {s : State} (h_regs : Part.regs ∈ pset) (h_cnts
    : Part.cnts ∈ pset) (h_free : Part.free ∈ pset) (h_fiq : Part.fiq ∈ pset) (h_eng : Part.eng ∈ pset) (h_cores :
    Part.cores ∈ pset) (hk : Keeps pset z0 s) (he : Machine.execH32Lb c s = .next t0) : Keeps pset z0 t0 := by
  unfold Machine.execH32Lb at he
  cases he
  all_goals
    repeat' (first
      | with_reducible first
        | assumption | apply K.issueL h_regs h_cnts h_free h_fiq h_eng h_cores)

theorem execH32Lbu {pset : List Part} {z0 t0 : State} {c : Fin 50} {s : State} (h_regs : Part.regs ∈ pset) (h_cnts
    : Part.cnts ∈ pset) (h_free : Part.free ∈ pset) (h_fiq : Part.fiq ∈ pset) (h_eng : Part.eng ∈ pset) (h_cores :
    Part.cores ∈ pset) (hk : Keeps pset z0 s) (he : Machine.execH32Lbu c s = .next t0) : Keeps pset z0 t0 := by
  unfold Machine.execH32Lbu at he
  cases he
  all_goals
    repeat' (first
      | with_reducible first
        | assumption | apply K.issueL h_regs h_cnts h_free h_fiq h_eng h_cores)

theorem execH32Lwpi {pset : List Part} {z0 t0 : State} {c : Fin 50} {s : State} (h_regs : Part.regs ∈ pset)
    (h_cnts : Part.cnts ∈ pset) (h_free : Part.free ∈ pset) (h_fiq : Part.fiq ∈ pset) (h_eng : Part.eng ∈ pset)
    (h_cores : Part.cores ∈ pset) (hk : Keeps pset z0 s) (he : Machine.execH32Lwpi c s = .next t0) : Keeps pset z0 t0
    := by
  unfold Machine.execH32Lwpi at he
  cases he
  all_goals
    repeat' (first
      | with_reducible first
        | assumption | apply K.issueL h_regs h_cnts h_free h_fiq h_eng h_cores)

theorem execH32Sw {pset : List Part} {z0 t0 : State} {c : Fin 50} {s : State} (h_all : ∀ p : Part, p ≠ .falls → p
    ∈ pset) (hk : Keeps pset z0 s) (he : Machine.execH32Sw c s = .next t0) : Keeps pset z0 t0 := by
  unfold Machine.execH32Sw at he
  cases he
  all_goals
    repeat' (first
      | with_reducible first
        | assumption | apply K.issueS h_all)

theorem execH32Sh {pset : List Part} {z0 t0 : State} {c : Fin 50} {s : State} (h_all : ∀ p : Part, p ≠ .falls → p
    ∈ pset) (hk : Keeps pset z0 s) (he : Machine.execH32Sh c s = .next t0) : Keeps pset z0 t0 := by
  unfold Machine.execH32Sh at he
  cases he
  all_goals
    repeat' (first
      | with_reducible first
        | assumption | apply K.issueS h_all)

theorem execH32Sb {pset : List Part} {z0 t0 : State} {c : Fin 50} {s : State} (h_all : ∀ p : Part, p ≠ .falls → p
    ∈ pset) (hk : Keeps pset z0 s) (he : Machine.execH32Sb c s = .next t0) : Keeps pset z0 t0 := by
  unfold Machine.execH32Sb at he
  cases he
  all_goals
    repeat' (first
      | with_reducible first
        | assumption | apply K.issueS h_all)

theorem execH32Swpi {pset : List Part} {z0 t0 : State} {c : Fin 50} {s : State} (h_all : ∀ p : Part, p ≠ .falls →
    p ∈ pset) (hk : Keeps pset z0 s) (he : Machine.execH32Swpi c s = .next t0) : Keeps pset z0 t0 := by
  unfold Machine.execH32Swpi at he
  cases he
  all_goals
    repeat' (first
      | with_reducible first
        | assumption | apply K.issueS h_all)

theorem execFarLoadData {pset : List Part} {z0 t0 : State} {c : Fin 50} {s : State} (h_regs : Part.regs ∈ pset)
    (h_free : Part.free ∈ pset) (h_outs : Part.outs ∈ pset) (h_resp : Part.resp ∈ pset) (h_intc : Part.intc ∈ pset)
    (h_fiq : Part.fiq ∈ pset) (h_aq : Part.aq ∈ pset) (h_time : Part.time ∈ pset) (h_cores : Part.cores ∈ pset) (h_mgt
    : Part.mgt ∈ pset) (hk : Keeps pset z0 s) (he : Machine.execFarLoadData c s = .next t0) : Keeps pset z0 t0 := by
  unfold Machine.execFarLoadData at he
  cases he
  all_goals
    repeat' (first
      | with_reducible first
        | assumption | apply K.farData h_regs h_free h_outs h_resp h_intc h_fiq h_aq h_time h_cores h_mgt)

theorem execH32Beq {pset : List Part} {z0 t0 : State} {c : Fin 50} {s : State} (h_cnts : Part.cnts ∈ pset) (h_free
    : Part.free ∈ pset) (h_cores : Part.cores ∈ pset) (hk : Keeps pset z0 s) (he : Machine.execH32Beq c s = .next t0)
    : Keeps pset z0 t0 := by
  unfold Machine.execH32Beq at he
  cases he
  all_goals
    repeat' (first
      | with_reducible first
        | assumption | apply K.issueB h_cnts h_free h_cores
      | intro _ _)

theorem execH32Bne {pset : List Part} {z0 t0 : State} {c : Fin 50} {s : State} (h_cnts : Part.cnts ∈ pset) (h_free
    : Part.free ∈ pset) (h_cores : Part.cores ∈ pset) (hk : Keeps pset z0 s) (he : Machine.execH32Bne c s = .next t0)
    : Keeps pset z0 t0 := by
  unfold Machine.execH32Bne at he
  cases he
  all_goals
    repeat' (first
      | with_reducible first
        | assumption | apply K.issueB h_cnts h_free h_cores
      | intro _ _)

theorem execH32Blt {pset : List Part} {z0 t0 : State} {c : Fin 50} {s : State} (h_cnts : Part.cnts ∈ pset) (h_free
    : Part.free ∈ pset) (h_cores : Part.cores ∈ pset) (hk : Keeps pset z0 s) (he : Machine.execH32Blt c s = .next t0)
    : Keeps pset z0 t0 := by
  unfold Machine.execH32Blt at he
  cases he
  all_goals
    repeat' (first
      | with_reducible first
        | assumption | apply K.issueB h_cnts h_free h_cores
      | intro _ _)

theorem execH32Bge {pset : List Part} {z0 t0 : State} {c : Fin 50} {s : State} (h_cnts : Part.cnts ∈ pset) (h_free
    : Part.free ∈ pset) (h_cores : Part.cores ∈ pset) (hk : Keeps pset z0 s) (he : Machine.execH32Bge c s = .next t0)
    : Keeps pset z0 t0 := by
  unfold Machine.execH32Bge at he
  cases he
  all_goals
    repeat' (first
      | with_reducible first
        | assumption | apply K.issueB h_cnts h_free h_cores
      | intro _ _)

theorem execH32Bltu {pset : List Part} {z0 t0 : State} {c : Fin 50} {s : State} (h_cnts : Part.cnts ∈ pset)
    (h_free : Part.free ∈ pset) (h_cores : Part.cores ∈ pset) (hk : Keeps pset z0 s) (he : Machine.execH32Bltu c s =
    .next t0) : Keeps pset z0 t0 := by
  unfold Machine.execH32Bltu at he
  cases he
  all_goals
    repeat' (first
      | with_reducible first
        | assumption | apply K.issueB h_cnts h_free h_cores
      | intro _ _)

theorem execH32Bgeu {pset : List Part} {z0 t0 : State} {c : Fin 50} {s : State} (h_cnts : Part.cnts ∈ pset)
    (h_free : Part.free ∈ pset) (h_cores : Part.cores ∈ pset) (hk : Keeps pset z0 s) (he : Machine.execH32Bgeu c s =
    .next t0) : Keeps pset z0 t0 := by
  unfold Machine.execH32Bgeu at he
  cases he
  all_goals
    repeat' (first
      | with_reducible first
        | assumption | apply K.issueB h_cnts h_free h_cores
      | intro _ _)

theorem execH32Jal {pset : List Part} {z0 t0 : State} {c : Fin 50} {s : State} (h_cnts : Part.cnts ∈ pset) (h_free
    : Part.free ∈ pset) (h_cores : Part.cores ∈ pset) (hk : Keeps pset z0 s) (he : Machine.execH32Jal c s = .next t0)
    : Keeps pset z0 t0 := by
  unfold Machine.execH32Jal at he
  cases he
  all_goals
    repeat' (first
      | with_reducible first
        | assumption | apply K.coreSet h_cores | apply K.issue h_cnts h_free h_cores
      | intro _ _ | dsimp only)

theorem execH32Jalr {pset : List Part} {z0 t0 : State} {c : Fin 50} {s : State} (h_cnts : Part.cnts ∈ pset)
    (h_free : Part.free ∈ pset) (h_cores : Part.cores ∈ pset) (hk : Keeps pset z0 s) (he : Machine.execH32Jalr c s =
    .next t0) : Keeps pset z0 t0 := by
  unfold Machine.execH32Jalr at he
  cases he
  all_goals
    repeat' (first
      | with_reducible first
        | assumption | apply K.coreSet h_cores | apply K.issue h_cnts h_free h_cores
      | intro _ _ | dsimp only)

theorem execH32Rpt {pset : List Part} {z0 t0 : State} {c : Fin 50} {s : State} (h_cnts : Part.cnts ∈ pset) (h_free
    : Part.free ∈ pset) (h_cores : Part.cores ∈ pset) (hk : Keeps pset z0 s) (he : Machine.execH32Rpt c s = .next t0)
    : Keeps pset z0 t0 := by
  unfold Machine.execH32Rpt at he
  cases he
  all_goals
    repeat' (first
      | with_reducible first
        | assumption | apply K.issueP h_cnts h_free h_cores)

theorem execH32Rptu {pset : List Part} {z0 t0 : State} {c : Fin 50} {s : State} (h_cnts : Part.cnts ∈ pset)
    (h_free : Part.free ∈ pset) (h_cores : Part.cores ∈ pset) (hk : Keeps pset z0 s) (he : Machine.execH32Rptu c s =
    .next t0) : Keeps pset z0 t0 := by
  unfold Machine.execH32Rptu at he
  cases he
  all_goals
    repeat' (first
      | with_reducible first
        | assumption | apply K.issueP h_cnts h_free h_cores)

theorem execH32Wfe {pset : List Part} {z0 t0 : State} {c : Fin 50} {s : State} (h_cnts : Part.cnts ∈ pset) (h_free
    : Part.free ∈ pset) (h_cores : Part.cores ∈ pset) (hk : Keeps pset z0 s) (he : Machine.execH32Wfe c s = .next t0)
    : Keeps pset z0 t0 := by
  unfold Machine.execH32Wfe at he
  cases he
  all_goals
    repeat' (first
      | with_reducible first
        | assumption | apply K.coreSet h_cores | apply K.issue h_cnts h_free h_cores | apply K.waitBegin h_cores
        | refine Keeps.ite (fun _ => ?_) (fun _ => ?_)
      | intro _ _ | dsimp only | split)

theorem execH32Wfet {pset : List Part} {z0 t0 : State} {c : Fin 50} {s : State} (h_cnts : Part.cnts ∈ pset)
    (h_free : Part.free ∈ pset) (h_cores : Part.cores ∈ pset) (hk : Keeps pset z0 s) (he : Machine.execH32Wfet c s =
    .next t0) : Keeps pset z0 t0 := by
  unfold Machine.execH32Wfet at he
  cases he
  all_goals
    repeat' (first
      | with_reducible first
        | assumption | apply K.issue h_cnts h_free h_cores | apply K.giveReg h_cores | apply K.waitBegin h_cores
        | refine Keeps.ite (fun _ => ?_) (fun _ => ?_)
      | intro _ _ | dsimp only | split)

theorem execH32Waitt {pset : List Part} {z0 t0 : State} {c : Fin 50} {s : State} (h_cnts : Part.cnts ∈ pset)
    (h_free : Part.free ∈ pset) (h_cores : Part.cores ∈ pset) (hk : Keeps pset z0 s) (he : Machine.execH32Waitt c s =
    .next t0) : Keeps pset z0 t0 := by
  unfold Machine.execH32Waitt at he
  cases he
  all_goals
    repeat' (first
      | with_reducible first
        | assumption | apply K.coreSet h_cores | apply K.issue h_cnts h_free h_cores | apply K.waitBegin h_cores
        | refine Keeps.ite (fun _ => ?_) (fun _ => ?_)
      | intro _ _ | dsimp only | split)

theorem execWaitEnd {pset : List Part} {z0 t0 : State} {c : Fin 50} {s : State} (h_cnts : Part.cnts ∈ pset) (h_sys
    : Part.sys ∈ pset) (h_time : Part.time ∈ pset) (h_cores : Part.cores ∈ pset) (h_pwr : Part.pwr ∈ pset) (hk : Keeps
    pset z0 s) (he : Machine.execWaitEnd c s = .next t0) : Keeps pset z0 t0 := by
  unfold Machine.execWaitEnd at he
  cases he
  all_goals
    repeat' (first
      | with_reducible first
        | assumption | apply K.waitOver h_cnts h_sys h_time h_cores h_pwr)

theorem execH32Sev {pset : List Part} {z0 t0 : State} {c : Fin 50} {s : State} (h_regs : Part.regs ∈ pset) (h_cnts
    : Part.cnts ∈ pset) (h_free : Part.free ∈ pset) (h_cores : Part.cores ∈ pset) (hk : Keeps pset z0 s) (he :
    Machine.execH32Sev c s = .next t0) : Keeps pset z0 t0 := by
  unfold Machine.execH32Sev at he
  cases he
  all_goals
    repeat' (first
      | with_reducible first
        | assumption | apply K.raiseEvent h_regs | apply K.coreSet h_cores | apply K.issue h_cnts h_free h_cores
        | refine Keeps.ite (fun _ => ?_) (fun _ => ?_)
      | intro _ _ | dsimp only | split)

theorem execH32Eret {pset : List Part} {z0 t0 : State} {c : Fin 50} {s : State} (h_cnts : Part.cnts ∈ pset)
    (h_free : Part.free ∈ pset) (h_cores : Part.cores ∈ pset) (hk : Keeps pset z0 s) (he : Machine.execH32Eret c s =
    .next t0) : Keeps pset z0 t0 := by
  unfold Machine.execH32Eret at he
  cases he
  all_goals
    repeat' (first
      | with_reducible first
        | assumption | apply K.coreSet h_cores | apply K.issue h_cnts h_free h_cores
        | refine Keeps.ite (fun _ => ?_) (fun _ => ?_)
      | intro _ _ | dsimp only | split)

theorem execH32Ecall {pset : List Part} {z0 t0 : State} {c : Fin 50} {s : State} (h_cnts : Part.cnts ∈ pset)
    (h_free : Part.free ∈ pset) (h_cores : Part.cores ∈ pset) (hk : Keeps pset z0 s) (he : Machine.execH32Ecall c s =
    .next t0) : Keeps pset z0 t0 := by
  unfold Machine.execH32Ecall at he
  cases he
  all_goals
    repeat' (first
      | with_reducible first
        | assumption | apply K.issue h_cnts h_free h_cores
      | intro _ _ | dsimp only)

theorem execH32Ebreak {pset : List Part} {z0 t0 : State} {c : Fin 50} {s : State} (h_cnts : Part.cnts ∈ pset)
    (h_free : Part.free ∈ pset) (h_cores : Part.cores ∈ pset) (hk : Keeps pset z0 s) (he : Machine.execH32Ebreak c s =
    .next t0) : Keeps pset z0 t0 := by
  unfold Machine.execH32Ebreak at he
  cases he
  all_goals
    repeat' (first
      | with_reducible first
        | assumption | apply K.coreSet h_cores | apply K.issue h_cnts h_free h_cores
      | intro _ _ | dsimp only)

theorem execH32Csrr {pset : List Part} {z0 t0 : State} {c : Fin 50} {s : State} (h_cnts : Part.cnts ∈ pset)
    (h_free : Part.free ∈ pset) (h_cores : Part.cores ∈ pset) (hk : Keeps pset z0 s) (he : Machine.execH32Csrr c s =
    .next t0) : Keeps pset z0 t0 := by
  unfold Machine.execH32Csrr at he
  cases he
  all_goals
    repeat' (first
      | with_reducible first
        | assumption | apply K.issueC h_cnts h_free h_cores
      | intro _ _)

theorem execH32Csrw {pset : List Part} {z0 t0 : State} {c : Fin 50} {s : State} (h_cnts : Part.cnts ∈ pset)
    (h_free : Part.free ∈ pset) (h_cores : Part.cores ∈ pset) (hk : Keeps pset z0 s) (he : Machine.execH32Csrw c s =
    .next t0) : Keeps pset z0 t0 := by
  unfold Machine.execH32Csrw at he
  cases he
  all_goals
    repeat' (first
      | with_reducible first
        | assumption | apply K.issueC h_cnts h_free h_cores
      | intro _ _)

theorem execH32Csrs {pset : List Part} {z0 t0 : State} {c : Fin 50} {s : State} (h_cnts : Part.cnts ∈ pset)
    (h_free : Part.free ∈ pset) (h_cores : Part.cores ∈ pset) (hk : Keeps pset z0 s) (he : Machine.execH32Csrs c s =
    .next t0) : Keeps pset z0 t0 := by
  unfold Machine.execH32Csrs at he
  cases he
  all_goals
    repeat' (first
      | with_reducible first
        | assumption | apply K.issueC h_cnts h_free h_cores
      | intro _ _)

theorem execH32Csrc {pset : List Part} {z0 t0 : State} {c : Fin 50} {s : State} (h_cnts : Part.cnts ∈ pset)
    (h_free : Part.free ∈ pset) (h_cores : Part.cores ∈ pset) (hk : Keeps pset z0 s) (he : Machine.execH32Csrc c s =
    .next t0) : Keeps pset z0 t0 := by
  unfold Machine.execH32Csrc at he
  cases he
  all_goals
    repeat' (first
      | with_reducible first
        | assumption | apply K.issueC h_cnts h_free h_cores
      | intro _ _)

theorem execExceptionEntry {pset : List Part} {z0 t0 : State} {c : Fin 50} {ecc : Option Word} {s : State} (h_free
    : Part.free ∈ pset) (h_cores : Part.cores ∈ pset) (hk : Keeps pset z0 s) (he : Machine.execExceptionEntry c ecc s
    = .next t0) : Keeps pset z0 t0 := by
  unfold Machine.execExceptionEntry at he
  cases he
  all_goals
    repeat' (first
      | with_reducible first
        | assumption | apply K.coreSet h_cores | refine K.atBoundary h_free (by assumption) ?_
      | dsimp only | split | refine Keeps.ofFst (by with_reducible assumption) ?_
      | refine Keeps.ofSnd (by with_reducible assumption) ?_)

theorem execInterruptEntry {pset : List Part} {z0 t0 : State} {c : Fin 50} {s : State} (h_cores : Part.cores ∈
    pset) (hk : Keeps pset z0 s) (he : Machine.execInterruptEntry c s = .next t0) : Keeps pset z0 t0 := by
  unfold Machine.execInterruptEntry at he
  cases he
  all_goals
    repeat' (first
      | with_reducible first
        | assumption | apply K.coreSet h_cores | refine Keeps.ite (fun _ => ?_) (fun _ => ?_)
      | dsimp only | split)

theorem execStoreAsync {pset : List Part} {z0 t0 : State} {c : Fin 50} {s : State} (h_cores : Part.cores ∈ pset)
    (hk : Keeps pset z0 s) (he : Machine.execStoreAsync c s = .next t0) : Keeps pset z0 t0 := by
  unfold Machine.execStoreAsync at he
  cases he
  all_goals
    repeat' (first
      | with_reducible first
        | assumption | apply K.coreSet h_cores | refine Keeps.ite (fun _ => ?_) (fun _ => ?_)
      | dsimp only | split)

theorem execCoreWdtKick {pset : List Part} {z0 t0 : State} {c : Fin 50} {s : State} (h_cnts : Part.cnts ∈ pset)
    (h_free : Part.free ∈ pset) (h_cores : Part.cores ∈ pset) (hk : Keeps pset z0 s) (he : Machine.execCoreWdtKick c s
    = .next t0) : Keeps pset z0 t0 := by
  unfold Machine.execCoreWdtKick at he
  cases he
  all_goals
    repeat' (first
      | with_reducible first
        | assumption | apply K.coreSet h_cores | apply K.issue h_cnts h_free h_cores
        | refine Keeps.ite (fun _ => ?_) (fun _ => ?_)
      | intro _ _ | dsimp only | split)

theorem execBankCtrlWrite {pset : List Part} {z0 t0 : State} {m : Master} {b : Fin 512} {v : Word} {s : State}
    (h_regs : Part.regs ∈ pset) (h_mem : Part.mem ∈ pset) (h_outs : Part.outs ∈ pset) (h_resp : Part.resp ∈ pset)
    (h_intc : Part.intc ∈ pset) (h_sw : Part.sw ∈ pset) (h_bnk : Part.bnk ∈ pset) (hk : Keeps pset z0 s) (he :
    Machine.execBankCtrlWrite m b v s = .next t0) : Keeps pset z0 t0 := by
  unfold Machine.execBankCtrlWrite at he
  cases he
  all_goals
    repeat' (first
      | with_reducible first
        | assumption | apply K.gatedWrite h_regs h_outs h_resp h_intc
        | apply K.bankCtrl h_regs h_mem h_outs h_intc h_sw h_bnk
      | intro _ _ | dsimp only)

theorem execDrainComplete {pset : List Part} {z0 t0 : State} {b : Fin 512} {s : State} (h_regs : Part.regs ∈ pset)
    (h_mem : Part.mem ∈ pset) (h_outs : Part.outs ∈ pset) (h_intc : Part.intc ∈ pset) (h_sw : Part.sw ∈ pset) (h_bnk :
    Part.bnk ∈ pset) (hk : Keeps pset z0 s) (he : Machine.execDrainComplete b s = .next t0) : Keeps pset z0 t0 := by
  unfold Machine.execDrainComplete at he
  cases he
  all_goals
    repeat' (first
      | with_reducible first
        | assumption | apply K.drainDone h_regs h_mem h_outs h_intc h_sw h_bnk)

theorem execZeroingComplete {pset : List Part} {z0 t0 : State} {b : Fin 512} {s : State} (h_regs : Part.regs ∈
    pset) (h_mem : Part.mem ∈ pset) (h_outs : Part.outs ∈ pset) (h_intc : Part.intc ∈ pset) (h_sw : Part.sw ∈ pset)
    (h_bnk : Part.bnk ∈ pset) (hk : Keeps pset z0 s) (he : Machine.execZeroingComplete b s = .next t0) : Keeps pset z0
    t0 := by
  unfold Machine.execZeroingComplete at he
  cases he
  all_goals
    repeat' (first
      | with_reducible first
        | assumption | apply K.zeroingDone h_regs h_mem h_outs h_intc h_sw h_bnk)

theorem execBankPowerRequest {pset : List Part} {z0 t0 : State} {m : Master} {b : Fin 512} {pwr : BitVec 2} {s :
    State} (h_regs : Part.regs ∈ pset) (h_mem : Part.mem ∈ pset) (h_outs : Part.outs ∈ pset) (h_resp : Part.resp ∈
    pset) (h_intc : Part.intc ∈ pset) (h_sw : Part.sw ∈ pset) (h_bnk : Part.bnk ∈ pset) (hk : Keeps pset z0 s) (he :
    Machine.execBankPowerRequest m b pwr s = .next t0) : Keeps pset z0 t0 := by
  unfold Machine.execBankPowerRequest at he
  cases he
  all_goals
    repeat' (first
      | with_reducible first
        | assumption | apply K.gatedWrite h_regs h_outs h_resp h_intc
        | apply K.bankPower h_regs h_mem h_outs h_intc h_sw h_bnk
      | intro _ _ | dsimp only)

theorem execBankWakeComplete {pset : List Part} {z0 t0 : State} {b : Fin 512} {s : State} (h_regs : Part.regs ∈
    pset) (h_mem : Part.mem ∈ pset) (h_bnk : Part.bnk ∈ pset) (hk : Keeps pset z0 s) (he :
    Machine.execBankWakeComplete b s = .next t0) : Keeps pset z0 t0 := by
  unfold Machine.execBankWakeComplete at he
  cases he
  all_goals
    repeat' (first
      | with_reducible first
        | assumption | apply K.bankWakeDone h_regs h_mem h_bnk)

theorem execReplace {pset : List Part} {z0 t0 : State} {m : Master} {v : Word} {s : State} (h_regs : Part.regs ∈
    pset) (h_mem : Part.mem ∈ pset) (h_outs : Part.outs ∈ pset) (h_resp : Part.resp ∈ pset) (h_intc : Part.intc ∈
    pset) (h_vlt : Part.vlt ∈ pset) (h_bnk : Part.bnk ∈ pset) (hk : Keeps pset z0 s) (he : Machine.execReplace m v s =
    .next t0) : Keeps pset z0 t0 := by
  unfold Machine.execReplace at he
  cases he
  all_goals
    repeat' (first
      | with_reducible first
        | assumption | apply K.gatedWrite h_regs h_outs h_resp h_intc
        | apply K.bnkCmd h_regs h_mem h_outs h_intc h_vlt h_bnk
      | intro _ _ | dsimp only)

theorem execScrubBank {pset : List Part} {z0 t0 : State} {m : Master} {v : Word} {s : State} (h_regs : Part.regs ∈
    pset) (h_mem : Part.mem ∈ pset) (h_outs : Part.outs ∈ pset) (h_resp : Part.resp ∈ pset) (h_intc : Part.intc ∈
    pset) (h_vlt : Part.vlt ∈ pset) (h_bnk : Part.bnk ∈ pset) (hk : Keeps pset z0 s) (he : Machine.execScrubBank m v s
    = .next t0) : Keeps pset z0 t0 := by
  unfold Machine.execScrubBank at he
  cases he
  all_goals
    repeat' (first
      | with_reducible first
        | assumption | apply K.gatedWrite h_regs h_outs h_resp h_intc
        | apply K.bnkCmd h_regs h_mem h_outs h_intc h_vlt h_bnk
      | intro _ _ | dsimp only)

theorem execScrubRow {pset : List Part} {z0 t0 : State} {b : Fin 512} {row : Fin 8192} {lo : EccKind} {hi :
    EccKind} {s : State} (h_regs : Part.regs ∈ pset) (h_cnts : Part.cnts ∈ pset) (h_outs : Part.outs ∈ pset) (h_intc :
    Part.intc ∈ pset) (h_vlt : Part.vlt ∈ pset) (h_bnk : Part.bnk ∈ pset) (hk : Keeps pset z0 s) (he :
    Machine.execScrubRow b row lo hi s = .next t0) : Keeps pset z0 t0 := by
  unfold Machine.execScrubRow at he
  cases he
  all_goals
    repeat' (first
      | with_reducible first
        | assumption | apply K.scrubStep h_regs h_cnts h_outs h_intc h_vlt h_bnk)

theorem execEccWriteback {pset : List Part} {z0 t0 : State} {s : State} (h_bnk : Part.bnk ∈ pset) (hk : Keeps pset
    z0 s) (he : Machine.execEccWriteback s = .next t0) : Keeps pset z0 t0 := by
  unfold Machine.execEccWriteback at he
  cases he
  all_goals
    repeat' (first
      | with_reducible first
        | assumption | apply K.writebackStep h_bnk)

theorem execCollide {pset : List Part} {z0 t0 : State} {a : Word} {mA : Master} {bytesA : List Byte} {mB : Master}
    {s : State} (h_regs : Part.regs ∈ pset) (h_cnts : Part.cnts ∈ pset) (h_mem : Part.mem ∈ pset) (h_outs : Part.outs
    ∈ pset) (h_intc : Part.intc ∈ pset) (h_bnk : Part.bnk ∈ pset) (h_eng : Part.eng ∈ pset) (h_cores : Part.cores ∈
    pset) (hk : Keeps pset z0 s) (he : Machine.execCollide a mA bytesA mB s = .next t0) : Keeps pset z0 t0 := by
  unfold Machine.execCollide at he
  cases he
  all_goals
    repeat' (first
      | with_reducible first
        | assumption | apply K.collideStep h_regs h_cnts h_mem h_outs h_intc h_bnk h_eng h_cores)

theorem execBankDenial {pset : List Part} {z0 t0 : State} {m : Master} {a : Word} {wnr : Bool} {s : State} (h_regs
    : Part.regs ∈ pset) (h_outs : Part.outs ∈ pset) (h_resp : Part.resp ∈ pset) (h_intc : Part.intc ∈ pset) (hk :
    Keeps pset z0 s) (he : Machine.execBankDenial m a wnr s = .next t0) : Keeps pset z0 t0 := by
  unfold Machine.execBankDenial at he
  cases he
  all_goals
    repeat' (first
      | with_reducible first
        | assumption | apply K.answer h_resp | apply K.answerErr h_resp | apply K.fabJudge h_regs h_outs h_intc
      | dsimp only | split | refine Keeps.ofFst (by with_reducible assumption) ?_
      | refine Keeps.ofSnd (by with_reducible assumption) ?_)

theorem execBnkDenyCountRead {pset : List Part} {z0 t0 : State} {m : Master} {s : State} (h_regs : Part.regs ∈
    pset) (h_outs : Part.outs ∈ pset) (h_resp : Part.resp ∈ pset) (h_intc : Part.intc ∈ pset) (hk : Keeps pset z0 s)
    (he : Machine.execBnkDenyCountRead m s = .next t0) : Keeps pset z0 t0 := by
  unfold Machine.execBnkDenyCountRead at he
  cases he
  all_goals
    repeat' (first
      | with_reducible first
        | assumption | apply K.setR h_regs | apply K.gatedRead h_regs h_outs h_resp h_intc
      | intro _ _ | dsimp only)

theorem execPerstAssert {pset : List Part} {z0 t0 : State} {why : HostLoss} {cut : List (Fin 32 × Nat)} {s :
    State} (h_regs : Part.regs ∈ pset) (h_cnts : Part.cnts ∈ pset) (h_mem : Part.mem ∈ pset) (h_outs : Part.outs ∈
    pset) (h_intc : Part.intc ∈ pset) (h_sw : Part.sw ∈ pset) (h_bnk : Part.bnk ∈ pset) (h_hif : Part.hif ∈ pset) (hk
    : Keeps pset z0 s) (he : Machine.execPerstAssert why cut s = .next t0) : Keeps pset z0 t0 := by
  unfold Machine.execPerstAssert at he
  cases he
  all_goals
    repeat' (first
      | with_reducible first
        | assumption | apply K.hostLoss h_regs h_cnts h_mem h_outs h_intc h_sw h_bnk h_hif
      | intro _ _ | dsimp only)

theorem execHostTxDescriptor {pset : List Part} {z0 t0 : State} {desc : List Byte} {buf : List Byte} {f :
    HostFetch} {s : State} (h_regs : Part.regs ∈ pset) (h_cnts : Part.cnts ∈ pset) (h_free : Part.free ∈ pset) (h_mem
    : Part.mem ∈ pset) (h_outs : Part.outs ∈ pset) (h_intc : Part.intc ∈ pset) (h_sw : Part.sw ∈ pset) (h_bnk :
    Part.bnk ∈ pset) (h_hif : Part.hif ∈ pset) (hk : Keeps pset z0 s) (he : Machine.execHostTxDescriptor desc buf f s
    = .next t0) : Keeps pset z0 t0 := by
  unfold Machine.execHostTxDescriptor at he
  cases he
  all_goals
    repeat' (first
      | with_reducible first
        | assumption | apply K.hostTx h_regs h_cnts h_free h_mem h_outs h_intc h_sw h_bnk h_hif)

theorem execHostRxFrame {pset : List Part} {z0 t0 : State} {descs : List (List Byte)} {f : HostFetch} {s : State}
    (h_regs : Part.regs ∈ pset) (h_cnts : Part.cnts ∈ pset) (h_free : Part.free ∈ pset) (h_mem : Part.mem ∈ pset)
    (h_outs : Part.outs ∈ pset) (h_intc : Part.intc ∈ pset) (h_sw : Part.sw ∈ pset) (h_gate : Part.gate ∈ pset) (h_vlt
    : Part.vlt ∈ pset) (h_bnk : Part.bnk ∈ pset) (h_hif : Part.hif ∈ pset) (hk : Keeps pset z0 s) (he :
    Machine.execHostRxFrame descs f s = .next t0) : Keeps pset z0 t0 := by
  unfold Machine.execHostRxFrame at he
  cases he
  all_goals
    repeat' (first
      | with_reducible first
        | assumption | apply K.hostRx h_regs h_cnts h_free h_mem h_outs h_intc h_sw h_gate h_vlt h_bnk h_hif)

theorem execTailWrite {pset : List Part} {z0 t0 : State} {m : Master} {r : Fin 32} {v : Word} {s : State} (h_regs
    : Part.regs ∈ pset) (h_outs : Part.outs ∈ pset) (h_resp : Part.resp ∈ pset) (h_intc : Part.intc ∈ pset) (h_hif :
    Part.hif ∈ pset) (hk : Keeps pset z0 s) (he : Machine.execTailWrite m r v s = .next t0) : Keeps pset z0 t0 := by
  unfold Machine.execTailWrite at he
  cases he
  all_goals
    repeat' (first
      | with_reducible first
        | assumption | apply K.gatedWrite h_regs h_outs h_resp h_intc | apply K.hifWrite h_regs h_outs h_intc h_hif
      | intro _ _ | dsimp only)

theorem execRingEnable {pset : List Part} {z0 t0 : State} {m : Master} {r : Fin 32} {v : Word} {s : State} (h_regs
    : Part.regs ∈ pset) (h_outs : Part.outs ∈ pset) (h_resp : Part.resp ∈ pset) (h_intc : Part.intc ∈ pset) (h_hif :
    Part.hif ∈ pset) (hk : Keeps pset z0 s) (he : Machine.execRingEnable m r v s = .next t0) : Keeps pset z0 t0 := by
  unfold Machine.execRingEnable at he
  cases he
  all_goals
    repeat' (first
      | with_reducible first
        | assumption | apply K.gatedWrite h_regs h_outs h_resp h_intc | apply K.hifWrite h_regs h_outs h_intc h_hif
      | intro _ _ | dsimp only)

theorem execRingStop {pset : List Part} {z0 t0 : State} {m : Master} {r : Fin 32} {v : Word} {s : State} (h_regs :
    Part.regs ∈ pset) (h_outs : Part.outs ∈ pset) (h_resp : Part.resp ∈ pset) (h_intc : Part.intc ∈ pset) (h_hif :
    Part.hif ∈ pset) (hk : Keeps pset z0 s) (he : Machine.execRingStop m r v s = .next t0) : Keeps pset z0 t0 := by
  unfold Machine.execRingStop at he
  cases he
  all_goals
    repeat' (first
      | with_reducible first
        | assumption | apply K.gatedWrite h_regs h_outs h_resp h_intc | apply K.hifWrite h_regs h_outs h_intc h_hif
      | intro _ _ | dsimp only)

theorem execModUsExpiry {pset : List Part} {z0 t0 : State} {r : Fin 32} {s : State} (h_regs : Part.regs ∈ pset)
    (h_cnts : Part.cnts ∈ pset) (h_outs : Part.outs ∈ pset) (h_intc : Part.intc ∈ pset) (h_sys : Part.sys ∈ pset)
    (h_time : Part.time ∈ pset) (h_pwr : Part.pwr ∈ pset) (hk : Keeps pset z0 s) (he : Machine.execModUsExpiry r s =
    .next t0) : Keeps pset z0 t0 := by
  unfold Machine.execModUsExpiry at he
  cases he
  all_goals
    repeat' (first
      | with_reducible first
        | assumption | apply K.modExpiry h_regs h_cnts h_outs h_intc h_sys h_time h_pwr)

theorem execFifoDataRead {pset : List Part} {z0 t0 : State} {m : Master} {f : Fin 64} {s : State} (h_regs :
    Part.regs ∈ pset) (h_outs : Part.outs ∈ pset) (h_resp : Part.resp ∈ pset) (h_intc : Part.intc ∈ pset) (h_fiq :
    Part.fiq ∈ pset) (hk : Keeps pset z0 s) (he : Machine.execFifoDataRead m f s = .next t0) : Keeps pset z0 t0 := by
  unfold Machine.execFifoDataRead at he
  cases he
  all_goals
    repeat' (first
      | with_reducible first
        | assumption | apply K.gatedRead h_regs h_outs h_resp h_intc | apply K.fiqPop h_regs h_fiq
      | intro _ _ | dsimp only)

theorem execFifoFlush {pset : List Part} {z0 t0 : State} {m : Master} {f : Fin 64} {v : Word} {s : State} (h_regs
    : Part.regs ∈ pset) (h_outs : Part.outs ∈ pset) (h_resp : Part.resp ∈ pset) (h_intc : Part.intc ∈ pset) (h_fiq :
    Part.fiq ∈ pset) (hk : Keeps pset z0 s) (he : Machine.execFifoFlush m f v s = .next t0) : Keeps pset z0 t0 := by
  unfold Machine.execFifoFlush at he
  cases he
  all_goals
    repeat' (first
      | with_reducible first
        | assumption | apply K.gatedWrite h_regs h_outs h_resp h_intc | apply K.fiqCfg h_regs h_outs h_intc h_fiq
      | intro _ _ | dsimp only)

theorem execAqPost {pset : List Part} {z0 t0 : State} {m : Master} {a : Fin 16} {v : Word} {s : State} (h_regs :
    Part.regs ∈ pset) (h_cnts : Part.cnts ∈ pset) (h_outs : Part.outs ∈ pset) (h_resp : Part.resp ∈ pset) (h_intc :
    Part.intc ∈ pset) (h_aq : Part.aq ∈ pset) (hk : Keeps pset z0 s) (he : Machine.execAqPost m a v s = .next t0) :
    Keeps pset z0 t0 := by
  unfold Machine.execAqPost at he
  cases he
  all_goals
    repeat' (first
      | with_reducible first
        | assumption | apply K.gatedWrite h_regs h_outs h_resp h_intc
        | apply K.aqPost h_regs h_cnts h_outs h_intc h_aq
      | intro _ _ | dsimp only)

theorem execAqRead {pset : List Part} {z0 t0 : State} {m : Master} {a : Fin 16} {s : State} (h_regs : Part.regs ∈
    pset) (h_outs : Part.outs ∈ pset) (h_resp : Part.resp ∈ pset) (h_intc : Part.intc ∈ pset) (h_aq : Part.aq ∈ pset)
    (hk : Keeps pset z0 s) (he : Machine.execAqRead m a s = .next t0) : Keeps pset z0 t0 := by
  unfold Machine.execAqRead at he
  cases he
  all_goals
    repeat' (first
      | with_reducible first
        | assumption | apply K.gatedRead h_regs h_outs h_resp h_intc | apply K.aqRead h_regs h_outs h_intc h_aq
      | intro _ _ | dsimp only)

theorem execAqFlush {pset : List Part} {z0 t0 : State} {m : Master} {a : Fin 16} {v : Word} {s : State} (h_regs :
    Part.regs ∈ pset) (h_outs : Part.outs ∈ pset) (h_resp : Part.resp ∈ pset) (h_intc : Part.intc ∈ pset) (h_aq :
    Part.aq ∈ pset) (hk : Keeps pset z0 s) (he : Machine.execAqFlush m a v s = .next t0) : Keeps pset z0 t0 := by
  unfold Machine.execAqFlush at he
  cases he
  all_goals
    repeat' (first
      | with_reducible first
        | assumption | apply K.gatedWrite h_regs h_outs h_resp h_intc | apply K.aqSet h_regs h_outs h_intc h_aq
        | refine Keeps.ite (fun _ => ?_) (fun _ => ?_)
      | intro _ _ | dsimp only | split)

theorem execLockRead {pset : List Part} {z0 t0 : State} {m : Master} {k : Fin 128} {s : State} (h_regs : Part.regs
    ∈ pset) (h_outs : Part.outs ∈ pset) (h_resp : Part.resp ∈ pset) (h_intc : Part.intc ∈ pset) (hk : Keeps pset z0 s)
    (he : Machine.execLockRead m k s = .next t0) : Keeps pset z0 t0 := by
  unfold Machine.execLockRead at he
  cases he
  all_goals
    repeat' (first
      | with_reducible first
        | assumption | apply K.gatedRead h_regs h_outs h_resp h_intc | apply K.lockRead h_regs
      | intro _ _ | dsimp only)

theorem execLockRelease {pset : List Part} {z0 t0 : State} {m : Master} {k : Fin 128} {v : Word} {s : State}
    (h_regs : Part.regs ∈ pset) (h_outs : Part.outs ∈ pset) (h_resp : Part.resp ∈ pset) (h_intc : Part.intc ∈ pset)
    (hk : Keeps pset z0 s) (he : Machine.execLockRelease m k v s = .next t0) : Keeps pset z0 t0 := by
  unfold Machine.execLockRelease at he
  cases he
  all_goals
    repeat' (first
      | with_reducible first
        | assumption | apply K.gatedWrite h_regs h_outs h_resp h_intc | apply K.lockWrite h_regs h_outs h_intc
      | intro _ _ | dsimp only)

theorem execForceRelease {pset : List Part} {z0 t0 : State} {m : Master} {v : Word} {s : State} (h_regs :
    Part.regs ∈ pset) (h_outs : Part.outs ∈ pset) (h_resp : Part.resp ∈ pset) (h_intc : Part.intc ∈ pset) (hk : Keeps
    pset z0 s) (he : Machine.execForceRelease m v s = .next t0) : Keeps pset z0 t0 := by
  unfold Machine.execForceRelease at he
  cases he
  all_goals
    repeat' (first
      | with_reducible first
        | assumption | apply K.gatedWrite h_regs h_outs h_resp h_intc | apply K.lockForce h_regs h_outs h_intc
      | intro _ _ | dsimp only)

theorem execMbxLockRead {pset : List Part} {z0 t0 : State} {m : Master} {k : Fin 64} {s : State} (h_regs :
    Part.regs ∈ pset) (h_outs : Part.outs ∈ pset) (h_resp : Part.resp ∈ pset) (h_intc : Part.intc ∈ pset) (hk : Keeps
    pset z0 s) (he : Machine.execMbxLockRead m k s = .next t0) : Keeps pset z0 t0 := by
  unfold Machine.execMbxLockRead at he
  cases he
  all_goals
    repeat' (first
      | with_reducible first
        | assumption | apply K.gatedRead h_regs h_outs h_resp h_intc | apply K.mbxLockRead h_regs
      | intro _ _ | dsimp only)

theorem execMbxLockRelease {pset : List Part} {z0 t0 : State} {m : Master} {k : Fin 64} {v : Word} {s : State}
    (h_regs : Part.regs ∈ pset) (h_outs : Part.outs ∈ pset) (h_resp : Part.resp ∈ pset) (h_intc : Part.intc ∈ pset)
    (hk : Keeps pset z0 s) (he : Machine.execMbxLockRelease m k v s = .next t0) : Keeps pset z0 t0 := by
  unfold Machine.execMbxLockRelease at he
  cases he
  all_goals
    repeat' (first
      | with_reducible first
        | assumption | apply K.gatedWrite h_regs h_outs h_resp h_intc | apply K.mbxLockWrite h_regs h_outs h_intc
      | intro _ _ | dsimp only)

theorem execMbxSend {pset : List Part} {z0 t0 : State} {m : Master} {k : Fin 64} {v : Word} {s : State} (h_regs :
    Part.regs ∈ pset) (h_outs : Part.outs ∈ pset) (h_resp : Part.resp ∈ pset) (h_intc : Part.intc ∈ pset) (h_sys :
    Part.sys ∈ pset) (h_mbx : Part.mbx ∈ pset) (h_pwr : Part.pwr ∈ pset) (hk : Keeps pset z0 s) (he :
    Machine.execMbxSend m k v s = .next t0) : Keeps pset z0 t0 := by
  unfold Machine.execMbxSend at he
  cases he
  all_goals
    repeat' (first
      | with_reducible first
        | assumption | apply K.gatedWrite h_regs h_outs h_resp h_intc
        | apply K.mbxSend h_regs h_outs h_intc h_sys h_mbx h_pwr
      | intro _ _ | dsimp only)

theorem execMbxAck {pset : List Part} {z0 t0 : State} {m : Master} {k : Fin 64} {v : Word} {s : State} (h_regs :
    Part.regs ∈ pset) (h_outs : Part.outs ∈ pset) (h_resp : Part.resp ∈ pset) (h_intc : Part.intc ∈ pset) (hk : Keeps
    pset z0 s) (he : Machine.execMbxAck m k v s = .next t0) : Keeps pset z0 t0 := by
  unfold Machine.execMbxAck at he
  cases he
  all_goals
    repeat' (first
      | with_reducible first
        | assumption | apply K.gatedWrite h_regs h_outs h_resp h_intc | apply K.mbxAck h_regs h_outs h_intc
      | intro _ _ | dsimp only)

theorem execMbxReset {pset : List Part} {z0 t0 : State} {m : Master} {k : Fin 64} {v : Word} {s : State} (h_regs :
    Part.regs ∈ pset) (h_outs : Part.outs ∈ pset) (h_resp : Part.resp ∈ pset) (h_intc : Part.intc ∈ pset) (hk : Keeps
    pset z0 s) (he : Machine.execMbxReset m k v s = .next t0) : Keeps pset z0 t0 := by
  unfold Machine.execMbxReset at he
  cases he
  all_goals
    repeat' (first
      | with_reducible first
        | assumption | apply K.gatedWrite h_regs h_outs h_resp h_intc | apply K.mbxResetCmd h_regs h_outs h_intc
      | intro _ _ | dsimp only)

theorem execRef10mLoss {pset : List Part} {z0 t0 : State} {s : State} (h_regs : Part.regs ∈ pset) (h_outs :
    Part.outs ∈ pset) (h_intc : Part.intc ∈ pset) (hk : Keeps pset z0 s) (he : Machine.execRef10mLoss s = .next t0) :
    Keeps pset z0 t0 := by
  unfold Machine.execRef10mLoss at he
  cases he
  all_goals
    repeat' (first
      | with_reducible first
        | assumption | apply K.refLoss h_regs h_outs h_intc)

theorem execRef10mRegain {pset : List Part} {z0 t0 : State} {s : State} (h_regs : Part.regs ∈ pset) (h_outs :
    Part.outs ∈ pset) (h_intc : Part.intc ∈ pset) (hk : Keeps pset z0 s) (he : Machine.execRef10mRegain s = .next t0)
    : Keeps pset z0 t0 := by
  unfold Machine.execRef10mRegain at he
  cases he
  all_goals
    repeat' (first
      | with_reducible first
        | assumption | apply K.refRegain h_regs h_outs h_intc)

theorem execRefCtrlWrite {pset : List Part} {z0 t0 : State} {m : Master} {v : Word} {s : State} (h_regs :
    Part.regs ∈ pset) (h_outs : Part.outs ∈ pset) (h_resp : Part.resp ∈ pset) (h_intc : Part.intc ∈ pset) (hk : Keeps
    pset z0 s) (he : Machine.execRefCtrlWrite m v s = .next t0) : Keeps pset z0 t0 := by
  unfold Machine.execRefCtrlWrite at he
  cases he
  all_goals
    repeat' (first
      | with_reducible first
        | assumption | apply K.gatedWrite h_regs h_outs h_resp h_intc | apply K.refCtrl h_regs h_outs h_intc
      | intro _ _ | dsimp only)

theorem execRateWrite {pset : List Part} {z0 t0 : State} {m : Master} {b : Fin 4} {v : Word} {s : State} (h_regs :
    Part.regs ∈ pset) (h_outs : Part.outs ∈ pset) (h_resp : Part.resp ∈ pset) (h_intc : Part.intc ∈ pset) (h_time :
    Part.time ∈ pset) (hk : Keeps pset z0 s) (he : Machine.execRateWrite m b v s = .next t0) : Keeps pset z0 t0 := by
  unfold Machine.execRateWrite at he
  cases he
  all_goals
    repeat' (first
      | with_reducible first
        | assumption | apply K.gatedWrite h_regs h_outs h_resp h_intc | apply K.tbGuarded h_regs h_outs h_intc
        | apply K.tbRate h_regs h_time
      | intro _ _ | dsimp only)

theorem execAdjSet {pset : List Part} {z0 t0 : State} {m : Master} {b : Fin 4} {s : State} (h_regs : Part.regs ∈
    pset) (h_outs : Part.outs ∈ pset) (h_resp : Part.resp ∈ pset) (h_intc : Part.intc ∈ pset) (h_sw : Part.sw ∈ pset)
    (h_time : Part.time ∈ pset) (hk : Keeps pset z0 s) (he : Machine.execAdjSet m b s = .next t0) : Keeps pset z0 t0
    := by
  unfold Machine.execAdjSet at he
  cases he
  all_goals
    repeat' (first
      | with_reducible first
        | assumption | apply K.gatedWrite h_regs h_outs h_resp h_intc | apply K.tbGuarded h_regs h_outs h_intc
        | apply K.adjSet h_regs h_outs h_intc h_sw h_time
      | intro _ _ | dsimp only)

theorem execAdjStep {pset : List Part} {z0 t0 : State} {m : Master} {b : Fin 4} {s : State} (h_regs : Part.regs ∈
    pset) (h_outs : Part.outs ∈ pset) (h_resp : Part.resp ∈ pset) (h_intc : Part.intc ∈ pset) (h_sw : Part.sw ∈ pset)
    (h_time : Part.time ∈ pset) (hk : Keeps pset z0 s) (he : Machine.execAdjStep m b s = .next t0) : Keeps pset z0 t0
    := by
  unfold Machine.execAdjStep at he
  cases he
  all_goals
    repeat' (first
      | with_reducible first
        | assumption | apply K.gatedWrite h_regs h_outs h_resp h_intc | apply K.tbGuarded h_regs h_outs h_intc
        | apply K.adjStep h_regs h_outs h_intc h_sw h_time
      | intro _ _ | dsimp only)

theorem execAdjSlew {pset : List Part} {z0 t0 : State} {m : Master} {b : Fin 4} {ppm : BitVec 10} {s : State}
    (h_regs : Part.regs ∈ pset) (h_outs : Part.outs ∈ pset) (h_resp : Part.resp ∈ pset) (h_intc : Part.intc ∈ pset)
    (h_time : Part.time ∈ pset) (hk : Keeps pset z0 s) (he : Machine.execAdjSlew m b ppm s = .next t0) : Keeps pset z0
    t0 := by
  unfold Machine.execAdjSlew at he
  cases he
  all_goals
    repeat' (first
      | with_reducible first
        | assumption | apply K.gatedWrite h_regs h_outs h_resp h_intc | apply K.tbGuarded h_regs h_outs h_intc
        | apply K.adjSlew h_regs h_time
      | intro _ _ | dsimp only)

theorem execAdjCancel {pset : List Part} {z0 t0 : State} {m : Master} {b : Fin 4} {s : State} (h_regs : Part.regs
    ∈ pset) (h_outs : Part.outs ∈ pset) (h_resp : Part.resp ∈ pset) (h_intc : Part.intc ∈ pset) (h_time : Part.time ∈
    pset) (hk : Keeps pset z0 s) (he : Machine.execAdjCancel m b s = .next t0) : Keeps pset z0 t0 := by
  unfold Machine.execAdjCancel at he
  cases he
  all_goals
    repeat' (first
      | with_reducible first
        | assumption | apply K.gatedWrite h_regs h_outs h_resp h_intc | apply K.tbGuarded h_regs h_outs h_intc
        | apply K.adjCancel h_regs h_time
      | intro _ _ | dsimp only)

theorem execSlewComplete {pset : List Part} {z0 t0 : State} {b : Fin 4} {s : State} (h_cnts : Part.cnts ∈ pset)
    (h_sys : Part.sys ∈ pset) (h_time : Part.time ∈ pset) (h_pwr : Part.pwr ∈ pset) (hk : Keeps pset z0 s) (he :
    Machine.execSlewComplete b s = .next t0) : Keeps pset z0 t0 := by
  unfold Machine.execSlewComplete at he
  cases he
  all_goals
    repeat' (first
      | with_reducible first
        | assumption | apply K.advanceCycles h_cnts h_sys h_time h_pwr
        | refine Keeps.ite (fun _ => ?_) (fun _ => ?_)
      | dsimp only | split)

theorem execHoldLimitExpiry {pset : List Part} {z0 t0 : State} {b : Fin 4} {s : State} (h_regs : Part.regs ∈ pset)
    (h_cnts : Part.cnts ∈ pset) (h_outs : Part.outs ∈ pset) (h_intc : Part.intc ∈ pset) (h_sys : Part.sys ∈ pset)
    (h_vlt : Part.vlt ∈ pset) (h_time : Part.time ∈ pset) (h_pwr : Part.pwr ∈ pset) (hk : Keeps pset z0 s) (he :
    Machine.execHoldLimitExpiry b s = .next t0) : Keeps pset z0 t0 := by
  unfold Machine.execHoldLimitExpiry at he
  cases he
  all_goals
    repeat' (first
      | with_reducible first
        | assumption | apply K.holdExpiry h_regs h_cnts h_outs h_intc h_sys h_vlt h_time h_pwr)

theorem execTnsSnap {pset : List Part} {z0 t0 : State} {m : Master} {v : Word} {s : State} (h_regs : Part.regs ∈
    pset) (h_outs : Part.outs ∈ pset) (h_resp : Part.resp ∈ pset) (h_intc : Part.intc ∈ pset) (hk : Keeps pset z0 s)
    (he : Machine.execTnsSnap m v s = .next t0) : Keeps pset z0 t0 := by
  unfold Machine.execTnsSnap at he
  cases he
  all_goals
    repeat' (first
      | with_reducible first
        | assumption | apply K.gatedWrite h_regs h_outs h_resp h_intc | apply K.tnsSnap h_regs
        | refine Keeps.ite (fun _ => ?_) (fun _ => ?_)
      | intro _ _ | dsimp only | split)

theorem execTbNsRead {pset : List Part} {z0 t0 : State} {m : Master} {b : Fin 4} {s : State} (h_regs : Part.regs ∈
    pset) (h_outs : Part.outs ∈ pset) (h_resp : Part.resp ∈ pset) (h_intc : Part.intc ∈ pset) (hk : Keeps pset z0 s)
    (he : Machine.execTbNsRead m b s = .next t0) : Keeps pset z0 t0 := by
  unfold Machine.execTbNsRead at he
  cases he
  all_goals
    repeat' (first
      | with_reducible first
        | assumption | apply K.gatedRead h_regs h_outs h_resp h_intc | apply K.tbNsRead h_regs
      | intro _ _ | dsimp only)

theorem execCaptureEdge {pset : List Part} {z0 t0 : State} {i : Fin 10} {rising : Bool} {ph : BitVec 2} {s :
    State} (h_regs : Part.regs ∈ pset) (h_cnts : Part.cnts ∈ pset) (h_outs : Part.outs ∈ pset) (h_intc : Part.intc ∈
    pset) (h_time : Part.time ∈ pset) (hk : Keeps pset z0 s) (he : Machine.execCaptureEdge i rising ph s = .next t0) :
    Keeps pset z0 t0 := by
  unfold Machine.execCaptureEdge at he
  cases he
  all_goals
    repeat' (first
      | with_reducible first
        | assumption | apply K.captureEdge h_regs h_cnts h_outs h_intc h_time)

theorem execCapNsRead {pset : List Part} {z0 t0 : State} {m : Master} {i : Fin 10} {s : State} (h_regs : Part.regs
    ∈ pset) (h_outs : Part.outs ∈ pset) (h_resp : Part.resp ∈ pset) (h_intc : Part.intc ∈ pset) (h_time : Part.time ∈
    pset) (hk : Keeps pset z0 s) (he : Machine.execCapNsRead m i s = .next t0) : Keeps pset z0 t0 := by
  unfold Machine.execCapNsRead at he
  cases he
  all_goals
    repeat' (first
      | with_reducible first
        | assumption | apply K.gatedRead h_regs h_outs h_resp h_intc | apply K.capNsRead h_regs h_time
      | intro _ _ | dsimp only)

theorem execTsrLostRead {pset : List Part} {z0 t0 : State} {m : Master} {s : State} (h_regs : Part.regs ∈ pset)
    (h_outs : Part.outs ∈ pset) (h_resp : Part.resp ∈ pset) (h_intc : Part.intc ∈ pset) (hk : Keeps pset z0 s) (he :
    Machine.execTsrLostRead m s = .next t0) : Keeps pset z0 t0 := by
  unfold Machine.execTsrLostRead at he
  cases he
  all_goals
    repeat' (first
      | with_reducible first
        | assumption | apply K.setR h_regs | apply K.gatedRead h_regs h_outs h_resp h_intc
      | intro _ _ | dsimp only)

theorem execOutputArm {pset : List Part} {z0 t0 : State} {m : Master} {i : Fin 8} {v : Word} {s : State} (h_regs :
    Part.regs ∈ pset) (h_outs : Part.outs ∈ pset) (h_resp : Part.resp ∈ pset) (h_intc : Part.intc ∈ pset) (h_time :
    Part.time ∈ pset) (hk : Keeps pset z0 s) (he : Machine.execOutputArm m i v s = .next t0) : Keeps pset z0 t0 := by
  unfold Machine.execOutputArm at he
  cases he
  all_goals
    repeat' (first
      | with_reducible first
        | assumption | apply K.gatedWrite h_regs h_outs h_resp h_intc | apply K.outCtrl h_regs h_outs h_intc h_time
      | intro _ _ | dsimp only)

theorem execTimedOutputEvent {pset : List Part} {z0 t0 : State} {i : Fin 8} {s : State} (h_regs : Part.regs ∈
    pset) (h_cnts : Part.cnts ∈ pset) (h_outs : Part.outs ∈ pset) (h_intc : Part.intc ∈ pset) (h_sys : Part.sys ∈
    pset) (h_time : Part.time ∈ pset) (h_pwr : Part.pwr ∈ pset) (hk : Keeps pset z0 s) (he :
    Machine.execTimedOutputEvent i s = .next t0) : Keeps pset z0 t0 := by
  unfold Machine.execTimedOutputEvent at he
  cases he
  all_goals
    repeat' (first
      | with_reducible first
        | assumption | apply K.timedOutputEvent h_regs h_cnts h_outs h_intc h_sys h_time h_pwr)

theorem execPulseEnd {pset : List Part} {z0 t0 : State} {i : Fin 8} {s : State} (h_cnts : Part.cnts ∈ pset) (h_sys
    : Part.sys ∈ pset) (h_time : Part.time ∈ pset) (h_pwr : Part.pwr ∈ pset) (hk : Keeps pset z0 s) (he :
    Machine.execPulseEnd i s = .next t0) : Keeps pset z0 t0 := by
  unfold Machine.execPulseEnd at he
  cases he
  all_goals
    repeat' (first
      | with_reducible first
        | assumption | apply K.pulseEnd h_cnts h_sys h_time h_pwr)

theorem execPpsOutputEvent {pset : List Part} {z0 t0 : State} {j : Fin 2} {s : State} (h_cnts : Part.cnts ∈ pset)
    (h_sys : Part.sys ∈ pset) (h_time : Part.time ∈ pset) (h_pwr : Part.pwr ∈ pset) (hk : Keeps pset z0 s) (he :
    Machine.execPpsOutputEvent j s = .next t0) : Keeps pset z0 t0 := by
  unfold Machine.execPpsOutputEvent at he
  cases he
  all_goals
    repeat' (first
      | with_reducible first
        | assumption | apply K.ppsEvent h_cnts h_sys h_time h_pwr)

theorem execStateReqActive {pset : List Part} {z0 t0 : State} {m : Master} {s : State} (h_regs : Part.regs ∈ pset)
    (h_outs : Part.outs ∈ pset) (h_resp : Part.resp ∈ pset) (h_intc : Part.intc ∈ pset) (h_sys : Part.sys ∈ pset)
    (h_pwr : Part.pwr ∈ pset) (hk : Keeps pset z0 s) (he : Machine.execStateReqActive m s = .next t0) : Keeps pset z0
    t0 := by
  unfold Machine.execStateReqActive at he
  cases he
  all_goals
    repeat' (first
      | with_reducible first
        | assumption | apply K.gatedWrite h_regs h_outs h_resp h_intc
        | apply K.pwrReq h_regs h_outs h_intc h_sys h_pwr
      | intro _ _ | dsimp only)

theorem execStateReqDoze {pset : List Part} {z0 t0 : State} {m : Master} {now : BitVec 14} {s : State} (h_regs :
    Part.regs ∈ pset) (h_outs : Part.outs ∈ pset) (h_resp : Part.resp ∈ pset) (h_intc : Part.intc ∈ pset) (h_sys :
    Part.sys ∈ pset) (h_pwr : Part.pwr ∈ pset) (hk : Keeps pset z0 s) (he : Machine.execStateReqDoze m now s = .next
    t0) : Keeps pset z0 t0 := by
  unfold Machine.execStateReqDoze at he
  cases he
  all_goals
    repeat' (first
      | with_reducible first
        | assumption | apply K.gatedWrite h_regs h_outs h_resp h_intc
        | apply K.pwrReq h_regs h_outs h_intc h_sys h_pwr
      | intro _ _ | dsimp only)

theorem execStateReqRetain {pset : List Part} {z0 t0 : State} {m : Master} {now : BitVec 14} {s : State} (h_regs :
    Part.regs ∈ pset) (h_outs : Part.outs ∈ pset) (h_resp : Part.resp ∈ pset) (h_intc : Part.intc ∈ pset) (h_sys :
    Part.sys ∈ pset) (h_pwr : Part.pwr ∈ pset) (hk : Keeps pset z0 s) (he : Machine.execStateReqRetain m now s = .next
    t0) : Keeps pset z0 t0 := by
  unfold Machine.execStateReqRetain at he
  cases he
  all_goals
    repeat' (first
      | with_reducible first
        | assumption | apply K.gatedWrite h_regs h_outs h_resp h_intc
        | apply K.pwrReq h_regs h_outs h_intc h_sys h_pwr
      | intro _ _ | dsimp only)

theorem execStateReqVault {pset : List Part} {z0 t0 : State} {m : Master} {now : BitVec 14} {s : State} (h_regs :
    Part.regs ∈ pset) (h_outs : Part.outs ∈ pset) (h_resp : Part.resp ∈ pset) (h_intc : Part.intc ∈ pset) (h_sys :
    Part.sys ∈ pset) (h_pwr : Part.pwr ∈ pset) (hk : Keeps pset z0 s) (he : Machine.execStateReqVault m now s = .next
    t0) : Keeps pset z0 t0 := by
  unfold Machine.execStateReqVault at he
  cases he
  all_goals
    repeat' (first
      | with_reducible first
        | assumption | apply K.gatedWrite h_regs h_outs h_resp h_intc
        | apply K.pwrReq h_regs h_outs h_intc h_sys h_pwr
      | intro _ _ | dsimp only)

theorem execQuiescenceComplete {pset : List Part} {z0 t0 : State} {now : BitVec 14} {s : State} (h_regs :
    Part.regs ∈ pset) (h_cnts : Part.cnts ∈ pset) (h_mem : Part.mem ∈ pset) (h_outs : Part.outs ∈ pset) (h_intc :
    Part.intc ∈ pset) (h_sys : Part.sys ∈ pset) (h_sw : Part.sw ∈ pset) (h_eth : Part.eth ∈ pset) (h_bnk : Part.bnk ∈
    pset) (h_hif : Part.hif ∈ pset) (h_time : Part.time ∈ pset) (h_pwr : Part.pwr ∈ pset) (hk : Keeps pset z0 s) (he :
    Machine.execQuiescenceComplete now s = .next t0) : Keeps pset z0 t0 := by
  unfold Machine.execQuiescenceComplete at he
  cases he
  all_goals
    repeat' (first
      | with_reducible first
        | assumption
        | apply K.quiesceDone h_regs h_cnts h_mem h_outs h_intc h_sys h_sw h_eth h_bnk h_hif h_time h_pwr)

theorem execQuiesceTimeout {pset : List Part} {z0 t0 : State} {s : State} (h_regs : Part.regs ∈ pset) (h_cnts :
    Part.cnts ∈ pset) (h_outs : Part.outs ∈ pset) (h_intc : Part.intc ∈ pset) (h_sys : Part.sys ∈ pset) (h_time :
    Part.time ∈ pset) (h_pwr : Part.pwr ∈ pset) (hk : Keeps pset z0 s) (he : Machine.execQuiesceTimeout s = .next t0)
    : Keeps pset z0 t0 := by
  unfold Machine.execQuiesceTimeout at he
  cases he
  all_goals
    repeat' (first
      | with_reducible first
        | assumption | apply K.quiesceTimeout h_regs h_cnts h_outs h_intc h_sys h_time h_pwr)

theorem execWakeSource {pset : List Part} {z0 t0 : State} {src : BitVec 14} {s : State} (h_regs : Part.regs ∈
    pset) (h_outs : Part.outs ∈ pset) (h_intc : Part.intc ∈ pset) (h_sys : Part.sys ∈ pset) (h_pwr : Part.pwr ∈ pset)
    (hk : Keeps pset z0 s) (he : Machine.execWakeSource src s = .next t0) : Keeps pset z0 t0 := by
  unfold Machine.execWakeSource at he
  cases he
  all_goals
    repeat' (first
      | with_reducible first
        | assumption | apply K.wakeMask h_regs h_outs h_intc h_sys h_pwr)

theorem execWakeComplete {pset : List Part} {z0 t0 : State} {e : BootEnv} {s : State} (h_all : ∀ p : Part, p ≠
    .falls → p ∈ pset) (hk : Keeps pset z0 s) (he : Machine.execWakeComplete e s = .next t0) : Keeps pset z0 t0 := by
  unfold Machine.execWakeComplete at he
  cases he
  all_goals
    repeat' (first
      | with_reducible first
        | assumption | apply K.wakeDone h_all)

theorem execPadRelease {pset : List Part} {z0 t0 : State} {m : Master} {v : Word} {s : State} (h_regs : Part.regs
    ∈ pset) (h_outs : Part.outs ∈ pset) (h_resp : Part.resp ∈ pset) (h_intc : Part.intc ∈ pset) (hk : Keeps pset z0 s)
    (he : Machine.execPadRelease m v s = .next t0) : Keeps pset z0 t0 := by
  unfold Machine.execPadRelease at he
  cases he
  all_goals
    repeat' (first
      | with_reducible first
        | assumption | apply K.gatedWrite h_regs h_outs h_resp h_intc | apply K.padRelease h_regs
      | intro _ _ | dsimp only)

theorem execPortgrpReqWrite {pset : List Part} {z0 t0 : State} {m : Master} {v : Word} {s : State} (h_regs :
    Part.regs ∈ pset) (h_cnts : Part.cnts ∈ pset) (h_snaps : Part.snaps ∈ pset) (h_outs : Part.outs ∈ pset) (h_resp :
    Part.resp ∈ pset) (h_intc : Part.intc ∈ pset) (h_eth : Part.eth ∈ pset) (hk : Keeps pset z0 s) (he :
    Machine.execPortgrpReqWrite m v s = .next t0) : Keeps pset z0 t0 := by
  unfold Machine.execPortgrpReqWrite at he
  cases he
  all_goals
    repeat' (first
      | with_reducible first
        | assumption | apply K.putF h_regs | apply K.gatedWrite h_regs h_outs h_resp h_intc
        | apply K.groupSettle h_regs h_cnts h_snaps h_outs h_intc h_eth
      | intro _ _ | dsimp only)

theorem execBudgetTick {pset : List Part} {z0 t0 : State} {est : BitVec 16} {p : Forecast} {s : State} (h_regs :
    Part.regs ∈ pset) (h_cnts : Part.cnts ∈ pset) (h_outs : Part.outs ∈ pset) (h_intc : Part.intc ∈ pset) (h_sys :
    Part.sys ∈ pset) (h_sw : Part.sw ∈ pset) (h_time : Part.time ∈ pset) (h_pwr : Part.pwr ∈ pset) (hk : Keeps pset z0
    s) (he : Machine.execBudgetTick est p s = .next t0) : Keeps pset z0 t0 := by
  unfold Machine.execBudgetTick at he
  cases he
  all_goals
    repeat' (first
      | with_reducible first
        | assumption | apply K.budgetTick h_regs h_cnts h_outs h_intc h_sys h_sw h_time h_pwr)

theorem execClusterStepWrite {pset : List Part} {z0 t0 : State} {m : Master} {c : Fin 16} {v : Word} {s : State}
    (h_regs : Part.regs ∈ pset) (h_cnts : Part.cnts ∈ pset) (h_outs : Part.outs ∈ pset) (h_resp : Part.resp ∈ pset)
    (h_intc : Part.intc ∈ pset) (hk : Keeps pset z0 s) (he : Machine.execClusterStepWrite m c v s = .next t0) : Keeps
    pset z0 t0 := by
  unfold Machine.execClusterStepWrite at he
  cases he
  all_goals
    repeat' (first
      | with_reducible first
        | assumption | apply K.gatedWrite h_regs h_outs h_resp h_intc
        | apply K.stepWrite h_regs h_cnts h_outs h_intc
      | intro _ _ | dsimp only)

theorem execClusterStepApplied {pset : List Part} {z0 t0 : State} {c : Fin 16} {s : State} (h_regs : Part.regs ∈
    pset) (h_cnts : Part.cnts ∈ pset) (h_outs : Part.outs ∈ pset) (h_intc : Part.intc ∈ pset) (hk : Keeps pset z0 s)
    (he : Machine.execClusterStepApplied c s = .next t0) : Keeps pset z0 t0 := by
  unfold Machine.execClusterStepApplied at he
  cases he
  all_goals
    repeat' (first
      | with_reducible first
        | assumption | apply K.stepApply h_regs h_cnts h_outs h_intc)

theorem execSensorSample {pset : List Part} {z0 t0 : State} {t : List (BitVec 16)} {s : State} (h_regs : Part.regs
    ∈ pset) (h_cnts : Part.cnts ∈ pset) (h_outs : Part.outs ∈ pset) (h_intc : Part.intc ∈ pset) (h_sys : Part.sys ∈
    pset) (h_time : Part.time ∈ pset) (h_pwr : Part.pwr ∈ pset) (hk : Keeps pset z0 s) (he : Machine.execSensorSample
    t s = .next t0) : Keeps pset z0 t0 := by
  unfold Machine.execSensorSample at he
  cases he
  all_goals
    repeat' (first
      | with_reducible first
        | assumption | apply K.sensorSample h_regs h_cnts h_outs h_intc h_sys h_time h_pwr)

theorem execRtcAlarm {pset : List Part} {z0 t0 : State} {s : State} (h_regs : Part.regs ∈ pset) (h_cnts :
    Part.cnts ∈ pset) (h_outs : Part.outs ∈ pset) (h_intc : Part.intc ∈ pset) (h_sys : Part.sys ∈ pset) (h_time :
    Part.time ∈ pset) (h_pwr : Part.pwr ∈ pset) (hk : Keeps pset z0 s) (he : Machine.execRtcAlarm s = .next t0) :
    Keeps pset z0 t0 := by
  unfold Machine.execRtcAlarm at he
  cases he
  all_goals
    repeat' (first
      | with_reducible first
        | assumption | apply K.rtcAlarm h_regs h_cnts h_outs h_intc h_sys h_time h_pwr)

theorem execRtcSecWrite {pset : List Part} {z0 t0 : State} {m : Master} {v : Word} {s : State} (h_regs : Part.regs
    ∈ pset) (h_outs : Part.outs ∈ pset) (h_resp : Part.resp ∈ pset) (h_intc : Part.intc ∈ pset) (h_time : Part.time ∈
    pset) (hk : Keeps pset z0 s) (he : Machine.execRtcSecWrite m v s = .next t0) : Keeps pset z0 t0 := by
  unfold Machine.execRtcSecWrite at he
  cases he
  all_goals
    repeat' (first
      | with_reducible first
        | assumption | apply K.gatedWrite h_regs h_outs h_resp h_intc | apply K.rtcSecLo h_time
      | intro _ _ | dsimp only)

theorem execMgtAddressMatch {pset : List Part} {z0 t0 : State} {addr : BitVec 7} {rd : Bool} {s : State} (h_regs :
    Part.regs ∈ pset) (h_outs : Part.outs ∈ pset) (h_intc : Part.intc ∈ pset) (h_sys : Part.sys ∈ pset) (h_pwr :
    Part.pwr ∈ pset) (h_mgt : Part.mgt ∈ pset) (hk : Keeps pset z0 s) (he : Machine.execMgtAddressMatch addr rd s =
    .next t0) : Keeps pset z0 t0 := by
  unfold Machine.execMgtAddressMatch at he
  cases he
  all_goals
    repeat' (first
      | with_reducible first
        | assumption | apply K.mgtMatch h_regs h_outs h_intc h_sys h_pwr h_mgt)

theorem execMgtByte {pset : List Part} {z0 t0 : State} {b : Byte} {stop : Bool} {s : State} (h_regs : Part.regs ∈
    pset) (h_cnts : Part.cnts ∈ pset) (h_outs : Part.outs ∈ pset) (h_intc : Part.intc ∈ pset) (h_mgt : Part.mgt ∈
    pset) (hk : Keeps pset z0 s) (he : Machine.execMgtByte b stop s = .next t0) : Keeps pset z0 t0 := by
  unfold Machine.execMgtByte at he
  cases he
  all_goals
    repeat' (first
      | with_reducible first
        | assumption | apply K.mgtByte h_regs h_cnts h_outs h_intc h_mgt)

theorem execRxDataRead {pset : List Part} {z0 t0 : State} {m : Master} {s : State} (h_regs : Part.regs ∈ pset)
    (h_outs : Part.outs ∈ pset) (h_resp : Part.resp ∈ pset) (h_intc : Part.intc ∈ pset) (h_mgt : Part.mgt ∈ pset) (hk
    : Keeps pset z0 s) (he : Machine.execRxDataRead m s = .next t0) : Keeps pset z0 t0 := by
  unfold Machine.execRxDataRead at he
  cases he
  all_goals
    repeat' (first
      | with_reducible first
        | assumption | apply K.gatedRead h_regs h_outs h_resp h_intc | apply K.mgtRead h_regs h_outs h_intc h_mgt
      | intro _ _ | dsimp only)

theorem execTxDataWrite {pset : List Part} {z0 t0 : State} {m : Master} {v : Word} {s : State} (h_regs : Part.regs
    ∈ pset) (h_outs : Part.outs ∈ pset) (h_resp : Part.resp ∈ pset) (h_intc : Part.intc ∈ pset) (h_mgt : Part.mgt ∈
    pset) (hk : Keeps pset z0 s) (he : Machine.execTxDataWrite m v s = .next t0) : Keeps pset z0 t0 := by
  unfold Machine.execTxDataWrite at he
  cases he
  all_goals
    repeat' (first
      | with_reducible first
        | assumption | apply K.gatedWrite h_regs h_outs h_resp h_intc | apply K.mgtWrite h_mgt
      | intro _ _ | dsimp only)

theorem execTelemetrySnapshot {pset : List Part} {z0 t0 : State} {s : State} (h_regs : Part.regs ∈ pset) (h_cnts :
    Part.cnts ∈ pset) (h_snaps : Part.snaps ∈ pset) (h_mem : Part.mem ∈ pset) (h_outs : Part.outs ∈ pset) (h_intc :
    Part.intc ∈ pset) (h_sys : Part.sys ∈ pset) (h_bnk : Part.bnk ∈ pset) (h_time : Part.time ∈ pset) (h_pwr :
    Part.pwr ∈ pset) (hk : Keeps pset z0 s) (he : Machine.execTelemetrySnapshot s = .next t0) : Keeps pset z0 t0 := by
  unfold Machine.execTelemetrySnapshot at he
  cases he
  all_goals
    repeat' (first
      | with_reducible first
        | assumption | apply K.telemSnapshot h_regs h_cnts h_snaps h_mem h_outs h_intc h_sys h_bnk h_time h_pwr)

theorem execAtbSelect {pset : List Part} {z0 t0 : State} {m : Master} {b : Fin 2} {v : Word} {s : State} (h_regs :
    Part.regs ∈ pset) (h_outs : Part.outs ∈ pset) (h_resp : Part.resp ∈ pset) (h_intc : Part.intc ∈ pset) (h_test :
    Part.test ∈ pset) (hk : Keeps pset z0 s) (he : Machine.execAtbSelect m b v s = .next t0) : Keeps pset z0 t0 := by
  unfold Machine.execAtbSelect at he
  cases he
  all_goals
    repeat' (first
      | with_reducible first
        | assumption | apply K.gatedWrite h_regs h_outs h_resp h_intc
        | apply K.atbSelect h_regs h_outs h_intc h_test
      | intro _ _ | dsimp only)

theorem execAtbConnect {pset : List Part} {z0 t0 : State} {b : Fin 2} {s : State} (h_regs : Part.regs ∈ pset)
    (h_cnts : Part.cnts ∈ pset) (h_sys : Part.sys ∈ pset) (h_time : Part.time ∈ pset) (h_pwr : Part.pwr ∈ pset)
    (h_test : Part.test ∈ pset) (hk : Keeps pset z0 s) (he : Machine.execAtbConnect b s = .next t0) : Keeps pset z0 t0
    := by
  unfold Machine.execAtbConnect at he
  cases he
  all_goals
    repeat' (first
      | with_reducible first
        | assumption | apply K.atbConnect h_regs h_cnts h_sys h_time h_pwr h_test)

theorem execAtbEnablementChange {pset : List Part} {z0 t0 : State} {s : State} (h_regs : Part.regs ∈ pset) (h_outs
    : Part.outs ∈ pset) (h_intc : Part.intc ∈ pset) (h_test : Part.test ∈ pset) (hk : Keeps pset z0 s) (he :
    Machine.execAtbEnablementChange s = .next t0) : Keeps pset z0 t0 := by
  unfold Machine.execAtbEnablementChange at he
  cases he
  all_goals
    repeat' (first
      | with_reducible first
        | assumption | apply K.atbFollow h_regs h_outs h_intc h_test)

theorem execRefusedRead {pset : List Part} {z0 t0 : State} {m : Master} {s : State} (h_regs : Part.regs ∈ pset)
    (h_outs : Part.outs ∈ pset) (h_resp : Part.resp ∈ pset) (h_intc : Part.intc ∈ pset) (hk : Keeps pset z0 s) (he :
    Machine.execRefusedRead m s = .next t0) : Keeps pset z0 t0 := by
  unfold Machine.execRefusedRead at he
  cases he
  all_goals
    repeat' (first
      | with_reducible first
        | assumption | apply K.setR h_regs | apply K.gatedRead h_regs h_outs h_resp h_intc
      | intro _ _ | dsimp only)

theorem execTapReset {pset : List Part} {z0 t0 : State} {s : State} (h_test : Part.test ∈ pset) (hk : Keeps pset
    z0 s) (he : Machine.execTapReset s = .next t0) : Keeps pset z0 t0 := by
  unfold Machine.execTapReset at he
  cases he
  all_goals
    repeat' (first
      | with_reducible first
        | assumption
      | dsimp only | simp only [Keeps.lit_test h_test])

theorem execExtest {pset : List Part} {z0 t0 : State} {s : State} (h_regs : Part.regs ∈ pset) (h_cnts : Part.cnts
    ∈ pset) (h_free : Part.free ∈ pset) (h_mem : Part.mem ∈ pset) (h_outs : Part.outs ∈ pset) (h_intc : Part.intc ∈
    pset) (h_sys : Part.sys ∈ pset) (h_sw : Part.sw ∈ pset) (h_gate : Part.gate ∈ pset) (h_vlt : Part.vlt ∈ pset)
    (h_bnk : Part.bnk ∈ pset) (h_mdb : Part.mdb ∈ pset) (h_test : Part.test ∈ pset) (hk : Keeps pset z0 s) (he :
    Machine.execExtest s = .next t0) : Keeps pset z0 t0 := by
  unfold Machine.execExtest at he
  cases he
  all_goals
    repeat' (first
      | with_reducible first
        | assumption
        | apply K.tapDrive h_regs h_cnts h_free h_mem h_outs h_intc h_sys h_sw h_gate h_vlt h_bnk h_mdb h_test)

theorem execIdcode {pset : List Part} {z0 t0 : State} {s : State} (h_test : Part.test ∈ pset) (hk : Keeps pset z0
    s) (he : Machine.execIdcode s = .next t0) : Keeps pset z0 t0 := by
  unfold Machine.execIdcode at he
  cases he
  all_goals
    repeat' (first
      | with_reducible first
        | assumption | apply K.tapLoad h_test)

theorem execSamplePreload {pset : List Part} {z0 t0 : State} {s : State} (h_test : Part.test ∈ pset) (hk : Keeps
    pset z0 s) (he : Machine.execSamplePreload s = .next t0) : Keeps pset z0 t0 := by
  unfold Machine.execSamplePreload at he
  cases he
  all_goals
    repeat' (first
      | with_reducible first
        | assumption | apply K.tapLoad h_test)

theorem execExtestPulse {pset : List Part} {z0 t0 : State} {s : State} (h_regs : Part.regs ∈ pset) (h_cnts :
    Part.cnts ∈ pset) (h_free : Part.free ∈ pset) (h_mem : Part.mem ∈ pset) (h_outs : Part.outs ∈ pset) (h_intc :
    Part.intc ∈ pset) (h_sys : Part.sys ∈ pset) (h_sw : Part.sw ∈ pset) (h_gate : Part.gate ∈ pset) (h_vlt : Part.vlt
    ∈ pset) (h_bnk : Part.bnk ∈ pset) (h_mdb : Part.mdb ∈ pset) (h_test : Part.test ∈ pset) (hk : Keeps pset z0 s) (he
    : Machine.execExtestPulse s = .next t0) : Keeps pset z0 t0 := by
  unfold Machine.execExtestPulse at he
  cases he
  all_goals
    repeat' (first
      | with_reducible first
        | assumption
        | apply K.tapDrive h_regs h_cnts h_free h_mem h_outs h_intc h_sys h_sw h_gate h_vlt h_bnk h_mdb h_test)

theorem execExtestTrain {pset : List Part} {z0 t0 : State} {s : State} (h_regs : Part.regs ∈ pset) (h_cnts :
    Part.cnts ∈ pset) (h_free : Part.free ∈ pset) (h_mem : Part.mem ∈ pset) (h_outs : Part.outs ∈ pset) (h_intc :
    Part.intc ∈ pset) (h_sys : Part.sys ∈ pset) (h_sw : Part.sw ∈ pset) (h_gate : Part.gate ∈ pset) (h_vlt : Part.vlt
    ∈ pset) (h_bnk : Part.bnk ∈ pset) (h_mdb : Part.mdb ∈ pset) (h_test : Part.test ∈ pset) (hk : Keeps pset z0 s) (he
    : Machine.execExtestTrain s = .next t0) : Keeps pset z0 t0 := by
  unfold Machine.execExtestTrain at he
  cases he
  all_goals
    repeat' (first
      | with_reducible first
        | assumption
        | apply K.tapDrive h_regs h_cnts h_free h_mem h_outs h_intc h_sys h_sw h_gate h_vlt h_bnk h_mdb h_test)

theorem execClamp {pset : List Part} {z0 t0 : State} {s : State} (h_regs : Part.regs ∈ pset) (h_cnts : Part.cnts ∈
    pset) (h_free : Part.free ∈ pset) (h_mem : Part.mem ∈ pset) (h_outs : Part.outs ∈ pset) (h_intc : Part.intc ∈
    pset) (h_sys : Part.sys ∈ pset) (h_sw : Part.sw ∈ pset) (h_gate : Part.gate ∈ pset) (h_vlt : Part.vlt ∈ pset)
    (h_bnk : Part.bnk ∈ pset) (h_mdb : Part.mdb ∈ pset) (h_test : Part.test ∈ pset) (hk : Keeps pset z0 s) (he :
    Machine.execClamp s = .next t0) : Keeps pset z0 t0 := by
  unfold Machine.execClamp at he
  cases he
  all_goals
    repeat' (first
      | with_reducible first
        | assumption
        | apply K.tapDrive h_regs h_cnts h_free h_mem h_outs h_intc h_sys h_sw h_gate h_vlt h_bnk h_mdb h_test)

theorem execHighz {pset : List Part} {z0 t0 : State} {s : State} (h_regs : Part.regs ∈ pset) (h_cnts : Part.cnts ∈
    pset) (h_free : Part.free ∈ pset) (h_mem : Part.mem ∈ pset) (h_outs : Part.outs ∈ pset) (h_intc : Part.intc ∈
    pset) (h_sys : Part.sys ∈ pset) (h_sw : Part.sw ∈ pset) (h_gate : Part.gate ∈ pset) (h_vlt : Part.vlt ∈ pset)
    (h_bnk : Part.bnk ∈ pset) (h_mdb : Part.mdb ∈ pset) (h_test : Part.test ∈ pset) (hk : Keeps pset z0 s) (he :
    Machine.execHighz s = .next t0) : Keeps pset z0 t0 := by
  unfold Machine.execHighz at he
  cases he
  all_goals
    repeat' (first
      | with_reducible first
        | assumption
        | apply K.tapDrive h_regs h_cnts h_free h_mem h_outs h_intc h_sys h_sw h_gate h_vlt h_bnk h_mdb h_test)

theorem execDbgAccess {pset : List Part} {z0 t0 : State} {s : State} (h_test : Part.test ∈ pset) (hk : Keeps pset
    z0 s) (he : Machine.execDbgAccess s = .next t0) : Keeps pset z0 t0 := by
  unfold Machine.execDbgAccess at he
  cases he
  all_goals
    repeat' (first
      | with_reducible first
        | assumption | apply K.tapLoad h_test)

theorem execProdTest {pset : List Part} {z0 t0 : State} {s : State} (h_test : Part.test ∈ pset) (hk : Keeps pset
    z0 s) (he : Machine.execProdTest s = .next t0) : Keeps pset z0 t0 := by
  unfold Machine.execProdTest at he
  cases he
  all_goals
    repeat' (first
      | with_reducible first
        | assumption | apply K.tapLoad h_test)

theorem execBypass {pset : List Part} {z0 t0 : State} {code : BitVec 8} {s : State} (h_test : Part.test ∈ pset)
    (hk : Keeps pset z0 s) (he : Machine.execBypass code s = .next t0) : Keeps pset z0 t0 := by
  unfold Machine.execBypass at he
  cases he
  all_goals
    repeat' (first
      | with_reducible first
        | assumption | apply K.tapLoad h_test | refine Keeps.ite (fun _ => ?_) (fun _ => ?_)
      | split)

theorem execPerstRelease {pset : List Part} {z0 t0 : State} {s : State} (h_hif : Part.hif ∈ pset) (hk : Keeps pset
    z0 s) (he : Machine.execPerstRelease s = .next t0) : Keeps pset z0 t0 := by
  unfold Machine.execPerstRelease at he
  cases he
  all_goals
    repeat' (first
      | with_reducible first
        | assumption | apply K.perstUp h_hif)

theorem execPcieLinkUp {pset : List Part} {z0 t0 : State} {width : BitVec 3} {speed : BitVec 2} {s : State}
    (h_regs : Part.regs ∈ pset) (h_outs : Part.outs ∈ pset) (h_intc : Part.intc ∈ pset) (hk : Keeps pset z0 s) (he :
    Machine.execPcieLinkUp width speed s = .next t0) : Keeps pset z0 t0 := by
  unfold Machine.execPcieLinkUp at he
  cases he
  all_goals
    repeat' (first
      | with_reducible first
        | assumption | apply K.linkTrain h_regs h_outs h_intc)

theorem execPmicEnDrivenHigh {pset : List Part} {z0 t0 : State} {s : State} (h_sys : Part.sys ∈ pset) (hk : Keeps
    pset z0 s) (he : Machine.execPmicEnDrivenHigh s = .next t0) : Keeps pset z0 t0 := by
  unfold Machine.execPmicEnDrivenHigh at he
  cases he
  all_goals
    repeat' (first
      | with_reducible first
        | assumption | apply K.pmicUp h_sys)

theorem execReleaseRecordDurable {pset : List Part} {z0 t0 : State} {tag : Word} {s : State} (h_regs : Part.regs ∈
    pset) (h_cnts : Part.cnts ∈ pset) (h_free : Part.free ∈ pset) (h_mem : Part.mem ∈ pset) (h_outs : Part.outs ∈
    pset) (h_intc : Part.intc ∈ pset) (h_sys : Part.sys ∈ pset) (h_sw : Part.sw ∈ pset) (h_gate : Part.gate ∈ pset)
    (h_vlt : Part.vlt ∈ pset) (h_bnk : Part.bnk ∈ pset) (hk : Keeps pset z0 s) (he : Machine.execReleaseRecordDurable
    tag s = .next t0) : Keeps pset z0 t0 := by
  unfold Machine.execReleaseRecordDurable at he
  cases he
  all_goals
    repeat' (first
      | with_reducible first
        | assumption | apply K.releaseDurable h_regs h_cnts h_free h_mem h_outs h_intc h_sys h_sw h_gate h_vlt h_bnk)

theorem execPllLockLost {pset : List Part} {z0 t0 : State} {k : Fin 5} {s : State} (h_regs : Part.regs ∈ pset)
    (h_outs : Part.outs ∈ pset) (h_intc : Part.intc ∈ pset) (hk : Keeps pset z0 s) (he : Machine.execPllLockLost k s =
    .next t0) : Keeps pset z0 t0 := by
  unfold Machine.execPllLockLost at he
  cases he
  all_goals
    repeat' (first
      | with_reducible first
        | assumption | apply K.pllLost h_regs h_outs h_intc)

theorem execSensorCalibration {pset : List Part} {z0 t0 : State} {bad : BitVec 24} {s : State} (h_regs : Part.regs
    ∈ pset) (h_outs : Part.outs ∈ pset) (h_intc : Part.intc ∈ pset) (h_pwr : Part.pwr ∈ pset) (hk : Keeps pset z0 s)
    (he : Machine.execSensorCalibration bad s = .next t0) : Keeps pset z0 t0 := by
  unfold Machine.execSensorCalibration at he
  cases he
  all_goals
    repeat' (first
      | with_reducible first
        | assumption | apply K.calibrate h_regs h_outs h_intc h_pwr)

theorem execStretchMaxExpiry {pset : List Part} {z0 t0 : State} {s : State} (h_regs : Part.regs ∈ pset) (h_cnts :
    Part.cnts ∈ pset) (h_outs : Part.outs ∈ pset) (h_intc : Part.intc ∈ pset) (h_sys : Part.sys ∈ pset) (h_time :
    Part.time ∈ pset) (h_pwr : Part.pwr ∈ pset) (h_mgt : Part.mgt ∈ pset) (hk : Keeps pset z0 s) (he :
    Machine.execStretchMaxExpiry s = .next t0) : Keeps pset z0 t0 := by
  unfold Machine.execStretchMaxExpiry at he
  cases he
  all_goals
    repeat' (first
      | with_reducible first
        | assumption | apply K.mgtStretchEnd h_regs h_cnts h_outs h_intc h_sys h_time h_pwr h_mgt)

end Sys2Proof.Laws.K
end

