-- ==== Sys2Proof/Laws/Mac.lean ====
section
/-! SUPPORT. What reception at a MAC comes to, by the kind of frame. -/

namespace Sys2Proof.Laws

open Sys2Proof Sys2Proof.Machine Sys2Proof.Machine.Reg

/-- A line that the MAC listens to, and that no loopback cuts off. -/
theorem rxGate_open {s : State} {p : Nat} {f : State → State} (h0 : loopOf s p ≠ 1) (h : (rxOpen s p).1 = true) :
    rxGate p f s = f s := by
  unfold rxGate rxMeets
  rw [if_neg h0]
  generalize rxOpen s p = r at h
  obtain ⟨a, b⟩ := r
  have h : a = true := h
  rw [h]

/-- A frame from a line that the MAC listens to, with no loopback. -/
theorem rxLine_open {s : State} {p : Nat} {b : List Byte} {f : State → State} (h0 : loopOf s p = 0)
    (h : (rxOpen s p).1 = true) : rxLine p b f s = f s := by
  unfold rxLine
  rw [if_neg (by rw [h0]; exact fun h => absurd h.1 (by decide))]
  exact rxGate_open (by rw [h0]; decide) h

theorem not_short {b : List Byte} (h : 60 ≤ b.length) : decide (b.length + 4 < 64) = false := decide_eq_false (by omega)

theorem not_trunc {b : List Byte} {n : Nat} (h : b.length ≤ n) : decide (n < b.length) = false := decide_eq_false (by omega)

theorem macRx_good {s : State} {p : Nat} {b : List Byte} (h2 : pairOf s p = none) (h3 : 60 ≤ b.length)
    (h4 : b.length ≤ macMtu s p + 18) (h5 : beAt b 12 2 ≠ 0x8808) :
    macRx p b .good s =
      (swIngress (ptpReceive (macCount (macCount (rxStamp s p).1 p 0 1) p 1 (b.length + 4)) p b (rxStamp s p).2)
        { plainArrival s p b with rxTense := (rxStamp s p).2 }).1 := by
  unfold macRx
  rw [if_neg (by decide)]
  dsimp only
  rw [h2, not_short h3, not_trunc h4, List.take_of_length_le h4]
  dsimp only
  rw [if_neg (by decide), if_neg h5]
  rfl

theorem macRx_fcs {s : State} {p : Nat} {b : List Byte} (h2 : pairOf s p = none) (h3 : 60 ≤ b.length)
    (h4 : b.length ≤ macMtu s p + 18) :
    macRx p b .fcs s =
      (let s1 := (rxStamp s p).1
       let ar := { plainArrival s p b with rxTense := (rxStamp s p).2 }
       let s2 := raiseIrq (macCount s1 p 2 1) (MAC p) 1
       dropFrame s2 (mkFrame s1 ar (keyFlags (parseFrame s1 p b) false false b) (noRoute 0 0 p) 0) p dropFcs 0xFF 0) := by
  unfold macRx
  rw [if_neg (by decide)]
  dsimp only
  rw [h2, not_short h3, not_trunc h4, List.take_of_length_le h4]
  rfl

theorem macRx_pair {s : State} {p : Nat} {b : List Byte} {x : Nat × Nat × Nat} (h2 : pairOf s p = some x)
    (h3 : pairHsr s x.1 = some true) (h4 : (parseFrame s p b).hsr = true) (h5 : 60 ≤ b.length)
    (h6 : b.length ≤ macMtu s p + 18) (h7 : beAt b 12 2 ≠ 0x8808) :
    macRx p b .good s =
      pairReceive (ptpReceive (macCount (macCount (rxStamp s p).1 p 0 1) p 1 (b.length + 4)) p b (rxStamp s p).2) p
        { plainArrival s p b with rxTense := (rxStamp s p).2, fromPair := some x.1 } b x := by
  unfold macRx
  rw [if_neg (by decide)]
  dsimp only
  rw [h2, not_short h5, not_trunc h6, List.take_of_length_le h6]
  dsimp only
  simp only [h3, h4, ne_eq, not_true_eq_false, decide_false, decide_true, Bool.true_and, Bool.or_self, Bool.and_false,
    Bool.false_and, Bool.false_eq_true, if_false, if_true, if_neg h7, Bool.not_false, Bool.true_or]
  rfl

theorem mdioCmd_go {s : State} {l : Nat} {v : Word} (h : getB s (SDS_MDIO_RESULT l) 30 = false) (hv : fld v 31 30 < 2) :
    mdioCmd l v s =
      (let s1 := putB (putB s (SDS_MDIO_RESULT l) 31 false) (SDS_MDIO_RESULT l) 30 true
       emit { s1 with eth := { s1.eth with mdio := sset s1.eth.mdio l v } } (.mdio l v)) := by
  unfold mdioCmd
  rw [if_neg (by rw [h]; simp only [Bool.false_eq_true, false_or]; omega)]

/-! `LINK.UP`: what moves it, and what leaves it. -/

theorem link_plain {q : Nat} (hq : q < 192) : Plain (MAC_LINK q) := by
  refine ⟨?_, ?_, ?_⟩ <;> simp only [MAC_LINK] <;> omega

theorem mac_page (p : Nat) : MAC p % 0x1000 = 0 := by simp only [MAC]; omega

theorem sds_page (l : Nat) : SDS l % 0x1000 = 0 := by simp only [SDS]; omega

theorem macUp_congr {s t : State} {q : Nat} (h : getR t (MAC_LINK q) = getR s (MAC_LINK q)) : macUp t q = macUp s q :=
  congrArg (bit · 5) h

theorem macUp_raise {q b : Nat} (hq : q < 192) (hb : b % 0x1000 = 0) (s : State) (i : Nat) :
    macUp (raiseIrq s b i) q = macUp s q := macUp_congr ((link_plain hq).raiseIrq hb s i)

theorem macUp_putB {q a i : Nat} (h : MAC_LINK q ≠ a ∨ i ≠ 5 ∧ i < 32) (s : State) (v : Bool) :
    macUp (putB s a i v) q = macUp s q := by
  by_cases e : MAC_LINK q = a
  · subst e
    obtain ⟨h1, h2⟩ := h.resolve_left (fun h => h rfl)
    unfold macUp getB
    rw [getR_putB_same, bit_setBit_ne h2 (by omega)]
  · exact macUp_congr (getR_putB_ne e)

theorem macUp_putF {q a hi lo v : Nat} (h : MAC_LINK q ≠ a) (s : State) : macUp (putF s a hi lo v) q = macUp s q :=
  macUp_congr (getR_putF_ne h)

theorem macUp_verifyPut {q : Nat} (hq : q < 192) (s : State) (p v : Nat) : macUp (verifyPut s p v) q = macUp s q := by
  unfold verifyPut
  split
  · rfl
  · rw [macUp_raise hq (mac_page p)]
    refine macUp_putF ?_ s
    simp only [MAC_LINK, MAC_PREEMPT_STATUS]; omega

theorem macUp_verifySettle {q : Nat} (hq : q < 192) (s : State) (p : Nat) : macUp (verifySettle s p) q = macUp s q := by
  unfold verifySettle
  repeat' split
  all_goals first | rfl | exact macUp_verifyPut hq _ _ _

theorem macUp_putLpi {q : Nat} (hq : q < 192) (s : State) (p : Nat) (v : Bool) : macUp (putLpi s p v) q = macUp s q := by
  unfold putLpi
  dsimp only
  split
  · rfl
  · have h : macUp (raiseIrq (putB s (MAC_LINK p) 6 v) (MAC p) 4) q = macUp s q := by
      rw [macUp_raise hq (mac_page p), macUp_putB (.inr (by decide))]
    split <;> exact h

theorem macUp_lpiSettle {q : Nat} (hq : q < 192) (s : State) (p : Nat) : macUp (lpiSettle s p) q = macUp s q := by
  unfold lpiSettle lpiOut
  dsimp only
  repeat' split
  all_goals first | rfl | exact macUp_putLpi hq _ _ _

theorem macUp_linkSettle {q : Nat} (hq : q < 192) (s : State) (p : Nat) : macUp (linkSettle s p) q = macUp s q :=
  (macUp_lpiSettle hq _ p).trans (macUp_verifySettle hq s p)

theorem macUp_shapeSettle (s : State) (p q : Nat) : macUp (shapeSettle s p) q = macUp s q :=
  macUp_congr (getR_congr ((Keeps.only (m := [.sw]) (K.shapeSettle (by decide) (Keeps.refl _ _))).2 .regs (by decide)) _)

theorem macUp_putLink_same (p : Nat) (hp : p < 192) (s : State) (v : Bool) : macUp (putLink s p v) p = v := by
  unfold putLink
  split
  · assumption
  · rw [macUp_raise hp (mac_page p)]
    unfold macUp getB
    rw [getR_putB_same]
    exact bit_setBit_same (by decide)

theorem macUp_putLink_ne {p q : Nat} (hq : q < 192) (hn : q ≠ p) (s : State) (v : Bool) :
    macUp (putLink s p v) q = macUp s q := by
  unfold putLink
  split
  · rfl
  · rw [macUp_raise hq (mac_page p)]
    exact macUp_putB (.inl (by simp only [MAC_LINK]; omega)) s v

theorem macUp_pairIrq {q : Nat} (hq : q < 192) (s : State) (a i : Nat) : macUp (raisePairIrq s a i) q = macUp s q := by
  unfold raisePairIrq updPairOf updPairLine
  refine (macUp_congr (getR_setLine (link_plain hq).still _ _ _)).trans ?_
  exact macUp_putB (.inl (by simp only [MAC_LINK, MAC_PAIR_IRQ_STATUS]; omega)) s true

theorem macUp_laneBit {q : Nat} (hq : q < 192) (s : State) (l i irq : Nat) (v : Bool) :
    macUp (laneBit s l i irq v) q = macUp s q := by
  unfold laneBit
  split
  · rfl
  · rw [macUp_raise hq (sds_page l)]
    exact macUp_putB (.inl (by simp only [MAC_LINK, SDS_STATUS]; omega)) s v

/-- A port that goes down is down, and every other port is as it was. -/
theorem macUp_portDown {q : Nat} (hq : q < 192) (s : State) (p : Nat) :
    macUp (portDown s p) q = (macUp s q && decide (q ≠ p)) := by
  unfold portDown
  dsimp only
  split
  · rw [macUp_linkSettle hq]
    have hl : macUp (putLink (shapeSettle s p) p false) q = (macUp s q && decide (q ≠ p)) := by
      by_cases e : q = p
      · subst e
        rw [macUp_putLink_same q hq]; simp
      · rw [macUp_putLink_ne hq e, macUp_shapeSettle]; simp [e]
    generalize putLink (shapeSettle s p) p false = u at hl
    have h2 : macUp (if macOn s p then macCount u p 17 1 else u) q = macUp u q := by split <;> rfl
    generalize (if macOn s p then macCount u p 17 1 else u) = w at h2
    have h3 : macUp (if getB w (MAC_LINK p) 7 then raiseIrq (putB w (MAC_LINK p) 7 false) (MAC p) 4 else w) q = macUp w q := by
      split
      · rw [macUp_raise hq (mac_page p), macUp_putB (.inr (by decide))]
      · rfl
    generalize (if getB w (MAC_LINK p) 7 then raiseIrq (putB w (MAC_LINK p) 7 false) (MAC p) 4 else w) = x at h3
    refine Eq.trans ?_ (h3.trans (h2.trans hl))
    split
    · exact macUp_pairIrq hq _ _ _
    · rfl
  · rename_i h
    by_cases e : q = p
    · subst e; simp [h]
    · simp [e]

/-- A link that comes up shows it. -/
theorem macUp_linkUpAt {p : Fin 192} {w : Nat} {s : State} (h1 : getB s (BLK_CTRL (SDS (laneOf p.val))) 0 = true)
    (h2 : laneMode s (laneOf p.val) ≠ 0) : macUp (linkUpAt p.val w s) p.val = true := by
  unfold linkUpAt
  dsimp only
  rw [if_neg (by rw [h1]; simpa using h2), macUp_linkSettle p.isLt]
  exact macUp_putLink_same p.val p.isLt _ true

/-- A word that ends a link shows it. -/
theorem macUp_linkDownAt {p : Fin 192} {half : Bool} {s : State} (h1 : laneMode s (laneOf p.val) ≠ 0)
    (h2 : laneMode s (laneOf p.val) ≤ 3) : macUp (linkDownAt p.val half .word s) p.val = false := by
  unfold linkDownAt
  dsimp only
  rw [if_neg h1, if_pos ⟨rfl, h2⟩]
  have hd : macUp (portDown s p.val) p.val = false := by rw [macUp_portDown p.isLt]; simp
  generalize portDown s p.val = u at hd
  have h3 : macUp (if half && !(getB u (MAC_LINK p.val) 4) then raiseIrq (putB u (MAC_LINK p.val) 4 true) (MAC p.val) 5 else u)
      p.val = false := by
    split
    · rw [macUp_raise p.isLt (mac_page _), macUp_putB (.inr (by decide))]; exact hd
    · exact hd
  split
  · rw [macUp_putB (.inl (by simp only [MAC_LINK, SDS_STATUS]; omega))]; exact h3
  · exact h3

theorem macUp_portsDown {q : Nat} (hq : q < 192) (l : List Nat) (s : State) :
    macUp (l.foldl portDown s) q = (macUp s q && decide (q ∉ l)) := by
  induction l generalizing s with
  | nil => simp
  | cons x r ih =>
    rw [List.foldl_cons, ih, macUp_portDown hq]
    by_cases e : q = x <;> simp [e]

/-- A lane that loses its sync, block lock or signal takes the links of all its ports with it. -/
theorem macUp_laneLost {q l : Nat} (hq : q < 192) (hl : q ∈ lanePorts l) (signal : Bool) (s : State) :
    macUp (laneLost l signal s) q = false := by
  unfold laneLost
  dsimp only
  rw [macUp_portsDown hq]
  simp [hl]

end Sys2Proof.Laws
end

