-- ==== Sys2Proof/Laws/Ptc.lean ====
section
/-! SUPPORT. What the pin machine's instructions come to, by their words and the engine's state. -/

namespace Sys2Proof.Laws

open Sys2Proof Sys2Proof.Machine Sys2Proof.Machine.Reg

theorem ptc_ptcMod (s : State) (n : Nat) (f : PtcSt → PtcSt) : ptc (ptcMod s n f) n = f (ptc s n) := by
  show sget (sset s.ptc n (f (sget s.ptc n PtcSt.init))) n PtcSt.init = f (ptc s n)
  unfold sget
  rw [find_sset, if_pos rfl]
  rfl

theorem getR_ptcMod (s : State) (n : Nat) (f : PtcSt → PtcSt) (a : Nat) : getR (ptcMod s n f) a = getR s a := rfl

/-- The state from which an instruction executes: an injected one has left its slot. -/
def issued (s : State) (n : Nat) (inj : Bool) : State := if inj then ptcMod s n fun q => { q with inj := none } else s

variable {s : State} {n w pads : Nat} {inj : Bool}

theorem getR_issued (a : Nat) : getR (issued s n inj) a = getR s a := by cases inj <;> rfl

theorem getF_issued (a hi lo : Nat) : getF (issued s n inj) a hi lo = getF s a hi lo := by cases inj <;> rfl

theorem getB_issued (a i : Nat) : getB (issued s n inj) a i = getB s a i := by cases inj <;> rfl

theorem ptc_issued : ptc (issued s n inj) n = if inj then { ptc s n with inj := none } else ptc s n := by
  cases inj
  · rfl
  · exact ptc_ptcMod s n _

/-- The wait for an instruction's turn moves the clocks alone. -/
theorem turn_same (s : State) (n : Nat) : ∃ ti cn sy pw, ptcTurn s n = { s with time := ti, cnts := cn, sys := sy, pwr := pw } := by
  have h : Keeps [.cnts, .sys, .time, .pwr] s (ptcTurn s n) :=
    K.ptcTurn (by decide) (by decide) (by decide) (by decide) (Keeps.refl _ s)
  generalize ptcTurn s n = t at h
  refine ⟨t.time, t.cnts, t.sys, t.pwr, ?_⟩
  have := h.pending
  have := h.regs.resolve_left (by decide)
  have := h.snaps.resolve_left (by decide)
  have := h.free.resolve_left (by decide)
  have := h.mem.resolve_left (by decide)
  have := h.outs.resolve_left (by decide)
  have := h.resp.resolve_left (by decide)
  have := h.intc.resolve_left (by decide)
  have := h.sw.resolve_left (by decide)
  have := h.eth.resolve_left (by decide)
  have := h.gate.resolve_left (by decide)
  have := h.vlt.resolve_left (by decide)
  have := h.bnk.resolve_left (by decide)
  have := h.plk.resolve_left (by decide)
  have := h.mdb.resolve_left (by decide)
  have := h.ptc.resolve_left (by decide)
  have := h.fiq.resolve_left (by decide)
  have := h.aq.resolve_left (by decide)
  have := h.mbx.resolve_left (by decide)
  have := h.hif.resolve_left (by decide)
  have := h.eng.resolve_left (by decide)
  have := h.plc.resolve_left (by decide)
  have := h.cores.resolve_left (by decide)
  have := h.mgt.resolve_left (by decide)
  have := h.test.resolve_left (by decide)
  cases s
  cases t
  simp_all

/-- A legal instruction in its turn executes and paces the next one. -/
theorem ptcStep_go {c : Nat} (h1 : ptcNext s n = some (w, inj)) (h2 : ptcBad w inj = false) (h3 : nbits w 15 12 = c) :
    ptcStep n pads c s = ptcPace (ptcOp (issued (ptcTurn s n) n inj) n pads
      (ptcFresh w inj (if c = 4 then ptcInSrc (ptcTurn s n) n pads (nbits w 11 9) % 2 ^ ptcCount w else 0))) n w := by
  unfold ptcStep ptcClass ptcIssue ptcExec
  simp only [h1, h2, h3, Bool.false_eq_true, if_false, if_true]
  rfl

theorem pace_stallAt (st : PtcStall) : ptcPace (ptcStallAt s n st) n w = ptcStallAt s n st := by
  unfold ptcPace ptcStallAt
  rw [ptc_ptcMod]
  rfl

theorem tsN_issued : (ptc (issued s n inj) n).tsN = (ptc s n).tsN := by rw [ptc_issued]; cases inj <;> rfl

theorem rsN_issued : (ptc (issued s n inj) n).rsN = (ptc s n).rsN := by rw [ptc_issued]; cases inj <;> rfl

theorem pkts_issued : (ptc (issued s n inj) n).pkts = (ptc s n).pkts := by rw [ptc_issued]; cases inj <;> rfl

theorem lim_issued : ptcTsLim (issued s n inj) n = ptcTsLim s n := by unfold ptcTsLim; rw [getF_issued]

theorem used_issued : ptcUsed (issued s n inj) n = ptcUsed s n := by unfold ptcUsed; rw [lim_issued, tsN_issued]

theorem words_issued : ptcWords (issued s n inj) n = ptcWords s n := by unfold ptcWords; rw [pkts_issued]

theorem pin_issued (p : Nat) : ptcPin (issued s n inj) n pads p = ptcPin s n pads p := by cases inj <;> rfl

theorem pkt_issued : ptcPkt (issued s n inj) n = ptcPkt s n := by unfold ptcPkt; rw [pkts_issued]

theorem count_pos (w : Nat) : ptcCount w ≠ 0 := by unfold ptcCount; split <;> omega

theorem loadTs_none (h : ptcWords s n = 0) : ptcLoadTs s n = none := if_pos h

theorem out_plain (h : getB s (PTC_SHIFTER n) 20 = false ∨ ptcCount w ≤ ptcTsLim s n - (ptc s n).tsN) :
    ptcOutRun (issued s n inj) n (ptcCount w) (nbits w 11 9) (ptcFresh w inj 0) 40 =
      (let g := ptcGive (issued s n inj) n (ptcCount w)
       let p := ptcPut g.1 n (ptcOutDst (nbits w 11 9)) g.2
       ptcDone p.1 n inj p.2) := by
  have hm : (getB s (PTC_SHIFTER n) 20 && decide (ptcTsLim s n - (ptc s n).tsN < ptcCount w)) = false := by
    rcases h with h | h
    · rw [h]; rfl
    · rw [decide_eq_false (by omega), Bool.and_false]
  unfold ptcOutRun ptcFresh
  simp only [Bool.false_eq_true, if_false, Nat.sub_zero, lim_issued, tsN_issued, getB_issued, hm, count_pos, Nat.pow_zero,
    Nat.mul_one, Nat.zero_mul, Nat.zero_add, ite_self]

theorem out_empty (h : getB s (PTC_SHIFTER n) 20 = true) (hu : ptcUsed s n = true) (hw : ptcWords s n = 0) :
    ptcOutRun (issued s n inj) n (ptcCount w) (nbits w 11 9) (ptcFresh w inj 0) 40 =
      ptcStallAt (issued s n inj) n { ptcFresh w inj 0 with why := 4, due := true } := by
  have hu : ptcTsLim s n ≤ (ptc s n).tsN := of_decide_eq_true hu
  have hl : ptcTsLim s n - (ptc s n).tsN = 0 := by omega
  have hm : (getB s (PTC_SHIFTER n) 20 && decide (0 < ptcCount w)) = true := by
    rw [h, decide_eq_true (Nat.pos_of_ne_zero (count_pos w))]; rfl
  unfold ptcOutRun ptcFresh
  simp only [Bool.false_eq_true, if_false, Nat.sub_zero, lim_issued, tsN_issued, getB_issued, hl, hm, if_true, Nat.pow_zero,
    Nat.mul_one, Nat.zero_mul, Nat.zero_add, ite_self]
  unfold ptcOutRun
  simp only [if_true, loadTs_none (words_issued.trans hw)]

theorem in_plain {v : Nat} (h : getB s (PTC_SHIFTER n) 8 = false ∨ ptcWidth s n ≤ (ptc s n).rsN ∨
      (ptc s n).rsN + ptcCount w < ptcWidth s n) :
    ptcInRun (issued s n inj) n (ptcCount w) (ptcFresh w inj (v % 2 ^ ptcCount w)) 40 =
      ptcDone (ptcInBits (issued s n inj) n (v % 2 ^ ptcCount w) (ptcCount w)) n inj false := by
  have hw : ptcWidth (issued s n inj) n = ptcWidth s n := by unfold ptcWidth; rw [getB_issued]
  have ha : (getB s (PTC_SHIFTER n) 8 && decide ((ptc s n).rsN < ptcWidth s n) &&
      decide (ptcWidth s n ≤ (ptc s n).rsN + ptcCount w) && decide (ptcCount w ≠ 0)) = false := by
    rcases h with h | h | h
    · rw [h]; rfl
    · rw [decide_eq_false (p := (ptc s n).rsN < ptcWidth s n) (by omega)]; simp
    · rw [decide_eq_false (p := ptcWidth s n ≤ (ptc s n).rsN + ptcCount w) (by omega)]; simp
  unfold ptcInRun ptcFresh
  simp only [Bool.false_eq_true, if_false, Nat.sub_zero, rsN_issued, getB_issued, hw, ha, count_pos, Nat.sub_self, ite_self,
    Nat.pow_zero, Nat.div_one, Nat.mod_mod, Nat.zero_add]
  unfold ptcInRun
  simp only [Bool.false_eq_true, if_false, Nat.sub_self, if_true]

theorem push_skip (h1 : w.testBit 7 = true) (h2 : (ptc s n).rsN < ptcLim (getF s (PTC_SHIFTER n) 17 12)) :
    ptcPush (issued s n inj) n (ptcFresh w inj 0) = ptcDone (issued s n inj) n inj false := by
  unfold ptcPush ptcFresh
  simp only [rsN_issued, getF_issued, h1, h2, and_self, if_true]

theorem push_past (h : w.testBit 7 = false ∨ ptcLim (getF s (PTC_SHIFTER n) 17 12) ≤ (ptc s n).rsN) :
    ¬(w.testBit 7 = true ∧ (ptc s n).rsN < ptcLim (getF s (PTC_SHIFTER n) 17 12)) := by
  rcases h with h | h
  · rw [h]; simp
  · omega

theorem push_go {t : State} (h : w.testBit 7 = false ∨ ptcLim (getF s (PTC_SHIFTER n) 17 12) ≤ (ptc s n).rsN)
    (hd : ptcDeliver (issued s n inj) n (if w.testBit 10 then 16 else 8) (w.testBit 9) = some t) :
    ptcPush (issued s n inj) n (ptcFresh w inj 0) =
      ptcDone (if w.testBit 9 then bump t (PTC_Counters n 1) else t) n inj false := by
  unfold ptcPush ptcFresh
  simp only [rsN_issued, getF_issued, push_past h, if_false, hd]

theorem push_drop (h : w.testBit 7 = false ∨ ptcLim (getF s (PTC_SHIFTER n) 17 12) ≤ (ptc s n).rsN)
    (hd : ptcDeliver (issued s n inj) n (if w.testBit 10 then 16 else 8) (w.testBit 9) = none) (h8 : w.testBit 8 = true) :
    ptcPush (issued s n inj) n (ptcFresh w inj 0) =
      ptcDone (ptcNote (ptcMod (issued s n inj) n fun q => { q with rs := 0, rsN := 0 }) n 2 2) n inj false := by
  unfold ptcPush ptcFresh
  simp only [rsN_issued, getF_issued, push_past h, if_false, hd, h8, if_true]

theorem push_stall (h : w.testBit 7 = false ∨ ptcLim (getF s (PTC_SHIFTER n) 17 12) ≤ (ptc s n).rsN)
    (hd : ptcDeliver (issued s n inj) n (if w.testBit 10 then 16 else 8) (w.testBit 9) = none) (h8 : w.testBit 8 = false) :
    ptcPush (issued s n inj) n (ptcFresh w inj 0) = ptcStallAt (issued s n inj) n { ptcFresh w inj 0 with why := 3 } := by
  unfold ptcPush ptcFresh
  simp only [rsN_issued, getF_issued, push_past h, if_false, hd, h8, Bool.false_eq_true]

theorem pull_skip (h1 : w.testBit 11 = true) (h2 : ptcUsed s n = false) :
    ptcPull (issued s n inj) n (ptcFresh w inj 0) = ptcDone (issued s n inj) n inj false := by
  unfold ptcPull ptcFresh
  simp only [used_issued, h1, h2, Bool.not_false, Bool.and_self, if_true]

theorem pull_past (h : w.testBit 11 = false ∨ ptcUsed s n = true) : (w.testBit 11 && !(ptcUsed s n)) = false := by
  rcases h with h | h <;> simp [h]

theorem pull_go {t : State} (h : w.testBit 11 = false ∨ ptcUsed s n = true) (hl : ptcLoadTs (issued s n inj) n = some t) :
    ptcPull (issued s n inj) n (ptcFresh w inj 0) = ptcDone t n inj false := by
  unfold ptcPull ptcFresh
  simp only [used_issued, pull_past h, Bool.false_eq_true, if_false, hl]

theorem pull_idle (h : w.testBit 11 = false ∨ ptcUsed s n = true) (hw : ptcWords s n = 0) (h10 : w.testBit 10 = true) :
    ptcPull (issued s n inj) n (ptcFresh w inj 0) =
      ptcDone (bump (ptcTsPut (issued s n inj) n (getR (issued s n inj) (PTC_IDLE_WORD n))) (PTC_Counters n 7)) n inj false := by
  unfold ptcPull ptcFresh
  simp only [used_issued, pull_past h, Bool.false_eq_true, if_false, loadTs_none (words_issued.trans hw), h10, if_true]

theorem pull_stall (h : w.testBit 11 = false ∨ ptcUsed s n = true) (hw : ptcWords s n = 0) (h10 : w.testBit 10 = false) :
    ptcPull (issued s n inj) n (ptcFresh w inj 0) = ptcStallAt (issued s n inj) n { ptcFresh w inj 0 with why := 4 } := by
  unfold ptcPull ptcFresh
  simp only [used_issued, pull_past h, Bool.false_eq_true, if_false, loadTs_none (words_issued.trans hw), h10]

theorem wait_pin (h : nbits w 10 9 = 0)
    (hp : ptcPin s n pads (getF s (PTC_PIN_MAP n) 22 16 + nbits w 8 4) = w.testBit 11) :
    ptcWait (issued s n inj) n pads (ptcFresh w inj 0) = ptcDone (issued s n inj) n inj false := by
  unfold ptcWait ptcFresh
  simp only [h, getF_issued, pin_issued, hp, beq_self_eq_true, if_true]

theorem wait_pin_not (h : nbits w 10 9 = 0)
    (hp : ptcPin s n pads (getF s (PTC_PIN_MAP n) 22 16 + nbits w 8 4) ≠ w.testBit 11) :
    ptcWait (issued s n inj) n pads (ptcFresh w inj 0) = ptcStallAt (issued s n inj) n { ptcFresh w inj 0 with why := 1 } := by
  unfold ptcWait ptcFresh
  simp only [h, getF_issued, pin_issued, beq_eq_false_iff_ne.2 hp, Bool.false_eq_true, if_false]

theorem wait_out (h : nbits w 10 9 = 1) :
    ptcWait (issued s n inj) n pads (ptcFresh w inj 0) =
      if ptcWords s n ≠ 0 then ptcDone (issued s n inj) n inj false
      else ptcStallAt (issued s n inj) n { ptcFresh w inj 0 with why := 1 } := by
  unfold ptcWait ptcFresh
  simp only [h, words_issued, decide_eq_true_eq]

theorem wait_room (h : nbits w 10 9 = 2) :
    ptcWait (issued s n inj) n pads (ptcFresh w inj 0) =
      if fiqFits s n 2 then ptcDone (issued s n inj) n inj false
      else ptcStallAt (issued s n inj) n { ptcFresh w inj 0 with why := 1 } := by
  have hf : fiqFits (issued s n inj) n 2 = fiqFits s n 2 := by cases inj <;> rfl
  unfold ptcWait ptcFresh
  simp only [h, hf]

theorem at_t (h : nbits w 11 10 = 0) :
    ptcAt (issued s n inj) n (ptcFresh w inj 0) =
      (let late := decide ((ptc s n).t ≤ coreTense s)
       let s2 := if late then ptcNote (issued s n inj) n 3 1 else issued s n inj
       ptcDone (ptcMod s2 n fun q => { q with t := (ptc s n).t, armed := some (w.testBit 9, late) }) n inj false) := by
  have ht : (ptc (issued s n inj) n).t = (ptc s n).t := by rw [ptc_issued]; cases inj <;> rfl
  have hn : coreTense (issued s n inj) = coreTense s := by cases inj <;> rfl
  unfold ptcAt ptcFresh
  simp only [h, ht, hn, Bool.true_and]

theorem at_pkt {k : PtcPkt} {r : List PtcPkt} (h : nbits w 11 10 = 1) (hk : (ptc s n).pkts = k :: r) :
    ptcAt (issued s n inj) n (ptcFresh w inj 0) =
      (let late := k.timed && decide (k.start ≤ coreTense s)
       let s2 := if late then ptcNote (issued s n inj) n 3 1 else issued s n inj
       ptcDone (ptcMod s2 n fun q => { q with t := k.start, armed := some (w.testBit 9, late) }) n inj false) := by
  have hn : coreTense (issued s n inj) = coreTense s := by cases inj <;> rfl
  unfold ptcAt ptcFresh
  simp only [h, pkts_issued, hk, hn]

theorem at_none (h : nbits w 11 10 = 1) (hk : (ptc s n).pkts = []) :
    ptcAt (issued s n inj) n (ptcFresh w inj 0) = ptcStallAt (issued s n inj) n { ptcFresh w inj 0 with why := 2 } := by
  unfold ptcAt ptcFresh
  simp only [h, pkts_issued, hk]

theorem at_now (h : nbits w 11 10 = 2) :
    ptcAt (issued s n inj) n (ptcFresh w inj 0) =
      ptcDone (ptcMod (issued s n inj) n fun q => { q with
        t := coreTense s + BitVec.ofNat 64 (ptc s n).c0.toNat, armed := some (w.testBit 9, false) }) n inj false := by
  have hc : (ptc (issued s n inj) n).c0 = (ptc s n).c0 := by rw [ptc_issued]; cases inj <;> rfl
  have hn : coreTense (issued s n inj) = coreTense s := by cases inj <;> rfl
  unfold ptcAt ptcFresh
  simp only [h, hc, hn, Bool.false_and, Bool.false_eq_true, if_false]

theorem jmp_0 (h : nbits w 11 9 = 0) :
    ptcJmp (issued s n inj) n pads w inj = ptcDone (ptcSetPc (issued s n inj) n (nbits w 8 4)) n inj true := by
  unfold ptcJmp
  simp only [h, if_true]

theorem jmp_3 (h : nbits w 11 9 = 3) :
    ptcJmp (issued s n inj) n pads w inj =
      if (ptc s n).c0 = (ptc s n).c1 then ptcDone (ptcSetPc (issued s n inj) n (nbits w 8 4)) n inj true
      else ptcDone (issued s n inj) n inj false := by
  have h0 : (ptc (issued s n inj) n).c0 = (ptc s n).c0 := by rw [ptc_issued]; cases inj <;> rfl
  have h1 : (ptc (issued s n inj) n).c1 = (ptc s n).c1 := by rw [ptc_issued]; cases inj <;> rfl
  unfold ptcJmp
  simp only [h, h0, h1, decide_eq_true_eq]

theorem jmp_4 (h : nbits w 11 9 = 4) :
    ptcJmp (issued s n inj) n pads w inj =
      if ptcPin s n pads (getF s (PTC_PIN_MAP n) 30 24) = false then ptcDone (ptcSetPc (issued s n inj) n (nbits w 8 4)) n inj true
      else ptcDone (issued s n inj) n inj false := by
  unfold ptcJmp
  simp only [h, pin_issued, getF_issued, Bool.not_eq_true']

theorem jmp_5 (h : nbits w 11 9 = 5) :
    ptcJmp (issued s n inj) n pads w inj =
      if ptcPin s n pads (getF s (PTC_PIN_MAP n) 30 24) = true then ptcDone (ptcSetPc (issued s n inj) n (nbits w 8 4)) n inj true
      else ptcDone (issued s n inj) n inj false := by
  unfold ptcJmp
  simp only [h, pin_issued, getF_issued]

theorem jmp_6 (h : nbits w 11 9 = 6) :
    ptcJmp (issued s n inj) n pads w inj =
      if ptcUsed s n = true then ptcDone (ptcSetPc (issued s n inj) n (nbits w 8 4)) n inj true
      else ptcDone (issued s n inj) n inj false := by
  unfold ptcJmp
  simp only [h, used_issued]

theorem jmp_7 (h : nbits w 11 9 = 7) :
    ptcJmp (issued s n inj) n pads w inj =
      if ptcPkt s n ≠ 0 then ptcDone (ptcSetPc (issued s n inj) n (nbits w 8 4)) n inj true
      else ptcDone (issued s n inj) n inj false := by
  unfold ptcJmp
  simp only [h, pkt_issued, decide_eq_true_eq]

theorem word_dec_ne (x : Word) : (x - 1 ≠ 0) = (x ≠ 1) := by
  refine propext (not_congr ⟨fun h => ?_, fun h => by rw [h]; rfl⟩)
  bv_omega

theorem jmp_1 (h : nbits w 11 9 = 1) :
    ptcJmp (issued s n inj) n pads w inj =
      (let s2 := ptcMod (issued s n inj) n fun q => { q with c0 := q.c0 - 1 }
       if (ptc s n).c0 ≠ 1 then ptcDone (ptcSetPc s2 n (nbits w 8 4)) n inj true else ptcDone s2 n inj false) := by
  have h0 : (ptc (issued s n inj) n).c0 = (ptc s n).c0 := by rw [ptc_issued]; cases inj <;> rfl
  unfold ptcJmp
  simp only [h, decide_eq_true_eq, ptc_ptcMod, h0, word_dec_ne]

theorem jmp_2 (h : nbits w 11 9 = 2) :
    ptcJmp (issued s n inj) n pads w inj =
      (let s2 := ptcMod (issued s n inj) n fun q => { q with c1 := q.c1 - 1 }
       if (ptc s n).c1 ≠ 1 then ptcDone (ptcSetPc s2 n (nbits w 8 4)) n inj true else ptcDone s2 n inj false) := by
  have h0 : (ptc (issued s n inj) n).c1 = (ptc s n).c1 := by rw [ptc_issued]; cases inj <;> rfl
  unfold ptcJmp
  simp only [h, decide_eq_true_eq, ptc_ptcMod, h0, word_dec_ne]

/-! Who may change an engine, and what ABORT and OWN leave. -/

theorem lets_of {m : Master} (h : m = mSSP ∨ getB s (PTC_GUARDED n) 0 = false) : ptcLets s m n = true := by
  unfold ptcLets
  rcases h with h | h
  · rw [decide_eq_true h]; rfl
  · rw [h]; simp

theorem lets_not {m : Master} (h1 : m ≠ mSSP) (h2 : getB s (PTC_GUARDED n) 0 = true) : ptcLets s m n = false := by
  unfold ptcLets
  rw [decide_eq_false h1, h2]; rfl

theorem ptc_congr {a b : State} (h : b.ptc = a.ptc) (k : Nat) : ptc b k = ptc a k := by unfold ptc; rw [h]

theorem ptc_first (h : (ptc s n).ran = true) : ptcFirst n s = s := by
  unfold ptcFirst
  rw [if_neg (by rw [h]; simp)]

theorem ptc_raiseIrq (b i : Nat) : (raiseIrq s b i).ptc = s.ptc :=
  (Keeps.only (m := [.regs, .outs, .intc]) (K.raiseIrq (by decide) (by decide) (by decide) (Keeps.refl _ _))).2 .ptc (by decide)

theorem ran_first : (ptc (ptcFirst n s) n).stall = (ptc s n).stall ∧ (ptc (ptcFirst n s) n).armed = (ptc s n).armed ∧
    (ptc (ptcFirst n s) n).rs = (ptc s n).rs ∧ (ptc (ptcFirst n s) n).rsN = (ptc s n).rsN ∧
    (ptc (ptcFirst n s) n).ts = (ptc s n).ts ∧ (ptc (ptcFirst n s) n).tsN = (ptc s n).tsN := by
  unfold ptcFirst
  split
  · simp only [ptc_ptcMod, and_self]
  · simp only [and_self]

theorem abortNow_clears {v : Word} :
    let t := answer (ptcFirst n (ptcAbortNow n s)) v
    (ptc t n).stall = none ∧ (ptc t n).armed = none ∧ (ptc t n).rs = 0 ∧ (ptc t n).rsN = 0 ∧
      (ptc t n).ts = 0 ∧ (ptc t n).tsN = 0 := by
  have ha : ∀ x : State, ptc (answer x v) n = ptc x n := fun _ => rfl
  dsimp only
  rw [ha]
  obtain ⟨h1, h2, h3, h4, h5, h6⟩ := ran_first (s := ptcAbortNow n s) (n := n)
  rw [h1, h2, h3, h4, h5, h6]
  unfold ptcAbortNow
  dsimp only
  rw [ptc_congr (ptc_raiseIrq _ _), ptc_ptcMod]
  exact ⟨rfl, rfl, rfl, rfl, rfl, rfl⟩

theorem own_free {m : Master} {k : Nat} {v : Word} (hl : ptcLets s m n = true) (hr : getB s (PTC_CTRL n) 0 = false)
    (hf : ∀ j < 32, (bit v j && ptcTaken s n (32 * k + j)) = false) :
    let t := answer (ptcOwn m n k v s) 0
    getR t (PTC_OWN n k) = v ∧ (ptc t n).conflict = false ∧ Only [.regs, .ptc, .resp] s t := by
  have he : ((List.range 32).filter fun j => bit v j && ptcTaken s n (32 * k + j)) = [] := by
    rw [List.filter_eq_nil_iff]
    intro j hj
    rw [hf j (List.mem_range.1 hj)]
    decide
  unfold ptcOwn ptcGuarded
  simp only [hl, hr, he, if_true, Bool.false_eq_true, if_false, List.foldl_nil]
  refine ⟨?_, ?_, ?_⟩
  · rw [show ∀ x : State, getR (answer x 0) (PTC_OWN n k) = getR x (PTC_OWN n k) from fun _ => rfl, getR_ptcMod, getR_setR_same]
  · rw [show ∀ x : State, ptc (answer x 0) n = ptc x n from fun _ => rfl, ptc_ptcMod]
    simp
  · refine Keeps.only ?_
    repeat' (first | exact Keeps.refl _ _ | apply K.answer | apply K.ptcMod | apply K.setR | decide)

end Sys2Proof.Laws
end

