-- ==== Sys2Proof/Laws/Thermal.lean ====
section
/-! SUPPORT. What a sensor sample and a calibration leave in the sensors' registers. -/

namespace Sys2Proof.Laws

open Sys2Proof Sys2Proof.Machine Sys2Proof.Machine.Reg

theorem sensor_still (i : Fin 24) : Still (TMP_SENSOR i.val) ∧ TMP_SENSOR i.val ≠ IRQ_STATUS TMP ∧
    TMP_SENSOR i.val ≠ IRQ_RAW TMP ∧ TMP_SENSOR i.val ≠ TMP_MAX := by
  have := i.isLt
  simp only [Still, TMP_SENSOR, IRQ_STATUS, IRQ_RAW, TMP_MAX, TMP, INT, INT_MSI_X_PBA]
  omega

theorem getR_setRaw {a b : Nat} (h : Still a) (h1 : a ≠ IRQ_STATUS b) (h2 : a ≠ IRQ_RAW b) (s : State) (i : Nat)
    (v : Bool) : getR (setRaw s b i v) a = getR s a := by
  unfold setRaw
  dsimp only
  split
  · rw [getR_raiseIrq h h1]; exact getR_putB_ne h2
  · exact getR_putB_ne h2

theorem tmpMax_sensor (s : State) (i : Fin 24) : getR (tmpMax s) (TMP_SENSOR i.val) = getR s (TMP_SENSOR i.val) := by
  obtain ⟨h1, h2, h3, h4⟩ := sensor_still i
  unfold tmpMax
  dsimp only
  rw [getR_setRaw h1 h2 h3]
  split
  · exact getR_setR_ne h4
  · rfl

theorem sensorTake_other {s : State} {i j : Nat} {t : BitVec 16} (h : j ≠ i) :
    getR (sensorTake s i t) (TMP_SENSOR j) = getR s (TMP_SENSOR j) := by
  unfold sensorTake
  split
  · rfl
  · exact getR_setR_ne (by simp only [TMP_SENSOR]; omega)

theorem sensorTake_badCal (s : State) (i : Nat) (t : BitVec 16) : (sensorTake s i t).pwr.badCal = s.pwr.badCal := by
  unfold sensorTake
  split <;> rfl

theorem sensorsTake_below {j : Nat} : ∀ (l : List (BitVec 16)) (i : Nat) (s : State), j < i →
    getR (sensorsTake s i l) (TMP_SENSOR j) = getR s (TMP_SENSOR j) := by
  intro l
  induction l with
  | nil => intro i s _; rfl
  | cons t r ih =>
    intro i s h
    unfold sensorsTake
    split
    · rw [ih _ _ (by omega), sensorTake_other (by omega)]
    · rfl

theorem sensorsTake_at {j : Nat} (hj : j < 24) : ∀ (l : List (BitVec 16)) (i : Nat) (s : State), s.pwr.badCal = 0 → i ≤ j →
    j < i + l.length →
    getR (sensorsTake s i l) (TMP_SENSOR j) = w32 (0x80000000 + (l[j - i]?.getD 0).toNat) := by
  intro l
  induction l with
  | nil => intro i s _ h1 h2; simp only [List.length_nil] at h2; omega
  | cons t r ih =>
    intro i s hb h1 h2
    unfold sensorsTake
    rw [if_pos (by omega)]
    by_cases he : j = i
    · subst he
      rw [sensorsTake_below r _ _ (by omega)]
      unfold sensorTake
      rw [hb, Nat.zero_testBit]
      simp only [Bool.false_eq_true, if_false]
      rw [getR_with_pwr, getR_setR_same, Nat.sub_self]
      rfl
    · rw [ih _ _ ((sensorTake_badCal _ _ _).trans hb) (by omega) (by simp only [List.length_cons] at h2; omega)]
      rw [show j - i = j - (i + 1) + 1 by omega]
      rfl

/-- Every sensor that has not failed its calibration shows its reading of the sample. -/
theorem sensorSample_reads {l : List (BitVec 16)} {s : State} (hl : l.length = 24) (hb : s.pwr.badCal = 0) (i : Fin 24) :
    getR (sensorSample l s) (TMP_SENSOR i.val) = w32 (0x80000000 + (l[i.val]?.getD 0).toNat) := by
  unfold sensorSample
  rw [tmpMax_sensor]
  obtain ⟨c, hc⟩ := pwr_advanceCycles s 2500
  rw [sensorsTake_at i.isLt l 0 _ (by rw [hc]; exact hb) (Nat.zero_le _) (by rw [hl]; have := i.isLt; omega)]
  rfl

theorem pwr_tmpMax (s : State) : (tmpMax s).pwr = s.pwr :=
  (K.tmpMax (pset := [.regs, .outs, .intc]) (by decide) (by decide) (by decide) (Keeps.refl _ s)).pwr.resolve_left (by decide)

theorem calibrate_badCal (bad : Nat) (s : State) : (calibrate bad s).pwr.badCal = bad := by
  unfold calibrate
  dsimp only
  rw [pwr_tmpMax]
  have hf : ∀ u : State, u.pwr.badCal = bad → ((List.range 24).foldl
      (fun t i => if bad.testBit i then putB t (TMP_SENSOR i) 31 false else t) u).pwr.badCal = bad := by
    intro u hu
    refine foldl_keeps (P := fun t : State => t.pwr.badCal = bad) hu fun t i _ ht => ?_
    split
    · exact ht
    · exact ht
  split
  · rw [(K.raiseIrq (pset := [.regs, .outs, .intc]) (b := TMP) (i := 1) (by decide) (by decide) (by decide)
      (Keeps.refl _ _)).pwr.resolve_left (by decide)]
    exact hf _ rfl
  · exact hf _ rfl

/-- A sensor that fails its calibration is invalid. -/
theorem calibrate_invalid (bad : Nat) (s : State) (i : Fin 24) (h : bad.testBit i.val = true) :
    getB (calibrate bad s) (TMP_SENSOR i.val) 31 = false := by
  have hf : ∀ (l : List Nat) (u : State), (i.val ∈ l ∨ getB u (TMP_SENSOR i.val) 31 = false) →
      getB (l.foldl (fun t i => if bad.testBit i then putB t (TMP_SENSOR i) 31 false else t) u) (TMP_SENSOR i.val) 31 = false := by
    intro l
    induction l with
    | nil =>
      intro u hu
      rcases hu with hu | hu
      · cases hu
      · exact hu
    | cons x r ih =>
      intro u hu
      rw [List.foldl_cons]
      refine ih _ ?_
      by_cases hx : x = i.val
      · refine .inr ?_
        rw [hx, if_pos h]
        unfold getB
        rw [getR_putB_same, bit_setBit_same (by decide)]
      · rcases hu with hu | hu
        · rcases List.mem_cons.1 hu with hu | hu
          · exact absurd hu.symm hx
          · exact .inl hu
        · refine .inr ?_
          split
          · unfold getB
            rw [getR_putB_ne (by simp only [TMP_SENSOR]; omega)]
            exact hu
          · exact hu
  obtain ⟨h1, h2, _, _⟩ := sensor_still i
  have hm : i.val ∈ List.range 24 := List.mem_range.2 i.isLt
  have hx := hf (List.range 24) { s with pwr := { s.pwr with badCal := bad } } (.inl hm)
  unfold calibrate
  dsimp only
  unfold getB at hx ⊢
  rw [tmpMax_sensor]
  split
  · rw [getR_raiseIrq h1 h2]; exact hx
  · exact hx

end Sys2Proof.Laws
end

