-- ==== Sys2Proof/WellFormed.lean ====
section
/-! DEFINITION. Well-formed commands: the operands that their types do not already confine are what the spec lets a
command carry. `exec` gives every command a meaning; these checks say which of them the outside world can send. -/

namespace Sys2Proof

/-- A master number that some master carries (R9). -/
def masterOk (m : Master) : Bool := decide (1 ≤ m.toNat) && decide (m.toNat ≤ 55)

/-- The base of a register page (R37, R44). -/
def pageOk (a : Word) : Bool :=
  decide (a.toNat % 4096 = 0) && decide (0x10000000 ≤ a.toNat) && decide (a.toNat < 0x14000000)

/-- Bytes that lie in one row of a bank, at least one of them (R422, R434). -/
def rowOk (a : Word) (l : List Byte) : Bool := decide (1 ≤ l.length) && decide (a.toNat % 16 + l.length ≤ 16)

/-- Whether a command is well formed. -/
def Instr.wellFormed (i : Instr) : Bool :=
  match i with
  | .registerWrite m _ _ _ => masterOk m
  | .cfgLockWrite m page _ => masterOk m && pageOk page
  | .softRst m page _ => masterOk m && pageOk page
  | .blockPowerRequest m page _ => masterOk m && pageOk page
  | .blockPowerChangeDone page => pageOk page
  | .irqForce m page _ => masterOk m && pageOk page
  | .cntSnap m page _ => masterOk m && pageOk page
  | .secWpolWrite m _ _ => masterOk m
  | .denyCountRead m => masterOk m
  | .swSet m _ => masterOk m
  | .swClr m _ => masterOk m
  | .routeWrite m _ _ => masterOk m
  | .maskWrite m _ _ => masterOk m
  | .hostEoi m _ => masterOk m
  | .por _ => true
  | .pinReset _ => true
  | .brownCore _ => true
  | .brownAon _ => true
  | .lpOverload _ => true
  | .wdtSsp _ => true
  | .lockstepMismatch _ => true
  | .softReset m _ => masterOk m
  | .thermalTrip _ => true
  | .thermalHoldEnd => true
  | .resetRelease _ => true
  | .aonCrystalConfirmed => true
  | .pushBoot m _ _ => masterOk m
  | .enrol m _ => masterOk m
  | .erase m => masterOk m
  | .debugUnlock m _ => masterOk m
  | .debugLock m => masterOk m
  | .vaultEraseComplete => true
  | .bundleRegisterWrites => true
  | .bundleOwnerTransfer _ => true
  | .bundleVaultPolicy => true
  | .bundleEraseVault => true
  | .macReceive _ _ _ => true
  | .macControlReceive _ _ => true
  | .pauseReceive _ _ _ => true
  | .pauseExpiry _ => true
  | .pauseXoffSend _ => true
  | .pauseRefresh _ => true
  | .pauseXonSend _ => true
  | .egressSelect _ _ => true
  | .macTransmitEnd _ => true
  | .ageingHeadCheck => true
  | .gateIntervalExpiry _ => true
  | .gateSwapArm m _ _ => masterOk m
  | .gateBankSwap _ => true
  | .hsrPassThrough _ _ _ => true
  | .tblWrite m _ => masterOk m
  | .tblRead m _ => masterOk m
  | .fdbWrite m _ => masterOk m
  | .fdbInsert m _ => masterOk m
  | .fdbDelete m _ => masterOk m
  | .fdbLookup m _ => masterOk m
  | .agePeriodWrite m _ => masterOk m
  | .fdbAgeSweep => true
  | .purgeScanComplete => true
  | .withdrawalPost => true
  | .withdrawalScanComplete => true
  | .dropRingLostRead m => masterOk m
  | .smpLostRead m => masterOk m
  | .gateAdmission _ => true
  | .unitTakesEntry _ => true
  | .signatureResult _ _ => true
  | .verdict _ => true
  | .replayMarkDurable _ => true
  | .gateHoldLimitExpiry _ => true
  | .catInstall m _ => masterOk m
  | .catEnable m _ => masterOk m
  | .catDisable m _ => masterOk m
  | .catRevoke m _ => masterOk m
  | .catRead m _ => masterOk m
  | .catCommandDurable => true
  | .sieveWrite m _ => masterOk m
  | .sieveRead m _ => masterOk m
  | .keyPoolWrite m _ _ => masterOk m
  | .vrSizeWrite m _ => masterOk m
  | .vrOverrunRead m => masterOk m
  | .gateCtrlWrite m _ => masterOk m
  | .svcPost _ _ => true
  | .serviceRequestEnd _ => true
  | .supplyWarning _ => true
  | .supplyVerifyAbandon => true
  | .supplyWarningClear _ => true
  | .cntIncrement m _ => masterOk m
  | .cntRaise m _ => masterOk m
  | .cntRead m _ => masterOk m
  | .counterDurable => true
  | .journalExport m _ => masterOk m
  | .journalExportDone => true
  | .auditDroppedRead m => masterOk m
  | .logCompaction _ => true
  | .journalSecondEnd => true
  | .journalAllowanceAccrual => true
  | .linkUp _ _ _ => true
  | .linkDown _ _ _ _ => true
  | .sdsEnable m _ => masterOk m
  | .anRestart m _ => masterOk m
  | .prbsErrRead m _ _ => masterOk m
  | .verifySend _ => true
  | .respondReceive _ => true
  | .verifyReceive _ => true
  | .lpiEntry _ => true
  | .lpiExit _ => true
  | .lpiRx _ _ => true
  | .redCtrlWrite m _ _ => masterOk m
  | .dupEntryExpiry _ => true
  | .mdioRead m _ _ => masterOk m
  | .mdioWrite m _ _ => masterOk m
  | .mdioAddress m _ _ => masterOk m
  | .mdioPostReadIncrement m _ _ => masterOk m
  | .mdioFrameEnd _ _ => true
  | .plkCommit m _ => masterOk m
  | .plkUncommit m _ => masterOk m
  | .plkStart m _ => masterOk m
  | .plkStop m _ => masterOk m
  | .requestMode m _ _ => masterOk m
  | .cycleStart _ _ => true
  | .fetchPoint _ _ => true
  | .actionPoint _ _ => true
  | .plTransmitEnd _ => true
  | .plFrameReceive _ _ _ _ _ => true
  | .slotEnd _ _ => true
  | .nitStart _ => true
  | .listenTimeout _ _ => true
  | .echoMismatch _ _ => true
  | .guardianWindowOpen _ _ => true
  | .guardianWindowClose _ _ => true
  | .comparatorFire _ _ => true
  | .mdbStart m _ => masterOk m
  | .mdbStop m _ => masterOk m
  | .recover m _ => masterOk m
  | .abort m _ _ => masterOk m
  | .integrationComplete _ => true
  | .recoveryComplete _ => true
  | .txBufferLoad _ _ => true
  | .arbitrationStart _ => true
  | .mdbFrameSent _ _ => true
  | .mdbFrameFailed _ _ _ _ _ => true
  | .mdbLifeExpiry _ _ => true
  | .mdbFrameReceive _ rec_ _ _ _ _ _ => decide (8 ≤ rec_.length)
  | .rxFifoDrain _ => true
  | .mdbModeChange _ => true
  | .mdbWake _ => true
  | .lastErrRead m _ => masterOk m
  | .ptcNop _ => true
  | .ptcSet _ => true
  | .ptcMov _ _ => true
  | .ptcOut _ => true
  | .ptcIn _ _ => true
  | .ptcPush _ => true
  | .ptcPull _ => true
  | .ptcWait _ _ => true
  | .ptcAt _ => true
  | .ptcJmp _ _ => true
  | .ptcIllegal _ => true
  | .ptcStallEnd _ _ => true
  | .atFire _ _ => true
  | .packetLoad _ => true
  | .progWrite m _ _ _ => masterOk m
  | .inject m _ _ => masterOk m
  | .ptcAbort m _ _ => masterOk m
  | .ptcRestart m _ _ => masterOk m
  | .ptcRun m _ _ => masterOk m
  | .ownWrite m _ _ _ => masterOk m
  | .dmaRecv _ => true
  | .dmaSend _ => true
  | .dmaRead _ => true
  | .dmaWrite _ => true
  | .dmaCplRead _ => true
  | .qhTxHeadWrite _ _ _ => true
  | .qhRxTailWrite _ _ _ => true
  | .jobNextRead _ => true
  | .jobEnd _ _ => true
  | .jobCompletionRecord => true
  | .crcData _ _ _ => true
  | .tnowLoRead m => masterOk m
  | .timerArm _ _ _ => true
  | .engineTimerFire _ _ => true
  | .engineWdtKick _ _ => true
  | .engineWatchdogExpiry _ => true
  | .ckptCommit _ _ => true
  | .migReady _ _ _ => true
  | .migDone _ _ => true
  | .migrationSwitch _ => true
  | .migrationAbandon _ => true
  | .loadPers m _ _ => masterOk m
  | .unloadPers m _ => masterOk m
  | .rebalance m => masterOk m
  | .declareDead m _ => masterOk m
  | .postJob m _ _ => masterOk m
  | .bindWrite m _ _ => masterOk m
  | .placementRecompute => true
  | .engineDeclaredDead _ _ => true
  | .takeoverComplete _ => true
  | .mgpWatchdogExpiry => true
  | .h32Add _ => true
  | .h32Sub _ => true
  | .h32Neg _ => true
  | .h32And _ => true
  | .h32Or _ => true
  | .h32Xor _ => true
  | .h32Andn _ => true
  | .h32Slt _ => true
  | .h32Sltu _ => true
  | .h32Sll _ => true
  | .h32Srl _ => true
  | .h32Sra _ => true
  | .h32Clz _ => true
  | .h32Sextb _ => true
  | .h32Sexth _ => true
  | .h32Addi _ => true
  | .h32Andi _ => true
  | .h32Ori _ => true
  | .h32Xori _ => true
  | .h32Slti _ => true
  | .h32Sltiu _ => true
  | .h32Lui _ => true
  | .h32Slli _ => true
  | .h32Srli _ => true
  | .h32Srai _ => true
  | .h32Mul _ => true
  | .h32Mulh _ => true
  | .h32Mulhu _ => true
  | .h32Div _ => true
  | .h32Divu _ => true
  | .h32Rem _ => true
  | .h32Remu _ => true
  | .h32Lw _ => true
  | .h32Lh _ => true
  | .h32Lhu _ => true
  | .h32Lb _ => true
  | .h32Lbu _ => true
  | .h32Lwpi _ => true
  | .h32Sw _ => true
  | .h32Sh _ => true
  | .h32Sb _ => true
  | .h32Swpi _ => true
  | .farLoadData _ => true
  | .h32Beq _ => true
  | .h32Bne _ => true
  | .h32Blt _ => true
  | .h32Bge _ => true
  | .h32Bltu _ => true
  | .h32Bgeu _ => true
  | .h32Jal _ => true
  | .h32Jalr _ => true
  | .h32Rpt _ => true
  | .h32Rptu _ => true
  | .h32Wfe _ => true
  | .h32Wfet _ => true
  | .h32Waitt _ => true
  | .waitEnd _ => true
  | .h32Sev _ => true
  | .h32Eret _ => true
  | .h32Ecall _ => true
  | .h32Ebreak _ => true
  | .h32Csrr _ => true
  | .h32Csrw _ => true
  | .h32Csrs _ => true
  | .h32Csrc _ => true
  | .exceptionEntry _ _ => true
  | .interruptEntry _ => true
  | .storeAsync _ => true
  | .coreWdtKick _ => true
  | .bankCtrlWrite m _ _ => masterOk m
  | .drainComplete _ => true
  | .zeroingComplete _ => true
  | .bankPowerRequest m _ _ => masterOk m
  | .bankWakeComplete _ => true
  | .replace m _ => masterOk m
  | .scrubBank m _ => masterOk m
  | .scrubRow _ _ _ _ => true
  | .eccWriteback => true
  | .collide a mA bytesA mB => masterOk mA && masterOk mB && rowOk a bytesA
  | .bankDenial m _ _ => masterOk m
  | .bnkDenyCountRead m => masterOk m
  | .perstAssert _ _ => true
  | .hostTxDescriptor desc _ _ => decide (desc.length = 32)
  | .hostRxFrame descs _ => descs.all fun d => decide (d.length = 32)
  | .tailWrite m _ _ => masterOk m
  | .ringEnable m _ _ => masterOk m
  | .ringStop m _ _ => masterOk m
  | .modUsExpiry _ => true
  | .fifoDataRead m _ => masterOk m
  | .fifoFlush m _ _ => masterOk m
  | .aqPost m _ _ => masterOk m
  | .aqRead m _ => masterOk m
  | .aqFlush m _ _ => masterOk m
  | .lockRead m _ => masterOk m
  | .lockRelease m _ _ => masterOk m
  | .forceRelease m _ => masterOk m
  | .mbxLockRead m _ => masterOk m
  | .mbxLockRelease m _ _ => masterOk m
  | .mbxSend m _ _ => masterOk m
  | .mbxAck m _ _ => masterOk m
  | .mbxReset m _ _ => masterOk m
  | .ref10mLoss => true
  | .ref10mRegain => true
  | .refCtrlWrite m _ => masterOk m
  | .rateWrite m _ _ => masterOk m
  | .adjSet m _ => masterOk m
  | .adjStep m _ => masterOk m
  | .adjSlew m _ _ => masterOk m
  | .adjCancel m _ => masterOk m
  | .slewComplete _ => true
  | .holdLimitExpiry _ => true
  | .tnsSnap m _ => masterOk m
  | .tbNsRead m _ => masterOk m
  | .captureEdge _ _ _ => true
  | .capNsRead m _ => masterOk m
  | .tsrLostRead m => masterOk m
  | .outputArm m _ _ => masterOk m
  | .timedOutputEvent _ => true
  | .pulseEnd _ => true
  | .ppsOutputEvent _ => true
  | .stateReqActive m => masterOk m
  | .stateReqDoze m _ => masterOk m
  | .stateReqRetain m _ => masterOk m
  | .stateReqVault m _ => masterOk m
  | .quiescenceComplete _ => true
  | .quiesceTimeout => true
  | .wakeSource _ => true
  | .wakeComplete _ => true
  | .padRelease m _ => masterOk m
  | .portgrpReqWrite m _ => masterOk m
  | .budgetTick _ _ => true
  | .clusterStepWrite m _ _ => masterOk m
  | .clusterStepApplied _ => true
  | .sensorSample t => decide (t.length = 24)
  | .rtcAlarm => true
  | .rtcSecWrite m _ => masterOk m
  | .mgtAddressMatch _ _ => true
  | .mgtByte _ _ => true
  | .rxDataRead m => masterOk m
  | .txDataWrite m _ => masterOk m
  | .telemetrySnapshot => true
  | .atbSelect m _ _ => masterOk m
  | .atbConnect _ => true
  | .atbEnablementChange => true
  | .refusedRead m => masterOk m
  | .tapReset => true
  | .extest => true
  | .idcode => true
  | .samplePreload => true
  | .extestPulse => true
  | .extestTrain => true
  | .clamp => true
  | .highz => true
  | .dbgAccess => true
  | .prodTest => true
  | .bypass _ => true
  | .perstRelease => true
  | .pcieLinkUp _ _ => true
  | .pmicEnDrivenHigh => true
  | .releaseRecordDurable _ => true
  | .pllLockLost _ => true
  | .sensorCalibration _ => true
  | .stretchMaxExpiry => true

end Sys2Proof
end

