-- ==== Sys2Proof/Tests/Slice0.lean ====
section
/-! SUPPORT. The model's own tests: the well-formedness checks refuse, the reset state, small steps from the spec's
examples, and states that meet the hypotheses of the statements. -/

set_option maxRecDepth 20000

namespace Sys2Proof.Tests

open Sys2Proof Sys2Proof.Machine Sys2Proof.Machine.Reg

/-- A device that runs: out of reset, its blocks up, PHASE = RUN. -/
def live : State :=
  let r := State.reset
  let s := { r with
    sys := { r.sys with held := false, ready := 2 }
    time := { r.time with running := true } }
  setR s SYS_BOOT_STATUS 8

/-- Shared memory with some bytes from 0x0400_0000 on as a command's argument of `n` bytes. -/
def withArg (s : State) (l : List Byte) (n : Nat) : State :=
  setR (setR (wrBytes s 0x04000000 l) SYS_CMD_ADDR 0x04000000) SYS_CMD_LEN (w32 n)

/-- A device that is in a reset with its rails up. -/
def inReset : State := { live with sys := { live.sys with held := true, pmicEn := true, pmicSramEn := true } }

/-- Start-up facts: sound logic, nothing repaired, the strap value `mode`. -/
def env (mode : BitVec 2) : BootEnv :=
  { us := 1000, bootMode := mode, eraseN := false, mgtAddr := 0, failBlock := 0, failBanks := [], repaired := [], failEngines := []
    primary := ⟨[], false, false⟩, secondary := ⟨[], false, false⟩, badPages := [] }

/-- A section entry of an image for a section of no bytes, with the SHA-256 of the empty string. -/
def emptySection (ty : Byte) : List Byte :=
  ty :: List.replicate 15 0 ++
  [0xE3, 0xB0, 0xC4, 0x42, 0x98, 0xFC, 0x1C, 0x14, 0x9A, 0xFB, 0xF4, 0xC8, 0x99, 0x6F, 0xB9, 0x24
    , 0x27, 0xAE, 0x41, 0xE4, 0x64, 0x9B, 0x93, 0x4C, 0xA4, 0x95, 0x99, 0x1B, 0x78, 0x52, 0xB8, 0x55]

/-- An image of two empty firmware sections under the all-zero vendor key of slot 0. -/
def smallImage : List Byte :=
  leBytes 4 0x4E524C42 ++ leBytes 2 1 ++ leBytes 2 2 ++ leBytes 4 5389 ++ List.replicate 20 0 ++ List.replicate 1952 0 ++
  emptySection 1 ++ emptySection 2

/-- A fuse slot for the all-zero vendor key. -/
def zeroKeySlot : FuseSlot :=
  { programmed := true, revoked := false, hash := BitVec.ofNat 256 (beNat (sha256 (List.replicate 1952 0))) }

/-- A device with an open vault that waits for an image, with `smallImage` in memory. -/
def pushState : State :=
  let s := putB (withArg (putF live SYS_BOOT_STATUS 7 0 0xE) [] 5389) VLT_STATUS 31 true
  { s with
    mem := (smallImage.zipIdx.filter fun e => decide (e.1 ≠ 0)).map fun e => (0x04000000 + e.2, e.1)
    sys := { s.sys with slots := [zeroKeySlot] } }

/-- An UNOWNED device with a valid enrolment record in memory. -/
def enrolState : State := putB (withArg live [4, 0, 5, 0x20] 3736) VLT_STATUS 31 true

/-- An OWNED device with a valid unlock token in memory. -/
def tokenState : State :=
  let s := putF (withArg live [1, 4] 2452) SYS_OWNER_STATE 1 0 1
  { s with gate := { s.gate with cat := [(0, { CatEnt.empty with state := 1, alg := 4 })] } }

/-- A bundle of a kind, without records. -/
def bundleOf (kind : Byte) : Bundle := { tag := 1, keyId := 0, bytes := [1, kind, 0, 0, 0, 0, 0, 0, 0, 0, 0, 0, 0, 0, 0, 9] }

/-- A VAULT_POLICY bundle. -/
def policyBundle : Bundle := { bundleOf 3 with bytes := (bundleOf 3).bytes ++ [0, 0, 0, 5] }

/-- An OWNER_TRANSFER bundle. -/
def transferBundle : Bundle :=
  { bundleOf 2 with bytes := (bundleOf 2).bytes ++ [4, 0, 5, 0x20] ++ List.replicate 3732 0 }

/-- An ERASE_VAULT bundle. -/
def eraseBundle : Bundle := bundleOf 4


/-- A MAC port that is up and listens and sends. -/
def portUp (p : Nat) : State := setR (setR (setR live (BLK_CTRL (MAC p)) 1) (MAC_LINK p) 0x20) (MAC_CFG p) 3

/-- Port 0 as the A port of an HSR pair. -/
def ringPort : State :=
  let s := putF (portUp 0) (MAC_RED_CTRL 0) 29 28 2
  { s with eth := { s.eth with pair := [(0, { PairSt.init with ports := some (0, 1) })] } }

/-- A MAC port that may start frames. -/
def sendPort (p : Nat) : State := putB (putB (portUp p) (BLK_CTRL SWC) 0 true) (SWC_PORT p) 1 true

/-- The descriptor of a stored frame of 60 zero bytes from port 1, in cell 0. -/
def sentDesc : Desc :=
  { len := 60, trunc := false, imp := false, disp := 0, tc := 0, src := 1, check := crc32c (List.replicate 60 0)
    handle := 0, verdict := 0, engine := 0, remadeBy := 0xFF, itemTag := 0, epoch := 0, enqUs := 0, keyId := 0, channel := 1
    rxTime := 0, rxTense := 0, flags := 0, head := 0, dropRec := false, pairSeq := [], fromPair := none }

/-- The frame. -/
def sentFrame : Frame := { sentDesc with bytes := List.replicate 60 0, poison := false }

/-- `sentFrame` waits at MAC port 0 and at the Gate's port. -/
def queuedState : State :=
  let s := putB (sendPort 0) (SWC_PORT 209) 1 true
  { s with sw := { s.sw with frames := [(0, sentDesc)], link := [(0, 2)], queue := [⟨0, 0, 0⟩, ⟨209, 0, 0⟩] } }

/-- A frame in transmission. -/
def sentTx : TxFrame :=
  { bytes := List.replicate 60 0, cls := 0, tag := 0, pass := false, sent := 0, preempted := false, start := 0, rec_ := [] }

/-- The parameters of a gate list. -/
def gateParm : GateParm := { cycle := 100, base := 0, tb := 0, start := 0, frozen := 0xFF }

/-- Port 5 runs a gate list of one entry. -/
def gateListState : State :=
  let s := setR (setR (putB live (SWC_PORT 5) 4 true) (SWC_GATE_CTRL 5) 1) (SWC_GLIST 5 0 0) 1
  { s with sw := { s.sw with goper := [(5, gateParm)] } }

/-- The SSP's staged FDB entry: VLAN 1, address 0, port 0. -/
def fdbState : State := setR (setR live (perM mSSP (FDB_STAGE 1)) 0x00010000) (perM mSSP (FDB_STAGE 2)) 0x80000000

/-- The same, with the key's entry in the table. -/
def fdbHeld : State :=
  { fdbState with sw := { fdbState.sw with fdb := [(4 * fdbSet fdbState 1 0, [0, 0x00010000, 0x80000000, 0])] } }

/-- An envelope under entry 1 for channel 0 with one byte of INNER and sequence number 256 k + 1. -/
def gateEnv (k : Byte) : List Byte := [1, 0, 0, 0x10, 0, 0, 0, 1, 0, 0, 0, 0, 0, 0, k, 1] ++ List.replicate 17 0

/-- A pending entry with tag 7. -/
def pendEnt (p : PPhase) : PEnt :=
  { tag := 7, env := gateEnv 0, port := 1, engine := 0x3F, srcMac := [], fid := 0, phase := p }

/-- It waits at the Gate, and entry 1 of the table holds its Ed25519 key. -/
def gateState (p : PPhase) : State :=
  { live with gate := { live.gate with
      pend := [pendEnt p], cat := [(1, { CatEnt.empty with state := 1, alg := 2, chanHi := 0x1FF })] } }

/-- A passed imperative. -/
def relEnt : REnt :=
  { tag := 7, env := gateEnv 0, port := 1, engine := 0x3F, srcMac := [], phase := .passed, slot := none, sum := false, at_ := 0
    fid := none }

/-- A record at a Gate entry. -/
def heldEnt : GEnt := { tag := 7, keyId := 16, bytes := [0], check := 0, at_ := 0, handle := 0xFFFF, verdict := 1, loc := 0, pend := none }

/-- An OWNED device with an acceptable ML-DSA-44 entry in the staging words. -/
def stageState : State :=
  setR (setR (putF live SYS_OWNER_STATE 1 0 1) (IMG_CAT_STAGE 0) (w32 ((CatEnt.empty.lastGen + 1) % 16 * 0x1000000 + 0x40000)))
    (IMG_CAT_STAGE 1) 1312

/-- A service request's descriptor: operation `op` with a key, one byte of data and a tag in the engine's scratch bank. -/
def svcDesc (op : Byte) : List Byte :=
  [0xFF, 0xFF, op, 32] ++ leBytes 4 0x04000200 ++ leBytes 4 1 ++ leBytes 4 0x04000300 ++ leBytes 4 0x04000100 ++ [16, 0, 0, 0] ++
    List.replicate 8 0

/-- Engine 5's scratch bank holds the descriptor. -/
def svcMem (op : Byte) : State := wrBytes (setR live (BNK_BANK_CTRL 0) 0x02050000) 0x04000000 (svcDesc op)

/-- A sign request's descriptor in memory. -/
def svcBytes : List Byte := svcDesc 1

/-- A sign request may be posted. -/
def svcState : State := svcMem 1

/-- A request on lane 0. -/
def laneReq : SvcReq := { engine := 5, addr := 0x04000000, lane := some 0 }

/-- A sign request is on lane 0. -/
def laneState : State := { svcState with gate := { svcState.gate with svc := [laneReq] } }

/-- A check request's descriptor. -/
def checkBytes : List Byte := svcDesc 2

/-- A check request is on lane 0. -/
def checkState : State := { svcMem 2 with gate := { live.gate with svc := [laneReq] } }

/-- A duplicate table's entry. -/
def dupEnt : DupEnt := { sa := 0, seq := 0, made := 0, sentA := false, sentB := false }

/-- A device whose base 0 is valid. -/
def timeValid : State := putB live (TNS_TB_CTRL 0) 31 true

/-- Controller `n` in a controller and a protocol state. -/
def plkSt (n c p : Nat) : State := setR live (PLK_STATUS n) (w32 (c + 16 * p))

/-- Two slots of node 1 and of node 2 in mode `m` of controller 0. -/
def plkModeRegs (s : State) (m : Nat) : State :=
  let s1 := setR (setR s (PLK_MODE_CFG 0 m) 0x00020384) (PLK_GUARD 0 m 0) 0x00080015
  let s2 := setR (setR s1 (PLK_SCHED 0 m 0) 10) (PLK_SCHED 0 m 0 + 4) 0x01000000
  setR (setR s2 (PLK_SCHED 0 m 1) 0x0064000A) (PLK_SCHED 0 m 1 + 4) 0x02000000

/-- Controller 0 in CONFIG with parameters, schedule and guardian entries that pass. -/
def plkReady : State :=
  let s1 := setR (setR (setR live (PLK_TIMING 0) 0x03E803E8) (PLK_WINDOWS 0) 0x00010201) (PLK_NODE_CFG 0) 0x301
  let s2 := setR (setR s1 (PLK_SYNC_NODES_LO 0) 2) (PLK_COLD_NODES_LO 0) 2
  plkModeRegs (plkModeRegs (plkModeRegs (plkModeRegs s2 0) 1) 2) 3

/-- Controller 0 in RUN and ACTIVE. -/
def plkActive : State := plkMod (setR plkReady (PLK_STATUS 0) 0x42) 0 fun p => { p with fetchNs := 20000, gOk := true }

/-- A null frame for slot 0. -/
def plkNullTx : PlTx := { src := 2, slot := 0, payload := [], gate := none, idx := 0, rec_ := [], body := [], bad := 0 }

/-- A sound frame of node 2 in slot 1. -/
def plkGoodBody : List Byte := plkBody (plkHeader 0 0 0 2 0 1 0 none 0 0) []

/-- Its frame start at slot 1's action point. -/
def plkLt : Int := 44000

/-- Multidrop controller `n`, enabled with legal timing, in a state. -/
def mdbUp (n c : Nat) : State :=
  setR (setR (putB live (BLK_CTRL (MDB n)) 0 true) (MDB_ARB_TIMING n) 0x0013133A) (MDB_STATUS n) (w32 c)

/-- A multidrop frame record at a Gate entry. -/
def mdbGent : GEnt :=
  { tag := 7, keyId := 16, bytes := List.replicate 8 0, check := crc32c (List.replicate 8 0), at_ := 0, handle := 0xFFFF, verdict := 1, loc := 0, pend := none }

/-- A loaded ring frame, on the bus or not. -/
def mdbBufWith (on : Bool) : MdbBuf :=
  { rec_ := List.replicate 8 0, idx := 0, life := 0, at_ := 0, order := 0, attempts := 0, onBus := on, pend := false }

/-- Particle engine 63 runs with the word `w` at its PC. -/
def ptcUp (w : Nat) : State := setR (setR (setR live (BLK_CTRL (PTC 63)) 1) (PTC_CTRL 63) 1) (PTC_PROG 63 0) (w32 w)

/-- The same with a full packing FIFO. -/
def fullFifo (s : State) : State := fiqSet s 63 { FiqSt.init with counted := List.replicate 256 (0, 0) }

/-- A packet of one word in the output FIFO. -/
def ptcPkt2 : PtcPkt := { gate := none, idx := 0, timed := false, start := 0, words := [5], bytes := 4 }

/-- A sound packet record at a Gate entry. -/
def ptcGent : GEnt :=
  let b := [1, 0, 0, 4] ++ List.replicate 16 0
  { tag := 7, keyId := 16, bytes := b, check := crc32c b, at_ := 0, handle := 0xFFFF, verdict := 1, loc := 0, pend := none }

/-- A DMA command of four words. -/
def dmaCmdOf (a b c d : Word) : DmaCmd := { w0 := a, w1 := b, w2 := c, w3 := d }

/-- Engine 47 on silicon 47 and engine 5 on silicon 5, each with the command `c` at the head of its queue. -/
def dmaUp (c : DmaCmd) : State :=
  let s := setR (setR live (PEN_MAP 47) 0x802F0000) (PEN_MAP 5) 0x80050000
  engMod (engMod s 47 fun e => { e with st := 1, dmaQ := [c] }) 5 fun e => { e with st := 1, dmaQ := [c] }

/-- A frame of 60 zero bytes for engine 5. -/
def engFrame : Frame := { sentFrame with engine := 5 }

/-- It waits at engine 5's cluster port. -/
def sinkEnt : SinkEnt := { port := 193, fid := 0, rf := .clean }

/-- A frame waits for engine 5 with the command `c` at the head of its queue. -/
def dmaSink (c : DmaCmd) : State :=
  let s := dmaUp c
  { s with sw := { s.sw with frames := [(0, engFrame.toDesc)], link := [(0, 1)], sink := [sinkEnt] } }

/-- Engine 5 serves channel 256, whose receive ring begins with a record of 24 zero bytes, `l` at its check value. -/
def dmaRing (l : List Byte) : State :=
  let s := setR (setR (dmaUp (dmaCmdOf 0x31000010 0x10000 0x04000000 0)) (MDB_RX_BASE 0) 0x04000000) (MDB_RX_SIZE 0) 4
  qhSet (wrBytes (setR s (BNK_BANK_CTRL 0) 0x04000000) 0x0400000C l) 5 0 { st := 1, ready := false, chan := 256, mig := 0 }

/-- Engine 47 serves channel 303 on its slot 7. -/
def servState : State := qhSet live 47 7 { st := 1, ready := false, chan := 303, mig := 0 }

/-- A job. -/
def jobA : Job := { tag := 0x30000001, cls2 := false, addr := 0x04000000, chan := 0x1FF }

/-- It waits for engine 47, which has also taken it. -/
def jobState : State := engMod live 47 fun e => { e with jobs := [jobA], taken := [jobA] }

/-- A completion record waits and the ring has room. -/
def jcrState : State :=
  let s := setR (setR live PLC_JOB_CR_BASE 0x04000000) PLC_JOB_CR_SIZE 4
  { s with plc := { s.plc with jcr := [List.replicate 16 0] } }

/-- Channel 256 moves from engine 5 to engine 6. -/
def theMig : Mig := { chan := 256, src := 5, dst := 6, srcSlot := 0, dstSlot := 1, mslot := 0, switched := true, at_ := 0 }

/-- The migration has switched: engine 5 LEAVING on slot 0, engine 6 ARRIVING on slot 1. -/
def migState : State :=
  let s := { live with plc := { live.plc with migs := [theMig] } }
  qhSet (qhSet s 5 0 { st := 2, ready := false, chan := 256, mig := 0 }) 6 1 { st := 3, ready := true, chan := 256, mig := 0 }

/-- A personality. -/
def somePers : Pers :=
  { flags := 2, id := 1, version := 1, kinds := 15, maxCh := 8, owner := false, entry := 0, restore := 4, ctxLen := 0, scratch := 0
    load := 10, itcm := [1, 2, 3, 4], dtcm := [] }

/-- Engine 5 of silicon 5 is dead. -/
def deadState (f : Bool) : State :=
  let s := dmaUp (dmaCmdOf 0 0 0 0)
  engMod { s with plc := { s.plc with pers := [(0, somePers)] } } 5 fun e => { e with st := 2, fenced := f, pers := some 0 }

/-- No silicon is a spare. -/
def noSpares (s : State) : State := (List.range 52).foldl (fun t p => putB t (PEN_MAP p) 30 false) s

/-- A personality image that the owner has signed. -/
def persImage : List Byte :=
  leBytes 4 0x4E524C50 ++ leBytes 2 1 ++ leBytes 2 2 ++ leBytes 4 1 ++ leBytes 4 1 ++ [15, 8, 0, 2, 0, 0, 0, 0] ++
  List.replicate 8 0 ++ leBytes 4 4 ++ List.replicate 18 0 ++ leBytes 2 10 ++ List.replicate 8 0 ++ [0, 0, 0, 0] ++
  List.replicate 2420 0

/-- An OWNED device with the image in memory as the placement controller's argument. -/
def persState : State :=
  let s := setR (setR (wrBytes (putF live SYS_OWNER_STATE 1 0 1) 0x04000000 persImage) PLC_CMD_ADDR 0x04000000) PLC_CMD_LEN 2488
  { s with gate := { s.gate with cat := [(0, { CatEnt.empty with state := 1, alg := 4 })] } }

/-- A capture record. -/
def capRec : CapRec := { t := 1, sec := 0, ns := 1, frac := 0, rising := true, valid := false }

/-- The host interface is up with one transmit descriptor in ring 15. -/
def hostUp : State :=
  let s := setR (setR (setR live (BLK_CTRL HIF) 1) HIF_LINK 0x80140000) (rgCTRL 15) 1
  setR (setR s (rgSIZE 15) 4) (rgTAIL 15) 1

/-- A transmit descriptor for 14 bytes in host memory. -/
def hostDesc : List Byte := List.replicate 8 0 ++ [14, 0, 0, 0, 0, 0, 0, 0] ++ List.replicate 16 0

/-- A receive descriptor for 128 bytes of host memory. -/
def rxDesc : List Byte := List.replicate 8 0 ++ [128, 0, 0, 0, 0, 0, 0, 0] ++ List.replicate 16 0

/-- A frame waits for the host and receive ring 0 is enabled. -/
def hostRxUp (f : ReadFault) : State :=
  let s := setR (setR (setR hostUp (rgCTRL 16) 1) (rgSIZE 16) 4) (rgTAIL 16) 1
  { s with sw := { s.sw with frames := [(0, sentDesc)], link := [(0, 1)], sink := [⟨208, 0, f⟩] } }

/-- Address of the word at which the core of these tests stands. -/
def corePc (c : Nat) : Nat := if c < 48 then 0 else 0x20000000

/-- The memory key of that word: an engine runs on the silicon of its number. -/
def coreKey (c : Nat) : Nat := if c < 48 then tcmKey c 0 else (ownKey (coreMaster c) 0x20000000 4).getD 0

/-- Core `c` stands at the word `w`. -/
def coreAt (c : Nat) (w : Word) : State :=
  let s := engMod (setR live (PEN_MAP c) (w32 (0x80000000 + c * 65536))) c fun e => { e with st := 1 }
  let u := if c < 48 then s else live
  coreSet { u with mem := memPut u.mem (coreKey c) (leBytes 4 w.toNat) } c
    (csrSet { CoreSt.init with run := .run, pc := w32 (corePc c) } csrSTATUS (if c < 48 then 0 else 8))

/-- The same with `v` in g4. -/
def coreAtReg (c : Nat) (w v : Word) : State := coreMod (coreAt c w) c fun x => gset x 4 v

/-- The same with `v` in g3 and g4. -/
def coreAtReg0 (c : Nat) (w v : Word) : State := coreMod (coreAt c w) c fun x => gset (gset x 4 v) 3 v

/-- The same with 0x8000_0000 in g3 and -1 in g4. -/
def divCorner (c : Nat) (w : Word) : State := coreMod (coreAt c w) c fun x => gset (gset x 4 0xFFFFFFFF) 3 0x80000000

/-- The core and the block at its boundary. -/
def bx (s : State) (c : Nat) : CoreSt × State := (atBoundary s c).getD (CoreSt.init, live)

/-- The MGP waits for a far load. -/
def farState (a : Word) : State := coreMod (coreAt 49 0) 49 fun x => { x with run := .far, far := some ⟨a, 0x40640004⟩ }

/-- Engine 5 waits. -/
def waitState (k : Nat) : State :=
  coreMod (coreAt 5 0) 5 fun x => { x with run := .wait, wait := some ⟨k, 0, if k = 0 then 0 else 100, 0, false⟩ }

/-- The debugger may halt cores. -/
def debugOpen (s : State) : State := setR s SYS_DEBUG_STATUS 0x000000F1

/-- Line 15 of engine 5 is pending, open and unmasked. -/
def intState (r : RunSt) : State :=
  let s := setR (if r = .wait then waitState 0 else coreAt 5 0) (engKey 5 0xF3000) 0x8000
  coreMod s 5 fun x => csrSet (csrSet x csrIMASK0 0x8000) csrSTATUS 1

/-- The CORE copy shows the Tense counter where its phase is 0. -/
theorem not_reached {a : DWord} {t : State} (ha : 4 ≤ a.toNat) (ht : t.time.tense = 0) (hc : t.time.copy = 0) :
    ¬(a ≤ coreTense t) := by
  unfold coreTense
  rw [ht, hc]
  intro h
  have h1 : a.toNat ≤ 0 := h
  omega
theorem beNat_lt (l : List Byte) : beNat l < 256 ^ l.length := by
  unfold beNat
  have h : ∀ (l : List Byte) (n k : Nat), n < 256 ^ k → l.foldl (fun a b => a * 256 + b.toNat) n < 256 ^ (k + l.length) := by
    intro l
    induction l with
    | nil => intro n k hn; exact hn
    | cons b r ih =>
      intro n k hn
      have hb := b.isLt
      rw [List.foldl_cons, List.length_cons, show k + (r.length + 1) = k + 1 + r.length by omega]
      exact ih _ _ (by rw [Nat.pow_succ]; omega)
  simpa using h l 0 0 (by decide)

/-- Memory that lists the bytes of `l` other than 0, from key `k` on, reads as `l` and zeros. -/
theorem listed_reads (l : List Byte) (k n i : Nat) :
    memRead (((l.zipIdx n).filter fun e => decide (e.1 ≠ 0)).map fun e => (k + e.2, e.1)) (k + n + i) = (l[i]?).getD 0 := by
  unfold memRead sget
  induction l generalizing n i with
  | nil => rfl
  | cons b r ih =>
    rw [List.zipIdx_cons, List.filter_cons]
    cases i with
    | zero =>
      by_cases hb : b = 0
      · have hn : ∀ (r : List Byte) (m : Nat), n < m →
            sfind (((r.zipIdx m).filter fun e => decide (e.1 ≠ 0)).map fun e => (k + e.2, e.1)) (k + n + 0) = none := by
          intro r
          induction r with
          | nil => intro m _; rfl
          | cons c q ih2 =>
            intro m hm
            rw [List.zipIdx_cons, List.filter_cons]
            split
            · rw [List.map_cons]; unfold sfind; rw [if_neg (by omega)]; exact ih2 _ (by omega)
            · exact ih2 _ (by omega)
        rw [if_neg (by simp [hb]), hn r (n + 1) (by omega), hb]; rfl
      · rw [if_pos (decide_eq_true hb), List.map_cons]; unfold sfind; rw [if_pos (by omega)]; rfl
    | succ i =>
      have h := ih (n + 1) i
      rw [show k + (n + 1) + i = k + n + (i + 1) by omega] at h
      split
      · rw [List.map_cons]; unfold sfind; rw [if_neg (by omega), h]; rfl
      · rw [h]; rfl

/-- What the device reads as the pushed image. -/
theorem test_image_bytes : cmdArg pushState = smallImage ++ List.replicate 3309 0 := by
  have hk : ∀ i, i < 5389 → memKey (0x04000000 + i) = 0x04000000 + 0 + i := by
    intro i hi; unfold memKey; rw [if_neg (by omega)]
  have hl : smallImage.length = 2080 := by decide +kernel
  have ha : getR pushState SYS_CMD_ADDR = 0x04000000 := by decide
  have hn : getR pushState SYS_CMD_LEN = 5389 := by decide
  unfold cmdArg
  rw [ha, hn]
  show (if inShared 0x04000000 5389 = true then rdBytes pushState 0x04000000 5389 else []) = _
  rw [if_pos (by decide)]
  unfold rdBytes rdB
  refine List.ext_getElem? fun i => ?_
  rw [List.getElem?_map]
  by_cases hi : i < 5389
  · rw [List.getElem?_range hi, Option.map_some, hk i hi, show pushState.mem =
      (smallImage.zipIdx.filter fun e => decide (e.1 ≠ 0)).map fun e => (0x04000000 + e.2, e.1) from rfl, listed_reads]
    by_cases h2 : i < 2080
    · rw [List.getElem?_append_left (by omega), List.getElem?_eq_getElem (by omega)]; rfl
    · rw [List.getElem?_append_right (by omega), hl, List.getElem?_eq_none (by omega), List.getElem?_replicate,
        if_pos (by omega)]; rfl
  · rw [List.getElem?_eq_none (by rw [List.length_range]; omega), List.getElem?_eq_none]
    · rfl
    · rw [List.length_append, hl, List.length_replicate]; omega

/-- A SHA-256 hash has 32 bytes. -/
theorem sha256_length (m : List Byte) : (sha256 m).length = 32 := by
  unfold sha256 Sha2.hash
  dsimp only
  generalize Sha2.blocks _ _ = v
  simp [List.length_flatMap, beBytes, leBytes, Sha2.of256]

/-- A vendor key whose hash a good slot holds is accepted. -/
theorem vendorKey_of {s : State} {slot : Nat} {key : List Byte} {x : FuseSlot} (h : s.sys.slots[slot]? = some x)
    (hp : x.programmed = true) (hr : x.revoked = false) (hh : x.hash = BitVec.ofNat 256 (beNat (sha256 key)))
    (hl : (sha256 key).length = 32) : vendorKeyOk s slot key = true := by
  unfold vendorKeyOk
  rw [h]
  dsimp only
  rw [hp, hr, hh]
  have hlt := beNat_lt (sha256 key)
  rw [hl] at hlt
  simp only [Bool.not_false, Bool.and_true, Bool.true_and, decide_eq_true_eq, BitVec.toNat_ofNat]
  exact (Nat.mod_eq_of_lt hlt).symm

/-- An image passes when its checks do. -/
theorem loads_of {s : State} {b img : List Byte} (hb : b = img) (h1 : imgFormatOk img = true)
    (h2 : vendorKeyOk (putF s SYS_BOOT_STATUS 9 8 2) (leAt img 24 1) (slice img 32 1952) = true)
    (h3 : imgSectionsOk img = true)
    (h4 : getB (setPhase (setPhase (putF s SYS_BOOT_STATUS 9 8 2) 4) 5) VLT_STATUS 31 = true)
    (h5 : ¬ imgCounter img < (vaultCounter (setPhase (setPhase (putF s SYS_BOOT_STATUS 9 8 2) 4) 5) 0).toNat)
    (h6 : imgOwnerOk (setPhase (setPhase (putF s SYS_BOOT_STATUS 9 8 2) 4) 5) ⟨img, true, true⟩ = true) :
    (imgLoad 2 [] ⟨b, true, true⟩ s).2 = true := by
  subst hb
  unfold imgLoad imgSigned vaultOpen
  dsimp only
  rw [h1, h2, h3, h4]
  simp only [Bool.and_true, Bool.not_true, Bool.false_eq_true, if_false, if_true, h5, h6]

/-- The sections of `smallImage` are the two that it must have, and match their hashes. -/
theorem test_image_sections : imgSectionsOk (smallImage ++ List.replicate 3309 0) = true := by
  have hn : imgSections (smallImage ++ List.replicate 3309 0) = 2 := by decide +kernel
  have h0 : secBytes (smallImage ++ List.replicate 3309 0) 0 = [] := by decide +kernel
  have h1 : secBytes (smallImage ++ List.replicate 3309 0) 1 = [] := by decide +kernel
  have t0 : secType (smallImage ++ List.replicate 3309 0) 0 = 1 := by decide +kernel
  have t1 : secType (smallImage ++ List.replicate 3309 0) 1 = 2 := by decide +kernel
  have he : sha256 [] = (emptySection 0).drop 16 := by decide +kernel
  have e0 : slice (smallImage ++ List.replicate 3309 0) (secAt 0 + 16) 32 = (emptySection 0).drop 16 := by decide +kernel
  have e1 : slice (smallImage ++ List.replicate 3309 0) (secAt 1 + 16) 32 = (emptySection 0).drop 16 := by decide +kernel
  unfold imgSectionsOk secsOf
  rw [hn]
  simp only [List.range, List.range.loop, List.filter_cons, List.filter_nil, t0, t1, List.all_cons, List.all_nil, h0, h1, e0, e1, he]
  decide

/-- `smallImage` passes every check of a pushed image, whatever the hash of its key is. -/
theorem test_image_loads : (imgLoad 2 [] ⟨cmdArg pushState, true, true⟩ pushState).2 = true := by
  have hs : leAt (smallImage ++ List.replicate 3309 0) 24 1 = 0 := by decide +kernel
  have hk : slice (smallImage ++ List.replicate 3309 0) 32 1952 = List.replicate 1952 0 := by decide +kernel
  refine loads_of test_image_bytes (by decide +kernel) ?_ test_image_sections (by decide +kernel) (by decide +kernel)
    (by decide +kernel)
  rw [hs, hk]
  exact vendorKey_of (x := zeroKeySlot) rfl rfl rfl rfl (sha256_length _)


/-! Well-formedness: an ill-formed command for each check, which the check refuses. -/

theorem test_ill_master : (Instr.lockRead 0 3).wellFormed = false ∧ (Instr.lockRead 56 3).wellFormed = false ∧
    (Instr.lockRead 55 3).wellFormed = true := by decide

theorem test_ill_page : (Instr.softRst 2 0x10004004 0).wellFormed = false ∧ (Instr.softRst 2 0x0FFFF000 0).wellFormed = false ∧
    (Instr.softRst 2 0x14000000 0).wellFormed = false ∧ (Instr.softRst 2 0x10004000 0).wellFormed = true := by decide

theorem test_ill_row : (Instr.collide 0x0400000C 2 (List.replicate 5 0) 3).wellFormed = false ∧ (Instr.collide 0x0400000C 2 [] 3).wellFormed = false ∧
    (Instr.collide 0x0400000C 2 (List.replicate 4 0) 0).wellFormed = false := by decide

theorem test_ill_descriptor : (Instr.hostTxDescriptor (List.replicate 31 0) [] .ok).wellFormed = false ∧
    (Instr.hostRxFrame [List.replicate 32 0, []] .ok).wellFormed = false := by decide

theorem test_ill_record : (Instr.mdbFrameReceive 0 (List.replicate 7 0) false none false false 0).wellFormed = false := by decide

theorem test_ill_sample : (Instr.sensorSample (List.replicate 23 0)).wellFormed = false := by decide

/-- The command table gives no bits, so no word spells a command. -/
theorem test_no_word : decodeTableWord 32 0 = none ∧ State.reset.withFetchWord 32 0 = State.reset := ⟨rfl, rfl⟩

/-! Examples that the spec works out. -/

/-- 02, one address in both views: 0x0123_4568 is byte 0x68A8 of bank 150, at 0x052C_68A8 in the direct view. -/
theorem test_interleaved_view : memKey 0x01234568 = 0x052C68A8 ∧ bankOf 0x01234568 = 150 := by decide

/-- 04: VID 100 and MAC 00:1B:C5:20:4A:7E fall in set 986 with seed 0. -/
theorem test_fdb_set : fdbSet (setR live FDB_HASH_SEED 0) 100 0x001BC5204A7E = 986 := by decide

/-- 08, one correction: deviations of 400, -150, 100 and 850 ns give 250 ns. -/
theorem test_correction : plkCorrection [400, -150, 100, 850] = 250 := by decide

/-- Addresses of the examples of 03, 09 and 14. -/
theorem test_addresses : SEC_WPOL 0x20 = 0x10008180 ∧ PLK_SCHED 4 0 2 = 0x10504810 ∧ PLK_GUARD 4 0 2 = 0x10504408 ∧
    BNK_BANK_CTRL 205 = 0x10021668 := by decide

/-- 10: the nominal timing of the example is legal. -/
theorem test_mdb_timing : mdbTimingOk (setR live (MDB_ARB_TIMING 3) 0x008F0F3E) 3 = true := by decide

/-- 13, a load and an ALU write meet: LW issues in cycle n, ADDI in n + 2, both for g5, and both land at n + 3. -/
theorem test_landing : greg (landTo 5 (flies { flies CoreSt.init 3 5 0x44 with cyc := 2 } 1 5 9) 3) 5 = 9 ∧
    greg (landTo 5 (flies { flies CoreSt.init 3 5 0x44 with cyc := 2 } 1 5 9) 2) 5 = 0 := by decide

/-- 13: the word 0 is ADD g0, g0, g0; a bit that must be 0 makes a word no instruction. -/
theorem test_words : opOf 0 = some .add ∧ opOf 0x40 = none ∧ opOf 0xC4000005 = some .ecall := by decide

/-- After power-on no command waits and memory is in its canonical form. -/
theorem test_reset : State.reset.pending = [] ∧ MemoryOk State.reset := ⟨rfl, (by decide : Memory.wf _ = true)⟩

/-- A counter that the device has raised past a RAISE in progress is not lowered by it (R193). -/
theorem test_counter_stands :
    vaultCounter (setCounter { live with vlt := { live.vlt with counters := [(1, 10)] } } 1 5) 1 = 10 := by decide +kernel

/-- 03, the bundle of the example: a REGISTER_WRITES bundle of 28 bytes with PERSIST, BUNDLE_COUNTER 42 and one record. -/
theorem test_bundle :
    let b : List Byte := [0x01, 0x01, 0x00, 0x01, 0x01, 0, 0, 0, 0, 0, 0, 0, 0, 0, 0, 0x2a, 0x10, 0x00, 0x81, 0x80, 0, 0, 0, 1, 0, 0, 0, 0]
    bunCounter b = 42 ∧ bunCount b = 1 ∧ bunPersist b = true ∧ recAddr b 0 = 0x10008180 ∧ recMask b 0 = 1 ∧ recValue b 0 = 0 := by
  decide
theorem test_meets_CommonHeaderCommands :
    (∃ m : Master, (∃ off : Nat, (∃ s : State, (MayWrite s m (TMP + off)) ∧ (off % 4 = 0) ∧ (0x40 ≤ off) ∧ (off < 0x1000) ∧ (getB s (CFG_LOCK TMP) 0 = false) ∧ ((regDesc .TMP 0 off).ssp = 0)))) ∧
    (∃ m : Master, (∃ page : Word, (∃ v : Word, (∃ pg : Page, (∃ s : State, (pageOf page.toNat = some pg) ∧ (MayWrite s m (CFG_LOCK pg.base)) ∧ (bit v 0 = true)))))) ∧
    (∃ m : Master, (∃ page : Word, (∃ v : Word, (∃ s : State, (pageOf page.toNat = some ⟨.LCK, 0, LCK⟩) ∧ (MayWrite s m (BLK_CTRL LCK)) ∧ (bit v 0 = getB s (BLK_CTRL LCK) 0))))) ∧
    (∃ m : Master, (∃ page : Word, (∃ p : BitVec 2, (∃ pg : Page, (∃ s : State, (pageOf page.toNat = some pg) ∧ (MayWrite s m (BLK_CTRL pg.base)) ∧ (blkHasDomain pg.blk = true) ∧ (p.toNat < 3)))))) ∧
    (∃ page : Word, (∃ pg : Page, (∃ s : State, (pageOf page.toNat = some pg) ∧ (getB s (BLK_STATUS pg.base) 4 = true) ∧ (pg.blk ≠ .HIF) ∧ (getF s (BLK_CTRL pg.base) 3 2 ≠ 0)))) ∧
    (∃ m : Master, (∃ page : Word, (∃ pg : Page, (∃ s : State, (pageOf page.toNat = some pg) ∧ (MayWrite s m (IRQ_FORCE pg.base)) ∧ (pg.blk ≠ .MBX))))) ∧
    (∃ m : Master, (∃ page : Word, (∃ pg : Page, (∃ s : State, (pageOf page.toNat = some pg) ∧ (MayWrite s m (CNT_CTRL pg.base)) ∧ (pg.blk ≠ .SYS))))) :=
  ⟨⟨mMGP, 0x40, live, by decide⟩,
    ⟨mSSP, w32 (MAC 191 + 0xFFC), 1, ⟨.MAC, 191, MAC 191⟩, live, by decide⟩,
    ⟨mSSP, w32 LCK, 0, putF live (LCK_OWNER 127) 5 0 9, by decide⟩,
    ⟨mSSP, w32 (TNS + 0x40), 2, ⟨.TNS, 0, TNS⟩, live, by decide⟩,
    ⟨w32 IMG, ⟨.IMG, 0, IMG⟩, putB (putF live (BLK_CTRL IMG) 3 2 2) (BLK_STATUS IMG) 4 true, by decide⟩,
    ⟨mSSP, w32 (PEN 51), ⟨.PEN, 51, PEN 51⟩, live, by decide⟩,
    ⟨mMGP, w32 (MAC 0 + 0x100), ⟨.MAC, 0, MAC 0⟩, putB live (SEC_WPOL 0x20) 2 true, by decide⟩⟩

theorem test_meets_PolicyAndInterruptCommands :
    (∃ t : Fin 38, (∃ s : State, (MayWrite s mSSP (SEC_WPOL t.val)) ∧ (getB s (CFG_LOCK SEC) 0 = false))) ∧
    (∃ m : Master, (∃ s : State, MayRead s m SEC_DENY_COUNT)) ∧
    (∃ m : Master, (∃ v : Word, (∃ s : State, (MayWrite s m INT_SW_SET) ∧ (768 ≤ fld v 9 0)))) ∧
    (∃ m : Master, (∃ v : Word, (∃ s : State, (MayWrite s m INT_SW_CLR) ∧ (768 ≤ fld v 9 0)))) ∧
    (∃ m : Master, (∃ n : Fin 1024, (∃ v : Word, (∃ s : State, (MayWrite s m (INT_ROUTE n.val)) ∧ (getB s (INT_ROUTE n.val) 31 = false ∨ m = mSSP) ∧ (fld v 2 0 < 5))))) ∧
    (∃ m : Master, (∃ k : Fin 32, (∃ s : State, MayWrite s m (INT_MASK k.val)))) ∧
    (∃ m : Master, (∃ v : Fin 64, (∃ s : State, (MayWrite s m (INT_HOST_EOI v.val)) ∧ (vecUp s.intc.reached v.val = true) ∧ (getB s (INT_MSI_X_table + 16 * v.val + 12) 0 = false) ∧ (linkUp s = true)))) :=
  ⟨⟨37, live, by decide⟩,
    ⟨mHost, live, by decide⟩,
    ⟨mSSP, 1023, live, by decide⟩,
    ⟨mMGP, 768, live, by decide⟩,
    ⟨mMGP, 1023, 4, live, by decide⟩,
    ⟨mMGP, 31, live, by decide⟩,
    ⟨mSSP, 63, putB (setR { live with intc := { live.intc with reached := [(0, 0x3F01)] } } (INT_MSI_X_table + 16 * 63 + 12) 0) HIF_LINK 31 true, by decide⟩⟩

theorem test_meets_ResetCommands :
    (∃ s : State, s.sys.held = false) ∧
    (∃ s : State, s.sys.held = false) ∧
    (∃ s : State, (s.sys.held = false) ∧ (coreRail s = true)) ∧
    (∃ s : State, s.sys.held = false) ∧
    (∃ s : State, (s.sys.held = false) ∧ (devState s = 2 ∨ devState s = 3)) ∧
    (∃ s : State, s.sys.held = false) ∧
    (∃ s : State, s.sys.held = false) ∧
    (∃ m : Master, (∃ s : State, (MayWrite s m SYS_SOFT_RESET) ∧ (s.sys.held = false) ∧ (s.sys.prog = none))) ∧
    (∃ m : Master, (∃ p : BundleProg, (∃ s : State, (MayWrite s m SYS_SOFT_RESET) ∧ (s.sys.prog = some p)))) ∧
    (∃ s : State, (s.sys.held = false) ∧ (tripDue s = true)) ∧
    (∃ s : State, s.sys.thermHold = true) ∧
    (∃ s : State, (s.sys.held = true) ∧ (s.sys.thermHold = false)) :=
  ⟨⟨live, by decide⟩,
    ⟨live, by decide⟩,
    ⟨live, by decide⟩,
    ⟨live, by decide⟩,
    ⟨putF live PWR_STATUS 1 0 3, by decide⟩,
    ⟨live, by decide⟩,
    ⟨live, by decide⟩,
    ⟨mSSP, live, by decide⟩,
    ⟨mSSP, ⟨0, none, false⟩, { live with sys := { live.sys with prog := some ⟨0, none, false⟩ } }, by decide⟩,
    ⟨{ live with pwr := { live.pwr with hot := [(0, 2)] } }, by decide⟩,
    ⟨{ live with sys := { live.sys with thermHold := true } }, by decide⟩,
    ⟨State.reset, by decide⟩⟩

theorem test_meets_StartUpCommands :
    (∃ e : BootEnv, (∃ s : State, (releaseDue s = true) ∧ (e.bootMode = 1) ∧ (failedBlock e = 0) ∧ (sparesExhausted e = false))) ∧
    (∃ e : BootEnv, (∃ s : State, (releaseDue s = true) ∧ (failedBlock e ≠ 0 ∨ sparesExhausted e = true))) ∧
    (∃ m : Master, (∃ vendorSig : Bool, (∃ ownerSig : Bool, (∃ s : State, (MayWrite s m SYS_CMD) ∧ (sysCmdBusy s = false) ∧ (phase s = phWaitHost) ∧ ((imgLoad 2 s.sys.badPages ⟨cmdArg s, vendorSig, ownerSig⟩ s).2 = true))))) ∧
    (∃ m : Master, (∃ vendorSig : Bool, (∃ ownerSig : Bool, (∃ s : State, (MayWrite s m SYS_CMD) ∧ (sysCmdBusy s = false) ∧ (phase s = phWaitHost) ∧ ((imgLoad 2 s.sys.badPages ⟨cmdArg s, vendorSig, ownerSig⟩ s).2 = false))))) ∧
    (∃ m : Master, (∃ s : State, (MayWrite s m SYS_CMD) ∧ (sysCmdBusy s = false) ∧ (phase s ≠ phWaitHost))) :=
  ⟨⟨env 1, inReset, by decide⟩,
    ⟨{ env 0 with failBlock := 3 }, inReset, by decide⟩,
    ⟨mSSP, true, true, pushState, by refine ⟨by decide, by decide, by decide, test_image_loads⟩⟩,
    ⟨mSSP, true, true, putF live SYS_BOOT_STATUS 7 0 0xE, by decide⟩,
    ⟨mSSP, live, by decide⟩⟩

theorem test_meets_OwnershipAndDebugCommands :
    (∃ m : Master, (∃ lattice : Bool, (∃ s : State, (MayWrite s m SYS_CMD) ∧ (sysCmdBusy s = false) ∧ (owner s = 0) ∧ (getB s VLT_STATUS 31 = true) ∧ (enrOk (cmdArg s) lattice s = true)))) ∧
    (∃ m : Master, (∃ lattice : Bool, (∃ s : State, (MayWrite s m SYS_CMD) ∧ (sysCmdBusy s = false) ∧ (enrOk (cmdArg s) lattice s = false)))) ∧
    (∃ m : Master, (∃ s : State, (MayWrite s m SYS_CMD) ∧ (sysCmdBusy s = false) ∧ (owner s = 1) ∧ (getB s SYS_BOOT_CFG 2 = false) ∧ (s.sys.aonTicks ≤ 327680))) ∧
    (∃ s : State, (owner s = 2) ∧ (s.vlt.waiting = [])) ∧
    (∃ m : Master, (∃ lattice : Bool, (∃ s : State, (MayWrite s m SYS_CMD) ∧ (sysCmdBusy s = false) ∧ (debugFails s < 8) ∧ (tokenOk (cmdArg s) lattice s = true)))) ∧
    (∃ m : Master, (∃ lattice : Bool, (∃ s : State, (MayWrite s m SYS_CMD) ∧ (sysCmdBusy s = false) ∧ (tokenOk (cmdArg s) lattice s = false ∨ 8 ≤ debugFails s)))) ∧
    (∃ m : Master, (∃ s : State, (MayWrite s m SYS_CMD) ∧ (sysCmdBusy s = false) ∧ (unlocked s = true))) :=
  ⟨⟨mSSP, true, enrolState, by refine ⟨by decide, by decide, by decide, by decide, by decide +kernel⟩⟩,
    ⟨mSSP, true, live, by decide⟩,
    ⟨mSSP, putF live SYS_OWNER_STATE 1 0 1, by decide⟩,
    ⟨putF live SYS_OWNER_STATE 1 0 2, by decide⟩,
    ⟨mSSP, true, tokenState, by refine ⟨by decide, by decide, by decide, by decide +kernel⟩⟩,
    ⟨mSSP, true, live, by decide⟩,
    ⟨mSSP, putB live SYS_DEBUG_STATUS 0 true, by decide⟩⟩

theorem test_meets_BundleCommands :
    (∃ x : Bundle, (∃ r : List Bundle, (∃ s : State, (s.sys.bundles = x :: r) ∧ (¬ (2 ≤ bunKind x.bytes ∧ bunKind x.bytes ≤ 4)) ∧ (s.sys.held = false) ∧ (awake s = true) ∧ (erasing s = false) ∧ (s.sys.prog.isSome = true ∨ bunRefusal x false s = none)))) ∧
    (∃ lattice : Bool, (∃ x : Bundle, (∃ r : List Bundle, (∃ s : State, (s.sys.bundles = x :: r) ∧ (bunKind x.bytes = 2) ∧ (s.sys.held = false) ∧ (awake s = true) ∧ (erasing s = false) ∧ (s.sys.prog.isSome = true ∨ bunRefusal x lattice s = none) ∧ (vFree s 5 = true))))) ∧
    (∃ x : Bundle, (∃ r : List Bundle, (∃ s : State, (s.sys.bundles = x :: r) ∧ (bunKind x.bytes = 3) ∧ (s.sys.held = false) ∧ (awake s = true) ∧ (erasing s = false) ∧ (s.sys.prog.isSome = true ∨ bunRefusal x false s = none) ∧ (vFree s 6 = true)))) ∧
    (∃ x : Bundle, (∃ r : List Bundle, (∃ s : State, (s.sys.bundles = x :: r) ∧ (bunKind x.bytes = 4) ∧ (s.sys.held = false) ∧ (awake s = true) ∧ (erasing s = false) ∧ (s.sys.prog.isSome = true ∨ bunRefusal x false s = none) ∧ (vFree s 6 = true)))) ∧
    (∃ c : Instr, (∃ lattice : Bool, (∃ x : Bundle, (∃ r : List Bundle, (∃ code : Nat, (∃ s : State, (bunWorks c x = some lattice) ∧ (s.sys.bundles = x :: r) ∧ (s.sys.held = false) ∧ (awake s = true) ∧ (erasing s = false) ∧ (s.sys.prog = none) ∧ (bunRefusal x lattice s = some code))))))) ∧
    (∃ c : Instr, (∃ lattice : Bool, (∃ x : Bundle, (∃ r : List Bundle, (∃ s : State, (bunWorks c x = some lattice) ∧ (s.sys.bundles = x :: r) ∧ (s.sys.held = false) ∧ (awake s = true) ∧ (erasing s = true)))))) :=
  ⟨⟨bundleOf 1, [], { live with sys := { live.sys with bundles := [bundleOf 1], prog := some ⟨0, none, false⟩ } }, by decide⟩,
    ⟨true, transferBundle, [], { putF live SYS_OWNER_STATE 1 0 1 with sys := { live.sys with bundles := [transferBundle] } }, by refine ⟨rfl, by decide, by decide, by decide, by decide, .inr (by decide +kernel), by decide⟩⟩,
    ⟨policyBundle, [], { live with sys := { live.sys with bundles := [policyBundle] } }, by decide⟩,
    ⟨eraseBundle, [], { putF live SYS_OWNER_STATE 1 0 1 with sys := { live.sys with bundles := [eraseBundle] } }, by decide⟩,
    ⟨.bundleRegisterWrites, false, bundleOf 9, [], ocBunFormat, { live with sys := { live.sys with bundles := [bundleOf 9] } }, by decide⟩,
    ⟨.bundleVaultPolicy, false, policyBundle, [], { putF live SYS_OWNER_STATE 1 0 2 with sys := { live.sys with bundles := [policyBundle] } }, by decide⟩⟩

theorem test_meets_GateListsAndTables :
    (∃ p : Fin 224, (∃ g : GateParm, (∃ x : Nat × Nat, (∃ s : State, (sfind s.sw.goper p.val = some g) ∧ (gateAt s p.val (gateNow s p.val) = some x))))) ∧
    (∃ m : Master, (∃ p : Fin 224, (∃ s : State, (MayWrite s m (SWC_GATE_CTRL p.val)) ∧ (getB s (SWC_GATE_CTRL p.val) 17 = false)))) ∧
    (∃ p : Fin 224, (∃ g : GateParm, (∃ s : State, sfind s.sw.gswap p.val = some g))) ∧
    (∃ m : Master, (∃ v : Word, (∃ s : State, (MayWrite s m SWC_TBL_CMD) ∧ (fld v 5 4 = 0) ∧ (fld v 27 16 < 1024) ∧ (fld (tblStage s m 16) 2 0 < 5)))) ∧
    (∃ m : Master, (∃ v : Word, (∃ s : State, (MayWrite s m SWC_TBL_CMD) ∧ (fld v 5 4 = 1)))) ∧
    (∃ m : Master, (∃ v : Word, (∃ s : State, (MayWrite s m SWC_TBL_CMD) ∧ (fld v 5 4 = 2) ∧ (fld v 27 16 < 1024)))) ∧
    (∃ m : Master, (∃ v : Word, (∃ s : State, (MayWrite s m SWC_TBL_CMD) ∧ (fld v 5 4 ≠ 1) ∧ (1024 ≤ fld v 27 16 ∨ fld v 5 4 = 3)))) ∧
    (∃ m : Master, (∃ v : Word, (∃ s : State, (MayWrite s m SWC_TBL_CMD) ∧ (fld v 5 4 = 0) ∧ (fld v 27 16 < 1024)))) ∧
    (∃ m : Master, (∃ v : Word, (∃ s : State, (MayWrite s m SWC_TBL_CMD) ∧ (fld v 5 4 = 1)))) ∧
    (∃ m : Master, (∃ v : Word, (∃ s : State, (MayWrite s m SWC_TBL_CMD) ∧ (fld v 5 4 = 2) ∧ (fld v 27 16 < 1024)))) :=
  ⟨⟨5, gateParm, (1, 100), gateListState, by decide⟩,
    ⟨mSSP, 5, live, by decide⟩,
    ⟨5, gateParm, { live with sw := { live.sw with gswap := [(5, gateParm)] } }, by decide⟩,
    ⟨mSSP, 0x03FF0000, live, by decide⟩,
    ⟨mSSP, 0x0FFF0010, live, by decide⟩,
    ⟨mSSP, 0x03FF0020, live, by decide⟩,
    ⟨mSSP, 0x0FFF0000, live, by decide⟩,
    ⟨mSSP, 0x03FF0000, live, by decide⟩,
    ⟨mSSP, 0x0FFF0010, live, by decide⟩,
    ⟨mSSP, 0x03FF0020, live, by decide⟩⟩

theorem test_meets_ForwardingDatabase :
    (∃ m : Master, (∃ v : Word, (∃ s : State, (MayWrite s m FDB_CMD) ∧ (fdbFormatOk (fdbStaged s m) = true) ∧ (fdbSet s (fdbVid (fdbStaged s m)) (fdbMac (fdbStaged s m)) = fld v 29 16 / 4)))) ∧
    (∃ m : Master, (∃ v : Word, (∃ s : State, (MayWrite s m FDB_CMD) ∧ (fdbFormatOk (fdbStaged s m) = false ∨ fdbSet s (fdbVid (fdbStaged s m)) (fdbMac (fdbStaged s m)) ≠ fld v 29 16 / 4)))) ∧
    (∃ m : Master, (∃ i : Nat, (∃ s : State, (MayWrite s m FDB_CMD) ∧ (fdbFormatOk (fdbStaged s m) = true) ∧ (fdbFind s (fdbVid (fdbStaged s m)) (fdbMac (fdbStaged s m)) = some i)))) ∧
    (∃ m : Master, (∃ i : Nat, (∃ s : State, (MayWrite s m FDB_CMD) ∧ (fdbFormatOk (fdbStaged s m) = true) ∧ (fdbFind s (fdbVid (fdbStaged s m)) (fdbMac (fdbStaged s m)) = none) ∧ (fdbFree s (fdbVid (fdbStaged s m)) (fdbMac (fdbStaged s m)) = some i)))) ∧
    (∃ m : Master, (∃ s : State, MayWrite s m FDB_CMD)) ∧
    (∃ m : Master, (∃ i : Nat, (∃ s : State, (MayWrite s m FDB_CMD) ∧ (fdbFind s (fdbVid (fdbStaged s m)) (fdbMac (fdbStaged s m)) = some i)))) ∧
    (∃ m : Master, (∃ s : State, (MayWrite s m FDB_CMD) ∧ (fdbFind s (fdbVid (fdbStaged s m)) (fdbMac (fdbStaged s m)) = none))) ∧
    (∃ m : Master, (∃ s : State, MayWrite s m FDB_AGE_PERIOD)) ∧
    (∃ s : State, getF s FDB_AGE_PERIOD 15 0 ≠ 0) :=
  ⟨⟨mSSP, w32 (fdbSet fdbState 1 0 * 0x40000), fdbState, by decide⟩,
    ⟨mSSP, 0, live, by decide⟩,
    ⟨mSSP, 4 * fdbSet fdbState 1 0, fdbHeld, by decide⟩,
    ⟨mSSP, 4 * fdbSet fdbState 1 0, fdbState, by decide⟩,
    ⟨mSSP, live, by decide⟩,
    ⟨mSSP, 4 * fdbSet fdbState 1 0, fdbHeld, by decide⟩,
    ⟨mSSP, live, by decide⟩,
    ⟨mSSP, live, by decide⟩,
    ⟨putF live FDB_AGE_PERIOD 15 0 300, by decide⟩⟩

theorem test_meets_RemovalFromQueues :
    (∃ x : Nat × Word, (∃ l : List (Nat × Word), (∃ s : State, s.sw.purge = x :: l))) ∧
    (∃ w : Withdraw, (∃ l : List Withdraw, (∃ s : State, (s.sw.withdrawWait = w :: l) ∧ (s.sw.withdraw.length < 16)))) ∧
    (∃ s : State, 16 ≤ s.sw.withdraw.length) ∧
    (∃ w : Withdraw, (∃ l : List Withdraw, (∃ s : State, s.sw.withdraw = w :: l))) ∧
    (∃ m : Master, (∃ s : State, MayRead s m SWC_DROP_RING_LOST)) ∧
    (∃ m : Master, (∃ s : State, MayRead s m SWC_SMP_LOST)) :=
  ⟨⟨(1, 5), [], { queuedState with sw := { queuedState.sw with purge := [(1, 5)] } }, by decide⟩,
    ⟨.lockdown, [], { live with sw := { live.sw with withdrawWait := [.lockdown] } }, by decide⟩,
    ⟨{ live with sw := { live.sw with withdraw := List.replicate 16 .lockdown } }, by decide⟩,
    ⟨.lockdown, [], { live with sw := { live.sw with withdraw := [.lockdown] } }, by decide⟩,
    ⟨mSSP, live, by decide⟩,
    ⟨mSSP, live, by decide⟩⟩

theorem test_meets_GateAdmissionToRelease :
    (∃ e : SinkEnt, (∃ f : Frame, (∃ s : State, (s.sw.sink.find? (fun x => decide (x.port = 209)) = some e) ∧ (frameOf s e.fid = some f) ∧ (e.rf = .clean) ∧ (f.poison = false) ∧ (crc32c f.bytes = f.check)))) ∧
    (∃ rf : ReadFault, (∃ e : SinkEnt, (∃ f : Frame, (∃ s : State, (s.sw.sink.find? (fun x => decide (x.port = 209)) = some e) ∧ (frameOf s e.fid = some f) ∧ ((if rf = .clean then e.rf else rf) = .poison ∨ f.poison = true))))) ∧
    (∃ rf : ReadFault, (∃ e : SinkEnt, (∃ f : Frame, (∃ s : State, (s.sw.sink.find? (fun x => decide (x.port = 209)) = some e) ∧ (frameOf s e.fid = some f) ∧ ((if rf = .clean then e.rf else rf) ≠ .poison) ∧ (f.poison = false) ∧ ((if rf = .clean then e.rf else rf) = .corrupt ∨ crc32c f.bytes ≠ f.check))))) ∧
    (∃ c : UnitClass, (∃ u : Nat, (∃ e : PEnt, (∃ s : State, ((List.range (unitCount c)).find? (fun u => !(unitBusy s c u)) = some u) ∧ (s.gate.pend.find? (fun e => decide (e.phase = .waiting) && decide (pentClass s e = c)) = some e))))) ∧
    (∃ tag : Word, (∃ e : PEnt, (∃ u : Nat, (∃ s : State, (s.gate.pend.find? (fun x => decide (x.tag = tag.toNat)) = some e) ∧ (e.phase = .onUnit u))))) ∧
    (∃ tag : Word, (∃ e : PEnt, (∃ s : State, (s.gate.pend.find? (fun x => decide (x.tag = tag.toNat)) = some e) ∧ ((s.gate.pend.find? (fun x => decide (envIndex x.env = envIndex e.env))).map (·.tag) = some tag.toNat) ∧ (e.phase = .result false)))) ∧
    (∃ tag : Word, (∃ e : PEnt, (∃ c : Nat, (∃ s : State, (s.gate.pend.find? (fun x => decide (x.tag = tag.toNat)) = some e) ∧ ((s.gate.pend.find? (fun x => decide (envIndex x.env = envIndex e.env))).map (·.tag) = some tag.toNat) ∧ (e.phase = .result true) ∧ (stageChecks s e.env = some c))))) ∧
    (∃ tag : Word, (∃ e : PEnt, (∃ s : State, (s.gate.pend.find? (fun x => decide (x.tag = tag.toNat)) = some e) ∧ ((s.gate.pend.find? (fun x => decide (envIndex x.env = envIndex e.env))).map (·.tag) = some tag.toNat) ∧ (e.phase = .result true) ∧ (stageChecks s e.env = none) ∧ ((markOf s (envIndex e.env)).toNat + 1024 ≤ envSeq e.env)))) ∧
    (∃ tag : Word, (∃ e : PEnt, (∃ s : State, (s.gate.pend.find? (fun x => decide (x.tag = tag.toNat)) = some e) ∧ ((s.gate.pend.find? (fun x => decide (envIndex x.env = envIndex e.env))).map (·.tag) = some tag.toNat) ∧ (e.phase = .result true) ∧ (stageChecks s e.env = none) ∧ (envSeq e.env < (markOf s (envIndex e.env)).toNat + 1024)))) ∧
    (∃ k : Fin 4096, (∃ v : DWord, (∃ s : State, (sfind s.vlt.markWr k.val = some v) ∧ (vMay s (if s.vlt.waiting.contains { cls := 1, key := k.val } then 1 else 4) k.val = true)))) ∧
    (∃ k : Fin 4096, (∃ s : State, vMay s (if s.vlt.waiting.contains { cls := 1, key := k.val } then 1 else 4) k.val = false)) ∧
    (∃ r : REnt, (∃ tag : Word, (∃ s : State, (s.gate.rel.find? (fun r => decide (r.phase = .passed)) = some r) ∧ (r.tag = tag.toNat) ∧ (vMay s 2 tag.toNat = true)))) ∧
    (∃ c : BitVec 9, (∃ g : GEnt, (∃ s : State, gateOldest s c.toNat = some g))) ∧
    (∃ s : State, (supplyHeld s = true) ∧ (s.gate.warnWritten = false)) :=
  ⟨⟨⟨209, 0, .clean⟩, sentFrame, { queuedState with sw := { queuedState.sw with sink := [⟨209, 0, .clean⟩] } }, by decide +kernel⟩,
    ⟨.poison, ⟨209, 0, .clean⟩, sentFrame, { queuedState with sw := { queuedState.sw with sink := [⟨209, 0, .clean⟩] } }, by decide +kernel⟩,
    ⟨.corrupt, ⟨209, 0, .clean⟩, sentFrame, { queuedState with sw := { queuedState.sw with sink := [⟨209, 0, .clean⟩] } }, by decide +kernel⟩,
    ⟨.pk, 0, pendEnt .waiting, gateState .waiting, by decide⟩,
    ⟨7, pendEnt (.onUnit 0), 0, gateState (.onUnit 0), by decide⟩,
    ⟨7, pendEnt (.result false), gateState (.result false), by decide⟩,
    ⟨7, pendEnt (.result true), ocLockdown, { gateState (.result true) with sys := { live.sys with scanLock := true } }, by decide⟩,
    ⟨7, { pendEnt (.result true) with env := gateEnv 4 }, { gateState (.result true) with gate := { (gateState (.result true)).gate with pend := [{ pendEnt (.result true) with env := gateEnv 4 }] } }, by decide⟩,
    ⟨7, pendEnt (.result true), gateState (.result true), by decide⟩,
    ⟨1, 1024, { live with vlt := { live.vlt with markWr := [(1, 1024)], waiting := [⟨1, 1⟩] } }, by decide⟩,
    ⟨1, putB live IMG_GATE_STATUS 30 true, by decide⟩,
    ⟨relEnt, 7, { live with gate := { live.gate with rel := [relEnt] } }, by decide⟩,
    ⟨300, heldEnt, { live with gate := { live.gate with entry := [(300, [heldEnt])] } }, by decide⟩,
    ⟨putB live IMG_GATE_STATUS 30 true, by decide⟩⟩

theorem test_meets_CommandAuthorityTable :
    (∃ m : Master, (∃ v : Word, (∃ s : State, (MayWrite s m IMG_CAT_CMD) ∧ (s.gate.catBusy = none) ∧ (owner s = 1) ∧ (fld v 27 16 ≠ 0) ∧ ((catOf s (fld v 27 16)).state = 0) ∧ ((stagedEntry s).gen = ((catOf s (fld v 27 16)).lastGen + 1) % 16) ∧ (catFormatOk s (stagedEntry s) = true) ∧ (poolTaken s ((stagedEntry s).poolOff * 16) ((stagedEntry s).poolOff * 16 + (stagedEntry s).keyLen) = false)))) ∧
    (∃ m : Master, (∃ v : Word, (∃ s : State, (MayWrite s m IMG_CAT_CMD) ∧ (s.gate.catBusy = none) ∧ (owner s = 1) ∧ (fld v 27 16 ≠ 0) ∧ ((catOf s (fld v 27 16)).state = 0) ∧ ((stagedEntry s).gen ≠ ((catOf s (fld v 27 16)).lastGen + 1) % 16 ∨ catFormatOk s (stagedEntry s) = false)))) ∧
    (∃ m : Master, (∃ s : State, (MayWrite s m IMG_CAT_CMD) ∧ (s.gate.catBusy.isSome = true))) ∧
    (∃ m : Master, (∃ v : Word, (∃ s : State, (MayWrite s m IMG_CAT_CMD) ∧ (s.gate.catBusy = none) ∧ (owner s = 1) ∧ (fld v 27 16 ≠ 0) ∧ ((catOf s (fld v 27 16)).state ≠ 0)))) ∧
    (∃ m : Master, (∃ s : State, (MayWrite s m IMG_CAT_CMD) ∧ (s.gate.catBusy = none) ∧ (owner s ≠ 1))) ∧
    (∃ m : Master, (∃ v : Word, (∃ s : State, (MayWrite s m IMG_CAT_CMD) ∧ (s.gate.catBusy = none) ∧ (owner s = 1) ∧ (fld v 27 16 ≠ 0) ∧ ((catOf s (fld v 27 16)).state ≠ 0)))) ∧
    (∃ m : Master, (∃ v : Word, (∃ s : State, (MayWrite s m IMG_CAT_CMD) ∧ (s.gate.catBusy = none) ∧ (owner s = 1) ∧ (fld v 27 16 ≠ 0) ∧ ((catOf s (fld v 27 16)).state ≠ 0)))) ∧
    (∃ m : Master, (∃ s : State, (MayWrite s m IMG_CAT_CMD) ∧ (s.gate.catBusy = none))) ∧
    (∃ op : Nat, (∃ i : Nat, (∃ s : State, (s.gate.catBusy = some (op, i)) ∧ (vMay s 5 0 = true) ∧ (op ≠ 4 ∨ s.gate.catScan = true)))) ∧
    (∃ op : Nat, (∃ i : Nat, (∃ s : State, (s.gate.catBusy = some (op, i)) ∧ (vMay s 5 0 = false ∨ (op = 4 ∧ s.gate.catScan = false))))) :=
  ⟨⟨mSSP, 0x00010000, stageState, by decide⟩,
    ⟨mSSP, 0x00010000, putF live SYS_OWNER_STATE 1 0 1, by decide⟩,
    ⟨mSSP, { live with gate := { live.gate with catBusy := some (1, 1) } }, by decide⟩,
    ⟨mSSP, 0x00010000, catSet stageState 1 { CatEnt.empty with state := 1, alg := 2 }, by decide⟩,
    ⟨mSSP, live, by decide⟩,
    ⟨mSSP, 0x00010000, catSet stageState 1 { CatEnt.empty with state := 1, alg := 2 }, by decide⟩,
    ⟨mSSP, 0x00010000, catSet stageState 1 { CatEnt.empty with state := 1, alg := 2 }, by decide⟩,
    ⟨mSSP, live, by decide⟩,
    ⟨4, 4095, { live with gate := { live.gate with catBusy := some (4, 4095), catScan := true } }, by decide⟩,
    ⟨4, 4095, { live with gate := { live.gate with catBusy := some (4, 4095) } }, by decide⟩⟩

theorem test_meets_GateSieveKeysAndService :
    (∃ m : Master, (∃ s : State, (MayWrite s m IMG_SIEVE_CMD) ∧ (fld (getR s (IMG_SIEVE_STAGE 1)) 8 0 ≤ fld (getR s (IMG_SIEVE_STAGE 1)) 24 16))) ∧
    (∃ m : Master, (∃ s : State, (MayWrite s m IMG_SIEVE_CMD) ∧ (fld (getR s (IMG_SIEVE_STAGE 1)) 24 16 < fld (getR s (IMG_SIEVE_STAGE 1)) 8 0))) ∧
    (∃ m : Master, (∃ s : State, MayWrite s m IMG_SIEVE_CMD)) ∧
    (∃ m : Master, (∃ w : Fin 16384, (∃ s : State, (MayWrite s m (IMG + 0x30000 + 4 * w.val)) ∧ (∀ j < 4, poolTaken s (poolWin s w.val + j) (poolWin s w.val + j + 1) = false)))) ∧
    (∃ m : Master, (∃ w : Fin 16384, (∃ v : Word, (∃ j : Nat, (∃ s : State, (MayWrite s m (IMG + 0x30000 + 4 * w.val)) ∧ (j < 4) ∧ (poolTaken s (poolWin s w.val + j) (poolWin s w.val + j + 1) = true) ∧ (poolByte s (poolWin s w.val + j) ≠ b8 (v.toNat / 2 ^ (8 * j)))))))) ∧
    (∃ m : Master, (∃ v : Word, (∃ s : State, (MayWrite s m IMG_VR_SIZE) ∧ (vrSizeOk (v.toNat % 0x20000) = false)))) ∧
    (∃ m : Master, (∃ v : Word, (∃ s : State, (MayWrite s m IMG_VR_SIZE) ∧ (vrSizeOk (v.toNat % 0x20000) = true)))) ∧
    (∃ m : Master, (∃ s : State, MayRead s m IMG_VR_OVERRUN)) ∧
    (∃ m : Master, (∃ s : State, MayWrite s m IMG_GATE_CTRL)) ∧
    (∃ n : Pe, (∃ a : Word, (∃ b : List Byte, (∃ s : State, (∃ t : State, (supplyHeld s = false) ∧ ((s.gate.svc.filter fun r => decide (r.engine = n.val)).length < min 16 (max 1 (getF s IMG_SVC_LIMIT 4 0))) ∧ (svcRead s n.val a.toNat 32 = (t, .ok, b)) ∧ (a.toNat % 32 = 0) ∧ (svcFormatOk b = true)))))) ∧
    (∃ s : State, supplyHeld s = true) ∧
    (∃ lane : Fin 32, (∃ r : SvcReq, (∃ b : List Byte, (∃ key : List Byte, (∃ d : List Byte, (∃ s : State, (∃ t1 : State, (∃ t2 : State, (∃ t3 : State, (∃ t4 : State, (s.gate.svc.find? (fun r => decide (r.lane = some lane.val)) = some r) ∧ (svcRead s r.engine r.addr 32 = (t1, .ok, b)) ∧ (leAt b 0 2 = 0xFFFF) ∧ (svcRead t1 r.engine (leAt b 16 4) (leAt b 20 1) = (t2, .ok, key)) ∧ (svcRead t2 r.engine (leAt b 4 4) (leAt b 8 4) = (t3, .ok, d)) ∧ (leAt b 2 1 = 1) ∧ (svcWrite t3 r.engine (leAt b 12 4) ((hmac256 key d).take (leAt b 3 1)) = (t4, .ok)))))))))))) ∧
    (∃ lane : Fin 32, (∃ r : SvcReq, (∃ b : List Byte, (∃ key : List Byte, (∃ d : List Byte, (∃ w : List Byte, (∃ s : State, (∃ t1 : State, (∃ t2 : State, (∃ t3 : State, (∃ t4 : State, (s.gate.svc.find? (fun r => decide (r.lane = some lane.val)) = some r) ∧ (svcRead s r.engine r.addr 32 = (t1, .ok, b)) ∧ (leAt b 0 2 = 0xFFFF) ∧ (svcRead t1 r.engine (leAt b 16 4) (leAt b 20 1) = (t2, .ok, key)) ∧ (svcRead t2 r.engine (leAt b 4 4) (leAt b 8 4) = (t3, .ok, d)) ∧ (leAt b 2 1 ≠ 1) ∧ (svcRead t3 r.engine (leAt b 12 4) (leAt b 3 1) = (t4, .ok, w))))))))))))) :=
  ⟨⟨mSSP, live, by decide⟩,
    ⟨mSSP, setR live (IMG_SIEVE_STAGE 1) 1, by decide⟩,
    ⟨mSSP, live, by decide⟩,
    ⟨mSSP, 16383, live, by decide⟩,
    ⟨mSSP, 0, 0x12345678, 3, catSet live 1 { CatEnt.empty with state := 1, alg := 2, keyLen := 32 }, by decide⟩,
    ⟨mSSP, 0, live, by decide⟩,
    ⟨mSSP, 65536, live, by decide⟩,
    ⟨mSSP, live, by decide⟩,
    ⟨mSSP, live, by decide⟩,
    ⟨5, 0x04000000, svcBytes, svcState, (svcRead svcState 5 0x04000000 32).1, by decide⟩,
    ⟨putB live IMG_GATE_STATUS 30 true, by decide⟩,
    ⟨0, laneReq, svcBytes, (svcRead laneState 5 0x04000100 16).2.2, [0], laneState, laneState, laneState, laneState, (svcWrite laneState 5 0x04000300 ((hmac256 (svcRead laneState 5 0x04000100 16).2.2 [0]).take 32)).1, by decide⟩,
    ⟨0, laneReq, checkBytes, List.replicate 16 0, [0], List.replicate 32 0, checkState, checkState, checkState, checkState, checkState, by decide⟩⟩

theorem test_meets_VaultCounters :
    (∃ m : Master, (∃ c : BitVec 8, (∃ s : State, (MayWrite s m VLT_CNT_CMD) ∧ (s.vlt.cntBusy = none) ∧ (erasing s = false) ∧ (supplyHeld s = false) ∧ (c.toNat < 4 ∨ 16 ≤ c.toNat) ∧ (vaultCounter s c.toNat ≠ 0xFFFFFFFFFFFFFFFF)))) ∧
    (∃ m : Master, (∃ c : BitVec 8, (∃ s : State, (MayWrite s m VLT_CNT_CMD) ∧ (s.vlt.cntBusy = none) ∧ (erasing s = false) ∧ (supplyHeld s = false) ∧ (c.toNat < 4 ∨ 16 ≤ c.toNat) ∧ (vaultCounter s c.toNat = 0xFFFFFFFFFFFFFFFF)))) ∧
    (∃ m : Master, (∃ c : BitVec 8, (∃ s : State, (MayWrite s m VLT_CNT_CMD) ∧ (s.vlt.cntBusy = none) ∧ (erasing s = false) ∧ (supplyHeld s = false) ∧ (4 ≤ c.toNat) ∧ (c.toNat < 16)))) ∧
    (∃ m : Master, (∃ s : State, (MayWrite s m VLT_CNT_CMD) ∧ (s.vlt.cntBusy.isSome = true))) ∧
    (∃ m : Master, (∃ s : State, (MayWrite s m VLT_CNT_CMD) ∧ (s.vlt.cntBusy = none) ∧ (erasing s = true ∨ supplyHeld s = true))) ∧
    (∃ m : Master, (∃ c : BitVec 8, (∃ s : State, (MayWrite s m VLT_CNT_CMD) ∧ (s.vlt.cntBusy = none) ∧ (erasing s = false) ∧ (supplyHeld s = false) ∧ (c.toNat < 4 ∨ 16 ≤ c.toNat) ∧ ((vaultCounter s c.toNat).toNat < (getR64 s VLT_CNT_VALUE_LO).toNat)))) ∧
    (∃ m : Master, (∃ c : BitVec 8, (∃ s : State, (MayWrite s m VLT_CNT_CMD) ∧ (s.vlt.cntBusy = none) ∧ (erasing s = false) ∧ (supplyHeld s = false) ∧ (c.toNat < 4 ∨ 16 ≤ c.toNat) ∧ ((getR64 s VLT_CNT_VALUE_LO).toNat ≤ (vaultCounter s c.toNat).toNat)))) ∧
    (∃ m : Master, (∃ s : State, (MayWrite s m VLT_CNT_CMD) ∧ (s.vlt.cntBusy = none) ∧ (erasing s = false))) ∧
    (∃ m : Master, (∃ s : State, (MayWrite s m VLT_CNT_CMD) ∧ (s.vlt.cntBusy = none) ∧ (erasing s = true))) ∧
    (∃ x : Nat × DWord × Nat, (∃ s : State, (s.vlt.cntBusy = some x) ∧ (vMay s 6 0 = true))) ∧
    (∃ s : State, vMay s 6 0 = false) :=
  ⟨⟨mSSP, 255, live, by decide⟩,
    ⟨mSSP, 255, { live with vlt := { live.vlt with counters := [(255, 0xFFFFFFFFFFFFFFFF)] } }, by decide⟩,
    ⟨mSSP, 15, live, by decide⟩,
    ⟨mSSP, { live with vlt := { live.vlt with cntBusy := some (0, 1, 1) } }, by decide⟩,
    ⟨mSSP, putF live SYS_OWNER_STATE 1 0 2, by decide⟩,
    ⟨mSSP, 255, setR live VLT_CNT_VALUE_LO 5, by decide⟩,
    ⟨mSSP, 255, live, by decide⟩,
    ⟨mSSP, live, by decide⟩,
    ⟨mSSP, putF live SYS_OWNER_STATE 1 0 2, by decide⟩,
    ⟨(0, 1, 1), { live with vlt := { live.vlt with cntBusy := some (0, 1, 1) } }, by decide⟩,
    ⟨putB live IMG_GATE_STATUS 30 true, by decide⟩⟩

theorem test_meets_VaultJournalAndLogs :
    (∃ m : Master, (∃ v : Word, (∃ s : State, (MayWrite s m VLT_EXPORT_COUNT) ∧ (s.vlt.exp = none) ∧ (v.toNat % 0x40000 ≠ 0) ∧ (v.toNat % 0x40000 ≤ 131072)))) ∧
    (∃ m : Master, (∃ v : Word, (∃ s : State, (MayWrite s m VLT_EXPORT_COUNT) ∧ (s.vlt.exp = none) ∧ (v.toNat % 0x40000 = 0 ∨ 131072 < v.toNat % 0x40000)))) ∧
    (∃ a : Nat, (∃ i : Nat, (∃ n : Nat, (∃ s : State, s.vlt.exp = some (a, i, n))))) ∧
    (∃ m : Master, (∃ s : State, MayRead s m VLT_AUDIT_DROPPED)) ∧
    (∃ l : Fin 6, (∃ s : State, (logRows l.val / 2 ≤ sget s.vlt.fill l.val 0) ∧ (supplyHeld s = false) ∧ (s.vlt.waiting = []))) ∧
    (∃ l : Fin 6, (∃ s : State, sget s.vlt.fill l.val 0 < logRows l.val / 2 ∨ supplyHeld s = true ∨ s.vlt.waiting ≠ [])) ∧
    (∃ s : State, (jClock s).1 = false) ∧
    (∃ s : State, (jClock s).1 = true) ∧
    (∃ s : State, getF s VLT_STATUS 3 2 = 0) ∧
    (∃ s : State, getF s VLT_STATUS 3 2 ≠ 0) :=
  ⟨⟨mSSP, 0x20000, live, by decide⟩,
    ⟨mSSP, 0x20001, live, by decide⟩,
    ⟨0x04000000, 0, 1, { live with vlt := { live.vlt with exp := some (0x04000000, 0, 1) } }, by decide⟩,
    ⟨mSSP, live, by decide⟩,
    ⟨5, { live with vlt := { live.vlt with fill := [(5, 8192)] } }, by decide⟩,
    ⟨5, live, by decide⟩,
    ⟨timeValid, by decide⟩,
    ⟨live, by decide⟩,
    ⟨live, by decide⟩,
    ⟨putF live VLT_STATUS 3 2 2, by decide⟩⟩

theorem test_meets_RedundancyPairs :
    (∃ m : Master, (∃ p : Fin 192, (∃ s : State, (MayWrite s m (MAC_RED_CTRL p.val)) ∧ (pairOf s p.val = none)))) ∧
    (∃ m : Master, (∃ p : Fin 192, (∃ k : Nat, (∃ a : Nat, (∃ b : Nat, (∃ s : State, (MayWrite s m (MAC_RED_CTRL p.val)) ∧ (pairOf s p.val = some (k, a, b)))))))) ∧
    (∃ k : Fin 16, (∃ a : Nat, (∃ b : Nat, (∃ e : DupEnt, (∃ l : List DupEnt, (∃ s : State, ((pairSt s k.val).ports = some (a, b)) ∧ ((pairSt s k.val).dups = e :: l))))))) :=
  ⟨⟨mSSP, 191, live, by decide⟩,
    ⟨mSSP, 0, 0, 0, 1, ringPort, by decide⟩,
    ⟨0, 0, 1, dupEnt, [], { live with eth := { live.eth with pair := [(0, { PairSt.init with ports := some (0, 1), dups := [dupEnt] })] } }, by decide⟩⟩

theorem test_meets_MacReceptionAndPause :
    (∃ p : Fin 192, (∃ s : State, (loopOf s p.val = 0) ∧ ((rxOpen s p.val).1 = true))) ∧
    (∃ p : Fin 192, (∃ s : State, (loopOf s p.val = 0) ∧ (rxOpen s p.val = (false, true)))) ∧
    (∃ p : Fin 192, (∃ s : State, loopOf s p.val = 1)) ∧
    (∃ p : Fin 192, (∃ s : State, (loopOf s p.val = 2) ∧ (carries s p.val = true) ∧ (macUp s p.val = true))) ∧
    (∃ p : Fin 192, (∃ b : List Byte, (∃ s : State, (loopOf s p.val = 0) ∧ ((rxOpen s p.val).1 = true) ∧ (pairOf s p.val = none) ∧ (60 ≤ b.length) ∧ (b.length ≤ macMtu s p.val + 18) ∧ (beAt b 12 2 ≠ 0x8808)))) ∧
    (∃ p : Fin 192, (∃ b : List Byte, (∃ s : State, (loopOf s p.val = 0) ∧ ((rxOpen s p.val).1 = true) ∧ (pairOf s p.val = none) ∧ (60 ≤ b.length) ∧ (b.length ≤ macMtu s p.val + 18)))) ∧
    (∃ p : Fin 192, (∃ s : State, (loopOf s p.val = 0) ∧ ((rxOpen s p.val).1 = true))) ∧
    (∃ p : Fin 192, (∃ b : List Byte, (∃ x : Nat × Nat × Nat, (∃ s : State, (loopOf s p.val = 0) ∧ ((rxOpen s p.val).1 = true) ∧ (pairOf s p.val = some x) ∧ (pairHsr s x.1 = some true) ∧ ((parseFrame s p.val b).hsr = true) ∧ (60 ≤ b.length) ∧ (b.length ≤ macMtu s p.val + 18) ∧ (beAt b 12 2 ≠ 0x8808))))) ∧
    (∃ p : Fin 192, (∃ s : State, (loopOf s p.val = 0) ∧ ((rxOpen s p.val).1 = true))) ∧
    (∃ p : Fin 192, (∃ s : State, (loopOf s p.val ≠ 1) ∧ ((rxOpen s p.val).1 = true))) ∧
    (∃ p : Fin 192, (∃ da : BitVec 48, (∃ s : State, (loopOf s p.val ≠ 1) ∧ ((rxOpen s p.val).1 = true) ∧ (da = 0x0180C2000001 ∨ da.toNat = macSa s p.val) ∧ (getB s (MAC_PAUSE_CTRL p.val) 0 = true)))) ∧
    (∃ p : Fin 192, (∃ da : BitVec 48, (∃ s : State, (loopOf s p.val ≠ 1) ∧ ((rxOpen s p.val).1 = true) ∧ ((da ≠ 0x0180C2000001 ∧ da.toNat ≠ macSa s p.val) ∨ getB s (MAC_PAUSE_CTRL p.val) 0 = false)))) ∧
    (∃ p : Fin 192, (∃ t : BitVec 64, (∃ s : State, ((mac s p.val).pauseFrom = some t) ∧ (paused s p.val = true)))) ∧
    (∃ p : Fin 192, (∃ s : State, (pauseMay s p.val = true) ∧ (aboveXoff s p.val = true) ∧ (getB s (MAC_PAUSE_STATUS p.val) 1 = false))) ∧
    (∃ p : Fin 192, (∃ s : State, (pauseMay s p.val = true) ∧ (aboveXon s p.val = true) ∧ (getB s (MAC_PAUSE_STATUS p.val) 1 = true) ∧ ((mac s p.val).ctl.any MacCtl.isPause = false))) ∧
    (∃ p : Fin 192, (∃ s : State, (pauseMay s p.val = true) ∧ (aboveXon s p.val = false) ∧ (getB s (MAC_PAUSE_STATUS p.val) 1 = true))) ∧
    (∃ p : Fin 192, (∃ q : Nat, (∃ s : State, (pauseMay s p.val = true) ∧ (aboveXoff s p.val = true) ∧ (getB s (MAC_PAUSE_STATUS p.val) 1 = false) ∧ ((mac s p.val).tx = none) ∧ (getB s (MAC_LINK p.val) 6 = false) ∧ (getF s (MAC_PAUSE_CTRL p.val) 31 16 = q + 1)))) :=
  ⟨⟨191, portUp 191, by decide⟩,
    ⟨191, { portUp 191 with regs := (putB (portUp 191) (MAC_CFG 191) 0 false).regs }, by decide⟩,
    ⟨191, setR (portUp 191) (SDS_LOOPBACK 59) 1, by decide⟩,
    ⟨191, setR (portUp 191) (SDS_LOOPBACK 59) 2, by decide⟩,
    ⟨191, List.replicate 60 0, portUp 191, by decide⟩,
    ⟨191, List.replicate 60 0, portUp 191, by decide⟩,
    ⟨191, portUp 191, by decide⟩,
    ⟨0, List.replicate 12 0 ++ [0x89, 0x2F] ++ List.replicate 60 0, (0, 0, 1), ringPort, by decide⟩,
    ⟨0, ringPort, by decide⟩,
    ⟨0, portUp 0, by decide⟩,
    ⟨0, 0x0180C2000001, putB (portUp 0) (MAC_PAUSE_CTRL 0) 0 true, by decide⟩,
    ⟨0, 5, putB (portUp 0) (MAC_PAUSE_CTRL 0) 0 true, by decide⟩,
    ⟨0, 5, macMod (putB (portUp 0) (MAC_PAUSE_STATUS 0) 0 true) 0 fun x => { x with pauseFrom := some 5 }, by decide⟩,
    ⟨0, setR (portUp 0) (MAC_PAUSE_CTRL 0) 0x00640006, by decide⟩,
    ⟨0, putB (setR (portUp 0) (MAC_PAUSE_CTRL 0) 0x00640006) (MAC_PAUSE_STATUS 0) 1 true, by decide⟩,
    ⟨0, putB (setR (portUp 0) (MAC_PAUSE_CTRL 0) 0x00640002) (MAC_PAUSE_STATUS 0) 1 true, by decide⟩,
    ⟨0, 99, setR (portUp 0) (MAC_PAUSE_CTRL 0) 0x00640006, by decide⟩⟩

theorem test_meets_MacTransmission :
    (∃ p : Fin 224, (∃ f : ReadFault, (∃ fr : Frame, (∃ c : Nat, (∃ b : List Byte, (∃ s : State, (∃ t : State, (p.val < 192) ∧ (txReady s p.val = true) ∧ ((mac s p.val).tx = none) ∧ ((mac s p.val).held = none) ∧ (macPick s p.val (fun _ => true) f (s.sw.queue.length + 1) = (t, some (fr, c, b)))))))))) ∧
    (∃ p : Fin 224, (∃ f : ReadFault, (∃ s : State, (∃ t : State, (p.val < 192) ∧ (txReady s p.val = true) ∧ ((mac s p.val).tx = none) ∧ ((mac s p.val).held = none) ∧ (macPick s p.val (fun _ => true) f (s.sw.queue.length + 1) = (t, none)))))) ∧
    (∃ p : Fin 224, (∃ s : State, (p.val < 192) ∧ (txReady s p.val = false) ∧ ((mac s p.val).held = none ∨ (mac s p.val).tx.isSome = true))) ∧
    (∃ p : Fin 224, (∃ f : ReadFault, (∃ x : TxFrame, (∃ s : State, (∃ t : State, (∃ o : Option (Frame × Nat × List Byte), (p.val < 192) ∧ (txReady s p.val = true) ∧ ((mac s p.val).tx = none) ∧ ((mac s p.val).held = some x) ∧ (macPick s p.val (fun c => !(preemptable s p.val c)) f (s.sw.queue.length + 1) = (t, o)))))))) ∧
    (∃ p : Fin 224, (∃ x : TxFrame, (∃ s : State, (p.val < 192) ∧ (txReady s p.val = false) ∧ ((mac s p.val).tx = none) ∧ ((mac s p.val).held = some x)))) ∧
    (∃ p : Fin 224, (∃ f : ReadFault, (∃ x : TxFrame, (∃ s : State, (∃ t : State, (∃ o : Option (Frame × Nat × List Byte), (p.val < 192) ∧ (txReady s p.val = true) ∧ ((mac s p.val).tx = some x) ∧ (macPick s p.val (fun c => !(preemptable s p.val c)) f (s.sw.queue.length + 1) = (t, o)))))))) ∧
    (∃ p : Fin 224, (∃ s : State, (192 ≤ p.val) ∧ (p.val < 212) ∧ (egressOn s p.val = true))) ∧
    (∃ p : Fin 192, (∃ x : TxFrame, (∃ s : State, (mac s p.val).tx = some x))) ∧
    (∃ p : Fin 192, (∃ s : State, (macOn s p.val = true) ∧ (macUp s p.val = true) ∧ (verifyState s p.val = 1) ∧ ((mac s p.val).tx = none) ∧ ((mac s p.val).held = none))) ∧
    (∃ p : Fin 192, (∃ s : State, (macOn s p.val = true) ∧ (macUp s p.val = true) ∧ (verifyState s p.val = 2) ∧ ((mac s p.val).attempts < max 1 (getF s (MAC_PREEMPT_CTRL p.val) 26 24)))) ∧
    (∃ p : Fin 192, (∃ s : State, (macOn s p.val = true) ∧ (macUp s p.val = true) ∧ (verifyState s p.val = 2) ∧ (max 1 (getF s (MAC_PREEMPT_CTRL p.val) 26 24) ≤ (mac s p.val).attempts))) ∧
    (∃ p : Fin 192, (∃ s : State, (loopOf s p.val ≠ 1) ∧ ((rxOpen s p.val).1 = true) ∧ (preemptEn s p.val = true))) ∧
    (∃ p : Fin 192, (∃ s : State, (loopOf s p.val ≠ 1) ∧ ((rxOpen s p.val).1 = true) ∧ (preemptEn s p.val = false))) ∧
    (∃ p : Fin 192, (∃ s : State, (loopOf s p.val ≠ 1) ∧ ((rxOpen s p.val).1 = true))) :=
  ⟨⟨0, .clean, sentFrame, 0, sentFrame.bytes, queuedState, (macPick queuedState 0 (fun _ => true) .clean 3).1, by decide +kernel⟩,
    ⟨0, .clean, sendPort 0, sendPort 0, by decide +kernel⟩,
    ⟨0, live, by decide⟩,
    ⟨0, .clean, sentTx, macMod (sendPort 0) 0 fun q => { q with held := some sentTx }, macMod (sendPort 0) 0 fun q => { q with held := some sentTx }, none, by decide +kernel⟩,
    ⟨0, sentTx, macMod live 0 fun q => { q with held := some sentTx }, by decide⟩,
    ⟨0, .clean, sentTx, macMod (sendPort 0) 0 fun q => { q with tx := some sentTx }, macMod (sendPort 0) 0 fun q => { q with tx := some sentTx }, none, by decide +kernel⟩,
    ⟨209, queuedState, by decide⟩,
    ⟨0, sentTx, macMod (sendPort 0) 0 fun q => { q with tx := some sentTx }, by decide⟩,
    ⟨0, putF (portUp 0) (MAC_PREEMPT_STATUS 0) 2 0 1, by decide⟩,
    ⟨0, putF (portUp 0) (MAC_PREEMPT_STATUS 0) 2 0 2, by decide⟩,
    ⟨0, macMod (putF (portUp 0) (MAC_PREEMPT_STATUS 0) 2 0 2) 0 fun q => { q with attempts := 9 }, by decide⟩,
    ⟨0, macMod (putF (putB (portUp 0) (MAC_PREEMPT_CTRL 0) 0 true) (MAC_PREEMPT_STATUS 0) 2 0 2) 0 fun q => { q with pre := 1 }, by decide⟩,
    ⟨0, portUp 0, by decide⟩,
    ⟨0, macMod (putF (putB (portUp 0) (MAC_PREEMPT_CTRL 0) 0 true) (MAC_PREEMPT_STATUS 0) 2 0 2) 0 fun q => { q with pre := 1 }, by decide⟩⟩

theorem test_meets_LinksLanesAndMdio :
    (∃ p : Fin 192, (∃ s : State, (getB s (BLK_CTRL (SDS (laneOf p.val))) 0 = true) ∧ (laneMode s (laneOf p.val) ≠ 0))) ∧
    (∃ p : Fin 192, (∃ s : State, getB s (BLK_CTRL (SDS (laneOf p.val))) 0 = false)) ∧
    (∃ p : Fin 192, (∃ s : State, (laneMode s (laneOf p.val) ≠ 0) ∧ (laneMode s (laneOf p.val) ≤ 3))) ∧
    (∃ p : Fin 192, (∃ q : Fin 192, (∃ why : LaneLoss, (∃ s : State, (laneMode s (laneOf p.val) ≠ 0) ∧ (why ≠ .word) ∧ (q.val ∈ lanePorts (laneOf p.val)))))) ∧
    (∃ p : Fin 192, (∃ s : State, laneMode s (laneOf p.val) = 0)) ∧
    (∃ m : Master, (∃ l : Fin 60, (∃ s : State, (MayWrite s m (BLK_CTRL (SDS l.val))) ∧ (getB s (BLK_CTRL (SDS l.val)) 0 = false)))) ∧
    (∃ m : Master, (∃ l : Fin 60, (∃ s : State, MayWrite s m (SDS_AN_CTRL l.val)))) ∧
    (∃ m : Master, (∃ l : Fin 60, (∃ s : State, MayRead s m (SDS_PRBS_ERR l.val)))) ∧
    (∃ p : Fin 192, (∃ s : State, (lpiUse s p.val = true) ∧ (devState s = 0) ∧ (waitsFor s p.val = false) ∧ ((mac s p.val).tx = none) ∧ ((mac s p.val).held = none) ∧ (getB s (MAC_LINK p.val) 6 = false))) ∧
    (∃ p : Fin 192, (∃ s : State, (getB s (MAC_LINK p.val) 6 = true) ∧ (devState s = 0) ∧ (waitsFor s p.val = true))) ∧
    (∃ p : Fin 192, (∃ on : Bool, (∃ s : State, (macOn s p.val = true) ∧ (macUp s p.val = true) ∧ (getB s (MAC_LINK p.val) 7 ≠ on)))) ∧
    (∃ m : Master, (∃ l : Fin 4, (∃ v : Word, (∃ s : State, (MayWrite s m (SDS_MDIO_CMD l.val)) ∧ (getB s (SDS_MDIO_RESULT l.val) 30 = false) ∧ (fld v 31 30 < 2))))) ∧
    (∃ m : Master, (∃ l : Fin 4, (∃ v : Word, (∃ s : State, (MayWrite s m (SDS_MDIO_CMD l.val)) ∧ (getB s (SDS_MDIO_RESULT l.val) 30 = false) ∧ (fld v 31 30 < 2))))) ∧
    (∃ m : Master, (∃ l : Fin 4, (∃ s : State, (MayWrite s m (SDS_MDIO_CMD l.val)) ∧ (getB s (SDS_MDIO_RESULT l.val) 30 = false)))) ∧
    (∃ m : Master, (∃ l : Fin 4, (∃ s : State, (MayWrite s m (SDS_MDIO_CMD l.val)) ∧ (getB s (SDS_MDIO_RESULT l.val) 30 = false)))) ∧
    (∃ l : Fin 4, (∃ v : Word, (∃ s : State, sfind s.eth.mdio l.val = some v))) :=
  ⟨⟨0, putF (putB live (BLK_CTRL (SDS 0)) 0 true) (SDS_STATUS 0) 10 8 1, by decide⟩,
    ⟨0, live, by decide⟩,
    ⟨0, putF (portUp 0) (SDS_STATUS 0) 10 8 1, by decide⟩,
    ⟨0, 3, .signal, putF (portUp 3) (SDS_STATUS 0) 10 8 1, by decide⟩,
    ⟨0, live, by decide⟩,
    ⟨mSSP, 59, live, by decide⟩,
    ⟨mSSP, 59, live, by decide⟩,
    ⟨mSSP, 59, live, by decide⟩,
    ⟨0, putB (putF (portUp 0) (MAC_LINK 0) 2 0 2) (MAC_EEE_CTRL 0) 0 true, by decide⟩,
    ⟨0, putB queuedState (MAC_LINK 0) 6 true, by decide⟩,
    ⟨0, true, portUp 0, by decide⟩,
    ⟨mSSP, 3, 0x40000000, live, by decide⟩,
    ⟨mSSP, 3, 0x40000000, live, by decide⟩,
    ⟨mSSP, 3, live, by decide⟩,
    ⟨mSSP, 3, live, by decide⟩,
    ⟨3, 0x20000000, { live with eth := { live.eth with mdio := [(3, 0x20000000)] } }, by decide⟩⟩

theorem test_meets_PeriodLinkCommands :
    (∃ m : Master, (∃ n : Fin 16, (∃ s : State, (MayWrite s m (PLK_CMD n.val)) ∧ (plkC s n.val = 0) ∧ (plkParamOk s n.val = true) ∧ (plkSchedBad s n.val = none) ∧ (plkGuardBad s n.val = none)))) ∧
    (∃ m : Master, (∃ n : Fin 16, (∃ s : State, (MayWrite s m (PLK_CMD n.val)) ∧ (plkC s n.val = 0) ∧ (plkParamOk s n.val = false)))) ∧
    (∃ m : Master, (∃ n : Fin 16, (∃ e : Nat × Nat, (∃ s : State, (MayWrite s m (PLK_CMD n.val)) ∧ (plkC s n.val = 0) ∧ (plkParamOk s n.val = true) ∧ (plkSchedBad s n.val = some e))))) ∧
    (∃ m : Master, (∃ n : Fin 16, (∃ e : Nat × Nat, (∃ s : State, (MayWrite s m (PLK_CMD n.val)) ∧ (plkC s n.val = 0) ∧ (plkParamOk s n.val = true) ∧ (plkSchedBad s n.val = none) ∧ (plkGuardBad s n.val = some e))))) ∧
    (∃ m : Master, (∃ n : Fin 16, (∃ s : State, (MayWrite s m (PLK_CMD n.val)) ∧ (plkC s n.val ≠ 0)))) ∧
    (∃ m : Master, (∃ n : Fin 16, (∃ s : State, (MayWrite s m (PLK_CMD n.val)) ∧ (plkC s n.val = 1)))) ∧
    (∃ m : Master, (∃ n : Fin 16, (∃ s : State, (MayWrite s m (PLK_CMD n.val)) ∧ (plkC s n.val ≠ 1)))) ∧
    (∃ m : Master, (∃ n : Fin 16, (∃ s : State, (MayWrite s m (PLK_CMD n.val)) ∧ (plkC s n.val = 1) ∧ (getB s (BLK_CTRL (PLK n.val)) 0 = true)))) ∧
    (∃ m : Master, (∃ n : Fin 16, (∃ s : State, (MayWrite s m (PLK_CMD n.val)) ∧ (plkC s n.val ≠ 1 ∨ getB s (BLK_CTRL (PLK n.val)) 0 = false)))) ∧
    (∃ m : Master, (∃ n : Fin 16, (∃ s : State, (MayWrite s m (PLK_CMD n.val)) ∧ (plkC s n.val = 2)))) ∧
    (∃ m : Master, (∃ n : Fin 16, (∃ s : State, (MayWrite s m (PLK_CMD n.val)) ∧ (plkC s n.val ≠ 2)))) ∧
    (∃ m : Master, (∃ n : Fin 16, (∃ s : State, (MayWrite s m (PLK_CMD n.val)) ∧ (plkC s n.val = 2)))) ∧
    (∃ m : Master, (∃ n : Fin 16, (∃ s : State, (MayWrite s m (PLK_CMD n.val)) ∧ (plkC s n.val ≠ 2)))) :=
  ⟨⟨mSSP, 0, plkReady, by decide⟩,
    ⟨mSSP, 15, live, by decide⟩,
    ⟨mSSP, 0, (3, 0), setR plkReady (PLK_MODE_CFG 0 3) 0, by decide⟩,
    ⟨mSSP, 0, (3, 63), setR plkReady (PLK_GUARD 0 3 63) 1, by decide⟩,
    ⟨mSSP, 15, plkSt 15 1 0, by decide⟩,
    ⟨mSSP, 15, plkSt 15 1 0, by decide⟩,
    ⟨mSSP, 15, plkSt 15 2 4, by decide⟩,
    ⟨mSSP, 15, putB (plkSt 15 1 0) (BLK_CTRL (PLK 15)) 0 true, by decide⟩,
    ⟨mSSP, 15, live, by decide⟩,
    ⟨mSSP, 15, plkSt 15 2 4, by decide⟩,
    ⟨mSSP, 15, live, by decide⟩,
    ⟨mSSP, 15, plkSt 15 2 4, by decide⟩,
    ⟨mSSP, 15, live, by decide⟩⟩

theorem test_meets_PeriodLinkCycle :
    (∃ n : Fin 16, (∃ s : State, (plkC s n.val = 2) ∧ (2 ≤ plkP s n.val))) ∧
    (∃ n : Fin 16, (∃ k : Fin 64, (∃ s : State, (plkC s n.val = 2) ∧ (plkP s n.val = 4) ∧ ((plk s n.val).inNit = false) ∧ (k.val < plkN s n.val (plkMode s n.val)) ∧ (plkOwner s n.val (plkMode s n.val) k.val = plkId s n.val) ∧ ((plk s n.val).chosen.any (fun t => decide (t.slot = k.val)) = false)))) ∧
    (∃ n : Fin 16, (∃ k : Fin 64, (∃ s : State, (plkC s n.val = 2) ∧ (plkP s n.val = 4) ∧ ((plk s n.val).inNit = true) ∧ (k.val < plkN s n.val (plk s n.val).nextMode) ∧ (plkOwner s n.val (plk s n.val).nextMode k.val = plkId s n.val) ∧ ((plk s n.val).chosen.any (fun t => decide (t.slot = k.val)) = false)))) ∧
    (∃ n : Fin 16, (∃ k : Fin 64, (∃ x : PlTx, (∃ s : State, (plkC s n.val = 2) ∧ (plkP s n.val = 4) ∧ ((plk s n.val).onLine = none) ∧ ((plk s n.val).chosen.find? (fun t => decide (t.slot = k.val)) = some x) ∧ (plkStands s n.val x = true))))) ∧
    (∃ n : Fin 16, (∃ k : Fin 64, (∃ x : PlTx, (∃ s : State, (plkC s n.val = 2) ∧ (plkP s n.val = 4) ∧ ((plk s n.val).onLine = none) ∧ ((plk s n.val).chosen.find? (fun t => decide (t.slot = k.val)) = some x) ∧ (plkStands s n.val x = false))))) ∧
    (∃ n : Fin 16, (∃ x : PlTx, (∃ s : State, (plk s n.val).onLine = some x))) ∧
    (∃ n : Nat, (∃ x : PlTx, (∃ s : State, plkGood s n x = true))) ∧
    (∃ n : Fin 16, (∃ b : Bool, (∃ s : State, plkC s n.val ≠ 2 ∨ plkP s n.val = 0 ∨ plkChanOn s n.val b = false))) ∧
    (∃ n : Fin 16, (∃ b : Bool, (∃ s : State, (plkC s n.val = 2) ∧ (plkP s n.val = 1) ∧ (plkChanOn s n.val b = true)))) ∧
    (∃ n : Fin 16, (∃ b : Bool, (∃ s : State, (plkC s n.val = 2) ∧ (2 ≤ plkP s n.val) ∧ (plkChanOn s n.val b = true)))) ∧
    (∃ n : Nat, (∃ b : Bool, (∃ ok : Bool, (∃ lt : Int, (∃ body : List Byte, (∃ s : State, (∃ o : Nat, (plkP s n = 4) ∧ ((plkJudge s n ok (5 * lt - 2 * (if b then getF s (PLK_DELTA n) 26 16 else getF s (PLK_DELTA n) 10 0)) body).1 = o) ∧ (o ≠ 0) ∧ (o ≠ 5)))))))) ∧
    (∃ n : Nat, (∃ b : Bool, (∃ lt : Int, (∃ body : List Byte, (∃ s : State, (∃ k : Nat, (∃ d : Int, (plkP s n = 4) ∧ (plkJudge s n true (5 * lt - 2 * (if b then getF s (PLK_DELTA n) 26 16 else getF s (PLK_DELTA n) 10 0)) body = (0, k, d)) ∧ ((plk s n).taken.find? (fun t => decide (t.slot = k)) = none)))))))) ∧
    (∃ n : Fin 16, (∃ k : Fin 64, (∃ s : State, (plkC s n.val = 2) ∧ (2 ≤ plkP s n.val) ∧ (k.val < plkN s n.val (plkMode s n.val)) ∧ (plkOwner s n.val (plkMode s n.val) k.val ≠ 0) ∧ (plkOwner s n.val (plkMode s n.val) k.val ≠ plkId s n.val)))) ∧
    (∃ n : Fin 16, (∃ k : Fin 64, (∃ s : State, (plkC s n.val = 2) ∧ (2 ≤ plkP s n.val) ∧ (k.val < plkN s n.val (plkMode s n.val)) ∧ (plkOwner s n.val (plkMode s n.val) k.val = 0 ∨ plkOwner s n.val (plkMode s n.val) k.val = plkId s n.val)))) ∧
    (∃ n : Fin 16, (∃ s : State, (plkC s n.val = 2) ∧ (plkP s n.val = 4) ∧ ((plk s n.val).inNit = false) ∧ ((plk s n.val).devs ≠ []) ∧ (plkRequested s n.val = false) ∧ ((plk s n.val).sawMember = false) ∧ (nodeBit s (PLK_SYNC_NODES_LO n.val) (plkId s n.val) = true))) ∧
    (∃ n : Fin 16, (∃ d : Nat, (∃ due : Nat, (∃ s : State, ((plk s n.val).timer = some (d, some due)) ∧ (plkC s n.val = 2) ∧ (plkP s n.val = 1))))) ∧
    (∃ n : Fin 16, (∃ d : Nat, (∃ due : Nat, (∃ s : State, ((plk s n.val).timer = some (d, some due)) ∧ (plkC s n.val = 2) ∧ (plkP s n.val = 1))))) ∧
    (∃ n : Fin 16, (∃ b : Bool, (∃ x : PlTx, (∃ s : State, ((plk s n.val).onLine = some x) ∧ (plkChanOn s n.val b = true) ∧ (Nat.land x.bad (if b then 2 else 1) = 0) ∧ (plkP s n.val ≠ 3))))) ∧
    (∃ n : Fin 16, (∃ b : Bool, (∃ x : PlTx, (∃ s : State, ((plk s n.val).onLine = some x) ∧ (plkChanOn s n.val b = true) ∧ (Nat.land x.bad (if b then 2 else 1) = 0) ∧ (plkP s n.val = 3))))) ∧
    (∃ n : Fin 16, (∃ k : Fin 64, (∃ s : State, (plkC s n.val = 2) ∧ (plkP s n.val = 3 ∨ plkP s n.val = 4) ∧ ((plk s n.val).gOk = true) ∧ (getF s (PLK_GUARD n.val (plkMode s n.val) k.val) 15 0 ≠ 0)))) ∧
    (∃ n : Fin 16, (∃ s : State, (plk s n.val).gOk = false)) ∧
    (∃ n : Fin 16, (∃ k : Fin 64, (∃ s : State, (plkC s n.val = 2) ∧ (getB s (plkCh n.val false) 3 = true ∨ getB s (plkCh n.val true) 3 = true) ∧ (getF s (PLK_GUARD n.val (plkMode s n.val) k.val) 15 0 ≠ 0) ∧ ((plk s n.val).onLine = none)))) ∧
    (∃ n : Fin 16, (∃ k : Fin 64, (∃ x : PlTx, (∃ s : State, (plkC s n.val = 2) ∧ (getB s (plkCh n.val false) 3 = true ∨ getB s (plkCh n.val true) 3 = true) ∧ (getF s (PLK_GUARD n.val (plkMode s n.val) k.val) 15 0 ≠ 0) ∧ ((plk s n.val).onLine = some x))))) ∧
    (∃ n : Fin 16, (∃ i : Fin 8, (∃ s : State, (plkC s n.val = 2) ∧ (2 ≤ plkP s n.val) ∧ (bit (getR s (PLK_CMP n.val i.val)) 31 = true) ∧ (bit (getR s (PLK_CMP n.val i.val)) 25 = true ∨ fld (getR s (PLK_CMP n.val i.val)) 23 22 = plkMode s n.val) ∧ (fld (getR s (PLK_CMP n.val i.val)) 21 16 < plkN s n.val (plkMode s n.val)) ∧ (plkStart s n.val (plkMode s n.val) (fld (getR s (PLK_CMP n.val i.val)) 21 16) + fld (getR s (PLK_CMP n.val i.val)) 15 0 < plkLen s n.val) ∧ ((plk s n.val).fired.contains i.val = false)))) :=
  ⟨⟨15, plkSt 15 2 4, by decide⟩,
    ⟨0, 0, plkActive, by decide⟩,
    ⟨0, 0, plkMod plkActive 0 fun p => { p with inNit := true }, by decide⟩,
    ⟨0, 0, plkNullTx, plkMod plkActive 0 fun p => { p with chosen := [plkNullTx] }, by decide⟩,
    ⟨0, 0, { plkNullTx with src := 0, gate := some 7 }, plkMod plkActive 0 fun p => { p with chosen := [{ plkNullTx with src := 0, gate := some 7 }] }, by decide⟩,
    ⟨0, plkNullTx, plkMod plkActive 0 fun p => { p with onLine := some plkNullTx }, by decide⟩,
    ⟨0, plkNullTx, plkActive, by decide⟩,
    ⟨15, true, live, by decide⟩,
    ⟨0, false, putF plkActive (PLK_STATUS 0) 6 4 1, by decide⟩,
    ⟨0, false, plkActive, by decide⟩,
    ⟨0, false, false, 0, [], plkActive, 1, by decide⟩,
    ⟨0, false, plkLt, plkGoodBody, plkActive, 1, 0, by decide⟩,
    ⟨0, 1, plkActive, by decide⟩,
    ⟨0, 0, plkActive, by decide⟩,
    ⟨0, plkMod plkActive 0 fun p => { p with devs := [0] }, by decide⟩,
    ⟨0, 5, 10, plkMod (putF plkActive (PLK_STATUS 0) 6 4 1) 0 fun p => { p with timer := some (5, some 10) }, by decide⟩,
    ⟨0, 5, 10, plkMod (putF plkActive (PLK_STATUS 0) 6 4 1) 0 fun p => { p with timer := some (5, some 10) }, by decide⟩,
    ⟨0, false, plkNullTx, plkMod plkActive 0 fun p => { p with onLine := some plkNullTx }, by decide⟩,
    ⟨0, false, plkNullTx, plkMod (putF plkActive (PLK_STATUS 0) 6 4 3) 0 fun p => { p with onLine := some plkNullTx }, by decide⟩,
    ⟨0, 0, plkActive, by decide⟩,
    ⟨0, plkMod plkActive 0 fun p => { p with gOk := false }, by decide⟩,
    ⟨0, 0, putB plkActive (PLK_CH_STATUS_A 0) 3 true, by decide⟩,
    ⟨0, 0, plkNullTx, plkMod (putB plkActive (PLK_CH_STATUS_A 0) 3 true) 0 fun p => { p with onLine := some plkNullTx }, by decide⟩,
    ⟨0, 7, setR plkActive (PLK_CMP 0 7) 0xE2000005, by decide⟩⟩

theorem test_meets_MultidropCommands :
    (∃ m : Master, (∃ n : Pe, (∃ s : State, (MayWrite s m (MDB_CMD n.val)) ∧ (mdbC s n.val = 0) ∧ (getB s (BLK_CTRL (MDB n.val)) 0 = true) ∧ (mdbTimingOk s n.val = true)))) ∧
    (∃ m : Master, (∃ n : Pe, (∃ s : State, (MayWrite s m (MDB_CMD n.val)) ∧ (mdbC s n.val = 0) ∧ (getB s (BLK_CTRL (MDB n.val)) 0 = true) ∧ (mdbTimingOk s n.val = false)))) ∧
    (∃ m : Master, (∃ n : Pe, (∃ s : State, (MayWrite s m (MDB_CMD n.val)) ∧ (mdbC s n.val ≠ 0 ∨ getB s (BLK_CTRL (MDB n.val)) 0 = false)))) ∧
    (∃ m : Master, (∃ n : Pe, (∃ s : State, (MayWrite s m (MDB_CMD n.val)) ∧ (mdbC s n.val ≠ 0)))) ∧
    (∃ c : Nat, c < 8) ∧
    (∃ m : Master, (∃ n : Pe, (∃ s : State, (MayWrite s m (MDB_CMD n.val)) ∧ (mdbC s n.val = 0)))) ∧
    (∃ m : Master, (∃ n : Pe, (∃ s : State, (MayWrite s m (MDB_CMD n.val)) ∧ (m ≠ mDebug)))) ∧
    (∃ n : Pe, (∃ s : State, MayWrite s mDebug (MDB_CMD n.val))) ∧
    (∃ m : Master, (∃ n : Pe, (∃ s : State, MayWrite s m (MDB_CMD n.val)))) ∧
    (∃ n : Pe, (∃ s : State, mdbC s n.val = 1)) ∧
    (∃ n : Pe, (∃ s : State, mdbC s n.val ≠ 1)) ∧
    (∃ n : Pe, (∃ s : State, mdbC s n.val = 4)) ∧
    (∃ n : Pe, (∃ md : Nat, (∃ s : State, ((mdb s n.val).modePend = some md) ∧ (mdbC s n.val = 2) ∧ (mdbOnBus s n.val = none)))) ∧
    (∃ n : Pe, (∃ s : State, (getB s (MDB_CFG n.val) 8 = true) ∧ (devState s = 1))) ∧
    (∃ s : State, devState s ≠ 1) ∧
    (∃ m : Master, (∃ n : Pe, (∃ s : State, MayRead s m (MDB_LAST_ERR n.val)))) :=
  ⟨⟨mSSP, 47, mdbUp 47 0, by decide⟩,
    ⟨mSSP, 47, setR (mdbUp 47 0) (MDB_ARB_TIMING 47) 0, by decide⟩,
    ⟨mSSP, 47, mdbUp 47 2, by decide⟩,
    ⟨mSSP, 47, mdbUp 47 2, by decide⟩,
    ⟨7, by decide⟩,
    ⟨mSSP, 47, live, by decide⟩,
    ⟨mSSP, 47, mdbUp 47 3, by decide⟩,
    ⟨47, debugOpen (mdbUp 47 3), by decide⟩,
    ⟨mSSP, 47, mdbUp 47 2, by decide⟩,
    ⟨47, mdbUp 47 1, by decide⟩,
    ⟨47, mdbUp 47 2, by decide⟩,
    ⟨47, mdbUp 47 4, by decide⟩,
    ⟨47, 1, mdbMod (mdbUp 47 2) 47 fun p => { p with modePend := some 1 }, by decide⟩,
    ⟨47, putF (putB live (MDB_CFG 47) 8 true) PWR_STATUS 1 0 1, by decide⟩,
    ⟨live, by decide⟩,
    ⟨mSSP, 47, live, by decide⟩⟩

theorem test_meets_MultidropFrames :
    (∃ n : Pe, (∃ g : GEnt, (∃ s : State, (getB s (BLK_CTRL (MDB n.val)) 0 = true) ∧ (mdbLoaded s n.val 0 = false) ∧ ((sget s.gate.entry (256 + n.val) []).find? (fun g => decide (g.loc = 0)) = some g) ∧ (crc32c g.bytes = g.check)))) ∧
    (∃ n : Pe, (∃ b : Fin 3, (∃ s : State, (getB s (BLK_CTRL (MDB n.val)) 0 = true) ∧ (b.val ≠ 0) ∧ (mdbLoaded s n.val b.val = false)))) ∧
    (∃ n : Pe, (∃ b : Fin 3, (∃ s : State, getB s (BLK_CTRL (MDB n.val)) 0 = false ∨ mdbLoaded s n.val b.val = true))) ∧
    (∃ n : Pe, (∃ b : Nat, (∃ s : State, (mdbC s n.val = 2) ∧ ((mdb s n.val).mode = 0 ∨ (mdb s n.val).mode = 3) ∧ ((mdb s n.val).integ = false) ∧ (mdbOnBus s n.val = none) ∧ ([0, 1, 2].foldl (mdbBetter s n.val) none = some b)))) ∧
    (∃ n : Pe, (∃ s : State, mdbC s n.val ≠ 2 ∨ (mdb s n.val).mode = 1 ∨ (mdb s n.val).mode = 2 ∨ (mdb s n.val).integ = true ∨ (mdbOnBus s n.val).isSome = true ∨ [0, 1, 2].foldl (mdbBetter s n.val) none = none)) ∧
    (∃ n : Pe, (∃ b : Nat, (∃ t : MdbBuf, (∃ s : State, (mdbOnBus s n.val = some b) ∧ (b ≠ 0) ∧ (mdbTb (mdb s n.val) b = some t) ∧ ((mdb s n.val).mode ≠ 3))))) ∧
    (∃ n : Pe, (∃ b : Nat, (∃ t : MdbBuf, (∃ s : State, (mdbOnBus s n.val = some b) ∧ (b ≠ 0) ∧ (mdbTb (mdb s n.val) b = some t) ∧ ((mdb s n.val).mode = 3))))) ∧
    (∃ n : Pe, (∃ g : GEnt, (∃ s : State, (mdbOnBus s n.val = some 0) ∧ (mdbGate s n.val = some g) ∧ ((mdb s n.val).mode ≠ 3)))) ∧
    (∃ n : Pe, (∃ why : MdbErr, (∃ b : Nat, (∃ s : State, (mdbOnBus s n.val = some b) ∧ (why ≠ .arbLost) ∧ (why ≠ .pex) ∧ ((mdb s n.val).tec + 8 ≤ 255))))) ∧
    (∃ n : Pe, (∃ why : MdbErr, (∃ b : Nat, (∃ s : State, (mdbOnBus s n.val = some b) ∧ (why ≠ .arbLost) ∧ (why ≠ .pex) ∧ (255 < (mdb s n.val).tec + 8))))) ∧
    (∃ n : Pe, (∃ why : MdbErr, (∃ b : Nat, (∃ s : State, (mdbOnBus s n.val = some b) ∧ (why ≠ .arbLost) ∧ (why ≠ .pex) ∧ ((mdb s n.val).tec ≤ 255))))) ∧
    (∃ n : Pe, (∃ b : Nat, (∃ s : State, (mdbOnBus s n.val = some b) ∧ ((mdb s n.val).tec ≤ 255)))) ∧
    (∃ n : Pe, (∃ b : Nat, (∃ s : State, (mdbOnBus s n.val = some b) ∧ ((mdb s n.val).tec ≤ 255) ∧ (getB s (MDB_CFG n.val) 4 = true)))) ∧
    (∃ n : Pe, (∃ b : Fin 3, (∃ t : MdbBuf, (∃ s : State, (b.val ≠ 0) ∧ (mdbTb (mdb s n.val) b.val = some t) ∧ (t.life ≠ 0))))) ∧
    (∃ n : Pe, (∃ r : List Byte, (∃ s : State, (mdbC s n.val = 2) ∧ ((mdb s n.val).mode = 0) ∧ ((mdb s n.val).integ = false) ∧ (mdbOnBus s n.val = none) ∧ (mdbFdf r = false ∨ getB s (MDB_CFG n.val) 3 = true) ∧ (mdbWellFormed true r = true) ∧ ((mdb s n.val).rec_ ≤ 127)))) ∧
    (∃ n : Pe, (∃ r : List Byte, (∃ s : State, (mdbC s n.val = 2) ∧ ((mdb s n.val).mode = 0) ∧ ((mdb s n.val).integ = false) ∧ (mdbOnBus s n.val = none) ∧ (mdbFdf r = false ∨ getB s (MDB_CFG n.val) 3 = true) ∧ (mdbWellFormed true r = true) ∧ (127 < (mdb s n.val).rec_)))) ∧
    (∃ n : Pe, (∃ r : List Byte, (∃ s : State, (mdbC s n.val = 2) ∧ ((mdb s n.val).mode = 1 ∨ (mdb s n.val).mode = 2) ∧ ((mdb s n.val).integ = false) ∧ (mdbOnBus s n.val = none) ∧ (mdbFdf r = false ∨ getB s (MDB_CFG n.val) 3 = true) ∧ (mdbWellFormed true r = true)))) ∧
    (∃ n : Pe, (∃ r : List Byte, (∃ e : MdbErr, (∃ s : State, (mdbC s n.val = 2) ∧ ((mdb s n.val).mode = 0) ∧ ((mdb s n.val).integ = false) ∧ (mdbOnBus s n.val = none) ∧ (mdbFdf r = false ∨ getB s (MDB_CFG n.val) 3 = true) ∧ (e ≠ .arbLost) ∧ (e ≠ .pex))))) ∧
    (∃ n : Pe, (∃ r : List Byte, (∃ e : MdbErr, (∃ s : State, (mdbC s n.val = 2) ∧ ((mdb s n.val).mode = 1 ∨ (mdb s n.val).mode = 2) ∧ ((mdb s n.val).integ = false) ∧ (mdbOnBus s n.val = none) ∧ (mdbFdf r = false ∨ getB s (MDB_CFG n.val) 3 = true) ∧ (e ≠ .arbLost) ∧ (e ≠ .pex))))) ∧
    (∃ n : Pe, (∃ r : List Byte, (∃ s : State, (mdbC s n.val = 2) ∧ ((mdb s n.val).mode ≠ 3) ∧ ((mdb s n.val).integ = false) ∧ (mdbOnBus s n.val = none) ∧ (mdbFdf r = true) ∧ (getB s (MDB_CFG n.val) 3 = false) ∧ (getB s (MDB_CFG n.val) 4 = true)))) ∧
    (∃ n : Pe, (∃ x : MdbRx, (∃ l : List MdbRx, (∃ s : State, ((mdb s n.val).fifo = x :: l) ∧ (getF s (MDB_RX_SIZE n.val) 12 0 ≠ 0) ∧ ((getF s (MDB_RX_HEAD n.val) 11 0 + 1) % getF s (MDB_RX_SIZE n.val) 12 0 ≠ getF s (MDB_RX_TAIL n.val) 11 0))))) :=
  ⟨⟨0, mdbGent, { mdbUp 0 2 with gate := { live.gate with entry := [(256, [mdbGent])] } }, by decide⟩,
    ⟨0, 2, mdbUp 0 2, by decide⟩,
    ⟨0, 0, live, by decide⟩,
    ⟨0, 1, mdbMod (mdbUp 0 2) 0 fun p => { p with tb1 := some (mdbBufWith false) }, by decide⟩,
    ⟨0, mdbUp 0 2, by decide⟩,
    ⟨0, 1, mdbBufWith true, mdbMod (mdbUp 0 2) 0 fun p => { p with tb1 := some (mdbBufWith true) }, by decide⟩,
    ⟨0, 1, mdbBufWith true, mdbMod (mdbUp 0 2) 0 fun p => { p with tb1 := some (mdbBufWith true), mode := 3 }, by decide⟩,
    ⟨0, { mdbGent with loc := 2 }, { mdbMod (mdbUp 0 2) 0 (fun p => { p with tb0 := some (mdbBufWith true) }) with gate := { live.gate with entry := [(256, [{ mdbGent with loc := 2 }])] } }, by decide⟩,
    ⟨0, .ack, 1, mdbMod (mdbUp 0 2) 0 fun p => { p with tb1 := some (mdbBufWith true) }, by decide⟩,
    ⟨0, .ack, 1, mdbMod (mdbUp 0 2) 0 fun p => { p with tb1 := some (mdbBufWith true), tec := 248 }, by decide⟩,
    ⟨0, .ack, 1, mdbMod (mdbUp 0 2) 0 fun p => { p with tb1 := some (mdbBufWith true) }, by decide⟩,
    ⟨0, 1, mdbMod (mdbUp 0 2) 0 fun p => { p with tb1 := some (mdbBufWith true) }, by decide⟩,
    ⟨0, 1, mdbMod (putB (mdbUp 0 2) (MDB_CFG 0) 4 true) 0 fun p => { p with tb1 := some (mdbBufWith true) }, by decide⟩,
    ⟨0, 1, { mdbBufWith false with life := 5 }, mdbMod (mdbUp 0 2) 0 fun p => { p with tb1 := some { mdbBufWith false with life := 5 } }, by decide⟩,
    ⟨0, List.replicate 8 0, mdbUp 0 2, by decide⟩,
    ⟨0, List.replicate 8 0, mdbMod (mdbUp 0 2) 0 fun p => { p with rec_ := 130 }, by decide⟩,
    ⟨0, List.replicate 8 0, mdbMod (mdbUp 0 2) 0 fun p => { p with mode := 2 }, by decide⟩,
    ⟨0, List.replicate 8 0, .stuff, mdbUp 0 2, by decide⟩,
    ⟨0, List.replicate 8 0, .stuff, mdbMod (mdbUp 0 2) 0 fun p => { p with mode := 1 }, by decide⟩,
    ⟨0, [0, 0, 0, 0, 0x80, 0, 0, 0], putB (putB (mdbUp 0 2) (MDB_CFG 0) 4 true) (MDB_CFG 0) 3 false, by decide⟩,
    ⟨0, ⟨List.replicate 8 0, 0, 64, 0⟩, [], mdbMod (setR (mdbUp 0 2) (MDB_RX_SIZE 0) 8) 0 fun p => { p with fifo := [⟨List.replicate 8 0, 0, 64, 0⟩] }, by decide⟩⟩

theorem test_meets_ParticleInstructions :
    (∃ n : Fin 64, (∃ w : Nat, (∃ inj : Bool, (∃ s : State, (ptcNext s n.val = some (w, inj)) ∧ (ptcBad w inj = false) ∧ (nbits w 15 12 = 0))))) ∧
    (∃ n : Fin 64, (∃ w : Nat, (∃ inj : Bool, (∃ s : State, (ptcNext s n.val = some (w, inj)) ∧ (ptcBad w inj = false) ∧ (nbits w 15 12 = 1) ∧ (nbits w 11 9 = 0))))) ∧
    (∃ n : Fin 64, (∃ w : Nat, (∃ inj : Bool, (∃ s : State, (ptcNext s n.val = some (w, inj)) ∧ (ptcBad w inj = false) ∧ (nbits w 15 12 = 1) ∧ (nbits w 11 9 = 1))))) ∧
    (∃ n : Fin 64, (∃ w : Nat, (∃ inj : Bool, (∃ s : State, (ptcNext s n.val = some (w, inj)) ∧ (ptcBad w inj = false) ∧ (nbits w 15 12 = 1) ∧ (nbits w 11 9 = 2))))) ∧
    (∃ n : Fin 64, (∃ w : Nat, (∃ inj : Bool, (∃ s : State, (ptcNext s n.val = some (w, inj)) ∧ (ptcBad w inj = false) ∧ (nbits w 15 12 = 1) ∧ (nbits w 11 9 = 4))))) ∧
    (∃ n : Fin 64, (∃ w : Nat, (∃ inj : Bool, (∃ s : State, (ptcNext s n.val = some (w, inj)) ∧ (ptcBad w inj = false) ∧ (nbits w 15 12 = 2))))) ∧
    (∃ n : Fin 64, (∃ w : Nat, (∃ inj : Bool, (∃ s : State, (ptcNext s n.val = some (w, inj)) ∧ (ptcBad w inj = false) ∧ (nbits w 15 12 = 3) ∧ (getB s (PTC_SHIFTER n.val) 20 = false ∨ ptcCount w ≤ ptcTsLim s n.val - (ptc s n.val).tsN))))) ∧
    (∃ n : Fin 64, (∃ w : Nat, (∃ inj : Bool, (∃ s : State, (ptcNext s n.val = some (w, inj)) ∧ (ptcBad w inj = false) ∧ (nbits w 15 12 = 3) ∧ (getB s (PTC_SHIFTER n.val) 20 = true) ∧ (ptcUsed s n.val = true) ∧ (ptcWords s n.val = 0))))) ∧
    (∃ n : Fin 64, (∃ w : Nat, (∃ inj : Bool, (∃ s : State, (ptcNext s n.val = some (w, inj)) ∧ (ptcBad w inj = false) ∧ (nbits w 15 12 = 4) ∧ (getB s (PTC_SHIFTER n.val) 8 = false ∨ ptcWidth s n.val ≤ (ptc s n.val).rsN ∨ (ptc s n.val).rsN + ptcCount w < ptcWidth s n.val))))) ∧
    (∃ n : Fin 64, (∃ w : Nat, (∃ inj : Bool, (∃ s : State, (ptcNext s n.val = some (w, inj)) ∧ (ptcBad w inj = false) ∧ (nbits w 15 12 = 5) ∧ (w.testBit 7 = true) ∧ ((ptc s n.val).rsN < ptcLim (getF s (PTC_SHIFTER n.val) 17 12)))))) ∧
    (∃ n : Fin 64, (∃ w : Nat, (∃ inj : Bool, (∃ t : State, (∃ s : State, (ptcNext s n.val = some (w, inj)) ∧ (ptcBad w inj = false) ∧ (nbits w 15 12 = 5) ∧ (w.testBit 7 = false ∨ ptcLim (getF s (PTC_SHIFTER n.val) 17 12) ≤ (ptc s n.val).rsN) ∧ (ptcDeliver (if inj then ptcMod (ptcTurn s n.val) n.val fun q => { q with inj := none } else ptcTurn s n.val) n.val (if w.testBit 10 then 16 else 8) (w.testBit 9) = some t)))))) ∧
    (∃ n : Fin 64, (∃ w : Nat, (∃ inj : Bool, (∃ s : State, (ptcNext s n.val = some (w, inj)) ∧ (ptcBad w inj = false) ∧ (nbits w 15 12 = 5) ∧ (w.testBit 7 = false ∨ ptcLim (getF s (PTC_SHIFTER n.val) 17 12) ≤ (ptc s n.val).rsN) ∧ (ptcDeliver (if inj then ptcMod (ptcTurn s n.val) n.val fun q => { q with inj := none } else ptcTurn s n.val) n.val (if w.testBit 10 then 16 else 8) (w.testBit 9) = none) ∧ (w.testBit 8 = true))))) ∧
    (∃ n : Fin 64, (∃ w : Nat, (∃ inj : Bool, (∃ s : State, (ptcNext s n.val = some (w, inj)) ∧ (ptcBad w inj = false) ∧ (nbits w 15 12 = 5) ∧ (w.testBit 7 = false ∨ ptcLim (getF s (PTC_SHIFTER n.val) 17 12) ≤ (ptc s n.val).rsN) ∧ (ptcDeliver (if inj then ptcMod (ptcTurn s n.val) n.val fun q => { q with inj := none } else ptcTurn s n.val) n.val (if w.testBit 10 then 16 else 8) (w.testBit 9) = none) ∧ (w.testBit 8 = false))))) ∧
    (∃ n : Fin 64, (∃ w : Nat, (∃ inj : Bool, (∃ s : State, (ptcNext s n.val = some (w, inj)) ∧ (ptcBad w inj = false) ∧ (nbits w 15 12 = 6) ∧ (w.testBit 11 = true) ∧ (ptcUsed s n.val = false))))) ∧
    (∃ n : Fin 64, (∃ w : Nat, (∃ inj : Bool, (∃ t : State, (∃ s : State, (ptcNext s n.val = some (w, inj)) ∧ (ptcBad w inj = false) ∧ (nbits w 15 12 = 6) ∧ (w.testBit 11 = false ∨ ptcUsed s n.val = true) ∧ (ptcLoadTs (if inj then ptcMod (ptcTurn s n.val) n.val fun q => { q with inj := none } else ptcTurn s n.val) n.val = some t)))))) ∧
    (∃ n : Fin 64, (∃ w : Nat, (∃ inj : Bool, (∃ s : State, (ptcNext s n.val = some (w, inj)) ∧ (ptcBad w inj = false) ∧ (nbits w 15 12 = 6) ∧ (w.testBit 11 = false ∨ ptcUsed s n.val = true) ∧ (ptcWords s n.val = 0) ∧ (w.testBit 10 = true))))) ∧
    (∃ n : Fin 64, (∃ w : Nat, (∃ inj : Bool, (∃ s : State, (ptcNext s n.val = some (w, inj)) ∧ (ptcBad w inj = false) ∧ (nbits w 15 12 = 6) ∧ (w.testBit 11 = false ∨ ptcUsed s n.val = true) ∧ (ptcWords s n.val = 0) ∧ (w.testBit 10 = false))))) ∧
    (∃ n : Fin 64, (∃ pads : BitVec 128, (∃ w : Nat, (∃ inj : Bool, (∃ s : State, (ptcNext s n.val = some (w, inj)) ∧ (ptcBad w inj = false) ∧ (nbits w 15 12 = 7) ∧ (nbits w 10 9 = 0) ∧ (ptcPin s n.val pads.toNat (getF s (PTC_PIN_MAP n.val) 22 16 + nbits w 8 4) = w.testBit 11)))))) ∧
    (∃ n : Fin 64, (∃ pads : BitVec 128, (∃ w : Nat, (∃ inj : Bool, (∃ s : State, (ptcNext s n.val = some (w, inj)) ∧ (ptcBad w inj = false) ∧ (nbits w 15 12 = 7) ∧ (nbits w 10 9 = 0) ∧ (ptcPin s n.val pads.toNat (getF s (PTC_PIN_MAP n.val) 22 16 + nbits w 8 4) ≠ w.testBit 11)))))) ∧
    (∃ n : Fin 64, (∃ w : Nat, (∃ inj : Bool, (∃ s : State, (ptcNext s n.val = some (w, inj)) ∧ (ptcBad w inj = false) ∧ (nbits w 15 12 = 7) ∧ (nbits w 10 9 = 1))))) ∧
    (∃ n : Fin 64, (∃ w : Nat, (∃ inj : Bool, (∃ s : State, (ptcNext s n.val = some (w, inj)) ∧ (ptcBad w inj = false) ∧ (nbits w 15 12 = 7) ∧ (nbits w 10 9 = 2))))) ∧
    (∃ n : Fin 64, (∃ w : Nat, (∃ inj : Bool, (∃ s : State, (ptcNext s n.val = some (w, inj)) ∧ (ptcBad w inj = false) ∧ (nbits w 15 12 = 8) ∧ (nbits w 11 10 = 0))))) ∧
    (∃ n : Fin 64, (∃ w : Nat, (∃ inj : Bool, (∃ k : PtcPkt, (∃ r : List PtcPkt, (∃ s : State, (ptcNext s n.val = some (w, inj)) ∧ (ptcBad w inj = false) ∧ (nbits w 15 12 = 8) ∧ (nbits w 11 10 = 1) ∧ ((ptc s n.val).pkts = k :: r))))))) ∧
    (∃ n : Fin 64, (∃ w : Nat, (∃ inj : Bool, (∃ s : State, (ptcNext s n.val = some (w, inj)) ∧ (ptcBad w inj = false) ∧ (nbits w 15 12 = 8) ∧ (nbits w 11 10 = 1) ∧ ((ptc s n.val).pkts = []))))) ∧
    (∃ n : Fin 64, (∃ w : Nat, (∃ inj : Bool, (∃ s : State, (ptcNext s n.val = some (w, inj)) ∧ (ptcBad w inj = false) ∧ (nbits w 15 12 = 8) ∧ (nbits w 11 10 = 2))))) ∧
    (∃ n : Fin 64, (∃ w : Nat, (∃ inj : Bool, (∃ s : State, (ptcNext s n.val = some (w, inj)) ∧ (ptcBad w inj = false) ∧ (nbits w 15 12 = 9) ∧ (nbits w 11 9 = 0))))) ∧
    (∃ n : Fin 64, (∃ w : Nat, (∃ inj : Bool, (∃ s : State, (ptcNext s n.val = some (w, inj)) ∧ (ptcBad w inj = false) ∧ (nbits w 15 12 = 9) ∧ (nbits w 11 9 = 3))))) ∧
    (∃ n : Fin 64, (∃ w : Nat, (∃ inj : Bool, (∃ s : State, (ptcNext s n.val = some (w, inj)) ∧ (ptcBad w inj = false) ∧ (nbits w 15 12 = 9) ∧ (nbits w 11 9 = 4))))) ∧
    (∃ n : Fin 64, (∃ w : Nat, (∃ inj : Bool, (∃ s : State, (ptcNext s n.val = some (w, inj)) ∧ (ptcBad w inj = false) ∧ (nbits w 15 12 = 9) ∧ (nbits w 11 9 = 5))))) ∧
    (∃ n : Fin 64, (∃ w : Nat, (∃ inj : Bool, (∃ s : State, (ptcNext s n.val = some (w, inj)) ∧ (ptcBad w inj = false) ∧ (nbits w 15 12 = 9) ∧ (nbits w 11 9 = 6))))) ∧
    (∃ n : Fin 64, (∃ w : Nat, (∃ inj : Bool, (∃ s : State, (ptcNext s n.val = some (w, inj)) ∧ (ptcBad w inj = false) ∧ (nbits w 15 12 = 9) ∧ (nbits w 11 9 = 7))))) ∧
    (∃ n : Fin 64, (∃ w : Nat, (∃ inj : Bool, (∃ s : State, (ptcNext s n.val = some (w, inj)) ∧ (ptcBad w inj = false) ∧ (nbits w 15 12 = 9) ∧ (nbits w 11 9 = 1))))) ∧
    (∃ n : Fin 64, (∃ w : Nat, (∃ inj : Bool, (∃ s : State, (ptcNext s n.val = some (w, inj)) ∧ (ptcBad w inj = false) ∧ (nbits w 15 12 = 9) ∧ (nbits w 11 9 = 2))))) ∧
    (∃ n : Fin 64, (∃ w : Nat, (∃ inj : Bool, (∃ s : State, (ptcNext s n.val = some (w, inj)) ∧ (ptcBad w inj = true))))) :=
  ⟨⟨63, 0x0, false, ptcUp 0x0, by decide⟩,
    ⟨63, 0x11f0, false, ptcUp 0x11f0, by decide⟩,
    ⟨63, 0x13f0, false, ptcUp 0x13f0, by decide⟩,
    ⟨63, 0x15f0, false, ptcUp 0x15f0, by decide⟩,
    ⟨63, 0x19f0, false, ptcUp 0x19f0, by decide⟩,
    ⟨63, 0x2210, false, ptcUp 0x2210, by decide⟩,
    ⟨63, 0x3050, false, ptcUp 0x3050, by decide⟩,
    ⟨63, 0x3050, false, putB (ptcMod (ptcUp 0x3050) 63 fun q => { q with tsN := 32 }) (PTC_SHIFTER 63) 20 true, by decide⟩,
    ⟨63, 0x4050, false, ptcUp 0x4050, by decide⟩,
    ⟨63, 0x5080, false, ptcUp 0x5080, by decide⟩,
    ⟨63, 0x5000, false, (ptcDeliver (ptcUp 0x5000) 63 8 false).getD live, ptcUp 0x5000, by decide⟩,
    ⟨63, 0x5100, false, fullFifo (ptcUp 0x5100), by decide⟩,
    ⟨63, 0x5000, false, fullFifo (ptcUp 0x5000), by decide⟩,
    ⟨63, 0x6800, false, ptcUp 0x6800, by decide⟩,
    ⟨63, 0x6000, false, (ptcLoadTs (ptcMod (ptcUp 0x6000) 63 fun q => { q with pkts := [ptcPkt2] }) 63).getD live, ptcMod (ptcUp 0x6000) 63 fun q => { q with pkts := [ptcPkt2] }, by decide⟩,
    ⟨63, 0x6400, false, ptcUp 0x6400, by decide⟩,
    ⟨63, 0x6000, false, ptcUp 0x6000, by decide⟩,
    ⟨63, 7, 0x7010, false, ptcUp 0x7010, by decide⟩,
    ⟨63, 7, 0x7810, false, ptcUp 0x7810, by decide⟩,
    ⟨63, 0x7a00, false, ptcUp 0x7a00, by decide⟩,
    ⟨63, 0x7c00, false, ptcUp 0x7c00, by decide⟩,
    ⟨63, 0x8200, false, ptcUp 0x8200, by decide⟩,
    ⟨63, 0x8400, false, ptcPkt2, [], ptcMod (ptcUp 0x8400) 63 fun q => { q with pkts := [ptcPkt2] }, by decide⟩,
    ⟨63, 0x8400, false, ptcUp 0x8400, by decide⟩,
    ⟨63, 0x8800, false, ptcUp 0x8800, by decide⟩,
    ⟨63, 0x9050, false, ptcUp 0x9050, by decide⟩,
    ⟨63, 0x9650, false, ptcUp 0x9650, by decide⟩,
    ⟨63, 0x9850, false, ptcUp 0x9850, by decide⟩,
    ⟨63, 0x9a50, false, ptcUp 0x9a50, by decide⟩,
    ⟨63, 0x9c50, false, ptcUp 0x9c50, by decide⟩,
    ⟨63, 0x9e50, false, ptcUp 0x9e50, by decide⟩,
    ⟨63, 0x9250, false, ptcUp 0x9250, by decide⟩,
    ⟨63, 0x9450, false, ptcUp 0x9450, by decide⟩,
    ⟨63, 0xF000, false, ptcUp 0xF000, by decide⟩⟩

theorem test_meets_ParticleControl :
    (∃ n : Fin 64, (∃ st : PtcStall, (∃ s : State, ((ptc s n.val).stall = some st) ∧ (ptcRuns s n.val = true)))) ∧
    (∃ n : Fin 64, (∃ s : State, (ptc s n.val).stall = none)) ∧
    (∃ n : Fin 64, (∃ step : Bool, (∃ late : Bool, (∃ inj : Bool, (∃ w : Nat, (∃ s : State, ((ptc s n.val).armed = some (step, late)) ∧ (ptcRuns s n.val = true) ∧ (ptcNext (ptcFired s n.val step late) n.val = some (w, inj)))))))) ∧
    (∃ n : Fin 64, (∃ s : State, (ptc s n.val).armed = none ∨ ptcRuns s n.val = false)) ∧
    (∃ n : Fin 64, (∃ g : GEnt, (∃ r : List GEnt, (∃ s : State, (ptcEn s n.val = true) ∧ (sget s.gate.entry (384 + n.val) [] = g :: r) ∧ (ptcWaits s n.val g.bytes = false) ∧ (crc32c g.bytes = g.check))))) ∧
    (∃ n : Fin 64, (∃ g : GEnt, (∃ r : List GEnt, (∃ s : State, (ptcEn s n.val = true) ∧ (sget s.gate.entry (384 + n.val) [] = g :: r) ∧ (ptcWaits s n.val g.bytes = false) ∧ (crc32c g.bytes ≠ g.check))))) ∧
    (∃ n : Fin 64, (∃ s : State, ptcEn s n.val = false)) ∧
    (∃ n : Fin 64, (∃ s : State, (sget s.gate.entry (384 + n.val) [] = []) ∧ (getF s (PTC_TX_TAIL n.val) 11 0 = getF s (PTC_TX_HEAD n.val) 11 0))) ∧
    (∃ m : Master, (∃ n : Fin 64, (∃ i : Fin 32, (∃ s : State, (MayWrite s m (PTC_PROG n.val i.val)) ∧ (m = mSSP ∨ getB s (PTC_GUARDED n.val) 0 = false))))) ∧
    (∃ m : Master, (∃ n : Fin 64, (∃ i : Fin 32, (∃ v : Word, (∃ s : State, (MayWrite s m (PTC_PROG n.val i.val)) ∧ (m ≠ mSSP) ∧ (getB s (PTC_GUARDED n.val) 0 = true) ∧ (differ (getR s (PTC n.val + (0x100 + 4 * i.val))) v (regDesc .PTC n.val (0x100 + 4 * i.val)).rw = true)))))) ∧
    (∃ m : Master, (∃ n : Fin 64, (∃ s : State, (MayWrite s m (PTC_INJECT n.val)) ∧ (m = mSSP ∨ getB s (PTC_GUARDED n.val) 0 = false)))) ∧
    (∃ m : Master, (∃ n : Fin 64, (∃ s : State, (MayWrite s m (PTC_INJECT n.val)) ∧ (m ≠ mSSP) ∧ (getB s (PTC_GUARDED n.val) 0 = true)))) ∧
    (∃ m : Master, (∃ n : Fin 64, (∃ v : Word, (∃ s : State, (MayWrite s m (PTC_CTRL n.val)) ∧ (m = mSSP ∨ getB s (PTC_GUARDED n.val) 0 = false) ∧ (bit v 29 = false))))) ∧
    (∃ m : Master, (∃ n : Fin 64, (∃ v : Word, (∃ s : State, (MayWrite s m (PTC_CTRL n.val)) ∧ (m = mSSP ∨ getB s (PTC_GUARDED n.val) 0 = false) ∧ ((ptc s n.val).ran = true) ∧ (bit v 29 = false))))) ∧
    (∃ m : Master, (∃ n : Fin 64, (∃ v : Word, (∃ s : State, (MayWrite s m (PTC_CTRL n.val)) ∧ (m = mSSP ∨ getB s (PTC_GUARDED n.val) 0 = false) ∧ (bit v 30 = false))))) ∧
    (∃ m : Master, (∃ n : Fin 64, (∃ s : State, (MayWrite s m (PTC_CTRL n.val)) ∧ (m ≠ mSSP) ∧ (getB s (PTC_GUARDED n.val) 0 = true)))) ∧
    (∃ m : Master, (∃ n : Fin 64, (∃ s : State, (MayWrite s m (PTC_CTRL n.val)) ∧ (m = mSSP ∨ getB s (PTC_GUARDED n.val) 0 = false)))) ∧
    (∃ m : Master, (∃ n : Fin 64, (∃ k : Fin 4, (∃ v : Word, (∃ s : State, (MayWrite s m (PTC_OWN n.val k.val)) ∧ (m = mSSP ∨ getB s (PTC_GUARDED n.val) 0 = false) ∧ (getB s (PTC_CTRL n.val) 0 = false) ∧ (∀ j < 32, (bit v j && ptcTaken s n.val (32 * k.val + j)) = false)))))) ∧
    (∃ m : Master, (∃ n : Fin 64, (∃ k : Fin 4, (∃ v : Word, (∃ s : State, (MayWrite s m (PTC_OWN n.val k.val)) ∧ (m = mSSP ∨ getB s (PTC_GUARDED n.val) 0 = false) ∧ (getB s (PTC_CTRL n.val) 0 = true) ∧ (getR s (PTC_OWN n.val k.val) ≠ v)))))) :=
  ⟨⟨63, ptcFresh 0x7010 false 0, ptcMod (ptcUp 0x7010) 63 fun q => { q with stall := some (ptcFresh 0x7010 false 0) }, by decide⟩,
    ⟨63, live, by decide⟩,
    ⟨63, true, true, false, 0x7010, ptcMod (ptcUp 0x7010) 63 fun q => { q with armed := some (true, true) }, by decide⟩,
    ⟨63, live, by decide⟩,
    ⟨63, ptcGent, [], { ptcUp 0 with gate := { live.gate with entry := [(447, [ptcGent])] } }, by decide⟩,
    ⟨63, { ptcGent with check := 0 }, [], { ptcUp 0 with gate := { live.gate with entry := [(447, [{ ptcGent with check := 0 }])] } }, by decide⟩,
    ⟨63, live, by decide⟩,
    ⟨63, ptcUp 0, by decide⟩,
    ⟨mSSP, 63, 31, live, by decide⟩,
    ⟨mMGP, 63, 31, 0x9050, setR (live) (PTC_GUARDED 63) 1, by decide⟩,
    ⟨mSSP, 63, live, by decide⟩,
    ⟨mMGP, 63, setR (live) (PTC_GUARDED 63) 1, by decide⟩,
    ⟨mSSP, 63, 0x00050001, live, by decide⟩,
    ⟨mSSP, 63, 0x00050001, ptcMod live 63 fun q => { q with ran := true }, by decide⟩,
    ⟨mSSP, 63, 0x00000501, live, by decide⟩,
    ⟨mMGP, 63, setR (live) (PTC_GUARDED 63) 1, by decide⟩,
    ⟨mSSP, 63, live, by decide⟩,
    ⟨mSSP, 63, 3, 0xFFFFFFFF, live, by decide⟩,
    ⟨mSSP, 63, 3, 0xFFFFFFFF, ptcUp 0, by decide⟩⟩

theorem test_meets_EngineDma :
    (∃ n : Pe, (∃ c : DmaCmd, (∃ r : List DmaCmd, (∃ s : State, ((eng s n.val).dmaQ = c :: r) ∧ (engAlive s n.val = true) ∧ ((eng s n.val).dmaCpl.length < 8) ∧ (fld c.w0 31 28 = 1) ∧ (dmaMayRun s 1 = true) ∧ (dmaHead s n.val = none))))) ∧
    (∃ n : Pe, (∃ c : DmaCmd, (∃ r : List DmaCmd, (∃ e : SinkEnt, (∃ f : Frame, (∃ s : State, ((eng s n.val).dmaQ = c :: r) ∧ (engAlive s n.val = true) ∧ ((eng s n.val).dmaCpl.length < 8) ∧ (fld c.w0 31 28 = 1) ∧ (dmaMayRun s 1 = true) ∧ (dmaHead s n.val = some (e, f)) ∧ (fld c.w0 15 0 < (headBytes s f ++ delivered s (engPort n.val) f).length))))))) ∧
    (∃ n : Pe, (∃ c : DmaCmd, (∃ r : List DmaCmd, (∃ e : SinkEnt, (∃ f : Frame, (∃ s : State, ((eng s n.val).dmaQ = c :: r) ∧ (engAlive s n.val = true) ∧ ((eng s n.val).dmaCpl.length < 8) ∧ (fld c.w0 31 28 = 1) ∧ (dmaMayRun s 1 = true) ∧ (dmaHead s n.val = some (e, f)) ∧ ((headBytes s f ++ delivered s (engPort n.val) f).length ≤ fld c.w0 15 0) ∧ (exitFault f e.rf = none) ∧ (inDtcm c.w1.toNat (headBytes s f ++ delivered s (engPort n.val) f).length = true))))))) ∧
    (∃ n : Pe, (∃ c : DmaCmd, (∃ r : List DmaCmd, (∃ e : SinkEnt, (∃ f : Frame, (∃ s : State, ((eng s n.val).dmaQ = c :: r) ∧ (engAlive s n.val = true) ∧ ((eng s n.val).dmaCpl.length < 8) ∧ (fld c.w0 31 28 = 1) ∧ (dmaMayRun s 1 = true) ∧ (dmaHead s n.val = some (e, f)) ∧ ((headBytes s f ++ delivered s (engPort n.val) f).length ≤ fld c.w0 15 0) ∧ (exitFault f e.rf = none) ∧ (inDtcm c.w1.toNat (headBytes s f ++ delivered s (engPort n.val) f).length = false))))))) ∧
    (∃ n : Pe, (∃ c : DmaCmd, (∃ r : List DmaCmd, (∃ e : SinkEnt, (∃ f : Frame, (∃ q : Nat, (∃ s : State, ((eng s n.val).dmaQ = c :: r) ∧ (engAlive s n.val = true) ∧ ((eng s n.val).dmaCpl.length < 8) ∧ (fld c.w0 31 28 = 1) ∧ (dmaMayRun s 1 = true) ∧ (dmaHead s n.val = some (e, f)) ∧ ((headBytes s f ++ delivered s (engPort n.val) f).length ≤ fld c.w0 15 0) ∧ (exitFault f e.rf = some q)))))))) ∧
    (∃ n : Pe, (∃ c : DmaCmd, (∃ r : List DmaCmd, (∃ s : State, ((eng s n.val).dmaQ = c :: r) ∧ (engAlive s n.val = true) ∧ ((eng s n.val).dmaCpl.length < 8) ∧ (fld c.w0 31 28 = 2) ∧ (dmaMayRun s 2 = true))))) ∧
    (∃ n : Pe, (∃ c : DmaCmd, (∃ r : List DmaCmd, (∃ s : State, ((eng s n.val).dmaQ = c :: r) ∧ (engAlive s n.val = true) ∧ ((eng s n.val).dmaCpl.length < 8) ∧ (fld c.w0 31 28 = 3) ∧ (dmaMayRun s 3 = true) ∧ (fld c.w0 27 24 = 0) ∧ ((fabRead s (engMaster n.val) c.w2.toNat (fld c.w0 15 0) (dmaReach s n.val c.w2.toNat (fld c.w0 15 0) false)).2.1 = .ok))))) ∧
    (∃ n : Pe, (∃ c : DmaCmd, (∃ r : List DmaCmd, (∃ q : FabStat, (∃ s : State, ((eng s n.val).dmaQ = c :: r) ∧ (engAlive s n.val = true) ∧ ((eng s n.val).dmaCpl.length < 8) ∧ (fld c.w0 31 28 = 3) ∧ (dmaMayRun s 3 = true) ∧ (fld c.w0 27 24 = 0) ∧ ((fabRead s (engMaster n.val) c.w2.toNat (fld c.w0 15 0) (dmaReach s n.val c.w2.toNat (fld c.w0 15 0) false)).2.1 = q) ∧ (q ≠ .ok)))))) ∧
    (∃ n : Pe, (∃ c : DmaCmd, (∃ r : List DmaCmd, (∃ s : State, ((eng s n.val).dmaQ = c :: r) ∧ (engAlive s n.val = true) ∧ ((eng s n.val).dmaCpl.length < 8) ∧ (fld c.w0 31 28 = 3) ∧ (dmaMayRun s 3 = true) ∧ (fld c.w0 27 24 ≠ 0) ∧ (ringChan s n.val c.w2.toNat = none))))) ∧
    (∃ n : Pe, (∃ c : DmaCmd, (∃ r : List DmaCmd, (∃ ch : Nat, (∃ x : State, (∃ y : State, (∃ q : FabStat, (∃ u : List Byte, (∃ v : List Byte, (∃ s : State, ((eng s n.val).dmaQ = c :: r) ∧ (engAlive s n.val = true) ∧ ((eng s n.val).dmaCpl.length < 8) ∧ (fld c.w0 31 28 = 3) ∧ (dmaMayRun s 3 = true) ∧ (fld c.w0 27 24 ≠ 0) ∧ (ringChan s n.val c.w2.toNat = some ch) ∧ (fabRead s (engMaster n.val) c.w2.toNat 24 true = (x, q, u)) ∧ (fabRead x (engMaster n.val) c.w2.toNat (recordLen ch u) (dmaReach s n.val c.w2.toNat (recordLen ch u) false) = (y, .ok, v)) ∧ ((crc32c (v.take 12 ++ v.drop 16)).toNat = leAt v 12 4) ∧ (inDtcm c.w1.toNat (recordLen ch u) = true))))))))))) ∧
    (∃ n : Pe, (∃ c : DmaCmd, (∃ r : List DmaCmd, (∃ ch : Nat, (∃ x : State, (∃ y : State, (∃ q : FabStat, (∃ u : List Byte, (∃ v : List Byte, (∃ s : State, ((eng s n.val).dmaQ = c :: r) ∧ (engAlive s n.val = true) ∧ ((eng s n.val).dmaCpl.length < 8) ∧ (fld c.w0 31 28 = 3) ∧ (dmaMayRun s 3 = true) ∧ (fld c.w0 27 24 ≠ 0) ∧ (ringChan s n.val c.w2.toNat = some ch) ∧ (fabRead s (engMaster n.val) c.w2.toNat 24 true = (x, q, u)) ∧ (fabRead x (engMaster n.val) c.w2.toNat (recordLen ch u) (dmaReach s n.val c.w2.toNat (recordLen ch u) false) = (y, .ok, v)) ∧ ((crc32c (v.take 12 ++ v.drop 16)).toNat ≠ leAt v 12 4))))))))))) ∧
    (∃ n : Pe, (∃ c : DmaCmd, (∃ r : List DmaCmd, (∃ s : State, ((eng s n.val).dmaQ = c :: r) ∧ (engAlive s n.val = true) ∧ ((eng s n.val).dmaCpl.length < 8) ∧ (fld c.w0 31 28 = 4) ∧ (dmaMayRun s 4 = true) ∧ (fld c.w0 27 24 = 0))))) ∧
    (∃ n : Pe, (∃ c : DmaCmd, (∃ r : List DmaCmd, (∃ s : State, ((eng s n.val).dmaQ = c :: r) ∧ (engAlive s n.val = true) ∧ ((eng s n.val).dmaCpl.length < 8) ∧ (fld c.w0 31 28 = 4) ∧ (dmaMayRun s 4 = true) ∧ (fld c.w0 27 24 ≠ 0))))) ∧
    (∃ n : Pe, (∃ s : State, ∀ c ∈ (eng s n.val).dmaQ.head?, engAlive s n.val = false ∨ 8 ≤ (eng s n.val).dmaCpl.length ∨ fld c.w0 31 28 ≠ 1 ∨ dmaMayRun s 1 = false)) ∧
    (∃ n : Pe, (∃ s : State, ∀ c ∈ (eng s n.val).dmaQ.head?, engAlive s n.val = false ∨ 8 ≤ (eng s n.val).dmaCpl.length ∨ fld c.w0 31 28 ≠ 2 ∨ dmaMayRun s 2 = false)) ∧
    (∃ n : Pe, (∃ s : State, ∀ c ∈ (eng s n.val).dmaQ.head?, engAlive s n.val = false ∨ 8 ≤ (eng s n.val).dmaCpl.length ∨ fld c.w0 31 28 ≠ 3 ∨ dmaMayRun s 3 = false)) ∧
    (∃ n : Pe, (∃ s : State, ∀ c ∈ (eng s n.val).dmaQ.head?, engAlive s n.val = false ∨ 8 ≤ (eng s n.val).dmaCpl.length ∨ fld c.w0 31 28 ≠ 4 ∨ dmaMayRun s 4 = false)) ∧
    (∃ n : Pe, (∃ s : State, (eng s n.val).dmaCpl = [])) ∧
    (∃ n : Pe, (∃ g : Nat, (∃ k : Nat, (∃ r : List (Nat × Nat), (∃ s : State, (eng s n.val).dmaCpl = (g, k) :: r))))) :=
  ⟨⟨47, dmaCmdOf 0x10000100 0x10000 0 0, [], dmaUp (dmaCmdOf 0x10000100 0x10000 0 0), by decide⟩,
    ⟨5, dmaCmdOf 0x10000040 0x10000 0 0, [], sinkEnt, engFrame, dmaSink (dmaCmdOf 0x10000040 0x10000 0 0), by decide⟩,
    ⟨5, dmaCmdOf 0x10000100 0x10000 0 0, [], sinkEnt, engFrame, dmaSink (dmaCmdOf 0x10000100 0x10000 0 0), by decide⟩,
    ⟨5, dmaCmdOf 0x10000100 0x2FFFF 0 0, [], sinkEnt, engFrame, dmaSink (dmaCmdOf 0x10000100 0x2FFFF 0 0), by decide⟩,
    ⟨5, dmaCmdOf 0x10000100 0x10000 0 0, [], { sinkEnt with rf := .poison }, engFrame, dropPoison, { dmaSink (dmaCmdOf 0x10000100 0x10000 0 0) with sw := { (dmaSink (dmaCmdOf 0x10000100 0x10000 0 0)).sw with sink := [{ sinkEnt with rf := .poison }] } }, by decide⟩,
    ⟨47, dmaCmdOf 0x2000003C 0x10000 0 0, [], dmaUp (dmaCmdOf 0x2000003C 0x10000 0 0), by decide⟩,
    ⟨5, dmaCmdOf 0x30000010 0x10000 0x04000000 0, [], setR (dmaUp (dmaCmdOf 0x30000010 0x10000 0x04000000 0)) (BNK_BANK_CTRL 0) 0x02050000, by decide⟩,
    ⟨5, dmaCmdOf 0x30000010 0x10000 0x04000000 0, [], (fabRead (dmaUp (dmaCmdOf 0x30000010 0x10000 0x04000000 0)) (engMaster 5) 0x04000000 16 false).2.1, dmaUp (dmaCmdOf 0x30000010 0x10000 0x04000000 0), by decide⟩,
    ⟨47, dmaCmdOf 0x31000010 0x10000 0x04000000 0, [], dmaUp (dmaCmdOf 0x31000010 0x10000 0x04000000 0), by decide⟩,
    ⟨5, dmaCmdOf 0x31000010 0x10000 0x04000000 0, [], 256, (fabRead (dmaRing (leBytes 4 (crc32c (List.replicate 20 0)).toNat)) 13 0x04000000 24 true).1, (fabRead (dmaRing (leBytes 4 (crc32c (List.replicate 20 0)).toNat)) 13 0x04000000 24 true).1, .ok, (fabRead (dmaRing (leBytes 4 (crc32c (List.replicate 20 0)).toNat)) 13 0x04000000 24 true).2.2, (fabRead (dmaRing (leBytes 4 (crc32c (List.replicate 20 0)).toNat)) 13 0x04000000 24 true).2.2, (dmaRing (leBytes 4 (crc32c (List.replicate 20 0)).toNat)), by decide⟩,
    ⟨5, dmaCmdOf 0x31000010 0x10000 0x04000000 0, [], 256, (fabRead (dmaRing []) 13 0x04000000 24 true).1, (fabRead (dmaRing []) 13 0x04000000 24 true).1, .ok, (fabRead (dmaRing []) 13 0x04000000 24 true).2.2, (fabRead (dmaRing []) 13 0x04000000 24 true).2.2, (dmaRing []), by decide⟩,
    ⟨47, dmaCmdOf 0x40000020 0x10000 0x04000000 0, [], dmaUp (dmaCmdOf 0x40000020 0x10000 0x04000000 0), by decide⟩,
    ⟨47, dmaCmdOf 0x41000020 0x10000 0x04000000 0, [], dmaUp (dmaCmdOf 0x41000020 0x10000 0x04000000 0), by decide⟩,
    ⟨47, live, by decide⟩,
    ⟨47, live, by decide⟩,
    ⟨47, live, by decide⟩,
    ⟨47, live, by decide⟩,
    ⟨47, live, by decide⟩,
    ⟨47, 255, 5, [], engMod live 47 fun e => { e with dmaCpl := [(255, 5)] }, by decide⟩⟩

theorem test_meets_EngineLocalRegisters :
    (∃ n : Pe, (∃ k : Fin 8, (∃ r : ChanRing, (∃ s : State, ((qhSlot s n.val k.val).st ≠ 0) ∧ (txRing (qhSlot s n.val k.val).chan = some r))))) ∧
    (∃ n : Pe, (∃ k : Fin 8, (∃ s : State, (qhSlot s n.val k.val).st = 0 ∨ txRing (qhSlot s n.val k.val).chan = none))) ∧
    (∃ n : Pe, (∃ k : Fin 8, (∃ r : ChanRing, (∃ s : State, ((qhSlot s n.val k.val).st ≠ 0) ∧ (rxRing (qhSlot s n.val k.val).chan = some r))))) ∧
    (∃ n : Pe, (∃ k : Fin 8, (∃ s : State, (qhSlot s n.val k.val).st = 0 ∨ rxRing (qhSlot s n.val k.val).chan = none))) ∧
    (∃ n : Pe, (∃ j : Job, (∃ s : State, (eng s n.val).jobs.find? (fun j => !j.cls2) = some j))) ∧
    (∃ n : Pe, (∃ j : Job, (∃ r : List Job, (∃ s : State, ((eng s n.val).jobs.find? (fun j => !j.cls2) = none) ∧ ((eng s n.val).jobs = j :: r) ∧ (admits s n.val = true))))) ∧
    (∃ n : Pe, (∃ s : State, ((eng s n.val).jobs.find? (fun j => !j.cls2) = none) ∧ ((eng s n.val).jobs = [] ∨ admits s n.val = false))) ∧
    (∃ n : Pe, (∃ v : Word, (∃ j : Job, (∃ s : State, ((eng s n.val).taken.find? (fun j => decide (j.tag = v.toNat)) = some j) ∧ (getF s (engKey n.val 0xF1408) 7 0 = 0 ∨ 0x80 ≤ getF s (engKey n.val 0xF1408) 7 0))))) ∧
    (∃ n : Pe, (∃ v : Word, (∃ s : State, (eng s n.val).taken.find? (fun j => decide (j.tag = v.toNat)) = none))) ∧
    (∃ l : List Byte, (∃ r : List (List Byte), (∃ t : State, (∃ s : State, (s.plc.jcr = l :: r) ∧ (jcrPut s l = some t))))) ∧
    (∃ s : State, ∀ l ∈ s.plc.jcr.head?, jcrPut s l = none) ∧
    (∃ m : Master, (8 ≤ m.toNat) ∧ (m.toNat < 56)) ∧
    (∃ m : Master, (∃ s : State, (MayRead s m TNS_TNOW_LO) ∧ (¬(8 ≤ m.toNat ∧ m.toNat < 56)))) ∧
    (∃ n : Pe, (∃ t : Fin 2, (∃ d : DWord, (∃ s : State, (if t.val = 0 then (eng s n.val).tmr0 else (eng s n.val).tmr1) = some d)))) ∧
    (∃ n : Pe, (∃ t : Fin 2, (∃ s : State, (if t.val = 0 then (eng s n.val).tmr0 else (eng s n.val).tmr1) = none))) ∧
    (∃ n : Pe, (∃ p : Nat, (∃ s : State, (physOf s n.val = some p) ∧ (getB s (PEN_WDT_CTRL p) 31 = true) ∧ (engAlive s n.val = true)))) ∧
    (∃ n : Pe, (∃ p : Nat, (∃ s : State, (physOf s n.val = some p) ∧ (getB s (PEN_WDT_CTRL p) 31 = false ∨ engAlive s n.val = false)))) :=
  ⟨⟨47, 7, ⟨MDB_TX_BASE 47, MDB_TX_SIZE 47, MDB_TX_HEAD 47, MDB_TX_TAIL 47, 128⟩, servState, by decide⟩,
    ⟨47, 7, live, by decide⟩,
    ⟨47, 7, ⟨MDB_RX_BASE 47, MDB_RX_SIZE 47, MDB_RX_HEAD 47, MDB_RX_TAIL 47, 128⟩, servState, by decide⟩,
    ⟨47, 7, live, by decide⟩,
    ⟨47, jobA, jobState, by decide⟩,
    ⟨47, { jobA with cls2 := true }, [], putB (engMod live 47 fun e => { e with jobs := [{ jobA with cls2 := true }] }) PLC_ADMIT_HI 15 true, by decide⟩,
    ⟨47, live, by decide⟩,
    ⟨47, 0x30000001#32, jobA, jobState, by decide⟩,
    ⟨47, 1, live, by decide⟩,
    ⟨[0, 0, 0, 0, 0, 0, 0, 0, 0, 0, 0, 0, 0, 0, 0, 0], [], (jcrPut jcrState (List.replicate 16 0)).getD live, jcrState, by decide⟩,
    ⟨live, by decide⟩,
    ⟨55, by decide⟩,
    ⟨mSSP, live, by decide⟩,
    ⟨47, 1, 9, engMod live 47 fun e => { e with tmr1 := some 9 }, by decide⟩,
    ⟨47, 1, live, by decide⟩,
    ⟨47, 47, setR (dmaUp (dmaCmdOf 0 0 0 0)) (PEN_WDT_CTRL 47) 0x80000001, by decide⟩,
    ⟨47, 47, dmaUp (dmaCmdOf 0 0 0 0), by decide⟩⟩

theorem test_meets_MigrationAndTakeover :
    (∃ n : Pe, (∃ s : State, (engAlive s n.val = true) ∧ ((eng s n.val).dmaQ.filter (fun c => decide (fld c.w0 31 28 = 4)) = []))) ∧
    (∃ n : Pe, (∃ s : State, (engAlive s n.val = true) ∧ ((eng s n.val).dmaQ.filter (fun c => decide (fld c.w0 31 28 = 4)) ≠ []))) ∧
    (∃ n : Pe, (∃ v : Word, (∃ p : Nat, (∃ s : State, (engAlive s n.val = true) ∧ ((eng s n.val).dmaQ.filter (fun c => decide (fld c.w0 31 28 = 4)) = []) ∧ (physOf s n.val = some p) ∧ (fld v 14 0 ≤ 16384))))) ∧
    (∃ n : Pe, (∃ k : Fin 8, (∃ g : Mig, (∃ s : State, ((qhSlot s n.val k.val).st = 2) ∧ (migOf s (qhSlot s n.val k.val).chan = some g) ∧ (g.src = n.val) ∧ (g.switched = true))))) ∧
    (∃ n : Pe, (∃ k : Fin 8, (∃ s : State, (qhSlot s n.val k.val).st ≠ 2))) ∧
    (∃ n : Pe, (∃ k : Fin 8, (∃ g : Mig, (∃ s : State, ((qhSlot s n.val k.val).st = 3) ∧ ((qhSlot s n.val k.val).ready = true) ∧ (migOf s (qhSlot s n.val k.val).chan = some g))))) ∧
    (∃ n : Pe, (∃ k : Fin 8, (∃ s : State, (qhSlot s n.val k.val).st ≠ 3 ∨ (qhSlot s n.val k.val).ready = false))) ∧
    (∃ c : BitVec 9, (∃ g : Mig, (∃ j : Nat, (∃ s : State, (migOf s c.toNat = some g) ∧ (g.switched = false) ∧ (chanQuiet s c.toNat = true) ∧ (supplyHold s = false) ∧ (¬ migWaitEnd s g < tenseNs s) ∧ ((List.range 8).find? (fun j => decide ((qhSlot s g.dst j).st = 0)) = some j))))) ∧
    (∃ c : BitVec 9, (∃ g : Mig, (∃ s : State, (migOf s c.toNat = some g) ∧ (g.switched = true ∨ chanQuiet s c.toNat = false ∨ supplyHold s = true ∨ migWaitEnd s g < tenseNs s)))) ∧
    (∃ c : BitVec 9, (∃ g : Mig, (∃ s : State, (migOf s c.toNat = some g) ∧ (g.switched = false)))) ∧
    (∃ c : BitVec 9, (∃ g : Mig, (∃ s : State, (migOf s c.toNat = some g) ∧ (g.switched = true)))) ∧
    (∃ c : BitVec 9, (∃ s : State, migOf s c.toNat = none)) ∧
    (∃ n : Pe, (∃ p : Nat, (∃ q : Nat, (∃ s : State, (physOf s n.val = some p) ∧ ((eng s n.val).st = 2) ∧ ((eng s n.val).fenced = false) ∧ (freeSpareEngine (fenced s n.val p) = some q))))) ∧
    (∃ n : Pe, (∃ p : Nat, (∃ s : State, (physOf s n.val = some p) ∧ ((eng s n.val).st = 2) ∧ ((eng s n.val).fenced = false) ∧ (freeSpareEngine (fenced s n.val p) = none)))) ∧
    (∃ n : Pe, (∃ s : State, (eng s n.val).st ≠ 2 ∨ (eng s n.val).fenced = true)) ∧
    (∃ n : Pe, (∃ p : Nat, (∃ x : Pers, (∃ s : State, (physOf s n.val = some p) ∧ (((eng s n.val).pers.bind fun k => sfind s.plc.pers k) = some x) ∧ ((eng s n.val).st = 2) ∧ ((eng s n.val).fenced = true) ∧ (supplyHold s = false))))) ∧
    (∃ n : Pe, (∃ p : Nat, (∃ s : State, (physOf s n.val = some p) ∧ (((eng s n.val).pers.bind fun k => sfind s.plc.pers k) = none) ∧ ((eng s n.val).st = 2) ∧ ((eng s n.val).fenced = true) ∧ (supplyHold s = false)))) ∧
    (∃ n : Pe, (∃ s : State, physOf s n.val = none ∨ (eng s n.val).st ≠ 2 ∨ (eng s n.val).fenced = false ∨ supplyHold s = true)) :=
  ⟨⟨47, dmaUp (dmaCmdOf 0 0 0 0), by decide⟩,
    ⟨47, dmaUp (dmaCmdOf 0x40000010 0x10000 0 0), by decide⟩,
    ⟨47, 0x80004000, 47, dmaUp (dmaCmdOf 0 0 0 0), by decide⟩,
    ⟨5, 0, theMig, migState, by decide⟩,
    ⟨5, 0, live, by decide⟩,
    ⟨6, 1, theMig, migState, by decide⟩,
    ⟨6, 1, live, by decide⟩,
    ⟨256, { theMig with switched := false }, 0, { live with plc := { live.plc with migs := [{ theMig with switched := false }] } }, by decide⟩,
    ⟨256, theMig, migState, by decide⟩,
    ⟨256, { theMig with switched := false }, { live with plc := { live.plc with migs := [{ theMig with switched := false }] } }, by decide⟩,
    ⟨256, theMig, migState, by decide⟩,
    ⟨256, live, by decide⟩,
    ⟨5, 5, 48, putB (deadState false) (PEN_MAP 48) 30 true, by decide⟩,
    ⟨5, 5, noSpares (deadState false), by decide⟩,
    ⟨5, live, by decide⟩,
    ⟨5, 5, somePers, deadState true, by decide⟩,
    ⟨5, 5, engMod (deadState true) 5 fun e => { e with pers := none }, by decide⟩,
    ⟨5, live, by decide⟩⟩

theorem test_meets_PlacementCommands :
    (∃ m : Master, (∃ s : State, (MayWrite s m PLC_CMD) ∧ ((fabRead s mSSP (getR s PLC_CMD_ADDR).toNat (getR s PLC_CMD_LEN).toNat true).2.1 ≠ .ok))) ∧
    (∃ m : Master, (∃ k : BitVec 5, (∃ ok : Bool, (∃ s : State, (∃ u : State, (∃ b : List Byte, (MayWrite s m PLC_CMD) ∧ (fabRead s mSSP (getR s PLC_CMD_ADDR).toNat (getR s PLC_CMD_LEN).toNat true = (u, .ok, b)) ∧ (persCheck u b k.toNat ok ≠ 0))))))) ∧
    (∃ m : Master, (∃ k : BitVec 5, (∃ ok : Bool, (∃ s : State, (∃ u : State, (∃ b : List Byte, (MayWrite s m PLC_CMD) ∧ (fabRead s mSSP (getR s PLC_CMD_ADDR).toNat (getR s PLC_CMD_LEN).toNat true = (u, .ok, b)) ∧ (persCheck u b k.toNat ok = 0))))))) ∧
    (∃ m : Master, (∃ k : BitVec 5, (∃ s : State, (MayWrite s m PLC_CMD) ∧ (persNamed s k.toNat = false)))) ∧
    (∃ m : Master, (∃ k : BitVec 5, (∃ s : State, (MayWrite s m PLC_CMD) ∧ (persNamed s k.toNat = true)))) ∧
    (∃ m : Master, (∃ s : State, (MayWrite s m PLC_CMD) ∧ (plcFrozen s = false))) ∧
    (∃ m : Master, (∃ s : State, (MayWrite s m PLC_CMD) ∧ (plcFrozen s = true))) ∧
    (∃ m : Master, (∃ s : State, (MayWrite s m PLC_CMD) ∧ (m ≠ mSSP) ∧ (m ≠ mMGP))) ∧
    (∃ m : Master, (∃ n : BitVec 6, (∃ s : State, (MayWrite s m PLC_CMD) ∧ (m = mSSP ∨ m = mMGP) ∧ (n.toNat < 48)))) ∧
    (∃ m : Master, (∃ n : BitVec 6, (∃ s : State, (MayWrite s m PLC_CMD) ∧ (m = mSSP ∨ m = mMGP) ∧ (48 ≤ n.toNat)))) ∧
    (∃ m : Master, (∃ n : BitVec 6, (∃ s : State, (MayWrite s m PLC_CMD) ∧ (n.toNat < 48) ∧ ((getR s PLC_CMD_ADDR).toNat % 32 = 0) ∧ (inShared (getR s PLC_CMD_ADDR).toNat 32 = true) ∧ (bankKind s (bankOf (getR s PLC_CMD_ADDR).toNat) = kRings) ∧ ((eng s n.toNat).st ≠ 3) ∧ ((eng s n.toNat).jobs.length < 16)))) ∧
    (∃ m : Master, (∃ n : BitVec 6, (∃ s : State, (MayWrite s m PLC_CMD) ∧ (48 ≤ n.toNat ∨ (getR s PLC_CMD_ADDR).toNat % 32 ≠ 0 ∨ inShared (getR s PLC_CMD_ADDR).toNat 32 = false ∨ bankKind s (bankOf (getR s PLC_CMD_ADDR).toNat) ≠ kRings)))) ∧
    (∃ m : Master, (∃ n : BitVec 6, (∃ s : State, (MayWrite s m PLC_CMD) ∧ (¬(48 ≤ n.toNat ∨ (getR s PLC_CMD_ADDR).toNat % 32 ≠ 0 ∨ inShared (getR s PLC_CMD_ADDR).toNat 32 = false ∨ bankKind s (bankOf (getR s PLC_CMD_ADDR).toNat) ≠ kRings)) ∧ ((eng s n.toNat).st = 3 ∨ 16 ≤ (eng s n.toNat).jobs.length)))) ∧
    (∃ m : Master, (∃ c : BitVec 9, (∃ s : State, (MayWrite s m (PLC_BIND c.toNat)) ∧ (chanAssigned c.toNat = false)))) ∧
    (∃ m : Master, (∃ c : BitVec 9, (∃ s : State, (MayWrite s m (PLC_BIND c.toNat)) ∧ (chanAssigned c.toNat = true)))) :=
  ⟨⟨mSSP, setR live PLC_CMD_ADDR 0xFFFFFFF0, by decide⟩,
    ⟨mSSP, 31, true, setR persState PLC_CMD_LEN 4, setR persState PLC_CMD_LEN 4, [0x50, 0x4C, 0x52, 0x4E], by decide⟩,
    ⟨mSSP, 31, true, persState, persState, persImage, by decide⟩,
    ⟨mSSP, 31, live, by decide⟩,
    ⟨mSSP, 31, setR live (PLC_BIND 447) 0x801F0000, by decide⟩,
    ⟨mSSP, live, by decide⟩,
    ⟨mSSP, { live with sys := { live.sys with mgpDownTil := 1000 } }, by decide⟩,
    ⟨mHost, setR live (SEC_WPOL (blkCode .PLC)) 1, by decide⟩,
    ⟨mMGP, 47, live, by decide⟩,
    ⟨mMGP, 48, live, by decide⟩,
    ⟨mSSP, 47, setR (setR live PLC_CMD_ADDR 0x04000000) (BNK_BANK_CTRL 0) 0x03000000, by decide⟩,
    ⟨mSSP, 48, live, by decide⟩,
    ⟨mSSP, 47, engMod (setR (setR live PLC_CMD_ADDR 0x04000000) (BNK_BANK_CTRL 0) 0x03000000) 47 fun e => { e with st := 3 }, by decide⟩,
    ⟨mSSP, 200, live, by decide⟩,
    ⟨mSSP, 447, live, by decide⟩⟩

theorem test_meets_CoreIntegerInstructions :
    (∃ c : Fin 50, (∃ w : Word, (∃ x : CoreSt, (∃ t : State, (∃ s : State, Issues s c.val .add w x t))))) ∧
    (∃ c : Fin 50, (∃ w : Word, (∃ x : CoreSt, (∃ t : State, (∃ s : State, Issues s c.val .sub w x t))))) ∧
    (∃ c : Fin 50, (∃ w : Word, (∃ x : CoreSt, (∃ t : State, (∃ s : State, Issues s c.val .neg w x t))))) ∧
    (∃ c : Fin 50, (∃ w : Word, (∃ x : CoreSt, (∃ t : State, (∃ s : State, Issues s c.val .and w x t))))) ∧
    (∃ c : Fin 50, (∃ w : Word, (∃ x : CoreSt, (∃ t : State, (∃ s : State, Issues s c.val .or w x t))))) ∧
    (∃ c : Fin 50, (∃ w : Word, (∃ x : CoreSt, (∃ t : State, (∃ s : State, Issues s c.val .xor w x t))))) ∧
    (∃ c : Fin 50, (∃ w : Word, (∃ x : CoreSt, (∃ t : State, (∃ s : State, Issues s c.val .andn w x t))))) ∧
    (∃ c : Fin 50, (∃ w : Word, (∃ x : CoreSt, (∃ t : State, (∃ s : State, Issues s c.val .slt w x t))))) ∧
    (∃ c : Fin 50, (∃ w : Word, (∃ x : CoreSt, (∃ t : State, (∃ s : State, Issues s c.val .sltu w x t))))) ∧
    (∃ c : Fin 50, (∃ w : Word, (∃ x : CoreSt, (∃ t : State, (∃ s : State, Issues s c.val .sll w x t))))) ∧
    (∃ c : Fin 50, (∃ w : Word, (∃ x : CoreSt, (∃ t : State, (∃ s : State, Issues s c.val .srl w x t))))) ∧
    (∃ c : Fin 50, (∃ w : Word, (∃ x : CoreSt, (∃ t : State, (∃ s : State, Issues s c.val .sra w x t))))) ∧
    (∃ c : Fin 50, (∃ w : Word, (∃ x : CoreSt, (∃ t : State, (∃ s : State, Issues s c.val .clz w x t))))) ∧
    (∃ c : Fin 50, (∃ w : Word, (∃ x : CoreSt, (∃ t : State, (∃ s : State, Issues s c.val .sextb w x t))))) ∧
    (∃ c : Fin 50, (∃ w : Word, (∃ x : CoreSt, (∃ t : State, (∃ s : State, Issues s c.val .sexth w x t))))) ∧
    (∃ c : Fin 50, (∃ w : Word, (∃ x : CoreSt, (∃ t : State, (∃ s : State, Issues s c.val .addi w x t))))) ∧
    (∃ c : Fin 50, (∃ w : Word, (∃ x : CoreSt, (∃ t : State, (∃ s : State, Issues s c.val .andi w x t))))) ∧
    (∃ c : Fin 50, (∃ w : Word, (∃ x : CoreSt, (∃ t : State, (∃ s : State, Issues s c.val .ori w x t))))) ∧
    (∃ c : Fin 50, (∃ w : Word, (∃ x : CoreSt, (∃ t : State, (∃ s : State, Issues s c.val .xori w x t))))) ∧
    (∃ c : Fin 50, (∃ w : Word, (∃ x : CoreSt, (∃ t : State, (∃ s : State, Issues s c.val .slti w x t))))) ∧
    (∃ c : Fin 50, (∃ w : Word, (∃ x : CoreSt, (∃ t : State, (∃ s : State, Issues s c.val .sltiu w x t))))) ∧
    (∃ c : Fin 50, (∃ w : Word, (∃ x : CoreSt, (∃ t : State, (∃ s : State, Issues s c.val .lui w x t))))) ∧
    (∃ c : Fin 50, (∃ w : Word, (∃ x : CoreSt, (∃ t : State, (∃ s : State, Issues s c.val .slli w x t))))) ∧
    (∃ c : Fin 50, (∃ w : Word, (∃ x : CoreSt, (∃ t : State, (∃ s : State, Issues s c.val .srli w x t))))) ∧
    (∃ c : Fin 50, (∃ w : Word, (∃ x : CoreSt, (∃ t : State, (∃ s : State, Issues s c.val .srai w x t))))) :=
  ⟨⟨5, 0x642800, (bx (coreAt 5 0x642800) 5).1, (bx (coreAt 5 0x642800) 5).2, coreAt 5 0x642800, by decide⟩,
    ⟨5, 0x642801, (bx (coreAt 5 0x642801) 5).1, (bx (coreAt 5 0x642801) 5).2, coreAt 5 0x642801, by decide⟩,
    ⟨5, 0x640002, (bx (coreAt 5 0x640002) 5).1, (bx (coreAt 5 0x640002) 5).2, coreAt 5 0x640002, by decide⟩,
    ⟨5, 0x642803, (bx (coreAt 5 0x642803) 5).1, (bx (coreAt 5 0x642803) 5).2, coreAt 5 0x642803, by decide⟩,
    ⟨5, 0x642804, (bx (coreAt 5 0x642804) 5).1, (bx (coreAt 5 0x642804) 5).2, coreAt 5 0x642804, by decide⟩,
    ⟨5, 0x642805, (bx (coreAt 5 0x642805) 5).1, (bx (coreAt 5 0x642805) 5).2, coreAt 5 0x642805, by decide⟩,
    ⟨5, 0x642806, (bx (coreAt 5 0x642806) 5).1, (bx (coreAt 5 0x642806) 5).2, coreAt 5 0x642806, by decide⟩,
    ⟨5, 0x642807, (bx (coreAt 5 0x642807) 5).1, (bx (coreAt 5 0x642807) 5).2, coreAt 5 0x642807, by decide⟩,
    ⟨5, 0x642808, (bx (coreAt 5 0x642808) 5).1, (bx (coreAt 5 0x642808) 5).2, coreAt 5 0x642808, by decide⟩,
    ⟨5, 0x642809, (bx (coreAt 5 0x642809) 5).1, (bx (coreAt 5 0x642809) 5).2, coreAt 5 0x642809, by decide⟩,
    ⟨5, 0x64280a, (bx (coreAt 5 0x64280a) 5).1, (bx (coreAt 5 0x64280a) 5).2, coreAt 5 0x64280a, by decide⟩,
    ⟨5, 0x64280b, (bx (coreAt 5 0x64280b) 5).1, (bx (coreAt 5 0x64280b) 5).2, coreAt 5 0x64280b, by decide⟩,
    ⟨5, 0x64000c, (bx (coreAt 5 0x64000c) 5).1, (bx (coreAt 5 0x64000c) 5).2, coreAt 5 0x64000c, by decide⟩,
    ⟨5, 0x64000d, (bx (coreAt 5 0x64000d) 5).1, (bx (coreAt 5 0x64000d) 5).2, coreAt 5 0x64000d, by decide⟩,
    ⟨5, 0x64000e, (bx (coreAt 5 0x64000e) 5).1, (bx (coreAt 5 0x64000e) 5).2, coreAt 5 0x64000e, by decide⟩,
    ⟨49, 0x464fff9, (bx (coreAt 49 0x464fff9) 49).1, (bx (coreAt 49 0x464fff9) 49).2, coreAt 49 0x464fff9, by decide⟩,
    ⟨49, 0x864fff9, (bx (coreAt 49 0x864fff9) 49).1, (bx (coreAt 49 0x864fff9) 49).2, coreAt 49 0x864fff9, by decide⟩,
    ⟨49, 0xc64fff9, (bx (coreAt 49 0xc64fff9) 49).1, (bx (coreAt 49 0xc64fff9) 49).2, coreAt 49 0xc64fff9, by decide⟩,
    ⟨49, 0x1064fff9, (bx (coreAt 49 0x1064fff9) 49).1, (bx (coreAt 49 0x1064fff9) 49).2, coreAt 49 0x1064fff9, by decide⟩,
    ⟨49, 0x1464fff9, (bx (coreAt 49 0x1464fff9) 49).1, (bx (coreAt 49 0x1464fff9) 49).2, coreAt 49 0x1464fff9, by decide⟩,
    ⟨49, 0x1864fff9, (bx (coreAt 49 0x1864fff9) 49).1, (bx (coreAt 49 0x1864fff9) 49).2, coreAt 49 0x1864fff9, by decide⟩,
    ⟨49, 0x1c60fff9, (bx (coreAt 49 0x1c60fff9) 49).1, (bx (coreAt 49 0x1c60fff9) 49).2, coreAt 49 0x1c60fff9, by decide⟩,
    ⟨49, 0x20640007, (bx (coreAt 49 0x20640007) 49).1, (bx (coreAt 49 0x20640007) 49).2, coreAt 49 0x20640007, by decide⟩,
    ⟨49, 0x20640027, (bx (coreAt 49 0x20640027) 49).1, (bx (coreAt 49 0x20640027) 49).2, coreAt 49 0x20640027, by decide⟩,
    ⟨49, 0x20640047, (bx (coreAt 49 0x20640047) 49).1, (bx (coreAt 49 0x20640047) 49).2, coreAt 49 0x20640047, by decide⟩⟩

theorem test_meets_CoreMultiplyAndDivide :
    (∃ c : Fin 50, (∃ w : Word, (∃ x : CoreSt, (∃ t : State, (∃ s : State, Issues s c.val .mul w x t))))) ∧
    (∃ c : Fin 50, (∃ w : Word, (∃ x : CoreSt, (∃ t : State, (∃ s : State, Issues s c.val .mulh w x t))))) ∧
    (∃ c : Fin 50, (∃ w : Word, (∃ x : CoreSt, (∃ t : State, (∃ s : State, Issues s c.val .mulhu w x t))))) ∧
    (∃ c : Fin 50, (∃ w : Word, (∃ x : CoreSt, (∃ t : State, (∃ s : State, Issues s c.val .div w x t))))) ∧
    (∃ c : Fin 50, (∃ w : Word, (∃ x : CoreSt, (∃ t : State, (∃ s : State, Issues s c.val .divu w x t))))) ∧
    (∃ c : Fin 50, (∃ w : Word, (∃ x : CoreSt, (∃ t : State, (∃ s : State, Issues s c.val .rem w x t))))) ∧
    (∃ c : Fin 50, (∃ w : Word, (∃ x : CoreSt, (∃ t : State, (∃ s : State, Issues s c.val .remu w x t))))) :=
  ⟨⟨5, 0x24642800, (bx (coreAt 5 0x24642800) 5).1, (bx (coreAt 5 0x24642800) 5).2, coreAt 5 0x24642800, by decide⟩,
    ⟨5, 0x24642801, (bx (coreAt 5 0x24642801) 5).1, (bx (coreAt 5 0x24642801) 5).2, coreAt 5 0x24642801, by decide⟩,
    ⟨5, 0x24642802, (bx (coreAt 5 0x24642802) 5).1, (bx (coreAt 5 0x24642802) 5).2, coreAt 5 0x24642802, by decide⟩,
    ⟨48, 0x28642800, (bx (coreAt 48 0x28642800) 48).1, (bx (coreAt 48 0x28642800) 48).2, coreAt 48 0x28642800, by decide⟩,
    ⟨48, 0x28642801, (bx (coreAt 48 0x28642801) 48).1, (bx (coreAt 48 0x28642801) 48).2, coreAt 48 0x28642801, by decide⟩,
    ⟨48, 0x28642802, (bx (coreAt 48 0x28642802) 48).1, (bx (coreAt 48 0x28642802) 48).2, coreAt 48 0x28642802, by decide⟩,
    ⟨48, 0x28642803, (bx (coreAt 48 0x28642803) 48).1, (bx (coreAt 48 0x28642803) 48).2, coreAt 48 0x28642803, by decide⟩⟩

theorem test_meets_CoreLoads :
    (∃ c : Fin 50, (∃ w : Word, (∃ x : CoreSt, (∃ t : State, (∃ s : State, (Issues s c.val .lw w x t) ∧ (c.val < 48) ∧ (inDtcm (greg x (fRs1 w) + fImm w).toNat 4 = true)))))) ∧
    (∃ c : Fin 50, (∃ w : Word, (∃ x : CoreSt, (∃ t : State, (∃ s : State, (Issues s c.val .lw w x t) ∧ (c.val < 48) ∧ (inDtcm (greg x (fRs1 w) + fImm w).toNat 4 = false)))))) ∧
    (∃ c : Fin 50, (∃ w : Word, (∃ k : Nat, (∃ x : CoreSt, (∃ t : State, (∃ s : State, (Issues s c.val .lw w x t) ∧ (48 ≤ c.val) ∧ (nearKey c.val (greg x (fRs1 w) + fImm w).toNat 4 = some k))))))) ∧
    (∃ c : Fin 50, (∃ w : Word, (∃ x : CoreSt, (∃ t : State, (∃ s : State, (Issues s c.val .lw w x t) ∧ (48 ≤ c.val) ∧ (nearKey c.val (greg x (fRs1 w) + fImm w).toNat 4 = none)))))) ∧
    (∃ c : Fin 50, (∃ w : Word, (∃ x : CoreSt, (∃ t : State, (∃ s : State, (Issues s c.val .lh w x t) ∧ (c.val < 48) ∧ (inDtcm (greg x (fRs1 w) + fImm w).toNat 2 = true)))))) ∧
    (∃ c : Fin 50, (∃ w : Word, (∃ k : Nat, (∃ x : CoreSt, (∃ t : State, (∃ s : State, (Issues s c.val .lh w x t) ∧ (48 ≤ c.val) ∧ (nearKey c.val (greg x (fRs1 w) + fImm w).toNat 2 = some k))))))) ∧
    (∃ c : Fin 50, (∃ w : Word, (∃ x : CoreSt, (∃ t : State, (∃ s : State, (Issues s c.val .lh w x t) ∧ (48 ≤ c.val) ∧ (nearKey c.val (greg x (fRs1 w) + fImm w).toNat 2 = none)))))) ∧
    (∃ c : Fin 50, (∃ w : Word, (∃ x : CoreSt, (∃ t : State, (∃ s : State, (Issues s c.val .lhu w x t) ∧ (c.val < 48) ∧ (inDtcm (greg x (fRs1 w) + fImm w).toNat 2 = true)))))) ∧
    (∃ c : Fin 50, (∃ w : Word, (∃ k : Nat, (∃ x : CoreSt, (∃ t : State, (∃ s : State, (Issues s c.val .lhu w x t) ∧ (48 ≤ c.val) ∧ (nearKey c.val (greg x (fRs1 w) + fImm w).toNat 2 = some k))))))) ∧
    (∃ c : Fin 50, (∃ w : Word, (∃ x : CoreSt, (∃ t : State, (∃ s : State, (Issues s c.val .lhu w x t) ∧ (48 ≤ c.val) ∧ (nearKey c.val (greg x (fRs1 w) + fImm w).toNat 2 = none)))))) ∧
    (∃ c : Fin 50, (∃ w : Word, (∃ x : CoreSt, (∃ t : State, (∃ s : State, (Issues s c.val .lb w x t) ∧ (c.val < 48) ∧ (inDtcm (greg x (fRs1 w) + fImm w).toNat 1 = true)))))) ∧
    (∃ c : Fin 50, (∃ w : Word, (∃ k : Nat, (∃ x : CoreSt, (∃ t : State, (∃ s : State, (Issues s c.val .lb w x t) ∧ (48 ≤ c.val) ∧ (nearKey c.val (greg x (fRs1 w) + fImm w).toNat 1 = some k))))))) ∧
    (∃ c : Fin 50, (∃ w : Word, (∃ x : CoreSt, (∃ t : State, (∃ s : State, (Issues s c.val .lb w x t) ∧ (48 ≤ c.val) ∧ (nearKey c.val (greg x (fRs1 w) + fImm w).toNat 1 = none)))))) ∧
    (∃ c : Fin 50, (∃ w : Word, (∃ x : CoreSt, (∃ t : State, (∃ s : State, (Issues s c.val .lbu w x t) ∧ (c.val < 48) ∧ (inDtcm (greg x (fRs1 w) + fImm w).toNat 1 = true)))))) ∧
    (∃ c : Fin 50, (∃ w : Word, (∃ k : Nat, (∃ x : CoreSt, (∃ t : State, (∃ s : State, (Issues s c.val .lbu w x t) ∧ (48 ≤ c.val) ∧ (nearKey c.val (greg x (fRs1 w) + fImm w).toNat 1 = some k))))))) ∧
    (∃ c : Fin 50, (∃ w : Word, (∃ x : CoreSt, (∃ t : State, (∃ s : State, (Issues s c.val .lbu w x t) ∧ (48 ≤ c.val) ∧ (nearKey c.val (greg x (fRs1 w) + fImm w).toNat 1 = none)))))) ∧
    (∃ c : Fin 50, (∃ w : Word, (∃ x : CoreSt, (∃ t : State, (∃ s : State, (Issues s c.val .lwpi w x t) ∧ (c.val < 48) ∧ (inDtcm (greg x (fRs1 w)).toNat 4 = true)))))) ∧
    (∃ c : Fin 50, (∃ w : Word, (∃ x : CoreSt, (∃ t : State, (∃ s : State, (Issues s c.val .lwpi w x t) ∧ (c.val < 48) ∧ (inDtcm (greg x (fRs1 w)).toNat 4 = false)))))) ∧
    (∃ c : Fin 50, (∃ w : Word, (∃ k : Nat, (∃ x : CoreSt, (∃ t : State, (∃ s : State, (Issues s c.val .lwpi w x t) ∧ (48 ≤ c.val) ∧ (nearKey c.val (greg x (fRs1 w)).toNat 4 = some k))))))) ∧
    (∃ c : Fin 50, (∃ w : Word, (∃ x : CoreSt, (∃ t : State, (∃ s : State, (Issues s c.val .lwpi w x t) ∧ (48 ≤ c.val) ∧ (nearKey c.val (greg x (fRs1 w)).toNat 4 = none)))))) ∧
    (∃ c : Fin 50, (∃ f : FarLoad, (∃ v : Word, (∃ s : State, ((coreOf s c.val).far = some f) ∧ ((coreOf s c.val).run = .far) ∧ (coreUp s c.val = true) ∧ ((busLoad (coreMaster c.val) f.addr.toNat (memSize ((opOf f.word).getD .lw)) s).resp = .ok v))))) ∧
    (∃ c : Fin 50, (∃ f : FarLoad, (∃ s : State, ((coreOf s c.val).far = some f) ∧ ((coreOf s c.val).run = .far) ∧ (coreUp s c.val = true) ∧ ((busLoad (coreMaster c.val) f.addr.toNat (memSize ((opOf f.word).getD .lw)) s).resp = .busErr)))) ∧
    (∃ c : Fin 50, (∃ s : State, (coreOf s c.val).far = none ∨ (coreOf s c.val).run ≠ .far ∨ coreUp s c.val = false)) :=
  ⟨⟨5, 0x40640004, (bx (coreAtReg 5 0x40640004 0x10000) 5).1, (bx (coreAtReg 5 0x40640004 0x10000) 5).2, coreAtReg 5 0x40640004 0x10000, by decide⟩,
    ⟨5, 0x40640004, (bx (coreAtReg 5 0x40640004 0xF3000) 5).1, (bx (coreAtReg 5 0x40640004 0xF3000) 5).2, coreAtReg 5 0x40640004 0xF3000, by decide⟩,
    ⟨48, 0x40640004, (nearKey 48 0x20000100 4).getD 0, (bx (coreAtReg 48 0x40640004 0x200000FC) 48).1, (bx (coreAtReg 48 0x40640004 0x200000FC) 48).2, coreAtReg 48 0x40640004 0x200000FC, by decide⟩,
    ⟨49, 0x40640004, (bx (coreAtReg 49 0x40640004 0x10000000) 49).1, (bx (coreAtReg 49 0x40640004 0x10000000) 49).2, coreAtReg 49 0x40640004 0x10000000, by decide⟩,
    ⟨5, 0x44640004, (bx (coreAtReg 5 0x44640004 0x10000) 5).1, (bx (coreAtReg 5 0x44640004 0x10000) 5).2, coreAtReg 5 0x44640004 0x10000, by decide⟩,
    ⟨48, 0x44640004, (nearKey 48 0x20000100 2).getD 0, (bx (coreAtReg 48 0x44640004 0x200000FC) 48).1, (bx (coreAtReg 48 0x44640004 0x200000FC) 48).2, coreAtReg 48 0x44640004 0x200000FC, by decide⟩,
    ⟨49, 0x44640004, (bx (coreAtReg 49 0x44640004 0x10000000) 49).1, (bx (coreAtReg 49 0x44640004 0x10000000) 49).2, coreAtReg 49 0x44640004 0x10000000, by decide⟩,
    ⟨5, 0x48640004, (bx (coreAtReg 5 0x48640004 0x10000) 5).1, (bx (coreAtReg 5 0x48640004 0x10000) 5).2, coreAtReg 5 0x48640004 0x10000, by decide⟩,
    ⟨48, 0x48640004, (nearKey 48 0x20000100 2).getD 0, (bx (coreAtReg 48 0x48640004 0x200000FC) 48).1, (bx (coreAtReg 48 0x48640004 0x200000FC) 48).2, coreAtReg 48 0x48640004 0x200000FC, by decide⟩,
    ⟨49, 0x48640004, (bx (coreAtReg 49 0x48640004 0x10000000) 49).1, (bx (coreAtReg 49 0x48640004 0x10000000) 49).2, coreAtReg 49 0x48640004 0x10000000, by decide⟩,
    ⟨5, 0x4c640004, (bx (coreAtReg 5 0x4c640004 0x10000) 5).1, (bx (coreAtReg 5 0x4c640004 0x10000) 5).2, coreAtReg 5 0x4c640004 0x10000, by decide⟩,
    ⟨48, 0x4c640004, (nearKey 48 0x20000100 1).getD 0, (bx (coreAtReg 48 0x4c640004 0x200000FC) 48).1, (bx (coreAtReg 48 0x4c640004 0x200000FC) 48).2, coreAtReg 48 0x4c640004 0x200000FC, by decide⟩,
    ⟨49, 0x4c640004, (bx (coreAtReg 49 0x4c640004 0x10000000) 49).1, (bx (coreAtReg 49 0x4c640004 0x10000000) 49).2, coreAtReg 49 0x4c640004 0x10000000, by decide⟩,
    ⟨5, 0x50640004, (bx (coreAtReg 5 0x50640004 0x10000) 5).1, (bx (coreAtReg 5 0x50640004 0x10000) 5).2, coreAtReg 5 0x50640004 0x10000, by decide⟩,
    ⟨48, 0x50640004, (nearKey 48 0x20000100 1).getD 0, (bx (coreAtReg 48 0x50640004 0x200000FC) 48).1, (bx (coreAtReg 48 0x50640004 0x200000FC) 48).2, coreAtReg 48 0x50640004 0x200000FC, by decide⟩,
    ⟨49, 0x50640004, (bx (coreAtReg 49 0x50640004 0x10000000) 49).1, (bx (coreAtReg 49 0x50640004 0x10000000) 49).2, coreAtReg 49 0x50640004 0x10000000, by decide⟩,
    ⟨5, 0x54640000, (bx (coreAtReg 5 0x54640000 0x10000) 5).1, (bx (coreAtReg 5 0x54640000 0x10000) 5).2, coreAtReg 5 0x54640000 0x10000, by decide⟩,
    ⟨5, 0x54640000, (bx (coreAtReg 5 0x54640000 0xF3000) 5).1, (bx (coreAtReg 5 0x54640000 0xF3000) 5).2, coreAtReg 5 0x54640000 0xF3000, by decide⟩,
    ⟨48, 0x54640000, (nearKey 48 0x20000100 4).getD 0, (bx (coreAtReg 48 0x54640000 0x20000100) 48).1, (bx (coreAtReg 48 0x54640000 0x20000100) 48).2, coreAtReg 48 0x54640000 0x20000100, by decide⟩,
    ⟨49, 0x54640000, (bx (coreAtReg 49 0x54640000 0x10000000) 49).1, (bx (coreAtReg 49 0x54640000 0x10000000) 49).2, coreAtReg 49 0x54640000 0x10000000, by decide⟩,
    ⟨49, ⟨0x10000058, 0x40640004⟩, 0, farState 0x10000058, by decide +kernel⟩,
    ⟨49, ⟨0x30000000, 0x40640004⟩, farState 0x30000000, by decide⟩,
    ⟨49, live, by decide⟩⟩

theorem test_meets_CoreStores :
    (∃ c : Fin 50, (∃ w : Word, (∃ x : CoreSt, (∃ t : State, (∃ s : State, (Issues s c.val .sw w x t) ∧ (c.val < 48) ∧ (inDtcm (greg x (fRs1 w) + fImm w).toNat 4 = true)))))) ∧
    (∃ c : Fin 50, (∃ w : Word, (∃ x : CoreSt, (∃ t : State, (∃ s : State, (Issues s c.val .sw w x t) ∧ (c.val < 48) ∧ (inDtcm (greg x (fRs1 w) + fImm w).toNat 4 = false)))))) ∧
    (∃ c : Fin 50, (∃ w : Word, (∃ k : Nat, (∃ x : CoreSt, (∃ t : State, (∃ s : State, (Issues s c.val .sw w x t) ∧ (48 ≤ c.val) ∧ (nearKey c.val (greg x (fRs1 w) + fImm w).toNat 4 = some k))))))) ∧
    (∃ c : Fin 50, (∃ w : Word, (∃ x : CoreSt, (∃ t : State, (∃ s : State, (Issues s c.val .sw w x t) ∧ (48 ≤ c.val) ∧ (nearKey c.val (greg x (fRs1 w) + fImm w).toNat 4 = none)))))) ∧
    (∃ c : Fin 50, (∃ w : Word, (∃ x : CoreSt, (∃ t : State, (∃ s : State, (Issues s c.val .sh w x t) ∧ (c.val < 48) ∧ (inDtcm (greg x (fRs1 w) + fImm w).toNat 2 = true)))))) ∧
    (∃ c : Fin 50, (∃ w : Word, (∃ k : Nat, (∃ x : CoreSt, (∃ t : State, (∃ s : State, (Issues s c.val .sh w x t) ∧ (48 ≤ c.val) ∧ (nearKey c.val (greg x (fRs1 w) + fImm w).toNat 2 = some k))))))) ∧
    (∃ c : Fin 50, (∃ w : Word, (∃ x : CoreSt, (∃ t : State, (∃ s : State, (Issues s c.val .sh w x t) ∧ (48 ≤ c.val) ∧ (nearKey c.val (greg x (fRs1 w) + fImm w).toNat 2 = none)))))) ∧
    (∃ c : Fin 50, (∃ w : Word, (∃ x : CoreSt, (∃ t : State, (∃ s : State, (Issues s c.val .sb w x t) ∧ (c.val < 48) ∧ (inDtcm (greg x (fRs1 w) + fImm w).toNat 1 = true)))))) ∧
    (∃ c : Fin 50, (∃ w : Word, (∃ k : Nat, (∃ x : CoreSt, (∃ t : State, (∃ s : State, (Issues s c.val .sb w x t) ∧ (48 ≤ c.val) ∧ (nearKey c.val (greg x (fRs1 w) + fImm w).toNat 1 = some k))))))) ∧
    (∃ c : Fin 50, (∃ w : Word, (∃ x : CoreSt, (∃ t : State, (∃ s : State, (Issues s c.val .sb w x t) ∧ (48 ≤ c.val) ∧ (nearKey c.val (greg x (fRs1 w) + fImm w).toNat 1 = none)))))) ∧
    (∃ c : Fin 50, (∃ w : Word, (∃ x : CoreSt, (∃ t : State, (∃ s : State, (Issues s c.val .swpi w x t) ∧ (c.val < 48) ∧ (inDtcm (greg x (fRs1 w)).toNat 4 = true)))))) ∧
    (∃ c : Fin 50, (∃ w : Word, (∃ x : CoreSt, (∃ t : State, (∃ s : State, (Issues s c.val .swpi w x t) ∧ (c.val < 48) ∧ (inDtcm (greg x (fRs1 w)).toNat 4 = false)))))) ∧
    (∃ c : Fin 50, (∃ w : Word, (∃ k : Nat, (∃ x : CoreSt, (∃ t : State, (∃ s : State, (Issues s c.val .swpi w x t) ∧ (48 ≤ c.val) ∧ (nearKey c.val (greg x (fRs1 w)).toNat 4 = some k))))))) ∧
    (∃ c : Fin 50, (∃ w : Word, (∃ x : CoreSt, (∃ t : State, (∃ s : State, (Issues s c.val .swpi w x t) ∧ (48 ≤ c.val) ∧ (nearKey c.val (greg x (fRs1 w)).toNat 4 = none)))))) :=
  ⟨⟨5, 0x60640004, (bx (coreAtReg 5 0x60640004 0x10000) 5).1, (bx (coreAtReg 5 0x60640004 0x10000) 5).2, coreAtReg 5 0x60640004 0x10000, by decide⟩,
    ⟨5, 0x60640004, (bx (coreAtReg 5 0x60640004 0xF3000) 5).1, (bx (coreAtReg 5 0x60640004 0xF3000) 5).2, coreAtReg 5 0x60640004 0xF3000, by decide⟩,
    ⟨48, 0x60640004, (nearKey 48 0x20000100 4).getD 0, (bx (coreAtReg 48 0x60640004 0x200000FC) 48).1, (bx (coreAtReg 48 0x60640004 0x200000FC) 48).2, coreAtReg 48 0x60640004 0x200000FC, by decide⟩,
    ⟨49, 0x60640004, (bx (coreAtReg 49 0x60640004 0x10000000) 49).1, (bx (coreAtReg 49 0x60640004 0x10000000) 49).2, coreAtReg 49 0x60640004 0x10000000, by decide⟩,
    ⟨5, 0x64640004, (bx (coreAtReg 5 0x64640004 0x10000) 5).1, (bx (coreAtReg 5 0x64640004 0x10000) 5).2, coreAtReg 5 0x64640004 0x10000, by decide⟩,
    ⟨48, 0x64640004, (nearKey 48 0x20000100 2).getD 0, (bx (coreAtReg 48 0x64640004 0x200000FC) 48).1, (bx (coreAtReg 48 0x64640004 0x200000FC) 48).2, coreAtReg 48 0x64640004 0x200000FC, by decide⟩,
    ⟨49, 0x64640004, (bx (coreAtReg 49 0x64640004 0x10000000) 49).1, (bx (coreAtReg 49 0x64640004 0x10000000) 49).2, coreAtReg 49 0x64640004 0x10000000, by decide⟩,
    ⟨5, 0x68640004, (bx (coreAtReg 5 0x68640004 0x10000) 5).1, (bx (coreAtReg 5 0x68640004 0x10000) 5).2, coreAtReg 5 0x68640004 0x10000, by decide⟩,
    ⟨48, 0x68640004, (nearKey 48 0x20000100 1).getD 0, (bx (coreAtReg 48 0x68640004 0x200000FC) 48).1, (bx (coreAtReg 48 0x68640004 0x200000FC) 48).2, coreAtReg 48 0x68640004 0x200000FC, by decide⟩,
    ⟨49, 0x68640004, (bx (coreAtReg 49 0x68640004 0x10000000) 49).1, (bx (coreAtReg 49 0x68640004 0x10000000) 49).2, coreAtReg 49 0x68640004 0x10000000, by decide⟩,
    ⟨5, 0x6c640000, (bx (coreAtReg 5 0x6c640000 0x10000) 5).1, (bx (coreAtReg 5 0x6c640000 0x10000) 5).2, coreAtReg 5 0x6c640000 0x10000, by decide⟩,
    ⟨5, 0x6c640000, (bx (coreAtReg 5 0x6c640000 0xF3000) 5).1, (bx (coreAtReg 5 0x6c640000 0xF3000) 5).2, coreAtReg 5 0x6c640000 0xF3000, by decide⟩,
    ⟨48, 0x6c640000, (nearKey 48 0x20000100 4).getD 0, (bx (coreAtReg 48 0x6c640000 0x20000100) 48).1, (bx (coreAtReg 48 0x6c640000 0x20000100) 48).2, coreAtReg 48 0x6c640000 0x20000100, by decide⟩,
    ⟨49, 0x6c640000, (bx (coreAtReg 49 0x6c640000 0x10000000) 49).1, (bx (coreAtReg 49 0x6c640000 0x10000000) 49).2, coreAtReg 49 0x6c640000 0x10000000, by decide⟩⟩

theorem test_meets_CoreBranchesAndRepeats :
    (∃ c : Fin 50, (∃ w : Word, (∃ x : CoreSt, (∃ t : State, (∃ s : State, (Issues s c.val .beq w x t) ∧ (greg x (fRd w) = greg x (fRs1 w))))))) ∧
    (∃ c : Fin 50, (∃ w : Word, (∃ x : CoreSt, (∃ t : State, (∃ s : State, (Issues s c.val .beq w x t) ∧ (¬(greg x (fRd w) = greg x (fRs1 w)))))))) ∧
    (∃ c : Fin 50, (∃ w : Word, (∃ x : CoreSt, (∃ t : State, (∃ s : State, (Issues s c.val .bne w x t) ∧ (greg x (fRd w) ≠ greg x (fRs1 w))))))) ∧
    (∃ c : Fin 50, (∃ w : Word, (∃ x : CoreSt, (∃ t : State, (∃ s : State, (Issues s c.val .bne w x t) ∧ (¬(greg x (fRd w) ≠ greg x (fRs1 w)))))))) ∧
    (∃ c : Fin 50, (∃ w : Word, (∃ x : CoreSt, (∃ t : State, (∃ s : State, (Issues s c.val .blt w x t) ∧ ((greg x (fRd w)).slt (greg x (fRs1 w)) = true)))))) ∧
    (∃ c : Fin 50, (∃ w : Word, (∃ x : CoreSt, (∃ t : State, (∃ s : State, (Issues s c.val .blt w x t) ∧ (¬((greg x (fRd w)).slt (greg x (fRs1 w)) = true))))))) ∧
    (∃ c : Fin 50, (∃ w : Word, (∃ x : CoreSt, (∃ t : State, (∃ s : State, (Issues s c.val .bge w x t) ∧ ((greg x (fRd w)).slt (greg x (fRs1 w)) = false)))))) ∧
    (∃ c : Fin 50, (∃ w : Word, (∃ x : CoreSt, (∃ t : State, (∃ s : State, (Issues s c.val .bge w x t) ∧ (¬((greg x (fRd w)).slt (greg x (fRs1 w)) = false))))))) ∧
    (∃ c : Fin 50, (∃ w : Word, (∃ x : CoreSt, (∃ t : State, (∃ s : State, (Issues s c.val .bltu w x t) ∧ ((greg x (fRd w)).ult (greg x (fRs1 w)) = true)))))) ∧
    (∃ c : Fin 50, (∃ w : Word, (∃ x : CoreSt, (∃ t : State, (∃ s : State, (Issues s c.val .bltu w x t) ∧ (¬((greg x (fRd w)).ult (greg x (fRs1 w)) = true))))))) ∧
    (∃ c : Fin 50, (∃ w : Word, (∃ x : CoreSt, (∃ t : State, (∃ s : State, (Issues s c.val .bgeu w x t) ∧ ((greg x (fRd w)).ult (greg x (fRs1 w)) = false)))))) ∧
    (∃ c : Fin 50, (∃ w : Word, (∃ x : CoreSt, (∃ t : State, (∃ s : State, (Issues s c.val .bgeu w x t) ∧ (¬((greg x (fRd w)).ult (greg x (fRs1 w)) = false))))))) ∧
    (∃ c : Fin 50, (∃ w : Word, (∃ x : CoreSt, (∃ t : State, (∃ s : State, Issues s c.val .jal w x t))))) ∧
    (∃ c : Fin 50, (∃ w : Word, (∃ x : CoreSt, (∃ t : State, (∃ s : State, Issues s c.val .jalr w x t))))) ∧
    (∃ c : Fin 50, (∃ w : Word, (∃ x : CoreSt, (∃ t : State, (∃ s : State, (Issues s c.val .rpt w x t) ∧ (x.rptFrom = false) ∧ (bit w 15 = false)))))) ∧
    (∃ c : Fin 50, (∃ w : Word, (∃ x : CoreSt, (∃ t : State, (∃ s : State, (Issues s c.val .rpt w x t) ∧ (x.rptFrom = false) ∧ (bit w 15 = true)))))) ∧
    (∃ c : Fin 50, (∃ w : Word, (∃ x : CoreSt, (∃ t : State, (∃ s : State, (Issues s c.val .rpt w x t) ∧ (x.rptFrom = true) ∧ (bit (csrHeld c.val x csrRPTC) 31 = true)))))) ∧
    (∃ c : Fin 50, (∃ w : Word, (∃ x : CoreSt, (∃ t : State, (∃ s : State, (Issues s c.val .rptu w x t) ∧ (x.rptFrom = false) ∧ (bit w 15 = false)))))) ∧
    (∃ c : Fin 50, (∃ w : Word, (∃ x : CoreSt, (∃ t : State, (∃ s : State, (Issues s c.val .rptu w x t) ∧ (x.rptFrom = false) ∧ (bit w 15 = true)))))) ∧
    (∃ c : Fin 50, (∃ w : Word, (∃ x : CoreSt, (∃ t : State, (∃ s : State, (Issues s c.val .rptu w x t) ∧ (x.rptFrom = true) ∧ (bit (csrHeld c.val x csrRPTC) 31 = true)))))) :=
  ⟨⟨5, 0x8064fffe, (bx (coreAtReg0 5 0x8064fffe 1) 5).1, (bx (coreAtReg0 5 0x8064fffe 1) 5).2, coreAtReg0 5 0x8064fffe 1, by decide⟩,
    ⟨5, 0x8064fffe, (bx (coreAtReg 5 0x8064fffe 1) 5).1, (bx (coreAtReg 5 0x8064fffe 1) 5).2, coreAtReg 5 0x8064fffe 1, by decide⟩,
    ⟨5, 0x8464fffe, (bx (coreAtReg 5 0x8464fffe 1) 5).1, (bx (coreAtReg 5 0x8464fffe 1) 5).2, coreAtReg 5 0x8464fffe 1, by decide⟩,
    ⟨5, 0x8464fffe, (bx (coreAtReg0 5 0x8464fffe 1) 5).1, (bx (coreAtReg0 5 0x8464fffe 1) 5).2, coreAtReg0 5 0x8464fffe 1, by decide⟩,
    ⟨5, 0x8864fffe, (bx (coreAtReg 5 0x8864fffe 1) 5).1, (bx (coreAtReg 5 0x8864fffe 1) 5).2, coreAtReg 5 0x8864fffe 1, by decide⟩,
    ⟨5, 0x8864fffe, (bx (coreAtReg0 5 0x8864fffe 1) 5).1, (bx (coreAtReg0 5 0x8864fffe 1) 5).2, coreAtReg0 5 0x8864fffe 1, by decide⟩,
    ⟨5, 0x8c64fffe, (bx (coreAtReg0 5 0x8c64fffe 1) 5).1, (bx (coreAtReg0 5 0x8c64fffe 1) 5).2, coreAtReg0 5 0x8c64fffe 1, by decide⟩,
    ⟨5, 0x8c64fffe, (bx (coreAtReg 5 0x8c64fffe 1) 5).1, (bx (coreAtReg 5 0x8c64fffe 1) 5).2, coreAtReg 5 0x8c64fffe 1, by decide⟩,
    ⟨5, 0x9064fffe, (bx (coreAtReg 5 0x9064fffe 1) 5).1, (bx (coreAtReg 5 0x9064fffe 1) 5).2, coreAtReg 5 0x9064fffe 1, by decide⟩,
    ⟨5, 0x9064fffe, (bx (coreAtReg0 5 0x9064fffe 1) 5).1, (bx (coreAtReg0 5 0x9064fffe 1) 5).2, coreAtReg0 5 0x9064fffe 1, by decide⟩,
    ⟨5, 0x9464fffe, (bx (coreAtReg0 5 0x9464fffe 1) 5).1, (bx (coreAtReg0 5 0x9464fffe 1) 5).2, coreAtReg0 5 0x9464fffe 1, by decide⟩,
    ⟨5, 0x9464fffe, (bx (coreAtReg 5 0x9464fffe 1) 5).1, (bx (coreAtReg 5 0x9464fffe 1) 5).2, coreAtReg 5 0x9464fffe 1, by decide⟩,
    ⟨5, 0xa3fffffe, (bx (coreAt 5 0xa3fffffe) 5).1, (bx (coreAt 5 0xa3fffffe) 5).2, coreAt 5 0xa3fffffe, by decide⟩,
    ⟨5, 0xa4640007, (bx (coreAt 5 0xa4640007) 5).1, (bx (coreAt 5 0xa4640007) 5).2, coreAt 5 0xa4640007, by decide⟩,
    ⟨5, 0xb0000005, (bx (coreAt 5 0xb0000005) 5).1, (bx (coreAt 5 0xb0000005) 5).2, coreAt 5 0xb0000005, by decide⟩,
    ⟨5, 0xb0048000, (bx (coreAt 5 0xb0048000) 5).1, (bx (coreAt 5 0xb0048000) 5).2, coreAt 5 0xb0048000, by decide⟩,
    ⟨5, 0xb0000005, (bx (coreMod (coreAt 5 0xb0000005) 5 fun y => { csrSet y csrRPTC 0x80000003 with rptFrom := true }) 5).1, (bx (coreMod (coreAt 5 0xb0000005) 5 fun y => { csrSet y csrRPTC 0x80000003 with rptFrom := true }) 5).2, coreMod (coreAt 5 0xb0000005) 5 fun y => { csrSet y csrRPTC 0x80000003 with rptFrom := true }, by decide⟩,
    ⟨5, 0xb4000005, (bx (coreAt 5 0xb4000005) 5).1, (bx (coreAt 5 0xb4000005) 5).2, coreAt 5 0xb4000005, by decide⟩,
    ⟨5, 0xb4048000, (bx (coreAt 5 0xb4048000) 5).1, (bx (coreAt 5 0xb4048000) 5).2, coreAt 5 0xb4048000, by decide⟩,
    ⟨5, 0xb4000005, (bx (coreMod (coreAt 5 0xb4000005) 5 fun y => { csrSet y csrRPTC 0x80000003 with rptFrom := true }) 5).1, (bx (coreMod (coreAt 5 0xb4000005) 5 fun y => { csrSet y csrRPTC 0x80000003 with rptFrom := true }) 5).2, coreMod (coreAt 5 0xb4000005) 5 fun y => { csrSet y csrRPTC 0x80000003 with rptFrom := true }, by decide⟩⟩

theorem test_meets_CoreWaitsAndEvents :
    (∃ c : Fin 50, (∃ w : Word, (∃ x : CoreSt, (∃ t : State, (∃ s : State, (Issues s c.val .wfe w x t) ∧ (wakeCond t c.val x = true)))))) ∧
    (∃ c : Fin 50, (∃ w : Word, (∃ x : CoreSt, (∃ t : State, (∃ s : State, (Issues s c.val .wfe w x t) ∧ (wakeCond t c.val x = false)))))) ∧
    (∃ c : Fin 50, (∃ w : Word, (∃ x : CoreSt, (∃ t : State, (∃ s : State, (Issues s c.val .wfet w x t) ∧ (dword (greg x (fRs2 w)) (greg x (fRs1 w)) ≤ coreTense t)))))) ∧
    (∃ c : Fin 50, (∃ w : Word, (∃ x : CoreSt, (∃ t : State, (∃ s : State, (Issues s c.val .wfet w x t) ∧ (wakeCond t c.val x = true) ∧ (¬(dword (greg x (fRs2 w)) (greg x (fRs1 w)) ≤ coreTense t))))))) ∧
    (∃ c : Fin 50, (∃ w : Word, (∃ x : CoreSt, (∃ t : State, (∃ s : State, (Issues s c.val .wfet w x t) ∧ (wakeCond t c.val x = false) ∧ (¬(dword (greg x (fRs2 w)) (greg x (fRs1 w)) ≤ coreTense t))))))) ∧
    (∃ c : Fin 50, (∃ w : Word, (∃ x : CoreSt, (∃ t : State, (∃ s : State, (Issues s c.val .waitt w x t) ∧ (dword (greg x (fRs2 w)) (greg x (fRs1 w)) ≤ coreTense t)))))) ∧
    (∃ c : Fin 50, (∃ w : Word, (∃ x : CoreSt, (∃ t : State, (∃ s : State, (Issues s c.val .waitt w x t) ∧ (¬(dword (greg x (fRs2 w)) (greg x (fRs1 w)) ≤ coreTense t))))))) ∧
    (∃ c : Fin 50, (∃ q : CoreWait, (∃ s : State, ((coreOf s c.val).wait = some q) ∧ ((coreOf s c.val).run = .wait) ∧ (coreUp s c.val = true) ∧ (q.kind ≠ 2) ∧ (wakeCond s c.val (landTo c.val (coreOf s c.val) ((coreOf s c.val).cyc + waited s c.val q)) = true)))) ∧
    (∃ c : Fin 50, (∃ q : CoreWait, (∃ s : State, ((coreOf s c.val).wait = some q) ∧ ((coreOf s c.val).run = .wait) ∧ (coreUp s c.val = true) ∧ (q.kind ≠ 0) ∧ (q.kind = 2 ∨ wakeCond s c.val (landTo c.val (coreOf s c.val) ((coreOf s c.val).cyc + waited s c.val q)) = false)))) ∧
    (∃ c : Fin 50, (∃ q : CoreWait, (∃ s : State, ((coreOf s c.val).wait = some q) ∧ ((coreOf s c.val).run = .wait) ∧ (q.kind = 0) ∧ (wakeCond s c.val (landTo c.val (coreOf s c.val) ((coreOf s c.val).cyc + waited s c.val q)) = false)))) ∧
    (∃ c : Fin 50, (∃ s : State, (coreOf s c.val).wait = none)) ∧
    (∃ c : Fin 50, (∃ w : Word, (∃ x : CoreSt, (∃ t : State, (∃ s : State, (Issues s c.val .sev w x t) ∧ (fld (greg x (fRs1 w)) 5 0 ≤ 47) ∧ (fld (greg x (fRs1 w)) 5 0 ≠ c.val) ∧ (engAlive t (fld (greg x (fRs1 w)) 5 0) = true)))))) ∧
    (∃ c : Fin 50, (∃ w : Word, (∃ x : CoreSt, (∃ t : State, (∃ s : State, (Issues s c.val .sev w x t) ∧ (47 < fld (greg x (fRs1 w)) 5 0 ∨ fld (greg x (fRs1 w)) 5 0 = c.val ∨ engAlive t (fld (greg x (fRs1 w)) 5 0) = false)))))) :=
  ⟨⟨5, 0xc4000000, (bx (setR (setR (coreAt 5 0xc4000000) (engKey 5 0xF3008) 0xFFFF) (engKey 5 0xF3000) 0x8000) 5).1, (bx (setR (setR (coreAt 5 0xc4000000) (engKey 5 0xF3008) 0xFFFF) (engKey 5 0xF3000) 0x8000) 5).2, setR (setR (coreAt 5 0xc4000000) (engKey 5 0xF3008) 0xFFFF) (engKey 5 0xF3000) 0x8000, by decide⟩,
    ⟨5, 0xc4000000, (bx (coreAt 5 0xc4000000) 5).1, (bx (coreAt 5 0xc4000000) 5).2, coreAt 5 0xc4000000, by decide⟩,
    ⟨5, 0xc4642801, (bx (coreAt 5 0xc4642801) 5).1, (bx (coreAt 5 0xc4642801) 5).2, coreAt 5 0xc4642801, by decide⟩,
    ⟨5, 0xc4642801, (bx (setR (setR (coreAtReg 5 0xc4642801 0x1000) (engKey 5 0xF3008) 0xFFFF) (engKey 5 0xF3000) 0x8000) 5).1, (bx (setR (setR (coreAtReg 5 0xc4642801 0x1000) (engKey 5 0xF3008) 0xFFFF) (engKey 5 0xF3000) 0x8000) 5).2, setR (setR (coreAtReg 5 0xc4642801 0x1000) (engKey 5 0xF3008) 0xFFFF) (engKey 5 0xF3000) 0x8000, by decide, by decide, not_reached (by decide) (by decide) (by decide)⟩,
    ⟨5, 0xc4642801, (bx (coreAtReg 5 0xc4642801 0x1000) 5).1, (bx (coreAtReg 5 0xc4642801 0x1000) 5).2, coreAtReg 5 0xc4642801 0x1000, by decide, by decide, not_reached (by decide) (by decide) (by decide)⟩,
    ⟨5, 0xc4042802, (bx (coreAt 5 0xc4042802) 5).1, (bx (coreAt 5 0xc4042802) 5).2, coreAt 5 0xc4042802, by decide⟩,
    ⟨5, 0xc4042802, (bx (coreAtReg 5 0xc4042802 0x1000) 5).1, (bx (coreAtReg 5 0xc4042802 0x1000) 5).2, coreAtReg 5 0xc4042802 0x1000, by decide, not_reached (by decide) (by decide) (by decide)⟩,
    ⟨5, ⟨0, 0, 0, 0, false⟩, setR (setR (waitState 0) (engKey 5 0xF3008) 0xFFFF) (engKey 5 0xF3000) 0x8000, by decide⟩,
    ⟨5, ⟨2, 0, 100, 0, false⟩, waitState 2, by decide⟩,
    ⟨5, ⟨0, 0, 0, 0, false⟩, waitState 0, by decide⟩,
    ⟨5, live, by decide⟩,
    ⟨5, 0xc40401c3, (bx (coreAtReg 5 0xc40401c3 47) 5).1, (bx (coreAtReg 5 0xc40401c3 47) 5).2, coreAtReg 5 0xc40401c3 47, by decide⟩,
    ⟨5, 0xc40401c3, (bx (coreAtReg 5 0xc40401c3 5) 5).1, (bx (coreAtReg 5 0xc40401c3 5) 5).2, coreAtReg 5 0xc40401c3 5, by decide⟩⟩

theorem test_meets_CoreControlRegisters :
    (∃ c : Fin 50, (∃ w : Word, (∃ x : CoreSt, (∃ t : State, (∃ s : State, (Issues s c.val .csrr w x t) ∧ (fCsr w ≠ 0x140) ∧ (fCsr w ≠ 0x010)))))) ∧
    (∃ c : Fin 50, (∃ w : Word, (∃ x : CoreSt, (∃ t : State, (∃ s : State, (Issues s c.val .csrr w x t) ∧ (fCsr w = 0x010)))))) ∧
    (∃ c : Fin 50, (∃ w : Word, (∃ k : Nat, (∃ x : CoreSt, (∃ t : State, (∃ s : State, (Issues s c.val .csrw w x t) ∧ (fCsr w ≠ 0x140) ∧ (fCsr w ≠ 0x010) ∧ (csrAcc c.val (fCsr w) = some (.rw k)))))))) ∧
    (∃ c : Fin 50, (∃ w : Word, (∃ k : Nat, (∃ x : CoreSt, (∃ t : State, (∃ s : State, (Issues s c.val .csrs w x t) ∧ (fCsr w ≠ 0x140) ∧ (fCsr w ≠ 0x010) ∧ (csrAcc c.val (fCsr w) = some (.rw k)))))))) ∧
    (∃ c : Fin 50, (∃ w : Word, (∃ k : Nat, (∃ x : CoreSt, (∃ t : State, (∃ s : State, (Issues s c.val .csrc w x t) ∧ (fCsr w ≠ 0x140) ∧ (fCsr w ≠ 0x010) ∧ (csrAcc c.val (fCsr w) = some (.rw k)))))))) ∧
    (∃ c : Fin 50, (∃ w : Word, (∃ x : CoreSt, (∃ t : State, (∃ s : State, (Issues s c.val .csrw w x t) ∧ (fCsr w = 0x140) ∧ (greg x (fRs1 w) = 0x5A5A#32)))))) ∧
    (∃ c : Fin 50, (∃ w : Word, (∃ x : CoreSt, (∃ t : State, (∃ s : State, (Issues s c.val .eret w x t) ∧ (c.val < 48)))))) ∧
    (∃ c : Fin 50, (∃ w : Word, (∃ x : CoreSt, (∃ t : State, (∃ s : State, (Issues s c.val .eret w x t) ∧ (48 ≤ c.val)))))) :=
  ⟨⟨5, 0xc0600000, (bx (coreAt 5 0xc0600000) 5).1, (bx (coreAt 5 0xc0600000) 5).2, coreAt 5 0xc0600000, by decide⟩,
    ⟨5, 0xc0600010, (bx (coreAt 5 0xc0600010) 5).1, (bx (coreAt 5 0xc0600010) 5).2, coreAt 5 0xc0600010, by decide⟩,
    ⟨5, 0xc0644005, 0xFFFFFFFC, (bx (coreAt 5 0xc0644005) 5).1, (bx (coreAt 5 0xc0644005) 5).2, coreAt 5 0xc0644005, by decide⟩,
    ⟨5, 0xc0648005, 0xFFFFFFFC, (bx (coreAt 5 0xc0648005) 5).1, (bx (coreAt 5 0xc0648005) 5).2, coreAt 5 0xc0648005, by decide⟩,
    ⟨5, 0xc064c005, 0xFFFFFFFC, (bx (coreAt 5 0xc064c005) 5).1, (bx (coreAt 5 0xc064c005) 5).2, coreAt 5 0xc064c005, by decide⟩,
    ⟨48, 0xc0644140, (bx (coreAtReg 48 0xc0644140 0x5A5A) 48).1, (bx (coreAtReg 48 0xc0644140 0x5A5A) 48).2, coreAtReg 48 0xc0644140 0x5A5A, by decide⟩,
    ⟨5, 0xc4000004, (bx (coreMod (coreAt 5 0xc4000004) 5 fun y => csrSet y csrSTATUS 6) 5).1, (bx (coreMod (coreAt 5 0xc4000004) 5 fun y => csrSet y csrSTATUS 6) 5).2, coreMod (coreAt 5 0xc4000004) 5 fun y => csrSet y csrSTATUS 6, by decide⟩,
    ⟨48, 0xc4000004, (bx (coreMod (coreAt 48 0xc4000004) 48 fun y => csrSet y csrSTATUS 14) 48).1, (bx (coreMod (coreAt 48 0xc4000004) 48 fun y => csrSet y csrSTATUS 14) 48).2, coreMod (coreAt 48 0xc4000004) 48 fun y => csrSet y csrSTATUS 14, by decide⟩⟩

theorem test_meets_CoreExceptions :
    (∃ c : Fin 50, (∃ o : HOp, (∃ i : Instr, (∃ w : Word, (∃ x : CoreSt, (∃ t : State, (∃ r : Raise, (∃ s : State, ((o, i) ∈ ([(.add, .h32Add c), (.sub, .h32Sub c), (.neg, .h32Neg c), (.and, .h32And c), (.or, .h32Or c), (.xor,
    .h32Xor c), (.andn, .h32Andn c), (.slt, .h32Slt c), (.sltu, .h32Sltu c), (.sll, .h32Sll c), (.srl,
    .h32Srl c), (.sra, .h32Sra c), (.clz, .h32Clz c), (.sextb, .h32Sextb c), (.sexth, .h32Sexth c),
    (.addi, .h32Addi c), (.andi, .h32Andi c), (.ori, .h32Ori c), (.xori, .h32Xori c), (.slti, .h32Slti
    c), (.sltiu, .h32Sltiu c), (.lui, .h32Lui c), (.slli, .h32Slli c), (.srli, .h32Srli c), (.srai,
    .h32Srai c), (.mul, .h32Mul c), (.mulh, .h32Mulh c), (.mulhu, .h32Mulhu c), (.div, .h32Div c),
    (.divu, .h32Divu c), (.rem, .h32Rem c), (.remu, .h32Remu c), (.lw, .h32Lw c), (.lh, .h32Lh c),
    (.lhu, .h32Lhu c), (.lb, .h32Lb c), (.lbu, .h32Lbu c), (.lwpi, .h32Lwpi c), (.sw, .h32Sw c), (.sh,
    .h32Sh c), (.sb, .h32Sb c), (.swpi, .h32Swpi c), (.beq, .h32Beq c), (.bne, .h32Bne c), (.blt,
    .h32Blt c), (.bge, .h32Bge c), (.bltu, .h32Bltu c), (.bgeu, .h32Bgeu c), (.jal, .h32Jal c), (.jalr,
    .h32Jalr c), (.rpt, .h32Rpt c), (.rptu, .h32Rptu c), (.wfe, .h32Wfe c), (.wfet, .h32Wfet c),
    (.waitt, .h32Waitt c), (.sev, .h32Sev c), (.eret, .h32Eret c), (.ecall, .h32Ecall c), (.ebreak,
    .h32Ebreak c), (.csrr, .h32Csrr c), (.csrw, .h32Csrw c), (.csrs, .h32Csrs c), (.csrc, .h32Csrc c)] : List (HOp × Instr))) ∧ (Trips s c.val o w x t r))))))))) ∧
    (∃ c : Fin 50, (∃ o : HOp, (∃ i : Instr, (∃ s : State, ((o, i) ∈ ([(.add, .h32Add c), (.sub, .h32Sub c), (.neg, .h32Neg c), (.and, .h32And c), (.or, .h32Or c), (.xor,
    .h32Xor c), (.andn, .h32Andn c), (.slt, .h32Slt c), (.sltu, .h32Sltu c), (.sll, .h32Sll c), (.srl,
    .h32Srl c), (.sra, .h32Sra c), (.clz, .h32Clz c), (.sextb, .h32Sextb c), (.sexth, .h32Sexth c),
    (.addi, .h32Addi c), (.andi, .h32Andi c), (.ori, .h32Ori c), (.xori, .h32Xori c), (.slti, .h32Slti
    c), (.sltiu, .h32Sltiu c), (.lui, .h32Lui c), (.slli, .h32Slli c), (.srli, .h32Srli c), (.srai,
    .h32Srai c), (.mul, .h32Mul c), (.mulh, .h32Mulh c), (.mulhu, .h32Mulhu c), (.div, .h32Div c),
    (.divu, .h32Divu c), (.rem, .h32Rem c), (.remu, .h32Remu c), (.lw, .h32Lw c), (.lh, .h32Lh c),
    (.lhu, .h32Lhu c), (.lb, .h32Lb c), (.lbu, .h32Lbu c), (.lwpi, .h32Lwpi c), (.sw, .h32Sw c), (.sh,
    .h32Sh c), (.sb, .h32Sb c), (.swpi, .h32Swpi c), (.beq, .h32Beq c), (.bne, .h32Bne c), (.blt,
    .h32Blt c), (.bge, .h32Bge c), (.bltu, .h32Bltu c), (.bgeu, .h32Bgeu c), (.jal, .h32Jal c), (.jalr,
    .h32Jalr c), (.rpt, .h32Rpt c), (.rptu, .h32Rptu c), (.wfe, .h32Wfe c), (.wfet, .h32Wfet c),
    (.waitt, .h32Waitt c), (.sev, .h32Sev c), (.eret, .h32Eret c), (.ecall, .h32Ecall c), (.ebreak,
    .h32Ebreak c), (.csrr, .h32Csrr c), (.csrw, .h32Csrw c), (.csrs, .h32Csrs c), (.csrc, .h32Csrc c)] : List (HOp × Instr))) ∧ (atBoundary s c.val = none))))) ∧
    (∃ c : Fin 50, (∃ w : Word, (∃ x : CoreSt, (∃ t : State, (∃ s : State, (atBoundary s c.val = some (x, t)) ∧ (fetchWord t c.val x x.pc = .inr w) ∧ (opOf w = some .ecall) ∧ (x.delay = none)))))) ∧
    (∃ c : Fin 50, (∃ w : Word, (∃ x : CoreSt, (∃ t : State, (∃ s : State, (atBoundary s c.val = some (x, t)) ∧ (fetchWord t c.val x x.pc = .inr w) ∧ (opOf w = some .ebreak) ∧ (x.delay = none) ∧ (haltsFor t c.val = false)))))) ∧
    (∃ c : Fin 50, (∃ w : Word, (∃ x : CoreSt, (∃ t : State, (∃ s : State, Issues s c.val .ebreak w x t))))) ∧
    (∃ c : Fin 50, (∃ r : Raise, (∃ x : CoreSt, (∃ t : State, (∃ s : State, (atBoundary s c.val = some (x, t)) ∧ (fetchWord t c.val x x.pc = .inl r)))))) ∧
    (∃ c : Fin 50, (∃ w : Word, (∃ x : CoreSt, (∃ t : State, (∃ s : State, (atBoundary s c.val = some (x, t)) ∧ (fetchWord t c.val x x.pc = .inr w) ∧ (opOf w = none)))))) ∧
    (∃ c : Fin 50, (∃ x : CoreSt, (∃ t : State, (∃ s : State, (48 ≤ c.val) ∧ (atBoundary s c.val = some (x, t)))))) ∧
    (∃ c : Fin 50, (∃ x : CoreSt, (statB c.val x 2 = false) ∧ (x.land = []) ∧ (x.rpt = none) ∧ (x.delay = none))) ∧
    (∃ c : Fin 50, (∃ x : CoreSt, statB c.val x 2 = true)) ∧
    (∃ c : Fin 50, (∃ i : Nat, (∃ s : State, (coreUp s c.val = true) ∧ ((coreOf s c.val).run = .run) ∧ (interruptDue s c.val (landTo c.val (coreOf s c.val) (coreOf s c.val).cyc) = some i)))) ∧
    (∃ c : Fin 50, (∃ q : CoreWait, (∃ i : Nat, (∃ s : State, (coreUp s c.val = true) ∧ ((coreOf s c.val).run = .wait) ∧ ((coreOf s c.val).wait = some q) ∧ (pendingLine s c.val (cutWait s c.val q) = some i))))) ∧
    (∃ c : Fin 50, (∃ s : State, ((coreOf s c.val).run = .run) ∧ (interruptDue s c.val (landTo c.val (coreOf s c.val) (coreOf s c.val).cyc) = none))) ∧
    (∃ c : Fin 50, (∃ a : Word, (∃ r : List Word, (∃ s : State, ((coreOf s c.val).async = a :: r) ∧ ((coreOf s c.val).run = .run) ∧ (coreUp s c.val = true))))) ∧
    (∃ c : Fin 50, (∃ s : State, (coreOf s c.val).async = [] ∨ (coreOf s c.val).run ≠ .run ∨ coreUp s c.val = false)) :=
  ⟨⟨5, .ecall, .h32Ecall 5, 0xc4000005, (bx (coreAt 5 0xc4000005) 5).1, (bx (coreAt 5 0xc4000005) 5).2, (6, 0), coreAt 5 0xc4000005, by decide⟩,
    ⟨5, .add, .h32Add 5, live, by decide⟩,
    ⟨49, 0xc4000005, (bx (coreAt 49 0xc4000005) 49).1, (bx (coreAt 49 0xc4000005) 49).2, coreAt 49 0xc4000005, by decide⟩,
    ⟨49, 0xc4000006, (bx (coreAt 49 0xc4000006) 49).1, (bx (coreAt 49 0xc4000006) 49).2, coreAt 49 0xc4000006, by decide⟩,
    ⟨5, 0xc4000006, (bx (debugOpen (coreAt 5 0xc4000006)) 5).1, (bx (debugOpen (coreAt 5 0xc4000006)) 5).2, debugOpen (coreAt 5 0xc4000006), by decide⟩,
    ⟨5, (2, 0x10000), (bx (coreMod (coreAt 5 0) 5 fun y => { y with pc := 0x10000 }) 5).1, (bx (coreMod (coreAt 5 0) 5 fun y => { y with pc := 0x10000 }) 5).2, coreMod (coreAt 5 0) 5 fun y => { y with pc := 0x10000 }, by decide⟩,
    ⟨5, 0xffffffff, (bx (coreAt 5 0xFFFFFFFF) 5).1, (bx (coreAt 5 0xFFFFFFFF) 5).2, coreAt 5 0xFFFFFFFF, by decide⟩,
    ⟨48, (bx (coreAt 48 0) 48).1, (bx (coreAt 48 0) 48).2, coreAt 48 0, by decide⟩,
    ⟨5, CoreSt.init, by decide⟩,
    ⟨5, csrSet CoreSt.init csrSTATUS 4, by decide⟩,
    ⟨5, 15, intState .run, by decide⟩,
    ⟨5, ⟨0, 0, 0, 0, false⟩, 15, intState .wait, by decide⟩,
    ⟨5, coreAt 5 0, by decide⟩,
    ⟨49, 8, [], coreMod (coreAt 49 0) 49 fun y => { y with async := [8] }, by decide⟩,
    ⟨49, live, by decide⟩⟩

theorem test_meets_BankHandOver :
    (∃ m : Master, (∃ b : Fin 512, (∃ v : Word, (∃ s : State, (MayWrite s m (BNK_BANK_CTRL b.val)) ∧ (b.val < 496) ∧ (fld v 27 24 < 7) ∧ (fld v 9 8 = 0) ∧ (bankState s b.val = 0) ∧ (fld v 27 24 ≠ getF s (BNK_BANK_CTRL b.val) 27 24 ∨ fld v 21 16 ≠ getF s (BNK_BANK_CTRL b.val) 21 16))))) ∧
    (∃ m : Master, (∃ b : Fin 512, (∃ v : Word, (∃ s : State, (MayWrite s m (BNK_BANK_CTRL b.val)) ∧ (b.val < 496) ∧ (fld v 27 24 < 7) ∧ (fld v 9 8 = 0) ∧ (bankState s b.val = 0) ∧ (fld v 27 24 = getF s (BNK_BANK_CTRL b.val) 27 24) ∧ (fld v 21 16 = getF s (BNK_BANK_CTRL b.val) 21 16))))) ∧
    (∃ m : Master, (∃ b : Fin 512, (∃ s : State, (MayWrite s m (BNK_BANK_CTRL b.val)) ∧ (496 ≤ b.val) ∧ (bankState s b.val = 0)))) ∧
    (∃ m : Master, (∃ b : Fin 512, (∃ v : Word, (∃ o : Word, (∃ s : State, (MayWrite s m (BNK_BANK_CTRL b.val)) ∧ (b.val < 496) ∧ (fld v 27 24 < 7) ∧ (fld v 9 8 = 0) ∧ (bankState s b.val ≠ 0) ∧ (sfind s.bnk.old b.val = some o) ∧ (fld v 27 24 ≠ getF s (BNK_BANK_CTRL b.val) 27 24) ∧ (fld v 27 24 ≠ fld o 27 24)))))) ∧
    (∃ b : Fin 512, (∃ s : State, (bankState s b.val = 1) ∧ (drained s b.val = true))) ∧
    (∃ b : Fin 512, (∃ s : State, bankState s b.val ≠ 1 ∨ drained s b.val = false)) ∧
    (∃ b : Fin 512, (∃ s : State, bankState s b.val = 2)) ∧
    (∃ b : Fin 512, (∃ s : State, bankState s b.val ≠ 2)) ∧
    (∃ b : Fin 512, (∃ s : State, (∃ a : Nat, (bankState s b.val = 2) ∧ (bankLo b.val ≤ a) ∧ (a < bankLo (b.val + 1))))) ∧
    (∃ m : Master, (∃ b : Fin 512, (∃ s : State, MayWrite s m (BNK_BANK_CTRL b.val)))) ∧
    (∃ m : Master, (∃ b : Fin 512, (∃ s : State, (MayWrite s m (BNK_BANK_CTRL b.val)) ∧ (b.val < 496) ∧ (bankState s b.val = 0) ∧ (bankPwr s b.val = 0) ∧ (bankKind s b.val ≠ kSwitch) ∧ (getF s (BNK_BANK_CTRL b.val) 27 24 < 7)))) :=
  ⟨⟨mSSP, 495, 0x02050000, live, by decide⟩,
    ⟨mSSP, 495, setBit (getR live (BNK_BANK_CTRL 495)) 1 true, live, by decide⟩,
    ⟨mSSP, 511, live, by decide⟩,
    ⟨mSSP, 495, 0x03000000, 0, startHandOver (setR live (BNK_BANK_CTRL 495) 0) 495 0x02050000, by decide⟩,
    ⟨495, startHandOver (setR live (BNK_BANK_CTRL 495) 0) 495 0x02050000, by decide⟩,
    ⟨495, live, by decide⟩,
    ⟨495, putBankState live 495 2, by decide⟩,
    ⟨495, live, by decide⟩,
    ⟨511, putBankState live 511 2, 0x07FFFFFF, by decide⟩,
    ⟨mSSP, 495, live, by decide⟩,
    ⟨mSSP, 495, setR live (BNK_BANK_CTRL 495) 0x02050000, by decide⟩⟩

theorem test_meets_BankErrorsAndRepair :
    (∃ m : Master, (∃ v : Word, (∃ p : Nat, (∃ s : State, (MayWrite s m BNK_CMD) ∧ (fld v 25 16 < 512) ∧ (bankKind s (fld v 25 16) = kFree) ∧ (bankState s (fld v 25 16) = 0) ∧ (freeSpare s = some p))))) ∧
    (∃ m : Master, (∃ v : Word, (∃ s : State, (MayWrite s m BNK_CMD) ∧ (fld v 25 16 < 512) ∧ (bankKind s (fld v 25 16) ≠ kFree ∨ bankState s (fld v 25 16) ≠ 0)))) ∧
    (∃ m : Master, (∃ v : Word, (∃ s : State, (MayWrite s m BNK_CMD) ∧ (fld v 25 16 < 512) ∧ (bankKind s (fld v 25 16) = kFree) ∧ (bankState s (fld v 25 16) = 0) ∧ (freeSpare s = none)))) ∧
    (∃ m : Master, (∃ s : State, MayWrite s m BNK_CMD)) ∧
    (∃ m : Master, (∃ v : Word, (∃ s : State, (MayWrite s m BNK_CMD) ∧ (512 ≤ fld v 25 16)))) ∧
    (∃ b : Fin 512, (∃ row : Fin 8192, (∃ s : State, (bankPwr s b.val = 0) ∧ (¬(b.val = 511 ∧ row.val = 8191))))) ∧
    (∃ b : Fin 512, (∃ row : Fin 8192, (∃ s : State, (bankPwr s b.val = 0) ∧ (¬(b.val = 511 ∧ row.val = 8191))))) ∧
    (∃ b : Fin 512, (∃ row : Fin 8192, (∃ s : State, (bankPwr s b.val = 0) ∧ (¬(b.val = 511 ∧ row.val = 8191))))) ∧
    (∃ s : State, bankPwr s 511 = 0) ∧
    (∃ b : Fin 512, (∃ row : Fin 8192, (∃ s : State, (bankPwr s b.val = 0) ∧ (¬(b.val = 511 ∧ row.val = 8191))))) ∧
    (∃ b : Fin 512, (∃ s : State, bankPwr s b.val ≠ 0)) ∧
    (∃ a : Word, (inShared a.toNat 1 = true) ∧ (496 ≤ bankOf a.toNat)) ∧
    (∃ a : Word, inShared a.toNat 1 = false ∨ bankOf a.toNat < 496) ∧
    (∃ m : Master, (∃ a : Word, (∃ w : Bool, (∃ u : State, (∃ q : FabStat, (∃ s : State, (fabJudge s m a.toNat 1 w false = (u, q)) ∧ (q ≠ .ok))))))) ∧
    (∃ m : Master, (∃ a : Word, (∃ w : Bool, (∃ u : State, (∃ s : State, fabJudge s m a.toNat 1 w false = (u, .ok)))))) ∧
    (∃ m : Master, (∃ s : State, MayRead s m BNK_DENY_COUNT)) :=
  ⟨⟨mSSP, 0x01EF0000, 512, setR live (BNK_BANK_CTRL 495) 0, by decide⟩,
    ⟨mSSP, 0x01EF0000, setR live (BNK_BANK_CTRL 495) 0x02050000, by decide⟩,
    ⟨mSSP, 0x01EF0000, (List.range 16).foldl (fun t i => setR t (BNK_PHYS_word_1 (512 + i)) 0x80000000) (setR live (BNK_BANK_CTRL 495) 0), by decide⟩,
    ⟨mSSP, live, by decide⟩,
    ⟨mSSP, 0x02000000, live, by decide⟩,
    ⟨0, 8191, live, by decide⟩,
    ⟨0, 8191, live, by decide⟩,
    ⟨511, 8190, live, by decide⟩,
    ⟨live, by decide⟩,
    ⟨0, 8191, live, by decide⟩,
    ⟨495, putBankPwr live 495 1, by decide⟩,
    ⟨0x07FFFFF0, by decide⟩,
    ⟨0x04000000, by decide⟩,
    ⟨mHost, 0, true, (fabJudge live mHost 0 1 true false).1, (fabJudge live mHost 0 1 true false).2, live, by decide⟩,
    ⟨13, 0x04000000, true, setR live (BNK_BANK_CTRL 0) 0x02050000, setR live (BNK_BANK_CTRL 0) 0x02050000, by decide⟩,
    ⟨mHost, live, by decide⟩⟩

theorem test_meets_HostRings :
    (∃ f : HostFetch, (∃ r : Nat, (∃ s : State, (hifOn s = true) ∧ (accepting s = true) ∧ (txNext s = some r) ∧ (f ≠ .descErr)))) ∧
    (∃ d : List Byte, (∃ f : HostFetch, (∃ r : Nat, (∃ s : State, (hifOn s = true) ∧ (accepting s = true) ∧ (txNext s = some r) ∧ (f = .ok) ∧ (txDescOk (slice d 0 32) = true) ∧ ((leAt (slice d 0 32) 10 1).testBit 2 = false))))) ∧
    (∃ d : List Byte, (∃ f : HostFetch, (∃ r : Nat, (∃ s : State, (hifOn s = true) ∧ (accepting s = true) ∧ (txNext s = some r) ∧ (f ≠ .descErr) ∧ (txDescOk (slice d 0 32) = false))))) ∧
    (∃ r : Nat, (∃ s : State, (hifOn s = true) ∧ (accepting s = true) ∧ (txNext s = some r))) ∧
    (∃ s : State, hifOn s = false ∨ accepting s = false ∨ txNext s = none) ∧
    (∃ s : State, (s.sw.sink.find? fun e => decide (e.port = 208)) = none) ∧
    (∃ e : SinkEnt, (∃ fr : Frame, (∃ q : Nat, (∃ s : State, ((s.sw.sink.find? fun e => decide (e.port = 208)) = some e) ∧ (frameOf s e.fid = some fr) ∧ (rxRun s fr = true) ∧ (exitFault fr e.rf = some q))))) ∧
    (∃ l : List (List Byte), (∃ e : SinkEnt, (∃ fr : Frame, (∃ x : State × Bool × List Byte, (∃ s : State, ((s.sw.sink.find? fun e => decide (e.port = 208)) = some e) ∧ (frameOf s e.fid = some fr) ∧ (rxRun s fr = true) ∧ (exitFault fr e.rf = none) ∧ ((ringSt s (rxRingOf s fr)).part = none) ∧ (rxFill s (rxRingOf s fr) l false (headBytes s fr ++ delivered s 208 fr) = x) ∧ (x.2.2 = [])))))) ∧
    (∃ l : List (List Byte), (∃ e : SinkEnt, (∃ fr : Frame, (∃ x : State × Bool × List Byte, (∃ s : State, ((s.sw.sink.find? fun e => decide (e.port = 208)) = some e) ∧ (frameOf s e.fid = some fr) ∧ (rxRun s fr = true) ∧ (exitFault fr e.rf = none) ∧ ((ringSt s (rxRingOf s fr)).part = none) ∧ (rxFill s (rxRingOf s fr) l false (headBytes s fr ++ delivered s 208 fr) = x) ∧ (x.2.2 ≠ [])))))) ∧
    (∃ e : SinkEnt, (∃ fr : Frame, (∃ s : State, ((s.sw.sink.find? fun e => decide (e.port = 208)) = some e) ∧ (frameOf s e.fid = some fr) ∧ (rxRun s fr = false)))) ∧
    (∃ m : Master, (∃ r : Fin 32, (∃ s : State, MayWrite s m (rgTAIL r.val)))) ∧
    (∃ m : Master, (∃ r : Fin 32, (∃ s : State, (MayWrite s m (rgCTRL r.val)) ∧ (getB s (rgCTRL r.val) 0 = false)))) ∧
    (∃ m : Master, (∃ r : Fin 32, (∃ s : State, (MayWrite s m (rgCTRL r.val)) ∧ (getB s (rgCTRL r.val) 0 = true) ∧ ((ringSt s r.val).part = none)))) ∧
    (∃ m : Master, (∃ r : Fin 32, (∃ s : State, (MayWrite s m (rgCTRL r.val)) ∧ (getB s (rgCTRL r.val) 0 = true) ∧ ((ringSt s r.val).part ≠ none)))) ∧
    (∃ r : Fin 32, (∃ s : State, ((ringSt s r.val).recs ≠ 0) ∧ (getB s (rgIRQ r.val) 0 = false))) ∧
    (∃ r : Fin 32, (∃ s : State, (ringSt s r.val).recs = 0 ∨ getB s (rgIRQ r.val) 0 = true)) :=
  ⟨⟨.ok, 15, hostUp, by decide⟩,
    ⟨hostDesc, .ok, 15, hostUp, by decide⟩,
    ⟨[], .ok, 15, hostUp, by decide⟩,
    ⟨15, hostUp, by decide⟩,
    ⟨live, by decide⟩,
    ⟨live, by decide⟩,
    ⟨⟨208, 0, .poison⟩, sentFrame, dropPoison, hostRxUp .poison, by decide⟩,
    ⟨[rxDesc], ⟨208, 0, .clean⟩, sentFrame, rxFill (hostRxUp .clean) 16 [rxDesc] false (headBytes (hostRxUp .clean) sentFrame ++ delivered (hostRxUp .clean) 208 sentFrame), hostRxUp .clean, by decide⟩,
    ⟨[], ⟨208, 0, .clean⟩, sentFrame, rxFill (hostRxUp .clean) 16 [] false (headBytes (hostRxUp .clean) sentFrame ++ delivered (hostRxUp .clean) 208 sentFrame), hostRxUp .clean, by decide⟩,
    ⟨⟨208, 0, .clean⟩, sentFrame, { live with sw := (hostRxUp .clean).sw }, by decide⟩,
    ⟨mSSP, 31, live, by decide⟩,
    ⟨mSSP, 31, live, by decide⟩,
    ⟨mSSP, 15, hostUp, by decide⟩,
    ⟨mSSP, 15, ringMod hostUp 15 fun x => { x with part := some (false, []) }, by decide⟩,
    ⟨31, ringMod live 31 fun x => { x with recs := 1 }, by decide⟩,
    ⟨31, live, by decide⟩⟩

theorem test_meets_HostLinkAndResets :
    (∃ r : Fin 32, (∃ k : Nat, (∃ s : State, (getB s (rgCTRL r.val) 0 = true) ∧ (0 < k) ∧ (k ≤ (getF s (rgTAIL r.val) 11 0 + ringSize s r.val - getF s (rgHEAD r.val) 11 0) % ringSize s r.val) ∧ (ringSize s r.val ≠ 0)))) ∧
    (∃ w : BitVec 3, (∃ v : BitVec 2, (∃ s : State, (s.hif.cfgUp = true) ∧ (w = 1 ∨ w = 2 ∨ w = 4) ∧ (v ≠ 0)))) ∧
    (∃ w : BitVec 3, (∃ v : BitVec 2, (∃ s : State, s.hif.cfgUp = false ∨ (w ≠ 1 ∧ w ≠ 2 ∧ w ≠ 4) ∨ v = 0))) :=
  ⟨⟨15, 1, hostUp, by decide⟩,
    ⟨4, 3, { live with hif := { live.hif with cfgUp := true } }, by decide⟩,
    ⟨3, 1, live, by decide⟩⟩

theorem test_meets_TimeBases :
    (∃ s : State, getB s TNS_REF_STATUS 1 = true) ∧
    (∃ s : State, getB s TNS_REF_STATUS 1 = false) ∧
    (∃ s : State, (getB s TNS_REF_STATUS 1 = true) ∧ (getB s TNS_REF_CTRL 0 = true)) ∧
    (∃ s : State, getB s TNS_REF_STATUS 1 = false) ∧
    (∃ s : State, getB s TNS_REF_STATUS 1 = true) ∧
    (∃ m : Master, (∃ s : State, MayWrite s m TNS_REF_CTRL)) ∧
    (∃ m : Master, (∃ b : Fin 4, (∃ s : State, (MayWrite s m (TNS_RATE b.val)) ∧ (tbProtected s m b.val = false)))) ∧
    (∃ m : Master, (∃ b : Fin 4, (∃ s : State, (MayWrite s m (TNS_RATE b.val)) ∧ (MayWrite s m (TNS_ADJ_CMD b.val)) ∧ (tbProtected s m b.val = true)))) ∧
    (∃ m : Master, (∃ b : Fin 4, (∃ s : State, (MayWrite s m (TNS_ADJ_CMD b.val)) ∧ (tbProtected s m b.val = false) ∧ (getF s (TNS_ARG_NS b.val) 29 0 ≤ 999999999)))) ∧
    (∃ m : Master, (∃ b : Fin 4, (∃ s : State, (MayWrite s m (TNS_ADJ_CMD b.val)) ∧ (tbProtected s m b.val = false) ∧ (getF s (TNS_ARG_NS b.val) 29 0 ≤ 999999999)))) ∧
    (∃ m : Master, (∃ b : Fin 4, (∃ s : State, (MayWrite s m (TNS_ADJ_CMD b.val)) ∧ (tbProtected s m b.val = false) ∧ (999999999 < getF s (TNS_ARG_NS b.val) 29 0)))) ∧
    (∃ m : Master, (∃ b : Fin 4, (∃ s : State, (MayWrite s m (TNS_ADJ_CMD b.val)) ∧ (tbProtected s m b.val = false)))) ∧
    (∃ m : Master, (∃ b : Fin 4, (∃ s : State, (MayWrite s m (TNS_ADJ_CMD b.val)) ∧ (tbProtected s m b.val = false)))) ∧
    (∃ b : Fin 4, (∃ s : State, slewStep (tbOf s b.val).ppm ≠ 0)) ∧
    (∃ b : Fin 4, (∃ s : State, slewStep (tbOf s b.val).ppm = 0)) ∧
    (∃ b : Fin 4, (∃ s : State, (getF s (TNS_TB_CTRL b.val) 15 0 ≠ 0) ∧ (tbValid s b.val = true))) ∧
    (∃ b : Fin 4, (∃ s : State, getF s (TNS_TB_CTRL b.val) 15 0 = 0 ∨ tbValid s b.val = false)) ∧
    (∃ m : Master, (∃ s : State, MayWrite s m TNS_SNAP)) ∧
    (∃ m : Master, (∃ b : Fin 4, (∃ s : State, MayRead s m (TNS_TB_NS b.val)))) :=
  ⟨⟨putB live TNS_REF_STATUS 1 true, by decide⟩,
    ⟨putB live TNS_REF_STATUS 1 false, by decide⟩,
    ⟨putB (putB live TNS_REF_STATUS 1 true) TNS_REF_CTRL 0 true, by decide⟩,
    ⟨putB live TNS_REF_STATUS 1 false, by decide⟩,
    ⟨putB live TNS_REF_STATUS 1 true, by decide⟩,
    ⟨mSSP, live, by decide⟩,
    ⟨mSSP, 3, live, by decide⟩,
    ⟨mHost, 3, putB (setR live (SEC_WPOL (blkCode .TNS)) 1) (TNS_TB_CTRL 3) 30 true, by decide⟩,
    ⟨mSSP, 3, live, by decide⟩,
    ⟨mSSP, 3, live, by decide⟩,
    ⟨mSSP, 3, setR live (TNS_ARG_NS 3) 1000000000, by decide⟩,
    ⟨mSSP, 3, live, by decide⟩,
    ⟨mSSP, 3, live, by decide⟩,
    ⟨3, tbSet live 3 { tbOf live 3 with ppm := 1 }, by decide⟩,
    ⟨3, tbSet live 3 { tbOf live 3 with ppm := 0 }, by decide⟩,
    ⟨0, putF timeValid (TNS_TB_CTRL 0) 15 0 1, by decide⟩,
    ⟨3, live, by decide⟩,
    ⟨mSSP, live, by decide⟩,
    ⟨mHost, 3, live, by decide⟩⟩

theorem test_meets_CapturesAndOutputs :
    (∃ i : Fin 10, (∃ up : Bool, (∃ s : State, (capTakes s i.val up = true) ∧ ((capsOf s i.val).length < 4)))) ∧
    (∃ i : Fin 10, (∃ up : Bool, (∃ s : State, (capTakes s i.val up = true) ∧ (4 ≤ (capsOf s i.val).length)))) ∧
    (∃ i : Fin 10, (∃ up : Bool, (∃ s : State, capTakes s i.val up = false))) ∧
    (∃ m : Master, (∃ i : Fin 10, (∃ r : CapRec, (∃ l : List CapRec, (∃ s : State, (MayRead s m (TNS_CAP_NS i.val)) ∧ (capsOf s i.val = r :: l)))))) ∧
    (∃ m : Master, (∃ i : Fin 10, (∃ s : State, (MayRead s m (TNS_CAP_NS i.val)) ∧ (capsOf s i.val = [])))) ∧
    (∃ m : Master, (∃ s : State, MayRead s m TNS_TSR_LOST)) ∧
    (∃ m : Master, (∃ i : Fin 8, (∃ v : Word, (∃ s : State, (MayWrite s m (TNS_OUT_CTRL i.val)) ∧ (fld v 25 24 ≠ 3) ∧ (getB s (TNS_OUT_CTRL i.val) 31 = false))))) ∧
    (∃ m : Master, (∃ i : Fin 8, (∃ v : Word, (∃ s : State, (MayWrite s m (TNS_OUT_CTRL i.val)) ∧ (fld v 25 24 = 3) ∧ (getB s (TNS_OUT_CTRL i.val) 31 = false))))) ∧
    (∃ m : Master, (∃ i : Fin 8, (∃ v : Word, (∃ s : State, (MayWrite s m (TNS_OUT_CTRL i.val)) ∧ (fld v 25 24 ≠ 3) ∧ (getB s (TNS_OUT_CTRL i.val) 31 = true))))) ∧
    (∃ i : Fin 8, (∃ e : Nat, (∃ s : State, (getB s (BLK_CTRL TNS) 0 = true) ∧ (getB s (TNS_OUT_CTRL i.val) 31 = true) ∧ ((toutOf s i.val).next = some e)))) ∧
    (∃ i : Fin 8, (∃ s : State, getB s (BLK_CTRL TNS) 0 = false ∨ getB s (TNS_OUT_CTRL i.val) 31 = false ∨ (toutOf s i.val).next = none)) ∧
    (∃ i : Fin 8, (∃ w : Nat, (∃ s : State, (toutOf s i.val).pulse = some w))) ∧
    (∃ i : Fin 8, (∃ s : State, (toutOf s i.val).pulse = none)) ∧
    (∃ j : Fin 2, (∃ s : State, (getB s (BLK_CTRL TNS) 0 = true) ∧ (getB s (TNS_PPS_CTRL j.val) 31 = true))) ∧
    (∃ j : Fin 2, (∃ s : State, getB s (BLK_CTRL TNS) 0 = false ∨ getB s (TNS_PPS_CTRL j.val) 31 = false)) :=
  ⟨⟨9, true, setR (setR live (BLK_CTRL TNS) 1) (TNS_CAP_CTRL 9) 0x80000000, by decide⟩,
    ⟨9, true, capsSet (setR (setR live (BLK_CTRL TNS) 1) (TNS_CAP_CTRL 9) 0x80000000) 9 [capRec, capRec, capRec, capRec], by decide⟩,
    ⟨9, false, live, by decide⟩,
    ⟨mHost, 9, capRec, [], capsSet live 9 [capRec], by decide⟩,
    ⟨mHost, 9, live, by decide⟩,
    ⟨mSSP, live, by decide⟩,
    ⟨mSSP, 7, 0x80000000, live, by decide⟩,
    ⟨mSSP, 7, 0x83000000, live, by decide⟩,
    ⟨mSSP, 7, 0x80000000, setR live (TNS_OUT_CTRL 7) 0x80000000, by decide⟩,
    ⟨7, 9, toutSet (setR (setR live (BLK_CTRL TNS) 1) (TNS_OUT_CTRL 7) 0x80000000) 7 { OutSt.init with next := some 9 }, by decide⟩,
    ⟨7, live, by decide⟩,
    ⟨7, 9, toutSet live 7 { OutSt.init with pulse := some 9 }, by decide⟩,
    ⟨7, live, by decide⟩,
    ⟨1, setR (setR live (BLK_CTRL TNS) 1) (TNS_PPS_CTRL 1) 0x80000000, by decide⟩,
    ⟨1, live, by decide⟩⟩

theorem test_meets_DeviceStateCommands :
    (∃ m : Master, (∃ s : State, (MayWrite s m PWR_STATE_REQ) ∧ (pwrBusy s = false) ∧ (devState s ≠ 0))) ∧
    (∃ m : Master, (∃ s : State, (MayWrite s m PWR_STATE_REQ) ∧ (pwrBusy s = true))) ∧
    (∃ m : Master, (∃ now : BitVec 14, (∃ s : State, (MayWrite s m PWR_STATE_REQ) ∧ (pwrBusy s = false) ∧ (devState s = 0) ∧ (declineOf s 1 now.toNat = none)))) ∧
    (∃ m : Master, (∃ now : BitVec 14, (∃ s : State, (MayWrite s m PWR_STATE_REQ) ∧ (pwrBusy s = false) ∧ (devState s = 0) ∧ (declineOf s 2 now.toNat = none)))) ∧
    (∃ m : Master, (∃ now : BitVec 14, (∃ s : State, (MayWrite s m PWR_STATE_REQ) ∧ (pwrBusy s = false) ∧ (devState s = 0) ∧ (declineOf s 3 now.toNat = none)))) ∧
    (∃ s : State, quiesced s = true) ∧
    (∃ s : State, quiescing s = true) ∧
    (∃ src : BitVec 14, (∃ s : State, (devState s ≠ 0) ∧ (pwrBusy s = false) ∧ (wakeHits s src.toNat (devState s) ≠ 0))) ∧
    (∃ src : BitVec 14, (∃ s : State, (quiescing s = true) ∧ (wakeHits s src.toNat (getF s PWR_STATUS 22 21) ≠ 0))) ∧
    (∃ src : BitVec 14, (∃ s : State, wakeHits s src.toNat (if quiescing s then getF s PWR_STATUS 22 21 else devState s) = 0)) ∧
    (∃ s : State, (pwrBusy s = true) ∧ (s.pwr.waking = true) ∧ (devState s = 1)) ∧
    (∃ s : State, (pwrBusy s = true) ∧ (s.pwr.waking = true) ∧ (devState s = 2)) ∧
    (∃ s : State, (pwrBusy s = true) ∧ (s.pwr.waking = true) ∧ (devState s = 3)) ∧
    (∃ m : Master, (∃ s : State, (MayWrite s m PWR_PAD_RELEASE) ∧ (devState s < 2))) ∧
    (∃ m : Master, (∃ s : State, MayWrite s m PWR_PORTGRP_REQ)) :=
  ⟨⟨mSSP, putF live PWR_STATUS 1 0 1, by decide⟩,
    ⟨mSSP, putB live PWR_STATUS 23 true, by decide⟩,
    ⟨mMGP, 0, putF live PWR_WAKE_EN_DOZE 13 0 1, by decide⟩,
    ⟨mMGP, 0, putF (putF live PWR_WAKE_EN_DEEP 9 0 1) PWR_RETAIN_TMAX 7 0 70, by decide⟩,
    ⟨mMGP, 0, putF live PWR_WAKE_EN_DEEP 9 0 1, by decide⟩,
    ⟨putF (putB live PWR_STATUS 23 true) PWR_STATUS 22 21 1, by decide⟩,
    ⟨putF (putB live PWR_STATUS 23 true) PWR_STATUS 22 21 1, by decide⟩,
    ⟨0x200, putF (putF live PWR_STATUS 1 0 3) PWR_WAKE_EN_DEEP 9 0 0x200, by decide⟩,
    ⟨0x200, putF (putF (putB live PWR_STATUS 23 true) PWR_STATUS 22 21 3) PWR_WAKE_EN_DEEP 9 0 0x200, by decide⟩,
    ⟨0x200, live, by decide⟩,
    ⟨{ putF (putB live PWR_STATUS 23 true) PWR_STATUS 1 0 1 with pwr := { live.pwr with waking := true } }, by decide⟩,
    ⟨{ putF (putB live PWR_STATUS 23 true) PWR_STATUS 1 0 2 with pwr := { live.pwr with waking := true } }, by decide⟩,
    ⟨{ putF (putB live PWR_STATUS 23 true) PWR_STATUS 1 0 3 with pwr := { live.pwr with waking := true } }, by decide⟩,
    ⟨mSSP, live, by decide⟩,
    ⟨mMGP, live, by decide⟩⟩

theorem test_meets_SupplyThermalAndClockCommands :
    (∃ aon : Bool, (∃ s : State, (s.sys.held = false) ∧ (getB s PWR_SUPPLY_STATUS (nb aon) = false) ∧ (aon = true ∨ devState s < 2) ∧ (supplyHeld s = false))) ∧
    (∃ aon : Bool, (∃ s : State, getR s PWR_SUPPLY_STATUS = w32 (1 + nb aon))) ∧
    (∃ s : State, s.sys.held = false) ∧
    (∃ s : State, (awake s = true) ∧ (plcFrozen s = false) ∧ (s.time.running = true)) ∧
    (∃ m : Master, (∃ c : Fin 16, (∃ v : Word, (∃ s : State, (MayWrite s m (CLK_CLUSTER_STEP c.val)) ∧ (fld v 1 0 = 0 ∨ clusterClass0 s c.val = false))))) ∧
    (∃ m : Master, (∃ c : Fin 16, (∃ v : Word, (∃ s : State, (MayWrite s m (CLK_CLUSTER_STEP c.val)) ∧ (fld v 1 0 ≠ 0) ∧ (clusterClass0 s c.val = true))))) ∧
    (∃ c : Fin 16, (∃ s : State, (getF s (CLK_CLUSTER_STEP c.val) 1 0 ≠ getF s (CLK_CLUSTER_STEP c.val) 5 4) ∧ (stepDeferred s c.val = false) ∧ (getF s (CLK_CLUSTER_STEP c.val) 1 0 = 0 ∨ clusterClass0 s c.val = false))) ∧
    (∃ c : Fin 16, (∃ s : State, (getF s (CLK_CLUSTER_STEP c.val) 1 0 ≠ getF s (CLK_CLUSTER_STEP c.val) 5 4) ∧ (stepDeferred s c.val = false) ∧ (getF s (CLK_CLUSTER_STEP c.val) 1 0 ≠ 0) ∧ (clusterClass0 s c.val = true))) ∧
    (∃ c : Fin 16, (∃ s : State, getF s (CLK_CLUSTER_STEP c.val) 1 0 = getF s (CLK_CLUSTER_STEP c.val) 5 4 ∨ stepDeferred s c.val = true)) ∧
    (∃ l : List (BitVec 16), (∃ s : State, (l.length = 24) ∧ (s.pwr.badCal = 0))) ∧
    (∃ k : Fin 5, (∃ s : State, getB s CLK_PLL_STATUS k.val = true)) ∧
    (∃ s : State, (s.time.rtcOn = true) ∧ (rtcSec s ≤ rtcAlarmSec s)) ∧
    (∃ m : Master, (∃ s : State, MayWrite s m PWR_RTC_SEC_LO)) :=
  ⟨⟨false, live, by decide⟩,
    ⟨true, setR live PWR_SUPPLY_STATUS 2, by decide⟩,
    ⟨live, by decide⟩,
    ⟨live, by decide⟩,
    ⟨mMGP, 15, 3, live, by decide⟩,
    ⟨mMGP, 0, 1, { live with plc := { live.plc with serve := [(320, 0)], bound := [(320, 0)] } }, by decide⟩,
    ⟨15, putF live (CLK_CLUSTER_STEP 15) 1 0 3, by decide⟩,
    ⟨0, putF { live with plc := { live.plc with serve := [(320, 0)], bound := [(320, 0)] } } (CLK_CLUSTER_STEP 0) 1 0 3, by decide⟩,
    ⟨15, live, by decide⟩,
    ⟨List.replicate 24 0x190, live, by decide⟩,
    ⟨4, setR live CLK_PLL_STATUS 31, by decide⟩,
    ⟨{ live with time := { live.time with rtcOn := true } }, by decide⟩,
    ⟨mMGP, live, by decide⟩⟩

theorem test_meets_ManagementPort :
    (∃ a : BitVec 7, (∃ s : State, (mgtOn s = true) ∧ (a.toNat = getF s MGT_ADDR 6 0) ∧ (devState s = 0) ∧ (pwrBusy s = false))) ∧
    (∃ a : BitVec 7, (∃ s : State, (mgtOn s = true) ∧ (a.toNat = getF s MGT_ADDR 6 0) ∧ (devState s = 1) ∧ (pwrBusy s = false) ∧ (wakeHits s (2 ^ 8) 1 ≠ 0))) ∧
    (∃ a : BitVec 7, (∃ s : State, mgtOn s = false ∨ a.toNat ≠ getF s MGT_ADDR 6 0)) ∧
    (∃ s : State, (getB s MGT_STATUS 1 = true) ∧ (getB s MGT_STATUS 0 = false) ∧ (getB s MGT_STATUS 31 = true) ∧ (devState s = 0) ∧ (s.mgt.rx.length < 16)) ∧
    (∃ s : State, (getB s MGT_STATUS 1 = true) ∧ (getB s MGT_STATUS 0 = false) ∧ (getB s MGT_STATUS 31 = true) ∧ (devState s = 0) ∧ (16 ≤ s.mgt.rx.length)) ∧
    (∃ s : State, (getB s MGT_STATUS 1 = true) ∧ (devState s ≠ 1) ∧ (getB s MGT_STATUS 31 = false)) ∧
    (∃ x : Byte, (∃ l : List Byte, (∃ s : State, (getB s MGT_STATUS 1 = true) ∧ (getB s MGT_STATUS 0 = true) ∧ (getB s MGT_STATUS 31 = true) ∧ (devState s = 0) ∧ (s.mgt.tx = x :: l)))) ∧
    (∃ s : State, (getB s MGT_STATUS 1 = true) ∧ (getB s MGT_STATUS 0 = true) ∧ (getB s MGT_STATUS 31 = true) ∧ (devState s = 0) ∧ (s.mgt.tx = [])) ∧
    (∃ m : Master, (∃ w : Word, (∃ l : List Word, (∃ s : State, (MayRead s m MGT_RX_DATA) ∧ (s.mgt.rx = w :: l))))) ∧
    (∃ m : Master, (∃ s : State, (MayRead s m MGT_RX_DATA) ∧ (s.mgt.rx = []))) ∧
    (∃ m : Master, (∃ s : State, (MayWrite s m MGT_TX_DATA) ∧ (s.mgt.tx.length < 16))) ∧
    (∃ t : Nat, (∃ s : State, (s.mgt.stretch = some t) ∧ (s.time.aonNs < t + max 1 (getF s MGT_CFG 25 16) * 1000))) :=
  ⟨⟨0x58, putB live MGT_CFG 0 true, by decide⟩,
    ⟨0x58, putF (putF (putB live MGT_CFG 0 true) PWR_STATUS 1 0 1) PWR_WAKE_EN_DOZE 13 0 0x100, by decide⟩,
    ⟨0x59, live, by decide⟩,
    ⟨setR live MGT_STATUS 0x80000002, by decide⟩,
    ⟨{ setR live MGT_STATUS 0x80000002 with mgt := { live.mgt with rx := List.replicate 16 0 } }, by decide⟩,
    ⟨setR live MGT_STATUS 2, by decide⟩,
    ⟨7, [8], { setR live MGT_STATUS 0x80000003 with mgt := { live.mgt with tx := [7, 8] } }, by decide⟩,
    ⟨setR live MGT_STATUS 0x80000003, by decide⟩,
    ⟨mMGP, 0x80000105, [], { live with mgt := { live.mgt with rx := [0x80000105] } }, by decide⟩,
    ⟨mMGP, live, by decide⟩,
    ⟨mMGP, live, by decide⟩,
    ⟨5, { live with mgt := { live.mgt with stretch := some 5 } }, by decide⟩⟩

theorem test_meets_TelemetryAndTest :
    (∃ s : State, (phase s = phRun) ∧ (devState s = 0) ∧ (plcFrozen (advanceNs s ((tenseNs s / 1000000000 + 1) * 1000000000)) = false)) ∧
    (∃ m : Master, (∃ b : Fin 2, (∃ s : State, (MayWrite s m (atbSel b.val)) ∧ (getB s ATB_STATUS 31 = false)))) ∧
    (∃ m : Master, (∃ b : Fin 2, (∃ v : Word, (∃ s : State, (MayWrite s m (atbSel b.val)) ∧ (getB s ATB_STATUS 31 = true) ∧ (getR s (ATB_SEL0 + 4 * b.val) ≠ w32 (fld v 5 0)))))) ∧
    (∃ b : Fin 2, (∃ t : BitVec 64, (∃ s : State, sfind s.test.atb b.val = some t))) ∧
    (∃ s : State, (getB s VLT_POLICY 3 = true ∨ dbgScope s 3 = true) ∧ (getB s ATB_STATUS 31 = false)) ∧
    (∃ s : State, (getB s VLT_POLICY 3 = false) ∧ (dbgScope s 3 = false) ∧ (getB s ATB_STATUS 31 = true)) ∧
    (∃ m : Master, (∃ s : State, MayRead s m ATB_REFUSED)) ∧
    (∃ code : BitVec 8, tapListed code.toNat = false) ∧
    (∃ s : State, s.sys.scanLock = false) ∧
    (∃ s : State, s.sys.scanLock = true) ∧
    (∃ s : State, s.sys.scanLock = false) ∧
    (∃ s : State, s.sys.scanLock = false) ∧
    (∃ s : State, s.sys.scanLock = false) ∧
    (∃ s : State, s.sys.scanLock = false) :=
  ⟨⟨live, by decide⟩,
    ⟨mSSP, 1, live, by decide⟩,
    ⟨mSSP, 1, 63, putB live ATB_STATUS 31 true, by decide⟩,
    ⟨1, 5, { live with test := { live.test with atb := [(1, 5)] } }, by decide⟩,
    ⟨putB live VLT_POLICY 3 true, by decide⟩,
    ⟨putB live ATB_STATUS 31 true, by decide⟩,
    ⟨mSSP, live, by decide⟩,
    ⟨0xFF, by decide⟩,
    ⟨live, by decide⟩,
    ⟨{ live with sys := { live.sys with scanLock := true } }, by decide⟩,
    ⟨live, by decide⟩,
    ⟨live, by decide⟩,
    ⟨live, by decide⟩,
    ⟨live, by decide⟩⟩

theorem test_meets_FifosAndAlarmQueues :
    (∃ m : Master, (∃ f : Fin 64, (∃ w : Word, (∃ t : Word, (∃ r : List (Word × Word), (∃ s : State, (MayRead s m (FIQ_FIFO_DATA f.val)) ∧ ((fiq s f.val).counted = (w, t) :: r))))))) ∧
    (∃ m : Master, (∃ f : Fin 64, (∃ s : State, (MayRead s m (FIQ_FIFO_DATA f.val)) ∧ ((fiq s f.val).counted = [])))) ∧
    (∃ m : Master, (∃ f : Fin 64, (∃ s : State, MayWrite s m (FIQ_FIFO_CFG f.val)))) ∧
    (∃ m : Master, (∃ a : Fin 16, (∃ v : Word, (∃ s : State, (MayWrite s m (FIQ_AQ_POST a.val)) ∧ (v ≠ 0xFFFF0000#32) ∧ ((aqItems s a.val).length < 256))))) ∧
    (∃ m : Master, (∃ a : Fin 16, (∃ v : Word, (∃ s : State, (MayWrite s m (FIQ_AQ_POST a.val)) ∧ (v ≠ 0xFFFF0000#32) ∧ ((aqItems s a.val).length = 256) ∧ (aqLow (aqItems s a.val) < aqPri v))))) ∧
    (∃ m : Master, (∃ a : Fin 16, (∃ s : State, (MayRead s m (FIQ_AQ_READ a.val)) ∧ (aqItems s a.val ≠ [])))) ∧
    (∃ m : Master, (∃ a : Fin 16, (∃ v : Word, (∃ s : State, (MayWrite s m (FIQ_AQ_FLUSH a.val)) ∧ (bit v 0 = true))))) :=
  ⟨⟨mSSP, 63, 5, 0x40000004#32, [], fiqSet live 63 { FiqSt.init with counted := [(5, 0x40000004#32)] }, by decide⟩,
    ⟨mMGP, 0, live, by decide⟩,
    ⟨mSSP, 63, live, by decide⟩,
    ⟨mSSP, 15, 7, live, by decide⟩,
    ⟨mSSP, 0, 0x10000000#32, { live with aq := [(0, List.replicate 256 0)] }, by decide⟩,
    ⟨mSSP, 15, { live with aq := [(15, [3])] }, by decide⟩,
    ⟨mSSP, 15, 1, live, by decide⟩⟩

theorem test_meets_LocksAndMailboxes :
    (∃ m : Master, (∃ k : Fin 128, (∃ s : State, (MayRead s m (LCK_LOCK k.val)) ∧ (getF s (LCK_OWNER k.val) 5 0 = 0)))) ∧
    (∃ m : Master, (∃ k : Fin 128, (∃ s : State, (MayRead s m (LCK_LOCK k.val)) ∧ (getF s (LCK_OWNER k.val) 5 0 ≠ 0)))) ∧
    (∃ m : Master, (∃ k : Fin 128, (∃ s : State, (MayWrite s m (LCK_LOCK k.val)) ∧ (getF s (LCK_OWNER k.val) 5 0 = m.toNat)))) ∧
    (∃ v : Word, (∃ s : State, (MayWrite s mSSP LCK_FORCE_RELEASE) ∧ (getF s (LCK_OWNER (fld v 6 0)) 5 0 ≠ 0))) ∧
    (∃ m : Master, (∃ k : Fin 64, (∃ s : State, (MayRead s m (MBX_LOCK k.val)) ∧ (mbxOwner s k.val = 0) ∧ (mbxState s k.val = 0)))) ∧
    (∃ m : Master, (∃ k : Fin 64, (∃ s : State, (MayWrite s m (MBX_LOCK k.val)) ∧ (mbxOwner s k.val = m.toNat) ∧ (mbxState s k.val = 1)))) ∧
    (∃ m : Master, (∃ k : Fin 64, (∃ v : Word, (∃ s : State, (MayWrite s m (MBX_SEND k.val)) ∧ (bit v 0 = true) ∧ (mbxState s k.val = 1) ∧ (mbxOwner s k.val = m.toNat))))) ∧
    (∃ m : Master, (∃ k : Fin 64, (∃ v : Word, (∃ s : State, (MayWrite s m (MBX_ACK k.val)) ∧ (mbxState s k.val = 2) ∧ (mbxReceiver s k.val = m.toNat) ∧ (m ≠ 0) ∧ (fld v 7 0 = 0 ∨ 0x80 ≤ fld v 7 0))))) ∧
    (∃ k : Fin 64, (∃ v : Word, (∃ s : State, (MayWrite s mSSP (MBX_RESET k.val)) ∧ (bit v 0 = true) ∧ (mbxState s k.val = 2)))) :=
  ⟨⟨mMGP, 127, live, by decide⟩,
    ⟨mMGP, 0, putF live (LCK_OWNER 0) 5 0 2, by decide⟩,
    ⟨mSSP, 127, putF live (LCK_OWNER 127) 5 0 2, by decide⟩,
    ⟨127, putF live (LCK_OWNER 127) 5 0 9, by decide⟩,
    ⟨mSSP, 63, live, by decide⟩,
    ⟨mSSP, 63, mbxPut live 63 1 2, by decide⟩,
    ⟨mSSP, 63, 1, mbxPut live 63 1 2, by decide⟩,
    ⟨mSSP, 63, 0x80, putF (mbxPut live 63 2 2) (MBX_CFG 63) 1 0 3, by decide⟩,
    ⟨63, 1, mbxPut live 63 2 2, by decide⟩⟩

theorem test_meets_StepTakesTheFront :
    (∃ c : Instr, (∃ l : List Instr, (∃ s : State, s.pending = c :: l))) ∧
    (∃ s : State, s.pending = []) ∧
    (∃ m : Master, (∃ n : Master, m.toNat < n.toNat)) ∧
    (∃ m : Master, (∃ n : Master, m.toNat < n.toNat)) :=
  ⟨⟨.aonCrystalConfirmed, [.rtcAlarm], { live with pending := [.aonCrystalConfirmed, .rtcAlarm] }, by decide⟩,
    ⟨State.reset, by decide⟩,
    ⟨mHost, mMGP, by decide⟩,
    ⟨mHost, mMGP, by decide⟩⟩

theorem test_meets_ResetState :
    (∃ n : Fin 1024, (616 ≤ n.val ∧ n.val ≤ 631) ∨ n.val = 653 ∨ n.val = 654) ∧
    (∃ n : Fin 1024, (¬((616 ≤ n.val ∧ n.val ≤ 631) ∨ n.val = 653 ∨ n.val = 654)) ∧ (n.val < 768)) ∧
    (∃ n : Fin 1024, 768 ≤ n.val) :=
  ⟨⟨616, by decide⟩,
    ⟨615, by decide⟩,
    ⟨1023, by decide⟩⟩

theorem test_meets_FramesOfCommands :
    (∃ c : Instr, (∃ s : State, (∃ t : State, exec c s = .next t))) :=
  ⟨.aonCrystalConfirmed, live, _, rfl⟩

theorem test_meets_RefusedAccesses :
    (∃ c : Instr, (∃ m : Master, (∃ a : Nat, (∃ s : State, (writeOf c = some (m, a)) ∧ (writeOpen s m a = false))))) ∧
    (∃ c : Instr, (∃ m : Master, (∃ a : Nat, (∃ s : State, (readOf c = some (m, a)) ∧ (readOpen s m a = false))))) :=
  ⟨⟨.cntRead mHost 0, mHost, VLT_CNT_CMD, live, by decide⟩,
    ⟨.rxDataRead mHost, mHost, MGT_RX_DATA, State.reset, by decide⟩⟩

theorem test_meets_MemoryStaysCanonical :
    (∃ s : State, (∃ t : State, (MemoryOk s) ∧ (step s = .next t))) :=
  ⟨live, _, ⟨(by decide : Memory.wf _ = true), rfl⟩⟩

theorem test_meets_VaultCountersNeverFall :
    (∃ s : State, (∃ t : State, step s = .next t)) :=
  ⟨live, _, rfl⟩

theorem test_meets_ResetCauseOrder :
    (∃ s : State, s.sys.held = false) ∧
    (∃ s : State, s.sys.held = false) ∧
    (∃ s : State, (s.sys.held = false) ∧ (coreRail s = true)) ∧
    (∃ s : State, s.sys.held = false) ∧
    (∃ s : State, (s.sys.held = false) ∧ (devState s = 2 ∨ devState s = 3)) ∧
    (∃ s : State, s.sys.held = false) ∧
    (∃ s : State, s.sys.held = false) ∧
    (∃ s : State, (s.sys.held = false) ∧ (tripDue s = true)) ∧
    (∃ m : Master, (∃ s : State, (MayWrite s m SYS_SOFT_RESET) ∧ (s.sys.held = false) ∧ (s.sys.prog = none))) ∧
    (∃ c : Instr, (∃ also : BitVec 8, (∃ m : Master, (∃ v : Word, (∃ s : State, (s.sys.held = true) ∧ (c ∈ [.por also, .pinReset also, .brownCore also, .brownAon also, .lpOverload also, .wdtSsp also, .lockstepMismatch also, .thermalTrip also, .softReset m v])))))) :=
  ⟨⟨live, by decide⟩,
    ⟨live, by decide⟩,
    ⟨live, by decide⟩,
    ⟨live, by decide⟩,
    ⟨putF live PWR_STATUS 1 0 3, by decide⟩,
    ⟨live, by decide⟩,
    ⟨live, by decide⟩,
    ⟨{ live with pwr := { live.pwr with hot := [(0, 2)] } }, by decide⟩,
    ⟨mMGP, live, by decide⟩,
    ⟨.por 2, 2, mMGP, 0xA5A, State.reset, by decide⟩⟩

theorem test_meets_ShiftAmounts :
    (∃ c : Fin 50, (∃ w : Word, (∃ x : CoreSt, (∃ t : State, (∃ s : State, Issues s c.val .sll w x t))))) ∧
    (∃ c : Fin 50, (∃ w : Word, (∃ x : CoreSt, (∃ t : State, (∃ s : State, Issues s c.val .srl w x t))))) ∧
    (∃ c : Fin 50, (∃ w : Word, (∃ x : CoreSt, (∃ t : State, (∃ s : State, Issues s c.val .sra w x t))))) ∧
    (∃ c : Fin 50, (∃ w : Word, (∃ x : CoreSt, (∃ t : State, (∃ s : State, Issues s c.val .slli w x t))))) ∧
    (∃ c : Fin 50, (∃ w : Word, (∃ x : CoreSt, (∃ t : State, (∃ s : State, Issues s c.val .srli w x t))))) ∧
    (∃ c : Fin 50, (∃ w : Word, (∃ x : CoreSt, (∃ t : State, (∃ s : State, Issues s c.val .srai w x t))))) :=
  ⟨⟨5, 0x642809, (bx (coreAt 5 0x642809) 5).1, (bx (coreAt 5 0x642809) 5).2, coreAt 5 0x642809, by decide⟩,
    ⟨5, 0x64280a, (bx (coreAt 5 0x64280a) 5).1, (bx (coreAt 5 0x64280a) 5).2, coreAt 5 0x64280a, by decide⟩,
    ⟨5, 0x64280b, (bx (coreAt 5 0x64280b) 5).1, (bx (coreAt 5 0x64280b) 5).2, coreAt 5 0x64280b, by decide⟩,
    ⟨49, 0x20640007, (bx (coreAt 49 0x20640007) 49).1, (bx (coreAt 49 0x20640007) 49).2, coreAt 49 0x20640007, by decide⟩,
    ⟨49, 0x2064003f, (bx (coreAt 49 0x2064003f) 49).1, (bx (coreAt 49 0x2064003f) 49).2, coreAt 49 0x2064003f, by decide⟩,
    ⟨49, 0x20640047, (bx (coreAt 49 0x20640047) 49).1, (bx (coreAt 49 0x20640047) 49).2, coreAt 49 0x20640047, by decide⟩⟩

theorem test_meets_ArithmeticCorners :
    (∃ c : Fin 50, (∃ w : Word, (∃ x : CoreSt, (∃ t : State, (∃ s : State, (Issues s c.val .neg w x t) ∧ (greg x (fRs1 w) = 0x80000000)))))) ∧
    (∃ c : Fin 50, (∃ w : Word, (∃ x : CoreSt, (∃ t : State, (∃ s : State, Issues s c.val .add w x t))))) ∧
    (∃ c : Fin 50, (∃ w : Word, (∃ x : CoreSt, (∃ t : State, (∃ s : State, Issues s c.val .sub w x t))))) ∧
    (∃ c : Fin 50, (∃ w : Word, (∃ x : CoreSt, (∃ t : State, (∃ s : State, (Issues s c.val .div w x t) ∧ (greg x (fRs1 w) = 0x80000000) ∧ (greg x (fRs2 w) = 0xFFFFFFFF)))))) ∧
    (∃ c : Fin 50, (∃ w : Word, (∃ x : CoreSt, (∃ t : State, (∃ s : State, (Issues s c.val .rem w x t) ∧ (greg x (fRs1 w) = 0x80000000) ∧ (greg x (fRs2 w) = 0xFFFFFFFF)))))) :=
  ⟨⟨5, 0x640002, (bx (coreAtReg 5 0x640002 0x80000000) 5).1, (bx (coreAtReg 5 0x640002 0x80000000) 5).2, coreAtReg 5 0x640002 0x80000000, by decide⟩,
    ⟨5, 0x642800, (bx (coreAt 5 0x642800) 5).1, (bx (coreAt 5 0x642800) 5).2, coreAt 5 0x642800, by decide⟩,
    ⟨5, 0x642801, (bx (coreAt 5 0x642801) 5).1, (bx (coreAt 5 0x642801) 5).2, coreAt 5 0x642801, by decide⟩,
    ⟨48, 0x28632000, (bx (divCorner 48 0x28632000) 48).1, (bx (divCorner 48 0x28632000) 48).2, divCorner 48 0x28632000, by decide⟩,
    ⟨48, 0x28632002, (bx (divCorner 48 0x28632002) 48).1, (bx (divCorner 48 0x28632002) 48).2, divCorner 48 0x28632002, by decide⟩⟩

theorem test_meets_ResultsOnOneRegister :
    (∃ x : CoreSt, (∃ d : Nat, (∃ j : Nat, (∃ p : Nat, (∃ q : Nat, (∃ n : Nat, (0 < d ∧ d < 32) ∧ (∀ r ∈ x.land, r.dest ≠ d) ∧ (x.cyc + p ≤ n ∧ x.cyc + j + q ≤ n))))))) :=
  ⟨CoreSt.init, 31, 1, 3, 2, 3, ⟨by decide, fun r h => (List.not_mem_nil h).elim, by decide⟩⟩

theorem test_meets_LockReads :
    (∃ m : Master, (∃ k : Fin 128, (∃ s : State, (MayRead s m (LCK_LOCK k.val)) ∧ (getF s (LCK_OWNER k.val) 5 0 = 0)))) ∧
    (∃ m : Master, (∃ k : Fin 128, (∃ s : State, (MayRead s m (LCK_LOCK k.val)) ∧ (getF s (LCK_OWNER k.val) 5 0 ≠ 0)))) ∧
    (∃ m : Master, (∃ n : Master, (∃ k : Fin 128, (∃ s : State, (MayRead s m (LCK_LOCK k.val)) ∧ (MayRead s n (LCK_LOCK k.val)) ∧ (getF s (LCK_OWNER k.val) 5 0 = 0) ∧ (0 < m.toNat ∧ m.toNat < n.toNat))))) :=
  ⟨⟨mMGP, 127, live, by decide⟩,
    ⟨mMGP, 0, putF live (LCK_OWNER 0) 5 0 2, by decide⟩,
    ⟨mSSP, mMGP, 5, live, by decide⟩⟩

end Sys2Proof.Tests
end

section
/-! The recording of reset causes (R65), for the family of start-up and trust. -/

namespace Sys2Proof.Proofs

open Sys2Proof Sys2Proof.Machine Sys2Proof.Machine.Reg Sys2Proof.Laws

/-! Writes that are turned away. -/

theorem sys_recErr (s : State) (b code : Nat) (m : Master) (a : Nat) (w : Bool) : (recErr s b code m a w).sys = s.sys :=
  (K.recErr (pset := [.regs, .outs, .intc]) (by decide) (by decide) (by decide) (Keeps.refl _ s)).sys.resolve_left
    (by decide)

theorem sys_deny (s : State) (code : Nat) (m : Master) (a : Nat) (w : Bool) : (deny s code m a w).sys = s.sys :=
  (K.deny (pset := [.regs, .outs, .intc]) (by decide) (by decide) (by decide) (Keeps.refl _ s)).sys.resolve_left
    (by decide)

@[simp] theorem sys_writeErr (m : Master) (s : State) : (writeErr m s).sys = s.sys := by
  unfold writeErr; split <;> rfl

@[simp] theorem getR_writeErr (m : Master) (s : State) (a : Nat) : getR (writeErr m s) a = getR s a := by
  unfold writeErr; split <;> rfl

theorem getR_satInc_ne {s : State} {a k : Nat} (h : k ≠ a) : getR (satInc s a) k = getR s k := by
  unfold satInc
  split
  · rfl
  · exact getR_setR_ne h

/-- An error record of a page, with its interrupt, leaves ordinary registers alone. -/
theorem getR_recErr_plain {b k : Nat} (hk : Plain k) (hb : b % 0x1000 = 0) (s : State) (code : Nat) (m : Master) (a : Nat)
    (w : Bool) : getR (recErr s b code m a w) k = getR s k := by
  have hinfo : k ≠ ERR_INFO b := by have := hk.2.1; unfold ERR_INFO; omega
  have haddr : k ≠ ERR_ADDR b := by have := hk.2.1; unfold ERR_ADDR; omega
  unfold recErr
  dsimp only
  split
  · split
    · rw [hk.raiseIrq (by decide), getR_putB_ne hinfo]
    · exact getR_putB_ne hinfo
  · rw [getR_setR_ne haddr, getR_setR_ne hinfo]

/-- The registers in which a policy denial is counted and noted (R58). -/
def denyRegs : List Nat := [SEC_DENY_COUNT, SEC_DENY_LAST_INFO, SEC_DENY_LAST_ADDR]

/-- A policy denial leaves ordinary registers alone but those that note denials. -/
theorem getR_deny_plain {k : Nat} (hk : Plain k) (hd : k ∉ denyRegs) (s : State) (code : Nat) (m : Master) (a : Nat)
    (w : Bool) : getR (deny s code m a w) k = getR s k := by
  simp only [denyRegs, List.mem_cons, List.not_mem_nil, or_false, not_or] at hd
  obtain ⟨hcount, hinfo, haddr⟩ := hd
  unfold deny
  rw [hk.raiseIrq (by decide), getR_setR_ne haddr, getR_setR_ne hinfo, getR_satInc_ne hcount,
    getR_recErr_plain hk (by decide)]

/-- A write either acts, or is turned away and leaves the system state and register `k` as they are. -/
theorem gatedWrite_acts_or_keeps {a k : Nat} {pg : Page} (hp : pageOf a = some pg) (hb : pg.base % 0x1000 = 0)
    (hk : Plain k) (hd : k ∉ denyRegs) (m : Master) (f : State → State) (s : State) :
    gatedWrite m a f s = answer (f s) 0 ∨
      ((gatedWrite m a f s).sys = s.sys ∧ getR (gatedWrite m a f s) k = getR s k) := by
  unfold gatedWrite
  simp only [hp]
  split
  · exact .inr ⟨rfl, rfl⟩
  · split
    · exact .inr ⟨by rw [sys_writeErr, sys_deny], by rw [getR_writeErr, getR_deny_plain hk hd]⟩
    · split
      · exact .inr ⟨by rw [sys_writeErr, sys_recErr], by rw [getR_writeErr, getR_recErr_plain hk hb]⟩
      · exact .inl rfl

/-! The causes that a reset records. -/

/-- The search in the list of R65's order finds what the choice bit by bit finds. -/
theorem causeOf_eq_firstCause (mask : Nat) : causeOf mask = firstCause mask := by
  have hfind : ∀ (c : Nat) (l : List Nat), ((c :: l).find? fun c => mask.testBit (c - 1)).getD 0 =
      if mask.testBit (c - 1) then c else (l.find? fun c => mask.testBit (c - 1)).getD 0 := by
    intro c l
    rw [List.find?_cons]
    cases mask.testBit (c - 1) <;> rfl
  unfold causeOf causeOrder firstCause
  simp only [hfind]
  rfl

/-- Outside a reset, a cause whose bit of `ALSO` is `b` is recorded with the others of its cycle. -/
theorem causesAre_resetCause {c : Nat} {b : BitVec 8} (hb : b.toNat = 2 ^ (c - 1)) (also : BitVec 8) (lock : Bool)
    {s : State} (h : s.sys.held = false) : CausesAre (also ||| b) (resetCause c also lock s) := by
  obtain ⟨-, hcause, -, halso, -⟩ := reset_by (c := c) (also := also) (lock := lock) (hb ▸ b.isLt) h
  have hmask : (also ||| b).toNat = Nat.lor also.toNat (2 ^ (c - 1)) := by rw [BitVec.toNat_or, hb]; rfl
  unfold CausesAre
  rw [hmask, ← causeOf_eq_firstCause]
  exact ⟨hcause, halso⟩

/-- A soft reset that is let through, with no bundle being applied, is recorded alone. -/
theorem causesAre_softReset {m : Master} {s : State} (hw : MayWrite s m SYS_SOFT_RESET) (h : s.sys.held = false)
    (hp : s.sys.prog = none) : CausesAre 64 (gatedWrite m SYS_SOFT_RESET (softResetWrite 0xA5A) s) := by
  have hsoft : softResetWrite 0xA5A s = resetCause rcSoft 0 false s := by
    simp [softResetWrite, hp]
  rw [gatedWrite_open hw, hsoft]
  exact causesAre_resetCause (c := rcSoft) (b := 64) rfl 0 false h

/-! Causes that arise during a reset. -/

/-- The recorded causes stand, and the reset goes on. -/
def ResetStands (s t : State) : Prop := getR t SYS_RESET_CAUSE = getR s SYS_RESET_CAUSE ∧ t.sys.held = true

theorem ResetStands.of_held {s : State} (h : s.sys.held = true) : ResetStands s s := ⟨rfl, h⟩

theorem resetCause_of_held {s : State} (h : s.sys.held = true) (c : Nat) (also : BitVec 8) (lock : Bool) :
    resetCause c also lock s = s := by
  unfold resetCause resetAssert
  rw [if_pos h]

theorem resetStands_resetCause {s t : State} (h : ResetStands s t) (c : Nat) (also : BitVec 8) (lock : Bool) :
    ResetStands s (resetCause c also lock t) := by
  rw [resetCause_of_held h.2]
  exact h

theorem resetStands_advanceNs {s : State} (h : s.sys.held = true) (n : Nat) : ResetStands s (advanceNs s n) :=
  ⟨getR_advanceNs s n _, (held_advanceNs s n).trans h⟩

/-- The watchdog's cause comes after the time that it advances. -/
theorem ends_wdtSsp_of_held {s : State} (h : s.sys.held = true) (also : BitVec 8) :
    Ends (.wdtSsp also) s (ResetStands s) := by
  refine ⟨_, rfl, resetStands_resetCause ?_ _ _ _⟩
  split
  · exact .of_held h
  · exact resetStands_advanceNs h _

theorem resetStands_softResetWrite {s : State} (h : s.sys.held = true) (v : Word) :
    ResetStands s (softResetWrite v s) := by
  unfold softResetWrite
  split
  · split
    · exact ⟨rfl, h⟩
    · exact resetStands_resetCause (.of_held h) _ _ _
  · exact .of_held h

theorem resetStands_softReset {s : State} (h : s.sys.held = true) (m : Master) (v : Word) :
    ResetStands s (gatedWrite m SYS_SOFT_RESET (softResetWrite v) s) := by
  rcases gatedWrite_acts_or_keeps (a := SYS_SOFT_RESET) (k := SYS_RESET_CAUSE) (pg := ⟨.SYS, 0, SYS⟩) rfl rfl (by decide)
    (by decide) m (softResetWrite v) s with hacts | ⟨hsys, hreg⟩
  · rw [hacts]
    exact resetStands_softResetWrite h v
  · exact ⟨hreg, hsys ▸ h⟩

/-- The commands that carry a reset cause (R64). -/
def resetCommands (also : BitVec 8) (m : Master) (v : Word) : List Instr :=
  [.por also, .pinReset also, .brownCore also, .brownAon also, .lpOverload also, .wdtSsp also, .lockstepMismatch also,
    .thermalTrip also, .softReset m v]

/-- During a reset, every command that carries a reset cause leaves the recorded causes and the reset as they are. -/
theorem ends_resetStands_of_held {c : Instr} {also : BitVec 8} {m : Master} {v : Word} {s : State}
    (h : s.sys.held = true) (hc : c ∈ resetCommands also m v) : Ends c s (ResetStands s) := by
  have hnow : ∀ (k : Nat) (lock : Bool), ResetStands s (resetCause k also lock s) :=
    fun k lock => resetStands_resetCause (.of_held h) k also lock
  have hguard : ∀ (p : Prop) [Decidable p] (k : Nat), ResetStands s (if p then resetCause k also false s else s) := by
    intro p _ k
    split
    · exact hnow k false
    · exact .of_held h
  simp only [resetCommands, List.mem_cons, List.not_mem_nil, or_false] at hc
  obtain rfl | rfl | rfl | rfl | rfl | rfl | rfl | rfl | rfl := hc
  · exact ⟨_, rfl, hnow rcPor false⟩
  · exact ⟨_, rfl, hnow rcPin false⟩
  · exact ⟨_, rfl, hguard _ rcBrownCore⟩
  · exact ⟨_, rfl, hnow rcBrownAon false⟩
  · exact ⟨_, rfl, hguard _ rcLpOverload⟩
  · exact ends_wdtSsp_of_held h also
  · exact ⟨_, rfl, hnow rcWdtSsp true⟩
  · exact ⟨_, rfl, hguard _ rcTherm⟩
  · exact ⟨_, rfl, resetStands_softReset h m v⟩

/-- Settles O56: `CAUSE` and `ALSO` of a reset follow from the mask of its causes, found in R65's order, and a reset in
progress lets no cause act. -/
theorem resetCauseOrder : Obligations.ResetCauseOrder := by
  unfold Obligations.ResetCauseOrder
  refine ⟨fun also s h => ⟨_, rfl, causesAre_resetCause rfl also _ h⟩,
    fun also s h => ⟨_, rfl, causesAre_resetCause rfl also _ h⟩,
    fun also s h hrail => ⟨_, rfl, ?brownCore⟩,
    fun also s h => ⟨_, rfl, causesAre_resetCause rfl also _ h⟩,
    fun also s h hdev => ⟨_, rfl, ?lpOverload⟩,
    fun also s h => ⟨_, rfl, causesAre_resetCause rfl also _ ?wdtSsp⟩,
    fun also s h => ⟨_, rfl, causesAre_resetCause rfl also _ h⟩,
    fun also s h htrip => ⟨_, rfl, ?thermalTrip⟩,
    fun m s hw h hp => ⟨_, rfl, causesAre_softReset hw h hp⟩,
    fun c also m v s h hc => ends_resetStands_of_held h hc⟩
  case brownCore => rw [if_pos hrail]; exact causesAre_resetCause rfl also _ h
  case lpOverload => rw [if_pos hdev]; exact causesAre_resetCause rfl also _ h
  case thermalTrip => rw [if_pos htrip]; exact causesAre_resetCause rfl also _ h
  case wdtSsp =>
    split
    · exact h
    · exact (held_advanceNs _ _).trans h

end Sys2Proof.Proofs
end

section
/-! What Hertis-32 shifts, sums, differences and quotients come to, and which of two results in flight stands
(R381–R390), for the family of the instruction set. -/

namespace Sys2Proof.Proofs

open Sys2Proof Sys2Proof.Machine Sys2Proof.Machine.Reg Sys2Proof.Laws

/-! What an instruction that issues gives. -/

section
variable {s t : State} {c : Nat} {o : HOp} {w v : Word} {x : CoreSt} {f : Word → Word → Word}

theorem issueR_gives (h : Issues s c o w x t) (hv : f (greg x (fRs1 w)) (greg x (fRs2 w)) = v) :
    issueR o c f s = gives c 1 v w x (busyCycle o t c) := by
  subst hv
  exact issue_go h

theorem issueI_gives (h : Issues s c o w x t) (hv : f (greg x (fRs1 w)) w = v) :
    issueI o c f s = gives c 1 v w x (busyCycle o t c) := by
  subst hv
  exact issue_go h

/-- A divide by anything but 0 leaves `ASTAT.DZ` alone. -/
theorem issueD_divides (h : Issues s c o w x t) (hb : greg x (fRs2 w) ≠ 0)
    (hv : f (greg x (fRs1 w)) (greg x (fRs2 w)) = v) : issueD o c f s = divides c v w x (busyCycle o t c) := by
  subst hv
  have hdz : decide (greg x (fRs2 w) = 0) = false := decide_eq_false hb
  refine (issue_go h).trans ?_
  dsimp only
  rw [hdz]

end

/-! Shifts by their value (R390). -/

theorem fld_5_0 (w : Word) : fld w 5 0 = w.toNat % 64 := rfl

theorem fld_4_0 (w : Word) : fld w 4 0 = w.toNat % 32 := rfl

theorem shiftLeft_eq_shiftsLeft (a : Word) (n : Nat) : a <<< n = shiftsLeft a n := by
  unfold shiftsLeft
  split
  next =>
    apply BitVec.eq_of_toNat_eq
    rw [BitVec.toNat_shiftLeft, BitVec.toNat_ofNat, Nat.shiftLeft_eq]
  next hn => exact BitVec.shiftLeft_eq_zero (Nat.le_of_not_lt hn)

theorem ushiftRight_eq_shiftsRight (a : Word) (n : Nat) : a >>> n = shiftsRight a n := by
  unfold shiftsRight
  split
  next =>
    apply BitVec.eq_of_toNat_eq
    have hle : a.toNat / 2 ^ n < 2 ^ 32 := Nat.lt_of_le_of_lt (Nat.div_le_self _ _) a.isLt
    rw [BitVec.toNat_ushiftRight, BitVec.toNat_ofNat, Nat.shiftRight_eq_div_pow, Nat.mod_eq_of_lt hle]
  next hn => exact BitVec.ushiftRight_eq_zero (Nat.le_of_not_lt hn)

/-- From 32 places on, every bit of the result is the sign. -/
theorem sshiftRight_of_le {a : Word} {n : Nat} (hn : 32 ≤ n) :
    a.sshiftRight n = if a.getLsbD 31 then 0xFFFFFFFF else 0 := by
  have hmsb : a.msb = a.getLsbD 31 := BitVec.msb_eq_getLsbD_last a
  ext i hi
  rw [BitVec.getElem_sshiftRight, dif_neg (by omega), hmsb]
  cases a.getLsbD 31
  · simp
  · exact (BitVec.getElem_allOnes i hi).symm

theorem sshiftRight_eq_shiftsSigned (a : Word) (n : Nat) : a.sshiftRight n = shiftsSigned a n := by
  unfold shiftsSigned
  split
  next => rw [BitVec.sshiftRight, Int.shiftRight_eq_div_pow]; norm_cast
  next hn => exact sshiftRight_of_le (Nat.le_of_not_lt hn)

/-- Settles O57: the shift amount is a remainder of rs2 or of the word, and each shift is what its value says. -/
theorem shiftAmounts : Obligations.ShiftAmounts := by
  unfold Obligations.ShiftAmounts
  refine ⟨fun c w x t s h => congrArg Host.Outcome.next (issueR_gives h ?sll),
    fun c w x t s h => congrArg Host.Outcome.next (issueR_gives h ?srl),
    fun c w x t s h => congrArg Host.Outcome.next (issueR_gives h ?sra),
    fun c w x t s h => congrArg Host.Outcome.next (issueI_gives h ?slli),
    fun c w x t s h => congrArg Host.Outcome.next (issueI_gives h ?srli),
    fun c w x t s h => congrArg Host.Outcome.next (issueI_gives h ?srai)⟩
  case sll => rw [fld_5_0, shiftLeft_eq_shiftsLeft]
  case srl => rw [fld_5_0, ushiftRight_eq_shiftsRight]
  case sra => rw [fld_5_0, sshiftRight_eq_shiftsSigned]
  case slli => rw [fld_4_0, shiftLeft_eq_shiftsLeft]
  case srli => rw [fld_4_0, ushiftRight_eq_shiftsRight]
  case srai => rw [fld_4_0, sshiftRight_eq_shiftsSigned]

/-! Sums and differences (R387). -/

theorem add_eq_ofNat_sum (a b : Word) : a + b = BitVec.ofNat 32 (a.toNat + b.toNat) := by
  rw [BitVec.ofNat_add, BitVec.ofNat_toNat, BitVec.ofNat_toNat, BitVec.setWidth_eq, BitVec.setWidth_eq]

theorem sub_eq_ofInt_difference (a b : Word) : a - b = BitVec.ofInt 32 (a.toInt - b.toInt) := by
  apply BitVec.eq_of_toInt_eq
  rw [BitVec.toInt_sub, BitVec.toInt_ofInt]

/-- Settles O58: sums and differences follow from the exact ones cut to 32 bits, and the corners are
computed from the operands given. -/
theorem arithmeticCorners : Obligations.ArithmeticCorners := by
  unfold Obligations.ArithmeticCorners
  refine ⟨fun c w x t s h ha => congrArg Host.Outcome.next (issueR_gives h ?neg),
    fun c w x t s h => congrArg Host.Outcome.next (issueR_gives h (add_eq_ofNat_sum _ _)),
    fun c w x t s h => congrArg Host.Outcome.next (issueR_gives h (sub_eq_ofInt_difference _ _)),
    fun c w x t s h ha hb => congrArg Host.Outcome.next (issueD_divides h ?divBy ?div),
    fun c w x t s h ha hb => congrArg Host.Outcome.next (issueD_divides h ?remBy ?rem)⟩
  case neg => rw [ha]; decide
  case div => rw [ha, hb]; decide
  case rem => rw [ha, hb]; decide
  case divBy | remBy => rw [hb]; decide

/-! Which of two results in flight stands (R383). -/

theorem greg_gset_same {d : Nat} (hd : 0 < d) (x : CoreSt) (v : Word) : greg (gset x d v) d = v := by
  have h0 : d ≠ 0 := Nat.ne_of_gt hd
  unfold greg gset
  rw [if_neg h0, if_neg h0, sget_sset_eq]

theorem greg_gset_ne {d k : Nat} (hk : d ≠ k) (x : CoreSt) (v : Word) : greg (gset x k v) d = greg x d := by
  unfold greg gset
  split
  next => rfl
  next =>
    split
    next => rfl
    next => exact sget_sset_ne _ _ _ _ _ hk

theorem greg_csrSet (x : CoreSt) (n d : Nat) (v : Word) : greg (csrSet x n v) d = greg x d := rfl

/-- A landing writes the general register that it is for, and no other. -/
theorem greg_landOne {d : Nat} (hd : 0 < d ∧ d < 32) (c : Nat) (all : List Landing) (x : CoreSt) (r : Landing) :
    greg (landOne c all x r) d = if r.dest = d then r.val else greg x d := by
  have hdz : ∀ y : CoreSt,
      greg (if r.dz then csrSet y csrASTAT (setBit (csrHeld c y csrASTAT) 0 true) else y) d = greg y d := by
    intro y
    split
    · exact greg_csrSet _ _ _ _
    · rfl
  unfold landOne
  dsimp only
  rw [hdz]
  by_cases hr : r.dest = d
  · rw [if_pos hr, if_pos (hr ▸ hd.2), hr, greg_gset_same hd.1]
  · rw [if_neg hr]
    split
    · exact greg_gset_ne (Ne.symm hr) _ _
    · split <;> exact greg_csrSet _ _ _ _

/-- The results for register `d` among those in flight, in their order. -/
def landingsFor (d : Nat) (l : List Landing) : List Landing := l.filter fun r => decide (r.dest = d)

/-- After results have landed, register `d` holds the last of those for it. -/
theorem greg_foldl_landOne {d : Nat} (hd : 0 < d ∧ d < 32) (c : Nat) (all l : List Landing) (x : CoreSt) :
    greg (l.foldl (landOne c all) x) d = (landingsFor d l).foldl (fun _ r => r.val) (greg x d) := by
  induction l generalizing x with
  | nil => rfl
  | cons r l ih =>
    rw [List.foldl_cons, ih, greg_landOne hd]
    by_cases hr : r.dest = d <;> simp [landingsFor, hr]

theorem greg_landTo {d : Nat} (hd : 0 < d ∧ d < 32) (c : Nat) (x : CoreSt) (n : Nat) :
    greg (landTo c x n) d =
      ((landingsFor d x.land).filter fun r => decide (r.at_ ≤ n)).foldl (fun _ r => r.val) (greg x d) := by
  have hcomm : landingsFor d (x.land.filter fun r => decide (r.at_ ≤ n)) =
      (landingsFor d x.land).filter fun r => decide (r.at_ ≤ n) := List.filter_comm _ _ _
  rw [← hcomm]
  exact greg_foldl_landOne hd c _ _ x

theorem landingsFor_eq_nil {d : Nat} {l : List Landing} (h : ∀ r ∈ l, r.dest ≠ d) : landingsFor d l = [] := by
  simpa [landingsFor] using h

theorem landingsFor_cons_ne {d : Nat} {y : Landing} (h : y.dest ≠ d) (l : List Landing) :
    landingsFor d (y :: l) = landingsFor d l := by
  simp [landingsFor, h]

theorem landingsFor_cons_eq {d : Nat} {y : Landing} (h : y.dest = d) (l : List Landing) :
    landingsFor d (y :: l) = y :: landingsFor d l := by
  simp [landingsFor, h]

/-- The only result for its register. -/
theorem landingsFor_landPut {d : Nat} {l : List Landing} (h : ∀ r ∈ l, r.dest ≠ d) {a : Landing} (ha : a.dest = d) :
    landingsFor d (landPut l a) = [a] := by
  induction l with
  | nil => simp [landPut, landingsFor, ha]
  | cons y l ih =>
    obtain ⟨hy, hl⟩ := List.forall_mem_cons.1 h
    unfold landPut
    split
    · rw [landingsFor_cons_eq ha, landingsFor_eq_nil h]
    · rw [landingsFor_cons_ne hy, ih hl]

/-- A result put in flight behind an earlier-issued one for its register, the first in flight, passes it unless it lands
before it. -/
theorem landingsFor_landPut_cons {d : Nat} {l : List Landing} (h : ∀ r ∈ l, r.dest ≠ d) {a b : Landing} (ha : a.dest = d)
    (hb : b.dest = d) : landingsFor d (landPut (a :: l) b) = if a.at_ ≤ b.at_ then [a, b] else [b, a] := by
  rw [landPut]
  split
  next hlt =>
    rw [if_neg (Nat.not_le.2 hlt), landingsFor_cons_eq hb, landingsFor_cons_eq ha, landingsFor_eq_nil h]
  next hge =>
    rw [if_pos (Nat.not_lt.1 hge), landingsFor_cons_eq ha, landingsFor_landPut h hb]

/-- Of two results for one register, the one that lands later stands behind the other, and where both land in the same
cycle, the one put in flight later. -/
theorem landingsFor_landPut_landPut {d : Nat} {l : List Landing} (h : ∀ r ∈ l, r.dest ≠ d) {a b : Landing}
    (ha : a.dest = d) (hb : b.dest = d) :
    landingsFor d (landPut (landPut l a) b) = if a.at_ ≤ b.at_ then [a, b] else [b, a] := by
  induction l with
  | nil => exact landingsFor_landPut_cons h ha hb
  | cons y l ih =>
    obtain ⟨hy, hl⟩ := List.forall_mem_cons.1 h
    rw [landPut]
    split
    next => exact landingsFor_landPut_cons h ha hb
    next hya =>
      rw [landPut]
      split
      next hby =>
        have hba : ¬ a.at_ ≤ b.at_ := by omega
        rw [if_neg hba, landingsFor_cons_eq hb, landingsFor_cons_ne hy, landingsFor_landPut hl ha]
      next => rw [landingsFor_cons_ne hy, ih hl]

/-- Settles O59: whatever else is in flight, the results for the register stand in the order in which they land, those of
one cycle in the order of issue, and the last of them is what the register holds. -/
theorem resultsOnOneRegister : Obligations.ResultsOnOneRegister := by
  unfold Obligations.ResultsOnOneRegister
  intro c x d j p q n v w hd hfree ⟨hp, hq⟩
  rw [greg_landTo hd]
  unfold flies
  dsimp only
  rw [landingsFor_landPut_landPut hfree rfl rfl]
  dsimp only
  split
  next => simp [hp, hq]
  next => simp [hp, hq]

end Sys2Proof.Proofs
end

section
/-! Reads of locks (R467), for the family of queues, mailboxes and locks. -/

namespace Sys2Proof.Proofs

open Sys2Proof Sys2Proof.Machine Sys2Proof.Machine.Reg Sys2Proof.Laws

/-! Fields of registers. -/

theorem getF_putF_same {hi : Nat} (h : hi < 32) (s : State) (a lo v : Nat) :
    getF (putF s a hi lo v) a hi lo = v % 2 ^ (hi + 1 - lo) := by
  unfold getF
  rw [getR_putF_same, fld_setFld_same h]

/-- A value that fits its field is read back as it was written. -/
theorem getF_putF_of_lt {hi lo v : Nat} (h : hi < 32) (hv : v < 2 ^ (hi + 1 - lo)) (s : State) (a : Nat) :
    getF (putF s a hi lo v) a hi lo = v := by
  rw [getF_putF_same h, Nat.mod_eq_of_lt hv]

/-! Who may read, in a state that differs elsewhere. -/

/-- Whether a read of a page is let through hangs on the debug scope, the page's power, the device state and how far
start-up has come, and on nothing else of the state (R41, R49, R519). -/
theorem readOpen_congr {s t : State} {a : Nat} {pg : Page} (hp : pageOf a = some pg)
    (hdebug : getR t SYS_DEBUG_STATUS = getR s SYS_DEBUG_STATUS)
    (hblk : getR t (BLK_STATUS pg.base) = getR s (BLK_STATUS pg.base))
    (hpwr : getR t PWR_STATUS = getR s PWR_STATUS) (hready : t.sys.ready = s.sys.ready) (m : Master) :
    readOpen t m a = readOpen s m a := by
  have hport : portClosed t m = portClosed s m := by
    unfold portClosed dbgScope unlocked getB
    rw [hdebug]
  have hup : blockReady t pg = blockReady s pg := by
    unfold blockReady getF
    rw [hblk, hready]
  have hdoze : dozeAnswers t m pg.blk = dozeAnswers s m pg.blk := by
    unfold dozeAnswers getF
    rw [hpwr]
  unfold readOpen
  simp only [hp, hport, hup, hdoze]

theorem pageOf_LCK_LOCK (k : Fin 128) : pageOf (LCK_LOCK k.val) = some ⟨.LCK, 0, LCK⟩ := by
  revert k; decide

/-- A lock that has been taken answers the same masters as before. -/
theorem mayRead_lock_taken {s : State} {n : Master} {k : Fin 128} (h : MayRead s n (LCK_LOCK k.val)) (v : Nat) (w : Word) :
    MayRead (answer (putF s (LCK_OWNER k.val) 5 0 v) w) n (LCK_LOCK k.val) := by
  have hkeep : ∀ {a : Nat}, a ≠ LCK_OWNER k.val → getR (answer (putF s (LCK_OWNER k.val) 5 0 v) w) a = getR s a :=
    fun ha => (getR_answer _ _ _).trans (getR_putF_ne ha)
  exact (readOpen_congr (pageOf_LCK_LOCK k) (hkeep (by unfold LCK_OWNER SYS_DEBUG_STATUS; omega))
    (hkeep (by dsimp only [LCK_OWNER, BLK_STATUS, LCK]; omega)) (hkeep (by unfold LCK_OWNER PWR_STATUS; omega)) rfl n).trans h

/-! What a read of a lock does. -/

section
variable {s : State} {m : Master} {k : Fin 128}

theorem exec_lockRead_open (h : MayRead s m (LCK_LOCK k.val)) :
    exec (.lockRead m k) s = .next (answer (lockRead k.val m s).1 (lockRead k.val m s).2) :=
  congrArg Host.Outcome.next (gatedRead_open h)

/-- A free lock goes to its reader, who reads 0. -/
theorem exec_lockRead_free (h : MayRead s m (LCK_LOCK k.val)) (hfree : getF s (LCK_OWNER k.val) 5 0 = 0) :
    exec (.lockRead m k) s = .next (answer (putF s (LCK_OWNER k.val) 5 0 m.toNat) 0) := by
  rw [exec_lockRead_open h]
  unfold lockRead lockTake
  rw [if_pos hfree]
  rfl

/-- A held lock stays with its owner, whose number is read. -/
theorem exec_lockRead_held (h : MayRead s m (LCK_LOCK k.val)) (hheld : getF s (LCK_OWNER k.val) 5 0 ≠ 0) :
    exec (.lockRead m k) s = .next (answer (putF s (LCK_OWNER k.val) 5 0 (getF s (LCK_OWNER k.val) 5 0))
      (w32 (getF s (LCK_OWNER k.val) 5 0))) := by
  rw [exec_lockRead_open h]
  unfold lockRead lockTake
  rw [if_neg hheld]

/-- A master's number fits the owner field. -/
theorem getF_owner_taken (s : State) (m : Master) (k : Nat) (v : Word) :
    getF (answer (putF s (LCK_OWNER k) 5 0 m.toNat) v) (LCK_OWNER k) 5 0 = m.toNat :=
  getF_putF_of_lt (by decide) m.isLt s _

theorem ends_lockRead_held (h : MayRead s m (LCK_LOCK k.val)) (hheld : getF s (LCK_OWNER k.val) 5 0 ≠ 0) :
    Ends (.lockRead m k) s fun t => t.resp = .ok (w32 (getF s (LCK_OWNER k.val) 5 0)) ∧
      getF t (LCK_OWNER k.val) 5 0 = getF s (LCK_OWNER k.val) 5 0 :=
  ⟨_, exec_lockRead_held h hheld, rfl, getF_putF_of_lt (by decide) (fld_lt _ 5 0) s _⟩

end

/-- Settles O60: the owner field holds every master's number, and the lock that the first reader took is a held lock, still
open to the readers after it. -/
theorem lockReads : Obligations.LockReads := by
  unfold Obligations.LockReads
  refine ⟨fun m k s h hfree => ⟨_, exec_lockRead_free h hfree, rfl, getF_owner_taken s m k.val 0⟩,
    fun m k s h hheld => ends_lockRead_held h hheld,
    fun m n k s hm hn hfree ⟨hpos, _⟩ => ⟨_, exec_lockRead_free hm hfree, rfl, ?_⟩⟩
  have howner := getF_owner_taken s m k.val 0
  have hheld := howner.trans_ne (Nat.ne_of_gt hpos)
  have hsecond := ends_lockRead_held (mayRead_lock_taken hn m.toNat 0) hheld
  rwa [howner] at hsecond

end Sys2Proof.Proofs
end

section
/-! What every step keeps: the frame of each command, memory's canonical form, the vault's counters and progress, for the
family of the invariants. -/

namespace Sys2Proof.Proofs

open Sys2Proof Sys2Proof.Machine Sys2Proof.Machine.Reg Sys2Proof.Laws

/-! What every command keeps: the table `touched`, command by command. -/

theorem mem_allParts (p : Part) (h : p ≠ .falls) : p ∈ allParts := by
  cases p with
  | falls => exact absurd rfl h
  | _ => decide

/-- Every command keeps what an operation of the block keeps, and changes at most the parts that `touched` lists. -/
theorem exec_keeps {c : Instr} {s t : State} (h : exec c s = .next t) : Keeps (touched c) s t := by
  have hk := fun l => Keeps.refl l s
  cases c with dsimp only [touched]
  | registerWrite m a sz v => exact K.execRegisterWrite mem_allParts (hk _) h
  | cfgLockWrite m page v => apply K.execCfgLockWrite (hk := hk _) (he := h) <;> decide
  | softRst m page v => exact K.execSoftRst mem_allParts (hk _) h
  | blockPowerRequest m page pwr => apply K.execBlockPowerRequest (hk := hk _) (he := h) <;> decide
  | blockPowerChangeDone page => exact K.execBlockPowerChangeDone mem_allParts (hk _) h
  | irqForce m page v => apply K.execIrqForce (hk := hk _) (he := h) <;> decide
  | cntSnap m page clr => apply K.execCntSnap (hk := hk _) (he := h) <;> decide
  | secWpolWrite m t v => apply K.execSecWpolWrite (hk := hk _) (he := h) <;> decide
  | denyCountRead m => apply K.execDenyCountRead (hk := hk _) (he := h) <;> decide
  | swSet m v => apply K.execSwSet (hk := hk _) (he := h) <;> decide
  | swClr m v => apply K.execSwClr (hk := hk _) (he := h) <;> decide
  | routeWrite m n v => apply K.execRouteWrite (hk := hk _) (he := h) <;> decide
  | maskWrite m k v => apply K.execMaskWrite (hk := hk _) (he := h) <;> decide
  | hostEoi m vec => apply K.execHostEoi (hk := hk _) (he := h) <;> decide
  | por also => exact K.execPor mem_allParts (hk _) h
  | pinReset also => exact K.execPinReset mem_allParts (hk _) h
  | brownCore also => exact K.execBrownCore mem_allParts (hk _) h
  | brownAon also => exact K.execBrownAon mem_allParts (hk _) h
  | lpOverload also => exact K.execLpOverload mem_allParts (hk _) h
  | wdtSsp also => exact K.execWdtSsp mem_allParts (hk _) h
  | lockstepMismatch also => exact K.execLockstepMismatch mem_allParts (hk _) h
  | softReset m v => exact K.execSoftReset mem_allParts (hk _) h
  | thermalTrip also => exact K.execThermalTrip mem_allParts (hk _) h
  | thermalHoldEnd => apply K.execThermalHoldEnd (hk := hk _) (he := h) <;> decide
  | resetRelease e => exact K.execResetRelease mem_allParts (hk _) h
  | aonCrystalConfirmed => exact K.execAonCrystalConfirmed (by decide) (hk _) h
  | pushBoot m vendorSig ownerSig => exact K.execPushBoot mem_allParts (hk _) h
  | enrol m lattice => apply K.execEnrol (hk := hk _) (he := h) <;> decide
  | erase m => apply K.execErase (hk := hk _) (he := h) <;> decide
  | debugUnlock m lattice => apply K.execDebugUnlock (hk := hk _) (he := h) <;> decide
  | debugLock m => apply K.execDebugLock (hk := hk _) (he := h) <;> decide
  | vaultEraseComplete => apply K.execVaultEraseComplete (hk := hk _) (he := h) <;> decide
  | bundleRegisterWrites => exact K.execBundleRegisterWrites mem_allParts (hk _) h
  | bundleOwnerTransfer lattice => exact K.execBundleOwnerTransfer mem_allParts (hk _) h
  | bundleVaultPolicy => exact K.execBundleVaultPolicy mem_allParts (hk _) h
  | bundleEraseVault => exact K.execBundleEraseVault mem_allParts (hk _) h
  | macReceive p bytes k => apply K.execMacReceive (hk := hk _) (he := h) <;> decide
  | macControlReceive p opcode => exact K.execMacControlReceive (by decide) (hk _) h
  | pauseReceive p da quanta => apply K.execPauseReceive (hk := hk _) (he := h) <;> decide
  | pauseExpiry p => apply K.execPauseExpiry (hk := hk _) (he := h) <;> decide
  | pauseXoffSend p => apply K.execPauseXoffSend (hk := hk _) (he := h) <;> decide
  | pauseRefresh p => apply K.execPauseRefresh (hk := hk _) (he := h) <;> decide
  | pauseXonSend p => apply K.execPauseXonSend (hk := hk _) (he := h) <;> decide
  | egressSelect p f => apply K.execEgressSelect (hk := hk _) (he := h) <;> decide
  | macTransmitEnd p => apply K.execMacTransmitEnd (hk := hk _) (he := h) <;> decide
  | ageingHeadCheck => apply K.execAgeingHeadCheck (hk := hk _) (he := h) <;> decide
  | gateIntervalExpiry p => apply K.execGateIntervalExpiry (hk := hk _) (he := h) <;> decide
  | gateSwapArm m p v => apply K.execGateSwapArm (hk := hk _) (he := h) <;> decide
  | gateBankSwap p => apply K.execGateBankSwap (hk := hk _) (he := h) <;> decide
  | hsrPassThrough p bytes k => apply K.execHsrPassThrough (hk := hk _) (he := h) <;> decide
  | tblWrite m v => apply K.execTblWrite (hk := hk _) (he := h) <;> decide
  | tblRead m v => apply K.execTblRead (hk := hk _) (he := h) <;> decide
  | fdbWrite m v => apply K.execFdbWrite (hk := hk _) (he := h) <;> decide
  | fdbInsert m v => apply K.execFdbInsert (hk := hk _) (he := h) <;> decide
  | fdbDelete m v => apply K.execFdbDelete (hk := hk _) (he := h) <;> decide
  | fdbLookup m v => apply K.execFdbLookup (hk := hk _) (he := h) <;> decide
  | agePeriodWrite m v => apply K.execAgePeriodWrite (hk := hk _) (he := h) <;> decide
  | fdbAgeSweep => apply K.execFdbAgeSweep (hk := hk _) (he := h) <;> decide
  | purgeScanComplete => apply K.execPurgeScanComplete (hk := hk _) (he := h) <;> decide
  | withdrawalPost => exact K.execWithdrawalPost (by decide) (hk _) h
  | withdrawalScanComplete => apply K.execWithdrawalScanComplete (hk := hk _) (he := h) <;> decide
  | dropRingLostRead m => apply K.execDropRingLostRead (hk := hk _) (he := h) <;> decide
  | smpLostRead m => apply K.execSmpLostRead (hk := hk _) (he := h) <;> decide
  | gateAdmission f => apply K.execGateAdmission (hk := hk _) (he := h) <;> decide
  | unitTakesEntry c => apply K.execUnitTakesEntry (hk := hk _) (he := h) <;> decide
  | signatureResult tag ok => exact K.execSignatureResult (by decide) (hk _) h
  | verdict tag => apply K.execVerdict (hk := hk _) (he := h) <;> decide
  | replayMarkDurable key => apply K.execReplayMarkDurable (hk := hk _) (he := h) <;> decide
  | gateHoldLimitExpiry chan => apply K.execGateHoldLimitExpiry (hk := hk _) (he := h) <;> decide
  | catInstall m v => apply K.execCatInstall (hk := hk _) (he := h) <;> decide
  | catEnable m v => apply K.execCatEnable (hk := hk _) (he := h) <;> decide
  | catDisable m v => apply K.execCatDisable (hk := hk _) (he := h) <;> decide
  | catRevoke m v => apply K.execCatRevoke (hk := hk _) (he := h) <;> decide
  | catRead m v => apply K.execCatRead (hk := hk _) (he := h) <;> decide
  | catCommandDurable => apply K.execCatCommandDurable (hk := hk _) (he := h) <;> decide
  | sieveWrite m v => apply K.execSieveWrite (hk := hk _) (he := h) <;> decide
  | sieveRead m v => apply K.execSieveRead (hk := hk _) (he := h) <;> decide
  | keyPoolWrite m w v => apply K.execKeyPoolWrite (hk := hk _) (he := h) <;> decide
  | vrSizeWrite m v => apply K.execVrSizeWrite (hk := hk _) (he := h) <;> decide
  | vrOverrunRead m => apply K.execVrOverrunRead (hk := hk _) (he := h) <;> decide
  | gateCtrlWrite m v => apply K.execGateCtrlWrite (hk := hk _) (he := h) <;> decide
  | svcPost n addr => apply K.execSvcPost (hk := hk _) (he := h) <;> decide
  | serviceRequestEnd lane => apply K.execServiceRequestEnd (hk := hk _) (he := h) <;> decide
  | supplyWarning aon => apply K.execSupplyWarning (hk := hk _) (he := h) <;> decide
  | supplyVerifyAbandon => apply K.execSupplyVerifyAbandon (hk := hk _) (he := h) <;> decide
  | supplyWarningClear aon => apply K.execSupplyWarningClear (hk := hk _) (he := h) <;> decide
  | cntIncrement m c => apply K.execCntIncrement (hk := hk _) (he := h) <;> decide
  | cntRaise m c => apply K.execCntRaise (hk := hk _) (he := h) <;> decide
  | cntRead m c => apply K.execCntRead (hk := hk _) (he := h) <;> decide
  | counterDurable => apply K.execCounterDurable (hk := hk _) (he := h) <;> decide
  | journalExport m v => apply K.execJournalExport (hk := hk _) (he := h) <;> decide
  | journalExportDone => apply K.execJournalExportDone (hk := hk _) (he := h) <;> decide
  | auditDroppedRead m => apply K.execAuditDroppedRead (hk := hk _) (he := h) <;> decide
  | logCompaction log => apply K.execLogCompaction (hk := hk _) (he := h) <;> decide
  | journalSecondEnd => apply K.execJournalSecondEnd (hk := hk _) (he := h) <;> decide
  | journalAllowanceAccrual => exact K.execJournalAllowanceAccrual (by decide) (by decide) (hk _) h
  | linkUp p speed errs => apply K.execLinkUp (hk := hk _) (he := h) <;> decide
  | linkDown p half why errs => apply K.execLinkDown (hk := hk _) (he := h) <;> decide
  | sdsEnable m l => apply K.execSdsEnable (hk := hk _) (he := h) <;> decide
  | anRestart m l => apply K.execAnRestart (hk := hk _) (he := h) <;> decide
  | prbsErrRead m l errs => apply K.execPrbsErrRead (hk := hk _) (he := h) <;> decide
  | verifySend p => apply K.execVerifySend (hk := hk _) (he := h) <;> decide
  | respondReceive p => apply K.execRespondReceive (hk := hk _) (he := h) <;> decide
  | verifyReceive p => apply K.execVerifyReceive (hk := hk _) (he := h) <;> decide
  | lpiEntry p => apply K.execLpiEntry (hk := hk _) (he := h) <;> decide
  | lpiExit p => apply K.execLpiExit (hk := hk _) (he := h) <;> decide
  | lpiRx p on => apply K.execLpiRx (hk := hk _) (he := h) <;> decide
  | redCtrlWrite m p v => apply K.execRedCtrlWrite (hk := hk _) (he := h) <;> decide
  | dupEntryExpiry pair => apply K.execDupEntryExpiry (hk := hk _) (he := h) <;> decide
  | mdioRead m l v => apply K.execMdioRead (hk := hk _) (he := h) <;> decide
  | mdioWrite m l v => apply K.execMdioWrite (hk := hk _) (he := h) <;> decide
  | mdioAddress m l v => apply K.execMdioAddress (hk := hk _) (he := h) <;> decide
  | mdioPostReadIncrement m l v => apply K.execMdioPostReadIncrement (hk := hk _) (he := h) <;> decide
  | mdioFrameEnd l data => apply K.execMdioFrameEnd (hk := hk _) (he := h) <;> decide
  | plkCommit m n => apply K.execPlkCommit (hk := hk _) (he := h) <;> decide
  | plkUncommit m n => apply K.execPlkUncommit (hk := hk _) (he := h) <;> decide
  | plkStart m n => apply K.execPlkStart (hk := hk _) (he := h) <;> decide
  | plkStop m n => apply K.execPlkStop (hk := hk _) (he := h) <;> decide
  | requestMode m n mode => apply K.execRequestMode (hk := hk _) (he := h) <;> decide
  | cycleStart n gcount => apply K.execCycleStart (hk := hk _) (he := h) <;> decide
  | fetchPoint n slot => apply K.execFetchPoint (hk := hk _) (he := h) <;> decide
  | actionPoint n slot => apply K.execActionPoint (hk := hk _) (he := h) <;> decide
  | plTransmitEnd n => apply K.execPlTransmitEnd (hk := hk _) (he := h) <;> decide
  | plFrameReceive n chB lt lt2 bits => apply K.execPlFrameReceive (hk := hk _) (he := h) <;> decide
  | slotEnd n slot => apply K.execSlotEnd (hk := hk _) (he := h) <;> decide
  | nitStart n => apply K.execNitStart (hk := hk _) (he := h) <;> decide
  | listenTimeout n edge => apply K.execListenTimeout (hk := hk _) (he := h) <;> decide
  | echoMismatch n chB => apply K.execEchoMismatch (hk := hk _) (he := h) <;> decide
  | guardianWindowOpen n slot => apply K.execGuardianWindowOpen (hk := hk _) (he := h) <;> decide
  | guardianWindowClose n slot => apply K.execGuardianWindowClose (hk := hk _) (he := h) <;> decide
  | comparatorFire n k => apply K.execComparatorFire (hk := hk _) (he := h) <;> decide
  | mdbStart m n => apply K.execMdbStart (hk := hk _) (he := h) <;> decide
  | mdbStop m n => apply K.execMdbStop (hk := hk _) (he := h) <;> decide
  | recover m n => apply K.execRecover (hk := hk _) (he := h) <;> decide
  | abort m n mask => apply K.execAbort (hk := hk _) (he := h) <;> decide
  | integrationComplete n => exact K.execIntegrationComplete (by decide) (by decide) (hk _) h
  | recoveryComplete n => apply K.execRecoveryComplete (hk := hk _) (he := h) <;> decide
  | txBufferLoad n b => apply K.execTxBufferLoad (hk := hk _) (he := h) <;> decide
  | arbitrationStart n => apply K.execArbitrationStart (hk := hk _) (he := h) <;> decide
  | mdbFrameSent n edges => apply K.execMdbFrameSent (hk := hk _) (he := h) <;> decide
  | mdbFrameFailed n why inData exempt edges => apply K.execMdbFrameFailed (hk := hk _) (he := h) <;> decide
  | mdbLifeExpiry n b => apply K.execMdbLifeExpiry (hk := hk _) (he := h) <;> decide
  | mdbFrameReceive n rec_ esi err inData heavy ago => apply K.execMdbFrameReceive (hk := hk _) (he := h) <;> decide
  | rxFifoDrain n => apply K.execRxFifoDrain (hk := hk _) (he := h) <;> decide
  | mdbModeChange n => exact K.execMdbModeChange (by decide) (hk _) h
  | mdbWake n => apply K.execMdbWake (hk := hk _) (he := h) <;> decide
  | lastErrRead m n => apply K.execLastErrRead (hk := hk _) (he := h) <;> decide
  | ptcNop n => apply K.execPtcNop (hk := hk _) (he := h) <;> decide
  | ptcSet n => apply K.execPtcSet (hk := hk _) (he := h) <;> decide
  | ptcMov n pads => apply K.execPtcMov (hk := hk _) (he := h) <;> decide
  | ptcOut n => apply K.execPtcOut (hk := hk _) (he := h) <;> decide
  | ptcIn n pads => apply K.execPtcIn (hk := hk _) (he := h) <;> decide
  | ptcPush n => apply K.execPtcPush (hk := hk _) (he := h) <;> decide
  | ptcPull n => apply K.execPtcPull (hk := hk _) (he := h) <;> decide
  | ptcWait n pads => apply K.execPtcWait (hk := hk _) (he := h) <;> decide
  | ptcAt n => apply K.execPtcAt (hk := hk _) (he := h) <;> decide
  | ptcJmp n pads => apply K.execPtcJmp (hk := hk _) (he := h) <;> decide
  | ptcIllegal n => apply K.execPtcIllegal (hk := hk _) (he := h) <;> decide
  | ptcStallEnd n pads => apply K.execPtcStallEnd (hk := hk _) (he := h) <;> decide
  | atFire n pads => apply K.execAtFire (hk := hk _) (he := h) <;> decide
  | packetLoad n => apply K.execPacketLoad (hk := hk _) (he := h) <;> decide
  | progWrite m n k v => apply K.execProgWrite (hk := hk _) (he := h) <;> decide
  | inject m n v => apply K.execInject (hk := hk _) (he := h) <;> decide
  | ptcAbort m n v => apply K.execPtcAbort (hk := hk _) (he := h) <;> decide
  | ptcRestart m n v => apply K.execPtcRestart (hk := hk _) (he := h) <;> decide
  | ptcRun m n v => apply K.execPtcRun (hk := hk _) (he := h) <;> decide
  | ownWrite m n k v => apply K.execOwnWrite (hk := hk _) (he := h) <;> decide
  | dmaRecv n => apply K.execDmaRecv (hk := hk _) (he := h) <;> decide
  | dmaSend n => apply K.execDmaSend (hk := hk _) (he := h) <;> decide
  | dmaRead n => apply K.execDmaRead (hk := hk _) (he := h) <;> decide
  | dmaWrite n => apply K.execDmaWrite (hk := hk _) (he := h) <;> decide
  | dmaCplRead n => apply K.execDmaCplRead (hk := hk _) (he := h) <;> decide
  | qhTxHeadWrite n k v => exact K.execQhTxHeadWrite (by decide) (hk _) h
  | qhRxTailWrite n k v => exact K.execQhRxTailWrite (by decide) (hk _) h
  | jobNextRead n => exact K.execJobNextRead (by decide) (by decide) (hk _) h
  | jobEnd n tag => apply K.execJobEnd (hk := hk _) (he := h) <;> decide
  | jobCompletionRecord => apply K.execJobCompletionRecord (hk := hk _) (he := h) <;> decide
  | crcData n sz v => exact K.execCrcData (by decide) (hk _) h
  | tnowLoRead m => apply K.execTnowLoRead (hk := hk _) (he := h) <;> decide
  | timerArm n t v => exact K.execTimerArm (by decide) (by decide) (hk _) h
  | engineTimerFire n t => apply K.execEngineTimerFire (hk := hk _) (he := h) <;> decide
  | engineWdtKick n v => exact K.execEngineWdtKick (by decide) (hk _) h
  | engineWatchdogExpiry n => apply K.execEngineWatchdogExpiry (hk := hk _) (he := h) <;> decide
  | ckptCommit n v => exact K.execCkptCommit (by decide) (by decide) (hk _) h
  | migReady n k len => exact K.execMigReady (by decide) (by decide) (hk _) h
  | migDone n k => apply K.execMigDone (hk := hk _) (he := h) <;> decide
  | migrationSwitch c => apply K.execMigrationSwitch (hk := hk _) (he := h) <;> decide
  | migrationAbandon c => apply K.execMigrationAbandon (hk := hk _) (he := h) <;> decide
  | loadPers m slot sigOk => apply K.execLoadPers (hk := hk _) (he := h) <;> decide
  | unloadPers m slot => apply K.execUnloadPers (hk := hk _) (he := h) <;> decide
  | rebalance m => apply K.execRebalance (hk := hk _) (he := h) <;> decide
  | declareDead m n => apply K.execDeclareDead (hk := hk _) (he := h) <;> decide
  | postJob m n cls2 => apply K.execPostJob (hk := hk _) (he := h) <;> decide
  | bindWrite m c v => apply K.execBindWrite (hk := hk _) (he := h) <;> decide
  | placementRecompute => apply K.execPlacementRecompute (hk := hk _) (he := h) <;> decide
  | engineDeclaredDead n tcm => apply K.execEngineDeclaredDead (hk := hk _) (he := h) <;> decide
  | takeoverComplete n => apply K.execTakeoverComplete (hk := hk _) (he := h) <;> decide
  | mgpWatchdogExpiry => apply K.execMgpWatchdogExpiry (hk := hk _) (he := h) <;> decide
  | h32Add c => apply K.execH32Add (hk := hk _) (he := h) <;> decide
  | h32Sub c => apply K.execH32Sub (hk := hk _) (he := h) <;> decide
  | h32Neg c => apply K.execH32Neg (hk := hk _) (he := h) <;> decide
  | h32And c => apply K.execH32And (hk := hk _) (he := h) <;> decide
  | h32Or c => apply K.execH32Or (hk := hk _) (he := h) <;> decide
  | h32Xor c => apply K.execH32Xor (hk := hk _) (he := h) <;> decide
  | h32Andn c => apply K.execH32Andn (hk := hk _) (he := h) <;> decide
  | h32Slt c => apply K.execH32Slt (hk := hk _) (he := h) <;> decide
  | h32Sltu c => apply K.execH32Sltu (hk := hk _) (he := h) <;> decide
  | h32Sll c => apply K.execH32Sll (hk := hk _) (he := h) <;> decide
  | h32Srl c => apply K.execH32Srl (hk := hk _) (he := h) <;> decide
  | h32Sra c => apply K.execH32Sra (hk := hk _) (he := h) <;> decide
  | h32Clz c => apply K.execH32Clz (hk := hk _) (he := h) <;> decide
  | h32Sextb c => apply K.execH32Sextb (hk := hk _) (he := h) <;> decide
  | h32Sexth c => apply K.execH32Sexth (hk := hk _) (he := h) <;> decide
  | h32Addi c => apply K.execH32Addi (hk := hk _) (he := h) <;> decide
  | h32Andi c => apply K.execH32Andi (hk := hk _) (he := h) <;> decide
  | h32Ori c => apply K.execH32Ori (hk := hk _) (he := h) <;> decide
  | h32Xori c => apply K.execH32Xori (hk := hk _) (he := h) <;> decide
  | h32Slti c => apply K.execH32Slti (hk := hk _) (he := h) <;> decide
  | h32Sltiu c => apply K.execH32Sltiu (hk := hk _) (he := h) <;> decide
  | h32Lui c => apply K.execH32Lui (hk := hk _) (he := h) <;> decide
  | h32Slli c => apply K.execH32Slli (hk := hk _) (he := h) <;> decide
  | h32Srli c => apply K.execH32Srli (hk := hk _) (he := h) <;> decide
  | h32Srai c => apply K.execH32Srai (hk := hk _) (he := h) <;> decide
  | h32Mul c => apply K.execH32Mul (hk := hk _) (he := h) <;> decide
  | h32Mulh c => apply K.execH32Mulh (hk := hk _) (he := h) <;> decide
  | h32Mulhu c => apply K.execH32Mulhu (hk := hk _) (he := h) <;> decide
  | h32Div c => apply K.execH32Div (hk := hk _) (he := h) <;> decide
  | h32Divu c => apply K.execH32Divu (hk := hk _) (he := h) <;> decide
  | h32Rem c => apply K.execH32Rem (hk := hk _) (he := h) <;> decide
  | h32Remu c => apply K.execH32Remu (hk := hk _) (he := h) <;> decide
  | h32Lw c => apply K.execH32Lw (hk := hk _) (he := h) <;> decide
  | h32Lh c => apply K.execH32Lh (hk := hk _) (he := h) <;> decide
  | h32Lhu c => apply K.execH32Lhu (hk := hk _) (he := h) <;> decide
  | h32Lb c => apply K.execH32Lb (hk := hk _) (he := h) <;> decide
  | h32Lbu c => apply K.execH32Lbu (hk := hk _) (he := h) <;> decide
  | h32Lwpi c => apply K.execH32Lwpi (hk := hk _) (he := h) <;> decide
  | h32Sw c => exact K.execH32Sw mem_allParts (hk _) h
  | h32Sh c => exact K.execH32Sh mem_allParts (hk _) h
  | h32Sb c => exact K.execH32Sb mem_allParts (hk _) h
  | h32Swpi c => exact K.execH32Swpi mem_allParts (hk _) h
  | farLoadData c => apply K.execFarLoadData (hk := hk _) (he := h) <;> decide
  | h32Beq c => apply K.execH32Beq (hk := hk _) (he := h) <;> decide
  | h32Bne c => apply K.execH32Bne (hk := hk _) (he := h) <;> decide
  | h32Blt c => apply K.execH32Blt (hk := hk _) (he := h) <;> decide
  | h32Bge c => apply K.execH32Bge (hk := hk _) (he := h) <;> decide
  | h32Bltu c => apply K.execH32Bltu (hk := hk _) (he := h) <;> decide
  | h32Bgeu c => apply K.execH32Bgeu (hk := hk _) (he := h) <;> decide
  | h32Jal c => apply K.execH32Jal (hk := hk _) (he := h) <;> decide
  | h32Jalr c => apply K.execH32Jalr (hk := hk _) (he := h) <;> decide
  | h32Rpt c => apply K.execH32Rpt (hk := hk _) (he := h) <;> decide
  | h32Rptu c => apply K.execH32Rptu (hk := hk _) (he := h) <;> decide
  | h32Wfe c => apply K.execH32Wfe (hk := hk _) (he := h) <;> decide
  | h32Wfet c => apply K.execH32Wfet (hk := hk _) (he := h) <;> decide
  | h32Waitt c => apply K.execH32Waitt (hk := hk _) (he := h) <;> decide
  | waitEnd c => apply K.execWaitEnd (hk := hk _) (he := h) <;> decide
  | h32Sev c => apply K.execH32Sev (hk := hk _) (he := h) <;> decide
  | h32Eret c => apply K.execH32Eret (hk := hk _) (he := h) <;> decide
  | h32Ecall c => apply K.execH32Ecall (hk := hk _) (he := h) <;> decide
  | h32Ebreak c => apply K.execH32Ebreak (hk := hk _) (he := h) <;> decide
  | h32Csrr c => apply K.execH32Csrr (hk := hk _) (he := h) <;> decide
  | h32Csrw c => apply K.execH32Csrw (hk := hk _) (he := h) <;> decide
  | h32Csrs c => apply K.execH32Csrs (hk := hk _) (he := h) <;> decide
  | h32Csrc c => apply K.execH32Csrc (hk := hk _) (he := h) <;> decide
  | exceptionEntry c ecc => exact K.execExceptionEntry (by decide) (by decide) (hk _) h
  | interruptEntry c => exact K.execInterruptEntry (by decide) (hk _) h
  | storeAsync c => exact K.execStoreAsync (by decide) (hk _) h
  | coreWdtKick c => apply K.execCoreWdtKick (hk := hk _) (he := h) <;> decide
  | bankCtrlWrite m b v => apply K.execBankCtrlWrite (hk := hk _) (he := h) <;> decide
  | drainComplete b => apply K.execDrainComplete (hk := hk _) (he := h) <;> decide
  | zeroingComplete b => apply K.execZeroingComplete (hk := hk _) (he := h) <;> decide
  | bankPowerRequest m b pwr => apply K.execBankPowerRequest (hk := hk _) (he := h) <;> decide
  | bankWakeComplete b => apply K.execBankWakeComplete (hk := hk _) (he := h) <;> decide
  | replace m v => apply K.execReplace (hk := hk _) (he := h) <;> decide
  | scrubBank m v => apply K.execScrubBank (hk := hk _) (he := h) <;> decide
  | scrubRow b row lo hi => apply K.execScrubRow (hk := hk _) (he := h) <;> decide
  | eccWriteback => exact K.execEccWriteback (by decide) (hk _) h
  | collide a mA bytesA mB => apply K.execCollide (hk := hk _) (he := h) <;> decide
  | bankDenial m a wnr => apply K.execBankDenial (hk := hk _) (he := h) <;> decide
  | bnkDenyCountRead m => apply K.execBnkDenyCountRead (hk := hk _) (he := h) <;> decide
  | perstAssert why cut => apply K.execPerstAssert (hk := hk _) (he := h) <;> decide
  | hostTxDescriptor desc buf f => apply K.execHostTxDescriptor (hk := hk _) (he := h) <;> decide
  | hostRxFrame descs f => apply K.execHostRxFrame (hk := hk _) (he := h) <;> decide
  | tailWrite m r v => apply K.execTailWrite (hk := hk _) (he := h) <;> decide
  | ringEnable m r v => apply K.execRingEnable (hk := hk _) (he := h) <;> decide
  | ringStop m r v => apply K.execRingStop (hk := hk _) (he := h) <;> decide
  | modUsExpiry r => apply K.execModUsExpiry (hk := hk _) (he := h) <;> decide
  | fifoDataRead m f => apply K.execFifoDataRead (hk := hk _) (he := h) <;> decide
  | fifoFlush m f v => apply K.execFifoFlush (hk := hk _) (he := h) <;> decide
  | aqPost m a v => apply K.execAqPost (hk := hk _) (he := h) <;> decide
  | aqRead m a => apply K.execAqRead (hk := hk _) (he := h) <;> decide
  | aqFlush m a v => apply K.execAqFlush (hk := hk _) (he := h) <;> decide
  | lockRead m k => apply K.execLockRead (hk := hk _) (he := h) <;> decide
  | lockRelease m k v => apply K.execLockRelease (hk := hk _) (he := h) <;> decide
  | forceRelease m v => apply K.execForceRelease (hk := hk _) (he := h) <;> decide
  | mbxLockRead m k => apply K.execMbxLockRead (hk := hk _) (he := h) <;> decide
  | mbxLockRelease m k v => apply K.execMbxLockRelease (hk := hk _) (he := h) <;> decide
  | mbxSend m k v => apply K.execMbxSend (hk := hk _) (he := h) <;> decide
  | mbxAck m k v => apply K.execMbxAck (hk := hk _) (he := h) <;> decide
  | mbxReset m k v => apply K.execMbxReset (hk := hk _) (he := h) <;> decide
  | ref10mLoss => apply K.execRef10mLoss (hk := hk _) (he := h) <;> decide
  | ref10mRegain => apply K.execRef10mRegain (hk := hk _) (he := h) <;> decide
  | refCtrlWrite m v => apply K.execRefCtrlWrite (hk := hk _) (he := h) <;> decide
  | rateWrite m b v => apply K.execRateWrite (hk := hk _) (he := h) <;> decide
  | adjSet m b => apply K.execAdjSet (hk := hk _) (he := h) <;> decide
  | adjStep m b => apply K.execAdjStep (hk := hk _) (he := h) <;> decide
  | adjSlew m b ppm => apply K.execAdjSlew (hk := hk _) (he := h) <;> decide
  | adjCancel m b => apply K.execAdjCancel (hk := hk _) (he := h) <;> decide
  | slewComplete b => apply K.execSlewComplete (hk := hk _) (he := h) <;> decide
  | holdLimitExpiry b => apply K.execHoldLimitExpiry (hk := hk _) (he := h) <;> decide
  | tnsSnap m v => apply K.execTnsSnap (hk := hk _) (he := h) <;> decide
  | tbNsRead m b => apply K.execTbNsRead (hk := hk _) (he := h) <;> decide
  | captureEdge k rising ph => apply K.execCaptureEdge (hk := hk _) (he := h) <;> decide
  | capNsRead m k => apply K.execCapNsRead (hk := hk _) (he := h) <;> decide
  | tsrLostRead m => apply K.execTsrLostRead (hk := hk _) (he := h) <;> decide
  | outputArm m k v => apply K.execOutputArm (hk := hk _) (he := h) <;> decide
  | timedOutputEvent k => apply K.execTimedOutputEvent (hk := hk _) (he := h) <;> decide
  | pulseEnd k => apply K.execPulseEnd (hk := hk _) (he := h) <;> decide
  | ppsOutputEvent j => apply K.execPpsOutputEvent (hk := hk _) (he := h) <;> decide
  | stateReqActive m => apply K.execStateReqActive (hk := hk _) (he := h) <;> decide
  | stateReqDoze m now => apply K.execStateReqDoze (hk := hk _) (he := h) <;> decide
  | stateReqRetain m now => apply K.execStateReqRetain (hk := hk _) (he := h) <;> decide
  | stateReqVault m now => apply K.execStateReqVault (hk := hk _) (he := h) <;> decide
  | quiescenceComplete now => apply K.execQuiescenceComplete (hk := hk _) (he := h) <;> decide
  | quiesceTimeout => apply K.execQuiesceTimeout (hk := hk _) (he := h) <;> decide
  | wakeSource src => apply K.execWakeSource (hk := hk _) (he := h) <;> decide
  | wakeComplete e => exact K.execWakeComplete mem_allParts (hk _) h
  | padRelease m v => apply K.execPadRelease (hk := hk _) (he := h) <;> decide
  | portgrpReqWrite m v => apply K.execPortgrpReqWrite (hk := hk _) (he := h) <;> decide
  | budgetTick est p => apply K.execBudgetTick (hk := hk _) (he := h) <;> decide
  | clusterStepWrite m c v => apply K.execClusterStepWrite (hk := hk _) (he := h) <;> decide
  | clusterStepApplied c => apply K.execClusterStepApplied (hk := hk _) (he := h) <;> decide
  | sensorSample t => apply K.execSensorSample (hk := hk _) (he := h) <;> decide
  | rtcAlarm => apply K.execRtcAlarm (hk := hk _) (he := h) <;> decide
  | rtcSecWrite m v => apply K.execRtcSecWrite (hk := hk _) (he := h) <;> decide
  | mgtAddressMatch addr rd => apply K.execMgtAddressMatch (hk := hk _) (he := h) <;> decide
  | mgtByte b stop => apply K.execMgtByte (hk := hk _) (he := h) <;> decide
  | rxDataRead m => apply K.execRxDataRead (hk := hk _) (he := h) <;> decide
  | txDataWrite m v => apply K.execTxDataWrite (hk := hk _) (he := h) <;> decide
  | telemetrySnapshot => apply K.execTelemetrySnapshot (hk := hk _) (he := h) <;> decide
  | atbSelect m b v => apply K.execAtbSelect (hk := hk _) (he := h) <;> decide
  | atbConnect b => apply K.execAtbConnect (hk := hk _) (he := h) <;> decide
  | atbEnablementChange => apply K.execAtbEnablementChange (hk := hk _) (he := h) <;> decide
  | refusedRead m => apply K.execRefusedRead (hk := hk _) (he := h) <;> decide
  | tapReset => exact K.execTapReset (by decide) (hk _) h
  | extest => apply K.execExtest (hk := hk _) (he := h) <;> decide
  | idcode => exact K.execIdcode (by decide) (hk _) h
  | samplePreload => exact K.execSamplePreload (by decide) (hk _) h
  | extestPulse => apply K.execExtestPulse (hk := hk _) (he := h) <;> decide
  | extestTrain => apply K.execExtestTrain (hk := hk _) (he := h) <;> decide
  | clamp => apply K.execClamp (hk := hk _) (he := h) <;> decide
  | highz => apply K.execHighz (hk := hk _) (he := h) <;> decide
  | dbgAccess => exact K.execDbgAccess (by decide) (hk _) h
  | prodTest => exact K.execProdTest (by decide) (hk _) h
  | bypass code => exact K.execBypass (by decide) (hk _) h
  | perstRelease => exact K.execPerstRelease (by decide) (hk _) h
  | pcieLinkUp width speed => apply K.execPcieLinkUp (hk := hk _) (he := h) <;> decide
  | pmicEnDrivenHigh => exact K.execPmicEnDrivenHigh (by decide) (hk _) h
  | releaseRecordDurable tag => apply K.execReleaseRecordDurable (hk := hk _) (he := h) <;> decide
  | pllLockLost k => apply K.execPllLockLost (hk := hk _) (he := h) <;> decide
  | sensorCalibration bad => apply K.execSensorCalibration (hk := hk _) (he := h) <;> decide
  | stretchMaxExpiry => apply K.execStretchMaxExpiry (hk := hk _) (he := h) <;> decide

/-- Settles O51: what a command keeps is more than its frame. -/
theorem framesOfCommands : Obligations.FramesOfCommands := by
  unfold Obligations.FramesOfCommands
  exact fun c s t h => (exec_keeps h).only

/-! Steps. -/

theorem step_nil {s : State} (h : s.pending = []) : step s = .next (idleTick s) := by
  unfold step
  rw [h]

theorem step_cons {s : State} {c : Instr} {l : List Instr} (h : s.pending = c :: l) :
    step s = exec c { s with pending := l } := by
  unfold step
  rw [h]

theorem idleTick_keeps (s : State) : Keeps [.cnts, .sys, .time, .pwr] s (idleTick s) :=
  K.idleTick (by decide) (by decide) (by decide) (by decide) (Keeps.refl _ s)

/-- A step keeps what its command keeps, or what the passing of a cycle keeps. -/
theorem step_keeps {s t : State} (h : step s = .next t) :
    Keeps [.cnts, .sys, .time, .pwr] s t ∨
      ∃ c l, s.pending = c :: l ∧ exec c { s with pending := l } = .next t ∧ Keeps (touched c) { s with pending := l } t := by
  cases hp : s.pending with
  | nil =>
    rw [step_nil hp] at h
    cases h
    exact .inl (idleTick_keeps s)
  | cons c l =>
    rw [step_cons hp] at h
    exact .inr ⟨c, l, rfl, h, exec_keeps h⟩

/-- Settles O53: the memory rule, the identity and the log are in what every step keeps. -/
theorem memoryStaysCanonical : Obligations.MemoryStaysCanonical := by
  unfold Obligations.MemoryStaysCanonical
  intro s t hwf hstep
  obtain hk | ⟨c, l, -, -, hk⟩ := step_keeps hstep
  · exact ⟨hk.wf hwf, hk.deviceId, hk.slots, hk.log⟩
  · exact ⟨hk.wf hwf, hk.deviceId, hk.slots, hk.log⟩

/-! The vault's counters. -/

/-- The end of an erase is the only command that may lower a counter. -/
theorem falls_notMem_touched {c : Instr} (h : c ≠ .vaultEraseComplete) : Part.falls ∉ touched c := by
  cases c with dsimp only [touched]
  | vaultEraseComplete => exact absurd rfl h
  | _ => decide

/-- After the end of an erase every part of the vault reads as wiped. -/
theorem wiped_eraseDone {s : State} (h : (erasing s && s.vlt.waiting.isEmpty) = true) : Wiped (eraseDone s).vlt := by
  obtain ⟨y, ⟨-, -, hw⟩, hk⟩ := eraseDone_empty h
  rwa [hk.vlt.resolve_left (by decide)]

theorem vaultCounter_of_nil {s : State} (h : s.vlt.counters = []) (i : Nat) : vaultCounter s i = 0 := by
  unfold vaultCounter
  rw [h]
  exact ite_self _

/-- The end of an erase leaves the counters, or sets them all to 0 in an ERASING vault. -/
theorem vaultCounter_eraseDone (s : State) (i : Nat) :
    vaultCounter (eraseDone s) i = vaultCounter s i ∨ (owner s = 2 ∧ vaultCounter (eraseDone s) i = 0) := by
  by_cases h : (erasing s && s.vlt.waiting.isEmpty) = true
  · exact .inr ⟨of_decide_eq_true (Bool.and_eq_true_iff.1 h).1, vaultCounter_of_nil (wiped_eraseDone h).counters i⟩
  · unfold eraseDone
    rw [if_neg h]
    exact .inl rfl

/-- Settles O54: of the commands, only the end of an erase lets a counter fall, and it sets every one to 0. -/
theorem vaultCountersNeverFall : Obligations.VaultCountersNeverFall := by
  unfold Obligations.VaultCountersNeverFall
  intro s t i hstep
  obtain hk | ⟨c, l, hp, hexec, hk⟩ := step_keeps hstep
  · exact .inl (hk.falls.resolve_left (by decide) i)
  · by_cases hc : c = .vaultEraseComplete
    · subst hc
      cases hexec
      obtain hsame | ⟨howner, hzero⟩ := vaultCounter_eraseDone { s with pending := l } i
      · exact .inl (Nat.le_of_eq (congrArg BitVec.toNat hsame).symm)
      · exact .inr ⟨by rw [hp]; rfl, howner, hzero⟩
    · exact .inl (hk.falls.resolve_left (falls_notMem_touched hc) i)

/-! Progress. -/

/-- Every command answers a next state: the meanings of all rows are total. -/
theorem exec_next (c : Instr) (s : State) : ∃ t, exec c s = .next t := by
  cases c with
  | tnowLoRead m =>
    dsimp only [exec, execTnowLoRead]
    split <;> exact ⟨_, rfl⟩
  | _ => exact ⟨_, rfl⟩

theorem step_next (s : State) : ∃ t, step s = .next t := by
  cases hp : s.pending with
  | nil => exact ⟨_, step_nil hp⟩
  | cons c l =>
    rw [step_cons hp]
    exact exec_next _ _

theorem runsOn (n : Nat) (s : State) : RunsOn n s := by
  induction n generalizing s with
  | zero => trivial
  | succ n ih =>
    obtain ⟨t, ht⟩ := step_next s
    exact ⟨t, ht, ih t⟩

/-- Settles O55: every command is total, so no step of a run stops it. -/
theorem theBlockNeverStops : Obligations.TheBlockNeverStops := by
  unfold Obligations.TheBlockNeverStops
  exact ⟨exec_next, runsOn⟩

end Sys2Proof.Proofs
end

section
/-! Register writes and the common header (R46–R52), for the family of register pages. -/

namespace Sys2Proof.Proofs

open Sys2Proof Sys2Proof.Machine Sys2Proof.Machine.Reg Sys2Proof.Laws

/-! An access that is let through answers what its register does. -/

section
variable {m : Master} {a : Nat} {s u : State}

theorem next_write {f : State → State} (h : MayWrite s m a) (hu : f s = u) :
    (.next (gatedWrite m a f s) : Res) = .next (answer u 0) := by
  rw [gatedWrite_open h, hu]

theorem next_read {f : State → State × Word} {w : Word} (h : MayRead s m a) (hu : f s = (u, w)) :
    (.next (gatedRead m a f s) : Res) = .next (answer u w) := by
  rw [gatedRead_open h, hu]

theorem next_header {off : Nat} {pg : Page} {f : Page → State → State} (hp : pageOf a = some pg)
    (h : MayWrite s m (pg.base + off)) (hu : f pg s = u) : (.next (onHeader m a off f s) : Res) = .next (answer u 0) := by
  rw [onHeader_open hp h, hu]

end

/-! A full-word write to a plain register (R7, R51). -/

/-- A write that is let through finds the debugger's port open. -/
theorem portClosed_of_mayWrite {s : State} {m : Master} {a : Nat} (h : MayWrite s m a) : portClosed s m = false := by
  unfold MayWrite writeOpen at h
  split at h
  · cases h
  · simp only [Bool.and_eq_true, Bool.not_eq_true'] at h
    exact h.1.1

/-- A full word at a word address of the register pages is stored as a register. -/
theorem busStore_word {s : State} {m : Master} {a : Nat} (ha : 0x10000000 ≤ a ∧ a < 0x14000000) (h4 : a % 4 = 0)
    (h : MayWrite s m a) (v : Word) : busStore m a (leBytes (accBytes .b4) v.toNat) s = answer (regStore m a v s) 0 := by
  have hlen : (leBytes (accBytes .b4) v.toNat).length = 4 := rfl
  have hregion : regionOf a 4 = .page := by
    unfold regionOf inShared
    rw [if_neg (by simp only [Bool.or_eq_true, Bool.and_eq_true, decide_eq_true_eq]; omega), if_neg (by omega),
      if_neg (by omega), if_pos ha]
  have hport : portStops m .page s = false := portClosed_of_mayWrite h
  unfold busStore
  simp only [hlen, hregion, hport, Bool.false_eq_true, if_false, h4, and_self, if_true]
  rw [gatedWrite_open h, accBytes, leNat_leBytes4]

theorem pageOf_TMP {off : Nat} (h : off < 0x1000) : pageOf (TMP + off) = some ⟨.TMP, 0, TMP⟩ := by
  have hoff : (TMP + off - 0x10000000) / 0x1000 = 3 := by unfold TMP; omega
  unfold pageOf
  rw [if_neg (by unfold TMP; omega)]
  simp only [hoff, Nat.reduceEqDiff, if_false, if_true]

/-- A register of TMP beyond the header is plain. -/
theorem regStore_TMP {off : Nat} (h : off < 0x1000) (hh : 0x40 ≤ off) (m : Master) (v : Word) (s : State) :
    regStore m (TMP + off) v s = plainWrite (regDesc .TMP 0 off) m ⟨.TMP, 0, TMP⟩ off v s := by
  have hcmd : TMP + off ≠ SYS_CMD := by unfold TMP SYS_CMD; omega
  have hsoft : TMP + off ≠ SYS_SOFT_RESET := by unfold TMP SYS_SOFT_RESET; omega
  have hbody : inHeader off = false := decide_eq_false (by omega)
  unfold regStore
  rw [if_neg hcmd, if_neg hsoft]
  simp only [pageOf_TMP h, Nat.add_sub_cancel_left]
  unfold pageWrite
  rw [hbody]
  rfl

/-- A register with no field of the SSP's own, on a page that is not locked, takes the written bits. -/
theorem plainWrite_free {d : RDesc} {s : State} {pg : Page} (hssp : d.ssp = 0) (hlock : getB s (CFG_LOCK pg.base) 0 = false)
    (m : Master) (off : Nat) (v : Word) :
    plainWrite d m pg off v s = setR s (pg.base + off) (plainValue d 0 (getR s (pg.base + off)) v) := by
  unfold plainWrite
  simp only [hssp, hlock, ite_self, Bool.false_eq_true, if_false, touches_zero]
  rfl

theorem execRegisterWrite_TMP {s : State} {m : Master} {off : Nat} (h : MayWrite s m (TMP + off)) (h4 : off % 4 = 0)
    (hh : 0x40 ≤ off) (ho : off < 0x1000) (hlock : getB s (CFG_LOCK TMP) 0 = false) (hssp : (regDesc .TMP 0 off).ssp = 0)
    (v : Word) : busStore m (w32 (TMP + off)).toNat (leBytes (accBytes .b4) v.toNat) s =
      answer (setR s (TMP + off) (plainValue (regDesc .TMP 0 off) 0 (getR s (TMP + off)) v)) 0 := by
  have haddr : (w32 (TMP + off)).toNat = TMP + off := by
    unfold w32
    rw [BitVec.toNat_ofNat, Nat.mod_eq_of_lt (by unfold TMP; omega)]
  have hpage : 0x10000000 ≤ TMP + off ∧ TMP + off < 0x14000000 := by unfold TMP; omega
  have hword : (TMP + off) % 4 = 0 := by unfold TMP; omega
  rw [haddr, busStore_word hpage hword h, regStore_TMP ho hh, plainWrite_free (pg := ⟨.TMP, 0, TMP⟩) hssp hlock]

/-! Locking, power, interrupts. -/

theorem cfgLock_set {v : Word} (hv : bit v 0 = true) (pg : Page) (s : State) :
    cfgLock pg v s = putB (putB s (CFG_LOCK pg.base) 0 true) (BLK_CTRL pg.base) 31 true := by
  unfold cfgLock
  rw [if_pos hv]

theorem blkPowerReq_runs {a : Nat} {pg : Page} (hp : pageOf a = some pg) (hd : blkHasDomain pg.blk = true) {p : Nat}
    (hp3 : p < 3) (s : State) : blkPowerReq pg.base p s =
      (let ch := decide (getF s (BLK_STATUS pg.base) 3 2 ≠ p)
       putB (putB (putF s (BLK_CTRL pg.base) 3 2 p) (BLK_STATUS pg.base) 4 ch) (BLK_STATUS pg.base) 1 ch) := by
  have hst : getF (putF s (BLK_CTRL pg.base) 3 2 p) (BLK_STATUS pg.base) 3 2 = getF s (BLK_STATUS pg.base) 3 2 := by
    unfold getF
    rw [getR_putF_ne (by unfold BLK_STATUS BLK_CTRL; omega)]
  unfold blkPowerReq
  simp only [pageOf_base hp]
  rw [if_neg (by rw [hd]; simp only [Bool.true_eq_false, false_or]; omega), hst]

/-- The end of a change to a state other than ON: the pads of a Tense unit that goes down are held. -/
theorem powerDone_down {pg : Page} {s : State} (hrun : getB s (BLK_STATUS pg.base) 4 = true) (hif : pg.blk ≠ .HIF)
    (hnew : getF s (BLK_CTRL pg.base) 3 2 ≠ 0) : powerDone pg s =
      putB (putB (putF (if pg.blk = .TNS then padsHold 0x40 s else s) (BLK_STATUS pg.base) 3 2
        (getF s (BLK_CTRL pg.base) 3 2)) (BLK_STATUS pg.base) 4 false) (BLK_STATUS pg.base) 1 false := by
  have hends : powerEnds pg.blk (getF s (BLK_STATUS pg.base) 3 2) (getF s (BLK_CTRL pg.base) 3 2) s =
      if pg.blk = .TNS then padsHold 0x40 s else s := by
    obtain ⟨b, i, base⟩ := pg
    cases b with
    | HIF => exact absurd rfl hif
    | TNS => exact if_pos hnew
    | _ => rfl
  unfold powerDone
  simp only [hrun, if_true, hends, hnew, and_false, if_false]

theorem irqForce_sets {pg : Page} (hm : pg.blk ≠ .MBX) (v : Word) (s : State) :
    irqForce pg v s = updIrq (setR s (IRQ_STATUS pg.base)
      (getR s (IRQ_STATUS pg.base) ||| (v &&& w32 (irqMask pg.blk)))) pg.base := by
  unfold irqForce irqPut
  rw [if_neg hm]

/-! The soft reset of LCK (R48). -/

/-- A soft reset of LCK has nothing to end and no state beside the registers. -/
theorem softReset_LCK (s : State) : softReset ⟨.LCK, 0, LCK⟩ s = updIrq { s with
    regs := sclear s.regs LCK (LCK + blkSpan .LCK) fun k => !(softKeeps ⟨.LCK, 0, LCK⟩ (k - LCK))
    cnts := sclear s.cnts LCK (LCK + blkSpan .LCK) fun _ => true
    snaps := sclear s.snaps LCK (LCK + blkSpan .LCK) fun _ => true } LCK := rfl

theorem keeps_softReset_LCK (s : State) :
    Keeps [.regs, .cnts, .snaps, .outs, .intc] s (softReset ⟨.LCK, 0, LCK⟩ s) := by
  rw [softReset_LCK]
  apply K.updIrq (by decide) (by decide) (by decide)
  rw [Keeps.lit_regs_cnts_snaps (by decide) (by decide) (by decide)]
  exact Keeps.refl _ s

theorem getB_softReset_enable (s : State) :
    getB (softReset ⟨.LCK, 0, LCK⟩ s) (BLK_CTRL LCK) 0 = getB s (BLK_CTRL LCK) 0 := by
  unfold getB
  rw [softReset_LCK, getR_updIrq (by decide)]
  unfold getR sget
  rw [find_sclear (by decide)]

/-- What is written to `BLK_CTRL` with `SOFT_RST` set and the block's own `EN` is the soft reset of LCK. -/
theorem blkCtrl_LCK {v : Word} {s : State} (hv : bit v 0 = getB s (BLK_CTRL LCK) 0) :
    blkCtrl ⟨.LCK, 0, LCK⟩ (setBit v 1 true) s = softReset ⟨.LCK, 0, LCK⟩ s := by
  have hrst : bit (setBit v 1 true) 1 = true := bit_setBit_same (by decide)
  have hen : bit (setBit v 1 true) 0 = bit v 0 := bit_setBit_ne (by decide) (by decide)
  have hpage : pageOf LCK = some ⟨.LCK, 0, LCK⟩ := rfl
  have hreq : ∀ (p : Nat) (u : State), blkPowerReq LCK p u = u := by
    intro p u
    unfold blkPowerReq
    rw [hpage]
    exact if_pos (.inl rfl)
  unfold blkCtrl
  simp only [hrst, if_true, hen, hreq]
  unfold enWrite
  rw [if_pos ((getB_softReset_enable s).trans hv.symm)]

theorem owner_reset : ∀ k : Fin 128, softKeeps ⟨.LCK, 0, LCK⟩ (LCK_OWNER k.val - LCK) = false ∧
    fld (w32 (regReset (LCK_OWNER k.val))) 5 0 = 0 := by decide

theorem getF_softReset_owner (s : State) (k : Fin 128) : getF (softReset ⟨.LCK, 0, LCK⟩ s) (LCK_OWNER k.val) 5 0 = 0 := by
  obtain ⟨hclear, hreset⟩ := owner_reset k
  have hstill : Still (LCK_OWNER k.val) := by
    simp only [Still, LCK_OWNER, IRQ_STATUS, INT, INT_MSI_X_PBA]; omega
  unfold getF
  rw [softReset_LCK, getR_updIrq hstill]
  unfold getR sget
  rw [find_sclear_gone (by unfold LCK LCK_OWNER; omega) (by simp only [blkSpan, LCK, LCK_OWNER]; omega) (by rw [hclear]; rfl)]
  exact hreset

theorem ends_softRst_LCK {m : Master} {page v : Word} {s : State} (hp : pageOf page.toNat = some ⟨.LCK, 0, LCK⟩)
    (h : MayWrite s m (BLK_CTRL LCK)) (hv : bit v 0 = getB s (BLK_CTRL LCK) 0) : Ends (.softRst m page v) s fun t =>
      Only [.regs, .cnts, .snaps, .outs, .resp, .intc] s t ∧ ∀ k : Fin 128, getF t (LCK_OWNER k.val) 5 0 = 0 := by
  refine ⟨_, next_header hp h (blkCtrl_LCK hv), ?_, getF_softReset_owner s⟩
  exact (K.answer (by decide) ((keeps_softReset_LCK s).mono (by decide))).only

/-! Counter snapshots (R52). -/

/-- `SNAP` of a page copies its counters, notes the Tense value and counts the copy. -/
theorem snapPage_copies (t : DWord) (s : State) (pg : Page) :
    let u := snapPage t s pg
    let r := snapRange s pg.base (pg.base + blkSpan pg.blk) (getB s (CNT_CTRL pg.base) 1 && cntClears pg.blk)
    getR64 u (CNT_SNAP_TIME_LO pg.base) = t ∧ getR u (CNT_SNAP_SEQ pg.base) = getR s (CNT_SNAP_SEQ pg.base) + 1 ∧
      u.snaps = r.snaps ∧ u.cnts = r.cnts := by
  unfold snapPage setR64 getR64
  dsimp only
  generalize hr : snapRange s pg.base (pg.base + blkSpan pg.blk) (getB s (CNT_CTRL pg.base) 1 && cntClears pg.blk) = r
  have hregs : ∀ a, getR r a = getR s a := fun a => by rw [← hr]; rfl
  have hlo : CNT_SNAP_TIME_LO pg.base ≠ CNT_SNAP_SEQ pg.base ∧ CNT_SNAP_TIME_LO pg.base ≠ CNT_CTRL pg.base ∧
      CNT_SNAP_TIME_LO pg.base ≠ CNT_SNAP_TIME_LO pg.base + 4 := by
    simp only [CNT_SNAP_TIME_LO, CNT_SNAP_SEQ, CNT_CTRL]; omega
  have hhi : CNT_SNAP_TIME_LO pg.base + 4 ≠ CNT_SNAP_SEQ pg.base ∧ CNT_SNAP_TIME_LO pg.base + 4 ≠ CNT_CTRL pg.base := by
    simp only [CNT_SNAP_TIME_LO, CNT_SNAP_SEQ, CNT_CTRL]; omega
  refine ⟨?_, ?_, rfl, rfl⟩
  · rw [getR_setR_ne hhi.1, getR_putB_ne hhi.2, getR_setR_same, getR_setR_ne hlo.1, getR_putB_ne hlo.2.1,
      getR_setR_ne hlo.2.2, getR_setR_same, dword_hi_lo]
  · rw [getR_setR_same, getR_setR_ne (Ne.symm hhi.1), getR_setR_ne (Ne.symm hlo.1), hregs]

/-- `SNAP` with `CLR` beside it, for any block but SYS, is the copy of the block's own page. -/
theorem cntCtrl_snap {pg : Page} (hs : pg.blk ≠ .SYS) (clr : Bool) (s : State) :
    cntCtrl pg (w32 (1 + 2 * nb clr)) s = snapPage s.time.tense (putB s (CNT_CTRL pg.base) 1 clr) pg := by
  have hsnap : bit (w32 (1 + 2 * nb clr)) 0 = true := by cases clr <;> rfl
  have hclr : bit (w32 (1 + 2 * nb clr)) 1 = clr := by cases clr <;> rfl
  unfold cntCtrl snapCmd
  simp only [hsnap, hclr, if_true]
  rw [if_neg hs]
  rfl

theorem ends_cntSnap {m : Master} {page : Word} {clr : Bool} {pg : Page} {s : State} (hp : pageOf page.toNat = some pg)
    (h : MayWrite s m (CNT_CTRL pg.base)) (hs : pg.blk ≠ .SYS) : Ends (.cntSnap m page clr) s fun t =>
      Only [.regs, .cnts, .snaps, .resp] s t ∧ getR64 t (CNT_SNAP_TIME_LO pg.base) = s.time.tense ∧
      getR t (CNT_SNAP_SEQ pg.base) = getR s (CNT_SNAP_SEQ pg.base) + 1 ∧
      t.snaps = (snapRange s pg.base (pg.base + blkSpan pg.blk) false).snaps ∧
      t.cnts = (snapRange s pg.base (pg.base + blkSpan pg.blk) (clr && cntClears pg.blk)).cnts := by
  have hbit : getB (putB s (CNT_CTRL pg.base) 1 clr) (CNT_CTRL pg.base) 1 = clr := by
    unfold getB
    rw [getR_putB_same]
    exact bit_setBit_same (by decide)
  obtain ⟨htime, hseq, hsnaps, hcnts⟩ := snapPage_copies s.time.tense (putB s (CNT_CTRL pg.base) 1 clr) pg
  rw [hbit] at hcnts
  refine ⟨_, next_header hp h (cntCtrl_snap hs clr s), ?_, htime, ?_, hsnaps, hcnts⟩
  · exact (K.answer (by decide) ((K.snapPage (by decide) (by decide) (by decide)
      (K.putB (by decide) (Keeps.refl _ s))))).only
  · refine hseq.trans ?_
    rw [getR_putB_ne (by simp only [CNT_SNAP_SEQ, CNT_CTRL]; omega)]

/-- Settles O1: each command reaches its register, and the lemmas above say what it leaves there. -/
theorem commonHeaderCommands : Obligations.CommonHeaderCommands := by
  unfold Obligations.CommonHeaderCommands
  refine ⟨fun m off v s h h4 hh ho hlock hssp =>
      congrArg Host.Outcome.next (execRegisterWrite_TMP h h4 hh ho hlock hssp v),
    fun m page v pg s hp h hv => next_header hp h (cfgLock_set hv pg s),
    fun m page v s hp h hv => ends_softRst_LCK hp h hv,
    fun m page p pg s hp h hd hp3 => next_header hp h (blkPowerReq_runs hp hd hp3 s),
    fun page pg s hp hrun hif hnew => ?powerDone,
    fun m page v pg s hp h hm => next_header hp h (irqForce_sets hm v s),
    fun m page clr pg s hp h hs => ends_cntSnap hp h hs⟩
  case powerDone =>
    dsimp only [exec, execBlockPowerChangeDone]
    rw [hp]
    exact congrArg Host.Outcome.next (powerDone_down hrun hif hnew)

/-! The access policy and the interrupt controller (R55–R63). -/

/-- On an open page the SSP's write of `WPOL` is plain. -/
theorem wpolWrite_open {s : State} (hlock : getB s (CFG_LOCK SEC) 0 = false) (t : Nat) (v : Word) :
    wpolWrite mSSP t v s =
      setR s (SEC_WPOL t) (plainValue (regDesc .SEC 0 (0x100 + 4 * t)) 0 (getR s (SEC_WPOL t)) v) := by
  have haddr : SEC + (0x100 + 4 * t) = SEC_WPOL t := by unfold SEC SEC_WPOL; omega
  unfold wpolWrite plainWrite
  simp only [hlock, if_true, Bool.false_eq_true, if_false, touches_zero, Bool.false_and, haddr]
  rfl

theorem swSource_software {v : Word} (hv : 768 ≤ fld v 9 0) (b : Bool) (s : State) :
    swSource b v s = setLine s (fld v 9 0) b := by
  unfold swSource
  exact if_neg (Nat.not_lt.2 hv)

theorem routeWrite_free {m : Master} {n : Nat} {v : Word} {s : State}
    (h : getB s (INT_ROUTE n) 31 = false ∨ m = mSSP) (hv : fld v 2 0 < 5) : routeWrite m n v s =
      intcRefresh (setR s (INT_ROUTE n) ((getR s (INT_ROUTE n) &&& ~~~ 0x00073F07#32) ||| (v &&& 0x00073F07#32))) := by
  have hlet : ¬ ((bit (getR s (INT_ROUTE n)) 31 && decide (m ≠ mSSP)) = true) := by
    obtain h | h := h
    · rw [show bit (getR s (INT_ROUTE n)) 31 = false from h]; simp
    · simp [h]
  unfold routeWrite
  dsimp only
  rw [if_neg hlet, if_neg (Nat.not_le.2 hv)]

/-- A vector that is still asserted, unmasked and with the link up is sent again. -/
theorem hostEoi_again {v : Nat} {s : State} (hup : vecUp s.intc.reached v = true)
    (hmask : getB s (INT_MSI_X_table + 16 * v + 12) 0 = false) (hlink : linkUp s = true) : hostEoi v s =
      emit (putB s (INT_MSI_X_PBA + 4 * (v / 32)) (v % 32) false) (.msix v (getR s (INT_MSI_X_table + 16 * v))
        (getR s (INT_MSI_X_table + 16 * v + 4)) (getR s (INT_MSI_X_table + 16 * v + 8))) := by
  unfold hostEoi msixDue
  simp only [hup, hmask, hlink, Bool.false_eq_true, if_false, if_true]

/-- Settles O2: what the writes and reads of SEC and INT do where they are let through. -/
theorem policyAndInterruptCommands : Obligations.PolicyAndInterruptCommands := by
  unfold Obligations.PolicyAndInterruptCommands
  exact ⟨fun t v s h hlock => next_write h (wpolWrite_open hlock t.val v),
    fun m s h => next_read h rfl,
    fun m v s h hv => next_write h (swSource_software hv true s),
    fun m v s h hv => next_write h (swSource_software hv false s),
    fun m n v s h hfree hv => next_write h (routeWrite_free hfree hv),
    fun m k v s h => next_write h rfl,
    fun m v s h hup hmask hlink => next_write h (hostEoi_again hup hmask hlink)⟩

end Sys2Proof.Proofs
end

section
/-! Resets, start-up, ownership, debug and bundles (R64–R91), for the family of start-up and trust. -/

namespace Sys2Proof.Proofs

open Sys2Proof Sys2Proof.Machine Sys2Proof.Machine.Reg Sys2Proof.Laws

/-! Resets. -/

/-- What a reset records and keeps depends on the cause before it, the vault, the identity and the fuses alone. -/
theorem resetBy_congr {c : Nat} {also : BitVec 8} {s u t : State} (h : ResetBy c also u t)
    (hcause : getR u SYS_RESET_CAUSE = getR s SYS_RESET_CAUSE) (hvlt : u.vlt = s.vlt)
    (hid : u.sys.deviceId = s.sys.deviceId) (hslots : u.sys.slots = s.sys.slots) : ResetBy c also s t := by
  unfold ResetBy getF at h ⊢
  rwa [hcause, hvlt, hid, hslots] at h

theorem keeps_advanceNs (s : State) (n : Nat) : Keeps [.cnts, .sys, .time, .pwr] s (advanceNs s n) :=
  K.advanceNs (by decide) (by decide) (by decide) (by decide) (Keeps.refl _ s)

/-- The watchdog's reset comes after the time that it lets pass. -/
theorem resetBy_after_time {c : Nat} {also : BitVec 8} {s : State} (hc : 2 ^ (c - 1) < 256) (h : s.sys.held = false)
    (lock : Bool) (n : Nat) : ResetBy c also s (resetCause c also lock (advanceNs s n)) := by
  have hk := keeps_advanceNs s n
  exact resetBy_congr (reset_by hc ((held_advanceNs s n).trans h)) (getR_advanceNs s n _) (hk.vlt.resolve_left (by decide))
    hk.deviceId hk.slots

theorem resetCause_eq {c : Nat} {also : BitVec 8} {lock : Bool} {s : State} (h : s.sys.held = false) :
    resetCause c also lock s = resetAssert (Nat.lor also.toNat (2 ^ (c - 1))) lock s ∧
      getB (resetAssert (Nat.lor also.toNat (2 ^ (c - 1))) lock s) SYS_HEALTH 3 = lock := by
  refine ⟨rfl, ?_⟩
  unfold resetAssert
  rw [h]
  dsimp only
  rw [if_neg (by decide)]
  unfold getB
  rw [getR_with_sys, getR_putB_ne (by decide), getR_putB_same]
  exact bit_setBit_same (by decide)

/-- A thermal trip takes the rails down, alone or beside a power-on reset. -/
theorem pmicEn_thermalTrip {also : BitVec 8} {s : State} (h : s.sys.held = false) :
    (resetCause rcTherm also false s).sys.pmicEn = false := by
  have hbit : (Nat.lor also.toNat (2 ^ (rcTherm - 1))).testBit (rcTherm - 1) = true := by
    show (also.toNat ||| 2 ^ 7).testBit 7 = true
    rw [Nat.testBit_or, Nat.testBit_two_pow_self, Bool.or_true]
  have hup : ∀ b : Bool, (!b && !(true && !b)) = false := by decide
  unfold resetCause resetAssert
  rw [h, hbit]
  exact hup _

theorem softResetWrite_resets {s : State} (hp : s.sys.prog = none) : softResetWrite 0x00000A5A#32 s = resetCause rcSoft 0 false s := by
  unfold softResetWrite
  rw [hp]
  rfl

theorem softResetWrite_waits {s : State} {p : BundleProg} (hp : s.sys.prog = some p) :
    softResetWrite 0x00000A5A#32 s = { s with sys := { s.sys with softPend := true } } := by
  unfold softResetWrite
  rw [hp]
  rfl

/-- The THERM hold ends with the rails up, a second of always-on time later. -/
theorem ends_thermalHoldEnd {s : State} (h : s.sys.thermHold = true) : Ends .thermalHoldEnd s fun t =>
    Only [.cnts, .sys, .time, .pwr] s t ∧ t.sys.thermHold = false ∧ t.sys.pmicEn = true ∧ t.sys.pmicSramEn = true ∧
      t.time.aonNs = s.time.aonNs + 1000000000 := by
  have hend : thermHoldEnd s = { advanceCycles s 250000000 with sys := { (advanceCycles s 250000000).sys with
      thermHold := false, pmicEn := true, pmicSramEn := true } } := if_pos h
  refine ⟨_, rfl, (exec_keeps (c := .thermalHoldEnd) rfl).only, ?_⟩
  rw [hend]
  exact ⟨rfl, rfl, rfl, aonNs_advanceCycles s _⟩

/-- Settles O3: every cause asserts reset by the one rule, before or after what its own row does. -/
theorem resetCommands_hold : Obligations.ResetCommands := by
  unfold Obligations.ResetCommands
  refine ⟨fun also s h => ⟨_, rfl, resetAssert_por h⟩,
    fun also s h => ⟨_, rfl, reset_by (by decide) h⟩,
    fun also s h hrail => ⟨_, rfl, ?brownCore⟩,
    fun also s h => ⟨_, rfl, reset_by (by decide) h⟩,
    fun also s h hdev => ⟨_, rfl, ?lpOverload⟩,
    fun also s h => ⟨_, rfl, ?wdtSsp⟩,
    fun also s h => ⟨_, rfl, reset_by (by decide) h, (resetCause_eq h).2⟩,
    fun m s hw h hp => ⟨_, next_write hw (softResetWrite_resets hp), reset_by (c := rcSoft) (by decide) h⟩,
    fun m p s hw hp => next_write hw (softResetWrite_waits hp),
    fun also s h htrip => ⟨_, rfl, ?thermalTrip⟩,
    fun s h => ends_thermalHoldEnd h,
    fun s h hhold => congrArg Host.Outcome.next (if_pos ?pmicUp),
    fun s => rfl⟩
  case brownCore => rw [if_pos hrail]; exact reset_by (by decide) h
  case lpOverload => rw [if_pos hdev]; exact reset_by (by decide) h
  case wdtSsp =>
    split
    · exact reset_by (by decide) h
    · exact resetBy_after_time (by decide) h false _
  case thermalTrip =>
    rw [if_pos htrip]
    exact ⟨reset_by (by decide) h, pmicEn_thermalTrip h⟩
  case pmicUp => rw [h, hhold]; rfl

/-! Start-up (R68–R77). -/

theorem getR_waitHost_cfg (s : State) : getR (waitHost s) SYS_BOOT_CFG = getR s SYS_BOOT_CFG := by
  unfold waitHost
  rw [getR_setPhase (by decide) (by decide)]
  exact foldl_keeps (P := fun u : State => getR u SYS_BOOT_CFG = getR s SYS_BOOT_CFG) rfl fun u b _ hu =>
    (getR_putF_ne (by simp only [SYS_BOOT_CFG, BNK_BANK_CTRL]; omega)).trans hu

/-- The latched straps show the boot mode. -/
theorem getF_latchStraps_mode (e : BootEnv) (s : State) :
    getF (latchStraps e s) SYS_BOOT_CFG 1 0 = e.bootMode.toNat := by
  have hlt := e.bootMode.isLt
  unfold latchStraps getF
  rw [getR_setR_ne (by decide), getR_setR_same, fld_w32 (by decide)]
  cases e.eraseN <;> simp only [nb] <;> omega

theorem resetRelease_due {s : State} (h : releaseDue s = true) (e : BootEnv) :
    resetRelease e s = startUp e (latchStraps e s) := if_pos h

theorem ends_resetRelease_host {e : BootEnv} {s : State} (h : releaseDue s = true) (hmode : e.bootMode = 1)
    (hlogic : failedBlock e = 0) (hspares : sparesExhausted e = false) :
    Ends (.resetRelease e) s fun t => phase t = phWaitHost ∧ getF t SYS_BOOT_CFG 1 0 = 1 := by
  have hcfg : getF (latchStraps e s) SYS_BOOT_CFG 1 0 = 1 := by rw [getF_latchStraps_mode, hmode]; rfl
  have hrom : getF (startRom (latchStraps e s)) SYS_BOOT_CFG 1 0 = 1 := by
    unfold getF at hcfg ⊢
    rwa [getR_startRom_cfg]
  obtain ⟨v, n, hstart, hv⟩ := startUp_host hrom hlogic hspares
  refine ⟨_, congrArg Host.Outcome.next ((resetRelease_due h e).trans hstart), phase_setPhase _ (by decide), ?_⟩
  unfold getF at hcfg ⊢
  rw [getR_waitHost_cfg, getR_advanceCycles, hv]
  exact hcfg

/-- A failing block or too few spares ends start-up in DEGRADED_REFUSED. -/
theorem startUp_degraded {e : BootEnv} (h : failedBlock e ≠ 0 ∨ sparesExhausted e = true) (s : State) :
    phase (startUp e s) = phDegraded := by
  have hfail : (if failedBlock e ≠ 0 then failedBlock e else if sparesExhausted e then 8 else 0) ≠ 0 := by
    obtain h | h := h
    · rwa [if_pos h]
    · rw [h]; split <;> simp_all
  unfold startUp
  dsimp only
  by_cases hsys : failedBlock e = 1
  · rw [if_pos hsys]
    exact phase_setPhase _ (by decide)
  · rw [if_neg hsys, if_pos hfail]
    exact phase_setPhase _ (by decide)

/-! `SYS.CMD` (R77, R80–R91). -/

section
variable {m : Master} {s u : State} {f : State → State}

/-- A command of `SYS.CMD` that is let through while none is in progress. -/
theorem next_sysCmd (h : MayWrite s m SYS_CMD) (hb : sysCmdBusy s = false) (hu : f s = u) :
    (.next (gatedWrite m SYS_CMD (sysCmd f) s) : Res) = .next (answer u 0) := by
  refine next_write h (Eq.trans ?_ hu)
  unfold sysCmd
  rw [hb]
  rfl

end

theorem phase_sysCmdEnd (s : State) (r : Nat) : phase (sysCmdEnd s r) = phase s := by
  unfold phase getF
  rw [getR_sysCmdEnd (by decide) (by decide) (by decide)]

theorem pushBoot_runs {v o : Bool} {s : State} (hw : phase s = phWaitHost)
    (hload : (imgLoad 2 s.sys.badPages ⟨cmdArg s, v, o⟩ s).2 = true) :
    ∃ u, pushBoot v o s = sysCmdEnd u 2 ∧ phase u = phRun := by
  unfold pushBoot
  rw [if_pos hw]
  dsimp only
  rw [if_pos hload]
  exact ⟨_, rfl, phase_stepForward _ _⟩

theorem pushBoot_fails {v o : Bool} {s : State} (hw : phase s = phWaitHost)
    (hload : (imgLoad 2 s.sys.badPages ⟨cmdArg s, v, o⟩ s).2 = false) :
    ∃ u, pushBoot v o s = sysCmdEnd (setPhase u phWaitHost) 3 := by
  unfold pushBoot
  rw [if_pos hw]
  dsimp only
  rw [if_neg (by rw [hload]; decide)]
  exact ⟨_, rfl⟩

theorem ends_pushBoot_runs {m : Master} {v o : Bool} {s : State} (h : MayWrite s m SYS_CMD) (hb : sysCmdBusy s = false)
    (hw : phase s = phWaitHost) (hload : (imgLoad 2 s.sys.badPages ⟨cmdArg s, v, o⟩ s).2 = true) :
    Ends (.pushBoot m v o) s fun t => phase t = phRun ∧ getR t SYS_CMD_RESULT = 2 := by
  obtain ⟨u, hu, hphase⟩ := pushBoot_runs hw hload
  exact ⟨_, next_sysCmd h hb hu, (phase_sysCmdEnd u 2).trans hphase, sysCmdEnd_result u 2⟩

theorem ends_pushBoot_fails {m : Master} {v o : Bool} {s : State} (h : MayWrite s m SYS_CMD) (hb : sysCmdBusy s = false)
    (hw : phase s = phWaitHost) (hload : (imgLoad 2 s.sys.badPages ⟨cmdArg s, v, o⟩ s).2 = false) :
    Ends (.pushBoot m v o) s fun t => phase t = phWaitHost ∧ getR t SYS_CMD_RESULT = 3 := by
  obtain ⟨u, hu⟩ := pushBoot_fails hw hload
  exact ⟨_, next_sysCmd h hb hu, (phase_sysCmdEnd _ 3).trans (phase_setPhase u (by decide)), sysCmdEnd_result _ 3⟩

/-- Settles O4: where start-up ends by the straps and the self-test, and where a pushed image ends it. -/
theorem startUpCommands : Obligations.StartUpCommands := by
  unfold Obligations.StartUpCommands
  exact ⟨fun e s h hmode hlogic hspares => ends_resetRelease_host h hmode hlogic hspares,
    fun e s h hfail => ⟨_, congrArg Host.Outcome.next (resetRelease_due h e), startUp_degraded hfail _⟩,
    fun m v o s h hb hw hload => ends_pushBoot_runs h hb hw hload,
    fun m v o s h hb hw hload => ends_pushBoot_fails h hb hw hload,
    fun m v o s h hb hw => next_sysCmd h hb (if_neg hw)⟩

/-- The end of an erase, once no write waits: the vault, the table and the key pool are empty. -/
theorem ends_vaultEraseComplete {s : State} (ho : owner s = 2) (hw : s.vlt.waiting = []) :
    Ends .vaultEraseComplete s fun t =>
      Only [.regs, .free, .outs, .intc, .sys, .gate, .vlt, .test, .falls] s t ∧ t.gate.cat = [] ∧ t.gate.pool = [] ∧
      t.vlt.counters = [] ∧ t.vlt.marks = [] ∧ t.vlt.catImg = [] ∧ t.vlt.poolImg = [] ∧ t.vlt.persisted = [] ∧
      t.vlt.journal = [] ∧ t.vlt.eraseMark = false := by
  have hdue : (erasing s && s.vlt.waiting.isEmpty) = true := by
    rw [hw]
    exact Bool.and_eq_true_iff.2 ⟨decide_eq_true ho, rfl⟩
  obtain ⟨y, ⟨hcat, hpool, hwiped⟩, hk⟩ := eraseDone_empty hdue
  have hgate : (eraseDone s).gate = y.gate := hk.gate.resolve_left (by decide)
  rw [← hgate] at hcat hpool
  rw [← show (eraseDone s).vlt = y.vlt from hk.vlt.resolve_left (by decide)] at hwiped
  exact ⟨_, rfl, (exec_keeps (c := .vaultEraseComplete) rfl).only, hcat, hpool, hwiped.counters, hwiped.marks, hwiped.catImg,
    hwiped.poolImg, hwiped.persisted, hwiped.journal, hwiped.eraseMark⟩

theorem enrol_rejected {lattice : Bool} {s : State} (h : enrOk (cmdArg s) lattice s = false) :
    enrol lattice s = sysCmdEnd s 3 := if_neg fun hok => Bool.false_ne_true (h.symm.trans hok.2.2)

theorem debugUnlock_refused {lattice : Bool} {s : State} (h : tokenOk (cmdArg s) lattice s = false ∨ 8 ≤ debugFails s) :
    debugUnlock lattice s =
      sysCmdEnd (newChallenge (putF s SYS_DEBUG_STATUS 11 8 (min 8 (debugFails s + 1)))) 3 := by
  refine if_neg fun ⟨hfew, hok⟩ => ?_
  obtain h | h := h
  · exact Bool.false_ne_true (h.symm.trans hok)
  · omega

/-- Settles O5: the commands of `SYS.CMD` on the owner and on debug, by the conditions that let them act. -/
theorem ownershipAndDebugCommands : Obligations.OwnershipAndDebugCommands := by
  unfold Obligations.OwnershipAndDebugCommands
  exact ⟨fun m lattice s h hb ho hv hok => next_sysCmd h hb (if_pos ⟨ho, hv, hok⟩),
    fun m lattice s h hb hok => next_sysCmd h hb (enrol_rejected hok),
    fun m s h hb ho hstrap hage => next_sysCmd h hb (if_pos ⟨ho, hstrap, hage⟩),
    fun s ho hw => ends_vaultEraseComplete ho hw,
    fun m lattice s h hb hfew hok => next_sysCmd h hb (if_pos ⟨hfew, hok⟩),
    fun m lattice s h hb hno => next_sysCmd h hb (debugUnlock_refused hno),
    fun m s h hb hu => next_sysCmd h hb (if_pos hu)⟩

/-! Bundles (R83–R86). -/

section
variable {k : Nat → Bool} {lattice : Bool} {f : Bundle → State → State} {x : Bundle} {r : List Bundle} {s : State}
  (hx : s.sys.bundles = x :: r) (hk : k (bunKind x.bytes) = true) (hh : s.sys.held = false) (ha : awake s = true)
include hx hk hh ha

/-- Out of reset and awake, the oldest bundle of the command's kind is worked on. -/
theorem bunHandle_works : bunHandle k lattice f s =
    if erasing s then bunEnd x.tag ocRevoked s
    else if s.sys.prog.isSome then f x s
    else match bunRefusal x lattice s with
      | some c => bunEnd x.tag c s
      | none => f x s := by
  unfold bunHandle
  simp only [hx, hk, hh, ha, Bool.not_true, Bool.or_self, Bool.false_eq_true, if_false] <;> rfl

theorem bunHandle_revoked (he : erasing s = true) : bunHandle k lattice f s = bunEnd x.tag ocRevoked s := by
  rw [bunHandle_works hx hk hh ha, if_pos he]

theorem bunHandle_refused (he : erasing s = false) (hp : s.sys.prog = none) {c : Nat}
    (hc : bunRefusal x lattice s = some c) : bunHandle k lattice f s = bunEnd x.tag c s := by
  rw [bunHandle_works hx hk hh ha, he, hp, hc]
  rfl

theorem bunHandle_acts (he : erasing s = false) (hgo : s.sys.prog.isSome = true ∨ bunRefusal x lattice s = none) :
    bunHandle k lattice f s = f x s := by
  rw [bunHandle_works hx hk hh ha, he]
  obtain hgo | hgo := hgo
  · rw [hgo]; rfl
  · rw [hgo]; exact ite_self _

end

theorem not_eq_false_of_true {b : Bool} (h : b = true) : ¬ b = false := fun hf => Bool.false_ne_true (hf.symm.trans h)

/-- Settles O6: the oldest bundle is refused, revoked or handed to the meaning of its kind. -/
theorem bundleCommands : Obligations.BundleCommands := by
  unfold Obligations.BundleCommands
  refine ⟨fun x r s hx hk hh ha he hgo => congrArg Host.Outcome.next (bunHandle_acts hx ?writes hh ha he hgo),
    fun lattice x r s hx hk hh ha he hgo hfree => congrArg Host.Outcome.next
      ((bunHandle_acts hx (decide_eq_true hk) hh ha he hgo).trans (if_neg (not_eq_false_of_true hfree))),
    fun x r s hx hk hh ha he hgo hfree => congrArg Host.Outcome.next
      ((bunHandle_acts hx (decide_eq_true hk) hh ha he hgo).trans (if_neg (not_eq_false_of_true hfree))),
    fun x r s hx hk hh ha he hgo hfree => congrArg Host.Outcome.next
      ((bunHandle_acts hx (decide_eq_true hk) hh ha he hgo).trans (if_neg (not_eq_false_of_true hfree))),
    fun c lattice x r code s hw hx hh ha he hp hc => ?refused,
    fun c lattice x r s hw hx hh ha he => ?revoked⟩
  case writes => rw [decide_eq_false hk]; rfl
  case refused =>
    obtain ⟨k, f, hexec, hk⟩ := bunWorks_handle hw s
    rw [hexec, bunHandle_refused hx hk hh ha he hp hc]
  case revoked =>
    obtain ⟨k, f, hexec, hk⟩ := bunWorks_handle hw s
    rw [hexec, bunHandle_revoked hx hk hh ha he]

end Sys2Proof.Proofs
end

section
/-! Gate lists, tables, the forwarding database and what leaves the queues unsent (R104–R143), for the family of the
switch core. -/

namespace Sys2Proof.Proofs

open Sys2Proof Sys2Proof.Machine Sys2Proof.Machine.Reg Sys2Proof.Laws

/-! Gate lists. -/

theorem gateInterval_expires {s : State} {p : Nat} {g : GateParm} {x : Nat × Nat} (hg : sfind s.sw.goper p = some g)
    (hx : gateAt s p (gateNow s p) = some x) : gateInterval s p = schedSettle (advanceTb s g.tb x.2) p := by
  unfold gateInterval
  rw [hg, hx]

theorem gateSwap_armed {s : State} {p : Nat} {g : GateParm} (hg : sfind s.sw.gswap p = some g) : gateSwap s p =
    (let st := cycleStart g.base g.cycle (((tbOf s g.tb).v + fracOne - 1) / fracOne)
     let s1 := advanceTb s g.tb st
     let s2 := { s1 with sw := { s1.sw with gswap := sdel s1.sw.gswap p, goper := sset s1.sw.goper p { g with start := st } } }
     schedSettle (putB (putB s2 (SWC_GATE_CTRL p) 17 false) (SWC_GATE_CTRL p) 16 (!(getB s2 (SWC_GATE_CTRL p) 16))) p) := by
  unfold gateSwap
  rw [hg]

/-- A gate control written with `SWAP`, none being armed, latches the parameters written before. -/
theorem gateCtrl_arms {m : Master} {p : Nat} {v : Word} {s : State} (h : getB s (SWC_GATE_CTRL p) 17 = false) :
    sfind (gateCtrl m p 0 (setBit v 17 true) s).sw.gswap p = some
      { cycle := (getR s (SWC_GATE_CTRL p + 4)).toNat
        base := (getR64 s (SWC_GATE_CTRL p + 12)).toNat * 1000000000 + getF s (SWC_GATE_CTRL p + 8) 29 0
        tb := fld v 19 18, start := 0, frozen := 0xFF } := by
  have hset : bit (setBit v 17 true) 17 = true := bit_setBit_same (by decide)
  have hold : bit (getR s (SWC_GATE_CTRL p + 4 * 0)) 17 = false := h
  have htb : ∀ c : Prop, ∀ [Decidable c], ∀ x y : Nat, fld (if c then setFld (setBit v 17 true) 5 0 x
      else setFld (setBit v 17 true) 13 8 y) 19 18 = fld v 19 18 := by
    intro c _ x y
    split <;> rw [fld_setFld_ne (by decide) (by decide), fld_setBit_ne (by decide) (by decide)]
  unfold gateCtrl
  simp only [ne_eq, not_true_eq_false, if_false, hset, hold, Bool.not_false, Bool.and_self, if_true, htb]
  rw [find_sset, if_pos rfl]

theorem ends_gateSwapArm {m : Master} {p : Fin 224} {v : Word} {s : State} (h : MayWrite s m (SWC_GATE_CTRL p.val))
    (hs : getB s (SWC_GATE_CTRL p.val) 17 = false) : Ends (.gateSwapArm m p v) s fun t =>
      Only [.regs, .outs, .intc, .resp, .sw] s t ∧
      sfind t.sw.gswap p.val = some
        { cycle := (getR s (SWC_GATE_CTRL p.val + 4)).toNat
          base := (getR64 s (SWC_GATE_CTRL p.val + 12)).toNat * 1000000000 + getF s (SWC_GATE_CTRL p.val + 8) 29 0
          tb := fld v 19 18, start := 0, frozen := 0xFF } := by
  refine ⟨_, next_write h rfl, ?_, gateCtrl_arms hs⟩
  exact (K.answer (by decide) (K.gateCtrl (by decide) (by decide) (by decide) (by decide) (Keeps.refl _ s))).only

/-! Tables. -/

section
variable {m : Master} {v : Word} {s : State}

theorem tblCmd_write : tblCmd m (setFld v 2 0 1) s = tblWriteCmd m v s := by
  unfold tblCmd tblWriteCmd
  simp (disch := decide) only [fld_setFld_same, fld_setFld_ne]
  rfl

theorem tblCmd_read : tblCmd m (setFld v 2 0 2) s = tblReadCmd m v s := by
  unfold tblCmd tblReadCmd
  simp (disch := decide) only [fld_setFld_same, fld_setFld_ne]
  rfl

/-- A rule within the table whose action is listed is stored. -/
theorem tblWriteCmd_rule (ht : fld v 5 4 = 0) (hi : fld v 27 16 < 1024) (ha : fld (tblStage s m 16) 2 0 < 5) :
    tblWriteCmd m v s =
      (let ws := (List.range 16).map (tblStage s m) ++ [tblStage s m 16 &&& 0xDFFFF87F#32]
       tblEnd (commitEpoch { s with sw := { s.sw with rules := sset s.sw.rules (fld v 27 16) ws } }) m 0) := by
  have hact : fld (tblStage s m 16 &&& 0xDFFFF87F#32) 2 0 = fld (tblStage s m 16) 2 0 := by
    refine Nat.eq_of_testBit_eq fun i => ?_
    rw [testBit_fld, testBit_fld, BitVec.toNat_and, Nat.testBit_and]
    by_cases h : i < 2 + 1 - 0
    · have hmask : (0xDFFFF87F#32).toNat.testBit (0 + i) = true :=
        (show ∀ j < 3, (0xDFFFF87F#32).toNat.testBit (0 + j) = true by decide) i h
      rw [hmask, Bool.and_true]
    · rw [decide_eq_false h, Bool.false_and, Bool.false_and]
  have hfit : ¬ (1024 ≤ fld v 27 16 ∨ 5 ≤ fld (tblStage s m 16 &&& 0xDFFFF87F#32) 2 0) := by
    rw [hact]
    omega
  unfold tblWriteCmd
  dsimp only
  rw [if_pos ht, if_neg hfit]

theorem tblWriteCmd_vlan (ht : fld v 5 4 = 1) : tblWriteCmd m v s =
    tblEnd (commitEpoch { s with sw := { s.sw with
      vlan := sset s.sw.vlan (fld v 27 16) (tblStage s m 0 &&& 0xC00FFFFF#32) } }) m 0 := by
  unfold tblWriteCmd
  rw [ht]
  rfl

theorem tblWriteCmd_group (ht : fld v 5 4 = 2) (hi : fld v 27 16 < 1024) : tblWriteCmd m v s =
    tblEnd (commitEpoch { s with sw := { s.sw with
      groups := sset s.sw.groups (fld v 27 16) ((List.range 7).map (tblStage s m)) } }) m 0 := by
  unfold tblWriteCmd
  dsimp only
  rw [ht, if_neg (by decide), if_neg (by decide), if_pos ⟨rfl, hi⟩]

/-- An entry outside the tables ends with FORMAT. -/
theorem tblWriteCmd_outside (h1 : fld v 5 4 ≠ 1) (h : 1024 ≤ fld v 27 16 ∨ fld v 5 4 = 3) :
    tblWriteCmd m v s = tblEnd s m 2 := by
  unfold tblWriteCmd
  dsimp only
  by_cases h0 : fld v 5 4 = 0
  · rw [if_pos h0, if_pos (.inl (h.resolve_right (by omega)))]
  · rw [if_neg h0, if_neg h1, if_neg (by omega)]

theorem tblReadCmd_rule (ht : fld v 5 4 = 0) (hi : fld v 27 16 < 1024) : tblReadCmd m v s =
    tblEnd (stagePut s m (SWC_TBL_STAGE 0) (sget s.sw.rules (fld v 27 16) (List.replicate 17 0))) m 0 :=
  if_pos ⟨ht, hi⟩

theorem tblReadCmd_vlan (ht : fld v 5 4 = 1) : tblReadCmd m v s =
    tblEnd (stagePut s m (SWC_TBL_STAGE 0) [sget s.sw.vlan (fld v 27 16) 0]) m 0 := by
  unfold tblReadCmd
  dsimp only
  rw [if_neg (by omega), if_pos ht]

theorem tblReadCmd_group (ht : fld v 5 4 = 2) (hi : fld v 27 16 < 1024) : tblReadCmd m v s =
    tblEnd (stagePut s m (SWC_TBL_STAGE 0) (sget s.sw.groups (fld v 27 16) (List.replicate 7 0))) m 0 := by
  unfold tblReadCmd
  dsimp only
  rw [if_neg (by omega), if_neg (by omega), if_pos ⟨ht, hi⟩]

end

/-- Settles O7: the gate lists by the bank that is armed or in operation, the tables by the type of the entry addressed. -/
theorem gateListsAndTables : Obligations.GateListsAndTables := by
  unfold Obligations.GateListsAndTables
  exact ⟨fun p g x s hg hx => congrArg Host.Outcome.next (gateInterval_expires hg hx),
    fun m p v s h hs => ends_gateSwapArm h hs,
    fun p g s hg => congrArg Host.Outcome.next (gateSwap_armed hg),
    fun m v s h ht hi ha => next_write h (tblCmd_write.trans (tblWriteCmd_rule ht hi ha)),
    fun m v s h ht => next_write h (tblCmd_write.trans (tblWriteCmd_vlan ht)),
    fun m v s h ht hi => next_write h (tblCmd_write.trans (tblWriteCmd_group ht hi)),
    fun m v s h h1 ho => next_write h (tblCmd_write.trans (tblWriteCmd_outside h1 ho)),
    fun m v s h ht hi => next_write h (tblCmd_read.trans (tblReadCmd_rule ht hi)),
    fun m v s h ht => next_write h (tblCmd_read.trans (tblReadCmd_vlan ht)),
    fun m v s h ht hi => next_write h (tblCmd_read.trans (tblReadCmd_group ht hi))⟩

/-! The forwarding database. -/

section
variable {m : Master} {v : Word} {s : State} {i : Nat}

theorem bit_setFld_op {k : Nat} : bit (setFld v 2 0 k) 8 = bit v 8 := bit_setFld_ne (by decide) (by decide)

theorem fdbCmd_write : fdbCmd m (setFld v 2 0 1) s = fdbWriteCmd m v s := by
  unfold fdbCmd fdbWriteCmd
  simp (disch := decide) only [fld_setFld_same, fld_setFld_ne, bit_setFld_op]
  rfl

theorem fdbCmd_insert : fdbCmd m (setFld v 2 0 2) s = fdbInsertCmd m v s := by
  unfold fdbCmd fdbInsertCmd
  simp (disch := decide) only [fld_setFld_same, fld_setFld_ne, bit_setFld_op]
  rfl

theorem fdbCmd_delete : fdbCmd m (setFld v 2 0 3) s = fdbDeleteCmd m v s := by
  unfold fdbCmd fdbDeleteCmd
  simp (disch := decide) only [fld_setFld_same, fld_setFld_ne, bit_setFld_op]
  rfl

theorem fdbCmd_lookup : fdbCmd m (setFld v 2 0 4) s = fdbLookupCmd m v s := by
  unfold fdbCmd fdbLookupCmd
  simp (disch := decide) only [fld_setFld_same, fld_setFld_ne]
  rfl

theorem fdbWriteCmd_stores (hok : fdbFormatOk (fdbStaged s m) = true)
    (hset : fdbSet s (fdbVid (fdbStaged s m)) (fdbMac (fdbStaged s m)) = fld v 29 16 / 4) :
    fdbWriteCmd m v s = fdbCommit s m (fld v 29 16) (fdbStaged s m) (bit v 8) := by
  unfold fdbWriteCmd
  dsimp only
  rw [hok, hset]
  exact if_neg (by simp)

theorem fdbWriteCmd_refused (h : fdbFormatOk (fdbStaged s m) = false ∨
    fdbSet s (fdbVid (fdbStaged s m)) (fdbMac (fdbStaged s m)) ≠ fld v 29 16 / 4) :
    fdbWriteCmd m v s = fdbEnd s m 5 (fld v 29 16) := by
  refine if_pos ?_
  rw [Bool.or_eq_true, Bool.not_eq_true', decide_eq_true_eq]
  exact h

/-- A key that is there keeps its way and its HIT bit. -/
theorem fdbInsertCmd_found (hok : fdbFormatOk (fdbStaged s m) = true)
    (hi : fdbFind s (fdbVid (fdbStaged s m)) (fdbMac (fdbStaged s m)) = some i) : fdbInsertCmd m v s =
      fdbCommit s m i [fdbW (fdbStaged s m) 0, fdbW (fdbStaged s m) 1,
        setBit (fdbW (fdbStaged s m) 2) 28 (bit (fdbW (fdbEnt s i) 2) 28), 0#32] (bit v 8) := by
  unfold fdbInsertCmd
  dsimp only
  rw [hok, hi]
  rfl

theorem fdbInsertCmd_free (hok : fdbFormatOk (fdbStaged s m) = true)
    (hnone : fdbFind s (fdbVid (fdbStaged s m)) (fdbMac (fdbStaged s m)) = none)
    (hi : fdbFree s (fdbVid (fdbStaged s m)) (fdbMac (fdbStaged s m)) = some i) :
    fdbInsertCmd m v s = fdbCommit s m i (fdbStaged s m) (bit v 8) := by
  unfold fdbInsertCmd
  dsimp only
  rw [hok, hnone, hi]
  rfl

theorem fdbLookupCmd_found (hi : fdbFind s (fdbVid (fdbStaged s m)) (fdbMac (fdbStaged s m)) = some i) :
    fdbLookupCmd m v s = fdbEnd (stagePut s m (FDB_STAGE 0) (fdbEnt s i)) m 0 i := by
  unfold fdbLookupCmd
  dsimp only
  rw [hi]

theorem fdbLookupCmd_missing (hi : fdbFind s (fdbVid (fdbStaged s m)) (fdbMac (fdbStaged s m)) = none) :
    fdbLookupCmd m v s = fdbEnd s m 3 (fld v 29 16) := by
  unfold fdbLookupCmd
  dsimp only
  rw [hi]

/-- A new age period restarts the sweep, and of the switch nothing else. -/
theorem ends_agePeriodWrite (h : MayWrite s m FDB_AGE_PERIOD) : Ends (.agePeriodWrite m v) s fun t =>
    Only [.regs, .outs, .intc, .resp, .sw] s t ∧ t.sw = { s.sw with ageFrom := s.time.tense } := by
  have hk : Keeps [.regs, .outs, .intc] s (plainWrite (regDesc .FDB 0 0x060) m ⟨.FDB, 0, FDB⟩ 0x060 v s) :=
    K.plainWrite (by decide) (by decide) (by decide) (Keeps.refl _ s)
  refine ⟨_, next_write h rfl, ?_, ?_⟩
  · exact (K.answer (by decide) (K.agePeriod (by decide) (by decide) (by decide) (by decide) (Keeps.refl _ s))).only
  · unfold agePeriod
    dsimp only [answer]
    rw [hk.sw.resolve_left (by decide), hk.time.resolve_left (by decide)]

end

/-- Settles O8: each command by what the look-up of its key finds. -/
theorem forwardingDatabase : Obligations.ForwardingDatabase := by
  unfold Obligations.ForwardingDatabase
  exact ⟨fun m v s h hok hset => next_write h (fdbCmd_write.trans (fdbWriteCmd_stores hok hset)),
    fun m v s h hno => next_write h (fdbCmd_write.trans (fdbWriteCmd_refused hno)),
    fun m v i s h hok hi => next_write h (fdbCmd_insert.trans (fdbInsertCmd_found hok hi)),
    fun m v i s h hok hnone hi => next_write h (fdbCmd_insert.trans (fdbInsertCmd_free hok hnone hi)),
    fun m v s h => next_write h fdbCmd_delete,
    fun m v i s h hi => next_write h (fdbCmd_lookup.trans (fdbLookupCmd_found hi)),
    fun m v s h hi => next_write h (fdbCmd_lookup.trans (fdbLookupCmd_missing hi)),
    fun m v s h => ends_agePeriodWrite h,
    fun s ht => congrArg Host.Outcome.next (if_neg ht)⟩

/-! Removal from the queues. -/

theorem purgeScan_cons {s : State} {x : Nat × Word} {l : List (Nat × Word)} (hx : s.sw.purge = x :: l) : purgeScan s =
    (let hit (t : State) (e : QEnt) : Bool :=
       match frameOf t e.fid with
       | some f => decide (f.handle = x.1) && (f.epoch - x.2).msb
       | none => false
     let s1 := s.sw.queue.foldl (fun t e => if hit t e then purgeCopy t e.port e.cls e.fid else t) s
     { s1 with sw := { s1.sw with purge := l } }) := by
  unfold purgeScan
  rw [hx] <;> rfl

theorem withdrawTake_free {s : State} {w : Withdraw} {l : List Withdraw} (hw : s.sw.withdrawWait = w :: l)
    (hfree : s.sw.withdraw.length < 16) : withdrawTake s =
      { s with sw := { s.sw with withdraw := s.sw.withdraw ++ [w], withdrawWait := l } } := by
  unfold withdrawTake
  rw [hw]
  exact if_neg (by omega)

theorem withdrawTake_full {s : State} (h : 16 ≤ s.sw.withdraw.length) : withdrawTake s = s := by
  unfold withdrawTake
  split
  · rfl
  · exact if_pos h

theorem withdrawScan_cons {s : State} {w : Withdraw} {l : List Withdraw} (hw : s.sw.withdraw = w :: l) : withdrawScan s =
    (let one (t : State) (e : QEnt) : State :=
       match frameOf t e.fid with
       | some f =>
         match withdrawCode { t with sw := { t.sw with withdraw := [w] } } f with
         | some code => withdrawCopy t e.port e.cls e.fid f code
         | none => t
       | none => t
     let s1 := s.sw.queue.foldl one s
     scansOver { s1 with sw := { s1.sw with withdraw := l } }) := by
  unfold withdrawScan
  rw [hw]
  rfl

/-- Settles O9: a scan works off the oldest entry of its list; ageing and the reads act from every state. -/
theorem removalFromQueues : Obligations.RemovalFromQueues := by
  unfold Obligations.RemovalFromQueues
  exact ⟨fun s => rfl,
    fun x l s hx => congrArg Host.Outcome.next (purgeScan_cons hx),
    fun w l s hw hfree => congrArg Host.Outcome.next (withdrawTake_free hw hfree),
    fun s hfull => congrArg Host.Outcome.next (withdrawTake_full hfull),
    fun w l s hw => congrArg Host.Outcome.next (withdrawScan_cons hw),
    fun m s h => next_read h rfl,
    fun m s h => next_read h rfl⟩

end Sys2Proof.Proofs
end

section
/-! The Imperative Gate: admission to release, the Command Authority Table, the sieve, the key pool and the service
(R150–R185), for the family of the Gate. -/

namespace Sys2Proof.Proofs

open Sys2Proof Sys2Proof.Machine Sys2Proof.Machine.Reg Sys2Proof.Laws

/-! From admission to release. -/

section
variable {rf : ReadFault} {e : SinkEnt} {f : Frame} {s : State}

/-- The frame of the sink's entry is read the same once the entry has left the sink. -/
theorem frameOf_sinkErase (hf : frameOf s e.fid = some f) :
    frameOf { s with sw := { s.sw with sink := s.sw.sink.erase e } } e.fid = some f :=
  by
  rw [← hf]
  refine frameOf_congr ?_ ?_ ?_ ?_ _ <;> rfl

theorem gateAdmit_item (he : s.sw.sink.find? (fun x => decide (x.port = 209)) = some e) (hf : frameOf s e.fid = some f)
    (hr : e.rf = .clean) (hp : f.poison = false) (hc : crc32c f.bytes = f.check) :
    gateAdmit .clean s = gateItem { s with sw := { s.sw with sink := s.sw.sink.erase e } } e.fid f := by
  unfold gateAdmit
  rw [he]
  dsimp only
  rw [frameOf_sinkErase hf, if_pos rfl, hr]
  dsimp only
  rw [if_neg (by simp [hp]), if_neg (by simp [hc])]

theorem gateAdmit_poison (he : s.sw.sink.find? (fun x => decide (x.port = 209)) = some e)
    (hf : frameOf s e.fid = some f) (hr : (if rf = .clean then e.rf else rf) = .poison ∨ f.poison = true) :
    gateAdmit rf s =
      unref (dropStored { s with sw := { s.sw with sink := s.sw.sink.erase e } } e.fid 209 dropPoison 209 f.tc) e.fid := by
  unfold gateAdmit
  rw [he]
  dsimp only
  rw [frameOf_sinkErase hf]
  dsimp only
  rw [if_pos hr]

theorem gateAdmit_corrupt (he : s.sw.sink.find? (fun x => decide (x.port = 209)) = some e)
    (hf : frameOf s e.fid = some f) (hr : (if rf = .clean then e.rf else rf) ≠ .poison) (hp : f.poison = false)
    (hc : (if rf = .clean then e.rf else rf) = .corrupt ∨ crc32c f.bytes ≠ f.check) :
    gateAdmit rf s =
      unref (dropStored { s with sw := { s.sw with sink := s.sw.sink.erase e } } e.fid 209 dropE2E 209 f.tc) e.fid := by
  unfold gateAdmit
  rw [he]
  dsimp only
  rw [frameOf_sinkErase hf]
  dsimp only
  rw [if_neg (not_or_intro hr (ne_of_eq_of_ne hp Bool.false_ne_true)), if_pos hc]

end

theorem unitTake_entry {c : UnitClass} {u : Nat} {e : PEnt} {s : State}
    (hu : (List.range (unitCount c)).find? (fun u => !(unitBusy s c u)) = some u)
    (he : s.gate.pend.find? (fun e => decide (e.phase = .waiting) && decide (pentClass s e = c)) = some e) :
    unitTake c s = pendPhase s e.tag (.onUnit u) := by
  unfold unitTake
  rw [hu]
  dsimp only
  rw [he]

theorem sigResult_onUnit {tag : Nat} {ok : Bool} {e : PEnt} {u : Nat} {s : State}
    (he : s.gate.pend.find? (fun x => decide (x.tag = tag)) = some e) (hp : e.phase = .onUnit u) :
    sigResult tag ok s =
      (let k := catOf s (envIndex e.env)
       let sig := slice e.env (32 + envInnerLen e.env) (sigLen k.alg)
       pendPhase s tag (.result (sigVerify k.alg (catKey s k) (envMessage s e.env) sig ok))) := by
  unfold sigResult
  rw [he]
  dsimp only
  rw [hp]

section
variable {tag : Nat} {e : PEnt} {s : State} (he : s.gate.pend.find? (fun x => decide (x.tag = tag)) = some e)
  (h1 : (s.gate.pend.find? (fun x => decide (envIndex x.env = envIndex e.env))).map (·.tag) = some tag)
include he h1

theorem verdictOf_badSignature (hp : e.phase = .result false) : verdictOf tag s = pendEnd s e ocSig := by
  unfold verdictOf
  rw [he]
  dsimp only
  rw [if_neg (not_not_intro h1), hp]

theorem verdictOf_check {c : Nat} (hp : e.phase = .result true) (hc : stageChecks s e.env = some c) :
    verdictOf tag s = pendEnd s e c := by
  unfold verdictOf
  rw [he]
  dsimp only
  rw [if_neg (not_not_intro h1), hp]
  dsimp only
  rw [hc]

/-- With the sequence number out of the marked range the entry waits for the mark it asks for. -/
theorem verdictOf_markWait (hp : e.phase = .result true) (hc : stageChecks s e.env = none)
    (hm : (markOf s (envIndex e.env)).toNat + 1024 ≤ envSeq e.env) : verdictOf tag s =
      pendPhase (markWrite s (envIndex e.env) (BitVec.ofNat 64 (envSeq e.env))) tag .markWait := by
  unfold verdictOf
  rw [he]
  dsimp only
  rw [if_neg (not_not_intro h1), hp]
  dsimp only
  rw [hc]
  exact if_pos hm

theorem verdictOf_pass (hp : e.phase = .result true) (hc : stageChecks s e.env = none)
    (hm : envSeq e.env < (markOf s (envIndex e.env)).toNat + 1024) : verdictOf tag s = passEntry s e := by
  unfold verdictOf
  rw [he]
  dsimp only
  rw [if_neg (not_not_intro h1), hp]
  dsimp only
  rw [hc]
  exact if_neg (Nat.not_le.mpr hm)

end

theorem markDurable_stores {k : Nat} {v : DWord} {s : State} (hk : sfind s.vlt.markWr k = some v)
    (hm : vMay s (if s.vlt.waiting.contains { cls := 1, key := k } then 1 else 4) k = true) : markDurable s k =
      rowsWrite (vGone (vGone { s with vlt := { s.vlt with
        marks := sset s.vlt.marks k v, markWr := sdel s.vlt.markWr k } } 1 k) 4 k) 1 1 := by
  unfold markDurable
  dsimp only
  rw [if_pos hm]
  unfold markStore
  rw [hk]

theorem markDurable_waits {k : Nat} {s : State}
    (hm : vMay s (if s.vlt.waiting.contains { cls := 1, key := k } then 1 else 4) k = false) : markDurable s k = s :=
  if_neg (ne_of_eq_of_ne hm Bool.false_ne_true)

theorem releaseDurable_emits {r : REnt} {tag : Nat} {s : State}
    (hr : s.gate.rel.find? (fun r => decide (r.phase = .passed)) = some r) (ht : r.tag = tag)
    (hm : vMay s 2 tag = true) : releaseDurable tag s =
      (let s1 := emitInner (vGone s 2 tag) r
       let s2 := { s1 with gate := { s1.gate with rel := s1.gate.rel.map fun x => if x.tag = tag then { x with fid := none } else x } }
       if s1.gate.rel.any fun x => decide (x.tag = tag) then
         match r.fid with
         | some f => unref s2 f
         | none => s2
       else s2) := by
  unfold releaseDurable
  rw [hr]
  dsimp only
  exact if_neg (not_or_intro (not_not_intro ht) (not_eq_false_of_true hm))

theorem gateHold_oldest {c : Nat} {g : GEnt} {s : State} (hg : gateOldest s c = some g) : gateHold c s =
    (let lim := max 1 (getF s IMG_HOLD_LIMIT 15 0) * 1000000
     let s1 := advanceNs s (g.at_.toNat + lim + 1)
     if (s1.time.tense - g.at_).toNat ≤ lim then s1 else gateEntryEnd s1 c g ocAged) := by
  unfold gateHold
  rw [hg]

theorem supplyAbandon_held {s : State} (hs : supplyHeld s = true) (hw : s.gate.warnWritten = false) :
    supplyAbandon s =
      (let s1 := advanceNs s (s.gate.warnAt.toNat + 500000)
       supplyRecord (pendEndAll s1 (fun e => match e.phase with | .onUnit _ => true | _ => false) ocSupply)) :=
  if_neg (not_or_intro (not_eq_false_of_true hs) (ne_of_eq_of_ne hw Bool.false_ne_true))

/-- Settles O10: stage by stage, each from the entry the stage meets. -/
theorem gateAdmissionToRelease : Obligations.GateAdmissionToRelease := by
  unfold Obligations.GateAdmissionToRelease
  exact ⟨fun e f s he hf hr hp hc => congrArg Host.Outcome.next (gateAdmit_item he hf hr hp hc),
    fun rf e f s he hf hr => congrArg Host.Outcome.next (gateAdmit_poison he hf hr),
    fun rf e f s he hf hr hp hc => congrArg Host.Outcome.next (gateAdmit_corrupt he hf hr hp hc),
    fun c u e s hu he => congrArg Host.Outcome.next (unitTake_entry hu he),
    fun tag ok e u s he hp => congrArg Host.Outcome.next (sigResult_onUnit he hp),
    fun tag e s he h1 hp => congrArg Host.Outcome.next (verdictOf_badSignature he h1 hp),
    fun tag e c s he h1 hp hc => congrArg Host.Outcome.next (verdictOf_check he h1 hp hc),
    fun tag e s he h1 hp hc hm => congrArg Host.Outcome.next (verdictOf_markWait he h1 hp hc hm),
    fun tag e s he h1 hp hc hm => congrArg Host.Outcome.next (verdictOf_pass he h1 hp hc hm),
    fun k v s hk hm => congrArg Host.Outcome.next (markDurable_stores hk hm),
    fun k s hm => congrArg Host.Outcome.next (markDurable_waits hm),
    fun r tag s hr ht hm => congrArg Host.Outcome.next (releaseDurable_emits hr ht hm),
    fun c g s hg => congrArg Host.Outcome.next (gateHold_oldest hg),
    fun s hs hw => congrArg Host.Outcome.next (supplyAbandon_held hs hw)⟩

/-! The Command Authority Table. A command's opcode stands in bits 2:0, its entry in bits 27:16. -/

section
variable {v : Word} {s : State}

/-- A command of a given opcode keeps the entry it names. -/
theorem catIndex_setFld_op {k : Nat} : fld (setFld v 2 0 k) 27 16 = fld v 27 16 := fld_setFld_ne (by decide) (by decide)

theorem catCmd_busy (hb : s.gate.catBusy.isSome = true) : catCmd v s = catEnd s 1 := if_pos hb

theorem catCmd_notOwned {k : Nat} (hk : k - 1 < 4 ∧ k ≠ 0) (hb : s.gate.catBusy = none) (ho : owner s ≠ 1) :
    catCmd (setFld v 2 0 k) s = catEnd s 6 := by
  have hop : fld (setFld v 2 0 k) 2 0 = k := (fld_setFld_same (by decide)).trans (Nat.mod_eq_of_lt (by omega))
  unfold catCmd
  dsimp only
  rw [hb, Option.isSome_none, if_neg Bool.false_ne_true, hop, if_neg (by omega), if_neg (by omega), if_pos ho]

theorem catCmd_read (hb : s.gate.catBusy = none) : catCmd (setFld v 2 0 5) s =
    catEnd (((List.range 12).zip (catWords s (fld v 27 16))).foldl (fun t p => setR t (IMG_CAT_STAGE p.1) p.2) s) 0 := by
  have hop : fld (setFld v 2 0 5) 2 0 = 5 := fld_setFld_same (by decide)
  unfold catCmd
  dsimp only
  rw [hb, Option.isSome_none, if_neg Bool.false_ne_true, if_pos hop, catIndex_setFld_op]

section
variable (hb : s.gate.catBusy = none) (ho : owner s = 1) (hi : fld v 27 16 ≠ 0)
include hb ho hi

theorem catCmd_install : catCmd (setFld v 2 0 1) s = catInstall (fld v 27 16) s := by
  have hop : fld (setFld v 2 0 1) 2 0 = 1 := fld_setFld_same (by decide)
  unfold catCmd
  dsimp only
  rw [hb, Option.isSome_none, if_neg Bool.false_ne_true, hop, catIndex_setFld_op, if_neg (by decide), if_neg (by decide),
    if_neg (not_not_intro ho), if_neg hi, if_pos rfl]

/-- What `ENABLE`, `DISABLE` and `REVOKE` do with an entry that is not `EMPTY`. -/
theorem catCmd_entry {k : Nat} (hk : 2 ≤ k ∧ k ≤ 4) (he : (catOf s (fld v 27 16)).state ≠ 0) :
    catCmd (setFld v 2 0 k) s =
      (if k = 2 then catStart (catSet s (fld v 27 16) { catOf s (fld v 27 16) with state := 1 }) 2 (fld v 27 16)
       else if k = 3 then catStart (catSet s (fld v 27 16) { catOf s (fld v 27 16) with state := 2 }) 3 (fld v 27 16)
       else scansOver (revokeEntry (catStart { s with gate := { s.gate with revN := 0 } } 4 (fld v 27 16)) (fld v 27 16))) := by
  have hop : fld (setFld v 2 0 k) 2 0 = k := (fld_setFld_same (by decide)).trans (Nat.mod_eq_of_lt (by omega))
  unfold catCmd
  dsimp only
  rw [hb, Option.isSome_none, if_neg Bool.false_ne_true, hop, catIndex_setFld_op, if_neg (by omega), if_neg (by omega),
    if_neg (not_not_intro ho), if_neg hi, if_neg (by omega), if_neg he]

end
end

theorem catInstall_starts {i : Nat} {s : State} (he : (catOf s i).state = 0)
    (hg : (stagedEntry s).gen = ((catOf s i).lastGen + 1) % 16) (hf : catFormatOk s (stagedEntry s) = true)
    (hp : poolTaken s ((stagedEntry s).poolOff * 16) ((stagedEntry s).poolOff * 16 + (stagedEntry s).keyLen) = false) :
    catInstall i s = catStart (markWrite (catSet s i (stagedEntry s)) i (stagedEntry s).lastSeq) 1 i := by
  unfold catInstall
  dsimp only
  rw [if_neg (not_not_intro he), if_neg (not_or_intro (not_not_intro hg) (not_eq_false_of_true hf)), hp,
    if_neg Bool.false_ne_true]

theorem catInstall_format {i : Nat} {s : State} (he : (catOf s i).state = 0)
    (hg : (stagedEntry s).gen ≠ ((catOf s i).lastGen + 1) % 16 ∨ catFormatOk s (stagedEntry s) = false) :
    catInstall i s = catEnd s 2 := by
  unfold catInstall
  dsimp only
  rw [if_neg (not_not_intro he), if_pos hg]

theorem catDurable_ends {op i : Nat} {s : State} (hb : s.gate.catBusy = some (op, i)) (hm : vMay s 5 0 = true)
    (hs : op ≠ 4 ∨ s.gate.catScan = true) : catDurable s =
      (let s1 := catPersist (vGone s 5 0) op i
       catEnd { s1 with gate := { s1.gate with catBusy := none } } 0) := by
  have hgo : ¬ (vMay s 5 0 = false ∨ (op = 4 ∧ s.gate.catScan = false)) :=
    not_or_intro (not_eq_false_of_true hm) fun h => hs.elim (· h.1) fun hc => not_eq_false_of_true hc h.2
  unfold catDurable
  rw [hb]
  dsimp only
  rw [if_neg hgo]

theorem catDurable_waits {op i : Nat} {s : State} (hb : s.gate.catBusy = some (op, i))
    (hm : vMay s 5 0 = false ∨ (op = 4 ∧ s.gate.catScan = false)) : catDurable s = s := by
  unfold catDurable
  rw [hb]
  exact if_pos hm

/-- Settles O11: a command by its opcode, and the command in progress by the vault's order of writes. -/
theorem commandAuthorityTable : Obligations.CommandAuthorityTable := by
  unfold Obligations.CommandAuthorityTable
  exact ⟨fun m v s h hb ho hi he hg hf hp => next_write h ((catCmd_install hb ho hi).trans (catInstall_starts he hg hf hp)),
    fun m v s h hb ho hi he hg => next_write h ((catCmd_install hb ho hi).trans (catInstall_format he hg)),
    fun m v s h hb => next_write h (catCmd_busy hb),
    fun m v s h hb ho hi he => next_write h (catCmd_entry hb ho hi (by decide) he),
    fun m v s h hb ho => next_write h (catCmd_notOwned (by decide) hb ho),
    fun m v s h hb ho hi he => next_write h (catCmd_entry hb ho hi (by decide) he),
    fun m v s h hb ho hi he => next_write h (catCmd_entry hb ho hi (by decide) he),
    fun m v s h hb => next_write h (catCmd_read hb),
    fun op i s hb hm hs => congrArg Host.Outcome.next (catDurable_ends hb hm hs),
    fun op i s hb hm => congrArg Host.Outcome.next (catDurable_waits hb hm)⟩

/-! The sieve, the key pool, the verdict ring's size and the service. -/

section
variable {v : Word} {s : State}

theorem sieveIndex_setFld_op {k : Nat} : fld (setFld v 1 0 k) 23 16 = fld v 23 16 := fld_setFld_ne (by decide) (by decide)

theorem sieveCmd_stores (hr : fld (getR s (IMG_SIEVE_STAGE 1)) 8 0 ≤ fld (getR s (IMG_SIEVE_STAGE 1)) 24 16) :
    sieveCmd (setFld v 1 0 1) s =
      (let ws := (List.range 18).map fun w => getR s (IMG_SIEVE_STAGE w)
       let s1 := { s with gate := { s.gate with sieve := sset s.gate.sieve (fld v 23 16) ws } }
       raiseIrq (setR s1 IMG_SIEVE_RESULT 0x80000000) IMG 7) := by
  have hop : fld (setFld v 1 0 1) 1 0 = 1 := fld_setFld_same (by decide)
  unfold sieveCmd
  dsimp only
  rw [hop, sieveIndex_setFld_op]
  exact if_neg (Nat.not_lt.mpr hr)

theorem sieveCmd_badRange (hr : fld (getR s (IMG_SIEVE_STAGE 1)) 24 16 < fld (getR s (IMG_SIEVE_STAGE 1)) 8 0) :
    sieveCmd (setFld v 1 0 1) s = raiseIrq (setR s IMG_SIEVE_RESULT 0xA0000000) IMG 7 := by
  have hop : fld (setFld v 1 0 1) 1 0 = 1 := fld_setFld_same (by decide)
  unfold sieveCmd
  dsimp only
  rw [hop]
  exact if_pos hr

theorem sieveCmd_read : sieveCmd (setFld v 1 0 2) s =
    (let ws := sget s.gate.sieve (fld v 23 16) (List.replicate 18 0)
     let s1 := ((List.range 18).zip ws).foldl (fun t p => setR t (IMG_SIEVE_STAGE p.1) p.2) s
     raiseIrq (setR s1 IMG_SIEVE_RESULT 0x80000000) IMG 7) := by
  have hop : fld (setFld v 1 0 2) 1 0 = 2 := fld_setFld_same (by decide)
  unfold sieveCmd
  dsimp only
  rw [hop, sieveIndex_setFld_op]
  rfl

end

section
variable {m : Master} {w : Nat} {v : Word} {s : State}

theorem poolWrite_stores (hf : ∀ j < 4, poolTaken s (poolWin s w + j) (poolWin s w + j + 1) = false) :
    poolWrite m w v s =
      (let new := (List.range 4).foldl (fun p j => ssetD 0 p (poolWin s w + j) (b8 (v.toNat / 2 ^ (8 * j)))) s.gate.pool
       { s with gate := { s.gate with pool := new } }) := by
  have hbad : ((List.range 4).any fun j => poolTaken s (poolWin s w + j) (poolWin s w + j + 1) &&
      decide (poolByte s (poolWin s w + j) ≠ b8 (v.toNat / 2 ^ (8 * j)))) = false :=
    List.any_eq_false.mpr fun j hj => by
      rw [hf j (List.mem_range.mp hj), Bool.false_and]
      exact Bool.false_ne_true
  unfold poolWrite
  dsimp only
  rw [hbad, if_neg Bool.false_ne_true]

/-- A write that would change a byte of an installed key is refused as `LOCKED`. -/
theorem poolWrite_locked {j : Nat} (hj : j < 4) (ht : poolTaken s (poolWin s w + j) (poolWin s w + j + 1) = true)
    (hd : poolByte s (poolWin s w + j) ≠ b8 (v.toNat / 2 ^ (8 * j))) :
    poolWrite m w v s = recErr s IMG errLocked m (IMG + 0x30000 + 4 * w) true := by
  have hbad : ((List.range 4).any fun j => poolTaken s (poolWin s w + j) (poolWin s w + j + 1) &&
      decide (poolByte s (poolWin s w + j) ≠ b8 (v.toNat / 2 ^ (8 * j)))) = true :=
    List.any_eq_true.mpr ⟨j, List.mem_range.mpr hj, by rw [ht, Bool.true_and]; exact decide_eq_true hd⟩
  unfold poolWrite
  dsimp only
  rw [hbad, if_pos rfl]

end

theorem vrSize_legalNot {v : Word} {s : State} (h : vrSizeOk (v.toNat % 0x20000) = false) : vrSize v s =
    (let s1 := setR (setR s IMG_VR_SIZE (w32 (v.toNat % 0x20000))) IMG_VR_HEAD 0
     { s1 with gate := { s1.gate with vrWrapped := false } }) :=
  if_neg (ne_of_eq_of_ne h Bool.false_ne_true)

/-- With a ring of a legal size the records that wait for it are written. -/
theorem vrSize_legal {v : Word} {s : State} (h : vrSizeOk (v.toNat % 0x20000) = true) : vrSize v s =
    (let s1 := setR (setR s IMG_VR_SIZE (w32 (v.toNat % 0x20000))) IMG_VR_HEAD 0
     s.gate.unconf.foldl (fun t e => vrPut t e.1 e.2.1 e.2.2.1 e.2.2.2 ocUnconfirmed 3)
       { s1 with gate := { s1.gate with vrWrapped := false, unconf := [] } }) :=
  if_pos h

theorem svcPost_waits {n a : Nat} {b : List Byte} {s t : State} (hs : supplyHeld s = false)
    (hl : (s.gate.svc.filter fun r => decide (r.engine = n)).length < min 16 (max 1 (getF s IMG_SVC_LIMIT 4 0)))
    (hr : svcRead s n a 32 = (t, .ok, b)) (ha : a % 32 = 0) (hf : svcFormatOk b = true) : svcPost n a s =
      { t with gate := { t.gate with svc := t.gate.svc ++ [{ engine := n, addr := a, lane := none }] } } := by
  unfold svcPost
  dsimp only
  rw [hs, if_neg Bool.false_ne_true, if_neg (Nat.not_le.mpr hl), hr]
  dsimp only
  rw [if_neg (not_not_intro rfl), if_neg (not_or_intro (not_not_intro ha) (not_eq_false_of_true hf))]

theorem svcPost_supply {n a : Nat} {s : State} (hs : supplyHeld s = true) : svcPost n a s = svcEnd s n a 6 :=
  if_pos hs

section
variable {lane : Nat} {r : SvcReq} {b key d w : List Byte} {s t1 t2 t3 t4 : State}
  (hr : s.gate.svc.find? (fun r => decide (r.lane = some lane)) = some r)
  (hb : svcRead s r.engine r.addr 32 = (t1, .ok, b)) (hk : leAt b 0 2 = 0xFFFF)
  (hkey : svcRead t1 r.engine (leAt b 16 4) (leAt b 20 1) = (t2, .ok, key))
  (hd : svcRead t2 r.engine (leAt b 4 4) (leAt b 8 4) = (t3, .ok, d))
include hr hb hk hkey hd

theorem svcDone_tag (ho : leAt b 2 1 = 1)
    (hw : svcWrite t3 r.engine (leAt b 12 4) ((hmac256 key d).take (leAt b 3 1)) = (t4, .ok)) :
    svcDone lane s = svcFinish t4 r 0 := by
  unfold svcDone
  rw [hr]
  dsimp only
  rw [hb]
  dsimp only
  rw [if_neg (not_not_intro rfl), if_pos hk, hkey]
  dsimp only
  rw [hd]
  dsimp only
  rw [if_neg (not_or_intro (not_not_intro rfl) (not_not_intro rfl)), if_pos ho, hw]
  rfl

theorem svcDone_check (ho : leAt b 2 1 ≠ 1) (hw : svcRead t3 r.engine (leAt b 12 4) (leAt b 3 1) = (t4, .ok, w)) :
    svcDone lane s = svcFinish t4 r (if w = (hmac256 key d).take (leAt b 3 1) then 0 else 1) := by
  unfold svcDone
  rw [hr]
  dsimp only
  rw [hb]
  dsimp only
  rw [if_neg (not_not_intro rfl), if_pos hk, hkey]
  dsimp only
  rw [hd]
  dsimp only
  rw [if_neg (not_or_intro (not_not_intro rfl) (not_not_intro rfl)), if_neg ho, hw]
  dsimp only
  rw [if_neg (not_not_intro rfl)]

end

/-- Settles O12: the sieve by its command, the pool by whether an installed key holds the bytes, the service by its
descriptor and its kind. -/
theorem gateSieveKeysAndService : Obligations.GateSieveKeysAndService := by
  unfold Obligations.GateSieveKeysAndService
  exact ⟨fun m v s h hr => next_write h (sieveCmd_stores hr),
    fun m v s h hr => next_write h (sieveCmd_badRange hr),
    fun m v s h => next_write h sieveCmd_read,
    fun m w v s h hf => next_write h (poolWrite_stores hf),
    fun m w v j s h hj ht hd => next_write h (poolWrite_locked hj ht hd),
    fun m v s h hv => next_write h (vrSize_legalNot hv),
    fun m v s h hv => next_write h (vrSize_legal hv),
    fun m s h => next_read h rfl,
    fun m v s h => next_write h rfl,
    fun n a b s t hs hl hr ha hf => congrArg Host.Outcome.next (svcPost_waits hs hl hr ha hf),
    fun n a s hs => congrArg Host.Outcome.next (svcPost_supply hs),
    fun lane r b key d s t1 t2 t3 t4 hr hb hk hkey hd ho hw =>
      congrArg Host.Outcome.next (svcDone_tag hr hb hk hkey hd ho hw),
    fun lane r b key d w s t1 t2 t3 t4 hr hb hk hkey hd ho hw =>
      congrArg Host.Outcome.next (svcDone_check hr hb hk hkey hd ho hw)⟩

end Sys2Proof.Proofs
end

section
/-! The vault: counters, the journal and the logs (R186–R212), for the family of the vault. -/

namespace Sys2Proof.Proofs

open Sys2Proof Sys2Proof.Machine Sys2Proof.Machine.Reg Sys2Proof.Laws

/-! Counters. -/

section
variable {c : Nat} {raise : Bool} {s : State}

theorem cntChange_busy (hb : s.vlt.cntBusy.isSome = true) : cntChange raise c s = cntEnd s 1 := if_pos hb

theorem cntReadCmd_free (hb : s.vlt.cntBusy = none) : cntReadCmd c s =
    (if erasing s then cntEnd s 5 else cntEnd (setR64 s VLT_CNT_VALUE_LO (vaultCounter s c)) 0) := by
  unfold cntReadCmd
  rw [hb]
  exact if_neg Bool.false_ne_true

section
variable (hb : s.vlt.cntBusy = none)
include hb

/-- During an erase or a supply warning a counter does not move. -/
theorem cntChange_held (h : erasing s = true ∨ supplyHeld s = true) :
    cntChange raise c s = cntEnd (cntItem s) (if erasing s then 5 else 4) := by
  unfold cntChange
  rw [hb, Option.isSome_none, if_neg Bool.false_ne_true]
  by_cases he : erasing s = true
  · rw [if_pos he, if_pos he]
  · rw [if_neg he, if_neg he, if_pos (h.resolve_left he)]

variable (he : erasing s = false) (hs : supplyHeld s = false)
include he hs

theorem cntChange_none (hc : 4 ≤ c ∧ c < 16) : cntChange raise c s = cntEnd (cntItem s) 6 := by
  unfold cntChange
  rw [hb, he, hs, Option.isSome_none, if_neg Bool.false_ne_true, if_neg Bool.false_ne_true, if_neg Bool.false_ne_true,
    if_pos hc]

variable (hc : c < 4 ∨ 16 ≤ c)
include hc

theorem cntChange_increment : cntChange false c s =
    (if vaultCounter s c = 0xFFFFFFFFFFFFFFFF#64 then cntEnd (cntItem s) 3
     else
       let s2 := setR (cntItem s) VLT_CNT_RESULT 0
       vAsk { s2 with vlt := { s2.vlt with
         cntBusy := some (c, vaultCounter s c + 1, (getR s2 VLT_CNT_TAG).toNat) } } 6 0) := by
  have hin : ¬ (4 ≤ c ∧ c < 16) := by omega
  unfold cntChange
  rw [hb, he, hs, Option.isSome_none, if_neg Bool.false_ne_true, if_neg Bool.false_ne_true, if_neg Bool.false_ne_true,
    if_neg hin, if_neg fun h => Bool.false_ne_true h.1]
  by_cases hm : vaultCounter s c = 0xFFFFFFFFFFFFFFFF#64
  · rw [if_pos hm, if_pos ⟨rfl, hm⟩]
  · rw [if_neg hm, if_neg fun h => hm h.2]
    rfl

theorem cntChange_raise : cntChange true c s =
    (if (getR64 s VLT_CNT_VALUE_LO).toNat ≤ (vaultCounter s c).toNat then cntEnd (cntItem s) 2
     else
       let s2 := setR (cntItem s) VLT_CNT_RESULT 0
       vAsk { s2 with vlt := { s2.vlt with
         cntBusy := some (c, getR64 s VLT_CNT_VALUE_LO, (getR s2 VLT_CNT_TAG).toNat) } } 6 0) := by
  have hin : ¬ (4 ≤ c ∧ c < 16) := by omega
  unfold cntChange
  rw [hb, he, hs, Option.isSome_none, if_neg Bool.false_ne_true, if_neg Bool.false_ne_true, if_neg Bool.false_ne_true,
    if_neg hin]
  by_cases hm : (getR64 s VLT_CNT_VALUE_LO).toNat ≤ (vaultCounter s c).toNat
  · rw [if_pos hm, if_pos ⟨rfl, hm⟩]
  · rw [if_neg hm, if_neg fun h => hm h.2, if_neg fun h => Bool.false_ne_true h.1.symm]
    rfl

end

theorem cntDurable_ends {x : Nat × DWord × Nat} (hb : s.vlt.cntBusy = some x) (hm : vMay s 6 0 = true) :
    cntDurable s = cntEnd (setCounter (vGone { s with vlt := { s.vlt with cntBusy := none } } 6 0) x.1 x.2.1) 0 := by
  unfold cntDurable
  rw [hb]
  exact if_pos hm

/-- A counter's write waits for its turn among the vault's writes. -/
theorem cntDurable_waits (hm : vMay s 6 0 = false) : cntDurable s = s := by
  unfold cntDurable
  cases s.vlt.cntBusy with
  | none => rfl
  | some x => exact if_neg (ne_of_eq_of_ne hm Bool.false_ne_true)

end

/-- Settles O13: a counter command by what stands in its way, and the order of the vault's writes. -/
theorem vaultCounters : Obligations.VaultCounters := by
  unfold Obligations.VaultCounters
  exact ⟨fun m c s h hb he hs hc hv => next_write h ((cntChange_increment hb he hs hc).trans (if_neg hv)),
    fun m c s h hb he hs hc hv => next_write h ((cntChange_increment hb he hs hc).trans (if_pos hv)),
    fun m c s h hb he hs h4 h16 => next_write h (cntChange_none hb he hs ⟨h4, h16⟩),
    fun m c s h hb => next_write h (cntChange_busy hb),
    fun m c s h hb hw => next_write h (cntChange_held hb hw),
    fun m c s h hb he hs hc hv => next_write h ((cntChange_raise hb he hs hc).trans (if_neg (Nat.not_le.mpr hv))),
    fun m c s h hb he hs hc hv => next_write h ((cntChange_raise hb he hs hc).trans (if_pos hv)),
    fun m c s h hb he => next_write h ((cntReadCmd_free hb).trans (if_neg (ne_of_eq_of_ne he Bool.false_ne_true))),
    fun m c s h hb he => next_write h ((cntReadCmd_free hb).trans (if_pos he)),
    fun x s hb hm => congrArg Host.Outcome.next (cntDurable_ends hb hm),
    fun s hm => congrArg Host.Outcome.next (cntDurable_waits hm)⟩

/-! The journal and the logs. -/

section
variable {s : State}

theorem exportCmd_starts {v : Word} (he : s.vlt.exp = none) (h0 : v.toNat % 0x40000 ≠ 0)
    (hn : v.toNat % 0x40000 ≤ 131072) : exportCmd v s =
      (let s1 := setR s VLT_EXPORT_RESULT 0
       let x := ((getR s VLT_EXPORT_ADDR).toNat, getF s VLT_EXPORT_FIRST 16 0, v.toNat % 0x40000)
       { s1 with vlt := { s1.vlt with exp := some x } }) := by
  unfold exportCmd
  dsimp only
  rw [he, Option.isSome_none, if_neg Bool.false_ne_true, if_neg (not_or_intro h0 (Nat.not_lt.mpr hn))]

theorem exportCmd_badCount {v : Word} (he : s.vlt.exp = none)
    (hn : v.toNat % 0x40000 = 0 ∨ 131072 < v.toNat % 0x40000) : exportCmd v s = expEnd s 3 := by
  unfold exportCmd
  dsimp only
  rw [he, Option.isSome_none, if_neg Bool.false_ne_true, if_pos hn]

theorem exportDone_copies {a i n : Nat} (he : s.vlt.exp = some (a, i, n)) : exportDone s =
    (let r := exportCopy { s with vlt := { s.vlt with exp := none } } a i n
     expEnd r.1 (if r.2 then 0 else 2)) := by
  unfold exportDone
  rw [he]

theorem compact_halfFull {l : Nat} (hf : logRows l / 2 ≤ sget s.vlt.fill l 0) (hs : supplyHeld s = false)
    (hw : s.vlt.waiting = []) : compact l s =
      (let s1 := rowsWrite s l (logLive s l)
       { s1 with vlt := { s1.vlt with fill := sset s1.vlt.fill l (logLive s l) } }) :=
  if_neg (not_or_intro (Nat.not_lt.mpr hf)
    (not_or_intro (ne_of_eq_of_ne hs Bool.false_ne_true) (not_not_intro hw)))

theorem compact_waits {l : Nat}
    (h : sget s.vlt.fill l 0 < logRows l / 2 ∨ supplyHeld s = true ∨ s.vlt.waiting ≠ []) : compact l s = s := if_pos h

/-- With base 0 valid the journal second ends by it. -/
theorem jSecondEnd_base (hc : (jClock s).1 = false) :
    jSecondEnd s = jTurn (advanceTb s 0 (((jClock s).2.1 + 1) * 1000000000)) :=
  if_neg (ne_of_eq_of_ne hc Bool.false_ne_true)

theorem jSecondEnd_alwaysOn (hc : (jClock s).1 = true) : jSecondEnd s =
    if s.time.rtcOn then
      jTurn (advanceCycles s (((32768 - s.time.rtc % 32768) * 1000000000 / 32768 + 4) / 4))
    else s := if_pos hc

theorem jAccrue_auto (ha : getF s VLT_STATUS 3 2 = 0) : jAccrue s =
    (let al := min 8640000 (getF s VLT_JNL_ALLOW 23 0 + 120)
     let s1 := setR s VLT_JNL_ALLOW (w32 al)
     if 864000 ≤ al then { s1 with vlt := { s1.vlt with jlow := false } } else s1) := if_pos (decide_eq_true ha)

theorem jAccrue_notAuto (ha : getF s VLT_STATUS 3 2 ≠ 0) : jAccrue s = s :=
  if_neg (ne_of_eq_of_ne (decide_eq_false ha) Bool.false_ne_true)

end

/-- Settles O14: a copying by its count, a log by its fill, the journal second by its clock. -/
theorem vaultJournalAndLogs : Obligations.VaultJournalAndLogs := by
  unfold Obligations.VaultJournalAndLogs
  exact ⟨fun m v s h he h0 hn => next_write h (exportCmd_starts he h0 hn),
    fun m v s h he hn => next_write h (exportCmd_badCount he hn),
    fun a i n s he => congrArg Host.Outcome.next (exportDone_copies he),
    fun m s h => next_read h rfl,
    fun l s hf hs hw => congrArg Host.Outcome.next (compact_halfFull hf hs hw),
    fun l s h => congrArg Host.Outcome.next (compact_waits h),
    fun s hc => congrArg Host.Outcome.next (jSecondEnd_base hc),
    fun s hc => congrArg Host.Outcome.next (jSecondEnd_alwaysOn hc),
    fun s ha => congrArg Host.Outcome.next (jAccrue_auto ha),
    fun s ha => congrArg Host.Outcome.next (jAccrue_notAuto ha)⟩

/-! Redundancy pairs (R231–R242). -/

section
variable {m : Master} {p : Nat} {v : Word} {s : State}

theorem redCtrl_alone (hp : pairOf s p = none) : redCtrl m p v s =
    redSettle (plainWrite (regDesc .MAC p 0x080) m ⟨.MAC, p, MAC p⟩ 0x080 v s) := by
  unfold redCtrl
  rw [hp]

/-- The pair of the port ends before the write takes effect. -/
theorem redCtrl_paired {k a b : Nat} (hp : pairOf s p = some (k, a, b)) : redCtrl m p v s =
    redSettle (plainWrite (regDesc .MAC p 0x080) m ⟨.MAC, p, MAC p⟩ 0x080 v
      (pairMod (raisePairIrq (putB s (MAC_PAIR_STATUS a) 0 false) a 0) k fun q => { q with ports := none, dups := [] })) := by
  unfold redCtrl
  rw [hp]

theorem dupExpire_oldest {k a b : Nat} {e : DupEnt} {l : List DupEnt} (hp : (pairSt s k).ports = some (a, b))
    (hd : (pairSt s k).dups = e :: l) : dupExpire k s =
      (let s1 := advanceNs s (e.made.toNat + dupLife s a)
       pairMod s1 k fun q => { q with dups := dupLive s1 k a }) := by
  unfold dupExpire
  rw [hp, hd]

end

/-- Settles O15: the control's write by whether its port belongs to a pair, and the oldest duplicate's end. -/
theorem redundancyPairs : Obligations.RedundancyPairs := by
  unfold Obligations.RedundancyPairs
  exact ⟨fun m p v s h hp => next_write h (redCtrl_alone hp),
    fun m p v k a b s h hp => next_write h (redCtrl_paired hp),
    fun k a b e l s hp hd => congrArg Host.Outcome.next (dupExpire_oldest hp hd)⟩

end Sys2Proof.Proofs
end

section
/-! The Ethernet ports: reception, PAUSE, transmission, links, lanes and MDIO (R213–R247), for the family of the ports. -/

namespace Sys2Proof.Proofs

open Sys2Proof Sys2Proof.Machine Sys2Proof.Machine.Reg Sys2Proof.Laws

/-! What the line brings. -/

section
variable {p : Nat} {s : State}

/-- Without a far-end loopback nothing that arrives is sent. -/
theorem rxLine_notFarEnd {b : List Byte} {f : State → State} (hl : loopOf s p ≠ 2) : rxLine p b f s = rxGate p f s := by
  have hn : ¬ (loopOf s p = 2 ∧ carries s p = true ∧ macUp s p = true) := fun h => hl h.1
  unfold rxLine
  rw [if_neg hn]

theorem rxLine_ignored {b : List Byte} {f : State → State} (hl : loopOf s p = 0) (hr : rxOpen s p = (false, true)) :
    rxLine p b f s = bumpN s (MAC_Port_counters p 7) 1 := by
  rw [rxLine_notFarEnd (by omega)]
  unfold rxGate rxMeets
  rw [if_neg (by omega), hr]
  rfl

/-- A near-end loopback cuts the line off. -/
theorem rxLine_nearEnd {b : List Byte} {f : State → State} (hl : loopOf s p = 1) : rxLine p b f s = s :=
  (rxLine_notFarEnd (by omega)).trans (if_pos hl)

/-- A far-end loopback sends what arrives. -/
theorem rxLine_farEnd {b : List Byte} {f : State → State} (hl : loopOf s p = 2) (hc : carries s p = true)
    (hu : macUp s p = true) : rxLine p b f s = rxMeets p f (emit s (.frame p b)) := by
  have h1 : loopOf (emit s (.frame p b)) p ≠ 1 := by
    unfold loopOf getF at hl ⊢
    rw [getR_emit, hl]
    decide
  unfold rxLine
  rw [if_pos ⟨hl, hc, hu⟩]
  exact if_neg h1

theorem pauseRx_honoured {da q : Nat} (hd : da = 0x0180C2000001 ∨ da = macSa s p)
    (he : getB s (MAC_PAUSE_CTRL p) 0 = true) : pauseRx p da q s =
      macMod (putPaused (macCount s p 5 1) p q) p fun x =>
        { x with pauseFrom := if x.tx.isSome || x.held.isSome then none else some s.time.tense } :=
  if_pos ⟨hd, he⟩

theorem pauseRx_counts {da q : Nat} (h : (da ≠ 0x0180C2000001 ∧ da ≠ macSa s p) ∨ getB s (MAC_PAUSE_CTRL p) 0 = false) :
    pauseRx p da q s = macCount s p 5 1 :=
  if_neg fun hp => h.elim (fun hd => hp.1.elim hd.1 hd.2) (not_eq_false_of_true hp.2)

/-! PAUSE frames sent and the pause that ends. -/

theorem pauseEnd_elapses {t : BitVec 64} (hf : (mac s p).pauseFrom = some t) (hp : paused s p = true) : pauseEnd p s =
    putPaused (advanceNs s (t.toNat + quantaNs s p (getF s (MAC_PAUSE_STATUS p) 31 16))) p 0 := by
  unfold pauseEnd
  rw [hf]
  exact if_pos hp

theorem pauseXoff_sends (hm : pauseMay s p = true) (ha : aboveXoff s p = true)
    (hs : getB s (MAC_PAUSE_STATUS p) 1 = false) : pauseXoff p s = pauseSend s p (getF s (MAC_PAUSE_CTRL p) 31 16) := by
  unfold pauseXoff
  rw [hm, ha, hs]
  rfl

theorem pauseRefresh_sends (hm : pauseMay s p = true) (ha : aboveXon s p = true)
    (hs : getB s (MAC_PAUSE_STATUS p) 1 = true) (hc : (mac s p).ctl.any MacCtl.isPause = false) : pauseRefresh p s =
      (let q := getF s (MAC_PAUSE_CTRL p) 31 16
       pauseSend (advanceNs s ((mac s p).xoffFrom.toNat + quantaNs s p q / 2)) p q) := by
  unfold pauseRefresh
  rw [hm, ha, hs, hc]
  rfl

theorem pauseXon_sends (hm : pauseMay s p = true) (ha : aboveXon s p = false)
    (hs : getB s (MAC_PAUSE_STATUS p) 1 = true) : pauseXon p s = pauseSend s p 0 := by
  unfold pauseXon
  rw [hm, ha, hs]
  rfl

theorem mac_congr {t : State} (h : t.eth = s.eth) : mac t p = mac s p := by
  unfold mac
  rw [h]

/-- A control frame of a MAC that sends nothing and is not in LPI goes out as soon as the line is free. -/
theorem ctlSend_idle {c : MacCtl} (hl : getB s (MAC_LINK p) 6 = false) (ht : (mac s p).tx = none) :
    ctlSend s p c = ctlOut (advanceNs s (mac s p).readyAt.toNat) p c := by
  unfold ctlSend
  dsimp only
  rw [hl, if_neg Bool.false_ne_true, ht]

theorem pauseSend_first {q : Nat} (hp : p < 192) (hs : getB s (MAC_PAUSE_STATUS p) 1 = false)
    (ht : (mac s p).tx = none) (hl : getB s (MAC_LINK p) 6 = false) : pauseSend s p (q + 1) =
      ctlOut (advanceNs (raiseIrq (putB s (MAC_PAUSE_STATUS p) 1 true) (MAC p) 2) (mac s p).readyAt.toNat)
        p (.pause (q + 1)) := by
  have hk : Keeps [.regs, .outs, .intc] s (raiseIrq (putB s (MAC_PAUSE_STATUS p) 1 true) (MAC p) 2) :=
    K.raiseIrq (by decide) (by decide) (by decide) (K.putB (by decide) (Keeps.refl _ s))
  have hmac : mac (raiseIrq (putB s (MAC_PAUSE_STATUS p) 1 true) (MAC p) 2) p = mac s p :=
    mac_congr (hk.only.2 .eth (by decide))
  have hlink : getB (raiseIrq (putB s (MAC_PAUSE_STATUS p) 1 true) (MAC p) 2) (MAC_LINK p) 6 = false := by
    unfold getB at hl ⊢
    rw [(link_plain hp).raiseIrq (mac_page p), getR_putB_ne (by simp only [MAC_LINK, MAC_PAUSE_STATUS]; omega)]
    exact hl
  unfold pauseSend
  dsimp only
  rw [decide_eq_true (Nat.succ_ne_zero q), if_neg (by rw [hs]; exact Bool.false_ne_true),
    ctlSend_idle hlink (by rw [hmac]; exact ht), hmac]

end

theorem bitVec_toNat_eq_of_eq_or {n : Nat} {a b : BitVec n} {c : Nat} (h : a = b ∨ a.toNat = c) :
    a.toNat = b.toNat ∨ a.toNat = c := h.imp_left (congrArg BitVec.toNat)

/-- Settles O16: the line by the lane's loopback, a frame by its kind, a PAUSE frame by its address. -/
theorem macReceptionAndPause : Obligations.MacReceptionAndPause := by
  unfold Obligations.MacReceptionAndPause
  exact ⟨fun p b k s hl hr => congrArg Host.Outcome.next (rxLine_open hl hr),
    fun p b k s hl hr => congrArg Host.Outcome.next (rxLine_ignored hl hr),
    fun p b k s hl => congrArg Host.Outcome.next (rxLine_nearEnd hl),
    fun p b k s hl hc hu => congrArg Host.Outcome.next (rxLine_farEnd hl hc hu),
    fun p b s hl hr hp h60 hm hb => congrArg Host.Outcome.next ((rxLine_open hl hr).trans (macRx_good hp h60 hm hb)),
    fun p b s hl hr hp h60 hm => congrArg Host.Outcome.next ((rxLine_open hl hr).trans (macRx_fcs hp h60 hm)),
    fun p b s hl hr => congrArg Host.Outcome.next ((rxLine_open hl hr).trans (if_pos rfl)),
    fun p b x s hl hr hp hh hq h60 hm hb =>
      congrArg Host.Outcome.next ((rxLine_open hl hr).trans (macRx_pair hp hh hq h60 hm hb)),
    fun p b k s hl hr => congrArg Host.Outcome.next (rxLine_open hl hr),
    fun p op s hl hr => congrArg Host.Outcome.next (rxGate_open hl hr),
    fun p da q s hl hr hd he => congrArg Host.Outcome.next
      ((rxGate_open hl hr).trans (pauseRx_honoured (bitVec_toNat_eq_of_eq_or hd) he)),
    fun p da q s hl hr h => congrArg Host.Outcome.next
      ((rxGate_open hl hr).trans (pauseRx_counts (h.imp_left fun hd => ⟨fun e => hd.1 (BitVec.eq_of_toNat_eq e), hd.2⟩))),
    fun p t s hf hp => congrArg Host.Outcome.next (pauseEnd_elapses hf hp),
    fun p s hm ha hs => congrArg Host.Outcome.next (pauseXoff_sends hm ha hs),
    fun p s hm ha hs hc => congrArg Host.Outcome.next (pauseRefresh_sends hm ha hs hc),
    fun p s hm ha hs => congrArg Host.Outcome.next (pauseXon_sends hm ha hs),
    fun p q s hm ha hs ht hl hq => congrArg Host.Outcome.next
      ((pauseXoff_sends hm ha hs).trans ((congrArg _ hq).trans (pauseSend_first p.isLt hs ht hl)))⟩

/-! Egress selection. -/

section
variable {p : Nat} {f : ReadFault} {s t : State}

theorem egressSelect_mac (hp : p < 192) : egressSelect p f s = macSelect p f s := if_pos hp

section
variable (hr : txReady s p = true)
include hr

/-- An idle MAC that may send takes what selection gives. -/
theorem macSelect_idle {o : Option (Frame × Nat × List Byte)} (ht : (mac s p).tx = none) (hh : (mac s p).held = none) :
    macPick s p (fun _ => true) f (s.sw.queue.length + 1) = (t, o) → macSelect p f s =
      match o with
      | some (fr, c, b) => macStart t p fr c b
      | none => t := by
  intro hk
  unfold macSelect
  dsimp only
  rw [ht, hh]
  dsimp only
  rw [if_pos hr, hk]
  cases o with
  | none => rfl
  | some x => rfl

/-- With a preempted frame held, an express frame goes before it. -/
theorem macSelect_held {o : Option (Frame × Nat × List Byte)} {x : TxFrame} (ht : (mac s p).tx = none)
    (hh : (mac s p).held = some x) :
    macPick s p (fun c => !(preemptable s p c)) f (s.sw.queue.length + 1) = (t, o) → macSelect p f s =
      match o with
      | some (fr, c, b) => macStart t p fr c b
      | none => macResume t p x := by
  intro hk
  unfold macSelect
  dsimp only
  rw [ht, hh]
  dsimp only
  rw [if_pos hr, hk]
  cases o with
  | none => rfl
  | some x => rfl

/-- An express frame interrupts a frame in progress that may be preempted. -/
theorem macSelect_busy {o : Option (Frame × Nat × List Byte)} {x : TxFrame} (ht : (mac s p).tx = some x) :
    macPick s p (fun c => !(preemptable s p c)) f (s.sw.queue.length + 1) = (t, o) → macSelect p f s =
      if mayPreempt s p x then
        match o with
        | some (fr, c, b) => macStart (preemptNow t p x) p fr c b
        | none => t
      else s := by
  intro hk
  unfold macSelect
  dsimp only
  rw [ht]
  dsimp only
  rw [hr, Bool.true_and, hk]
  cases o with
  | none => rfl
  | some x => rfl

end

theorem macSelect_notReady (hr : txReady s p = false) (h : (mac s p).held = none ∨ (mac s p).tx.isSome = true) :
    macSelect p f s = s := by
  unfold macSelect
  dsimp only
  rw [hr]
  cases htx : (mac s p).tx with
  | some x => rfl
  | none =>
    rw [h.resolve_right (by rw [htx]; exact Bool.false_ne_true)]
    rfl

theorem macSelect_resumes {x : TxFrame} (hr : txReady s p = false) (ht : (mac s p).tx = none)
    (hh : (mac s p).held = some x) : macSelect p f s = macResume s p x := by
  unfold macSelect
  dsimp only
  rw [ht, hh, hr]
  rfl

theorem egressSelect_internal (h192 : 192 ≤ p) (h212 : p < 212) (ho : egressOn s p = true) :
    egressSelect p f s = sinkTry p f s (s.sw.queue.length + 1) := by
  unfold egressSelect sinkSelect
  rw [if_neg (Nat.not_lt.mpr h192), if_neg (not_or_intro (not_eq_false_of_true ho) (Nat.not_le.mpr h212))]

end

/-! The end of a transmission and preemption's verification. -/

section
variable {p : Nat} {s : State}

theorem macTxEnd_ends {x : TxFrame} (ht : (mac s p).tx = some x) : macTxEnd p s =
    (let n := x.bytes.length + 4
     let s1 := advanceNs s (x.start.toNat + bytesNs s p (8 + n - x.sent))
     let s2 := macCount (macCount (lineOut s1 p (.frame p x.bytes)) p 8 1) p 9 n
     let s3 := macMod s2 p fun q =>
       { q with
         tx := none
         readyAt := s1.time.tense + BitVec.ofNat 64 (bytesNs s p 12)
         pauseFrom := if paused s2 p && q.pauseFrom.isNone && q.held.isNone then some s2.time.tense else q.pauseFrom }
     let s4 := ptpSent s3 x.rec_
     let s5 := ctlFlush (if x.pass then itemTransmitted s4 x.tag else s4) p
     let s6 := preemptSync s5 p
     if carries s p && decide (loopOf s p = 1) then rxMeets p (macRx p x.bytes .good) s6 else s6) := by
  unfold macTxEnd
  rw [ht]

section
variable (ho : macOn s p = true) (hu : macUp s p = true)
include ho hu

theorem verifySend_initial (hv : verifyState s p = 1) (ht : (mac s p).tx = none) (hh : (mac s p).held = none) :
    verifySend p s =
      (let u := ctlSend s p (.mpacket true)
       verifyPut (macMod u p fun q => { q with attempts := 1, verifyAt := u.time.tense }) p 2) := by
  unfold verifySend
  dsimp only
  rw [if_neg (not_or_intro (not_eq_false_of_true ho) (not_eq_false_of_true hu)), hv, ht, hh]
  rfl

theorem verifySend_again (hv : verifyState s p = 2)
    (ha : (mac s p).attempts < max 1 (getF s (MAC_PREEMPT_CTRL p) 26 24)) : verifySend p s =
      (let s1 := advanceNs s ((mac s p).verifyAt.toNat + max 1 (getF s (MAC_PREEMPT_CTRL p) 22 16) * 1000000)
       let u := ctlSend s1 p (.mpacket true)
       macMod u p fun q => { q with attempts := (mac s p).attempts + 1, verifyAt := u.time.tense }) := by
  unfold verifySend
  dsimp only
  rw [if_neg (not_or_intro (not_eq_false_of_true ho) (not_eq_false_of_true hu)), hv]
  exact if_pos ha

/-- With the attempts used up verification has failed. -/
theorem verifySend_fails (hv : verifyState s p = 2)
    (ha : max 1 (getF s (MAC_PREEMPT_CTRL p) 26 24) ≤ (mac s p).attempts) : verifySend p s =
      verifyPut (macCount (advanceNs s ((mac s p).verifyAt.toNat +
        max 1 (getF s (MAC_PREEMPT_CTRL p) 22 16) * 1000000)) p 16 1) p 4 := by
  unfold verifySend
  dsimp only
  rw [if_neg (not_or_intro (not_eq_false_of_true ho) (not_eq_false_of_true hu)), hv]
  exact if_neg (Nat.not_lt.mpr ha)

end

theorem respondRx_enabled (he : preemptEn s p = true) : respondRx p s =
    if verifyState s p = 2 then raiseIrq (putF s (MAC_PREEMPT_STATUS p) 2 0 3) (MAC p) 3 else s := by
  unfold respondRx
  rw [if_neg (not_eq_false_of_true he)]
  by_cases hv : verifyState s p = 2
  · rw [if_pos hv, if_pos hv]
    unfold verifyPut
    rw [if_neg (by rw [hv]; decide)]
  · rw [if_neg hv, if_neg hv]

theorem respondRx_disabled (he : preemptEn s p = false) : respondRx p s = bumpN s (MAC_Port_counters p 6) 1 := if_pos he

end

/-- Settles O17: egress selection by what the MAC sends and holds, verification by its state. -/
theorem macTransmission : Obligations.MacTransmission := by
  unfold Obligations.MacTransmission
  exact ⟨fun p f fr c b s t hp hr ht hh hk =>
      congrArg Host.Outcome.next ((egressSelect_mac hp).trans (macSelect_idle hr ht hh hk)),
    fun p f s t hp hr ht hh hk => congrArg Host.Outcome.next ((egressSelect_mac hp).trans (macSelect_idle hr ht hh hk)),
    fun p f s hp hr h => congrArg Host.Outcome.next ((egressSelect_mac hp).trans (macSelect_notReady hr h)),
    fun p f x s t o hp hr ht hh hk => congrArg Host.Outcome.next ((egressSelect_mac hp).trans (macSelect_held hr ht hh hk)),
    fun p f x s hp hr ht hh => congrArg Host.Outcome.next ((egressSelect_mac hp).trans (macSelect_resumes hr ht hh)),
    fun p f x s t o hp hr ht hk => congrArg Host.Outcome.next ((egressSelect_mac hp).trans (macSelect_busy hr ht hk)),
    fun p f s h192 h212 ho => congrArg Host.Outcome.next (egressSelect_internal h192 h212 ho),
    fun p x s ht => congrArg Host.Outcome.next (macTxEnd_ends ht),
    fun p s ho hu hv ht hh => congrArg Host.Outcome.next (verifySend_initial ho hu hv ht hh),
    fun p s ho hu hv ha => congrArg Host.Outcome.next (verifySend_again ho hu hv ha),
    fun p s ho hu hv ha => congrArg Host.Outcome.next (verifySend_fails ho hu hv ha),
    fun p s hl hr he => congrArg Host.Outcome.next ((rxGate_open hl hr).trans (respondRx_enabled he)),
    fun p s hl hr he => congrArg Host.Outcome.next ((rxGate_open hl hr).trans (respondRx_disabled he)),
    fun p s hl hr => congrArg Host.Outcome.next (rxGate_open hl hr)⟩

/-! Links and lanes. -/

section
variable {l n : Nat} {s : State}

/-- Code errors count and write no register. -/
theorem getR_codeErrs (a : Nat) : getR (codeErrs l n s) a = getR s a := by
  unfold codeErrs
  split <;> rfl

theorem getB_codeErrs (a i : Nat) : getB (codeErrs l n s) a i = getB s a i := congrArg (bit · i) (getR_codeErrs a)

theorem laneMode_codeErrs (k : Nat) : laneMode (codeErrs l n s) k = laneMode s k :=
  congrArg (fld · 10 8) (getR_codeErrs (SDS_STATUS k))

theorem codeErrs_off (h : getB s (BLK_CTRL (SDS l)) 0 = false) : codeErrs l n s = s :=
  if_neg (ne_of_eq_of_ne h Bool.false_ne_true)

theorem linkUpAt_off {p w : Nat} (h : getB s (BLK_CTRL (SDS (laneOf p))) 0 = false) : linkUpAt p w s = s :=
  if_pos (.inl h)

theorem linkDownAt_lost {p : Nat} {half : Bool} {why : LaneLoss} (hm : laneMode s (laneOf p) ≠ 0) (hw : why ≠ .word) :
    linkDownAt p half why s = laneLost (laneOf p) (decide (why = .signal)) s := by
  unfold linkDownAt
  dsimp only
  rw [if_neg hm, if_neg fun h => hw h.1]

theorem linkDownAt_noMode {p : Nat} {half : Bool} {why : LaneLoss} (hm : laneMode s (laneOf p) = 0) :
    linkDownAt p half why s = s := if_pos hm

theorem laneEn_starts (h : getB s (BLK_CTRL (SDS l)) 0 = false) :
    laneEn l true s = laneStart l (putB s (BLK_CTRL (SDS l)) 0 true) := by
  unfold laneEn
  rw [if_neg (by rw [h]; exact Bool.false_ne_true), if_pos rfl]

theorem anCtrl_restart : anCtrl l (setBit (getR s (SDS_AN_CTRL l)) 1 true) s =
    putB (putB s (SDS_AN_CTRL l) 0 (bit (getR s (SDS_AN_CTRL l)) 0)) (SDS_STATUS l) 2 false := by
  unfold anCtrl
  rw [if_pos (bit_setBit_same (by decide)), bit_setBit_ne (by decide) (by decide)]

end

theorem ends_linkUp {p : Fin 192} {w : BitVec 3} {n : BitVec 16} {s : State}
    (he : getB s (BLK_CTRL (SDS (laneOf p.val))) 0 = true) (hm : laneMode s (laneOf p.val) ≠ 0) :
    Ends (.linkUp p w n) s fun t => Only [.regs, .cnts, .outs, .intc, .sw, .eth] s t ∧ macUp t p.val = true :=
  ⟨_, rfl, (exec_keeps (c := .linkUp p w n) rfl).only,
    macUp_linkUpAt (by rw [getB_codeErrs]; exact he) (by rw [laneMode_codeErrs]; exact hm)⟩

theorem ends_linkDown_word {p : Fin 192} {half : Bool} {n : BitVec 16} {s : State} (h0 : laneMode s (laneOf p.val) ≠ 0)
    (h3 : laneMode s (laneOf p.val) ≤ 3) : Ends (.linkDown p half .word n) s fun t =>
      Only [.regs, .cnts, .outs, .intc, .sw, .eth] s t ∧ macUp t p.val = false :=
  ⟨_, rfl, (exec_keeps (c := .linkDown p half .word n) rfl).only,
    macUp_linkDownAt (by rw [laneMode_codeErrs]; exact h0) (by rw [laneMode_codeErrs]; exact h3)⟩

/-- A lane that loses its sync or signal ends the links of all its ports. -/
theorem ends_linkDown_lost {p q : Fin 192} {half : Bool} {why : LaneLoss} {n : BitVec 16} {s : State}
    (h0 : laneMode s (laneOf p.val) ≠ 0) (hw : why ≠ .word) (hq : q.val ∈ lanePorts (laneOf p.val)) :
    Ends (.linkDown p half why n) s fun t =>
      Only [.regs, .cnts, .outs, .intc, .sw, .eth] s t ∧ macUp t q.val = false := by
  refine ⟨_, rfl, (exec_keeps (c := .linkDown p half why n) rfl).only, ?_⟩
  rw [linkDownAt_lost (by rw [laneMode_codeErrs]; exact h0) hw]
  exact macUp_laneLost q.isLt hq _ _

/-! Energy-Efficient Ethernet and MDIO. -/

section
variable {p : Nat} {s : State}

theorem lpiEnter_idle (hu : lpiUse s p = true) (hd : devState s = 0) (hw : waitsFor s p = false)
    (ht : (mac s p).tx = none) (hh : (mac s p).held = none) (hl : getB s (MAC_LINK p) 6 = false) : lpiEnter p s =
      putLpi (advanceNs s (tenseNs s + getF s (MAC_EEE_CTRL p) 31 16 * 1000)) p true := by
  unfold lpiEnter awake
  dsimp only
  rw [hu, hd, hw, ht, hh, hl]
  rfl

theorem lpiLeave_waits (hl : getB s (MAC_LINK p) 6 = true) (hd : devState s = 0) (hw : waitsFor s p = true) :
    lpiLeave p s =
      macMod (putLpi s p false) p fun q => { q with readyAt := s.time.tense + BitVec.ofNat 64 (wakeUs s p * 1000) } := by
  unfold lpiLeave awake
  rw [hl, hd, hw]
  rfl

theorem lpiPartner_changes {on : Bool} (ho : macOn s p = true) (hu : macUp s p = true)
    (hl : getB s (MAC_LINK p) 7 ≠ on) : lpiPartner p on s =
      (let s1 := raiseIrq (putB s (MAC_LINK p) 7 on) (MAC p) 4
       if !on && lpiCapable s p then wakeSource 12 s1 else s1) :=
  if_neg (not_or_intro (not_eq_false_of_true ho) (not_or_intro (not_eq_false_of_true hu) hl))

end

/-- The operation bits leave the clause of the frame as it is. -/
theorem clause_mdioWord {v : Word} {a b : Nat} : fld (mdioWord v a b) 31 30 = fld v 31 30 :=
  fld_setFld_ne (by decide) (by decide)

/-- The word of a clause 45 frame, whose operation does not depend on the clause. -/
theorem mdioWord_both {v : Word} {a : Nat} : mdioWord v a a = setFld v 29 28 a := by
  unfold mdioWord
  rw [ite_self]

theorem clause_setFld_one {v : Word} : fld (setFld v 31 30 1) 31 30 = 1 := fld_setFld_same (by decide)

theorem mdioCmd_clause45 {l a : Nat} {v : Word} {s : State} (h : getB s (SDS_MDIO_RESULT l) 30 = false) :
    mdioCmd l (mdioWord (setFld v 31 30 1) a a) s =
      (let w := setFld (setFld v 31 30 1) 29 28 a
       let s1 := putB (putB s (SDS_MDIO_RESULT l) 31 false) (SDS_MDIO_RESULT l) 30 true
       emit { s1 with eth := { s1.eth with mdio := sset s1.eth.mdio l w } } (.mdio l w)) := by
  rw [mdioCmd_go h (by rw [clause_mdioWord, clause_setFld_one]; decide), mdioWord_both]

theorem mdioEnd_inProgress {l : Nat} {data : BitVec 16} {v : Word} {s : State} (hv : sfind s.eth.mdio l = some v) :
    mdioEnd l data s =
      (let s1 := { s with eth := { s.eth with mdio := sdel s.eth.mdio l } }
       let s2 := putB (putB s1 (SDS_MDIO_RESULT l) 30 false) (SDS_MDIO_RESULT l) 31 true
       let s3 := if mdioReads v then putF s2 (SDS_MDIO_RESULT l) 15 0 data.toNat else s2
       updMdio (putB s3 (SDS_MDIO_IRQ_STATUS l) 0 true) l) := by
  unfold mdioEnd
  rw [hv]

/-- Settles O18: a lane by its mode, LPI by what waits, an MDIO word by its clause. -/
theorem linksLanesAndMdio : Obligations.LinksLanesAndMdio := by
  unfold Obligations.LinksLanesAndMdio
  exact ⟨fun p w n s he hm => ends_linkUp he hm,
    fun p w n s he => congrArg Host.Outcome.next ((congrArg _ (codeErrs_off he)).trans (linkUpAt_off he)),
    fun p half n s h0 h3 => ends_linkDown_word h0 h3,
    fun p q half why n s h0 hw hq => ends_linkDown_lost h0 hw hq,
    fun p half why n s h0 => congrArg Host.Outcome.next (linkDownAt_noMode ((laneMode_codeErrs _).trans h0)),
    fun m l s h he => next_write h (laneEn_starts he),
    fun m l s h => next_write h anCtrl_restart,
    fun m l n s h => next_read h rfl,
    fun p s hu hd hw ht hh hl => congrArg Host.Outcome.next (lpiEnter_idle hu hd hw ht hh hl),
    fun p s hl hd hw => congrArg Host.Outcome.next (lpiLeave_waits hl hd hw),
    fun p on s ho hu hl => congrArg Host.Outcome.next (lpiPartner_changes ho hu hl),
    fun m l v s h hb hv => next_write h (mdioCmd_go hb (clause_mdioWord.trans_lt hv)),
    fun m l v s h hb hv => next_write h (mdioCmd_go hb (clause_mdioWord.trans_lt hv)),
    fun m l v s h hb => next_write h (mdioCmd_clause45 hb),
    fun m l v s h hb => next_write h (mdioCmd_clause45 hb),
    fun l data v s hv => congrArg Host.Outcome.next (mdioEnd_inProgress hv)⟩

end Sys2Proof.Proofs
end

section
/-! The Period Link controller: its commands and a node's cycle (R250–R308), for the family of the Period Link. -/

namespace Sys2Proof.Proofs

open Sys2Proof Sys2Proof.Machine Sys2Proof.Machine.Reg Sys2Proof.Laws

/-! Commands. -/

section
variable {n : Nat} {s : State}

theorem plkCommit_otherState (hc : plkC s n ≠ 0) : plkCommit n s = plkCmdEnd s n 5 0 0 := if_pos hc

theorem plkCommit_badParam (hc : plkC s n = 0) (hp : plkParamOk s n = false) : plkCommit n s = plkCmdEnd s n 2 0 0 := by
  unfold plkCommit
  rw [if_neg (not_not_intro hc), hp]
  rfl

section
variable (hc : plkC s n = 0) (hp : plkParamOk s n = true)
include hc hp

theorem plkCommit_badSchedule {e : Nat × Nat} (hs : plkSchedBad s n = some e) :
    plkCommit n s = plkCmdEnd s n 3 e.1 e.2 := by
  unfold plkCommit
  rw [if_neg (not_not_intro hc), hp, Bool.not_true, if_neg Bool.false_ne_true, hs]

theorem plkCommit_badGuardian {e : Nat × Nat} (hs : plkSchedBad s n = none) (hg : plkGuardBad s n = some e) :
    plkCommit n s = plkCmdEnd s n 4 e.1 e.2 := by
  unfold plkCommit
  rw [if_neg (not_not_intro hc), hp, Bool.not_true, if_neg Bool.false_ne_true, hs]
  dsimp only
  rw [hg]

theorem plkCommit_ready (hs : plkSchedBad s n = none) (hg : plkGuardBad s n = none) :
    plkCommit n s = plkCmdEnd (putF s (PLK_STATUS n) 1 0 1) n 0 0 0 := by
  unfold plkCommit
  rw [if_neg (not_not_intro hc), hp, Bool.not_true, if_neg Bool.false_ne_true, hs]
  dsimp only
  rw [hg]

end

theorem plkStartCmd_refused (h : plkC s n ≠ 1 ∨ getB s (BLK_CTRL (PLK n)) 0 = false) :
    plkStartCmd n s = plkCmdEnd s n 5 0 0 :=
  if_neg fun hg => h.elim (· hg.1) (not_eq_false_of_true hg.2)

end

/-- Settles O19: each command by the state of the controller. -/
theorem periodLinkCommands : Obligations.PeriodLinkCommands := by
  unfold Obligations.PeriodLinkCommands
  exact ⟨fun m n s h hc hp hs hg => next_write h (plkCommit_ready hc hp hs hg),
    fun m n s h hc hp => next_write h (plkCommit_badParam hc hp),
    fun m n e s h hc hp hs => next_write h (plkCommit_badSchedule hc hp hs),
    fun m n e s h hc hp hs hg => next_write h (plkCommit_badGuardian hc hp hs hg),
    fun m n s h hc => next_write h (plkCommit_otherState hc),
    fun m n s h hc => next_write h (if_pos hc),
    fun m n s h hc => next_write h (if_neg hc),
    fun m n s h hc he => next_write h (if_pos ⟨hc, he⟩),
    fun m n s h hc => next_write h (plkStartCmd_refused hc),
    fun m n s h hc => next_write h (if_pos hc),
    fun m n s h hc => next_write h (if_neg hc),
    fun m n mode s h hc => next_write h (if_pos hc),
    fun m n mode s h hc => next_write h (if_neg hc)⟩

/-! A node's cycle. -/

section
variable {n k : Nat} {s : State}

theorem plk_plkMod {f : PlkSt → PlkSt} : plk (plkMod s n f) n = f (plk s n) := sget_sset_eq _ _ _ _

theorem plkCycleStart_runs {g : Word} (hc : plkC s n = 2) (hp : 2 ≤ plkP s n) : plkCycleStart n g s =
    (let p := plk s n
     let t0 := (Int.ofNat (p.t0 + plkHalf s n (plkLen s n)) + 5 * p.kappa).toNat
     let s0 := plkSlotsOver (advanceHalf s t0) n
     let s1 := if plkP s n = 3 ∧ plkCycle s n = 3 then plkSetP s0 n 4 else s0
     let ok := decide (plkHalf s n (plkLen s n - getF s (PLK_WINDOWS n) 7 0) ≤ 5 * g.toNat)
     let s2 := if ok then s1 else plkNote s1 n 10 13
     let s3 := putB (putF s2 (PLK_STATUS n) 31 16 (plkCycle s n + 1)) (PLK_STATUS n) 11 p.mcNext.isSome
     let s4 := plkModeApply s3 n p.nextMode
     plkMod s4 n fun q => { q with
       t0 := t0, inNit := false, kappa := 0, mcNow := p.mcNext, mcNext := none, devs := [], whole := true
       syncSeen := false, badMode := false, votes := [], sawMember := false, sawOwn := false
       startVec := getR64 s4 (PLK_MEMBERS_LO n), excl := (q.excl.map fun a => a + 1).filter fun a => decide (a < 1024)
       taken := [], fired := [], fetchNs := max 2000 (getF s (PLK_FETCH_NS n) 15 0), gOk := ok, gCount := g.toNat
       gT0 := if ok then t0 else q.gT0, newMode := none }) :=
  if_neg (not_or_intro (not_not_intro hc) (Nat.not_lt.mpr hp))

section
variable (hc : plkC s n = 2) (hp : plkP s n = 4)
include hc hp

/-- In NORMAL operation the fetch point of an own slot chooses its frame for this cycle. -/
theorem plkFetch_thisCycle (hi : (plk s n).inNit = false) (hk : k < plkN s n (plkMode s n))
    (ho : plkOwner s n (plkMode s n) k = plkId s n) (hn : (plk s n).chosen.any (fun t => decide (t.slot = k)) = false) :
    plkFetch n k s =
      (let start := plkHalf s n (plkStart s n (plkMode s n) k + plkAct s n (plkMode s n) k)
       let due := Int.ofNat (plk s n).t0 + Int.ofNat start - Int.ofNat (2 * (plk s n).fetchNs)
       match plkChoose (advanceHalf s due.toNat) n (plkMode s n) k (plkCycle s n) with
       | (t, some x) => plkMod t n fun q => { q with chosen := q.chosen ++ [x] }
       | (t, none) => t) := by
  have hgo : ¬ (plkC s n ≠ 2 ∨ (plkP s n ≠ 3 ∧ plkP s n ≠ 4) ∨ plkN s n (plkMode s n) ≤ k ∨
      plkOwner s n (plkMode s n) k ≠ plkId s n ∨ (plk s n).chosen.any (fun t => decide (t.slot = k)) = true) := by
    rw [hc, hp, ho, hn]
    simp only [ne_eq, not_true_eq_false, false_or, and_false, Bool.false_eq_true, or_false]
    omega
  unfold plkFetch
  dsimp only
  rw [hi]
  exact if_neg hgo

/-- In the NIT the fetch point of an own slot chooses its frame for the next cycle. -/
theorem plkFetch_nextCycle (hi : (plk s n).inNit = true) (hk : k < plkN s n (plk s n).nextMode)
    (ho : plkOwner s n (plk s n).nextMode k = plkId s n)
    (hn : (plk s n).chosen.any (fun t => decide (t.slot = k)) = false) : plkFetch n k s =
      (let p := plk s n
       let start := plkHalf s n (plkStart s n p.nextMode k + plkAct s n p.nextMode k)
       let next := Int.ofNat (p.t0 + plkHalf s n (plkLen s n)) + 5 * p.kappa
       let due := next + Int.ofNat start - Int.ofNat (2 * p.fetchNs)
       match plkChoose (advanceHalf s due.toNat) n p.nextMode k ((plkCycle s n + 1) % 65536) with
       | (t, some x) => plkMod t n fun q => { q with chosen := q.chosen ++ [x] }
       | (t, none) => t) := by
  have hgo : ¬ (plkC s n ≠ 2 ∨ (plkP s n ≠ 3 ∧ plkP s n ≠ 4) ∨ plkN s n (plk s n).nextMode ≤ k ∨
      plkOwner s n (plk s n).nextMode k ≠ plkId s n ∨
      (plk s n).chosen.any (fun t => decide (t.slot = k)) = true) := by
    rw [hc, hp, ho, hn]
    simp only [ne_eq, not_true_eq_false, false_or, and_false, Bool.false_eq_true, or_false]
    omega
  unfold plkFetch
  dsimp only
  rw [hi]
  exact if_neg hgo

section
variable {x : PlTx} (hl : (plk s n).onLine = none) (hx : (plk s n).chosen.find? (fun t => decide (t.slot = k)) = some x)
include hl hx

theorem plkAction_transmits (hs : plkStands s n x = true) : plkAction n k s =
    (let act := (plk s n).t0 + plkHalf s n (plkStart s n (plkMode s n) k + plkAct s n (plkMode s n) k)
     plkTransmit (plkMod s n fun p => { p with chosen := p.chosen.filter fun u => decide (u.slot ≠ k) }) n act x) := by
  unfold plkAction
  dsimp only
  rw [hc, hp, hl, if_neg (by decide), hx]
  exact if_pos hs

/-- A record that is gone since its fetch leaves a null frame. -/
theorem plkAction_null (hs : plkStands s n x = false) : plkAction n k s =
    (let act := (plk s n).t0 + plkHalf s n (plkStart s n (plkMode s n) k + plkAct s n (plkMode s n) k)
     let s0 := plkMod s n fun p => { p with chosen := p.chosen.filter fun u => decide (u.slot ≠ k) }
     match plkNull s0 n k (plkView s0 n (plkMode s n) k (plkCycle s n)) with
     | (t, some u) => plkTransmit t n act u
     | (t, none) => t) := by
  unfold plkAction
  dsimp only
  rw [hc, hp, hl, if_neg (by decide), hx]
  exact if_neg (ne_of_eq_of_ne hs Bool.false_ne_true)

end
end

theorem plkEnd_onLine {x : PlTx} (hl : (plk s n).onLine = some x) : plkEnd n s =
    (let start := plkStart s n (plkMode s n) x.slot + plkAct s n (plkMode s n) x.slot
     let fin := (plk s n).t0 + plkHalf s n start + 20 * (22 + x.payload.length) * plkBit s n
     plkRelease (advanceHalf (plkSent (advanceHalf s fin) n x) (fin + 2 * plkBit s n)) n) := by
  unfold plkEnd
  rw [hl]

/-! Reception. -/

section
variable {b : Bool} {lt lt2 : Nat} {bits : List Bool}

theorem plkReceive_deaf (h : plkC s n ≠ 2 ∨ plkP s n = 0 ∨ plkChanOn s n b = false) :
    plkReceive n b lt lt2 bits s = s := if_pos h

/-- In LISTEN a transmission is met when it has ended. -/
theorem plkReceive_listens (hc : plkC s n = 2) (hp : plkP s n = 1) (hb : plkChanOn s n b = true) :
    plkReceive n b lt lt2 bits s =
      (let h := plkHear s n lt lt2 bits
       let edge := 2 * tenseNs s - 20 * (22 + beAt h.2.2 6 1) * plkBit s n
       let start := (Int.ofNat edge + 5 * (Int.ofNat h.2.1 - Int.ofNat lt)).toNat
       let s1 := plkHeardTo s n b (edge + 2 * lowBits bits * plkBit s n)
       if edge < (if b then (plk s n).chB else (plk s n).chA).last + 22 * plkBit s n then plkActivity s1 n
       else plkJudged n b h.1 (Int.ofNat h.2.1) start h.2.2 s1) := by
  have hgo : ¬ (2 ≠ 2 ∨ 1 = 0 ∨ true = false) := by decide
  unfold plkReceive
  dsimp only
  rw [hc, hp, hb, if_neg hgo]
  rfl

theorem plkReceive_runs (hc : plkC s n = 2) (hp : 2 ≤ plkP s n) (hb : plkChanOn s n b = true) :
    plkReceive n b lt lt2 bits s =
      (let h := plkHear s n lt lt2 bits
       let edge := (plk s n).t0 + 5 * lt
       let start := (Int.ofNat edge + 5 * (Int.ofNat h.2.1 - Int.ofNat lt)).toNat
       let s0 := advanceHalf s (start + 20 * (22 + beAt h.2.2 6 1) * plkBit s n)
       let s1 := plkHeardTo s0 n b (edge + 2 * lowBits bits * plkBit s n)
       if edge < (if b then (plk s n).chB else (plk s n).chA).last + 22 * plkBit s n then plkActivity s1 n
       else plkJudged n b h.1 (Int.ofNat h.2.1) start h.2.2 s1) := by
  have hgo : ¬ (plkC s n ≠ 2 ∨ plkP s n = 0 ∨ plkChanOn s n b = false) :=
    not_or_intro (not_not_intro hc) (not_or_intro (by omega) (not_eq_false_of_true hb))
  have h1 : plkP s n ≠ 1 := by omega
  unfold plkReceive
  dsimp only
  rw [if_neg hgo, if_neg h1, if_neg h1]

end

section
variable {b ok : Bool} {lt : Int} {start : Nat} {body : List Byte}

/-- A failing outcome in NORMAL operation is counted and shown. -/
theorem plkJudged_fails {o : Nat} (hp : plkP s n = 4)
    (ho : (plkJudge s n ok (5 * lt - 2 * (if b then getF s (PLK_DELTA n) 26 16 else getF s (PLK_DELTA n) 10 0)) body).1 = o)
    (h0 : o ≠ 0) (h5 : o ≠ 5) : plkJudged n b ok lt start body s =
      (let s1 := putF (bump s (plkChCnt n b (plkOutCnt o))) (plkCh n b) 7 4 o
       let differs := ok && decide (20 + beAt body 6 1 ≤ body.length) && plkCrcOk body &&
         (decide (beAt body 2 1 / 64 ≠ plkMode s n) || decide (beAt body 3 2 ≠ plkCycle s n))
       plkMod s1 n fun p => { p with badMode := p.badMode || differs }) := by
  unfold plkJudged
  dsimp only
  rw [hp, ho, if_neg (by decide), if_pos h0, if_neg fun h => h5 h.1]

/-- The first valid frame of a slot in NORMAL operation is taken. -/
theorem plkJudged_valid {d : Int} (hp : plkP s n = 4)
    (ho : plkJudge s n true (5 * lt - 2 * (if b then getF s (PLK_DELTA n) 26 16 else getF s (PLK_DELTA n) 10 0)) body = (0, k, d))
    (ht : (plk s n).taken.find? (fun t => decide (t.slot = k)) = none) : plkJudged n b true lt start body s =
      (let s1 := putF (bump s (plkChCnt n b 7)) (plkCh n b) 7 4 0
       let differs := decide (20 + beAt body 6 1 ≤ body.length) && plkCrcOk body &&
         (decide (beAt body 2 1 / 64 ≠ plkMode s n) || decide (beAt body 3 2 ≠ plkCycle s n))
       plkTake (plkMod s1 n fun p => { p with badMode := p.badMode || differs }) n k b (some d) start body) := by
  have hfree (c : Bool) : (plk (plkMod (putF (bump s (plkChCnt n b (plkOutCnt 0))) (plkCh n b) 7 4 0) n fun p =>
      { p with badMode := p.badMode || c }) n).taken.find? (fun t => decide (t.slot = k)) = none := by
    rw [plk_plkMod]
    exact ht
  unfold plkJudged
  dsimp only
  rw [hp, ho]
  dsimp only
  rw [if_neg (by decide), if_neg (by decide), hfree]
  dsimp only
  rw [if_neg fun h => absurd h.1 (by decide)]
  rfl

end

/-! Slots, the NIT and the listen timer. -/

theorem plkSlotEnd_other (hc : plkC s n = 2) (hp : 2 ≤ plkP s n) (hk : k < plkN s n (plkMode s n))
    (h0 : plkOwner s n (plkMode s n) k ≠ 0) (hi : plkOwner s n (plkMode s n) k ≠ plkId s n) : plkSlotEnd n k s =
      (let o := plkOwner s n (plkMode s n) k
       let took := (plk s n).taken.any fun t => decide (t.slot = k)
       let s1 := putB (plkAt s n (plkStart s n (plkMode s n) (k + 1)))
         (if 32 ≤ o then PLK_MEMBERS_HI n else PLK_MEMBERS_LO n) (o % 32) took
       if took then s1 else putB (bump s1 (PLK_SLOT_EMPTY n k)) (PLK_SLOT_STATUS n k) 31 false) := by
  unfold plkSlotEnd
  dsimp only
  rw [if_neg (not_or_intro (not_not_intro hc) (not_or_intro (Nat.not_lt.mpr hp) (Nat.not_le.mpr hk))),
    if_neg (not_or_intro h0 hi)]

theorem plkSlotEnd_own (hc : plkC s n = 2) (hp : 2 ≤ plkP s n) (hk : k < plkN s n (plkMode s n))
    (h : plkOwner s n (plkMode s n) k = 0 ∨ plkOwner s n (plkMode s n) k = plkId s n) :
    plkSlotEnd n k s = plkAt s n (plkStart s n (plkMode s n) (k + 1)) := by
  unfold plkSlotEnd
  dsimp only
  rw [if_neg (not_or_intro (not_not_intro hc) (not_or_intro (Nat.not_lt.mpr hp) (Nat.not_le.mpr hk))), if_pos h]

/-- The NIT of a sync node in NORMAL operation, which heard no member and was not asked for a mode. -/
theorem plkNit_corrects (hc : plkC s n = 2) (hp : plkP s n = 4) (hi : (plk s n).inNit = false)
    (hd : (plk s n).devs ≠ []) (hr : plkRequested s n = false) (hm : (plk s n).sawMember = false)
    (hs : nodeBit s (PLK_SYNC_NODES_LO n) (plkId s n) = true) : plkNit n s =
      plkMod (plkAt s n (plkE s n (plkMode s n))) n fun p => { p with
        inNit := true, kappa := plkCorrection (plk s n).devs, nextMode := (plkAgreed s n).getD (plkMode s n)
        noSync := if (plk s n).syncSeen then 0 else (plk s n).noSync + 1, missing := 0, rejoin := 0 } := by
  have hgo : ¬ (2 ≠ 2 ∨ 4 < 2 ∨ false = true) := by decide
  have h43 : ¬ 4 = 3 := by decide
  have hmiss : ¬ (4 = 4 ∧ false = true ∧ (plk s n).sawOwn = false) := fun h => Bool.false_ne_true h.2.1
  have hsync : ¬ (true = false ∧ 4 ≠ 3 ∧ 16 ≤ if (plk s n).syncSeen then 0 else (plk s n).noSync + 1) :=
    fun h => Bool.false_ne_true h.1.symm
  have hrej (c : Prop) : ¬ (4 = 5 ∧ c) := fun h => absurd h.1 (by decide)
  unfold plkNit
  dsimp only
  rw [hc, hp, hi, if_neg hgo, if_neg hd, if_neg hd, if_neg h43, hr, hm, if_neg hmiss, hs, if_neg hsync]
  rw [Bool.and_false, Bool.false_and, if_neg Bool.false_ne_true, if_neg (by decide), if_pos rfl, if_neg (by decide)]
  simp only [if_neg (hrej _)]

section
variable {d due : Nat} (ht : (plk s n).timer = some (d, some due)) (hc : plkC s n = 2) (hp : plkP s n = 1)
include ht hc hp

/-- A cold-start node whose listen timer expires leads. -/
theorem plkTimeout_leads : plkTimeout n false s =
    (let f := (plkFirst s n 0 (plkId s n)).getD 0
     let s0 := advanceHalf s due
     let s1 := plkSetP (if plkMode s n = 0 then s0 else raiseIrq s0 (PLK n) 2) n 3
     let s2 := putF (putF s1 (PLK_STATUS n) 31 16 0) (PLK_STATUS n) 9 8 0
     let act := due + 2 * plkBit s n
     let t0 := act - plkHalf s n (plkStart s n 0 f + plkAct s n 0 f)
     let s3 := plkMod s2 n fun p => { p with
       t0 := t0, inNit := false, nextMode := 0, kappa := 0, timer := none, devs := [], whole := false, syncSeen := false
       badMode := false, votes := [], sawMember := false, sawOwn := false, missing := 0, rejoin := 0, noSync := 0
       startVec := getR64 s2 (PLK_MEMBERS_LO n), taken := [], chosen := [], fired := [], gOk := true, gT0 := t0
       newMode := none }
     match plkChoose (plkChBoth s3 n 3 (decide (getF s (PLK_GUARD n 0 f) 15 0 ≠ 0))) n 0 f 0 with
     | (s4, some t) => plkTransmit s4 n act t
     | (s4, none) => s4) := by
  unfold plkTimeout
  rw [ht]
  exact if_neg (not_or_intro (not_not_intro hc) (not_not_intro hp))

theorem plkTimeout_edge : plkTimeout n true s =
    plkMod (advanceHalf s due) n fun p => { p with timer := some (d, none) } := by
  unfold plkTimeout
  rw [ht]
  exact if_neg (not_or_intro (not_not_intro hc) (not_not_intro hp))

end

/-! The echo, the guardian and the comparators. -/

section
variable {b : Bool} {x : PlTx} (hl : (plk s n).onLine = some x) (hb : plkChanOn s n b = true)
  (hx : Nat.land x.bad (if b then 2 else 1) = 0)
include hl hb hx

theorem plkEcho_jams (hp : plkP s n ≠ 3) : plkEcho n b s =
    (let s1 := emit (raiseIrq (bump s (plkChCnt n b 5)) (PLK n) 8) (.plJam n (nb b))
     let t2 := { x with bad := Nat.lor x.bad (if b then 2 else 1) }
     let s2 := plkTxen s1 n b false
     if plkGood s n t2 then plkMod s2 n fun p => { p with onLine := some t2 }
     else plkReturn (plkRelease s2 n) n t2) := by
  unfold plkEcho
  rw [hl]
  dsimp only
  rw [if_neg (not_or_intro (not_eq_false_of_true hb) (not_not_intro hx)), if_neg hp]

/-- A collision in COLDSTART ends in LISTEN. -/
theorem plkEcho_coldStart (hp : plkP s n = 3) : plkEcho n b s =
    (let s1 := [false, true].foldl (fun u c =>
       if plkChanOn u n c && !(x.bad.testBit (nb c)) then emit u (.plJam n (nb c)) else u) s
     let s2 := plkRelease (plkReturnAll (plkNote s1 n 0 7) n) n
     plkListen (plkChBoth s2 n 3 false) n (plkBackoff s n) 31) := by
  unfold plkEcho
  rw [hl]
  dsimp only
  rw [if_neg (not_or_intro (not_eq_false_of_true hb) (not_not_intro hx)), if_pos hp]

end

theorem plkOpen_opens (hc : plkC s n = 2) (hp : plkP s n = 3 ∨ plkP s n = 4) (hg : (plk s n).gOk = true)
    (hw : getF s (PLK_GUARD n (plkMode s n) k) 15 0 ≠ 0) : plkOpen n k s =
      plkChBoth (plkGuardAt s n (getF s (PLK_GUARD n (plkMode s n) k) 31 16)) n 3 true :=
  if_neg (not_or_intro (not_not_intro hc)
    (not_or_intro (by omega) (not_or_intro (not_eq_false_of_true hg) hw)))

theorem plkOpen_unsure (hg : (plk s n).gOk = false) : plkOpen n k s = s := if_pos (.inr (.inr (.inl hg)))

section
variable (hc : plkC s n = 2) (ho : getB s (plkCh n false) 3 = true ∨ getB s (plkCh n true) 3 = true)
  (hw : getF s (PLK_GUARD n (plkMode s n) k) 15 0 ≠ 0)
include hc ho hw

theorem plkClose_closes : plkClose n k s =
    (let s1 := plkChBoth (plkGuardAt s n (getF s (PLK_GUARD n (plkMode s n) k) 15 0)) n 3 false
     match (plk s n).onLine with
     | none => s1
     | some x =>
       let a := plkCut s1 n false x
       let c := plkCut a.1 n true a.2
       plkReturn (plkRelease c.1 n) n c.2) :=
  if_neg (not_or_intro (not_not_intro hc) (not_or_intro
    (fun h => ho.elim (fun e => not_eq_false_of_true e h.1) fun e => not_eq_false_of_true e h.2) hw))

theorem plkClose_idle (hl : (plk s n).onLine = none) : plkClose n k s =
    plkChBoth (plkGuardAt s n (getF s (PLK_GUARD n (plkMode s n) k) 15 0)) n 3 false := by
  rw [plkClose_closes hc ho hw, hl]

/-- A frame still running when its window closes is cut on both channels. -/
theorem plkClose_cuts {x : PlTx} (hl : (plk s n).onLine = some x) : plkClose n k s =
    (let s1 := plkChBoth (plkGuardAt s n (getF s (PLK_GUARD n (plkMode s n) k) 15 0)) n 3 false
     let a := plkCut s1 n false x
     let c := plkCut a.1 n true a.2
     plkReturn (plkRelease c.1 n) n c.2) := by
  rw [plkClose_closes hc ho hw, hl]

end

theorem plkCompare_fires {i : Nat} (hc : plkC s n = 2) (hp : 2 ≤ plkP s n) (he : bit (getR s (PLK_CMP n i)) 31 = true)
    (hm : bit (getR s (PLK_CMP n i)) 25 = true ∨ fld (getR s (PLK_CMP n i)) 23 22 = plkMode s n)
    (hk : fld (getR s (PLK_CMP n i)) 21 16 < plkN s n (plkMode s n))
    (ha : plkStart s n (plkMode s n) (fld (getR s (PLK_CMP n i)) 21 16) + fld (getR s (PLK_CMP n i)) 15 0 < plkLen s n)
    (hf : (plk s n).fired.contains i = false) : plkCompare n i s =
      (let w := getR s (PLK_CMP n i)
       let s1 := plkMod (plkAt s n (plkStart s n (plkMode s n) (fld w 21 16) + fld w 15 0)) n fun p =>
         { p with fired := i :: p.fired }
       let s2 := setR s1 (PLK_CMP_TIME n i) (lo32 (tense s1))
       let s3 := if bit w 30 then raiseIrq s2 (PLK n) (16 + i) else s2
       if bit w 29 then serveEvent s3 (320 + n) (24 + fld w 28 26) else s3) :=
  if_neg (not_or_intro (not_not_intro hc) (not_or_intro (Nat.not_lt.mpr hp) (not_or_intro (not_eq_false_of_true he)
    (not_or_intro (fun h => hm.elim (fun e => not_eq_false_of_true e h.1) h.2) (not_or_intro (Nat.not_le.mpr hk)
      (not_or_intro (Nat.not_le.mpr ha) (ne_of_eq_of_ne hf Bool.false_ne_true)))))))

end

/-- Settles O20: the events of a cycle in their order, each by the node's state. -/
theorem periodLinkCycle : Obligations.PeriodLinkCycle := by
  unfold Obligations.PeriodLinkCycle
  exact ⟨fun n g s hc hp => congrArg Host.Outcome.next (plkCycleStart_runs hc hp),
    fun n k s hc hp hi hk ho hn => congrArg Host.Outcome.next (plkFetch_thisCycle hc hp hi hk ho hn),
    fun n k s hc hp hi hk ho hn => congrArg Host.Outcome.next (plkFetch_nextCycle hc hp hi hk ho hn),
    fun n k x s hc hp hl hx hs => congrArg Host.Outcome.next (plkAction_transmits hc hp hl hx hs),
    fun n k x s hc hp hl hx hs => congrArg Host.Outcome.next (plkAction_null hc hp hl hx hs),
    fun n x s hl => congrArg Host.Outcome.next (plkEnd_onLine hl),
    fun n x s hg => if_pos hg,
    fun n b lt lt2 bits s h => congrArg Host.Outcome.next (plkReceive_deaf h),
    fun n b lt lt2 bits s hc hp hb => congrArg Host.Outcome.next (plkReceive_listens hc hp hb),
    fun n b lt lt2 bits s hc hp hb => congrArg Host.Outcome.next (plkReceive_runs hc hp hb),
    fun n b ok lt start body s o hp ho h0 h5 => plkJudged_fails hp ho h0 h5,
    fun n b lt start body s k d hp ho ht => plkJudged_valid hp ho ht,
    fun n k s hc hp hk h0 hi => congrArg Host.Outcome.next (plkSlotEnd_other hc hp hk h0 hi),
    fun n k s hc hp hk h => congrArg Host.Outcome.next (plkSlotEnd_own hc hp hk h),
    fun n s hc hp hi hd hr hm hs => congrArg Host.Outcome.next (plkNit_corrects hc hp hi hd hr hm hs),
    fun n d due s ht hc hp => congrArg Host.Outcome.next (plkTimeout_leads ht hc hp),
    fun n d due s ht hc hp => congrArg Host.Outcome.next (plkTimeout_edge ht hc hp),
    fun n b x s hl hb hx hp => congrArg Host.Outcome.next (plkEcho_jams hl hb hx hp),
    fun n b x s hl hb hx hp => congrArg Host.Outcome.next (plkEcho_coldStart hl hb hx hp),
    fun n k s hc hp hg hw => congrArg Host.Outcome.next (plkOpen_opens hc hp hg hw),
    fun n k s hg => congrArg Host.Outcome.next (plkOpen_unsure hg),
    fun n k s hc ho hw hl => congrArg Host.Outcome.next (plkClose_idle hc ho hw hl),
    fun n k x s hc ho hw hl => congrArg Host.Outcome.next (plkClose_cuts hc ho hw hl),
    fun n i s hc hp he hm hk ha hf => congrArg Host.Outcome.next (plkCompare_fires hc hp he hm hk ha hf)⟩

end Sys2Proof.Proofs
end

section
/-! The multidrop controller: its commands, and frames sent and received (R309–R328), for the family of the bus. -/

namespace Sys2Proof.Proofs

open Sys2Proof Sys2Proof.Machine Sys2Proof.Machine.Reg Sys2Proof.Laws

/-! Commands and states. -/

section
variable {n : Nat} {s : State}

theorem mdb_mdbMod {f : MdbSt → MdbSt} : mdb (mdbMod s n f) n = f (mdb s n) := sget_sset_eq _ _ _ _

theorem mdbC_mdbSetC {c : Nat} (hc : c < 8) : mdbC (mdbSetC s n c) n = c := getF_putF_of_lt (by decide) hc s _

/-- In CONFIG both pins are held, and in the other states the controller drives its output. -/
theorem mdbPins_shows {c : Nat} {level : Bool} (hc : c < 8) :
    (mdb (mdbPins (mdbSetC s n c) n level) n).txd = ⟨decide (c ≠ 0), decide (c = 0) || level⟩ ∧
      (mdb (mdbPins (mdbSetC s n c) n level) n).rxPull = decide (c = 0) := by
  have hd : (!decide (c ≠ 0)) = decide (c = 0) := by by_cases h : c = 0 <;> simp [h]
  unfold mdbPins
  dsimp only
  rw [mdb_mdbMod, mdbC_mdbSetC hc, hd]
  exact ⟨rfl, rfl⟩

section
variable (hc : mdbC s n = 0) (he : getB s (BLK_CTRL (MDB n)) 0 = true)
include hc he

theorem mdbStartCmd_starts (ht : mdbTimingOk s n = true) : mdbStartCmd n s =
    (let s1 := mdbMod (mdbPins (mdbSetC s n 1) n true) n fun p => { p with
       tec := 0, rec_ := 0, mode := getF s (MDB_CFG n) 1 0, modePend := none, integ := false }
     mdbCmdEnd (mdbErrShow s1 n) n 0) := by
  unfold mdbStartCmd
  rw [if_neg (not_or_intro (not_not_intro hc) (not_eq_false_of_true he)), ht, Bool.not_true, if_neg Bool.false_ne_true]

theorem mdbStartCmd_badTiming (ht : mdbTimingOk s n = false) : mdbStartCmd n s = mdbCmdEnd s n 2 := by
  unfold mdbStartCmd
  rw [if_neg (not_or_intro (not_not_intro hc) (not_eq_false_of_true he)), ht, Bool.not_false, if_pos rfl]

end

theorem mdbModeDone_idle {md : Nat} (hp : (mdb s n).modePend = some md) (hc : mdbC s n = 2)
    (hb : mdbOnBus s n = none) : mdbModeDone n s = mdbMod s n fun p => { p with mode := md, modePend := none } := by
  unfold mdbModeDone
  rw [hp]
  dsimp only
  rw [if_pos ⟨hc, by rw [hb]; rfl⟩]

theorem mdbWoken_doze (he : getB s (MDB_CFG n) 8 = true) (hd : devState s = 1) :
    mdbWoken n s = wakeSource 11 (raiseIrq s (MDB n) 11) := by
  unfold mdbWoken
  rw [he]
  exact if_pos (decide_eq_true hd)

theorem mdbWoken_otherState (hd : devState s ≠ 1) : mdbWoken n s = s := by
  have hn : decide (getF s PWR_STATUS 1 0 = 1) = false := decide_eq_false hd
  unfold mdbWoken
  rw [hn, Bool.and_false, if_neg Bool.false_ne_true]

end

/-- Settles O21: each command by the state of the controller, a wake pattern by the state of the device. -/
theorem multidropCommands : Obligations.MultidropCommands := by
  unfold Obligations.MultidropCommands
  exact ⟨fun m n s h hc he ht => next_write h (mdbStartCmd_starts hc he ht),
    fun m n s h hc he ht => next_write h (mdbStartCmd_badTiming hc he ht),
    fun m n s h hc => next_write h (if_pos hc),
    fun m n s h hc => next_write h (if_neg hc),
    fun n c level s hc => mdbPins_shows hc,
    fun m n s h hc => next_write h (if_pos hc),
    fun m n s h hm => next_write h (if_neg hm),
    fun n s h => next_write h (if_pos rfl),
    fun m n mask s h => next_write h rfl,
    fun n s hc => congrArg Host.Outcome.next (if_pos hc),
    fun n s hc => congrArg Host.Outcome.next (if_neg hc),
    fun n s hc => congrArg Host.Outcome.next (if_pos hc),
    fun n md s hp hc hb => congrArg Host.Outcome.next (mdbModeDone_idle hp hc hb),
    fun n s he hd => congrArg Host.Outcome.next (mdbWoken_doze he hd),
    fun n s hd => congrArg Host.Outcome.next (mdbWoken_otherState hd),
    fun m n s h => next_read h rfl⟩

/-! Loading and arbitration. -/

section
variable {n b : Nat} {s : State}

/-- The oldest sound record of the Gate entry fills buffer 0. -/
theorem mdbLoad_gate {g : GEnt} (he : getB s (BLK_CTRL (MDB n)) 0 = true) (hl : mdbLoaded s n 0 = false)
    (hg : (sget s.gate.entry (256 + n) []).find? (fun g => decide (g.loc = 0)) = some g)
    (hc : crc32c g.bytes = g.check) : mdbLoad n 0 s =
      (let s1 := gateEntrySet s (256 + n) g.tag fun e => { e with loc := 1 }
       mdbMod (mdbSetTb s1 n 0 (some (mdbBuf s1 n [] 0 0))) n fun p => { p with nextOrder := p.nextOrder + 1 }) := by
  have hlen : (sget s.gate.entry (256 + n) []).length = (sget s.gate.entry (256 + n) []).length - 1 + 1 :=
    (Nat.sub_add_cancel (List.length_pos_of_mem (List.mem_of_find?_eq_some hg))).symm
  unfold mdbLoad
  rw [if_neg (not_or_intro (not_eq_false_of_true he) (ne_of_eq_of_ne hl Bool.false_ne_true)), if_pos rfl, hlen]
  unfold mdbLoadGate
  rw [hg]
  exact if_neg (not_not_intro hc)

theorem mdbLoad_ring (he : getB s (BLK_CTRL (MDB n)) 0 = true) (hb : b ≠ 0) (hl : mdbLoaded s n b = false) :
    mdbLoad n b s = mdbLoadRing s n b (getF s (MDB_TX_SIZE n) 12 0) := by
  unfold mdbLoad
  rw [if_neg (not_or_intro (not_eq_false_of_true he) (ne_of_eq_of_ne hl Bool.false_ne_true)), if_neg hb]

theorem mdbArbitrate_starts (hc : mdbC s n = 2) (hm : (mdb s n).mode = 0 ∨ (mdb s n).mode = 3)
    (hi : (mdb s n).integ = false) (ho : mdbOnBus s n = none) (hb : [0, 1, 2].foldl (mdbBetter s n) none = some b) :
    mdbArbitrate n s =
      (let s1 := mdbSetTb s n b ((mdbTb (mdb s n) b).map fun t => { t with onBus := true, attempts := min 65535 (t.attempts + 1) })
       let s2 := if b = 0 then gateEntryLoc s1 (256 + n) 1 2 else s1
       mdbMod (mdbPins (putB s2 (MDB_STATUS n) 8 true) n (decide ((mdb s n).mode = 3))) n fun p => { p with sof := tense s }) := by
  have hgo : ¬ (mdbC s n ≠ 2 ∨ ((mdb s n).mode ≠ 0 ∧ (mdb s n).mode ≠ 3) ∨ (mdb s n).integ = true ∨
      (mdbOnBus s n).isSome = true) := by
    rw [hc, hi, ho]
    simp only [ne_eq, not_true_eq_false, false_or, Bool.false_eq_true, Option.isSome_none, or_false]
    omega
  unfold mdbArbitrate
  dsimp only
  rw [if_neg hgo, hb]

theorem mdbArbitrate_none (h : mdbC s n ≠ 2 ∨ (mdb s n).mode = 1 ∨ (mdb s n).mode = 2 ∨ (mdb s n).integ = true ∨
    (mdbOnBus s n).isSome = true ∨ [0, 1, 2].foldl (mdbBetter s n) none = none) : mdbArbitrate n s = s := by
  unfold mdbArbitrate
  dsimp only
  by_cases hgo : mdbC s n ≠ 2 ∨ ((mdb s n).mode ≠ 0 ∧ (mdb s n).mode ≠ 3) ∨ (mdb s n).integ = true ∨
      (mdbOnBus s n).isSome = true
  · rw [if_pos hgo]
  · have hb : [0, 1, 2].foldl (mdbBetter s n) none = none := by
      rcases h with h | h | h | h | h | h
      · exact absurd (.inl h) hgo
      · exact absurd (.inr (.inl (by omega))) hgo
      · exact absurd (.inr (.inl (by omega))) hgo
      · exact absurd (.inr (.inr (.inl h))) hgo
      · exact absurd (.inr (.inr (.inr h))) hgo
      · exact h
    rw [if_neg hgo, hb]

/-! Frames sent. -/

section
variable {d : List (BitVec 7)} {t : MdbBuf} (ho : mdbOnBus s n = some b) (hb : b ≠ 0) (ht : mdbTb (mdb s n) b = some t)
include ho hb ht

omit ho in
theorem mdbRec_ring : mdbRec s n b = t.rec_ := by
  unfold mdbRec
  rw [if_neg hb, ht]
  rfl

theorem mdbSent_ring (hm : (mdb s n).mode ≠ 3) : mdbSent n d s =
    (let s1 := mdbErrShow (mdbMod s n fun p => { p with tec := p.tec - 1 }) n
     let s2 := mdbLoop (mdbNote s1 n 0 0) n t.rec_ d
     let s4 := mdbPins (putB (emit s2 (.mdbFrame n t.rec_)) (MDB_STATUS n) 8 false) n true
     mdbStatus (mdbSetTb s4 n b none) n t.idx 0) := by
  unfold mdbSent
  rw [ho]
  dsimp only
  rw [decide_eq_false hm, if_neg Bool.false_ne_true, if_neg hb, mdbRec_ring hb ht, ht]
  rfl

/-- A controller in loopback receives what it sends. -/
theorem mdbSent_loop (hm : (mdb s n).mode = 3) : mdbSent n d s =
    (let s1 := mdbErrShow (mdbMod s n fun p => { p with tec := p.tec - 1 }) n
     let s2 := mdbLoop (mdbNote s1 n 0 0) n t.rec_ d
     let s3 := mdbAccept s2 n t.rec_ (mdbTime (2 * (mdb s n).sof.toNat + mdbSampleAt s n)) 2
     mdbStatus (mdbSetTb (mdbPins (putB s3 (MDB_STATUS n) 8 false) n true) n b none) n t.idx 0) := by
  unfold mdbSent
  rw [ho]
  dsimp only
  rw [decide_eq_true hm, if_pos rfl, if_neg hb, mdbRec_ring hb ht, ht]
  rfl

end

theorem ends_mdbSent_gate {n : Pe} {d : List (BitVec 7)} {g : GEnt} (ho : mdbOnBus s n.val = some 0)
    (hg : mdbGate s n.val = some g) (hm : (mdb s n.val).mode ≠ 3) :
    Ends (.mdbFrameSent n d) s fun t => ∃ u, Only [.regs, .cnts, .outs, .intc, .mdb] s u ∧
      t = itemTransmitted (mdbSetTb (gateEntryDrop u (256 + n.val) g.tag) n.val 0 none) g.tag := by
  refine ⟨_, rfl, mdbPins (putB (emit (mdbLoop (mdbNote (mdbErrShow (mdbMod s n.val fun p => { p with tec := p.tec - 1 })
    n.val) n.val 0 0) n.val (mdbRec s n.val 0) d) (.mdbFrame n.val (mdbRec s n.val 0))) (MDB_STATUS n.val) 8 false) n.val true,
    ?_, ?_⟩
  · exact (K.mdbPins (by decide) <| K.putB (by decide) <| K.emit (by decide) <|
      K.mdbLoop (by decide) (by decide) (by decide) <| K.mdbNote (by decide) (by decide) (by decide) (by decide) <|
      K.mdbErrShow (by decide) (by decide) (by decide) <| K.mdbMod (by decide) (Keeps.refl _ s)).only
  · unfold mdbSent
    rw [ho]
    dsimp only
    rw [decide_eq_false hm, if_neg Bool.false_ne_true, if_pos rfl, hg]

/-! Frames that fail. -/

section
variable {why : MdbErr} {inData exempt : Bool} {d : List (BitVec 7)} (ho : mdbOnBus s n = some b)
include ho

/-- An error on the bus counts 8, but for an exempt one. -/
theorem mdbFailed_error (h1 : why ≠ .arbLost) (h2 : why ≠ .pex) : mdbFailed n why inData exempt d s =
    (let s1 := mdbErr (mdbFlag (mdbLoop s n (mdbRec s n b) d) n) n why inData
     let tec := (mdb s n).tec + (if exempt then 0 else 8)
     let s2 := mdbErrShow (mdbMod s1 n fun p => { p with tec := tec }) n
     if 255 < tec then mdbBusOff s2 n else mdbPending (mdbOff s2 n b) n b) := by
  have hw : mdbPexOr s n why = why := if_neg fun h => h2 h.1
  have hs : decide (why = .arbLost ∨ why = .pex) = false := decide_eq_false (not_or_intro h1 h2)
  unfold mdbFailed
  rw [ho]
  dsimp only
  rw [hw, hs]
  rfl

/-- A lost arbitration and a protocol exception count nothing in `TEC`. -/
theorem mdbFailed_still (h : why = .arbLost ∨ why = .pex) (hw : mdbPexOr s n why = why) (ht : (mdb s n).tec ≤ 255) :
    mdbFailed n why inData exempt d s =
      (let s1 := mdbErr (mdbLoop s n (mdbRec s n b) d) n why inData
       mdbPending (mdbOff (mdbErrShow (mdbMod s1 n fun p => { p with tec := (mdb s n).tec }) n) n b) n b) := by
  unfold mdbFailed
  rw [ho]
  dsimp only
  rw [hw, decide_eq_true h]
  exact if_neg (Nat.not_lt.mpr ht)

end

theorem mdbLife_expires {t : MdbBuf} (hb : b ≠ 0) (ht : mdbTb (mdb s n) b = some t) (hl : t.life ≠ 0) :
    mdbLife n b s = mdbEndDue (advanceNs s (t.at_.toNat + t.life * 1000000)) n b := by
  unfold mdbLife
  rw [if_neg hb, ht]
  exact if_neg hl

end

/-! Frames received. -/

section
variable {n : Nat} {r : List Byte} {esi inData heavy : Bool} {ago : Word} {s : State}
  (hc : mdbC s n = 2) (hi : (mdb s n).integ = false) (ho : mdbOnBus s n = none)
include hc hi ho

/-- A running controller that sends nothing and does not loop listens. -/
theorem mdbReceive_open (h3 : (mdb s n).mode ≠ 3) : ¬ (mdbC s n ≠ 2 ∨ (mdb s n).mode = 3 ∨ (mdb s n).integ = true ∨
    (mdbOnBus s n).isSome = true) :=
  not_or_intro (not_not_intro hc) (not_or_intro h3 (not_or_intro (ne_of_eq_of_ne hi Bool.false_ne_true)
    (by rw [ho]; exact Bool.false_ne_true)))

/-- An FD frame meets a controller whose FD mode is off as a protocol exception. -/
theorem mdbReceive_exception {o : Option MdbErr} (h3 : (mdb s n).mode ≠ 3) (hf : mdbFdf r = true)
    (hn : getB s (MDB_CFG n) 3 = false) (hp : getB s (MDB_CFG n) 4 = true) :
    mdbReceive n r esi o inData heavy ago s = mdbErr s n .pex inData := by
  have hpex : mdbPexOr s n .pex = .pex := if_neg fun h => not_eq_false_of_true hp h.2
  unfold mdbReceive
  dsimp only
  rw [if_neg (mdbReceive_open hc hi ho h3), hf, hn, Bool.not_false, Bool.and_self, if_pos rfl, Option.map_some, hpex]

variable (hf : mdbFdf r = false ∨ getB s (MDB_CFG n) 3 = true)
include hf

omit hc hi ho in
theorem mdbFdf_admitted : ¬ (mdbFdf r && !(getB s (MDB_CFG n) 3)) = true := by
  rcases hf with h | h <;> rw [h] <;> simp

/-- A sound frame in NORMAL is acknowledged, and steps `REC` down. -/
theorem mdbReceive_normal (hm : (mdb s n).mode = 0) (hw : mdbWellFormed true r = true)
    (hr : (mdb s n).rec_ ≤ 127) : mdbReceive n r esi none inData heavy ago s =
      (let s2 := mdbErrShow (mdbMod s n fun p => { p with rec_ := (mdb s n).rec_ - 1 }) n
       mdbAccept (emit s2 (.mdbAck n)) n r (mdbTime (2 * ((coreTense s).toNat - ago.toNat))) (nb esi)) := by
  unfold mdbReceive
  dsimp only
  rw [if_neg (mdbReceive_open hc hi ho (by omega)), if_neg (mdbFdf_admitted hf), hm, hw,
    decide_eq_false (Nat.not_lt.mpr hr)]
  rfl

/-- From above 127 `REC` takes a free value of 119 to 127. -/
theorem mdbReceive_normalHigh (hm : (mdb s n).mode = 0) (hw : mdbWellFormed true r = true)
    (hr : 127 < (mdb s n).rec_) : mdbReceive n r esi none inData heavy ago s =
      (let f := fresh s
       let s2 := mdbErrShow (mdbMod f.2 n fun p => { p with rec_ := 119 + f.1.toNat % 9 }) n
       mdbAccept (emit s2 (.mdbAck n)) n r (mdbTime (2 * ((coreTense s).toNat - ago.toNat))) (nb esi)) := by
  unfold mdbReceive
  dsimp only
  rw [if_neg (mdbReceive_open hc hi ho (by omega)), if_neg (mdbFdf_admitted hf), hm, hw, decide_eq_true hr]
  rfl

/-- Outside NORMAL no counter moves, and RESTRICTED alone acknowledges. -/
theorem mdbReceive_quiet (hm : (mdb s n).mode = 1 ∨ (mdb s n).mode = 2) (hw : mdbWellFormed true r = true) :
    mdbReceive n r esi none inData heavy ago s =
      (let s3 := if (mdb s n).mode = 1 then emit s (.mdbAck n) else s
       mdbAccept s3 n r (mdbTime (2 * ((coreTense s).toNat - ago.toNat))) (nb esi)) := by
  unfold mdbReceive
  dsimp only
  rw [if_neg (mdbReceive_open hc hi ho (by omega)), if_neg (mdbFdf_admitted hf), hw]
  rcases hm with hm | hm <;> rw [hm] <;> rfl

section
variable {e : MdbErr} (h1 : e ≠ .arbLost) (h2 : e ≠ .pex)
include h1 h2

theorem mdbReceive_error (hm : (mdb s n).mode = 0) : mdbReceive n r esi (some e) inData heavy ago s =
    (let s1 := mdbErr (emit s (.mdbErrorFlag n (decide (mdbFault s n = 0)))) n e inData
     mdbErrShow (mdbMod s1 n fun p => { p with rec_ := p.rec_ + (if heavy then 8 else 1) }) n) := by
  have hp : mdbPexOr s n e = e := if_neg fun h => h2 h.1
  have hflag : mdbFlag s n = emit s (.mdbErrorFlag n (decide (mdbFault s n = 0))) := if_pos hm
  unfold mdbReceive
  dsimp only
  rw [if_neg (mdbReceive_open hc hi ho (by omega)), if_neg (mdbFdf_admitted hf), Option.map_some, hp, hflag, hm]
  cases e with
  | arbLost => exact absurd rfl h1
  | pex => exact absurd rfl h2
  | _ => rfl

theorem mdbReceive_errorQuiet (hm : (mdb s n).mode = 1 ∨ (mdb s n).mode = 2) :
    mdbReceive n r esi (some e) inData heavy ago s = mdbErr s n e inData := by
  have hp : mdbPexOr s n e = e := if_neg fun h => h2 h.1
  have hflag : mdbFlag s n = s := if_neg (by omega)
  have hn : decide ((mdb s n).mode = 0) = false := decide_eq_false (by omega)
  unfold mdbReceive
  dsimp only
  rw [if_neg (mdbReceive_open hc hi ho (by omega)), if_neg (mdbFdf_admitted hf), Option.map_some, hp, hflag, hn]
  cases e with
  | arbLost => exact absurd rfl h1
  | pex => exact absurd rfl h2
  | _ => rfl

end
end

theorem mdbDrain_head {n : Nat} {x : MdbRx} {l : List MdbRx} {s : State} (hx : (mdb s n).fifo = x :: l)
    (h0 : getF s (MDB_RX_SIZE n) 12 0 ≠ 0)
    (hr : (getF s (MDB_RX_HEAD n) 11 0 + 1) % getF s (MDB_RX_SIZE n) 12 0 ≠ getF s (MDB_RX_TAIL n) 11 0) : mdbDrain n s =
      (let hd := getF s (MDB_RX_HEAD n) 11 0
       let h := leBytes 8 x.time.toNat ++ [b8 x.filter, b8 x.flags, 0, 0]
       let slot := h ++ leBytes 4 (crc32c (h ++ x.rec_)).toNat ++ x.rec_
       let r := fabWrite s 5 ((getR s (MDB_RX_BASE n)).toNat + 128 * hd) slot true
       let s1 := putF r.1 (MDB_RX_HEAD n) 11 0 ((hd + 1) % getF s (MDB_RX_SIZE n) 12 0)
       mdbFifoShow (mdbMod s1 n fun p => { p with fifo := l }) n) := by
  unfold mdbDrain
  dsimp only
  rw [hx]
  exact if_neg (not_or_intro h0 hr)

/-- Settles O22: frames in the order of their life, each step by the buffer and the controller's mode. -/
theorem multidropFrames : Obligations.MultidropFrames := by
  unfold Obligations.MultidropFrames
  exact ⟨fun n g s he hl hg hc => congrArg Host.Outcome.next (mdbLoad_gate he hl hg hc),
    fun n b s he hb hl => congrArg Host.Outcome.next (mdbLoad_ring he hb hl),
    fun n b s h => congrArg Host.Outcome.next (if_pos h),
    fun n b s hc hm hi ho hb => congrArg Host.Outcome.next (mdbArbitrate_starts hc hm hi ho hb),
    fun n s h => congrArg Host.Outcome.next (mdbArbitrate_none h),
    fun n d b t s ho hb ht hm => congrArg Host.Outcome.next (mdbSent_ring ho hb ht hm),
    fun n d b t s ho hb ht hm => congrArg Host.Outcome.next (mdbSent_loop ho hb ht hm),
    fun n d g s ho hg hm => ends_mdbSent_gate ho hg hm,
    fun n why inData d b s ho h1 h2 ht => congrArg Host.Outcome.next
      ((mdbFailed_error ho h1 h2).trans (if_neg (Nat.not_lt.mpr ht))),
    fun n why inData d b s ho h1 h2 ht => congrArg Host.Outcome.next ((mdbFailed_error ho h1 h2).trans (if_pos ht)),
    fun n why inData d b s ho h1 h2 ht => congrArg Host.Outcome.next
      ((mdbFailed_error ho h1 h2).trans (if_neg (Nat.not_lt.mpr ht))),
    fun n inData exempt d b s ho ht => congrArg Host.Outcome.next
      (mdbFailed_still ho (.inl rfl) (if_neg fun h => absurd h.1 (by decide)) ht),
    fun n inData exempt d b s ho ht hp => congrArg Host.Outcome.next
      (mdbFailed_still ho (.inr rfl) (if_neg fun h => not_eq_false_of_true hp h.2) ht),
    fun n b t s hb ht hl => congrArg Host.Outcome.next (mdbLife_expires hb ht hl),
    fun n r esi inData heavy ago s hc hm hi ho hf hw hr => congrArg Host.Outcome.next
      (mdbReceive_normal hc hi ho hf hm hw hr),
    fun n r esi inData heavy ago s hc hm hi ho hf hw hr => congrArg Host.Outcome.next
      (mdbReceive_normalHigh hc hi ho hf hm hw hr),
    fun n r esi inData heavy ago s hc hm hi ho hf hw => congrArg Host.Outcome.next
      (mdbReceive_quiet hc hi ho hf hm hw),
    fun n r esi inData heavy e ago s hc hm hi ho hf h1 h2 => congrArg Host.Outcome.next
      (mdbReceive_error hc hi ho hf h1 h2 hm),
    fun n r esi inData heavy e ago s hc hm hi ho hf h1 h2 => congrArg Host.Outcome.next
      (mdbReceive_errorQuiet hc hi ho hf h1 h2 hm),
    fun n r esi inData heavy ago o s hc hm hi ho hf hn hp => congrArg Host.Outcome.next
      (mdbReceive_exception hc hi ho hm hf hn hp),
    fun n x l s hx h0 hr => congrArg Host.Outcome.next (mdbDrain_head hx h0 hr)⟩

end Sys2Proof.Proofs
end

section
/-! The particle engines: the pin machine's instructions and what controls an engine (R329–R346), for the family of the
engines. -/

namespace Sys2Proof.Proofs

open Sys2Proof Sys2Proof.Machine Sys2Proof.Machine.Reg Sys2Proof.Laws

/-! What an engine shows in an instruction's turn is what it showed before: only the clocks have moved. -/

section
variable {s : State} {n : Nat}

theorem ptc_ptcTurn : ptc (ptcTurn s n) n = ptc s n := by
  obtain ⟨ti, cn, sy, pw, h⟩ := turn_same s n
  rw [h]
  rfl

theorem getR_ptcTurn (a : Nat) : getR (ptcTurn s n) a = getR s a := by
  obtain ⟨ti, cn, sy, pw, h⟩ := turn_same s n
  rw [h]
  rfl

theorem getF_ptcTurn (a hi lo : Nat) : getF (ptcTurn s n) a hi lo = getF s a hi lo := congrArg (fld · hi lo) (getR_ptcTurn a)

theorem getB_ptcTurn (a i : Nat) : getB (ptcTurn s n) a i = getB s a i := congrArg (bit · i) (getR_ptcTurn a)

theorem ptcTsLim_ptcTurn : ptcTsLim (ptcTurn s n) n = ptcTsLim s n := congrArg ptcLim (getF_ptcTurn _ 29 24)

theorem ptcUsed_ptcTurn : ptcUsed (ptcTurn s n) n = ptcUsed s n := by
  unfold ptcUsed
  rw [ptcTsLim_ptcTurn, ptc_ptcTurn]

theorem ptcWords_ptcTurn : ptcWords (ptcTurn s n) n = ptcWords s n := by
  unfold ptcWords
  rw [ptc_ptcTurn]

theorem ptcPkt_ptcTurn : ptcPkt (ptcTurn s n) n = ptcPkt s n := by
  unfold ptcPkt
  rw [ptc_ptcTurn]

theorem ptcWidth_ptcTurn : ptcWidth (ptcTurn s n) n = ptcWidth s n := by
  unfold ptcWidth
  rw [getB_ptcTurn]

theorem ptcPin_ptcTurn {pads p : Nat} : ptcPin (ptcTurn s n) n pads p = ptcPin s n pads p := by
  obtain ⟨ti, cn, sy, pw, h⟩ := turn_same s n
  rw [h]
  rfl

theorem fiqFits_ptcTurn {k : Nat} : fiqFits (ptcTurn s n) n k = fiqFits s n k := by
  obtain ⟨ti, cn, sy, pw, h⟩ := turn_same s n
  rw [h]
  rfl

end

/-! The operation that an instruction's class names, and what `SET` does by its destination. -/

theorem ptcOp_of_class {s : State} {n pads c w v : Nat} {inj : Bool} :
    nbits w 15 12 = c → ptcOp s n pads (ptcFresh w inj v) = match c with
    | 0 => ptcDone s n inj false
    | 1 => ptcSet s n w inj
    | 2 => ptcMov s n pads w inj
    | 3 => ptcOutRun s n (ptcCount w) (nbits w 11 9) (ptcFresh w inj v) 40
    | 4 => ptcInRun s n (ptcCount w) (ptcFresh w inj v) 40
    | 5 => Machine.ptcPush s n (ptcFresh w inj v)
    | 6 => Machine.ptcPull s n (ptcFresh w inj v)
    | 7 => Machine.ptcWait s n pads (ptcFresh w inj v)
    | 8 => Machine.ptcAt s n (ptcFresh w inj v)
    | _ => Machine.ptcJmp s n pads w inj := by
  rintro rfl
  rfl

section
variable {s : State} {n pads w : Nat} {inj : Bool}

theorem ptcSet_of_destination {d : Nat} : nbits w 11 9 = d → ptcSet s n w inj =
    ptcDone (match d with
      | 0 => ptcDrive s n (getF s (PTC_PIN_MAP n) 14 8) (min 5 (getF s (PTC_PIN_WIDTH n) 10 8)) (nbits w 8 4) false
      | 1 => ptcMod s n fun q => { q with c0 := w32 (nbits w 8 4) }
      | 2 => ptcMod s n fun q => { q with c1 := w32 (nbits w 8 4) }
      | _ => ptcDrive s n (getF s (PTC_PIN_MAP n) 14 8) (min 5 (getF s (PTC_PIN_WIDTH n) 10 8)) (nbits w 8 4) true)
      n inj false := by
  rintro rfl
  rfl

section
variable {c : Nat} {t : State} (h1 : ptcNext s n = some (w, inj)) (h2 : ptcBad w inj = false) (h3 : nbits w 15 12 = c)
include h1 h2 h3

/-- The instruction of its class, but `IN`, comes to what its operation does in its turn, and paces the next. -/
theorem ptcStep_is (hc : c ≠ 4) (ho : ptcOp (issued (ptcTurn s n) n inj) n pads (ptcFresh w inj 0) = t) :
    ptcStep n pads c s = ptcPace t n w := by
  rw [ptcStep_go h1 h2 h3, if_neg hc, ho]

/-- One that stalls paces nothing. -/
theorem ptcStep_stalls {st : PtcStall} (hc : c ≠ 4)
    (ho : ptcOp (issued (ptcTurn s n) n inj) n pads (ptcFresh w inj 0) = ptcStallAt (issued (ptcTurn s n) n inj) n st) :
    ptcStep n pads c s = ptcStallAt (issued (ptcTurn s n) n inj) n st := by
  rw [ptcStep_is h1 h2 h3 hc ho, pace_stallAt]

end

theorem ptcStep_in (h1 : ptcNext s n = some (w, inj)) (h2 : ptcBad w inj = false) (h3 : nbits w 15 12 = 4)
    (h : getB s (PTC_SHIFTER n) 8 = false ∨ ptcWidth s n ≤ (ptc s n).rsN ∨ (ptc s n).rsN + ptcCount w < ptcWidth s n) :
    ptcStep n pads 4 s =
      (let u := ptcTurn s n
       ptcPace (ptcDone (ptcInBits (issued u n inj) n (ptcInSrc u n pads (nbits w 11 9) % 2 ^ ptcCount w) (ptcCount w)) n inj false)
         n w) := by
  rw [ptcStep_go h1 h2 h3, if_pos rfl, ptcOp_of_class h3]
  refine congrArg (ptcPace · n w) (in_plain ?_)
  rw [getB_ptcTurn, ptcWidth_ptcTurn, ptc_ptcTurn]
  exact h

/-- An illegal word sets `FAULT` and clears `RUN`. -/
theorem ptcStep_illegal (h1 : ptcNext s n = some (w, inj)) (h2 : ptcBad w inj = true) :
    ptcStep n pads 10 s = ptcFault (issued (ptcTurn s n) n inj) n := by
  have hcls : ptcClass w inj = 10 := if_pos h2
  unfold ptcStep
  rw [h1]
  dsimp only
  rw [if_pos hcls]
  exact if_pos h2

end

/-- Settles O23: each instruction by its class, then by its operands as `Laws/Ptc` gives its operation. -/
theorem particleInstructions : Obligations.ParticleInstructions := by
  unfold Obligations.ParticleInstructions
  refine ⟨fun n w inj s h1 h2 h3 => congrArg Host.Outcome.next (ptcStep_is h1 h2 h3 (by decide) (ptcOp_of_class h3)),
    fun n w inj s h1 h2 h3 h => congrArg Host.Outcome.next
      (ptcStep_is h1 h2 h3 (by decide) ((ptcOp_of_class h3).trans (ptcSet_of_destination h))),
    fun n w inj s h1 h2 h3 h => congrArg Host.Outcome.next
      (ptcStep_is h1 h2 h3 (by decide) ((ptcOp_of_class h3).trans (ptcSet_of_destination h))),
    fun n w inj s h1 h2 h3 h => congrArg Host.Outcome.next
      (ptcStep_is h1 h2 h3 (by decide) ((ptcOp_of_class h3).trans (ptcSet_of_destination h))),
    fun n w inj s h1 h2 h3 h => congrArg Host.Outcome.next
      (ptcStep_is h1 h2 h3 (by decide) ((ptcOp_of_class h3).trans (ptcSet_of_destination h))),
    fun n pads w inj s h1 h2 h3 => congrArg Host.Outcome.next (ptcStep_is h1 h2 h3 (by decide) (ptcOp_of_class h3)),
    fun n w inj s h1 h2 h3 h => congrArg Host.Outcome.next (ptcStep_is h1 h2 h3 (by decide)
      ((ptcOp_of_class h3).trans (out_plain (by rw [getB_ptcTurn, ptcTsLim_ptcTurn, ptc_ptcTurn]; exact h)))),
    fun n w inj s h1 h2 h3 h hu hw => congrArg Host.Outcome.next (ptcStep_stalls h1 h2 h3 (by decide)
      ((ptcOp_of_class h3).trans (out_empty ((getB_ptcTurn _ _).trans h) (ptcUsed_ptcTurn.trans hu) (ptcWords_ptcTurn.trans hw)))),
    fun n pads w inj s h1 h2 h3 h => congrArg Host.Outcome.next (ptcStep_in h1 h2 h3 h),
    fun n w inj s h1 h2 h3 h7 hr => congrArg Host.Outcome.next (ptcStep_is h1 h2 h3 (by decide)
      ((ptcOp_of_class h3).trans (push_skip h7 (by rw [ptc_ptcTurn, getF_ptcTurn]; exact hr)))),
    fun n w inj t s h1 h2 h3 h hd => congrArg Host.Outcome.next (ptcStep_is h1 h2 h3 (by decide)
      ((ptcOp_of_class h3).trans (push_go (by rw [ptc_ptcTurn, getF_ptcTurn]; exact h) hd))),
    fun n w inj s h1 h2 h3 h hd h8 => congrArg Host.Outcome.next (ptcStep_is h1 h2 h3 (by decide)
      ((ptcOp_of_class h3).trans (push_drop (by rw [ptc_ptcTurn, getF_ptcTurn]; exact h) hd h8))),
    fun n w inj s h1 h2 h3 h hd h8 => congrArg Host.Outcome.next (ptcStep_stalls h1 h2 h3 (by decide)
      ((ptcOp_of_class h3).trans (push_stall (by rw [ptc_ptcTurn, getF_ptcTurn]; exact h) hd h8))),
    fun n w inj s h1 h2 h3 h hu => congrArg Host.Outcome.next (ptcStep_is h1 h2 h3 (by decide)
      ((ptcOp_of_class h3).trans (pull_skip h (ptcUsed_ptcTurn.trans hu)))),
    fun n w inj t s h1 h2 h3 h hl => congrArg Host.Outcome.next (ptcStep_is h1 h2 h3 (by decide)
      ((ptcOp_of_class h3).trans (pull_go (by rw [ptcUsed_ptcTurn]; exact h) hl))),
    fun n w inj s h1 h2 h3 h hw h10 => congrArg Host.Outcome.next (ptcStep_is h1 h2 h3 (by decide)
      ((ptcOp_of_class h3).trans (pull_idle (by rw [ptcUsed_ptcTurn]; exact h) (ptcWords_ptcTurn.trans hw) h10))),
    fun n w inj s h1 h2 h3 h hw h10 => congrArg Host.Outcome.next (ptcStep_stalls h1 h2 h3 (by decide)
      ((ptcOp_of_class h3).trans (pull_stall (by rw [ptcUsed_ptcTurn]; exact h) (ptcWords_ptcTurn.trans hw) h10))),
    fun n pads w inj s h1 h2 h3 h hp => congrArg Host.Outcome.next (ptcStep_is h1 h2 h3 (by decide)
      ((ptcOp_of_class h3).trans (wait_pin h (by rw [ptcPin_ptcTurn, getF_ptcTurn]; exact hp)))),
    fun n pads w inj s h1 h2 h3 h hp => congrArg Host.Outcome.next (ptcStep_stalls h1 h2 h3 (by decide)
      ((ptcOp_of_class h3).trans (wait_pin_not h (by rw [ptcPin_ptcTurn, getF_ptcTurn]; exact hp)))),
    fun n pads w inj s h1 h2 h3 h => congrArg Host.Outcome.next (ptcStep_is h1 h2 h3 (by decide)
      ((ptcOp_of_class h3).trans ((wait_out h).trans (by rw [ptcWords_ptcTurn]; rfl)))),
    fun n pads w inj s h1 h2 h3 h => congrArg Host.Outcome.next (ptcStep_is h1 h2 h3 (by decide)
      ((ptcOp_of_class h3).trans ((wait_room h).trans (by rw [fiqFits_ptcTurn]; rfl)))),
    fun n w inj s h1 h2 h3 h => congrArg Host.Outcome.next (ptcStep_is h1 h2 h3 (by decide)
      ((ptcOp_of_class h3).trans ((at_t h).trans (by rw [ptc_ptcTurn]; rfl)))),
    fun n w inj k r s h1 h2 h3 h hk => congrArg Host.Outcome.next (ptcStep_is h1 h2 h3 (by decide)
      ((ptcOp_of_class h3).trans (at_pkt h (by rw [ptc_ptcTurn]; exact hk)))),
    fun n w inj s h1 h2 h3 h hk => congrArg Host.Outcome.next (ptcStep_stalls h1 h2 h3 (by decide)
      ((ptcOp_of_class h3).trans (at_none h (by rw [ptc_ptcTurn]; exact hk)))),
    fun n w inj s h1 h2 h3 h => congrArg Host.Outcome.next (ptcStep_is h1 h2 h3 (by decide)
      ((ptcOp_of_class h3).trans ((at_now h).trans (by rw [ptc_ptcTurn]; rfl)))),
    fun n pads w inj s h1 h2 h3 h => congrArg Host.Outcome.next (ptcStep_is h1 h2 h3 (by decide)
      ((ptcOp_of_class h3).trans (jmp_0 h))),
    fun n pads w inj s h1 h2 h3 h => congrArg Host.Outcome.next (ptcStep_is h1 h2 h3 (by decide)
      ((ptcOp_of_class h3).trans ((jmp_3 h).trans (by rw [ptc_ptcTurn]; rfl)))),
    fun n pads w inj s h1 h2 h3 h => congrArg Host.Outcome.next (ptcStep_is h1 h2 h3 (by decide)
      ((ptcOp_of_class h3).trans ((jmp_4 h).trans (by rw [ptcPin_ptcTurn, getF_ptcTurn]; rfl)))),
    fun n pads w inj s h1 h2 h3 h => congrArg Host.Outcome.next (ptcStep_is h1 h2 h3 (by decide)
      ((ptcOp_of_class h3).trans ((jmp_5 h).trans (by rw [ptcPin_ptcTurn, getF_ptcTurn]; rfl)))),
    fun n pads w inj s h1 h2 h3 h => congrArg Host.Outcome.next (ptcStep_is h1 h2 h3 (by decide)
      ((ptcOp_of_class h3).trans ((jmp_6 h).trans (by rw [ptcUsed_ptcTurn]; rfl)))),
    fun n pads w inj s h1 h2 h3 h => congrArg Host.Outcome.next (ptcStep_is h1 h2 h3 (by decide)
      ((ptcOp_of_class h3).trans ((jmp_7 h).trans (by rw [ptcPkt_ptcTurn]; rfl)))),
    fun n pads w inj s h1 h2 h3 h => congrArg Host.Outcome.next (ptcStep_is h1 h2 h3 (by decide)
      ((ptcOp_of_class h3).trans ((jmp_1 h).trans (by rw [ptc_ptcTurn]; rfl)))),
    fun n pads w inj s h1 h2 h3 h => congrArg Host.Outcome.next (ptcStep_is h1 h2 h3 (by decide)
      ((ptcOp_of_class h3).trans ((jmp_2 h).trans (by rw [ptc_ptcTurn]; rfl)))),
    fun n w inj s h1 h2 => congrArg Host.Outcome.next (ptcStep_illegal h1 h2)⟩

/-! Stalls, `AT` and the feeder. -/

section
variable {n pads : Nat} {s : State}

theorem ptcRetry_stalled {st : PtcStall} (hs : (ptc s n).stall = some st) (hr : ptcRuns s n = true) :
    ptcRetry n pads s = ptcExec (ptcMod s n fun q => { q with stall := none }) n pads st := by
  unfold ptcRetry
  rw [hs]
  dsimp only
  rw [hr, Bool.true_or, if_pos rfl]

theorem ptcRetry_none (hs : (ptc s n).stall = none) : ptcRetry n pads s = s := by
  unfold ptcRetry
  rw [hs]

theorem ptcAtFire_fires {step late inj : Bool} {w : Nat} (ha : (ptc s n).armed = some (step, late))
    (hr : ptcRuns s n = true) (hx : ptcNext (ptcFired s n step late) n = some (w, inj)) :
    ptcAtFire n pads s = ptcIssue (ptcFired s n step late) n pads w inj := by
  unfold ptcAtFire
  dsimp only
  rw [ha]
  dsimp only
  rw [if_neg (not_eq_false_of_true hr)]
  change (match ptcNext (ptcFired s n step late) n with
    | some (w, inj) => ptcIssue (ptcFired s n step late) n pads w inj
    | none => ptcFired s n step late) = _
  rw [hx]

theorem ptcAtFire_idle (h : (ptc s n).armed = none ∨ ptcRuns s n = false) : ptcAtFire n pads s = s := by
  unfold ptcAtFire
  dsimp only
  cases ha : (ptc s n).armed with
  | none => rfl
  | some x => exact if_pos (h.resolve_left (by rw [ha]; exact Option.some_ne_none x))

section
variable {g : GEnt} {r : List GEnt} (he : ptcEn s n = true) (hg : sget s.gate.entry (384 + n) [] = g :: r)
  (hw : ptcWaits s n g.bytes = false)
include he hg hw

/-- The feeder takes the oldest Gate record that it need not wait for, and judges its check value. -/
theorem ptcFeed_takes : ptcFeed n s =
    (let s1 := gateEntryDrop s (384 + n) g.tag
     if crc32c g.bytes ≠ g.check then itemEndExit (ptcNote s1 n 4 4) g.tag 0x12
     else ptcEnter s1 n (some g.tag) 0 g.bytes) := by
  have htb : (pktTb g.bytes && !(tbValid s (getF s (PTC_TIME_CFG n) 1 0))) = false := (Bool.or_eq_false_iff.mp hw).1
  unfold ptcFeed
  rw [he, Bool.not_true, if_neg Bool.false_ne_true, hg]
  dsimp only
  rw [htb, if_neg Bool.false_ne_true, hw, if_neg Bool.false_ne_true]

end

theorem ptcFeed_off (he : ptcEn s n = false) : ptcFeed n s = s := if_pos (by rw [he]; rfl)

theorem ptcFeed_empty (hg : sget s.gate.entry (384 + n) [] = [])
    (ht : getF s (PTC_TX_TAIL n) 11 0 = getF s (PTC_TX_HEAD n) 11 0) : ptcFeed n s = s := by
  unfold ptcFeed
  by_cases he : (!ptcEn s n) = true
  · exact if_pos he
  · rw [if_neg he, hg]
    exact if_pos (.inr ht)

end

/-! The registers that control an engine. -/

section
variable {m : Master} {n off : Nat} {changed : Bool} {f : State → State} {s : State}

theorem ptcGuarded_lets (h : m = mSSP ∨ getB s (PTC_GUARDED n) 0 = false) : ptcGuarded m n off changed f s = f s :=
  if_pos (lets_of h)

theorem ptcGuarded_denies (h1 : m ≠ mSSP) (h2 : getB s (PTC_GUARDED n) 0 = true) :
    ptcGuarded m n off true f s = deny s errDeniedField m (PTC n + off) true :=
  if_neg (by rw [lets_not h1 h2]; exact Bool.false_ne_true)

end

section
variable {m : Master} {n : Nat} {v : Word} {s : State} (h : m = mSSP ∨ getB s (PTC_GUARDED n) 0 = false)
include h

theorem ptcPlain_lets {off : Nat} : ptcPlain m n off v s =
    setR s (PTC n + off) (plainValue (regDesc .PTC n off) 0 (getR s (PTC n + off)) v) := by
  unfold ptcPlain
  dsimp only
  rw [ptcGuarded_lets h]

theorem ptcCtrl_abort (hv : bit v 29 = false) : ptcCtrl m n (setBit v 30 true) s =
    ptcFirst n (ptcAbortNow n (setR s (PTC_CTRL n)
      (plainValue (regDesc .PTC n 0x040) 0 (getR s (PTC_CTRL n)) (setBit v 30 true)))) := by
  have h30 : bit (setBit v 30 true) 30 = true := bit_setBit_same (by decide)
  have h29 : bit (setBit v 30 true) 29 = false := (bit_setBit_ne (by decide) (by decide)).trans hv
  unfold ptcCtrl
  dsimp only
  rw [ptcGuarded_lets h, h30, h29, if_pos rfl, if_neg Bool.false_ne_true]

theorem ptcCtrl_restart (hv : bit v 30 = false) : ptcCtrl m n (setBit v 29 true) s =
    ptcFirst n (ptcRestartNow n (setR s (PTC_CTRL n)
      (plainValue (regDesc .PTC n 0x040) 0 (getR s (PTC_CTRL n)) (setBit v 29 true)))) := by
  have h29 : bit (setBit v 29 true) 29 = true := bit_setBit_same (by decide)
  have h30 : bit (setBit v 29 true) 30 = false := (bit_setBit_ne (by decide) (by decide)).trans hv
  unfold ptcCtrl
  dsimp only
  rw [ptcGuarded_lets h, h30, h29, if_pos rfl, if_neg Bool.false_ne_true]

theorem ptcCtrl_run : ptcCtrl m n (setFld v 30 29 0) s =
    ptcFirst n (setR s (PTC_CTRL n) (plainValue (regDesc .PTC n 0x040) 0 (getR s (PTC_CTRL n)) (setFld v 30 29 0))) := by
  have hclear {i : Nat} (hi : 29 ≤ i ∧ i ≤ 30) : bit (setFld v 30 29 0) i = false := by
    unfold bit
    rw [testBit_setFld v (by decide), if_pos hi, Nat.zero_testBit]
  unfold ptcCtrl
  dsimp only
  rw [ptcGuarded_lets h, hclear (by decide), hclear (by decide), if_neg Bool.false_ne_true, if_neg Bool.false_ne_true]

end

theorem ptcPlain_denied {m : Master} {n off : Nat} {v : Word} {s : State} (h1 : m ≠ mSSP)
    (h2 : getB s (PTC_GUARDED n) 0 = true) (hd : differ (getR s (PTC n + off)) v (regDesc .PTC n off).rw = true) :
    ptcPlain m n off v s = deny s errDeniedField m (PTC n + off) true := by
  unfold ptcPlain
  dsimp only
  rw [hd, ptcGuarded_denies h1 h2]

/-- `ABORT` and `RESTART` count as a change whatever the rest of the word is. -/
theorem ptcCtrl_denied {m : Master} {n : Nat} {v : Word} {s : State} (h1 : m ≠ mSSP)
    (h2 : getB s (PTC_GUARDED n) 0 = true) (hv : bit v 30 = true ∨ bit v 29 = true) :
    ptcCtrl m n v s = deny s errDeniedField m (PTC n + 0x040) true := by
  have hch : (bit v 30 || bit v 29) = true := Bool.or_eq_true_iff.mpr hv
  unfold ptcCtrl
  dsimp only
  rw [hch, Bool.true_or, ptcGuarded_denies h1 h2]

theorem ptcOwn_running {m : Master} {n k : Nat} {v : Word} {s : State}
    (h : m = mSSP ∨ getB s (PTC_GUARDED n) 0 = false) (hr : getB s (PTC_CTRL n) 0 = true)
    (hv : getR s (PTC_OWN n k) ≠ v) : ptcOwn m n k v s = recErr s (PTC n) errLocked m (PTC_OWN n k) true := by
  unfold ptcOwn
  dsimp only
  rw [ptcGuarded_lets h, if_pos hr, if_neg hv]

/-- Settles O24: an engine's events by its state, its registers by who may change them. -/
theorem particleControl : Obligations.ParticleControl := by
  unfold Obligations.ParticleControl
  exact ⟨fun n pads st s hs hr => congrArg Host.Outcome.next (ptcRetry_stalled hs hr),
    fun n pads s hs => congrArg Host.Outcome.next (ptcRetry_none hs),
    fun n pads step late inj w s ha hr hx => congrArg Host.Outcome.next (ptcAtFire_fires ha hr hx),
    fun n pads s h => congrArg Host.Outcome.next (ptcAtFire_idle h),
    fun n g r s he hg hw hc => congrArg Host.Outcome.next ((ptcFeed_takes he hg hw).trans (if_neg (not_not_intro hc))),
    fun n g r s he hg hw hc => congrArg Host.Outcome.next ((ptcFeed_takes he hg hw).trans (if_pos hc)),
    fun n s he => congrArg Host.Outcome.next (ptcFeed_off he),
    fun n s hg ht => congrArg Host.Outcome.next (ptcFeed_empty hg ht),
    fun m n i v s h hl => next_write h (ptcPlain_lets hl),
    fun m n i v s h h1 h2 hd => next_write h (ptcPlain_denied h1 h2 hd),
    fun m n v s h hl => next_write h (ptcGuarded_lets hl),
    fun m n v s h h1 h2 => next_write h (ptcGuarded_denies h1 h2),
    fun m n v s h hl hv => next_write h (ptcCtrl_abort hl hv),
    fun m n v s h hl _ hv => ⟨_, next_write h (ptcCtrl_abort hl hv), abortNow_clears⟩,
    fun m n v s h hl hv => next_write h (ptcCtrl_restart hl hv),
    fun m n v s h h1 h2 => ⟨next_write h (ptcCtrl_denied h1 h2 (.inr (bit_setBit_same (by decide)))),
      next_write h (ptcCtrl_denied h1 h2 (.inl (bit_setBit_same (by decide))))⟩,
    fun m n v s h hl => next_write h (ptcCtrl_run hl),
    fun m n k v s h hl hr hf => ⟨_, next_write h rfl, own_free (lets_of hl) hr hf⟩,
    fun m n k v s h hl hr hv => next_write h (ptcOwn_running hl hr hv)⟩

end Sys2Proof.Proofs
end

section
/-! The protocol engines: their DMA, local registers, checkpoints and takeover, and the placement controller (R347–R376),
for the family of the engines. -/

namespace Sys2Proof.Proofs

open Sys2Proof Sys2Proof.Machine Sys2Proof.Machine.Reg Sys2Proof.Laws

/-! DMA commands. -/

section
variable {n : Nat} {c : DmaCmd} {s : State}

section
variable {e : SinkEnt} {f : Frame} (hd : dmaHead s n = some (e, f))
include hd

theorem dmaRecv_tooLong (hl : fld c.w0 15 0 < (headBytes s f ++ delivered s (engPort n) f).length) :
    dmaRecv s n c = dmaEnd s n c 3 := by
  unfold dmaRecv
  rw [hd]
  exact if_pos hl

variable (hl : (headBytes s f ++ delivered s (engPort n) f).length ≤ fld c.w0 15 0)
include hl

/-- A frame that may leave goes to D-TCM where it fits there. -/
theorem dmaRecv_delivers (hf : exitFault f e.rf = none) : dmaRecv s n c =
    (let bytes := headBytes s f ++ delivered s (engPort n) f
     if inDtcm c.w1.toNat bytes.length then dmaEnd (tcmWrite (sinkDrop s e) n c.w1.toNat bytes) n c 0
     else dmaEnd s n c 4) := by
  unfold dmaRecv
  rw [hd]
  dsimp only
  rw [if_neg (Nat.not_lt.mpr hl), hf]

theorem dmaRecv_drops {q : Nat} (hf : exitFault f e.rf = some q) : dmaRecv s n c =
    (let s1 := { s with sw := { s.sw with sink := s.sw.sink.erase e } }
     dmaEnd (exitDrop s1 (engPort n) f.tc e.fid f q) n c (if q = dropPoison then 5 else 1)) := by
  unfold dmaRecv
  rw [hd]
  dsimp only
  rw [if_neg (Nat.not_lt.mpr hl), hf]

end

section
variable (h0 : fld c.w0 27 24 = 0)
include h0

theorem dmaRead_plain (hq : (fabRead s (engMaster n) c.w2.toNat (fld c.w0 15 0)
    (dmaReach s n c.w2.toNat (fld c.w0 15 0) false)).2.1 = .ok) : dmaRead s n c =
      (let r := fabRead s (engMaster n) c.w2.toNat (fld c.w0 15 0) (dmaReach s n c.w2.toNat (fld c.w0 15 0) false)
       dmaEnd (tcmWrite r.1 n c.w1.toNat r.2.2) n c 0) := by
  unfold dmaRead
  dsimp only
  rw [if_pos h0, hq]

theorem dmaRead_plainFails {q : FabStat} (hq : (fabRead s (engMaster n) c.w2.toNat (fld c.w0 15 0)
    (dmaReach s n c.w2.toNat (fld c.w0 15 0) false)).2.1 = q) (hn : q ≠ .ok) : dmaRead s n c =
      dmaEnd (fabRead s (engMaster n) c.w2.toNat (fld c.w0 15 0) (dmaReach s n c.w2.toNat (fld c.w0 15 0) false)).1 n c
        (dmaStat q) := by
  unfold dmaRead
  dsimp only
  rw [if_pos h0, hq]
  cases q with
  | ok => exact absurd rfl hn
  | _ => rfl

end

theorem dmaRead_noRing (h0 : fld c.w0 27 24 ≠ 0) (hc : ringChan s n c.w2.toNat = none) :
    dmaRead s n c = dmaEnd s n c 2 := by
  unfold dmaRead
  dsimp only
  rw [if_neg h0, hc]

/-- A record of a ring is judged by its check value. -/
theorem dmaRead_record {ch : Nat} {x y : State} {q : FabStat} {u v : List Byte} (h0 : fld c.w0 27 24 ≠ 0)
    (hc : ringChan s n c.w2.toNat = some ch) (hx : fabRead s (engMaster n) c.w2.toNat 24 true = (x, q, u))
    (hy : fabRead x (engMaster n) c.w2.toNat (recordLen ch u) (dmaReach s n c.w2.toNat (recordLen ch u) false) = (y, .ok, v)) :
    dmaRead s n c =
      if (crc32c (v.take 12 ++ v.drop 16)).toNat ≠ leAt v 12 4 then
        dmaEnd (if chanKind ch = 1 then mdbNote y (ch - 256) 12 8 else plkNote y (ch - 320) 8 11) n c 1
      else if inDtcm c.w1.toNat (recordLen ch u) then dmaEnd (tcmWrite y n c.w1.toNat v) n c 0
      else dmaEnd y n c 4 := by
  unfold dmaRead
  dsimp only
  rw [if_neg h0, hc]
  dsimp only
  rw [hx]
  dsimp only
  rw [hy]

theorem dmaWrite_plain (h0 : fld c.w0 27 24 = 0) : dmaWrite s n c =
    (let r := fabWrite s (engMaster n) c.w2.toNat (tcmBytes s n c.w1.toNat (fld c.w0 15 0))
       (dmaReach s n c.w2.toNat (fld c.w0 15 0) true)
     ckptStep (dmaEnd r.1 n c (dmaStat r.2)) n) := by
  unfold dmaWrite
  dsimp only
  rw [if_pos h0]

/-- `FMT` 1 stamps the check value of the record. -/
theorem dmaWrite_stamped (h0 : fld c.w0 27 24 ≠ 0) : dmaWrite s n c =
    (let r := fabWrite s (engMaster n) c.w2.toNat (let b := tcmBytes s n c.w1.toNat (fld c.w0 15 0)
       overlay b 8 (leBytes 4 (crc32c (b.take 8 ++ b.drop 16)).toNat ++ [0, 0, 0, 0]))
       (dmaReach s n c.w2.toNat (fld c.w0 15 0) true)
     ckptStep (dmaEnd r.1 n c (dmaStat r.2)) n) := by
  unfold dmaWrite
  dsimp only
  rw [if_neg h0]

theorem dmaCplRead_none (h : (eng s n).dmaCpl = []) : dmaCplRead n s = (s, 0) := by
  unfold dmaCplRead
  rw [h]

theorem dmaCplRead_oldest {g k : Nat} {r : List (Nat × Nat)} (h : (eng s n).dmaCpl = (g, k) :: r) : dmaCplRead n s =
    (dmaSettle (engMod s n fun e => { e with dmaCpl := r }) n 9, w32 (0x80000000 + g * 65536 + k)) := by
  unfold dmaCplRead
  rw [h]

end

/-- Settles O25: the head command by what the queue lets it do (`Laws/Eng`), then by its own parts. -/
theorem engineDma : Obligations.EngineDma := by
  unfold Obligations.EngineDma
  refine ⟨fun n c r s h1 h2 h3 h4 h5 hd => congrArg Host.Outcome.next ((dmaRun_recv h1 h2 h3 h4 h5).trans ?_),
    fun n c r e f s h1 h2 h3 h4 h5 hd hl => congrArg Host.Outcome.next
      ((dmaRun_recv h1 h2 h3 h4 h5).trans (dmaRecv_tooLong hd hl)),
    fun n c r e f s h1 h2 h3 h4 h5 hd hl hf ht => congrArg Host.Outcome.next
      ((dmaRun_recv h1 h2 h3 h4 h5).trans ((dmaRecv_delivers hd hl hf).trans (if_pos ht))),
    fun n c r e f s h1 h2 h3 h4 h5 hd hl hf ht => congrArg Host.Outcome.next ((dmaRun_recv h1 h2 h3 h4 h5).trans
      ((dmaRecv_delivers hd hl hf).trans (if_neg (ne_of_eq_of_ne ht Bool.false_ne_true)))),
    fun n c r e f q s h1 h2 h3 h4 h5 hd hl hf => congrArg Host.Outcome.next
      ((dmaRun_recv h1 h2 h3 h4 h5).trans (dmaRecv_drops hd hl hf)),
    fun n c r s h1 h2 h3 h4 h5 => congrArg Host.Outcome.next (dmaRun_send h1 h2 h3 h4 h5),
    fun n c r s h1 h2 h3 h4 h5 h0 hq => congrArg Host.Outcome.next
      ((dmaRun_read h1 h2 h3 h4 h5).trans (dmaRead_plain h0 hq)),
    fun n c r q s h1 h2 h3 h4 h5 h0 hq hn => congrArg Host.Outcome.next
      ((dmaRun_read h1 h2 h3 h4 h5).trans (dmaRead_plainFails h0 hq hn)),
    fun n c r s h1 h2 h3 h4 h5 h0 hc => congrArg Host.Outcome.next
      ((dmaRun_read h1 h2 h3 h4 h5).trans (dmaRead_noRing h0 hc)),
    fun n c r ch x y q u v s h1 h2 h3 h4 h5 h0 hc hx hy hv ht => congrArg Host.Outcome.next
      ((dmaRun_read h1 h2 h3 h4 h5).trans ((dmaRead_record h0 hc hx hy).trans
        ((if_neg (not_not_intro hv)).trans (if_pos ht)))),
    fun n c r ch x y q u v s h1 h2 h3 h4 h5 h0 hc hx hy hv => congrArg Host.Outcome.next
      ((dmaRun_read h1 h2 h3 h4 h5).trans ((dmaRead_record h0 hc hx hy).trans (if_pos hv))),
    fun n c r s h1 h2 h3 h4 h5 h0 => congrArg Host.Outcome.next
      ((dmaRun_write h1 h2 h3 h4 h5).trans (dmaWrite_plain h0)),
    fun n c r s h1 h2 h3 h4 h5 h0 => congrArg Host.Outcome.next
      ((dmaRun_write h1 h2 h3 h4 h5).trans (dmaWrite_stamped h0)),
    fun n s h => congrArg Host.Outcome.next (dmaRun_idle h),
    fun n s h => congrArg Host.Outcome.next (dmaRun_idle h),
    fun n s h => congrArg Host.Outcome.next (dmaRun_idle h),
    fun n s h => congrArg Host.Outcome.next (dmaRun_idle h),
    fun n s h => congrArg locAnswer (dmaCplRead_none h),
    fun n g k r s h => congrArg locAnswer (dmaCplRead_oldest h)⟩
  unfold dmaRecv
  rw [hd]

/-! Local registers. -/

section
variable {n : Nat} {s : State}

section
variable {k : Nat} {v : Word} {r : ChanRing}

theorem qhTxHead_ring (hq : (qhSlot s n k).st ≠ 0) (hr : txRing (qhSlot s n k).chan = some r) :
    qhTxHead s n k v = putF s r.head 11 0 (fld v 11 0) := by
  unfold qhTxHead
  dsimp only
  rw [if_neg hq, hr]

theorem qhTxHead_none (h : (qhSlot s n k).st = 0 ∨ txRing (qhSlot s n k).chan = none) : qhTxHead s n k v = s := by
  have hn : (if (qhSlot s n k).st = 0 then none else txRing (qhSlot s n k).chan) = none := by
    rcases h with h | h
    · exact if_pos h
    · rw [h, ite_self]
  unfold qhTxHead
  dsimp only
  rw [hn]

theorem qhRxTail_ring (hq : (qhSlot s n k).st ≠ 0) (hr : rxRing (qhSlot s n k).chan = some r) :
    qhRxTail s n k v = putF s r.tail 11 0 (fld v 11 0) := by
  unfold qhRxTail
  dsimp only
  rw [if_neg hq, hr]

theorem qhRxTail_none (h : (qhSlot s n k).st = 0 ∨ rxRing (qhSlot s n k).chan = none) : qhRxTail s n k v = s := by
  have hn : (if (qhSlot s n k).st = 0 then none else rxRing (qhSlot s n k).chan) = none := by
    rcases h with h | h
    · exact if_pos h
    · rw [h, ite_self]
  unfold qhRxTail
  dsimp only
  rw [hn]

end

theorem jobNext_class0 {j : Job} (hj : (eng s n).jobs.find? (fun j => !j.cls2) = some j) : jobNext n s =
    (engMod s n fun e => { e with jobs := e.jobs.erase j, taken := e.taken ++ [j] }, w32 j.addr) := by
  unfold jobNext
  dsimp only
  rw [hj]

/-- Without a class-0 job the oldest is taken where the engine admits it. -/
theorem jobNext_admitted {j : Job} {r : List Job} (hn : (eng s n).jobs.find? (fun j => !j.cls2) = none)
    (hj : (eng s n).jobs = j :: r) (ha : admits s n = true) : jobNext n s =
      (engMod s n fun e => { e with jobs := e.jobs.erase j, taken := e.taken ++ [j] }, w32 j.addr) := by
  unfold jobNext
  dsimp only
  rw [hn]
  dsimp only
  rw [if_pos ha, hj]
  rfl

theorem jobNext_none (hn : (eng s n).jobs.find? (fun j => !j.cls2) = none)
    (h : (eng s n).jobs = [] ∨ admits s n = false) : jobNext n s = (s, 0) := by
  have hnone : (if admits s n then (eng s n).jobs.head? else none) = none := by
    rcases h with h | h
    · rw [h, List.head?_nil, ite_self]
    · rw [h, if_neg Bool.false_ne_true]
  unfold jobNext
  dsimp only
  rw [hn]
  dsimp only
  rw [hnone]

theorem jobEnd_taken {v : Word} {j : Job} (hj : (eng s n).taken.find? (fun j => decide (j.tag = v.toNat)) = some j)
    (hc : getF s (engKey n 0xF1408) 7 0 = 0 ∨ 0x80 ≤ getF s (engKey n 0xF1408) 7 0) : jobEnd s n v =
      (let code := getF s (engKey n 0xF1408) 7 0
       jobRecord (engMod s n fun e => { e with taken := e.taken.erase j }) n j.tag (if code = 0 then 0 else 1) code) := by
  unfold jobEnd
  dsimp only
  rw [hj]
  exact if_neg (by omega)

theorem jobEnd_none {v : Word} (hj : (eng s n).taken.find? (fun j => decide (j.tag = v.toNat)) = none) :
    jobEnd s n v = s := by
  unfold jobEnd
  dsimp only
  rw [hj]

theorem jobRecordRetry_written {l : List Byte} {r : List (List Byte)} {t : State} (hl : s.plc.jcr = l :: r)
    (hp : jcrPut s l = some t) : jobRecordRetry s = { t with plc := { t.plc with jcr := r } } := by
  unfold jobRecordRetry
  rw [hl]
  dsimp only
  rw [hp]

theorem jobRecordRetry_waits (h : ∀ l ∈ s.plc.jcr.head?, jcrPut s l = none) : jobRecordRetry s = s := by
  unfold jobRecordRetry
  cases hl : s.plc.jcr with
  | nil => rfl
  | cons l r =>
    dsimp only
    rw [h l (by rw [hl]; rfl)]

theorem timerFire_armed {t : Nat} {d : DWord} (hd : (if t = 0 then (eng s n).tmr0 else (eng s n).tmr1) = some d) :
    timerFire s n t = raiseEvent (engMod (advanceCore s 4 d.toNat) n fun e =>
      if t = 0 then { e with tmr0 := none } else { e with tmr1 := none }) n (14 + t) := by
  unfold timerFire
  rw [hd]

theorem timerFire_idle {t : Nat} (hd : (if t = 0 then (eng s n).tmr0 else (eng s n).tmr1) = none) :
    timerFire s n t = s := by
  unfold timerFire
  rw [hd]

theorem engWdtExpiry_expires {p : Nat} (hp : physOf s n = some p) (he : getB s (PEN_WDT_CTRL p) 31 = true)
    (ha : engAlive s n = true) : engWdtExpiry s n =
      declareDead (raiseIrq (putB (advanceNs s (wdtDue s n p)) (PEN_WDT_STATUS p) 31 true) (PEN p) 0) n 1 := by
  unfold engWdtExpiry
  rw [hp]
  exact if_neg (not_or_intro (not_eq_false_of_true he) (not_eq_false_of_true ha))

theorem engWdtExpiry_idle {p : Nat} (hp : physOf s n = some p)
    (h : getB s (PEN_WDT_CTRL p) 31 = false ∨ engAlive s n = false) : engWdtExpiry s n = s := by
  unfold engWdtExpiry
  rw [hp]
  exact if_pos h

end

/-- Settles O26: each local register by what it holds and by what waits. -/
theorem engineLocalRegisters : Obligations.EngineLocalRegisters := by
  unfold Obligations.EngineLocalRegisters
  exact ⟨fun n k v r s hq hr => congrArg Host.Outcome.next (qhTxHead_ring hq hr),
    fun n k v s h => congrArg Host.Outcome.next (qhTxHead_none h),
    fun n k v r s hq hr => congrArg Host.Outcome.next (qhRxTail_ring hq hr),
    fun n k v s h => congrArg Host.Outcome.next (qhRxTail_none h),
    fun n j s hj => congrArg locAnswer (jobNext_class0 hj),
    fun n j r s hn hj ha => congrArg locAnswer (jobNext_admitted hn hj ha),
    fun n s hn h => congrArg locAnswer (jobNext_none hn h),
    fun n v j s hj hc => congrArg Host.Outcome.next (jobEnd_taken hj hc),
    fun n v s hj => congrArg Host.Outcome.next (jobEnd_none hj),
    fun l r t s hl hp => congrArg Host.Outcome.next (jobRecordRetry_written hl hp),
    fun s h => congrArg Host.Outcome.next (jobRecordRetry_waits h),
    fun n sz v s => rfl,
    fun m s h8 h56 => if_pos ⟨h8, h56⟩,
    fun m s h hm => (if_neg hm).trans (next_read h rfl),
    fun n t v s => rfl,
    fun n t d s hd => congrArg Host.Outcome.next (timerFire_armed hd),
    fun n t s hd => congrArg Host.Outcome.next (timerFire_idle hd),
    fun n v s => rfl,
    fun n p s hp he ha => congrArg Host.Outcome.next (engWdtExpiry_expires hp he ha),
    fun n p s hp h => congrArg Host.Outcome.next (engWdtExpiry_idle hp h)⟩

/-! Checkpoints and migration. -/

section
variable {n : Nat} {v : Word} {s : State}

theorem ckptCommit_now (ha : engAlive s n = true)
    (hq : (eng s n).dmaQ.filter (fun c => decide (fld c.w0 31 28 = 4)) = []) : ckptCommit s n v = ckptAccept s n v := by
  unfold ckptCommit
  dsimp only
  rw [ha, Bool.not_true, if_neg Bool.false_ne_true, hq]
  rfl

/-- The commit waits for the WRITEs queued before it. -/
theorem ckptCommit_waits (ha : engAlive s n = true)
    (hq : (eng s n).dmaQ.filter (fun c => decide (fld c.w0 31 28 = 4)) ≠ []) : ckptCommit s n v =
      engMod s n fun e =>
        { e with ckptWait := some (v, ((eng s n).dmaQ.filter fun c => decide (fld c.w0 31 28 = 4)).length) } := by
  have hl : ((eng s n).dmaQ.filter fun c => decide (fld c.w0 31 28 = 4)).length ≠ 0 :=
    fun h => hq (List.length_eq_zero_iff.mp h)
  unfold ckptCommit
  dsimp only
  rw [ha, Bool.not_true, if_neg Bool.false_ne_true, if_neg hl]

theorem ckptAccept_fits {p : Nat} (hp : physOf s n = some p) (hl : fld v 14 0 ≤ 16384) : ckptAccept s n v =
    setR s (PEN_CKPT p)
      (w32 (0x80000000 + nb (bit v 31) * 0x40000000 + fld v 14 0 * 0x8000 + (getF s (PEN_CKPT p) 14 0 + 1) % 0x8000)) := by
  unfold ckptAccept
  rw [hp]
  exact if_neg (Nat.not_lt.mpr hl)

variable {k : Nat} {g : Mig}

theorem migReady_handsOver (hq : (qhSlot s n k).st = 2) (hg : migOf s (qhSlot s n k).chan = some g) (hs : g.src = n)
    (hw : g.switched = true) : migReady s n k = handOver s g := by
  unfold migReady
  dsimp only
  rw [if_neg (not_not_intro hq), hg]
  exact if_pos ⟨hs, hw⟩

theorem migReady_other (hq : (qhSlot s n k).st ≠ 2) : migReady s n k = s := if_pos hq

theorem migDone_serves (hq : (qhSlot s n k).st = 3) (hr : (qhSlot s n k).ready = true)
    (hg : migOf s (qhSlot s n k).chan = some g) : migDone s n k =
      (let s1 := qhSet s n k { st := 1, ready := false, chan := (qhSlot s n k).chan, mig := 0 }
       let s3 := bump { s1 with plc := { s1.plc with migs := s1.plc.migs.erase g } } PLC_MIG_COUNT
       let s4 := if 50000 < (s.time.tense - g.at_).toNat then bump s3 PLC_MIG_LATE else s3
       raiseIrq (raiseEvent s4 n k) PLC 1) := by
  unfold migDone
  dsimp only
  rw [if_neg (not_or_intro (not_not_intro hq) (not_eq_false_of_true hr)), hg]

theorem migDone_other (h : (qhSlot s n k).st ≠ 3 ∨ (qhSlot s n k).ready = false) : migDone s n k = s := if_pos h

end

section
variable {c : Nat} {g : Mig} {s : State}

theorem migSwitch_switches {j : Nat} (hg : migOf s c = some g) (hw : g.switched = false) (hq : chanQuiet s c = true)
    (hs : supplyHold s = false) (ht : ¬ migWaitEnd s g < tenseNs s)
    (hj : (List.range 8).find? (fun j => decide ((qhSlot s g.dst j).st = 0)) = some j) : migSwitch s c =
      (let k := freeMigSlot s
       let g2 := { g with dstSlot := j, mslot := k, switched := true, at_ := s.time.tense }
       let s1 := { s with plc := { s.plc with
         migs := s.plc.migs.map fun x => if x = g then g2 else x, serve := sset s.plc.serve c g.dst } }
       let s2 := qhSet s1 g.src g.srcSlot { st := 2, ready := false, chan := c, mig := k }
       let s3 := qhSet s2 g.dst j { st := 3, ready := false, chan := c, mig := k }
       slotChanged (slotChanged s3 g.src g.srcSlot) g.dst j) := by
  unfold migSwitch
  rw [hg]
  dsimp only
  rw [if_neg (not_or_intro (ne_of_eq_of_ne hw Bool.false_ne_true) (not_or_intro (not_eq_false_of_true hq)
    (not_or_intro (ne_of_eq_of_ne hs Bool.false_ne_true) ht))), hj]

theorem migSwitch_stays (hg : migOf s c = some g) (h : g.switched = true ∨ chanQuiet s c = false ∨ supplyHold s = true ∨
    migWaitEnd s g < tenseNs s) : migSwitch s c = s := by
  unfold migSwitch
  rw [hg]
  exact if_pos h

theorem migAbandon_waiting (hg : migOf s c = some g) (hw : g.switched = false) : migAbandon s c =
    (let s1 := if supplyHold s then s else advanceNs s (migWaitEnd s g)
     raiseIrq (bump { s1 with plc := { s1.plc with migs := s1.plc.migs.erase g } } PLC_MIG_ABANDONED) PLC 2) := by
  unfold migAbandon
  rw [hg]
  exact if_neg (ne_of_eq_of_ne hw Bool.false_ne_true)

theorem migAbandon_switched (hg : migOf s c = some g) (hw : g.switched = true) : migAbandon s c = s := by
  unfold migAbandon
  rw [hg]
  exact if_pos hw

/-- A channel that does not migrate neither switches nor abandons anything. -/
theorem migSwitch_none (hg : migOf s c = none) : migSwitch s c = s := by
  unfold migSwitch
  rw [hg]

theorem migAbandon_none (hg : migOf s c = none) : migAbandon s c = s := by
  unfold migAbandon
  rw [hg]

end

/-! Death and takeover. -/

section
variable {n p : Nat} {s : State}

section
variable (hp : physOf s n = some p) (hs : (eng s n).st = 2) (hf : (eng s n).fenced = false)
include hp hs hf

/-- A dead engine is fenced once, and a spare that is free takes its place. -/
theorem engFence_spare {q : Nat} (hq : freeSpareEngine (fenced s n p) = some q) : engFence s n =
    healthEngine (setR (setR (fenced s n p) (PEN_MAP q)
      (setFld (setFld (setBit (getR (fenced s n p) (PEN_MAP q)) 31 true) 21 16 n) 11 8 (n / 3)))
      (PEN_CKPT q) (getR s (PEN_CKPT p))) p q := by
  unfold fenced at hq ⊢
  unfold engFence
  dsimp only at hq ⊢
  rw [hp]
  dsimp only
  rw [if_neg (not_or_intro (not_not_intro hs) (ne_of_eq_of_ne hf Bool.false_ne_true)), hq]

theorem engFence_noSpare (hq : freeSpareEngine (fenced s n p) = none) : engFence s n = engLost (fenced s n p) n := by
  unfold fenced at hq ⊢
  unfold engFence
  dsimp only at hq ⊢
  rw [hp]
  dsimp only
  rw [if_neg (not_or_intro (not_not_intro hs) (ne_of_eq_of_ne hf Bool.false_ne_true)), hq]

end

theorem engFence_other (h : (eng s n).st ≠ 2 ∨ (eng s n).fenced = true) : engFence s n = s := by
  unfold engFence
  cases physOf s n with
  | none => rfl
  | some p => exact if_pos h

section
variable (hp : physOf s n = some p) (hs : (eng s n).st = 2) (hf : (eng s n).fenced = true) (hh : supplyHold s = false)
include hp hs hf hh

/-- A takeover starts the personality at `RESTORE`, with the checkpoint's length. -/
theorem takeoverComplete_loads {x : Pers} (hx : ((eng s n).pers.bind fun k => sfind s.plc.pers k) = some x) :
    takeoverComplete s n =
      (let ck := getR s (PEN_CKPT p)
       let s1 := engMod (loadTcm s n x) n fun e =>
         { EngSt.init with st := 1, pers := e.pers, slots := e.slots, jobs := e.jobs }
       let s2 := releaseEngine s1 n x.restore (if bit ck 31 then fld ck 29 15 else 0)
       raiseIrq (raiseIrq (raiseIrq (putB s2 SYS_HEALTH 2 true) (PEN p) 4) PLC 4) SYS 5) := by
  unfold takeoverComplete
  rw [hp, hx]
  exact if_neg (not_or_intro (not_not_intro hs) (not_or_intro (not_eq_false_of_true hf)
    (ne_of_eq_of_ne hh Bool.false_ne_true)))

theorem takeoverComplete_idle (hx : ((eng s n).pers.bind fun k => sfind s.plc.pers k) = none) :
    takeoverComplete s n =
      (let s1 := engMod s n fun e => { EngSt.init with slots := e.slots, jobs := e.jobs }
       raiseIrq (raiseIrq (raiseIrq (putB s1 SYS_HEALTH 2 true) (PEN p) 4) PLC 4) SYS 5) := by
  unfold takeoverComplete
  rw [hp, hx]
  exact if_neg (not_or_intro (not_not_intro hs) (not_or_intro (not_eq_false_of_true hf)
    (ne_of_eq_of_ne hh Bool.false_ne_true)))

end

theorem takeoverComplete_other (h : physOf s n = none ∨ (eng s n).st ≠ 2 ∨ (eng s n).fenced = false ∨
    supplyHold s = true) : takeoverComplete s n = s := by
  unfold takeoverComplete
  cases hp : physOf s n with
  | none => rfl
  | some p =>
    have hno := h.resolve_left (by rw [hp]; exact Option.some_ne_none p)
    cases (eng s n).pers.bind fun k => sfind s.plc.pers k with
    | none => exact if_pos hno
    | some x => exact if_pos hno

end

/-- Settles O27: a commit by the WRITEs queued, a migration by its state, an engine by its fence. -/
theorem migrationAndTakeover : Obligations.MigrationAndTakeover := by
  unfold Obligations.MigrationAndTakeover
  exact ⟨fun n v s ha hq => congrArg Host.Outcome.next (ckptCommit_now ha hq),
    fun n v s ha hq => congrArg Host.Outcome.next (ckptCommit_waits ha hq),
    fun n v p s ha hq hp hl => congrArg Host.Outcome.next ((ckptCommit_now ha hq).trans (ckptAccept_fits hp hl)),
    fun n k len g s hq hg hs hw => congrArg Host.Outcome.next (congrArg (setR · _ _) (migReady_handsOver hq hg hs hw)),
    fun n k len s hq => congrArg Host.Outcome.next (congrArg (setR · _ _) (migReady_other hq)),
    fun n k g s hq hr hg => congrArg Host.Outcome.next (migDone_serves hq hr hg),
    fun n k s h => congrArg Host.Outcome.next (migDone_other h),
    fun c g j s hg hw hq hs ht hj => congrArg Host.Outcome.next (migSwitch_switches hg hw hq hs ht hj),
    fun c g s hg h => congrArg Host.Outcome.next (migSwitch_stays hg h),
    fun c g s hg hw => congrArg Host.Outcome.next (migAbandon_waiting hg hw),
    fun c g s hg hw => congrArg Host.Outcome.next (migAbandon_switched hg hw),
    fun c s hg => ⟨congrArg Host.Outcome.next (migSwitch_none hg), congrArg Host.Outcome.next (migAbandon_none hg)⟩,
    fun n p q s hp hs hf hq => congrArg Host.Outcome.next (engFence_spare hp hs hf hq),
    fun n p s hp hs hf hq => congrArg Host.Outcome.next (engFence_noSpare hp hs hf hq),
    fun n s h => congrArg Host.Outcome.next (engFence_other h),
    fun n s => rfl,
    fun n p x s hp hx hs hf hh => congrArg Host.Outcome.next (takeoverComplete_loads hp hs hf hh hx),
    fun n p s hp hx hs hf hh => congrArg Host.Outcome.next (takeoverComplete_idle hp hs hf hh hx),
    fun n s h => congrArg Host.Outcome.next (takeoverComplete_other h)⟩

/-! The placement controller. -/

section
variable {k : Nat} {ok : Bool} {s u : State} {b : List Byte}

theorem plcLoadPers_unread
    (h : (fabRead s mSSP (getR s PLC_CMD_ADDR).toNat (getR s PLC_CMD_LEN).toNat true).2.1 ≠ .ok) :
    plcLoadPers k ok s =
      plcEnd (fabRead s mSSP (getR s PLC_CMD_ADDR).toNat (getR s PLC_CMD_LEN).toNat true).1 2 := by
  unfold plcLoadPers
  dsimp only
  cases hq : (fabRead s mSSP (getR s PLC_CMD_ADDR).toNat (getR s PLC_CMD_LEN).toNat true).2.1 with
  | ok => exact absurd hq h
  | _ => rfl

/-- An image that was read is judged, and stored where every check passes. -/
theorem plcLoadPers_read (h : fabRead s mSSP (getR s PLC_CMD_ADDR).toNat (getR s PLC_CMD_LEN).toNat true = (u, .ok, b)) :
    plcLoadPers k ok s =
      plcEnd (if persCheck u b k ok = 0 then persStore u k b else u) (persCheck u b k ok) := by
  unfold plcLoadPers
  rw [h]

theorem plcLoadPers_refused (h : fabRead s mSSP (getR s PLC_CMD_ADDR).toNat (getR s PLC_CMD_LEN).toNat true = (u, .ok, b))
    (hc : persCheck u b k ok ≠ 0) : plcLoadPers k ok s = plcEnd u (persCheck u b k ok) := by
  rw [plcLoadPers_read h, if_neg hc]

theorem plcLoadPers_stores (h : fabRead s mSSP (getR s PLC_CMD_ADDR).toNat (getR s PLC_CMD_LEN).toNat true = (u, .ok, b))
    (hc : persCheck u b k ok = 0) : plcLoadPers k ok s =
      plcEnd { u with plc := { u.plc with pers := sset u.plc.pers k (persOf b) } } 0 := by
  rw [plcLoadPers_read h, if_pos hc, hc]
  rfl

end

section
variable {m : Master} {n : Nat} {c2 : Bool} {s : State}

theorem plcDeclareDead_denied (h1 : m ≠ mSSP) (h2 : m ≠ mMGP) :
    plcDeclareDead m n s = deny s errDeniedField m PLC_CMD true := if_pos ⟨h1, h2⟩

theorem plcDeclareDead_admitted (h : m = mSSP ∨ m = mMGP) : plcDeclareDead m n s =
    if 48 ≤ n then plcEnd s 2 else plcEnd (Machine.declareDead s n 3) 0 :=
  if_neg fun hn => h.elim hn.1 hn.2

theorem plcPostJob_badArgument (h : 48 ≤ n ∨ (getR s PLC_CMD_ADDR).toNat % 32 ≠ 0 ∨
    inShared (getR s PLC_CMD_ADDR).toNat 32 = false ∨ bankKind s (bankOf (getR s PLC_CMD_ADDR).toNat) ≠ kRings) :
    plcPostJob n c2 s = plcEnd s 2 := if_pos h

section
variable (h : ¬(48 ≤ n ∨ (getR s PLC_CMD_ADDR).toNat % 32 ≠ 0 ∨ inShared (getR s PLC_CMD_ADDR).toNat 32 = false ∨
  bankKind s (bankOf (getR s PLC_CMD_ADDR).toNat) ≠ kRings))
include h

theorem plcPostJob_noRoom (hs : (eng s n).st = 3 ∨ 16 ≤ (eng s n).jobs.length) :
    plcPostJob n c2 s = plcEnd s (if (eng s n).st = 3 then 0xA else 9) := by
  unfold plcPostJob
  dsimp only
  rw [if_neg h]
  by_cases h3 : (eng s n).st = 3
  · rw [if_pos h3, if_pos h3]
  · rw [if_neg h3, if_neg h3, if_pos (hs.resolve_left h3)]

theorem plcPostJob_posts (h3 : (eng s n).st ≠ 3) (hl : (eng s n).jobs.length < 16) : plcPostJob n c2 s =
    (let a := (getR s PLC_CMD_ADDR).toNat
     let tag := 0x30000000 + s.plc.jobSeq
     let s1 := wrLE s a 4 tag
     let j : Job := { tag := tag, cls2 := c2, addr := a, chan := rdLE s (a + 4) 2 % 512 }
     let s2 := { s1 with plc := { s1.plc with jobSeq := if s.plc.jobSeq = 0x0FFFFFFF then 1 else s.plc.jobSeq + 1 } }
     plcEnd (engMod (setR s2 PLC_CMD_TAG (w32 tag)) n fun e => { e with jobs := e.jobs ++ [j] }) 0) := by
  unfold plcPostJob
  dsimp only
  rw [if_neg h, if_neg h3, if_neg (Nat.not_le.mpr hl)]

end

theorem jobArgument_sound (hn : n < 48) (ha : (getR s PLC_CMD_ADDR).toNat % 32 = 0)
    (hi : inShared (getR s PLC_CMD_ADDR).toNat 32 = true)
    (hk : bankKind s (bankOf (getR s PLC_CMD_ADDR).toNat) = kRings) :
    ¬(48 ≤ n ∨ (getR s PLC_CMD_ADDR).toNat % 32 ≠ 0 ∨ inShared (getR s PLC_CMD_ADDR).toNat 32 = false ∨
      bankKind s (bankOf (getR s PLC_CMD_ADDR).toNat) ≠ kRings) :=
  not_or_intro (Nat.not_le.mpr hn) (not_or_intro (not_not_intro ha) (not_or_intro (not_eq_false_of_true hi)
    (not_not_intro hk)))

theorem bindWrite_unassigned {c : Nat} {v : Word} (h : chanAssigned c = false) :
    bindWrite m c v s = raiseIrq (bump s PLC_BIND_REJECTED) PLC 7 := if_neg (ne_of_eq_of_ne h Bool.false_ne_true)

end

/-- Settles O28: each command of the placement controller by the first check it fails, and a binding by its channel. -/
theorem placementCommands : Obligations.PlacementCommands := by
  unfold Obligations.PlacementCommands
  exact ⟨fun m k ok s h hf => next_write h (plcLoadPers_unread hf),
    fun m k ok s u b h hf hc => next_write h (plcLoadPers_refused hf hc),
    fun m k ok s u b h hf hc => next_write h (plcLoadPers_stores hf hc),
    fun m k s h hn => next_write h (if_neg (ne_of_eq_of_ne hn Bool.false_ne_true)),
    fun m k s h hn => next_write h (if_pos hn),
    fun m s h hf => next_write h (congrArg (plcEnd · 0) (if_neg (ne_of_eq_of_ne hf Bool.false_ne_true))),
    fun m s h hf => next_write h (congrArg (plcEnd · 0) (if_pos hf)),
    fun s => rfl,
    fun m n s h h1 h2 => next_write h (plcDeclareDead_denied h1 h2),
    fun m n s h hm hn => next_write h ((plcDeclareDead_admitted hm).trans (if_neg (Nat.not_le.mpr hn))),
    fun m n s h hm hn => next_write h ((plcDeclareDead_admitted hm).trans (if_pos hn)),
    fun m n c2 s h hn ha hi hk h3 hl => next_write h (plcPostJob_posts (jobArgument_sound hn ha hi hk) h3 hl),
    fun m n c2 s h ha => next_write h (plcPostJob_badArgument ha),
    fun m n c2 s h ha hs => next_write h (plcPostJob_noRoom ha hs),
    fun m c v s h hc => next_write h (bindWrite_unassigned hc),
    fun m c v s h hc => next_write h (if_pos hc)⟩

end Sys2Proof.Proofs
end

section
/-! The cores: what each instruction leaves where it issues, and what it leaves where it raises something. -/

namespace Sys2Proof.Proofs

open Sys2Proof Sys2Proof.Machine Sys2Proof.Machine.Reg Sys2Proof.Laws

/-! An instruction's result, by the shape of the instruction. -/

section
variable {s t : State} {c : Nat} {o : HOp} {w a : Word} {x : CoreSt} {f : Word → Word → Word}

theorem loads_dtcm (h : Issues s c o w x t) (hc : c < 48) (ha : memAddr o x w = a)
    (hd : inDtcm a.toNat (memSize o) = true) :
    issueL o c s = coreSet (busyCycle o t c) c (retire (flies (baseFlies o w x) 3 (fRd w)
      (loadExt o (w32 (leNat (tcmBytes (busyCycle o t c) c a.toNat (memSize o))))))) := by
  subst ha
  refine (issue_go h).trans ?_
  dsimp only
  rw [if_neg (ne_of_eq_of_ne (not_priv hc) Bool.false_ne_true), if_pos hd]

theorem loads_peripheral (h : Issues s c o w x t) (hc : c < 48) (ha : memAddr o x w = a)
    (hd : inDtcm a.toNat (memSize o) = false) :
    issueL o c s = coreSet (periphLoad c a.toNat (busyCycle o t c)).1 c (retire (flies (baseFlies o w x) 3 (fRd w)
      (loadExt o (periphLoad c a.toNat (busyCycle o t c)).2))) := by
  subst ha
  refine (issue_go h).trans ?_
  dsimp only
  rw [if_neg (ne_of_eq_of_ne (not_priv hc) Bool.false_ne_true), if_neg (ne_of_eq_of_ne hd Bool.false_ne_true)]

theorem loads_own {k : Nat} (h : Issues s c o w x t) (hc : 48 ≤ c) (ha : memAddr o x w = a)
    (hk : nearKey c a.toNat (memSize o) = some k) :
    issueL o c s = coreSet t c (retire (flies (baseFlies o w x) 3 (fRd w)
      (loadExt o (w32 (leNat (memBytes t k (memSize o))))))) := by
  subst ha
  refine (issue_go h).trans ?_
  dsimp only
  rw [if_pos (is_priv hc), hk, busy_priv hc]

theorem loads_far (h : Issues s c o w x t) (hc : 48 ≤ c) (ha : memAddr o x w = a)
    (hk : nearKey c a.toNat (memSize o) = none) :
    issueL o c s = coreSet t c { x with run := .far, far := some { addr := a, word := w } } := by
  subst ha
  refine (issue_go h).trans ?_
  dsimp only
  rw [if_pos (is_priv hc), hk, busy_priv hc]

theorem stores_dtcm (h : Issues s c o w x t) (hc : c < 48) (ha : memAddr o x w = a)
    (hd : inDtcm a.toNat (memSize o) = true) :
    issueS o c s = tcmWrite (coreSet (busyCycle o t c) c (retire (baseFlies o w x))) c a.toNat
      (leBytes (memSize o) (greg x (fRd w)).toNat) := by
  subst ha
  refine (issue_go h).trans ?_
  dsimp only
  rw [if_neg (ne_of_eq_of_ne (not_priv hc) Bool.false_ne_true), if_pos hd]

theorem stores_peripheral (h : Issues s c o w x t) (hc : c < 48) (ha : memAddr o x w = a)
    (hd : inDtcm a.toNat (memSize o) = false) :
    issueS o c s = periphStore c a.toNat (greg x (fRd w)) (coreSet (busyCycle o t c) c (retire (baseFlies o w x))) := by
  subst ha
  refine (issue_go h).trans ?_
  dsimp only
  rw [if_neg (ne_of_eq_of_ne (not_priv hc) Bool.false_ne_true), if_neg (ne_of_eq_of_ne hd Bool.false_ne_true)]

theorem stores_own {k : Nat} (h : Issues s c o w x t) (hc : 48 ≤ c) (ha : memAddr o x w = a)
    (hk : nearKey c a.toNat (memSize o) = some k) :
    issueS o c s = { coreSet t c (retire (baseFlies o w x)) with
      mem := memPut t.mem k (leBytes (memSize o) (greg x (fRd w)).toNat) } := by
  subst ha
  refine (issue_go h).trans ?_
  dsimp only
  rw [if_pos (is_priv hc), hk, busy_priv hc]
  rfl

theorem stores_far (h : Issues s c o w x t) (hc : 48 ≤ c) (ha : memAddr o x w = a)
    (hk : nearKey c a.toNat (memSize o) = none) :
    issueS o c s = farStore c a (leBytes (memSize o) (greg x (fRd w)).toNat) (coreSet t c (retire (baseFlies o w x))) := by
  subst ha
  refine (issue_go h).trans ?_
  dsimp only
  rw [if_pos (is_priv hc), hk, busy_priv hc]

theorem branches {g : Word → Word → Bool} (h : Issues s c o w x t) (hg : g (greg x (fRd w)) (greg x (fRs1 w)) = true) :
    issueB o c g s = coreSet (busyCycle o t c) c (transfer x (x.pc + (fImm w <<< 2))) := by
  refine (issue_go h).trans ?_
  dsimp only
  rw [if_pos hg]

theorem branches_not {g : Word → Word → Bool} (h : Issues s c o w x t)
    (hg : g (greg x (fRd w)) (greg x (fRs1 w)) = false) :
    issueB o c g s = coreSet (busyCycle o t c) c (transfer x (x.pc + 8)) := by
  refine (issue_go h).trans ?_
  dsimp only
  rw [if_neg (ne_of_eq_of_ne hg Bool.false_ne_true)]

end

/-- Settles O29. -/
theorem coreIntegerInstructions : Obligations.CoreIntegerInstructions := by
  unfold Obligations.CoreIntegerInstructions
  exact ⟨fun _ _ _ _ _ h => congrArg Host.Outcome.next (issueR_gives h rfl),
    fun _ _ _ _ _ h => congrArg Host.Outcome.next (issueR_gives h rfl),
    fun _ _ _ _ _ h => congrArg Host.Outcome.next (issueR_gives h rfl),
    fun _ _ _ _ _ h => congrArg Host.Outcome.next (issueR_gives h rfl),
    fun _ _ _ _ _ h => congrArg Host.Outcome.next (issueR_gives h rfl),
    fun _ _ _ _ _ h => congrArg Host.Outcome.next (issueR_gives h rfl),
    fun _ _ _ _ _ h => congrArg Host.Outcome.next (issueR_gives h rfl),
    fun _ _ _ _ _ h => congrArg Host.Outcome.next (issueR_gives h rfl),
    fun _ _ _ _ _ h => congrArg Host.Outcome.next (issueR_gives h rfl),
    fun _ _ _ _ _ h => congrArg Host.Outcome.next (issueR_gives h rfl),
    fun _ _ _ _ _ h => congrArg Host.Outcome.next (issueR_gives h rfl),
    fun _ _ _ _ _ h => congrArg Host.Outcome.next (issueR_gives h rfl),
    fun _ _ _ _ _ h => congrArg Host.Outcome.next (issueR_gives h rfl),
    fun _ _ _ _ _ h => congrArg Host.Outcome.next (issueR_gives h rfl),
    fun _ _ _ _ _ h => congrArg Host.Outcome.next (issueR_gives h rfl),
    fun _ _ _ _ _ h => congrArg Host.Outcome.next (issueI_gives h rfl),
    fun _ _ _ _ _ h => congrArg Host.Outcome.next (issueI_gives h rfl),
    fun _ _ _ _ _ h => congrArg Host.Outcome.next (issueI_gives h rfl),
    fun _ _ _ _ _ h => congrArg Host.Outcome.next (issueI_gives h rfl),
    fun _ _ _ _ _ h => congrArg Host.Outcome.next (issueI_gives h rfl),
    fun _ _ _ _ _ h => congrArg Host.Outcome.next (issueI_gives h rfl),
    fun _ _ _ _ _ h => congrArg Host.Outcome.next (issueI_gives h rfl),
    fun _ _ _ _ _ h => congrArg Host.Outcome.next (issueI_gives h rfl),
    fun _ _ _ _ _ h => congrArg Host.Outcome.next (issueI_gives h rfl),
    fun _ _ _ _ _ h => congrArg Host.Outcome.next (issueI_gives h rfl)⟩

/-- Settles O30. -/
theorem coreMultiplyAndDivide : Obligations.CoreMultiplyAndDivide := by
  unfold Obligations.CoreMultiplyAndDivide
  exact ⟨fun _ _ _ _ _ h => congrArg Host.Outcome.next (issue_go h),
    fun _ _ _ _ _ h => congrArg Host.Outcome.next (issue_go h),
    fun _ _ _ _ _ h => congrArg Host.Outcome.next (issue_go h),
    fun _ _ _ _ _ h => congrArg Host.Outcome.next (issue_go h),
    fun _ _ _ _ _ h => congrArg Host.Outcome.next (issue_go h),
    fun _ _ _ _ _ h => congrArg Host.Outcome.next (issue_go h),
    fun _ _ _ _ _ h => congrArg Host.Outcome.next (issue_go h)⟩

/-! The data of a load from the fabric. -/

section
variable {s : State} {c : Nat} {f : FarLoad}

theorem farData_lands {v : Word} (hf : (coreOf s c).far = some f) (hr : (coreOf s c).run = .far) (hu : coreUp s c = true)
    (hv : (busLoad (coreMaster c) f.addr.toNat (memSize ((opOf f.word).getD .lw)) s).resp = .ok v) :
    farData c s =
      (let o := (opOf f.word).getD .lw
       let t := busLoad (coreMaster c) f.addr.toNat (memSize o) s
       let u := fresh { t with resp := s.resp }
       let cyc := (coreOf s c).cyc + 1 + u.1.toNat % 65536
       let r : Landing := { at_ := cyc, dest := fRd f.word, val := loadExt o v, divide := false, dz := false }
       let z := baseFlies o f.word { coreOf s c with run := .run, far := none }
       coreSet u.2 c { retire { z with land := landPut z.land r } with cyc := cyc }) := by
  unfold farData
  dsimp only
  rw [hf]
  dsimp only
  rw [if_neg (not_or_intro (not_not_intro hr) (not_eq_false_of_true hu)), hv]

theorem farData_busErr (hf : (coreOf s c).far = some f) (hr : (coreOf s c).run = .far) (hu : coreUp s c = true)
    (hv : (busLoad (coreMaster c) f.addr.toNat (memSize ((opOf f.word).getD .lw)) s).resp = .busErr) :
    farData c s = coreSet { busLoad (coreMaster c) f.addr.toNat (memSize ((opOf f.word).getD .lw)) s with resp := s.resp } c
      (takeException c { coreOf s c with run := .run, far := none } (exLoad, f.addr)) := by
  unfold farData
  dsimp only
  rw [hf]
  dsimp only
  rw [if_neg (not_or_intro (not_not_intro hr) (not_eq_false_of_true hu)), hv]

theorem farData_nothing (h : (coreOf s c).far = none ∨ (coreOf s c).run ≠ .far ∨ coreUp s c = false) :
    farData c s = s := by
  unfold farData
  dsimp only
  split
  · rfl
  case h_2 hf =>
    exact if_pos (h.resolve_left (by rw [hf]; exact Option.some_ne_none _))

end

/-- Settles O31. -/
theorem coreLoads : Obligations.CoreLoads := by
  unfold Obligations.CoreLoads
  exact ⟨fun _ _ _ _ _ h hc hd => congrArg Host.Outcome.next (loads_dtcm h hc rfl hd),
    fun _ _ _ _ _ h hc hd => congrArg Host.Outcome.next (loads_peripheral h hc rfl hd),
    fun _ _ _ _ _ _ h hc hk => congrArg Host.Outcome.next (loads_own h hc rfl hk),
    fun _ _ _ _ _ h hc hk => congrArg Host.Outcome.next (loads_far h hc rfl hk),
    fun _ _ _ _ _ h hc hd => congrArg Host.Outcome.next (loads_dtcm h hc rfl hd),
    fun _ _ _ _ _ _ h hc hk => congrArg Host.Outcome.next (loads_own h hc rfl hk),
    fun _ _ _ _ _ h hc hk => congrArg Host.Outcome.next (loads_far h hc rfl hk),
    fun _ _ _ _ _ h hc hd => congrArg Host.Outcome.next (loads_dtcm h hc rfl hd),
    fun _ _ _ _ _ _ h hc hk => congrArg Host.Outcome.next (loads_own h hc rfl hk),
    fun _ _ _ _ _ h hc hk => congrArg Host.Outcome.next (loads_far h hc rfl hk),
    fun _ _ _ _ _ h hc hd => congrArg Host.Outcome.next (loads_dtcm h hc rfl hd),
    fun _ _ _ _ _ _ h hc hk => congrArg Host.Outcome.next (loads_own h hc rfl hk),
    fun _ _ _ _ _ h hc hk => congrArg Host.Outcome.next (loads_far h hc rfl hk),
    fun _ _ _ _ _ h hc hd => congrArg Host.Outcome.next (loads_dtcm h hc rfl hd),
    fun _ _ _ _ _ _ h hc hk => congrArg Host.Outcome.next (loads_own h hc rfl hk),
    fun _ _ _ _ _ h hc hk => congrArg Host.Outcome.next (loads_far h hc rfl hk),
    fun _ _ _ _ _ h hc hd => congrArg Host.Outcome.next (loads_dtcm h hc rfl hd),
    fun _ _ _ _ _ h hc hd => congrArg Host.Outcome.next (loads_peripheral h hc rfl hd),
    fun _ _ _ _ _ _ h hc hk => congrArg Host.Outcome.next (loads_own h hc rfl hk),
    fun _ _ _ _ _ h hc hk => congrArg Host.Outcome.next (loads_far h hc rfl hk),
    fun _ _ _ _ hf hr hu hv => congrArg Host.Outcome.next (farData_lands hf hr hu hv),
    fun _ _ _ hf hr hu hv => congrArg Host.Outcome.next (farData_busErr hf hr hu hv),
    fun _ _ h => congrArg Host.Outcome.next (farData_nothing h)⟩

/-- Settles O32. -/
theorem coreStores : Obligations.CoreStores := by
  unfold Obligations.CoreStores
  exact ⟨fun _ _ _ _ _ h hc hd => congrArg Host.Outcome.next (stores_dtcm h hc rfl hd),
    fun _ _ _ _ _ h hc hd => congrArg Host.Outcome.next (stores_peripheral h hc rfl hd),
    fun _ _ _ _ _ _ h hc hk => congrArg Host.Outcome.next (stores_own h hc rfl hk),
    fun _ _ _ _ _ h hc hk => congrArg Host.Outcome.next (stores_far h hc rfl hk),
    fun _ _ _ _ _ h hc hd => congrArg Host.Outcome.next (stores_dtcm h hc rfl hd),
    fun _ _ _ _ _ _ h hc hk => congrArg Host.Outcome.next (stores_own h hc rfl hk),
    fun _ _ _ _ _ h hc hk => congrArg Host.Outcome.next (stores_far h hc rfl hk),
    fun _ _ _ _ _ h hc hd => congrArg Host.Outcome.next (stores_dtcm h hc rfl hd),
    fun _ _ _ _ _ _ h hc hk => congrArg Host.Outcome.next (stores_own h hc rfl hk),
    fun _ _ _ _ _ h hc hk => congrArg Host.Outcome.next (stores_far h hc rfl hk),
    fun _ _ _ _ _ h hc hd => congrArg Host.Outcome.next (stores_dtcm h hc rfl hd),
    fun _ _ _ _ _ h hc hd => congrArg Host.Outcome.next (stores_peripheral h hc rfl hd),
    fun _ _ _ _ _ _ h hc hk => congrArg Host.Outcome.next (stores_own h hc rfl hk),
    fun _ _ _ _ _ h hc hk => congrArg Host.Outcome.next (stores_far h hc rfl hk)⟩

/-! Repeat prefixes. -/

section
variable {s t : State} {c : Nat} {o : HOp} {w : Word} {x : CoreSt}

theorem rptCount_immediate (hx : x.rptFrom = false) (hw : bit w 15 = false) : rptCount c x w = fld w 11 0 := by
  unfold rptCount
  rw [hx, Bool.false_and, if_neg Bool.false_ne_true, if_neg (ne_of_eq_of_ne hw Bool.false_ne_true)]

theorem rptCount_register (hx : x.rptFrom = false) (hw : bit w 15 = true) :
    rptCount c x w = min 4096 (greg x (fRs1 w)).toNat := by
  unfold rptCount
  rw [hx, Bool.false_and, if_neg Bool.false_ne_true, if_pos hw]

theorem rptCount_resumed (hx : x.rptFrom = true) (hv : bit (csrHeld c x csrRPTC) 31 = true) :
    rptCount c x w = min 4096 (fld (csrHeld c x csrRPTC) 12 0) := by
  unfold rptCount
  rw [hx, hv, Bool.true_and, if_pos rfl]

theorem repeats (h : Issues s c o w x t) (hx : x.rptFrom = false) :
    issueP o c s = (let n := rptCount c x w
      let z := retire x
      coreSet (busyCycle o t c) c (if n = 0 then { z with pc := x.pc + 8 }
        else { z with rpt := some { pc := x.pc, left := n, unint := decide (o = .rptu) } })) := by
  refine (issue_go h).trans ?_
  dsimp only
  rw [hx, Bool.false_and, if_neg Bool.false_ne_true]

theorem repeats_resumed (h : Issues s c o w x t) (hx : x.rptFrom = true) (hv : bit (csrHeld c x csrRPTC) 31 = true) :
    issueP o c s = (let n := rptCount c x w
      let z := retire (csrSet x csrRPTC (setBit (csrHeld c x csrRPTC) 31 false))
      coreSet (busyCycle o t c) c (if n = 0 then { z with pc := x.pc + 8 }
        else { z with rpt := some { pc := x.pc, left := n, unint := decide (o = .rptu) } })) := by
  refine (issue_go h).trans ?_
  dsimp only
  rw [hx, hv, Bool.true_and, if_pos rfl]

theorem repeats_immediate (h : Issues s c o w x t) (hx : x.rptFrom = false) (hw : bit w 15 = false) :
    issueP o c s = (let n := fld w 11 0
      let z := retire x
      coreSet (busyCycle o t c) c (if n = 0 then { z with pc := x.pc + 8 }
        else { z with rpt := some { pc := x.pc, left := n, unint := decide (o = .rptu) } })) := by
  rw [repeats h hx, rptCount_immediate hx hw]

theorem repeats_register (h : Issues s c o w x t) (hx : x.rptFrom = false) (hw : bit w 15 = true) :
    issueP o c s = (let n := min 4096 (greg x (fRs1 w)).toNat
      let z := retire x
      coreSet (busyCycle o t c) c (if n = 0 then { z with pc := x.pc + 8 }
        else { z with rpt := some { pc := x.pc, left := n, unint := decide (o = .rptu) } })) := by
  rw [repeats h hx, rptCount_register hx hw]

theorem repeats_again (h : Issues s c o w x t) (hx : x.rptFrom = true) (hv : bit (csrHeld c x csrRPTC) 31 = true) :
    issueP o c s = (let n := min 4096 (fld (csrHeld c x csrRPTC) 12 0)
      let z := retire (csrSet x csrRPTC (setBit (csrHeld c x csrRPTC) 31 false))
      coreSet (busyCycle o t c) c (if n = 0 then { z with pc := x.pc + 8 }
        else { z with rpt := some { pc := x.pc, left := n, unint := decide (o = .rptu) } })) := by
  rw [repeats_resumed h hx hv, rptCount_resumed hx hv]

end

/-- Settles O33. -/
theorem coreBranchesAndRepeats : Obligations.CoreBranchesAndRepeats := by
  unfold Obligations.CoreBranchesAndRepeats
  exact ⟨fun _ _ _ _ _ h hg => congrArg Host.Outcome.next (branches h (decide_eq_true hg)),
    fun _ _ _ _ _ h hg => congrArg Host.Outcome.next (branches_not h (decide_eq_false hg)),
    fun _ _ _ _ _ h hg => congrArg Host.Outcome.next (branches h (decide_eq_true hg)),
    fun _ _ _ _ _ h hg => congrArg Host.Outcome.next (branches_not h (decide_eq_false hg)),
    fun _ _ _ _ _ h hg => congrArg Host.Outcome.next (branches h hg),
    fun _ _ _ _ _ h hg => congrArg Host.Outcome.next (branches_not h (Bool.eq_false_iff.mpr hg)),
    fun _ _ _ _ _ h hg => congrArg Host.Outcome.next (branches h (congrArg not hg)),
    fun _ _ _ _ _ h hg => congrArg Host.Outcome.next (branches_not h (congrArg not (Bool.eq_true_of_not_eq_false hg))),
    fun _ _ _ _ _ h hg => congrArg Host.Outcome.next (branches h hg),
    fun _ _ _ _ _ h hg => congrArg Host.Outcome.next (branches_not h (Bool.eq_false_iff.mpr hg)),
    fun _ _ _ _ _ h hg => congrArg Host.Outcome.next (branches h (congrArg not hg)),
    fun _ _ _ _ _ h hg => congrArg Host.Outcome.next (branches_not h (congrArg not (Bool.eq_true_of_not_eq_false hg))),
    fun _ _ _ _ _ h => congrArg Host.Outcome.next (issue_go h),
    fun _ _ _ _ _ h => congrArg Host.Outcome.next (issue_go h),
    fun _ _ _ _ _ h hx hw => congrArg Host.Outcome.next (repeats_immediate h hx hw),
    fun _ _ _ _ _ h hx hw => congrArg Host.Outcome.next (repeats_register h hx hw),
    fun _ _ _ _ _ h hx hv => congrArg Host.Outcome.next (repeats_again h hx hv),
    fun _ _ _ _ _ h hx hw => congrArg Host.Outcome.next (repeats_immediate h hx hw),
    fun _ _ _ _ _ h hx hw => congrArg Host.Outcome.next (repeats_register h hx hw),
    fun _ _ _ _ _ h hx hv => congrArg Host.Outcome.next (repeats_again h hx hv)⟩

/-! Waits. -/

section
variable {s t : State} {c : Fin 50} {w : Word} {x : CoreSt} {q : CoreWait}

theorem wfe_goes (h : Issues s c.val .wfe w x t) (hk : wakeCond t c.val x = true) :
    exec (.h32Wfe c) s = .next (coreSet t c.val (retire x)) := by
  refine congrArg Host.Outcome.next ((issue_go h).trans ?_)
  rw [busy_wait rfl, if_pos hk]

theorem wfe_waits (h : Issues s c.val .wfe w x t) (hk : wakeCond t c.val x = false) :
    exec (.h32Wfe c) s = .next (waitBegin c.val 0 0 w x t) := by
  refine congrArg Host.Outcome.next ((issue_go h).trans ?_)
  rw [busy_wait rfl, if_neg (ne_of_eq_of_ne hk Bool.false_ne_true)]

theorem wfet_late (h : Issues s c.val .wfet w x t) (ht : dword (greg x (fRs2 w)) (greg x (fRs1 w)) ≤ coreTense t) :
    exec (.h32Wfet c) s = .next (gives c.val 1 (w32 (nb (wakeCond t c.val x) + 2)) w (setLate c.val x) t) := by
  refine congrArg Host.Outcome.next ((issue_go h).trans ?_)
  dsimp only
  rw [busy_wait rfl, decide_eq_true ht, Bool.or_true, if_pos rfl, if_pos rfl]
  rfl

theorem wfet_wakes (h : Issues s c.val .wfet w x t) (hk : wakeCond t c.val x = true)
    (ht : ¬(dword (greg x (fRs2 w)) (greg x (fRs1 w)) ≤ coreTense t)) :
    exec (.h32Wfet c) s = .next (gives c.val 1 1 w x t) := by
  refine congrArg Host.Outcome.next ((issue_go h).trans ?_)
  dsimp only
  rw [busy_wait rfl, decide_eq_false ht, hk, Bool.true_or, if_pos rfl, if_neg Bool.false_ne_true]
  rfl

theorem wfet_waits (h : Issues s c.val .wfet w x t) (hk : wakeCond t c.val x = false)
    (ht : ¬(dword (greg x (fRs2 w)) (greg x (fRs1 w)) ≤ coreTense t)) :
    exec (.h32Wfet c) s = .next (waitBegin c.val 1 (dword (greg x (fRs2 w)) (greg x (fRs1 w))) w x t) := by
  refine congrArg Host.Outcome.next ((issue_go h).trans ?_)
  dsimp only
  rw [busy_wait rfl, decide_eq_false ht, hk, Bool.or_false, if_neg Bool.false_ne_true]

theorem waitt_late (h : Issues s c.val .waitt w x t) (ht : dword (greg x (fRs2 w)) (greg x (fRs1 w)) ≤ coreTense t) :
    exec (.h32Waitt c) s = .next (coreSet t c.val (retire (setLate c.val x))) := by
  refine congrArg Host.Outcome.next ((issue_go h).trans ?_)
  dsimp only
  rw [busy_wait rfl, if_pos ht]

theorem waitt_waits (h : Issues s c.val .waitt w x t)
    (ht : ¬(dword (greg x (fRs2 w)) (greg x (fRs1 w)) ≤ coreTense t)) :
    exec (.h32Waitt c) s = .next (waitBegin c.val 2 (dword (greg x (fRs2 w)) (greg x (fRs1 w))) w x t) := by
  refine congrArg Host.Outcome.next ((issue_go h).trans ?_)
  dsimp only
  rw [busy_wait rfl, if_neg ht]

/-- What the core would find had it waited until now. -/
abbrev woken (s : State) (c : Nat) (q : CoreWait) : Bool :=
  wakeCond s c (landTo c (coreOf s c) ((coreOf s c).cyc + waited s c q))

theorem waitOver_wakes (hq : (coreOf s c.val).wait = some q) (hr : (coreOf s c.val).run = .wait)
    (hu : coreUp s c.val = true) (h2 : q.kind ≠ 2) (hk : woken s c.val q = true) :
    waitOver c.val s = waitDone s c.val (coreOf s c.val) q := by
  unfold waitOver
  dsimp only
  rw [hq]
  dsimp only
  rw [if_neg (not_or_intro (not_not_intro hr) (not_eq_false_of_true hu)), if_pos ⟨h2, hk⟩]

theorem waitOver_atTime (hq : (coreOf s c.val).wait = some q) (hr : (coreOf s c.val).run = .wait)
    (hu : coreUp s c.val = true) (h0 : q.kind ≠ 0) (hk : q.kind = 2 ∨ woken s c.val q = false) :
    waitOver c.val s = waitDone (advanceCore s (coreClock s c.val) q.target.toNat) c.val (coreOf s c.val) q := by
  unfold waitOver
  dsimp only
  rw [hq]
  dsimp only
  rw [if_neg (not_or_intro (not_not_intro hr) (not_eq_false_of_true hu)),
    if_neg (fun h => hk.elim h.1 (ne_of_eq_of_ne · Bool.false_ne_true h.2)), if_neg h0]

theorem waitOver_stays (hq : (coreOf s c.val).wait = some q) (h0 : q.kind = 0) (hk : woken s c.val q = false) :
    waitOver c.val s = s := by
  unfold waitOver
  dsimp only
  rw [hq]
  dsimp only
  rw [if_neg (c := q.kind ≠ 2 ∧ _) (fun h => ne_of_eq_of_ne hk Bool.false_ne_true h.2), if_pos h0, ite_self]

theorem waitOver_none (hq : (coreOf s c.val).wait = none) : waitOver c.val s = s := by
  unfold waitOver
  dsimp only
  rw [hq]

theorem sev_raises (h : Issues s c.val .sev w x t) (hn : fld (greg x (fRs1 w)) 5 0 ≤ 47)
    (hc : fld (greg x (fRs1 w)) 5 0 ≠ c.val) (ha : engAlive t (fld (greg x (fRs1 w)) 5 0) = true) :
    exec (.h32Sev c) s = .next (raiseEvent (coreSet (busyCycle .sev t c.val) c.val (retire x))
      (fld (greg x (fRs1 w)) 5 0) (16 + fld w 8 6)) := by
  refine congrArg Host.Outcome.next ((issue_go h).trans ?_)
  dsimp only
  rw [alive_busy, if_neg (not_or_intro (Nat.not_lt.mpr hn) (not_or_intro hc (not_eq_false_of_true ha)))]
  rfl

theorem sev_nothing (h : Issues s c.val .sev w x t)
    (hn : 47 < fld (greg x (fRs1 w)) 5 0 ∨ fld (greg x (fRs1 w)) 5 0 = c.val ∨
      engAlive t (fld (greg x (fRs1 w)) 5 0) = false) :
    exec (.h32Sev c) s = .next (coreSet (busyCycle .sev t c.val) c.val (retire x)) := by
  refine congrArg Host.Outcome.next ((issue_go h).trans ?_)
  dsimp only
  rw [alive_busy, if_pos hn]

end

/-- Settles O34. -/
theorem coreWaitsAndEvents : Obligations.CoreWaitsAndEvents := by
  unfold Obligations.CoreWaitsAndEvents
  exact ⟨fun _ _ _ _ _ h hk => wfe_goes h hk,
    fun _ _ _ _ _ h hk => wfe_waits h hk,
    fun _ _ _ _ _ h ht => wfet_late h ht,
    fun _ _ _ _ _ h hk ht => wfet_wakes h hk ht,
    fun _ _ _ _ _ h hk ht => wfet_waits h hk ht,
    fun _ _ _ _ _ h ht => waitt_late h ht,
    fun _ _ _ _ _ h ht => waitt_waits h ht,
    fun _ _ _ hq hr hu h2 hk => congrArg Host.Outcome.next (waitOver_wakes hq hr hu h2 hk),
    fun _ _ _ hq hr hu h0 hk => congrArg Host.Outcome.next (waitOver_atTime hq hr hu h0 hk),
    fun _ _ _ hq _ h0 hk => congrArg Host.Outcome.next (waitOver_stays hq h0 hk),
    fun _ _ hq => congrArg Host.Outcome.next (waitOver_none hq),
    fun _ _ _ _ _ h hn hc ha => sev_raises h hn hc ha,
    fun _ _ _ _ _ h hn => sev_nothing h hn⟩

/-! Control and status registers. -/

section
variable {s t : State} {c : Nat} {o : HOp} {w : Word} {x : CoreSt} {f : Word → Word → Word}

theorem csr_reads (h : Issues s c .csrr w x t) (h1 : fCsr w ≠ 0x140) (h2 : fCsr w ≠ 0x010) :
    issueC .csrr c f s = gives c 1 (csrValue (busyCycle .csrr t c) c x (fCsr w)) w x (busyCycle .csrr t c) := by
  refine (issue_go h).trans ?_
  dsimp only
  rw [if_neg h1, if_neg h2, if_neg (ne_of_eq_of_ne (by rfl : csrWrites c .csrr w = false) Bool.false_ne_true)]

theorem csr_readsCycle (h : Issues s c .csrr w x t) (h2 : fCsr w = 0x010) :
    issueC .csrr c f s =
      gives c 1 (w32 x.cyc) w { x with cycHi := w32 (x.cyc / 0x100000000) } (busyCycle .csrr t c) := by
  refine (issue_go h).trans ?_
  dsimp only
  rw [if_neg (ne_of_eq_of_ne (by rfl : csrWrites c .csrr w = false) Bool.false_ne_true), if_pos h2, h2]
  rfl

theorem csr_writes {k : Nat} {v : Word} (h : Issues s c o w x t) (h1 : fCsr w ≠ 0x140) (h2 : fCsr w ≠ 0x010)
    (ho : csrWrites c o w = true) (hk : csrAcc c (fCsr w) = some (.rw k))
    (hv : f (csrValue (busyCycle o t c) c x (fCsr w)) (greg x (fRs1 w)) = v) :
    issueC o c f s = coreSet (busyCycle o t c) c (retire (flies (flies x 1 (fRd w)
      (csrValue (busyCycle o t c) c x (fCsr w))) 3 (32 + fCsr w) (v &&& w32 k))) := by
  subst hv
  refine (issue_go h).trans ?_
  dsimp only
  rw [if_neg h1, if_neg h2, if_pos ho, hk]

theorem csrWrites_rw {k : Nat} (ho : o = .csrw ∨ o = .csrs ∨ o = .csrc) (hk : csrAcc c (fCsr w) = some (.rw k)) :
    csrWrites c o w = true := by
  unfold csrWrites
  rw [hk]
  rcases ho with rfl | rfl | rfl <;> simp

theorem coreWdtKick_kicks {c : Fin 50} (h : Issues s c.val .csrw w x t) (h1 : fCsr w = 0x140)
    (h2 : greg x (fRs1 w) = 0x5A5A#32) :
    exec (.coreWdtKick c) s = .next (coreSet (busyCycle .csrw t c.val) c.val
      (retire { flies x 1 (fRd w) 0 with wdtAt := (busyCycle .csrw t c.val).time.tense })) :=
  congrArg Host.Outcome.next ((issue_go h).trans (if_pos ⟨h1, h2⟩))

theorem eret_engine {c : Fin 50} (h : Issues s c.val .eret w x t) (hc : c.val < 48) :
    exec (.h32Eret c) s = .next (let v := csrHeld c.val x csrSTATUS
      coreSet (busyCycle .eret t c.val) c.val { csrSet x csrSTATUS (setBit (setBit v 0 (bit v 1)) 2 false) with
        pc := csrHeld c.val x csrEPC &&& 0xFFFFFFFC#32, cyc := x.cyc + 1, rptFrom := true }) := by
  refine congrArg Host.Outcome.next ((issue_go h).trans ?_)
  dsimp only
  rw [if_neg (ne_of_eq_of_ne (not_priv hc) Bool.false_ne_true)]

theorem eret_privileged {c : Fin 50} (h : Issues s c.val .eret w x t) (hc : 48 ≤ c.val) :
    exec (.h32Eret c) s = .next (let v := csrHeld c.val x csrSTATUS
      let v1 := setBit (setBit v 0 (bit v 1)) 2 false
      coreSet t c.val { csrSet x csrSTATUS (setBit v1 3 (bit v 4)) with
        pc := csrHeld c.val x csrEPC &&& 0xFFFFFFFC#32, cyc := x.cyc + 1, rptFrom := true }) := by
  refine congrArg Host.Outcome.next ((issue_go h).trans ?_)
  dsimp only
  rw [if_pos (is_priv hc), busy_priv hc]

end

/-- Settles O35. -/
theorem coreControlRegisters : Obligations.CoreControlRegisters := by
  unfold Obligations.CoreControlRegisters
  exact ⟨fun _ _ _ _ _ h h1 h2 => congrArg Host.Outcome.next (csr_reads h h1 h2),
    fun _ _ _ _ _ h h2 => congrArg Host.Outcome.next (csr_readsCycle h h2),
    fun _ _ _ _ _ _ h h1 h2 hk =>
      congrArg Host.Outcome.next (csr_writes h h1 h2 (csrWrites_rw (.inl rfl) hk) hk rfl),
    fun _ _ _ _ _ _ h h1 h2 hk =>
      congrArg Host.Outcome.next (csr_writes h h1 h2 (csrWrites_rw (.inr (.inl rfl)) hk) hk rfl),
    fun _ _ _ _ _ _ h h1 h2 hk =>
      congrArg Host.Outcome.next (csr_writes h h1 h2 (csrWrites_rw (.inr (.inr rfl)) hk) hk rfl),
    fun _ _ _ _ _ h h1 h2 => coreWdtKick_kicks h h1 h2,
    fun _ _ _ _ _ h hc => eret_engine h hc,
    fun _ _ _ _ _ h hc => eret_privileged h hc⟩

/-! Exceptions and interrupts. -/

/-- The command issues the instruction: beside its effect it does what every instruction does where it may not issue or
raises something. -/
def IssuesAs (c : Fin 50) (p : HOp × Instr) : Prop :=
  ∃ body, ∀ s, exec p.2 s = .next (issue p.1 c.val body s)

/-- The commands of the core that issue an instruction. -/
noncomputable abbrev coreCommands (c : Fin 50) : List (HOp × Instr) :=
  [(.add, .h32Add c), (.sub, .h32Sub c), (.neg, .h32Neg c), (.and, .h32And c), (.or, .h32Or c), (.xor, .h32Xor c),
   (.andn, .h32Andn c), (.slt, .h32Slt c), (.sltu, .h32Sltu c), (.sll, .h32Sll c), (.srl, .h32Srl c),
   (.sra, .h32Sra c), (.clz, .h32Clz c), (.sextb, .h32Sextb c), (.sexth, .h32Sexth c), (.addi, .h32Addi c),
   (.andi, .h32Andi c), (.ori, .h32Ori c), (.xori, .h32Xori c), (.slti, .h32Slti c), (.sltiu, .h32Sltiu c),
   (.lui, .h32Lui c), (.slli, .h32Slli c), (.srli, .h32Srli c), (.srai, .h32Srai c), (.mul, .h32Mul c),
   (.mulh, .h32Mulh c), (.mulhu, .h32Mulhu c), (.div, .h32Div c), (.divu, .h32Divu c), (.rem, .h32Rem c),
   (.remu, .h32Remu c), (.lw, .h32Lw c), (.lh, .h32Lh c), (.lhu, .h32Lhu c), (.lb, .h32Lb c), (.lbu, .h32Lbu c),
   (.lwpi, .h32Lwpi c), (.sw, .h32Sw c), (.sh, .h32Sh c), (.sb, .h32Sb c), (.swpi, .h32Swpi c), (.beq, .h32Beq c),
   (.bne, .h32Bne c), (.blt, .h32Blt c), (.bge, .h32Bge c), (.bltu, .h32Bltu c), (.bgeu, .h32Bgeu c),
   (.jal, .h32Jal c), (.jalr, .h32Jalr c), (.rpt, .h32Rpt c), (.rptu, .h32Rptu c), (.wfe, .h32Wfe c),
   (.wfet, .h32Wfet c), (.waitt, .h32Waitt c), (.sev, .h32Sev c), (.eret, .h32Eret c), (.ecall, .h32Ecall c),
   (.ebreak, .h32Ebreak c), (.csrr, .h32Csrr c), (.csrw, .h32Csrw c), (.csrs, .h32Csrs c), (.csrc, .h32Csrc c)]

theorem coreCommands_issue (c : Fin 50) : ∀ p ∈ coreCommands c, IssuesAs c p := by
  simp only [coreCommands, List.forall_mem_cons, List.not_mem_nil, IsEmpty.forall_iff, implies_true, and_true]
  and_intros <;> exact ⟨_, fun _ => rfl⟩

section
variable {s t : State} {c : Fin 50} {o : HOp} {i : Instr} {w : Word} {x : CoreSt} {r : Raise}

theorem command_trips (hm : (o, i) ∈ coreCommands c) (h : Trips s c.val o w x t r) :
    exec i s = .next (coreSet t c.val (takeException c.val x r)) := by
  obtain ⟨body, hb⟩ := coreCommands_issue c _ hm
  exact (hb s).trans (congrArg Host.Outcome.next (issue_trip h))

theorem command_notAtBoundary (hm : (o, i) ∈ coreCommands c) (h : atBoundary s c.val = none) : exec i s = .next s := by
  obtain ⟨body, hb⟩ := coreCommands_issue c _ hm
  exact (hb s).trans (congrArg Host.Outcome.next (issue_none h))

theorem exceptionEntry_notAtBoundary {ecc : Option Word} (h : atBoundary s c.val = none) :
    exec (.exceptionEntry c ecc) s = .next s := by
  refine congrArg Host.Outcome.next ?_
  rw [h]

theorem exceptionEntry_fetch (h : atBoundary s c.val = some (x, t)) (hf : fetchWord t c.val x x.pc = .inl r) :
    exec (.exceptionEntry c none) s = .next (coreSet t c.val (takeException c.val x r)) := by
  refine congrArg Host.Outcome.next ?_
  rw [h]
  dsimp only
  rw [hf]

theorem exceptionEntry_noInstruction (h : atBoundary s c.val = some (x, t)) (hf : fetchWord t c.val x x.pc = .inr w)
    (ho : opOf w = none) :
    exec (.exceptionEntry c none) s = .next (coreSet t c.val (takeException c.val x (exIllegal, w))) := by
  refine congrArg Host.Outcome.next ?_
  rw [h]
  dsimp only
  rw [hf]
  dsimp only
  rw [ho]

theorem exceptionEntry_trips (h : Trips s c.val o w x t r) :
    exec (.exceptionEntry c none) s = .next (coreSet t c.val (takeException c.val x r)) := by
  obtain ⟨hb, hf, ho, hr⟩ := h
  refine congrArg Host.Outcome.next ?_
  rw [hb]
  dsimp only
  rw [hf]
  dsimp only
  rw [ho]
  dsimp only
  rw [hr]

theorem exceptionEntry_ecc {a : Word} (hc : 48 ≤ c.val) (h : atBoundary s c.val = some (x, t)) :
    exec (.exceptionEntry c (some a)) s = .next (coreSet t c.val (takeException c.val x (exEcc, a))) := by
  refine congrArg Host.Outcome.next ?_
  rw [h]
  dsimp only
  rw [is_priv hc]

theorem interruptEntry_running {i : Nat} (hu : coreUp s c.val = true) (hr : (coreOf s c.val).run = .run)
    (hi : interruptDue s c.val (landTo c.val (coreOf s c.val) (coreOf s c.val).cyc) = some i) :
    exec (.interruptEntry c) s = .next (coreSet s c.val
      (enter c.val (landTo c.val (coreOf s c.val) (coreOf s c.val).cyc) (w32 (0x80000000 + i)) none)) := by
  refine congrArg Host.Outcome.next ?_
  rw [if_neg (not_eq_false_of_true hu), hr]
  dsimp only
  rw [hi]

theorem interruptEntry_waiting {i : Nat} {q : CoreWait} (hu : coreUp s c.val = true) (hr : (coreOf s c.val).run = .wait)
    (hq : (coreOf s c.val).wait = some q) (hi : pendingLine s c.val (cutWait s c.val q) = some i) :
    exec (.interruptEntry c) s =
      .next (coreSet s c.val (enter c.val (cutWait s c.val q) (w32 (0x80000000 + i)) none)) := by
  refine congrArg Host.Outcome.next ?_
  rw [if_neg (not_eq_false_of_true hu), hr, hq]
  dsimp only
  rw [hi]

theorem interruptEntry_notDue (hr : (coreOf s c.val).run = .run)
    (hi : interruptDue s c.val (landTo c.val (coreOf s c.val) (coreOf s c.val).cyc) = none) :
    exec (.interruptEntry c) s = .next s := by
  refine congrArg Host.Outcome.next ?_
  rw [hr]
  dsimp only
  rw [hi, ite_self]

theorem storeAsync_raises {a : Word} {l : List Word} (ha : (coreOf s c.val).async = a :: l)
    (hr : (coreOf s c.val).run = .run) (hu : coreUp s c.val = true) :
    exec (.storeAsync c) s = .next (coreSet s c.val
      (takeException c.val (landTo c.val { coreOf s c.val with async := l } (coreOf s c.val).cyc) (exAsync, a))) := by
  refine congrArg Host.Outcome.next ?_
  rw [ha]
  exact if_pos ⟨hr, hu⟩

theorem storeAsync_nothing
    (h : (coreOf s c.val).async = [] ∨ (coreOf s c.val).run ≠ .run ∨ coreUp s c.val = false) :
    exec (.storeAsync c) s = .next s := by
  refine congrArg Host.Outcome.next ?_
  split
  · rfl
  case h_2 ha =>
    refine if_neg fun hg => ?_
    rcases h with h | h | h
    · exact List.cons_ne_nil _ _ (ha.symm.trans h)
    · exact h hg.1
    · exact ne_of_eq_of_ne h Bool.false_ne_true hg.2

end

/-- Settles O36: every command of a core issues through `issue`, which takes what its instruction raises. -/
theorem coreExceptions : Obligations.CoreExceptions := by
  unfold Obligations.CoreExceptions
  exact ⟨fun c o i w x t r s hm h => ⟨command_trips hm h, exceptionEntry_trips h⟩,
    fun c o i s hm h => ⟨command_notAtBoundary hm h, exceptionEntry_notAtBoundary h⟩,
    fun c w x t s hb hf ho hd => congrArg Host.Outcome.next (issue_trip ⟨hb, hf, ho, raises_ecall hd⟩),
    fun c w x t s hb hf ho hd hh => congrArg Host.Outcome.next (issue_trip ⟨hb, hf, ho, raises_ebreak hd hh⟩),
    fun c w x t s h => congrArg Host.Outcome.next (issue_go h),
    fun c r x t s hb hf => exceptionEntry_fetch hb hf,
    fun c w x t s hb hf ho => exceptionEntry_noInstruction hb hf ho,
    fun c a x t s hc hb => exceptionEntry_ecc hc hb,
    fun c r x h1 h2 h3 h4 => entry_plain h1 h2 h3 h4,
    fun c r x h => if_pos h,
    fun c i s hu hr hi => interruptEntry_running hu hr hi,
    fun c q i s hu hr hq hi => interruptEntry_waiting hu hr hq hi,
    fun c s hr hi => interruptEntry_notDue hr hi,
    fun c a r s ha hr hu => storeAsync_raises ha hr hu,
    fun c s h => storeAsync_nothing h⟩

end Sys2Proof.Proofs
end

section
/-! The banks of shared memory and the host interface. -/

namespace Sys2Proof.Proofs

open Sys2Proof Sys2Proof.Machine Sys2Proof.Machine.Reg Sys2Proof.Laws

/-! A write of a bank's control word. -/

section
variable {s : State} {b : Nat} {v o : Word}

/-- A bank's control word after a write that leaves its kind and its owner. -/
abbrev bankFlags (s : State) (b : Nat) (v : Word) : Word :=
  setFld (setFld (setFld (getR s (BNK_BANK_CTRL b)) 9 8 0) 1 1 (fld v 1 1)) 4 4 (fld v 4 4)

/-- A bank's control word after a write of a kind and an owner. -/
abbrev bankWord (s : State) (b : Nat) (v : Word) : Word :=
  setFld (setFld (bankFlags s b v) 27 24 (fld v 27 24)) 21 16 (fld v 21 16)

/-- The write asks for another kind or another owner. -/
abbrev bankMoves (s : State) (b : Nat) (v : Word) : Prop :=
  fld v 27 24 ≠ getF s (BNK_BANK_CTRL b) 27 24 ∨ fld v 21 16 ≠ getF s (BNK_BANK_CTRL b) 21 16

theorem bankMoves_eq :
    (decide (fld v 27 24 ≠ fld (getR s (BNK_BANK_CTRL b)) 27 24) ||
      decide (fld v 21 16 ≠ fld (getR s (BNK_BANK_CTRL b)) 21 16)) = decide (bankMoves s b v) :=
  (Bool.decide_or _ _).symm

section
variable (hb : b < 496) (h7 : fld v 27 24 < 7) (h0 : fld v 9 8 = 0)
include hb h7 h0

theorem bankCtrl_stable (hs : bankState s b = 0) :
    bankCtrl b v s = if bankMoves s b v then startHandOver s b (bankWord s b v)
      else applyBankPwr (setR s (BNK_BANK_CTRL b) (bankWord s b v)) b := by
  unfold bankCtrl
  dsimp only
  rw [decide_eq_false (Nat.not_le.mpr h7), decide_eq_false (Nat.not_le.mpr hb), if_neg (Nat.not_le.mpr hb), h0, hs]
  simp only [Bool.or_self, Bool.false_eq_true, if_false, if_true, bankMoves_eq, decide_eq_true_eq, ne_eq,
    not_true_eq_false, decide_false, Bool.false_and, OfNat.zero_ne_ofNat]

theorem bankCtrl_handsOver (hs : bankState s b = 0) (hm : bankMoves s b v) :
    bankCtrl b v s = startHandOver s b (bankWord s b v) := (bankCtrl_stable hb h7 h0 hs).trans (if_pos hm)

theorem bankCtrl_keepsOwner (hs : bankState s b = 0) (hk : fld v 27 24 = getF s (BNK_BANK_CTRL b) 27 24)
    (he : fld v 21 16 = getF s (BNK_BANK_CTRL b) 21 16) :
    bankCtrl b v s = applyBankPwr (setR s (BNK_BANK_CTRL b) (bankWord s b v)) b :=
  (bankCtrl_stable hb h7 h0 hs).trans (if_neg (not_or_intro (not_not_intro hk) (not_not_intro he)))

/-- A new kind during a hand-over that is not the old owner's leaves both kinds alone. -/
theorem bankCtrl_inBetween (hs : bankState s b ≠ 0) (ho : sfind s.bnk.old b = some o)
    (hk : fld v 27 24 ≠ getF s (BNK_BANK_CTRL b) 27 24) (hko : fld v 27 24 ≠ fld o 27 24) :
    bankCtrl b v s = raiseIrq (setR s (BNK_BANK_CTRL b) (bankFlags s b v)) BNK 1 := by
  unfold bankCtrl
  dsimp only
  have hm : decide (bankMoves s b v) = true := decide_eq_true (.inl hk)
  rw [decide_eq_false (Nat.not_le.mpr h7), decide_eq_false (Nat.not_le.mpr hb), if_neg (Nat.not_le.mpr hb), h0,
    if_neg hs, ho]
  simp only [Bool.or_self, Bool.false_eq_true, if_false, bankMoves_eq, hm, ne_eq, not_true_eq_false, decide_false,
    Bool.false_and, OfNat.zero_ne_ofNat, Bool.not_true, hko, false_and, and_false]

end

end

/-- Settles O37. -/
theorem bankHandOver : Obligations.BankHandOver := by
  unfold Obligations.BankHandOver
  exact ⟨fun m b v s h hb h7 h0 hs hm => next_write h (bankCtrl_handsOver hb h7 h0 hs hm),
    fun m b v s h hb h7 h0 hs hk he => next_write h (bankCtrl_keepsOwner hb h7 h0 hs hk he),
    fun m b v s h hb hs => ⟨_, next_write h rfl, fixed_bank hb hs b.isLt⟩,
    fun m b v o s h hb h7 h0 hs ho hk hko => next_write h (bankCtrl_inBetween hb h7 h0 hs ho hk hko),
    fun b s hs hd => congrArg Host.Outcome.next (if_pos ⟨hs, hd⟩),
    fun b s h => congrArg Host.Outcome.next
      (if_neg fun hg => h.elim (· hg.1) (ne_of_eq_of_ne · Bool.false_ne_true hg.2)),
    fun b s hs => congrArg Host.Outcome.next (if_pos hs),
    fun b s hs => congrArg Host.Outcome.next (if_neg hs),
    fun b s a hs h1 h2 => ⟨_, rfl, zeroed_reads hs h1 h2⟩,
    fun m b q s h => next_write h rfl,
    fun m b s h hb hs hp hk h7 => ⟨_, next_write h rfl, power_retain hb hs hp hk h7⟩,
    fun b s => rfl⟩

/-! Repair, scrubbing and collisions. -/

section
variable {s : State} {v : Word}

theorem bnkCmd_bank (k : Nat) : fld (setFld v 2 0 k) 25 16 = fld v 25 16 := fld_setFld_ne (by decide) (by decide)

theorem bnkCmd_op {k : Nat} (hk : k < 8) : fld (setFld v 2 0 k) 2 0 = k :=
  (fld_setFld_same (by decide)).trans (Nat.mod_eq_of_lt hk)

theorem replace_badBank {k : Nat} (h : 512 ≤ fld v 25 16) : bnkCmd (setFld v 2 0 k) s = bnkCmdEnd s 4 := by
  unfold bnkCmd
  dsimp only
  rw [bnkCmd_bank, if_pos h]

theorem replace_inUse (h : fld v 25 16 < 512)
    (hu : bankKind s (fld v 25 16) ≠ kFree ∨ bankState s (fld v 25 16) ≠ 0) :
    bnkCmd (setFld v 2 0 1) s = bnkCmdEnd s 2 := by
  unfold bnkCmd
  dsimp only
  rw [bnkCmd_bank, bnkCmd_op (by decide), if_neg (Nat.not_le.mpr h), if_pos rfl, if_pos hu]

section
variable (h : fld v 25 16 < 512) (hk : bankKind s (fld v 25 16) = kFree) (hs : bankState s (fld v 25 16) = 0)
include h hk hs

theorem replace_noSpare (hp : freeSpare s = none) : bnkCmd (setFld v 2 0 1) s = bnkCmdEnd s 3 := by
  unfold bnkCmd
  dsimp only
  rw [bnkCmd_bank, bnkCmd_op (by decide), if_neg (Nat.not_le.mpr h), if_pos rfl,
    if_neg (not_or_intro (not_not_intro hk) (not_not_intro hs)), hp]

theorem replace_replaces {p : Nat} (hp : freeSpare s = some p) :
    bnkCmd (setFld v 2 0 1) s =
      bnkCmdEnd (healthBank (substitute s (fld v 25 16) p) (fld v 25 16) p) 0 := by
  unfold bnkCmd
  dsimp only
  rw [bnkCmd_bank, bnkCmd_op (by decide), if_neg (Nat.not_le.mpr h), if_pos rfl,
    if_neg (not_or_intro (not_not_intro hk) (not_not_intro hs)), hp]

end

theorem scrubBank_ends : bnkCmd (setFld v 2 0 2) s = bnkCmdEnd s (if fld v 25 16 < 512 then 0 else 4) := by
  by_cases h : fld v 25 16 < 512
  · rw [if_pos h]
    unfold bnkCmd
    dsimp only
    rw [bnkCmd_bank, bnkCmd_op (by decide), if_neg (Nat.not_le.mpr h), if_neg (by decide), if_pos rfl]
  · rw [if_neg h, replace_badBank (Nat.not_lt.mp h)]

theorem scrubStep_row {b row : Nat} {lo hi : EccKind} (hp : bankPwr s b = 0) (hl : ¬(b = 511 ∧ row = 8191)) :
    scrubStep b row lo hi s =
      (let h := (bankLo b + row * 16) / 8
       scrubPace (setR (eccHalf (eccHalf s b h 0 lo) b (h + 1) 0 hi) BNK_SCRUB_POS
         (if row = 8191 then w32 ((b + 1) * 65536) else w32 (b * 65536 + row + 1)))) := by
  have hlast : (decide (b = 511) && decide (row = 8191)) = false := by
    rw [← Bool.decide_and]
    exact decide_eq_false hl
  unfold scrubStep
  rw [if_neg (not_not_intro hp)]
  dsimp only
  rw [hlast, if_neg Bool.false_ne_true, if_neg Bool.false_ne_true]

theorem scrubStep_lastRow {lo hi : EccKind} (hp : bankPwr s 511 = 0) :
    scrubStep 511 8191 lo hi s =
      (let h := (bankLo 511 + 8191 * 16) / 8
       let s1 := setR (eccHalf (eccHalf s 511 h 0 lo) 511 (h + 1) 0 hi) BNK_SCRUB_POS 0
       scrubPace (raiseIrq (bump { s1 with bnk := { s1.bnk with passCe := [], passFrom := s1.time.aonNs } }
         BNK_SCRUB_PASSES) BNK 6)) := if_neg (not_not_intro hp)

theorem collideStep_lands {a : Nat} {mA mB : Master} {l : List Byte} (hi : inShared a 1 = true) (hb : 496 ≤ bankOf a) :
    collideStep a mA l mB s =
      (let lo := memKey a / 16 * 16
       let l1 := l.take (lo + 16 - memKey a)
       let s1 := if poisonPartial s a l1.length then s else wrBytes (coverHalves s a l1.length) a l1
       collideEnd (raiseIrq (bump (bump s1 (BNK_COLLIDE (bankOf a))) BNK_COLLIDE_TOTAL) BNK 4) mB a lo) := by
  unfold collideStep
  dsimp only
  rw [hi, decide_eq_false (Nat.not_lt.mpr hb)]
  exact if_neg Bool.false_ne_true

theorem collideStep_nothing {a : Nat} {mA mB : Master} {l : List Byte} (h : inShared a 1 = false ∨ bankOf a < 496) :
    collideStep a mA l mB s = s := by
  refine if_pos ?_
  rcases h with h | h
  · rw [h]
    rfl
  · rw [decide_eq_true h, Bool.or_true]

theorem bankDenial_refused {m : Master} {a : Word} {w : Bool} {u : State} {q : FabStat}
    (hj : fabJudge s m a.toNat 1 w false = (u, q)) (hq : q ≠ .ok) : exec (.bankDenial m a w) s = .next (answerErr u) := by
  refine congrArg Host.Outcome.next ?_
  rw [hj]
  cases q with
  | ok => exact absurd rfl hq
  | _ => rfl

theorem bankDenial_admitted {m : Master} {a : Word} {w : Bool} {u : State}
    (hj : fabJudge s m a.toNat 1 w false = (u, .ok)) : exec (.bankDenial m a w) s = .next (answer u 0) := by
  refine congrArg Host.Outcome.next ?_
  rw [hj]

end

/-- Settles O38. -/
theorem bankErrorsAndRepair : Obligations.BankErrorsAndRepair := by
  unfold Obligations.BankErrorsAndRepair
  exact ⟨fun m v p s h hb hk hs hp => next_write h (replace_replaces hb hk hs hp),
    fun m v s h hb hu => next_write h (replace_inUse hb hu),
    fun m v s h hb hk hs hp => next_write h (replace_noSpare hb hk hs hp),
    fun m v s h => next_write h scrubBank_ends,
    fun m v s h hb => next_write h (replace_badBank hb),
    fun b row lo hi s hp hl => congrArg Host.Outcome.next (scrubStep_row hp hl),
    fun b row s hp hl => congrArg Host.Outcome.next (scrubStep_row hp hl),
    fun b row s hp hl => congrArg Host.Outcome.next (scrubStep_row hp hl),
    fun lo hi s hp => congrArg Host.Outcome.next (scrubStep_lastRow hp),
    fun b row lo hi s hp hl => ⟨_, congrArg Host.Outcome.next (scrubStep_row hp hl), scrubPace_behind _⟩,
    fun b row lo hi s hp => congrArg Host.Outcome.next (if_pos hp),
    fun s => rfl,
    fun a mA mB l s hi hb => congrArg Host.Outcome.next (collideStep_lands hi hb),
    fun a mA mB l s h => congrArg Host.Outcome.next (collideStep_nothing h),
    fun m a w u q s hj hq => bankDenial_refused hj hq,
    fun m a w u s hj => bankDenial_admitted hj,
    fun m s h => next_read h rfl⟩

/-! The host's rings. -/

section
variable {s : State} {r : Nat} {d buf : List Byte} {f : HostFetch}

/-- What the completion of the ring's next item carries before its outcome is known. -/
abbrev nextCompletion (s : State) (r : Nat) (d : List Byte) : Completion :=
  { slot := getF s (rgHEAD r) 11 0, tag := ringTag s r, cookie := leAt d 16 4, irq := (leAt d 10 1).testBit 1
    eof := true, sof := true, reason := 0, moved := 0 }

/-- The state once the item is read from its ring, which is then the last one served. -/
abbrev ringServed (s : State) (r : Nat) : State :=
  { ringRead s r with hif := { (ringRead s r).hif with txPtr := (r + 1) % 16 } }

theorem txItem_badDescriptor (h : txDescOk d = false) :
    txItem s r d buf f = ringComplete (ringServed s r) r { nextCompletion s r d with reason := 1 } := by
  unfold txItem
  dsimp only
  rw [h]
  exact if_pos rfl

theorem txBuffer_host (h : (leAt d 10 1).testBit 2 = false) :
    txBuffer s d buf .ok = (s, .inl (slice buf 0 (leAt d 8 2))) := by
  unfold txBuffer
  dsimp only
  rw [h, if_neg Bool.false_ne_true, if_neg (by decide)]

theorem txItem_enters (h : txDescOk d = true) (h2 : (leAt d 10 1).testBit 2 = false) :
    txItem s r d buf .ok =
      (let b := slice buf 0 (leAt d 8 2)
       let a : Arrival :=
         { plainArrival (ringServed s r) 208 b with
           itemTag := ringTag s r
           direct := if (leAt d 10 1).testBit 0 then some (leAt d 11 1, leAt d 12 1) else none }
       ringComplete (bump (swIngress (ringServed s r) a).1 HIF_TX_FRAMES) r
         { nextCompletion s r d with moved := b.length }) := by
  unfold txItem
  dsimp only
  rw [h, txBuffer_host h2]
  exact if_neg Bool.false_ne_true

section
variable (hh : hifOn s = true) (ha : accepting s = true) (hn : txNext s = some r)
include hh ha hn

theorem hostTx_next : hostTx d buf f s = if f = .descErr then ringHalt s r else txItem s r (slice d 0 32) buf f := by
  unfold hostTx
  rw [if_neg (not_or_intro (not_eq_false_of_true hh) (not_eq_false_of_true ha)), hn]

theorem hostTx_item (hf : f ≠ .descErr) : hostTx d buf f s = txItem s r (slice d 0 32) buf f :=
  (hostTx_next hh ha hn).trans (if_neg hf)

end

theorem hostTx_nothing (h : hifOn s = false ∨ accepting s = false ∨ txNext s = none) : hostTx d buf f s = s := by
  rcases h with h | h | h
  · exact if_pos (.inl h)
  · exact if_pos (.inr h)
  · unfold hostTx
    rw [h]
    exact ite_self s

end

section
variable {s : State} {l : List (List Byte)} {f : HostFetch} {e : SinkEnt} {fr : Frame}

theorem hostRx_none (h : (s.sw.sink.find? fun e => decide (e.port = 208)) = none) : hostRx l f s = s := by
  unfold hostRx
  rw [h]

theorem rxRun_guard (hr : rxRun s fr = true) : ¬(hifOn s = false ∨ awake s = false ∨
    (getB s (rgCTRL (rxRingOf s fr)) 0 || (ringSt s (rxRingOf s fr)).stopping) = false) := by
  unfold rxRun at hr
  rw [Bool.and_eq_true, Bool.and_eq_true] at hr
  obtain ⟨⟨h1, h2⟩, h3⟩ := hr
  exact not_or_intro (not_eq_false_of_true h1) (not_or_intro (not_eq_false_of_true h2) (not_eq_false_of_true h3))

section
variable (he : (s.sw.sink.find? fun e => decide (e.port = 208)) = some e) (hf : frameOf s e.fid = some fr)
include he hf

theorem hostRx_off (hr : rxRun s fr = false) : hostRx l f s = s := by
  unfold hostRx
  rw [he]
  dsimp only
  rw [hf]
  refine if_pos ?_
  unfold rxRun at hr
  rw [Bool.and_eq_false_iff, Bool.and_eq_false_iff] at hr
  rcases hr with (h | h) | h
  · exact .inl h
  · exact .inr (.inl h)
  · exact .inr (.inr h)

theorem hostRx_fault {q : Nat} (hr : rxRun s fr = true) (hq : exitFault fr e.rf = some q) :
    hostRx l f s = exitDrop { s with sw := { s.sw with sink := s.sw.sink.erase e } } 208 fr.tc e.fid fr q := by
  unfold hostRx
  rw [he]
  dsimp only
  rw [hf]
  refine (if_neg (rxRun_guard hr)).trans ?_
  rw [hq]

section
variable {x : State × Bool × List Byte} (hr : rxRun s fr = true) (hq : exitFault fr e.rf = none)
  (hp : (ringSt s (rxRingOf s fr)).part = none)
  (hx : rxFill s (rxRingOf s fr) l false (headBytes s fr ++ delivered s 208 fr) = x)
include hr hq hp hx

theorem hostRx_whole (hd : x.2.2 = []) :
    hostRx l f s =
      (let s1 := ringMod x.1 (rxRingOf s fr) fun y => { y with part := none }
       let s2 : State := { s1 with sw := { s1.sw with sink := s1.sw.sink.erase e } }
       ringStopped (unref (bump s2 HIF_RX_FRAMES) e.fid) (rxRingOf s fr)) := by
  subst hx
  unfold rxRingOf at hp hd ⊢
  unfold hostRx
  rw [he]
  dsimp only
  rw [hf]
  refine (if_neg (rxRun_guard hr)).trans ?_
  rw [hq]
  dsimp only
  rw [hp]
  exact if_pos hd

theorem hostRx_part (hd : x.2.2 ≠ []) :
    hostRx l f s =
      (let s1 := ringMod x.1 (rxRingOf s fr) fun y => { y with part := if x.2.1 then some (true, x.2.2) else none }
       if f = .descErr ∧ ringHas s1 (rxRingOf s fr) = true then ringHalt s1 (rxRingOf s fr) else s1) := by
  subst hx
  unfold rxRingOf at hp hd ⊢
  unfold hostRx
  rw [he]
  dsimp only
  rw [hf]
  refine (if_neg (rxRun_guard hr)).trans ?_
  rw [hq]
  dsimp only
  rw [hp]
  exact if_neg hd

end

end

theorem modExpiry_pends {r : Nat} (hr : (ringSt s r).recs ≠ 0) (hi : getB s (rgIRQ r) 0 = false) :
    modExpiry r s = ringPend (advanceNs s ((ringSt s r).firstAt.toNat + getF s (rgCTRL r) 31 16 * 1000)) r true :=
  if_neg (not_or_intro hr (ne_of_eq_of_ne hi Bool.false_ne_true))

end

/-- Settles O39. -/
theorem hostRings : Obligations.HostRings := by
  unfold Obligations.HostRings
  exact ⟨fun d buf f r s hh ha hn hf => congrArg Host.Outcome.next (hostTx_item hh ha hn hf),
    fun d buf f r s hh ha hn hf hd h2 => by
      subst hf
      exact congrArg Host.Outcome.next ((hostTx_item hh ha hn (by decide)).trans (txItem_enters hd h2)),
    fun d buf f r s hh ha hn hf hd =>
      congrArg Host.Outcome.next ((hostTx_item hh ha hn hf).trans (txItem_badDescriptor hd)),
    fun d buf r s hh ha hn => congrArg Host.Outcome.next ((hostTx_next hh ha hn).trans (if_pos rfl)),
    fun d buf f s h => congrArg Host.Outcome.next (hostTx_nothing h),
    fun l f s h => congrArg Host.Outcome.next (hostRx_none h),
    fun l f e fr q s he hf hr hq => congrArg Host.Outcome.next (hostRx_fault he hf hr hq),
    fun l f e fr x s he hf hr hq hp hx hd => congrArg Host.Outcome.next (hostRx_whole he hf hr hq hp hx hd),
    fun l f e fr x s he hf hr hq hp hx hd => congrArg Host.Outcome.next (hostRx_part he hf hr hq hp hx hd),
    fun l f e fr s he hf hr => congrArg Host.Outcome.next (hostRx_off he hf hr),
    fun m r v s h => ⟨_, next_write h rfl, tail_write r.isLt⟩,
    fun m r v s h h0 => ⟨_, next_write h rfl, ring_enable r.isLt h0⟩,
    fun m r v s h h0 hp => ⟨_, next_write h rfl, ring_stop r.isLt h0 hp⟩,
    fun m r v s h h0 hp => ⟨_, next_write h rfl, ring_stop_later r.isLt h0 hp⟩,
    fun r s hr hi => congrArg Host.Outcome.next (modExpiry_pends hr hi),
    fun r s h => congrArg Host.Outcome.next (if_pos h)⟩

/-! The host's link. -/

section
variable {s : State}

theorem ringLost_items {r k : Nat} (he : getB s (rgCTRL r) 0 = true) (hk : 0 < k)
    (hm : k ≤ (getF s (rgTAIL r) 11 0 + ringSize s r - getF s (rgHEAD r) 11 0) % ringSize s r) (hz : ringSize s r ≠ 0) :
    ringLost s r k = bumpN ((List.range k).foldl (fun t _ => ringRead t r)
      (setR (setR s (rgLOSTFIRST r) (w32 (ringTag s r))) (rgLOSTCOUNT r) (w32 k))) HIF_LINK_DOWN_ENDS k := by
  unfold ringLost
  dsimp only
  rw [if_pos he, Nat.max_eq_right (Nat.pos_of_ne_zero hz), Nat.min_eq_left hm]
  exact if_neg (Nat.pos_iff_ne_zero.mp hk)

theorem hostLoss_link_items {r k : Nat} (he : getB s (rgCTRL r) 0 = true) (hk : 0 < k)
    (hm : k ≤ (getF s (rgTAIL r) 11 0 + ringSize s r - getF s (rgHEAD r) 11 0) % ringSize s r) (hz : ringSize s r ≠ 0) :
    hostLoss .link [(r, k)] s = linkPut 0 (freeLocksOf mHost ((List.range 32).foldl ringKill
      (bumpN ((List.range k).foldl (fun t _ => ringRead t r)
        (setR (setR s (rgLOSTFIRST r) (w32 (ringTag s r))) (rgLOSTCOUNT r) (w32 k))) HIF_LINK_DOWN_ENDS k))) := by
  rw [← ringLost_items he hk hm hz]
  rfl

/-- A width and a speed the link may train to. -/
theorem trained {w : BitVec 3} {v : BitVec 2} (hw : w = 1 ∨ w = 2 ∨ w = 4) (hv : v ≠ 0) :
    ¬((w.toNat ≠ 1 ∧ w.toNat ≠ 2 ∧ w.toNat ≠ 4) ∨ v.toNat = 0) := by
  bv_omega

theorem notTrained {w : BitVec 3} {v : BitVec 2} (h : (w ≠ 1 ∧ w ≠ 2 ∧ w ≠ 4) ∨ v = 0) :
    (w.toNat ≠ 1 ∧ w.toNat ≠ 2 ∧ w.toNat ≠ 4) ∨ v.toNat = 0 := by
  bv_omega

theorem linkTrain_up {w v : Nat} (hc : s.hif.cfgUp = true) (h : ¬((w ≠ 1 ∧ w ≠ 2 ∧ w ≠ 4) ∨ v = 0)) :
    linkTrain w v s = msixRelease (linkPut (w32 (0x80000000 + w * 0x100000 + v * 0x10000)) s) :=
  if_neg (not_or_intro (not_eq_false_of_true hc) h)

end

/-- Settles O40. -/
theorem hostLinkAndResets : Obligations.HostLinkAndResets := by
  unfold Obligations.HostLinkAndResets
  exact ⟨fun cut s => ⟨rfl, rfl, rfl⟩,
    fun r k s he hk hm hz => congrArg Host.Outcome.next (hostLoss_link_items he hk hm hz),
    fun s => rfl,
    fun w v s hc hw hv => congrArg Host.Outcome.next (linkTrain_up hc (trained hw hv)),
    fun w v s h => congrArg Host.Outcome.next (if_pos (h.imp_right notTrained))⟩

end Sys2Proof.Proofs
end

section
/-! The reference, the four time bases, captures and timed outputs. -/

namespace Sys2Proof.Proofs

open Sys2Proof Sys2Proof.Machine Sys2Proof.Machine.Reg Sys2Proof.Laws

/-! The reference and the time bases. -/

section
variable {s : State}

theorem refLoss_present (h : getB s TNS_REF_STATUS 1 = true) :
    refLoss s = raiseIrq (refFollow (putB s TNS_REF_STATUS 1 false)) TNS 14 := if_pos h

theorem refLoss_absent (h : getB s TNS_REF_STATUS 1 = false) : refLoss s = s :=
  if_neg (ne_of_eq_of_ne h Bool.false_ne_true)

/-- Without its input the reference chosen falls back where `REF_CTRL` lets it. -/
theorem refFollow_lost (hc : getB s TNS_REF_CTRL 0 = true) :
    refFollow (putB s TNS_REF_STATUS 1 false) =
      putB (putB (putB s TNS_REF_STATUS 1 false) TNS_REF_STATUS 2 false) TNS_REF_STATUS 3 (getB s TNS_REF_CTRL 8) := by
  have hr : ∀ i, getB (putB s TNS_REF_STATUS 1 false) TNS_REF_CTRL i = getB s TNS_REF_CTRL i :=
    fun i => congrArg (bit · i) (getR_putB_ne (by decide))
  have hp : getB (putB s TNS_REF_STATUS 1 false) TNS_REF_STATUS 1 = false :=
    (congrArg (bit · 1) (getR_putB_same _ _ _ _)).trans (bit_setBit_same (by decide))
  unfold refFollow
  dsimp only
  rw [hr, hr, hc, hp]
  rfl

theorem refRegain_absent (h : getB s TNS_REF_STATUS 1 = false) :
    refRegain s = (let s1 := putB s TNS_REF_STATUS 1 true
      raiseIrq (if getB s TNS_REF_STATUS 3 then s1 else refFollow s1) TNS 14) :=
  if_neg (ne_of_eq_of_ne h Bool.false_ne_true)

theorem tbGuarded_open {m : Master} {b a : Nat} {f : State → State} (h : tbProtected s m b = false) :
    tbGuarded m b a f s = f s := if_neg (ne_of_eq_of_ne h Bool.false_ne_true)

theorem tbGuarded_protected {m : Master} {b a : Nat} {f : State → State} (h : tbProtected s m b = true) :
    tbGuarded m b a f s = deny s errDeniedField m a true := if_pos h

theorem adjSet_moves {b : Nat} (h : getF s (TNS_ARG_NS b) 29 0 ≤ 999999999) :
    adjSet s b = tbMove (putB s (TNS_ADJ_STATUS b) 30 false) b
      (((getR64 s (TNS_ARG_SEC_LO b)).toNat * 1000000000 + getF s (TNS_ARG_NS b) 29 0) * fracOne) :=
  if_neg (Nat.not_lt.mpr h)

theorem adjStep_moves {b : Nat} (h : getF s (TNS_ARG_NS b) 29 0 ≤ 999999999) :
    adjStep s b = tbMove (putB s (TNS_ADJ_STATUS b) 30 false) b
      (Int.toNat ((((tbOf s b).v : Int) + ((getR64 s (TNS_ARG_SEC_LO b)).toInt * 1000000000 +
        (getF s (TNS_ARG_NS b) 29 0 : Int)) * (fracOne : Int)) % (tbMod : Int))) :=
  if_neg (Nat.not_lt.mpr h)

theorem adjSet_format {b : Nat} (h : 999999999 < getF s (TNS_ARG_NS b) 29 0) :
    adjSet s b = putB s (TNS_ADJ_STATUS b) 30 true := if_pos h

theorem adjStep_format {b : Nat} (h : 999999999 < getF s (TNS_ARG_NS b) 29 0) :
    adjStep s b = putB s (TNS_ADJ_STATUS b) 30 true := if_pos h

theorem holdExpiry_ends {b : Nat} (h : getF s (TNS_TB_CTRL b) 15 0 ≠ 0) (hv : tbValid s b = true) :
    holdExpiry s b = putB (changeValid
      (advanceNs s ((tbOf s b).servo.toNat + getF s (TNS_TB_CTRL b) 15 0 * 1000000000)) b false) (TNS_TB_CTRL b) 28 true :=
  if_neg (not_or_intro h (not_eq_false_of_true hv))

end

/-- Settles O41. -/
theorem timeBases : Obligations.TimeBases := by
  unfold Obligations.TimeBases
  exact ⟨fun s h => congrArg Host.Outcome.next (refLoss_present h),
    fun s h => congrArg Host.Outcome.next (refLoss_absent h),
    fun s h hc => congrArg Host.Outcome.next ((refLoss_present h).trans
      (congrArg (raiseIrq · TNS 14) (refFollow_lost hc))),
    fun s h => congrArg Host.Outcome.next (refRegain_absent h),
    fun s h => congrArg Host.Outcome.next (if_pos h),
    fun m v s h => next_write h rfl,
    fun m b v s h hp => next_write h (tbGuarded_open hp),
    fun m b v ppm s h ha hp => ⟨next_write h (tbGuarded_protected hp), next_write ha (tbGuarded_protected hp),
      next_write ha (tbGuarded_protected hp), next_write ha (tbGuarded_protected hp),
      next_write ha (tbGuarded_protected hp)⟩,
    fun m b s h hp hn => next_write h ((tbGuarded_open hp).trans (adjSet_moves hn)),
    fun m b s h hp hn => next_write h ((tbGuarded_open hp).trans (adjStep_moves hn)),
    fun m b s h hp hn => ⟨next_write h ((tbGuarded_open hp).trans (adjSet_format hn)),
      next_write h ((tbGuarded_open hp).trans (adjStep_format hn))⟩,
    fun m b ppm s h hp => next_write h (tbGuarded_open hp),
    fun m b s h hp => next_write h (tbGuarded_open hp),
    fun b s h => congrArg Host.Outcome.next (if_neg h),
    fun b s h => congrArg Host.Outcome.next (if_pos h),
    fun b s h hv => congrArg Host.Outcome.next (holdExpiry_ends h hv),
    fun b s h => congrArg Host.Outcome.next (if_pos h),
    fun m v s h => next_write h rfl,
    fun m b s h => next_read h rfl⟩

/-! Captures. -/

section
variable {s : State} {i : Nat}

theorem captureEdge_records {up : Bool} {ph : Nat} (h : capTakes s i up = true) (hl : (capsOf s i).length < 4) :
    captureEdge s i up ph =
      (let b := getF s (TNS_CAP_CTRL i) 30 29
       let v := tbAtPhase s b ph
       let r : CapRec :=
         { t := s.time.tense + BitVec.ofNat 64 ph, sec := BitVec.ofNat 64 (vSec v), ns := vNs v, frac := vFrac v
           rising := up, valid := tbValid s b }
       raiseIrq (capsSet s i (capsOf s i ++ [r])) TNS (2 + i)) := by
  unfold captureEdge
  rw [h, if_neg (by decide), if_neg (Nat.not_le.mpr hl)]

theorem captureEdge_lost {up : Bool} {ph : Nat} (h : capTakes s i up = true) (hl : 4 ≤ (capsOf s i).length) :
    captureEdge s i up ph = bump (putB s (TNS_CAP_STATUS i) 8 true) (TNS_CAP_LOST i) := by
  unfold captureEdge
  rw [h, if_neg (by decide), if_pos hl]

theorem captureEdge_ignored {up : Bool} {ph : Nat} (h : capTakes s i up = false) : captureEdge s i up ph = s := by
  unfold captureEdge
  rw [h]
  exact if_pos rfl

theorem capsOf_capsSet (l : List CapRec) : capsOf (capsSet s i l) i = l := sget_sset_eq ..

/-- A read of a unit latches what it reads for the master that reads. -/
def capLatch (m : Master) (i : Nat) (sec : DWord) (frac : Nat) (tn : DWord) (t : State) : State :=
  let t1 := setR (setR t (perM m (TNS_CAP_SEC_LO i)) (lo32 sec)) (perM m (TNS_CAP_SEC_HI i)) (hi32 sec)
  let t2 := setR t1 (perM m (TNS_CAP_FRAC i)) (w32 frac)
  setR (setR t2 (perM m (TNS_CAP_TNOW_LO i)) (lo32 tn)) (perM m (TNS_CAP_TNOW_HI i)) (hi32 tn)

theorem capNsRead_cons {m : Master} {r : CapRec} {l : List CapRec} (hl : capsOf s i = r :: l) :
    capNsRead m i s = (capLatch m i r.sec r.frac r.t (capsSet s i l),
      w32 (nb r.rising * 0x80000000 + nb r.valid * 0x40000000 + r.ns)) := by
  unfold capNsRead
  rw [hl]
  rfl

theorem capNsRead_nil {m : Master} (hl : capsOf s i = []) :
    capNsRead m i s = (capLatch m i 0 0 0 s, 0x3FFFFFFF#32) := by
  unfold capNsRead
  rw [hl]
  rfl

theorem keeps_capLatch {m : Master} {pset : List Part} {z t : State} {sec tn : DWord} {frac : Nat}
    (hr : Part.regs ∈ pset) (hk : Keeps pset z t) : Keeps pset z (capLatch m i sec frac tn t) :=
  K.setR hr (K.setR hr (K.setR hr (K.setR hr (K.setR hr hk))))

/-- The read of a unit that holds records takes the oldest. -/
theorem capNsRead_takes {m : Master} {r : CapRec} {l : List CapRec} (h : MayRead s m (TNS_CAP_NS i))
    (hl : capsOf s i = r :: l) : ∃ t, (.next (gatedRead m (TNS_CAP_NS i) (capNsRead m i) s) : Res) = .next t ∧
      t.resp = .ok (w32 (nb r.rising * 0x80000000 + nb r.valid * 0x40000000 + r.ns)) ∧ capsOf t i = l ∧
      getR t (perM m (TNS_CAP_TNOW_HI i)) = hi32 r.t ∧ Only [.regs, .time, .resp] s t :=
  ⟨_, next_read h (capNsRead_cons hl), rfl, capsOf_capsSet l, getR_setR_same _ _ _,
    (K.answer (by decide) (keeps_capLatch (by decide) (K.capsSet (by decide) (Keeps.refl _ s)))).only⟩

theorem capNsRead_empty {m : Master} (h : MayRead s m (TNS_CAP_NS i)) (hl : capsOf s i = []) :
    ∃ t, (.next (gatedRead m (TNS_CAP_NS i) (capNsRead m i) s) : Res) = .next t ∧
      t.resp = .ok 0x3FFFFFFF#32 ∧ Only [.regs, .resp] s t :=
  ⟨_, next_read h (capNsRead_nil hl), rfl, (K.answer (by decide) (keeps_capLatch (by decide) (Keeps.refl _ s))).only⟩

/-! Timed and PPS outputs. -/

/-- The write of an output's control word as it reaches the register. -/
abbrev outCtrlWrite (m : Master) (i : Nat) (v : Word) (s : State) : State :=
  plainWrite (regDesc .TNS 0 (TNS_OUT_CTRL i - TNS)) m ⟨.TNS, 0, TNS⟩ (TNS_OUT_CTRL i - TNS) v s

theorem outCtrl_arms {m : Master} {v : Word} (hm : fld v 25 24 ≠ 3) (h0 : getB s (TNS_OUT_CTRL i) 31 = false) :
    outCtrl m i (setBit v 31 true) s = outputsRest (outArm (outCtrlWrite m i (setBit v 31 true) s) i) := by
  have hf : fld (setBit v 31 true) 25 24 = fld v 25 24 := fld_setBit_ne (by decide) (by decide)
  have hb : bit (setBit v 31 true) 31 = true := bit_setBit_same (by decide)
  unfold outCtrl
  dsimp only
  rw [hf, if_neg hm, hb, show bit (getR s (TNS_OUT_CTRL i)) 31 = false from h0]
  rfl

theorem outCtrl_armed {m : Master} {v : Word} (hm : fld v 25 24 ≠ 3) (h0 : getB s (TNS_OUT_CTRL i) 31 = true) :
    outCtrl m i (setBit v 31 true) s = outputsRest (outCtrlWrite m i (setBit v 31 true) s) := by
  have hf : fld (setBit v 31 true) 25 24 = fld v 25 24 := fld_setBit_ne (by decide) (by decide)
  have hb : bit (setBit v 31 true) 31 = true := bit_setBit_same (by decide)
  unfold outCtrl
  dsimp only
  rw [hf, if_neg hm, hb, show bit (getR s (TNS_OUT_CTRL i)) 31 = true from h0]
  rfl

/-- A reserved mode leaves the mode that stands. -/
theorem outCtrl_armsReserved {m : Master} {v : Word} (hm : fld v 25 24 = 3)
    (h0 : getB s (TNS_OUT_CTRL i) 31 = false) :
    outCtrl m i (setBit v 31 true) s = outputsRest (outArm (outCtrlWrite m i
      (setFld (setBit v 31 true) 25 24 (getF s (TNS_OUT_CTRL i) 25 24)) s) i) := by
  have hf : fld (setBit v 31 true) 25 24 = fld v 25 24 := fld_setBit_ne (by decide) (by decide)
  have hb : ∀ k, bit (setFld (setBit v 31 true) 25 24 k) 31 = true :=
    fun _ => (bit_setFld_ne (by decide) (by decide)).trans (bit_setBit_same (by decide))
  unfold outCtrl
  dsimp only
  rw [hf, if_pos hm, hb, show bit (getR s (TNS_OUT_CTRL i)) 31 = false from h0]
  rfl

theorem timedOutputEvent_acts {e : Nat} (ht : getB s (BLK_CTRL TNS) 0 = true) (ho : getB s (TNS_OUT_CTRL i) 31 = true)
    (hn : (toutOf s i).next = some e) :
    timedOutputEvent s i = outEvent (if (toutOf s i).late then advanceCycles s 1
      else advanceTb s (getF s (TNS_OUT_CTRL i) 30 29) e) i := by
  unfold timedOutputEvent
  rw [ht, ho, hn]
  exact if_pos rfl

theorem timedOutputEvent_nothing
    (h : getB s (BLK_CTRL TNS) 0 = false ∨ getB s (TNS_OUT_CTRL i) 31 = false ∨ (toutOf s i).next = none) :
    timedOutputEvent s i = s := by
  unfold timedOutputEvent
  rcases h with h | h | h
  · rw [h, Bool.false_and, if_neg Bool.false_ne_true]
  · rw [h, Bool.and_false, if_neg Bool.false_ne_true]
  · rw [h]
    exact ite_self s

theorem pulseEnd_ends {w : Nat} (h : (toutOf s i).pulse = some w) :
    pulseEnd s i = toutSet (advanceNs s w) i { toutOf (advanceNs s w) i with active := false, pulse := none } := by
  unfold pulseEnd
  rw [h]

theorem pulseEnd_none (h : (toutOf s i).pulse = none) : pulseEnd s i = s := by
  unfold pulseEnd
  rw [h]

theorem ppsEvent_acts (ht : getB s (BLK_CTRL TNS) 0 = true) (ho : getB s (TNS_PPS_CTRL i) 31 = true) :
    ppsEvent s i =
      (let b := getF s (TNS_PPS_CTRL i) 30 29
       let s1 := advanceTb s b (ppsNext s i)
       if getB s1 (TNS_PPS_CTRL i) 28 && !(tbValid s1 b) then ppsSet s1 i { ppsOf s1 i with last := some (ppsNext s i) }
       else ppsSet s1 i
         { last := some (ppsNext s i)
           fallAt := tenseNs s1 + max 100 (min 999999999 (getR s1 (TNS_PPS_WIDTH i)).toNat) }) := by
  unfold ppsEvent
  rw [ht, ho]
  exact if_pos rfl

theorem ppsEvent_off (h : getB s (BLK_CTRL TNS) 0 = false ∨ getB s (TNS_PPS_CTRL i) 31 = false) : ppsEvent s i = s := by
  unfold ppsEvent
  rcases h with h | h
  · rw [h, Bool.false_and, if_neg Bool.false_ne_true]
  · rw [h, Bool.and_false, if_neg Bool.false_ne_true]

end

/-- Settles O42. -/
theorem capturesAndOutputs : Obligations.CapturesAndOutputs := by
  unfold Obligations.CapturesAndOutputs
  exact ⟨fun i up ph s h hl => congrArg Host.Outcome.next (captureEdge_records h hl),
    fun i up ph s h hl => congrArg Host.Outcome.next (captureEdge_lost h hl),
    fun i up ph s h => congrArg Host.Outcome.next (captureEdge_ignored h),
    fun m i r l s h hl => capNsRead_takes h hl,
    fun m i s h hl => capNsRead_empty h hl,
    fun m s h => next_read h rfl,
    fun m i v s h hm h0 => next_write h (outCtrl_arms hm h0),
    fun m i v s h hm h0 => next_write h (outCtrl_armsReserved hm h0),
    fun m i v s h hm h0 => next_write h (outCtrl_armed hm h0),
    fun i e s ht ho hn => congrArg Host.Outcome.next (timedOutputEvent_acts ht ho hn),
    fun i s h => congrArg Host.Outcome.next (timedOutputEvent_nothing h),
    fun i w s h => congrArg Host.Outcome.next (pulseEnd_ends h),
    fun i s h => congrArg Host.Outcome.next (pulseEnd_none h),
    fun j s ht ho => congrArg Host.Outcome.next (ppsEvent_acts ht ho),
    fun j s h => congrArg Host.Outcome.next (ppsEvent_off h)⟩

end Sys2Proof.Proofs
end

section
/-! Device states, the supply, the scheduler and the clocks, the management port, telemetry and test. -/

namespace Sys2Proof.Proofs

open Sys2Proof Sys2Proof.Machine Sys2Proof.Machine.Reg Sys2Proof.Laws

/-! Requests for a device state. -/

section
variable {s : State} {t now : Nat}

theorem pwrReq_waits (h : pwrBusy s = true) :
    pwrReq t now s = putF (putB s PWR_STATUS 26 true) PWR_STATUS 25 24 t := if_pos h

theorem pwrReq_begins (h : pwrBusy s = false) : pwrReq t now s = pwrBegin t now s :=
  if_neg (ne_of_eq_of_ne h Bool.false_ne_true)

theorem pwrReq_wakes (h : pwrBusy s = false) (hd : devState s ≠ 0) : pwrReq 0 now s = wakeBegin s 0 :=
  (pwrReq_begins h).trans ((if_neg hd.symm).trans (if_pos rfl))

theorem awake_of (h : devState s = 0) : awake s = true := decide_eq_true h

theorem not_awake (h : devState s ≠ 0) : awake s = false := decide_eq_false h

theorem not_quiescing (h : pwrBusy s = false) : quiescing s = false := by
  unfold quiescing
  rw [h, Bool.false_and]

/-- What nothing declines starts quiescence for the state asked for. -/
theorem pwrReq_quiesces (h : pwrBusy s = false) (hd : devState s = 0) (ht : t ≠ 0) (hn : declineOf s t now = none) :
    pwrReq t now s =
      (let s1 := putB (putF (putB (putB s PWR_STATUS 31 false) PWR_STATUS 23 true) PWR_STATUS 22 21 t) PWR_STATUS 20 false
       { s1 with pwr := { s1.pwr with waking := false, src := 0, at_ := s1.time.tense } }) := by
  rw [pwrReq_begins h]
  unfold pwrBegin
  rw [hd, if_neg ht, if_neg ht, if_neg (not_eq_false_of_true (awake_of hd)), hn]

theorem quiesceDone_enters (h : quiesced s = true) :
    quiesceDone now s =
      (let entered := match getF s PWR_STATUS 22 21 with
         | 1 => enterDoze s
         | 2 => enterRetain s
         | _ => enterVault s
       wakeMask now (pwrNext (pwrResult (putF entered PWR_STATUS 1 0 (getF s PWR_STATUS 22 21)) 0))) := by
  unfold quiesceDone
  exact if_pos h

theorem quiescing_advanceNs (n : Nat) : quiescing (advanceNs s n) = quiescing s := by
  obtain ⟨c, hc⟩ := pwr_advanceNs s n
  unfold quiescing pwrBusy getB
  rw [getR_advanceNs, hc]

theorem quiesceTimeout_abandons (h : quiescing s = true) :
    quiesceTimeout s =
      pwrNext (pwrResult (advanceNs s (s.pwr.at_.toNat + max 1 (getF s PWR_QUIESCE_US 15 0) * 1000)) 7) :=
  (if_pos h).trans (if_pos ((quiescing_advanceNs _).trans h))

section
variable {src : Nat}

theorem wakeMask_wakes (hd : devState s ≠ 0) (hb : pwrBusy s = false) (hh : wakeHits s src (devState s) ≠ 0) :
    wakeMask src s = wakeBegin s (wakeHits s src (devState s)) := by
  unfold wakeMask
  rw [not_quiescing hb, if_neg Bool.false_ne_true,
    if_neg (not_or_intro (ne_of_eq_of_ne hb Bool.false_ne_true) (ne_of_eq_of_ne (not_awake hd) Bool.false_ne_true)),
    if_neg hh]

theorem wakeMask_abandons (hq : quiescing s = true) (hh : wakeHits s src (getF s PWR_STATUS 22 21) ≠ 0) :
    wakeMask src s = pwrAbandon s 8 := by
  unfold wakeMask
  rw [if_pos hq, if_neg hh]

theorem wakeMask_noHit (h : wakeHits s src (if quiescing s then getF s PWR_STATUS 22 21 else devState s) = 0) :
    wakeMask src s = s := by
  unfold wakeMask
  split
  next hq =>
    rw [if_pos hq] at h
    exact if_pos h
  next hq =>
    rw [if_neg hq] at h
    rw [if_pos h]
    exact ite_self s

end

section
variable {e : BootEnv} (hb : pwrBusy s = true) (hw : s.pwr.waking = true)
include hb hw

theorem wakeDone_doze (h : devState s = 1) : wakeDone e s = wakeDoze e.us.toNat s := by
  unfold wakeDone
  rw [hb, hw, h]
  exact if_pos rfl

theorem wakeDone_retain (h : devState s = 2) : wakeDone e s = wakeRetain e.us.toNat s := by
  unfold wakeDone
  rw [hb, hw, h]
  exact if_pos rfl

theorem wakeDone_vault (h : devState s = 3) : wakeDone e s = wakeVault e s := by
  unfold wakeDone
  rw [hb, hw, h]
  exact if_pos rfl

end

theorem padRelease_releases {v : Word} (h : devState s < 2) :
    padRelease (fld v 9 0) s = setR s PWR_PAD_HOLD (getR s PWR_PAD_HOLD &&&
      ~~~ (if domOn s 29 then w32 (fld v 9 0) else setBit (w32 (fld v 9 0)) 6 false)) := by
  have hv : fld v 9 0 % 1024 = fld v 9 0 := Nat.mod_eq_of_lt (fld_lt v 9 0)
  unfold padRelease
  rw [if_pos h, hv]

end

/-- Settles O43. -/
theorem deviceStateCommands : Obligations.DeviceStateCommands := by
  unfold Obligations.DeviceStateCommands
  exact ⟨fun m s h hb hd => next_write h (pwrReq_wakes hb hd),
    fun m s h hb => next_write h (pwrReq_waits hb),
    fun m now s h hb hd hn => next_write h (pwrReq_quiesces hb hd (by decide) hn),
    fun m now s h hb hd hn => next_write h (pwrReq_quiesces hb hd (by decide) hn),
    fun m now s h hb hd hn => next_write h (pwrReq_quiesces hb hd (by decide) hn),
    fun now s h => congrArg Host.Outcome.next (quiesceDone_enters h),
    fun s h => congrArg Host.Outcome.next (quiesceTimeout_abandons h),
    fun src s hd hb hh => congrArg Host.Outcome.next (wakeMask_wakes hd hb hh),
    fun src s hq hh => congrArg Host.Outcome.next (wakeMask_abandons hq hh),
    fun src s h => congrArg Host.Outcome.next (wakeMask_noHit h),
    fun e s hb hw h => congrArg Host.Outcome.next (wakeDone_doze hb hw h),
    fun e s hb hw h => congrArg Host.Outcome.next (wakeDone_retain hb hw h),
    fun e s hb hw h => congrArg Host.Outcome.next (wakeDone_vault hb hw h),
    fun m v s h hd => next_write h (padRelease_releases hd),
    fun m v s h => next_write h rfl⟩

/-! The supply, the scheduler, clock steps and the RTC. -/

section
variable {s : State} {aon : Bool}

theorem supplyHeld_warned : supplyHeld (raiseIrq (putB s PWR_SUPPLY_STATUS (nb aon) true) PWR (2 + nb aon)) = supplyHeld s :=
  congrArg (bit · 30) ((Plain.raiseIrq (by decide) (by decide) _ _).trans (getR_putB_ne (by decide)))

theorem supplyWarn_starts (hr : s.sys.held = false) (hw : getB s PWR_SUPPLY_STATUS (nb aon) = false)
    (hd : aon = true ∨ devState s < 2) (hs : supplyHeld s = false) :
    supplyWarn aon s =
      pwrAbandon (migsDrop (gateSupply (raiseIrq (putB s PWR_SUPPLY_STATUS (nb aon) true) PWR (2 + nb aon)))) 1 := by
  have ha : (!aon && decide (2 ≤ devState s)) = false := by
    rcases hd with h | h
    · rw [h]
      rfl
    · rw [decide_eq_false (Nat.not_le.mpr h), Bool.and_false]
  unfold supplyWarn
  dsimp only
  rw [hr, hw, ha, supplyHeld_warned, hs, if_neg (by decide), if_neg Bool.false_ne_true]

/-- Of one warning alone, the other's bit is clear. -/
theorem oneWarning (b : Bool) :
    bit (w32 (1 + nb b)) (nb b) = true ∧ fld (setBit (w32 (1 + nb b)) (nb b) false) 1 0 = 0 := by
  cases b <;> decide

theorem warned_over (h : getR s PWR_SUPPLY_STATUS = w32 (1 + nb aon)) :
    warned (raiseIrq (putB s PWR_SUPPLY_STATUS (nb aon) false) PWR (2 + nb aon)) = false := by
  have hw : getR (raiseIrq (putB s PWR_SUPPLY_STATUS (nb aon) false) PWR (2 + nb aon)) PWR_SUPPLY_STATUS =
      setBit (w32 (1 + nb aon)) (nb aon) false := by
    rw [Plain.raiseIrq (by decide) (by decide), getR_putB_same, h]
  unfold warned getF
  rw [hw, (oneWarning aon).2]
  rfl

theorem supplyOver_last (h : getR s PWR_SUPPLY_STATUS = w32 (1 + nb aon)) :
    supplyOver aon s = gateSupplyClear (raiseIrq (putB s PWR_SUPPLY_STATUS (nb aon) false) PWR (2 + nb aon)) := by
  have hw : getB s PWR_SUPPLY_STATUS (nb aon) = true := by
    unfold getB
    rw [h]
    exact (oneWarning aon).1
  unfold supplyOver
  dsimp only
  rw [if_pos hw, warned_over h, if_neg Bool.false_ne_true]

theorem mgpRestart_restarts (h : s.sys.held = false) :
    mgpRestart s = (let f := fresh (mgpStart (freeLocksOf mMGP (migsDrop s)))
      { f.2 with sys := { f.2.sys with mgpDownTil := f.2.time.tense + BitVec.ofNat 64 (f.1.toNat % 20000001) } }) :=
  if_neg (ne_of_eq_of_ne h Bool.false_ne_true)

theorem held_fresh : (fresh s).2.sys.held = s.sys.held := rfl

theorem budgetTick_ticks {est : Nat} {p : Forecast} (ha : awake s = true) (hf : plcFrozen s = false)
    (hr : s.time.running = true) :
    budgetTick est p s =
      (let s1 := setR (advanceNs s ((tenseNs s / 1000000 + 1) * 1000000)) PWR_EST (w32 est)
       let cap : Int := (max 15000 (min 52000 (getF s1 PWR_CAP 15 0)) : Nat)
       let tcap : Int := (est : Int) + (getF s1 TMP_GAIN 15 0 : Int) * ((getF s1 TMP_LIMIT 7 0 : Int) - maxC s1 - 2)
       let excess : Int := (est : Int) - min cap tcap
       let s2 := if 0 < excess then raiseIrq (shed p excess s1) PWR 4
         else if (getF s1 PWR_RESTORE_MARGIN 15 0 : Int) ≤ -excess then restoreOne p (-excess) s1
         else s1
       setR s2 PWR_SCHED_STATUS (w32 (nb (decide (0 < excess)) * 0x80000000 + schedStage s2))) :=
  if_neg (not_or_intro (not_eq_false_of_true ha)
    (not_or_intro (ne_of_eq_of_ne hf Bool.false_ne_true) (not_eq_false_of_true hr)))

section
variable {c : Nat} {v : Word}

theorem stepWrite_takes (h : fld v 1 0 = 0 ∨ clusterClass0 s c = false) :
    stepWrite c (fld v 1 0) s =
      (let s1 := putF s (CLK_CLUSTER_STEP c) 1 0 (fld v 1 0)
       putB s1 (CLK_CLUSTER_STEP c) 9 (decide (getF s1 (CLK_CLUSTER_STEP c) 5 4 ≠ fld v 1 0))) := by
  have hv : fld v 1 0 % 4 = fld v 1 0 := Nat.mod_eq_of_lt (fld_lt v 1 0)
  unfold stepWrite stepPut
  dsimp only
  rw [hv, if_neg (fun hg => h.elim hg.1 (ne_of_eq_of_ne · Bool.false_ne_true hg.2))]

theorem stepWrite_refused (h : fld v 1 0 ≠ 0) (hc : clusterClass0 s c = true) :
    stepWrite c (fld v 1 0) s = raiseIrq (bump s CLK_STEP_REFUSED) CLK 1 := by
  have hv : fld v 1 0 % 4 = fld v 1 0 := Nat.mod_eq_of_lt (fld_lt v 1 0)
  unfold stepWrite
  rw [hv, if_pos ⟨h, hc⟩]

section
variable (hw : getF s (CLK_CLUSTER_STEP c) 1 0 ≠ getF s (CLK_CLUSTER_STEP c) 5 4) (hd : stepDeferred s c = false)
include hw hd

theorem stepApply_applies (h : getF s (CLK_CLUSTER_STEP c) 1 0 = 0 ∨ clusterClass0 s c = false) :
    stepApply c s = raiseIrq (bump (putB (putF s (CLK_CLUSTER_STEP c) 5 4 (getF s (CLK_CLUSTER_STEP c) 1 0))
      (CLK_CLUSTER_STEP c) 9 false) CLK_STEP_CHANGES) CLK 2 := by
  unfold stepApply
  dsimp only
  rw [if_neg (not_or_intro hw (ne_of_eq_of_ne hd Bool.false_ne_true)),
    if_neg (fun hg => h.elim hg.1 (ne_of_eq_of_ne · Bool.false_ne_true hg.2))]

theorem stepApply_refused (h : getF s (CLK_CLUSTER_STEP c) 1 0 ≠ 0) (hc : clusterClass0 s c = true) :
    stepApply c s =
      stepPut c (getF s (CLK_CLUSTER_STEP c) 5 4) (raiseIrq (bump s CLK_STEP_REFUSED) CLK 1) := by
  unfold stepApply
  dsimp only
  rw [if_neg (not_or_intro hw (ne_of_eq_of_ne hd Bool.false_ne_true)), if_pos ⟨h, hc⟩]

end

end

theorem rtcAlarm_fires (h : s.time.rtcOn = true) (hs : rtcSec s ≤ rtcAlarmSec s) :
    rtcAlarm s =
      (let ticks := rtcAlarmSec s * 32768 - s.time.rtc
       wakeSource 9 (raiseIrq (advanceCycles s ((ticks * 1000000000 / 32768 + 7) / 4 * (if ticks = 0 then 0 else 1)))
         PWR 6)) :=
  if_neg (not_or_intro (not_eq_false_of_true h) (Nat.not_lt.mpr hs))

theorem mgpWatchdogExpiry_restarts (h : s.sys.held = false) :
    exec .mgpWatchdogExpiry s = .next
      (let s1 := advanceNs (fresh s).2 ((coreOf s mgpCore).wdtAt.toNat + (1 + (fresh s).1.toNat % 100) * 1000000)
       let f := fresh (mgpStart (freeLocksOf mMGP (migsDrop s1)))
       { f.2 with sys := { f.2.sys with mgpDownTil := f.2.time.tense + BitVec.ofNat 64 (f.1.toNat % 20000001) } }) :=
  congrArg Host.Outcome.next (mgpRestart_restarts ((held_advanceNs _ _).trans (held_fresh.trans h)))

end

/-- Settles O44. -/
theorem supplyThermalAndClockCommands : Obligations.SupplyThermalAndClockCommands := by
  unfold Obligations.SupplyThermalAndClockCommands
  exact ⟨fun aon s hr hw hd hs => congrArg Host.Outcome.next (supplyWarn_starts hr hw hd hs),
    fun aon s h => congrArg Host.Outcome.next (supplyOver_last h),
    fun s h => mgpWatchdogExpiry_restarts h,
    fun est p s ha hf hr => congrArg Host.Outcome.next (budgetTick_ticks ha hf hr),
    fun m c v s h hv => next_write h (stepWrite_takes hv),
    fun m c v s h hv hc => next_write h (stepWrite_refused hv hc),
    fun c s hw hd h => congrArg Host.Outcome.next (stepApply_applies hw hd h),
    fun c s hw hd h hc => congrArg Host.Outcome.next (stepApply_refused hw hd h hc),
    fun c s h => congrArg Host.Outcome.next (if_pos h),
    fun l s hl hb => ⟨_, rfl, (K.sensorSample (by decide) (by decide) (by decide) (by decide) (by decide) (by decide)
      (by decide) (Keeps.refl _ s)).only, sensorSample_reads hl hb⟩,
    fun bad s => ⟨_, rfl, (K.calibrate (by decide) (by decide) (by decide) (by decide) (Keeps.refl _ s)).only,
      calibrate_badCal _ s, fun i h => calibrate_invalid _ s i h⟩,
    fun k s h => congrArg Host.Outcome.next (if_pos h),
    fun s h hs => congrArg Host.Outcome.next (rtcAlarm_fires h hs),
    fun m v s h => next_write h rfl⟩

/-! The management port. -/

section
variable {s : State} {rd : Bool} {a : Nat}

/-- The target has answered its address. -/
abbrev mgtMatched (s : State) (rd : Bool) (st : Option Nat) : State :=
  let s1 := putF s MGT_STATUS 1 0 (2 + nb rd)
  { s1 with mgt := { s1.mgt with first := true, stretch := st } }

theorem getR_mgtMatched {st : Option Nat} {k : Nat} (h : k ≠ MGT_STATUS) : getR (mgtMatched s rd st) k = getR s k :=
  getR_putF_ne (s := s) h

theorem pwrBusy_mgtMatched {st : Option Nat} : pwrBusy (mgtMatched s rd st) = pwrBusy s :=
  congrArg (bit · 23) (getR_mgtMatched (by decide))

theorem devState_mgtMatched {st : Option Nat} : devState (mgtMatched s rd st) = devState s :=
  congrArg (fld · 1 0) (getR_mgtMatched (by decide))

theorem wakeHits_mgtMatched {st : Option Nat} {src t : Nat} : wakeHits (mgtMatched s rd st) src t = wakeHits s src t := by
  unfold wakeHits wakeSeen wakeEnabled getF
  rw [getR_mgtMatched (by decide), getR_mgtMatched (by decide), getR_mgtMatched (by decide),
    getR_mgtMatched (by decide)]

theorem pwrBusy_wakeBegin (u : State) (n : Nat) : pwrBusy (wakeBegin u n) = true := by
  show bit (getR (putF (putB u PWR_STATUS 23 true) PWR_STATUS 22 21 0) PWR_STATUS) 23 = true
  rw [getR_putF_same, bit_setFld_ne (by decide) (by decide), getR_putB_same, bit_setBit_same (by decide)]

section
variable (ho : mgtOn s = true) (ha : a = getF s MGT_ADDR 6 0)
include ho ha

theorem mgtMatch_own :
    mgtMatch a rd s =
      (let s2 := mgtMatched s rd (if devState s = 1 then some s.time.aonNs else none)
       let s3 := wakeSource 8 s2
       if s3.pwr.waking && pwrBusy s3 && !(pwrBusy s2) then raiseIrq s3 MGT 2 else s3) := by
  have hd : devState (putF s MGT_STATUS 1 0 (2 + nb rd)) = devState s :=
    congrArg (fld · 1 0) (getR_putF_ne (by decide))
  unfold mgtMatch
  rw [if_neg (not_or_intro (not_eq_false_of_true ho) (not_not_intro ha))]
  dsimp only
  rw [hd]
  exact ite_congr rfl (fun _ => rfl) fun _ => rfl

theorem mgtMatch_awake (hd : devState s = 0) (hb : pwrBusy s = false) :
    mgtMatch a rd s = mgtMatched s rd none := by
  have hb2 : ∀ st, pwrBusy (mgtMatched s rd st) = false := fun st => pwrBusy_mgtMatched.trans hb
  have hw : ∀ st, wakeSource 8 (mgtMatched s rd st) = mgtMatched s rd st := fun st => by
    unfold wakeSource wakeMask
    rw [not_quiescing (hb2 st), if_neg Bool.false_ne_true, if_pos (.inr (awake_of (devState_mgtMatched.trans hd)))]
  rw [mgtMatch_own ho ha]
  dsimp only
  rw [hd, hw, hb2, Bool.and_false, Bool.false_and, if_neg Bool.false_ne_true, if_neg Nat.zero_ne_one]

theorem mgtMatch_wakes (hd : devState s = 1) (hb : pwrBusy s = false) (hh : wakeHits s (2 ^ 8) 1 ≠ 0) :
    mgtMatch a rd s =
      raiseIrq (wakeBegin (mgtMatched s rd (some s.time.aonNs)) (wakeHits s (2 ^ 8) 1)) MGT 2 := by
  have hd2 : ∀ st, devState (mgtMatched s rd st) = 1 := fun st => devState_mgtMatched.trans hd
  have hb2 : ∀ st, pwrBusy (mgtMatched s rd st) = false := fun st => pwrBusy_mgtMatched.trans hb
  have hw : ∀ st, wakeSource 8 (mgtMatched s rd st) = wakeBegin (mgtMatched s rd st) (wakeHits s (2 ^ 8) 1) := fun st => by
    unfold wakeSource
    rw [wakeMask_wakes (by rw [hd2]; decide) (hb2 st) (by rw [hd2, wakeHits_mgtMatched]; exact hh), hd2,
      wakeHits_mgtMatched]
  rw [mgtMatch_own ho ha]
  dsimp only
  rw [hd, if_pos rfl, hw, hb2, pwrBusy_wakeBegin]
  rfl

end

section
variable {b : Byte} {stop : Bool} (h1 : getB s MGT_STATUS 1 = true)
include h1

theorem mgtByte_notReady (hd : devState s ≠ 1) (hr : getB s MGT_STATUS 31 = false) :
    mgtByte b stop s = mgtStop stop (mgtNack s) := by
  unfold mgtByte
  rw [if_neg (not_eq_false_of_true h1), if_neg hd, if_pos (.inl hr)]

section
variable (hr : getB s MGT_STATUS 31 = true) (hd : devState s = 0)
include hr hd

/-- What a ready target does, by direction and by its queues. -/
theorem mgtByte_ready : mgtByte b stop s =
    if getB s MGT_STATUS 0 then
      match s.mgt.tx with
      | [] => raiseIrq (mgtStretch s) MGT 1
      | x :: r => mgtStop stop (emit { s with mgt := { s.mgt with tx := r, stretch := none } } (.mgt (some x)))
    else if 16 ≤ s.mgt.rx.length then mgtStretch s
    else
      let w := w32 (0x80000000 + nb stop * 0x200 + nb s.mgt.first * 0x100 + b.toNat)
      mgtStop stop (mgtRaw { s with mgt := { s.mgt with rx := s.mgt.rx ++ [w], first := false, stretch := none } }) := by
  unfold mgtByte
  rw [if_neg (not_eq_false_of_true h1), if_neg (ne_of_eq_of_ne hd (by decide))]
  exact if_neg (not_or_intro (not_eq_false_of_true hr) (not_eq_false_of_true (awake_of hd)))

theorem mgtByte_receives (h0 : getB s MGT_STATUS 0 = false) (hl : s.mgt.rx.length < 16) :
    mgtByte b stop s = mgtStop stop (mgtRaw { s with mgt := { s.mgt with
      rx := s.mgt.rx ++ [w32 (0x80000000 + nb stop * 0x200 + nb s.mgt.first * 0x100 + b.toNat)]
      first := false, stretch := none } }) := by
  rw [mgtByte_ready h1 hr hd, if_neg (ne_of_eq_of_ne h0 Bool.false_ne_true), if_neg (Nat.not_le.mpr hl)]

theorem mgtByte_full (h0 : getB s MGT_STATUS 0 = false) (hl : 16 ≤ s.mgt.rx.length) :
    mgtByte b stop s = mgtStretch s := by
  rw [mgtByte_ready h1 hr hd, if_neg (ne_of_eq_of_ne h0 Bool.false_ne_true), if_pos hl]

theorem mgtByte_sends {x : Byte} {l : List Byte} (h0 : getB s MGT_STATUS 0 = true) (ht : s.mgt.tx = x :: l) :
    mgtByte b stop s =
      mgtStop stop (emit { s with mgt := { s.mgt with tx := l, stretch := none } } (.mgt (some x))) := by
  rw [mgtByte_ready h1 hr hd, if_pos h0, ht]

theorem mgtByte_nothingToSend (h0 : getB s MGT_STATUS 0 = true) (ht : s.mgt.tx = []) :
    mgtByte b stop s = raiseIrq (mgtStretch s) MGT 1 := by
  rw [mgtByte_ready h1 hr hd, if_pos h0, ht]

end

end

theorem mgtRead_cons {w : Word} {l : List Word} (h : s.mgt.rx = w :: l) :
    mgtRead s = (mgtRaw { s with mgt := { s.mgt with rx := l } }, w) := by
  unfold mgtRead
  rw [h]

theorem mgtRead_nil (h : s.mgt.rx = []) : mgtRead s = (s, 0) := by
  unfold mgtRead
  rw [h]

theorem mgtStretchEnd_nacks {t : Nat} (h : s.mgt.stretch = some t)
    (ht : s.time.aonNs < t + max 1 (getF s MGT_CFG 25 16) * 1000) :
    mgtStretchEnd s =
      mgtNack (advanceCycles s ((t + max 1 (getF s MGT_CFG 25 16) * 1000 - s.time.aonNs + 3) / 4)) := by
  unfold mgtStretchEnd
  rw [h]
  exact congrArg mgtNack (if_neg (Nat.not_le.mpr ht))

end

/-- Settles O45. -/
theorem managementPort : Obligations.ManagementPort := by
  unfold Obligations.ManagementPort
  exact ⟨fun rd a s ho ha hd hb => congrArg Host.Outcome.next (mgtMatch_awake ho ha hd hb),
    fun rd a s ho ha hd hb hh => congrArg Host.Outcome.next (mgtMatch_wakes ho ha hd hb hh),
    fun rd a s h => congrArg Host.Outcome.next (if_pos h),
    fun b stop s h1 h0 hr hd hl => congrArg Host.Outcome.next (mgtByte_receives h1 hr hd h0 hl),
    fun b stop s h1 h0 hr hd hl => congrArg Host.Outcome.next (mgtByte_full h1 hr hd h0 hl),
    fun b stop s h1 hd hr => congrArg Host.Outcome.next (mgtByte_notReady h1 hd hr),
    fun b x l stop s h1 h0 hr hd ht => congrArg Host.Outcome.next (mgtByte_sends h1 hr hd h0 ht),
    fun b stop s h1 h0 hr hd ht => congrArg Host.Outcome.next (mgtByte_nothingToSend h1 hr hd h0 ht),
    fun m w l s h hl => next_read h (mgtRead_cons hl),
    fun m s h hl => next_read h (mgtRead_nil hl),
    fun m v s h hl => next_write h (if_neg (Nat.not_le.mpr hl)),
    fun t s h ht => congrArg Host.Outcome.next (mgtStretchEnd_nacks h ht)⟩

/-! Telemetry, the analog test buses and the test access port. -/

section
variable {s : State} {b : Nat} {v : Word}

theorem telemSnapshot_copies (hp : phase s = phRun) (hd : devState s = 0)
    (hf : plcFrozen (advanceNs s ((tenseNs s / 1000000000 + 1) * 1000000000)) = false) :
    telemSnapshot s =
      telemCopy (cntCtrl ⟨.SYS, 0, SYS⟩ 1 (advanceNs s ((tenseNs s / 1000000000 + 1) * 1000000000))) := by
  have hg : (decide (phase s = phRun) && awake s) = true := Bool.and_eq_true_iff.mpr ⟨decide_eq_true hp, awake_of hd⟩
  unfold telemSnapshot
  rw [if_pos hg]
  exact if_neg (ne_of_eq_of_ne hf Bool.false_ne_true)

theorem atbSelect_refused (h : getB s ATB_STATUS 31 = false) :
    atbSelect b v s = raiseIrq (satInc (setR s (ATB_SEL0 + 4 * b) (w32 (fld v 5 0))) ATB_REFUSED) ATB 0 := by
  unfold atbSelect
  exact if_neg (ne_of_eq_of_ne h Bool.false_ne_true)

theorem atbSelect_disconnects (h : getB s ATB_STATUS 31 = true) (hn : getR s (ATB_SEL0 + 4 * b) ≠ w32 (fld v 5 0)) :
    atbSelect b v s =
      (let s1 := setR s (ATB_SEL0 + 4 * b) (w32 (fld v 5 0))
       putF { s1 with test := { s1.test with atb := sset s1.test.atb b s1.time.tense } } ATB_STATUS
         (8 * b + 5) (8 * b) 0) := by
  unfold atbSelect
  exact (if_pos h).trans (if_neg (ne_of_eq_of_ne (decide_eq_false hn) Bool.false_ne_true))

theorem atbConnect_connects {t : DWord} (h : sfind s.test.atb b = some t) :
    atbConnect b s =
      (let s1 := advanceNs s (t.toNat + 1000)
       putF { s1 with test := { s1.test with atb := sdel s1.test.atb b } } ATB_STATUS (8 * b + 5) (8 * b)
         (getF s1 (ATB_SEL0 + 4 * b) 5 0)) := by
  unfold atbConnect
  rw [h]
  rfl

theorem atbFollow_enables (hw : getB s VLT_POLICY 3 = true ∨ dbgScope s 3 = true) (ho : getB s ATB_STATUS 31 = false) :
    atbFollow s =
      (let s1 := raiseIrq (putB s ATB_STATUS 31 true) ATB 1
       let s2 := { s1 with test := { s1.test with atb := [] } }
       let s3 := putF s2 ATB_STATUS 5 0 (getF s2 ATB_SEL0 5 0)
       putF s3 ATB_STATUS 13 8 (getF s2 ATB_SEL1 5 0)) := by
  have hwant : atbWanted s = true := Bool.or_eq_true_iff.mpr hw
  have hon : atbOn s = false := ho
  unfold atbFollow
  rw [hwant, hon, if_neg (by decide), if_pos rfl]
  rfl

theorem atbFollow_disables (hp : getB s VLT_POLICY 3 = false) (hd : dbgScope s 3 = false)
    (ho : getB s ATB_STATUS 31 = true) :
    atbFollow s =
      (let s1 := raiseIrq (putB s ATB_STATUS 31 false) ATB 1
       putF (putF { s1 with test := { s1.test with atb := [] } } ATB_STATUS 5 0 0) ATB_STATUS 13 8 0) := by
  have hwant : atbWanted s = false := Bool.or_eq_false_iff.mpr ⟨hp, hd⟩
  have hon : atbOn s = true := ho
  unfold atbFollow
  rw [hwant, hon, if_neg (by decide), if_neg Bool.false_ne_true]
  rfl

theorem tapDrive_first {code : Nat} (h : s.sys.scanLock = false) :
    tapDrive code s = (let s1 := { s with sys := { s.sys with scanLock := true } }
      tapLoad code (lockdownBegin (jRecord s1 5 (jMs s1 + 1) 0 0))) := if_neg (ne_of_eq_of_ne h Bool.false_ne_true)

end

/-- Settles O46. -/
theorem telemetryAndTest : Obligations.TelemetryAndTest := by
  unfold Obligations.TelemetryAndTest
  exact ⟨fun s hp hd hf => congrArg Host.Outcome.next (telemSnapshot_copies hp hd hf),
    fun m b v s h h0 => next_write h (atbSelect_refused h0),
    fun m b v s h h1 hn => next_write h (atbSelect_disconnects h1 hn),
    fun b t s h => congrArg Host.Outcome.next (atbConnect_connects h),
    fun s hw ho => congrArg Host.Outcome.next (atbFollow_enables hw ho),
    fun s hp hd ho => congrArg Host.Outcome.next (atbFollow_disables hp hd ho),
    fun m s h => next_read h rfl,
    fun s => rfl, fun s => rfl, fun s => rfl, fun s => rfl, fun s => rfl,
    fun code s h => congrArg Host.Outcome.next (if_neg (ne_of_eq_of_ne h Bool.false_ne_true)),
    fun s h => congrArg Host.Outcome.next (tapDrive_first h),
    fun s h => congrArg Host.Outcome.next (if_pos h),
    fun s h => congrArg Host.Outcome.next (tapDrive_first h),
    fun s h => congrArg Host.Outcome.next (tapDrive_first h),
    fun s h => congrArg Host.Outcome.next (tapDrive_first h),
    fun s h => congrArg Host.Outcome.next (tapDrive_first h)⟩

end Sys2Proof.Proofs
end

section
/-! Packing FIFOs, alarm queues, locks and mailboxes, the queue of commands, the reset state and accesses that are
turned away. -/

namespace Sys2Proof.Proofs

open Sys2Proof Sys2Proof.Machine Sys2Proof.Machine.Reg Sys2Proof.Laws

/-! Packing FIFOs and alarm queues. -/

section
variable {s : State} {f a : Nat} {v : Word}

theorem fiqPop_cons {w t : Word} {r : List (Word × Word)} (h : (fiq s f).counted = (w, t) :: r) :
    fiqPop s f = (setR (fiqSet s f { fiq s f with counted := r }) (FIQ_TAG_LAST f) t, w) := by
  unfold fiqPop
  dsimp only
  rw [h]

theorem fiqPop_nil (h : (fiq s f).counted = []) :
    fiqPop s f = (setR s (FIQ_TAG_LAST f) 0x80000000#32, 0xFFFF0000#32) := by
  unfold fiqPop
  dsimp only
  rw [h]

theorem fiq_fiqSet (q : FiqSt) : fiq (fiqSet s f q) f = q := sget_sset_eq ..

theorem fiqCfg_flushes {m : Master} :
    fiqCfg f m (setBit v 1 true) s = if bit v 0 = fiqPacket s f then fiqSet s f FiqSt.init
      else putB (fiqSet s f FiqSt.init) (FIQ_FIFO_CFG f) 0 (bit v 0) := by
  have h1 : bit (setBit v 1 true) 1 = true := bit_setBit_same (by decide)
  have h0 : bit (setBit v 1 true) 0 = bit v 0 := bit_setBit_ne (by decide) (by decide)
  have hempty : fiqStored FiqSt.init = 0 := rfl
  unfold fiqCfg
  dsimp only
  rw [if_pos h1, h0, fiq_fiqSet, if_pos hempty]
  rfl

theorem aqPost_appends (hv : v ≠ 0xFFFF0000#32) (hl : (aqItems s a).length < 256) :
    aqPost a v s = aqSet s a (aqItems s a ++ [v]) := by
  unfold aqPost
  dsimp only
  rw [if_neg hv, if_pos hl]

theorem aqPost_displaces (hv : v ≠ 0xFFFF0000#32) (hl : (aqItems s a).length = 256)
    (hp : aqLow (aqItems s a) < aqPri v) :
    aqPost a v s = aqSet (raiseIrq (bump s (FIQ_Queue_counters a)) FIQ 2) a
      (aqDrop (aqItems s a) (aqLow (aqItems s a)) ++ [v]) := by
  unfold aqPost
  dsimp only
  rw [if_neg hv, if_neg (by rw [hl]; exact lt_irrefl _), if_pos hp]

/-- The highest priority from `n` on is `n` itself or an item's. -/
theorem maxPri_of (l : List Word) (n : Nat) :
    (l.foldl (fun n w => max n (aqPri w)) n = n ∧ ∀ w ∈ l, aqPri w ≤ n) ∨
      ∃ w ∈ l, aqPri w = l.foldl (fun n w => max n (aqPri w)) n := by
  induction l generalizing n with
  | nil => exact .inl ⟨rfl, fun w hw => absurd hw List.not_mem_nil⟩
  | cons x r ih =>
    rw [List.foldl_cons]
    rcases ih (max n (aqPri x)) with ⟨he, hle⟩ | ⟨w, hw, he⟩
    · rw [he]
      by_cases hx : aqPri x ≤ n
      · rw [Nat.max_eq_left hx] at hle ⊢
        exact .inl ⟨rfl, List.forall_mem_cons.mpr ⟨hx, hle⟩⟩
      · exact .inr ⟨x, List.mem_cons_self, (Nat.max_eq_right (Nat.le_of_not_le hx)).symm⟩
    · exact .inr ⟨w, List.mem_cons_of_mem x hw, he⟩

theorem aqHigh_mem {l : List Word} (h : l ≠ []) : ∃ w ∈ l, aqPri w = aqHigh l := by
  rcases maxPri_of l 0 with ⟨he, hle⟩ | hw
  · obtain ⟨w, hw⟩ := List.exists_mem_of_ne_nil l h
    exact ⟨w, hw, (Nat.le_zero.mp (hle w hw)).trans he.symm⟩
  · exact hw

theorem aqRead_takes (h : aqItems s a ≠ []) :
    ∃ w, (aqItems s a).find? (fun x => decide (aqPri x = aqHigh (aqItems s a))) = some w ∧
      aqRead a s = (aqSet s a (aqDrop (aqItems s a) (aqHigh (aqItems s a))), w) := by
  obtain ⟨x, hx, hp⟩ := aqHigh_mem h
  have hfound : ((aqItems s a).find? fun x => decide (aqPri x = aqHigh (aqItems s a))).isSome = true :=
    List.find?_isSome.mpr ⟨x, hx, decide_eq_true hp⟩
  obtain ⟨w, hw⟩ := Option.isSome_iff_exists.mp hfound
  refine ⟨w, hw, ?_⟩
  unfold aqRead
  dsimp only
  rw [hw]

end

/-- Settles O47. -/
theorem fifosAndAlarmQueues : Obligations.FifosAndAlarmQueues := by
  unfold Obligations.FifosAndAlarmQueues
  refine ⟨fun m f w t r s h hc => next_read h (fiqPop_cons hc),
    fun m f s h hc => next_read h (fiqPop_nil hc),
    fun m f v s h => next_write h fiqCfg_flushes,
    fun m a v s h hv hl => next_write h (aqPost_appends hv hl),
    fun m a v s h hv hl hp => next_write h (aqPost_displaces hv hl hp),
    fun m a s h hn => ?_,
    fun m a v s h hv => next_write h (if_pos hv)⟩
  obtain ⟨w, hw, hr⟩ := aqRead_takes hn
  exact ⟨w, hw, next_read h hr⟩

/-! Locks and mailboxes. -/

section
variable {s : State} {m : Master} {k : Nat} {v : Word}

theorem lockWrite_frees (h : getF s (LCK_OWNER k) 5 0 = m.toNat) : lockWrite k m 0 s = putF s (LCK_OWNER k) 5 0 0 :=
  (if_pos h).trans (if_pos rfl)

theorem lockForce_frees (h : getF s (LCK_OWNER (fld v 6 0)) 5 0 ≠ 0) : lockForce mSSP v s = lockFree (fld v 6 0) 0 s :=
  (if_pos rfl).trans (if_neg h)

theorem mbxLockRead_takes (ho : mbxOwner s k = 0) (hs : mbxState s k = 0) :
    mbxLockRead k m s = (mbxPut s k 1 m.toNat, 0) := by
  unfold mbxLockRead lockTake
  dsimp only
  rw [if_pos ho, if_pos ⟨ho, hs⟩]
  rfl

theorem mbxLockWrite_frees (ho : mbxOwner s k = m.toNat) (hs : mbxState s k = 1) :
    mbxLockWrite k m 0 s = mbxPut s k 0 0 := by
  unfold mbxLockWrite mbxUnlock
  rw [if_pos ho, if_pos rfl, if_pos hs]

theorem mbxResetCmd_empties (hv : bit v 0 = true) (hs : mbxState s k = 2) :
    mbxResetCmd k mSSP v s = mbxEmptied (mbxEnd s k 0x90) k := by
  unfold mbxResetCmd
  rw [if_pos hv, if_pos rfl, if_pos hs]

end

/-- Settles O48. -/
theorem locksAndMailboxes : Obligations.LocksAndMailboxes := by
  unfold Obligations.LocksAndMailboxes
  exact ⟨fun m k s h hf => exec_lockRead_free h hf,
    fun m k s h hh => ends_lockRead_held h hh,
    fun m k s h ho => next_write h (lockWrite_frees ho),
    fun v s h ho => next_write h (lockForce_frees ho),
    fun m k s h ho hs => next_read h (mbxLockRead_takes ho hs),
    fun m k s h ho hs => next_write h (mbxLockWrite_frees ho hs),
    fun m k v s h hv hs ho => next_write h (if_pos ⟨hv, hs, ho⟩),
    fun m k v s h hs hr hm hc => next_write h (if_pos ⟨hs, hr, hm, hc⟩),
    fun k v s h hv hs => next_write h (mbxResetCmd_empties hv hs)⟩

/-! The queue of commands. -/

section
variable {s : State} {c d : Instr}

theorem tieOrder_ofFirst (h : tieRank s c < tieRank s d) : tieOrder s [c, d] = [c, d] := by
  show (if tieRank s d < tieRank s c then [d, c] else [c, d]) = [c, d]
  rw [if_neg (Nat.not_lt_of_lt h)]

theorem tieOrder_ofSecond (h : tieRank s c < tieRank s d) : tieOrder s [d, c] = [c, d] := by
  show (if tieRank s c < tieRank s d then [c, d] else [d, c]) = [c, d]
  rw [if_pos h]

/-- Of two commands of one cycle the lower in rank stands first, however they are told. -/
theorem arrive_ranked (h : tieRank s c < tieRank s d) :
    (arrive [c, d] s).pending = s.pending ++ [c, d] ∧ (arrive [d, c] s).pending = s.pending ++ [c, d] :=
  ⟨congrArg (s.pending ++ ·) (tieOrder_ofFirst h), congrArg (s.pending ++ ·) (tieOrder_ofSecond h)⟩

theorem tieRank_registerWrite (m : Master) (a : Word) (p : AccSize) (v : Word) :
    tieRank s (.registerWrite m a p v) = 65536 * 100 + m.toNat := rfl

theorem tieRank_lockRead (m : Master) (k : Fin 128) : tieRank s (.lockRead m k) = 65536 * 100 + m.toNat := rfl

theorem step_front {l : List Instr} (h : s.pending = c :: l) : step s = exec c { s with pending := l } := by
  unfold step
  rw [h]

theorem step_idle (h : s.pending = []) : step s = .next (advanceCycles s 1) := by
  unfold step
  rw [h]
  rfl

end

/-- Settles O49. -/
theorem stepTakesTheFront : Obligations.StepTakesTheFront := by
  unfold Obligations.StepTakesTheFront
  refine ⟨fun c l s h => step_front h, fun s h => ⟨step_idle h, aonNs_advanceCycles s 1⟩,
    fun m n a b p q v w s h => arrive_ranked ?_, fun m n j k s h => arrive_ranked ?_⟩
  · rw [tieRank_registerWrite, tieRank_registerWrite]
    exact Nat.add_lt_add_left h _
  · rw [tieRank_lockRead, tieRank_lockRead]
    exact Nat.add_lt_add_left h _

/-! The state right after power-on: every register reads what its row gives at reset. -/

section
variable {n : Nat}

theorem getR_reset (a : Nat) : getR State.reset a = w32 (regReset a) := rfl

/-- What a route word reads at reset. -/
def routeReset (n : Nat) : Nat :=
  if (616 ≤ n ∧ n ≤ 631) ∨ n = 653 ∨ n = 654 then 0x80000003 else if n < 768 then 2 else 0

theorem pageOf_INT_ROUTE (h : n < 1024) : pageOf (INT_ROUTE n) = some ⟨.INT, 0, INT⟩ := by
  have hp : (INT_ROUTE n - 0x10000000) / 0x1000 = 5 := by unfold INT_ROUTE; omega
  unfold pageOf
  rw [if_neg (by unfold INT_ROUTE; omega)]
  simp only [hp, Nat.reduceEqDiff, Nat.reduceLT, if_false, if_true]

theorem descINT_route (h : n < 1024) : (descINT (0x1000 + 4 * n)).rst = routeReset n := by
  have hlow : inArr (0x1000 + 4 * n) 0x100 4 32 = false := by
    unfold inArr
    simp only [Bool.and_eq_false_iff, decide_eq_false_iff_not]
    omega
  have hin : inArr (0x1000 + 4 * n) 0x1000 4 1024 = true := by
    unfold inArr
    simp only [Bool.and_eq_true, decide_eq_true_eq]
    omega
  have hix : arrIx (0x1000 + 4 * n) 0x1000 4 = n := by unfold arrIx; omega
  unfold descINT routeReset
  rw [hlow, hin, hix, if_neg Bool.false_ne_true, if_pos rfl]
  dsimp only
  split
  · rfl
  · split <;> rfl

theorem regDesc_INT {off : Nat} (h : 0x40 ≤ off) : regDesc .INT 0 off = descINT off := if_neg (Nat.not_lt.mpr h)

/-- With the page's base left open, no check of a proof counts down from an address. -/
theorem regReset_of {a base off i : Nat} {b : Blk} (hp : pageOf a = some ⟨b, i, base⟩) (ho : a - base = off) :
    regReset a = (regDesc b i off).rst := by
  subst ho
  unfold regReset
  rw [hp]

theorem regReset_INT_ROUTE (h : n < 1024) : regReset (INT_ROUTE n) = routeReset n := by
  have hoff : INT_ROUTE n - INT = 0x1000 + 4 * n := by unfold INT_ROUTE INT; omega
  rw [regReset_of (pageOf_INT_ROUTE h) hoff, regDesc_INT (by omega), descINT_route h]

theorem getR_reset_route (h : n < 1024) : getR State.reset (INT_ROUTE n) = w32 (routeReset n) := by
  rw [getR_reset, regReset_INT_ROUTE h]

end

/-- Settles O50. -/
theorem resetState : Obligations.ResetState := by
  unfold Obligations.ResetState
  refine ⟨⟨wf_nil, rfl, rfl, rfl, by decide, by decide, by decide, by decide, by decide, by decide, by decide,
    by decide⟩, fun c => ⟨rfl, fun r => ite_self 0⟩, fun n h => ?_, fun n h hn => ?_, fun n hn => ?_⟩
  · unfold getB
    rw [getR_reset_route n.isLt, routeReset, if_pos h]
    decide
  · unfold getB
    rw [getR_reset_route n.isLt, routeReset, if_neg h, if_pos hn]
    decide
  · unfold getB
    rw [getR_reset_route n.isLt, routeReset, if_neg (by omega), if_neg (Nat.not_lt.mpr hn)]
    decide

end Sys2Proof.Proofs
end

section
/-! Accesses that are turned away. -/

namespace Sys2Proof.Proofs

open Sys2Proof Sys2Proof.Machine Sys2Proof.Machine.Reg Sys2Proof.Laws

/-! Which commands pass the access check of a register. -/

section
variable {c : Instr} {m : Master} {a : Nat}

theorem onHeader_gates {page : Word} {off : Nat} (f : Page → State → State) (s : State) :
    ∃ g, onHeader m page.toNat off f s = gatedWrite m (hdrAddr page off) g s := by
  unfold onHeader hdrAddr
  cases pageOf page.toNat with
  | none => exact ⟨_, rfl⟩
  | some pg => exact ⟨_, rfl⟩

theorem next_onHeader_gates {page : Word} {off : Nat} (f : Page → State → State) (s : State) :
    ∃ g, (.next (onHeader m page.toNat off f s) : Res) = .next (gatedWrite m (hdrAddr page off) g s) := by
  obtain ⟨g, hg⟩ := onHeader_gates f s
  exact ⟨g, congrArg Host.Outcome.next hg⟩

/-- A command that writes a register does so through the register's access check. -/
theorem writeOf_gates (h : writeOf c = some (m, a)) (s : State) : ∃ f, exec c s = .next (gatedWrite m a f s) := by
  cases c with dsimp only [writeOf] at h
  | cfgLockWrite m page v | softRst m page v | blockPowerRequest m page v | irqForce m page v | cntSnap m page v =>
    cases h
    exact next_onHeader_gates _ s
  | _ => cases h <;> exact ⟨_, rfl⟩

/-- A command that reads a register does so through the register's access check. -/
theorem readOf_gates (h : readOf c = some (m, a)) (s : State) : ∃ f, exec c s = .next (gatedRead m a f s) := by
  cases c with dsimp only [readOf] at h
  | _ => cases h <;> exact ⟨_, rfl⟩

end

/-! What is noted of an access that is turned away. -/

section
variable {s t : State} {m : Master} {a k : Nat}

/-- A register that no error record and no interrupt of the SEC page writes. -/
def ApartFromErrors (k : Nat) : Prop :=
  Still k ∧ k ∉ denyRegs ∧ k ≠ ERR_INFO SEC ∧ k ≠ ERR_ADDR SEC ∧ k ≠ IRQ_STATUS SEC

theorem apartFromErrors_of (hk : k < 0x10000000000) (h : errReg a k = false) : ApartFromErrors k := by
  unfold errReg at h
  rw [Bool.or_eq_false_iff] at h
  obtain ⟨hl, -⟩ := h
  simp only [List.contains_eq_mem, decide_eq_false_iff_not, List.mem_cons, List.not_mem_nil, or_false, not_or] at hl
  obtain ⟨h1, h2, h3, h4, h5, h6, h7, h8, h9⟩ := hl
  refine ⟨⟨hk, h7, h8, h9⟩, ?_, h4, h5, h6⟩
  simp only [denyRegs, List.mem_cons, List.not_mem_nil, or_false, not_or]
  exact ⟨h1, h2, h3⟩

theorem apartFromPage_of {pg : Page} (hp : pageOf a = some pg) (h : errReg a k = false) :
    k ≠ ERR_INFO pg.base ∧ k ≠ ERR_ADDR pg.base := by
  unfold errReg at h
  rw [Bool.or_eq_false_iff, hp] at h
  obtain ⟨-, hpage⟩ := h
  rw [Bool.or_eq_false_iff, decide_eq_false_iff_not, decide_eq_false_iff_not] at hpage
  exact hpage

theorem getR_recErr_apart {b code x : Nat} {w : Bool} (hk : ApartFromErrors k) (hi : k ≠ ERR_INFO b)
    (ha : k ≠ ERR_ADDR b) : getR (recErr s b code m x w) k = getR s k := by
  obtain ⟨hstill, -, -, -, hirq⟩ := hk
  unfold recErr
  dsimp only
  split
  · split
    · rw [getR_raiseIrq hstill hirq, getR_putB_ne hi]
    · exact getR_putB_ne hi
  · rw [getR_setR_ne ha, getR_setR_ne hi]

theorem getR_deny_apart {code x : Nat} {w : Bool} (hk : ApartFromErrors k) :
    getR (deny s code m x w) k = getR s k := by
  have hrec := getR_recErr_apart (s := s) (m := m) (code := code) (x := x) (w := w) hk hk.2.2.1 hk.2.2.2.1
  obtain ⟨hstill, hd, -, -, hirq⟩ := hk
  simp only [denyRegs, List.mem_cons, List.not_mem_nil, or_false, not_or] at hd
  obtain ⟨hcount, hinfo, haddr⟩ := hd
  unfold deny
  rw [getR_raiseIrq hstill hirq, getR_setR_ne haddr, getR_setR_ne hinfo, getR_satInc_ne hcount, hrec]

/-- From `s` to `t` an access of the register at `a` is noted, and nothing else happens. -/
def Noted (a : Nat) (s t : State) : Prop :=
  Keeps [.regs, .outs, .resp, .intc] s t ∧ ∀ k, k < 0x10000000000 → errReg a k = false → getR t k = getR s k

theorem noted_recErr {b code x : Nat} {w : Bool}
    (hb : ∀ k, errReg a k = false → k ≠ ERR_INFO b ∧ k ≠ ERR_ADDR b) : Noted a s (recErr s b code m x w) :=
  ⟨K.recErr (by decide) (by decide) (by decide) (Keeps.refl _ s),
    fun k hk h => getR_recErr_apart (apartFromErrors_of hk h) (hb k h).1 (hb k h).2⟩

theorem noted_unmapped {code x : Nat} {w : Bool} : Noted a s (recErr s SEC code m x w) := by
  refine ⟨K.recErr (by decide) (by decide) (by decide) (Keeps.refl _ s), fun k hk h => ?_⟩
  have hapart := apartFromErrors_of hk h
  obtain ⟨-, -, hi, ha, -⟩ := apartFromErrors_of hk h
  exact getR_recErr_apart hapart hi ha

theorem noted_deny {code x : Nat} {w : Bool} : Noted a s (deny s code m x w) :=
  ⟨K.deny (by decide) (by decide) (by decide) (Keeps.refl _ s),
    fun k hk h => getR_deny_apart (apartFromErrors_of hk h)⟩

theorem resp_writeErr : (writeErr m t).resp = if m = mHost then .ok 0 else .busErr := by
  unfold writeErr
  split <;> rfl

theorem turnedAway_writeErr (hp : ((pageOf a).isSome && portClosed s m) = false) (h : Noted a s t) :
    TurnedAway m a true s (writeErr m t) := by
  obtain ⟨hk, hr⟩ := h
  refine ⟨?_, (K.writeErr (by decide) hk).only, fun k hk he => (getR_writeErr m t k).trans (hr k hk he)⟩
  rw [resp_writeErr, hp, Bool.false_or, Bool.true_and]
  simp only [decide_eq_true_eq]

theorem turnedAway_answerErr (hp : ((pageOf a).isSome && portClosed s m) = false) (h : Noted a s t) :
    TurnedAway m a false s (answerErr t) := by
  obtain ⟨hk, hr⟩ := h
  refine ⟨?_, (K.answerErr (by decide) hk).only, hr⟩
  rw [hp]
  rfl

theorem turnedAway_closed {w : Bool} (hp : ((pageOf a).isSome && portClosed s m) = true) :
    TurnedAway m a w s (answer s 0) := by
  refine ⟨?_, (K.answer (by decide) (Keeps.refl _ s)).only, fun k _ _ => rfl⟩
  rw [hp]
  rfl

/-- What none of the access check's three steps turns away may pass. -/
theorem accessCheck_complete : ∀ closed may header ready : Bool, (!closed && may && (header || ready)) = false →
    ¬closed = true → ¬(!may) = true → ¬(!header && !ready) = true → False := by decide

/-- A write that may not pass is turned away. -/
theorem gatedWrite_turnedAway (f : State → State) (h : writeOpen s m a = false) :
    TurnedAway m a true s (gatedWrite m a f s) := by
  unfold writeOpen at h
  unfold gatedWrite
  cases hp : pageOf a with
  | none => exact turnedAway_writeErr (by rw [hp]; rfl) noted_unmapped
  | some pg =>
    rw [hp] at h
    dsimp only at h ⊢
    have hsome : ∀ b, ((pageOf a).isSome && b) = b := fun b => by rw [hp]; rfl
    split
    next hc => exact turnedAway_closed ((hsome _).trans hc)
    next hc =>
      have hport : ((pageOf a).isSome && portClosed s m) = false := (hsome _).trans (Bool.eq_false_iff.mpr hc)
      split
      next => exact turnedAway_writeErr hport noted_deny
      next hm =>
        split
        next => exact turnedAway_writeErr hport (noted_recErr fun k hk => apartFromPage_of hp hk)
        next hb => exact (accessCheck_complete _ _ _ _ h hc hm hb).elim

/-- A read that may not pass is turned away. -/
theorem gatedRead_turnedAway (f : State → State × Word) (h : readOpen s m a = false) :
    TurnedAway m a false s (gatedRead m a f s) := by
  unfold readOpen at h
  unfold gatedRead
  cases hp : pageOf a with
  | none => exact turnedAway_answerErr (by rw [hp]; rfl) noted_unmapped
  | some pg =>
    rw [hp] at h
    dsimp only at h ⊢
    have hsome : ∀ b, ((pageOf a).isSome && b) = b := fun b => by rw [hp]; rfl
    split
    next hc => exact turnedAway_closed ((hsome _).trans hc)
    next hc =>
      have hport : ((pageOf a).isSome && portClosed s m) = false := (hsome _).trans (Bool.eq_false_iff.mpr hc)
      split
      next => exact turnedAway_answerErr hport noted_deny
      next hm =>
        split
        next => exact turnedAway_answerErr hport (noted_recErr fun k hk => apartFromPage_of hp hk)
        next hb => exact (accessCheck_complete _ _ _ _ h hc hm hb).elim

end

/-- Settles O52: every such command goes through the access check of its register. -/
theorem refusedAccesses : Obligations.RefusedAccesses := by
  unfold Obligations.RefusedAccesses
  refine ⟨fun c m a s hc h => ?_, fun c m a s hc h => ?_⟩
  · obtain ⟨f, hf⟩ := writeOf_gates hc s
    exact ⟨_, hf, gatedWrite_turnedAway f h⟩
  · obtain ⟨f, hf⟩ := readOf_gates hc s
    exact ⟨_, hf, gatedRead_turnedAway f h⟩

end Sys2Proof.Proofs
end
